-- ==== Sys2Proof/Word.lean ====
section
/-! DEFINITION. Sys2Proof/Word.lean: words, bytes, instance numbers and the plainest arithmetic of the manual (00_scope R2, R9). -/

namespace Sys2Proof

abbrev Byte := BitVec 8
abbrev Halfword := BitVec 16
/-- A word is 32 bits (00_scope, Numbers and units). -/
abbrev Word := BitVec 32
/-- A physical quantity (V, A, W, K, s), exact as R9 asks. -/
abbrev Qty := Rat

/-- Instance numbers (00_scope, Hierarchy at a glance). -/
abbrev Slot := Fin 136
abbrev Chan := Fin 32
abbrev Quad := Fin 4
abbrev Src := Fin 4
abbrev Pm := Fin 88
abbrev Ring := Fin 32
abbrev Model := Fin 172
abbrev Table := Fin 5
/-- Islands 0 to 3 are QD0 to QD3, island 4 is housekeeping (R532). -/
abbrev Island := Fin 5
abbrev Fsrc := Fin 2048

/-- Quadrant of a slot, a channel and a modulator (00_scope: quadrant q holds slots 34q to 34q+33 and channels 8q to 8q+7;
09: PM 22q to 22q+21). -/
def Slot.quad (n : Slot) : Quad := ⟨n.1 / 34, by omega⟩
def Chan.quad (c : Chan) : Quad := ⟨c.1 / 8, by omega⟩
def Pm.quad (m : Pm) : Quad := ⟨m.1 / 22, by omega⟩
/-- Position of a modulator in its quadrant (09, Modulator positions and roles). -/
def Pm.pos (m : Pm) : Nat := m.1 % 22

/-- Field [lo + w - 1 : lo] of a number. -/
def bitsOf (x lo w : Nat) : Nat := (x >>> lo) % 2 ^ w

/-- Bit i of a number. -/
def bitOf (x i : Nat) : Bool := x.testBit i

/-- A Bool as the number of its bit. -/
def b2n (b : Bool) : Nat := if b then 1 else 0

/-- Two's complement reading of a w-bit number. -/
def signedOf (x w : Nat) : Int := if x.testBit (w - 1) then (x % 2 ^ w : Int) - 2 ^ w else (x % 2 ^ w : Int)

/-- Two's complement encoding of an integer in w bits. -/
def encSigned (x : Int) (w : Nat) : Nat := (x % (2 ^ w : Int)).toNat

/-- Little-endian number of a byte list (R2). -/
def leNat : List Byte → Nat
  | [] => 0
  | b :: bs => b.toNat + 256 * leNat bs

/-- Little-endian bytes of a number, n of them (R2). -/
def leBytes : Nat → Nat → List Byte
  | 0, _ => []
  | n + 1, x => BitVec.ofNat 8 x :: leBytes n (x / 256)

/-- A 16-bit counter that saturates at 65,535. -/
def satInc (x : Halfword) : Halfword := if x = 0xFFFF#16 then x else x + 1#16

/-- Addition into a counter that saturates at 65,535. -/
def satAdd (x : Halfword) (n : Nat) : Halfword := if x.toNat + n > 65535 then 0xFFFF#16 else x + BitVec.ofNat 16 n

/-- An 8-bit counter that saturates at 255. -/
def satInc8 (x : Byte) : Byte := if x = 0xFF#8 then x else x + 1#8

/-- Clamp of an ordered value (the pseudocode's clamp). -/
def clampQ (x lo hi : Qty) : Qty := max lo (min x hi)

/-- floor and round-half-up of a quantity (R9: floor rounds toward minus infinity; round(x) is floor(x + 1/2)). -/
def qFloor (x : Qty) : Int := x.floor
def qRound (x : Qty) : Int := (x + 1 / 2).floor

/-- Saturation of an integer to lo .. hi. -/
def satInt (x lo hi : Int) : Int := max lo (min x hi)

/-- A quantity in units of 1/u, to the nearest unit, a half upward (DESIGN CHOICE, log entry 8), saturated to w unsigned bits (status fields). -/
def unitsOf (x : Qty) (u : Nat) (w : Nat) : Nat := (satInt (qRound (x * u)) 0 (2 ^ w - 1)).toNat

/-- A quantity in units of 1/u, to the nearest unit, a half upward (DESIGN CHOICE, log entry 8), signed in w bits, saturated (status fields). -/
def unitsSigned (x : Qty) (u : Nat) (w : Nat) : Nat :=
  encSigned (satInt (qRound (x * u)) (-(2 ^ (w - 1))) (2 ^ (w - 1) - 1)) w

/-- The zero encoding of a field selects a default. -/
def orDefault (x d : Nat) : Nat := if x = 0 then d else x

/-- Serial-number order of R159: b follows a. -/
def follows32 (a b : Nat) : Bool :=
  let diff := (b + 4294967296 - a % 4294967296) % 4294967296
  1 ≤ diff && diff ≤ 2147483647

end Sys2Proof
end

