-- ==== Sys2Proof/Wire.lean ====
section
/-! DEFINITION. Sys2Proof/Wire.lean: the operands of the commands, as they arrive at the pins, the two-wire ports and the caravan ring. -/

namespace Sys2Proof

/-- Levels of the strap pins (R49). -/
structure Straps where
  cvnId : BitVec 4
  leader : Bool
  deputy : Bool
  deriving DecidableEq, Repr

/-- How a boot-port transaction ends (R484 to R487). -/
inductive BootOutcome where
  /-- a sequential read returned these bytes -/
  | data (bytes : List Byte)
  /-- a page write was acknowledged to its end, or a poll was acknowledged -/
  | done
  /-- the address byte was not acknowledged -/
  | addrNack
  /-- another byte was not acknowledged -/
  | dataNack
  | lostArbitration
  | busError
  deriving DecidableEq, Repr

/-- A frame of the marker line as received: header, length, payload, CRC and, for MODE, tail (R132, R137), with the local caravan
time of its marker edge in fine steps of 156.25 ps. -/
structure FrameRx where
  bytes : List Byte
  arrival : Nat
  deriving DecidableEq, Repr

/-- A region or the whole device (R66, R181). -/
inductive Region where
  | device
  | channel (c : Chan)
  | quadrant (q : Quad)
  deriving DecidableEq, Repr

/-- Actions of a launch request (R21, R24). -/
inductive LaunchAct where
  /-- configuration change: overlay, region re-arm, tadpole insertion -/
  | config
  | carrierReset (r : Region)
  | quietStart
  | quietEnd
  | convStart
  | restStart (c : Chan)
  | run
  deriving DecidableEq, Repr

/-- Rank of the launch order of R24: configuration changes, carrier resets, halt transitions, conversion starts; what R24 does not name
comes last. -/
def LaunchAct.order : LaunchAct → Nat
  | .config => 0
  | .carrierReset _ => 1
  | .quietStart => 2
  | .quietEnd => 2
  | .convStart => 3
  | .restStart _ => 4
  | .run => 4

/-- Crossing channels (R19, R413 0x600 to 0x617): housekeeping to QD q, QD q to housekeeping, QD a to QD b. -/
inductive Crossing where
  | toQd (q : Quad)
  | toHk (q : Quad)
  | between (a b : Quad)
  deriving DecidableEq, Repr

/-- Timers of a quadrant (R180). -/
inductive Timer where
  | quad (q : Quad)
  | master (c : Chan)
  | phase (n : Slot)
  deriving DecidableEq, Repr

/-- States of a window comparator (05, Window comparators and thresholds). -/
inductive Cmp where
  | below | between | above
  deriving DecidableEq, Repr

/-- A gate reference output and its feedback input. -/
inductive Gate where
  | path (c : Chan)
  | source (k : Src)
  deriving DecidableEq, Repr

/-- The two two-wire ports (13). -/
inductive Port where
  | boot | supervisory
  deriving DecidableEq, Repr

/-- The data of an SMBus block write up to its STOP: the byte count, the data bytes, and the PEC byte if one was sent (R491, R492). -/
structure BlockWrite where
  count : Byte
  data : List Byte
  pec : Option Byte
  deriving DecidableEq, Repr

/-- A process call: the write part, whether the controller acknowledges the last data byte so that the PEC is sent (R491), and, where the read part is
broken off, how many of its bytes have been sent (R494). -/
structure ProcessCall where
  count : Byte
  data : List Byte
  ackLast : Bool
  cut : Option Nat := none
  deriving DecidableEq, Repr

/-- How a poll or an Alert Response Address read by the supervisory controller ends (R518 to R520). -/
inductive PollOutcome where
  /-- a SUMMARY with a correct PEC -/
  | fresh (bytes : Vector Byte 12)
  | noAck
  | pecWrong
  /-- an Alert Response Address read answered by this address byte -/
  | answered (addr : Byte)
  deriving DecidableEq, Repr

end Sys2Proof
end

