-- ==== Sys2Proof/Syntax.lean ====
section
/-! DEFINITION. Sys2Proof/Syntax.lean: the commands of the block, one constructor per row of spec/opcode_table.json. The operands are what
the sender of the command supplies: a pin level, a frame, a conversion code, the bytes of a bus transaction. -/

namespace Sys2Proof

inductive Instr where
  /-- RESET_N_LOW (R43): A low pulse on RESET_N that the input filter recognises sends the device to RESET and drives every power output low within 1 µs. -/
  | resetNLow (ns : Nat)
  /-- RAIL_FALLING (R42): A supply rail stays below its falling threshold for 2 µs and the supply monitor resets the device. -/
  | railFalling (rail : Fin 4) (coreBelowHalf : Bool)
  /-- RESET_RELEASE (R42): All four rails have been above their rising thresholds for 2 ms with RESET_N high, so the device latches straps, TEST_EN and SCAN_EN, sets RESET_CAUSE and enters INIT. -/
  | resetRelease (straps : Straps) (testEn scanEn : Bool)
  /-- INIT_COMPLETE (R39): The reference is selected, the island clocks run and memory is initialised, so the device enables its supervisory target and enters LOAD with boot-port bus recovery. -/
  | initComplete (refValid : Bool) (clkRun : BitVec 5)
  /-- BOOT_SETTLE_EXPIRY (R51): 64 ms after reset release the boot port starts the first header read of image A. -/
  | bootSettleExpiry
  /-- BOOT_TRANSACTION_DONE (R486): A boot-port transaction (sequential read, page write or acknowledge poll) ends, releasing its grant and passing on its data or failure. -/
  | bootTransactionDone (r : BootOutcome)
  /-- NO_IMAGE_RETRY (R58): 10 s after entering NO_IMAGE the device re-enters LOAD, increments LOAD_ATTEMPTS and reads both images again. -/
  | noImageRetry
  /-- MIRROR_BUILT (R62): The base configuration and the delta records of the selected overlay have been composed into the mirror and distributed to the islands. -/
  | mirrorBuilt
  /-- START_CHECK_DONE (R66): The start consistency check completes, and the device arms the enabled regions and enters JOIN, or enters CONFIGURED. -/
  | startCheckDone
  /-- MODE_SAMPLE (R50): MODE[3:0] is sampled every 1 ms, and a value read identically in 20 samples becomes the debounced value, whose change triggers recomposition or an overlay proposal. -/
  | modeSample (v : BitVec 4)
  /-- MODE_UNSTABLE_TIMEOUT (R64): MODE_UNSTABLE has been set for 1 s, so one event record is written while BUILD keeps waiting. -/
  | modeUnstableTimeout
  /-- STRAP_CHANGED (R49): A strap pin has differed from its latched value for 20 ms, so STRAP_CHANGED is set and an event is logged without action. -/
  | strapChanged (present : Straps)
  /-- JOIN_TIMEOUT (R72): A follower or deputy has had no ROLL answer within 500 ms of entering JOIN, so it runs alone with JOIN_RESULT 0b100. -/
  | joinTimeout
  /-- RUN_LAUNCH (R73): RUN is launched at a time-frame boundary, starting ALIVE, the round, the sequencers, the models, source qualification and path-switch insertion. -/
  | runLaunch
  /-- SVC_DEBOUNCE (R74): SVC_N has read a new level continuously for 20 ms, so its debounced level changes and a press begins or ends. -/
  | svcDebounce (high : Bool)
  /-- SVC_PRESS_8S (R75): A service press reaches 8 s and is honoured or, in RUN without SVC_RESET_ALLOWED, ignored and counted. -/
  | svcPress8s
  /-- SVC_RAMP_DONE (R76): The 250 µs ramp of every phase current to zero ends, so phases and gates turn off and the device enters SVC_HOLD. -/
  | svcRampDone
  /-- SVC_HOLD_EXPIRY (R39): 2 s after the switches opened in SVC_HOLD the device performs a warm reset with cause SVC. -/
  | svcHoldExpiry
  /-- TIME_FRAME_BOUNDARY (R134): At each 1 ms boundary of caravan time, the time source sends its TIME frame and scheduled HALT, MODE and ROLL frames, and ALIVE toggles. -/
  | timeFrameBoundary
  /-- INSERTION_SLOT (R135): In its insertion slot a device sends its own ROLL frame in place of its repeated input. -/
  | insertionSlot
  /-- TIME_FRAME_RECEIVE (R125): A TIME frame is received whole, so the device computes e, updates its time state and, on the time source, measures the ring total. -/
  | timeFrameReceive (f : FrameRx)
  /-- FRAME_STROBE (R127): At the frame strobe each quadrant takes a pending compensated time load and returns its captured time for comparison. -/
  | frameStrobe
  /-- HALT_FRAME_RECEIVE (R154): A HALT frame is accepted for the next halt number with valid timing fields, or ignored or discarded and counted. -/
  | haltFrameReceive (f : FrameRx)
  /-- MODE_FRAME_RECEIVE (R137): A MODE frame is received, so a member marks its ACCEPT or REFUSE bit in a PROPOSE tail and acts on COMMIT, CANCEL or ACTIVE, and the time source reads the returned masks. -/
  | modeFrameReceive (f : FrameRx)
  /-- ROLL_FRAME_RECEIVE (R148): A ROLL frame (JOIN, PRESENT, LEAVE, ACCEPT, REFUSE, DROP, RETURN or HANDBACK) is received and acted on. -/
  | rollFrameReceive (f : FrameRx)
  /-- JOIN_RETRY_TIMER (R151): A device running alone sends JOIN again every 10 s after a refusal or every 1 s after a join timeout. -/
  | joinRetryTimer
  /-- PRESENT_TIMER (R148): Every 100 ms a member queues its PRESENT frame. -/
  | presentTimer
  /-- MEMBER_DROP_TIMEOUT (R152): The time source has no PRESENT from a member for 1 s, so it sends DROP and clears the member. -/
  | memberDropTimeout (id : Fin 16)
  /-- OVERLAY_PROPOSE (R100): The leader's debounced mode value differs from the active overlay, so it checks the candidate and starts PROPOSE frames. -/
  | overlayPropose
  /-- LEADER_OVERLAY_CHECK_DONE (R100): The leader's check of the proposed overlay completes and either starts PROPOSE or logs a refusal in MODE_REASON. -/
  | leaderOverlayCheckDone
  /-- MEMBER_OVERLAY_CHECK_DONE (R100): A member's check of a proposed overlay completes and fixes the bit it sets in later PROPOSE frames. -/
  | memberOverlayCheckDone
  /-- PROPOSE_TIMEOUT (R100): A member has not answered within 100 ms of the first PROPOSE, so the leader sends CANCEL. -/
  | proposeTimeout
  /-- MODE_DISAGREE_TIMER (R106): A joined follower's debounced mode value has differed from the caravan's overlay for 1 s, so it sets MODE_DISAGREE and logs. -/
  | modeDisagreeTimer
  /-- LAUNCH_REQUEST (R21): A launch request crosses into an island and is queued for time compare, or performed at the next sub-tick if already late. -/
  | launchRequest (isl : Island) (act : LaunchAct) (time : Nat)
  /-- CROSSING_MESSAGE (R23): A value carried by an island crossing arrives and takes effect at the receiver's next launch point or next cycle. -/
  | crossingMessage (x : Crossing)
  /-- CROSSING_STALL (R26): A crossing request is not acknowledged within 64 destination cycles, so the sender keeps it asserted and raises a crossing-stall fault. -/
  | crossingStall (x : Crossing)
  /-- XREF_LOST (R140): XREF has been invalid for 3 µs, so the leader slews to its own oscillators and sets ON_OWN. -/
  | xrefLost
  /-- XREF_RESTORED (R140): XREF has been valid again for 1 ms, so the time source slews back to it at no more than 1 ppm/ms. -/
  | xrefRestored
  /-- CLOCK_INVALID (R141): The clock on CVN_CKI_P/N has been invalid for 3 µs, so the follower enters HOLD and sets HOLDOVER. -/
  | clockInvalid
  /-- CLOCK_VALID (R141): The incoming clock has been valid for 1 ms in HOLD, so the follower enters REACQ and slews towards it. -/
  | clockValid
  /-- LEADER_LOST_TIMEOUT (R141): No valid TIME frame from the time source for 10 ms, so LEADER_LOST is set and halts run on prediction. -/
  | leaderLostTimeout
  /-- DEPUTY_TAKEOVER (R143): A member deputy without leader TIME frames for 10 ms becomes acting deputy at the next millisecond boundary and drives time. -/
  | deputyTakeover
  /-- HANDBACK_SWITCH (R144): 100 µs after the quiet-window start of halt H, the acting deputy stops driving and the returning leader starts. -/
  | handbackSwitch
  /-- RIVAL_LEADER (R147): A time source has received another source's TIME frames for 10 ms, so it sets RIVAL_LEADER and the lower-ranked source stops driving. -/
  | rivalLeader
  /-- HALT_PREDICT (R155): No HALT frame has come for the next halt by 4 ms before its predicted start, so the member schedules it on prediction or skips it. -/
  | haltPredict
  /-- HALT_RAMP_FIX (R158): 3 ms before the quiet-window start the ramp length t_r is fixed from the present draw and dI/dt limit. -/
  | haltRampFix
  /-- HALT_RAMP_DOWN (R156): At −t_r the halt ramp-down begins, the stagger gain is held, and Newt evaluates tadpoles. -/
  | haltRampDown
  /-- QUIET_WINDOW_START (R156): The quiet window starts: every phase stops, configuration launches for the halt take effect, and charge snapshots are taken. -/
  | quietWindowStart
  /-- HALT_CONVERSION_START (R338): At S every modulator starts its single-cycle snapshot conversion on the same tick boundary. -/
  | haltConversionStart
  /-- QUIET_WINDOW_END (R156): The quiet window ends: ramp-up begins and a pending STEP_WAIT step of local time is applied. -/
  | quietWindowEnd
  /-- CARRIER_RESET (R181): A carrier reset launch sets quadrant timers to valley and stops every channel master and phase awaiting TRIGGER or RESET. -/
  | carrierReset (r : Region)
  /-- CARRIER_VALLEY (R165): A timer reaches its valley: shadow registers load, the capture set is committed, evidence is set and the next cycle starts. -/
  | carrierValley (t : Timer) (cmp : Cmp) (moved : Bool)
  /-- CARRIER_PEAK (R198): At each peak of the channel master the capture reader reads every member phase and updates its estimates. -/
  | carrierPeak (c : Chan)
  /-- BLANKING_END (R174): The BLANK count after a turn-on runs out and the comparator output is taken into account. -/
  | blankingEnd (n : Slot) (cmp : Cmp)
  /-- UPPER_CROSSING (R175): The phase current crosses the upper threshold and the active output turns off within 45 ns. -/
  | upperCrossing (n : Slot) (pos : BitVec 20)
  /-- TON_MAX_REACHED (R176): The on-time reaches TON_MAX and the active output turns off. -/
  | tonMaxReached (n : Slot) (cmp : Cmp)
  /-- ON_TIME_LIMIT (R168): The carrier counting down reaches the dead-time limit and the active output turns off so no on-time crosses a valley. -/
  | onTimeLimit (n : Slot) (cmp : Cmp)
  /-- DEAD_TIME_END (R174): DT_Y after X off has passed and the complementary output turns on. -/
  | deadTimeEnd (n : Slot)
  /-- LOWER_CROSSING (R173): The phase current crosses the lower threshold, the position is captured and, with diode emulation or a closing gate, Y turns off. -/
  | lowerCrossing (n : Slot) (pos : BitVec 20)
  /-- Y_OFF_COUNT (R174): Counting down, the carrier count reaches DT_X and the complementary output turns off. -/
  | yOffCount (n : Slot)
  /-- SLOPE_COMP_STEP (R187): Every 10 ns during an on-time the upper threshold is lowered by the slope compensation. -/
  | slopeCompStep (n : Slot)
  /-- CHANNEL_LIMIT_ABOVE (R224): The channel comparator reads ABOVE ILIM_CODE and every member in its on-time receives a channel terminate. -/
  | channelLimitAbove (c : Chan) (cmp : Cmp)
  /-- DFLT_HIGH (R205): A recognised high on DFLT_nnn drives both outputs of the slot low within 25 ns and sets DFLT_SEEN. -/
  | dfltHigh (n : Slot) (ns : Nat)
  /-- READBACK_TEST_DONE (R203): A threshold-readback conversion in a halt completes and the generator and comparator state are judged. -/
  | readbackTestDone (q : Quad) (raw : BitVec 24) (idle high : Cmp)
  /-- STREAM_RESULT (R334): A modulator delivers an OSR 512 stream result, which feeds loops, fold-back, power path, breakers and charge accumulators. -/
  | streamResult (m : Pm) (raw : BitVec 24) (ovr : Bool)
  /-- MODULATOR_STREAM_FAULT (R457): A stability trip, 256 identical results or 10 missing results fail a modulator and raise its stream fault. -/
  | modulatorStreamFault (m : Pm)
  /-- INPUT_BUDGET_ARRIVAL (R221): The channel's input budget arrives from housekeeping and applies at the next loop step. -/
  | inputBudgetArrival (c : Chan)
  /-- SOFT_START_TIMEOUT (R228): The soft-start timer reaches SS_TMO with the string below 0.1 × V_target, raising the soft-start timeout. -/
  | softStartTimeout (c : Chan)
  /-- RAMP_FACTOR_UPDATE (R229): Every 10 µs the ramp factor h is updated for halt and pulse ramps. -/
  | rampFactorUpdate
  /-- REARM_CHECK_DONE (R232): A channel's re-arm check completes, clearing the restart request and launching a region carrier reset or setting REARM_REFUSED. -/
  | rearmCheckDone (c : Chan)
  /-- CUT_END_TIMER (R238): The cut has been 0 for 1 s and an event holding the largest cut is written. -/
  | cutEndTimer (c : Chan)
  /-- PULSE_RAMP_DOWN (R249): r before a rest start the pulse factor starts falling from 1 to 0. -/
  | pulseRampDown (c : Chan)
  /-- REST_START (R249): At a rest start the gate closes and IN_REST is set, or the rest is skipped outside REGULATE. -/
  | restStart (c : Chan)
  /-- REST_SAMPLE_END (R253): A sample window of the rest ends and sample v_k is formed. -/
  | restSampleEnd (c : Chan)
  /-- REST_EVALUATION (R254): At 3 × t the relaxed voltage is estimated and the charge-phase transition evaluated. -/
  | restEvaluation (c : Chan)
  /-- REST_END (R249): At T_R the gate opens and h_p rises with the request of the phase in force. -/
  | restEnd (c : Chan)
  /-- REC_TIMEOUT (R257): T_REC_MAX in RECOVER is reached and the recovery-timeout fault is raised. -/
  | recTimeout (c : Chan)
  /-- FIN_TIMEOUT (R257): T_FIN_MAX in FINISH is reached and the channel moves to KEEP with FIN_TIMEOUT set. -/
  | finTimeout (c : Chan)
  /-- KEEP_TIMER_EXPIRY (R261): T_KEEP has run in KEEP, so a storage check is due at the next halt. -/
  | keepTimerExpiry (c : Chan)
  /-- SNAPSHOT_DONE (R341): Halt snapshot results arrive: ASSESS, storage checks, gap fill, reconciliation, cross-checks and halt records follow. -/
  | snapshotDone (raws : Vector (BitVec 24) 88)
  /-- STAGGER_DEAL (R273): 3 ms before a stagger frame start the device deals slots anew if the pulsed set or STG_CFG changed. -/
  | staggerDeal
  /-- STAGGER_FRAME_START (R274): At a stagger frame start the new dealing takes effect for joining, leaving and moved channels. -/
  | staggerFrameStart
  /-- STAGGER_GAIN_UPDATE (R275): Every 10 µs housekeeping computes the stagger gain g and sends it to the quadrants. -/
  | staggerGainUpdate
  /-- BUDGET_UPDATE (R294): Every 10 µs housekeeping computes the input budget and shares it among the channels. -/
  | budgetUpdate
  /-- VSYS_EVALUATION (R302): V_SYS is computed every 51.2 µs and the bus state moves, including entry to HANDOVER. -/
  | vsysEvaluation
  /-- SYS_FRESHNESS_EXPIRY (R284): A SYS result stops being fresh 1 ms after it completes, which can set SYS_STALE. -/
  | sysFreshnessExpiry (q : Quad)
  /-- HANDOVER_TIMEOUT (R302): 5 ms in HANDOVER ends the hand-over and the bus enters ON_STRINGS. -/
  | handoverTimeout
  /-- RETURN_TIMEOUT (R302): 5 ms in RETURN sends the bus to SOURCED. -/
  | returnTimeout
  /-- BUS_STATE_ARRIVAL (R299): A bus state change reaches a quadrant and moves its path switches within 1 µs. -/
  | busStateArrival (q : Quad)
  /-- QUAL_TIMER_EXPIRY (R288): A source's qualification timer reaches T_QUAL and the source ramps, holds, or is readmitted. -/
  | qualTimerExpiry (k : Src)
  /-- SOURCE_COMPARATOR_ABOVE (R296): A source comparator reads ABOVE S_OVL_CODE and fast halving is put in force in every quadrant. -/
  | sourceComparatorAbove (k : Src)
  /-- HALVING_RELEASE (R296): No source comparator has read ABOVE for HALVE_HOLD, so halving is released at the next loop step. -/
  | halvingRelease
  /-- HALVING_SUSTAINED (R296): Halving has been in force for 100 ms in one episode, raising the sustained-halving fault. -/
  | halvingSustained
  /-- SOURCE_COMPARATOR_BELOW (R291): A source comparator reads BELOW S_REV_CODE and SGATE_n falls below 0.3 V within 200 ns. -/
  | sourceComparatorBelow (k : Src)
  /-- SOURCE_GATE_CHECK_TIMEOUT (R292): SGFB_n has not reached SGFB_ON within S_TRISE, so the source enters NORISE. -/
  | sourceGateCheckTimeout (k : Src)
  /-- SOURCE_STUCK_TIMEOUT (R293): Current above 2 % of I_LIM for 100 ms in BELOW or NORISE sets S_STUCK. -/
  | sourceStuckTimeout (k : Src)
  /-- GATE_FEEDBACK_LEVEL (R300): A PGFB_nn or SGFB_n level detector changes state, passing a gate check or ending GTEST. -/
  | gateFeedbackLevel (g : Gate) (high : Bool)
  /-- PATH_GATE_CHECK_TIMEOUT (R300): PGFB_nn has not reached PGFB_ON within T_RISE, so the path switch enters NORISE. -/
  | pathGateCheckTimeout (c : Chan)
  /-- GATE_RAMP_COMPLETE (R299): A path-switch gate ramp reaches its target and the switch enters FULL or finishes its ramp. -/
  | gateRampComplete (g : Gate)
  /-- PRESENCE_CONFIRMED (R311): v_str has been at or above V_PRES for 50 ms in WAIT, so the switch starts its gate test. -/
  | presenceConfirmed (c : Chan)
  /-- STRING_LOW_TIMEOUT (R299): v_str has been below V_PRES for 50 ms in WAIT or BLOCK, so the switch and channel go ABSENT. -/
  | stringLowTimeout (c : Chan)
  /-- RETRY_TIMER_EXPIRY (R315): The retry timer reaches T_RETRY and the path switch returns to WAIT. -/
  | retryTimerExpiry (c : Chan)
  /-- INSTANT_TRIP (R307): The channel comparator reads BELOW c_inst, tripping the breaker within 200 ns. -/
  | instantTrip (c : Chan)
  /-- COLLAPSE_DETECTED (R312): The channel comparator has read BELOW IREV_CODE for 1 µs in REGULATE, closing the gate and starting the collapse hold. -/
  | collapseDetected (c : Chan)
  /-- COLLAPSE_HOLD_END (R313): The 2 ms collapse hold ends without removal and the gate reopens. -/
  | collapseHoldEnd (c : Chan)
  /-- STUCK_ON_TIMEOUT (R316): Stuck-on evidence has held for 100 ms with the gate at 0 V, sending the path switch to STUCK. -/
  | stuckOnTimeout (c : Chan)
  /-- ARBITER_DECISION (R27): A shared resource has a free unit and pending requests, so the arbiter grants one. -/
  | arbiterDecision (i : Fin 99)
  /-- CONVERSION_DONE (R334): A granted conversion completes and its result goes to its table, injection, round, Newt or calibration. -/
  | conversionDone (m : Pm) (raw : BitVec 24) (ovr : Bool)
  /-- SEQUENCER_DELAY_EXPIRY (R346): An entry's SQ_DELAY runs out, so the table books a halt, skips the entry or requests a conversion. -/
  | sequencerDelayExpiry (t : Table)
  /-- RING_RECORD_WRITE (R370): A queued record is written into its ring under the ring's overflow policy. -/
  | ringRecordWrite (w : Table)
  /-- CAL_STEP_DONE (R359): A calibration step's 64 conversions end, holding the zero or writing coefficients, or refusing. -/
  | calStepDone
  /-- REFERENCE_IMPLAUSIBLE (R405): A reference window detector finds a reference outside 2.450 to 2.550 V for 10 µs. -/
  | referenceImplausible (refB : Bool)
  /-- REFERENCE_CHANGE_LAUNCH (R406): The change to REFB is launched at a frame boundary, trimmed by the held offset. -/
  | referenceChangeLaunch
  /-- THERMAL_UPDATE (R381): The 1 ms loss sums reach housekeeping, and every in-use model updates Tj and k_th. -/
  | thermalUpdate
  /-- TJ_ARRIVAL (R382): New Tj and k_th reach a quadrant and are applied to caps and limits. -/
  | tjArrival (q : Quad)
  /-- HK_ROUND_START (R398): Every second the housekeeping round requests its conversions on each quadrant's HKSW modulator. -/
  | hkRoundStart
  /-- HK_ROUND_COMPLETE (R399): After a round the device judges sensors, reference agreement, supplies and feedback, and applies trims. -/
  | hkRoundComplete
  /-- OSCILLATOR_LOST (R464): An oscillator is lost by deviation or 1 µs without an edge, raising its fault. -/
  | oscillatorLost (isl : Island) (osc : Fin 2)
  /-- FAULT_RAISE (R419): The collector reads a source active and applies the reaction of its effective severity and scope. -/
  | faultRaise (f : Fsrc)
  /-- RPATH_FAULT (R415): A source's rails have been equal for 8 cycles, a reporting-path fault treated as active. -/
  | rpathFault (f : Fsrc) (level : Bool)
  /-- RPATH_RESTORED (R415): The rails have been valid for 1 ms, so FS_RPATH clears and a restore record is written. -/
  | rpathRestored (f : Fsrc)
  /-- RECOVERY_GRANT (R426): A held source's quiet period reaches FR_QUIET, so recovery is granted or the source is promoted. -/
  | recoveryGrant (f : Fsrc)
  /-- PROMOTION_WINDOW_END (R427): The promotion window ends and FS_WIN_CNT returns to 0. -/
  | promotionWindowEnd (f : Fsrc)
  /-- LOG_RECORD_WRITE (R438): A queued event record is written into the log ring under overwrite oldest. -/
  | logRecordWrite
  /-- LOG_SECOND_END (R437): At each second boundary records of suppressed raises are written and counts restart. -/
  | logSecondEnd
  /-- CAPTURE_BUFFER_COMPLETE (R439): A capture buffer has its post-decision samples and freezes. -/
  | captureBufferComplete (b : Fin 16)
  /-- FI_DURATION_EXPIRY (R441): FI_MS runs out, ending the rail injection and clearing FI_MODE. -/
  | fiDurationExpiry
  /-- NEWT_REQUEST (R450): 5 ms before a quiet window Newt raises spare requests for channels and failed modulators. -/
  | newtRequest
  /-- SWAP_CHECK_DONE (R451): The check of a granted substitution completes and it is scheduled or refused. -/
  | swapCheckDone
  /-- SCRUB_STEP (R467): Every 1.831 ms the scrubber reads and decodes the next codeword. -/
  | scrubStep (upsets : Fin 36)
  /-- ROW_REMAP_DONE (R469): A row's copy to a spare row ends and its address is redirected. -/
  | rowRemapDone
  /-- CORRECTION_WINDOW_EXPIRY (R469): 24 h after a row's first correction its count ends without a remap. -/
  | correctionWindowExpiry (bank : Fin 8) (row : Fin 576)
  /-- RELOAD_CHECK_DONE (R472): The reload check completes and the region's channels enter STOP, or it ends refused. -/
  | reloadCheckDone
  /-- RELOAD_STOP_DONE (R472): Every channel of the reloaded region has reached OFF, HELD or ABSENT. -/
  | reloadStopDone
  /-- RELOAD_STOP_TIMEOUT (R472): 10 s after the check a running stop closes its gate at once. -/
  | reloadStopTimeout
  /-- RELOAD_WRITE_DONE (R472): The region's new words and records are written and distributed. -/
  | reloadWriteDone
  /-- RELOAD_REARM_LAUNCH (R473): The region carrier reset launch puts the reloaded fields in force. -/
  | reloadRearmLaunch
  /-- ARM_CHECK_DONE (R67): The ARM_REGION check completes and the region is armed or nothing is. -/
  | armCheckDone
  /-- ACK_POLL_TIMER (R484): 100 µs after a page write or poll the boot port polls the EEPROM again. -/
  | ackPollTimer
  /-- PAGE_WRITE_TIMEOUT (R487): An EEPROM has not acknowledged 10 ms after a page write, failing it for retry. -/
  | pageWriteTimeout
  /-- IDENT (R499): Block read returning the unique number, image serial, straps, boot image and state. -/
  | ident (ackLast : Bool)
  /-- PEEK (R502): Process call returning consecutive words from the internal address space. -/
  | peek (p : ProcessCall)
  /-- Q_LO_READ_LATCH (R271): A read of Q_IN_LO or Q_OUT_LO latches the matching _HI word. -/
  | qLoReadLatch (c : Chan) (out : Bool)
  /-- ALERT_READ (R515): A read of ALERT returns and clears every cause bit. -/
  | alertRead (ackLast : Bool)
  /-- RING_READ (R503): Process call copying up to 7 ring records with a gone or uncorrectable status. -/
  | ringRead (p : ProcessCall)
  /-- LOG_READ (R503): Process call copying up to 7 event-log records. -/
  | logRead (p : ProcessCall)
  /-- RING_ACK (R504): Block write moving a ring's read index within its fill. -/
  | ringAck (w : BlockWrite)
  /-- LOG_ACK (R504): Block write moving the event log's read index within its fill. -/
  | logAck (w : BlockWrite)
  /-- CLEAR (R505): Block write setting 1 on every masked W1C bit of a word. -/
  | clear (w : BlockWrite)
  /-- SUMMARY (R517): Block read returning the device's 12-byte summary. -/
  | summary (ackLast : Bool)
  /-- CARAVAN_SUMMARY (R520): Block read returning the time source's table of member summaries. -/
  | caravanSummary (ackLast : Bool)
  /-- RESULT (R501): Block read of the outcome of the last block write. -/
  | result (ackLast : Bool)
  /-- SERVICE_UNLOCK (R506): Block write unlocking service commands for 60 s on the right code. -/
  | serviceUnlock (w : BlockWrite)
  /-- SERVICE_LOCK (R508): Block write ending the service unlock. -/
  | serviceLock (w : BlockWrite)
  /-- WRITE (R509): Block write to masked bits of a word without its own row. -/
  | write (w : BlockWrite)
  /-- WRITE_NARROW_I (R222): WRITE lowering NARROW_I. -/
  | writeNarrowI (c : Chan) (mask value : BitVec 16) (pec : Option Byte)
  /-- WRITE_NARROW_V (R222): WRITE lowering NARROW_V. -/
  | writeNarrowV (c : Chan) (mask value : BitVec 16) (pec : Option Byte)
  /-- WRITE_HOST_STOP (R233): WRITE of HOST_STOP stopping or re-enabling a channel. -/
  | writeHostStop (c : Chan) (value : Bool) (pec : Option Byte)
  /-- FI_RS_ARM (R441): WRITE arming inverted check symbols in a codeword. -/
  | fiRsArm (n : BitVec 2) (reg : BitVec 3) (pec : Option Byte)
  /-- FI_PEC_ARM (R441): WRITE arming an inverted PEC byte. -/
  | fiPecArm (on : Bool) (pec : Option Byte)
  /-- FI_CRC_ARM (R441): WRITE arming an inverted CALIB SECTION_CRC. -/
  | fiCrcArm (v : BitVec 2) (pec : Option Byte)
  /-- FI_RAIL_ARM (R441): WRITE arming inverted rails of a fault source. -/
  | fiRailArm (fsrc : BitVec 12) (mode : BitVec 2) (ms : BitVec 16) (pec : Option Byte)
  /-- ARM_REGION (R67): Block write arming a channel or quadrant after a check. -/
  | armRegion (w : BlockWrite)
  /-- RELOAD_REGION (R472): Block write starting a region reload. -/
  | reloadRegion (w : BlockWrite)
  /-- INJECT (R349): Block write queueing an injected conversion. -/
  | inject (w : BlockWrite)
  /-- CAL_ZERO (R358): Block write starting a zero calibration step. -/
  | calZero (w : BlockWrite)
  /-- CAL_FULL (R358): Block write starting a full-scale calibration step. -/
  | calFull (w : BlockWrite)
  /-- CAL_COMMIT (R361): Block write starting the commit of CALIB to both images. -/
  | calCommit (w : BlockWrite)
  /-- NVM_WRITE (R512): Block write starting one EEPROM page write. -/
  | nvmWrite (w : BlockWrite)
  /-- NVM_FETCH (R512): Block write starting an EEPROM read into the buffer. -/
  | nvmFetch (w : BlockWrite)
  /-- NVM_DATA (R513): Block read returning the fetched bytes. -/
  | nvmData (ackLast : Bool)
  /-- UNKNOWN_COMMAND (R490): An unknown command code or mismatched protocol is not acknowledged. -/
  | unknownCommand (code : Byte)
  /-- BUS_ERROR (R497): A START or STOP at a wrong bit position discards the transaction. -/
  | busError
  /-- CLOCK_LOW_TIMEOUT (R496): SCL low for the timeout makes the target release the bus. -/
  | clockLowTimeout
  /-- UNLOCK_EXPIRY (R508): The 60 s service unlock runs out. -/
  | unlockExpiry
  /-- LOCKOUT_END (R507): The 60 s unlock lockout ends and BAD_CODES returns to 0. -/
  | lockoutEnd
  /-- ALERT_RESPONSE_READ (R516): A read of the Alert Response Address is answered while alerting. -/
  | alertResponseRead (wins ackLast : Bool)
  /-- POLL_ROUND_START (R518): Every second the time source requests a poll of every member. -/
  | pollRoundStart
  /-- POLL_DONE (R520): A member poll ends and updates its caravan summary entry. -/
  | pollDone (o : PollOutcome)
  /-- ALERT_LINE_TIMEOUT (R519): SUP_ALERT_N low for 1 ms makes the time source read the Alert Response Address. -/
  | alertLineTimeout
  /-- ARBITRATION_LOST (R521): The controller reads 0 while sending 1, loses arbitration and waits. -/
  | arbitrationLost (addrSeen : Option Byte)
  /-- ARBITRATION_BACKOFF_END (R521): The back-off after a lost arbitration ends and the transaction restarts. -/
  | arbitrationBackoffEnd
  /-- CONTROLLER_BUS_STUCK (R483): A controller finds SDA or SCL stuck low for 35 ms and recovers or times out. -/
  | controllerBusStuck (p : Port) (sclLow : Bool)
  /-- DRIVER_FAULT_CLEARED (R449): DFLT_nnn returns low, so the driver-fault source reads inactive, its quiet period starts and the slot may again become a usable spare. -/
  | driverFaultCleared (n : Slot)
  /-- REFERENCE_PLAUSIBLE (R405): A reference returns inside 2.450 to 2.550 V through the 10 µs filter, so its implausible source reads inactive and the both-references condition ends. -/
  | referencePlausible (refB : Bool)
  /-- BUS_FREE (R482): The bus becomes free, t_BUF after a STOP or after 50 µs of both lines high, and a controller port holding a grant starts its transaction. -/
  | busFree (p : Port)
  /-- SOURCE_COMPARATOR_BETWEEN (R296): A source comparator leaves ABOVE or BELOW, clearing S_OVER or S_REV and starting the HALVE_HOLD interval that precedes halving release. -/
  | sourceComparatorBetween (k : Src)
  deriving DecidableEq, Repr

end Sys2Proof
end

