-- ==== Sys2Proof/Machine/State.lean ====
section
/-! DEFINITION. Sys2Proof/Machine/State.lean: everything the manual gives the XOD128 to hold, as plain data, with its value after a power-on
reset. Field comments name the rule. -/

namespace Sys2Proof.Machine

/-- No command of this block stops it with a fault: a fault of the device is a source of the collector (R413), and its reaction is a next state. -/
inductive Fault where
  /-- Never raised: the manual gives every command an effect. Kept so that the type is inhabited. Safe. -/
  | none
  deriving DecidableEq, Repr

/-- Why a command has no meaning here. -/
inductive Refusal where
  /-- Raised by an arm of `exec` whose meaning is not written. Safe. -/
  | notModelled (mnemonic : String)
  deriving DecidableEq, Repr

/-- Addressed bytes, canonical: addresses strictly rising, no listed byte 0. An unlisted byte reads 0 (R61, R83). -/
abbrev Memory := List Host.Cell

/-- Device states of R39. -/
inductive DevState where
  | reset | init | load | noImage | build | configured | join | run | svcHold
  deriving DecidableEq, Repr

/-- Channel states of R232. -/
inductive ChState where
  | unarmed | off | start | regulate | stop | held | absent
  deriving DecidableEq, Repr

/-- Charge phases of R242. -/
inductive Phase where
  | idle | assess | recover | bulk | absorb | finish | keep
  deriving DecidableEq, Repr

/-- Path switch states of R299. -/
inductive PsState where
  | unarmed | wait | gtest | block | ramp | diode | full | tripped | norise | stuck | absent
  deriving DecidableEq, Repr

/-- Source states of R288. -/
inductive SState where
  | off | below | qual | hold | ramp | admitted | requal | norise
  deriving DecidableEq, Repr

/-- Bus states of R302. -/
inductive BusState where
  | beforeRun | sourced | handover | onStrings | ret
  deriving DecidableEq, Repr

/-- Time states of R141. -/
inductive TimeState where
  | track | hold | reacq | stepWait
  deriving DecidableEq, Repr

/-- Caravan roles of R162 `CVN_ROLE`. -/
inductive CvnRole where
  | follower | leader | deputy | acting | returning | alone
  deriving DecidableEq, Repr

/-- Where a device stands in a halt (R156). -/
inductive HaltPhase where
  | idle | rampDown | quiet | rampUp
  deriving DecidableEq, Repr

/-- Effective severities, encoded as `EV_SEV` [2:0] (R435); `none` before the mirror is built (R444). -/
inductive Severity where
  | none | log | channel | quadrant | device | latch | breaker
  deriving DecidableEq, Repr

/-- An overlay of the store (R90, R92): directory entry, index, parent, flags, section header, delta records. -/
structure Ovl where
  entry : Nat
  idx : Nat
  parent : Nat
  flags : Nat
  head : List Byte
  recs : List (Nat × Nat)
  deriving DecidableEq, Repr

/-- A boot-port transaction (R484). Images: false A, true B. -/
inductive BootTx where
  | read (img : Bool) (off len : Nat)
  | pageWrite (img : Bool) (off : Nat) (data : List Byte)
  | poll (img : Bool) (off : Nat)
  deriving DecidableEq, Repr

/-- The read of an image in progress (R52, R53). -/
structure ImgRead where
  img : Bool := false
  next : Nat := 0
  buf : Memory := []
  okBlocks : List Nat := []
  reload : Bool := false
  deriving DecidableEq, Repr

/-- A CAL_COMMIT in progress (R89, R361): the image being written, its directory as read, and the page writes left. -/
structure Commit where
  img : Bool := false
  buf : Memory := []
  todo : List (Nat × List Byte) := []
  /-- 0 header, 1 directory, 2 rest of a longer section, 3 writing -/
  phase : Nat := 0
  /-- bytes of the image still to be read in this phase: from, up to -/
  next : Nat := 0
  stop : Nat := 0
  deriving DecidableEq, Repr

/-- Start-up state: R39, R40, R45, R49, R57, R68, R74 to R77. -/
structure Start where
  st : DevState := .init
  joinResult : BitVec 3 := 0
  modeUnstable : Bool := false
  strapChanged : Bool := false
  logRetained : Bool := false
  latchAtStart : Bool := false
  qdInitFail : BitVec 4 := 0
  straps : Straps := ⟨0, false, false⟩
  testEn : Bool := false
  scanEn : Bool := false
  por : Bool := true
  brownout : Bool := false
  pin : Bool := false
  svc : Bool := false
  railLow : BitVec 4 := 0xF
  warmResets : Halfword := 0
  /-- what the reset in progress has seen so far (R45) -/
  accCoreLow : Bool := false
  accPin : Bool := false
  accSvc : Bool := false
  accRails : BitVec 4 := 0
  entered : Nat := 0
  unstableAt : Option Nat := none
  /-- `CHECK_TRIGGER` of the build in progress (R68); its mirror is composed and its check runs -/
  trigger : Nat := 0
  checking : Bool := false
  /-- the RUN launch has taken place since the reset (R70, R430) -/
  launched : Bool := false
  /-- local time at which the role was resolved (R73) -/
  resolvedAt : Option Nat := none
  deriving DecidableEq, Repr

/-- The loaded image (R79, R81): header fields, base configuration, overlays, first directory fault; and the state of loading (R57). -/
structure Loader where
  bootImage : BitVec 2 := 0
  aResult : BitVec 4 := 0
  bResult : BitVec 4 := 0
  loadAttempts : Halfword := 0
  loadMs : Halfword := 0
  retries : Halfword := 0
  built : Bool := false
  runEnable : Bool := false
  svcReset0 : Bool := false
  svcCmdEnable : Bool := false
  serviceCode : Halfword := 0
  serial : Word := 0
  dirBad : Option Nat := none
  base : Memory := []
  ovls : List Ovl := []
  rd : Option ImgRead := none
  deriving DecidableEq, Repr

/-- Results of the consistency check: R68, R116. -/
structure CheckWords where
  reason : Byte := 0
  done : Bool := false
  object : BitVec 12 := 0
  trigger : BitVec 4 := 0
  detReason : Byte := 0
  detTrigger : BitVec 4 := 0
  detObject : BitVec 12 := 0
  detAddr : BitVec 20 := 0
  detDelta : BitVec 12 := 0
  /-- ARM_REGION checks in progress, the oldest first (R67) -/
  arming : List Region := []
  /-- last ARM_REGION that its check refused: region, reason, and the overlay and count of reloads it was checked with (R501) -/
  known : Option (Region × Nat × Nat × Nat) := none
  deriving DecidableEq, Repr

/-- The service button (R74 to R77). -/
structure Button where
  ignored : Halfword := 0
  armed : Bool := false
  high : Bool := true
  pressAt : Option Nat := none
  rampAt : Option Nat := none
  deriving DecidableEq, Repr

/-- Mode pins and overlay change: R50, R100 to R108. -/
structure ModeSt where
  last : BitVec 4 := 0
  run : Nat := 0
  deb : Option (BitVec 4) := none
  taken : BitVec 4 := 0
  active : BitVec 4 := 0
  pending : BitVec 4 := 0
  phase : BitVec 2 := 0
  reason : Byte := 0
  disagree : Bool := false
  late : Bool := false
  refusals : Byte := 0
  halt : Word := 0
  lastAccept : BitVec 16 := 0
  lastRefuse : BitVec 16 := 0
  /-- the leader's own check in progress (R100 step 1) -/
  leaderCheck : Option (BitVec 4) := none
  /-- PROPOSE standing since (R100 step 2) -/
  proposedAt : Option Nat := none
  /-- CANCEL frames still to send (R138) -/
  cancelLeft : Nat := 0
  /-- a refusal blocks new checks until the debounced value changes (R104) -/
  blocked : Bool := false
  /-- a member's check in progress and its answer for an overlay (R100 step 3) -/
  memberCheck : Option (BitVec 4) := none
  answer : Option (BitVec 4 × Bool) := none
  /-- a commit held: overlay and effective halt (R100 step 4) -/
  commit : Option (BitVec 4 × Word) := none
  /-- a late or local change: overlay in check, and overlay to be applied at the next halt (R103, R107); true: late -/
  lateCheck : Option (BitVec 4 × Bool) := none
  localNext : Option (BitVec 4 × Bool) := none
  /-- overlay of an ACTIVE frame for which the late check has been made -/
  seenOvl : Option (BitVec 4) := none
  /-- overlay of the last ACTIVE frame, or of the change applied since: the caravan's (R106) -/
  cvnOvl : Option (BitVec 4) := none
  /-- effective halt of the last change applied (R108) -/
  applied : Word := 0
  /-- overlay named in the CANCEL frames (R138) -/
  cancelOvl : BitVec 4 := 0
  disagreeSince : Option Nat := none
  disagreeDone : Bool := false
  /-- votes read so far for the proposal that stands (R137) -/
  acc : BitVec 16 := 0
  ref : BitVec 16 := 0
  deriving DecidableEq, Repr

/-- The boot port and its users: R484 to R487, R512 to R514. -/
structure BootPort where
  /-- waiting transaction of owners 0 load and reload, 1 CAL_COMMIT, 2 pass-through (R27) -/
  want0 : Option BootTx := none
  want1 : Option BootTx := none
  want2 : Option BootTx := none
  cur : Option (Nat × BootTx) := none
  started : Bool := false
  /-- 7-bit address and memory address of the last transaction started (R484; output) -/
  chip : BitVec 7 := 0
  word : Halfword := 0
  /-- retries made of each owner's transaction (R52, R487) -/
  tries : Vector Nat 3 := Vector.replicate 3 0
  /-- page write that awaits its acknowledge, with its owner; end of its 10 ms (R487), and next poll -/
  page : Option (Nat × BootTx) := none
  pageEnd : Option Nat := none
  pollAt : Option Nat := none
  nvmOp : BitVec 2 := 0
  nvmLast : BitVec 2 := 0
  nvmImage : Bool := false
  nvmOfs : BitVec 18 := 0
  nvmLen : BitVec 7 := 0
  nvmWrites : Halfword := 0
  nvmFails : Halfword := 0
  nvmBuf : List Byte := []
  nvmReady : Bool := false
  nvmParts : List BootTx := []
  commit : Option Commit := none
  /-- bus recoveries sent since reset release: up to nine clocks until `BOOT_SDA` reads high, then a STOP (R51, R52; output) -/
  recovered : Nat := 0
  deriving DecidableEq, Repr

/-- One arbiter (R27, R33): pending requests as (index, age), grants in force. -/
structure Arbiter where
  pending : List (Nat × Nat) := []
  granted : List Nat := []
  urgent : Halfword := 0
  maxAge : BitVec 6 := 0
  deriving DecidableEq, Repr

/-- A launch request held in an island (R21). -/
structure Launch where
  act : LaunchAct
  time : Nat
  deriving DecidableEq, Repr

/-- A conversion granted on a modulator (R334): requester index of R27, OSR code, input code of R330, halt-locked, and the position of the pin
pair behind input code 0x00, which the input switch matrix routes to a spare (R13, R326). -/
structure Conv where
  req : Nat
  osr : Nat
  input : Nat
  halt : Bool
  pair : Nat
  deriving DecidableEq, Repr

/-- A substitution waiting for its check or its launch (R447, R451). -/
structure Swap where
  modulator : Bool
  f : Nat
  s : Nat
  ch : Nat
  /-- overlay and count of region reloads of the candidate that its check accepted, none before the check (R113) -/
  ovl : Option (Nat × Nat)
  deriving DecidableEq, Repr

/-- Region commands of housekeeping to a quadrant (R19): a region is armed (R66, R67); a channel is stopped for a reload, and its stop ends by force
(R472). -/
inductive RegionCmd where
  | arm (r : Region) | stop (c : Chan) | force (c : Chan)
  deriving DecidableEq, Repr

/-- What a configuration launch does in a quadrant beside its words (R24): a tadpole is promoted (R456), a spare put into service (R452, R461), a reloaded
region changes over, and starts again (R472, R473). -/
inductive QuadWork where
  | promote (n : Slot)
  | swap (w : Swap)
  | rearm (slots : List Slot) (r : Region)
  | start (r : Region)
  deriving DecidableEq, Repr

/-- Messages of the crossing channels (R19). -/
inductive Msg where
  /-- host narrowing of a channel (R221): `NARROW_I`, `NARROW_V` -/
  | narrow (c : Chan) (i v : BitVec 16)
  /-- HOST_STOP of a channel (R233) -/
  | hostStop (c : Chan) (stop : Bool)
  /-- stagger gain (R275) -/
  | gain (g : Qty)
  /-- a launch request (R21) -/
  | launch (l : Launch)
  /-- compensated time for the next frame strobe: n of R127, in sub-ticks -/
  | timeLoad (n : Nat)
  /-- input budget of a channel (R295) -/
  | budget (c : Chan) (b : Qty)
  /-- bus state (R299) -/
  | bus (s : BusState)
  /-- junction temperatures and current factors of the quadrant's models (R382) -/
  | tj (v : List (Qty × Qty))
  /-- a source comparator of another quadrant is over its limit (R296) -/
  | halve
  /-- launch acknowledgement (R19) -/
  | ack (act : LaunchAct)
  /-- losses of the frame just ended (R382) -/
  | losses (v : List Qty)
  /-- charge added by a channel, and with a fill what the quadrant pair then holds (R270) -/
  | charge (c : Chan) (qi qo : Nat) (fill : Option (Nat × Nat))
  /-- a region command -/
  | region (k : RegionCmd)
  /-- configuration words of the quadrant have been written: all that it holds, or the CALIB record of one of its modulators (R62, R353) -/
  | words (m : Option Pm)
  /-- an event record (R435) of an event of the quadrant -/
  | event (code : Nat) (r : List Byte)
  /-- a record of a channel (R367) -/
  | record (c : Chan) (bs : List Byte)
  /-- a capture sample of an object, with its time in ticks (R440) -/
  | sample (kind obj now : Nat) (x : BitVec 128)
  /-- the result of a conversion: raw code, corrected code, result word (R334), and the primary's part of a tracking sample (R462) -/
  | result (m : Pm) (v : Conv) (raw code : Int) (w : Word) (x : Option Int)
  /-- a SYS result of the quadrant, with its instant (R284) -/
  | sys (v : Qty) (w : Word) (t : Nat)
  deriving DecidableEq, Repr

/-- Clocks: `up` counts sub-ticks of 2.5 ns since reset release; `loc` is local caravan time in sub-ticks (40 per tick, R124, R127);
the quadrants' copies with their pending loads (R127, R128). -/
structure Clocks where
  up : Nat := 0
  loc : Nat := 0
  qtime : Vector Nat 4 := Vector.replicate 4 0
  qload : Vector (Option Nat) 4 := Vector.replicate 4 none
  qreload : Vector Bool 4 := Vector.replicate 4 false
  /-- instants last taken by the periodic commands: 0 ramp factors, 1 budget, 2 V_SYS, 3 stagger gain, 4 mode sample, 5 scrubber, counted by `up`;
  6 TIME frame boundary, 7 PRESENT, counted by `loc` -/
  taken : Vector (Option Nat) 8 := Vector.replicate 8 (some 0)
  deriving DecidableEq, Repr

/-- Islands and crossings: R20, R21, R26, R129, R532. -/
structure Islands where
  launches : Vector (List Launch) 5 := Vector.replicate 5 []
  late : Vector Bool 5 := Vector.replicate 5 false
  clkRun : BitVec 5 := 0
  fifo : Vector (List Msg) 24 := Vector.replicate 24 []
  stalled : Vector Bool 24 := Vector.replicate 24 false
  /-- what a configuration launch is still to do in a quadrant whose time has not reached it, and quadrants whose time has reached it before
  housekeeping's (R21) -/
  work : Vector (List QuadWork) 4 := Vector.replicate 4 []
  ahead : Vector Bool 4 := Vector.replicate 4 false
  /-- quadrants that have performed the RUN launch (R73) -/
  started : Vector Bool 4 := Vector.replicate 4 false
  deriving DecidableEq, Repr

/-- A ROLL frame to be sent (R136, R148). -/
structure Roll where
  kind : Nat
  id : Nat
  role : Nat
  uid : Word
  arg : Word
  deriving DecidableEq, Repr

/-- Caravan endpoint: R120 to R152, R162. -/
structure Caravan where
  role : CvnRole := .follower
  refSrc : BitVec 2 := 0b10
  holdover : Bool := false
  ringOpen : Bool := false
  ringMismatch : Bool := false
  leaderLost : Bool := false
  rivalLeader : Bool := false
  srcId : BitVec 4 := 0
  ringPos : BitVec 4 := 0
  posUnknown : Bool := false
  timeState : TimeState := .hold
  timeErr : Int := 0
  frameErrs : Halfword := 0
  rtMeas : BitVec 24 := 0
  members : BitVec 16 := 0
  dropped : BitVec 16 := 0
  uids : Vector Word 16 := Vector.replicate 16 0
  roles : Vector Nat 16 := Vector.replicate 16 0
  presentAt : Vector Nat 16 := Vector.replicate 16 0
  /-- this device drives time (time source, R121) -/
  source : Bool := false
  /-- member of the caravan (R149) -/
  member : Bool := false
  /-- refused at ROLL (R150) -/
  refused : Bool := false
  /-- runs of frames for R139 and R141 -/
  misRun : Nat := 0
  okRun : Nat := 0
  openRun : Nat := 0
  retRun : Nat := 0
  returned : Bool := false
  badRun : Nat := 0
  goodRun : Nat := 0
  srcActing : Bool := false
  /-- last valid TIME frame, or the end of INIT: the 10 ms of R141 count from here -/
  timeSeen : Option Nat := none
  actingSeen : Option Nat := none
  /-- first and last frame of the present run of frames of a leader (R144), of a rival (R147) -/
  leaderSince : Option Nat := none
  leaderLast : Nat := 0
  rivalSince : Option Nat := none
  rivalLast : Nat := 0
  rivalActing : Bool := false
  rivalId : Nat := 0
  xrefValid : Bool := false
  onOwn : Bool := false
  handback : Option Word := none
  rollQ : List Roll := []
  answers : List (Roll × Nat) := []
  joinTried : Option Nat := none
  /-- time frame (ms of local time) in which the device last sent in its insertion slot (R135) -/
  slotUsed : Option Nat := none
  /-- a JOIN has been sent and not answered (R149, R150) -/
  awaiting : Bool := false
  /-- accepted while it ran alone: its role changes when local time has been stepped (R151) -/
  joinPending : Bool := false
  /-- frames that left `CVN_MKO_P/N` in the last transmission, own or repeated (R48, R121), their chips (R131), and the instant of their first
  marker edge in units of 156.25 ps (R124) (output) -/
  sent : List (List Byte) := []
  chips : List Bool := []
  outAt : Option Nat := none
  /-- a step of more than 1 s: the next `H_NO` is taken as it is (R142) -/
  newBase : Bool := false
  /-- hop and cable compensation is in effect (R71) -/
  comp : Bool := false
  deriving DecidableEq, Repr

/-- A halt as announced or predicted (R153 to R155): times in ticks. -/
structure HaltSched where
  no : Word
  start : Nat
  qlen : Nat
  period : Nat
  predicted : Bool
  deriving DecidableEq, Repr

/-- Halts: R153 to R160, R162. -/
structure Halts where
  last : Word := 0
  predicted : Halfword := 0
  skipped : Halfword := 0
  ran : Bool := false
  accepted : Bool := false
  next : Option HaltSched := none
  cur : Option HaltSched := none
  phase : HaltPhase := .idle
  /-- ramp length in units of 10 us, fixed 3 ms before the quiet window (R158) -/
  tr : Nat := 25
  trFixed : Bool := false
  capped : Bool := false
  /-- islands with a late halt launch, for the next halt and for the halt in progress (R25) -/
  lateNext : Vector Bool 5 := Vector.replicate 5 false
  lateCur : Vector Bool 5 := Vector.replicate 5 false
  /-- instant (local sub-ticks) of the start of the phase in force -/
  phaseAt : Nat := 0
  converted : Bool := false
  /-- the snapshot results have arrived (R341) -/
  snapped : Bool := false
  flags : BitVec 8 := 0
  lastStart : Nat := 0
  lastQlen : Nat := 400
  lastPeriod : Nat := 2000
  /-- RUN launch (ticks), and acceptance of the next halt (R151, R154) -/
  runAt : Nat := 0
  nextAt : Nat := 0
  /-- number of the last halt scheduled, run or skipped -/
  refNo : Word := 0
  deriving DecidableEq, Repr

/-- A capture set (R196). -/
structure CapSet where
  toff : BitVec 20 := 0
  cend : BitVec 2 := 0
  copen : Bool := false
  cflat : Bool := false
  tlow : BitVec 20 := 0
  noLow : Bool := false
  ucode : BitVec 10 := 0
  deriving DecidableEq, Repr

/-- A phase slot: 05 (R163 to R211), its probation and Newt word (R454 to R456, R476). -/
structure SlotSt where
  pinA : Bool := false
  pinB : Bool := false
  dflt : Bool := false
  dfltSeen : Bool := false
  thrErr : Bool := false
  cmpErr : Bool := false
  cmp : Cmp := .between
  cmpMoved : Bool := false
  capped : Bool := false
  /-- the last cycle was limited by what the slot is held to; so was a cycle of the loop period in progress, and one of the last period (R454) -/
  heldTo : Bool := false
  capHit : Bool := false
  capLast : Bool := false
  /-- carrier: counting, the instant of its next valley (sub-ticks since reset release; one count is one sub-tick), half length of the
  cycle in force and reload of the next -/
  running : Bool := false
  due : Nat := 0
  m : Nat := 200
  mShadow : Nat := 200
  tonMax : Nat := 0
  /-- fine offset of the member's edges in sixteenths of a count (R180, R182), up to 30, and the one of the next cycle (R165) -/
  ofs : Nat := 0
  ofsNext : Nat := 0
  /-- the cycle in progress began with the gate open -/
  inCycle : Bool := false
  /-- active and complementary on-time in progress; past blanking; complementary past blanking -/
  xOn : Bool := false
  yOn : Bool := false
  yDone : Bool := false
  blanked : Bool := false
  yBlanked : Bool := false
  /-- X was on in the cycle in progress, and on a command that R195 evaluates -/
  xWas : Bool := false
  evalOk : Bool := false
  /-- instants of the last edges of X and Y, in fine steps of 156.25 ps since reset release (R169); slope steps taken -/
  xAt : Nat := 0
  xOffAt : Nat := 0
  yAt : Nat := 0
  yOffAt : Nat := 0
  slopeN : Nat := 0
  /-- X on waits for the dead time after a Y-off, until `xAt`; a Y-off carried into the cycle in progress, with its instant (R170) -/
  xWait : Bool := false
  yLate : Option Nat := none
  /-- upper threshold in codes, with its fraction (R187) -/
  upper : Qty := 0
  cur : CapSet := {}
  lowSeen : Bool := false
  readable : CapSet := {}
  shadow : CapSet := {}
  new : Bool := false
  overcap : Bool := false
  /-- last capture event: its instant, and the shadow, `NEW`, `OVERCAP` and count before it (R199) -/
  capPrev : Option (Nat × (CapSet × (Bool × (Bool × Halfword)))) := none
  cycCnt : Halfword := 0
  ipkAvg : Qty := 0
  tonAvg : Qty := 0
  balErr : Int := 0
  overcapCnt : Halfword := 0
  skipCnt : Halfword := 0
  evRun : Nat := 0
  ipkUpd : Nat := 0
  /-- derate factor taken from its model at the last valley (R392), and i_ph of the latest result (R383, R384) -/
  kth : Qty := 1
  iPh : Qty := 0
  /-- shed from this channel, at this instant (R235, R237) -/
  shedFrom : Option Chan := none
  shedAt : Nat := 0
  /-- substitution: the slot replaced, the channel served (R446) -/
  repl : Option Slot := none
  forCh : Option Chan := none
  tadpole : Bool := false
  bad : Bool := false
  promoted : Bool := false
  promoteNext : Bool := false
  probHalts : Nat := 0
  probPass : Nat := 0
  probEvals : Nat := 0
  failRun : Nat := 0
  probLong : Bool := false
  probLastFail : Bool := false
  newtRefused : Bool := false
  holders : List Nat := []
  deriving DecidableEq, Repr

/-- A quadrant's own state: timer (R180), readback rotation (R202), SYS (R284), copies received by crossings, modulator words (R477). -/
structure QuadSt where
  armed : Bool := false
  running : Bool := false
  due : Nat := 0
  rbGen : Nat := 0
  rbOdd : Bool := false
  rbBusy : Bool := false
  rbLeft : Nat := 0
  sysVal : Qty := 0
  sysAt : Option Nat := none
  sysWord : Word := 0
  /-- the last SYS result that has reached housekeeping (R20, R284), its instant and its word -/
  hkVal : Qty := 0
  hkAt : Option Nat := none
  hkWord : Word := 0
  sysHeld : Qty := 0
  stale : Bool := false
  halved : Bool := false
  gain : Qty := 1
  bus : BusState := .beforeRun
  xf20 : BitVec 3 := 0
  xf21 : BitVec 3 := 0
  deriving DecidableEq, Repr

/-- Regulation of a channel: 06 (R212 to R241). -/
structure ChanSt where
  st : ChState := .unarmed
  armed : Bool := false
  gate : Bool := false
  enablePending : Bool := false
  noMember : Bool := false
  /-- its request for a spare slot has found none (R453) -/
  noSpare : Bool := false
  headroom : Bool := false
  chlim : Bool := false
  /-- its comparator reads BELOW (R225) -/
  chBelow : Bool := false
  limitBy : BitVec 3 := 0
  stopCause : BitVec 3 := 0
  reason : Byte := 0
  rearmRefused : Bool := false
  restart : Bool := false
  /-- an accepted reload stops it at its next loop step (R232, R472) -/
  reloadReq : Bool := false
  checking : Bool := false
  /-- last valid string-voltage result of its own modulator, to which v returns when a cover ends (R216) -/
  vOwn : Option Qty := none
  icmd : Qty := 0
  iceil : Qty := 0
  imeas : Qty := 0
  ipk : Qty := 0
  /-- terms of i_pk of the last loop step: share of i_cmd per member, and slope and correction (R217) -/
  ibase : Qty := 0
  iadd : Qty := 0
  /-- the share without the stop ramp (R230), V_target in force (R218), n (R217) and halving factor (R223) of the last loop step -/
  iraw : Qty := 0
  tgt : Option Qty := none
  nMem : Nat := 0
  halve : Bool := false
  xv : Qty := 0
  xi : Qty := 0
  iramp : Qty := 0
  istop : Qty := 0
  ssTime : Nat := 0
  /-- the timer has been judged; the string has exceeded 0.1 × V_target since entry to START (R228) -/
  ssRaised : Bool := false
  ssOver : Bool := false
  zeroReq : Nat := 0
  /-- halt or edge factor (R229) and its ramp start, pulse factor (R249) and its ramp start -/
  h : Qty := 1
  hUpAt : Option Nat := none
  hp : Qty := 1
  hpDownAt : Option Nat := none
  hpUpAt : Option Nat := none
  bud : Qty := 0
  narrowI : BitVec 16 := 0xFFFF
  narrowV : BitVec 16 := 0xFFFF
  narrowIq : BitVec 16 := 0xFFFF
  narrowVq : BitVec 16 := 0xFFFF
  hostStop : Bool := false
  hostStopQ : Bool := false
  cut : Qty := 0
  cutMax : Qty := 0
  cutOpen : Bool := false
  cutZeroAt : Option Nat := none
  chlimCnt : Halfword := 0
  chlimHit : Bool := false
  termHit : Bool := false
  cappedHit : Bool := false
  shedCnt : Halfword := 0
  /-- latest corrected results (V, A), their words and whether one has come (R216) -/
  v : Qty := 0
  vSeen : Bool := false
  i : Qty := 0
  fold : Bool := false
  foldCap : Qty := 0
  /-- channel master: counting, instant of its next valley, half length of the cycle in force and reload of the next, waiting for its
  start, instant of a RESET by the quadrant timer (R179 to R181) -/
  running : Bool := false
  due : Nat := 0
  resetAt : Option Nat := none
  m : Nat := 200
  mShadow : Nat := 200
  waiting : Bool := false
  holders : List Nat := []
  /-- last samples, and the 51.2 us interval of the last one (R439) -/
  hist : List (BitVec 128) := []
  histAt : Option Nat := none
  deriving DecidableEq, Repr

/-- Charge profile of a channel: 07 (R242 to R281). -/
structure ProfSt where
  phase : Phase := .idle
  paused : Bool := false
  inRest : Bool := false
  slot : Option (Fin 32) := none
  kind : BitVec 2 := 0
  assessDisturbed : Bool := false
  finTimeout : Bool := false
  unrelaxed : Bool := false
  doneRun : Byte := 0
  assessTry : Byte := 0
  vLast : BitVec 24 := 0
  ratio : Byte := 0
  amp : Qty := 1
  iprof : Qty := 0
  phaseAt : Nat := 0
  disturbed : Halfword := 0
  incomplete : Halfword := 0
  fallback : Halfword := 0
  skippedRests : Halfword := 0
  /-- rest in progress: start (local sub-ticks and up), phase before, samples, sum and count of the open window, largest |i| -/
  restLoc : Nat := 0
  restAt : Nat := 0
  phBefore : Phase := .idle
  samples : List (Option Qty) := []
  winSum : Qty := 0
  winN : Nat := 0
  iMax : Qty := 0
  restEndAt : Nat := 0
  /-- local time from which the next rest start counts (R272, R130) -/
  restFrom : Nat := 0
  /-- the estimate of the last rest is made; a joined channel awaits its first rest end, at that instant once it holds a slot (R274) -/
  evald : Bool := false
  waitSlot : Bool := false
  joinEnd : Option Nat := none
  /-- request at g = 1 in force (R242, R264); RECOVER timeout already raised -/
  req1 : Qty := 0
  timedOut : Bool := false
  /-- timers: RECOVER or FINISH running time (sub-ticks), keep timer start, due check, last instant of charge current -/
  phaseRun : Nat := 0
  phaseTick : Nat := 0
  keepAt : Option Nat := none
  keepDue : Bool := false
  zeroAt : Option Nat := none
  carried : Bool := false
  /-- accumulators in 1/65,536 uA.s, quadrant and housekeeping pair, snapshot, latched high words (R267 to R271) -/
  qIn : Nat := 0
  qOut : Nat := 0
  hkIn : Nat := 0
  hkOut : Nat := 0
  snapIn : BitVec 64 := 0
  snapOut : BitVec 64 := 0
  snapPhase : Phase := .idle
  qInHi : Word := 0
  qOutHi : Word := 0
  qGaps : Halfword := 0
  qRecon : Halfword := 0
  lastEnd : Nat := 0
  lastI : Qty := 0
  gapFrom : Option Nat := none
  hkBad : Bool := false
  deriving DecidableEq, Repr

/-- A path switch and its breaker: 08 (R298 to R316, R324). -/
structure PathSt where
  st : PsState := .unarmed
  /-- state at the last quiet-window start (R458) -/
  atQuiet : PsState := .unarmed
  /-- gate reference (V) at instant gAt; it moves at the slope towards the target of the state -/
  g : Qty := 0
  gAt : Nat := 0
  /-- ramping towards PG_FULL (R299) -/
  toFull : Bool := false
  falling : Bool := false
  fbHigh : Bool := false
  checkAt : Option Nat := none
  passed : Bool := false
  zeroAt : Nat := 0
  belowSys : Bool := false
  collapseAt : Option Nat := none
  /-- the collapse hold has run; the gate stays closed to the next loop step (R313) -/
  holdOver : Bool := false
  vc : Qty := 0
  tripInst : Bool := false
  tripCurve : Bool := false
  ovwHit : Bool := false
  latched : Bool := false
  hmem : Qty := 0
  hAt : Nat := 0
  retryAt : Option Nat := none
  tripCnt : Halfword := 0
  revCnt : Halfword := 0
  presentAt : Option Nat := none
  lowAt : Option Nat := none
  wasPresent : Bool := false
  /-- since when each evidence of R316 holds -/
  stuckSince : Option Nat := none
  stuckSinceB : Option Nat := none
  /-- the channel has been toggled; the latch is cleared at its next loop step (R299) -/
  toggled : Bool := false
  instCode : Bool := true
  fbSag : Bool := false
  fbHi : Bool := false
  blind : Bool := false
  holders : List Nat := []
  deriving DecidableEq, Repr

/-- A source: 08 (R287 to R297, R323). -/
structure SrcSt where
  st : SState := .off
  g : Qty := 0
  gAt : Nat := 0
  bandWait : Bool := false
  /-- the window has started and no result has come since (R289) -/
  bandNew : Bool := false
  isOver : Bool := false
  isRev : Bool := false
  stuck : Bool := false
  revCnt : Halfword := 0
  v : Qty := 0
  i : Qty := 0
  qualAt : Option Nat := none
  lowRun : Nat := 0
  checkAt : Option Nat := none
  passed : Bool := false
  fbHigh : Bool := false
  stuckSince : Option Nat := none
  stuckUp : Bool := false
  halveHit : Bool := false
  fbSag : Bool := false
  fbHi : Bool := false
  holders : List Nat := []
  hist : List (BitVec 128) := []
  histAt : Option Nat := none
  deriving DecidableEq, Repr

/-- The bus and the input budget: 08 (R284, R294 to R296, R302, R325). -/
structure BusSt where
  st : BusState := .beforeRun
  halving : Bool := false
  hoCnt : Halfword := 0
  vSys : Qty := 0
  fresh : Bool := false
  b : Qty := 0
  p : Qty := 0
  belowRun : Nat := 0
  entered : Nat := 0
  aboveEndAt : Option Nat := none
  halveAt : Nat := 0
  halveRaised : Bool := false
  hist : List (BitVec 128) := []
  histAt : Option Nat := none
  deriving DecidableEq, Repr

/-- Stagger of the rests: 07 (R272 to R276, R281). -/
structure Stagger where
  gain : Qty := 1
  /-- frame start (local sub-ticks) whose dealing has been made (R273) -/
  dealFor : Option Nat := none
  dealt : List (Chan × Fin 32) := []
  dealtSet : List Chan := []
  newDeal : Option (List (Chan × Fin 32)) := none
  cfg : Word := 0
  newCfg : Word := 0
  deriving DecidableEq, Repr

/-- An injected conversion (R349). -/
structure Inj where
  osr : Nat
  input : Nat
  ring : Nat
  deriving DecidableEq, Repr

/-- A precision modulator: 09, 12. -/
structure ModSt where
  acting : Option Pm := none
  failed : Bool := false
  /-- instants of the stream's start and of its last result (R334) -/
  streamAt : Nat := 0
  resAt : Option Nat := none
  bad : Bool := false
  streamOk : Bool := false
  ovr : Bool := false
  degraded : Bool := false
  snap : Word := 0
  snapHalt : Word := 0
  inj : Word := 0
  injHost : Option Inj := none
  injRun : Bool := false
  injNewt : Option (Nat × Nat) := none
  conv : Option Conv := none
  convAt : Nat := 0
  word : Word := 0
  /-- instant of the result that `word` holds -/
  wordAt : Option Nat := none
  raw : Int := 0
  code : Int := 0
  same : Nat := 0
  tapSum : Int := 0
  tapN : Nat := 0
  tapOvr : Bool := false
  lastRaws : List Int := []
  checkRun : Nat := 0
  /-- it disagreed in the last cross-check (R458, R462); no usable spare has been found for it (R461) -/
  disagreed : Bool := false
  noSpare : Bool := false
  tapWrong : Nat := 0
  tapBad : Bool := false
  hlQueue : List (Table × Nat) := []
  trackCnt : List (Nat × Nat) := []
  /-- a spare: its tracking samples that a lost codeword held, position and place (R468) -/
  trackLost : List (Nat × Nat) := []
  sumFrame : Int := 0
  nFrame : Nat := 0
  badFrame : Bool := false
  deriving DecidableEq, Repr

/-- A RESULT record being built (R374). -/
structure RecBuild where
  src : Nat
  mod : Nat
  osr : Nat
  halt : Bool
  entry : Nat
  input : Nat
  ring : Nat
  words : List (Word × Nat)
  deriving DecidableEq, Repr

/-- A sequencer table: R342 to R348. -/
structure SeqSt where
  entry : Fin 64 := 0
  waitHalt : Bool := false
  running : Bool := false
  passes : Halfword := 0
  hlMissed : Halfword := 0
  skipped : Halfword := 0
  rep : Nat := 0
  booked : Option Word := none
  /-- the halt it booked does not run: end of that halt's quiet window, where it moves on (R343) -/
  skipTo : Option Nat := none
  waiting : Bool := false
  /-- end of the entry before, from which the delay counts; for an entry that waits for a halt, when its delay had run -/
  delayFrom : Nat := 0
  build : Option RecBuild := none
  deriving DecidableEq, Repr

/-- A result ring: R369, R378. -/
structure RingSt where
  wr : Halfword := 0
  rd : Halfword := 0
  ovf : Halfword := 0
  lost : Halfword := 0
  deriving DecidableEq, Repr

/-- Calibration: R357 to R363. -/
structure CalSt where
  mod : BitVec 7 := 0
  step : BitVec 3 := 0
  reason : Byte := 0
  pending : Bool := false
  /-- coefficients have changed since the commit in progress took the first image's bytes (R362, R363) -/
  since : Bool := false
  busy : Bool := false
  commitA : BitVec 2 := 0
  commitB : BitVec 2 := 0
  held : Option (Pm × Int) := none
  full : Bool := false
  applied : Int := 0
  sum : Int := 0
  n : Nat := 0
  refused : Bool := false
  deriving DecidableEq, Repr

/-- A thermal model: R380 to R394, R411. -/
structure ThermSt where
  th0 : Qty := 0
  th1 : Qty := 0
  th2 : Qty := 0
  th3 : Qty := 0
  tcool : Qty := 0
  tj : Qty := 0
  p : Qty := 0
  kth : Qty := 1
  derate : Bool := false
  trip : Bool := false
  reinit : Bool := false
  /-- highest Tj since the last read, none before an update (R411) -/
  peak : Option Qty := none
  /-- energy (J) summed by the quadrant in the frame in progress (R382) -/
  energy : Qty := 0
  frameE : Qty := 0
  /-- values the quadrant holds: Tj in use in the frame in progress, Tj last received, k_th (R382) -/
  tjQ : Qty := 0
  tjRx : Qty := 0
  kthQ : Qty := 1
  deriving DecidableEq, Repr

/-- The housekeeping round: R398 to R412. -/
structure HkSt where
  sensBad : BitVec 8 := 0
  railErr : BitVec 8 := 0
  railBadRun : Vector Nat 8 := Vector.replicate 8 0
  refOnB : Bool := false
  refDisagree : Bool := false
  refaBad : Bool := false
  refbBad : Bool := false
  trimLimit : Bool := false
  tempLost : Bool := false
  dieHot : Bool := false
  clFallback : BitVec 4 := 0
  clGood : Vector Nat 4 := Vector.replicate 4 0
  delta : Int := 0
  /-- delta_q of the last round, none where it was not read (R404, R458) -/
  qdelta : Vector (Option Qty) 4 := Vector.replicate 4 none
  late : Byte := 0
  dieT : Vector Qty 8 := Vector.replicate 8 0
  railV : Vector Qty 8 := Vector.replicate 8 0
  fbV : Vector Qty 36 := Vector.replicate 36 0
  disRun : Nat := 0
  agreeRun : Nat := 0
  islTemp : Vector Qty 5 := Vector.replicate 5 0
  refTemp : Qty := 0
  /-- next conversion of the round per quadrant (15: done) and raw readings -/
  pos : Vector Nat 4 := Vector.replicate 4 15
  raws : Vector (List (Option Int)) 4 := Vector.replicate 4 []
  /-- the conversion in progress belongs to the round before (R28, R398) -/
  stray : Vector Bool 4 := Vector.replicate 4 false
  heldOffset : Qty := 0
  /-- coolant channels in the frame just ended: temperature of a modulator-fed channel, none without a valid result (R387, R388) -/
  clT : Vector (Option Qty) 4 := Vector.replicate 4 none
  /-- end of that frame, and whether it is still to be judged (R388) -/
  clAt : Option Nat := none
  clNew : Bool := false
  /-- round start taken last (R398); gate references of the 36 switches at their readings (R409) -/
  roundAt : Option Nat := none
  fbG : Vector Qty 36 := Vector.replicate 36 0
  /-- REFA found implausible at this instant, change to REFB pending (R406) -/
  changeAt : Option Nat := none
  changing : Bool := false
  /-- instant of the change to REFB (sub-ticks since reset release): what was being converted then is discarded (R406) -/
  changedAt : Option Nat := none
  trimA : Int := 0
  trimB : Int := 0
  trimANext : Int := 0
  trimBNext : Int := 0
  oscTrim : Vector Qty 10 := Vector.replicate 10 0
  /-- trims of the last round, which the oscillators approach at 1 ppm/ms at most (R402) -/
  oscTrimNext : Vector Qty 10 := Vector.replicate 10 0
  oscLost : BitVec 10 := 0
  oscOn1 : BitVec 5 := 0
  deriving DecidableEq, Repr

/-- A fault source of the collector: R414 to R429, R444. -/
structure FaultSt where
  active : Bool := false
  rpath : Bool := false
  level : Bool := false
  inj : Bool := false
  hold : Bool := false
  latched : Bool := false
  promoted : Bool := false
  win : Byte := 0
  winAt : Option Nat := none
  recov : Halfword := 0
  count : Halfword := 0
  heldAt : Nat := 0
  quietAt : Option Nat := none
  pre : Bool := false
  /-- an injection has caused its reporting-path fault, and its hold: the records of their ends carry the injected flag too (R441) -/
  injPath : Bool := false
  injHold : Bool := false
  /-- raise records written and suppressed in a whole second of local time, and which second that is (R437) -/
  secN : Nat := 0
  secMore : Nat := 0
  secOf : Nat := 0
  deriving DecidableEq, Repr

/-- A capture in progress (R439, R440): buffer, source, kind, object, samples before the decision, decision time and time of the first
sample in ticks, last halt number, samples so far. -/
structure Cap where
  buf : Nat
  fsrc : Nat
  kind : Nat
  obj : Nat
  pre : Nat
  time : Nat
  t0 : Nat
  haltNo : Word
  samples : List (BitVec 128)
  deriving DecidableEq, Repr

/-- The collector's device words, pins and log: R432, R433, R437, R438, R445. -/
structure Collector where
  firstDev : BitVec 12 := 0xFFF
  devHolders : List Nat := []
  latchHolders : List Nat := []
  flt : Bool := true
  alive : Bool := false
  aliveRun : Bool := false
  resumeAt : Option Nat := none
  logWr : Halfword := 0
  logRd : Halfword := 0
  logOvw : Halfword := 0
  logLost : Halfword := 0
  logSeq : Word := 0
  logQ : List (List Byte) := []
  /-- instant of the last end of a second that was taken (R437) -/
  secDone : Option Nat := none
  /-- collector cycle of the last record, and records queued in it (R423) -/
  logCyc : Nat × Nat := (0, 0)
  capBusy : BitVec 16 := 0
  capFull : BitVec 16 := 0
  capMissed : Halfword := 0
  /-- buffers filling (R439), and their codewords that wait for the memory write port: address and bytes (R27) -/
  caps : List Cap := []
  capQ : List (Nat × List Byte) := []
  fiRsN : BitVec 2 := 0
  fiRsReg : BitVec 3 := 0
  fiPec : Bool := false
  fiCrc : BitVec 2 := 0
  fiFsrc : BitVec 12 := 0
  fiMode : BitVec 2 := 0
  fiMs : BitVec 16 := 0
  fiAt : Nat := 0
  deriving DecidableEq, Repr

/-- Memory protection: R466 to R470, R478, R529; Newt's waiting substitutions. -/
structure MemSt where
  mem : Memory := []
  /-- configuration values that the islands hold (R62, R431) -/
  conf : Memory := []
  /-- codewords with wrong symbols (R466): codeword, inverted check symbols (R441), upset symbols -/
  errs : List (Nat × (Nat × Nat)) := []
  /-- uncorrectable codewords already raised (R468), at most 64 -/
  raised : List Nat := []
  ceCnt : Halfword := 0
  ueCnt : Halfword := 0
  rowsOut : BitVec 8 := 0
  scrubPass : Halfword := 0
  scrubAt : Fin 32768 := 0
  /-- corrections per row: bank, row (512 to 575 are spare rows), count, instant of the first (R469) -/
  rowCorr : List ((Nat × Nat) × (Nat × Nat)) := []
  /-- remap table: bank, row, spare row (R469) -/
  remap : List (Nat × Nat × Nat) := []
  /-- rows being copied, the first in progress, and its codewords copied so far (R469) -/
  copying : List (Nat × Nat × Nat) := []
  copied : Nat := 0
  /-- codewords waiting for the scrubber's write-back (R466) -/
  fixing : List Nat := []
  rowsUsed : Vector Nat 8 := Vector.replicate 8 0
  /-- models whose state waits for the memory write port (R382), codewords of the mirror written so far in the build or reload in progress (R27) -/
  modelQ : List Nat := []
  mirrorAt : Nat := 0
  ueAddr : BitVec 20 := 0
  ueValid : Bool := false
  swaps : List Swap := []
  deriving DecidableEq, Repr

/-- Region reload: R471 to R474, R479. -/
structure ReloadSt where
  st : BitVec 3 := 0
  image : Bool := false
  quad : Bool := false
  obj : BitVec 5 := 0
  reason : Byte := 0
  ms : Halfword := 0
  count : Halfword := 0
  at0 : Nat := 0
  checkedAt : Nat := 0
  newBase : Memory := []
  newOvls : List Ovl := []
  /-- result of R53 on the named image, directory fault, overlay that differs (R109, R111) -/
  imgRes : Nat := 0
  dirBad : Option Nat := none
  differ : Option Nat := none
  written : Bool := false
  /-- instant of the re-arm launch, once the words are written (R472) -/
  rearmAt : Nat := 0
  /-- an overlay took effect after the check (R474) -/
  recheck : Bool := false
  /-- the last reload was refused, and its image has not been written since (R501) -/
  known : Bool := false
  deriving DecidableEq, Repr

/-- One entry of the caravan summary (R520). -/
structure PollEntry where
  status : Byte := 0x03
  /-- instant of the last fresh poll -/
  freshAt : Option Nat := none
  bytes : List Byte := []
  deriving DecidableEq, Repr

/-- The supervisory port: R489 to R524. -/
structure SupSt where
  resCmd : Byte := 0
  resCode : Byte := 0
  resSeq : Halfword := 0
  resDetail : Word := 0
  pecErr : Halfword := 0
  busErr : Halfword := 0
  timeouts : Halfword := 0
  arbLost : Halfword := 0
  cmdRefused : Halfword := 0
  unlockEnd : Option Nat := none
  lockoutEnd : Option Nat := none
  badCodes : BitVec 2 := 0
  pollFail : Halfword := 0
  pollRounds : Halfword := 0
  alert : BitVec 7 := 0
  alertFsrc : BitVec 12 := 0
  alertRings : BitVec 32 := 0
  alertDrive : Bool := false
  /-- bytes that the target sent in the last answered transaction, result code and PEC included (output) -/
  out : List Byte := []
  /-- whether the target acknowledged the last transaction -/
  acked : Bool := false
  entries : Vector PollEntry 16 := Vector.replicate 16 {}
  /-- last second at which a poll round has started (R518) -/
  roundAt : Option Nat := none
  /-- controller: granted poll (0 Alert Response Address, 1 + id), on the bus, arbitrations lost in a row, waits for the back-off -/
  poll : Option Nat := none
  polling : Bool := false
  lostRun : Nat := 0
  backoff : Bool := false
  /-- when the bus came free in the wait after a lost arbitration (R521) -/
  freeAt : Option Nat := none
  /-- it serves as target the transaction to which it lost arbitration (R522) -/
  serving : Bool := false
  /-- bus recoveries sent as controller since reset release (R483; output) -/
  recovered : Nat := 0
  deriving DecidableEq, Repr

/-- What drives a caravan output pair (R46, R48, R121). -/
inductive CvnPin where
  | off | repeater | own
  deriving DecidableEq, Repr

/-- What the supervisory port is to its bus (R46). -/
inductive SupPin where
  | released | target | controller
  deriving DecidableEq, Repr

/-- Output pins (R14, R46, R433, R516). The output stage drives them from the rest of the device at the end of every command: a pin of a power
output that is not driven is low, or at 0 V. -/
structure Pins where
  /-- `VDD_IO` is absent: every output is high-impedance, whatever level the other fields name (R17, R42, R46) -/
  hiZ : Bool := false
  pwma : Vector Bool 136 := Vector.replicate 136 false
  pwmb : Vector Bool 136 := Vector.replicate 136 false
  /-- `PGATE_nn` and `SGATE_n` above 0 V -/
  pgate : Vector Bool 32 := Vector.replicate 32 false
  sgate : Vector Bool 4 := Vector.replicate 4 false
  alive : Bool := false
  fltP : Bool := true
  fltN : Bool := false
  /-- `SUP_ALERT_N` driven low -/
  alertLow : Bool := false
  /-- `SUP_SCL`, `SUP_SDA` -/
  sup : SupPin := .released
  /-- `BOOT_SCL`, `BOOT_SDA` driven -/
  boot : Bool := false
  /-- `CVN_CKO_P/N`, `CVN_MKO_P/N` -/
  cvn : CvnPin := .repeater
  /-- `REFA`, `REFB` driven at the trimmed voltage, not discharged (R545) -/
  refs : Bool := true
  deriving DecidableEq, Repr

/-- Everything the device holds. -/
structure Device where
  start : Start := {}
  loader : Loader := {}
  check : CheckWords := {}
  button : Button := {}
  mode : ModeSt := {}
  bootp : BootPort := {}
  arbs : Vector Arbiter 99 := Vector.replicate 99 {}
  clk : Clocks := {}
  isl : Islands := {}
  cvn : Caravan := {}
  halt : Halts := {}
  slots : Vector SlotSt 136 := Vector.replicate 136 {}
  quads : Vector QuadSt 4 := Vector.replicate 4 {}
  chans : Vector ChanSt 32 := Vector.replicate 32 {}
  profs : Vector ProfSt 32 := Vector.replicate 32 {}
  paths : Vector PathSt 32 := Vector.replicate 32 {}
  srcs : Vector SrcSt 4 := Vector.replicate 4 {}
  bus : BusSt := {}
  stg : Stagger := {}
  mods : Vector ModSt 88 := Vector.replicate 88 {}
  seqs : Vector SeqSt 5 := Vector.replicate 5 {}
  rings : Vector RingSt 32 := Vector.replicate 32 {}
  /-- queues of the five ring writers (R368): ring and record -/
  writers : Vector (List (Ring × List Byte)) 5 := Vector.replicate 5 []
  nobind : Halfword := 0
  cal : CalSt := {}
  therm : Vector ThermSt 172 := Vector.replicate 172 {}
  hk : HkSt := {}
  faults : Vector FaultSt 2048 := Vector.replicate 2048 {}
  col : Collector := {}
  memory : MemSt := {}
  reload : ReloadSt := {}
  sup : SupSt := {}
  pins : Pins := {}
  /-- number of free values drawn (the model's own field, log entry 6) -/
  free : Nat := 0
  deriving DecidableEq, Repr

/-- The block: the device and the commands waiting, first in, first out. -/
structure State where
  dev : Device := {}
  pending : List Instr := []
  deriving DecidableEq, Repr

/-- The machine right after a power-on reset: INIT (R40 resets `DEV_STATE` to 0x1), cause POR, every field at its reset value. -/
def State.reset : State := {}

end Sys2Proof.Machine
end

