-- ==== Sys2Proof/Machine/Flags.lean ====
section
/-! DEFINITION. Sys2Proof/Machine/Flags.lean: encodings of states and flags as the status words report them, and the R-numbers that give them. -/

namespace Sys2Proof.Machine

/-- `DEV_STATE` (R40). -/
def DevState.code : DevState → Nat
  | .reset => 0 | .init => 1 | .load => 2 | .noImage => 3 | .build => 4 | .configured => 5 | .join => 6 | .run => 7 | .svcHold => 8

/-- `CH_STATE` (R241). -/
def ChState.code : ChState → Nat
  | .unarmed => 0 | .off => 1 | .start => 2 | .regulate => 3 | .stop => 4 | .held => 5 | .absent => 6

/-- `PF_PHASE` (R242, R280). -/
def Phase.code : Phase → Nat
  | .idle => 0 | .assess => 1 | .recover => 2 | .bulk => 3 | .absorb => 4 | .finish => 5 | .keep => 6

/-- `PS_STATE` (R324). -/
def PsState.code : PsState → Nat
  | .unarmed => 0 | .wait => 1 | .gtest => 2 | .block => 3 | .ramp => 4 | .diode => 5 | .full => 6 | .tripped => 7 | .norise => 8
  | .stuck => 9 | .absent => 10

/-- `S_STATE` (R323). -/
def SState.code : SState → Nat
  | .off => 0 | .below => 1 | .qual => 2 | .hold => 3 | .ramp => 4 | .admitted => 5 | .requal => 6 | .norise => 7

/-- `BUS_STATE` (R325). -/
def BusState.code : BusState → Nat
  | .beforeRun => 0 | .sourced => 1 | .handover => 2 | .onStrings => 3 | .ret => 4

/-- `FS_SEV_EFF` (R435). -/
def Severity.code : Severity → Nat
  | .none => 0 | .log => 1 | .channel => 2 | .quadrant => 3 | .device => 4 | .latch => 5 | .breaker => 6

/-- A severity that stops something (R419). -/
def Severity.holds : Severity → Bool
  | .none => false | .log => false | _ => true

/-- Switching states of a channel (R178, R232). -/
def ChState.switching : ChState → Bool
  | .start => true | .regulate => true | .stop => true | _ => false

/-- Conducting, or about to, towards SYS (R294: the sources whose current counts). -/
def SState.live : SState → Bool
  | .ramp => true | .admitted => true | .requal => true | _ => false

/-- Presence condition of R232 (R299). -/
def PsState.present : PsState → Bool
  | .block => true | .ramp => true | .diode => true | .full => true | _ => false

/-- States in which a trip is taken (R299). -/
def PsState.tripRow : PsState → Bool
  | .gtest => true | .block => true | .ramp => true | .diode => true | .full => true | _ => false

end Sys2Proof.Machine
end

