-- ==== Sys2Proof/Config.lean ====
section
/-! DEFINITION. Sys2Proof/Config.lean: what the manual leaves to the individual device or leaves open. Every constant here is
opaque: no proof can see a value of it. -/

namespace Sys2Proof

/-- Factory-fused unique number of the device (R136 `R_UID`, R499 `IDENT`). -/
opaque Config.uid : Word

/-- A value the manual leaves open, fresh for each draw: the n-th free Boolean (R43: a RESET_N pulse of 50 ns to 200 ns is either
ignored or a complete reset). Log entry 6. -/
opaque Config.freeBool : Nat → Bool

/-- Temperature (degC) of die sensor s for a reading r, by the coefficients fused at manufacture (10, Die sensors). Log entry 7. -/
opaque Config.dieTemp : Nat → Int → Qty

/-- Frequency trim (ppm) of oscillator o of island i at an island temperature, by fused coefficients (R402). Log entry 7. -/
opaque Config.oscTrim : Nat → Nat → Qty → Qty

/-- Trim (steps of 0.25 ppm) of REFA (false) or REFB (true) at the reference temperature, by fused correction (R403). Log entry 7. -/
opaque Config.refTrim : Bool → Qty → Int

/-- A quantity for which the manual states an effect but no result (a division by zero of a stated formula): fresh for each name.
Log entry 6. -/
opaque Config.freeQty : Nat → Qty

/-- A word of memory as stored in a codeword with two or more upset symbols, by word address (R529). Log entry 6. -/
opaque Config.upsetWord : Nat → Word

/-- `EV_ID` of the event record of a charge difference, for which the manual gives no code (R270). Log entry 6. -/
opaque Config.reconCode : BitVec 16

/-- Voltage (V) of supply monitor input i for a corrected reading: the manual gives no scale of these inputs. Log entry 7. -/
opaque Config.railVolt : Nat → Int → Qty

/-- A threshold code for which the manual gives no scaling (R286, a channel without a string-current modulator). Log entry 95. -/
opaque Config.freeCode : Nat → Nat

end Sys2Proof
end

