-- ==== Sys2Proof/Machine/Ops.lean ====
section
/-! DEFINITION. Sys2Proof/Machine/Ops.lean: named operations over the device: memory, instances, time, arbiters, crossings, launches, log queue. -/

namespace Sys2Proof.Machine

/-- A power output may leave its off level: in RUN only (R39, R46). -/
def Device.powerOn (d : Device) : Bool := decide (d.start.st = .run)

/-- A DEVICE or LATCH reaction is in force (R433). -/
def Device.devFault (d : Device) : Bool := d.col.devHolders ≠ [] || d.col.latchHolders ≠ []

/-- The supervisory port is served from LOAD on (R46). -/
def supPin (d : Device) : SupPin :=
  if d.start.st = .reset ∨ d.start.st = .init then .released
  else if d.start.st = .run ∧ d.cvn.source then .controller else .target

/-- The boot port drives its lines in LOAD and during a transaction of the other states (R46). -/
def bootPin (d : Device) : Bool :=
  match d.start.st with
  | .reset | .init | .noImage | .svcHold => false
  | .load => true
  | _ => d.bootp.started

/-- The repeater runs whenever the four rails are valid; a time source drives its own clock and frames (R48, R121). -/
def cvnPin (d : Device) : CvnPin :=
  if d.start.accRails ≠ 0 then .off else if d.cvn.source then .own else .repeater

/-- The output stage (R14, R17, R39, R46, R48, R150, R432, R433, R516, R545). Both outputs of a slot are never driven together. -/
def drive (d : Device) : Device :=
  let on := d.powerOn
  { d with pins := {
      hiZ := bitOf d.start.accRails.toNat 2
      sup := supPin d
      boot := bootPin d
      cvn := cvnPin d
      refs := decide (d.start.st ≠ .reset)
      pwma := d.slots.map fun s => on && s.pinA && !s.pinB
      pwmb := d.slots.map fun s => on && s.pinB && !s.pinA
      pgate := d.paths.map fun p => on && (decide (0 < p.g) || p.toFull || decide (p.st = .gtest))
      sgate := d.srcs.map fun s => on && decide (0 < s.g)
      alive := on && d.col.alive && !d.devFault
      fltP := !on || d.col.flt || d.devFault
      fltN := on && !(d.col.flt || d.devFault)
      alertLow := d.sup.alertDrive && !d.cvn.refused && decide (d.start.st ≠ .reset ∧ d.start.st ≠ .init) } }

/-- Every meaning ends here: the device changes, its pins follow, and the queue stays. -/
def done (f : Device → Device) (s : State) : Host.Outcome State Fault Refusal := .next { s with dev := drive (f s.dev) }

/-! ### Instances -/

def upd {α : Type} {n : Nat} (v : Vector α n) (i : Fin n) (f : α → α) : Vector α n := v.set i (f v[i])

def mapAll {α : Type} {n : Nat} (v : Vector α n) (f : Fin n → α → α) : Vector α n := Vector.ofFn fun i => f i v[i]

def Device.updSlot (d : Device) (n : Slot) (f : SlotSt → SlotSt) : Device := { d with slots := upd d.slots n f }
def Device.updQuad (d : Device) (q : Quad) (f : QuadSt → QuadSt) : Device := { d with quads := upd d.quads q f }
def Device.updChan (d : Device) (c : Chan) (f : ChanSt → ChanSt) : Device := { d with chans := upd d.chans c f }
def Device.updProf (d : Device) (c : Chan) (f : ProfSt → ProfSt) : Device := { d with profs := upd d.profs c f }
def Device.updPath (d : Device) (c : Chan) (f : PathSt → PathSt) : Device := { d with paths := upd d.paths c f }
def Device.updSrc (d : Device) (k : Src) (f : SrcSt → SrcSt) : Device := { d with srcs := upd d.srcs k f }
def Device.updMod (d : Device) (m : Pm) (f : ModSt → ModSt) : Device := { d with mods := upd d.mods m f }
def Device.updSeq (d : Device) (t : Table) (f : SeqSt → SeqSt) : Device := { d with seqs := upd d.seqs t f }
def Device.updRing (d : Device) (n : Ring) (f : RingSt → RingSt) : Device := { d with rings := upd d.rings n f }
def Device.updTherm (d : Device) (m : Model) (f : ThermSt → ThermSt) : Device := { d with therm := upd d.therm m f }
def Device.updFault (d : Device) (i : Fsrc) (f : FaultSt → FaultSt) : Device := { d with faults := upd d.faults i f }
def Device.updArb (d : Device) (i : Fin 99) (f : Arbiter → Arbiter) : Device := { d with arbs := upd d.arbs i f }
def Device.updCol (d : Device) (f : Collector → Collector) : Device := { d with col := f d.col }
def Device.updSup (d : Device) (f : SupSt → SupSt) : Device := { d with sup := f d.sup }
def Device.updMem (d : Device) (f : MemSt → MemSt) : Device := { d with memory := f d.memory }
def Device.updIsl (d : Device) (f : Islands → Islands) : Device := { d with isl := f d.isl }
def Device.updCvn (d : Device) (f : Caravan → Caravan) : Device := { d with cvn := f d.cvn }
def Device.updHalt (d : Device) (f : Halts → Halts) : Device := { d with halt := f d.halt }
def Device.updMode (d : Device) (f : ModeSt → ModeSt) : Device := { d with mode := f d.mode }
def Device.updHk (d : Device) (f : HkSt → HkSt) : Device := { d with hk := f d.hk }
def Device.updStart (d : Device) (f : Start → Start) : Device := { d with start := f d.start }
def Device.updLoader (d : Device) (f : Loader → Loader) : Device := { d with loader := f d.loader }
def Device.updBoot (d : Device) (f : BootPort → BootPort) : Device := { d with bootp := f d.bootp }
def Device.updBus (d : Device) (f : BusSt → BusSt) : Device := { d with bus := f d.bus }
def Device.updStg (d : Device) (f : Stagger → Stagger) : Device := { d with stg := f d.stg }
def Device.updCal (d : Device) (f : CalSt → CalSt) : Device := { d with cal := f d.cal }
def Device.updReload (d : Device) (f : ReloadSt → ReloadSt) : Device := { d with reload := f d.reload }
def Device.updCheck (d : Device) (f : CheckWords → CheckWords) : Device := { d with check := f d.check }

def allSlots : List Slot := List.finRange 136
def allChans : List Chan := List.finRange 32
def allQuads : List Quad := List.finRange 4
def allSrcs : List Src := List.finRange 4
def allMods : List Pm := List.finRange 88
def quadChans (q : Quad) : List Chan := allChans.filter fun c => Chan.quad c = q
def quadSlots (q : Quad) : List Slot := allSlots.filter fun n => Slot.quad n = q
def quadMods (q : Quad) : List Pm := allMods.filter fun m => Pm.quad m = q

/-- An operation repeated over a list of instances, in its order. -/
def forEach {α : Type} (l : List α) (f : α → Device → Device) (d : Device) : Device := l.foldl (fun d a => f a d) d

def Device.when (d : Device) (b : Bool) (f : Device → Device) : Device := if b then f d else d

/-! ### Memory: 20-bit byte addresses (R527), canonical lists -/

/-- The canonical form: addresses strictly rising, no listed byte 0. -/
def Memory.wf : Memory → Bool
  | [] => true
  | [(_, v)] => v != 0
  | (a, v) :: (b, w) :: t => v != 0 && (decide (a < b) && Memory.wf ((b, w) :: t))

/-- Byte at an address; an unlisted byte reads 0. -/
def mget : Memory → Nat → Byte
  | [], _ => 0
  | (b, v) :: t, a => if a = b then v else mget t a

/-- Write of one byte. -/
def mset : Memory → Nat → Byte → Memory
  | [], a, v => if v = 0 then [] else [(a, v)]
  | (b, w) :: t, a, v =>
    if a < b then (if v = 0 then (b, w) :: t else (a, v) :: (b, w) :: t)
    else if a = b then (if v = 0 then t else (a, v) :: t)
    else (b, w) :: mset t a v

/-- Write of consecutive bytes from an address. -/
def msets : Memory → Nat → List Byte → Memory
  | m, _, [] => m
  | m, a, b :: bs => msets (mset m a b) (a + 1) bs

/-- n bytes from an address of a memory without entries below it. -/
def mrun : Nat → Nat → Memory → List Byte
  | 0, _, _ => []
  | n + 1, a, [] => 0 :: mrun n (a + 1) []
  | n + 1, a, (b, v) :: t => if b = a then v :: mrun n (a + 1) t else 0 :: mrun n (a + 1) ((b, v) :: t)

/-- n bytes from an address, in one pass. -/
def mdump (m : Memory) (a n : Nat) : List Byte := mrun n a (m.filter fun p => decide (a ≤ p.1))

/-- n consecutive bytes from an address. -/
def mgets (m : Memory) (a n : Nat) : List Byte := (List.range n).map fun i => mget m (a + i)

/-- Little-endian word, halfword and doubleword at an address (R2). -/
def mword (m : Memory) (a : Nat) : Nat := leNat (mgets m a 4)
def mhalf (m : Memory) (a : Nat) : Nat := leNat (mgets m a 2)
def msetw (m : Memory) (a w : Nat) : Memory := msets m a (leBytes 4 w)

/-- The bytes of [lo, hi), moved so that lo comes to dst. -/
def mslice (m : Memory) (lo hi dst : Nat) : Memory :=
  (m.filter fun p => decide (lo ≤ p.1) && decide (p.1 < hi)).map fun p => (p.1 - lo + dst, p.2)

/-- The memory with its bytes of [lo, hi) replaced by those of a canonical segment lying in [lo, hi). -/
def mreplace (m : Memory) (lo hi : Nat) (seg : Memory) : Memory :=
  m.filter (fun p => decide (p.1 < lo)) ++ seg ++ m.filter (fun p => decide (hi ≤ p.1))

/-- A list of bytes as a memory from an address. -/
def mofList : Nat → List Byte → Memory
  | _, [] => []
  | a, b :: bs => if b = 0 then mofList (a + 1) bs else (a, b) :: mofList (a + 1) bs

/-! ### Time -/

/-- Sub-ticks of 2.5 ns in the units the manual uses. -/
def tick : Nat := 40
def us : Nat := 400
def ms : Nat := 400000
def sec : Nat := 400000000

/-- A quadrant's copy of caravan time after n sub-ticks: it counts while the quadrant's clock runs (R127). -/
def qpass (d : Device) (n : Nat) : Vector Nat 4 :=
  Vector.ofFn fun q => if bitOf d.isl.clkRun.toNat q.1 then d.clk.qtime[q] + n else d.clk.qtime[q]

/-- n sub-ticks pass (R124: one tick is 100 ns; R8: 40 sub-ticks). -/
def pass (n : Nat) (d : Device) : Device :=
  { d with clk := { d.clk with up := d.clk.up + n, loc := d.clk.loc + n, qtime := qpass d n } }

/-- Time passes until an instant counted from reset release, unless it has passed. -/
def waitUp (t : Nat) (d : Device) : Device := pass (t - d.clk.up) d

/-- Time passes until an instant of local caravan time, unless it has passed. -/
def waitLoc (t : Nat) (d : Device) : Device := pass (t - d.clk.loc) d

/-- First 1 ms boundary of local time at or after an instant. -/
def msBoundary (t : Nat) : Nat := (t + ms - 1) / ms * ms

/-- The next multiple of a period that has not been taken, from an instant on: that instant itself if it is one. -/
def nextOf (p : Nat) (taken : Option Nat) (t : Nat) : Nat := if t % p = 0 ∧ taken ≠ some t then t else (t / p + 1) * p

/-- The same for local time. -/
def periodAt (p : Nat) (taken : Option Nat) (d : Device) : Nat := nextOf p taken d.clk.loc

/-- A periodic command has taken an instant. -/
def periodTaken (j : Fin 8) (t : Nat) (d : Device) : Device := { d with clk := { d.clk with taken := upd d.clk.taken j fun _ => some t } }

/-- Time moves to the next multiple of a period of the device's clock that periodic command j has not taken (log entry 2). -/
def nextMultiple (j : Fin 8) (p : Nat) (d : Device) : Device := periodTaken j (nextOf p d.clk.taken[j] d.clk.up) (waitUp (nextOf p d.clk.taken[j] d.clk.up) d)

/-- The same for local time. -/
def nextLocal (j : Fin 8) (p : Nat) (d : Device) : Device := periodTaken j (periodAt p d.clk.taken[j] d) (waitLoc (periodAt p d.clk.taken[j] d) d)

def Device.up (d : Device) : Nat := d.clk.up
def Device.loc (d : Device) : Nat := d.clk.loc
/-- Local caravan time in ticks. -/
def Device.ticks (d : Device) : Nat := d.clk.loc / tick

/-! ### Free values -/

/-- A free Boolean is drawn (log entry 6). -/
def drawBool (k : Bool → Device → Device) (d : Device) : Device := k (Config.freeBool d.free) { d with free := d.free + 1 }

/-! ### Arbiters (R27 to R33) -/

/-- Rank of requester idx of arbiter instance i (01, table of the common arbiter; instances of R85). -/
def arbRank (i idx : Nat) : Nat :=
  if i < 8 then 0
  else if i < 96 then
    if idx = 0 then 0 else if idx = 1 then 1 else if idx ≤ 6 then 2 else if idx ≤ 8 then 3 else 4
  else if i = 96 then
    if idx ≤ 1 then 0 else if idx = 2 then 1 else if idx = 3 then 2 else if idx ≤ 8 then 3 else if idx = 9 then 4 else 5
  else if i = 97 then idx
  else if idx = 0 then 0 else 1

/-- A request is raised at age 0, unless that requester is already pending. -/
def arbRequest (i : Fin 99) (idx : Nat) (d : Device) : Device :=
  d.updArb i fun a => if a.pending.any (·.1 = idx) then a else { a with pending := a.pending ++ [(idx, 0)] }

/-- Highest age that a pending request has held since the last read of the status word (R33). -/
def ageHeld (a : Arbiter) : Nat := a.pending.foldl (fun x r => max x r.2) a.maxAge.toNat

/-- A withdrawn request loses its age; the status word keeps it (R33). -/
def arbWithdraw (i : Fin 99) (idx : Nat) (d : Device) : Device :=
  d.updArb i fun a => { a with maxAge := BitVec.ofNat 6 (ageHeld a), pending := a.pending.filter (·.1 ≠ idx) }

/-- A grant unit ends. -/
def arbRelease (i : Fin 99) (idx : Nat) (d : Device) : Device :=
  d.updArb i fun a => { a with granted := a.granted.erase idx }

/-- Age limit in use (R31, R32). -/
def ageLimit (d : Device) (i : Nat) : Nat :=
  if d.loader.built then orDefault (bitsOf (mword d.memory.conf (0x100 + 4 * i)) 0 4) 8 else 8

/-- The better of two requests at equal urgency: highest age, ties to the lowest index. -/
def olderOf (a b : Nat × Nat) : Nat × Nat := if b.2 > a.2 ∨ (b.2 = a.2 ∧ b.1 < a.1) then b else a

/-- The better of two requests by rank, ties to the lowest index. -/
def rankedOf (i : Nat) (a b : Nat × Nat) : Nat × Nat :=
  if arbRank i b.1 < arbRank i a.1 ∨ (arbRank i b.1 = arbRank i a.1 ∧ b.1 < a.1) then b else a

/-- Winner of R27 and whether it was urgent. -/
def arbWinner (i limit : Nat) (p : List (Nat × Nat)) : Option (Nat × Bool) :=
  match p.filter fun r => decide (limit ≤ r.2) with
  | u :: us => some ((us.foldl olderOf u).1, true)
  | [] =>
    match p with
    | [] => none
    | r :: rs => some ((rs.foldl (rankedOf i) r).1, false)

/-- One decision of R27, made when a unit is free (R29). -/
def arbDecide (limit units i : Nat) (a : Arbiter) : Arbiter :=
  if a.granted.length < units then
    match arbWinner i limit a.pending with
    | none => a
    | some (w, u) =>
      let rest := (a.pending.filter (·.1 ≠ w)).map fun r => (r.1, min (r.2 + 1) 63)
      { pending := rest
        granted := a.granted ++ [w]
        urgent := if u then satInc a.urgent else a.urgent
        maxAge := BitVec.ofNat 6 (rest.foldl (fun x r => max x r.2) (ageHeld a)) }
  else a

/-- Memory write port and boot port (R85). -/
def wport : Fin 99 := 96
def bport : Fin 99 := 97
def sport : Fin 99 := 98

/-! ### Crossings (R19, R20) -/

/-- Number of a crossing channel: 0 to 3 to the quadrants, 4 to 7 from them, 8 + 4a + b between them. -/
def xIndex : Crossing → Fin 24
  | .toQd q => ⟨q.1, by omega⟩
  | .toHk q => ⟨4 + q.1, by omega⟩
  | .between a b => ⟨8 + 4 * a.1 + b.1, by omega⟩

/-- A message joins its channel, in order (R20). -/
def send (x : Crossing) (m : Msg) (d : Device) : Device :=
  d.updIsl fun i => { i with fifo := upd i.fifo (xIndex x) (· ++ [m]) }

/-- The messages of a channel up to and including the first of a kind, and those behind it. -/
def splitMsg (p : Msg → Bool) : List Msg → Option (List Msg × List Msg)
  | [] => none
  | m :: ms => if p m then some ([m], ms) else (splitMsg p ms).map fun r => (m :: r.1, r.2)

/-- The messages that a channel holds. -/
def fifoOf (d : Device) (x : Crossing) : List Msg := d.isl.fifo[xIndex x]

/-- A channel to a quadrant holds messages, or its request is not acknowledged: what housekeeping sends now waits behind them (R20, R26). -/
def toWaits (d : Device) (q : Quad) : Bool := d.isl.stalled[xIndex (.toQd q)] || !(fifoOf d (.toQd q)).isEmpty

/-- A message whose arrival in housekeeping can be told from the outside: an acknowledgement has no effect there, and loss sums only enter the next frame's
models. -/
def tells : Msg → Bool
  | .ack _ => false
  | .losses _ => false
  | _ => true

/-- The same for what a quadrant sends to housekeeping. -/
def hkWaits (d : Device) (q : Quad) : Bool := d.isl.stalled[xIndex (.toHk q)] || (fifoOf d (.toHk q)).any tells

/-- Housekeeping sends a quadrant a message: it acts at once, within the latency of R19, unless it has to wait in its channel (R20, R26). -/
def toQuad (q : Quad) (m : Msg) (f : Device → Device) (d : Device) : Device := if toWaits d q then send (.toQd q) m d else f d

/-- The same for a message of a quadrant to housekeeping. -/
def toHouse (q : Quad) (m : Msg) (f : Device → Device) (d : Device) : Device := if hkWaits d q then send (.toHk q) m d else f d

/-- A channel holds these messages; its request is acknowledged (R26). -/
def setFifo (x : Crossing) (l : List Msg) (d : Device) : Device :=
  d.updIsl fun i => { i with fifo := upd i.fifo (xIndex x) fun _ => l, stalled := upd i.stalled (xIndex x) fun _ => false }

/-! ### Launches (R21, R24, R129) -/

/-- Launch requests of an island, in the order of R24 for one instant. -/
def launchInsert (l : Launch) : List Launch → List Launch
  | [] => [l]
  | k :: ks => if l.time < k.time ∨ (l.time = k.time ∧ l.act.order < k.act.order) then l :: k :: ks else k :: launchInsert l ks

/-- A request is held for time compare; an island holds at most 32 (R129). -/
def launchAdd (i : Island) (l : Launch) (d : Device) : Device :=
  d.updIsl fun x => { x with launches := upd x.launches i fun ls => if ls.length < 32 then launchInsert l ls else ls }

/-- The island of a quadrant. -/
def quadIsland (q : Quad) : Island := ⟨q.1, by omega⟩

/-- Islands in which an action is launched (R21): a carrier reset in the quadrants of its region, a rest in the quadrant of its channel, conversion
starts in the quadrants, everything else in all five. -/
def launchIslands : LaunchAct → List Island
  | .carrierReset (.channel c) => [quadIsland (Chan.quad c)]
  | .carrierReset (.quadrant q) => [quadIsland q]
  | .restStart c => [quadIsland (Chan.quad c)]
  | _ => List.finRange 5

/-- A launch request to an island: a quadrant's crosses to it, behind what was sent before (R19, R20). -/
def launchSend (l : Launch) (i : Island) (d : Device) : Device := if h : i.1 < 4 then send (.toQd ⟨i.1, h⟩) (.launch l) d else launchAdd i l d

/-- The device issues a launch request to every island concerned (R21). -/
def launchAll (act : LaunchAct) (t : Nat) (d : Device) : Device := forEach (launchIslands act) (launchSend ⟨act, t⟩) d

/-- A launch of an action for an instant up to t is under way to a quadrant. -/
def launchSent (act : LaunchAct) (t : Nat) (d : Device) (q : Quad) : Bool :=
  (fifoOf d (.toQd q)).any fun m => match m with | .launch l => decide (l.act = act ∧ l.time ≤ t) | _ => false

/-- `HALT_FLAGS` in the records of a quadrant: a late halt launch there, or in housekeeping, makes them unaligned (R25, R160). -/
def haltFlagsIn (d : Device) (q : Quad) : BitVec 8 := if d.halt.lateCur[q.1] || d.halt.lateCur[4] then d.halt.flags ||| 1 else d.halt.flags

/-- A launch issued now: 1 us ahead (R22). -/
def launchSoon (act : LaunchAct) (d : Device) : Device := launchAll act (d.clk.loc + us) d

/-! ### Log queue (R435 to R437) -/

/-- The 32 bytes of a record; EV_SEQ is set when it is written. -/
def logBytes (kind sev id : Nat) (w0 w1 w2 : Nat) (d : Device) : List Byte :=
  leBytes 4 0 ++ leBytes 1 kind ++ leBytes 1 sev ++ leBytes 2 id ++ leBytes 8 d.ticks ++ leBytes 4 d.halt.last.toNat ++
    leBytes 4 w0 ++ leBytes 4 w1 ++ leBytes 4 w2

/-- Kind and identity in a record's bytes (R435). -/
def logKindId (r : List Byte) : Nat × Nat := ((r.getD 4 0).toNat, (r.getD 6 0).toNat + 256 * (r.getD 7 0).toNat)

/-- A raise record is queued before the raise records of its own collector cycle, the last n of the queue, that have a larger FSRC (R423). -/
def putRaise (n id : Nat) (r : List Byte) (q : List (List Byte)) : List (List Byte) :=
  let own := q.drop (q.length - n)
  let k := own.findIdx fun x => decide ((logKindId x).1 = 1 ∧ id < (logKindId x).2)
  q.take (q.length - n) ++ own.take k ++ r :: own.drop k

/-- Records queued in the present collector cycle of 5 ns, two sub-ticks of uptime (log entry 149). -/
def cycleCount (d : Device) : Nat := if d.col.logCyc.1 = d.clk.up / 2 then d.col.logCyc.2 else 0

/-- A record of a kind and identity joins the queue of 32, or is dropped and counted (R437). -/
def logQueue (kind id : Nat) (r : List Byte) (d : Device) : Device :=
  if d.col.logQ.length < 32 then
    arbRequest wport 2 (d.updCol fun c => { c with
      logQ := if kind = 1 then putRaise (cycleCount d) id r c.logQ else c.logQ ++ [r]
      logCyc := (d.clk.up / 2, cycleCount d + 1) })
  else d.updCol fun c => { c with logLost := satInc c.logLost }

/-- A record of this instant joins the queue. -/
def logPush (kind sev id w0 w1 w2 : Nat) (d : Device) : Device := logQueue kind id (logBytes kind sev id w0 w1 w2 d) d

/-- An event record (kind 0x8). -/
def logEvent (code w0 w1 w2 : Nat) (d : Device) : Device := logPush 0x8 0 code w0 w1 w2 d

/-- An event record of an event in a quadrant, which crosses to housekeeping (R19). -/
def quadEvent (q : Quad) (code w0 w1 w2 : Nat) (d : Device) : Device :=
  toHouse q (.event code (logBytes 0x8 0 code w0 w1 w2 d)) (logEvent code w0 w1 w2) d

/-! ### Late launches (R25) -/

/-- An island's copy of local time, in sub-ticks (R127). -/
def islTime (d : Device) (i : Island) : Nat := if h : i.1 < 4 then d.clk.qtime[i.1] else d.clk.loc

/-- Halt transitions (R24, R25). -/
def isHaltMove : LaunchAct → Bool
  | .quietStart => true
  | .quietEnd => true
  | _ => false

/-- A launch is late in an island: `LAUNCH_LATE` and event 0x0301; a late halt transition makes the island's records of that halt unaligned (R25). -/
def launchLate (i : Island) (l : Launch) (d : Device) : Device :=
  let ev (f : Nat → Nat → Nat → Nat → Device → Device) (d : Device) : Device := f 0x0301 i.1 (l.time / tick % 2 ^ 32) (l.time / tick / 2 ^ 32) d
  let d := ev (if h : i.1 < 4 then quadEvent ⟨i.1, h⟩ else logEvent) (d.updIsl fun x => { x with late := upd x.late i fun _ => true })
  if isHaltMove l.act then
    d.updHalt fun h =>
      if h.phase = .quiet ∨ h.phase = .rampUp then { h with lateCur := upd h.lateCur i fun _ => true } else { h with lateNext := upd h.lateNext i fun _ => true }
  else d

end Sys2Proof.Machine
end

