-- ==== Sys2Proof/Machine/Fields.lean ====
section
/-! DEFINITION. Sys2Proof/Machine/Fields.lean: the configuration fields of the image as the islands hold them (R62, R84), zero encodings already
replaced by their defaults, quantities in V, A, W, K and s. Each definition names the word of its field. -/

namespace Sys2Proof.Machine

/-- A field of the configuration map in force. -/
def Device.cf (d : Device) (a lo w : Nat) : Nat := bitsOf (mword d.memory.conf a) lo w

/-! ### DEVICE (R85, R87, R424) -/
def qdEnable (d : Device) (q : Quad) : Bool := bitOf (mword d.memory.conf 0x004) q.1
def chEnable (d : Device) (c : Chan) : Bool := bitOf (mword d.memory.conf 0x008) c.1
def frQuiet (d : Device) (k : Nat) : Nat := orDefault (d.cf (0x400 + 8 * k) 0 16) 100 * (100 * ms)
def frWin (d : Device) (k : Nat) : Nat := orDefault (d.cf (0x400 + 8 * k) 16 16) 60 * (60 * sec)
def frMax (d : Device) (k : Nat) : Nat := orDefault (d.cf (0x404 + 8 * k) 0 8) 5

/-! ### QUADRANT (R206) -/
def qtReload (d : Device) (q : Quad) : Nat := max 200 (d.cf (0x2000 + 1024 * q.1) 0 16)
/-- A slot designated spare. -/
def isSpareSlot (d : Device) (n : Slot) : Bool :=
  let b := 0x2000 + 1024 * (Slot.quad n).1
  let i := n.1 % 34
  if i < 32 then bitOf (mword d.memory.conf (b + 4)) i else bitOf (mword d.memory.conf (b + 8)) (i - 32)

/-! ### CHANNEL, phase-engine block (R207) -/
def chb (c : Chan) : Nat := 0x4000 + 512 * c.1
def cmReload (d : Device) (c : Chan) : Nat := d.cf (chb c + 0x40) 0 16
def rldImm (d : Device) (c : Chan) : Bool := d.cf (chb c + 0x40) 16 1 = 1
def cmSync (d : Device) (c : Chan) : Bool := d.cf (chb c + 0x40) 17 1 = 1
def cmStart (d : Device) (c : Chan) : Nat := d.cf (chb c + 0x44) 0 20
/-- `DMAX` between 64 and 1,000 and `BLANK` at least 8 (R176). -/
def dmax (d : Device) (c : Chan) : Nat := min 1000 (max 64 (d.cf (chb c + 0x48) 0 10))
def blank (d : Device) (c : Chan) : Nat := max 8 (d.cf (chb c + 0x48) 10 10)
def deEn (d : Device) (c : Chan) : Bool := d.cf (chb c + 0x48) 20 1 = 1
/-- Slope compensation in A/us. -/
def slopeA (d : Device) (c : Chan) : Qty := (d.cf (chb c + 0x4C) 0 16 : Qty) / 256
def phCap (d : Device) (c : Chan) : Qty := (d.cf (chb c + 0x50) 0 16 : Qty) / 32
def zcLevel (d : Device) (c : Chan) : Qty := (signedOf (d.cf (chb c + 0x50) 16 16) 16 : Qty) / 32
def vfoldPm (d : Device) (c : Chan) : Nat := orDefault (d.cf (chb c + 0x54) 0 10) 200
def ffDiv (d : Device) (c : Chan) : Nat := d.cf (chb c + 0x54) 10 2

/-! ### CHANNEL, regulation block (R239) -/
def isBoost (d : Device) (c : Chan) : Bool := d.cf (chb c) 0 1 = 1
def profSel (d : Device) (c : Chan) : Nat := d.cf (chb c) 1 3
def vTargetCfg (d : Device) (c : Chan) : Qty := (d.cf (chb c + 0x04) 0 24 : Qty) / 1000
def vCeil (d : Device) (c : Chan) : Qty := (d.cf (chb c + 0x08) 0 24 : Qty) / 1000
def kpv (d : Device) (c : Chan) : Qty := (d.cf (chb c + 0x0C) 0 16 : Qty) / 256
def kiv (d : Device) (c : Chan) : Qty := (d.cf (chb c + 0x0C) 16 16 : Qty) / 16
def kpi (d : Device) (c : Chan) : Qty := (d.cf (chb c + 0x10) 0 16 : Qty) / 4096
def kii (d : Device) (c : Chan) : Qty := (d.cf (chb c + 0x10) 16 16 : Qty) / 4
def piClamp (d : Device) (c : Chan) : Qty := (d.cf (chb c + 0x14) 0 16 : Qty) / 32
def spHold (d : Device) (c : Chan) : Nat := orDefault (d.cf (chb c + 0x14) 16 8) 20
/-- Soft-start and soft-stop steps per loop step, in A (R226, R227). -/
def ssStep (d : Device) (c : Chan) : Qty := (orDefault (d.cf (chb c + 0x18) 0 16) 16 : Qty) / 16 * (512 / 10000)
def spStep (d : Device) (c : Chan) : Qty := (orDefault (d.cf (chb c + 0x1C) 0 16) 16 : Qty) / 16 * (512 / 10000)
def ssTmo (d : Device) (c : Chan) : Nat := orDefault (d.cf (chb c + 0x18) 16 16) 2000 * ms
def irevCode (d : Device) (c : Chan) : Nat := d.cf (chb c + 0x20) 10 10
/-- `ILIM_CODE` above `IREV_CODE` (R225). -/
def ilimCode (d : Device) (c : Chan) : Nat :=
  let l := d.cf (chb c + 0x20) 0 10
  if l ≤ irevCode d c + 2 then irevCode d c + 3 else l
def capAvg (d : Device) (c : Chan) : Qty := (orDefault (d.cf (chb c + 0x24) 0 10) 768 : Qty) / 1024
def headroomH (d : Device) (c : Chan) : Qty := (min 100 (orDefault (d.cf (chb c + 0x24) 10 10) 20) : Qty) / 1000

/-! ### PHASE (R208) -/
def phb (n : Slot) : Nat := 0xC000 + 128 * n.1
def phChan (d : Device) (n : Slot) : Nat := mword d.memory.conf (phb n)
def phOfs (d : Device) (n : Slot) : Nat := d.cf (phb n + 4) 0 16
def phOfsOvr (d : Device) (n : Slot) : Bool := d.cf (phb n + 4) 16 1 = 1
def csPol (d : Device) (n : Slot) : Bool := d.cf (phb n + 4) 17 1 = 1
def dtA (d : Device) (n : Slot) : Nat := max 16 (d.cf (phb n + 8) 0 12)
def dtB (d : Device) (n : Slot) : Nat := max 16 (d.cf (phb n + 8) 12 12)
def csZero (d : Device) (n : Slot) : Nat := d.cf (phb n + 12) 0 14
def csGain (d : Device) (n : Slot) : Nat := d.cf (phb n + 16) 0 20

/-! ### SOURCE (R318) -/
def srb (k : Src) : Nat := 0x3000 + 512 * k.1
def sPrio (d : Device) (k : Src) : Nat := d.cf (srb k) 0 2
def vQup (d : Device) (k : Src) : Qty := (d.cf (srb k + 4) 0 16 : Qty) / 16
/-- `V_QLO` below `V_QUP` (R287). -/
def vQlo (d : Device) (k : Src) : Qty :=
  let l := (d.cf (srb k + 4) 16 16 : Qty) / 16
  if l ≥ vQup d k then vQup d k - 1 else l
def tQual (d : Device) (k : Src) : Nat := orDefault (d.cf (srb k + 8) 0 16) 100 * ms
def iLim (d : Device) (k : Src) : Qty := (d.cf (srb k + 12) 0 16 : Qty) / 4
/-- A/us. -/
def gDidt (d : Device) (k : Src) : Qty := (orDefault (d.cf (srb k + 12) 16 16) 256 : Qty) / 256
def sSlope (d : Device) (k : Src) : Qty := (d.cf (srb k + 20) 0 16 : Qty) / 16
def gateV (code : Nat) : Qty := (code : Qty) * 3 / 1024
def sFull (d : Device) (k : Src) : Qty := gateV (d.cf (srb k + 20) 16 10)
def sTest (d : Device) (k : Src) : Qty := gateV (d.cf (srb k + 24) 10 10)
def sTrise (d : Device) (k : Src) : Nat := orDefault (d.cf (srb k + 24) 20 10) 100 * (10 * us)
def sVfwd (d : Device) (k : Src) : Qty := (d.cf (srb k + 28) 0 16 : Qty) / 1000
def sKg (d : Device) (k : Src) : Qty := (orDefault (d.cf (srb k + 28) 16 16) 16 : Qty) / 16

/-! ### PATH (R319) -/
def ptb (c : Chan) : Nat := 0x8000 + 256 * c.1
def curveSel (d : Device) (c : Chan) : Nat := d.cf (ptb c) 0 3
def standby (d : Device) (c : Chan) : Bool := d.cf (ptb c) 3 1 = 1
def brkBoth (d : Device) (c : Chan) : Bool := d.cf (ptb c) 4 1 = 1
def vPres (d : Device) (c : Chan) : Qty := (d.cf (ptb c + 4) 0 16 : Qty) / 16
def tRetry (d : Device) (c : Chan) : Nat := orDefault (d.cf (ptb c + 4) 16 16) 100 * (100 * ms)
def pgSlope (d : Device) (c : Chan) : Qty := (d.cf (ptb c + 8) 0 16 : Qty) / 16
def pgFull (d : Device) (c : Chan) : Qty := gateV (d.cf (ptb c + 8) 16 10)
def pgTest (d : Device) (c : Chan) : Qty := gateV (d.cf (ptb c + 12) 10 10)
def tRise (d : Device) (c : Chan) : Nat := orDefault (d.cf (ptb c + 12) 20 10) 100 * (10 * us)
def vFwd (d : Device) (c : Chan) : Qty := (d.cf (ptb c + 16) 0 16 : Qty) / 1000
def pKg (d : Device) (c : Chan) : Qty := (orDefault (d.cf (ptb c + 16) 16 16) 16 : Qty) / 16
def iPrev (d : Device) (c : Chan) : Qty := (orDefault (d.cf (ptb c + 20) 0 16) 16 : Qty) / 16
def iStuck (d : Device) (c : Chan) : Qty := (orDefault (d.cf (ptb c + 20) 16 16) 32 : Qty) / 16
def vRise (d : Device) (c : Chan) : Qty := (orDefault (d.cf (ptb c + 24) 0 16) 160 : Qty) / 16
def vOvw (d : Device) (c : Chan) : Qty :=
  let w := d.cf (ptb c + 24) 16 16
  if w = 0 then 105 / 100 * vCeil d c else (w : Qty) / 16

/-! ### CURVE and power path (R320, R321) -/
def cvb (k : Nat) : Nat := 0xA000 + 256 * k
def cvN (d : Device) (k : Nat) : Nat := d.cf (cvb k) 0 4
def tauCool (d : Device) (k : Nat) : Qty := (orDefault (d.cf (cvb k) 16 16) 60 : Qty)
def iInst (d : Device) (k : Nat) : Qty := (d.cf (cvb k + 4) 0 16 : Qty) / 4
/-- Points (A, s) of a curve. -/
def cvPoints (d : Device) (k : Nat) : List (Qty × Qty) :=
  (List.range (cvN d k)).map fun j =>
    ((d.cf (cvb k + 0x10 + 8 * j) 0 16 : Qty) / 4, (mword d.memory.conf (cvb k + 0x14 + 8 * j) : Qty) / 1000000)
def vSysLoss (d : Device) : Qty := (d.cf 0xA0C0 0 16 : Qty) / 16
def sysRes (d : Device) : Qty := (d.cf 0xA0C0 16 16 : Qty) / 4
def etaChg (d : Device) : Qty := (orDefault (d.cf 0xA0C4 0 10) 993 : Qty) / 1024
def halveHold (d : Device) : Nat := orDefault (d.cf 0xA0C4 10 10) 10 * (100 * us)
def prioStep (d : Device) : Qty := (orDefault (d.cf 0xA0C4 20 12) 200 : Qty) / 100

/-! ### MODULATOR, SEQUENCER, RING, FAULT, CALIB (R329, R344, R345, R354, R366, R416) -/
def mdb (m : Pm) : Nat := 0x11000 + 64 * m.1
def pmRole (d : Device) (m : Pm) : Nat := d.cf (mdb m) 0 4
def pmObj (d : Device) (m : Pm) : Nat := d.cf (mdb m) 4 3
def pmPair (d : Device) (m : Pm) : Nat := d.cf (mdb m) 8 5
def pmSnapIn (d : Device) (m : Pm) : Nat := d.cf (mdb m) 13 6
def pmFs (d : Device) (m : Pm) : Nat := d.cf (mdb m + 4) 0 16
def sqb (t : Table) : Nat := 0x13000 + 1024 * t.1
def sqWord0 (d : Device) (t : Table) (e : Fin 64) : Nat := mword d.memory.conf (sqb t + 0x100 + 8 * e.1)
def sqWord1 (d : Device) (t : Table) (e : Fin 64) : Nat := mword d.memory.conf (sqb t + 0x104 + 8 * e.1)
def snapOsr (d : Device) : Nat := d.cf 0x14004 0 4
def rgb (n : Ring) : Nat := 0x15000 + 32 * n.1
def rgBind (d : Device) (n : Ring) : Nat := d.cf (rgb n) 0 8
def rgBindEn (d : Device) (n : Ring) : Bool := d.cf (rgb n) 8 1 = 1
def rgDrop (d : Device) (n : Ring) : Bool := d.cf (rgb n) 9 1 = 1
def rgAlert (d : Device) (n : Ring) : Nat := d.cf (rgb n) 10 8
def fltb (i : Fsrc) : Nat := 0x16000 + 4 * i.1
def fsSev (d : Device) (i : Fsrc) : Nat := d.cf (fltb i) 0 3
def fsCap (d : Device) (i : Fsrc) : Nat := d.cf (fltb i) 3 2
def fsProf (d : Device) (i : Fsrc) : Nat := d.cf (fltb i) 5 2
def fsAlert (d : Device) (i : Fsrc) : Bool := d.cf (fltb i) 7 1 = 1
def calb (m : Pm) : Nat := 0x28000 + 32 * m.1
def calOfs (d : Device) (m : Pm) : Int := signedOf (mword d.memory.conf (calb m)) 32
def calGain (d : Device) (m : Pm) : Nat := mword d.memory.conf (calb m + 4)
def calKind (d : Device) (m : Pm) : Nat := d.cf (calb m + 8) 0 2

/-! ### Roles in force (R327, R364) -/

/-- Modulator whose role and pair a modulator carries: its own, or that of the failed one for an acting spare. -/
def roleHome (d : Device) (m : Pm) : Pm := ((d.mods[m]).acting).getD m

/-- A quadrant in use: armed (R114). -/
def quadInUse (d : Device) (q : Quad) : Bool := (d.quads[q]).armed

/-- A spare position (R326). -/
def isSpareMod (m : Pm) : Bool := decide (20 ≤ Pm.pos m)

/-- A modulator is marked bad: one that has been replaced, or a spare that failed while it acts (R460, R461). -/
def markedBad (d : Device) (m : Pm) : Bool := (d.mods[m]).bad || ((d.mods[m]).failed && (d.mods[m]).acting.isSome)

/-- A spare that acts for no role. -/
def idleSpare (d : Device) (m : Pm) : Bool := isSpareMod m && ((d.mods[m]).acting.isNone || (d.mods[m]).bad)

/-- Role in force: an idle spare and a modulator marked bad carry none; a reserved role acts as NONE (R326, R327, R460). -/
def roleEff (d : Device) (m : Pm) : Nat :=
  let r := pmRole d (roleHome d m)
  if (d.mods[m]).bad || idleSpare d m || decide (8 ≤ r) then 0 else r

/-- Position of the pair that a modulator converts at input code 0x00: its own; for an idle spare the pair that the matrix routes to it, for an
acting one that of its role (R13, R326, R330, R460). -/
def pairOf (d : Device) (m : Pm) : Nat :=
  if idleSpare d m then (if pmPair d m < 22 then pmPair d m else Pm.pos m) else Pm.pos (roleHome d m)

/-- Stream roles (R327). -/
def streamRole (d : Device) (m : Pm) : Bool := let r := roleEff d m; r = 1 ∨ r = 2 ∨ r = 3 ∨ r = 4 ∨ r = 5 ∨ r = 7

/-- Channel of a VSTR or ISTR modulator. -/
def roleChan (d : Device) (m : Pm) : Chan := ⟨8 * (Pm.quad m).1 + pmObj d (roleHome d m), by
  have h1 := (Pm.quad m).2
  have h2 : pmObj d (roleHome d m) < 8 := Nat.mod_lt _ (by decide)
  omega⟩

/-- The modulator that carries a role (and channel, for VSTR and ISTR) in a quadrant: an acting spare before a modulator that failed. -/
def modOf (d : Device) (q : Quad) (role : Nat) (obj : Option Nat) : Option Pm :=
  let ms := (quadMods q).filter fun m => decide (roleEff d m = role) && (match obj with | some o => decide (pmObj d (roleHome d m) = o) | none => true)
  match ms.find? fun m => !(d.mods[m]).failed with
  | some m => some m
  | none => ms.head?

def vstrOf (d : Device) (c : Chan) : Option Pm := modOf d (Chan.quad c) 1 (some (c.1 % 8))
def istrOf (d : Device) (c : Chan) : Option Pm := modOf d (Chan.quad c) 2 (some (c.1 % 8))
def vsrcOf (d : Device) (k : Src) : Option Pm := modOf d k 3 none
def isrcOf (d : Device) (k : Src) : Option Pm := modOf d k 4 none
def sysOf (d : Device) (q : Quad) : Option Pm := modOf d q 5 none
def hkswOf (d : Device) (q : Quad) : Option Pm := modOf d q 6 none

/-- A role without a working modulator is covered (R459). -/
def roleLost (d : Device) (m : Option Pm) : Bool := match m with | some m => (d.mods[m]).failed | none => true

/-- Last result word of a role's modulator (R335). -/
def wordOf (d : Device) (m : Option Pm) : Nat := match m with | some m => (d.mods[m]).word.toNat | none => 0

/-- Full scale of a string-current modulator in A (R336). -/
def fsA (d : Device) (m : Pm) : Qty := (pmFs d (roleHome d m) : Qty) / 4

/-- Comparator code of a string or source current I for full scale FS (R336), not clamped. -/
def cmpCode (fs i : Qty) : Int := qRound ((3 / 2 + (1 / 2) * (5 / 2 * i / fs)) * 1024 / 3)

/-- Corrected result in V or A (R336). -/
def codeV (d : Device) (m : Pm) (r : Int) : Qty := (r : Qty) * (pmFs d (roleHome d m) : Qty) / 16 / 8388608
def codeA (d : Device) (m : Pm) (r : Int) : Qty := (r : Qty) * (pmFs d (roleHome d m) : Qty) / 4 / 8388608

/-! ### Slots and members (R182, R446) -/

/-- A slot that another one replaces counts as neither assigned nor spare (R446). -/
def isReplaced (d : Device) (n : Slot) : Bool := allSlots.any fun s => decide ((d.slots[s]).repl = some n)

/-- Channel to which the image assigns the slot: the bit set in `PH_CHAN`. -/
def assignedTo (d : Device) (n : Slot) : Option Chan := allChans.find? fun c => bitOf (phChan d n) c.1

/-- Channel that the slot serves or served: by its assignment or as a substitute. -/
def chanOf (d : Device) (n : Slot) : Option Chan :=
  let s := d.slots[n]
  match s.forCh with
  | some c => some c
  | none => if isReplaced d n then none else assignedTo d n

/-- Member of a channel (R182): assigned or substitute, and not shed. -/
def isMember (d : Device) (c : Chan) (n : Slot) : Bool :=
  decide (chanOf d n = some c) && (d.slots[n]).shedFrom.isNone && (d.chans[c]).armed

/-- Members in ascending slot number. -/
def members (d : Device) (c : Chan) : List Slot := (quadSlots (Chan.quad c)).filter (isMember d c)

/-- Channel of which the slot is a member. -/
def memberOf (d : Device) (n : Slot) : Option Chan :=
  match chanOf d n with
  | some c => if isMember d c n then some c else none
  | none => none

end Sys2Proof.Machine
end

