-- ==== Sys2Proof/Machine/Operands.lean ====
section
/-! DEFINITION. Sys2Proof/Machine/Operands.lean: check codes of byte strings that commands carry (R82, R133, R491). -/

namespace Sys2Proof.Machine

/-- n shifts of a reflected CRC register. -/
def crcShift (poly : Nat) : Nat → Nat → Nat
  | 0, r => r
  | n + 1, r => crcShift poly n (if r % 2 = 1 then (r / 2) ^^^ poly else r / 2)

/-- CRC-32 of IEEE 802.3 (R82). -/
def crc32 (bs : List Byte) : Nat := (bs.foldl (fun r b => crcShift 0xEDB88320 8 (r ^^^ b.toNat)) 0xFFFFFFFF) ^^^ 0xFFFFFFFF

/-- n shifts of a CRC register of w bits, most significant bit first. -/
def crcShiftL (poly w : Nat) : Nat → Nat → Nat
  | 0, r => r
  | n + 1, r => crcShiftL poly w n (if r.testBit (w - 1) then ((2 * r) % 2 ^ w) ^^^ poly else 2 * r)

/-- CRC-8 of SMBus (R491). -/
def crc8 (bs : List Byte) : Nat := bs.foldl (fun r b => crcShiftL 0x07 8 8 (r ^^^ b.toNat)) 0

/-- CRC-16 of the marker line (R132). -/
def crc16 (bs : List Byte) : Nat := bs.foldl (fun r b => crcShiftL 0x1021 16 8 (r ^^^ (256 * b.toNat))) 0xFFFF

/-- A frame as it is sent: header, length, payload, CRC (R132), low byte first (R2). -/
def frameBytes (ty : Nat) (payload : List Byte) : List Byte :=
  let h := leBytes 1 ty ++ leBytes 1 payload.length ++ payload
  h ++ leBytes 2 (crc16 h)

/-- Payload of a received frame of a type and length, and its tail of n bytes, unless R133 discards it. -/
def framePayload (ty len n : Nat) (bs : List Byte) : Option (List Byte × List Byte) :=
  let h := bs.take (2 + len)
  if bs.length = 4 + len + n ∧ leNat (bs.take 1) % 16 = ty ∧ leNat ((bs.drop 1).take 1) = len ∧ leNat ((bs.drop (2 + len)).take 2) = crc16 h then
    some (h.drop 2, bs.drop (4 + len))
  else none

/-- Chips of 100 ns of a bit, a byte and a frame on the marker line (R131): bits least significant first; the start delimiter; at least four low
chips of idle after the frame. -/
def bitChips (b : Bool) : List Bool := [b, !b]
def byteChips (b : Byte) : List Bool := (List.range 8).flatMap fun i => bitChips (b.getLsbD i)
def frameChips (f : List Byte) : List Bool := [true, true, false, false] ++ f.flatMap byteChips ++ [false, false, false, false]

/-- Bits of a run of chips; a code violation has none. -/
def chipBits : List Bool → Option (List Bool)
  | [] => some []
  | [_] => none
  | a :: b :: t => if a = b then none else (chipBits t).map (a :: ·)

/-- n bytes of a run of bits. -/
def bitBytes : Nat → List Bool → List Byte
  | 0, _ => []
  | n + 1, l => BitVec.ofNat 8 ((l.take 8).zipIdx.foldl (fun x p => x + b2n p.1 * 2 ^ p.2) 0) :: bitBytes n (l.drop 8)

/-- The frame of n bytes that a receiver reads from its start delimiter on. -/
def chipFrame (n : Nat) (l : List Bool) : Option (List Byte) :=
  if l.take 4 = [true, true, false, false] then (chipBits ((l.drop 4).take (16 * n))).map (bitBytes n) else none

/-- n bytes of a payload from an offset. -/
def fld (p : List Byte) (off n : Nat) : Nat := leNat ((p.drop off).take n)

end Sys2Proof.Machine
end

