-- ==== Sys2Proof/Machine/Image.lean ====
section
/-! DEFINITION. Sys2Proof/Machine/Image.lean: the Kenmor image (03): header, directory, overlays, composition (R79 to R98), the overlay store
(R528), and the fields that no delta record may write (R97). -/

namespace Sys2Proof.Machine

/-! ### Header and directory (R79 to R83) -/

def hdrId (m : Memory) : Nat := mword m 0
def hdrMajor (m : Memory) : Nat := (mget m 5).toNat
def hdrCount (m : Memory) : Nat := mhalf m 6
def hdrLen (m : Memory) : Nat := mword m 8
def dirEnd (m : Memory) : Nat := 0x40 + 16 * hdrCount m

/-- A directory entry (R81). -/
structure DirEntry where
  type : Nat
  inst : Nat
  offset : Nat
  length : Nat
  crc : Nat
  deriving DecidableEq, Repr

def dirEntry (m : Memory) (i : Nat) : DirEntry :=
  let a := 0x40 + 16 * i
  ⟨(mget m a).toNat, (mget m (a + 1)).toNat, mword m (a + 4), mword m (a + 8), mword m (a + 12)⟩

/-- Entries of the directory, at most 64. -/
def dirList (m : Memory) : List DirEntry := (List.range (min 64 (hdrCount m))).map (dirEntry m)

/-- Area of a section type in the mirror: start and size (R84, R88, R98); none for an unknown type. -/
def areaOf (t : Nat) : Option (Nat × Nat) :=
  match t with
  | 0x01 => some (0x00000, 4096) | 0x02 => some (0x01000, 1024) | 0x03 => some (0x02000, 4096) | 0x04 => some (0x03000, 2048)
  | 0x05 => some (0x04000, 16384) | 0x06 => some (0x08000, 8192) | 0x07 => some (0x0A000, 2048) | 0x08 => some (0x0B000, 4096)
  | 0x09 => some (0x0C000, 17408) | 0x0A => some (0x11000, 5632) | 0x0B => some (0x13000, 5120) | 0x0C => some (0x15000, 1024)
  | 0x0D => some (0x16000, 8192) | 0x0E => some (0x18000, 65536) | 0x0F => some (0x28000, 4096)
  | 0x20 => some (0x2A480, 88960) | 0x21 => some (0x29000, 5248)
  | _ => none

/-- An OVERLAY section that breaks R90. -/
def ovlBad (m : Memory) (e : DirEntry) : Bool :=
  let n := mhalf m (e.offset + 4)
  decide (e.length ≠ 16 + 8 * n) || decide ((mget m e.offset).toNat ≠ e.inst) || decide (15 < (mget m (e.offset + 1)).toNat) || decide (4095 < n)

/-- An entry that breaks a rule of R83 on its own. -/
def entryBad (m : Memory) (e : DirEntry) : Bool :=
  decide (e.offset % 4 ≠ 0) || decide (e.length % 4 ≠ 0) || decide (e.length < 4) || decide (e.offset < dirEnd m) ||
    decide (hdrLen m < e.offset + e.length) ||
    (match areaOf e.type with
     | none => true
     | some (_, size) => decide (size < e.length) || (if e.type = 0x20 then decide (e.inst = 0 ∨ 15 < e.inst) || ovlBad m e else decide (e.inst ≠ 0)))

/-- A rule of R83 on two entries; the later one breaks it. -/
def pairBad (e f : DirEntry) : Bool :=
  (decide (e.offset < f.offset + f.length) && decide (f.offset < e.offset + e.length)) || (decide (e.type = f.type) && (decide (e.type ≠ 0x20) || decide (e.inst = f.inst)))

/-- First entry that breaks a rule, from position i, with the entries before it. -/
def dirScan (m : Memory) : List DirEntry → List DirEntry → Nat → Option Nat
  | _, [], _ => none
  | before, e :: rest, i => if entryBad m e || before.any (pairBad e) then some i else dirScan m (before ++ [e]) rest (i + 1)

/-- Object of reason 0x1B, none for a well-formed directory (R83). -/
def dirFault (m : Memory) : Option Nat := if hdrCount m = 0 ∨ 64 < hdrCount m then some 0 else dirScan m [] (dirList m) 0

/-! ### Base configuration and overlays -/

/-- The mirror with one section in its area (R61, R84). A section that does not fit is cut; the check refuses its image. -/
def placeSection (m : Memory) (b : Memory) (e : DirEntry) : Memory :=
  match areaOf e.type with
  | none => b
  | some (lo, size) =>
    if e.type = 0x20 then b
    else mreplace b lo (lo + size) (mofList lo (mdump m e.offset (min (min e.length size) (hdrLen m - e.offset))))

/-- The base configuration and the lock map (R62, R84, R88). -/
def baseOf (m : Memory) : Memory := (dirList m).foldl (placeSection m) []

/-- The overlay of a directory entry. -/
def ovlOf (m : Memory) (i : Nat) (e : DirEntry) : Ovl :=
  let n := min (mhalf m (e.offset + 4)) 4095
  ⟨i, e.inst, (mget m (e.offset + 1)).toNat, (mget m (e.offset + 2)).toNat, mgets m e.offset 16,
    (List.range n).map fun j => (mword m (e.offset + 16 + 8 * j), mword m (e.offset + 20 + 8 * j))⟩

/-- Every overlay of the image, in directory order. -/
def ovlsOf (m : Memory) : List Ovl :=
  ((dirList m).zipIdx.filter fun p => decide (p.1.type = 0x20)).map fun p => ovlOf m p.2 p.1

def findOvl (l : List Ovl) (k : Nat) : Option Ovl := l.find? fun o => decide (o.idx = k)

/-! ### Delta records (R92, R93, R95) -/

def dAddr (w : Nat) : Nat := bitsOf w 0 20
def dShift (w : Nat) : Nat := bitsOf w 20 5
def dWidth (w : Nat) : Nat := bitsOf w 25 5 + 1
/-- Mask of a delta record on its word. -/
def dMask (w : Nat) : Nat := (2 ^ dWidth w - 1) * 2 ^ dShift w % 2 ^ 32

/-- A word of the configuration map (R84). -/
def assigned (a : Nat) : Bool :=
  decide (a < 0x1400) || decide (0x2000 ≤ a ∧ a < 0x3800) || decide (0x4000 ≤ a ∧ a < 0xA800) || decide (0xB000 ≤ a ∧ a < 0x10400) ||
    decide (0x11000 ≤ a ∧ a < 0x12600) || decide (0x13000 ≤ a ∧ a < 0x14400) || decide (0x15000 ≤ a ∧ a < 0x15400) ||
    decide (0x16000 ≤ a ∧ a < 0x29000)

/-- A malformed delta record (R93). -/
def malformed (r : Nat × Nat) : Bool :=
  decide (dAddr r.1 % 4 ≠ 0) || !assigned (dAddr r.1) || decide (32 < dShift r.1 + dWidth r.1) || decide (2 ^ dWidth r.1 ≤ r.2)

/-- Bits of x outside a mask, bits of y inside. -/
def maskMix (mask x y : Nat) : Nat := (BitVec.ofNat 32 x &&& ~~~(BitVec.ofNat 32 mask) ||| (BitVec.ofNat 32 y &&& BitVec.ofNat 32 mask)).toNat

/-- One record applied (R95). -/
def applyRec (m : Memory) (r : Nat × Nat) : Memory :=
  let a := dAddr r.1
  if malformed r then m else msetw m a (maskMix (dMask r.1) (mword m a) (r.2 * 2 ^ dShift r.1))

/-! ### Chains and composition (R94 to R96) -/

/-- Chain of overlay k from the overlay next to the base outward, at most n of them; a missing or repeated parent ends it. -/
def chainOf (l : List Ovl) : Nat → List Nat → Nat → List Ovl
  | 0, _, _ => []
  | n + 1, seen, k =>
    if k = 0 ∨ k ∈ seen then []
    else match findOvl l k with
      | none => []
      | some o => chainOf l n (k :: seen) o.parent ++ [o]

def chain (l : List Ovl) (k : Nat) : List Ovl := chainOf l 16 [] k

/-- The chain of k is broken: a parent that no section carries, or an overlay visited twice (R94). -/
def chainBad (l : List Ovl) : Nat → List Nat → Nat → Bool
  | 0, _, _ => true
  | n + 1, seen, k =>
    if k = 0 then false
    else if k ∈ seen then true
    else match findOvl l k with
      | none => true
      | some o => chainBad l n (k :: seen) o.parent

/-- Records applied for overlay k, in order. -/
def chainRecs (l : List Ovl) (k : Nat) : List (Nat × Nat) := (chain l k).flatMap (·.recs)

/-- The composed configuration (R95). -/
def composeMem (base : Memory) (l : List Ovl) (k : Nat) : Memory := (chainRecs l k).foldl applyRec base

/-- Undo entries of the active chain, in the order of application: address and previous word (R96). -/
def undoList : Memory → List (Nat × Nat) → List (Nat × Nat)
  | _, [] => []
  | m, r :: rs => if malformed r then undoList m rs else (dAddr r.1, mword m (dAddr r.1)) :: undoList (applyRec m r) rs

/-- Header of an OVERLAY section in the store: reserved bytes and bits are 0 (R3, R90). -/
def ovlHead (o : Ovl) : List Byte :=
  o.head.take 2 ++ leBytes 1 (o.flags % 2) ++ leBytes 1 0 ++ leBytes 2 o.recs.length ++ leBytes 2 0 ++ (o.head.drop 8).take 4 ++ leBytes 4 0

/-- Bytes of an OVERLAY section in the store, with [31:30] of a record's first word at 0 (R3, R92, R528). -/
def ovlBytes (o : Ovl) : List Byte := ovlHead o ++ o.recs.flatMap fun r => leBytes 4 (r.1 % 2 ^ 30) ++ leBytes 4 r.2

/-- The mirror (R527, R528): composed configuration and lock map, the sections upward from 0x2A480, the undo entries downward from 0x3FFF8. -/
def mirrorOf (base : Memory) (l : List Ovl) (k : Nat) : Memory :=
  let m := mreplace (composeMem base l k) 0x2A480 0x40000 []
  let m := msets m 0x2A480 ((l.flatMap ovlBytes).take 88960)
  (undoList base (chainRecs l k)).zipIdx.foldl (fun m p => if 0x2A480 ≤ 0x3FFF8 - 8 * p.2 then msets m (0x3FFF8 - 8 * p.2) (leBytes 4 p.1.1 ++ leBytes 4 p.1.2) else m) m

/-! ### Locked fields (R97) -/

/-- Bits of a word that are LCK (05 to 11, the Access columns of their field maps). -/
def lckMask (a : Nat) : Nat :=
  if 0x2000 ≤ a ∧ a < 0x3000 then
    (match a % 1024 with | 0 => 0xFFFF | 4 => 0xFFFFFFFF | 8 => 0x3 | _ => 0)
  else if 0x3000 ≤ a ∧ a < 0x3800 then
    (match a % 512 with | 0 => 0x3 | 12 => 0xFFFF | 16 => 0xFFFFF | _ => 0)
  else if 0x4000 ≤ a ∧ a < 0x8000 then
    (match a % 512 with | 0 => 0x1 | 8 => 0xFFFFFF | 0x20 => 0xFFFFF | 0x48 => 0xFFFFF | 0x50 => 0xFFFF | 0x54 => 0xFFF | _ => 0)
  else if 0x8000 ≤ a ∧ a < 0xA000 then (if a % 256 = 0 then 0x17 else 0)
  else if 0xC000 ≤ a ∧ a < 0x10400 then
    (match a % 128 with | 0 => 0xFFFFFFFF | 4 => 0x20000 | 8 => 0xFFFFFF | 12 => 0x3FFF | 16 => 0xFFFFF | _ => 0)
  else if 0x11000 ≤ a ∧ a < 0x12600 then
    (match a % 64 with | 0 => 0x1F7F | 4 => 0xFFFF | _ => 0)
  else if 0x16000 ≤ a ∧ a < 0x18000 then 0xFF
  else 0

/-- A word that the lock map locks (R88). -/
def lockedWord (base : Memory) (a : Nat) : Bool := bitOf (mget base (0x29000 + a / 32)).toNat ((a / 4) % 8)

/-- A delta record that writes a locked field (R97). -/
def writesLocked (base : Memory) (r : Nat × Nat) : Bool :=
  let a := dAddr r.1
  decide (a < 0x1400) || decide (0x28000 ≤ a ∧ a < 0x29000) || decide (lckMask (a / 4 * 4) &&& dMask r.1 ≠ 0) || lockedWord base a

end Sys2Proof.Machine
end

