-- ==== Sys2Proof/Machine/Records.lean ====
section
/-! DEFINITION. Sys2Proof/Machine/Records.lean: queues of the ring writers (R367, R368) and the PHASE record of every change of `PF_PHASE` (R377). -/

namespace Sys2Proof.Machine

/-- A record joins its writer's queue of 16, or is dropped and counted for its ring (R368). The writer requests the memory write port as
requester 4 + t (R27). -/
def recPush (t : Table) (r : Ring) (bs : List Byte) (d : Device) : Device :=
  if (d.writers[t]).length < 16 then
    arbRequest wport (4 + t.1) { d with writers := upd d.writers t (· ++ [(r, bs)]) }
  else d.updRing r fun x => { x with lost := satInc x.lost }

/-- Channel to which a ring is bound (R366). -/
def ringBoundTo (d : Device) (r : Ring) : Option Chan :=
  if rgBindEn d r then (let b := rgBind d r; if b < 32 then some (Fin.ofNat 32 b) else none) else some r

/-- Lowest-numbered ring bound to a channel (R367). -/
def ringOf (d : Device) (c : Chan) : Option Ring := (List.finRange 32).find? fun r => decide (ringBoundTo d r = some c)

/-- A channel record goes to the channel's ring, by the writer of its quadrant, or counts in `NOBIND_CNT` (R367). -/
def recordArrives (c : Chan) (bs : List Byte) (d : Device) : Device :=
  match ringOf d c with
  | some r => recPush ⟨(Chan.quad c).1, by have := (Chan.quad c).2; omega⟩ r bs d
  | none => { d with nobind := satInc d.nobind }

/-- A record that a channel writes crosses to housekeeping (R19). -/
def chanRecord (c : Chan) (bs : List Byte) (d : Device) : Device := toHouse (Chan.quad c) (.record c bs) (recordArrives c bs) d

/-- Minutes in the present charge phase (R280). -/
def pfMinutes (d : Device) (c : Chan) : Nat := min 65535 ((d.up - (d.profs[c]).phaseAt) / (60 * sec))

/-- The charge phase changes, with its PHASE record (R377). -/
def setPhase (c : Chan) (ph : Phase) (cause vmV : Nat) (d : Device) : Device :=
  let old := (d.profs[c]).phase
  if old = ph then d
  else
    let bs := leBytes 1 0x4 ++ leBytes 1 c.1 ++ leBytes 1 old.code ++ leBytes 1 ph.code ++ leBytes 8 d.ticks ++ leBytes 1 cause ++
      leBytes 3 0 ++ leBytes 4 vmV ++ leBytes 2 (pfMinutes d c) ++ leBytes 10 0
    chanRecord c bs (d.updProf c fun p => { p with phase := ph, phaseAt := d.up, phaseRun := 0, phaseTick := d.up, timedOut := false })

/-- The charge phase goes to ASSESS (R257). -/
def toAssess (c : Chan) (d : Device) : Device :=
  if (d.profs[c]).phase = .idle then d
  else (setPhase c .assess 5 0 d).updProf c fun p => { p with assessTry := 0 }

end Sys2Proof.Machine
end

