-- ==== Sys2Proof/Machine/Gates.lean ====
section
/-! DEFINITION. Sys2Proof/Machine/Gates.lean: outputs of slots, the channel gate (R178), path and source gates, and what stopping a channel does to its
rest and profile. None of these raises a fault. -/

namespace Sys2Proof.Machine

/-! ### Outputs of a slot -/

/-- A slot of boost topology has PWMB active (R171). -/
def slotBoost (d : Device) (n : Slot) : Bool := match chanOf d n with | some c => isBoost d c | none => false

/-- Dead times of R172 in fine steps: before the active output rises, and before the complementary output rises. -/
def dtX (d : Device) (n : Slot) : Nat := if slotBoost d n then dtB d n else dtA d n
def dtY (d : Device) (n : Slot) : Nat := if slotBoost d n then dtA d n else dtB d n

/-- Comparator state in terms of current (R186). -/
def curCmp (d : Device) (n : Slot) (c : Cmp) : Cmp :=
  if csPol d n then (match c with | .above => .below | .below => .above | .between => .between) else c

/-- Threshold code of a phase current, not clamped (R185). -/
def codeRaw (d : Device) (n : Slot) (i : Qty) : Int :=
  let s : Qty := if csPol d n then -1 else 1
  ((csZero d n : Qty) / 16 + s * i * (csGain d n : Qty) / 16384 + 1 / 2).floor

/-- code(i) of R185. -/
def codeOf (d : Device) (n : Slot) (i : Qty) : Nat := (satInt (codeRaw d n i) 0 1023).toNat

/-- Codes by which a threshold lies beyond another in the direction of rising current (R186). -/
def beyond (d : Device) (n : Slot) (a b : Int) : Int := if csPol d n then b - a else a - b

/-- Drive of the active output. The outputs of a slot are never high together (R14). -/
def setX (n : Slot) (v : Bool) (d : Device) : Device :=
  let b := slotBoost d n
  d.updSlot n fun s => { s with pinA := (!b && v), pinB := b && v }

/-- Drive of the complementary output. -/
def setY (n : Slot) (v : Bool) (d : Device) : Device :=
  let b := slotBoost d n
  d.updSlot n fun s => { s with pinA := b && v, pinB := !b && v }

/-- Position of an edge placed at this counter tick, in fine steps of the cycle, with the phase's fine offset (R164, R169, R174). -/
def posFine (d : Device) (n : Slot) : Nat :=
  let s := d.slots[n]
  16 * (d.up + 2 * s.m - s.due) + s.ofs

/-- Instant of a cycle position, in fine steps since reset release: a fine part of 16 or more is carried into the count (R169). -/
def edgeAt (s : SlotSt) (pos : Nat) : Nat := 16 * s.due + pos - 32 * s.m

/-- The active output turns off: position, upper threshold code and cause are captured (R174, R196). A turn-on that still waits for its dead
time is dropped. -/
def xOff (n : Slot) (cend : BitVec 2) (pos : Nat) (d : Device) : Device :=
  if (d.slots[n]).xOn then
    setX n false (d.updSlot n fun s => { s with
      xOn := false, xOffAt := edgeAt s pos
      cur := { s.cur with toff := BitVec.ofNat 20 pos, cend := cend, ucode := BitVec.ofNat 10 (qFloor s.upper).toNat } })
  else d.updSlot n fun s => { s with xWait := false }

/-- The complementary output turns off for the rest of the cycle, its edge at a fine instant. -/
def yOff (n : Slot) (edge : Nat) (d : Device) : Device :=
  if (d.slots[n]).yOn then setY n false (d.updSlot n fun s => { s with yOn := false, yDone := s.yLate.isNone, yOffAt := edge, yLate := none })
  else d.updSlot n fun s => { s with yDone := true }

/-- Both outputs low at once; an on-time ends as forced (R15, R183). -/
def slotOff (n : Slot) (d : Device) : Device :=
  (yOff n (16 * d.up) (xOff n 2 (posFine d n) d)).updSlot n fun s => { s with pinA := false, pinB := false, yDone := true }

/-- A slot becomes idle: its carrier stops, its outputs are low (R206). -/
def slotStop (n : Slot) (d : Device) : Device := (slotOff n d).updSlot n fun s => { s with running := false, inCycle := false, yLate := none }

/-! ### The channel gate (R178) -/

/-- Fast halving is in force for a channel: from the trigger to the loop step after its release (R223, R296). -/
def halvedIn (d : Device) (c : Chan) : Bool := (d.quads[Chan.quad c]).halved || (d.chans[c]).halve

/-- A pulsed channel that takes no pulse before it holds a slot (R274). -/
def awaitsSlot (d : Device) (c : Chan) : Bool :=
  (d.profs[c]).waitSlot && (match (d.profs[c]).phase with | .recover => true | .bulk => true | .absorb => true | .finish => true | _ => false)

/-- The gate is open while the channel switches and nothing of R178, R232 and R274 closes it. -/
def gateWanted (d : Device) (c : Chan) : Bool :=
  let s := d.chans[c]
  s.st.switching && !(d.profs[c]).inRest && !awaitsSlot d c && decide (d.halt.phase ≠ .quiet) && !s.headroom && (d.paths[c]).collapseAt.isNone &&
    !(halvedIn d c && decide (s.icmd = 0)) && decide (d.start.st = .run)

/-- What a closing gate does to a member (R178): X off at once, and Y with it where the current is already below the lower threshold past Y's
blanking. -/
def slotGateOff (n : Slot) (d : Device) : Device :=
  let d := xOff n 2 (posFine d n) d
  let s := d.slots[n]
  if s.yOn ∧ s.yBlanked ∧ curCmp d n s.cmp = .below then yOff n (16 * d.up) d else d

/-- The gate takes its wanted level. Closing acts on every member (R178), puts c_inst in force (R285) and brings the charge
current to zero (R258). -/
def regate (c : Chan) (d : Device) : Device :=
  let w := gateWanted d c
  if w = (d.chans[c]).gate then d
  else
    let d := (d.updChan c fun s => { s with gate := w, chBelow := false }).updPath c fun p => { p with instCode := !w }
    let d := d.updProf c fun p => { p with carried := true, zeroAt := if w then none else some d.up }
    if w then d else forEach (members d c) slotGateOff d

/-- A rest in progress is abandoned (R252): no estimate, phase unchanged. -/
def abandonRest (c : Chan) (d : Device) : Device :=
  d.updProf c fun p => { p with inRest := false, samples := [] }

/-- A pause (R263). -/
def pauseProf (c : Chan) (d : Device) : Device :=
  d.updProf c fun p => if p.phase = .idle then p else { p with paused := true }

/-- A channel leaves its state. Leaving REGULATE abandons a rest, and the pulse factor returns to 1. -/
def enterCh (c : Chan) (st : ChState) (d : Device) : Device :=
  let d := if (d.chans[c]).st = .regulate ∧ st ≠ .regulate then
      (abandonRest c d).updChan c fun s => { s with hp := if (d.profs[c]).waitSlot then 0 else 1, hpDownAt := none, hpUpAt := none }
    else d
  let runs := decide ((d.chans[c]).st = .start ∨ (d.chans[c]).st = .regulate)
  let d := d.updProf c fun p => { p with phaseRun := if runs then p.phaseRun + (d.up - p.phaseTick) else p.phaseRun, phaseTick := d.up }
  regate c (d.updChan c fun s => { s with st := st })

/-- A fault reaction holds a channel (R232): gate closed at once, profile paused. -/
def holdChan (f : Nat) (c : Chan) (d : Device) : Device :=
  if (d.chans[c]).armed then
    let d := d.updChan c fun s => { s with holders := if f ∈ s.holders then s.holders else s.holders ++ [f] }
    if (d.chans[c]).st = .held ∨ (d.chans[c]).st = .unarmed then d
    else pauseProf c (enterCh c .held (d.updChan c fun s => { s with stopCause := 3 }))
  else d

/-- A host stop, a fault or absence keeps the channel from charging (R263). -/
def keptPaused (d : Device) (c : Chan) : Bool :=
  let s := d.chans[c]
  s.hostStopQ || decide (s.st = .held ∨ s.st = .absent)

/-- A restart request arises (R233): in STOP it sets `ENABLE_PENDING` (R234); the charge phase goes to ASSESS (R257). It ends a pause unless a host stop,
a fault or absence still keeps the channel (R263). -/
def restartReq (c : Chan) (d : Device) : Device :=
  (toAssess c (d.updProf c fun p => { p with paused := p.paused && keptPaused d c })).updChan c fun s => { s with restart := true, enablePending := if s.st = .stop then true else s.enablePending }

/-! ### Path and source gates -/

/-- `PGATE_nn` at 0 V and a state. A collapse hold goes on (R312). -/
def pathZero (c : Chan) (st : PsState) (d : Device) : Device :=
  d.updPath c fun p => { p with st := st, g := 0, gAt := d.up, toFull := false, falling := false, checkAt := none, passed := false,
                                lowAt := none,
                                zeroAt := if p.g = 0 && !p.toFull && decide (p.st ≠ .gtest) then p.zeroAt else d.up }

/-- A hold by source f of a path switch (R564, R420). -/
def pathHold (f : Nat) (c : Chan) (d : Device) : Device :=
  d.updPath c fun p => { p with holders := if f ∈ p.holders then p.holders else p.holders ++ [f] }

/-- R420: the switch is opened and held, unless it is in ABSENT, STUCK or TRIPPED. -/
def pathOpen (f : Nat) (c : Chan) (d : Device) : Device :=
  let st := (d.paths[c]).st
  if st = .unarmed ∨ st = .absent ∨ st = .stuck ∨ st = .tripped then d
  else pathHold f c (pathZero c .norise d)

/-- `SGATE_n` at 0 V and a state. -/
def srcZero (k : Src) (st : SState) (d : Device) : Device :=
  d.updSrc k fun s => { s with st := st, g := 0, gAt := d.up, checkAt := none, passed := false, qualAt := none, lowRun := 0 }

def srcHold (f : Nat) (k : Src) (d : Device) : Device :=
  d.updSrc k fun s => { s with holders := if f ∈ s.holders then s.holders else s.holders ++ [f] }

/-- R421: the source is opened and held, unless it is in OFF or BELOW. -/
def srcOpen (f : Nat) (k : Src) (d : Device) : Device :=
  let st := (d.srcs[k]).st
  if st = .off ∨ st = .below then d else srcHold f k (srcZero k .norise d)

/-- A switch whose gate has been shut off stands blocked, or waits where its insertion was not complete (log entry 153). -/
def PsState.shut : PsState → PsState
  | .gtest => .wait
  | .ramp => .block
  | .diode => .block
  | .full => .block
  | s => s

/-- A source whose gate has been shut off stands below its window, unless it is off or held (log entry 153). -/
def SState.shut : SState → SState
  | .off => .off
  | .norise => .norise
  | _ => .below

/-- Every power output low (R34, R46, R76): the pins of every slot and every gate reference. -/
def powerLow (d : Device) : Device :=
  let d := { d with slots := d.slots.map fun (s : SlotSt) => { s with pinA := false, pinB := false, xOn := false, yOn := false, xWait := false } }
  forEach allSrcs (fun k d => srcZero k (d.srcs[k]).st.shut d) (forEach allChans (fun c d => pathZero c (d.paths[c]).st.shut d) d)

/-- The breaker opens a switch in a state of its trip row: latched until toggled (R299, R307). In WAIT and NORISE the latch alone is set, and holds the
switch in WAIT. -/
def pathTrip (c : Chan) (inst curve : Bool) (d : Device) : Device :=
  let st := (d.paths[c]).st
  if st.tripRow then
    (pathZero c .tripped d).updPath c fun p => { p with latched := true, tripInst := inst, tripCurve := curve, tripCnt := satInc p.tripCnt }
  else if st = .wait ∨ st = .norise then d.updPath c fun p => { p with latched := true }
  else d

end Sys2Proof.Machine
end

