-- ==== Sys2Proof/Machine/Collector.lean ====
section
/-! DEFINITION. Sys2Proof/Machine/Collector.lean: the fault collector: the map of sources (R413), severities (R416 to R418), what a raise does (R419 to
R423), and the end of a hold (R426). Other commands raise through `raise`. -/

namespace Sys2Proof.Machine

/-- Scope of a source (R413). -/
inductive Scope where
  | slot (n : Slot) | channel (c : Chan) | path (c : Chan) | source (k : Src) | quadrant (q : Quad) | device
  deriving DecidableEq, Repr

/-- Scope of a model's stage (10): slots, path switches, source switches. -/
def stageScope (m : Nat) : Scope :=
  if m < 136 then .slot (Fin.ofNat 136 m) else if m < 168 then .path (Fin.ofNat 32 (m - 136)) else .source (Fin.ofNat 4 (m - 168))

/-- The table of R413: scope of each index in use, none for a reserved index. -/
def scopeOf (f : Nat) : Option Scope :=
  if f ≤ 0x087 then some (.slot (Fin.ofNat 136 f))
  else if 0x090 ≤ f ∧ f ≤ 0x117 then some (.slot (Fin.ofNat 136 (f - 0x090)))
  else if 0x120 ≤ f ∧ f ≤ 0x1A7 then some (.slot (Fin.ofNat 136 (f - 0x120)))
  else if 0x1B0 ≤ f ∧ f ≤ 0x237 then some (.slot (Fin.ofNat 136 (f - 0x1B0)))
  else if 0x240 ≤ f ∧ f ≤ 0x2EB then some (stageScope (f - 0x240))
  else if 0x300 ≤ f ∧ f ≤ 0x3DF then some (.channel (Fin.ofNat 32 (f % 32)))
  else if 0x3E0 ≤ f ∧ f ≤ 0x49F then some (.path (Fin.ofNat 32 (f % 32)))
  else if 0x4A0 ≤ f ∧ f ≤ 0x4A7 then some (.source (Fin.ofNat 4 (f % 4)))
  else if 0x4A8 ≤ f ∧ f ≤ 0x4AF then some (.quadrant (Fin.ofNat 4 (f % 4)))
  else if 0x4B0 ≤ f ∧ f ≤ 0x4B3 then some (.source (Fin.ofNat 4 (f % 4)))
  else if f = 0x4B4 then some .device
  else if 0x4C0 ≤ f ∧ f ≤ 0x517 then some (.quadrant (Fin.ofNat 4 ((f - 0x4C0) / 22)))
  else if 0x520 ≤ f ∧ f ≤ 0x577 then some (.quadrant (Fin.ofNat 4 ((f - 0x520) / 22)))
  else if 0x580 ≤ f ∧ f ≤ 0x583 then some (.quadrant (Fin.ofNat 4 (f - 0x580)))
  else if 0x590 ≤ f ∧ f ≤ 0x59A then some .device
  else if 0x5A0 ≤ f ∧ f ≤ 0x5AF then some .device
  else if 0x5C0 ≤ f ∧ f ≤ 0x5C7 then some (.quadrant (Fin.ofNat 4 ((f - 0x5C0) / 2)))
  else if 0x5C8 ≤ f ∧ f ≤ 0x5C9 then some .device
  else if 0x5D0 ≤ f ∧ f ≤ 0x5D4 then some .device
  else if 0x5E0 ≤ f ∧ f ≤ 0x5E3 then some (.quadrant (Fin.ofNat 4 (f - 0x5E0)))
  else if 0x5E4 ≤ f ∧ f ≤ 0x5E8 then some .device
  else if 0x600 ≤ f ∧ f ≤ 0x607 then some (.quadrant (Fin.ofNat 4 (f % 4)))
  else if 0x608 ≤ f ∧ f ≤ 0x617 ∧ (f - 0x608) / 4 ≠ f % 4 then some (.quadrant (Fin.ofNat 4 (f % 4)))
  else if 0x620 ≤ f ∧ f ≤ 0x624 then some .device
  else if 0x628 ≤ f ∧ f ≤ 0x62F then some .device
  else none

/-- Fixed classes of R413 and R431. -/
def fixedSev (f : Nat) : Option Severity :=
  if 0x3E0 ≤ f ∧ f ≤ 0x3FF then some .breaker
  else if (0x400 ≤ f ∧ f ≤ 0x41F) ∨ f = 0x59A ∨ (0x5D0 ≤ f ∧ f ≤ 0x5D4) ∨ f = 0x620 then some .latch
  else none

/-- Default severity of R413. -/
def defaultSev (f : Nat) : Severity :=
  if 0x1B0 ≤ f ∧ f ≤ 0x237 then .channel
  else if 0x300 ≤ f ∧ f ≤ 0x35F then .channel
  else if (0x420 ≤ f ∧ f ≤ 0x43F) ∨ (0x460 ≤ f ∧ f ≤ 0x47F) then .channel
  else if f = 0x596 then .device
  else if 0x600 ≤ f ∧ f ≤ 0x617 then .quadrant
  else .log

/-- Severity of R417 before R415. -/
def baseSev (d : Device) (f : Nat) : Severity :=
  match fixedSev f with
  | some s => s
  | none =>
    match fsSev d (Fin.ofNat 2048 f) with
    | 0 => defaultSev f | 1 => .log | 2 => .channel | 3 => .quadrant | 4 => .device | _ => .latch

/-- What a severity acts as on a scope (R418). -/
def actSev (sc : Scope) (s : Severity) : Severity :=
  match sc, s with
  | .quadrant _, .channel => .quadrant
  | .device, .channel => .device
  | .device, .quadrant => .device
  | _, s => s

/-- Effective severity (R417): DEVICE becomes LATCH on a reporting-path fault (R415). -/
def effSev (d : Device) (f : Nat) : Severity :=
  match scopeOf f with
  | none => .none
  | some _ =>
    let s := baseSev d f
    if (d.faults[Fin.ofNat 2048 f]).rpath ∧ s = .device then .latch else s

/-- Channel that R418 names for a slot: that of its membership, or the one it has been shed from. -/
def slotChan (d : Device) (n : Slot) : Option Chan :=
  match (d.slots[n]).shedFrom with
  | some c => some c
  | none => if isSpareSlot d n ∧ (d.slots[n]).forCh = none then none else chanOf d n

/-- Channels that a severity stops for a scope (R418, R419). -/
def reach (d : Device) (sc : Scope) (s : Severity) : List Chan :=
  match s with
  | .none => [] | .log => []
  | .channel =>
    match sc with
    | .slot n => (slotChan d n).toList
    | .channel c => [c] | .path c => [c] | .source _ => [] | .quadrant q => quadChans q | .device => allChans
  | .breaker => match sc with | .path c => [c] | _ => []
  | .quadrant =>
    match sc with
    | .slot n => quadChans (Slot.quad n)
    | .channel c => quadChans (Chan.quad c) | .path c => quadChans (Chan.quad c)
    | .source k => quadChans k | .quadrant q => quadChans q | .device => allChans
  | .device => allChans
  | .latch => allChans

/-- Removal of a source from one list of holders. -/
def unheld (f : Nat) (l : List Nat) : List Nat := l.filter fun g => decide (g ≠ f)

/-- Reaction of a severity on a scope (R419 to R421), in RUN. A breaker-class reaction that no trip
of R307 has caused clears `TRIP_INST` and `TRIP_CURVE` and counts in `TRIP_CNT` (DEDUCED, log entry 169). A DEVICE reaction that becomes LATCH
(R415) is no DEVICE reaction any more. -/
def react (f : Nat) (sc : Scope) (s : Severity) (d : Device) : Device :=
  let d := forEach (reach d sc s) (holdChan f) d
  let d := if s.holds then
      match sc with
      | .path c => if s = .breaker then pathTrip c false false d else pathOpen f c d
      | .source k => srcOpen f k d
      | .slot n => d.updSlot n fun x => { x with holders := if f ∈ x.holders then x.holders else x.holders ++ [f] }
      | _ => d
    else d
  if s = .device ∨ s = .latch then
    d.updCol fun c => { c with
      firstDev := if c.firstDev = 0xFFF#12 then BitVec.ofNat 12 f else c.firstDev
      devHolders := if s = .latch then unheld f c.devHolders else if f ∈ c.devHolders then c.devHolders else c.devHolders ++ [f]
      latchHolders := if s = .latch ∧ f ∉ c.latchHolders then c.latchHolders ++ [f] else c.latchHolders
      flt := true
      alive := false
      aliveRun := false
      resumeAt := none }
  else d

/-- `PH_STATE` (R210): held off by a shed or a driver fault, else by membership. A slot assigned to a channel that is not armed is a member too (R182),
with its gate closed. -/
def phState (d : Device) (n : Slot) : Nat :=
  let s := d.slots[n]
  if s.shedFrom.isSome ∨ s.dflt ∨ 0x090 + n.1 ∈ s.holders then 3
  else match chanOf d n with
    | some c => if (d.chans[c]).gate then 1 else 2
    | none => 0

/-- Highest reading of the die sensors that are not broken. -/
def hottest (d : Device) : Qty :=
  let l := ((List.finRange 8).filter fun j => !bitOf d.hk.sensBad.toNat j.1).map fun j => d.hk.dieT[j]
  l.foldl max (l.headD 0)

/-- Reading that a housekeeping source has at this instant (R565). -/
def hkReading (d : Device) (f : Nat) : Nat :=
  if 0x590 ≤ f ∧ f ≤ 0x593 then (match d.hk.clT[Fin.ofNat 4 (f - 0x590)] with | some x => encSigned (qFloor (x * 16)) 32 | none => 0x80000000)
  else if f = 0x595 then ((List.range 8).filter fun j => !bitOf d.hk.sensBad.toNat j).length
  else if f = 0x596 then encSigned (qFloor (hottest d * 16)) 32
  else if f = 0x597 then encSigned d.hk.delta 32
  else if 0x5A0 ≤ f ∧ f ≤ 0x5A7 then encSigned (qFloor (d.hk.dieT[Fin.ofNat 8 (f - 0x5A0)] * 16)) 32
  else if 0x5A8 ≤ f ∧ f ≤ 0x5AF then encSigned (qRound (d.hk.railV[Fin.ofNat 8 (f - 0x5A8)] * 1000)) 32
  else 0

/-- State, object number and readings of a raise record (R436, R565). `x` is the reading of a housekeeping source. -/
def raiseData (d : Device) (sc : Scope) (f x : Nat) : Nat × Nat × Nat :=
  let vsys16 := unitsOf d.bus.vSys 16 16
  let chanW (c : Chan) : Nat × Nat := (wordOf d (vstrOf d c), wordOf d (istrOf d c))
  match sc with
  | .slot n =>
    let st := phState d n
    match slotChan d n with
    | some c => (st + 65536 * n.1, chanW c)
    | none => (st + 65536 * n.1, vsys16, 0)
  | .channel c => ((d.chans[c]).st.code + 65536 * c.1, chanW c)
  | .path c => ((d.paths[c]).st.code + 65536 * c.1, chanW c)
  | .source k => ((d.srcs[k]).st.code + 65536 * k.1, wordOf d (vsrcOf d k), wordOf d (isrcOf d k))
  | .quadrant q =>
    let i : Island := ⟨q.1, by omega⟩
    (b2n (d.isl.late[i]) + 2 * b2n (bitOf d.isl.clkRun.toNat q.1) + 4 * (d.isl.launches[i]).length % 256 + 65536 * q.1, wordOf d (sysOf d q), 0)
  | .device => (d.start.st.code, if 0x590 ≤ f ∧ f ≤ 0x5AF then x % 2 ^ 32 else vsys16, 0)

/-- `EV_SEV` of R435, with the injected flag (R441). -/
def sevByteOf (inj : Bool) (d : Device) (f : Nat) (s : Severity) : Nat :=
  let x := d.faults[Fin.ofNat 2048 f]
  s.code + 8 * b2n x.promoted + 16 * b2n x.rpath + 32 * b2n inj

/-- `EV_SEV` of a record of the source's own rails. -/
def sevByte (d : Device) (f : Nat) (s : Severity) : Nat := sevByteOf (d.faults[Fin.ofNat 2048 f]).inj d f s

/-- `EV_SEV` of the end of its reporting-path fault, and of the end of its hold. -/
def sevPath (d : Device) (f : Nat) (s : Severity) : Nat := sevByteOf ((d.faults[Fin.ofNat 2048 f]).inj || (d.faults[Fin.ofNat 2048 f]).injPath) d f s
def sevHold (d : Device) (f : Nat) (s : Severity) : Nat := sevByteOf ((d.faults[Fin.ofNat 2048 f]).inj || (d.faults[Fin.ofNat 2048 f]).injHold) d f s

/-- `SUP_ALERT_N` is driven when a cause bit is set (R515). -/
def alertSet (bit : Nat) (d : Device) : Device :=
  d.updSup fun s => { s with alert := s.alert ||| BitVec.ofNat 7 (2 ^ bit), alertDrive := true }

/-- Whether a raise takes a capture buffer (R416, R439). -/
def wantsCap (d : Device) (f : Nat) (s : Severity) : Bool :=
  match fsCap d (Fin.ofNat 2048 f) with
  | 1 => false | 2 => true | _ => s.holds

/-- Kind and object of a capture (R440). -/
def capKind (d : Device) (sc : Scope) : Nat × Nat :=
  match sc with
  | .slot n => (1, match slotChan d n with | some c => c.1 | none => 0)
  | .channel c => (1, c.1) | .path c => (1, c.1) | .source k => (2, k.1) | _ => (3, 0)

/-- Codeword 1 + j of a capture, with samples 2j and 2j + 1 (R440). -/
def capWord (c : Cap) (j : Nat) : Nat × List Byte :=
  (0xA0000 + 16384 * c.buf + 32 * (1 + j), leBytes 16 ((c.samples.getD (2 * j) 0).toNat) ++ leBytes 16 ((c.samples.getD (2 * j + 1) 0).toNat))

/-- Codewords of a capture that its samples have completed, from codeword 1 + k on, wait for the memory write port (R27, R439). -/
def capQueue (k : Nat) (c : Cap) (d : Device) : Device :=
  let ws := ((List.range (c.samples.length / 2)).drop k).map (capWord c)
  if ws = [] then d else arbRequest wport 3 (d.updCol fun x => { x with capQ := x.capQ ++ ws })

/-- Number of the 51.2 us interval whose results, given 2 us after its start, are the latest at a time in ticks (R334). -/
def sampleNo (t : Nat) : Nat := (t - 20) / 512

/-- The last 64 samples up to now: an interval without a sample has one of zeros (R440). -/
def fillHist (d : Device) (last : Option Nat) (l : List (BitVec 128)) : List (BitVec 128) :=
  match last with
  | some n =>
    let k := min 64 (sampleNo d.ticks - n)
    (l ++ List.replicate k 0).drop (l.length + k - 64)
  | none => l

/-- One more sample, after zeros for the intervals that had none (R439, R440). -/
def pushHist (d : Device) (last : Option Nat) (l : List (BitVec 128)) (x : BitVec 128) : List (BitVec 128) :=
  match last with
  | some n =>
    let k := min 64 (sampleNo d.ticks - n - 1)
    (l ++ List.replicate k 0 ++ [x]).drop (l.length + k + 1 - 64)
  | none => [x]

/-- The lowest free buffer is taken at the decision, with the last 64 samples of the object (R439). -/
def captureTake (f : Nat) (sc : Scope) (d : Device) : Device :=
  let busy := d.col.capBusy ||| d.col.capFull
  match (List.range 16).find? fun b => !bitOf busy.toNat b with
  | none => d.updCol fun c => { c with capMissed := satInc c.capMissed }
  | some b =>
    let ko := capKind d sc
    let hist := if ko.1 = 1 then let c := d.chans[Fin.ofNat 32 ko.2]; fillHist d c.histAt c.hist
      else if ko.1 = 2 then let s := d.srcs[Fin.ofNat 4 ko.2]; fillHist d s.histAt s.hist
      else fillHist d d.bus.histAt d.bus.hist
    let t0 := (sampleNo d.ticks + 1 - hist.length) * 512
    let cap : Cap := ⟨b, f, ko.1, ko.2, hist.length, d.ticks, t0, d.halt.last, hist⟩
    capQueue 0 cap (d.updCol fun c => { c with capBusy := c.capBusy ||| BitVec.ofNat 16 (2 ^ b), caps := c.caps ++ [cap] })

/-- A LATCH raise before RUN ends the start in CONFIGURED (R70): at once in JOIN or while BUILD waits for the mode pins, else once the start check is
done. -/
def latchAtStart (d : Device) : Device :=
  d.updStart fun s => { s with
    latchAtStart := true
    modeUnstable := false
    st := match s.st with | .build => (if s.modeUnstable then .configured else .build) | .join => .configured | x => x }

/-- The reaction of an effective severity: at once from the RUN launch on; before it, it waits for the launch, but LATCH ends the start (R70, R430). -/
def reactNow (f : Nat) (sc : Scope) (s : Severity) (d : Device) : Device :=
  let a := actSev sc s
  if d.start.st = .run ∨ d.start.launched then react f sc a d
  else if a = .latch then react f sc a (latchAtStart d)
  else if a.holds then d.updFault (Fin.ofNat 2048 f) fun y => { y with pre := true }
  else d

/-- The collector runs: from the end of INIT (R430). -/
def colRuns (d : Device) : Bool := decide (d.start.st ≠ .reset) && decide (d.start.st ≠ .init)

/-- A source's raises are counted afresh in every whole second of local time; those suppressed in the last one are recorded (R437). -/
def secTurn (i : Fsrc) (d : Device) : Device :=
  let y := d.faults[i]
  if y.secOf = d.loc / sec then d
  else
    let d := d.updFault i fun y => { y with secN := 0, secMore := 0, secOf := d.loc / sec }
    if 0 < y.secMore then logPush 6 (sevByte d i.1 (effSev d i.1)) i.1 y.secMore 0 0 d else d

/-- A source is raised (R413 to R423). `level`: the source stays active until its own condition ends; otherwise it is active for one
cycle. `x`: reading for a housekeeping source. A reserved index is never raised. Before the end of INIT the collector takes nothing; a
condition that lasts is there when it starts (`colStart`; log entry 147). An event of a source that is treated as active already is no new raise
(R415). -/
def raiseX (f : Nat) (level : Bool) (x : Nat) (d : Device) : Device :=
  match scopeOf f with
  | none => d
  | some sc =>
    let i := Fin.ofNat 2048 f
    if colRuns d = false then d.updFault i fun y => { y with level := y.level || level }
    else if (d.faults[i]).active then d.updFault i fun y => { y with level := y.level || level }
    else
    let d := secTurn i d
    let s := effSev d f
    let e := raiseData d sc f x
    let wrote := (d.faults[i]).secN < 8
    let held := s.holds && decide (s ≠ .none)
    let d := d.updFault i fun y => { y with
      active := y.active || level
      level := y.level || level
      count := satInc y.count
      hold := y.hold || held
      latched := y.latched || decide (s = .latch)
      injHold := if y.hold then y.injHold else y.inj
      heldAt := if y.hold then y.heldAt else d.loc
      quietAt := if y.active || level then none else some d.loc
      secN := if wrote then y.secN + 1 else y.secN
      secMore := if wrote then y.secMore else y.secMore + 1 }
    let d := if wrote then logPush 1 (sevByte d f s) f e.1 e.2.1 e.2.2 d else d
    let d := if fsAlert d i then alertSet 0 (d.updSup fun u => { u with alertFsrc := BitVec.ofNat 12 f }) else d
    let d := if wantsCap d f s then captureTake f sc d else d
    reactNow f sc s d

/-- A source whose condition is an event (R414). -/
def raise (f : Nat) (d : Device) : Device := raiseX f false 0 d

/-- A source is raised and holds what it has stopped whatever its severity (R564); the hold counts from the raise (R436). -/
def holdBy (f : Nat) (d : Device) : Device :=
  (raise f d).updFault (Fin.ofNat 2048 f) fun y => { y with hold := true, heldAt := if y.hold then y.heldAt else d.loc }

/-- Both rails of a source are inverted by a running injection: it reads active while its condition does not hold (R441). -/
def inverted (d : Device) (f : Nat) : Bool := (d.faults[Fin.ofNat 2048 f]).inj && decide (d.col.fiMode = 3)

/-- An inverted source reads inactive: its condition holds. -/
def readsIdle (f : Nat) (d : Device) : Device := d.updFault (Fin.ofNat 2048 f) fun y => { y with active := y.rpath, quietAt := if y.rpath then none else some d.loc }

/-- A source whose condition lasts. It is raised when it becomes active. -/
def raiseLevel (f x : Nat) (d : Device) : Device :=
  let y := d.faults[Fin.ofNat 2048 f]
  if inverted d f then (if y.level then d else readsIdle f (d.updFault (Fin.ofNat 2048 f) fun y => { y with level := true }))
  else if y.active then d.updFault (Fin.ofNat 2048 f) fun y => { y with level := true }
  else raiseX f true x d

/-- The collector starts to run at the end of INIT: a condition that has lasted till then raises its source (R430). -/
def colStart (d : Device) : Device :=
  forEach ((List.finRange 2048).filter fun f => (d.faults[f]).level && !(d.faults[f]).active) (fun f d => raiseX f.1 true (hkReading d f.1) d) d

/-- An inverted source reads active, with its own reading: its condition does not hold. -/
def readsActive (f : Nat) (d : Device) : Device := (raiseX f true (hkReading d f) d).updFault (Fin.ofNat 2048 f) fun y => { y with level := false }

/-- A source's condition ends: it reads inactive and its quiet period starts (R425). An inverted one reads active from then on (R441). -/
def faultEnds (f : Nat) (d : Device) : Device :=
  if inverted d f then (if (d.faults[Fin.ofNat 2048 f]).level then readsActive f d else d)
  else d.updFault (Fin.ofNat 2048 f) fun y =>
    if y.active && !y.rpath then { y with active := false, level := false, quietAt := some d.loc } else { y with level := false }

/-- A channel loses a hold (R426). With its last one it leaves HELD at its next loop step (R232). -/
def releaseChan (f : Nat) (c : Chan) (d : Device) : Device := d.updChan c fun s => { s with holders := unheld f s.holders }

/-- NORISE to WAIT at the grant (R299, R564). -/
def releasePath (f : Nat) (c : Chan) (d : Device) : Device :=
  if f ∈ (d.paths[c]).holders then
    let d := d.updPath c fun p => { p with holders := unheld f p.holders }
    if (d.paths[c]).holders = [] ∧ (d.paths[c]).st = .norise then
      d.updPath c fun p => { p with st := .wait, presentAt := none, lowAt := none }
    else d
  else d

/-- NORISE to BELOW at the grant (R288, R564). -/
def releaseSrc (f : Nat) (k : Src) (d : Device) : Device :=
  if f ∈ (d.srcs[k]).holders then
    let d := d.updSrc k fun s => { s with holders := unheld f s.holders }
    if (d.srcs[k]).holders = [] ∧ (d.srcs[k]).st = .norise then d.updSrc k fun s => { s with st := .below } else d
  else d

/-- The hold of a source ends on all its objects (R426). `ALIVE` and the FLT pair resume at the next frame boundary at least 1 us later
(R432) when no DEVICE or LATCH reaction is left. -/
def releaseHold (f : Nat) (d : Device) : Device :=
  let d := d.updFault (Fin.ofNat 2048 f) fun y => { y with hold := false, pre := false }
  let d := forEach allChans (releaseChan f) d
  let d := forEach allChans (releasePath f) d
  let d := forEach allSrcs (releaseSrc f) d
  let d := forEach allSlots (fun n d => d.updSlot n fun s => { s with holders := unheld f s.holders }) d
  if f ∈ d.col.devHolders then
    d.updCol fun c => { c with
      devHolders := unheld f c.devHolders
      resumeAt := if unheld f c.devHolders = [] ∧ c.latchHolders = [] then some (d.loc + us) else c.resumeAt }
  else d

/-- A grant: `FS_RECOV` and a record of kind 0x2 (R426, R308). -/
def grantRecord (f : Nat) (d : Device) : Device :=
  let i := Fin.ofNat 2048 f
  let y := d.faults[i]
  let d := d.updFault i fun y => { y with recov := satInc y.recov }
  logPush 2 (sevHold d f (effSev d f)) f ((d.faults[i]).recov.toNat + 65536 * y.win.toNat) (min ((d.loc - y.heldAt) / ms) (2 ^ 32 - 1)) 0 d

end Sys2Proof.Machine
end

