-- ==== Sys2Proof/Machine/Losses.lean ====
section
/-! DEFINITION. Sys2Proof/Machine/Losses.lean: fields of the THERMAL area (R396) and the losses that the quadrants sum (R382 to R386). -/

namespace Sys2Proof.Machine

/-- The highest Tj since the last read (R411). -/
def peakOf (x : ThermSt) (tj : Qty) : Option Qty := some (match x.peak with | some y => max y tj | none => tj)

/-- Division of a stated formula; a division by zero is an unstated value (log entry 6). -/
def qdiv (a b : Qty) : Qty := if b = 0 then Config.freeQty 0 else a / b

def tmb (m : Nat) : Nat := 0x1A000 + 64 * m
def tyb (t : Nat) : Nat := 0x18100 + 512 * t
def tmType (d : Device) (m : Nat) : Nat := d.cf (tmb m) 0 3
def tmCl (d : Device) (m : Nat) : Nat := d.cf (tmb m) 3 2
def q16 (x : Nat) : Qty := (signedOf x 16 : Qty) / 16
def tDr (d : Device) (m : Nat) : Qty := q16 (d.cf (tmb m + 4) 0 16)
def tTrip (d : Device) (m : Nat) : Qty := q16 (d.cf (tmb m + 4) 16 16)
def drMin (d : Device) (m : Nat) : Qty := (d.cf (tmb m + 8) 0 11 : Qty) / 1024
def frRth (d : Device) (m k : Nat) : Qty := (mword d.memory.conf (tmb m + 0x10 + 8 * k) : Qty) / 2 ^ 20
def frTau (d : Device) (m k : Nat) : Qty := (mword d.memory.conf (tmb m + 0x14 + 8 * k) : Qty) / 1000000
def rdsPts (d : Device) (t : Nat) : List (Qty × Qty) :=
  (List.range (min 8 (d.cf (tyb t) 0 4))).map fun j =>
    (q16 (d.cf (tyb t + 0x10 + 8 * j) 0 16), (mword d.memory.conf (tyb t + 0x14 + 8 * j) : Qty) / 1000000000)
def ePts (d : Device) (t off : Nat) : List (Qty × Qty) :=
  (List.range (min 8 (d.cf (tyb t) 4 4))).map fun j =>
    ((d.cf (tyb t + 0x50 + 12 * j) 0 16 : Qty) / 16, (mword d.memory.conf (tyb t + 0x50 + off + 12 * j) : Qty) / 1000000000)
def eVref (d : Device) (t : Nat) : Qty := (d.cf (tyb t) 16 16 : Qty)
def eTc (d : Device) (t : Nat) : Qty := (signedOf (d.cf (tyb t + 4) 0 16) 16 : Qty) / 65536

/-- The line through two points. -/
def lineThrough (p q : Qty × Qty) (x : Qty) : Qty := p.2 + qdiv (q.2 - p.2) (q.1 - p.1) * (x - p.1)

/-- Linear interpolation, held at the end values (R385, Rds). -/
def interpHeld : List (Qty × Qty) → Qty → Qty
  | [], _ => 0
  | [p], _ => p.2
  | p :: q :: t, x => if x ≤ p.1 then p.2 else if x < q.1 then lineThrough p q x else interpHeld (q :: t) x

/-- Linear interpolation beyond the first point: the last line is extended (R385, energies). -/
def interpExt : List (Qty × Qty) → Qty → Qty
  | [], _ => 0
  | [p], _ => p.2
  | [p, q], x => lineThrough p q x
  | p :: q :: r :: t, x => if x < q.1 then lineThrough p q x else interpExt (q :: r :: t) x

/-- Energies of R385: from 0 at 0 A to the first point. -/
def energyAt (pts : List (Qty × Qty)) (x : Qty) : Qty :=
  match pts with
  | [] => 0
  | p :: _ => if x < p.1 then lineThrough (0, 0) p x else interpExt pts x

/-- Rds(T) of a model's type in ohms. -/
def rdsOf (d : Device) (m : Nat) (t : Qty) : Qty := interpHeld (rdsPts d (tmType d m)) t

/-- Energy joins the sum of the frame in progress (R382). -/
def addEnergy (m : Nat) (e : Qty) (d : Device) : Device := d.updTherm (Fin.ofNat 172 m) fun x => { x with energy := x.energy + e }

/-- SYS value used in a quadrant (R284): its own fresh result, else V_SYS while that is fresh, else the last fresh value. -/
def sysUse (d : Device) (q : Quad) : Qty := (d.quads[q]).sysHeld

/-- Current per member phase of a channel for the latest result (R383). -/
def iPhase (d : Device) (c : Chan) (n : Slot) : Qty :=
  let s := d.chans[c]
  let ia := |s.i|
  let ieq := if isBoost d c then qdiv (ia * s.v) (sysUse d (Chan.quad c)) else ia
  let ms := members d c
  let tot := (ms.map fun k => (d.slots[k]).ipkAvg).sum
  if tot = 0 then qdiv ieq (ms.length : Qty) else ieq * (d.slots[n]).ipkAvg / tot

/-- Conduction energy of the members for one result interval (R383), whose i_ph serves the cycles that end before the next result (R384). -/
def conduction (c : Chan) (d : Device) : Device :=
  forEach (members d c) (fun n d =>
    let ip := iPhase d c n
    let ripple := max 0 (2 * ((d.slots[n]).ipkAvg - ip))
    let sq := ip ^ 2 + ripple ^ 2 / 12
    addEnergy n.1 (sq * rdsOf d n.1 (d.therm[Fin.ofNat 172 n.1]).tjQ * (512 / 10000000)) (d.updSlot n fun s => { s with iPh := ip })) d

/-- Switching energy of a cycle that ended at current iu (R384). -/
def switching (c : Chan) (n : Slot) (iu : Qty) (d : Device) : Device :=
  let t := tmType d n.1
  let iv := max 0 (2 * (d.slots[n]).iPh - iu)
  let vbr := if isBoost d c then (d.chans[c]).v else d.bus.vSys
  let e := (energyAt (ePts d t 4) iv + energyAt (ePts d t 8) iu) * qdiv vbr (eVref d t) *
    (1 + eTc d t * ((d.therm[Fin.ofNat 172 n.1]).tjQ - 25))
  addEnergy n.1 e d

/-- Loss of a path switch for one result interval (R386). -/
def pathLoss (c : Chan) (d : Device) : Device :=
  let p := d.paths[c]
  let s := d.chans[c]
  let m := 136 + c.1
  let w := match p.st with
    | .full => s.i ^ 2 * rdsOf d m (d.therm[Fin.ofNat 172 m]).tjQ
    | .ramp => |s.i| * |s.v - sysUse d (Chan.quad c)|
    | .diode => |s.i| * |s.v - sysUse d (Chan.quad c)|
    | _ => 0
  addEnergy m (w * (512 / 10000000)) d

/-- Loss of a source switch for one result interval (R386). -/
def srcLoss (k : Src) (d : Device) : Device :=
  let s := d.srcs[k]
  let m := 168 + k.1
  let w := if s.g = sFull d k ∧ s.g > 0 then s.i ^ 2 * rdsOf d m (d.therm[Fin.ofNat 172 m]).tjQ
    else if s.st.live then |s.i| * |s.v - sysUse d k| else 0
  addEnergy m (w * (512 / 10000000)) d

end Sys2Proof.Machine
end

