-- ==== Sys2Proof/Machine/Phase.lean ====
section
/-! DEFINITION. Sys2Proof/Machine/Phase.lean: the phase engine (05): timers, the cycle of a phase, evidence, capture, readback, driver faults, and the
shedding of a member (R235, R236, R455). -/

namespace Sys2Proof.Machine

/-! ### Commands and thresholds of a slot -/

/-- Folded cap and frequency fold in force: before the first string-voltage result the string voltage is taken as 0 (R191). -/
def foldCapIn (d : Device) (c : Chan) : Qty := if (d.chans[c]).vSeen then (d.chans[c]).foldCap else phCap d c / 4
def foldIn (d : Device) (c : Chan) : Bool := if (d.chans[c]).vSeen then (d.chans[c]).fold else decide (ffDiv d c = 1 ∨ ffDiv d c = 2)

/-- Reload of the channel's timers (R192). -/
def reloadIn (d : Device) (c : Chan) : Nat := if foldIn d c then cmReload d c * 2 ^ ffDiv d c else cmReload d c

/-- Folded cap of a phase, derated by its model's factor as the phase took it at its last valley (R190, R392). -/
def phaseCap (d : Device) (c : Chan) (n : Slot) : Qty := foldCapIn d c * (d.slots[n]).kth

/-- What a member is held to: half the folded cap for a tadpole (R188). -/
def slotCap (d : Device) (c : Chan) (n : Slot) : Qty := if (d.slots[n]).tadpole then phaseCap d c n / 2 else phaseCap d c n

/-- Ramp factor in force: the lower of the halt or edge factor and the pulse factor (R229, R250). -/
def rampH (d : Device) (c : Chan) : Qty := min (d.chans[c]).h (d.chans[c]).hp

/-- i_pk of the last loop step with the ramp factor of this instant (R217, R229): in STOP the share is the lower of the stop ramp and the
halt factor's (R230). -/
def loopPk (d : Device) (c : Chan) : Qty :=
  let s := d.chans[c]
  max 0 ((if s.st = .stop then min s.ibase (rampH d c * s.iraw) else rampH d c * s.ibase) + s.iadd)

/-- Effective peak command (R188), halved by fast halving until the loop step after its release (R223). -/
def effPk (d : Device) (c : Chan) (n : Slot) : Qty :=
  let pk := min (loopPk d c) (slotCap d c n)
  if halvedIn d c then pk / 2 else pk

/-- Lower threshold code of a phase (R186). -/
def lowCode (d : Device) (c : Chan) (n : Slot) : Nat := codeOf d n (zcLevel d c)

/-- Slope compensation per 10 ns in codes with a 12-bit fraction (R187). -/
def slopeCode (d : Device) (c : Chan) (n : Slot) : Qty :=
  (qRound (slopeA d c / 100 * (csGain d n : Qty) / 16384 * 4096) : Qty) / 4096

/-- Current of an upper threshold code (R185 inverted). -/
def codeCur (d : Device) (n : Slot) (u : Nat) : Qty :=
  let s : Qty := if csPol d n then -1 else 1
  qdiv (((u : Qty) - (csZero d n : Qty) / 16) * 16384) (s * (csGain d n : Qty))

/-- Offset position of member k of N at reload M, in fine steps (R182). -/
def offsetPos (d : Device) (n : Slot) (k nn m : Nat) : Nat :=
  if phOfsOvr d n then (2 * (phOfs d n * 2 * m * 16) + 65536) / (2 * 65536)
  else if nn = 0 then 0 else (2 * (k * 2 * m * 16) + nn) / (2 * nn)

/-! ### Timers -/

/-- An immediate reload (R166, R167) of a timer (half length, due) at an instant: half length and due of the cycle in progress. -/
def reloadNow (up m due m' : Nat) : Nat × Nat :=
  let p := up + 2 * m - due
  if p < m then (if p ≤ m' then (m', up - p + 2 * m') else (p, up + p)) else (m, due)

/-- A reload value is written to the master and the phases of a channel (R165, R166). -/
def writeReload (c : Chan) (m' : Nat) (d : Device) : Device :=
  let imm := rldImm d c
  let d := d.updChan c fun s =>
    let r := reloadNow d.up s.m s.due m'
    if imm && s.running then { s with m := r.1, due := r.2, mShadow := m' } else { s with mShadow := m' }
  forEach (members d c) (fun n d => d.updSlot n fun s =>
    let r := reloadNow d.up s.m s.due m'
    if imm && s.running then { s with m := r.1, due := r.2, mShadow := m' } else { s with mShadow := m' }) d

/-- A member is set to its offset position by RESET or TRIGGER at master valley t (R179, R182). Where it already holds it, only a changed fine
offset follows, at its next valley (R165). Otherwise an on-time in progress ends as forced, and the cycle it belongs to is committed at the
next valley (R196). -/
def resetMember (c : Chan) (t m : Nat) (k nn : Nat) (n : Slot) (d : Device) : Device :=
  let p := offsetPos d n k nn m
  let want := t + p / 16 % (2 * m)
  let s := d.slots[n]
  let fine := p % 16 + cmStart d c % 16
  if s.running ∧ s.m = m ∧ (s.due = want ∨ s.due = want + 2 * m) then d.updSlot n fun s => { s with ofsNext := fine }
  else (xOff n 2 (posFine d n) d).updSlot n fun s => { s with running := true, m := m, mShadow := m, due := want, ofs := fine, ofsNext := fine }

/-- The members of a channel with their indices. -/
def indexed {α : Type} : Nat → List α → List (Nat × α)
  | _, [] => []
  | k, a :: as => (k, a) :: indexed (k + 1) as

/-- RESET of every member at a master valley (R179, R183). -/
def resetMembers (c : Chan) (t m : Nat) (d : Device) : Device :=
  let ms := members d c
  forEach (indexed 0 ms) (fun km d => resetMember c t m km.1 ms.length km.2 d) d

/-- Start of a stopped channel master (R180): the next time the quadrant timer's cycle position is `CM_START`. -/
def masterStart (d : Device) (c : Chan) : Nat :=
  let q := Chan.quad c
  let per := 2 * qtReload d q
  let v := (d.quads[q]).due - per
  let t := v + cmStart d c / 16 % per
  if t < d.up then t + per else t

/-- A channel master is stopped awaiting its TRIGGER or RESET, and its phases await its first valley (R181). -/
def stopMaster (c : Chan) (d : Device) : Device :=
  let m := max 1 (reloadIn d c)
  let d := d.updChan c fun s => { s with running := false, waiting := true, due := masterStart d c, m := m, mShadow := m, resetAt := none }
  forEach (members d c) (fun n d => (slotOff n d).updSlot n fun s => { s with running := false, inCycle := false }) d

/-- The quadrant timer is set to its valley, counting up (R181). -/
def resetQuadTimer (q : Quad) (d : Device) : Device :=
  d.updQuad q fun s => { s with running := true, due := d.up + 2 * qtReload d q }

/-- Carriers of a region at a carrier reset (R181). -/
def resetCarriers (r : Region) (d : Device) : Device :=
  match r with
  | .device => forEach (allChans.filter fun c => (d.chans[c]).armed) stopMaster
      (forEach (allQuads.filter fun q => (d.quads[q]).armed) resetQuadTimer d)
  | .quadrant q => forEach ((quadChans q).filter fun c => (d.chans[c]).armed) stopMaster (resetQuadTimer q d)
  | .channel c => stopMaster c d

/-! ### Shedding (R235, R236, R455) -/

/-- A member is shed from its channel: outputs low, fault source raised; a tadpole is rejected for good (test: 4 shed). -/
def shed (test : Nat) (c : Chan) (n : Slot) (d : Device) : Device :=
  let tad := (d.slots[n]).tadpole
  let d := (slotOff n d).updSlot n fun s => { s with
    shedFrom := some c, shedAt := d.loc, evRun := 0, tadpole := false, bad := s.bad || tad
    repl := if tad then none else s.repl
    forCh := if tad then none else s.forCh }
  let d := d.updChan c fun s => { s with shedCnt := satInc s.shedCnt }
  let d := if tad then quadEvent (Slot.quad n) 0x0703 (n.1 + 256 * c.1 + 65536 * test) 0 0 d else d
  let d := raise n.1 d
  if members d c = [] then
    let d := d.updChan c fun s => { s with noMember := true }
    let d := if (d.chans[c]).st.switching ∨ (d.chans[c]).st = .off then enterCh c .off d else d
    raise (0x3A0 + c.1) d
  else d

/-- Members whose driver fault stands are shed (R205, R235). -/
def shedHigh (c : Chan) (d : Device) : Device := forEach ((members d c).filter fun n => (d.slots[n]).dflt) (shed 4 c) d

/-- A slot's outputs stay low while its driver fault stands or its driver-fault source holds it (R205). -/
def slotBarred (d : Device) (n : Slot) : Bool := (d.slots[n]).dflt || decide (0x090 + n.1 ∈ (d.slots[n]).holders)

/-! ### The cycle of a phase (R174) -/

/-- Evidence bits of the cycle that ends (R194, R195). -/
def evidence (d : Device) (n : Slot) (cmp : Cmp) (moved : Bool) : CapSet :=
  let s := d.slots[n]
  let flat := s.xWas && s.evalOk && !moved && !s.cmpMoved && decide (curCmp d n cmp ≠ .below)
  { s.cur with copen := s.cur.copen && s.evalOk, cflat := flat, noLow := !s.lowSeen, cend := if s.xWas then s.cur.cend else 3 }

/-- The capture event of R197. What stood before it is kept for a read of the same counter cycle (R199). -/
def captureEvent (n : Slot) (v : CapSet) (d : Device) : Device :=
  d.updSlot n fun s => { s with
    capPrev := some (d.up, s.shadow, s.new, s.overcap, s.overcapCnt)
    overcap := s.overcap || s.new
    overcapCnt := if s.new then satInc s.overcapCnt else s.overcapCnt
    shadow := v
    new := true }

/-- The upper threshold stays at least one code beyond the lower threshold (R187, R186). -/
def upperBound (d : Device) (c : Chan) (n : Slot) (u : Qty) : Qty :=
  let lo : Qty := (lowCode d c n : Qty)
  if csPol d n then min (lo - 1) u else max (lo + 1) u

/-- The active output turns on, its edge at a fine instant. -/
def xRise (n : Slot) (edge : Nat) (d : Device) : Device :=
  setX n true (d.updSlot n fun s => { s with xOn := true, xWas := true, xWait := false, xAt := edge })

/-- Instant of the Y-off of the on-time in progress: counting down, the count reaches DT_X (R174), or the instant carried over (R170). -/
def yOffEdge (d : Device) (n : Slot) : Nat :=
  match (d.slots[n]).yLate with
  | some e => e
  | none => 16 * (d.slots[n]).due + (d.slots[n]).ofs - dtX d n

/-- The Y-off of the on-time in progress takes place. -/
def yOffDue (n : Slot) (d : Device) : Device :=
  let e := yOffEdge d n
  let d := waitUp (e / 16) d
  yOff n (max e (16 * d.up)) d

/-- A cycle begins with the gate open (R174): X on, or the cycle is skipped. X on waits until the dead time after a late Y-off has passed
(R170, R14). `CAPPED` is judged on the folded cap, also for a tadpole, which is held to half of it (R191; DEDUCED, log entry 173). -/
def beginCycle (c : Chan) (n : Slot) (d : Device) : Device :=
  let pk := effPk d c n
  let capped := decide (loopPk d c > phaseCap d c n)
  let held := decide (loopPk d c > slotCap d c n)
  let d := d.updSlot n fun s => { s with capped := capped, heldTo := held, capHit := s.capHit || held, inCycle := true, tonMax := dmax d c * 2 * s.m / 1024 }
  let d := if capped then d.updChan c fun s => { s with cappedHit := true } else d
  if pk > zcLevel d c then
    let u := codeOf d n pk
    let ok := decide (16 ≤ beyond d n u (lowCode d c n))
    let up := upperBound d c n u
    let d := d.updSlot n fun s => { s with evalOk := ok, upper := up, blanked := false, slopeN := 0 }
    let s := d.slots[n]
    let edge := edgeAt s s.ofs
    let free := (if s.yOn then yOffEdge d n else s.yOffAt) + dtX d n
    if s.yOn = false ∧ (free ≤ edge ∨ s.yOffAt = 0) then xRise n edge d
    else d.updSlot n fun s => { s with xWait := true, xAt := max edge free }
  else d.updSlot n fun s => { s with skipCnt := satInc s.skipCnt }

/-- Channel whose cycle a slot completes: of its membership, or the one it has been shed from in that cycle (R384). -/
def cycleChan (d : Device) (n : Slot) : Option Chan := (memberOf d n).or (d.slots[n]).shedFrom

/-- Valley of a phase (R165, R174, R176, R194 to R197, R235). The phase takes over its model's derate factor (R392). -/
def phaseValley (n : Slot) (cmp : Cmp) (moved : Bool) (d : Device) : Device :=
  if (d.slots[n]).running then
    let d := if (d.slots[n]).yOn ∧ yOffEdge d n < 16 * (d.slots[n]).due then yOffDue n d else d
    let d := waitUp (d.slots[n]).due d
    let d := xOff n 1 (posFine d n) d
    let late := if (d.slots[n]).yOn then some (yOffEdge d n) else none
    let s := d.slots[n]
    let v := evidence d n cmp moved
    let d := if s.inCycle then captureEvent n v d else d
    let d := d.updSlot n fun s => { s with cmp := cmp, cmpMoved := false, xWas := false, evalOk := false, inCycle := false, yDone := false, yLate := late, blanked := false, yBlanked := s.yOn && s.yBlanked, lowSeen := false, cur := {}, ofs := s.ofsNext, m := s.mShadow, due := s.due + 2 * s.mShadow, kth := (d.therm[Fin.ofNat 172 n.1]).kthQ }
    let d := match cycleChan d n with
      | some c => if s.inCycle ∧ v.cend ≠ 3 then switching c n (codeCur d n v.ucode.toNat) d else d
      | none => d
    match memberOf d n with
    | none => d
    | some c =>
      let d := if s.inCycle ∧ s.xWas ∧ s.evalOk ∧ (d.chans[c]).headroom = false then
          d.updSlot n fun s => { s with evRun := if v.copen || v.cflat then s.evRun + 1 else 0 }
        else d
      if 2 ≤ (d.slots[n]).evRun then shed 4 c n d
      else if (d.chans[c]).gate ∧ slotBarred d n = false then beginCycle c n d
      else d
  else d

/-- Valley of a channel master (R179, R180, R183). -/
def masterValley (c : Chan) (d : Device) : Device :=
  let s := d.chans[c]
  if s.running ∨ s.waiting then
    let t := match s.resetAt with | some r => min r s.due | none => s.due
    let d := waitUp t d
    let d := d.updChan c fun s => { s with
      running := true, waiting := false, m := s.mShadow, due := t + 2 * s.mShadow, chlimHit := false
      resetAt := match s.resetAt with | some r => if r ≤ t then none else some r | none => none }
    let d := forEach (members d c) (fun n d => d.updSlot n fun s => { s with cycCnt := s.cycCnt + 1 }) d
    resetMembers c t (d.chans[c]).m d
  else d

/-- Valley of a quadrant timer: RESET of the masters with `CM_SYNC` = 1 at their `CM_START` (R179, R180). -/
def quadValley (q : Quad) (d : Device) : Device :=
  if (d.quads[q]).running then
    let t := (d.quads[q]).due
    let per := 2 * qtReload d q
    let d := (waitUp t d).updQuad q fun s => { s with due := t + per }
    forEach ((quadChans q).filter fun c => cmSync d c && (d.chans[c]).running)
      (fun c d => d.updChan c fun s => { s with resetAt := some (t + cmStart d c / 16 % per) }) d
  else d

/-- CARRIER_VALLEY. -/
def carrierValley (t : Timer) (cmp : Cmp) (moved : Bool) (d : Device) : Device :=
  match t with
  | .quad q => quadValley q d
  | .master c => masterValley c d
  | .phase n => phaseValley n cmp moved d

/-- A channel terminate (R177, R224): X off in the members in their on-time. -/
def terminate (c : Chan) (n : Slot) (d : Device) : Device :=
  if (d.slots[n]).xOn then
    (xOff n 2 (posFine d n) d).updChan c fun s => { s with
      termHit := true
      chlimCnt := if s.chlimHit then s.chlimCnt else satInc s.chlimCnt
      chlimHit := true }
  else d

/-- CHANNEL_LIMIT_ABOVE: the channel comparator enters a state (R224, R225). -/
def channelLimit (c : Chan) (cmp : Cmp) (d : Device) : Device :=
  let d := d.updChan c fun s => { s with chlim := decide (cmp = .above), chBelow := decide (cmp = .below) }
  if cmp = .above then forEach (members d c) (terminate c) d else d

/-- First lower crossing of a cycle after X off (R196), and Y off under diode emulation or a closed gate (R173, R178). -/
def lowerCross (n : Slot) (pos : Nat) (d : Device) : Device :=
  let d := d.updSlot n fun s => { s with
    cmp := if csPol d n then .above else .below
    cmpMoved := true
    lowSeen := s.lowSeen || (s.xWas && !s.xOn)
    cur := if s.xWas && !s.xOn && !s.lowSeen then { s.cur with tlow := BitVec.ofNat 20 pos } else s.cur }
  match chanOf d n with
  | some c =>
    if (d.slots[n]).yOn ∧ (d.slots[n]).yBlanked ∧ (deEn d c ∨ (d.chans[c]).gate = false) then yOff n (edgeAt d.slots[n] pos) d else d
  | none => d

/-- Time passes until the counter tick of a cycle position of a running carrier. -/
def waitPos (n : Slot) (pos : Nat) (d : Device) : Device :=
  if (d.slots[n]).running ∧ (d.slots[n]).inCycle then waitUp (edgeAt d.slots[n] pos / 16) d else d

/-- BLANKING_END: the comparator output is taken into account (R174, R224). -/
def blankingEnd (n : Slot) (cmp : Cmp) (d : Device) : Device :=
  match chanOf d n with
  | none => d
  | some c =>
    let s := d.slots[n]
    if s.xOn ∧ s.blanked = false then
      let d := (waitUp (s.xAt / 16 + blank d c) d).updSlot n fun s => { s with blanked := true, cmp := cmp }
      if curCmp d n cmp = .above then xOff n 0 (posFine d n) d
      else if (d.chans[c]).chlim then terminate c n d else d
    else if s.yOn ∧ s.yBlanked = false then
      let d := (waitUp (s.yAt / 16 + blank d c) d).updSlot n fun s => { s with yBlanked := true, cmp := cmp }
      if curCmp d n cmp = .below then lowerCross n (posFine d n) d else d
    else d

/-- UPPER_CROSSING (R174, R175). -/
def upperCrossing (n : Slot) (pos : Nat) (d : Device) : Device :=
  let d := d.updSlot n fun s => { s with cmp := (if csPol d n then .below else .above), cmpMoved := true }
  if (d.slots[n]).xOn ∧ (d.slots[n]).blanked then xOff n 0 pos d else d

/-- The on-time ends saturated, with the open evidence of R194. -/
def saturated (n : Slot) (cmp : Cmp) (d : Device) : Device :=
  (xOff n 1 (posFine d n) d).updSlot n fun s => { s with cmp := cmp, cur := { s.cur with copen := decide (curCmp d n cmp = .below) } }

/-- TON_MAX_REACHED (R174, R176). -/
def tonMaxReached (n : Slot) (cmp : Cmp) (d : Device) : Device :=
  let s := d.slots[n]
  if s.xOn then saturated n cmp (waitUp (s.due + s.tonMax - 2 * s.m) d) else d

/-- ON_TIME_LIMIT (R168). -/
def onTimeLimit (n : Slot) (cmp : Cmp) (d : Device) : Device :=
  let s := d.slots[n]
  if s.xOn then saturated n cmp (waitUp (s.due - ((dtX d n + dtY d n + 15) / 16 + 8)) d) else d

/-- A turn-on that waited for the dead time after a late Y-off takes place (R170). -/
def xLate (n : Slot) (d : Device) : Device :=
  let d := if (d.slots[n]).yOn then yOffDue n d else d
  let e := max (d.slots[n]).xAt ((d.slots[n]).yOffAt + dtX d n)
  let d := waitUp (e / 16) d
  xRise n (max e (16 * d.up)) d

/-- DEAD_TIME_END: Y on DT_Y after X off, unless that falls at or after the Y-off instant (R174); or an X on that waited (R170). -/
def deadTimeEnd (n : Slot) (d : Device) : Device :=
  let s := d.slots[n]
  if s.xWait then xLate n d
  else if s.xWas ∧ s.xOn = false ∧ s.yOn = false ∧ s.yDone = false ∧ s.shedFrom = none ∧ slotBarred d n = false then
    let e := s.xOffAt + dtY d n
    let d := waitUp (e / 16) d
    let e := max e (16 * d.up)
    if e < yOffEdge d n then
      setY n true (d.updSlot n fun s => { s with yOn := true, yAt := e, yBlanked := false })
    else d.updSlot n fun s => { s with yDone := true }
  else d

/-- Y_OFF_COUNT (R174, R170). -/
def yOffCount (n : Slot) (d : Device) : Device :=
  if (d.slots[n]).running then yOffDue n d else d

/-- SLOPE_COMP_STEP (R187, R186): never below the lower threshold + 1 code. -/
def slopeStep (n : Slot) (d : Device) : Device :=
  match chanOf d n with
  | none => d
  | some c =>
    let s := d.slots[n]
    if s.xOn then
      let d := waitUp (s.xAt / 16 + 4 * (s.slopeN + 1)) d
      let u := upperBound d c n (if csPol d n then s.upper + slopeCode d c n else s.upper - slopeCode d c n)
      d.updSlot n fun s => { s with slopeN := s.slopeN + 1, upper := u }
    else d

/-! ### The capture reader (R197 to R201) -/

/-- A read of a phase's capture: the value returned. -/
def captureRead (s : SlotSt) : CapSet := if s.new then s.shadow else s.readable

/-- The capture registers as they stood before a capture event of this counter cycle, and that event's set (R199). -/
def beforeCapture (now : Nat) (s : SlotSt) : SlotSt × Option CapSet :=
  match s.capPrev with
  | some (t, sh, nw, oc, cnt) => if t = now then ({ s with shadow := sh, new := nw, overcap := oc, overcapCnt := cnt }, some s.shadow) else (s, none)
  | none => (s, none)

/-- The capture reader reads one member and updates its estimates (R197, R201). In a counter cycle the read comes first: a capture event of
the same cycle stays in the shadow with `NEW` set (R199). -/
def readMember (n : Slot) (d : Device) : Device :=
  d.updSlot n fun s0 =>
    let p := beforeCapture d.up s0
    let s := p.1
    let v := captureRead s
    let up := s.new && decide (v.cend = 0)
    let ton : Qty := (v.toff.toNat : Qty) - (s.ofs : Nat)
    { s with
      readable := v
      shadow := p.2.getD s.shadow
      new := p.2.isSome
      overcap := false
      ipkAvg := if up then s.ipkAvg + (codeCur d n v.ucode.toNat - s.ipkAvg) / 16 else s.ipkAvg
      tonAvg := if up then s.tonAvg + (ton - s.tonAvg) / 16 else s.tonAvg
      ipkUpd := if up then s.ipkUpd + 1 else s.ipkUpd }

/-- Mean of a quantity over a list, 0 for none. -/
def meanQ (l : List Qty) : Qty := if l = [] then 0 else l.sum / (l.length : Qty)

/-- CARRIER_PEAK of a channel master (R198). -/
def carrierPeak (c : Chan) (d : Device) : Device :=
  if (d.chans[c]).running then
    let d := waitUp ((d.chans[c]).due - (d.chans[c]).m) d
    let ms := members d c
    let d := forEach ms readMember d
    let mean := meanQ (ms.map fun n => (d.slots[n]).tonAvg)
    forEach ms (fun n d => d.updSlot n fun s => { s with balErr := satInt (qRound (s.tonAvg - mean)) (-32767) 32767 }) d
  else d

/-! ### Driver faults (R205, R449) -/

/-- DFLT_HIGH: pulses below 10 ns are ignored (R205); otherwise both outputs low, and a member is shed at once (R235). -/
def dfltHigh (n : Slot) (ns : Nat) (d : Device) : Device :=
  if ns < 10 then d
  else
    let d := (slotOff n d).updSlot n fun s => { s with dflt := true, dfltSeen := true }
    let d := raiseLevel (0x090 + n.1) 0 d
    match memberOf d n with
    | some c => shed 4 c n d
    | none => d

/-- DRIVER_FAULT_CLEARED: the source reads inactive and its quiet period starts. -/
def dfltCleared (n : Slot) (d : Device) : Device :=
  faultEnds (0x090 + n.1) (d.updSlot n fun s => { s with dflt := false })

/-! ### Threshold readback (R202 to R204) -/

/-- Comparator of a generator: 0 to 33 slots, 34 to 41 channels, 42 the source; even generators are upper (R202). -/
def rbSource (q : Quad) (g : Nat) : Nat :=
  let k := g / 2
  if k < 34 then 0x120 + (34 * q.1 + k) else if k < 42 then 0x380 + (8 * q.1 + (k - 34)) else 0x4AC + q.1

/-- READBACK_TEST_DONE: one generator is judged, and the comparator with it where it is a phase's. The states R204 expects are
those of the comparator's output, which CS_POL does not exchange (DEDUCED, log entry 182). -/
def readback (q : Quad) (v : Qty) (idle high : Cmp) (d : Device) : Device :=
  let s := d.quads[q]
  if s.rbBusy ∧ d.halt.phase = .quiet then
    let g := s.rbGen
    let t : Qty := if s.rbOdd then 768 else 256
    let off := (v - t * 3 / 1024) * 1024 / 3
    let bad := decide (off > 4 ∨ off < -4)
    let k := g / 2
    let wrong := decide (k < 34) && (decide (idle ≠ .between) || decide (high ≠ .above))
    let d := if k < 34 then d.updSlot (Fin.ofNat 136 (34 * q.1 + k)) fun x => { x with thrErr := x.thrErr || bad, cmpErr := x.cmpErr || wrong } else d
    let d := if bad ∨ wrong then raise (rbSource q g) d else d
    d.updQuad q fun s => { s with rbGen := (g + 1) % 86, rbOdd := if g = 85 then !s.rbOdd else s.rbOdd, rbBusy := decide (1 < s.rbLeft), rbLeft := s.rbLeft - 1 }
  else d

/-! ### Meanings -/

def execChannelLimitAbove (c : Chan) (cmp : Cmp) (s : State) : Host.Outcome State Fault Refusal := done (channelLimit c cmp) s
def execDfltHigh (n : Slot) (ns : Nat) (s : State) : Host.Outcome State Fault Refusal := done (dfltHigh n ns) s
def execDriverFaultCleared (n : Slot) (s : State) : Host.Outcome State Fault Refusal := done (dfltCleared n) s

end Sys2Proof.Machine
end

