-- ==== Sys2Proof/Machine/Channel.lean ====
section
/-! DEFINITION. Sys2Proof/Machine/Channel.lean: regulation of a channel (06): the loop step, soft start and stop, ramp factors, cuts, host stop. -/

namespace Sys2Proof.Machine

/-- The lower of `V_TARGET` and `NARROW_V` (R218). -/
def vTgtNow (d : Device) (c : Chan) : Qty :=
  let s := d.chans[c]
  if s.narrowVq = 0xFFFF#16 then vTargetCfg d c else min (vTargetCfg d c) ((s.narrowVq.toNat : Qty) / 32)

/-- V_target in force: taken over at each loop step (R218). -/
def vTgt (d : Device) (c : Chan) : Qty := ((d.chans[c]).tgt).getD (vTgtNow d c)

/-- A member is `CAPPED`, or has been since the last loop step (R219, R226). -/
def cappedNow (d : Device) (c : Chan) : Bool := (d.chans[c]).cappedHit || (members d c).any fun n => (d.slots[n]).capped

/-- Host narrowing of a current (R221); 0xFFFF is not narrowed. -/
def narrowed (d : Device) (c : Chan) (x : Qty) : Qty :=
  let s := d.chans[c]
  if s.narrowIq = 0xFFFF#16 then x else min x ((s.narrowIq.toNat : Qty) / 16)

/-- Capacity limit (R220). -/
def iCapacity (d : Device) (c : Chan) : Qty := ((members d c).map (slotCap d c)).sum * capAvg d c

/-- T_s of R216 in s and in sub-ticks. -/
def tStep : Qty := 512 / 10000000
def stepSub : Nat := 20480

/-- Mean on-time of the members in us (R217, R201). -/
def tOn (d : Device) (c : Chan) : Qty := meanQ ((members d c).map fun n => (d.slots[n]).tonAvg) / 6400

/-- What one loop step computes (R217). -/
structure LoopOut where
  iceil : Qty
  xv : Qty
  xi : Qty
  ireq : Qty
  icap : Qty
  icmd : Qty
  iv : Qty
  ibase : Qty
  iraw : Qty
  iadd : Qty
  deriving DecidableEq, Repr

/-- The pseudocode of R217 with the freezes of R219 and the stop ramp of R227. While the gate is open a failed string-current role is covered (R459),
and with the gate closed x_i is frozen in any case. -/
def loopCalc (d : Device) (c : Chan) (iramp : Option Qty) (istop : Option Qty) : LoopOut :=
  let s := d.chans[c]
  let iceil := narrowed d c (min (d.profs[c]).iprof s.bud)
  let ev := vTgt d c - s.v
  let iv := clampQ (kpv d c * ev + s.xv) 0 iceil
  let frozenV := s.headroom || decide ((iv = 0 ∧ ev < 0) ∨ (iv = iceil ∧ ev > 0))
  let xv := if frozenV then s.xv else clampQ (s.xv + kiv d c * ev * tStep) 0 iceil
  let ireq := match iramp with | some r => min (min iv iceil) r | none => min iv iceil
  let icap := iCapacity d c
  let icmd := match istop with | some r => min (min ireq icap) r | none => min ireq icap
  let ei := icmd - s.i
  let frozenI := s.headroom || !s.gate || halvedIn d c || decide (rampH d c < 1) ||
    (decide (ei > 0) && (cappedNow d c || s.termHit))
  let pc := piClamp d c
  let xi := if frozenI then s.xi else clampQ (s.xi + kii d c * ei * tStep) (-pc) pc
  let corr := clampQ (kpi d c * ei + xi) (-pc) pc
  let n : Qty := ((members d c).length : Qty)
  let share (i : Qty) : Qty := if isBoost d c then qdiv (i * s.v) (sysUse d (Chan.quad c) * n) else qdiv i n
  { iceil := iceil, xv := min xv icmd, xi := xi, ireq := ireq, icap := icap, icmd := icmd, iv := iv, ibase := share icmd, iraw := share (min ireq icap),
    iadd := slopeA d c * tOn d c + corr }

/-- `LIMIT_BY` (R241). Where terms are equal the ceiling's own term is named before the voltage loop, as the worked example of 06 has it
(log entry 24). -/
def limitBy (d : Device) (c : Chan) (o : LoopOut) (iramp istop : Option Qty) : BitVec 3 :=
  let s := d.chans[c]
  if (match istop with | some r => decide (r ≤ min o.ireq o.icap) | none => false) then 6
  else if o.icap < o.ireq then 5
  else if (match iramp with | some r => decide (r < min o.iv o.iceil) | none => false) then 4
  else if o.iv < o.iceil then 0
  else if (d.profs[c]).iprof = o.iceil then 1
  else if s.narrowIq ≠ 0xFFFF#16 ∧ (s.narrowIq.toNat : Qty) / 16 = o.iceil then 3
  else 2

/-- The cut of R238 at a loop step, with the event of its beginning. -/
def cutStep (c : Chan) (o : LoopOut) (d : Device) : Device :=
  let cut := max 0 (o.ireq - o.icap)
  let s := d.chans[c]
  let starts := decide (cut > 0) && !s.cutOpen
  let d := d.updChan c fun s => { s with
    cut := cut
    cutOpen := s.cutOpen || starts
    cutMax := if starts then cut else max s.cutMax cut
    cutZeroAt := if cut > 0 then none else if s.cutOpen ∧ s.cutZeroAt = none then some d.up else s.cutZeroAt }
  if starts then quadEvent (Chan.quad c) 0x0401 (c.1 + 65536 * unitsOf cut 16 16) (members d c).length 0 d else d

/-- Entry to START (R232, R226). `NO_MEMBER` is judged afresh here alone (log entry 27). -/
def enterStart (c : Chan) (d : Device) : Device :=
  enterCh c .start (d.updChan c fun s => { s with iramp := 0, ssTime := 0, ssRaised := false, ssOver := s.vSeen && decide (vTgt d c / 10 < s.v), noMember := false, zeroReq := 0, reloadReq := false })

/-- Entry to STOP with its cause (R227, R263). -/
def enterStop (c : Chan) (cause : BitVec 3) (d : Device) : Device :=
  let d := if cause = 1 then pauseProf c d else d
  enterCh c .stop (d.updChan c fun s => { s with istop := s.icmd, stopCause := cause, zeroReq := 0, reloadReq := false })

/-- STOP ends in OFF (R227, R230, R234). `ENABLE_PENDING` clears with it: the request it shows is then served from OFF (log entry 152). -/
def stopEnds (c : Chan) (d : Device) : Device :=
  enterCh c .off (d.updChan c fun s => { s with istop := 0, enablePending := false, reloadReq := false })

/-- A reload of the channel's region keeps it stopped until the re-arm (R472). -/
def reloadKeeps (d : Device) (c : Chan) : Bool :=
  let r := d.reload
  decide (3 ≤ r.st.toNat ∧ r.st.toNat ≤ 4) && (if r.quad then decide ((Chan.quad c).1 = r.obj.toNat) else decide (c.1 = r.obj.toNat))

/-- Moves of the state table at a loop step (R232). -/
def loopMoves (c : Chan) (o : LoopOut) (d : Device) : Device :=
  let s := d.chans[c]
  let zero := decide ((d.profs[c]).iprof = 0)
  let z := if zero then s.zeroReq + 1 else 0
  match s.st with
  | .off =>
    if s.restart then (if s.hostStopQ then d else d.updChan c fun s => { s with checking := true })
    else if !s.hostStopQ ∧ (d.paths[c]).st.present ∧ !zero ∧ members d c ≠ [] ∧ !s.rearmRefused ∧ !reloadKeeps d c then enterStart c d
    else d
  | .start =>
    if s.hostStopQ then enterStop c 1 d
    else if s.reloadReq then enterStop c 4 d
    else if spHold d c ≤ z then enterStop c 2 d
    else
      let d := d.updChan c fun s => { s with zeroReq := z }
      if min o.iv o.iceil ≤ s.iramp then enterCh c .regulate d else d
  | .regulate =>
    if s.hostStopQ then enterStop c 1 d
    else if s.reloadReq then enterStop c 4 d
    else if spHold d c ≤ z then enterStop c 2 d
    else d.updChan c fun s => { s with zeroReq := z }
  | .stop => if s.istop = 0 then stopEnds c d else d
  | .held => if s.holders = [] then (if (d.paths[c]).st = .absent then enterCh c .absent d else restartReq c (enterCh c .off d)) else d
  | .absent => if (d.paths[c]).st.present then restartReq c (enterCh c .off d) else d
  | .unarmed => d

/-- A halt freezes i_ramp and the soft-start timer from its ramp-down start to the end of its ramp-up (R230). -/
def haltFreeze (d : Device) : Bool := decide (d.halt.phase ≠ .idle)

/-- Rise of the soft-start ramp and of its timer at a loop step (R226, R228, R230). -/
def rampStep (c : Chan) (d : Device) : Device :=
  let s := d.chans[c]
  if s.st = .start then
    let halted := haltFreeze d
    let rise := !(cappedNow d c || s.termHit || halted || decide (rampH d c < 1))
    d.updChan c fun s => { s with
      iramp := if rise then s.iramp + ssStep d c else s.iramp
      ssTime := if s.gate && !halted then s.ssTime + stepSub else s.ssTime }
  else if s.st = .stop then d.updChan c fun s => { s with istop := max 0 (s.istop - spStep d c) }
  else d

/-- The soft-start timer has reached `SS_TMO` (R228): the timeout is raised where the string has not exceeded a tenth of V_target. -/
def softStartExpire (c : Chan) (d : Device) : Device :=
  let s := d.chans[c]
  let d := d.updChan c fun s => { s with ssRaised := true, ssTime := max s.ssTime (ssTmo d c) }
  if s.ssOver then d else raise (0x300 + c.1) d

/-- The soft-start timer is running (R228, R230). -/
def ssRuns (d : Device) (c : Chan) : Bool :=
  let s := d.chans[c]
  decide (s.st = .start) && s.gate && !s.ssRaised && !haltFreeze d

/-- A toggled channel's breaker latch is cleared: TRIPPED to WAIT, which counts as the grant of its source (R299, R308). -/
def untrip (c : Chan) (d : Device) : Device :=
  if (d.paths[c]).toggled then
    let d := d.updPath c fun p => { p with toggled := false }
    let f := 0x3E0 + c.1
    let d := d.updPath c fun p => { p with latched := false }
    if (d.paths[c]).st = .tripped then
      releaseHold f (grantRecord f (d.updPath c fun p => { p with st := .wait, presentAt := none, lowAt := none }))
    else if f ∈ (d.chans[c]).holders then releaseHold f (grantRecord f d)
    else d
  else d

/-- A collapse hold that has run ends at the loop step: the gate may open (R313). -/
def collapseOver (c : Chan) (d : Device) : Device :=
  d.updPath c fun p => { p with collapseAt := if p.holdOver then none else p.collapseAt, holdOver := false }

/-- A loop period ends: what it says of a member being CAPPED is held (R454). -/
def capShift (n : Slot) (d : Device) : Device := d.updSlot n fun s => { s with capLast := s.capHit || s.heldTo, capHit := false }

/-- A loop step (R216, R217): none before the first string-voltage result. V_target and the end of fast halving are taken over here (R218,
R223). -/
def loopStep (c : Chan) (d : Device) : Device :=
  if (d.chans[c]).vSeen = false then d
  else
    let d := d.updChan c fun s => { s with tgt := some (vTgtNow d c), halve := (d.quads[Chan.quad c]).halved, nMem := (members d c).length }
    let d := rampStep c (untrip c (collapseOver c d))
    let s := d.chans[c]
    let iramp := if s.st = .start then some s.iramp else none
    let istop := if s.st = .stop then some s.istop else none
    let o := loopCalc d c iramp istop
    let lb := limitBy d c o iramp istop
    let d := d.updChan c fun s => { s with iceil := o.iceil, xv := o.xv, xi := o.xi, icmd := o.icmd, ibase := o.ibase, iraw := o.iraw, iadd := o.iadd, imeas := s.i, limitBy := lb }
    let d := d.updChan c fun s => { s with ipk := loopPk d c }
    let d := cutStep c o d
    let d := loopMoves c o d
    let d := forEach (members d c) capShift (regate c (d.updChan c fun s => { s with cappedHit := false, termHit := false }))
    if ssRuns d c ∧ ssTmo d c ≤ (d.chans[c]).ssTime then softStartExpire c d else d

/-- Fold voltage (R189). -/
def vFold (d : Device) (c : Chan) : Qty := (vfoldPm d c : Qty) / 1000 * vTgt d c

/-- Folded cap for a string voltage (R190). -/
def foldedCap (d : Device) (c : Chan) (v : Qty) : Qty :=
  let f := vFold d c
  if v < 0 then phCap d c / 4
  else if f ≤ v then phCap d c
  else phCap d c * (1 / 4 + 3 / 4 * v / f)

/-- Folded cap and frequency fold at an OSR 512 result (R191, R192): the first string-voltage result ends the fold in force before it. `was`:
fold before the result. -/
def foldUpdate (was : Bool) (c : Chan) (d : Device) : Device :=
  let s := d.chans[c]
  let f := vFold d c
  let fold := if ffDiv d c = 0 ∨ ffDiv d c = 3 then false else if s.v < f / 4 then true else if s.v > f / 2 then false else was
  let d := d.updChan c fun s => { s with foldCap := foldedCap d c s.v, fold := fold }
  if fold = was then d else writeReload c (reloadIn d c) d

/-- Headroom (R214). Opening or closing it does not abandon a rest (R252). -/
def headroomUpdate (c : Chan) (d : Device) : Device :=
  let s := d.chans[c]
  let vs := sysUse d (Chan.quad c)
  let h := headroomH d c
  let hr :=
    if isBoost d c then (if s.v ≤ (1 + h) * vs then true else if s.v > (1 + 2 * h) * vs then false else s.headroom)
    else (if s.v ≥ (1 - h) * vs then true else if s.v < (1 - 2 * h) * vs then false else s.headroom)
  regate c (d.updChan c fun s => { s with headroom := hr })

/-- Ramp length t_r of the halt in sub-ticks (R158). -/
def trSub (d : Device) : Nat := d.halt.tr * (10 * us)

/-- Halt factor at this instant (R229, R156). -/
def haltFactor (d : Device) : Qty :=
  let e : Qty := ((d.loc - d.halt.phaseAt : Nat) : Qty)
  let t : Qty := (max 1 (trSub d) : Nat)
  match d.halt.phase with
  | .idle => 1
  | .rampDown => max 0 (1 - e / t)
  | .quiet => 0
  | .rampUp => min 1 (e / t)

/-- Pulse edge ramp r in sub-ticks (R245, `PE_RAMP`). -/
def peRamp (d : Device) (c : Chan) : Nat := orDefault (d.cf (0xB000 + 512 * profSel d c + 0x20) 24 8) 25 * (10 * us)

/-- Fraction of a ramp of length t begun at an instant. -/
def rampFrac (d : Device) (t0 t : Nat) : Qty := min 1 (((d.up - t0 : Nat) : Qty) / (max 1 t : Nat))

/-- Factor of the service ramp (R76). -/
def svcFactor (d : Device) : Qty := match d.button.rampAt with | some t => 1 - rampFrac d t (250 * us) | none => 1

/-- h and h_p of a channel (R76, R229, R249, R313). -/
def rampUpdate (c : Chan) (d : Device) : Device :=
  let hf := min (haltFactor d) (svcFactor d)
  let r := peRamp d c
  d.updChan c fun s => { s with
    h := match s.hUpAt with | some t => min hf (rampFrac d t (250 * us)) | none => hf
    hUpAt := match s.hUpAt with | some t => if d.up < t + 250 * us then some t else none | none => none
    hp := match s.hpDownAt with | some t => 1 - rampFrac d t r | none => (match s.hpUpAt with | some t => rampFrac d t r | none => s.hp)
    hpUpAt := match s.hpUpAt with | some t => if d.up < t + r then some t else none | none => none }

/-- RAMP_FACTOR_UPDATE: every 10 us; the ramp-up of a halt ends when its factor has reached 1 (R156, R229). -/
def rampFactorUpdate (d : Device) : Device :=
  let d := nextMultiple 0 (10 * us) d
  let d := forEach allChans rampUpdate d
  if d.halt.phase = .rampUp ∧ trSub d ≤ d.loc - d.halt.phaseAt then d.updHalt fun h => { h with phase := .idle, trFixed := false } else d

/-- SOFT_START_TIMEOUT (R228) at instant t. -/
def softStartTimeout (c : Chan) (t : Nat) (d : Device) : Device := if ssRuns d c then softStartExpire c (waitUp t d) else d

/-- Instant at which the running timer reaches `SS_TMO`. -/
def ssDue (c : Chan) (d : Device) : Nat := d.up + (ssTmo d c - (d.chans[c]).ssTime)

/-- CUT_END_TIMER (R238). -/
def cutEnd (c : Chan) (d : Device) : Device :=
  let s := d.chans[c]
  match s.cutOpen, s.cutZeroAt with
  | true, some t =>
    let d := waitUp (t + sec) d
    quadEvent (Chan.quad c) 0x0402 (c.1 + 65536 * unitsOf s.cutMax 16 16) (members d c).length 0
      (d.updChan c fun s => { s with cutOpen := false, cutZeroAt := none, cutMax := 0 })
  | _, _ => d

/-- `HOST_STOP` reaches the channel (R233, R234): while it keeps a channel in OFF its profile is paused (R263). A toggle also ends a breaker reaction,
in whatever state it found the switch, at the next loop step (R299, R308, R419). -/
def hostStopArrives (c : Chan) (v : Bool) (d : Device) : Device :=
  let was := (d.chans[c]).hostStopQ
  let d := d.updChan c fun s => { s with hostStopQ := v }
  if v then
    let d := if (d.chans[c]).st = .off ∨ (d.chans[c]).st = .stop then pauseProf c d else d
    if (d.chans[c]).enablePending then d.updChan c fun s => { s with enablePending := false, restart := false } else d
  else if was then
    let held := decide (0x3E0 + c.1 ∈ (d.chans[c]).holders)
    let d := d.updPath c fun p => { p with toggled := decide (p.st = .tripped) || p.latched || held }
    if (d.chans[c]).armed then restartReq c d else d
  else d

end Sys2Proof.Machine
end

