-- ==== Sys2Proof/Machine/Profile.lean ====
section
/-! DEFINITION. Sys2Proof/Machine/Profile.lean: charge profiles (07): requests, pulses and rests, estimates, charge phases, and the rest stagger. -/

namespace Sys2Proof.Machine

/-! ### PROFILE records (R245 to R247) -/
def pfb (p : Nat) : Nat := 0xB000 + 512 * p
def pfw (d : Device) (c : Chan) (off lo w : Nat) : Nat := d.cf (pfb (profSel d c) + off) lo w
def pulseEn (d : Device) (c : Chan) : Bool := pfw d c 0 0 1 = 1
def fVrec (d : Device) (c : Chan) : Nat := pfw d c 0x04 0 16
def fHrec (d : Device) (c : Chan) : Nat := pfw d c 0x04 16 16
def fVabs (d : Device) (c : Chan) : Nat := pfw d c 0x08 0 16
def fHabs (d : Device) (c : Chan) : Nat := pfw d c 0x08 16 16
def fVfin (d : Device) (c : Chan) : Nat := pfw d c 0x0C 0 16
def fHfin (d : Device) (c : Chan) : Nat := pfw d c 0x0C 16 16
def fVdone (d : Device) (c : Chan) : Nat := pfw d c 0x10 0 16
def fVresume (d : Device) (c : Chan) : Nat := pfw d c 0x10 16 16
def fVovp (d : Device) (c : Chan) : Nat := pfw d c 0x14 0 16
def iRec (d : Device) (c : Chan) : Qty := (pfw d c 0x18 0 16 : Qty) / 16
def iPulse (d : Device) (c : Chan) : Qty := (pfw d c 0x18 16 16 : Qty) / 16
def iFin (d : Device) (c : Chan) : Qty := (pfw d c 0x1C 0 16 : Qty) / 16
def aMin (d : Device) (c : Chan) : Qty := (orDefault (pfw d c 0x1C 16 10) 64 : Qty) / 1024
def tRest (d : Device) (c : Chan) : Nat := pfw d c 0x20 0 24 * (10 * us)
def tSamp (d : Device) (c : Chan) : Nat := pfw d c 0x24 0 16 * (100 * us)
def nAvg (d : Device) (c : Chan) : Nat := orDefault (pfw d c 0x24 16 5) 16
def dFloor (d : Device) (c : Chan) : Qty := (orDefault (pfw d c 0x28 0 16) 20 : Qty) / 10000
def iRestMax (d : Device) (c : Chan) : Qty := (orDefault (pfw d c 0x28 16 16) 16 : Qty) / 16
def nDone (d : Device) (c : Chan) : Nat := orDefault (pfw d c 0x2C 0 8) 3
def assessTries (d : Device) (c : Chan) : Nat := orDefault (pfw d c 0x2C 8 8) 8
def minute : Nat := 60 * sec
def tRecMax (d : Device) (c : Chan) : Nat := orDefault (pfw d c 0x30 0 16) 240 * minute
def tFinMax (d : Device) (c : Chan) : Nat := orDefault (pfw d c 0x30 16 16) 120 * minute
def tKeep (d : Device) (c : Chan) : Nat := orDefault (pfw d c 0x34 0 16) 1440 * minute
def iScale (d : Device) (c : Chan) : Qty := (orDefault (d.cf (chb c + 0x80) 0 10) 1024 : Qty) / 1024
/-- `STG_CFG` without its reserved bit (R3), and fields of a stagger word (R247). -/
def stgCfg (d : Device) : Nat := mword d.memory.conf 0xB1C0 % 2 ^ 31
def stgTp (w : Nat) : Nat := bitsOf w 0 16 * ms
def stgK (w : Nat) : Nat := orDefault (bitsOf w 16 5) 32
def stgBal (w : Nat) : Qty := (orDefault (bitsOf w 21 10) 128 : Qty) / 1024

/-- A target fraction in V (R244). -/
def fracV (d : Device) (c : Chan) (f : Nat) : Qty := (f : Qty) * vTgt d c / 32768

/-! ### The request (R242, R243) -/

/-- Request of the charge phase at g = 1. -/
def reqAt1 (d : Device) (c : Chan) : Qty :=
  match (d.profs[c]).phase with
  | .idle => 0
  | .assess => 0
  | .recover => iScale d c * iRec d c
  | .bulk => iScale d c * iPulse d c
  | .absorb => iScale d c * (d.profs[c]).amp * iPulse d c
  | .finish => iScale d c * iFin d c
  | .keep => 0

/-- The request of the charge phase now in force applies. -/
def applyReq (c : Chan) (d : Device) : Device := d.updProf c fun p => { p with req1 := reqAt1 d c }

/-- i_prof at a loop step: kept through a rest, zero in IDLE, ASSESS and KEEP, with the stagger gain in BULK and ABSORB (R242, R275). -/
def profNow (d : Device) (c : Chan) : Qty :=
  let p := d.profs[c]
  if p.inRest then p.iprof
  else
    match p.phase with
    | .idle => 0
    | .assess => 0
    | .keep => 0
    | .recover => p.req1
    | .finish => p.req1
    | .bulk => if pulseEn d c then p.req1 * (d.quads[Chan.quad c]).gain else p.req1
    | .absorb => if pulseEn d c then p.req1 * (d.quads[Chan.quad c]).gain else p.req1

def profUpdate (c : Chan) (d : Device) : Device := d.updProf c fun p => { p with iprof := profNow d c }

/-! ### Charge phases (R257 to R264) -/

/-- A member of the pulsed set (R272). -/
def isPulsed (d : Device) (c : Chan) : Bool :=
  let p := d.profs[c]
  (match p.phase with | .recover => true | .bulk => true | .absorb => true | .finish => true | _ => false) && pulseEn d c && !p.paused

def pulsedSet (d : Device) : List Chan := allChans.filter (isPulsed d)

/-- A channel that has joined the pulsed set takes no pulse before it holds a slot: its gate stays shut until then (R274). -/
def joinPulsed (c : Chan) (d : Device) : Device :=
  regate c ((d.updProf c fun p => { p with waitSlot := true, slot := none, joinEnd := none }).updChan c fun s =>
    { s with hp := 0, hpDownAt := none, hpUpAt := none })

/-- A channel outside the pulsed set waits for no slot. -/
def leavePulsed (c : Chan) (d : Device) : Device :=
  if (d.profs[c]).waitSlot then
    regate c ((d.updProf c fun p => { p with waitSlot := false, joinEnd := none }).updChan c fun s => { s with hp := 1, hpDownAt := none, hpUpAt := none })
  else d

/-- mV of a voltage, rounded, not negative. -/
def toMv (v : Qty) : Nat := unitsOf v 1000 24

/-- A move to a charge phase, with the action of its row in R257. -/
def movePhase (c : Chan) (ph : Phase) (cause : Nat) (v : Qty) (d : Device) : Device :=
  let was := isPulsed d c
  let d := (setPhase c ph cause (toMv v) d).updProf c fun p => { p with
    doneRun := if ph = .finish then 0 else p.doneRun
    keepAt := if ph = .keep then some d.up else none
    keepDue := false }
  let d := if (d.profs[c]).inRest then d else applyReq c d
  if isPulsed d c then (if was then d else joinPulsed c d) else leavePulsed c d

/-- Classification of a voltage (R259). -/
def classify (d : Device) (c : Chan) (v : Qty) : Phase :=
  if fracV d c (fVdone d c) ≤ v then .keep
  else if fracV d c (fVfin d c) ≤ v then .finish
  else if fracV d c (fVabs d c) ≤ v then .absorb
  else if fracV d c (fVrec d c + fHrec d c) ≤ v then .bulk
  else .recover

/-- The ABSORB amplitude of R243. -/
def ampOf (d : Device) (c : Chan) (v : Qty) : Qty :=
  let t := vTgt d c
  clampQ (qdiv (t - v) (t * (1 - (fVabs d c : Qty) / 32768))) (aMin d c) 1

/-- A voltage at or above `V_OVP` raises the source (R262). -/
def ovpCheck (c : Chan) (v : Qty) (d : Device) : Device := if fracV d c (fVovp d c) ≤ v then raise (0x340 + c.1) d else d

/-- Evaluation of an accepted estimate: at most one row of R257. A new amplitude of ABSORB applies from the next pulse (R243), also where the
evaluation ends after T_R (DESIGN CHOICE, log entry 161). -/
def estimateMove (c : Chan) (v : Qty) (d : Device) : Device :=
  let p := d.profs[c]
  let ge (f : Nat) : Bool := decide (fracV d c f ≤ v)
  match p.phase with
  | .recover => if ge (fVrec d c + fHrec d c) then movePhase c .bulk 1 v d else d
  | .bulk =>
    if ge (fVabs d c) then movePhase c .absorb 1 v (d.updProf c fun p => { p with amp := ampOf d c v })
    else if !ge (fVrec d c) then movePhase c .recover 1 v d else d
  | .absorb =>
    let d := d.updProf c fun p => { p with amp := ampOf d c v }
    if ge (fVfin d c) then movePhase c .finish 1 v d
    else if !ge (fVabs d c - fHabs d c) then movePhase c .bulk 1 v d
    else if p.inRest || pulseEn d c then d else applyReq c d
  | .finish =>
    let n := if ge (fVdone d c) then satInc8 p.doneRun else 0
    let d := d.updProf c fun p => { p with doneRun := n }
    if ge (fVdone d c) ∧ nDone d c ≤ n.toNat then movePhase c .keep 1 v d
    else if !ge (fVfin d c - fHfin d c) then movePhase c .absorb 1 v d else d
  | _ => d

/-- A halt qualifies when its conversion start (instant `at0`) lies at least T_R after the charge current last reached zero (R258, R266). -/
def qualifies (d : Device) (c : Chan) (at0 : Nat) : Bool :=
  let p := d.profs[c]
  if !p.carried then true
  else match p.zeroAt with
    | some z => decide (z + (if pulseEn d c then tRest d c else 0) ≤ at0)
    | none => false

/-- What a halt-locked reading does to the charge phase: ASSESS, storage checks and continuous profiles (R257, R261, R266). The tries of a storage
check count from 0 when it falls due (log entry 125). -/
def haltPhase (c : Chan) (at0 : Nat) (v i : Qty) (d : Device) : Device :=
  let p := d.profs[c]
  let dist := decide (iRestMax d c < |i|)
  let more := decide (p.assessTry.toNat + 1 < assessTries d c)
  if p.paused then d
  else
    match p.phase with
    | .idle => d
    | .assess =>
      if qualifies d c at0 then
        if dist && more then d.updProf c fun p => { p with assessTry := satInc8 p.assessTry }
        else movePhase c (classify d c v) 2 v (d.updProf c fun p => { p with assessDisturbed := dist })
      else d
    | .keep =>
      if p.keepDue && qualifies d c at0 then
        if dist && more then d.updProf c fun p => { p with assessTry := satInc8 p.assessTry }
        else
          let d := d.updProf c fun p => { p with keepDue := false, keepAt := some d.up, assessDisturbed := dist }
          if fracV d c (fVresume d c) ≤ v then d else movePhase c (classify d c v) 3 v d
      else d
    | _ =>
      if pulseEn d c then d
      else if dist then d.updProf c fun p => { p with disturbed := satInc p.disturbed }
      else estimateMove c v (ovpCheck c v (d.updProf c fun p => { p with unrelaxed := true, vLast := BitVec.ofNat 24 (toMv v) }))

/-- Halt-locked reading of a channel. In ASSESS and KEEP a reading at or above `V_OVP` raises the overvoltage source, whether or not it
moves the phase (R262). -/
def haltReading (c : Chan) (at0 : Nat) (v i : Qty) (d : Device) : Device :=
  let ph := (d.profs[c]).phase
  let d := haltPhase c at0 v i d
  if ph = .assess ∨ ph = .keep then ovpCheck c v d else d

/-! ### Pulses and rests (R249 to R256) -/

/-- Offset of a slot in sub-ticks (R272). -/
def slotOffset (d : Device) (w : Nat) (s : Nat) : Nat :=
  let tp := stgTp w / tick
  tick * (s * tp / stgK w + d.start.straps.cvnId.toNat * tp / (16 * stgK w))

/-- The first rest start of a slot under a stagger word, at an instant of local time or after it and at least half a pulse after the last rest, or after
the one in progress (R272, R274). -/
def restOf (d : Device) (c : Chan) (w lo : Nat) (s : Fin 32) : Option Nat :=
  let p := d.profs[c]
  let tp := stgTp w
  if tp = 0 then none
  else
    let o := slotOffset d w s.1 % tp
    let ended := if p.inRest then p.restLoc + tRest d c else p.restEndAt
    let lo := if p.waitSlot ∨ ended = 0 then lo else max lo (ended + (tp - tRest d c) / 2)
    some (o + (lo + tp - 1 - o) / tp * tp)

/-- Slot of a channel in a dealing. -/
def slotIn (l : List (Chan × Fin 32)) (c : Chan) : Option (Fin 32) := (l.find? fun x => decide (x.1 = c)).map (·.2)

/-- The first rest start of the channel not yet performed, in local sub-ticks (R272, R274). A step of local time does not move it (R130). Rests from
a coming frame start on are those of the dealing made for it (R273). -/
def nextRest (d : Device) (c : Chan) : Option Nat :=
  let p := d.profs[c]
  let old := p.slot.bind (restOf d c d.stg.cfg.toNat p.restFrom)
  match d.stg.dealFor with
  | none => old
  | some f =>
    if old.any (· < f) then old
    else (slotIn (d.stg.newDeal.getD d.stg.dealt) c).bind (restOf d c d.stg.newCfg.toNat (max f p.restFrom))

/-- PULSE_RAMP_DOWN: r before the rest start, in REGULATE (R249, R251). -/
def pulseRampDown (c : Chan) (d : Device) : Device :=
  match nextRest d c with
  | some t =>
    if isPulsed d c ∧ (d.chans[c]).st = .regulate ∧ (d.profs[c]).inRest = false ∧ (d.profs[c]).waitSlot = false ∧ (d.chans[c]).hpDownAt = none then
      let d := waitLoc (t - peRamp d c) d
      d.updChan c fun s => { s with hpDownAt := some d.up, hpUpAt := none }
    else d
  | none => d

/-- A rest start at this instant: a rest in REGULATE; elsewhere it is skipped and counted (R249, R251). A rest in progress goes on to its end (R274).
A channel that has left the pulsed set, or has not taken its first pulse, rests not (R274). -/
def restNow (c : Chan) (d : Device) : Device :=
  if (d.profs[c]).slot.isNone ∨ ((d.profs[c]).inRest ∧ (d.chans[c]).st = .regulate) then d
  else
    let d := d.updProf c fun p => { p with restLoc := if p.inRest then p.restLoc else d.loc, restFrom := d.loc + 1 }
    if (d.chans[c]).st ≠ .regulate then d.updProf c fun p => { p with skippedRests := satInc p.skippedRests }
    else if isPulsed d c ∧ (d.profs[c]).waitSlot = false then
      let d := d.updProf c fun p => { p with
        restAt := d.up, inRest := true, phBefore := p.phase, samples := [], winSum := 0, winN := 0, iMax := 0, evald := false }
      regate c (d.updChan c fun s => { s with hp := 0, hpDownAt := none, hpUpAt := none })
    else d

/-- REST_START: the launch of the channel's rest start falls due; one that a step of local time has passed is performed late (R25, R130). -/
def restStart (c : Chan) (d : Device) : Device :=
  match nextRest d c with
  | some t => restNow c (if t < d.loc then launchLate (quadIsland (Chan.quad c)) ⟨.restStart c, t⟩ (pass 1 d) else waitLoc t d)
  | none => d

/-- A corrected string-voltage result joins the open averaging window (R253); called at the instant the result completes. A quiet window has no
results (R256). -/
def restVolt (c : Chan) (v : Qty) (d : Device) : Device :=
  let p := d.profs[c]
  let k := p.samples.length
  let hi := p.restAt + (k + 1) * tSamp d c
  if p.inRest ∧ k < 3 ∧ d.halt.phase ≠ .quiet ∧ hi - nAvg d c * stepSub ≤ d.up ∧ d.up ≤ hi then
    d.updProf c fun p => { p with winSum := p.winSum + v, winN := p.winN + 1 }
  else d

/-- A string-current result between the rest start and 3 x t (R253). -/
def restCur (c : Chan) (i : Qty) (d : Device) : Device :=
  let p := d.profs[c]
  if p.inRest ∧ p.evald = false ∧ d.up ≤ p.restAt + 3 * tSamp d c then d.updProf c fun p => { p with iMax := max p.iMax |i| } else d

/-- REST_SAMPLE_END: sample k is the mean of its window; with fewer than N_AVG / 2 results, rounded up, it is missing (R253, R256). -/
def restSampleEnd (c : Chan) (d : Device) : Device :=
  let p := d.profs[c]
  let k := p.samples.length
  if p.inRest ∧ p.evald = false ∧ k < 3 then
    let d := waitUp (p.restAt + (k + 1) * tSamp d c) d
    let x : Option Qty := if p.winN < (nAvg d c + 1) / 2 then none else some (qdiv p.winSum p.winN)
    d.updProf c fun p => { p with samples := p.samples ++ [x], winSum := 0, winN := 0 }
  else d

/-- Estimate of R254: the voltage used and `VR_KIND`. -/
def estimate (flr v1 v2 v3 : Qty) : Qty × BitVec 2 :=
  let e := v1 + v3 - 2 * v2
  if v1 < v2 ∨ v2 < v3 then (v3, 2)
  else if e < flr then (v3, 1)
  else
    let f := v3 - qdiv ((v2 - v3) ^ 2) e
    if f < v3 - (v1 - v3) then (v3 - (v1 - v3), 3) else (f, 0)

/-- `VR_RATIO`: r in units of 1/256, 0 where the samples are not monotonic. -/
def decayRatio (v1 v2 v3 : Qty) : Byte :=
  if v1 < v2 ∨ v2 < v3 then 0 else BitVec.ofNat 8 (unitsOf (qdiv (v2 - v3) (v1 - v2)) 256 8)

/-- The REST record (R278, R376). Without an accepted estimate a missing sample and V-inf are 0 and `VR_KIND` is the last one (DESIGN CHOICE, log
entry 162). -/
def restRecord (c : Chan) (s : List (Option Qty)) (vinf : Qty) (out : Nat) (d : Device) : Device :=
  let p := d.profs[c]
  let mv (k : Nat) : List Byte := leBytes 3 (match s[k]? with | some (some v) => toMv v | _ => 0)
  chanRecord c (leBytes 1 3 ++ leBytes 1 c.1 ++ leBytes 1 (p.phBefore.code + 8 * p.phase.code + 64 * p.kind.toNat) ++ leBytes 1 out ++
    leBytes 8 (p.restLoc / tick) ++ mv 0 ++ mv 1 ++ mv 2 ++ leBytes 3 (toMv vinf) ++ leBytes 2 (unitsOf p.iMax 16 16) ++ leBytes 6 0) d

/-- REST_EVALUATION at 3 x t (R254 to R257). An incomplete rest leaves `VR_RATIO` as it is (DESIGN CHOICE, log entry 163). -/
def restEvaluation (c : Chan) (d : Device) : Device :=
  let p := d.profs[c]
  if p.samples.length = 3 ∧ p.evald = false then
    let d := (waitUp (p.restAt + 3 * tSamp d c) d).updProf c fun p => { p with evald := true }
    let dist := decide (iRestMax d c < p.iMax)
    match p.samples with
    | [some v1, some v2, some v3] =>
      if dist then restRecord c p.samples 0 1 (d.updProf c fun p => { p with disturbed := satInc p.disturbed, ratio := decayRatio v1 v2 v3 })
      else
        let e := estimate (dFloor d c) v1 v2 v3
        let d := d.updProf c fun p => { p with
          kind := e.2, unrelaxed := false, vLast := BitVec.ofNat 24 (toMv e.1), ratio := decayRatio v1 v2 v3
          fallback := if e.2 = 0 then p.fallback else satInc p.fallback }
        restRecord c p.samples e.1 0 (estimateMove c e.1 (ovpCheck c e.1 d))
    | _ =>
      restRecord c p.samples 0 (if dist then 3 else 2) (d.updProf c fun p => { p with
        incomplete := satInc p.incomplete, disturbed := if dist then satInc p.disturbed else p.disturbed })
  else d

/-- REST_END at T_R: the gate opens and h_p rises (R249); a joined channel takes its first pulse (R274). -/
def restEnd (c : Chan) (d : Device) : Device :=
  let p := d.profs[c]
  let ends : Option Nat := if p.inRest then some (p.restAt + tRest d c) else if p.waitSlot then p.joinEnd else none
  match ends with
  | some t =>
    let d := waitUp t d
    let d := d.updProf c fun p => { p with inRest := false, waitSlot := false, joinEnd := none, restEndAt := d.loc }
    regate c ((applyReq c d).updChan c fun s => { s with hp := 0, hpUpAt := some d.up, hpDownAt := none })
  | none => d

/-- Running time of the phase in force: only in START and REGULATE (R257). -/
def phaseTime (d : Device) (c : Chan) : Option Nat :=
  if (d.chans[c]).st = .start ∨ (d.chans[c]).st = .regulate then some ((d.profs[c]).phaseRun + (d.up - (d.profs[c]).phaseTick)) else none

/-- REC_TIMEOUT (R257). -/
def recTimeout (c : Chan) (d : Device) : Device :=
  match (d.profs[c]).phase, phaseTime d c with
  | .recover, some t =>
    if (d.profs[c]).timedOut then d
    else raise (0x320 + c.1) ((pass (tRecMax d c - t) d).updProf c fun p => { p with timedOut := true })
  | _, _ => d

/-- FIN_TIMEOUT (R257): KEEP, `FIN_TIMEOUT` and an event. -/
def finTimeout (c : Chan) (d : Device) : Device :=
  match (d.profs[c]).phase, phaseTime d c with
  | .finish, some t =>
    let d := (pass (tFinMax d c - t) d).updProf c fun p => { p with finTimeout := true }
    quadEvent (Chan.quad c) 0x0403 c.1 0 0 (movePhase c .keep 4 0 d)
  | _, _ => d

/-- KEEP_TIMER_EXPIRY (R257): a storage check is due at the next halt. -/
def keepTimer (c : Chan) (d : Device) : Device :=
  match (d.profs[c]).phase, (d.profs[c]).keepAt with
  | .keep, some t => (waitUp (t + tKeep d c) d).updProf c fun p => { p with keepDue := true, assessTry := 0 }
  | _, _ => d

/-! ### Rest stagger (R272 to R276) -/

/-- w(c) of R273. -/
def stgW (d : Device) (c : Chan) : Qty := (d.profs[c]).req1 * (d.chans[c]).v

/-- Insertion by w descending, ties to the lower channel. -/
def insertW (d : Device) (c : Chan) : List Chan → List Chan
  | [] => [c]
  | b :: bs => if stgW d b < stgW d c then c :: b :: bs else b :: insertW d c bs

/-- The dealing of R273. -/
def dealSlots (d : Device) (k : Nat) (set : List Chan) : List (Chan × Fin 32) :=
  let order := set.foldl (fun l c => insertW d c l) []
  let n := order.length
  let half := (n + 1) / 2
  (indexed 0 order).map fun ic =>
    let j := if ic.1 < half then 2 * ic.1 else 2 * (ic.1 - half) + 1
    (ic.2, Fin.ofNat 32 (j * k / n))

/-- STAGGER_DEAL, 3 ms before a frame start: anew only if the pulsed set or `STG_CFG` has changed (R273). -/
def staggerDeal (d : Device) : Device :=
  let w := stgCfg d
  let tp := stgTp w
  if d.start.st = .run ∧ d.stg.dealFor = none ∧ tp ≠ 0 then
    let f := (d.loc + 3 * ms + tp - 1) / tp * tp
    let d := waitLoc (f - 3 * ms) d
    let set := pulsedSet d
    let anew := decide (set ≠ d.stg.dealtSet) || decide (w ≠ d.stg.cfg.toNat)
    d.updStg fun s => { s with
      dealFor := some f, newCfg := BitVec.ofNat 32 w
      newDeal := if anew then some (dealSlots d (stgK w) set) else none
      dealtSet := set }
  else d

/-- First instant after a frame start at which a rest of a slot ends, in local sub-ticks: that rest may have begun before it (R274). -/
def firstRestEnd (d : Device) (c : Chan) (s f : Nat) : Nat :=
  let tp := stgTp d.stg.cfg.toNat
  let e := (slotOffset d d.stg.cfg.toNat s + tRest d c) % tp
  f + (if e = 0 then tp else e)

/-- A channel takes its slot of a dealing that takes effect at frame start f (R273, R274). -/
def takeSlot (d : Device) (deal : List (Chan × Fin 32)) (f : Nat) (c : Chan) (p : ProfSt) : ProfSt :=
  match slotIn deal c with
  | none => { p with slot := none, joinEnd := none }
  | some s => { p with
      slot := some s
      restFrom := if p.slot = some s then p.restFrom else f
      joinEnd := if p.waitSlot ∧ p.joinEnd = none then some (d.up + (firstRestEnd d c s.1 f - d.loc)) else p.joinEnd }

/-- STAGGER_FRAME_START: the dealing in force is that made for this frame start (R273, R274). A changed T_P or K gives every slot new rest
starts. -/
def staggerFrame (d : Device) : Device :=
  match d.stg.dealFor with
  | none => d
  | some f =>
    let d := waitLoc f d
    let deal := d.stg.newDeal.getD d.stg.dealt
    let same := decide (d.stg.newCfg = d.stg.cfg)
    let d := d.updStg fun s => { s with dealt := deal, newDeal := none, dealFor := none, cfg := s.newCfg }
    { d with profs := mapAll d.profs fun c p => takeSlot d deal f c (if same then p else { p with slot := none, joinEnd := none }) }

/-- A member in its class of R275: adjustable, exempt or left out; with h(c). -/
def stgClass (d : Device) (c : Chan) : Option (Bool × Qty) :=
  let s := d.chans[c]
  match s.st with
  | .start => some (false, min 1 (qdiv s.iramp (d.profs[c]).req1))
  | .regulate => some (decide ((d.profs[c]).phase = .bulk ∨ (d.profs[c]).phase = .absorb), s.hp)
  | _ => none

/-- The stagger gain of R275. -/
def stgGain (d : Device) : Qty :=
  let w := d.stg.cfg.toNat
  let tp : Qty := (stgTp w : Nat)
  let ms := (pulsedSet d).filterMap fun c => (stgClass d c).map fun k => (c, k)
  let target := (ms.map fun x => stgW d x.1 * qdiv (tp - (tRest d x.1 : Nat) - (peRamp d x.1 : Nat)) tp).sum
  let x := ((ms.filter fun x => !x.2.1).map fun x => stgW d x.1 * x.2.2).sum
  let e := ((ms.filter fun x => x.2.1).map fun x => stgW d x.1 * x.2.2).sum
  if e = 0 then 1 else clampQ (qdiv (target - x) e) (1 - stgBal w) (1 + stgBal w)

/-- STAGGER_GAIN_UPDATE: every 10 us, held over a halt (R275, R276), and sent to the four quadrants. -/
def staggerGain (d : Device) : Device :=
  let d := nextMultiple 3 (10 * us) d
  if d.halt.phase = .idle then
    let g := stgGain d
    forEach allQuads (fun q d => send (.toQd q) (.gain g) d) (d.updStg fun s => { s with gain := g })
  else d

/-! ### Meanings -/

end Sys2Proof.Machine
end

