-- ==== Sys2Proof/Machine/Check.lean ====
section
/-! DEFINITION. Sys2Proof/Machine/Check.lean: the consistency check (03, R112 to R117). A candidate is a device whose configuration in force is the
candidate's, with Newt's substitutions as its slots and modulators hold them (R446), and the channels and quadrants in use. -/

namespace Sys2Proof.Machine

/-- Outcome of a check: reason (0 accepted), object, address and record index (R116). -/
structure CheckRes where
  reason : Nat := 0
  obj : Nat := 0
  addr : Nat := 0
  delta : Nat := 0
  deriving DecidableEq, Repr

/-- A candidate. -/
structure Cand where
  x : Device
  ch : Chan → Bool
  qd : Quad → Bool

def Cand.chans (k : Cand) : List Chan := allChans.filter k.ch
/-- A channel in use has its quadrant in use (R67, R86). -/
def Cand.quadOn (k : Cand) (q : Quad) : Bool := k.qd q || k.chans.any fun c => decide (Chan.quad c = q)
def Cand.quads (k : Cand) : List Quad := allQuads.filter k.quadOn

/-! ### Slot assignment through the substitution table (R209, R446) -/

/-- `PH_CHAN` of a slot as the check reads it. -/
def assignMask (x : Device) (n : Slot) : Nat :=
  if isReplaced x n then 0
  else match (x.slots[n]).forCh with
    | some c => 2 ^ c.1
    | none => phChan x n

/-- A slot that the check counts as spare. -/
def spareRead (x : Device) (n : Slot) : Bool := isSpareSlot x n && !isReplaced x n && (x.slots[n]).repl.isNone

/-- Slots that the assignment rules judge. -/
def Cand.judged (k : Cand) : List Slot :=
  allSlots.filter fun n => k.chans.any (fun c => bitOf (assignMask k.x n) c.1) || (spareRead k.x n && k.quadOn (Slot.quad n))

def bitCount (x n : Nat) : Nat := ((List.range n).filter fun i => bitOf x i).length

/-- Slots assigned to a channel. -/
def Cand.slotsOf (k : Cand) (c : Chan) : List Slot := allSlots.filter fun n => bitOf (assignMask k.x n) c.1

def firstBad {α : Type} (l : List α) (bad : α → Bool) (num : α → Nat) : Option Nat := (l.find? bad).map num

def minOf : List Nat → Option Nat
  | [] => none
  | a :: l => some (l.foldl min a)

def rule01 (k : Cand) : Option Nat := firstBad k.judged (fun n => decide (1 < bitCount (assignMask k.x n) 32)) (·.1)
def rule02 (k : Cand) : Option Nat := firstBad k.chans (fun c => decide ((k.slotsOf c).length = 0 ∨ 16 < (k.slotsOf c).length)) (·.1)
def rule03 (k : Cand) : Option Nat :=
  firstBad k.judged (fun n => (List.range 32).any fun c => bitOf (assignMask k.x n) c && decide (c / 8 ≠ (Slot.quad n).1)) (·.1)
def rule04 (k : Cand) : Option Nat :=
  firstBad k.quads (fun q => decide (32 < (k.judged.filter fun n => decide (Slot.quad n = q) && decide (assignMask k.x n ≠ 0)).length)) (·.1)
def rule13 (k : Cand) : Option Nat := firstBad k.judged (fun n => spareRead k.x n && decide (assignMask k.x n ≠ 0)) (·.1)

/-! ### Curves and profiles (R117, R240, R248) -/

def cpI (x : Device) (k j : Nat) : Nat := x.cf (cvb k + 0x10 + 8 * j) 0 16
def cpT (x : Device) (k j : Nat) : Nat := mword x.memory.conf (cvb k + 0x14 + 8 * j)

/-- First point of a curve that breaks the rule: 0xC for the count, 0xF for the instantaneous level. -/
def curveBad (x : Device) (k : Nat) : Option Nat :=
  let n := cvN x k
  if n = 0 ∨ 12 < n then some 0xC
  else
    match (List.range n).find? fun j =>
      decide (cpT x k j < 100 ∨ 3600000000 < cpT x k j) || (decide (0 < j) && (decide (cpI x k j ≤ cpI x k (j - 1)) || decide (cpT x k (j - 1) ≤ cpT x k j))) with
    | some j => some j
    | none => if x.cf (cvb k + 4) 0 16 ≤ cpI x k (n - 1) then some 0xF else none

def rule05 (k : Cand) : Option Nat :=
  let used := (List.range 8).filter fun i => k.chans.any fun c => decide (curveSel k.x c = i)
  used.findSome? fun i => (curveBad k.x i).map fun j => 16 * i + j

def rule06 (k : Cand) : Option Nat :=
  firstBad k.chans (fun c =>
    let vt := k.x.cf (chb c + 4) 0 24
    let vc := k.x.cf (chb c + 8) 0 24
    decide (vc < vt) || decide (vc * 32768 < fVovp k.x c * vt)) (·.1)

/-- The order relations of R248, read through a channel that selects the profile. -/
def profOrdered (x : Device) (c : Chan) : Bool :=
  let rec0 : Int := fVrec x c + fHrec x c
  decide (0 < fVrec x c) && decide (rec0 ≤ (fVabs x c : Int) - fHabs x c) && decide ((fVabs x c : Int) ≤ (fVfin x c : Int) - fHfin x c) &&
    decide (fVfin x c < fVdone x c) && decide (fVdone x c ≤ 32768) && decide (rec0 ≤ fVresume x c) && decide (fVresume x c < fVdone x c) &&
    decide (32768 < fVovp x c) && decide (0 < iRec x c) && decide (iRec x c ≤ iPulse x c) && decide (iFin x c ≤ iPulse x c)

/-- The relations of a pulsed profile. -/
def profPulsed (x : Device) (c : Chan) : Bool :=
  decide (nAvg x c * stepSub ≤ tSamp x c) && decide (3 * tSamp x c ≤ tRest x c) && decide (tRest x c + 2 * peRamp x c + 10 * ms ≤ stgTp (stgCfg x))

def rule07 (k : Cand) : Option Nat :=
  minOf ((k.chans.filter fun c => !(profOrdered k.x c && (!pulseEn k.x c || profPulsed k.x c))).map (profSel k.x))

def rule15 (k : Cand) : Option Nat := if stgK (stgCfg k.x) < (k.chans.filter (pulseEn k.x)).length then some 0 else none

/-! ### Sequencer tables, rings (R347, R366) -/

def seqTables (k : Cand) : List Table := (List.finRange 5).filter fun t => decide (t.1 = 4) || (if h : t.1 < 4 then k.quadOn ⟨t.1, h⟩ else false)

def entryOn (w : Nat) : Bool := decide (1 ≤ bitsOf w 12 8) && decide (bitsOf w 0 7 ≤ 87)

/-- Enabled entries of a table (R345). -/
def enabledEntries (x : Device) (t : Table) : List (Fin 64) := (List.finRange 64).filter fun e => entryOn (sqWord0 x t e)

def rule08 (k : Cand) : Option Nat :=
  firstBad (seqTables k) (fun t => (enabledEntries k.x t).all fun e => bitOf (sqWord0 k.x t e) 7 && decide (bitsOf (sqWord1 k.x t e) 0 20 = 0)) (·.1)

def rule14 (k : Cand) : Option Nat :=
  let named (r : Ring) : Bool := (seqTables k).any fun t => (enabledEntries k.x t).any fun e => decide (bitsOf (sqWord0 k.x t e) 20 5 = r.1)
  firstBad (List.finRange 32) (fun r =>
    let b := rgBind k.x r
    named r && rgBindEn k.x r && (decide (32 ≤ b ∧ b ≤ 254) || (decide (b < 32) && !k.ch (Fin.ofNat 32 b)))) (·.1)

/-! ### Modulators (R331, R356) -/

/-- Role and object of a modulator as the check reads it: a spare carries those of the modulator it acts for, which has none. -/
def roleRead (x : Device) (m : Pm) : Nat × Nat :=
  match (x.mods[m]).acting with
  | some h => (pmRole x h, pmObj x h)
  | none => if allMods.any fun s => decide ((x.mods[s]).acting = some m) then (0, 0) else (pmRole x m, pmObj x m)

def isActing (x : Device) (m : Pm) : Bool := (x.mods[m]).acting.isSome

/-- Two roles that cannot stand twice in a quadrant. -/
def sameRole (a b : Nat × Nat) : Bool :=
  decide (a.1 = b.1) && decide (a.1 ≠ 0 ∧ a.1 ≠ 6 ∧ a.1 ≠ 7 ∧ a.1 < 8) && (if a.1 = 1 ∨ a.1 = 2 then decide (a.2 = b.2) else true)

/-- A modulator that breaks R331. -/
def modBad (x : Device) (m : Pm) : Bool :=
  let r := roleRead x m
  decide (8 ≤ r.1) || (decide (20 ≤ Pm.pos m) && !isActing x m && decide (r.1 ≠ 0)) ||
    (quadMods (Pm.quad m)).any fun j => decide (j < m) && sameRole (roleRead x j) r

def hasRole (x : Device) (q : Quad) (r : Nat) (o : Option Nat) : Bool :=
  (quadMods q).any fun m => decide ((roleRead x m).1 = r) && (match o with | some i => decide ((roleRead x m).2 = i) | none => true)

def rule09 (k : Cand) : Option Nat :=
  let ms := (k.quads.flatMap quadMods).filter (modBad k.x)
  let cs := k.chans.filter fun c => !(hasRole k.x (Chan.quad c) 1 (some (c.1 % 8)) && hasRole k.x (Chan.quad c) 2 (some (c.1 % 8)))
  let qs := k.quads.filter fun q => !([3, 4, 5, 6].all fun r => hasRole k.x q r none)
  minOf (ms.map (·.1) ++ cs.map (fun c => 0x100 + c.1) ++ qs.map (fun q => 0x140 + q.1))

/-- Coefficient limits of R356. -/
def coefOk (ofs : Int) (gain : Int) : Bool :=
  decide (|ofs| ≤ 21474560) && decide (1020054733 ≤ gain) && decide (gain ≤ 1127428915)

def rule12 (k : Cand) : Option Nat :=
  firstBad ((k.quads.flatMap quadMods).filter fun m => decide (Pm.pos m < 20) || isActing k.x m) (fun m =>
    let kd := calKind k.x m
    decide (kd = 3) || (decide (kd ≠ 0) && !coefOk (calOfs k.x m) (calGain k.x m))) (·.1)

/-! ### Halts, sources, gates, straps, service (R161, R322, R87) -/

/-- P in ms and W in units of 10 us, defaults selected (R161). -/
def haltCfg (x : Device) : Nat × Nat := (orDefault (x.cf 0x1004 0 16) 2000, orDefault (x.cf 0x1004 16 11) 400)

def rule0C (k : Cand) : Option Nat := if (haltCfg k.x).1 * 100 < 20 * (haltCfg k.x).2 then some 0 else none
def rule1F (k : Cand) : Option Nat :=
  let h := haltCfg k.x
  if 100 ≤ h.1 ∧ h.1 ≤ 60000 ∧ 100 ≤ h.2 ∧ h.2 ≤ 2000 then none else some 0
def rule0D (k : Cand) : Option Nat := firstBad k.quads (fun q => decide (iLim k.x q < sysRes k.x)) (·.1)
def rule16 (k : Cand) : Option Nat := firstBad k.quads (fun q => k.quads.any fun j => decide (j < q) && decide (sPrio k.x j = sPrio k.x q)) (·.1)
def slopeBad (w : Nat) : Bool := decide (w < 16 ∨ 16000 < w)
def rule17 (k : Cand) : Option Nat :=
  match firstBad k.chans (fun c => slopeBad (k.x.cf (ptb c + 8) 0 16)) (·.1) with
  | some o => some o
  | none => firstBad k.quads (fun q => slopeBad (k.x.cf (srb q + 20) 0 16)) (32 + ·.1)
def rule18 (k : Cand) : Option Nat := if k.x.loader.svcCmdEnable ∧ k.x.loader.serviceCode = 0 then some 0 else none

/-- Strapped role: 0 follower, 1 leader, 2 deputy (R87). -/
def strapRole (s : Straps) : Nat := if s.leader then 1 else if s.deputy then 2 else 0

def rule0F (k : Cand) : Option Nat :=
  let s := k.x.start.straps
  let w := mword k.x.memory.conf 0
  if bitOf w 4 ∧ bitsOf w 0 4 ≠ s.cvnId.toNat then some 1
  else if s.leader ∧ s.deputy then some 3
  else if bitsOf w 5 2 ≠ 3 ∧ bitsOf w 5 2 ≠ strapRole s then some 2
  else none

/-! ### Carriers and fold-back (R193, R213) -/

def rule10 (k : Cand) : Option Nat :=
  firstBad k.chans (fun c => decide (cmReload k.x c < if isBoost k.x c then 800 else 400)) (·.1)

/-- R193, over the member and tadpole slots of the channel: a shed slot is none of them (R182). -/
def foldBad (k : Cand) (c : Chan) : Bool :=
  let x := k.x
  let raw := x.cf (chb c + 0x54) 0 10
  let low (n : Slot) : Int := (codeOf x n (zcLevel x c) : Nat)
  decide (1 ≤ raw ∧ raw ≤ 49) || decide (900 < raw) || decide (ffDiv x c = 3) || decide (65535 < cmReload x c * 2 ^ ffDiv x c) ||
    decide (phCap x c = 0) ||
    ((k.slotsOf c).filter fun n => (x.slots[n]).shedFrom.isNone).any fun n =>
      decide (codeRaw x n (phCap x c) < 0 ∨ 1023 < codeRaw x n (phCap x c)) ||
        decide (beyond x n (codeOf x n (phCap x c / 4) : Nat) (low n) ≤ 2)

def rule11 (k : Cand) : Option Nat := firstBad k.chans (foldBad k) (·.1)

/-! ### Thermal models (R397) -/

def rising : List Qty → Bool
  | a :: b :: t => decide (a < b) && rising (b :: t)
  | _ => true

/-- A model, its type and its coolant channel break no rule of R397. -/
def modelOk (k : Cand) (m : Nat) : Bool :=
  let x := k.x
  let t := tmType x m
  let nR := x.cf (tyb t) 0 4
  let nE := x.cf (tyb t) 4 4
  let cl := 0x18010 + 8 * tmCl x m
  let cm := x.cf cl 1 7
  decide (0 < frRth x m 0 + frRth x m 1 + frRth x m 2 + frRth x m 3) &&
    ((List.range 4).all fun i => decide (frRth x m i = 0) || decide (100 ≤ mword x.memory.conf (tmb m + 0x14 + 8 * i))) &&
    decide (tDr x m < tTrip x m) && decide (tTrip x m ≤ 200) && decide (drMin x m ≤ 1) &&
    decide (1 ≤ nR ∧ nR ≤ 8) && rising ((rdsPts x t).map (·.1)) && ((rdsPts x t).all fun p => decide (0 < p.2)) &&
    (decide (136 ≤ m) || (decide (1 ≤ nE ∧ nE ≤ 8) && rising ((ePts x t 4).map (·.1)) && decide (0 < eVref x t))) &&
    (decide (x.cf cl 0 1 = 0) || (decide (cm < 88) && k.quadOn (Pm.quad (Fin.ofNat 88 cm)) && decide (pmRole x (Fin.ofNat 88 cm) = 7)))

def rule0E (k : Cand) : Option Nat :=
  let ms := k.judged.map (·.1) ++ k.chans.map (136 + ·.1) ++ k.quads.map (168 + ·.1)
  ms.find? fun m => !modelOk k m

/-! ### The three stages (R115) -/

/-- Content rules in the order of R115. -/
def contentRules : List (Nat × (Cand → Option Nat)) :=
  [(0x01, rule01), (0x02, rule02), (0x03, rule03), (0x04, rule04), (0x05, rule05), (0x06, rule06), (0x07, rule07), (0x08, rule08)] ++
  [(0x09, rule09), (0x0C, rule0C), (0x0D, rule0D), (0x0E, rule0E), (0x0F, rule0F), (0x10, rule10), (0x11, rule11), (0x12, rule12)] ++
  [(0x13, rule13), (0x14, rule14), (0x15, rule15), (0x16, rule16), (0x17, rule17), (0x18, rule18), (0x1F, rule1F)]

def checkContent (k : Cand) : CheckRes :=
  match contentRules.findSome? fun r => (r.2 k).map fun o => (r.1, o) with
  | some (r, o) => { reason := r, obj := o }
  | none => {}

/-- Overlay indices in ascending order. -/
def ovlIdx (l : List Ovl) : List Ovl := (List.range 16).filterMap (findOvl l)

/-- First record of the lowest overlay that a rule refuses. -/
def recFault (code : Nat) (l : List Ovl) (bad : Nat × Nat → Bool) : Option CheckRes :=
  (ovlIdx l).findSome? fun o =>
    (o.recs.zipIdx.find? fun p => bad p.1).map fun p => { reason := code, obj := o.idx, addr := dAddr p.1.1, delta := p.2 }

/-- Composition rules for overlay k, in the order of R115. -/
def checkCompose (base : Memory) (l : List Ovl) (k : Nat) : Option CheckRes :=
  if k ≠ 0 ∧ (findOvl l k).isNone then some { reason := 0x0B, obj := k }
  else match (ovlIdx l).find? fun o => chainBad l 17 [] o.idx with
    | some o => some { reason := 0x1A, obj := o.idx }
    | none =>
      match recFault 0x1C l malformed with
      | some r => some r
      | none =>
        match recFault 0x0A l (writesLocked base) with
        | some r => some r
        | none => if 88960 < (l.map fun o => 16 + 8 * o.recs.length).sum + 8 * (chainRecs l k).length then some { reason := 0x19, obj := k } else none

/-- The check of a candidate composition: structure given by the caller, composition of overlay k, content (R115). -/
def checkAll (struct : Option CheckRes) (base : Memory) (l : List Ovl) (ovl : Nat) (x : Device) (ch : Chan → Bool) (qd : Quad → Bool) : CheckRes :=
  match struct with
  | some r => r
  | none =>
    match checkCompose base l ovl with
    | some r => r
    | none => checkContent ⟨x.updMem fun m => { m with conf := composeMem base l ovl }, ch, qd⟩

/-- Structure stage of the loaded image (R83). -/
def structOf (d : Device) : Option CheckRes := d.loader.dirBad.map fun i => { reason := 0x1B, obj := i }

/-- `CHECK_DETAIL` takes the outcome of every check (R116). -/
def setDetail (trig : Nat) (r : CheckRes) (d : Device) : Device :=
  d.updCheck fun c => { c with
    detReason := BitVec.ofNat 8 r.reason, detTrigger := BitVec.ofNat 4 trig, detObject := BitVec.ofNat 12 r.obj
    detAddr := BitVec.ofNat 20 r.addr, detDelta := BitVec.ofNat 12 r.delta }

/-- A refusal in RUN: event 0x0201 with trigger, reason, object and address, and the alert of a check refused (R119, R515). The
spec names the values; their places in the data words are of log entry 12. -/
def refusedInRun (trig : Nat) (r : CheckRes) (d : Device) : Device :=
  if r.reason ≠ 0 ∧ d.start.st = .run then alertSet 6 (logEvent 0x0201 (trig + 256 * r.reason + 65536 * r.obj) r.addr 0 d) else d

/-- `START_CHECK` of R68. -/
def setStartCheck (trig : Nat) (r : CheckRes) (d : Device) : Device :=
  d.updCheck fun c => { c with reason := BitVec.ofNat 8 r.reason, done := true, object := BitVec.ofNat 12 r.obj, trigger := BitVec.ofNat 4 trig }

/-- Channels and quadrants armed at this instant. -/
def armedCh (d : Device) : Chan → Bool := fun c => (d.chans[c]).armed
def armedQd (d : Device) : Quad → Bool := fun q => (d.quads[q]).armed

/-- The check of an overlay over what is armed. -/
def checkOverlay (d : Device) (k : Nat) : CheckRes := checkAll (structOf d) d.loader.base d.loader.ovls k d (armedCh d) (armedQd d)

end Sys2Proof.Machine
end

