-- ==== Sys2Proof/Machine/Approx.lean ====
section
/-! DEFINITION. Sys2Proof/Machine/Approx.lean: exp and ln of R306, R307 and R381 on rationals, by series, with an error below 2^-40 relative
(DESIGN CHOICE, log entry 8: the manual gives no precision). -/

namespace Sys2Proof.Machine

/-- Rounded to a multiple of 2^-60. -/
def q60 (x : Qty) : Qty := (qRound (x * 2 ^ 60) : Qty) / 2 ^ 60

/-- Sum of f^k / k! for the terms k .. k + n. -/
def expTerms : Nat → Nat → Qty → Qty → Qty
  | 0, _, _, t => t
  | n + 1, k, f, t => t + expTerms n (k + 1) f (q60 (t * f / (k + 1 : Nat)))

/-- e and ln 2. -/
def qE : Qty := 2718281828459045235360287 / 10 ^ 24
def qLn2 : Qty := 693147180559945309417232 / 10 ^ 24

/-- Power with an exponent in 0 .. 127. -/
def powQ (x : Qty) (n : Nat) : Qty := x ^ n

/-- exp of a rational; 0 below -80, and e^80 from 80 on. -/
def expQ (x : Qty) : Qty :=
  if x < -80 then 0
  else
    let y := min x 80
    let n := y.floor
    let f := expTerms 18 0 (y - (n : Qty)) 1
    if n < 0 then f / q60 (powQ qE n.natAbs) else f * q60 (powQ qE n.natAbs)

/-- x scaled into 1 .. 2 by halvings or doublings: the scaled value and the exponent. -/
def scale2 : Nat → Qty → Int → Qty × Int
  | 0, x, k => (x, k)
  | n + 1, x, k => if 2 ≤ x then scale2 n (x / 2) (k + 1) else if x < 1 then scale2 n (2 * x) (k - 1) else (x, k)

/-- Sum of z^(2k+1) / (2k+1), n terms from k. -/
def atanhTerms : Nat → Nat → Qty → Qty → Qty
  | 0, _, _, _ => 0
  | n + 1, k, z2, t => t / (2 * k + 1 : Nat) + atanhTerms n (k + 1) z2 (q60 (t * z2))

/-- ln of a positive rational. -/
def lnQ (x : Qty) : Qty :=
  let s := scale2 128 x 0
  let z := (s.1 - 1) / (s.1 + 1)
  2 * atanhTerms 24 0 (z ^ 2) z + (s.2 : Qty) * qLn2

end Sys2Proof.Machine
end

