-- ==== Sys2Proof/Machine/Path.lean ====
section
/-! DEFINITION. Sys2Proof/Machine/Path.lean: path switches and breakers (08, R298 to R316): gate reference, regulation, insertion, breaker, removal. -/

namespace Sys2Proof.Machine

/-! ### SYS (R284) -/

/-- The quadrant's own SYS result is fresh: at most 1 ms old. -/
def ownFresh (d : Device) (q : Quad) : Bool := match (d.quads[q]).sysAt with | some t => decide (d.up ≤ t + ms) | none => false
/-- The quadrant's SYS result that housekeeping has is fresh. -/
def hkFresh (d : Device) (q : Quad) : Bool := match (d.quads[q]).hkAt with | some t => decide (d.up ≤ t + ms) | none => false
def anyFresh (d : Device) : Bool := allQuads.any fun q => (d.quads[q]).armed && hkFresh d q
/-- SYS value of a quadrant's controllers, none while stale. -/
def freshSys (d : Device) (q : Quad) : Option Qty :=
  if ownFresh d q then some (d.quads[q]).sysVal else if anyFresh d then some d.bus.vSys else none

/-- `SYS_STALE` and the last fresh value received, for every armed quadrant; one that is not armed reads 0 (DESIGN CHOICE, log entry 167). -/
def staleUpdate (d : Device) : Device :=
  { d with quads := mapAll d.quads fun q s =>
      if s.armed then { s with stale := (freshSys d q).isNone, sysHeld := (freshSys d q).getD s.sysHeld } else s }

/-! ### Gate reference (R299) -/

/-- Time in sub-ticks of a ramp of dv at a slope in V/ms. -/
def rampTime (dv slope : Qty) : Nat := (qdiv dv slope * (ms : Nat)).ceil.toNat

/-- The reference at this instant. -/
def gateNow (d : Device) (c : Chan) : Qty :=
  let p := d.paths[c]
  let dv := pgSlope d c * ((d.up - p.gAt : Nat) : Qty) / (ms : Nat)
  if p.toFull then min (pgFull d c) (p.g + dv)
  else if p.st = .gtest then min (pgTest d c) (p.g + dv)
  else if p.falling then max 0 (p.g - dv)
  else p.g

/-- A step of the reference by regulation, and the gate check it begins or ends (R290, R300). -/
def gateStep (c : Chan) (g : Qty) (d : Device) : Device :=
  d.updPath c fun p =>
    let hi := decide (pgTest d c ≤ g)
    { p with
      g := g, gAt := d.up, falling := false
      zeroAt := if g = 0 ∧ p.g ≠ 0 then d.up else p.zeroAt
      checkAt := if hi then (match p.checkAt with | some t => some t | none => some d.up) else none
      passed := if hi then (match p.checkAt with | some _ => p.passed | none => p.fbHigh) else false }

/-- The regulation step of R290: the new reference and e. -/
def regulate (g vin vsys vfwd kg slope full : Qty) : Qty × Qty :=
  let e := vin - vsys - vfwd
  let s := slope * (512 / 10000)
  (clampQ (clampQ (g + kg * e * (512 / 10000)) (g - s) (g + s)) 0 full, e)

/-- A path switch regulates at a string-voltage result. -/
def pathRegulate (c : Chan) (vs : Qty) (d : Device) : Device :=
  let r := regulate (gateNow d c) (d.chans[c]).v vs (vFwd d c) (pKg d c) (pgSlope d c) (pgFull d c)
  let d := gateStep c r.1 d
  match (d.paths[c]).st with
  | .ramp => if r.2 ≤ 0 then d.updPath c fun p => { p with st := .diode } else d
  | .diode => if r.1 = 0 then pathZero c .block d else d
  | _ => d

/-- The bus calls for every string (R299, R303). -/
def BusState.strings : BusState → Bool
  | .handover => true
  | .onStrings => true
  | _ => false

/-- RAMP towards `PG_FULL` from the present reference (R299), with the check begun at the first instant at `PG_TEST` (R300). -/
def startFull (c : Chan) (d : Device) : Device :=
  let g := gateNow d c
  let t := pgTest d c
  d.updPath c fun p => { p with
    st := .ramp, toFull := true, falling := false, g := g, gAt := d.up, lowAt := none
    checkAt := if t ≤ g then (match p.checkAt with | some x => some x | none => some d.up)
      else if t ≤ pgFull d c then some (d.up + rampTime (t - g) (pgSlope d c)) else none
    passed := if t ≤ g ∧ p.checkAt.isSome then p.passed else false }

/-- Conduction called for (R298). -/
def called (d : Device) (c : Chan) (vs : Qty) : Bool :=
  let s := d.chans[c]
  let q := d.quads[Chan.quad c]
  !(s.gate && decide (s.icmd > 0)) && !q.stale &&
    (match q.bus with
     | .sourced => !standby d c && decide (vFwd d c < s.v - vs)
     | .ret => !standby d c && decide (vFwd d c < s.v - vs)
     | .handover => decide (vs ≤ s.v)
     | .onStrings => decide (vs ≤ s.v)
     | .beforeRun => false)

/-- A switch in BLOCK takes its RAMP row (R299). -/
def tryConduct (c : Chan) (d : Device) : Device :=
  match freshSys d (Chan.quad c) with
  | none => d
  | some vs =>
    if (d.paths[c]).st = .block ∧ called d c vs then
      match (d.quads[Chan.quad c]).bus with
      | .handover => startFull c d
      | .onStrings => startFull c d
      | _ => pathRegulate c vs (d.updPath c fun p => { p with st := .ramp, g := gateNow d c, gAt := d.up, falling := false, lowAt := none })
    else d

/-! ### Presence, insertion, removal (R311 to R315) -/

/-- WAIT to GTEST (R299): after presence, with `BRK_H` below 0.5, no latch and a fresh SYS value. -/
def tryInsert (c : Chan) (d : Device) : Device :=
  let p := d.paths[c]
  match p.st, p.presentAt with
  | .wait, some t =>
    if t + 50 * ms ≤ d.up ∧ roleLost d (vstrOf d c) = false then
      let d := d.updPath c fun p => { p with wasPresent := true }
      if p.hmem < 1 / 2 ∧ p.latched = false ∧ (d.quads[Chan.quad c]).stale = false then
        d.updPath c fun p => { p with st := .gtest, g := 0, gAt := d.up, checkAt := none, passed := false, lowAt := none }
      else d
    else d
  | _, _ => d

/-- Presence and low-string timing at a string-voltage result (R299, R311). -/
def presence (c : Chan) (d : Device) : Device :=
  let low := decide ((d.chans[c]).v < vPres d c)
  match (d.paths[c]).st with
  | .wait => tryInsert c (d.updPath c fun p => { p with
      presentAt := if low then none else (match p.presentAt with | some t => some t | none => some d.up)
      lowAt := if low then (match p.lowAt with | some t => some t | none => some d.up) else none })
  | .block => d.updPath c fun p => { p with lowAt := if low then (match p.lowAt with | some t => some t | none => some d.up) else none }
  | _ => d

/-- GTEST to BLOCK: insertion complete (R299). An absent channel goes to OFF with a restart request at its next loop step (R232). -/
def inserted (c : Chan) (d : Device) : Device := (pathZero c .block d).updPath c fun p => { p with lowAt := none }

/-- The string is declared absent (R299, R313). Every entry raises the string-removed source, but one from a WAIT in which no string has been
present; an overvoltage raises its own source too (log entry 126). -/
def declareAbsent (c : Chan) (ovw : Bool) (d : Device) : Device :=
  let p := d.paths[c]
  let quiet := decide (p.st = .wait) && !p.wasPresent
  let d := (pathZero c .absent d).updPath c fun p => { p with
    retryAt := some (d.up + tRetry d c), presentAt := none, collapseAt := none, holdOver := false, ovwHit := p.ovwHit || ovw, wasPresent := false }
  let st := (d.chans[c]).st
  let d := if st = .held ∨ st = .unarmed then d
    else pauseProf c (enterCh c .absent (d.updChan c fun s => { s with icmd := 0, ibase := 0, iadd := 0, iramp := 0, istop := 0, xi := 0, xv := 0, stopCause := 5 }))
  let d := if quiet then d else raise (0x440 + c.1) d
  if ovw then raise (0x460 + c.1) d else d

/-- RETRY_TIMER_EXPIRY (R315). -/
def retryTimer (c : Chan) (d : Device) : Device :=
  match (d.paths[c]).st, (d.paths[c]).retryAt with
  | .absent, some t =>
    (waitUp t d).updPath c fun p => { p with st := .wait, retryAt := none, presentAt := none, lowAt := none, wasPresent := false }
  | _, _ => d

/-- PRESENCE_CONFIRMED (R311). -/
def presenceConfirmed (c : Chan) (d : Device) : Device :=
  match (d.paths[c]).st, (d.paths[c]).presentAt with
  | .wait, some t => tryInsert c (waitUp (t + 50 * ms) d)
  | _, _ => d

/-- STRING_LOW_TIMEOUT (R299). -/
def stringLow (c : Chan) (d : Device) : Device :=
  let p := d.paths[c]
  match p.lowAt with
  | some t => if p.st = .wait ∨ p.st = .block then declareAbsent c false (waitUp (t + 50 * ms) d) else d
  | none => d

/-- COLLAPSE_DETECTED (R312): in REGULATE with the gate open, h = 1, no halving, and the last current at least 16 codes above `IREV_CODE`. -/
def collapseDetected (c : Chan) (d : Device) : Device :=
  let s := d.chans[c]
  let fs := match istrOf d c with | some m => fsA d m | none => 0
  if s.st = .regulate ∧ s.gate ∧ rampH d c = 1 ∧ halvedIn d c = false ∧ fs ≠ 0 ∧
      (irevCode d c : Int) + 16 ≤ cmpCode fs s.i ∧ (d.paths[c]).collapseAt = none then
    regate c (d.updPath c fun p => { p with collapseAt := some d.up, holdOver := false, vc := s.v })
  else d

/-- COLLAPSE_HOLD_END (R313): the gate reopens at the next loop step, and the ramp factor rises from 0, from the end of the hold on (DEDUCED, log entry
176). -/
def collapseEnd (c : Chan) (d : Device) : Device :=
  match (d.paths[c]).collapseAt with
  | some t =>
    if (d.paths[c]).holdOver then d
    else
      let d := (waitUp (t + 2 * ms) d).updPath c fun p => { p with holdOver := true }
      d.updChan c fun s => { s with h := 0, hUpAt := some d.up }
  | none => d

/-- States of a switch in which a removal is declared (R299). -/
def PsState.removable : PsState → Bool
  | .wait => true | .norise => true | s => s.tripRow

/-- Removal found within the collapse hold (R313). -/
def collapseJudge (c : Chan) (d : Device) : Device :=
  let p := d.paths[c]
  let v := (d.chans[c]).v
  if p.collapseAt.isNone ∨ p.holdOver ∨ p.st.removable = false then d
  else if vOvw d c ≤ v then declareAbsent c true d
  else if p.vc + vRise d c ≤ v then declareAbsent c false d
  else d

/-! ### Reverse, stuck on (R301, R316) -/

/-- The reverse condition (R301). -/
def reverse (d : Device) (c : Chan) : Bool :=
  decide ((d.chans[c]).v < sysUse d (Chan.quad c) - vFwd d c) || (!(d.chans[c]).gate && decide (iPrev d c < (d.chans[c]).i))

/-- The reverse condition is evaluated at every result and acts on a conducting switch (R301). -/
def reverseAct (c : Chan) (d : Device) : Device :=
  let st := (d.paths[c]).st
  if reverse d c ∧ (st = .ramp ∨ st = .diode ∨ st = .full) then
    (pathZero c .block d).updPath c fun p => { p with revCnt := satInc p.revCnt }
  else d

/-- Start of an interval during which a condition holds. -/
def heldSince (now : Nat) (on : Bool) (t : Option Nat) : Option Nat := if on then (match t with | some x => some x | none => some now) else none

/-- The two evidences of a switch stuck on, and since when (R316). The 100 ms of an evidence count once the reference has been at 0 V for 10 ms (DEDUCED,
log entry 177). -/
def stuckTrack (c : Chan) (d : Device) : Device :=
  let p := d.paths[c]
  let s := d.chans[c]
  let vs := sysUse d (Chan.quad c)
  let zero := decide (gateNow d c = 0) && decide (p.st ≠ .gtest) && !p.toFull && decide (p.zeroAt + 10 * ms ≤ d.up)
  let shut := !s.gate && (match (d.profs[c]).zeroAt with | some z => decide (z + 10 * ms ≤ d.up) | none => true)
  let ev1 := shut && decide (iStuck d c < |s.i|) && (!isBoost d c || decide (vs < s.v - vFwd d c))
  let ev2 := decide (p.st = .absent) && decide (vPres d c ≤ d.bus.vSys) && decide (|s.v - vs| ≤ vs / 100)
  let may := zero && decide (p.st ≠ .stuck) && decide (p.st ≠ .unarmed)
  d.updPath c fun p => { p with stuckSince := heldSince d.up (may && ev1) p.stuckSince, stuckSinceB := heldSince d.up (may && ev2) p.stuckSinceB }

/-- The earlier of two instants that may be set. -/
def firstOf : Option Nat → Option Nat → Option Nat
  | some a, some b => some (min a b)
  | some a, none => some a
  | none, b => b

/-- STUCK_ON_TIMEOUT: either evidence has held for 100 ms (R316). -/
def stuckOn (c : Chan) (d : Device) : Device :=
  match firstOf (d.paths[c]).stuckSince (d.paths[c]).stuckSinceB with
  | some t =>
    let d := waitUp (t + 100 * ms) d
    raise (0x400 + c.1) ((pathZero c .stuck d).updPath c fun p => { p with stuckSince := none, stuckSinceB := none, retryAt := none })
  | none => d

/-! ### Breaker (R305 to R309) -/

/-- Trip time t(I) of R306 in s, on a curve's points. -/
def tripTime : List (Qty × Qty) → Qty → Qty
  | [], _ => 0
  | [p], _ => p.2
  | p :: q :: r, i =>
    if i < q.1 then p.2 * expQ (qdiv (lnQ (qdiv q.2 p.2)) (lnQ (qdiv q.1 p.1)) * lnQ (qdiv i p.1)) else tripTime (q :: r) i

/-- Thermal memory after T s at current i (R307), saturating at 2. -/
def thermalMem (pts : List (Qty × Qty)) (tau h i t : Qty) : Qty :=
  match pts with
  | [] => h * expQ (-(qdiv t tau))
  | p :: _ => min 2 (if p.1 ≤ i then h + qdiv t (tripTime pts i) else h * expQ (-(qdiv t tau)))

/-- A breaker trip (R307): latched until toggled. -/
def trip (c : Chan) (inst : Bool) (d : Device) : Device :=
  if (d.paths[c]).st.tripRow then raise (0x3E0 + c.1) (pathTrip c inst (!inst) d) else d

/-- The breaker at a string-current result (R305, R307). A quiet window has no results for it: the next one charges its full length. -/
def breaker (c : Chan) (d : Device) : Device :=
  let p := d.paths[c]
  if p.st = .unarmed ∨ d.halt.phase = .quiet then d
  else
    let k := curveSel d c
    let i := (d.chans[c]).i
    let ib := if brkBoth d c then |i| else max 0 (-i)
    let t : Qty := ((d.up - p.hAt : Nat) : Qty) / (sec : Nat)
    let h := q60 (thermalMem (cvPoints d k) (tauCool d k) p.hmem ib t)
    let d := d.updPath c fun p => { p with hmem := h, hAt := d.up }
    if 1 ≤ h then trip c false d else d

/-- INSTANT_TRIP: the channel comparator reads BELOW c_inst (R225, R285, R307). -/
def instantTrip (c : Chan) (d : Device) : Device :=
  if (d.paths[c]).instCode then trip c true (d.updChan c fun s => { s with chBelow := true, chlim := false }) else d

/-- c_inst of R286. Without a string-current modulator the channel has no scaling, and the code is open. -/
def cInst (d : Device) (c : Chan) : Nat :=
  match istrOf d c with
  | some m => (satInt (cmpCode (fsA d m) (-(iInst d (curveSel d c)))) 1 1022).toNat
  | none => (satInt (Config.freeCode c.1) 1 1022).toNat

/-! ### At results and events -/

/-- `BELOW_SYS` at a string-voltage result (R324): the string is dead for the bus. -/
def belowTrack (c : Chan) (d : Device) : Device :=
  let dead := decide ((d.chans[c]).v < sysUse d (Chan.quad c) - vFwd d c)
  d.updPath c fun p => { p with belowSys := dead }

/-- A path switch at a string-voltage result. Outside RUN it tells `BELOW_SYS` and the evidence of a stuck switch (R316, R324). -/
def pathOnVolt (c : Chan) (d : Device) : Device :=
  if (d.paths[c]).st = .unarmed then d
  else if d.start.st ≠ .run then belowTrack c (stuckTrack c d)
  else
    let d := reverseAct c (belowTrack c (presence c (stuckTrack c (collapseJudge c d))))
    let p := d.paths[c]
    match p.st, freshSys d (Chan.quad c) with
    | .block, _ => tryConduct c d
    | .ramp, some x => if p.toFull || p.falling then d else pathRegulate c x d
    | .diode, some x => if (d.quads[Chan.quad c]).bus.strings then startFull c d else pathRegulate c x d
    | _, _ => d

/-- A path switch at a string-current result: its breaker and the evidence of a stuck switch in every armed state (R299, R316). -/
def pathOnCur (c : Chan) (d : Device) : Device :=
  if (d.paths[c]).st = .unarmed then d
  else
    let d := stuckTrack c (breaker c d)
    if d.start.st ≠ .run then d else reverseAct c d

/-- A bus state reaches the path switches of a quadrant (R299, R303). No switch enters RAMP while the quadrant has no fresh SYS value (R284); one
in DIODE then enters it at its first result with one. -/
def pathOnBus (was now : BusState) (c : Chan) (d : Device) : Device :=
  let p := d.paths[c]
  match p.st with
  | .ramp =>
    if now.strings ∧ p.toFull = false then startFull c d
    else if now = .sourced ∧ p.toFull then
      let g := gateNow d c
      d.updPath c fun p => { p with
        toFull := false, falling := standby d c, g := g, gAt := d.up, checkAt := if g < pgTest d c then none else p.checkAt }
    else d
  | .diode => if now.strings ∧ (d.quads[Chan.quad c]).stale = false then startFull c d else d
  | .full =>
    if now = .sourced ∧ was = .ret then
      d.updPath c fun p => { p with st := if standby d c then .block else .diode, falling := standby d c, g := pgFull d c, gAt := d.up, lowAt := none }
    else d
  | .block => tryConduct c d
  | _ => d

/-- GATE_RAMP_COMPLETE of a path switch (R299, R300). -/
def pathRampDone (c : Chan) (d : Device) : Device :=
  let p := d.paths[c]
  if p.toFull ∧ p.st = .ramp then
    (waitUp (p.gAt + rampTime (pgFull d c - p.g) (pgSlope d c)) d).updPath c fun p => { p with st := .full, toFull := false, g := pgFull d c, gAt := d.up }
  else if p.st = .gtest ∧ p.checkAt = none then
    let d := waitUp (p.gAt + rampTime (pgTest d c - p.g) (pgSlope d c)) d
    let d := d.updPath c fun p => { p with g := pgTest d c, gAt := d.up, checkAt := some d.up, passed := p.fbHigh }
    if p.fbHigh then inserted c d else d
  else if p.falling then
    let d := waitUp (p.gAt + rampTime p.g (pgSlope d c)) d
    pathZero c .block d
  else d

/-- A feedback level of a path switch (R300). -/
def pathFeedback (c : Chan) (high : Bool) (d : Device) : Device :=
  let p := d.paths[c]
  let live := match p.checkAt with | some t => decide (t ≤ d.up) | none => false
  let d := d.updPath c fun x => { x with fbHigh := high, passed := x.passed || (live && (high || p.fbHigh)) }
  if p.st = .gtest ∧ live ∧ high then inserted c d else d

/-- PATH_GATE_CHECK_TIMEOUT (R300, R564): the switch is held in NORISE by its own source. A check whose reference has fallen below `PG_TEST`
before has ended without a finding. One whose feedback is high passes, now or as its reference reaches `PG_TEST`. -/
def pathCheckTimeout (c : Chan) (d : Device) : Device :=
  let p := d.paths[c]
  match p.checkAt with
  | some t =>
    if (p.st = .gtest ∨ p.st = .ramp ∨ p.st = .diode ∨ p.st = .full) ∧ p.passed = false ∧ p.fbHigh = false then
      let f := 0x420 + c.1
      let d := waitUp (t + tRise d c) d
      if p.falling ∧ gateNow d c < pgTest d c then d.updPath c fun p => { p with checkAt := none, passed := false }
      else holdBy f (pathHold f c (pathZero c .norise d))
    else d
  | none => d

/-- Arming at the RUN launch or a region carrier reset: WAIT, with H = 0.5 when first armed (R299, R309). -/
def pathArm (c : Chan) (d : Device) : Device :=
  if (d.chans[c]).armed ∧ (d.paths[c]).st = .unarmed then
    d.updPath c fun p => { p with
      st := .wait, g := 0, gAt := d.up, zeroAt := d.up, hmem := 1 / 2, hAt := d.up, presentAt := none, lowAt := none, wasPresent := false }
  else d

def execCollapseDetected (c : Chan) (s : State) : Host.Outcome State Fault Refusal := done (collapseDetected c) s

end Sys2Proof.Machine
end

