-- ==== Sys2Proof/Machine/Power.lean ====
section
/-! DEFINITION. Sys2Proof/Machine/Power.lean: sources, the bus state, the input budget and fast halving (08). -/

namespace Sys2Proof.Machine

/-! ### Fast halving (R296) -/

/-- Halving called for by a source: it conducts, or is about to, and its comparator reads ABOVE. -/
def halveBy (d : Device) (k : Src) : Bool := (d.srcs[k]).isOver && (d.srcs[k]).st.live
def halveWanted (d : Device) : Bool := allSrcs.any (halveBy d)

/-- Halving is in force in a quadrant: its channels keep it until the loop step after its release (R223, R296). -/
def halveQuad (q : Quad) (d : Device) : Device :=
  let d := { d with chans := mapAll d.chans fun c s => if Chan.quad c = q then { s with halve := true } else s }
  forEach (quadChans q) regate (d.updQuad q fun s => { s with halved := true })

/-- Halving called for by another quadrant arrives; one that has been released meanwhile does nothing. -/
def halveArrives (q : Quad) (d : Device) : Device := if d.bus.halving then halveQuad q d else d

/-- A source calls for halving: its own quadrant at once, the others over the crossings (R19, R296). It takes part in the finding of a sustained
episode, at once where that has been made. -/
def halveCall (k : Src) (d : Device) : Device :=
  if (d.srcs[k]).halveHit then d
  else
    let d := halveQuad k (d.updSrc k fun s => { s with halveHit := true })
    let d := forEach (allQuads.filter fun q => decide (q ≠ k)) (fun q d => send (.between k q) .halve d) d
    if d.bus.halveRaised then raise (0x4A8 + k.1) d else d

/-- Halving is in force while called for; when no source comparator reads ABOVE its hold interval begins (R296). -/
def halveEval (d : Device) : Device :=
  if halveWanted d then
    let d := d.updBus fun b => if b.halving then { b with aboveEndAt := none } else { b with halving := true, halveAt := d.up, halveRaised := false, aboveEndAt := none }
    forEach (allSrcs.filter (halveBy d)) halveCall d
  else
    let anyHigh := allSrcs.any fun k => (d.srcs[k]).isOver
    d.updBus fun b => if b.halving then { b with aboveEndAt := heldSince d.up (!anyHigh) b.aboveEndAt } else b

/-! ### Bus state (R302 to R304) -/

def anyAdmitted (d : Device) : Bool := allSrcs.any fun k => decide ((d.srcs[k]).st = .admitted)
def anyFull (d : Device) : Bool := allChans.any fun c => decide ((d.paths[c]).st = .full)
def anyToFull (d : Device) : Bool := allChans.any fun c => decide ((d.paths[c]).st = .ramp) && (d.paths[c]).toFull

/-- A source goes to RAMP, or waits in HOLD during a hand-over, without a fresh SYS value (R284, R288) or without its VSRC modulator (R459). One whose
comparator reads ABOVE calls for halving from then on (R296). -/
def srcToRamp (k : Src) (d : Device) : Device :=
  if d.bus.st = .handover ∨ (d.quads[k]).stale ∨ roleLost d (vsrcOf d k) then d.updSrc k fun s => { s with st := .hold }
  else halveEval (d.updSrc k fun s => { s with st := .ramp, g := 0, gAt := d.up, checkAt := none, passed := false, qualAt := none, lowRun := 0 })

/-- Completion of a hand-over for the sources (R288, R304). -/
def srcHoDone (k : Src) (d : Device) : Device :=
  match (d.srcs[k]).st with
  | .hold => srcToRamp k d
  | .requal => d.updSrc k fun s => { s with qualAt := if vQup d k ≤ s.v ∧ roleLost d (vsrcOf d k) = false then some d.up else none }
  | _ => d

/-- The bus state changes, and the change is sent to the four quadrants (R302). -/
def setBus (st : BusState) (d : Device) : Device :=
  forEach allQuads (fun q d => send (.toQd q) (.bus st) d) (d.updBus fun b => { b with st := st, entered := d.up })

/-- A budget is sent to every channel (R221, R295). -/
def sendBudgets (b : Chan → Qty) (d : Device) : Device := forEach allChans (fun c d => send (.toQd (Chan.quad c)) (.budget c (b c)) d) d

/-- Entry to HANDOVER (R302): budget 0, ADMITTED sources to REQUAL, counted, LOG event. -/
def handover (d : Device) : Device :=
  let d := (setBus .handover d).updBus fun b => { b with b := 0, p := 0, belowRun := 0, hoCnt := satInc b.hoCnt }
  let d := sendBudgets (fun _ => 0) d
  let d := { d with srcs := d.srcs.map fun (s : SrcSt) => if s.st = .admitted then { s with st := .requal, qualAt := none } else s }
  raise 0x4B4 d

/-- One move of the bus state that holds at once (R302). The rows ask for the level: a source in RAMP that regulation admits during HANDOVER stays
ADMITTED, and moves the bus to RETURN as soon as ON_STRINGS is entered (DEDUCED, log entry 175). -/
def busMove (d : Device) : Device :=
  match d.bus.st with
  | .sourced => if anyAdmitted d then d else handover d
  | .handover => if anyFull d ∧ anyToFull d = false then forEach allSrcs srcHoDone (setBus .onStrings d) else d
  | .onStrings => if anyAdmitted d then setBus .ret d else d
  | .ret => if anyAdmitted d = false then handover d else if anyFull d then d else setBus .sourced d
  | .beforeRun => d

/-- Moves that follow each other at the same instant. -/
def busEval (d : Device) : Device := busMove (busMove (busMove (busMove d)))

/-- A 16-byte capture sample from four words, the first lowest (R440). -/
def sampleOf (a b c e : Nat) : BitVec 128 := BitVec.ofNat 128 (a + 2 ^ 32 * b + 2 ^ 64 * c + 2 ^ 96 * e)
/-- A capture with one more sample; samples for which no result exists are 0 (R440). -/
def capNext (now : Nat) (x : BitVec 128) (b : Cap) : Cap :=
  { b with samples := (b.samples ++ List.replicate (sampleNo now - b.t0 / 512 - b.samples.length) 0 ++ [x]).take (b.pre + 958) }

/-- A sample taken at a time joins one capture in progress; one that the capture took over from the time before its decision is in it already. -/
def capJoin (now : Nat) (x : BitVec 128) (b : Cap) (d : Device) : Device :=
  if now < d.ticks ∧ sampleNo now < b.t0 / 512 + b.samples.length then d
  else
    let n := capNext now x b
    capQueue (b.samples.length / 2) n (d.updCol fun c => { c with caps := c.caps.map fun y => if y.buf = b.buf then n else y })

/-- A sample joins the captures in progress of an object (R440). -/
def capSample (kind obj now : Nat) (x : BitVec 128) (d : Device) : Device :=
  forEach (d.col.caps.filter fun b => decide (b.kind = kind ∧ b.obj = obj ∧ b.samples.length < b.pre + 958)) (capJoin now x) d

/-- A sample of a quadrant's object crosses to housekeeping (R19). -/
def quadSample (q : Quad) (kind obj : Nat) (x : BitVec 128) (d : Device) : Device :=
  toHouse q (.sample kind obj d.ticks x) (capSample kind obj d.ticks x) d

/-- A result given at an instant is there for the samples of its interval and of the next one (R440; log entry 154). -/
def isNow (d : Device) (t : Option Nat) : Bool := match t with | some t => decide (d.up ≤ t + stepSub) | none => false

/-- SYS result word of a quadrant, 0 where it has none (R440). -/
def sysNow (d : Device) (q : Quad) : Nat := if isNow d (d.quads[q]).sysAt then (d.quads[q]).sysWord.toNat else 0

/-- Stream result word of a role, 0 where it has none (R440). -/
def wordNow (d : Device) (m : Option Pm) : Nat :=
  match m with | some m => if isNow d (d.mods[m]).wordAt then (d.mods[m]).word.toNat else 0 | none => 0

/-- Device sample: the SYS words of the four quadrants (R440). -/
def busSample (d : Device) : Device :=
  let sys (q : Quad) : Nat := if isNow d (d.quads[q]).hkAt then (d.quads[q]).hkWord.toNat else 0
  let x := sampleOf (sys 0) (sys 1) (sys 2) (sys 3)
  capSample 3 0 d.ticks x (d.updBus fun b => { b with hist := pushHist d b.histAt b.hist x, histAt := some (sampleNo d.ticks) })

/-- V_SYS: the mean of the fresh SYS results of the armed quadrants, else held (R284). -/
def vsysUpdate (d : Device) : Device :=
  let qs := allQuads.filter fun q => (d.quads[q]).armed && hkFresh d q
  d.updBus fun b => { b with fresh := decide (qs ≠ []), vSys := if qs = [] then b.vSys else meanQ (qs.map fun q => (d.quads[q]).hkVal) }

/-- HOLD to RAMP when SYS is fresh again (R288). -/
def holdsRelease (d : Device) : Device := forEach allSrcs (fun k d => if (d.srcs[k]).st = .hold then srcToRamp k d else d) d

/-- VSYS_EVALUATION, every 51.2 us (R284, R302). -/
def vsysEvaluation (d : Device) : Device :=
  let d := busSample (vsysUpdate (nextMultiple 2 stepSub d))
  let below := d.bus.fresh && decide (d.bus.vSys < vSysLoss d)
  let d := staleUpdate (d.updBus fun b => { b with belowRun := if below then b.belowRun + 1 else 0 })
  let d := if (d.bus.st = .sourced ∨ d.bus.st = .ret) ∧ 2 ≤ d.bus.belowRun then handover d else d
  busEval (holdsRelease d)

/-- SYS_FRESHNESS_EXPIRY (R284). -/
def sysExpiry (q : Quad) (d : Device) : Device :=
  match (d.quads[q]).sysAt with
  | some t => staleUpdate ((waitUp (t + ms) d).updQuad q fun s => { s with sysAt := none, hkAt := if s.hkAt = some t then none else s.hkAt })
  | none => d

/-- HANDOVER_TIMEOUT: 5 ms in HANDOVER (R302). -/
def handoverTimeout (d : Device) : Device :=
  if d.bus.st = .handover then
    let d := waitUp (d.bus.entered + 5 * ms) d
    busEval (forEach allSrcs srcHoDone (setBus .onStrings d))
  else d

/-- RETURN_TIMEOUT: 5 ms in RETURN (R302). -/
def returnTimeout (d : Device) : Device :=
  if d.bus.st = .ret then busEval (setBus .sourced (waitUp (d.bus.entered + 5 * ms) d)) else d

/-- A bus state reaches a quadrant (R299, R302); in SVC_HOLD its switches stay off (R76). -/
def busArrives (q : Quad) (now : BusState) (d : Device) : Device :=
  let was := (d.quads[q]).bus
  let d := d.updQuad q fun s => { s with bus := now }
  if d.start.st = .svcHold then d else busEval (forEach (quadChans q) (pathOnBus was now) d)

/-! ### Input budget (R294, R295) -/

/-- i_lim of a source with its derating (R392). -/
def iLimK (d : Device) (k : Src) : Qty := iLim d k * (d.therm[Fin.ofNat 172 (168 + k.1)]).kth

/-- Charging current drawn from SYS (R294). -/
def iChg (d : Device) : Qty :=
  (allChans.map fun c => qdiv ((d.chans[c]).i * (d.chans[c]).v) (etaChg d * d.bus.vSys)).sum

/-- Least of a list of quantities, 0 for none. -/
def minQ : List Qty → Qty
  | [] => 0
  | x :: xs => xs.foldl min x

/-- The budget b of R294. A stuck source counts in the measured source current (R293); a source without its ISRC modulator enters with half its
limit, no excess and its last result (R459). -/
def budgetB (d : Device) : Qty :=
  let adm := allSrcs.filter fun k => decide ((d.srcs[k]).st = .admitted)
  if adm = [] then 0
  else
    let live := allSrcs.filter fun k => (d.srcs[k]).st.live || (d.srcs[k]).stuckUp
    let load := max 0 ((live.map fun k => (d.srcs[k]).i).sum - iChg d)
    let seen := adm.filter fun k => !roleLost d (isrcOf d k)
    let excess := (seen.map fun k => max 0 ((d.srcs[k]).i - iLimK d k)).sum
    let lim := (adm.map fun k => if roleLost d (isrcOf d k) then iLimK d k / 2 else iLimK d k).sum
    let b := max 0 (lim - max (sysRes d) load - excess)
    min b (d.bus.b + minQ (adm.map (gDidt d)) * 10)

/-- Host narrowing as housekeeping holds it. -/
def narrowHk (d : Device) (c : Chan) (x : Qty) : Qty :=
  let n := (d.chans[c]).narrowI
  if n = 0xFFFF#16 then x else min x ((n.toNat : Qty) / 16)

/-- A channel that shares the budget (R295). -/
def shares (d : Device) (c : Chan) : Bool := decide ((d.chans[c]).st = .start ∨ (d.chans[c]).st = .regulate)

/-- d(c) of R295 in A, before its voltage. -/
def shareA (d : Device) (c : Chan) : Qty := narrowHk d c (min (d.profs[c]).iprof (iCapacity d c))

/-- The factor k of R295. -/
def shareK (d : Device) (p : Qty) : Qty :=
  let s := ((allChans.filter fun c => shares d c && decide (0 < (d.chans[c]).v)).map fun c => shareA d c * (d.chans[c]).v * rampH d c).sum
  if s ≤ p then 1 else qdiv p s

/-- BUDGET_UPDATE, every 10 us (R294, R295). With no admitted source every channel's budget is 0. -/
def budgetUpdate (d : Device) : Device :=
  let d := nextMultiple 1 (10 * us) d
  if d.bus.st = .beforeRun then d
  else
    let b := budgetB d
    let p := b * d.bus.vSys * etaChg d
    let d := d.updBus fun x => { x with b := b, p := p }
    let k := shareK d p
    let adm := anyAdmitted d
    sendBudgets (fun c => if adm && shares d c then k * shareA d c else 0) d

/-! ### End of fast halving (R296) -/

/-- The call for halving ends in every quadrant and for every source. -/
def halvingClear (d : Device) : Device :=
  let d := { d with quads := d.quads.map fun (q : QuadSt) => { q with halved := false } }
  { d with srcs := d.srcs.map fun (s : SrcSt) => { s with halveHit := false } }

/-- HALVING_RELEASE: `HALVE_HOLD` has passed since a source comparator read ABOVE (R296). -/
def halvingRelease (d : Device) : Device :=
  match d.bus.halving, d.bus.aboveEndAt with
  | true, some t =>
    halvingClear ((waitUp (t + halveHold d) d).updBus fun b => { b with halving := false, aboveEndAt := none, halveRaised := false })
  | _, _ => d

/-- HALVING_SUSTAINED (R296): raises the source of each source that read ABOVE. -/
def halvingSustained (d : Device) : Device :=
  if d.bus.halving ∧ d.bus.halveRaised = false then
    let d := (waitUp (d.bus.halveAt + 100 * ms) d).updBus fun b => { b with halveRaised := true }
    forEach (allSrcs.filter fun k => (d.srcs[k]).halveHit) (fun k d => raise (0x4A8 + k.1) d) d
  else d

/-! ### Sources (R287 to R293) -/

/-- SOURCE_COMPARATOR_ABOVE, BELOW and BETWEEN (R291, R296). -/
def srcAbove (k : Src) (d : Device) : Device := halveEval (d.updSrc k fun s => { s with isOver := true, isRev := false })
def srcBelow (k : Src) (d : Device) : Device :=
  halveEval (d.updSrc k fun s => { s with
    isOver := false, isRev := true
    revCnt := if s.g > 0 then satInc s.revCnt else s.revCnt
    g := 0, gAt := d.up, checkAt := none, passed := false })
def srcBetween (k : Src) (d : Device) : Device := halveEval (d.updSrc k fun s => { s with isOver := false, isRev := false })

/-- Number of admitted sources of higher priority (R290). -/
def higherPrio (d : Device) (k : Src) : Nat := (allSrcs.filter fun j => decide ((d.srcs[j]).st = .admitted) && decide (sPrio d j < sPrio d k)).length

/-- Regulation of a source at a result (R290), with its gate check (R292) and admission (R288). -/
def srcRegulate (k : Src) (d : Device) : Device :=
  match freshSys d k with
  | none => d
  | some vs =>
    let s := d.srcs[k]
    let r := regulate s.g s.v vs (sVfwd d k + (higherPrio d k : Qty) * prioStep d) (sKg d k) (sSlope d k) (sFull d k)
    let hi := decide (sTest d k ≤ r.1)
    d.updSrc k fun s => { s with
      g := r.1, gAt := d.up
      checkAt := if hi then (match s.checkAt with | some t => some t | none => some d.up) else none
      passed := if hi then (match s.checkAt with | some _ => s.passed | none => s.fbHigh) else false
      st := if s.st = .ramp ∧ (r.2 ≤ 0 ∨ r.1 = sFull d k) then .admitted else s.st }

/-- A source at a source-voltage result (R287 to R290). -/
def srcOnVolt (k : Src) (d : Device) : Device :=
  if d.start.st = .svcHold then d else
  let s := d.srcs[k]
  let up := decide (vQup d k ≤ s.v)
  let d := d.updSrc k fun s => { s with lowRun := if s.v < vQlo d k then s.lowRun + 1 else 0 }
  let after (d : Device) : Device := d.updSrc k fun s => { s with bandNew := false }
  let d := after <| match s.st with
    | .below => if up then d.updSrc k fun s => { s with st := .qual, qualAt := some d.up, bandWait := false }
        else d.updSrc k fun s => { s with bandWait := s.bandWait || (s.bandNew && decide (vQlo d k ≤ s.v)) }
    | .qual => if up then d else d.updSrc k fun s => { s with st := .below, qualAt := none }
    | .hold => if up then srcToRamp k d else d.updSrc k fun s => { s with st := .below, qualAt := none }
    | .requal =>
      if d.bus.st = .handover then d
      else if !up then d.updSrc k fun s => { s with qualAt := none }
      else match s.qualAt with
        | none => d.updSrc k fun s => { s with qualAt := some d.up }
        | some t => if t + tQual d k ≤ d.up ∧ roleLost d (vsrcOf d k) = false then d.updSrc k fun s => { s with st := .admitted, qualAt := none } else d
    | _ => d
  let d := if (d.srcs[k]).st.live ∧ 2 ≤ (d.srcs[k]).lowRun then srcZero k .below d else d
  let d := if (d.srcs[k]).st.live then srcRegulate k d else d
  halveEval (busEval d)

/-- A source at a source-current result: evidence of a stuck switch (R293). -/
def srcOnCur (k : Src) (d : Device) : Device :=
  let s := d.srcs[k]
  let ev := decide (s.st = .below ∨ s.st = .norise) && decide (iLim d k / 50 < s.i)
  d.updSrc k fun s => { s with
    stuckUp := s.stuckUp && ev
    stuckSince := if ev then (match s.stuckSince with | some t => some t | none => some d.up) else none }

/-- QUAL_TIMER_EXPIRY (R288, R304). A source in REQUAL is admitted at a result, its first one at or above `V_QUP` from then on (`srcOnVolt`; log
entry 174). -/
def qualTimer (k : Src) (d : Device) : Device :=
  if d.start.st = .svcHold then d else
  match (d.srcs[k]).st, (d.srcs[k]).qualAt with
  | .qual, some t => halveEval (busEval (srcToRamp k (waitUp (t + tQual d k) d)))
  | .requal, some t =>
    if d.bus.st = .handover ∨ roleLost d (vsrcOf d k) then d else waitUp (t + tQual d k) d
  | _, _ => d

/-- SOURCE_GATE_CHECK_TIMEOUT (R292, R564): the source is held in NORISE by its own source of the collector. -/
def srcCheckTimeout (k : Src) (d : Device) : Device :=
  let s := d.srcs[k]
  match s.checkAt with
  | some t =>
    if s.st.live ∧ s.passed = false then
      let f := 0x4A0 + k.1
      let d := waitUp (t + sTrise d k) d
      busEval (halveEval (holdBy f (srcHold f k (srcZero k .norise d))))
    else d
  | none => d

/-- SOURCE_STUCK_TIMEOUT (R293). -/
def srcStuck (k : Src) (d : Device) : Device :=
  match (d.srcs[k]).stuckSince with
  | some t =>
    if (d.srcs[k]).stuckUp then d
    else raise (0x4A4 + k.1) ((waitUp (t + 100 * ms) d).updSrc k fun s => { s with stuck := true, stuckUp := true })
  | none => d

/-- GATE_FEEDBACK_LEVEL (R292, R300). -/
def gateFeedback (g : Gate) (high : Bool) (d : Device) : Device :=
  match g with
  | .path c => busEval (pathFeedback c high d)
  | .source k => d.updSrc k fun s => { s with fbHigh := high, passed := s.passed || (s.checkAt.isSome && (high || s.fbHigh)) }

/-- GATE_RAMP_COMPLETE (R299). A source's reference moves by regulation only (R290). -/
def gateRampDone (g : Gate) (d : Device) : Device :=
  match g with
  | .path c => busEval (pathRampDone c d)
  | .source _ => d

/-- A source at the RUN launch or a region carrier reset of its quadrant: the window starts at BELOW (R287, R288), and its first result tells
whether the source stands inside its band (R289). -/
def srcArm (k : Src) (d : Device) : Device :=
  if (d.quads[k]).armed then
    match (d.srcs[k]).st with
    | .off => d.updSrc k fun s => { s with st := .below, g := 0, gAt := d.up, bandWait := false, bandNew := true }
    | .below => d.updSrc k fun s => { s with bandWait := false, bandNew := true }
    | .qual => d.updSrc k fun s => { s with st := .below, qualAt := none, bandNew := true }
    | .hold => d.updSrc k fun s => { s with st := .below, qualAt := none, bandNew := true }
    | _ => d
  else d

def execInstantTrip (c : Chan) (s : State) : Host.Outcome State Fault Refusal := done (fun d => busEval (instantTrip c d)) s
def execSourceComparatorAbove (k : Src) (s : State) : Host.Outcome State Fault Refusal := done (srcAbove k) s
def execSourceComparatorBelow (k : Src) (s : State) : Host.Outcome State Fault Refusal := done (srcBelow k) s
def execSourceComparatorBetween (k : Src) (s : State) : Host.Outcome State Fault Refusal := done (srcBetween k) s
def execGateFeedbackLevel (g : Gate) (high : Bool) (s : State) : Host.Outcome State Fault Refusal := done (gateFeedback g high) s

end Sys2Proof.Machine
end

