-- ==== Sys2Proof/Machine/Store.lean ====
section
/-! DEFINITION. Sys2Proof/Machine/Store.lean: the protected memory as its users write and read it: codewords (R466), injected check symbols (R441),
rings (R365 to R370) and the event log (R438). -/

namespace Sys2Proof.Machine

/-- `FI_RS_REG` code of an address (R441, R525). -/
def fiRegion (a : Nat) : Nat :=
  if a < 0x40000 then 4 else if a < 0x80000 then 0 else if a < 0xA0000 then 1 else if a < 0xE0000 then 2 else 3

def fiMemWord (d : Device) : Nat :=
  d.col.fiRsN.toNat + 4 * d.col.fiRsReg.toNat + 32 * b2n d.col.fiPec + 64 * d.col.fiCrc.toNat
def fiRailWord (d : Device) : Nat := d.col.fiFsrc.toNat + 4096 * d.col.fiMode.toNat + 65536 * d.col.fiMs.toNat

/-- Event 0x0801 of an arming or a consumption. -/
def fiEvent (d : Device) : Device := logEvent 0x0801 (fiMemWord d) (fiRailWord d) 0 d

/-- Codewords that n bytes from an address touch. -/
def cwRange (a n : Nat) : Nat × Nat := (a / 32, (a + n - 1) / 32)

/-- A legitimate write: the bytes, fresh check symbols, and the armed injection of R441 in its first codeword. -/
def memWrite (a : Nat) (bs : List Byte) (d : Device) : Device :=
  let r := cwRange a bs.length
  let out (k : Nat) : Bool := decide (k < r.1) || decide (r.2 < k)
  let d := d.updMem fun m => { m with
    mem := msets m.mem a bs
    errs := m.errs.filter fun e => out e.1
    raised := m.raised.filter out
    fixing := m.fixing.filter out }
  if d.col.fiRsN ≠ 0 ∧ d.col.fiRsReg.toNat = fiRegion a ∧ bs ≠ [] then
    let n := min 2 d.col.fiRsN.toNat
    let d := d.updMem fun m => { m with errs := (r.1, (n, 0)) :: m.errs }
    fiEvent (d.updCol fun c => { c with fiRsN := 0 })
  else d

/-- Wrong symbols of a codeword: inverted check symbols and upset symbols. -/
def cwErrs (d : Device) (k : Nat) : Nat × Nat := match d.memory.errs.find? (·.1 = k) with | some e => e.2 | none => (0, 0)
def cwWrong (d : Device) (k : Nat) : Nat := (cwErrs d k).1 + (cwErrs d k).2
/-- Two or more wrong symbols (R466). -/
def cwBad (d : Device) (k : Nat) : Bool := decide (2 ≤ cwWrong d k)

/-- A word as a read returns it (R529): corrected, or as stored, where upset data is an open value. -/
def memWordAt (d : Device) (a : Nat) : Word :=
  if cwBad d (a / 32) ∧ (cwErrs d (a / 32)).2 ≠ 0 then Config.upsetWord a else BitVec.ofNat 32 (mword d.memory.mem a)

/-- FSRC of an uncorrectable codeword by its region (R468). -/
def ueSource (k : Nat) : Nat :=
  let a := 32 * k
  if a < 0x40000 then 0x620 else if a < 0x80000 then 0x621 else if a < 0xA0000 then 0x622 else if a < 0xE0000 then 0x623 else 0x624

/-- A model whose state is lost is restarted with Tj at its `T_DR` (R390). -/
def modelReinit (m : Model) (d : Device) : Device :=
  let sum := frRth d m 0 + frRth d m 1 + frRth d m 2 + frRth d m 3
  let t := tDr d m
  let rise := t - (d.therm[m]).tcool
  let th (k : Nat) : Qty := qdiv (frRth d m k) sum * rise
  raiseX 0x594 false m.1 (d.updTherm m fun x => { x with th0 := th 0, th1 := th 1, th2 := th 2, th3 := th 3, tj := t, peak := peakOf x t, reinit := true })

/-- The housekeeping charge pair of a channel as its lost codeword stands in memory: with upset data an open value (R270, R529). -/
def hkLost (k : Nat) (c : Chan) (d : Device) : Device :=
  let w (o : Nat) : Nat := ((Config.upsetWord (0xE2000 + 16 * c.1 + o)).toNat + 2 ^ 32 * (Config.upsetWord (0xE2000 + 16 * c.1 + o + 4)).toNat) * 65536
  d.updProf c fun p => if (cwErrs d k).2 = 0 then { p with hkBad := true } else { p with hkBad := true, hkIn := w 0, hkOut := w 8 }

/-- The four tracking samples that a lost codeword held are discarded (R462, R468). -/
def trackLoss (k : Nat) (d : Device) : Device :=
  let a := 32 * k
  if 0xE4000 ≤ a ∧ a < 0xE4000 + 8 * 1280 then
    let s := (a - 0xE4000) / 1280
    let i := (a - 0xE4000) % 1280 / 64
    let js := (List.range 4).map fun j => (i, a % 64 / 8 + j)
    d.updMod (Fin.ofNat 88 (22 * (s / 2) + 20 + s % 2)) fun m => { m with trackLost := js ++ m.trackLost.filter fun x => decide (x ∉ js) }
  else d

/-- What the loss of a codeword of the model and state area does (R468): a model restarts, two charge pairs are lost (R270), tracking samples
are discarded. -/
def ueState (k : Nat) (d : Device) : Device :=
  let a := 32 * k
  if 0xE0000 ≤ a ∧ a < 0xE0000 + 32 * 172 then modelReinit (Fin.ofNat 172 ((a - 0xE0000) / 32)) d
  else if 0xE2000 ≤ a ∧ a < 0xE2200 then
    let c := (a - 0xE2000) / 16
    hkLost k (Fin.ofNat 32 (c + 1)) (hkLost k (Fin.ofNat 32 c) d)
  else trackLoss k d

/-- The injected flag of a source takes a level (R435, R441). -/
def setInj (f : Nat) (v : Bool) (d : Device) : Device := d.updFault (Fin.ofNat 2048 f) fun y => { y with inj := v }

/-- What a lost codeword raises; records that an injection causes carry the injected flag (R441, R468). -/
def ueRaise (k : Nat) (d : Device) : Device :=
  let f := ueSource k
  let by0 := decide (0 < (cwErrs d k).1)
  let wf := (d.faults[Fin.ofNat 2048 f]).inj
  let wm := (d.faults[Fin.ofNat 2048 0x594]).inj
  let d := ueState k (raise f (setInj 0x594 (wm || by0) (setInj f (wf || by0) d)))
  setInj 0x594 wm (setInj f wf d)

/-- A codeword is found uncorrectable: counted, addressed, and raised once while it is among the 64 remembered; one beyond them is raised at every pass of
the scrubber (R468, R478, R529). -/
def ueFound (scrub : Bool) (k : Nat) (d : Device) : Device :=
  let known := decide (k ∈ d.memory.raised)
  let room := decide (d.memory.raised.length < 64)
  let d := d.updMem fun m => { m with
    ueCnt := satInc m.ueCnt, ueAddr := BitVec.ofNat 20 (32 * k), ueValid := true
    raised := if known || !room then m.raised else m.raised ++ [k] }
  if known ∨ (room = false ∧ scrub = false) then d else ueRaise k d

/-- Bank and row that hold a codeword, through the remap table (R469): rows 512 to 575 are spare rows. -/
def rowOf (d : Device) (k : Nat) : Nat × Nat :=
  match d.memory.remap.find? fun x => decide (x.1 = k / 4096) && decide (x.2.1 = k % 4096 / 8) with
  | some x => (x.1, x.2.2)
  | none => (k / 4096, k % 4096 / 8)

/-- A row is to be remapped to the bank's lowest free spare row (R469); a bank that runs out of them says so (R470). -/
def remapRow (r : Nat × Nat) (d : Device) : Device :=
  let b : Fin 8 := Fin.ofNat 8 r.1
  let u := d.memory.rowsUsed[b]
  if 64 ≤ u then d
  else
    let d := arbRequest wport 1 (d.updMem fun m => { m with
      rowsUsed := m.rowsUsed.set b (u + 1)
      copying := m.copying ++ [(b.1, r.2, 512 + u)]
      rowsOut := if u = 63 then m.rowsOut ||| BitVec.ofNat 8 (2 ^ b.1) else m.rowsOut })
    if u = 63 then raise (0x628 + b.1) d else d

/-- 24 h. -/
def day : Nat := 86400 * sec

/-- A correction counts for its row; the third within 24 h of the first remaps it (R469). -/
def rowCorrected (k : Nat) (d : Device) : Device :=
  let r := rowOf d k
  let n := match d.memory.rowCorr.find? (·.1 = r) with | some x => (if d.up ≤ x.2.2 + day then (x.2.1 + 1, x.2.2) else (1, d.up)) | none => (1, d.up)
  let d := d.updMem fun m => { m with rowCorr := (r, n) :: m.rowCorr.filter (·.1 ≠ r) }
  if n.1 = 3 then remapRow r d else d

/-- A read decodes a codeword: one wrong symbol is corrected and its write-back requested; more are reported. `scrub`: the read is the scrubber's. -/
def cwDecode (scrub : Bool) (k : Nat) (d : Device) : Device :=
  if cwBad d k then ueFound scrub k d
  else if cwWrong d k = 1 ∧ k ∉ d.memory.fixing then
    rowCorrected k (arbRequest wport 0 (d.updMem fun m => { m with ceCnt := satInc m.ceCnt, fixing := m.fixing ++ [k] }))
  else d

/-- A read other than the scrubber's. -/
def cwRead (k : Nat) (d : Device) : Device := cwDecode false k d

/-- A read of n bytes decodes every codeword it touches (R466). -/
def cwReads (a n : Nat) (d : Device) : Device := forEach ((List.range ((a + n - 1) / 32 + 1)).drop (a / 32)) cwRead d

/-- n words from an address as a read returns them (R529). -/
def bytesAt (d : Device) (a n : Nat) : List Byte := (List.range n).flatMap fun j => leBytes 4 (memWordAt d (a + 4 * j)).toNat

/-! ### Rings (R365 to R370) -/

def ringBase (r : Ring) : Nat := 0x40000 + 8192 * r.1
/-- Fill of a ring with write index w and read index x (R369). -/
def fill16 (w x : Halfword) : Nat := (w - x).toNat

/-- A record is written under the ring's policy (R370), with the alert of its fill (R515). -/
def ringWrite (r : Ring) (bs : List Byte) (d : Device) : Device :=
  let s := d.rings[r]
  let full := decide (256 ≤ fill16 s.wr s.rd)
  if full ∧ rgDrop d r then d.updRing r fun s => { s with ovf := satInc s.ovf }
  else
    let d := d.updRing r fun s => { s with
      rd := if full then s.rd + 1 else s.rd, ovf := if full then satInc s.ovf else s.ovf, wr := s.wr + 1 }
    let d := memWrite (ringBase r + 32 * (s.wr.toNat % 256)) bs d
    let f := fill16 (d.rings[r]).wr (d.rings[r]).rd
    if fill16 s.wr s.rd < rgAlert d r ∧ rgAlert d r ≤ f then
      alertSet 1 (d.updSup fun u => { u with alertRings := u.alertRings ||| BitVec.ofNat 32 (2 ^ r.1) })
    else d

/-- RING_RECORD_WRITE: the writer that holds the memory write port writes its oldest record. -/
def ringRecordWrite (w : Table) (d : Device) : Device :=
  let idx := 4 + w.1
  if idx ∈ (d.arbs[wport]).granted then
    match d.writers[w] with
    | [] => arbRelease wport idx d
    | (r, bs) :: rest =>
      let d := ringWrite r bs (arbRelease wport idx { d with writers := upd d.writers w fun _ => rest })
      if rest = [] then d else arbRequest wport idx d
  else d

/-! ### The event log (R435, R438) -/

/-- LOG_RECORD_WRITE: the oldest queued record is written with its sequence number, over the oldest record when the log is full. -/
def logRecordWrite (d : Device) : Device :=
  if 2 ∈ (d.arbs[wport]).granted then
    match d.col.logQ with
    | [] => arbRelease wport 2 d
    | bs :: rest =>
      let full := decide (4096 ≤ fill16 d.col.logWr d.col.logRd)
      let slot := d.col.logWr.toNat % 4096
      let seq := d.col.logSeq
      let d := (arbRelease wport 2 d).updCol fun c => { c with
        logQ := rest, logWr := c.logWr + 1, logSeq := c.logSeq + 1
        logRd := if full then c.logRd + 1 else c.logRd, logOvw := if full then satInc c.logOvw else c.logOvw }
      let d := memWrite (0x80000 + 32 * slot) (leBytes 4 seq.toNat ++ bs.drop 4) d
      if d.col.logQ = [] then d else arbRequest wport 2 d
  else d

def execRingRecordWrite (w : Table) (s : State) : Host.Outcome State Fault Refusal := done (ringRecordWrite w) s
def execLogRecordWrite (s : State) : Host.Outcome State Fault Refusal := done logRecordWrite s

end Sys2Proof.Machine
end

