-- ==== Sys2Proof/WellFormed.lean ====
section
/-! DEFINITION. Sys2Proof/WellFormed.lean: operands that a working sender puts on the pins. A command whose operands fail here has its effect all the
same: a frame or a block that is too short or too long is one that the rules discard and count. -/

namespace Sys2Proof

/-- A frame has at least its type and length bytes (R132). -/
def frameOk (f : FrameRx) : Bool := 2 ≤ f.bytes.length

/-- The byte count of a block is one byte, and the block carries no more data than a count can name (R491). -/
def blockOk (w : BlockWrite) : Bool := w.data.length ≤ 255

def callOk (p : ProcessCall) : Bool := p.data.length ≤ 255

/-- A boot-port transaction moves at most 4,096 bytes (R484). -/
def bootOk : BootOutcome → Bool
  | .data bs => bs.length ≤ 4096
  | _ => true

/-- Well-formedness of a command. -/
def wf : Instr → Bool
  | .timeFrameReceive f => frameOk f
  | .haltFrameReceive f => frameOk f
  | .modeFrameReceive f => frameOk f
  | .rollFrameReceive f => frameOk f
  | .ringAck w => blockOk w
  | .logAck w => blockOk w
  | .clear w => blockOk w
  | .serviceUnlock w => blockOk w
  | .serviceLock w => blockOk w
  | .write w => blockOk w
  | .armRegion w => blockOk w
  | .reloadRegion w => blockOk w
  | .inject w => blockOk w
  | .calZero w => blockOk w
  | .calFull w => blockOk w
  | .calCommit w => blockOk w
  | .nvmWrite w => blockOk w
  | .nvmFetch w => blockOk w
  | .peek p => callOk p
  | .ringRead p => callOk p
  | .logRead p => callOk p
  | .bootTransactionDone r => bootOk r
  | _ => true

end Sys2Proof
end

