-- ==== Sys2Proof/Machine/Measure.lean ====
section
/-! DEFINITION. Sys2Proof/Machine/Measure.lean: precision measurement (09): correction, streams and what a result feeds, conversions, sequencer
tables, calibration steps, halt snapshots and the cross-check of modulators (12). -/

namespace Sys2Proof.Machine

/-! ### Correction and result words (R335, R353) -/

/-- Full-scale code limits. -/
def satCode (x : Int) : Int := satInt x (-8388608) 8388607

/-- The modulator has coefficients in force (R353). -/
def calibrated (d : Device) (m : Pm) : Bool := calKind d m = 1 || calKind d m = 2

/-- Corrected result and whether it saturated (R353). -/
def correct (d : Device) (m : Pm) (raw : Int) : Int × Bool :=
  let r : Int := if calibrated d m then qRound (((raw : Qty) - (calOfs d m : Qty) / 256) * (calGain d m : Qty) / 2 ^ 30) else raw
  (satCode r, decide (satCode r ≠ r))

/-- An input is converted against `REFB`: input codes 0x01 and 0x02 fix the reference, all others use the one in force (R330, R337). -/
def againstB (d : Device) (input : Nat) : Bool := if input = 1 then false else if input = 2 then true else d.hk.refOnB

/-- Cover of a string voltage (R459). -/
def coverV (d : Device) (c : Chan) : Option Qty :=
  let st := (d.paths[c]).st
  if st = .diode ∨ st = .full then some d.bus.vSys else none

/-- The path switch conducts. -/
def pathConducts (d : Device) (c : Chan) : Bool :=
  let st := (d.paths[c]).st
  decide (st = .ramp ∨ st = .diode ∨ st = .full)

/-- Cover of a string current (R459). -/
def coverI (d : Device) (c : Chan) : Option Qty :=
  if (d.chans[c]).gate then some (d.chans[c]).icmd else if pathConducts d c then none else some 0

/-- A modulator's role has no working modulator and has a cover (R459). -/
def covered (d : Device) (m : Pm) : Bool :=
  let q := Pm.quad m
  (d.mods[m]).degraded &&
    match roleEff d m with
    | 1 => (coverV d (roleChan d m)).isSome
    | 2 => (coverI d (roleChan d m)).isSome
    | 3 => decide (0 < (d.srcs[q]).g)
    | 4 => false
    | 5 => (freshSys d q).isSome
    | _ => true

/-- The result word of R335, for an input code. -/
def resultWord (d : Device) (m : Pm) (input : Nat) (code : Int) (ovr halt tap : Bool) : Word :=
  BitVec.ofNat 32 (encSigned code 24 + 2 ^ 24 * b2n ovr + 2 ^ 25 * b2n halt + 2 ^ 26 * b2n (!calibrated d m) +
    2 ^ 27 * b2n (d.mods[m]).acting.isSome + 2 ^ 28 * b2n (halt && bitOf (haltFlagsIn d (Pm.quad m)).toNat 0) + 2 ^ 29 * b2n (againstB d input) +
    2 ^ 30 * b2n tap + 2 ^ 31 * b2n (covered d m))

/-- The quadrant's clock runs (R328). -/
def clkRuns (d : Device) (q : Quad) : Bool := bitOf d.isl.clkRun.toNat q.1

/-! ### Charge (R267 to R270) -/

/-- Charge of a current over n sub-ticks in 1/65,536 uA.s, rounded. -/
def chargeOf (i : Qty) (n : Nat) : Nat := (qRound (|i| * (n : Qty) / (us : Nat) * 65536)).toNat

/-- The housekeeping pair is compared with what the quadrant pair held after a fill (R270): it replaces the quadrant pair, or is replaced where its
codeword was lost since the last halt. The event holds the channel and the low words of the two differences (log entry 12). -/
def reconcile (c : Chan) (qi qo : Nat) (d : Device) : Device :=
  let p := d.profs[c]
  if qi = p.hkIn ∧ qo = p.hkOut then d.updProf c fun p => { p with hkBad := false }
  else
    let w1 := (qi / 65536 + 2 ^ 32 - p.hkIn / 65536 % 2 ^ 32) % 2 ^ 32
    let w2 := (qo / 65536 + 2 ^ 32 - p.hkOut / 65536 % 2 ^ 32) % 2 ^ 32
    let d := d.updProf c fun p =>
      if p.hkBad then { p with hkIn := qi, hkOut := qo, hkBad := false, qRecon := satInc p.qRecon }
      else { p with qIn := p.qIn + p.hkIn - qi, qOut := p.qOut + p.hkOut - qo, qRecon := satInc p.qRecon }
    raise (0x360 + c.1) (logEvent Config.reconCode.toNat c.1 w1 w2 d)

/-- Charge that a channel added reaches housekeeping: its pair, which stands in memory (R530), counts it, and after a fill the two pairs are
compared (R270). -/
def chargeArrives (c : Chan) (qi qo : Nat) (fill : Option (Nat × Nat)) (d : Device) : Device :=
  let d := d.updProf c fun p => { p with hkIn := p.hkIn + qi, hkOut := p.hkOut + qo }
  let d := memWrite (0xE2000 + 16 * c.1) (leBytes 8 ((d.profs[c]).hkIn / 65536) ++ leBytes 8 ((d.profs[c]).hkOut / 65536)) d
  match fill with
  | some t => reconcile c t.1 t.2 d
  | none => d

/-- A charge joins the quadrant's pair (R267) and crosses to housekeeping, within the latency of R19 unless its channel stalls (R26, R270). -/
def chargeAdd (fill : Bool) (c : Chan) (i : Qty) (n : Nat) (d : Device) : Device :=
  let x := chargeOf i n
  let qi := if 0 < i then x else 0
  let qo := if 0 < i then 0 else x
  let d := d.updProf c fun p => { p with qIn := p.qIn + qi, qOut := p.qOut + qo }
  let tot := if fill then some ((d.profs[c]).qIn, (d.profs[c]).qOut) else none
  toHouse (Chan.quad c) (.charge c qi qo tot) (chargeArrives c qi qo tot) d

/-- Current of the halt-locked string-current conversion of the halt last run, if it was taken. -/
def haltCur (d : Device) (c : Chan) : Option Qty :=
  match istrOf d c with
  | some m =>
    if (d.mods[m]).snapHalt = d.halt.last ∧ (d.mods[m]).failed = false ∧ d.halt.ran then
      some (codeA d m (signedOf (d.mods[m]).snap.toNat 24))
    else none
  | none => none

/-- A string-current result is accumulated; intervals without results are filled first (R267, R268). None in a quiet window: its fill
covers it. -/
def charge (c : Chan) (d : Device) : Device :=
  let i := (d.chans[c]).i
  let p := d.profs[c]
  if d.halt.phase = .quiet then d
  else
    let start := d.up - stepSub
    let gap := start - p.lastEnd
    let mean := (p.lastI + i) / 2
    let d :=
      if p.lastEnd = 0 ∨ gap = 0 then d
      else if p.gapFrom.isSome then chargeAdd true c ((haltCur d c).getD mean) gap d
      else (chargeAdd true c mean gap d).updProf c fun p => { p with qGaps := satInc p.qGaps }
    (chargeAdd false c i stepSub d).updProf c fun p => { p with lastEnd := d.up, lastI := i, gapFrom := none }

/-! ### What a stream result feeds -/

/-- A string voltage arrives (R214, R190, R192, R253, R299). Headroom is judged here alone, not at a new SYS value (DESIGN CHOICE, log entry 160). -/
def onVstr (c : Chan) (v : Qty) (d : Device) : Device :=
  let was := foldIn d c
  let risen := decide ((d.chans[c]).st = .start ∧ vTgt d c / 10 < v)
  let d := d.updChan c fun s => { s with v := v, vSeen := true, ssOver := s.ssOver || risen }
  busEval (pathOnVolt c (restVolt c v (headroomUpdate c (foldUpdate was c d))))

/-- One capture sample of a channel (R440). -/
def chanSample (c : Chan) (d : Device) : Device :=
  let s := d.chans[c]
  let w := unitsOf s.icmd 16 16 + 2 ^ 16 * s.st.code + 2 ^ 19 * (d.paths[c]).st.code + 2 ^ 23 * b2n s.gate
  let x := sampleOf (wordNow d (vstrOf d c)) (wordNow d (istrOf d c)) (sysNow d (Chan.quad c)) w
  quadSample (Chan.quad c) 1 c.1 x (d.updChan c fun s => { s with hist := pushHist d s.histAt s.hist x, histAt := some (sampleNo d.ticks) })

/-- i_prof of a channel: 0 while its VSTR has neither modulator nor cover (R459). -/
def profStep (c : Chan) (d : Device) : Device :=
  let d := profUpdate c d
  if roleLost d (vstrOf d c) && (coverV d c).isNone then d.updProf c fun p => { p with iprof := 0 } else d

/-- A string current arrives: charge, rest current, loop step, breaker, losses, sample. -/
def onIstr (c : Chan) (i : Qty) (blind : Bool) (d : Device) : Device :=
  let d := (d.updChan c fun s => { s with i := i }).updPath c fun p => { p with blind := blind }
  let d := if blind then d else restCur c i (charge c d)
  let d := loopStep c (profStep c d)
  let d := if (d.chans[c]).vSeen then foldUpdate (foldIn d c) c d else d
  let d := pathLoss c (conduction c d)
  let d := if blind then d.updPath c fun p => { p with hAt := d.up } else busEval (pathOnCur c d)
  chanSample c d

/-- One capture sample of a source (R440). -/
def srcSample (k : Src) (d : Device) : Device :=
  let w := unitsOf d.bus.b 4 16 + 2 ^ 16 * (d.srcs[k]).st.code + 2 ^ 19 * d.bus.st.code
  let x := sampleOf (wordNow d (vsrcOf d k)) (wordNow d (isrcOf d k)) (sysNow d k) w
  quadSample k 2 k.1 x (d.updSrc k fun s => { s with hist := pushHist d s.histAt s.hist x, histAt := some (sampleNo d.ticks) })

def onVsrc (k : Src) (v : Qty) (d : Device) : Device := srcOnVolt k (d.updSrc k fun s => { s with v := v })
def onIsrc (k : Src) (i : Qty) (d : Device) : Device := srcSample k (srcLoss k (srcOnCur k (d.updSrc k fun s => { s with i := i })))

/-- A SYS result reaches housekeeping (R284). -/
def sysArrives (q : Quad) (v : Qty) (w : Word) (t : Nat) (d : Device) : Device := d.updQuad q fun s => { s with hkVal := v, hkAt := some t, hkWord := w }

/-- A SYS result (R284): fresh for 1 ms, and sources in HOLD may go on (R288). It crosses to housekeeping (R19). -/
def onSys (q : Quad) (v : Qty) (w : Word) (d : Device) : Device :=
  let d := d.updQuad q fun s => { s with sysVal := v, sysAt := some d.up, sysWord := w }
  let d := toHouse q (.sys v w d.up) (sysArrives q v w d.up) d
  halveEval (busEval (holdsRelease (staleUpdate d)))

/-- A corrected stream code reaches the consumers of its role (R327). -/
def feed (m : Pm) (code : Int) (w : Word) (d : Device) : Device :=
  let q := Pm.quad m
  match roleEff d m with
  | 1 => onVstr (roleChan d m) (codeV d m code) (d.updChan (roleChan d m) fun s => { s with vOwn := some (codeV d m code) })
  | 2 => onIstr (roleChan d m) (codeA d m code) false d
  | 3 => onVsrc q (codeV d m code) d
  | 4 => onIsrc q (codeA d m code) d
  | 5 => onSys q (codeV d m code) w d
  | _ => d

/-! ### Failure of a modulator (R457, R458) -/

/-- A modulator fails: its role is covered from now on and source f is raised. A spare that fails while it acts is bad from then
on (`markedBad`, R461). -/
def pmFail (m : Pm) (f : Nat) (d : Device) : Device :=
  if (d.mods[m]).failed then d
  else raise (f + m.1) (d.updMod m fun s => { s with failed := true, degraded := decide (roleEff d m ≠ 0) })

/-- MODULATOR_STREAM_FAULT: the stream is no longer valid (R379, R457). -/
def streamFault (m : Pm) (d : Device) : Device := pmFail m 0x520 (d.updMod m fun s => { s with streamOk := false })

/-- Results that lie more than 16 codes on the wrong side of the threshold that the comparator reports crossed (R458). -/
def tapCheck (m : Pm) (code : Int) (d : Device) : Device :=
  let q := Pm.quad m
  let cc := cmpCode (fsA d m) (codeA d m code)
  let c := roleChan d m
  let wrong : Bool :=
    match roleEff d m with
    | 2 => ((d.chans[c]).chlim && decide (cc < (ilimCode d c : Int) - 16)) ||
        ((d.chans[c]).chBelow && decide (((if (d.paths[c]).instCode then cInst d c else irevCode d c : Nat) : Int) + 16 < cc))
    | 4 => ((d.srcs[q]).isOver && decide (cc < (d.cf (srb q + 16) 0 10 : Int) - 16)) ||
        ((d.srcs[q]).isRev && decide ((d.cf (srb q + 16) 10 10 : Int) + 16 < cc))
    | _ => false
  d.updMod m fun s => { s with tapWrong := if wrong then s.tapWrong + 1 else 0, tapBad := s.tapBad || (wrong && decide (63 ≤ s.tapWrong)) }

/-! ### The stream (R334) -/

/-- Delay of the output, 2 us, and the settling of a stream, 307.2 us. -/
def outDelay : Nat := 800
def streamSettle : Nat := 122880

/-- Next instant at which the modulator's stream delivers: 2 us after a multiple of 512 ticks of local time, after its last result. -/
def nextResult (d : Device) (m : Pm) : Nat :=
  let lo := match (d.mods[m]).resAt with | some t => max d.up (t + 1) | none => d.up
  let l := d.loc + (lo - d.up)
  d.up + ((l + stepSub - 1 - outDelay % stepSub) / stepSub * stepSub + outDelay - d.loc)

/-- A conversion that is a mean of stream results (R334). -/
def isTap (d : Device) (m : Pm) (v : Conv) : Bool := streamRole d m && !v.halt && decide (v.req ≠ 9 ∧ v.req ≠ 1)

/-- A result of the stream, or of its cover, joins the tap conversion in progress (R334). -/
def tapBook (m : Pm) (code : Int) (ovr : Bool) (d : Device) : Device :=
  d.updMod m fun s =>
    let tap := match s.conv with | some v => isTap d m v && decide (s.tapN < 2 ^ min 11 v.osr) && decide (s.convAt + stepSub + outDelay ≤ d.up) | none => false
    if tap then { s with tapSum := s.tapSum + code, tapN := s.tapN + 1, tapOvr := s.tapOvr || ovr } else s

/-- A role is covered at the instant of its result (R459): the covered word carries `T_DEGRADED`. -/
def coverBook (m : Pm) (x full : Qty) (d : Device) : Device :=
  let code := satCode (qRound (qdiv (x * 8388608) full))
  (tapBook m code false d).updMod m fun s => { s with word := resultWord d m 0 code false false false, wordAt := some d.up }

/-- What covers the role of a failed modulator reaches the role's consumers (R459). Without a cover the loop of a string current goes on blind,
and the string voltage is the last valid result before the failure (R216). -/
def feedCover (m : Pm) (d : Device) : Device :=
  let q := Pm.quad m
  let c := roleChan d m
  let fsV := codeV d m 8388608
  let fsI := codeA d m 8388608
  match roleEff d m with
  | 1 => match coverV d c with
    | some v => onVstr c v (coverBook m v fsV d)
    | none => d.updChan c fun s => { s with v := s.vOwn.getD s.v }
  | 2 => match coverI d c with | some i => onIstr c i false (coverBook m i fsI d) | none => onIstr c (d.chans[c]).i true d
  | 3 => if (d.srcs[q]).g > 0 then onVsrc q (d.bus.vSys + sVfwd d q) (coverBook m (d.bus.vSys + sVfwd d q) fsV d) else d
  | _ => d

/-- Bookkeeping of a stream result: identical results, taps, tracking and coolant means. -/
def streamBook (m : Pm) (raw : Int) (code : Int) (ovr : Bool) (w : Word) (d : Device) : Device :=
  (tapBook m code ovr d).updMod m fun s =>
    let same := if s.raw = raw ∧ s.resAt.isSome then s.same + 1 else 1
    { s with
      raw := raw, code := code, word := w, wordAt := some d.up, same := same, ovr := s.ovr || ovr, streamOk := true, resAt := some d.up
      lastRaws := (s.lastRaws ++ [raw]).drop (s.lastRaws.length - 7)
      sumFrame := s.sumFrame + code, nFrame := s.nFrame + 1, badFrame := s.badFrame || ovr }

/-- STREAM_RESULT: a stream result of a stream-role modulator, or the cover of a failed one, reaches its consumers. -/
def streamResult (m : Pm) (raw : Int) (ovr : Bool) (d : Device) : Device :=
  if streamRole d m ∧ clkRuns d (Pm.quad m) ∧ d.start.st ≠ .reset ∧ d.start.st ≠ .init then
    let d := waitUp (nextResult d m) d
    if d.up < (d.mods[m]).streamAt + streamSettle ∨ d.hk.changing then d.updMod m fun s => { s with resAt := some d.up, streamOk := false }
    else if (d.mods[m]).failed then feedCover m (d.updMod m fun s => { s with resAt := some d.up })
    else
      let r := correct d m raw
      let o := ovr || r.2
      let w := resultWord d m 0 r.1 o false false
      let d := tapCheck m r.1 (streamBook m raw r.1 o w d)
      let d := feed m r.1 w d
      if 256 ≤ (d.mods[m]).same then streamFault m d else d
  else d

/-! ### Conversions (R333, R334, R340) -/

def convTicks (osr : Nat) : Nat := 512 * 2 ^ min 11 osr

/-- A conversion takes a stream-role modulator's input as it stands; the housekeeping round uses the switched filter (R334, R398). -/
def fixedInput (d : Device) (m : Pm) (idx : Nat) : Bool := streamRole d m && decide (idx ≠ 1)

/-- Delay from a grant to the start of a single-cycle conversion (R334), and to its result, in sub-ticks. -/
def convDelay (d : Device) (m : Pm) (idx : Nat) : Nat := if fixedInput d m idx then tick else 20 * us
def convSpan (d : Device) (m : Pm) (idx osr : Nat) : Nat := convDelay d m idx + convTicks osr * tick + outDelay

/-- Local instant at which a single-cycle conversion granted now starts: on a tick boundary (R334), a tracking sample on a boundary of 512
ticks (R462). -/
def convBegin (d : Device) (m : Pm) (idx : Nat) : Nat :=
  let g := if idx = 8 then stepSub else tick
  (d.loc + convDelay d m idx + g - 1) / g * g

/-- Local instant of its result. -/
def convEnds (d : Device) (m : Pm) (idx osr : Nat) : Nat := convBegin d m idx + convTicks osr * tick + outDelay

/-- Settling time S of R157 in sub-ticks, for W in units of 10 us. -/
def settle (w : Nat) : Nat := if 200 ≤ w then ms else w * (10 * us) / 2

/-- Period and quiet window in force, in sub-ticks. -/
def haltP (d : Device) : Nat := d.halt.lastPeriod * ms
def haltW (d : Device) : Nat := d.halt.lastQlen * (10 * us)

/-- The device knows the period of its halts: its own as time source or alone, else that of a HALT frame it has accepted (R154, R161). -/
def haltKnown (d : Device) : Bool := d.cvn.source || decide (d.cvn.role = .alone) || d.halt.accepted

/-- R340: a conversion of a switched modulator that could never be granted. -/
def tooLong (d : Device) (m : Pm) (osr : Nat) : Bool := haltKnown d && !streamRole d m && decide (haltP d - haltW d - ms < convTicks osr * tick)

/-- Halts announced or predicted whose snapshot has not ended. -/
def haltsAhead (d : Device) : List HaltSched := (if d.halt.snapped then [] else d.halt.cur.toList) ++ d.halt.next.toList

/-- R340: not granted while it would end after S - 100 us of such a halt. -/
def convBlocked (d : Device) (m : Pm) (idx osr : Nat) : Bool :=
  !fixedInput d m idx && (haltsAhead d).any fun h => decide (h.start * tick + settle h.qlen < convEnds d m idx osr + 100 * us)

/-- Word 0 fields of an entry (R345). -/
def sqMod (w : Nat) : Nat := bitsOf w 0 7
def sqHl (w : Nat) : Bool := bitOf w 7
def sqOsr (w : Nat) : Nat := min 11 (bitsOf w 8 4)
def sqRep (w : Nat) : Nat := bitsOf w 12 8
def sqRing (w : Nat) : Nat := bitsOf w 20 5
def sqEnabled (w : Nat) : Bool := decide (1 ≤ sqRep w) && decide (sqMod w ≤ 87)

/-- Conversions of the housekeeping round: input and OSR code at position p (R398). -/
def hkItem (p : Nat) : Nat × Nat :=
  match p with
  | 0 => (1, 9) | 1 => (2, 9) | 2 => (4, 7) | 3 => (5, 7) | 4 => (6, 7) | 5 => (7, 7) | n => (n + 2, 4)

/-- Input that a conversion takes: stream roles and NONE convert their own pair only (R327, R330; log
entry 134). -/
def inputOf (d : Device) (m : Pm) (code : Nat) : Nat := if streamRole d m || (decide (roleEff d m = 0) && !idleSpare d m) then 0 else code

/-- Input held for the halt snapshot: `PM_SNAP_IN` on a switched modulator, its role's input on an acting spare (R338). -/
def snapInput (d : Device) (m : Pm) : Nat := inputOf d m (pmSnapIn d (roleHome d m))

/-- Table whose halt-locked entry is the next to run on a modulator in the halt in progress (R342): the first booked for it. -/
def hlHead (d : Device) (m : Pm) : Option Table :=
  match d.halt.cur with
  | some h => ((d.mods[m]).hlQueue.find? fun x => decide ((d.seqs[x.1]).booked = some h.no)).map (·.1)
  | none => none

/-- The entry at which a table stands, as a conversion of requester idx. -/
def convEntry (d : Device) (m : Pm) (idx : Nat) (halt : Bool) (t : Table) : Conv :=
  let e := (d.seqs[t]).entry
  ⟨idx, sqOsr (sqWord0 d t e), inputOf d m (bitsOf (sqWord1 d t e) 20 6), halt, pairOf d m⟩

/-- The conversion that requester idx of a modulator asks for (R27). A threshold readback converts at OSR 4,096 (R202). -/
def convFor (d : Device) (m : Pm) (idx : Nat) : Conv :=
  let s := d.mods[m]
  let q := Pm.quad m
  match idx with
  | 0 => match hlHead d m with | some t => convEntry d m 0 true t | none => ⟨0, 0, 0, true, pairOf d m⟩
  | 1 => if (d.quads[q]).rbBusy ∧ d.halt.phase = .quiet then ⟨1, 3, 3, true, pairOf d m⟩ else
      let it := hkItem d.hk.pos[q]
      ⟨1, it.2, it.1, false, pairOf d m⟩
  | 7 => match s.injHost with | some j => ⟨7, j.osr, inputOf d m j.input, false, pairOf d m⟩ | none => ⟨7, 0, 0, false, pairOf d m⟩
  | 8 => ⟨8, 3, 0, true, match s.injNewt with | some x => x.1 | none => pairOf d m⟩
  | 9 => ⟨9, 9, 0, false, pairOf d m⟩
  | n => if h : 2 ≤ n ∧ n < 7 then convEntry d m n false ⟨n - 2, by omega⟩ else ⟨n, 0, 0, false, pairOf d m⟩

/-- A granted conversion: `convAt` is the instant from which its delay of R334 counts, so that it starts at `convBegin`. -/
def convStart (m : Pm) (idx : Nat) (d : Device) : Device :=
  let v := convFor d m idx
  d.updMod m fun s => { s with
    conv := some v, convAt := d.up + (convBegin d m idx - convDelay d m idx - d.loc), tapSum := 0, tapN := 0, tapOvr := false
    injRun := if idx = 7 then true else s.injRun }

/-- Arbiter instance of a modulator. -/
def mport (m : Pm) : Fin 99 := ⟨8 + m.1, by omega⟩

/-! ### Result records of tables and injections (R374) -/

def recBytes (r : RecBuild) : List Byte :=
  let w (k : Nat) : Nat := match r.words[k]? with | some x => x.1.toNat | none => 0
  let t (k : Nat) : Nat := match r.words[k]? with | some x => x.2 | none => 0
  let dt (k : Nat) : Nat := if k < r.words.length then min 65535 ((t k - t (k - 1) + 50) / 100) else 0
  leBytes 1 1 ++ leBytes 1 r.src ++ leBytes 1 r.mod ++ leBytes 1 (r.osr + 16 * b2n r.halt) ++ leBytes 1 r.entry ++ leBytes 1 r.input ++
    leBytes 1 r.words.length ++ leBytes 1 0 ++ leBytes 8 (t 0) ++ leBytes 4 (w 0) ++ leBytes 4 (w 1) ++ leBytes 4 (w 2) ++ leBytes 2 (dt 1) ++ leBytes 2 (dt 2)

/-- A record is closed and passed to the writer of table t. -/
def recClose (t : Table) (r : RecBuild) (d : Device) : Device := recPush t (Fin.ofNat 32 r.ring) (recBytes r) d

/-- A result joins the open record of a table, which closes at three results or before a delta above 0xFFFE (R374). -/
def recAdd (t : Table) (fresh : RecBuild) (w : Word) (d : Device) : Device :=
  let x := (w, d.ticks)
  let openRec (d : Device) : Device := d.updSeq t fun s => { s with build := some { fresh with words := [x] } }
  let d := match (d.seqs[t]).build with
    | none => openRec d
    | some r =>
      let last := match r.words.getLast? with | some y => y.2 | none => d.ticks
      if 0xFFFE < (d.ticks - last + 50) / 100 then openRec (recClose t r d)
      else d.updSeq t fun s => { s with build := some { r with words := r.words ++ [x] } }
  match (d.seqs[t]).build with
  | some r => if 3 ≤ r.words.length then (recClose t r d).updSeq t fun s => { s with build := none } else d
  | none => d

/-- The open record of a table closes (R374). -/
def recEnd (t : Table) (d : Device) : Device :=
  match (d.seqs[t]).build with
  | some r => (recClose t r d).updSeq t fun s => { s with build := none }
  | none => d

/-! ### Sequencer tables (R342 to R347) -/

/-- Disabled entries take no time: at most n of them are passed (R346). -/
def seqSkip : Nat → Table → Device → Device
  | 0, _, d => d
  | n + 1, t, d => if sqEnabled (sqWord0 d t (d.seqs[t]).entry) then d else
      seqSkip n t (d.updSeq t fun s => { s with entry := Fin.ofNat 64 (s.entry.1 + 1), passes := if s.entry.1 = 63 then s.passes + 1 else s.passes })

/-- The table moves past its entry and the disabled ones behind it (R346, R348). -/
def seqNext (t : Table) (d : Device) : Device :=
  seqSkip 64 t ((recEnd t d).updSeq t fun s => { s with
    entry := Fin.ofNat 64 (s.entry.1 + 1), passes := if s.entry.1 = 63 then s.passes + 1 else s.passes
    rep := 0, waiting := false, waitHalt := false, booked := none, skipTo := none, delayFrom := d.up })

/-- A modulator holds nothing more of a table: its request, grant, conversion and halt-locked place. -/
def seqDrop (t : Table) (m : Pm) (d : Device) : Device :=
  let s := d.mods[m]
  let mine (v : Conv) : Bool := decide (v.req = 2 + t.1) || (decide (v.req = 0) && decide (hlHead d m = some t))
  let d := arbRelease (mport m) (2 + t.1) (arbWithdraw (mport m) (2 + t.1) d)
  let d := if s.conv.any mine ∧ hlHead d m = some t then arbRelease (mport m) 0 d else d
  let d := d.updMod m fun s => { s with
    hlQueue := s.hlQueue.filter fun x => decide (x.1 ≠ t), conv := if s.conv.any mine then none else s.conv }
  if (hlHead d m).isNone then arbWithdraw (mport m) 0 d else d

/-- Starts a table at entry 0; one that restarts gives up what it had requested (R346). -/
def seqStart (t : Table) (d : Device) : Device :=
  seqSkip 64 t ((recEnd t (forEach allMods (seqDrop t) d)).updSeq t fun s => { s with
    running := true, entry := 0, rep := 0, waiting := false, waitHalt := false, booked := none, skipTo := none, delayFrom := d.up })

/-- The table's request for its next conversion, withheld while an injection is queued on the modulator (R350). -/
def seqRequest (t : Table) (m : Pm) (d : Device) : Device :=
  let d := d.updSeq t fun s => { s with waiting := true }
  if (d.mods[m]).injHost.isSome ∨ (d.mods[m]).injNewt.isSome then d else arbRequest (mport m) (2 + t.1) d

/-- Number of the first halt whose quiet window starts at least 1 ms from now (R342). Where no such halt is known, the entry books the one that is made
known next (`hlRebook`). -/
def hlBook (d : Device) : Option Word :=
  ((d.halt.cur.toList ++ d.halt.next.toList).find? fun h => decide (d.loc + ms ≤ h.start * tick)).map (·.no)

/-- An entry that waits without a booking, as no halt was known, books a halt made known now, if it starts at least 1 ms after the entry's delay had
run (R342). `start` is in ticks of local time. -/
def hlRebook (no : Word) (start : Nat) (d : Device) : Device :=
  forEach (List.finRange 5) (fun t d =>
    let s := d.seqs[t]
    if s.waitHalt ∧ s.booked = none ∧ s.skipTo = none ∧ d.loc + ms ≤ start * tick + (d.up - s.delayFrom) then
      d.updSeq t fun s => { s with booked := some no }
    else d) d

/-- The entry at which a table stands begins after its delay: a halt is booked, the entry is skipped, or its conversion is requested (R343, R346). -/
def seqGo (t : Table) (d : Device) : Device :=
  let e := (d.seqs[t]).entry
  let w := sqWord0 d t e
  if sqEnabled w then
    let m : Pm := Fin.ofNat 88 (sqMod w)
    let d := waitUp ((d.seqs[t]).delayFrom + bitsOf (sqWord1 d t e) 0 20 * (10 * us)) d
    if sqHl w then
      (d.updSeq t fun s => { s with waitHalt := true, booked := hlBook d, rep := 0, delayFrom := d.up }).updMod m fun s => { s with hlQueue := s.hlQueue ++ [(t, e.1)] }
    else if (d.quads[Pm.quad m]).armed = false ∨ tooLong d m (sqOsr w) then
      seqNext t (d.updSeq t fun s => { s with skipped := satInc s.skipped })
    else seqRequest t m d
  else d

/-- SEQUENCER_DELAY_EXPIRY (R346). A table whose booked halt does not run moves on at that halt's quiet-window end (R343). -/
def seqDelay (t : Table) (d : Device) : Device :=
  match (d.seqs[t]).waitHalt, (d.seqs[t]).skipTo with
  | true, some x => seqNext t (waitUp x d)
  | _, _ =>
  if (d.seqs[t]).running ∧ (d.seqs[t]).waiting = false ∧ (d.seqs[t]).waitHalt = false then seqGo t (seqSkip 64 t d) else d

/-- A result of a table's conversion (R346, R374). -/
def seqResult (t : Table) (m : Pm) (w : Word) (halt : Bool) (d : Device) : Device :=
  let e := (d.seqs[t]).entry
  let w0 := sqWord0 d t e
  let fresh : RecBuild := ⟨t.1, m.1, sqOsr w0, halt, e.1, inputOf d m (bitsOf (sqWord1 d t e) 20 6), sqRing w0, []⟩
  let d := (recAdd t fresh w d).updSeq t fun s => { s with rep := s.rep + 1 }
  let ended := decide (sqRep w0 ≤ (d.seqs[t]).rep)
  if halt then (if ended then recEnd t d else d)
  else if ended then seqNext t d
  else seqRequest t m d

/-- Tables do not hold a request on a modulator on which an injection is queued (R350, R360). -/
def seqYield (m : Pm) (d : Device) : Device := forEach (List.finRange 5) (fun t d => arbWithdraw (mport m) (2 + t.1) d) d

/-- Tables whose request waited for an injection on the modulator raise it. -/
def seqResume (m : Pm) (d : Device) : Device :=
  forEach (List.finRange 5) (fun t d =>
    if (d.seqs[t]).waiting ∧ sqMod (sqWord0 d t (d.seqs[t]).entry) = m.1 ∧ ((d.mods[m]).conv.map (·.req)) ≠ some (2 + t.1) then seqRequest t m d else d) d

/-- Halt-locked entries booked for a halt request their modulators at the end of its snapshot (R342). -/
def hlRequest (d : Device) : Device :=
  forEach allMods (fun m d => if (hlHead d m).isSome then arbRequest (mport m) 0 d else d) d

/-- The table waits for halt `no`, or for one before it. -/
def seqBooked (s : SeqSt) (no : Word) : Bool :=
  s.waitHalt && (match s.booked with | some b => decide (b = no) || follows32 b.toNat no.toNat | none => false)

/-- A table's booked entry gives up its place on its modulator; one that has not had all its repeats is missed (R343). -/
def hlGiveUp (t : Table) (d : Device) : Device :=
  let s := d.seqs[t]
  let w0 := sqWord0 d t s.entry
  let m : Pm := Fin.ofNat 88 (sqMod w0)
  let d := if s.rep < sqRep w0 ∧ s.skipTo = none then d.updSeq t fun s => { s with hlMissed := satInc s.hlMissed } else d
  let d := d.updMod m fun x => { x with
    hlQueue := x.hlQueue.filter fun y => decide (y.1 ≠ t)
    conv := match x.conv with | some v => if v.req = 0 then none else some v | none => none }
  arbRelease (mport m) 0 (arbWithdraw (mport m) 0 d)

/-- At the quiet-window end the tables that waited for the halt move on (R343). -/
def hlSettle (no : Word) (d : Device) : Device :=
  forEach (List.finRange 5) (fun t d => if seqBooked d.seqs[t] no then seqNext t (hlGiveUp t d) else d) d

/-- A booked halt does not run: its entries are skipped, and their tables move on at the end of its quiet window (R343), given in local
time. -/
def hlSkip (no : Word) (fin : Nat) (d : Device) : Device :=
  forEach (List.finRange 5) (fun t d =>
    if seqBooked d.seqs[t] no then (hlGiveUp t d).updSeq t fun s => { s with skipTo := some (d.up + (fin - d.loc)) } else d) d

/-- A halt that the device has known is not to come: entries that booked it are skipped (R343). -/
def hlForget (h : HaltSched) (d : Device) : Device :=
  forEach (List.finRange 5) (fun t d =>
    if (d.seqs[t]).waitHalt ∧ (d.seqs[t]).booked = some h.no then
      (hlGiveUp t d).updSeq t fun s => { s with skipTo := some (d.up + (h.start * tick + h.qlen * (10 * us) - d.loc)) }
    else d) d

/-- The coming halt is dropped from the device's schedule. -/
def dropHalt (d : Device) : Device :=
  match d.halt.next with
  | some h => hlForget h (d.updHalt fun x => { x with next := none })
  | none => d

/-- A halt joins the schedule as the coming one. -/
def announce (h : HaltSched) (d : Device) : Device := hlRebook h.no h.start (d.updHalt fun x => { x with next := some h, nextAt := d.loc })

/-- R343: all repeats of a halt-locked entry, each granted at the result of the one before (R334), end by W - 20 us. -/
def hlFits (d : Device) (m : Pm) : Bool :=
  match hlHead d m, d.halt.cur with
  | some t, some h =>
    let w0 := sqWord0 d t (d.seqs[t]).entry
    let one := convTicks (sqOsr w0) * tick + outDelay
    decide (convBegin d m 0 + (sqRep w0 - 1) * (convDelay d m 0 + one) + one ≤ h.start * tick + h.qlen * (10 * us) - 20 * us)
  | _, _ => false

/-! ### Calibration steps (R357 to R360) -/

/-- A step in DEFERRED starts when no injection is left on its modulator (R360). -/
def calTryStart (d : Device) : Device :=
  let m : Pm := Fin.ofNat 88 d.cal.mod.toNat
  if d.cal.step = 1 ∧ (d.mods[m]).injHost.isNone ∧ (d.mods[m]).injNewt.isNone then
    arbRequest (mport m) 9 (d.updCal fun c => { c with step := if c.full then 4 else 2, sum := 0, n := 0 })
  else d

/-- Coefficients are in force that no commit has written (R359, R363, R463). -/
def calPending (d : Device) : Device := d.updCal fun c => { c with pending := true, since := true }

/-- Bytes of the mirror's CALIB record are written, and its modulator's island takes them (R359). -/
def calWrite (m : Pm) (bs : List Byte) (d : Device) : Device :=
  let d := toQuad (Pm.quad m) (.words (some m)) (fun d => d.updMem fun x => { x with conf := msets x.conf (calb m) bs })
    (memWrite (calb m) bs (calPending d))
  d.updLoader fun l => { l with base := msets l.base (calb m) bs }

def enc32 (x : Int) : Nat := encSigned x 32

/-- CAL_STEP_DONE (R358, R359): the reading in units of 1/256 code. -/
def calStepDone (d : Device) : Device :=
  let c := d.cal
  let m : Pm := Fin.ofNat 88 c.mod.toNat
  let rd := c.sum * 4
  if c.n < 64 then d
  else if c.step = 2 then d.updCal fun c => { c with step := 3, held := some (m, rd), n := 0, sum := 0 }
  else if c.step = 4 then
    match c.held with
    | none => d
    | some (_, z) =>
      let gain := if rd = z then 0 else qRound ((c.applied : Qty) / ((rd - z : Int) : Qty) * 2 ^ 30)
      if rd = z ∨ coefOk z gain = false then
        alertSet 3 (d.updCal fun c => { c with step := 6, reason := 0x12, n := 0, sum := 0 })
      else
        let bs := leBytes 4 (enc32 z) ++ leBytes 4 gain.toNat ++ leBytes 4 1 ++ leBytes 4 d.halt.last.toNat ++ leBytes 8 d.ticks ++
          leBytes 4 (enc32 z) ++ leBytes 4 (enc32 rd)
        alertSet 3 ((calWrite m bs d).updCal fun c => { c with step := 5, reason := 0, held := none, n := 0, sum := 0 })
  else d

/-! ### CONVERSION_DONE -/

/-- An injection ends on a modulator (R350, R360). -/
def injEnd (m : Pm) (d : Device) : Device := calTryStart (seqResume m d)

/-- Address of a tracking sample (R530): spare s, position i, sample j. -/
def trackAddr (s i j : Nat) : Nat := 0xE4000 + 1280 * s + 64 * i + 8 * j

/-- Number of a spare: 2q + position - 20. -/
def spareNo (m : Pm) : Nat := 2 * (Pm.quad m).1 + (Pm.pos m - 20)

/-- Samples held of a position by a spare. -/
def trackCount (s : ModSt) (i : Nat) : Nat := match s.trackCnt.find? (·.1 = i) with | some x => x.2 | none => 0

/-- The primary's part of a tracking sample of position i (R462): x in 1/8 code from its eight raw results, where it may be tracked. -/
def trackX (d : Device) (m : Pm) (i : Nat) : Option Int :=
  let p := d.mods[(Fin.ofNat 88 (22 * (Pm.quad m).1 + i) : Pm)]
  if p.lastRaws.length = 8 ∧ p.disagreed = false ∧ p.failed = false ∧ p.bad = false then some p.lastRaws.sum else none

/-- A tracking sample (R462, R530): x of the primary, y the spare's raw result. -/
def trackStore (m : Pm) (i : Nat) (x y : Int) (d : Device) : Device :=
  let n := trackCount (d.mods[m]) i
  let a := trackAddr (spareNo m) i (n % 8)
  let d := if cwBad d (a / 32) then trackLoss (a / 32) d else d
  let d := memWrite a (leBytes 4 (enc32 x) ++ leBytes 4 (enc32 y)) d
  d.updMod m fun s => { s with
    trackCnt := (i, n + 1) :: s.trackCnt.filter fun x => decide (x.1 ≠ i)
    trackLost := s.trackLost.filter fun x => decide (x ≠ (i, n % 8)) }

/-- Modulator that converts a quadrant's part of the housekeeping round: the HKSW role, or position 19 of a quadrant that is not armed (R398). -/
def roundMod (d : Device) (q : Quad) : Option Pm :=
  if (d.quads[q]).armed then
    match hkswOf d q with
    | some m => if (d.mods[m]).failed then none else some m
    | none => none
  else some (Fin.ofNat 88 (22 * q.1 + 19))

/-- A single-cycle conversion taken in a quiet window: from its start to its result (R335). -/
def inQuiet (d : Device) (m : Pm) (idx : Nat) : Bool :=
  decide (d.halt.phase = .quiet) && decide (d.up ≤ (d.mods[m]).convAt + convDelay d m idx + (d.loc - d.halt.phaseAt))

/-- The reference of the switch whose feedback position p of the round has read is held for the judgement (R409). -/
def fbMark (q : Quad) (p : Nat) (d : Device) : Device :=
  if 6 ≤ p ∧ p < 14 then
    let c : Chan := Fin.ofNat 32 (8 * q.1 + (p - 6))
    d.updHk fun h => { h with fbG := upd h.fbG (Fin.ofNat 36 c.1) fun _ => gateNow d c }
  else if p = 14 then d.updHk fun h => { h with fbG := upd h.fbG (Fin.ofNat 36 (32 + q.1)) fun _ => (d.srcs[q]).g }
  else d

/-- Instant of a single-cycle conversion's result (R334). No result is delivered until 307.2 us after the launch of the change to `REFB`
(R406). -/
def convDue (d : Device) (m : Pm) (v : Conv) : Nat :=
  max ((d.mods[m]).convAt + convSpan d m v.req v.osr) (match d.hk.changedAt with | some t => t + streamSettle | none => 0)

/-- The result of a conversion of a modulator reaches the requester that it was made for (R334): a halt-locked entry, the housekeeping round, an injection,
a tracking sample, a calibration step, or a table. -/
def resultArrives (m : Pm) (v : Conv) (raw code : Int) (w : Word) (x : Option Int) (d : Device) : Device :=
  let s := d.mods[m]
  match v.req with
  | 0 =>
    match hlHead d m with
    | some t =>
      let d := seqResult t m w true d
      let w0 := sqWord0 d t (d.seqs[t]).entry
      if sqRep w0 ≤ (d.seqs[t]).rep then
        let d := arbRelease (mport m) 0 (d.updMod m fun s => { s with hlQueue := s.hlQueue.filter fun x => decide (x.1 ≠ t) })
        if (hlHead d m).isSome then arbRequest (mport m) 0 d else d
      else convStart m 0 d
    | none => arbRelease (mport m) 0 d
  | 1 =>
    let q := Pm.quad m
    let p := d.hk.pos[q]
    if roundMod d q ≠ some m then arbRelease (mport m) 1 d
    else if d.hk.stray[q] then arbRequest (mport m) 1 (arbRelease (mport m) 1 (d.updHk fun h => { h with stray := upd h.stray q fun _ => false }))
    else
      let d := fbMark q p d
      let d := arbRelease (mport m) 1 (d.updHk fun h => { h with raws := upd h.raws q (· ++ [some code]), pos := upd h.pos q (· + 1) })
      if p + 1 < 15 then arbRequest (mport m) 1 d else d
  | 7 =>
    let ring := match s.injHost with | some j => j.ring | none => 255
    let d := arbRelease (mport m) 7 (d.updMod m fun s => { s with inj := w, injHost := none, injRun := false })
    let d := if ring < 32 then
        recClose 4 ⟨5, m.1, v.osr, false, 255, v.input, ring, [(w, d.ticks)]⟩ d
      else d
    injEnd m d
  | 8 =>
    let d := match s.injNewt, x with | some (i, _), some x => trackStore m i x raw d | _, _ => d
    injEnd m (arbRelease (mport m) 8 (d.updMod m fun s => { s with injNewt := none }))
  | 9 =>
    let d := arbRelease (mport m) 9 (d.updCal fun c => { c with sum := c.sum + raw, n := c.n + 1 })
    if d.cal.n < 64 then arbRequest (mport m) 9 d else d
  | n =>
    if h : 2 ≤ n ∧ n < 7 then seqResult ⟨n - 2, by omega⟩ m w false (arbRelease (mport m) n d)
    else arbRelease (mport m) n d

/-- CONVERSION_DONE (R334): the result of the granted conversion crosses to its requester (R19). None is delivered while the device changes to `REFB`
(R406); a threshold readback ends by its own command. -/
def conversionDone (m : Pm) (raw0 : Int) (ovr0 : Bool) (d : Device) : Device :=
  match (d.mods[m]).conv with
  | none => d
  | some v =>
    let s := d.mods[m]
    let tap := isTap d m v
    if d.hk.changing ∨ (v.req = 1 ∧ v.halt) ∨ (tap ∧ s.tapN < 2 ^ min 11 v.osr) then d
    else
      let d := if tap then d else waitUp (convDue d m v) d
      let r := if tap then (satCode (qRound (qdiv (s.tapSum : Qty) (s.tapN : Qty))), s.tapOvr)
        else let x := correct d m raw0; (x.1, x.2 || ovr0)
      let w := resultWord d m v.input r.1 r.2 (!tap && inQuiet d m v.req) tap
      let d := d.updMod m fun s => { s with conv := none, ovr := s.ovr || r.2 }
      let x := match s.injNewt with | some (i, _) => trackX d m i | none => none
      toHouse (Pm.quad m) (.result m v raw0 r.1 w x) (resultArrives m v raw0 r.1 w x) d

/-! ### The halt snapshot (R338 to R341) and the cross-check (R458) -/

/-- Largest k below n + 1 whose conversion of N ticks fits a span of sub-ticks, 0 if none. -/
def largestK (span : Nat) : Nat → Nat
  | 0 => 0
  | n + 1 => if convTicks (n + 1) * tick ≤ span then n + 1 else largestK span n

/-- Snapshot OSR code of R339 for W in units of 10 us. -/
def snapK (d : Device) (w : Nat) : Nat :=
  let s := settle w
  let wt := w * (10 * us)
  if snapOsr d = 0 then largestK ((wt - s) / 2 - outDelay) 11
  else
    let k := min 12 (snapOsr d) - 1
    if s + convTicks k * tick + outDelay ≤ wt - 100 * us then k else largestK (wt - 100 * us - s - outDelay) 11

/-- Snapshot code of a working modulator in this halt. -/
def snapOf (d : Device) (m : Option Pm) : Option (Pm × Int) :=
  match m with
  | some m => if (d.mods[m]).snapHalt = d.halt.last ∧ (d.mods[m]).failed = false ∧ (d.mods[m]).bad = false ∧ d.halt.snapped then
      some (m, signedOf (d.mods[m]).snap.toNat 24) else none
  | none => none

def snapV (d : Device) (m : Option Pm) : Option Qty := (snapOf d m).map fun x => codeV d x.1 x.2
def snapA (d : Device) (m : Option Pm) : Option Qty := (snapOf d m).map fun x => codeA d x.1 x.2

/-- Insertion into an ascending list. -/
def insQ (x : Qty) : List Qty → List Qty
  | [] => [x]
  | y :: ys => if x ≤ y then x :: y :: ys else y :: insQ x ys

/-- Median of R404: the middle value, or the mean of the middle two. -/
def medianQ (l : List Qty) : Qty :=
  let s := l.foldl (fun a x => insQ x a) []
  let n := s.length
  if n = 0 then 0 else if n % 2 = 1 then s.getD (n / 2) 0 else (s.getD (n / 2 - 1) 0 + s.getD (n / 2) 0) / 2

/-- Relative disagreement of two quantities above p. -/
def differs (a b p : Qty) : Bool := decide (p * |b| < |a - b|)

/-- The test of a role at a halt: none where it is not evaluated (R458). -/
def roleTest (d : Device) (m : Pm) : Option Bool :=
  let q := Pm.quad m
  let c := roleChan d m
  let sys := snapV d (sysOf d q)
  let big : Bool := match snapOf d (some m) with | some (_, r) => decide (8388608 < 1000 * |r|) | none => false
  match roleEff d m with
  | 1 => if (d.paths[c]).atQuiet = .full then (match snapV d (some m), sys with | some v, some y => some (differs v y (2 / 1000)) | _, _ => none) else none
  | 3 => if (d.srcs[q]).st = .admitted ∧ (d.srcs[q]).g = sFull d q then
      (match snapV d (some m), sys with | some v, some y => some (differs v y (2 / 1000)) | _, _ => none) else none
  | 5 =>
    let oth := (allQuads.filter fun j => decide (j ≠ q) && (d.quads[j]).armed && hkFresh d j).filterMap fun j => snapV d (sysOf d j)
    if 2 ≤ oth.length then (snapV d (some m)).map fun v => differs v (medianQ oth) (5 / 10000) else none
  | 2 =>
    let st := (d.paths[c]).st
    let z := decide (st = .wait ∨ st = .gtest ∨ st = .block ∨ st = .tripped ∨ st = .norise ∨ st = .absent)
    some ((z && big) || (d.mods[m]).tapBad)
  | 4 =>
    let st := (d.srcs[q]).st
    let z := decide (st = .off ∨ st = .below ∨ st = .qual ∨ st = .norise) && !(d.srcs[q]).stuck
    some ((z && big) || (d.mods[m]).tapBad)
  | 6 =>
    let oth := (allQuads.filter fun j => decide (j ≠ q)).filterMap fun j => d.hk.qdelta[j]
    match d.hk.qdelta[q] with
    | some x => if 2 ≤ oth.length then some (decide (10 / 1000000 < |x - medianQ oth|)) else none
    | none => none
  | _ => none

/-- The cross-check of one modulator: it fails at the third consecutive disagreement. -/
def crossCheck (m : Pm) (d : Device) : Device :=
  if (d.quads[Pm.quad m]).armed ∧ roleEff d m ≠ 0 ∧ (d.mods[m]).failed = false then
    match roleTest d m with
    | none => d.updMod m fun s => { s with tapBad := false, tapWrong := 0, disagreed := false }
    | some bad =>
      let n := if bad then (d.mods[m]).checkRun + 1 else 0
      let d := d.updMod m fun s => { s with checkRun := n, tapBad := false, tapWrong := 0, disagreed := bad }
      if 3 ≤ n then pmFail m 0x4C0 d else d
  else d

/-- Trackable positions of a quadrant, ascending (R462). -/
def trackable (d : Device) (q : Quad) : List Nat :=
  (List.range 20).filter fun i =>
    let r := pmRole d (Fin.ofNat 88 (22 * q.1 + i))
    decide (r = 1 ∨ r = 2 ∨ r = 3 ∨ r = 4 ∨ r = 5 ∨ r = 7)

/-- An idle spare requests its tracking sample of this halt (R462). -/
def trackRequest (m : Pm) (d : Device) : Device :=
  let q := Pm.quad m
  let l := trackable d q
  let k := if Pm.pos m = 20 then d.halt.last.toNat % l.length else (d.halt.last.toNat + l.length / 2) % l.length
  let fits : Bool := match d.halt.cur with
    | some h => decide (convEnds d m 8 3 ≤ h.start * tick + h.qlen * (10 * us) - 20 * us)
    | none => false
  if 20 ≤ Pm.pos m ∧ (d.quads[q]).armed ∧ (d.mods[m]).acting.isNone ∧ (d.mods[m]).bad = false ∧ (d.mods[m]).injNewt.isNone ∧ l ≠ [] ∧ fits then
    arbRequest (mport m) 8 (seqYield m (d.updMod m fun s => { s with injNewt := some (l.getD k 0, 0) }))
  else d

/-- The HALT record of a channel (R375). -/
def haltRecord (c : Chan) (d : Device) : Device :=
  let p := d.profs[c]
  let w (m : Option Pm) : Nat := match snapOf d m with | some (m, _) => (d.mods[m]).snap.toNat | none => 0x80000000
  chanRecord c (leBytes 1 2 ++ leBytes 1 c.1 ++ leBytes 1 (haltFlagsIn d (Chan.quad c)).toNat ++ leBytes 1 p.snapPhase.code ++ leBytes 4 d.halt.last.toNat ++
    leBytes 4 (w (vstrOf d c)) ++ leBytes 4 (w (istrOf d c)) ++ leBytes 8 p.snapIn.toNat ++ leBytes 8 p.snapOut.toNat) d

/-- What a halt's snapshot gives a channel: its HALT record and its halt-locked reading (R257, R375). -/
def chanSnap (at0 : Nat) (c : Chan) (d : Device) : Device :=
  if (d.chans[c]).armed then
    let d := haltRecord c d
    match snapV d (vstrOf d c), snapA d (istrOf d c) with
    | some v, some i => haltReading c at0 v i d
    | _, _ => d
  else d

/-- Snapshot result of one modulator (R341). SNAPSHOT_DONE gives raw results alone: one at an end code is taken as overrange (R335; DEDUCED, log
entry 178). -/
def snapStore (m : Pm) (raw : Int) (d : Device) : Device :=
  if clkRuns d (Pm.quad m) then
    let r := correct d m raw
    let w := resultWord d m (snapInput d m) r.1 (r.2 || decide (raw = 8388607 ∨ raw = -8388608)) true false
    d.updMod m fun s => { s with snap := w, snapHalt := d.halt.last, ovr := s.ovr || bitOf w.toNat 24 }
  else d

/-- A snapshot that started at an instant gives no results: the device is changing to `REFB`, or changed while it ran (R406). -/
def snapLost (d : Device) (at0 : Nat) : Bool := d.hk.changing || (match d.hk.changedAt with | some t => decide (at0 ≤ t) | none => false)

/-- SNAPSHOT_DONE: once in a quiet window, after the conversion start (R338 to R342, R375, R458, R462). -/
def snapshotDone (raws : Vector (BitVec 24) 88) (d : Device) : Device :=
  match d.halt.cur with
  | some h =>
    if d.halt.phase = .quiet ∧ d.halt.converted ∧ d.halt.snapped = false then
      let k := snapK d h.qlen
      let s0 := h.start * tick + settle h.qlen
      let d := waitLoc (s0 + convTicks k * tick + outDelay) d
      let at0 := d.up - (d.loc - s0)
      let d := if snapLost d at0 then d else forEach allMods (fun m d => snapStore m (raws[m]).toInt d) d
      let d := d.updHalt fun x => { x with snapped := true }
      let d := forEach allChans (chanSnap at0) d
      let d := forEach allMods crossCheck d
      hlRequest (forEach allMods trackRequest d)
    else d
  | none => d

/-! ### Threshold readback (R202 to R204, R459) -/

/-- A readback conversion is in progress on a modulator. -/
def readbackOpen (d : Device) (m : Pm) : Bool := match (d.mods[m]).conv with | some v => decide (v.req = 1) && v.halt | none => false

/-- READBACK_TEST_DONE: the granted conversion's result (R202); the level on the readback bus is 1.5 V + r x 2.5 V / 8,388,608 (R330). -/
def readbackDone (q : Quad) (raw : Int) (idle high : Cmp) (d : Device) : Device :=
  match hkswOf d q with
  | some m =>
    if (d.mods[m]).failed ∨ readbackOpen d m = false ∨ d.hk.changing then d
    else
      let d := waitUp ((d.mods[m]).convAt + convSpan d m 1 3) d
      let r := (correct d m raw).1
      let d := readback q (3 / 2 + (r : Qty) * (5 / 2) / 8388608) idle high d
      let d := arbRelease (mport m) 1 (d.updMod m fun s => { s with conv := match s.conv with | some v => if v.req = 1 then none else some v | none => none })
      if (d.quads[q]).rbBusy ∨ d.hk.pos[q] < 15 then arbRequest (mport m) 1 d else d
  | none => d

def execModulatorStreamFault (m : Pm) (s : State) : Host.Outcome State Fault Refusal := done (streamFault m) s
def execCalStepDone (s : State) : Host.Outcome State Fault Refusal := done calStepDone s

end Sys2Proof.Machine
end

