-- ==== Sys2Proof/Machine/Thermal.lean ====
section
/-! DEFINITION. Sys2Proof/Machine/Thermal.lean: thermal models (10, R380 to R394). -/

namespace Sys2Proof.Machine

/-- A model is in use (R380, R114). -/
def modelInUse (d : Device) (m : Nat) : Bool :=
  if m < 136 then
    let n : Slot := Fin.ofNat 136 m
    (d.quads[Slot.quad n]).armed && (isSpareSlot d n || (match assignedTo d n with | some c => (d.chans[c]).armed | none => false))
  else if m < 168 then (d.chans[Fin.ofNat 32 (m - 136)]).armed
  else (d.quads[Fin.ofNat 4 (m - 168)]).armed

/-- Trip source of a model (R413). -/
def tripSource (m : Nat) : Nat := if m < 136 then 0x1B0 + m else if m < 168 then 0x480 + (m - 136) else 0x4B0 + (m - 168)

/-! ### Coolant (R387, R388) -/

def clb (j : Nat) : Nat := 0x18010 + 8 * j
def clFed (d : Device) (j : Nat) : Bool := d.cf (clb j) 0 1 = 1
def clMod (d : Device) (j : Nat) : Pm := Fin.ofNat 88 (d.cf (clb j) 1 7)
def tCool (d : Device) (j : Nat) : Qty := q16 (d.cf (clb j) 16 16)
def clOfs (d : Device) (j : Nat) : Qty := q16 (d.cf (clb j + 4) 0 16)
def clGain (d : Device) (j : Nat) : Qty := q16 (d.cf (clb j + 4) 16 16)

/-- The modulator that delivers the role of another: a spare that acts for it, or itself. -/
def actingFor (d : Device) (m : Pm) : Pm :=
  match allMods.find? fun s => decide ((d.mods[s]).acting = some m) with | some s => s | none => m

/-- At a frame's end the coolant readings of the frame are taken, and the modulators start their next sums. -/
def coolantFrame (d : Device) : Device :=
  if d.loader.built = false ∨ d.hk.clAt = some d.loc then d else
  let read (j : Nat) : Option Qty :=
    let s := d.mods[actingFor d (clMod d j)]
    if s.nFrame = 0 ∨ s.badFrame ∨ s.failed then none
    else some (clOfs d j + clGain d j * ((s.sumFrame : Qty) / (s.nFrame : Qty)) / 8388608)
  let d := d.updHk fun h => { h with clT := Vector.ofFn fun j => if clFed d j.1 then read j.1 else none, clAt := some d.loc, clNew := true }
  { d with mods := d.mods.map fun (s : ModSt) => { s with sumFrame := 0, nFrame := 0, badFrame := false } }

/-- A frame's reading is good. -/
def clGoodRead (t : Option Qty) : Bool := match t with | some x => decide (-40 ≤ x ∧ x ≤ 150) | none => false

/-- Judgement of one coolant channel at an update: fall-back at the first bad frame, return after 100 good ones. -/
def coolantStep (j : Fin 4) (d : Device) : Device :=
  if clFed d j.1 then
    let t := d.hk.clT[j]
    let fell := bitOf d.hk.clFallback.toNat j.1
    if clGoodRead t then
      let n := d.hk.clGood[j] + 1
      let back := fell && decide (100 ≤ n)
      let d := d.updHk fun h => { h with
        clGood := h.clGood.set j n
        clFallback := if back then h.clFallback &&& ~~~(BitVec.ofNat 4 (2 ^ j.1)) else h.clFallback }
      if back then faultEnds (0x590 + j.1) d else d
    else
      let d := d.updHk fun h => { h with clGood := h.clGood.set j 0, clFallback := h.clFallback ||| BitVec.ofNat 4 (2 ^ j.1) }
      raiseLevel (0x590 + j.1) (match t with | some x => encSigned (qFloor (x * 16)) 32 | none => 0x80000000) d
  else d

/-- The frame just ended is judged, once (R388). -/
def coolantJudge (d : Device) : Device :=
  if d.hk.clNew then forEach (List.finRange 4) coolantStep (d.updHk fun h => { h with clNew := false }) else d

/-- Coolant temperature of a channel in force. -/
def coolant (d : Device) (j : Nat) : Qty :=
  let i : Fin 4 := Fin.ofNat 4 j
  if clFed d j && !bitOf d.hk.clFallback.toNat j then (d.hk.clT[i]).getD (tCool d j) else tCool d j

/-! ### Update (R381, R391 to R393) -/

/-- One stage of R381; a_k is exact to the precision of log entry 8. -/
def stageStep (rth tau p th : Qty) : Qty :=
  if rth = 0 ∧ th = 0 then 0
  else
    let a := expQ (-(qdiv (1 / 1000) tau))
    q60 (th * a + p * rth * (1 - a))

/-- k_th of R391. -/
def kthOf (tj tdr ttrip mn : Qty) : Qty :=
  if tj ≤ tdr then 1 else if tj < ttrip then 1 - (1 - mn) * qdiv (tj - tdr) (ttrip - tdr) else mn

/-- Update of one model from the energy of the frame just ended. -/
def modelStep (m : Model) (d : Device) : Device :=
  let tc := coolant d (tmCl d m)
  if modelInUse d m then
    let x := d.therm[m]
    let p := x.frameE * 1000
    let st (k : Nat) (th : Qty) : Qty := stageStep (frRth d m k) (frTau d m k) p th
    let t0 := st 0 x.th0
    let t1 := st 1 x.th1
    let t2 := st 2 x.th2
    let t3 := st 3 x.th3
    let tj := tc + t0 + t1 + t2 + t3
    let k := kthOf tj (tDr d m) (tTrip d m) (drMin d m)
    let hot := decide (tDr d m < tj)
    let cold := decide (tj < tDr d m)
    let trip := decide (tTrip d m ≤ tj)
    let d := d.updTherm m fun x => { x with
      th0 := t0, th1 := t1, th2 := t2, th3 := t3, tcool := tc, tj := tj, p := p, kth := k, frameE := 0
      derate := if hot then true else if cold then false else x.derate
      trip := if trip then true else if cold then false else x.trip
      peak := peakOf x tj }
    let d := if hot then raiseLevel (0x240 + m.1) 0 d else if cold then faultEnds (0x240 + m.1) d else d
    if trip then raiseLevel (tripSource m.1) 0 d else if cold then faultEnds (tripSource m.1) d else d
  else d.updTherm m fun x => { x with tcool := tc, tj := tc, frameE := 0, energy := 0, peak := peakOf x tc }

def allModels : List Model := List.finRange 172

/-- Models of the stages of a quadrant (R382). -/
def quadModels (q : Quad) : List Model :=
  allModels.filter fun m => decide (if m.1 < 136 then m.1 / 34 = q.1 else if m.1 < 168 then (m.1 - 136) / 8 = q.1 else m.1 - 168 = q.1)

/-- The models have been started at the RUN launch (R389). -/
def modelsRun (d : Device) : Bool := decide (d.start.st = .run) || (decide (d.start.st = .svcHold) && decide (d.bus.st ≠ .beforeRun))

/-- The new Tj and k_th of a quadrant's models are sent to it (R382). -/
def sendTj (q : Quad) (d : Device) : Device := send (.toQd q) (.tj ((quadModels q).map fun m => ((d.therm[m]).tj, (d.therm[m]).kth))) d

/-- The states of the in-use models wait for the memory write port, those left from the last update first (R382). -/
def modelsQueue (d : Device) : Device :=
  let old := d.memory.modelQ
  arbRequest wport 9 (d.updMem fun x => { x with
    modelQ := old ++ (allModels.map (·.1)).filter fun m => modelInUse d m && !old.contains m })

/-- The update of R381 and R382: every in-use model moves by 1 ms. The coolant inputs are judged before the models run too (R388). -/
def modelsUpdate (d : Device) : Device :=
  let d := coolantJudge d
  if modelsRun d then forEach allQuads sendTj (modelsQueue (forEach allModels modelStep d)) else d

/-- The model state of R530 as its writer stores it. -/
def modelBytes (x : ThermSt) : List Byte :=
  let w (t : Qty) : List Byte := leBytes 4 (encSigned (qRound (t * 65536)) 32)
  w x.th0 ++ w x.th1 ++ w x.th2 ++ w x.th3 ++ leBytes 2 (unitsSigned x.tcool 16 16) ++ leBytes 2 (unitsOf x.kth 1024 16) ++ leBytes 12 0

/-- Grant of requester 9: the state of one model, a codeword, is written (R28). -/
def modelStore (d : Device) : Device :=
  match d.memory.modelQ with
  | [] => d
  | m :: rest =>
    let d := memWrite (0xE0000 + 32 * m) (modelBytes d.therm[Fin.ofNat 172 m]) (d.updMem fun x => { x with modelQ := rest })
    if rest = [] then d else arbRequest wport 9 d

/-- Tj and k_th reach a quadrant: k_th for a source's limit at once and for a phase's cap from its next valley, Tj for the temperature terms of the next
frame (R382, R392). -/
def tjArrives (q : Quad) (v : List (Qty × Qty)) (d : Device) : Device :=
  forEach ((quadModels q).zip v) (fun x d => d.updTherm x.1 fun t => { t with tjRx := x.2.1, kthQ := x.2.2 }) d

/-- Loss sums of a quadrant reach housekeeping (R382), added to any that came before them in the frame (log entry 135). -/
def lossesArrive (q : Quad) (v : List Qty) (d : Device) : Device :=
  forEach ((quadModels q).zip v) (fun x d => d.updTherm x.1 fun t => { t with frameE := t.frameE + x.2 }) d

/-- Models at the RUN launch: every one, in use or not (R389). -/
def modelStart (m : Model) (d : Device) : Device :=
  let w := mword d.memory.conf 0xC00
  let rise : Qty := if d.start.por ∨ d.start.brownout then (bitsOf w 0 8 : Qty) else (bitsOf w 8 8 : Qty)
  let sum := frRth d m 0 + frRth d m 1 + frRth d m 2 + frRth d m 3
  let th (k : Nat) : Qty := qdiv (frRth d m k) sum * rise
  let tc := coolant d (tmCl d m)
  if modelInUse d m then
    let t := tc + th 0 + th 1 + th 2 + th 3
    d.updTherm m fun x => { x with th0 := th 0, th1 := th 1, th2 := th 2, th3 := th 3, tcool := tc, tj := t, tjQ := t, tjRx := t, energy := 0, frameE := 0, peak := peakOf x t }
  else d.updTherm m fun x => { x with th0 := th 0, th1 := th 1, th2 := th 2, th3 := th 3, tcool := tc, tj := tc, tjQ := tc, tjRx := tc, peak := peakOf x tc }

/-- A quadrant sends its energy sums of the frame just ended (R382). -/
def sendLosses (q : Quad) (d : Device) : Device :=
  if clkRuns d q then send (.toHk q) (.losses ((quadModels q).map fun m => (d.therm[m]).energy)) d else d

/-- A frame ends: the sums go to housekeeping and start afresh; the Tj last received serves in the next frame (R382). -/
def energyFrame (d : Device) : Device :=
  let d := forEach allQuads sendLosses d
  { d with therm := d.therm.map fun (x : ThermSt) => { x with energy := 0, tjQ := x.tjRx } }

end Sys2Proof.Machine
end

