-- ==== Sys2Proof/Machine/Housekeeping.lean ====
section
/-! DEFINITION. Sys2Proof/Machine/Housekeeping.lean: the housekeeping round (10, R398 to R409), the references (R405 to R407) and the oscillators
(12, R464, R465). -/

namespace Sys2Proof.Machine

/-! ### The round (R398) -/

/-- A conversion of the round runs on a modulator. -/
def roundRuns (d : Device) (m : Pm) : Bool := match (d.mods[m]).conv with | some v => decide (v.req = 1) && !v.halt | none => false

/-- A quadrant's part starts afresh: a conversion still waiting is dropped; one that is granted runs to its end (R28), and its result is not the
new round's. -/
def roundStart (q : Quad) (d : Device) : Device :=
  let d := d.updHk fun h => { h with raws := h.raws.set q [], pos := h.pos.set q 15 }
  match roundMod d q with
  | some m =>
    if clkRuns d q then
      let d := (arbWithdraw (mport m) 1 d).updHk fun h => { h with pos := h.pos.set q 0, stray := h.stray.set q (roundRuns d m) }
      if (d.mods[m]).conv.map (·.req) = some 1 then d else arbRequest (mport m) 1 d
    else d
  | none => d

/-- HK_ROUND_START: at the next multiple of 10,000,000 ticks of caravan time, from the RUN launch on; at the present instant if it is one. -/
def hkRoundStart (d : Device) : Device :=
  if modelsRun d then
    let d := waitLoc (periodAt sec d.hk.roundAt d) d
    let d := d.updHk fun h => { h with roundAt := some d.loc }
    let d := if allQuads.any fun q => decide (d.hk.pos[q] < 15) then d.updHk fun h => { h with late := satInc8 h.late } else d
    forEach allQuads roundStart d
  else d

/-! ### Die sensors (R399 to R401) -/

def mean (l : List Qty) : Qty := if l = [] then 0 else l.sum / (l.length : Qty)

/-- Difference of a sensor from the mean of its valid neighbours, or of all others; 0 with no other. -/
def sensorDiff (l : List (Option Qty)) (s : Nat) : Qty :=
  let at0 (i : Nat) : List Qty := (l.getD i none).toList
  match l.getD s none with
  | none => 0
  | some t =>
    let near := at0 ((s + 7) % 8) ++ at0 ((s + 1) % 8)
    let far := ((List.range 8).filter fun i => decide (i ≠ s)).flatMap at0
    if near ≠ [] then |t - mean near| else if far ≠ [] then |t - mean far| else 0

/-- Sensor with the largest difference above 15 degC, the lowest number of equals. -/
def worstSensor (l : List (Option Qty)) : Option Nat :=
  (List.range 8).foldl (fun b s =>
    let x := sensorDiff l s
    if x ≤ 15 then b else match b with | none => some s | some w => if sensorDiff l w < x then some s else b) none

/-- Sensors that fail step 2 of R399. -/
def failNear (l : List (Option Qty)) : Nat := ((List.range 8).filter fun s => decide (15 < sensorDiff l s)).length

/-- Steps 2 and 3 of R399, at most n times: sensors to declare broken. Step 2 is repeated only where several fail. -/
def judgeNear : Nat → List (Option Qty) → List Nat
  | 0, _ => []
  | n + 1, l =>
    match worstSensor l with
    | none => []
    | some s => s :: (if failNear l = 1 then [] else judgeNear n (l.set s none))

/-- Corrected reading p of a quadrant's part of the round. -/
def roundRaw (d : Device) (q : Quad) (p : Nat) : Option Int := (d.hk.raws[q]).getD p none

def sensorRead (d : Device) (s : Nat) : Option Qty := (roundRaw d (Fin.ofNat 4 (s / 2)) (2 + s % 2)).map (Config.dieTemp s)

/-- A sensor is broken until reset (R399). -/
def breakSensor (t : Qty) (s : Nat) (d : Device) : Device :=
  raiseLevel (0x5A0 + s) (encSigned (qFloor (t * 16)) 32) (d.updHk fun h => { h with sensBad := h.sensBad ||| BitVec.ofNat 8 (2 ^ s) })

/-- Readings of the sensors that are not broken. -/
def validReads (d : Device) : List (Option Qty) :=
  (List.range 8).map fun s => if bitOf d.hk.sensBad.toNat s then none else sensorRead d s

/-- Sensors judged (R399). -/
def judgeSensors (d : Device) : Device :=
  let d := { d with hk := { d.hk with dieT := Vector.ofFn fun (s : Fin 8) => (sensorRead d s.1).getD d.hk.dieT[s] } }
  let d := forEach (List.range 8) (fun s d =>
    match (validReads d).getD s none with
    | some t => if t < -50 ∨ 150 < t then breakSensor t s d else d
    | none => d) d
  let l := validReads d
  forEach (judgeNear 8 l) (fun s d => breakSensor ((l.getD s none).getD 0) s d) d

/-- Island temperatures, and the flags of R400 and R401. -/
def judgeTemps (d : Device) : Device :=
  let l := validReads d
  let all := l.filterMap id
  let n := all.length
  let top := all.foldl max (all.headD 0)
  let d := if n < 2 then raiseLevel 0x595 n (d.updHk fun h => { h with tempLost := true }) else
    let t (i : Fin 5) : Qty :=
      let own := if i.1 < 4 then (l.getD (2 * i.1) none).toList ++ (l.getD (2 * i.1 + 1) none).toList else []
      if own = [] then mean all else mean own
    faultEnds 0x595 (d.updHk fun h => { h with tempLost := false, islTemp := Vector.ofFn t, refTemp := mean all })
  let d := d.updHk fun h => { h with dieHot := if all.any fun x => decide (125 < x) then true else if all ≠ [] ∧ all.all fun x => decide (x < 120) then false else h.dieHot }
  if all.any fun x => decide (140 < x) then raiseLevel 0x596 (encSigned (qFloor (top * 16)) 32) d else faultEnds 0x596 d

/-! ### Compensation and references (R402 to R404) -/

/-- Trims of R402 and R403. The reference trims take effect at the next frame boundary; the oscillators reach theirs at 1 ppm/ms. -/
def compensate (d : Device) : Device :=
  let hold : Int := if d.hk.refOnB then qRound (d.hk.heldOffset * 4000000) else 0
  let b := Config.refTrim true d.hk.refTemp + hold
  d.updHk fun h => { h with
    trimLimit := h.trimLimit || (h.refOnB && decide (satInt b (-2000) 2000 ≠ b))
    oscTrimNext := Vector.ofFn fun (o : Fin 10) => Config.oscTrim (o.1 / 2) (o.1 % 2) (h.islTemp[o.1 / 2]'(by omega))
    trimANext := satInt (Config.refTrim false h.refTemp) (-2000) 2000
    trimBNext := satInt b (-2000) 2000 }

/-- delta_q of a quadrant's readings (R404). -/
def deltaOf (d : Device) (q : Quad) : Option Qty :=
  match roundRaw d q 0, roundRaw d q 1 with
  | some a, some b => some (qdiv ((a - b : Int) : Qty) ((a + b : Int) : Qty))
  | _, _ => none

/-- Reference comparison (R404) and the held offset (R406). -/
def judgeRefs (d : Device) : Device :=
  let d := d.updHk fun h => { h with qdelta := Vector.ofFn fun q => deltaOf d q }
  let l := allQuads.filterMap fun q => d.hk.qdelta[q]
  if l = [] then d
  else
    let x := medianQ l
    let big := decide (20 / 1000000 < |x|)
    let code := qRound (x * 100000000)
    let d := d.updHk fun h => { h with
      delta := satInt code (-8388608) 8388607
      disRun := if big then h.disRun + 1 else 0
      agreeRun := if big then 0 else h.agreeRun + 1
      heldOffset := if h.refaBad || h.refbBad || h.refOnB then h.heldOffset else -x }
    let d := if 3 ≤ d.hk.disRun then d.updHk fun h => { h with refDisagree := true } else if 3 ≤ d.hk.agreeRun then d.updHk fun h => { h with refDisagree := false } else d
    if d.hk.refDisagree then raiseLevel 0x597 (encSigned code 32) d else faultEnds 0x597 d

/-! ### Supplies and gate feedback (R408, R409) -/

/-- Window of a supply input in V. -/
def railWindow (i : Nat) : Qty × Qty :=
  if i % 2 = 0 then (776 / 1000, 824 / 1000) else if i = 5 then (1710 / 1000, 1890 / 1000) else (3135 / 1000, 3465 / 1000)

def judgeRail (i : Nat) (d : Device) : Device :=
  if hi : i < 8 then
    match roundRaw d (Fin.ofNat 4 (i / 2)) (4 + i % 2) with
    | none => d
    | some r =>
      let v := Config.railVolt i r
      let w := railWindow i
      let out := decide (v < w.1 ∨ w.2 < v)
      let n := if out then d.hk.railBadRun[i] + 1 else 0
      let d := d.updHk fun h => { h with railV := h.railV.set i v, railBadRun := h.railBadRun.set i n }
      if 2 ≤ n then
        raiseLevel (0x5A8 + i) (encSigned (qRound (v * 1000)) 32) (d.updHk fun h => { h with railErr := h.railErr ||| BitVec.ofNat 8 (2 ^ i) })
      else if out then d else faultEnds (0x5A8 + i) d
  else d

/-- Level of a single-ended input for a corrected result (R330). -/
def levelOf (r : Int) : Qty := 3 / 2 + (r : Qty) * (5 / 2) / 8388608

/-- Event of a flag that becomes set (R409). -/
def fbEvent (sw : Nat) (v : Qty) (new : Bool) (d : Device) : Device := if new then logEvent 0x0501 sw (unitsOf v 1000 16) 0 d else d

/-- Gate feedback of a path switch, with its reference at the reading (R409). -/
def judgePathFb (c : Chan) (d : Device) : Device :=
  match roundRaw d (Chan.quad c) (6 + c.1 % 8) with
  | none => d
  | some r =>
    let v := levelOf r
    let on := gateV (d.cf (ptb c + 12) 0 10)
    let g := d.hk.fbG[c.1]'(by omega)
    let p := d.paths[c]
    let sag := decide (g = pgFull d c) && decide (0 < g) && decide (v < on)
    let high := decide (g = 0) && decide (on < v)
    let d := (d.updHk fun h => { h with fbV := h.fbV.set c.1 v (by omega) }).updPath c fun p => { p with fbSag := sag, fbHi := high }
    fbEvent c.1 v (sag && !p.fbSag || high && !p.fbHi) d

/-- Gate feedback of a source switch. -/
def judgeSrcFb (k : Src) (d : Device) : Device :=
  match roundRaw d k 14 with
  | none => d
  | some r =>
    let v := levelOf r
    let on := gateV (d.cf (srb k + 24) 0 10)
    let s := d.srcs[k]
    let g := d.hk.fbG[32 + k.1]'(by omega)
    let sag := decide (g = sFull d k) && decide (0 < g) && decide (v < on)
    let high := decide (g = 0) && decide (on < v)
    let d := (d.updHk fun h => { h with fbV := h.fbV.set (32 + k.1) v (by omega) }).updSrc k fun s => { s with fbSag := sag, fbHi := high }
    fbEvent (32 + k.1) v (sag && !s.fbSag || high && !s.fbHi) d

/-- HK_ROUND_COMPLETE: once every quadrant's part is done (R399 to R404, R408, R409). -/
def hkRoundComplete (d : Device) : Device :=
  if (allQuads.all fun q => decide (15 ≤ d.hk.pos[q])) ∧ (allQuads.any fun q => decide ((d.hk.raws[q]).length = 15)) then
    let d := judgeRefs (compensate (judgeTemps (judgeSensors d)))
    let d := forEach allSrcs judgeSrcFb (forEach allChans judgePathFb (forEach (List.range 8) judgeRail d))
    d.updHk fun h => { h with raws := Vector.replicate 4 [] }
  else d

/-! ### Reference change (R405 to R407) -/

/-- REFERENCE_IMPLAUSIBLE. -/
def refImplausible (b : Bool) (d : Device) : Device :=
  let d := d.updHk fun h => if b then { h with refbBad := true } else { h with refaBad := true }
  let d := raiseLevel (if b then 0x599 else 0x598) 0 d
  let d := if d.hk.refaBad ∧ d.hk.refbBad then raiseLevel 0x59A 0 d else d
  if b = false ∧ d.hk.refbBad = false ∧ d.hk.refOnB = false then d.updHk fun h => { h with changing := true, changeAt := some d.loc } else d

/-- REFERENCE_PLAUSIBLE. -/
def refPlausible (b : Bool) (d : Device) : Device :=
  faultEnds 0x59A (faultEnds (if b then 0x599 else 0x598) (d.updHk fun h => if b then { h with refbBad := false } else { h with refaBad := false }))

/-- A conversion in progress at the change is discarded: a sequencer entry, the round and a halt-locked entry repeat it, an injection and a
calibration step end REFUSED (R406). -/
def discardConv (m : Pm) (d : Device) : Device :=
  match (d.mods[m]).conv with
  | none => d
  | some v =>
    let d := arbRelease (mport m) v.req (d.updMod m fun s => { s with conv := none })
    match v.req with
    | 7 => injEnd m (d.updMod m fun s => { s with injHost := none, injRun := false })
    | 8 => injEnd m (d.updMod m fun s => { s with injNewt := none })
    | 9 => alertSet 3 (d.updCal fun c => { c with step := 6, reason := 0x12, sum := 0, n := 0 })
    | n => arbRequest (mport m) n d

/-- REFERENCE_CHANGE_LAUNCH: the first frame boundary at least 1 us after the finding. -/
def refChange (d : Device) : Device :=
  match d.hk.changeAt with
  | none => d
  | some t =>
    let d := waitLoc ((t + us + ms - 1) / ms * ms) d
    let x := d.hk.trimB + qRound (d.hk.heldOffset * 4000000)
    let d := d.updHk fun h => { h with
      changing := false, changeAt := none, changedAt := some d.up, refOnB := true, stray := Vector.replicate 4 false
      trimB := satInt x (-2000) 2000, trimBNext := satInt x (-2000) 2000
      trimLimit := h.trimLimit || decide (satInt x (-2000) 2000 ≠ x) }
    let d := { d with mods := d.mods.map fun (s : ModSt) => { s with streamAt := d.up, streamOk := false } }
    logEvent 0x0601 (encSigned (qRound (d.hk.heldOffset * 100000000)) 32) 0 0 (forEach allMods discardConv d)

/-! ### Oscillators (R464, R465) -/

/-- OSCILLATOR_LOST. -/
def oscLost (i : Island) (o : Fin 2) (d : Device) : Device :=
  let n := 2 * i.1 + o.1
  if bitOf d.hk.oscLost.toNat n then d
  else
    let d := d.updHk fun h => { h with oscLost := h.oscLost ||| BitVec.ofNat 10 (2 ^ n) }
    let lost (k : Nat) : Bool := bitOf d.hk.oscLost.toNat (2 * i.1 + k)
    let on1 := lost 0 && !lost 1
    let moved := on1 && !bitOf d.hk.oscOn1.toNat i.1
    let d := if on1 then d.updHk fun h => { h with oscOn1 := h.oscOn1 ||| BitVec.ofNat 5 (2 ^ i.1) } else d
    let d := if moved then logEvent 0x0707 i.1 1 0 d else d
    let d := raiseLevel (0x5C0 + n) 0 d
    if lost 0 && lost 1 then raiseLevel (0x5D0 + i.1) 0 d else d

def execHkRoundComplete (s : State) : Host.Outcome State Fault Refusal := done hkRoundComplete s
def execReferenceImplausible (refB : Bool) (s : State) : Host.Outcome State Fault Refusal := done (refImplausible refB) s
def execReferencePlausible (refB : Bool) (s : State) : Host.Outcome State Fault Refusal := done (refPlausible refB) s
def execOscillatorLost (isl : Island) (osc : Fin 2) (s : State) : Host.Outcome State Fault Refusal := done (oscLost isl osc) s

end Sys2Proof.Machine
end

