-- ==== Sys2Proof/Machine/Faults.lean ====
section
/-! DEFINITION. Sys2Proof/Machine/Faults.lean: the collector's own commands (11): raises, reporting paths, grants and promotion, the second of the log,
captures, the end of a rail injection. -/

namespace Sys2Proof.Machine

def fin (f : Nat) : Fsrc := Fin.ofNat 2048 f

/-- FAULT_RAISE: the source reads active for one cycle; while it reads active already nothing is new (R414), and before the end of INIT the
collector does not run (R430). -/
def faultRaise (f : Fsrc) (d : Device) : Device := if (d.faults[f]).active ∨ colRuns d = false then d else raiseX f.1 false (hkReading d f.1) d

/-- RPATH_FAULT (R415): a record of kind 0x4, and the source is treated as active: where it was not, it is raised like any other, with its count, its
raise record and its reaction (R419). Where it was, its reaction is taken afresh, since DEVICE is now LATCH. The collector judges no reporting path
before the end of INIT (R430). -/
def rpathFault (f : Fsrc) (lv : Bool) (d : Device) : Device :=
  match scopeOf f.1 with
  | none => d
  | some sc =>
    if (d.faults[f]).rpath ∨ colRuns d = false then d
    else
      let was := d.faults[f]
      let d := d.updFault f fun y => { y with rpath := true, injPath := y.inj }
      let s := effSev d f.1
      let d := logPush 4 (sevByte d f.1 s) f.1 (3 * b2n lv) 0 0 d
      if was.active then
        reactNow f.1 sc s (d.updFault f fun y => { y with
          hold := y.hold || s.holds, injHold := if y.hold then y.injHold else y.inj, heldAt := if y.hold then y.heldAt else d.loc, latched := y.latched || decide (actSev sc s = .latch) })
      else (raiseX f.1 true (hkReading d f.1) d).updFault f fun y => { y with level := was.level }

/-- RPATH_RESTORED (R415): the source is judged on its true rail. -/
def rpathRestored (f : Fsrc) (d : Device) : Device :=
  if (d.faults[f]).rpath then
    let lv := (d.faults[f]).level
    let d := d.updFault f fun y => { y with rpath := false, active := lv, quietAt := if lv then none else some d.loc }
    logPush 5 (sevPath d f.1 (effSev d f.1)) f.1 (if lv then 1 else 2) 0 0 d
  else d

/-- Recovery profile of a source (R416, R424). -/
def profOf (d : Device) (f : Fsrc) : Nat := fsProf d f

/-- Grants counted in the promotion window that is open at this instant (R427). -/
def winNow (d : Device) (f : Fsrc) : Nat :=
  match (d.faults[f]).winAt with
  | some t => if t + frWin d (profOf d f) ≤ d.loc then 0 else (d.faults[f]).win.toNat
  | none => 0

/-- RECOVERY_GRANT: the quiet period of a held source is complete (R425 to R427). LATCH, a promoted source and a breaker trip are not recovered. -/
def recoveryGrant (f : Fsrc) (d : Device) : Device :=
  let y := d.faults[f]
  match y.quietAt with
  | none => d
  | some t =>
    if y.hold ∧ y.latched = false ∧ y.promoted = false ∧ y.active = false ∧ effSev d f.1 ≠ .breaker then
      let d := waitLoc (t + frQuiet d (profOf d f)) d
      let n := winNow d f
      if frMax d (profOf d f) ≤ n then
        let d := d.updFault f fun y => { y with promoted := true, latched := true }
        logPush 3 (sevHold d f.1 (effSev d f.1)) f.1 ((d.faults[f]).recov.toNat + 65536 * n) (min ((d.loc - y.heldAt) / ms) (2 ^ 32 - 1)) 0 d
      else
        let d := d.updFault f fun y => { y with winAt := if n = 0 then some d.loc else y.winAt, win := BitVec.ofNat 8 (n + 1), quietAt := none }
        releaseHold f.1 (grantRecord f.1 d)
    else d

/-- PROMOTION_WINDOW_END (R427). -/
def promotionWindowEnd (f : Fsrc) (d : Device) : Device :=
  match (d.faults[f]).winAt with
  | some t => (waitLoc (t + frWin d (profOf d f)) d).updFault f fun y => { y with win := 0, winAt := none }
  | none => d

/-- Raises have been suppressed in a second that is over. -/
def secOwed (d : Device) : Bool := (List.finRange 2048).any fun f => decide (0 < (d.faults[f]).secMore ∧ (d.faults[f]).secOf ≠ d.loc / sec)

/-- LOG_SECOND_END (R437): records of suppressed raises, ascending, and a fresh count for every source. A second that is over already is closed at
this instant. -/
def logSecondEnd (d : Device) : Device :=
  let d := waitLoc (if secOwed d then d.loc else periodAt sec d.col.secDone d) d
  let d := forEach ((List.finRange 2048).filter fun f => decide (0 < (d.faults[f]).secMore)) secTurn d
  let d := d.updCol fun c => { c with secDone := some d.loc }
  { d with faults := d.faults.map fun (y : FaultSt) => if y.secOf = d.loc / sec then y else { y with secN := 0, secMore := 0, secOf := d.loc / sec } }

/-- Header of a complete buffer of n samples (R440). -/
def capHeader (c : Cap) : List Byte :=
  leBytes 2 c.fsrc ++ leBytes 1 c.kind ++ leBytes 1 c.obj ++ leBytes 2 c.pre ++ leBytes 2 (c.pre + 958) ++ leBytes 8 c.time ++ leBytes 8 c.t0 ++
    leBytes 4 c.haltNo.toNat ++ leBytes 4 0

/-- Codewords of a capture that are still to be written when it is complete: those that wait, those not yet filled, and its header. -/
def capRest (c : Cap) (q : List (Nat × List Byte)) : List (Nat × List Byte) :=
  let base := 0xA0000 + 16384 * c.buf
  (q.filter fun w => decide (base ≤ w.1 ∧ w.1 < base + 16384)) ++
    ((List.range ((c.pre + 959) / 2)).drop (c.samples.length / 2)).map (capWord c) ++ [(base, capHeader c)]

/-- CAPTURE_BUFFER_COMPLETE (R439): 958 samples after the decision and the memory writes, the buffer freezes. The command stands for the grants of
the codewords that are left (log entry 127). -/
def captureComplete (b : Fin 16) (d : Device) : Device :=
  match d.col.caps.find? fun c => decide (c.buf = b.1) with
  | none => d
  | some c =>
    let d := waitLoc (c.time * tick + 958 * stepSub) d
    let d := forEach (capRest c d.col.capQ) (fun w => memWrite w.1 w.2) d
    let base := 0xA0000 + 16384 * b.1
    let d := d.updCol fun x => { x with capQ := x.capQ.filter fun w => decide (w.1 < base ∨ base + 16384 ≤ w.1) }
    let d := if d.col.capQ = [] then arbWithdraw wport 3 d else d
    d.updCol fun x => { x with
      caps := x.caps.filter fun y => decide (y.buf ≠ b.1)
      capBusy := x.capBusy &&& ~~~(BitVec.ofNat 16 (2 ^ b.1)), capFull := x.capFull ||| BitVec.ofNat 16 (2 ^ b.1) }

/-- A rail injection ends: the source's rails are its own again (R441). -/
def fiRailEnd (d : Device) : Device :=
  let f := d.col.fiFsrc.toNat
  let m := d.col.fiMode
  let d := (d.updCol fun c => { c with fiMode := 0 }).updFault (fin f) fun y => { y with inj := false }
  let y := d.faults[fin f]
  if m = 3 ∧ y.active ∧ y.level = false ∧ y.rpath = false then d.updFault (fin f) fun y => { y with active := false, quietAt := some d.loc }
  else if m = 3 ∧ y.active = false ∧ y.level then raiseX f true (hkReading d f) d
  else d

/-- FI_DURATION_EXPIRY. -/
def fiExpiry (d : Device) : Device :=
  if d.col.fiMode ≠ 0 then fiEvent (fiRailEnd (waitUp (d.col.fiAt + d.col.fiMs.toNat * ms) d)) else d

def execFaultRaise (f : Fsrc) (s : State) : Host.Outcome State Fault Refusal := done (fun d => busEval (faultRaise f d)) s
def execRpathFault (f : Fsrc) (level : Bool) (s : State) : Host.Outcome State Fault Refusal := done (fun d => busEval (rpathFault f level d)) s
def execRpathRestored (f : Fsrc) (s : State) : Host.Outcome State Fault Refusal := done (rpathRestored f) s

end Sys2Proof.Machine
end

