-- ==== Sys2Proof/Machine/BootPort.lean ====
section
/-! DEFINITION. Sys2Proof/Machine/BootPort.lean: the boot port (13, R481 to R487), the reading of an image (02, R51 to R58), the commit of CALIB (R89, R361)
and the NVM pass-through (R512). Owners: 0 load and reload, 1 commit, 2 pass-through (R27). -/

namespace Sys2Proof.Machine

/-! ### Transactions -/

/-- An owner's transaction waits for its grant. -/
def bootAsk (o : Fin 3) (tx : BootTx) (d : Device) : Device :=
  arbRequest bport o.1 (d.updBoot fun b => { b with
    want0 := if o = 0 then some tx else b.want0
    want1 := if o = 1 then some tx else b.want1
    want2 := if o = 2 then some tx else b.want2 })

/-- Bus recovery: up to nine clocks until `BOOT_SDA` reads high, then a STOP (R51, R52), in no modelled time (log entry 139). -/
def busRecovery (d : Device) : Device := d.updBoot fun b => { b with recovered := b.recovered + 1 }

/-- Every use of the boot port is given up and its lines are released (R46, SVC_HOLD). -/
def bootAbandon (d : Device) : Device :=
  ((d.updBoot fun b => { b with
      want0 := none, want1 := none, want2 := none, cur := none, started := false, page := none, pageEnd := none, pollAt := none, nvmOp := 0, nvmParts := []
      commit := none }).updLoader fun l => { l with rd := none }).updArb bport fun a => { a with maxAge := BitVec.ofNat 6 (ageHeld a), pending := [], granted := [] }

/-- A new transaction of an owner, with three retries ahead of it. -/
def bootNew (o : Fin 3) (tx : BootTx) (d : Device) : Device := bootAsk o tx (d.updBoot fun b => { b with tries := upd b.tries o fun _ => 0 })

/-- 7-bit address and memory address of an image byte (R484). -/
def bootChip (img : Bool) (n : Nat) : Nat := (if img then 0x54 else 0x50) + n / 65536
def bootWord (n : Nat) : Nat := n % 65536

/-- Image and offset that a transaction addresses. -/
def BootTx.target : BootTx → Bool × Nat
  | .read i o _ => (i, o)
  | .pageWrite i o _ => (i, o)
  | .poll i o => (i, o)

/-- Bus free on the boot port: a granted transaction starts (R482, R484). -/
def bootBusFree (d : Device) : Device :=
  match d.bootp.cur with
  | some (_, tx) => d.updBoot fun b => { b with
      started := true, chip := BitVec.ofNat 7 (bootChip tx.target.1 tx.target.2), word := BitVec.ofNat 16 (bootWord tx.target.2) }
  | none => d

/-! ### Image read (R52, R53) -/

def imgStart (img reload : Bool) (d : Device) : Device :=
  bootNew 0 (.read img 0 64) (d.updLoader fun l => { l with rd := some { img := img, reload := reload } })

/-- End of the transaction that starts at an offset (R52). -/
def blockEnd (off stop : Nat) : Nat := min ((off / 4096 + 1) * 4096) stop

/-- Step 2 of R53. -/
def headerFinding (m : Memory) : Nat :=
  if hdrId m ≠ 0x524D4E4B then 4
  else if hdrMajor m ≠ 1 then 8
  else if hdrLen m % 4 ≠ 0 ∨ 262144 < hdrLen m ∨ hdrLen m < dirEnd m then 7
  else 0

/-- Step 4 of R53, with R79. -/
def headerCrcOk (m : Memory) : Bool := decide (crc32 (mdump m 0 0x3C ++ mdump m 0x40 (dirEnd m - 0x40)) = mword m 0x3C)

/-- Step 5 of R53: sections wholly within the image, in directory order. A directory of no entry or of more than 64 has none checked. -/
def sectionsOk (m : Memory) : Bool :=
  decide (hdrCount m = 0 ∨ 64 < hdrCount m) || (dirList m).all fun e => decide (hdrLen m < e.offset + e.length) || decide (crc32 (mdump m e.offset e.length) = e.crc)

/-- What a valid image gives (R62, R79). -/
def imageTaken (m : Memory) (d : Device) : Device :=
  d.updLoader fun l => { l with
    runEnable := bitOf (mget m 0x12).toNat 0, svcReset0 := bitOf (mget m 0x12).toNat 1, svcCmdEnable := bitOf (mget m 0x12).toNat 2
    serviceCode := BitVec.ofNat 16 (mhalf m 0x10), serial := BitVec.ofNat 32 (mword m 0x0C)
    dirBad := dirFault m, base := baseOf m, ovls := ovlsOf m }

/-- The codewords of the mirror are to be written as requester 10 of the memory write port; all of them have been (R27, R62, R472). -/
def mirrorStarts (d : Device) : Device := arbRequest wport 10 (d.updMem fun x => { x with mirrorAt := 0 })
def mirrorEnds (d : Device) : Device := arbRelease wport 10 (arbWithdraw wport 10 (d.updMem fun x => { x with mirrorAt := 0 }))

/-- BUILD is entered: it takes the debounced mode value, or waits for one (R62), and the mirror's writes request the memory write port. -/
def enterBuild (trigger : Nat) (d : Device) : Device :=
  let d := d.updStart fun s => { s with st := .build, trigger := trigger, checking := false, entered := d.up }
  match d.mode.deb with
  | some v => mirrorStarts ((d.updMode fun m => { m with taken := v }).updStart fun s => { s with modeUnstable := false, unstableAt := none })
  | none => d.updStart fun s => { s with modeUnstable := true, unstableAt := some d.up }

/-- End of LOAD (R57). -/
def loadEnds (d : Device) : Device := d.updLoader fun l => { l with rd := none, loadMs := BitVec.ofNat 16 (min 65535 (d.up / ms)) }

/-- An overlay index whose section exists in only one of two stores, or with another parent (R111). -/
def ovlDiffer (a b : List Ovl) : Option Nat :=
  (List.range 16).find? fun k => decide (((findOvl a k).map (·.parent)) ≠ ((findOvl b k).map (·.parent)))

/-- The result code of an image read (R53, R54, R57). -/
def imgEnd (code : Nat) (r : ImgRead) (d : Device) : Device :=
  if r.reload then
    (d.updLoader fun l => { l with rd := none }).updReload fun x => { x with
      st := 2, imgRes := code
      dirBad := if code = 1 then dirFault r.buf else none
      differ := if code = 1 then ovlDiffer d.loader.ovls (ovlsOf r.buf) else none
      newBase := if code = 1 then baseOf r.buf else []
      newOvls := if code = 1 then ovlsOf r.buf else [] }
  else if r.img then
    let d := loadEnds (d.updLoader fun l => { l with bResult := BitVec.ofNat 4 code })
    if code = 1 then
      enterBuild 0 (logEvent 0x0101 d.loader.aResult.toNat 0 0 (imageTaken r.buf (d.updLoader fun l => { l with bootImage := 2 })))
    else
      logEvent 0x0102 d.loader.aResult.toNat code 0 (d.updStart fun s => { s with st := .noImage, entered := d.up })
  else
    let d := d.updLoader fun l => { l with aResult := BitVec.ofNat 4 code }
    if code = 1 then enterBuild 0 (imageTaken r.buf (loadEnds (d.updLoader fun l => { l with bootImage := 1 })))
    else imgStart true false (busRecovery d)

/-- The read goes on with its next transaction, or its image has been read whole. -/
def imgNext (r : ImgRead) (d : Device) : Device :=
  if r.next < hdrLen r.buf then
    bootNew 0 (.read r.img r.next (blockEnd r.next (hdrLen r.buf) - r.next)) (d.updLoader fun l => { l with rd := some r })
  else imgEnd (if sectionsOk r.buf then 1 else 6) r d

/-- Bytes of the image arrive. -/
def imgData (off : Nat) (bs : List Byte) (r : ImgRead) (d : Device) : Device :=
  let r2 := { r with buf := mreplace r.buf off (off + bs.length) (mofList off bs), next := off + bs.length, okBlocks := (off / 65536) :: r.okBlocks }
  let found := if off = 0 then headerFinding r2.buf else 0
  if found ≠ 0 then imgEnd found r2 d
  else if off < dirEnd r2.buf ∧ dirEnd r2.buf ≤ r2.next ∧ headerCrcOk r2.buf = false then imgEnd 5 r2 d
  else imgNext r2 d

/-- A transaction of the image read has failed for good. -/
def imgFail (off : Nat) (nack : Bool) (r : ImgRead) (d : Device) : Device :=
  imgEnd (if off = 0 then 2 else if nack ∧ off / 65536 ∉ r.okBlocks then 7 else 3) r d

/-! ### CAL_COMMIT (R89, R361) -/

/-- Page writes of bytes at an offset, cut at the 64-byte boundaries (R484). -/
def pages : Nat → Nat → List Byte → List (Nat × List Byte)
  | 0, _, _ => []
  | n + 1, off, bs =>
    if bs = [] then []
    else
      let k := 64 - off % 64
      (off, bs.take k) :: pages n (off + k) (bs.drop k)

/-- First CALIB section of an image that lies within it, with its position in the directory. -/
def calibEntry (m : Memory) : Option (Nat × DirEntry) :=
  ((dirList m).zipIdx.find? fun p => decide (p.1.type = 0x0F) && decide (p.1.offset + p.1.length ≤ hdrLen m)).map fun p => (p.2, p.1)

def commitSet (img : Bool) (v : BitVec 2) (d : Device) : Device :=
  d.updCal fun c => if img then { c with commitB := v } else { c with commitA := v }

/-- The read of an image for the commit goes on up to `stop`. -/
def commitRead (c : Commit) (d : Device) : Device :=
  bootNew 1 (.read c.img c.next (blockEnd c.next c.stop - c.next)) (d.updBoot fun b => { b with commit := some c })

def commitStart (img : Bool) (d : Device) : Device := commitRead { img := img, next := 0, stop := 64 } d

/-- An image is finished; image B follows image A, and the commit ends (R362). Coefficients that changed while it ran are still to be written (R363). -/
def commitImage (img : Bool) (v : BitVec 2) (d : Device) : Device :=
  let d := commitSet img v d
  if img then
    alertSet 3 ((d.updBoot fun b => { b with commit := none }).updCal fun c => { c with
      busy := false, pending := c.pending && (decide (c.commitA = 3 ∨ c.commitB = 3) || c.since) })
  else commitStart true d

/-- The page writes of an image: CALIB, its `SECTION_CRC`, `HEADER_CRC`, with an inverted `SECTION_CRC` where it is armed (R441). -/
def commitPages (c : Commit) (i : Nat) (e : DirEntry) (d : Device) : Device :=
  let d := (cwReads 0x28000 2828 d).updCal fun x => { x with since := x.since && c.img && decide (x.commitA = 1) }
  let bs := bytesAt d 0x28000 707
  let inv := decide (d.col.fiCrc = (if c.img then 2 else 1))
  let crc := crc32 (bs ++ mdump c.buf (e.offset + 2828) (e.length - 2828))
  let crc := if inv then 0xFFFFFFFF - crc else crc
  let buf := msets c.buf (0x40 + 16 * i + 12) (leBytes 4 crc)
  let hcrc := crc32 (mdump buf 0 0x3C ++ mdump buf 0x40 (dirEnd buf - 0x40))
  let todo := pages 46 e.offset bs ++ [(0x40 + 16 * i + 12, leBytes 4 crc), (0x3C, leBytes 4 hcrc)]
  let d := if inv then fiEvent (d.updCol fun x => { x with fiCrc := 0 }) else d
  match todo with
  | [] => d
  | p :: rest => bootNew 1 (.pageWrite c.img p.1 p.2) (d.updBoot fun b => { b with commit := some { c with todo := rest, phase := 3 } })

/-- What the commit does once it has read what it asked for. -/
def commitGo (c : Commit) (d : Device) : Device :=
  if c.next < c.stop then commitRead c d
  else if c.phase = 0 then
    if headerFinding c.buf ≠ 0 then commitImage c.img 2 d
    else if 64 < dirEnd c.buf then commitRead { c with phase := 1, next := 64, stop := dirEnd c.buf } d
    else commitImage c.img 2 d
  else
    match calibEntry c.buf with
    | none => commitImage c.img 2 d
    | some (i, e) =>
      if e.length < 2828 then commitImage c.img 2 d
      else if c.phase = 1 ∧ 2828 < e.length then commitRead { c with phase := 2, next := e.offset + 2828, stop := e.offset + e.length } d
      else commitPages c i e d

/-- Bytes that a commit reads, kept once. -/
def commitData (off : Nat) (bs : List Byte) (c : Commit) (d : Device) : Device :=
  commitGo { c with buf := msets c.buf off bs, next := off + bs.length } d

/-- A page write of the commit is complete. -/
def commitPaged (c : Commit) (d : Device) : Device :=
  match c.todo with
  | [] => commitImage c.img 1 d
  | p :: rest => bootNew 1 (.pageWrite c.img p.1 p.2) (d.updBoot fun b => { b with commit := some { c with todo := rest } })

/-- CAL_COMMIT accepted: `CAL_SEQ` and `CAL_COMMIT_TIME` first (R361). -/
def calCommit (d : Device) : Device :=
  let d := cwReads 0x28B00 4 d
  let bs := leBytes 4 ((memWordAt d 0x28B00).toNat + 1) ++ leBytes 8 d.ticks
  let d := (memWrite 0x28B00 bs d).updMem fun x => { x with conf := msets x.conf 0x28B00 bs }
  let d := d.updLoader fun l => { l with base := msets l.base 0x28B00 bs }
  commitStart false ((d.updCal fun c => { c with busy := true, commitA := 0, commitB := 0, since := false }).updReload fun x => { x with known := false })

/-! ### NVM pass-through (R512, R513) -/

def nvmEnd (ok : Bool) (d : Device) : Device :=
  alertSet 5 (d.updBoot fun b => { b with
    nvmOp := 0, nvmLast := if ok then 1 else 2, nvmFails := if ok then b.nvmFails else satInc b.nvmFails, nvmParts := []
    nvmReady := ok && decide (b.nvmOp = 2) })

def nvmData (bs : List Byte) (d : Device) : Device :=
  let d := d.updBoot fun b => { b with nvmBuf := b.nvmBuf ++ bs }
  match d.bootp.nvmParts with
  | [] => nvmEnd true d
  | tx :: rest => bootNew 2 tx (d.updBoot fun b => { b with nvmParts := rest })

/-! ### Ends of transactions (R486, R487) -/

def ownerData (o : Fin 3) (off : Nat) (bs : List Byte) (d : Device) : Device :=
  if o = 0 then (match d.loader.rd with | some r => imgData off bs r d | none => d)
  else if o = 1 then (match d.bootp.commit with | some c => commitData off bs c d | none => d)
  else nvmData bs d

def ownerPaged (o : Fin 3) (d : Device) : Device :=
  if o = 1 then (match d.bootp.commit with | some c => commitPaged c d | none => d)
  else if o = 2 then nvmEnd true (d.updBoot fun b => { b with nvmWrites := satInc b.nvmWrites })
  else d

/-- The fourth failure ends the operation. -/
def ownerFail (o : Fin 3) (tx : BootTx) (nack : Bool) (d : Device) : Device :=
  let off := match tx with | .read _ off _ => off | .pageWrite _ off _ => off | .poll _ off => off
  if o = 0 then (match d.loader.rd with | some r => imgFail off nack r d | none => d)
  else if o = 1 then (match d.bootp.commit with | some c => commitImage c.img 3 d | none => d)
  else nvmEnd false d

/-- A transaction has failed: retried at most three times after bus recovery, each counted (R52, R487). -/
def bootFailed (o : Fin 3) (tx : BootTx) (nack : Bool) (d : Device) : Device :=
  if d.bootp.tries[o] < 3 then
    bootAsk o tx (busRecovery ((d.updLoader fun l => { l with retries := satInc l.retries }).updBoot fun b => { b with tries := upd b.tries o (· + 1) }))
  else ownerFail o tx nack d

def isNack : BootOutcome → Bool
  | .addrNack => true
  | _ => false

/-- The outcome of a transaction. A poll that is not acknowledged is repeated after 100 us (R484). -/
def bootOutcome (o : Fin 3) (tx : BootTx) (r : BootOutcome) (d : Device) : Device :=
  match tx, r with
  | .read _ off _, .data bs => ownerData o off bs d
  | .read _ _ _, r => bootFailed o tx (isNack r) d
  | .pageWrite _ _ _, .done => d.updBoot fun b => { b with page := some (o.1, tx), pageEnd := some (d.up + 10 * ms), pollAt := some (d.up + 100 * us) }
  | .pageWrite _ _ _, r => bootFailed o tx (isNack r) d
  | .poll _ _, .done => ownerPaged o (d.updBoot fun b => { b with page := none, pageEnd := none, pollAt := none })
  | .poll _ _, _ => d.updBoot fun b => { b with pollAt := some (d.up + 100 * us) }

/-- An outcome that the transaction can have: a read returns the bytes it asked for, a write or poll none. -/
def outcomeFits (tx : BootTx) (r : BootOutcome) : Bool :=
  match tx, r with
  | .read _ _ n, .data bs => decide (bs.length = n)
  | _, .data _ => false
  | .read _ _ _, .done => false
  | _, _ => true

/-- BOOT_TRANSACTION_DONE: the transaction on the bus ends and its grant with it (R486). -/
def bootDone (r : BootOutcome) (d : Device) : Device :=
  match d.bootp.cur with
  | some (o, tx) =>
    if d.bootp.started ∧ outcomeFits tx r then
      bootOutcome (Fin.ofNat 3 o) tx r (arbRelease bport o (d.updBoot fun b => { b with cur := none, started := false }))
    else d
  | none => d

/-- ACK_POLL_TIMER: the next poll asks for the port (R484). -/
def ackPoll (d : Device) : Device :=
  match d.bootp.pollAt, d.bootp.page with
  | some t, some (o, .pageWrite img off _) => bootAsk (Fin.ofNat 3 o) (.poll img off) ((waitUp t d).updBoot fun b => { b with pollAt := none })
  | _, _ => d

/-- PAGE_WRITE_TIMEOUT: no poll acknowledged in 10 ms (R487). A poll that waits or runs is given up with its page write. -/
def pageTimeout (d : Device) : Device :=
  match d.bootp.pageEnd, d.bootp.page with
  | some t, some (o, tx) =>
    let d := arbRelease bport o (arbWithdraw bport o (waitUp t d))
    let mine := match d.bootp.cur with | some c => decide (c.1 = o) | none => false
    bootFailed (Fin.ofNat 3 o) tx false (d.updBoot fun b => { b with
      page := none, pageEnd := none, pollAt := none
      cur := if mine then none else b.cur, started := if mine then false else b.started })
  | _, _ => d

/-- BOOT_SETTLE_EXPIRY: 64 ms after reset release the first read starts (R51). -/
def bootSettle (d : Device) : Device :=
  if d.start.st = .load ∧ d.loader.rd.isNone then imgStart false false (waitUp (64 * ms) d) else d

/-- LOAD is entered, with bus recovery (R39, R51, R57, R58). -/
def enterLoad (d : Device) : Device :=
  (busRecovery (d.updStart fun s => { s with st := .load, entered := d.up })).updLoader fun l => { l with
    loadAttempts := satInc l.loadAttempts, aResult := 0, bResult := 0, rd := none }

/-- NO_IMAGE_RETRY: 10 s after NO_IMAGE was entered (R58). -/
def noImageRetry (d : Device) : Device :=
  if d.start.st = .noImage then imgStart false false (enterLoad (waitUp (d.start.entered + 10 * sec) d)) else d

def execBootTransactionDone (r : BootOutcome) (s : State) : Host.Outcome State Fault Refusal := done (bootDone r) s

end Sys2Proof.Machine
end

