-- ==== Sys2Proof/Machine/Arming.lean ====
section
/-! DEFINITION. Sys2Proof/Machine/Arming.lean: arming of regions (R66, R67), carrier resets (R181) and the checks before them (R67, R233). -/

namespace Sys2Proof.Machine

/-- The charge phase of an armed channel goes from IDLE to ASSESS (R257). -/
def assessArmed (c : Chan) (d : Device) : Device :=
  if (d.profs[c]).phase = .idle then (setPhase c .assess 6 0 d).updProf c fun p => { p with assessTry := 0 } else d

/-- A region is armed: a quadrant, or a channel with its quadrant (R66, R67). -/
def armQuad (q : Quad) (d : Device) : Device := d.updQuad q fun s => { s with armed := true }
def armChan (c : Chan) (d : Device) : Device := assessArmed c ((armQuad (Chan.quad c) d).updChan c fun s => { s with armed := true })

/-- Channels and quadrants that a carrier reset of a region acts on. -/
def regionChans : Region → List Chan
  | .device => allChans | .channel c => [c] | .quadrant q => quadChans q
def regionQuads : Region → List Quad
  | .device => allQuads | .channel c => [Chan.quad c] | .quadrant q => [q]

/-- Sources whose reaction in force stops a channel (R418, R419). -/
def stopping (d : Device) (c : Chan) : List Nat :=
  ((List.finRange 2048).filter fun f => (d.faults[f]).hold && (match scopeOf f.1 with
    | some sc => decide (c ∈ reach d sc (actSev sc (effSev d f.1)))
    | none => false)).map (·.1)

/-- An armed channel in UNARMED goes to OFF, its path switch to WAIT (R232, R299). A member whose driver fault
stands is shed (R235), and a channel that a reaction in force stops enters HELD (R419, R430). -/
def chanStart (c : Chan) (d : Device) : Device :=
  if (d.chans[c]).armed ∧ (d.chans[c]).st = .unarmed then
    let d := pathArm c (enterCh c .off d)
    let d := shedHigh c (if (d.chans[c]).hostStopQ then pauseProf c d else d)
    forEach ((d.chans[c]).holders ++ stopping d c) (fun f d => holdChan f c d) d
  else d

/-- An armed quadrant: its source leaves OFF, its table starts (R288, R346). A region carrier reset of the quadrant itself also restarts its
source's window (R287). -/
def quadStart (whole : Bool) (q : Quad) (d : Device) : Device :=
  if (d.quads[q]).armed then
    let d := if whole ∨ (d.srcs[q]).st = .off then srcArm q d else d
    let t : Table := ⟨q.1, by omega⟩
    if (d.seqs[t]).running then d else seqStart t d
  else d

/-- A carrier reset of a whole quadrant as its own region. -/
def isQuadRegion : Region → Bool
  | .quadrant _ => true
  | _ => false

/-- The carrier reset of a region (R181), which also completes an arming. -/
def carrierReset (r : Region) (d : Device) : Device :=
  forEach (regionChans r) chanStart (forEach (regionQuads r) (quadStart (isQuadRegion r)) (resetCarriers r d))

/-- CARRIER_RESET with no launch held: every island of the region performs it. -/
def carrierResetLaunch (r : Region) (d : Device) : Device := if d.start.st = .run then carrierReset r d else d

/-- A quadrant's part of the carrier reset of a region. -/
def carrierResetIn (q : Quad) (r : Region) (d : Device) : Device :=
  match r with
  | .device => if (d.quads[q]).armed then forEach (quadChans q) chanStart (quadStart false q (resetCarriers (.quadrant q) d)) else d
  | .quadrant k => if k = q then carrierReset r d else d
  | .channel c => if Chan.quad c = q then carrierReset r d else d

/-- The `ARM_REGION` check of a region over what is armed, with the overlay in force (R67). -/
def armCheck (d : Device) (r : Region) : CheckRes :=
  let k := d.mode.active.toNat
  checkAll (structOf d) d.loader.base d.loader.ovls k d
    (fun c => (d.chans[c]).armed || decide (r = .channel c))
    (fun q => (d.quads[q]).armed || decide (r = .quadrant q) || (match r with | .channel c => decide (Chan.quad c = q) | _ => false))

/-- A region is armed. In RUN its channel and its quadrant start from a region carrier reset (R67, R181). -/
def armRegionNow (r : Region) (d : Device) : Device :=
  match r with
  | .channel c => armChan c d
  | .quadrant q => armQuad q d
  | .device => d

/-- The quadrant of a region. -/
def regionQuad : Region → Quad
  | .channel c => Chan.quad c
  | .quadrant q => q
  | .device => 0

/-- ARM crosses to the region's quadrant (R19, R20). -/
def armSend (r : Region) (d : Device) : Device := toQuad (regionQuad r) (.region (.arm r)) (armRegionNow r) d

/-- REARM_CHECK_DONE (R232, R233): served only in OFF and while `HOST_STOP` is 0. -/
def rearmCheckDone (c : Chan) (d : Device) : Device :=
  let s := d.chans[c]
  if s.restart ∧ s.st = .off ∧ s.hostStopQ = false ∧ d.start.st = .run then
    let r := armCheck d (.channel c)
    let d := refusedInRun 1 r (setDetail 1 r (setStartCheck 1 r d))
    if r.reason = 0 then
      launchSoon (.carrierReset (.channel c)) (d.updChan c fun s => { s with restart := false, enablePending := false, rearmRefused := false })
    else
      d.updChan c fun s => { s with restart := false, enablePending := false, rearmRefused := true, reason := BitVec.ofNat 8 r.reason }
  else d

def execRearmCheckDone (c : Chan) (s : State) : Host.Outcome State Fault Refusal := done (rearmCheckDone c) s

end Sys2Proof.Machine
end

