-- ==== Sys2Proof/Machine/Ring.lean ====
section
/-! DEFINITION. Sys2Proof/Machine/Ring.lean: the caravan ring (04, R120 to R125): lengths, positions and delays; roles, alignment, halt scheduling and the
overlay that a device which runs alone takes (R107), and the steps of local time. -/

namespace Sys2Proof.Machine

/-- Delays are in units of 0.1 ns. -/
def ringLen (d : Device) : Nat := orDefault (d.cf 0x1000 0 4) 16
def ringId (d : Device) (p : Nat) : Nat := d.cf (0x1040 + 4 * p) 0 4
def cableDly (d : Device) (p : Nat) : Nat := d.cf (0x1040 + 4 * p) 4 16

/-- Position of a `CVN_ID` other than the leader's (R122). -/
def posOf (d : Device) (id : Nat) : Option Nat := (List.range (ringLen d)).find? fun p => decide (1 ≤ p) && decide (ringId d p = id)

/-- D(p) (R122). -/
def posDelay (d : Device) (p : Nat) : Nat := if p = 0 then 0 else ((List.range p).map fun k => cableDly d (k + 1)).sum + 400 * (p - 1)

/-- RT (R122). -/
def ringTotal (d : Device) : Nat := ((List.range (ringLen d)).map (cableDly d)).sum + 400 * (ringLen d - 1)

/-- δ for a time source at position s (R125). -/
def delta (d : Device) (s p : Nat) : Nat :=
  if s = 0 ∧ p = 0 then ringTotal d else if s < p then posDelay d p else ringTotal d + 400 + posDelay d p

/-- Own `CVN_ID`, strapped role and number (R49, R136). -/
def ownId (d : Device) : Nat := d.start.straps.cvnId.toNat

/-- Position and whether it is unknown, and compensation, from the end of BUILD (R71, R122). -/
def setPosition (d : Device) : Device :=
  if d.start.straps.leader then d.updCvn fun c => { c with comp := true, ringPos := 0, posUnknown := false }
  else d.updCvn fun c => { c with comp := true, ringPos := BitVec.ofNat 4 ((posOf d (ownId d)).getD 0), posUnknown := (posOf d (ownId d)).isNone }

/-- |e| above 20 ns, in units of 156.25 ps. -/
def eLarge (e : Int) : Bool := decide (128 < |e|)

def isAlone (d : Device) : Bool := decide (d.cvn.role = .alone)

/-- `ALIGNED` (R162). -/
def aligned (d : Device) : Bool := d.cvn.member && decide (d.cvn.timeState = .track) && !eLarge d.cvn.timeErr

/-! ### What leaves on the marker line (R48, R121, R124, R131) -/

/-- Frames leave `CVN_MKO_P/N` as a run of chips, the first with its marker edge at an instant in units of 156.25 ps (R131). -/
def transmitRun (fs : List (List Byte)) (chips : List Bool) (t : Nat) (d : Device) : Device :=
  d.updCvn fun c => { c with sent := fs, chips := chips, outAt := some t }

/-- One frame leaves. -/
def transmit (f : List Byte) (t : Nat) (d : Device) : Device := transmitRun [f] (frameChips f) t d

/-- 40 ns, the latency of a repeater, in units of 156.25 ps (R121). -/
def hop : Nat := 256

/-- A device that is not the time source repeats what it receives (R48, R121), in every state while the four rails are valid; after a
rail fall it is off until RESET_RELEASE, because no row tells of a rail's return (DESIGN CHOICE, log entry 179). -/
def forward (f : FrameRx) (bs : List Byte) (d : Device) : Device := if d.cvn.source ∨ d.start.accRails ≠ 0 then d else transmit bs (f.arrival + hop) d

/-- How much later than a leader this time source emits an edge: D(s) + 40 ns for an acting deputy (R124). -/
def edgeDelay (d : Device) : Nat :=
  if d.cvn.role = .acting then (qRound (((posDelay d d.cvn.ringPos.toNat + 400 : Nat) : Qty) * 16 / 25)).toNat else 0

/-- δ of this device for a time source, in units of 0.1 ns (R71, R122, R125). An acting source in no ring entry has no position in R125: 0 (log
entry 121). -/
def ringDelta (src : Nat) (acting : Bool) (d : Device) : Nat :=
  if d.cvn.comp = false ∨ d.cvn.posUnknown then 0
  else match if acting then posOf d src else some 0 with
    | some s => delta d s d.cvn.ringPos.toNat
    | none => 0

/-- δ in units of 156.25 ps. -/
def compensation (src : Nat) (acting : Bool) (d : Device) : Int := qRound ((ringDelta src acting d : Qty) * 16 / 25)

/-- A ROLL frame of this device waits for its insertion slot (R135, R148); a JOIN awaits its answer. -/
def rollPush (kind arg : Nat) (d : Device) : Device :=
  d.updCvn fun c => { c with
    rollQ := c.rollQ ++ [⟨kind, ownId d, strapRole d.start.straps, Config.uid, BitVec.ofNat 32 arg⟩], awaiting := c.awaiting || decide (kind = 1) }

/-- The role is resolved, and the RUN launch is issued to every island (R72, R73). -/
def resolve (r : BitVec 3) (d : Device) : Device :=
  launchAll .run (msBoundary (d.loc + us)) (d.updStart fun s => { s with joinResult := r, resolvedAt := some d.loc })

/-- A device becomes its caravan's time source, its own member (R121, R149): it has lost no leader (R162). -/
def becomeSource (role : CvnRole) (d : Device) : Device :=
  (faultEnds 0x5E6 d).updCvn fun c => { c with
    role := role, source := true, member := true, timeState := .track, leaderLost := false, holdover := false
    outAt := none, returned := false, openRun := 0, misRun := 0, okRun := 0, retRun := 0, rivalSince := none, leaderSince := none, handback := none
    members := c.members ||| BitVec.ofNat 16 (2 ^ ownId d)
    uids := c.uids.set (ownId d % 16) Config.uid
    presentAt := c.presentAt.set (ownId d % 16) d.loc }

/-- The reference of a device that begins to drive time: `XREF` while it is valid, else its own oscillators (R71, R140, R143, R145). `HOLDOVER` is
a leader's own (R162). -/
def sourceRef (d : Device) : Device :=
  d.updCvn fun c => { c with
    refSrc := if c.xrefValid then 1 else 2, onOwn := !c.xrefValid, holdover := !c.xrefValid && decide (c.role = .leader), timeState := .track }

/-- Entry to JOIN (R72, R145). A returning leader takes clock and time from the ring like a follower. -/
def joinEnter (d : Device) : Device :=
  let d := d.updStart fun s => { s with st := .join, entered := d.up, resolvedAt := none }
  if d.start.straps.leader then
    let heard := match d.cvn.actingSeen with | some t => decide (d.loc ≤ t + 10 * ms) | none => false
    if heard then
      resolve 1 (rollPush 7 0 (d.updCvn fun c => { c with role := .returning, refSrc := 0, onOwn := false, timeState := .reacq, holdover := true }))
    else resolve 1 (sourceRef (becomeSource .leader d))
  else
    rollPush 1 0 (d.updCvn fun c => { c with role := if d.start.straps.deputy then .deputy else .follower, joinTried := some d.loc })

/-! ### Running alone (R107, R151) -/

/-- A device that runs alone, or in holdover, acts on its own mode pins (R107). -/
def ownMode (d : Device) : Bool := isAlone d || (d.cvn.holdover && !d.cvn.source)

/-- A device that acts on its own mode pins starts the check of its debounced value when it differs from its overlay (R107). -/
def aloneMode (d : Device) : Device :=
  if ownMode d ∧ d.start.st = .run then
    match d.mode.deb with
    | some v =>
      if v ≠ d.mode.active ∧ d.mode.blocked = false ∧ d.mode.localNext = none then d.updMode fun m => { m with lateCheck := some (v, false) } else d
    | none => d
  else d

/-- A halt of the device's own schedule, with its own `HALT_CFG` (R151, R153, R161). -/
def ownHalt (no start : Nat) (d : Device) : Device :=
  let c := haltCfg d
  announce ⟨BitVec.ofNat 32 no, start, c.2, c.1, false⟩ d

/-- The next halt of a device that runs alone: halt k starts at its RUN launch + k P (R151). -/
def aloneHalt (d : Device) : Device :=
  let p := (haltCfg d).1 * 10000
  let k := (d.ticks + 50000 - d.halt.runAt) / max 1 p + 1
  ownHalt k (d.halt.runAt + k * p) d

/-- The coming halt is one of those that the device has when it runs alone (R151). -/
def ownNext (d : Device) : Bool :=
  match d.halt.next with
  | some h =>
    decide (h.start = d.halt.runAt + h.no.toNat * ((haltCfg d).1 * 10000) ∧ h.period = (haltCfg d).1 ∧ h.qlen = (haltCfg d).2) && !h.predicted
  | none => false

/-- The device runs alone from now (R151): its halts are those of its own `HALT_CFG` from its RUN launch on. A former time source takes clock and time
from the ring. -/
def runAlone (d : Device) : Device :=
  let was := d.cvn.source
  let d := d.updCvn fun c => { c with role := .alone, source := false, member := false, members := 0, handback := none, joinPending := false }
  let d := if was then d.updCvn fun c => { c with refSrc := 0, onOwn := false, timeState := .reacq, holdover := true, badRun := 0, goodRun := 0 } else d
  let d := d.updMode fun m => { m with
    phase := 0, pending := 0, halt := m.applied, commit := none, proposedAt := none, leaderCheck := none, cancelLeft := 0, memberCheck := none
    answer := none, lateCheck := none, localNext := none }
  let d := if d.start.st = .run ∧ ownNext d = false then aloneHalt (dropHalt d) else d
  aloneMode d

/-! ### Steps of local time (R127, R130, R141, R142) -/

/-- A launch request whose time has passed is held for the island's next sub-tick, in the order of R24 (R25). -/
def launchNextTick (i : Island) (d : Device) (ls : List Launch) (l : Launch) : List Launch := launchInsert { l with time := islTime d i + 1 } ls

/-- Launches whose time a forward step of an island's time passed are late (R130): flagged, and performed at the next sub-tick (R25). -/
def lateLaunches (was : Nat) (i : Island) (d : Device) : Device :=
  let past (l : Launch) : Bool := decide (was < l.time ∧ l.time < islTime d i)
  let ls := d.isl.launches[i]
  forEach (ls.filter past) (launchLate i)
    (d.updIsl fun x => { x with launches := upd x.launches i fun ls => (ls.filter past).foldl (launchNextTick i d) (ls.filter fun l => !past l) })

/-- A device accepted while it ran alone takes part from now on (R151). -/
def joinCaravan (d : Device) : Device :=
  if d.cvn.joinPending then
    (d.updCvn fun c => { c with joinPending := false, role := if d.start.straps.deputy then .deputy else .follower }).updHalt fun h =>
      { h with next := none, ran := false, accepted := false }
  else d

/-- Its own coming halt is dropped, with the step of its time (R151). -/
def leaveAlone (d : Device) : Device := if d.cvn.joinPending then dropHalt d else d

/-- A sub-tick count moved by a step. -/
def moved (st : Int) (x : Nat) : Nat := ((x : Int) + st).toNat

/-- Local time and the quadrants' copies are stepped by e, to the nearest sub-tick. -/
def timeStep (d : Device) : Device :=
  let e := d.cvn.timeErr
  let st := qRound ((e : Qty) / 16)
  let d := leaveAlone d
  let was := d.clk
  let d := { d with clk := { d.clk with loc := moved st d.clk.loc, qtime := d.clk.qtime.map (moved st) } }
  let big := decide ((sec : Int) < |st|)
  let d := d.updCvn fun c => { c with
    timeErr := e - 16 * st, timeState := .track, holdover := false, badRun := 0, goodRun := 0, newBase := c.newBase || big, timeSeen := some d.loc }
  let d := if big then logEvent 0x0302 (encSigned (qRound ((st : Qty) / 400)) 64 % 2 ^ 32) (encSigned (qRound ((st : Qty) / 400)) 64 / 2 ^ 32) 0 d else d
  let d := forEach (List.finRange 5) (fun i d => lateLaunches (if h : i.1 < 4 then was.qtime[i.1] else was.loc) i d) d
  joinCaravan d

/-- Three TIME frames with a large error (R141): before RUN the step is applied at once (R140). -/
def toStepWait (d : Device) : Device :=
  let d := d.updCvn fun c => { c with timeState := .stepWait, badRun := 0, goodRun := 0, holdover := false }
  if d.start.st = .run then d else timeStep d

/-- JOIN_TIMEOUT: no ROLL answer within 500 ms (R72). -/
def joinTimeout (d : Device) : Device :=
  if d.start.st = .join ∧ d.start.resolvedAt = none then
    let d := waitUp (d.start.entered + 500 * ms) d
    resolve 4 (runAlone (d.updCvn fun c => { c with joinTried := some d.loc }))
  else d

end Sys2Proof.Machine
end

