-- ==== Sys2Proof/Machine/Overlay.lean ====
section
/-! DEFINITION. Sys2Proof/Machine/Overlay.lean: overlay changes: proposals, votes, commits, late and local changes (03, R99 to R108; 04, R137, R138). -/

namespace Sys2Proof.Machine

/-! ### A new composition takes effect -/

/-- A channel whose profile has no pulses any more ends its rest without an estimate, and waits for no slot (R266). -/
def endPulses (c : Chan) (d : Device) : Device :=
  regate c (((abandonRest c d).updProf c fun p => { p with waitSlot := false, joinEnd := none }).updChan c fun s =>
    { s with hp := 1, hpDownAt := none, hpUpAt := none })

/-- What a changed configuration does to a channel at its launch: reload writes (R166) and the charge phase (R257, R264). `was` is the device before
the change. -/
def chanReconf (was : Device) (c : Chan) (d : Device) : Device :=
  if (d.chans[c]).armed then
    let d := if reloadIn was c = reloadIn d c then d else writeReload c (reloadIn d c) d
    let d := if profSel was c ≠ profSel d c ∨ pulseEn was c ≠ pulseEn d c then toAssess c d else d
    if pulseEn d c then d else applyReq c (if pulseEn was c then endPulses c d else d)
  else d

/-- An overlay change raises a restart request where a re-arm check had refused (R233). -/
def overlayRestart (c : Chan) (d : Device) : Device := if (d.chans[c]).armed ∧ (d.chans[c]).rearmRefused then restartReq c d else d

/-- The base with the words of another image in some ranges of addresses. -/
def mergeBase (base img : Memory) (l : List (Nat × Nat)) : Memory := l.foldl (fun m r => mreplace m r.1 r.2 (mslice img r.1 r.2 r.1)) base

/-- Configuration words of a quadrant, as ranges of addresses, but for those of its slots (R111). -/
def quadRanges (q : Quad) : List (Nat × Nat) :=
  [(0x2000 + 1024 * q.1, 0x2000 + 1024 * q.1 + 1024), (srb q, srb q + 512), (0x13000 + 1024 * q.1, 0x13000 + 1024 * q.1 + 1024)] ++
    ((quadChans q).flatMap fun c => [(chb c, chb c + 512), (ptb c, ptb c + 256)]) ++ (quadMods q).map fun m => (mdb m, mdb m + 64)

/-- Configuration words of slots. -/
def slotRanges (l : List Slot) : List (Nat × Nat) := l.map fun n => (phb n, phb n + 128)

/-- Configuration words that a quadrant's island holds, its CALIB records with them. -/
def islandRanges (q : Quad) : List (Nat × Nat) := (calb (Fin.ofNat 88 (22 * q.1)), calb (Fin.ofNat 88 (22 * q.1)) + 22 * 32) :: quadRanges q ++ slotRanges (quadSlots q)

/-- The words of a message: all words of the quadrant, or the CALIB record of a modulator. -/
def wordRanges (q : Quad) : Option Pm → List (Nat × Nat)
  | some m => [(calb m, calb m + 32)]
  | none => islandRanges q

/-- Words that housekeeping has written reach a quadrant: those of the composition in force. -/
def takeWords (q : Quad) (m : Option Pm) (d : Device) : Device :=
  d.updMem fun x => { x with conf := mergeBase x.conf (composeMem d.loader.base d.loader.ovls d.mode.active.toNat) (wordRanges q m) }

/-- Quadrants that do not take a configuration change with housekeeping: their own launch of it is still to come (R21, R25), or has come before. -/
def confLags (d : Device) : List Quad :=
  allQuads.filter fun q => d.isl.ahead[q] || launchSent .config d.loc d q ||
    (d.isl.launches[quadIsland q]).any fun l => decide (l.act = .config ∧ l.time ≤ d.loc ∧ d.clk.qtime[q] < l.time)

/-- A configuration launch gives a quadrant work to do at its own instant (R21). -/
def giveWork (q : Quad) (w : QuadWork) (d : Device) : Device := d.updIsl fun x => { x with work := upd x.work q (· ++ [w]) }

/-- A composition comes into force, but for the words of quadrants whose launch is still to come. -/
def confTake (new : Memory) (d : Device) : Device :=
  d.updMem fun x => { x with conf := (confLags d).foldl (fun m q => mergeBase m d.memory.conf (quadRanges q ++ slotRanges (quadSlots q))) new }

/-- The configuration in force changes: the channels of every quadrant that takes it now take it up, and a refused substitution may be tried again
(R451). -/
def confChanged (was : Device) (d : Device) : Device :=
  let lag := confLags d
  forEach (allChans.filter fun c => decide (Chan.quad c ∉ lag)) (chanReconf was)
    { d with slots := d.slots.map fun (s : SlotSt) => { s with newtRefused := false } }

/-- The mirror holds a composition (R62, R527): its codewords are written afresh, the first of them through `memWrite` (R441). -/
def writeMirror (v : Nat) (d : Device) : Device :=
  let m := mirrorOf d.loader.base d.loader.ovls v
  let d := d.updMem fun x => { x with
    mem := mreplace x.mem 0 0x40000 (mslice m 0 0x40000 0)
    errs := x.errs.filter fun e => decide (8192 ≤ e.1)
    raised := x.raised.filter fun k => decide (8192 ≤ k)
    fixing := x.fixing.filter fun k => decide (8192 ≤ k) }
  memWrite 0 (mgets m 0 4) d

/-- A COMMIT is held whose halt is later than halt h. -/
def laterCommit (m : ModeSt) (h : Word) : Bool :=
  match m.commit with
  | some (_, k) => follows32 h.toNat k.toNat
  | none => false

/-- Overlay v is in force from the quiet-window start of halt h (R101, R102). A late or local change leaves a COMMIT held for a later halt
standing, with its halt number in `MODE_HALT` (R104, R105, R108). -/
def applyOverlay (v : BitVec 4) (h : Word) (d : Device) : Device :=
  let was := d
  let d := confTake (composeMem d.loader.base d.loader.ovls v.toNat) (writeMirror v.toNat d)
  let d := d.updMode fun m =>
    let m := { m with active := v, applied := h, localNext := none, seenOvl := none }
    if laterCommit m h then m
    else { m with halt := h, phase := 0, commit := none, answer := none, pending := 0, cvnOvl := if m.commit.isSome then some v else m.cvnOvl }
  logEvent 0x0202 v.toNat h.toNat 0 ((forEach allChans overlayRestart (confChanged was d)).updReload fun r => { r with recheck := r.recheck || decide (3 ≤ r.st.toNat ∧ r.st.toNat ≤ 4) })

/-! ### Checks -/

/-- A refusal of an overlay change on this device (R108). -/
def modeRefuse (r : CheckRes) (d : Device) : Device :=
  d.updMode fun m => { m with reason := BitVec.ofNat 8 r.reason, refusals := satInc8 m.refusals }

/-- The check of an overlay change in RUN has ended (R116, R119). -/
def overlayChecked (r : CheckRes) (d : Device) : Device :=
  let d := refusedInRun 3 r (setDetail 3 r d)
  if r.reason = 0 then d else modeRefuse r d

def leads (d : Device) : Bool := d.cvn.source && d.cvn.member && decide (d.start.st = .run)

/-- OVERLAY_PROPOSE (R100 step 1, R104). A proposal waits until the ten CANCEL frames of the last have been sent (log entry 122). -/
def overlayPropose (d : Device) : Device :=
  match d.mode.deb with
  | some v =>
    if leads d ∧ v ≠ d.mode.active ∧ d.mode.phase = 0 ∧ d.mode.cancelLeft = 0 ∧ d.mode.blocked = false then
      d.updMode fun m => { m with leaderCheck := some v }
    else d
  | none => d

/-- LEADER_OVERLAY_CHECK_DONE. -/
def leaderCheckDone (d : Device) : Device :=
  match d.mode.leaderCheck with
  | some v =>
    let r := checkOverlay d v.toNat
    let d := overlayChecked r (d.updMode fun m => { m with leaderCheck := none })
    if r.reason ≠ 0 then d.updMode fun m => { m with blocked := true }
    else d.updMode fun m => { m with phase := 1, pending := v, proposedAt := none, acc := BitVec.ofNat 16 (2 ^ ownId d), ref := 0 }
  | none => d

/-- MEMBER_OVERLAY_CHECK_DONE: of a proposal (R100 step 3), or of an overlay to be taken late (R103) or alone (R107). -/
def memberCheckDone (d : Device) : Device :=
  match d.mode.memberCheck with
  | some v =>
    let r := checkOverlay d v.toNat
    overlayChecked r (d.updMode fun m => { m with memberCheck := none, answer := some (v, decide (r.reason = 0)) })
  | none =>
    match d.mode.lateCheck with
    | some (v, late) =>
      let r := checkOverlay d v.toNat
      let d := overlayChecked r (d.updMode fun m => { m with lateCheck := none })
      if r.reason = 0 then d.updMode fun m => { m with localNext := some (v, late) }
      else if late = false then d.updMode fun m => { m with blocked := true }
      else logEvent 0x0203 1 v.toNat 0 (d.updMode fun m => { m with disagree := true })
    | none => d

/-! ### Votes, commit and cancel on the time source -/

/-- First halt whose quiet window starts at least 20 ms after a time in ticks (R100 step 4). With no halt scheduled it is the next number after the
last (log entry 123). -/
def effHalt (t : Nat) (d : Device) : Word :=
  match d.halt.next with
  | some h => if t + 200000 ≤ h.start then h.no else h.no + BitVec.ofNat 32 ((t + 200000 - h.start + h.period * 10000 - 1) / max 1 (h.period * 10000))
  | none => d.halt.refNo + 1

/-- CANCEL begins (R100 step 5). A refusal by a member blocks new checks (R104). -/
def modeCancel (d : Device) : Device :=
  d.updMode fun m => { m with
    phase := 0, pending := 0, cancelOvl := m.pending, proposedAt := none, cancelLeft := 10, lastAccept := m.acc, lastRefuse := m.ref, blocked := m.blocked || decide (m.ref ≠ 0) }

/-- The votes read are judged, with the first COMMIT leaving in the time frame of tick t: COMMIT when every member's bit is set in `ACCEPT` (R100 step 4), CANCEL when one is set in `REFUSE`. -/
def judgeVotes (t : Nat) (d : Device) : Device :=
  let m := d.mode
  if m.phase = 1 ∧ m.proposedAt.isSome then
    if m.ref &&& d.cvn.members ≠ 0 then modeCancel d
    else if d.cvn.members &&& ~~~m.acc = 0 then
      let h := effHalt t d
      d.updMode fun m => { m with
        phase := 2, proposedAt := none, commit := some (m.pending, h), halt := h, answer := some (m.pending, true), lastAccept := m.acc, lastRefuse := m.ref }
    else d
  else d

/-- PROPOSE_TIMEOUT: 100 ms after the first PROPOSE. -/
def proposeTimeout (d : Device) : Device :=
  match d.mode.phase, d.mode.proposedAt with
  | 1, some t => modeCancel (waitLoc (t + 100 * ms) d)
  | _, _ => d

/-- Payload of a MODE frame with the tail of the time source (R136, R137). -/
def modeFrame (kind : Nat) (ovl : BitVec 4) (h : Word) : List Byte :=
  frameBytes 3 (leBytes 1 kind ++ leBytes 1 ovl.toNat ++ leBytes 4 h.toNat) ++ leBytes 2 0 ++ leBytes 2 0xFFFF ++ leBytes 2 0 ++ leBytes 2 0xFFFF

/-- MODE frames of a time frame (R138). ACTIVE goes with the frames whose millisecond is a multiple of 10 (log entry 128). -/
def modeSends (d : Device) : List (List Byte) :=
  let m := d.mode
  if 0 < m.cancelLeft then [modeFrame 3 m.cancelOvl 0]
  else match m.phase with
    | 1 => [modeFrame 1 m.pending 0]
    | 2 => [modeFrame 2 m.pending m.halt]
    | _ => if (d.ticks / 10000) % 10 = 0 then [modeFrame 0 m.active m.halt] else []

/-- What sending them changes: the first PROPOSE starts its 100 ms, ten CANCEL frames are counted. -/
def modeSent (d : Device) : Device :=
  d.updMode fun m => { m with
    cancelLeft := m.cancelLeft - 1
    proposedAt := if m.cancelLeft = 0 ∧ m.phase = 1 ∧ m.proposedAt = none then some d.loc else m.proposedAt }

/-! ### Disagreement (R106) -/

/-- The caravan's active overlay, as the ACTIVE frames name it; before the first, the device's own. -/
def caravanOvl (d : Device) : BitVec 4 := d.mode.cvnOvl.getD d.mode.active

/-- Whether the pins of a joined follower or deputy select another overlay than the caravan's. -/
def pinsDiffer (d : Device) : Bool :=
  decide (d.start.st = .run) && d.cvn.member && !d.cvn.source && !ownMode d && (match d.mode.deb with | some v => decide (v ≠ caravanOvl d) | none => false)

/-- The 1 s of R106 starts and ends with the difference. -/
def disagreeTrack (d : Device) : Device :=
  d.updMode fun m => { m with
    disagreeSince := if pinsDiffer d then (match m.disagreeSince with | some t => some t | none => some d.up) else none
    disagreeDone := pinsDiffer d && m.disagreeDone }

/-! ### MODE frames received (R137, R100, R103) -/

/-- Bits of a mask that read as set, and the bits whose two copies are equal. -/
def maskBits (t c : Nat) : BitVec 16 × BitVec 16 := (BitVec.ofNat 16 t &&& ~~~BitVec.ofNat 16 c, ~~~(BitVec.ofNat 16 t ^^^ BitVec.ofNat 16 c))

/-- A returned PROPOSE on the time source. A member with a bit whose copies are equal, in either mask, has not yet answered (R137). -/
def votesRead (ovl : BitVec 4) (tail : List Byte) (d : Device) : Device :=
  let a := maskBits (fld tail 0 2) (fld tail 2 2)
  let r := maskBits (fld tail 4 2) (fld tail 6 2)
  let clear := ~~~(a.2 ||| r.2)
  if d.mode.phase = 1 ∧ ovl = d.mode.pending then
    judgeVotes ((d.loc / ms + 1) * 10000) ((d.updMode fun m => { m with acc := m.acc ||| (a.1 &&& clear), ref := m.ref ||| (r.1 &&& clear) }).updCvn fun c =>
      { c with frameErrs := satAdd c.frameErrs (bitCount a.2.toNat 16 + bitCount r.2.toNat 16) })
  else d

/-- The tail as a member's repeater sends it on, with the member's bit (R137). -/
def markTail (id : Nat) (ok : Bool) (tail : List Byte) : List Byte :=
  let put (on : Bool) (off : Nat) : List Byte :=
    let t := fld tail off 2
    let c := fld tail (off + 2) 2
    if on then leBytes 2 (t ||| 2 ^ id) ++ leBytes 2 (BitVec.ofNat 16 c &&& ~~~BitVec.ofNat 16 (2 ^ id)).toNat else leBytes 2 t ++ leBytes 2 c
  put ok 0 ++ put (!ok) 4

/-- A member's PROPOSE: its check runs once; its bit is set in the frames that pass after it. -/
def onPropose (v : BitVec 4) (f : FrameRx) (tail : List Byte) (d : Device) : Device :=
  let d := d.updMode fun m => { m with phase := if m.phase = 2 then 2 else 1, pending := if m.phase = 2 then m.pending else v }
  match d.mode.answer with
  | some (w, ok) =>
    if w = v then forward f (f.bytes.take 10 ++ markTail (ownId d) ok tail) d
    else d.updMode fun m => { m with answer := none, memberCheck := some v }
  | none => d.updMode fun m => { m with memberCheck := some v }

/-- An ACTIVE frame on a member (R103): an overlay other than its own is checked once and taken at the next halt, but for a device that acts on its own
mode pins (R107). -/
def onActive (v : BitVec 4) (d : Device) : Device :=
  let d := d.updMode fun m => { m with cvnOvl := some v }
  let d := if d.mode.phase = 1 then d.updMode fun m => { m with phase := 0, pending := 0, answer := none, memberCheck := none } else d
  if v = d.mode.active then d.updMode fun m => { m with seenOvl := none }
  else if ownMode d ∨ d.mode.commit.isSome ∨ d.mode.seenOvl = some v then d
  else d.updMode fun m => { m with seenOvl := some v, lateCheck := some (v, true) }

/-- A MODE frame acts on a member. -/
def modeMember (k : Nat) (v : BitVec 4) (h : Word) (f : FrameRx) (tail : List Byte) (d : Device) : Device :=
  match k with
  | 0 => disagreeTrack (onActive v d)
  | 1 => onPropose v f tail d
  | 2 => d.updMode fun m => { m with
      phase := 2, pending := v, halt := h, commit := some (v, h), memberCheck := if m.answer.map (·.1) = some v then m.memberCheck else some v }
  | _ => d.updMode fun m => if m.phase = 1 then { m with phase := 0, pending := 0, answer := none, memberCheck := none } else m

/-- MODE_FRAME_RECEIVE. A device that runs alone ignores MODE frames (R151). -/
def modeFrameReceive (f : FrameRx) (d : Device) : Device :=
  let d := forward f f.bytes d
  if d.start.st = .reset ∨ d.start.st = .init then d
  else match framePayload 3 6 8 f.bytes with
  | some (p, tail) =>
    let k := fld p 0 1
    let v := BitVec.ofNat 4 (fld p 1 1)
    if 3 < k then d.updCvn fun c => { c with frameErrs := satInc c.frameErrs }
    else if d.start.st ≠ .run ∨ isAlone d ∨ d.cvn.member = false then d
    else if d.cvn.source then (if k = 1 then votesRead v tail d else d)
    else modeMember k v (BitVec.ofNat 32 (fld p 2 4)) f tail d
  | none => d.updCvn fun c => { c with frameErrs := satInc c.frameErrs }

/-! ### At a halt -/

/-- A late or local change whose check has accepted takes effect at a halt (R103, R107). A device that acts on its own mode pins compares them afresh with
the overlay it has taken. -/
def localAtHalt (no : Word) (d : Device) : Device :=
  match d.mode.localNext with
  | some (v, late) =>
    let d := applyOverlay v no d
    aloneMode (if late then logEvent 0x0203 2 v.toNat 0 (d.updMode fun m => { m with late := true }) else d)
  | none => d

/-- A COMMIT held for halt no, or for one before it, that has not been applied has lapsed: the device keeps its overlay (R103). -/
def commitLapse (no : Word) (d : Device) : Device :=
  match d.mode.commit with
  | some (_, h) =>
    if h = no ∨ follows32 h.toNat no.toNat then
      d.updMode fun m => { m with commit := none, phase := 0, pending := 0, answer := none, halt := m.applied }
    else d
  | none => d

/-- The overlay change that takes effect at the quiet-window start of halt no: a commit for it, or a late or local change (R100 to R107). A commit
whose halt has passed has lapsed. A device that acts on its own mode pins compares them afresh with the overlay it has taken (R107). -/
def overlayAtHalt (no : Word) (d : Device) : Device :=
  match d.mode.commit with
  | some (v, h) =>
    if h = no ∧ d.mode.answer = some (v, true) then aloneMode (applyOverlay v no d) else localAtHalt no (commitLapse no d)
  | none => localAtHalt no d

/-! ### Disagreement timer (R106) -/

/-- MODE_DISAGREE_TIMER. -/
def disagreeTimer (d : Device) : Device :=
  match d.mode.disagreeSince with
  | some t =>
    if pinsDiffer d ∧ d.mode.disagreeDone = false then
      logEvent 0x0203 1 (caravanOvl d).toNat 0 ((waitUp (t + sec) d).updMode fun m => { m with disagree := true, disagreeDone := true })
    else d
  | none => d

def execOverlayPropose (s : State) : Host.Outcome State Fault Refusal := done overlayPropose s
def execLeaderOverlayCheckDone (s : State) : Host.Outcome State Fault Refusal := done leaderCheckDone s
def execMemberOverlayCheckDone (s : State) : Host.Outcome State Fault Refusal := done memberCheckDone s
def execModeFrameReceive (f : FrameRx) (s : State) : Host.Outcome State Fault Refusal := done (modeFrameReceive f) s

end Sys2Proof.Machine
end

