-- ==== Sys2Proof/Machine/Reload.lean ====
section
/-! DEFINITION. Sys2Proof/Machine/Reload.lean: region reloads (03, R109 to R111; 12, R448, R471 to R474). -/

namespace Sys2Proof.Machine

/-! ### The region (R111) -/

def reloadRegion (d : Device) : Region :=
  if d.reload.quad then .quadrant (Fin.ofNat 4 d.reload.obj.toNat) else .channel (Fin.ofNat 32 d.reload.obj.toNat)

/-- Slots of the region: of a quadrant, or those assigned to a channel before or after the reload. -/
def reloadSlots (d : Device) (img : Memory) : Region → List Slot
  | .quadrant q => quadSlots q
  | .channel c => allSlots.filter fun n => bitOf (mword d.loader.base (phb n)) c.1 || bitOf (mword img (phb n)) c.1
  | .device => []

def reloadMods : Region → List Pm
  | .quadrant q => quadMods q
  | _ => []

/-- Configuration words of the region, as ranges of addresses. -/
def reloadRanges (d : Device) (img : Memory) (r : Region) : List (Nat × Nat) :=
  (match r with
    | .channel c => [(chb c, chb c + 512), (ptb c, ptb c + 256)]
    | .quadrant q => quadRanges q
    | .device => []) ++ slotRanges (reloadSlots d img r)

def inRanges (l : List (Nat × Nat)) (a : Nat) : Bool := l.any fun r => decide (r.1 ≤ a) && decide (a < r.2)

/-- The overlays with the region's records of another image; their headers are kept. -/
def mergeOvls (old new : List Ovl) (l : List (Nat × Nat)) : List Ovl :=
  old.map fun o =>
    let recs := match findOvl new o.idx with | some x => x.recs | none => []
    { o with recs := (o.recs.filter fun x => !inRanges l (dAddr x.1)) ++ recs.filter fun x => inRanges l (dAddr x.1) }

/-- The slots that a slot replaces, one behind the other: a spare may replace a spare that was shed in its turn (R446, R455). -/
def replChain (d : Device) : Nat → Slot → List Slot
  | 0, _ => []
  | k + 1, n => match (d.slots[n]).repl with | some f => f :: replChain d k f | none => []

/-- Substitutions that touch the region's slots end, with the shed state of its channels and the bad marks (R448). -/
def dropSlots (slots : List Slot) (chans : List Chan) (d : Device) : Device :=
  let ends (n : Slot) (s : SlotSt) : Bool := s.repl.isSome && (n :: replChain d 34 n).any fun f => decide (f ∈ slots)
  let mine (s : SlotSt) : Bool := match s.shedFrom with | some c => decide (c ∈ chans) | none => false
  { d with
    slots := mapAll d.slots fun n s =>
      let s := if ends n s then { s with repl := none, forCh := none, tadpole := false, promoted := false, promoteNext := false } else s
      let s := if mine s then { s with shedFrom := none, evRun := 0 } else s
      if n ∈ slots then { s with shedFrom := none, bad := false, newtRefused := false, evRun := 0 } else s }

/-- A modulator of the region: its substitution and its bad mark end; one that takes up a role again, or gives one up, starts its stream
afresh. -/
def dropMod (up : Nat) (x : ModSt) : ModSt :=
  let y := { x with acting := none, failed := x.failed && !x.bad && x.acting.isNone, bad := false, noSpare := false }
  if x.bad ∨ x.acting.isSome then
    { y with streamAt := up, resAt := none, streamOk := false, same := 0, checkRun := 0, disagreed := false, tapWrong := 0, tapBad := false
             degraded := false, lastRaws := [] }
  else y

/-- A substitution that waits for its launch and includes a slot or a modulator of the region. -/
def swapIn (slots : List Slot) (ms : List Pm) (w : Swap) : Bool :=
  if w.modulator then ms.any fun m => decide (m.1 = w.f ∨ m.1 = w.s) else slots.any fun n => decide (n.1 = w.f ∨ n.1 = w.s)

/-- The same for the region's slots and modulators (R448). -/
def dropRegion (slots : List Slot) (r : Region) (d : Device) : Device :=
  let d := dropSlots slots (regionChans r) d
  { d with mods := mapAll d.mods fun m x => if m ∈ reloadMods r then dropMod d.up x else x }

/-- Substitutions of them that are not yet launched end too (R448). -/
def dropSwaps (slots : List Slot) (r : Region) (d : Device) : Device :=
  d.updMem fun x => { x with swaps := x.swaps.filter fun w => !swapIn slots (reloadMods r) w }

/-! ### The sequence of R472 -/

/-- A reload ends refused (R118). -/
def reloadRefused (r : CheckRes) (d : Device) : Device :=
  alertSet 4 ((refusedInRun 5 r (setDetail 5 r d)).updReload fun x => { x with
    st := 6, known := true, reason := BitVec.ofNat 8 r.reason, ms := BitVec.ofNat 16 (min 65535 ((d.up - x.at0) / ms)), newBase := [], newOvls := [] })

/-- The image's own findings (R109, R111, R83) in the order of R115: directory, image, overlays. An image that fails before its directory is
read has none of the first. -/
def reloadStruct (d : Device) : Option CheckRes :=
  match d.reload.dirBad with
  | some i => some { reason := 0x1B, obj := i }
  | none =>
    if d.reload.imgRes ≠ 1 then some { reason := 0x1D, obj := d.reload.imgRes }
    else d.reload.differ.map fun o => { reason := 0x1E, obj := o }

/-- The check of a merged candidate under the overlay in force, without Newt's substitutions of the region (R472). -/
def reloadCheck (d : Device) (struct : Option CheckRes) (base : Memory) (ovls : List Ovl) (slots : List Slot) : CheckRes :=
  checkAll struct base ovls d.mode.active.toNat (dropSwaps slots (reloadRegion d) (dropRegion slots (reloadRegion d) d)) (armedCh d) (armedQd d)

/-- Channels of the region that are armed. -/
def reloadChans (d : Device) : List Chan := (regionChans (reloadRegion d)).filter fun c => (d.chans[c]).armed

/-- A channel of an accepted reload enters STOP with `STOP_CAUSE` 0b100 at its next loop step (R232). -/
def reloadStop (c : Chan) (d : Device) : Device :=
  if (d.chans[c]).st = .start ∨ (d.chans[c]).st = .regulate then d.updChan c fun s => { s with reloadReq := true } else d

/-- The command to do so crosses to its quadrant (R19, R20). -/
def stopSend (c : Chan) (d : Device) : Device := toQuad (Chan.quad c) (.region (.stop c)) (reloadStop c) d

/-- RELOAD_CHECK_DONE. The merged candidate stays until it is written. -/
def reloadCheckDone (d : Device) : Device :=
  if d.reload.st = 2 then
    let rg := reloadRegion d
    let l := reloadRanges d d.reload.newBase rg
    let base := mergeBase d.loader.base d.reload.newBase l
    let ovls := mergeOvls d.loader.ovls d.reload.newOvls l
    let r := reloadCheck d (reloadStruct d) base ovls (reloadSlots d d.reload.newBase rg)
    if r.reason ≠ 0 then reloadRefused r d
    else
      forEach (reloadChans d) stopSend ((setDetail 5 r d).updReload fun x => { x with
        st := 3, newBase := base, newOvls := ovls, checkedAt := d.up, written := false, recheck := false })
  else d

/-- A channel that the reload need not wait for. -/
def reloadQuiet (d : Device) (c : Chan) : Bool :=
  let s := (d.chans[c]).st
  decide (s = .off ∨ s = .held ∨ s = .absent ∨ s = .unarmed)

/-- RELOAD_STOP_DONE: the words are to be written as requester 10 of the memory write port. -/
def reloadStopDone (d : Device) : Device :=
  if d.reload.st = 3 ∧ (regionChans (reloadRegion d)).all (reloadQuiet d) then
    mirrorStarts (d.updReload fun x => { x with st := 4 })
  else d

/-- A stop that still runs at 10 s closes its gate at once. -/
def reloadForce (c : Chan) (d : Device) : Device :=
  if (d.chans[c]).st = .stop ∨ ((d.chans[c]).st.switching ∧ (d.chans[c]).reloadReq) then
    stopEnds c (quadEvent (Chan.quad c) 0x0709 c.1 (unitsOf (d.chans[c]).icmd 16 16) 0 d)
  else d

/-- The command to do so crosses to its quadrant (R19, R20). -/
def forceSend (c : Chan) (d : Device) : Device := toQuad (Chan.quad c) (.region (.force c)) (reloadForce c) d

/-- RELOAD_STOP_TIMEOUT. -/
def reloadStopTimeout (d : Device) : Device :=
  if d.reload.st = 3 then forEach (reloadChans d) forceSend (waitUp (d.reload.checkedAt + 10 * sec) d) else d

/-- The base and the overlays with the reloaded words and records of the region, as they come into force: what other writes have changed of the other
regions since the check stays (R472). -/
def reloadBase (d : Device) : Memory := mergeBase d.loader.base d.reload.newBase (reloadRanges d d.reload.newBase (reloadRegion d))

/-- First codeword of the overlay store (R528). -/
def storeCw : Nat := 5412

/-- Codewords of the mirror that a reload writes: the region's, and those of the overlay store. -/
def reloadCws (d : Device) : List Nat :=
  ((reloadRanges d d.reload.newBase (reloadRegion d)).flatMap fun r => (List.range ((r.2 - 1) / 32 + 1)).drop (r.1 / 32)) ++
    (List.range 8192).drop storeCw

/-- The mirror being written and its codewords that are left (R62, R472). -/
def mirrorLeft (d : Device) : Memory × List Nat :=
  if d.start.st = .build then (mirrorOf d.loader.base d.loader.ovls d.mode.taken.toNat, (List.range 8192).drop d.memory.mirrorAt)
  else if d.reload.st = 4 ∧ d.reload.written = false then
    (mirrorOf (reloadBase d) d.reload.newOvls d.mode.active.toNat, (reloadCws d).drop d.memory.mirrorAt)
  else ([], [])

/-- RELOAD_WRITE_DONE: mirror words and overlay records are written; the command stands for the grants of the codewords that are left (log entry
127). The fields come into force at the re-arm launch, issued for the first time-frame boundary at least 1 us later (R21, R22). -/
def reloadWriteDone (d : Device) : Device :=
  if d.reload.st = 4 ∧ d.reload.written = false then
    let m := mirrorOf (reloadBase d) d.reload.newOvls d.mode.active.toNat
    let store (k : Nat) : Bool := decide (storeCw ≤ k) && decide (k < 8192)
    let d := forEach (reloadRanges d d.reload.newBase (reloadRegion d)) (fun r d => memWrite r.1 (mdump m r.1 (r.2 - r.1)) d) d
    let d := d.updMem fun x => { x with
      mem := mreplace x.mem 0 0x40000 (mslice m 0 0x40000 0)
      errs := x.errs.filter fun e => !store e.1
      raised := x.raised.filter fun k => !store k
      fixing := x.fixing.filter fun k => !store k }
    let t := msBoundary (d.loc + us)
    launchAll .config t (mirrorEnds (d.updReload fun x => { x with written := true, rearmAt := t }))
  else d

/-- The region starts again: carrier reset, restart of an armed quadrant's table (R346), a source in QUAL or HOLD returns to BELOW, each channel raises a
restart request (R472, R473). -/
def reloadStart (r : Region) (d : Device) : Device :=
  let d := match r with
    | .quadrant q =>
      let d := if (d.srcs[q]).st = .qual ∨ (d.srcs[q]).st = .hold then d.updSrc q fun s => { s with st := .below, qualAt := none, lowRun := 0 } else d
      if (d.quads[q]).armed then seqStart ⟨q.1, by omega⟩ d else d
    | _ => d
  forEach ((regionChans r).filter fun c => (d.chans[c]).armed) (fun c d => shedHigh c (restartReq c d)) (carrierReset r d)

/-- The base takes the region's new words, and the reload counts as completed (R479). -/
def reloadBooked (d : Device) : Device :=
  (d.updLoader fun l => { l with base := reloadBase d, ovls := d.reload.newOvls }).updReload fun x => { x with count := satInc x.count }

/-- The region takes its new words: substitutions that include it have ended (R448). -/
def reloadTake (slots : List Slot) (r : Region) (d : Device) : Device := reloadBooked (dropSwaps slots r (dropRegion slots r d))

/-- A slot that leaves its channel, shed or not, stops; where it joins another, it enters by TRIGGER at that master's next valley (R183, R206). -/
def slotMoved (was : Device) (n : Slot) (d : Device) : Device :=
  if memberOf was n = memberOf d n ∧ chanOf was n = chanOf d n then d else slotStop n d

/-- A modulator whose role the reload changes starts afresh in the new one. -/
def modMoved (was : Device) (m : Pm) (d : Device) : Device :=
  if pmRole was m = pmRole d m then d
  else d.updMod m fun x => { x with streamAt := d.up, resAt := none, streamOk := false, same := 0, checkRun := 0, lastRaws := [] }

/-- A reloaded region changes over in its quadrant: its substitutions end, its slots and modulators leave their old places (R448, R473). `was` is the
device before the change. -/
def regionMoved (was : Device) (slots : List Slot) (r : Region) (d : Device) : Device :=
  forEach (reloadMods r) (modMoved was) (forEach (quadSlots (regionQuad r)) (slotMoved was) (dropRegion slots r d))

/-- Housekeeping's part of the change: the reloaded words and records come into force, and the region's quadrant has its part to do (R448, R473). -/
def reloadForceIn (slots : List Slot) (r : Region) (d : Device) : Device :=
  let was := d
  let d := reloadBooked (dropSwaps slots r d)
  let d := if d.reload.recheck then writeMirror d.mode.active.toNat d else d
  let d := confTake (composeMem d.loader.base d.loader.ovls d.mode.active.toNat) d
  giveWork (regionQuad r) (.rearm slots r) (confChanged was d)

/-- `RL_OBJ` with `RL_KIND`, as event 0x0708 names a region. -/
def regionWord (d : Device) : Nat := d.reload.obj.toNat + 256 * b2n d.reload.quad

/-- The re-arm launch falls at or before an instant of local time. -/
def rearmBy (d : Device) (t : Nat) : Bool := decide (d.reload.st = 4) && d.reload.written && decide (d.reload.rearmAt ≤ t)

/-- Housekeeping's part of a region re-arm. A candidate that an overlay has overtaken is checked again (R113, R474). -/
def rearmGive (d : Device) : Device :=
  let rg := reloadRegion d
  let slots := reloadSlots d d.reload.newBase rg
  let r : CheckRes := if d.reload.recheck then reloadCheck d none (reloadBase d) d.reload.newOvls slots else {}
  if r.reason ≠ 0 then giveWork (regionQuad rg) (.start rg) (writeMirror d.mode.active.toNat (reloadRefused r d))
  else
    let n := BitVec.ofNat 16 (min 65535 ((d.up - d.reload.at0) / ms))
    let d := if d.reload.recheck then setDetail 5 r d else d
    let d := giveWork (regionQuad rg) (.start rg) (reloadForceIn slots rg d)
    let d := d.updReload fun x => { x with st := 5, ms := n, newBase := [], newOvls := [] }
    alertSet 4 (logEvent 0x0708 (b2n d.reload.image) (regionWord d) n.toNat d)

/-- A re-arm whose instant has come (R24). -/
def rearmIfDue (d : Device) : Device := if rearmBy d d.loc then rearmGive d else d

def execReloadCheckDone (s : State) : Host.Outcome State Fault Refusal := done reloadCheckDone s
def execReloadStopDone (s : State) : Host.Outcome State Fault Refusal := done reloadStopDone s

end Sys2Proof.Machine
end

