-- ==== Sys2Proof/Machine/Newt.lean ====
section
/-! DEFINITION. Sys2Proof/Machine/Newt.lean: substitutions of slots and modulators, probation, calibration transfer (12, R446 to R463), and the scrubber
with row remapping (12, R466 to R470). -/

namespace Sys2Proof.Machine

/-! ### What may be replaced, and by what (R449, R450, R460, R461) -/

/-- The slot is shed and nothing replaces it. -/
def shedFor (d : Device) (c : Chan) (n : Slot) : Bool :=
  decide ((d.slots[n]).shedFrom = some c) && decide (chanOf d n = some c) && !isReplaced d n

/-- A reload holds the region of a channel (R450, R474). -/
def inReload (d : Device) (c : Chan) : Bool :=
  let r := d.reload
  decide (1 ≤ r.st.toNat ∧ r.st.toNat ≤ 4) && (if r.quad then decide ((Chan.quad c).1 = r.obj.toNat) else decide (c.1 = r.obj.toNat))

/-- Slots of a channel that Newt may replace at a halt that starts at an instant. -/
def replaceable (d : Device) (c : Chan) (start : Nat) : List Slot :=
  (quadSlots (Chan.quad c)).filter fun n => shedFor d c n && decide ((d.slots[n]).shedAt + 5 * ms ≤ start)

/-- An eligible channel (R450, R451). -/
def eligible (d : Device) (start : Nat) (c : Chan) : Bool :=
  (d.chans[c]).armed && decide (replaceable d c start ≠ []) && !inReload d c &&
    !(allSlots.any fun n => (d.slots[n]).newtRefused && decide (chanOf d n = some c)) &&
    !(d.memory.swaps.any fun w => !w.modulator && decide (w.ch = c.1))

/-- A usable spare slot (R449), not yet granted. -/
def usableSlot (d : Device) (n : Slot) : Bool :=
  let s := d.slots[n]
  (d.quads[Slot.quad n]).armed && isSpareSlot d n && s.repl.isNone && !s.bad && !s.dflt && decide (s.holders = []) &&
    decide ((d.therm[Fin.ofNat 172 n.1]).tj < tDr d n.1) && !(d.memory.swaps.any fun w => !w.modulator && decide (w.s = n.1))

def usableSlots (d : Device) (q : Quad) : List Slot := (quadSlots q).filter (usableSlot d)

/-- A usable spare modulator (R460), not yet granted. -/
def usableMod (d : Device) (m : Pm) : Bool :=
  let s := d.mods[m]
  decide (20 ≤ Pm.pos m) && s.acting.isNone && !s.bad && !s.failed && !(d.memory.swaps.any fun w => w.modulator && decide (w.s = m.1))

def usableMods (d : Device) (q : Quad) : List Pm := (quadMods q).filter (usableMod d)

/-- A failed modulator of position 0 to 19 whose role no working spare carries (R460, R461). -/
def needsSpare (d : Device) (m : Pm) : Bool :=
  decide (Pm.pos m < 20) && (d.quads[Pm.quad m]).armed && (d.mods[m]).failed && decide (pmRole d m ≠ 0) &&
    !(quadMods (Pm.quad m)).any (fun s => decide ((d.mods[s]).acting = some m) && !(d.mods[s]).failed) &&
    !(d.memory.swaps.any fun w => w.modulator && decide (w.f = m.1))

/-- Arbiters of the spare slots and the spare modulators of a quadrant (R27). -/
def slotArb (q : Quad) : Fin 99 := ⟨q.1, by omega⟩
def modArb (q : Quad) : Fin 99 := ⟨4 + q.1, by omega⟩

/-- The coming halt is at most 5 ms away: spares are granted (R450, R460). -/
def newtOpen (d : Device) : Bool :=
  match d.halt.next, d.halt.cur with
  | some h, _ => decide (h.start * tick ≤ d.loc + 5 * ms ∧ d.loc < h.start * tick)
  | none, some h => decide (h.start * tick ≤ d.loc + 5 * ms ∧ d.loc < h.start * tick)
  | _, _ => false

/-- An eligible channel whose request finds no usable spare says so, once for a request (R453). -/
def slotsOut (start : Nat) (c : Chan) (d : Device) : Device :=
  if eligible d start c ∧ usableSlots d (Chan.quad c) = [] ∧ (d.chans[c]).noSpare = false then
    raise (0x3C0 + c.1) (d.updChan c fun s => { s with noSpare := true })
  else d

/-- The same for a failure that finds no usable spare modulator (R461). -/
def modsOut (m : Pm) (d : Device) : Device :=
  if needsSpare d m ∧ usableMods d (Pm.quad m) = [] ∧ (d.mods[m]).noSpare = false then
    raise (0x580 + (Pm.quad m).1) (d.updMod m fun s => { s with noSpare := true })
  else d

/-- NEWT_REQUEST for one channel and one modulator. -/
def requestSlot (start : Nat) (c : Chan) (d : Device) : Device :=
  let a := slotArb (Chan.quad c)
  if eligible d start c then slotsOut start c (arbRequest a (c.1 % 8) d)
  else arbWithdraw a (c.1 % 8) (d.updChan c fun s => { s with noSpare := false })

def requestMod (m : Pm) (d : Device) : Device :=
  let a := modArb (Pm.quad m)
  if needsSpare d m then modsOut m (arbRequest a (Pm.pos m) d)
  else arbWithdraw a (Pm.pos m) (d.updMod m fun s => { s with noSpare := false })

/-- NEWT_REQUEST: 5 ms before the quiet window. Requests that no longer hold are withdrawn. -/
def newtRequest (d : Device) : Device :=
  match d.halt.next with
  | some h =>
    if d.start.st = .run then
      let d := waitLoc (h.start * tick - 5 * ms) d
      forEach (allMods.filter fun m => decide (Pm.pos m < 20)) requestMod (forEach allChans (requestSlot (h.start * tick)) d)
    else d
  | none => d

/-! ### Calibration transfer (R462, R463) -/

/-- Tracking samples held by a spare of a position: x in 1/8 code, y in codes; those of a lost codeword are discarded (R468). -/
def trackSamples (d : Device) (s : Pm) (i : Nat) : List (Qty × Qty) :=
  (List.range (min 8 (trackCount (d.mods[s]) i))).filterMap fun j =>
    let a := trackAddr (spareNo s) i j
    if cwBad d (a / 32) ∨ (i, j) ∈ (d.mods[s]).trackLost then none
    else some ((signedOf (mword d.memory.mem a) 32 : Qty) / 8, (signedOf (mword d.memory.mem (a + 4)) 32 : Qty))

/-- The samples allow a gain fit: at least two, over 5 % of full scale. -/
def gainFits (l : List (Qty × Qty)) : Bool :=
  match l with
  | [] => false
  | p :: t => decide (8388608 / 20 ≤ t.foldl (fun x y => max x y.1) p.1 - t.foldl (fun x y => min x y.1) p.1)

/-- Slope and offset by least squares. -/
def leastSquares (l : List (Qty × Qty)) : Qty × Qty :=
  let n : Qty := (l.length : Qty)
  let sx := (l.map (·.1)).sum
  let sy := (l.map (·.2)).sum
  let a := qdiv (n * (l.map fun p => p.1 * p.2).sum - sx * sy) (n * (l.map fun p => p.1 * p.1).sum - sx * sx)
  (a, qdiv (sy - a * sx) n)

/-- a, b and `XF_KIND` of a spare for a position; none where the spare's record stands as it is. -/
def transferFit (d : Device) (s : Pm) (i : Nat) : Option (Qty × Qty) × Nat :=
  let p : Pm := Fin.ofNat 88 (22 * (Pm.quad s).1 + i)
  let l := trackSamples d s i
  if pmRole d p = 6 then (some (1, 0), 4)
  else if gainFits l then (some (leastSquares l), 1)
  else if l ≠ [] then (some (1, qdiv ((l.map fun p => p.2 - p.1).sum) (l.length : Qty)), 2)
  else if calKind d s = 2 then (none, 3)
  else (some (1, 0), 4)

/-- The spare's CALIB record and `XF_KIND` for the modulator it is to replace. -/
def transfer (s p : Pm) (d : Device) : Device :=
  let x := transferFit d s (Pm.pos p)
  let d := d.updQuad (Pm.quad s) fun q => if Pm.pos s = 20 then { q with xf20 := BitVec.ofNat 3 x.2 } else { q with xf21 := BitVec.ofNat 3 x.2 }
  match x.1 with
  | none => calPending d
  | some (a, b) =>
    let gp : Qty := if calibrated d p then (calGain d p : Qty) else 2 ^ 30
    let op : Qty := if calibrated d p then (calOfs d p : Qty) else 0
    let bs := leBytes 4 (enc32 (qRound (256 * b + a * op))) ++ leBytes 4 (enc32 (qRound (qdiv gp a))) ++ leBytes 4 2 ++
      leBytes 4 d.halt.last.toNat ++ leBytes 8 d.ticks ++ leBytes 8 0
    calWrite s bs d

/-! ### Grants (R450, R460) -/

/-- The first usable spare goes to a channel's lowest shed slot. -/
def grantSlot (q : Quad) (k : Nat) (d : Device) : Device :=
  let c : Chan := ⟨8 * q.1 + k % 8, by have := q.2; omega⟩
  match d.halt.next.toList ++ d.halt.cur.toList with
  | h :: _ =>
    match usableSlots d q, replaceable d c (h.start * tick) with
    | s :: _, f :: _ =>
      let d := (d.updMem fun m => { m with swaps := m.swaps ++ [⟨false, f.1, s.1, c.1, none⟩] }).updChan c fun s => { s with noSpare := false }
      forEach ((quadChans q).filter fun j => decide (((d.arbs[slotArb q]).pending.map (·.1)).contains (j.1 % 8))) (slotsOut (h.start * tick)) d
    | _, _ => d
  | [] => d

/-- Of two usable spares the one with a gain fit for the position, otherwise the lower-numbered one; its CALIB record is written (R463). The
samples are read from memory first (R466). -/
def grantMod (q : Quad) (i : Nat) (d : Device) : Device :=
  let l := usableMods d q
  let p : Pm := Fin.ofNat 88 (22 * q.1 + i)
  let d := forEach l (fun s => cwReads (trackAddr (spareNo s) i 0) 64) d
  match (l.find? fun s => gainFits (trackSamples d s i)).or l.head? with
  | some s =>
    let d := (d.updMem fun m => { m with swaps := m.swaps ++ [⟨true, p.1, s.1, 0, none⟩] }).updMod p fun x => { x with noSpare := false }
    let d := transfer s p d
    forEach ((quadMods q).filter fun m => decide (((d.arbs[modArb q]).pending.map (·.1)).contains (Pm.pos m))) modsOut d
  | none => d

/-! ### Check and launch (R446, R447, R451) -/

/-- A substitution enters the table. -/
def placeSwap (w : Swap) (d : Device) : Device :=
  if w.modulator then
    let f : Pm := Fin.ofNat 88 w.f
    { d with mods := mapAll d.mods fun m s => if m.1 = w.s then { s with acting := some f } else if s.acting = some f then { s with acting := none } else s }
  else d.updSlot (Fin.ofNat 136 w.s) fun s => { s with repl := some (Fin.ofNat 136 w.f), forCh := some (Fin.ofNat 32 w.ch) }

/-- The coming halt. -/
def comingHalt (d : Device) : Option HaltSched := match d.halt.next with | some h => some h | none => d.halt.cur

/-- Overlay that will be in force at the quiet-window start of the coming halt (R113). -/
def comingOvl (d : Device) : Nat :=
  let no : Option Word := (comingHalt d).map (·.no)
  let own : Nat := match d.mode.localNext with | some (v, _) => v.toNat | none => d.mode.active.toNat
  match d.mode.commit with
  | some (v, h) => if some h = no ∧ d.mode.answer = some (v, true) then v.toNat else own
  | none => own

/-- The device as a region re-arm leaves it that is launched before the coming halt or at it (R113). -/
def comingDev (d : Device) : Device :=
  match comingHalt d with
  | some h => if rearmBy d (h.start * tick) then reloadTake (reloadSlots d d.reload.newBase (reloadRegion d)) (reloadRegion d) d else d
  | none => d

/-- The check of a substitution with those accepted before it, under an overlay. -/
def swapCheck (d : Device) (ovl : Nat) (w : Swap) : CheckRes :=
  let x := placeSwap w ((d.memory.swaps.filter fun y => y.ovl.isSome && decide (y ≠ w)).foldl (fun d y => placeSwap y d) d)
  checkAll (structOf d) d.loader.base d.loader.ovls ovl x (armedCh d) (armedQd d)

/-- A refused substitution: the spare is free again; event 0x0704 and `NEWT_REFUSED` for a channel (R451). -/
def swapRefused (r : CheckRes) (w : Swap) (d : Device) : Device :=
  let d := d.updMem fun m => { m with swaps := m.swaps.filter fun y => decide (y ≠ w) }
  if w.modulator then d
  else
    let d := logEvent 0x0704 (w.s + 256 * w.ch + 65536 * r.reason) 0 0 d
    { d with slots := mapAll d.slots fun n s => if chanOf d n = some (Fin.ofNat 32 w.ch) then { s with newtRefused := true } else s }

/-- Overlay and count of reloads by which a checked candidate is known. -/
def confKey (x : Device) (ovl : Nat) : Nat × Nat := (ovl, x.reload.count.toNat)

/-- A substitution is checked on a candidate under an overlay, with its record of the check (R116, R119). -/
def swapJudge (x : Device) (ovl : Nat) (w : Swap) (d : Device) : Device :=
  let r := swapCheck x ovl w
  let d := refusedInRun 4 r (setDetail 4 r d)
  if r.reason = 0 then d.updMem fun m => { m with swaps := m.swaps.map fun y => if y = w then { y with ovl := some (confKey x ovl) } else y }
  else swapRefused r w d

/-- SWAP_CHECK_DONE: the oldest granted substitution that is not yet checked. -/
def swapCheckDone (d : Device) : Device :=
  match d.memory.swaps.find? fun w => w.ovl.isNone with
  | some w => swapJudge (comingDev d) (comingOvl d) w d
  | none => d

/-- Launch of a slot: the spare becomes a tadpole (R451, R452); the slot it replaces is idle (R206, R446). A spare whose driver fault stands is shed at
once (R235). -/
def launchSlot (w : Swap) (d : Device) : Device :=
  let s : Slot := Fin.ofNat 136 w.s
  let d := slotStop (Fin.ofNat 136 w.f) d
  let d := (placeSwap w d).updSlot s fun x => { x with
    probHalts := 0, probPass := 0, probEvals := 0, failRun := 0, probLong := false, probLastFail := false }
  let d := d.updSlot s fun x => { x with tadpole := true, promoted := false, promoteNext := false, shedFrom := none, evRun := 0, ipkUpd := 0 }
  let d := quadEvent (Slot.quad s) 0x0701 (w.s + 256 * w.ch + 65536 * w.f) 0 0 d
  if (d.slots[s]).dflt then shed 4 (Fin.ofNat 32 w.ch) s d else d

/-- Launch of a modulator: the spare takes the role, the failed one and a failed earlier spare are marked bad (R460, R461). -/
def launchMod (w : Swap) (d : Device) : Device :=
  let s : Pm := Fin.ofNat 88 w.s
  let f : Pm := Fin.ofNat 88 w.f
  let q := Pm.quad s
  let old := quadMods q |>.filter fun m => decide (m = f) || decide ((d.mods[m]).acting = some f)
  let d := forEach old (fun m d => (arbWithdraw (mport m) 1 d).updMod m fun x => { x with bad := true, degraded := false }) (placeSwap w d)
  let d := (arbWithdraw (mport s) 8 d).updMod s fun x => { x with
    streamAt := d.up, resAt := none, streamOk := false, same := 0, checkRun := 0, disagreed := false, tapWrong := 0, tapBad := false, injNewt := none, lastRaws := [] }
  let d := if roleEff d s = 6 ∧ d.hk.pos[q] < 15 then arbRequest (mport s) 1 d else d
  let xf := if Pm.pos s = 20 then (d.quads[q]).xf20 else (d.quads[q]).xf21
  quadEvent q 0x0705 (w.s + 256 * w.f + 65536 * xf.toNat) (calGain d s) 0 d

/-- Launch of a promotion (R456). -/
def promote (n : Slot) (d : Device) : Device :=
  let s := d.slots[n]
  match s.forCh with
  | some c =>
    if s.promoteNext ∧ s.tadpole then
      let d := d.updSlot n fun s => { s with tadpole := false, promoted := true, promoteNext := false }
      quadEvent (Slot.quad n) 0x0702 (n.1 + 256 * c.1 + 65536 * s.probPass) 0 0 d
    else d
  | none => d

/-- The device as its quadrants will stand when they have performed the re-arm that is their part. -/
def workDev (d : Device) : Device :=
  forEach (allQuads.flatMap fun q => d.isl.work[q]) (fun w d => match w with | .rearm slots r => dropRegion slots r d | _ => d) d

/-- A substitution checked against another overlay or other regions than those in force is checked again (R113). -/
def swapRecheck (w : Swap) (d : Device) : Device :=
  if w.ovl = some (confKey d d.mode.active.toNat) then d else swapJudge (workDev d) d.mode.active.toNat w d

def launchSwap (w : Swap) (d : Device) : Device := if w.modulator then launchMod w d else launchSlot w d

/-- Quadrant of a substitution. -/
def swapQuad (w : Swap) : Quad := if w.modulator then Pm.quad (Fin.ofNat 88 w.s) else Slot.quad (Fin.ofNat 136 w.s)

/-- Newt's part of the configuration launch of a halt: promotions, then the substitutions checked, are the quadrants' to perform. -/
def newtLaunch (d : Device) : Device :=
  let d := forEach (allSlots.filter fun n => (d.slots[n]).promoteNext) (fun n => giveWork (Slot.quad n) (.promote n)) d
  let d := forEach (d.memory.swaps.filter fun w => w.ovl.isSome) swapRecheck d
  let ws := d.memory.swaps.filter fun w => w.ovl.isSome
  forEach ws (fun w => giveWork (swapQuad w) (.swap w)) (d.updMem fun m => { m with swaps := [] })

/-! ### What a configuration launch does in a quadrant (R21, R24, R25) -/

/-- One piece of it. `was` is the device before the launch. -/
def doWork (was : Device) (w : QuadWork) (d : Device) : Device :=
  match w with
  | .promote n => promote n d
  | .swap w => launchSwap w d
  | .rearm slots r => regionMoved was slots r d
  | .start r => reloadStart r d

def QuadWork.isStart : QuadWork → Bool
  | .start _ => true
  | _ => false

/-- A quadrant performs what it has been given: changes of the configuration first, then the carrier reset of a re-armed region (R24). -/
def quadWork (was : Device) (q : Quad) (d : Device) : Device :=
  let l := d.isl.work[q]
  forEach (l.filter (fun w => !w.isStart) ++ l.filter QuadWork.isStart) (doWork was) (d.updIsl fun x => { x with work := upd x.work q fun _ => [] })

/-- The quadrants that take a configuration change with housekeeping perform their part now; those that have been ahead of it have performed theirs. -/
def quadsWork (was : Device) (d : Device) : Device :=
  let ahead := d.isl.ahead
  let d := forEach (allQuads.filter fun q => decide (q ∉ confLags d)) (quadWork was) d
  d.updIsl fun x => { x with work := mapAll x.work fun q l => if ahead[q] then [] else l, ahead := Vector.replicate 4 false }

/-- RELOAD_REARM_LAUNCH with no launch held: the first time-frame boundary at least 1 us after the write. -/
def reloadRearm (d : Device) : Device :=
  if d.reload.st = 4 ∧ d.reload.written then
    let d := waitLoc d.reload.rearmAt d
    quadsWork d (rearmGive d)
  else d

/-! ### Probation (R454 to R456) -/

/-- Mean over the full members; with none the manual states no value. -/
def freeMean (l : List Qty) : Qty := if l = [] then Config.freeQty 1 else meanQ l

/-- First test of R454 that a tadpole fails, 0 if it passes. -/
def tadpoleTest (d : Device) (c : Chan) (n : Slot) : Nat :=
  let s := d.slots[n]
  let full := (members d c).filter fun j => !(d.slots[j]).tadpole
  let mean := freeMean (full.map fun j => (d.slots[j]).ipkAvg)
  let rise (j : Slot) : Qty := (d.therm[Fin.ofNat 172 j.1]).tj - (d.therm[Fin.ofNat 172 j.1]).tcool
  let tj := (d.therm[Fin.ofNat 172 n.1]).tj
  let top : Qty := match full.map rise with | [] => Config.freeQty 2 | x :: l => l.foldl max x
  if ¬ |s.ipkAvg - (mean - max 0 ((d.chans[c]).ipk - foldCapIn d c / 2))| ≤ mean / 10 + 1 then 1
  else if s.capLast = false ∧ ¬ |(s.balErr : Qty)| ≤ 64 / 100 * ((d.chans[c]).m : Qty) then 2
  else if rise n ≤ top + 5 ∧ tj < tDr d n.1 then 0 else 3

/-- Evaluation of one tadpole at the ramp-down start of a halt. -/
def tadpoleHalt (n : Slot) (d : Device) : Device :=
  match (d.slots[n]).forCh with
  | some c =>
    if (d.slots[n]).tadpole then
      let ev := decide ((d.chans[c]).st = .regulate) && !halvedIn d c && decide (256 ≤ (d.slots[n]).ipkUpd)
      let t := if ev then tadpoleTest d c n else 0
      let d := d.updSlot n fun s => { s with
        probHalts := s.probHalts + 1
        probEvals := if ev then s.probEvals + 1 else s.probEvals
        probPass := if ev ∧ t = 0 then s.probPass + 1 else s.probPass
        failRun := if ev then (if t = 0 then 0 else s.failRun + 1) else s.failRun
        probLastFail := if ev then decide (t ≠ 0) else s.probLastFail }
      if 2 ≤ (d.slots[n]).failRun then shed t c n d
      else d.updSlot n fun s =>
        let go := decide (16 ≤ s.probHalts) && decide (4 ≤ s.probPass) && !s.probLastFail
        { s with promoteNext := go, probLong := s.probLong || (decide (64 ≤ s.probHalts) && !go) }
    else d
  | none => d

/-- Every tadpole is evaluated, and the updates of `IPK_AVG` are counted afresh. -/
def probation (d : Device) : Device :=
  let d := forEach allSlots tadpoleHalt d
  { d with slots := d.slots.map fun (s : SlotSt) => { s with ipkUpd := 0 } }

/-! ### The scrubber (R466 to R470) -/

/-- Interval of the scrubber, 1.831 ms. -/
def scrubTime : Nat := 732400

/-- SCRUB_STEP: the next codeword is read; `upsets` of its symbols have been upset since the last read. -/
def scrubStep (upsets : Fin 36) (d : Device) : Device :=
  if d.start.st = .reset ∨ d.start.st = .init then d
  else
    let d := nextMultiple 5 scrubTime d
    let k := d.memory.scrubAt.1
    let e := cwErrs d k
    let d := if upsets = 0 then d else d.updMem fun m => { m with errs := (k, (e.1, e.2 + upsets.1)) :: m.errs.filter fun x => decide (x.1 ≠ k) }
    let d := d.updMem fun m => { m with
      scrubAt := m.scrubAt + 1
      scrubPass := if k = 32767 then m.scrubPass + 1 else m.scrubPass }
    cwDecode true k d

/-- The scrubber's write-back of a corrected codeword, when the port is granted to it (R466, R468). -/
def writeBack (d : Device) : Device :=
  match d.memory.fixing with
  | [] => d
  | k :: rest =>
    let d := d.updMem fun m => { m with fixing := rest, errs := if cwBad d k then m.errs else m.errs.filter fun x => decide (x.1 ≠ k) }
    if rest = [] then d else arbRequest wport 0 d

/-- The row, as the controller addresses it, that stands in a row of a bank (R469). -/
def logicalRow (d : Device) (b r : Nat) : Nat :=
  match d.memory.remap.find? fun x => decide (x.1 = b) && decide (x.2.2 = r) with | some x => x.2.1 | none => r

/-- One codeword of a row copy, when the port is granted to it: it is read (R466), corrected, and written to the spare row (R469). -/
def rowCopy (d : Device) : Device :=
  match d.memory.copying with
  | (b, r, _) :: _ =>
    let k := 4096 * b + 8 * logicalRow d b r + d.memory.copied
    let d := (cwRead k d).updMem fun m => { m with copied := m.copied + 1 }
    if d.memory.copied < 8 then arbRequest wport 1 d else d
  | [] => d

/-- ROW_REMAP_DONE: all eight codewords are copied, corrected; the row's address is redirected. -/
def rowRemapDone (d : Device) : Device :=
  match d.memory.copying with
  | (b, r, sp) :: rest =>
    if 8 ≤ d.memory.copied then
      let logical := logicalRow d b r
      let mine (k : Nat) : Bool := decide (k / 4096 = b) && decide (k % 4096 / 8 = logical)
      let one := (d.memory.errs.filter fun e => mine e.1 && decide (e.2.1 + e.2.2 ≤ 1)).map (·.1)
      let d := d.updMem fun m => { m with
        remap := (b, logical, sp) :: m.remap.filter fun x => !(decide (x.1 = b) && decide (x.2.1 = logical))
        errs := m.errs.filter fun e => !one.contains e.1
        fixing := m.fixing.filter fun k => !one.contains k
        rowCorr := m.rowCorr.filter fun x => decide (x.1 ≠ (b, r))
        copying := rest, copied := 0 }
      let d := if rest = [] then d else arbRequest wport 1 d
      logEvent 0x0706 b r sp d
    else d
  | [] => d

/-- CORRECTION_WINDOW_EXPIRY: 24 h after a row's first correction its count ends. -/
def correctionExpiry (b : Fin 8) (r : Fin 576) (d : Device) : Device :=
  match d.memory.rowCorr.find? (·.1 = (b.1, r.1)) with
  | some x => (waitUp (x.2.2 + day) d).updMem fun m => { m with rowCorr := m.rowCorr.filter fun x => decide (x.1 ≠ (b.1, r.1)) }
  | none => d

def execSwapCheckDone (s : State) : Host.Outcome State Fault Refusal := done swapCheckDone s
def execRowRemapDone (s : State) : Host.Outcome State Fault Refusal := done rowRemapDone s

end Sys2Proof.Machine
end

