-- ==== Sys2Proof/Machine/Halt.lean ====
section
/-! DEFINITION. Sys2Proof/Machine/Halt.lean: halts (04, R153 to R161; 05 to 09 and 12 for what a halt does). -/

namespace Sys2Proof.Machine

/-! ### Schedule (R142, R153 to R155) -/

/-- The device takes its halts from the caravan's time source. -/
def followsHalts (d : Device) : Bool :=
  decide (d.start.st = .run) && !d.cvn.source && !isAlone d && (d.cvn.member || decide (d.cvn.role = .returning))

/-- Ranges of R154. -/
def haltFieldsOk (w p : Nat) : Bool := decide (100 ≤ w ∧ w ≤ 2000 ∧ 100 ≤ p ∧ p ≤ 60000 ∧ 20 * w ≤ 100 * p)

def frameErr (d : Device) : Device := d.updCvn fun c => { c with frameErrs := satInc c.frameErrs }

/-- A HALT frame is accepted: its W and P are the device's from now on (R154, R161). It takes the place of any other coming halt. -/
def haltTake (s : HaltSched) (d : Device) : Device :=
  ((announce s (dropHalt d)).updHalt fun h => { h with accepted := true, lastQlen := s.qlen, lastPeriod := s.period }).updCvn fun c =>
    { c with newBase := false }

/-- The device does not take HALT frames: it runs on prediction (R142). -/
def predicts (d : Device) : Bool := decide (d.cvn.timeState ≠ .track) && d.halt.accepted

/-- HALT_FRAME_RECEIVE (R154). A device that runs alone ignores it (R151). One that has lost alignment runs on prediction (R142) and takes none, but
counts a number that does not follow. -/
def haltFrameReceive (f : FrameRx) (d : Device) : Device :=
  let d := forward f f.bytes d
  if d.start.st = .reset ∨ d.start.st = .init then d
  else match framePayload 2 16 0 f.bytes with
  | none => frameErr d
  | some (p, _) =>
    let no := BitVec.ofNat 32 (fld p 0 4)
    let w := fld p 12 2
    let per := fld p 14 2
    if followsHalts d = false then d
    else if haltFieldsOk w per = false then frameErr d
    else if d.cvn.newBase then if predicts d then d else haltTake ⟨no, fld p 4 8, w, per, false⟩ d
    else if d.halt.next.map (·.no) = some no ∨ (d.halt.ran ∧ no = d.halt.refNo) then d
    else if d.halt.ran = false ∨ follows32 d.halt.refNo.toNat no.toNat then
      if predicts d then d else haltTake ⟨no, fld p 4 8, w, per, false⟩ d
    else frameErr d

/-- Predicted quiet-window start of the next halt, in ticks, counted from the last start as it was announced or run (log entry 130). -/
def predictedStart (d : Device) : Nat := d.halt.lastStart + d.halt.lastPeriod * 10000

/-- A halt is not run: it is counted, the tables that booked it move on, and a COMMIT held for it has lapsed (R103, R154, R155, R343). -/
def haltSkip (no : Word) (start : Nat) (d : Device) : Device :=
  commitLapse no (hlSkip no (start * tick + haltW d) (hlRebook no start (d.updHalt fun h => { h with
    skipped := satInc h.skipped, refNo := no, lastStart := start })))

/-- HALT_PREDICT (R155). A member that has accepted no HALT frame knows no instant: the skipped halt is counted at once (log entry 156). -/
def haltPredict (d : Device) : Device :=
  if followsHalts d ∧ d.halt.next.isNone ∧ d.halt.cur.isNone then
    let no := d.halt.refNo + 1
    if d.halt.accepted then
      let t := predictedStart d
      let d := waitLoc (t * tick - 4 * ms) d
      announce ⟨no, t, d.halt.lastQlen, d.halt.lastPeriod, true⟩ d
    else haltSkip no d.ticks d
  else d

/-! ### Ramp (R156, R158) -/

/-- Ramp length requested, in units of 10 us. -/
def rampUnits (d : Device) : Nat :=
  let adm := allSrcs.filter fun k => decide ((d.srcs[k]).st = .admitted)
  if adm = [] then 25 else max 25 (qdiv (max 0 (iChg d)) (minQ (adm.map (gDidt d))) / 10).ceil.toNat

/-- The halt after h on the device's own schedule (R153). -/
def haltAfter (h : HaltSched) (d : Device) : Option HaltSched :=
  if d.cvn.source ∨ isAlone d then some ⟨h.no + 1, h.start + h.period * 10000, (haltCfg d).2, (haltCfg d).1, false⟩ else none

/-- The launches of a halt are issued to the islands (R21, R22, R156): its configuration change and its start, the conversion start, the carrier reset
and its end. -/
def haltLaunches (h : HaltSched) (d : Device) : Device :=
  let a := h.start * tick
  let w := a + h.qlen * (10 * us)
  launchAll .quietEnd w (launchAll (.carrierReset .device) w (launchAll .convStart (a + settle h.qlen) (launchAll .quietStart a (launchAll .config a d))))

/-- HALT_RAMP_FIX: 3 ms before the quiet window. A halt accepted less than 1 ms before the ramp-down is skipped (R154). -/
def haltRampFix (d : Device) : Device :=
  match d.halt.next with
  | some h =>
    if d.start.st = .run ∧ d.halt.cur.isNone then
      let d := waitLoc (h.start * tick - 3 * ms) d
      let u := rampUnits d
      let t := min u 200
      let next := haltAfter h d
      let late := decide (h.start * tick - t * (10 * us) - ms < d.halt.nextAt) && next.isNone && !h.predicted
      let d := d.updHalt fun x => { x with
        tr := t, trFixed := true, capped := decide (200 < u), refNo := h.no, lastStart := h.start, lastQlen := h.qlen, lastPeriod := h.period
        next := none, nextAt := d.loc }
      let d := match next with | some k => announce k d | none => d
      let d := if 200 < u then logEvent 0x0304 (10 * u) 0 0 d else d
      if late then
        commitLapse h.no (hlSkip h.no (h.start * tick + h.qlen * (10 * us)) (d.updHalt fun x => { x with skipped := satInc x.skipped, trFixed := false }))
      else haltLaunches h (d.updHalt fun x => { x with cur := some h, snapped := false, converted := false })
    else d
  | none => d

/-- HALT_RAMP_DOWN: at -t_r the ramp-down begins and Newt evaluates tadpoles (R156, R454). -/
def haltRampDown (d : Device) : Device :=
  match d.halt.cur with
  | some h =>
    if d.start.st = .run ∧ d.halt.trFixed ∧ (d.halt.phase = .idle ∨ d.halt.phase = .rampUp) then
      let d := waitLoc (h.start * tick - trSub d) d
      probation (d.updHalt fun x => { x with phase := .rampDown, phaseAt := d.loc })
    else d
  | none => d

/-! ### Quiet window -/

/-- `HALT_FLAGS` (R160). A late launch marks the records of its island alone (R25). -/
def haltFlags (d : Device) (h : HaltSched) : BitVec 8 :=
  let un := decide (d.cvn.timeState ≠ .track) || isAlone d || d.cvn.posUnknown || eLarge d.cvn.timeErr
  BitVec.ofNat 8 (b2n un + 2 * b2n h.predicted + 4 * b2n (isAlone d) + 8 * b2n (if d.cvn.source then decide (d.cvn.role = .acting) else d.cvn.srcActing) +
    16 * b2n d.halt.capped + 32 * b2n (d.cvn.holdover || d.cvn.onOwn))

/-- Charge snapshot of a channel; the interval up to the first result after the quiet window is to be filled (R268, R269). -/
def chargeSnapshot (c : Chan) (d : Device) : Device :=
  d.updProf c fun p => { p with
    snapIn := BitVec.ofNat 64 (p.qIn / 65536), snapOut := BitVec.ofNat 64 (p.qOut / 65536), snapPhase := p.phase, gapFrom := some d.up }

def softStopEnd (c : Chan) (d : Device) : Device := if (d.chans[c]).st = .stop then stopEnds c d else d

/-- The state of a path switch at the quiet-window start is held for the cross-check (R458). -/
def pathMark (c : Chan) (d : Device) : Device := d.updPath c fun p => { p with atQuiet := p.st }

/-- A quadrant's part of the quiet-window start: every phase stops, gates close, a soft stop ends, the charge counts are held for the halt record
(R156, R178, R230, R269). Y goes low with X there, whatever crossing or Y-off instant it waits for (DEDUCED, log entry 180). -/
def quietStopQuad (q : Quad) (d : Device) : Device :=
  forEach (quadChans q) pathMark (forEach (quadChans q) chargeSnapshot (forEach (quadChans q) softStopEnd (forEach (quadChans q) regate
    (forEach (quadSlots q) slotOff d))))

/-- A halt may start. -/
def quietReady (d : Device) : Bool := d.halt.cur.isSome && decide (d.start.st = .run) && decide (d.halt.phase = .rampDown)

/-- The configuration launch of a halt: its overlay change, a region re-arm that is due, and Newt's substitutions (R24, R101). -/
def haltGive (h : HaltSched) (d : Device) : Device := newtLaunch (rearmIfDue (overlayAtHalt h.no d))

/-- The same with the quadrants' part, in those that take it now. -/
def haltConfig (h : HaltSched) (d : Device) : Device := quadsWork d (haltGive h d)

/-- Housekeeping's part of the quiet-window start of halt h: a configuration change not yet performed first, then the halt itself (R24, R101,
R156). -/
def quietBegin (h : HaltSched) (d : Device) : Device :=
  let fl := haltFlags d h
  let d := haltConfig h d
  d.updHalt fun x => { x with
    phase := .quiet, phaseAt := d.loc, last := h.no, ran := true, flags := fl, lateCur := x.lateNext, lateNext := Vector.replicate 5 false
    predicted := if h.predicted then satInc x.predicted else x.predicted }

/-- QUIET_WINDOW_START with no launch held: every island performs it at its instant. -/
def quietStart (d : Device) : Device :=
  match d.halt.cur with
  | some h =>
    if quietReady d then forEach allQuads quietStopQuad (quietBegin h (waitLoc (h.start * tick) d)) else d
  | none => d

/-- The readback of a quadrant is requested of its HKSW modulator as part of the housekeeping round's requester (R202, R459); a quadrant that is not armed has
none (DEDUCED, log entry 181). -/
def readbackRequest (q : Quad) (d : Device) : Device :=
  match hkswOf d q with
  | some m =>
    if (d.quads[q]).armed ∧ (d.mods[m]).failed = false then
      arbRequest (mport m) 1 (d.updQuad q fun s => { s with rbBusy := true, rbLeft := 4 })
    else d
  | none => d

/-- Housekeeping's part of the conversion start. -/
def convMark (d : Device) : Device := d.updHalt fun x => { x with converted := true }

/-- HALT_CONVERSION_START: S after the quiet-window start every modulator converts (R156, R338). -/
def conversionStart (d : Device) : Device :=
  match d.halt.cur with
  | some h =>
    if d.halt.phase = .quiet ∧ d.halt.converted = false then
      let d := waitLoc (h.start * tick + settle h.qlen) d
      forEach allQuads readbackRequest (convMark d)
    else d
  | none => d

def readbackClose (m : Pm) (d : Device) : Device :=
  if readbackOpen d m then arbRelease (mport m) 1 (d.updMod m fun s => { s with conv := none }) else d

/-- A readback test that did not fit waits for the next halt (R202); the housekeeping round goes on. -/
def readbackEnd (q : Quad) (d : Device) : Device :=
  match hkswOf d q with
  | some m =>
    let d1 := readbackClose m (d.updQuad q fun s => { s with rbBusy := false })
    if 15 ≤ d.hk.pos[q] then arbWithdraw (mport m) 1 d1 else if readbackOpen d m then arbRequest (mport m) 1 d1 else d1
  | none => d.updQuad q fun s => { s with rbBusy := false }

/-- A tracking sample that did not fit is not taken (R462). -/
def trackEnd (m : Pm) (d : Device) : Device :=
  if (d.mods[m]).injNewt.isSome then
    let d := arbRelease (mport m) 8 (arbWithdraw (mport m) 8 d)
    injEnd m (d.updMod m fun s => { s with injNewt := none, conv := match s.conv with | some v => if v.req = 8 then none else some v | none => none })
  else d

/-- n of R127, in sub-ticks, for the time source that the device hears: itself, where it is the time source. -/
def loadDelay (d : Device) : Nat :=
  let n := if d.cvn.source then ringDelta (ownId d) (decide (d.cvn.role = .acting)) d else ringDelta d.cvn.srcId.toNat d.cvn.srcActing d
  (qRound ((n : Qty) / 25)).toNat

/-- The endpoint sends the compensated time of the next frame to the quadrants found wrong (R127, R128). -/
def quadReload (d : Device) : Device :=
  let n := loadDelay d
  let d := forEach (allQuads.filter fun q => d.clk.qreload[q]) (fun q d => send (.toQd q) (.timeLoad n) d) d
  { d with clk := { d.clk with qreload := Vector.replicate 4 false } }

/-- The step of local time that ends STEP_WAIT moves the start of the ramp-up with it (R141). -/
def quietStep (d : Device) : Device :=
  if d.cvn.timeState = .stepWait then
    let x := timeStep d
    x.updHalt fun h => { h with phaseAt := ((h.phaseAt : Int) + x.loc - d.loc).toNat }
  else d

/-- A quadrant's part of the quiet-window end: gates open again; conversions that did not fit end. -/
def quietEndQuad (q : Quad) (d : Device) : Device := forEach (quadChans q) regate (forEach (quadMods q) trackEnd (readbackEnd q d))

/-- Housekeeping's part of the quiet-window end of halt h: ramp-up begins and the tables that booked it move on (R156, R343). -/
def quietFinish (h : HaltSched) (d : Device) : Device :=
  hlSettle h.no (d.updHalt fun x => { x with phase := .rampUp, phaseAt := d.loc, snapped := true, cur := none })

/-- QUIET_WINDOW_END with no launch held: every island's part; quadrants that were found wrong are loaded anew, and a device in STEP_WAIT steps its
time (R128, R141). -/
def quietEnd (d : Device) : Device :=
  match d.halt.cur with
  | some h =>
    if d.halt.phase = .quiet then
      quietStep (quadReload (forEach allQuads quietEndQuad (quietFinish h (waitLoc (h.start * tick + h.qlen * (10 * us)) d))))
    else d
  | none => d

def execHaltFrameReceive (f : FrameRx) (s : State) : Host.Outcome State Fault Refusal := done (haltFrameReceive f) s

end Sys2Proof.Machine
end

