-- ==== Sys2Proof/Machine/Caravan.lean ====
section
/-! DEFINITION. Sys2Proof/Machine/Caravan.lean: the caravan endpoint: frames sent and received, references, membership, loss of the leader and hand-back
(04, R124 to R152; 11, R432). -/

namespace Sys2Proof.Machine

/-! ### Frames of the time source (R134 to R138) -/

/-- TIME frame of the millisecond boundary at local time `t` (ticks). -/
def timeFrame (d : Device) : List Byte :=
  frameBytes 1 (leBytes 8 d.ticks ++ leBytes 1 (b2n (decide (d.cvn.role = .acting)) + 2 * b2n (decide (d.cvn.refSrc = 1)) + 4 * b2n d.cvn.onOwn) ++ leBytes 1 (ownId d))

/-- HALT frame (R136). -/
def haltFrame (h : HaltSched) : List Byte :=
  frameBytes 2 (leBytes 4 h.no.toNat ++ leBytes 8 h.start ++ leBytes 2 h.qlen ++ leBytes 2 h.period)

/-- ROLL frame (R136). -/
def rollFrame (r : Roll) : List Byte :=
  frameBytes 4 (leBytes 1 r.kind ++ leBytes 1 (r.id + 16 * r.role) ++ leBytes 4 r.uid.toNat ++ leBytes 4 r.arg.toNat)

/-- HALT frames go out from 40 ms to 5 ms before the quiet-window start (R138). -/
def haltSends (d : Device) : List (List Byte) :=
  ((d.halt.next.toList ++ d.halt.cur.toList).filter fun h => decide (h.start * tick ≤ d.loc + 40 * ms ∧ d.loc + 5 * ms ≤ h.start * tick)).map haltFrame

/-- The further frames that fit the window of 24 to 450 us, the first starting n chips after the first chip of the TIME frame, which leaves 2 chips
before the boundary: each is followed by at least 1 us of idle (R134). -/
def windowFit : Nat → List (List Byte) → List (List Byte)
  | _, [] => []
  | n, f :: fs => let e := n + (frameChips f).length; if e ≤ 4502 then f :: windowFit (e + 10) fs else []

/-- The chips of the TIME frame and of the further frames of a time frame (R131, R134). -/
def frameRunChips (time : List Byte) (more : List (List Byte)) : List Bool :=
  let t := frameChips time
  t ++ List.replicate (242 - t.length) false ++ more.flatMap fun f => frameChips f ++ List.replicate 10 false

/-- What the time source sends in this time frame; each answer goes out in three frames. An answer that the window of R134 has no room for waits for
the next time frame (log entry 157). -/
def sourceSends (d : Device) : Device :=
  let first := haltSends d ++ (if leads d then modeSends d else [])
  let more := windowFit 242 (first ++ d.cvn.answers.map fun a => rollFrame a.1)
  let n := more.length - first.length
  let time := timeFrame d
  let d := (transmitRun (time :: more) (frameRunChips time more) (16 * d.loc + edgeDelay d) d).updCvn fun c => { c with
    returned := false
    answers := (((c.answers.take n).map fun a => (a.1, a.2 - 1)).filter fun a => decide (0 < a.2)) ++ c.answers.drop n }
  if leads d then modeSent d else d

/-- The ring is open when the marker edge of the last three frames has not returned (R139). -/
def ringOpenCheck (d : Device) : Device :=
  if d.cvn.source ∧ d.cvn.outAt.isSome ∧ d.cvn.returned = false then
    let d := d.updCvn fun c => { c with openRun := c.openRun + 1, retRun := 0, misRun := 0, okRun := 0 }
    if d.cvn.openRun = 3 ∧ d.cvn.ringOpen = false then raiseLevel 0x5E5 0 (d.updCvn fun c => { c with ringOpen := true }) else d
  else d

/-- `ALIVE` at a time-frame boundary of RUN, and its return with the FLT pair after a DEVICE recovery (R432, R433). -/
def aliveFrame (d : Device) : Device :=
  if d.start.st = .run ∧ d.devFault = false then
    match d.col.resumeAt with
    | some t => if t ≤ d.loc then d.updCol fun c => { c with flt := false, alive := true, aliveRun := true, resumeAt := none } else d
    | none => if d.col.aliveRun then d.updCol fun c => { c with alive := !c.alive } else d
  else d

/-- TIME_FRAME_BOUNDARY: the next 1 ms boundary of local time (R134, R139, R382, R387, R403, R432). -/
def frameBoundary (d : Device) : Device :=
  if d.start.st = .reset ∨ d.start.st = .init then d
  else
    let d := nextLocal 6 ms d
    let d := d.updHk fun h => { h with
      trimA := h.trimANext, trimB := h.trimBNext
      oscTrim := Vector.ofFn fun o => h.oscTrim[o] + max (-1) (min 1 (h.oscTrimNext[o] - h.oscTrim[o])) }
    let d := aliveFrame ((d.when d.loader.built coolantFrame).when (modelsRun d) energyFrame)
    if d.cvn.source then sourceSends (judgeVotes d.ticks (ringOpenCheck d)) else d

/-- A HANDBACK frame names the first halt that starts at least 20 ms after it (R144). -/
def handbackArg (r : Roll) (d : Device) : Roll := if r.kind = 8 then { r with arg := effHalt d.ticks d } else r

/-- A frame's marker edge comes two chips, 0.2 us, after its start (R131, R134). -/
def lead : Nat := 80

/-- INSERTION_SLOT: the device's oldest ROLL frame leaves 1 us into its slot (R134, R135), counted from the millisecond boundary of local time (DESIGN
CHOICE, log entry 171). -/
def insertionSlot (d : Device) : Device :=
  match d.cvn.rollQ with
  | r :: rest =>
    let o := 501 * us + 25 * us * ownId d
    let t := d.loc / ms * ms + o
    let d := waitLoc (if d.loc < t then t else t + ms) d
    let r := handbackArg r d
    (transmit (rollFrame r) (16 * (d.loc + lead) + edgeDelay d) d).updCvn fun c => { c with
      rollQ := rest, slotUsed := some (d.loc / ms), handback := if r.kind = 8 then some r.arg else c.handback }
  | [] => d

/-! ### TIME frames received (R125, R139, R141, R145) -/

/-- The time source hears its own frame: `RT_MEAS` in 0.1 ns, from an arrival in units of 156.25 ps. -/
def ownFrame (arrival : Nat) (d : Device) : Device :=
  let rt := qRound (((arrival : Qty) - (d.cvn.outAt.getD 0 : Qty)) * 25 / 16)
  let bad := decide (50 < |rt - (ringTotal d : Int)|)
  let d := d.updCvn fun c => { c with
    rtMeas := BitVec.ofNat 24 (satInt rt 0 16777215).toNat, returned := true, openRun := 0, retRun := c.retRun + 1, rivalSince := none, leaderSince := none
    misRun := if bad then c.misRun + 1 else 0, okRun := if bad then 0 else c.okRun + 1 }
  let d := if d.cvn.ringOpen ∧ 3 ≤ d.cvn.retRun then faultEnds 0x5E5 (d.updCvn fun c => { c with ringOpen := false }) else d
  if d.cvn.ringMismatch = false ∧ 16 ≤ d.cvn.misRun then raiseLevel 0x5E4 0 (d.updCvn fun c => { c with ringMismatch := true })
  else if d.cvn.ringMismatch ∧ 16 ≤ d.cvn.okRun then faultEnds 0x5E4 (d.updCvn fun c => { c with ringMismatch := false })
  else d

/-- HANDBACK waits for the deputy's insertion slot. It is sent once and not repeated (R144; DESIGN CHOICE, log entry 172). -/
def handbackStart (d : Device) : Device :=
  if d.cvn.role = .acting ∧ d.cvn.handback.isNone ∧ (d.cvn.rollQ.all fun r => decide (r.kind ≠ 8)) then rollPush 8 0 d else d

/-- Start of a run of TIME frames, one in each time frame: a frame more than 1.5 ms after the last begins a new run (R144, R147;
log entry 136). -/
def frameRun (since : Option Nat) (last now : Nat) : Option Nat :=
  match since with
  | some t => if now ≤ last + 1500 * us then some t else some now
  | none => some now

/-- The time source hears another one (R144, R147). A change of the rival's `T_SRC` or `ACTING` begins its 10 ms anew (DESIGN CHOICE, log entry
159). -/
def rivalFrame (src : Nat) (acting : Bool) (d : Device) : Device :=
  let d := d.updCvn fun c => { c with timeSeen := some d.loc }
  if d.cvn.role = .acting ∧ acting = false then
    let d := d.updCvn fun c => { c with leaderSince := frameRun c.leaderSince c.leaderLast d.loc, leaderLast := d.loc }
    match d.cvn.leaderSince with
    | some t => if t + 10 * ms ≤ d.loc then handbackStart d else d
    | none => d
  else d.updCvn fun c => { c with
    rivalActing := acting, rivalId := src, rivalLast := d.loc
    rivalSince := if c.rivalId = src ∧ c.rivalActing = acting then frameRun c.rivalSince c.rivalLast d.loc else some d.loc }

/-- Alignment is reached (R141). A device accepted while it ran alone goes by STEP_WAIT (R151). -/
def toTrack (d : Device) : Device :=
  if d.cvn.joinPending then toStepWait d
  else d.updCvn fun c => { c with timeState := .track, holdover := false, badRun := 0, goodRun := 0 }

/-- A follower's time state after the error of a frame (R141). Whether the frequency is within 0.1 ppm is a free value. -/
def timeTrack (d : Device) : Device :=
  let big := eLarge d.cvn.timeErr
  match d.cvn.timeState with
  | .track =>
    let d := d.updCvn fun c => { c with badRun := if big then c.badRun + 1 else 0 }
    if 3 ≤ d.cvn.badRun then toStepWait d else d
  | .reacq =>
    let d := d.updCvn fun c => { c with badRun := if big then c.badRun + 1 else 0, goodRun := if big then 0 else c.goodRun + 1 }
    if 3 ≤ d.cvn.goodRun then drawBool (fun b d => if b then toTrack d else d) d
    else if 3 ≤ d.cvn.badRun then drawBool (fun b d => if b then toStepWait d else d) d
    else d
  | _ => d

/-- A device strapped `LEADER` takes time from the ring only as a returning leader or when it runs alone (R145, R151). -/
def takesTime (d : Device) : Bool := !d.cvn.source && (!d.start.straps.leader || decide (d.cvn.role = .returning) || isAlone d)

/-- `SRC_ID` and `TIME_ERR` of a valid TIME frame carrying T ticks (R141, R162). -/
def timeWords (t src : Nat) (acting : Bool) (arrival : Nat) (d : Device) : Device :=
  d.updCvn fun c => { c with srcId := BitVec.ofNat 4 src, timeErr := (t : Int) * 640 + compensation src acting d - (arrival : Int) }

/-- A device that is not the time source takes a TIME frame. -/
def followFrame (acting : Bool) (d : Device) : Device :=
  let d := d.updCvn fun c => { c with
    srcActing := acting, timeSeen := some d.loc, leaderLost := false, actingSeen := if acting then some d.loc else c.actingSeen }
  let d := faultEnds 0x5E6 d
  if takesTime d then timeTrack d else d

/-- TIME_FRAME_RECEIVE: the repeater passes it on; from LOAD on the device takes it. -/
def timeFrameReceive (f : FrameRx) (d : Device) : Device :=
  let d := forward f f.bytes d
  if d.start.st = .reset ∨ d.start.st = .init then d
  else match framePayload 1 10 0 f.bytes with
    | none => frameErr d
    | some (p, _) =>
      let src := fld p 9 1 % 16
      let acting := bitOf (fld p 8 1) 0
      let d := timeWords (fld p 0 8) src acting f.arrival d
      if d.cvn.source then (if src = ownId d then ownFrame f.arrival d else rivalFrame src acting d)
      else followFrame acting d

/-- T + n sub-ticks for the TIME frame whose marker edge, n sub-ticks after T, is at this instant of local time (R127). -/
def strobeTime (n : Nat) (d : Device) : Nat := (d.loc + ms / 2 - n) / ms * ms + n

/-- A quadrant with a running clock at the frame strobe: it takes a load that has arrived, or its copy is compared (R127, R128). A load that steps
its time past a held launch makes that launch late (R130). -/
def strobeQuad (q : Quad) (d : Device) : Device :=
  if bitOf d.isl.clkRun.toNat q.1 = false then d
  else match d.clk.qload[q] with
  | some n =>
    let was := d.clk.qtime[q]
    lateLaunches was ⟨q.1, by omega⟩
      { d with clk := { d.clk with qtime := upd d.clk.qtime q fun _ => strobeTime n d, qload := upd d.clk.qload q fun _ => none } }
  | none =>
    if d.clk.qtime[q] ≤ d.loc + 1 ∧ d.loc ≤ d.clk.qtime[q] + 1 then d
    else raise (0x5E0 + q.1) { d with clk := { d.clk with qreload := upd d.clk.qreload q fun _ => true } }

/-- FRAME_STROBE. -/
def frameStrobe (d : Device) : Device := forEach allQuads strobeQuad d

/-! ### References (R140, R141) -/

/-- `XREF` is the reference of a time source, and of a device strapped `LEADER` before its role is resolved (R71, R140, R143). -/
def usesXref (d : Device) : Bool := d.cvn.source || (d.start.straps.leader && decide (d.cvn.role = .follower))

/-- XREF_LOST: the device goes to its own oscillators. -/
def xrefLost (d : Device) : Device :=
  d.updCvn fun c =>
    if usesXref d then { c with xrefValid := false, onOwn := true, refSrc := 2, holdover := c.holdover || decide (c.role = .leader) }
    else { c with xrefValid := false }

/-- XREF_RESTORED. -/
def xrefRestored (d : Device) : Device :=
  d.updCvn fun c =>
    if usesXref d then { c with xrefValid := true, onOwn := false, refSrc := 1, holdover := c.holdover && decide (c.role ≠ .leader) }
    else { c with xrefValid := true }

/-- CLOCK_INVALID. -/
def clockInvalid (d : Device) : Device :=
  if takesTime d = false ∨ d.cvn.timeState = .hold then d
  else aloneMode (raise 0x5E8 (d.updCvn fun c => { c with timeState := .hold, holdover := true, refSrc := 2, badRun := 0, goodRun := 0 }))

/-- CLOCK_VALID. -/
def clockValid (d : Device) : Device :=
  if takesTime d ∧ d.cvn.timeState = .hold then
    d.updCvn fun c => { c with timeState := .reacq, refSrc := 0, badRun := 0, goodRun := 0 }
  else d

/-! ### Membership (R148 to R152) -/

/-- The time source drops a member (R152). -/
def dropMember (id arg : Nat) (d : Device) : Device :=
  if bitOf d.cvn.members.toNat id then
    d.updCvn fun c => { c with
      members := c.members &&& ~~~BitVec.ofNat 16 (2 ^ id), dropped := c.dropped ||| BitVec.ofNat 16 (2 ^ id)
      answers := c.answers ++ [(⟨6, id, c.roles.getD id 0, c.uids.getD id 0, BitVec.ofNat 32 arg⟩, 3)] }
  else d

/-- The poll entry of a device that has just become a member (R520). -/
def newEntry (id : Nat) (d : Device) : Device := d.updSup fun s => { s with entries := s.entries.set (id % 16) { status := 6 } (Nat.mod_lt _ (by decide)) }

/-- A device is a member of this time source from now. -/
def addMember (id role : Nat) (uid : Word) (d : Device) : Device :=
  (d.when (!bitOf d.cvn.members.toNat id) (newEntry id)).updCvn fun c => { c with
    members := c.members ||| BitVec.ofNat 16 (2 ^ (id % 16)), uids := c.uids.set (id % 16) uid (Nat.mod_lt _ (by decide))
    roles := c.roles.set (id % 16) role (Nat.mod_lt _ (by decide)), presentAt := c.presentAt.set (id % 16) d.loc (Nat.mod_lt _ (by decide)) }

/-- JOIN at the time source (R149, R150). -/
def onJoin (id role : Nat) (uid : Word) (d : Device) : Device :=
  if bitOf d.cvn.members.toNat id ∧ d.cvn.uids.getD id 0 ≠ uid then
    logEvent 0x0303 id uid.toNat 0 (d.updCvn fun c => { c with answers := c.answers ++ [(⟨5, id, role, uid, 1⟩, 3)] })
  else
    (addMember id role uid d).updCvn fun c => { c with answers := c.answers ++ [(⟨4, id, role, uid, 0⟩, 3)] }

/-- ROLL frames at the time source. -/
def rollSource (k id role : Nat) (uid : Word) (d : Device) : Device :=
  match k with
  | 1 => onJoin id role uid d
  | 2 =>
    if bitOf d.cvn.members.toNat id then
      (if d.cvn.uids.getD id 0 = uid then addMember id role uid d else d)
    else addMember id role uid d
  | 3 => if d.cvn.uids.getD id 0 = uid then dropMember id 2 d else d
  | 7 => handbackStart d
  | _ => d

/-- The device is accepted (R72, R151). "Since joining" of R154 and R155 counts from here. -/
def accepted (d : Device) : Device :=
  let d := (d.updCvn fun c => { c with member := true, refused := false, joinTried := none, awaiting := false }).updHalt fun h =>
    if isAlone d then h else { h with ran := false, accepted := false }
  if isAlone d then
    let d := (d.updStart fun s => { s with joinResult := 2 }).updCvn fun c => { c with joinPending := true }
    if d.cvn.timeState = .track then toStepWait d else d
  else if d.start.st = .join ∧ d.start.resolvedAt = none then resolve 2 d
  else d.updStart fun s => { s with joinResult := 2 }

/-- The device is refused and runs alone (R150); the repeats of one answer act once. -/
def refusedRoll (uid : Word) (d : Device) : Device :=
  let d := d.updCvn fun c => { c with refused := true, joinTried := some d.loc, awaiting := false }
  let d := logEvent 0x0303 (ownId d) uid.toNat 0 (if isAlone d then d else runAlone d)
  if d.start.st = .join ∧ d.start.resolvedAt = none then resolve 3 d else d.updStart fun s => { s with joinResult := 3 }

/-- The device waits for an answer to a JOIN. -/
def joining (d : Device) : Bool := d.cvn.joinTried.isSome && !d.cvn.member

/-- ROLL frames at a device that is not the time source. -/
def rollDevice (k id : Nat) (uid arg : Word) (d : Device) : Device :=
  if k = 8 then (if d.cvn.role = .returning then d.updCvn fun c => { c with handback := some arg } else d)
  else if id = ownId d then
    match k with
    | 4 =>
      if uid = Config.uid then (if joining d then accepted d else d)
      else if d.cvn.awaiting ∨ d.cvn.refused = false then refusedRoll Config.uid d else d
    | 5 => if uid = Config.uid ∧ d.cvn.awaiting then refusedRoll uid d else d
    | 6 =>
      if uid = Config.uid ∧ d.cvn.member then
        let d := d.updCvn fun c => { c with member := false }
        if d.start.st = .run then rollPush 1 0 (d.updCvn fun c => { c with joinTried := some d.loc }) else d
      else d
    | _ => d
  else d

/-- A frame arrives in the device's own insertion slot of a time frame in which its own frame goes in place of the input (R135, R149). -/
def ownSlotTaken (f : FrameRx) (d : Device) : Bool :=
  let t := f.arrival / 16
  let o := t % ms
  let lo := 500 * us + 25 * us * ownId d
  decide (lo ≤ o) && decide (o < lo + 25 * us) && (!d.cvn.rollQ.isEmpty || decide (d.cvn.slotUsed = some (t / ms)))

/-- ROLL_FRAME_RECEIVE. -/
def rollFrameReceive (f : FrameRx) (d : Device) : Device :=
  let d := if ownSlotTaken f d then d else forward f f.bytes d
  if d.start.st = .reset ∨ d.start.st = .init then d
  else match framePayload 4 10 0 f.bytes with
    | none => frameErr d
    | some (p, _) =>
      let k := fld p 0 1
      let id := fld p 1 1 % 16
      let uid := BitVec.ofNat 32 (fld p 2 4)
      if k = 0 ∨ 8 < k then frameErr d
      else if d.cvn.source then rollSource k id (fld p 1 1 / 16 % 4) uid d
      else rollDevice k id uid (BitVec.ofNat 32 (fld p 6 4)) d

/-- JOIN_RETRY_TIMER: every 10 s after a refusal, every 1 s otherwise, while the device is no member (R150, R151). -/
def joinRetry (d : Device) : Device :=
  match d.cvn.joinTried with
  | some t =>
    if d.start.st = .run ∧ d.cvn.member = false ∧ d.cvn.source = false then
      let d := waitLoc (t + (if d.cvn.refused then 10 else 1) * sec) d
      rollPush 1 0 (d.updCvn fun c => { c with joinTried := some d.loc })
    else d
  | none => d

/-- PRESENT_TIMER (R148), at the multiples of 100 ms of local time (log entry 128). -/
def presentTimer (d : Device) : Device :=
  if d.cvn.member ∧ d.cvn.source = false ∧ d.start.st = .run then rollPush 2 0 (nextLocal 7 (100 * ms) d) else d

/-- MEMBER_DROP_TIMEOUT (R152). -/
def memberDrop (id : Fin 16) (d : Device) : Device :=
  if d.cvn.source ∧ id.1 ≠ ownId d ∧ bitOf d.cvn.members.toNat id.1 then dropMember id.1 1 (waitLoc (d.cvn.presentAt[id] + sec) d) else d

/-! ### Loss of the leader, hand-back, rivals (R141, R143 to R147) -/

/-- A proposal without COMMIT lapses (R105). -/
def lapse (d : Device) : Device :=
  d.updMode fun m => if m.phase = 1 then { m with phase := 0, pending := 0, answer := none, memberCheck := none } else m

/-- LEADER_LOST_TIMEOUT. -/
def leaderLostTimeout (d : Device) : Device :=
  match d.cvn.timeSeen with
  | some t =>
    if d.cvn.source ∨ d.cvn.leaderLost then d
    else raiseLevel 0x5E6 0 (lapse ((waitLoc (t + 10 * ms) d).updCvn fun c => { c with leaderLost := true }))
  | none => d

/-- The halts that a new time source schedules continue those before (R143); one that has accepted no HALT frame takes its own `HALT_CFG` from
its RUN launch on (R161, log entry 156). -/
def continueHalts (d : Device) : Device :=
  if d.halt.next.isSome then d
  else
    let c := if d.halt.accepted then (d.halt.lastPeriod, d.halt.lastQlen) else haltCfg d
    let p := max 1 (c.1 * 10000)
    let k := (d.ticks + 50000 - d.halt.lastStart) / p + 1
    announce ⟨d.halt.refNo + BitVec.ofNat 32 k, d.halt.lastStart + k * p, c.2, c.1, false⟩ d

/-- DEPUTY_TAKEOVER: at the first millisecond boundary 10 ms after the last TIME frame, of whichever source (log entry 129). Its first TIME frame
leaves at the boundary after this one (DESIGN CHOICE, log entry 158). -/
def deputyTakeover (d : Device) : Device :=
  match d.cvn.timeSeen with
  | some t =>
    if d.cvn.role = .deputy ∧ d.cvn.member ∧ d.start.st = .run then
      let d := waitLoc ((t + 10 * ms + ms - 1) / ms * ms) d
      continueHalts ((lapse (sourceRef (becomeSource .acting d))).updMode fun m => { m with blocked := false })
    else d
  | none => d

/-- HANDBACK_SWITCH: 100 us after the quiet-window start of H (R144, R145). The ring readings of a device that was time source keep their last
values (log entry 131). -/
def handbackSwitch (d : Device) : Device :=
  match d.cvn.handback with
  | some h =>
    if d.halt.ran ∧ d.halt.last = h ∧ (d.cvn.role = .acting ∨ d.cvn.role = .returning) then
      let d := waitLoc (d.halt.lastStart * tick + 100 * us) d
      if d.cvn.role = .acting then
        (d.updCvn fun c => { c with
          role := .deputy, source := false, members := 0, handback := none, refSrc := 0, onOwn := false, holdover := false, timeSeen := some d.loc
          leaderSince := none, answers := [] }).updHalt fun x => { x with next := none, accepted := true }
      else continueHalts (sourceRef (becomeSource .leader d))
    else d
  | none => d

/-- RIVAL_LEADER: 10 ms of another time source (R147). An acting deputy that hears a leader hands back instead (R144); a leader that hears an
acting deputy goes on. -/
def rivalLeader (d : Device) : Device :=
  match d.cvn.rivalSince with
  | some t =>
    if d.cvn.source then
      let d := waitLoc (t + 10 * ms) d
      let d := raise 0x5E7 (d.updCvn fun c => { c with rivalLeader := true, rivalSince := none })
      if d.cvn.rivalActing = decide (d.cvn.role = .acting) ∧ d.cvn.rivalId < ownId d then
        if d.cvn.role = .acting then
          toStepWait ((d.updCvn fun c => { c with role := .deputy, source := false, members := 0, handback := none, onOwn := false, refSrc := 0, answers := [] }).updHalt
            fun x => { x with next := none, accepted := true })
        else runAlone d
      else d
    else d
  | none => d

def execTimeFrameReceive (f : FrameRx) (s : State) : Host.Outcome State Fault Refusal := done (timeFrameReceive f) s
def execFrameStrobe (s : State) : Host.Outcome State Fault Refusal := done frameStrobe s
def execRollFrameReceive (f : FrameRx) (s : State) : Host.Outcome State Fault Refusal := done (rollFrameReceive f) s
def execXrefLost (s : State) : Host.Outcome State Fault Refusal := done xrefLost s
def execXrefRestored (s : State) : Host.Outcome State Fault Refusal := done xrefRestored s
def execClockInvalid (s : State) : Host.Outcome State Fault Refusal := done clockInvalid s
def execClockValid (s : State) : Host.Outcome State Fault Refusal := done clockValid s

end Sys2Proof.Machine
end

