-- ==== Sys2Proof/Machine/Startup.lean ====
section
/-! DEFINITION. Sys2Proof/Machine/Startup.lean: resets, INIT, BUILD, the start check, arming, JOIN, the RUN launch and the service button
(02, R39 to R78). -/

namespace Sys2Proof.Machine

/-! ### Resets (R42 to R45, R78) -/

/-- A reset begins: every part of the device starts afresh but the latched straps, the reset causes and count, the event log with its indices, and
the level of the service button (R45, R77, R78). -/
def enterReset (d : Device) : Device :=
  if d.start.st = .reset then d
  else
    let s := d.start
    { start := {
        st := .reset, straps := s.straps, por := s.por, brownout := s.brownout, pin := s.pin, svc := s.svc, railLow := s.railLow
        warmResets := s.warmResets }
      memory := {
        mem := d.memory.mem.filter fun p => decide (0x80000 ≤ p.1) && decide (p.1 < 0xA0000)
        errs := d.memory.errs.filter fun e => decide (16384 ≤ e.1) && decide (e.1 < 20480) }
      col := { logWr := d.col.logWr, logRd := d.col.logRd, logSeq := d.col.logSeq }
      button := { high := d.button.high }
      free := d.free }

/-- RESET_N_LOW (R43). -/
def resetN (ns : Nat) (d : Device) : Device :=
  let rec0 (d : Device) : Device := (enterReset d).updStart fun s => { s with accPin := true }
  if ns < 50 then d
  else if ns < 200 then drawBool (fun b d => if b then rec0 d else d) d
  else rec0 d

/-- RAIL_FALLING (R42, R45). -/
def railFalling (rail : Fin 4) (coreLow : Bool) (d : Device) : Device :=
  (enterReset d).updStart fun s => { s with
    accRails := s.accRails ||| BitVec.ofNat 4 (2 ^ rail.1), accCoreLow := s.accCoreLow || coreLow }

/-- RESET_RELEASE: time is counted from here; causes, straps and test pins are latched; a power-on or a brown-out loses the log (R44, R45, R49, R78). -/
def resetRelease (st : Straps) (testEn scanEn : Bool) (d : Device) : Device :=
  if d.start.st = .reset then
    let s := d.start
    let por := s.accCoreLow
    let brown := !por && decide (s.accRails ≠ 0)
    let keep := !por && !brown
    let d := d.updStart fun s => { s with
      st := .init, straps := st, testEn := testEn, scanEn := scanEn
      por := por, brownout := brown, pin := s.accPin, svc := s.accSvc, railLow := s.accRails
      warmResets := if por then 0 else satInc s.warmResets
      accCoreLow := false, accPin := false, accSvc := false, accRails := 0 }
    let d := { d with clk := {} }
    if keep then d
    else (d.updMem fun m => { m with mem := [], errs := [] }).updCol fun c => { c with logWr := 0, logRd := 0, logSeq := 0 }
  else d

/-! ### INIT (R39, R61, R71, R78) -/

/-- The event log after a pin or service reset: kept whole, or cleared with a record (R78). -/
def logCheck (d : Device) : Device :=
  if d.start.por ∨ d.start.brownout then d
  else if (d.memory.errs.any fun e => decide (2 ≤ e.2.1 + e.2.2)) then
    logEvent 0x0107 0 0 0 ((d.updMem fun m => { m with mem := [], errs := [] }).updCol fun c => { c with logWr := 0, logRd := 0, logSeq := 0 })
  else d.updStart fun s => { s with logRetained := true }

/-- Reference chosen in INIT (R71). -/
def refSelect (valid : Bool) (d : Device) : Device :=
  d.updCvn fun c =>
    if d.start.straps.leader then { c with xrefValid := valid, refSrc := if valid then 1 else 2, onOwn := !valid }
    else { c with refSrc := if valid then 0 else 2, holdover := true, timeState := if valid then .reacq else .hold }

/-- Memory as INIT leaves it: zeros, and the empty tracking samples of R530. -/
def initMemory (d : Device) : Device :=
  d.updMem fun m => { m with mem := mreplace m.mem 0xE4000 0xE6800 ((List.range 1280).map fun j => (0xE4007 + 8 * j, 0x80#8)) }

/-- INIT_COMPLETE. Without a running housekeeping island the device stays in INIT; in a factory test mode it stays there too (R44). -/
def initComplete (refValid : Bool) (clkRun : BitVec 5) (d : Device) : Device :=
  if d.start.st = .init ∧ d.start.testEn = false ∧ d.start.scanEn = false then
    if bitOf clkRun.toNat 4 = false then d
    else
      let d := initMemory <| logCheck (refSelect refValid ({ d with clk := { d.clk with qtime := d.clk.qtime.map fun _ => d.clk.loc } }.updIsl fun x => { x with clkRun := clkRun }))
      let bad (q : Quad) : Bool := !bitOf clkRun.toNat q.1
      let d := d.updStart fun s => { s with qdInitFail := ~~~(clkRun.truncate 4) }
      let d := { d with mods := d.mods.map fun (m : ModSt) => { m with streamAt := d.up } }
      let d := enterLoad (d.updCvn fun c => { c with timeSeen := some d.loc })
      colStart (forEach (allQuads.filter bad) (fun q d => raise (0x5D0 + q.1) d) d)
  else d

/-! ### Mode pins (R50, R62, R64, R99, R104) -/

/-- A new debounced value. -/
def modeDebounced (v : BitVec 4) (d : Device) : Device :=
  let d := d.updMode fun m => { m with deb := some v, blocked := false }
  match d.start.st with
  | .build => if d.start.modeUnstable then
      mirrorStarts ((d.updMode fun m => { m with taken := v }).updStart fun s => { s with modeUnstable := false, unstableAt := none })
    else d
  | .configured => if d.start.latchAtStart then d else enterBuild 2 d
  | .run => aloneMode d
  | _ => d

/-- MODE_SAMPLE: every 1 ms outside RESET and SVC_HOLD. -/
def modeSample (v : BitVec 4) (d : Device) : Device :=
  if d.start.st = .reset ∨ d.start.st = .svcHold then d
  else
    let d := nextMultiple 4 ms d
    let d := d.updMode fun m => { m with run := if v = m.last ∧ 0 < m.run then min 20 (m.run + 1) else 1, last := v }
    let d := if 20 ≤ d.mode.run ∧ d.mode.deb ≠ some v then modeDebounced v d else d
    disagreeTrack d

/-- MODE_UNSTABLE_TIMEOUT: one record, 1 s after BUILD began to wait. -/
def modeUnstable (d : Device) : Device :=
  match d.start.unstableAt with
  | some t =>
    if d.start.st = .build ∧ d.start.modeUnstable then
      logEvent 0x0104 d.mode.last.toNat 0 0 ((waitUp (t + sec) d).updStart fun s => { s with unstableAt := none })
    else d
  | none => d

/-- Levels of the straps as a word: `CVN_ID`, `LEADER`, `DEPUTY` (R40). -/
def strapWord (s : Straps) : Nat := s.cvnId.toNat + 16 * b2n s.leader + 32 * b2n s.deputy

/-- STRAP_CHANGED (R49): watched from INIT to RUN (R46). -/
def strapChanged (p : Straps) (d : Device) : Device :=
  if d.start.st ≠ .reset ∧ d.start.st ≠ .svcHold ∧ p ≠ d.start.straps then
    logEvent 0x0103 (strapWord d.start.straps) (strapWord p) 0 (d.updStart fun s => { s with strapChanged := true })
  else d

/-! ### BUILD and the start check (R62 to R70) -/

/-- The composition built comes into force (R62). A quadrant whose channel makes its words wait keeps the old ones until they arrive (R20, R26). -/
def confBuilt (new : Memory) (d : Device) : Device :=
  let wait := allQuads.filter (toWaits d)
  forEach wait (fun q => send (.toQd q) (.words none))
    (d.updMem fun x => { x with conf := wait.foldl (fun m q => mergeBase m x.conf (islandRanges q)) new })

/-- MIRROR_BUILT: the mirror's writes are complete. The command stands for the grants of the codewords that are left (log entry 127). -/
def mirrorBuilt (d : Device) : Device :=
  if d.start.st = .build ∧ d.start.modeUnstable = false ∧ d.start.checking = false then
    let v := d.mode.taken
    let d := confBuilt (composeMem d.loader.base d.loader.ovls v.toNat) (writeMirror v.toNat (mirrorEnds d))
    let d := (d.updLoader fun l => { l with built := true }).updMode fun m => { m with active := v }
    d.updStart fun s => { s with checking := true }
  else d

/-- Every region whose enable is set is armed (R66, R86). -/
def armEnabled (d : Device) : Device :=
  forEach (allChans.filter (chEnable d)) (fun c => armSend (.channel c)) (forEach (allQuads.filter (qdEnable d)) (fun q => armSend (.quadrant q)) d)

/-- CONFIGURED, with a difference of the debounced value acted on at once (R62). -/
def configured (d : Device) : Device :=
  let d := d.updStart fun s => { s with st := .configured, checking := false, entered := d.up }
  if d.mode.deb ≠ some d.mode.taken ∧ d.start.latchAtStart = false then enterBuild 2 d else d

/-- START_CHECK_DONE. -/
def startCheckDone (d : Device) : Device :=
  if d.start.st = .build ∧ d.start.checking then
    let t := d.start.trigger
    let r := checkAll (structOf d) d.loader.base d.loader.ovls d.mode.taken.toNat d (chEnable d) (qdEnable d)
    let d := setPosition (setDetail t r (setStartCheck t r d))
    let d := if r.reason ≠ 0 ∧ t = 2 then modeRefuse r d else d
    if r.reason = 0 ∧ d.loader.runEnable ∧ d.start.latchAtStart = false then
      joinEnter (armEnabled (d.updStart fun s => { s with checking := false }))
    else configured d
  else d

/-- ARM_CHECK_DONE (R67): the oldest check ends. In RUN the region starts by a launch 1 us ahead (R22). -/
def armCheckDone (d : Device) : Device :=
  match d.check.arming with
  | g :: rest =>
    let r := armCheck d g
    let d := refusedInRun 1 r (setDetail 1 r (setStartCheck 1 r (d.updCheck fun c => { c with
      arming := rest, known := if r.reason = 0 then c.known else some (g, r.reason, d.mode.active.toNat, d.reload.count.toNat) })))
    if r.reason ≠ 0 ∨ d.start.latchAtStart then d
    else if d.start.st = .configured then joinEnter (armSend g d)
    else if d.start.st = .run then
      match g with
      | .channel c =>
        if (d.chans[c]).armed then d
        else if (d.quads[Chan.quad c]).armed then launchSoon (.carrierReset (.channel c)) (armSend g d)
        else launchSoon (.carrierReset (.quadrant (Chan.quad c))) (armSend g d)
      | .quadrant q => if (d.quads[q]).armed then d else launchSoon (.carrierReset (.quadrant q)) (armSend g d)
      | .device => d
    else d
  | [] => d

/-! ### RUN (R73, R430) -/

/-- Reactions of sources raised before the launch that no grant has ended (R430). -/
def preReactions (d : Device) : Device :=
  forEach ((List.finRange 2048).filter fun f => (d.faults[f]).pre) (fun f d =>
    match scopeOf f.1 with
    | some sc => react f.1 sc (actSev sc (effSev d f.1)) (d.updFault f fun y => { y with pre := false })
    | none => d) d

/-- Reactions in force on the path switches of a quadrant that starts after housekeeping (R430). -/
def startHolds (q : Quad) (d : Device) : Device :=
  forEach ((List.finRange 2048).filter fun f => (d.faults[f]).hold && !(d.faults[f]).pre) (fun f d =>
    match scopeOf f.1 with
    | some (.path c) =>
      if Chan.quad c ≠ q then d else if effSev d f.1 = .breaker then pathTrip c false false d else pathOpen f.1 c d
    | _ => d) d

/-- What starts in a quadrant at the RUN launch: its source's window, its path switches, its bus state (R287, R299). -/
def runArmQuad (q : Quad) (d : Device) : Device :=
  if d.isl.started[q] then d
  else
    let d := d.updIsl fun x => { x with started := upd x.started q fun _ => true }
    let d := forEach (quadChans q) pathArm (if (d.srcs[q]).st = .off then srcArm q d else d)
    startHolds q (d.updQuad q fun s => { s with bus := .onStrings })

/-- A quadrant's part of the RUN launch, with its carrier reset (R73, R181). -/
def runQuad (q : Quad) (d : Device) : Device := if d.isl.started[q] then d else carrierResetIn q .device (runArmQuad q d)

/-- What starts in housekeeping at the RUN launch: table 4, the bus state, thermal models. -/
def runArm (d : Device) : Device := forEach allModels modelStart (setBus .onStrings (seqStart 4 d))

/-- Halts from the RUN launch (R153, R155): the device's own `HALT_CFG` governs only a time source and a device that runs alone (R161). -/
def runHalts (d : Device) : Device :=
  let d := d.updHalt fun h => { h with runAt := d.ticks, lastStart := d.ticks }
  if d.cvn.source ∨ isAlone d then
    ownHalt 1 (d.ticks + (haltCfg d).1 * 10000) (d.updHalt fun h => { h with lastPeriod := (haltCfg d).1, lastQlen := (haltCfg d).2 })
  else d

/-- The fault pins and `ALIVE` from the RUN launch (R432, R433). -/
def runPins (d : Device) : Device := d.updCol fun c => { c with flt := d.devFault, alive := false, aliveRun := !d.devFault }

/-- Instant of the RUN launch of a device that waits for it: the first time-frame boundary at least 1 us after the role is resolved (R73). -/
def runAt (d : Device) : Option Nat :=
  if d.start.st = .join ∧ d.start.latchAtStart = false then d.start.resolvedAt.map fun t => msBoundary (t + us) else none

/-- Housekeeping's part of the RUN launch, with the reactions that waited for it (R73, R430). -/
def runHk (d : Device) : Device :=
  let d := d.updStart fun s => { s with st := .run, resolvedAt := none, entered := d.up, launched := true }
  aloneMode (runPins (preReactions (runHalts (runArm (coolantJudge (coolantFrame d))))))

/-- RUN_LAUNCH with no launch held: every island performs it. The carrier reset of the whole device falls at the same instant (R181). -/
def runLaunch (d : Device) : Device :=
  match runAt d with
  | some t =>
    let late := allQuads.filter fun q => !d.isl.started[q]
    forEach late (fun q => carrierResetIn q .device) (runHk (forEach late runArmQuad (waitLoc t d)))
  | none => d

/-! ### The service button (R74 to R77) -/

/-- SVC_DEBOUNCE: the pin has read this level for 20 ms. A press is counted from a debounced high onwards; a level that the debounced level already
has changes nothing of a press (R74). -/
def svcDebounce (high : Bool) (d : Device) : Device :=
  { d with button := if high then { d.button with high := true, armed := decide (d.start.st ≠ .reset), pressAt := none }
                     else { d.button with high := false, pressAt := if d.button.high then (if d.button.armed then some d.up else none) else d.button.pressAt } }

/-- `SVC_RESET_ALLOWED` of the active overlay (R91). -/
def svcAllowed (d : Device) : Bool :=
  let v := d.mode.active.toNat
  if v = 0 then d.loader.svcReset0 else match findOvl d.loader.ovls v with | some o => bitOf o.flags 0 | none => false

/-- SVC_HOLD is entered: power outputs off, the boot port released, the unlock ends, a member leaves (R76, R148, R508). -/
def enterSvcHold (d : Device) : Device :=
  let d := d.updStart fun s => { s with st := .svcHold, entered := d.up, modeUnstable := false, checking := false, resolvedAt := none }
  let d := bootAbandon (powerLow (forEach allChans regate d))
  let d := { d with button := { d.button with rampAt := none } }
  let d := (d.updSup fun u => { u with unlockEnd := none }).updCol fun c => { c with flt := true, alive := false, aliveRun := false }
  if d.cvn.member && !d.cvn.source then rollPush 3 0 d else d

/-- SVC_PRESS_8S (R75). In the factory test mode of R44 too the press is honoured (log entry 151). -/
def svcPress (d : Device) : Device :=
  match d.button.pressAt with
  | some t =>
    if d.start.st = .reset ∨ d.start.st = .svcHold then d
    else
      let d := waitUp (t + 8 * sec) d
      let d := { d with button := { d.button with pressAt := none } }
      if d.start.st = .run ∧ svcAllowed d = false then
        logEvent 0x0105 d.mode.active.toNat 0 0 { d with button := { d.button with ignored := satInc d.button.ignored } }
      else
        let d := logEvent 0x0106 d.mode.active.toNat 0 0 d
        if d.start.st = .run then { d with button := { d.button with rampAt := some d.up } } else enterSvcHold d
  | none => d

/-- SVC_RAMP_DONE: 250 us after an honoured press in RUN. -/
def svcRampDone (d : Device) : Device :=
  match d.button.rampAt with
  | some t => if d.start.st = .run then enterSvcHold (waitUp (t + 250 * us) d) else d
  | none => d

/-- SVC_HOLD_EXPIRY: a warm reset with cause `SVC`. -/
def svcHoldExpiry (d : Device) : Device :=
  if d.start.st = .svcHold then (enterReset (waitUp (d.start.entered + 2 * sec) d)).updStart fun s => { s with accSvc := true } else d

def execResetNLow (ns : Nat) (s : State) : Host.Outcome State Fault Refusal := done (resetN ns) s
def execRailFalling (rail : Fin 4) (coreBelowHalf : Bool) (s : State) : Host.Outcome State Fault Refusal := done (railFalling rail coreBelowHalf) s
def execResetRelease (straps : Straps) (testEn scanEn : Bool) (s : State) : Host.Outcome State Fault Refusal := done (resetRelease straps testEn scanEn) s
def execInitComplete (refValid : Bool) (clkRun : BitVec 5) (s : State) : Host.Outcome State Fault Refusal := done (initComplete refValid clkRun) s
def execStartCheckDone (s : State) : Host.Outcome State Fault Refusal := done startCheckDone s
def execStrapChanged (present : Straps) (s : State) : Host.Outcome State Fault Refusal := done (strapChanged present) s
def execArmCheckDone (s : State) : Host.Outcome State Fault Refusal := done armCheckDone s
def execSvcDebounce (high : Bool) (s : State) : Host.Outcome State Fault Refusal := done (svcDebounce high) s

end Sys2Proof.Machine
end

