-- ==== Sys2Proof/Machine/Crossing.lean ====
section
/-! DEFINITION. Sys2Proof/Machine/Crossing.lean: launch requests and the crossings between islands (01, R19 to R26, R129), and what one tick brings
when no command waits (log entry 2). -/

namespace Sys2Proof.Machine

/-! ### Launches -/

/-- Housekeeping's part of the configuration launches that are due: the overlay change and the substitutions of a halt whose quiet window starts, and a
region re-arm (R24). -/
def configGive (d : Device) : Device :=
  match d.halt.cur with
  | some h => if h.start * tick ≤ d.loc ∧ (quietReady d ∨ d.halt.phase = .quiet) then haltGive h d else rearmIfDue d
  | none => rearmIfDue d

/-- The same with the part of the quadrants that take it now. -/
def configLaunch (d : Device) : Device := quadsWork d (configGive d)

/-- Configuration launch that a quadrant performs before housekeeping does: one that housekeeping holds for an instant that the quadrant's time has
reached. -/
def configAhead (d : Device) (q : Quad) : Option Nat :=
  (d.isl.launches[(4 : Island)]).findSome? fun l => if l.act = .config ∧ l.time ≤ d.clk.qtime[q] then some l.time else none

/-- The device with housekeeping's part of a configuration launch at an instant done, and no quadrant's. -/
def configDone (t : Nat) (d : Device) : Device :=
  configGive ({ d with clk := { d.clk with loc := t } }.updIsl fun x => { x with work := Vector.replicate 4 [], ahead := Vector.replicate 4 true })

/-- A quadrant takes the words of a composition, and performs its work. -/
def quadTake (q : Quad) (new : Memory) (d : Device) : Device :=
  let words := mergeBase d.memory.conf new (quadRanges q ++ slotRanges (quadSlots q))
  let taken := if words = d.memory.conf then d else forEach (quadChans q) (chanReconf d) (d.updMem fun x => { x with conf := words })
  quadWork d q taken

/-- A quadrant's part of a configuration launch: it takes up its words of the composition in force, and does what housekeeping has given it to do; ahead
of housekeeping, what housekeeping is about to give it (R21, R24, R25). -/
def quadConfig (q : Quad) (d : Device) : Device :=
  if d.loader.built = false ∨ d.isl.ahead[q] then d
  else match configAhead d q with
    | some t =>
      let x := configDone t d
      let d := d.updIsl fun i => { i with work := upd i.work q fun _ => x.isl.work[q], ahead := upd i.ahead q fun _ => true }
      quadTake q (composeMem x.loader.base x.loader.ovls x.mode.active.toNat) d
    | none => quadTake q (composeMem d.loader.base d.loader.ovls d.mode.active.toNat) d

/-- The RUN launch has come in housekeeping. -/
def runDue (d : Device) (t : Nat) : Bool := match runAt d with | some u => decide (u ≤ t) | none => false

/-- An island is still to perform the quiet-window end that is due in it. -/
def moreQuietEnds (d : Device) : Bool := (List.finRange 5).any fun i => (d.isl.launches[i]).any fun l => decide (l.act = .quietEnd ∧ l.time ≤ islTime d i)

/-- A device in STEP_WAIT steps its time when the last island that is due has performed the quiet-window end (R141). -/
def quietStepLast (d : Device) : Device := if moreQuietEnds d ∨ d.halt.phase ≠ .rampUp ∨ d.halt.phaseAt ≠ d.loc then d else quietStep d

/-- Housekeeping's part of an action. -/
def launchHk (a : LaunchAct) (d : Device) : Device :=
  match a with
  | .config => configLaunch d
  | .carrierReset _ => d
  | .quietStart => (match d.halt.cur with | some h => if quietReady d then quietBegin h d else d | none => d)
  | .quietEnd => (match d.halt.cur with | some h => if d.halt.phase = .quiet then quietStepLast (quadReload (quietFinish h d)) else d | none => d)
  | .convStart => convMark d
  | .restStart _ => d
  | .run => if runDue d d.loc then runHk d else d

/-- A quadrant's part of an action. -/
def launchQuad (q : Quad) (a : LaunchAct) (d : Device) : Device :=
  match a with
  | .config => quadConfig q d
  | .carrierReset r => carrierResetIn q r d
  | .quietStart => quietStopQuad q d
  | .quietEnd => quietStepLast (quietEndQuad q d)
  | .convStart => readbackRequest q d
  | .restStart c => if Chan.quad c = q then restNow c d else d
  | .run => if runDue d d.clk.qtime[q] ∨ d.start.st = .run then runQuad q d else d

/-- A quadrant performs an action and acknowledges it (R19, R21). -/
def launchInQuad (q : Quad) (a : LaunchAct) (d : Device) : Device := send (.toHk q) (.ack a) (launchQuad q a d)

/-- An island performs an action (R21). Outside RUN the only one is the RUN launch itself: the others act on what RUN runs. -/
def launchIn (i : Island) (a : LaunchAct) (d : Device) : Device :=
  if d.start.st ≠ .run ∧ a ≠ .run then d
  else if h : i.1 < 4 then launchInQuad ⟨i.1, h⟩ a d else launchHk a d

/-- A launch request reaches an island: held for time compare, or, when its time has passed, held for the next sub-tick with `LAUNCH_LATE` and event
0x0301 (R21, R25). -/
def launchAt (i : Island) (l : Launch) (d : Device) : Device :=
  if islTime d i ≤ l.time then launchAdd i l d else launchLate i l (launchAdd i { l with time := islTime d i + 1 } d)

/-- The launch of an island that its time has reached, the first in the order of R24. -/
def launchFire (i : Island) (d : Device) : Device :=
  match d.isl.launches[i] with
  | l :: rest =>
    if l.time ≤ islTime d i then launchIn i l.act (d.updIsl fun x => { x with launches := upd x.launches i fun _ => rest }) else d
  | [] => d

/-- The sub-ticks until an island reaches its first launch, and that launch's rank (R24); an island without a clock reaches none. -/
def launchWait (d : Device) (i : Island) : Option (Nat × Nat × Island) :=
  match d.isl.launches[i] with
  | l :: _ => if bitOf d.isl.clkRun.toNat i.1 then some (l.time - islTime d i, l.act.order, i) else none
  | [] => none

/-- The earlier of two launches; at one instant by the order of R24, then housekeeping's first. -/
def soonerLaunch (a b : Nat × Nat × Island) : Nat × Nat × Island := if b.1 < a.1 ∨ (b.1 = a.1 ∧ b.2.1 < a.2.1) then b else a

/-- The launch that comes next in any island. -/
def nextLaunch (d : Device) : Option (Nat × Nat × Island) :=
  match [4, 0, 1, 2, 3].filterMap (launchWait d) with
  | [] => none
  | x :: l => some (l.foldl soonerLaunch x)

/-! ### Messages -/

/-- A region command at its quadrant (R19). -/
def regionTakes (k : RegionCmd) (d : Device) : Device :=
  match k with
  | .arm r => armRegionNow r d
  | .stop c => reloadStop c d
  | .force c => reloadForce c d

/-- What a message does at the quadrant that receives it: at its next cycle, or held for a launch (R23). -/
def deliverQuad (q : Quad) (m : Msg) (d : Device) : Device :=
  match m with
  | .narrow c i v => d.updChan c fun s => { s with narrowIq := i, narrowVq := v }
  | .hostStop c v => hostStopArrives c v d
  | .gain g => d.updQuad q fun s => { s with gain := g }
  | .launch l => launchAt (quadIsland q) l d
  | .timeLoad n => { d with clk := { d.clk with qload := upd d.clk.qload q fun _ => some n } }
  | .budget c b => d.updChan c fun s => { s with bud := b }
  | .bus b => busArrives q b d
  | .tj v => tjArrives q v d
  | .halve => halveArrives q d
  | .region k => regionTakes k d
  | .words m => takeWords q m d
  | _ => d

/-- What a message does in housekeeping. A result finds its requester where the grant that it was made under is still held. -/
def deliverHk (q : Quad) (m : Msg) (d : Device) : Device :=
  match m with
  | .losses v => lossesArrive q v d
  | .charge c qi qo t => chargeArrives c qi qo t d
  | .event code r => logQueue 0x8 code r d
  | .record c bs => recordArrives c bs d
  | .sample kind obj now x => capSample kind obj now x d
  | .sys v w t => sysArrives q v w t d
  | .result m v raw code w x =>
    if (d.mods[m]).conv.isNone ∧ v.req ∈ (d.arbs[mport m]).granted then resultArrives m v raw code w x d else d
  | _ => d

/-- A quadrant takes messages in the order in which they were sent (R20). -/
def takeQuad (q : Quad) (l : List Msg) (d : Device) : Device := forEach l (deliverQuad q) d

/-- Housekeeping takes messages of a quadrant in their order (R20). -/
def takeHk (q : Quad) (l : List Msg) (d : Device) : Device := forEach l (deliverHk q) d

/-- A message of a kind reaches a quadrant, after those sent before it on its channel; nothing arrives where none was sent. -/
def arrive (q : Quad) (p : Msg → Bool) (d : Device) : Device :=
  match splitMsg p (fifoOf d (.toQd q)) with
  | some (now, rest) => takeQuad q now (setFifo (.toQd q) rest d)
  | none => d

/-- Everything that a channel to or between quadrants holds reaches quadrant q, unless its request is not acknowledged (R26). -/
def drainQuad (x : Crossing) (q : Quad) (d : Device) : Device :=
  if d.isl.stalled[xIndex x] then d else takeQuad q (fifoOf d x) (setFifo x [] d)

/-- Everything that a quadrant has sent reaches housekeeping, unless its request is not acknowledged (R26). -/
def drainHk (q : Quad) (d : Device) : Device :=
  if d.isl.stalled[xIndex (.toHk q)] then d else takeHk q (fifoOf d (.toHk q)) (setFifo (.toHk q) [] d)

/-- What a channel holds arrives. -/
def drain (x : Crossing) (d : Device) : Device :=
  match x with
  | .toQd q => drainQuad x q d
  | .toHk q => drainHk q d
  | .between _ b => drainQuad x b d

/-- CROSSING_MESSAGE: the oldest message of the channel is delivered, once, and its request is acknowledged (R20, R23, R26). -/
def crossingMessage (x : Crossing) (d : Device) : Device :=
  match fifoOf d x with
  | m :: rest =>
    let d := setFifo x rest d
    match x with
    | .toQd q => deliverQuad q m d
    | .toHk q => deliverHk q m d
    | .between _ b => deliverQuad b m d
  | [] => setFifo x [] d

/-- CROSSING_STALL: the request stays asserted and its source is raised (R26). -/
def crossingStall (x : Crossing) (d : Device) : Device :=
  raise (0x600 + (xIndex x).1) (d.updIsl fun i => { i with stalled := upd i.stalled (xIndex x) fun _ => true })

/-- LAUNCH_REQUEST: the request reaches its island after what was sent before it; behind a stalled channel it waits. -/
def launchRequest (i : Island) (a : LaunchAct) (time : Nat) (d : Device) : Device :=
  if d.start.st = .reset ∨ d.start.st = .init then d
  else if h : i.1 < 4 then
    let q : Quad := ⟨i.1, h⟩
    if d.isl.stalled[xIndex (.toQd q)] then send (.toQd q) (.launch ⟨a, time⟩) d else launchAt i ⟨a, time⟩ (drainQuad (.toQd q) q d)
  else launchAt i ⟨a, time⟩ d

/-! ### Time and the launches that it reaches (R21, R24, R25, R129, R130) -/

def isLaunch : Msg → Bool
  | .launch _ => true
  | _ => false

/-- A launch request is under way to a quadrant on a channel whose requests are acknowledged. -/
def launchUnderWay (d : Device) (q : Quad) : Bool := !d.isl.stalled[xIndex (.toQd q)] && (fifoOf d (.toQd q)).any isLaunch

/-- Launch requests under way arrive, with what was sent before them (R20, R22). -/
def launchesArrive (d : Device) : Device := forEach (allQuads.filter (launchUnderWay d)) (fun q => drainQuad (.toQd q) q) d

/-- Sub-ticks that a meaning lets pass. -/
def elapsed (f : Device → Device) (d : Device) : Nat := (f d).up - d.up

/-- No launch comes before the instant of a meaning: none is under way, and none that an island holds is reached before it, nor at it with a rank
below k. -/
def undisturbed (k : Nat) (f : Device → Device) (d : Device) : Bool :=
  (allQuads.all fun q => !launchUnderWay d q) &&
    match nextLaunch d with
    | some (w, r, _) => decide (elapsed f d < w ∨ (elapsed f d = w ∧ k ≤ r))
    | none => true

/-- Time passes to the next launch, and it is performed. -/
def launchNext (d : Device) : Device :=
  match nextLaunch d with
  | some (w, _, i) => launchFire i (pass w d)
  | none => d

/-- A meaning that lets time pass, with the launches before its instant performed first, in their order; at most n. -/
def withLaunches : Nat → Nat → (Device → Device) → Device → Device
  | 0, _, f, d => f d
  | n + 1, k, f, d =>
    if undisturbed k f d then f d
    else withLaunches n k f (if allQuads.any (launchUnderWay d) then launchesArrive d else launchNext d)

/-- The bound on launches within one command: more than the five islands can hold (R129). -/
def launchBound : Nat := 256

/-- A meaning of rank k among the launches of its instant (R24); 0 for what is no launch. -/
def timed (k : Nat) (f : Device → Device) (d : Device) : Device := withLaunches launchBound k f d

/-- The island whose launch of an action a command waits for: housekeeping, or the one quadrant of a region. -/
def leadIsland (a : LaunchAct) : Island := (launchIslands a).getLastD 4

/-- An island whose clock runs holds a launch of an action for an instant up to t. -/
def holdsLaunch (a : LaunchAct) (t : Nat) (d : Device) (i : Island) : Bool :=
  bitOf d.isl.clkRun.toNat i.1 && (d.isl.launches[i]).any fun l => decide (l.act = a ∧ l.time ≤ t)

/-- Launches are performed until the lead island has performed the action, and the other islands that reach it at the same instant. -/
def launchesUntil : Nat → LaunchAct → Nat → Device → Device
  | 0, _, _, d => d
  | n + 1, a, t, d =>
    let now := (nextLaunch d).any fun x => decide (x.1 = 0)
    if holdsLaunch a t d (leadIsland a) || (now && (List.finRange 5).any (holdsLaunch a t d)) then launchesUntil n a t (launchNext d) else d

/-- Instants for which an island holds launches of an action, the earliest first. -/
def launchTimes (a : LaunchAct) (d : Device) (i : Island) : List Nat := ((d.isl.launches[i]).filter fun l => decide (l.act = a)).map (·.time)

/-- A launch of an action has been issued and is still to be performed somewhere. -/
def launchIssued (a : LaunchAct) (d : Device) : Bool :=
  ((List.finRange 5).any fun i => !(launchTimes a d i).isEmpty) ||
    allQuads.any fun q => (fifoOf d (.toQd q)).any fun m => match m with | .launch l => decide (l.act = a) | _ => false

/-- The configuration launch of a reload has been issued, and housekeeping holds it. -/
def rearmIssued (d : Device) : Bool :=
  decide (d.reload.st = 4) && d.reload.written && decide (d.reload.rearmAt ∈ launchTimes .config (launchesArrive d) 4)

/-- RELOAD_REARM_LAUNCH: where its launch has been issued, every island performs it at its own instant. -/
def rearmRow (d : Device) : Device :=
  if rearmIssued d then launchesUntil launchBound .config d.reload.rearmAt (launchesArrive d) else timed 0 reloadRearm d

/-- A command that stands for a launch: where it has been issued, every island performs it at its own instant (R21); else f is its meaning. -/
def launchRow (a : LaunchAct) (f : Device → Device) (d : Device) : Device :=
  if launchIssued a d then
    let x := launchesArrive d
    match launchTimes a x (leadIsland a) with
    | t :: _ => launchesUntil launchBound a t x
    | [] => x
  else timed a.order f d

/-! ### Time alone -/

/-- All crossing channels of R19. -/
def allCrossings : List Crossing :=
  allQuads.map .toQd ++ allQuads.map .toHk ++ (allQuads.flatMap fun a => (allQuads.filter (· ≠ a)).map fun b => .between a b)

/-- What one tick of 100 ns brings by itself: what the crossings hold arrives, within the latency of R19, the launches that the islands' times
reach are performed (R21, R129), and a move of the bus state that holds at once is made (R302). -/
def tickPass (d : Device) : Device := busEval (timed 5 (waitUp (d.up + tick)) (forEach allCrossings drain d))

/-- One 100 ns tick passes on an empty queue (log entry 2). -/
def idle (s : State) : Host.Outcome State Fault Refusal := done tickPass s

/-! ### Commands -/

def isBudget (c : Chan) : Msg → Bool
  | .budget k _ => decide (k = c)
  | _ => false

def isBus : Msg → Bool
  | .bus _ => true
  | _ => false

def isTj : Msg → Bool
  | .tj _ => true
  | _ => false

/-- INPUT_BUDGET_ARRIVAL (R221). -/
def budgetArrival (c : Chan) (d : Device) : Device := arrive (Chan.quad c) (isBudget c) d

/-- BUS_STATE_ARRIVAL (R299). -/
def busArrival (q : Quad) (d : Device) : Device := arrive q isBus d

/-- THERMAL_UPDATE (R381, R382): the loss sums reach housekeeping, and every in-use model moves by 1 ms. -/
def thermalUpdate (d : Device) : Device := modelsUpdate (forEach allQuads drainHk d)

/-- TJ_ARRIVAL (R382). -/
def tjArrival (q : Quad) (d : Device) : Device := arrive q isTj d

def execLaunchRequest (isl : Island) (act : LaunchAct) (time : Nat) (s : State) : Host.Outcome State Fault Refusal := done (launchRequest isl act time) s
def execCrossingMessage (x : Crossing) (s : State) : Host.Outcome State Fault Refusal := done (crossingMessage x) s
def execCrossingStall (x : Crossing) (s : State) : Host.Outcome State Fault Refusal := done (crossingStall x) s
def execInputBudgetArrival (c : Chan) (s : State) : Host.Outcome State Fault Refusal := done (budgetArrival c) s
def execBusStateArrival (q : Quad) (s : State) : Host.Outcome State Fault Refusal := done (busArrival q) s
def execThermalUpdate (s : State) : Host.Outcome State Fault Refusal := done (fun d => busEval (thermalUpdate d)) s
def execTjArrival (q : Quad) (s : State) : Host.Outcome State Fault Refusal := done (tjArrival q) s

end Sys2Proof.Machine
end

