-- ==== Sys2Proof/Machine/Arbiter.lean ====
section
/-! DEFINITION. Sys2Proof/Machine/Arbiter.lean: the decisions of the 99 common arbiters and what a grant starts (01, R27 to R33; 09, R340, R343). -/

namespace Sys2Proof.Machine

/-- A halt conversion with its result at a local instant may still be granted: after the snapshot, ending by W less a margin (R202, R342,
R462). -/
def inWindow (d : Device) (ends margin : Nat) : Bool :=
  match d.halt.cur with
  | some h => decide (d.halt.phase = .quiet) && d.halt.snapped && decide (ends + margin ≤ h.start * tick + h.qlen * (10 * us))
  | none => false

/-- A request that is pending but may not be granted now: it keeps its age (R29, R340). -/
def mayNot (d : Device) (m : Pm) (idx : Nat) : Bool :=
  let v := convFor d m idx
  if clkRuns d (Pm.quad m) = false then true
  else if idx = 0 then !(d.halt.snapped && hlFits d m)
  else if idx = 8 then !inWindow d (convEnds d m 8 v.osr) (20 * us)
  else if v.halt then !inWindow d (convEnds d m idx v.osr) 0
  else convBlocked d m idx v.osr

/-- Units of a resource (R27). A spare is a unit while Newt may grant it (R450, R460). -/
def arbUnits (i : Fin 99) (d : Device) : Nat :=
  if h : i.1 < 4 then (if newtOpen d then (usableSlots d ⟨i.1, h⟩).length else 0)
  else if h : i.1 < 8 then (if newtOpen d then (usableMods d ⟨i.1 - 4, by omega⟩).length else 0)
  else 1

/-- Requesters of a modulator that may not be granted; none elsewhere. -/
def arbHeld (i : Fin 99) (d : Device) : List (Nat × Nat) :=
  if h : 8 ≤ i.1 ∧ i.1 < 96 then (d.arbs[i]).pending.filter fun r => mayNot d ⟨i.1 - 8, by omega⟩ r.1 else []

/-- Halt-locked entries of this halt that no longer fit are skipped as a whole, unless granted (R343); at most n. -/
def hlDrop : Nat → Pm → Device → Device
  | 0, _, d => d
  | n + 1, m, d =>
    match hlHead d m with
    | some t =>
      if d.halt.snapped ∧ d.halt.phase = .quiet ∧ 0 ∉ (d.arbs[mport m]).granted ∧ hlFits d m = false then
        let d := d.updMod m fun s => { s with hlQueue := s.hlQueue.filter fun x => decide (x.1 ≠ t) }
        hlDrop n m (if (hlHead d m).isNone then arbWithdraw (mport m) 0 d else d)
      else d
    | none => d

/-- Grant of requester 3: one codeword of a capture buffer (R28, R439). -/
def captureWrite (d : Device) : Device :=
  match d.col.capQ with
  | [] => d
  | w :: rest =>
    let d := memWrite w.1 w.2 (d.updCol fun c => { c with capQ := rest })
    if rest = [] then d else arbRequest wport 3 d

/-- Grant of requester 10: one codeword of the mirror, in the build or reload in progress (R28, R62, R472). -/
def mirrorWrite (d : Device) : Device :=
  match (mirrorLeft d).2 with
  | [] => d
  | k :: rest =>
    let d := (memWrite (32 * k) (mdump (mirrorLeft d).1 (32 * k) 32) d).updMem fun x => { x with mirrorAt := x.mirrorAt + 1 }
    if rest = [] then d else arbRequest wport 10 d

/-- What a grant of the memory write port starts. A codeword write ends at once; the grant of the log and of a ring writer lasts to its record. -/
def portGrant (w : Nat) (d : Device) : Device :=
  match w with
  | 0 => writeBack (arbRelease wport w d)
  | 1 => rowCopy (arbRelease wport w d)
  | 3 => captureWrite (arbRelease wport w d)
  | 9 => modelStore (arbRelease wport w d)
  | 10 => mirrorWrite (arbRelease wport w d)
  | _ => d

/-- The record of the requester that holds the memory write port is written, which ends its grant. -/
def portFinish (d : Device) : Device :=
  match (d.arbs[wport]).granted with
  | w :: _ => if w = 2 then logRecordWrite d else if 4 ≤ w ∧ w ≤ 8 then ringRecordWrite (Fin.ofNat 5 (w - 4)) d else arbRelease wport w d
  | [] => d

/-- One decision of the memory write port. -/
def portDecide (d : Device) : Device :=
  let a := d.arbs[wport]
  let b := arbDecide (ageLimit d 96) 1 96 a
  let d := d.updArb wport fun _ => b
  match b.granted.drop a.granted.length with
  | w :: _ => portGrant w d
  | [] => d

/-- The memory write port serves what requests it until only one requester is left, whose request has age 0: its further grants are neither urgent nor
make another wait. At most n grants (R27, R28, R33; log entry 127). -/
def portServe : Nat → Nat → Device → Device
  | 0, _, d => d
  | n + 1, own, d =>
    let a := d.arbs[wport]
    if a.granted ≠ [] then portServe n own (portFinish d)
    else if a.pending.any fun r => decide (r.1 ≠ own ∨ 0 < r.2) then portServe n own (portDecide d)
    else d

/-- Grants that serve every queue of the port. -/
def portAll : Nat := 32768

/-- What a grant starts. The grant of a spare is used up; other grants last until their command ends them. -/
def grantEffect (i : Fin 99) (w : Nat) (d : Device) : Device :=
  if h : i.1 < 4 then grantSlot ⟨i.1, h⟩ w (arbRelease i w d)
  else if h : i.1 < 8 then grantMod ⟨i.1 - 4, by omega⟩ w (arbRelease i w d)
  else if h : i.1 < 96 then convStart ⟨i.1 - 8, by omega⟩ w d
  else if i.1 = 96 then portGrant w d
  else if i.1 = 97 then
    d.updBoot fun b =>
      let tx := if w = 0 then b.want0 else if w = 1 then b.want1 else b.want2
      { b with cur := tx.map fun x => (w, x), started := false }
  else d.updSup fun u => { u with poll := some w, polling := false, backoff := false, lostRun := 0 }

/-- ARBITER_DECISION. -/
def arbiterDecision (i : Fin 99) (d : Device) : Device :=
  if d.start.st = .reset then d
  else
    let d := if h : 8 ≤ i.1 ∧ i.1 < 96 then hlDrop 5 ⟨i.1 - 8, by omega⟩ d else d
    let held := arbHeld i d
    let a := d.arbs[i]
    let b := arbDecide (ageLimit d i.1) (arbUnits i d) i.1 { a with pending := a.pending.filter fun r => !held.contains r }
    let d := d.updArb i fun _ => { b with pending := b.pending ++ held }
    match b.granted.drop a.granted.length with
    | w :: _ => grantEffect i w d
    | [] => d

/-- MIRROR_BUILT: the port's other requesters are served among the mirror's codewords; the last of these completes it. -/
def buildMirror (d : Device) : Device :=
  if d.start.st = .build ∧ d.start.modeUnstable = false ∧ d.start.checking = false then mirrorBuilt (portServe portAll 10 d) else d

/-- RELOAD_WRITE_DONE, likewise. -/
def finishReload (d : Device) : Device :=
  if d.reload.st = 4 ∧ d.reload.written = false then reloadWriteDone (portServe portAll 10 d) else d

/-- CAPTURE_BUFFER_COMPLETE, likewise. -/
def finishCapture (b : Fin 16) (d : Device) : Device :=
  if d.col.caps.any fun c => decide (c.buf = b.1) then captureComplete b (portServe portAll 3 d) else d

def execMirrorBuilt (s : State) : Host.Outcome State Fault Refusal := done buildMirror s
def execReloadWriteDone (s : State) : Host.Outcome State Fault Refusal := done finishReload s
def execArbiterDecision (i : Fin 99) (s : State) : Host.Outcome State Fault Refusal := done (arbiterDecision i) s

end Sys2Proof.Machine
end

