-- ==== Sys2Proof/Machine/StatusMap.lean ====
section
/-! DEFINITION. Sys2Proof/Machine/StatusMap.lean: the internal address space (14): which word an address names, what the word reads as, and what reading it
or writing 1 to it clears. Each word cites the rule of its layout. -/

namespace Sys2Proof.Machine

/-- A word of the address space (R525): a memory word by its address, or a word of a block by instance and offset. -/
inductive WordAt where
  | mem (a : Nat)
  | dev (o : Nat)
  | isl (i : Island) (o : Nat)
  | chan (c : Chan) (o : Nat)
  | slot (n : Slot) (o : Nat)
  | pm (m : Pm) (o : Nat)
  | ring (n : Ring) (o : Nat)
  | model (m : Model) (o : Nat)
  | arb (i : Fin 99)
  | fsrc (f : Fsrc) (o : Nat)
  deriving DecidableEq, Repr

/-! ### Assigned addresses (R526, R531 to R536) -/

def devOffsets : List Nat :=
  [0x000, 0x004, 0x008, 0x00C, 0x010, 0x014, 0x020, 0x024, 0x028, 0x030, 0x034, 0x038, 0x040, 0x044, 0x048, 0x04C, 0x050, 0x054, 0x060, 0x064,
    0x070, 0x074, 0x078, 0x080, 0x084] ++ (List.range 10).map (fun t => 0x090 + 4 * t) ++ [0x100, 0x104] ++
  (List.range 4).map (fun i => 0x110 + 4 * i) ++ (List.range 4).map (fun i => 0x120 + 4 * i) ++ (List.range 18).map (fun i => 0x130 + 4 * i) ++
  [0x178, 0x200, 0x204, 0x208, 0x20C, 0x210, 0x220, 0x224, 0x280, 0x284, 0x288] ++ (List.range 8).map (fun b => 0x290 + 4 * b) ++
  [0x2B0, 0x2B4, 0x300, 0x304, 0x308, 0x30C, 0x310, 0x314, 0x318, 0x31C, 0x320]

def islOffsets (i : Nat) : List Nat := if i < 4 then [0x000, 0x010, 0x014, 0x020, 0x024, 0x028] else [0x000]

def chanOffsets : List Nat :=
  [0x00, 0x04, 0x08, 0x0C, 0x10, 0x14, 0x18, 0x1C, 0x20, 0x24, 0x28, 0x2C, 0x30, 0x34, 0x38, 0x3C, 0x40, 0x44, 0x50, 0x54, 0x58, 0x5C]

/-- Instance and offset of an address in an array of blocks of a stride, if it lies in one of n blocks. -/
def inBlock (a base stride n : Nat) : Option (Nat × Nat) :=
  if base ≤ a ∧ a < base + stride * n then some ((a - base) / stride, (a - base) % stride) else none

/-- The word at an internal address; none where the address is unassigned. -/
def locate (a : Nat) : Option WordAt :=
  if a % 4 ≠ 0 then none
  else if a < 0x100000 then some (.mem a)
  else if a < 0x101000 then (if a - 0x100000 ∈ devOffsets then some (.dev (a - 0x100000)) else none)
  else if a < 0x101500 then
    let i := (a - 0x101000) / 256
    let o := (a - 0x101000) % 256
    if o ∈ islOffsets i then some (.isl (Fin.ofNat 5 i) o) else none
  else match inBlock a 0x110000 128 32 with
  | some (c, o) => if o ∈ chanOffsets then some (.chan (Fin.ofNat 32 c) o) else none
  | none => match inBlock a 0x120000 32 136 with
  | some (n, o) => if o ≤ 0x14 then some (.slot (Fin.ofNat 136 n) o) else none
  | none => match inBlock a 0x130000 16 88 with
  | some (m, o) => some (.pm (Fin.ofNat 88 m) o)
  | none => match inBlock a 0x131000 8 32 with
  | some (n, o) => some (.ring (Fin.ofNat 32 n) o)
  | none => match inBlock a 0x140000 8 172 with
  | some (m, o) => some (.model (Fin.ofNat 172 m) o)
  | none => match inBlock a 0x150000 4 99 with
  | some (i, _) => some (.arb (Fin.ofNat 99 i))
  | none => match inBlock a 0x160000 8 2048 with
  | some (f, o) => some (.fsrc (Fin.ofNat 2048 f) o)
  | none => none

/-- Quadrant that holds a word (R537): the blocks of its channels, slots and modulators, and its own but for `ISL_ST` (R532). -/
def WordAt.quad : WordAt → Option Quad
  | .isl i o => if h : i.1 < 4 ∧ o ≠ 0 then some ⟨i.1, h.1⟩ else none
  | .chan c _ => some (Chan.quad c)
  | .slot n _ => some (Slot.quad n)
  | .pm m _ => some (Pm.quad m)
  | _ => none

/-- R538: the quadrant's clock runs and neither of its crossings with housekeeping has stalled. -/
def quadAnswers (d : Device) (q : Quad) : Bool :=
  bitOf d.isl.clkRun.toNat q.1 && !d.isl.stalled[xIndex (.toQd q)] && !d.isl.stalled[xIndex (.toHk q)]

def WordAt.readable (d : Device) (w : WordAt) : Bool := match w.quad with | some q => quadAnswers d q | none => true

/-! ### Reading -/

/-- A word from its fields (value, lowest bit, width); every other bit reads 0 (R3). -/
def pack (l : List (Nat × Nat × Nat)) : Nat := (l.map fun f => f.1 % 2 ^ f.2.2 * 2 ^ f.2.1).sum

def roleCode : CvnRole → Nat
  | .follower => 0 | .leader => 1 | .deputy => 2 | .acting => 3 | .returning => 4 | .alone => 5
def timeCode : TimeState → Nat
  | .track => 0 | .hold => 1 | .reacq => 2 | .stepWait => 3

/-- Mask of the instances that satisfy a predicate. -/
def maskOf {n : Nat} (f : Fin n → Bool) : Nat := ((List.finRange n).map fun i => if f i then 2 ^ i.1 else 0).sum

/-- Whole units left until an instant, a unit begun counting whole. -/
def leftUntil (now : Nat) (t : Option Nat) (unit : Nat) : Nat := match t with | some t => (t - now + unit - 1) / unit | none => 0

/-- A service unlock is in force (R506, R508); a lockout is in force (R507). -/
def unlocked (d : Device) : Bool := match d.sup.unlockEnd with | some t => decide (d.up < t) | none => false
def lockedOut (d : Device) : Bool := match d.sup.lockoutEnd with | some t => decide (d.up < t) | none => false
/-- `BAD_CODES` is 0 again once a lockout is over. -/
def badCodes (d : Device) : Nat := if d.sup.lockoutEnd.isSome ∧ lockedOut d = false then 0 else d.sup.badCodes.toNat

def nActive (d : Device) : Nat := (d.faults.toList.filter fun y => y.active).length

/-- R40. -/
def devState (d : Device) : Nat :=
  let s := d.start
  pack [(s.st.code, 0, 4), (b2n (d.loader.built && d.loader.runEnable), 4, 1), (s.joinResult.toNat, 5, 3), (b2n s.modeUnstable, 8, 1),
    (b2n s.strapChanged, 9, 1), (b2n s.logRetained, 10, 1), (b2n s.latchAtStart, 11, 1), (s.qdInitFail.toNat, 12, 4),
    (s.straps.cvnId.toNat, 16, 4), (b2n s.straps.leader, 20, 1), (b2n s.straps.deputy, 21, 1), (d.mode.active.toNat, 22, 4)]

/-- R45. -/
def resetCause (d : Device) : Nat :=
  let s := d.start
  pack [(b2n s.por, 0, 1), (b2n s.brownout, 1, 1), (b2n s.pin, 2, 1), (b2n s.svc, 3, 1), (s.railLow.toNat, 4, 4), (s.warmResets.toNat, 16, 16)]

/-- R162. -/
def cvnSt (d : Device) : Nat :=
  let c := d.cvn
  pack [(roleCode c.role, 0, 3), (c.refSrc.toNat, 3, 2), (b2n c.holdover, 5, 1), (b2n (aligned d), 6, 1), (b2n c.ringOpen, 7, 1),
    (b2n c.ringMismatch, 8, 1), (b2n c.leaderLost, 9, 1), (b2n c.rivalLeader, 10, 1), (c.srcId.toNat, 11, 4), (c.ringPos.toNat, 15, 4),
    (b2n c.posUnknown, 19, 1), (timeCode c.timeState, 20, 2)]

/-- R412. -/
def hkSt (d : Device) : Nat :=
  let h := d.hk
  pack [(h.sensBad.toNat, 0, 8), (h.railErr.toNat, 8, 8), (b2n h.refOnB, 16, 1), (b2n h.refDisagree, 17, 1), (b2n h.refaBad, 18, 1),
    (b2n h.refbBad, 19, 1), (b2n h.trimLimit, 20, 1), (b2n h.tempLost, 21, 1), (b2n h.dieHot, 22, 1), (h.clFallback.toNat, 23, 4)]

/-- Two halfwords of a pairing (R412). -/
def halves (f : Nat → Nat) (i : Nat) : Nat := pack [(f (2 * i), 0, 16), (f (2 * i + 1), 16, 16)]

/-- R445, with `FLT_ASSERTED` as the pins stand. -/
def collectorWord (d : Device) : Nat :=
  pack [(d.col.firstDev.toNat, 0, 12), (b2n (decide (d.col.devHolders ≠ [])), 12, 1), (b2n (decide (d.col.latchHolders ≠ [])), 13, 1),
    (b2n d.pins.fltP, 14, 1), (b2n d.col.aliveRun, 15, 1), (nActive d, 16, 12)]

/-- R108. -/
def modeSt (d : Device) : Nat :=
  let m := d.mode
  pack [((m.deb.getD 0).toNat, 0, 4), (m.active.toNat, 4, 4), (m.pending.toNat, 8, 4), (m.phase.toNat, 12, 2), (m.reason.toNat, 14, 8),
    (b2n m.disagree, 22, 1), (b2n m.late, 23, 1), (m.refusals.toNat, 24, 8)]

/-- R363. -/
def calSt (d : Device) : Nat :=
  let c := d.cal
  pack [(c.mod.toNat, 0, 7), (c.step.toNat, 8, 3), (c.reason.toNat, 11, 8), (b2n c.pending, 19, 1), (b2n c.busy, 20, 1), (c.commitA.toNat, 21, 2),
    (c.commitB.toNat, 23, 2)]

/-- R524. -/
def supSt (d : Device) : Nat :=
  pack [(d.sup.cmdRefused.toNat, 0, 16), (b2n (unlocked d), 16, 1), (if unlocked d then leftUntil d.up d.sup.unlockEnd sec else 0, 17, 6),
    (b2n (lockedOut d), 23, 1), (badCodes d, 24, 2)]

/-- R515. -/
def alertWord (d : Device) : Nat := pack [(d.sup.alert.toNat, 0, 7), (d.sup.alertFsrc.toNat, 16, 12)]

/-- R348: word 0 and 1 of a table. -/
def seqWord (d : Device) (k : Nat) : Nat :=
  let s := d.seqs[(Fin.ofNat 5 (k / 2) : Table)]
  if k % 2 = 0 then pack [(s.entry.1, 0, 6), (b2n s.waitHalt, 6, 1), (b2n s.running, 7, 1), (s.passes.toNat, 16, 16)]
  else pack [(s.hlMissed.toNat, 0, 16), (s.skipped.toNat, 16, 16)]

/-- Words of the device block from 0x100 on (R531). -/
def devWordHi (d : Device) (o : Nat) : Nat :=
  if o = 0x100 then hkSt d
  else if o = 0x104 then pack [(encSigned (satInt d.hk.delta (-8388608) 8388607) 24, 0, 24), (d.hk.late.toNat, 24, 8)]
  else if o < 0x120 then halves (fun s => unitsSigned d.hk.dieT[(Fin.ofNat 8 s)] 16 16) ((o - 0x110) / 4)
  else if o < 0x130 then halves (fun i => unitsOf d.hk.railV[(Fin.ofNat 8 i)] 1000 16) ((o - 0x120) / 4)
  else if o < 0x178 then halves (fun i => unitsOf d.hk.fbV[(Fin.ofNat 36 i)] 1000 16) ((o - 0x130) / 4)
  else if o = 0x178 then
    pack [(maskOf (n := 18) fun i => (d.paths[(Fin.ofNat 32 i.1 : Chan)]).fbSag, 0, 18),
      (maskOf (n := 14) fun i => (d.paths[(Fin.ofNat 32 i.1 : Chan)]).fbHi, 18, 14)]
  else if o = 0x200 then collectorWord d
  else if o = 0x204 then pack [(d.col.logWr.toNat, 0, 16), (d.col.logRd.toNat, 16, 16)]
  else if o = 0x208 then pack [(d.col.logOvw.toNat, 0, 16), (d.col.logLost.toNat, 16, 16)]
  else if o = 0x20C then pack [(d.col.capBusy.toNat, 0, 16), (d.col.capFull.toNat, 16, 16)]
  else if o = 0x210 then d.col.capMissed.toNat
  else if o = 0x220 then fiMemWord d
  else if o = 0x224 then fiRailWord d
  else if o = 0x280 then pack [(d.memory.ceCnt.toNat, 0, 16), (d.memory.ueCnt.toNat, 16, 16)]
  else if o = 0x284 then pack [(d.memory.rowsOut.toNat, 0, 8), (d.memory.scrubPass.toNat, 16, 16)]
  else if o = 0x288 then pack [(d.hk.oscLost.toNat, 0, 10), (d.hk.oscOn1.toNat, 10, 5)]
  else if o < 0x2B0 then pack [(d.memory.rowsUsed[(Fin.ofNat 8 ((o - 0x290) / 4))], 0, 7)]
  else if o = 0x2B0 then
    pack [(d.reload.st.toNat, 0, 3), (b2n d.reload.image, 3, 1), (b2n d.reload.quad, 4, 1), (d.reload.obj.toNat, 5, 5), (d.reload.reason.toNat, 10, 8)]
  else if o = 0x2B4 then pack [(d.reload.ms.toNat, 0, 16), (d.reload.count.toNat, 16, 16)]
  else if o = 0x300 then alertWord d
  else if o = 0x304 then d.sup.alertRings.toNat
  else if o = 0x308 then
    pack [(d.bootp.nvmOp.toNat, 0, 2), (d.bootp.nvmLast.toNat, 2, 2), (b2n d.bootp.nvmImage, 4, 1), (d.bootp.nvmOfs.toNat, 5, 18),
      (d.bootp.nvmLen.toNat, 23, 7)]
  else if o = 0x30C then pack [(d.bootp.nvmWrites.toNat, 0, 16), (d.bootp.nvmFails.toNat, 16, 16)]
  else if o = 0x310 then pack [(d.sup.pecErr.toNat, 0, 16), (d.sup.busErr.toNat, 16, 16)]
  else if o = 0x314 then pack [(d.sup.timeouts.toNat, 0, 16), (d.sup.arbLost.toNat, 16, 16)]
  else if o = 0x318 then supSt d
  else if o = 0x31C then pack [(d.sup.pollFail.toNat, 0, 16), (d.sup.pollRounds.toNat, 16, 16)]
  else pack [(d.memory.ueAddr.toNat, 0, 20), (b2n d.memory.ueValid, 20, 1)]

/-- Words of the device block (R531). `STG_PENDING` is set from the dealing instant on (DESIGN CHOICE, log entry 165). -/
def devWord (d : Device) (o : Nat) : Nat :=
  if o = 0x000 then devState d
  else if o = 0x004 then resetCause d
  else if o = 0x008 then
    pack [(d.loader.bootImage.toNat, 0, 2), (d.loader.aResult.toNat, 2, 4), (d.loader.bResult.toNat, 6, 4), (d.loader.loadAttempts.toNat, 10, 16)]
  else if o = 0x00C then pack [(d.loader.loadMs.toNat, 0, 16), (d.loader.retries.toNat, 16, 16)]
  else if o = 0x010 then
    pack [(d.check.reason.toNat, 0, 8), (b2n d.check.done, 8, 1), (d.check.object.toNat, 9, 12), (d.check.trigger.toNat, 21, 4)]
  else if o = 0x014 then pack [(d.button.ignored.toNat, 0, 16), (b2n d.button.armed, 16, 1)]
  else if o = 0x020 then modeSt d
  else if o = 0x024 then d.mode.halt.toNat
  else if o = 0x028 then pack [(d.mode.lastAccept.toNat, 0, 16), (d.mode.lastRefuse.toNat, 16, 16)]
  else if o = 0x030 then pack [(d.check.detReason.toNat, 0, 8), (d.check.detTrigger.toNat, 8, 4)]
  else if o = 0x034 then pack [(d.check.detObject.toNat, 0, 12), (d.check.detAddr.toNat, 12, 20)]
  else if o = 0x038 then pack [(d.check.detDelta.toNat, 0, 12)]
  else if o = 0x040 then cvnSt d
  else if o = 0x044 then pack [(encSigned (satInt d.cvn.timeErr (-32767) 32767) 16, 0, 16), (d.cvn.frameErrs.toNat, 16, 16)]
  else if o = 0x048 then d.cvn.rtMeas.toNat
  else if o = 0x04C then pack [(d.cvn.members.toNat, 0, 16), (d.cvn.dropped.toNat, 16, 16)]
  else if o = 0x050 then d.halt.last.toNat
  else if o = 0x054 then pack [(d.halt.predicted.toNat, 0, 16), (d.halt.skipped.toNat, 16, 16)]
  else if o = 0x060 then pack [(unitsOf d.stg.gain 32768 16, 0, 16), ((pulsedSet d).length, 16, 6), (b2n d.stg.newDeal.isSome, 22, 1)]
  else if o = 0x064 then maskOf (n := 32) fun c => (d.profs[c]).slot.isSome
  else if o = 0x070 then
    pack [(d.bus.st.code, 0, 3), (b2n d.bus.halving, 3, 1), (maskOf (n := 4) fun q => (d.quads[q]).stale, 4, 4), (d.bus.hoCnt.toNat, 16, 16)]
  else if o = 0x074 then pack [(unitsOf d.bus.vSys 16 16, 0, 16), (unitsOf d.bus.b 4 16, 16, 16)]
  else if o = 0x078 then unitsOf d.bus.p 1 32
  else if o = 0x080 then calSt d
  else if o = 0x084 then d.nobind.toNat
  else if o < 0x100 then seqWord d ((o - 0x090) / 4)
  else devWordHi d o

/-- Words of the island blocks (R532, R477, R323, R533). `S_QUAL_MS` reads the whole ms of a qualification, 0 where none runs (DESIGN CHOICE, log
entry 166). -/
def islWord (d : Device) (i : Island) (o : Nat) : Nat :=
  if h : o ≠ 0 ∧ i.1 < 4 then
    let q : Quad := ⟨i.1, h.2⟩
    let s := d.srcs[q]
    if o = 0x010 then
      pack [(maskOf (n := 22) fun p => let m : Pm := Fin.ofNat 88 (22 * q.1 + p.1); (d.mods[m]).failed || markedBad d m, 0, 22),
        (b2n (d.loader.built && decide (usableMods d q = [])), 22, 1)]
    else if o = 0x014 then
      pack [((d.quads[q]).xf20.toNat, 0, 3), ((d.quads[q]).xf21.toNat, 3, 3), (b2n ((quadChans q).any fun c => (d.paths[c]).blind), 6, 1)]
    else if o = 0x020 then
      pack [(s.st.code, 0, 3), (b2n s.bandWait, 3, 1), (b2n d.pins.sgate[q], 4, 1), (b2n s.isOver, 5, 1), (b2n s.isRev, 6, 1), (b2n s.stuck, 7, 1),
        (s.revCnt.toNat, 16, 16)]
    else if o = 0x024 then
      pack [(unitsSigned s.i 4 16, 0, 16), (match s.qualAt with | some t => min 65535 ((d.up - t) / ms) | none => 0, 16, 16)]
    else pack [(b2n s.fbSag, 0, 1), (b2n s.fbHi, 1, 1)]
  else pack [(b2n d.isl.late[i], 0, 1), (b2n (bitOf d.isl.clkRun.toNat i.1), 1, 1), ((d.isl.launches[i]).length, 2, 6)]

/-- Slots shed from a channel, by their position in the quadrant (R241). -/
def shedMask (d : Device) (c : Chan) : Nat :=
  maskOf (n := 34) fun i => decide ((d.slots[(Fin.ofNat 136 (34 * (Chan.quad c).1 + i.1) : Slot)]).shedFrom = some c)

/-- `CH_ST` (R241). -/
def chSt (d : Device) (c : Chan) : Nat :=
  let s := d.chans[c]
  pack [(s.st.code, 0, 3), (b2n s.gate, 3, 1), (b2n s.enablePending, 4, 1), (b2n s.noMember, 5, 1), (b2n s.headroom, 6, 1),
    (b2n (halvedIn d c), 7, 1), (b2n s.chlim, 8, 1), (s.limitBy.toNat, 9, 3), (s.stopCause.toNat, 12, 3), (s.reason.toNat, 15, 8),
    (s.nMem, 23, 5), (b2n s.rearmRefused, 28, 1)]

/-- `PF_ST` (R280). -/
def pfSt (d : Device) (c : Chan) : Nat :=
  let p := d.profs[c]
  pack [(p.phase.code, 0, 3), (b2n p.paused, 3, 1), (b2n p.inRest, 4, 1), (b2n p.slot.isSome, 5, 1), ((p.slot.getD 0).1, 6, 5), (p.kind.toNat, 11, 2),
    (b2n p.assessDisturbed, 13, 1), (b2n p.finTimeout, 14, 1), (b2n p.unrelaxed, 15, 1), (p.doneRun.toNat, 16, 8), (p.assessTry.toNat, 24, 8)]

/-- `WAIT_FOR` (R324). -/
def waitFor (p : PathSt) : Nat := if p.st ≠ .wait then 0 else if p.retryAt.isSome then 1 else if 1 / 2 ≤ p.hmem then 2 else 0

/-- Words of the path switch (R324, R533). -/
def pathWord (d : Device) (c : Chan) (o : Nat) : Nat :=
  let p := d.paths[c]
  if o = 0x50 then
    pack [(p.st.code, 0, 4), (waitFor p, 4, 2), (b2n p.belowSys, 6, 1), (b2n (p.collapseAt.isSome && !p.holdOver), 7, 1), (b2n p.tripInst, 8, 1), (b2n p.tripCurve, 9, 1),
      (b2n p.ovwHit, 10, 1), (unitsOf p.hmem 32768 16, 16, 16)]
  else if o = 0x54 then pack [(min 65535 (leftUntil d.up p.retryAt (100 * ms)), 0, 16), (p.tripCnt.toNat, 16, 16)]
  else if o = 0x58 then pack [(if d.powerOn then unitsOf (gateNow d c * 1024 / 3) 1 10 else 0, 0, 10), (b2n p.fbHigh, 10, 1), (p.revCnt.toNat, 16, 16)]
  else pack [(b2n p.fbSag, 0, 1), (b2n p.fbHi, 1, 1)]

/-- Words of the channel blocks (R534). -/
def chanWord (d : Device) (c : Chan) (o : Nat) : Nat :=
  let s := d.chans[c]
  let p := d.profs[c]
  if o = 0x00 then chSt d c
  else if o = 0x04 then pack [(unitsOf s.icmd 16 16, 0, 16), (unitsOf s.iceil 16 16, 16, 16)]
  else if o = 0x08 then pack [(unitsSigned s.imeas 16 16, 0, 16), (unitsOf s.ipk 32 16, 16, 16)]
  else if o = 0x0C then pack [(unitsOf s.cut 16 16, 0, 16), (s.chlimCnt.toNat, 16, 16)]
  else if o = 0x10 then shedMask d c % 2 ^ 32
  else if o = 0x14 then pack [(shedMask d c / 2 ^ 32, 0, 2), (s.shedCnt.toNat, 2, 16)]
  else if o = 0x18 then pack [(s.narrowI.toNat, 0, 16), (s.narrowV.toNat, 16, 16)]
  else if o = 0x1C then b2n s.hostStop
  else if o = 0x20 then pfSt d c
  else if o = 0x24 then pack [(p.vLast.toNat, 0, 24), (p.ratio.toNat, 24, 8)]
  else if o = 0x28 then pack [(unitsOf p.iprof 16 16, 0, 16), (pfMinutes d c, 16, 16)]
  else if o = 0x2C then pack [(p.disturbed.toNat, 0, 16), (p.incomplete.toNat, 16, 16)]
  else if o = 0x30 then pack [(p.fallback.toNat, 0, 16), (p.skippedRests.toNat, 16, 16)]
  else if o = 0x34 then p.qIn / 65536 % 2 ^ 32
  else if o = 0x38 then p.qInHi.toNat
  else if o = 0x3C then p.qOut / 65536 % 2 ^ 32
  else if o = 0x40 then p.qOutHi.toNat
  else if o = 0x44 then pack [(p.qGaps.toNat, 0, 16), (p.qRecon.toNat, 16, 16)]
  else pathWord d c o

/-- Frequency fold of the slot's channel (R192). -/
def ffActive (d : Device) (n : Slot) : Bool := match memberOf d n with | some c => foldIn d c | none => false

/-- `SLOT_NEWT` (R476). -/
def slotNewt (d : Device) (n : Slot) : Nat :=
  let s := d.slots[n]
  let role := if s.bad then 3 else if s.repl.isSome then 2 else if isSpareSlot d n then 1 else 0
  pack [(role, 0, 2), (match s.forCh with | some c => c.1 | none => 0, 2, 5), (match s.repl with | some r => r.1 | none => 0xFF, 7, 8),
    (b2n s.promoted, 15, 1), (min 31 s.probHalts, 16, 5), (min 31 s.probPass, 21, 5), (b2n s.probLong, 26, 1), (b2n s.probLastFail, 27, 1),
    (b2n s.newtRefused, 28, 1)]

/-- Words of the slot blocks (R535, R210, R211, R200). `WIN_HI` and `WIN_LO` show the comparator itself, whatever `CS_POL` (log entry 132). -/
def slotWord (d : Device) (n : Slot) (o : Nat) : Nat :=
  let s := d.slots[n]
  if o = 0x00 then
    pack [(phState d n, 0, 2), (b2n (decide (s.cmp = .above)), 2, 1), (b2n (decide (s.cmp = .below)), 3, 1), (b2n s.capped, 4, 1), (b2n (ffActive d n), 5, 1),
      (b2n s.tadpole, 6, 1), (b2n s.dfltSeen, 7, 1), (b2n s.thrErr, 8, 1), (b2n s.cmpErr, 9, 1), (s.cycCnt.toNat, 10, 16)]
  else if o = 0x04 then pack [(unitsOf s.ipkAvg 32 16, 0, 16), (encSigned (satInt s.balErr (-32768) 32767) 16, 16, 16)]
  else if o = 0x08 then pack [(s.overcapCnt.toNat, 0, 16), (s.skipCnt.toNat, 16, 16)]
  else if o = 0x0C then
    let v := s.readable
    pack [(v.toff.toNat, 0, 20), (v.cend.toNat, 20, 2), (b2n v.copen, 22, 1), (b2n v.cflat, 23, 1), (b2n s.new, 30, 1), (b2n s.overcap, 31, 1)]
  else if o = 0x10 then pack [(s.readable.tlow.toNat, 0, 20), (b2n s.readable.noLow, 20, 1), (s.readable.ucode.toNat, 21, 10)]
  else slotNewt d n

/-- Words of the modulator blocks (R379). Before the mirror is built no role is known (log entry 133). -/
def pmWord (d : Device) (m : Pm) (o : Nat) : Nat :=
  let s := d.mods[m]
  if o = 0 then
    let r := if idleSpare d m then 7 else roleEff d m
    let f := if (d.mods[m]).bad then m.1 else (roleHome d m).1
    pack [(if d.loader.built then r else 0, 0, 4), (b2n s.acting.isSome, 4, 1), (if d.loader.built then f else 0, 5, 7), (b2n (s.streamOk && clkRuns d (Pm.quad m) && streamRole d m), 12, 1), (b2n s.ovr, 13, 1),
      (b2n s.degraded, 14, 1), (b2n s.injHost.isSome, 15, 1)]
  else if o = 4 then s.snap.toNat
  else if o = 8 then s.snapHalt.toNat
  else s.inj.toNat

/-- Words of the ring blocks (R378). -/
def ringWord (d : Device) (n : Ring) (o : Nat) : Nat :=
  let s := d.rings[n]
  if o = 0 then pack [(s.wr.toNat, 0, 16), (s.rd.toNat, 16, 16)] else pack [(s.ovf.toNat, 0, 16), (s.lost.toNat, 16, 16)]

/-- Words of the model blocks (R411). -/
def modelWord (d : Device) (m : Model) (o : Nat) : Nat :=
  let x := d.therm[m]
  let t := if modelInUse d m.1 then x.tj else coolant d (tmCl d m)
  if o = 0 then pack [(unitsSigned t 16 16, 0, 16), (unitsOf x.p 4 16, 16, 16)]
  else pack [(unitsOf x.kth 1024 11, 0, 11), (b2n x.derate, 11, 1), (b2n x.trip, 12, 1), (b2n x.reinit, 13, 1), (unitsSigned (x.peak.getD 0) 16 16, 16, 16)]

/-- Arbiter words (R33). -/
def arbWord (d : Device) (i : Fin 99) : Nat :=
  let a := d.arbs[i]
  pack [(a.urgent.toNat, 0, 16), (ageHeld a, 16, 6), (ageLimit d i.1, 22, 4)]

/-- Remaining quiet period of a held source in sub-ticks (R425, R444): whole while the source reads active; a breaker trip, which ends by a toggle,
has none (R419). -/
def quietLeft (d : Device) (f : Fsrc) : Nat :=
  let y := d.faults[f]
  if y.hold = false ∨ y.latched ∨ effSev d f.1 = .breaker then 0
  else match y.quietAt with
    | some t => t + frQuiet d (fsProf d f) - d.loc
    | none => frQuiet d (fsProf d f)

/-- Words of the fault sources (R444); those of a reserved index read 0 (R536). A reaction that waits for the RUN launch is not in force (log
entry 148). -/
def fsrcWord (d : Device) (f : Fsrc) (o : Nat) : Nat :=
  if (scopeOf f.1).isNone then 0
  else
    let y := d.faults[f]
    if o = 0 then
      pack [(b2n y.active, 0, 1), (b2n y.rpath, 1, 1), (b2n (y.hold && !y.pre), 2, 1), (b2n y.latched, 3, 1), (b2n y.inj, 4, 1),
        (if d.loader.built then (effSev d f.1).code else 0, 5, 3), (winNow d f, 8, 8), (y.recov.toNat, 16, 16)]
    else pack [(y.count.toNat, 0, 16), (min 65535 ((quietLeft d f + 100 * ms - 1) / (100 * ms)), 16, 16)]

/-! ### Reserved bits of the mirror (R3, R502) -/

/-- The mask of the word at an offset of a record, 0 where the record holds none. -/
def maskAt (l : List (Nat × Nat)) (o : Nat) : Nat := (l.lookup o).getD 0

/-- DEVICE (R85, R87, R424, R395). -/
def deviceMask (o : Nat) : Nat :=
  if 0x100 ≤ o ∧ o < 0x28C then 0xF
  else if 0x400 ≤ o ∧ o < 0x420 then (if o % 8 = 0 then 0xFFFFFFFF else 0xFF)
  else maskAt [(0, 0x7F), (4, 0xF), (8, 0xFFFFFFFF), (0xC00, 0xFFFF)] o

/-- CARAVAN (R161). -/
def caravanMask (o : Nat) : Nat := if 0x40 ≤ o ∧ o < 0x80 then 0xFFFFF else maskAt [(0, 0xF), (4, 0x7FFFFFF)] o

/-- QUADRANT (R206). -/
def quadrantMask (o : Nat) : Nat := maskAt [(0, 0xFFFF), (4, 0xFFFFFFFF), (8, 0x3)] o

/-- SOURCE (R318). -/
def sourceMask (o : Nat) : Nat :=
  maskAt [(0, 0x3), (4, 0xFFFFFFFF), (8, 0xFFFF), (0xC, 0xFFFFFFFF), (0x10, 0xFFFFF), (0x14, 0x3FFFFFF), (0x18, 0x3FFFFFFF), (0x1C, 0xFFFFFFFF)] o

/-- CHANNEL: regulation, phase-engine and profile blocks (R239, R207, R246). -/
def channelMask (o : Nat) : Nat :=
  maskAt [(0, 0xF), (4, 0xFFFFFF), (8, 0xFFFFFF), (0xC, 0xFFFFFFFF), (0x10, 0xFFFFFFFF), (0x14, 0xFFFFFF), (0x18, 0xFFFFFFFF), (0x1C, 0xFFFF),
    (0x20, 0xFFFFF), (0x24, 0xFFFFF), (0x40, 0x3FFFF), (0x44, 0xFFFFF), (0x48, 0x1FFFFF), (0x4C, 0xFFFF), (0x50, 0xFFFFFFFF), (0x54, 0xFFF),
    (0x80, 0x3FF)] o

/-- PATH (R319). -/
def pathMask (o : Nat) : Nat :=
  maskAt [(0, 0x1F), (4, 0xFFFFFFFF), (8, 0x3FFFFFF), (0xC, 0x3FFFFFFF), (0x10, 0xFFFFFFFF), (0x14, 0xFFFFFFFF), (0x18, 0xFFFFFFFF)] o

/-- CURVE, whose record 0 holds the power-path words (R320, R321). -/
def curveMask (k o : Nat) : Nat :=
  if 0x10 ≤ o ∧ o < 0x70 then (if o % 8 = 0 then 0xFFFF else 0xFFFFFFFF)
  else if k = 0 ∧ (o = 0xC0 ∨ o = 0xC4) then 0xFFFFFFFF
  else maskAt [(0, 0xFFFF000F), (4, 0xFFFF)] o

/-- PROFILE, whose record 0 holds the stagger word (R245, R247). -/
def profileMask (k o : Nat) : Nat :=
  if k = 0 ∧ o = 0x1C0 then 0x7FFFFFFF
  else maskAt [(0, 1), (4, 0xFFFFFFFF), (8, 0xFFFFFFFF), (0xC, 0xFFFFFFFF), (0x10, 0xFFFFFFFF), (0x14, 0xFFFF), (0x18, 0xFFFFFFFF), (0x1C, 0x3FFFFFF),
    (0x20, 0xFFFFFFFF), (0x24, 0x1FFFFF), (0x28, 0xFFFFFFFF), (0x2C, 0xFFFF), (0x30, 0xFFFFFFFF), (0x34, 0xFFFF)] o

/-- PHASE (R208). -/
def phaseMask (o : Nat) : Nat := maskAt [(0, 0xFFFFFFFF), (4, 0x3FFFF), (8, 0xFFFFFF), (0xC, 0x3FFF), (0x10, 0xFFFFF)] o

/-- MODULATOR (R329). -/
def modulatorMask (o : Nat) : Nat := maskAt [(0, 0x7FF7F), (4, 0xFFFF)] o

/-- SEQUENCER: header, `SNAP_CFG` of record 4, entries (R344, R345). -/
def sequencerMask (t o : Nat) : Nat :=
  if 0x100 ≤ o ∧ o < 0x300 then (if o % 8 = 0 then 0x1FFFFFF else 0x3FFFFFF)
  else if t = 4 ∧ o = 4 then 0xF
  else if o = 0 then 0xFFFF else 0

/-- THERMAL: coolant channels, types, models, by the offset from 0x1_8000 (R396). -/
def thermalMask (o : Nat) : Nat :=
  if 0x10 ≤ o ∧ o < 0x30 then (if o % 8 = 0 then 0xFFFF00FF else 0xFFFFFFFF)
  else if 0x100 ≤ o ∧ o < 0x1100 then
    let r := (o - 0x100) % 512
    if 0x10 ≤ r ∧ r < 0x50 then (if r % 8 = 0 then 0xFFFF else 0xFFFFFFFF)
    else if 0x50 ≤ r ∧ r < 0xB0 then (if (r - 0x50) % 12 = 0 then 0xFFFF else 0xFFFFFFFF)
    else maskAt [(0, 0xFFFF00FF), (4, 0xFFFF)] r
  else if 0x2000 ≤ o ∧ o < 0x4B00 then
    let r := o % 64
    if 0x10 ≤ r ∧ r < 0x30 then 0xFFFFFFFF else maskAt [(0, 0x1F), (4, 0xFFFFFFFF), (8, 0x7FF)] r
  else 0

/-- CALIB (R354, R355). -/
def calibMask (o : Nat) : Nat := if o < 0xB00 then (if o % 32 = 8 then 0x3 else 0xFFFFFFFF) else if o < 0xB0C then 0xFFFFFFFF else 0

/-- Bits of the configuration word at an address that are not reserved, by the areas of R84. -/
def confMask (a : Nat) : Nat :=
  if a < 0x1000 then deviceMask a
  else if a < 0x1400 then caravanMask (a - 0x1000)
  else if a < 0x2000 then 0
  else if a < 0x3000 then quadrantMask (a % 1024)
  else if a < 0x3800 then sourceMask (a % 512)
  else if a < 0x4000 then 0
  else if a < 0x8000 then channelMask (a % 512)
  else if a < 0xA000 then pathMask (a % 256)
  else if a < 0xA800 then curveMask ((a - 0xA000) / 256) (a % 256)
  else if a < 0xB000 then 0
  else if a < 0xC000 then profileMask ((a - 0xB000) / 512) (a % 512)
  else if a < 0x10400 then phaseMask (a % 128)
  else if a < 0x11000 then 0
  else if a < 0x12600 then modulatorMask (a % 64)
  else if a < 0x13000 then 0
  else if a < 0x14400 then sequencerMask ((a - 0x13000) / 1024) ((a - 0x13000) % 1024)
  else if a < 0x15000 then 0
  else if a < 0x15400 then (if a % 32 = 0 then 0x3FFFF else 0)
  else if a < 0x16000 then 0
  else if a < 0x18000 then 0xFF
  else if a < 0x28000 then thermalMask (a - 0x18000)
  else calibMask (a - 0x28000)

/-- Bits of a memory word that a PEEK returns: all but the reserved bits of the configuration map (R3, R502, R527). -/
def memMask (a : Nat) : Nat := if a < 0x29000 then confMask a else 0xFFFFFFFF

/-- What a word reads as. -/
def wordAt (d : Device) (w : WordAt) : Word :=
  match w with
  | .mem a => memWordAt d a &&& BitVec.ofNat 32 (memMask a)
  | .dev o => BitVec.ofNat 32 (devWord d o)
  | .isl i o => BitVec.ofNat 32 (islWord d i o)
  | .chan c o => BitVec.ofNat 32 (chanWord d c o)
  | .slot n o => BitVec.ofNat 32 (slotWord d n o)
  | .pm m o => BitVec.ofNat 32 (pmWord d m o)
  | .ring n o => BitVec.ofNat 32 (ringWord d n o)
  | .model m o => BitVec.ofNat 32 (modelWord d m o)
  | .arb i => BitVec.ofNat 32 (arbWord d i)
  | .fsrc f o => BitVec.ofNat 32 (fsrcWord d f o)

/-! ### What reading clears (R5, R494) -/

/-- RC fields of the device block. -/
def devReadEffect (o : Nat) (d : Device) : Device :=
  if o = 0x00C then d.updLoader fun l => { l with retries := 0 }
  else if o = 0x014 then { d with button := { d.button with ignored := 0 } }
  else if o = 0x020 then d.updMode fun m => { m with refusals := 0 }
  else if o = 0x044 then d.updCvn fun c => { c with frameErrs := 0 }
  else if o = 0x054 then d.updHalt fun h => { h with predicted := 0, skipped := 0 }
  else if o = 0x084 then { d with nobind := 0 }
  else if 0x090 ≤ o ∧ o < 0x0B8 ∧ o % 8 = 4 then d.updSeq (Fin.ofNat 5 ((o - 0x094) / 8)) fun s => { s with hlMissed := 0, skipped := 0 }
  else if o = 0x104 then d.updHk fun h => { h with late := 0 }
  else if o = 0x208 then d.updCol fun c => { c with logOvw := 0, logLost := 0 }
  else if o = 0x210 then d.updCol fun c => { c with capMissed := 0 }
  else if o = 0x280 then d.updMem fun m => { m with ceCnt := 0, ueCnt := 0 }
  else if o = 0x300 then d.updSup fun s => { s with alert := 0, alertDrive := false }
  else if o = 0x304 then d.updSup fun s => { s with alertRings := 0 }
  else if o = 0x30C then d.updBoot fun b => { b with nvmFails := 0 }
  else if o = 0x310 then d.updSup fun s => { s with pecErr := 0, busErr := 0 }
  else if o = 0x314 then d.updSup fun s => { s with timeouts := 0, arbLost := 0 }
  else if o = 0x318 then d.updSup fun s => { s with cmdRefused := 0 }
  else if o = 0x31C then d.updSup fun s => { s with pollFail := 0 }
  else d

/-- R271: the read of a low word latches its high word. -/
def latchQ (c : Chan) (out : Bool) (d : Device) : Device :=
  d.updProf c fun p =>
    if out then { p with qOutHi := BitVec.ofNat 32 (p.qOut / 65536 / 2 ^ 32) } else { p with qInHi := BitVec.ofNat 32 (p.qIn / 65536 / 2 ^ 32) }

/-- RC fields and latches of the channel blocks. -/
def chanReadEffect (c : Chan) (o : Nat) (d : Device) : Device :=
  if o = 0x0C then d.updChan c fun s => { s with chlimCnt := 0 }
  else if o = 0x2C then d.updProf c fun p => { p with disturbed := 0, incomplete := 0 }
  else if o = 0x30 then d.updProf c fun p => { p with fallback := 0, skippedRests := 0 }
  else if o = 0x34 then latchQ c false d
  else if o = 0x3C then latchQ c true d
  else if o = 0x44 then d.updProf c fun p => { p with qGaps := 0, qRecon := 0 }
  else if o = 0x58 then d.updPath c fun p => { p with revCnt := 0 }
  else d

/-- What a read of a word does once the word is sent. A memory read decodes its codeword (R466, R529). -/
def readEffect (w : WordAt) (d : Device) : Device :=
  match w with
  | .mem a => cwRead (a / 32) d
  | .dev o => devReadEffect o d
  | .isl i o => if h : i.1 < 4 ∧ o = 0x020 then d.updSrc ⟨i.1, h.1⟩ fun s => { s with revCnt := 0 } else d
  | .chan c o => chanReadEffect c o d
  | .slot n o => if o = 0x08 then d.updSlot n fun s => { s with overcapCnt := 0, skipCnt := 0 } else d
  | .pm _ _ => d
  | .ring n o => if o = 4 then d.updRing n fun s => { s with ovf := 0, lost := 0 } else d
  | .model m o => if o = 4 then d.updTherm m fun x => { x with peak := none } else d
  | .arb i => d.updArb i fun a => { a with urgent := 0, maxAge := 0 }
  | .fsrc f o => if o = 4 then d.updFault f fun y => { y with count := 0 } else d

/-! ### What writing may touch (R5, R509) -/

/-- W1C bits of a word. -/
def w1cMask : WordAt → Nat
  | .dev o =>
    if o = 0x000 then 2 ^ 9 else if o = 0x020 then 3 * 2 ^ 22 else if o = 0x040 then 2 ^ 10 else if o = 0x04C then 0xFFFF0000
    else if o = 0x100 then 0xFF00 else if o = 0x20C then 0xFFFF0000 else 0
  | .isl _ o => if o = 0x000 then 1 else if o = 0x020 then 2 ^ 7 else 0
  | .chan _ o => if o = 0x20 then 2 ^ 14 else if o = 0x50 then 7 * 2 ^ 8 else 0
  | .slot _ o => if o = 0x00 then 7 * 2 ^ 7 else 0
  | .pm _ o => if o = 0 then 2 ^ 13 else 0
  | .model _ o => if o = 4 then 2 ^ 13 else 0
  | _ => 0

/-- RW bits of a word. -/
def rwMask : WordAt → Nat
  | .dev o => if o = 0x220 then 0xFF else if o = 0x224 then 0xFFFF3FFF else 0
  | .chan _ o => if o = 0x18 then 0xFFFFFFFF else if o = 0x1C then 1 else 0
  | _ => 0

/-- W1C bits of the device block cleared by a mask. -/
def devClear (o k : Nat) (d : Device) : Device :=
  let keep (i : Nat) (b : Bool) : Bool := b && !bitOf k i
  if o = 0x000 then d.updStart fun s => { s with strapChanged := keep 9 s.strapChanged }
  else if o = 0x020 then d.updMode fun m => { m with disagree := keep 22 m.disagree, late := keep 23 m.late }
  else if o = 0x040 then d.updCvn fun c => { c with rivalLeader := keep 10 c.rivalLeader }
  else if o = 0x04C then d.updCvn fun c => { c with dropped := c.dropped &&& ~~~BitVec.ofNat 16 (bitsOf k 16 16) }
  else if o = 0x100 then d.updHk fun h => { h with railErr := h.railErr &&& ~~~BitVec.ofNat 8 (bitsOf k 8 8) }
  else if o = 0x20C then d.updCol fun c => { c with capFull := c.capFull &&& ~~~BitVec.ofNat 16 (bitsOf k 16 16) }
  else d

/-- The W1C bits of a word that a mask names are cleared. -/
def clearBits (w : WordAt) (k : Nat) (d : Device) : Device :=
  let keep (i : Nat) (b : Bool) : Bool := b && !bitOf k i
  match w with
  | .dev o => devClear o k d
  | .isl i o =>
    if o = 0x000 then d.updIsl fun x => { x with late := upd x.late i (keep 0) }
    else if h : i.1 < 4 ∧ o = 0x020 then d.updSrc ⟨i.1, h.1⟩ fun s => { s with stuck := keep 7 s.stuck } else d
  | .chan c o =>
    if o = 0x20 then d.updProf c fun p => { p with finTimeout := keep 14 p.finTimeout }
    else if o = 0x50 then
      d.updPath c fun p => { p with tripInst := keep 8 p.tripInst, tripCurve := keep 9 p.tripCurve, ovwHit := keep 10 p.ovwHit }
    else d
  | .slot n o =>
    if o = 0x00 then d.updSlot n fun s => { s with dfltSeen := keep 7 s.dfltSeen, thrErr := keep 8 s.thrErr, cmpErr := keep 9 s.cmpErr } else d
  | .pm m o => if o = 0 then d.updMod m fun s => { s with ovr := keep 13 s.ovr } else d
  | .model m o => if o = 4 then d.updTherm m fun x => { x with reinit := keep 13 x.reinit } else d
  | _ => d

end Sys2Proof.Machine
end

