-- ==== Sys2Proof/Machine/Target.lean ====
section
/-! DEFINITION. Sys2Proof/Machine/Target.lean: the supervisory port as target (13, R489 to R517): the three protocols, results, reads, acknowledges, clears,
writes, the service unlock, alerts. -/

namespace Sys2Proof.Machine

/-! ### Transactions (R489 to R494) -/

/-- The target acknowledges its address (R489, R150). -/
def targetUp (d : Device) : Bool := decide (d.start.st ≠ .reset) && decide (d.start.st ≠ .init) && !d.cvn.refused

/-- Address byte of the target with a write or a read. -/
def addrByte (d : Device) (read : Bool) : Byte := BitVec.ofNat 8 (2 * (0x40 + ownId d) + b2n read)

def byteOf (x : Nat) : Byte := BitVec.ofNat 8 x

/-- The target does not answer. A transaction of another controller on the bus restarts the wait of one that lost arbitration at its STOP, and ends the
service of the winner's transaction (R521, R522). -/
def noAck (d : Device) : Device := d.updSup fun s => { s with out := [], acked := false, freeAt := none, serving := false }
/-- The target took the transaction and sent nothing. -/
def ack (d : Device) : Device := d.updSup fun s => { s with out := [], acked := true, freeAt := none, serving := false }
/-- A transaction ends without effect, or a command is refused (R490, R500). -/
def countRefused (d : Device) : Device := d.updSup fun s => { s with cmdRefused := satInc s.cmdRefused }

/-- The bytes of a read part: byte count, data, and the PEC when the last data byte is acknowledged (R491). An armed injection inverts it (R441). -/
def respond (pre bytes : List Byte) (ackLast : Bool) (d : Device) : Device :=
  let body := byteOf bytes.length :: bytes
  let pec := byteOf (crc8 (pre ++ body))
  if ackLast then
    let d1 := d.updSup fun s => { s with out := body ++ [if d.col.fiPec then ~~~pec else pec], acked := true, freeAt := none, serving := false }
    if d.col.fiPec then fiEvent (d1.updCol fun c => { c with fiPec := false }) else d1
  else d.updSup fun s => { s with out := body, acked := true, freeAt := none, serving := false }

/-- A block read. -/
def blockRead (code : Byte) (bytes : Device → List Byte) (ackLast : Bool) (d : Device) : Device :=
  if targetUp d then respond [addrByte d false, code, addrByte d true] (bytes d) ackLast d else noAck d

/-- Of a read part that is broken off only the first k bytes have been sent (R494). -/
def broken (cut : Option Nat) (d : Device) : Device :=
  match cut with
  | some k => d.updSup fun s => { s with out := s.out.take k }
  | none => d

/-- A process call of n argument bytes (R490, R500): `judge` is its result code, `reply` its bytes after an accepted result, `eff` what it clears or latches. -/
def processCall (code : Byte) (n : Nat) (p : ProcessCall) (judge : List Byte → Device → Nat) (reply : List Byte → Device → List Byte)
    (eff : List Byte → Device → Device) (d : Device) : Device :=
  if targetUp d = false then noAck d
  else if p.data.length ≠ p.count.toNat then countRefused (noAck d)
  else
    let pre := [addrByte d false, code, p.count] ++ p.data ++ [addrByte d true]
    let r := if p.data.length ≠ n then 1 else judge p.data d
    if r = 0 then eff p.data (broken p.cut (respond pre (0 :: reply p.data d) p.ackLast d))
    else countRefused (broken p.cut (respond pre [byteOf r] p.ackLast d))

/-- The `RESULT` block of a block write (R501, R493). -/
def record (code : Byte) (res detail : Nat) (d : Device) : Device :=
  let d := d.updSup fun s => { s with resCmd := code, resCode := byteOf res, resSeq := s.resSeq + 1, resDetail := BitVec.ofNat 32 detail }
  if res = 0 then d else countRefused d

/-- A block write of lo to hi data bytes up to its STOP (R490 to R493, R498, R500). `judge` gives result and detail of a committed command, `act` what a
result does. -/
def blockWrite (code : Byte) (lo hi : Nat) (svc : Bool) (w : BlockWrite) (judge : List Byte → Device → Nat × Nat)
    (act : Nat → List Byte → Device → Device) (d : Device) : Device :=
  if targetUp d = false then noAck d
  else
    let d := ack d
    let wire := w.data ++ w.pec.toList
    let n := w.count.toNat
    let bs := wire.take n
    if wire.length < n then d
    else if n + 1 < wire.length then countRefused (noAck d)
    else if wire.length = n then record code 0x0C 0 d
    else if wire.drop n ≠ [byteOf (crc8 ([addrByte d false, code, w.count] ++ bs))] then d.updSup fun s => { s with pecErr := satInc s.pecErr }
    else
      let r := if n < lo ∨ hi < n then (1, 0) else if svc ∧ unlocked d = false then (3, 0) else judge bs d
      record code r.1 r.2 (act r.1 bs d)

/-- An action that only an accepted command takes. -/
def ifOk (f : List Byte → Device → Device) (r : Nat) (bs : List Byte) (d : Device) : Device := if r = 0 then f bs d else d

/-! ### PEEK and its special reads (R502, R515, R271) -/

/-- Words that a PEEK names; none at an unassigned address. -/
def peekWords (bs : List Byte) : List (Option WordAt) := (List.range (fld bs 3 1)).map fun i => locate (fld bs 0 3 + 4 * i)

def peekJudge (bs : List Byte) (d : Device) : Nat :=
  if fld bs 3 1 = 0 ∨ 63 < fld bs 3 1 then 0x08
  else if (peekWords bs).any (·.isNone) then 0x0E
  else if (peekWords bs).any (fun w => match w with | some w => !w.readable d | none => false) then 0x07
  else 0

/-- The words in ascending order, each read before the next: a low word latches the high word that follows (R271). -/
def peekRun : List (Option WordAt) → Device → List Byte × Device
  | [], d => ([], d)
  | none :: ws, d => peekRun ws d
  | some w :: ws, d => let r := peekRun ws (readEffect w d); (leBytes 4 (wordAt d w).toNat ++ r.1, r.2)

/-- Words whose last byte has been sent: the read part begins with its byte count and the result (R494). -/
def sentWords (p : ProcessCall) : List (Option WordAt) :=
  match p.cut with
  | some k => (peekWords p.data).take ((k - 2) / 4)
  | none => peekWords p.data

/-- PEEK: what a word's read clears or latches happens once its last byte is sent (R494). -/
def peek (p : ProcessCall) (d : Device) : Device :=
  processCall 0x02 4 p peekJudge (fun bs d => (peekRun (peekWords bs) d).1) (fun _ d => (peekRun (sentWords p) d).2) d

/-- The PEEK of one word. -/
def peekOne (a : Nat) (ackLast : Bool) : ProcessCall := ⟨4, leBytes 3 a ++ [1], ackLast, none⟩

/-! ### RING_READ and LOG_READ (R371, R503) -/

/-- One entry: the record is copied, then the index tested. -/
def recEntry (d : Device) (base size i : Nat) (wr rd : Halfword) : List Byte :=
  let a := base + 32 * (i % size)
  if fill16 wr rd ≤ (i + 65536 - rd.toNat) % 65536 then leBytes 1 1 ++ leBytes 2 rd.toNat ++ leBytes 30 0
  else if cwBad d (a / 32) then leBytes 1 2 ++ leBytes 32 0
  else leBytes 1 0 ++ mgets d.memory.mem a 32

def recEntries (d : Device) (base size start n : Nat) (wr rd : Halfword) : List Byte :=
  (List.range n).flatMap fun k => recEntry d base size ((start + k) % 65536) wr rd

/-- Every copy decodes its codeword. -/
def recReads (base size start n : Nat) (d : Device) : Device := forEach (List.range n) (fun k => cwRead ((base + 32 * ((start + k) % 65536 % size)) / 32)) d

def countOk (n : Nat) : Bool := decide (1 ≤ n) && decide (n ≤ 7)

def ringRead (p : ProcessCall) (d : Device) : Device :=
  processCall 0x03 4 p (fun bs _ => if 31 < fld bs 0 1 ∨ countOk (fld bs 3 1) = false then 0x08 else 0)
    (fun bs d => let r : Ring := Fin.ofNat 32 (fld bs 0 1); recEntries d (ringBase r) 256 (fld bs 1 2) (fld bs 3 1) (d.rings[r]).wr (d.rings[r]).rd)
    (fun bs => recReads (ringBase (Fin.ofNat 32 (fld bs 0 1))) 256 (fld bs 1 2) (fld bs 3 1)) d

def logRead (p : ProcessCall) (d : Device) : Device :=
  processCall 0x04 3 p (fun bs _ => if countOk (fld bs 2 1) then 0 else 0x08)
    (fun bs d => recEntries d 0x80000 4096 (fld bs 0 2) (fld bs 2 1) d.col.logWr d.col.logRd)
    (fun bs => recReads 0x80000 4096 (fld bs 0 2) (fld bs 2 1)) d

/-! ### Acknowledges and CLEAR (R372, R504, R505) -/

/-- R372: the new index lies within the fill. -/
def ackOk (wr rd : Halfword) (a : Nat) : Bool := decide ((a + 65536 - rd.toNat) % 65536 ≤ fill16 wr rd)

def ringAck (w : BlockWrite) (d : Device) : Device :=
  blockWrite 0x05 3 3 false w
    (fun bs d =>
      let r : Ring := Fin.ofNat 32 (fld bs 0 1)
      if 31 < fld bs 0 1 then (0x08, 0) else if ackOk (d.rings[r]).wr (d.rings[r]).rd (fld bs 1 2) then (0, 0) else (0x0D, (d.rings[r]).rd.toNat))
    (ifOk fun bs d => d.updRing (Fin.ofNat 32 (fld bs 0 1)) fun s => { s with rd := BitVec.ofNat 16 (fld bs 1 2) }) d

def logAck (w : BlockWrite) (d : Device) : Device :=
  blockWrite 0x06 2 2 false w
    (fun bs d => if ackOk d.col.logWr d.col.logRd (fld bs 0 2) then (0, 0) else (0x0D, d.col.logRd.toNat))
    (ifOk fun bs d => d.updCol fun c => { c with logRd := BitVec.ofNat 16 (fld bs 0 2) }) d

/-- The bits of a mask all lie in another. -/
def within (k m : Nat) : Bool := decide (k &&& m = k)

/-- Refusal of a CLEAR (R505, R526, R539). -/
def clearJudge (a k : Nat) : Nat :=
  match locate a with
  | none => 0x0E
  | some (.mem _) => 0x04
  | some w => if within k (w1cMask w) then 0 else 0x04

def clearWord (a k : Nat) (d : Device) : Device := match locate a with | some w => clearBits w k d | none => d

def clear (w : BlockWrite) (d : Device) : Device :=
  blockWrite 0x07 7 7 false w
    (fun bs _ => let r := clearJudge (fld bs 0 3) (fld bs 3 4); (r, if r = 0 then 0 else fld bs 0 3))
    (ifOk fun bs => clearWord (fld bs 0 3) (fld bs 3 4)) d

/-! ### IDENT, SUMMARY, RESULT (R499, R517, R501) -/

def identBytes (d : Device) : List Byte :=
  let s := d.start.straps
  let before := decide (d.start.st = .init) || decide (d.start.st = .load) || decide (d.start.st = .noImage)
  leBytes 4 Config.uid.toNat ++ leBytes 4 (if before then 0 else d.loader.serial.toNat) ++
    leBytes 1 (s.cvnId.toNat + 16 * (b2n s.leader + 2 * b2n s.deputy)) ++ leBytes 1 (d.loader.bootImage.toNat + 16 * d.start.st.code)

/-- Channels with a shed member that nothing replaces. -/
def shedChans (d : Device) : Nat :=
  (allChans.filter fun c => (quadSlots (Chan.quad c)).any fun n => decide ((d.slots[n]).shedFrom = some c) && !isReplaced d n).length

def summaryBytes (d : Device) : List Byte :=
  let chans (f : ChState → Bool) : Nat := (allChans.filter fun c => f (d.chans[c]).st).length
  leBytes 4 (devState d) ++ leBytes 2 (collectorWord d) ++ leBytes 1 (chans fun s => decide (s = .start ∨ s = .regulate)) ++
    leBytes 1 (chans fun s => decide (s = .held)) ++
    leBytes 1 (pack [(d.bus.st.code, 0, 3), (b2n d.bus.halving, 3, 1), (b2n d.hk.refOnB, 4, 1), (b2n d.hk.refDisagree, 5, 1), (b2n (aligned d), 6, 1),
      (b2n (decide (d.sup.alert ≠ 0)), 7, 1)]) ++
    leBytes 1 (min 255 (shedChans d)) ++ leBytes 2 (pack [(nActive d, 0, 12), (b2n (unlocked d), 12, 1)])

def resultBytes (d : Device) : List Byte :=
  leBytes 1 d.sup.resCmd.toNat ++ leBytes 1 d.sup.resCode.toNat ++ leBytes 2 d.sup.resSeq.toNat ++ leBytes 4 d.sup.resDetail.toNat

/-- Entry of the caravan summary as it reads: the SUMMARY of the last fresh poll and its age in seconds (R520). -/
def entryBytes (d : Device) (id : Nat) : List Byte :=
  let e := d.sup.entries.getD id {}
  let st := if id = ownId d then 4 else if bitOf d.cvn.members.toNat id = false then 3 else if e.status = 3 ∨ e.status = 4 then 6 else e.status.toNat
  let age := match e.freshAt with | some t => min 255 ((d.up - t) / sec) | none => 255
  leBytes 1 st ++ leBytes 1 age ++ (e.bytes ++ List.replicate 12 0).take 12

def caravanBytes (d : Device) : List Byte :=
  if d.cvn.source then
    leBytes 2 d.cvn.members.toNat ++ leBytes 2 d.sup.pollRounds.toNat ++ (List.range 16).flatMap (entryBytes d)
  else leBytes 4 0

/-! ### Service unlock (R506 to R508) -/

def unlockJudge (bs : List Byte) (d : Device) : Nat × Nat :=
  if ¬ (d.start.st = .configured ∨ d.start.st = .join ∨ d.start.st = .run) then (0x07, 0)
  else if d.loader.svcCmdEnable = false ∨ d.loader.serviceCode = 0 then (0x09, 0)
  else if lockedOut d then (0x0B, 0)
  else if fld bs 0 2 ≠ d.loader.serviceCode.toNat then (0x0A, 0)
  else (0, 0)

/-- An accepted unlock lasts 60 s; the third wrong code in a row starts a lockout of 60 s. -/
def unlockAct (r : Nat) (d : Device) : Device :=
  if r = 0 then d.updSup fun s => { s with unlockEnd := some (d.up + 60 * sec), badCodes := 0, lockoutEnd := none }
  else if r = 0x0A then
    let n := badCodes d
    d.updSup fun s => { s with
      badCodes := BitVec.ofNat 2 (min 2 (n + 1)), lockoutEnd := if 2 ≤ n then some (d.up + 60 * sec) else none }
  else d

def serviceUnlock (w : BlockWrite) (d : Device) : Device := blockWrite 0x10 2 2 false w unlockJudge (fun r _ => unlockAct r) d

def serviceLock (w : BlockWrite) (d : Device) : Device :=
  blockWrite 0x11 1 1 true w (fun bs _ => (if fld bs 0 1 = 0 then 0 else 0x02, 0)) (ifOk fun _ d => d.updSup fun s => { s with unlockEnd := none }) d

def unlockExpiry (d : Device) : Device :=
  match d.sup.unlockEnd with | some t => (waitUp t d).updSup fun s => { s with unlockEnd := none } | none => d

def lockoutEnds (d : Device) : Device :=
  match d.sup.lockoutEnd with | some t => (waitUp t d).updSup fun s => { s with lockoutEnd := none, badCodes := 0 } | none => d

/-! ### WRITE (R509, R441, R442) -/

/-- FI_MEM holds a reserved encoding in a field that the mask touches; arms the mirror in RUN; arms anything. -/
def fiMemBad (k x : Nat) : Bool := (decide (bitsOf k 2 3 ≠ 0) && decide (5 ≤ bitsOf x 2 3)) || (decide (bitsOf k 6 2 ≠ 0) && decide (bitsOf x 6 2 = 3))
def fiMemMirror (d : Device) (k x : Nat) : Bool :=
  decide (bitsOf k 0 5 ≠ 0) && decide (bitsOf x 2 3 = 4) && decide (bitsOf x 0 2 ≠ 0) && decide (d.start.st = .run)
def fiMemArms (k x : Nat) : Bool :=
  (decide (bitsOf k 0 5 ≠ 0) && decide (bitsOf x 0 2 ≠ 0)) || (bitOf k 5 && bitOf x 5) || (decide (bitsOf k 6 2 ≠ 0) && decide (bitsOf x 6 2 ≠ 0))

/-- A narrowing that the mask touches would not lower its value (R222). -/
def narrowBad (old x k : Nat) : Bool :=
  (decide (bitsOf k 0 16 ≠ 0) && decide (bitsOf old 0 16 ≤ bitsOf x 0 16)) || (decide (bitsOf k 16 16 ≠ 0) && decide (bitsOf old 16 16 ≤ bitsOf x 16 16))

/-- Refusal of a WRITE, in the order of R500. -/
def writeJudge (a k v : Nat) (d : Device) : Nat :=
  match locate a with
  | none => 0x0E
  | some (.mem _) => 0x04
  | some w =>
    let old := (wordAt d w).toNat
    let x := maskMix k old v
    if w = .dev 0x220 ∧ fiMemBad k x then 0x02
    else if w = .dev 0x224 ∧ bitsOf k 0 12 ≠ 0 ∧ scopeOf (bitsOf x 0 12) = none then 0x08
    else if within k (rwMask w ||| w1cMask w) = false then 0x04
    else if rwMask w = 0xFFFFFFFF ∧ narrowBad old x k then 0x05
    else if w = .dev 0x220 ∧ fiMemMirror d k x then 0x07
    else 0

/-- FI_MEM takes its new value (R441). -/
def fiMemWrite (k x : Nat) (d : Device) : Device :=
  let d := d.updCol fun c => { c with
    fiRsN := BitVec.ofNat 2 (bitsOf x 0 2), fiRsReg := BitVec.ofNat 3 (bitsOf x 2 3), fiPec := bitOf x 5, fiCrc := BitVec.ofNat 2 (bitsOf x 6 2) }
  if fiMemArms k x then fiEvent d else d

/-- What inverted rails make of a source (R441): equal rails are a reporting-path fault, both inverted make an idle source active and an active one idle. -/
def fiRailAct (f m : Nat) (d : Device) : Device :=
  let act := (d.faults[fin f]).active
  if m = 1 then rpathFault (fin f) act d
  else if m = 2 then rpathFault (fin f) (!act) d
  else if act then readsIdle f d
  else (raiseX f true (hkReading d f) d).updFault (fin f) fun y => { y with level := false }

/-- FI_RAIL takes its new value. A running injection on other rails ends; a duration of 0 ends the new one at once. -/
def fiRailWrite (x : Nat) (d : Device) : Device :=
  let f := bitsOf x 0 12
  let m := bitsOf x 12 2
  let t := bitsOf x 16 16
  let same := decide (d.col.fiMode.toNat = m ∧ d.col.fiFsrc.toNat = f)
  let d := if d.col.fiMode ≠ 0 ∧ same = false then fiEvent (fiRailEnd d) else d
  let d := d.updCol fun c => { c with
    fiFsrc := BitVec.ofNat 12 f, fiMode := BitVec.ofNat 2 m, fiMs := BitVec.ofNat 16 t, fiAt := d.up }
  if m = 0 then d
  else
    let d := fiEvent (d.updFault (fin f) fun y => { y with inj := true })
    if t = 0 then
      if same then fiEvent (fiRailEnd d)
      else fiEvent ((d.updCol fun c => { c with fiMode := 0 }).updFault (fin f) fun y => { y with inj := false })
    else if same then d
    else fiRailAct f m d

/-- Host narrowing of a channel (R222): kept at housekeeping, sent to the quadrant. -/
def narrowWrite (c : Chan) (x : Nat) (d : Device) : Device :=
  let i := BitVec.ofNat 16 (bitsOf x 0 16)
  let v := BitVec.ofNat 16 (bitsOf x 16 16)
  send (.toQd (Chan.quad c)) (.narrow c i v) (d.updChan c fun s => { s with narrowI := i, narrowV := v })

/-- HOST_STOP (R233). -/
def hostStopWrite (c : Chan) (v : Bool) (d : Device) : Device :=
  send (.toQd (Chan.quad c)) (.hostStop c v) (d.updChan c fun s => { s with hostStop := v })

/-- The masked bits of a word take their value: W1C bits that are written 1 clear, RW fields are replaced. -/
def writeWord (a k v : Nat) (d : Device) : Device :=
  match locate a with
  | none => d
  | some w =>
    let x := maskMix k (wordAt d w).toNat v
    let d := clearBits w (k &&& v &&& w1cMask w) d
    if k &&& rwMask w = 0 then d
    else match w with
      | .dev o => if o = 0x220 then fiMemWrite k x d else if o = 0x224 then busEval (fiRailWrite x d) else d
      | .chan c o => if o = 0x18 then narrowWrite c x d else if o = 0x1C then hostStopWrite c (bitOf x 0) d else d
      | _ => d

def write (w : BlockWrite) (d : Device) : Device :=
  blockWrite 0x12 11 11 true w
    (fun bs d =>
      let r := writeJudge (fld bs 0 3) (fld bs 3 4) (fld bs 7 4) d
      (r, if r = 0x04 ∨ r = 0x05 ∨ r = 0x0E then fld bs 0 3 else 0))
    (ifOk fun bs => writeWord (fld bs 0 3) (fld bs 3 4) (fld bs 7 4)) d

/-- The WRITE of a word. -/
def writeOf (a k v : Nat) (pec : Option Byte) : BlockWrite := ⟨11, leBytes 3 a ++ leBytes 4 k ++ leBytes 4 v, pec⟩

/-! ### Bus conditions (R490, R496, R497) and alerts (R515, R516) -/

def unknownCommand (d : Device) : Device := if targetUp d then countRefused (noAck d) else noAck d
def busError (d : Device) : Device := if targetUp d then (noAck d).updSup fun s => { s with busErr := satInc s.busErr } else noAck d
def clockLow (d : Device) : Device := if targetUp d then (noAck d).updSup fun s => { s with timeouts := satInc s.timeouts } else noAck d

/-- ALERT_RESPONSE_READ: the device answers while it drives the line; the lowest address wins, and the winner releases it. -/
def alertResponse (wins ackLast : Bool) (d : Device) : Device :=
  if targetUp d ∧ d.sup.alertDrive then
    if wins then
      let a := addrByte d false
      let pec := byteOf (crc8 [0x19, a])
      let d1 := d.updSup fun s => { s with
        out := a :: (if ackLast then [if d.col.fiPec then ~~~pec else pec] else []), acked := true, alertDrive := false, freeAt := none, serving := false }
      if ackLast ∧ d.col.fiPec then fiEvent (d1.updCol fun c => { c with fiPec := false }) else d1
    else ack d
  else noAck d

/-! ### Meanings -/

def execIdent (ackLast : Bool) (s : State) : Host.Outcome State Fault Refusal := done (blockRead 0x01 identBytes ackLast) s
def execPeek (p : ProcessCall) (s : State) : Host.Outcome State Fault Refusal := done (peek p) s
/-- Q_LO_READ_LATCH: a read of the low word alone. -/
def execQLoReadLatch (c : Chan) (out : Bool) (s : State) : Host.Outcome State Fault Refusal :=
  done (fun d => if targetUp d ∧ quadAnswers d (Chan.quad c) then latchQ c out d else d) s
/-- ALERT_READ: the PEEK of `ALERT`. -/
def execAlertRead (ackLast : Bool) (s : State) : Host.Outcome State Fault Refusal := done (peek (peekOne 0x100300 ackLast)) s
def execRingRead (p : ProcessCall) (s : State) : Host.Outcome State Fault Refusal := done (ringRead p) s
def execLogRead (p : ProcessCall) (s : State) : Host.Outcome State Fault Refusal := done (logRead p) s
def execRingAck (w : BlockWrite) (s : State) : Host.Outcome State Fault Refusal := done (ringAck w) s
def execLogAck (w : BlockWrite) (s : State) : Host.Outcome State Fault Refusal := done (logAck w) s
def execClear (w : BlockWrite) (s : State) : Host.Outcome State Fault Refusal := done (clear w) s
def execSummary (ackLast : Bool) (s : State) : Host.Outcome State Fault Refusal := done (blockRead 0x08 summaryBytes ackLast) s
def execCaravanSummary (ackLast : Bool) (s : State) : Host.Outcome State Fault Refusal := done (blockRead 0x09 caravanBytes ackLast) s
def execResult (ackLast : Bool) (s : State) : Host.Outcome State Fault Refusal := done (blockRead 0x0E resultBytes ackLast) s
def execServiceUnlock (w : BlockWrite) (s : State) : Host.Outcome State Fault Refusal := done (serviceUnlock w) s
def execServiceLock (w : BlockWrite) (s : State) : Host.Outcome State Fault Refusal := done (serviceLock w) s
def execWrite (w : BlockWrite) (s : State) : Host.Outcome State Fault Refusal := done (write w) s
def execWriteNarrowI (c : Chan) (mask value : BitVec 16) (pec : Option Byte) (s : State) : Host.Outcome State Fault Refusal :=
  done (write (writeOf (0x110018 + 128 * c.1) mask.toNat value.toNat pec)) s
def execWriteNarrowV (c : Chan) (mask value : BitVec 16) (pec : Option Byte) (s : State) : Host.Outcome State Fault Refusal :=
  done (write (writeOf (0x110018 + 128 * c.1) (65536 * mask.toNat) (65536 * value.toNat) pec)) s
def execWriteHostStop (c : Chan) (value : Bool) (pec : Option Byte) (s : State) : Host.Outcome State Fault Refusal :=
  done (write (writeOf (0x11001C + 128 * c.1) 1 (b2n value) pec)) s
def execFiRsArm (n : BitVec 2) (reg : BitVec 3) (pec : Option Byte) (s : State) : Host.Outcome State Fault Refusal :=
  done (write (writeOf 0x100220 0x1F (n.toNat + 4 * reg.toNat) pec)) s
def execFiPecArm (on : Bool) (pec : Option Byte) (s : State) : Host.Outcome State Fault Refusal :=
  done (write (writeOf 0x100220 0x20 (32 * b2n on) pec)) s
def execFiCrcArm (v : BitVec 2) (pec : Option Byte) (s : State) : Host.Outcome State Fault Refusal :=
  done (write (writeOf 0x100220 0xC0 (64 * v.toNat) pec)) s
def execFiRailArm (fsrc : BitVec 12) (mode : BitVec 2) (ms : BitVec 16) (pec : Option Byte) (s : State) : Host.Outcome State Fault Refusal :=
  done (write (writeOf 0x100224 0xFFFF3FFF (fsrc.toNat + 4096 * mode.toNat + 65536 * ms.toNat) pec)) s
def execUnknownCommand (_code : Byte) (s : State) : Host.Outcome State Fault Refusal := done unknownCommand s
def execBusError (s : State) : Host.Outcome State Fault Refusal := done busError s
def execClockLowTimeout (s : State) : Host.Outcome State Fault Refusal := done clockLow s
def execAlertResponseRead (wins ackLast : Bool) (s : State) : Host.Outcome State Fault Refusal := done (alertResponse wins ackLast) s

end Sys2Proof.Machine
end

