-- ==== Sys2Proof/Machine/Service.lean ====
section
/-! DEFINITION. Sys2Proof/Machine/Service.lean: the service commands over regions, measurement, calibration and the EEPROMs (13, R511 to R513). -/

namespace Sys2Proof.Machine

/-! ### Regions (R67, R471, R472) -/

/-- A region by its kind and object bytes; `none` for a reserved kind. -/
def regionBytes (k o : Nat) : Region := if k = 0 then .channel (Fin.ofNat 32 o) else .quadrant (Fin.ofNat 4 o)

/-- A kind or object that names no region: its result code (R499, R511). -/
def regionBad (k o : Nat) : Nat := if 1 < k then 0x02 else if (if k = 0 then 31 else 3) < o then 0x08 else 0

def armJudge (bs : List Byte) (d : Device) : Nat :=
  let b := regionBad (fld bs 0 1) (fld bs 1 1)
  if b ≠ 0 then b
  else if ¬ (d.start.st = .configured ∨ d.start.st = .run) ∨ (d.start.latchAtStart ∧ d.start.st ≠ .run) then 0x07
  else 0

/-- Reason code for an ARM_REGION that is already known to be refused (R501): its last check refused this region, and no overlay or reload has changed the
fields since (log entry 155). -/
def armKnown (bs : List Byte) (d : Device) : Nat :=
  match d.check.known with
  | some (g, r, o, n) => if g = regionBytes (fld bs 0 1) (fld bs 1 1) ∧ o = d.mode.active.toNat ∧ n = d.reload.count.toNat then r else 0
  | none => 0

def armRegion (w : BlockWrite) (d : Device) : Device :=
  blockWrite 0x13 2 2 true w (fun bs d => let r := armJudge bs d; (r, if r = 0 then armKnown bs d else 0))
    (ifOk fun bs d => d.updCheck fun c => { c with arming := c.arming ++ [regionBytes (fld bs 0 1) (fld bs 1 1)] }) d

/-- A reload is in progress. -/
def reloadBusy (d : Device) : Bool := decide (1 ≤ d.reload.st.toNat) && decide (d.reload.st.toNat ≤ 4)

def reloadJudge (bs : List Byte) (d : Device) : Nat :=
  let b := regionBad (fld bs 1 1) (fld bs 2 1)
  if 1 < fld bs 0 1 then 0x02
  else if b ≠ 0 then b
  else if d.start.st ≠ .run then 0x07
  else if reloadBusy d ∨ d.cal.busy then 0x06
  else 0

/-- An accepted reload reads the image (R472). -/
def reloadBegin (img quad : Bool) (obj : Nat) (d : Device) : Device :=
  imgStart img true (d.updReload fun x => { x with
    st := 1, image := img, quad := quad, obj := BitVec.ofNat 5 obj, at0 := d.up, newBase := [], newOvls := [], imgRes := 0, dirBad := none, differ := none
    written := false, recheck := false, known := false })

/-- Reason code for a RELOAD_REGION that is already known to be refused (R501): the last reload named the same image and region and was refused, and
nothing has written an image since. -/
def reloadKnown (bs : List Byte) (d : Device) : Nat :=
  if d.reload.known ∧ d.reload.image = (fld bs 0 1 = 1) ∧ d.reload.quad = (fld bs 1 1 = 1) ∧ d.reload.obj.toNat = fld bs 2 1 then d.reload.reason.toNat else 0

def reloadCmd (w : BlockWrite) (d : Device) : Device :=
  blockWrite 0x14 3 3 true w (fun bs d => let r := reloadJudge bs d; (r, if r = 0 then reloadKnown bs d else 0)) (ifOk fun bs => reloadBegin (fld bs 0 1 = 1) (fld bs 1 1 = 1) (fld bs 2 1)) d

/-! ### INJECT (R349 to R352) -/

/-- A calibration step is DEFERRED or running. -/
def calRuns (d : Device) : Bool := decide (d.cal.step = 1 ∨ d.cal.step = 2 ∨ d.cal.step = 4)

def injectJudge (bs : List Byte) (d : Device) : Nat :=
  let n := fld bs 0 1
  let m : Pm := Fin.ofNat 88 n
  if 87 < n ∨ 15 < fld bs 1 1 ∨ 0x3F < fld bs 2 1 ∨ (31 < fld bs 3 1 ∧ fld bs 3 1 ≠ 0xFF) then 0x08
  else if tooLong d m (fld bs 1 1) then 0x08
  else if (d.quads[Pm.quad m]).armed = false then 0x07
  else if (d.mods[m]).injHost.isSome ∨ (calRuns d ∧ d.cal.mod.toNat = n) then 0x06
  else 0

def injectNow (m : Pm) (osr input ring : Nat) (d : Device) : Device :=
  arbRequest (mport m) 7 (seqYield m (d.updMod m fun s => { s with injHost := some ⟨min 11 osr, input, ring⟩, injRun := false }))

def inject (w : BlockWrite) (d : Device) : Device :=
  blockWrite 0x15 4 4 true w (fun bs d => (injectJudge bs d, 0))
    (ifOk fun bs => injectNow (Fin.ofNat 88 (fld bs 0 1)) (fld bs 1 1) (fld bs 2 1) (fld bs 3 1)) d

/-! ### Calibration steps (R357 to R360) -/

/-- R358 forbids the modulator. -/
def calForbidden (d : Device) (m : Pm) : Bool :=
  decide (20 ≤ Pm.pos m) || (if pmRole d m = 1 ∨ pmRole d m = 2 then (d.chans[roleChan d m]).armed else (d.quads[Pm.quad m]).armed)

/-- A step begins, DEFERRED while an injection is left on its modulator. -/
def calBegin (m : Pm) (full : Bool) (a : Int) (d : Device) : Device :=
  calTryStart (d.updCal fun c => { c with
    mod := BitVec.ofNat 7 m.1, step := 1, reason := 0, full := full, applied := a, sum := 0, n := 0
    held := if full then c.held else match c.held with | some (k, z) => if k = m then some (k, z) else none | none => none })

def calZeroJudge (bs : List Byte) (d : Device) : Nat :=
  if 87 < fld bs 0 1 then 0x08 else if calForbidden d (Fin.ofNat 88 (fld bs 0 1)) then 0x07 else if calRuns d then 0x06 else 0

def calZero (w : BlockWrite) (d : Device) : Device :=
  blockWrite 0x16 1 1 true w (fun bs d => (calZeroJudge bs d, 0)) (ifOk fun bs => calBegin (Fin.ofNat 88 (fld bs 0 1)) false 0) d

/-- The held zero belongs to the modulator. -/
def zeroHeld (d : Device) (m : Pm) : Bool := match d.cal.held with | some (k, _) => decide (k = m) | none => false

def calFullJudge (bs : List Byte) (d : Device) : Nat :=
  let m : Pm := Fin.ofNat 88 (fld bs 0 1)
  if 87 < fld bs 0 1 ∨ |signedOf (fld bs 1 4) 32| < 2 ^ 30 then 0x08
  else if calForbidden d m then 0x07
  else if calRuns d then 0x06
  else if zeroHeld d m = false then 0x0F
  else 0

def calFull (w : BlockWrite) (d : Device) : Device :=
  blockWrite 0x17 5 5 true w (fun bs d => (calFullJudge bs d, 0))
    (ifOk fun bs => calBegin (Fin.ofNat 88 (fld bs 0 1)) true (signedOf (fld bs 1 4) 32)) d

def commitJudge (bs : List Byte) (d : Device) : Nat :=
  if fld bs 0 1 ≠ 0 then 0x02 else if d.cal.busy ∨ d.reload.st = 1 ∨ d.bootp.nvmOp ≠ 0 then 0x06 else 0

def calCommitCmd (w : BlockWrite) (d : Device) : Device :=
  blockWrite 0x18 1 1 true w (fun bs d => (commitJudge bs d, 0)) (ifOk fun _ => calCommit) d

/-! ### NVM pass-through (R512, R513) -/

/-- Busy: another pass-through operation, a commit, or a reload that reads the named image. -/
def nvmBusy (d : Device) (img : Bool) : Bool :=
  decide (d.bootp.nvmOp ≠ 0) || d.cal.busy || (decide (d.reload.st = 1) && decide (d.reload.image = img))

def nvmWriteJudge (bs : List Byte) (d : Device) : Nat :=
  let off := fld bs 1 3
  let n := bs.length - 4
  if 1 < fld bs 0 1 then 0x02
  else if 262143 < off + n - 1 ∨ off / 64 ≠ (off + n - 1) / 64 then 0x08
  else if fld bs 0 1 = 0 ∧ d.start.st = .run then 0x07
  else if nvmBusy d (fld bs 0 1 = 1) then 0x06
  else 0

/-- The words of R514 name the operation. A fetch that has completed counts until the next write (R513). -/
def nvmBegin (op : BitVec 2) (img : Bool) (off n : Nat) (d : Device) : Device :=
  (d.updBoot fun b => { b with
    nvmOp := op, nvmImage := img, nvmOfs := BitVec.ofNat 18 off, nvmLen := BitVec.ofNat 7 n, nvmBuf := [], nvmReady := b.nvmReady && decide (op = 2), nvmParts := [] }).updReload fun x =>
      if op = 1 then { x with known := false } else x

def nvmWrite (w : BlockWrite) (d : Device) : Device :=
  blockWrite 0x19 5 68 true w (fun bs d => (nvmWriteJudge bs d, 0))
    (ifOk fun bs d =>
      let img := decide (fld bs 0 1 = 1)
      bootNew 2 (.pageWrite img (fld bs 1 3) (bs.drop 4)) (nvmBegin 1 img (fld bs 1 3) (bs.length - 4) d)) d

def nvmFetchJudge (bs : List Byte) (d : Device) : Nat :=
  if 1 < fld bs 0 1 then 0x02
  else if fld bs 4 1 = 0 ∨ 64 < fld bs 4 1 ∨ 262143 < fld bs 1 3 + fld bs 4 1 - 1 then 0x08
  else if nvmBusy d (fld bs 0 1 = 1) then 0x06
  else 0

/-- The sequential reads of a fetch: two where it crosses a 64 KiB boundary. -/
def fetchParts (img : Bool) (off n : Nat) : BootTx × List BootTx :=
  let k := 65536 - off % 65536
  if n ≤ k then (.read img off n, []) else (.read img off k, [.read img (off + k) (n - k)])

def nvmFetch (w : BlockWrite) (d : Device) : Device :=
  blockWrite 0x1A 5 5 true w (fun bs d => (nvmFetchJudge bs d, 0))
    (ifOk fun bs d =>
      let img := decide (fld bs 0 1 = 1)
      let t := fetchParts img (fld bs 1 3) (fld bs 4 1)
      bootNew 2 t.1 ((nvmBegin 2 img (fld bs 1 3) (fld bs 4 1) d).updBoot fun b => { b with nvmParts := t.2 })) d

/-- Result of NVM_DATA in the order of R500 (R513, R498). -/
def nvmDataCode (d : Device) : Nat :=
  if unlocked d = false then 0x03 else if d.bootp.nvmReady = false then 0x07 else if d.bootp.nvmOp = 2 then 0x06 else 0

def nvmDataRead (ackLast : Bool) (d : Device) : Device :=
  let r := nvmDataCode d
  let d1 := blockRead 0x1B (fun d => byteOf r :: (if r = 0 then d.bootp.nvmBuf else [])) ackLast d
  if targetUp d ∧ r ≠ 0 then countRefused d1 else d1

def execArmRegion (w : BlockWrite) (s : State) : Host.Outcome State Fault Refusal := done (armRegion w) s
def execReloadRegion (w : BlockWrite) (s : State) : Host.Outcome State Fault Refusal := done (reloadCmd w) s
def execInject (w : BlockWrite) (s : State) : Host.Outcome State Fault Refusal := done (inject w) s
def execCalZero (w : BlockWrite) (s : State) : Host.Outcome State Fault Refusal := done (calZero w) s
def execCalFull (w : BlockWrite) (s : State) : Host.Outcome State Fault Refusal := done (calFull w) s
def execCalCommit (w : BlockWrite) (s : State) : Host.Outcome State Fault Refusal := done (calCommitCmd w) s
def execNvmWrite (w : BlockWrite) (s : State) : Host.Outcome State Fault Refusal := done (nvmWrite w) s
def execNvmFetch (w : BlockWrite) (s : State) : Host.Outcome State Fault Refusal := done (nvmFetch w) s
def execNvmData (ackLast : Bool) (s : State) : Host.Outcome State Fault Refusal := done (nvmDataRead ackLast) s

end Sys2Proof.Machine
end

