-- ==== Sys2Proof/Machine/Bus.lean ====
section
/-! DEFINITION. Sys2Proof/Machine/Bus.lean: the ports as controllers (13, R482, R483, R518 to R523): the polls of the time source, arbitration on the bus. -/

namespace Sys2Proof.Machine

/-- The device controls the supervisory bus (R46, R518): the time source in RUN. -/
def controls (d : Device) : Bool := d.cvn.source && decide (d.start.st = .run)

/-- A change of one poll entry. -/
def setEntry (id : Nat) (f : PollEntry → PollEntry) (d : Device) : Device :=
  d.updSup fun s => { s with entries := upd s.entries (Fin.ofNat 16 id) f }

/-- POLL_ROUND_START: at each second of caravan time (R518). -/
def pollRound (d : Device) : Device :=
  let d := waitLoc (periodAt sec d.sup.roundAt d) d
  let d := d.updSup fun s => { s with roundAt := some d.loc }
  if controls d then
    let me := ownId d
    let d := d.updSup fun s => { s with pollRounds := s.pollRounds + 1 }
    let d := setEntry me (fun _ => ⟨4, some d.up, summaryBytes d⟩) d
    forEach (List.range 16) (fun id d => if bitOf d.cvn.members.toNat id ∧ id ≠ me then arbRequest sport (1 + id) d else d) d
  else d

/-- The granted transaction is over. -/
def pollOver (d : Device) : Device :=
  match d.sup.poll with
  | some w => arbRelease sport w (d.updSup fun s => { s with poll := none, polling := false, backoff := false, lostRun := 0 })
  | none => d

/-- A poll failed with an entry status (R520). -/
def pollFailed (w : Nat) (status : Byte) (d : Device) : Device :=
  if 1 ≤ w then setEntry (w - 1) (fun e => { e with status := status }) (d.updSup fun s => { s with pollFail := satInc s.pollFail }) else d

/-- Byte 8 [7] of a SUMMARY: any cause bit of `ALERT`. -/
def alertBit (bs : List Byte) : Bool := bitOf (fld bs 8 1) 7

/-- A SUMMARY came (R519, R520). -/
def pollFresh (w : Nat) (bs : List Byte) (d : Device) : Device :=
  if 1 ≤ w then
    let was := alertBit (d.sup.entries[(Fin.ofNat 16 (w - 1))]).bytes
    let d := setEntry (w - 1) (fun _ => ⟨0, some d.up, bs⟩) d
    if alertBit bs ∧ was = false then alertSet 2 d else d
  else d

/-- The Alert Response Address was answered: a member is polled at once (R519). -/
def alertAnswered (a : Byte) (d : Device) : Device :=
  let id := a.toNat / 2 - 0x40
  if 0x40 ≤ a.toNat / 2 ∧ id < 16 ∧ bitOf d.cvn.members.toNat id ∧ id ≠ ownId d then arbRequest sport (1 + id) d else d

def pollDone (o : PollOutcome) (d : Device) : Device :=
  match d.sup.poll with
  | none => d
  | some w =>
    if d.sup.polling then
      let d := pollOver d
      match o with
      | .fresh bs => pollFresh w bs.toList d
      | .noAck => pollFailed w 1 d
      | .pecWrong => pollFailed w 2 d
      | .answered a => if w = 0 then alertAnswered a d else d
    else d

/-- ALERT_LINE_TIMEOUT: the line has been low for 1 ms and this device does not drive it (R519). -/
def alertLine (d : Device) : Device := if controls d ∧ d.pins.alertLow = false then arbRequest sport 0 d else d

/-- ARBITRATION_LOST (R521 to R523): `addrSeen` is the address byte read when it was lost in that byte. A device that it addresses serves the winner's
transaction as target, up to its STOP. -/
def arbitrationLost (addrSeen : Option Byte) (d : Device) : Device :=
  match d.sup.poll with
  | none => d
  | some w =>
    if d.sup.polling then
      let mine := match addrSeen with | some a => decide (a.toNat / 2 = 0x40 + ownId d) && targetUp d | none => false
      let d := d.updSup fun s => { s with
        arbLost := satInc s.arbLost, lostRun := s.lostRun + 1, polling := false, backoff := true, freeAt := none, serving := mine, acked := if mine then true else s.acked }
      if 8 ≤ d.sup.lostRun then pollFailed w 5 (pollOver d) else d
    else d

/-- ARBITRATION_BACKOFF_END: `CVN_ID` x 50 us after the bus came free, behind a STOP, the same transaction starts again (R521). -/
def backoffEnd (d : Device) : Device :=
  match d.sup.freeAt with
  | some t =>
    if d.sup.backoff ∧ d.sup.poll.isSome then
      (waitUp (t + ownId d * (50 * us)) d).updSup fun s => { s with backoff := false, polling := true, freeAt := none }
    else d
  | none => d

/-- BUS_FREE: a granted transaction starts; one that lost arbitration waits for its back-off from now on (R482, R521). -/
def busFree (p : Port) (d : Device) : Device :=
  match p with
  | .boot => bootBusFree d
  | .supervisory =>
    d.updSup fun s => { s with
      serving := false, freeAt := if s.poll.isSome ∧ s.backoff then some d.up else s.freeAt, polling := s.polling || (s.poll.isSome && !s.backoff) }

/-- A controller timeout of the boot port fails the transaction that waits, like a bus error (R483, R487). -/
def bootStuck (d : Device) : Device :=
  match d.bootp.cur with
  | some (o, tx) => bootFailed (Fin.ofNat 3 o) tx false (arbRelease bport o (d.updBoot fun b => { b with cur := none, started := false }))
  | none => d

/-- A controller timeout is counted (R483, R524). -/
def stuckCount (d : Device) : Device := d.updSup fun s => { s with timeouts := satInc s.timeouts }

/-- A controller timeout of the supervisory port gives up the transaction that waits. -/
def pollStuck (d : Device) : Device := match d.sup.poll with | some w => pollFailed w 1 (pollOver d) | none => d

/-- A port is a controller: the boot port from LOAD on, the supervisory port of the time source (R46, R483). -/
def isController (p : Port) (d : Device) : Bool :=
  match p with
  | .boot => decide (d.start.st ≠ .reset ∧ d.start.st ≠ .init)
  | .supervisory => controls d || d.sup.poll.isSome

/-- CONTROLLER_BUS_STUCK (R483): with SDA low the port recovers the bus and its transaction waits; with SCL low it counts a timeout and gives the transaction
up. -/
def busStuck (p : Port) (sclLow : Bool) (d : Device) : Device :=
  if isController p d = false then d
  else match p with
  | .boot => if sclLow then bootStuck (stuckCount d) else busRecovery d
  | .supervisory => if sclLow then pollStuck (stuckCount d) else d.updSup fun s => { s with recovered := s.recovered + 1 }

def execPollDone (o : PollOutcome) (s : State) : Host.Outcome State Fault Refusal := done (pollDone o) s
def execAlertLineTimeout (s : State) : Host.Outcome State Fault Refusal := done alertLine s
def execArbitrationLost (addrSeen : Option Byte) (s : State) : Host.Outcome State Fault Refusal := done (arbitrationLost addrSeen) s
def execControllerBusStuck (p : Port) (sclLow : Bool) (s : State) : Host.Outcome State Fault Refusal := done (busStuck p sclLow) s
def execBusFree (p : Port) (s : State) : Host.Outcome State Fault Refusal := done (busFree p) s

end Sys2Proof.Machine
end

