-- ==== Sys2Proof/Machine/Timed.lean ====
section
/-! DEFINITION. Sys2Proof/Machine/Timed.lean: the commands that let time pass. The launches that the islands reach before a command's instant are
performed first (R21, R24, R129, R130); a command that stands for a launch performs it in every island at that island's own instant (R21). -/

namespace Sys2Proof.Machine

/-! ### Boot port (13) -/

def execAckPollTimer (s : State) : Host.Outcome State Fault Refusal := done (timed 0 ackPoll) s
def execPageWriteTimeout (s : State) : Host.Outcome State Fault Refusal := done (timed 0 pageTimeout) s
def execBootSettleExpiry (s : State) : Host.Outcome State Fault Refusal := done (timed 0 bootSettle) s
def execNoImageRetry (s : State) : Host.Outcome State Fault Refusal := done (timed 0 noImageRetry) s

/-! ### Arming (02) -/

def execCarrierReset (r : Region) (s : State) : Host.Outcome State Fault Refusal := done (launchRow (.carrierReset r) (carrierResetLaunch r)) s

/-! ### Joining (02, 04) -/

def execJoinTimeout (s : State) : Host.Outcome State Fault Refusal := done (timed 0 joinTimeout) s

/-! ### Overlay changes (03) -/

def execProposeTimeout (s : State) : Host.Outcome State Fault Refusal := done (timed 0 proposeTimeout) s
def execModeDisagreeTimer (s : State) : Host.Outcome State Fault Refusal := done (timed 0 disagreeTimer) s

/-! ### Start-up and the service button (02) -/

def execModeSample (v : BitVec 4) (s : State) : Host.Outcome State Fault Refusal := done (timed 0 (modeSample v)) s
def execModeUnstableTimeout (s : State) : Host.Outcome State Fault Refusal := done (timed 0 modeUnstable) s
def execRunLaunch (s : State) : Host.Outcome State Fault Refusal := done (launchRow .run runLaunch) s
def execSvcPress8s (s : State) : Host.Outcome State Fault Refusal := done (timed 0 svcPress) s
def execSvcRampDone (s : State) : Host.Outcome State Fault Refusal := done (timed 0 svcRampDone) s
def execSvcHoldExpiry (s : State) : Host.Outcome State Fault Refusal := done (timed 0 svcHoldExpiry) s

/-! ### Caravan time (04) -/

def execTimeFrameBoundary (s : State) : Host.Outcome State Fault Refusal := done (timed 0 frameBoundary) s
def execInsertionSlot (s : State) : Host.Outcome State Fault Refusal := done (timed 0 insertionSlot) s
def execJoinRetryTimer (s : State) : Host.Outcome State Fault Refusal := done (timed 0 joinRetry) s
def execPresentTimer (s : State) : Host.Outcome State Fault Refusal := done (timed 0 presentTimer) s
def execMemberDropTimeout (id : Fin 16) (s : State) : Host.Outcome State Fault Refusal := done (timed 0 (memberDrop id)) s
def execLeaderLostTimeout (s : State) : Host.Outcome State Fault Refusal := done (timed 0 leaderLostTimeout) s
def execDeputyTakeover (s : State) : Host.Outcome State Fault Refusal := done (timed 0 deputyTakeover) s
def execHandbackSwitch (s : State) : Host.Outcome State Fault Refusal := done (timed 0 handbackSwitch) s
def execRivalLeader (s : State) : Host.Outcome State Fault Refusal := done (timed 0 rivalLeader) s

/-! ### Halts (04) -/

def execHaltPredict (s : State) : Host.Outcome State Fault Refusal := done (timed 0 haltPredict) s
def execHaltRampFix (s : State) : Host.Outcome State Fault Refusal := done (timed 0 haltRampFix) s
def execHaltRampDown (s : State) : Host.Outcome State Fault Refusal := done (timed 0 haltRampDown) s
def execQuietWindowStart (s : State) : Host.Outcome State Fault Refusal := done (launchRow .quietStart quietStart) s
def execHaltConversionStart (s : State) : Host.Outcome State Fault Refusal := done (launchRow .convStart conversionStart) s
def execQuietWindowEnd (s : State) : Host.Outcome State Fault Refusal := done (launchRow .quietEnd quietEnd) s

/-! ### Region reloads (12) -/

def execReloadStopTimeout (s : State) : Host.Outcome State Fault Refusal := done (timed 0 reloadStopTimeout) s
def execReloadRearmLaunch (s : State) : Host.Outcome State Fault Refusal := done rearmRow s

/-! ### Channel regulation (06) -/

def execRampFactorUpdate (s : State) : Host.Outcome State Fault Refusal := done (timed 0 rampFactorUpdate) s
def execSoftStartTimeout (c : Chan) (s : State) : Host.Outcome State Fault Refusal := done (fun d => timed 0 (softStartTimeout c (ssDue c d)) d) s
def execCutEndTimer (c : Chan) (s : State) : Host.Outcome State Fault Refusal := done (timed 0 (cutEnd c)) s

/-! ### Charge profiles (07) -/

def execPulseRampDown (c : Chan) (s : State) : Host.Outcome State Fault Refusal := done (timed 0 (pulseRampDown c)) s
def execRestStart (c : Chan) (s : State) : Host.Outcome State Fault Refusal := done (launchRow (.restStart c) (restStart c)) s
def execRestSampleEnd (c : Chan) (s : State) : Host.Outcome State Fault Refusal := done (timed 0 (restSampleEnd c)) s
def execRestEvaluation (c : Chan) (s : State) : Host.Outcome State Fault Refusal := done (timed 0 (restEvaluation c)) s
def execRestEnd (c : Chan) (s : State) : Host.Outcome State Fault Refusal := done (timed 0 (restEnd c)) s
def execRecTimeout (c : Chan) (s : State) : Host.Outcome State Fault Refusal := done (timed 0 (recTimeout c)) s
def execFinTimeout (c : Chan) (s : State) : Host.Outcome State Fault Refusal := done (timed 0 (finTimeout c)) s
def execKeepTimerExpiry (c : Chan) (s : State) : Host.Outcome State Fault Refusal := done (timed 0 (keepTimer c)) s
def execStaggerDeal (s : State) : Host.Outcome State Fault Refusal := done (timed 0 staggerDeal) s
def execStaggerFrameStart (s : State) : Host.Outcome State Fault Refusal := done (timed 0 staggerFrame) s
def execStaggerGainUpdate (s : State) : Host.Outcome State Fault Refusal := done (timed 0 staggerGain) s

/-! ### Phase engine (05) -/

def execCarrierValley (t : Timer) (cmp : Cmp) (moved : Bool) (s : State) : Host.Outcome State Fault Refusal := done (timed 0 (carrierValley t cmp moved)) s
def execCarrierPeak (c : Chan) (s : State) : Host.Outcome State Fault Refusal := done (timed 0 (carrierPeak c)) s
def execBlankingEnd (n : Slot) (cmp : Cmp) (s : State) : Host.Outcome State Fault Refusal := done (timed 0 (blankingEnd n cmp)) s
def execUpperCrossing (n : Slot) (pos : BitVec 20) (s : State) : Host.Outcome State Fault Refusal := done (timed 0 (fun d => upperCrossing n pos.toNat (waitPos n pos.toNat d))) s
def execTonMaxReached (n : Slot) (cmp : Cmp) (s : State) : Host.Outcome State Fault Refusal := done (timed 0 (tonMaxReached n cmp)) s
def execOnTimeLimit (n : Slot) (cmp : Cmp) (s : State) : Host.Outcome State Fault Refusal := done (timed 0 (onTimeLimit n cmp)) s
def execDeadTimeEnd (n : Slot) (s : State) : Host.Outcome State Fault Refusal := done (timed 0 (deadTimeEnd n)) s
def execLowerCrossing (n : Slot) (pos : BitVec 20) (s : State) : Host.Outcome State Fault Refusal := done (timed 0 (fun d => lowerCross n pos.toNat (waitPos n pos.toNat d))) s
def execYOffCount (n : Slot) (s : State) : Host.Outcome State Fault Refusal := done (timed 0 (yOffCount n)) s
def execSlopeCompStep (n : Slot) (s : State) : Host.Outcome State Fault Refusal := done (timed 0 (slopeStep n)) s

/-! ### Power path (08) -/

def execBudgetUpdate (s : State) : Host.Outcome State Fault Refusal := done (timed 0 budgetUpdate) s
def execVsysEvaluation (s : State) : Host.Outcome State Fault Refusal := done (timed 0 vsysEvaluation) s
def execSysFreshnessExpiry (q : Quad) (s : State) : Host.Outcome State Fault Refusal := done (timed 0 (sysExpiry q)) s
def execHandoverTimeout (s : State) : Host.Outcome State Fault Refusal := done (timed 0 handoverTimeout) s
def execReturnTimeout (s : State) : Host.Outcome State Fault Refusal := done (timed 0 returnTimeout) s
def execStuckOnTimeout (c : Chan) (s : State) : Host.Outcome State Fault Refusal := done (timed 0 (fun d => busEval (stuckOn c d))) s
def execQualTimerExpiry (k : Src) (s : State) : Host.Outcome State Fault Refusal := done (timed 0 (qualTimer k)) s
def execHalvingRelease (s : State) : Host.Outcome State Fault Refusal := done (timed 0 halvingRelease) s
def execHalvingSustained (s : State) : Host.Outcome State Fault Refusal := done (timed 0 halvingSustained) s
def execSourceGateCheckTimeout (k : Src) (s : State) : Host.Outcome State Fault Refusal := done (timed 0 (srcCheckTimeout k)) s
def execSourceStuckTimeout (k : Src) (s : State) : Host.Outcome State Fault Refusal := done (timed 0 (srcStuck k)) s
def execGateRampComplete (g : Gate) (s : State) : Host.Outcome State Fault Refusal := done (timed 0 (gateRampDone g)) s
def execPathGateCheckTimeout (c : Chan) (s : State) : Host.Outcome State Fault Refusal := done (timed 0 (fun d => busEval (pathCheckTimeout c d))) s
def execPresenceConfirmed (c : Chan) (s : State) : Host.Outcome State Fault Refusal := done (timed 0 (presenceConfirmed c)) s
def execStringLowTimeout (c : Chan) (s : State) : Host.Outcome State Fault Refusal := done (timed 0 (fun d => busEval (stringLow c d))) s

/-! ### Path switches (08) -/

def execRetryTimerExpiry (c : Chan) (s : State) : Host.Outcome State Fault Refusal := done (timed 0 (retryTimer c)) s
def execCollapseHoldEnd (c : Chan) (s : State) : Host.Outcome State Fault Refusal := done (timed 0 (collapseEnd c)) s

/-! ### Measurement (09) -/

def execStreamResult (m : Pm) (raw : BitVec 24) (ovr : Bool) (s : State) : Host.Outcome State Fault Refusal := done (timed 0 (streamResult m raw.toInt ovr)) s
def execSequencerDelayExpiry (t : Table) (s : State) : Host.Outcome State Fault Refusal := done (timed 0 (seqDelay t)) s
def execConversionDone (m : Pm) (raw : BitVec 24) (ovr : Bool) (s : State) : Host.Outcome State Fault Refusal := done (timed 0 (conversionDone m raw.toInt ovr)) s
def execSnapshotDone (raws : Vector (BitVec 24) 88) (s : State) : Host.Outcome State Fault Refusal := done (timed 0 (snapshotDone raws)) s
def execReadbackTestDone (q : Quad) (raw : BitVec 24) (idle high : Cmp) (s : State) : Host.Outcome State Fault Refusal := done (timed 0 (readbackDone q raw.toInt idle high)) s

/-! ### Housekeeping (10) -/

def execHkRoundStart (s : State) : Host.Outcome State Fault Refusal := done (timed 0 hkRoundStart) s
def execReferenceChangeLaunch (s : State) : Host.Outcome State Fault Refusal := done (timed 0 refChange) s

/-! ### Regeneration (12) -/

def execNewtRequest (s : State) : Host.Outcome State Fault Refusal := done (timed 0 newtRequest) s
def execScrubStep (upsets : Fin 36) (s : State) : Host.Outcome State Fault Refusal := done (timed 0 (scrubStep upsets)) s
def execCorrectionWindowExpiry (bank : Fin 8) (row : Fin 576) (s : State) : Host.Outcome State Fault Refusal := done (timed 0 (correctionExpiry bank row)) s

/-! ### Faults (11) -/

def execRecoveryGrant (f : Fsrc) (s : State) : Host.Outcome State Fault Refusal := done (timed 0 (recoveryGrant f)) s
def execPromotionWindowEnd (f : Fsrc) (s : State) : Host.Outcome State Fault Refusal := done (timed 0 (promotionWindowEnd f)) s
def execLogSecondEnd (s : State) : Host.Outcome State Fault Refusal := done (timed 0 logSecondEnd) s
def execFiDurationExpiry (s : State) : Host.Outcome State Fault Refusal := done (timed 0 (fun d => busEval (fiExpiry d))) s

/-! ### Arbiters (01) -/

def execCaptureBufferComplete (b : Fin 16) (s : State) : Host.Outcome State Fault Refusal := done (timed 0 (finishCapture b)) s

/-! ### Supervisory target (13) -/

def execUnlockExpiry (s : State) : Host.Outcome State Fault Refusal := done (timed 0 unlockExpiry) s
def execLockoutEnd (s : State) : Host.Outcome State Fault Refusal := done (timed 0 lockoutEnds) s

/-! ### Supervisory bus (13) -/

def execPollRoundStart (s : State) : Host.Outcome State Fault Refusal := done (timed 0 pollRound) s
def execArbitrationBackoffEnd (s : State) : Host.Outcome State Fault Refusal := done (timed 0 backoffEnd) s

end Sys2Proof.Machine
end

