-- ==== Sys2Proof/Machine/Dispatch.lean ====
section
/-! DEFINITION. Sys2Proof/Machine/Dispatch.lean: one arm per command of the table. -/

namespace Sys2Proof.Machine

def exec (i : Instr) (s : State) : Host.Outcome State Fault Refusal :=
  match i with
  | .resetNLow ns => Sys2Proof.Machine.execResetNLow ns s
  | .railFalling rail coreBelowHalf => Sys2Proof.Machine.execRailFalling rail coreBelowHalf s
  | .resetRelease straps testEn scanEn => Sys2Proof.Machine.execResetRelease straps testEn scanEn s
  | .initComplete refValid clkRun => Sys2Proof.Machine.execInitComplete refValid clkRun s
  | .bootSettleExpiry => Sys2Proof.Machine.execBootSettleExpiry s
  | .bootTransactionDone r => Sys2Proof.Machine.execBootTransactionDone r s
  | .noImageRetry => Sys2Proof.Machine.execNoImageRetry s
  | .mirrorBuilt => Sys2Proof.Machine.execMirrorBuilt s
  | .startCheckDone => Sys2Proof.Machine.execStartCheckDone s
  | .modeSample v => Sys2Proof.Machine.execModeSample v s
  | .modeUnstableTimeout => Sys2Proof.Machine.execModeUnstableTimeout s
  | .strapChanged present => Sys2Proof.Machine.execStrapChanged present s
  | .joinTimeout => Sys2Proof.Machine.execJoinTimeout s
  | .runLaunch => Sys2Proof.Machine.execRunLaunch s
  | .svcDebounce high => Sys2Proof.Machine.execSvcDebounce high s
  | .svcPress8s => Sys2Proof.Machine.execSvcPress8s s
  | .svcRampDone => Sys2Proof.Machine.execSvcRampDone s
  | .svcHoldExpiry => Sys2Proof.Machine.execSvcHoldExpiry s
  | .timeFrameBoundary => Sys2Proof.Machine.execTimeFrameBoundary s
  | .insertionSlot => Sys2Proof.Machine.execInsertionSlot s
  | .timeFrameReceive f => Sys2Proof.Machine.execTimeFrameReceive f s
  | .frameStrobe => Sys2Proof.Machine.execFrameStrobe s
  | .haltFrameReceive f => Sys2Proof.Machine.execHaltFrameReceive f s
  | .modeFrameReceive f => Sys2Proof.Machine.execModeFrameReceive f s
  | .rollFrameReceive f => Sys2Proof.Machine.execRollFrameReceive f s
  | .joinRetryTimer => Sys2Proof.Machine.execJoinRetryTimer s
  | .presentTimer => Sys2Proof.Machine.execPresentTimer s
  | .memberDropTimeout id => Sys2Proof.Machine.execMemberDropTimeout id s
  | .overlayPropose => Sys2Proof.Machine.execOverlayPropose s
  | .leaderOverlayCheckDone => Sys2Proof.Machine.execLeaderOverlayCheckDone s
  | .memberOverlayCheckDone => Sys2Proof.Machine.execMemberOverlayCheckDone s
  | .proposeTimeout => Sys2Proof.Machine.execProposeTimeout s
  | .modeDisagreeTimer => Sys2Proof.Machine.execModeDisagreeTimer s
  | .launchRequest isl act time => Sys2Proof.Machine.execLaunchRequest isl act time s
  | .crossingMessage x => Sys2Proof.Machine.execCrossingMessage x s
  | .crossingStall x => Sys2Proof.Machine.execCrossingStall x s
  | .xrefLost => Sys2Proof.Machine.execXrefLost s
  | .xrefRestored => Sys2Proof.Machine.execXrefRestored s
  | .clockInvalid => Sys2Proof.Machine.execClockInvalid s
  | .clockValid => Sys2Proof.Machine.execClockValid s
  | .leaderLostTimeout => Sys2Proof.Machine.execLeaderLostTimeout s
  | .deputyTakeover => Sys2Proof.Machine.execDeputyTakeover s
  | .handbackSwitch => Sys2Proof.Machine.execHandbackSwitch s
  | .rivalLeader => Sys2Proof.Machine.execRivalLeader s
  | .haltPredict => Sys2Proof.Machine.execHaltPredict s
  | .haltRampFix => Sys2Proof.Machine.execHaltRampFix s
  | .haltRampDown => Sys2Proof.Machine.execHaltRampDown s
  | .quietWindowStart => Sys2Proof.Machine.execQuietWindowStart s
  | .haltConversionStart => Sys2Proof.Machine.execHaltConversionStart s
  | .quietWindowEnd => Sys2Proof.Machine.execQuietWindowEnd s
  | .carrierReset r => Sys2Proof.Machine.execCarrierReset r s
  | .carrierValley t cmp moved => Sys2Proof.Machine.execCarrierValley t cmp moved s
  | .carrierPeak c => Sys2Proof.Machine.execCarrierPeak c s
  | .blankingEnd n cmp => Sys2Proof.Machine.execBlankingEnd n cmp s
  | .upperCrossing n pos => Sys2Proof.Machine.execUpperCrossing n pos s
  | .tonMaxReached n cmp => Sys2Proof.Machine.execTonMaxReached n cmp s
  | .onTimeLimit n cmp => Sys2Proof.Machine.execOnTimeLimit n cmp s
  | .deadTimeEnd n => Sys2Proof.Machine.execDeadTimeEnd n s
  | .lowerCrossing n pos => Sys2Proof.Machine.execLowerCrossing n pos s
  | .yOffCount n => Sys2Proof.Machine.execYOffCount n s
  | .slopeCompStep n => Sys2Proof.Machine.execSlopeCompStep n s
  | .channelLimitAbove c cmp => Sys2Proof.Machine.execChannelLimitAbove c cmp s
  | .dfltHigh n ns => Sys2Proof.Machine.execDfltHigh n ns s
  | .readbackTestDone q raw idle high => Sys2Proof.Machine.execReadbackTestDone q raw idle high s
  | .streamResult m raw ovr => Sys2Proof.Machine.execStreamResult m raw ovr s
  | .modulatorStreamFault m => Sys2Proof.Machine.execModulatorStreamFault m s
  | .inputBudgetArrival c => Sys2Proof.Machine.execInputBudgetArrival c s
  | .softStartTimeout c => Sys2Proof.Machine.execSoftStartTimeout c s
  | .rampFactorUpdate => Sys2Proof.Machine.execRampFactorUpdate s
  | .rearmCheckDone c => Sys2Proof.Machine.execRearmCheckDone c s
  | .cutEndTimer c => Sys2Proof.Machine.execCutEndTimer c s
  | .pulseRampDown c => Sys2Proof.Machine.execPulseRampDown c s
  | .restStart c => Sys2Proof.Machine.execRestStart c s
  | .restSampleEnd c => Sys2Proof.Machine.execRestSampleEnd c s
  | .restEvaluation c => Sys2Proof.Machine.execRestEvaluation c s
  | .restEnd c => Sys2Proof.Machine.execRestEnd c s
  | .recTimeout c => Sys2Proof.Machine.execRecTimeout c s
  | .finTimeout c => Sys2Proof.Machine.execFinTimeout c s
  | .keepTimerExpiry c => Sys2Proof.Machine.execKeepTimerExpiry c s
  | .snapshotDone raws => Sys2Proof.Machine.execSnapshotDone raws s
  | .staggerDeal => Sys2Proof.Machine.execStaggerDeal s
  | .staggerFrameStart => Sys2Proof.Machine.execStaggerFrameStart s
  | .staggerGainUpdate => Sys2Proof.Machine.execStaggerGainUpdate s
  | .budgetUpdate => Sys2Proof.Machine.execBudgetUpdate s
  | .vsysEvaluation => Sys2Proof.Machine.execVsysEvaluation s
  | .sysFreshnessExpiry q => Sys2Proof.Machine.execSysFreshnessExpiry q s
  | .handoverTimeout => Sys2Proof.Machine.execHandoverTimeout s
  | .returnTimeout => Sys2Proof.Machine.execReturnTimeout s
  | .busStateArrival q => Sys2Proof.Machine.execBusStateArrival q s
  | .qualTimerExpiry k => Sys2Proof.Machine.execQualTimerExpiry k s
  | .sourceComparatorAbove k => Sys2Proof.Machine.execSourceComparatorAbove k s
  | .halvingRelease => Sys2Proof.Machine.execHalvingRelease s
  | .halvingSustained => Sys2Proof.Machine.execHalvingSustained s
  | .sourceComparatorBelow k => Sys2Proof.Machine.execSourceComparatorBelow k s
  | .sourceGateCheckTimeout k => Sys2Proof.Machine.execSourceGateCheckTimeout k s
  | .sourceStuckTimeout k => Sys2Proof.Machine.execSourceStuckTimeout k s
  | .gateFeedbackLevel g high => Sys2Proof.Machine.execGateFeedbackLevel g high s
  | .pathGateCheckTimeout c => Sys2Proof.Machine.execPathGateCheckTimeout c s
  | .gateRampComplete g => Sys2Proof.Machine.execGateRampComplete g s
  | .presenceConfirmed c => Sys2Proof.Machine.execPresenceConfirmed c s
  | .stringLowTimeout c => Sys2Proof.Machine.execStringLowTimeout c s
  | .retryTimerExpiry c => Sys2Proof.Machine.execRetryTimerExpiry c s
  | .instantTrip c => Sys2Proof.Machine.execInstantTrip c s
  | .collapseDetected c => Sys2Proof.Machine.execCollapseDetected c s
  | .collapseHoldEnd c => Sys2Proof.Machine.execCollapseHoldEnd c s
  | .stuckOnTimeout c => Sys2Proof.Machine.execStuckOnTimeout c s
  | .arbiterDecision arb => Sys2Proof.Machine.execArbiterDecision arb s
  | .conversionDone m raw ovr => Sys2Proof.Machine.execConversionDone m raw ovr s
  | .sequencerDelayExpiry t => Sys2Proof.Machine.execSequencerDelayExpiry t s
  | .ringRecordWrite w => Sys2Proof.Machine.execRingRecordWrite w s
  | .calStepDone => Sys2Proof.Machine.execCalStepDone s
  | .referenceImplausible refB => Sys2Proof.Machine.execReferenceImplausible refB s
  | .referenceChangeLaunch => Sys2Proof.Machine.execReferenceChangeLaunch s
  | .thermalUpdate => Sys2Proof.Machine.execThermalUpdate s
  | .tjArrival q => Sys2Proof.Machine.execTjArrival q s
  | .hkRoundStart => Sys2Proof.Machine.execHkRoundStart s
  | .hkRoundComplete => Sys2Proof.Machine.execHkRoundComplete s
  | .oscillatorLost isl osc => Sys2Proof.Machine.execOscillatorLost isl osc s
  | .faultRaise f => Sys2Proof.Machine.execFaultRaise f s
  | .rpathFault f level => Sys2Proof.Machine.execRpathFault f level s
  | .rpathRestored f => Sys2Proof.Machine.execRpathRestored f s
  | .recoveryGrant f => Sys2Proof.Machine.execRecoveryGrant f s
  | .promotionWindowEnd f => Sys2Proof.Machine.execPromotionWindowEnd f s
  | .logRecordWrite => Sys2Proof.Machine.execLogRecordWrite s
  | .logSecondEnd => Sys2Proof.Machine.execLogSecondEnd s
  | .captureBufferComplete b => Sys2Proof.Machine.execCaptureBufferComplete b s
  | .fiDurationExpiry => Sys2Proof.Machine.execFiDurationExpiry s
  | .newtRequest => Sys2Proof.Machine.execNewtRequest s
  | .swapCheckDone => Sys2Proof.Machine.execSwapCheckDone s
  | .scrubStep upsets => Sys2Proof.Machine.execScrubStep upsets s
  | .rowRemapDone => Sys2Proof.Machine.execRowRemapDone s
  | .correctionWindowExpiry bank row => Sys2Proof.Machine.execCorrectionWindowExpiry bank row s
  | .reloadCheckDone => Sys2Proof.Machine.execReloadCheckDone s
  | .reloadStopDone => Sys2Proof.Machine.execReloadStopDone s
  | .reloadStopTimeout => Sys2Proof.Machine.execReloadStopTimeout s
  | .reloadWriteDone => Sys2Proof.Machine.execReloadWriteDone s
  | .reloadRearmLaunch => Sys2Proof.Machine.execReloadRearmLaunch s
  | .armCheckDone => Sys2Proof.Machine.execArmCheckDone s
  | .ackPollTimer => Sys2Proof.Machine.execAckPollTimer s
  | .pageWriteTimeout => Sys2Proof.Machine.execPageWriteTimeout s
  | .ident ackLast => Sys2Proof.Machine.execIdent ackLast s
  | .peek p => Sys2Proof.Machine.execPeek p s
  | .qLoReadLatch c out => Sys2Proof.Machine.execQLoReadLatch c out s
  | .alertRead ackLast => Sys2Proof.Machine.execAlertRead ackLast s
  | .ringRead p => Sys2Proof.Machine.execRingRead p s
  | .logRead p => Sys2Proof.Machine.execLogRead p s
  | .ringAck w => Sys2Proof.Machine.execRingAck w s
  | .logAck w => Sys2Proof.Machine.execLogAck w s
  | .clear w => Sys2Proof.Machine.execClear w s
  | .summary ackLast => Sys2Proof.Machine.execSummary ackLast s
  | .caravanSummary ackLast => Sys2Proof.Machine.execCaravanSummary ackLast s
  | .result ackLast => Sys2Proof.Machine.execResult ackLast s
  | .serviceUnlock w => Sys2Proof.Machine.execServiceUnlock w s
  | .serviceLock w => Sys2Proof.Machine.execServiceLock w s
  | .write w => Sys2Proof.Machine.execWrite w s
  | .writeNarrowI c mask value pec => Sys2Proof.Machine.execWriteNarrowI c mask value pec s
  | .writeNarrowV c mask value pec => Sys2Proof.Machine.execWriteNarrowV c mask value pec s
  | .writeHostStop c value pec => Sys2Proof.Machine.execWriteHostStop c value pec s
  | .fiRsArm n reg pec => Sys2Proof.Machine.execFiRsArm n reg pec s
  | .fiPecArm on pec => Sys2Proof.Machine.execFiPecArm on pec s
  | .fiCrcArm v pec => Sys2Proof.Machine.execFiCrcArm v pec s
  | .fiRailArm fsrc mode ms pec => Sys2Proof.Machine.execFiRailArm fsrc mode ms pec s
  | .armRegion w => Sys2Proof.Machine.execArmRegion w s
  | .reloadRegion w => Sys2Proof.Machine.execReloadRegion w s
  | .inject w => Sys2Proof.Machine.execInject w s
  | .calZero w => Sys2Proof.Machine.execCalZero w s
  | .calFull w => Sys2Proof.Machine.execCalFull w s
  | .calCommit w => Sys2Proof.Machine.execCalCommit w s
  | .nvmWrite w => Sys2Proof.Machine.execNvmWrite w s
  | .nvmFetch w => Sys2Proof.Machine.execNvmFetch w s
  | .nvmData ackLast => Sys2Proof.Machine.execNvmData ackLast s
  | .unknownCommand code => Sys2Proof.Machine.execUnknownCommand code s
  | .busError => Sys2Proof.Machine.execBusError s
  | .clockLowTimeout => Sys2Proof.Machine.execClockLowTimeout s
  | .unlockExpiry => Sys2Proof.Machine.execUnlockExpiry s
  | .lockoutEnd => Sys2Proof.Machine.execLockoutEnd s
  | .alertResponseRead wins ackLast => Sys2Proof.Machine.execAlertResponseRead wins ackLast s
  | .pollRoundStart => Sys2Proof.Machine.execPollRoundStart s
  | .pollDone o => Sys2Proof.Machine.execPollDone o s
  | .alertLineTimeout => Sys2Proof.Machine.execAlertLineTimeout s
  | .arbitrationLost addrSeen => Sys2Proof.Machine.execArbitrationLost addrSeen s
  | .arbitrationBackoffEnd => Sys2Proof.Machine.execArbitrationBackoffEnd s
  | .controllerBusStuck p sclLow => Sys2Proof.Machine.execControllerBusStuck p sclLow s
  | .driverFaultCleared n => Sys2Proof.Machine.execDriverFaultCleared n s
  | .referencePlausible refB => Sys2Proof.Machine.execReferencePlausible refB s
  | .busFree p => Sys2Proof.Machine.execBusFree p s
  | .sourceComparatorBetween k => Sys2Proof.Machine.execSourceComparatorBetween k s

end Sys2Proof.Machine
end

