-- ==== Sys2Proof/Safety.lean ====
section
/-! DEFINITION. Sys2Proof/Safety.lean: what a safe device is, and what "unchanged" means of each kind of state, in the terms the claims use. -/

namespace Sys2Proof.Machine

/-! ### Output pins -/

/-- R14: the two outputs of no slot are driven together. -/
def Pins.noShoot (p : Pins) : Prop := ∀ n : Slot, ¬ (p.pwma[n] = true ∧ p.pwmb[n] = true)

/-- R46: every power output is at its off level. -/
def Pins.allOff (p : Pins) : Prop :=
  (∀ n : Slot, p.pwma[n] = false ∧ p.pwmb[n] = false) ∧ (∀ c : Chan, p.pgate[c] = false) ∧ ∀ k : Src, p.sgate[k] = false

/-- Legal output pins: no shoot-through (R14); power outputs off outside RUN (R39, R46); `FLT_P` and `FLT_N` never at one level, and asserted
outside RUN and during a DEVICE or LATCH reaction (R433); `ALIVE` low outside RUN and during such a reaction (R432). -/
def Device.pinsLegal (d : Device) : Prop :=
  d.pins.noShoot ∧
  (d.start.st ≠ .run → d.pins.allOff) ∧
  (d.pins.fltN = !d.pins.fltP) ∧
  (d.start.st ≠ .run ∨ d.devFault = true → d.pins.fltP = true) ∧
  (d.pins.alive = true → d.start.st = .run ∧ d.devFault = false)

/-! ### Memory -/

/-- At most one of a slot's two outputs is on (R14). -/
def SlotSt.apart (s : SlotSt) : Bool := !(s.pinA && s.pinB)

/-- No slot has both its outputs on (R14). -/
def Device.slotsApart (d : Device) : Prop := ∀ n : Slot, (d.slots[n]).apart = true

/-- Every memory of the device that the mirror is made from has its canonical form: the protected memory, the configuration the islands hold,
the base configuration and the reload candidate. -/
def Device.memOk (d : Device) : Prop :=
  d.memory.mem.wf = true ∧ d.memory.conf.wf = true ∧ d.loader.base.wf = true ∧ d.reload.newBase.wf = true

/-! ### Kinds of state -/

/-- The kinds of state of the device. `devState` is `DEV_STATE`, `latch` is `LATCH_AT_START`
with `MODE_UNSTABLE`, `start` the other start-up words; `launches` the launch requests that the islands hold
and which of their clocks run, `isl` the other words of islands and crossings; `log` the
event log's counters and queue, `caps` the capture buffers, `fi` the injection words, `col` the other collector words; `mem` the protected
memory with its check state, `conf` the configuration in force, `swaps` the substitutions waiting; `alert` the alert words, `sup` the other
words of the supervisory port. Every other kind is the field of `Device` of its name. -/
inductive Part where
  | start | devState | latch | loader | check | button | mode | bootp | arbs | clk | isl | launches | cvn | halt | slots | quads | chans | profs | paths
  | srcs | bus | stg | mods | seqs | rings | writers | nobind | cal | therm | hk | faults | col | log | caps | fi | mem | conf | swaps
  | reload | sup | alert | free
  deriving DecidableEq, Repr

def Start.rest (s : Start) : Start := { s with st := .reset, latchAtStart := false, modeUnstable := false }
def Islands.rest (i : Islands) : Islands := { i with launches := Vector.replicate 5 [], clkRun := 0 }
def Collector.rest (c : Collector) : Collector :=
  { c with logWr := 0, logRd := 0, logOvw := 0, logLost := 0, logSeq := 0, logQ := [], logCyc := (0, 0), capBusy := 0, capFull := 0, capMissed := 0, caps := [], capQ := []
           fiRsN := 0, fiRsReg := 0, fiPec := false, fiCrc := 0, fiFsrc := 0, fiMode := 0, fiMs := 0, fiAt := 0 }
def MemSt.rest (m : MemSt) : MemSt := { m with conf := [], swaps := [] }
def SupSt.rest (u : SupSt) : SupSt := { u with alert := 0, alertFsrc := 0, alertRings := 0, alertDrive := false }

/-- Two devices agree in a kind of state. -/
def Part.same (p : Part) (d e : Device) : Prop :=
  match p with
  | .start => e.start.rest = d.start.rest
  | .devState => e.start.st = d.start.st
  | .latch => (e.start.latchAtStart, e.start.modeUnstable) = (d.start.latchAtStart, d.start.modeUnstable)
  | .loader => e.loader = d.loader
  | .check => e.check = d.check
  | .button => e.button = d.button
  | .mode => e.mode = d.mode
  | .bootp => e.bootp = d.bootp
  | .arbs => e.arbs = d.arbs
  | .clk => e.clk = d.clk
  | .isl => e.isl.rest = d.isl.rest
  | .launches => (e.isl.launches, e.isl.clkRun) = (d.isl.launches, d.isl.clkRun)
  | .cvn => e.cvn = d.cvn
  | .halt => e.halt = d.halt
  | .slots => e.slots = d.slots
  | .quads => e.quads = d.quads
  | .chans => e.chans = d.chans
  | .profs => e.profs = d.profs
  | .paths => e.paths = d.paths
  | .srcs => e.srcs = d.srcs
  | .bus => e.bus = d.bus
  | .stg => e.stg = d.stg
  | .mods => e.mods = d.mods
  | .seqs => e.seqs = d.seqs
  | .rings => e.rings = d.rings
  | .writers => e.writers = d.writers
  | .nobind => e.nobind = d.nobind
  | .cal => e.cal = d.cal
  | .therm => e.therm = d.therm
  | .hk => e.hk = d.hk
  | .faults => e.faults = d.faults
  | .col => e.col.rest = d.col.rest
  | .log => (e.col.logWr, e.col.logRd, e.col.logOvw, e.col.logLost, e.col.logSeq, e.col.logQ, e.col.logCyc) =
      (d.col.logWr, d.col.logRd, d.col.logOvw, d.col.logLost, d.col.logSeq, d.col.logQ, d.col.logCyc)
  | .caps => (e.col.capBusy, e.col.capFull, e.col.capMissed, e.col.caps, e.col.capQ) =
      (d.col.capBusy, d.col.capFull, d.col.capMissed, d.col.caps, d.col.capQ)
  | .fi => (e.col.fiRsN, e.col.fiRsReg, e.col.fiPec, e.col.fiCrc, e.col.fiFsrc, e.col.fiMode, e.col.fiMs, e.col.fiAt) =
      (d.col.fiRsN, d.col.fiRsReg, d.col.fiPec, d.col.fiCrc, d.col.fiFsrc, d.col.fiMode, d.col.fiMs, d.col.fiAt)
  | .mem => e.memory.rest = d.memory.rest
  | .conf => e.memory.conf = d.memory.conf
  | .swaps => e.memory.swaps = d.memory.swaps
  | .reload => e.reload = d.reload
  | .sup => e.sup.rest = d.sup.rest
  | .alert => (e.sup.alert, e.sup.alertFsrc, e.sup.alertRings, e.sup.alertDrive) =
      (d.sup.alert, d.sup.alertFsrc, d.sup.alertRings, d.sup.alertDrive)
  | .free => e.free = d.free

/-- From device d to device e, at most the listed kinds of state change; the output pins are not among them. -/
def onlyParts (l : List Part) (d e : Device) : Prop := ∀ p : Part, l.contains p = false → p.same d e

/-- What a raise of a source may change besides its own command's state (R414 to R423). -/
def raises : List Part := [.devState, .latch, .arbs, .slots, .chans, .profs, .paths, .srcs, .faults, .col, .log, .caps, .alert]

/-- What the launches that come before a command's instant may change (R21, R24). -/
def launchParts : List Part :=
  raises ++ [.start, .loader, .check, .mode, .clk, .isl, .launches, .cvn, .halt, .quads, .bus, .mods, .seqs, .rings, .writers, .nobind, .cal, .therm, .hk, .fi,
    .mem, .conf, .swaps, .reload]

/-- The kinds of state that a command may change; where launches come before its instant, `launchParts` too. -/
def mayWrite : Instr → List Part
  | .resetNLow _ => raises ++ [.start, .loader, .check, .button, .mode, .bootp, .clk, .isl, .launches, .cvn, .halt, .quads, .bus, .stg, .mods, .seqs, .rings, .writers, .nobind, .cal, .therm, .hk, .fi, .mem, .conf, .swaps, .reload, .sup, .free]
  | .railFalling _ _ => raises ++ [.start, .loader, .check, .button, .mode, .bootp, .clk, .isl, .launches, .cvn, .halt, .quads, .bus, .stg, .mods, .seqs, .rings, .writers, .nobind, .cal, .therm, .hk, .fi, .mem, .conf, .swaps, .reload, .sup]
  | .resetRelease _ _ _ => [.start, .devState, .clk, .log, .mem]
  | .initComplete _ _ => raises ++ [.start, .loader, .bootp, .clk, .launches, .cvn, .mods, .mem]
  | .bootSettleExpiry => [.loader, .bootp, .arbs, .clk]
  | .bootTransactionDone _ => raises ++ [.start, .loader, .mode, .bootp, .mods, .cal, .therm, .fi, .mem, .reload]
  | .noImageRetry => [.start, .devState, .loader, .bootp, .arbs, .clk]
  | .mirrorBuilt => raises ++ [.start, .loader, .mode, .isl, .mods, .rings, .writers, .therm, .fi, .mem, .conf]
  | .startCheckDone => raises ++ [.start, .check, .mode, .isl, .launches, .cvn, .quads, .rings, .writers, .nobind, .mem]
  | .modeSample _ => [.start, .devState, .latch, .mode, .arbs, .clk, .mem]
  | .modeUnstableTimeout => [.start, .arbs, .clk, .log]
  | .strapChanged _ => [.start, .arbs, .log]
  | .joinTimeout => [.start, .mode, .arbs, .clk, .isl, .launches, .cvn, .halt, .mods, .seqs]
  | .runLaunch => raises ++ [.start, .mode, .clk, .isl, .halt, .quads, .bus, .mods, .seqs, .rings, .writers, .therm, .hk]
  | .svcDebounce _ => [.button]
  | .svcPress8s => [.start, .devState, .latch, .loader, .button, .bootp, .arbs, .clk, .cvn, .slots, .chans, .profs, .paths, .srcs, .col, .log, .sup]
  | .svcRampDone => [.start, .devState, .latch, .loader, .button, .bootp, .arbs, .clk, .cvn, .slots, .chans, .profs, .paths, .srcs, .col, .sup]
  | .svcHoldExpiry => raises ++ [.start, .loader, .check, .button, .mode, .bootp, .clk, .isl, .launches, .cvn, .halt, .quads, .bus, .stg, .mods, .seqs, .rings, .writers, .nobind, .cal, .therm, .hk, .fi, .mem, .conf, .swaps, .reload, .sup]
  | .timeFrameBoundary => raises ++ [.mode, .clk, .isl, .cvn, .mods, .therm, .hk]
  | .insertionSlot => [.clk, .cvn]
  | .timeFrameReceive _ => raises ++ [.clk, .isl, .launches, .cvn, .halt, .mods, .seqs, .free]
  | .frameStrobe => raises ++ [.clk, .isl, .launches, .halt]
  | .haltFrameReceive _ => [.arbs, .cvn, .halt, .mods, .seqs]
  | .modeFrameReceive _ => [.mode, .cvn]
  | .rollFrameReceive _ => [.start, .mode, .arbs, .clk, .isl, .launches, .cvn, .halt, .mods, .seqs, .log, .sup]
  | .joinRetryTimer => [.clk, .cvn]
  | .presentTimer => [.clk, .cvn]
  | .memberDropTimeout _ => [.clk, .cvn]
  | .overlayPropose => [.mode]
  | .leaderOverlayCheckDone => [.check, .mode, .arbs, .log, .alert]
  | .memberOverlayCheckDone => [.check, .mode, .arbs, .log, .alert]
  | .proposeTimeout => [.mode, .clk]
  | .modeDisagreeTimer => [.mode, .arbs, .clk, .log]
  | .launchRequest _ _ _ => raises ++ [.clk, .isl, .launches, .halt, .quads, .bus, .rings, .writers, .nobind, .therm, .conf]
  | .crossingMessage _ => raises ++ [.clk, .isl, .launches, .halt, .quads, .bus, .mods, .seqs, .rings, .writers, .nobind, .cal, .therm, .hk, .fi, .mem, .conf]
  | .crossingStall _ => raises ++ [.isl]
  | .xrefLost => [.cvn]
  | .xrefRestored => [.cvn]
  | .clockInvalid => raises ++ [.mode, .cvn]
  | .clockValid => [.cvn]
  | .leaderLostTimeout => raises ++ [.mode, .clk, .cvn]
  | .deputyTakeover => raises ++ [.mode, .clk, .cvn, .halt, .seqs]
  | .handbackSwitch => raises ++ [.clk, .cvn, .halt, .seqs]
  | .rivalLeader => raises ++ [.mode, .clk, .isl, .launches, .cvn, .halt, .mods, .seqs]
  | .haltPredict => [.mode, .arbs, .clk, .halt, .mods, .seqs]
  | .haltRampFix => [.mode, .arbs, .clk, .isl, .launches, .halt, .mods, .seqs, .log]
  | .haltRampDown => raises ++ [.clk, .isl, .halt]
  | .quietWindowStart => raises ++ [.loader, .check, .mode, .clk, .isl, .halt, .quads, .mods, .seqs, .rings, .writers, .nobind, .fi, .mem, .conf, .swaps, .reload]
  | .haltConversionStart => [.arbs, .clk, .halt, .quads]
  | .quietWindowEnd => [.arbs, .clk, .isl, .launches, .cvn, .halt, .slots, .quads, .chans, .profs, .paths, .mods, .seqs, .rings, .writers, .cal, .log]
  | .carrierReset _ => raises ++ [.isl, .quads, .mods, .seqs, .rings, .writers]
  | .carrierValley _ _ _ => raises ++ [.clk, .isl, .quads, .therm]
  | .carrierPeak _ => [.clk, .slots]
  | .blankingEnd _ _ => [.clk, .slots, .chans]
  | .upperCrossing _ _ => [.clk, .slots]
  | .tonMaxReached _ _ => [.clk, .slots]
  | .onTimeLimit _ _ => [.clk, .slots]
  | .deadTimeEnd _ => [.clk, .slots]
  | .lowerCrossing _ _ => [.clk, .slots]
  | .yOffCount _ => [.clk, .slots]
  | .slopeCompStep _ => [.clk, .slots]
  | .channelLimitAbove _ _ => [.slots, .chans]
  | .dfltHigh _ _ => raises ++ [.isl]
  | .readbackTestDone _ _ _ _ => raises ++ [.clk, .quads, .mods]
  | .streamResult _ _ _ => raises ++ [.clk, .isl, .quads, .bus, .mods, .rings, .writers, .nobind, .therm, .fi, .mem]
  | .modulatorStreamFault _ => raises ++ [.mods]
  | .inputBudgetArrival _ => raises ++ [.clk, .isl, .launches, .halt, .quads, .bus, .rings, .writers, .nobind, .therm, .conf]
  | .softStartTimeout _ => raises ++ [.clk]
  | .rampFactorUpdate => [.clk, .halt, .chans]
  | .rearmCheckDone _ => [.check, .arbs, .isl, .launches, .chans, .log, .alert]
  | .cutEndTimer _ => [.arbs, .clk, .isl, .chans, .log]
  | .pulseRampDown _ => [.clk, .chans]
  | .restStart _ => [.arbs, .clk, .isl, .halt, .slots, .chans, .profs, .paths, .log]
  | .restSampleEnd _ => [.clk, .profs]
  | .restEvaluation _ => raises ++ [.clk, .isl, .rings, .writers, .nobind]
  | .restEnd _ => [.clk, .slots, .chans, .profs, .paths]
  | .recTimeout _ => raises ++ [.clk]
  | .finTimeout _ => [.arbs, .clk, .isl, .slots, .chans, .profs, .paths, .rings, .writers, .nobind, .log]
  | .keepTimerExpiry _ => [.clk, .profs]
  | .snapshotDone _ => raises ++ [.clk, .isl, .halt, .mods, .rings, .writers, .nobind]
  | .staggerDeal => [.clk, .stg]
  | .staggerFrameStart => [.clk, .profs, .stg]
  | .staggerGainUpdate => [.clk, .isl, .stg]
  | .budgetUpdate => [.clk, .isl, .bus]
  | .vsysEvaluation => raises ++ [.clk, .isl, .quads, .bus]
  | .sysFreshnessExpiry _ => [.clk, .quads]
  | .handoverTimeout => raises ++ [.clk, .isl, .quads, .bus]
  | .returnTimeout => raises ++ [.clk, .isl, .quads, .bus]
  | .busStateArrival _ => raises ++ [.clk, .isl, .launches, .halt, .quads, .bus, .rings, .writers, .nobind, .therm, .conf]
  | .qualTimerExpiry _ => raises ++ [.clk, .isl, .quads, .bus]
  | .sourceComparatorAbove _ => raises ++ [.isl, .quads, .bus]
  | .halvingRelease => [.clk, .quads, .srcs, .bus]
  | .halvingSustained => raises ++ [.clk, .bus]
  | .sourceComparatorBelow _ => raises ++ [.isl, .quads, .bus]
  | .sourceGateCheckTimeout _ => raises ++ [.clk, .isl, .quads, .bus]
  | .sourceStuckTimeout _ => raises ++ [.clk]
  | .gateFeedbackLevel _ _ => raises ++ [.isl, .quads, .bus]
  | .pathGateCheckTimeout _ => raises ++ [.clk, .isl, .quads, .bus]
  | .gateRampComplete _ => raises ++ [.clk, .isl, .quads, .bus]
  | .presenceConfirmed _ => [.clk, .paths]
  | .stringLowTimeout _ => raises ++ [.clk, .isl, .quads, .bus]
  | .retryTimerExpiry _ => [.clk, .paths]
  | .instantTrip _ => raises ++ [.isl, .quads, .bus]
  | .collapseDetected _ => [.slots, .chans, .profs, .paths]
  | .collapseHoldEnd _ => [.clk, .chans, .paths]
  | .stuckOnTimeout _ => raises ++ [.clk, .isl, .quads, .bus]
  | .arbiterDecision _ => raises ++ [.loader, .bootp, .isl, .quads, .mods, .cal, .therm, .fi, .mem, .conf, .swaps, .sup]
  | .conversionDone _ _ _ => [.arbs, .clk, .isl, .mods, .seqs, .rings, .writers, .cal, .hk, .log, .fi, .mem]
  | .sequencerDelayExpiry _ => [.arbs, .clk, .mods, .seqs, .rings, .writers]
  | .ringRecordWrite _ => [.arbs, .rings, .writers, .log, .fi, .mem, .alert]
  | .calStepDone => [.loader, .arbs, .isl, .cal, .log, .fi, .mem, .conf, .alert]
  | .referenceImplausible _ => raises ++ [.hk]
  | .referenceChangeLaunch => [.arbs, .clk, .mods, .seqs, .cal, .hk, .log, .alert]
  | .thermalUpdate => raises ++ [.isl, .quads, .bus, .mods, .seqs, .rings, .writers, .nobind, .cal, .therm, .hk, .fi, .mem]
  | .tjArrival _ => raises ++ [.clk, .isl, .launches, .halt, .quads, .bus, .rings, .writers, .nobind, .therm, .conf]
  | .hkRoundStart => [.arbs, .clk, .hk]
  | .hkRoundComplete => raises ++ [.hk]
  | .oscillatorLost _ _ => raises ++ [.hk]
  | .faultRaise _ => raises ++ [.isl, .quads, .bus]
  | .rpathFault _ _ => raises ++ [.isl, .quads, .bus]
  | .rpathRestored _ => [.arbs, .faults, .log]
  | .recoveryGrant _ => [.arbs, .clk, .slots, .chans, .paths, .srcs, .faults, .col, .log]
  | .promotionWindowEnd _ => [.clk, .faults]
  | .logRecordWrite => [.arbs, .log, .fi, .mem]
  | .logSecondEnd => [.arbs, .clk, .faults, .col, .log]
  | .captureBufferComplete _ => raises ++ [.clk, .mods, .rings, .writers, .therm, .fi, .mem]
  | .fiDurationExpiry => raises ++ [.clk, .isl, .quads, .bus, .fi]
  | .newtRequest => raises ++ [.clk, .mods]
  | .swapCheckDone => [.loader, .check, .arbs, .slots, .mods, .log, .swaps, .reload, .alert]
  | .scrubStep _ => raises ++ [.clk, .mods, .therm, .mem]
  | .rowRemapDone => [.arbs, .log, .mem]
  | .correctionWindowExpiry _ _ => [.clk, .mem]
  | .reloadCheckDone => [.check, .arbs, .isl, .chans, .log, .reload, .alert]
  | .reloadStopDone => [.arbs, .mem, .reload]
  | .reloadStopTimeout => [.arbs, .clk, .isl, .slots, .chans, .profs, .paths, .log]
  | .reloadWriteDone => raises ++ [.isl, .launches, .mods, .rings, .writers, .therm, .fi, .mem, .reload]
  | .reloadRearmLaunch => raises ++ [.loader, .check, .clk, .isl, .quads, .mods, .seqs, .rings, .writers, .nobind, .fi, .mem, .conf, .swaps, .reload]
  | .armCheckDone => raises ++ [.start, .check, .isl, .launches, .cvn, .quads, .rings, .writers, .nobind]
  | .ackPollTimer => [.bootp, .arbs, .clk]
  | .pageWriteTimeout => [.start, .devState, .latch, .loader, .mode, .bootp, .arbs, .clk, .cal, .log, .mem, .reload, .alert]
  | .ident _ => [.arbs, .log, .fi, .sup]
  | .peek _ => raises ++ [.loader, .button, .mode, .bootp, .cvn, .halt, .mods, .seqs, .rings, .nobind, .therm, .hk, .fi, .mem, .sup]
  | .qLoReadLatch _ _ => [.profs]
  | .alertRead _ => raises ++ [.loader, .button, .mode, .bootp, .cvn, .halt, .mods, .seqs, .rings, .nobind, .therm, .hk, .fi, .mem, .sup]
  | .ringRead _ => raises ++ [.mods, .therm, .fi, .mem, .sup]
  | .logRead _ => raises ++ [.mods, .therm, .fi, .mem, .sup]
  | .ringAck _ => [.rings, .sup]
  | .logAck _ => [.log, .sup]
  | .clear _ => [.start, .mode, .isl, .cvn, .slots, .profs, .paths, .srcs, .mods, .therm, .hk, .caps, .sup]
  | .summary _ => [.arbs, .log, .fi, .sup]
  | .caravanSummary _ => [.arbs, .log, .fi, .sup]
  | .result _ => [.arbs, .log, .fi, .sup]
  | .serviceUnlock _ => [.sup]
  | .serviceLock _ => [.sup]
  | .write _ => raises ++ [.start, .mode, .isl, .cvn, .quads, .bus, .mods, .therm, .hk, .fi, .sup]
  | .writeNarrowI _ _ _ _ => raises ++ [.start, .mode, .isl, .cvn, .quads, .bus, .mods, .therm, .hk, .fi, .sup]
  | .writeNarrowV _ _ _ _ => raises ++ [.start, .mode, .isl, .cvn, .quads, .bus, .mods, .therm, .hk, .fi, .sup]
  | .writeHostStop _ _ _ => raises ++ [.start, .mode, .isl, .cvn, .quads, .bus, .mods, .therm, .hk, .fi, .sup]
  | .fiRsArm _ _ _ => raises ++ [.start, .mode, .isl, .cvn, .quads, .bus, .mods, .therm, .hk, .fi, .sup]
  | .fiPecArm _ _ => raises ++ [.start, .mode, .isl, .cvn, .quads, .bus, .mods, .therm, .hk, .fi, .sup]
  | .fiCrcArm _ _ => raises ++ [.start, .mode, .isl, .cvn, .quads, .bus, .mods, .therm, .hk, .fi, .sup]
  | .fiRailArm _ _ _ _ => raises ++ [.start, .mode, .isl, .cvn, .quads, .bus, .mods, .therm, .hk, .fi, .sup]
  | .armRegion _ => [.check, .sup]
  | .reloadRegion _ => [.loader, .bootp, .arbs, .reload, .sup]
  | .inject _ => [.arbs, .mods, .sup]
  | .calZero _ => [.arbs, .cal, .sup]
  | .calFull _ => [.arbs, .cal, .sup]
  | .calCommit _ => raises ++ [.loader, .bootp, .mods, .cal, .therm, .fi, .mem, .conf, .reload, .sup]
  | .nvmWrite _ => [.bootp, .arbs, .reload, .sup]
  | .nvmFetch _ => [.bootp, .arbs, .reload, .sup]
  | .nvmData _ => [.arbs, .log, .fi, .sup]
  | .unknownCommand _ => [.sup]
  | .busError => [.sup]
  | .clockLowTimeout => [.sup]
  | .unlockExpiry => [.clk, .sup]
  | .lockoutEnd => [.clk, .sup]
  | .alertResponseRead _ _ => [.arbs, .log, .fi, .sup, .alert]
  | .pollRoundStart => [.arbs, .clk, .sup]
  | .pollDone _ => [.arbs, .sup, .alert]
  | .alertLineTimeout => [.arbs]
  | .arbitrationLost _ => [.arbs, .sup]
  | .arbitrationBackoffEnd => [.clk, .sup]
  | .controllerBusStuck _ _ => [.start, .devState, .latch, .loader, .mode, .bootp, .arbs, .cal, .log, .mem, .reload, .sup, .alert]
  | .driverFaultCleared _ => raises
  | .referencePlausible _ => raises ++ [.hk]
  | .busFree _ => [.bootp, .sup]
  | .sourceComparatorBetween _ => raises ++ [.isl, .quads, .bus]

/-! ### Time and launches -/

/-- No launch comes before the instant of a command that lets time pass (R21, R24, R129), so that the command is what comes next; a command that
stands for a launch (R21) has none issued that the islands still hold. Every other command takes no time. -/
def calm (c : Instr) (d : Device) : Bool :=
  match c with
  | .ackPollTimer => undisturbed 0 ackPoll d
  | .pageWriteTimeout => undisturbed 0 pageTimeout d
  | .bootSettleExpiry => undisturbed 0 bootSettle d
  | .noImageRetry => undisturbed 0 noImageRetry d
  | .carrierReset r => !launchIssued (.carrierReset r) d && undisturbed (LaunchAct.order (.carrierReset r)) (carrierResetLaunch r) d
  | .joinTimeout => undisturbed 0 joinTimeout d
  | .proposeTimeout => undisturbed 0 proposeTimeout d
  | .modeDisagreeTimer => undisturbed 0 disagreeTimer d
  | .modeSample v => undisturbed 0 (modeSample v) d
  | .modeUnstableTimeout => undisturbed 0 modeUnstable d
  | .runLaunch => !launchIssued .run d && undisturbed (LaunchAct.order .run) runLaunch d
  | .svcPress8s => undisturbed 0 svcPress d
  | .svcRampDone => undisturbed 0 svcRampDone d
  | .svcHoldExpiry => undisturbed 0 svcHoldExpiry d
  | .timeFrameBoundary => undisturbed 0 frameBoundary d
  | .insertionSlot => undisturbed 0 insertionSlot d
  | .joinRetryTimer => undisturbed 0 joinRetry d
  | .presentTimer => undisturbed 0 presentTimer d
  | .memberDropTimeout id => undisturbed 0 (memberDrop id) d
  | .leaderLostTimeout => undisturbed 0 leaderLostTimeout d
  | .deputyTakeover => undisturbed 0 deputyTakeover d
  | .handbackSwitch => undisturbed 0 handbackSwitch d
  | .rivalLeader => undisturbed 0 rivalLeader d
  | .haltPredict => undisturbed 0 haltPredict d
  | .haltRampFix => undisturbed 0 haltRampFix d
  | .haltRampDown => undisturbed 0 haltRampDown d
  | .quietWindowStart => !launchIssued .quietStart d && undisturbed (LaunchAct.order .quietStart) quietStart d
  | .haltConversionStart => !launchIssued .convStart d && undisturbed (LaunchAct.order .convStart) conversionStart d
  | .quietWindowEnd => !launchIssued .quietEnd d && undisturbed (LaunchAct.order .quietEnd) quietEnd d
  | .reloadStopTimeout => undisturbed 0 reloadStopTimeout d
  | .reloadRearmLaunch => !rearmIssued d && undisturbed 0 reloadRearm d
  | .rampFactorUpdate => undisturbed 0 rampFactorUpdate d
  | .softStartTimeout c => undisturbed 0 (softStartTimeout c (ssDue c d)) d
  | .cutEndTimer c => undisturbed 0 (cutEnd c) d
  | .pulseRampDown c => undisturbed 0 (pulseRampDown c) d
  | .restStart c => !launchIssued (.restStart c) d && undisturbed (LaunchAct.order (.restStart c)) (restStart c) d
  | .restSampleEnd c => undisturbed 0 (restSampleEnd c) d
  | .restEvaluation c => undisturbed 0 (restEvaluation c) d
  | .restEnd c => undisturbed 0 (restEnd c) d
  | .recTimeout c => undisturbed 0 (recTimeout c) d
  | .finTimeout c => undisturbed 0 (finTimeout c) d
  | .keepTimerExpiry c => undisturbed 0 (keepTimer c) d
  | .staggerDeal => undisturbed 0 staggerDeal d
  | .staggerFrameStart => undisturbed 0 staggerFrame d
  | .staggerGainUpdate => undisturbed 0 staggerGain d
  | .carrierValley t cmp moved => undisturbed 0 (carrierValley t cmp moved) d
  | .carrierPeak c => undisturbed 0 (carrierPeak c) d
  | .blankingEnd n cmp => undisturbed 0 (blankingEnd n cmp) d
  | .upperCrossing n pos => undisturbed 0 (fun d => upperCrossing n pos.toNat (waitPos n pos.toNat d)) d
  | .tonMaxReached n cmp => undisturbed 0 (tonMaxReached n cmp) d
  | .onTimeLimit n cmp => undisturbed 0 (onTimeLimit n cmp) d
  | .deadTimeEnd n => undisturbed 0 (deadTimeEnd n) d
  | .lowerCrossing n pos => undisturbed 0 (fun d => lowerCross n pos.toNat (waitPos n pos.toNat d)) d
  | .yOffCount n => undisturbed 0 (yOffCount n) d
  | .slopeCompStep n => undisturbed 0 (slopeStep n) d
  | .budgetUpdate => undisturbed 0 budgetUpdate d
  | .vsysEvaluation => undisturbed 0 vsysEvaluation d
  | .sysFreshnessExpiry q => undisturbed 0 (sysExpiry q) d
  | .handoverTimeout => undisturbed 0 handoverTimeout d
  | .returnTimeout => undisturbed 0 returnTimeout d
  | .stuckOnTimeout c => undisturbed 0 (fun d => busEval (stuckOn c d)) d
  | .qualTimerExpiry k => undisturbed 0 (qualTimer k) d
  | .halvingRelease => undisturbed 0 halvingRelease d
  | .halvingSustained => undisturbed 0 halvingSustained d
  | .sourceGateCheckTimeout k => undisturbed 0 (srcCheckTimeout k) d
  | .sourceStuckTimeout k => undisturbed 0 (srcStuck k) d
  | .gateRampComplete g => undisturbed 0 (gateRampDone g) d
  | .pathGateCheckTimeout c => undisturbed 0 (fun d => busEval (pathCheckTimeout c d)) d
  | .presenceConfirmed c => undisturbed 0 (presenceConfirmed c) d
  | .stringLowTimeout c => undisturbed 0 (fun d => busEval (stringLow c d)) d
  | .retryTimerExpiry c => undisturbed 0 (retryTimer c) d
  | .collapseHoldEnd c => undisturbed 0 (collapseEnd c) d
  | .streamResult m raw ovr => undisturbed 0 (streamResult m raw.toInt ovr) d
  | .sequencerDelayExpiry t => undisturbed 0 (seqDelay t) d
  | .conversionDone m raw ovr => undisturbed 0 (conversionDone m raw.toInt ovr) d
  | .snapshotDone raws => undisturbed 0 (snapshotDone raws) d
  | .readbackTestDone q raw idle high => undisturbed 0 (readbackDone q raw.toInt idle high) d
  | .hkRoundStart => undisturbed 0 hkRoundStart d
  | .referenceChangeLaunch => undisturbed 0 refChange d
  | .newtRequest => undisturbed 0 newtRequest d
  | .scrubStep upsets => undisturbed 0 (scrubStep upsets) d
  | .correctionWindowExpiry bank row => undisturbed 0 (correctionExpiry bank row) d
  | .recoveryGrant f => undisturbed 0 (recoveryGrant f) d
  | .promotionWindowEnd f => undisturbed 0 (promotionWindowEnd f) d
  | .logSecondEnd => undisturbed 0 logSecondEnd d
  | .fiDurationExpiry => undisturbed 0 (fun d => busEval (fiExpiry d)) d
  | .captureBufferComplete b => undisturbed 0 (finishCapture b) d
  | .unlockExpiry => undisturbed 0 unlockExpiry d
  | .lockoutEnd => undisturbed 0 lockoutEnds d
  | .pollRoundStart => undisturbed 0 pollRound d
  | .arbitrationBackoffEnd => undisturbed 0 backoffEnd d
  | _ => true

/-! ### The bus state -/

/-- No move of the bus state that holds at once is due (R302). -/
def busSettled (d : Device) : Bool :=
  match d.bus.st with
  | .beforeRun => true
  | .sourced => anyAdmitted d
  | .handover => !(anyFull d && !anyToFull d)
  | .onStrings => !anyAdmitted d
  | .ret => anyAdmitted d && anyFull d

/-! ### Transactions of the supervisory target -/

/-- A block write of a command code that reaches its STOP whole and with its right PEC (R491, R492). -/
def soundBlock (code : Byte) (w : BlockWrite) (d : Device) : Bool :=
  decide (w.data.length = w.count.toNat) && decide (w.pec = some (byteOf (crc8 ([addrByte d false, code, w.count] ++ w.data))))

/-- What the count of a source reads after an event of its own: one that is treated as active already is not raised again (R415). -/
def raisedCount (d : Device) (f : Nat) : Halfword :=
  let y := d.faults[Fin.ofNat 2048 f]
  if y.active then y.count else satInc y.count

/-- From device d to device e the `RESULT` block takes a command code and a result (R501), and the target has acknowledged. -/
def recorded (code res : Byte) (d e : Device) : Prop :=
  e.sup.resCmd = code ∧ e.sup.resCode = res ∧ e.sup.resSeq = d.sup.resSeq + 1 ∧ e.sup.acked = true ∧ e.sup.out = [] ∧
    e.sup.cmdRefused = (if res = 0 then d.sup.cmdRefused else satInc d.sup.cmdRefused)

/-- The bytes of a read part after the bytes that precede it: byte count, data, PEC (R491). -/
def readBytes (pre bytes : List Byte) : List Byte :=
  byteOf bytes.length :: bytes ++ [byteOf (crc8 (pre ++ byteOf bytes.length :: bytes))]

/-- The bytes before the read part of a process call (R491). -/
def callBytes (code : Byte) (p : ProcessCall) (d : Device) : List Byte := [addrByte d false, code, p.count] ++ p.data ++ [addrByte d true]

/-- The bytes before the read part of a block read. -/
def blockBytes (code : Byte) (d : Device) : List Byte := [addrByte d false, code, addrByte d true]

/-- The block writes: command code, least and greatest length (R499), and whether the command needs the unlock (R498). The
writes of one named word are WRITE. -/
def blockOf : Instr → Option (Byte × Nat × Nat × Bool × BlockWrite)
  | .ringAck w => some (0x05, 3, 3, false, w)
  | .logAck w => some (0x06, 2, 2, false, w)
  | .clear w => some (0x07, 7, 7, false, w)
  | .serviceUnlock w => some (0x10, 2, 2, false, w)
  | .serviceLock w => some (0x11, 1, 1, true, w)
  | .write w => some (0x12, 11, 11, true, w)
  | .writeNarrowI c mask value pec => some (0x12, 11, 11, true, writeOf (0x110018 + 128 * c.1) mask.toNat value.toNat pec)
  | .writeNarrowV c mask value pec =>
    some (0x12, 11, 11, true, writeOf (0x110018 + 128 * c.1) (65536 * mask.toNat) (65536 * value.toNat) pec)
  | .writeHostStop c value pec => some (0x12, 11, 11, true, writeOf (0x11001C + 128 * c.1) 1 (b2n value) pec)
  | .fiRsArm n reg pec => some (0x12, 11, 11, true, writeOf 0x100220 0x1F (n.toNat + 4 * reg.toNat) pec)
  | .fiPecArm on pec => some (0x12, 11, 11, true, writeOf 0x100220 0x20 (32 * b2n on) pec)
  | .fiCrcArm v pec => some (0x12, 11, 11, true, writeOf 0x100220 0xC0 (64 * v.toNat) pec)
  | .fiRailArm f m x pec => some (0x12, 11, 11, true, writeOf 0x100224 0xFFFF3FFF (f.toNat + 4096 * m.toNat + 65536 * x.toNat) pec)
  | .armRegion w => some (0x13, 2, 2, true, w)
  | .reloadRegion w => some (0x14, 3, 3, true, w)
  | .inject w => some (0x15, 4, 4, true, w)
  | .calZero w => some (0x16, 1, 1, true, w)
  | .calFull w => some (0x17, 5, 5, true, w)
  | .calCommit w => some (0x18, 1, 1, true, w)
  | .nvmWrite w => some (0x19, 5, 68, true, w)
  | .nvmFetch w => some (0x1A, 5, 5, true, w)
  | _ => none

end Sys2Proof.Machine
end

