-- ==== Sys2Proof/Certificates/Slice0/Obligations.lean ====
section
/-! DEFINITION. Sys2Proof/Certificates/Slice0/Obligations.lean: what is stated of this model for its provers. Every clause that is about one
command has the next state, or what it holds, as its conclusion; `drive` is the output stage that every command ends with. -/

open Sys2Proof Sys2Proof.Machine

/-- The queue is first in, first out: a step takes the command at its front and runs it with the rest. Readings and choices of the model: log entry
1. -/
def Obligations.StepTakesFront : Prop :=
  ∀ (c : Instr) (rest : List Instr) (s : State), s.pending = c :: rest → step s = exec c { s with pending := rest }

/-- The model's choice (log entry 2): on an empty queue one tick of 100 ns passes. Where the crossings hold no message, the islands no launch, and
the bus states are not yet evaluated, nothing else changes but the pins, which follow; the quadrants whose clocks run keep count with housekeeping.
-/
def Obligations.EmptyQueueTick : Prop :=
  (∀ s : State, s.pending = [] → ∃ t, step s = .next t ∧ t.pending = [] ∧ t.dev.pinsLegal) ∧
  (∀ s : State, s.pending = [] → (∀ x : Fin 24, s.dev.isl.fifo[x] = []) → (∀ i : Island, s.dev.isl.launches[i] = []) →
    s.dev.bus.st = .beforeRun →
    ∃ t, step s = .next t ∧ t.pending = [] ∧ t.dev.clk.up = s.dev.clk.up + 40 ∧ t.dev.clk.loc = s.dev.clk.loc + 40 ∧
      (∀ q : Quad, t.dev.clk.qtime[q] = s.dev.clk.qtime[q] + (if bitOf s.dev.isl.clkRun.toNat q.1 then 40 else 0)) ∧
      onlyParts [.clk] s.dev t.dev)

/-- R5, R33, R40, R46, R51, R162, R222, R241, R413: what the manual says of the device right after a power-on reset. The straps and the origin of
the clocks are the model's choice (log entries 3 and 5) and are not named here. That memory and the configuration in force list nothing, so that
every byte reads 0, is the model's choice too: the manual gives no contents at power-on (log entries 4 and 10). Readings and choices of the model:
log entry 10. -/
def Obligations.AfterReset : Prop :=
  State.reset.pending = [] ∧ State.reset.dev.start.st = .init ∧ State.reset.dev.start.por = true ∧ State.reset.dev.start.warmResets = 0 ∧
  State.reset.dev.pins.allOff ∧ State.reset.dev.pins.fltP = true ∧ State.reset.dev.pins.fltN = false ∧ State.reset.dev.pins.alive = false ∧
  State.reset.dev.cvn.timeState = .hold ∧ State.reset.dev.cvn.refSrc = 0b10 ∧ State.reset.dev.cvn.members = 0 ∧
  State.reset.dev.memory.mem = [] ∧ State.reset.dev.memory.conf = [] ∧ State.reset.dev.sup.unlockEnd = none ∧
  (∀ c : Chan, (State.reset.dev.chans[c]).narrowI = 0xFFFF ∧ (State.reset.dev.chans[c]).narrowV = 0xFFFF ∧
    (State.reset.dev.chans[c]).hostStop = false ∧ (State.reset.dev.chans[c]).armed = false ∧ (State.reset.dev.paths[c]).g = 0) ∧
  (∀ n : Slot, (State.reset.dev.slots[n]).pinA = false ∧ (State.reset.dev.slots[n]).pinB = false ∧ (State.reset.dev.slots[n]).cycCnt = 0) ∧
  (∀ f : Fsrc, (State.reset.dev.faults[f]).active = false ∧ (State.reset.dev.faults[f]).count = 0 ∧ (State.reset.dev.faults[f]).hold = false) ∧
  ∀ r : Ring, (State.reset.dev.rings[r]).wr = 0 ∧ (State.reset.dev.rings[r]).rd = 0

/-- The three invariants that every step keeps hold at reset. Readings and choices of the model: log entry 10. -/
def Obligations.InvariantsAtReset : Prop :=
  State.reset.dev.pinsLegal ∧ State.reset.dev.slotsApart ∧ State.reset.dev.memOk

/-- A command changes the device and leaves the waiting commands alone, on every state and for every operand; it ends in no fault and in no refusal.
That a command whose event cannot occur in the present state, or whose operand cannot reach the pins, completes as well is the model's reading (log
entries 9 and 118). A command whose event cannot occur in the present state leaves the device as it is: the model's reading (log entry 9). Readings
and choices of the model: log entry 118. -/
def Obligations.EveryCommandCompletes : Prop :=
  ∀ (c : Instr) (s : State), ∃ t, exec c s = .next t ∧ t.pending = s.pending ∧ t.dev.pinsLegal

/-- R14, R39, R46, R432, R433: the output pins are legal in every state that a step answers: no slot drives both its outputs, no power output is on
outside RUN, `FLT` is complementary in RUN and asserted under a device reaction, `ALIVE` is low outside RUN and under a device reaction. In the
engine itself, before the output stage, no slot comes to have both its outputs on. -/
def Obligations.StepKeepsPinsLegal : Prop :=
  (∀ s t : State, s.dev.pinsLegal → step s = .next t → t.dev.pinsLegal) ∧
  ∀ s t : State, s.dev.slotsApart → step s = .next t → t.dev.slotsApart

/-- The protected memory, the configuration in force, the base configuration and the reload candidate keep their canonical form (log entry 10)
through every step: addresses rise strictly and no listed byte is 0. -/
def Obligations.StepKeepsMemory : Prop :=
  ∀ s t : State, s.dev.memOk → step s = .next t → t.dev.memOk

/-- The frame of every command: only the kinds of state that `mayWrite` names may change, every other register, counter, buffer and byte of memory
is as before. A command that lets time pass may find launches that the islands reach before its instant (R21, R129): what they may change is then
added. The pins are those that the output stage gives of the rest of the device. -/
def Obligations.CommandFrames : Prop :=
  (∀ (c : Instr) (s t : State), calm c s.dev = true → exec c s = .next t →
    onlyParts (mayWrite c) s.dev t.dev ∧ t.dev.pins = (drive t.dev).pins) ∧
  ∀ (c : Instr) (s t : State), exec c s = .next t → onlyParts (mayWrite c ++ launchParts) s.dev t.dev ∧ t.dev.pins = (drive t.dev).pins

/-- R61, R62, R97, R463: the configuration in force changes only by a reset, by the building of the mirror, by what takes effect at a quiet-window
start or at a launch (one of a region re-arm, or one that an island reaches before the command's instant), and by a coefficient of a modulator that
is written. Words that a crossing held back (R20, R26) come into force when it delivers them. Readings and choices of the model: log entry 20. -/
def Obligations.ConfigurationWriters : Prop :=
  ∀ (c : Instr) (s t : State), exec c s = .next t → t.dev.memory.conf ≠ s.dev.memory.conf →
    (∃ ns, c = .resetNLow ns) ∨ (∃ r low, c = .railFalling r low) ∨ c = .svcHoldExpiry ∨ c = .mirrorBuilt ∨ c = .quietWindowStart ∨
      c = .calStepDone ∨ (∃ i, c = .arbiterDecision i) ∨ (∃ w, c = .calCommit w) ∨ c = .reloadRearmLaunch ∨ calm c s.dev = false ∨
      ((∃ x, c = .crossingMessage x) ∨ (∃ i a u, c = .launchRequest i a u) ∨ (∃ k, c = .inputBudgetArrival k) ∨ (∃ q, c = .busStateArrival q) ∨
        ∃ q, c = .tjArrival q) ∧ ∃ (x : Fin 24) (m : Option Pm), Msg.words m ∈ s.dev.isl.fifo[x]

/-- The frame of the commands of one slot's cycle: no other slot changes, and the channel only where a comparator's state is kept. Where a command
lets time pass, it is stated for a state in which no launch comes before its instant (`calm`). Readings and choices of the model: log entry 11. -/
def Obligations.SlotFrames : Prop :=
  ∀ (n k : Slot) (cmp : Cmp) (pos : BitVec 20) (i : Instr) (s t : State), k ≠ n → calm i s.dev = true → exec i s = .next t →
    (i = .upperCrossing n pos ∨ i = .blankingEnd n cmp ∨ i = .tonMaxReached n cmp ∨ i = .onTimeLimit n cmp ∨ i = .deadTimeEnd n ∨
      i = .lowerCrossing n pos ∨ i = .yOffCount n ∨ i = .slopeCompStep n) →
    t.dev.slots[k] = s.dev.slots[k] ∧ t.dev.pins.pwma[k] = (drive s.dev).pins.pwma[k] ∧ t.dev.pins.pwmb[k] = (drive s.dev).pins.pwmb[k]

/-- The frame of the commands of one channel that raise nothing and take nothing from a crossing: no other channel, path or profile changes. Where a
command lets time pass, it is stated for a state in which no launch comes before its instant (`calm`). -/
def Obligations.ChannelFrames : Prop :=
  ∀ (c k : Chan) (mask value : BitVec 16) (stop : Bool) (pec : Option Byte) (i : Instr) (s t : State), k ≠ c → calm i s.dev = true →
    exec i s = .next t →
    (i = .cutEndTimer c ∨ i = .pulseRampDown c ∨ i = .restStart c ∨ i = .restSampleEnd c ∨ i = .restEnd c ∨ i = .keepTimerExpiry c ∨
      i = .retryTimerExpiry c ∨ i = .presenceConfirmed c ∨ i = .writeNarrowI c mask value pec ∨ i = .writeNarrowV c mask value pec ∨
      i = .writeHostStop c stop pec) →
    t.dev.chans[k] = s.dev.chans[k] ∧ t.dev.profs[k] = s.dev.profs[k] ∧ t.dev.paths[k] = s.dev.paths[k]

/-- The frame of the writes and reads of one named word, in place of those of WRITE and PEEK: a host narrowing and HOST_STOP reach their channel and
its quadrant, an injection word the injections, and the read of `ALERT` the supervisory port. -/
def Obligations.NamedWordFrames : Prop :=
  (∀ (c : Chan) (mask value : BitVec 16) (stop : Bool) (pec : Option Byte) (s t : State),
    (exec (.writeNarrowI c mask value pec) s = .next t ∨ exec (.writeNarrowV c mask value pec) s = .next t ∨
      exec (.writeHostStop c stop pec) s = .next t) → onlyParts [.isl, .chans, .sup] s.dev t.dev) ∧
  (∀ (n : BitVec 2) (reg : BitVec 3) (on : Bool) (v : BitVec 2) (pec : Option Byte) (s t : State),
    (exec (.fiRsArm n reg pec) s = .next t ∨ exec (.fiPecArm on pec) s = .next t ∨ exec (.fiCrcArm v pec) s = .next t) →
    onlyParts [.arbs, .log, .fi, .sup] s.dev t.dev) ∧
  (∀ (f : BitVec 12) (m : BitVec 2) (x : BitVec 16) (pec : Option Byte) (s t : State),
    exec (.fiRailArm f m x pec) s = .next t → onlyParts (raises ++ [.isl, .quads, .bus, .fi, .sup]) s.dev t.dev) ∧
  ∀ (ackLast : Bool) (s t : State), exec (.alertRead ackLast) s = .next t → onlyParts [.arbs, .log, .fi, .sup, .alert] s.dev t.dev

/-- R39, R42, R43, R45, R46: reset. R39, R51, R58: from INIT to the first image read. Where a command lets time pass, it is stated for a state in
which no launch comes before its instant (`calm`). The time at which a timed command finds the clocks is the model's choice (log entry 2). A command
whose event cannot occur in the present state leaves the device as it is: the model's reading (log entry 9). Readings and choices of the model: log
entries 3, 139. -/
def Obligations.ResetAndLoad : Prop :=
  (∀ ns s, 200 ≤ ns → s.dev.start.st ≠ .reset →
    ∃ t, exec (.resetNLow ns) s = .next t ∧ t.dev.start.st = .reset ∧ t.dev.start.accPin = true ∧ t.dev.start.straps = s.dev.start.straps ∧
      t.dev.pins.allOff ∧ t.dev.pins.fltP = true ∧ t.dev.pins.fltN = false ∧ t.dev.pins.alive = false) ∧
  (∀ ns s, ns < 50 → ∃ t, exec (.resetNLow ns) s = .next t ∧ t.dev = drive s.dev) ∧
  (∀ r low s, ∃ t, exec (.railFalling r low) s = .next t ∧ t.dev.start.st = .reset ∧ t.dev.start.accRails.getLsbD r.1 = true ∧
      t.dev.pins.allOff ∧ t.dev.pins.fltP = true ∧ t.dev.pins.fltN = false) ∧
  (∀ st te se s, s.dev.start.st = .reset →
    ∃ t, exec (.resetRelease st te se) s = .next t ∧ t.dev.start.st = .init ∧ t.dev.start.straps = st ∧ t.dev.start.testEn = te ∧
      t.dev.start.scanEn = se ∧ t.dev.start.por = s.dev.start.accCoreLow ∧
      t.dev.start.brownout = (!s.dev.start.accCoreLow && decide (s.dev.start.accRails ≠ 0)) ∧ t.dev.start.pin = s.dev.start.accPin ∧
      t.dev.start.svc = s.dev.start.accSvc ∧ t.dev.start.railLow = s.dev.start.accRails ∧
      t.dev.start.warmResets = (if s.dev.start.accCoreLow then 0 else satInc s.dev.start.warmResets)) ∧
  (∀ s, calm .svcHoldExpiry s.dev = true →
    s.dev.start.st = .svcHold → ∃ t, exec .svcHoldExpiry s = .next t ∧ t.dev.start.st = .reset ∧ t.dev.start.accSvc = true) ∧
  (∀ v k s, s.dev.start.st = .init → s.dev.start.testEn = false → s.dev.start.scanEn = false → bitOf k.toNat 4 = true →
    ∃ t, exec (.initComplete v k) s = .next t ∧ t.dev.start.st = .load ∧ t.dev.start.qdInitFail = ~~~(k.truncate 4) ∧
      t.dev.loader.loadAttempts = satInc s.dev.loader.loadAttempts ∧ t.dev.loader.aResult = 0 ∧ t.dev.loader.bResult = 0) ∧
  (∀ s, calm .bootSettleExpiry s.dev = true → s.dev.start.st = .load → s.dev.loader.rd = none →
    ∃ t, exec .bootSettleExpiry s = .next t ∧ t.dev.clk.up = max s.dev.clk.up (64 * ms) ∧ t.dev.bootp.want0 = some (.read false 0 64) ∧
      t.dev.start = s.dev.start) ∧
  (∀ s, calm .noImageRetry s.dev = true → s.dev.start.st = .noImage →
    ∃ t, exec .noImageRetry s = .next t ∧ t.dev.start.st = .load ∧ t.dev.clk.up = max s.dev.clk.up (s.dev.start.entered + 10 * sec) ∧
      t.dev.loader.loadAttempts = satInc s.dev.loader.loadAttempts ∧ t.dev.bootp.want0 = some (.read false 0 64) ∧
      t.dev.bootp.recovered = s.dev.bootp.recovered + 1)

/-- R62, R66 to R71: BUILD, the start check and what it arms, and the check of an ARM_REGION. R49, R50, R62, R64: straps and mode pins. Where a
command lets time pass, it is stated for a state in which no launch comes before its instant (`calm`). The time at which a timed command finds the
clocks is the model's choice (log entry 2). Readings and choices of the model: log entries 20, 50, 127. -/
def Obligations.BuildAndPins : Prop :=
  (∀ s, s.dev.start.st = .build → s.dev.start.modeUnstable = false → s.dev.start.checking = false →
    ∃ t, exec .mirrorBuilt s = .next t ∧ t.dev.loader.built = true ∧ t.dev.mode.active = s.dev.mode.taken ∧ t.dev.start.checking = true ∧
      t.dev.start.st = .build ∧
      ((∀ q : Quad, toWaits s.dev q = false) → t.dev.memory.conf = composeMem s.dev.loader.base s.dev.loader.ovls s.dev.mode.taken.toNat) ∧
      t.dev.memory.conf = (allQuads.filter (toWaits s.dev)).foldl (fun m q => mergeBase m s.dev.memory.conf (islandRanges q))
        (composeMem s.dev.loader.base s.dev.loader.ovls s.dev.mode.taken.toNat) ∧
      ∀ q : Quad, t.dev.isl.fifo[xIndex (.toQd q)] = s.dev.isl.fifo[xIndex (.toQd q)] ++ (if toWaits s.dev q then [.words none] else [])) ∧
  (∀ s r, s.dev.start.st = .build → s.dev.start.checking = true →
    r = checkAll (structOf s.dev) s.dev.loader.base s.dev.loader.ovls s.dev.mode.taken.toNat s.dev (chEnable s.dev) (qdEnable s.dev) →
    (r.reason ≠ 0 ∨ s.dev.loader.runEnable = false ∨ s.dev.start.latchAtStart = true) → s.dev.mode.deb = some s.dev.mode.taken →
    ∃ t, exec .startCheckDone s = .next t ∧ t.dev.start.st = .configured ∧ t.dev.start.checking = false ∧ t.dev.check.done = true ∧
      t.dev.check.reason = BitVec.ofNat 8 r.reason ∧ t.dev.check.object = BitVec.ofNat 12 r.obj ∧
      t.dev.check.trigger = BitVec.ofNat 4 s.dev.start.trigger ∧ t.dev.chans = s.dev.chans ∧ t.dev.quads = s.dev.quads) ∧
  (∀ s, s.dev.start.st = .build → s.dev.start.checking = true → s.dev.loader.runEnable = true → s.dev.start.latchAtStart = false →
    (checkAll (structOf s.dev) s.dev.loader.base s.dev.loader.ovls s.dev.mode.taken.toNat s.dev (chEnable s.dev) (qdEnable s.dev)).reason = 0 →
    ∃ t, exec .startCheckDone s = .next t ∧ t.dev.start.st = .join ∧ t.dev.start.checking = false ∧ t.dev.check.done = true ∧
      t.dev.check.reason = 0 ∧ (∀ c : Chan, chEnable s.dev c = true → toWaits s.dev (Chan.quad c) = false → (t.dev.chans[c]).armed = true) ∧
      (∀ q : Quad, qdEnable s.dev q = true → toWaits s.dev q = false → (t.dev.quads[q]).armed = true) ∧
      (∀ c : Chan, chEnable s.dev c = false ∨ toWaits s.dev (Chan.quad c) = true → t.dev.chans[c] = s.dev.chans[c]) ∧
      (∀ q : Quad, qdEnable s.dev q = false ∨ toWaits s.dev q = true → (t.dev.quads[q]).armed = (s.dev.quads[q]).armed) ∧
      ∀ q : Quad, toWaits s.dev q = true →
        (s.dev.isl.fifo[xIndex (.toQd q)] ++ (if qdEnable s.dev q then [.region (.arm (.quadrant q))] else []) ++
          ((quadChans q).filter (chEnable s.dev)).map fun c => .region (.arm (.channel c))) <+: t.dev.isl.fifo[xIndex (.toQd q)]) ∧
  (∀ s g rest, s.dev.check.arming = g :: rest →
    ∃ t, exec .armCheckDone s = .next t ∧ t.dev.check.arming = rest ∧ t.dev.check.done = true ∧ t.dev.check.trigger = 1 ∧
      t.dev.check.reason = BitVec.ofNat 8 (armCheck s.dev g).reason) ∧
  (∀ s g rest, s.dev.check.arming = g :: rest → (armCheck s.dev g).reason ≠ 0 →
    ∃ t, exec .armCheckDone s = .next t ∧ t.dev.chans = s.dev.chans ∧ t.dev.quads = s.dev.quads ∧ t.dev.start = s.dev.start ∧ t.dev.isl = s.dev.isl) ∧
  (∀ s (c : Chan) rest, s.dev.check.arming = .channel c :: rest → (armCheck s.dev (.channel c)).reason = 0 → s.dev.start.latchAtStart = false →
    s.dev.start.st = .configured →
    ∃ t, exec .armCheckDone s = .next t ∧ t.dev.start.st = .join ∧
      (toWaits s.dev (Chan.quad c) = false → (t.dev.chans[c]).armed = true ∧ (t.dev.quads[Chan.quad c]).armed = true) ∧
      (toWaits s.dev (Chan.quad c) = true → t.dev.chans = s.dev.chans ∧ t.dev.quads = s.dev.quads ∧
        (s.dev.isl.fifo[xIndex (.toQd (Chan.quad c))] ++ [.region (.arm (.channel c))]) <+: t.dev.isl.fifo[xIndex (.toQd (Chan.quad c))])) ∧
  (∀ s (c : Chan) rest, s.dev.check.arming = .channel c :: rest → (armCheck s.dev (.channel c)).reason = 0 → s.dev.start.latchAtStart = false →
    s.dev.start.st = .run → (s.dev.chans[c]).armed = false →
    ∃ t, exec .armCheckDone s = .next t ∧ t.dev.start.st = .run ∧ (t.dev.chans[c]).st = (s.dev.chans[c]).st ∧
      (toWaits s.dev (Chan.quad c) = false → (t.dev.chans[c]).armed = true ∧ (t.dev.quads[Chan.quad c]).armed = true) ∧
      (toWaits s.dev (Chan.quad c) = true → t.dev.chans = s.dev.chans ∧ t.dev.quads = s.dev.quads) ∧
      t.dev.isl.fifo[xIndex (.toQd (Chan.quad c))] = s.dev.isl.fifo[xIndex (.toQd (Chan.quad c))] ++
        (if toWaits s.dev (Chan.quad c) then [.region (.arm (.channel c))] else []) ++
        [.launch ⟨.carrierReset (if (s.dev.quads[Chan.quad c]).armed then .channel c else .quadrant (Chan.quad c)), s.dev.clk.loc + us⟩]) ∧
  (∀ s (q : Quad) rest, s.dev.check.arming = .quadrant q :: rest → (armCheck s.dev (.quadrant q)).reason = 0 → s.dev.start.latchAtStart = false →
    s.dev.start.st = .run → (s.dev.quads[q]).armed = false →
    ∃ t, exec .armCheckDone s = .next t ∧ (t.dev.quads[q]).armed = !(toWaits s.dev q) ∧ t.dev.chans = s.dev.chans ∧
      t.dev.isl.fifo[xIndex (.toQd q)] = s.dev.isl.fifo[xIndex (.toQd q)] ++
        (if toWaits s.dev q then [.region (.arm (.quadrant q))] else []) ++ [.launch ⟨.carrierReset (.quadrant q), s.dev.clk.loc + us⟩]) ∧
  (∀ v s, calm (.modeSample v) s.dev = true → s.dev.start.st ≠ .reset → s.dev.start.st ≠ .svcHold → s.dev.mode.deb = some v →
    ∃ t, exec (.modeSample v) s = .next t ∧ t.dev.mode.last = v ∧ t.dev.mode.deb = some v ∧ t.dev.mode.active = s.dev.mode.active ∧
      t.dev.clk.up = nextOf ms s.dev.clk.taken[4] s.dev.clk.up) ∧
  (∀ v s, calm (.modeSample v) s.dev = true →
    s.dev.start.st = .build → s.dev.start.modeUnstable = true → s.dev.mode.last = v → 19 ≤ s.dev.mode.run → s.dev.mode.deb ≠ some v →
    ∃ t, exec (.modeSample v) s = .next t ∧ t.dev.mode.deb = some v ∧ t.dev.mode.taken = v ∧ t.dev.start.modeUnstable = false ∧
      t.dev.start.st = .build) ∧
  (∀ s u, calm .modeUnstableTimeout s.dev = true →
    s.dev.start.st = .build → s.dev.start.modeUnstable = true → s.dev.start.unstableAt = some u → s.dev.col.logQ.length < 32 →
    ∃ t, exec .modeUnstableTimeout s = .next t ∧ t.dev.start.modeUnstable = true ∧ t.dev.start.st = .build ∧
      t.dev.clk.up = max s.dev.clk.up (u + sec) ∧ t.dev.col.logQ.length = s.dev.col.logQ.length + 1) ∧
  (∀ p s, s.dev.start.st ≠ .reset → s.dev.start.st ≠ .svcHold → p ≠ s.dev.start.straps → s.dev.col.logQ.length < 32 →
    ∃ t, exec (.strapChanged p) s = .next t ∧ t.dev.start.strapChanged = true ∧ t.dev.start.straps = s.dev.start.straps ∧
      t.dev.start.st = s.dev.start.st ∧ t.dev.col.logQ.length = s.dev.col.logQ.length + 1)

/-- R72, R73: JOIN ends and RUN is launched. R74, R75, R76: the service button. Where a command lets time pass, it is stated for a state in which no
launch comes before its instant (`calm`). The time at which a timed command finds the clocks is the model's choice (log entry 2). A command whose
event cannot occur in the present state leaves the device as it is: the model's reading (log entry 9). Readings and choices of the model: log
entries 50, 80. -/
def Obligations.JoinRunAndButton : Prop :=
  (∀ s, calm .joinTimeout s.dev = true → s.dev.start.st = .join → s.dev.start.resolvedAt = none →
    ∃ t, exec .joinTimeout s = .next t ∧ t.dev.start.joinResult = 4 ∧ t.dev.start.resolvedAt = some t.dev.clk.loc ∧ t.dev.cvn.role = .alone ∧
      t.dev.start.st = .join ∧ ∀ q : Quad, t.dev.isl.fifo[xIndex (.toQd q)] = s.dev.isl.fifo[xIndex (.toQd q)] ++
        [.launch ⟨.run, msBoundary (t.dev.clk.loc + us)⟩]) ∧
  (∀ s u, calm .runLaunch s.dev = true → s.dev.start.st = .join → s.dev.start.latchAtStart = false → s.dev.start.resolvedAt = some u →
    ∃ t, exec .runLaunch s = .next t ∧ t.dev.start.st = .run ∧ t.dev.start.resolvedAt = none ∧
      t.dev.clk.loc = max s.dev.clk.loc (msBoundary (u + us)) ∧ t.dev.bus.st = .onStrings) ∧
  (∀ u t0 s, s.dev.start.st = .join → s.dev.start.latchAtStart = false → s.dev.start.resolvedAt = some u → t0 = msBoundary (u + us) →
    (∀ x : Fin 24, s.dev.isl.fifo[x] = []) → (∀ q : Quad, s.dev.isl.launches[quadIsland q] = []) →
    s.dev.isl.launches[(4 : Island)] = [⟨.run, t0⟩] → bitOf s.dev.isl.clkRun.toNat 4 = true →
    ∃ t, exec .runLaunch s = .next t ∧ t.dev.start.st = .run ∧ t.dev.start.resolvedAt = none ∧ t.dev.isl.launches[(4 : Island)] = [] ∧
      t.dev.clk.loc = max s.dev.clk.loc t0 ∧ t.dev.bus.st = .onStrings) ∧
  (∀ s, ∃ t, exec (.svcDebounce true) s = .next t ∧
      t.dev = drive { s.dev with button := { s.dev.button with high := true, armed := decide (s.dev.start.st ≠ .reset), pressAt := none } }) ∧
  (∀ s, s.dev.button.high = true → s.dev.button.armed = true →
    ∃ t, exec (.svcDebounce false) s = .next t ∧
      t.dev = drive { s.dev with button := { s.dev.button with high := false, pressAt := some s.dev.clk.up } }) ∧
  (∀ s, s.dev.button.high = false → ∃ t, exec (.svcDebounce false) s = .next t ∧ t.dev = drive s.dev) ∧
  (∀ s u, calm .svcPress8s s.dev = true → s.dev.button.pressAt = some u → s.dev.start.st = .run → svcAllowed s.dev = false →
    ∃ t, exec .svcPress8s s = .next t ∧ t.dev.button.ignored = satInc s.dev.button.ignored ∧ t.dev.button.rampAt = s.dev.button.rampAt ∧
      t.dev.start.st = .run ∧ t.dev.clk.up = max s.dev.clk.up (u + 8 * sec)) ∧
  (∀ s u, calm .svcPress8s s.dev = true → s.dev.button.pressAt = some u → s.dev.start.st = .run → svcAllowed s.dev = true →
    ∃ t, exec .svcPress8s s = .next t ∧ t.dev.button.rampAt = some (max s.dev.clk.up (u + 8 * sec)) ∧
      t.dev.button.armed = s.dev.button.armed ∧ t.dev.start.st = .run) ∧
  (∀ s u, calm .svcPress8s s.dev = true →
    s.dev.button.pressAt = some u → s.dev.start.st ≠ .run → s.dev.start.st ≠ .reset → s.dev.start.st ≠ .svcHold →
    ∃ t, exec .svcPress8s s = .next t ∧ t.dev.start.st = .svcHold ∧ t.dev.sup.unlockEnd = none ∧ t.dev.pins.allOff ∧
      t.dev.loader.rd = none ∧ t.dev.bootp.cur = none ∧ t.dev.pins.boot = false ∧ t.dev.button.armed = s.dev.button.armed) ∧
  (∀ s u, calm .svcRampDone s.dev = true → s.dev.button.rampAt = some u → s.dev.start.st = .run →
    ∃ t, exec .svcRampDone s = .next t ∧ t.dev.start.st = .svcHold ∧ t.dev.pins.allOff ∧ t.dev.sup.unlockEnd = none ∧
      t.dev.button.rampAt = none)

/-- R486, R487: the boot port's transactions. Where a command lets time pass, it is stated for a state in which no launch comes before its instant
(`calm`). The time at which a timed command finds the clocks is the model's choice (log entry 2). Readings and choices of the model: log entry 139.
-/
def Obligations.BootTransactions : Prop :=
  (∀ o img off dat s, o < 3 → s.dev.bootp.cur = some (o, .pageWrite img off dat) → s.dev.bootp.started = true →
    ∃ t, exec (.bootTransactionDone .done) s = .next t ∧ t.dev.bootp.cur = none ∧ t.dev.bootp.page = some (o, .pageWrite img off dat) ∧
      t.dev.bootp.pageEnd = some (s.dev.clk.up + 10 * ms) ∧ t.dev.bootp.pollAt = some (s.dev.clk.up + 100 * us) ∧
      (t.dev.arbs[bport]).granted = (s.dev.arbs[bport]).granted.erase o) ∧
  (∀ (o : Fin 3) img off n s, s.dev.bootp.cur = some (o.1, .read img off n) → s.dev.bootp.started = true → s.dev.bootp.tries[o] < 3 →
    ∃ t, exec (.bootTransactionDone .addrNack) s = .next t ∧ t.dev.bootp.cur = none ∧ t.dev.loader.retries = satInc s.dev.loader.retries ∧
      t.dev.bootp.tries[o] = s.dev.bootp.tries[o] + 1 ∧ t.dev.bootp.recovered = s.dev.bootp.recovered + 1 ∧
      (t.dev.arbs[bport]).pending.any (fun r => r.1 = o.1) = true) ∧
  (∀ (o : Fin 3) img off dat at0 s, calm .ackPollTimer s.dev = true →
    s.dev.bootp.pollAt = some at0 → s.dev.bootp.page = some (o.1, .pageWrite img off dat) →
    ∃ t, exec .ackPollTimer s = .next t ∧ t.dev.bootp.pollAt = none ∧ t.dev.clk.up = max s.dev.clk.up at0 ∧
      (t.dev.arbs[bport]).pending.any (fun r => r.1 = o.1) = true) ∧
  (∀ (o : Fin 3) tx at0 s, calm .pageWriteTimeout s.dev = true →
    s.dev.bootp.pageEnd = some at0 → s.dev.bootp.page = some (o.1, tx) → s.dev.bootp.tries[o] < 3 →
    ∃ t, exec .pageWriteTimeout s = .next t ∧ t.dev.bootp.page = none ∧ t.dev.bootp.pageEnd = none ∧ t.dev.bootp.tries[o] = s.dev.bootp.tries[o] + 1 ∧
      t.dev.loader.retries = satInc s.dev.loader.retries ∧ t.dev.clk.up = max s.dev.clk.up at0)

/-- R134, R135, R432: the time frame and the insertion slot. R125, R127, R128, R139, R140: time taken from the ring. Where a command lets time pass,
it is stated for a state in which no launch comes before its instant (`calm`). The time at which a timed command finds the clocks is the model's
choice (log entry 2). Readings and choices of the model: log entries 71, 171. -/
def Obligations.TimeFrames : Prop :=
  (∀ f : List Byte, chipFrame f.length (frameChips f) = some f) ∧
  (∀ s, calm .timeFrameBoundary s.dev = true → s.dev.start.st ≠ .reset → s.dev.start.st ≠ .init → s.dev.cvn.source = false →
    ∃ t, exec .timeFrameBoundary s = .next t ∧ t.dev.clk.loc = nextOf ms s.dev.clk.taken[6] s.dev.clk.loc ∧ t.dev.cvn = s.dev.cvn) ∧
  (∀ s, calm .timeFrameBoundary s.dev = true → s.dev.start.st ≠ .reset → s.dev.start.st ≠ .init → s.dev.cvn.source = true →
    ∃ t, exec .timeFrameBoundary s = .next t ∧ t.dev.clk.loc = nextOf ms s.dev.clk.taken[6] s.dev.clk.loc ∧
      t.dev.cvn.outAt = some (16 * t.dev.clk.loc + edgeDelay s.dev) ∧
      ∃ tf more, t.dev.cvn.sent = tf :: more ∧ t.dev.cvn.chips = frameRunChips tf more ∧
        tf = frameBytes 1 (leBytes 8 (t.dev.clk.loc / tick) ++
          leBytes 1 (b2n (decide (s.dev.cvn.role = .acting)) + 2 * b2n (decide (s.dev.cvn.refSrc = 1)) + 4 * b2n s.dev.cvn.onOwn) ++
          leBytes 1 s.dev.start.straps.cvnId.toNat)) ∧
  (∀ tf more, (frameChips tf).length ≤ 242 → (frameRunChips tf more).take 242 = frameChips tf ++ List.replicate (242 - (frameChips tf).length) false ∧
    (frameRunChips tf more).drop 242 = more.flatMap fun f => frameChips f ++ List.replicate 10 false) ∧
  (∀ n fs, (∀ f ∈ windowFit n fs, f ∈ fs) ∧ (windowFit n fs ≠ [] → n + ((windowFit n fs).flatMap fun f => frameChips f ++ List.replicate 10 false).length ≤ 4512)) ∧
  (∀ s, calm .timeFrameBoundary s.dev = true →
    s.dev.start.st = .run → s.dev.cvn.source = false → s.dev.devFault = false → s.dev.col.resumeAt = none → s.dev.col.aliveRun = true →
    ∃ t, exec .timeFrameBoundary s = .next t ∧ t.dev.col.alive = (!s.dev.col.alive) ∧ t.dev.pins.alive = (!s.dev.col.alive)) ∧
  (∀ s r rest, calm .insertionSlot s.dev = true → s.dev.cvn.rollQ = r :: rest → r.kind ≠ 8 →
    ∃ t, exec .insertionSlot s = .next t ∧ t.dev.cvn.sent = [rollFrame r] ∧ t.dev.cvn.rollQ = rest ∧ t.dev.start = s.dev.start ∧
      t.dev.cvn.outAt = some (16 * (t.dev.clk.loc + lead) + edgeDelay s.dev) ∧ t.dev.clk.loc % ms = 501 * us + 25 * us * s.dev.start.straps.cvnId.toNat) ∧
  (∀ s r rest, calm .insertionSlot s.dev = true → s.dev.cvn.rollQ = r :: rest → r.kind = 8 →
    ∃ t, exec .insertionSlot s = .next t ∧ t.dev.cvn.rollQ = rest ∧ t.dev.cvn.handback = some (effHalt (t.dev.clk.loc / tick) s.dev) ∧
      t.dev.cvn.sent = [rollFrame { r with arg := effHalt (t.dev.clk.loc / tick) s.dev }]) ∧
  (∀ f s, frameOk f = true → s.dev.start.st ≠ .reset → s.dev.start.st ≠ .init → framePayload 1 10 0 f.bytes = none →
    ∃ t, exec (.timeFrameReceive f) s = .next t ∧ t.dev.cvn.frameErrs = satInc s.dev.cvn.frameErrs ∧ t.dev.clk = s.dev.clk ∧
      t.dev.cvn.timeErr = s.dev.cvn.timeErr) ∧
  (∀ f p tl s, frameOk f = true → s.dev.start.st ≠ .reset → s.dev.start.st ≠ .init → framePayload 1 10 0 f.bytes = some (p, tl) →
    s.dev.cvn.source = false → s.dev.cvn.timeState = .hold → takesTime s.dev = true →
    ∃ t, exec (.timeFrameReceive f) s = .next t ∧ t.dev.cvn.srcId = BitVec.ofNat 4 (fld p 9 1 % 16) ∧ t.dev.cvn.leaderLost = false ∧
      t.dev.cvn.timeErr = (fld p 0 8 : Int) * 640 + compensation (fld p 9 1 % 16) (bitOf (fld p 8 1) 0) s.dev - (f.arrival : Int) ∧
      t.dev.cvn.timeSeen = some s.dev.clk.loc ∧ t.dev.clk = s.dev.clk ∧
      (s.dev.start.accRails = 0 → t.dev.cvn.sent = [f.bytes] ∧ t.dev.cvn.outAt = some (f.arrival + hop)) ∧
      (s.dev.start.accRails ≠ 0 → t.dev.cvn.sent = s.dev.cvn.sent ∧ t.dev.cvn.outAt = s.dev.cvn.outAt)) ∧
  (∀ f p tl s, frameOk f = true → s.dev.start.st ≠ .reset → s.dev.start.st ≠ .init → framePayload 1 10 0 f.bytes = some (p, tl) →
    s.dev.cvn.source = true → fld p 9 1 % 16 = s.dev.start.straps.cvnId.toNat →
    ∃ t, exec (.timeFrameReceive f) s = .next t ∧ t.dev.cvn.returned = true ∧ t.dev.cvn.openRun = 0 ∧
      t.dev.cvn.rtMeas = BitVec.ofNat 24 (satInt (qRound (((f.arrival : Qty) - (s.dev.cvn.outAt.getD 0 : Qty)) * 25 / 16)) 0 16777215).toNat) ∧
  (∀ (q : Quad) n s, bitOf s.dev.isl.clkRun.toNat q.1 = true → s.dev.clk.qload[q] = some n →
    ∃ t, exec .frameStrobe s = .next t ∧ t.dev.clk.qtime[q] = (s.dev.clk.loc + ms / 2 - n) / ms * ms + n ∧ t.dev.clk.qload[q] = none ∧
      t.dev.clk.loc = s.dev.clk.loc) ∧
  (∀ (q : Quad) s, bitOf s.dev.isl.clkRun.toNat q.1 = true → s.dev.clk.qload[q] = none →
    (s.dev.clk.loc + 1 < s.dev.clk.qtime[q] ∨ s.dev.clk.qtime[q] + 1 < s.dev.clk.loc) →
    ∃ t, exec .frameStrobe s = .next t ∧ t.dev.clk.qreload[q] = true ∧ t.dev.clk.qtime[q] = s.dev.clk.qtime[q]) ∧
  (∀ (q : Quad) s, bitOf s.dev.isl.clkRun.toNat q.1 = false →
    ∃ t, exec .frameStrobe s = .next t ∧ t.dev.clk.qtime[q] = s.dev.clk.qtime[q] ∧ t.dev.clk.qload[q] = s.dev.clk.qload[q])

/-- R140, R141: the references of the time source and of a follower. Readings and choices of the model: log entry 41. -/
def Obligations.References : Prop :=
  (∀ s, s.dev.cvn.source = true →
    ∃ t, exec .xrefLost s = .next t ∧ t.dev.cvn.xrefValid = false ∧ t.dev.cvn.onOwn = true ∧ t.dev.cvn.refSrc = 2 ∧ t.dev.clk = s.dev.clk) ∧
  (∀ s, s.dev.cvn.source = true →
    ∃ t, exec .xrefRestored s = .next t ∧ t.dev.cvn.xrefValid = true ∧ t.dev.cvn.onOwn = false ∧ t.dev.cvn.refSrc = 1 ∧ t.dev.clk = s.dev.clk) ∧
  (∀ s, takesTime s.dev = true → s.dev.cvn.timeState ≠ .hold →
    ∃ t, exec .clockInvalid s = .next t ∧ t.dev.cvn.timeState = .hold ∧ t.dev.cvn.holdover = true ∧ t.dev.cvn.refSrc = 2 ∧ t.dev.clk = s.dev.clk) ∧
  (∀ s, takesTime s.dev = true → s.dev.cvn.timeState = .hold →
    ∃ t, exec .clockValid s = .next t ∧ t.dev.cvn.timeState = .reacq ∧ t.dev.cvn.refSrc = 0 ∧ t.dev.cvn.holdover = s.dev.cvn.holdover ∧
      t.dev.clk = s.dev.clk)

/-- R148 to R152: membership. Where a command lets time pass, it is stated for a state in which no launch comes before its instant (`calm`). The
time at which a timed command finds the clocks is the model's choice (log entry 2). Readings and choices of the model: log entries 72, 73, 128. -/
def Obligations.Membership : Prop :=
  (∀ f p tl s, frameOk f = true → s.dev.start.st = .join → framePayload 4 10 0 f.bytes = some (p, tl) → fld p 0 1 = 4 →
    s.dev.cvn.source = false → fld p 1 1 % 16 = s.dev.start.straps.cvnId.toNat →
    s.dev.cvn.joinTried.isSome = true → s.dev.cvn.member = false → s.dev.start.resolvedAt = none → s.dev.cvn.role ≠ .alone →
    ∃ t, exec (.rollFrameReceive f) s = .next t ∧
      (BitVec.ofNat 32 (fld p 2 4) = Config.uid → t.dev.start.st = .join ∧ t.dev.cvn.member = true ∧ t.dev.cvn.refused = false ∧ t.dev.start.joinResult = 2 ∧
        t.dev.start.resolvedAt = some s.dev.clk.loc) ∧
      (BitVec.ofNat 32 (fld p 2 4) ≠ Config.uid → s.dev.cvn.refused = false → t.dev.cvn.refused = true ∧ t.dev.start.joinResult = 3 ∧
        t.dev.cvn.role = .alone ∧ t.dev.start.resolvedAt = some s.dev.clk.loc)) ∧
  (∀ f p tl s, frameOk f = true → s.dev.start.st ≠ .reset → s.dev.start.st ≠ .init → framePayload 4 10 0 f.bytes = some (p, tl) → fld p 0 1 = 1 →
    s.dev.cvn.source = true → bitOf s.dev.cvn.members.toNat (fld p 1 1 % 16) = false →
    ∃ t, exec (.rollFrameReceive f) s = .next t ∧ t.dev.cvn.members = s.dev.cvn.members ||| BitVec.ofNat 16 (2 ^ (fld p 1 1 % 16)) ∧
      t.dev.cvn.answers = s.dev.cvn.answers ++
        [(⟨4, fld p 1 1 % 16, fld p 1 1 / 16 % 4, BitVec.ofNat 32 (fld p 2 4), 0⟩, 3)]) ∧
  (∀ u s, calm .joinRetryTimer s.dev = true →
    s.dev.cvn.joinTried = some u → s.dev.start.st = .run → s.dev.cvn.member = false → s.dev.cvn.source = false →
    ∃ t, exec .joinRetryTimer s = .next t ∧ t.dev.clk.loc = max s.dev.clk.loc (u + (if s.dev.cvn.refused then 10 else 1) * sec) ∧
      t.dev.cvn.joinTried = some t.dev.clk.loc ∧
      t.dev.cvn.rollQ = s.dev.cvn.rollQ ++ [⟨1, s.dev.start.straps.cvnId.toNat, strapRole s.dev.start.straps, Config.uid, 0⟩]) ∧
  (∀ s, calm .presentTimer s.dev = true → s.dev.cvn.member = true → s.dev.cvn.source = false → s.dev.start.st = .run →
    ∃ t, exec .presentTimer s = .next t ∧ t.dev.clk.loc = nextOf (100 * ms) s.dev.clk.taken[7] s.dev.clk.loc ∧
      t.dev.cvn.rollQ = s.dev.cvn.rollQ ++ [⟨2, s.dev.start.straps.cvnId.toNat, strapRole s.dev.start.straps, Config.uid, 0⟩]) ∧
  (∀ (id : Fin 16) s, calm (.memberDropTimeout id) s.dev = true →
    s.dev.cvn.source = true → id.1 ≠ s.dev.start.straps.cvnId.toNat → bitOf s.dev.cvn.members.toNat id.1 = true →
    ∃ t, exec (.memberDropTimeout id) s = .next t ∧ t.dev.clk.loc = max s.dev.clk.loc (s.dev.cvn.presentAt[id] + sec) ∧
      t.dev.cvn.members = s.dev.cvn.members &&& ~~~BitVec.ofNat 16 (2 ^ id.1) ∧ t.dev.cvn.dropped = s.dev.cvn.dropped ||| BitVec.ofNat 16 (2 ^ id.1))

/-- R141 to R147: loss of the leader, take-over, hand-back and rivals. Where a command lets time pass, it is stated for a state in which no launch
comes before its instant (`calm`). The time at which a timed command finds the clocks is the model's choice (log entry 2). Readings and choices of
the model: log entries 39, 129. -/
def Obligations.LeaderChanges : Prop :=
  (∀ u s, calm .leaderLostTimeout s.dev = true → s.dev.cvn.timeSeen = some u → s.dev.cvn.source = false → s.dev.cvn.leaderLost = false →
    ∃ t, exec .leaderLostTimeout s = .next t ∧ t.dev.cvn.leaderLost = true ∧ t.dev.clk.loc = max s.dev.clk.loc (u + 10 * ms)) ∧
  (∀ u s, calm .deputyTakeover s.dev = true →
    s.dev.cvn.timeSeen = some u → s.dev.cvn.role = .deputy → s.dev.cvn.member = true → s.dev.start.st = .run →
    ∃ t, exec .deputyTakeover s = .next t ∧ t.dev.cvn.role = .acting ∧ t.dev.cvn.source = true ∧ t.dev.cvn.timeState = .track ∧
      t.dev.clk.loc = max s.dev.clk.loc ((u + 10 * ms + ms - 1) / ms * ms) ∧ t.dev.halt.next.isSome = true) ∧
  (∀ h s, calm .handbackSwitch s.dev = true → s.dev.cvn.handback = some h → s.dev.halt.ran = true → s.dev.halt.last = h → s.dev.cvn.role = .acting →
    ∃ t, exec .handbackSwitch s = .next t ∧ t.dev.cvn.role = .deputy ∧ t.dev.cvn.source = false ∧ t.dev.cvn.handback = none ∧
      t.dev.clk.loc = max s.dev.clk.loc (s.dev.halt.lastStart * tick + 100 * us)) ∧
  (∀ h s, calm .handbackSwitch s.dev = true →
    s.dev.cvn.handback = some h → s.dev.halt.ran = true → s.dev.halt.last = h → s.dev.cvn.role = .returning →
    ∃ t, exec .handbackSwitch s = .next t ∧ t.dev.cvn.role = .leader ∧ t.dev.cvn.source = true ∧ t.dev.cvn.handback = none ∧
      t.dev.clk.loc = max s.dev.clk.loc (s.dev.halt.lastStart * tick + 100 * us)) ∧
  (∀ u s, calm .rivalLeader s.dev = true →
    s.dev.cvn.rivalSince = some u → s.dev.cvn.source = true → s.dev.cvn.rivalActing = decide (s.dev.cvn.role = .acting) →
    ∃ t, exec .rivalLeader s = .next t ∧ t.dev.cvn.rivalLeader = true ∧
      (s.dev.start.straps.cvnId.toNat ≤ s.dev.cvn.rivalId → t.dev.cvn.source = true) ∧
      (s.dev.cvn.rivalId < s.dev.start.straps.cvnId.toNat → t.dev.cvn.source = false)) ∧
  (∀ u s, calm .rivalLeader s.dev = true →
    s.dev.cvn.rivalSince = some u → s.dev.cvn.source = true → s.dev.cvn.rivalActing ≠ decide (s.dev.cvn.role = .acting) →
    ∃ t, exec .rivalLeader s = .next t ∧ t.dev.cvn.rivalLeader = true ∧ t.dev.cvn.source = true ∧ t.dev.cvn.role = s.dev.cvn.role)

/-- R100 to R107: overlay changes. Where a command lets time pass, it is stated for a state in which no launch comes before its instant (`calm`).
The time at which a timed command finds the clocks is the model's choice (log entry 2). Readings and choices of the model: log entries 45, 122. -/
def Obligations.OverlayChange : Prop :=
  (∀ v s, s.dev.mode.deb = some v → leads s.dev = true → v ≠ s.dev.mode.active → s.dev.mode.phase = 0 → s.dev.mode.cancelLeft = 0 →
    s.dev.mode.blocked = false → ∃ t, exec .overlayPropose s = .next t ∧ t.dev = drive { s.dev with mode := { s.dev.mode with leaderCheck := some v } }) ∧
  (∀ v s, s.dev.mode.leaderCheck = some v → (checkOverlay s.dev v.toNat).reason = 0 →
    ∃ t, exec .leaderOverlayCheckDone s = .next t ∧ t.dev.mode.phase = 1 ∧ t.dev.mode.pending = v ∧ t.dev.mode.leaderCheck = none ∧
      t.dev.mode.active = s.dev.mode.active) ∧
  (∀ v s, s.dev.mode.leaderCheck = some v → (checkOverlay s.dev v.toNat).reason ≠ 0 →
    ∃ t, exec .leaderOverlayCheckDone s = .next t ∧ t.dev.mode.phase = s.dev.mode.phase ∧ t.dev.mode.blocked = true ∧
      t.dev.mode.reason = BitVec.ofNat 8 (checkOverlay s.dev v.toNat).reason ∧ t.dev.mode.refusals = satInc8 s.dev.mode.refusals ∧
      t.dev.mode.active = s.dev.mode.active) ∧
  (∀ v s, s.dev.mode.memberCheck = some v →
    ∃ t, exec .memberOverlayCheckDone s = .next t ∧ t.dev.mode.memberCheck = none ∧ t.dev.mode.active = s.dev.mode.active ∧
      t.dev.mode.answer = some (v, decide ((checkOverlay s.dev v.toNat).reason = 0))) ∧
  (∀ u s, calm .proposeTimeout s.dev = true → s.dev.mode.phase = 1 → s.dev.mode.proposedAt = some u →
    ∃ t, exec .proposeTimeout s = .next t ∧ t.dev.mode.phase = 0 ∧ t.dev.mode.cancelLeft = 10 ∧ t.dev.mode.lastAccept = s.dev.mode.acc ∧
      t.dev.mode.lastRefuse = s.dev.mode.ref ∧ t.dev.clk.loc = max s.dev.clk.loc (u + 100 * ms)) ∧
  (∀ u s, calm .modeDisagreeTimer s.dev = true → s.dev.mode.disagreeSince = some u → pinsDiffer s.dev = true → s.dev.mode.disagreeDone = false →
    ∃ t, exec .modeDisagreeTimer s = .next t ∧ t.dev.mode.disagree = true ∧ t.dev.clk.up = max s.dev.clk.up (u + sec) ∧
      t.dev.mode.active = s.dev.mode.active) ∧
  (∀ f p tl s, frameOk f = true → framePayload 3 6 8 f.bytes = some (p, tl) → fld p 0 1 = 2 → s.dev.start.st = .run → s.dev.cvn.role ≠ .alone →
    s.dev.cvn.member = true → s.dev.cvn.source = false →
    ∃ t, exec (.modeFrameReceive f) s = .next t ∧ t.dev.mode.phase = 2 ∧
      t.dev.mode.commit = some (BitVec.ofNat 4 (fld p 1 1), BitVec.ofNat 32 (fld p 2 4)) ∧ t.dev.mode.active = s.dev.mode.active) ∧
  (∀ f p tl v ok s, frameOk f = true → framePayload 3 6 8 f.bytes = some (p, tl) → fld p 0 1 = 1 → s.dev.start.st = .run → s.dev.cvn.role ≠ .alone →
    s.dev.cvn.member = true → s.dev.cvn.source = false → s.dev.mode.answer = some (v, ok) → v = BitVec.ofNat 4 (fld p 1 1) →
    s.dev.start.accRails = 0 → ∃ t, exec (.modeFrameReceive f) s = .next t ∧ t.dev.cvn.sent = [f.bytes.take 10 ++ markTail s.dev.start.straps.cvnId.toNat ok tl])

/-- R153 to R159: a halt from its announcement to its end. Where a command lets time pass, it is stated for a state in which no launch comes before
its instant (`calm`). The time at which a timed command finds the clocks is the model's choice (log entry 2). Readings and choices of the model: log
entries 50, 66, 130, 156. -/
def Obligations.HaltSequence : Prop :=
  (∀ f p tl s, frameOk f = true → framePayload 2 16 0 f.bytes = some (p, tl) → followsHalts s.dev = true →
    haltFieldsOk (fld p 12 2) (fld p 14 2) = true → s.dev.cvn.timeState = .track → s.dev.halt.next = none → s.dev.halt.ran = false →
    ∃ t, exec (.haltFrameReceive f) s = .next t ∧ t.dev.halt.accepted = true ∧
      t.dev.halt.next = some ⟨BitVec.ofNat 32 (fld p 0 4), fld p 4 8, fld p 12 2, fld p 14 2, false⟩) ∧
  (∀ f p tl s, frameOk f = true → framePayload 2 16 0 f.bytes = some (p, tl) → followsHalts s.dev = true →
    haltFieldsOk (fld p 12 2) (fld p 14 2) = false →
    ∃ t, exec (.haltFrameReceive f) s = .next t ∧ t.dev.cvn.frameErrs = satInc s.dev.cvn.frameErrs ∧ t.dev.halt = s.dev.halt) ∧
  (∀ s, calm .haltPredict s.dev = true → followsHalts s.dev = true → s.dev.halt.next = none → s.dev.halt.cur = none → s.dev.halt.accepted = true →
    ∃ t, exec .haltPredict s = .next t ∧ t.dev.clk.loc = max s.dev.clk.loc (predictedStart s.dev * tick - 4 * ms) ∧
      t.dev.halt.next = some ⟨s.dev.halt.refNo + 1, s.dev.halt.lastStart + s.dev.halt.lastPeriod * 10000, s.dev.halt.lastQlen, s.dev.halt.lastPeriod, true⟩) ∧
  (∀ s, calm .haltPredict s.dev = true → followsHalts s.dev = true → s.dev.halt.next = none → s.dev.halt.cur = none → s.dev.halt.accepted = false →
    ∃ t, exec .haltPredict s = .next t ∧ t.dev.halt.skipped = satInc s.dev.halt.skipped ∧ t.dev.halt.next = none ∧ t.dev.clk = s.dev.clk ∧
      t.dev.halt.refNo = s.dev.halt.refNo + 1) ∧
  (∀ h s, calm .haltRampFix s.dev = true → s.dev.halt.next = some h → s.dev.start.st = .run → s.dev.halt.cur = none → s.dev.cvn.source = true →
    ∃ t, exec .haltRampFix s = .next t ∧ t.dev.halt.cur = some h ∧ t.dev.halt.trFixed = true ∧ 25 ≤ t.dev.halt.tr ∧ t.dev.halt.tr ≤ 200 ∧
      t.dev.halt.refNo = h.no ∧ t.dev.halt.next.map (·.no) = some (h.no + 1) ∧ t.dev.halt.next.map (·.start) = some (h.start + h.period * 10000) ∧
      ∀ q : Quad, t.dev.isl.fifo[xIndex (.toQd q)] = s.dev.isl.fifo[xIndex (.toQd q)] ++
        [.launch ⟨.config, h.start * tick⟩, .launch ⟨.quietStart, h.start * tick⟩, .launch ⟨.convStart, h.start * tick + settle h.qlen⟩,
          .launch ⟨.carrierReset .device, h.start * tick + h.qlen * (10 * us)⟩, .launch ⟨.quietEnd, h.start * tick + h.qlen * (10 * us)⟩]) ∧
  (∀ h s, calm .haltRampDown s.dev = true → s.dev.halt.cur = some h → s.dev.start.st = .run → s.dev.halt.trFixed = true → s.dev.halt.phase = .idle →
    ∃ t, exec .haltRampDown s = .next t ∧ t.dev.halt.phase = .rampDown ∧ t.dev.halt.phaseAt = t.dev.clk.loc ∧
      t.dev.clk.loc = max s.dev.clk.loc (h.start * tick - s.dev.halt.tr * (10 * us))) ∧
  (∀ h s, calm .quietWindowStart s.dev = true → s.dev.halt.cur = some h → s.dev.start.st = .run → s.dev.halt.phase = .rampDown →
    ∃ t, exec .quietWindowStart s = .next t ∧ t.dev.halt.phase = .quiet ∧ t.dev.halt.last = h.no ∧ t.dev.halt.ran = true ∧
      t.dev.clk.loc = max s.dev.clk.loc (h.start * tick) ∧ (∀ n : Slot, t.dev.pins.pwma[n] = false ∧ t.dev.pins.pwmb[n] = false)) ∧
  (∀ h s, calm .haltConversionStart s.dev = true → s.dev.halt.cur = some h → s.dev.halt.phase = .quiet → s.dev.halt.converted = false →
    ∃ t, exec .haltConversionStart s = .next t ∧ t.dev.halt.converted = true ∧ t.dev.halt.phase = .quiet ∧
      t.dev.clk.loc = max s.dev.clk.loc (h.start * tick + settle h.qlen)) ∧
  (∀ h s, calm .quietWindowEnd s.dev = true → s.dev.halt.cur = some h → s.dev.halt.phase = .quiet → s.dev.cvn.timeState ≠ .stepWait →
    ∃ t, exec .quietWindowEnd s = .next t ∧ t.dev.halt.phase = .rampUp ∧ t.dev.halt.cur = none ∧
      t.dev.clk.loc = max s.dev.clk.loc (h.start * tick + h.qlen * (10 * us))) ∧
  (∀ h t0 s, s.dev.halt.cur = some h → s.dev.start.st = .run → s.dev.halt.phase = .rampDown → (∀ x : Fin 24, s.dev.isl.fifo[x] = []) →
    (∀ i : Island, s.dev.isl.launches[i] = [⟨.quietStart, t0⟩]) → s.dev.isl.clkRun = 0b11111 → (∀ q : Quad, s.dev.clk.qtime[q] = s.dev.clk.loc) →
    ∃ t, exec .quietWindowStart s = .next t ∧ t.dev.halt.phase = .quiet ∧ t.dev.halt.last = h.no ∧ t.dev.halt.ran = true ∧
      t.dev.clk.loc = max s.dev.clk.loc t0 ∧ (∀ i : Island, t.dev.isl.launches[i] = []) ∧
      ∀ n : Slot, t.dev.pins.pwma[n] = false ∧ t.dev.pins.pwmb[n] = false) ∧
  (∀ h t0 s, s.dev.halt.cur = some h → s.dev.start.st = .run → s.dev.halt.phase = .quiet → (∀ x : Fin 24, s.dev.isl.fifo[x] = []) →
    (∀ i : Island, s.dev.isl.launches[i] = [⟨.convStart, t0⟩]) → s.dev.isl.clkRun = 0b11111 → (∀ q : Quad, s.dev.clk.qtime[q] = s.dev.clk.loc) →
    ∃ t, exec .haltConversionStart s = .next t ∧ t.dev.halt.converted = true ∧ t.dev.halt.phase = .quiet ∧
      t.dev.clk.loc = max s.dev.clk.loc t0 ∧ ∀ i : Island, t.dev.isl.launches[i] = []) ∧
  (∀ h t0 s, s.dev.halt.cur = some h → s.dev.start.st = .run → s.dev.halt.phase = .quiet → s.dev.cvn.timeState ≠ .stepWait →
    (∀ x : Fin 24, s.dev.isl.fifo[x] = []) → (∀ i : Island, s.dev.isl.launches[i] = [⟨.quietEnd, t0⟩]) → s.dev.isl.clkRun = 0b11111 →
    (∀ q : Quad, s.dev.clk.qtime[q] = s.dev.clk.loc) →
    ∃ t, exec .quietWindowEnd s = .next t ∧ t.dev.halt.phase = .rampUp ∧ t.dev.halt.cur = none ∧ t.dev.clk.loc = max s.dev.clk.loc t0 ∧
      ∀ i : Island, t.dev.isl.launches[i] = [])

/-- R19 to R26, R129, R130: launch requests and crossings. The time at which a timed command finds the clocks is the model's choice (log entry 2).
Readings and choices of the model: log entry 50. -/
def Obligations.Crossings : Prop :=
  (∀ a time s, s.dev.start.st ≠ .reset → s.dev.start.st ≠ .init → s.dev.clk.loc ≤ time → (s.dev.isl.launches[(4 : Island)]).length < 32 →
    ∃ t, exec (.launchRequest 4 a time) s = .next t ∧ t.dev.isl.launches[(4 : Island)] = launchInsert ⟨a, time⟩ s.dev.isl.launches[(4 : Island)] ∧
      t.dev.clk = s.dev.clk ∧ t.dev.start = s.dev.start) ∧
  (∀ (q : Quad) a time s, s.dev.start.st ≠ .reset → s.dev.start.st ≠ .init → s.dev.isl.stalled[xIndex (.toQd q)] = false →
    s.dev.isl.fifo[xIndex (.toQd q)] = [] → s.dev.clk.qtime[q] ≤ time → (s.dev.isl.launches[quadIsland q]).length < 32 →
    ∃ t, exec (.launchRequest (quadIsland q) a time) s = .next t ∧
      t.dev.isl.launches[quadIsland q] = launchInsert ⟨a, time⟩ s.dev.isl.launches[quadIsland q] ∧ t.dev.clk = s.dev.clk ∧ t.dev.start = s.dev.start) ∧
  (∀ (q : Quad) a time s, s.dev.start.st ≠ .reset → s.dev.start.st ≠ .init → s.dev.isl.stalled[xIndex (.toQd q)] = true →
    ∃ t, exec (.launchRequest (quadIsland q) a time) s = .next t ∧ t.dev.isl.launches = s.dev.isl.launches ∧
      t.dev.isl.fifo[xIndex (.toQd q)] = s.dev.isl.fifo[xIndex (.toQd q)] ++ [.launch ⟨a, time⟩]) ∧
  (∀ (q : Quad) a time s, s.dev.start.st ≠ .reset → s.dev.start.st ≠ .init → s.dev.isl.stalled[xIndex (.toQd q)] = false →
    s.dev.isl.fifo[xIndex (.toQd q)] = [] → time < s.dev.clk.qtime[q] → (s.dev.isl.launches[quadIsland q]).length < 32 →
    ∃ t, exec (.launchRequest (quadIsland q) a time) s = .next t ∧ t.dev.isl.late[quadIsland q] = true ∧ t.dev.clk = s.dev.clk ∧
      t.dev.isl.launches[quadIsland q] = launchInsert ⟨a, s.dev.clk.qtime[q] + 1⟩ s.dev.isl.launches[quadIsland q]) ∧
  (∀ a time s, s.dev.start.st ≠ .reset → s.dev.start.st ≠ .init → time < s.dev.clk.loc → (s.dev.isl.launches[(4 : Island)]).length < 32 →
    s.dev.col.logQ.length < 32 →
    ∃ t, exec (.launchRequest 4 a time) s = .next t ∧ t.dev.isl.late[(4 : Island)] = true ∧ t.dev.clk = s.dev.clk ∧
      t.dev.isl.launches[(4 : Island)] = launchInsert ⟨a, s.dev.clk.loc + 1⟩ s.dev.isl.launches[(4 : Island)] ∧
      t.dev.col.logQ.length = s.dev.col.logQ.length + 1) ∧
  (∀ t0 s, s.pending = [] → s.dev.start.st = .run → (∀ x : Fin 24, s.dev.isl.fifo[x] = []) → (∀ q : Quad, s.dev.isl.launches[quadIsland q] = []) →
    s.dev.isl.launches[(4 : Island)] = [⟨.convStart, t0⟩] → bitOf s.dev.isl.clkRun.toNat 4 = true → t0 ≤ s.dev.clk.loc + 40 →
    s.dev.bus.st = .beforeRun →
    ∃ t, step s = .next t ∧ t.dev.halt.converted = true ∧ t.dev.isl.launches[(4 : Island)] = [] ∧ t.dev.clk.loc = s.dev.clk.loc + 40) ∧
  (∀ t0 s, s.dev.start.st = .run → (∀ x : Fin 24, s.dev.isl.fifo[x] = []) → (∀ q : Quad, s.dev.isl.launches[quadIsland q] = []) →
    s.dev.isl.launches[(4 : Island)] = [⟨.convStart, t0⟩] → bitOf s.dev.isl.clkRun.toNat 4 = true → t0 < nextOf ms s.dev.clk.taken[6] s.dev.clk.loc →
    s.dev.cvn.source = false →
    ∃ t, exec .timeFrameBoundary s = .next t ∧ t.dev.halt.converted = true ∧ t.dev.isl.launches[(4 : Island)] = [] ∧
      t.dev.clk.loc = nextOf ms s.dev.clk.taken[6] s.dev.clk.loc) ∧
  (∀ t0 s, s.dev.start.st = .run → (∀ x : Fin 24, s.dev.isl.fifo[x] = []) → (∀ q : Quad, s.dev.isl.launches[quadIsland q] = []) →
    s.dev.isl.launches[(4 : Island)] = [⟨.convStart, t0⟩] → bitOf s.dev.isl.clkRun.toNat 4 = true →
    ∃ t, exec .haltConversionStart s = .next t ∧ t.dev.halt.converted = true ∧ t.dev.isl.launches[(4 : Island)] = [] ∧
      t.dev.clk.loc = max s.dev.clk.loc t0) ∧
  (∀ (q : Quad) t0 s, s.dev.start.st = .run → (∀ x : Fin 24, s.dev.isl.fifo[x] = []) → (∀ i : Island, i ≠ quadIsland q → s.dev.isl.launches[i] = []) →
    s.dev.isl.launches[quadIsland q] = [⟨.carrierReset (.quadrant q), t0⟩] → bitOf s.dev.isl.clkRun.toNat q.1 = true → (s.dev.quads[q]).armed = true →
    ∃ t, exec (.carrierReset (.quadrant q)) s = .next t ∧ t.dev.isl.launches[quadIsland q] = [] ∧ t.dev.clk.qtime[q] = max s.dev.clk.qtime[q] t0 ∧
      (t.dev.quads[q]).running = true ∧ (t.dev.quads[q]).due = t.dev.clk.up + 2 * qtReload s.dev q ∧
      t.dev.isl.fifo[xIndex (.toHk q)] = [.ack (.carrierReset (.quadrant q))]) ∧
  (∀ (q : Quad) l rest s, s.dev.isl.fifo[xIndex (.toQd q)] = .launch l :: rest → s.dev.clk.qtime[q] ≤ l.time →
    (s.dev.isl.launches[quadIsland q]).length < 32 →
    ∃ t, exec (.crossingMessage (.toQd q)) s = .next t ∧ t.dev.isl.fifo[xIndex (.toQd q)] = rest ∧
      t.dev.isl.launches[quadIsland q] = launchInsert l s.dev.isl.launches[quadIsland q]) ∧
  (∀ (q : Quad) (c : Chan) i v rest s, s.dev.isl.fifo[xIndex (.toQd q)] = .narrow c i v :: rest →
    ∃ t, exec (.crossingMessage (.toQd q)) s = .next t ∧ (t.dev.chans[c]).narrowIq = i ∧ (t.dev.chans[c]).narrowVq = v ∧
      t.dev.isl.fifo[xIndex (.toQd q)] = rest ∧ t.dev.isl.stalled[xIndex (.toQd q)] = false) ∧
  (∀ (q : Quad) g rest s, s.dev.isl.fifo[xIndex (.toQd q)] = .gain g :: rest →
    ∃ t, exec (.crossingMessage (.toQd q)) s = .next t ∧ (t.dev.quads[q]).gain = g ∧ t.dev.isl.fifo[xIndex (.toQd q)] = rest) ∧
  (∀ (q : Quad) (c : Chan) b rest s, s.dev.isl.fifo[xIndex (.toQd q)] = .budget c b :: rest →
    ∃ t, exec (.crossingMessage (.toQd q)) s = .next t ∧ (t.dev.chans[c]).bud = b ∧ t.dev.isl.fifo[xIndex (.toQd q)] = rest) ∧
  (∀ (q : Quad) n rest s, s.dev.isl.fifo[xIndex (.toQd q)] = .timeLoad n :: rest →
    ∃ t, exec (.crossingMessage (.toQd q)) s = .next t ∧ t.dev.clk.qload[q] = some n ∧ t.dev.isl.fifo[xIndex (.toQd q)] = rest) ∧
  (∀ x s, s.dev.isl.fifo[xIndex x] = [] → ∃ t, exec (.crossingMessage x) s = .next t ∧ t.dev.isl.stalled[xIndex x] = false ∧
    t.dev.isl.fifo = s.dev.isl.fifo ∧ onlyParts [.isl] s.dev t.dev) ∧
  (∀ x s, ∃ t, exec (.crossingStall x) s = .next t ∧ t.dev.isl.stalled[xIndex x] = true ∧ t.dev.isl.fifo = s.dev.isl.fifo)

/-- R165, R180: a timer that counts reaches its valley: the reload of the next cycle is in force and its valley is one cycle away. R174, R178, R170:
at its valley a member of a channel with an open gate begins an on-time when its command lies above its lower level; the active output rises at the
valley, or, after a Y-off carried into the cycle, once the dead time has passed. Where a command lets time pass, it is stated for a state in which
no launch comes before its instant (`calm`). The time at which a timed command finds the clocks is the model's choice (log entry 2). -/
def Obligations.CarrierValleys : Prop :=
  (∀ (n : Slot) cmp moved s, calm (.carrierValley (.phase n) cmp moved) s.dev = true → (s.dev.slots[n]).running = true → memberOf s.dev n = none →
    ∃ t, exec (.carrierValley (.phase n) cmp moved) s = .next t ∧ t.dev.clk.up = max s.dev.clk.up (s.dev.slots[n]).due ∧
      (t.dev.slots[n]).m = (s.dev.slots[n]).mShadow ∧ (t.dev.slots[n]).due = (s.dev.slots[n]).due + 2 * (s.dev.slots[n]).mShadow ∧
      (t.dev.slots[n]).xOn = false ∧ (t.dev.slots[n]).inCycle = false ∧
      ((s.dev.slots[n]).yOn = false ∨ yOffEdge s.dev n < 16 * (s.dev.slots[n]).due → (t.dev.slots[n]).yOn = false) ∧
      ((s.dev.slots[n]).yOn = true → 16 * (s.dev.slots[n]).due ≤ yOffEdge s.dev n →
        (t.dev.slots[n]).yOn = true ∧ (t.dev.slots[n]).yLate = some (yOffEdge s.dev n)) ∧
      ((s.dev.slots[n]).inCycle = true → (t.dev.slots[n]).new = true ∧ (t.dev.slots[n]).overcap = ((s.dev.slots[n]).overcap || (s.dev.slots[n]).new)) ∧
      ∀ k : Slot, k ≠ n → t.dev.slots[k] = s.dev.slots[k]) ∧
  (∀ (c : Chan) cmp moved s, calm (.carrierValley (.master c) cmp moved) s.dev = true →
    (s.dev.chans[c]).running = true → (s.dev.chans[c]).resetAt = none →
    ∃ t, exec (.carrierValley (.master c) cmp moved) s = .next t ∧ t.dev.clk.up = max s.dev.clk.up (s.dev.chans[c]).due ∧
      (t.dev.chans[c]).m = (s.dev.chans[c]).mShadow ∧ (t.dev.chans[c]).due = (s.dev.chans[c]).due + 2 * (s.dev.chans[c]).mShadow ∧
      (t.dev.chans[c]).running = true ∧ (t.dev.chans[c]).waiting = false ∧ ∀ k : Chan, k ≠ c → t.dev.chans[k] = s.dev.chans[k]) ∧
  (∀ (q : Quad) cmp moved s, calm (.carrierValley (.quad q) cmp moved) s.dev = true → (s.dev.quads[q]).running = true →
    ∃ t, exec (.carrierValley (.quad q) cmp moved) s = .next t ∧ t.dev.clk.up = max s.dev.clk.up (s.dev.quads[q]).due ∧
      (t.dev.quads[q]).due = (s.dev.quads[q]).due + 2 * qtReload s.dev q ∧ (t.dev.quads[q]).running = true ∧ t.dev.slots = s.dev.slots) ∧
  ((∀ (n : Slot) (c : Chan) cmp moved s, calm (.carrierValley (.phase n) cmp moved) s.dev = true →
    (s.dev.slots[n]).running = true → memberOf s.dev n = some c → (s.dev.slots[n]).inCycle = false →
    (s.dev.slots[n]).evRun = 0 → (s.dev.chans[c]).gate = true → slotBarred s.dev n = false → s.dev.start.st = .run →
    (s.dev.slots[n]).kth = (s.dev.therm[Fin.ofNat 172 n.1]).kthQ → zcLevel s.dev c < effPk s.dev c n → (s.dev.slots[n]).yOn = false →
    (s.dev.slots[n]).yOffAt = 0 ∨ (s.dev.slots[n]).yOffAt + dtX s.dev n ≤ 16 * (s.dev.slots[n]).due + (s.dev.slots[n]).ofsNext →
    ∃ t, exec (.carrierValley (.phase n) cmp moved) s = .next t ∧ (t.dev.slots[n]).xOn = true ∧
      (t.dev.slots[n]).xAt = 16 * (s.dev.slots[n]).due + (s.dev.slots[n]).ofsNext ∧
      (t.dev.slots[n]).upper = upperBound s.dev c n (codeOf s.dev n (effPk s.dev c n) : Qty) ∧
      t.dev.pins.pwma[n] = !slotBoost s.dev n ∧ t.dev.pins.pwmb[n] = slotBoost s.dev n) ∧
  (∀ (n : Slot) (c : Chan) cmp moved s, calm (.carrierValley (.phase n) cmp moved) s.dev = true →
    (s.dev.slots[n]).running = true → memberOf s.dev n = some c → (s.dev.slots[n]).inCycle = false →
    (s.dev.slots[n]).evRun = 0 → (s.dev.chans[c]).gate = true → slotBarred s.dev n = false → (s.dev.slots[n]).kth = (s.dev.therm[Fin.ofNat 172 n.1]).kthQ → zcLevel s.dev c < effPk s.dev c n →
    (s.dev.slots[n]).yOn = false → (s.dev.slots[n]).yOffAt ≠ 0 →
    16 * (s.dev.slots[n]).due + (s.dev.slots[n]).ofsNext < (s.dev.slots[n]).yOffAt + dtX s.dev n →
    ∃ t, exec (.carrierValley (.phase n) cmp moved) s = .next t ∧ (t.dev.slots[n]).xOn = false ∧ (t.dev.slots[n]).xWait = true ∧
      (t.dev.slots[n]).xAt = (s.dev.slots[n]).yOffAt + dtX s.dev n) ∧
  (∀ (n : Slot) s, calm (.deadTimeEnd n) s.dev = true → (s.dev.slots[n]).xWait = true → (s.dev.slots[n]).yOn = false → s.dev.start.st = .run →
    ∃ t, exec (.deadTimeEnd n) s = .next t ∧ (t.dev.slots[n]).xOn = true ∧ (t.dev.slots[n]).xWait = false ∧
      (s.dev.slots[n]).yOffAt + dtX s.dev n ≤ (t.dev.slots[n]).xAt ∧
      t.dev.clk.up = max s.dev.clk.up (max (s.dev.slots[n]).xAt ((s.dev.slots[n]).yOffAt + dtX s.dev n) / 16) ∧
      t.dev.pins.pwma[n] = !slotBoost s.dev n ∧ t.dev.pins.pwmb[n] = slotBoost s.dev n))

/-- R175, R176, R168, R174, R196: the ends of an on-time. Where a command lets time pass, it is stated for a state in which no launch comes before
its instant (`calm`). The time at which a timed command finds the clocks is the model's choice (log entry 2). Readings and choices of the model: log
entry 15. -/
def Obligations.OnTimeEnds : Prop :=
  (∀ (n : Slot) pos s, calm (.upperCrossing n pos) s.dev = true → (s.dev.slots[n]).xOn = true → (s.dev.slots[n]).blanked = true →
    ∃ t, exec (.upperCrossing n pos) s = .next t ∧ (t.dev.slots[n]).xOn = false ∧ (t.dev.slots[n]).cur.toff = pos ∧ (t.dev.slots[n]).cur.cend = 0 ∧
      (t.dev.slots[n]).cur.ucode = BitVec.ofNat 10 (qFloor (s.dev.slots[n]).upper).toNat ∧ (t.dev.slots[n]).xOffAt = edgeAt s.dev.slots[n] pos.toNat ∧
      t.dev.pins.pwma[n] = false ∧ t.dev.pins.pwmb[n] = false ∧ ∀ k : Slot, k ≠ n → t.dev.slots[k] = s.dev.slots[k]) ∧
  (∀ (n : Slot) pos s, calm (.upperCrossing n pos) s.dev = true → (s.dev.slots[n]).xOn = false ∨ (s.dev.slots[n]).blanked = false →
    ∃ t, exec (.upperCrossing n pos) s = .next t ∧ (t.dev.slots[n]).xOn = (s.dev.slots[n]).xOn ∧ (t.dev.slots[n]).cur = (s.dev.slots[n]).cur ∧
      (t.dev.slots[n]).pinA = (s.dev.slots[n]).pinA ∧ (t.dev.slots[n]).pinB = (s.dev.slots[n]).pinB) ∧
  (∀ (n : Slot) cmp s, calm (.tonMaxReached n cmp) s.dev = true → (s.dev.slots[n]).xOn = true →
    ∃ t, exec (.tonMaxReached n cmp) s = .next t ∧ t.dev.clk.up = max s.dev.clk.up ((s.dev.slots[n]).due + (s.dev.slots[n]).tonMax - 2 * (s.dev.slots[n]).m) ∧
      (t.dev.slots[n]).xOn = false ∧ (t.dev.slots[n]).cur.cend = 1 ∧ (t.dev.slots[n]).cur.copen = decide (curCmp s.dev n cmp = .below) ∧
      t.dev.pins.pwma[n] = false ∧ t.dev.pins.pwmb[n] = false) ∧
  (∀ (n : Slot) cmp s, calm (.onTimeLimit n cmp) s.dev = true → (s.dev.slots[n]).xOn = true →
    ∃ t, exec (.onTimeLimit n cmp) s = .next t ∧
      t.dev.clk.up = max s.dev.clk.up ((s.dev.slots[n]).due - ((dtX s.dev n + dtY s.dev n + 15) / 16 + 8)) ∧
      (t.dev.slots[n]).xOn = false ∧ (t.dev.slots[n]).cur.cend = 1 ∧ t.dev.pins.pwma[n] = false ∧ t.dev.pins.pwmb[n] = false) ∧
  (∀ (n : Slot) (c : Chan) cmp s, calm (.blankingEnd n cmp) s.dev = true →
    chanOf s.dev n = some c → (s.dev.slots[n]).xOn = true → (s.dev.slots[n]).blanked = false →
    curCmp s.dev n cmp = .above →
    ∃ t, exec (.blankingEnd n cmp) s = .next t ∧ t.dev.clk.up = max s.dev.clk.up ((s.dev.slots[n]).xAt / 16 + blank s.dev c) ∧
      (t.dev.slots[n]).xOn = false ∧ (t.dev.slots[n]).cur.cend = 0 ∧ t.dev.pins.pwma[n] = false ∧ t.dev.pins.pwmb[n] = false) ∧
  (∀ (n : Slot) (c : Chan) cmp s, calm (.blankingEnd n cmp) s.dev = true →
    chanOf s.dev n = some c → (s.dev.slots[n]).xOn = true → (s.dev.slots[n]).blanked = false →
    curCmp s.dev n cmp ≠ .above → (s.dev.chans[c]).chlim = false →
    ∃ t, exec (.blankingEnd n cmp) s = .next t ∧ (t.dev.slots[n]).xOn = true ∧ (t.dev.slots[n]).blanked = true ∧
      (t.dev.slots[n]).pinA = (s.dev.slots[n]).pinA ∧ (t.dev.slots[n]).pinB = (s.dev.slots[n]).pinB) ∧
  (∀ (c : Chan) s, ∃ t, exec (.channelLimitAbove c .above) s = .next t ∧ (t.dev.chans[c]).chlim = true ∧ (t.dev.chans[c]).chBelow = false ∧
      ∀ n ∈ members s.dev c, (t.dev.slots[n]).xOn = false) ∧
  (∀ (c : Chan) cmp s, cmp ≠ .above → ∃ t, exec (.channelLimitAbove c cmp) s = .next t ∧ (t.dev.chans[c]).chlim = false ∧
      (t.dev.chans[c]).chBelow = decide (cmp = .below) ∧ t.dev.slots = s.dev.slots ∧ ∀ k : Chan, k ≠ c → t.dev.chans[k] = s.dev.chans[k])

/-- R173, R174, R187: the complementary output, the lower crossing and the slope compensation. Where a command lets time pass, it is stated for a
state in which no launch comes before its instant (`calm`). The time at which a timed command finds the clocks is the model's choice (log entry 2).
-/
def Obligations.ComplementaryOutput : Prop :=
  (∀ (n : Slot) s, calm (.deadTimeEnd n) s.dev = true →
    (s.dev.slots[n]).xWait = false → (s.dev.slots[n]).xWas = true → (s.dev.slots[n]).xOn = false → (s.dev.slots[n]).yOn = false →
    (s.dev.slots[n]).yDone = false → (s.dev.slots[n]).shedFrom = none → slotBarred s.dev n = false → s.dev.start.st = .run →
    max ((s.dev.slots[n]).xOffAt + dtY s.dev n) (16 * s.dev.clk.up) < yOffEdge s.dev n →
    ∃ t, exec (.deadTimeEnd n) s = .next t ∧ t.dev.clk.up = max s.dev.clk.up (((s.dev.slots[n]).xOffAt + dtY s.dev n) / 16) ∧
      (t.dev.slots[n]).yOn = true ∧ (t.dev.slots[n]).yAt = max ((s.dev.slots[n]).xOffAt + dtY s.dev n) (16 * s.dev.clk.up) ∧
      t.dev.pins.pwma[n] = slotBoost s.dev n ∧ t.dev.pins.pwmb[n] = !slotBoost s.dev n) ∧
  (∀ (n : Slot) s, calm (.yOffCount n) s.dev = true → (s.dev.slots[n]).running = true → (s.dev.slots[n]).yOn = true →
    ∃ t, exec (.yOffCount n) s = .next t ∧ t.dev.clk.up = max s.dev.clk.up (yOffEdge s.dev n / 16) ∧ (t.dev.slots[n]).yOn = false ∧
      (t.dev.slots[n]).yDone = (s.dev.slots[n]).yLate.isNone ∧ (t.dev.slots[n]).yOffAt = max (yOffEdge s.dev n) (16 * s.dev.clk.up) ∧
      t.dev.pins.pwma[n] = false ∧ t.dev.pins.pwmb[n] = false) ∧
  (∀ (n : Slot) pos s, calm (.lowerCrossing n pos) s.dev = true →
    (s.dev.slots[n]).xWas = true → (s.dev.slots[n]).xOn = false → (s.dev.slots[n]).lowSeen = false →
    ∃ t, exec (.lowerCrossing n pos) s = .next t ∧ (t.dev.slots[n]).lowSeen = true ∧ (t.dev.slots[n]).cur.tlow = pos ∧
      ∀ k : Slot, k ≠ n → t.dev.slots[k] = s.dev.slots[k]) ∧
  (∀ (n : Slot) (c : Chan) pos s, calm (.lowerCrossing n pos) s.dev = true →
    chanOf s.dev n = some c → (s.dev.slots[n]).yOn = true → (s.dev.slots[n]).yBlanked = true →
    deEn s.dev c = true ∨ (s.dev.chans[c]).gate = false →
    ∃ t, exec (.lowerCrossing n pos) s = .next t ∧ (t.dev.slots[n]).yOn = false ∧
      (t.dev.slots[n]).yOffAt = edgeAt s.dev.slots[n] pos.toNat ∧ t.dev.pins.pwma[n] = false ∧ t.dev.pins.pwmb[n] = false) ∧
  (∀ (n : Slot) (c : Chan) s, calm (.slopeCompStep n) s.dev = true → chanOf s.dev n = some c → (s.dev.slots[n]).xOn = true → csPol s.dev n = false →
    ∃ t, exec (.slopeCompStep n) s = .next t ∧ (t.dev.slots[n]).slopeN = (s.dev.slots[n]).slopeN + 1 ∧
      t.dev.clk.up = max s.dev.clk.up ((s.dev.slots[n]).xAt / 16 + 4 * ((s.dev.slots[n]).slopeN + 1)) ∧
      (t.dev.slots[n]).upper = max ((lowCode s.dev c n : Qty) + 1) ((s.dev.slots[n]).upper - slopeCode s.dev c n))

/-- R198, R197, R205, R181: the capture reader, driver faults and a carrier reset. A raise is stated for a collector that runs, from the end of INIT
on (R430). Where a command lets time pass, it is stated for a state in which no launch comes before its instant (`calm`). The time at which a timed
command finds the clocks is the model's choice (log entry 2). A command whose event cannot occur in the present state leaves the device as it is:
the model's reading (log entry 9). -/
def Obligations.SlotEvents : Prop :=
  (∀ (c : Chan) s, calm (.carrierPeak c) s.dev = true → (s.dev.chans[c]).running = true →
    ∃ t, exec (.carrierPeak c) s = .next t ∧ t.dev.clk.up = max s.dev.clk.up ((s.dev.chans[c]).due - (s.dev.chans[c]).m) ∧
      (∀ n ∈ members s.dev c, ((s.dev.slots[n]).capPrev.map (·.1)) ≠ some t.dev.clk.up →
        (t.dev.slots[n]).new = false ∧ (t.dev.slots[n]).overcap = false ∧ (t.dev.slots[n]).readable = captureRead s.dev.slots[n]) ∧
      (∀ n ∈ members s.dev c, ∀ sh nw oc cnt, (s.dev.slots[n]).capPrev = some (t.dev.clk.up, sh, nw, oc, cnt) →
        (t.dev.slots[n]).new = true ∧ (t.dev.slots[n]).overcap = false ∧ (t.dev.slots[n]).shadow = (s.dev.slots[n]).shadow ∧
        (t.dev.slots[n]).readable = captureRead { s.dev.slots[n] with shadow := sh, new := nw }) ∧
      ∀ n : Slot, n ∉ members s.dev c → t.dev.slots[n] = s.dev.slots[n]) ∧
  (∀ (n : Slot) ns s, ns < 10 → ∃ t, exec (.dfltHigh n ns) s = .next t ∧ t.dev = drive s.dev) ∧
  (∀ (n : Slot) ns s, colRuns s.dev = true → inverted s.dev (0x090 + n.1) = false → 10 ≤ ns →
    ∃ t, exec (.dfltHigh n ns) s = .next t ∧ (t.dev.faults[Fin.ofNat 2048 (0x090 + n.1)]).active = true ∧ t.dev.pins.pwma[n] = false ∧
      t.dev.pins.pwmb[n] = false) ∧
  (∀ (n : Slot) s, inverted s.dev (0x090 + n.1) = false → ∃ t, exec (.driverFaultCleared n) s = .next t ∧ (t.dev.slots[n]).dflt = false ∧
      (t.dev.faults[Fin.ofNat 2048 (0x090 + n.1)]).level = false ∧ ∀ k : Slot, k ≠ n → t.dev.slots[k] = s.dev.slots[k]) ∧
  (∀ s, calm (.carrierReset .device) s.dev = true → s.dev.start.st = .run →
    ∃ t, exec (.carrierReset .device) s = .next t ∧ (∀ q : Quad, (s.dev.quads[q]).armed = true →
        (t.dev.quads[q]).running = true ∧ (t.dev.quads[q]).due = t.dev.clk.up + 2 * qtReload s.dev q) ∧
      ∀ c : Chan, (s.dev.chans[c]).armed = true → (t.dev.chans[c]).running = false ∧ (t.dev.chans[c]).waiting = true)

/-- R221, R228, R238: what reaches a channel from housekeeping and its own timers. R257, R261: the limits of a charge phase in time. A raise is
stated for a collector that runs, from the end of INIT on (R430). Where a command lets time pass, it is stated for a state in which no launch comes
before its instant (`calm`). The time at which a timed command finds the clocks is the model's choice (log entry 2). A command whose event cannot
occur in the present state leaves the device as it is: the model's reading (log entry 9). Readings and choices of the model: log entries 20, 125. -/
def Obligations.ChannelTimers : Prop :=
  (∀ (c : Chan) b rest s, s.dev.isl.fifo[xIndex (.toQd (Chan.quad c))] = .budget c b :: rest →
    ∃ t, exec (.inputBudgetArrival c) s = .next t ∧ (t.dev.chans[c]).bud = b ∧ (t.dev.chans[c]).icmd = (s.dev.chans[c]).icmd ∧
      t.dev.isl.fifo[xIndex (.toQd (Chan.quad c))] = rest ∧ ∀ k : Chan, k ≠ c → t.dev.chans[k] = s.dev.chans[k]) ∧
  (∀ (c : Chan) g b rest s, s.dev.isl.fifo[xIndex (.toQd (Chan.quad c))] = .gain g :: .budget c b :: rest →
    ∃ t, exec (.inputBudgetArrival c) s = .next t ∧ (t.dev.chans[c]).bud = b ∧ (t.dev.quads[Chan.quad c]).gain = g ∧
      t.dev.isl.fifo[xIndex (.toQd (Chan.quad c))] = rest) ∧
  (∀ (c : Chan) s, (∀ m ∈ s.dev.isl.fifo[xIndex (.toQd (Chan.quad c))], isBudget c m = false) →
    ∃ t, exec (.inputBudgetArrival c) s = .next t ∧ t.dev = drive s.dev) ∧
  (∀ (c : Chan) s, calm (.softStartTimeout c) s.dev = true →
    colRuns s.dev = true → (s.dev.chans[c]).st = .start → (s.dev.chans[c]).gate = true → (s.dev.chans[c]).ssRaised = false →
    (s.dev.chans[c]).ssOver = false → s.dev.halt.phase = .idle →
    ∃ t, exec (.softStartTimeout c) s = .next t ∧ t.dev.clk.up = s.dev.clk.up + (ssTmo s.dev c - (s.dev.chans[c]).ssTime) ∧
      (t.dev.faults[Fin.ofNat 2048 (0x300 + c.1)]).count = raisedCount s.dev (0x300 + c.1)) ∧
  (∀ (c : Chan) s, calm (.softStartTimeout c) s.dev = true →
    (s.dev.chans[c]).st = .start → (s.dev.chans[c]).gate = true → (s.dev.chans[c]).ssRaised = false →
    (s.dev.chans[c]).ssOver = true → s.dev.halt.phase = .idle →
    ∃ t, exec (.softStartTimeout c) s = .next t ∧ t.dev.clk.up = s.dev.clk.up + (ssTmo s.dev c - (s.dev.chans[c]).ssTime) ∧
      (t.dev.chans[c]).ssRaised = true ∧ t.dev.faults = s.dev.faults) ∧
  (∀ s, calm .rampFactorUpdate s.dev = true →
    s.dev.halt.phase = .idle → ∃ t, exec .rampFactorUpdate s = .next t ∧ t.dev.clk.up = nextOf (10 * us) s.dev.clk.taken[0] s.dev.clk.up ∧
      t.dev.halt = s.dev.halt ∧ ((s.dev.button.rampAt = none) → ∀ c : Chan, (s.dev.chans[c]).hUpAt = none → (t.dev.chans[c]).h = 1)) ∧
  (∀ s, calm .rampFactorUpdate s.dev = true →
    s.dev.halt.phase = .quiet → ∃ t, exec .rampFactorUpdate s = .next t ∧ ∀ c : Chan, (s.dev.chans[c]).hUpAt = none → s.dev.button.rampAt = none →
      (t.dev.chans[c]).h = 0) ∧
  (∀ (c : Chan) u s, calm (.cutEndTimer c) s.dev = true →
    (s.dev.chans[c]).cutOpen = true → (s.dev.chans[c]).cutZeroAt = some u →
    ∃ t, exec (.cutEndTimer c) s = .next t ∧ t.dev.clk.up = max s.dev.clk.up (u + sec) ∧ (t.dev.chans[c]).cutOpen = false ∧
      (t.dev.chans[c]).cutMax = 0 ∧
      (hkWaits s.dev (Chan.quad c) = false → s.dev.col.logQ.length < 32 → t.dev.col.logQ.length = s.dev.col.logQ.length + 1) ∧
      (hkWaits s.dev (Chan.quad c) = true → t.dev.col = s.dev.col ∧
        ∃ r, t.dev.isl.fifo[xIndex (.toHk (Chan.quad c))] = s.dev.isl.fifo[xIndex (.toHk (Chan.quad c))] ++ [.event 0x0402 r])) ∧
  (∀ (c : Chan) s, (s.dev.chans[c]).restart = true → (s.dev.chans[c]).st = .off → (s.dev.chans[c]).hostStopQ = false → s.dev.start.st = .run →
    (armCheck s.dev (.channel c)).reason = 0 →
    ∃ t, exec (.rearmCheckDone c) s = .next t ∧ (t.dev.chans[c]).restart = false ∧ (t.dev.chans[c]).rearmRefused = false ∧
      (t.dev.chans[c]).st = .off ∧ t.dev.slots = s.dev.slots ∧ t.dev.isl.fifo[xIndex (.toQd (Chan.quad c))] =
        s.dev.isl.fifo[xIndex (.toQd (Chan.quad c))] ++ [.launch ⟨.carrierReset (.channel c), s.dev.clk.loc + us⟩]) ∧
  (∀ (c : Chan) s, (s.dev.chans[c]).restart = true → (s.dev.chans[c]).st = .off → (s.dev.chans[c]).hostStopQ = false → s.dev.start.st = .run →
    (armCheck s.dev (.channel c)).reason ≠ 0 →
    ∃ t, exec (.rearmCheckDone c) s = .next t ∧ (t.dev.chans[c]).restart = false ∧ (t.dev.chans[c]).rearmRefused = true ∧
      (t.dev.chans[c]).reason = BitVec.ofNat 8 (armCheck s.dev (.channel c)).reason ∧ (t.dev.chans[c]).st = .off) ∧
  (∀ (c : Chan) u s, calm (.recTimeout c) s.dev = true →
    colRuns s.dev = true → (s.dev.profs[c]).phase = .recover → phaseTime s.dev c = some u → (s.dev.profs[c]).timedOut = false →
    ∃ t, exec (.recTimeout c) s = .next t ∧ t.dev.clk.up = s.dev.clk.up + (tRecMax s.dev c - u) ∧
      (t.dev.faults[Fin.ofNat 2048 (0x320 + c.1)]).count = raisedCount s.dev (0x320 + c.1)) ∧
  (∀ (c : Chan) u s, calm (.finTimeout c) s.dev = true → (s.dev.profs[c]).phase = .finish → phaseTime s.dev c = some u →
    ∃ t, exec (.finTimeout c) s = .next t ∧ t.dev.clk.up = s.dev.clk.up + (tFinMax s.dev c - u) ∧ (t.dev.profs[c]).phase = .keep ∧
      (t.dev.profs[c]).finTimeout = true ∧ ∀ k : Chan, k ≠ c → t.dev.profs[k] = s.dev.profs[k]) ∧
  (∀ (c : Chan) u s, calm (.keepTimerExpiry c) s.dev = true → (s.dev.profs[c]).phase = .keep → (s.dev.profs[c]).keepAt = some u →
    ∃ t, exec (.keepTimerExpiry c) s = .next t ∧ t.dev.clk.up = max s.dev.clk.up (u + tKeep s.dev c) ∧ (t.dev.profs[c]).keepDue = true ∧
      (t.dev.profs[c]).assessTry = 0 ∧ (t.dev.profs[c]).phase = .keep)

/-- R249 to R256: a pulse ends and a rest runs. R254: the estimate of a rest, from three samples. Where a command lets time pass, it is stated for a
state in which no launch comes before its instant (`calm`). The time at which a timed command finds the clocks is the model's choice (log entry 2).
Readings and choices of the model: log entry 89. -/
def Obligations.Rests : Prop :=
  (∀ (c : Chan) u s, calm (.pulseRampDown c) s.dev = true →
    nextRest s.dev c = some u → (s.dev.chans[c]).st = .regulate → (s.dev.profs[c]).inRest = false →
    (s.dev.profs[c]).waitSlot = false → (s.dev.chans[c]).hpDownAt = none → isPulsed s.dev c = true →
    ∃ t, exec (.pulseRampDown c) s = .next t ∧ t.dev.clk.loc = max s.dev.clk.loc (u - peRamp s.dev c) ∧
      (t.dev.chans[c]).hpDownAt = some t.dev.clk.up ∧ t.dev.slots = s.dev.slots) ∧
  (∀ (c : Chan) u s, calm (.restStart c) s.dev = true →
    nextRest s.dev c = some u → (s.dev.profs[c]).slot.isSome = true → s.dev.clk.loc ≤ u → (s.dev.chans[c]).st = .regulate → (s.dev.profs[c]).waitSlot = false →
    isPulsed s.dev c = true →
    ∃ t, exec (.restStart c) s = .next t ∧ t.dev.clk.loc = u ∧ (t.dev.profs[c]).inRest = true ∧
      ((s.dev.profs[c]).inRest = false → (t.dev.profs[c]).samples = [] ∧ (t.dev.chans[c]).gate = false ∧
        (t.dev.profs[c]).phBefore = (s.dev.profs[c]).phase) ∧
      ((s.dev.profs[c]).inRest = true → t.dev.profs[c] = s.dev.profs[c])) ∧
  (∀ (c : Chan) u s, calm (.restStart c) s.dev = true →
    nextRest s.dev c = some u → (s.dev.profs[c]).slot.isSome = true → u < s.dev.clk.loc → (s.dev.chans[c]).st = .regulate → (s.dev.profs[c]).waitSlot = false →
    isPulsed s.dev c = true →
    ∃ t, exec (.restStart c) s = .next t ∧ t.dev.clk.loc = s.dev.clk.loc + 1 ∧ (t.dev.profs[c]).inRest = true ∧
      t.dev.isl.late[quadIsland (Chan.quad c)] = true) ∧
  (∀ (c : Chan) u s, calm (.restStart c) s.dev = true → nextRest s.dev c = some u → (s.dev.profs[c]).slot.isSome = true → s.dev.clk.loc ≤ u → (s.dev.chans[c]).st ≠ .regulate →
    ∃ t, exec (.restStart c) s = .next t ∧ (t.dev.profs[c]).skippedRests = satInc (s.dev.profs[c]).skippedRests ∧
      (t.dev.profs[c]).inRest = (s.dev.profs[c]).inRest ∧ t.dev.slots = s.dev.slots) ∧
  (∀ (c : Chan) s, calm (.restSampleEnd c) s.dev = true →
    (s.dev.profs[c]).inRest = true → (s.dev.profs[c]).evald = false → (s.dev.profs[c]).samples.length < 3 →
    ∃ t, exec (.restSampleEnd c) s = .next t ∧
      t.dev.clk.up = max s.dev.clk.up ((s.dev.profs[c]).restAt + ((s.dev.profs[c]).samples.length + 1) * tSamp s.dev c) ∧
      (t.dev.profs[c]).samples = (s.dev.profs[c]).samples ++
        [if (s.dev.profs[c]).winN < (nAvg s.dev c + 1) / 2 then none else some (qdiv (s.dev.profs[c]).winSum (s.dev.profs[c]).winN)]) ∧
  (∀ (c : Chan) v1 v2 v3 s, calm (.restEvaluation c) s.dev = true →
    (s.dev.profs[c]).samples = [some v1, some v2, some v3] → (s.dev.profs[c]).evald = false →
    (s.dev.profs[c]).iMax ≤ iRestMax s.dev c →
    ∃ t, exec (.restEvaluation c) s = .next t ∧ t.dev.clk.up = max s.dev.clk.up ((s.dev.profs[c]).restAt + 3 * tSamp s.dev c) ∧
      (t.dev.profs[c]).evald = true ∧ (t.dev.profs[c]).kind = (estimate (dFloor s.dev c) v1 v2 v3).2 ∧
      (t.dev.profs[c]).vLast = BitVec.ofNat 24 (toMv (estimate (dFloor s.dev c) v1 v2 v3).1) ∧
      (t.dev.profs[c]).ratio = decayRatio v1 v2 v3) ∧
  (∀ (c : Chan) v1 v2 v3 s, calm (.restEvaluation c) s.dev = true →
    (s.dev.profs[c]).samples = [some v1, some v2, some v3] → (s.dev.profs[c]).evald = false →
    iRestMax s.dev c < (s.dev.profs[c]).iMax →
    ∃ t, exec (.restEvaluation c) s = .next t ∧ (t.dev.profs[c]).disturbed = satInc (s.dev.profs[c]).disturbed ∧
      (t.dev.profs[c]).phase = (s.dev.profs[c]).phase ∧ (t.dev.profs[c]).evald = true ∧ (t.dev.profs[c]).ratio = decayRatio v1 v2 v3 ∧
      (t.dev.profs[c]).vLast = (s.dev.profs[c]).vLast) ∧
  (∀ (c : Chan) x y z s, calm (.restEvaluation c) s.dev = true →
    (s.dev.profs[c]).samples = [x, y, z] → (x = none ∨ y = none ∨ z = none) → (s.dev.profs[c]).evald = false →
    ∃ t, exec (.restEvaluation c) s = .next t ∧ (t.dev.profs[c]).incomplete = satInc (s.dev.profs[c]).incomplete ∧
      (t.dev.profs[c]).phase = (s.dev.profs[c]).phase ∧ (t.dev.profs[c]).evald = true) ∧
  (∀ (c : Chan) s, calm (.restEnd c) s.dev = true → (s.dev.profs[c]).inRest = true →
    ∃ t, exec (.restEnd c) s = .next t ∧ t.dev.clk.up = max s.dev.clk.up ((s.dev.profs[c]).restAt + tRest s.dev c) ∧
      (t.dev.profs[c]).inRest = false ∧ (t.dev.chans[c]).hpUpAt = some t.dev.clk.up ∧ (t.dev.chans[c]).hp = 0 ∧
      (t.dev.profs[c]).req1 = reqAt1 s.dev c) ∧
  (∀ (c : Chan) u s, calm (.restEnd c) s.dev = true →
    (s.dev.profs[c]).inRest = false → (s.dev.profs[c]).waitSlot = true → (s.dev.profs[c]).joinEnd = some u →
    ∃ t, exec (.restEnd c) s = .next t ∧ t.dev.clk.up = max s.dev.clk.up u ∧ (t.dev.profs[c]).waitSlot = false ∧
      (t.dev.chans[c]).hpUpAt = some t.dev.clk.up ∧ (t.dev.chans[c]).hp = 0) ∧
  (∀ flr v1 v2 v3 : Qty, v1 < v2 ∨ v2 < v3 → estimate flr v1 v2 v3 = (v3, 2) ∧ decayRatio v1 v2 v3 = 0) ∧
  (∀ flr v1 v2 v3 : Qty, v2 ≤ v1 → v3 ≤ v2 → v1 + v3 - 2 * v2 < flr → estimate flr v1 v2 v3 = (v3, 1)) ∧
  (∀ flr v1 v2 v3 : Qty, v2 ≤ v1 → v3 ≤ v2 → flr ≤ v1 + v3 - 2 * v2 → 0 < flr →
    v3 - (v1 - v3) ≤ v3 - (v2 - v3) ^ 2 / (v1 + v3 - 2 * v2) →
    estimate flr v1 v2 v3 = (v3 - (v2 - v3) ^ 2 / (v1 + v3 - 2 * v2), 0)) ∧
  (∀ flr v1 v2 v3 : Qty, v2 ≤ v1 → v3 ≤ v2 → flr ≤ v1 + v3 - 2 * v2 → 0 < flr →
    v3 - (v2 - v3) ^ 2 / (v1 + v3 - 2 * v2) < v3 - (v1 - v3) → estimate flr v1 v2 v3 = (v3 - (v1 - v3), 3)) ∧
  (∀ flr v1 v2 v3 : Qty, 0 < flr → (estimate flr v1 v2 v3).1 ≤ v3)

/-- R272 to R276: the stagger of the rests. Where a command lets time pass, it is stated for a state in which no launch comes before its instant
(`calm`). The time at which a timed command finds the clocks is the model's choice (log entry 2). -/
def Obligations.RestStagger : Prop :=
  (∀ s, calm .staggerDeal s.dev = true → s.dev.start.st = .run → s.dev.stg.dealFor = none → stgTp (stgCfg s.dev) ≠ 0 →
    ∃ t, exec .staggerDeal s = .next t ∧ t.dev.stg.dealtSet = pulsedSet s.dev ∧ t.dev.stg.newCfg = BitVec.ofNat 32 (stgCfg s.dev) ∧
      t.dev.stg.dealFor = some ((s.dev.clk.loc + 3 * ms + stgTp (stgCfg s.dev) - 1) / stgTp (stgCfg s.dev) * stgTp (stgCfg s.dev)) ∧
      t.dev.profs = s.dev.profs) ∧
  (∀ f s, calm .staggerFrameStart s.dev = true → s.dev.stg.dealFor = some f →
    ∃ t, exec .staggerFrameStart s = .next t ∧ t.dev.clk.loc = max s.dev.clk.loc f ∧ t.dev.stg.dealt = s.dev.stg.newDeal.getD s.dev.stg.dealt ∧
      t.dev.stg.cfg = s.dev.stg.newCfg ∧
      ∀ c : Chan, (t.dev.profs[c]).slot = slotIn (s.dev.stg.newDeal.getD s.dev.stg.dealt) c ∧ (t.dev.profs[c]).phase = (s.dev.profs[c]).phase) ∧
  (∀ s, calm .staggerGainUpdate s.dev = true → s.dev.halt.phase = .idle →
    ∃ t, exec .staggerGainUpdate s = .next t ∧ t.dev.clk.up = nextOf (10 * us) s.dev.clk.taken[3] s.dev.clk.up ∧
      ∀ q : Quad, t.dev.isl.fifo[xIndex (.toQd q)] = s.dev.isl.fifo[xIndex (.toQd q)] ++ [.gain t.dev.stg.gain]) ∧
  (∀ s, calm .staggerGainUpdate s.dev = true →
    s.dev.halt.phase ≠ .idle → ∃ t, exec .staggerGainUpdate s = .next t ∧ t.dev.stg = s.dev.stg ∧ t.dev.isl = s.dev.isl)

/-- R299, R300, R311, R315: from absence to insertion. The last two clauses name the quiet moves of a refused insertion. A raise is stated for a
collector that runs, from the end of INIT on (R430). Where a command lets time pass, it is stated for a state in which no launch comes before its
instant (`calm`). The time at which a timed command finds the clocks is the model's choice (log entry 2). Readings and choices of the model: log
entry 29. -/
def Obligations.Insertion : Prop :=
  (∀ (c : Chan) u s, calm (.retryTimerExpiry c) s.dev = true → (s.dev.paths[c]).st = .absent → (s.dev.paths[c]).retryAt = some u →
    ∃ t, exec (.retryTimerExpiry c) s = .next t ∧ t.dev.clk.up = max s.dev.clk.up u ∧ (t.dev.paths[c]).st = .wait ∧
      (t.dev.paths[c]).retryAt = none ∧ (t.dev.paths[c]).presentAt = none ∧ ∀ k : Chan, k ≠ c → t.dev.paths[k] = s.dev.paths[k]) ∧
  (∀ (c : Chan) u s, calm (.presenceConfirmed c) s.dev = true →
    (s.dev.paths[c]).st = .wait → (s.dev.paths[c]).presentAt = some u → roleLost s.dev (vstrOf s.dev c) = false →
    (s.dev.paths[c]).hmem < 1 / 2 → (s.dev.paths[c]).latched = false → (s.dev.quads[Chan.quad c]).stale = false →
    ∃ t, exec (.presenceConfirmed c) s = .next t ∧ t.dev.clk.up = max s.dev.clk.up (u + 50 * ms) ∧ (t.dev.paths[c]).st = .gtest ∧
      (t.dev.paths[c]).g = 0 ∧ (t.dev.paths[c]).gAt = t.dev.clk.up) ∧
  (∀ (c : Chan) u s, calm (.presenceConfirmed c) s.dev = true →
    (s.dev.paths[c]).st = .wait → (s.dev.paths[c]).presentAt = some u → (s.dev.paths[c]).latched = true →
    ∃ t, exec (.presenceConfirmed c) s = .next t ∧ (t.dev.paths[c]).st = .wait ∧ (t.dev.paths[c]).g = (s.dev.paths[c]).g) ∧
  (∀ (c : Chan) u s, (s.dev.paths[c]).st = .gtest → (s.dev.paths[c]).checkAt = some u → u ≤ s.dev.clk.up → s.dev.bus.st = .sourced →
    anyAdmitted s.dev = true →
    ∃ t, exec (.gateFeedbackLevel (.path c) true) s = .next t ∧ (t.dev.paths[c]).fbHigh = true ∧ (t.dev.paths[c]).st = .block ∧
      (t.dev.paths[c]).g = 0 ∧ t.dev.chans = s.dev.chans) ∧
  (∀ (c : Chan) u s, calm (.stringLowTimeout c) s.dev = true → colRuns s.dev = true → (s.dev.paths[c]).st = .block → (s.dev.paths[c]).lowAt = some u →
    ∃ t, exec (.stringLowTimeout c) s = .next t ∧ t.dev.clk.up = max s.dev.clk.up (u + 50 * ms) ∧ (t.dev.paths[c]).st = .absent ∧
      (t.dev.paths[c]).g = 0 ∧ (t.dev.paths[c]).retryAt = some (t.dev.clk.up + tRetry s.dev c) ∧
      (t.dev.faults[Fin.ofNat 2048 (0x440 + c.1)]).count = raisedCount s.dev (0x440 + c.1)) ∧
  (∀ (c : Chan) u s, calm (.stringLowTimeout c) s.dev = true →
    (s.dev.paths[c]).st = .wait → (s.dev.paths[c]).lowAt = some u → (s.dev.paths[c]).wasPresent = false →
    ∃ t, exec (.stringLowTimeout c) s = .next t ∧ (t.dev.paths[c]).st = .absent ∧
      (t.dev.faults[Fin.ofNat 2048 (0x440 + c.1)]).count = (s.dev.faults[Fin.ofNat 2048 (0x440 + c.1)]).count)

/-- R300, R306, R307, R316: what opens a path switch. R290, R299, R300: the gate references reach their ends. A raise is stated for a collector that
runs, from the end of INIT on (R430). Where a command lets time pass, it is stated for a state in which no launch comes before its instant (`calm`).
The time at which a timed command finds the clocks is the model's choice (log entry 2). A command whose event cannot occur in the present state
leaves the device as it is: the model's reading (log entry 9). Readings and choices of the model: log entries 15, 96, 117, 177. -/
def Obligations.PathSwitches : Prop :=
  (∀ (c : Chan) s, colRuns s.dev = true → (s.dev.paths[c]).instCode = true → (s.dev.paths[c]).st.tripRow = true →
    ∃ t, exec (.instantTrip c) s = .next t ∧ (t.dev.paths[c]).st = .tripped ∧ (t.dev.paths[c]).g = 0 ∧ (t.dev.paths[c]).latched = true ∧
      (t.dev.paths[c]).tripInst = true ∧ (t.dev.paths[c]).tripCurve = false ∧ (t.dev.paths[c]).tripCnt = satInc (s.dev.paths[c]).tripCnt ∧
      (t.dev.faults[Fin.ofNat 2048 (0x3E0 + c.1)]).count = raisedCount s.dev (0x3E0 + c.1)) ∧
  (∀ (c : Chan) s, (s.dev.paths[c]).instCode = false →
    ∃ t, exec (.instantTrip c) s = .next t ∧ t.dev = drive (busEval s.dev) ∧ t.dev.paths = s.dev.paths) ∧
  (∀ (c : Chan) s, (s.dev.paths[c]).instCode = true → (s.dev.paths[c]).st.tripRow = false → s.dev.bus.st = .onStrings → anyAdmitted s.dev = false →
    ∃ t, exec (.instantTrip c) s = .next t ∧ t.dev.paths = s.dev.paths ∧ (t.dev.chans[c]).chBelow = true ∧ (t.dev.chans[c]).chlim = false ∧
      t.dev.faults = s.dev.faults) ∧
  (∀ (c : Chan) u s, calm (.stuckOnTimeout c) s.dev = true →
    colRuns s.dev = true → firstOf (s.dev.paths[c]).stuckSince (s.dev.paths[c]).stuckSinceB = some u →
    ∃ t, exec (.stuckOnTimeout c) s = .next t ∧ t.dev.clk.up = max s.dev.clk.up (u + 100 * ms) ∧ (t.dev.paths[c]).st = .stuck ∧
      (t.dev.paths[c]).g = 0 ∧ (t.dev.paths[c]).retryAt = none ∧
      (t.dev.paths[c]).stuckSince = none ∧ (t.dev.paths[c]).stuckSinceB = none ∧
      (t.dev.faults[Fin.ofNat 2048 (0x400 + c.1)]).count = raisedCount s.dev (0x400 + c.1)) ∧
  (∀ (c : Chan) u s, calm (.pathGateCheckTimeout c) s.dev = true → colRuns s.dev = true → (s.dev.paths[c]).checkAt = some u →
    ((s.dev.paths[c]).st = .gtest ∨ (s.dev.paths[c]).st = .ramp ∨ (s.dev.paths[c]).st = .diode ∨ (s.dev.paths[c]).st = .full) →
    (s.dev.paths[c]).passed = false → (s.dev.paths[c]).fbHigh = false → (s.dev.paths[c]).falling = false →
    ∃ t, exec (.pathGateCheckTimeout c) s = .next t ∧ t.dev.clk.up = max s.dev.clk.up (u + tRise s.dev c) ∧
      (t.dev.paths[c]).st = .norise ∧ (t.dev.paths[c]).g = 0 ∧ 0x420 + c.1 ∈ (t.dev.paths[c]).holders ∧
      (t.dev.faults[Fin.ofNat 2048 (0x420 + c.1)]).hold = true ∧
      (t.dev.faults[Fin.ofNat 2048 (0x420 + c.1)]).count = raisedCount s.dev (0x420 + c.1)) ∧
  (∀ (c : Chan) u s, calm (.pathGateCheckTimeout c) s.dev = true →
    (s.dev.paths[c]).checkAt = some u → (s.dev.paths[c]).st = .ramp → (s.dev.paths[c]).passed = false →
    (s.dev.paths[c]).fbHigh = false → (s.dev.paths[c]).falling = true → (s.dev.paths[c]).toFull = false → 0 ≤ (s.dev.paths[c]).g →
    (s.dev.paths[c]).g < pgTest s.dev c →
    ∃ t, exec (.pathGateCheckTimeout c) s = .next t ∧ t.dev.clk.up = max s.dev.clk.up (u + tRise s.dev c) ∧
      (t.dev.paths[c]).st = .ramp ∧ (t.dev.paths[c]).checkAt = none ∧
      (t.dev.faults[Fin.ofNat 2048 (0x420 + c.1)]).count = (s.dev.faults[Fin.ofNat 2048 (0x420 + c.1)]).count) ∧
  (∀ (c : Chan) (m : Pm) s, (s.dev.chans[c]).st = .regulate → (s.dev.chans[c]).gate = true → rampH s.dev c = 1 →
    halvedIn s.dev c = false → istrOf s.dev c = some m → fsA s.dev m ≠ 0 →
    (irevCode s.dev c : Int) + 16 ≤ cmpCode (fsA s.dev m) (s.dev.chans[c]).i → (s.dev.paths[c]).collapseAt = none →
    ∃ t, exec (.collapseDetected c) s = .next t ∧ (t.dev.paths[c]).collapseAt = some s.dev.clk.up ∧ (t.dev.paths[c]).vc = (s.dev.chans[c]).v ∧
      (t.dev.chans[c]).gate = false ∧ (t.dev.chans[c]).st = .regulate) ∧
  (∀ (c : Chan) s, (s.dev.chans[c]).st ≠ .regulate →
    ∃ t, exec (.collapseDetected c) s = .next t ∧ t.dev.paths = s.dev.paths ∧ t.dev.chans = s.dev.chans) ∧
  (∀ (c : Chan) u s, calm (.collapseHoldEnd c) s.dev = true → (s.dev.paths[c]).collapseAt = some u → (s.dev.paths[c]).holdOver = false →
    ∃ t, exec (.collapseHoldEnd c) s = .next t ∧ t.dev.clk.up = max s.dev.clk.up (u + 2 * ms) ∧ (t.dev.paths[c]).holdOver = true ∧
      (t.dev.paths[c]).collapseAt = some u ∧
      (t.dev.chans[c]).h = 0 ∧ (t.dev.chans[c]).hUpAt = some t.dev.clk.up ∧ (t.dev.chans[c]).gate = (s.dev.chans[c]).gate ∧
      (t.dev.paths[c]).st = (s.dev.paths[c]).st) ∧
  (∀ (c : Chan) s, calm (.gateRampComplete (.path c)) s.dev = true → (s.dev.paths[c]).toFull = true → (s.dev.paths[c]).st = .ramp →
    ∃ t, exec (.gateRampComplete (.path c)) s = .next t ∧
      t.dev.clk.up = max s.dev.clk.up ((s.dev.paths[c]).gAt + rampTime (pgFull s.dev c - (s.dev.paths[c]).g) (pgSlope s.dev c)) ∧
      (t.dev.paths[c]).st = .full ∧ (t.dev.paths[c]).g = pgFull s.dev c ∧ (t.dev.paths[c]).toFull = false) ∧
  (∀ (c : Chan) s, calm (.gateRampComplete (.path c)) s.dev = true →
    (s.dev.paths[c]).toFull = false → (s.dev.paths[c]).st = .gtest → (s.dev.paths[c]).checkAt = none →
    (s.dev.paths[c]).fbHigh = false →
    ∃ t, exec (.gateRampComplete (.path c)) s = .next t ∧
      t.dev.clk.up = max s.dev.clk.up ((s.dev.paths[c]).gAt + rampTime (pgTest s.dev c - (s.dev.paths[c]).g) (pgSlope s.dev c)) ∧
      (t.dev.paths[c]).st = .gtest ∧ (t.dev.paths[c]).g = pgTest s.dev c ∧ (t.dev.paths[c]).checkAt = some t.dev.clk.up ∧
      (t.dev.paths[c]).passed = false) ∧
  (∀ (c : Chan) s, calm (.gateRampComplete (.path c)) s.dev = true →
    (s.dev.paths[c]).toFull = false → (s.dev.paths[c]).st = .ramp → (s.dev.paths[c]).falling = true →
    ∃ t, exec (.gateRampComplete (.path c)) s = .next t ∧
      t.dev.clk.up = max s.dev.clk.up ((s.dev.paths[c]).gAt + rampTime (s.dev.paths[c]).g (pgSlope s.dev c)) ∧
      (t.dev.paths[c]).st = .block ∧ (t.dev.paths[c]).g = 0) ∧
  (∀ (k : Src) s, calm (.gateRampComplete (.source k)) s.dev = true → ∃ t, exec (.gateRampComplete (.source k)) s = .next t ∧ t.dev = drive s.dev) ∧
  (∀ (k : Src) high s, ∃ t, exec (.gateFeedbackLevel (.source k) high) s = .next t ∧ (t.dev.srcs[k]).fbHigh = high ∧
    (t.dev.srcs[k]).g = (s.dev.srcs[k]).g ∧ (t.dev.srcs[k]).st = (s.dev.srcs[k]).st ∧
    ((s.dev.srcs[k]).checkAt ≠ none → high = true → (t.dev.srcs[k]).passed = true) ∧ ∀ j : Src, j ≠ k → t.dev.srcs[j] = s.dev.srcs[j])

/-- R284: the SYS bus voltage and its freshness. R302, R303, R304: the state of the SYS bus. Where a command lets time pass, it is stated for a
state in which no launch comes before its instant (`calm`). The time at which a timed command finds the clocks is the model's choice (log entry 2).
A command whose event cannot occur in the present state leaves the device as it is: the model's reading (log entry 9). Readings and choices of the
model: log entries 20, 117. -/
def Obligations.BusVoltageAndState : Prop :=
  (∀ s, calm .vsysEvaluation s.dev = true → (∀ q : Quad, (s.dev.quads[q]).sysAt = none) → (∀ q : Quad, (s.dev.quads[q]).hkAt = none) →
    ∃ t, exec .vsysEvaluation s = .next t ∧ t.dev.clk.up = nextOf stepSub s.dev.clk.taken[2] s.dev.clk.up ∧ t.dev.bus.vSys = s.dev.bus.vSys ∧
      t.dev.bus.fresh = false ∧ ∀ q : Quad, (s.dev.quads[q]).armed = true → (t.dev.quads[q]).stale = true ∧
        (t.dev.quads[q]).sysHeld = (s.dev.quads[q]).sysHeld) ∧
  (∀ qs s, calm .vsysEvaluation s.dev = true → qs = allQuads.filter (fun q => (s.dev.quads[q]).armed &&
      (s.dev.quads[q]).hkAt.any fun u => decide (nextOf stepSub s.dev.clk.taken[2] s.dev.clk.up ≤ u + ms)) → qs ≠ [] →
    ∃ t, exec .vsysEvaluation s = .next t ∧ t.dev.bus.fresh = true ∧ t.dev.bus.vSys = meanQ (qs.map fun q => (s.dev.quads[q]).hkVal) ∧
      ∀ q : Quad, (s.dev.quads[q]).armed = true → (t.dev.quads[q]).stale = false) ∧
  (∀ (q : Quad) u s, calm (.sysFreshnessExpiry q) s.dev = true → (s.dev.quads[q]).sysAt = some u → (s.dev.quads[q]).armed = true →
    (∀ k : Quad, k ≠ q → (s.dev.quads[k]).hkAt = none) → ((s.dev.quads[q]).hkAt = none ∨ (s.dev.quads[q]).hkAt = some u) →
    ∃ t, exec (.sysFreshnessExpiry q) s = .next t ∧ t.dev.clk.up = max s.dev.clk.up (u + ms) ∧ (t.dev.quads[q]).sysAt = none ∧
      (t.dev.quads[q]).stale = true ∧ (t.dev.quads[q]).sysHeld = (s.dev.quads[q]).sysHeld) ∧
  (∀ qs s, calm .vsysEvaluation s.dev = true → qs = allQuads.filter (fun q => (s.dev.quads[q]).armed &&
      (s.dev.quads[q]).hkAt.any fun u => decide (nextOf stepSub s.dev.clk.taken[2] s.dev.clk.up ≤ u + ms)) → qs ≠ [] →
    meanQ (qs.map fun q => (s.dev.quads[q]).hkVal) < vSysLoss s.dev → s.dev.bus.st = .sourced → 1 ≤ s.dev.bus.belowRun →
    ∃ t, exec .vsysEvaluation s = .next t ∧ (t.dev.bus.st = .handover ∨ t.dev.bus.st = .onStrings) ∧ t.dev.bus.b = 0 ∧ t.dev.bus.p = 0 ∧
      t.dev.bus.hoCnt = satInc s.dev.bus.hoCnt ∧ ∀ k : Src, (t.dev.srcs[k]).st ≠ .admitted) ∧
  (∀ s, calm .handoverTimeout s.dev = true → s.dev.bus.st = .handover → anyAdmitted s.dev = false →
    ∃ t, exec .handoverTimeout s = .next t ∧ t.dev.clk.up = max s.dev.clk.up (s.dev.bus.entered + 5 * ms) ∧ t.dev.bus.st = .onStrings ∧
      t.dev.bus.entered = t.dev.clk.up ∧ t.dev.paths = s.dev.paths) ∧
  (∀ s, calm .returnTimeout s.dev = true → s.dev.bus.st = .ret → anyAdmitted s.dev = true →
    ∃ t, exec .returnTimeout s = .next t ∧ t.dev.clk.up = max s.dev.clk.up (s.dev.bus.entered + 5 * ms) ∧ t.dev.bus.st = .sourced ∧
      t.dev.paths = s.dev.paths) ∧
  (∀ (q : Quad) b rest s, s.dev.isl.fifo[xIndex (.toQd q)] = .bus b :: rest →
    ∃ t, exec (.busStateArrival q) s = .next t ∧ (t.dev.quads[q]).bus = b ∧
      ∀ k : Chan, Chan.quad k ≠ q → (t.dev.paths[k]).st = (s.dev.paths[k]).st ∧ (t.dev.paths[k]).g = (s.dev.paths[k]).g) ∧
  (∀ (q : Quad) s, (∀ m ∈ s.dev.isl.fifo[xIndex (.toQd q)], isBus m = false) → ∃ t, exec (.busStateArrival q) s = .next t ∧ t.dev = drive s.dev) ∧
  (∀ (c : Chan) rest s, s.dev.isl.fifo[xIndex (.toQd (Chan.quad c))] = .bus .onStrings :: rest → s.dev.start.st ≠ .svcHold →
    (s.dev.paths[c]).st = .diode → (s.dev.quads[Chan.quad c]).stale = false →
    ∃ t, exec (.busStateArrival (Chan.quad c)) s = .next t ∧ (t.dev.paths[c]).st = .ramp ∧ (t.dev.paths[c]).toFull = true) ∧
  (∀ (c : Chan) b rest s, s.dev.isl.fifo[xIndex (.toQd (Chan.quad c))] = .bus b :: rest → (s.dev.paths[c]).st = .diode →
    (s.dev.quads[Chan.quad c]).stale = true →
    ∃ t, exec (.busStateArrival (Chan.quad c)) s = .next t ∧ (t.dev.paths[c]).st = .diode ∧ (t.dev.paths[c]).g = (s.dev.paths[c]).g) ∧
  (∀ (c : Chan) rest s, s.dev.isl.fifo[xIndex (.toQd (Chan.quad c))] = .bus .sourced :: rest → (s.dev.quads[Chan.quad c]).bus = .ret →
    s.dev.start.st ≠ .svcHold → (s.dev.paths[c]).st = .full →
    ∃ t, exec (.busStateArrival (Chan.quad c)) s = .next t ∧
      (t.dev.paths[c]).st = (if standby s.dev c then .block else .diode) ∧ (t.dev.paths[c]).falling = standby s.dev c) ∧
  (∀ (f : Fsrc) (c : Chan) s, s.dev.start.st = .run → (s.dev.faults[f]).active = false → scopeOf f.1 = some (.path c) →
    effSev s.dev f.1 = .channel → s.dev.bus.st = .ret → anyAdmitted s.dev = true → (s.dev.paths[c]).st = .full →
    (∀ k : Chan, k ≠ c → (s.dev.paths[k]).st ≠ .full) →
    ∃ t, exec (.faultRaise f) s = .next t ∧ (t.dev.paths[c]).st = .norise ∧ t.dev.bus.st = .sourced)

/-- R287 to R293: the source switches. A raise is stated for a collector that runs, from the end of INIT on (R430). Where a command lets time pass,
it is stated for a state in which no launch comes before its instant (`calm`). The time at which a timed command finds the clocks is the model's
choice (log entry 2). Readings and choices of the model: log entries 170, 174. -/
def Obligations.Sources : Prop :=
  (∀ (k : Src) u s, calm (.qualTimerExpiry k) s.dev = true →
    s.dev.start.st ≠ .svcHold → (s.dev.srcs[k]).st = .qual → (s.dev.srcs[k]).qualAt = some u → s.dev.bus.st ≠ .handover →
    (s.dev.quads[k]).stale = false → roleLost s.dev (vsrcOf s.dev k) = false → ((s.dev.srcs[k]).isOver = false ∨ s.dev.bus.halveRaised = false) →
    ∃ t, exec (.qualTimerExpiry k) s = .next t ∧ t.dev.clk.up = max s.dev.clk.up (u + tQual s.dev k) ∧ (t.dev.srcs[k]).st = .ramp ∧
      (t.dev.srcs[k]).g = 0 ∧ ((s.dev.srcs[k]).isOver = true → t.dev.bus.halving = true ∧ (t.dev.srcs[k]).halveHit = true)) ∧
  (∀ (k : Src) u s, calm (.qualTimerExpiry k) s.dev = true →
    s.dev.start.st ≠ .svcHold → (s.dev.srcs[k]).st = .qual → (s.dev.srcs[k]).qualAt = some u →
    ((s.dev.quads[k]).stale = true ∨ roleLost s.dev (vsrcOf s.dev k) = true ∨ s.dev.bus.st = .handover) →
    ∃ t, exec (.qualTimerExpiry k) s = .next t ∧ (t.dev.srcs[k]).st = .hold) ∧
  (∀ (k : Src) u s, calm (.qualTimerExpiry k) s.dev = true →
    s.dev.start.st ≠ .svcHold → (s.dev.srcs[k]).st = .requal → (s.dev.srcs[k]).qualAt = some u → s.dev.bus.st ≠ .handover →
    roleLost s.dev (vsrcOf s.dev k) = false →
    ∃ t, exec (.qualTimerExpiry k) s = .next t ∧ t.dev.clk.up = max s.dev.clk.up (u + tQual s.dev k) ∧ t.dev.srcs = s.dev.srcs) ∧
  (∀ (m : Pm) (k : Src) u (raw : BitVec 24) ovr s, calm (.streamResult m raw ovr) s.dev = true →
    streamRole s.dev m = true → clkRuns s.dev (Pm.quad m) = true → s.dev.start.st = .run → (s.dev.mods[m]).failed = false →
    s.dev.hk.changing = false → (s.dev.mods[m]).streamAt + streamSettle ≤ s.dev.clk.up → roleEff s.dev m = 3 → k = Pm.quad m →
    (s.dev.mods[m]).same < 255 → (s.dev.srcs[k]).st = .requal → (s.dev.srcs[k]).qualAt = some u → s.dev.bus.st ≠ .handover →
    roleLost s.dev (vsrcOf s.dev k) = false → ((s.dev.srcs[k]).isOver = false ∨ s.dev.bus.halveRaised = false) →
    vQlo s.dev k ≤ codeV s.dev m (correct s.dev m raw.toInt).1 →
    ∃ t, exec (.streamResult m raw ovr) s = .next t ∧
      (vQup s.dev k ≤ codeV s.dev m (correct s.dev m raw.toInt).1 → u + tQual s.dev k ≤ t.dev.clk.up → (t.dev.srcs[k]).st = .admitted) ∧
      (vQup s.dev k ≤ codeV s.dev m (correct s.dev m raw.toInt).1 → t.dev.clk.up < u + tQual s.dev k →
        (t.dev.srcs[k]).st = .requal ∧ (t.dev.srcs[k]).qualAt = some u) ∧
      (codeV s.dev m (correct s.dev m raw.toInt).1 < vQup s.dev k → (t.dev.srcs[k]).st = .requal ∧ (t.dev.srcs[k]).qualAt = none)) ∧
  (∀ (k : Src) u s, calm (.sourceGateCheckTimeout k) s.dev = true →
    colRuns s.dev = true → (s.dev.srcs[k]).checkAt = some u → (s.dev.srcs[k]).st.live = true → (s.dev.srcs[k]).passed = false →
    ∃ t, exec (.sourceGateCheckTimeout k) s = .next t ∧ t.dev.clk.up = max s.dev.clk.up (u + sTrise s.dev k) ∧ (t.dev.srcs[k]).st = .norise ∧
      (t.dev.srcs[k]).g = 0 ∧ 0x4A0 + k.1 ∈ (t.dev.srcs[k]).holders ∧
      (t.dev.faults[Fin.ofNat 2048 (0x4A0 + k.1)]).count = raisedCount s.dev (0x4A0 + k.1)) ∧
  (∀ (k : Src) u s, calm (.sourceStuckTimeout k) s.dev = true →
    colRuns s.dev = true → (s.dev.srcs[k]).stuckSince = some u → (s.dev.srcs[k]).stuckUp = false →
    ∃ t, exec (.sourceStuckTimeout k) s = .next t ∧ t.dev.clk.up = max s.dev.clk.up (u + 100 * ms) ∧ (t.dev.srcs[k]).stuck = true ∧
      (t.dev.srcs[k]).stuckUp = true ∧
      (t.dev.faults[Fin.ofNat 2048 (0x4A4 + k.1)]).count = raisedCount s.dev (0x4A4 + k.1))

/-- R294, R295: the input budget. R291, R296: the source comparators and fast halving. A raise is stated for a collector that runs, from the end of
INIT on (R430). Where a command lets time pass, it is stated for a state in which no launch comes before its instant (`calm`). The time at which a
timed command finds the clocks is the model's choice (log entry 2). Readings and choices of the model: log entries 20, 28. -/
def Obligations.InputCurrent : Prop :=
  (∀ s, calm .budgetUpdate s.dev = true → s.dev.bus.st ≠ .beforeRun → anyAdmitted s.dev = false →
    ∃ t, exec .budgetUpdate s = .next t ∧ t.dev.clk.up = nextOf (10 * us) s.dev.clk.taken[1] s.dev.clk.up ∧ t.dev.bus.b = 0 ∧ t.dev.bus.p = 0 ∧
      ∀ q : Quad, t.dev.isl.fifo[xIndex (.toQd q)] = s.dev.isl.fifo[xIndex (.toQd q)] ++ (quadChans q).map fun c => .budget c 0) ∧
  (∀ s, calm .budgetUpdate s.dev = true → s.dev.bus.st ≠ .beforeRun → anyAdmitted s.dev = true →
    ∃ t, exec .budgetUpdate s = .next t ∧ t.dev.bus.b = budgetB s.dev ∧ t.dev.bus.p = budgetB s.dev * s.dev.bus.vSys * etaChg s.dev ∧
      t.dev.chans = s.dev.chans ∧
      ∀ q : Quad, t.dev.isl.fifo[xIndex (.toQd q)] = s.dev.isl.fifo[xIndex (.toQd q)] ++
        (quadChans q).map fun c => .budget c (if shares s.dev c then shareK s.dev t.dev.bus.p * shareA s.dev c else 0)) ∧
  (∀ d : Device, anyAdmitted d = true →
    budgetB d ≤ d.bus.b + minQ ((allSrcs.filter fun k => decide ((d.srcs[k]).st = .admitted)).map (gDidt d)) * 10) ∧
  (∀ (k : Src) s, (s.dev.srcs[k]).st.live = true → (s.dev.srcs[k]).halveHit = false →
    ∃ t, exec (.sourceComparatorAbove k) s = .next t ∧ (t.dev.srcs[k]).isOver = true ∧ (t.dev.srcs[k]).isRev = false ∧
      (t.dev.srcs[k]).halveHit = true ∧ t.dev.bus.halving = true ∧ t.dev.bus.aboveEndAt = none ∧ (t.dev.quads[k]).halved = true ∧
      (∀ q : Quad, q ≠ k → t.dev.isl.fifo[xIndex (.between k q)] = s.dev.isl.fifo[xIndex (.between k q)] ++ [.halve]) ∧
      (colRuns s.dev = true → s.dev.bus.halving = true → s.dev.bus.halveRaised = true →
        (t.dev.faults[Fin.ofNat 2048 (0x4A8 + k.1)]).count = raisedCount s.dev (0x4A8 + k.1))) ∧
  (∀ (k q : Quad) rest s, s.dev.isl.fifo[xIndex (.between k q)] = .halve :: rest → s.dev.bus.halving = true →
    ∃ t, exec (.crossingMessage (.between k q)) s = .next t ∧ (t.dev.quads[q]).halved = true ∧ t.dev.isl.fifo[xIndex (.between k q)] = rest ∧
      ∀ c : Chan, Chan.quad c = q → (t.dev.chans[c]).halve = true) ∧
  (∀ (k : Src) s, ∃ t, exec (.sourceComparatorBelow k) s = .next t ∧ (t.dev.srcs[k]).isOver = false ∧ (t.dev.srcs[k]).isRev = true ∧
      (t.dev.srcs[k]).g = 0 ∧ (t.dev.srcs[k]).st = (s.dev.srcs[k]).st ∧
      (t.dev.srcs[k]).revCnt = (if (s.dev.srcs[k]).g > 0 then satInc (s.dev.srcs[k]).revCnt else (s.dev.srcs[k]).revCnt)) ∧
  (∀ (k : Src) s, ∃ t, exec (.sourceComparatorBetween k) s = .next t ∧ (t.dev.srcs[k]).isOver = false ∧ (t.dev.srcs[k]).isRev = false ∧
      (t.dev.srcs[k]).g = (s.dev.srcs[k]).g ∧ (t.dev.srcs[k]).st = (s.dev.srcs[k]).st) ∧
  (∀ (k : Src) s, s.dev.bus.halving = true → s.dev.bus.aboveEndAt = none → (∀ j : Src, j ≠ k → (s.dev.srcs[j]).isOver = false) →
    ∃ t, exec (.sourceComparatorBetween k) s = .next t ∧ t.dev.bus.halving = true ∧ t.dev.bus.aboveEndAt = some s.dev.clk.up) ∧
  (∀ u s, calm .halvingRelease s.dev = true → s.dev.bus.halving = true → s.dev.bus.aboveEndAt = some u →
    ∃ t, exec .halvingRelease s = .next t ∧ t.dev.clk.up = max s.dev.clk.up (u + halveHold s.dev) ∧ t.dev.bus.halving = false ∧
      t.dev.bus.aboveEndAt = none ∧ (∀ q : Quad, (t.dev.quads[q]).halved = false) ∧ (∀ k : Src, (t.dev.srcs[k]).halveHit = false) ∧
      t.dev.chans = s.dev.chans) ∧
  (∀ s, calm .halvingSustained s.dev = true → colRuns s.dev = true → s.dev.bus.halving = true → s.dev.bus.halveRaised = false →
    ∃ t, exec .halvingSustained s = .next t ∧ t.dev.clk.up = max s.dev.clk.up (s.dev.bus.halveAt + 100 * ms) ∧ t.dev.bus.halveRaised = true ∧
      ∀ k : Src, (t.dev.faults[Fin.ofNat 2048 (0x4A8 + k.1)]).count =
        (if (s.dev.srcs[k]).halveHit then raisedCount s.dev (0x4A8 + k.1)
         else (s.dev.faults[Fin.ofNat 2048 (0x4A8 + k.1)]).count))

/-- R335, R353: a corrected result and its word. R232, R327, R334, R353, R457, R459, R472: stream results. A raise is stated for a collector that
runs, from the end of INIT on (R430). Where a command lets time pass, it is stated for a state in which no launch comes before its instant (`calm`).
The time at which a timed command finds the clocks is the model's choice (log entry 2). A command whose event cannot occur in the present state
leaves the device as it is: the model's reading (log entry 9). Readings and choices of the model: log entries 22, 90. -/
def Obligations.Results : Prop :=
  (∀ d m (raw : Int), calibrated d m = false → -8388608 ≤ raw → raw ≤ 8388607 → correct d m raw = (raw, false)) ∧
  (∀ d m (raw : Int), calibrated d m = true →
    (correct d m raw).1 = satCode (qRound (((raw : Qty) - (calOfs d m : Qty) / 256) * (calGain d m : Qty) / 2 ^ 30))) ∧
  (∀ d m (raw : Int), -8388608 ≤ (correct d m raw).1 ∧ (correct d m raw).1 ≤ 8388607) ∧
  (∀ d m (input : Nat) (code : Int) ovr halt tap w, -8388608 ≤ code → code ≤ 8388607 →
    w = (resultWord d m input code ovr halt tap).toNat →
    signedOf (bitsOf w 0 24) 24 = code ∧ bitOf w 24 = ovr ∧ bitOf w 25 = halt ∧ bitOf w 26 = !calibrated d m ∧
    bitOf w 27 = (d.mods[m]).acting.isSome ∧ bitOf w 28 = (halt && bitOf (haltFlagsIn d (Pm.quad m)).toNat 0) ∧
    bitOf w 29 = againstB d input ∧ bitOf w 30 = tap ∧ bitOf w 31 = covered d m) ∧
  (∀ d, againstB d 1 = false ∧ againstB d 2 = true ∧ ∀ input, input ≠ 1 → input ≠ 2 → againstB d input = d.hk.refOnB) ∧
  (∀ (m : Pm) raw ovr s, calm (.streamResult m raw ovr) s.dev = true →
    clkRuns s.dev (Pm.quad m) = false → ∃ t, exec (.streamResult m raw ovr) s = .next t ∧ t.dev = drive s.dev) ∧
  (∀ (m : Pm) raw ovr s, calm (.streamResult m raw ovr) s.dev = true →
    streamRole s.dev m = true → clkRuns s.dev (Pm.quad m) = true → s.dev.start.st = .run → (s.dev.mods[m]).failed = false →
    s.dev.hk.changing = true →
    ∃ t, exec (.streamResult m raw ovr) s = .next t ∧ t.dev.clk.up = max s.dev.clk.up (nextResult s.dev m) ∧
      (t.dev.mods[m]).resAt = some t.dev.clk.up ∧ (t.dev.mods[m]).streamOk = false ∧ (t.dev.mods[m]).word = (s.dev.mods[m]).word ∧
      t.dev.chans = s.dev.chans ∧ t.dev.paths = s.dev.paths) ∧
  (∀ (m : Pm) (raw : BitVec 24) ovr s, calm (.streamResult m raw ovr) s.dev = true →
    streamRole s.dev m = true → clkRuns s.dev (Pm.quad m) = true → s.dev.start.st = .run →
    (s.dev.mods[m]).failed = false → s.dev.hk.changing = false → (s.dev.mods[m]).streamAt + streamSettle ≤ s.dev.clk.up →
    ∃ t, exec (.streamResult m raw ovr) s = .next t ∧ (t.dev.mods[m]).resAt = some t.dev.clk.up ∧
      (t.dev.mods[m]).code = (correct s.dev m raw.toInt).1 ∧
      (t.dev.mods[m]).word = resultWord (waitUp (nextResult s.dev m) s.dev) m 0 (correct s.dev m raw.toInt).1 (ovr || (correct s.dev m raw.toInt).2) false false ∧
      (t.dev.mods[m]).wordAt = some t.dev.clk.up ∧
      (roleEff s.dev m = 1 → (t.dev.chans[roleChan s.dev m]).v = codeV s.dev m (correct s.dev m raw.toInt).1) ∧
      (roleEff s.dev m = 2 → (t.dev.chans[roleChan s.dev m]).i = codeA s.dev m (correct s.dev m raw.toInt).1) ∧
      (roleEff s.dev m = 3 → (t.dev.srcs[Pm.quad m]).v = codeV s.dev m (correct s.dev m raw.toInt).1) ∧
      (roleEff s.dev m = 4 → (t.dev.srcs[Pm.quad m]).i = codeA s.dev m (correct s.dev m raw.toInt).1) ∧
      (roleEff s.dev m = 5 → (t.dev.quads[Pm.quad m]).sysVal = codeV s.dev m (correct s.dev m raw.toInt).1 ∧
        (t.dev.quads[Pm.quad m]).sysAt = some t.dev.clk.up ∧ (hkWaits s.dev (Pm.quad m) = false →
          (t.dev.quads[Pm.quad m]).hkVal = codeV s.dev m (correct s.dev m raw.toInt).1 ∧ (t.dev.quads[Pm.quad m]).hkAt = some t.dev.clk.up))) ∧
  (∀ (m : Pm) (c : Chan) raw ovr s, calm (.streamResult m raw ovr) s.dev = true →
    streamRole s.dev m = true → clkRuns s.dev (Pm.quad m) = true → s.dev.start.st = .run →
    (s.dev.mods[m]).failed = false → s.dev.hk.changing = false → (s.dev.mods[m]).streamAt + streamSettle ≤ s.dev.clk.up → roleEff s.dev m = 2 →
    c = roleChan s.dev m → (s.dev.mods[m]).same < 255 → (s.dev.chans[c]).vSeen = true →
    (effSev s.dev (0x360 + c.1)).holds = false → (s.dev.paths[c]).st ≠ .tripped → s.dev.bus.st = .sourced → anyAdmitted s.dev = true →
    (s.dev.chans[c]).st = .held → (s.dev.chans[c]).holders = [] → (s.dev.paths[c]).st ≠ .absent →
    ∃ t, exec (.streamResult m raw ovr) s = .next t ∧ ((t.dev.paths[c]).st = .tripped ∨ (t.dev.chans[c]).st = .off ∧ (t.dev.chans[c]).restart = true)) ∧
  (∀ (m : Pm) (c : Chan) raw ovr s, calm (.streamResult m raw ovr) s.dev = true →
    streamRole s.dev m = true → clkRuns s.dev (Pm.quad m) = true → s.dev.start.st = .run →
    (s.dev.mods[m]).failed = false → s.dev.hk.changing = false → (s.dev.mods[m]).streamAt + streamSettle ≤ s.dev.clk.up → roleEff s.dev m = 2 →
    c = roleChan s.dev m → (s.dev.mods[m]).same < 255 → (s.dev.chans[c]).vSeen = true →
    (effSev s.dev (0x360 + c.1)).holds = false → (s.dev.paths[c]).st ≠ .tripped → s.dev.bus.st = .sourced → anyAdmitted s.dev = true →
    (s.dev.chans[c]).st = .absent → (s.dev.paths[c]).st.present = true →
    ∃ t, exec (.streamResult m raw ovr) s = .next t ∧ ((t.dev.paths[c]).st = .tripped ∨ (t.dev.chans[c]).st = .off ∧ (t.dev.chans[c]).restart = true)) ∧
  (∀ (m : Pm) (c : Chan) raw ovr s, calm (.streamResult m raw ovr) s.dev = true →
    streamRole s.dev m = true → clkRuns s.dev (Pm.quad m) = true → s.dev.start.st = .run →
    (s.dev.mods[m]).failed = false → s.dev.hk.changing = false → (s.dev.mods[m]).streamAt + streamSettle ≤ s.dev.clk.up → roleEff s.dev m = 2 →
    c = roleChan s.dev m → (s.dev.mods[m]).same < 255 → (s.dev.chans[c]).vSeen = true →
    (effSev s.dev (0x360 + c.1)).holds = false → (s.dev.paths[c]).st ≠ .tripped → s.dev.bus.st = .sourced → anyAdmitted s.dev = true →
    ((s.dev.chans[c]).st = .start ∨ (s.dev.chans[c]).st = .regulate) → (s.dev.chans[c]).hostStopQ = false → (s.dev.chans[c]).reloadReq = true →
    ∃ t, exec (.streamResult m raw ovr) s = .next t ∧ ((t.dev.paths[c]).st = .tripped ∨ (t.dev.chans[c]).st = .stop ∧ (t.dev.chans[c]).stopCause = 4)) ∧
  (∀ (m : Pm) raw ovr s, calm (.streamResult m raw ovr) s.dev = true →
    streamRole s.dev m = true → clkRuns s.dev (Pm.quad m) = true → s.dev.start.st = .run → (s.dev.mods[m]).failed = true →
    s.dev.hk.changing = false → (s.dev.mods[m]).streamAt + streamSettle ≤ s.dev.clk.up → (s.dev.mods[m]).degraded = true →
    roleEff s.dev m = 2 → (s.dev.chans[roleChan s.dev m]).gate = true →
    ∃ t, exec (.streamResult m raw ovr) s = .next t ∧ (t.dev.chans[roleChan s.dev m]).i = (s.dev.chans[roleChan s.dev m]).icmd ∧
      bitOf (t.dev.mods[m]).word.toNat 31 = true) ∧
  (∀ (m : Pm) s, colRuns s.dev = true → (s.dev.mods[m]).failed = false →
    ∃ t, exec (.modulatorStreamFault m) s = .next t ∧ (t.dev.mods[m]).failed = true ∧
      (t.dev.faults[Fin.ofNat 2048 (0x520 + m.1)]).count = raisedCount s.dev (0x520 + m.1)) ∧
  (∀ (m : Pm) s, (s.dev.mods[m]).failed = true → ∃ t, exec (.modulatorStreamFault m) s = .next t ∧ (t.dev.mods[m]).streamOk = false ∧
    t.dev.faults = s.dev.faults ∧ (∀ k : Pm, k ≠ m → t.dev.mods[k] = s.dev.mods[k]) ∧ onlyParts [.mods] s.dev t.dev)

/-- R357 to R360: the end of a calibration step. R334, R350, R358, R398: a conversion's result goes to its requester. Where a command lets time
pass, it is stated for a state in which no launch comes before its instant (`calm`). The time at which a timed command finds the clocks is the
model's choice (log entry 2). A command whose event cannot occur in the present state leaves the device as it is: the model's reading (log entry 9).
Readings and choices of the model: log entries 20, 30. -/
def Obligations.ConversionsAndCalibration : Prop :=
  (∀ s, s.dev.cal.n < 64 → ∃ t, exec .calStepDone s = .next t ∧ t.dev = drive s.dev) ∧
  (∀ s, 64 ≤ s.dev.cal.n → s.dev.cal.step = 2 →
    ∃ t, exec .calStepDone s = .next t ∧ t.dev.cal.step = 3 ∧ t.dev.cal.held = some (Fin.ofNat 88 s.dev.cal.mod.toNat, s.dev.cal.sum * 4) ∧
      t.dev.sup.alert = s.dev.sup.alert ∧ t.dev.sup.alertDrive = s.dev.sup.alertDrive ∧ t.dev.memory = s.dev.memory) ∧
  (∀ (m : Pm) z s, 64 ≤ s.dev.cal.n → s.dev.cal.step = 4 → s.dev.cal.held = some (m, z) → s.dev.cal.sum * 4 = z →
    ∃ t, exec .calStepDone s = .next t ∧ t.dev.cal.step = 6 ∧ t.dev.cal.reason = 0x12 ∧ t.dev.memory = s.dev.memory) ∧
  (∀ (m : Pm) z g s, s.dev.memory.conf.wf = true → 64 ≤ s.dev.cal.n → s.dev.cal.step = 4 → s.dev.cal.held = some (m, z) → s.dev.cal.sum * 4 ≠ z →
    g = qRound ((s.dev.cal.applied : Qty) / ((s.dev.cal.sum * 4 - z : Int) : Qty) * 2 ^ 30) → coefOk z g = true →
    ∃ t, exec .calStepDone s = .next t ∧ t.dev.cal.step = 5 ∧ t.dev.cal.reason = 0 ∧ t.dev.cal.held = none ∧ t.dev.cal.pending = true ∧
      (toWaits s.dev (Pm.quad (Fin.ofNat 88 s.dev.cal.mod.toNat)) = false →
        (∀ k : Fin 4, mget t.dev.memory.conf (calb (Fin.ofNat 88 s.dev.cal.mod.toNat) + 4 + k.1) = (leBytes 4 g.toNat)[k.1]!) ∧
        calKind t.dev (Fin.ofNat 88 s.dev.cal.mod.toNat) = 1) ∧
      (toWaits s.dev (Pm.quad (Fin.ofNat 88 s.dev.cal.mod.toNat)) = true →
        t.dev.memory.conf = s.dev.memory.conf ∧
        t.dev.isl.fifo[xIndex (.toQd (Pm.quad (Fin.ofNat 88 s.dev.cal.mod.toNat)))] =
          s.dev.isl.fifo[xIndex (.toQd (Pm.quad (Fin.ofNat 88 s.dev.cal.mod.toNat)))] ++ [.words (some (Fin.ofNat 88 s.dev.cal.mod.toNat))])) ∧
  (∀ (m : Pm) raw ovr s, calm (.conversionDone m raw ovr) s.dev = true →
    (s.dev.mods[m]).conv = none → ∃ t, exec (.conversionDone m raw ovr) s = .next t ∧ t.dev = drive s.dev) ∧
  (∀ (m : Pm) v raw ovr s, calm (.conversionDone m raw ovr) s.dev = true →
    (s.dev.mods[m]).conv = some v → (s.dev.hk.changing = true ∨ (v.req = 1 ∧ v.halt = true)) →
    ∃ t, exec (.conversionDone m raw ovr) s = .next t ∧ t.dev = drive s.dev) ∧
  (∀ (m : Pm) v j (raw : BitVec 24) ovr u s, calm (.conversionDone m raw ovr) s.dev = true →
    (s.dev.mods[m]).conv = some v → v.req = 7 → isTap s.dev m v = false → s.dev.hk.changing = false →
    (s.dev.mods[m]).injHost = some j → u = convDue s.dev m v → hkWaits s.dev (Pm.quad m) = false →
    ∃ t, exec (.conversionDone m raw ovr) s = .next t ∧
      t.dev.clk.up = max s.dev.clk.up u ∧ (t.dev.mods[m]).conv = none ∧
      (t.dev.mods[m]).injHost = none ∧ (t.dev.mods[m]).injRun = false ∧
      (t.dev.mods[m]).inj = resultWord s.dev m v.input (correct s.dev m raw.toInt).1 ((correct s.dev m raw.toInt).2 || ovr)
        (inQuiet (waitUp u s.dev) m 7) false ∧
      t.dev.hk = s.dev.hk ∧ t.dev.cal = s.dev.cal ∧ t.dev.seqs = s.dev.seqs ∧ ∀ k : Pm, k ≠ m → t.dev.mods[k] = s.dev.mods[k]) ∧
  (∀ (m : Pm) v j raw ovr s, calm (.conversionDone m raw ovr) s.dev = true →
    (s.dev.mods[m]).conv = some v → v.req = 7 → isTap s.dev m v = true → s.dev.hk.changing = false →
    (s.dev.mods[m]).injHost = some j → 2 ^ min 11 v.osr ≤ (s.dev.mods[m]).tapN → hkWaits s.dev (Pm.quad m) = false →
    ∃ t, exec (.conversionDone m raw ovr) s = .next t ∧ t.dev.clk.up = s.dev.clk.up ∧ (t.dev.mods[m]).conv = none ∧ (t.dev.mods[m]).injHost = none ∧
      (t.dev.mods[m]).inj = resultWord s.dev m v.input
        (satCode (qRound (qdiv ((s.dev.mods[m]).tapSum : Qty) ((s.dev.mods[m]).tapN : Qty)))) (s.dev.mods[m]).tapOvr false true ∧
      t.dev.hk = s.dev.hk ∧ t.dev.cal = s.dev.cal ∧ t.dev.seqs = s.dev.seqs ∧ ∀ k : Pm, k ≠ m → t.dev.mods[k] = s.dev.mods[k]) ∧
  (∀ (m : Pm) v (raw : BitVec 24) ovr s, calm (.conversionDone m raw ovr) s.dev = true →
    (s.dev.mods[m]).conv = some v → v.req = 1 → v.halt = false → s.dev.hk.changing = false →
    roundMod s.dev (Pm.quad m) = some m → s.dev.hk.stray[Pm.quad m] = false → hkWaits s.dev (Pm.quad m) = false →
    ∃ t, exec (.conversionDone m raw ovr) s = .next t ∧ (t.dev.mods[m]).conv = none ∧ t.dev.hk.pos[Pm.quad m] = s.dev.hk.pos[Pm.quad m] + 1 ∧
      t.dev.hk.raws[Pm.quad m] = s.dev.hk.raws[Pm.quad m] ++ [some (correct s.dev m raw.toInt).1] ∧ t.dev.chans = s.dev.chans ∧
      t.dev.cal = s.dev.cal ∧ t.dev.seqs = s.dev.seqs ∧ (t.dev.mods[m]).inj = (s.dev.mods[m]).inj ∧ ∀ k : Pm, k ≠ m → t.dev.mods[k] = s.dev.mods[k]) ∧
  (∀ (m : Pm) v (raw : BitVec 24) ovr s, calm (.conversionDone m raw ovr) s.dev = true →
    (s.dev.mods[m]).conv = some v → v.req = 9 → s.dev.hk.changing = false → hkWaits s.dev (Pm.quad m) = false →
    ∃ t, exec (.conversionDone m raw ovr) s = .next t ∧ t.dev.cal.sum = s.dev.cal.sum + raw.toInt ∧ t.dev.cal.n = s.dev.cal.n + 1 ∧
      t.dev.cal.step = s.dev.cal.step ∧ t.dev.hk = s.dev.hk ∧ t.dev.seqs = s.dev.seqs ∧ (t.dev.mods[m]).inj = (s.dev.mods[m]).inj ∧
      ∀ k : Pm, k ≠ m → t.dev.mods[k] = s.dev.mods[k]) ∧
  (∀ (m : Pm) v (raw : BitVec 24) ovr s, calm (.conversionDone m raw ovr) s.dev = true →
    (s.dev.mods[m]).conv = some v → (v.req = 1 → v.halt = false) → isTap s.dev m v = false → s.dev.hk.changing = false →
    hkWaits s.dev (Pm.quad m) = true →
    ∃ t, exec (.conversionDone m raw ovr) s = .next t ∧ t.dev.clk.up = max s.dev.clk.up (convDue s.dev m v) ∧ (t.dev.mods[m]).conv = none ∧
      (t.dev.mods[m]).inj = (s.dev.mods[m]).inj ∧ (t.dev.mods[m]).injHost = (s.dev.mods[m]).injHost ∧ t.dev.hk = s.dev.hk ∧ t.dev.cal = s.dev.cal ∧ t.dev.seqs = s.dev.seqs ∧ (∀ k : Pm, k ≠ m → t.dev.mods[k] = s.dev.mods[k]) ∧
      ∃ w x, t.dev.isl.fifo[xIndex (.toHk (Pm.quad m))] =
        s.dev.isl.fifo[xIndex (.toHk (Pm.quad m))] ++ [.result m v raw.toInt (correct s.dev m raw.toInt).1 w x]) ∧
  (∀ (q : Quad) (m : Pm) v j raw code w x rest s, s.dev.isl.fifo[xIndex (.toHk q)] = .result m v raw code w x :: rest → v.req = 7 →
    (s.dev.mods[m]).conv = none → 7 ∈ (s.dev.arbs[mport m]).granted → (s.dev.mods[m]).injHost = some j →
    ∃ t, exec (.crossingMessage (.toHk q)) s = .next t ∧ (t.dev.mods[m]).inj = w ∧ (t.dev.mods[m]).injHost = none ∧
      t.dev.isl.fifo[xIndex (.toHk q)] = rest ∧ t.dev.hk = s.dev.hk ∧ t.dev.cal = s.dev.cal ∧ t.dev.seqs = s.dev.seqs ∧ ∀ k : Pm, k ≠ m → t.dev.mods[k] = s.dev.mods[k]) ∧
  (∀ (m : Pm) v (raw : BitVec 24) ovr s, calm (.conversionDone m raw ovr) s.dev = true →
    (s.dev.mods[m]).conv = some v → isTap s.dev m v = true → (s.dev.mods[m]).tapN < 2 ^ min 11 v.osr →
    ∃ t, exec (.conversionDone m raw ovr) s = .next t ∧ t.dev = drive s.dev)

/-- R343, R346: the sequencer tables. Where a command lets time pass, it is stated for a state in which no launch comes before its instant (`calm`).
The time at which a timed command finds the clocks is the model's choice (log entry 2). A command whose event cannot occur in the present state
leaves the device as it is: the model's reading (log entry 9). -/
def Obligations.SequencerTables : Prop :=
  (∀ (t0 : Table) s, calm (.sequencerDelayExpiry t0) s.dev = true →
    (s.dev.seqs[t0]).running = false → ∃ t, exec (.sequencerDelayExpiry t0) s = .next t ∧ t.dev = drive s.dev) ∧
  (∀ (t0 : Table) w (m : Pm) s, calm (.sequencerDelayExpiry t0) s.dev = true →
    (s.dev.seqs[t0]).running = true → (s.dev.seqs[t0]).waiting = false → (s.dev.seqs[t0]).waitHalt = false →
    w = sqWord0 s.dev t0 (s.dev.seqs[t0]).entry → sqEnabled w = true → sqHl w = false → m.1 = sqMod w → (s.dev.quads[Pm.quad m]).armed = true →
    tooLong s.dev m (sqOsr w) = false → (s.dev.mods[m]).injHost = none → (s.dev.mods[m]).injNewt = none →
    ∃ t, exec (.sequencerDelayExpiry t0) s = .next t ∧
      t.dev.clk.up = max s.dev.clk.up ((s.dev.seqs[t0]).delayFrom + bitsOf (sqWord1 s.dev t0 (s.dev.seqs[t0]).entry) 0 20 * (10 * us)) ∧
      (t.dev.seqs[t0]).waiting = true ∧ (t.dev.seqs[t0]).entry = (s.dev.seqs[t0]).entry ∧
      (t.dev.arbs[mport m]).pending.any (fun r => r.1 = 2 + t0.1) = true) ∧
  (∀ (t0 : Table) w (m : Pm) s, calm (.sequencerDelayExpiry t0) s.dev = true →
    (s.dev.seqs[t0]).running = true → (s.dev.seqs[t0]).waiting = false → (s.dev.seqs[t0]).waitHalt = false →
    w = sqWord0 s.dev t0 (s.dev.seqs[t0]).entry → sqEnabled w = true → sqHl w = false → m.1 = sqMod w →
    ((s.dev.quads[Pm.quad m]).armed = false ∨ tooLong s.dev m (sqOsr w) = true) →
    ∃ t, exec (.sequencerDelayExpiry t0) s = .next t ∧ (t.dev.seqs[t0]).skipped = satInc (s.dev.seqs[t0]).skipped ∧
      (sqEnabled (sqWord0 s.dev t0 (Fin.ofNat 64 ((s.dev.seqs[t0]).entry.1 + 1))) = true →
        (t.dev.seqs[t0]).entry = Fin.ofNat 64 ((s.dev.seqs[t0]).entry.1 + 1)) ∧
      (sqEnabled (sqWord0 s.dev t0 (Fin.ofNat 64 ((s.dev.seqs[t0]).entry.1 + 1))) = false →
        sqEnabled (sqWord0 s.dev t0 (Fin.ofNat 64 ((s.dev.seqs[t0]).entry.1 + 2))) = true →
        (t.dev.seqs[t0]).entry = Fin.ofNat 64 ((s.dev.seqs[t0]).entry.1 + 2)) ∧
      (t.dev.seqs[t0]).waiting = false ∧ t.dev.mods = s.dev.mods) ∧
  (∀ (t0 : Table) w (m : Pm) s, calm (.sequencerDelayExpiry t0) s.dev = true →
    (s.dev.seqs[t0]).running = true → (s.dev.seqs[t0]).waiting = false → (s.dev.seqs[t0]).waitHalt = false →
    w = sqWord0 s.dev t0 (s.dev.seqs[t0]).entry → sqEnabled w = true → sqHl w = true → m.1 = sqMod w →
    ∃ t, exec (.sequencerDelayExpiry t0) s = .next t ∧ (t.dev.seqs[t0]).waitHalt = true ∧ (t.dev.seqs[t0]).booked = hlBook t.dev ∧
      (t.dev.mods[m]).hlQueue = (s.dev.mods[m]).hlQueue ++ [(t0, (s.dev.seqs[t0]).entry.1)])

/-- R338 to R341: the snapshot of a halt. R202 to R204: the readback of thresholds. Where a command lets time pass, it is stated for a state in
which no launch comes before its instant (`calm`). The time at which a timed command finds the clocks is the model's choice (log entry 2). A command
whose event cannot occur in the present state leaves the device as it is: the model's reading (log entry 9). -/
def Obligations.HaltMeasurements : Prop :=
  (∀ raws s, calm (.snapshotDone raws) s.dev = true → s.dev.halt.phase ≠ .quiet → ∃ t, exec (.snapshotDone raws) s = .next t ∧ t.dev = drive s.dev) ∧
  (∀ (raws : Vector (BitVec 24) 88) h s, calm (.snapshotDone raws) s.dev = true →
    s.dev.halt.cur = some h → s.dev.halt.phase = .quiet → s.dev.halt.converted = true →
    s.dev.halt.snapped = false → s.dev.hk.changing = false → s.dev.hk.changedAt = none →
    ∃ t, exec (.snapshotDone raws) s = .next t ∧ t.dev.halt.snapped = true ∧ t.dev.halt.phase = .quiet ∧
      t.dev.clk.loc = max s.dev.clk.loc (h.start * tick + settle h.qlen + convTicks (snapK s.dev h.qlen) * tick + outDelay) ∧
      ∀ m : Pm, (t.dev.mods[m]).snapHalt = (if clkRuns s.dev (Pm.quad m) then s.dev.halt.last else (s.dev.mods[m]).snapHalt) ∧
        (clkRuns s.dev (Pm.quad m) = true →
          (t.dev.mods[m]).snap = resultWord s.dev m (snapInput s.dev m) (correct s.dev m (raws[m]).toInt).1
            ((correct s.dev m (raws[m]).toInt).2 || decide ((raws[m]).toInt = 8388607 ∨ (raws[m]).toInt = -8388608)) true false)) ∧
  (∀ raws h s, calm (.snapshotDone raws) s.dev = true →
    s.dev.halt.cur = some h → s.dev.halt.phase = .quiet → s.dev.halt.converted = true → s.dev.halt.snapped = false →
    s.dev.hk.changing = true →
    ∃ t, exec (.snapshotDone raws) s = .next t ∧ t.dev.halt.snapped = true ∧
      ∀ m : Pm, (t.dev.mods[m]).snap = (s.dev.mods[m]).snap ∧ (t.dev.mods[m]).snapHalt = (s.dev.mods[m]).snapHalt) ∧
  (∀ (q : Quad) raw idle high s, calm (.readbackTestDone q raw idle high) s.dev = true →
    hkswOf s.dev q = none → ∃ t, exec (.readbackTestDone q raw idle high) s = .next t ∧ t.dev = drive s.dev) ∧
  (∀ (q : Quad) (m : Pm) raw idle high s, calm (.readbackTestDone q raw idle high) s.dev = true →
    hkswOf s.dev q = some m → readbackOpen s.dev m = false →
    ∃ t, exec (.readbackTestDone q raw idle high) s = .next t ∧ t.dev = drive s.dev) ∧
  (∀ (q : Quad) (m : Pm) (raw : BitVec 24) idle high (n : Slot) x s, calm (.readbackTestDone q raw idle high) s.dev = true →
    hkswOf s.dev q = some m → (s.dev.mods[m]).failed = false →
    readbackOpen s.dev m = true → s.dev.hk.changing = false →
    (s.dev.quads[q]).rbBusy = true → s.dev.halt.phase = .quiet → (s.dev.quads[q]).rbGen / 2 < 34 → n.1 = 34 * q.1 + (s.dev.quads[q]).rbGen / 2 →
    x = (3 / 2 + ((correct s.dev m raw.toInt).1 : Qty) * (5 / 2) / 8388608 - (if (s.dev.quads[q]).rbOdd then 768 else 256) * 3 / 1024) * 1024 / 3 →
    ∃ t, exec (.readbackTestDone q raw idle high) s = .next t ∧
      t.dev.clk.up = max s.dev.clk.up ((s.dev.mods[m]).convAt + convSpan s.dev m 1 3) ∧
      (t.dev.slots[n]).thrErr = ((s.dev.slots[n]).thrErr || decide (x > 4 ∨ x < -4)) ∧
      (t.dev.slots[n]).cmpErr = ((s.dev.slots[n]).cmpErr || (decide (idle ≠ .between) || decide (high ≠ .above))) ∧
      (t.dev.quads[q]).rbGen = (s.dev.quads[q]).rbGen + 1)

/-- R381, R382, R391, R393: the thermal models. A command whose event cannot occur in the present state leaves the device as it is: the model's
reading (log entry 9). Readings and choices of the model: log entries 8, 36, 145. -/
def Obligations.ThermalModels : Prop :=
  (∀ s, modelsRun s.dev = false → ∃ t, exec .thermalUpdate s = .next t ∧ ∀ m : Model,
    (t.dev.therm[m]).tj = (s.dev.therm[m]).tj ∧ (t.dev.therm[m]).th0 = (s.dev.therm[m]).th0 ∧ (t.dev.therm[m]).trip = (s.dev.therm[m]).trip) ∧
  (∀ (m : Model) p s, modelsRun s.dev = true → s.dev.col.fiMode ≠ 3 → modelInUse s.dev m = true → clFed s.dev (tmCl s.dev m) = false →
    p = ((forEach allQuads drainHk s.dev).therm[m]).frameE * 1000 →
    ∃ t, exec .thermalUpdate s = .next t ∧
      (t.dev.therm[m]).th0 = stageStep (frRth s.dev m 0) (frTau s.dev m 0) p (s.dev.therm[m]).th0 ∧
      (t.dev.therm[m]).th1 = stageStep (frRth s.dev m 1) (frTau s.dev m 1) p (s.dev.therm[m]).th1 ∧
      (t.dev.therm[m]).th2 = stageStep (frRth s.dev m 2) (frTau s.dev m 2) p (s.dev.therm[m]).th2 ∧
      (t.dev.therm[m]).th3 = stageStep (frRth s.dev m 3) (frTau s.dev m 3) p (s.dev.therm[m]).th3 ∧
      (t.dev.therm[m]).tj = tCool s.dev (tmCl s.dev m) + (t.dev.therm[m]).th0 + (t.dev.therm[m]).th1 + (t.dev.therm[m]).th2 + (t.dev.therm[m]).th3 ∧
      (t.dev.therm[m]).kth = kthOf (t.dev.therm[m]).tj (tDr s.dev m) (tTrip s.dev m) (drMin s.dev m) ∧
      (tDr s.dev m < (t.dev.therm[m]).tj → (t.dev.therm[m]).derate = true ∧ (t.dev.faults[Fin.ofNat 2048 (0x240 + m.1)]).active = true) ∧
      (tTrip s.dev m ≤ (t.dev.therm[m]).tj → (t.dev.therm[m]).trip = true ∧ (t.dev.faults[Fin.ofNat 2048 (tripSource m.1)]).active = true) ∧
      (t.dev.arbs[wport]).pending.any (fun r => r.1 = 9) = true) ∧
  (∀ (q : Quad) s, modelsRun s.dev = true → ∃ t, exec .thermalUpdate s = .next t ∧
    ∃ l, t.dev.isl.fifo[xIndex (.toQd q)] = s.dev.isl.fifo[xIndex (.toQd q)] ++
      .tj ((quadModels q).map fun m => ((t.dev.therm[m]).tj, (t.dev.therm[m]).kth)) :: l) ∧
  (∀ (q : Quad) v rest s, s.dev.isl.fifo[xIndex (.toQd q)] = .tj v :: rest → ∃ t, exec (.tjArrival q) s = .next t ∧
    t.dev.isl.fifo[xIndex (.toQd q)] = rest ∧ t.dev.slots = s.dev.slots ∧
    ∀ (k : Nat) (m : Model) x, (quadModels q)[k]? = some m → v[k]? = some x → (t.dev.therm[m]).tjRx = x.1 ∧ (t.dev.therm[m]).kthQ = x.2) ∧
  (∀ (q : Quad) s, s.dev.isl.fifo[xIndex (.toQd q)].any isTj = false → ∃ t, exec (.tjArrival q) s = .next t ∧ t.dev = drive s.dev) ∧
  (∀ tj tdr ttrip mn : Qty, tj ≤ tdr → kthOf tj tdr ttrip mn = 1) ∧
  (∀ tj tdr ttrip mn : Qty, tdr < ttrip → ttrip ≤ tj → kthOf tj tdr ttrip mn = mn) ∧
  (∀ tj tdr ttrip mn : Qty, tdr < tj → tj < ttrip → mn ≤ 1 → mn ≤ kthOf tj tdr ttrip mn ∧ kthOf tj tdr ttrip mn ≤ 1)

/-- R398, R408, R409: the housekeeping round. A raise is stated for a collector that runs, from the end of INIT on (R430). Where a command lets time
pass, it is stated for a state in which no launch comes before its instant (`calm`). A command whose event cannot occur in the present state leaves
the device as it is: the model's reading (log entry 9). Readings and choices of the model: log entries 7, 32, 145. -/
def Obligations.HousekeepingRound : Prop :=
  (∀ s, calm .hkRoundStart s.dev = true → modelsRun s.dev = false → ∃ t, exec .hkRoundStart s = .next t ∧ t.dev = drive s.dev) ∧
  (∀ s, calm .hkRoundStart s.dev = true → modelsRun s.dev = true →
    ∃ t, exec .hkRoundStart s = .next t ∧ t.dev.clk.loc = periodAt sec s.dev.hk.roundAt s.dev ∧ t.dev.hk.roundAt = some t.dev.clk.loc ∧
      t.dev.hk.late = (if allQuads.any fun q => decide (s.dev.hk.pos[q] < 15) then satInc8 s.dev.hk.late else s.dev.hk.late) ∧
      ∀ (q : Quad), t.dev.hk.raws[q] = [] ∧
        ∀ m : Pm, roundMod s.dev q = some m → clkRuns s.dev q = true →
          t.dev.hk.pos[q] = 0 ∧ t.dev.hk.stray[q] = roundRuns s.dev m ∧
          ((s.dev.mods[m]).conv.map (·.req) ≠ some 1 → (t.dev.arbs[mport m]).pending.any (fun r => r.1 = 1) = true)) ∧
  (∀ (q : Quad) s, s.dev.hk.pos[q] < 15 → ∃ t, exec .hkRoundComplete s = .next t ∧ t.dev = drive s.dev) ∧
  (∀ (c : Chan) r s, (∀ q : Quad, s.dev.hk.pos[q] = 15) → (∀ q : Quad, (s.dev.hk.raws[q]).length = 15) →
    roundRaw s.dev (Chan.quad c) (6 + c.1 % 8) = some r →
    ∃ t, exec .hkRoundComplete s = .next t ∧ t.dev.hk.fbV[c.1] = levelOf r ∧
      (t.dev.paths[c]).fbHi = (decide (s.dev.hk.fbG[c.1] = 0) && decide (gateV (s.dev.cf (ptb c + 12) 0 10) < levelOf r)) ∧
      (t.dev.paths[c]).fbSag = (decide (s.dev.hk.fbG[c.1] = pgFull s.dev c) && decide (0 < s.dev.hk.fbG[c.1]) &&
        decide (levelOf r < gateV (s.dev.cf (ptb c + 12) 0 10)))) ∧
  (∀ (j : Fin 8) r s, s.dev.col.fiMode ≠ 3 → colRuns s.dev = true → (∀ q : Quad, s.dev.hk.pos[q] = 15) → (∀ q : Quad, (s.dev.hk.raws[q]).length = 15) →
    roundRaw s.dev (Fin.ofNat 4 (j.1 / 2)) (4 + j.1 % 2) = some r →
    ∃ t, exec .hkRoundComplete s = .next t ∧ (∀ q : Quad, t.dev.hk.raws[q] = []) ∧ t.dev.hk.railV[j.1] = Config.railVolt j.1 r ∧
      ((Config.railVolt j.1 r < (railWindow j.1).1 ∨ (railWindow j.1).2 < Config.railVolt j.1 r) → 1 ≤ s.dev.hk.railBadRun[j.1] →
        bitOf t.dev.hk.railErr.toNat j.1 = true ∧ (t.dev.faults[Fin.ofNat 2048 (0x5A8 + j.1)]).active = true) ∧
      -2000 ≤ t.dev.hk.trimANext ∧ t.dev.hk.trimANext ≤ 2000 ∧ -2000 ≤ t.dev.hk.trimBNext ∧ t.dev.hk.trimBNext ≤ 2000)

/-- R405 to R407: the references, and the change to the second one. R464, R465: a lost oscillator. A raise is stated for a collector that runs, from
the end of INIT on (R430). Where a command lets time pass, it is stated for a state in which no launch comes before its instant (`calm`). The time
at which a timed command finds the clocks is the model's choice (log entry 2). A command whose event cannot occur in the present state leaves the
device as it is: the model's reading (log entry 9). -/
def Obligations.ReferencesAndClocks : Prop :=
  (∀ s, colRuns s.dev = true → s.dev.col.fiMode ≠ 3 → s.dev.hk.refbBad = false → s.dev.hk.refOnB = false →
    ∃ t, exec (.referenceImplausible false) s = .next t ∧ t.dev.hk.refaBad = true ∧ t.dev.hk.changing = true ∧
      t.dev.hk.changeAt = some s.dev.clk.loc ∧ (t.dev.faults[Fin.ofNat 2048 0x598]).active = true) ∧
  (∀ s, colRuns s.dev = true → s.dev.col.fiMode ≠ 3 → s.dev.hk.refaBad = true →
    ∃ t, exec (.referenceImplausible true) s = .next t ∧ t.dev.hk.refbBad = true ∧ t.dev.hk.changing = s.dev.hk.changing ∧
      (t.dev.faults[Fin.ofNat 2048 0x599]).active = true ∧ (t.dev.faults[Fin.ofNat 2048 0x59A]).active = true) ∧
  (∀ b s, s.dev.col.fiMode ≠ 3 → (s.dev.faults[Fin.ofNat 2048 (if b then 0x599 else 0x598)]).rpath = false →
    ∃ t, exec (.referencePlausible b) s = .next t ∧ (t.dev.faults[Fin.ofNat 2048 (if b then 0x599 else 0x598)]).active = false ∧
      t.dev.hk.refbBad = (if b then false else s.dev.hk.refbBad) ∧ t.dev.hk.refaBad = (if b then s.dev.hk.refaBad else false) ∧
      t.dev.hk.refOnB = s.dev.hk.refOnB) ∧
  (∀ u s, calm .referenceChangeLaunch s.dev = true → s.dev.hk.changeAt = some u →
    ∃ t, exec .referenceChangeLaunch s = .next t ∧ t.dev.clk.loc = max s.dev.clk.loc ((u + us + ms - 1) / ms * ms) ∧ t.dev.hk.refOnB = true ∧
      t.dev.hk.changing = false ∧ t.dev.hk.changeAt = none ∧ t.dev.hk.changedAt = some t.dev.clk.up ∧
      t.dev.hk.trimB = satInt (s.dev.hk.trimB + qRound (s.dev.hk.heldOffset * 4000000)) (-2000) 2000 ∧
      ∀ m : Pm, (t.dev.mods[m]).conv = none ∧ (t.dev.mods[m]).streamOk = false ∧ (t.dev.mods[m]).streamAt = t.dev.clk.up) ∧
  (∀ s, calm .referenceChangeLaunch s.dev = true → s.dev.hk.changeAt = none → ∃ t, exec .referenceChangeLaunch s = .next t ∧ t.dev = drive s.dev) ∧
  (∀ (i : Island) s, colRuns s.dev = true → s.dev.col.fiMode ≠ 3 → bitOf s.dev.hk.oscLost.toNat (2 * i.1) = false → bitOf s.dev.hk.oscLost.toNat (2 * i.1 + 1) = false →
    ∃ t, exec (.oscillatorLost i 0) s = .next t ∧ bitOf t.dev.hk.oscLost.toNat (2 * i.1) = true ∧ bitOf t.dev.hk.oscOn1.toNat i.1 = true ∧
      (t.dev.faults[Fin.ofNat 2048 (0x5C0 + 2 * i.1)]).active = true ∧
      (t.dev.faults[Fin.ofNat 2048 (0x5D0 + i.1)]).active = (s.dev.faults[Fin.ofNat 2048 (0x5D0 + i.1)]).active) ∧
  (∀ (i : Island) s, colRuns s.dev = true → s.dev.col.fiMode ≠ 3 → bitOf s.dev.hk.oscLost.toNat (2 * i.1) = true → bitOf s.dev.hk.oscLost.toNat (2 * i.1 + 1) = false →
    ∃ t, exec (.oscillatorLost i 1) s = .next t ∧ bitOf t.dev.hk.oscLost.toNat (2 * i.1 + 1) = true ∧
      (t.dev.faults[Fin.ofNat 2048 (0x5D0 + i.1)]).active = true) ∧
  (∀ (i : Island) (o : Fin 2) s, bitOf s.dev.hk.oscLost.toNat (2 * i.1 + o.1) = true →
    ∃ t, exec (.oscillatorLost i o) s = .next t ∧ t.dev = drive s.dev)

/-- R413, R414, R417 to R420, R432, R437: what raising a source does. R415: a source whose reporting path has failed. A raise is stated for a
collector that runs, from the end of INIT on (R430). A command whose event cannot occur in the present state leaves the device as it is: the model's
reading (log entry 9). Readings and choices of the model: log entries 34, 147, 164. -/
def Obligations.FaultSources : Prop :=
  (∀ (f : Fsrc) s, ((s.dev.faults[f]).active = true ∨ scopeOf f.1 = none ∨ colRuns s.dev = false) →
    ∃ t, exec (.faultRaise f) s = .next t ∧ t.dev = drive (busEval s.dev)) ∧
  (∀ (f : Fsrc) sc s, colRuns s.dev = true → (s.dev.faults[f]).active = false → scopeOf f.1 = some sc → busSettled (faultRaise f s.dev) = true →
    ∃ t, exec (.faultRaise f) s = .next t ∧ (t.dev.faults[f]).count = satInc (s.dev.faults[f]).count ∧
      (t.dev.faults[f]).hold = ((s.dev.faults[f]).hold || (effSev s.dev f.1).holds) ∧ (t.dev.faults[f]).active = false ∧
      (t.dev.faults[f]).quietAt = some s.dev.clk.loc ∧
      (∀ g : Fsrc, g ≠ f → t.dev.faults[g] = s.dev.faults[g]) ∧
      ((s.dev.faults[f]).secOf = s.dev.clk.loc / sec → (s.dev.faults[f]).secN < 8 → s.dev.col.logQ.length < 32 →
        t.dev.col.logQ.length = s.dev.col.logQ.length + 1 ∧ (t.dev.faults[f]).secN = (s.dev.faults[f]).secN + 1) ∧
      ((s.dev.faults[f]).secOf = s.dev.clk.loc / sec → 8 ≤ (s.dev.faults[f]).secN →
        t.dev.col.logQ = s.dev.col.logQ ∧ (t.dev.faults[f]).secMore = (s.dev.faults[f]).secMore + 1) ∧
      ((s.dev.faults[f]).secOf ≠ s.dev.clk.loc / sec → (s.dev.faults[f]).secMore = 0 → s.dev.col.logQ.length < 32 →
        t.dev.col.logQ.length = s.dev.col.logQ.length + 1 ∧ (t.dev.faults[f]).secN = 1 ∧ (t.dev.faults[f]).secOf = s.dev.clk.loc / sec)) ∧
  (∀ (f : Fsrc) sc s, (s.dev.faults[f]).active = false → scopeOf f.1 = some sc → effSev s.dev f.1 = .log → busSettled (faultRaise f s.dev) = true →
    ∃ t, exec (.faultRaise f) s = .next t ∧ t.dev.chans = s.dev.chans ∧ t.dev.slots = s.dev.slots ∧ t.dev.paths = s.dev.paths ∧
      t.dev.srcs = s.dev.srcs ∧ t.dev.profs = s.dev.profs ∧ t.dev.start = s.dev.start) ∧
  (∀ (f : Fsrc) (c : Chan) s, s.dev.start.st = .run → (s.dev.faults[f]).active = false → scopeOf f.1 = some (.channel c) →
    effSev s.dev f.1 = .channel → (s.dev.chans[c]).armed = true → (s.dev.chans[c]).st ≠ .held → (s.dev.chans[c]).st ≠ .unarmed →
    busSettled (faultRaise f s.dev) = true →
    ∃ t, exec (.faultRaise f) s = .next t ∧ (t.dev.chans[c]).st = .held ∧ (t.dev.chans[c]).gate = false ∧ f.1 ∈ (t.dev.chans[c]).holders ∧
      (∀ k : Chan, k ≠ c → t.dev.chans[k] = s.dev.chans[k]) ∧ t.dev.srcs = s.dev.srcs) ∧
  (∀ (f : Fsrc) (c : Chan) s, s.dev.start.st = .run → (s.dev.faults[f]).active = false → scopeOf f.1 = some (.path c) →
    effSev s.dev f.1 = .channel → (s.dev.paths[c]).st = .full →
    ∃ t, exec (.faultRaise f) s = .next t ∧ (t.dev.paths[c]).st = .norise ∧ (t.dev.paths[c]).g = 0 ∧ f.1 ∈ (t.dev.paths[c]).holders ∧
      t.dev.pins.pgate[c] = false) ∧
  (∀ (f : Fsrc) s, s.dev.start.st = .run → (s.dev.faults[f]).active = false → scopeOf f.1 = some .device → effSev s.dev f.1 = .device →
    ∃ t, exec (.faultRaise f) s = .next t ∧ f.1 ∈ t.dev.col.devHolders ∧ t.dev.pins.fltP = true ∧ t.dev.pins.fltN = false ∧
      t.dev.pins.alive = false ∧ (∀ c : Chan, (s.dev.chans[c]).armed = true → (s.dev.chans[c]).st ≠ .held → (s.dev.chans[c]).st ≠ .unarmed →
        (t.dev.chans[c]).st = .held ∧ (t.dev.chans[c]).gate = false ∧ f.1 ∈ (t.dev.chans[c]).holders)) ∧
  (∀ (f : Fsrc) lv sc s, colRuns s.dev = true → scopeOf f.1 = some sc → (s.dev.faults[f]).rpath = false → s.dev.col.logQ.length < 31 →
    busSettled (rpathFault f lv s.dev) = true →
    ∃ t, exec (.rpathFault f lv) s = .next t ∧ (t.dev.faults[f]).rpath = true ∧ (t.dev.faults[f]).active = true ∧
      ((s.dev.faults[f]).active = true →
        (t.dev.faults[f]).count = (s.dev.faults[f]).count ∧ t.dev.col.logQ.length = s.dev.col.logQ.length + 1) ∧
      ((s.dev.faults[f]).active = false → (t.dev.faults[f]).count = satInc (s.dev.faults[f]).count ∧
        ((s.dev.faults[f]).secOf = s.dev.clk.loc / sec → (s.dev.faults[f]).secN < 8 → t.dev.col.logQ.length = s.dev.col.logQ.length + 2))) ∧
  (∀ (f : Fsrc) lv s, ((s.dev.faults[f]).rpath = true ∨ colRuns s.dev = false) → ∃ t, exec (.rpathFault f lv) s = .next t ∧ t.dev = drive (busEval s.dev)) ∧
  (∀ (f : Fsrc) lv sc s, s.dev.start.st = .run → scopeOf f.1 = some sc → (s.dev.faults[f]).rpath = false → baseSev s.dev f.1 = .device →
    ∃ t, exec (.rpathFault f lv) s = .next t ∧ f.1 ∈ t.dev.col.latchHolders ∧ (t.dev.faults[f]).latched = true ∧ t.dev.pins.alive = false) ∧
  (∀ (f : Fsrc) s, (s.dev.faults[f]).rpath = true → s.dev.col.logQ.length < 32 →
    ∃ t, exec (.rpathRestored f) s = .next t ∧ (t.dev.faults[f]).rpath = false ∧ (t.dev.faults[f]).active = (s.dev.faults[f]).level ∧
      t.dev.col.logQ.length = s.dev.col.logQ.length + 1 ∧ t.dev.chans = s.dev.chans) ∧
  (∀ (f : Fsrc) s, (s.dev.faults[f]).rpath = false → ∃ t, exec (.rpathRestored f) s = .next t ∧ t.dev = drive s.dev)

/-- R424 to R428: recovery and promotion. Where a command lets time pass, it is stated for a state in which no launch comes before its instant
(`calm`). The time at which a timed command finds the clocks is the model's choice (log entry 2). A command whose event cannot occur in the present
state leaves the device as it is: the model's reading (log entry 9). -/
def Obligations.Recovery : Prop :=
  (∀ (f : Fsrc) u s, calm (.recoveryGrant f) s.dev = true →
    (s.dev.faults[f]).quietAt = some u → (s.dev.faults[f]).hold = true → (s.dev.faults[f]).latched = false →
    (s.dev.faults[f]).promoted = false → (s.dev.faults[f]).active = false → effSev s.dev f.1 ≠ .breaker → (s.dev.faults[f]).winAt = none →
    ∃ t, exec (.recoveryGrant f) s = .next t ∧ t.dev.clk.loc = max s.dev.clk.loc (u + frQuiet s.dev (fsProf s.dev f)) ∧
      (t.dev.faults[f]).hold = false ∧ (t.dev.faults[f]).recov = satInc (s.dev.faults[f]).recov ∧ (t.dev.faults[f]).win = 1 ∧
      (t.dev.faults[f]).winAt = some t.dev.clk.loc ∧ (∀ c : Chan, f.1 ∉ (t.dev.chans[c]).holders) ∧
      ∀ c : Chan, (s.dev.chans[c]).holders = [f.1] → (t.dev.chans[c]).holders = [] ∧ (t.dev.chans[c]).st = (s.dev.chans[c]).st) ∧
  (∀ (f : Fsrc) u w s, calm (.recoveryGrant f) s.dev = true →
    (s.dev.faults[f]).quietAt = some u → (s.dev.faults[f]).hold = true → (s.dev.faults[f]).latched = false →
    (s.dev.faults[f]).promoted = false → (s.dev.faults[f]).active = false → effSev s.dev f.1 ≠ .breaker → (s.dev.faults[f]).winAt = some w →
    max s.dev.clk.loc (u + frQuiet s.dev (fsProf s.dev f)) < w + frWin s.dev (fsProf s.dev f) →
    frMax s.dev (fsProf s.dev f) ≤ (s.dev.faults[f]).win.toNat →
    ∃ t, exec (.recoveryGrant f) s = .next t ∧ (t.dev.faults[f]).promoted = true ∧ (t.dev.faults[f]).latched = true ∧
      (t.dev.faults[f]).hold = true ∧ (t.dev.faults[f]).recov = (s.dev.faults[f]).recov ∧ t.dev.chans = s.dev.chans) ∧
  (∀ (f : Fsrc) s, calm (.recoveryGrant f) s.dev = true →
    ((s.dev.faults[f]).quietAt = none ∨ (s.dev.faults[f]).hold = false ∨ (s.dev.faults[f]).latched = true ∨
      (s.dev.faults[f]).promoted = true ∨ (s.dev.faults[f]).active = true ∨ effSev s.dev f.1 = .breaker) →
    ∃ t, exec (.recoveryGrant f) s = .next t ∧ t.dev = drive s.dev) ∧
  (∀ (f : Fsrc) w s, calm (.promotionWindowEnd f) s.dev = true → (s.dev.faults[f]).winAt = some w →
    ∃ t, exec (.promotionWindowEnd f) s = .next t ∧ t.dev.clk.loc = max s.dev.clk.loc (w + frWin s.dev (fsProf s.dev f)) ∧
      (t.dev.faults[f]).win = 0 ∧ (t.dev.faults[f]).winAt = none ∧ (t.dev.faults[f]).hold = (s.dev.faults[f]).hold ∧
      (t.dev.faults[f]).recov = (s.dev.faults[f]).recov)

/-- R437 to R441: the event log, the capture buffers, the end of a rail injection; a ring writer without a grant writes nothing. A raise is stated
for a collector that runs, from the end of INIT on (R430). Where a command lets time pass, it is stated for a state in which no launch comes before
its instant (`calm`). The time at which a timed command finds the clocks is the model's choice (log entry 2). A command whose event cannot occur in
the present state leaves the device as it is: the model's reading (log entry 9). Readings and choices of the model: log entries 16, 127, 164. -/
def Obligations.LogAndCaptures : Prop :=
  (∀ bs rest s, 2 ∈ (s.dev.arbs[wport]).granted → s.dev.col.logQ = bs :: rest → bs.length = 32 → s.dev.memory.mem.wf = true →
    s.dev.col.fiRsN = 0 →
    ∃ t, exec .logRecordWrite s = .next t ∧ t.dev.col.logQ = rest ∧ t.dev.col.logWr = s.dev.col.logWr + 1 ∧ t.dev.col.logSeq = s.dev.col.logSeq + 1 ∧
      t.dev.col.logRd = (if 4096 ≤ fill16 s.dev.col.logWr s.dev.col.logRd then s.dev.col.logRd + 1 else s.dev.col.logRd) ∧
      t.dev.col.logOvw = (if 4096 ≤ fill16 s.dev.col.logWr s.dev.col.logRd then satInc s.dev.col.logOvw else s.dev.col.logOvw) ∧
      (∀ k < 32, mget t.dev.memory.mem (0x80000 + 32 * (s.dev.col.logWr.toNat % 4096) + k) =
        (leBytes 4 s.dev.col.logSeq.toNat ++ bs.drop 4).getD k 0) ∧
      ∀ a, (a < 0x80000 + 32 * (s.dev.col.logWr.toNat % 4096) ∨ 0x80000 + 32 * (s.dev.col.logWr.toNat % 4096) + 32 ≤ a) →
        mget t.dev.memory.mem a = mget s.dev.memory.mem a) ∧
  (∀ s, 2 ∉ (s.dev.arbs[wport]).granted → ∃ t, exec .logRecordWrite s = .next t ∧ t.dev = drive s.dev) ∧
  (∀ s, calm .logSecondEnd s.dev = true → ∃ t, exec .logSecondEnd s = .next t ∧
    t.dev.clk.loc = (if secOwed s.dev then s.dev.clk.loc else periodAt sec s.dev.col.secDone s.dev) ∧
    (∀ f : Fsrc, (t.dev.faults[f]).secOf = t.dev.clk.loc / sec ∧ (t.dev.faults[f]).count = (s.dev.faults[f]).count ∧
      (t.dev.faults[f]).hold = (s.dev.faults[f]).hold ∧
      ((s.dev.faults[f]).secOf ≠ t.dev.clk.loc / sec → (t.dev.faults[f]).secN = 0 ∧ (t.dev.faults[f]).secMore = 0)) ∧
    ((∀ f : Fsrc, (s.dev.faults[f]).secMore = 0) → t.dev.col.logQ = s.dev.col.logQ)) ∧
  (∀ (b : Fin 16) c s, calm (.captureBufferComplete b) s.dev = true →
    s.dev.col.caps.find? (fun c => decide (c.buf = b.1)) = some c → s.dev.memory.mem.wf = true →
    ∃ t, exec (.captureBufferComplete b) s = .next t ∧ t.dev.clk.loc = max s.dev.clk.loc (c.time * tick + 958 * stepSub) ∧
      bitOf t.dev.col.capFull.toNat b.1 = true ∧ bitOf t.dev.col.capBusy.toNat b.1 = false ∧ (∀ x ∈ t.dev.col.caps, x.buf ≠ b.1) ∧
      ((s.dev.arbs[wport]).granted = [] → (∀ r ∈ (s.dev.arbs[wport]).pending, r.1 = 3) →
        t.dev.col.capQ = s.dev.col.capQ.filter (fun w => decide (w.1 < 0xA0000 + 16384 * b.1 ∨ 0xA0000 + 16384 * b.1 + 16384 ≤ w.1))) ∧
      (∀ k < 32, mget t.dev.memory.mem (0xA0000 + 16384 * b.1 + k) = (capHeader c).getD k 0) ∧
      ∀ j, c.samples.length / 2 ≤ j → j < (c.pre + 959) / 2 → ∀ k < 32, mget t.dev.memory.mem ((capWord c j).1 + k) = (capWord c j).2.getD k 0) ∧
  (∀ (f : Fsrc) sc s, colRuns s.dev = true → (s.dev.faults[f]).active = false → scopeOf f.1 = some sc → wantsCap s.dev f.1 (effSev s.dev f.1) = true →
    s.dev.col.capBusy = 0 → s.dev.col.capFull = 0 → busSettled (faultRaise f s.dev) = true →
    ∃ t, exec (.faultRaise f) s = .next t ∧ t.dev.col.capBusy = 1 ∧ t.dev.col.caps.length = s.dev.col.caps.length + 1) ∧
  (∀ (f : Fsrc) sc s, colRuns s.dev = true → (s.dev.faults[f]).active = false → scopeOf f.1 = some sc → wantsCap s.dev f.1 (effSev s.dev f.1) = true →
    s.dev.col.capBusy ||| s.dev.col.capFull = 0xFFFF → busSettled (faultRaise f s.dev) = true →
    ∃ t, exec (.faultRaise f) s = .next t ∧ t.dev.col.capMissed = satInc s.dev.col.capMissed ∧ t.dev.col.caps = s.dev.col.caps) ∧
  (∀ s, calm .fiDurationExpiry s.dev = true → s.dev.col.fiMode ≠ 0 →
    ∃ t, exec .fiDurationExpiry s = .next t ∧ t.dev.clk.up = max s.dev.clk.up (s.dev.col.fiAt + s.dev.col.fiMs.toNat * ms) ∧
      t.dev.col.fiMode = 0 ∧ (t.dev.faults[Fin.ofNat 2048 s.dev.col.fiFsrc.toNat]).inj = false ∧
      (s.dev.col.fiMode = 3 → colRuns s.dev = true → scopeOf (Fin.ofNat 2048 s.dev.col.fiFsrc.toNat).1 ≠ none →
        (s.dev.faults[Fin.ofNat 2048 s.dev.col.fiFsrc.toNat]).rpath = false →
        (t.dev.faults[Fin.ofNat 2048 s.dev.col.fiFsrc.toNat]).active = (s.dev.faults[Fin.ofNat 2048 s.dev.col.fiFsrc.toNat]).level)) ∧
  (∀ s, calm .fiDurationExpiry s.dev = true → s.dev.col.fiMode = 0 → ∃ t, exec .fiDurationExpiry s = .next t ∧ t.dev = drive (busEval s.dev)) ∧
  (∀ (w : Table) s, 4 + w.1 ∉ (s.dev.arbs[wport]).granted → ∃ t, exec (.ringRecordWrite w) s = .next t ∧ t.dev = drive s.dev)

/-- R370: a record meets a ring that is full, under either mode; and a record meets a ring with room. -/
def Obligations.RecordRings : Prop :=
  (∀ (w : Table) (r : Ring) bs rest s, 4 + w.1 ∈ (s.dev.arbs[wport]).granted → s.dev.writers[w] = (r, bs) :: rest →
    fill16 (s.dev.rings[r]).wr (s.dev.rings[r]).rd < 256 → s.dev.memory.mem.wf = true →
    ∃ t, exec (.ringRecordWrite w) s = .next t ∧ t.dev.writers[w] = rest ∧ (t.dev.rings[r]).wr = (s.dev.rings[r]).wr + 1 ∧
      (t.dev.rings[r]).rd = (s.dev.rings[r]).rd ∧ (t.dev.rings[r]).ovf = (s.dev.rings[r]).ovf ∧
      (∀ k < bs.length, mget t.dev.memory.mem (ringBase r + 32 * ((s.dev.rings[r]).wr.toNat % 256) + k) = bs.getD k 0) ∧
      (∀ a, (a < ringBase r + 32 * ((s.dev.rings[r]).wr.toNat % 256) ∨ ringBase r + 32 * ((s.dev.rings[r]).wr.toNat % 256) + bs.length ≤ a) →
        mget t.dev.memory.mem a = mget s.dev.memory.mem a) ∧
      ∀ j : Ring, j ≠ r → t.dev.rings[j] = s.dev.rings[j]) ∧
  (∀ (w : Table) (r : Ring) bs rest s, 4 + w.1 ∈ (s.dev.arbs[wport]).granted → s.dev.writers[w] = (r, bs) :: rest →
    256 ≤ fill16 (s.dev.rings[r]).wr (s.dev.rings[r]).rd → rgDrop s.dev r = true →
    ∃ t, exec (.ringRecordWrite w) s = .next t ∧ t.dev.writers[w] = rest ∧ (t.dev.rings[r]).ovf = satInc (s.dev.rings[r]).ovf ∧
      (t.dev.rings[r]).wr = (s.dev.rings[r]).wr ∧ (t.dev.rings[r]).rd = (s.dev.rings[r]).rd ∧ t.dev.memory = s.dev.memory ∧
      ∀ j : Ring, j ≠ r → t.dev.rings[j] = s.dev.rings[j]) ∧
  (∀ (w : Table) (r : Ring) bs rest s, 4 + w.1 ∈ (s.dev.arbs[wport]).granted → s.dev.writers[w] = (r, bs) :: rest →
    256 ≤ fill16 (s.dev.rings[r]).wr (s.dev.rings[r]).rd → rgDrop s.dev r = false → s.dev.memory.mem.wf = true →
    ∃ t, exec (.ringRecordWrite w) s = .next t ∧ t.dev.writers[w] = rest ∧ (t.dev.rings[r]).ovf = satInc (s.dev.rings[r]).ovf ∧
      (t.dev.rings[r]).wr = (s.dev.rings[r]).wr + 1 ∧ (t.dev.rings[r]).rd = (s.dev.rings[r]).rd + 1 ∧
      (∀ k < bs.length, mget t.dev.memory.mem (ringBase r + 32 * ((s.dev.rings[r]).wr.toNat % 256) + k) = bs.getD k 0) ∧
      (∀ a, (a < ringBase r + 32 * ((s.dev.rings[r]).wr.toNat % 256) ∨ ringBase r + 32 * ((s.dev.rings[r]).wr.toNat % 256) + bs.length ≤ a) →
        mget t.dev.memory.mem a = mget s.dev.memory.mem a) ∧
      ∀ j : Ring, j ≠ r → t.dev.rings[j] = s.dev.rings[j])

/-- R466 to R470: the scrubber and the remapping of rows. Where a command lets time pass, it is stated for a state in which no launch comes before
its instant (`calm`). The time at which a timed command finds the clocks is the model's choice (log entry 2). A command whose event cannot occur in
the present state leaves the device as it is: the model's reading (log entry 9). Readings and choices of the model: log entries 64, 65, 146. -/
def Obligations.Scrubber : Prop :=
  (∀ n s, calm (.scrubStep n) s.dev = true →
    (s.dev.start.st = .reset ∨ s.dev.start.st = .init) → ∃ t, exec (.scrubStep n) s = .next t ∧ t.dev = drive s.dev) ∧
  (∀ s, calm (.scrubStep 0) s.dev = true → s.dev.start.st = .run → cwErrs s.dev s.dev.memory.scrubAt.1 = (0, 0) →
    ∃ t, exec (.scrubStep 0) s = .next t ∧ t.dev.clk.up = nextOf scrubTime s.dev.clk.taken[5] s.dev.clk.up ∧
      t.dev.memory.scrubAt = s.dev.memory.scrubAt + 1 ∧ t.dev.memory.mem = s.dev.memory.mem ∧ t.dev.memory.ceCnt = s.dev.memory.ceCnt ∧
      t.dev.memory.ueCnt = s.dev.memory.ueCnt ∧ t.dev.faults = s.dev.faults) ∧
  (∀ s, calm (.scrubStep 1) s.dev = true →
    s.dev.start.st = .run → cwErrs s.dev s.dev.memory.scrubAt.1 = (0, 0) → s.dev.memory.scrubAt.1 ∉ s.dev.memory.fixing →
    ∃ t, exec (.scrubStep 1) s = .next t ∧ t.dev.memory.scrubAt = s.dev.memory.scrubAt + 1 ∧ t.dev.memory.mem = s.dev.memory.mem ∧
      t.dev.memory.ceCnt = satInc s.dev.memory.ceCnt ∧ t.dev.memory.ueCnt = s.dev.memory.ueCnt ∧
      s.dev.memory.scrubAt.1 ∈ t.dev.memory.fixing ∧ (t.dev.arbs[wport]).pending.any (fun r => r.1 = 0) = true) ∧
  (∀ n s, calm (.scrubStep n) s.dev = true → s.dev.start.st = .run → 2 ≤ n.1 → cwErrs s.dev s.dev.memory.scrubAt.1 = (0, 0) →
    s.dev.memory.scrubAt.1 ∉ s.dev.memory.raised →
    ∃ t, exec (.scrubStep n) s = .next t ∧ t.dev.memory.ueCnt = satInc s.dev.memory.ueCnt ∧ t.dev.memory.ueValid = true ∧ t.dev.memory.mem = s.dev.memory.mem ∧
      t.dev.memory.ueAddr = BitVec.ofNat 20 (32 * s.dev.memory.scrubAt.1) ∧ t.dev.memory.ceCnt = s.dev.memory.ceCnt ∧
      (t.dev.faults[Fin.ofNat 2048 (ueSource s.dev.memory.scrubAt.1)]).count = raisedCount s.dev (ueSource s.dev.memory.scrubAt.1)) ∧
  (∀ b r sp rest s, s.dev.memory.copying = (b, r, sp) :: rest → 8 ≤ s.dev.memory.copied → (∀ x ∈ s.dev.memory.remap, x.1 ≠ b) →
    s.dev.col.logQ.length < 32 →
    ∃ t, exec .rowRemapDone s = .next t ∧ t.dev.memory.copying = rest ∧ t.dev.memory.copied = 0 ∧
      (∀ k, k / 4096 = b → k % 4096 / 8 = r → rowOf t.dev k = (b, sp)) ∧ t.dev.memory.mem = s.dev.memory.mem ∧
      t.dev.col.logQ.length = s.dev.col.logQ.length + 1) ∧
  (∀ s, s.dev.memory.copied < 8 → ∃ t, exec .rowRemapDone s = .next t ∧ t.dev = drive s.dev) ∧
  (∀ (b : Fin 8) (r : Fin 576) x s, calm (.correctionWindowExpiry b r) s.dev = true →
    s.dev.memory.rowCorr.find? (fun y => y.1 = (b.1, r.1)) = some x →
    ∃ t, exec (.correctionWindowExpiry b r) s = .next t ∧ t.dev.clk.up = max s.dev.clk.up (x.2.2 + day) ∧
      t.dev.memory.rowCorr.find? (fun y => y.1 = (b.1, r.1)) = none ∧ t.dev.memory.mem = s.dev.memory.mem)

/-- R446, R447, R450, R451, R460: substitutions are requested and checked. Where a command lets time pass, it is stated for a state in which no
launch comes before its instant (`calm`). The time at which a timed command finds the clocks is the model's choice (log entry 2). A command whose
event cannot occur in the present state leaves the device as it is: the model's reading (log entry 9). Readings and choices of the model: log
entries 56, 62. -/
def Obligations.Substitutions : Prop :=
  (∀ s, calm .newtRequest s.dev = true → s.dev.halt.next = none → ∃ t, exec .newtRequest s = .next t ∧ t.dev = drive s.dev) ∧
  (∀ h s, calm .newtRequest s.dev = true → s.dev.halt.next = some h → s.dev.start.st = .run →
    ∃ t, exec .newtRequest s = .next t ∧ t.dev.clk.loc = max s.dev.clk.loc (h.start * tick - 5 * ms) ∧
      (∀ c : Chan, (t.dev.arbs[slotArb (Chan.quad c)]).pending.any (fun r => r.1 = c.1 % 8) = eligible s.dev (h.start * tick) c) ∧
      ∀ m : Pm, Pm.pos m < 20 → (t.dev.arbs[modArb (Pm.quad m)]).pending.any (fun r => r.1 = Pm.pos m) = needsSpare s.dev m) ∧
  (∀ s, s.dev.memory.swaps.find? (fun w => w.ovl.isNone) = none → ∃ t, exec .swapCheckDone s = .next t ∧ t.dev = drive s.dev) ∧
  (∀ w s, s.dev.memory.swaps.find? (fun w => w.ovl.isNone) = some w → w.modulator = false → (swapCheck (comingDev s.dev) (comingOvl s.dev) w).reason = 0 →
    ∃ t, exec .swapCheckDone s = .next t ∧ t.dev.slots = s.dev.slots ∧
      t.dev.memory.swaps = s.dev.memory.swaps.map fun y => if y = w then { y with ovl := some (confKey (comingDev s.dev) (comingOvl s.dev)) } else y) ∧
  (∀ w s, s.dev.memory.swaps.find? (fun w => w.ovl.isNone) = some w → w.modulator = false → (swapCheck (comingDev s.dev) (comingOvl s.dev) w).reason ≠ 0 →
    ∃ t, exec .swapCheckDone s = .next t ∧ w ∉ t.dev.memory.swaps ∧
      ∀ n : Slot, (chanOf s.dev n = some (Fin.ofNat 32 w.ch) → (t.dev.slots[n]).newtRefused = true) ∧
        (t.dev.slots[n]).repl = (s.dev.slots[n]).repl)

/-- R109 to R111, R471 to R474: a region reload, from its check to its re-arm launch. Where a command lets time pass, it is stated for a state in
which no launch comes before its instant (`calm`). The time at which a timed command finds the clocks is the model's choice (log entry 2). A command
whose event cannot occur in the present state leaves the device as it is: the model's reading (log entry 9). Readings and choices of the model: log
entries 20, 50, 75, 116, 127. -/
def Obligations.RegionReload : Prop :=
  (∀ l r s, s.dev.reload.st = 2 → l = reloadRanges s.dev s.dev.reload.newBase (reloadRegion s.dev) →
    r = reloadCheck s.dev (reloadStruct s.dev) (mergeBase s.dev.loader.base s.dev.reload.newBase l)
      (mergeOvls s.dev.loader.ovls s.dev.reload.newOvls l) (reloadSlots s.dev s.dev.reload.newBase (reloadRegion s.dev)) → r.reason ≠ 0 →
    ∃ t, exec .reloadCheckDone s = .next t ∧ t.dev.reload.st = 6 ∧ t.dev.reload.reason = BitVec.ofNat 8 r.reason ∧ t.dev.reload.newBase = [] ∧
      t.dev.memory.conf = s.dev.memory.conf ∧ t.dev.loader = s.dev.loader ∧ t.dev.chans = s.dev.chans ∧ t.dev.sup.alertDrive = true) ∧
  (∀ l r s, s.dev.reload.st = 2 → l = reloadRanges s.dev s.dev.reload.newBase (reloadRegion s.dev) →
    r = reloadCheck s.dev (reloadStruct s.dev) (mergeBase s.dev.loader.base s.dev.reload.newBase l)
      (mergeOvls s.dev.loader.ovls s.dev.reload.newOvls l) (reloadSlots s.dev s.dev.reload.newBase (reloadRegion s.dev)) → r.reason = 0 →
    ∃ t, exec .reloadCheckDone s = .next t ∧ t.dev.reload.st = 3 ∧ t.dev.reload.newBase = mergeBase s.dev.loader.base s.dev.reload.newBase l ∧
      t.dev.memory.conf = s.dev.memory.conf ∧ t.dev.loader = s.dev.loader ∧
      (∀ c ∈ regionChans (reloadRegion s.dev), (s.dev.chans[c]).armed = true → ((s.dev.chans[c]).st = .start ∨ (s.dev.chans[c]).st = .regulate) →
        (t.dev.chans[c]).reloadReq = (if toWaits s.dev (Chan.quad c) then (s.dev.chans[c]).reloadReq else true) ∧
        (t.dev.chans[c]).st = (s.dev.chans[c]).st ∧ (t.dev.chans[c]).gate = (s.dev.chans[c]).gate) ∧
      (∀ c : Chan, c ∉ regionChans (reloadRegion s.dev) → t.dev.chans[c] = s.dev.chans[c]) ∧
      ∀ q : Quad, t.dev.isl.fifo[xIndex (.toQd q)] = s.dev.isl.fifo[xIndex (.toQd q)] ++ (if toWaits s.dev q then
        ((reloadChans s.dev).filter fun c => decide (Chan.quad c = q)).map fun c => .region (.stop c) else [])) ∧
  (∀ s, s.dev.reload.st ≠ 2 → ∃ t, exec .reloadCheckDone s = .next t ∧ t.dev = drive s.dev) ∧
  (∀ s, s.dev.reload.st = 3 → (regionChans (reloadRegion s.dev)).all (reloadQuiet s.dev) = true →
    ∃ t, exec .reloadStopDone s = .next t ∧ t.dev.reload.st = 4 ∧ (t.dev.arbs[wport]).pending.any (fun r => r.1 = 10) = true ∧
      (s.dev.reload.written = false → s.dev.start.st = .run → (mirrorLeft t.dev).2 = reloadCws s.dev) ∧ t.dev.memory.mem = s.dev.memory.mem) ∧
  (∀ s, (regionChans (reloadRegion s.dev)).all (reloadQuiet s.dev) = false → ∃ t, exec .reloadStopDone s = .next t ∧ t.dev = drive s.dev) ∧
  (∀ s, calm .reloadStopTimeout s.dev = true → s.dev.reload.st = 3 →
    ∃ t, exec .reloadStopTimeout s = .next t ∧ t.dev.clk.up = max s.dev.clk.up (s.dev.reload.checkedAt + 10 * sec) ∧
      ∀ c ∈ regionChans (reloadRegion s.dev), (s.dev.chans[c]).armed = true →
        (toWaits s.dev (Chan.quad c) = true → t.dev.chans[c] = s.dev.chans[c] ∧
          .region (.force c) ∈ t.dev.isl.fifo[xIndex (.toQd (Chan.quad c))]) ∧
        (toWaits s.dev (Chan.quad c) = false →
          ((s.dev.chans[c]).st = .stop ∨ ((s.dev.chans[c]).st.switching = true ∧ (s.dev.chans[c]).reloadReq = true)) →
          (t.dev.chans[c]).st = .off ∧ (t.dev.chans[c]).gate = false)) ∧
  (∀ s, s.dev.reload.st = 4 → s.dev.reload.written = false → s.dev.memOk →
    ∃ t, exec .reloadWriteDone s = .next t ∧ t.dev.reload.written = true ∧ t.dev.reload.rearmAt = msBoundary (s.dev.clk.loc + us) ∧ 10 ∉ ((t.dev.arbs[wport]).pending.map (·.1)) ∧
      t.dev.memory.conf = s.dev.memory.conf ∧ t.dev.loader = s.dev.loader ∧
      ∀ a < 0x40000, mget t.dev.memory.mem a = mget (mirrorOf (reloadBase s.dev) s.dev.reload.newOvls s.dev.mode.active.toNat) a) ∧
  (∀ s, calm .reloadRearmLaunch s.dev = true → s.dev.reload.st = 4 → s.dev.reload.written = true → s.dev.reload.recheck = false →
    (∀ x : Fin 24, s.dev.isl.fifo[x] = []) → (∀ i : Island, s.dev.isl.launches[i] = []) → (∀ q : Quad, s.dev.isl.ahead[q] = false) →
    ∃ t, exec .reloadRearmLaunch s = .next t ∧ t.dev.clk.loc = max s.dev.clk.loc s.dev.reload.rearmAt ∧ t.dev.reload.st = 5 ∧
      t.dev.reload.count = satInc s.dev.reload.count ∧ t.dev.loader.base = reloadBase s.dev ∧ t.dev.loader.ovls = s.dev.reload.newOvls ∧
      t.dev.memory.conf = composeMem (reloadBase s.dev) s.dev.reload.newOvls s.dev.mode.active.toNat ∧ t.dev.reload.reason = s.dev.reload.reason ∧ t.dev.sup.alertDrive = true) ∧
  (∀ s, s.dev.start.st = .run → s.dev.halt.cur = none → s.dev.reload.st = 4 → s.dev.reload.written = true → s.dev.reload.recheck = false →
    (∀ x : Fin 24, s.dev.isl.fifo[x] = []) → (∀ q : Quad, s.dev.isl.launches[quadIsland q] = []) → (∀ q : Quad, s.dev.isl.ahead[q] = false) →
    s.dev.isl.launches[(4 : Island)] = [⟨.config, s.dev.reload.rearmAt⟩] → bitOf s.dev.isl.clkRun.toNat 4 = true →
    ∃ t, exec .reloadRearmLaunch s = .next t ∧ t.dev.clk.loc = max s.dev.clk.loc s.dev.reload.rearmAt ∧ t.dev.reload.st = 5 ∧
      t.dev.isl.launches[(4 : Island)] = [] ∧
      t.dev.reload.count = satInc s.dev.reload.count ∧ t.dev.loader.base = reloadBase s.dev ∧ t.dev.loader.ovls = s.dev.reload.newOvls ∧
      t.dev.memory.conf = composeMem (reloadBase s.dev) s.dev.reload.newOvls s.dev.mode.active.toNat ∧ t.dev.reload.reason = s.dev.reload.reason ∧ t.dev.sup.alertDrive = true) ∧
  (∀ s, calm .reloadRearmLaunch s.dev = true → s.dev.reload.written = false → ∃ t, exec .reloadRearmLaunch s = .next t ∧ t.dev = drive s.dev)

/-- R27 to R29, R33: which request an arbiter grants, and what its status word counts. -/
def Obligations.ArbiterChoice : Prop :=
  (∀ limit units i a, (units ≤ a.granted.length ∨ a.pending = []) → arbDecide limit units i a = a) ∧
  (∀ limit units i a, a.granted.length < units → a.pending ≠ [] →
    ∃ r ∈ a.pending, (arbDecide limit units i a).granted = a.granted ++ [r.1] ∧
      (arbDecide limit units i a).pending = (a.pending.filter fun x => x.1 ≠ r.1).map (fun x => (x.1, min (x.2 + 1) 63)) ∧
      ((∃ x ∈ a.pending, limit ≤ x.2) → limit ≤ r.2 ∧ (∀ x ∈ a.pending, x.2 < r.2 ∨ (x.2 = r.2 ∧ r.1 ≤ x.1)) ∧
        (arbDecide limit units i a).urgent = satInc a.urgent) ∧
      ((∀ x ∈ a.pending, x.2 < limit) → (∀ x ∈ a.pending, arbRank i r.1 < arbRank i x.1 ∨ (arbRank i r.1 = arbRank i x.1 ∧ r.1 ≤ x.1)) ∧
        (arbDecide limit units i a).urgent = a.urgent)) ∧
  (∀ limit units i a, a.granted.length < units → a.pending ≠ [] → (∀ x ∈ a.pending, x.2 ≤ 63) →
    a.maxAge.toNat ≤ (arbDecide limit units i a).maxAge.toNat ∧ (∀ x ∈ a.pending, x.2 ≤ (arbDecide limit units i a).maxAge.toNat) ∧
      (∀ x ∈ (arbDecide limit units i a).pending, x.2 ≤ (arbDecide limit units i a).maxAge.toNat) ∧
      ((arbDecide limit units i a).maxAge = a.maxAge ∨ (∃ x ∈ a.pending, x.2 = (arbDecide limit units i a).maxAge.toNat) ∨
        ∃ x ∈ (arbDecide limit units i a).pending, x.2 = (arbDecide limit units i a).maxAge.toNat)) ∧
  (∀ (i : Fin 99) idx d, (∀ x ∈ (d.arbs[i]).pending, x.2 ≤ 63) → arbWord (arbWithdraw i idx d) i = arbWord d i ∧
    ∀ x ∈ ((arbWithdraw i idx d).arbs[i]).pending, x.1 ≠ idx) ∧
  (∀ (i : Fin 99) idx d, ((arbRequest i idx d).arbs[i]).pending =
    (if (d.arbs[i]).pending.any (fun x => x.1 = idx) then (d.arbs[i]).pending else (d.arbs[i]).pending ++ [(idx, 0)]))

/-- R27 to R33: a decision starts what it grants. A command whose event cannot occur in the present state leaves the device as it is: the model's
reading (log entry 9). Readings and choices of the model: log entry 62. -/
def Obligations.ArbiterGrants : Prop :=
  (∀ (i : Fin 99) s, (s.dev.start.st = .reset ∨ (96 ≤ i.1 ∧ (s.dev.arbs[i]).pending = [])) →
    ∃ t, exec (.arbiterDecision i) s = .next t ∧ t.dev = drive s.dev) ∧
  (∀ (m : Pm) w a s, s.dev.start.st = .run → (s.dev.arbs[mport m]).pending = [(w, a)] → (s.dev.arbs[mport m]).granted = [] →
    (s.dev.mods[m]).hlQueue = [] → mayNot s.dev m w = false →
    ∃ t, exec (.arbiterDecision (mport m)) s = .next t ∧ (t.dev.mods[m]).conv = some (convFor s.dev m w) ∧
      (t.dev.mods[m]).convAt = s.dev.clk.up + (convBegin s.dev m w - convDelay s.dev m w - s.dev.clk.loc) ∧ (t.dev.arbs[mport m]).granted = [w] ∧ (t.dev.arbs[mport m]).pending = []) ∧
  (∀ (m : Pm) w a s, s.dev.start.st = .run → (s.dev.arbs[mport m]).pending = [(w, a)] → (s.dev.mods[m]).hlQueue = [] →
    mayNot s.dev m w = true → ∃ t, exec (.arbiterDecision (mport m)) s = .next t ∧ t.dev = drive s.dev) ∧
  (∀ w a s, s.dev.start.st = .run → (s.dev.arbs[wport]).pending = [(w, a)] → (s.dev.arbs[wport]).granted = [] → w ≠ 0 → w ≠ 1 → w ≠ 3 → w ≠ 9 → w ≠ 10 →
    ∃ t, exec (.arbiterDecision wport) s = .next t ∧ (t.dev.arbs[wport]).granted = [w] ∧ (t.dev.arbs[wport]).pending = [] ∧
      t.dev.memory = s.dev.memory) ∧
  (∀ k rest a s, s.dev.start.st = .run → (s.dev.arbs[wport]).pending = [(0, a)] → (s.dev.arbs[wport]).granted = [] →
    s.dev.memory.fixing = k :: rest → cwWrong s.dev k = 1 →
    ∃ t, exec (.arbiterDecision wport) s = .next t ∧ t.dev.memory.fixing = rest ∧ cwWrong t.dev k = 0 ∧ t.dev.memory.mem = s.dev.memory.mem) ∧
  (∀ w rest a s, s.dev.start.st = .run → (s.dev.arbs[wport]).pending = [(3, a)] → (s.dev.arbs[wport]).granted = [] →
    s.dev.col.capQ = w :: rest → w.2.length = 32 → s.dev.memory.mem.wf = true →
    ∃ t, exec (.arbiterDecision wport) s = .next t ∧ t.dev.col.capQ = rest ∧ (t.dev.arbs[wport]).granted = [] ∧
      ((t.dev.arbs[wport]).pending.any (fun r => r.1 = 3)) = (decide (rest ≠ [])) ∧
      ∀ x, mget t.dev.memory.mem x = if w.1 ≤ x ∧ x < w.1 + 32 then w.2.getD (x - w.1) 0 else mget s.dev.memory.mem x) ∧
  (∀ m rest a s, s.dev.start.st = .run → (s.dev.arbs[wport]).pending = [(9, a)] → (s.dev.arbs[wport]).granted = [] →
    s.dev.memory.modelQ = m :: rest → s.dev.memory.mem.wf = true →
    ∃ t, exec (.arbiterDecision wport) s = .next t ∧ t.dev.memory.modelQ = rest ∧ (t.dev.arbs[wport]).granted = [] ∧
      (∀ k < 32, mget t.dev.memory.mem (0xE0000 + 32 * m + k) = (modelBytes s.dev.therm[Fin.ofNat 172 m]).getD k 0) ∧
      ∀ x, (x < 0xE0000 + 32 * m ∨ 0xE0000 + 32 * m + 32 ≤ x) → mget t.dev.memory.mem x = mget s.dev.memory.mem x) ∧
  (∀ k rest a s, s.dev.start.st = .build → (s.dev.arbs[wport]).pending = [(10, a)] → (s.dev.arbs[wport]).granted = [] →
    (mirrorLeft s.dev).2 = k :: rest → s.dev.memory.mem.wf = true →
    ∃ t, exec (.arbiterDecision wport) s = .next t ∧ t.dev.memory.mirrorAt = s.dev.memory.mirrorAt + 1 ∧ (t.dev.arbs[wport]).granted = [] ∧
      t.dev.memory.conf = s.dev.memory.conf ∧
      (∀ x < 32, mget t.dev.memory.mem (32 * k + x) = (mdump (mirrorLeft s.dev).1 (32 * k) 32).getD x 0) ∧
      ∀ x, (x < 32 * k ∨ 32 * k + 32 ≤ x) → mget t.dev.memory.mem x = mget s.dev.memory.mem x) ∧
  (∀ w a s, s.dev.start.st = .run → (s.dev.arbs[sport]).pending = [(w, a)] → (s.dev.arbs[sport]).granted = [] →
    ∃ t, exec (.arbiterDecision sport) s = .next t ∧ t.dev.sup.poll = some w ∧ t.dev.sup.polling = false ∧ (t.dev.arbs[sport]).granted = [w]) ∧
  (∀ w a s, s.dev.start.st = .run → (s.dev.arbs[bport]).pending = [(w, a)] → (s.dev.arbs[bport]).granted = [] →
    ∃ t, exec (.arbiterDecision bport) s = .next t ∧ t.dev.bootp.started = false ∧ (t.dev.arbs[bport]).granted = [w] ∧
      t.dev.bootp.cur = (if w = 0 then s.dev.bootp.want0 else if w = 1 then s.dev.bootp.want1 else s.dev.bootp.want2).map (fun x => (w, x))) ∧
  (∀ (q : Quad) (c : Chan) h a sp l f l' s, s.dev.start.st = .run → s.dev.halt.next = some h → newtOpen s.dev = true → Chan.quad c = q →
    (s.dev.arbs[slotArb q]).pending = [(c.1 % 8, a)] → (s.dev.arbs[slotArb q]).granted = [] → usableSlots s.dev q = sp :: l →
    replaceable s.dev c (h.start * tick) = f :: l' →
    ∃ t, exec (.arbiterDecision (slotArb q)) s = .next t ∧ t.dev.memory.swaps = s.dev.memory.swaps ++ [⟨false, f.1, sp.1, c.1, none⟩] ∧
      (t.dev.arbs[slotArb q]).granted = [] ∧ (t.dev.arbs[slotArb q]).pending = [] ∧ t.dev.slots = s.dev.slots) ∧
  (∀ (q : Quad) (p : Pm) a sp s, s.dev.start.st = .run → newtOpen s.dev = true → Pm.quad p = q → Pm.pos p < 20 →
    (s.dev.arbs[modArb q]).pending = [(Pm.pos p, a)] → (s.dev.arbs[modArb q]).granted = [] → usableMods s.dev q = [sp] →
    ∃ t, exec (.arbiterDecision (modArb q)) s = .next t ∧ t.dev.memory.swaps = s.dev.memory.swaps ++ [⟨true, p.1, sp.1, 0, none⟩] ∧
      (t.dev.arbs[modArb q]).granted = [] ∧
      ∀ m : Pm, (t.dev.mods[m]).acting = (s.dev.mods[m]).acting ∧ (t.dev.mods[m]).bad = (s.dev.mods[m]).bad) ∧
  (∀ (q : Quad) s, newtOpen s.dev = false → (s.dev.arbs[slotArb q]).granted = [] →
    ∃ t, exec (.arbiterDecision (slotArb q)) s = .next t ∧ t.dev = drive s.dev)

/-- R489 to R491, R499, R501, R517, R520: the block reads. A device whose address is not answered sends nothing. R490, R496, R497, R515, R516:
conditions of the bus, and the Alert Response Address. R507, R508: the ends of an unlock and of a lockout. Where a command lets time pass, it is
stated for a state in which no launch comes before its instant (`calm`). The time at which a timed command finds the clocks is the model's choice
(log entry 2). A command whose event cannot occur in the present state leaves the device as it is: the model's reading (log entry 9). Readings and
choices of the model: log entries 99, 114. -/
def Obligations.ReadsAndBus : Prop :=
  (∀ s, targetUp s.dev = true → s.dev.col.fiPec = false →
    (∃ t, exec (.ident true) s = .next t ∧
      t.dev = drive { s.dev with sup := { s.dev.sup with freeAt := none, serving := false, out := readBytes (blockBytes 0x01 s.dev) (identBytes s.dev), acked := true } }) ∧
    (∃ t, exec (.summary true) s = .next t ∧
      t.dev = drive { s.dev with sup := { s.dev.sup with freeAt := none, serving := false, out := readBytes (blockBytes 0x08 s.dev) (summaryBytes s.dev), acked := true } }) ∧
    (∃ t, exec (.caravanSummary true) s = .next t ∧
      t.dev = drive { s.dev with sup := { s.dev.sup with freeAt := none, serving := false, out := readBytes (blockBytes 0x09 s.dev) (caravanBytes s.dev), acked := true } }) ∧
    (∃ t, exec (.result true) s = .next t ∧
      t.dev = drive { s.dev with sup := { s.dev.sup with freeAt := none, serving := false, out := readBytes (blockBytes 0x0E s.dev) (resultBytes s.dev), acked := true } })) ∧
  (∀ s, targetUp s.dev = true → s.dev.col.fiPec = false → unlocked s.dev = true → s.dev.bootp.nvmOp ≠ 2 → s.dev.bootp.nvmReady = true →
    ∃ t, exec (.nvmData true) s = .next t ∧ t.dev.sup.out = readBytes (blockBytes 0x1B s.dev) (0 :: s.dev.bootp.nvmBuf) ∧
      t.dev.bootp = s.dev.bootp) ∧
  (∀ s, targetUp s.dev = true → s.dev.col.fiPec = false → unlocked s.dev = false →
    ∃ t, exec (.nvmData true) s = .next t ∧ t.dev.sup.out = readBytes (blockBytes 0x1B s.dev) [0x03] ∧
      t.dev.sup.cmdRefused = satInc s.dev.sup.cmdRefused) ∧
  (∀ ackLast s, targetUp s.dev = false →
    ∃ t, exec (.summary ackLast) s = .next t ∧ t.dev = drive { s.dev with sup := { s.dev.sup with out := [], acked := false, freeAt := none, serving := false } }) ∧
  (∀ s, targetUp s.dev = true →
    ∃ t, exec (.summary false) s = .next t ∧
      t.dev = drive { s.dev with sup := { s.dev.sup with freeAt := none, serving := false, out := byteOf (summaryBytes s.dev).length :: summaryBytes s.dev, acked := true } }) ∧
  (∀ s, targetUp s.dev = true → s.dev.col.fiPec = true →
    ∃ t, exec (.summary true) s = .next t ∧ t.dev.col.fiPec = false ∧
      t.dev.sup.out.getLast? = (readBytes (blockBytes 0x08 s.dev) (summaryBytes s.dev)).getLast?.map (fun b => ~~~b) ∧
      t.dev.sup.out.dropLast = (readBytes (blockBytes 0x08 s.dev) (summaryBytes s.dev)).dropLast) ∧
  (∀ d, (identBytes d).length = 10 ∧ (summaryBytes d).length = 12 ∧ (resultBytes d).length = 8 ∧
    (caravanBytes d).length = (if d.cvn.source then 228 else 4)) ∧
  (∀ code s, targetUp s.dev = true →
    ∃ t, exec (.unknownCommand code) s = .next t ∧ t.dev.sup.acked = false ∧ t.dev.sup.out = [] ∧
      t.dev.sup.cmdRefused = satInc s.dev.sup.cmdRefused ∧ t.dev.sup.resSeq = s.dev.sup.resSeq) ∧
  (∀ s, targetUp s.dev = true →
    ∃ t, exec .busError s = .next t ∧ t.dev.sup.busErr = satInc s.dev.sup.busErr ∧ t.dev.sup.resSeq = s.dev.sup.resSeq ∧
      t.dev.sup.cmdRefused = s.dev.sup.cmdRefused) ∧
  (∀ s, targetUp s.dev = true →
    ∃ t, exec .clockLowTimeout s = .next t ∧ t.dev.sup.timeouts = satInc s.dev.sup.timeouts ∧ t.dev.sup.acked = false ∧
      t.dev.sup.cmdRefused = s.dev.sup.cmdRefused) ∧
  (∀ code s, targetUp s.dev = false →
    ∃ t, exec (.unknownCommand code) s = .next t ∧ t.dev = drive { s.dev with sup := { s.dev.sup with out := [], acked := false, freeAt := none, serving := false } }) ∧
  (∀ s, targetUp s.dev = true → s.dev.sup.alertDrive = true → s.dev.col.fiPec = false →
    ∃ t, exec (.alertResponseRead true true) s = .next t ∧ t.dev.sup.alertDrive = false ∧ t.dev.sup.alert = s.dev.sup.alert ∧
      t.dev.sup.out = [addrByte s.dev false, byteOf (crc8 [0x19, addrByte s.dev false])] ∧ t.dev.pins.alertLow = false) ∧
  (∀ ackLast s, targetUp s.dev = true → s.dev.sup.alertDrive = true →
    ∃ t, exec (.alertResponseRead false ackLast) s = .next t ∧ t.dev.sup.alertDrive = true ∧ t.dev.sup.acked = true ∧ t.dev.sup.out = []) ∧
  (∀ wins ackLast s, s.dev.sup.alertDrive = false →
    ∃ t, exec (.alertResponseRead wins ackLast) s = .next t ∧ t.dev.sup.acked = false ∧ t.dev.sup.out = [] ∧ t.dev.sup.alertDrive = false) ∧
  (∀ u s, calm .unlockExpiry s.dev = true → s.dev.sup.unlockEnd = some u →
    ∃ t, exec .unlockExpiry s = .next t ∧ t.dev.clk.up = max s.dev.clk.up u ∧ t.dev.sup.unlockEnd = none ∧ unlocked t.dev = false) ∧
  (∀ s, calm .unlockExpiry s.dev = true → s.dev.sup.unlockEnd = none → ∃ t, exec .unlockExpiry s = .next t ∧ t.dev = drive s.dev) ∧
  (∀ u s, calm .lockoutEnd s.dev = true → s.dev.sup.lockoutEnd = some u → ∃ t, exec .lockoutEnd s = .next t ∧ t.dev.clk.up = max s.dev.clk.up u)

/-- R271, R494, R500, R502, R529, R538: PEEK and what a read clears. The last clause is the commands that read one word of their own. R371, R503:
copies of records from the rings and from the event log. A command whose event cannot occur in the present state leaves the device as it is: the
model's reading (log entry 9). Readings and choices of the model: log entries 100, 101, 113. -/
def Obligations.CallReads : Prop :=
  (∀ a w s, targetUp s.dev = true → s.dev.col.fiPec = false → a < 2 ^ 24 → locate a = some w → w.readable s.dev = true →
    ∃ t, exec (.peek (peekOne a true)) s = .next t ∧
      t.dev.sup.out = readBytes (callBytes 0x02 (peekOne a true) s.dev) (0 :: leBytes 4 (wordAt s.dev w).toNat) ∧
      t.dev.memory.mem = s.dev.memory.mem ∧
      ((∀ b, w ≠ .mem b) → t.dev.loader = (readEffect w s.dev).loader ∧ t.dev.profs = (readEffect w s.dev).profs ∧
        t.dev.rings = (readEffect w s.dev).rings ∧ t.dev.slots = (readEffect w s.dev).slots)) ∧
  (∀ s, (readEffect (.dev 0x00C) s).loader.retries = 0 ∧ (∀ r : Ring, ((readEffect (.ring r 4) s).rings[r]).lost = 0) ∧
    (∀ c : Chan, ((readEffect (.chan c 0x34) s).profs[c]).qInHi = BitVec.ofNat 32 ((s.profs[c]).qIn / 65536 / 2 ^ 32)) ∧
    ∀ f : Fsrc, ((readEffect (.fsrc f 4) s).faults[f]).count = 0) ∧
  (∀ a s, targetUp s.dev = true → s.dev.col.fiPec = false → a < 2 ^ 24 → locate a = none →
    ∃ t, exec (.peek (peekOne a true)) s = .next t ∧ t.dev.sup.out = readBytes (callBytes 0x02 (peekOne a true) s.dev) [0x0E] ∧
      t.dev.sup.cmdRefused = satInc s.dev.sup.cmdRefused) ∧
  (∀ a w s, targetUp s.dev = true → s.dev.col.fiPec = false → a < 2 ^ 24 → locate a = some w → w.readable s.dev = false →
    ∃ t, exec (.peek (peekOne a true)) s = .next t ∧ t.dev.sup.out = readBytes (callBytes 0x02 (peekOne a true) s.dev) [0x07] ∧
      t.dev.sup.cmdRefused = satInc s.dev.sup.cmdRefused ∧ t.dev.chans = s.dev.chans) ∧
  (∀ a w k s, targetUp s.dev = true → s.dev.col.fiPec = false → a < 2 ^ 24 → locate a = some w → w.readable s.dev = true → (∀ b, w ≠ .mem b) →
    ∃ t, exec (.peek { peekOne a true with cut := some k }) s = .next t ∧
      t.dev.sup.out = (readBytes (callBytes 0x02 (peekOne a true) s.dev) (0 :: leBytes 4 (wordAt s.dev w).toNat)).take k ∧
      t.dev.profs = (if 6 ≤ k then (readEffect w s.dev).profs else s.dev.profs) ∧
      t.dev.rings = (if 6 ≤ k then (readEffect w s.dev).rings else s.dev.rings) ∧
      t.dev.slots = (if 6 ≤ k then (readEffect w s.dev).slots else s.dev.slots)) ∧
  (∀ p s, targetUp s.dev = true → p.data.length ≠ p.count.toNat →
    ∃ t, exec (.peek p) s = .next t ∧ t.dev = drive { s.dev with sup :=
      { s.dev.sup with out := [], acked := false, cmdRefused := satInc s.dev.sup.cmdRefused, freeAt := none, serving := false } }) ∧
  (∀ s, targetUp s.dev = true → s.dev.col.fiPec = false →
    ∃ t, exec (.alertRead true) s = .next t ∧
      t.dev.sup.out = readBytes (callBytes 0x02 (peekOne 0x100300 true) s.dev) (0 :: leBytes 4 (wordAt s.dev (.dev 0x300)).toNat)) ∧
  (∀ (c : Chan) out s, targetUp s.dev = true → quadAnswers s.dev (Chan.quad c) = true →
    ∃ t, exec (.qLoReadLatch c out) s = .next t ∧
      (t.dev.profs[c]).qInHi = (if out then (s.dev.profs[c]).qInHi else BitVec.ofNat 32 ((s.dev.profs[c]).qIn / 65536 / 2 ^ 32)) ∧
      (t.dev.profs[c]).qOutHi = (if out then BitVec.ofNat 32 ((s.dev.profs[c]).qOut / 65536 / 2 ^ 32) else (s.dev.profs[c]).qOutHi) ∧
      (t.dev.profs[c]).qIn = (s.dev.profs[c]).qIn ∧ (t.dev.profs[c]).qOut = (s.dev.profs[c]).qOut) ∧
  (∀ (c : Chan) out s, quadAnswers s.dev (Chan.quad c) = false → ∃ t, exec (.qLoReadLatch c out) s = .next t ∧ t.dev = drive s.dev) ∧
  (∀ p s, targetUp s.dev = true → s.dev.col.fiPec = false → p.ackLast = true → p.cut = none → p.count = 4 → p.data.length = 4 →
    fld p.data 0 1 ≤ 31 → 1 ≤ fld p.data 3 1 → fld p.data 3 1 ≤ 7 →
    ∃ t, exec (.ringRead p) s = .next t ∧
      t.dev.sup.out = readBytes (callBytes 0x03 p s.dev) (0 :: recEntries s.dev (ringBase (Fin.ofNat 32 (fld p.data 0 1))) 256 (fld p.data 1 2)
        (fld p.data 3 1) (s.dev.rings[Fin.ofNat 32 (fld p.data 0 1)]).wr (s.dev.rings[Fin.ofNat 32 (fld p.data 0 1)]).rd) ∧
      t.dev.rings = s.dev.rings ∧ t.dev.memory.mem = s.dev.memory.mem) ∧
  (∀ p s, targetUp s.dev = true → s.dev.col.fiPec = false → p.ackLast = true → p.cut = none → p.count = 3 → p.data.length = 3 →
    1 ≤ fld p.data 2 1 → fld p.data 2 1 ≤ 7 →
    ∃ t, exec (.logRead p) s = .next t ∧
      t.dev.sup.out = readBytes (callBytes 0x04 p s.dev) (0 :: recEntries s.dev 0x80000 4096 (fld p.data 0 2) (fld p.data 2 1) s.dev.col.logWr
        s.dev.col.logRd) ∧ t.dev.col.logRd = s.dev.col.logRd ∧ t.dev.col.logWr = s.dev.col.logWr ∧ t.dev.memory.mem = s.dev.memory.mem) ∧
  (∀ p s, targetUp s.dev = true → s.dev.col.fiPec = false → p.ackLast = true → p.cut = none → p.count = 4 → p.data.length = 4 →
    (31 < fld p.data 0 1 ∨ fld p.data 3 1 = 0 ∨ 7 < fld p.data 3 1) →
    ∃ t, exec (.ringRead p) s = .next t ∧ t.dev.sup.out = readBytes (callBytes 0x03 p s.dev) [0x08] ∧
      t.dev.sup.cmdRefused = satInc s.dev.sup.cmdRefused ∧ t.dev.memory = s.dev.memory) ∧
  (∀ d base size i (wr rd : Halfword), (i + 65536 - rd.toNat) % 65536 < fill16 wr rd → cwBad d ((base + 32 * (i % size)) / 32) = false →
    recEntry d base size i wr rd = 0 :: mgets d.memory.mem (base + 32 * (i % size)) 32) ∧
  (∀ d base size i (wr rd : Halfword), fill16 wr rd ≤ (i + 65536 - rd.toNat) % 65536 →
    recEntry d base size i wr rd = 1 :: leBytes 2 rd.toNat ++ List.replicate 30 0) ∧
  (∀ d base size i (wr rd : Halfword), (i + 65536 - rd.toNat) % 65536 < fill16 wr rd → cwBad d ((base + 32 * (i % size)) / 32) = true →
    recEntry d base size i wr rd = 2 :: List.replicate 32 0)

/-- R490 to R493, R498 to R501: what the target does with a block write before it looks at its command. Readings and choices of the model: log entry
110. -/
def Obligations.BlockWrites : Prop :=
  (∀ i code lo hi svc w s, blockOf i = some (code, lo, hi, svc, w) → targetUp s.dev = false →
    ∃ t, exec i s = .next t ∧ t.dev = drive { s.dev with sup := { s.dev.sup with out := [], acked := false, freeAt := none, serving := false } }) ∧
  (∀ i code lo hi svc w s, blockOf i = some (code, lo, hi, svc, w) → targetUp s.dev = true →
    (w.data ++ w.pec.toList).length < w.count.toNat →
    ∃ t, exec i s = .next t ∧ t.dev = drive { s.dev with sup := { s.dev.sup with out := [], acked := true, freeAt := none, serving := false } }) ∧
  (∀ i code lo hi svc w s, blockOf i = some (code, lo, hi, svc, w) → targetUp s.dev = true →
    w.count.toNat + 1 < (w.data ++ w.pec.toList).length →
    ∃ t, exec i s = .next t ∧
      t.dev = drive { s.dev with sup := { s.dev.sup with out := [], acked := false, cmdRefused := satInc s.dev.sup.cmdRefused, freeAt := none, serving := false } }) ∧
  (∀ i code lo hi svc w s, blockOf i = some (code, lo, hi, svc, w) → targetUp s.dev = true →
    w.data.length = w.count.toNat → w.pec = none →
    ∃ t, exec i s = .next t ∧ recorded code 0x0C s.dev t.dev ∧ t.dev.sup.resDetail = 0 ∧ t.dev.start = s.dev.start ∧ t.dev.rings = s.dev.rings ∧
      t.dev.chans = s.dev.chans ∧ t.dev.col = s.dev.col ∧ t.dev.memory = s.dev.memory) ∧
  (∀ i code lo hi svc w b s, blockOf i = some (code, lo, hi, svc, w) → targetUp s.dev = true →
    w.data.length = w.count.toNat → w.pec = some b → soundBlock code w s.dev = false →
    ∃ t, exec i s = .next t ∧
      t.dev = drive { s.dev with sup := { s.dev.sup with out := [], acked := true, pecErr := satInc s.dev.sup.pecErr, freeAt := none, serving := false } }) ∧
  (∀ i code lo hi svc w s, blockOf i = some (code, lo, hi, svc, w) → targetUp s.dev = true → soundBlock code w s.dev = true →
    (w.data.length < lo ∨ hi < w.data.length) →
    ∃ t, exec i s = .next t ∧ recorded code 0x01 s.dev t.dev ∧ t.dev.chans = s.dev.chans ∧ t.dev.rings = s.dev.rings ∧ t.dev.col = s.dev.col ∧
      t.dev.memory = s.dev.memory ∧ t.dev.start = s.dev.start) ∧
  (∀ i code lo hi w s, blockOf i = some (code, lo, hi, true, w) → targetUp s.dev = true → soundBlock code w s.dev = true →
    lo ≤ w.data.length → w.data.length ≤ hi → unlocked s.dev = false →
    ∃ t, exec i s = .next t ∧ recorded code 0x03 s.dev t.dev ∧ t.dev.chans = s.dev.chans ∧ t.dev.mods = s.dev.mods ∧ t.dev.bootp = s.dev.bootp ∧
      t.dev.cal = s.dev.cal ∧ t.dev.reload = s.dev.reload ∧ t.dev.check = s.dev.check ∧ t.dev.col = s.dev.col ∧ t.dev.memory = s.dev.memory)

/-- R504: an acknowledge of a ring or of the event log sets its read index to a value that lies between it and the write index; any other value
gives 0x0D. -/
def Obligations.Acknowledges : Prop :=
  (∀ w (r : Ring) s, targetUp s.dev = true → soundBlock 0x05 w s.dev = true → w.data.length = 3 → fld w.data 0 1 = r.1 →
    (fld w.data 1 2 + 65536 - (s.dev.rings[r]).rd.toNat) % 65536 ≤ fill16 (s.dev.rings[r]).wr (s.dev.rings[r]).rd →
    ∃ t, exec (.ringAck w) s = .next t ∧ recorded 0x05 0 s.dev t.dev ∧ (t.dev.rings[r]).rd = BitVec.ofNat 16 (fld w.data 1 2) ∧
      (t.dev.rings[r]).wr = (s.dev.rings[r]).wr ∧ ∀ j : Ring, j ≠ r → t.dev.rings[j] = s.dev.rings[j]) ∧
  (∀ w (r : Ring) s, targetUp s.dev = true → soundBlock 0x05 w s.dev = true → w.data.length = 3 → fld w.data 0 1 = r.1 →
    fill16 (s.dev.rings[r]).wr (s.dev.rings[r]).rd < (fld w.data 1 2 + 65536 - (s.dev.rings[r]).rd.toNat) % 65536 →
    ∃ t, exec (.ringAck w) s = .next t ∧ recorded 0x05 0x0D s.dev t.dev ∧ t.dev.sup.resDetail = BitVec.ofNat 32 (s.dev.rings[r]).rd.toNat ∧
      t.dev.rings = s.dev.rings) ∧
  (∀ w s, targetUp s.dev = true → soundBlock 0x06 w s.dev = true → w.data.length = 2 →
    (fld w.data 0 2 + 65536 - s.dev.col.logRd.toNat) % 65536 ≤ fill16 s.dev.col.logWr s.dev.col.logRd →
    ∃ t, exec (.logAck w) s = .next t ∧ recorded 0x06 0 s.dev t.dev ∧ t.dev.col.logRd = BitVec.ofNat 16 (fld w.data 0 2) ∧
      t.dev.col.logWr = s.dev.col.logWr) ∧
  (∀ w s, targetUp s.dev = true → soundBlock 0x06 w s.dev = true → w.data.length = 2 →
    fill16 s.dev.col.logWr s.dev.col.logRd < (fld w.data 0 2 + 65536 - s.dev.col.logRd.toNat) % 65536 →
    ∃ t, exec (.logAck w) s = .next t ∧ recorded 0x06 0x0D s.dev t.dev ∧ t.dev.col.logRd = s.dev.col.logRd)

/-- R507, and with it R506 and SERVICE_LOCK of R508: the service unlock and its lockout. Where a command lets time pass, it is stated for a state in
which no launch comes before its instant (`calm`). -/
def Obligations.ServiceUnlock : Prop :=
  (∀ w s, targetUp s.dev = true → soundBlock 0x10 w s.dev = true → w.data.length = 2 → (s.dev.start.st = .configured ∨ s.dev.start.st = .join ∨ s.dev.start.st = .run) →
    s.dev.loader.svcCmdEnable = true → s.dev.loader.serviceCode ≠ 0 → lockedOut s.dev = false →
    fld w.data 0 2 = s.dev.loader.serviceCode.toNat →
    ∃ t, exec (.serviceUnlock w) s = .next t ∧ recorded 0x10 0 s.dev t.dev ∧ t.dev.sup.unlockEnd = some (s.dev.clk.up + 60 * sec) ∧
      t.dev.sup.badCodes = 0 ∧ t.dev.sup.lockoutEnd = none ∧ unlocked t.dev = true) ∧
  (∀ w s, targetUp s.dev = true → soundBlock 0x10 w s.dev = true → w.data.length = 2 → (s.dev.start.st = .configured ∨ s.dev.start.st = .join ∨ s.dev.start.st = .run) →
    s.dev.loader.svcCmdEnable = true → s.dev.loader.serviceCode ≠ 0 → lockedOut s.dev = false →
    fld w.data 0 2 ≠ s.dev.loader.serviceCode.toNat →
    ∃ t, exec (.serviceUnlock w) s = .next t ∧ recorded 0x10 0x0A s.dev t.dev ∧ t.dev.sup.unlockEnd = s.dev.sup.unlockEnd ∧
      (badCodes s.dev = 2 → t.dev.sup.lockoutEnd = some (s.dev.clk.up + 60 * sec) ∧ t.dev.sup.badCodes = 2) ∧
      (badCodes s.dev < 2 → t.dev.sup.lockoutEnd = none ∧ t.dev.sup.badCodes.toNat = badCodes s.dev + 1)) ∧
  (∀ w s, targetUp s.dev = true → soundBlock 0x10 w s.dev = true → w.data.length = 2 → (s.dev.start.st = .configured ∨ s.dev.start.st = .join ∨ s.dev.start.st = .run) →
    s.dev.loader.svcCmdEnable = true → s.dev.loader.serviceCode ≠ 0 → lockedOut s.dev = true →
    ∃ t, exec (.serviceUnlock w) s = .next t ∧ recorded 0x10 0x0B s.dev t.dev ∧ t.dev.sup.unlockEnd = s.dev.sup.unlockEnd ∧
      t.dev.sup.badCodes = s.dev.sup.badCodes) ∧
  (∀ w s, targetUp s.dev = true → soundBlock 0x10 w s.dev = true → w.data.length = 2 → (s.dev.start.st = .configured ∨ s.dev.start.st = .join ∨ s.dev.start.st = .run) →
    (s.dev.loader.svcCmdEnable = false ∨ s.dev.loader.serviceCode = 0) →
    ∃ t, exec (.serviceUnlock w) s = .next t ∧ recorded 0x10 0x09 s.dev t.dev ∧ t.dev.sup.unlockEnd = s.dev.sup.unlockEnd) ∧
  (∀ w s, targetUp s.dev = true → soundBlock 0x10 w s.dev = true → w.data.length = 2 →
    s.dev.start.st ≠ .run → s.dev.start.st ≠ .join → s.dev.start.st ≠ .configured →
    ∃ t, exec (.serviceUnlock w) s = .next t ∧ recorded 0x10 0x07 s.dev t.dev ∧ t.dev.sup.unlockEnd = s.dev.sup.unlockEnd) ∧
  (∀ w s, targetUp s.dev = true → soundBlock 0x11 w s.dev = true → w.data = [0] → unlocked s.dev = true →
    ∃ t, exec (.serviceLock w) s = .next t ∧ recorded 0x11 0 s.dev t.dev ∧ t.dev.sup.unlockEnd = none ∧ unlocked t.dev = false) ∧
  (∀ u s, calm .lockoutEnd s.dev = true → s.dev.sup.lockoutEnd = some u →
    ∃ t, exec .lockoutEnd s = .next t ∧ t.dev.sup.lockoutEnd = none ∧ t.dev.sup.badCodes = 0 ∧
      lockedOut t.dev = false)

/-- R483, R518 to R523: the polls of the time source. Where a command lets time pass, it is stated for a state in which no launch comes before its
instant (`calm`). The time at which a timed command finds the clocks is the model's choice (log entry 2). A command whose event cannot occur in the
present state leaves the device as it is: the model's reading (log entry 9). Readings and choices of the model: log entries 111, 112, 139. -/
def Obligations.Polls : Prop :=
  (∀ s, calm .pollRoundStart s.dev = true → s.dev.cvn.source = true → s.dev.start.st = .run →
    ∃ t, exec .pollRoundStart s = .next t ∧ t.dev.clk.loc = periodAt sec s.dev.sup.roundAt s.dev ∧ t.dev.sup.roundAt = some t.dev.clk.loc ∧
      t.dev.sup.pollRounds = s.dev.sup.pollRounds + 1 ∧ (t.dev.sup.entries[Fin.ofNat 16 s.dev.start.straps.cvnId.toNat]).status = 4 ∧
      ∀ id : Fin 16, id.1 ≠ s.dev.start.straps.cvnId.toNat →
        t.dev.sup.entries[id] = s.dev.sup.entries[id] ∧
        (bitOf s.dev.cvn.members.toNat id.1 = true → (t.dev.arbs[sport]).pending.any (fun r => r.1 = 1 + id.1) = true)) ∧
  (∀ s, calm .pollRoundStart s.dev = true → (s.dev.cvn.source = false ∨ s.dev.start.st ≠ .run) →
    ∃ t, exec .pollRoundStart s = .next t ∧ t.dev.clk.loc = periodAt sec s.dev.sup.roundAt s.dev ∧
      t.dev.sup = { s.dev.sup with roundAt := some t.dev.clk.loc } ∧ t.dev.arbs = s.dev.arbs) ∧
  (∀ (taken : Option Nat) d, d.clk.loc ≤ periodAt sec taken d ∧ periodAt sec taken d % sec = 0 ∧ periodAt sec taken d ≤ d.clk.loc + sec) ∧
  (∀ (id : Fin 16) (bs : Vector Byte 12) s, s.dev.sup.poll = some (1 + id.1) → s.dev.sup.polling = true →
    ∃ t, exec (.pollDone (.fresh bs)) s = .next t ∧ t.dev.sup.poll = none ∧ t.dev.sup.polling = false ∧
      t.dev.sup.entries[id] = ⟨0, some s.dev.clk.up, bs.toList⟩ ∧
      t.dev.sup.alert = (if alertBit bs.toList && !alertBit (s.dev.sup.entries[id]).bytes then s.dev.sup.alert ||| 4 else s.dev.sup.alert)) ∧
  (∀ (id : Fin 16) s, s.dev.sup.poll = some (1 + id.1) → s.dev.sup.polling = true →
    (∃ t, exec (.pollDone .noAck) s = .next t ∧ t.dev.sup.poll = none ∧ (t.dev.sup.entries[id]).status = 1 ∧
      (t.dev.sup.entries[id]).bytes = (s.dev.sup.entries[id]).bytes ∧ t.dev.sup.pollFail = satInc s.dev.sup.pollFail) ∧
    (∃ t, exec (.pollDone .pecWrong) s = .next t ∧ t.dev.sup.poll = none ∧ (t.dev.sup.entries[id]).status = 2 ∧
      t.dev.sup.pollFail = satInc s.dev.sup.pollFail)) ∧
  (∀ o s, (s.dev.sup.poll = none ∨ s.dev.sup.polling = false) → ∃ t, exec (.pollDone o) s = .next t ∧ t.dev = drive s.dev) ∧
  (∀ s, s.dev.cvn.source = true → s.dev.start.st = .run → s.dev.pins.alertLow = false →
    ∃ t, exec .alertLineTimeout s = .next t ∧ (t.dev.arbs[sport]).pending.any (fun r => r.1 = 0) = true ∧ t.dev.sup = s.dev.sup) ∧
  (∀ w seen s, s.dev.sup.poll = some w → s.dev.sup.polling = true → s.dev.sup.lostRun < 7 →
    ∃ t, exec (.arbitrationLost seen) s = .next t ∧ t.dev.sup.arbLost = satInc s.dev.sup.arbLost ∧ t.dev.sup.backoff = true ∧ t.dev.sup.freeAt = none ∧
      t.dev.sup.polling = false ∧ t.dev.sup.poll = some w ∧ t.dev.sup.lostRun = s.dev.sup.lostRun + 1 ∧
      (t.dev.sup.serving = true ↔ targetUp s.dev = true ∧ ∃ a, seen = some a ∧ a.toNat / 2 = 0x40 + s.dev.start.straps.cvnId.toNat)) ∧
  (∀ (id : Fin 16) seen s, s.dev.sup.poll = some (1 + id.1) → s.dev.sup.polling = true → s.dev.sup.lostRun = 7 →
    ∃ t, exec (.arbitrationLost seen) s = .next t ∧ t.dev.sup.poll = none ∧ t.dev.sup.backoff = false ∧ (t.dev.sup.entries[id]).status = 5 ∧
      t.dev.sup.pollFail = satInc s.dev.sup.pollFail) ∧
  (∀ w u s, calm .arbitrationBackoffEnd s.dev = true → s.dev.sup.poll = some w → s.dev.sup.backoff = true → s.dev.sup.freeAt = some u →
    ∃ t, exec .arbitrationBackoffEnd s = .next t ∧ t.dev.clk.up = max s.dev.clk.up (u + s.dev.start.straps.cvnId.toNat * (50 * us)) ∧
      t.dev.sup.backoff = false ∧ t.dev.sup.polling = true ∧ t.dev.sup.poll = some w) ∧
  (∀ s, calm .arbitrationBackoffEnd s.dev = true → s.dev.sup.freeAt = none → ∃ t, exec .arbitrationBackoffEnd s = .next t ∧ t.dev = drive s.dev) ∧
  (∀ (id : Fin 16) s, s.dev.sup.poll = some (1 + id.1) →
    ∃ t, exec (.controllerBusStuck .supervisory true) s = .next t ∧ t.dev.sup.timeouts = satInc s.dev.sup.timeouts ∧ t.dev.sup.poll = none ∧
      (t.dev.sup.entries[id]).status = 1) ∧
  (∀ s, controls s.dev = true ∨ s.dev.sup.poll.isSome = true → ∃ t, exec (.controllerBusStuck .supervisory false) s = .next t ∧
    t.dev = drive { s.dev with sup := { s.dev.sup with recovered := s.dev.sup.recovered + 1 } }) ∧
  (∀ low s, controls s.dev = false → s.dev.sup.poll = none → ∃ t, exec (.controllerBusStuck .supervisory low) s = .next t ∧ t.dev = drive s.dev) ∧
  (∀ s, s.dev.start.st ≠ .reset → s.dev.start.st ≠ .init → ∃ t, exec (.controllerBusStuck .boot false) s = .next t ∧
    t.dev = drive { s.dev with bootp := { s.dev.bootp with recovered := s.dev.bootp.recovered + 1 } }) ∧
  (∀ s, s.dev.start.st ≠ .reset → s.dev.start.st ≠ .init →
    ∃ t, exec (.controllerBusStuck .boot true) s = .next t ∧ t.dev.sup.timeouts = satInc s.dev.sup.timeouts ∧ t.dev.bootp.cur = none) ∧
  (∀ w s, s.dev.sup.poll = some w → s.dev.sup.backoff = false →
    ∃ t, exec (.busFree .supervisory) s = .next t ∧ t.dev.sup.polling = true ∧ t.dev.sup.poll = some w) ∧
  (∀ w s, s.dev.sup.poll = some w → s.dev.sup.backoff = true →
    ∃ t, exec (.busFree .supervisory) s = .next t ∧ t.dev.sup.freeAt = some s.dev.clk.up ∧ t.dev.sup.polling = s.dev.sup.polling ∧
      t.dev.sup.serving = false) ∧
  (∀ x s, s.dev.bootp.cur = some x → ∃ t, exec (.busFree .boot) s = .next t ∧ t.dev.bootp.started = true ∧ t.dev.bootp.cur = some x)

/-- R222, R233, R509: the writes of words with their own commands. The quadrant hears of a narrowing and of a stop. R505, R526, R539: CLEAR, and an
acknowledge of a ring that does not exist. Readings and choices of the model: log entries 100, 101, 103, 115. -/
def Obligations.HostWrites : Prop :=
  (∀ (c : Chan) mask value pec s, targetUp s.dev = true → unlocked s.dev = true →
    soundBlock 0x12 (writeOf (0x110018 + 128 * c.1) mask.toNat value.toNat pec) s.dev = true → mask ≠ 0 →
    ((s.dev.chans[c]).narrowI &&& ~~~mask ||| value &&& mask).toNat < (s.dev.chans[c]).narrowI.toNat →
    ∃ t, exec (.writeNarrowI c mask value pec) s = .next t ∧ recorded 0x12 0 s.dev t.dev ∧
      (t.dev.chans[c]).narrowI = ((s.dev.chans[c]).narrowI &&& ~~~mask ||| value &&& mask) ∧ (t.dev.chans[c]).narrowV = (s.dev.chans[c]).narrowV ∧
      t.dev.isl.fifo[xIndex (.toQd (Chan.quad c))] =
        s.dev.isl.fifo[xIndex (.toQd (Chan.quad c))] ++ [.narrow c (t.dev.chans[c]).narrowI (t.dev.chans[c]).narrowV]) ∧
  (∀ (c : Chan) mask value pec s, targetUp s.dev = true → unlocked s.dev = true →
    soundBlock 0x12 (writeOf (0x110018 + 128 * c.1) mask.toNat value.toNat pec) s.dev = true → mask ≠ 0 →
    (s.dev.chans[c]).narrowI.toNat ≤ ((s.dev.chans[c]).narrowI &&& ~~~mask ||| value &&& mask).toNat →
    ∃ t, exec (.writeNarrowI c mask value pec) s = .next t ∧ recorded 0x12 0x05 s.dev t.dev ∧ t.dev.chans = s.dev.chans ∧ t.dev.isl = s.dev.isl ∧
      t.dev.sup.resDetail = BitVec.ofNat 32 (0x110018 + 128 * c.1)) ∧
  (∀ (c : Chan) mask value pec s, targetUp s.dev = true → unlocked s.dev = true →
    soundBlock 0x12 (writeOf (0x110018 + 128 * c.1) (65536 * mask.toNat) (65536 * value.toNat) pec) s.dev = true → mask ≠ 0 →
    ((s.dev.chans[c]).narrowV &&& ~~~mask ||| value &&& mask).toNat < (s.dev.chans[c]).narrowV.toNat →
    ∃ t, exec (.writeNarrowV c mask value pec) s = .next t ∧ recorded 0x12 0 s.dev t.dev ∧
      (t.dev.chans[c]).narrowV = ((s.dev.chans[c]).narrowV &&& ~~~mask ||| value &&& mask) ∧ (t.dev.chans[c]).narrowI = (s.dev.chans[c]).narrowI ∧
      t.dev.isl.fifo[xIndex (.toQd (Chan.quad c))] =
        s.dev.isl.fifo[xIndex (.toQd (Chan.quad c))] ++ [.narrow c (t.dev.chans[c]).narrowI (t.dev.chans[c]).narrowV]) ∧
  (∀ (c : Chan) mask value pec s, targetUp s.dev = true → unlocked s.dev = true →
    soundBlock 0x12 (writeOf (0x110018 + 128 * c.1) (65536 * mask.toNat) (65536 * value.toNat) pec) s.dev = true → mask ≠ 0 →
    (s.dev.chans[c]).narrowV.toNat ≤ ((s.dev.chans[c]).narrowV &&& ~~~mask ||| value &&& mask).toNat →
    ∃ t, exec (.writeNarrowV c mask value pec) s = .next t ∧ recorded 0x12 0x05 s.dev t.dev ∧ t.dev.chans = s.dev.chans ∧ t.dev.isl = s.dev.isl) ∧
  (∀ (c : Chan) v pec s, targetUp s.dev = true → unlocked s.dev = true →
    soundBlock 0x12 (writeOf (0x11001C + 128 * c.1) 1 (b2n v) pec) s.dev = true →
    ∃ t, exec (.writeHostStop c v pec) s = .next t ∧ recorded 0x12 0 s.dev t.dev ∧ (t.dev.chans[c]).hostStop = v ∧
      (t.dev.chans[c]).hostStopQ = (s.dev.chans[c]).hostStopQ ∧
      t.dev.isl.fifo[xIndex (.toQd (Chan.quad c))] = s.dev.isl.fifo[xIndex (.toQd (Chan.quad c))] ++ [.hostStop c v]) ∧
  (∀ (c : Chan) v pec s, targetUp s.dev = true → unlocked s.dev = true →
    soundBlock 0x12 (writeOf (0x11001C + 128 * c.1) 1 (b2n v) pec) s.dev = true →
    ∃ t, exec (.write (writeOf (0x11001C + 128 * c.1) 1 (b2n v) pec)) s = .next t ∧ recorded 0x12 0 s.dev t.dev ∧ (t.dev.chans[c]).hostStop = v) ∧
  (∀ a k v pec s, targetUp s.dev = true → unlocked s.dev = true → soundBlock 0x12 (writeOf a k v pec) s.dev = true → a < 0x100000 → a % 4 = 0 →
    ∃ t, exec (.write (writeOf a k v pec)) s = .next t ∧ recorded 0x12 0x04 s.dev t.dev ∧ t.dev.sup.resDetail = BitVec.ofNat 32 a ∧
      t.dev.memory = s.dev.memory) ∧
  (∀ a k v pec s, targetUp s.dev = true → unlocked s.dev = true → soundBlock 0x12 (writeOf a k v pec) s.dev = true → a < 2 ^ 24 → locate a = none →
    ∃ t, exec (.write (writeOf a k v pec)) s = .next t ∧ recorded 0x12 0x0E s.dev t.dev ∧ t.dev.sup.resDetail = BitVec.ofNat 32 a ∧
      t.dev.chans = s.dev.chans ∧ t.dev.col = s.dev.col) ∧
  (∀ (c : Chan) (mask value : BitVec 16) (v : Bool) pec s,
    exec (.writeNarrowI c mask value pec) s = exec (.write (writeOf (0x110018 + 128 * c.1) mask.toNat value.toNat pec)) s ∧
    exec (.writeNarrowV c mask value pec) s = exec (.write (writeOf (0x110018 + 128 * c.1) (65536 * mask.toNat) (65536 * value.toNat) pec)) s ∧
    exec (.writeHostStop c v pec) s = exec (.write (writeOf (0x11001C + 128 * c.1) 1 (b2n v) pec)) s) ∧
  (∀ w s, targetUp s.dev = true → soundBlock 0x05 w s.dev = true → w.data.length = 3 → 31 < fld w.data 0 1 →
    ∃ t, exec (.ringAck w) s = .next t ∧ recorded 0x05 0x08 s.dev t.dev ∧ t.dev.rings = s.dev.rings) ∧
  (∀ w x s, targetUp s.dev = true → soundBlock 0x07 w s.dev = true → w.data.length = 7 → locate (fld w.data 0 3) = some x →
    (∀ a, x ≠ .mem a) → fld w.data 3 4 &&& w1cMask x = fld w.data 3 4 →
    ∃ t, exec (.clear w) s = .next t ∧ recorded 0x07 0 s.dev t.dev ∧ t.dev.start = (clearBits x (fld w.data 3 4) s.dev).start ∧
      t.dev.slots = (clearBits x (fld w.data 3 4) s.dev).slots ∧ t.dev.paths = (clearBits x (fld w.data 3 4) s.dev).paths ∧
      t.dev.col = (clearBits x (fld w.data 3 4) s.dev).col ∧ t.dev.mods = (clearBits x (fld w.data 3 4) s.dev).mods) ∧
  (∀ w x s, targetUp s.dev = true → soundBlock 0x07 w s.dev = true → w.data.length = 7 → locate (fld w.data 0 3) = some x →
    (∀ a, x ≠ .mem a) → fld w.data 3 4 &&& w1cMask x ≠ fld w.data 3 4 →
    ∃ t, exec (.clear w) s = .next t ∧ recorded 0x07 0x04 s.dev t.dev ∧ t.dev.sup.resDetail = BitVec.ofNat 32 (fld w.data 0 3) ∧
      t.dev.start = s.dev.start ∧ t.dev.slots = s.dev.slots ∧ t.dev.paths = s.dev.paths ∧ t.dev.col = s.dev.col) ∧
  (∀ w a s, targetUp s.dev = true → soundBlock 0x07 w s.dev = true → w.data.length = 7 → locate (fld w.data 0 3) = some (.mem a) →
    ∃ t, exec (.clear w) s = .next t ∧ recorded 0x07 0x04 s.dev t.dev ∧ t.dev.memory = s.dev.memory) ∧
  (∀ w s, targetUp s.dev = true → soundBlock 0x07 w s.dev = true → w.data.length = 7 → locate (fld w.data 0 3) = none →
    ∃ t, exec (.clear w) s = .next t ∧ recorded 0x07 0x0E s.dev t.dev) ∧
  (∀ k d, (clearBits (.dev 0) k d).start.strapChanged = (d.start.strapChanged && !bitOf k 9) ∧
    ∀ n : Slot, ((clearBits (.slot n 0) k d).slots[n]).thrErr = ((d.slots[n]).thrErr && !bitOf k 8))

/-- R441, R442: the fault injections of the host. Readings and choices of the model: log entry 104. -/
def Obligations.FaultInjection : Prop :=
  (∀ (n : BitVec 2) (reg : BitVec 3) pec s, targetUp s.dev = true → unlocked s.dev = true →
    soundBlock 0x12 (writeOf 0x100220 0x1F (n.toNat + 4 * reg.toNat) pec) s.dev = true → reg.toNat < 5 →
    (reg = 4 → n ≠ 0 → s.dev.start.st ≠ .run) →
    ∃ t, exec (.fiRsArm n reg pec) s = .next t ∧ recorded 0x12 0 s.dev t.dev ∧ t.dev.col.fiRsN = n ∧ t.dev.col.fiRsReg = reg ∧
      t.dev.col.fiPec = s.dev.col.fiPec ∧ t.dev.col.fiCrc = s.dev.col.fiCrc ∧
      (n ≠ 0 → s.dev.col.logQ.length < 32 → t.dev.col.logQ.length = s.dev.col.logQ.length + 1)) ∧
  (∀ (n : BitVec 2) (reg : BitVec 3) pec s, targetUp s.dev = true → unlocked s.dev = true →
    soundBlock 0x12 (writeOf 0x100220 0x1F (n.toNat + 4 * reg.toNat) pec) s.dev = true → 5 ≤ reg.toNat →
    ∃ t, exec (.fiRsArm n reg pec) s = .next t ∧ recorded 0x12 0x02 s.dev t.dev ∧ t.dev.col = s.dev.col) ∧
  (∀ (n : BitVec 2) pec s, targetUp s.dev = true → unlocked s.dev = true → soundBlock 0x12 (writeOf 0x100220 0x1F (n.toNat + 16) pec) s.dev = true →
    n ≠ 0 → s.dev.start.st = .run →
    ∃ t, exec (.fiRsArm n 4 pec) s = .next t ∧ recorded 0x12 0x07 s.dev t.dev ∧ t.dev.col = s.dev.col) ∧
  (∀ on pec s, targetUp s.dev = true → unlocked s.dev = true → soundBlock 0x12 (writeOf 0x100220 0x20 (32 * b2n on) pec) s.dev = true →
    ∃ t, exec (.fiPecArm on pec) s = .next t ∧ recorded 0x12 0 s.dev t.dev ∧ t.dev.col.fiPec = on ∧ t.dev.col.fiRsN = s.dev.col.fiRsN ∧
      t.dev.col.fiRsReg = s.dev.col.fiRsReg ∧ t.dev.col.fiCrc = s.dev.col.fiCrc) ∧
  (∀ (v : BitVec 2) pec s, targetUp s.dev = true → unlocked s.dev = true → soundBlock 0x12 (writeOf 0x100220 0xC0 (64 * v.toNat) pec) s.dev = true →
    (v ≠ 3 → ∃ t, exec (.fiCrcArm v pec) s = .next t ∧ recorded 0x12 0 s.dev t.dev ∧ t.dev.col.fiCrc = v ∧ t.dev.col.fiPec = s.dev.col.fiPec) ∧
    (v = 3 → ∃ t, exec (.fiCrcArm v pec) s = .next t ∧ recorded 0x12 0x02 s.dev t.dev ∧ t.dev.col = s.dev.col)) ∧
  (∀ (f : BitVec 12) (m : BitVec 2) (x : BitVec 16) pec s, targetUp s.dev = true → unlocked s.dev = true →
    soundBlock 0x12 (writeOf 0x100224 0xFFFF3FFF (f.toNat + 4096 * m.toNat + 65536 * x.toNat) pec) s.dev = true → scopeOf f.toNat = none →
    ∃ t, exec (.fiRailArm f m x pec) s = .next t ∧ recorded 0x12 0x08 s.dev t.dev ∧ t.dev.col = s.dev.col ∧ t.dev.faults = s.dev.faults) ∧
  (∀ (f : BitVec 12) (m : BitVec 2) (x : BitVec 16) sc pec s, targetUp s.dev = true → unlocked s.dev = true →
    soundBlock 0x12 (writeOf 0x100224 0xFFFF3FFF (f.toNat + 4096 * m.toNat + 65536 * x.toNat) pec) s.dev = true → scopeOf f.toNat = some sc →
    s.dev.col.fiMode = 0 → (m = 1 ∨ m = 2) → x ≠ 0 →
    ∃ t, exec (.fiRailArm f m x pec) s = .next t ∧ t.dev.col.fiMode = m ∧ t.dev.col.fiFsrc = f ∧ t.dev.col.fiMs = x ∧
      t.dev.col.fiAt = s.dev.clk.up ∧ (t.dev.faults[Fin.ofNat 2048 f.toNat]).inj = true ∧
      (t.dev.faults[Fin.ofNat 2048 f.toNat]).rpath = true) ∧
  (∀ (f : BitVec 12) (x : BitVec 16) sc pec s, targetUp s.dev = true → unlocked s.dev = true →
    soundBlock 0x12 (writeOf 0x100224 0xFFFF3FFF (f.toNat + 4096 * 3 + 65536 * x.toNat) pec) s.dev = true → scopeOf f.toNat = some sc →
    s.dev.col.fiMode = 0 → x ≠ 0 →
    ∃ t, exec (.fiRailArm f 3 x pec) s = .next t ∧ t.dev.col.fiMode = 3 ∧ (t.dev.faults[Fin.ofNat 2048 f.toNat]).inj = true ∧
      (t.dev.faults[Fin.ofNat 2048 f.toNat]).active = (!(s.dev.faults[Fin.ofNat 2048 f.toNat]).active || (s.dev.faults[Fin.ofNat 2048 f.toNat]).rpath)) ∧
  (∀ (n : BitVec 2) (reg : BitVec 3) pec s,
    exec (.fiRsArm n reg pec) s = exec (.write (writeOf 0x100220 0x1F (n.toNat + 4 * reg.toNat) pec)) s) ∧
  (∀ (on : Bool) pec s, exec (.fiPecArm on pec) s = exec (.write (writeOf 0x100220 0x20 (32 * b2n on) pec)) s) ∧
  (∀ (v : BitVec 2) pec s, exec (.fiCrcArm v pec) s = exec (.write (writeOf 0x100220 0xC0 (64 * v.toNat) pec)) s) ∧
  (∀ (f : BitVec 12) (m : BitVec 2) (x : BitVec 16) pec s, exec (.fiRailArm f m x pec) s =
    exec (.write (writeOf 0x100224 0xFFFF3FFF (f.toNat + 4096 * m.toNat + 65536 * x.toNat) pec)) s)

/-- R67, R358 to R361, R471, R472, R511: the commands over regions and calibration. R512 to R514: the pass-through to the EEPROMs. Readings and
choices of the model: log entries 102, 155. -/
def Obligations.RegionCalibrationAndPassThrough : Prop :=
  (∀ w (c : Chan) s, targetUp s.dev = true → unlocked s.dev = true → soundBlock 0x13 w s.dev = true → w.data = [0, byteOf c.1] →
    s.dev.start.st = .run →
    ∃ t, exec (.armRegion w) s = .next t ∧ recorded 0x13 0 s.dev t.dev ∧ t.dev.check.arming = s.dev.check.arming ++ [.channel c] ∧ t.dev.chans = s.dev.chans ∧
      (s.dev.check.known = none → t.dev.sup.resDetail = 0) ∧
      (∀ n, s.dev.check.known = some (.channel c, n, s.dev.mode.active.toNat, s.dev.reload.count.toNat) → t.dev.sup.resDetail = BitVec.ofNat 32 n)) ∧
  (∀ w (q : Quad) s, targetUp s.dev = true → unlocked s.dev = true → soundBlock 0x13 w s.dev = true → w.data = [1, byteOf q.1] →
    s.dev.start.st = .run →
    ∃ t, exec (.armRegion w) s = .next t ∧ recorded 0x13 0 s.dev t.dev ∧ t.dev.check.arming = s.dev.check.arming ++ [.quadrant q] ∧ t.dev.quads = s.dev.quads) ∧
  (∀ w (c : Chan) s, targetUp s.dev = true → unlocked s.dev = true → soundBlock 0x13 w s.dev = true → w.data = [0, byteOf c.1] →
    s.dev.start.st = .configured → s.dev.start.latchAtStart = false →
    ∃ t, exec (.armRegion w) s = .next t ∧ recorded 0x13 0 s.dev t.dev ∧ t.dev.check.arming = s.dev.check.arming ++ [.channel c] ∧
      t.dev.chans = s.dev.chans ∧ t.dev.quads = s.dev.quads ∧ t.dev.start = s.dev.start) ∧
  (∀ w (q : Quad) s, targetUp s.dev = true → unlocked s.dev = true → soundBlock 0x13 w s.dev = true → w.data = [1, byteOf q.1] →
    s.dev.start.st = .configured → s.dev.start.latchAtStart = false →
    ∃ t, exec (.armRegion w) s = .next t ∧ recorded 0x13 0 s.dev t.dev ∧ t.dev.check.arming = s.dev.check.arming ++ [.quadrant q] ∧
      t.dev.chans = s.dev.chans ∧ t.dev.quads = s.dev.quads ∧ t.dev.start = s.dev.start) ∧
  (∀ w (c : Chan) s, targetUp s.dev = true → unlocked s.dev = true → soundBlock 0x13 w s.dev = true → w.data = [0, byteOf c.1] →
    s.dev.start.st ≠ .run → (s.dev.start.st ≠ .configured ∨ s.dev.start.latchAtStart = true) →
    ∃ t, exec (.armRegion w) s = .next t ∧ recorded 0x13 0x07 s.dev t.dev ∧ t.dev.check = s.dev.check) ∧
  (∀ w img (c : Chan) s, targetUp s.dev = true → unlocked s.dev = true → soundBlock 0x14 w s.dev = true →
    w.data = [byteOf (b2n img), 0, byteOf c.1] → s.dev.start.st = .run → reloadBusy s.dev = false → s.dev.cal.busy = false →
    ∃ t, exec (.reloadRegion w) s = .next t ∧ recorded 0x14 0 s.dev t.dev ∧ t.dev.reload.st = 1 ∧ t.dev.reload.image = img ∧
      t.dev.reload.quad = false ∧ t.dev.reload.obj = BitVec.ofNat 5 c.1 ∧ t.dev.bootp.want0 = some (.read img 0 64) ∧
      t.dev.memory = s.dev.memory) ∧
  (∀ w img (q : Quad) s, targetUp s.dev = true → unlocked s.dev = true → soundBlock 0x14 w s.dev = true →
    w.data = [byteOf (b2n img), 1, byteOf q.1] → s.dev.start.st = .run → reloadBusy s.dev = false → s.dev.cal.busy = false →
    ∃ t, exec (.reloadRegion w) s = .next t ∧ recorded 0x14 0 s.dev t.dev ∧ t.dev.reload.st = 1 ∧ t.dev.reload.image = img ∧
      t.dev.reload.quad = true ∧ t.dev.reload.obj = BitVec.ofNat 5 q.1 ∧ t.dev.bootp.want0 = some (.read img 0 64) ∧
      t.dev.memory = s.dev.memory) ∧
  (∀ w img (c : Chan) s, targetUp s.dev = true → unlocked s.dev = true → soundBlock 0x14 w s.dev = true →
    w.data = [byteOf (b2n img), 0, byteOf c.1] → s.dev.start.st = .run → (reloadBusy s.dev = true ∨ s.dev.cal.busy = true) →
    ∃ t, exec (.reloadRegion w) s = .next t ∧ recorded 0x14 0x06 s.dev t.dev ∧ t.dev.reload = s.dev.reload ∧ t.dev.bootp = s.dev.bootp) ∧
  (∀ w (m : Pm) o x r s, targetUp s.dev = true → unlocked s.dev = true → soundBlock 0x15 w s.dev = true →
    w.data = [byteOf m.1, byteOf o, byteOf x, byteOf r] → o ≤ 15 → x ≤ 0x3F → (r ≤ 31 ∨ r = 255) → tooLong s.dev m o = false →
    (s.dev.quads[Pm.quad m]).armed = true → (s.dev.mods[m]).injHost = none → calRuns s.dev = false →
    ∃ t, exec (.inject w) s = .next t ∧ recorded 0x15 0 s.dev t.dev ∧ (t.dev.mods[m]).injHost = some ⟨min 11 o, x, r⟩ ∧
      (t.dev.arbs[mport m]).pending.any (fun y => y.1 = 7) = true ∧ ∀ k : Pm, k ≠ m → t.dev.mods[k] = s.dev.mods[k]) ∧
  (∀ w (m : Pm) s, targetUp s.dev = true → unlocked s.dev = true → soundBlock 0x16 w s.dev = true → w.data = [byteOf m.1] →
    calForbidden s.dev m = false → calRuns s.dev = false → (s.dev.mods[m]).injHost = none → (s.dev.mods[m]).injNewt = none →
    ∃ t, exec (.calZero w) s = .next t ∧ recorded 0x16 0 s.dev t.dev ∧ t.dev.cal.step = 2 ∧ t.dev.cal.mod = BitVec.ofNat 7 m.1 ∧
      t.dev.cal.n = 0 ∧ (t.dev.arbs[mport m]).pending.any (fun y => y.1 = 9) = true) ∧
  (∀ w (m : Pm) s, targetUp s.dev = true → unlocked s.dev = true → soundBlock 0x16 w s.dev = true → w.data = [byteOf m.1] →
    calForbidden s.dev m = true →
    ∃ t, exec (.calZero w) s = .next t ∧ recorded 0x16 0x07 s.dev t.dev ∧ t.dev.cal = s.dev.cal) ∧
  (∀ w (m : Pm) a s, targetUp s.dev = true → unlocked s.dev = true → soundBlock 0x17 w s.dev = true →
    w.data = byteOf m.1 :: leBytes 4 a → 2 ^ 30 ≤ |signedOf (a % 2 ^ 32) 32| → calForbidden s.dev m = false → calRuns s.dev = false →
    zeroHeld s.dev m = true → (s.dev.mods[m]).injHost = none → (s.dev.mods[m]).injNewt = none →
    ∃ t, exec (.calFull w) s = .next t ∧ recorded 0x17 0 s.dev t.dev ∧ t.dev.cal.step = 4 ∧ t.dev.cal.applied = signedOf (a % 2 ^ 32) 32 ∧
      t.dev.cal.held = s.dev.cal.held) ∧
  (∀ w (m : Pm) a s, targetUp s.dev = true → unlocked s.dev = true → soundBlock 0x17 w s.dev = true →
    w.data = byteOf m.1 :: leBytes 4 a → 2 ^ 30 ≤ |signedOf (a % 2 ^ 32) 32| → calForbidden s.dev m = false → calRuns s.dev = false →
    zeroHeld s.dev m = false →
    ∃ t, exec (.calFull w) s = .next t ∧ recorded 0x17 0x0F s.dev t.dev ∧ t.dev.cal = s.dev.cal) ∧
  (∀ w s, targetUp s.dev = true → unlocked s.dev = true → soundBlock 0x18 w s.dev = true → w.data = [0] →
    s.dev.cal.busy = false → s.dev.reload.st ≠ 1 → s.dev.bootp.nvmOp = 0 → s.dev.memory.conf.wf = true →
    ∃ t, exec (.calCommit w) s = .next t ∧ recorded 0x18 0 s.dev t.dev ∧ t.dev.cal.busy = true ∧ t.dev.cal.commitA = 0 ∧ t.dev.cal.commitB = 0 ∧
      mword t.dev.memory.conf 0x28B00 = (mword s.dev.memory.mem 0x28B00 + 1) % 2 ^ 32 ∧ t.dev.bootp.want1 = some (.read false 0 64)) ∧
  (∀ w img off bs s, targetUp s.dev = true → unlocked s.dev = true → soundBlock 0x19 w s.dev = true →
    w.data = byteOf (b2n img) :: leBytes 3 off ++ bs → 1 ≤ bs.length → bs.length ≤ 64 → off + bs.length ≤ 262144 →
    off / 64 = (off + bs.length - 1) / 64 → (img = true ∨ s.dev.start.st ≠ .run) → nvmBusy s.dev img = false →
    ∃ t, exec (.nvmWrite w) s = .next t ∧ recorded 0x19 0 s.dev t.dev ∧ t.dev.bootp.nvmOp = 1 ∧ t.dev.bootp.nvmImage = img ∧
      t.dev.bootp.nvmOfs = BitVec.ofNat 18 off ∧ t.dev.bootp.nvmLen = BitVec.ofNat 7 bs.length ∧
      t.dev.bootp.want2 = some (.pageWrite img off bs) ∧ (t.dev.arbs[bport]).pending.any (fun y => y.1 = 2) = true) ∧
  (∀ w img off bs s, targetUp s.dev = true → unlocked s.dev = true → soundBlock 0x19 w s.dev = true →
    w.data = byteOf (b2n img) :: leBytes 3 off ++ bs → 1 ≤ bs.length → bs.length ≤ 64 → off < 2 ^ 24 →
    (262144 < off + bs.length ∨ off / 64 ≠ (off + bs.length - 1) / 64) →
    ∃ t, exec (.nvmWrite w) s = .next t ∧ recorded 0x19 0x08 s.dev t.dev ∧ t.dev.bootp = s.dev.bootp) ∧
  (∀ w off bs s, targetUp s.dev = true → unlocked s.dev = true → soundBlock 0x19 w s.dev = true →
    w.data = 0 :: leBytes 3 off ++ bs → 1 ≤ bs.length → bs.length ≤ 64 → off + bs.length ≤ 262144 →
    off / 64 = (off + bs.length - 1) / 64 → s.dev.start.st = .run →
    ∃ t, exec (.nvmWrite w) s = .next t ∧ recorded 0x19 0x07 s.dev t.dev ∧ t.dev.bootp = s.dev.bootp) ∧
  (∀ w img off n s, targetUp s.dev = true → unlocked s.dev = true → soundBlock 0x1A w s.dev = true →
    w.data = byteOf (b2n img) :: leBytes 3 off ++ [byteOf n] → 1 ≤ n → n ≤ 64 → off + n ≤ 262144 → nvmBusy s.dev img = false →
    ∃ t, exec (.nvmFetch w) s = .next t ∧ recorded 0x1A 0 s.dev t.dev ∧ t.dev.bootp.nvmOp = 2 ∧ t.dev.bootp.nvmImage = img ∧
      t.dev.bootp.nvmReady = false ∧ t.dev.bootp.want2 = some (.read img off (min n (65536 - off % 65536))) ∧
      t.dev.bootp.nvmParts = (if n ≤ 65536 - off % 65536 then []
        else [.read img (off + (65536 - off % 65536)) (n - (65536 - off % 65536))])) ∧
  (∀ w img off n s, targetUp s.dev = true → unlocked s.dev = true → soundBlock 0x1A w s.dev = true →
    w.data = byteOf (b2n img) :: leBytes 3 off ++ [byteOf n] → 1 ≤ n → n ≤ 64 → off + n ≤ 262144 → nvmBusy s.dev img = true →
    ∃ t, exec (.nvmFetch w) s = .next t ∧ recorded 0x1A 0x06 s.dev t.dev ∧ t.dev.bootp = s.dev.bootp)
end

