-- ==== Sys2Proof/Laws/Calm.lean ====
section
/-! SUPPORT. Sys2Proof/Laws/Calm.lean: a command that lets time pass, in a state in which no launch comes before its instant, is its meaning alone. -/

namespace Sys2Proof.Machine

/-- With no launch before its instant a meaning is applied as it stands. -/
theorem timed_calm {k : Nat} {f : Device → Device} {d : Device} (h : undisturbed k f d = true) : timed k f d = f d := by
  unfold timed launchBound withLaunches
  rw [if_pos h]

/-- A command that stands for a launch, none issued and none before its instant, is its meaning alone. -/
theorem launchRow_calm {a : LaunchAct} {f : Device → Device} {d : Device} (h : (!launchIssued a d && undisturbed a.order f d) = true) :
    launchRow a f d = f d := by
  simp only [Bool.and_eq_true, Bool.not_eq_true'] at h
  unfold launchRow
  rw [if_neg (by simp [h.1])]
  exact timed_calm h.2

/-- The re-arm, its launch not issued and none before its instant, is its meaning alone. -/
theorem rearmRow_calm {d : Device} (h : (!rearmIssued d && undisturbed 0 reloadRearm d) = true) : rearmRow d = reloadRearm d := by
  simp only [Bool.and_eq_true, Bool.not_eq_true'] at h
  unfold rearmRow
  rw [if_neg (by simp [h.1])]
  exact timed_calm h.2

theorem done_congr {f g : Device → Device} {s : State} (h : f s.dev = g s.dev) : done f s = done g s := by
  unfold done
  rw [h]

theorem execAckPollTimer_calm (s : State) (h : calm .ackPollTimer s.dev = true) :
    execAckPollTimer s = done ackPoll s :=
  done_congr (timed_calm h)
theorem execPageWriteTimeout_calm (s : State) (h : calm .pageWriteTimeout s.dev = true) :
    execPageWriteTimeout s = done pageTimeout s :=
  done_congr (timed_calm h)
theorem execBootSettleExpiry_calm (s : State) (h : calm .bootSettleExpiry s.dev = true) :
    execBootSettleExpiry s = done bootSettle s :=
  done_congr (timed_calm h)
theorem execNoImageRetry_calm (s : State) (h : calm .noImageRetry s.dev = true) :
    execNoImageRetry s = done noImageRetry s :=
  done_congr (timed_calm h)
theorem execCarrierReset_calm (r : Region) (s : State) (h : calm (.carrierReset r) s.dev = true) :
    execCarrierReset r s = done (carrierResetLaunch r) s :=
  done_congr (launchRow_calm h)
theorem execJoinTimeout_calm (s : State) (h : calm .joinTimeout s.dev = true) :
    execJoinTimeout s = done joinTimeout s :=
  done_congr (timed_calm h)
theorem execProposeTimeout_calm (s : State) (h : calm .proposeTimeout s.dev = true) :
    execProposeTimeout s = done proposeTimeout s :=
  done_congr (timed_calm h)
theorem execModeDisagreeTimer_calm (s : State) (h : calm .modeDisagreeTimer s.dev = true) :
    execModeDisagreeTimer s = done disagreeTimer s :=
  done_congr (timed_calm h)
theorem execModeSample_calm (v : BitVec 4) (s : State) (h : calm (.modeSample v) s.dev = true) :
    execModeSample v s = done (modeSample v) s :=
  done_congr (timed_calm h)
theorem execModeUnstableTimeout_calm (s : State) (h : calm .modeUnstableTimeout s.dev = true) :
    execModeUnstableTimeout s = done modeUnstable s :=
  done_congr (timed_calm h)
theorem execRunLaunch_calm (s : State) (h : calm .runLaunch s.dev = true) :
    execRunLaunch s = done runLaunch s :=
  done_congr (launchRow_calm h)
theorem execSvcPress8s_calm (s : State) (h : calm .svcPress8s s.dev = true) :
    execSvcPress8s s = done svcPress s :=
  done_congr (timed_calm h)
theorem execSvcRampDone_calm (s : State) (h : calm .svcRampDone s.dev = true) :
    execSvcRampDone s = done svcRampDone s :=
  done_congr (timed_calm h)
theorem execSvcHoldExpiry_calm (s : State) (h : calm .svcHoldExpiry s.dev = true) :
    execSvcHoldExpiry s = done svcHoldExpiry s :=
  done_congr (timed_calm h)
theorem execTimeFrameBoundary_calm (s : State) (h : calm .timeFrameBoundary s.dev = true) :
    execTimeFrameBoundary s = done frameBoundary s :=
  done_congr (timed_calm h)
theorem execInsertionSlot_calm (s : State) (h : calm .insertionSlot s.dev = true) :
    execInsertionSlot s = done insertionSlot s :=
  done_congr (timed_calm h)
theorem execJoinRetryTimer_calm (s : State) (h : calm .joinRetryTimer s.dev = true) :
    execJoinRetryTimer s = done joinRetry s :=
  done_congr (timed_calm h)
theorem execPresentTimer_calm (s : State) (h : calm .presentTimer s.dev = true) :
    execPresentTimer s = done presentTimer s :=
  done_congr (timed_calm h)
theorem execMemberDropTimeout_calm (id : Fin 16) (s : State) (h : calm (.memberDropTimeout id) s.dev = true) :
    execMemberDropTimeout id s = done (memberDrop id) s :=
  done_congr (timed_calm h)
theorem execLeaderLostTimeout_calm (s : State) (h : calm .leaderLostTimeout s.dev = true) :
    execLeaderLostTimeout s = done leaderLostTimeout s :=
  done_congr (timed_calm h)
theorem execDeputyTakeover_calm (s : State) (h : calm .deputyTakeover s.dev = true) :
    execDeputyTakeover s = done deputyTakeover s :=
  done_congr (timed_calm h)
theorem execHandbackSwitch_calm (s : State) (h : calm .handbackSwitch s.dev = true) :
    execHandbackSwitch s = done handbackSwitch s :=
  done_congr (timed_calm h)
theorem execRivalLeader_calm (s : State) (h : calm .rivalLeader s.dev = true) :
    execRivalLeader s = done rivalLeader s :=
  done_congr (timed_calm h)
theorem execHaltPredict_calm (s : State) (h : calm .haltPredict s.dev = true) :
    execHaltPredict s = done haltPredict s :=
  done_congr (timed_calm h)
theorem execHaltRampFix_calm (s : State) (h : calm .haltRampFix s.dev = true) :
    execHaltRampFix s = done haltRampFix s :=
  done_congr (timed_calm h)
theorem execHaltRampDown_calm (s : State) (h : calm .haltRampDown s.dev = true) :
    execHaltRampDown s = done haltRampDown s :=
  done_congr (timed_calm h)
theorem execQuietWindowStart_calm (s : State) (h : calm .quietWindowStart s.dev = true) :
    execQuietWindowStart s = done quietStart s :=
  done_congr (launchRow_calm h)
theorem execHaltConversionStart_calm (s : State) (h : calm .haltConversionStart s.dev = true) :
    execHaltConversionStart s = done conversionStart s :=
  done_congr (launchRow_calm h)
theorem execQuietWindowEnd_calm (s : State) (h : calm .quietWindowEnd s.dev = true) :
    execQuietWindowEnd s = done quietEnd s :=
  done_congr (launchRow_calm h)
theorem execReloadStopTimeout_calm (s : State) (h : calm .reloadStopTimeout s.dev = true) :
    execReloadStopTimeout s = done reloadStopTimeout s :=
  done_congr (timed_calm h)
theorem execReloadRearmLaunch_calm (s : State) (h : calm .reloadRearmLaunch s.dev = true) :
    execReloadRearmLaunch s = done reloadRearm s :=
  done_congr (rearmRow_calm h)
theorem execRampFactorUpdate_calm (s : State) (h : calm .rampFactorUpdate s.dev = true) :
    execRampFactorUpdate s = done rampFactorUpdate s :=
  done_congr (timed_calm h)
theorem execSoftStartTimeout_calm (c : Chan) (s : State) (h : calm (.softStartTimeout c) s.dev = true) :
    execSoftStartTimeout c s = done (softStartTimeout c (ssDue c s.dev)) s :=
  done_congr (timed_calm h)
theorem execCutEndTimer_calm (c : Chan) (s : State) (h : calm (.cutEndTimer c) s.dev = true) :
    execCutEndTimer c s = done (cutEnd c) s :=
  done_congr (timed_calm h)
theorem execPulseRampDown_calm (c : Chan) (s : State) (h : calm (.pulseRampDown c) s.dev = true) :
    execPulseRampDown c s = done (pulseRampDown c) s :=
  done_congr (timed_calm h)
theorem execRestStart_calm (c : Chan) (s : State) (h : calm (.restStart c) s.dev = true) :
    execRestStart c s = done (restStart c) s :=
  done_congr (launchRow_calm h)
theorem execRestSampleEnd_calm (c : Chan) (s : State) (h : calm (.restSampleEnd c) s.dev = true) :
    execRestSampleEnd c s = done (restSampleEnd c) s :=
  done_congr (timed_calm h)
theorem execRestEvaluation_calm (c : Chan) (s : State) (h : calm (.restEvaluation c) s.dev = true) :
    execRestEvaluation c s = done (restEvaluation c) s :=
  done_congr (timed_calm h)
theorem execRestEnd_calm (c : Chan) (s : State) (h : calm (.restEnd c) s.dev = true) :
    execRestEnd c s = done (restEnd c) s :=
  done_congr (timed_calm h)
theorem execRecTimeout_calm (c : Chan) (s : State) (h : calm (.recTimeout c) s.dev = true) :
    execRecTimeout c s = done (recTimeout c) s :=
  done_congr (timed_calm h)
theorem execFinTimeout_calm (c : Chan) (s : State) (h : calm (.finTimeout c) s.dev = true) :
    execFinTimeout c s = done (finTimeout c) s :=
  done_congr (timed_calm h)
theorem execKeepTimerExpiry_calm (c : Chan) (s : State) (h : calm (.keepTimerExpiry c) s.dev = true) :
    execKeepTimerExpiry c s = done (keepTimer c) s :=
  done_congr (timed_calm h)
theorem execStaggerDeal_calm (s : State) (h : calm .staggerDeal s.dev = true) :
    execStaggerDeal s = done staggerDeal s :=
  done_congr (timed_calm h)
theorem execStaggerFrameStart_calm (s : State) (h : calm .staggerFrameStart s.dev = true) :
    execStaggerFrameStart s = done staggerFrame s :=
  done_congr (timed_calm h)
theorem execStaggerGainUpdate_calm (s : State) (h : calm .staggerGainUpdate s.dev = true) :
    execStaggerGainUpdate s = done staggerGain s :=
  done_congr (timed_calm h)
theorem execCarrierValley_calm (t : Timer) (cmp : Cmp) (moved : Bool) (s : State) (h : calm (.carrierValley t cmp moved) s.dev = true) :
    execCarrierValley t cmp moved s = done (carrierValley t cmp moved) s :=
  done_congr (timed_calm h)
theorem execCarrierPeak_calm (c : Chan) (s : State) (h : calm (.carrierPeak c) s.dev = true) :
    execCarrierPeak c s = done (carrierPeak c) s :=
  done_congr (timed_calm h)
theorem execBlankingEnd_calm (n : Slot) (cmp : Cmp) (s : State) (h : calm (.blankingEnd n cmp) s.dev = true) :
    execBlankingEnd n cmp s = done (blankingEnd n cmp) s :=
  done_congr (timed_calm h)
theorem execUpperCrossing_calm (n : Slot) (pos : BitVec 20) (s : State) (h : calm (.upperCrossing n pos) s.dev = true) :
    execUpperCrossing n pos s = done (fun (d : Device) => upperCrossing n pos.toNat (waitPos n pos.toNat d)) s :=
  done_congr (timed_calm h)
theorem execTonMaxReached_calm (n : Slot) (cmp : Cmp) (s : State) (h : calm (.tonMaxReached n cmp) s.dev = true) :
    execTonMaxReached n cmp s = done (tonMaxReached n cmp) s :=
  done_congr (timed_calm h)
theorem execOnTimeLimit_calm (n : Slot) (cmp : Cmp) (s : State) (h : calm (.onTimeLimit n cmp) s.dev = true) :
    execOnTimeLimit n cmp s = done (onTimeLimit n cmp) s :=
  done_congr (timed_calm h)
theorem execDeadTimeEnd_calm (n : Slot) (s : State) (h : calm (.deadTimeEnd n) s.dev = true) :
    execDeadTimeEnd n s = done (deadTimeEnd n) s :=
  done_congr (timed_calm h)
theorem execLowerCrossing_calm (n : Slot) (pos : BitVec 20) (s : State) (h : calm (.lowerCrossing n pos) s.dev = true) :
    execLowerCrossing n pos s = done (fun (d : Device) => lowerCross n pos.toNat (waitPos n pos.toNat d)) s :=
  done_congr (timed_calm h)
theorem execYOffCount_calm (n : Slot) (s : State) (h : calm (.yOffCount n) s.dev = true) :
    execYOffCount n s = done (yOffCount n) s :=
  done_congr (timed_calm h)
theorem execSlopeCompStep_calm (n : Slot) (s : State) (h : calm (.slopeCompStep n) s.dev = true) :
    execSlopeCompStep n s = done (slopeStep n) s :=
  done_congr (timed_calm h)
theorem execBudgetUpdate_calm (s : State) (h : calm .budgetUpdate s.dev = true) :
    execBudgetUpdate s = done budgetUpdate s :=
  done_congr (timed_calm h)
theorem execVsysEvaluation_calm (s : State) (h : calm .vsysEvaluation s.dev = true) :
    execVsysEvaluation s = done vsysEvaluation s :=
  done_congr (timed_calm h)
theorem execSysFreshnessExpiry_calm (q : Quad) (s : State) (h : calm (.sysFreshnessExpiry q) s.dev = true) :
    execSysFreshnessExpiry q s = done (sysExpiry q) s :=
  done_congr (timed_calm h)
theorem execHandoverTimeout_calm (s : State) (h : calm .handoverTimeout s.dev = true) :
    execHandoverTimeout s = done handoverTimeout s :=
  done_congr (timed_calm h)
theorem execReturnTimeout_calm (s : State) (h : calm .returnTimeout s.dev = true) :
    execReturnTimeout s = done returnTimeout s :=
  done_congr (timed_calm h)
theorem execStuckOnTimeout_calm (c : Chan) (s : State) (h : calm (.stuckOnTimeout c) s.dev = true) :
    execStuckOnTimeout c s = done (fun (d : Device) => busEval (stuckOn c d)) s :=
  done_congr (timed_calm h)
theorem execQualTimerExpiry_calm (k : Src) (s : State) (h : calm (.qualTimerExpiry k) s.dev = true) :
    execQualTimerExpiry k s = done (qualTimer k) s :=
  done_congr (timed_calm h)
theorem execHalvingRelease_calm (s : State) (h : calm .halvingRelease s.dev = true) :
    execHalvingRelease s = done halvingRelease s :=
  done_congr (timed_calm h)
theorem execHalvingSustained_calm (s : State) (h : calm .halvingSustained s.dev = true) :
    execHalvingSustained s = done halvingSustained s :=
  done_congr (timed_calm h)
theorem execSourceGateCheckTimeout_calm (k : Src) (s : State) (h : calm (.sourceGateCheckTimeout k) s.dev = true) :
    execSourceGateCheckTimeout k s = done (srcCheckTimeout k) s :=
  done_congr (timed_calm h)
theorem execSourceStuckTimeout_calm (k : Src) (s : State) (h : calm (.sourceStuckTimeout k) s.dev = true) :
    execSourceStuckTimeout k s = done (srcStuck k) s :=
  done_congr (timed_calm h)
theorem execGateRampComplete_calm (g : Gate) (s : State) (h : calm (.gateRampComplete g) s.dev = true) :
    execGateRampComplete g s = done (gateRampDone g) s :=
  done_congr (timed_calm h)
theorem execPathGateCheckTimeout_calm (c : Chan) (s : State) (h : calm (.pathGateCheckTimeout c) s.dev = true) :
    execPathGateCheckTimeout c s = done (fun (d : Device) => busEval (pathCheckTimeout c d)) s :=
  done_congr (timed_calm h)
theorem execPresenceConfirmed_calm (c : Chan) (s : State) (h : calm (.presenceConfirmed c) s.dev = true) :
    execPresenceConfirmed c s = done (presenceConfirmed c) s :=
  done_congr (timed_calm h)
theorem execStringLowTimeout_calm (c : Chan) (s : State) (h : calm (.stringLowTimeout c) s.dev = true) :
    execStringLowTimeout c s = done (fun (d : Device) => busEval (stringLow c d)) s :=
  done_congr (timed_calm h)
theorem execRetryTimerExpiry_calm (c : Chan) (s : State) (h : calm (.retryTimerExpiry c) s.dev = true) :
    execRetryTimerExpiry c s = done (retryTimer c) s :=
  done_congr (timed_calm h)
theorem execCollapseHoldEnd_calm (c : Chan) (s : State) (h : calm (.collapseHoldEnd c) s.dev = true) :
    execCollapseHoldEnd c s = done (collapseEnd c) s :=
  done_congr (timed_calm h)
theorem execStreamResult_calm (m : Pm) (raw : BitVec 24) (ovr : Bool) (s : State) (h : calm (.streamResult m raw ovr) s.dev = true) :
    execStreamResult m raw ovr s = done (streamResult m raw.toInt ovr) s :=
  done_congr (timed_calm h)
theorem execSequencerDelayExpiry_calm (t : Table) (s : State) (h : calm (.sequencerDelayExpiry t) s.dev = true) :
    execSequencerDelayExpiry t s = done (seqDelay t) s :=
  done_congr (timed_calm h)
theorem execConversionDone_calm (m : Pm) (raw : BitVec 24) (ovr : Bool) (s : State) (h : calm (.conversionDone m raw ovr) s.dev = true) :
    execConversionDone m raw ovr s = done (conversionDone m raw.toInt ovr) s :=
  done_congr (timed_calm h)
theorem execSnapshotDone_calm (raws : Vector (BitVec 24) 88) (s : State) (h : calm (.snapshotDone raws) s.dev = true) :
    execSnapshotDone raws s = done (snapshotDone raws) s :=
  done_congr (timed_calm h)
theorem execReadbackTestDone_calm (q : Quad) (raw : BitVec 24) (idle : Cmp) (high : Cmp) (s : State) (h : calm (.readbackTestDone q raw idle high) s.dev = true) :
    execReadbackTestDone q raw idle high s = done (readbackDone q raw.toInt idle high) s :=
  done_congr (timed_calm h)
theorem execHkRoundStart_calm (s : State) (h : calm .hkRoundStart s.dev = true) :
    execHkRoundStart s = done hkRoundStart s :=
  done_congr (timed_calm h)
theorem execReferenceChangeLaunch_calm (s : State) (h : calm .referenceChangeLaunch s.dev = true) :
    execReferenceChangeLaunch s = done refChange s :=
  done_congr (timed_calm h)
theorem execNewtRequest_calm (s : State) (h : calm .newtRequest s.dev = true) :
    execNewtRequest s = done newtRequest s :=
  done_congr (timed_calm h)
theorem execScrubStep_calm (upsets : Fin 36) (s : State) (h : calm (.scrubStep upsets) s.dev = true) :
    execScrubStep upsets s = done (scrubStep upsets) s :=
  done_congr (timed_calm h)
theorem execCorrectionWindowExpiry_calm (bank : Fin 8) (row : Fin 576) (s : State) (h : calm (.correctionWindowExpiry bank row) s.dev = true) :
    execCorrectionWindowExpiry bank row s = done (correctionExpiry bank row) s :=
  done_congr (timed_calm h)
theorem execRecoveryGrant_calm (f : Fsrc) (s : State) (h : calm (.recoveryGrant f) s.dev = true) :
    execRecoveryGrant f s = done (recoveryGrant f) s :=
  done_congr (timed_calm h)
theorem execPromotionWindowEnd_calm (f : Fsrc) (s : State) (h : calm (.promotionWindowEnd f) s.dev = true) :
    execPromotionWindowEnd f s = done (promotionWindowEnd f) s :=
  done_congr (timed_calm h)
theorem execLogSecondEnd_calm (s : State) (h : calm .logSecondEnd s.dev = true) :
    execLogSecondEnd s = done logSecondEnd s :=
  done_congr (timed_calm h)
theorem execFiDurationExpiry_calm (s : State) (h : calm .fiDurationExpiry s.dev = true) :
    execFiDurationExpiry s = done (fun (d : Device) => busEval (fiExpiry d)) s :=
  done_congr (timed_calm h)
theorem execCaptureBufferComplete_calm (b : Fin 16) (s : State) (h : calm (.captureBufferComplete b) s.dev = true) :
    execCaptureBufferComplete b s = done (finishCapture b) s :=
  done_congr (timed_calm h)
theorem execUnlockExpiry_calm (s : State) (h : calm .unlockExpiry s.dev = true) :
    execUnlockExpiry s = done unlockExpiry s :=
  done_congr (timed_calm h)
theorem execLockoutEnd_calm (s : State) (h : calm .lockoutEnd s.dev = true) :
    execLockoutEnd s = done lockoutEnds s :=
  done_congr (timed_calm h)
theorem execPollRoundStart_calm (s : State) (h : calm .pollRoundStart s.dev = true) :
    execPollRoundStart s = done pollRound s :=
  done_congr (timed_calm h)
theorem execArbitrationBackoffEnd_calm (s : State) (h : calm .arbitrationBackoffEnd s.dev = true) :
    execArbitrationBackoffEnd s = done backoffEnd s :=
  done_congr (timed_calm h)

end Sys2Proof.Machine
end

