-- ==== Sys2Proof/Laws/Memory.lean ====
section
/-! SUPPORT. Sys2Proof/Laws/Memory.lean: the addressed bytes: read after write, and every memory operation keeps the canonical form. -/

namespace Sys2Proof.Machine

/-- Addresses strictly rising. -/
abbrev Rising (m : Memory) : Prop := m.Pairwise fun p q => p.1 < q.1

theorem wf_iff (m : Memory) : m.wf = true ↔ Rising m ∧ ∀ p ∈ m, p.2 ≠ 0 := by
  induction m with
  | nil => simp [Memory.wf]
  | cons p t ih =>
    cases t with
    | nil => simp [Memory.wf, Rising]
    | cons q t =>
      simp only [Memory.wf, Bool.and_eq_true, bne_iff_ne, decide_eq_true_eq, ih, Rising, List.pairwise_cons, List.mem_cons]
      constructor
      · rintro ⟨hp, hq, ⟨ht, hr⟩, hz⟩
        refine ⟨⟨?_, ht, hr⟩, ?_⟩
        · rintro x (rfl | hx)
          · exact hq
          · exact hq.trans (ht x hx)
        · rintro x (rfl | hx)
          · exact hp
          · exact hz x hx
      · rintro ⟨⟨h1, ht, hr⟩, hz⟩
        exact ⟨hz p (.inl rfl), h1 q (.inl rfl), ⟨ht, hr⟩, fun x hx => hz x (.inr hx)⟩

theorem wf_nil : Memory.wf [] = true := rfl

theorem filter_wf (m : Memory) (p : Host.Cell → Bool) (h : m.wf = true) : Memory.wf (m.filter p) = true := by
  rw [wf_iff] at *
  exact ⟨h.1.filter p, fun x hx => h.2 x (List.mem_filter.mp hx).1⟩

/-! ### One byte -/

theorem mset_mem (m : Memory) (a : Nat) (v : Byte) (p : Host.Cell) (h : p ∈ mset m a v) : p ∈ m ∨ (p = (a, v) ∧ v ≠ 0) := by
  induction m with
  | nil =>
    simp only [mset] at h
    split at h
    · cases h
    · exact .inr ⟨List.mem_singleton.mp h, ‹_›⟩
  | cons q t ih =>
    simp only [mset] at h
    split at h
    · split at h
      · exact .inl h
      · rcases List.mem_cons.mp h with h | h
        · exact .inr ⟨h, ‹_›⟩
        · exact .inl h
    · split at h
      · split at h
        · exact .inl (List.mem_cons_of_mem _ h)
        · rcases List.mem_cons.mp h with h | h
          · exact .inr ⟨h, ‹_›⟩
          · exact .inl (List.mem_cons_of_mem _ h)
      · rcases List.mem_cons.mp h with h | h
        · exact .inl (h ▸ List.mem_cons_self)
        · exact (ih h).imp (List.mem_cons_of_mem _) id

theorem mset_wf (m : Memory) (a : Nat) (v : Byte) (h : m.wf = true) : (mset m a v).wf = true := by
  rw [wf_iff] at *
  refine ⟨?_, fun p hp => ?_⟩
  · induction m with
    | nil => simp only [mset]; split <;> simp [Rising]
    | cons q t ih =>
      obtain ⟨hr, hz⟩ := h
      have hr' := List.pairwise_cons.mp hr
      have ih := ih ⟨hr'.2, fun p hp => hz p (List.mem_cons_of_mem _ hp)⟩
      simp only [mset]
      split
      · split
        · exact hr
        · refine List.pairwise_cons.mpr ⟨fun p hp => ?_, hr⟩
          rcases List.mem_cons.mp hp with rfl | hp
          · assumption
          · exact lt_trans ‹a < q.1› (hr'.1 p hp)
      · split
        · split
          · exact hr'.2
          · exact List.pairwise_cons.mpr ⟨fun p hp => by simpa [‹a = q.1›] using hr'.1 p hp, hr'.2⟩
        · refine List.pairwise_cons.mpr ⟨fun p hp => ?_, ih⟩
          rcases mset_mem t a v p hp with hp | ⟨rfl, -⟩
          · exact hr'.1 p hp
          · show q.1 < a; omega
  · rcases mset_mem m a v p hp with hp | ⟨rfl, hv⟩
    · exact h.2 p hp
    · exact hv

theorem mget_absent (m : Memory) (a : Nat) (h : ∀ p ∈ m, p.1 ≠ a) : mget m a = 0 := by
  induction m with
  | nil => rfl
  | cons q t ih =>
    have : a ≠ q.1 := fun e => h q List.mem_cons_self e.symm
    simp only [mget, this, if_false]
    exact ih fun p hp => h p (List.mem_cons_of_mem _ hp)

/-- The byte written is the byte read. -/
theorem mget_mset_same (m : Memory) (a : Nat) (v : Byte) (h : m.wf = true) : mget (mset m a v) a = v := by
  rw [wf_iff] at h
  induction m with
  | nil => simp only [mset]; split <;> simp_all [mget]
  | cons q t ih =>
    obtain ⟨hr, hz⟩ := h
    have hr' := List.pairwise_cons.mp hr
    have ih := ih ⟨hr'.2, fun p hp => hz p (List.mem_cons_of_mem _ hp)⟩
    simp only [mset]
    split
    · split
      · subst v
        exact mget_absent _ _ fun p hp => by
          rcases List.mem_cons.mp hp with rfl | hp
          · omega
          · have := hr'.1 p hp; omega
      · simp [mget]
    · split
      · split
        · subst v
          exact mget_absent _ _ fun p hp => by have := hr'.1 p hp; omega
        · simp [mget]
      · simp only [mget, ‹¬a = q.1›, if_false]
        exact ih

/-- A write leaves every other byte. -/
theorem mget_mset_other (m : Memory) (a b : Nat) (v : Byte) (hb : b ≠ a) (h : m.wf = true) : mget (mset m a v) b = mget m b := by
  rw [wf_iff] at h
  induction m with
  | nil => simp only [mset]; split <;> simp [mget, hb]
  | cons q t ih =>
    obtain ⟨hr, hz⟩ := h
    have hr' := List.pairwise_cons.mp hr
    have ih := ih ⟨hr'.2, fun p hp => hz p (List.mem_cons_of_mem _ hp)⟩
    simp only [mset]
    split
    · split
      · rfl
      · simp [mget, hb]
    · split
      · split
        · have hq : b ≠ q.1 := by omega
          simp [mget, hq]
        · have hq : b ≠ q.1 := by omega
          simp [mget, hb, hq]
      · simp only [mget, ih]

/-! ### Byte strings -/

theorem msets_wf (m : Memory) (a : Nat) (bs : List Byte) (h : m.wf = true) : (msets m a bs).wf = true := by
  induction bs generalizing m a with
  | nil => exact h
  | cons b bs ih => exact ih _ _ (mset_wf m a b h)

theorem msetw_wf (m : Memory) (a w : Nat) (h : m.wf = true) : (msetw m a w).wf = true := msets_wf _ _ _ h

theorem mget_msets_outside (m : Memory) (a : Nat) (bs : List Byte) (b : Nat) (hb : b < a ∨ a + bs.length ≤ b) (h : m.wf = true) :
    mget (msets m a bs) b = mget m b := by
  induction bs generalizing m a with
  | nil => rfl
  | cons x bs ih =>
    simp only [List.length_cons] at hb
    rw [msets, ih _ _ (by omega) (mset_wf m a x h), mget_mset_other m a b x (by omega) h]

theorem mget_msets_inside (m : Memory) (a : Nat) (bs : List Byte) (i : Nat) (hi : i < bs.length) (h : m.wf = true) :
    mget (msets m a bs) (a + i) = bs[i] := by
  induction bs generalizing m a i with
  | nil => simp at hi
  | cons x bs ih =>
    cases i with
    | zero => rw [msets, mget_msets_outside _ _ _ _ (by omega) (mset_wf m a x h)]; exact mget_mset_same m a x h
    | succ i =>
      have := ih (mset m a x) (a + 1) i (by simpa using hi) (mset_wf m a x h)
      rw [msets, show a + (i + 1) = a + 1 + i by omega, this]
      rfl

/-! ### Segments -/

/-- Every address of a memory lies in [lo, hi). -/
def Within (m : Memory) (lo hi : Nat) : Prop := ∀ p ∈ m, lo ≤ p.1 ∧ p.1 < hi

theorem mslice_within (m : Memory) (lo hi dst : Nat) : Within (mslice m lo hi dst) dst (dst + (hi - lo)) := by
  intro p hp
  simp only [mslice, List.mem_map, List.mem_filter, Bool.and_eq_true, decide_eq_true_eq] at hp
  obtain ⟨q, ⟨-, h1, h2⟩, rfl⟩ := hp
  simp only; omega

theorem mslice_wf (m : Memory) (lo hi dst : Nat) (h : m.wf = true) : (mslice m lo hi dst).wf = true := by
  have hf := filter_wf m (fun p => decide (lo ≤ p.1) && decide (p.1 < hi)) h
  rw [wf_iff] at hf ⊢
  refine ⟨?_, fun p hp => ?_⟩
  · refine List.pairwise_map.mpr (hf.1.imp_of_mem ?_)
    intro a b ha hb hab
    simp only [List.mem_filter, Bool.and_eq_true, decide_eq_true_eq] at ha hb
    simp only; omega
  · obtain ⟨q, hq, rfl⟩ := List.mem_map.mp hp
    exact hf.2 q hq

theorem mreplace_wf (m : Memory) (lo hi : Nat) (seg : Memory) (h : m.wf = true) (hs : seg.wf = true) (hw : Within seg lo hi) (hl : lo ≤ hi) :
    (mreplace m lo hi seg).wf = true := by
  have h1 := filter_wf m (fun p => decide (p.1 < lo)) h
  have h2 := filter_wf m (fun p => decide (hi ≤ p.1)) h
  rw [wf_iff] at h1 h2 hs ⊢
  refine ⟨?_, fun p hp => ?_⟩
  · refine List.pairwise_append.mpr ⟨List.pairwise_append.mpr ⟨h1.1, hs.1, ?_⟩, h2.1, ?_⟩
    · intro a ha b hb
      have := (List.mem_filter.mp ha).2
      have := hw b hb
      simp only [decide_eq_true_eq] at *; omega
    · intro a ha b hb
      have hb := (List.mem_filter.mp hb).2
      simp only [decide_eq_true_eq] at hb
      rcases List.mem_append.mp ha with ha | ha
      · have := (List.mem_filter.mp ha).2
        simp only [decide_eq_true_eq] at this; omega
      · have := hw a ha; omega
  · rcases List.mem_append.mp hp with hp | hp
    · rcases List.mem_append.mp hp with hp | hp
      · exact h1.2 p hp
      · exact hs.2 p hp
    · exact h2.2 p hp

theorem mofList_within (a : Nat) (bs : List Byte) : Within (mofList a bs) a (a + bs.length) := by
  induction bs generalizing a with
  | nil => intro p hp; cases hp
  | cons b bs ih =>
    intro p hp
    simp only [mofList] at hp
    split at hp
    · have := ih (a + 1) p hp; simp only [List.length_cons]; omega
    · rcases List.mem_cons.mp hp with rfl | hp
      · simp
      · have := ih (a + 1) p hp; simp only [List.length_cons]; omega

theorem mofList_wf (a : Nat) (bs : List Byte) : (mofList a bs).wf = true := by
  rw [wf_iff]
  induction bs generalizing a with
  | nil => simp [mofList, Rising]
  | cons b bs ih =>
    simp only [mofList]
    split
    · exact ih _
    · refine ⟨List.pairwise_cons.mpr ⟨fun p hp => ?_, (ih _).1⟩, fun p hp => ?_⟩
      · have := mofList_within (a + 1) bs p hp; simp only; omega
      · rcases List.mem_cons.mp hp with rfl | hp
        · assumption
        · exact (ih _).2 p hp

/-! ### Images, composition and the mirror -/

theorem foldl_wf {α : Type} (l : List α) (f : Memory → α → Memory) (hf : ∀ m a, m.wf = true → (f m a).wf = true) (m : Memory)
    (h : m.wf = true) : (l.foldl f m).wf = true := by
  induction l generalizing m with
  | nil => exact h
  | cons a l ih => exact ih _ (hf m a h)

theorem mrun_length (n a : Nat) (m : Memory) : (mrun n a m).length = n := by
  induction n generalizing a m with
  | zero => rfl
  | succ n ih =>
    cases m with
    | nil => simp [mrun, ih]
    | cons p t => simp only [mrun]; split <;> simp [ih]

theorem mdump_length (m : Memory) (a n : Nat) : (mdump m a n).length = n := mrun_length _ _ _

theorem placeSection_wf (m b : Memory) (e : DirEntry) (hb : b.wf = true) : (placeSection m b e).wf = true := by
  unfold placeSection
  split
  · exact hb
  · split
    · exact hb
    · refine mreplace_wf _ _ _ _ hb (mofList_wf _ _) ?_ (by omega)
      intro p hp
      have := mofList_within _ _ p hp
      rw [mdump_length] at this
      omega

theorem baseOf_wf (m : Memory) : (baseOf m).wf = true :=
  foldl_wf _ _ (fun b e hb => placeSection_wf m b e hb) _ wf_nil

theorem applyRec_wf (m : Memory) (r : Nat × Nat) (h : m.wf = true) : (applyRec m r).wf = true := by
  unfold applyRec
  split
  · exact h
  · exact msetw_wf _ _ _ h

theorem composeMem_wf (b : Memory) (l : List Ovl) (k : Nat) (h : b.wf = true) : (composeMem b l k).wf = true :=
  foldl_wf _ _ applyRec_wf _ h

theorem mirrorOf_wf (b : Memory) (l : List Ovl) (k : Nat) (h : b.wf = true) : (mirrorOf b l k).wf = true := by
  unfold mirrorOf
  refine foldl_wf _ _ (fun m a hm => ?_) _ (msets_wf _ _ _ (mreplace_wf _ _ _ _ (composeMem_wf b l k h) wf_nil (fun p hp => by cases hp) (by decide)))
  split
  · exact msets_wf _ _ _ hm
  · exact hm

theorem mergeBase_wf (b img : Memory) (l : List (Nat × Nat)) (hl : ∀ r ∈ l, r.1 ≤ r.2) (hb : b.wf = true) (hi : img.wf = true) :
    (mergeBase b img l).wf = true := by
  unfold mergeBase
  induction l generalizing b with
  | nil => exact hb
  | cons r l ih =>
    refine ih _ (fun x hx => hl x (List.mem_cons_of_mem _ hx)) (mreplace_wf _ _ _ _ hb (mslice_wf _ _ _ _ hi) ?_ (hl r List.mem_cons_self))
    intro p hp
    have := mslice_within _ _ _ _ p hp
    have := hl r List.mem_cons_self
    omega

end Sys2Proof.Machine
end

