-- ==== Sys2Proof/Laws/Keeps.lean ====
section
/-! SUPPORT. Sys2Proof/Laws/Keeps.lean: what an operation leaves unchanged. `Keeps S d e`: from d to e at most the kinds of state S change, and the
memories keep their canonical form, and no slot comes to have both outputs on. One lemma per record update here; one per operation in the files Laws/Keeps*.lean. -/

namespace Sys2Proof.Machine

structure Keeps (S : List Part) (d e : Device) : Prop where
  parts : onlyParts S d e
  mem : d.memOk → e.memOk
  apart : d.slotsApart → e.slotsApart

/-- Every kind of state of T is one of S. -/
def sub (T S : List Part) : Bool := T.all fun p => S.contains p

theorem Part.same_refl (p : Part) (d : Device) : p.same d d := by cases p <;> rfl

theorem Part.same_trans (p : Part) {d e f : Device} (h : p.same d e) (k : p.same e f) : p.same d f := by
  cases p <;> exact Eq.trans k h

theorem Keeps.refl (S : List Part) (d : Device) : Keeps S d d := ⟨fun p _ => (by cases p <;> rfl), id, id⟩

theorem Keeps.trans {S : List Part} {d e f : Device} (h : Keeps S d e) (k : Keeps S e f) : Keeps S d f :=
  ⟨fun p hp => p.same_trans (h.parts p hp) (k.parts p hp), fun hm => k.mem (h.mem hm),
    fun ha => k.apart (h.apart ha)⟩

theorem Keeps.mono {T S : List Part} {d e : Device} (h : Keeps T d e) (hs : sub T S = true) : Keeps S d e := by
  refine ⟨fun p hp => h.parts p ?_, h.mem, h.apart⟩
  by_contra hc
  simp only [sub, List.all_eq_true] at hs
  have hm := hs p (by simpa using hc)
  rw [hp] at hm
  cases hm

/-- An operation that changes T at most, after others that change S at most. -/
theorem Keeps.after {T S : List Part} {d e f : Device} (h : Keeps T e f) (k : Keeps S d e) (hs : sub T S = true) : Keeps S d f :=
  k.trans (h.mono hs)

theorem Keeps.ite {S : List Part} {d e f : Device} {c : Prop} [Decidable c] (h : Keeps S d e) (k : Keeps S d f) :
    Keeps S d (if c then e else f) := by split <;> assumption

/-- An intermediate device of an operation. -/
theorem Keeps.cut {S : List Part} {d e : Device} (x : Device) (h : Keeps S d x) (k : Keeps S d x → Keeps S d e) : Keeps S d e := k h

theorem Keeps.forEach {α : Type} {S : List Part} {l : List α} {f : α → Device → Device} {d e : Device}
    (hf : ∀ a e, Keeps S e (f a e)) (h : Keeps S d e) : Keeps S d (Sys2Proof.Machine.forEach l f e) := by
  unfold Sys2Proof.Machine.forEach
  induction l generalizing e with
  | nil => exact h
  | cons a l ih => exact ih (h.trans (hf a e))

theorem Keeps.when {S : List Part} {f : Device → Device} {b : Bool} {d e : Device}
    (hf : ∀ e, Keeps S e (f e)) (h : Keeps S d e) : Keeps S d (e.when b f) := by
  unfold Device.when
  split
  · exact h.trans (hf e)
  · exact h

/-- Every kind of state. -/
def everyPart : List Part :=
  [.start, .devState, .latch, .loader, .check, .button, .mode, .bootp, .arbs, .clk, .isl, .launches, .cvn, .halt, .slots] ++
  [.quads, .chans, .profs, .paths, .srcs, .bus, .stg, .mods, .seqs, .rings, .writers, .nobind, .cal, .therm] ++
  [.hk, .faults, .col, .log, .caps, .fi, .mem, .conf, .swaps, .reload, .sup, .alert, .free]

/-! ### One kind of state -/

theorem set_button_keeps : ∀ (d : Device) x, Keeps [.button] d { d with button := x } := fun _ _ =>
  ⟨fun p hp => (by cases p <;> first | rfl | cases hp), fun h => h, fun h => h⟩
theorem set_mode_keeps : ∀ (d : Device) x, Keeps [.mode] d { d with mode := x } := fun _ _ =>
  ⟨fun p hp => (by cases p <;> first | rfl | cases hp), fun h => h, fun h => h⟩
theorem set_arbs_keeps : ∀ (d : Device) x, Keeps [.arbs] d { d with arbs := x } := fun _ _ =>
  ⟨fun p hp => (by cases p <;> first | rfl | cases hp), fun h => h, fun h => h⟩
theorem set_clk_keeps : ∀ (d : Device) x, Keeps [.clk] d { d with clk := x } := fun _ _ =>
  ⟨fun p hp => (by cases p <;> first | rfl | cases hp), fun h => h, fun h => h⟩
theorem set_cvn_keeps : ∀ (d : Device) x, Keeps [.cvn] d { d with cvn := x } := fun _ _ =>
  ⟨fun p hp => (by cases p <;> first | rfl | cases hp), fun h => h, fun h => h⟩
theorem set_halt_keeps : ∀ (d : Device) x, Keeps [.halt] d { d with halt := x } := fun _ _ =>
  ⟨fun p hp => (by cases p <;> first | rfl | cases hp), fun h => h, fun h => h⟩
theorem set_slots_keeps {x : Vector SlotSt 136} (d : Device) (hx : d.slotsApart → ∀ n : Slot, (x[n]).apart = true) :
    Keeps [.slots] d { d with slots := x } :=
  ⟨fun p hp => (by cases p <;> first | rfl | cases hp), fun h => h, hx⟩
theorem map_apart (d : Device) (f : SlotSt → SlotSt) (hf : ∀ s, s.apart = true → (f s).apart = true) :
    d.slotsApart → ∀ n : Slot, ((d.slots.map f)[n]).apart = true := fun h n => by simpa using hf _ (h n)
theorem mapAll_apart (d : Device) (f : Slot → SlotSt → SlotSt) (hf : ∀ n s, s.apart = true → (f n s).apart = true) :
    d.slotsApart → ∀ n : Slot, ((mapAll d.slots f)[n]).apart = true := fun h n => by simpa [mapAll] using hf n _ (h n)
theorem set_quads_keeps : ∀ (d : Device) x, Keeps [.quads] d { d with quads := x } := fun _ _ =>
  ⟨fun p hp => (by cases p <;> first | rfl | cases hp), fun h => h, fun h => h⟩
theorem set_chans_keeps : ∀ (d : Device) x, Keeps [.chans] d { d with chans := x } := fun _ _ =>
  ⟨fun p hp => (by cases p <;> first | rfl | cases hp), fun h => h, fun h => h⟩
theorem set_profs_keeps : ∀ (d : Device) x, Keeps [.profs] d { d with profs := x } := fun _ _ =>
  ⟨fun p hp => (by cases p <;> first | rfl | cases hp), fun h => h, fun h => h⟩
theorem set_paths_keeps : ∀ (d : Device) x, Keeps [.paths] d { d with paths := x } := fun _ _ =>
  ⟨fun p hp => (by cases p <;> first | rfl | cases hp), fun h => h, fun h => h⟩
theorem set_srcs_keeps : ∀ (d : Device) x, Keeps [.srcs] d { d with srcs := x } := fun _ _ =>
  ⟨fun p hp => (by cases p <;> first | rfl | cases hp), fun h => h, fun h => h⟩
theorem set_bus_keeps : ∀ (d : Device) x, Keeps [.bus] d { d with bus := x } := fun _ _ =>
  ⟨fun p hp => (by cases p <;> first | rfl | cases hp), fun h => h, fun h => h⟩
theorem set_stg_keeps : ∀ (d : Device) x, Keeps [.stg] d { d with stg := x } := fun _ _ =>
  ⟨fun p hp => (by cases p <;> first | rfl | cases hp), fun h => h, fun h => h⟩
theorem set_mods_keeps : ∀ (d : Device) x, Keeps [.mods] d { d with mods := x } := fun _ _ =>
  ⟨fun p hp => (by cases p <;> first | rfl | cases hp), fun h => h, fun h => h⟩
theorem set_seqs_keeps : ∀ (d : Device) x, Keeps [.seqs] d { d with seqs := x } := fun _ _ =>
  ⟨fun p hp => (by cases p <;> first | rfl | cases hp), fun h => h, fun h => h⟩
theorem set_rings_keeps : ∀ (d : Device) x, Keeps [.rings] d { d with rings := x } := fun _ _ =>
  ⟨fun p hp => (by cases p <;> first | rfl | cases hp), fun h => h, fun h => h⟩
theorem set_writers_keeps : ∀ (d : Device) x, Keeps [.writers] d { d with writers := x } := fun _ _ =>
  ⟨fun p hp => (by cases p <;> first | rfl | cases hp), fun h => h, fun h => h⟩
theorem set_nobind_keeps : ∀ (d : Device) x, Keeps [.nobind] d { d with nobind := x } := fun _ _ =>
  ⟨fun p hp => (by cases p <;> first | rfl | cases hp), fun h => h, fun h => h⟩
theorem set_cal_keeps : ∀ (d : Device) x, Keeps [.cal] d { d with cal := x } := fun _ _ =>
  ⟨fun p hp => (by cases p <;> first | rfl | cases hp), fun h => h, fun h => h⟩
theorem set_therm_keeps : ∀ (d : Device) x, Keeps [.therm] d { d with therm := x } := fun _ _ =>
  ⟨fun p hp => (by cases p <;> first | rfl | cases hp), fun h => h, fun h => h⟩
theorem set_hk_keeps : ∀ (d : Device) x, Keeps [.hk] d { d with hk := x } := fun _ _ =>
  ⟨fun p hp => (by cases p <;> first | rfl | cases hp), fun h => h, fun h => h⟩
theorem set_faults_keeps : ∀ (d : Device) x, Keeps [.faults] d { d with faults := x } := fun _ _ =>
  ⟨fun p hp => (by cases p <;> first | rfl | cases hp), fun h => h, fun h => h⟩
theorem set_check_keeps : ∀ (d : Device) x, Keeps [.check] d { d with check := x } := fun _ _ =>
  ⟨fun p hp => (by cases p <;> first | rfl | cases hp), fun h => h, fun h => h⟩
theorem set_free_keeps : ∀ (d : Device) x, Keeps [.free] d { d with free := x } := fun _ _ =>
  ⟨fun p hp => (by cases p <;> first | rfl | cases hp), fun h => h, fun h => h⟩
theorem set_pins_keeps : ∀ (d : Device) x, Keeps [] d { d with pins := x } := fun d _ =>
  ⟨fun p _ => (by cases p <;> rfl), fun h => h, fun h => h⟩
theorem updSlot_keeps {f : SlotSt → SlotSt} (n : Slot) (d : Device) (hf : ∀ s, s.apart = true → (f s).apart = true) :
    Keeps [.slots] d (d.updSlot n f) := set_slots_keeps d fun h k => by
  unfold upd
  by_cases e : (n : Nat) = k
  · simp [e]; exact hf _ (h k)
  · simp [e]; exact h k
theorem updQuad_keeps : ∀ n f (d : Device), Keeps [.quads] d (d.updQuad n f) := fun _ _ _ => set_quads_keeps _ _
theorem updChan_keeps : ∀ n f (d : Device), Keeps [.chans] d (d.updChan n f) := fun _ _ _ => set_chans_keeps _ _
theorem updProf_keeps : ∀ n f (d : Device), Keeps [.profs] d (d.updProf n f) := fun _ _ _ => set_profs_keeps _ _
theorem updPath_keeps : ∀ n f (d : Device), Keeps [.paths] d (d.updPath n f) := fun _ _ _ => set_paths_keeps _ _
theorem updSrc_keeps : ∀ n f (d : Device), Keeps [.srcs] d (d.updSrc n f) := fun _ _ _ => set_srcs_keeps _ _
theorem updMod_keeps : ∀ n f (d : Device), Keeps [.mods] d (d.updMod n f) := fun _ _ _ => set_mods_keeps _ _
theorem updSeq_keeps : ∀ n f (d : Device), Keeps [.seqs] d (d.updSeq n f) := fun _ _ _ => set_seqs_keeps _ _
theorem updRing_keeps : ∀ n f (d : Device), Keeps [.rings] d (d.updRing n f) := fun _ _ _ => set_rings_keeps _ _
theorem updTherm_keeps : ∀ n f (d : Device), Keeps [.therm] d (d.updTherm n f) := fun _ _ _ => set_therm_keeps _ _
theorem updFault_keeps : ∀ n f (d : Device), Keeps [.faults] d (d.updFault n f) := fun _ _ _ => set_faults_keeps _ _
theorem updArb_keeps : ∀ n f (d : Device), Keeps [.arbs] d (d.updArb n f) := fun _ _ _ => set_arbs_keeps _ _
theorem updCvn_keeps : ∀ f (d : Device), Keeps [.cvn] d (d.updCvn f) := fun _ _ => set_cvn_keeps _ _
theorem updHalt_keeps : ∀ f (d : Device), Keeps [.halt] d (d.updHalt f) := fun _ _ => set_halt_keeps _ _
theorem updMode_keeps : ∀ f (d : Device), Keeps [.mode] d (d.updMode f) := fun _ _ => set_mode_keeps _ _
theorem updHk_keeps : ∀ f (d : Device), Keeps [.hk] d (d.updHk f) := fun _ _ => set_hk_keeps _ _
theorem updBus_keeps : ∀ f (d : Device), Keeps [.bus] d (d.updBus f) := fun _ _ => set_bus_keeps _ _
theorem updStg_keeps : ∀ f (d : Device), Keeps [.stg] d (d.updStg f) := fun _ _ => set_stg_keeps _ _
theorem updCal_keeps : ∀ f (d : Device), Keeps [.cal] d (d.updCal f) := fun _ _ => set_cal_keeps _ _
theorem updCheck_keeps : ∀ f (d : Device), Keeps [.check] d (d.updCheck f) := fun _ _ => set_check_keeps _ _

/-! ### Records of several kinds of state, or with a memory -/

def StartKeeps (S : List Part) (s t : Start) : Prop :=
  (S.contains .start = false → t.rest = s.rest) ∧ (S.contains .devState = false → t.st = s.st) ∧
    (S.contains .latch = false → (t.latchAtStart, t.modeUnstable) = (s.latchAtStart, s.modeUnstable))

theorem set_start_keeps {S : List Part} {x : Start} (d : Device) (hx : StartKeeps S d.start x) : Keeps S d { d with start := x } :=
  ⟨fun p hp => (by cases p <;> first | rfl | exact hx.1 hp | exact hx.2.1 hp | exact hx.2.2 hp), fun h => h, fun h => h⟩

theorem updStart_keeps {S : List Part} {f : Start → Start} (d : Device) (hf : ∀ s, StartKeeps S s (f s)) : Keeps S d (d.updStart f) :=
  set_start_keeps d (hf _)

def ColKeeps (S : List Part) (s t : Collector) : Prop :=
  (S.contains .col = false → t.rest = s.rest) ∧
  (S.contains .log = false → (t.logWr, t.logRd, t.logOvw, t.logLost, t.logSeq, t.logQ, t.logCyc) =
    (s.logWr, s.logRd, s.logOvw, s.logLost, s.logSeq, s.logQ, s.logCyc)) ∧
  (S.contains .caps = false → (t.capBusy, t.capFull, t.capMissed, t.caps, t.capQ) = (s.capBusy, s.capFull, s.capMissed, s.caps, s.capQ)) ∧
  (S.contains .fi = false → (t.fiRsN, t.fiRsReg, t.fiPec, t.fiCrc, t.fiFsrc, t.fiMode, t.fiMs, t.fiAt) =
    (s.fiRsN, s.fiRsReg, s.fiPec, s.fiCrc, s.fiFsrc, s.fiMode, s.fiMs, s.fiAt))

theorem set_col_keeps {S : List Part} {x : Collector} (d : Device) (hx : ColKeeps S d.col x) : Keeps S d { d with col := x } :=
  ⟨fun p hp => (by cases p <;> first | rfl | exact hx.1 hp | exact hx.2.1 hp | exact hx.2.2.1 hp | exact hx.2.2.2 hp), fun h => h, fun h => h⟩

theorem updCol_keeps {S : List Part} {f : Collector → Collector} (d : Device) (hf : ∀ s, ColKeeps S s (f s)) : Keeps S d (d.updCol f) :=
  set_col_keeps d (hf _)

def IslKeeps (S : List Part) (s t : Islands) : Prop :=
  (S.contains .isl = false → t.rest = s.rest) ∧ (S.contains .launches = false → (t.launches, t.clkRun) = (s.launches, s.clkRun))

theorem set_isl_keeps {S : List Part} {x : Islands} (d : Device) (hx : IslKeeps S d.isl x) : Keeps S d { d with isl := x } :=
  ⟨fun p hp => (by cases p <;> first | rfl | exact hx.1 hp | exact hx.2 hp), fun h => h, fun h => h⟩

theorem updIsl_keeps {S : List Part} {f : Islands → Islands} (d : Device) (hf : ∀ s, IslKeeps S s (f s)) : Keeps S d (d.updIsl f) :=
  set_isl_keeps d (hf _)

def SupKeeps (S : List Part) (s t : SupSt) : Prop :=
  (S.contains .sup = false → t.rest = s.rest) ∧
  (S.contains .alert = false → (t.alert, t.alertFsrc, t.alertRings, t.alertDrive) = (s.alert, s.alertFsrc, s.alertRings, s.alertDrive))

theorem set_sup_keeps {S : List Part} {x : SupSt} (d : Device) (hx : SupKeeps S d.sup x) : Keeps S d { d with sup := x } :=
  ⟨fun p hp => (by cases p <;> first | rfl | exact hx.1 hp | exact hx.2 hp), fun h => h, fun h => h⟩

theorem updSup_keeps {S : List Part} {f : SupSt → SupSt} (d : Device) (hf : ∀ s, SupKeeps S s (f s)) : Keeps S d (d.updSup f) :=
  set_sup_keeps d (hf _)

def MemKeeps (S : List Part) (s t : MemSt) : Prop :=
  (S.contains .mem = false → t.rest = s.rest) ∧ (S.contains .conf = false → t.conf = s.conf) ∧ (S.contains .swaps = false → t.swaps = s.swaps)

theorem updMem_keeps {S : List Part} {f : MemSt → MemSt} (d : Device) (hf : ∀ s, MemKeeps S s (f s))
    (hm : d.memOk → (f d.memory).mem.wf = true ∧ (f d.memory).conf.wf = true) : Keeps S d (d.updMem f) :=
  ⟨fun p hp => (by cases p <;> first | rfl | exact (hf _).1 hp | exact (hf _).2.1 hp | exact (hf _).2.2 hp), fun h => ⟨(hm h).1, (hm h).2, h.2.2⟩, fun h => h⟩

/-- The configuration in force is composed anew, from the base configuration of an earlier device. -/
theorem setConf_keeps {S : List Part} (d e : Device) (k : Keeps S d e) (hs : sub [.conf] S = true) (f : MemSt → MemSt)
    (hr : ∀ s, (f s).rest = s.rest) (hw : ∀ s, (f s).swaps = s.swaps) (hc : d.memOk → (f e.memory).conf.wf = true) : Keeps S d (e.updMem f) := by
  refine ⟨fun p hp => p.same_trans (k.parts p hp) ?_, fun h => ⟨?_, hc h, (k.mem h).2.2⟩, k.apart⟩
  · have hp' : p ≠ .conf := by
      rintro rfl
      simp only [sub, List.all_cons, List.all_nil, Bool.and_true, hp] at hs
      cases hs
    cases p
    case mem => exact hr _
    case swaps => exact hw _
    case conf => exact absurd rfl hp'
    all_goals rfl
  · have := congrArg MemSt.mem (hr e.memory)
    exact this ▸ (k.mem h).1

theorem set_loader_keeps {x : Loader} (d : Device) (hx : d.memOk → x.base.wf = true) : Keeps [.loader] d { d with loader := x } :=
  ⟨fun p hp => (by cases p <;> first | rfl | cases hp), fun h => ⟨h.1, h.2.1, hx h, h.2.2.2⟩, fun h => h⟩

theorem updLoader_keeps {f : Loader → Loader} (d : Device) (hf : ∀ l, l.base.wf = true → (f l).base.wf = true) :
    Keeps [.loader] d (d.updLoader f) := set_loader_keeps d fun h => hf _ h.2.2.1

theorem set_bootp_keeps : ∀ (d : Device) x, Keeps [.bootp] d { d with bootp := x } := fun _ _ =>
  ⟨fun p hp => (by cases p <;> first | rfl | cases hp), fun h => h, fun h => h⟩

theorem updBoot_keeps : ∀ f (d : Device), Keeps [.bootp] d (d.updBoot f) := fun _ _ => set_bootp_keeps _ _

theorem set_reload_keeps {x : ReloadSt} (d : Device) (hx : d.memOk → x.newBase.wf = true) : Keeps [.reload] d { d with reload := x } :=
  ⟨fun p hp => (by cases p <;> first | rfl | cases hp), fun h => ⟨h.1, h.2.1, h.2.2.1, hx h⟩, fun h => h⟩

theorem updReload_keeps {f : ReloadSt → ReloadSt} (d : Device) (hf : ∀ r, r.newBase.wf = true → (f r).newBase.wf = true) :
    Keeps [.reload] d (d.updReload f) := set_reload_keeps d fun h => hf _ h.2.2.2

theorem updReload_keeps' {f : ReloadSt → ReloadSt} (d : Device) (hf : d.memOk → (f d.reload).newBase.wf = true) :
    Keeps [.reload] d (d.updReload f) := set_reload_keeps d hf

theorem Keeps.drive {S : List Part} {d e : Device} (h : Keeps S d e) : Keeps S d (Sys2Proof.Machine.drive e) :=
  (set_pins_keeps e _).after h rfl

theorem Keeps.drawBool {S : List Part} {k : Bool → Device → Device} {d e : Device}
    (hk : ∀ b e, Keeps S e (k b e)) (h : Keeps S d e) (hs : sub [.free] S = true) : Keeps S d (Sys2Proof.Machine.drawBool k e) :=
  ((set_free_keeps e _).after h hs).trans (hk _ _)
end Sys2Proof.Machine
end

