-- ==== Sys2Proof/Laws/Keeps1.lean ====
section
/-! SUPPORT. Sys2Proof/Laws/Keeps1.lean: what each operation of the model leaves unchanged (one lemma per operation, in the order of their use). -/

namespace Sys2Proof.Machine

set_option linter.unusedTactic false
set_option linter.unreachableTactic false
set_option linter.unusedVariables false

theorem abandonRest_keeps : ∀ a1 d, Keeps [.profs] d (abandonRest a1 d) := by
  intro a1 d
  unfold abandonRest
  repeat' first
    | with_reducible exact Keeps.refl _ _
    | with_reducible assumption
    | ((try lift_lets); intro x; first | (refine Keeps.cut x ?_ ?_; (on_goal 1 => subst x); (on_goal 2 => (clear_value x; intro hx))) | (have hf := fun a => x a; clear hf; subst x) | clear_value x)
    | with_reducible refine (updProf_keeps ..).after ?_ (by decide)
    | with_reducible refine Keeps.ite ?_ ?_
    | split

theorem arbRelease_keeps : ∀ a1 a2 d, Keeps [.arbs] d (arbRelease a1 a2 d) := by
  intro a1 a2 d
  unfold arbRelease
  repeat' first
    | with_reducible exact Keeps.refl _ _
    | with_reducible assumption
    | ((try lift_lets); intro x; first | (refine Keeps.cut x ?_ ?_; (on_goal 1 => subst x); (on_goal 2 => (clear_value x; intro hx))) | (have hf := fun a => x a; clear hf; subst x) | clear_value x)
    | with_reducible refine (updArb_keeps ..).after ?_ (by decide)
    | with_reducible refine Keeps.ite ?_ ?_
    | split

theorem arbWithdraw_keeps : ∀ a1 a2 d, Keeps [.arbs] d (arbWithdraw a1 a2 d) := by
  intro a1 a2 d
  unfold arbWithdraw
  repeat' first
    | with_reducible exact Keeps.refl _ _
    | with_reducible assumption
    | ((try lift_lets); intro x; first | (refine Keeps.cut x ?_ ?_; (on_goal 1 => subst x); (on_goal 2 => (clear_value x; intro hx))) | (have hf := fun a => x a; clear hf; subst x) | clear_value x)
    | with_reducible refine (updArb_keeps ..).after ?_ (by decide)
    | with_reducible refine Keeps.ite ?_ ?_
    | split

theorem hlGiveUp_keeps : ∀ a1 d, Keeps [.arbs, .mods, .seqs] d (hlGiveUp a1 d) := by
  intro a1 d
  unfold hlGiveUp
  repeat' first
    | with_reducible exact Keeps.refl _ _
    | with_reducible assumption
    | ((try lift_lets); intro x; first | (refine Keeps.cut x ?_ ?_; (on_goal 1 => subst x); (on_goal 2 => (clear_value x; intro hx))) | (have hf := fun a => x a; clear hf; subst x) | clear_value x)
    | with_reducible refine (arbRelease_keeps ..).after ?_ (by decide)
    | with_reducible refine (arbWithdraw_keeps ..).after ?_ (by decide)
    | with_reducible refine (updSeq_keeps ..).after ?_ (by decide)
    | with_reducible refine (updMod_keeps ..).after ?_ (by decide)
    | with_reducible refine Keeps.ite ?_ ?_
    | split

theorem hlForget_keeps : ∀ a1 d, Keeps [.arbs, .mods, .seqs] d (hlForget a1 d) := by
  intro a1 d
  unfold hlForget
  repeat' first
    | with_reducible exact Keeps.refl _ _
    | with_reducible assumption
    | ((try lift_lets); intro x; first | (refine Keeps.cut x ?_ ?_; (on_goal 1 => subst x); (on_goal 2 => (clear_value x; intro hx))) | (have hf := fun a => x a; clear hf; subst x) | clear_value x)
    | with_reducible refine (hlGiveUp_keeps ..).after ?_ (by decide)
    | with_reducible refine (updSeq_keeps ..).after ?_ (by decide)
    | with_reducible refine Keeps.forEach (fun _ _ => ?_) ?_
    | with_reducible refine Keeps.ite ?_ ?_
    | split

theorem dropHalt_keeps : ∀ d, Keeps [.arbs, .halt, .mods, .seqs] d (dropHalt d) := by
  intro d
  unfold dropHalt
  repeat' first
    | with_reducible exact Keeps.refl _ _
    | with_reducible assumption
    | ((try lift_lets); intro x; first | (refine Keeps.cut x ?_ ?_; (on_goal 1 => subst x); (on_goal 2 => (clear_value x; intro hx))) | (have hf := fun a => x a; clear hf; subst x) | clear_value x)
    | with_reducible refine (hlForget_keeps ..).after ?_ (by decide)
    | with_reducible refine (updHalt_keeps ..).after ?_ (by decide)
    | with_reducible refine Keeps.ite ?_ ?_
    | split

theorem leaveAlone_keeps : ∀ d, Keeps [.arbs, .halt, .mods, .seqs] d (leaveAlone d) := by
  intro d
  unfold leaveAlone
  repeat' first
    | with_reducible exact Keeps.refl _ _
    | with_reducible assumption
    | ((try lift_lets); intro x; first | (refine Keeps.cut x ?_ ?_; (on_goal 1 => subst x); (on_goal 2 => (clear_value x; intro hx))) | (have hf := fun a => x a; clear hf; subst x) | clear_value x)
    | with_reducible refine (dropHalt_keeps ..).after ?_ (by decide)
    | with_reducible refine Keeps.ite ?_ ?_
    | split

theorem arbRequest_keeps : ∀ a1 a2 d, Keeps [.arbs] d (arbRequest a1 a2 d) := by
  intro a1 a2 d
  unfold arbRequest
  repeat' first
    | with_reducible exact Keeps.refl _ _
    | with_reducible assumption
    | ((try lift_lets); intro x; first | (refine Keeps.cut x ?_ ?_; (on_goal 1 => subst x); (on_goal 2 => (clear_value x; intro hx))) | (have hf := fun a => x a; clear hf; subst x) | clear_value x)
    | with_reducible refine (updArb_keeps ..).after ?_ (by decide)
    | with_reducible refine Keeps.ite ?_ ?_
    | split

theorem logQueue_keeps : ∀ a1 a2 a3 d, Keeps [.arbs, .log] d (logQueue a1 a2 a3 d) := by
  intro a1 a2 a3 d
  unfold logQueue
  repeat' first
    | with_reducible exact Keeps.refl _ _
    | with_reducible assumption
    | ((try lift_lets); intro x; first | (refine Keeps.cut x ?_ ?_; (on_goal 1 => subst x); (on_goal 2 => (clear_value x; intro hx))) | (have hf := fun a => x a; clear hf; subst x) | clear_value x)
    | with_reducible refine (arbRequest_keeps ..).after ?_ (by decide)
    | with_reducible refine (updCol_keeps (S := [.log]) _ ?_).after ?_ (by decide)
    | with_reducible refine Keeps.ite ?_ ?_
    | (intro s; refine ⟨fun h => ?_, fun h => ?_, fun h => ?_, fun h => ?_⟩ <;> first | rfl | (cases h; done) | (split <;> rfl) | (simp; done))
    | (refine ⟨fun h => ?_, fun h => ?_, fun h => ?_, fun h => ?_⟩ <;> first | rfl | (cases h; done) | (split <;> rfl) | (simp; done))
    | split

theorem logPush_keeps : ∀ a1 a2 a3 a4 a5 a6 d, Keeps [.arbs, .log] d (logPush a1 a2 a3 a4 a5 a6 d) := by
  intro a1 a2 a3 a4 a5 a6 d
  unfold logPush
  repeat' first
    | with_reducible exact Keeps.refl _ _
    | with_reducible assumption
    | ((try lift_lets); intro x; first | (refine Keeps.cut x ?_ ?_; (on_goal 1 => subst x); (on_goal 2 => (clear_value x; intro hx))) | (have hf := fun a => x a; clear hf; subst x) | clear_value x)
    | with_reducible refine (logQueue_keeps ..).after ?_ (by decide)
    | with_reducible refine Keeps.ite ?_ ?_
    | split

theorem logEvent_keeps : ∀ a1 a2 a3 a4 d, Keeps [.arbs, .log] d (logEvent a1 a2 a3 a4 d) := by
  intro a1 a2 a3 a4 d
  unfold logEvent
  repeat' first
    | with_reducible exact Keeps.refl _ _
    | with_reducible assumption
    | ((try lift_lets); intro x; first | (refine Keeps.cut x ?_ ?_; (on_goal 1 => subst x); (on_goal 2 => (clear_value x; intro hx))) | (have hf := fun a => x a; clear hf; subst x) | clear_value x)
    | with_reducible refine (logPush_keeps ..).after ?_ (by decide)
    | with_reducible refine Keeps.ite ?_ ?_
    | split

theorem send_keeps : ∀ a1 a2 d, Keeps [.isl] d (send a1 a2 d) := by
  intro a1 a2 d
  unfold send
  repeat' first
    | with_reducible exact Keeps.refl _ _
    | with_reducible assumption
    | ((try lift_lets); intro x; first | (refine Keeps.cut x ?_ ?_; (on_goal 1 => subst x); (on_goal 2 => (clear_value x; intro hx))) | (have hf := fun a => x a; clear hf; subst x) | clear_value x)
    | with_reducible refine (updIsl_keeps (S := [.isl]) _ ?_).after ?_ (by decide)
    | with_reducible refine Keeps.ite ?_ ?_
    | (intro s; refine ⟨fun h => ?_, fun h => ?_⟩ <;> first | rfl | (cases h; done) | (split <;> rfl) | (simp; done))
    | (refine ⟨fun h => ?_, fun h => ?_⟩ <;> first | rfl | (cases h; done) | (split <;> rfl) | (simp; done))
    | split

theorem Keeps.toHouse {S : List Part} {q : Quad} {m : Msg} {f : Device → Device} {d e : Device} (hf : ∀ e, Keeps S e (f e)) (h : Keeps S d e)
    (hs : sub [.isl] S = true) : Keeps S d (Sys2Proof.Machine.toHouse q m f e) := by
  unfold Sys2Proof.Machine.toHouse
  exact Keeps.ite ((send_keeps ..).after h hs) (h.trans (hf e))

theorem quadEvent_keeps : ∀ a1 a2 a3 a4 a5 d, Keeps [.arbs, .isl, .log] d (quadEvent a1 a2 a3 a4 a5 d) := by
  intro a1 a2 a3 a4 a5 d
  unfold quadEvent
  repeat' first
    | with_reducible exact Keeps.refl _ _
    | with_reducible assumption
    | ((try lift_lets); intro x; first | (refine Keeps.cut x ?_ ?_; (on_goal 1 => subst x); (on_goal 2 => (clear_value x; intro hx))) | (have hf := fun a => x a; clear hf; subst x) | clear_value x)
    | with_reducible refine Keeps.toHouse (fun _ => ?_) ?_ (by decide)
    | with_reducible refine (logEvent_keeps ..).after ?_ (by decide)
    | with_reducible refine Keeps.ite ?_ ?_
    | split

theorem launchLate_keeps : ∀ a1 a2 d, Keeps [.arbs, .isl, .halt, .log] d (launchLate a1 a2 d) := by
  intro a1 a2 d
  unfold launchLate
  repeat' first
    | with_reducible exact Keeps.refl _ _
    | with_reducible assumption
    | ((try lift_lets); intro x; first | (refine Keeps.cut x ?_ ?_; (on_goal 1 => subst x); (on_goal 2 => (clear_value x; intro hx))) | (have hf := fun a => x a; clear hf; subst x) | clear_value x)
    | with_reducible refine (quadEvent_keeps ..).after ?_ (by decide)
    | with_reducible refine (logEvent_keeps ..).after ?_ (by decide)
    | with_reducible refine (updIsl_keeps (S := [.isl]) _ ?_).after ?_ (by decide)
    | with_reducible refine (updHalt_keeps ..).after ?_ (by decide)
    | with_reducible refine Keeps.ite ?_ ?_
    | (intro s; refine ⟨fun h => ?_, fun h => ?_⟩ <;> first | rfl | (cases h; done) | (split <;> rfl) | (simp; done))
    | (refine ⟨fun h => ?_, fun h => ?_⟩ <;> first | rfl | (cases h; done) | (split <;> rfl) | (simp; done))
    | split

theorem lateLaunches_keeps : ∀ a1 a2 d, Keeps [.arbs, .isl, .launches, .halt, .log] d (lateLaunches a1 a2 d) := by
  intro a1 a2 d
  unfold lateLaunches
  repeat' first
    | with_reducible exact Keeps.refl _ _
    | with_reducible assumption
    | ((try lift_lets); intro x; first | (refine Keeps.cut x ?_ ?_; (on_goal 1 => subst x); (on_goal 2 => (clear_value x; intro hx))) | (have hf := fun a => x a; clear hf; subst x) | clear_value x)
    | with_reducible refine (launchLate_keeps ..).after ?_ (by decide)
    | with_reducible refine (updIsl_keeps (S := [.isl, .launches]) _ ?_).after ?_ (by decide)
    | with_reducible refine Keeps.forEach (fun _ _ => ?_) ?_
    | with_reducible refine Keeps.ite ?_ ?_
    | (intro s; refine ⟨fun h => ?_, fun h => ?_⟩ <;> first | rfl | (cases h; done) | (split <;> rfl) | (simp; done))
    | (refine ⟨fun h => ?_, fun h => ?_⟩ <;> first | rfl | (cases h; done) | (split <;> rfl) | (simp; done))
    | split

theorem joinCaravan_keeps : ∀ d, Keeps [.cvn, .halt] d (joinCaravan d) := by
  intro d
  unfold joinCaravan
  repeat' first
    | with_reducible exact Keeps.refl _ _
    | with_reducible assumption
    | ((try lift_lets); intro x; first | (refine Keeps.cut x ?_ ?_; (on_goal 1 => subst x); (on_goal 2 => (clear_value x; intro hx))) | (have hf := fun a => x a; clear hf; subst x) | clear_value x)
    | with_reducible refine (updHalt_keeps ..).after ?_ (by decide)
    | with_reducible refine (updCvn_keeps ..).after ?_ (by decide)
    | with_reducible refine Keeps.ite ?_ ?_
    | split

theorem timeStep_keeps : ∀ d, Keeps [.arbs, .clk, .isl, .launches, .cvn, .halt, .mods, .seqs, .log] d (timeStep d) := by
  intro d
  unfold timeStep
  repeat' first
    | with_reducible exact Keeps.refl _ _
    | with_reducible assumption
    | ((try lift_lets); intro x; first | (refine Keeps.cut x ?_ ?_; (on_goal 1 => subst x); (on_goal 2 => (clear_value x; intro hx))) | (have hf := fun a => x a; clear hf; subst x) | clear_value x)
    | with_reducible refine (leaveAlone_keeps ..).after ?_ (by decide)
    | with_reducible refine (logEvent_keeps ..).after ?_ (by decide)
    | with_reducible refine (lateLaunches_keeps ..).after ?_ (by decide)
    | with_reducible refine (joinCaravan_keeps ..).after ?_ (by decide)
    | with_reducible refine (updCvn_keeps ..).after ?_ (by decide)
    | with_reducible refine Keeps.forEach (fun _ _ => ?_) ?_
    | with_reducible refine Keeps.ite ?_ ?_
    | (fail_if_no_progress with_reducible refine (set_clk_keeps _ _).after ?_ (by decide))
    | split

theorem toStepWait_keeps : ∀ d, Keeps [.arbs, .clk, .isl, .launches, .cvn, .halt, .mods, .seqs, .log] d (toStepWait d) := by
  intro d
  unfold toStepWait
  repeat' first
    | with_reducible exact Keeps.refl _ _
    | with_reducible assumption
    | ((try lift_lets); intro x; first | (refine Keeps.cut x ?_ ?_; (on_goal 1 => subst x); (on_goal 2 => (clear_value x; intro hx))) | (have hf := fun a => x a; clear hf; subst x) | clear_value x)
    | with_reducible refine (timeStep_keeps ..).after ?_ (by decide)
    | with_reducible refine (updCvn_keeps ..).after ?_ (by decide)
    | with_reducible refine Keeps.ite ?_ ?_
    | split

theorem launchAdd_keeps : ∀ a1 a2 d, Keeps [.launches] d (launchAdd a1 a2 d) := by
  intro a1 a2 d
  unfold launchAdd
  repeat' first
    | with_reducible exact Keeps.refl _ _
    | with_reducible assumption
    | ((try lift_lets); intro x; first | (refine Keeps.cut x ?_ ?_; (on_goal 1 => subst x); (on_goal 2 => (clear_value x; intro hx))) | (have hf := fun a => x a; clear hf; subst x) | clear_value x)
    | with_reducible refine (updIsl_keeps (S := [.launches]) _ ?_).after ?_ (by decide)
    | with_reducible refine Keeps.ite ?_ ?_
    | (intro s; refine ⟨fun h => ?_, fun h => ?_⟩ <;> first | rfl | (cases h; done) | (split <;> rfl) | (simp; done))
    | (refine ⟨fun h => ?_, fun h => ?_⟩ <;> first | rfl | (cases h; done) | (split <;> rfl) | (simp; done))
    | split

theorem launchSend_keeps : ∀ a1 a2 d, Keeps [.isl, .launches] d (launchSend a1 a2 d) := by
  intro a1 a2 d
  unfold launchSend
  repeat' first
    | with_reducible exact Keeps.refl _ _
    | with_reducible assumption
    | ((try lift_lets); intro x; first | (refine Keeps.cut x ?_ ?_; (on_goal 1 => subst x); (on_goal 2 => (clear_value x; intro hx))) | (have hf := fun a => x a; clear hf; subst x) | clear_value x)
    | with_reducible refine (send_keeps ..).after ?_ (by decide)
    | with_reducible refine (launchAdd_keeps ..).after ?_ (by decide)
    | with_reducible refine Keeps.ite ?_ ?_
    | split

theorem launchAll_keeps : ∀ a1 a2 d, Keeps [.isl, .launches] d (launchAll a1 a2 d) := by
  intro a1 a2 d
  unfold launchAll
  repeat' first
    | with_reducible exact Keeps.refl _ _
    | with_reducible assumption
    | ((try lift_lets); intro x; first | (refine Keeps.cut x ?_ ?_; (on_goal 1 => subst x); (on_goal 2 => (clear_value x; intro hx))) | (have hf := fun a => x a; clear hf; subst x) | clear_value x)
    | with_reducible refine (launchSend_keeps ..).after ?_ (by decide)
    | with_reducible refine Keeps.forEach (fun _ _ => ?_) ?_
    | with_reducible refine Keeps.ite ?_ ?_
    | split

theorem resolve_keeps : ∀ a1 d, Keeps [.start, .isl, .launches] d (resolve a1 d) := by
  intro a1 d
  unfold resolve
  repeat' first
    | with_reducible exact Keeps.refl _ _
    | with_reducible assumption
    | ((try lift_lets); intro x; first | (refine Keeps.cut x ?_ ?_; (on_goal 1 => subst x); (on_goal 2 => (clear_value x; intro hx))) | (have hf := fun a => x a; clear hf; subst x) | clear_value x)
    | with_reducible refine (launchAll_keeps ..).after ?_ (by decide)
    | with_reducible refine (updStart_keeps (S := [.start]) _ ?_).after ?_ (by decide)
    | with_reducible refine Keeps.ite ?_ ?_
    | (intro s; refine ⟨fun h => ?_, fun h => ?_, fun h => ?_⟩ <;> first | rfl | (cases h; done) | (split <;> rfl) | (simp; done))
    | (refine ⟨fun h => ?_, fun h => ?_, fun h => ?_⟩ <;> first | rfl | (cases h; done) | (split <;> rfl) | (simp; done))
    | split

theorem accepted_keeps : ∀ d, Keeps [.start, .arbs, .clk, .isl, .launches, .cvn, .halt, .mods, .seqs, .log] d (accepted d) := by
  intro d
  unfold accepted
  repeat' first
    | with_reducible exact Keeps.refl _ _
    | with_reducible assumption
    | ((try lift_lets); intro x; first | (refine Keeps.cut x ?_ ?_; (on_goal 1 => subst x); (on_goal 2 => (clear_value x; intro hx))) | (have hf := fun a => x a; clear hf; subst x) | clear_value x)
    | with_reducible refine (toStepWait_keeps ..).after ?_ (by decide)
    | with_reducible refine (resolve_keeps ..).after ?_ (by decide)
    | with_reducible refine (updHalt_keeps ..).after ?_ (by decide)
    | with_reducible refine (updCvn_keeps ..).after ?_ (by decide)
    | with_reducible refine (updStart_keeps (S := [.start]) _ ?_).after ?_ (by decide)
    | with_reducible refine Keeps.ite ?_ ?_
    | (intro s; refine ⟨fun h => ?_, fun h => ?_, fun h => ?_⟩ <;> first | rfl | (cases h; done) | (split <;> rfl) | (simp; done))
    | (refine ⟨fun h => ?_, fun h => ?_, fun h => ?_⟩ <;> first | rfl | (cases h; done) | (split <;> rfl) | (simp; done))
    | split

theorem ack_keeps : ∀ d, Keeps [.sup] d (ack d) := by
  intro d
  unfold ack
  repeat' first
    | with_reducible exact Keeps.refl _ _
    | with_reducible assumption
    | ((try lift_lets); intro x; first | (refine Keeps.cut x ?_ ?_; (on_goal 1 => subst x); (on_goal 2 => (clear_value x; intro hx))) | (have hf := fun a => x a; clear hf; subst x) | clear_value x)
    | with_reducible refine (updSup_keeps (S := [.sup]) _ ?_).after ?_ (by decide)
    | with_reducible refine Keeps.ite ?_ ?_
    | (intro s; refine ⟨fun h => ?_, fun h => ?_⟩ <;> first | rfl | (cases h; done) | (split <;> rfl) | (simp; done))
    | (refine ⟨fun h => ?_, fun h => ?_⟩ <;> first | rfl | (cases h; done) | (split <;> rfl) | (simp; done))
    | split

theorem bootAsk_keeps : ∀ a1 a2 d, Keeps [.bootp, .arbs] d (bootAsk a1 a2 d) := by
  intro a1 a2 d
  unfold bootAsk
  repeat' first
    | with_reducible exact Keeps.refl _ _
    | with_reducible assumption
    | ((try lift_lets); intro x; first | (refine Keeps.cut x ?_ ?_; (on_goal 1 => subst x); (on_goal 2 => (clear_value x; intro hx))) | (have hf := fun a => x a; clear hf; subst x) | clear_value x)
    | with_reducible refine (arbRequest_keeps ..).after ?_ (by decide)
    | with_reducible refine (updBoot_keeps ..).after ?_ (by decide)
    | with_reducible refine Keeps.ite ?_ ?_
    | split

theorem pass_keeps : ∀ a1 d, Keeps [.clk] d (pass a1 d) := by
  intro a1 d
  unfold pass
  repeat' first
    | with_reducible exact Keeps.refl _ _
    | with_reducible assumption
    | ((try lift_lets); intro x; first | (refine Keeps.cut x ?_ ?_; (on_goal 1 => subst x); (on_goal 2 => (clear_value x; intro hx))) | (have hf := fun a => x a; clear hf; subst x) | clear_value x)
    | with_reducible refine Keeps.ite ?_ ?_
    | (fail_if_no_progress with_reducible refine (set_clk_keeps _ _).after ?_ (by decide))
    | split

theorem waitUp_keeps : ∀ a1 d, Keeps [.clk] d (waitUp a1 d) := by
  intro a1 d
  unfold waitUp
  repeat' first
    | with_reducible exact Keeps.refl _ _
    | with_reducible assumption
    | ((try lift_lets); intro x; first | (refine Keeps.cut x ?_ ?_; (on_goal 1 => subst x); (on_goal 2 => (clear_value x; intro hx))) | (have hf := fun a => x a; clear hf; subst x) | clear_value x)
    | with_reducible refine (pass_keeps ..).after ?_ (by decide)
    | with_reducible refine Keeps.ite ?_ ?_
    | split

theorem ackPoll_keeps : ∀ d, Keeps [.bootp, .arbs, .clk] d (ackPoll d) := by
  intro d
  unfold ackPoll
  repeat' first
    | with_reducible exact Keeps.refl _ _
    | with_reducible assumption
    | ((try lift_lets); intro x; first | (refine Keeps.cut x ?_ ?_; (on_goal 1 => subst x); (on_goal 2 => (clear_value x; intro hx))) | (have hf := fun a => x a; clear hf; subst x) | clear_value x)
    | with_reducible refine (bootAsk_keeps ..).after ?_ (by decide)
    | with_reducible refine (waitUp_keeps ..).after ?_ (by decide)
    | with_reducible refine (updBoot_keeps ..).after ?_ (by decide)
    | with_reducible refine Keeps.ite ?_ ?_
    | split

theorem addEnergy_keeps : ∀ a1 a2 d, Keeps [.therm] d (addEnergy a1 a2 d) := by
  intro a1 a2 d
  unfold addEnergy
  repeat' first
    | with_reducible exact Keeps.refl _ _
    | with_reducible assumption
    | ((try lift_lets); intro x; first | (refine Keeps.cut x ?_ ?_; (on_goal 1 => subst x); (on_goal 2 => (clear_value x; intro hx))) | (have hf := fun a => x a; clear hf; subst x) | clear_value x)
    | with_reducible refine (updTherm_keeps ..).after ?_ (by decide)
    | with_reducible refine Keeps.ite ?_ ?_
    | split

theorem newEntry_keeps : ∀ a1 d, Keeps [.sup] d (newEntry a1 d) := by
  intro a1 d
  unfold newEntry
  repeat' first
    | with_reducible exact Keeps.refl _ _
    | with_reducible assumption
    | ((try lift_lets); intro x; first | (refine Keeps.cut x ?_ ?_; (on_goal 1 => subst x); (on_goal 2 => (clear_value x; intro hx))) | (have hf := fun a => x a; clear hf; subst x) | clear_value x)
    | with_reducible refine (updSup_keeps (S := [.sup]) _ ?_).after ?_ (by decide)
    | with_reducible refine Keeps.ite ?_ ?_
    | (intro s; refine ⟨fun h => ?_, fun h => ?_⟩ <;> first | rfl | (cases h; done) | (split <;> rfl) | (simp; done))
    | (refine ⟨fun h => ?_, fun h => ?_⟩ <;> first | rfl | (cases h; done) | (split <;> rfl) | (simp; done))
    | split

theorem addMember_keeps : ∀ a1 a2 a3 d, Keeps [.cvn, .sup] d (addMember a1 a2 a3 d) := by
  intro a1 a2 a3 d
  unfold addMember
  repeat' first
    | with_reducible exact Keeps.refl _ _
    | with_reducible assumption
    | ((try lift_lets); intro x; first | (refine Keeps.cut x ?_ ?_; (on_goal 1 => subst x); (on_goal 2 => (clear_value x; intro hx))) | (have hf := fun a => x a; clear hf; subst x) | clear_value x)
    | with_reducible refine (newEntry_keeps ..).after ?_ (by decide)
    | with_reducible refine (updCvn_keeps ..).after ?_ (by decide)
    | with_reducible refine Keeps.when (fun _ => ?_) ?_
    | with_reducible refine Keeps.ite ?_ ?_
    | split

theorem alertAnswered_keeps : ∀ a1 d, Keeps [.arbs] d (alertAnswered a1 d) := by
  intro a1 d
  unfold alertAnswered
  repeat' first
    | with_reducible exact Keeps.refl _ _
    | with_reducible assumption
    | ((try lift_lets); intro x; first | (refine Keeps.cut x ?_ ?_; (on_goal 1 => subst x); (on_goal 2 => (clear_value x; intro hx))) | (have hf := fun a => x a; clear hf; subst x) | clear_value x)
    | with_reducible refine (arbRequest_keeps ..).after ?_ (by decide)
    | with_reducible refine Keeps.ite ?_ ?_
    | split

theorem alertLine_keeps : ∀ d, Keeps [.arbs] d (alertLine d) := by
  intro d
  unfold alertLine
  repeat' first
    | with_reducible exact Keeps.refl _ _
    | with_reducible assumption
    | ((try lift_lets); intro x; first | (refine Keeps.cut x ?_ ?_; (on_goal 1 => subst x); (on_goal 2 => (clear_value x; intro hx))) | (have hf := fun a => x a; clear hf; subst x) | clear_value x)
    | with_reducible refine (arbRequest_keeps ..).after ?_ (by decide)
    | with_reducible refine Keeps.ite ?_ ?_
    | split

theorem fiEvent_keeps : ∀ d, Keeps [.arbs, .log] d (fiEvent d) := by
  intro d
  unfold fiEvent
  repeat' first
    | with_reducible exact Keeps.refl _ _
    | with_reducible assumption
    | ((try lift_lets); intro x; first | (refine Keeps.cut x ?_ ?_; (on_goal 1 => subst x); (on_goal 2 => (clear_value x; intro hx))) | (have hf := fun a => x a; clear hf; subst x) | clear_value x)
    | with_reducible refine (logEvent_keeps ..).after ?_ (by decide)
    | with_reducible refine Keeps.ite ?_ ?_
    | split

theorem noAck_keeps : ∀ d, Keeps [.sup] d (noAck d) := by
  intro d
  unfold noAck
  repeat' first
    | with_reducible exact Keeps.refl _ _
    | with_reducible assumption
    | ((try lift_lets); intro x; first | (refine Keeps.cut x ?_ ?_; (on_goal 1 => subst x); (on_goal 2 => (clear_value x; intro hx))) | (have hf := fun a => x a; clear hf; subst x) | clear_value x)
    | with_reducible refine (updSup_keeps (S := [.sup]) _ ?_).after ?_ (by decide)
    | with_reducible refine Keeps.ite ?_ ?_
    | (intro s; refine ⟨fun h => ?_, fun h => ?_⟩ <;> first | rfl | (cases h; done) | (split <;> rfl) | (simp; done))
    | (refine ⟨fun h => ?_, fun h => ?_⟩ <;> first | rfl | (cases h; done) | (split <;> rfl) | (simp; done))
    | split

theorem alertResponse_keeps : ∀ a1 a2 d, Keeps [.arbs, .log, .fi, .sup, .alert] d (alertResponse a1 a2 d) := by
  intro a1 a2 d
  unfold alertResponse
  repeat' first
    | with_reducible exact Keeps.refl _ _
    | with_reducible assumption
    | ((try lift_lets); intro x; first | (refine Keeps.cut x ?_ ?_; (on_goal 1 => subst x); (on_goal 2 => (clear_value x; intro hx))) | (have hf := fun a => x a; clear hf; subst x) | clear_value x)
    | with_reducible refine (fiEvent_keeps ..).after ?_ (by decide)
    | with_reducible refine (ack_keeps ..).after ?_ (by decide)
    | with_reducible refine (noAck_keeps ..).after ?_ (by decide)
    | with_reducible refine (updSup_keeps (S := [.sup, .alert]) _ ?_).after ?_ (by decide)
    | with_reducible refine (updCol_keeps (S := [.log, .fi]) _ ?_).after ?_ (by decide)
    | with_reducible refine Keeps.ite ?_ ?_
    | (intro s; refine ⟨fun h => ?_, fun h => ?_, fun h => ?_, fun h => ?_⟩ <;> first | rfl | (cases h; done) | (split <;> rfl) | (simp; done))
    | (refine ⟨fun h => ?_, fun h => ?_, fun h => ?_, fun h => ?_⟩ <;> first | rfl | (cases h; done) | (split <;> rfl) | (simp; done))
    | (intro s; refine ⟨fun h => ?_, fun h => ?_⟩ <;> first | rfl | (cases h; done) | (split <;> rfl) | (simp; done))
    | (refine ⟨fun h => ?_, fun h => ?_⟩ <;> first | rfl | (cases h; done) | (split <;> rfl) | (simp; done))
    | split

theorem alertSet_keeps : ∀ a1 d, Keeps [.alert] d (alertSet a1 d) := by
  intro a1 d
  unfold alertSet
  repeat' first
    | with_reducible exact Keeps.refl _ _
    | with_reducible assumption
    | ((try lift_lets); intro x; first | (refine Keeps.cut x ?_ ?_; (on_goal 1 => subst x); (on_goal 2 => (clear_value x; intro hx))) | (have hf := fun a => x a; clear hf; subst x) | clear_value x)
    | with_reducible refine (updSup_keeps (S := [.alert]) _ ?_).after ?_ (by decide)
    | with_reducible refine Keeps.ite ?_ ?_
    | (intro s; refine ⟨fun h => ?_, fun h => ?_⟩ <;> first | rfl | (cases h; done) | (split <;> rfl) | (simp; done))
    | (refine ⟨fun h => ?_, fun h => ?_⟩ <;> first | rfl | (cases h; done) | (split <;> rfl) | (simp; done))
    | split

theorem aliveFrame_keeps : ∀ d, Keeps [.col] d (aliveFrame d) := by
  intro d
  unfold aliveFrame
  repeat' first
    | with_reducible exact Keeps.refl _ _
    | with_reducible assumption
    | ((try lift_lets); intro x; first | (refine Keeps.cut x ?_ ?_; (on_goal 1 => subst x); (on_goal 2 => (clear_value x; intro hx))) | (have hf := fun a => x a; clear hf; subst x) | clear_value x)
    | with_reducible refine (updCol_keeps (S := [.col]) _ ?_).after ?_ (by decide)
    | with_reducible refine Keeps.ite ?_ ?_
    | (intro s; refine ⟨fun h => ?_, fun h => ?_, fun h => ?_, fun h => ?_⟩ <;> first | rfl | (cases h; done) | (split <;> rfl) | (simp; done))
    | (refine ⟨fun h => ?_, fun h => ?_, fun h => ?_, fun h => ?_⟩ <;> first | rfl | (cases h; done) | (split <;> rfl) | (simp; done))
    | split

theorem hlRebook_keeps : ∀ a1 a2 d, Keeps [.seqs] d (hlRebook a1 a2 d) := by
  intro a1 a2 d
  unfold hlRebook
  repeat' first
    | with_reducible exact Keeps.refl _ _
    | with_reducible assumption
    | ((try lift_lets); intro x; first | (refine Keeps.cut x ?_ ?_; (on_goal 1 => subst x); (on_goal 2 => (clear_value x; intro hx))) | (have hf := fun a => x a; clear hf; subst x) | clear_value x)
    | with_reducible refine (updSeq_keeps ..).after ?_ (by decide)
    | with_reducible refine Keeps.forEach (fun _ _ => ?_) ?_
    | with_reducible refine Keeps.ite ?_ ?_
    | split

theorem announce_keeps : ∀ a1 d, Keeps [.halt, .seqs] d (announce a1 d) := by
  intro a1 d
  unfold announce
  repeat' first
    | with_reducible exact Keeps.refl _ _
    | with_reducible assumption
    | ((try lift_lets); intro x; first | (refine Keeps.cut x ?_ ?_; (on_goal 1 => subst x); (on_goal 2 => (clear_value x; intro hx))) | (have hf := fun a => x a; clear hf; subst x) | clear_value x)
    | with_reducible refine (hlRebook_keeps ..).after ?_ (by decide)
    | with_reducible refine (updHalt_keeps ..).after ?_ (by decide)
    | with_reducible refine Keeps.ite ?_ ?_
    | split

theorem ownHalt_keeps : ∀ a1 a2 d, Keeps [.halt, .seqs] d (ownHalt a1 a2 d) := by
  intro a1 a2 d
  unfold ownHalt
  repeat' first
    | with_reducible exact Keeps.refl _ _
    | with_reducible assumption
    | ((try lift_lets); intro x; first | (refine Keeps.cut x ?_ ?_; (on_goal 1 => subst x); (on_goal 2 => (clear_value x; intro hx))) | (have hf := fun a => x a; clear hf; subst x) | clear_value x)
    | with_reducible refine (announce_keeps ..).after ?_ (by decide)
    | with_reducible refine Keeps.ite ?_ ?_
    | split

theorem aloneHalt_keeps : ∀ d, Keeps [.halt, .seqs] d (aloneHalt d) := by
  intro d
  unfold aloneHalt
  repeat' first
    | with_reducible exact Keeps.refl _ _
    | with_reducible assumption
    | ((try lift_lets); intro x; first | (refine Keeps.cut x ?_ ?_; (on_goal 1 => subst x); (on_goal 2 => (clear_value x; intro hx))) | (have hf := fun a => x a; clear hf; subst x) | clear_value x)
    | with_reducible refine (ownHalt_keeps ..).after ?_ (by decide)
    | with_reducible refine Keeps.ite ?_ ?_
    | split

theorem aloneMode_keeps : ∀ d, Keeps [.mode] d (aloneMode d) := by
  intro d
  unfold aloneMode
  repeat' first
    | with_reducible exact Keeps.refl _ _
    | with_reducible assumption
    | ((try lift_lets); intro x; first | (refine Keeps.cut x ?_ ?_; (on_goal 1 => subst x); (on_goal 2 => (clear_value x; intro hx))) | (have hf := fun a => x a; clear hf; subst x) | clear_value x)
    | with_reducible refine (updMode_keeps ..).after ?_ (by decide)
    | with_reducible refine Keeps.ite ?_ ?_
    | split

theorem quadRanges_le (q : Quad) : ∀ p ∈ quadRanges q ++ slotRanges (quadSlots q), p.1 ≤ p.2 := by
  intro p hp
  simp only [quadRanges, slotRanges, List.mem_append, List.mem_cons, List.mem_map, List.mem_flatMap, List.not_mem_nil, or_false] at hp
  rcases hp with (((rfl | rfl | rfl) | ⟨n, -, rfl | rfl⟩) | ⟨n, -, rfl⟩) | ⟨n, -, rfl⟩ <;> simp only <;> omega

theorem reloadRanges_le (d : Device) (img : Memory) (r : Region) : ∀ p ∈ reloadRanges d img r, p.1 ≤ p.2 := by
  have hs : ∀ l : List Slot, ∀ p ∈ slotRanges l, p.1 ≤ p.2 := by
    intro l p hp
    obtain ⟨n, -, rfl⟩ := List.mem_map.1 hp
    simp only; omega
  intro p hp
  rcases List.mem_append.1 hp with h | h
  · cases r with
    | device => cases h
    | channel c =>
      simp only [List.mem_cons, List.not_mem_nil, or_false] at h
      rcases h with rfl | rfl <;> simp only <;> omega
    | quadrant q => exact quadRanges_le q p (List.mem_append_left _ h)
  · exact hs _ p h

theorem confLagged_wf (img : Memory) (hi : img.wf = true) {g : Quad → List (Nat × Nat)} (hg : ∀ q, ∀ p ∈ g q, p.1 ≤ p.2) (l : List Quad) :
    ∀ m : Memory, m.wf = true → (l.foldl (fun m q => mergeBase m img (g q)) m).wf = true := by
  induction l with
  | nil => exact fun _ h => h
  | cons q l ih => exact fun m h => ih _ (mergeBase_wf _ _ _ (hg q) h hi)

theorem wordRanges_le (q : Quad) (m : Option Pm) : ∀ p ∈ wordRanges q m, p.1 ≤ p.2 := by
  intro p hp
  cases m with
  | some m => simp only [wordRanges, List.mem_singleton] at hp; subst hp; simp only; omega
  | none =>
    rcases List.mem_cons.1 hp with rfl | hp
    · simp only; omega
    · exact quadRanges_le q p hp

theorem confTake_keeps {S : List Part} {d e : Device} {new : Memory} (k : Keeps S d e) (hs : sub [.conf] S = true) (ha : d.memOk → new.wf = true) :
    Keeps S d (confTake new e) :=
  setConf_keeps d e k hs _ (fun _ => rfl) (fun _ => rfl) fun h => confLagged_wf _ (k.mem h).2.1 quadRanges_le _ _ (ha h)

theorem memWrite_keeps : ∀ a1 a2 d, Keeps [.arbs, .log, .fi, .mem] d (memWrite a1 a2 d) := by
  intro a1 a2 d
  unfold memWrite
  repeat' first
    | with_reducible exact Keeps.refl _ _
    | with_reducible assumption
    | ((try lift_lets); intro x; first | (refine Keeps.cut x ?_ ?_; (on_goal 1 => subst x); (on_goal 2 => (clear_value x; intro hx))) | (have hf := fun a => x a; clear hf; subst x) | clear_value x)
    | with_reducible refine (fiEvent_keeps ..).after ?_ (by decide)
    | with_reducible refine (updMem_keeps (S := [.mem]) _ ?_ ?_).after ?_ (by decide)
    | with_reducible refine (updCol_keeps (S := [.log, .fi]) _ ?_).after ?_ (by decide)
    | with_reducible refine Keeps.ite ?_ ?_
    | (intro s; refine ⟨fun h => ?_, fun h => ?_, fun h => ?_⟩ <;> first | rfl | (cases h; done) | (split <;> rfl) | (simp; done))
    | (intro s; refine ⟨fun h => ?_, fun h => ?_, fun h => ?_, fun h => ?_⟩ <;> first | rfl | (cases h; done) | (split <;> rfl) | (simp; done))
    | (refine ⟨fun h => ?_, fun h => ?_, fun h => ?_, fun h => ?_⟩ <;> first | rfl | (cases h; done) | (split <;> rfl) | (simp; done))
    | (intro h; refine ⟨?_, ?_⟩ <;> first | exact h.1 | exact h.2.1 | exact msets_wf _ _ _ h.1 | exact msets_wf _ _ _ h.2.1 | exact wf_nil | exact filter_wf _ _ h.1 | exact composeMem_wf _ _ _ h.2.2.1)
    | split

theorem writeMirror_keeps : ∀ a1 d, Keeps [.arbs, .log, .fi, .mem] d (writeMirror a1 d) := by
  intro a1 d
  unfold writeMirror
  refine (memWrite_keeps ..).after ((updMem_keeps (S := [.mem]) _ ?_ ?_).after (Keeps.refl _ _) (by decide)) (by decide)
  · intro s; refine ⟨fun h => ?_, fun h => ?_, fun h => ?_⟩ <;> first | rfl | cases h
  · intro h
    refine ⟨mreplace_wf _ _ _ _ h.1 (mslice_wf _ _ _ _ (mirrorOf_wf _ _ _ h.2.2.1)) (fun p hp => ?_) (by decide), h.2.1⟩
    have := mslice_within _ _ _ _ p hp
    omega

theorem recPush_keeps : ∀ a1 a2 a3 d, Keeps [.arbs, .rings, .writers] d (recPush a1 a2 a3 d) := by
  intro a1 a2 a3 d
  unfold recPush
  repeat' first
    | with_reducible exact Keeps.refl _ _
    | with_reducible assumption
    | ((try lift_lets); intro x; first | (refine Keeps.cut x ?_ ?_; (on_goal 1 => subst x); (on_goal 2 => (clear_value x; intro hx))) | (have hf := fun a => x a; clear hf; subst x) | clear_value x)
    | with_reducible refine (arbRequest_keeps ..).after ?_ (by decide)
    | with_reducible refine (updRing_keeps ..).after ?_ (by decide)
    | with_reducible refine Keeps.ite ?_ ?_
    | (fail_if_no_progress with_reducible refine (set_writers_keeps _ _).after ?_ (by decide))
    | split

theorem recordArrives_keeps : ∀ a1 a2 d, Keeps [.arbs, .rings, .writers, .nobind] d (recordArrives a1 a2 d) := by
  intro a1 a2 d
  unfold recordArrives
  repeat' first
    | with_reducible exact Keeps.refl _ _
    | with_reducible assumption
    | ((try lift_lets); intro x; first | (refine Keeps.cut x ?_ ?_; (on_goal 1 => subst x); (on_goal 2 => (clear_value x; intro hx))) | (have hf := fun a => x a; clear hf; subst x) | clear_value x)
    | with_reducible refine (recPush_keeps ..).after ?_ (by decide)
    | with_reducible refine Keeps.ite ?_ ?_
    | (fail_if_no_progress with_reducible refine (set_nobind_keeps _ _).after ?_ (by decide))
    | split

theorem chanRecord_keeps : ∀ a1 a2 d, Keeps [.arbs, .isl, .rings, .writers, .nobind] d (chanRecord a1 a2 d) := by
  intro a1 a2 d
  unfold chanRecord
  repeat' first
    | with_reducible exact Keeps.refl _ _
    | with_reducible assumption
    | ((try lift_lets); intro x; first | (refine Keeps.cut x ?_ ?_; (on_goal 1 => subst x); (on_goal 2 => (clear_value x; intro hx))) | (have hf := fun a => x a; clear hf; subst x) | clear_value x)
    | with_reducible refine Keeps.toHouse (fun _ => ?_) ?_ (by decide)
    | with_reducible refine (recordArrives_keeps ..).after ?_ (by decide)
    | with_reducible refine Keeps.ite ?_ ?_
    | split

theorem setPhase_keeps : ∀ a1 a2 a3 a4 d, Keeps [.arbs, .isl, .profs, .rings, .writers, .nobind] d (setPhase a1 a2 a3 a4 d) := by
  intro a1 a2 a3 a4 d
  unfold setPhase
  repeat' first
    | with_reducible exact Keeps.refl _ _
    | with_reducible assumption
    | ((try lift_lets); intro x; first | (refine Keeps.cut x ?_ ?_; (on_goal 1 => subst x); (on_goal 2 => (clear_value x; intro hx))) | (have hf := fun a => x a; clear hf; subst x) | clear_value x)
    | with_reducible refine (chanRecord_keeps ..).after ?_ (by decide)
    | with_reducible refine (updProf_keeps ..).after ?_ (by decide)
    | with_reducible refine Keeps.ite ?_ ?_
    | split

theorem toAssess_keeps : ∀ a1 d, Keeps [.arbs, .isl, .profs, .rings, .writers, .nobind] d (toAssess a1 d) := by
  intro a1 d
  unfold toAssess
  repeat' first
    | with_reducible exact Keeps.refl _ _
    | with_reducible assumption
    | ((try lift_lets); intro x; first | (refine Keeps.cut x ?_ ?_; (on_goal 1 => subst x); (on_goal 2 => (clear_value x; intro hx))) | (have hf := fun a => x a; clear hf; subst x) | clear_value x)
    | with_reducible refine (setPhase_keeps ..).after ?_ (by decide)
    | with_reducible refine (updProf_keeps ..).after ?_ (by decide)
    | with_reducible refine Keeps.ite ?_ ?_
    | split

theorem restartReq_keeps : ∀ a1 d, Keeps [.arbs, .isl, .chans, .profs, .rings, .writers, .nobind] d (restartReq a1 d) := by
  intro a1 d
  unfold restartReq
  repeat' first
    | with_reducible exact Keeps.refl _ _
    | with_reducible assumption
    | ((try lift_lets); intro x; first | (refine Keeps.cut x ?_ ?_; (on_goal 1 => subst x); (on_goal 2 => (clear_value x; intro hx))) | (have hf := fun a => x a; clear hf; subst x) | clear_value x)
    | with_reducible refine (toAssess_keeps ..).after ?_ (by decide)
    | with_reducible refine (updChan_keeps ..).after ?_ (by decide)
    | with_reducible refine (updProf_keeps ..).after ?_ (by decide)
    | with_reducible refine Keeps.ite ?_ ?_
    | split

theorem overlayRestart_keeps : ∀ a1 d, Keeps [.arbs, .isl, .chans, .profs, .rings, .writers, .nobind] d (overlayRestart a1 d) := by
  intro a1 d
  unfold overlayRestart
  repeat' first
    | with_reducible exact Keeps.refl _ _
    | with_reducible assumption
    | ((try lift_lets); intro x; first | (refine Keeps.cut x ?_ ?_; (on_goal 1 => subst x); (on_goal 2 => (clear_value x; intro hx))) | (have hf := fun a => x a; clear hf; subst x) | clear_value x)
    | with_reducible refine (restartReq_keeps ..).after ?_ (by decide)
    | with_reducible refine Keeps.ite ?_ ?_
    | split

theorem writeReload_keeps : ∀ a1 a2 d, Keeps [.slots, .chans] d (writeReload a1 a2 d) := by
  intro a1 a2 d
  unfold writeReload
  repeat' first
    | with_reducible exact Keeps.refl _ _
    | with_reducible assumption
    | ((try lift_lets); intro x; first | (refine Keeps.cut x ?_ ?_; (on_goal 1 => subst x); (on_goal 2 => (clear_value x; intro hx))) | (have hf := fun a => x a; clear hf; subst x) | clear_value x)
    | with_reducible refine (updChan_keeps ..).after ?_ (by decide)
    | with_reducible refine (updSlot_keeps _ _ ?_).after ?_ (by decide)
    | with_reducible refine Keeps.forEach (fun _ _ => ?_) ?_
    | with_reducible refine Keeps.ite ?_ ?_
    | (intro s h; first | exact h | (simp only [SlotSt.apart] at *; done) | (dsimp only; split <;> exact h) | (cases s; simp_all [SlotSt.apart]; done))
    | split

theorem applyReq_keeps : ∀ a1 d, Keeps [.profs] d (applyReq a1 d) := by
  intro a1 d
  unfold applyReq
  repeat' first
    | with_reducible exact Keeps.refl _ _
    | with_reducible assumption
    | ((try lift_lets); intro x; first | (refine Keeps.cut x ?_ ?_; (on_goal 1 => subst x); (on_goal 2 => (clear_value x; intro hx))) | (have hf := fun a => x a; clear hf; subst x) | clear_value x)
    | with_reducible refine (updProf_keeps ..).after ?_ (by decide)
    | with_reducible refine Keeps.ite ?_ ?_
    | split

theorem setX_keeps : ∀ a1 a2 d, Keeps [.slots] d (setX a1 a2 d) := fun n v d =>
  updSlot_keeps _ _ fun s _ => by cases slotBoost d n <;> cases v <;> rfl

theorem xOff_keeps : ∀ a1 a2 a3 d, Keeps [.slots] d (xOff a1 a2 a3 d) := by
  intro a1 a2 a3 d
  unfold xOff
  repeat' first
    | with_reducible exact Keeps.refl _ _
    | with_reducible assumption
    | ((try lift_lets); intro x; first | (refine Keeps.cut x ?_ ?_; (on_goal 1 => subst x); (on_goal 2 => (clear_value x; intro hx))) | (have hf := fun a => x a; clear hf; subst x) | clear_value x)
    | with_reducible refine (setX_keeps ..).after ?_ (by decide)
    | with_reducible refine (updSlot_keeps _ _ ?_).after ?_ (by decide)
    | with_reducible refine Keeps.ite ?_ ?_
    | (intro s h; first | exact h | (simp only [SlotSt.apart] at *; done) | (dsimp only; split <;> exact h) | (cases s; simp_all [SlotSt.apart]; done))
    | split

theorem setY_keeps : ∀ a1 a2 d, Keeps [.slots] d (setY a1 a2 d) := fun n v d =>
  updSlot_keeps _ _ fun s _ => by cases slotBoost d n <;> cases v <;> rfl

theorem yOff_keeps : ∀ a1 a2 d, Keeps [.slots] d (yOff a1 a2 d) := by
  intro a1 a2 d
  unfold yOff
  repeat' first
    | with_reducible exact Keeps.refl _ _
    | with_reducible assumption
    | ((try lift_lets); intro x; first | (refine Keeps.cut x ?_ ?_; (on_goal 1 => subst x); (on_goal 2 => (clear_value x; intro hx))) | (have hf := fun a => x a; clear hf; subst x) | clear_value x)
    | with_reducible refine (setY_keeps ..).after ?_ (by decide)
    | with_reducible refine (updSlot_keeps _ _ ?_).after ?_ (by decide)
    | with_reducible refine Keeps.ite ?_ ?_
    | (intro s h; first | exact h | (simp only [SlotSt.apart] at *; done) | (dsimp only; split <;> exact h) | (cases s; simp_all [SlotSt.apart]; done))
    | split

end Sys2Proof.Machine
end

