-- ==== Sys2Proof/Laws/Keeps2.lean ====
section
/-! SUPPORT. Sys2Proof/Laws/Keeps2.lean: what each operation of the model leaves unchanged (one lemma per operation, in the order of their use). -/

namespace Sys2Proof.Machine

set_option linter.unusedTactic false
set_option linter.unreachableTactic false
set_option linter.unusedVariables false

theorem slotGateOff_keeps : ∀ a1 d, Keeps [.slots] d (slotGateOff a1 d) := by
  intro a1 d
  unfold slotGateOff
  repeat' first
    | with_reducible exact Keeps.refl _ _
    | with_reducible assumption
    | ((try lift_lets); intro x; first | (refine Keeps.cut x ?_ ?_; (on_goal 1 => subst x); (on_goal 2 => (clear_value x; intro hx))) | (have hf := fun a => x a; clear hf; subst x) | clear_value x)
    | with_reducible refine (xOff_keeps ..).after ?_ (by decide)
    | with_reducible refine (yOff_keeps ..).after ?_ (by decide)
    | with_reducible refine Keeps.ite ?_ ?_
    | split

theorem regate_keeps : ∀ a1 d, Keeps [.slots, .chans, .profs, .paths] d (regate a1 d) := by
  intro a1 d
  unfold regate
  repeat' first
    | with_reducible exact Keeps.refl _ _
    | with_reducible assumption
    | ((try lift_lets); intro x; first | (refine Keeps.cut x ?_ ?_; (on_goal 1 => subst x); (on_goal 2 => (clear_value x; intro hx))) | (have hf := fun a => x a; clear hf; subst x) | clear_value x)
    | with_reducible refine (slotGateOff_keeps ..).after ?_ (by decide)
    | with_reducible refine (updPath_keeps ..).after ?_ (by decide)
    | with_reducible refine (updChan_keeps ..).after ?_ (by decide)
    | with_reducible refine (updProf_keeps ..).after ?_ (by decide)
    | with_reducible refine Keeps.forEach (fun _ _ => ?_) ?_
    | with_reducible refine Keeps.ite ?_ ?_
    | split

theorem endPulses_keeps : ∀ a1 d, Keeps [.slots, .chans, .profs, .paths] d (endPulses a1 d) := by
  intro a1 d
  unfold endPulses
  repeat' first
    | with_reducible exact Keeps.refl _ _
    | with_reducible assumption
    | ((try lift_lets); intro x; first | (refine Keeps.cut x ?_ ?_; (on_goal 1 => subst x); (on_goal 2 => (clear_value x; intro hx))) | (have hf := fun a => x a; clear hf; subst x) | clear_value x)
    | with_reducible refine (regate_keeps ..).after ?_ (by decide)
    | with_reducible refine (abandonRest_keeps ..).after ?_ (by decide)
    | with_reducible refine (updChan_keeps ..).after ?_ (by decide)
    | with_reducible refine (updProf_keeps ..).after ?_ (by decide)
    | with_reducible refine Keeps.ite ?_ ?_
    | split

theorem chanReconf_keeps : ∀ a1 a2 d, Keeps [.arbs, .isl, .slots, .chans, .profs, .paths, .rings, .writers, .nobind] d (chanReconf a1 a2 d) := by
  intro a1 a2 d
  unfold chanReconf
  repeat' first
    | with_reducible exact Keeps.refl _ _
    | with_reducible assumption
    | ((try lift_lets); intro x; first | (refine Keeps.cut x ?_ ?_; (on_goal 1 => subst x); (on_goal 2 => (clear_value x; intro hx))) | (have hf := fun a => x a; clear hf; subst x) | clear_value x)
    | with_reducible refine (writeReload_keeps ..).after ?_ (by decide)
    | with_reducible refine (toAssess_keeps ..).after ?_ (by decide)
    | with_reducible refine (applyReq_keeps ..).after ?_ (by decide)
    | with_reducible refine (endPulses_keeps ..).after ?_ (by decide)
    | with_reducible refine Keeps.ite ?_ ?_
    | split

theorem confChanged_keeps : ∀ a1 d, Keeps [.arbs, .isl, .slots, .chans, .profs, .paths, .rings, .writers, .nobind] d (confChanged a1 d) := by
  intro a1 d
  unfold confChanged
  repeat' first
    | with_reducible exact Keeps.refl _ _
    | with_reducible assumption
    | ((try lift_lets); intro x; first | (refine Keeps.cut x ?_ ?_; (on_goal 1 => subst x); (on_goal 2 => (clear_value x; intro hx))) | (have hf := fun a => x a; clear hf; subst x) | clear_value x)
    | with_reducible refine (chanReconf_keeps ..).after ?_ (by decide)
    | with_reducible refine Keeps.forEach (fun _ _ => ?_) ?_
    | with_reducible refine Keeps.ite ?_ ?_
    | (fail_if_no_progress with_reducible refine (set_slots_keeps _ ?_).after ?_ (by decide))
    | with_reducible refine map_apart _ _ ?_
    | with_reducible refine mapAll_apart _ _ ?_
    | (intro n s h; first | (split <;> exact h) | (dsimp only; split <;> exact h))
    | (intro s h; first | exact h | (simp only [SlotSt.apart] at *; done) | (dsimp only; split <;> exact h) | (cases s; simp_all [SlotSt.apart]; done))
    | split

theorem applyOverlay_keeps : ∀ a1 a2 d, Keeps [.mode, .arbs, .isl, .slots, .chans, .profs, .paths, .rings, .writers, .nobind, .log, .fi, .mem, .conf, .reload] d (applyOverlay a1 a2 d) := by
  intro a1 a2 d
  unfold applyOverlay
  have h1 : Keeps [.mode, .arbs, .isl, .slots, .chans, .profs, .paths, .rings, .writers, .nobind, .log, .fi, .mem, .conf, .reload] d _ := confTake_keeps (new := composeMem d.loader.base d.loader.ovls a1.toNat) ((writeMirror_keeps a1.toNat d).mono (by decide)) (by decide)
    fun h => composeMem_wf _ _ _ h.2.2.1
  refine Keeps.trans h1 ?_
  with_reducible refine (logEvent_keeps ..).after ?_ (by decide)
  refine (updReload_keeps _ ?_).after ?_ (by decide)
  · exact fun r h => h
  refine Keeps.forEach (fun _ _ => (overlayRestart_keeps ..).mono (by decide)) ?_
  with_reducible refine (confChanged_keeps ..).after ?_ (by decide)
  exact (updMode_keeps ..).mono (by decide)

theorem hlDrop_keeps : ∀ a1 a2 d, Keeps [.arbs, .mods] d (hlDrop a1 a2 d) := by
  intro n
  induction n with
  | zero => intro a2 d; exact Keeps.refl _ _
  | succ n ih =>
    intro a2 d
    unfold hlDrop
    split
    · refine Keeps.ite ?_ (Keeps.refl _ _)
      exact (ih ..).after (Keeps.ite ((arbWithdraw_keeps ..).after ((updMod_keeps ..).mono (by decide)) (by decide)) ((updMod_keeps ..).mono (by decide))) (by decide)
    · exact Keeps.refl _ _

theorem secTurn_keeps : ∀ a1 d, Keeps [.arbs, .faults, .log] d (secTurn a1 d) := by
  intro a1 d
  unfold secTurn
  repeat' first
    | with_reducible exact Keeps.refl _ _
    | with_reducible assumption
    | ((try lift_lets); intro x; first | (refine Keeps.cut x ?_ ?_; (on_goal 1 => subst x); (on_goal 2 => (clear_value x; intro hx))) | (have hf := fun a => x a; clear hf; subst x) | clear_value x)
    | with_reducible refine (logPush_keeps ..).after ?_ (by decide)
    | with_reducible refine (updFault_keeps ..).after ?_ (by decide)
    | with_reducible refine Keeps.ite ?_ ?_
    | split

theorem capQueue_keeps : ∀ a1 a2 d, Keeps [.arbs, .caps] d (capQueue a1 a2 d) := by
  intro a1 a2 d
  unfold capQueue
  repeat' first
    | with_reducible exact Keeps.refl _ _
    | with_reducible assumption
    | ((try lift_lets); intro x; first | (refine Keeps.cut x ?_ ?_; (on_goal 1 => subst x); (on_goal 2 => (clear_value x; intro hx))) | (have hf := fun a => x a; clear hf; subst x) | clear_value x)
    | with_reducible refine (arbRequest_keeps ..).after ?_ (by decide)
    | with_reducible refine (updCol_keeps (S := [.caps]) _ ?_).after ?_ (by decide)
    | with_reducible refine Keeps.ite ?_ ?_
    | (intro s; refine ⟨fun h => ?_, fun h => ?_, fun h => ?_, fun h => ?_⟩ <;> first | rfl | (cases h; done) | (split <;> rfl) | (simp; done))
    | (refine ⟨fun h => ?_, fun h => ?_, fun h => ?_, fun h => ?_⟩ <;> first | rfl | (cases h; done) | (split <;> rfl) | (simp; done))
    | split

theorem captureTake_keeps : ∀ a1 a2 d, Keeps [.arbs, .caps] d (captureTake a1 a2 d) := by
  intro a1 a2 d
  unfold captureTake
  repeat' first
    | with_reducible exact Keeps.refl _ _
    | with_reducible assumption
    | ((try lift_lets); intro x; first | (refine Keeps.cut x ?_ ?_; (on_goal 1 => subst x); (on_goal 2 => (clear_value x; intro hx))) | (have hf := fun a => x a; clear hf; subst x) | clear_value x)
    | with_reducible refine (capQueue_keeps ..).after ?_ (by decide)
    | with_reducible refine (updCol_keeps (S := [.caps]) _ ?_).after ?_ (by decide)
    | with_reducible refine Keeps.ite ?_ ?_
    | (intro s; refine ⟨fun h => ?_, fun h => ?_, fun h => ?_, fun h => ?_⟩ <;> first | rfl | (cases h; done) | (split <;> rfl) | (simp; done))
    | (refine ⟨fun h => ?_, fun h => ?_, fun h => ?_, fun h => ?_⟩ <;> first | rfl | (cases h; done) | (split <;> rfl) | (simp; done))
    | split

theorem pauseProf_keeps : ∀ a1 d, Keeps [.profs] d (pauseProf a1 d) := by
  intro a1 d
  unfold pauseProf
  repeat' first
    | with_reducible exact Keeps.refl _ _
    | with_reducible assumption
    | ((try lift_lets); intro x; first | (refine Keeps.cut x ?_ ?_; (on_goal 1 => subst x); (on_goal 2 => (clear_value x; intro hx))) | (have hf := fun a => x a; clear hf; subst x) | clear_value x)
    | with_reducible refine (updProf_keeps ..).after ?_ (by decide)
    | with_reducible refine Keeps.ite ?_ ?_
    | split

theorem enterCh_keeps : ∀ a1 a2 d, Keeps [.slots, .chans, .profs, .paths] d (enterCh a1 a2 d) := by
  intro a1 a2 d
  unfold enterCh
  repeat' first
    | with_reducible exact Keeps.refl _ _
    | with_reducible assumption
    | ((try lift_lets); intro x; first | (refine Keeps.cut x ?_ ?_; (on_goal 1 => subst x); (on_goal 2 => (clear_value x; intro hx))) | (have hf := fun a => x a; clear hf; subst x) | clear_value x)
    | with_reducible refine (abandonRest_keeps ..).after ?_ (by decide)
    | with_reducible refine (regate_keeps ..).after ?_ (by decide)
    | with_reducible refine (updChan_keeps ..).after ?_ (by decide)
    | with_reducible refine (updProf_keeps ..).after ?_ (by decide)
    | with_reducible refine Keeps.ite ?_ ?_
    | split

theorem holdChan_keeps : ∀ a1 a2 d, Keeps [.slots, .chans, .profs, .paths] d (holdChan a1 a2 d) := by
  intro a1 a2 d
  unfold holdChan
  repeat' first
    | with_reducible exact Keeps.refl _ _
    | with_reducible assumption
    | ((try lift_lets); intro x; first | (refine Keeps.cut x ?_ ?_; (on_goal 1 => subst x); (on_goal 2 => (clear_value x; intro hx))) | (have hf := fun a => x a; clear hf; subst x) | clear_value x)
    | with_reducible refine (pauseProf_keeps ..).after ?_ (by decide)
    | with_reducible refine (enterCh_keeps ..).after ?_ (by decide)
    | with_reducible refine (updChan_keeps ..).after ?_ (by decide)
    | with_reducible refine Keeps.ite ?_ ?_
    | split

theorem pathZero_keeps : ∀ a1 a2 d, Keeps [.paths] d (pathZero a1 a2 d) := by
  intro a1 a2 d
  unfold pathZero
  repeat' first
    | with_reducible exact Keeps.refl _ _
    | with_reducible assumption
    | ((try lift_lets); intro x; first | (refine Keeps.cut x ?_ ?_; (on_goal 1 => subst x); (on_goal 2 => (clear_value x; intro hx))) | (have hf := fun a => x a; clear hf; subst x) | clear_value x)
    | with_reducible refine (updPath_keeps ..).after ?_ (by decide)
    | with_reducible refine Keeps.ite ?_ ?_
    | split

theorem pathTrip_keeps : ∀ a1 a2 a3 d, Keeps [.paths] d (pathTrip a1 a2 a3 d) := by
  intro a1 a2 a3 d
  unfold pathTrip
  repeat' first
    | with_reducible exact Keeps.refl _ _
    | with_reducible assumption
    | ((try lift_lets); intro x; first | (refine Keeps.cut x ?_ ?_; (on_goal 1 => subst x); (on_goal 2 => (clear_value x; intro hx))) | (have hf := fun a => x a; clear hf; subst x) | clear_value x)
    | with_reducible refine (pathZero_keeps ..).after ?_ (by decide)
    | with_reducible refine (updPath_keeps ..).after ?_ (by decide)
    | with_reducible refine Keeps.ite ?_ ?_
    | split

theorem pathHold_keeps : ∀ a1 a2 d, Keeps [.paths] d (pathHold a1 a2 d) := by
  intro a1 a2 d
  unfold pathHold
  repeat' first
    | with_reducible exact Keeps.refl _ _
    | with_reducible assumption
    | ((try lift_lets); intro x; first | (refine Keeps.cut x ?_ ?_; (on_goal 1 => subst x); (on_goal 2 => (clear_value x; intro hx))) | (have hf := fun a => x a; clear hf; subst x) | clear_value x)
    | with_reducible refine (updPath_keeps ..).after ?_ (by decide)
    | with_reducible refine Keeps.ite ?_ ?_
    | split

theorem pathOpen_keeps : ∀ a1 a2 d, Keeps [.paths] d (pathOpen a1 a2 d) := by
  intro a1 a2 d
  unfold pathOpen
  repeat' first
    | with_reducible exact Keeps.refl _ _
    | with_reducible assumption
    | ((try lift_lets); intro x; first | (refine Keeps.cut x ?_ ?_; (on_goal 1 => subst x); (on_goal 2 => (clear_value x; intro hx))) | (have hf := fun a => x a; clear hf; subst x) | clear_value x)
    | with_reducible refine (pathHold_keeps ..).after ?_ (by decide)
    | with_reducible refine (pathZero_keeps ..).after ?_ (by decide)
    | with_reducible refine Keeps.ite ?_ ?_
    | split

theorem srcHold_keeps : ∀ a1 a2 d, Keeps [.srcs] d (srcHold a1 a2 d) := by
  intro a1 a2 d
  unfold srcHold
  repeat' first
    | with_reducible exact Keeps.refl _ _
    | with_reducible assumption
    | ((try lift_lets); intro x; first | (refine Keeps.cut x ?_ ?_; (on_goal 1 => subst x); (on_goal 2 => (clear_value x; intro hx))) | (have hf := fun a => x a; clear hf; subst x) | clear_value x)
    | with_reducible refine (updSrc_keeps ..).after ?_ (by decide)
    | with_reducible refine Keeps.ite ?_ ?_
    | split

theorem srcZero_keeps : ∀ a1 a2 d, Keeps [.srcs] d (srcZero a1 a2 d) := by
  intro a1 a2 d
  unfold srcZero
  repeat' first
    | with_reducible exact Keeps.refl _ _
    | with_reducible assumption
    | ((try lift_lets); intro x; first | (refine Keeps.cut x ?_ ?_; (on_goal 1 => subst x); (on_goal 2 => (clear_value x; intro hx))) | (have hf := fun a => x a; clear hf; subst x) | clear_value x)
    | with_reducible refine (updSrc_keeps ..).after ?_ (by decide)
    | with_reducible refine Keeps.ite ?_ ?_
    | split

theorem srcOpen_keeps : ∀ a1 a2 d, Keeps [.srcs] d (srcOpen a1 a2 d) := by
  intro a1 a2 d
  unfold srcOpen
  repeat' first
    | with_reducible exact Keeps.refl _ _
    | with_reducible assumption
    | ((try lift_lets); intro x; first | (refine Keeps.cut x ?_ ?_; (on_goal 1 => subst x); (on_goal 2 => (clear_value x; intro hx))) | (have hf := fun a => x a; clear hf; subst x) | clear_value x)
    | with_reducible refine (srcHold_keeps ..).after ?_ (by decide)
    | with_reducible refine (srcZero_keeps ..).after ?_ (by decide)
    | with_reducible refine Keeps.ite ?_ ?_
    | split

theorem react_keeps : ∀ a1 a2 a3 d, Keeps [.slots, .chans, .profs, .paths, .srcs, .col] d (react a1 a2 a3 d) := by
  intro a1 a2 a3 d
  unfold react
  repeat' first
    | with_reducible exact Keeps.refl _ _
    | with_reducible assumption
    | ((try lift_lets); intro x; first | (refine Keeps.cut x ?_ ?_; (on_goal 1 => subst x); (on_goal 2 => (clear_value x; intro hx))) | (have hf := fun a => x a; clear hf; subst x) | clear_value x)
    | with_reducible refine (holdChan_keeps ..).after ?_ (by decide)
    | with_reducible refine (pathTrip_keeps ..).after ?_ (by decide)
    | with_reducible refine (pathOpen_keeps ..).after ?_ (by decide)
    | with_reducible refine (srcOpen_keeps ..).after ?_ (by decide)
    | with_reducible refine (updSlot_keeps _ _ ?_).after ?_ (by decide)
    | with_reducible refine (updCol_keeps (S := [.col]) _ ?_).after ?_ (by decide)
    | with_reducible refine Keeps.forEach (fun _ _ => ?_) ?_
    | with_reducible refine Keeps.ite ?_ ?_
    | (intro s; refine ⟨fun h => ?_, fun h => ?_, fun h => ?_, fun h => ?_⟩ <;> first | rfl | (cases h; done) | (split <;> rfl) | (simp; done))
    | (refine ⟨fun h => ?_, fun h => ?_, fun h => ?_, fun h => ?_⟩ <;> first | rfl | (cases h; done) | (split <;> rfl) | (simp; done))
    | (intro s h; first | exact h | (simp only [SlotSt.apart] at *; done) | (dsimp only; split <;> exact h) | (cases s; simp_all [SlotSt.apart]; done))
    | split

theorem latchAtStart_keeps : ∀ d, Keeps [.devState, .latch] d (latchAtStart d) := by
  intro d
  unfold latchAtStart
  repeat' first
    | with_reducible exact Keeps.refl _ _
    | with_reducible assumption
    | ((try lift_lets); intro x; first | (refine Keeps.cut x ?_ ?_; (on_goal 1 => subst x); (on_goal 2 => (clear_value x; intro hx))) | (have hf := fun a => x a; clear hf; subst x) | clear_value x)
    | with_reducible refine (updStart_keeps (S := [.devState, .latch]) _ ?_).after ?_ (by decide)
    | with_reducible refine Keeps.ite ?_ ?_
    | (intro s; refine ⟨fun h => ?_, fun h => ?_, fun h => ?_⟩ <;> first | rfl | (cases h; done) | (split <;> rfl) | (simp; done))
    | (refine ⟨fun h => ?_, fun h => ?_, fun h => ?_⟩ <;> first | rfl | (cases h; done) | (split <;> rfl) | (simp; done))
    | split

theorem reactNow_keeps : ∀ a1 a2 a3 d, Keeps [.devState, .latch, .slots, .chans, .profs, .paths, .srcs, .faults, .col] d (reactNow a1 a2 a3 d) := by
  intro a1 a2 a3 d
  unfold reactNow
  repeat' first
    | with_reducible exact Keeps.refl _ _
    | with_reducible assumption
    | ((try lift_lets); intro x; first | (refine Keeps.cut x ?_ ?_; (on_goal 1 => subst x); (on_goal 2 => (clear_value x; intro hx))) | (have hf := fun a => x a; clear hf; subst x) | clear_value x)
    | with_reducible refine (react_keeps ..).after ?_ (by decide)
    | with_reducible refine (latchAtStart_keeps ..).after ?_ (by decide)
    | with_reducible refine (updFault_keeps ..).after ?_ (by decide)
    | with_reducible refine Keeps.ite ?_ ?_
    | split

theorem raiseX_keeps : ∀ a1 a2 a3 d, Keeps [.devState, .latch, .arbs, .slots, .chans, .profs, .paths, .srcs, .faults, .col, .log, .caps, .alert] d (raiseX a1 a2 a3 d) := by
  intro a1 a2 a3 d
  unfold raiseX
  repeat' first
    | with_reducible exact Keeps.refl _ _
    | with_reducible assumption
    | ((try lift_lets); intro x; first | (refine Keeps.cut x ?_ ?_; (on_goal 1 => subst x); (on_goal 2 => (clear_value x; intro hx))) | (have hf := fun a => x a; clear hf; subst x) | clear_value x)
    | with_reducible refine (secTurn_keeps ..).after ?_ (by decide)
    | with_reducible refine (logPush_keeps ..).after ?_ (by decide)
    | with_reducible refine (alertSet_keeps ..).after ?_ (by decide)
    | with_reducible refine (captureTake_keeps ..).after ?_ (by decide)
    | with_reducible refine (reactNow_keeps ..).after ?_ (by decide)
    | with_reducible refine (updFault_keeps ..).after ?_ (by decide)
    | with_reducible refine (updSup_keeps (S := [.alert]) _ ?_).after ?_ (by decide)
    | with_reducible refine Keeps.ite ?_ ?_
    | (intro s; refine ⟨fun h => ?_, fun h => ?_⟩ <;> first | rfl | (cases h; done) | (split <;> rfl) | (simp; done))
    | (refine ⟨fun h => ?_, fun h => ?_⟩ <;> first | rfl | (cases h; done) | (split <;> rfl) | (simp; done))
    | split

theorem raise_keeps : ∀ a1 d, Keeps [.devState, .latch, .arbs, .slots, .chans, .profs, .paths, .srcs, .faults, .col, .log, .caps, .alert] d (raise a1 d) := by
  intro a1 d
  unfold raise
  repeat' first
    | with_reducible exact Keeps.refl _ _
    | with_reducible assumption
    | ((try lift_lets); intro x; first | (refine Keeps.cut x ?_ ?_; (on_goal 1 => subst x); (on_goal 2 => (clear_value x; intro hx))) | (have hf := fun a => x a; clear hf; subst x) | clear_value x)
    | with_reducible refine (raiseX_keeps ..).after ?_ (by decide)
    | with_reducible refine Keeps.ite ?_ ?_
    | split

theorem slotsOut_keeps : ∀ a1 a2 d, Keeps [.devState, .latch, .arbs, .slots, .chans, .profs, .paths, .srcs, .faults, .col, .log, .caps, .alert] d (slotsOut a1 a2 d) := by
  intro a1 a2 d
  unfold slotsOut
  repeat' first
    | with_reducible exact Keeps.refl _ _
    | with_reducible assumption
    | ((try lift_lets); intro x; first | (refine Keeps.cut x ?_ ?_; (on_goal 1 => subst x); (on_goal 2 => (clear_value x; intro hx))) | (have hf := fun a => x a; clear hf; subst x) | clear_value x)
    | with_reducible refine (raise_keeps ..).after ?_ (by decide)
    | with_reducible refine (updChan_keeps ..).after ?_ (by decide)
    | with_reducible refine Keeps.ite ?_ ?_
    | split

theorem grantSlot_keeps : ∀ a1 a2 d, Keeps [.devState, .latch, .arbs, .slots, .chans, .profs, .paths, .srcs, .faults, .col, .log, .caps, .swaps, .alert] d (grantSlot a1 a2 d) := by
  intro a1 a2 d
  unfold grantSlot
  split
  · dsimp only
    split
    · refine Keeps.forEach (fun _ _ => (slotsOut_keeps ..).mono (by decide)) ((updChan_keeps ..).after ((updMem_keeps (S := [.swaps]) _ ?_ fun h => ⟨h.1, h.2.1⟩).mono (by decide)) (by decide))
      intro s; refine ⟨fun h => ?_, fun h => ?_, fun h => ?_⟩ <;> first | rfl | cases h
    · exact Keeps.refl _ _
  · exact Keeps.refl _ _

theorem modelReinit_keeps : ∀ a1 d, Keeps [.devState, .latch, .arbs, .slots, .chans, .profs, .paths, .srcs, .therm, .faults, .col, .log, .caps, .alert] d (modelReinit a1 d) := by
  intro a1 d
  unfold modelReinit
  repeat' first
    | with_reducible exact Keeps.refl _ _
    | with_reducible assumption
    | ((try lift_lets); intro x; first | (refine Keeps.cut x ?_ ?_; (on_goal 1 => subst x); (on_goal 2 => (clear_value x; intro hx))) | (have hf := fun a => x a; clear hf; subst x) | clear_value x)
    | with_reducible refine (raiseX_keeps ..).after ?_ (by decide)
    | with_reducible refine (updTherm_keeps ..).after ?_ (by decide)
    | with_reducible refine Keeps.ite ?_ ?_
    | split

theorem hkLost_keeps : ∀ a1 a2 d, Keeps [.profs] d (hkLost a1 a2 d) := by
  intro a1 a2 d
  unfold hkLost
  repeat' first
    | with_reducible exact Keeps.refl _ _
    | with_reducible assumption
    | ((try lift_lets); intro x; first | (refine Keeps.cut x ?_ ?_; (on_goal 1 => subst x); (on_goal 2 => (clear_value x; intro hx))) | (have hf := fun a => x a; clear hf; subst x) | clear_value x)
    | with_reducible refine (updProf_keeps ..).after ?_ (by decide)
    | with_reducible refine Keeps.ite ?_ ?_
    | split

theorem trackLoss_keeps : ∀ a1 d, Keeps [.mods] d (trackLoss a1 d) := by
  intro a1 d
  unfold trackLoss
  repeat' first
    | with_reducible exact Keeps.refl _ _
    | with_reducible assumption
    | ((try lift_lets); intro x; first | (refine Keeps.cut x ?_ ?_; (on_goal 1 => subst x); (on_goal 2 => (clear_value x; intro hx))) | (have hf := fun a => x a; clear hf; subst x) | clear_value x)
    | with_reducible refine (updMod_keeps ..).after ?_ (by decide)
    | with_reducible refine Keeps.ite ?_ ?_
    | split

theorem ueState_keeps : ∀ a1 d, Keeps [.devState, .latch, .arbs, .slots, .chans, .profs, .paths, .srcs, .mods, .therm, .faults, .col, .log, .caps, .alert] d (ueState a1 d) := by
  intro a1 d
  unfold ueState
  repeat' first
    | with_reducible exact Keeps.refl _ _
    | with_reducible assumption
    | ((try lift_lets); intro x; first | (refine Keeps.cut x ?_ ?_; (on_goal 1 => subst x); (on_goal 2 => (clear_value x; intro hx))) | (have hf := fun a => x a; clear hf; subst x) | clear_value x)
    | with_reducible refine (modelReinit_keeps ..).after ?_ (by decide)
    | with_reducible refine (hkLost_keeps ..).after ?_ (by decide)
    | with_reducible refine (trackLoss_keeps ..).after ?_ (by decide)
    | with_reducible refine Keeps.ite ?_ ?_
    | split

theorem setInj_keeps : ∀ a1 a2 d, Keeps [.faults] d (setInj a1 a2 d) := by
  intro a1 a2 d
  unfold setInj
  repeat' first
    | with_reducible exact Keeps.refl _ _
    | with_reducible assumption
    | ((try lift_lets); intro x; first | (refine Keeps.cut x ?_ ?_; (on_goal 1 => subst x); (on_goal 2 => (clear_value x; intro hx))) | (have hf := fun a => x a; clear hf; subst x) | clear_value x)
    | with_reducible refine (updFault_keeps ..).after ?_ (by decide)
    | with_reducible refine Keeps.ite ?_ ?_
    | split

theorem ueRaise_keeps : ∀ a1 d, Keeps [.devState, .latch, .arbs, .slots, .chans, .profs, .paths, .srcs, .mods, .therm, .faults, .col, .log, .caps, .alert] d (ueRaise a1 d) := by
  intro a1 d
  unfold ueRaise
  repeat' first
    | with_reducible exact Keeps.refl _ _
    | with_reducible assumption
    | ((try lift_lets); intro x; first | (refine Keeps.cut x ?_ ?_; (on_goal 1 => subst x); (on_goal 2 => (clear_value x; intro hx))) | (have hf := fun a => x a; clear hf; subst x) | clear_value x)
    | with_reducible refine (ueState_keeps ..).after ?_ (by decide)
    | with_reducible refine (raise_keeps ..).after ?_ (by decide)
    | with_reducible refine (setInj_keeps ..).after ?_ (by decide)
    | with_reducible refine Keeps.ite ?_ ?_
    | split

theorem ueFound_keeps : ∀ a1 a2 d, Keeps [.devState, .latch, .arbs, .slots, .chans, .profs, .paths, .srcs, .mods, .therm, .faults, .col, .log, .caps, .mem, .alert] d (ueFound a1 a2 d) := by
  intro a1 a2 d
  unfold ueFound
  repeat' first
    | with_reducible exact Keeps.refl _ _
    | with_reducible assumption
    | ((try lift_lets); intro x; first | (refine Keeps.cut x ?_ ?_; (on_goal 1 => subst x); (on_goal 2 => (clear_value x; intro hx))) | (have hf := fun a => x a; clear hf; subst x) | clear_value x)
    | with_reducible refine (ueRaise_keeps ..).after ?_ (by decide)
    | with_reducible refine (updMem_keeps (S := [.mem]) _ ?_ ?_).after ?_ (by decide)
    | with_reducible refine Keeps.ite ?_ ?_
    | (intro s; refine ⟨fun h => ?_, fun h => ?_, fun h => ?_⟩ <;> first | rfl | (cases h; done) | (split <;> rfl) | (simp; done))
    | (intro h; refine ⟨?_, ?_⟩ <;> first | exact h.1 | exact h.2.1 | exact msets_wf _ _ _ h.1 | exact msets_wf _ _ _ h.2.1 | exact wf_nil | exact filter_wf _ _ h.1 | exact composeMem_wf _ _ _ h.2.2.1)
    | split

theorem remapRow_keeps : ∀ a1 d, Keeps [.devState, .latch, .arbs, .slots, .chans, .profs, .paths, .srcs, .faults, .col, .log, .caps, .mem, .alert] d (remapRow a1 d) := by
  intro a1 d
  unfold remapRow
  repeat' first
    | with_reducible exact Keeps.refl _ _
    | with_reducible assumption
    | ((try lift_lets); intro x; first | (refine Keeps.cut x ?_ ?_; (on_goal 1 => subst x); (on_goal 2 => (clear_value x; intro hx))) | (have hf := fun a => x a; clear hf; subst x) | clear_value x)
    | with_reducible refine (arbRequest_keeps ..).after ?_ (by decide)
    | with_reducible refine (raise_keeps ..).after ?_ (by decide)
    | with_reducible refine (updMem_keeps (S := [.mem]) _ ?_ ?_).after ?_ (by decide)
    | with_reducible refine Keeps.ite ?_ ?_
    | (intro s; refine ⟨fun h => ?_, fun h => ?_, fun h => ?_⟩ <;> first | rfl | (cases h; done) | (split <;> rfl) | (simp; done))
    | (intro h; refine ⟨?_, ?_⟩ <;> first | exact h.1 | exact h.2.1 | exact msets_wf _ _ _ h.1 | exact msets_wf _ _ _ h.2.1 | exact wf_nil | exact filter_wf _ _ h.1 | exact composeMem_wf _ _ _ h.2.2.1)
    | split

theorem rowCorrected_keeps : ∀ a1 d, Keeps [.devState, .latch, .arbs, .slots, .chans, .profs, .paths, .srcs, .faults, .col, .log, .caps, .mem, .alert] d (rowCorrected a1 d) := by
  intro a1 d
  unfold rowCorrected
  repeat' first
    | with_reducible exact Keeps.refl _ _
    | with_reducible assumption
    | ((try lift_lets); intro x; first | (refine Keeps.cut x ?_ ?_; (on_goal 1 => subst x); (on_goal 2 => (clear_value x; intro hx))) | (have hf := fun a => x a; clear hf; subst x) | clear_value x)
    | with_reducible refine (remapRow_keeps ..).after ?_ (by decide)
    | with_reducible refine (updMem_keeps (S := [.mem]) _ ?_ ?_).after ?_ (by decide)
    | with_reducible refine Keeps.ite ?_ ?_
    | (intro s; refine ⟨fun h => ?_, fun h => ?_, fun h => ?_⟩ <;> first | rfl | (cases h; done) | (split <;> rfl) | (simp; done))
    | (intro h; refine ⟨?_, ?_⟩ <;> first | exact h.1 | exact h.2.1 | exact msets_wf _ _ _ h.1 | exact msets_wf _ _ _ h.2.1 | exact wf_nil | exact filter_wf _ _ h.1 | exact composeMem_wf _ _ _ h.2.2.1)
    | split

theorem cwDecode_keeps : ∀ a1 a2 d, Keeps [.devState, .latch, .arbs, .slots, .chans, .profs, .paths, .srcs, .mods, .therm, .faults, .col, .log, .caps, .mem, .alert] d (cwDecode a1 a2 d) := by
  intro a1 a2 d
  unfold cwDecode
  repeat' first
    | with_reducible exact Keeps.refl _ _
    | with_reducible assumption
    | ((try lift_lets); intro x; first | (refine Keeps.cut x ?_ ?_; (on_goal 1 => subst x); (on_goal 2 => (clear_value x; intro hx))) | (have hf := fun a => x a; clear hf; subst x) | clear_value x)
    | with_reducible refine (ueFound_keeps ..).after ?_ (by decide)
    | with_reducible refine (rowCorrected_keeps ..).after ?_ (by decide)
    | with_reducible refine (arbRequest_keeps ..).after ?_ (by decide)
    | with_reducible refine (updMem_keeps (S := [.mem]) _ ?_ ?_).after ?_ (by decide)
    | with_reducible refine Keeps.ite ?_ ?_
    | (intro s; refine ⟨fun h => ?_, fun h => ?_, fun h => ?_⟩ <;> first | rfl | (cases h; done) | (split <;> rfl) | (simp; done))
    | (intro h; refine ⟨?_, ?_⟩ <;> first | exact h.1 | exact h.2.1 | exact msets_wf _ _ _ h.1 | exact msets_wf _ _ _ h.2.1 | exact wf_nil | exact filter_wf _ _ h.1 | exact composeMem_wf _ _ _ h.2.2.1)
    | split

theorem cwRead_keeps : ∀ a1 d, Keeps [.devState, .latch, .arbs, .slots, .chans, .profs, .paths, .srcs, .mods, .therm, .faults, .col, .log, .caps, .mem, .alert] d (cwRead a1 d) := by
  intro a1 d
  unfold cwRead
  repeat' first
    | with_reducible exact Keeps.refl _ _
    | with_reducible assumption
    | ((try lift_lets); intro x; first | (refine Keeps.cut x ?_ ?_; (on_goal 1 => subst x); (on_goal 2 => (clear_value x; intro hx))) | (have hf := fun a => x a; clear hf; subst x) | clear_value x)
    | with_reducible refine (cwDecode_keeps ..).after ?_ (by decide)
    | with_reducible refine Keeps.ite ?_ ?_
    | split

theorem cwReads_keeps : ∀ a1 a2 d, Keeps [.devState, .latch, .arbs, .slots, .chans, .profs, .paths, .srcs, .mods, .therm, .faults, .col, .log, .caps, .mem, .alert] d (cwReads a1 a2 d) := by
  intro a1 a2 d
  unfold cwReads
  repeat' first
    | with_reducible exact Keeps.refl _ _
    | with_reducible assumption
    | ((try lift_lets); intro x; first | (refine Keeps.cut x ?_ ?_; (on_goal 1 => subst x); (on_goal 2 => (clear_value x; intro hx))) | (have hf := fun a => x a; clear hf; subst x) | clear_value x)
    | with_reducible refine (cwRead_keeps ..).after ?_ (by decide)
    | with_reducible refine Keeps.forEach (fun _ _ => ?_) ?_
    | with_reducible refine Keeps.ite ?_ ?_
    | split

theorem calPending_keeps : ∀ d, Keeps [.cal] d (calPending d) := by
  intro d
  unfold calPending
  repeat' first
    | with_reducible exact Keeps.refl _ _
    | with_reducible assumption
    | ((try lift_lets); intro x; first | (refine Keeps.cut x ?_ ?_; (on_goal 1 => subst x); (on_goal 2 => (clear_value x; intro hx))) | (have hf := fun a => x a; clear hf; subst x) | clear_value x)
    | with_reducible refine (updCal_keeps ..).after ?_ (by decide)
    | with_reducible refine Keeps.ite ?_ ?_
    | split

theorem Keeps.toQuad {S : List Part} {q : Quad} {m : Msg} {f : Device → Device} {d e : Device} (hf : ∀ e, Keeps S e (f e)) (h : Keeps S d e)
    (hs : sub [.isl] S = true) : Keeps S d (Sys2Proof.Machine.toQuad q m f e) := by
  unfold Sys2Proof.Machine.toQuad
  exact Keeps.ite ((send_keeps ..).after h hs) (h.trans (hf e))

theorem calWrite_keeps : ∀ a1 a2 d, Keeps [.loader, .arbs, .isl, .cal, .log, .fi, .mem, .conf] d (calWrite a1 a2 d) := by
  intro a1 a2 d
  unfold calWrite
  repeat' first
    | with_reducible exact Keeps.refl _ _
    | with_reducible assumption
    | ((try lift_lets); intro x; first | (refine Keeps.cut x ?_ ?_; (on_goal 1 => subst x); (on_goal 2 => (clear_value x; intro hx))) | (have hf := fun a => x a; clear hf; subst x) | clear_value x)
    | with_reducible refine Keeps.toQuad (fun _ => ?_) ?_ (by decide)
    | with_reducible refine (memWrite_keeps ..).after ?_ (by decide)
    | with_reducible refine (calPending_keeps ..).after ?_ (by decide)
    | with_reducible refine (updMem_keeps (S := [.mem, .conf]) _ ?_ ?_).after ?_ (by decide)
    | with_reducible refine (updLoader_keeps _ ?_).after ?_ (by decide)
    | with_reducible refine Keeps.ite ?_ ?_
    | (intro s; refine ⟨fun h => ?_, fun h => ?_, fun h => ?_⟩ <;> first | rfl | (cases h; done) | (split <;> rfl) | (simp; done))
    | (intro h; refine ⟨?_, ?_⟩ <;> first | exact h.1 | exact h.2.1 | exact msets_wf _ _ _ h.1 | exact msets_wf _ _ _ h.2.1 | exact wf_nil | exact filter_wf _ _ h.1 | exact composeMem_wf _ _ _ h.2.2.1)
    | (intro s h; first | exact h | exact baseOf_wf _ | rfl | exact msets_wf _ _ _ h | (dsimp only; split <;> first | exact h | exact baseOf_wf _ | rfl))
    | split

theorem transfer_keeps : ∀ a1 a2 d, Keeps [.loader, .arbs, .isl, .quads, .cal, .log, .fi, .mem, .conf] d (transfer a1 a2 d) := by
  intro a1 a2 d
  unfold transfer
  repeat' first
    | with_reducible exact Keeps.refl _ _
    | with_reducible assumption
    | ((try lift_lets); intro x; first | (refine Keeps.cut x ?_ ?_; (on_goal 1 => subst x); (on_goal 2 => (clear_value x; intro hx))) | (have hf := fun a => x a; clear hf; subst x) | clear_value x)
    | with_reducible refine (calPending_keeps ..).after ?_ (by decide)
    | with_reducible refine (calWrite_keeps ..).after ?_ (by decide)
    | with_reducible refine (updQuad_keeps ..).after ?_ (by decide)
    | with_reducible refine Keeps.ite ?_ ?_
    | split

theorem modsOut_keeps : ∀ a1 d, Keeps [.devState, .latch, .arbs, .slots, .chans, .profs, .paths, .srcs, .mods, .faults, .col, .log, .caps, .alert] d (modsOut a1 d) := by
  intro a1 d
  unfold modsOut
  repeat' first
    | with_reducible exact Keeps.refl _ _
    | with_reducible assumption
    | ((try lift_lets); intro x; first | (refine Keeps.cut x ?_ ?_; (on_goal 1 => subst x); (on_goal 2 => (clear_value x; intro hx))) | (have hf := fun a => x a; clear hf; subst x) | clear_value x)
    | with_reducible refine (raise_keeps ..).after ?_ (by decide)
    | with_reducible refine (updMod_keeps ..).after ?_ (by decide)
    | with_reducible refine Keeps.ite ?_ ?_
    | split

def grantModParts : List Part :=
  [.devState, .latch, .loader, .arbs, .isl, .slots, .quads, .chans, .profs, .paths, .srcs, .mods, .cal, .therm, .faults, .col, .log, .caps, .fi, .mem, .conf, .swaps, .alert]

theorem grantMod_keeps : ∀ a1 a2 d, Keeps grantModParts d (grantMod a1 a2 d) := by
  intro a1 a2 d
  unfold grantMod
  repeat' first
    | with_reducible exact Keeps.refl _ _
    | with_reducible assumption
    | ((try lift_lets); intro x; first | (refine Keeps.cut x ?_ ?_; (on_goal 1 => subst x); (on_goal 2 => (clear_value x; intro hx))) | (have hf := fun a => x a; clear hf; subst x) | clear_value x)
    | with_reducible refine (cwReads_keeps ..).after ?_ (by decide)
    | with_reducible refine (transfer_keeps ..).after ?_ (by decide)
    | with_reducible refine (modsOut_keeps ..).after ?_ (by decide)
    | with_reducible refine (updMod_keeps ..).after ?_ (by decide)
    | with_reducible refine (updMem_keeps (S := [.mem, .conf, .swaps]) _ ?_ ?_).after ?_ (by decide)
    | with_reducible refine Keeps.forEach (fun _ _ => ?_) ?_
    | with_reducible refine Keeps.ite ?_ ?_
    | (intro s; refine ⟨fun h => ?_, fun h => ?_, fun h => ?_⟩ <;> first | rfl | (cases h; done) | (split <;> rfl) | (simp; done))
    | (intro h; refine ⟨?_, ?_⟩ <;> first | exact h.1 | exact h.2.1 | exact msets_wf _ _ _ h.1 | exact msets_wf _ _ _ h.2.1 | exact wf_nil | exact filter_wf _ _ h.1 | exact composeMem_wf _ _ _ h.2.2.1)
    | split

theorem convStart_keeps : ∀ a1 a2 d, Keeps [.mods] d (convStart a1 a2 d) := by
  intro a1 a2 d
  unfold convStart
  repeat' first
    | with_reducible exact Keeps.refl _ _
    | with_reducible assumption
    | ((try lift_lets); intro x; first | (refine Keeps.cut x ?_ ?_; (on_goal 1 => subst x); (on_goal 2 => (clear_value x; intro hx))) | (have hf := fun a => x a; clear hf; subst x) | clear_value x)
    | with_reducible refine (updMod_keeps ..).after ?_ (by decide)
    | with_reducible refine Keeps.ite ?_ ?_
    | split

theorem writeBack_keeps : ∀ d, Keeps [.arbs, .mem] d (writeBack d) := by
  intro d
  unfold writeBack
  repeat' first
    | with_reducible exact Keeps.refl _ _
    | with_reducible assumption
    | ((try lift_lets); intro x; first | (refine Keeps.cut x ?_ ?_; (on_goal 1 => subst x); (on_goal 2 => (clear_value x; intro hx))) | (have hf := fun a => x a; clear hf; subst x) | clear_value x)
    | with_reducible refine (arbRequest_keeps ..).after ?_ (by decide)
    | with_reducible refine (updMem_keeps (S := [.mem]) _ ?_ ?_).after ?_ (by decide)
    | with_reducible refine Keeps.ite ?_ ?_
    | (intro s; refine ⟨fun h => ?_, fun h => ?_, fun h => ?_⟩ <;> first | rfl | (cases h; done) | (split <;> rfl) | (simp; done))
    | (intro h; refine ⟨?_, ?_⟩ <;> first | exact h.1 | exact h.2.1 | exact msets_wf _ _ _ h.1 | exact msets_wf _ _ _ h.2.1 | exact wf_nil | exact filter_wf _ _ h.1 | exact composeMem_wf _ _ _ h.2.2.1)
    | split

theorem rowCopy_keeps : ∀ d, Keeps [.devState, .latch, .arbs, .slots, .chans, .profs, .paths, .srcs, .mods, .therm, .faults, .col, .log, .caps, .mem, .alert] d (rowCopy d) := by
  intro d
  unfold rowCopy
  repeat' first
    | with_reducible exact Keeps.refl _ _
    | with_reducible assumption
    | ((try lift_lets); intro x; first | (refine Keeps.cut x ?_ ?_; (on_goal 1 => subst x); (on_goal 2 => (clear_value x; intro hx))) | (have hf := fun a => x a; clear hf; subst x) | clear_value x)
    | with_reducible refine (cwRead_keeps ..).after ?_ (by decide)
    | with_reducible refine (arbRequest_keeps ..).after ?_ (by decide)
    | with_reducible refine (updMem_keeps (S := [.mem]) _ ?_ ?_).after ?_ (by decide)
    | with_reducible refine Keeps.ite ?_ ?_
    | (intro s; refine ⟨fun h => ?_, fun h => ?_, fun h => ?_⟩ <;> first | rfl | (cases h; done) | (split <;> rfl) | (simp; done))
    | (intro h; refine ⟨?_, ?_⟩ <;> first | exact h.1 | exact h.2.1 | exact msets_wf _ _ _ h.1 | exact msets_wf _ _ _ h.2.1 | exact wf_nil | exact filter_wf _ _ h.1 | exact composeMem_wf _ _ _ h.2.2.1)
    | split

theorem captureWrite_keeps : ∀ d, Keeps [.arbs, .log, .caps, .fi, .mem] d (captureWrite d) := by
  intro d
  unfold captureWrite
  repeat' first
    | with_reducible exact Keeps.refl _ _
    | with_reducible assumption
    | ((try lift_lets); intro x; first | (refine Keeps.cut x ?_ ?_; (on_goal 1 => subst x); (on_goal 2 => (clear_value x; intro hx))) | (have hf := fun a => x a; clear hf; subst x) | clear_value x)
    | with_reducible refine (memWrite_keeps ..).after ?_ (by decide)
    | with_reducible refine (arbRequest_keeps ..).after ?_ (by decide)
    | with_reducible refine (updCol_keeps (S := [.log, .caps, .fi]) _ ?_).after ?_ (by decide)
    | with_reducible refine Keeps.ite ?_ ?_
    | (intro s; refine ⟨fun h => ?_, fun h => ?_, fun h => ?_, fun h => ?_⟩ <;> first | rfl | (cases h; done) | (split <;> rfl) | (simp; done))
    | (refine ⟨fun h => ?_, fun h => ?_, fun h => ?_, fun h => ?_⟩ <;> first | rfl | (cases h; done) | (split <;> rfl) | (simp; done))
    | split

theorem modelStore_keeps : ∀ d, Keeps [.arbs, .log, .fi, .mem] d (modelStore d) := by
  intro d
  unfold modelStore
  repeat' first
    | with_reducible exact Keeps.refl _ _
    | with_reducible assumption
    | ((try lift_lets); intro x; first | (refine Keeps.cut x ?_ ?_; (on_goal 1 => subst x); (on_goal 2 => (clear_value x; intro hx))) | (have hf := fun a => x a; clear hf; subst x) | clear_value x)
    | with_reducible refine (memWrite_keeps ..).after ?_ (by decide)
    | with_reducible refine (arbRequest_keeps ..).after ?_ (by decide)
    | with_reducible refine (updMem_keeps (S := [.mem]) _ ?_ ?_).after ?_ (by decide)
    | with_reducible refine Keeps.ite ?_ ?_
    | (intro s; refine ⟨fun h => ?_, fun h => ?_, fun h => ?_⟩ <;> first | rfl | (cases h; done) | (split <;> rfl) | (simp; done))
    | (intro h; refine ⟨?_, ?_⟩ <;> first | exact h.1 | exact h.2.1 | exact msets_wf _ _ _ h.1 | exact msets_wf _ _ _ h.2.1 | exact wf_nil | exact filter_wf _ _ h.1 | exact composeMem_wf _ _ _ h.2.2.1)
    | split

theorem mirrorWrite_keeps : ∀ d, Keeps [.arbs, .log, .fi, .mem] d (mirrorWrite d) := by
  intro d
  unfold mirrorWrite
  repeat' first
    | with_reducible exact Keeps.refl _ _
    | with_reducible assumption
    | ((try lift_lets); intro x; first | (refine Keeps.cut x ?_ ?_; (on_goal 1 => subst x); (on_goal 2 => (clear_value x; intro hx))) | (have hf := fun a => x a; clear hf; subst x) | clear_value x)
    | with_reducible refine (memWrite_keeps ..).after ?_ (by decide)
    | with_reducible refine (arbRequest_keeps ..).after ?_ (by decide)
    | with_reducible refine (updMem_keeps (S := [.mem]) _ ?_ ?_).after ?_ (by decide)
    | with_reducible refine Keeps.ite ?_ ?_
    | (intro s; refine ⟨fun h => ?_, fun h => ?_, fun h => ?_⟩ <;> first | rfl | (cases h; done) | (split <;> rfl) | (simp; done))
    | (intro h; refine ⟨?_, ?_⟩ <;> first | exact h.1 | exact h.2.1 | exact msets_wf _ _ _ h.1 | exact msets_wf _ _ _ h.2.1 | exact wf_nil | exact filter_wf _ _ h.1 | exact composeMem_wf _ _ _ h.2.2.1)
    | split

theorem portGrant_keeps : ∀ a1 d, Keeps [.devState, .latch, .arbs, .slots, .chans, .profs, .paths, .srcs, .mods, .therm, .faults, .col, .log, .caps, .fi, .mem, .alert] d (portGrant a1 d) := by
  intro a1 d
  unfold portGrant
  repeat' first
    | with_reducible exact Keeps.refl _ _
    | with_reducible assumption
    | ((try lift_lets); intro x; first | (refine Keeps.cut x ?_ ?_; (on_goal 1 => subst x); (on_goal 2 => (clear_value x; intro hx))) | (have hf := fun a => x a; clear hf; subst x) | clear_value x)
    | with_reducible refine (writeBack_keeps ..).after ?_ (by decide)
    | with_reducible refine (arbRelease_keeps ..).after ?_ (by decide)
    | with_reducible refine (rowCopy_keeps ..).after ?_ (by decide)
    | with_reducible refine (captureWrite_keeps ..).after ?_ (by decide)
    | with_reducible refine (modelStore_keeps ..).after ?_ (by decide)
    | with_reducible refine (mirrorWrite_keeps ..).after ?_ (by decide)
    | with_reducible refine Keeps.ite ?_ ?_
    | split

def grantEffectParts : List Part :=
  [.devState, .latch, .loader, .bootp, .arbs, .isl, .slots, .quads, .chans, .profs, .paths, .srcs, .mods, .cal, .therm, .faults, .col, .log, .caps, .fi, .mem, .conf, .swaps, .sup, .alert]

theorem grantEffect_keeps : ∀ a1 a2 d, Keeps grantEffectParts d (grantEffect a1 a2 d) := by
  intro a1 a2 d
  unfold grantEffect
  repeat' first
    | with_reducible exact Keeps.refl _ _
    | with_reducible assumption
    | ((try lift_lets); intro x; first | (refine Keeps.cut x ?_ ?_; (on_goal 1 => subst x); (on_goal 2 => (clear_value x; intro hx))) | (have hf := fun a => x a; clear hf; subst x) | clear_value x)
    | with_reducible refine (grantSlot_keeps ..).after ?_ (by decide)
    | with_reducible refine (arbRelease_keeps ..).after ?_ (by decide)
    | with_reducible refine (grantMod_keeps ..).after ?_ (by decide)
    | with_reducible refine (convStart_keeps ..).after ?_ (by decide)
    | with_reducible refine (portGrant_keeps ..).after ?_ (by decide)
    | with_reducible refine (updBoot_keeps ..).after ?_ (by decide)
    | with_reducible refine (updSup_keeps (S := [.sup, .alert]) _ ?_).after ?_ (by decide)
    | with_reducible refine Keeps.ite ?_ ?_
    | (intro s; refine ⟨fun h => ?_, fun h => ?_⟩ <;> first | rfl | (cases h; done) | (split <;> rfl) | (simp; done))
    | (refine ⟨fun h => ?_, fun h => ?_⟩ <;> first | rfl | (cases h; done) | (split <;> rfl) | (simp; done))
    | split

def arbiterDecisionParts : List Part :=
  [.devState, .latch, .loader, .bootp, .arbs, .isl, .slots, .quads, .chans, .profs, .paths, .srcs, .mods, .cal, .therm, .faults, .col, .log, .caps, .fi, .mem, .conf, .swaps, .sup, .alert]

theorem arbiterDecision_keeps : ∀ a1 d, Keeps arbiterDecisionParts d (arbiterDecision a1 d) := by
  intro a1 d
  unfold arbiterDecision
  repeat' first
    | with_reducible exact Keeps.refl _ _
    | with_reducible assumption
    | ((try lift_lets); intro x; first | (refine Keeps.cut x ?_ ?_; (on_goal 1 => subst x); (on_goal 2 => (clear_value x; intro hx))) | (have hf := fun a => x a; clear hf; subst x) | clear_value x)
    | with_reducible refine (hlDrop_keeps ..).after ?_ (by decide)
    | with_reducible refine (grantEffect_keeps ..).after ?_ (by decide)
    | with_reducible refine (updArb_keeps ..).after ?_ (by decide)
    | with_reducible refine Keeps.ite ?_ ?_
    | split

theorem setEntry_keeps : ∀ a1 a2 d, Keeps [.sup] d (setEntry a1 a2 d) := by
  intro a1 a2 d
  unfold setEntry
  repeat' first
    | with_reducible exact Keeps.refl _ _
    | with_reducible assumption
    | ((try lift_lets); intro x; first | (refine Keeps.cut x ?_ ?_; (on_goal 1 => subst x); (on_goal 2 => (clear_value x; intro hx))) | (have hf := fun a => x a; clear hf; subst x) | clear_value x)
    | with_reducible refine (updSup_keeps (S := [.sup]) _ ?_).after ?_ (by decide)
    | with_reducible refine Keeps.ite ?_ ?_
    | (intro s; refine ⟨fun h => ?_, fun h => ?_⟩ <;> first | rfl | (cases h; done) | (split <;> rfl) | (simp; done))
    | (refine ⟨fun h => ?_, fun h => ?_⟩ <;> first | rfl | (cases h; done) | (split <;> rfl) | (simp; done))
    | split

theorem pollFailed_keeps : ∀ a1 a2 d, Keeps [.sup] d (pollFailed a1 a2 d) := by
  intro a1 a2 d
  unfold pollFailed
  repeat' first
    | with_reducible exact Keeps.refl _ _
    | with_reducible assumption
    | ((try lift_lets); intro x; first | (refine Keeps.cut x ?_ ?_; (on_goal 1 => subst x); (on_goal 2 => (clear_value x; intro hx))) | (have hf := fun a => x a; clear hf; subst x) | clear_value x)
    | with_reducible refine (setEntry_keeps ..).after ?_ (by decide)
    | with_reducible refine (updSup_keeps (S := [.sup]) _ ?_).after ?_ (by decide)
    | with_reducible refine Keeps.ite ?_ ?_
    | (intro s; refine ⟨fun h => ?_, fun h => ?_⟩ <;> first | rfl | (cases h; done) | (split <;> rfl) | (simp; done))
    | (refine ⟨fun h => ?_, fun h => ?_⟩ <;> first | rfl | (cases h; done) | (split <;> rfl) | (simp; done))
    | split

theorem pollOver_keeps : ∀ d, Keeps [.arbs, .sup] d (pollOver d) := by
  intro d
  unfold pollOver
  repeat' first
    | with_reducible exact Keeps.refl _ _
    | with_reducible assumption
    | ((try lift_lets); intro x; first | (refine Keeps.cut x ?_ ?_; (on_goal 1 => subst x); (on_goal 2 => (clear_value x; intro hx))) | (have hf := fun a => x a; clear hf; subst x) | clear_value x)
    | with_reducible refine (arbRelease_keeps ..).after ?_ (by decide)
    | with_reducible refine (updSup_keeps (S := [.sup]) _ ?_).after ?_ (by decide)
    | with_reducible refine Keeps.ite ?_ ?_
    | (intro s; refine ⟨fun h => ?_, fun h => ?_⟩ <;> first | rfl | (cases h; done) | (split <;> rfl) | (simp; done))
    | (refine ⟨fun h => ?_, fun h => ?_⟩ <;> first | rfl | (cases h; done) | (split <;> rfl) | (simp; done))
    | split

theorem arbitrationLost_keeps : ∀ a1 d, Keeps [.arbs, .sup] d (arbitrationLost a1 d) := by
  intro a1 d
  unfold arbitrationLost
  repeat' first
    | with_reducible exact Keeps.refl _ _
    | with_reducible assumption
    | ((try lift_lets); intro x; first | (refine Keeps.cut x ?_ ?_; (on_goal 1 => subst x); (on_goal 2 => (clear_value x; intro hx))) | (have hf := fun a => x a; clear hf; subst x) | clear_value x)
    | with_reducible refine (pollFailed_keeps ..).after ?_ (by decide)
    | with_reducible refine (pollOver_keeps ..).after ?_ (by decide)
    | with_reducible refine (updSup_keeps (S := [.sup]) _ ?_).after ?_ (by decide)
    | with_reducible refine Keeps.ite ?_ ?_
    | (intro s; refine ⟨fun h => ?_, fun h => ?_⟩ <;> first | rfl | (cases h; done) | (split <;> rfl) | (simp; done))
    | (refine ⟨fun h => ?_, fun h => ?_⟩ <;> first | rfl | (cases h; done) | (split <;> rfl) | (simp; done))
    | split

theorem assessArmed_keeps : ∀ a1 d, Keeps [.arbs, .isl, .profs, .rings, .writers, .nobind] d (assessArmed a1 d) := by
  intro a1 d
  unfold assessArmed
  repeat' first
    | with_reducible exact Keeps.refl _ _
    | with_reducible assumption
    | ((try lift_lets); intro x; first | (refine Keeps.cut x ?_ ?_; (on_goal 1 => subst x); (on_goal 2 => (clear_value x; intro hx))) | (have hf := fun a => x a; clear hf; subst x) | clear_value x)
    | with_reducible refine (setPhase_keeps ..).after ?_ (by decide)
    | with_reducible refine (updProf_keeps ..).after ?_ (by decide)
    | with_reducible refine Keeps.ite ?_ ?_
    | split

theorem armQuad_keeps : ∀ a1 d, Keeps [.quads] d (armQuad a1 d) := by
  intro a1 d
  unfold armQuad
  repeat' first
    | with_reducible exact Keeps.refl _ _
    | with_reducible assumption
    | ((try lift_lets); intro x; first | (refine Keeps.cut x ?_ ?_; (on_goal 1 => subst x); (on_goal 2 => (clear_value x; intro hx))) | (have hf := fun a => x a; clear hf; subst x) | clear_value x)
    | with_reducible refine (updQuad_keeps ..).after ?_ (by decide)
    | with_reducible refine Keeps.ite ?_ ?_
    | split

end Sys2Proof.Machine
end

