-- ==== Sys2Proof/Laws/Keeps3.lean ====
section
/-! SUPPORT. Sys2Proof/Laws/Keeps3.lean: what each operation of the model leaves unchanged (one lemma per operation, in the order of their use). -/

namespace Sys2Proof.Machine

set_option linter.unusedTactic false
set_option linter.unreachableTactic false
set_option linter.unusedVariables false

theorem armChan_keeps : ∀ a1 d, Keeps [.arbs, .isl, .quads, .chans, .profs, .rings, .writers, .nobind] d (armChan a1 d) := by
  intro a1 d
  unfold armChan
  repeat' first
    | with_reducible exact Keeps.refl _ _
    | with_reducible assumption
    | ((try lift_lets); intro x; first | (refine Keeps.cut x ?_ ?_; (on_goal 1 => subst x); (on_goal 2 => (clear_value x; intro hx))) | (have hf := fun a => x a; clear hf; subst x) | clear_value x)
    | with_reducible refine (assessArmed_keeps ..).after ?_ (by decide)
    | with_reducible refine (armQuad_keeps ..).after ?_ (by decide)
    | with_reducible refine (updChan_keeps ..).after ?_ (by decide)
    | with_reducible refine Keeps.ite ?_ ?_
    | split

theorem refusedInRun_keeps : ∀ a1 a2 d, Keeps [.arbs, .log, .alert] d (refusedInRun a1 a2 d) := by
  intro a1 a2 d
  unfold refusedInRun
  repeat' first
    | with_reducible exact Keeps.refl _ _
    | with_reducible assumption
    | ((try lift_lets); intro x; first | (refine Keeps.cut x ?_ ?_; (on_goal 1 => subst x); (on_goal 2 => (clear_value x; intro hx))) | (have hf := fun a => x a; clear hf; subst x) | clear_value x)
    | with_reducible refine (alertSet_keeps ..).after ?_ (by decide)
    | with_reducible refine (logEvent_keeps ..).after ?_ (by decide)
    | with_reducible refine Keeps.ite ?_ ?_
    | split

theorem setDetail_keeps : ∀ a1 a2 d, Keeps [.check] d (setDetail a1 a2 d) := by
  intro a1 a2 d
  unfold setDetail
  repeat' first
    | with_reducible exact Keeps.refl _ _
    | with_reducible assumption
    | ((try lift_lets); intro x; first | (refine Keeps.cut x ?_ ?_; (on_goal 1 => subst x); (on_goal 2 => (clear_value x; intro hx))) | (have hf := fun a => x a; clear hf; subst x) | clear_value x)
    | with_reducible refine (updCheck_keeps ..).after ?_ (by decide)
    | with_reducible refine Keeps.ite ?_ ?_
    | split

theorem setStartCheck_keeps : ∀ a1 a2 d, Keeps [.check] d (setStartCheck a1 a2 d) := by
  intro a1 a2 d
  unfold setStartCheck
  repeat' first
    | with_reducible exact Keeps.refl _ _
    | with_reducible assumption
    | ((try lift_lets); intro x; first | (refine Keeps.cut x ?_ ?_; (on_goal 1 => subst x); (on_goal 2 => (clear_value x; intro hx))) | (have hf := fun a => x a; clear hf; subst x) | clear_value x)
    | with_reducible refine (updCheck_keeps ..).after ?_ (by decide)
    | with_reducible refine Keeps.ite ?_ ?_
    | split

theorem rollPush_keeps : ∀ a1 a2 d, Keeps [.cvn] d (rollPush a1 a2 d) := by
  intro a1 a2 d
  unfold rollPush
  repeat' first
    | with_reducible exact Keeps.refl _ _
    | with_reducible assumption
    | ((try lift_lets); intro x; first | (refine Keeps.cut x ?_ ?_; (on_goal 1 => subst x); (on_goal 2 => (clear_value x; intro hx))) | (have hf := fun a => x a; clear hf; subst x) | clear_value x)
    | with_reducible refine (updCvn_keeps ..).after ?_ (by decide)
    | with_reducible refine Keeps.ite ?_ ?_
    | split

theorem sourceRef_keeps : ∀ d, Keeps [.cvn] d (sourceRef d) := by
  intro d
  unfold sourceRef
  repeat' first
    | with_reducible exact Keeps.refl _ _
    | with_reducible assumption
    | ((try lift_lets); intro x; first | (refine Keeps.cut x ?_ ?_; (on_goal 1 => subst x); (on_goal 2 => (clear_value x; intro hx))) | (have hf := fun a => x a; clear hf; subst x) | clear_value x)
    | with_reducible refine (updCvn_keeps ..).after ?_ (by decide)
    | with_reducible refine Keeps.ite ?_ ?_
    | split

theorem readsActive_keeps : ∀ a1 d, Keeps [.devState, .latch, .arbs, .slots, .chans, .profs, .paths, .srcs, .faults, .col, .log, .caps, .alert] d (readsActive a1 d) := by
  intro a1 d
  unfold readsActive
  repeat' first
    | with_reducible exact Keeps.refl _ _
    | with_reducible assumption
    | ((try lift_lets); intro x; first | (refine Keeps.cut x ?_ ?_; (on_goal 1 => subst x); (on_goal 2 => (clear_value x; intro hx))) | (have hf := fun a => x a; clear hf; subst x) | clear_value x)
    | with_reducible refine (raiseX_keeps ..).after ?_ (by decide)
    | with_reducible refine (updFault_keeps ..).after ?_ (by decide)
    | with_reducible refine Keeps.ite ?_ ?_
    | split

theorem faultEnds_keeps : ∀ a1 d, Keeps [.devState, .latch, .arbs, .slots, .chans, .profs, .paths, .srcs, .faults, .col, .log, .caps, .alert] d (faultEnds a1 d) := by
  intro a1 d
  unfold faultEnds
  repeat' first
    | with_reducible exact Keeps.refl _ _
    | with_reducible assumption
    | ((try lift_lets); intro x; first | (refine Keeps.cut x ?_ ?_; (on_goal 1 => subst x); (on_goal 2 => (clear_value x; intro hx))) | (have hf := fun a => x a; clear hf; subst x) | clear_value x)
    | with_reducible refine (readsActive_keeps ..).after ?_ (by decide)
    | with_reducible refine (updFault_keeps ..).after ?_ (by decide)
    | with_reducible refine Keeps.ite ?_ ?_
    | split

theorem becomeSource_keeps : ∀ a1 d, Keeps [.devState, .latch, .arbs, .cvn, .slots, .chans, .profs, .paths, .srcs, .faults, .col, .log, .caps, .alert] d (becomeSource a1 d) := by
  intro a1 d
  unfold becomeSource
  repeat' first
    | with_reducible exact Keeps.refl _ _
    | with_reducible assumption
    | ((try lift_lets); intro x; first | (refine Keeps.cut x ?_ ?_; (on_goal 1 => subst x); (on_goal 2 => (clear_value x; intro hx))) | (have hf := fun a => x a; clear hf; subst x) | clear_value x)
    | with_reducible refine (faultEnds_keeps ..).after ?_ (by decide)
    | with_reducible refine (updCvn_keeps ..).after ?_ (by decide)
    | with_reducible refine Keeps.ite ?_ ?_
    | split

theorem joinEnter_keeps : ∀ d, Keeps [.start, .devState, .latch, .arbs, .isl, .launches, .cvn, .slots, .chans, .profs, .paths, .srcs, .faults, .col, .log, .caps, .alert] d (joinEnter d) := by
  intro d
  unfold joinEnter
  repeat' first
    | with_reducible exact Keeps.refl _ _
    | with_reducible assumption
    | ((try lift_lets); intro x; first | (refine Keeps.cut x ?_ ?_; (on_goal 1 => subst x); (on_goal 2 => (clear_value x; intro hx))) | (have hf := fun a => x a; clear hf; subst x) | clear_value x)
    | with_reducible refine (resolve_keeps ..).after ?_ (by decide)
    | with_reducible refine (rollPush_keeps ..).after ?_ (by decide)
    | with_reducible refine (sourceRef_keeps ..).after ?_ (by decide)
    | with_reducible refine (becomeSource_keeps ..).after ?_ (by decide)
    | with_reducible refine (updStart_keeps (S := [.start, .devState, .latch]) _ ?_).after ?_ (by decide)
    | with_reducible refine (updCvn_keeps ..).after ?_ (by decide)
    | with_reducible refine Keeps.ite ?_ ?_
    | (intro s; refine ⟨fun h => ?_, fun h => ?_, fun h => ?_⟩ <;> first | rfl | (cases h; done) | (split <;> rfl) | (simp; done))
    | (refine ⟨fun h => ?_, fun h => ?_, fun h => ?_⟩ <;> first | rfl | (cases h; done) | (split <;> rfl) | (simp; done))
    | split

theorem armRegionNow_keeps : ∀ a1 d, Keeps [.arbs, .isl, .quads, .chans, .profs, .rings, .writers, .nobind] d (armRegionNow a1 d) := by
  intro a1 d
  unfold armRegionNow
  repeat' first
    | with_reducible exact Keeps.refl _ _
    | with_reducible assumption
    | ((try lift_lets); intro x; first | (refine Keeps.cut x ?_ ?_; (on_goal 1 => subst x); (on_goal 2 => (clear_value x; intro hx))) | (have hf := fun a => x a; clear hf; subst x) | clear_value x)
    | with_reducible refine (armChan_keeps ..).after ?_ (by decide)
    | with_reducible refine (armQuad_keeps ..).after ?_ (by decide)
    | with_reducible refine Keeps.ite ?_ ?_
    | split

theorem armSend_keeps : ∀ a1 d, Keeps [.arbs, .isl, .quads, .chans, .profs, .rings, .writers, .nobind] d (armSend a1 d) := by
  intro a1 d
  unfold armSend
  repeat' first
    | with_reducible exact Keeps.refl _ _
    | with_reducible assumption
    | ((try lift_lets); intro x; first | (refine Keeps.cut x ?_ ?_; (on_goal 1 => subst x); (on_goal 2 => (clear_value x; intro hx))) | (have hf := fun a => x a; clear hf; subst x) | clear_value x)
    | with_reducible refine Keeps.toQuad (fun _ => ?_) ?_ (by decide)
    | with_reducible refine (armRegionNow_keeps ..).after ?_ (by decide)
    | with_reducible refine Keeps.ite ?_ ?_
    | split

theorem launchSoon_keeps : ∀ a1 d, Keeps [.isl, .launches] d (launchSoon a1 d) := by
  intro a1 d
  unfold launchSoon
  repeat' first
    | with_reducible exact Keeps.refl _ _
    | with_reducible assumption
    | ((try lift_lets); intro x; first | (refine Keeps.cut x ?_ ?_; (on_goal 1 => subst x); (on_goal 2 => (clear_value x; intro hx))) | (have hf := fun a => x a; clear hf; subst x) | clear_value x)
    | with_reducible refine (launchAll_keeps ..).after ?_ (by decide)
    | with_reducible refine Keeps.ite ?_ ?_
    | split

theorem armCheckDone_keeps : ∀ d, Keeps [.start, .devState, .latch, .check, .arbs, .isl, .launches, .cvn, .slots, .quads, .chans, .profs, .paths, .srcs, .rings, .writers, .nobind, .faults, .col, .log, .caps, .alert] d (armCheckDone d) := by
  intro d
  unfold armCheckDone
  repeat' first
    | with_reducible exact Keeps.refl _ _
    | with_reducible assumption
    | ((try lift_lets); intro x; first | (refine Keeps.cut x ?_ ?_; (on_goal 1 => subst x); (on_goal 2 => (clear_value x; intro hx))) | (have hf := fun a => x a; clear hf; subst x) | clear_value x)
    | with_reducible refine (refusedInRun_keeps ..).after ?_ (by decide)
    | with_reducible refine (setDetail_keeps ..).after ?_ (by decide)
    | with_reducible refine (setStartCheck_keeps ..).after ?_ (by decide)
    | with_reducible refine (joinEnter_keeps ..).after ?_ (by decide)
    | with_reducible refine (armSend_keeps ..).after ?_ (by decide)
    | with_reducible refine (launchSoon_keeps ..).after ?_ (by decide)
    | with_reducible refine (updCheck_keeps ..).after ?_ (by decide)
    | with_reducible refine Keeps.ite ?_ ?_
    | split

theorem armEnabled_keeps : ∀ d, Keeps [.arbs, .isl, .quads, .chans, .profs, .rings, .writers, .nobind] d (armEnabled d) := by
  intro d
  unfold armEnabled
  repeat' first
    | with_reducible exact Keeps.refl _ _
    | with_reducible assumption
    | ((try lift_lets); intro x; first | (refine Keeps.cut x ?_ ?_; (on_goal 1 => subst x); (on_goal 2 => (clear_value x; intro hx))) | (have hf := fun a => x a; clear hf; subst x) | clear_value x)
    | with_reducible refine (armSend_keeps ..).after ?_ (by decide)
    | with_reducible refine Keeps.forEach (fun _ _ => ?_) ?_
    | with_reducible refine Keeps.ite ?_ ?_
    | split

theorem countRefused_keeps : ∀ d, Keeps [.sup] d (countRefused d) := by
  intro d
  unfold countRefused
  repeat' first
    | with_reducible exact Keeps.refl _ _
    | with_reducible assumption
    | ((try lift_lets); intro x; first | (refine Keeps.cut x ?_ ?_; (on_goal 1 => subst x); (on_goal 2 => (clear_value x; intro hx))) | (have hf := fun a => x a; clear hf; subst x) | clear_value x)
    | with_reducible refine (updSup_keeps (S := [.sup]) _ ?_).after ?_ (by decide)
    | with_reducible refine Keeps.ite ?_ ?_
    | (intro s; refine ⟨fun h => ?_, fun h => ?_⟩ <;> first | rfl | (cases h; done) | (split <;> rfl) | (simp; done))
    | (refine ⟨fun h => ?_, fun h => ?_⟩ <;> first | rfl | (cases h; done) | (split <;> rfl) | (simp; done))
    | split

theorem record_keeps : ∀ a1 a2 a3 d, Keeps [.sup] d (record a1 a2 a3 d) := by
  intro a1 a2 a3 d
  unfold record
  repeat' first
    | with_reducible exact Keeps.refl _ _
    | with_reducible assumption
    | ((try lift_lets); intro x; first | (refine Keeps.cut x ?_ ?_; (on_goal 1 => subst x); (on_goal 2 => (clear_value x; intro hx))) | (have hf := fun a => x a; clear hf; subst x) | clear_value x)
    | with_reducible refine (countRefused_keeps ..).after ?_ (by decide)
    | with_reducible refine (updSup_keeps (S := [.sup]) _ ?_).after ?_ (by decide)
    | with_reducible refine Keeps.ite ?_ ?_
    | (intro s; refine ⟨fun h => ?_, fun h => ?_⟩ <;> first | rfl | (cases h; done) | (split <;> rfl) | (simp; done))
    | (refine ⟨fun h => ?_, fun h => ?_⟩ <;> first | rfl | (cases h; done) | (split <;> rfl) | (simp; done))
    | split

theorem Keeps.blockWrite {S : List Part} {code : Byte} {lo hi : Nat} {svc : Bool} {w : BlockWrite} {judge : List Byte → Device → Nat × Nat}
    {act : Nat → List Byte → Device → Device} {d e : Device} (ha : ∀ r bs e, Keeps S e (act r bs e)) (h : Keeps S d e)
    (hs : sub [.sup] S = true) : Keeps S d (Sys2Proof.Machine.blockWrite code lo hi svc w judge act e) := by
  unfold Sys2Proof.Machine.blockWrite
  have hk := (ack_keeps e).after h hs
  refine Keeps.ite ((noAck_keeps ..).after h hs) ?_
  refine Keeps.ite hk (Keeps.ite ((countRefused_keeps ..).after ((noAck_keeps ..).after hk hs) hs) (Keeps.ite ((record_keeps ..).after hk hs) (Keeps.ite ?_ ?_)))
  · refine (updSup_keeps (S := [.sup]) _ ?_).after hk hs
    intro s; refine ⟨fun h => ?_, fun h => ?_⟩ <;> first | rfl | cases h
  · exact (record_keeps ..).after (hk.trans (ha _ _ _)) hs

theorem Keeps.ifOk {S : List Part} {f : List Byte → Device → Device} {r : Nat} {bs : List Byte} {d e : Device}
    (hf : ∀ bs e, Keeps S e (f bs e)) (h : Keeps S d e) : Keeps S d (Sys2Proof.Machine.ifOk f r bs e) := by
  unfold Sys2Proof.Machine.ifOk
  exact Keeps.ite (h.trans (hf _ _)) h

theorem armRegion_keeps : ∀ a1 d, Keeps [.check, .sup] d (armRegion a1 d) := by
  intro a1 d
  unfold armRegion
  repeat' first
    | with_reducible exact Keeps.refl _ _
    | with_reducible assumption
    | ((try lift_lets); intro x; first | (refine Keeps.cut x ?_ ?_; (on_goal 1 => subst x); (on_goal 2 => (clear_value x; intro hx))) | (have hf := fun a => x a; clear hf; subst x) | clear_value x)
    | with_reducible refine Keeps.blockWrite (fun _ _ _ => ?_) ?_ (by decide)
    | with_reducible refine Keeps.ifOk (fun _ _ => ?_) ?_
    | with_reducible refine (updCheck_keeps ..).after ?_ (by decide)
    | with_reducible refine Keeps.ite ?_ ?_
    | split

theorem hostStopArrives_keeps : ∀ a1 a2 d, Keeps [.arbs, .isl, .chans, .profs, .paths, .rings, .writers, .nobind] d (hostStopArrives a1 a2 d) := by
  intro a1 a2 d
  unfold hostStopArrives
  repeat' first
    | with_reducible exact Keeps.refl _ _
    | with_reducible assumption
    | ((try lift_lets); intro x; first | (refine Keeps.cut x ?_ ?_; (on_goal 1 => subst x); (on_goal 2 => (clear_value x; intro hx))) | (have hf := fun a => x a; clear hf; subst x) | clear_value x)
    | with_reducible refine (pauseProf_keeps ..).after ?_ (by decide)
    | with_reducible refine (restartReq_keeps ..).after ?_ (by decide)
    | with_reducible refine (updChan_keeps ..).after ?_ (by decide)
    | with_reducible refine (updPath_keeps ..).after ?_ (by decide)
    | with_reducible refine Keeps.ite ?_ ?_
    | split

theorem launchAt_keeps : ∀ a1 a2 d, Keeps [.arbs, .isl, .launches, .halt, .log] d (launchAt a1 a2 d) := by
  intro a1 a2 d
  unfold launchAt
  repeat' first
    | with_reducible exact Keeps.refl _ _
    | with_reducible assumption
    | ((try lift_lets); intro x; first | (refine Keeps.cut x ?_ ?_; (on_goal 1 => subst x); (on_goal 2 => (clear_value x; intro hx))) | (have hf := fun a => x a; clear hf; subst x) | clear_value x)
    | with_reducible refine (launchAdd_keeps ..).after ?_ (by decide)
    | with_reducible refine (launchLate_keeps ..).after ?_ (by decide)
    | with_reducible refine Keeps.ite ?_ ?_
    | split

theorem setBus_keeps : ∀ a1 d, Keeps [.isl, .bus] d (setBus a1 d) := by
  intro a1 d
  unfold setBus
  repeat' first
    | with_reducible exact Keeps.refl _ _
    | with_reducible assumption
    | ((try lift_lets); intro x; first | (refine Keeps.cut x ?_ ?_; (on_goal 1 => subst x); (on_goal 2 => (clear_value x; intro hx))) | (have hf := fun a => x a; clear hf; subst x) | clear_value x)
    | with_reducible refine (send_keeps ..).after ?_ (by decide)
    | with_reducible refine (updBus_keeps ..).after ?_ (by decide)
    | with_reducible refine Keeps.forEach (fun _ _ => ?_) ?_
    | with_reducible refine Keeps.ite ?_ ?_
    | split

theorem sendBudgets_keeps : ∀ a1 d, Keeps [.isl] d (sendBudgets a1 d) := by
  intro a1 d
  unfold sendBudgets
  repeat' first
    | with_reducible exact Keeps.refl _ _
    | with_reducible assumption
    | ((try lift_lets); intro x; first | (refine Keeps.cut x ?_ ?_; (on_goal 1 => subst x); (on_goal 2 => (clear_value x; intro hx))) | (have hf := fun a => x a; clear hf; subst x) | clear_value x)
    | with_reducible refine (send_keeps ..).after ?_ (by decide)
    | with_reducible refine Keeps.forEach (fun _ _ => ?_) ?_
    | with_reducible refine Keeps.ite ?_ ?_
    | split

theorem handover_keeps : ∀ d, Keeps [.devState, .latch, .arbs, .isl, .slots, .chans, .profs, .paths, .srcs, .bus, .faults, .col, .log, .caps, .alert] d (handover d) := by
  intro d
  unfold handover
  repeat' first
    | with_reducible exact Keeps.refl _ _
    | with_reducible assumption
    | ((try lift_lets); intro x; first | (refine Keeps.cut x ?_ ?_; (on_goal 1 => subst x); (on_goal 2 => (clear_value x; intro hx))) | (have hf := fun a => x a; clear hf; subst x) | clear_value x)
    | with_reducible refine (setBus_keeps ..).after ?_ (by decide)
    | with_reducible refine (sendBudgets_keeps ..).after ?_ (by decide)
    | with_reducible refine (raise_keeps ..).after ?_ (by decide)
    | with_reducible refine (updBus_keeps ..).after ?_ (by decide)
    | with_reducible refine Keeps.ite ?_ ?_
    | (fail_if_no_progress with_reducible refine (set_srcs_keeps _ _).after ?_ (by decide))
    | split

theorem halveQuad_keeps : ∀ a1 d, Keeps [.slots, .quads, .chans, .profs, .paths] d (halveQuad a1 d) := by
  intro a1 d
  unfold halveQuad
  repeat' first
    | with_reducible exact Keeps.refl _ _
    | with_reducible assumption
    | ((try lift_lets); intro x; first | (refine Keeps.cut x ?_ ?_; (on_goal 1 => subst x); (on_goal 2 => (clear_value x; intro hx))) | (have hf := fun a => x a; clear hf; subst x) | clear_value x)
    | with_reducible refine (regate_keeps ..).after ?_ (by decide)
    | with_reducible refine (updQuad_keeps ..).after ?_ (by decide)
    | with_reducible refine Keeps.forEach (fun _ _ => ?_) ?_
    | with_reducible refine Keeps.ite ?_ ?_
    | (fail_if_no_progress with_reducible refine (set_chans_keeps _ _).after ?_ (by decide))
    | split

theorem halveCall_keeps : ∀ a1 d, Keeps [.devState, .latch, .arbs, .isl, .slots, .quads, .chans, .profs, .paths, .srcs, .faults, .col, .log, .caps, .alert] d (halveCall a1 d) := by
  intro a1 d
  unfold halveCall
  repeat' first
    | with_reducible exact Keeps.refl _ _
    | with_reducible assumption
    | ((try lift_lets); intro x; first | (refine Keeps.cut x ?_ ?_; (on_goal 1 => subst x); (on_goal 2 => (clear_value x; intro hx))) | (have hf := fun a => x a; clear hf; subst x) | clear_value x)
    | with_reducible refine (halveQuad_keeps ..).after ?_ (by decide)
    | with_reducible refine (send_keeps ..).after ?_ (by decide)
    | with_reducible refine (raise_keeps ..).after ?_ (by decide)
    | with_reducible refine (updSrc_keeps ..).after ?_ (by decide)
    | with_reducible refine Keeps.forEach (fun _ _ => ?_) ?_
    | with_reducible refine Keeps.ite ?_ ?_
    | split

theorem halveEval_keeps : ∀ d, Keeps [.devState, .latch, .arbs, .isl, .slots, .quads, .chans, .profs, .paths, .srcs, .bus, .faults, .col, .log, .caps, .alert] d (halveEval d) := by
  intro d
  unfold halveEval
  repeat' first
    | with_reducible exact Keeps.refl _ _
    | with_reducible assumption
    | ((try lift_lets); intro x; first | (refine Keeps.cut x ?_ ?_; (on_goal 1 => subst x); (on_goal 2 => (clear_value x; intro hx))) | (have hf := fun a => x a; clear hf; subst x) | clear_value x)
    | with_reducible refine (halveCall_keeps ..).after ?_ (by decide)
    | with_reducible refine (updBus_keeps ..).after ?_ (by decide)
    | with_reducible refine Keeps.forEach (fun _ _ => ?_) ?_
    | with_reducible refine Keeps.ite ?_ ?_
    | split

theorem srcToRamp_keeps : ∀ a1 d, Keeps [.devState, .latch, .arbs, .isl, .slots, .quads, .chans, .profs, .paths, .srcs, .bus, .faults, .col, .log, .caps, .alert] d (srcToRamp a1 d) := by
  intro a1 d
  unfold srcToRamp
  repeat' first
    | with_reducible exact Keeps.refl _ _
    | with_reducible assumption
    | ((try lift_lets); intro x; first | (refine Keeps.cut x ?_ ?_; (on_goal 1 => subst x); (on_goal 2 => (clear_value x; intro hx))) | (have hf := fun a => x a; clear hf; subst x) | clear_value x)
    | with_reducible refine (halveEval_keeps ..).after ?_ (by decide)
    | with_reducible refine (updSrc_keeps ..).after ?_ (by decide)
    | with_reducible refine Keeps.ite ?_ ?_
    | split

theorem srcHoDone_keeps : ∀ a1 d, Keeps [.devState, .latch, .arbs, .isl, .slots, .quads, .chans, .profs, .paths, .srcs, .bus, .faults, .col, .log, .caps, .alert] d (srcHoDone a1 d) := by
  intro a1 d
  unfold srcHoDone
  repeat' first
    | with_reducible exact Keeps.refl _ _
    | with_reducible assumption
    | ((try lift_lets); intro x; first | (refine Keeps.cut x ?_ ?_; (on_goal 1 => subst x); (on_goal 2 => (clear_value x; intro hx))) | (have hf := fun a => x a; clear hf; subst x) | clear_value x)
    | with_reducible refine (srcToRamp_keeps ..).after ?_ (by decide)
    | with_reducible refine (updSrc_keeps ..).after ?_ (by decide)
    | with_reducible refine Keeps.ite ?_ ?_
    | split

theorem busMove_keeps : ∀ d, Keeps [.devState, .latch, .arbs, .isl, .slots, .quads, .chans, .profs, .paths, .srcs, .bus, .faults, .col, .log, .caps, .alert] d (busMove d) := by
  intro d
  unfold busMove
  repeat' first
    | with_reducible exact Keeps.refl _ _
    | with_reducible assumption
    | ((try lift_lets); intro x; first | (refine Keeps.cut x ?_ ?_; (on_goal 1 => subst x); (on_goal 2 => (clear_value x; intro hx))) | (have hf := fun a => x a; clear hf; subst x) | clear_value x)
    | with_reducible refine (handover_keeps ..).after ?_ (by decide)
    | with_reducible refine (srcHoDone_keeps ..).after ?_ (by decide)
    | with_reducible refine (setBus_keeps ..).after ?_ (by decide)
    | with_reducible refine Keeps.forEach (fun _ _ => ?_) ?_
    | with_reducible refine Keeps.ite ?_ ?_
    | split

theorem busEval_keeps : ∀ d, Keeps [.devState, .latch, .arbs, .isl, .slots, .quads, .chans, .profs, .paths, .srcs, .bus, .faults, .col, .log, .caps, .alert] d (busEval d) := by
  intro d
  unfold busEval
  repeat' first
    | with_reducible exact Keeps.refl _ _
    | with_reducible assumption
    | ((try lift_lets); intro x; first | (refine Keeps.cut x ?_ ?_; (on_goal 1 => subst x); (on_goal 2 => (clear_value x; intro hx))) | (have hf := fun a => x a; clear hf; subst x) | clear_value x)
    | with_reducible refine (busMove_keeps ..).after ?_ (by decide)
    | with_reducible refine Keeps.ite ?_ ?_
    | split

theorem startFull_keeps : ∀ a1 d, Keeps [.paths] d (startFull a1 d) := by
  intro a1 d
  unfold startFull
  repeat' first
    | with_reducible exact Keeps.refl _ _
    | with_reducible assumption
    | ((try lift_lets); intro x; first | (refine Keeps.cut x ?_ ?_; (on_goal 1 => subst x); (on_goal 2 => (clear_value x; intro hx))) | (have hf := fun a => x a; clear hf; subst x) | clear_value x)
    | with_reducible refine (updPath_keeps ..).after ?_ (by decide)
    | with_reducible refine Keeps.ite ?_ ?_
    | split

theorem gateStep_keeps : ∀ a1 a2 d, Keeps [.paths] d (gateStep a1 a2 d) := by
  intro a1 a2 d
  unfold gateStep
  repeat' first
    | with_reducible exact Keeps.refl _ _
    | with_reducible assumption
    | ((try lift_lets); intro x; first | (refine Keeps.cut x ?_ ?_; (on_goal 1 => subst x); (on_goal 2 => (clear_value x; intro hx))) | (have hf := fun a => x a; clear hf; subst x) | clear_value x)
    | with_reducible refine (updPath_keeps ..).after ?_ (by decide)
    | with_reducible refine Keeps.ite ?_ ?_
    | split

theorem pathRegulate_keeps : ∀ a1 a2 d, Keeps [.paths] d (pathRegulate a1 a2 d) := by
  intro a1 a2 d
  unfold pathRegulate
  repeat' first
    | with_reducible exact Keeps.refl _ _
    | with_reducible assumption
    | ((try lift_lets); intro x; first | (refine Keeps.cut x ?_ ?_; (on_goal 1 => subst x); (on_goal 2 => (clear_value x; intro hx))) | (have hf := fun a => x a; clear hf; subst x) | clear_value x)
    | with_reducible refine (gateStep_keeps ..).after ?_ (by decide)
    | with_reducible refine (pathZero_keeps ..).after ?_ (by decide)
    | with_reducible refine (updPath_keeps ..).after ?_ (by decide)
    | with_reducible refine Keeps.ite ?_ ?_
    | split

theorem tryConduct_keeps : ∀ a1 d, Keeps [.paths] d (tryConduct a1 d) := by
  intro a1 d
  unfold tryConduct
  repeat' first
    | with_reducible exact Keeps.refl _ _
    | with_reducible assumption
    | ((try lift_lets); intro x; first | (refine Keeps.cut x ?_ ?_; (on_goal 1 => subst x); (on_goal 2 => (clear_value x; intro hx))) | (have hf := fun a => x a; clear hf; subst x) | clear_value x)
    | with_reducible refine (startFull_keeps ..).after ?_ (by decide)
    | with_reducible refine (pathRegulate_keeps ..).after ?_ (by decide)
    | with_reducible refine (updPath_keeps ..).after ?_ (by decide)
    | with_reducible refine Keeps.ite ?_ ?_
    | split

theorem pathOnBus_keeps : ∀ a1 a2 a3 d, Keeps [.paths] d (pathOnBus a1 a2 a3 d) := by
  intro a1 a2 a3 d
  unfold pathOnBus
  repeat' first
    | with_reducible exact Keeps.refl _ _
    | with_reducible assumption
    | ((try lift_lets); intro x; first | (refine Keeps.cut x ?_ ?_; (on_goal 1 => subst x); (on_goal 2 => (clear_value x; intro hx))) | (have hf := fun a => x a; clear hf; subst x) | clear_value x)
    | with_reducible refine (startFull_keeps ..).after ?_ (by decide)
    | with_reducible refine (tryConduct_keeps ..).after ?_ (by decide)
    | with_reducible refine (updPath_keeps ..).after ?_ (by decide)
    | with_reducible refine Keeps.ite ?_ ?_
    | split

theorem busArrives_keeps : ∀ a1 a2 d, Keeps [.devState, .latch, .arbs, .isl, .slots, .quads, .chans, .profs, .paths, .srcs, .bus, .faults, .col, .log, .caps, .alert] d (busArrives a1 a2 d) := by
  intro a1 a2 d
  unfold busArrives
  repeat' first
    | with_reducible exact Keeps.refl _ _
    | with_reducible assumption
    | ((try lift_lets); intro x; first | (refine Keeps.cut x ?_ ?_; (on_goal 1 => subst x); (on_goal 2 => (clear_value x; intro hx))) | (have hf := fun a => x a; clear hf; subst x) | clear_value x)
    | with_reducible refine (busEval_keeps ..).after ?_ (by decide)
    | with_reducible refine (pathOnBus_keeps ..).after ?_ (by decide)
    | with_reducible refine (updQuad_keeps ..).after ?_ (by decide)
    | with_reducible refine Keeps.forEach (fun _ _ => ?_) ?_
    | with_reducible refine Keeps.ite ?_ ?_
    | split

theorem tjArrives_keeps : ∀ a1 a2 d, Keeps [.therm] d (tjArrives a1 a2 d) := by
  intro a1 a2 d
  unfold tjArrives
  repeat' first
    | with_reducible exact Keeps.refl _ _
    | with_reducible assumption
    | ((try lift_lets); intro x; first | (refine Keeps.cut x ?_ ?_; (on_goal 1 => subst x); (on_goal 2 => (clear_value x; intro hx))) | (have hf := fun a => x a; clear hf; subst x) | clear_value x)
    | with_reducible refine (updTherm_keeps ..).after ?_ (by decide)
    | with_reducible refine Keeps.forEach (fun _ _ => ?_) ?_
    | with_reducible refine Keeps.ite ?_ ?_
    | split

theorem halveArrives_keeps : ∀ a1 d, Keeps [.slots, .quads, .chans, .profs, .paths] d (halveArrives a1 d) := by
  intro a1 d
  unfold halveArrives
  repeat' first
    | with_reducible exact Keeps.refl _ _
    | with_reducible assumption
    | ((try lift_lets); intro x; first | (refine Keeps.cut x ?_ ?_; (on_goal 1 => subst x); (on_goal 2 => (clear_value x; intro hx))) | (have hf := fun a => x a; clear hf; subst x) | clear_value x)
    | with_reducible refine (halveQuad_keeps ..).after ?_ (by decide)
    | with_reducible refine Keeps.ite ?_ ?_
    | split

theorem reloadStop_keeps : ∀ a1 d, Keeps [.chans] d (reloadStop a1 d) := by
  intro a1 d
  unfold reloadStop
  repeat' first
    | with_reducible exact Keeps.refl _ _
    | with_reducible assumption
    | ((try lift_lets); intro x; first | (refine Keeps.cut x ?_ ?_; (on_goal 1 => subst x); (on_goal 2 => (clear_value x; intro hx))) | (have hf := fun a => x a; clear hf; subst x) | clear_value x)
    | with_reducible refine (updChan_keeps ..).after ?_ (by decide)
    | with_reducible refine Keeps.ite ?_ ?_
    | split

theorem stopEnds_keeps : ∀ a1 d, Keeps [.slots, .chans, .profs, .paths] d (stopEnds a1 d) := by
  intro a1 d
  unfold stopEnds
  repeat' first
    | with_reducible exact Keeps.refl _ _
    | with_reducible assumption
    | ((try lift_lets); intro x; first | (refine Keeps.cut x ?_ ?_; (on_goal 1 => subst x); (on_goal 2 => (clear_value x; intro hx))) | (have hf := fun a => x a; clear hf; subst x) | clear_value x)
    | with_reducible refine (enterCh_keeps ..).after ?_ (by decide)
    | with_reducible refine (updChan_keeps ..).after ?_ (by decide)
    | with_reducible refine Keeps.ite ?_ ?_
    | split

theorem reloadForce_keeps : ∀ a1 d, Keeps [.arbs, .isl, .slots, .chans, .profs, .paths, .log] d (reloadForce a1 d) := by
  intro a1 d
  unfold reloadForce
  repeat' first
    | with_reducible exact Keeps.refl _ _
    | with_reducible assumption
    | ((try lift_lets); intro x; first | (refine Keeps.cut x ?_ ?_; (on_goal 1 => subst x); (on_goal 2 => (clear_value x; intro hx))) | (have hf := fun a => x a; clear hf; subst x) | clear_value x)
    | with_reducible refine (stopEnds_keeps ..).after ?_ (by decide)
    | with_reducible refine (quadEvent_keeps ..).after ?_ (by decide)
    | with_reducible refine Keeps.ite ?_ ?_
    | split

theorem regionTakes_keeps : ∀ a1 d, Keeps [.arbs, .isl, .slots, .quads, .chans, .profs, .paths, .rings, .writers, .nobind, .log] d (regionTakes a1 d) := by
  intro a1 d
  unfold regionTakes
  repeat' first
    | with_reducible exact Keeps.refl _ _
    | with_reducible assumption
    | ((try lift_lets); intro x; first | (refine Keeps.cut x ?_ ?_; (on_goal 1 => subst x); (on_goal 2 => (clear_value x; intro hx))) | (have hf := fun a => x a; clear hf; subst x) | clear_value x)
    | with_reducible refine (armRegionNow_keeps ..).after ?_ (by decide)
    | with_reducible refine (reloadStop_keeps ..).after ?_ (by decide)
    | with_reducible refine (reloadForce_keeps ..).after ?_ (by decide)
    | with_reducible refine Keeps.ite ?_ ?_
    | split

theorem takeWords_keeps : ∀ a1 a2 d, Keeps [.conf] d (takeWords a1 a2 d) := by
  intro a1 a2 d
  unfold takeWords
  exact setConf_keeps d d (Keeps.refl _ _) (by decide) _ (fun _ => rfl) (fun _ => rfl) fun h =>
    mergeBase_wf _ _ _ (wordRanges_le a1 a2) h.2.1 (composeMem_wf _ _ _ h.2.2.1)

theorem deliverQuad_keeps : ∀ a1 a2 d, Keeps [.devState, .latch, .arbs, .clk, .isl, .launches, .halt, .slots, .quads, .chans, .profs, .paths, .srcs, .bus, .rings, .writers, .nobind, .therm, .faults, .col, .log, .caps, .conf, .alert] d (deliverQuad a1 a2 d) := by
  intro a1 a2 d
  unfold deliverQuad
  cases a2 <;> dsimp only <;> first
    | with_reducible exact Keeps.refl _ _
    | with_reducible exact (updChan_keeps ..).mono (by decide)
    | with_reducible exact (updQuad_keeps ..).mono (by decide)
    | with_reducible exact (set_clk_keeps _ _).mono (by decide)
    | with_reducible exact (hostStopArrives_keeps ..).mono (by decide)
    | with_reducible exact (launchAt_keeps ..).mono (by decide)
    | with_reducible exact (busArrives_keeps ..).mono (by decide)
    | with_reducible exact (tjArrives_keeps ..).mono (by decide)
    | with_reducible exact (halveArrives_keeps ..).mono (by decide)
    | with_reducible exact (regionTakes_keeps ..).mono (by decide)
    | with_reducible exact (takeWords_keeps ..).mono (by decide)

def takeQuadParts : List Part :=
  [.devState, .latch, .arbs, .clk, .isl, .launches, .halt, .slots, .quads, .chans, .profs, .paths, .srcs, .bus, .rings, .writers, .nobind, .therm, .faults, .col, .log, .caps, .conf, .alert]

theorem takeQuad_keeps : ∀ a1 a2 d, Keeps takeQuadParts d (takeQuad a1 a2 d) := by
  intro a1 a2 d
  unfold takeQuad
  repeat' first
    | with_reducible exact Keeps.refl _ _
    | with_reducible assumption
    | ((try lift_lets); intro x; first | (refine Keeps.cut x ?_ ?_; (on_goal 1 => subst x); (on_goal 2 => (clear_value x; intro hx))) | (have hf := fun a => x a; clear hf; subst x) | clear_value x)
    | with_reducible refine (deliverQuad_keeps ..).after ?_ (by decide)
    | with_reducible refine Keeps.forEach (fun _ _ => ?_) ?_
    | with_reducible refine Keeps.ite ?_ ?_
    | split

theorem setFifo_keeps : ∀ a1 a2 d, Keeps [.isl] d (setFifo a1 a2 d) := by
  intro a1 a2 d
  unfold setFifo
  repeat' first
    | with_reducible exact Keeps.refl _ _
    | with_reducible assumption
    | ((try lift_lets); intro x; first | (refine Keeps.cut x ?_ ?_; (on_goal 1 => subst x); (on_goal 2 => (clear_value x; intro hx))) | (have hf := fun a => x a; clear hf; subst x) | clear_value x)
    | with_reducible refine (updIsl_keeps (S := [.isl]) _ ?_).after ?_ (by decide)
    | with_reducible refine Keeps.ite ?_ ?_
    | (intro s; refine ⟨fun h => ?_, fun h => ?_⟩ <;> first | rfl | (cases h; done) | (split <;> rfl) | (simp; done))
    | (refine ⟨fun h => ?_, fun h => ?_⟩ <;> first | rfl | (cases h; done) | (split <;> rfl) | (simp; done))
    | split

def arriveParts : List Part :=
  [.devState, .latch, .arbs, .clk, .isl, .launches, .halt, .slots, .quads, .chans, .profs, .paths, .srcs, .bus, .rings, .writers, .nobind, .therm, .faults, .col, .log, .caps, .conf, .alert]

theorem arrive_keeps : ∀ a1 a2 d, Keeps arriveParts d (arrive a1 a2 d) := by
  intro a1 a2 d
  unfold arrive
  repeat' first
    | with_reducible exact Keeps.refl _ _
    | with_reducible assumption
    | ((try lift_lets); intro x; first | (refine Keeps.cut x ?_ ?_; (on_goal 1 => subst x); (on_goal 2 => (clear_value x; intro hx))) | (have hf := fun a => x a; clear hf; subst x) | clear_value x)
    | with_reducible refine (takeQuad_keeps ..).after ?_ (by decide)
    | with_reducible refine (setFifo_keeps ..).after ?_ (by decide)
    | with_reducible refine Keeps.ite ?_ ?_
    | split

theorem backoffEnd_keeps : ∀ d, Keeps [.clk, .sup] d (backoffEnd d) := by
  intro d
  unfold backoffEnd
  repeat' first
    | with_reducible exact Keeps.refl _ _
    | with_reducible assumption
    | ((try lift_lets); intro x; first | (refine Keeps.cut x ?_ ?_; (on_goal 1 => subst x); (on_goal 2 => (clear_value x; intro hx))) | (have hf := fun a => x a; clear hf; subst x) | clear_value x)
    | with_reducible refine (waitUp_keeps ..).after ?_ (by decide)
    | with_reducible refine (updSup_keeps (S := [.sup]) _ ?_).after ?_ (by decide)
    | with_reducible refine Keeps.ite ?_ ?_
    | (intro s; refine ⟨fun h => ?_, fun h => ?_⟩ <;> first | rfl | (cases h; done) | (split <;> rfl) | (simp; done))
    | (refine ⟨fun h => ?_, fun h => ?_⟩ <;> first | rfl | (cases h; done) | (split <;> rfl) | (simp; done))
    | split

theorem xRise_keeps : ∀ a1 a2 d, Keeps [.slots] d (xRise a1 a2 d) := by
  intro a1 a2 d
  unfold xRise
  repeat' first
    | with_reducible exact Keeps.refl _ _
    | with_reducible assumption
    | ((try lift_lets); intro x; first | (refine Keeps.cut x ?_ ?_; (on_goal 1 => subst x); (on_goal 2 => (clear_value x; intro hx))) | (have hf := fun a => x a; clear hf; subst x) | clear_value x)
    | with_reducible refine (setX_keeps ..).after ?_ (by decide)
    | with_reducible refine (updSlot_keeps _ _ ?_).after ?_ (by decide)
    | with_reducible refine Keeps.ite ?_ ?_
    | (intro s h; first | exact h | (simp only [SlotSt.apart] at *; done) | (dsimp only; split <;> exact h) | (cases s; simp_all [SlotSt.apart]; done))
    | split

theorem beginCycle_keeps : ∀ a1 a2 d, Keeps [.slots, .chans] d (beginCycle a1 a2 d) := by
  intro a1 a2 d
  unfold beginCycle
  repeat' first
    | with_reducible exact Keeps.refl _ _
    | with_reducible assumption
    | ((try lift_lets); intro x; first | (refine Keeps.cut x ?_ ?_; (on_goal 1 => subst x); (on_goal 2 => (clear_value x; intro hx))) | (have hf := fun a => x a; clear hf; subst x) | clear_value x)
    | with_reducible refine (xRise_keeps ..).after ?_ (by decide)
    | with_reducible refine (updSlot_keeps _ _ ?_).after ?_ (by decide)
    | with_reducible refine (updChan_keeps ..).after ?_ (by decide)
    | with_reducible refine Keeps.ite ?_ ?_
    | (intro s h; first | exact h | (simp only [SlotSt.apart] at *; done) | (dsimp only; split <;> exact h) | (cases s; simp_all [SlotSt.apart]; done))
    | split

theorem belowTrack_keeps : ∀ a1 d, Keeps [.paths] d (belowTrack a1 d) := by
  intro a1 d
  unfold belowTrack
  repeat' first
    | with_reducible exact Keeps.refl _ _
    | with_reducible assumption
    | ((try lift_lets); intro x; first | (refine Keeps.cut x ?_ ?_; (on_goal 1 => subst x); (on_goal 2 => (clear_value x; intro hx))) | (have hf := fun a => x a; clear hf; subst x) | clear_value x)
    | with_reducible refine (updPath_keeps ..).after ?_ (by decide)
    | with_reducible refine Keeps.ite ?_ ?_
    | split

theorem terminate_keeps : ∀ a1 a2 d, Keeps [.slots, .chans] d (terminate a1 a2 d) := by
  intro a1 a2 d
  unfold terminate
  repeat' first
    | with_reducible exact Keeps.refl _ _
    | with_reducible assumption
    | ((try lift_lets); intro x; first | (refine Keeps.cut x ?_ ?_; (on_goal 1 => subst x); (on_goal 2 => (clear_value x; intro hx))) | (have hf := fun a => x a; clear hf; subst x) | clear_value x)
    | with_reducible refine (xOff_keeps ..).after ?_ (by decide)
    | with_reducible refine (updChan_keeps ..).after ?_ (by decide)
    | with_reducible refine Keeps.ite ?_ ?_
    | split

theorem lowerCross_keeps : ∀ a1 a2 d, Keeps [.slots] d (lowerCross a1 a2 d) := by
  intro a1 a2 d
  unfold lowerCross
  repeat' first
    | with_reducible exact Keeps.refl _ _
    | with_reducible assumption
    | ((try lift_lets); intro x; first | (refine Keeps.cut x ?_ ?_; (on_goal 1 => subst x); (on_goal 2 => (clear_value x; intro hx))) | (have hf := fun a => x a; clear hf; subst x) | clear_value x)
    | with_reducible refine (yOff_keeps ..).after ?_ (by decide)
    | with_reducible refine (updSlot_keeps _ _ ?_).after ?_ (by decide)
    | with_reducible refine Keeps.ite ?_ ?_
    | (intro s h; first | exact h | (simp only [SlotSt.apart] at *; done) | (dsimp only; split <;> exact h) | (cases s; simp_all [SlotSt.apart]; done))
    | split

theorem blankingEnd_keeps : ∀ a1 a2 d, Keeps [.clk, .slots, .chans] d (blankingEnd a1 a2 d) := by
  intro a1 a2 d
  unfold blankingEnd
  repeat' first
    | with_reducible exact Keeps.refl _ _
    | with_reducible assumption
    | ((try lift_lets); intro x; first | (refine Keeps.cut x ?_ ?_; (on_goal 1 => subst x); (on_goal 2 => (clear_value x; intro hx))) | (have hf := fun a => x a; clear hf; subst x) | clear_value x)
    | with_reducible refine (waitUp_keeps ..).after ?_ (by decide)
    | with_reducible refine (xOff_keeps ..).after ?_ (by decide)
    | with_reducible refine (terminate_keeps ..).after ?_ (by decide)
    | with_reducible refine (lowerCross_keeps ..).after ?_ (by decide)
    | with_reducible refine (updSlot_keeps _ _ ?_).after ?_ (by decide)
    | with_reducible refine Keeps.ite ?_ ?_
    | (intro s h; first | exact h | (simp only [SlotSt.apart] at *; done) | (dsimp only; split <;> exact h) | (cases s; simp_all [SlotSt.apart]; done))
    | split

theorem respond_keeps : ∀ a1 a2 a3 d, Keeps [.arbs, .log, .fi, .sup] d (respond a1 a2 a3 d) := by
  intro a1 a2 a3 d
  unfold respond
  repeat' first
    | with_reducible exact Keeps.refl _ _
    | with_reducible assumption
    | ((try lift_lets); intro x; first | (refine Keeps.cut x ?_ ?_; (on_goal 1 => subst x); (on_goal 2 => (clear_value x; intro hx))) | (have hf := fun a => x a; clear hf; subst x) | clear_value x)
    | with_reducible refine (fiEvent_keeps ..).after ?_ (by decide)
    | with_reducible refine (updSup_keeps (S := [.sup]) _ ?_).after ?_ (by decide)
    | with_reducible refine (updCol_keeps (S := [.log, .fi]) _ ?_).after ?_ (by decide)
    | with_reducible refine Keeps.ite ?_ ?_
    | (intro s; refine ⟨fun h => ?_, fun h => ?_, fun h => ?_, fun h => ?_⟩ <;> first | rfl | (cases h; done) | (split <;> rfl) | (simp; done))
    | (refine ⟨fun h => ?_, fun h => ?_, fun h => ?_, fun h => ?_⟩ <;> first | rfl | (cases h; done) | (split <;> rfl) | (simp; done))
    | (intro s; refine ⟨fun h => ?_, fun h => ?_⟩ <;> first | rfl | (cases h; done) | (split <;> rfl) | (simp; done))
    | (refine ⟨fun h => ?_, fun h => ?_⟩ <;> first | rfl | (cases h; done) | (split <;> rfl) | (simp; done))
    | split

theorem blockRead_keeps : ∀ a1 a2 a3 d, Keeps [.arbs, .log, .fi, .sup] d (blockRead a1 a2 a3 d) := by
  intro a1 a2 a3 d
  unfold blockRead
  repeat' first
    | with_reducible exact Keeps.refl _ _
    | with_reducible assumption
    | ((try lift_lets); intro x; first | (refine Keeps.cut x ?_ ?_; (on_goal 1 => subst x); (on_goal 2 => (clear_value x; intro hx))) | (have hf := fun a => x a; clear hf; subst x) | clear_value x)
    | with_reducible refine (respond_keeps ..).after ?_ (by decide)
    | with_reducible refine (noAck_keeps ..).after ?_ (by decide)
    | with_reducible refine Keeps.ite ?_ ?_
    | split

theorem bootAbandon_keeps : ∀ d, Keeps [.loader, .bootp, .arbs] d (bootAbandon d) := by
  intro d
  unfold bootAbandon
  repeat' first
    | with_reducible exact Keeps.refl _ _
    | with_reducible assumption
    | ((try lift_lets); intro x; first | (refine Keeps.cut x ?_ ?_; (on_goal 1 => subst x); (on_goal 2 => (clear_value x; intro hx))) | (have hf := fun a => x a; clear hf; subst x) | clear_value x)
    | with_reducible refine (updArb_keeps ..).after ?_ (by decide)
    | with_reducible refine (updLoader_keeps _ ?_).after ?_ (by decide)
    | with_reducible refine (updBoot_keeps ..).after ?_ (by decide)
    | with_reducible refine Keeps.ite ?_ ?_
    | (intro s h; first | exact h | exact baseOf_wf _ | rfl | exact msets_wf _ _ _ h | (dsimp only; split <;> first | exact h | exact baseOf_wf _ | rfl))
    | split

theorem bootBusFree_keeps : ∀ d, Keeps [.bootp] d (bootBusFree d) := by
  intro d
  unfold bootBusFree
  repeat' first
    | with_reducible exact Keeps.refl _ _
    | with_reducible assumption
    | ((try lift_lets); intro x; first | (refine Keeps.cut x ?_ ?_; (on_goal 1 => subst x); (on_goal 2 => (clear_value x; intro hx))) | (have hf := fun a => x a; clear hf; subst x) | clear_value x)
    | with_reducible refine (updBoot_keeps ..).after ?_ (by decide)
    | with_reducible refine Keeps.ite ?_ ?_
    | split

end Sys2Proof.Machine
end

