-- ==== Sys2Proof/Laws/Keeps4.lean ====
section
/-! SUPPORT. Sys2Proof/Laws/Keeps4.lean: what each operation of the model leaves unchanged (one lemma per operation, in the order of their use). -/

namespace Sys2Proof.Machine

set_option linter.unusedTactic false
set_option linter.unreachableTactic false
set_option linter.unusedVariables false

theorem loadEnds_keeps : ∀ d, Keeps [.loader] d (loadEnds d) := by
  intro d
  unfold loadEnds
  repeat' first
    | with_reducible exact Keeps.refl _ _
    | with_reducible assumption
    | ((try lift_lets); intro x; first | (refine Keeps.cut x ?_ ?_; (on_goal 1 => subst x); (on_goal 2 => (clear_value x; intro hx))) | (have hf := fun a => x a; clear hf; subst x) | clear_value x)
    | with_reducible refine (updLoader_keeps _ ?_).after ?_ (by decide)
    | with_reducible refine Keeps.ite ?_ ?_
    | (intro s h; first | exact h | exact baseOf_wf _ | rfl | exact msets_wf _ _ _ h | (dsimp only; split <;> first | exact h | exact baseOf_wf _ | rfl))
    | split

theorem mirrorStarts_keeps : ∀ d, Keeps [.arbs, .mem] d (mirrorStarts d) := by
  intro d
  unfold mirrorStarts
  repeat' first
    | with_reducible exact Keeps.refl _ _
    | with_reducible assumption
    | ((try lift_lets); intro x; first | (refine Keeps.cut x ?_ ?_; (on_goal 1 => subst x); (on_goal 2 => (clear_value x; intro hx))) | (have hf := fun a => x a; clear hf; subst x) | clear_value x)
    | with_reducible refine (arbRequest_keeps ..).after ?_ (by decide)
    | with_reducible refine (updMem_keeps (S := [.mem]) _ ?_ ?_).after ?_ (by decide)
    | with_reducible refine Keeps.ite ?_ ?_
    | (intro s; refine ⟨fun h => ?_, fun h => ?_, fun h => ?_⟩ <;> first | rfl | (cases h; done) | (split <;> rfl) | (simp; done))
    | (intro h; refine ⟨?_, ?_⟩ <;> first | exact h.1 | exact h.2.1 | exact msets_wf _ _ _ h.1 | exact msets_wf _ _ _ h.2.1 | exact wf_nil | exact filter_wf _ _ h.1 | exact composeMem_wf _ _ _ h.2.2.1)
    | split

theorem enterBuild_keeps : ∀ a1 d, Keeps [.start, .devState, .latch, .mode, .arbs, .mem] d (enterBuild a1 d) := by
  intro a1 d
  unfold enterBuild
  repeat' first
    | with_reducible exact Keeps.refl _ _
    | with_reducible assumption
    | ((try lift_lets); intro x; first | (refine Keeps.cut x ?_ ?_; (on_goal 1 => subst x); (on_goal 2 => (clear_value x; intro hx))) | (have hf := fun a => x a; clear hf; subst x) | clear_value x)
    | with_reducible refine (mirrorStarts_keeps ..).after ?_ (by decide)
    | with_reducible refine (updStart_keeps (S := [.start, .devState, .latch]) _ ?_).after ?_ (by decide)
    | with_reducible refine (updMode_keeps ..).after ?_ (by decide)
    | with_reducible refine Keeps.ite ?_ ?_
    | (intro s; refine ⟨fun h => ?_, fun h => ?_, fun h => ?_⟩ <;> first | rfl | (cases h; done) | (split <;> rfl) | (simp; done))
    | (refine ⟨fun h => ?_, fun h => ?_, fun h => ?_⟩ <;> first | rfl | (cases h; done) | (split <;> rfl) | (simp; done))
    | split

theorem imageTaken_keeps : ∀ a1 d, Keeps [.loader] d (imageTaken a1 d) := by
  intro a1 d
  unfold imageTaken
  repeat' first
    | with_reducible exact Keeps.refl _ _
    | with_reducible assumption
    | ((try lift_lets); intro x; first | (refine Keeps.cut x ?_ ?_; (on_goal 1 => subst x); (on_goal 2 => (clear_value x; intro hx))) | (have hf := fun a => x a; clear hf; subst x) | clear_value x)
    | with_reducible refine (updLoader_keeps _ ?_).after ?_ (by decide)
    | with_reducible refine Keeps.ite ?_ ?_
    | (intro s h; first | exact h | exact baseOf_wf _ | rfl | exact msets_wf _ _ _ h | (dsimp only; split <;> first | exact h | exact baseOf_wf _ | rfl))
    | split

theorem bootNew_keeps : ∀ a1 a2 d, Keeps [.bootp, .arbs] d (bootNew a1 a2 d) := by
  intro a1 a2 d
  unfold bootNew
  repeat' first
    | with_reducible exact Keeps.refl _ _
    | with_reducible assumption
    | ((try lift_lets); intro x; first | (refine Keeps.cut x ?_ ?_; (on_goal 1 => subst x); (on_goal 2 => (clear_value x; intro hx))) | (have hf := fun a => x a; clear hf; subst x) | clear_value x)
    | with_reducible refine (bootAsk_keeps ..).after ?_ (by decide)
    | with_reducible refine (updBoot_keeps ..).after ?_ (by decide)
    | with_reducible refine Keeps.ite ?_ ?_
    | split

theorem imgStart_keeps : ∀ a1 a2 d, Keeps [.loader, .bootp, .arbs] d (imgStart a1 a2 d) := by
  intro a1 a2 d
  unfold imgStart
  repeat' first
    | with_reducible exact Keeps.refl _ _
    | with_reducible assumption
    | ((try lift_lets); intro x; first | (refine Keeps.cut x ?_ ?_; (on_goal 1 => subst x); (on_goal 2 => (clear_value x; intro hx))) | (have hf := fun a => x a; clear hf; subst x) | clear_value x)
    | with_reducible refine (bootNew_keeps ..).after ?_ (by decide)
    | with_reducible refine (updLoader_keeps _ ?_).after ?_ (by decide)
    | with_reducible refine Keeps.ite ?_ ?_
    | (intro s h; first | exact h | exact baseOf_wf _ | rfl | exact msets_wf _ _ _ h | (dsimp only; split <;> first | exact h | exact baseOf_wf _ | rfl))
    | split

theorem busRecovery_keeps : ∀ d, Keeps [.bootp] d (busRecovery d) := by
  intro d
  unfold busRecovery
  repeat' first
    | with_reducible exact Keeps.refl _ _
    | with_reducible assumption
    | ((try lift_lets); intro x; first | (refine Keeps.cut x ?_ ?_; (on_goal 1 => subst x); (on_goal 2 => (clear_value x; intro hx))) | (have hf := fun a => x a; clear hf; subst x) | clear_value x)
    | with_reducible refine (updBoot_keeps ..).after ?_ (by decide)
    | with_reducible refine Keeps.ite ?_ ?_
    | split

theorem imgEnd_keeps : ∀ a1 a2 d, Keeps [.start, .devState, .latch, .loader, .mode, .bootp, .arbs, .log, .mem, .reload] d (imgEnd a1 a2 d) := by
  intro a1 a2 d
  unfold imgEnd
  repeat' first
    | with_reducible exact Keeps.refl _ _
    | with_reducible assumption
    | ((try lift_lets); intro x; first | (refine Keeps.cut x ?_ ?_; (on_goal 1 => subst x); (on_goal 2 => (clear_value x; intro hx))) | (have hf := fun a => x a; clear hf; subst x) | clear_value x)
    | with_reducible refine (loadEnds_keeps ..).after ?_ (by decide)
    | with_reducible refine (enterBuild_keeps ..).after ?_ (by decide)
    | with_reducible refine (logEvent_keeps ..).after ?_ (by decide)
    | with_reducible refine (imageTaken_keeps ..).after ?_ (by decide)
    | with_reducible refine (imgStart_keeps ..).after ?_ (by decide)
    | with_reducible refine (busRecovery_keeps ..).after ?_ (by decide)
    | with_reducible refine (updReload_keeps _ ?_).after ?_ (by decide)
    | with_reducible refine (updLoader_keeps _ ?_).after ?_ (by decide)
    | with_reducible refine (updStart_keeps (S := [.start, .devState, .latch]) _ ?_).after ?_ (by decide)
    | with_reducible refine Keeps.ite ?_ ?_
    | (intro s; refine ⟨fun h => ?_, fun h => ?_, fun h => ?_⟩ <;> first | rfl | (cases h; done) | (split <;> rfl) | (simp; done))
    | (refine ⟨fun h => ?_, fun h => ?_, fun h => ?_⟩ <;> first | rfl | (cases h; done) | (split <;> rfl) | (simp; done))
    | (intro s h; first | exact h | exact baseOf_wf _ | rfl | exact msets_wf _ _ _ h | (dsimp only; split <;> first | exact h | exact baseOf_wf _ | rfl))
    | split

theorem imgNext_keeps : ∀ a1 d, Keeps [.start, .devState, .latch, .loader, .mode, .bootp, .arbs, .log, .mem, .reload] d (imgNext a1 d) := by
  intro a1 d
  unfold imgNext
  repeat' first
    | with_reducible exact Keeps.refl _ _
    | with_reducible assumption
    | ((try lift_lets); intro x; first | (refine Keeps.cut x ?_ ?_; (on_goal 1 => subst x); (on_goal 2 => (clear_value x; intro hx))) | (have hf := fun a => x a; clear hf; subst x) | clear_value x)
    | with_reducible refine (bootNew_keeps ..).after ?_ (by decide)
    | with_reducible refine (imgEnd_keeps ..).after ?_ (by decide)
    | with_reducible refine (updLoader_keeps _ ?_).after ?_ (by decide)
    | with_reducible refine Keeps.ite ?_ ?_
    | (intro s h; first | exact h | exact baseOf_wf _ | rfl | exact msets_wf _ _ _ h | (dsimp only; split <;> first | exact h | exact baseOf_wf _ | rfl))
    | split

theorem imgData_keeps : ∀ a1 a2 a3 d, Keeps [.start, .devState, .latch, .loader, .mode, .bootp, .arbs, .log, .mem, .reload] d (imgData a1 a2 a3 d) := by
  intro a1 a2 a3 d
  unfold imgData
  repeat' first
    | with_reducible exact Keeps.refl _ _
    | with_reducible assumption
    | ((try lift_lets); intro x; first | (refine Keeps.cut x ?_ ?_; (on_goal 1 => subst x); (on_goal 2 => (clear_value x; intro hx))) | (have hf := fun a => x a; clear hf; subst x) | clear_value x)
    | with_reducible refine (imgEnd_keeps ..).after ?_ (by decide)
    | with_reducible refine (imgNext_keeps ..).after ?_ (by decide)
    | with_reducible refine Keeps.ite ?_ ?_
    | split

theorem commitRead_keeps : ∀ a1 d, Keeps [.bootp, .arbs] d (commitRead a1 d) := by
  intro a1 d
  unfold commitRead
  repeat' first
    | with_reducible exact Keeps.refl _ _
    | with_reducible assumption
    | ((try lift_lets); intro x; first | (refine Keeps.cut x ?_ ?_; (on_goal 1 => subst x); (on_goal 2 => (clear_value x; intro hx))) | (have hf := fun a => x a; clear hf; subst x) | clear_value x)
    | with_reducible refine (bootNew_keeps ..).after ?_ (by decide)
    | with_reducible refine (updBoot_keeps ..).after ?_ (by decide)
    | with_reducible refine Keeps.ite ?_ ?_
    | split

theorem commitSet_keeps : ∀ a1 a2 d, Keeps [.cal] d (commitSet a1 a2 d) := by
  intro a1 a2 d
  unfold commitSet
  repeat' first
    | with_reducible exact Keeps.refl _ _
    | with_reducible assumption
    | ((try lift_lets); intro x; first | (refine Keeps.cut x ?_ ?_; (on_goal 1 => subst x); (on_goal 2 => (clear_value x; intro hx))) | (have hf := fun a => x a; clear hf; subst x) | clear_value x)
    | with_reducible refine (updCal_keeps ..).after ?_ (by decide)
    | with_reducible refine Keeps.ite ?_ ?_
    | split

theorem commitStart_keeps : ∀ a1 d, Keeps [.bootp, .arbs] d (commitStart a1 d) := by
  intro a1 d
  unfold commitStart
  repeat' first
    | with_reducible exact Keeps.refl _ _
    | with_reducible assumption
    | ((try lift_lets); intro x; first | (refine Keeps.cut x ?_ ?_; (on_goal 1 => subst x); (on_goal 2 => (clear_value x; intro hx))) | (have hf := fun a => x a; clear hf; subst x) | clear_value x)
    | with_reducible refine (commitRead_keeps ..).after ?_ (by decide)
    | with_reducible refine Keeps.ite ?_ ?_
    | split

theorem commitImage_keeps : ∀ a1 a2 d, Keeps [.bootp, .arbs, .cal, .alert] d (commitImage a1 a2 d) := by
  intro a1 a2 d
  unfold commitImage
  repeat' first
    | with_reducible exact Keeps.refl _ _
    | with_reducible assumption
    | ((try lift_lets); intro x; first | (refine Keeps.cut x ?_ ?_; (on_goal 1 => subst x); (on_goal 2 => (clear_value x; intro hx))) | (have hf := fun a => x a; clear hf; subst x) | clear_value x)
    | with_reducible refine (commitSet_keeps ..).after ?_ (by decide)
    | with_reducible refine (alertSet_keeps ..).after ?_ (by decide)
    | with_reducible refine (commitStart_keeps ..).after ?_ (by decide)
    | with_reducible refine (updCal_keeps ..).after ?_ (by decide)
    | with_reducible refine (updBoot_keeps ..).after ?_ (by decide)
    | with_reducible refine Keeps.ite ?_ ?_
    | split

theorem commitPages_keeps : ∀ a1 a2 a3 d, Keeps [.devState, .latch, .bootp, .arbs, .slots, .chans, .profs, .paths, .srcs, .mods, .cal, .therm, .faults, .col, .log, .caps, .fi, .mem, .alert] d (commitPages a1 a2 a3 d) := by
  intro a1 a2 a3 d
  unfold commitPages
  repeat' first
    | with_reducible exact Keeps.refl _ _
    | with_reducible assumption
    | ((try lift_lets); intro x; first | (refine Keeps.cut x ?_ ?_; (on_goal 1 => subst x); (on_goal 2 => (clear_value x; intro hx))) | (have hf := fun a => x a; clear hf; subst x) | clear_value x)
    | with_reducible refine (cwReads_keeps ..).after ?_ (by decide)
    | with_reducible refine (fiEvent_keeps ..).after ?_ (by decide)
    | with_reducible refine (bootNew_keeps ..).after ?_ (by decide)
    | with_reducible refine (updCal_keeps ..).after ?_ (by decide)
    | with_reducible refine (updCol_keeps (S := [.col, .log, .caps, .fi]) _ ?_).after ?_ (by decide)
    | with_reducible refine (updBoot_keeps ..).after ?_ (by decide)
    | with_reducible refine Keeps.ite ?_ ?_
    | (intro s; refine ⟨fun h => ?_, fun h => ?_, fun h => ?_, fun h => ?_⟩ <;> first | rfl | (cases h; done) | (split <;> rfl) | (simp; done))
    | (refine ⟨fun h => ?_, fun h => ?_, fun h => ?_, fun h => ?_⟩ <;> first | rfl | (cases h; done) | (split <;> rfl) | (simp; done))
    | split

theorem commitGo_keeps : ∀ a1 d, Keeps [.devState, .latch, .bootp, .arbs, .slots, .chans, .profs, .paths, .srcs, .mods, .cal, .therm, .faults, .col, .log, .caps, .fi, .mem, .alert] d (commitGo a1 d) := by
  intro a1 d
  unfold commitGo
  repeat' first
    | with_reducible exact Keeps.refl _ _
    | with_reducible assumption
    | ((try lift_lets); intro x; first | (refine Keeps.cut x ?_ ?_; (on_goal 1 => subst x); (on_goal 2 => (clear_value x; intro hx))) | (have hf := fun a => x a; clear hf; subst x) | clear_value x)
    | with_reducible refine (commitRead_keeps ..).after ?_ (by decide)
    | with_reducible refine (commitImage_keeps ..).after ?_ (by decide)
    | with_reducible refine (commitPages_keeps ..).after ?_ (by decide)
    | with_reducible refine Keeps.ite ?_ ?_
    | split

theorem commitData_keeps : ∀ a1 a2 a3 d, Keeps [.devState, .latch, .bootp, .arbs, .slots, .chans, .profs, .paths, .srcs, .mods, .cal, .therm, .faults, .col, .log, .caps, .fi, .mem, .alert] d (commitData a1 a2 a3 d) := by
  intro a1 a2 a3 d
  unfold commitData
  repeat' first
    | with_reducible exact Keeps.refl _ _
    | with_reducible assumption
    | ((try lift_lets); intro x; first | (refine Keeps.cut x ?_ ?_; (on_goal 1 => subst x); (on_goal 2 => (clear_value x; intro hx))) | (have hf := fun a => x a; clear hf; subst x) | clear_value x)
    | with_reducible refine (commitGo_keeps ..).after ?_ (by decide)
    | with_reducible refine Keeps.ite ?_ ?_
    | split

theorem nvmEnd_keeps : ∀ a1 d, Keeps [.bootp, .alert] d (nvmEnd a1 d) := by
  intro a1 d
  unfold nvmEnd
  repeat' first
    | with_reducible exact Keeps.refl _ _
    | with_reducible assumption
    | ((try lift_lets); intro x; first | (refine Keeps.cut x ?_ ?_; (on_goal 1 => subst x); (on_goal 2 => (clear_value x; intro hx))) | (have hf := fun a => x a; clear hf; subst x) | clear_value x)
    | with_reducible refine (alertSet_keeps ..).after ?_ (by decide)
    | with_reducible refine (updBoot_keeps ..).after ?_ (by decide)
    | with_reducible refine Keeps.ite ?_ ?_
    | split

theorem nvmData_keeps : ∀ a1 d, Keeps [.bootp, .arbs, .alert] d (nvmData a1 d) := by
  intro a1 d
  unfold nvmData
  repeat' first
    | with_reducible exact Keeps.refl _ _
    | with_reducible assumption
    | ((try lift_lets); intro x; first | (refine Keeps.cut x ?_ ?_; (on_goal 1 => subst x); (on_goal 2 => (clear_value x; intro hx))) | (have hf := fun a => x a; clear hf; subst x) | clear_value x)
    | with_reducible refine (nvmEnd_keeps ..).after ?_ (by decide)
    | with_reducible refine (bootNew_keeps ..).after ?_ (by decide)
    | with_reducible refine (updBoot_keeps ..).after ?_ (by decide)
    | with_reducible refine Keeps.ite ?_ ?_
    | split

def ownerDataParts : List Part :=
  [.start, .devState, .latch, .loader, .mode, .bootp, .arbs, .slots, .chans, .profs, .paths, .srcs, .mods, .cal, .therm, .faults, .col, .log, .caps, .fi, .mem, .reload, .alert]

theorem ownerData_keeps : ∀ a1 a2 a3 d, Keeps ownerDataParts d (ownerData a1 a2 a3 d) := by
  intro a1 a2 a3 d
  unfold ownerData
  repeat' first
    | with_reducible exact Keeps.refl _ _
    | with_reducible assumption
    | ((try lift_lets); intro x; first | (refine Keeps.cut x ?_ ?_; (on_goal 1 => subst x); (on_goal 2 => (clear_value x; intro hx))) | (have hf := fun a => x a; clear hf; subst x) | clear_value x)
    | with_reducible refine (imgData_keeps ..).after ?_ (by decide)
    | with_reducible refine (commitData_keeps ..).after ?_ (by decide)
    | with_reducible refine (nvmData_keeps ..).after ?_ (by decide)
    | with_reducible refine Keeps.ite ?_ ?_
    | split

theorem imgFail_keeps : ∀ a1 a2 a3 d, Keeps [.start, .devState, .latch, .loader, .mode, .bootp, .arbs, .log, .mem, .reload] d (imgFail a1 a2 a3 d) := by
  intro a1 a2 a3 d
  unfold imgFail
  repeat' first
    | with_reducible exact Keeps.refl _ _
    | with_reducible assumption
    | ((try lift_lets); intro x; first | (refine Keeps.cut x ?_ ?_; (on_goal 1 => subst x); (on_goal 2 => (clear_value x; intro hx))) | (have hf := fun a => x a; clear hf; subst x) | clear_value x)
    | with_reducible refine (imgEnd_keeps ..).after ?_ (by decide)
    | with_reducible refine Keeps.ite ?_ ?_
    | split

theorem ownerFail_keeps : ∀ a1 a2 a3 d, Keeps [.start, .devState, .latch, .loader, .mode, .bootp, .arbs, .cal, .log, .mem, .reload, .alert] d (ownerFail a1 a2 a3 d) := by
  intro a1 a2 a3 d
  unfold ownerFail
  repeat' first
    | with_reducible exact Keeps.refl _ _
    | with_reducible assumption
    | ((try lift_lets); intro x; first | (refine Keeps.cut x ?_ ?_; (on_goal 1 => subst x); (on_goal 2 => (clear_value x; intro hx))) | (have hf := fun a => x a; clear hf; subst x) | clear_value x)
    | with_reducible refine (imgFail_keeps ..).after ?_ (by decide)
    | with_reducible refine (commitImage_keeps ..).after ?_ (by decide)
    | with_reducible refine (nvmEnd_keeps ..).after ?_ (by decide)
    | with_reducible refine Keeps.ite ?_ ?_
    | split

theorem bootFailed_keeps : ∀ a1 a2 a3 d, Keeps [.start, .devState, .latch, .loader, .mode, .bootp, .arbs, .cal, .log, .mem, .reload, .alert] d (bootFailed a1 a2 a3 d) := by
  intro a1 a2 a3 d
  unfold bootFailed
  repeat' first
    | with_reducible exact Keeps.refl _ _
    | with_reducible assumption
    | ((try lift_lets); intro x; first | (refine Keeps.cut x ?_ ?_; (on_goal 1 => subst x); (on_goal 2 => (clear_value x; intro hx))) | (have hf := fun a => x a; clear hf; subst x) | clear_value x)
    | with_reducible refine (bootAsk_keeps ..).after ?_ (by decide)
    | with_reducible refine (busRecovery_keeps ..).after ?_ (by decide)
    | with_reducible refine (ownerFail_keeps ..).after ?_ (by decide)
    | with_reducible refine (updBoot_keeps ..).after ?_ (by decide)
    | with_reducible refine (updLoader_keeps _ ?_).after ?_ (by decide)
    | with_reducible refine Keeps.ite ?_ ?_
    | (intro s h; first | exact h | exact baseOf_wf _ | rfl | exact msets_wf _ _ _ h | (dsimp only; split <;> first | exact h | exact baseOf_wf _ | rfl))
    | split

theorem commitPaged_keeps : ∀ a1 d, Keeps [.bootp, .arbs, .cal, .alert] d (commitPaged a1 d) := by
  intro a1 d
  unfold commitPaged
  repeat' first
    | with_reducible exact Keeps.refl _ _
    | with_reducible assumption
    | ((try lift_lets); intro x; first | (refine Keeps.cut x ?_ ?_; (on_goal 1 => subst x); (on_goal 2 => (clear_value x; intro hx))) | (have hf := fun a => x a; clear hf; subst x) | clear_value x)
    | with_reducible refine (commitImage_keeps ..).after ?_ (by decide)
    | with_reducible refine (bootNew_keeps ..).after ?_ (by decide)
    | with_reducible refine (updBoot_keeps ..).after ?_ (by decide)
    | with_reducible refine Keeps.ite ?_ ?_
    | split

theorem ownerPaged_keeps : ∀ a1 d, Keeps [.bootp, .arbs, .cal, .alert] d (ownerPaged a1 d) := by
  intro a1 d
  unfold ownerPaged
  repeat' first
    | with_reducible exact Keeps.refl _ _
    | with_reducible assumption
    | ((try lift_lets); intro x; first | (refine Keeps.cut x ?_ ?_; (on_goal 1 => subst x); (on_goal 2 => (clear_value x; intro hx))) | (have hf := fun a => x a; clear hf; subst x) | clear_value x)
    | with_reducible refine (commitPaged_keeps ..).after ?_ (by decide)
    | with_reducible refine (nvmEnd_keeps ..).after ?_ (by decide)
    | with_reducible refine (updBoot_keeps ..).after ?_ (by decide)
    | with_reducible refine Keeps.ite ?_ ?_
    | split

def bootOutcomeParts : List Part :=
  [.start, .devState, .latch, .loader, .mode, .bootp, .arbs, .slots, .chans, .profs, .paths, .srcs, .mods, .cal, .therm, .faults, .col, .log, .caps, .fi, .mem, .reload, .alert]

theorem bootOutcome_keeps : ∀ a1 a2 a3 d, Keeps bootOutcomeParts d (bootOutcome a1 a2 a3 d) := by
  intro a1 a2 a3 d
  unfold bootOutcome
  repeat' first
    | with_reducible exact Keeps.refl _ _
    | with_reducible assumption
    | ((try lift_lets); intro x; first | (refine Keeps.cut x ?_ ?_; (on_goal 1 => subst x); (on_goal 2 => (clear_value x; intro hx))) | (have hf := fun a => x a; clear hf; subst x) | clear_value x)
    | with_reducible refine (ownerData_keeps ..).after ?_ (by decide)
    | with_reducible refine (bootFailed_keeps ..).after ?_ (by decide)
    | with_reducible refine (ownerPaged_keeps ..).after ?_ (by decide)
    | with_reducible refine (updBoot_keeps ..).after ?_ (by decide)
    | with_reducible refine Keeps.ite ?_ ?_
    | split

def bootDoneParts : List Part :=
  [.start, .devState, .latch, .loader, .mode, .bootp, .arbs, .slots, .chans, .profs, .paths, .srcs, .mods, .cal, .therm, .faults, .col, .log, .caps, .fi, .mem, .reload, .alert]

theorem bootDone_keeps : ∀ a1 d, Keeps bootDoneParts d (bootDone a1 d) := by
  intro a1 d
  unfold bootDone
  repeat' first
    | with_reducible exact Keeps.refl _ _
    | with_reducible assumption
    | ((try lift_lets); intro x; first | (refine Keeps.cut x ?_ ?_; (on_goal 1 => subst x); (on_goal 2 => (clear_value x; intro hx))) | (have hf := fun a => x a; clear hf; subst x) | clear_value x)
    | with_reducible refine (bootOutcome_keeps ..).after ?_ (by decide)
    | with_reducible refine (arbRelease_keeps ..).after ?_ (by decide)
    | with_reducible refine (updBoot_keeps ..).after ?_ (by decide)
    | with_reducible refine Keeps.ite ?_ ?_
    | split

theorem bootSettle_keeps : ∀ d, Keeps [.loader, .bootp, .arbs, .clk] d (bootSettle d) := by
  intro d
  unfold bootSettle
  repeat' first
    | with_reducible exact Keeps.refl _ _
    | with_reducible assumption
    | ((try lift_lets); intro x; first | (refine Keeps.cut x ?_ ?_; (on_goal 1 => subst x); (on_goal 2 => (clear_value x; intro hx))) | (have hf := fun a => x a; clear hf; subst x) | clear_value x)
    | with_reducible refine (imgStart_keeps ..).after ?_ (by decide)
    | with_reducible refine (waitUp_keeps ..).after ?_ (by decide)
    | with_reducible refine Keeps.ite ?_ ?_
    | split

theorem bootStuck_keeps : ∀ d, Keeps [.start, .devState, .latch, .loader, .mode, .bootp, .arbs, .cal, .log, .mem, .reload, .alert] d (bootStuck d) := by
  intro d
  unfold bootStuck
  repeat' first
    | with_reducible exact Keeps.refl _ _
    | with_reducible assumption
    | ((try lift_lets); intro x; first | (refine Keeps.cut x ?_ ?_; (on_goal 1 => subst x); (on_goal 2 => (clear_value x; intro hx))) | (have hf := fun a => x a; clear hf; subst x) | clear_value x)
    | with_reducible refine (bootFailed_keeps ..).after ?_ (by decide)
    | with_reducible refine (arbRelease_keeps ..).after ?_ (by decide)
    | with_reducible refine (updBoot_keeps ..).after ?_ (by decide)
    | with_reducible refine Keeps.ite ?_ ?_
    | split

theorem readsIdle_keeps : ∀ a1 d, Keeps [.faults] d (readsIdle a1 d) := by
  intro a1 d
  unfold readsIdle
  repeat' first
    | with_reducible exact Keeps.refl _ _
    | with_reducible assumption
    | ((try lift_lets); intro x; first | (refine Keeps.cut x ?_ ?_; (on_goal 1 => subst x); (on_goal 2 => (clear_value x; intro hx))) | (have hf := fun a => x a; clear hf; subst x) | clear_value x)
    | with_reducible refine (updFault_keeps ..).after ?_ (by decide)
    | with_reducible refine Keeps.ite ?_ ?_
    | split

theorem raiseLevel_keeps : ∀ a1 a2 d, Keeps [.devState, .latch, .arbs, .slots, .chans, .profs, .paths, .srcs, .faults, .col, .log, .caps, .alert] d (raiseLevel a1 a2 d) := by
  intro a1 a2 d
  unfold raiseLevel
  repeat' first
    | with_reducible exact Keeps.refl _ _
    | with_reducible assumption
    | ((try lift_lets); intro x; first | (refine Keeps.cut x ?_ ?_; (on_goal 1 => subst x); (on_goal 2 => (clear_value x; intro hx))) | (have hf := fun a => x a; clear hf; subst x) | clear_value x)
    | with_reducible refine (readsIdle_keeps ..).after ?_ (by decide)
    | with_reducible refine (raiseX_keeps ..).after ?_ (by decide)
    | with_reducible refine (updFault_keeps ..).after ?_ (by decide)
    | with_reducible refine Keeps.ite ?_ ?_
    | split

theorem breakSensor_keeps : ∀ a1 a2 d, Keeps [.devState, .latch, .arbs, .slots, .chans, .profs, .paths, .srcs, .hk, .faults, .col, .log, .caps, .alert] d (breakSensor a1 a2 d) := by
  intro a1 a2 d
  unfold breakSensor
  repeat' first
    | with_reducible exact Keeps.refl _ _
    | with_reducible assumption
    | ((try lift_lets); intro x; first | (refine Keeps.cut x ?_ ?_; (on_goal 1 => subst x); (on_goal 2 => (clear_value x; intro hx))) | (have hf := fun a => x a; clear hf; subst x) | clear_value x)
    | with_reducible refine (raiseLevel_keeps ..).after ?_ (by decide)
    | with_reducible refine (updHk_keeps ..).after ?_ (by decide)
    | with_reducible refine Keeps.ite ?_ ?_
    | split

theorem trip_keeps : ∀ a1 a2 d, Keeps [.devState, .latch, .arbs, .slots, .chans, .profs, .paths, .srcs, .faults, .col, .log, .caps, .alert] d (trip a1 a2 d) := by
  intro a1 a2 d
  unfold trip
  repeat' first
    | with_reducible exact Keeps.refl _ _
    | with_reducible assumption
    | ((try lift_lets); intro x; first | (refine Keeps.cut x ?_ ?_; (on_goal 1 => subst x); (on_goal 2 => (clear_value x; intro hx))) | (have hf := fun a => x a; clear hf; subst x) | clear_value x)
    | with_reducible refine (raise_keeps ..).after ?_ (by decide)
    | with_reducible refine (pathTrip_keeps ..).after ?_ (by decide)
    | with_reducible refine Keeps.ite ?_ ?_
    | split

theorem breaker_keeps : ∀ a1 d, Keeps [.devState, .latch, .arbs, .slots, .chans, .profs, .paths, .srcs, .faults, .col, .log, .caps, .alert] d (breaker a1 d) := by
  intro a1 d
  unfold breaker
  repeat' first
    | with_reducible exact Keeps.refl _ _
    | with_reducible assumption
    | ((try lift_lets); intro x; first | (refine Keeps.cut x ?_ ?_; (on_goal 1 => subst x); (on_goal 2 => (clear_value x; intro hx))) | (have hf := fun a => x a; clear hf; subst x) | clear_value x)
    | with_reducible refine (trip_keeps ..).after ?_ (by decide)
    | with_reducible refine (updPath_keeps ..).after ?_ (by decide)
    | with_reducible refine Keeps.ite ?_ ?_
    | split

theorem broken_keeps : ∀ a1 d, Keeps [.sup] d (broken a1 d) := by
  intro a1 d
  unfold broken
  repeat' first
    | with_reducible exact Keeps.refl _ _
    | with_reducible assumption
    | ((try lift_lets); intro x; first | (refine Keeps.cut x ?_ ?_; (on_goal 1 => subst x); (on_goal 2 => (clear_value x; intro hx))) | (have hf := fun a => x a; clear hf; subst x) | clear_value x)
    | with_reducible refine (updSup_keeps (S := [.sup]) _ ?_).after ?_ (by decide)
    | with_reducible refine Keeps.ite ?_ ?_
    | (intro s; refine ⟨fun h => ?_, fun h => ?_⟩ <;> first | rfl | (cases h; done) | (split <;> rfl) | (simp; done))
    | (refine ⟨fun h => ?_, fun h => ?_⟩ <;> first | rfl | (cases h; done) | (split <;> rfl) | (simp; done))
    | split

def budgetArrivalParts : List Part :=
  [.devState, .latch, .arbs, .clk, .isl, .launches, .halt, .slots, .quads, .chans, .profs, .paths, .srcs, .bus, .rings, .writers, .nobind, .therm, .faults, .col, .log, .caps, .conf, .alert]

theorem budgetArrival_keeps : ∀ a1 d, Keeps budgetArrivalParts d (budgetArrival a1 d) := by
  intro a1 d
  unfold budgetArrival
  repeat' first
    | with_reducible exact Keeps.refl _ _
    | with_reducible assumption
    | ((try lift_lets); intro x; first | (refine Keeps.cut x ?_ ?_; (on_goal 1 => subst x); (on_goal 2 => (clear_value x; intro hx))) | (have hf := fun a => x a; clear hf; subst x) | clear_value x)
    | with_reducible refine (arrive_keeps ..).after ?_ (by decide)
    | with_reducible refine Keeps.ite ?_ ?_
    | split

theorem periodTaken_keeps : ∀ a1 a2 d, Keeps [.clk] d (periodTaken a1 a2 d) := by
  intro a1 a2 d
  unfold periodTaken
  repeat' first
    | with_reducible exact Keeps.refl _ _
    | with_reducible assumption
    | ((try lift_lets); intro x; first | (refine Keeps.cut x ?_ ?_; (on_goal 1 => subst x); (on_goal 2 => (clear_value x; intro hx))) | (have hf := fun a => x a; clear hf; subst x) | clear_value x)
    | with_reducible refine Keeps.ite ?_ ?_
    | (fail_if_no_progress with_reducible refine (set_clk_keeps _ _).after ?_ (by decide))
    | split

theorem nextMultiple_keeps : ∀ a1 a2 d, Keeps [.clk] d (nextMultiple a1 a2 d) := by
  intro a1 a2 d
  unfold nextMultiple
  repeat' first
    | with_reducible exact Keeps.refl _ _
    | with_reducible assumption
    | ((try lift_lets); intro x; first | (refine Keeps.cut x ?_ ?_; (on_goal 1 => subst x); (on_goal 2 => (clear_value x; intro hx))) | (have hf := fun a => x a; clear hf; subst x) | clear_value x)
    | with_reducible refine (periodTaken_keeps ..).after ?_ (by decide)
    | with_reducible refine (waitUp_keeps ..).after ?_ (by decide)
    | with_reducible refine Keeps.ite ?_ ?_
    | split

theorem budgetUpdate_keeps : ∀ d, Keeps [.clk, .isl, .bus] d (budgetUpdate d) := by
  intro d
  unfold budgetUpdate
  repeat' first
    | with_reducible exact Keeps.refl _ _
    | with_reducible assumption
    | ((try lift_lets); intro x; first | (refine Keeps.cut x ?_ ?_; (on_goal 1 => subst x); (on_goal 2 => (clear_value x; intro hx))) | (have hf := fun a => x a; clear hf; subst x) | clear_value x)
    | with_reducible refine (nextMultiple_keeps ..).after ?_ (by decide)
    | with_reducible refine (sendBudgets_keeps ..).after ?_ (by decide)
    | with_reducible refine (updBus_keeps ..).after ?_ (by decide)
    | with_reducible refine Keeps.ite ?_ ?_
    | split

theorem confBuilt_keeps {S : List Part} {d e : Device} {new : Memory} (k : Keeps S d e) (hs : sub [.isl, .conf] S = true)
    (ha : d.memOk → new.wf = true) : Keeps S d (confBuilt new e) := by
  have h1 : sub [.isl] S = true := by simp only [sub, List.all_cons, Bool.and_eq_true] at hs ⊢; exact ⟨hs.1, rfl⟩
  have h2 : sub [.conf] S = true := by simp only [sub, List.all_cons, Bool.and_eq_true] at hs ⊢; exact ⟨hs.2.1, rfl⟩
  unfold confBuilt
  refine Keeps.forEach (fun _ _ => (send_keeps ..).mono h1) ?_
  exact setConf_keeps d e k h2 _ (fun _ => rfl) (fun _ => rfl) fun h => confLagged_wf _ (k.mem h).2.1 (fun q => wordRanges_le q none) _ _ (ha h)

theorem mirrorEnds_keeps : ∀ d, Keeps [.arbs, .mem] d (mirrorEnds d) := by
  intro d
  unfold mirrorEnds
  repeat' first
    | with_reducible exact Keeps.refl _ _
    | with_reducible assumption
    | ((try lift_lets); intro x; first | (refine Keeps.cut x ?_ ?_; (on_goal 1 => subst x); (on_goal 2 => (clear_value x; intro hx))) | (have hf := fun a => x a; clear hf; subst x) | clear_value x)
    | with_reducible refine (arbRelease_keeps ..).after ?_ (by decide)
    | with_reducible refine (arbWithdraw_keeps ..).after ?_ (by decide)
    | with_reducible refine (updMem_keeps (S := [.mem]) _ ?_ ?_).after ?_ (by decide)
    | with_reducible refine Keeps.ite ?_ ?_
    | (intro s; refine ⟨fun h => ?_, fun h => ?_, fun h => ?_⟩ <;> first | rfl | (cases h; done) | (split <;> rfl) | (simp; done))
    | (intro h; refine ⟨?_, ?_⟩ <;> first | exact h.1 | exact h.2.1 | exact msets_wf _ _ _ h.1 | exact msets_wf _ _ _ h.2.1 | exact wf_nil | exact filter_wf _ _ h.1 | exact composeMem_wf _ _ _ h.2.2.1)
    | split

theorem mirrorBuilt_keeps : ∀ d, Keeps [.start, .loader, .mode, .arbs, .isl, .log, .fi, .mem, .conf] d (mirrorBuilt d) := by
  intro d
  unfold mirrorBuilt
  refine Keeps.ite ?_ (Keeps.refl _ _)
  have h0 : Keeps [.start, .loader, .mode, .arbs, .isl, .log, .fi, .mem, .conf] d (writeMirror d.mode.taken.toNat (mirrorEnds d)) := (writeMirror_keeps ..).after ((mirrorEnds_keeps ..).mono (by decide)) (by decide)
  have h1 := confBuilt_keeps (new := composeMem d.loader.base d.loader.ovls d.mode.taken.toNat) h0 (by decide) fun h => composeMem_wf _ _ _ h.2.2.1
  refine (updStart_keeps (S := [.start]) _ ?_).after ?_ (by decide)
  · intro s; refine ⟨fun h => ?_, fun h => ?_, fun h => ?_⟩ <;> first | rfl | cases h
  · with_reducible refine (updMode_keeps ..).after ?_ (by decide)
    refine (updLoader_keeps _ ?_).after h1 (by decide)
    exact fun l h => h

theorem logRecordWrite_keeps : ∀ d, Keeps [.arbs, .log, .fi, .mem] d (logRecordWrite d) := by
  intro d
  unfold logRecordWrite
  repeat' first
    | with_reducible exact Keeps.refl _ _
    | with_reducible assumption
    | ((try lift_lets); intro x; first | (refine Keeps.cut x ?_ ?_; (on_goal 1 => subst x); (on_goal 2 => (clear_value x; intro hx))) | (have hf := fun a => x a; clear hf; subst x) | clear_value x)
    | with_reducible refine (arbRelease_keeps ..).after ?_ (by decide)
    | with_reducible refine (memWrite_keeps ..).after ?_ (by decide)
    | with_reducible refine (arbRequest_keeps ..).after ?_ (by decide)
    | with_reducible refine (updCol_keeps (S := [.log, .fi]) _ ?_).after ?_ (by decide)
    | with_reducible refine Keeps.ite ?_ ?_
    | (intro s; refine ⟨fun h => ?_, fun h => ?_, fun h => ?_, fun h => ?_⟩ <;> first | rfl | (cases h; done) | (split <;> rfl) | (simp; done))
    | (refine ⟨fun h => ?_, fun h => ?_, fun h => ?_, fun h => ?_⟩ <;> first | rfl | (cases h; done) | (split <;> rfl) | (simp; done))
    | split

theorem ringWrite_keeps : ∀ a1 a2 d, Keeps [.arbs, .rings, .log, .fi, .mem, .alert] d (ringWrite a1 a2 d) := by
  intro a1 a2 d
  unfold ringWrite
  repeat' first
    | with_reducible exact Keeps.refl _ _
    | with_reducible assumption
    | ((try lift_lets); intro x; first | (refine Keeps.cut x ?_ ?_; (on_goal 1 => subst x); (on_goal 2 => (clear_value x; intro hx))) | (have hf := fun a => x a; clear hf; subst x) | clear_value x)
    | with_reducible refine (memWrite_keeps ..).after ?_ (by decide)
    | with_reducible refine (alertSet_keeps ..).after ?_ (by decide)
    | with_reducible refine (updRing_keeps ..).after ?_ (by decide)
    | with_reducible refine (updSup_keeps (S := [.alert]) _ ?_).after ?_ (by decide)
    | with_reducible refine Keeps.ite ?_ ?_
    | (intro s; refine ⟨fun h => ?_, fun h => ?_⟩ <;> first | rfl | (cases h; done) | (split <;> rfl) | (simp; done))
    | (refine ⟨fun h => ?_, fun h => ?_⟩ <;> first | rfl | (cases h; done) | (split <;> rfl) | (simp; done))
    | split

theorem ringRecordWrite_keeps : ∀ a1 d, Keeps [.arbs, .rings, .writers, .log, .fi, .mem, .alert] d (ringRecordWrite a1 d) := by
  intro a1 d
  unfold ringRecordWrite
  repeat' first
    | with_reducible exact Keeps.refl _ _
    | with_reducible assumption
    | ((try lift_lets); intro x; first | (refine Keeps.cut x ?_ ?_; (on_goal 1 => subst x); (on_goal 2 => (clear_value x; intro hx))) | (have hf := fun a => x a; clear hf; subst x) | clear_value x)
    | with_reducible refine (arbRelease_keeps ..).after ?_ (by decide)
    | with_reducible refine (ringWrite_keeps ..).after ?_ (by decide)
    | with_reducible refine (arbRequest_keeps ..).after ?_ (by decide)
    | with_reducible refine Keeps.ite ?_ ?_
    | (fail_if_no_progress with_reducible refine (set_writers_keeps _ _).after ?_ (by decide))
    | split

theorem portFinish_keeps : ∀ d, Keeps [.arbs, .rings, .writers, .log, .fi, .mem, .alert] d (portFinish d) := by
  intro d
  unfold portFinish
  repeat' first
    | with_reducible exact Keeps.refl _ _
    | with_reducible assumption
    | ((try lift_lets); intro x; first | (refine Keeps.cut x ?_ ?_; (on_goal 1 => subst x); (on_goal 2 => (clear_value x; intro hx))) | (have hf := fun a => x a; clear hf; subst x) | clear_value x)
    | with_reducible refine (logRecordWrite_keeps ..).after ?_ (by decide)
    | with_reducible refine (ringRecordWrite_keeps ..).after ?_ (by decide)
    | with_reducible refine (arbRelease_keeps ..).after ?_ (by decide)
    | with_reducible refine Keeps.ite ?_ ?_
    | split

theorem portDecide_keeps : ∀ d, Keeps [.devState, .latch, .arbs, .slots, .chans, .profs, .paths, .srcs, .mods, .therm, .faults, .col, .log, .caps, .fi, .mem, .alert] d (portDecide d) := by
  intro d
  unfold portDecide
  repeat' first
    | with_reducible exact Keeps.refl _ _
    | with_reducible assumption
    | ((try lift_lets); intro x; first | (refine Keeps.cut x ?_ ?_; (on_goal 1 => subst x); (on_goal 2 => (clear_value x; intro hx))) | (have hf := fun a => x a; clear hf; subst x) | clear_value x)
    | with_reducible refine (portGrant_keeps ..).after ?_ (by decide)
    | with_reducible refine (updArb_keeps ..).after ?_ (by decide)
    | with_reducible refine Keeps.ite ?_ ?_
    | split

theorem portServe_keeps : ∀ a1 a2 d, Keeps [.devState, .latch, .arbs, .slots, .chans, .profs, .paths, .srcs, .mods, .rings, .writers, .therm, .faults, .col, .log, .caps, .fi, .mem, .alert] d (portServe a1 a2 d) := by
  intro n own
  induction n with
  | zero => exact fun d => Keeps.refl _ _
  | succ n ih =>
    intro d
    unfold portServe
    exact Keeps.ite (((portFinish_keeps d).mono (by decide)).trans (ih _)) (Keeps.ite (((portDecide_keeps d).mono (by decide)).trans (ih _)) (Keeps.refl _ _))

def buildMirrorParts : List Part :=
  [.start, .devState, .latch, .loader, .mode, .arbs, .isl, .slots, .chans, .profs, .paths, .srcs, .mods, .rings, .writers, .therm, .faults, .col, .log, .caps, .fi, .mem, .conf, .alert]

theorem buildMirror_keeps : ∀ d, Keeps buildMirrorParts d (buildMirror d) := by
  intro d
  unfold buildMirror
  repeat' first
    | with_reducible exact Keeps.refl _ _
    | with_reducible assumption
    | ((try lift_lets); intro x; first | (refine Keeps.cut x ?_ ?_; (on_goal 1 => subst x); (on_goal 2 => (clear_value x; intro hx))) | (have hf := fun a => x a; clear hf; subst x) | clear_value x)
    | with_reducible refine (mirrorBuilt_keeps ..).after ?_ (by decide)
    | with_reducible refine (portServe_keeps ..).after ?_ (by decide)
    | with_reducible refine Keeps.ite ?_ ?_
    | split

def busArrivalParts : List Part :=
  [.devState, .latch, .arbs, .clk, .isl, .launches, .halt, .slots, .quads, .chans, .profs, .paths, .srcs, .bus, .rings, .writers, .nobind, .therm, .faults, .col, .log, .caps, .conf, .alert]

theorem busArrival_keeps : ∀ a1 d, Keeps busArrivalParts d (busArrival a1 d) := by
  intro a1 d
  unfold busArrival
  repeat' first
    | with_reducible exact Keeps.refl _ _
    | with_reducible assumption
    | ((try lift_lets); intro x; first | (refine Keeps.cut x ?_ ?_; (on_goal 1 => subst x); (on_goal 2 => (clear_value x; intro hx))) | (have hf := fun a => x a; clear hf; subst x) | clear_value x)
    | with_reducible refine (arrive_keeps ..).after ?_ (by decide)
    | with_reducible refine Keeps.ite ?_ ?_
    | split

theorem busError_keeps : ∀ d, Keeps [.sup] d (busError d) := by
  intro d
  unfold busError
  repeat' first
    | with_reducible exact Keeps.refl _ _
    | with_reducible assumption
    | ((try lift_lets); intro x; first | (refine Keeps.cut x ?_ ?_; (on_goal 1 => subst x); (on_goal 2 => (clear_value x; intro hx))) | (have hf := fun a => x a; clear hf; subst x) | clear_value x)
    | with_reducible refine (noAck_keeps ..).after ?_ (by decide)
    | with_reducible refine (updSup_keeps (S := [.sup]) _ ?_).after ?_ (by decide)
    | with_reducible refine Keeps.ite ?_ ?_
    | (intro s; refine ⟨fun h => ?_, fun h => ?_⟩ <;> first | rfl | (cases h; done) | (split <;> rfl) | (simp; done))
    | (refine ⟨fun h => ?_, fun h => ?_⟩ <;> first | rfl | (cases h; done) | (split <;> rfl) | (simp; done))
    | split

theorem busFree_keeps : ∀ a1 d, Keeps [.bootp, .sup] d (busFree a1 d) := by
  intro a1 d
  unfold busFree
  repeat' first
    | with_reducible exact Keeps.refl _ _
    | with_reducible assumption
    | ((try lift_lets); intro x; first | (refine Keeps.cut x ?_ ?_; (on_goal 1 => subst x); (on_goal 2 => (clear_value x; intro hx))) | (have hf := fun a => x a; clear hf; subst x) | clear_value x)
    | with_reducible refine (bootBusFree_keeps ..).after ?_ (by decide)
    | with_reducible refine (updSup_keeps (S := [.sup]) _ ?_).after ?_ (by decide)
    | with_reducible refine Keeps.ite ?_ ?_
    | (intro s; refine ⟨fun h => ?_, fun h => ?_⟩ <;> first | rfl | (cases h; done) | (split <;> rfl) | (simp; done))
    | (refine ⟨fun h => ?_, fun h => ?_⟩ <;> first | rfl | (cases h; done) | (split <;> rfl) | (simp; done))
    | split

theorem capJoin_keeps : ∀ a1 a2 a3 d, Keeps [.arbs, .caps] d (capJoin a1 a2 a3 d) := by
  intro a1 a2 a3 d
  unfold capJoin
  repeat' first
    | with_reducible exact Keeps.refl _ _
    | with_reducible assumption
    | ((try lift_lets); intro x; first | (refine Keeps.cut x ?_ ?_; (on_goal 1 => subst x); (on_goal 2 => (clear_value x; intro hx))) | (have hf := fun a => x a; clear hf; subst x) | clear_value x)
    | with_reducible refine (capQueue_keeps ..).after ?_ (by decide)
    | with_reducible refine (updCol_keeps (S := [.caps]) _ ?_).after ?_ (by decide)
    | with_reducible refine Keeps.ite ?_ ?_
    | (intro s; refine ⟨fun h => ?_, fun h => ?_, fun h => ?_, fun h => ?_⟩ <;> first | rfl | (cases h; done) | (split <;> rfl) | (simp; done))
    | (refine ⟨fun h => ?_, fun h => ?_, fun h => ?_, fun h => ?_⟩ <;> first | rfl | (cases h; done) | (split <;> rfl) | (simp; done))
    | split

theorem capSample_keeps : ∀ a1 a2 a3 a4 d, Keeps [.arbs, .caps] d (capSample a1 a2 a3 a4 d) := by
  intro a1 a2 a3 a4 d
  unfold capSample
  repeat' first
    | with_reducible exact Keeps.refl _ _
    | with_reducible assumption
    | ((try lift_lets); intro x; first | (refine Keeps.cut x ?_ ?_; (on_goal 1 => subst x); (on_goal 2 => (clear_value x; intro hx))) | (have hf := fun a => x a; clear hf; subst x) | clear_value x)
    | with_reducible refine (capJoin_keeps ..).after ?_ (by decide)
    | with_reducible refine Keeps.forEach (fun _ _ => ?_) ?_
    | with_reducible refine Keeps.ite ?_ ?_
    | split

theorem busSample_keeps : ∀ d, Keeps [.arbs, .bus, .caps] d (busSample d) := by
  intro d
  unfold busSample
  repeat' first
    | with_reducible exact Keeps.refl _ _
    | with_reducible assumption
    | ((try lift_lets); intro x; first | (refine Keeps.cut x ?_ ?_; (on_goal 1 => subst x); (on_goal 2 => (clear_value x; intro hx))) | (have hf := fun a => x a; clear hf; subst x) | clear_value x)
    | with_reducible refine (capSample_keeps ..).after ?_ (by decide)
    | with_reducible refine (updBus_keeps ..).after ?_ (by decide)
    | with_reducible refine Keeps.ite ?_ ?_
    | split

theorem stuckCount_keeps : ∀ d, Keeps [.sup] d (stuckCount d) := by
  intro d
  unfold stuckCount
  repeat' first
    | with_reducible exact Keeps.refl _ _
    | with_reducible assumption
    | ((try lift_lets); intro x; first | (refine Keeps.cut x ?_ ?_; (on_goal 1 => subst x); (on_goal 2 => (clear_value x; intro hx))) | (have hf := fun a => x a; clear hf; subst x) | clear_value x)
    | with_reducible refine (updSup_keeps (S := [.sup]) _ ?_).after ?_ (by decide)
    | with_reducible refine Keeps.ite ?_ ?_
    | (intro s; refine ⟨fun h => ?_, fun h => ?_⟩ <;> first | rfl | (cases h; done) | (split <;> rfl) | (simp; done))
    | (refine ⟨fun h => ?_, fun h => ?_⟩ <;> first | rfl | (cases h; done) | (split <;> rfl) | (simp; done))
    | split

theorem pollStuck_keeps : ∀ d, Keeps [.arbs, .sup] d (pollStuck d) := by
  intro d
  unfold pollStuck
  repeat' first
    | with_reducible exact Keeps.refl _ _
    | with_reducible assumption
    | ((try lift_lets); intro x; first | (refine Keeps.cut x ?_ ?_; (on_goal 1 => subst x); (on_goal 2 => (clear_value x; intro hx))) | (have hf := fun a => x a; clear hf; subst x) | clear_value x)
    | with_reducible refine (pollFailed_keeps ..).after ?_ (by decide)
    | with_reducible refine (pollOver_keeps ..).after ?_ (by decide)
    | with_reducible refine Keeps.ite ?_ ?_
    | split

theorem busStuck_keeps : ∀ a1 a2 d, Keeps [.start, .devState, .latch, .loader, .mode, .bootp, .arbs, .cal, .log, .mem, .reload, .sup, .alert] d (busStuck a1 a2 d) := by
  intro a1 a2 d
  unfold busStuck
  repeat' first
    | with_reducible exact Keeps.refl _ _
    | with_reducible assumption
    | ((try lift_lets); intro x; first | (refine Keeps.cut x ?_ ?_; (on_goal 1 => subst x); (on_goal 2 => (clear_value x; intro hx))) | (have hf := fun a => x a; clear hf; subst x) | clear_value x)
    | with_reducible refine (bootStuck_keeps ..).after ?_ (by decide)
    | with_reducible refine (stuckCount_keeps ..).after ?_ (by decide)
    | with_reducible refine (busRecovery_keeps ..).after ?_ (by decide)
    | with_reducible refine (pollStuck_keeps ..).after ?_ (by decide)
    | with_reducible refine (updSup_keeps (S := [.sup, .alert]) _ ?_).after ?_ (by decide)
    | with_reducible refine Keeps.ite ?_ ?_
    | (intro s; refine ⟨fun h => ?_, fun h => ?_⟩ <;> first | rfl | (cases h; done) | (split <;> rfl) | (simp; done))
    | (refine ⟨fun h => ?_, fun h => ?_⟩ <;> first | rfl | (cases h; done) | (split <;> rfl) | (simp; done))
    | split

theorem calTryStart_keeps : ∀ d, Keeps [.arbs, .cal] d (calTryStart d) := by
  intro d
  unfold calTryStart
  repeat' first
    | with_reducible exact Keeps.refl _ _
    | with_reducible assumption
    | ((try lift_lets); intro x; first | (refine Keeps.cut x ?_ ?_; (on_goal 1 => subst x); (on_goal 2 => (clear_value x; intro hx))) | (have hf := fun a => x a; clear hf; subst x) | clear_value x)
    | with_reducible refine (arbRequest_keeps ..).after ?_ (by decide)
    | with_reducible refine (updCal_keeps ..).after ?_ (by decide)
    | with_reducible refine Keeps.ite ?_ ?_
    | split

theorem calBegin_keeps : ∀ a1 a2 a3 d, Keeps [.arbs, .cal] d (calBegin a1 a2 a3 d) := by
  intro a1 a2 a3 d
  unfold calBegin
  repeat' first
    | with_reducible exact Keeps.refl _ _
    | with_reducible assumption
    | ((try lift_lets); intro x; first | (refine Keeps.cut x ?_ ?_; (on_goal 1 => subst x); (on_goal 2 => (clear_value x; intro hx))) | (have hf := fun a => x a; clear hf; subst x) | clear_value x)
    | with_reducible refine (calTryStart_keeps ..).after ?_ (by decide)
    | with_reducible refine (updCal_keeps ..).after ?_ (by decide)
    | with_reducible refine Keeps.ite ?_ ?_
    | split

end Sys2Proof.Machine
end

