-- ==== Sys2Proof/Laws/Keeps5.lean ====
section
/-! SUPPORT. Sys2Proof/Laws/Keeps5.lean: what each operation of the model leaves unchanged (one lemma per operation, in the order of their use). -/

namespace Sys2Proof.Machine

set_option linter.unusedTactic false
set_option linter.unreachableTactic false
set_option linter.unusedVariables false

theorem calCommit_keeps : ∀ d, Keeps [.devState, .latch, .loader, .bootp, .arbs, .slots, .chans, .profs, .paths, .srcs, .mods, .cal, .therm, .faults, .col, .log, .caps, .fi, .mem, .conf, .reload, .alert] d (calCommit d) := by
  intro d
  unfold calCommit
  have h0 : Keeps [.devState, .latch, .loader, .bootp, .arbs, .slots, .chans, .profs, .paths, .srcs, .mods, .cal, .therm, .faults, .col, .log, .caps, .fi, .mem, .conf, .reload, .alert] d (cwReads 0x28B00 4 d) := (cwReads_keeps ..).mono (by decide)
  generalize cwReads 0x28B00 4 d = x at h0
  dsimp only
  generalize leBytes 4 ((memWordAt x 0x28B00).toNat + 1) ++ leBytes 8 x.ticks = bs
  have h1 : Keeps [.devState, .latch, .loader, .bootp, .arbs, .slots, .chans, .profs, .paths, .srcs, .mods, .cal, .therm, .faults, .col, .log, .caps, .fi, .mem, .conf, .reload, .alert] d (memWrite 0x28B00 bs x) := (memWrite_keeps ..).after h0 (by decide)
  generalize memWrite 0x28B00 bs x = y at h1
  generalize (0x28B00 : Nat) = a
  have h2 : Keeps [.devState, .latch, .loader, .bootp, .arbs, .slots, .chans, .profs, .paths, .srcs, .mods, .cal, .therm, .faults, .col, .log, .caps, .fi, .mem, .conf, .reload, .alert] d (y.updMem fun x => { x with conf := msets x.conf a bs }) :=
    setConf_keeps d y h1 (by decide) _ (fun _ => rfl) (fun _ => rfl) fun h => msets_wf _ _ _ (h1.mem h).2.1
  refine (commitStart_keeps ..).after ((updReload_keeps _ ?_).after ((updCal_keeps ..).after ((updLoader_keeps _ ?_).after h2 (by decide)) (by decide)) (by decide)) (by decide)
  · exact fun r h => h
  · exact fun l h => msets_wf _ _ _ h

def calCommitCmdParts : List Part :=
  [.devState, .latch, .loader, .bootp, .arbs, .slots, .chans, .profs, .paths, .srcs, .mods, .cal, .therm, .faults, .col, .log, .caps, .fi, .mem, .conf, .reload, .sup, .alert]

theorem calCommitCmd_keeps : ∀ a1 d, Keeps calCommitCmdParts d (calCommitCmd a1 d) := by
  intro a1 d
  unfold calCommitCmd
  repeat' first
    | with_reducible exact Keeps.refl _ _
    | with_reducible assumption
    | ((try lift_lets); intro x; first | (refine Keeps.cut x ?_ ?_; (on_goal 1 => subst x); (on_goal 2 => (clear_value x; intro hx))) | (have hf := fun a => x a; clear hf; subst x) | clear_value x)
    | with_reducible refine Keeps.blockWrite (fun _ _ _ => ?_) ?_ (by decide)
    | with_reducible refine Keeps.ifOk (fun _ _ => ?_) ?_
    | with_reducible refine (calCommit_keeps ..).after ?_ (by decide)
    | with_reducible refine Keeps.ite ?_ ?_
    | split

theorem calFull_keeps : ∀ a1 d, Keeps [.arbs, .cal, .sup] d (calFull a1 d) := by
  intro a1 d
  unfold calFull
  repeat' first
    | with_reducible exact Keeps.refl _ _
    | with_reducible assumption
    | ((try lift_lets); intro x; first | (refine Keeps.cut x ?_ ?_; (on_goal 1 => subst x); (on_goal 2 => (clear_value x; intro hx))) | (have hf := fun a => x a; clear hf; subst x) | clear_value x)
    | with_reducible refine Keeps.blockWrite (fun _ _ _ => ?_) ?_ (by decide)
    | with_reducible refine Keeps.ifOk (fun _ _ => ?_) ?_
    | with_reducible refine (calBegin_keeps ..).after ?_ (by decide)
    | with_reducible refine Keeps.ite ?_ ?_
    | split

theorem calStepDone_keeps : ∀ d, Keeps [.loader, .arbs, .isl, .cal, .log, .fi, .mem, .conf, .alert] d (calStepDone d) := by
  intro d
  unfold calStepDone
  repeat' first
    | with_reducible exact Keeps.refl _ _
    | with_reducible assumption
    | ((try lift_lets); intro x; first | (refine Keeps.cut x ?_ ?_; (on_goal 1 => subst x); (on_goal 2 => (clear_value x; intro hx))) | (have hf := fun a => x a; clear hf; subst x) | clear_value x)
    | with_reducible refine (alertSet_keeps ..).after ?_ (by decide)
    | with_reducible refine (calWrite_keeps ..).after ?_ (by decide)
    | with_reducible refine (updCal_keeps ..).after ?_ (by decide)
    | with_reducible refine Keeps.ite ?_ ?_
    | split

theorem calZero_keeps : ∀ a1 d, Keeps [.arbs, .cal, .sup] d (calZero a1 d) := by
  intro a1 d
  unfold calZero
  repeat' first
    | with_reducible exact Keeps.refl _ _
    | with_reducible assumption
    | ((try lift_lets); intro x; first | (refine Keeps.cut x ?_ ?_; (on_goal 1 => subst x); (on_goal 2 => (clear_value x; intro hx))) | (have hf := fun a => x a; clear hf; subst x) | clear_value x)
    | with_reducible refine Keeps.blockWrite (fun _ _ _ => ?_) ?_ (by decide)
    | with_reducible refine Keeps.ifOk (fun _ _ => ?_) ?_
    | with_reducible refine (calBegin_keeps ..).after ?_ (by decide)
    | with_reducible refine Keeps.ite ?_ ?_
    | split

theorem capShift_keeps : ∀ a1 d, Keeps [.slots] d (capShift a1 d) := by
  intro a1 d
  unfold capShift
  repeat' first
    | with_reducible exact Keeps.refl _ _
    | with_reducible assumption
    | ((try lift_lets); intro x; first | (refine Keeps.cut x ?_ ?_; (on_goal 1 => subst x); (on_goal 2 => (clear_value x; intro hx))) | (have hf := fun a => x a; clear hf; subst x) | clear_value x)
    | with_reducible refine (updSlot_keeps _ _ ?_).after ?_ (by decide)
    | with_reducible refine Keeps.ite ?_ ?_
    | (intro s h; first | exact h | (simp only [SlotSt.apart] at *; done) | (dsimp only; split <;> exact h) | (cases s; simp_all [SlotSt.apart]; done))
    | split

theorem waitLoc_keeps : ∀ a1 d, Keeps [.clk] d (waitLoc a1 d) := by
  intro a1 d
  unfold waitLoc
  repeat' first
    | with_reducible exact Keeps.refl _ _
    | with_reducible assumption
    | ((try lift_lets); intro x; first | (refine Keeps.cut x ?_ ?_; (on_goal 1 => subst x); (on_goal 2 => (clear_value x; intro hx))) | (have hf := fun a => x a; clear hf; subst x) | clear_value x)
    | with_reducible refine (pass_keeps ..).after ?_ (by decide)
    | with_reducible refine Keeps.ite ?_ ?_
    | split

theorem captureComplete_keeps : ∀ a1 d, Keeps [.arbs, .clk, .log, .caps, .fi, .mem] d (captureComplete a1 d) := by
  intro a1 d
  unfold captureComplete
  repeat' first
    | with_reducible exact Keeps.refl _ _
    | with_reducible assumption
    | ((try lift_lets); intro x; first | (refine Keeps.cut x ?_ ?_; (on_goal 1 => subst x); (on_goal 2 => (clear_value x; intro hx))) | (have hf := fun a => x a; clear hf; subst x) | clear_value x)
    | with_reducible refine (waitLoc_keeps ..).after ?_ (by decide)
    | with_reducible refine (memWrite_keeps ..).after ?_ (by decide)
    | with_reducible refine (arbWithdraw_keeps ..).after ?_ (by decide)
    | with_reducible refine (updCol_keeps (S := [.log, .caps, .fi]) _ ?_).after ?_ (by decide)
    | with_reducible refine Keeps.forEach (fun _ _ => ?_) ?_
    | with_reducible refine Keeps.ite ?_ ?_
    | (intro s; refine ⟨fun h => ?_, fun h => ?_, fun h => ?_, fun h => ?_⟩ <;> first | rfl | (cases h; done) | (split <;> rfl) | (simp; done))
    | (refine ⟨fun h => ?_, fun h => ?_, fun h => ?_, fun h => ?_⟩ <;> first | rfl | (cases h; done) | (split <;> rfl) | (simp; done))
    | split

theorem captureEvent_keeps : ∀ a1 a2 d, Keeps [.slots] d (captureEvent a1 a2 d) := by
  intro a1 a2 d
  unfold captureEvent
  repeat' first
    | with_reducible exact Keeps.refl _ _
    | with_reducible assumption
    | ((try lift_lets); intro x; first | (refine Keeps.cut x ?_ ?_; (on_goal 1 => subst x); (on_goal 2 => (clear_value x; intro hx))) | (have hf := fun a => x a; clear hf; subst x) | clear_value x)
    | with_reducible refine (updSlot_keeps _ _ ?_).after ?_ (by decide)
    | with_reducible refine Keeps.ite ?_ ?_
    | (intro s h; first | exact h | (simp only [SlotSt.apart] at *; done) | (dsimp only; split <;> exact h) | (cases s; simp_all [SlotSt.apart]; done))
    | split

theorem beforeCapture_apart (t : Nat) (s : SlotSt) (h : s.apart = true) : (beforeCapture t s).1.apart = true := by
  unfold beforeCapture
  split
  · split <;> exact h
  · exact h

theorem readMember_keeps : ∀ a1 d, Keeps [.slots] d (readMember a1 d) := fun _ _ => updSlot_keeps _ _ fun _ h => beforeCapture_apart _ _ h

theorem carrierPeak_keeps : ∀ a1 d, Keeps [.clk, .slots] d (carrierPeak a1 d) := by
  intro a1 d
  unfold carrierPeak
  repeat' first
    | with_reducible exact Keeps.refl _ _
    | with_reducible assumption
    | ((try lift_lets); intro x; first | (refine Keeps.cut x ?_ ?_; (on_goal 1 => subst x); (on_goal 2 => (clear_value x; intro hx))) | (have hf := fun a => x a; clear hf; subst x) | clear_value x)
    | with_reducible refine (waitUp_keeps ..).after ?_ (by decide)
    | with_reducible refine (readMember_keeps ..).after ?_ (by decide)
    | with_reducible refine (updSlot_keeps _ _ ?_).after ?_ (by decide)
    | with_reducible refine Keeps.forEach (fun _ _ => ?_) ?_
    | with_reducible refine Keeps.ite ?_ ?_
    | (intro s h; first | exact h | (simp only [SlotSt.apart] at *; done) | (dsimp only; split <;> exact h) | (cases s; simp_all [SlotSt.apart]; done))
    | split

theorem pathArm_keeps : ∀ a1 d, Keeps [.paths] d (pathArm a1 d) := by
  intro a1 d
  unfold pathArm
  repeat' first
    | with_reducible exact Keeps.refl _ _
    | with_reducible assumption
    | ((try lift_lets); intro x; first | (refine Keeps.cut x ?_ ?_; (on_goal 1 => subst x); (on_goal 2 => (clear_value x; intro hx))) | (have hf := fun a => x a; clear hf; subst x) | clear_value x)
    | with_reducible refine (updPath_keeps ..).after ?_ (by decide)
    | with_reducible refine Keeps.ite ?_ ?_
    | split

theorem slotOff_keeps : ∀ a1 d, Keeps [.slots] d (slotOff a1 d) := by
  intro a1 d
  unfold slotOff
  repeat' first
    | with_reducible exact Keeps.refl _ _
    | with_reducible assumption
    | ((try lift_lets); intro x; first | (refine Keeps.cut x ?_ ?_; (on_goal 1 => subst x); (on_goal 2 => (clear_value x; intro hx))) | (have hf := fun a => x a; clear hf; subst x) | clear_value x)
    | with_reducible refine (yOff_keeps ..).after ?_ (by decide)
    | with_reducible refine (xOff_keeps ..).after ?_ (by decide)
    | with_reducible refine (updSlot_keeps _ _ ?_).after ?_ (by decide)
    | with_reducible refine Keeps.ite ?_ ?_
    | (intro s h; first | exact h | (simp only [SlotSt.apart] at *; done) | (dsimp only; split <;> exact h) | (cases s; simp_all [SlotSt.apart]; done))
    | split

theorem shed_keeps : ∀ a1 a2 a3 d, Keeps [.devState, .latch, .arbs, .isl, .slots, .chans, .profs, .paths, .srcs, .faults, .col, .log, .caps, .alert] d (shed a1 a2 a3 d) := by
  intro a1 a2 a3 d
  unfold shed
  repeat' first
    | with_reducible exact Keeps.refl _ _
    | with_reducible assumption
    | ((try lift_lets); intro x; first | (refine Keeps.cut x ?_ ?_; (on_goal 1 => subst x); (on_goal 2 => (clear_value x; intro hx))) | (have hf := fun a => x a; clear hf; subst x) | clear_value x)
    | with_reducible refine (slotOff_keeps ..).after ?_ (by decide)
    | with_reducible refine (quadEvent_keeps ..).after ?_ (by decide)
    | with_reducible refine (raise_keeps ..).after ?_ (by decide)
    | with_reducible refine (enterCh_keeps ..).after ?_ (by decide)
    | with_reducible refine (updSlot_keeps _ _ ?_).after ?_ (by decide)
    | with_reducible refine (updChan_keeps ..).after ?_ (by decide)
    | with_reducible refine Keeps.ite ?_ ?_
    | (intro s h; first | exact h | (simp only [SlotSt.apart] at *; done) | (dsimp only; split <;> exact h) | (cases s; simp_all [SlotSt.apart]; done))
    | split

theorem shedHigh_keeps : ∀ a1 d, Keeps [.devState, .latch, .arbs, .isl, .slots, .chans, .profs, .paths, .srcs, .faults, .col, .log, .caps, .alert] d (shedHigh a1 d) := by
  intro a1 d
  unfold shedHigh
  repeat' first
    | with_reducible exact Keeps.refl _ _
    | with_reducible assumption
    | ((try lift_lets); intro x; first | (refine Keeps.cut x ?_ ?_; (on_goal 1 => subst x); (on_goal 2 => (clear_value x; intro hx))) | (have hf := fun a => x a; clear hf; subst x) | clear_value x)
    | with_reducible refine (shed_keeps ..).after ?_ (by decide)
    | with_reducible refine Keeps.forEach (fun _ _ => ?_) ?_
    | with_reducible refine Keeps.ite ?_ ?_
    | split

theorem chanStart_keeps : ∀ a1 d, Keeps [.devState, .latch, .arbs, .isl, .slots, .chans, .profs, .paths, .srcs, .faults, .col, .log, .caps, .alert] d (chanStart a1 d) := by
  intro a1 d
  unfold chanStart
  repeat' first
    | with_reducible exact Keeps.refl _ _
    | with_reducible assumption
    | ((try lift_lets); intro x; first | (refine Keeps.cut x ?_ ?_; (on_goal 1 => subst x); (on_goal 2 => (clear_value x; intro hx))) | (have hf := fun a => x a; clear hf; subst x) | clear_value x)
    | with_reducible refine (pathArm_keeps ..).after ?_ (by decide)
    | with_reducible refine (enterCh_keeps ..).after ?_ (by decide)
    | with_reducible refine (shedHigh_keeps ..).after ?_ (by decide)
    | with_reducible refine (pauseProf_keeps ..).after ?_ (by decide)
    | with_reducible refine (holdChan_keeps ..).after ?_ (by decide)
    | with_reducible refine Keeps.forEach (fun _ _ => ?_) ?_
    | with_reducible refine Keeps.ite ?_ ?_
    | split

theorem srcArm_keeps : ∀ a1 d, Keeps [.srcs] d (srcArm a1 d) := by
  intro a1 d
  unfold srcArm
  repeat' first
    | with_reducible exact Keeps.refl _ _
    | with_reducible assumption
    | ((try lift_lets); intro x; first | (refine Keeps.cut x ?_ ?_; (on_goal 1 => subst x); (on_goal 2 => (clear_value x; intro hx))) | (have hf := fun a => x a; clear hf; subst x) | clear_value x)
    | with_reducible refine (updSrc_keeps ..).after ?_ (by decide)
    | with_reducible refine Keeps.ite ?_ ?_
    | split

theorem seqSkip_keeps : ∀ a1 a2 d, Keeps [.seqs] d (seqSkip a1 a2 d) := by
  intro n
  induction n with
  | zero => intro a2 d; exact Keeps.refl _ _
  | succ n ih =>
    intro a2 d
    unfold seqSkip
    exact Keeps.ite (Keeps.refl _ _) ((ih ..).after (updSeq_keeps ..) (by decide))

theorem recClose_keeps : ∀ a1 a2 d, Keeps [.arbs, .rings, .writers] d (recClose a1 a2 d) := by
  intro a1 a2 d
  unfold recClose
  repeat' first
    | with_reducible exact Keeps.refl _ _
    | with_reducible assumption
    | ((try lift_lets); intro x; first | (refine Keeps.cut x ?_ ?_; (on_goal 1 => subst x); (on_goal 2 => (clear_value x; intro hx))) | (have hf := fun a => x a; clear hf; subst x) | clear_value x)
    | with_reducible refine (recPush_keeps ..).after ?_ (by decide)
    | with_reducible refine Keeps.ite ?_ ?_
    | split

theorem recEnd_keeps : ∀ a1 d, Keeps [.arbs, .seqs, .rings, .writers] d (recEnd a1 d) := by
  intro a1 d
  unfold recEnd
  repeat' first
    | with_reducible exact Keeps.refl _ _
    | with_reducible assumption
    | ((try lift_lets); intro x; first | (refine Keeps.cut x ?_ ?_; (on_goal 1 => subst x); (on_goal 2 => (clear_value x; intro hx))) | (have hf := fun a => x a; clear hf; subst x) | clear_value x)
    | with_reducible refine (recClose_keeps ..).after ?_ (by decide)
    | with_reducible refine (updSeq_keeps ..).after ?_ (by decide)
    | with_reducible refine Keeps.ite ?_ ?_
    | split

theorem seqDrop_keeps : ∀ a1 a2 d, Keeps [.arbs, .mods] d (seqDrop a1 a2 d) := by
  intro a1 a2 d
  unfold seqDrop
  repeat' first
    | with_reducible exact Keeps.refl _ _
    | with_reducible assumption
    | ((try lift_lets); intro x; first | (refine Keeps.cut x ?_ ?_; (on_goal 1 => subst x); (on_goal 2 => (clear_value x; intro hx))) | (have hf := fun a => x a; clear hf; subst x) | clear_value x)
    | with_reducible refine (arbRelease_keeps ..).after ?_ (by decide)
    | with_reducible refine (arbWithdraw_keeps ..).after ?_ (by decide)
    | with_reducible refine (updMod_keeps ..).after ?_ (by decide)
    | with_reducible refine Keeps.ite ?_ ?_
    | split

theorem seqStart_keeps : ∀ a1 d, Keeps [.arbs, .mods, .seqs, .rings, .writers] d (seqStart a1 d) := by
  intro a1 d
  unfold seqStart
  repeat' first
    | with_reducible exact Keeps.refl _ _
    | with_reducible assumption
    | ((try lift_lets); intro x; first | (refine Keeps.cut x ?_ ?_; (on_goal 1 => subst x); (on_goal 2 => (clear_value x; intro hx))) | (have hf := fun a => x a; clear hf; subst x) | clear_value x)
    | with_reducible refine (seqSkip_keeps ..).after ?_ (by decide)
    | with_reducible refine (recEnd_keeps ..).after ?_ (by decide)
    | with_reducible refine (seqDrop_keeps ..).after ?_ (by decide)
    | with_reducible refine (updSeq_keeps ..).after ?_ (by decide)
    | with_reducible refine Keeps.forEach (fun _ _ => ?_) ?_
    | with_reducible refine Keeps.ite ?_ ?_
    | split

theorem quadStart_keeps : ∀ a1 a2 d, Keeps [.arbs, .srcs, .mods, .seqs, .rings, .writers] d (quadStart a1 a2 d) := by
  intro a1 a2 d
  unfold quadStart
  repeat' first
    | with_reducible exact Keeps.refl _ _
    | with_reducible assumption
    | ((try lift_lets); intro x; first | (refine Keeps.cut x ?_ ?_; (on_goal 1 => subst x); (on_goal 2 => (clear_value x; intro hx))) | (have hf := fun a => x a; clear hf; subst x) | clear_value x)
    | with_reducible refine (srcArm_keeps ..).after ?_ (by decide)
    | with_reducible refine (seqStart_keeps ..).after ?_ (by decide)
    | with_reducible refine Keeps.ite ?_ ?_
    | split

theorem stopMaster_keeps : ∀ a1 d, Keeps [.slots, .chans] d (stopMaster a1 d) := by
  intro a1 d
  unfold stopMaster
  repeat' first
    | with_reducible exact Keeps.refl _ _
    | with_reducible assumption
    | ((try lift_lets); intro x; first | (refine Keeps.cut x ?_ ?_; (on_goal 1 => subst x); (on_goal 2 => (clear_value x; intro hx))) | (have hf := fun a => x a; clear hf; subst x) | clear_value x)
    | with_reducible refine (slotOff_keeps ..).after ?_ (by decide)
    | with_reducible refine (updChan_keeps ..).after ?_ (by decide)
    | with_reducible refine (updSlot_keeps _ _ ?_).after ?_ (by decide)
    | with_reducible refine Keeps.forEach (fun _ _ => ?_) ?_
    | with_reducible refine Keeps.ite ?_ ?_
    | (intro s h; first | exact h | (simp only [SlotSt.apart] at *; done) | (dsimp only; split <;> exact h) | (cases s; simp_all [SlotSt.apart]; done))
    | split

theorem resetQuadTimer_keeps : ∀ a1 d, Keeps [.quads] d (resetQuadTimer a1 d) := by
  intro a1 d
  unfold resetQuadTimer
  repeat' first
    | with_reducible exact Keeps.refl _ _
    | with_reducible assumption
    | ((try lift_lets); intro x; first | (refine Keeps.cut x ?_ ?_; (on_goal 1 => subst x); (on_goal 2 => (clear_value x; intro hx))) | (have hf := fun a => x a; clear hf; subst x) | clear_value x)
    | with_reducible refine (updQuad_keeps ..).after ?_ (by decide)
    | with_reducible refine Keeps.ite ?_ ?_
    | split

theorem resetCarriers_keeps : ∀ a1 d, Keeps [.slots, .quads, .chans] d (resetCarriers a1 d) := by
  intro a1 d
  unfold resetCarriers
  repeat' first
    | with_reducible exact Keeps.refl _ _
    | with_reducible assumption
    | ((try lift_lets); intro x; first | (refine Keeps.cut x ?_ ?_; (on_goal 1 => subst x); (on_goal 2 => (clear_value x; intro hx))) | (have hf := fun a => x a; clear hf; subst x) | clear_value x)
    | with_reducible refine (stopMaster_keeps ..).after ?_ (by decide)
    | with_reducible refine (resetQuadTimer_keeps ..).after ?_ (by decide)
    | with_reducible refine Keeps.forEach (fun _ _ => ?_) ?_
    | with_reducible refine Keeps.ite ?_ ?_
    | split

theorem carrierReset_keeps : ∀ a1 d, Keeps [.devState, .latch, .arbs, .isl, .slots, .quads, .chans, .profs, .paths, .srcs, .mods, .seqs, .rings, .writers, .faults, .col, .log, .caps, .alert] d (carrierReset a1 d) := by
  intro a1 d
  unfold carrierReset
  repeat' first
    | with_reducible exact Keeps.refl _ _
    | with_reducible assumption
    | ((try lift_lets); intro x; first | (refine Keeps.cut x ?_ ?_; (on_goal 1 => subst x); (on_goal 2 => (clear_value x; intro hx))) | (have hf := fun a => x a; clear hf; subst x) | clear_value x)
    | with_reducible refine (chanStart_keeps ..).after ?_ (by decide)
    | with_reducible refine (quadStart_keeps ..).after ?_ (by decide)
    | with_reducible refine (resetCarriers_keeps ..).after ?_ (by decide)
    | with_reducible refine Keeps.forEach (fun _ _ => ?_) ?_
    | with_reducible refine Keeps.ite ?_ ?_
    | split

theorem carrierResetIn_keeps : ∀ a1 a2 d, Keeps [.devState, .latch, .arbs, .isl, .slots, .quads, .chans, .profs, .paths, .srcs, .mods, .seqs, .rings, .writers, .faults, .col, .log, .caps, .alert] d (carrierResetIn a1 a2 d) := by
  intro a1 a2 d
  unfold carrierResetIn
  repeat' first
    | with_reducible exact Keeps.refl _ _
    | with_reducible assumption
    | ((try lift_lets); intro x; first | (refine Keeps.cut x ?_ ?_; (on_goal 1 => subst x); (on_goal 2 => (clear_value x; intro hx))) | (have hf := fun a => x a; clear hf; subst x) | clear_value x)
    | with_reducible refine (chanStart_keeps ..).after ?_ (by decide)
    | with_reducible refine (quadStart_keeps ..).after ?_ (by decide)
    | with_reducible refine (resetCarriers_keeps ..).after ?_ (by decide)
    | with_reducible refine (carrierReset_keeps ..).after ?_ (by decide)
    | with_reducible refine Keeps.forEach (fun _ _ => ?_) ?_
    | with_reducible refine Keeps.ite ?_ ?_
    | split

theorem carrierResetLaunch_keeps : ∀ a1 d, Keeps [.devState, .latch, .arbs, .isl, .slots, .quads, .chans, .profs, .paths, .srcs, .mods, .seqs, .rings, .writers, .faults, .col, .log, .caps, .alert] d (carrierResetLaunch a1 d) := by
  intro a1 d
  unfold carrierResetLaunch
  repeat' first
    | with_reducible exact Keeps.refl _ _
    | with_reducible assumption
    | ((try lift_lets); intro x; first | (refine Keeps.cut x ?_ ?_; (on_goal 1 => subst x); (on_goal 2 => (clear_value x; intro hx))) | (have hf := fun a => x a; clear hf; subst x) | clear_value x)
    | with_reducible refine (carrierReset_keeps ..).after ?_ (by decide)
    | with_reducible refine Keeps.ite ?_ ?_
    | split

theorem quadValley_keeps : ∀ a1 d, Keeps [.clk, .quads, .chans] d (quadValley a1 d) := by
  intro a1 d
  unfold quadValley
  repeat' first
    | with_reducible exact Keeps.refl _ _
    | with_reducible assumption
    | ((try lift_lets); intro x; first | (refine Keeps.cut x ?_ ?_; (on_goal 1 => subst x); (on_goal 2 => (clear_value x; intro hx))) | (have hf := fun a => x a; clear hf; subst x) | clear_value x)
    | with_reducible refine (waitUp_keeps ..).after ?_ (by decide)
    | with_reducible refine (updQuad_keeps ..).after ?_ (by decide)
    | with_reducible refine (updChan_keeps ..).after ?_ (by decide)
    | with_reducible refine Keeps.forEach (fun _ _ => ?_) ?_
    | with_reducible refine Keeps.ite ?_ ?_
    | split

theorem resetMember_keeps : ∀ a1 a2 a3 a4 a5 a6 d, Keeps [.slots] d (resetMember a1 a2 a3 a4 a5 a6 d) := by
  intro a1 a2 a3 a4 a5 a6 d
  unfold resetMember
  repeat' first
    | with_reducible exact Keeps.refl _ _
    | with_reducible assumption
    | ((try lift_lets); intro x; first | (refine Keeps.cut x ?_ ?_; (on_goal 1 => subst x); (on_goal 2 => (clear_value x; intro hx))) | (have hf := fun a => x a; clear hf; subst x) | clear_value x)
    | with_reducible refine (xOff_keeps ..).after ?_ (by decide)
    | with_reducible refine (updSlot_keeps _ _ ?_).after ?_ (by decide)
    | with_reducible refine Keeps.ite ?_ ?_
    | (intro s h; first | exact h | (simp only [SlotSt.apart] at *; done) | (dsimp only; split <;> exact h) | (cases s; simp_all [SlotSt.apart]; done))
    | split

theorem resetMembers_keeps : ∀ a1 a2 a3 d, Keeps [.slots] d (resetMembers a1 a2 a3 d) := by
  intro a1 a2 a3 d
  unfold resetMembers
  repeat' first
    | with_reducible exact Keeps.refl _ _
    | with_reducible assumption
    | ((try lift_lets); intro x; first | (refine Keeps.cut x ?_ ?_; (on_goal 1 => subst x); (on_goal 2 => (clear_value x; intro hx))) | (have hf := fun a => x a; clear hf; subst x) | clear_value x)
    | with_reducible refine (resetMember_keeps ..).after ?_ (by decide)
    | with_reducible refine Keeps.forEach (fun _ _ => ?_) ?_
    | with_reducible refine Keeps.ite ?_ ?_
    | split

theorem masterValley_keeps : ∀ a1 d, Keeps [.clk, .slots, .chans] d (masterValley a1 d) := by
  intro a1 d
  unfold masterValley
  repeat' first
    | with_reducible exact Keeps.refl _ _
    | with_reducible assumption
    | ((try lift_lets); intro x; first | (refine Keeps.cut x ?_ ?_; (on_goal 1 => subst x); (on_goal 2 => (clear_value x; intro hx))) | (have hf := fun a => x a; clear hf; subst x) | clear_value x)
    | with_reducible refine (waitUp_keeps ..).after ?_ (by decide)
    | with_reducible refine (resetMembers_keeps ..).after ?_ (by decide)
    | with_reducible refine (updChan_keeps ..).after ?_ (by decide)
    | with_reducible refine (updSlot_keeps _ _ ?_).after ?_ (by decide)
    | with_reducible refine Keeps.forEach (fun _ _ => ?_) ?_
    | with_reducible refine Keeps.ite ?_ ?_
    | (intro s h; first | exact h | (simp only [SlotSt.apart] at *; done) | (dsimp only; split <;> exact h) | (cases s; simp_all [SlotSt.apart]; done))
    | split

theorem yOffDue_keeps : ∀ a1 d, Keeps [.clk, .slots] d (yOffDue a1 d) := by
  intro a1 d
  unfold yOffDue
  repeat' first
    | with_reducible exact Keeps.refl _ _
    | with_reducible assumption
    | ((try lift_lets); intro x; first | (refine Keeps.cut x ?_ ?_; (on_goal 1 => subst x); (on_goal 2 => (clear_value x; intro hx))) | (have hf := fun a => x a; clear hf; subst x) | clear_value x)
    | with_reducible refine (waitUp_keeps ..).after ?_ (by decide)
    | with_reducible refine (yOff_keeps ..).after ?_ (by decide)
    | with_reducible refine Keeps.ite ?_ ?_
    | split

theorem switching_keeps : ∀ a1 a2 a3 d, Keeps [.therm] d (switching a1 a2 a3 d) := by
  intro a1 a2 a3 d
  unfold switching
  repeat' first
    | with_reducible exact Keeps.refl _ _
    | with_reducible assumption
    | ((try lift_lets); intro x; first | (refine Keeps.cut x ?_ ?_; (on_goal 1 => subst x); (on_goal 2 => (clear_value x; intro hx))) | (have hf := fun a => x a; clear hf; subst x) | clear_value x)
    | with_reducible refine (addEnergy_keeps ..).after ?_ (by decide)
    | with_reducible refine Keeps.ite ?_ ?_
    | split

theorem phaseValley_keeps : ∀ a1 a2 a3 d, Keeps [.devState, .latch, .arbs, .clk, .isl, .slots, .chans, .profs, .paths, .srcs, .therm, .faults, .col, .log, .caps, .alert] d (phaseValley a1 a2 a3 d) := by
  intro a1 a2 a3 d
  unfold phaseValley
  repeat' first
    | with_reducible exact Keeps.refl _ _
    | with_reducible assumption
    | ((try lift_lets); intro x; first | (refine Keeps.cut x ?_ ?_; (on_goal 1 => subst x); (on_goal 2 => (clear_value x; intro hx))) | (have hf := fun a => x a; clear hf; subst x) | clear_value x)
    | with_reducible refine (yOffDue_keeps ..).after ?_ (by decide)
    | with_reducible refine (waitUp_keeps ..).after ?_ (by decide)
    | with_reducible refine (xOff_keeps ..).after ?_ (by decide)
    | with_reducible refine (captureEvent_keeps ..).after ?_ (by decide)
    | with_reducible refine (switching_keeps ..).after ?_ (by decide)
    | with_reducible refine (shed_keeps ..).after ?_ (by decide)
    | with_reducible refine (beginCycle_keeps ..).after ?_ (by decide)
    | with_reducible refine (updSlot_keeps _ _ ?_).after ?_ (by decide)
    | with_reducible refine Keeps.ite ?_ ?_
    | (intro s h; first | exact h | (simp only [SlotSt.apart] at *; done) | (dsimp only; split <;> exact h) | (cases s; simp_all [SlotSt.apart]; done))
    | split

theorem carrierValley_keeps : ∀ a1 a2 a3 d, Keeps [.devState, .latch, .arbs, .clk, .isl, .slots, .quads, .chans, .profs, .paths, .srcs, .therm, .faults, .col, .log, .caps, .alert] d (carrierValley a1 a2 a3 d) := by
  intro a1 a2 a3 d
  unfold carrierValley
  repeat' first
    | with_reducible exact Keeps.refl _ _
    | with_reducible assumption
    | ((try lift_lets); intro x; first | (refine Keeps.cut x ?_ ?_; (on_goal 1 => subst x); (on_goal 2 => (clear_value x; intro hx))) | (have hf := fun a => x a; clear hf; subst x) | clear_value x)
    | with_reducible refine (quadValley_keeps ..).after ?_ (by decide)
    | with_reducible refine (masterValley_keeps ..).after ?_ (by decide)
    | with_reducible refine (phaseValley_keeps ..).after ?_ (by decide)
    | with_reducible refine Keeps.ite ?_ ?_
    | split

theorem latchQ_keeps : ∀ a1 a2 d, Keeps [.profs] d (latchQ a1 a2 d) := by
  intro a1 a2 d
  unfold latchQ
  repeat' first
    | with_reducible exact Keeps.refl _ _
    | with_reducible assumption
    | ((try lift_lets); intro x; first | (refine Keeps.cut x ?_ ?_; (on_goal 1 => subst x); (on_goal 2 => (clear_value x; intro hx))) | (have hf := fun a => x a; clear hf; subst x) | clear_value x)
    | with_reducible refine (updProf_keeps ..).after ?_ (by decide)
    | with_reducible refine Keeps.ite ?_ ?_
    | split

theorem chanReadEffect_keeps : ∀ a1 a2 d, Keeps [.chans, .profs, .paths] d (chanReadEffect a1 a2 d) := by
  intro a1 a2 d
  unfold chanReadEffect
  repeat' first
    | with_reducible exact Keeps.refl _ _
    | with_reducible assumption
    | ((try lift_lets); intro x; first | (refine Keeps.cut x ?_ ?_; (on_goal 1 => subst x); (on_goal 2 => (clear_value x; intro hx))) | (have hf := fun a => x a; clear hf; subst x) | clear_value x)
    | with_reducible refine (latchQ_keeps ..).after ?_ (by decide)
    | with_reducible refine (updChan_keeps ..).after ?_ (by decide)
    | with_reducible refine (updProf_keeps ..).after ?_ (by decide)
    | with_reducible refine (updPath_keeps ..).after ?_ (by decide)
    | with_reducible refine Keeps.ite ?_ ?_
    | split

theorem quadSample_keeps : ∀ a1 a2 a3 a4 d, Keeps [.arbs, .isl, .caps] d (quadSample a1 a2 a3 a4 d) := by
  intro a1 a2 a3 a4 d
  unfold quadSample
  repeat' first
    | with_reducible exact Keeps.refl _ _
    | with_reducible assumption
    | ((try lift_lets); intro x; first | (refine Keeps.cut x ?_ ?_; (on_goal 1 => subst x); (on_goal 2 => (clear_value x; intro hx))) | (have hf := fun a => x a; clear hf; subst x) | clear_value x)
    | with_reducible refine Keeps.toHouse (fun _ => ?_) ?_ (by decide)
    | with_reducible refine (capSample_keeps ..).after ?_ (by decide)
    | with_reducible refine Keeps.ite ?_ ?_
    | split

theorem chanSample_keeps : ∀ a1 d, Keeps [.arbs, .isl, .chans, .caps] d (chanSample a1 d) := by
  intro a1 d
  unfold chanSample
  repeat' first
    | with_reducible exact Keeps.refl _ _
    | with_reducible assumption
    | ((try lift_lets); intro x; first | (refine Keeps.cut x ?_ ?_; (on_goal 1 => subst x); (on_goal 2 => (clear_value x; intro hx))) | (have hf := fun a => x a; clear hf; subst x) | clear_value x)
    | with_reducible refine (quadSample_keeps ..).after ?_ (by decide)
    | with_reducible refine (updChan_keeps ..).after ?_ (by decide)
    | with_reducible refine Keeps.ite ?_ ?_
    | split

theorem haltRecord_keeps : ∀ a1 d, Keeps [.arbs, .isl, .rings, .writers, .nobind] d (haltRecord a1 d) := by
  intro a1 d
  unfold haltRecord
  repeat' first
    | with_reducible exact Keeps.refl _ _
    | with_reducible assumption
    | ((try lift_lets); intro x; first | (refine Keeps.cut x ?_ ?_; (on_goal 1 => subst x); (on_goal 2 => (clear_value x; intro hx))) | (have hf := fun a => x a; clear hf; subst x) | clear_value x)
    | with_reducible refine (chanRecord_keeps ..).after ?_ (by decide)
    | with_reducible refine Keeps.ite ?_ ?_
    | split

theorem joinPulsed_keeps : ∀ a1 d, Keeps [.slots, .chans, .profs, .paths] d (joinPulsed a1 d) := by
  intro a1 d
  unfold joinPulsed
  repeat' first
    | with_reducible exact Keeps.refl _ _
    | with_reducible assumption
    | ((try lift_lets); intro x; first | (refine Keeps.cut x ?_ ?_; (on_goal 1 => subst x); (on_goal 2 => (clear_value x; intro hx))) | (have hf := fun a => x a; clear hf; subst x) | clear_value x)
    | with_reducible refine (regate_keeps ..).after ?_ (by decide)
    | with_reducible refine (updChan_keeps ..).after ?_ (by decide)
    | with_reducible refine (updProf_keeps ..).after ?_ (by decide)
    | with_reducible refine Keeps.ite ?_ ?_
    | split

theorem leavePulsed_keeps : ∀ a1 d, Keeps [.slots, .chans, .profs, .paths] d (leavePulsed a1 d) := by
  intro a1 d
  unfold leavePulsed
  repeat' first
    | with_reducible exact Keeps.refl _ _
    | with_reducible assumption
    | ((try lift_lets); intro x; first | (refine Keeps.cut x ?_ ?_; (on_goal 1 => subst x); (on_goal 2 => (clear_value x; intro hx))) | (have hf := fun a => x a; clear hf; subst x) | clear_value x)
    | with_reducible refine (regate_keeps ..).after ?_ (by decide)
    | with_reducible refine (updChan_keeps ..).after ?_ (by decide)
    | with_reducible refine (updProf_keeps ..).after ?_ (by decide)
    | with_reducible refine Keeps.ite ?_ ?_
    | split

theorem movePhase_keeps : ∀ a1 a2 a3 a4 d, Keeps [.arbs, .isl, .slots, .chans, .profs, .paths, .rings, .writers, .nobind] d (movePhase a1 a2 a3 a4 d) := by
  intro a1 a2 a3 a4 d
  unfold movePhase
  repeat' first
    | with_reducible exact Keeps.refl _ _
    | with_reducible assumption
    | ((try lift_lets); intro x; first | (refine Keeps.cut x ?_ ?_; (on_goal 1 => subst x); (on_goal 2 => (clear_value x; intro hx))) | (have hf := fun a => x a; clear hf; subst x) | clear_value x)
    | with_reducible refine (setPhase_keeps ..).after ?_ (by decide)
    | with_reducible refine (applyReq_keeps ..).after ?_ (by decide)
    | with_reducible refine (joinPulsed_keeps ..).after ?_ (by decide)
    | with_reducible refine (leavePulsed_keeps ..).after ?_ (by decide)
    | with_reducible refine (updProf_keeps ..).after ?_ (by decide)
    | with_reducible refine Keeps.ite ?_ ?_
    | split

theorem estimateMove_keeps : ∀ a1 a2 d, Keeps [.arbs, .isl, .slots, .chans, .profs, .paths, .rings, .writers, .nobind] d (estimateMove a1 a2 d) := by
  intro a1 a2 d
  unfold estimateMove
  repeat' first
    | with_reducible exact Keeps.refl _ _
    | with_reducible assumption
    | ((try lift_lets); intro x; first | (refine Keeps.cut x ?_ ?_; (on_goal 1 => subst x); (on_goal 2 => (clear_value x; intro hx))) | (have hf := fun a => x a; clear hf; subst x) | clear_value x)
    | with_reducible refine (movePhase_keeps ..).after ?_ (by decide)
    | with_reducible refine (applyReq_keeps ..).after ?_ (by decide)
    | with_reducible refine (updProf_keeps ..).after ?_ (by decide)
    | with_reducible refine Keeps.ite ?_ ?_
    | split

theorem ovpCheck_keeps : ∀ a1 a2 d, Keeps [.devState, .latch, .arbs, .slots, .chans, .profs, .paths, .srcs, .faults, .col, .log, .caps, .alert] d (ovpCheck a1 a2 d) := by
  intro a1 a2 d
  unfold ovpCheck
  repeat' first
    | with_reducible exact Keeps.refl _ _
    | with_reducible assumption
    | ((try lift_lets); intro x; first | (refine Keeps.cut x ?_ ?_; (on_goal 1 => subst x); (on_goal 2 => (clear_value x; intro hx))) | (have hf := fun a => x a; clear hf; subst x) | clear_value x)
    | with_reducible refine (raise_keeps ..).after ?_ (by decide)
    | with_reducible refine Keeps.ite ?_ ?_
    | split

theorem haltPhase_keeps : ∀ a1 a2 a3 a4 d, Keeps [.devState, .latch, .arbs, .isl, .slots, .chans, .profs, .paths, .srcs, .rings, .writers, .nobind, .faults, .col, .log, .caps, .alert] d (haltPhase a1 a2 a3 a4 d) := by
  intro a1 a2 a3 a4 d
  unfold haltPhase
  repeat' first
    | with_reducible exact Keeps.refl _ _
    | with_reducible assumption
    | ((try lift_lets); intro x; first | (refine Keeps.cut x ?_ ?_; (on_goal 1 => subst x); (on_goal 2 => (clear_value x; intro hx))) | (have hf := fun a => x a; clear hf; subst x) | clear_value x)
    | with_reducible refine (movePhase_keeps ..).after ?_ (by decide)
    | with_reducible refine (estimateMove_keeps ..).after ?_ (by decide)
    | with_reducible refine (ovpCheck_keeps ..).after ?_ (by decide)
    | with_reducible refine (updProf_keeps ..).after ?_ (by decide)
    | with_reducible refine Keeps.ite ?_ ?_
    | split

theorem haltReading_keeps : ∀ a1 a2 a3 a4 d, Keeps [.devState, .latch, .arbs, .isl, .slots, .chans, .profs, .paths, .srcs, .rings, .writers, .nobind, .faults, .col, .log, .caps, .alert] d (haltReading a1 a2 a3 a4 d) := by
  intro a1 a2 a3 a4 d
  unfold haltReading
  repeat' first
    | with_reducible exact Keeps.refl _ _
    | with_reducible assumption
    | ((try lift_lets); intro x; first | (refine Keeps.cut x ?_ ?_; (on_goal 1 => subst x); (on_goal 2 => (clear_value x; intro hx))) | (have hf := fun a => x a; clear hf; subst x) | clear_value x)
    | with_reducible refine (haltPhase_keeps ..).after ?_ (by decide)
    | with_reducible refine (ovpCheck_keeps ..).after ?_ (by decide)
    | with_reducible refine Keeps.ite ?_ ?_
    | split

theorem chanSnap_keeps : ∀ a1 a2 d, Keeps [.devState, .latch, .arbs, .isl, .slots, .chans, .profs, .paths, .srcs, .rings, .writers, .nobind, .faults, .col, .log, .caps, .alert] d (chanSnap a1 a2 d) := by
  intro a1 a2 d
  unfold chanSnap
  repeat' first
    | with_reducible exact Keeps.refl _ _
    | with_reducible assumption
    | ((try lift_lets); intro x; first | (refine Keeps.cut x ?_ ?_; (on_goal 1 => subst x); (on_goal 2 => (clear_value x; intro hx))) | (have hf := fun a => x a; clear hf; subst x) | clear_value x)
    | with_reducible refine (haltRecord_keeps ..).after ?_ (by decide)
    | with_reducible refine (haltReading_keeps ..).after ?_ (by decide)
    | with_reducible refine Keeps.ite ?_ ?_
    | split

theorem channelLimit_keeps : ∀ a1 a2 d, Keeps [.slots, .chans] d (channelLimit a1 a2 d) := by
  intro a1 a2 d
  unfold channelLimit
  repeat' first
    | with_reducible exact Keeps.refl _ _
    | with_reducible assumption
    | ((try lift_lets); intro x; first | (refine Keeps.cut x ?_ ?_; (on_goal 1 => subst x); (on_goal 2 => (clear_value x; intro hx))) | (have hf := fun a => x a; clear hf; subst x) | clear_value x)
    | with_reducible refine (terminate_keeps ..).after ?_ (by decide)
    | with_reducible refine (updChan_keeps ..).after ?_ (by decide)
    | with_reducible refine Keeps.forEach (fun _ _ => ?_) ?_
    | with_reducible refine Keeps.ite ?_ ?_
    | split

theorem reconcile_keeps : ∀ a1 a2 a3 d, Keeps [.devState, .latch, .arbs, .slots, .chans, .profs, .paths, .srcs, .faults, .col, .log, .caps, .alert] d (reconcile a1 a2 a3 d) := by
  intro a1 a2 a3 d
  unfold reconcile
  repeat' first
    | with_reducible exact Keeps.refl _ _
    | with_reducible assumption
    | ((try lift_lets); intro x; first | (refine Keeps.cut x ?_ ?_; (on_goal 1 => subst x); (on_goal 2 => (clear_value x; intro hx))) | (have hf := fun a => x a; clear hf; subst x) | clear_value x)
    | with_reducible refine (raise_keeps ..).after ?_ (by decide)
    | with_reducible refine (logEvent_keeps ..).after ?_ (by decide)
    | with_reducible refine (updProf_keeps ..).after ?_ (by decide)
    | with_reducible refine Keeps.ite ?_ ?_
    | split

theorem chargeArrives_keeps : ∀ a1 a2 a3 a4 d, Keeps [.devState, .latch, .arbs, .slots, .chans, .profs, .paths, .srcs, .faults, .col, .log, .caps, .fi, .mem, .alert] d (chargeArrives a1 a2 a3 a4 d) := by
  intro a1 a2 a3 a4 d
  unfold chargeArrives
  repeat' first
    | with_reducible exact Keeps.refl _ _
    | with_reducible assumption
    | ((try lift_lets); intro x; first | (refine Keeps.cut x ?_ ?_; (on_goal 1 => subst x); (on_goal 2 => (clear_value x; intro hx))) | (have hf := fun a => x a; clear hf; subst x) | clear_value x)
    | with_reducible refine (memWrite_keeps ..).after ?_ (by decide)
    | with_reducible refine (reconcile_keeps ..).after ?_ (by decide)
    | with_reducible refine (updProf_keeps ..).after ?_ (by decide)
    | with_reducible refine Keeps.ite ?_ ?_
    | split

theorem chargeAdd_keeps : ∀ a1 a2 a3 a4 d, Keeps [.devState, .latch, .arbs, .isl, .slots, .chans, .profs, .paths, .srcs, .faults, .col, .log, .caps, .fi, .mem, .alert] d (chargeAdd a1 a2 a3 a4 d) := by
  intro a1 a2 a3 a4 d
  unfold chargeAdd
  repeat' first
    | with_reducible exact Keeps.refl _ _
    | with_reducible assumption
    | ((try lift_lets); intro x; first | (refine Keeps.cut x ?_ ?_; (on_goal 1 => subst x); (on_goal 2 => (clear_value x; intro hx))) | (have hf := fun a => x a; clear hf; subst x) | clear_value x)
    | with_reducible refine Keeps.toHouse (fun _ => ?_) ?_ (by decide)
    | with_reducible refine (chargeArrives_keeps ..).after ?_ (by decide)
    | with_reducible refine (updProf_keeps ..).after ?_ (by decide)
    | with_reducible refine Keeps.ite ?_ ?_
    | split

theorem charge_keeps : ∀ a1 d, Keeps [.devState, .latch, .arbs, .isl, .slots, .chans, .profs, .paths, .srcs, .faults, .col, .log, .caps, .fi, .mem, .alert] d (charge a1 d) := by
  intro a1 d
  unfold charge
  repeat' first
    | with_reducible exact Keeps.refl _ _
    | with_reducible assumption
    | ((try lift_lets); intro x; first | (refine Keeps.cut x ?_ ?_; (on_goal 1 => subst x); (on_goal 2 => (clear_value x; intro hx))) | (have hf := fun a => x a; clear hf; subst x) | clear_value x)
    | with_reducible refine (chargeAdd_keeps ..).after ?_ (by decide)
    | with_reducible refine (updProf_keeps ..).after ?_ (by decide)
    | with_reducible refine Keeps.ite ?_ ?_
    | split

theorem chargeSnapshot_keeps : ∀ a1 d, Keeps [.profs] d (chargeSnapshot a1 d) := by
  intro a1 d
  unfold chargeSnapshot
  repeat' first
    | with_reducible exact Keeps.refl _ _
    | with_reducible assumption
    | ((try lift_lets); intro x; first | (refine Keeps.cut x ?_ ?_; (on_goal 1 => subst x); (on_goal 2 => (clear_value x; intro hx))) | (have hf := fun a => x a; clear hf; subst x) | clear_value x)
    | with_reducible refine (updProf_keeps ..).after ?_ (by decide)
    | with_reducible refine Keeps.ite ?_ ?_
    | split

theorem devClear_keeps : ∀ a1 a2 d, Keeps [.start, .mode, .cvn, .hk, .caps] d (devClear a1 a2 d) := by
  intro a1 a2 d
  unfold devClear
  repeat' first
    | with_reducible exact Keeps.refl _ _
    | with_reducible assumption
    | ((try lift_lets); intro x; first | (refine Keeps.cut x ?_ ?_; (on_goal 1 => subst x); (on_goal 2 => (clear_value x; intro hx))) | (have hf := fun a => x a; clear hf; subst x) | clear_value x)
    | with_reducible refine (updStart_keeps (S := [.start]) _ ?_).after ?_ (by decide)
    | with_reducible refine (updMode_keeps ..).after ?_ (by decide)
    | with_reducible refine (updCvn_keeps ..).after ?_ (by decide)
    | with_reducible refine (updHk_keeps ..).after ?_ (by decide)
    | with_reducible refine (updCol_keeps (S := [.caps]) _ ?_).after ?_ (by decide)
    | with_reducible refine Keeps.ite ?_ ?_
    | (intro s; refine ⟨fun h => ?_, fun h => ?_, fun h => ?_⟩ <;> first | rfl | (cases h; done) | (split <;> rfl) | (simp; done))
    | (refine ⟨fun h => ?_, fun h => ?_, fun h => ?_⟩ <;> first | rfl | (cases h; done) | (split <;> rfl) | (simp; done))
    | (intro s; refine ⟨fun h => ?_, fun h => ?_, fun h => ?_, fun h => ?_⟩ <;> first | rfl | (cases h; done) | (split <;> rfl) | (simp; done))
    | (refine ⟨fun h => ?_, fun h => ?_, fun h => ?_, fun h => ?_⟩ <;> first | rfl | (cases h; done) | (split <;> rfl) | (simp; done))
    | split

theorem clearBits_keeps : ∀ a1 a2 d, Keeps [.start, .mode, .isl, .cvn, .slots, .profs, .paths, .srcs, .mods, .therm, .hk, .caps] d (clearBits a1 a2 d) := by
  intro a1 a2 d
  unfold clearBits
  repeat' first
    | with_reducible exact Keeps.refl _ _
    | with_reducible assumption
    | ((try lift_lets); intro x; first | (refine Keeps.cut x ?_ ?_; (on_goal 1 => subst x); (on_goal 2 => (clear_value x; intro hx))) | (have hf := fun a => x a; clear hf; subst x) | clear_value x)
    | with_reducible refine (devClear_keeps ..).after ?_ (by decide)
    | with_reducible refine (updIsl_keeps (S := [.isl]) _ ?_).after ?_ (by decide)
    | with_reducible refine (updSrc_keeps ..).after ?_ (by decide)
    | with_reducible refine (updProf_keeps ..).after ?_ (by decide)
    | with_reducible refine (updPath_keeps ..).after ?_ (by decide)
    | with_reducible refine (updSlot_keeps _ _ ?_).after ?_ (by decide)
    | with_reducible refine (updMod_keeps ..).after ?_ (by decide)
    | with_reducible refine (updTherm_keeps ..).after ?_ (by decide)
    | with_reducible refine Keeps.ite ?_ ?_
    | (intro s; refine ⟨fun h => ?_, fun h => ?_⟩ <;> first | rfl | (cases h; done) | (split <;> rfl) | (simp; done))
    | (refine ⟨fun h => ?_, fun h => ?_⟩ <;> first | rfl | (cases h; done) | (split <;> rfl) | (simp; done))
    | (intro s h; first | exact h | (simp only [SlotSt.apart] at *; done) | (dsimp only; split <;> exact h) | (cases s; simp_all [SlotSt.apart]; done))
    | split

theorem clearWord_keeps : ∀ a1 a2 d, Keeps [.start, .mode, .isl, .cvn, .slots, .profs, .paths, .srcs, .mods, .therm, .hk, .caps] d (clearWord a1 a2 d) := by
  intro a1 a2 d
  unfold clearWord
  repeat' first
    | with_reducible exact Keeps.refl _ _
    | with_reducible assumption
    | ((try lift_lets); intro x; first | (refine Keeps.cut x ?_ ?_; (on_goal 1 => subst x); (on_goal 2 => (clear_value x; intro hx))) | (have hf := fun a => x a; clear hf; subst x) | clear_value x)
    | with_reducible refine (clearBits_keeps ..).after ?_ (by decide)
    | with_reducible refine Keeps.ite ?_ ?_
    | split

theorem clear_keeps : ∀ a1 d, Keeps [.start, .mode, .isl, .cvn, .slots, .profs, .paths, .srcs, .mods, .therm, .hk, .caps, .sup] d (clear a1 d) := by
  intro a1 d
  unfold clear
  repeat' first
    | with_reducible exact Keeps.refl _ _
    | with_reducible assumption
    | ((try lift_lets); intro x; first | (refine Keeps.cut x ?_ ?_; (on_goal 1 => subst x); (on_goal 2 => (clear_value x; intro hx))) | (have hf := fun a => x a; clear hf; subst x) | clear_value x)
    | with_reducible refine Keeps.blockWrite (fun _ _ _ => ?_) ?_ (by decide)
    | with_reducible refine Keeps.ifOk (fun _ _ => ?_) ?_
    | with_reducible refine (clearWord_keeps ..).after ?_ (by decide)
    | with_reducible refine Keeps.ite ?_ ?_
    | split

end Sys2Proof.Machine
end

