-- ==== Sys2Proof/Laws/Keeps6.lean ====
section
/-! SUPPORT. Sys2Proof/Laws/Keeps6.lean: what each operation of the model leaves unchanged (one lemma per operation, in the order of their use). -/

namespace Sys2Proof.Machine

set_option linter.unusedTactic false
set_option linter.unreachableTactic false
set_option linter.unusedVariables false

theorem clockInvalid_keeps : ∀ d, Keeps [.devState, .latch, .mode, .arbs, .cvn, .slots, .chans, .profs, .paths, .srcs, .faults, .col, .log, .caps, .alert] d (clockInvalid d) := by
  intro d
  unfold clockInvalid
  repeat' first
    | with_reducible exact Keeps.refl _ _
    | with_reducible assumption
    | ((try lift_lets); intro x; first | (refine Keeps.cut x ?_ ?_; (on_goal 1 => subst x); (on_goal 2 => (clear_value x; intro hx))) | (have hf := fun a => x a; clear hf; subst x) | clear_value x)
    | with_reducible refine (aloneMode_keeps ..).after ?_ (by decide)
    | with_reducible refine (raise_keeps ..).after ?_ (by decide)
    | with_reducible refine (updCvn_keeps ..).after ?_ (by decide)
    | with_reducible refine Keeps.ite ?_ ?_
    | split

theorem clockLow_keeps : ∀ d, Keeps [.sup] d (clockLow d) := by
  intro d
  unfold clockLow
  repeat' first
    | with_reducible exact Keeps.refl _ _
    | with_reducible assumption
    | ((try lift_lets); intro x; first | (refine Keeps.cut x ?_ ?_; (on_goal 1 => subst x); (on_goal 2 => (clear_value x; intro hx))) | (have hf := fun a => x a; clear hf; subst x) | clear_value x)
    | with_reducible refine (noAck_keeps ..).after ?_ (by decide)
    | with_reducible refine (updSup_keeps (S := [.sup]) _ ?_).after ?_ (by decide)
    | with_reducible refine Keeps.ite ?_ ?_
    | (intro s; refine ⟨fun h => ?_, fun h => ?_⟩ <;> first | rfl | (cases h; done) | (split <;> rfl) | (simp; done))
    | (refine ⟨fun h => ?_, fun h => ?_⟩ <;> first | rfl | (cases h; done) | (split <;> rfl) | (simp; done))
    | split

theorem clockValid_keeps : ∀ d, Keeps [.cvn] d (clockValid d) := by
  intro d
  unfold clockValid
  repeat' first
    | with_reducible exact Keeps.refl _ _
    | with_reducible assumption
    | ((try lift_lets); intro x; first | (refine Keeps.cut x ?_ ?_; (on_goal 1 => subst x); (on_goal 2 => (clear_value x; intro hx))) | (have hf := fun a => x a; clear hf; subst x) | clear_value x)
    | with_reducible refine (updCvn_keeps ..).after ?_ (by decide)
    | with_reducible refine Keeps.ite ?_ ?_
    | split

theorem colStart_keeps : ∀ d, Keeps [.devState, .latch, .arbs, .slots, .chans, .profs, .paths, .srcs, .faults, .col, .log, .caps, .alert] d (colStart d) := by
  intro d
  unfold colStart
  repeat' first
    | with_reducible exact Keeps.refl _ _
    | with_reducible assumption
    | ((try lift_lets); intro x; first | (refine Keeps.cut x ?_ ?_; (on_goal 1 => subst x); (on_goal 2 => (clear_value x; intro hx))) | (have hf := fun a => x a; clear hf; subst x) | clear_value x)
    | with_reducible refine (raiseX_keeps ..).after ?_ (by decide)
    | with_reducible refine Keeps.forEach (fun _ _ => ?_) ?_
    | with_reducible refine Keeps.ite ?_ ?_
    | split

theorem collapseDetected_keeps : ∀ a1 d, Keeps [.slots, .chans, .profs, .paths] d (collapseDetected a1 d) := by
  intro a1 d
  unfold collapseDetected
  repeat' first
    | with_reducible exact Keeps.refl _ _
    | with_reducible assumption
    | ((try lift_lets); intro x; first | (refine Keeps.cut x ?_ ?_; (on_goal 1 => subst x); (on_goal 2 => (clear_value x; intro hx))) | (have hf := fun a => x a; clear hf; subst x) | clear_value x)
    | with_reducible refine (regate_keeps ..).after ?_ (by decide)
    | with_reducible refine (updPath_keeps ..).after ?_ (by decide)
    | with_reducible refine Keeps.ite ?_ ?_
    | split

theorem collapseEnd_keeps : ∀ a1 d, Keeps [.clk, .chans, .paths] d (collapseEnd a1 d) := by
  intro a1 d
  unfold collapseEnd
  repeat' first
    | with_reducible exact Keeps.refl _ _
    | with_reducible assumption
    | ((try lift_lets); intro x; first | (refine Keeps.cut x ?_ ?_; (on_goal 1 => subst x); (on_goal 2 => (clear_value x; intro hx))) | (have hf := fun a => x a; clear hf; subst x) | clear_value x)
    | with_reducible refine (waitUp_keeps ..).after ?_ (by decide)
    | with_reducible refine (updPath_keeps ..).after ?_ (by decide)
    | with_reducible refine (updChan_keeps ..).after ?_ (by decide)
    | with_reducible refine Keeps.ite ?_ ?_
    | split

theorem declareAbsent_keeps : ∀ a1 a2 d, Keeps [.devState, .latch, .arbs, .slots, .chans, .profs, .paths, .srcs, .faults, .col, .log, .caps, .alert] d (declareAbsent a1 a2 d) := by
  intro a1 a2 d
  unfold declareAbsent
  repeat' first
    | with_reducible exact Keeps.refl _ _
    | with_reducible assumption
    | ((try lift_lets); intro x; first | (refine Keeps.cut x ?_ ?_; (on_goal 1 => subst x); (on_goal 2 => (clear_value x; intro hx))) | (have hf := fun a => x a; clear hf; subst x) | clear_value x)
    | with_reducible refine (pathZero_keeps ..).after ?_ (by decide)
    | with_reducible refine (pauseProf_keeps ..).after ?_ (by decide)
    | with_reducible refine (enterCh_keeps ..).after ?_ (by decide)
    | with_reducible refine (raise_keeps ..).after ?_ (by decide)
    | with_reducible refine (updPath_keeps ..).after ?_ (by decide)
    | with_reducible refine (updChan_keeps ..).after ?_ (by decide)
    | with_reducible refine Keeps.ite ?_ ?_
    | split

theorem collapseJudge_keeps : ∀ a1 d, Keeps [.devState, .latch, .arbs, .slots, .chans, .profs, .paths, .srcs, .faults, .col, .log, .caps, .alert] d (collapseJudge a1 d) := by
  intro a1 d
  unfold collapseJudge
  repeat' first
    | with_reducible exact Keeps.refl _ _
    | with_reducible assumption
    | ((try lift_lets); intro x; first | (refine Keeps.cut x ?_ ?_; (on_goal 1 => subst x); (on_goal 2 => (clear_value x; intro hx))) | (have hf := fun a => x a; clear hf; subst x) | clear_value x)
    | with_reducible refine (declareAbsent_keeps ..).after ?_ (by decide)
    | with_reducible refine Keeps.ite ?_ ?_
    | split

theorem collapseOver_keeps : ∀ a1 d, Keeps [.paths] d (collapseOver a1 d) := by
  intro a1 d
  unfold collapseOver
  repeat' first
    | with_reducible exact Keeps.refl _ _
    | with_reducible assumption
    | ((try lift_lets); intro x; first | (refine Keeps.cut x ?_ ?_; (on_goal 1 => subst x); (on_goal 2 => (clear_value x; intro hx))) | (have hf := fun a => x a; clear hf; subst x) | clear_value x)
    | with_reducible refine (updPath_keeps ..).after ?_ (by decide)
    | with_reducible refine Keeps.ite ?_ ?_
    | split

theorem reloadBooked_keeps : ∀ d, Keeps [.loader, .reload] d (reloadBooked d) := by
  intro d
  have h1 : Keeps [.loader, .reload] d (d.updLoader fun l => { l with base := reloadBase d, ovls := d.reload.newOvls }) :=
    (set_loader_keeps d fun h => mergeBase_wf _ _ _ (reloadRanges_le _ _ _) h.2.2.1 h.2.2.2).mono (by decide)
  unfold reloadBooked
  refine (updReload_keeps _ ?_).after h1 (by decide)
  exact fun r h => h

theorem dropSwaps_keeps : ∀ a1 a2 d, Keeps [.swaps] d (dropSwaps a1 a2 d) := by
  intro a1 a2 d
  unfold dropSwaps
  repeat' first
    | with_reducible exact Keeps.refl _ _
    | with_reducible assumption
    | ((try lift_lets); intro x; first | (refine Keeps.cut x ?_ ?_; (on_goal 1 => subst x); (on_goal 2 => (clear_value x; intro hx))) | (have hf := fun a => x a; clear hf; subst x) | clear_value x)
    | with_reducible refine (updMem_keeps (S := [.swaps]) _ ?_ ?_).after ?_ (by decide)
    | with_reducible refine Keeps.ite ?_ ?_
    | (intro s; refine ⟨fun h => ?_, fun h => ?_, fun h => ?_⟩ <;> first | rfl | (cases h; done) | (split <;> rfl) | (simp; done))
    | (intro h; refine ⟨?_, ?_⟩ <;> first | exact h.1 | exact h.2.1 | exact msets_wf _ _ _ h.1 | exact msets_wf _ _ _ h.2.1 | exact wf_nil | exact filter_wf _ _ h.1 | exact composeMem_wf _ _ _ h.2.2.1)
    | split

theorem dropSlots_keeps : ∀ a1 a2 d, Keeps [.slots] d (dropSlots a1 a2 d) := fun _ _ d => set_slots_keeps d (mapAll_apart _ _ fun n s h => by
  dsimp only
  repeat' split
  all_goals exact h)

theorem dropRegion_keeps : ∀ a1 a2 d, Keeps [.slots, .mods] d (dropRegion a1 a2 d) := by
  intro a1 a2 d
  unfold dropRegion
  repeat' first
    | with_reducible exact Keeps.refl _ _
    | with_reducible assumption
    | ((try lift_lets); intro x; first | (refine Keeps.cut x ?_ ?_; (on_goal 1 => subst x); (on_goal 2 => (clear_value x; intro hx))) | (have hf := fun a => x a; clear hf; subst x) | clear_value x)
    | with_reducible refine (dropSlots_keeps ..).after ?_ (by decide)
    | with_reducible refine Keeps.ite ?_ ?_
    | (fail_if_no_progress with_reducible refine (set_mods_keeps _ _).after ?_ (by decide))
    | split

theorem reloadTake_keeps : ∀ a1 a2 d, Keeps [.loader, .slots, .mods, .swaps, .reload] d (reloadTake a1 a2 d) := by
  intro a1 a2 d
  unfold reloadTake
  repeat' first
    | with_reducible exact Keeps.refl _ _
    | with_reducible assumption
    | ((try lift_lets); intro x; first | (refine Keeps.cut x ?_ ?_; (on_goal 1 => subst x); (on_goal 2 => (clear_value x; intro hx))) | (have hf := fun a => x a; clear hf; subst x) | clear_value x)
    | with_reducible refine (reloadBooked_keeps ..).after ?_ (by decide)
    | with_reducible refine (dropSwaps_keeps ..).after ?_ (by decide)
    | with_reducible refine (dropRegion_keeps ..).after ?_ (by decide)
    | with_reducible refine Keeps.ite ?_ ?_
    | split

theorem comingDev_keeps : ∀ d, Keeps [.loader, .slots, .mods, .swaps, .reload] d (comingDev d) := by
  intro d
  unfold comingDev
  repeat' first
    | with_reducible exact Keeps.refl _ _
    | with_reducible assumption
    | ((try lift_lets); intro x; first | (refine Keeps.cut x ?_ ?_; (on_goal 1 => subst x); (on_goal 2 => (clear_value x; intro hx))) | (have hf := fun a => x a; clear hf; subst x) | clear_value x)
    | with_reducible refine (reloadTake_keeps ..).after ?_ (by decide)
    | with_reducible refine Keeps.ite ?_ ?_
    | split

theorem commitLapse_keeps : ∀ a1 d, Keeps [.mode] d (commitLapse a1 d) := by
  intro a1 d
  unfold commitLapse
  repeat' first
    | with_reducible exact Keeps.refl _ _
    | with_reducible assumption
    | ((try lift_lets); intro x; first | (refine Keeps.cut x ?_ ?_; (on_goal 1 => subst x); (on_goal 2 => (clear_value x; intro hx))) | (have hf := fun a => x a; clear hf; subst x) | clear_value x)
    | with_reducible refine (updMode_keeps ..).after ?_ (by decide)
    | with_reducible refine Keeps.ite ?_ ?_
    | split

theorem compensate_keeps : ∀ d, Keeps [.hk] d (compensate d) := by
  intro d
  unfold compensate
  repeat' first
    | with_reducible exact Keeps.refl _ _
    | with_reducible assumption
    | ((try lift_lets); intro x; first | (refine Keeps.cut x ?_ ?_; (on_goal 1 => subst x); (on_goal 2 => (clear_value x; intro hx))) | (have hf := fun a => x a; clear hf; subst x) | clear_value x)
    | with_reducible refine (updHk_keeps ..).after ?_ (by decide)
    | with_reducible refine Keeps.ite ?_ ?_
    | split

theorem conduction_keeps : ∀ a1 d, Keeps [.slots, .therm] d (conduction a1 d) := by
  intro a1 d
  unfold conduction
  repeat' first
    | with_reducible exact Keeps.refl _ _
    | with_reducible assumption
    | ((try lift_lets); intro x; first | (refine Keeps.cut x ?_ ?_; (on_goal 1 => subst x); (on_goal 2 => (clear_value x; intro hx))) | (have hf := fun a => x a; clear hf; subst x) | clear_value x)
    | with_reducible refine (addEnergy_keeps ..).after ?_ (by decide)
    | with_reducible refine (updSlot_keeps _ _ ?_).after ?_ (by decide)
    | with_reducible refine Keeps.forEach (fun _ _ => ?_) ?_
    | with_reducible refine Keeps.ite ?_ ?_
    | (intro s h; first | exact h | (simp only [SlotSt.apart] at *; done) | (dsimp only; split <;> exact h) | (cases s; simp_all [SlotSt.apart]; done))
    | split

theorem giveWork_keeps : ∀ a1 a2 d, Keeps [.isl] d (giveWork a1 a2 d) := by
  intro a1 a2 d
  unfold giveWork
  repeat' first
    | with_reducible exact Keeps.refl _ _
    | with_reducible assumption
    | ((try lift_lets); intro x; first | (refine Keeps.cut x ?_ ?_; (on_goal 1 => subst x); (on_goal 2 => (clear_value x; intro hx))) | (have hf := fun a => x a; clear hf; subst x) | clear_value x)
    | with_reducible refine (updIsl_keeps (S := [.isl]) _ ?_).after ?_ (by decide)
    | with_reducible refine Keeps.ite ?_ ?_
    | (intro s; refine ⟨fun h => ?_, fun h => ?_⟩ <;> first | rfl | (cases h; done) | (split <;> rfl) | (simp; done))
    | (refine ⟨fun h => ?_, fun h => ?_⟩ <;> first | rfl | (cases h; done) | (split <;> rfl) | (simp; done))
    | split

theorem placeSwap_keeps : ∀ a1 d, Keeps [.slots, .mods] d (placeSwap a1 d) := by
  intro a1 d
  unfold placeSwap
  repeat' first
    | with_reducible exact Keeps.refl _ _
    | with_reducible assumption
    | ((try lift_lets); intro x; first | (refine Keeps.cut x ?_ ?_; (on_goal 1 => subst x); (on_goal 2 => (clear_value x; intro hx))) | (have hf := fun a => x a; clear hf; subst x) | clear_value x)
    | with_reducible refine (updSlot_keeps _ _ ?_).after ?_ (by decide)
    | with_reducible refine Keeps.ite ?_ ?_
    | (fail_if_no_progress with_reducible refine (set_mods_keeps _ _).after ?_ (by decide))
    | (intro s h; first | exact h | (simp only [SlotSt.apart] at *; done) | (dsimp only; split <;> exact h) | (cases s; simp_all [SlotSt.apart]; done))
    | split

theorem swapRefused_keeps : ∀ a1 a2 d, Keeps [.arbs, .slots, .log, .swaps] d (swapRefused a1 a2 d) := by
  intro a1 a2 d
  unfold swapRefused
  repeat' first
    | with_reducible exact Keeps.refl _ _
    | with_reducible assumption
    | ((try lift_lets); intro x; first | (refine Keeps.cut x ?_ ?_; (on_goal 1 => subst x); (on_goal 2 => (clear_value x; intro hx))) | (have hf := fun a => x a; clear hf; subst x) | clear_value x)
    | with_reducible refine (logEvent_keeps ..).after ?_ (by decide)
    | with_reducible refine (updMem_keeps (S := [.swaps]) _ ?_ ?_).after ?_ (by decide)
    | with_reducible refine Keeps.ite ?_ ?_
    | (intro s; refine ⟨fun h => ?_, fun h => ?_, fun h => ?_⟩ <;> first | rfl | (cases h; done) | (split <;> rfl) | (simp; done))
    | (intro h; refine ⟨?_, ?_⟩ <;> first | exact h.1 | exact h.2.1 | exact msets_wf _ _ _ h.1 | exact msets_wf _ _ _ h.2.1 | exact wf_nil | exact filter_wf _ _ h.1 | exact composeMem_wf _ _ _ h.2.2.1)
    | (fail_if_no_progress with_reducible refine (set_slots_keeps _ ?_).after ?_ (by decide))
    | with_reducible refine map_apart _ _ ?_
    | with_reducible refine mapAll_apart _ _ ?_
    | (intro n s h; first | (split <;> exact h) | (dsimp only; split <;> exact h))
    | (intro s h; first | exact h | (simp only [SlotSt.apart] at *; done) | (dsimp only; split <;> exact h) | (cases s; simp_all [SlotSt.apart]; done))
    | split

theorem swapJudge_keeps : ∀ a1 a2 a3 d, Keeps [.check, .arbs, .slots, .log, .swaps, .alert] d (swapJudge a1 a2 a3 d) := by
  intro a1 a2 a3 d
  unfold swapJudge
  repeat' first
    | with_reducible exact Keeps.refl _ _
    | with_reducible assumption
    | ((try lift_lets); intro x; first | (refine Keeps.cut x ?_ ?_; (on_goal 1 => subst x); (on_goal 2 => (clear_value x; intro hx))) | (have hf := fun a => x a; clear hf; subst x) | clear_value x)
    | with_reducible refine (refusedInRun_keeps ..).after ?_ (by decide)
    | with_reducible refine (setDetail_keeps ..).after ?_ (by decide)
    | with_reducible refine (swapRefused_keeps ..).after ?_ (by decide)
    | with_reducible refine (updMem_keeps (S := [.swaps]) _ ?_ ?_).after ?_ (by decide)
    | with_reducible refine Keeps.ite ?_ ?_
    | (intro s; refine ⟨fun h => ?_, fun h => ?_, fun h => ?_⟩ <;> first | rfl | (cases h; done) | (split <;> rfl) | (simp; done))
    | (intro h; refine ⟨?_, ?_⟩ <;> first | exact h.1 | exact h.2.1 | exact msets_wf _ _ _ h.1 | exact msets_wf _ _ _ h.2.1 | exact wf_nil | exact filter_wf _ _ h.1 | exact composeMem_wf _ _ _ h.2.2.1)
    | split

theorem workDev_keeps : ∀ d, Keeps [.slots, .mods] d (workDev d) := by
  intro d
  unfold workDev
  repeat' first
    | with_reducible exact Keeps.refl _ _
    | with_reducible assumption
    | ((try lift_lets); intro x; first | (refine Keeps.cut x ?_ ?_; (on_goal 1 => subst x); (on_goal 2 => (clear_value x; intro hx))) | (have hf := fun a => x a; clear hf; subst x) | clear_value x)
    | with_reducible refine (dropRegion_keeps ..).after ?_ (by decide)
    | with_reducible refine Keeps.forEach (fun _ _ => ?_) ?_
    | with_reducible refine Keeps.ite ?_ ?_
    | split

theorem swapRecheck_keeps : ∀ a1 d, Keeps [.check, .arbs, .slots, .mods, .log, .swaps, .alert] d (swapRecheck a1 d) := by
  intro a1 d
  unfold swapRecheck
  repeat' first
    | with_reducible exact Keeps.refl _ _
    | with_reducible assumption
    | ((try lift_lets); intro x; first | (refine Keeps.cut x ?_ ?_; (on_goal 1 => subst x); (on_goal 2 => (clear_value x; intro hx))) | (have hf := fun a => x a; clear hf; subst x) | clear_value x)
    | with_reducible refine (swapJudge_keeps ..).after ?_ (by decide)
    | with_reducible refine (workDev_keeps ..).after ?_ (by decide)
    | with_reducible refine Keeps.ite ?_ ?_
    | split

theorem newtLaunch_keeps : ∀ d, Keeps [.check, .arbs, .isl, .slots, .mods, .log, .swaps, .alert] d (newtLaunch d) := by
  intro d
  unfold newtLaunch
  repeat' first
    | with_reducible exact Keeps.refl _ _
    | with_reducible assumption
    | ((try lift_lets); intro x; first | (refine Keeps.cut x ?_ ?_; (on_goal 1 => subst x); (on_goal 2 => (clear_value x; intro hx))) | (have hf := fun a => x a; clear hf; subst x) | clear_value x)
    | with_reducible refine (giveWork_keeps ..).after ?_ (by decide)
    | with_reducible refine (swapRecheck_keeps ..).after ?_ (by decide)
    | with_reducible refine (updMem_keeps (S := [.swaps]) _ ?_ ?_).after ?_ (by decide)
    | with_reducible refine Keeps.forEach (fun _ _ => ?_) ?_
    | with_reducible refine Keeps.ite ?_ ?_
    | (intro s; refine ⟨fun h => ?_, fun h => ?_, fun h => ?_⟩ <;> first | rfl | (cases h; done) | (split <;> rfl) | (simp; done))
    | (intro h; refine ⟨?_, ?_⟩ <;> first | exact h.1 | exact h.2.1 | exact msets_wf _ _ _ h.1 | exact msets_wf _ _ _ h.2.1 | exact wf_nil | exact filter_wf _ _ h.1 | exact composeMem_wf _ _ _ h.2.2.1)
    | split

theorem reloadRefused_keeps : ∀ a1 d, Keeps [.check, .arbs, .log, .reload, .alert] d (reloadRefused a1 d) := by
  intro a1 d
  unfold reloadRefused
  repeat' first
    | with_reducible exact Keeps.refl _ _
    | with_reducible assumption
    | ((try lift_lets); intro x; first | (refine Keeps.cut x ?_ ?_; (on_goal 1 => subst x); (on_goal 2 => (clear_value x; intro hx))) | (have hf := fun a => x a; clear hf; subst x) | clear_value x)
    | with_reducible refine (alertSet_keeps ..).after ?_ (by decide)
    | with_reducible refine (refusedInRun_keeps ..).after ?_ (by decide)
    | with_reducible refine (setDetail_keeps ..).after ?_ (by decide)
    | with_reducible refine (updReload_keeps _ ?_).after ?_ (by decide)
    | with_reducible refine Keeps.ite ?_ ?_
    | (intro s h; first | exact h | exact baseOf_wf _ | rfl | exact msets_wf _ _ _ h | (dsimp only; split <;> first | exact h | exact baseOf_wf _ | rfl))
    | split

theorem reloadForceIn_keeps : ∀ a1 a2 d, Keeps [.loader, .arbs, .isl, .slots, .chans, .profs, .paths, .rings, .writers, .nobind, .log, .fi, .mem, .conf, .swaps, .reload] d (reloadForceIn a1 a2 d) := by
  intro a1 a2 d
  unfold reloadForceIn
  dsimp only
  have h0 : Keeps [.loader, .arbs, .isl, .slots, .chans, .profs, .paths, .rings, .writers, .nobind, .log, .fi, .mem, .conf, .swaps, .reload] d (reloadBooked (dropSwaps a1 a2 d)) := (reloadBooked_keeps _).after ((dropSwaps_keeps ..).mono (by decide)) (by decide)
  generalize reloadBooked (dropSwaps a1 a2 d) = e at h0
  have h1 : Keeps [.loader, .arbs, .isl, .slots, .chans, .profs, .paths, .rings, .writers, .nobind, .log, .fi, .mem, .conf, .swaps, .reload] d (if e.reload.recheck then writeMirror e.mode.active.toNat e else e) := Keeps.ite ((writeMirror_keeps ..).after h0 (by decide)) h0
  generalize (if e.reload.recheck then writeMirror e.mode.active.toNat e else e) = x at h1
  have h2 : Keeps [.loader, .arbs, .isl, .slots, .chans, .profs, .paths, .rings, .writers, .nobind, .log, .fi, .mem, .conf, .swaps, .reload] d (confTake (composeMem x.loader.base x.loader.ovls x.mode.active.toNat) x) :=
    confTake_keeps h1 (by decide) fun h => composeMem_wf _ _ _ (h1.mem h).2.2.1
  exact (giveWork_keeps ..).after ((confChanged_keeps ..).after h2 (by decide)) (by decide)

theorem rearmGive_keeps : ∀ d, Keeps [.loader, .check, .arbs, .isl, .slots, .chans, .profs, .paths, .rings, .writers, .nobind, .log, .fi, .mem, .conf, .swaps, .reload, .alert] d (rearmGive d) := by
  intro d
  unfold rearmGive
  repeat' first
    | with_reducible exact Keeps.refl _ _
    | with_reducible assumption
    | ((try lift_lets); intro x; first | (refine Keeps.cut x ?_ ?_; (on_goal 1 => subst x); (on_goal 2 => (clear_value x; intro hx))) | (have hf := fun a => x a; clear hf; subst x) | clear_value x)
    | with_reducible refine (giveWork_keeps ..).after ?_ (by decide)
    | with_reducible refine (writeMirror_keeps ..).after ?_ (by decide)
    | with_reducible refine (reloadRefused_keeps ..).after ?_ (by decide)
    | with_reducible refine (setDetail_keeps ..).after ?_ (by decide)
    | with_reducible refine (reloadForceIn_keeps ..).after ?_ (by decide)
    | with_reducible refine (alertSet_keeps ..).after ?_ (by decide)
    | with_reducible refine (logEvent_keeps ..).after ?_ (by decide)
    | with_reducible refine (updReload_keeps _ ?_).after ?_ (by decide)
    | with_reducible refine Keeps.ite ?_ ?_
    | (intro s h; first | exact h | exact baseOf_wf _ | rfl | exact msets_wf _ _ _ h | (dsimp only; split <;> first | exact h | exact baseOf_wf _ | rfl))
    | split

theorem rearmIfDue_keeps : ∀ d, Keeps [.loader, .check, .arbs, .isl, .slots, .chans, .profs, .paths, .rings, .writers, .nobind, .log, .fi, .mem, .conf, .swaps, .reload, .alert] d (rearmIfDue d) := by
  intro d
  unfold rearmIfDue
  repeat' first
    | with_reducible exact Keeps.refl _ _
    | with_reducible assumption
    | ((try lift_lets); intro x; first | (refine Keeps.cut x ?_ ?_; (on_goal 1 => subst x); (on_goal 2 => (clear_value x; intro hx))) | (have hf := fun a => x a; clear hf; subst x) | clear_value x)
    | with_reducible refine (rearmGive_keeps ..).after ?_ (by decide)
    | with_reducible refine Keeps.ite ?_ ?_
    | split

theorem localAtHalt_keeps : ∀ a1 d, Keeps [.mode, .arbs, .isl, .slots, .chans, .profs, .paths, .rings, .writers, .nobind, .log, .fi, .mem, .conf, .reload] d (localAtHalt a1 d) := by
  intro a1 d
  unfold localAtHalt
  repeat' first
    | with_reducible exact Keeps.refl _ _
    | with_reducible assumption
    | ((try lift_lets); intro x; first | (refine Keeps.cut x ?_ ?_; (on_goal 1 => subst x); (on_goal 2 => (clear_value x; intro hx))) | (have hf := fun a => x a; clear hf; subst x) | clear_value x)
    | with_reducible refine (applyOverlay_keeps ..).after ?_ (by decide)
    | with_reducible refine (aloneMode_keeps ..).after ?_ (by decide)
    | with_reducible refine (logEvent_keeps ..).after ?_ (by decide)
    | with_reducible refine (updMode_keeps ..).after ?_ (by decide)
    | with_reducible refine Keeps.ite ?_ ?_
    | split

theorem overlayAtHalt_keeps : ∀ a1 d, Keeps [.mode, .arbs, .isl, .slots, .chans, .profs, .paths, .rings, .writers, .nobind, .log, .fi, .mem, .conf, .reload] d (overlayAtHalt a1 d) := by
  intro a1 d
  unfold overlayAtHalt
  repeat' first
    | with_reducible exact Keeps.refl _ _
    | with_reducible assumption
    | ((try lift_lets); intro x; first | (refine Keeps.cut x ?_ ?_; (on_goal 1 => subst x); (on_goal 2 => (clear_value x; intro hx))) | (have hf := fun a => x a; clear hf; subst x) | clear_value x)
    | with_reducible refine (aloneMode_keeps ..).after ?_ (by decide)
    | with_reducible refine (applyOverlay_keeps ..).after ?_ (by decide)
    | with_reducible refine (localAtHalt_keeps ..).after ?_ (by decide)
    | with_reducible refine (commitLapse_keeps ..).after ?_ (by decide)
    | with_reducible refine Keeps.ite ?_ ?_
    | split

theorem haltGive_keeps : ∀ a1 d, Keeps [.loader, .check, .mode, .arbs, .isl, .slots, .chans, .profs, .paths, .mods, .rings, .writers, .nobind, .log, .fi, .mem, .conf, .swaps, .reload, .alert] d (haltGive a1 d) := by
  intro a1 d
  unfold haltGive
  repeat' first
    | with_reducible exact Keeps.refl _ _
    | with_reducible assumption
    | ((try lift_lets); intro x; first | (refine Keeps.cut x ?_ ?_; (on_goal 1 => subst x); (on_goal 2 => (clear_value x; intro hx))) | (have hf := fun a => x a; clear hf; subst x) | clear_value x)
    | with_reducible refine (newtLaunch_keeps ..).after ?_ (by decide)
    | with_reducible refine (rearmIfDue_keeps ..).after ?_ (by decide)
    | with_reducible refine (overlayAtHalt_keeps ..).after ?_ (by decide)
    | with_reducible refine Keeps.ite ?_ ?_
    | split

theorem configGive_keeps : ∀ d, Keeps [.loader, .check, .mode, .arbs, .isl, .slots, .chans, .profs, .paths, .mods, .rings, .writers, .nobind, .log, .fi, .mem, .conf, .swaps, .reload, .alert] d (configGive d) := by
  intro d
  unfold configGive
  repeat' first
    | with_reducible exact Keeps.refl _ _
    | with_reducible assumption
    | ((try lift_lets); intro x; first | (refine Keeps.cut x ?_ ?_; (on_goal 1 => subst x); (on_goal 2 => (clear_value x; intro hx))) | (have hf := fun a => x a; clear hf; subst x) | clear_value x)
    | with_reducible refine (haltGive_keeps ..).after ?_ (by decide)
    | with_reducible refine (rearmIfDue_keeps ..).after ?_ (by decide)
    | with_reducible refine Keeps.ite ?_ ?_
    | split

theorem configDone_keeps : ∀ a1 d, Keeps [.loader, .check, .mode, .arbs, .clk, .isl, .slots, .chans, .profs, .paths, .mods, .rings, .writers, .nobind, .log, .fi, .mem, .conf, .swaps, .reload, .alert] d (configDone a1 d) := by
  intro a1 d
  unfold configDone
  refine (configGive_keeps _).after ?_ (by decide)
  exact ⟨fun p hp => (by cases p <;> first | rfl | cases hp), fun h => h, fun h => h⟩

theorem promote_keeps : ∀ a1 d, Keeps [.arbs, .isl, .slots, .log] d (promote a1 d) := by
  intro a1 d
  unfold promote
  repeat' first
    | with_reducible exact Keeps.refl _ _
    | with_reducible assumption
    | ((try lift_lets); intro x; first | (refine Keeps.cut x ?_ ?_; (on_goal 1 => subst x); (on_goal 2 => (clear_value x; intro hx))) | (have hf := fun a => x a; clear hf; subst x) | clear_value x)
    | with_reducible refine (quadEvent_keeps ..).after ?_ (by decide)
    | with_reducible refine (updSlot_keeps _ _ ?_).after ?_ (by decide)
    | with_reducible refine Keeps.ite ?_ ?_
    | (intro s h; first | exact h | (simp only [SlotSt.apart] at *; done) | (dsimp only; split <;> exact h) | (cases s; simp_all [SlotSt.apart]; done))
    | split

theorem launchMod_keeps : ∀ a1 d, Keeps [.arbs, .isl, .slots, .mods, .log] d (launchMod a1 d) := by
  intro a1 d
  unfold launchMod
  repeat' first
    | with_reducible exact Keeps.refl _ _
    | with_reducible assumption
    | ((try lift_lets); intro x; first | (refine Keeps.cut x ?_ ?_; (on_goal 1 => subst x); (on_goal 2 => (clear_value x; intro hx))) | (have hf := fun a => x a; clear hf; subst x) | clear_value x)
    | with_reducible refine (arbWithdraw_keeps ..).after ?_ (by decide)
    | with_reducible refine (placeSwap_keeps ..).after ?_ (by decide)
    | with_reducible refine (arbRequest_keeps ..).after ?_ (by decide)
    | with_reducible refine (quadEvent_keeps ..).after ?_ (by decide)
    | with_reducible refine (updMod_keeps ..).after ?_ (by decide)
    | with_reducible refine Keeps.forEach (fun _ _ => ?_) ?_
    | with_reducible refine Keeps.ite ?_ ?_
    | split

theorem slotStop_keeps : ∀ a1 d, Keeps [.slots] d (slotStop a1 d) := by
  intro a1 d
  unfold slotStop
  repeat' first
    | with_reducible exact Keeps.refl _ _
    | with_reducible assumption
    | ((try lift_lets); intro x; first | (refine Keeps.cut x ?_ ?_; (on_goal 1 => subst x); (on_goal 2 => (clear_value x; intro hx))) | (have hf := fun a => x a; clear hf; subst x) | clear_value x)
    | with_reducible refine (slotOff_keeps ..).after ?_ (by decide)
    | with_reducible refine (updSlot_keeps _ _ ?_).after ?_ (by decide)
    | with_reducible refine Keeps.ite ?_ ?_
    | (intro s h; first | exact h | (simp only [SlotSt.apart] at *; done) | (dsimp only; split <;> exact h) | (cases s; simp_all [SlotSt.apart]; done))
    | split

theorem launchSlot_keeps : ∀ a1 d, Keeps [.devState, .latch, .arbs, .isl, .slots, .chans, .profs, .paths, .srcs, .mods, .faults, .col, .log, .caps, .alert] d (launchSlot a1 d) := by
  intro a1 d
  unfold launchSlot
  repeat' first
    | with_reducible exact Keeps.refl _ _
    | with_reducible assumption
    | ((try lift_lets); intro x; first | (refine Keeps.cut x ?_ ?_; (on_goal 1 => subst x); (on_goal 2 => (clear_value x; intro hx))) | (have hf := fun a => x a; clear hf; subst x) | clear_value x)
    | with_reducible refine (slotStop_keeps ..).after ?_ (by decide)
    | with_reducible refine (placeSwap_keeps ..).after ?_ (by decide)
    | with_reducible refine (quadEvent_keeps ..).after ?_ (by decide)
    | with_reducible refine (shed_keeps ..).after ?_ (by decide)
    | with_reducible refine (updSlot_keeps _ _ ?_).after ?_ (by decide)
    | with_reducible refine Keeps.ite ?_ ?_
    | (intro s h; first | exact h | (simp only [SlotSt.apart] at *; done) | (dsimp only; split <;> exact h) | (cases s; simp_all [SlotSt.apart]; done))
    | split

theorem launchSwap_keeps : ∀ a1 d, Keeps [.devState, .latch, .arbs, .isl, .slots, .chans, .profs, .paths, .srcs, .mods, .faults, .col, .log, .caps, .alert] d (launchSwap a1 d) := by
  intro a1 d
  unfold launchSwap
  repeat' first
    | with_reducible exact Keeps.refl _ _
    | with_reducible assumption
    | ((try lift_lets); intro x; first | (refine Keeps.cut x ?_ ?_; (on_goal 1 => subst x); (on_goal 2 => (clear_value x; intro hx))) | (have hf := fun a => x a; clear hf; subst x) | clear_value x)
    | with_reducible refine (launchMod_keeps ..).after ?_ (by decide)
    | with_reducible refine (launchSlot_keeps ..).after ?_ (by decide)
    | with_reducible refine Keeps.ite ?_ ?_
    | split

theorem modMoved_keeps : ∀ a1 a2 d, Keeps [.mods] d (modMoved a1 a2 d) := by
  intro a1 a2 d
  unfold modMoved
  repeat' first
    | with_reducible exact Keeps.refl _ _
    | with_reducible assumption
    | ((try lift_lets); intro x; first | (refine Keeps.cut x ?_ ?_; (on_goal 1 => subst x); (on_goal 2 => (clear_value x; intro hx))) | (have hf := fun a => x a; clear hf; subst x) | clear_value x)
    | with_reducible refine (updMod_keeps ..).after ?_ (by decide)
    | with_reducible refine Keeps.ite ?_ ?_
    | split

theorem slotMoved_keeps : ∀ a1 a2 d, Keeps [.slots] d (slotMoved a1 a2 d) := by
  intro a1 a2 d
  unfold slotMoved
  repeat' first
    | with_reducible exact Keeps.refl _ _
    | with_reducible assumption
    | ((try lift_lets); intro x; first | (refine Keeps.cut x ?_ ?_; (on_goal 1 => subst x); (on_goal 2 => (clear_value x; intro hx))) | (have hf := fun a => x a; clear hf; subst x) | clear_value x)
    | with_reducible refine (slotStop_keeps ..).after ?_ (by decide)
    | with_reducible refine Keeps.ite ?_ ?_
    | split

theorem regionMoved_keeps : ∀ a1 a2 a3 d, Keeps [.slots, .mods] d (regionMoved a1 a2 a3 d) := by
  intro a1 a2 a3 d
  unfold regionMoved
  repeat' first
    | with_reducible exact Keeps.refl _ _
    | with_reducible assumption
    | ((try lift_lets); intro x; first | (refine Keeps.cut x ?_ ?_; (on_goal 1 => subst x); (on_goal 2 => (clear_value x; intro hx))) | (have hf := fun a => x a; clear hf; subst x) | clear_value x)
    | with_reducible refine (modMoved_keeps ..).after ?_ (by decide)
    | with_reducible refine (slotMoved_keeps ..).after ?_ (by decide)
    | with_reducible refine (dropRegion_keeps ..).after ?_ (by decide)
    | with_reducible refine Keeps.forEach (fun _ _ => ?_) ?_
    | with_reducible refine Keeps.ite ?_ ?_
    | split

theorem reloadStart_keeps : ∀ a1 d, Keeps [.devState, .latch, .arbs, .isl, .slots, .quads, .chans, .profs, .paths, .srcs, .mods, .seqs, .rings, .writers, .nobind, .faults, .col, .log, .caps, .alert] d (reloadStart a1 d) := by
  intro a1 d
  unfold reloadStart
  repeat' first
    | with_reducible exact Keeps.refl _ _
    | with_reducible assumption
    | ((try lift_lets); intro x; first | (refine Keeps.cut x ?_ ?_; (on_goal 1 => subst x); (on_goal 2 => (clear_value x; intro hx))) | (have hf := fun a => x a; clear hf; subst x) | clear_value x)
    | with_reducible refine (seqStart_keeps ..).after ?_ (by decide)
    | with_reducible refine (shedHigh_keeps ..).after ?_ (by decide)
    | with_reducible refine (restartReq_keeps ..).after ?_ (by decide)
    | with_reducible refine (carrierReset_keeps ..).after ?_ (by decide)
    | with_reducible refine (updSrc_keeps ..).after ?_ (by decide)
    | with_reducible refine Keeps.forEach (fun _ _ => ?_) ?_
    | with_reducible refine Keeps.ite ?_ ?_
    | split

theorem doWork_keeps : ∀ a1 a2 d, Keeps [.devState, .latch, .arbs, .isl, .slots, .quads, .chans, .profs, .paths, .srcs, .mods, .seqs, .rings, .writers, .nobind, .faults, .col, .log, .caps, .alert] d (doWork a1 a2 d) := by
  intro a1 a2 d
  unfold doWork
  repeat' first
    | with_reducible exact Keeps.refl _ _
    | with_reducible assumption
    | ((try lift_lets); intro x; first | (refine Keeps.cut x ?_ ?_; (on_goal 1 => subst x); (on_goal 2 => (clear_value x; intro hx))) | (have hf := fun a => x a; clear hf; subst x) | clear_value x)
    | with_reducible refine (promote_keeps ..).after ?_ (by decide)
    | with_reducible refine (launchSwap_keeps ..).after ?_ (by decide)
    | with_reducible refine (regionMoved_keeps ..).after ?_ (by decide)
    | with_reducible refine (reloadStart_keeps ..).after ?_ (by decide)
    | with_reducible refine Keeps.ite ?_ ?_
    | split

theorem quadWork_keeps : ∀ a1 a2 d, Keeps [.devState, .latch, .arbs, .isl, .slots, .quads, .chans, .profs, .paths, .srcs, .mods, .seqs, .rings, .writers, .nobind, .faults, .col, .log, .caps, .alert] d (quadWork a1 a2 d) := by
  intro a1 a2 d
  unfold quadWork
  repeat' first
    | with_reducible exact Keeps.refl _ _
    | with_reducible assumption
    | ((try lift_lets); intro x; first | (refine Keeps.cut x ?_ ?_; (on_goal 1 => subst x); (on_goal 2 => (clear_value x; intro hx))) | (have hf := fun a => x a; clear hf; subst x) | clear_value x)
    | with_reducible refine (doWork_keeps ..).after ?_ (by decide)
    | with_reducible refine (updIsl_keeps (S := [.isl]) _ ?_).after ?_ (by decide)
    | with_reducible refine Keeps.forEach (fun _ _ => ?_) ?_
    | with_reducible refine Keeps.ite ?_ ?_
    | (intro s; refine ⟨fun h => ?_, fun h => ?_⟩ <;> first | rfl | (cases h; done) | (split <;> rfl) | (simp; done))
    | (refine ⟨fun h => ?_, fun h => ?_⟩ <;> first | rfl | (cases h; done) | (split <;> rfl) | (simp; done))
    | split

theorem quadsWork_keeps : ∀ a1 d, Keeps [.devState, .latch, .arbs, .isl, .slots, .quads, .chans, .profs, .paths, .srcs, .mods, .seqs, .rings, .writers, .nobind, .faults, .col, .log, .caps, .alert] d (quadsWork a1 d) := by
  intro a1 d
  unfold quadsWork
  repeat' first
    | with_reducible exact Keeps.refl _ _
    | with_reducible assumption
    | ((try lift_lets); intro x; first | (refine Keeps.cut x ?_ ?_; (on_goal 1 => subst x); (on_goal 2 => (clear_value x; intro hx))) | (have hf := fun a => x a; clear hf; subst x) | clear_value x)
    | with_reducible refine (quadWork_keeps ..).after ?_ (by decide)
    | with_reducible refine (updIsl_keeps (S := [.isl]) _ ?_).after ?_ (by decide)
    | with_reducible refine Keeps.forEach (fun _ _ => ?_) ?_
    | with_reducible refine Keeps.ite ?_ ?_
    | (intro s; refine ⟨fun h => ?_, fun h => ?_⟩ <;> first | rfl | (cases h; done) | (split <;> rfl) | (simp; done))
    | (refine ⟨fun h => ?_, fun h => ?_⟩ <;> first | rfl | (cases h; done) | (split <;> rfl) | (simp; done))
    | split

def configLaunchParts : List Part :=
  [.devState, .latch, .loader, .check, .mode, .arbs, .isl, .slots, .quads, .chans, .profs, .paths, .srcs, .mods, .seqs, .rings, .writers, .nobind, .faults, .col, .log, .caps, .fi, .mem, .conf, .swaps, .reload, .alert]

theorem configLaunch_keeps : ∀ d, Keeps configLaunchParts d (configLaunch d) := by
  intro d
  unfold configLaunch
  repeat' first
    | with_reducible exact Keeps.refl _ _
    | with_reducible assumption
    | ((try lift_lets); intro x; first | (refine Keeps.cut x ?_ ?_; (on_goal 1 => subst x); (on_goal 2 => (clear_value x; intro hx))) | (have hf := fun a => x a; clear hf; subst x) | clear_value x)
    | with_reducible refine (quadsWork_keeps ..).after ?_ (by decide)
    | with_reducible refine (configGive_keeps ..).after ?_ (by decide)
    | with_reducible refine Keeps.ite ?_ ?_
    | split

theorem configured_keeps : ∀ d, Keeps [.start, .devState, .latch, .mode, .arbs, .mem] d (configured d) := by
  intro d
  unfold configured
  repeat' first
    | with_reducible exact Keeps.refl _ _
    | with_reducible assumption
    | ((try lift_lets); intro x; first | (refine Keeps.cut x ?_ ?_; (on_goal 1 => subst x); (on_goal 2 => (clear_value x; intro hx))) | (have hf := fun a => x a; clear hf; subst x) | clear_value x)
    | with_reducible refine (enterBuild_keeps ..).after ?_ (by decide)
    | with_reducible refine (updStart_keeps (S := [.start, .devState, .latch]) _ ?_).after ?_ (by decide)
    | with_reducible refine Keeps.ite ?_ ?_
    | (intro s; refine ⟨fun h => ?_, fun h => ?_, fun h => ?_⟩ <;> first | rfl | (cases h; done) | (split <;> rfl) | (simp; done))
    | (refine ⟨fun h => ?_, fun h => ?_, fun h => ?_⟩ <;> first | rfl | (cases h; done) | (split <;> rfl) | (simp; done))
    | split

theorem continueHalts_keeps : ∀ d, Keeps [.halt, .seqs] d (continueHalts d) := by
  intro d
  unfold continueHalts
  repeat' first
    | with_reducible exact Keeps.refl _ _
    | with_reducible assumption
    | ((try lift_lets); intro x; first | (refine Keeps.cut x ?_ ?_; (on_goal 1 => subst x); (on_goal 2 => (clear_value x; intro hx))) | (have hf := fun a => x a; clear hf; subst x) | clear_value x)
    | with_reducible refine (announce_keeps ..).after ?_ (by decide)
    | with_reducible refine Keeps.ite ?_ ?_
    | split

theorem convMark_keeps : ∀ d, Keeps [.halt] d (convMark d) := by
  intro d
  unfold convMark
  repeat' first
    | with_reducible exact Keeps.refl _ _
    | with_reducible assumption
    | ((try lift_lets); intro x; first | (refine Keeps.cut x ?_ ?_; (on_goal 1 => subst x); (on_goal 2 => (clear_value x; intro hx))) | (have hf := fun a => x a; clear hf; subst x) | clear_value x)
    | with_reducible refine (updHalt_keeps ..).after ?_ (by decide)
    | with_reducible refine Keeps.ite ?_ ?_
    | split

theorem recAdd_keeps : ∀ a1 a2 a3 d, Keeps [.arbs, .seqs, .rings, .writers] d (recAdd a1 a2 a3 d) := by
  intro a1 a2 a3 d
  unfold recAdd
  repeat' first
    | with_reducible exact Keeps.refl _ _
    | with_reducible assumption
    | ((try lift_lets); intro x; first | (refine Keeps.cut x ?_ ?_; (on_goal 1 => subst x); (on_goal 2 => (clear_value x; intro hx))) | (have hf := fun a => x a; clear hf; subst x) | clear_value x)
    | with_reducible refine (recClose_keeps ..).after ?_ (by decide)
    | with_reducible refine (updSeq_keeps ..).after ?_ (by decide)
    | with_reducible refine Keeps.ite ?_ ?_
    | split

theorem seqNext_keeps : ∀ a1 d, Keeps [.arbs, .seqs, .rings, .writers] d (seqNext a1 d) := by
  intro a1 d
  unfold seqNext
  repeat' first
    | with_reducible exact Keeps.refl _ _
    | with_reducible assumption
    | ((try lift_lets); intro x; first | (refine Keeps.cut x ?_ ?_; (on_goal 1 => subst x); (on_goal 2 => (clear_value x; intro hx))) | (have hf := fun a => x a; clear hf; subst x) | clear_value x)
    | with_reducible refine (seqSkip_keeps ..).after ?_ (by decide)
    | with_reducible refine (recEnd_keeps ..).after ?_ (by decide)
    | with_reducible refine (updSeq_keeps ..).after ?_ (by decide)
    | with_reducible refine Keeps.ite ?_ ?_
    | split

theorem seqRequest_keeps : ∀ a1 a2 d, Keeps [.arbs, .seqs] d (seqRequest a1 a2 d) := by
  intro a1 a2 d
  unfold seqRequest
  repeat' first
    | with_reducible exact Keeps.refl _ _
    | with_reducible assumption
    | ((try lift_lets); intro x; first | (refine Keeps.cut x ?_ ?_; (on_goal 1 => subst x); (on_goal 2 => (clear_value x; intro hx))) | (have hf := fun a => x a; clear hf; subst x) | clear_value x)
    | with_reducible refine (arbRequest_keeps ..).after ?_ (by decide)
    | with_reducible refine (updSeq_keeps ..).after ?_ (by decide)
    | with_reducible refine Keeps.ite ?_ ?_
    | split

theorem seqResult_keeps : ∀ a1 a2 a3 a4 d, Keeps [.arbs, .seqs, .rings, .writers] d (seqResult a1 a2 a3 a4 d) := by
  intro a1 a2 a3 a4 d
  unfold seqResult
  repeat' first
    | with_reducible exact Keeps.refl _ _
    | with_reducible assumption
    | ((try lift_lets); intro x; first | (refine Keeps.cut x ?_ ?_; (on_goal 1 => subst x); (on_goal 2 => (clear_value x; intro hx))) | (have hf := fun a => x a; clear hf; subst x) | clear_value x)
    | with_reducible refine (recAdd_keeps ..).after ?_ (by decide)
    | with_reducible refine (recEnd_keeps ..).after ?_ (by decide)
    | with_reducible refine (seqNext_keeps ..).after ?_ (by decide)
    | with_reducible refine (seqRequest_keeps ..).after ?_ (by decide)
    | with_reducible refine (updSeq_keeps ..).after ?_ (by decide)
    | with_reducible refine Keeps.ite ?_ ?_
    | split

theorem fbMark_keeps : ∀ a1 a2 d, Keeps [.hk] d (fbMark a1 a2 d) := by
  intro a1 a2 d
  unfold fbMark
  repeat' first
    | with_reducible exact Keeps.refl _ _
    | with_reducible assumption
    | ((try lift_lets); intro x; first | (refine Keeps.cut x ?_ ?_; (on_goal 1 => subst x); (on_goal 2 => (clear_value x; intro hx))) | (have hf := fun a => x a; clear hf; subst x) | clear_value x)
    | with_reducible refine (updHk_keeps ..).after ?_ (by decide)
    | with_reducible refine Keeps.ite ?_ ?_
    | split

theorem seqResume_keeps : ∀ a1 d, Keeps [.arbs, .seqs] d (seqResume a1 d) := by
  intro a1 d
  unfold seqResume
  repeat' first
    | with_reducible exact Keeps.refl _ _
    | with_reducible assumption
    | ((try lift_lets); intro x; first | (refine Keeps.cut x ?_ ?_; (on_goal 1 => subst x); (on_goal 2 => (clear_value x; intro hx))) | (have hf := fun a => x a; clear hf; subst x) | clear_value x)
    | with_reducible refine (seqRequest_keeps ..).after ?_ (by decide)
    | with_reducible refine Keeps.forEach (fun _ _ => ?_) ?_
    | with_reducible refine Keeps.ite ?_ ?_
    | split

theorem injEnd_keeps : ∀ a1 d, Keeps [.arbs, .seqs, .cal] d (injEnd a1 d) := by
  intro a1 d
  unfold injEnd
  repeat' first
    | with_reducible exact Keeps.refl _ _
    | with_reducible assumption
    | ((try lift_lets); intro x; first | (refine Keeps.cut x ?_ ?_; (on_goal 1 => subst x); (on_goal 2 => (clear_value x; intro hx))) | (have hf := fun a => x a; clear hf; subst x) | clear_value x)
    | with_reducible refine (calTryStart_keeps ..).after ?_ (by decide)
    | with_reducible refine (seqResume_keeps ..).after ?_ (by decide)
    | with_reducible refine Keeps.ite ?_ ?_
    | split

theorem trackStore_keeps : ∀ a1 a2 a3 a4 d, Keeps [.arbs, .mods, .log, .fi, .mem] d (trackStore a1 a2 a3 a4 d) := by
  intro a1 a2 a3 a4 d
  unfold trackStore
  repeat' first
    | with_reducible exact Keeps.refl _ _
    | with_reducible assumption
    | ((try lift_lets); intro x; first | (refine Keeps.cut x ?_ ?_; (on_goal 1 => subst x); (on_goal 2 => (clear_value x; intro hx))) | (have hf := fun a => x a; clear hf; subst x) | clear_value x)
    | with_reducible refine (trackLoss_keeps ..).after ?_ (by decide)
    | with_reducible refine (memWrite_keeps ..).after ?_ (by decide)
    | with_reducible refine (updMod_keeps ..).after ?_ (by decide)
    | with_reducible refine Keeps.ite ?_ ?_
    | split

theorem resultArrives_keeps : ∀ a1 a2 a3 a4 a5 a6 d, Keeps [.arbs, .mods, .seqs, .rings, .writers, .cal, .hk, .log, .fi, .mem] d (resultArrives a1 a2 a3 a4 a5 a6 d) := by
  intro a1 a2 a3 a4 a5 a6 d
  unfold resultArrives
  have h0 : Keeps [.arbs, .mods, .seqs, .rings, .writers, .cal, .hk, .log, .fi, .mem] d d := Keeps.refl _ _
  dsimp only
  split
  · split
    · have h2 := fun t w => (seqResult_keeps t a1 w true d).mono (S := [.arbs, .mods, .seqs, .rings, .writers, .cal, .hk, .log, .fi, .mem]) (by decide)
      refine Keeps.ite (Keeps.ite ?_ ?_) ?_
      · exact (arbRequest_keeps ..).after ((arbRelease_keeps ..).after ((updMod_keeps ..).after (h2 _ _) (by decide)) (by decide)) (by decide)
      · exact (arbRelease_keeps ..).after ((updMod_keeps ..).after (h2 _ _) (by decide)) (by decide)
      · exact (convStart_keeps ..).after (h2 _ _) (by decide)
    · exact (arbRelease_keeps ..).mono (by decide)
  · refine Keeps.ite ((arbRelease_keeps ..).mono (by decide)) (Keeps.ite ?_ ?_)
    · exact (arbRequest_keeps ..).after ((arbRelease_keeps ..).after ((updHk_keeps ..).after h0 (by decide)) (by decide)) (by decide)
    · refine Keeps.ite ((arbRequest_keeps ..).after ?_ (by decide)) ?_ <;>
        exact (arbRelease_keeps ..).after ((updHk_keeps ..).after ((fbMark_keeps ..).after h0 (by decide)) (by decide)) (by decide)
  · refine (injEnd_keeps ..).after (Keeps.ite ((recClose_keeps ..).after ?_ (by decide)) ?_) (by decide) <;>
      exact (arbRelease_keeps ..).after ((updMod_keeps ..).after h0 (by decide)) (by decide)
  · refine (injEnd_keeps ..).after ((arbRelease_keeps ..).after ((updMod_keeps ..).after ?_ (by decide)) (by decide)) (by decide)
    split
    · exact (trackStore_keeps ..).after h0 (by decide)
    · exact h0
  · refine Keeps.ite ((arbRequest_keeps ..).after ?_ (by decide)) ?_ <;>
      exact (arbRelease_keeps ..).after ((updCal_keeps ..).after h0 (by decide)) (by decide)
  · split
    · exact (seqResult_keeps ..).after ((arbRelease_keeps ..).after h0 (by decide)) (by decide)
    · exact (arbRelease_keeps ..).after h0 (by decide)

theorem conversionDone_keeps : ∀ a1 a2 a3 d, Keeps [.arbs, .clk, .isl, .mods, .seqs, .rings, .writers, .cal, .hk, .log, .fi, .mem] d (conversionDone a1 a2 a3 d) := by
  intro a1 a2 a3 d
  unfold conversionDone
  split
  · exact Keeps.refl _ _
  · dsimp only
    refine Keeps.ite (Keeps.refl _ _) (Keeps.toHouse (fun _ => (resultArrives_keeps ..).mono (by decide)) ((updMod_keeps ..).after ?_ (by decide)) (by decide))
    exact Keeps.ite (Keeps.refl _ _) ((waitUp_keeps ..).mono (by decide))

end Sys2Proof.Machine
end

