-- ==== Sys2Proof/Laws/Keeps7.lean ====
section
/-! SUPPORT. Sys2Proof/Laws/Keeps7.lean: what each operation of the model leaves unchanged (one lemma per operation, in the order of their use). -/

namespace Sys2Proof.Machine

set_option linter.unusedTactic false
set_option linter.unreachableTactic false
set_option linter.unusedVariables false

theorem readbackRequest_keeps : ∀ a1 d, Keeps [.arbs, .quads] d (readbackRequest a1 d) := by
  intro a1 d
  unfold readbackRequest
  repeat' first
    | with_reducible exact Keeps.refl _ _
    | with_reducible assumption
    | ((try lift_lets); intro x; first | (refine Keeps.cut x ?_ ?_; (on_goal 1 => subst x); (on_goal 2 => (clear_value x; intro hx))) | (have hf := fun a => x a; clear hf; subst x) | clear_value x)
    | with_reducible refine (arbRequest_keeps ..).after ?_ (by decide)
    | with_reducible refine (updQuad_keeps ..).after ?_ (by decide)
    | with_reducible refine Keeps.ite ?_ ?_
    | split

theorem conversionStart_keeps : ∀ d, Keeps [.arbs, .clk, .halt, .quads] d (conversionStart d) := by
  intro d
  unfold conversionStart
  repeat' first
    | with_reducible exact Keeps.refl _ _
    | with_reducible assumption
    | ((try lift_lets); intro x; first | (refine Keeps.cut x ?_ ?_; (on_goal 1 => subst x); (on_goal 2 => (clear_value x; intro hx))) | (have hf := fun a => x a; clear hf; subst x) | clear_value x)
    | with_reducible refine (waitLoc_keeps ..).after ?_ (by decide)
    | with_reducible refine (readbackRequest_keeps ..).after ?_ (by decide)
    | with_reducible refine (convMark_keeps ..).after ?_ (by decide)
    | with_reducible refine Keeps.forEach (fun _ _ => ?_) ?_
    | with_reducible refine Keeps.ite ?_ ?_
    | split

theorem coolantFrame_keeps : ∀ d, Keeps [.mods, .hk] d (coolantFrame d) := by
  intro d
  unfold coolantFrame
  repeat' first
    | with_reducible exact Keeps.refl _ _
    | with_reducible assumption
    | ((try lift_lets); intro x; first | (refine Keeps.cut x ?_ ?_; (on_goal 1 => subst x); (on_goal 2 => (clear_value x; intro hx))) | (have hf := fun a => x a; clear hf; subst x) | clear_value x)
    | with_reducible refine (updHk_keeps ..).after ?_ (by decide)
    | with_reducible refine Keeps.ite ?_ ?_
    | (fail_if_no_progress with_reducible refine (set_mods_keeps _ _).after ?_ (by decide))
    | split

theorem coolantStep_keeps : ∀ a1 d, Keeps [.devState, .latch, .arbs, .slots, .chans, .profs, .paths, .srcs, .hk, .faults, .col, .log, .caps, .alert] d (coolantStep a1 d) := by
  intro a1 d
  unfold coolantStep
  repeat' first
    | with_reducible exact Keeps.refl _ _
    | with_reducible assumption
    | ((try lift_lets); intro x; first | (refine Keeps.cut x ?_ ?_; (on_goal 1 => subst x); (on_goal 2 => (clear_value x; intro hx))) | (have hf := fun a => x a; clear hf; subst x) | clear_value x)
    | with_reducible refine (faultEnds_keeps ..).after ?_ (by decide)
    | with_reducible refine (raiseLevel_keeps ..).after ?_ (by decide)
    | with_reducible refine (updHk_keeps ..).after ?_ (by decide)
    | with_reducible refine Keeps.ite ?_ ?_
    | split

theorem coolantJudge_keeps : ∀ d, Keeps [.devState, .latch, .arbs, .slots, .chans, .profs, .paths, .srcs, .hk, .faults, .col, .log, .caps, .alert] d (coolantJudge d) := by
  intro d
  unfold coolantJudge
  repeat' first
    | with_reducible exact Keeps.refl _ _
    | with_reducible assumption
    | ((try lift_lets); intro x; first | (refine Keeps.cut x ?_ ?_; (on_goal 1 => subst x); (on_goal 2 => (clear_value x; intro hx))) | (have hf := fun a => x a; clear hf; subst x) | clear_value x)
    | with_reducible refine (coolantStep_keeps ..).after ?_ (by decide)
    | with_reducible refine (updHk_keeps ..).after ?_ (by decide)
    | with_reducible refine Keeps.forEach (fun _ _ => ?_) ?_
    | with_reducible refine Keeps.ite ?_ ?_
    | split

theorem correctionExpiry_keeps : ∀ a1 a2 d, Keeps [.clk, .mem] d (correctionExpiry a1 a2 d) := by
  intro a1 a2 d
  unfold correctionExpiry
  repeat' first
    | with_reducible exact Keeps.refl _ _
    | with_reducible assumption
    | ((try lift_lets); intro x; first | (refine Keeps.cut x ?_ ?_; (on_goal 1 => subst x); (on_goal 2 => (clear_value x; intro hx))) | (have hf := fun a => x a; clear hf; subst x) | clear_value x)
    | with_reducible refine (waitUp_keeps ..).after ?_ (by decide)
    | with_reducible refine (updMem_keeps (S := [.mem]) _ ?_ ?_).after ?_ (by decide)
    | with_reducible refine Keeps.ite ?_ ?_
    | (intro s; refine ⟨fun h => ?_, fun h => ?_, fun h => ?_⟩ <;> first | rfl | (cases h; done) | (split <;> rfl) | (simp; done))
    | (intro h; refine ⟨?_, ?_⟩ <;> first | exact h.1 | exact h.2.1 | exact msets_wf _ _ _ h.1 | exact msets_wf _ _ _ h.2.1 | exact wf_nil | exact filter_wf _ _ h.1 | exact composeMem_wf _ _ _ h.2.2.1)
    | split

theorem tapBook_keeps : ∀ a1 a2 a3 d, Keeps [.mods] d (tapBook a1 a2 a3 d) := by
  intro a1 a2 a3 d
  unfold tapBook
  repeat' first
    | with_reducible exact Keeps.refl _ _
    | with_reducible assumption
    | ((try lift_lets); intro x; first | (refine Keeps.cut x ?_ ?_; (on_goal 1 => subst x); (on_goal 2 => (clear_value x; intro hx))) | (have hf := fun a => x a; clear hf; subst x) | clear_value x)
    | with_reducible refine (updMod_keeps ..).after ?_ (by decide)
    | with_reducible refine Keeps.ite ?_ ?_
    | split

theorem coverBook_keeps : ∀ a1 a2 a3 d, Keeps [.mods] d (coverBook a1 a2 a3 d) := by
  intro a1 a2 a3 d
  unfold coverBook
  repeat' first
    | with_reducible exact Keeps.refl _ _
    | with_reducible assumption
    | ((try lift_lets); intro x; first | (refine Keeps.cut x ?_ ?_; (on_goal 1 => subst x); (on_goal 2 => (clear_value x; intro hx))) | (have hf := fun a => x a; clear hf; subst x) | clear_value x)
    | with_reducible refine (tapBook_keeps ..).after ?_ (by decide)
    | with_reducible refine (updMod_keeps ..).after ?_ (by decide)
    | with_reducible refine Keeps.ite ?_ ?_
    | split

theorem pmFail_keeps : ∀ a1 a2 d, Keeps [.devState, .latch, .arbs, .slots, .chans, .profs, .paths, .srcs, .mods, .faults, .col, .log, .caps, .alert] d (pmFail a1 a2 d) := by
  intro a1 a2 d
  unfold pmFail
  repeat' first
    | with_reducible exact Keeps.refl _ _
    | with_reducible assumption
    | ((try lift_lets); intro x; first | (refine Keeps.cut x ?_ ?_; (on_goal 1 => subst x); (on_goal 2 => (clear_value x; intro hx))) | (have hf := fun a => x a; clear hf; subst x) | clear_value x)
    | with_reducible refine (raise_keeps ..).after ?_ (by decide)
    | with_reducible refine (updMod_keeps ..).after ?_ (by decide)
    | with_reducible refine Keeps.ite ?_ ?_
    | split

theorem crossCheck_keeps : ∀ a1 d, Keeps [.devState, .latch, .arbs, .slots, .chans, .profs, .paths, .srcs, .mods, .faults, .col, .log, .caps, .alert] d (crossCheck a1 d) := by
  intro a1 d
  unfold crossCheck
  repeat' first
    | with_reducible exact Keeps.refl _ _
    | with_reducible assumption
    | ((try lift_lets); intro x; first | (refine Keeps.cut x ?_ ?_; (on_goal 1 => subst x); (on_goal 2 => (clear_value x; intro hx))) | (have hf := fun a => x a; clear hf; subst x) | clear_value x)
    | with_reducible refine (pmFail_keeps ..).after ?_ (by decide)
    | with_reducible refine (updMod_keeps ..).after ?_ (by decide)
    | with_reducible refine Keeps.ite ?_ ?_
    | split

theorem lossesArrive_keeps : ∀ a1 a2 d, Keeps [.therm] d (lossesArrive a1 a2 d) := by
  intro a1 a2 d
  unfold lossesArrive
  repeat' first
    | with_reducible exact Keeps.refl _ _
    | with_reducible assumption
    | ((try lift_lets); intro x; first | (refine Keeps.cut x ?_ ?_; (on_goal 1 => subst x); (on_goal 2 => (clear_value x; intro hx))) | (have hf := fun a => x a; clear hf; subst x) | clear_value x)
    | with_reducible refine (updTherm_keeps ..).after ?_ (by decide)
    | with_reducible refine Keeps.forEach (fun _ _ => ?_) ?_
    | with_reducible refine Keeps.ite ?_ ?_
    | split

theorem sysArrives_keeps : ∀ a1 a2 a3 a4 d, Keeps [.quads] d (sysArrives a1 a2 a3 a4 d) := by
  intro a1 a2 a3 a4 d
  unfold sysArrives
  repeat' first
    | with_reducible exact Keeps.refl _ _
    | with_reducible assumption
    | ((try lift_lets); intro x; first | (refine Keeps.cut x ?_ ?_; (on_goal 1 => subst x); (on_goal 2 => (clear_value x; intro hx))) | (have hf := fun a => x a; clear hf; subst x) | clear_value x)
    | with_reducible refine (updQuad_keeps ..).after ?_ (by decide)
    | with_reducible refine Keeps.ite ?_ ?_
    | split

def deliverHkParts : List Part :=
  [.devState, .latch, .arbs, .slots, .quads, .chans, .profs, .paths, .srcs, .mods, .seqs, .rings, .writers, .nobind, .cal, .therm, .hk, .faults, .col, .log, .caps, .fi, .mem, .alert]

theorem deliverHk_keeps : ∀ a1 a2 d, Keeps deliverHkParts d (deliverHk a1 a2 d) := by
  intro a1 a2 d
  unfold deliverHk
  repeat' first
    | with_reducible exact Keeps.refl _ _
    | with_reducible assumption
    | ((try lift_lets); intro x; first | (refine Keeps.cut x ?_ ?_; (on_goal 1 => subst x); (on_goal 2 => (clear_value x; intro hx))) | (have hf := fun a => x a; clear hf; subst x) | clear_value x)
    | with_reducible refine (lossesArrive_keeps ..).after ?_ (by decide)
    | with_reducible refine (chargeArrives_keeps ..).after ?_ (by decide)
    | with_reducible refine (logQueue_keeps ..).after ?_ (by decide)
    | with_reducible refine (recordArrives_keeps ..).after ?_ (by decide)
    | with_reducible refine (capSample_keeps ..).after ?_ (by decide)
    | with_reducible refine (sysArrives_keeps ..).after ?_ (by decide)
    | with_reducible refine (resultArrives_keeps ..).after ?_ (by decide)
    | with_reducible refine Keeps.ite ?_ ?_
    | split

theorem crossingMessage_keeps : ∀ a1 d, Keeps [.devState, .latch, .arbs, .clk, .isl, .launches, .halt, .slots, .quads, .chans, .profs, .paths, .srcs, .bus, .mods, .seqs, .rings, .writers, .nobind, .cal, .therm, .hk, .faults, .col, .log, .caps, .fi, .mem, .conf, .alert] d (crossingMessage a1 d) := by
  intro a1 d
  unfold crossingMessage
  split
  · dsimp only
    split
    · exact (deliverQuad_keeps ..).after ((setFifo_keeps ..).mono (by decide)) (by decide)
    · exact (deliverHk_keeps ..).after ((setFifo_keeps ..).mono (by decide)) (by decide)
    · exact (deliverQuad_keeps ..).after ((setFifo_keeps ..).mono (by decide)) (by decide)
  · exact (setFifo_keeps ..).mono (by decide)

theorem crossingStall_keeps : ∀ a1 d, Keeps [.devState, .latch, .arbs, .isl, .slots, .chans, .profs, .paths, .srcs, .faults, .col, .log, .caps, .alert] d (crossingStall a1 d) := by
  intro a1 d
  unfold crossingStall
  repeat' first
    | with_reducible exact Keeps.refl _ _
    | with_reducible assumption
    | ((try lift_lets); intro x; first | (refine Keeps.cut x ?_ ?_; (on_goal 1 => subst x); (on_goal 2 => (clear_value x; intro hx))) | (have hf := fun a => x a; clear hf; subst x) | clear_value x)
    | with_reducible refine (raise_keeps ..).after ?_ (by decide)
    | with_reducible refine (updIsl_keeps (S := [.isl]) _ ?_).after ?_ (by decide)
    | with_reducible refine Keeps.ite ?_ ?_
    | (intro s; refine ⟨fun h => ?_, fun h => ?_⟩ <;> first | rfl | (cases h; done) | (split <;> rfl) | (simp; done))
    | (refine ⟨fun h => ?_, fun h => ?_⟩ <;> first | rfl | (cases h; done) | (split <;> rfl) | (simp; done))
    | split

theorem cutEnd_keeps : ∀ a1 d, Keeps [.arbs, .clk, .isl, .chans, .log] d (cutEnd a1 d) := by
  intro a1 d
  unfold cutEnd
  repeat' first
    | with_reducible exact Keeps.refl _ _
    | with_reducible assumption
    | ((try lift_lets); intro x; first | (refine Keeps.cut x ?_ ?_; (on_goal 1 => subst x); (on_goal 2 => (clear_value x; intro hx))) | (have hf := fun a => x a; clear hf; subst x) | clear_value x)
    | with_reducible refine (waitUp_keeps ..).after ?_ (by decide)
    | with_reducible refine (quadEvent_keeps ..).after ?_ (by decide)
    | with_reducible refine (updChan_keeps ..).after ?_ (by decide)
    | with_reducible refine Keeps.ite ?_ ?_
    | split

theorem cutStep_keeps : ∀ a1 a2 d, Keeps [.arbs, .isl, .chans, .log] d (cutStep a1 a2 d) := by
  intro a1 a2 d
  unfold cutStep
  repeat' first
    | with_reducible exact Keeps.refl _ _
    | with_reducible assumption
    | ((try lift_lets); intro x; first | (refine Keeps.cut x ?_ ?_; (on_goal 1 => subst x); (on_goal 2 => (clear_value x; intro hx))) | (have hf := fun a => x a; clear hf; subst x) | clear_value x)
    | with_reducible refine (quadEvent_keeps ..).after ?_ (by decide)
    | with_reducible refine (updChan_keeps ..).after ?_ (by decide)
    | with_reducible refine Keeps.ite ?_ ?_
    | split

theorem xLate_keeps : ∀ a1 d, Keeps [.clk, .slots] d (xLate a1 d) := by
  intro a1 d
  unfold xLate
  repeat' first
    | with_reducible exact Keeps.refl _ _
    | with_reducible assumption
    | ((try lift_lets); intro x; first | (refine Keeps.cut x ?_ ?_; (on_goal 1 => subst x); (on_goal 2 => (clear_value x; intro hx))) | (have hf := fun a => x a; clear hf; subst x) | clear_value x)
    | with_reducible refine (yOffDue_keeps ..).after ?_ (by decide)
    | with_reducible refine (waitUp_keeps ..).after ?_ (by decide)
    | with_reducible refine (xRise_keeps ..).after ?_ (by decide)
    | with_reducible refine Keeps.ite ?_ ?_
    | split

theorem deadTimeEnd_keeps : ∀ a1 d, Keeps [.clk, .slots] d (deadTimeEnd a1 d) := by
  intro a1 d
  unfold deadTimeEnd
  repeat' first
    | with_reducible exact Keeps.refl _ _
    | with_reducible assumption
    | ((try lift_lets); intro x; first | (refine Keeps.cut x ?_ ?_; (on_goal 1 => subst x); (on_goal 2 => (clear_value x; intro hx))) | (have hf := fun a => x a; clear hf; subst x) | clear_value x)
    | with_reducible refine (xLate_keeps ..).after ?_ (by decide)
    | with_reducible refine (waitUp_keeps ..).after ?_ (by decide)
    | with_reducible refine (setY_keeps ..).after ?_ (by decide)
    | with_reducible refine (updSlot_keeps _ _ ?_).after ?_ (by decide)
    | with_reducible refine Keeps.ite ?_ ?_
    | (intro s h; first | exact h | (simp only [SlotSt.apart] at *; done) | (dsimp only; split <;> exact h) | (cases s; simp_all [SlotSt.apart]; done))
    | split

theorem lapse_keeps : ∀ d, Keeps [.mode] d (lapse d) := by
  intro d
  unfold lapse
  repeat' first
    | with_reducible exact Keeps.refl _ _
    | with_reducible assumption
    | ((try lift_lets); intro x; first | (refine Keeps.cut x ?_ ?_; (on_goal 1 => subst x); (on_goal 2 => (clear_value x; intro hx))) | (have hf := fun a => x a; clear hf; subst x) | clear_value x)
    | with_reducible refine (updMode_keeps ..).after ?_ (by decide)
    | with_reducible refine Keeps.ite ?_ ?_
    | split

theorem deputyTakeover_keeps : ∀ d, Keeps [.devState, .latch, .mode, .arbs, .clk, .cvn, .halt, .slots, .chans, .profs, .paths, .srcs, .seqs, .faults, .col, .log, .caps, .alert] d (deputyTakeover d) := by
  intro d
  unfold deputyTakeover
  repeat' first
    | with_reducible exact Keeps.refl _ _
    | with_reducible assumption
    | ((try lift_lets); intro x; first | (refine Keeps.cut x ?_ ?_; (on_goal 1 => subst x); (on_goal 2 => (clear_value x; intro hx))) | (have hf := fun a => x a; clear hf; subst x) | clear_value x)
    | with_reducible refine (waitLoc_keeps ..).after ?_ (by decide)
    | with_reducible refine (continueHalts_keeps ..).after ?_ (by decide)
    | with_reducible refine (lapse_keeps ..).after ?_ (by decide)
    | with_reducible refine (sourceRef_keeps ..).after ?_ (by decide)
    | with_reducible refine (becomeSource_keeps ..).after ?_ (by decide)
    | with_reducible refine (updMode_keeps ..).after ?_ (by decide)
    | with_reducible refine Keeps.ite ?_ ?_
    | split

theorem devReadEffect_keeps : ∀ a1 d, Keeps [.loader, .button, .mode, .bootp, .cvn, .halt, .seqs, .nobind, .hk, .log, .caps, .mem, .sup, .alert] d (devReadEffect a1 d) := by
  intro a1 d
  unfold devReadEffect
  repeat' first
    | with_reducible exact Keeps.refl _ _
    | with_reducible assumption
    | ((try lift_lets); intro x; first | (refine Keeps.cut x ?_ ?_; (on_goal 1 => subst x); (on_goal 2 => (clear_value x; intro hx))) | (have hf := fun a => x a; clear hf; subst x) | clear_value x)
    | with_reducible refine (updLoader_keeps _ ?_).after ?_ (by decide)
    | with_reducible refine (updMode_keeps ..).after ?_ (by decide)
    | with_reducible refine (updCvn_keeps ..).after ?_ (by decide)
    | with_reducible refine (updHalt_keeps ..).after ?_ (by decide)
    | with_reducible refine (updSeq_keeps ..).after ?_ (by decide)
    | with_reducible refine (updHk_keeps ..).after ?_ (by decide)
    | with_reducible refine (updCol_keeps (S := [.log, .caps]) _ ?_).after ?_ (by decide)
    | with_reducible refine (updMem_keeps (S := [.mem]) _ ?_ ?_).after ?_ (by decide)
    | with_reducible refine (updSup_keeps (S := [.sup, .alert]) _ ?_).after ?_ (by decide)
    | with_reducible refine (updBoot_keeps ..).after ?_ (by decide)
    | with_reducible refine Keeps.ite ?_ ?_
    | (intro s; refine ⟨fun h => ?_, fun h => ?_, fun h => ?_⟩ <;> first | rfl | (cases h; done) | (split <;> rfl) | (simp; done))
    | (intro s; refine ⟨fun h => ?_, fun h => ?_, fun h => ?_, fun h => ?_⟩ <;> first | rfl | (cases h; done) | (split <;> rfl) | (simp; done))
    | (refine ⟨fun h => ?_, fun h => ?_, fun h => ?_, fun h => ?_⟩ <;> first | rfl | (cases h; done) | (split <;> rfl) | (simp; done))
    | (intro s; refine ⟨fun h => ?_, fun h => ?_⟩ <;> first | rfl | (cases h; done) | (split <;> rfl) | (simp; done))
    | (refine ⟨fun h => ?_, fun h => ?_⟩ <;> first | rfl | (cases h; done) | (split <;> rfl) | (simp; done))
    | (intro h; refine ⟨?_, ?_⟩ <;> first | exact h.1 | exact h.2.1 | exact msets_wf _ _ _ h.1 | exact msets_wf _ _ _ h.2.1 | exact wf_nil | exact filter_wf _ _ h.1 | exact composeMem_wf _ _ _ h.2.2.1)
    | (intro s h; first | exact h | exact baseOf_wf _ | rfl | exact msets_wf _ _ _ h | (dsimp only; split <;> first | exact h | exact baseOf_wf _ | rfl))
    | (fail_if_no_progress with_reducible refine (set_button_keeps _ _).after ?_ (by decide))
    | (fail_if_no_progress with_reducible refine (set_nobind_keeps _ _).after ?_ (by decide))
    | split

theorem dfltCleared_keeps : ∀ a1 d, Keeps [.devState, .latch, .arbs, .slots, .chans, .profs, .paths, .srcs, .faults, .col, .log, .caps, .alert] d (dfltCleared a1 d) := by
  intro a1 d
  unfold dfltCleared
  repeat' first
    | with_reducible exact Keeps.refl _ _
    | with_reducible assumption
    | ((try lift_lets); intro x; first | (refine Keeps.cut x ?_ ?_; (on_goal 1 => subst x); (on_goal 2 => (clear_value x; intro hx))) | (have hf := fun a => x a; clear hf; subst x) | clear_value x)
    | with_reducible refine (faultEnds_keeps ..).after ?_ (by decide)
    | with_reducible refine (updSlot_keeps _ _ ?_).after ?_ (by decide)
    | with_reducible refine Keeps.ite ?_ ?_
    | (intro s h; first | exact h | (simp only [SlotSt.apart] at *; done) | (dsimp only; split <;> exact h) | (cases s; simp_all [SlotSt.apart]; done))
    | split

theorem dfltHigh_keeps : ∀ a1 a2 d, Keeps [.devState, .latch, .arbs, .isl, .slots, .chans, .profs, .paths, .srcs, .faults, .col, .log, .caps, .alert] d (dfltHigh a1 a2 d) := by
  intro a1 a2 d
  unfold dfltHigh
  repeat' first
    | with_reducible exact Keeps.refl _ _
    | with_reducible assumption
    | ((try lift_lets); intro x; first | (refine Keeps.cut x ?_ ?_; (on_goal 1 => subst x); (on_goal 2 => (clear_value x; intro hx))) | (have hf := fun a => x a; clear hf; subst x) | clear_value x)
    | with_reducible refine (slotOff_keeps ..).after ?_ (by decide)
    | with_reducible refine (raiseLevel_keeps ..).after ?_ (by decide)
    | with_reducible refine (shed_keeps ..).after ?_ (by decide)
    | with_reducible refine (updSlot_keeps _ _ ?_).after ?_ (by decide)
    | with_reducible refine Keeps.ite ?_ ?_
    | (intro s h; first | exact h | (simp only [SlotSt.apart] at *; done) | (dsimp only; split <;> exact h) | (cases s; simp_all [SlotSt.apart]; done))
    | split

theorem disagreeTimer_keeps : ∀ d, Keeps [.mode, .arbs, .clk, .log] d (disagreeTimer d) := by
  intro d
  unfold disagreeTimer
  repeat' first
    | with_reducible exact Keeps.refl _ _
    | with_reducible assumption
    | ((try lift_lets); intro x; first | (refine Keeps.cut x ?_ ?_; (on_goal 1 => subst x); (on_goal 2 => (clear_value x; intro hx))) | (have hf := fun a => x a; clear hf; subst x) | clear_value x)
    | with_reducible refine (logEvent_keeps ..).after ?_ (by decide)
    | with_reducible refine (waitUp_keeps ..).after ?_ (by decide)
    | with_reducible refine (updMode_keeps ..).after ?_ (by decide)
    | with_reducible refine Keeps.ite ?_ ?_
    | split

theorem disagreeTrack_keeps : ∀ d, Keeps [.mode] d (disagreeTrack d) := by
  intro d
  unfold disagreeTrack
  repeat' first
    | with_reducible exact Keeps.refl _ _
    | with_reducible assumption
    | ((try lift_lets); intro x; first | (refine Keeps.cut x ?_ ?_; (on_goal 1 => subst x); (on_goal 2 => (clear_value x; intro hx))) | (have hf := fun a => x a; clear hf; subst x) | clear_value x)
    | with_reducible refine (updMode_keeps ..).after ?_ (by decide)
    | with_reducible refine Keeps.ite ?_ ?_
    | split

theorem discardConv_keeps : ∀ a1 d, Keeps [.arbs, .mods, .seqs, .cal, .alert] d (discardConv a1 d) := by
  intro a1 d
  unfold discardConv
  repeat' first
    | with_reducible exact Keeps.refl _ _
    | with_reducible assumption
    | ((try lift_lets); intro x; first | (refine Keeps.cut x ?_ ?_; (on_goal 1 => subst x); (on_goal 2 => (clear_value x; intro hx))) | (have hf := fun a => x a; clear hf; subst x) | clear_value x)
    | with_reducible refine (arbRelease_keeps ..).after ?_ (by decide)
    | with_reducible refine (injEnd_keeps ..).after ?_ (by decide)
    | with_reducible refine (alertSet_keeps ..).after ?_ (by decide)
    | with_reducible refine (arbRequest_keeps ..).after ?_ (by decide)
    | with_reducible refine (updMod_keeps ..).after ?_ (by decide)
    | with_reducible refine (updCal_keeps ..).after ?_ (by decide)
    | with_reducible refine Keeps.ite ?_ ?_
    | split

def drainQuadParts : List Part :=
  [.devState, .latch, .arbs, .clk, .isl, .launches, .halt, .slots, .quads, .chans, .profs, .paths, .srcs, .bus, .rings, .writers, .nobind, .therm, .faults, .col, .log, .caps, .conf, .alert]

theorem drainQuad_keeps : ∀ a1 a2 d, Keeps drainQuadParts d (drainQuad a1 a2 d) := by
  intro a1 a2 d
  unfold drainQuad
  repeat' first
    | with_reducible exact Keeps.refl _ _
    | with_reducible assumption
    | ((try lift_lets); intro x; first | (refine Keeps.cut x ?_ ?_; (on_goal 1 => subst x); (on_goal 2 => (clear_value x; intro hx))) | (have hf := fun a => x a; clear hf; subst x) | clear_value x)
    | with_reducible refine (takeQuad_keeps ..).after ?_ (by decide)
    | with_reducible refine (setFifo_keeps ..).after ?_ (by decide)
    | with_reducible refine Keeps.ite ?_ ?_
    | split

def takeHkParts : List Part :=
  [.devState, .latch, .arbs, .slots, .quads, .chans, .profs, .paths, .srcs, .mods, .seqs, .rings, .writers, .nobind, .cal, .therm, .hk, .faults, .col, .log, .caps, .fi, .mem, .alert]

theorem takeHk_keeps : ∀ a1 a2 d, Keeps takeHkParts d (takeHk a1 a2 d) := by
  intro a1 a2 d
  unfold takeHk
  repeat' first
    | with_reducible exact Keeps.refl _ _
    | with_reducible assumption
    | ((try lift_lets); intro x; first | (refine Keeps.cut x ?_ ?_; (on_goal 1 => subst x); (on_goal 2 => (clear_value x; intro hx))) | (have hf := fun a => x a; clear hf; subst x) | clear_value x)
    | with_reducible refine (deliverHk_keeps ..).after ?_ (by decide)
    | with_reducible refine Keeps.forEach (fun _ _ => ?_) ?_
    | with_reducible refine Keeps.ite ?_ ?_
    | split

def drainHkParts : List Part :=
  [.devState, .latch, .arbs, .isl, .slots, .quads, .chans, .profs, .paths, .srcs, .mods, .seqs, .rings, .writers, .nobind, .cal, .therm, .hk, .faults, .col, .log, .caps, .fi, .mem, .alert]

theorem drainHk_keeps : ∀ a1 d, Keeps drainHkParts d (drainHk a1 d) := by
  intro a1 d
  unfold drainHk
  repeat' first
    | with_reducible exact Keeps.refl _ _
    | with_reducible assumption
    | ((try lift_lets); intro x; first | (refine Keeps.cut x ?_ ?_; (on_goal 1 => subst x); (on_goal 2 => (clear_value x; intro hx))) | (have hf := fun a => x a; clear hf; subst x) | clear_value x)
    | with_reducible refine (takeHk_keeps ..).after ?_ (by decide)
    | with_reducible refine (setFifo_keeps ..).after ?_ (by decide)
    | with_reducible refine Keeps.ite ?_ ?_
    | split

def drainParts : List Part :=
  [.devState, .latch, .arbs, .clk, .isl, .launches, .halt, .slots, .quads, .chans, .profs, .paths, .srcs, .bus, .mods, .seqs, .rings, .writers, .nobind, .cal, .therm, .hk, .faults, .col, .log, .caps, .fi, .mem, .conf, .alert]

theorem drain_keeps : ∀ a1 d, Keeps drainParts d (drain a1 d) := by
  intro a1 d
  unfold drain
  repeat' first
    | with_reducible exact Keeps.refl _ _
    | with_reducible assumption
    | ((try lift_lets); intro x; first | (refine Keeps.cut x ?_ ?_; (on_goal 1 => subst x); (on_goal 2 => (clear_value x; intro hx))) | (have hf := fun a => x a; clear hf; subst x) | clear_value x)
    | with_reducible refine (drainQuad_keeps ..).after ?_ (by decide)
    | with_reducible refine (drainHk_keeps ..).after ?_ (by decide)
    | with_reducible refine Keeps.ite ?_ ?_
    | split

theorem dropMember_keeps : ∀ a1 a2 d, Keeps [.cvn] d (dropMember a1 a2 d) := by
  intro a1 a2 d
  unfold dropMember
  repeat' first
    | with_reducible exact Keeps.refl _ _
    | with_reducible assumption
    | ((try lift_lets); intro x; first | (refine Keeps.cut x ?_ ?_; (on_goal 1 => subst x); (on_goal 2 => (clear_value x; intro hx))) | (have hf := fun a => x a; clear hf; subst x) | clear_value x)
    | with_reducible refine (updCvn_keeps ..).after ?_ (by decide)
    | with_reducible refine Keeps.ite ?_ ?_
    | split

theorem sendLosses_keeps : ∀ a1 d, Keeps [.isl] d (sendLosses a1 d) := by
  intro a1 d
  unfold sendLosses
  repeat' first
    | with_reducible exact Keeps.refl _ _
    | with_reducible assumption
    | ((try lift_lets); intro x; first | (refine Keeps.cut x ?_ ?_; (on_goal 1 => subst x); (on_goal 2 => (clear_value x; intro hx))) | (have hf := fun a => x a; clear hf; subst x) | clear_value x)
    | with_reducible refine (send_keeps ..).after ?_ (by decide)
    | with_reducible refine Keeps.ite ?_ ?_
    | split

theorem energyFrame_keeps : ∀ d, Keeps [.isl, .therm] d (energyFrame d) := by
  intro d
  unfold energyFrame
  repeat' first
    | with_reducible exact Keeps.refl _ _
    | with_reducible assumption
    | ((try lift_lets); intro x; first | (refine Keeps.cut x ?_ ?_; (on_goal 1 => subst x); (on_goal 2 => (clear_value x; intro hx))) | (have hf := fun a => x a; clear hf; subst x) | clear_value x)
    | with_reducible refine (sendLosses_keeps ..).after ?_ (by decide)
    | with_reducible refine Keeps.forEach (fun _ _ => ?_) ?_
    | with_reducible refine Keeps.ite ?_ ?_
    | (fail_if_no_progress with_reducible refine (set_therm_keeps _ _).after ?_ (by decide))
    | split

theorem enterLoad_keeps : ∀ d, Keeps [.start, .devState, .loader, .bootp] d (enterLoad d) := by
  intro d
  unfold enterLoad
  repeat' first
    | with_reducible exact Keeps.refl _ _
    | with_reducible assumption
    | ((try lift_lets); intro x; first | (refine Keeps.cut x ?_ ?_; (on_goal 1 => subst x); (on_goal 2 => (clear_value x; intro hx))) | (have hf := fun a => x a; clear hf; subst x) | clear_value x)
    | with_reducible refine (busRecovery_keeps ..).after ?_ (by decide)
    | with_reducible refine (updLoader_keeps _ ?_).after ?_ (by decide)
    | with_reducible refine (updStart_keeps (S := [.start, .devState]) _ ?_).after ?_ (by decide)
    | with_reducible refine Keeps.ite ?_ ?_
    | (intro s; refine ⟨fun h => ?_, fun h => ?_, fun h => ?_⟩ <;> first | rfl | (cases h; done) | (split <;> rfl) | (simp; done))
    | (refine ⟨fun h => ?_, fun h => ?_, fun h => ?_⟩ <;> first | rfl | (cases h; done) | (split <;> rfl) | (simp; done))
    | (intro s h; first | exact h | exact baseOf_wf _ | rfl | exact msets_wf _ _ _ h | (dsimp only; split <;> first | exact h | exact baseOf_wf _ | rfl))
    | split

theorem enterReset_keeps : ∀ d, Keeps everyPart d (enterReset d) := by
  intro d
  unfold enterReset
  split
  · exact Keeps.refl _ _
  · exact ⟨fun p hp => (by cases p <;> cases hp), fun h => ⟨filter_wf _ _ h.1, rfl, rfl, rfl⟩,
      fun _ n => by simp [SlotSt.apart]⟩

theorem enterStart_keeps : ∀ a1 d, Keeps [.slots, .chans, .profs, .paths] d (enterStart a1 d) := by
  intro a1 d
  unfold enterStart
  repeat' first
    | with_reducible exact Keeps.refl _ _
    | with_reducible assumption
    | ((try lift_lets); intro x; first | (refine Keeps.cut x ?_ ?_; (on_goal 1 => subst x); (on_goal 2 => (clear_value x; intro hx))) | (have hf := fun a => x a; clear hf; subst x) | clear_value x)
    | with_reducible refine (enterCh_keeps ..).after ?_ (by decide)
    | with_reducible refine (updChan_keeps ..).after ?_ (by decide)
    | with_reducible refine Keeps.ite ?_ ?_
    | split

theorem enterStop_keeps : ∀ a1 a2 d, Keeps [.slots, .chans, .profs, .paths] d (enterStop a1 a2 d) := by
  intro a1 a2 d
  unfold enterStop
  repeat' first
    | with_reducible exact Keeps.refl _ _
    | with_reducible assumption
    | ((try lift_lets); intro x; first | (refine Keeps.cut x ?_ ?_; (on_goal 1 => subst x); (on_goal 2 => (clear_value x; intro hx))) | (have hf := fun a => x a; clear hf; subst x) | clear_value x)
    | with_reducible refine (pauseProf_keeps ..).after ?_ (by decide)
    | with_reducible refine (enterCh_keeps ..).after ?_ (by decide)
    | with_reducible refine (updChan_keeps ..).after ?_ (by decide)
    | with_reducible refine Keeps.ite ?_ ?_
    | split

theorem powerLow_keeps : ∀ d, Keeps [.slots, .paths, .srcs] d (powerLow d) := by
  intro d
  unfold powerLow
  repeat' first
    | with_reducible exact Keeps.refl _ _
    | with_reducible assumption
    | ((try lift_lets); intro x; first | (refine Keeps.cut x ?_ ?_; (on_goal 1 => subst x); (on_goal 2 => (clear_value x; intro hx))) | (have hf := fun a => x a; clear hf; subst x) | clear_value x)
    | with_reducible refine (srcZero_keeps ..).after ?_ (by decide)
    | with_reducible refine (pathZero_keeps ..).after ?_ (by decide)
    | with_reducible refine Keeps.forEach (fun _ _ => ?_) ?_
    | with_reducible refine Keeps.ite ?_ ?_
    | (fail_if_no_progress with_reducible refine (set_slots_keeps _ ?_).after ?_ (by decide))
    | with_reducible refine map_apart _ _ ?_
    | with_reducible refine mapAll_apart _ _ ?_
    | (intro n s h; first | (split <;> exact h) | (dsimp only; split <;> exact h))
    | (intro s h; first | exact h | (simp only [SlotSt.apart] at *; done) | (dsimp only; split <;> exact h) | (cases s; simp_all [SlotSt.apart]; done))
    | split

theorem enterSvcHold_keeps : ∀ d, Keeps [.start, .devState, .latch, .loader, .button, .bootp, .arbs, .cvn, .slots, .chans, .profs, .paths, .srcs, .col, .sup] d (enterSvcHold d) := by
  intro d
  unfold enterSvcHold
  repeat' first
    | with_reducible exact Keeps.refl _ _
    | with_reducible assumption
    | ((try lift_lets); intro x; first | (refine Keeps.cut x ?_ ?_; (on_goal 1 => subst x); (on_goal 2 => (clear_value x; intro hx))) | (have hf := fun a => x a; clear hf; subst x) | clear_value x)
    | with_reducible refine (bootAbandon_keeps ..).after ?_ (by decide)
    | with_reducible refine (powerLow_keeps ..).after ?_ (by decide)
    | with_reducible refine (regate_keeps ..).after ?_ (by decide)
    | with_reducible refine (rollPush_keeps ..).after ?_ (by decide)
    | with_reducible refine (updStart_keeps (S := [.start, .devState, .latch]) _ ?_).after ?_ (by decide)
    | with_reducible refine (updCol_keeps (S := [.col]) _ ?_).after ?_ (by decide)
    | with_reducible refine (updSup_keeps (S := [.sup]) _ ?_).after ?_ (by decide)
    | with_reducible refine Keeps.forEach (fun _ _ => ?_) ?_
    | with_reducible refine Keeps.ite ?_ ?_
    | (intro s; refine ⟨fun h => ?_, fun h => ?_, fun h => ?_⟩ <;> first | rfl | (cases h; done) | (split <;> rfl) | (simp; done))
    | (refine ⟨fun h => ?_, fun h => ?_, fun h => ?_⟩ <;> first | rfl | (cases h; done) | (split <;> rfl) | (simp; done))
    | (intro s; refine ⟨fun h => ?_, fun h => ?_, fun h => ?_, fun h => ?_⟩ <;> first | rfl | (cases h; done) | (split <;> rfl) | (simp; done))
    | (refine ⟨fun h => ?_, fun h => ?_, fun h => ?_, fun h => ?_⟩ <;> first | rfl | (cases h; done) | (split <;> rfl) | (simp; done))
    | (intro s; refine ⟨fun h => ?_, fun h => ?_⟩ <;> first | rfl | (cases h; done) | (split <;> rfl) | (simp; done))
    | (refine ⟨fun h => ?_, fun h => ?_⟩ <;> first | rfl | (cases h; done) | (split <;> rfl) | (simp; done))
    | (fail_if_no_progress with_reducible refine (set_button_keeps _ _).after ?_ (by decide))
    | split

theorem faultRaise_keeps : ∀ a1 d, Keeps [.devState, .latch, .arbs, .slots, .chans, .profs, .paths, .srcs, .faults, .col, .log, .caps, .alert] d (faultRaise a1 d) := by
  intro a1 d
  unfold faultRaise
  repeat' first
    | with_reducible exact Keeps.refl _ _
    | with_reducible assumption
    | ((try lift_lets); intro x; first | (refine Keeps.cut x ?_ ?_; (on_goal 1 => subst x); (on_goal 2 => (clear_value x; intro hx))) | (have hf := fun a => x a; clear hf; subst x) | clear_value x)
    | with_reducible refine (raiseX_keeps ..).after ?_ (by decide)
    | with_reducible refine Keeps.ite ?_ ?_
    | split

theorem fbEvent_keeps : ∀ a1 a2 a3 d, Keeps [.arbs, .log] d (fbEvent a1 a2 a3 d) := by
  intro a1 a2 a3 d
  unfold fbEvent
  repeat' first
    | with_reducible exact Keeps.refl _ _
    | with_reducible assumption
    | ((try lift_lets); intro x; first | (refine Keeps.cut x ?_ ?_; (on_goal 1 => subst x); (on_goal 2 => (clear_value x; intro hx))) | (have hf := fun a => x a; clear hf; subst x) | clear_value x)
    | with_reducible refine (logEvent_keeps ..).after ?_ (by decide)
    | with_reducible refine Keeps.ite ?_ ?_
    | split

theorem stuckTrack_keeps : ∀ a1 d, Keeps [.paths] d (stuckTrack a1 d) := by
  intro a1 d
  unfold stuckTrack
  repeat' first
    | with_reducible exact Keeps.refl _ _
    | with_reducible assumption
    | ((try lift_lets); intro x; first | (refine Keeps.cut x ?_ ?_; (on_goal 1 => subst x); (on_goal 2 => (clear_value x; intro hx))) | (have hf := fun a => x a; clear hf; subst x) | clear_value x)
    | with_reducible refine (updPath_keeps ..).after ?_ (by decide)
    | with_reducible refine Keeps.ite ?_ ?_
    | split

theorem reverseAct_keeps : ∀ a1 d, Keeps [.paths] d (reverseAct a1 d) := by
  intro a1 d
  unfold reverseAct
  repeat' first
    | with_reducible exact Keeps.refl _ _
    | with_reducible assumption
    | ((try lift_lets); intro x; first | (refine Keeps.cut x ?_ ?_; (on_goal 1 => subst x); (on_goal 2 => (clear_value x; intro hx))) | (have hf := fun a => x a; clear hf; subst x) | clear_value x)
    | with_reducible refine (pathZero_keeps ..).after ?_ (by decide)
    | with_reducible refine (updPath_keeps ..).after ?_ (by decide)
    | with_reducible refine Keeps.ite ?_ ?_
    | split

theorem tryInsert_keeps : ∀ a1 d, Keeps [.paths] d (tryInsert a1 d) := by
  intro a1 d
  unfold tryInsert
  repeat' first
    | with_reducible exact Keeps.refl _ _
    | with_reducible assumption
    | ((try lift_lets); intro x; first | (refine Keeps.cut x ?_ ?_; (on_goal 1 => subst x); (on_goal 2 => (clear_value x; intro hx))) | (have hf := fun a => x a; clear hf; subst x) | clear_value x)
    | with_reducible refine (updPath_keeps ..).after ?_ (by decide)
    | with_reducible refine Keeps.ite ?_ ?_
    | split

theorem presence_keeps : ∀ a1 d, Keeps [.paths] d (presence a1 d) := by
  intro a1 d
  unfold presence
  repeat' first
    | with_reducible exact Keeps.refl _ _
    | with_reducible assumption
    | ((try lift_lets); intro x; first | (refine Keeps.cut x ?_ ?_; (on_goal 1 => subst x); (on_goal 2 => (clear_value x; intro hx))) | (have hf := fun a => x a; clear hf; subst x) | clear_value x)
    | with_reducible refine (tryInsert_keeps ..).after ?_ (by decide)
    | with_reducible refine (updPath_keeps ..).after ?_ (by decide)
    | with_reducible refine Keeps.ite ?_ ?_
    | split

theorem pathOnVolt_keeps : ∀ a1 d, Keeps [.devState, .latch, .arbs, .slots, .chans, .profs, .paths, .srcs, .faults, .col, .log, .caps, .alert] d (pathOnVolt a1 d) := by
  intro a1 d
  unfold pathOnVolt
  repeat' first
    | with_reducible exact Keeps.refl _ _
    | with_reducible assumption
    | ((try lift_lets); intro x; first | (refine Keeps.cut x ?_ ?_; (on_goal 1 => subst x); (on_goal 2 => (clear_value x; intro hx))) | (have hf := fun a => x a; clear hf; subst x) | clear_value x)
    | with_reducible refine (belowTrack_keeps ..).after ?_ (by decide)
    | with_reducible refine (stuckTrack_keeps ..).after ?_ (by decide)
    | with_reducible refine (reverseAct_keeps ..).after ?_ (by decide)
    | with_reducible refine (presence_keeps ..).after ?_ (by decide)
    | with_reducible refine (collapseJudge_keeps ..).after ?_ (by decide)
    | with_reducible refine (tryConduct_keeps ..).after ?_ (by decide)
    | with_reducible refine (pathRegulate_keeps ..).after ?_ (by decide)
    | with_reducible refine (startFull_keeps ..).after ?_ (by decide)
    | with_reducible refine Keeps.ite ?_ ?_
    | split

theorem restVolt_keeps : ∀ a1 a2 d, Keeps [.profs] d (restVolt a1 a2 d) := by
  intro a1 a2 d
  unfold restVolt
  repeat' first
    | with_reducible exact Keeps.refl _ _
    | with_reducible assumption
    | ((try lift_lets); intro x; first | (refine Keeps.cut x ?_ ?_; (on_goal 1 => subst x); (on_goal 2 => (clear_value x; intro hx))) | (have hf := fun a => x a; clear hf; subst x) | clear_value x)
    | with_reducible refine (updProf_keeps ..).after ?_ (by decide)
    | with_reducible refine Keeps.ite ?_ ?_
    | split

theorem headroomUpdate_keeps : ∀ a1 d, Keeps [.slots, .chans, .profs, .paths] d (headroomUpdate a1 d) := by
  intro a1 d
  unfold headroomUpdate
  repeat' first
    | with_reducible exact Keeps.refl _ _
    | with_reducible assumption
    | ((try lift_lets); intro x; first | (refine Keeps.cut x ?_ ?_; (on_goal 1 => subst x); (on_goal 2 => (clear_value x; intro hx))) | (have hf := fun a => x a; clear hf; subst x) | clear_value x)
    | with_reducible refine (regate_keeps ..).after ?_ (by decide)
    | with_reducible refine (updChan_keeps ..).after ?_ (by decide)
    | with_reducible refine Keeps.ite ?_ ?_
    | split

theorem foldUpdate_keeps : ∀ a1 a2 d, Keeps [.slots, .chans] d (foldUpdate a1 a2 d) := by
  intro a1 a2 d
  unfold foldUpdate
  repeat' first
    | with_reducible exact Keeps.refl _ _
    | with_reducible assumption
    | ((try lift_lets); intro x; first | (refine Keeps.cut x ?_ ?_; (on_goal 1 => subst x); (on_goal 2 => (clear_value x; intro hx))) | (have hf := fun a => x a; clear hf; subst x) | clear_value x)
    | with_reducible refine (writeReload_keeps ..).after ?_ (by decide)
    | with_reducible refine (updChan_keeps ..).after ?_ (by decide)
    | with_reducible refine Keeps.ite ?_ ?_
    | split

theorem onVstr_keeps : ∀ a1 a2 d, Keeps [.devState, .latch, .arbs, .isl, .slots, .quads, .chans, .profs, .paths, .srcs, .bus, .faults, .col, .log, .caps, .alert] d (onVstr a1 a2 d) := by
  intro a1 a2 d
  unfold onVstr
  repeat' first
    | with_reducible exact Keeps.refl _ _
    | with_reducible assumption
    | ((try lift_lets); intro x; first | (refine Keeps.cut x ?_ ?_; (on_goal 1 => subst x); (on_goal 2 => (clear_value x; intro hx))) | (have hf := fun a => x a; clear hf; subst x) | clear_value x)
    | with_reducible refine (busEval_keeps ..).after ?_ (by decide)
    | with_reducible refine (pathOnVolt_keeps ..).after ?_ (by decide)
    | with_reducible refine (restVolt_keeps ..).after ?_ (by decide)
    | with_reducible refine (headroomUpdate_keeps ..).after ?_ (by decide)
    | with_reducible refine (foldUpdate_keeps ..).after ?_ (by decide)
    | with_reducible refine (updChan_keeps ..).after ?_ (by decide)
    | with_reducible refine Keeps.ite ?_ ?_
    | split

theorem restCur_keeps : ∀ a1 a2 d, Keeps [.profs] d (restCur a1 a2 d) := by
  intro a1 a2 d
  unfold restCur
  repeat' first
    | with_reducible exact Keeps.refl _ _
    | with_reducible assumption
    | ((try lift_lets); intro x; first | (refine Keeps.cut x ?_ ?_; (on_goal 1 => subst x); (on_goal 2 => (clear_value x; intro hx))) | (have hf := fun a => x a; clear hf; subst x) | clear_value x)
    | with_reducible refine (updProf_keeps ..).after ?_ (by decide)
    | with_reducible refine Keeps.ite ?_ ?_
    | split

theorem rampStep_keeps : ∀ a1 d, Keeps [.chans] d (rampStep a1 d) := by
  intro a1 d
  unfold rampStep
  repeat' first
    | with_reducible exact Keeps.refl _ _
    | with_reducible assumption
    | ((try lift_lets); intro x; first | (refine Keeps.cut x ?_ ?_; (on_goal 1 => subst x); (on_goal 2 => (clear_value x; intro hx))) | (have hf := fun a => x a; clear hf; subst x) | clear_value x)
    | with_reducible refine (updChan_keeps ..).after ?_ (by decide)
    | with_reducible refine Keeps.ite ?_ ?_
    | split

theorem releaseChan_keeps : ∀ a1 a2 d, Keeps [.chans] d (releaseChan a1 a2 d) := by
  intro a1 a2 d
  unfold releaseChan
  repeat' first
    | with_reducible exact Keeps.refl _ _
    | with_reducible assumption
    | ((try lift_lets); intro x; first | (refine Keeps.cut x ?_ ?_; (on_goal 1 => subst x); (on_goal 2 => (clear_value x; intro hx))) | (have hf := fun a => x a; clear hf; subst x) | clear_value x)
    | with_reducible refine (updChan_keeps ..).after ?_ (by decide)
    | with_reducible refine Keeps.ite ?_ ?_
    | split

theorem releasePath_keeps : ∀ a1 a2 d, Keeps [.paths] d (releasePath a1 a2 d) := by
  intro a1 a2 d
  unfold releasePath
  repeat' first
    | with_reducible exact Keeps.refl _ _
    | with_reducible assumption
    | ((try lift_lets); intro x; first | (refine Keeps.cut x ?_ ?_; (on_goal 1 => subst x); (on_goal 2 => (clear_value x; intro hx))) | (have hf := fun a => x a; clear hf; subst x) | clear_value x)
    | with_reducible refine (updPath_keeps ..).after ?_ (by decide)
    | with_reducible refine Keeps.ite ?_ ?_
    | split

theorem releaseSrc_keeps : ∀ a1 a2 d, Keeps [.srcs] d (releaseSrc a1 a2 d) := by
  intro a1 a2 d
  unfold releaseSrc
  repeat' first
    | with_reducible exact Keeps.refl _ _
    | with_reducible assumption
    | ((try lift_lets); intro x; first | (refine Keeps.cut x ?_ ?_; (on_goal 1 => subst x); (on_goal 2 => (clear_value x; intro hx))) | (have hf := fun a => x a; clear hf; subst x) | clear_value x)
    | with_reducible refine (updSrc_keeps ..).after ?_ (by decide)
    | with_reducible refine Keeps.ite ?_ ?_
    | split

theorem releaseHold_keeps : ∀ a1 d, Keeps [.slots, .chans, .paths, .srcs, .faults, .col] d (releaseHold a1 d) := by
  intro a1 d
  unfold releaseHold
  repeat' first
    | with_reducible exact Keeps.refl _ _
    | with_reducible assumption
    | ((try lift_lets); intro x; first | (refine Keeps.cut x ?_ ?_; (on_goal 1 => subst x); (on_goal 2 => (clear_value x; intro hx))) | (have hf := fun a => x a; clear hf; subst x) | clear_value x)
    | with_reducible refine (releaseChan_keeps ..).after ?_ (by decide)
    | with_reducible refine (releasePath_keeps ..).after ?_ (by decide)
    | with_reducible refine (releaseSrc_keeps ..).after ?_ (by decide)
    | with_reducible refine (updFault_keeps ..).after ?_ (by decide)
    | with_reducible refine (updSlot_keeps _ _ ?_).after ?_ (by decide)
    | with_reducible refine (updCol_keeps (S := [.col]) _ ?_).after ?_ (by decide)
    | with_reducible refine Keeps.forEach (fun _ _ => ?_) ?_
    | with_reducible refine Keeps.ite ?_ ?_
    | (intro s; refine ⟨fun h => ?_, fun h => ?_, fun h => ?_, fun h => ?_⟩ <;> first | rfl | (cases h; done) | (split <;> rfl) | (simp; done))
    | (refine ⟨fun h => ?_, fun h => ?_, fun h => ?_, fun h => ?_⟩ <;> first | rfl | (cases h; done) | (split <;> rfl) | (simp; done))
    | (intro s h; first | exact h | (simp only [SlotSt.apart] at *; done) | (dsimp only; split <;> exact h) | (cases s; simp_all [SlotSt.apart]; done))
    | split

theorem grantRecord_keeps : ∀ a1 d, Keeps [.arbs, .faults, .log] d (grantRecord a1 d) := by
  intro a1 d
  unfold grantRecord
  repeat' first
    | with_reducible exact Keeps.refl _ _
    | with_reducible assumption
    | ((try lift_lets); intro x; first | (refine Keeps.cut x ?_ ?_; (on_goal 1 => subst x); (on_goal 2 => (clear_value x; intro hx))) | (have hf := fun a => x a; clear hf; subst x) | clear_value x)
    | with_reducible refine (logPush_keeps ..).after ?_ (by decide)
    | with_reducible refine (updFault_keeps ..).after ?_ (by decide)
    | with_reducible refine Keeps.ite ?_ ?_
    | split

theorem untrip_keeps : ∀ a1 d, Keeps [.arbs, .slots, .chans, .paths, .srcs, .faults, .col, .log] d (untrip a1 d) := by
  intro a1 d
  unfold untrip
  repeat' first
    | with_reducible exact Keeps.refl _ _
    | with_reducible assumption
    | ((try lift_lets); intro x; first | (refine Keeps.cut x ?_ ?_; (on_goal 1 => subst x); (on_goal 2 => (clear_value x; intro hx))) | (have hf := fun a => x a; clear hf; subst x) | clear_value x)
    | with_reducible refine (releaseHold_keeps ..).after ?_ (by decide)
    | with_reducible refine (grantRecord_keeps ..).after ?_ (by decide)
    | with_reducible refine (updPath_keeps ..).after ?_ (by decide)
    | with_reducible refine Keeps.ite ?_ ?_
    | split

theorem loopMoves_keeps : ∀ a1 a2 d, Keeps [.arbs, .isl, .slots, .chans, .profs, .paths, .rings, .writers, .nobind] d (loopMoves a1 a2 d) := by
  intro a1 a2 d
  unfold loopMoves
  repeat' first
    | with_reducible exact Keeps.refl _ _
    | with_reducible assumption
    | ((try lift_lets); intro x; first | (refine Keeps.cut x ?_ ?_; (on_goal 1 => subst x); (on_goal 2 => (clear_value x; intro hx))) | (have hf := fun a => x a; clear hf; subst x) | clear_value x)
    | with_reducible refine (enterStart_keeps ..).after ?_ (by decide)
    | with_reducible refine (enterStop_keeps ..).after ?_ (by decide)
    | with_reducible refine (enterCh_keeps ..).after ?_ (by decide)
    | with_reducible refine (stopEnds_keeps ..).after ?_ (by decide)
    | with_reducible refine (restartReq_keeps ..).after ?_ (by decide)
    | with_reducible refine (updChan_keeps ..).after ?_ (by decide)
    | with_reducible refine Keeps.ite ?_ ?_
    | split

end Sys2Proof.Machine
end

