-- ==== Sys2Proof/Laws/Keeps8.lean ====
section
/-! SUPPORT. Sys2Proof/Laws/Keeps8.lean: what each operation of the model leaves unchanged (one lemma per operation, in the order of their use). -/

namespace Sys2Proof.Machine

set_option linter.unusedTactic false
set_option linter.unreachableTactic false
set_option linter.unusedVariables false

theorem softStartExpire_keeps : ∀ a1 d, Keeps [.devState, .latch, .arbs, .slots, .chans, .profs, .paths, .srcs, .faults, .col, .log, .caps, .alert] d (softStartExpire a1 d) := by
  intro a1 d
  unfold softStartExpire
  repeat' first
    | with_reducible exact Keeps.refl _ _
    | with_reducible assumption
    | ((try lift_lets); intro x; first | (refine Keeps.cut x ?_ ?_; (on_goal 1 => subst x); (on_goal 2 => (clear_value x; intro hx))) | (have hf := fun a => x a; clear hf; subst x) | clear_value x)
    | with_reducible refine (raise_keeps ..).after ?_ (by decide)
    | with_reducible refine (updChan_keeps ..).after ?_ (by decide)
    | with_reducible refine Keeps.ite ?_ ?_
    | split

theorem loopStep_keeps : ∀ a1 d, Keeps [.devState, .latch, .arbs, .isl, .slots, .chans, .profs, .paths, .srcs, .rings, .writers, .nobind, .faults, .col, .log, .caps, .alert] d (loopStep a1 d) := by
  intro a1 d
  unfold loopStep
  repeat' first
    | with_reducible exact Keeps.refl _ _
    | with_reducible assumption
    | ((try lift_lets); intro x; first | (refine Keeps.cut x ?_ ?_; (on_goal 1 => subst x); (on_goal 2 => (clear_value x; intro hx))) | (have hf := fun a => x a; clear hf; subst x) | clear_value x)
    | with_reducible refine (rampStep_keeps ..).after ?_ (by decide)
    | with_reducible refine (untrip_keeps ..).after ?_ (by decide)
    | with_reducible refine (collapseOver_keeps ..).after ?_ (by decide)
    | with_reducible refine (cutStep_keeps ..).after ?_ (by decide)
    | with_reducible refine (loopMoves_keeps ..).after ?_ (by decide)
    | with_reducible refine (capShift_keeps ..).after ?_ (by decide)
    | with_reducible refine (regate_keeps ..).after ?_ (by decide)
    | with_reducible refine (softStartExpire_keeps ..).after ?_ (by decide)
    | with_reducible refine (updChan_keeps ..).after ?_ (by decide)
    | with_reducible refine Keeps.forEach (fun _ _ => ?_) ?_
    | with_reducible refine Keeps.ite ?_ ?_
    | split

theorem profUpdate_keeps : ∀ a1 d, Keeps [.profs] d (profUpdate a1 d) := by
  intro a1 d
  unfold profUpdate
  repeat' first
    | with_reducible exact Keeps.refl _ _
    | with_reducible assumption
    | ((try lift_lets); intro x; first | (refine Keeps.cut x ?_ ?_; (on_goal 1 => subst x); (on_goal 2 => (clear_value x; intro hx))) | (have hf := fun a => x a; clear hf; subst x) | clear_value x)
    | with_reducible refine (updProf_keeps ..).after ?_ (by decide)
    | with_reducible refine Keeps.ite ?_ ?_
    | split

theorem profStep_keeps : ∀ a1 d, Keeps [.profs] d (profStep a1 d) := by
  intro a1 d
  unfold profStep
  repeat' first
    | with_reducible exact Keeps.refl _ _
    | with_reducible assumption
    | ((try lift_lets); intro x; first | (refine Keeps.cut x ?_ ?_; (on_goal 1 => subst x); (on_goal 2 => (clear_value x; intro hx))) | (have hf := fun a => x a; clear hf; subst x) | clear_value x)
    | with_reducible refine (profUpdate_keeps ..).after ?_ (by decide)
    | with_reducible refine (updProf_keeps ..).after ?_ (by decide)
    | with_reducible refine Keeps.ite ?_ ?_
    | split

theorem pathLoss_keeps : ∀ a1 d, Keeps [.therm] d (pathLoss a1 d) := by
  intro a1 d
  unfold pathLoss
  repeat' first
    | with_reducible exact Keeps.refl _ _
    | with_reducible assumption
    | ((try lift_lets); intro x; first | (refine Keeps.cut x ?_ ?_; (on_goal 1 => subst x); (on_goal 2 => (clear_value x; intro hx))) | (have hf := fun a => x a; clear hf; subst x) | clear_value x)
    | with_reducible refine (addEnergy_keeps ..).after ?_ (by decide)
    | with_reducible refine Keeps.ite ?_ ?_
    | split

theorem pathOnCur_keeps : ∀ a1 d, Keeps [.devState, .latch, .arbs, .slots, .chans, .profs, .paths, .srcs, .faults, .col, .log, .caps, .alert] d (pathOnCur a1 d) := by
  intro a1 d
  unfold pathOnCur
  repeat' first
    | with_reducible exact Keeps.refl _ _
    | with_reducible assumption
    | ((try lift_lets); intro x; first | (refine Keeps.cut x ?_ ?_; (on_goal 1 => subst x); (on_goal 2 => (clear_value x; intro hx))) | (have hf := fun a => x a; clear hf; subst x) | clear_value x)
    | with_reducible refine (stuckTrack_keeps ..).after ?_ (by decide)
    | with_reducible refine (breaker_keeps ..).after ?_ (by decide)
    | with_reducible refine (reverseAct_keeps ..).after ?_ (by decide)
    | with_reducible refine Keeps.ite ?_ ?_
    | split

theorem onIstr_keeps : ∀ a1 a2 a3 d, Keeps [.devState, .latch, .arbs, .isl, .slots, .quads, .chans, .profs, .paths, .srcs, .bus, .rings, .writers, .nobind, .therm, .faults, .col, .log, .caps, .fi, .mem, .alert] d (onIstr a1 a2 a3 d) := by
  intro a1 a2 a3 d
  unfold onIstr
  repeat' first
    | with_reducible exact Keeps.refl _ _
    | with_reducible assumption
    | ((try lift_lets); intro x; first | (refine Keeps.cut x ?_ ?_; (on_goal 1 => subst x); (on_goal 2 => (clear_value x; intro hx))) | (have hf := fun a => x a; clear hf; subst x) | clear_value x)
    | with_reducible refine (restCur_keeps ..).after ?_ (by decide)
    | with_reducible refine (charge_keeps ..).after ?_ (by decide)
    | with_reducible refine (loopStep_keeps ..).after ?_ (by decide)
    | with_reducible refine (profStep_keeps ..).after ?_ (by decide)
    | with_reducible refine (foldUpdate_keeps ..).after ?_ (by decide)
    | with_reducible refine (pathLoss_keeps ..).after ?_ (by decide)
    | with_reducible refine (conduction_keeps ..).after ?_ (by decide)
    | with_reducible refine (busEval_keeps ..).after ?_ (by decide)
    | with_reducible refine (pathOnCur_keeps ..).after ?_ (by decide)
    | with_reducible refine (chanSample_keeps ..).after ?_ (by decide)
    | with_reducible refine (updPath_keeps ..).after ?_ (by decide)
    | with_reducible refine (updChan_keeps ..).after ?_ (by decide)
    | with_reducible refine Keeps.ite ?_ ?_
    | split

theorem srcRegulate_keeps : ∀ a1 d, Keeps [.srcs] d (srcRegulate a1 d) := by
  intro a1 d
  unfold srcRegulate
  repeat' first
    | with_reducible exact Keeps.refl _ _
    | with_reducible assumption
    | ((try lift_lets); intro x; first | (refine Keeps.cut x ?_ ?_; (on_goal 1 => subst x); (on_goal 2 => (clear_value x; intro hx))) | (have hf := fun a => x a; clear hf; subst x) | clear_value x)
    | with_reducible refine (updSrc_keeps ..).after ?_ (by decide)
    | with_reducible refine Keeps.ite ?_ ?_
    | split

theorem srcOnVolt_keeps : ∀ a1 d, Keeps [.devState, .latch, .arbs, .isl, .slots, .quads, .chans, .profs, .paths, .srcs, .bus, .faults, .col, .log, .caps, .alert] d (srcOnVolt a1 d) := by
  intro a1 d
  unfold srcOnVolt
  repeat' first
    | with_reducible exact Keeps.refl _ _
    | with_reducible assumption
    | ((try lift_lets); intro x; first | (refine Keeps.cut x ?_ ?_; (on_goal 1 => subst x); (on_goal 2 => (clear_value x; intro hx))) | (have hf := fun a => x a; clear hf; subst x) | clear_value x)
    | with_reducible refine (srcToRamp_keeps ..).after ?_ (by decide)
    | with_reducible refine (srcZero_keeps ..).after ?_ (by decide)
    | with_reducible refine (srcRegulate_keeps ..).after ?_ (by decide)
    | with_reducible refine (halveEval_keeps ..).after ?_ (by decide)
    | with_reducible refine (busEval_keeps ..).after ?_ (by decide)
    | with_reducible refine (updSrc_keeps ..).after ?_ (by decide)
    | with_reducible refine Keeps.ite ?_ ?_
    | split

theorem onVsrc_keeps : ∀ a1 a2 d, Keeps [.devState, .latch, .arbs, .isl, .slots, .quads, .chans, .profs, .paths, .srcs, .bus, .faults, .col, .log, .caps, .alert] d (onVsrc a1 a2 d) := by
  intro a1 a2 d
  unfold onVsrc
  repeat' first
    | with_reducible exact Keeps.refl _ _
    | with_reducible assumption
    | ((try lift_lets); intro x; first | (refine Keeps.cut x ?_ ?_; (on_goal 1 => subst x); (on_goal 2 => (clear_value x; intro hx))) | (have hf := fun a => x a; clear hf; subst x) | clear_value x)
    | with_reducible refine (srcOnVolt_keeps ..).after ?_ (by decide)
    | with_reducible refine (updSrc_keeps ..).after ?_ (by decide)
    | with_reducible refine Keeps.ite ?_ ?_
    | split

theorem srcSample_keeps : ∀ a1 d, Keeps [.arbs, .isl, .srcs, .caps] d (srcSample a1 d) := by
  intro a1 d
  unfold srcSample
  repeat' first
    | with_reducible exact Keeps.refl _ _
    | with_reducible assumption
    | ((try lift_lets); intro x; first | (refine Keeps.cut x ?_ ?_; (on_goal 1 => subst x); (on_goal 2 => (clear_value x; intro hx))) | (have hf := fun a => x a; clear hf; subst x) | clear_value x)
    | with_reducible refine (quadSample_keeps ..).after ?_ (by decide)
    | with_reducible refine (updSrc_keeps ..).after ?_ (by decide)
    | with_reducible refine Keeps.ite ?_ ?_
    | split

theorem srcLoss_keeps : ∀ a1 d, Keeps [.therm] d (srcLoss a1 d) := by
  intro a1 d
  unfold srcLoss
  repeat' first
    | with_reducible exact Keeps.refl _ _
    | with_reducible assumption
    | ((try lift_lets); intro x; first | (refine Keeps.cut x ?_ ?_; (on_goal 1 => subst x); (on_goal 2 => (clear_value x; intro hx))) | (have hf := fun a => x a; clear hf; subst x) | clear_value x)
    | with_reducible refine (addEnergy_keeps ..).after ?_ (by decide)
    | with_reducible refine Keeps.ite ?_ ?_
    | split

theorem srcOnCur_keeps : ∀ a1 d, Keeps [.srcs] d (srcOnCur a1 d) := by
  intro a1 d
  unfold srcOnCur
  repeat' first
    | with_reducible exact Keeps.refl _ _
    | with_reducible assumption
    | ((try lift_lets); intro x; first | (refine Keeps.cut x ?_ ?_; (on_goal 1 => subst x); (on_goal 2 => (clear_value x; intro hx))) | (have hf := fun a => x a; clear hf; subst x) | clear_value x)
    | with_reducible refine (updSrc_keeps ..).after ?_ (by decide)
    | with_reducible refine Keeps.ite ?_ ?_
    | split

theorem onIsrc_keeps : ∀ a1 a2 d, Keeps [.arbs, .isl, .srcs, .therm, .caps] d (onIsrc a1 a2 d) := by
  intro a1 a2 d
  unfold onIsrc
  repeat' first
    | with_reducible exact Keeps.refl _ _
    | with_reducible assumption
    | ((try lift_lets); intro x; first | (refine Keeps.cut x ?_ ?_; (on_goal 1 => subst x); (on_goal 2 => (clear_value x; intro hx))) | (have hf := fun a => x a; clear hf; subst x) | clear_value x)
    | with_reducible refine (srcSample_keeps ..).after ?_ (by decide)
    | with_reducible refine (srcLoss_keeps ..).after ?_ (by decide)
    | with_reducible refine (srcOnCur_keeps ..).after ?_ (by decide)
    | with_reducible refine (updSrc_keeps ..).after ?_ (by decide)
    | with_reducible refine Keeps.ite ?_ ?_
    | split

theorem holdsRelease_keeps : ∀ d, Keeps [.devState, .latch, .arbs, .isl, .slots, .quads, .chans, .profs, .paths, .srcs, .bus, .faults, .col, .log, .caps, .alert] d (holdsRelease d) := by
  intro d
  unfold holdsRelease
  repeat' first
    | with_reducible exact Keeps.refl _ _
    | with_reducible assumption
    | ((try lift_lets); intro x; first | (refine Keeps.cut x ?_ ?_; (on_goal 1 => subst x); (on_goal 2 => (clear_value x; intro hx))) | (have hf := fun a => x a; clear hf; subst x) | clear_value x)
    | with_reducible refine (srcToRamp_keeps ..).after ?_ (by decide)
    | with_reducible refine Keeps.forEach (fun _ _ => ?_) ?_
    | with_reducible refine Keeps.ite ?_ ?_
    | split

theorem staleUpdate_keeps : ∀ d, Keeps [.quads] d (staleUpdate d) := by
  intro d
  unfold staleUpdate
  repeat' first
    | with_reducible exact Keeps.refl _ _
    | with_reducible assumption
    | ((try lift_lets); intro x; first | (refine Keeps.cut x ?_ ?_; (on_goal 1 => subst x); (on_goal 2 => (clear_value x; intro hx))) | (have hf := fun a => x a; clear hf; subst x) | clear_value x)
    | with_reducible refine Keeps.ite ?_ ?_
    | (fail_if_no_progress with_reducible refine (set_quads_keeps _ _).after ?_ (by decide))
    | split

theorem onSys_keeps : ∀ a1 a2 a3 d, Keeps [.devState, .latch, .arbs, .isl, .slots, .quads, .chans, .profs, .paths, .srcs, .bus, .faults, .col, .log, .caps, .alert] d (onSys a1 a2 a3 d) := by
  intro a1 a2 a3 d
  unfold onSys
  repeat' first
    | with_reducible exact Keeps.refl _ _
    | with_reducible assumption
    | ((try lift_lets); intro x; first | (refine Keeps.cut x ?_ ?_; (on_goal 1 => subst x); (on_goal 2 => (clear_value x; intro hx))) | (have hf := fun a => x a; clear hf; subst x) | clear_value x)
    | with_reducible refine Keeps.toHouse (fun _ => ?_) ?_ (by decide)
    | with_reducible refine (sysArrives_keeps ..).after ?_ (by decide)
    | with_reducible refine (halveEval_keeps ..).after ?_ (by decide)
    | with_reducible refine (busEval_keeps ..).after ?_ (by decide)
    | with_reducible refine (holdsRelease_keeps ..).after ?_ (by decide)
    | with_reducible refine (staleUpdate_keeps ..).after ?_ (by decide)
    | with_reducible refine (updQuad_keeps ..).after ?_ (by decide)
    | with_reducible refine Keeps.ite ?_ ?_
    | split

theorem feed_keeps : ∀ a1 a2 a3 d, Keeps [.devState, .latch, .arbs, .isl, .slots, .quads, .chans, .profs, .paths, .srcs, .bus, .rings, .writers, .nobind, .therm, .faults, .col, .log, .caps, .fi, .mem, .alert] d (feed a1 a2 a3 d) := by
  intro a1 a2 a3 d
  unfold feed
  repeat' first
    | with_reducible exact Keeps.refl _ _
    | with_reducible assumption
    | ((try lift_lets); intro x; first | (refine Keeps.cut x ?_ ?_; (on_goal 1 => subst x); (on_goal 2 => (clear_value x; intro hx))) | (have hf := fun a => x a; clear hf; subst x) | clear_value x)
    | with_reducible refine (onVstr_keeps ..).after ?_ (by decide)
    | with_reducible refine (onIstr_keeps ..).after ?_ (by decide)
    | with_reducible refine (onVsrc_keeps ..).after ?_ (by decide)
    | with_reducible refine (onIsrc_keeps ..).after ?_ (by decide)
    | with_reducible refine (onSys_keeps ..).after ?_ (by decide)
    | with_reducible refine (updChan_keeps ..).after ?_ (by decide)
    | with_reducible refine Keeps.ite ?_ ?_
    | split

theorem feedCover_keeps : ∀ a1 d, Keeps [.devState, .latch, .arbs, .isl, .slots, .quads, .chans, .profs, .paths, .srcs, .bus, .mods, .rings, .writers, .nobind, .therm, .faults, .col, .log, .caps, .fi, .mem, .alert] d (feedCover a1 d) := by
  intro a1 d
  unfold feedCover
  dsimp only
  split
  · split
    · exact (onVstr_keeps ..).after ((coverBook_keeps ..).mono (by decide)) (by decide)
    · exact (updChan_keeps ..).mono (by decide)
  · split
    · exact (onIstr_keeps ..).after ((coverBook_keeps ..).mono (by decide)) (by decide)
    · exact (onIstr_keeps ..).mono (by decide)
  · exact Keeps.ite ((onVsrc_keeps ..).after ((coverBook_keeps ..).mono (by decide)) (by decide)) (Keeps.refl _ _)
  · exact Keeps.refl _ _

theorem fiRailEnd_keeps : ∀ d, Keeps [.devState, .latch, .arbs, .slots, .chans, .profs, .paths, .srcs, .faults, .col, .log, .caps, .fi, .alert] d (fiRailEnd d) := by
  intro d
  unfold fiRailEnd
  repeat' first
    | with_reducible exact Keeps.refl _ _
    | with_reducible assumption
    | ((try lift_lets); intro x; first | (refine Keeps.cut x ?_ ?_; (on_goal 1 => subst x); (on_goal 2 => (clear_value x; intro hx))) | (have hf := fun a => x a; clear hf; subst x) | clear_value x)
    | with_reducible refine (raiseX_keeps ..).after ?_ (by decide)
    | with_reducible refine (updFault_keeps ..).after ?_ (by decide)
    | with_reducible refine (updCol_keeps (S := [.col, .log, .caps, .fi]) _ ?_).after ?_ (by decide)
    | with_reducible refine Keeps.ite ?_ ?_
    | (intro s; refine ⟨fun h => ?_, fun h => ?_, fun h => ?_, fun h => ?_⟩ <;> first | rfl | (cases h; done) | (split <;> rfl) | (simp; done))
    | (refine ⟨fun h => ?_, fun h => ?_, fun h => ?_, fun h => ?_⟩ <;> first | rfl | (cases h; done) | (split <;> rfl) | (simp; done))
    | split

theorem fiExpiry_keeps : ∀ d, Keeps [.devState, .latch, .arbs, .clk, .slots, .chans, .profs, .paths, .srcs, .faults, .col, .log, .caps, .fi, .alert] d (fiExpiry d) := by
  intro d
  unfold fiExpiry
  repeat' first
    | with_reducible exact Keeps.refl _ _
    | with_reducible assumption
    | ((try lift_lets); intro x; first | (refine Keeps.cut x ?_ ?_; (on_goal 1 => subst x); (on_goal 2 => (clear_value x; intro hx))) | (have hf := fun a => x a; clear hf; subst x) | clear_value x)
    | with_reducible refine (fiEvent_keeps ..).after ?_ (by decide)
    | with_reducible refine (fiRailEnd_keeps ..).after ?_ (by decide)
    | with_reducible refine (waitUp_keeps ..).after ?_ (by decide)
    | with_reducible refine Keeps.ite ?_ ?_
    | split

theorem fiMemWrite_keeps : ∀ a1 a2 d, Keeps [.arbs, .log, .fi] d (fiMemWrite a1 a2 d) := by
  intro a1 a2 d
  unfold fiMemWrite
  repeat' first
    | with_reducible exact Keeps.refl _ _
    | with_reducible assumption
    | ((try lift_lets); intro x; first | (refine Keeps.cut x ?_ ?_; (on_goal 1 => subst x); (on_goal 2 => (clear_value x; intro hx))) | (have hf := fun a => x a; clear hf; subst x) | clear_value x)
    | with_reducible refine (fiEvent_keeps ..).after ?_ (by decide)
    | with_reducible refine (updCol_keeps (S := [.log, .fi]) _ ?_).after ?_ (by decide)
    | with_reducible refine Keeps.ite ?_ ?_
    | (intro s; refine ⟨fun h => ?_, fun h => ?_, fun h => ?_, fun h => ?_⟩ <;> first | rfl | (cases h; done) | (split <;> rfl) | (simp; done))
    | (refine ⟨fun h => ?_, fun h => ?_, fun h => ?_, fun h => ?_⟩ <;> first | rfl | (cases h; done) | (split <;> rfl) | (simp; done))
    | split

theorem rpathFault_keeps : ∀ a1 a2 d, Keeps [.devState, .latch, .arbs, .slots, .chans, .profs, .paths, .srcs, .faults, .col, .log, .caps, .alert] d (rpathFault a1 a2 d) := by
  intro a1 a2 d
  unfold rpathFault
  repeat' first
    | with_reducible exact Keeps.refl _ _
    | with_reducible assumption
    | ((try lift_lets); intro x; first | (refine Keeps.cut x ?_ ?_; (on_goal 1 => subst x); (on_goal 2 => (clear_value x; intro hx))) | (have hf := fun a => x a; clear hf; subst x) | clear_value x)
    | with_reducible refine (logPush_keeps ..).after ?_ (by decide)
    | with_reducible refine (reactNow_keeps ..).after ?_ (by decide)
    | with_reducible refine (raiseX_keeps ..).after ?_ (by decide)
    | with_reducible refine (updFault_keeps ..).after ?_ (by decide)
    | with_reducible refine Keeps.ite ?_ ?_
    | split

theorem fiRailAct_keeps : ∀ a1 a2 d, Keeps [.devState, .latch, .arbs, .slots, .chans, .profs, .paths, .srcs, .faults, .col, .log, .caps, .alert] d (fiRailAct a1 a2 d) := by
  intro a1 a2 d
  unfold fiRailAct
  repeat' first
    | with_reducible exact Keeps.refl _ _
    | with_reducible assumption
    | ((try lift_lets); intro x; first | (refine Keeps.cut x ?_ ?_; (on_goal 1 => subst x); (on_goal 2 => (clear_value x; intro hx))) | (have hf := fun a => x a; clear hf; subst x) | clear_value x)
    | with_reducible refine (rpathFault_keeps ..).after ?_ (by decide)
    | with_reducible refine (readsIdle_keeps ..).after ?_ (by decide)
    | with_reducible refine (raiseX_keeps ..).after ?_ (by decide)
    | with_reducible refine (updFault_keeps ..).after ?_ (by decide)
    | with_reducible refine Keeps.ite ?_ ?_
    | split

theorem fiRailWrite_keeps : ∀ a1 d, Keeps [.devState, .latch, .arbs, .slots, .chans, .profs, .paths, .srcs, .faults, .col, .log, .caps, .fi, .alert] d (fiRailWrite a1 d) := by
  intro a1 d
  unfold fiRailWrite
  repeat' first
    | with_reducible exact Keeps.refl _ _
    | with_reducible assumption
    | ((try lift_lets); intro x; first | (refine Keeps.cut x ?_ ?_; (on_goal 1 => subst x); (on_goal 2 => (clear_value x; intro hx))) | (have hf := fun a => x a; clear hf; subst x) | clear_value x)
    | with_reducible refine (fiEvent_keeps ..).after ?_ (by decide)
    | with_reducible refine (fiRailEnd_keeps ..).after ?_ (by decide)
    | with_reducible refine (fiRailAct_keeps ..).after ?_ (by decide)
    | with_reducible refine (updCol_keeps (S := [.col, .log, .caps, .fi]) _ ?_).after ?_ (by decide)
    | with_reducible refine (updFault_keeps ..).after ?_ (by decide)
    | with_reducible refine Keeps.ite ?_ ?_
    | (intro s; refine ⟨fun h => ?_, fun h => ?_, fun h => ?_, fun h => ?_⟩ <;> first | rfl | (cases h; done) | (split <;> rfl) | (simp; done))
    | (refine ⟨fun h => ?_, fun h => ?_, fun h => ?_, fun h => ?_⟩ <;> first | rfl | (cases h; done) | (split <;> rfl) | (simp; done))
    | split

theorem finTimeout_keeps : ∀ a1 d, Keeps [.arbs, .clk, .isl, .slots, .chans, .profs, .paths, .rings, .writers, .nobind, .log] d (finTimeout a1 d) := by
  intro a1 d
  unfold finTimeout
  repeat' first
    | with_reducible exact Keeps.refl _ _
    | with_reducible assumption
    | ((try lift_lets); intro x; first | (refine Keeps.cut x ?_ ?_; (on_goal 1 => subst x); (on_goal 2 => (clear_value x; intro hx))) | (have hf := fun a => x a; clear hf; subst x) | clear_value x)
    | with_reducible refine (pass_keeps ..).after ?_ (by decide)
    | with_reducible refine (quadEvent_keeps ..).after ?_ (by decide)
    | with_reducible refine (movePhase_keeps ..).after ?_ (by decide)
    | with_reducible refine (updProf_keeps ..).after ?_ (by decide)
    | with_reducible refine Keeps.ite ?_ ?_
    | split

theorem finishCapture_keeps : ∀ a1 d, Keeps [.devState, .latch, .arbs, .clk, .slots, .chans, .profs, .paths, .srcs, .mods, .rings, .writers, .therm, .faults, .col, .log, .caps, .fi, .mem, .alert] d (finishCapture a1 d) := by
  intro a1 d
  unfold finishCapture
  repeat' first
    | with_reducible exact Keeps.refl _ _
    | with_reducible assumption
    | ((try lift_lets); intro x; first | (refine Keeps.cut x ?_ ?_; (on_goal 1 => subst x); (on_goal 2 => (clear_value x; intro hx))) | (have hf := fun a => x a; clear hf; subst x) | clear_value x)
    | with_reducible refine (captureComplete_keeps ..).after ?_ (by decide)
    | with_reducible refine (portServe_keeps ..).after ?_ (by decide)
    | with_reducible refine Keeps.ite ?_ ?_
    | split

theorem reloadWriteDone_keeps : ∀ d, Keeps [.arbs, .isl, .launches, .log, .fi, .mem, .reload] d (reloadWriteDone d) := by
  intro d
  unfold reloadWriteDone
  refine Keeps.ite ?_ (Keeps.refl _ _)
  dsimp only
  have h : ∀ y, Keeps [.arbs, .isl, .launches, .log, .fi, .mem, .reload] d y → ∀ z, Keeps [.arbs, .isl, .launches, .log, .fi, .mem, .reload] d (launchAll .config z (mirrorEnds (y.updReload fun x => { x with written := true, rearmAt := z }))) := by
    intro y hy z
    exact (launchAll_keeps ..).after ((mirrorEnds_keeps _).after (((updReload_keeps (f := fun x => { x with written := true, rearmAt := z }) y (fun r h => h))).after hy (by decide)) (by decide)) (by decide)
  refine h _ ?_ _
  have hb : d.memOk → (mirrorOf (reloadBase d) d.reload.newOvls d.mode.active.toNat).wf = true := fun h =>
    mirrorOf_wf _ _ _ (mergeBase_wf _ _ _ (reloadRanges_le _ _ _) h.2.2.1 h.2.2.2)
  generalize mirrorOf (reloadBase d) d.reload.newOvls d.mode.active.toNat = m at hb
  have h0 := Keeps.forEach (S := [.arbs, .isl, .launches, .log, .fi, .mem, .reload]) (l := reloadRanges d d.reload.newBase (reloadRegion d))
    (f := fun r e => memWrite r.1 (mdump m r.1 (r.2 - r.1)) e) (fun r e => (memWrite_keeps ..).mono (by decide)) (Keeps.refl _ d)
  refine ⟨fun p hp => p.same_trans (h0.parts p hp) ?_, fun h => ?_, fun h => h0.apart h⟩
  · cases p <;> first | (cases hp; done) | rfl
  · have hm := h0.mem h
    refine ⟨mreplace_wf _ _ _ _ hm.1 (mslice_wf _ _ _ _ (hb h)) (fun p hp => ?_) (by decide), hm.2⟩
    have := mslice_within _ _ _ _ p hp
    omega

theorem finishReload_keeps : ∀ d, Keeps [.devState, .latch, .arbs, .isl, .launches, .slots, .chans, .profs, .paths, .srcs, .mods, .rings, .writers, .therm, .faults, .col, .log, .caps, .fi, .mem, .reload, .alert] d (finishReload d) := by
  intro d
  unfold finishReload
  repeat' first
    | with_reducible exact Keeps.refl _ _
    | with_reducible assumption
    | ((try lift_lets); intro x; first | (refine Keeps.cut x ?_ ?_; (on_goal 1 => subst x); (on_goal 2 => (clear_value x; intro hx))) | (have hf := fun a => x a; clear hf; subst x) | clear_value x)
    | with_reducible refine (reloadWriteDone_keeps ..).after ?_ (by decide)
    | with_reducible refine (portServe_keeps ..).after ?_ (by decide)
    | with_reducible refine Keeps.ite ?_ ?_
    | split

theorem toTrack_keeps : ∀ d, Keeps [.arbs, .clk, .isl, .launches, .cvn, .halt, .mods, .seqs, .log] d (toTrack d) := by
  intro d
  unfold toTrack
  repeat' first
    | with_reducible exact Keeps.refl _ _
    | with_reducible assumption
    | ((try lift_lets); intro x; first | (refine Keeps.cut x ?_ ?_; (on_goal 1 => subst x); (on_goal 2 => (clear_value x; intro hx))) | (have hf := fun a => x a; clear hf; subst x) | clear_value x)
    | with_reducible refine (toStepWait_keeps ..).after ?_ (by decide)
    | with_reducible refine (updCvn_keeps ..).after ?_ (by decide)
    | with_reducible refine Keeps.ite ?_ ?_
    | split

theorem timeTrack_keeps : ∀ d, Keeps [.arbs, .clk, .isl, .launches, .cvn, .halt, .mods, .seqs, .log, .free] d (timeTrack d) := by
  intro d
  unfold timeTrack
  repeat' first
    | with_reducible exact Keeps.refl _ _
    | with_reducible assumption
    | ((try lift_lets); intro x; first | (refine Keeps.cut x ?_ ?_; (on_goal 1 => subst x); (on_goal 2 => (clear_value x; intro hx))) | (have hf := fun a => x a; clear hf; subst x) | clear_value x)
    | with_reducible refine (toStepWait_keeps ..).after ?_ (by decide)
    | with_reducible refine (toTrack_keeps ..).after ?_ (by decide)
    | with_reducible refine (updCvn_keeps ..).after ?_ (by decide)
    | with_reducible refine Keeps.drawBool (fun _ _ => ?_) ?_ (by decide)
    | with_reducible refine Keeps.ite ?_ ?_
    | split

theorem followFrame_keeps : ∀ a1 d, Keeps [.devState, .latch, .arbs, .clk, .isl, .launches, .cvn, .halt, .slots, .chans, .profs, .paths, .srcs, .mods, .seqs, .faults, .col, .log, .caps, .alert, .free] d (followFrame a1 d) := by
  intro a1 d
  unfold followFrame
  repeat' first
    | with_reducible exact Keeps.refl _ _
    | with_reducible assumption
    | ((try lift_lets); intro x; first | (refine Keeps.cut x ?_ ?_; (on_goal 1 => subst x); (on_goal 2 => (clear_value x; intro hx))) | (have hf := fun a => x a; clear hf; subst x) | clear_value x)
    | with_reducible refine (faultEnds_keeps ..).after ?_ (by decide)
    | with_reducible refine (timeTrack_keeps ..).after ?_ (by decide)
    | with_reducible refine (updCvn_keeps ..).after ?_ (by decide)
    | with_reducible refine Keeps.ite ?_ ?_
    | split

theorem forceSend_keeps : ∀ a1 d, Keeps [.arbs, .isl, .slots, .chans, .profs, .paths, .log] d (forceSend a1 d) := by
  intro a1 d
  unfold forceSend
  repeat' first
    | with_reducible exact Keeps.refl _ _
    | with_reducible assumption
    | ((try lift_lets); intro x; first | (refine Keeps.cut x ?_ ?_; (on_goal 1 => subst x); (on_goal 2 => (clear_value x; intro hx))) | (have hf := fun a => x a; clear hf; subst x) | clear_value x)
    | with_reducible refine Keeps.toQuad (fun _ => ?_) ?_ (by decide)
    | with_reducible refine (reloadForce_keeps ..).after ?_ (by decide)
    | with_reducible refine Keeps.ite ?_ ?_
    | split

theorem transmitRun_keeps : ∀ a1 a2 a3 d, Keeps [.cvn] d (transmitRun a1 a2 a3 d) := by
  intro a1 a2 a3 d
  unfold transmitRun
  repeat' first
    | with_reducible exact Keeps.refl _ _
    | with_reducible assumption
    | ((try lift_lets); intro x; first | (refine Keeps.cut x ?_ ?_; (on_goal 1 => subst x); (on_goal 2 => (clear_value x; intro hx))) | (have hf := fun a => x a; clear hf; subst x) | clear_value x)
    | with_reducible refine (updCvn_keeps ..).after ?_ (by decide)
    | with_reducible refine Keeps.ite ?_ ?_
    | split

theorem transmit_keeps : ∀ a1 a2 d, Keeps [.cvn] d (transmit a1 a2 d) := by
  intro a1 a2 d
  unfold transmit
  repeat' first
    | with_reducible exact Keeps.refl _ _
    | with_reducible assumption
    | ((try lift_lets); intro x; first | (refine Keeps.cut x ?_ ?_; (on_goal 1 => subst x); (on_goal 2 => (clear_value x; intro hx))) | (have hf := fun a => x a; clear hf; subst x) | clear_value x)
    | with_reducible refine (transmitRun_keeps ..).after ?_ (by decide)
    | with_reducible refine Keeps.ite ?_ ?_
    | split

theorem forward_keeps : ∀ a1 a2 d, Keeps [.cvn] d (forward a1 a2 d) := by
  intro a1 a2 d
  unfold forward
  repeat' first
    | with_reducible exact Keeps.refl _ _
    | with_reducible assumption
    | ((try lift_lets); intro x; first | (refine Keeps.cut x ?_ ?_; (on_goal 1 => subst x); (on_goal 2 => (clear_value x; intro hx))) | (have hf := fun a => x a; clear hf; subst x) | clear_value x)
    | with_reducible refine (transmit_keeps ..).after ?_ (by decide)
    | with_reducible refine Keeps.ite ?_ ?_
    | split

theorem nextLocal_keeps : ∀ a1 a2 d, Keeps [.clk] d (nextLocal a1 a2 d) := by
  intro a1 a2 d
  unfold nextLocal
  repeat' first
    | with_reducible exact Keeps.refl _ _
    | with_reducible assumption
    | ((try lift_lets); intro x; first | (refine Keeps.cut x ?_ ?_; (on_goal 1 => subst x); (on_goal 2 => (clear_value x; intro hx))) | (have hf := fun a => x a; clear hf; subst x) | clear_value x)
    | with_reducible refine (periodTaken_keeps ..).after ?_ (by decide)
    | with_reducible refine (waitLoc_keeps ..).after ?_ (by decide)
    | with_reducible refine Keeps.ite ?_ ?_
    | split

theorem modeSent_keeps : ∀ d, Keeps [.mode] d (modeSent d) := by
  intro d
  unfold modeSent
  repeat' first
    | with_reducible exact Keeps.refl _ _
    | with_reducible assumption
    | ((try lift_lets); intro x; first | (refine Keeps.cut x ?_ ?_; (on_goal 1 => subst x); (on_goal 2 => (clear_value x; intro hx))) | (have hf := fun a => x a; clear hf; subst x) | clear_value x)
    | with_reducible refine (updMode_keeps ..).after ?_ (by decide)
    | with_reducible refine Keeps.ite ?_ ?_
    | split

theorem sourceSends_keeps : ∀ d, Keeps [.mode, .cvn] d (sourceSends d) := by
  intro d
  unfold sourceSends
  repeat' first
    | with_reducible exact Keeps.refl _ _
    | with_reducible assumption
    | ((try lift_lets); intro x; first | (refine Keeps.cut x ?_ ?_; (on_goal 1 => subst x); (on_goal 2 => (clear_value x; intro hx))) | (have hf := fun a => x a; clear hf; subst x) | clear_value x)
    | with_reducible refine (transmitRun_keeps ..).after ?_ (by decide)
    | with_reducible refine (modeSent_keeps ..).after ?_ (by decide)
    | with_reducible refine (updCvn_keeps ..).after ?_ (by decide)
    | with_reducible refine Keeps.ite ?_ ?_
    | split

theorem modeCancel_keeps : ∀ d, Keeps [.mode] d (modeCancel d) := by
  intro d
  unfold modeCancel
  repeat' first
    | with_reducible exact Keeps.refl _ _
    | with_reducible assumption
    | ((try lift_lets); intro x; first | (refine Keeps.cut x ?_ ?_; (on_goal 1 => subst x); (on_goal 2 => (clear_value x; intro hx))) | (have hf := fun a => x a; clear hf; subst x) | clear_value x)
    | with_reducible refine (updMode_keeps ..).after ?_ (by decide)
    | with_reducible refine Keeps.ite ?_ ?_
    | split

theorem judgeVotes_keeps : ∀ a1 d, Keeps [.mode] d (judgeVotes a1 d) := by
  intro a1 d
  unfold judgeVotes
  repeat' first
    | with_reducible exact Keeps.refl _ _
    | with_reducible assumption
    | ((try lift_lets); intro x; first | (refine Keeps.cut x ?_ ?_; (on_goal 1 => subst x); (on_goal 2 => (clear_value x; intro hx))) | (have hf := fun a => x a; clear hf; subst x) | clear_value x)
    | with_reducible refine (modeCancel_keeps ..).after ?_ (by decide)
    | with_reducible refine (updMode_keeps ..).after ?_ (by decide)
    | with_reducible refine Keeps.ite ?_ ?_
    | split

theorem ringOpenCheck_keeps : ∀ d, Keeps [.devState, .latch, .arbs, .cvn, .slots, .chans, .profs, .paths, .srcs, .faults, .col, .log, .caps, .alert] d (ringOpenCheck d) := by
  intro d
  unfold ringOpenCheck
  repeat' first
    | with_reducible exact Keeps.refl _ _
    | with_reducible assumption
    | ((try lift_lets); intro x; first | (refine Keeps.cut x ?_ ?_; (on_goal 1 => subst x); (on_goal 2 => (clear_value x; intro hx))) | (have hf := fun a => x a; clear hf; subst x) | clear_value x)
    | with_reducible refine (raiseLevel_keeps ..).after ?_ (by decide)
    | with_reducible refine (updCvn_keeps ..).after ?_ (by decide)
    | with_reducible refine Keeps.ite ?_ ?_
    | split

theorem frameBoundary_keeps : ∀ d, Keeps [.devState, .latch, .mode, .arbs, .clk, .isl, .cvn, .slots, .chans, .profs, .paths, .srcs, .mods, .therm, .hk, .faults, .col, .log, .caps, .alert] d (frameBoundary d) := by
  intro d
  unfold frameBoundary
  repeat' first
    | with_reducible exact Keeps.refl _ _
    | with_reducible assumption
    | ((try lift_lets); intro x; first | (refine Keeps.cut x ?_ ?_; (on_goal 1 => subst x); (on_goal 2 => (clear_value x; intro hx))) | (have hf := fun a => x a; clear hf; subst x) | clear_value x)
    | with_reducible refine (nextLocal_keeps ..).after ?_ (by decide)
    | with_reducible refine (aliveFrame_keeps ..).after ?_ (by decide)
    | with_reducible refine (coolantFrame_keeps ..).after ?_ (by decide)
    | with_reducible refine (energyFrame_keeps ..).after ?_ (by decide)
    | with_reducible refine (sourceSends_keeps ..).after ?_ (by decide)
    | with_reducible refine (judgeVotes_keeps ..).after ?_ (by decide)
    | with_reducible refine (ringOpenCheck_keeps ..).after ?_ (by decide)
    | with_reducible refine (updHk_keeps ..).after ?_ (by decide)
    | with_reducible refine Keeps.when (fun _ => ?_) ?_
    | with_reducible refine Keeps.ite ?_ ?_
    | split

theorem frameErr_keeps : ∀ d, Keeps [.cvn] d (frameErr d) := by
  intro d
  unfold frameErr
  repeat' first
    | with_reducible exact Keeps.refl _ _
    | with_reducible assumption
    | ((try lift_lets); intro x; first | (refine Keeps.cut x ?_ ?_; (on_goal 1 => subst x); (on_goal 2 => (clear_value x; intro hx))) | (have hf := fun a => x a; clear hf; subst x) | clear_value x)
    | with_reducible refine (updCvn_keeps ..).after ?_ (by decide)
    | with_reducible refine Keeps.ite ?_ ?_
    | split

theorem strobeQuad_keeps : ∀ a1 d, Keeps [.devState, .latch, .arbs, .clk, .isl, .launches, .halt, .slots, .chans, .profs, .paths, .srcs, .faults, .col, .log, .caps, .alert] d (strobeQuad a1 d) := by
  intro a1 d
  unfold strobeQuad
  repeat' first
    | with_reducible exact Keeps.refl _ _
    | with_reducible assumption
    | ((try lift_lets); intro x; first | (refine Keeps.cut x ?_ ?_; (on_goal 1 => subst x); (on_goal 2 => (clear_value x; intro hx))) | (have hf := fun a => x a; clear hf; subst x) | clear_value x)
    | with_reducible refine (lateLaunches_keeps ..).after ?_ (by decide)
    | with_reducible refine (raise_keeps ..).after ?_ (by decide)
    | with_reducible refine Keeps.ite ?_ ?_
    | (fail_if_no_progress with_reducible refine (set_clk_keeps _ _).after ?_ (by decide))
    | split

theorem frameStrobe_keeps : ∀ d, Keeps [.devState, .latch, .arbs, .clk, .isl, .launches, .halt, .slots, .chans, .profs, .paths, .srcs, .faults, .col, .log, .caps, .alert] d (frameStrobe d) := by
  intro d
  unfold frameStrobe
  repeat' first
    | with_reducible exact Keeps.refl _ _
    | with_reducible assumption
    | ((try lift_lets); intro x; first | (refine Keeps.cut x ?_ ?_; (on_goal 1 => subst x); (on_goal 2 => (clear_value x; intro hx))) | (have hf := fun a => x a; clear hf; subst x) | clear_value x)
    | with_reducible refine (strobeQuad_keeps ..).after ?_ (by decide)
    | with_reducible refine Keeps.forEach (fun _ _ => ?_) ?_
    | with_reducible refine Keeps.ite ?_ ?_
    | split

theorem inserted_keeps : ∀ a1 d, Keeps [.paths] d (inserted a1 d) := by
  intro a1 d
  unfold inserted
  repeat' first
    | with_reducible exact Keeps.refl _ _
    | with_reducible assumption
    | ((try lift_lets); intro x; first | (refine Keeps.cut x ?_ ?_; (on_goal 1 => subst x); (on_goal 2 => (clear_value x; intro hx))) | (have hf := fun a => x a; clear hf; subst x) | clear_value x)
    | with_reducible refine (pathZero_keeps ..).after ?_ (by decide)
    | with_reducible refine (updPath_keeps ..).after ?_ (by decide)
    | with_reducible refine Keeps.ite ?_ ?_
    | split

theorem pathFeedback_keeps : ∀ a1 a2 d, Keeps [.paths] d (pathFeedback a1 a2 d) := by
  intro a1 a2 d
  unfold pathFeedback
  repeat' first
    | with_reducible exact Keeps.refl _ _
    | with_reducible assumption
    | ((try lift_lets); intro x; first | (refine Keeps.cut x ?_ ?_; (on_goal 1 => subst x); (on_goal 2 => (clear_value x; intro hx))) | (have hf := fun a => x a; clear hf; subst x) | clear_value x)
    | with_reducible refine (inserted_keeps ..).after ?_ (by decide)
    | with_reducible refine (updPath_keeps ..).after ?_ (by decide)
    | with_reducible refine Keeps.ite ?_ ?_
    | split

theorem gateFeedback_keeps : ∀ a1 a2 d, Keeps [.devState, .latch, .arbs, .isl, .slots, .quads, .chans, .profs, .paths, .srcs, .bus, .faults, .col, .log, .caps, .alert] d (gateFeedback a1 a2 d) := by
  intro a1 a2 d
  unfold gateFeedback
  repeat' first
    | with_reducible exact Keeps.refl _ _
    | with_reducible assumption
    | ((try lift_lets); intro x; first | (refine Keeps.cut x ?_ ?_; (on_goal 1 => subst x); (on_goal 2 => (clear_value x; intro hx))) | (have hf := fun a => x a; clear hf; subst x) | clear_value x)
    | with_reducible refine (busEval_keeps ..).after ?_ (by decide)
    | with_reducible refine (pathFeedback_keeps ..).after ?_ (by decide)
    | with_reducible refine (updSrc_keeps ..).after ?_ (by decide)
    | with_reducible refine Keeps.ite ?_ ?_
    | split

theorem pathRampDone_keeps : ∀ a1 d, Keeps [.clk, .paths] d (pathRampDone a1 d) := by
  intro a1 d
  unfold pathRampDone
  repeat' first
    | with_reducible exact Keeps.refl _ _
    | with_reducible assumption
    | ((try lift_lets); intro x; first | (refine Keeps.cut x ?_ ?_; (on_goal 1 => subst x); (on_goal 2 => (clear_value x; intro hx))) | (have hf := fun a => x a; clear hf; subst x) | clear_value x)
    | with_reducible refine (waitUp_keeps ..).after ?_ (by decide)
    | with_reducible refine (inserted_keeps ..).after ?_ (by decide)
    | with_reducible refine (pathZero_keeps ..).after ?_ (by decide)
    | with_reducible refine (updPath_keeps ..).after ?_ (by decide)
    | with_reducible refine Keeps.ite ?_ ?_
    | split

theorem gateRampDone_keeps : ∀ a1 d, Keeps [.devState, .latch, .arbs, .clk, .isl, .slots, .quads, .chans, .profs, .paths, .srcs, .bus, .faults, .col, .log, .caps, .alert] d (gateRampDone a1 d) := by
  intro a1 d
  unfold gateRampDone
  repeat' first
    | with_reducible exact Keeps.refl _ _
    | with_reducible assumption
    | ((try lift_lets); intro x; first | (refine Keeps.cut x ?_ ?_; (on_goal 1 => subst x); (on_goal 2 => (clear_value x; intro hx))) | (have hf := fun a => x a; clear hf; subst x) | clear_value x)
    | with_reducible refine (busEval_keeps ..).after ?_ (by decide)
    | with_reducible refine (pathRampDone_keeps ..).after ?_ (by decide)
    | with_reducible refine Keeps.ite ?_ ?_
    | split

def haltConfigParts : List Part :=
  [.devState, .latch, .loader, .check, .mode, .arbs, .isl, .slots, .quads, .chans, .profs, .paths, .srcs, .mods, .seqs, .rings, .writers, .nobind, .faults, .col, .log, .caps, .fi, .mem, .conf, .swaps, .reload, .alert]

theorem haltConfig_keeps : ∀ a1 d, Keeps haltConfigParts d (haltConfig a1 d) := by
  intro a1 d
  unfold haltConfig
  repeat' first
    | with_reducible exact Keeps.refl _ _
    | with_reducible assumption
    | ((try lift_lets); intro x; first | (refine Keeps.cut x ?_ ?_; (on_goal 1 => subst x); (on_goal 2 => (clear_value x; intro hx))) | (have hf := fun a => x a; clear hf; subst x) | clear_value x)
    | with_reducible refine (quadsWork_keeps ..).after ?_ (by decide)
    | with_reducible refine (haltGive_keeps ..).after ?_ (by decide)
    | with_reducible refine Keeps.ite ?_ ?_
    | split

theorem haltTake_keeps : ∀ a1 d, Keeps [.arbs, .cvn, .halt, .mods, .seqs] d (haltTake a1 d) := by
  intro a1 d
  unfold haltTake
  repeat' first
    | with_reducible exact Keeps.refl _ _
    | with_reducible assumption
    | ((try lift_lets); intro x; first | (refine Keeps.cut x ?_ ?_; (on_goal 1 => subst x); (on_goal 2 => (clear_value x; intro hx))) | (have hf := fun a => x a; clear hf; subst x) | clear_value x)
    | with_reducible refine (announce_keeps ..).after ?_ (by decide)
    | with_reducible refine (dropHalt_keeps ..).after ?_ (by decide)
    | with_reducible refine (updCvn_keeps ..).after ?_ (by decide)
    | with_reducible refine (updHalt_keeps ..).after ?_ (by decide)
    | with_reducible refine Keeps.ite ?_ ?_
    | split

theorem haltFrameReceive_keeps : ∀ a1 d, Keeps [.arbs, .cvn, .halt, .mods, .seqs] d (haltFrameReceive a1 d) := by
  intro a1 d
  unfold haltFrameReceive
  have h : Keeps [.arbs, .cvn, .halt, .mods, .seqs] d (forward a1 a1.bytes d) := (forward_keeps ..).mono (by decide)
  generalize forward a1 a1.bytes d = x at h
  dsimp only
  cases framePayload 2 16 0 a1.bytes with
  | none =>
    repeat' first
      | with_reducible exact h
      | with_reducible refine (frameErr_keeps ..).after ?_ (by decide)
      | with_reducible refine (updCvn_keeps ..).after ?_ (by decide)
      | with_reducible refine Keeps.ite ?_ ?_
  | some p =>
    obtain ⟨p, t⟩ := p
    dsimp only
    repeat' first
      | with_reducible exact h
      | with_reducible refine (frameErr_keeps ..).after ?_ (by decide)
      | with_reducible refine (haltTake_keeps ..).after ?_ (by decide)
      | with_reducible refine Keeps.ite ?_ ?_

theorem haltLaunches_keeps : ∀ a1 d, Keeps [.isl, .launches] d (haltLaunches a1 d) := by
  intro a1 d
  unfold haltLaunches
  repeat' first
    | with_reducible exact Keeps.refl _ _
    | with_reducible assumption
    | ((try lift_lets); intro x; first | (refine Keeps.cut x ?_ ?_; (on_goal 1 => subst x); (on_goal 2 => (clear_value x; intro hx))) | (have hf := fun a => x a; clear hf; subst x) | clear_value x)
    | with_reducible refine (launchAll_keeps ..).after ?_ (by decide)
    | with_reducible refine Keeps.ite ?_ ?_
    | split

theorem hlSkip_keeps : ∀ a1 a2 d, Keeps [.arbs, .mods, .seqs] d (hlSkip a1 a2 d) := by
  intro a1 a2 d
  unfold hlSkip
  repeat' first
    | with_reducible exact Keeps.refl _ _
    | with_reducible assumption
    | ((try lift_lets); intro x; first | (refine Keeps.cut x ?_ ?_; (on_goal 1 => subst x); (on_goal 2 => (clear_value x; intro hx))) | (have hf := fun a => x a; clear hf; subst x) | clear_value x)
    | with_reducible refine (hlGiveUp_keeps ..).after ?_ (by decide)
    | with_reducible refine (updSeq_keeps ..).after ?_ (by decide)
    | with_reducible refine Keeps.forEach (fun _ _ => ?_) ?_
    | with_reducible refine Keeps.ite ?_ ?_
    | split

theorem haltSkip_keeps : ∀ a1 a2 d, Keeps [.mode, .arbs, .halt, .mods, .seqs] d (haltSkip a1 a2 d) := by
  intro a1 a2 d
  unfold haltSkip
  repeat' first
    | with_reducible exact Keeps.refl _ _
    | with_reducible assumption
    | ((try lift_lets); intro x; first | (refine Keeps.cut x ?_ ?_; (on_goal 1 => subst x); (on_goal 2 => (clear_value x; intro hx))) | (have hf := fun a => x a; clear hf; subst x) | clear_value x)
    | with_reducible refine (commitLapse_keeps ..).after ?_ (by decide)
    | with_reducible refine (hlSkip_keeps ..).after ?_ (by decide)
    | with_reducible refine (hlRebook_keeps ..).after ?_ (by decide)
    | with_reducible refine (updHalt_keeps ..).after ?_ (by decide)
    | with_reducible refine Keeps.ite ?_ ?_
    | split

theorem haltPredict_keeps : ∀ d, Keeps [.mode, .arbs, .clk, .halt, .mods, .seqs] d (haltPredict d) := by
  intro d
  unfold haltPredict
  repeat' first
    | with_reducible exact Keeps.refl _ _
    | with_reducible assumption
    | ((try lift_lets); intro x; first | (refine Keeps.cut x ?_ ?_; (on_goal 1 => subst x); (on_goal 2 => (clear_value x; intro hx))) | (have hf := fun a => x a; clear hf; subst x) | clear_value x)
    | with_reducible refine (waitLoc_keeps ..).after ?_ (by decide)
    | with_reducible refine (announce_keeps ..).after ?_ (by decide)
    | with_reducible refine (haltSkip_keeps ..).after ?_ (by decide)
    | with_reducible refine Keeps.ite ?_ ?_
    | split

theorem tadpoleHalt_keeps : ∀ a1 d, Keeps [.devState, .latch, .arbs, .isl, .slots, .chans, .profs, .paths, .srcs, .faults, .col, .log, .caps, .alert] d (tadpoleHalt a1 d) := by
  intro a1 d
  unfold tadpoleHalt
  repeat' first
    | with_reducible exact Keeps.refl _ _
    | with_reducible assumption
    | ((try lift_lets); intro x; first | (refine Keeps.cut x ?_ ?_; (on_goal 1 => subst x); (on_goal 2 => (clear_value x; intro hx))) | (have hf := fun a => x a; clear hf; subst x) | clear_value x)
    | with_reducible refine (shed_keeps ..).after ?_ (by decide)
    | with_reducible refine (updSlot_keeps _ _ ?_).after ?_ (by decide)
    | with_reducible refine Keeps.ite ?_ ?_
    | (intro s h; first | exact h | (simp only [SlotSt.apart] at *; done) | (dsimp only; split <;> exact h) | (cases s; simp_all [SlotSt.apart]; done))
    | split

theorem probation_keeps : ∀ d, Keeps [.devState, .latch, .arbs, .isl, .slots, .chans, .profs, .paths, .srcs, .faults, .col, .log, .caps, .alert] d (probation d) := by
  intro d
  unfold probation
  repeat' first
    | with_reducible exact Keeps.refl _ _
    | with_reducible assumption
    | ((try lift_lets); intro x; first | (refine Keeps.cut x ?_ ?_; (on_goal 1 => subst x); (on_goal 2 => (clear_value x; intro hx))) | (have hf := fun a => x a; clear hf; subst x) | clear_value x)
    | with_reducible refine (tadpoleHalt_keeps ..).after ?_ (by decide)
    | with_reducible refine Keeps.forEach (fun _ _ => ?_) ?_
    | with_reducible refine Keeps.ite ?_ ?_
    | (fail_if_no_progress with_reducible refine (set_slots_keeps _ ?_).after ?_ (by decide))
    | with_reducible refine map_apart _ _ ?_
    | with_reducible refine mapAll_apart _ _ ?_
    | (intro n s h; first | (split <;> exact h) | (dsimp only; split <;> exact h))
    | (intro s h; first | exact h | (simp only [SlotSt.apart] at *; done) | (dsimp only; split <;> exact h) | (cases s; simp_all [SlotSt.apart]; done))
    | split

end Sys2Proof.Machine
end

