-- ==== Sys2Proof/Laws/Keeps9.lean ====
section
/-! SUPPORT. Sys2Proof/Laws/Keeps9.lean: what each operation of the model leaves unchanged (one lemma per operation, in the order of their use). -/

namespace Sys2Proof.Machine

set_option linter.unusedTactic false
set_option linter.unreachableTactic false
set_option linter.unusedVariables false

theorem haltRampDown_keeps : ∀ d, Keeps [.devState, .latch, .arbs, .clk, .isl, .halt, .slots, .chans, .profs, .paths, .srcs, .faults, .col, .log, .caps, .alert] d (haltRampDown d) := by
  intro d
  unfold haltRampDown
  repeat' first
    | with_reducible exact Keeps.refl _ _
    | with_reducible assumption
    | ((try lift_lets); intro x; first | (refine Keeps.cut x ?_ ?_; (on_goal 1 => subst x); (on_goal 2 => (clear_value x; intro hx))) | (have hf := fun a => x a; clear hf; subst x) | clear_value x)
    | with_reducible refine (waitLoc_keeps ..).after ?_ (by decide)
    | with_reducible refine (probation_keeps ..).after ?_ (by decide)
    | with_reducible refine (updHalt_keeps ..).after ?_ (by decide)
    | with_reducible refine Keeps.ite ?_ ?_
    | split

theorem haltRampFix_keeps : ∀ d, Keeps [.mode, .arbs, .clk, .isl, .launches, .halt, .mods, .seqs, .log] d (haltRampFix d) := by
  intro d
  unfold haltRampFix
  repeat' first
    | with_reducible exact Keeps.refl _ _
    | with_reducible assumption
    | ((try lift_lets); intro x; first | (refine Keeps.cut x ?_ ?_; (on_goal 1 => subst x); (on_goal 2 => (clear_value x; intro hx))) | (have hf := fun a => x a; clear hf; subst x) | clear_value x)
    | with_reducible refine (waitLoc_keeps ..).after ?_ (by decide)
    | with_reducible refine (announce_keeps ..).after ?_ (by decide)
    | with_reducible refine (logEvent_keeps ..).after ?_ (by decide)
    | with_reducible refine (commitLapse_keeps ..).after ?_ (by decide)
    | with_reducible refine (hlSkip_keeps ..).after ?_ (by decide)
    | with_reducible refine (haltLaunches_keeps ..).after ?_ (by decide)
    | with_reducible refine (updHalt_keeps ..).after ?_ (by decide)
    | with_reducible refine Keeps.ite ?_ ?_
    | split

theorem halvingClear_keeps : ∀ d, Keeps [.quads, .srcs] d (halvingClear d) := by
  intro d
  unfold halvingClear
  repeat' first
    | with_reducible exact Keeps.refl _ _
    | with_reducible assumption
    | ((try lift_lets); intro x; first | (refine Keeps.cut x ?_ ?_; (on_goal 1 => subst x); (on_goal 2 => (clear_value x; intro hx))) | (have hf := fun a => x a; clear hf; subst x) | clear_value x)
    | with_reducible refine Keeps.ite ?_ ?_
    | (fail_if_no_progress with_reducible refine (set_quads_keeps _ _).after ?_ (by decide))
    | (fail_if_no_progress with_reducible refine (set_srcs_keeps _ _).after ?_ (by decide))
    | split

theorem halvingRelease_keeps : ∀ d, Keeps [.clk, .quads, .srcs, .bus] d (halvingRelease d) := by
  intro d
  unfold halvingRelease
  repeat' first
    | with_reducible exact Keeps.refl _ _
    | with_reducible assumption
    | ((try lift_lets); intro x; first | (refine Keeps.cut x ?_ ?_; (on_goal 1 => subst x); (on_goal 2 => (clear_value x; intro hx))) | (have hf := fun a => x a; clear hf; subst x) | clear_value x)
    | with_reducible refine (halvingClear_keeps ..).after ?_ (by decide)
    | with_reducible refine (waitUp_keeps ..).after ?_ (by decide)
    | with_reducible refine (updBus_keeps ..).after ?_ (by decide)
    | with_reducible refine Keeps.ite ?_ ?_
    | split

theorem halvingSustained_keeps : ∀ d, Keeps [.devState, .latch, .arbs, .clk, .slots, .chans, .profs, .paths, .srcs, .bus, .faults, .col, .log, .caps, .alert] d (halvingSustained d) := by
  intro d
  unfold halvingSustained
  repeat' first
    | with_reducible exact Keeps.refl _ _
    | with_reducible assumption
    | ((try lift_lets); intro x; first | (refine Keeps.cut x ?_ ?_; (on_goal 1 => subst x); (on_goal 2 => (clear_value x; intro hx))) | (have hf := fun a => x a; clear hf; subst x) | clear_value x)
    | with_reducible refine (waitUp_keeps ..).after ?_ (by decide)
    | with_reducible refine (raise_keeps ..).after ?_ (by decide)
    | with_reducible refine (updBus_keeps ..).after ?_ (by decide)
    | with_reducible refine Keeps.forEach (fun _ _ => ?_) ?_
    | with_reducible refine Keeps.ite ?_ ?_
    | split

theorem handbackStart_keeps : ∀ d, Keeps [.cvn] d (handbackStart d) := by
  intro d
  unfold handbackStart
  repeat' first
    | with_reducible exact Keeps.refl _ _
    | with_reducible assumption
    | ((try lift_lets); intro x; first | (refine Keeps.cut x ?_ ?_; (on_goal 1 => subst x); (on_goal 2 => (clear_value x; intro hx))) | (have hf := fun a => x a; clear hf; subst x) | clear_value x)
    | with_reducible refine (rollPush_keeps ..).after ?_ (by decide)
    | with_reducible refine Keeps.ite ?_ ?_
    | split

theorem handbackSwitch_keeps : ∀ d, Keeps [.devState, .latch, .arbs, .clk, .cvn, .halt, .slots, .chans, .profs, .paths, .srcs, .seqs, .faults, .col, .log, .caps, .alert] d (handbackSwitch d) := by
  intro d
  unfold handbackSwitch
  repeat' first
    | with_reducible exact Keeps.refl _ _
    | with_reducible assumption
    | ((try lift_lets); intro x; first | (refine Keeps.cut x ?_ ?_; (on_goal 1 => subst x); (on_goal 2 => (clear_value x; intro hx))) | (have hf := fun a => x a; clear hf; subst x) | clear_value x)
    | with_reducible refine (waitLoc_keeps ..).after ?_ (by decide)
    | with_reducible refine (continueHalts_keeps ..).after ?_ (by decide)
    | with_reducible refine (sourceRef_keeps ..).after ?_ (by decide)
    | with_reducible refine (becomeSource_keeps ..).after ?_ (by decide)
    | with_reducible refine (updHalt_keeps ..).after ?_ (by decide)
    | with_reducible refine (updCvn_keeps ..).after ?_ (by decide)
    | with_reducible refine Keeps.ite ?_ ?_
    | split

theorem handoverTimeout_keeps : ∀ d, Keeps [.devState, .latch, .arbs, .clk, .isl, .slots, .quads, .chans, .profs, .paths, .srcs, .bus, .faults, .col, .log, .caps, .alert] d (handoverTimeout d) := by
  intro d
  unfold handoverTimeout
  repeat' first
    | with_reducible exact Keeps.refl _ _
    | with_reducible assumption
    | ((try lift_lets); intro x; first | (refine Keeps.cut x ?_ ?_; (on_goal 1 => subst x); (on_goal 2 => (clear_value x; intro hx))) | (have hf := fun a => x a; clear hf; subst x) | clear_value x)
    | with_reducible refine (waitUp_keeps ..).after ?_ (by decide)
    | with_reducible refine (busEval_keeps ..).after ?_ (by decide)
    | with_reducible refine (srcHoDone_keeps ..).after ?_ (by decide)
    | with_reducible refine (setBus_keeps ..).after ?_ (by decide)
    | with_reducible refine Keeps.forEach (fun _ _ => ?_) ?_
    | with_reducible refine Keeps.ite ?_ ?_
    | split

theorem judgeRefs_keeps : ∀ d, Keeps [.devState, .latch, .arbs, .slots, .chans, .profs, .paths, .srcs, .hk, .faults, .col, .log, .caps, .alert] d (judgeRefs d) := by
  intro d
  unfold judgeRefs
  repeat' first
    | with_reducible exact Keeps.refl _ _
    | with_reducible assumption
    | ((try lift_lets); intro x; first | (refine Keeps.cut x ?_ ?_; (on_goal 1 => subst x); (on_goal 2 => (clear_value x; intro hx))) | (have hf := fun a => x a; clear hf; subst x) | clear_value x)
    | with_reducible refine (raiseLevel_keeps ..).after ?_ (by decide)
    | with_reducible refine (faultEnds_keeps ..).after ?_ (by decide)
    | with_reducible refine (updHk_keeps ..).after ?_ (by decide)
    | with_reducible refine Keeps.ite ?_ ?_
    | split

theorem judgeTemps_keeps : ∀ d, Keeps [.devState, .latch, .arbs, .slots, .chans, .profs, .paths, .srcs, .hk, .faults, .col, .log, .caps, .alert] d (judgeTemps d) := by
  intro d
  unfold judgeTemps
  repeat' first
    | with_reducible exact Keeps.refl _ _
    | with_reducible assumption
    | ((try lift_lets); intro x; first | (refine Keeps.cut x ?_ ?_; (on_goal 1 => subst x); (on_goal 2 => (clear_value x; intro hx))) | (have hf := fun a => x a; clear hf; subst x) | clear_value x)
    | with_reducible refine (raiseLevel_keeps ..).after ?_ (by decide)
    | with_reducible refine (faultEnds_keeps ..).after ?_ (by decide)
    | with_reducible refine (updHk_keeps ..).after ?_ (by decide)
    | with_reducible refine Keeps.ite ?_ ?_
    | split

theorem judgeSensors_keeps : ∀ d, Keeps [.devState, .latch, .arbs, .slots, .chans, .profs, .paths, .srcs, .hk, .faults, .col, .log, .caps, .alert] d (judgeSensors d) := by
  intro d
  unfold judgeSensors
  repeat' first
    | with_reducible exact Keeps.refl _ _
    | with_reducible assumption
    | ((try lift_lets); intro x; first | (refine Keeps.cut x ?_ ?_; (on_goal 1 => subst x); (on_goal 2 => (clear_value x; intro hx))) | (have hf := fun a => x a; clear hf; subst x) | clear_value x)
    | with_reducible refine (breakSensor_keeps ..).after ?_ (by decide)
    | with_reducible refine Keeps.forEach (fun _ _ => ?_) ?_
    | with_reducible refine Keeps.ite ?_ ?_
    | (fail_if_no_progress with_reducible refine (set_hk_keeps _ _).after ?_ (by decide))
    | split

theorem judgeSrcFb_keeps : ∀ a1 d, Keeps [.arbs, .srcs, .hk, .log] d (judgeSrcFb a1 d) := by
  intro a1 d
  unfold judgeSrcFb
  repeat' first
    | with_reducible exact Keeps.refl _ _
    | with_reducible assumption
    | ((try lift_lets); intro x; first | (refine Keeps.cut x ?_ ?_; (on_goal 1 => subst x); (on_goal 2 => (clear_value x; intro hx))) | (have hf := fun a => x a; clear hf; subst x) | clear_value x)
    | with_reducible refine (fbEvent_keeps ..).after ?_ (by decide)
    | with_reducible refine (updSrc_keeps ..).after ?_ (by decide)
    | with_reducible refine (updHk_keeps ..).after ?_ (by decide)
    | with_reducible refine Keeps.ite ?_ ?_
    | split

theorem judgePathFb_keeps : ∀ a1 d, Keeps [.arbs, .paths, .hk, .log] d (judgePathFb a1 d) := by
  intro a1 d
  unfold judgePathFb
  repeat' first
    | with_reducible exact Keeps.refl _ _
    | with_reducible assumption
    | ((try lift_lets); intro x; first | (refine Keeps.cut x ?_ ?_; (on_goal 1 => subst x); (on_goal 2 => (clear_value x; intro hx))) | (have hf := fun a => x a; clear hf; subst x) | clear_value x)
    | with_reducible refine (fbEvent_keeps ..).after ?_ (by decide)
    | with_reducible refine (updPath_keeps ..).after ?_ (by decide)
    | with_reducible refine (updHk_keeps ..).after ?_ (by decide)
    | with_reducible refine Keeps.ite ?_ ?_
    | split

theorem judgeRail_keeps : ∀ a1 d, Keeps [.devState, .latch, .arbs, .slots, .chans, .profs, .paths, .srcs, .hk, .faults, .col, .log, .caps, .alert] d (judgeRail a1 d) := by
  intro a1 d
  unfold judgeRail
  repeat' first
    | with_reducible exact Keeps.refl _ _
    | with_reducible assumption
    | ((try lift_lets); intro x; first | (refine Keeps.cut x ?_ ?_; (on_goal 1 => subst x); (on_goal 2 => (clear_value x; intro hx))) | (have hf := fun a => x a; clear hf; subst x) | clear_value x)
    | with_reducible refine (raiseLevel_keeps ..).after ?_ (by decide)
    | with_reducible refine (faultEnds_keeps ..).after ?_ (by decide)
    | with_reducible refine (updHk_keeps ..).after ?_ (by decide)
    | with_reducible refine Keeps.ite ?_ ?_
    | split

theorem hkRoundComplete_keeps : ∀ d, Keeps [.devState, .latch, .arbs, .slots, .chans, .profs, .paths, .srcs, .hk, .faults, .col, .log, .caps, .alert] d (hkRoundComplete d) := by
  intro d
  unfold hkRoundComplete
  repeat' first
    | with_reducible exact Keeps.refl _ _
    | with_reducible assumption
    | ((try lift_lets); intro x; first | (refine Keeps.cut x ?_ ?_; (on_goal 1 => subst x); (on_goal 2 => (clear_value x; intro hx))) | (have hf := fun a => x a; clear hf; subst x) | clear_value x)
    | with_reducible refine (judgeRefs_keeps ..).after ?_ (by decide)
    | with_reducible refine (compensate_keeps ..).after ?_ (by decide)
    | with_reducible refine (judgeTemps_keeps ..).after ?_ (by decide)
    | with_reducible refine (judgeSensors_keeps ..).after ?_ (by decide)
    | with_reducible refine (judgeSrcFb_keeps ..).after ?_ (by decide)
    | with_reducible refine (judgePathFb_keeps ..).after ?_ (by decide)
    | with_reducible refine (judgeRail_keeps ..).after ?_ (by decide)
    | with_reducible refine (updHk_keeps ..).after ?_ (by decide)
    | with_reducible refine Keeps.forEach (fun _ _ => ?_) ?_
    | with_reducible refine Keeps.ite ?_ ?_
    | split

theorem roundStart_keeps : ∀ a1 d, Keeps [.arbs, .hk] d (roundStart a1 d) := by
  intro a1 d
  unfold roundStart
  repeat' first
    | with_reducible exact Keeps.refl _ _
    | with_reducible assumption
    | ((try lift_lets); intro x; first | (refine Keeps.cut x ?_ ?_; (on_goal 1 => subst x); (on_goal 2 => (clear_value x; intro hx))) | (have hf := fun a => x a; clear hf; subst x) | clear_value x)
    | with_reducible refine (arbWithdraw_keeps ..).after ?_ (by decide)
    | with_reducible refine (arbRequest_keeps ..).after ?_ (by decide)
    | with_reducible refine (updHk_keeps ..).after ?_ (by decide)
    | with_reducible refine Keeps.ite ?_ ?_
    | split

theorem hkRoundStart_keeps : ∀ d, Keeps [.arbs, .clk, .hk] d (hkRoundStart d) := by
  intro d
  unfold hkRoundStart
  repeat' first
    | with_reducible exact Keeps.refl _ _
    | with_reducible assumption
    | ((try lift_lets); intro x; first | (refine Keeps.cut x ?_ ?_; (on_goal 1 => subst x); (on_goal 2 => (clear_value x; intro hx))) | (have hf := fun a => x a; clear hf; subst x) | clear_value x)
    | with_reducible refine (waitLoc_keeps ..).after ?_ (by decide)
    | with_reducible refine (roundStart_keeps ..).after ?_ (by decide)
    | with_reducible refine (updHk_keeps ..).after ?_ (by decide)
    | with_reducible refine Keeps.forEach (fun _ _ => ?_) ?_
    | with_reducible refine Keeps.ite ?_ ?_
    | split

theorem hlRequest_keeps : ∀ d, Keeps [.arbs] d (hlRequest d) := by
  intro d
  unfold hlRequest
  repeat' first
    | with_reducible exact Keeps.refl _ _
    | with_reducible assumption
    | ((try lift_lets); intro x; first | (refine Keeps.cut x ?_ ?_; (on_goal 1 => subst x); (on_goal 2 => (clear_value x; intro hx))) | (have hf := fun a => x a; clear hf; subst x) | clear_value x)
    | with_reducible refine (arbRequest_keeps ..).after ?_ (by decide)
    | with_reducible refine Keeps.forEach (fun _ _ => ?_) ?_
    | with_reducible refine Keeps.ite ?_ ?_
    | split

theorem hlSettle_keeps : ∀ a1 d, Keeps [.arbs, .mods, .seqs, .rings, .writers] d (hlSettle a1 d) := by
  intro a1 d
  unfold hlSettle
  repeat' first
    | with_reducible exact Keeps.refl _ _
    | with_reducible assumption
    | ((try lift_lets); intro x; first | (refine Keeps.cut x ?_ ?_; (on_goal 1 => subst x); (on_goal 2 => (clear_value x; intro hx))) | (have hf := fun a => x a; clear hf; subst x) | clear_value x)
    | with_reducible refine (seqNext_keeps ..).after ?_ (by decide)
    | with_reducible refine (hlGiveUp_keeps ..).after ?_ (by decide)
    | with_reducible refine Keeps.forEach (fun _ _ => ?_) ?_
    | with_reducible refine Keeps.ite ?_ ?_
    | split

theorem holdBy_keeps : ∀ a1 d, Keeps [.devState, .latch, .arbs, .slots, .chans, .profs, .paths, .srcs, .faults, .col, .log, .caps, .alert] d (holdBy a1 d) := by
  intro a1 d
  unfold holdBy
  repeat' first
    | with_reducible exact Keeps.refl _ _
    | with_reducible assumption
    | ((try lift_lets); intro x; first | (refine Keeps.cut x ?_ ?_; (on_goal 1 => subst x); (on_goal 2 => (clear_value x; intro hx))) | (have hf := fun a => x a; clear hf; subst x) | clear_value x)
    | with_reducible refine (raise_keeps ..).after ?_ (by decide)
    | with_reducible refine (updFault_keeps ..).after ?_ (by decide)
    | with_reducible refine Keeps.ite ?_ ?_
    | split

theorem hostStopWrite_keeps : ∀ a1 a2 d, Keeps [.isl, .chans] d (hostStopWrite a1 a2 d) := by
  intro a1 a2 d
  unfold hostStopWrite
  repeat' first
    | with_reducible exact Keeps.refl _ _
    | with_reducible assumption
    | ((try lift_lets); intro x; first | (refine Keeps.cut x ?_ ?_; (on_goal 1 => subst x); (on_goal 2 => (clear_value x; intro hx))) | (have hf := fun a => x a; clear hf; subst x) | clear_value x)
    | with_reducible refine (send_keeps ..).after ?_ (by decide)
    | with_reducible refine (updChan_keeps ..).after ?_ (by decide)
    | with_reducible refine Keeps.ite ?_ ?_
    | split

theorem initMemory_keeps : ∀ d, Keeps [.mem] d (initMemory d) := by
  intro d
  unfold initMemory
  refine updMem_keeps (S := [.mem]) _ ?_ ?_
  · intro s; refine ⟨fun h => ?_, fun h => ?_, fun h => ?_⟩ <;> first | rfl | cases h
  · intro h
    refine ⟨mreplace_wf _ _ _ _ h.1 ?_ (fun p hp => ?_) (by decide), h.2.1⟩
    · refine (wf_iff _).mpr ⟨List.pairwise_map.mpr (List.pairwise_lt_range.imp fun h => ?_), fun p hp => ?_⟩
      · simp only; omega
      · obtain ⟨j, -, rfl⟩ := List.mem_map.mp hp
        exact (by decide : (0x80#8) ≠ 0)
    · obtain ⟨j, hj, rfl⟩ := List.mem_map.mp hp
      have := List.mem_range.mp hj
      simp only; omega

theorem logCheck_keeps : ∀ d, Keeps [.start, .arbs, .log, .mem] d (logCheck d) := by
  intro d
  unfold logCheck
  repeat' first
    | with_reducible exact Keeps.refl _ _
    | with_reducible assumption
    | ((try lift_lets); intro x; first | (refine Keeps.cut x ?_ ?_; (on_goal 1 => subst x); (on_goal 2 => (clear_value x; intro hx))) | (have hf := fun a => x a; clear hf; subst x) | clear_value x)
    | with_reducible refine (logEvent_keeps ..).after ?_ (by decide)
    | with_reducible refine (updCol_keeps (S := [.log]) _ ?_).after ?_ (by decide)
    | with_reducible refine (updMem_keeps (S := [.mem]) _ ?_ ?_).after ?_ (by decide)
    | with_reducible refine (updStart_keeps (S := [.start]) _ ?_).after ?_ (by decide)
    | with_reducible refine Keeps.ite ?_ ?_
    | (intro s; refine ⟨fun h => ?_, fun h => ?_, fun h => ?_⟩ <;> first | rfl | (cases h; done) | (split <;> rfl) | (simp; done))
    | (refine ⟨fun h => ?_, fun h => ?_, fun h => ?_⟩ <;> first | rfl | (cases h; done) | (split <;> rfl) | (simp; done))
    | (intro s; refine ⟨fun h => ?_, fun h => ?_, fun h => ?_, fun h => ?_⟩ <;> first | rfl | (cases h; done) | (split <;> rfl) | (simp; done))
    | (refine ⟨fun h => ?_, fun h => ?_, fun h => ?_, fun h => ?_⟩ <;> first | rfl | (cases h; done) | (split <;> rfl) | (simp; done))
    | (intro h; refine ⟨?_, ?_⟩ <;> first | exact h.1 | exact h.2.1 | exact msets_wf _ _ _ h.1 | exact msets_wf _ _ _ h.2.1 | exact wf_nil | exact filter_wf _ _ h.1 | exact composeMem_wf _ _ _ h.2.2.1)
    | split

theorem refSelect_keeps : ∀ a1 d, Keeps [.cvn] d (refSelect a1 d) := by
  intro a1 d
  unfold refSelect
  repeat' first
    | with_reducible exact Keeps.refl _ _
    | with_reducible assumption
    | ((try lift_lets); intro x; first | (refine Keeps.cut x ?_ ?_; (on_goal 1 => subst x); (on_goal 2 => (clear_value x; intro hx))) | (have hf := fun a => x a; clear hf; subst x) | clear_value x)
    | with_reducible refine (updCvn_keeps ..).after ?_ (by decide)
    | with_reducible refine Keeps.ite ?_ ?_
    | split

theorem initComplete_keeps : ∀ a1 a2 d, Keeps [.start, .devState, .latch, .loader, .bootp, .arbs, .clk, .launches, .cvn, .slots, .chans, .profs, .paths, .srcs, .mods, .faults, .col, .log, .caps, .mem, .alert] d (initComplete a1 a2 d) := by
  intro a1 a2 d
  unfold initComplete
  refine Keeps.ite (Keeps.ite (Keeps.refl _ _) ?_) (Keeps.refl _ _)
  have h0 : Keeps [.start, .devState, .latch, .loader, .bootp, .arbs, .clk, .launches, .cvn, .slots, .chans, .profs, .paths, .srcs, .mods, .faults, .col, .log, .caps, .mem, .alert] d ({ d with clk := { d.clk with qtime := d.clk.qtime.map fun _ => d.clk.loc } }.updIsl fun x => { x with clkRun := a2 }) :=
    ⟨fun p hp => (by cases p <;> first | rfl | cases hp), fun h => h, fun h => h⟩
  generalize ({ d with clk := { d.clk with qtime := d.clk.qtime.map fun _ => d.clk.loc } }.updIsl fun x => { x with clkRun := a2 }) = x at h0
  have h1 : Keeps [.start, .devState, .latch, .loader, .bootp, .arbs, .clk, .launches, .cvn, .slots, .chans, .profs, .paths, .srcs, .mods, .faults, .col, .log, .caps, .mem, .alert] d (initMemory (logCheck (refSelect a1 x))) :=
    (initMemory_keeps ..).after ((logCheck_keeps ..).after ((refSelect_keeps ..).after h0 (by decide)) (by decide)) (by decide)
  generalize initMemory (logCheck (refSelect a1 x)) = y at h1
  dsimp only
  refine (colStart_keeps ..).after (Keeps.forEach (fun _ _ => (raise_keeps ..).mono (by decide)) ((enterLoad_keeps ..).after ((updCvn_keeps ..).after
    ((set_mods_keeps _ _).after ((updStart_keeps (S := [.start]) _ ?_).after h1 (by decide)) (by decide)) (by decide)) (by decide))) (by decide)
  intro s; refine ⟨fun h => ?_, fun h => ?_, fun h => ?_⟩ <;> first | rfl | cases h

theorem seqYield_keeps : ∀ a1 d, Keeps [.arbs] d (seqYield a1 d) := by
  intro a1 d
  unfold seqYield
  repeat' first
    | with_reducible exact Keeps.refl _ _
    | with_reducible assumption
    | ((try lift_lets); intro x; first | (refine Keeps.cut x ?_ ?_; (on_goal 1 => subst x); (on_goal 2 => (clear_value x; intro hx))) | (have hf := fun a => x a; clear hf; subst x) | clear_value x)
    | with_reducible refine (arbWithdraw_keeps ..).after ?_ (by decide)
    | with_reducible refine Keeps.forEach (fun _ _ => ?_) ?_
    | with_reducible refine Keeps.ite ?_ ?_
    | split

theorem injectNow_keeps : ∀ a1 a2 a3 a4 d, Keeps [.arbs, .mods] d (injectNow a1 a2 a3 a4 d) := by
  intro a1 a2 a3 a4 d
  unfold injectNow
  repeat' first
    | with_reducible exact Keeps.refl _ _
    | with_reducible assumption
    | ((try lift_lets); intro x; first | (refine Keeps.cut x ?_ ?_; (on_goal 1 => subst x); (on_goal 2 => (clear_value x; intro hx))) | (have hf := fun a => x a; clear hf; subst x) | clear_value x)
    | with_reducible refine (arbRequest_keeps ..).after ?_ (by decide)
    | with_reducible refine (seqYield_keeps ..).after ?_ (by decide)
    | with_reducible refine (updMod_keeps ..).after ?_ (by decide)
    | with_reducible refine Keeps.ite ?_ ?_
    | split

theorem inject_keeps : ∀ a1 d, Keeps [.arbs, .mods, .sup] d (inject a1 d) := by
  intro a1 d
  unfold inject
  repeat' first
    | with_reducible exact Keeps.refl _ _
    | with_reducible assumption
    | ((try lift_lets); intro x; first | (refine Keeps.cut x ?_ ?_; (on_goal 1 => subst x); (on_goal 2 => (clear_value x; intro hx))) | (have hf := fun a => x a; clear hf; subst x) | clear_value x)
    | with_reducible refine Keeps.blockWrite (fun _ _ _ => ?_) ?_ (by decide)
    | with_reducible refine Keeps.ifOk (fun _ _ => ?_) ?_
    | with_reducible refine (injectNow_keeps ..).after ?_ (by decide)
    | with_reducible refine Keeps.ite ?_ ?_
    | split

theorem insertionSlot_keeps : ∀ d, Keeps [.clk, .cvn] d (insertionSlot d) := by
  intro d
  unfold insertionSlot
  split
  · exact (updCvn_keeps ..).after ((transmit_keeps ..).after ((waitLoc_keeps ..).mono (by decide)) (by decide)) (by decide)
  · exact Keeps.refl _ _

theorem instantTrip_keeps : ∀ a1 d, Keeps [.devState, .latch, .arbs, .slots, .chans, .profs, .paths, .srcs, .faults, .col, .log, .caps, .alert] d (instantTrip a1 d) := by
  intro a1 d
  unfold instantTrip
  repeat' first
    | with_reducible exact Keeps.refl _ _
    | with_reducible assumption
    | ((try lift_lets); intro x; first | (refine Keeps.cut x ?_ ?_; (on_goal 1 => subst x); (on_goal 2 => (clear_value x; intro hx))) | (have hf := fun a => x a; clear hf; subst x) | clear_value x)
    | with_reducible refine (trip_keeps ..).after ?_ (by decide)
    | with_reducible refine (updChan_keeps ..).after ?_ (by decide)
    | with_reducible refine Keeps.ite ?_ ?_
    | split

theorem joinRetry_keeps : ∀ d, Keeps [.clk, .cvn] d (joinRetry d) := by
  intro d
  unfold joinRetry
  repeat' first
    | with_reducible exact Keeps.refl _ _
    | with_reducible assumption
    | ((try lift_lets); intro x; first | (refine Keeps.cut x ?_ ?_; (on_goal 1 => subst x); (on_goal 2 => (clear_value x; intro hx))) | (have hf := fun a => x a; clear hf; subst x) | clear_value x)
    | with_reducible refine (waitLoc_keeps ..).after ?_ (by decide)
    | with_reducible refine (rollPush_keeps ..).after ?_ (by decide)
    | with_reducible refine (updCvn_keeps ..).after ?_ (by decide)
    | with_reducible refine Keeps.ite ?_ ?_
    | split

theorem runAlone_keeps : ∀ d, Keeps [.mode, .arbs, .cvn, .halt, .mods, .seqs] d (runAlone d) := by
  intro d
  unfold runAlone
  repeat' first
    | with_reducible exact Keeps.refl _ _
    | with_reducible assumption
    | ((try lift_lets); intro x; first | (refine Keeps.cut x ?_ ?_; (on_goal 1 => subst x); (on_goal 2 => (clear_value x; intro hx))) | (have hf := fun a => x a; clear hf; subst x) | clear_value x)
    | with_reducible refine (aloneHalt_keeps ..).after ?_ (by decide)
    | with_reducible refine (dropHalt_keeps ..).after ?_ (by decide)
    | with_reducible refine (aloneMode_keeps ..).after ?_ (by decide)
    | with_reducible refine (updCvn_keeps ..).after ?_ (by decide)
    | with_reducible refine (updMode_keeps ..).after ?_ (by decide)
    | with_reducible refine Keeps.ite ?_ ?_
    | split

theorem joinTimeout_keeps : ∀ d, Keeps [.start, .mode, .arbs, .clk, .isl, .launches, .cvn, .halt, .mods, .seqs] d (joinTimeout d) := by
  intro d
  unfold joinTimeout
  repeat' first
    | with_reducible exact Keeps.refl _ _
    | with_reducible assumption
    | ((try lift_lets); intro x; first | (refine Keeps.cut x ?_ ?_; (on_goal 1 => subst x); (on_goal 2 => (clear_value x; intro hx))) | (have hf := fun a => x a; clear hf; subst x) | clear_value x)
    | with_reducible refine (waitUp_keeps ..).after ?_ (by decide)
    | with_reducible refine (resolve_keeps ..).after ?_ (by decide)
    | with_reducible refine (runAlone_keeps ..).after ?_ (by decide)
    | with_reducible refine (updCvn_keeps ..).after ?_ (by decide)
    | with_reducible refine Keeps.ite ?_ ?_
    | split

theorem keepTimer_keeps : ∀ a1 d, Keeps [.clk, .profs] d (keepTimer a1 d) := by
  intro a1 d
  unfold keepTimer
  repeat' first
    | with_reducible exact Keeps.refl _ _
    | with_reducible assumption
    | ((try lift_lets); intro x; first | (refine Keeps.cut x ?_ ?_; (on_goal 1 => subst x); (on_goal 2 => (clear_value x; intro hx))) | (have hf := fun a => x a; clear hf; subst x) | clear_value x)
    | with_reducible refine (waitUp_keeps ..).after ?_ (by decide)
    | with_reducible refine (updProf_keeps ..).after ?_ (by decide)
    | with_reducible refine Keeps.ite ?_ ?_
    | split

theorem quadTake_keeps {S : List Part} {d e : Device} {q : Quad} {new : Memory} (k : Keeps S d e) (hs : sub [.devState, .latch, .arbs, .isl, .slots, .quads, .chans, .profs, .paths, .srcs, .mods, .seqs, .rings, .writers, .nobind, .faults, .col, .log, .caps, .conf, .alert] S = true) (ha : d.memOk → new.wf = true) :
    Keeps S d (quadTake q new e) := by
  unfold quadTake
  dsimp only
  have hc : sub [.conf] S = true := by
    have := List.all_eq_true.1 hs .conf (by decide)
    simp [sub, List.contains_iff_mem.1 this]
  refine Keeps.trans (e := if mergeBase e.memory.conf new (quadRanges q ++ slotRanges (quadSlots q)) = e.memory.conf then e else _) (Keeps.ite k ?_)
    (((quadWork_keeps ..).mono (by decide : sub _ [.devState, .latch, .arbs, .isl, .slots, .quads, .chans, .profs, .paths, .srcs, .mods, .seqs, .rings, .writers, .nobind, .faults, .col, .log, .caps, .conf, .alert] = true)).mono hs)
  refine Keeps.forEach (fun _ _ => ((chanReconf_keeps ..).mono (by decide : sub _ [.devState, .latch, .arbs, .isl, .slots, .quads, .chans, .profs, .paths, .srcs, .mods, .seqs, .rings, .writers, .nobind, .faults, .col, .log, .caps, .conf, .alert] = true)).mono hs) ?_
  exact setConf_keeps d e k hc _ (fun _ => rfl) (fun _ => rfl) fun h => mergeBase_wf _ _ _ (quadRanges_le q) (k.mem h).2.1 (ha h)

theorem quadConfig_keeps : ∀ a1 d, Keeps [.devState, .latch, .loader, .check, .mode, .arbs, .clk, .isl, .slots, .quads, .chans, .profs, .paths, .srcs, .mods, .seqs, .rings, .writers, .nobind, .faults, .col, .log, .caps, .fi, .mem, .conf, .swaps, .reload, .alert] d (quadConfig a1 d) := by
  intro a1 d
  unfold quadConfig
  refine Keeps.ite (Keeps.refl _ _) ?_
  split
  · dsimp only
    refine quadTake_keeps (updIsl_keeps _ fun _ => ⟨fun h => (by cases h), fun _ => rfl⟩) (by decide) fun h => ?_
    exact composeMem_wf _ _ _ ((configDone_keeps _ d).mem h).2.2.1
  · exact quadTake_keeps (Keeps.refl _ _) (by decide) fun h => composeMem_wf _ _ _ h.2.2.1

theorem pathMark_keeps : ∀ a1 d, Keeps [.paths] d (pathMark a1 d) := by
  intro a1 d
  unfold pathMark
  repeat' first
    | with_reducible exact Keeps.refl _ _
    | with_reducible assumption
    | ((try lift_lets); intro x; first | (refine Keeps.cut x ?_ ?_; (on_goal 1 => subst x); (on_goal 2 => (clear_value x; intro hx))) | (have hf := fun a => x a; clear hf; subst x) | clear_value x)
    | with_reducible refine (updPath_keeps ..).after ?_ (by decide)
    | with_reducible refine Keeps.ite ?_ ?_
    | split

theorem softStopEnd_keeps : ∀ a1 d, Keeps [.slots, .chans, .profs, .paths] d (softStopEnd a1 d) := by
  intro a1 d
  unfold softStopEnd
  repeat' first
    | with_reducible exact Keeps.refl _ _
    | with_reducible assumption
    | ((try lift_lets); intro x; first | (refine Keeps.cut x ?_ ?_; (on_goal 1 => subst x); (on_goal 2 => (clear_value x; intro hx))) | (have hf := fun a => x a; clear hf; subst x) | clear_value x)
    | with_reducible refine (stopEnds_keeps ..).after ?_ (by decide)
    | with_reducible refine Keeps.ite ?_ ?_
    | split

theorem quietStopQuad_keeps : ∀ a1 d, Keeps [.slots, .chans, .profs, .paths] d (quietStopQuad a1 d) := by
  intro a1 d
  unfold quietStopQuad
  repeat' first
    | with_reducible exact Keeps.refl _ _
    | with_reducible assumption
    | ((try lift_lets); intro x; first | (refine Keeps.cut x ?_ ?_; (on_goal 1 => subst x); (on_goal 2 => (clear_value x; intro hx))) | (have hf := fun a => x a; clear hf; subst x) | clear_value x)
    | with_reducible refine (pathMark_keeps ..).after ?_ (by decide)
    | with_reducible refine (chargeSnapshot_keeps ..).after ?_ (by decide)
    | with_reducible refine (softStopEnd_keeps ..).after ?_ (by decide)
    | with_reducible refine (regate_keeps ..).after ?_ (by decide)
    | with_reducible refine (slotOff_keeps ..).after ?_ (by decide)
    | with_reducible refine Keeps.forEach (fun _ _ => ?_) ?_
    | with_reducible refine Keeps.ite ?_ ?_
    | split

theorem quietStep_keeps : ∀ d, Keeps [.arbs, .clk, .isl, .launches, .cvn, .halt, .mods, .seqs, .log] d (quietStep d) := by
  intro d
  unfold quietStep
  repeat' first
    | with_reducible exact Keeps.refl _ _
    | with_reducible assumption
    | ((try lift_lets); intro x; first | (refine Keeps.cut x ?_ ?_; (on_goal 1 => subst x); (on_goal 2 => (clear_value x; intro hx))) | (have hf := fun a => x a; clear hf; subst x) | clear_value x)
    | with_reducible refine (timeStep_keeps ..).after ?_ (by decide)
    | with_reducible refine (updHalt_keeps ..).after ?_ (by decide)
    | with_reducible refine Keeps.ite ?_ ?_
    | split

theorem quietStepLast_keeps : ∀ d, Keeps [.arbs, .clk, .isl, .launches, .cvn, .halt, .mods, .seqs, .log] d (quietStepLast d) := by
  intro d
  unfold quietStepLast
  repeat' first
    | with_reducible exact Keeps.refl _ _
    | with_reducible assumption
    | ((try lift_lets); intro x; first | (refine Keeps.cut x ?_ ?_; (on_goal 1 => subst x); (on_goal 2 => (clear_value x; intro hx))) | (have hf := fun a => x a; clear hf; subst x) | clear_value x)
    | with_reducible refine (quietStep_keeps ..).after ?_ (by decide)
    | with_reducible refine Keeps.ite ?_ ?_
    | split

theorem trackEnd_keeps : ∀ a1 d, Keeps [.arbs, .mods, .seqs, .cal] d (trackEnd a1 d) := by
  intro a1 d
  unfold trackEnd
  repeat' first
    | with_reducible exact Keeps.refl _ _
    | with_reducible assumption
    | ((try lift_lets); intro x; first | (refine Keeps.cut x ?_ ?_; (on_goal 1 => subst x); (on_goal 2 => (clear_value x; intro hx))) | (have hf := fun a => x a; clear hf; subst x) | clear_value x)
    | with_reducible refine (arbRelease_keeps ..).after ?_ (by decide)
    | with_reducible refine (arbWithdraw_keeps ..).after ?_ (by decide)
    | with_reducible refine (injEnd_keeps ..).after ?_ (by decide)
    | with_reducible refine (updMod_keeps ..).after ?_ (by decide)
    | with_reducible refine Keeps.ite ?_ ?_
    | split

theorem readbackClose_keeps : ∀ a1 d, Keeps [.arbs, .mods] d (readbackClose a1 d) := by
  intro a1 d
  unfold readbackClose
  repeat' first
    | with_reducible exact Keeps.refl _ _
    | with_reducible assumption
    | ((try lift_lets); intro x; first | (refine Keeps.cut x ?_ ?_; (on_goal 1 => subst x); (on_goal 2 => (clear_value x; intro hx))) | (have hf := fun a => x a; clear hf; subst x) | clear_value x)
    | with_reducible refine (arbRelease_keeps ..).after ?_ (by decide)
    | with_reducible refine (updMod_keeps ..).after ?_ (by decide)
    | with_reducible refine Keeps.ite ?_ ?_
    | split

theorem readbackEnd_keeps : ∀ a1 d, Keeps [.arbs, .quads, .mods] d (readbackEnd a1 d) := by
  intro a1 d
  unfold readbackEnd
  repeat' first
    | with_reducible exact Keeps.refl _ _
    | with_reducible assumption
    | ((try lift_lets); intro x; first | (refine Keeps.cut x ?_ ?_; (on_goal 1 => subst x); (on_goal 2 => (clear_value x; intro hx))) | (have hf := fun a => x a; clear hf; subst x) | clear_value x)
    | with_reducible refine (readbackClose_keeps ..).after ?_ (by decide)
    | with_reducible refine (arbWithdraw_keeps ..).after ?_ (by decide)
    | with_reducible refine (arbRequest_keeps ..).after ?_ (by decide)
    | with_reducible refine (updQuad_keeps ..).after ?_ (by decide)
    | with_reducible refine Keeps.ite ?_ ?_
    | split

theorem quietEndQuad_keeps : ∀ a1 d, Keeps [.arbs, .slots, .quads, .chans, .profs, .paths, .mods, .seqs, .cal] d (quietEndQuad a1 d) := by
  intro a1 d
  unfold quietEndQuad
  repeat' first
    | with_reducible exact Keeps.refl _ _
    | with_reducible assumption
    | ((try lift_lets); intro x; first | (refine Keeps.cut x ?_ ?_; (on_goal 1 => subst x); (on_goal 2 => (clear_value x; intro hx))) | (have hf := fun a => x a; clear hf; subst x) | clear_value x)
    | with_reducible refine (regate_keeps ..).after ?_ (by decide)
    | with_reducible refine (trackEnd_keeps ..).after ?_ (by decide)
    | with_reducible refine (readbackEnd_keeps ..).after ?_ (by decide)
    | with_reducible refine Keeps.forEach (fun _ _ => ?_) ?_
    | with_reducible refine Keeps.ite ?_ ?_
    | split

theorem restNow_keeps : ∀ a1 d, Keeps [.slots, .chans, .profs, .paths] d (restNow a1 d) := by
  intro a1 d
  unfold restNow
  repeat' first
    | with_reducible exact Keeps.refl _ _
    | with_reducible assumption
    | ((try lift_lets); intro x; first | (refine Keeps.cut x ?_ ?_; (on_goal 1 => subst x); (on_goal 2 => (clear_value x; intro hx))) | (have hf := fun a => x a; clear hf; subst x) | clear_value x)
    | with_reducible refine (regate_keeps ..).after ?_ (by decide)
    | with_reducible refine (updProf_keeps ..).after ?_ (by decide)
    | with_reducible refine (updChan_keeps ..).after ?_ (by decide)
    | with_reducible refine Keeps.ite ?_ ?_
    | split

theorem startHolds_keeps : ∀ a1 d, Keeps [.paths] d (startHolds a1 d) := by
  intro a1 d
  unfold startHolds
  repeat' first
    | with_reducible exact Keeps.refl _ _
    | with_reducible assumption
    | ((try lift_lets); intro x; first | (refine Keeps.cut x ?_ ?_; (on_goal 1 => subst x); (on_goal 2 => (clear_value x; intro hx))) | (have hf := fun a => x a; clear hf; subst x) | clear_value x)
    | with_reducible refine (pathTrip_keeps ..).after ?_ (by decide)
    | with_reducible refine (pathOpen_keeps ..).after ?_ (by decide)
    | with_reducible refine Keeps.forEach (fun _ _ => ?_) ?_
    | with_reducible refine Keeps.ite ?_ ?_
    | split

theorem runArmQuad_keeps : ∀ a1 d, Keeps [.isl, .quads, .paths, .srcs] d (runArmQuad a1 d) := by
  intro a1 d
  unfold runArmQuad
  repeat' first
    | with_reducible exact Keeps.refl _ _
    | with_reducible assumption
    | ((try lift_lets); intro x; first | (refine Keeps.cut x ?_ ?_; (on_goal 1 => subst x); (on_goal 2 => (clear_value x; intro hx))) | (have hf := fun a => x a; clear hf; subst x) | clear_value x)
    | with_reducible refine (pathArm_keeps ..).after ?_ (by decide)
    | with_reducible refine (srcArm_keeps ..).after ?_ (by decide)
    | with_reducible refine (startHolds_keeps ..).after ?_ (by decide)
    | with_reducible refine (updIsl_keeps (S := [.isl]) _ ?_).after ?_ (by decide)
    | with_reducible refine (updQuad_keeps ..).after ?_ (by decide)
    | with_reducible refine Keeps.forEach (fun _ _ => ?_) ?_
    | with_reducible refine Keeps.ite ?_ ?_
    | (intro s; refine ⟨fun h => ?_, fun h => ?_⟩ <;> first | rfl | (cases h; done) | (split <;> rfl) | (simp; done))
    | (refine ⟨fun h => ?_, fun h => ?_⟩ <;> first | rfl | (cases h; done) | (split <;> rfl) | (simp; done))
    | split

theorem runQuad_keeps : ∀ a1 d, Keeps [.devState, .latch, .arbs, .isl, .slots, .quads, .chans, .profs, .paths, .srcs, .mods, .seqs, .rings, .writers, .faults, .col, .log, .caps, .alert] d (runQuad a1 d) := by
  intro a1 d
  unfold runQuad
  repeat' first
    | with_reducible exact Keeps.refl _ _
    | with_reducible assumption
    | ((try lift_lets); intro x; first | (refine Keeps.cut x ?_ ?_; (on_goal 1 => subst x); (on_goal 2 => (clear_value x; intro hx))) | (have hf := fun a => x a; clear hf; subst x) | clear_value x)
    | with_reducible refine (carrierResetIn_keeps ..).after ?_ (by decide)
    | with_reducible refine (runArmQuad_keeps ..).after ?_ (by decide)
    | with_reducible refine Keeps.ite ?_ ?_
    | split

def launchQuadParts : List Part :=
  [.devState, .latch, .loader, .check, .mode, .arbs, .clk, .isl, .launches, .cvn, .halt, .slots, .quads, .chans, .profs, .paths, .srcs, .mods, .seqs, .rings, .writers, .nobind, .cal, .faults, .col, .log, .caps, .fi, .mem, .conf, .swaps, .reload, .alert]

theorem launchQuad_keeps : ∀ a1 a2 d, Keeps launchQuadParts d (launchQuad a1 a2 d) := by
  intro a1 a2 d
  unfold launchQuad
  repeat' first
    | with_reducible exact Keeps.refl _ _
    | with_reducible assumption
    | ((try lift_lets); intro x; first | (refine Keeps.cut x ?_ ?_; (on_goal 1 => subst x); (on_goal 2 => (clear_value x; intro hx))) | (have hf := fun a => x a; clear hf; subst x) | clear_value x)
    | with_reducible refine (quadConfig_keeps ..).after ?_ (by decide)
    | with_reducible refine (carrierResetIn_keeps ..).after ?_ (by decide)
    | with_reducible refine (quietStopQuad_keeps ..).after ?_ (by decide)
    | with_reducible refine (quietStepLast_keeps ..).after ?_ (by decide)
    | with_reducible refine (quietEndQuad_keeps ..).after ?_ (by decide)
    | with_reducible refine (readbackRequest_keeps ..).after ?_ (by decide)
    | with_reducible refine (restNow_keeps ..).after ?_ (by decide)
    | with_reducible refine (runQuad_keeps ..).after ?_ (by decide)
    | with_reducible refine Keeps.ite ?_ ?_
    | split

def launchInQuadParts : List Part :=
  [.devState, .latch, .loader, .check, .mode, .arbs, .clk, .isl, .launches, .cvn, .halt, .slots, .quads, .chans, .profs, .paths, .srcs, .mods, .seqs, .rings, .writers, .nobind, .cal, .faults, .col, .log, .caps, .fi, .mem, .conf, .swaps, .reload, .alert]

theorem launchInQuad_keeps : ∀ a1 a2 d, Keeps launchInQuadParts d (launchInQuad a1 a2 d) := by
  intro a1 a2 d
  unfold launchInQuad
  repeat' first
    | with_reducible exact Keeps.refl _ _
    | with_reducible assumption
    | ((try lift_lets); intro x; first | (refine Keeps.cut x ?_ ?_; (on_goal 1 => subst x); (on_goal 2 => (clear_value x; intro hx))) | (have hf := fun a => x a; clear hf; subst x) | clear_value x)
    | with_reducible refine (send_keeps ..).after ?_ (by decide)
    | with_reducible refine (launchQuad_keeps ..).after ?_ (by decide)
    | with_reducible refine Keeps.ite ?_ ?_
    | split

def quietBeginParts : List Part :=
  [.devState, .latch, .loader, .check, .mode, .arbs, .isl, .halt, .slots, .quads, .chans, .profs, .paths, .srcs, .mods, .seqs, .rings, .writers, .nobind, .faults, .col, .log, .caps, .fi, .mem, .conf, .swaps, .reload, .alert]

theorem quietBegin_keeps : ∀ a1 d, Keeps quietBeginParts d (quietBegin a1 d) := by
  intro a1 d
  unfold quietBegin
  repeat' first
    | with_reducible exact Keeps.refl _ _
    | with_reducible assumption
    | ((try lift_lets); intro x; first | (refine Keeps.cut x ?_ ?_; (on_goal 1 => subst x); (on_goal 2 => (clear_value x; intro hx))) | (have hf := fun a => x a; clear hf; subst x) | clear_value x)
    | with_reducible refine (haltConfig_keeps ..).after ?_ (by decide)
    | with_reducible refine (updHalt_keeps ..).after ?_ (by decide)
    | with_reducible refine Keeps.ite ?_ ?_
    | split

theorem quadReload_keeps : ∀ d, Keeps [.clk, .isl] d (quadReload d) := by
  intro d
  unfold quadReload
  repeat' first
    | with_reducible exact Keeps.refl _ _
    | with_reducible assumption
    | ((try lift_lets); intro x; first | (refine Keeps.cut x ?_ ?_; (on_goal 1 => subst x); (on_goal 2 => (clear_value x; intro hx))) | (have hf := fun a => x a; clear hf; subst x) | clear_value x)
    | with_reducible refine (send_keeps ..).after ?_ (by decide)
    | with_reducible refine Keeps.forEach (fun _ _ => ?_) ?_
    | with_reducible refine Keeps.ite ?_ ?_
    | (fail_if_no_progress with_reducible refine (set_clk_keeps _ _).after ?_ (by decide))
    | split

theorem quietFinish_keeps : ∀ a1 d, Keeps [.arbs, .halt, .mods, .seqs, .rings, .writers] d (quietFinish a1 d) := by
  intro a1 d
  unfold quietFinish
  repeat' first
    | with_reducible exact Keeps.refl _ _
    | with_reducible assumption
    | ((try lift_lets); intro x; first | (refine Keeps.cut x ?_ ?_; (on_goal 1 => subst x); (on_goal 2 => (clear_value x; intro hx))) | (have hf := fun a => x a; clear hf; subst x) | clear_value x)
    | with_reducible refine (hlSettle_keeps ..).after ?_ (by decide)
    | with_reducible refine (updHalt_keeps ..).after ?_ (by decide)
    | with_reducible refine Keeps.ite ?_ ?_
    | split

theorem runPins_keeps : ∀ d, Keeps [.col] d (runPins d) := by
  intro d
  unfold runPins
  repeat' first
    | with_reducible exact Keeps.refl _ _
    | with_reducible assumption
    | ((try lift_lets); intro x; first | (refine Keeps.cut x ?_ ?_; (on_goal 1 => subst x); (on_goal 2 => (clear_value x; intro hx))) | (have hf := fun a => x a; clear hf; subst x) | clear_value x)
    | with_reducible refine (updCol_keeps (S := [.col]) _ ?_).after ?_ (by decide)
    | with_reducible refine Keeps.ite ?_ ?_
    | (intro s; refine ⟨fun h => ?_, fun h => ?_, fun h => ?_, fun h => ?_⟩ <;> first | rfl | (cases h; done) | (split <;> rfl) | (simp; done))
    | (refine ⟨fun h => ?_, fun h => ?_, fun h => ?_, fun h => ?_⟩ <;> first | rfl | (cases h; done) | (split <;> rfl) | (simp; done))
    | split

theorem preReactions_keeps : ∀ d, Keeps [.slots, .chans, .profs, .paths, .srcs, .faults, .col] d (preReactions d) := by
  intro d
  unfold preReactions
  repeat' first
    | with_reducible exact Keeps.refl _ _
    | with_reducible assumption
    | ((try lift_lets); intro x; first | (refine Keeps.cut x ?_ ?_; (on_goal 1 => subst x); (on_goal 2 => (clear_value x; intro hx))) | (have hf := fun a => x a; clear hf; subst x) | clear_value x)
    | with_reducible refine (react_keeps ..).after ?_ (by decide)
    | with_reducible refine (updFault_keeps ..).after ?_ (by decide)
    | with_reducible refine Keeps.forEach (fun _ _ => ?_) ?_
    | with_reducible refine Keeps.ite ?_ ?_
    | split

theorem runHalts_keeps : ∀ d, Keeps [.halt, .seqs] d (runHalts d) := by
  intro d
  unfold runHalts
  repeat' first
    | with_reducible exact Keeps.refl _ _
    | with_reducible assumption
    | ((try lift_lets); intro x; first | (refine Keeps.cut x ?_ ?_; (on_goal 1 => subst x); (on_goal 2 => (clear_value x; intro hx))) | (have hf := fun a => x a; clear hf; subst x) | clear_value x)
    | with_reducible refine (ownHalt_keeps ..).after ?_ (by decide)
    | with_reducible refine (updHalt_keeps ..).after ?_ (by decide)
    | with_reducible refine Keeps.ite ?_ ?_
    | split

theorem modelStart_keeps : ∀ a1 d, Keeps [.therm] d (modelStart a1 d) := by
  intro a1 d
  unfold modelStart
  repeat' first
    | with_reducible exact Keeps.refl _ _
    | with_reducible assumption
    | ((try lift_lets); intro x; first | (refine Keeps.cut x ?_ ?_; (on_goal 1 => subst x); (on_goal 2 => (clear_value x; intro hx))) | (have hf := fun a => x a; clear hf; subst x) | clear_value x)
    | with_reducible refine (updTherm_keeps ..).after ?_ (by decide)
    | with_reducible refine Keeps.ite ?_ ?_
    | split

theorem runArm_keeps : ∀ d, Keeps [.arbs, .isl, .bus, .mods, .seqs, .rings, .writers, .therm] d (runArm d) := by
  intro d
  unfold runArm
  repeat' first
    | with_reducible exact Keeps.refl _ _
    | with_reducible assumption
    | ((try lift_lets); intro x; first | (refine Keeps.cut x ?_ ?_; (on_goal 1 => subst x); (on_goal 2 => (clear_value x; intro hx))) | (have hf := fun a => x a; clear hf; subst x) | clear_value x)
    | with_reducible refine (modelStart_keeps ..).after ?_ (by decide)
    | with_reducible refine (setBus_keeps ..).after ?_ (by decide)
    | with_reducible refine (seqStart_keeps ..).after ?_ (by decide)
    | with_reducible refine Keeps.forEach (fun _ _ => ?_) ?_
    | with_reducible refine Keeps.ite ?_ ?_
    | split

def runHkParts : List Part :=
  [.start, .devState, .latch, .mode, .arbs, .isl, .halt, .slots, .chans, .profs, .paths, .srcs, .bus, .mods, .seqs, .rings, .writers, .therm, .hk, .faults, .col, .log, .caps, .alert]

theorem runHk_keeps : ∀ d, Keeps runHkParts d (runHk d) := by
  intro d
  unfold runHk
  repeat' first
    | with_reducible exact Keeps.refl _ _
    | with_reducible assumption
    | ((try lift_lets); intro x; first | (refine Keeps.cut x ?_ ?_; (on_goal 1 => subst x); (on_goal 2 => (clear_value x; intro hx))) | (have hf := fun a => x a; clear hf; subst x) | clear_value x)
    | with_reducible refine (aloneMode_keeps ..).after ?_ (by decide)
    | with_reducible refine (runPins_keeps ..).after ?_ (by decide)
    | with_reducible refine (preReactions_keeps ..).after ?_ (by decide)
    | with_reducible refine (runHalts_keeps ..).after ?_ (by decide)
    | with_reducible refine (runArm_keeps ..).after ?_ (by decide)
    | with_reducible refine (coolantJudge_keeps ..).after ?_ (by decide)
    | with_reducible refine (coolantFrame_keeps ..).after ?_ (by decide)
    | with_reducible refine (updStart_keeps (S := [.start, .devState, .latch]) _ ?_).after ?_ (by decide)
    | with_reducible refine Keeps.ite ?_ ?_
    | (intro s; refine ⟨fun h => ?_, fun h => ?_, fun h => ?_⟩ <;> first | rfl | (cases h; done) | (split <;> rfl) | (simp; done))
    | (refine ⟨fun h => ?_, fun h => ?_, fun h => ?_⟩ <;> first | rfl | (cases h; done) | (split <;> rfl) | (simp; done))
    | split

end Sys2Proof.Machine
end

