-- ==== Sys2Proof/Laws/Keeps10.lean ====
section
/-! SUPPORT. Sys2Proof/Laws/Keeps10.lean: what each operation of the model leaves unchanged (one lemma per operation, in the order of their use). -/

namespace Sys2Proof.Machine

set_option linter.unusedTactic false
set_option linter.unreachableTactic false
set_option linter.unusedVariables false

def launchHkParts : List Part :=
  [.start, .devState, .latch, .loader, .check, .mode, .arbs, .clk, .isl, .launches, .cvn, .halt, .slots, .quads, .chans, .profs, .paths, .srcs, .bus, .mods, .seqs, .rings, .writers, .nobind, .therm, .hk, .faults, .col, .log, .caps, .fi, .mem, .conf, .swaps, .reload, .alert]

theorem launchHk_keeps : ∀ a1 d, Keeps launchHkParts d (launchHk a1 d) := by
  intro a1 d
  unfold launchHk
  repeat' first
    | with_reducible exact Keeps.refl _ _
    | with_reducible assumption
    | ((try lift_lets); intro x; first | (refine Keeps.cut x ?_ ?_; (on_goal 1 => subst x); (on_goal 2 => (clear_value x; intro hx))) | (have hf := fun a => x a; clear hf; subst x) | clear_value x)
    | with_reducible refine (configLaunch_keeps ..).after ?_ (by decide)
    | with_reducible refine (quietBegin_keeps ..).after ?_ (by decide)
    | with_reducible refine (quietStepLast_keeps ..).after ?_ (by decide)
    | with_reducible refine (quadReload_keeps ..).after ?_ (by decide)
    | with_reducible refine (quietFinish_keeps ..).after ?_ (by decide)
    | with_reducible refine (convMark_keeps ..).after ?_ (by decide)
    | with_reducible refine (runHk_keeps ..).after ?_ (by decide)
    | with_reducible refine Keeps.ite ?_ ?_
    | split

def launchInParts : List Part :=
  [.start, .devState, .latch, .loader, .check, .mode, .arbs, .clk, .isl, .launches, .cvn, .halt, .slots, .quads, .chans, .profs, .paths, .srcs, .bus, .mods, .seqs, .rings, .writers, .nobind, .cal, .therm, .hk, .faults, .col, .log, .caps, .fi, .mem, .conf, .swaps, .reload, .alert]

theorem launchIn_keeps : ∀ a1 a2 d, Keeps launchInParts d (launchIn a1 a2 d) := by
  intro a1 a2 d
  unfold launchIn
  repeat' first
    | with_reducible exact Keeps.refl _ _
    | with_reducible assumption
    | ((try lift_lets); intro x; first | (refine Keeps.cut x ?_ ?_; (on_goal 1 => subst x); (on_goal 2 => (clear_value x; intro hx))) | (have hf := fun a => x a; clear hf; subst x) | clear_value x)
    | with_reducible refine (launchInQuad_keeps ..).after ?_ (by decide)
    | with_reducible refine (launchHk_keeps ..).after ?_ (by decide)
    | with_reducible refine Keeps.ite ?_ ?_
    | split

def launchFireParts : List Part :=
  [.start, .devState, .latch, .loader, .check, .mode, .arbs, .clk, .isl, .launches, .cvn, .halt, .slots, .quads, .chans, .profs, .paths, .srcs, .bus, .mods, .seqs, .rings, .writers, .nobind, .cal, .therm, .hk, .faults, .col, .log, .caps, .fi, .mem, .conf, .swaps, .reload, .alert]

theorem launchFire_keeps : ∀ a1 d, Keeps launchFireParts d (launchFire a1 d) := by
  intro a1 d
  unfold launchFire
  repeat' first
    | with_reducible exact Keeps.refl _ _
    | with_reducible assumption
    | ((try lift_lets); intro x; first | (refine Keeps.cut x ?_ ?_; (on_goal 1 => subst x); (on_goal 2 => (clear_value x; intro hx))) | (have hf := fun a => x a; clear hf; subst x) | clear_value x)
    | with_reducible refine (launchIn_keeps ..).after ?_ (by decide)
    | with_reducible refine (updIsl_keeps (S := [.isl, .launches]) _ ?_).after ?_ (by decide)
    | with_reducible refine Keeps.ite ?_ ?_
    | (intro s; refine ⟨fun h => ?_, fun h => ?_⟩ <;> first | rfl | (cases h; done) | (split <;> rfl) | (simp; done))
    | (refine ⟨fun h => ?_, fun h => ?_⟩ <;> first | rfl | (cases h; done) | (split <;> rfl) | (simp; done))
    | split

def launchNextParts : List Part :=
  [.start, .devState, .latch, .loader, .check, .mode, .arbs, .clk, .isl, .launches, .cvn, .halt, .slots, .quads, .chans, .profs, .paths, .srcs, .bus, .mods, .seqs, .rings, .writers, .nobind, .cal, .therm, .hk, .faults, .col, .log, .caps, .fi, .mem, .conf, .swaps, .reload, .alert]

theorem launchNext_keeps : ∀ d, Keeps launchNextParts d (launchNext d) := by
  intro d
  unfold launchNext
  repeat' first
    | with_reducible exact Keeps.refl _ _
    | with_reducible assumption
    | ((try lift_lets); intro x; first | (refine Keeps.cut x ?_ ?_; (on_goal 1 => subst x); (on_goal 2 => (clear_value x; intro hx))) | (have hf := fun a => x a; clear hf; subst x) | clear_value x)
    | with_reducible refine (launchFire_keeps ..).after ?_ (by decide)
    | with_reducible refine (pass_keeps ..).after ?_ (by decide)
    | with_reducible refine Keeps.ite ?_ ?_
    | split

def launchRequestParts : List Part :=
  [.devState, .latch, .arbs, .clk, .isl, .launches, .halt, .slots, .quads, .chans, .profs, .paths, .srcs, .bus, .rings, .writers, .nobind, .therm, .faults, .col, .log, .caps, .conf, .alert]

theorem launchRequest_keeps : ∀ a1 a2 a3 d, Keeps launchRequestParts d (launchRequest a1 a2 a3 d) := by
  intro a1 a2 a3 d
  unfold launchRequest
  repeat' first
    | with_reducible exact Keeps.refl _ _
    | with_reducible assumption
    | ((try lift_lets); intro x; first | (refine Keeps.cut x ?_ ?_; (on_goal 1 => subst x); (on_goal 2 => (clear_value x; intro hx))) | (have hf := fun a => x a; clear hf; subst x) | clear_value x)
    | with_reducible refine (send_keeps ..).after ?_ (by decide)
    | with_reducible refine (launchAt_keeps ..).after ?_ (by decide)
    | with_reducible refine (drainQuad_keeps ..).after ?_ (by decide)
    | with_reducible refine Keeps.ite ?_ ?_
    | split

def launchesArriveParts : List Part :=
  [.devState, .latch, .arbs, .clk, .isl, .launches, .halt, .slots, .quads, .chans, .profs, .paths, .srcs, .bus, .rings, .writers, .nobind, .therm, .faults, .col, .log, .caps, .conf, .alert]

theorem launchesArrive_keeps : ∀ d, Keeps launchesArriveParts d (launchesArrive d) := by
  intro d
  unfold launchesArrive
  repeat' first
    | with_reducible exact Keeps.refl _ _
    | with_reducible assumption
    | ((try lift_lets); intro x; first | (refine Keeps.cut x ?_ ?_; (on_goal 1 => subst x); (on_goal 2 => (clear_value x; intro hx))) | (have hf := fun a => x a; clear hf; subst x) | clear_value x)
    | with_reducible refine (drainQuad_keeps ..).after ?_ (by decide)
    | with_reducible refine Keeps.forEach (fun _ _ => ?_) ?_
    | with_reducible refine Keeps.ite ?_ ?_
    | split

theorem launchesUntil_keeps : ∀ n a t d, Keeps everyPart d (launchesUntil n a t d) := by
  intro n a t
  induction n with
  | zero => exact fun d => Keeps.refl _ _
  | succ n ih =>
    intro d
    unfold launchesUntil
    exact Keeps.ite (Keeps.trans ((launchNext_keeps d).mono (by decide)) (ih _)) (Keeps.refl _ _)

theorem withLaunches_keeps {S : List Part} {f : Device → Device} (hs : sub everyPart S = true) (hf : ∀ d, Keeps S d (f d)) :
    ∀ n k d, Keeps S d (withLaunches n k f d) := by
  intro n k
  induction n with
  | zero => exact hf
  | succ n ih =>
    intro d
    unfold withLaunches
    exact Keeps.ite (hf d) (Keeps.trans (Keeps.ite (((launchesArrive_keeps d).mono (by decide : sub _ everyPart = true)).mono hs) (((launchNext_keeps d).mono (by decide : sub _ everyPart = true)).mono hs)) (ih _))

theorem timed_keeps {S : List Part} {f : Device → Device} (hs : sub everyPart S = true) (hf : ∀ d, Keeps S d (f d)) (k : Nat) (d : Device) :
    Keeps S d (timed k f d) := withLaunches_keeps hs hf _ _ _

theorem launchRow_keeps {S : List Part} {f : Device → Device} (hs : sub everyPart S = true) (hf : ∀ d, Keeps S d (f d)) (a : LaunchAct) (d : Device) :
    Keeps S d (launchRow a f d) := by
  unfold launchRow
  refine Keeps.ite ?_ (timed_keeps hs hf _ _)
  have h : Keeps S d (launchesArrive d) := ((launchesArrive_keeps d).mono (by decide : sub _ everyPart = true)).mono hs
  dsimp only
  split
  · exact Keeps.trans h ((launchesUntil_keeps ..).mono hs)
  · exact h

theorem modeRefuse_keeps : ∀ a1 d, Keeps [.mode] d (modeRefuse a1 d) := by
  intro a1 d
  unfold modeRefuse
  repeat' first
    | with_reducible exact Keeps.refl _ _
    | with_reducible assumption
    | ((try lift_lets); intro x; first | (refine Keeps.cut x ?_ ?_; (on_goal 1 => subst x); (on_goal 2 => (clear_value x; intro hx))) | (have hf := fun a => x a; clear hf; subst x) | clear_value x)
    | with_reducible refine (updMode_keeps ..).after ?_ (by decide)
    | with_reducible refine Keeps.ite ?_ ?_
    | split

theorem overlayChecked_keeps : ∀ a1 d, Keeps [.check, .mode, .arbs, .log, .alert] d (overlayChecked a1 d) := by
  intro a1 d
  unfold overlayChecked
  repeat' first
    | with_reducible exact Keeps.refl _ _
    | with_reducible assumption
    | ((try lift_lets); intro x; first | (refine Keeps.cut x ?_ ?_; (on_goal 1 => subst x); (on_goal 2 => (clear_value x; intro hx))) | (have hf := fun a => x a; clear hf; subst x) | clear_value x)
    | with_reducible refine (refusedInRun_keeps ..).after ?_ (by decide)
    | with_reducible refine (setDetail_keeps ..).after ?_ (by decide)
    | with_reducible refine (modeRefuse_keeps ..).after ?_ (by decide)
    | with_reducible refine Keeps.ite ?_ ?_
    | split

theorem leaderCheckDone_keeps : ∀ d, Keeps [.check, .mode, .arbs, .log, .alert] d (leaderCheckDone d) := by
  intro d
  unfold leaderCheckDone
  repeat' first
    | with_reducible exact Keeps.refl _ _
    | with_reducible assumption
    | ((try lift_lets); intro x; first | (refine Keeps.cut x ?_ ?_; (on_goal 1 => subst x); (on_goal 2 => (clear_value x; intro hx))) | (have hf := fun a => x a; clear hf; subst x) | clear_value x)
    | with_reducible refine (overlayChecked_keeps ..).after ?_ (by decide)
    | with_reducible refine (updMode_keeps ..).after ?_ (by decide)
    | with_reducible refine Keeps.ite ?_ ?_
    | split

theorem leaderLostTimeout_keeps : ∀ d, Keeps [.devState, .latch, .mode, .arbs, .clk, .cvn, .slots, .chans, .profs, .paths, .srcs, .faults, .col, .log, .caps, .alert] d (leaderLostTimeout d) := by
  intro d
  unfold leaderLostTimeout
  repeat' first
    | with_reducible exact Keeps.refl _ _
    | with_reducible assumption
    | ((try lift_lets); intro x; first | (refine Keeps.cut x ?_ ?_; (on_goal 1 => subst x); (on_goal 2 => (clear_value x; intro hx))) | (have hf := fun a => x a; clear hf; subst x) | clear_value x)
    | with_reducible refine (raiseLevel_keeps ..).after ?_ (by decide)
    | with_reducible refine (lapse_keeps ..).after ?_ (by decide)
    | with_reducible refine (waitLoc_keeps ..).after ?_ (by decide)
    | with_reducible refine (updCvn_keeps ..).after ?_ (by decide)
    | with_reducible refine Keeps.ite ?_ ?_
    | split

theorem lockoutEnds_keeps : ∀ d, Keeps [.clk, .sup] d (lockoutEnds d) := by
  intro d
  unfold lockoutEnds
  repeat' first
    | with_reducible exact Keeps.refl _ _
    | with_reducible assumption
    | ((try lift_lets); intro x; first | (refine Keeps.cut x ?_ ?_; (on_goal 1 => subst x); (on_goal 2 => (clear_value x; intro hx))) | (have hf := fun a => x a; clear hf; subst x) | clear_value x)
    | with_reducible refine (waitUp_keeps ..).after ?_ (by decide)
    | with_reducible refine (updSup_keeps (S := [.sup]) _ ?_).after ?_ (by decide)
    | with_reducible refine Keeps.ite ?_ ?_
    | (intro s; refine ⟨fun h => ?_, fun h => ?_⟩ <;> first | rfl | (cases h; done) | (split <;> rfl) | (simp; done))
    | (refine ⟨fun h => ?_, fun h => ?_⟩ <;> first | rfl | (cases h; done) | (split <;> rfl) | (simp; done))
    | split

theorem logAck_keeps : ∀ a1 d, Keeps [.log, .sup] d (logAck a1 d) := by
  intro a1 d
  unfold logAck
  repeat' first
    | with_reducible exact Keeps.refl _ _
    | with_reducible assumption
    | ((try lift_lets); intro x; first | (refine Keeps.cut x ?_ ?_; (on_goal 1 => subst x); (on_goal 2 => (clear_value x; intro hx))) | (have hf := fun a => x a; clear hf; subst x) | clear_value x)
    | with_reducible refine Keeps.blockWrite (fun _ _ _ => ?_) ?_ (by decide)
    | with_reducible refine Keeps.ifOk (fun _ _ => ?_) ?_
    | with_reducible refine (updCol_keeps (S := [.log]) _ ?_).after ?_ (by decide)
    | with_reducible refine Keeps.ite ?_ ?_
    | (intro s; refine ⟨fun h => ?_, fun h => ?_, fun h => ?_, fun h => ?_⟩ <;> first | rfl | (cases h; done) | (split <;> rfl) | (simp; done))
    | (refine ⟨fun h => ?_, fun h => ?_, fun h => ?_, fun h => ?_⟩ <;> first | rfl | (cases h; done) | (split <;> rfl) | (simp; done))
    | split

theorem Keeps.processCall {S : List Part} {code : Byte} {n : Nat} {p : ProcessCall} {judge : List Byte → Device → Nat}
    {reply : List Byte → Device → List Byte} {eff : List Byte → Device → Device} {d e : Device} (he : ∀ bs e, Keeps S e (eff bs e))
    (h : Keeps S d e) (hs : sub [.arbs, .log, .fi, .sup] S = true) :
    Keeps S d (Sys2Proof.Machine.processCall code n p judge reply eff e) := by
  unfold Sys2Proof.Machine.processCall
  have hu : ∀ {x y : Device}, Keeps [.sup] x y → Keeps S d x → Keeps S d y := fun k kx => kx.trans ((k.mono (S := [.arbs, .log, .fi, .sup]) rfl).mono hs)
  have hr : ∀ pre bs, Keeps S d (broken p.cut (respond pre bs p.ackLast e)) := fun _ _ => hu (broken_keeps ..) ((respond_keeps ..).after h hs)
  refine Keeps.ite (hu (noAck_keeps ..) h) (Keeps.ite (hu (countRefused_keeps ..) (hu (noAck_keeps ..) h)) (Keeps.ite ?_ ?_))
  · exact (hr _ _).trans (he _ _)
  · exact hu (countRefused_keeps ..) (hr _ _)

theorem recReads_keeps : ∀ a1 a2 a3 a4 d, Keeps [.devState, .latch, .arbs, .slots, .chans, .profs, .paths, .srcs, .mods, .therm, .faults, .col, .log, .caps, .mem, .alert] d (recReads a1 a2 a3 a4 d) := by
  intro a1 a2 a3 a4 d
  unfold recReads
  repeat' first
    | with_reducible exact Keeps.refl _ _
    | with_reducible assumption
    | ((try lift_lets); intro x; first | (refine Keeps.cut x ?_ ?_; (on_goal 1 => subst x); (on_goal 2 => (clear_value x; intro hx))) | (have hf := fun a => x a; clear hf; subst x) | clear_value x)
    | with_reducible refine (cwRead_keeps ..).after ?_ (by decide)
    | with_reducible refine Keeps.forEach (fun _ _ => ?_) ?_
    | with_reducible refine Keeps.ite ?_ ?_
    | split

theorem logRead_keeps : ∀ a1 d, Keeps [.devState, .latch, .arbs, .slots, .chans, .profs, .paths, .srcs, .mods, .therm, .faults, .col, .log, .caps, .fi, .mem, .sup, .alert] d (logRead a1 d) := by
  intro a1 d
  unfold logRead
  repeat' first
    | with_reducible exact Keeps.refl _ _
    | with_reducible assumption
    | ((try lift_lets); intro x; first | (refine Keeps.cut x ?_ ?_; (on_goal 1 => subst x); (on_goal 2 => (clear_value x; intro hx))) | (have hf := fun a => x a; clear hf; subst x) | clear_value x)
    | with_reducible refine Keeps.processCall (fun _ _ => ?_) ?_ (by decide)
    | with_reducible refine (recReads_keeps ..).after ?_ (by decide)
    | with_reducible refine Keeps.ite ?_ ?_
    | split

theorem logSecondEnd_keeps : ∀ d, Keeps [.arbs, .clk, .faults, .col, .log] d (logSecondEnd d) := by
  intro d
  unfold logSecondEnd
  repeat' first
    | with_reducible exact Keeps.refl _ _
    | with_reducible assumption
    | ((try lift_lets); intro x; first | (refine Keeps.cut x ?_ ?_; (on_goal 1 => subst x); (on_goal 2 => (clear_value x; intro hx))) | (have hf := fun a => x a; clear hf; subst x) | clear_value x)
    | with_reducible refine (waitLoc_keeps ..).after ?_ (by decide)
    | with_reducible refine (secTurn_keeps ..).after ?_ (by decide)
    | with_reducible refine (updCol_keeps (S := [.col, .log]) _ ?_).after ?_ (by decide)
    | with_reducible refine Keeps.forEach (fun _ _ => ?_) ?_
    | with_reducible refine Keeps.ite ?_ ?_
    | (intro s; refine ⟨fun h => ?_, fun h => ?_, fun h => ?_, fun h => ?_⟩ <;> first | rfl | (cases h; done) | (split <;> rfl) | (simp; done))
    | (refine ⟨fun h => ?_, fun h => ?_, fun h => ?_, fun h => ?_⟩ <;> first | rfl | (cases h; done) | (split <;> rfl) | (simp; done))
    | (fail_if_no_progress with_reducible refine (set_faults_keeps _ _).after ?_ (by decide))
    | split

theorem memberCheckDone_keeps : ∀ d, Keeps [.check, .mode, .arbs, .log, .alert] d (memberCheckDone d) := by
  intro d
  unfold memberCheckDone
  repeat' first
    | with_reducible exact Keeps.refl _ _
    | with_reducible assumption
    | ((try lift_lets); intro x; first | (refine Keeps.cut x ?_ ?_; (on_goal 1 => subst x); (on_goal 2 => (clear_value x; intro hx))) | (have hf := fun a => x a; clear hf; subst x) | clear_value x)
    | with_reducible refine (overlayChecked_keeps ..).after ?_ (by decide)
    | with_reducible refine (logEvent_keeps ..).after ?_ (by decide)
    | with_reducible refine (updMode_keeps ..).after ?_ (by decide)
    | with_reducible refine Keeps.ite ?_ ?_
    | split

theorem memberDrop_keeps : ∀ a1 d, Keeps [.clk, .cvn] d (memberDrop a1 d) := by
  intro a1 d
  unfold memberDrop
  repeat' first
    | with_reducible exact Keeps.refl _ _
    | with_reducible assumption
    | ((try lift_lets); intro x; first | (refine Keeps.cut x ?_ ?_; (on_goal 1 => subst x); (on_goal 2 => (clear_value x; intro hx))) | (have hf := fun a => x a; clear hf; subst x) | clear_value x)
    | with_reducible refine (dropMember_keeps ..).after ?_ (by decide)
    | with_reducible refine (waitLoc_keeps ..).after ?_ (by decide)
    | with_reducible refine Keeps.ite ?_ ?_
    | split

theorem modeDebounced_keeps : ∀ a1 d, Keeps [.start, .devState, .latch, .mode, .arbs, .mem] d (modeDebounced a1 d) := by
  intro a1 d
  unfold modeDebounced
  repeat' first
    | with_reducible exact Keeps.refl _ _
    | with_reducible assumption
    | ((try lift_lets); intro x; first | (refine Keeps.cut x ?_ ?_; (on_goal 1 => subst x); (on_goal 2 => (clear_value x; intro hx))) | (have hf := fun a => x a; clear hf; subst x) | clear_value x)
    | with_reducible refine (mirrorStarts_keeps ..).after ?_ (by decide)
    | with_reducible refine (enterBuild_keeps ..).after ?_ (by decide)
    | with_reducible refine (aloneMode_keeps ..).after ?_ (by decide)
    | with_reducible refine (updMode_keeps ..).after ?_ (by decide)
    | with_reducible refine (updStart_keeps (S := [.start, .devState, .latch]) _ ?_).after ?_ (by decide)
    | with_reducible refine Keeps.ite ?_ ?_
    | (intro s; refine ⟨fun h => ?_, fun h => ?_, fun h => ?_⟩ <;> first | rfl | (cases h; done) | (split <;> rfl) | (simp; done))
    | (refine ⟨fun h => ?_, fun h => ?_, fun h => ?_⟩ <;> first | rfl | (cases h; done) | (split <;> rfl) | (simp; done))
    | split

theorem votesRead_keeps : ∀ a1 a2 d, Keeps [.mode, .cvn] d (votesRead a1 a2 d) := by
  intro a1 a2 d
  unfold votesRead
  repeat' first
    | with_reducible exact Keeps.refl _ _
    | with_reducible assumption
    | ((try lift_lets); intro x; first | (refine Keeps.cut x ?_ ?_; (on_goal 1 => subst x); (on_goal 2 => (clear_value x; intro hx))) | (have hf := fun a => x a; clear hf; subst x) | clear_value x)
    | with_reducible refine (judgeVotes_keeps ..).after ?_ (by decide)
    | with_reducible refine (updCvn_keeps ..).after ?_ (by decide)
    | with_reducible refine (updMode_keeps ..).after ?_ (by decide)
    | with_reducible refine Keeps.ite ?_ ?_
    | split

theorem onActive_keeps : ∀ a1 d, Keeps [.mode] d (onActive a1 d) := by
  intro a1 d
  unfold onActive
  repeat' first
    | with_reducible exact Keeps.refl _ _
    | with_reducible assumption
    | ((try lift_lets); intro x; first | (refine Keeps.cut x ?_ ?_; (on_goal 1 => subst x); (on_goal 2 => (clear_value x; intro hx))) | (have hf := fun a => x a; clear hf; subst x) | clear_value x)
    | with_reducible refine (updMode_keeps ..).after ?_ (by decide)
    | with_reducible refine Keeps.ite ?_ ?_
    | split

theorem onPropose_keeps : ∀ a1 a2 a3 d, Keeps [.mode, .cvn] d (onPropose a1 a2 a3 d) := by
  intro a1 a2 a3 d
  unfold onPropose
  repeat' first
    | with_reducible exact Keeps.refl _ _
    | with_reducible assumption
    | ((try lift_lets); intro x; first | (refine Keeps.cut x ?_ ?_; (on_goal 1 => subst x); (on_goal 2 => (clear_value x; intro hx))) | (have hf := fun a => x a; clear hf; subst x) | clear_value x)
    | with_reducible refine (forward_keeps ..).after ?_ (by decide)
    | with_reducible refine (updMode_keeps ..).after ?_ (by decide)
    | with_reducible refine Keeps.ite ?_ ?_
    | split

theorem modeMember_keeps : ∀ a1 a2 a3 a4 a5 d, Keeps [.mode, .cvn] d (modeMember a1 a2 a3 a4 a5 d) := by
  intro a1 a2 a3 a4 a5 d
  unfold modeMember
  repeat' first
    | with_reducible exact Keeps.refl _ _
    | with_reducible assumption
    | ((try lift_lets); intro x; first | (refine Keeps.cut x ?_ ?_; (on_goal 1 => subst x); (on_goal 2 => (clear_value x; intro hx))) | (have hf := fun a => x a; clear hf; subst x) | clear_value x)
    | with_reducible refine (disagreeTrack_keeps ..).after ?_ (by decide)
    | with_reducible refine (onActive_keeps ..).after ?_ (by decide)
    | with_reducible refine (onPropose_keeps ..).after ?_ (by decide)
    | with_reducible refine (updMode_keeps ..).after ?_ (by decide)
    | with_reducible refine Keeps.ite ?_ ?_
    | split

theorem modeFrameReceive_keeps : ∀ a1 d, Keeps [.mode, .cvn] d (modeFrameReceive a1 d) := by
  intro a1 d
  unfold modeFrameReceive
  have h : Keeps [.mode, .cvn] d (forward a1 a1.bytes d) := (forward_keeps ..).mono (by decide)
  generalize forward a1 a1.bytes d = x at h
  dsimp only
  cases framePayload 3 6 8 a1.bytes with
  | none =>
    repeat' first
      | with_reducible exact h
      | with_reducible refine (frameErr_keeps ..).after ?_ (by decide)
      | with_reducible refine (updCvn_keeps ..).after ?_ (by decide)
      | with_reducible refine Keeps.ite ?_ ?_
  | some p =>
    obtain ⟨p, t⟩ := p
    dsimp only
    repeat' first
      | with_reducible exact h
      | with_reducible refine (votesRead_keeps ..).after ?_ (by decide)
      | with_reducible refine (modeMember_keeps ..).after ?_ (by decide)
      | with_reducible refine (updCvn_keeps ..).after ?_ (by decide)
      | with_reducible refine Keeps.ite ?_ ?_

theorem modeSample_keeps : ∀ a1 d, Keeps [.start, .devState, .latch, .mode, .arbs, .clk, .mem] d (modeSample a1 d) := by
  intro a1 d
  unfold modeSample
  repeat' first
    | with_reducible exact Keeps.refl _ _
    | with_reducible assumption
    | ((try lift_lets); intro x; first | (refine Keeps.cut x ?_ ?_; (on_goal 1 => subst x); (on_goal 2 => (clear_value x; intro hx))) | (have hf := fun a => x a; clear hf; subst x) | clear_value x)
    | with_reducible refine (nextMultiple_keeps ..).after ?_ (by decide)
    | with_reducible refine (modeDebounced_keeps ..).after ?_ (by decide)
    | with_reducible refine (disagreeTrack_keeps ..).after ?_ (by decide)
    | with_reducible refine (updMode_keeps ..).after ?_ (by decide)
    | with_reducible refine Keeps.ite ?_ ?_
    | split

theorem modeUnstable_keeps : ∀ d, Keeps [.start, .arbs, .clk, .log] d (modeUnstable d) := by
  intro d
  unfold modeUnstable
  repeat' first
    | with_reducible exact Keeps.refl _ _
    | with_reducible assumption
    | ((try lift_lets); intro x; first | (refine Keeps.cut x ?_ ?_; (on_goal 1 => subst x); (on_goal 2 => (clear_value x; intro hx))) | (have hf := fun a => x a; clear hf; subst x) | clear_value x)
    | with_reducible refine (logEvent_keeps ..).after ?_ (by decide)
    | with_reducible refine (waitUp_keeps ..).after ?_ (by decide)
    | with_reducible refine (updStart_keeps (S := [.start]) _ ?_).after ?_ (by decide)
    | with_reducible refine Keeps.ite ?_ ?_
    | (intro s; refine ⟨fun h => ?_, fun h => ?_, fun h => ?_⟩ <;> first | rfl | (cases h; done) | (split <;> rfl) | (simp; done))
    | (refine ⟨fun h => ?_, fun h => ?_, fun h => ?_⟩ <;> first | rfl | (cases h; done) | (split <;> rfl) | (simp; done))
    | split

theorem modelStep_keeps : ∀ a1 d, Keeps [.devState, .latch, .arbs, .slots, .chans, .profs, .paths, .srcs, .therm, .faults, .col, .log, .caps, .alert] d (modelStep a1 d) := by
  intro a1 d
  unfold modelStep
  repeat' first
    | with_reducible exact Keeps.refl _ _
    | with_reducible assumption
    | ((try lift_lets); intro x; first | (refine Keeps.cut x ?_ ?_; (on_goal 1 => subst x); (on_goal 2 => (clear_value x; intro hx))) | (have hf := fun a => x a; clear hf; subst x) | clear_value x)
    | with_reducible refine (raiseLevel_keeps ..).after ?_ (by decide)
    | with_reducible refine (faultEnds_keeps ..).after ?_ (by decide)
    | with_reducible refine (updTherm_keeps ..).after ?_ (by decide)
    | with_reducible refine Keeps.ite ?_ ?_
    | split

theorem modelsQueue_keeps : ∀ d, Keeps [.arbs, .mem] d (modelsQueue d) := by
  intro d
  unfold modelsQueue
  repeat' first
    | with_reducible exact Keeps.refl _ _
    | with_reducible assumption
    | ((try lift_lets); intro x; first | (refine Keeps.cut x ?_ ?_; (on_goal 1 => subst x); (on_goal 2 => (clear_value x; intro hx))) | (have hf := fun a => x a; clear hf; subst x) | clear_value x)
    | with_reducible refine (arbRequest_keeps ..).after ?_ (by decide)
    | with_reducible refine (updMem_keeps (S := [.mem]) _ ?_ ?_).after ?_ (by decide)
    | with_reducible refine Keeps.ite ?_ ?_
    | (intro s; refine ⟨fun h => ?_, fun h => ?_, fun h => ?_⟩ <;> first | rfl | (cases h; done) | (split <;> rfl) | (simp; done))
    | (intro h; refine ⟨?_, ?_⟩ <;> first | exact h.1 | exact h.2.1 | exact msets_wf _ _ _ h.1 | exact msets_wf _ _ _ h.2.1 | exact wf_nil | exact filter_wf _ _ h.1 | exact composeMem_wf _ _ _ h.2.2.1)
    | split

theorem sendTj_keeps : ∀ a1 d, Keeps [.isl] d (sendTj a1 d) := by
  intro a1 d
  unfold sendTj
  repeat' first
    | with_reducible exact Keeps.refl _ _
    | with_reducible assumption
    | ((try lift_lets); intro x; first | (refine Keeps.cut x ?_ ?_; (on_goal 1 => subst x); (on_goal 2 => (clear_value x; intro hx))) | (have hf := fun a => x a; clear hf; subst x) | clear_value x)
    | with_reducible refine (send_keeps ..).after ?_ (by decide)
    | with_reducible refine Keeps.ite ?_ ?_
    | split

theorem modelsUpdate_keeps : ∀ d, Keeps [.devState, .latch, .arbs, .isl, .slots, .chans, .profs, .paths, .srcs, .therm, .hk, .faults, .col, .log, .caps, .mem, .alert] d (modelsUpdate d) := by
  intro d
  unfold modelsUpdate
  repeat' first
    | with_reducible exact Keeps.refl _ _
    | with_reducible assumption
    | ((try lift_lets); intro x; first | (refine Keeps.cut x ?_ ?_; (on_goal 1 => subst x); (on_goal 2 => (clear_value x; intro hx))) | (have hf := fun a => x a; clear hf; subst x) | clear_value x)
    | with_reducible refine (coolantJudge_keeps ..).after ?_ (by decide)
    | with_reducible refine (sendTj_keeps ..).after ?_ (by decide)
    | with_reducible refine (modelsQueue_keeps ..).after ?_ (by decide)
    | with_reducible refine (modelStep_keeps ..).after ?_ (by decide)
    | with_reducible refine Keeps.forEach (fun _ _ => ?_) ?_
    | with_reducible refine Keeps.ite ?_ ?_
    | split

theorem narrowWrite_keeps : ∀ a1 a2 d, Keeps [.isl, .chans] d (narrowWrite a1 a2 d) := by
  intro a1 a2 d
  unfold narrowWrite
  repeat' first
    | with_reducible exact Keeps.refl _ _
    | with_reducible assumption
    | ((try lift_lets); intro x; first | (refine Keeps.cut x ?_ ?_; (on_goal 1 => subst x); (on_goal 2 => (clear_value x; intro hx))) | (have hf := fun a => x a; clear hf; subst x) | clear_value x)
    | with_reducible refine (send_keeps ..).after ?_ (by decide)
    | with_reducible refine (updChan_keeps ..).after ?_ (by decide)
    | with_reducible refine Keeps.ite ?_ ?_
    | split

theorem requestMod_keeps : ∀ a1 d, Keeps [.devState, .latch, .arbs, .slots, .chans, .profs, .paths, .srcs, .mods, .faults, .col, .log, .caps, .alert] d (requestMod a1 d) := by
  intro a1 d
  unfold requestMod
  repeat' first
    | with_reducible exact Keeps.refl _ _
    | with_reducible assumption
    | ((try lift_lets); intro x; first | (refine Keeps.cut x ?_ ?_; (on_goal 1 => subst x); (on_goal 2 => (clear_value x; intro hx))) | (have hf := fun a => x a; clear hf; subst x) | clear_value x)
    | with_reducible refine (modsOut_keeps ..).after ?_ (by decide)
    | with_reducible refine (arbRequest_keeps ..).after ?_ (by decide)
    | with_reducible refine (arbWithdraw_keeps ..).after ?_ (by decide)
    | with_reducible refine (updMod_keeps ..).after ?_ (by decide)
    | with_reducible refine Keeps.ite ?_ ?_
    | split

theorem requestSlot_keeps : ∀ a1 a2 d, Keeps [.devState, .latch, .arbs, .slots, .chans, .profs, .paths, .srcs, .faults, .col, .log, .caps, .alert] d (requestSlot a1 a2 d) := by
  intro a1 a2 d
  unfold requestSlot
  repeat' first
    | with_reducible exact Keeps.refl _ _
    | with_reducible assumption
    | ((try lift_lets); intro x; first | (refine Keeps.cut x ?_ ?_; (on_goal 1 => subst x); (on_goal 2 => (clear_value x; intro hx))) | (have hf := fun a => x a; clear hf; subst x) | clear_value x)
    | with_reducible refine (slotsOut_keeps ..).after ?_ (by decide)
    | with_reducible refine (arbRequest_keeps ..).after ?_ (by decide)
    | with_reducible refine (arbWithdraw_keeps ..).after ?_ (by decide)
    | with_reducible refine (updChan_keeps ..).after ?_ (by decide)
    | with_reducible refine Keeps.ite ?_ ?_
    | split

theorem newtRequest_keeps : ∀ d, Keeps [.devState, .latch, .arbs, .clk, .slots, .chans, .profs, .paths, .srcs, .mods, .faults, .col, .log, .caps, .alert] d (newtRequest d) := by
  intro d
  unfold newtRequest
  repeat' first
    | with_reducible exact Keeps.refl _ _
    | with_reducible assumption
    | ((try lift_lets); intro x; first | (refine Keeps.cut x ?_ ?_; (on_goal 1 => subst x); (on_goal 2 => (clear_value x; intro hx))) | (have hf := fun a => x a; clear hf; subst x) | clear_value x)
    | with_reducible refine (waitLoc_keeps ..).after ?_ (by decide)
    | with_reducible refine (requestMod_keeps ..).after ?_ (by decide)
    | with_reducible refine (requestSlot_keeps ..).after ?_ (by decide)
    | with_reducible refine Keeps.forEach (fun _ _ => ?_) ?_
    | with_reducible refine Keeps.ite ?_ ?_
    | split

theorem noImageRetry_keeps : ∀ d, Keeps [.start, .devState, .loader, .bootp, .arbs, .clk] d (noImageRetry d) := by
  intro d
  unfold noImageRetry
  repeat' first
    | with_reducible exact Keeps.refl _ _
    | with_reducible assumption
    | ((try lift_lets); intro x; first | (refine Keeps.cut x ?_ ?_; (on_goal 1 => subst x); (on_goal 2 => (clear_value x; intro hx))) | (have hf := fun a => x a; clear hf; subst x) | clear_value x)
    | with_reducible refine (imgStart_keeps ..).after ?_ (by decide)
    | with_reducible refine (enterLoad_keeps ..).after ?_ (by decide)
    | with_reducible refine (waitUp_keeps ..).after ?_ (by decide)
    | with_reducible refine Keeps.ite ?_ ?_
    | split

theorem nvmBegin_keeps : ∀ a1 a2 a3 a4 d, Keeps [.bootp, .reload] d (nvmBegin a1 a2 a3 a4 d) := by
  intro a1 a2 a3 a4 d
  unfold nvmBegin
  repeat' first
    | with_reducible exact Keeps.refl _ _
    | with_reducible assumption
    | ((try lift_lets); intro x; first | (refine Keeps.cut x ?_ ?_; (on_goal 1 => subst x); (on_goal 2 => (clear_value x; intro hx))) | (have hf := fun a => x a; clear hf; subst x) | clear_value x)
    | with_reducible refine (updReload_keeps _ ?_).after ?_ (by decide)
    | with_reducible refine (updBoot_keeps ..).after ?_ (by decide)
    | with_reducible refine Keeps.ite ?_ ?_
    | (intro s h; first | exact h | exact baseOf_wf _ | rfl | exact msets_wf _ _ _ h | (dsimp only; split <;> first | exact h | exact baseOf_wf _ | rfl))
    | split

theorem nvmDataRead_keeps : ∀ a1 d, Keeps [.arbs, .log, .fi, .sup] d (nvmDataRead a1 d) := by
  intro a1 d
  unfold nvmDataRead
  repeat' first
    | with_reducible exact Keeps.refl _ _
    | with_reducible assumption
    | ((try lift_lets); intro x; first | (refine Keeps.cut x ?_ ?_; (on_goal 1 => subst x); (on_goal 2 => (clear_value x; intro hx))) | (have hf := fun a => x a; clear hf; subst x) | clear_value x)
    | with_reducible refine (blockRead_keeps ..).after ?_ (by decide)
    | with_reducible refine (countRefused_keeps ..).after ?_ (by decide)
    | with_reducible refine Keeps.ite ?_ ?_
    | split

theorem nvmFetch_keeps : ∀ a1 d, Keeps [.bootp, .arbs, .reload, .sup] d (nvmFetch a1 d) := by
  intro a1 d
  unfold nvmFetch
  repeat' first
    | with_reducible exact Keeps.refl _ _
    | with_reducible assumption
    | ((try lift_lets); intro x; first | (refine Keeps.cut x ?_ ?_; (on_goal 1 => subst x); (on_goal 2 => (clear_value x; intro hx))) | (have hf := fun a => x a; clear hf; subst x) | clear_value x)
    | with_reducible refine Keeps.blockWrite (fun _ _ _ => ?_) ?_ (by decide)
    | with_reducible refine Keeps.ifOk (fun _ _ => ?_) ?_
    | with_reducible refine (bootNew_keeps ..).after ?_ (by decide)
    | with_reducible refine (nvmBegin_keeps ..).after ?_ (by decide)
    | with_reducible refine (updBoot_keeps ..).after ?_ (by decide)
    | with_reducible refine Keeps.ite ?_ ?_
    | split

theorem nvmWrite_keeps : ∀ a1 d, Keeps [.bootp, .arbs, .reload, .sup] d (nvmWrite a1 d) := by
  intro a1 d
  unfold nvmWrite
  repeat' first
    | with_reducible exact Keeps.refl _ _
    | with_reducible assumption
    | ((try lift_lets); intro x; first | (refine Keeps.cut x ?_ ?_; (on_goal 1 => subst x); (on_goal 2 => (clear_value x; intro hx))) | (have hf := fun a => x a; clear hf; subst x) | clear_value x)
    | with_reducible refine Keeps.blockWrite (fun _ _ _ => ?_) ?_ (by decide)
    | with_reducible refine Keeps.ifOk (fun _ _ => ?_) ?_
    | with_reducible refine (bootNew_keeps ..).after ?_ (by decide)
    | with_reducible refine (nvmBegin_keeps ..).after ?_ (by decide)
    | with_reducible refine Keeps.ite ?_ ?_
    | split

theorem onJoin_keeps : ∀ a1 a2 a3 d, Keeps [.arbs, .cvn, .log, .sup] d (onJoin a1 a2 a3 d) := by
  intro a1 a2 a3 d
  unfold onJoin
  repeat' first
    | with_reducible exact Keeps.refl _ _
    | with_reducible assumption
    | ((try lift_lets); intro x; first | (refine Keeps.cut x ?_ ?_; (on_goal 1 => subst x); (on_goal 2 => (clear_value x; intro hx))) | (have hf := fun a => x a; clear hf; subst x) | clear_value x)
    | with_reducible refine (logEvent_keeps ..).after ?_ (by decide)
    | with_reducible refine (addMember_keeps ..).after ?_ (by decide)
    | with_reducible refine (updCvn_keeps ..).after ?_ (by decide)
    | with_reducible refine Keeps.ite ?_ ?_
    | split

theorem saturated_keeps : ∀ a1 a2 d, Keeps [.slots] d (saturated a1 a2 d) := by
  intro a1 a2 d
  unfold saturated
  repeat' first
    | with_reducible exact Keeps.refl _ _
    | with_reducible assumption
    | ((try lift_lets); intro x; first | (refine Keeps.cut x ?_ ?_; (on_goal 1 => subst x); (on_goal 2 => (clear_value x; intro hx))) | (have hf := fun a => x a; clear hf; subst x) | clear_value x)
    | with_reducible refine (xOff_keeps ..).after ?_ (by decide)
    | with_reducible refine (updSlot_keeps _ _ ?_).after ?_ (by decide)
    | with_reducible refine Keeps.ite ?_ ?_
    | (intro s h; first | exact h | (simp only [SlotSt.apart] at *; done) | (dsimp only; split <;> exact h) | (cases s; simp_all [SlotSt.apart]; done))
    | split

theorem onTimeLimit_keeps : ∀ a1 a2 d, Keeps [.clk, .slots] d (onTimeLimit a1 a2 d) := by
  intro a1 a2 d
  unfold onTimeLimit
  repeat' first
    | with_reducible exact Keeps.refl _ _
    | with_reducible assumption
    | ((try lift_lets); intro x; first | (refine Keeps.cut x ?_ ?_; (on_goal 1 => subst x); (on_goal 2 => (clear_value x; intro hx))) | (have hf := fun a => x a; clear hf; subst x) | clear_value x)
    | with_reducible refine (saturated_keeps ..).after ?_ (by decide)
    | with_reducible refine (waitUp_keeps ..).after ?_ (by decide)
    | with_reducible refine Keeps.ite ?_ ?_
    | split

theorem oscLost_keeps : ∀ a1 a2 d, Keeps [.devState, .latch, .arbs, .slots, .chans, .profs, .paths, .srcs, .hk, .faults, .col, .log, .caps, .alert] d (oscLost a1 a2 d) := by
  intro a1 a2 d
  unfold oscLost
  repeat' first
    | with_reducible exact Keeps.refl _ _
    | with_reducible assumption
    | ((try lift_lets); intro x; first | (refine Keeps.cut x ?_ ?_; (on_goal 1 => subst x); (on_goal 2 => (clear_value x; intro hx))) | (have hf := fun a => x a; clear hf; subst x) | clear_value x)
    | with_reducible refine (logEvent_keeps ..).after ?_ (by decide)
    | with_reducible refine (raiseLevel_keeps ..).after ?_ (by decide)
    | with_reducible refine (updHk_keeps ..).after ?_ (by decide)
    | with_reducible refine Keeps.ite ?_ ?_
    | split

theorem overlayPropose_keeps : ∀ d, Keeps [.mode] d (overlayPropose d) := by
  intro d
  unfold overlayPropose
  repeat' first
    | with_reducible exact Keeps.refl _ _
    | with_reducible assumption
    | ((try lift_lets); intro x; first | (refine Keeps.cut x ?_ ?_; (on_goal 1 => subst x); (on_goal 2 => (clear_value x; intro hx))) | (have hf := fun a => x a; clear hf; subst x) | clear_value x)
    | with_reducible refine (updMode_keeps ..).after ?_ (by decide)
    | with_reducible refine Keeps.ite ?_ ?_
    | split

theorem ownFrame_keeps : ∀ a1 d, Keeps [.devState, .latch, .arbs, .cvn, .slots, .chans, .profs, .paths, .srcs, .faults, .col, .log, .caps, .alert] d (ownFrame a1 d) := by
  intro a1 d
  unfold ownFrame
  repeat' first
    | with_reducible exact Keeps.refl _ _
    | with_reducible assumption
    | ((try lift_lets); intro x; first | (refine Keeps.cut x ?_ ?_; (on_goal 1 => subst x); (on_goal 2 => (clear_value x; intro hx))) | (have hf := fun a => x a; clear hf; subst x) | clear_value x)
    | with_reducible refine (faultEnds_keeps ..).after ?_ (by decide)
    | with_reducible refine (raiseLevel_keeps ..).after ?_ (by decide)
    | with_reducible refine (updCvn_keeps ..).after ?_ (by decide)
    | with_reducible refine Keeps.ite ?_ ?_
    | split

theorem pageTimeout_keeps : ∀ d, Keeps [.start, .devState, .latch, .loader, .mode, .bootp, .arbs, .clk, .cal, .log, .mem, .reload, .alert] d (pageTimeout d) := by
  intro d
  unfold pageTimeout
  repeat' first
    | with_reducible exact Keeps.refl _ _
    | with_reducible assumption
    | ((try lift_lets); intro x; first | (refine Keeps.cut x ?_ ?_; (on_goal 1 => subst x); (on_goal 2 => (clear_value x; intro hx))) | (have hf := fun a => x a; clear hf; subst x) | clear_value x)
    | with_reducible refine (arbRelease_keeps ..).after ?_ (by decide)
    | with_reducible refine (arbWithdraw_keeps ..).after ?_ (by decide)
    | with_reducible refine (waitUp_keeps ..).after ?_ (by decide)
    | with_reducible refine (bootFailed_keeps ..).after ?_ (by decide)
    | with_reducible refine (updBoot_keeps ..).after ?_ (by decide)
    | with_reducible refine Keeps.ite ?_ ?_
    | split

theorem pathCheckTimeout_keeps : ∀ a1 d, Keeps [.devState, .latch, .arbs, .clk, .slots, .chans, .profs, .paths, .srcs, .faults, .col, .log, .caps, .alert] d (pathCheckTimeout a1 d) := by
  intro a1 d
  unfold pathCheckTimeout
  repeat' first
    | with_reducible exact Keeps.refl _ _
    | with_reducible assumption
    | ((try lift_lets); intro x; first | (refine Keeps.cut x ?_ ?_; (on_goal 1 => subst x); (on_goal 2 => (clear_value x; intro hx))) | (have hf := fun a => x a; clear hf; subst x) | clear_value x)
    | with_reducible refine (waitUp_keeps ..).after ?_ (by decide)
    | with_reducible refine (holdBy_keeps ..).after ?_ (by decide)
    | with_reducible refine (pathHold_keeps ..).after ?_ (by decide)
    | with_reducible refine (pathZero_keeps ..).after ?_ (by decide)
    | with_reducible refine (updPath_keeps ..).after ?_ (by decide)
    | with_reducible refine Keeps.ite ?_ ?_
    | split

def readEffectParts : List Part :=
  [.devState, .latch, .loader, .button, .mode, .bootp, .arbs, .cvn, .halt, .slots, .chans, .profs, .paths, .srcs, .mods, .seqs, .rings, .nobind, .therm, .hk, .faults, .col, .log, .caps, .mem, .sup, .alert]

theorem readEffect_keeps : ∀ a1 d, Keeps readEffectParts d (readEffect a1 d) := by
  intro a1 d
  unfold readEffect
  repeat' first
    | with_reducible exact Keeps.refl _ _
    | with_reducible assumption
    | ((try lift_lets); intro x; first | (refine Keeps.cut x ?_ ?_; (on_goal 1 => subst x); (on_goal 2 => (clear_value x; intro hx))) | (have hf := fun a => x a; clear hf; subst x) | clear_value x)
    | with_reducible refine (cwRead_keeps ..).after ?_ (by decide)
    | with_reducible refine (devReadEffect_keeps ..).after ?_ (by decide)
    | with_reducible refine (chanReadEffect_keeps ..).after ?_ (by decide)
    | with_reducible refine (updSrc_keeps ..).after ?_ (by decide)
    | with_reducible refine (updSlot_keeps _ _ ?_).after ?_ (by decide)
    | with_reducible refine (updRing_keeps ..).after ?_ (by decide)
    | with_reducible refine (updTherm_keeps ..).after ?_ (by decide)
    | with_reducible refine (updArb_keeps ..).after ?_ (by decide)
    | with_reducible refine (updFault_keeps ..).after ?_ (by decide)
    | with_reducible refine Keeps.ite ?_ ?_
    | (intro s h; first | exact h | (simp only [SlotSt.apart] at *; done) | (dsimp only; split <;> exact h) | (cases s; simp_all [SlotSt.apart]; done))
    | split

theorem peekRun_keeps : ∀ l (d : Device), Keeps [.devState, .latch, .loader, .button, .mode, .bootp, .arbs, .cvn, .halt, .slots, .chans, .profs, .paths, .srcs, .mods, .seqs, .rings, .nobind, .therm, .hk, .faults, .col, .log, .caps, .fi, .mem, .sup, .alert] d (peekRun l d).2 := by
  intro l
  induction l with
  | nil => intro d; exact Keeps.refl _ _
  | cons w l ih =>
    intro d
    cases w with
    | none => exact ih d
    | some w => exact (ih _).after ((readEffect_keeps ..).mono (by decide)) (by decide)

theorem peek_keeps : ∀ a1 d, Keeps [.devState, .latch, .loader, .button, .mode, .bootp, .arbs, .cvn, .halt, .slots, .chans, .profs, .paths, .srcs, .mods, .seqs, .rings, .nobind, .therm, .hk, .faults, .col, .log, .caps, .fi, .mem, .sup, .alert] d (peek a1 d) := by
  intro a1 d
  unfold peek
  exact Keeps.processCall (fun _ _ => peekRun_keeps _ _) (Keeps.refl _ _) (by decide)

theorem pollFresh_keeps : ∀ a1 a2 d, Keeps [.sup, .alert] d (pollFresh a1 a2 d) := by
  intro a1 a2 d
  unfold pollFresh
  repeat' first
    | with_reducible exact Keeps.refl _ _
    | with_reducible assumption
    | ((try lift_lets); intro x; first | (refine Keeps.cut x ?_ ?_; (on_goal 1 => subst x); (on_goal 2 => (clear_value x; intro hx))) | (have hf := fun a => x a; clear hf; subst x) | clear_value x)
    | with_reducible refine (setEntry_keeps ..).after ?_ (by decide)
    | with_reducible refine (alertSet_keeps ..).after ?_ (by decide)
    | with_reducible refine Keeps.ite ?_ ?_
    | split

theorem pollDone_keeps : ∀ a1 d, Keeps [.arbs, .sup, .alert] d (pollDone a1 d) := by
  intro a1 d
  unfold pollDone
  repeat' first
    | with_reducible exact Keeps.refl _ _
    | with_reducible assumption
    | ((try lift_lets); intro x; first | (refine Keeps.cut x ?_ ?_; (on_goal 1 => subst x); (on_goal 2 => (clear_value x; intro hx))) | (have hf := fun a => x a; clear hf; subst x) | clear_value x)
    | with_reducible refine (pollOver_keeps ..).after ?_ (by decide)
    | with_reducible refine (pollFresh_keeps ..).after ?_ (by decide)
    | with_reducible refine (pollFailed_keeps ..).after ?_ (by decide)
    | with_reducible refine (alertAnswered_keeps ..).after ?_ (by decide)
    | with_reducible refine Keeps.ite ?_ ?_
    | split

theorem pollRound_keeps : ∀ d, Keeps [.arbs, .clk, .sup] d (pollRound d) := by
  intro d
  unfold pollRound
  repeat' first
    | with_reducible exact Keeps.refl _ _
    | with_reducible assumption
    | ((try lift_lets); intro x; first | (refine Keeps.cut x ?_ ?_; (on_goal 1 => subst x); (on_goal 2 => (clear_value x; intro hx))) | (have hf := fun a => x a; clear hf; subst x) | clear_value x)
    | with_reducible refine (waitLoc_keeps ..).after ?_ (by decide)
    | with_reducible refine (setEntry_keeps ..).after ?_ (by decide)
    | with_reducible refine (arbRequest_keeps ..).after ?_ (by decide)
    | with_reducible refine (updSup_keeps (S := [.sup]) _ ?_).after ?_ (by decide)
    | with_reducible refine Keeps.forEach (fun _ _ => ?_) ?_
    | with_reducible refine Keeps.ite ?_ ?_
    | (intro s; refine ⟨fun h => ?_, fun h => ?_⟩ <;> first | rfl | (cases h; done) | (split <;> rfl) | (simp; done))
    | (refine ⟨fun h => ?_, fun h => ?_⟩ <;> first | rfl | (cases h; done) | (split <;> rfl) | (simp; done))
    | split

theorem presenceConfirmed_keeps : ∀ a1 d, Keeps [.clk, .paths] d (presenceConfirmed a1 d) := by
  intro a1 d
  unfold presenceConfirmed
  repeat' first
    | with_reducible exact Keeps.refl _ _
    | with_reducible assumption
    | ((try lift_lets); intro x; first | (refine Keeps.cut x ?_ ?_; (on_goal 1 => subst x); (on_goal 2 => (clear_value x; intro hx))) | (have hf := fun a => x a; clear hf; subst x) | clear_value x)
    | with_reducible refine (tryInsert_keeps ..).after ?_ (by decide)
    | with_reducible refine (waitUp_keeps ..).after ?_ (by decide)
    | with_reducible refine Keeps.ite ?_ ?_
    | split

theorem presentTimer_keeps : ∀ d, Keeps [.clk, .cvn] d (presentTimer d) := by
  intro d
  unfold presentTimer
  repeat' first
    | with_reducible exact Keeps.refl _ _
    | with_reducible assumption
    | ((try lift_lets); intro x; first | (refine Keeps.cut x ?_ ?_; (on_goal 1 => subst x); (on_goal 2 => (clear_value x; intro hx))) | (have hf := fun a => x a; clear hf; subst x) | clear_value x)
    | with_reducible refine (rollPush_keeps ..).after ?_ (by decide)
    | with_reducible refine (nextLocal_keeps ..).after ?_ (by decide)
    | with_reducible refine Keeps.ite ?_ ?_
    | split

theorem promotionWindowEnd_keeps : ∀ a1 d, Keeps [.clk, .faults] d (promotionWindowEnd a1 d) := by
  intro a1 d
  unfold promotionWindowEnd
  repeat' first
    | with_reducible exact Keeps.refl _ _
    | with_reducible assumption
    | ((try lift_lets); intro x; first | (refine Keeps.cut x ?_ ?_; (on_goal 1 => subst x); (on_goal 2 => (clear_value x; intro hx))) | (have hf := fun a => x a; clear hf; subst x) | clear_value x)
    | with_reducible refine (waitLoc_keeps ..).after ?_ (by decide)
    | with_reducible refine (updFault_keeps ..).after ?_ (by decide)
    | with_reducible refine Keeps.ite ?_ ?_
    | split

theorem proposeTimeout_keeps : ∀ d, Keeps [.mode, .clk] d (proposeTimeout d) := by
  intro d
  unfold proposeTimeout
  repeat' first
    | with_reducible exact Keeps.refl _ _
    | with_reducible assumption
    | ((try lift_lets); intro x; first | (refine Keeps.cut x ?_ ?_; (on_goal 1 => subst x); (on_goal 2 => (clear_value x; intro hx))) | (have hf := fun a => x a; clear hf; subst x) | clear_value x)
    | with_reducible refine (modeCancel_keeps ..).after ?_ (by decide)
    | with_reducible refine (waitLoc_keeps ..).after ?_ (by decide)
    | with_reducible refine Keeps.ite ?_ ?_
    | split

end Sys2Proof.Machine
end

