-- ==== Sys2Proof/Laws/Keeps11.lean ====
section
/-! SUPPORT. Sys2Proof/Laws/Keeps11.lean: what each operation of the model leaves unchanged (one lemma per operation, in the order of their use). -/

namespace Sys2Proof.Machine

set_option linter.unusedTactic false
set_option linter.unreachableTactic false
set_option linter.unusedVariables false

theorem pulseRampDown_keeps : ∀ a1 d, Keeps [.clk, .chans] d (pulseRampDown a1 d) := by
  intro a1 d
  unfold pulseRampDown
  repeat' first
    | with_reducible exact Keeps.refl _ _
    | with_reducible assumption
    | ((try lift_lets); intro x; first | (refine Keeps.cut x ?_ ?_; (on_goal 1 => subst x); (on_goal 2 => (clear_value x; intro hx))) | (have hf := fun a => x a; clear hf; subst x) | clear_value x)
    | with_reducible refine (waitLoc_keeps ..).after ?_ (by decide)
    | with_reducible refine (updChan_keeps ..).after ?_ (by decide)
    | with_reducible refine Keeps.ite ?_ ?_
    | split

theorem qualTimer_keeps : ∀ a1 d, Keeps [.devState, .latch, .arbs, .clk, .isl, .slots, .quads, .chans, .profs, .paths, .srcs, .bus, .faults, .col, .log, .caps, .alert] d (qualTimer a1 d) := by
  intro a1 d
  unfold qualTimer
  repeat' first
    | with_reducible exact Keeps.refl _ _
    | with_reducible assumption
    | ((try lift_lets); intro x; first | (refine Keeps.cut x ?_ ?_; (on_goal 1 => subst x); (on_goal 2 => (clear_value x; intro hx))) | (have hf := fun a => x a; clear hf; subst x) | clear_value x)
    | with_reducible refine (halveEval_keeps ..).after ?_ (by decide)
    | with_reducible refine (busEval_keeps ..).after ?_ (by decide)
    | with_reducible refine (srcToRamp_keeps ..).after ?_ (by decide)
    | with_reducible refine (waitUp_keeps ..).after ?_ (by decide)
    | with_reducible refine Keeps.ite ?_ ?_
    | split

theorem quietEnd_keeps : ∀ d, Keeps [.arbs, .clk, .isl, .launches, .cvn, .halt, .slots, .quads, .chans, .profs, .paths, .mods, .seqs, .rings, .writers, .cal, .log] d (quietEnd d) := by
  intro d
  unfold quietEnd
  repeat' first
    | with_reducible exact Keeps.refl _ _
    | with_reducible assumption
    | ((try lift_lets); intro x; first | (refine Keeps.cut x ?_ ?_; (on_goal 1 => subst x); (on_goal 2 => (clear_value x; intro hx))) | (have hf := fun a => x a; clear hf; subst x) | clear_value x)
    | with_reducible refine (quietStep_keeps ..).after ?_ (by decide)
    | with_reducible refine (quadReload_keeps ..).after ?_ (by decide)
    | with_reducible refine (quietEndQuad_keeps ..).after ?_ (by decide)
    | with_reducible refine (quietFinish_keeps ..).after ?_ (by decide)
    | with_reducible refine (waitLoc_keeps ..).after ?_ (by decide)
    | with_reducible refine Keeps.forEach (fun _ _ => ?_) ?_
    | with_reducible refine Keeps.ite ?_ ?_
    | split

def quietStartParts : List Part :=
  [.devState, .latch, .loader, .check, .mode, .arbs, .clk, .isl, .halt, .slots, .quads, .chans, .profs, .paths, .srcs, .mods, .seqs, .rings, .writers, .nobind, .faults, .col, .log, .caps, .fi, .mem, .conf, .swaps, .reload, .alert]

theorem quietStart_keeps : ∀ d, Keeps quietStartParts d (quietStart d) := by
  intro d
  unfold quietStart
  repeat' first
    | with_reducible exact Keeps.refl _ _
    | with_reducible assumption
    | ((try lift_lets); intro x; first | (refine Keeps.cut x ?_ ?_; (on_goal 1 => subst x); (on_goal 2 => (clear_value x; intro hx))) | (have hf := fun a => x a; clear hf; subst x) | clear_value x)
    | with_reducible refine (quietStopQuad_keeps ..).after ?_ (by decide)
    | with_reducible refine (quietBegin_keeps ..).after ?_ (by decide)
    | with_reducible refine (waitLoc_keeps ..).after ?_ (by decide)
    | with_reducible refine Keeps.forEach (fun _ _ => ?_) ?_
    | with_reducible refine Keeps.ite ?_ ?_
    | split

theorem railFalling_keeps : ∀ a1 a2 d, Keeps everyPart d (railFalling a1 a2 d) := by
  intro a1 a2 d
  unfold railFalling
  repeat' first
    | with_reducible exact Keeps.refl _ _
    | with_reducible assumption
    | ((try lift_lets); intro x; first | (refine Keeps.cut x ?_ ?_; (on_goal 1 => subst x); (on_goal 2 => (clear_value x; intro hx))) | (have hf := fun a => x a; clear hf; subst x) | clear_value x)
    | with_reducible refine (enterReset_keeps ..).after ?_ (by decide)
    | with_reducible refine (updStart_keeps (S := [.start, .devState, .latch]) _ ?_).after ?_ (by decide)
    | with_reducible refine Keeps.ite ?_ ?_
    | (intro s; refine ⟨fun h => ?_, fun h => ?_, fun h => ?_⟩ <;> first | rfl | (cases h; done) | (split <;> rfl) | (simp; done))
    | (refine ⟨fun h => ?_, fun h => ?_, fun h => ?_⟩ <;> first | rfl | (cases h; done) | (split <;> rfl) | (simp; done))
    | split

theorem rampUpdate_keeps : ∀ a1 d, Keeps [.chans] d (rampUpdate a1 d) := by
  intro a1 d
  unfold rampUpdate
  repeat' first
    | with_reducible exact Keeps.refl _ _
    | with_reducible assumption
    | ((try lift_lets); intro x; first | (refine Keeps.cut x ?_ ?_; (on_goal 1 => subst x); (on_goal 2 => (clear_value x; intro hx))) | (have hf := fun a => x a; clear hf; subst x) | clear_value x)
    | with_reducible refine (updChan_keeps ..).after ?_ (by decide)
    | with_reducible refine Keeps.ite ?_ ?_
    | split

theorem rampFactorUpdate_keeps : ∀ d, Keeps [.clk, .halt, .chans] d (rampFactorUpdate d) := by
  intro d
  unfold rampFactorUpdate
  repeat' first
    | with_reducible exact Keeps.refl _ _
    | with_reducible assumption
    | ((try lift_lets); intro x; first | (refine Keeps.cut x ?_ ?_; (on_goal 1 => subst x); (on_goal 2 => (clear_value x; intro hx))) | (have hf := fun a => x a; clear hf; subst x) | clear_value x)
    | with_reducible refine (nextMultiple_keeps ..).after ?_ (by decide)
    | with_reducible refine (rampUpdate_keeps ..).after ?_ (by decide)
    | with_reducible refine (updHalt_keeps ..).after ?_ (by decide)
    | with_reducible refine Keeps.forEach (fun _ _ => ?_) ?_
    | with_reducible refine Keeps.ite ?_ ?_
    | split

theorem readback_keeps : ∀ a1 a2 a3 a4 d, Keeps [.devState, .latch, .arbs, .slots, .quads, .chans, .profs, .paths, .srcs, .faults, .col, .log, .caps, .alert] d (readback a1 a2 a3 a4 d) := by
  intro a1 a2 a3 a4 d
  unfold readback
  repeat' first
    | with_reducible exact Keeps.refl _ _
    | with_reducible assumption
    | ((try lift_lets); intro x; first | (refine Keeps.cut x ?_ ?_; (on_goal 1 => subst x); (on_goal 2 => (clear_value x; intro hx))) | (have hf := fun a => x a; clear hf; subst x) | clear_value x)
    | with_reducible refine (raise_keeps ..).after ?_ (by decide)
    | with_reducible refine (updSlot_keeps _ _ ?_).after ?_ (by decide)
    | with_reducible refine (updQuad_keeps ..).after ?_ (by decide)
    | with_reducible refine Keeps.ite ?_ ?_
    | (intro s h; first | exact h | (simp only [SlotSt.apart] at *; done) | (dsimp only; split <;> exact h) | (cases s; simp_all [SlotSt.apart]; done))
    | split

theorem readbackDone_keeps : ∀ a1 a2 a3 a4 d, Keeps [.devState, .latch, .arbs, .clk, .slots, .quads, .chans, .profs, .paths, .srcs, .mods, .faults, .col, .log, .caps, .alert] d (readbackDone a1 a2 a3 a4 d) := by
  intro a1 a2 a3 a4 d
  unfold readbackDone
  repeat' first
    | with_reducible exact Keeps.refl _ _
    | with_reducible assumption
    | ((try lift_lets); intro x; first | (refine Keeps.cut x ?_ ?_; (on_goal 1 => subst x); (on_goal 2 => (clear_value x; intro hx))) | (have hf := fun a => x a; clear hf; subst x) | clear_value x)
    | with_reducible refine (waitUp_keeps ..).after ?_ (by decide)
    | with_reducible refine (readback_keeps ..).after ?_ (by decide)
    | with_reducible refine (arbRelease_keeps ..).after ?_ (by decide)
    | with_reducible refine (arbRequest_keeps ..).after ?_ (by decide)
    | with_reducible refine (updMod_keeps ..).after ?_ (by decide)
    | with_reducible refine Keeps.ite ?_ ?_
    | split

theorem rearmCheckDone_keeps : ∀ a1 d, Keeps [.check, .arbs, .isl, .launches, .chans, .log, .alert] d (rearmCheckDone a1 d) := by
  intro a1 d
  unfold rearmCheckDone
  repeat' first
    | with_reducible exact Keeps.refl _ _
    | with_reducible assumption
    | ((try lift_lets); intro x; first | (refine Keeps.cut x ?_ ?_; (on_goal 1 => subst x); (on_goal 2 => (clear_value x; intro hx))) | (have hf := fun a => x a; clear hf; subst x) | clear_value x)
    | with_reducible refine (refusedInRun_keeps ..).after ?_ (by decide)
    | with_reducible refine (setDetail_keeps ..).after ?_ (by decide)
    | with_reducible refine (setStartCheck_keeps ..).after ?_ (by decide)
    | with_reducible refine (launchSoon_keeps ..).after ?_ (by decide)
    | with_reducible refine (updChan_keeps ..).after ?_ (by decide)
    | with_reducible refine Keeps.ite ?_ ?_
    | split

def reloadRearmParts : List Part :=
  [.devState, .latch, .loader, .check, .arbs, .clk, .isl, .slots, .quads, .chans, .profs, .paths, .srcs, .mods, .seqs, .rings, .writers, .nobind, .faults, .col, .log, .caps, .fi, .mem, .conf, .swaps, .reload, .alert]

theorem reloadRearm_keeps : ∀ d, Keeps reloadRearmParts d (reloadRearm d) := by
  intro d
  unfold reloadRearm
  repeat' first
    | with_reducible exact Keeps.refl _ _
    | with_reducible assumption
    | ((try lift_lets); intro x; first | (refine Keeps.cut x ?_ ?_; (on_goal 1 => subst x); (on_goal 2 => (clear_value x; intro hx))) | (have hf := fun a => x a; clear hf; subst x) | clear_value x)
    | with_reducible refine (waitLoc_keeps ..).after ?_ (by decide)
    | with_reducible refine (quadsWork_keeps ..).after ?_ (by decide)
    | with_reducible refine (rearmGive_keeps ..).after ?_ (by decide)
    | with_reducible refine Keeps.ite ?_ ?_
    | split

theorem rearmRow_keeps : ∀ d, Keeps everyPart d (rearmRow d) := by
  intro d
  unfold rearmRow
  exact Keeps.ite (Keeps.trans ((launchesArrive_keeps d).mono (by decide)) (launchesUntil_keeps ..))
    (timed_keeps (by decide) (fun _ => (reloadRearm_keeps ..).mono (by decide)) _ _)

theorem recTimeout_keeps : ∀ a1 d, Keeps [.devState, .latch, .arbs, .clk, .slots, .chans, .profs, .paths, .srcs, .faults, .col, .log, .caps, .alert] d (recTimeout a1 d) := by
  intro a1 d
  unfold recTimeout
  repeat' first
    | with_reducible exact Keeps.refl _ _
    | with_reducible assumption
    | ((try lift_lets); intro x; first | (refine Keeps.cut x ?_ ?_; (on_goal 1 => subst x); (on_goal 2 => (clear_value x; intro hx))) | (have hf := fun a => x a; clear hf; subst x) | clear_value x)
    | with_reducible refine (raise_keeps ..).after ?_ (by decide)
    | with_reducible refine (pass_keeps ..).after ?_ (by decide)
    | with_reducible refine (updProf_keeps ..).after ?_ (by decide)
    | with_reducible refine Keeps.ite ?_ ?_
    | split

theorem recoveryGrant_keeps : ∀ a1 d, Keeps [.arbs, .clk, .slots, .chans, .paths, .srcs, .faults, .col, .log] d (recoveryGrant a1 d) := by
  intro a1 d
  unfold recoveryGrant
  repeat' first
    | with_reducible exact Keeps.refl _ _
    | with_reducible assumption
    | ((try lift_lets); intro x; first | (refine Keeps.cut x ?_ ?_; (on_goal 1 => subst x); (on_goal 2 => (clear_value x; intro hx))) | (have hf := fun a => x a; clear hf; subst x) | clear_value x)
    | with_reducible refine (waitLoc_keeps ..).after ?_ (by decide)
    | with_reducible refine (logPush_keeps ..).after ?_ (by decide)
    | with_reducible refine (releaseHold_keeps ..).after ?_ (by decide)
    | with_reducible refine (grantRecord_keeps ..).after ?_ (by decide)
    | with_reducible refine (updFault_keeps ..).after ?_ (by decide)
    | with_reducible refine Keeps.ite ?_ ?_
    | split

theorem refChange_keeps : ∀ d, Keeps [.arbs, .clk, .mods, .seqs, .cal, .hk, .log, .alert] d (refChange d) := by
  intro d
  unfold refChange
  repeat' first
    | with_reducible exact Keeps.refl _ _
    | with_reducible assumption
    | ((try lift_lets); intro x; first | (refine Keeps.cut x ?_ ?_; (on_goal 1 => subst x); (on_goal 2 => (clear_value x; intro hx))) | (have hf := fun a => x a; clear hf; subst x) | clear_value x)
    | with_reducible refine (waitLoc_keeps ..).after ?_ (by decide)
    | with_reducible refine (logEvent_keeps ..).after ?_ (by decide)
    | with_reducible refine (discardConv_keeps ..).after ?_ (by decide)
    | with_reducible refine (updHk_keeps ..).after ?_ (by decide)
    | with_reducible refine Keeps.forEach (fun _ _ => ?_) ?_
    | with_reducible refine Keeps.ite ?_ ?_
    | (fail_if_no_progress with_reducible refine (set_mods_keeps _ _).after ?_ (by decide))
    | split

theorem refImplausible_keeps : ∀ a1 d, Keeps [.devState, .latch, .arbs, .slots, .chans, .profs, .paths, .srcs, .hk, .faults, .col, .log, .caps, .alert] d (refImplausible a1 d) := by
  intro a1 d
  unfold refImplausible
  repeat' first
    | with_reducible exact Keeps.refl _ _
    | with_reducible assumption
    | ((try lift_lets); intro x; first | (refine Keeps.cut x ?_ ?_; (on_goal 1 => subst x); (on_goal 2 => (clear_value x; intro hx))) | (have hf := fun a => x a; clear hf; subst x) | clear_value x)
    | with_reducible refine (raiseLevel_keeps ..).after ?_ (by decide)
    | with_reducible refine (updHk_keeps ..).after ?_ (by decide)
    | with_reducible refine Keeps.ite ?_ ?_
    | split

theorem refPlausible_keeps : ∀ a1 d, Keeps [.devState, .latch, .arbs, .slots, .chans, .profs, .paths, .srcs, .hk, .faults, .col, .log, .caps, .alert] d (refPlausible a1 d) := by
  intro a1 d
  unfold refPlausible
  repeat' first
    | with_reducible exact Keeps.refl _ _
    | with_reducible assumption
    | ((try lift_lets); intro x; first | (refine Keeps.cut x ?_ ?_; (on_goal 1 => subst x); (on_goal 2 => (clear_value x; intro hx))) | (have hf := fun a => x a; clear hf; subst x) | clear_value x)
    | with_reducible refine (faultEnds_keeps ..).after ?_ (by decide)
    | with_reducible refine (updHk_keeps ..).after ?_ (by decide)
    | with_reducible refine Keeps.ite ?_ ?_
    | split

theorem refusedRoll_keeps : ∀ a1 d, Keeps [.start, .mode, .arbs, .isl, .launches, .cvn, .halt, .mods, .seqs, .log] d (refusedRoll a1 d) := by
  intro a1 d
  unfold refusedRoll
  repeat' first
    | with_reducible exact Keeps.refl _ _
    | with_reducible assumption
    | ((try lift_lets); intro x; first | (refine Keeps.cut x ?_ ?_; (on_goal 1 => subst x); (on_goal 2 => (clear_value x; intro hx))) | (have hf := fun a => x a; clear hf; subst x) | clear_value x)
    | with_reducible refine (logEvent_keeps ..).after ?_ (by decide)
    | with_reducible refine (runAlone_keeps ..).after ?_ (by decide)
    | with_reducible refine (resolve_keeps ..).after ?_ (by decide)
    | with_reducible refine (updCvn_keeps ..).after ?_ (by decide)
    | with_reducible refine (updStart_keeps (S := [.start]) _ ?_).after ?_ (by decide)
    | with_reducible refine Keeps.ite ?_ ?_
    | (intro s; refine ⟨fun h => ?_, fun h => ?_, fun h => ?_⟩ <;> first | rfl | (cases h; done) | (split <;> rfl) | (simp; done))
    | (refine ⟨fun h => ?_, fun h => ?_, fun h => ?_⟩ <;> first | rfl | (cases h; done) | (split <;> rfl) | (simp; done))
    | split

theorem reloadBegin_keeps : ∀ a1 a2 a3 d, Keeps [.loader, .bootp, .arbs, .reload] d (reloadBegin a1 a2 a3 d) := by
  intro a1 a2 a3 d
  unfold reloadBegin
  repeat' first
    | with_reducible exact Keeps.refl _ _
    | with_reducible assumption
    | ((try lift_lets); intro x; first | (refine Keeps.cut x ?_ ?_; (on_goal 1 => subst x); (on_goal 2 => (clear_value x; intro hx))) | (have hf := fun a => x a; clear hf; subst x) | clear_value x)
    | with_reducible refine (imgStart_keeps ..).after ?_ (by decide)
    | with_reducible refine (updReload_keeps _ ?_).after ?_ (by decide)
    | with_reducible refine Keeps.ite ?_ ?_
    | (intro s h; first | exact h | exact baseOf_wf _ | rfl | exact msets_wf _ _ _ h | (dsimp only; split <;> first | exact h | exact baseOf_wf _ | rfl))
    | split

theorem stopSend_keeps : ∀ a1 d, Keeps [.isl, .chans] d (stopSend a1 d) := by
  intro a1 d
  unfold stopSend
  repeat' first
    | with_reducible exact Keeps.refl _ _
    | with_reducible assumption
    | ((try lift_lets); intro x; first | (refine Keeps.cut x ?_ ?_; (on_goal 1 => subst x); (on_goal 2 => (clear_value x; intro hx))) | (have hf := fun a => x a; clear hf; subst x) | clear_value x)
    | with_reducible refine Keeps.toQuad (fun _ => ?_) ?_ (by decide)
    | with_reducible refine (reloadStop_keeps ..).after ?_ (by decide)
    | with_reducible refine Keeps.ite ?_ ?_
    | split

theorem reloadCheckDone_keeps : ∀ d, Keeps [.check, .arbs, .isl, .chans, .log, .reload, .alert] d (reloadCheckDone d) := by
  intro d
  unfold reloadCheckDone
  refine Keeps.ite ?_ (Keeps.refl _ _)
  dsimp only
  refine Keeps.ite ((reloadRefused_keeps ..).mono (by decide)) ?_
  refine Keeps.forEach (fun _ _ => (stopSend_keeps ..).mono (by decide)) ?_
  refine (updReload_keeps' _ ?_).after ((setDetail_keeps ..).mono (by decide)) (by decide)
  exact fun h => mergeBase_wf _ _ _ (reloadRanges_le _ _ _) h.2.2.1 h.2.2.2

theorem reloadCmd_keeps : ∀ a1 d, Keeps [.loader, .bootp, .arbs, .reload, .sup] d (reloadCmd a1 d) := by
  intro a1 d
  unfold reloadCmd
  repeat' first
    | with_reducible exact Keeps.refl _ _
    | with_reducible assumption
    | ((try lift_lets); intro x; first | (refine Keeps.cut x ?_ ?_; (on_goal 1 => subst x); (on_goal 2 => (clear_value x; intro hx))) | (have hf := fun a => x a; clear hf; subst x) | clear_value x)
    | with_reducible refine Keeps.blockWrite (fun _ _ _ => ?_) ?_ (by decide)
    | with_reducible refine Keeps.ifOk (fun _ _ => ?_) ?_
    | with_reducible refine (reloadBegin_keeps ..).after ?_ (by decide)
    | with_reducible refine Keeps.ite ?_ ?_
    | split

theorem reloadStopDone_keeps : ∀ d, Keeps [.arbs, .mem, .reload] d (reloadStopDone d) := by
  intro d
  unfold reloadStopDone
  repeat' first
    | with_reducible exact Keeps.refl _ _
    | with_reducible assumption
    | ((try lift_lets); intro x; first | (refine Keeps.cut x ?_ ?_; (on_goal 1 => subst x); (on_goal 2 => (clear_value x; intro hx))) | (have hf := fun a => x a; clear hf; subst x) | clear_value x)
    | with_reducible refine (mirrorStarts_keeps ..).after ?_ (by decide)
    | with_reducible refine (updReload_keeps _ ?_).after ?_ (by decide)
    | with_reducible refine Keeps.ite ?_ ?_
    | (intro s h; first | exact h | exact baseOf_wf _ | rfl | exact msets_wf _ _ _ h | (dsimp only; split <;> first | exact h | exact baseOf_wf _ | rfl))
    | split

theorem reloadStopTimeout_keeps : ∀ d, Keeps [.arbs, .clk, .isl, .slots, .chans, .profs, .paths, .log] d (reloadStopTimeout d) := by
  intro d
  unfold reloadStopTimeout
  repeat' first
    | with_reducible exact Keeps.refl _ _
    | with_reducible assumption
    | ((try lift_lets); intro x; first | (refine Keeps.cut x ?_ ?_; (on_goal 1 => subst x); (on_goal 2 => (clear_value x; intro hx))) | (have hf := fun a => x a; clear hf; subst x) | clear_value x)
    | with_reducible refine (forceSend_keeps ..).after ?_ (by decide)
    | with_reducible refine (waitUp_keeps ..).after ?_ (by decide)
    | with_reducible refine Keeps.forEach (fun _ _ => ?_) ?_
    | with_reducible refine Keeps.ite ?_ ?_
    | split

theorem resetN_keeps : ∀ a1 d, Keeps everyPart d (resetN a1 d) := by
  intro a1 d
  unfold resetN
  repeat' first
    | with_reducible exact Keeps.refl _ _
    | with_reducible assumption
    | ((try lift_lets); intro x; first | (refine Keeps.cut x ?_ ?_; (on_goal 1 => subst x); (on_goal 2 => (clear_value x; intro hx))) | (have hf := fun a => x a; clear hf; subst x) | clear_value x)
    | with_reducible refine (enterReset_keeps ..).after ?_ (by decide)
    | with_reducible refine (updStart_keeps (S := [.start, .devState, .latch]) _ ?_).after ?_ (by decide)
    | with_reducible refine Keeps.drawBool (fun _ _ => ?_) ?_ (by decide)
    | with_reducible refine Keeps.ite ?_ ?_
    | (intro s; refine ⟨fun h => ?_, fun h => ?_, fun h => ?_⟩ <;> first | rfl | (cases h; done) | (split <;> rfl) | (simp; done))
    | (refine ⟨fun h => ?_, fun h => ?_, fun h => ?_⟩ <;> first | rfl | (cases h; done) | (split <;> rfl) | (simp; done))
    | split

theorem resetRelease_keeps : ∀ a1 a2 a3 d, Keeps [.start, .devState, .clk, .log, .mem] d (resetRelease a1 a2 a3 d) := by
  intro a1 a2 a3 d
  unfold resetRelease
  repeat' first
    | with_reducible exact Keeps.refl _ _
    | with_reducible assumption
    | ((try lift_lets); intro x; first | (refine Keeps.cut x ?_ ?_; (on_goal 1 => subst x); (on_goal 2 => (clear_value x; intro hx))) | (have hf := fun a => x a; clear hf; subst x) | clear_value x)
    | with_reducible refine (updStart_keeps (S := [.start, .devState]) _ ?_).after ?_ (by decide)
    | with_reducible refine (updCol_keeps (S := [.log]) _ ?_).after ?_ (by decide)
    | with_reducible refine (updMem_keeps (S := [.mem]) _ ?_ ?_).after ?_ (by decide)
    | with_reducible refine Keeps.ite ?_ ?_
    | (intro s; refine ⟨fun h => ?_, fun h => ?_, fun h => ?_⟩ <;> first | rfl | (cases h; done) | (split <;> rfl) | (simp; done))
    | (refine ⟨fun h => ?_, fun h => ?_, fun h => ?_⟩ <;> first | rfl | (cases h; done) | (split <;> rfl) | (simp; done))
    | (intro s; refine ⟨fun h => ?_, fun h => ?_, fun h => ?_, fun h => ?_⟩ <;> first | rfl | (cases h; done) | (split <;> rfl) | (simp; done))
    | (refine ⟨fun h => ?_, fun h => ?_, fun h => ?_, fun h => ?_⟩ <;> first | rfl | (cases h; done) | (split <;> rfl) | (simp; done))
    | (intro h; refine ⟨?_, ?_⟩ <;> first | exact h.1 | exact h.2.1 | exact msets_wf _ _ _ h.1 | exact msets_wf _ _ _ h.2.1 | exact wf_nil | exact filter_wf _ _ h.1 | exact composeMem_wf _ _ _ h.2.2.1)
    | (fail_if_no_progress with_reducible refine (set_clk_keeps _ _).after ?_ (by decide))
    | split

theorem restEnd_keeps : ∀ a1 d, Keeps [.clk, .slots, .chans, .profs, .paths] d (restEnd a1 d) := by
  intro a1 d
  unfold restEnd
  repeat' first
    | with_reducible exact Keeps.refl _ _
    | with_reducible assumption
    | ((try lift_lets); intro x; first | (refine Keeps.cut x ?_ ?_; (on_goal 1 => subst x); (on_goal 2 => (clear_value x; intro hx))) | (have hf := fun a => x a; clear hf; subst x) | clear_value x)
    | with_reducible refine (waitUp_keeps ..).after ?_ (by decide)
    | with_reducible refine (regate_keeps ..).after ?_ (by decide)
    | with_reducible refine (applyReq_keeps ..).after ?_ (by decide)
    | with_reducible refine (updProf_keeps ..).after ?_ (by decide)
    | with_reducible refine (updChan_keeps ..).after ?_ (by decide)
    | with_reducible refine Keeps.ite ?_ ?_
    | split

theorem restRecord_keeps : ∀ a1 a2 a3 a4 d, Keeps [.arbs, .isl, .rings, .writers, .nobind] d (restRecord a1 a2 a3 a4 d) := by
  intro a1 a2 a3 a4 d
  unfold restRecord
  repeat' first
    | with_reducible exact Keeps.refl _ _
    | with_reducible assumption
    | ((try lift_lets); intro x; first | (refine Keeps.cut x ?_ ?_; (on_goal 1 => subst x); (on_goal 2 => (clear_value x; intro hx))) | (have hf := fun a => x a; clear hf; subst x) | clear_value x)
    | with_reducible refine (chanRecord_keeps ..).after ?_ (by decide)
    | with_reducible refine Keeps.ite ?_ ?_
    | split

theorem restEvaluation_keeps : ∀ a1 d, Keeps [.devState, .latch, .arbs, .clk, .isl, .slots, .chans, .profs, .paths, .srcs, .rings, .writers, .nobind, .faults, .col, .log, .caps, .alert] d (restEvaluation a1 d) := by
  intro a1 d
  unfold restEvaluation
  repeat' first
    | with_reducible exact Keeps.refl _ _
    | with_reducible assumption
    | ((try lift_lets); intro x; first | (refine Keeps.cut x ?_ ?_; (on_goal 1 => subst x); (on_goal 2 => (clear_value x; intro hx))) | (have hf := fun a => x a; clear hf; subst x) | clear_value x)
    | with_reducible refine (waitUp_keeps ..).after ?_ (by decide)
    | with_reducible refine (restRecord_keeps ..).after ?_ (by decide)
    | with_reducible refine (estimateMove_keeps ..).after ?_ (by decide)
    | with_reducible refine (ovpCheck_keeps ..).after ?_ (by decide)
    | with_reducible refine (updProf_keeps ..).after ?_ (by decide)
    | with_reducible refine Keeps.ite ?_ ?_
    | split

theorem restSampleEnd_keeps : ∀ a1 d, Keeps [.clk, .profs] d (restSampleEnd a1 d) := by
  intro a1 d
  unfold restSampleEnd
  repeat' first
    | with_reducible exact Keeps.refl _ _
    | with_reducible assumption
    | ((try lift_lets); intro x; first | (refine Keeps.cut x ?_ ?_; (on_goal 1 => subst x); (on_goal 2 => (clear_value x; intro hx))) | (have hf := fun a => x a; clear hf; subst x) | clear_value x)
    | with_reducible refine (waitUp_keeps ..).after ?_ (by decide)
    | with_reducible refine (updProf_keeps ..).after ?_ (by decide)
    | with_reducible refine Keeps.ite ?_ ?_
    | split

theorem restStart_keeps : ∀ a1 d, Keeps [.arbs, .clk, .isl, .halt, .slots, .chans, .profs, .paths, .log] d (restStart a1 d) := by
  intro a1 d
  unfold restStart
  repeat' first
    | with_reducible exact Keeps.refl _ _
    | with_reducible assumption
    | ((try lift_lets); intro x; first | (refine Keeps.cut x ?_ ?_; (on_goal 1 => subst x); (on_goal 2 => (clear_value x; intro hx))) | (have hf := fun a => x a; clear hf; subst x) | clear_value x)
    | with_reducible refine (restNow_keeps ..).after ?_ (by decide)
    | with_reducible refine (launchLate_keeps ..).after ?_ (by decide)
    | with_reducible refine (pass_keeps ..).after ?_ (by decide)
    | with_reducible refine (waitLoc_keeps ..).after ?_ (by decide)
    | with_reducible refine Keeps.ite ?_ ?_
    | split

theorem retryTimer_keeps : ∀ a1 d, Keeps [.clk, .paths] d (retryTimer a1 d) := by
  intro a1 d
  unfold retryTimer
  repeat' first
    | with_reducible exact Keeps.refl _ _
    | with_reducible assumption
    | ((try lift_lets); intro x; first | (refine Keeps.cut x ?_ ?_; (on_goal 1 => subst x); (on_goal 2 => (clear_value x; intro hx))) | (have hf := fun a => x a; clear hf; subst x) | clear_value x)
    | with_reducible refine (waitUp_keeps ..).after ?_ (by decide)
    | with_reducible refine (updPath_keeps ..).after ?_ (by decide)
    | with_reducible refine Keeps.ite ?_ ?_
    | split

theorem returnTimeout_keeps : ∀ d, Keeps [.devState, .latch, .arbs, .clk, .isl, .slots, .quads, .chans, .profs, .paths, .srcs, .bus, .faults, .col, .log, .caps, .alert] d (returnTimeout d) := by
  intro d
  unfold returnTimeout
  repeat' first
    | with_reducible exact Keeps.refl _ _
    | with_reducible assumption
    | ((try lift_lets); intro x; first | (refine Keeps.cut x ?_ ?_; (on_goal 1 => subst x); (on_goal 2 => (clear_value x; intro hx))) | (have hf := fun a => x a; clear hf; subst x) | clear_value x)
    | with_reducible refine (busEval_keeps ..).after ?_ (by decide)
    | with_reducible refine (setBus_keeps ..).after ?_ (by decide)
    | with_reducible refine (waitUp_keeps ..).after ?_ (by decide)
    | with_reducible refine Keeps.ite ?_ ?_
    | split

theorem ringAck_keeps : ∀ a1 d, Keeps [.rings, .sup] d (ringAck a1 d) := by
  intro a1 d
  unfold ringAck
  repeat' first
    | with_reducible exact Keeps.refl _ _
    | with_reducible assumption
    | ((try lift_lets); intro x; first | (refine Keeps.cut x ?_ ?_; (on_goal 1 => subst x); (on_goal 2 => (clear_value x; intro hx))) | (have hf := fun a => x a; clear hf; subst x) | clear_value x)
    | with_reducible refine Keeps.blockWrite (fun _ _ _ => ?_) ?_ (by decide)
    | with_reducible refine Keeps.ifOk (fun _ _ => ?_) ?_
    | with_reducible refine (updRing_keeps ..).after ?_ (by decide)
    | with_reducible refine Keeps.ite ?_ ?_
    | split

theorem ringRead_keeps : ∀ a1 d, Keeps [.devState, .latch, .arbs, .slots, .chans, .profs, .paths, .srcs, .mods, .therm, .faults, .col, .log, .caps, .fi, .mem, .sup, .alert] d (ringRead a1 d) := by
  intro a1 d
  unfold ringRead
  repeat' first
    | with_reducible exact Keeps.refl _ _
    | with_reducible assumption
    | ((try lift_lets); intro x; first | (refine Keeps.cut x ?_ ?_; (on_goal 1 => subst x); (on_goal 2 => (clear_value x; intro hx))) | (have hf := fun a => x a; clear hf; subst x) | clear_value x)
    | with_reducible refine Keeps.processCall (fun _ _ => ?_) ?_ (by decide)
    | with_reducible refine (recReads_keeps ..).after ?_ (by decide)
    | with_reducible refine Keeps.ite ?_ ?_
    | split

theorem rivalFrame_keeps : ∀ a1 a2 d, Keeps [.cvn] d (rivalFrame a1 a2 d) := by
  intro a1 a2 d
  unfold rivalFrame
  repeat' first
    | with_reducible exact Keeps.refl _ _
    | with_reducible assumption
    | ((try lift_lets); intro x; first | (refine Keeps.cut x ?_ ?_; (on_goal 1 => subst x); (on_goal 2 => (clear_value x; intro hx))) | (have hf := fun a => x a; clear hf; subst x) | clear_value x)
    | with_reducible refine (handbackStart_keeps ..).after ?_ (by decide)
    | with_reducible refine (updCvn_keeps ..).after ?_ (by decide)
    | with_reducible refine Keeps.ite ?_ ?_
    | split

theorem rivalLeader_keeps : ∀ d, Keeps [.devState, .latch, .mode, .arbs, .clk, .isl, .launches, .cvn, .halt, .slots, .chans, .profs, .paths, .srcs, .mods, .seqs, .faults, .col, .log, .caps, .alert] d (rivalLeader d) := by
  intro d
  unfold rivalLeader
  repeat' first
    | with_reducible exact Keeps.refl _ _
    | with_reducible assumption
    | ((try lift_lets); intro x; first | (refine Keeps.cut x ?_ ?_; (on_goal 1 => subst x); (on_goal 2 => (clear_value x; intro hx))) | (have hf := fun a => x a; clear hf; subst x) | clear_value x)
    | with_reducible refine (waitLoc_keeps ..).after ?_ (by decide)
    | with_reducible refine (raise_keeps ..).after ?_ (by decide)
    | with_reducible refine (toStepWait_keeps ..).after ?_ (by decide)
    | with_reducible refine (runAlone_keeps ..).after ?_ (by decide)
    | with_reducible refine (updCvn_keeps ..).after ?_ (by decide)
    | with_reducible refine (updHalt_keeps ..).after ?_ (by decide)
    | with_reducible refine Keeps.ite ?_ ?_
    | split

theorem rollDevice_keeps : ∀ a1 a2 a3 a4 d, Keeps [.start, .mode, .arbs, .clk, .isl, .launches, .cvn, .halt, .mods, .seqs, .log] d (rollDevice a1 a2 a3 a4 d) := by
  intro a1 a2 a3 a4 d
  unfold rollDevice
  repeat' first
    | with_reducible exact Keeps.refl _ _
    | with_reducible assumption
    | ((try lift_lets); intro x; first | (refine Keeps.cut x ?_ ?_; (on_goal 1 => subst x); (on_goal 2 => (clear_value x; intro hx))) | (have hf := fun a => x a; clear hf; subst x) | clear_value x)
    | with_reducible refine (accepted_keeps ..).after ?_ (by decide)
    | with_reducible refine (refusedRoll_keeps ..).after ?_ (by decide)
    | with_reducible refine (rollPush_keeps ..).after ?_ (by decide)
    | with_reducible refine (updCvn_keeps ..).after ?_ (by decide)
    | with_reducible refine Keeps.ite ?_ ?_
    | split

theorem rollSource_keeps : ∀ a1 a2 a3 a4 d, Keeps [.arbs, .cvn, .log, .sup] d (rollSource a1 a2 a3 a4 d) := by
  intro a1 a2 a3 a4 d
  unfold rollSource
  repeat' first
    | with_reducible exact Keeps.refl _ _
    | with_reducible assumption
    | ((try lift_lets); intro x; first | (refine Keeps.cut x ?_ ?_; (on_goal 1 => subst x); (on_goal 2 => (clear_value x; intro hx))) | (have hf := fun a => x a; clear hf; subst x) | clear_value x)
    | with_reducible refine (onJoin_keeps ..).after ?_ (by decide)
    | with_reducible refine (addMember_keeps ..).after ?_ (by decide)
    | with_reducible refine (dropMember_keeps ..).after ?_ (by decide)
    | with_reducible refine (handbackStart_keeps ..).after ?_ (by decide)
    | with_reducible refine Keeps.ite ?_ ?_
    | split

theorem rollFrameReceive_keeps : ∀ a1 d, Keeps [.start, .mode, .arbs, .clk, .isl, .launches, .cvn, .halt, .mods, .seqs, .log, .sup] d (rollFrameReceive a1 d) := by
  intro a1 d
  unfold rollFrameReceive
  have h : Keeps [.start, .mode, .arbs, .clk, .isl, .launches, .cvn, .halt, .mods, .seqs, .log, .sup] d (if ownSlotTaken a1 d then d else forward a1 a1.bytes d) := Keeps.ite (Keeps.refl _ _) ((forward_keeps ..).mono (by decide))
  generalize (if ownSlotTaken a1 d then d else forward a1 a1.bytes d) = x at h
  dsimp only
  cases framePayload 4 10 0 a1.bytes with
  | none =>
    repeat' first
      | with_reducible exact h
      | with_reducible refine (frameErr_keeps ..).after ?_ (by decide)
      | with_reducible refine (updCvn_keeps ..).after ?_ (by decide)
      | with_reducible refine Keeps.ite ?_ ?_
  | some p =>
    obtain ⟨p, t⟩ := p
    dsimp only
    repeat' first
      | with_reducible exact h
      | with_reducible refine (frameErr_keeps ..).after ?_ (by decide)
      | with_reducible refine (rollSource_keeps ..).after ?_ (by decide)
      | with_reducible refine (rollDevice_keeps ..).after ?_ (by decide)
      | with_reducible refine Keeps.ite ?_ ?_

theorem rowRemapDone_keeps : ∀ d, Keeps [.arbs, .log, .mem] d (rowRemapDone d) := by
  intro d
  unfold rowRemapDone
  repeat' first
    | with_reducible exact Keeps.refl _ _
    | with_reducible assumption
    | ((try lift_lets); intro x; first | (refine Keeps.cut x ?_ ?_; (on_goal 1 => subst x); (on_goal 2 => (clear_value x; intro hx))) | (have hf := fun a => x a; clear hf; subst x) | clear_value x)
    | with_reducible refine (arbRequest_keeps ..).after ?_ (by decide)
    | with_reducible refine (logEvent_keeps ..).after ?_ (by decide)
    | with_reducible refine (updMem_keeps (S := [.mem]) _ ?_ ?_).after ?_ (by decide)
    | with_reducible refine Keeps.ite ?_ ?_
    | (intro s; refine ⟨fun h => ?_, fun h => ?_, fun h => ?_⟩ <;> first | rfl | (cases h; done) | (split <;> rfl) | (simp; done))
    | (intro h; refine ⟨?_, ?_⟩ <;> first | exact h.1 | exact h.2.1 | exact msets_wf _ _ _ h.1 | exact msets_wf _ _ _ h.2.1 | exact wf_nil | exact filter_wf _ _ h.1 | exact composeMem_wf _ _ _ h.2.2.1)
    | split

theorem rpathRestored_keeps : ∀ a1 d, Keeps [.arbs, .faults, .log] d (rpathRestored a1 d) := by
  intro a1 d
  unfold rpathRestored
  repeat' first
    | with_reducible exact Keeps.refl _ _
    | with_reducible assumption
    | ((try lift_lets); intro x; first | (refine Keeps.cut x ?_ ?_; (on_goal 1 => subst x); (on_goal 2 => (clear_value x; intro hx))) | (have hf := fun a => x a; clear hf; subst x) | clear_value x)
    | with_reducible refine (logPush_keeps ..).after ?_ (by decide)
    | with_reducible refine (updFault_keeps ..).after ?_ (by decide)
    | with_reducible refine Keeps.ite ?_ ?_
    | split

def runLaunchParts : List Part :=
  [.start, .devState, .latch, .mode, .arbs, .clk, .isl, .halt, .slots, .quads, .chans, .profs, .paths, .srcs, .bus, .mods, .seqs, .rings, .writers, .therm, .hk, .faults, .col, .log, .caps, .alert]

theorem runLaunch_keeps : ∀ d, Keeps runLaunchParts d (runLaunch d) := by
  intro d
  unfold runLaunch
  repeat' first
    | with_reducible exact Keeps.refl _ _
    | with_reducible assumption
    | ((try lift_lets); intro x; first | (refine Keeps.cut x ?_ ?_; (on_goal 1 => subst x); (on_goal 2 => (clear_value x; intro hx))) | (have hf := fun a => x a; clear hf; subst x) | clear_value x)
    | with_reducible refine (carrierResetIn_keeps ..).after ?_ (by decide)
    | with_reducible refine (runHk_keeps ..).after ?_ (by decide)
    | with_reducible refine (runArmQuad_keeps ..).after ?_ (by decide)
    | with_reducible refine (waitLoc_keeps ..).after ?_ (by decide)
    | with_reducible refine Keeps.forEach (fun _ _ => ?_) ?_
    | with_reducible refine Keeps.ite ?_ ?_
    | split

theorem scrubStep_keeps : ∀ a1 d, Keeps [.devState, .latch, .arbs, .clk, .slots, .chans, .profs, .paths, .srcs, .mods, .therm, .faults, .col, .log, .caps, .mem, .alert] d (scrubStep a1 d) := by
  intro a1 d
  unfold scrubStep
  repeat' first
    | with_reducible exact Keeps.refl _ _
    | with_reducible assumption
    | ((try lift_lets); intro x; first | (refine Keeps.cut x ?_ ?_; (on_goal 1 => subst x); (on_goal 2 => (clear_value x; intro hx))) | (have hf := fun a => x a; clear hf; subst x) | clear_value x)
    | with_reducible refine (nextMultiple_keeps ..).after ?_ (by decide)
    | with_reducible refine (cwDecode_keeps ..).after ?_ (by decide)
    | with_reducible refine (updMem_keeps (S := [.mem]) _ ?_ ?_).after ?_ (by decide)
    | with_reducible refine Keeps.ite ?_ ?_
    | (intro s; refine ⟨fun h => ?_, fun h => ?_, fun h => ?_⟩ <;> first | rfl | (cases h; done) | (split <;> rfl) | (simp; done))
    | (intro h; refine ⟨?_, ?_⟩ <;> first | exact h.1 | exact h.2.1 | exact msets_wf _ _ _ h.1 | exact msets_wf _ _ _ h.2.1 | exact wf_nil | exact filter_wf _ _ h.1 | exact composeMem_wf _ _ _ h.2.2.1)
    | split

theorem seqGo_keeps : ∀ a1 d, Keeps [.arbs, .clk, .mods, .seqs, .rings, .writers] d (seqGo a1 d) := by
  intro a1 d
  unfold seqGo
  repeat' first
    | with_reducible exact Keeps.refl _ _
    | with_reducible assumption
    | ((try lift_lets); intro x; first | (refine Keeps.cut x ?_ ?_; (on_goal 1 => subst x); (on_goal 2 => (clear_value x; intro hx))) | (have hf := fun a => x a; clear hf; subst x) | clear_value x)
    | with_reducible refine (waitUp_keeps ..).after ?_ (by decide)
    | with_reducible refine (seqNext_keeps ..).after ?_ (by decide)
    | with_reducible refine (seqRequest_keeps ..).after ?_ (by decide)
    | with_reducible refine (updMod_keeps ..).after ?_ (by decide)
    | with_reducible refine (updSeq_keeps ..).after ?_ (by decide)
    | with_reducible refine Keeps.ite ?_ ?_
    | split

theorem seqDelay_keeps : ∀ a1 d, Keeps [.arbs, .clk, .mods, .seqs, .rings, .writers] d (seqDelay a1 d) := by
  intro a1 d
  unfold seqDelay
  repeat' first
    | with_reducible exact Keeps.refl _ _
    | with_reducible assumption
    | ((try lift_lets); intro x; first | (refine Keeps.cut x ?_ ?_; (on_goal 1 => subst x); (on_goal 2 => (clear_value x; intro hx))) | (have hf := fun a => x a; clear hf; subst x) | clear_value x)
    | with_reducible refine (seqNext_keeps ..).after ?_ (by decide)
    | with_reducible refine (waitUp_keeps ..).after ?_ (by decide)
    | with_reducible refine (seqGo_keeps ..).after ?_ (by decide)
    | with_reducible refine (seqSkip_keeps ..).after ?_ (by decide)
    | with_reducible refine Keeps.ite ?_ ?_
    | split

theorem serviceLock_keeps : ∀ a1 d, Keeps [.sup] d (serviceLock a1 d) := by
  intro a1 d
  unfold serviceLock
  repeat' first
    | with_reducible exact Keeps.refl _ _
    | with_reducible assumption
    | ((try lift_lets); intro x; first | (refine Keeps.cut x ?_ ?_; (on_goal 1 => subst x); (on_goal 2 => (clear_value x; intro hx))) | (have hf := fun a => x a; clear hf; subst x) | clear_value x)
    | with_reducible refine Keeps.blockWrite (fun _ _ _ => ?_) ?_ (by decide)
    | with_reducible refine Keeps.ifOk (fun _ _ => ?_) ?_
    | with_reducible refine (updSup_keeps (S := [.sup]) _ ?_).after ?_ (by decide)
    | with_reducible refine Keeps.ite ?_ ?_
    | (intro s; refine ⟨fun h => ?_, fun h => ?_⟩ <;> first | rfl | (cases h; done) | (split <;> rfl) | (simp; done))
    | (refine ⟨fun h => ?_, fun h => ?_⟩ <;> first | rfl | (cases h; done) | (split <;> rfl) | (simp; done))
    | split

theorem unlockAct_keeps : ∀ a1 d, Keeps [.sup] d (unlockAct a1 d) := by
  intro a1 d
  unfold unlockAct
  repeat' first
    | with_reducible exact Keeps.refl _ _
    | with_reducible assumption
    | ((try lift_lets); intro x; first | (refine Keeps.cut x ?_ ?_; (on_goal 1 => subst x); (on_goal 2 => (clear_value x; intro hx))) | (have hf := fun a => x a; clear hf; subst x) | clear_value x)
    | with_reducible refine (updSup_keeps (S := [.sup]) _ ?_).after ?_ (by decide)
    | with_reducible refine Keeps.ite ?_ ?_
    | (intro s; refine ⟨fun h => ?_, fun h => ?_⟩ <;> first | rfl | (cases h; done) | (split <;> rfl) | (simp; done))
    | (refine ⟨fun h => ?_, fun h => ?_⟩ <;> first | rfl | (cases h; done) | (split <;> rfl) | (simp; done))
    | split

theorem serviceUnlock_keeps : ∀ a1 d, Keeps [.sup] d (serviceUnlock a1 d) := by
  intro a1 d
  unfold serviceUnlock
  repeat' first
    | with_reducible exact Keeps.refl _ _
    | with_reducible assumption
    | ((try lift_lets); intro x; first | (refine Keeps.cut x ?_ ?_; (on_goal 1 => subst x); (on_goal 2 => (clear_value x; intro hx))) | (have hf := fun a => x a; clear hf; subst x) | clear_value x)
    | with_reducible refine Keeps.blockWrite (fun _ _ _ => ?_) ?_ (by decide)
    | with_reducible refine (unlockAct_keeps ..).after ?_ (by decide)
    | with_reducible refine Keeps.ite ?_ ?_
    | split

theorem setPosition_keeps : ∀ d, Keeps [.cvn] d (setPosition d) := by
  intro d
  unfold setPosition
  repeat' first
    | with_reducible exact Keeps.refl _ _
    | with_reducible assumption
    | ((try lift_lets); intro x; first | (refine Keeps.cut x ?_ ?_; (on_goal 1 => subst x); (on_goal 2 => (clear_value x; intro hx))) | (have hf := fun a => x a; clear hf; subst x) | clear_value x)
    | with_reducible refine (updCvn_keeps ..).after ?_ (by decide)
    | with_reducible refine Keeps.ite ?_ ?_
    | split

theorem slopeStep_keeps : ∀ a1 d, Keeps [.clk, .slots] d (slopeStep a1 d) := by
  intro a1 d
  unfold slopeStep
  repeat' first
    | with_reducible exact Keeps.refl _ _
    | with_reducible assumption
    | ((try lift_lets); intro x; first | (refine Keeps.cut x ?_ ?_; (on_goal 1 => subst x); (on_goal 2 => (clear_value x; intro hx))) | (have hf := fun a => x a; clear hf; subst x) | clear_value x)
    | with_reducible refine (waitUp_keeps ..).after ?_ (by decide)
    | with_reducible refine (updSlot_keeps _ _ ?_).after ?_ (by decide)
    | with_reducible refine Keeps.ite ?_ ?_
    | (intro s h; first | exact h | (simp only [SlotSt.apart] at *; done) | (dsimp only; split <;> exact h) | (cases s; simp_all [SlotSt.apart]; done))
    | split

theorem snapStore_keeps : ∀ a1 a2 d, Keeps [.mods] d (snapStore a1 a2 d) := by
  intro a1 a2 d
  unfold snapStore
  repeat' first
    | with_reducible exact Keeps.refl _ _
    | with_reducible assumption
    | ((try lift_lets); intro x; first | (refine Keeps.cut x ?_ ?_; (on_goal 1 => subst x); (on_goal 2 => (clear_value x; intro hx))) | (have hf := fun a => x a; clear hf; subst x) | clear_value x)
    | with_reducible refine (updMod_keeps ..).after ?_ (by decide)
    | with_reducible refine Keeps.ite ?_ ?_
    | split

theorem trackRequest_keeps : ∀ a1 d, Keeps [.arbs, .mods] d (trackRequest a1 d) := by
  intro a1 d
  unfold trackRequest
  repeat' first
    | with_reducible exact Keeps.refl _ _
    | with_reducible assumption
    | ((try lift_lets); intro x; first | (refine Keeps.cut x ?_ ?_; (on_goal 1 => subst x); (on_goal 2 => (clear_value x; intro hx))) | (have hf := fun a => x a; clear hf; subst x) | clear_value x)
    | with_reducible refine (arbRequest_keeps ..).after ?_ (by decide)
    | with_reducible refine (seqYield_keeps ..).after ?_ (by decide)
    | with_reducible refine (updMod_keeps ..).after ?_ (by decide)
    | with_reducible refine Keeps.ite ?_ ?_
    | split

theorem snapshotDone_keeps : ∀ a1 d, Keeps [.devState, .latch, .arbs, .clk, .isl, .halt, .slots, .chans, .profs, .paths, .srcs, .mods, .rings, .writers, .nobind, .faults, .col, .log, .caps, .alert] d (snapshotDone a1 d) := by
  intro a1 d
  unfold snapshotDone
  repeat' first
    | with_reducible exact Keeps.refl _ _
    | with_reducible assumption
    | ((try lift_lets); intro x; first | (refine Keeps.cut x ?_ ?_; (on_goal 1 => subst x); (on_goal 2 => (clear_value x; intro hx))) | (have hf := fun a => x a; clear hf; subst x) | clear_value x)
    | with_reducible refine (waitLoc_keeps ..).after ?_ (by decide)
    | with_reducible refine (snapStore_keeps ..).after ?_ (by decide)
    | with_reducible refine (chanSnap_keeps ..).after ?_ (by decide)
    | with_reducible refine (crossCheck_keeps ..).after ?_ (by decide)
    | with_reducible refine (hlRequest_keeps ..).after ?_ (by decide)
    | with_reducible refine (trackRequest_keeps ..).after ?_ (by decide)
    | with_reducible refine (updHalt_keeps ..).after ?_ (by decide)
    | with_reducible refine Keeps.forEach (fun _ _ => ?_) ?_
    | with_reducible refine Keeps.ite ?_ ?_
    | split

theorem softStartTimeout_keeps : ∀ a1 a2 d, Keeps [.devState, .latch, .arbs, .clk, .slots, .chans, .profs, .paths, .srcs, .faults, .col, .log, .caps, .alert] d (softStartTimeout a1 a2 d) := by
  intro a1 a2 d
  unfold softStartTimeout
  repeat' first
    | with_reducible exact Keeps.refl _ _
    | with_reducible assumption
    | ((try lift_lets); intro x; first | (refine Keeps.cut x ?_ ?_; (on_goal 1 => subst x); (on_goal 2 => (clear_value x; intro hx))) | (have hf := fun a => x a; clear hf; subst x) | clear_value x)
    | with_reducible refine (softStartExpire_keeps ..).after ?_ (by decide)
    | with_reducible refine (waitUp_keeps ..).after ?_ (by decide)
    | with_reducible refine Keeps.ite ?_ ?_
    | split

theorem srcAbove_keeps : ∀ a1 d, Keeps [.devState, .latch, .arbs, .isl, .slots, .quads, .chans, .profs, .paths, .srcs, .bus, .faults, .col, .log, .caps, .alert] d (srcAbove a1 d) := by
  intro a1 d
  unfold srcAbove
  repeat' first
    | with_reducible exact Keeps.refl _ _
    | with_reducible assumption
    | ((try lift_lets); intro x; first | (refine Keeps.cut x ?_ ?_; (on_goal 1 => subst x); (on_goal 2 => (clear_value x; intro hx))) | (have hf := fun a => x a; clear hf; subst x) | clear_value x)
    | with_reducible refine (halveEval_keeps ..).after ?_ (by decide)
    | with_reducible refine (updSrc_keeps ..).after ?_ (by decide)
    | with_reducible refine Keeps.ite ?_ ?_
    | split

theorem srcBelow_keeps : ∀ a1 d, Keeps [.devState, .latch, .arbs, .isl, .slots, .quads, .chans, .profs, .paths, .srcs, .bus, .faults, .col, .log, .caps, .alert] d (srcBelow a1 d) := by
  intro a1 d
  unfold srcBelow
  repeat' first
    | with_reducible exact Keeps.refl _ _
    | with_reducible assumption
    | ((try lift_lets); intro x; first | (refine Keeps.cut x ?_ ?_; (on_goal 1 => subst x); (on_goal 2 => (clear_value x; intro hx))) | (have hf := fun a => x a; clear hf; subst x) | clear_value x)
    | with_reducible refine (halveEval_keeps ..).after ?_ (by decide)
    | with_reducible refine (updSrc_keeps ..).after ?_ (by decide)
    | with_reducible refine Keeps.ite ?_ ?_
    | split

theorem srcBetween_keeps : ∀ a1 d, Keeps [.devState, .latch, .arbs, .isl, .slots, .quads, .chans, .profs, .paths, .srcs, .bus, .faults, .col, .log, .caps, .alert] d (srcBetween a1 d) := by
  intro a1 d
  unfold srcBetween
  repeat' first
    | with_reducible exact Keeps.refl _ _
    | with_reducible assumption
    | ((try lift_lets); intro x; first | (refine Keeps.cut x ?_ ?_; (on_goal 1 => subst x); (on_goal 2 => (clear_value x; intro hx))) | (have hf := fun a => x a; clear hf; subst x) | clear_value x)
    | with_reducible refine (halveEval_keeps ..).after ?_ (by decide)
    | with_reducible refine (updSrc_keeps ..).after ?_ (by decide)
    | with_reducible refine Keeps.ite ?_ ?_
    | split

theorem srcCheckTimeout_keeps : ∀ a1 d, Keeps [.devState, .latch, .arbs, .clk, .isl, .slots, .quads, .chans, .profs, .paths, .srcs, .bus, .faults, .col, .log, .caps, .alert] d (srcCheckTimeout a1 d) := by
  intro a1 d
  unfold srcCheckTimeout
  repeat' first
    | with_reducible exact Keeps.refl _ _
    | with_reducible assumption
    | ((try lift_lets); intro x; first | (refine Keeps.cut x ?_ ?_; (on_goal 1 => subst x); (on_goal 2 => (clear_value x; intro hx))) | (have hf := fun a => x a; clear hf; subst x) | clear_value x)
    | with_reducible refine (waitUp_keeps ..).after ?_ (by decide)
    | with_reducible refine (busEval_keeps ..).after ?_ (by decide)
    | with_reducible refine (halveEval_keeps ..).after ?_ (by decide)
    | with_reducible refine (holdBy_keeps ..).after ?_ (by decide)
    | with_reducible refine (srcHold_keeps ..).after ?_ (by decide)
    | with_reducible refine (srcZero_keeps ..).after ?_ (by decide)
    | with_reducible refine Keeps.ite ?_ ?_
    | split

theorem srcStuck_keeps : ∀ a1 d, Keeps [.devState, .latch, .arbs, .clk, .slots, .chans, .profs, .paths, .srcs, .faults, .col, .log, .caps, .alert] d (srcStuck a1 d) := by
  intro a1 d
  unfold srcStuck
  repeat' first
    | with_reducible exact Keeps.refl _ _
    | with_reducible assumption
    | ((try lift_lets); intro x; first | (refine Keeps.cut x ?_ ?_; (on_goal 1 => subst x); (on_goal 2 => (clear_value x; intro hx))) | (have hf := fun a => x a; clear hf; subst x) | clear_value x)
    | with_reducible refine (raise_keeps ..).after ?_ (by decide)
    | with_reducible refine (waitUp_keeps ..).after ?_ (by decide)
    | with_reducible refine (updSrc_keeps ..).after ?_ (by decide)
    | with_reducible refine Keeps.ite ?_ ?_
    | split

end Sys2Proof.Machine
end

