-- ==== Sys2Proof/Laws/Keeps12.lean ====
section
/-! SUPPORT. Sys2Proof/Laws/Keeps12.lean: what each operation of the model leaves unchanged (one lemma per operation, in the order of their use). -/

namespace Sys2Proof.Machine

set_option linter.unusedTactic false
set_option linter.unreachableTactic false
set_option linter.unusedVariables false

theorem staggerDeal_keeps : ∀ d, Keeps [.clk, .stg] d (staggerDeal d) := by
  intro d
  unfold staggerDeal
  repeat' first
    | with_reducible exact Keeps.refl _ _
    | with_reducible assumption
    | ((try lift_lets); intro x; first | (refine Keeps.cut x ?_ ?_; (on_goal 1 => subst x); (on_goal 2 => (clear_value x; intro hx))) | (have hf := fun a => x a; clear hf; subst x) | clear_value x)
    | with_reducible refine (waitLoc_keeps ..).after ?_ (by decide)
    | with_reducible refine (updStg_keeps ..).after ?_ (by decide)
    | with_reducible refine Keeps.ite ?_ ?_
    | split

theorem staggerFrame_keeps : ∀ d, Keeps [.clk, .profs, .stg] d (staggerFrame d) := by
  intro d
  unfold staggerFrame
  repeat' first
    | with_reducible exact Keeps.refl _ _
    | with_reducible assumption
    | ((try lift_lets); intro x; first | (refine Keeps.cut x ?_ ?_; (on_goal 1 => subst x); (on_goal 2 => (clear_value x; intro hx))) | (have hf := fun a => x a; clear hf; subst x) | clear_value x)
    | with_reducible refine (waitLoc_keeps ..).after ?_ (by decide)
    | with_reducible refine (updStg_keeps ..).after ?_ (by decide)
    | with_reducible refine Keeps.ite ?_ ?_
    | (fail_if_no_progress with_reducible refine (set_profs_keeps _ _).after ?_ (by decide))
    | split

theorem staggerGain_keeps : ∀ d, Keeps [.clk, .isl, .stg] d (staggerGain d) := by
  intro d
  unfold staggerGain
  repeat' first
    | with_reducible exact Keeps.refl _ _
    | with_reducible assumption
    | ((try lift_lets); intro x; first | (refine Keeps.cut x ?_ ?_; (on_goal 1 => subst x); (on_goal 2 => (clear_value x; intro hx))) | (have hf := fun a => x a; clear hf; subst x) | clear_value x)
    | with_reducible refine (nextMultiple_keeps ..).after ?_ (by decide)
    | with_reducible refine (send_keeps ..).after ?_ (by decide)
    | with_reducible refine (updStg_keeps ..).after ?_ (by decide)
    | with_reducible refine Keeps.forEach (fun _ _ => ?_) ?_
    | with_reducible refine Keeps.ite ?_ ?_
    | split

def startCheckDoneParts : List Part :=
  [.start, .devState, .latch, .check, .mode, .arbs, .isl, .launches, .cvn, .slots, .quads, .chans, .profs, .paths, .srcs, .rings, .writers, .nobind, .faults, .col, .log, .caps, .mem, .alert]

theorem startCheckDone_keeps : ∀ d, Keeps startCheckDoneParts d (startCheckDone d) := by
  intro d
  unfold startCheckDone
  repeat' first
    | with_reducible exact Keeps.refl _ _
    | with_reducible assumption
    | ((try lift_lets); intro x; first | (refine Keeps.cut x ?_ ?_; (on_goal 1 => subst x); (on_goal 2 => (clear_value x; intro hx))) | (have hf := fun a => x a; clear hf; subst x) | clear_value x)
    | with_reducible refine (setPosition_keeps ..).after ?_ (by decide)
    | with_reducible refine (setDetail_keeps ..).after ?_ (by decide)
    | with_reducible refine (setStartCheck_keeps ..).after ?_ (by decide)
    | with_reducible refine (modeRefuse_keeps ..).after ?_ (by decide)
    | with_reducible refine (joinEnter_keeps ..).after ?_ (by decide)
    | with_reducible refine (armEnabled_keeps ..).after ?_ (by decide)
    | with_reducible refine (configured_keeps ..).after ?_ (by decide)
    | with_reducible refine (updStart_keeps (S := [.start, .devState, .latch]) _ ?_).after ?_ (by decide)
    | with_reducible refine Keeps.ite ?_ ?_
    | (intro s; refine ⟨fun h => ?_, fun h => ?_, fun h => ?_⟩ <;> first | rfl | (cases h; done) | (split <;> rfl) | (simp; done))
    | (refine ⟨fun h => ?_, fun h => ?_, fun h => ?_⟩ <;> first | rfl | (cases h; done) | (split <;> rfl) | (simp; done))
    | split

theorem strapChanged_keeps : ∀ a1 d, Keeps [.start, .arbs, .log] d (strapChanged a1 d) := by
  intro a1 d
  unfold strapChanged
  repeat' first
    | with_reducible exact Keeps.refl _ _
    | with_reducible assumption
    | ((try lift_lets); intro x; first | (refine Keeps.cut x ?_ ?_; (on_goal 1 => subst x); (on_goal 2 => (clear_value x; intro hx))) | (have hf := fun a => x a; clear hf; subst x) | clear_value x)
    | with_reducible refine (logEvent_keeps ..).after ?_ (by decide)
    | with_reducible refine (updStart_keeps (S := [.start]) _ ?_).after ?_ (by decide)
    | with_reducible refine Keeps.ite ?_ ?_
    | (intro s; refine ⟨fun h => ?_, fun h => ?_, fun h => ?_⟩ <;> first | rfl | (cases h; done) | (split <;> rfl) | (simp; done))
    | (refine ⟨fun h => ?_, fun h => ?_, fun h => ?_⟩ <;> first | rfl | (cases h; done) | (split <;> rfl) | (simp; done))
    | split

theorem streamBook_keeps : ∀ a1 a2 a3 a4 a5 d, Keeps [.mods] d (streamBook a1 a2 a3 a4 a5 d) := by
  intro a1 a2 a3 a4 a5 d
  unfold streamBook
  repeat' first
    | with_reducible exact Keeps.refl _ _
    | with_reducible assumption
    | ((try lift_lets); intro x; first | (refine Keeps.cut x ?_ ?_; (on_goal 1 => subst x); (on_goal 2 => (clear_value x; intro hx))) | (have hf := fun a => x a; clear hf; subst x) | clear_value x)
    | with_reducible refine (tapBook_keeps ..).after ?_ (by decide)
    | with_reducible refine (updMod_keeps ..).after ?_ (by decide)
    | with_reducible refine Keeps.ite ?_ ?_
    | split

theorem streamFault_keeps : ∀ a1 d, Keeps [.devState, .latch, .arbs, .slots, .chans, .profs, .paths, .srcs, .mods, .faults, .col, .log, .caps, .alert] d (streamFault a1 d) := by
  intro a1 d
  unfold streamFault
  repeat' first
    | with_reducible exact Keeps.refl _ _
    | with_reducible assumption
    | ((try lift_lets); intro x; first | (refine Keeps.cut x ?_ ?_; (on_goal 1 => subst x); (on_goal 2 => (clear_value x; intro hx))) | (have hf := fun a => x a; clear hf; subst x) | clear_value x)
    | with_reducible refine (pmFail_keeps ..).after ?_ (by decide)
    | with_reducible refine (updMod_keeps ..).after ?_ (by decide)
    | with_reducible refine Keeps.ite ?_ ?_
    | split

theorem tapCheck_keeps : ∀ a1 a2 d, Keeps [.mods] d (tapCheck a1 a2 d) := by
  intro a1 a2 d
  unfold tapCheck
  repeat' first
    | with_reducible exact Keeps.refl _ _
    | with_reducible assumption
    | ((try lift_lets); intro x; first | (refine Keeps.cut x ?_ ?_; (on_goal 1 => subst x); (on_goal 2 => (clear_value x; intro hx))) | (have hf := fun a => x a; clear hf; subst x) | clear_value x)
    | with_reducible refine (updMod_keeps ..).after ?_ (by decide)
    | with_reducible refine Keeps.ite ?_ ?_
    | split

def streamResultParts : List Part :=
  [.devState, .latch, .arbs, .clk, .isl, .slots, .quads, .chans, .profs, .paths, .srcs, .bus, .mods, .rings, .writers, .nobind, .therm, .faults, .col, .log, .caps, .fi, .mem, .alert]

theorem streamResult_keeps : ∀ a1 a2 a3 d, Keeps streamResultParts d (streamResult a1 a2 a3 d) := by
  intro a1 a2 a3 d
  unfold streamResult
  repeat' first
    | with_reducible exact Keeps.refl _ _
    | with_reducible assumption
    | ((try lift_lets); intro x; first | (refine Keeps.cut x ?_ ?_; (on_goal 1 => subst x); (on_goal 2 => (clear_value x; intro hx))) | (have hf := fun a => x a; clear hf; subst x) | clear_value x)
    | with_reducible refine (waitUp_keeps ..).after ?_ (by decide)
    | with_reducible refine (feedCover_keeps ..).after ?_ (by decide)
    | with_reducible refine (tapCheck_keeps ..).after ?_ (by decide)
    | with_reducible refine (streamBook_keeps ..).after ?_ (by decide)
    | with_reducible refine (feed_keeps ..).after ?_ (by decide)
    | with_reducible refine (streamFault_keeps ..).after ?_ (by decide)
    | with_reducible refine (updMod_keeps ..).after ?_ (by decide)
    | with_reducible refine Keeps.ite ?_ ?_
    | split

theorem stringLow_keeps : ∀ a1 d, Keeps [.devState, .latch, .arbs, .clk, .slots, .chans, .profs, .paths, .srcs, .faults, .col, .log, .caps, .alert] d (stringLow a1 d) := by
  intro a1 d
  unfold stringLow
  repeat' first
    | with_reducible exact Keeps.refl _ _
    | with_reducible assumption
    | ((try lift_lets); intro x; first | (refine Keeps.cut x ?_ ?_; (on_goal 1 => subst x); (on_goal 2 => (clear_value x; intro hx))) | (have hf := fun a => x a; clear hf; subst x) | clear_value x)
    | with_reducible refine (declareAbsent_keeps ..).after ?_ (by decide)
    | with_reducible refine (waitUp_keeps ..).after ?_ (by decide)
    | with_reducible refine Keeps.ite ?_ ?_
    | split

theorem stuckOn_keeps : ∀ a1 d, Keeps [.devState, .latch, .arbs, .clk, .slots, .chans, .profs, .paths, .srcs, .faults, .col, .log, .caps, .alert] d (stuckOn a1 d) := by
  intro a1 d
  unfold stuckOn
  repeat' first
    | with_reducible exact Keeps.refl _ _
    | with_reducible assumption
    | ((try lift_lets); intro x; first | (refine Keeps.cut x ?_ ?_; (on_goal 1 => subst x); (on_goal 2 => (clear_value x; intro hx))) | (have hf := fun a => x a; clear hf; subst x) | clear_value x)
    | with_reducible refine (waitUp_keeps ..).after ?_ (by decide)
    | with_reducible refine (raise_keeps ..).after ?_ (by decide)
    | with_reducible refine (pathZero_keeps ..).after ?_ (by decide)
    | with_reducible refine (updPath_keeps ..).after ?_ (by decide)
    | with_reducible refine Keeps.ite ?_ ?_
    | split

theorem svcDebounce_keeps : ∀ a1 d, Keeps [.button] d (svcDebounce a1 d) := by
  intro a1 d
  unfold svcDebounce
  repeat' first
    | with_reducible exact Keeps.refl _ _
    | with_reducible assumption
    | ((try lift_lets); intro x; first | (refine Keeps.cut x ?_ ?_; (on_goal 1 => subst x); (on_goal 2 => (clear_value x; intro hx))) | (have hf := fun a => x a; clear hf; subst x) | clear_value x)
    | with_reducible refine Keeps.ite ?_ ?_
    | (fail_if_no_progress with_reducible refine (set_button_keeps _ _).after ?_ (by decide))
    | split

theorem svcHoldExpiry_keeps : ∀ d, Keeps everyPart d (svcHoldExpiry d) := by
  intro d
  unfold svcHoldExpiry
  repeat' first
    | with_reducible exact Keeps.refl _ _
    | with_reducible assumption
    | ((try lift_lets); intro x; first | (refine Keeps.cut x ?_ ?_; (on_goal 1 => subst x); (on_goal 2 => (clear_value x; intro hx))) | (have hf := fun a => x a; clear hf; subst x) | clear_value x)
    | with_reducible refine (enterReset_keeps ..).after ?_ (by decide)
    | with_reducible refine (waitUp_keeps ..).after ?_ (by decide)
    | with_reducible refine (updStart_keeps (S := [.start, .devState, .latch]) _ ?_).after ?_ (by decide)
    | with_reducible refine Keeps.ite ?_ ?_
    | (intro s; refine ⟨fun h => ?_, fun h => ?_, fun h => ?_⟩ <;> first | rfl | (cases h; done) | (split <;> rfl) | (simp; done))
    | (refine ⟨fun h => ?_, fun h => ?_, fun h => ?_⟩ <;> first | rfl | (cases h; done) | (split <;> rfl) | (simp; done))
    | split

theorem svcPress_keeps : ∀ d, Keeps [.start, .devState, .latch, .loader, .button, .bootp, .arbs, .clk, .cvn, .slots, .chans, .profs, .paths, .srcs, .col, .log, .sup] d (svcPress d) := by
  intro d
  unfold svcPress
  repeat' first
    | with_reducible exact Keeps.refl _ _
    | with_reducible assumption
    | ((try lift_lets); intro x; first | (refine Keeps.cut x ?_ ?_; (on_goal 1 => subst x); (on_goal 2 => (clear_value x; intro hx))) | (have hf := fun a => x a; clear hf; subst x) | clear_value x)
    | with_reducible refine (waitUp_keeps ..).after ?_ (by decide)
    | with_reducible refine (logEvent_keeps ..).after ?_ (by decide)
    | with_reducible refine (enterSvcHold_keeps ..).after ?_ (by decide)
    | with_reducible refine Keeps.ite ?_ ?_
    | (fail_if_no_progress with_reducible refine (set_button_keeps _ _).after ?_ (by decide))
    | split

theorem svcRampDone_keeps : ∀ d, Keeps [.start, .devState, .latch, .loader, .button, .bootp, .arbs, .clk, .cvn, .slots, .chans, .profs, .paths, .srcs, .col, .sup] d (svcRampDone d) := by
  intro d
  unfold svcRampDone
  repeat' first
    | with_reducible exact Keeps.refl _ _
    | with_reducible assumption
    | ((try lift_lets); intro x; first | (refine Keeps.cut x ?_ ?_; (on_goal 1 => subst x); (on_goal 2 => (clear_value x; intro hx))) | (have hf := fun a => x a; clear hf; subst x) | clear_value x)
    | with_reducible refine (enterSvcHold_keeps ..).after ?_ (by decide)
    | with_reducible refine (waitUp_keeps ..).after ?_ (by decide)
    | with_reducible refine Keeps.ite ?_ ?_
    | split

theorem swapCheckDone_keeps : ∀ d, Keeps [.loader, .check, .arbs, .slots, .mods, .log, .swaps, .reload, .alert] d (swapCheckDone d) := by
  intro d
  unfold swapCheckDone
  repeat' first
    | with_reducible exact Keeps.refl _ _
    | with_reducible assumption
    | ((try lift_lets); intro x; first | (refine Keeps.cut x ?_ ?_; (on_goal 1 => subst x); (on_goal 2 => (clear_value x; intro hx))) | (have hf := fun a => x a; clear hf; subst x) | clear_value x)
    | with_reducible refine (swapJudge_keeps ..).after ?_ (by decide)
    | with_reducible refine (comingDev_keeps ..).after ?_ (by decide)
    | with_reducible refine Keeps.ite ?_ ?_
    | split

theorem sysExpiry_keeps : ∀ a1 d, Keeps [.clk, .quads] d (sysExpiry a1 d) := by
  intro a1 d
  unfold sysExpiry
  repeat' first
    | with_reducible exact Keeps.refl _ _
    | with_reducible assumption
    | ((try lift_lets); intro x; first | (refine Keeps.cut x ?_ ?_; (on_goal 1 => subst x); (on_goal 2 => (clear_value x; intro hx))) | (have hf := fun a => x a; clear hf; subst x) | clear_value x)
    | with_reducible refine (staleUpdate_keeps ..).after ?_ (by decide)
    | with_reducible refine (waitUp_keeps ..).after ?_ (by decide)
    | with_reducible refine (updQuad_keeps ..).after ?_ (by decide)
    | with_reducible refine Keeps.ite ?_ ?_
    | split

def thermalUpdateParts : List Part :=
  [.devState, .latch, .arbs, .isl, .slots, .quads, .chans, .profs, .paths, .srcs, .mods, .seqs, .rings, .writers, .nobind, .cal, .therm, .hk, .faults, .col, .log, .caps, .fi, .mem, .alert]

theorem thermalUpdate_keeps : ∀ d, Keeps thermalUpdateParts d (thermalUpdate d) := by
  intro d
  unfold thermalUpdate
  repeat' first
    | with_reducible exact Keeps.refl _ _
    | with_reducible assumption
    | ((try lift_lets); intro x; first | (refine Keeps.cut x ?_ ?_; (on_goal 1 => subst x); (on_goal 2 => (clear_value x; intro hx))) | (have hf := fun a => x a; clear hf; subst x) | clear_value x)
    | with_reducible refine (modelsUpdate_keeps ..).after ?_ (by decide)
    | with_reducible refine (drainHk_keeps ..).after ?_ (by decide)
    | with_reducible refine Keeps.forEach (fun _ _ => ?_) ?_
    | with_reducible refine Keeps.ite ?_ ?_
    | split

theorem tickPass_keeps : ∀ d, Keeps everyPart d (tickPass d) := by
  intro d
  unfold tickPass
  refine (busEval_keeps ..).after (Keeps.trans (Keeps.forEach (fun _ _ => (drain_keeps ..).mono (by decide)) (Keeps.refl _ _)) (timed_keeps (by decide) (fun _ => (waitUp_keeps ..).mono (by decide)) _ _)) (by decide)

theorem timeWords_keeps : ∀ a1 a2 a3 a4 d, Keeps [.cvn] d (timeWords a1 a2 a3 a4 d) := by
  intro a1 a2 a3 a4 d
  unfold timeWords
  repeat' first
    | with_reducible exact Keeps.refl _ _
    | with_reducible assumption
    | ((try lift_lets); intro x; first | (refine Keeps.cut x ?_ ?_; (on_goal 1 => subst x); (on_goal 2 => (clear_value x; intro hx))) | (have hf := fun a => x a; clear hf; subst x) | clear_value x)
    | with_reducible refine (updCvn_keeps ..).after ?_ (by decide)
    | with_reducible refine Keeps.ite ?_ ?_
    | split

theorem timeFrameReceive_keeps : ∀ a1 d, Keeps [.devState, .latch, .arbs, .clk, .isl, .launches, .cvn, .halt, .slots, .chans, .profs, .paths, .srcs, .mods, .seqs, .faults, .col, .log, .caps, .alert, .free] d (timeFrameReceive a1 d) := by
  intro a1 d
  unfold timeFrameReceive
  have h : Keeps [.devState, .latch, .arbs, .clk, .isl, .launches, .cvn, .halt, .slots, .chans, .profs, .paths, .srcs, .mods, .seqs, .faults, .col, .log, .caps, .alert, .free] d (forward a1 a1.bytes d) := (forward_keeps ..).mono (by decide)
  generalize forward a1 a1.bytes d = x at h
  dsimp only
  cases framePayload 1 10 0 a1.bytes with
  | none =>
    repeat' first
      | with_reducible exact h
      | with_reducible refine (frameErr_keeps ..).after ?_ (by decide)
      | with_reducible refine (updCvn_keeps ..).after ?_ (by decide)
      | with_reducible refine Keeps.ite ?_ ?_
  | some p =>
    obtain ⟨p, t⟩ := p
    dsimp only
    repeat' first
      | with_reducible exact h
      | with_reducible refine (frameErr_keeps ..).after ?_ (by decide)
      | with_reducible refine (timeWords_keeps ..).after ?_ (by decide)
      | with_reducible refine (ownFrame_keeps ..).after ?_ (by decide)
      | with_reducible refine (rivalFrame_keeps ..).after ?_ (by decide)
      | with_reducible refine (followFrame_keeps ..).after ?_ (by decide)
      | with_reducible refine Keeps.ite ?_ ?_

def tjArrivalParts : List Part :=
  [.devState, .latch, .arbs, .clk, .isl, .launches, .halt, .slots, .quads, .chans, .profs, .paths, .srcs, .bus, .rings, .writers, .nobind, .therm, .faults, .col, .log, .caps, .conf, .alert]

theorem tjArrival_keeps : ∀ a1 d, Keeps tjArrivalParts d (tjArrival a1 d) := by
  intro a1 d
  unfold tjArrival
  repeat' first
    | with_reducible exact Keeps.refl _ _
    | with_reducible assumption
    | ((try lift_lets); intro x; first | (refine Keeps.cut x ?_ ?_; (on_goal 1 => subst x); (on_goal 2 => (clear_value x; intro hx))) | (have hf := fun a => x a; clear hf; subst x) | clear_value x)
    | with_reducible refine (arrive_keeps ..).after ?_ (by decide)
    | with_reducible refine Keeps.ite ?_ ?_
    | split

theorem tonMaxReached_keeps : ∀ a1 a2 d, Keeps [.clk, .slots] d (tonMaxReached a1 a2 d) := by
  intro a1 a2 d
  unfold tonMaxReached
  repeat' first
    | with_reducible exact Keeps.refl _ _
    | with_reducible assumption
    | ((try lift_lets); intro x; first | (refine Keeps.cut x ?_ ?_; (on_goal 1 => subst x); (on_goal 2 => (clear_value x; intro hx))) | (have hf := fun a => x a; clear hf; subst x) | clear_value x)
    | with_reducible refine (saturated_keeps ..).after ?_ (by decide)
    | with_reducible refine (waitUp_keeps ..).after ?_ (by decide)
    | with_reducible refine Keeps.ite ?_ ?_
    | split

theorem unknownCommand_keeps : ∀ d, Keeps [.sup] d (unknownCommand d) := by
  intro d
  unfold unknownCommand
  repeat' first
    | with_reducible exact Keeps.refl _ _
    | with_reducible assumption
    | ((try lift_lets); intro x; first | (refine Keeps.cut x ?_ ?_; (on_goal 1 => subst x); (on_goal 2 => (clear_value x; intro hx))) | (have hf := fun a => x a; clear hf; subst x) | clear_value x)
    | with_reducible refine (countRefused_keeps ..).after ?_ (by decide)
    | with_reducible refine (noAck_keeps ..).after ?_ (by decide)
    | with_reducible refine Keeps.ite ?_ ?_
    | split

theorem unlockExpiry_keeps : ∀ d, Keeps [.clk, .sup] d (unlockExpiry d) := by
  intro d
  unfold unlockExpiry
  repeat' first
    | with_reducible exact Keeps.refl _ _
    | with_reducible assumption
    | ((try lift_lets); intro x; first | (refine Keeps.cut x ?_ ?_; (on_goal 1 => subst x); (on_goal 2 => (clear_value x; intro hx))) | (have hf := fun a => x a; clear hf; subst x) | clear_value x)
    | with_reducible refine (waitUp_keeps ..).after ?_ (by decide)
    | with_reducible refine (updSup_keeps (S := [.sup]) _ ?_).after ?_ (by decide)
    | with_reducible refine Keeps.ite ?_ ?_
    | (intro s; refine ⟨fun h => ?_, fun h => ?_⟩ <;> first | rfl | (cases h; done) | (split <;> rfl) | (simp; done))
    | (refine ⟨fun h => ?_, fun h => ?_⟩ <;> first | rfl | (cases h; done) | (split <;> rfl) | (simp; done))
    | split

theorem upperCrossing_keeps : ∀ a1 a2 d, Keeps [.slots] d (upperCrossing a1 a2 d) := by
  intro a1 a2 d
  unfold upperCrossing
  repeat' first
    | with_reducible exact Keeps.refl _ _
    | with_reducible assumption
    | ((try lift_lets); intro x; first | (refine Keeps.cut x ?_ ?_; (on_goal 1 => subst x); (on_goal 2 => (clear_value x; intro hx))) | (have hf := fun a => x a; clear hf; subst x) | clear_value x)
    | with_reducible refine (xOff_keeps ..).after ?_ (by decide)
    | with_reducible refine (updSlot_keeps _ _ ?_).after ?_ (by decide)
    | with_reducible refine Keeps.ite ?_ ?_
    | (intro s h; first | exact h | (simp only [SlotSt.apart] at *; done) | (dsimp only; split <;> exact h) | (cases s; simp_all [SlotSt.apart]; done))
    | split

theorem vsysUpdate_keeps : ∀ d, Keeps [.bus] d (vsysUpdate d) := by
  intro d
  unfold vsysUpdate
  repeat' first
    | with_reducible exact Keeps.refl _ _
    | with_reducible assumption
    | ((try lift_lets); intro x; first | (refine Keeps.cut x ?_ ?_; (on_goal 1 => subst x); (on_goal 2 => (clear_value x; intro hx))) | (have hf := fun a => x a; clear hf; subst x) | clear_value x)
    | with_reducible refine (updBus_keeps ..).after ?_ (by decide)
    | with_reducible refine Keeps.ite ?_ ?_
    | split

theorem vsysEvaluation_keeps : ∀ d, Keeps [.devState, .latch, .arbs, .clk, .isl, .slots, .quads, .chans, .profs, .paths, .srcs, .bus, .faults, .col, .log, .caps, .alert] d (vsysEvaluation d) := by
  intro d
  unfold vsysEvaluation
  repeat' first
    | with_reducible exact Keeps.refl _ _
    | with_reducible assumption
    | ((try lift_lets); intro x; first | (refine Keeps.cut x ?_ ?_; (on_goal 1 => subst x); (on_goal 2 => (clear_value x; intro hx))) | (have hf := fun a => x a; clear hf; subst x) | clear_value x)
    | with_reducible refine (busSample_keeps ..).after ?_ (by decide)
    | with_reducible refine (vsysUpdate_keeps ..).after ?_ (by decide)
    | with_reducible refine (nextMultiple_keeps ..).after ?_ (by decide)
    | with_reducible refine (staleUpdate_keeps ..).after ?_ (by decide)
    | with_reducible refine (handover_keeps ..).after ?_ (by decide)
    | with_reducible refine (busEval_keeps ..).after ?_ (by decide)
    | with_reducible refine (holdsRelease_keeps ..).after ?_ (by decide)
    | with_reducible refine (updBus_keeps ..).after ?_ (by decide)
    | with_reducible refine Keeps.ite ?_ ?_
    | split

theorem waitPos_keeps : ∀ a1 a2 d, Keeps [.clk] d (waitPos a1 a2 d) := by
  intro a1 a2 d
  unfold waitPos
  repeat' first
    | with_reducible exact Keeps.refl _ _
    | with_reducible assumption
    | ((try lift_lets); intro x; first | (refine Keeps.cut x ?_ ?_; (on_goal 1 => subst x); (on_goal 2 => (clear_value x; intro hx))) | (have hf := fun a => x a; clear hf; subst x) | clear_value x)
    | with_reducible refine (waitUp_keeps ..).after ?_ (by decide)
    | with_reducible refine Keeps.ite ?_ ?_
    | split

def writeWordParts : List Part :=
  [.start, .devState, .latch, .mode, .arbs, .isl, .cvn, .slots, .quads, .chans, .profs, .paths, .srcs, .bus, .mods, .therm, .hk, .faults, .col, .log, .caps, .fi, .alert]

theorem writeWord_keeps : ∀ a1 a2 a3 d, Keeps writeWordParts d (writeWord a1 a2 a3 d) := by
  intro a1 a2 a3 d
  unfold writeWord
  repeat' first
    | with_reducible exact Keeps.refl _ _
    | with_reducible assumption
    | ((try lift_lets); intro x; first | (refine Keeps.cut x ?_ ?_; (on_goal 1 => subst x); (on_goal 2 => (clear_value x; intro hx))) | (have hf := fun a => x a; clear hf; subst x) | clear_value x)
    | with_reducible refine (clearBits_keeps ..).after ?_ (by decide)
    | with_reducible refine (fiMemWrite_keeps ..).after ?_ (by decide)
    | with_reducible refine (busEval_keeps ..).after ?_ (by decide)
    | with_reducible refine (fiRailWrite_keeps ..).after ?_ (by decide)
    | with_reducible refine (narrowWrite_keeps ..).after ?_ (by decide)
    | with_reducible refine (hostStopWrite_keeps ..).after ?_ (by decide)
    | with_reducible refine Keeps.ite ?_ ?_
    | split

def writeParts : List Part :=
  [.start, .devState, .latch, .mode, .arbs, .isl, .cvn, .slots, .quads, .chans, .profs, .paths, .srcs, .bus, .mods, .therm, .hk, .faults, .col, .log, .caps, .fi, .sup, .alert]

theorem write_keeps : ∀ a1 d, Keeps writeParts d (write a1 d) := by
  intro a1 d
  unfold write
  repeat' first
    | with_reducible exact Keeps.refl _ _
    | with_reducible assumption
    | ((try lift_lets); intro x; first | (refine Keeps.cut x ?_ ?_; (on_goal 1 => subst x); (on_goal 2 => (clear_value x; intro hx))) | (have hf := fun a => x a; clear hf; subst x) | clear_value x)
    | with_reducible refine Keeps.blockWrite (fun _ _ _ => ?_) ?_ (by decide)
    | with_reducible refine Keeps.ifOk (fun _ _ => ?_) ?_
    | with_reducible refine (writeWord_keeps ..).after ?_ (by decide)
    | with_reducible refine Keeps.ite ?_ ?_
    | split

theorem xrefLost_keeps : ∀ d, Keeps [.cvn] d (xrefLost d) := by
  intro d
  unfold xrefLost
  repeat' first
    | with_reducible exact Keeps.refl _ _
    | with_reducible assumption
    | ((try lift_lets); intro x; first | (refine Keeps.cut x ?_ ?_; (on_goal 1 => subst x); (on_goal 2 => (clear_value x; intro hx))) | (have hf := fun a => x a; clear hf; subst x) | clear_value x)
    | with_reducible refine (updCvn_keeps ..).after ?_ (by decide)
    | with_reducible refine Keeps.ite ?_ ?_
    | split

theorem xrefRestored_keeps : ∀ d, Keeps [.cvn] d (xrefRestored d) := by
  intro d
  unfold xrefRestored
  repeat' first
    | with_reducible exact Keeps.refl _ _
    | with_reducible assumption
    | ((try lift_lets); intro x; first | (refine Keeps.cut x ?_ ?_; (on_goal 1 => subst x); (on_goal 2 => (clear_value x; intro hx))) | (have hf := fun a => x a; clear hf; subst x) | clear_value x)
    | with_reducible refine (updCvn_keeps ..).after ?_ (by decide)
    | with_reducible refine Keeps.ite ?_ ?_
    | split

theorem yOffCount_keeps : ∀ a1 d, Keeps [.clk, .slots] d (yOffCount a1 d) := by
  intro a1 d
  unfold yOffCount
  repeat' first
    | with_reducible exact Keeps.refl _ _
    | with_reducible assumption
    | ((try lift_lets); intro x; first | (refine Keeps.cut x ?_ ?_; (on_goal 1 => subst x); (on_goal 2 => (clear_value x; intro hx))) | (have hf := fun a => x a; clear hf; subst x) | clear_value x)
    | with_reducible refine (yOffDue_keeps ..).after ?_ (by decide)
    | with_reducible refine Keeps.ite ?_ ?_
    | split

end Sys2Proof.Machine
end

