-- ==== Sys2Proof/Laws/State.lean ====
section
/-! SUPPORT. Sys2Proof/Laws/State.lean: every field of the device after every record update, by rfl. -/

namespace Sys2Proof.Machine

@[simp] theorem updSlot_slots (d : Device) (n : Slot) (f : SlotSt → SlotSt) : (d.updSlot n f).slots = upd d.slots n f := rfl
@[simp] theorem updSlot_start (d : Device) (n : Slot) (f : SlotSt → SlotSt) : (d.updSlot n f).start = d.start := rfl
@[simp] theorem updSlot_loader (d : Device) (n : Slot) (f : SlotSt → SlotSt) : (d.updSlot n f).loader = d.loader := rfl
@[simp] theorem updSlot_check (d : Device) (n : Slot) (f : SlotSt → SlotSt) : (d.updSlot n f).check = d.check := rfl
@[simp] theorem updSlot_button (d : Device) (n : Slot) (f : SlotSt → SlotSt) : (d.updSlot n f).button = d.button := rfl
@[simp] theorem updSlot_mode (d : Device) (n : Slot) (f : SlotSt → SlotSt) : (d.updSlot n f).mode = d.mode := rfl
@[simp] theorem updSlot_bootp (d : Device) (n : Slot) (f : SlotSt → SlotSt) : (d.updSlot n f).bootp = d.bootp := rfl
@[simp] theorem updSlot_arbs (d : Device) (n : Slot) (f : SlotSt → SlotSt) : (d.updSlot n f).arbs = d.arbs := rfl
@[simp] theorem updSlot_clk (d : Device) (n : Slot) (f : SlotSt → SlotSt) : (d.updSlot n f).clk = d.clk := rfl
@[simp] theorem updSlot_isl (d : Device) (n : Slot) (f : SlotSt → SlotSt) : (d.updSlot n f).isl = d.isl := rfl
@[simp] theorem updSlot_cvn (d : Device) (n : Slot) (f : SlotSt → SlotSt) : (d.updSlot n f).cvn = d.cvn := rfl
@[simp] theorem updSlot_halt (d : Device) (n : Slot) (f : SlotSt → SlotSt) : (d.updSlot n f).halt = d.halt := rfl
@[simp] theorem updSlot_quads (d : Device) (n : Slot) (f : SlotSt → SlotSt) : (d.updSlot n f).quads = d.quads := rfl
@[simp] theorem updSlot_chans (d : Device) (n : Slot) (f : SlotSt → SlotSt) : (d.updSlot n f).chans = d.chans := rfl
@[simp] theorem updSlot_profs (d : Device) (n : Slot) (f : SlotSt → SlotSt) : (d.updSlot n f).profs = d.profs := rfl
@[simp] theorem updSlot_paths (d : Device) (n : Slot) (f : SlotSt → SlotSt) : (d.updSlot n f).paths = d.paths := rfl
@[simp] theorem updSlot_srcs (d : Device) (n : Slot) (f : SlotSt → SlotSt) : (d.updSlot n f).srcs = d.srcs := rfl
@[simp] theorem updSlot_bus (d : Device) (n : Slot) (f : SlotSt → SlotSt) : (d.updSlot n f).bus = d.bus := rfl
@[simp] theorem updSlot_stg (d : Device) (n : Slot) (f : SlotSt → SlotSt) : (d.updSlot n f).stg = d.stg := rfl
@[simp] theorem updSlot_mods (d : Device) (n : Slot) (f : SlotSt → SlotSt) : (d.updSlot n f).mods = d.mods := rfl
@[simp] theorem updSlot_seqs (d : Device) (n : Slot) (f : SlotSt → SlotSt) : (d.updSlot n f).seqs = d.seqs := rfl
@[simp] theorem updSlot_rings (d : Device) (n : Slot) (f : SlotSt → SlotSt) : (d.updSlot n f).rings = d.rings := rfl
@[simp] theorem updSlot_writers (d : Device) (n : Slot) (f : SlotSt → SlotSt) : (d.updSlot n f).writers = d.writers := rfl
@[simp] theorem updSlot_nobind (d : Device) (n : Slot) (f : SlotSt → SlotSt) : (d.updSlot n f).nobind = d.nobind := rfl
@[simp] theorem updSlot_cal (d : Device) (n : Slot) (f : SlotSt → SlotSt) : (d.updSlot n f).cal = d.cal := rfl
@[simp] theorem updSlot_therm (d : Device) (n : Slot) (f : SlotSt → SlotSt) : (d.updSlot n f).therm = d.therm := rfl
@[simp] theorem updSlot_hk (d : Device) (n : Slot) (f : SlotSt → SlotSt) : (d.updSlot n f).hk = d.hk := rfl
@[simp] theorem updSlot_faults (d : Device) (n : Slot) (f : SlotSt → SlotSt) : (d.updSlot n f).faults = d.faults := rfl
@[simp] theorem updSlot_col (d : Device) (n : Slot) (f : SlotSt → SlotSt) : (d.updSlot n f).col = d.col := rfl
@[simp] theorem updSlot_memory (d : Device) (n : Slot) (f : SlotSt → SlotSt) : (d.updSlot n f).memory = d.memory := rfl
@[simp] theorem updSlot_reload (d : Device) (n : Slot) (f : SlotSt → SlotSt) : (d.updSlot n f).reload = d.reload := rfl
@[simp] theorem updSlot_sup (d : Device) (n : Slot) (f : SlotSt → SlotSt) : (d.updSlot n f).sup = d.sup := rfl
@[simp] theorem updSlot_pins (d : Device) (n : Slot) (f : SlotSt → SlotSt) : (d.updSlot n f).pins = d.pins := rfl
@[simp] theorem updSlot_free (d : Device) (n : Slot) (f : SlotSt → SlotSt) : (d.updSlot n f).free = d.free := rfl

@[simp] theorem updQuad_quads (d : Device) (n : Quad) (f : QuadSt → QuadSt) : (d.updQuad n f).quads = upd d.quads n f := rfl
@[simp] theorem updQuad_start (d : Device) (n : Quad) (f : QuadSt → QuadSt) : (d.updQuad n f).start = d.start := rfl
@[simp] theorem updQuad_loader (d : Device) (n : Quad) (f : QuadSt → QuadSt) : (d.updQuad n f).loader = d.loader := rfl
@[simp] theorem updQuad_check (d : Device) (n : Quad) (f : QuadSt → QuadSt) : (d.updQuad n f).check = d.check := rfl
@[simp] theorem updQuad_button (d : Device) (n : Quad) (f : QuadSt → QuadSt) : (d.updQuad n f).button = d.button := rfl
@[simp] theorem updQuad_mode (d : Device) (n : Quad) (f : QuadSt → QuadSt) : (d.updQuad n f).mode = d.mode := rfl
@[simp] theorem updQuad_bootp (d : Device) (n : Quad) (f : QuadSt → QuadSt) : (d.updQuad n f).bootp = d.bootp := rfl
@[simp] theorem updQuad_arbs (d : Device) (n : Quad) (f : QuadSt → QuadSt) : (d.updQuad n f).arbs = d.arbs := rfl
@[simp] theorem updQuad_clk (d : Device) (n : Quad) (f : QuadSt → QuadSt) : (d.updQuad n f).clk = d.clk := rfl
@[simp] theorem updQuad_isl (d : Device) (n : Quad) (f : QuadSt → QuadSt) : (d.updQuad n f).isl = d.isl := rfl
@[simp] theorem updQuad_cvn (d : Device) (n : Quad) (f : QuadSt → QuadSt) : (d.updQuad n f).cvn = d.cvn := rfl
@[simp] theorem updQuad_halt (d : Device) (n : Quad) (f : QuadSt → QuadSt) : (d.updQuad n f).halt = d.halt := rfl
@[simp] theorem updQuad_slots (d : Device) (n : Quad) (f : QuadSt → QuadSt) : (d.updQuad n f).slots = d.slots := rfl
@[simp] theorem updQuad_chans (d : Device) (n : Quad) (f : QuadSt → QuadSt) : (d.updQuad n f).chans = d.chans := rfl
@[simp] theorem updQuad_profs (d : Device) (n : Quad) (f : QuadSt → QuadSt) : (d.updQuad n f).profs = d.profs := rfl
@[simp] theorem updQuad_paths (d : Device) (n : Quad) (f : QuadSt → QuadSt) : (d.updQuad n f).paths = d.paths := rfl
@[simp] theorem updQuad_srcs (d : Device) (n : Quad) (f : QuadSt → QuadSt) : (d.updQuad n f).srcs = d.srcs := rfl
@[simp] theorem updQuad_bus (d : Device) (n : Quad) (f : QuadSt → QuadSt) : (d.updQuad n f).bus = d.bus := rfl
@[simp] theorem updQuad_stg (d : Device) (n : Quad) (f : QuadSt → QuadSt) : (d.updQuad n f).stg = d.stg := rfl
@[simp] theorem updQuad_mods (d : Device) (n : Quad) (f : QuadSt → QuadSt) : (d.updQuad n f).mods = d.mods := rfl
@[simp] theorem updQuad_seqs (d : Device) (n : Quad) (f : QuadSt → QuadSt) : (d.updQuad n f).seqs = d.seqs := rfl
@[simp] theorem updQuad_rings (d : Device) (n : Quad) (f : QuadSt → QuadSt) : (d.updQuad n f).rings = d.rings := rfl
@[simp] theorem updQuad_writers (d : Device) (n : Quad) (f : QuadSt → QuadSt) : (d.updQuad n f).writers = d.writers := rfl
@[simp] theorem updQuad_nobind (d : Device) (n : Quad) (f : QuadSt → QuadSt) : (d.updQuad n f).nobind = d.nobind := rfl
@[simp] theorem updQuad_cal (d : Device) (n : Quad) (f : QuadSt → QuadSt) : (d.updQuad n f).cal = d.cal := rfl
@[simp] theorem updQuad_therm (d : Device) (n : Quad) (f : QuadSt → QuadSt) : (d.updQuad n f).therm = d.therm := rfl
@[simp] theorem updQuad_hk (d : Device) (n : Quad) (f : QuadSt → QuadSt) : (d.updQuad n f).hk = d.hk := rfl
@[simp] theorem updQuad_faults (d : Device) (n : Quad) (f : QuadSt → QuadSt) : (d.updQuad n f).faults = d.faults := rfl
@[simp] theorem updQuad_col (d : Device) (n : Quad) (f : QuadSt → QuadSt) : (d.updQuad n f).col = d.col := rfl
@[simp] theorem updQuad_memory (d : Device) (n : Quad) (f : QuadSt → QuadSt) : (d.updQuad n f).memory = d.memory := rfl
@[simp] theorem updQuad_reload (d : Device) (n : Quad) (f : QuadSt → QuadSt) : (d.updQuad n f).reload = d.reload := rfl
@[simp] theorem updQuad_sup (d : Device) (n : Quad) (f : QuadSt → QuadSt) : (d.updQuad n f).sup = d.sup := rfl
@[simp] theorem updQuad_pins (d : Device) (n : Quad) (f : QuadSt → QuadSt) : (d.updQuad n f).pins = d.pins := rfl
@[simp] theorem updQuad_free (d : Device) (n : Quad) (f : QuadSt → QuadSt) : (d.updQuad n f).free = d.free := rfl

@[simp] theorem updChan_chans (d : Device) (n : Chan) (f : ChanSt → ChanSt) : (d.updChan n f).chans = upd d.chans n f := rfl
@[simp] theorem updChan_start (d : Device) (n : Chan) (f : ChanSt → ChanSt) : (d.updChan n f).start = d.start := rfl
@[simp] theorem updChan_loader (d : Device) (n : Chan) (f : ChanSt → ChanSt) : (d.updChan n f).loader = d.loader := rfl
@[simp] theorem updChan_check (d : Device) (n : Chan) (f : ChanSt → ChanSt) : (d.updChan n f).check = d.check := rfl
@[simp] theorem updChan_button (d : Device) (n : Chan) (f : ChanSt → ChanSt) : (d.updChan n f).button = d.button := rfl
@[simp] theorem updChan_mode (d : Device) (n : Chan) (f : ChanSt → ChanSt) : (d.updChan n f).mode = d.mode := rfl
@[simp] theorem updChan_bootp (d : Device) (n : Chan) (f : ChanSt → ChanSt) : (d.updChan n f).bootp = d.bootp := rfl
@[simp] theorem updChan_arbs (d : Device) (n : Chan) (f : ChanSt → ChanSt) : (d.updChan n f).arbs = d.arbs := rfl
@[simp] theorem updChan_clk (d : Device) (n : Chan) (f : ChanSt → ChanSt) : (d.updChan n f).clk = d.clk := rfl
@[simp] theorem updChan_isl (d : Device) (n : Chan) (f : ChanSt → ChanSt) : (d.updChan n f).isl = d.isl := rfl
@[simp] theorem updChan_cvn (d : Device) (n : Chan) (f : ChanSt → ChanSt) : (d.updChan n f).cvn = d.cvn := rfl
@[simp] theorem updChan_halt (d : Device) (n : Chan) (f : ChanSt → ChanSt) : (d.updChan n f).halt = d.halt := rfl
@[simp] theorem updChan_slots (d : Device) (n : Chan) (f : ChanSt → ChanSt) : (d.updChan n f).slots = d.slots := rfl
@[simp] theorem updChan_quads (d : Device) (n : Chan) (f : ChanSt → ChanSt) : (d.updChan n f).quads = d.quads := rfl
@[simp] theorem updChan_profs (d : Device) (n : Chan) (f : ChanSt → ChanSt) : (d.updChan n f).profs = d.profs := rfl
@[simp] theorem updChan_paths (d : Device) (n : Chan) (f : ChanSt → ChanSt) : (d.updChan n f).paths = d.paths := rfl
@[simp] theorem updChan_srcs (d : Device) (n : Chan) (f : ChanSt → ChanSt) : (d.updChan n f).srcs = d.srcs := rfl
@[simp] theorem updChan_bus (d : Device) (n : Chan) (f : ChanSt → ChanSt) : (d.updChan n f).bus = d.bus := rfl
@[simp] theorem updChan_stg (d : Device) (n : Chan) (f : ChanSt → ChanSt) : (d.updChan n f).stg = d.stg := rfl
@[simp] theorem updChan_mods (d : Device) (n : Chan) (f : ChanSt → ChanSt) : (d.updChan n f).mods = d.mods := rfl
@[simp] theorem updChan_seqs (d : Device) (n : Chan) (f : ChanSt → ChanSt) : (d.updChan n f).seqs = d.seqs := rfl
@[simp] theorem updChan_rings (d : Device) (n : Chan) (f : ChanSt → ChanSt) : (d.updChan n f).rings = d.rings := rfl
@[simp] theorem updChan_writers (d : Device) (n : Chan) (f : ChanSt → ChanSt) : (d.updChan n f).writers = d.writers := rfl
@[simp] theorem updChan_nobind (d : Device) (n : Chan) (f : ChanSt → ChanSt) : (d.updChan n f).nobind = d.nobind := rfl
@[simp] theorem updChan_cal (d : Device) (n : Chan) (f : ChanSt → ChanSt) : (d.updChan n f).cal = d.cal := rfl
@[simp] theorem updChan_therm (d : Device) (n : Chan) (f : ChanSt → ChanSt) : (d.updChan n f).therm = d.therm := rfl
@[simp] theorem updChan_hk (d : Device) (n : Chan) (f : ChanSt → ChanSt) : (d.updChan n f).hk = d.hk := rfl
@[simp] theorem updChan_faults (d : Device) (n : Chan) (f : ChanSt → ChanSt) : (d.updChan n f).faults = d.faults := rfl
@[simp] theorem updChan_col (d : Device) (n : Chan) (f : ChanSt → ChanSt) : (d.updChan n f).col = d.col := rfl
@[simp] theorem updChan_memory (d : Device) (n : Chan) (f : ChanSt → ChanSt) : (d.updChan n f).memory = d.memory := rfl
@[simp] theorem updChan_reload (d : Device) (n : Chan) (f : ChanSt → ChanSt) : (d.updChan n f).reload = d.reload := rfl
@[simp] theorem updChan_sup (d : Device) (n : Chan) (f : ChanSt → ChanSt) : (d.updChan n f).sup = d.sup := rfl
@[simp] theorem updChan_pins (d : Device) (n : Chan) (f : ChanSt → ChanSt) : (d.updChan n f).pins = d.pins := rfl
@[simp] theorem updChan_free (d : Device) (n : Chan) (f : ChanSt → ChanSt) : (d.updChan n f).free = d.free := rfl

@[simp] theorem updProf_profs (d : Device) (n : Chan) (f : ProfSt → ProfSt) : (d.updProf n f).profs = upd d.profs n f := rfl
@[simp] theorem updProf_start (d : Device) (n : Chan) (f : ProfSt → ProfSt) : (d.updProf n f).start = d.start := rfl
@[simp] theorem updProf_loader (d : Device) (n : Chan) (f : ProfSt → ProfSt) : (d.updProf n f).loader = d.loader := rfl
@[simp] theorem updProf_check (d : Device) (n : Chan) (f : ProfSt → ProfSt) : (d.updProf n f).check = d.check := rfl
@[simp] theorem updProf_button (d : Device) (n : Chan) (f : ProfSt → ProfSt) : (d.updProf n f).button = d.button := rfl
@[simp] theorem updProf_mode (d : Device) (n : Chan) (f : ProfSt → ProfSt) : (d.updProf n f).mode = d.mode := rfl
@[simp] theorem updProf_bootp (d : Device) (n : Chan) (f : ProfSt → ProfSt) : (d.updProf n f).bootp = d.bootp := rfl
@[simp] theorem updProf_arbs (d : Device) (n : Chan) (f : ProfSt → ProfSt) : (d.updProf n f).arbs = d.arbs := rfl
@[simp] theorem updProf_clk (d : Device) (n : Chan) (f : ProfSt → ProfSt) : (d.updProf n f).clk = d.clk := rfl
@[simp] theorem updProf_isl (d : Device) (n : Chan) (f : ProfSt → ProfSt) : (d.updProf n f).isl = d.isl := rfl
@[simp] theorem updProf_cvn (d : Device) (n : Chan) (f : ProfSt → ProfSt) : (d.updProf n f).cvn = d.cvn := rfl
@[simp] theorem updProf_halt (d : Device) (n : Chan) (f : ProfSt → ProfSt) : (d.updProf n f).halt = d.halt := rfl
@[simp] theorem updProf_slots (d : Device) (n : Chan) (f : ProfSt → ProfSt) : (d.updProf n f).slots = d.slots := rfl
@[simp] theorem updProf_quads (d : Device) (n : Chan) (f : ProfSt → ProfSt) : (d.updProf n f).quads = d.quads := rfl
@[simp] theorem updProf_chans (d : Device) (n : Chan) (f : ProfSt → ProfSt) : (d.updProf n f).chans = d.chans := rfl
@[simp] theorem updProf_paths (d : Device) (n : Chan) (f : ProfSt → ProfSt) : (d.updProf n f).paths = d.paths := rfl
@[simp] theorem updProf_srcs (d : Device) (n : Chan) (f : ProfSt → ProfSt) : (d.updProf n f).srcs = d.srcs := rfl
@[simp] theorem updProf_bus (d : Device) (n : Chan) (f : ProfSt → ProfSt) : (d.updProf n f).bus = d.bus := rfl
@[simp] theorem updProf_stg (d : Device) (n : Chan) (f : ProfSt → ProfSt) : (d.updProf n f).stg = d.stg := rfl
@[simp] theorem updProf_mods (d : Device) (n : Chan) (f : ProfSt → ProfSt) : (d.updProf n f).mods = d.mods := rfl
@[simp] theorem updProf_seqs (d : Device) (n : Chan) (f : ProfSt → ProfSt) : (d.updProf n f).seqs = d.seqs := rfl
@[simp] theorem updProf_rings (d : Device) (n : Chan) (f : ProfSt → ProfSt) : (d.updProf n f).rings = d.rings := rfl
@[simp] theorem updProf_writers (d : Device) (n : Chan) (f : ProfSt → ProfSt) : (d.updProf n f).writers = d.writers := rfl
@[simp] theorem updProf_nobind (d : Device) (n : Chan) (f : ProfSt → ProfSt) : (d.updProf n f).nobind = d.nobind := rfl
@[simp] theorem updProf_cal (d : Device) (n : Chan) (f : ProfSt → ProfSt) : (d.updProf n f).cal = d.cal := rfl
@[simp] theorem updProf_therm (d : Device) (n : Chan) (f : ProfSt → ProfSt) : (d.updProf n f).therm = d.therm := rfl
@[simp] theorem updProf_hk (d : Device) (n : Chan) (f : ProfSt → ProfSt) : (d.updProf n f).hk = d.hk := rfl
@[simp] theorem updProf_faults (d : Device) (n : Chan) (f : ProfSt → ProfSt) : (d.updProf n f).faults = d.faults := rfl
@[simp] theorem updProf_col (d : Device) (n : Chan) (f : ProfSt → ProfSt) : (d.updProf n f).col = d.col := rfl
@[simp] theorem updProf_memory (d : Device) (n : Chan) (f : ProfSt → ProfSt) : (d.updProf n f).memory = d.memory := rfl
@[simp] theorem updProf_reload (d : Device) (n : Chan) (f : ProfSt → ProfSt) : (d.updProf n f).reload = d.reload := rfl
@[simp] theorem updProf_sup (d : Device) (n : Chan) (f : ProfSt → ProfSt) : (d.updProf n f).sup = d.sup := rfl
@[simp] theorem updProf_pins (d : Device) (n : Chan) (f : ProfSt → ProfSt) : (d.updProf n f).pins = d.pins := rfl
@[simp] theorem updProf_free (d : Device) (n : Chan) (f : ProfSt → ProfSt) : (d.updProf n f).free = d.free := rfl

@[simp] theorem updPath_paths (d : Device) (n : Chan) (f : PathSt → PathSt) : (d.updPath n f).paths = upd d.paths n f := rfl
@[simp] theorem updPath_start (d : Device) (n : Chan) (f : PathSt → PathSt) : (d.updPath n f).start = d.start := rfl
@[simp] theorem updPath_loader (d : Device) (n : Chan) (f : PathSt → PathSt) : (d.updPath n f).loader = d.loader := rfl
@[simp] theorem updPath_check (d : Device) (n : Chan) (f : PathSt → PathSt) : (d.updPath n f).check = d.check := rfl
@[simp] theorem updPath_button (d : Device) (n : Chan) (f : PathSt → PathSt) : (d.updPath n f).button = d.button := rfl
@[simp] theorem updPath_mode (d : Device) (n : Chan) (f : PathSt → PathSt) : (d.updPath n f).mode = d.mode := rfl
@[simp] theorem updPath_bootp (d : Device) (n : Chan) (f : PathSt → PathSt) : (d.updPath n f).bootp = d.bootp := rfl
@[simp] theorem updPath_arbs (d : Device) (n : Chan) (f : PathSt → PathSt) : (d.updPath n f).arbs = d.arbs := rfl
@[simp] theorem updPath_clk (d : Device) (n : Chan) (f : PathSt → PathSt) : (d.updPath n f).clk = d.clk := rfl
@[simp] theorem updPath_isl (d : Device) (n : Chan) (f : PathSt → PathSt) : (d.updPath n f).isl = d.isl := rfl
@[simp] theorem updPath_cvn (d : Device) (n : Chan) (f : PathSt → PathSt) : (d.updPath n f).cvn = d.cvn := rfl
@[simp] theorem updPath_halt (d : Device) (n : Chan) (f : PathSt → PathSt) : (d.updPath n f).halt = d.halt := rfl
@[simp] theorem updPath_slots (d : Device) (n : Chan) (f : PathSt → PathSt) : (d.updPath n f).slots = d.slots := rfl
@[simp] theorem updPath_quads (d : Device) (n : Chan) (f : PathSt → PathSt) : (d.updPath n f).quads = d.quads := rfl
@[simp] theorem updPath_chans (d : Device) (n : Chan) (f : PathSt → PathSt) : (d.updPath n f).chans = d.chans := rfl
@[simp] theorem updPath_profs (d : Device) (n : Chan) (f : PathSt → PathSt) : (d.updPath n f).profs = d.profs := rfl
@[simp] theorem updPath_srcs (d : Device) (n : Chan) (f : PathSt → PathSt) : (d.updPath n f).srcs = d.srcs := rfl
@[simp] theorem updPath_bus (d : Device) (n : Chan) (f : PathSt → PathSt) : (d.updPath n f).bus = d.bus := rfl
@[simp] theorem updPath_stg (d : Device) (n : Chan) (f : PathSt → PathSt) : (d.updPath n f).stg = d.stg := rfl
@[simp] theorem updPath_mods (d : Device) (n : Chan) (f : PathSt → PathSt) : (d.updPath n f).mods = d.mods := rfl
@[simp] theorem updPath_seqs (d : Device) (n : Chan) (f : PathSt → PathSt) : (d.updPath n f).seqs = d.seqs := rfl
@[simp] theorem updPath_rings (d : Device) (n : Chan) (f : PathSt → PathSt) : (d.updPath n f).rings = d.rings := rfl
@[simp] theorem updPath_writers (d : Device) (n : Chan) (f : PathSt → PathSt) : (d.updPath n f).writers = d.writers := rfl
@[simp] theorem updPath_nobind (d : Device) (n : Chan) (f : PathSt → PathSt) : (d.updPath n f).nobind = d.nobind := rfl
@[simp] theorem updPath_cal (d : Device) (n : Chan) (f : PathSt → PathSt) : (d.updPath n f).cal = d.cal := rfl
@[simp] theorem updPath_therm (d : Device) (n : Chan) (f : PathSt → PathSt) : (d.updPath n f).therm = d.therm := rfl
@[simp] theorem updPath_hk (d : Device) (n : Chan) (f : PathSt → PathSt) : (d.updPath n f).hk = d.hk := rfl
@[simp] theorem updPath_faults (d : Device) (n : Chan) (f : PathSt → PathSt) : (d.updPath n f).faults = d.faults := rfl
@[simp] theorem updPath_col (d : Device) (n : Chan) (f : PathSt → PathSt) : (d.updPath n f).col = d.col := rfl
@[simp] theorem updPath_memory (d : Device) (n : Chan) (f : PathSt → PathSt) : (d.updPath n f).memory = d.memory := rfl
@[simp] theorem updPath_reload (d : Device) (n : Chan) (f : PathSt → PathSt) : (d.updPath n f).reload = d.reload := rfl
@[simp] theorem updPath_sup (d : Device) (n : Chan) (f : PathSt → PathSt) : (d.updPath n f).sup = d.sup := rfl
@[simp] theorem updPath_pins (d : Device) (n : Chan) (f : PathSt → PathSt) : (d.updPath n f).pins = d.pins := rfl
@[simp] theorem updPath_free (d : Device) (n : Chan) (f : PathSt → PathSt) : (d.updPath n f).free = d.free := rfl

@[simp] theorem updSrc_srcs (d : Device) (n : Src) (f : SrcSt → SrcSt) : (d.updSrc n f).srcs = upd d.srcs n f := rfl
@[simp] theorem updSrc_start (d : Device) (n : Src) (f : SrcSt → SrcSt) : (d.updSrc n f).start = d.start := rfl
@[simp] theorem updSrc_loader (d : Device) (n : Src) (f : SrcSt → SrcSt) : (d.updSrc n f).loader = d.loader := rfl
@[simp] theorem updSrc_check (d : Device) (n : Src) (f : SrcSt → SrcSt) : (d.updSrc n f).check = d.check := rfl
@[simp] theorem updSrc_button (d : Device) (n : Src) (f : SrcSt → SrcSt) : (d.updSrc n f).button = d.button := rfl
@[simp] theorem updSrc_mode (d : Device) (n : Src) (f : SrcSt → SrcSt) : (d.updSrc n f).mode = d.mode := rfl
@[simp] theorem updSrc_bootp (d : Device) (n : Src) (f : SrcSt → SrcSt) : (d.updSrc n f).bootp = d.bootp := rfl
@[simp] theorem updSrc_arbs (d : Device) (n : Src) (f : SrcSt → SrcSt) : (d.updSrc n f).arbs = d.arbs := rfl
@[simp] theorem updSrc_clk (d : Device) (n : Src) (f : SrcSt → SrcSt) : (d.updSrc n f).clk = d.clk := rfl
@[simp] theorem updSrc_isl (d : Device) (n : Src) (f : SrcSt → SrcSt) : (d.updSrc n f).isl = d.isl := rfl
@[simp] theorem updSrc_cvn (d : Device) (n : Src) (f : SrcSt → SrcSt) : (d.updSrc n f).cvn = d.cvn := rfl
@[simp] theorem updSrc_halt (d : Device) (n : Src) (f : SrcSt → SrcSt) : (d.updSrc n f).halt = d.halt := rfl
@[simp] theorem updSrc_slots (d : Device) (n : Src) (f : SrcSt → SrcSt) : (d.updSrc n f).slots = d.slots := rfl
@[simp] theorem updSrc_quads (d : Device) (n : Src) (f : SrcSt → SrcSt) : (d.updSrc n f).quads = d.quads := rfl
@[simp] theorem updSrc_chans (d : Device) (n : Src) (f : SrcSt → SrcSt) : (d.updSrc n f).chans = d.chans := rfl
@[simp] theorem updSrc_profs (d : Device) (n : Src) (f : SrcSt → SrcSt) : (d.updSrc n f).profs = d.profs := rfl
@[simp] theorem updSrc_paths (d : Device) (n : Src) (f : SrcSt → SrcSt) : (d.updSrc n f).paths = d.paths := rfl
@[simp] theorem updSrc_bus (d : Device) (n : Src) (f : SrcSt → SrcSt) : (d.updSrc n f).bus = d.bus := rfl
@[simp] theorem updSrc_stg (d : Device) (n : Src) (f : SrcSt → SrcSt) : (d.updSrc n f).stg = d.stg := rfl
@[simp] theorem updSrc_mods (d : Device) (n : Src) (f : SrcSt → SrcSt) : (d.updSrc n f).mods = d.mods := rfl
@[simp] theorem updSrc_seqs (d : Device) (n : Src) (f : SrcSt → SrcSt) : (d.updSrc n f).seqs = d.seqs := rfl
@[simp] theorem updSrc_rings (d : Device) (n : Src) (f : SrcSt → SrcSt) : (d.updSrc n f).rings = d.rings := rfl
@[simp] theorem updSrc_writers (d : Device) (n : Src) (f : SrcSt → SrcSt) : (d.updSrc n f).writers = d.writers := rfl
@[simp] theorem updSrc_nobind (d : Device) (n : Src) (f : SrcSt → SrcSt) : (d.updSrc n f).nobind = d.nobind := rfl
@[simp] theorem updSrc_cal (d : Device) (n : Src) (f : SrcSt → SrcSt) : (d.updSrc n f).cal = d.cal := rfl
@[simp] theorem updSrc_therm (d : Device) (n : Src) (f : SrcSt → SrcSt) : (d.updSrc n f).therm = d.therm := rfl
@[simp] theorem updSrc_hk (d : Device) (n : Src) (f : SrcSt → SrcSt) : (d.updSrc n f).hk = d.hk := rfl
@[simp] theorem updSrc_faults (d : Device) (n : Src) (f : SrcSt → SrcSt) : (d.updSrc n f).faults = d.faults := rfl
@[simp] theorem updSrc_col (d : Device) (n : Src) (f : SrcSt → SrcSt) : (d.updSrc n f).col = d.col := rfl
@[simp] theorem updSrc_memory (d : Device) (n : Src) (f : SrcSt → SrcSt) : (d.updSrc n f).memory = d.memory := rfl
@[simp] theorem updSrc_reload (d : Device) (n : Src) (f : SrcSt → SrcSt) : (d.updSrc n f).reload = d.reload := rfl
@[simp] theorem updSrc_sup (d : Device) (n : Src) (f : SrcSt → SrcSt) : (d.updSrc n f).sup = d.sup := rfl
@[simp] theorem updSrc_pins (d : Device) (n : Src) (f : SrcSt → SrcSt) : (d.updSrc n f).pins = d.pins := rfl
@[simp] theorem updSrc_free (d : Device) (n : Src) (f : SrcSt → SrcSt) : (d.updSrc n f).free = d.free := rfl

@[simp] theorem updMod_mods (d : Device) (n : Pm) (f : ModSt → ModSt) : (d.updMod n f).mods = upd d.mods n f := rfl
@[simp] theorem updMod_start (d : Device) (n : Pm) (f : ModSt → ModSt) : (d.updMod n f).start = d.start := rfl
@[simp] theorem updMod_loader (d : Device) (n : Pm) (f : ModSt → ModSt) : (d.updMod n f).loader = d.loader := rfl
@[simp] theorem updMod_check (d : Device) (n : Pm) (f : ModSt → ModSt) : (d.updMod n f).check = d.check := rfl
@[simp] theorem updMod_button (d : Device) (n : Pm) (f : ModSt → ModSt) : (d.updMod n f).button = d.button := rfl
@[simp] theorem updMod_mode (d : Device) (n : Pm) (f : ModSt → ModSt) : (d.updMod n f).mode = d.mode := rfl
@[simp] theorem updMod_bootp (d : Device) (n : Pm) (f : ModSt → ModSt) : (d.updMod n f).bootp = d.bootp := rfl
@[simp] theorem updMod_arbs (d : Device) (n : Pm) (f : ModSt → ModSt) : (d.updMod n f).arbs = d.arbs := rfl
@[simp] theorem updMod_clk (d : Device) (n : Pm) (f : ModSt → ModSt) : (d.updMod n f).clk = d.clk := rfl
@[simp] theorem updMod_isl (d : Device) (n : Pm) (f : ModSt → ModSt) : (d.updMod n f).isl = d.isl := rfl
@[simp] theorem updMod_cvn (d : Device) (n : Pm) (f : ModSt → ModSt) : (d.updMod n f).cvn = d.cvn := rfl
@[simp] theorem updMod_halt (d : Device) (n : Pm) (f : ModSt → ModSt) : (d.updMod n f).halt = d.halt := rfl
@[simp] theorem updMod_slots (d : Device) (n : Pm) (f : ModSt → ModSt) : (d.updMod n f).slots = d.slots := rfl
@[simp] theorem updMod_quads (d : Device) (n : Pm) (f : ModSt → ModSt) : (d.updMod n f).quads = d.quads := rfl
@[simp] theorem updMod_chans (d : Device) (n : Pm) (f : ModSt → ModSt) : (d.updMod n f).chans = d.chans := rfl
@[simp] theorem updMod_profs (d : Device) (n : Pm) (f : ModSt → ModSt) : (d.updMod n f).profs = d.profs := rfl
@[simp] theorem updMod_paths (d : Device) (n : Pm) (f : ModSt → ModSt) : (d.updMod n f).paths = d.paths := rfl
@[simp] theorem updMod_srcs (d : Device) (n : Pm) (f : ModSt → ModSt) : (d.updMod n f).srcs = d.srcs := rfl
@[simp] theorem updMod_bus (d : Device) (n : Pm) (f : ModSt → ModSt) : (d.updMod n f).bus = d.bus := rfl
@[simp] theorem updMod_stg (d : Device) (n : Pm) (f : ModSt → ModSt) : (d.updMod n f).stg = d.stg := rfl
@[simp] theorem updMod_seqs (d : Device) (n : Pm) (f : ModSt → ModSt) : (d.updMod n f).seqs = d.seqs := rfl
@[simp] theorem updMod_rings (d : Device) (n : Pm) (f : ModSt → ModSt) : (d.updMod n f).rings = d.rings := rfl
@[simp] theorem updMod_writers (d : Device) (n : Pm) (f : ModSt → ModSt) : (d.updMod n f).writers = d.writers := rfl
@[simp] theorem updMod_nobind (d : Device) (n : Pm) (f : ModSt → ModSt) : (d.updMod n f).nobind = d.nobind := rfl
@[simp] theorem updMod_cal (d : Device) (n : Pm) (f : ModSt → ModSt) : (d.updMod n f).cal = d.cal := rfl
@[simp] theorem updMod_therm (d : Device) (n : Pm) (f : ModSt → ModSt) : (d.updMod n f).therm = d.therm := rfl
@[simp] theorem updMod_hk (d : Device) (n : Pm) (f : ModSt → ModSt) : (d.updMod n f).hk = d.hk := rfl
@[simp] theorem updMod_faults (d : Device) (n : Pm) (f : ModSt → ModSt) : (d.updMod n f).faults = d.faults := rfl
@[simp] theorem updMod_col (d : Device) (n : Pm) (f : ModSt → ModSt) : (d.updMod n f).col = d.col := rfl
@[simp] theorem updMod_memory (d : Device) (n : Pm) (f : ModSt → ModSt) : (d.updMod n f).memory = d.memory := rfl
@[simp] theorem updMod_reload (d : Device) (n : Pm) (f : ModSt → ModSt) : (d.updMod n f).reload = d.reload := rfl
@[simp] theorem updMod_sup (d : Device) (n : Pm) (f : ModSt → ModSt) : (d.updMod n f).sup = d.sup := rfl
@[simp] theorem updMod_pins (d : Device) (n : Pm) (f : ModSt → ModSt) : (d.updMod n f).pins = d.pins := rfl
@[simp] theorem updMod_free (d : Device) (n : Pm) (f : ModSt → ModSt) : (d.updMod n f).free = d.free := rfl

@[simp] theorem updSeq_seqs (d : Device) (n : Table) (f : SeqSt → SeqSt) : (d.updSeq n f).seqs = upd d.seqs n f := rfl
@[simp] theorem updSeq_start (d : Device) (n : Table) (f : SeqSt → SeqSt) : (d.updSeq n f).start = d.start := rfl
@[simp] theorem updSeq_loader (d : Device) (n : Table) (f : SeqSt → SeqSt) : (d.updSeq n f).loader = d.loader := rfl
@[simp] theorem updSeq_check (d : Device) (n : Table) (f : SeqSt → SeqSt) : (d.updSeq n f).check = d.check := rfl
@[simp] theorem updSeq_button (d : Device) (n : Table) (f : SeqSt → SeqSt) : (d.updSeq n f).button = d.button := rfl
@[simp] theorem updSeq_mode (d : Device) (n : Table) (f : SeqSt → SeqSt) : (d.updSeq n f).mode = d.mode := rfl
@[simp] theorem updSeq_bootp (d : Device) (n : Table) (f : SeqSt → SeqSt) : (d.updSeq n f).bootp = d.bootp := rfl
@[simp] theorem updSeq_arbs (d : Device) (n : Table) (f : SeqSt → SeqSt) : (d.updSeq n f).arbs = d.arbs := rfl
@[simp] theorem updSeq_clk (d : Device) (n : Table) (f : SeqSt → SeqSt) : (d.updSeq n f).clk = d.clk := rfl
@[simp] theorem updSeq_isl (d : Device) (n : Table) (f : SeqSt → SeqSt) : (d.updSeq n f).isl = d.isl := rfl
@[simp] theorem updSeq_cvn (d : Device) (n : Table) (f : SeqSt → SeqSt) : (d.updSeq n f).cvn = d.cvn := rfl
@[simp] theorem updSeq_halt (d : Device) (n : Table) (f : SeqSt → SeqSt) : (d.updSeq n f).halt = d.halt := rfl
@[simp] theorem updSeq_slots (d : Device) (n : Table) (f : SeqSt → SeqSt) : (d.updSeq n f).slots = d.slots := rfl
@[simp] theorem updSeq_quads (d : Device) (n : Table) (f : SeqSt → SeqSt) : (d.updSeq n f).quads = d.quads := rfl
@[simp] theorem updSeq_chans (d : Device) (n : Table) (f : SeqSt → SeqSt) : (d.updSeq n f).chans = d.chans := rfl
@[simp] theorem updSeq_profs (d : Device) (n : Table) (f : SeqSt → SeqSt) : (d.updSeq n f).profs = d.profs := rfl
@[simp] theorem updSeq_paths (d : Device) (n : Table) (f : SeqSt → SeqSt) : (d.updSeq n f).paths = d.paths := rfl
@[simp] theorem updSeq_srcs (d : Device) (n : Table) (f : SeqSt → SeqSt) : (d.updSeq n f).srcs = d.srcs := rfl
@[simp] theorem updSeq_bus (d : Device) (n : Table) (f : SeqSt → SeqSt) : (d.updSeq n f).bus = d.bus := rfl
@[simp] theorem updSeq_stg (d : Device) (n : Table) (f : SeqSt → SeqSt) : (d.updSeq n f).stg = d.stg := rfl
@[simp] theorem updSeq_mods (d : Device) (n : Table) (f : SeqSt → SeqSt) : (d.updSeq n f).mods = d.mods := rfl
@[simp] theorem updSeq_rings (d : Device) (n : Table) (f : SeqSt → SeqSt) : (d.updSeq n f).rings = d.rings := rfl
@[simp] theorem updSeq_writers (d : Device) (n : Table) (f : SeqSt → SeqSt) : (d.updSeq n f).writers = d.writers := rfl
@[simp] theorem updSeq_nobind (d : Device) (n : Table) (f : SeqSt → SeqSt) : (d.updSeq n f).nobind = d.nobind := rfl
@[simp] theorem updSeq_cal (d : Device) (n : Table) (f : SeqSt → SeqSt) : (d.updSeq n f).cal = d.cal := rfl
@[simp] theorem updSeq_therm (d : Device) (n : Table) (f : SeqSt → SeqSt) : (d.updSeq n f).therm = d.therm := rfl
@[simp] theorem updSeq_hk (d : Device) (n : Table) (f : SeqSt → SeqSt) : (d.updSeq n f).hk = d.hk := rfl
@[simp] theorem updSeq_faults (d : Device) (n : Table) (f : SeqSt → SeqSt) : (d.updSeq n f).faults = d.faults := rfl
@[simp] theorem updSeq_col (d : Device) (n : Table) (f : SeqSt → SeqSt) : (d.updSeq n f).col = d.col := rfl
@[simp] theorem updSeq_memory (d : Device) (n : Table) (f : SeqSt → SeqSt) : (d.updSeq n f).memory = d.memory := rfl
@[simp] theorem updSeq_reload (d : Device) (n : Table) (f : SeqSt → SeqSt) : (d.updSeq n f).reload = d.reload := rfl
@[simp] theorem updSeq_sup (d : Device) (n : Table) (f : SeqSt → SeqSt) : (d.updSeq n f).sup = d.sup := rfl
@[simp] theorem updSeq_pins (d : Device) (n : Table) (f : SeqSt → SeqSt) : (d.updSeq n f).pins = d.pins := rfl
@[simp] theorem updSeq_free (d : Device) (n : Table) (f : SeqSt → SeqSt) : (d.updSeq n f).free = d.free := rfl

@[simp] theorem updRing_rings (d : Device) (n : Ring) (f : RingSt → RingSt) : (d.updRing n f).rings = upd d.rings n f := rfl
@[simp] theorem updRing_start (d : Device) (n : Ring) (f : RingSt → RingSt) : (d.updRing n f).start = d.start := rfl
@[simp] theorem updRing_loader (d : Device) (n : Ring) (f : RingSt → RingSt) : (d.updRing n f).loader = d.loader := rfl
@[simp] theorem updRing_check (d : Device) (n : Ring) (f : RingSt → RingSt) : (d.updRing n f).check = d.check := rfl
@[simp] theorem updRing_button (d : Device) (n : Ring) (f : RingSt → RingSt) : (d.updRing n f).button = d.button := rfl
@[simp] theorem updRing_mode (d : Device) (n : Ring) (f : RingSt → RingSt) : (d.updRing n f).mode = d.mode := rfl
@[simp] theorem updRing_bootp (d : Device) (n : Ring) (f : RingSt → RingSt) : (d.updRing n f).bootp = d.bootp := rfl
@[simp] theorem updRing_arbs (d : Device) (n : Ring) (f : RingSt → RingSt) : (d.updRing n f).arbs = d.arbs := rfl
@[simp] theorem updRing_clk (d : Device) (n : Ring) (f : RingSt → RingSt) : (d.updRing n f).clk = d.clk := rfl
@[simp] theorem updRing_isl (d : Device) (n : Ring) (f : RingSt → RingSt) : (d.updRing n f).isl = d.isl := rfl
@[simp] theorem updRing_cvn (d : Device) (n : Ring) (f : RingSt → RingSt) : (d.updRing n f).cvn = d.cvn := rfl
@[simp] theorem updRing_halt (d : Device) (n : Ring) (f : RingSt → RingSt) : (d.updRing n f).halt = d.halt := rfl
@[simp] theorem updRing_slots (d : Device) (n : Ring) (f : RingSt → RingSt) : (d.updRing n f).slots = d.slots := rfl
@[simp] theorem updRing_quads (d : Device) (n : Ring) (f : RingSt → RingSt) : (d.updRing n f).quads = d.quads := rfl
@[simp] theorem updRing_chans (d : Device) (n : Ring) (f : RingSt → RingSt) : (d.updRing n f).chans = d.chans := rfl
@[simp] theorem updRing_profs (d : Device) (n : Ring) (f : RingSt → RingSt) : (d.updRing n f).profs = d.profs := rfl
@[simp] theorem updRing_paths (d : Device) (n : Ring) (f : RingSt → RingSt) : (d.updRing n f).paths = d.paths := rfl
@[simp] theorem updRing_srcs (d : Device) (n : Ring) (f : RingSt → RingSt) : (d.updRing n f).srcs = d.srcs := rfl
@[simp] theorem updRing_bus (d : Device) (n : Ring) (f : RingSt → RingSt) : (d.updRing n f).bus = d.bus := rfl
@[simp] theorem updRing_stg (d : Device) (n : Ring) (f : RingSt → RingSt) : (d.updRing n f).stg = d.stg := rfl
@[simp] theorem updRing_mods (d : Device) (n : Ring) (f : RingSt → RingSt) : (d.updRing n f).mods = d.mods := rfl
@[simp] theorem updRing_seqs (d : Device) (n : Ring) (f : RingSt → RingSt) : (d.updRing n f).seqs = d.seqs := rfl
@[simp] theorem updRing_writers (d : Device) (n : Ring) (f : RingSt → RingSt) : (d.updRing n f).writers = d.writers := rfl
@[simp] theorem updRing_nobind (d : Device) (n : Ring) (f : RingSt → RingSt) : (d.updRing n f).nobind = d.nobind := rfl
@[simp] theorem updRing_cal (d : Device) (n : Ring) (f : RingSt → RingSt) : (d.updRing n f).cal = d.cal := rfl
@[simp] theorem updRing_therm (d : Device) (n : Ring) (f : RingSt → RingSt) : (d.updRing n f).therm = d.therm := rfl
@[simp] theorem updRing_hk (d : Device) (n : Ring) (f : RingSt → RingSt) : (d.updRing n f).hk = d.hk := rfl
@[simp] theorem updRing_faults (d : Device) (n : Ring) (f : RingSt → RingSt) : (d.updRing n f).faults = d.faults := rfl
@[simp] theorem updRing_col (d : Device) (n : Ring) (f : RingSt → RingSt) : (d.updRing n f).col = d.col := rfl
@[simp] theorem updRing_memory (d : Device) (n : Ring) (f : RingSt → RingSt) : (d.updRing n f).memory = d.memory := rfl
@[simp] theorem updRing_reload (d : Device) (n : Ring) (f : RingSt → RingSt) : (d.updRing n f).reload = d.reload := rfl
@[simp] theorem updRing_sup (d : Device) (n : Ring) (f : RingSt → RingSt) : (d.updRing n f).sup = d.sup := rfl
@[simp] theorem updRing_pins (d : Device) (n : Ring) (f : RingSt → RingSt) : (d.updRing n f).pins = d.pins := rfl
@[simp] theorem updRing_free (d : Device) (n : Ring) (f : RingSt → RingSt) : (d.updRing n f).free = d.free := rfl

@[simp] theorem updTherm_therm (d : Device) (n : Model) (f : ThermSt → ThermSt) : (d.updTherm n f).therm = upd d.therm n f := rfl
@[simp] theorem updTherm_start (d : Device) (n : Model) (f : ThermSt → ThermSt) : (d.updTherm n f).start = d.start := rfl
@[simp] theorem updTherm_loader (d : Device) (n : Model) (f : ThermSt → ThermSt) : (d.updTherm n f).loader = d.loader := rfl
@[simp] theorem updTherm_check (d : Device) (n : Model) (f : ThermSt → ThermSt) : (d.updTherm n f).check = d.check := rfl
@[simp] theorem updTherm_button (d : Device) (n : Model) (f : ThermSt → ThermSt) : (d.updTherm n f).button = d.button := rfl
@[simp] theorem updTherm_mode (d : Device) (n : Model) (f : ThermSt → ThermSt) : (d.updTherm n f).mode = d.mode := rfl
@[simp] theorem updTherm_bootp (d : Device) (n : Model) (f : ThermSt → ThermSt) : (d.updTherm n f).bootp = d.bootp := rfl
@[simp] theorem updTherm_arbs (d : Device) (n : Model) (f : ThermSt → ThermSt) : (d.updTherm n f).arbs = d.arbs := rfl
@[simp] theorem updTherm_clk (d : Device) (n : Model) (f : ThermSt → ThermSt) : (d.updTherm n f).clk = d.clk := rfl
@[simp] theorem updTherm_isl (d : Device) (n : Model) (f : ThermSt → ThermSt) : (d.updTherm n f).isl = d.isl := rfl
@[simp] theorem updTherm_cvn (d : Device) (n : Model) (f : ThermSt → ThermSt) : (d.updTherm n f).cvn = d.cvn := rfl
@[simp] theorem updTherm_halt (d : Device) (n : Model) (f : ThermSt → ThermSt) : (d.updTherm n f).halt = d.halt := rfl
@[simp] theorem updTherm_slots (d : Device) (n : Model) (f : ThermSt → ThermSt) : (d.updTherm n f).slots = d.slots := rfl
@[simp] theorem updTherm_quads (d : Device) (n : Model) (f : ThermSt → ThermSt) : (d.updTherm n f).quads = d.quads := rfl
@[simp] theorem updTherm_chans (d : Device) (n : Model) (f : ThermSt → ThermSt) : (d.updTherm n f).chans = d.chans := rfl
@[simp] theorem updTherm_profs (d : Device) (n : Model) (f : ThermSt → ThermSt) : (d.updTherm n f).profs = d.profs := rfl
@[simp] theorem updTherm_paths (d : Device) (n : Model) (f : ThermSt → ThermSt) : (d.updTherm n f).paths = d.paths := rfl
@[simp] theorem updTherm_srcs (d : Device) (n : Model) (f : ThermSt → ThermSt) : (d.updTherm n f).srcs = d.srcs := rfl
@[simp] theorem updTherm_bus (d : Device) (n : Model) (f : ThermSt → ThermSt) : (d.updTherm n f).bus = d.bus := rfl
@[simp] theorem updTherm_stg (d : Device) (n : Model) (f : ThermSt → ThermSt) : (d.updTherm n f).stg = d.stg := rfl
@[simp] theorem updTherm_mods (d : Device) (n : Model) (f : ThermSt → ThermSt) : (d.updTherm n f).mods = d.mods := rfl
@[simp] theorem updTherm_seqs (d : Device) (n : Model) (f : ThermSt → ThermSt) : (d.updTherm n f).seqs = d.seqs := rfl
@[simp] theorem updTherm_rings (d : Device) (n : Model) (f : ThermSt → ThermSt) : (d.updTherm n f).rings = d.rings := rfl
@[simp] theorem updTherm_writers (d : Device) (n : Model) (f : ThermSt → ThermSt) : (d.updTherm n f).writers = d.writers := rfl
@[simp] theorem updTherm_nobind (d : Device) (n : Model) (f : ThermSt → ThermSt) : (d.updTherm n f).nobind = d.nobind := rfl
@[simp] theorem updTherm_cal (d : Device) (n : Model) (f : ThermSt → ThermSt) : (d.updTherm n f).cal = d.cal := rfl
@[simp] theorem updTherm_hk (d : Device) (n : Model) (f : ThermSt → ThermSt) : (d.updTherm n f).hk = d.hk := rfl
@[simp] theorem updTherm_faults (d : Device) (n : Model) (f : ThermSt → ThermSt) : (d.updTherm n f).faults = d.faults := rfl
@[simp] theorem updTherm_col (d : Device) (n : Model) (f : ThermSt → ThermSt) : (d.updTherm n f).col = d.col := rfl
@[simp] theorem updTherm_memory (d : Device) (n : Model) (f : ThermSt → ThermSt) : (d.updTherm n f).memory = d.memory := rfl
@[simp] theorem updTherm_reload (d : Device) (n : Model) (f : ThermSt → ThermSt) : (d.updTherm n f).reload = d.reload := rfl
@[simp] theorem updTherm_sup (d : Device) (n : Model) (f : ThermSt → ThermSt) : (d.updTherm n f).sup = d.sup := rfl
@[simp] theorem updTherm_pins (d : Device) (n : Model) (f : ThermSt → ThermSt) : (d.updTherm n f).pins = d.pins := rfl
@[simp] theorem updTherm_free (d : Device) (n : Model) (f : ThermSt → ThermSt) : (d.updTherm n f).free = d.free := rfl

@[simp] theorem updFault_faults (d : Device) (n : Fsrc) (f : FaultSt → FaultSt) : (d.updFault n f).faults = upd d.faults n f := rfl
@[simp] theorem updFault_start (d : Device) (n : Fsrc) (f : FaultSt → FaultSt) : (d.updFault n f).start = d.start := rfl
@[simp] theorem updFault_loader (d : Device) (n : Fsrc) (f : FaultSt → FaultSt) : (d.updFault n f).loader = d.loader := rfl
@[simp] theorem updFault_check (d : Device) (n : Fsrc) (f : FaultSt → FaultSt) : (d.updFault n f).check = d.check := rfl
@[simp] theorem updFault_button (d : Device) (n : Fsrc) (f : FaultSt → FaultSt) : (d.updFault n f).button = d.button := rfl
@[simp] theorem updFault_mode (d : Device) (n : Fsrc) (f : FaultSt → FaultSt) : (d.updFault n f).mode = d.mode := rfl
@[simp] theorem updFault_bootp (d : Device) (n : Fsrc) (f : FaultSt → FaultSt) : (d.updFault n f).bootp = d.bootp := rfl
@[simp] theorem updFault_arbs (d : Device) (n : Fsrc) (f : FaultSt → FaultSt) : (d.updFault n f).arbs = d.arbs := rfl
@[simp] theorem updFault_clk (d : Device) (n : Fsrc) (f : FaultSt → FaultSt) : (d.updFault n f).clk = d.clk := rfl
@[simp] theorem updFault_isl (d : Device) (n : Fsrc) (f : FaultSt → FaultSt) : (d.updFault n f).isl = d.isl := rfl
@[simp] theorem updFault_cvn (d : Device) (n : Fsrc) (f : FaultSt → FaultSt) : (d.updFault n f).cvn = d.cvn := rfl
@[simp] theorem updFault_halt (d : Device) (n : Fsrc) (f : FaultSt → FaultSt) : (d.updFault n f).halt = d.halt := rfl
@[simp] theorem updFault_slots (d : Device) (n : Fsrc) (f : FaultSt → FaultSt) : (d.updFault n f).slots = d.slots := rfl
@[simp] theorem updFault_quads (d : Device) (n : Fsrc) (f : FaultSt → FaultSt) : (d.updFault n f).quads = d.quads := rfl
@[simp] theorem updFault_chans (d : Device) (n : Fsrc) (f : FaultSt → FaultSt) : (d.updFault n f).chans = d.chans := rfl
@[simp] theorem updFault_profs (d : Device) (n : Fsrc) (f : FaultSt → FaultSt) : (d.updFault n f).profs = d.profs := rfl
@[simp] theorem updFault_paths (d : Device) (n : Fsrc) (f : FaultSt → FaultSt) : (d.updFault n f).paths = d.paths := rfl
@[simp] theorem updFault_srcs (d : Device) (n : Fsrc) (f : FaultSt → FaultSt) : (d.updFault n f).srcs = d.srcs := rfl
@[simp] theorem updFault_bus (d : Device) (n : Fsrc) (f : FaultSt → FaultSt) : (d.updFault n f).bus = d.bus := rfl
@[simp] theorem updFault_stg (d : Device) (n : Fsrc) (f : FaultSt → FaultSt) : (d.updFault n f).stg = d.stg := rfl
@[simp] theorem updFault_mods (d : Device) (n : Fsrc) (f : FaultSt → FaultSt) : (d.updFault n f).mods = d.mods := rfl
@[simp] theorem updFault_seqs (d : Device) (n : Fsrc) (f : FaultSt → FaultSt) : (d.updFault n f).seqs = d.seqs := rfl
@[simp] theorem updFault_rings (d : Device) (n : Fsrc) (f : FaultSt → FaultSt) : (d.updFault n f).rings = d.rings := rfl
@[simp] theorem updFault_writers (d : Device) (n : Fsrc) (f : FaultSt → FaultSt) : (d.updFault n f).writers = d.writers := rfl
@[simp] theorem updFault_nobind (d : Device) (n : Fsrc) (f : FaultSt → FaultSt) : (d.updFault n f).nobind = d.nobind := rfl
@[simp] theorem updFault_cal (d : Device) (n : Fsrc) (f : FaultSt → FaultSt) : (d.updFault n f).cal = d.cal := rfl
@[simp] theorem updFault_therm (d : Device) (n : Fsrc) (f : FaultSt → FaultSt) : (d.updFault n f).therm = d.therm := rfl
@[simp] theorem updFault_hk (d : Device) (n : Fsrc) (f : FaultSt → FaultSt) : (d.updFault n f).hk = d.hk := rfl
@[simp] theorem updFault_col (d : Device) (n : Fsrc) (f : FaultSt → FaultSt) : (d.updFault n f).col = d.col := rfl
@[simp] theorem updFault_memory (d : Device) (n : Fsrc) (f : FaultSt → FaultSt) : (d.updFault n f).memory = d.memory := rfl
@[simp] theorem updFault_reload (d : Device) (n : Fsrc) (f : FaultSt → FaultSt) : (d.updFault n f).reload = d.reload := rfl
@[simp] theorem updFault_sup (d : Device) (n : Fsrc) (f : FaultSt → FaultSt) : (d.updFault n f).sup = d.sup := rfl
@[simp] theorem updFault_pins (d : Device) (n : Fsrc) (f : FaultSt → FaultSt) : (d.updFault n f).pins = d.pins := rfl
@[simp] theorem updFault_free (d : Device) (n : Fsrc) (f : FaultSt → FaultSt) : (d.updFault n f).free = d.free := rfl

@[simp] theorem updArb_arbs (d : Device) (n : Fin 99) (f : Arbiter → Arbiter) : (d.updArb n f).arbs = upd d.arbs n f := rfl
@[simp] theorem updArb_start (d : Device) (n : Fin 99) (f : Arbiter → Arbiter) : (d.updArb n f).start = d.start := rfl
@[simp] theorem updArb_loader (d : Device) (n : Fin 99) (f : Arbiter → Arbiter) : (d.updArb n f).loader = d.loader := rfl
@[simp] theorem updArb_check (d : Device) (n : Fin 99) (f : Arbiter → Arbiter) : (d.updArb n f).check = d.check := rfl
@[simp] theorem updArb_button (d : Device) (n : Fin 99) (f : Arbiter → Arbiter) : (d.updArb n f).button = d.button := rfl
@[simp] theorem updArb_mode (d : Device) (n : Fin 99) (f : Arbiter → Arbiter) : (d.updArb n f).mode = d.mode := rfl
@[simp] theorem updArb_bootp (d : Device) (n : Fin 99) (f : Arbiter → Arbiter) : (d.updArb n f).bootp = d.bootp := rfl
@[simp] theorem updArb_clk (d : Device) (n : Fin 99) (f : Arbiter → Arbiter) : (d.updArb n f).clk = d.clk := rfl
@[simp] theorem updArb_isl (d : Device) (n : Fin 99) (f : Arbiter → Arbiter) : (d.updArb n f).isl = d.isl := rfl
@[simp] theorem updArb_cvn (d : Device) (n : Fin 99) (f : Arbiter → Arbiter) : (d.updArb n f).cvn = d.cvn := rfl
@[simp] theorem updArb_halt (d : Device) (n : Fin 99) (f : Arbiter → Arbiter) : (d.updArb n f).halt = d.halt := rfl
@[simp] theorem updArb_slots (d : Device) (n : Fin 99) (f : Arbiter → Arbiter) : (d.updArb n f).slots = d.slots := rfl
@[simp] theorem updArb_quads (d : Device) (n : Fin 99) (f : Arbiter → Arbiter) : (d.updArb n f).quads = d.quads := rfl
@[simp] theorem updArb_chans (d : Device) (n : Fin 99) (f : Arbiter → Arbiter) : (d.updArb n f).chans = d.chans := rfl
@[simp] theorem updArb_profs (d : Device) (n : Fin 99) (f : Arbiter → Arbiter) : (d.updArb n f).profs = d.profs := rfl
@[simp] theorem updArb_paths (d : Device) (n : Fin 99) (f : Arbiter → Arbiter) : (d.updArb n f).paths = d.paths := rfl
@[simp] theorem updArb_srcs (d : Device) (n : Fin 99) (f : Arbiter → Arbiter) : (d.updArb n f).srcs = d.srcs := rfl
@[simp] theorem updArb_bus (d : Device) (n : Fin 99) (f : Arbiter → Arbiter) : (d.updArb n f).bus = d.bus := rfl
@[simp] theorem updArb_stg (d : Device) (n : Fin 99) (f : Arbiter → Arbiter) : (d.updArb n f).stg = d.stg := rfl
@[simp] theorem updArb_mods (d : Device) (n : Fin 99) (f : Arbiter → Arbiter) : (d.updArb n f).mods = d.mods := rfl
@[simp] theorem updArb_seqs (d : Device) (n : Fin 99) (f : Arbiter → Arbiter) : (d.updArb n f).seqs = d.seqs := rfl
@[simp] theorem updArb_rings (d : Device) (n : Fin 99) (f : Arbiter → Arbiter) : (d.updArb n f).rings = d.rings := rfl
@[simp] theorem updArb_writers (d : Device) (n : Fin 99) (f : Arbiter → Arbiter) : (d.updArb n f).writers = d.writers := rfl
@[simp] theorem updArb_nobind (d : Device) (n : Fin 99) (f : Arbiter → Arbiter) : (d.updArb n f).nobind = d.nobind := rfl
@[simp] theorem updArb_cal (d : Device) (n : Fin 99) (f : Arbiter → Arbiter) : (d.updArb n f).cal = d.cal := rfl
@[simp] theorem updArb_therm (d : Device) (n : Fin 99) (f : Arbiter → Arbiter) : (d.updArb n f).therm = d.therm := rfl
@[simp] theorem updArb_hk (d : Device) (n : Fin 99) (f : Arbiter → Arbiter) : (d.updArb n f).hk = d.hk := rfl
@[simp] theorem updArb_faults (d : Device) (n : Fin 99) (f : Arbiter → Arbiter) : (d.updArb n f).faults = d.faults := rfl
@[simp] theorem updArb_col (d : Device) (n : Fin 99) (f : Arbiter → Arbiter) : (d.updArb n f).col = d.col := rfl
@[simp] theorem updArb_memory (d : Device) (n : Fin 99) (f : Arbiter → Arbiter) : (d.updArb n f).memory = d.memory := rfl
@[simp] theorem updArb_reload (d : Device) (n : Fin 99) (f : Arbiter → Arbiter) : (d.updArb n f).reload = d.reload := rfl
@[simp] theorem updArb_sup (d : Device) (n : Fin 99) (f : Arbiter → Arbiter) : (d.updArb n f).sup = d.sup := rfl
@[simp] theorem updArb_pins (d : Device) (n : Fin 99) (f : Arbiter → Arbiter) : (d.updArb n f).pins = d.pins := rfl
@[simp] theorem updArb_free (d : Device) (n : Fin 99) (f : Arbiter → Arbiter) : (d.updArb n f).free = d.free := rfl

@[simp] theorem updCol_col (d : Device) (f : Collector → Collector) : (d.updCol f).col = f d.col := rfl
@[simp] theorem updCol_start (d : Device) (f : Collector → Collector) : (d.updCol f).start = d.start := rfl
@[simp] theorem updCol_loader (d : Device) (f : Collector → Collector) : (d.updCol f).loader = d.loader := rfl
@[simp] theorem updCol_check (d : Device) (f : Collector → Collector) : (d.updCol f).check = d.check := rfl
@[simp] theorem updCol_button (d : Device) (f : Collector → Collector) : (d.updCol f).button = d.button := rfl
@[simp] theorem updCol_mode (d : Device) (f : Collector → Collector) : (d.updCol f).mode = d.mode := rfl
@[simp] theorem updCol_bootp (d : Device) (f : Collector → Collector) : (d.updCol f).bootp = d.bootp := rfl
@[simp] theorem updCol_arbs (d : Device) (f : Collector → Collector) : (d.updCol f).arbs = d.arbs := rfl
@[simp] theorem updCol_clk (d : Device) (f : Collector → Collector) : (d.updCol f).clk = d.clk := rfl
@[simp] theorem updCol_isl (d : Device) (f : Collector → Collector) : (d.updCol f).isl = d.isl := rfl
@[simp] theorem updCol_cvn (d : Device) (f : Collector → Collector) : (d.updCol f).cvn = d.cvn := rfl
@[simp] theorem updCol_halt (d : Device) (f : Collector → Collector) : (d.updCol f).halt = d.halt := rfl
@[simp] theorem updCol_slots (d : Device) (f : Collector → Collector) : (d.updCol f).slots = d.slots := rfl
@[simp] theorem updCol_quads (d : Device) (f : Collector → Collector) : (d.updCol f).quads = d.quads := rfl
@[simp] theorem updCol_chans (d : Device) (f : Collector → Collector) : (d.updCol f).chans = d.chans := rfl
@[simp] theorem updCol_profs (d : Device) (f : Collector → Collector) : (d.updCol f).profs = d.profs := rfl
@[simp] theorem updCol_paths (d : Device) (f : Collector → Collector) : (d.updCol f).paths = d.paths := rfl
@[simp] theorem updCol_srcs (d : Device) (f : Collector → Collector) : (d.updCol f).srcs = d.srcs := rfl
@[simp] theorem updCol_bus (d : Device) (f : Collector → Collector) : (d.updCol f).bus = d.bus := rfl
@[simp] theorem updCol_stg (d : Device) (f : Collector → Collector) : (d.updCol f).stg = d.stg := rfl
@[simp] theorem updCol_mods (d : Device) (f : Collector → Collector) : (d.updCol f).mods = d.mods := rfl
@[simp] theorem updCol_seqs (d : Device) (f : Collector → Collector) : (d.updCol f).seqs = d.seqs := rfl
@[simp] theorem updCol_rings (d : Device) (f : Collector → Collector) : (d.updCol f).rings = d.rings := rfl
@[simp] theorem updCol_writers (d : Device) (f : Collector → Collector) : (d.updCol f).writers = d.writers := rfl
@[simp] theorem updCol_nobind (d : Device) (f : Collector → Collector) : (d.updCol f).nobind = d.nobind := rfl
@[simp] theorem updCol_cal (d : Device) (f : Collector → Collector) : (d.updCol f).cal = d.cal := rfl
@[simp] theorem updCol_therm (d : Device) (f : Collector → Collector) : (d.updCol f).therm = d.therm := rfl
@[simp] theorem updCol_hk (d : Device) (f : Collector → Collector) : (d.updCol f).hk = d.hk := rfl
@[simp] theorem updCol_faults (d : Device) (f : Collector → Collector) : (d.updCol f).faults = d.faults := rfl
@[simp] theorem updCol_memory (d : Device) (f : Collector → Collector) : (d.updCol f).memory = d.memory := rfl
@[simp] theorem updCol_reload (d : Device) (f : Collector → Collector) : (d.updCol f).reload = d.reload := rfl
@[simp] theorem updCol_sup (d : Device) (f : Collector → Collector) : (d.updCol f).sup = d.sup := rfl
@[simp] theorem updCol_pins (d : Device) (f : Collector → Collector) : (d.updCol f).pins = d.pins := rfl
@[simp] theorem updCol_free (d : Device) (f : Collector → Collector) : (d.updCol f).free = d.free := rfl

@[simp] theorem updSup_sup (d : Device) (f : SupSt → SupSt) : (d.updSup f).sup = f d.sup := rfl
@[simp] theorem updSup_start (d : Device) (f : SupSt → SupSt) : (d.updSup f).start = d.start := rfl
@[simp] theorem updSup_loader (d : Device) (f : SupSt → SupSt) : (d.updSup f).loader = d.loader := rfl
@[simp] theorem updSup_check (d : Device) (f : SupSt → SupSt) : (d.updSup f).check = d.check := rfl
@[simp] theorem updSup_button (d : Device) (f : SupSt → SupSt) : (d.updSup f).button = d.button := rfl
@[simp] theorem updSup_mode (d : Device) (f : SupSt → SupSt) : (d.updSup f).mode = d.mode := rfl
@[simp] theorem updSup_bootp (d : Device) (f : SupSt → SupSt) : (d.updSup f).bootp = d.bootp := rfl
@[simp] theorem updSup_arbs (d : Device) (f : SupSt → SupSt) : (d.updSup f).arbs = d.arbs := rfl
@[simp] theorem updSup_clk (d : Device) (f : SupSt → SupSt) : (d.updSup f).clk = d.clk := rfl
@[simp] theorem updSup_isl (d : Device) (f : SupSt → SupSt) : (d.updSup f).isl = d.isl := rfl
@[simp] theorem updSup_cvn (d : Device) (f : SupSt → SupSt) : (d.updSup f).cvn = d.cvn := rfl
@[simp] theorem updSup_halt (d : Device) (f : SupSt → SupSt) : (d.updSup f).halt = d.halt := rfl
@[simp] theorem updSup_slots (d : Device) (f : SupSt → SupSt) : (d.updSup f).slots = d.slots := rfl
@[simp] theorem updSup_quads (d : Device) (f : SupSt → SupSt) : (d.updSup f).quads = d.quads := rfl
@[simp] theorem updSup_chans (d : Device) (f : SupSt → SupSt) : (d.updSup f).chans = d.chans := rfl
@[simp] theorem updSup_profs (d : Device) (f : SupSt → SupSt) : (d.updSup f).profs = d.profs := rfl
@[simp] theorem updSup_paths (d : Device) (f : SupSt → SupSt) : (d.updSup f).paths = d.paths := rfl
@[simp] theorem updSup_srcs (d : Device) (f : SupSt → SupSt) : (d.updSup f).srcs = d.srcs := rfl
@[simp] theorem updSup_bus (d : Device) (f : SupSt → SupSt) : (d.updSup f).bus = d.bus := rfl
@[simp] theorem updSup_stg (d : Device) (f : SupSt → SupSt) : (d.updSup f).stg = d.stg := rfl
@[simp] theorem updSup_mods (d : Device) (f : SupSt → SupSt) : (d.updSup f).mods = d.mods := rfl
@[simp] theorem updSup_seqs (d : Device) (f : SupSt → SupSt) : (d.updSup f).seqs = d.seqs := rfl
@[simp] theorem updSup_rings (d : Device) (f : SupSt → SupSt) : (d.updSup f).rings = d.rings := rfl
@[simp] theorem updSup_writers (d : Device) (f : SupSt → SupSt) : (d.updSup f).writers = d.writers := rfl
@[simp] theorem updSup_nobind (d : Device) (f : SupSt → SupSt) : (d.updSup f).nobind = d.nobind := rfl
@[simp] theorem updSup_cal (d : Device) (f : SupSt → SupSt) : (d.updSup f).cal = d.cal := rfl
@[simp] theorem updSup_therm (d : Device) (f : SupSt → SupSt) : (d.updSup f).therm = d.therm := rfl
@[simp] theorem updSup_hk (d : Device) (f : SupSt → SupSt) : (d.updSup f).hk = d.hk := rfl
@[simp] theorem updSup_faults (d : Device) (f : SupSt → SupSt) : (d.updSup f).faults = d.faults := rfl
@[simp] theorem updSup_col (d : Device) (f : SupSt → SupSt) : (d.updSup f).col = d.col := rfl
@[simp] theorem updSup_memory (d : Device) (f : SupSt → SupSt) : (d.updSup f).memory = d.memory := rfl
@[simp] theorem updSup_reload (d : Device) (f : SupSt → SupSt) : (d.updSup f).reload = d.reload := rfl
@[simp] theorem updSup_pins (d : Device) (f : SupSt → SupSt) : (d.updSup f).pins = d.pins := rfl
@[simp] theorem updSup_free (d : Device) (f : SupSt → SupSt) : (d.updSup f).free = d.free := rfl

@[simp] theorem updMem_memory (d : Device) (f : MemSt → MemSt) : (d.updMem f).memory = f d.memory := rfl
@[simp] theorem updMem_start (d : Device) (f : MemSt → MemSt) : (d.updMem f).start = d.start := rfl
@[simp] theorem updMem_loader (d : Device) (f : MemSt → MemSt) : (d.updMem f).loader = d.loader := rfl
@[simp] theorem updMem_check (d : Device) (f : MemSt → MemSt) : (d.updMem f).check = d.check := rfl
@[simp] theorem updMem_button (d : Device) (f : MemSt → MemSt) : (d.updMem f).button = d.button := rfl
@[simp] theorem updMem_mode (d : Device) (f : MemSt → MemSt) : (d.updMem f).mode = d.mode := rfl
@[simp] theorem updMem_bootp (d : Device) (f : MemSt → MemSt) : (d.updMem f).bootp = d.bootp := rfl
@[simp] theorem updMem_arbs (d : Device) (f : MemSt → MemSt) : (d.updMem f).arbs = d.arbs := rfl
@[simp] theorem updMem_clk (d : Device) (f : MemSt → MemSt) : (d.updMem f).clk = d.clk := rfl
@[simp] theorem updMem_isl (d : Device) (f : MemSt → MemSt) : (d.updMem f).isl = d.isl := rfl
@[simp] theorem updMem_cvn (d : Device) (f : MemSt → MemSt) : (d.updMem f).cvn = d.cvn := rfl
@[simp] theorem updMem_halt (d : Device) (f : MemSt → MemSt) : (d.updMem f).halt = d.halt := rfl
@[simp] theorem updMem_slots (d : Device) (f : MemSt → MemSt) : (d.updMem f).slots = d.slots := rfl
@[simp] theorem updMem_quads (d : Device) (f : MemSt → MemSt) : (d.updMem f).quads = d.quads := rfl
@[simp] theorem updMem_chans (d : Device) (f : MemSt → MemSt) : (d.updMem f).chans = d.chans := rfl
@[simp] theorem updMem_profs (d : Device) (f : MemSt → MemSt) : (d.updMem f).profs = d.profs := rfl
@[simp] theorem updMem_paths (d : Device) (f : MemSt → MemSt) : (d.updMem f).paths = d.paths := rfl
@[simp] theorem updMem_srcs (d : Device) (f : MemSt → MemSt) : (d.updMem f).srcs = d.srcs := rfl
@[simp] theorem updMem_bus (d : Device) (f : MemSt → MemSt) : (d.updMem f).bus = d.bus := rfl
@[simp] theorem updMem_stg (d : Device) (f : MemSt → MemSt) : (d.updMem f).stg = d.stg := rfl
@[simp] theorem updMem_mods (d : Device) (f : MemSt → MemSt) : (d.updMem f).mods = d.mods := rfl
@[simp] theorem updMem_seqs (d : Device) (f : MemSt → MemSt) : (d.updMem f).seqs = d.seqs := rfl
@[simp] theorem updMem_rings (d : Device) (f : MemSt → MemSt) : (d.updMem f).rings = d.rings := rfl
@[simp] theorem updMem_writers (d : Device) (f : MemSt → MemSt) : (d.updMem f).writers = d.writers := rfl
@[simp] theorem updMem_nobind (d : Device) (f : MemSt → MemSt) : (d.updMem f).nobind = d.nobind := rfl
@[simp] theorem updMem_cal (d : Device) (f : MemSt → MemSt) : (d.updMem f).cal = d.cal := rfl
@[simp] theorem updMem_therm (d : Device) (f : MemSt → MemSt) : (d.updMem f).therm = d.therm := rfl
@[simp] theorem updMem_hk (d : Device) (f : MemSt → MemSt) : (d.updMem f).hk = d.hk := rfl
@[simp] theorem updMem_faults (d : Device) (f : MemSt → MemSt) : (d.updMem f).faults = d.faults := rfl
@[simp] theorem updMem_col (d : Device) (f : MemSt → MemSt) : (d.updMem f).col = d.col := rfl
@[simp] theorem updMem_reload (d : Device) (f : MemSt → MemSt) : (d.updMem f).reload = d.reload := rfl
@[simp] theorem updMem_sup (d : Device) (f : MemSt → MemSt) : (d.updMem f).sup = d.sup := rfl
@[simp] theorem updMem_pins (d : Device) (f : MemSt → MemSt) : (d.updMem f).pins = d.pins := rfl
@[simp] theorem updMem_free (d : Device) (f : MemSt → MemSt) : (d.updMem f).free = d.free := rfl

@[simp] theorem updIsl_isl (d : Device) (f : Islands → Islands) : (d.updIsl f).isl = f d.isl := rfl
@[simp] theorem updIsl_start (d : Device) (f : Islands → Islands) : (d.updIsl f).start = d.start := rfl
@[simp] theorem updIsl_loader (d : Device) (f : Islands → Islands) : (d.updIsl f).loader = d.loader := rfl
@[simp] theorem updIsl_check (d : Device) (f : Islands → Islands) : (d.updIsl f).check = d.check := rfl
@[simp] theorem updIsl_button (d : Device) (f : Islands → Islands) : (d.updIsl f).button = d.button := rfl
@[simp] theorem updIsl_mode (d : Device) (f : Islands → Islands) : (d.updIsl f).mode = d.mode := rfl
@[simp] theorem updIsl_bootp (d : Device) (f : Islands → Islands) : (d.updIsl f).bootp = d.bootp := rfl
@[simp] theorem updIsl_arbs (d : Device) (f : Islands → Islands) : (d.updIsl f).arbs = d.arbs := rfl
@[simp] theorem updIsl_clk (d : Device) (f : Islands → Islands) : (d.updIsl f).clk = d.clk := rfl
@[simp] theorem updIsl_cvn (d : Device) (f : Islands → Islands) : (d.updIsl f).cvn = d.cvn := rfl
@[simp] theorem updIsl_halt (d : Device) (f : Islands → Islands) : (d.updIsl f).halt = d.halt := rfl
@[simp] theorem updIsl_slots (d : Device) (f : Islands → Islands) : (d.updIsl f).slots = d.slots := rfl
@[simp] theorem updIsl_quads (d : Device) (f : Islands → Islands) : (d.updIsl f).quads = d.quads := rfl
@[simp] theorem updIsl_chans (d : Device) (f : Islands → Islands) : (d.updIsl f).chans = d.chans := rfl
@[simp] theorem updIsl_profs (d : Device) (f : Islands → Islands) : (d.updIsl f).profs = d.profs := rfl
@[simp] theorem updIsl_paths (d : Device) (f : Islands → Islands) : (d.updIsl f).paths = d.paths := rfl
@[simp] theorem updIsl_srcs (d : Device) (f : Islands → Islands) : (d.updIsl f).srcs = d.srcs := rfl
@[simp] theorem updIsl_bus (d : Device) (f : Islands → Islands) : (d.updIsl f).bus = d.bus := rfl
@[simp] theorem updIsl_stg (d : Device) (f : Islands → Islands) : (d.updIsl f).stg = d.stg := rfl
@[simp] theorem updIsl_mods (d : Device) (f : Islands → Islands) : (d.updIsl f).mods = d.mods := rfl
@[simp] theorem updIsl_seqs (d : Device) (f : Islands → Islands) : (d.updIsl f).seqs = d.seqs := rfl
@[simp] theorem updIsl_rings (d : Device) (f : Islands → Islands) : (d.updIsl f).rings = d.rings := rfl
@[simp] theorem updIsl_writers (d : Device) (f : Islands → Islands) : (d.updIsl f).writers = d.writers := rfl
@[simp] theorem updIsl_nobind (d : Device) (f : Islands → Islands) : (d.updIsl f).nobind = d.nobind := rfl
@[simp] theorem updIsl_cal (d : Device) (f : Islands → Islands) : (d.updIsl f).cal = d.cal := rfl
@[simp] theorem updIsl_therm (d : Device) (f : Islands → Islands) : (d.updIsl f).therm = d.therm := rfl
@[simp] theorem updIsl_hk (d : Device) (f : Islands → Islands) : (d.updIsl f).hk = d.hk := rfl
@[simp] theorem updIsl_faults (d : Device) (f : Islands → Islands) : (d.updIsl f).faults = d.faults := rfl
@[simp] theorem updIsl_col (d : Device) (f : Islands → Islands) : (d.updIsl f).col = d.col := rfl
@[simp] theorem updIsl_memory (d : Device) (f : Islands → Islands) : (d.updIsl f).memory = d.memory := rfl
@[simp] theorem updIsl_reload (d : Device) (f : Islands → Islands) : (d.updIsl f).reload = d.reload := rfl
@[simp] theorem updIsl_sup (d : Device) (f : Islands → Islands) : (d.updIsl f).sup = d.sup := rfl
@[simp] theorem updIsl_pins (d : Device) (f : Islands → Islands) : (d.updIsl f).pins = d.pins := rfl
@[simp] theorem updIsl_free (d : Device) (f : Islands → Islands) : (d.updIsl f).free = d.free := rfl

@[simp] theorem updCvn_cvn (d : Device) (f : Caravan → Caravan) : (d.updCvn f).cvn = f d.cvn := rfl
@[simp] theorem updCvn_start (d : Device) (f : Caravan → Caravan) : (d.updCvn f).start = d.start := rfl
@[simp] theorem updCvn_loader (d : Device) (f : Caravan → Caravan) : (d.updCvn f).loader = d.loader := rfl
@[simp] theorem updCvn_check (d : Device) (f : Caravan → Caravan) : (d.updCvn f).check = d.check := rfl
@[simp] theorem updCvn_button (d : Device) (f : Caravan → Caravan) : (d.updCvn f).button = d.button := rfl
@[simp] theorem updCvn_mode (d : Device) (f : Caravan → Caravan) : (d.updCvn f).mode = d.mode := rfl
@[simp] theorem updCvn_bootp (d : Device) (f : Caravan → Caravan) : (d.updCvn f).bootp = d.bootp := rfl
@[simp] theorem updCvn_arbs (d : Device) (f : Caravan → Caravan) : (d.updCvn f).arbs = d.arbs := rfl
@[simp] theorem updCvn_clk (d : Device) (f : Caravan → Caravan) : (d.updCvn f).clk = d.clk := rfl
@[simp] theorem updCvn_isl (d : Device) (f : Caravan → Caravan) : (d.updCvn f).isl = d.isl := rfl
@[simp] theorem updCvn_halt (d : Device) (f : Caravan → Caravan) : (d.updCvn f).halt = d.halt := rfl
@[simp] theorem updCvn_slots (d : Device) (f : Caravan → Caravan) : (d.updCvn f).slots = d.slots := rfl
@[simp] theorem updCvn_quads (d : Device) (f : Caravan → Caravan) : (d.updCvn f).quads = d.quads := rfl
@[simp] theorem updCvn_chans (d : Device) (f : Caravan → Caravan) : (d.updCvn f).chans = d.chans := rfl
@[simp] theorem updCvn_profs (d : Device) (f : Caravan → Caravan) : (d.updCvn f).profs = d.profs := rfl
@[simp] theorem updCvn_paths (d : Device) (f : Caravan → Caravan) : (d.updCvn f).paths = d.paths := rfl
@[simp] theorem updCvn_srcs (d : Device) (f : Caravan → Caravan) : (d.updCvn f).srcs = d.srcs := rfl
@[simp] theorem updCvn_bus (d : Device) (f : Caravan → Caravan) : (d.updCvn f).bus = d.bus := rfl
@[simp] theorem updCvn_stg (d : Device) (f : Caravan → Caravan) : (d.updCvn f).stg = d.stg := rfl
@[simp] theorem updCvn_mods (d : Device) (f : Caravan → Caravan) : (d.updCvn f).mods = d.mods := rfl
@[simp] theorem updCvn_seqs (d : Device) (f : Caravan → Caravan) : (d.updCvn f).seqs = d.seqs := rfl
@[simp] theorem updCvn_rings (d : Device) (f : Caravan → Caravan) : (d.updCvn f).rings = d.rings := rfl
@[simp] theorem updCvn_writers (d : Device) (f : Caravan → Caravan) : (d.updCvn f).writers = d.writers := rfl
@[simp] theorem updCvn_nobind (d : Device) (f : Caravan → Caravan) : (d.updCvn f).nobind = d.nobind := rfl
@[simp] theorem updCvn_cal (d : Device) (f : Caravan → Caravan) : (d.updCvn f).cal = d.cal := rfl
@[simp] theorem updCvn_therm (d : Device) (f : Caravan → Caravan) : (d.updCvn f).therm = d.therm := rfl
@[simp] theorem updCvn_hk (d : Device) (f : Caravan → Caravan) : (d.updCvn f).hk = d.hk := rfl
@[simp] theorem updCvn_faults (d : Device) (f : Caravan → Caravan) : (d.updCvn f).faults = d.faults := rfl
@[simp] theorem updCvn_col (d : Device) (f : Caravan → Caravan) : (d.updCvn f).col = d.col := rfl
@[simp] theorem updCvn_memory (d : Device) (f : Caravan → Caravan) : (d.updCvn f).memory = d.memory := rfl
@[simp] theorem updCvn_reload (d : Device) (f : Caravan → Caravan) : (d.updCvn f).reload = d.reload := rfl
@[simp] theorem updCvn_sup (d : Device) (f : Caravan → Caravan) : (d.updCvn f).sup = d.sup := rfl
@[simp] theorem updCvn_pins (d : Device) (f : Caravan → Caravan) : (d.updCvn f).pins = d.pins := rfl
@[simp] theorem updCvn_free (d : Device) (f : Caravan → Caravan) : (d.updCvn f).free = d.free := rfl

@[simp] theorem updHalt_halt (d : Device) (f : Halts → Halts) : (d.updHalt f).halt = f d.halt := rfl
@[simp] theorem updHalt_start (d : Device) (f : Halts → Halts) : (d.updHalt f).start = d.start := rfl
@[simp] theorem updHalt_loader (d : Device) (f : Halts → Halts) : (d.updHalt f).loader = d.loader := rfl
@[simp] theorem updHalt_check (d : Device) (f : Halts → Halts) : (d.updHalt f).check = d.check := rfl
@[simp] theorem updHalt_button (d : Device) (f : Halts → Halts) : (d.updHalt f).button = d.button := rfl
@[simp] theorem updHalt_mode (d : Device) (f : Halts → Halts) : (d.updHalt f).mode = d.mode := rfl
@[simp] theorem updHalt_bootp (d : Device) (f : Halts → Halts) : (d.updHalt f).bootp = d.bootp := rfl
@[simp] theorem updHalt_arbs (d : Device) (f : Halts → Halts) : (d.updHalt f).arbs = d.arbs := rfl
@[simp] theorem updHalt_clk (d : Device) (f : Halts → Halts) : (d.updHalt f).clk = d.clk := rfl
@[simp] theorem updHalt_isl (d : Device) (f : Halts → Halts) : (d.updHalt f).isl = d.isl := rfl
@[simp] theorem updHalt_cvn (d : Device) (f : Halts → Halts) : (d.updHalt f).cvn = d.cvn := rfl
@[simp] theorem updHalt_slots (d : Device) (f : Halts → Halts) : (d.updHalt f).slots = d.slots := rfl
@[simp] theorem updHalt_quads (d : Device) (f : Halts → Halts) : (d.updHalt f).quads = d.quads := rfl
@[simp] theorem updHalt_chans (d : Device) (f : Halts → Halts) : (d.updHalt f).chans = d.chans := rfl
@[simp] theorem updHalt_profs (d : Device) (f : Halts → Halts) : (d.updHalt f).profs = d.profs := rfl
@[simp] theorem updHalt_paths (d : Device) (f : Halts → Halts) : (d.updHalt f).paths = d.paths := rfl
@[simp] theorem updHalt_srcs (d : Device) (f : Halts → Halts) : (d.updHalt f).srcs = d.srcs := rfl
@[simp] theorem updHalt_bus (d : Device) (f : Halts → Halts) : (d.updHalt f).bus = d.bus := rfl
@[simp] theorem updHalt_stg (d : Device) (f : Halts → Halts) : (d.updHalt f).stg = d.stg := rfl
@[simp] theorem updHalt_mods (d : Device) (f : Halts → Halts) : (d.updHalt f).mods = d.mods := rfl
@[simp] theorem updHalt_seqs (d : Device) (f : Halts → Halts) : (d.updHalt f).seqs = d.seqs := rfl
@[simp] theorem updHalt_rings (d : Device) (f : Halts → Halts) : (d.updHalt f).rings = d.rings := rfl
@[simp] theorem updHalt_writers (d : Device) (f : Halts → Halts) : (d.updHalt f).writers = d.writers := rfl
@[simp] theorem updHalt_nobind (d : Device) (f : Halts → Halts) : (d.updHalt f).nobind = d.nobind := rfl
@[simp] theorem updHalt_cal (d : Device) (f : Halts → Halts) : (d.updHalt f).cal = d.cal := rfl
@[simp] theorem updHalt_therm (d : Device) (f : Halts → Halts) : (d.updHalt f).therm = d.therm := rfl
@[simp] theorem updHalt_hk (d : Device) (f : Halts → Halts) : (d.updHalt f).hk = d.hk := rfl
@[simp] theorem updHalt_faults (d : Device) (f : Halts → Halts) : (d.updHalt f).faults = d.faults := rfl
@[simp] theorem updHalt_col (d : Device) (f : Halts → Halts) : (d.updHalt f).col = d.col := rfl
@[simp] theorem updHalt_memory (d : Device) (f : Halts → Halts) : (d.updHalt f).memory = d.memory := rfl
@[simp] theorem updHalt_reload (d : Device) (f : Halts → Halts) : (d.updHalt f).reload = d.reload := rfl
@[simp] theorem updHalt_sup (d : Device) (f : Halts → Halts) : (d.updHalt f).sup = d.sup := rfl
@[simp] theorem updHalt_pins (d : Device) (f : Halts → Halts) : (d.updHalt f).pins = d.pins := rfl
@[simp] theorem updHalt_free (d : Device) (f : Halts → Halts) : (d.updHalt f).free = d.free := rfl

@[simp] theorem updMode_mode (d : Device) (f : ModeSt → ModeSt) : (d.updMode f).mode = f d.mode := rfl
@[simp] theorem updMode_start (d : Device) (f : ModeSt → ModeSt) : (d.updMode f).start = d.start := rfl
@[simp] theorem updMode_loader (d : Device) (f : ModeSt → ModeSt) : (d.updMode f).loader = d.loader := rfl
@[simp] theorem updMode_check (d : Device) (f : ModeSt → ModeSt) : (d.updMode f).check = d.check := rfl
@[simp] theorem updMode_button (d : Device) (f : ModeSt → ModeSt) : (d.updMode f).button = d.button := rfl
@[simp] theorem updMode_bootp (d : Device) (f : ModeSt → ModeSt) : (d.updMode f).bootp = d.bootp := rfl
@[simp] theorem updMode_arbs (d : Device) (f : ModeSt → ModeSt) : (d.updMode f).arbs = d.arbs := rfl
@[simp] theorem updMode_clk (d : Device) (f : ModeSt → ModeSt) : (d.updMode f).clk = d.clk := rfl
@[simp] theorem updMode_isl (d : Device) (f : ModeSt → ModeSt) : (d.updMode f).isl = d.isl := rfl
@[simp] theorem updMode_cvn (d : Device) (f : ModeSt → ModeSt) : (d.updMode f).cvn = d.cvn := rfl
@[simp] theorem updMode_halt (d : Device) (f : ModeSt → ModeSt) : (d.updMode f).halt = d.halt := rfl
@[simp] theorem updMode_slots (d : Device) (f : ModeSt → ModeSt) : (d.updMode f).slots = d.slots := rfl
@[simp] theorem updMode_quads (d : Device) (f : ModeSt → ModeSt) : (d.updMode f).quads = d.quads := rfl
@[simp] theorem updMode_chans (d : Device) (f : ModeSt → ModeSt) : (d.updMode f).chans = d.chans := rfl
@[simp] theorem updMode_profs (d : Device) (f : ModeSt → ModeSt) : (d.updMode f).profs = d.profs := rfl
@[simp] theorem updMode_paths (d : Device) (f : ModeSt → ModeSt) : (d.updMode f).paths = d.paths := rfl
@[simp] theorem updMode_srcs (d : Device) (f : ModeSt → ModeSt) : (d.updMode f).srcs = d.srcs := rfl
@[simp] theorem updMode_bus (d : Device) (f : ModeSt → ModeSt) : (d.updMode f).bus = d.bus := rfl
@[simp] theorem updMode_stg (d : Device) (f : ModeSt → ModeSt) : (d.updMode f).stg = d.stg := rfl
@[simp] theorem updMode_mods (d : Device) (f : ModeSt → ModeSt) : (d.updMode f).mods = d.mods := rfl
@[simp] theorem updMode_seqs (d : Device) (f : ModeSt → ModeSt) : (d.updMode f).seqs = d.seqs := rfl
@[simp] theorem updMode_rings (d : Device) (f : ModeSt → ModeSt) : (d.updMode f).rings = d.rings := rfl
@[simp] theorem updMode_writers (d : Device) (f : ModeSt → ModeSt) : (d.updMode f).writers = d.writers := rfl
@[simp] theorem updMode_nobind (d : Device) (f : ModeSt → ModeSt) : (d.updMode f).nobind = d.nobind := rfl
@[simp] theorem updMode_cal (d : Device) (f : ModeSt → ModeSt) : (d.updMode f).cal = d.cal := rfl
@[simp] theorem updMode_therm (d : Device) (f : ModeSt → ModeSt) : (d.updMode f).therm = d.therm := rfl
@[simp] theorem updMode_hk (d : Device) (f : ModeSt → ModeSt) : (d.updMode f).hk = d.hk := rfl
@[simp] theorem updMode_faults (d : Device) (f : ModeSt → ModeSt) : (d.updMode f).faults = d.faults := rfl
@[simp] theorem updMode_col (d : Device) (f : ModeSt → ModeSt) : (d.updMode f).col = d.col := rfl
@[simp] theorem updMode_memory (d : Device) (f : ModeSt → ModeSt) : (d.updMode f).memory = d.memory := rfl
@[simp] theorem updMode_reload (d : Device) (f : ModeSt → ModeSt) : (d.updMode f).reload = d.reload := rfl
@[simp] theorem updMode_sup (d : Device) (f : ModeSt → ModeSt) : (d.updMode f).sup = d.sup := rfl
@[simp] theorem updMode_pins (d : Device) (f : ModeSt → ModeSt) : (d.updMode f).pins = d.pins := rfl
@[simp] theorem updMode_free (d : Device) (f : ModeSt → ModeSt) : (d.updMode f).free = d.free := rfl

@[simp] theorem updHk_hk (d : Device) (f : HkSt → HkSt) : (d.updHk f).hk = f d.hk := rfl
@[simp] theorem updHk_start (d : Device) (f : HkSt → HkSt) : (d.updHk f).start = d.start := rfl
@[simp] theorem updHk_loader (d : Device) (f : HkSt → HkSt) : (d.updHk f).loader = d.loader := rfl
@[simp] theorem updHk_check (d : Device) (f : HkSt → HkSt) : (d.updHk f).check = d.check := rfl
@[simp] theorem updHk_button (d : Device) (f : HkSt → HkSt) : (d.updHk f).button = d.button := rfl
@[simp] theorem updHk_mode (d : Device) (f : HkSt → HkSt) : (d.updHk f).mode = d.mode := rfl
@[simp] theorem updHk_bootp (d : Device) (f : HkSt → HkSt) : (d.updHk f).bootp = d.bootp := rfl
@[simp] theorem updHk_arbs (d : Device) (f : HkSt → HkSt) : (d.updHk f).arbs = d.arbs := rfl
@[simp] theorem updHk_clk (d : Device) (f : HkSt → HkSt) : (d.updHk f).clk = d.clk := rfl
@[simp] theorem updHk_isl (d : Device) (f : HkSt → HkSt) : (d.updHk f).isl = d.isl := rfl
@[simp] theorem updHk_cvn (d : Device) (f : HkSt → HkSt) : (d.updHk f).cvn = d.cvn := rfl
@[simp] theorem updHk_halt (d : Device) (f : HkSt → HkSt) : (d.updHk f).halt = d.halt := rfl
@[simp] theorem updHk_slots (d : Device) (f : HkSt → HkSt) : (d.updHk f).slots = d.slots := rfl
@[simp] theorem updHk_quads (d : Device) (f : HkSt → HkSt) : (d.updHk f).quads = d.quads := rfl
@[simp] theorem updHk_chans (d : Device) (f : HkSt → HkSt) : (d.updHk f).chans = d.chans := rfl
@[simp] theorem updHk_profs (d : Device) (f : HkSt → HkSt) : (d.updHk f).profs = d.profs := rfl
@[simp] theorem updHk_paths (d : Device) (f : HkSt → HkSt) : (d.updHk f).paths = d.paths := rfl
@[simp] theorem updHk_srcs (d : Device) (f : HkSt → HkSt) : (d.updHk f).srcs = d.srcs := rfl
@[simp] theorem updHk_bus (d : Device) (f : HkSt → HkSt) : (d.updHk f).bus = d.bus := rfl
@[simp] theorem updHk_stg (d : Device) (f : HkSt → HkSt) : (d.updHk f).stg = d.stg := rfl
@[simp] theorem updHk_mods (d : Device) (f : HkSt → HkSt) : (d.updHk f).mods = d.mods := rfl
@[simp] theorem updHk_seqs (d : Device) (f : HkSt → HkSt) : (d.updHk f).seqs = d.seqs := rfl
@[simp] theorem updHk_rings (d : Device) (f : HkSt → HkSt) : (d.updHk f).rings = d.rings := rfl
@[simp] theorem updHk_writers (d : Device) (f : HkSt → HkSt) : (d.updHk f).writers = d.writers := rfl
@[simp] theorem updHk_nobind (d : Device) (f : HkSt → HkSt) : (d.updHk f).nobind = d.nobind := rfl
@[simp] theorem updHk_cal (d : Device) (f : HkSt → HkSt) : (d.updHk f).cal = d.cal := rfl
@[simp] theorem updHk_therm (d : Device) (f : HkSt → HkSt) : (d.updHk f).therm = d.therm := rfl
@[simp] theorem updHk_faults (d : Device) (f : HkSt → HkSt) : (d.updHk f).faults = d.faults := rfl
@[simp] theorem updHk_col (d : Device) (f : HkSt → HkSt) : (d.updHk f).col = d.col := rfl
@[simp] theorem updHk_memory (d : Device) (f : HkSt → HkSt) : (d.updHk f).memory = d.memory := rfl
@[simp] theorem updHk_reload (d : Device) (f : HkSt → HkSt) : (d.updHk f).reload = d.reload := rfl
@[simp] theorem updHk_sup (d : Device) (f : HkSt → HkSt) : (d.updHk f).sup = d.sup := rfl
@[simp] theorem updHk_pins (d : Device) (f : HkSt → HkSt) : (d.updHk f).pins = d.pins := rfl
@[simp] theorem updHk_free (d : Device) (f : HkSt → HkSt) : (d.updHk f).free = d.free := rfl

@[simp] theorem updStart_start (d : Device) (f : Start → Start) : (d.updStart f).start = f d.start := rfl
@[simp] theorem updStart_loader (d : Device) (f : Start → Start) : (d.updStart f).loader = d.loader := rfl
@[simp] theorem updStart_check (d : Device) (f : Start → Start) : (d.updStart f).check = d.check := rfl
@[simp] theorem updStart_button (d : Device) (f : Start → Start) : (d.updStart f).button = d.button := rfl
@[simp] theorem updStart_mode (d : Device) (f : Start → Start) : (d.updStart f).mode = d.mode := rfl
@[simp] theorem updStart_bootp (d : Device) (f : Start → Start) : (d.updStart f).bootp = d.bootp := rfl
@[simp] theorem updStart_arbs (d : Device) (f : Start → Start) : (d.updStart f).arbs = d.arbs := rfl
@[simp] theorem updStart_clk (d : Device) (f : Start → Start) : (d.updStart f).clk = d.clk := rfl
@[simp] theorem updStart_isl (d : Device) (f : Start → Start) : (d.updStart f).isl = d.isl := rfl
@[simp] theorem updStart_cvn (d : Device) (f : Start → Start) : (d.updStart f).cvn = d.cvn := rfl
@[simp] theorem updStart_halt (d : Device) (f : Start → Start) : (d.updStart f).halt = d.halt := rfl
@[simp] theorem updStart_slots (d : Device) (f : Start → Start) : (d.updStart f).slots = d.slots := rfl
@[simp] theorem updStart_quads (d : Device) (f : Start → Start) : (d.updStart f).quads = d.quads := rfl
@[simp] theorem updStart_chans (d : Device) (f : Start → Start) : (d.updStart f).chans = d.chans := rfl
@[simp] theorem updStart_profs (d : Device) (f : Start → Start) : (d.updStart f).profs = d.profs := rfl
@[simp] theorem updStart_paths (d : Device) (f : Start → Start) : (d.updStart f).paths = d.paths := rfl
@[simp] theorem updStart_srcs (d : Device) (f : Start → Start) : (d.updStart f).srcs = d.srcs := rfl
@[simp] theorem updStart_bus (d : Device) (f : Start → Start) : (d.updStart f).bus = d.bus := rfl
@[simp] theorem updStart_stg (d : Device) (f : Start → Start) : (d.updStart f).stg = d.stg := rfl
@[simp] theorem updStart_mods (d : Device) (f : Start → Start) : (d.updStart f).mods = d.mods := rfl
@[simp] theorem updStart_seqs (d : Device) (f : Start → Start) : (d.updStart f).seqs = d.seqs := rfl
@[simp] theorem updStart_rings (d : Device) (f : Start → Start) : (d.updStart f).rings = d.rings := rfl
@[simp] theorem updStart_writers (d : Device) (f : Start → Start) : (d.updStart f).writers = d.writers := rfl
@[simp] theorem updStart_nobind (d : Device) (f : Start → Start) : (d.updStart f).nobind = d.nobind := rfl
@[simp] theorem updStart_cal (d : Device) (f : Start → Start) : (d.updStart f).cal = d.cal := rfl
@[simp] theorem updStart_therm (d : Device) (f : Start → Start) : (d.updStart f).therm = d.therm := rfl
@[simp] theorem updStart_hk (d : Device) (f : Start → Start) : (d.updStart f).hk = d.hk := rfl
@[simp] theorem updStart_faults (d : Device) (f : Start → Start) : (d.updStart f).faults = d.faults := rfl
@[simp] theorem updStart_col (d : Device) (f : Start → Start) : (d.updStart f).col = d.col := rfl
@[simp] theorem updStart_memory (d : Device) (f : Start → Start) : (d.updStart f).memory = d.memory := rfl
@[simp] theorem updStart_reload (d : Device) (f : Start → Start) : (d.updStart f).reload = d.reload := rfl
@[simp] theorem updStart_sup (d : Device) (f : Start → Start) : (d.updStart f).sup = d.sup := rfl
@[simp] theorem updStart_pins (d : Device) (f : Start → Start) : (d.updStart f).pins = d.pins := rfl
@[simp] theorem updStart_free (d : Device) (f : Start → Start) : (d.updStart f).free = d.free := rfl

@[simp] theorem updLoader_loader (d : Device) (f : Loader → Loader) : (d.updLoader f).loader = f d.loader := rfl
@[simp] theorem updLoader_start (d : Device) (f : Loader → Loader) : (d.updLoader f).start = d.start := rfl
@[simp] theorem updLoader_check (d : Device) (f : Loader → Loader) : (d.updLoader f).check = d.check := rfl
@[simp] theorem updLoader_button (d : Device) (f : Loader → Loader) : (d.updLoader f).button = d.button := rfl
@[simp] theorem updLoader_mode (d : Device) (f : Loader → Loader) : (d.updLoader f).mode = d.mode := rfl
@[simp] theorem updLoader_bootp (d : Device) (f : Loader → Loader) : (d.updLoader f).bootp = d.bootp := rfl
@[simp] theorem updLoader_arbs (d : Device) (f : Loader → Loader) : (d.updLoader f).arbs = d.arbs := rfl
@[simp] theorem updLoader_clk (d : Device) (f : Loader → Loader) : (d.updLoader f).clk = d.clk := rfl
@[simp] theorem updLoader_isl (d : Device) (f : Loader → Loader) : (d.updLoader f).isl = d.isl := rfl
@[simp] theorem updLoader_cvn (d : Device) (f : Loader → Loader) : (d.updLoader f).cvn = d.cvn := rfl
@[simp] theorem updLoader_halt (d : Device) (f : Loader → Loader) : (d.updLoader f).halt = d.halt := rfl
@[simp] theorem updLoader_slots (d : Device) (f : Loader → Loader) : (d.updLoader f).slots = d.slots := rfl
@[simp] theorem updLoader_quads (d : Device) (f : Loader → Loader) : (d.updLoader f).quads = d.quads := rfl
@[simp] theorem updLoader_chans (d : Device) (f : Loader → Loader) : (d.updLoader f).chans = d.chans := rfl
@[simp] theorem updLoader_profs (d : Device) (f : Loader → Loader) : (d.updLoader f).profs = d.profs := rfl
@[simp] theorem updLoader_paths (d : Device) (f : Loader → Loader) : (d.updLoader f).paths = d.paths := rfl
@[simp] theorem updLoader_srcs (d : Device) (f : Loader → Loader) : (d.updLoader f).srcs = d.srcs := rfl
@[simp] theorem updLoader_bus (d : Device) (f : Loader → Loader) : (d.updLoader f).bus = d.bus := rfl
@[simp] theorem updLoader_stg (d : Device) (f : Loader → Loader) : (d.updLoader f).stg = d.stg := rfl
@[simp] theorem updLoader_mods (d : Device) (f : Loader → Loader) : (d.updLoader f).mods = d.mods := rfl
@[simp] theorem updLoader_seqs (d : Device) (f : Loader → Loader) : (d.updLoader f).seqs = d.seqs := rfl
@[simp] theorem updLoader_rings (d : Device) (f : Loader → Loader) : (d.updLoader f).rings = d.rings := rfl
@[simp] theorem updLoader_writers (d : Device) (f : Loader → Loader) : (d.updLoader f).writers = d.writers := rfl
@[simp] theorem updLoader_nobind (d : Device) (f : Loader → Loader) : (d.updLoader f).nobind = d.nobind := rfl
@[simp] theorem updLoader_cal (d : Device) (f : Loader → Loader) : (d.updLoader f).cal = d.cal := rfl
@[simp] theorem updLoader_therm (d : Device) (f : Loader → Loader) : (d.updLoader f).therm = d.therm := rfl
@[simp] theorem updLoader_hk (d : Device) (f : Loader → Loader) : (d.updLoader f).hk = d.hk := rfl
@[simp] theorem updLoader_faults (d : Device) (f : Loader → Loader) : (d.updLoader f).faults = d.faults := rfl
@[simp] theorem updLoader_col (d : Device) (f : Loader → Loader) : (d.updLoader f).col = d.col := rfl
@[simp] theorem updLoader_memory (d : Device) (f : Loader → Loader) : (d.updLoader f).memory = d.memory := rfl
@[simp] theorem updLoader_reload (d : Device) (f : Loader → Loader) : (d.updLoader f).reload = d.reload := rfl
@[simp] theorem updLoader_sup (d : Device) (f : Loader → Loader) : (d.updLoader f).sup = d.sup := rfl
@[simp] theorem updLoader_pins (d : Device) (f : Loader → Loader) : (d.updLoader f).pins = d.pins := rfl
@[simp] theorem updLoader_free (d : Device) (f : Loader → Loader) : (d.updLoader f).free = d.free := rfl

@[simp] theorem updBoot_bootp (d : Device) (f : BootPort → BootPort) : (d.updBoot f).bootp = f d.bootp := rfl
@[simp] theorem updBoot_start (d : Device) (f : BootPort → BootPort) : (d.updBoot f).start = d.start := rfl
@[simp] theorem updBoot_loader (d : Device) (f : BootPort → BootPort) : (d.updBoot f).loader = d.loader := rfl
@[simp] theorem updBoot_check (d : Device) (f : BootPort → BootPort) : (d.updBoot f).check = d.check := rfl
@[simp] theorem updBoot_button (d : Device) (f : BootPort → BootPort) : (d.updBoot f).button = d.button := rfl
@[simp] theorem updBoot_mode (d : Device) (f : BootPort → BootPort) : (d.updBoot f).mode = d.mode := rfl
@[simp] theorem updBoot_arbs (d : Device) (f : BootPort → BootPort) : (d.updBoot f).arbs = d.arbs := rfl
@[simp] theorem updBoot_clk (d : Device) (f : BootPort → BootPort) : (d.updBoot f).clk = d.clk := rfl
@[simp] theorem updBoot_isl (d : Device) (f : BootPort → BootPort) : (d.updBoot f).isl = d.isl := rfl
@[simp] theorem updBoot_cvn (d : Device) (f : BootPort → BootPort) : (d.updBoot f).cvn = d.cvn := rfl
@[simp] theorem updBoot_halt (d : Device) (f : BootPort → BootPort) : (d.updBoot f).halt = d.halt := rfl
@[simp] theorem updBoot_slots (d : Device) (f : BootPort → BootPort) : (d.updBoot f).slots = d.slots := rfl
@[simp] theorem updBoot_quads (d : Device) (f : BootPort → BootPort) : (d.updBoot f).quads = d.quads := rfl
@[simp] theorem updBoot_chans (d : Device) (f : BootPort → BootPort) : (d.updBoot f).chans = d.chans := rfl
@[simp] theorem updBoot_profs (d : Device) (f : BootPort → BootPort) : (d.updBoot f).profs = d.profs := rfl
@[simp] theorem updBoot_paths (d : Device) (f : BootPort → BootPort) : (d.updBoot f).paths = d.paths := rfl
@[simp] theorem updBoot_srcs (d : Device) (f : BootPort → BootPort) : (d.updBoot f).srcs = d.srcs := rfl
@[simp] theorem updBoot_bus (d : Device) (f : BootPort → BootPort) : (d.updBoot f).bus = d.bus := rfl
@[simp] theorem updBoot_stg (d : Device) (f : BootPort → BootPort) : (d.updBoot f).stg = d.stg := rfl
@[simp] theorem updBoot_mods (d : Device) (f : BootPort → BootPort) : (d.updBoot f).mods = d.mods := rfl
@[simp] theorem updBoot_seqs (d : Device) (f : BootPort → BootPort) : (d.updBoot f).seqs = d.seqs := rfl
@[simp] theorem updBoot_rings (d : Device) (f : BootPort → BootPort) : (d.updBoot f).rings = d.rings := rfl
@[simp] theorem updBoot_writers (d : Device) (f : BootPort → BootPort) : (d.updBoot f).writers = d.writers := rfl
@[simp] theorem updBoot_nobind (d : Device) (f : BootPort → BootPort) : (d.updBoot f).nobind = d.nobind := rfl
@[simp] theorem updBoot_cal (d : Device) (f : BootPort → BootPort) : (d.updBoot f).cal = d.cal := rfl
@[simp] theorem updBoot_therm (d : Device) (f : BootPort → BootPort) : (d.updBoot f).therm = d.therm := rfl
@[simp] theorem updBoot_hk (d : Device) (f : BootPort → BootPort) : (d.updBoot f).hk = d.hk := rfl
@[simp] theorem updBoot_faults (d : Device) (f : BootPort → BootPort) : (d.updBoot f).faults = d.faults := rfl
@[simp] theorem updBoot_col (d : Device) (f : BootPort → BootPort) : (d.updBoot f).col = d.col := rfl
@[simp] theorem updBoot_memory (d : Device) (f : BootPort → BootPort) : (d.updBoot f).memory = d.memory := rfl
@[simp] theorem updBoot_reload (d : Device) (f : BootPort → BootPort) : (d.updBoot f).reload = d.reload := rfl
@[simp] theorem updBoot_sup (d : Device) (f : BootPort → BootPort) : (d.updBoot f).sup = d.sup := rfl
@[simp] theorem updBoot_pins (d : Device) (f : BootPort → BootPort) : (d.updBoot f).pins = d.pins := rfl
@[simp] theorem updBoot_free (d : Device) (f : BootPort → BootPort) : (d.updBoot f).free = d.free := rfl

@[simp] theorem updBus_bus (d : Device) (f : BusSt → BusSt) : (d.updBus f).bus = f d.bus := rfl
@[simp] theorem updBus_start (d : Device) (f : BusSt → BusSt) : (d.updBus f).start = d.start := rfl
@[simp] theorem updBus_loader (d : Device) (f : BusSt → BusSt) : (d.updBus f).loader = d.loader := rfl
@[simp] theorem updBus_check (d : Device) (f : BusSt → BusSt) : (d.updBus f).check = d.check := rfl
@[simp] theorem updBus_button (d : Device) (f : BusSt → BusSt) : (d.updBus f).button = d.button := rfl
@[simp] theorem updBus_mode (d : Device) (f : BusSt → BusSt) : (d.updBus f).mode = d.mode := rfl
@[simp] theorem updBus_bootp (d : Device) (f : BusSt → BusSt) : (d.updBus f).bootp = d.bootp := rfl
@[simp] theorem updBus_arbs (d : Device) (f : BusSt → BusSt) : (d.updBus f).arbs = d.arbs := rfl
@[simp] theorem updBus_clk (d : Device) (f : BusSt → BusSt) : (d.updBus f).clk = d.clk := rfl
@[simp] theorem updBus_isl (d : Device) (f : BusSt → BusSt) : (d.updBus f).isl = d.isl := rfl
@[simp] theorem updBus_cvn (d : Device) (f : BusSt → BusSt) : (d.updBus f).cvn = d.cvn := rfl
@[simp] theorem updBus_halt (d : Device) (f : BusSt → BusSt) : (d.updBus f).halt = d.halt := rfl
@[simp] theorem updBus_slots (d : Device) (f : BusSt → BusSt) : (d.updBus f).slots = d.slots := rfl
@[simp] theorem updBus_quads (d : Device) (f : BusSt → BusSt) : (d.updBus f).quads = d.quads := rfl
@[simp] theorem updBus_chans (d : Device) (f : BusSt → BusSt) : (d.updBus f).chans = d.chans := rfl
@[simp] theorem updBus_profs (d : Device) (f : BusSt → BusSt) : (d.updBus f).profs = d.profs := rfl
@[simp] theorem updBus_paths (d : Device) (f : BusSt → BusSt) : (d.updBus f).paths = d.paths := rfl
@[simp] theorem updBus_srcs (d : Device) (f : BusSt → BusSt) : (d.updBus f).srcs = d.srcs := rfl
@[simp] theorem updBus_stg (d : Device) (f : BusSt → BusSt) : (d.updBus f).stg = d.stg := rfl
@[simp] theorem updBus_mods (d : Device) (f : BusSt → BusSt) : (d.updBus f).mods = d.mods := rfl
@[simp] theorem updBus_seqs (d : Device) (f : BusSt → BusSt) : (d.updBus f).seqs = d.seqs := rfl
@[simp] theorem updBus_rings (d : Device) (f : BusSt → BusSt) : (d.updBus f).rings = d.rings := rfl
@[simp] theorem updBus_writers (d : Device) (f : BusSt → BusSt) : (d.updBus f).writers = d.writers := rfl
@[simp] theorem updBus_nobind (d : Device) (f : BusSt → BusSt) : (d.updBus f).nobind = d.nobind := rfl
@[simp] theorem updBus_cal (d : Device) (f : BusSt → BusSt) : (d.updBus f).cal = d.cal := rfl
@[simp] theorem updBus_therm (d : Device) (f : BusSt → BusSt) : (d.updBus f).therm = d.therm := rfl
@[simp] theorem updBus_hk (d : Device) (f : BusSt → BusSt) : (d.updBus f).hk = d.hk := rfl
@[simp] theorem updBus_faults (d : Device) (f : BusSt → BusSt) : (d.updBus f).faults = d.faults := rfl
@[simp] theorem updBus_col (d : Device) (f : BusSt → BusSt) : (d.updBus f).col = d.col := rfl
@[simp] theorem updBus_memory (d : Device) (f : BusSt → BusSt) : (d.updBus f).memory = d.memory := rfl
@[simp] theorem updBus_reload (d : Device) (f : BusSt → BusSt) : (d.updBus f).reload = d.reload := rfl
@[simp] theorem updBus_sup (d : Device) (f : BusSt → BusSt) : (d.updBus f).sup = d.sup := rfl
@[simp] theorem updBus_pins (d : Device) (f : BusSt → BusSt) : (d.updBus f).pins = d.pins := rfl
@[simp] theorem updBus_free (d : Device) (f : BusSt → BusSt) : (d.updBus f).free = d.free := rfl

@[simp] theorem updStg_stg (d : Device) (f : Stagger → Stagger) : (d.updStg f).stg = f d.stg := rfl
@[simp] theorem updStg_start (d : Device) (f : Stagger → Stagger) : (d.updStg f).start = d.start := rfl
@[simp] theorem updStg_loader (d : Device) (f : Stagger → Stagger) : (d.updStg f).loader = d.loader := rfl
@[simp] theorem updStg_check (d : Device) (f : Stagger → Stagger) : (d.updStg f).check = d.check := rfl
@[simp] theorem updStg_button (d : Device) (f : Stagger → Stagger) : (d.updStg f).button = d.button := rfl
@[simp] theorem updStg_mode (d : Device) (f : Stagger → Stagger) : (d.updStg f).mode = d.mode := rfl
@[simp] theorem updStg_bootp (d : Device) (f : Stagger → Stagger) : (d.updStg f).bootp = d.bootp := rfl
@[simp] theorem updStg_arbs (d : Device) (f : Stagger → Stagger) : (d.updStg f).arbs = d.arbs := rfl
@[simp] theorem updStg_clk (d : Device) (f : Stagger → Stagger) : (d.updStg f).clk = d.clk := rfl
@[simp] theorem updStg_isl (d : Device) (f : Stagger → Stagger) : (d.updStg f).isl = d.isl := rfl
@[simp] theorem updStg_cvn (d : Device) (f : Stagger → Stagger) : (d.updStg f).cvn = d.cvn := rfl
@[simp] theorem updStg_halt (d : Device) (f : Stagger → Stagger) : (d.updStg f).halt = d.halt := rfl
@[simp] theorem updStg_slots (d : Device) (f : Stagger → Stagger) : (d.updStg f).slots = d.slots := rfl
@[simp] theorem updStg_quads (d : Device) (f : Stagger → Stagger) : (d.updStg f).quads = d.quads := rfl
@[simp] theorem updStg_chans (d : Device) (f : Stagger → Stagger) : (d.updStg f).chans = d.chans := rfl
@[simp] theorem updStg_profs (d : Device) (f : Stagger → Stagger) : (d.updStg f).profs = d.profs := rfl
@[simp] theorem updStg_paths (d : Device) (f : Stagger → Stagger) : (d.updStg f).paths = d.paths := rfl
@[simp] theorem updStg_srcs (d : Device) (f : Stagger → Stagger) : (d.updStg f).srcs = d.srcs := rfl
@[simp] theorem updStg_bus (d : Device) (f : Stagger → Stagger) : (d.updStg f).bus = d.bus := rfl
@[simp] theorem updStg_mods (d : Device) (f : Stagger → Stagger) : (d.updStg f).mods = d.mods := rfl
@[simp] theorem updStg_seqs (d : Device) (f : Stagger → Stagger) : (d.updStg f).seqs = d.seqs := rfl
@[simp] theorem updStg_rings (d : Device) (f : Stagger → Stagger) : (d.updStg f).rings = d.rings := rfl
@[simp] theorem updStg_writers (d : Device) (f : Stagger → Stagger) : (d.updStg f).writers = d.writers := rfl
@[simp] theorem updStg_nobind (d : Device) (f : Stagger → Stagger) : (d.updStg f).nobind = d.nobind := rfl
@[simp] theorem updStg_cal (d : Device) (f : Stagger → Stagger) : (d.updStg f).cal = d.cal := rfl
@[simp] theorem updStg_therm (d : Device) (f : Stagger → Stagger) : (d.updStg f).therm = d.therm := rfl
@[simp] theorem updStg_hk (d : Device) (f : Stagger → Stagger) : (d.updStg f).hk = d.hk := rfl
@[simp] theorem updStg_faults (d : Device) (f : Stagger → Stagger) : (d.updStg f).faults = d.faults := rfl
@[simp] theorem updStg_col (d : Device) (f : Stagger → Stagger) : (d.updStg f).col = d.col := rfl
@[simp] theorem updStg_memory (d : Device) (f : Stagger → Stagger) : (d.updStg f).memory = d.memory := rfl
@[simp] theorem updStg_reload (d : Device) (f : Stagger → Stagger) : (d.updStg f).reload = d.reload := rfl
@[simp] theorem updStg_sup (d : Device) (f : Stagger → Stagger) : (d.updStg f).sup = d.sup := rfl
@[simp] theorem updStg_pins (d : Device) (f : Stagger → Stagger) : (d.updStg f).pins = d.pins := rfl
@[simp] theorem updStg_free (d : Device) (f : Stagger → Stagger) : (d.updStg f).free = d.free := rfl

@[simp] theorem updCal_cal (d : Device) (f : CalSt → CalSt) : (d.updCal f).cal = f d.cal := rfl
@[simp] theorem updCal_start (d : Device) (f : CalSt → CalSt) : (d.updCal f).start = d.start := rfl
@[simp] theorem updCal_loader (d : Device) (f : CalSt → CalSt) : (d.updCal f).loader = d.loader := rfl
@[simp] theorem updCal_check (d : Device) (f : CalSt → CalSt) : (d.updCal f).check = d.check := rfl
@[simp] theorem updCal_button (d : Device) (f : CalSt → CalSt) : (d.updCal f).button = d.button := rfl
@[simp] theorem updCal_mode (d : Device) (f : CalSt → CalSt) : (d.updCal f).mode = d.mode := rfl
@[simp] theorem updCal_bootp (d : Device) (f : CalSt → CalSt) : (d.updCal f).bootp = d.bootp := rfl
@[simp] theorem updCal_arbs (d : Device) (f : CalSt → CalSt) : (d.updCal f).arbs = d.arbs := rfl
@[simp] theorem updCal_clk (d : Device) (f : CalSt → CalSt) : (d.updCal f).clk = d.clk := rfl
@[simp] theorem updCal_isl (d : Device) (f : CalSt → CalSt) : (d.updCal f).isl = d.isl := rfl
@[simp] theorem updCal_cvn (d : Device) (f : CalSt → CalSt) : (d.updCal f).cvn = d.cvn := rfl
@[simp] theorem updCal_halt (d : Device) (f : CalSt → CalSt) : (d.updCal f).halt = d.halt := rfl
@[simp] theorem updCal_slots (d : Device) (f : CalSt → CalSt) : (d.updCal f).slots = d.slots := rfl
@[simp] theorem updCal_quads (d : Device) (f : CalSt → CalSt) : (d.updCal f).quads = d.quads := rfl
@[simp] theorem updCal_chans (d : Device) (f : CalSt → CalSt) : (d.updCal f).chans = d.chans := rfl
@[simp] theorem updCal_profs (d : Device) (f : CalSt → CalSt) : (d.updCal f).profs = d.profs := rfl
@[simp] theorem updCal_paths (d : Device) (f : CalSt → CalSt) : (d.updCal f).paths = d.paths := rfl
@[simp] theorem updCal_srcs (d : Device) (f : CalSt → CalSt) : (d.updCal f).srcs = d.srcs := rfl
@[simp] theorem updCal_bus (d : Device) (f : CalSt → CalSt) : (d.updCal f).bus = d.bus := rfl
@[simp] theorem updCal_stg (d : Device) (f : CalSt → CalSt) : (d.updCal f).stg = d.stg := rfl
@[simp] theorem updCal_mods (d : Device) (f : CalSt → CalSt) : (d.updCal f).mods = d.mods := rfl
@[simp] theorem updCal_seqs (d : Device) (f : CalSt → CalSt) : (d.updCal f).seqs = d.seqs := rfl
@[simp] theorem updCal_rings (d : Device) (f : CalSt → CalSt) : (d.updCal f).rings = d.rings := rfl
@[simp] theorem updCal_writers (d : Device) (f : CalSt → CalSt) : (d.updCal f).writers = d.writers := rfl
@[simp] theorem updCal_nobind (d : Device) (f : CalSt → CalSt) : (d.updCal f).nobind = d.nobind := rfl
@[simp] theorem updCal_therm (d : Device) (f : CalSt → CalSt) : (d.updCal f).therm = d.therm := rfl
@[simp] theorem updCal_hk (d : Device) (f : CalSt → CalSt) : (d.updCal f).hk = d.hk := rfl
@[simp] theorem updCal_faults (d : Device) (f : CalSt → CalSt) : (d.updCal f).faults = d.faults := rfl
@[simp] theorem updCal_col (d : Device) (f : CalSt → CalSt) : (d.updCal f).col = d.col := rfl
@[simp] theorem updCal_memory (d : Device) (f : CalSt → CalSt) : (d.updCal f).memory = d.memory := rfl
@[simp] theorem updCal_reload (d : Device) (f : CalSt → CalSt) : (d.updCal f).reload = d.reload := rfl
@[simp] theorem updCal_sup (d : Device) (f : CalSt → CalSt) : (d.updCal f).sup = d.sup := rfl
@[simp] theorem updCal_pins (d : Device) (f : CalSt → CalSt) : (d.updCal f).pins = d.pins := rfl
@[simp] theorem updCal_free (d : Device) (f : CalSt → CalSt) : (d.updCal f).free = d.free := rfl

@[simp] theorem updReload_reload (d : Device) (f : ReloadSt → ReloadSt) : (d.updReload f).reload = f d.reload := rfl
@[simp] theorem updReload_start (d : Device) (f : ReloadSt → ReloadSt) : (d.updReload f).start = d.start := rfl
@[simp] theorem updReload_loader (d : Device) (f : ReloadSt → ReloadSt) : (d.updReload f).loader = d.loader := rfl
@[simp] theorem updReload_check (d : Device) (f : ReloadSt → ReloadSt) : (d.updReload f).check = d.check := rfl
@[simp] theorem updReload_button (d : Device) (f : ReloadSt → ReloadSt) : (d.updReload f).button = d.button := rfl
@[simp] theorem updReload_mode (d : Device) (f : ReloadSt → ReloadSt) : (d.updReload f).mode = d.mode := rfl
@[simp] theorem updReload_bootp (d : Device) (f : ReloadSt → ReloadSt) : (d.updReload f).bootp = d.bootp := rfl
@[simp] theorem updReload_arbs (d : Device) (f : ReloadSt → ReloadSt) : (d.updReload f).arbs = d.arbs := rfl
@[simp] theorem updReload_clk (d : Device) (f : ReloadSt → ReloadSt) : (d.updReload f).clk = d.clk := rfl
@[simp] theorem updReload_isl (d : Device) (f : ReloadSt → ReloadSt) : (d.updReload f).isl = d.isl := rfl
@[simp] theorem updReload_cvn (d : Device) (f : ReloadSt → ReloadSt) : (d.updReload f).cvn = d.cvn := rfl
@[simp] theorem updReload_halt (d : Device) (f : ReloadSt → ReloadSt) : (d.updReload f).halt = d.halt := rfl
@[simp] theorem updReload_slots (d : Device) (f : ReloadSt → ReloadSt) : (d.updReload f).slots = d.slots := rfl
@[simp] theorem updReload_quads (d : Device) (f : ReloadSt → ReloadSt) : (d.updReload f).quads = d.quads := rfl
@[simp] theorem updReload_chans (d : Device) (f : ReloadSt → ReloadSt) : (d.updReload f).chans = d.chans := rfl
@[simp] theorem updReload_profs (d : Device) (f : ReloadSt → ReloadSt) : (d.updReload f).profs = d.profs := rfl
@[simp] theorem updReload_paths (d : Device) (f : ReloadSt → ReloadSt) : (d.updReload f).paths = d.paths := rfl
@[simp] theorem updReload_srcs (d : Device) (f : ReloadSt → ReloadSt) : (d.updReload f).srcs = d.srcs := rfl
@[simp] theorem updReload_bus (d : Device) (f : ReloadSt → ReloadSt) : (d.updReload f).bus = d.bus := rfl
@[simp] theorem updReload_stg (d : Device) (f : ReloadSt → ReloadSt) : (d.updReload f).stg = d.stg := rfl
@[simp] theorem updReload_mods (d : Device) (f : ReloadSt → ReloadSt) : (d.updReload f).mods = d.mods := rfl
@[simp] theorem updReload_seqs (d : Device) (f : ReloadSt → ReloadSt) : (d.updReload f).seqs = d.seqs := rfl
@[simp] theorem updReload_rings (d : Device) (f : ReloadSt → ReloadSt) : (d.updReload f).rings = d.rings := rfl
@[simp] theorem updReload_writers (d : Device) (f : ReloadSt → ReloadSt) : (d.updReload f).writers = d.writers := rfl
@[simp] theorem updReload_nobind (d : Device) (f : ReloadSt → ReloadSt) : (d.updReload f).nobind = d.nobind := rfl
@[simp] theorem updReload_cal (d : Device) (f : ReloadSt → ReloadSt) : (d.updReload f).cal = d.cal := rfl
@[simp] theorem updReload_therm (d : Device) (f : ReloadSt → ReloadSt) : (d.updReload f).therm = d.therm := rfl
@[simp] theorem updReload_hk (d : Device) (f : ReloadSt → ReloadSt) : (d.updReload f).hk = d.hk := rfl
@[simp] theorem updReload_faults (d : Device) (f : ReloadSt → ReloadSt) : (d.updReload f).faults = d.faults := rfl
@[simp] theorem updReload_col (d : Device) (f : ReloadSt → ReloadSt) : (d.updReload f).col = d.col := rfl
@[simp] theorem updReload_memory (d : Device) (f : ReloadSt → ReloadSt) : (d.updReload f).memory = d.memory := rfl
@[simp] theorem updReload_sup (d : Device) (f : ReloadSt → ReloadSt) : (d.updReload f).sup = d.sup := rfl
@[simp] theorem updReload_pins (d : Device) (f : ReloadSt → ReloadSt) : (d.updReload f).pins = d.pins := rfl
@[simp] theorem updReload_free (d : Device) (f : ReloadSt → ReloadSt) : (d.updReload f).free = d.free := rfl

@[simp] theorem updCheck_check (d : Device) (f : CheckWords → CheckWords) : (d.updCheck f).check = f d.check := rfl
@[simp] theorem updCheck_start (d : Device) (f : CheckWords → CheckWords) : (d.updCheck f).start = d.start := rfl
@[simp] theorem updCheck_loader (d : Device) (f : CheckWords → CheckWords) : (d.updCheck f).loader = d.loader := rfl
@[simp] theorem updCheck_button (d : Device) (f : CheckWords → CheckWords) : (d.updCheck f).button = d.button := rfl
@[simp] theorem updCheck_mode (d : Device) (f : CheckWords → CheckWords) : (d.updCheck f).mode = d.mode := rfl
@[simp] theorem updCheck_bootp (d : Device) (f : CheckWords → CheckWords) : (d.updCheck f).bootp = d.bootp := rfl
@[simp] theorem updCheck_arbs (d : Device) (f : CheckWords → CheckWords) : (d.updCheck f).arbs = d.arbs := rfl
@[simp] theorem updCheck_clk (d : Device) (f : CheckWords → CheckWords) : (d.updCheck f).clk = d.clk := rfl
@[simp] theorem updCheck_isl (d : Device) (f : CheckWords → CheckWords) : (d.updCheck f).isl = d.isl := rfl
@[simp] theorem updCheck_cvn (d : Device) (f : CheckWords → CheckWords) : (d.updCheck f).cvn = d.cvn := rfl
@[simp] theorem updCheck_halt (d : Device) (f : CheckWords → CheckWords) : (d.updCheck f).halt = d.halt := rfl
@[simp] theorem updCheck_slots (d : Device) (f : CheckWords → CheckWords) : (d.updCheck f).slots = d.slots := rfl
@[simp] theorem updCheck_quads (d : Device) (f : CheckWords → CheckWords) : (d.updCheck f).quads = d.quads := rfl
@[simp] theorem updCheck_chans (d : Device) (f : CheckWords → CheckWords) : (d.updCheck f).chans = d.chans := rfl
@[simp] theorem updCheck_profs (d : Device) (f : CheckWords → CheckWords) : (d.updCheck f).profs = d.profs := rfl
@[simp] theorem updCheck_paths (d : Device) (f : CheckWords → CheckWords) : (d.updCheck f).paths = d.paths := rfl
@[simp] theorem updCheck_srcs (d : Device) (f : CheckWords → CheckWords) : (d.updCheck f).srcs = d.srcs := rfl
@[simp] theorem updCheck_bus (d : Device) (f : CheckWords → CheckWords) : (d.updCheck f).bus = d.bus := rfl
@[simp] theorem updCheck_stg (d : Device) (f : CheckWords → CheckWords) : (d.updCheck f).stg = d.stg := rfl
@[simp] theorem updCheck_mods (d : Device) (f : CheckWords → CheckWords) : (d.updCheck f).mods = d.mods := rfl
@[simp] theorem updCheck_seqs (d : Device) (f : CheckWords → CheckWords) : (d.updCheck f).seqs = d.seqs := rfl
@[simp] theorem updCheck_rings (d : Device) (f : CheckWords → CheckWords) : (d.updCheck f).rings = d.rings := rfl
@[simp] theorem updCheck_writers (d : Device) (f : CheckWords → CheckWords) : (d.updCheck f).writers = d.writers := rfl
@[simp] theorem updCheck_nobind (d : Device) (f : CheckWords → CheckWords) : (d.updCheck f).nobind = d.nobind := rfl
@[simp] theorem updCheck_cal (d : Device) (f : CheckWords → CheckWords) : (d.updCheck f).cal = d.cal := rfl
@[simp] theorem updCheck_therm (d : Device) (f : CheckWords → CheckWords) : (d.updCheck f).therm = d.therm := rfl
@[simp] theorem updCheck_hk (d : Device) (f : CheckWords → CheckWords) : (d.updCheck f).hk = d.hk := rfl
@[simp] theorem updCheck_faults (d : Device) (f : CheckWords → CheckWords) : (d.updCheck f).faults = d.faults := rfl
@[simp] theorem updCheck_col (d : Device) (f : CheckWords → CheckWords) : (d.updCheck f).col = d.col := rfl
@[simp] theorem updCheck_memory (d : Device) (f : CheckWords → CheckWords) : (d.updCheck f).memory = d.memory := rfl
@[simp] theorem updCheck_reload (d : Device) (f : CheckWords → CheckWords) : (d.updCheck f).reload = d.reload := rfl
@[simp] theorem updCheck_sup (d : Device) (f : CheckWords → CheckWords) : (d.updCheck f).sup = d.sup := rfl
@[simp] theorem updCheck_pins (d : Device) (f : CheckWords → CheckWords) : (d.updCheck f).pins = d.pins := rfl
@[simp] theorem updCheck_free (d : Device) (f : CheckWords → CheckWords) : (d.updCheck f).free = d.free := rfl

@[simp] theorem drive_start (d : Device) : (drive d).start = d.start := rfl
@[simp] theorem drive_loader (d : Device) : (drive d).loader = d.loader := rfl
@[simp] theorem drive_check (d : Device) : (drive d).check = d.check := rfl
@[simp] theorem drive_button (d : Device) : (drive d).button = d.button := rfl
@[simp] theorem drive_mode (d : Device) : (drive d).mode = d.mode := rfl
@[simp] theorem drive_bootp (d : Device) : (drive d).bootp = d.bootp := rfl
@[simp] theorem drive_arbs (d : Device) : (drive d).arbs = d.arbs := rfl
@[simp] theorem drive_clk (d : Device) : (drive d).clk = d.clk := rfl
@[simp] theorem drive_isl (d : Device) : (drive d).isl = d.isl := rfl
@[simp] theorem drive_cvn (d : Device) : (drive d).cvn = d.cvn := rfl
@[simp] theorem drive_halt (d : Device) : (drive d).halt = d.halt := rfl
@[simp] theorem drive_slots (d : Device) : (drive d).slots = d.slots := rfl
@[simp] theorem drive_quads (d : Device) : (drive d).quads = d.quads := rfl
@[simp] theorem drive_chans (d : Device) : (drive d).chans = d.chans := rfl
@[simp] theorem drive_profs (d : Device) : (drive d).profs = d.profs := rfl
@[simp] theorem drive_paths (d : Device) : (drive d).paths = d.paths := rfl
@[simp] theorem drive_srcs (d : Device) : (drive d).srcs = d.srcs := rfl
@[simp] theorem drive_bus (d : Device) : (drive d).bus = d.bus := rfl
@[simp] theorem drive_stg (d : Device) : (drive d).stg = d.stg := rfl
@[simp] theorem drive_mods (d : Device) : (drive d).mods = d.mods := rfl
@[simp] theorem drive_seqs (d : Device) : (drive d).seqs = d.seqs := rfl
@[simp] theorem drive_rings (d : Device) : (drive d).rings = d.rings := rfl
@[simp] theorem drive_writers (d : Device) : (drive d).writers = d.writers := rfl
@[simp] theorem drive_nobind (d : Device) : (drive d).nobind = d.nobind := rfl
@[simp] theorem drive_cal (d : Device) : (drive d).cal = d.cal := rfl
@[simp] theorem drive_therm (d : Device) : (drive d).therm = d.therm := rfl
@[simp] theorem drive_hk (d : Device) : (drive d).hk = d.hk := rfl
@[simp] theorem drive_faults (d : Device) : (drive d).faults = d.faults := rfl
@[simp] theorem drive_col (d : Device) : (drive d).col = d.col := rfl
@[simp] theorem drive_memory (d : Device) : (drive d).memory = d.memory := rfl
@[simp] theorem drive_reload (d : Device) : (drive d).reload = d.reload := rfl
@[simp] theorem drive_sup (d : Device) : (drive d).sup = d.sup := rfl
@[simp] theorem drive_free (d : Device) : (drive d).free = d.free := rfl

@[simp] theorem pass_start (n : Nat) (d : Device) : (pass n d).start = d.start := rfl
@[simp] theorem waitUp_start (n : Nat) (d : Device) : (waitUp n d).start = d.start := rfl
@[simp] theorem waitLoc_start (n : Nat) (d : Device) : (waitLoc n d).start = d.start := rfl
@[simp] theorem pass_loader (n : Nat) (d : Device) : (pass n d).loader = d.loader := rfl
@[simp] theorem waitUp_loader (n : Nat) (d : Device) : (waitUp n d).loader = d.loader := rfl
@[simp] theorem waitLoc_loader (n : Nat) (d : Device) : (waitLoc n d).loader = d.loader := rfl
@[simp] theorem pass_check (n : Nat) (d : Device) : (pass n d).check = d.check := rfl
@[simp] theorem waitUp_check (n : Nat) (d : Device) : (waitUp n d).check = d.check := rfl
@[simp] theorem waitLoc_check (n : Nat) (d : Device) : (waitLoc n d).check = d.check := rfl
@[simp] theorem pass_button (n : Nat) (d : Device) : (pass n d).button = d.button := rfl
@[simp] theorem waitUp_button (n : Nat) (d : Device) : (waitUp n d).button = d.button := rfl
@[simp] theorem waitLoc_button (n : Nat) (d : Device) : (waitLoc n d).button = d.button := rfl
@[simp] theorem pass_mode (n : Nat) (d : Device) : (pass n d).mode = d.mode := rfl
@[simp] theorem waitUp_mode (n : Nat) (d : Device) : (waitUp n d).mode = d.mode := rfl
@[simp] theorem waitLoc_mode (n : Nat) (d : Device) : (waitLoc n d).mode = d.mode := rfl
@[simp] theorem pass_bootp (n : Nat) (d : Device) : (pass n d).bootp = d.bootp := rfl
@[simp] theorem waitUp_bootp (n : Nat) (d : Device) : (waitUp n d).bootp = d.bootp := rfl
@[simp] theorem waitLoc_bootp (n : Nat) (d : Device) : (waitLoc n d).bootp = d.bootp := rfl
@[simp] theorem pass_arbs (n : Nat) (d : Device) : (pass n d).arbs = d.arbs := rfl
@[simp] theorem waitUp_arbs (n : Nat) (d : Device) : (waitUp n d).arbs = d.arbs := rfl
@[simp] theorem waitLoc_arbs (n : Nat) (d : Device) : (waitLoc n d).arbs = d.arbs := rfl
@[simp] theorem pass_isl (n : Nat) (d : Device) : (pass n d).isl = d.isl := rfl
@[simp] theorem waitUp_isl (n : Nat) (d : Device) : (waitUp n d).isl = d.isl := rfl
@[simp] theorem waitLoc_isl (n : Nat) (d : Device) : (waitLoc n d).isl = d.isl := rfl
@[simp] theorem pass_cvn (n : Nat) (d : Device) : (pass n d).cvn = d.cvn := rfl
@[simp] theorem waitUp_cvn (n : Nat) (d : Device) : (waitUp n d).cvn = d.cvn := rfl
@[simp] theorem waitLoc_cvn (n : Nat) (d : Device) : (waitLoc n d).cvn = d.cvn := rfl
@[simp] theorem pass_halt (n : Nat) (d : Device) : (pass n d).halt = d.halt := rfl
@[simp] theorem waitUp_halt (n : Nat) (d : Device) : (waitUp n d).halt = d.halt := rfl
@[simp] theorem waitLoc_halt (n : Nat) (d : Device) : (waitLoc n d).halt = d.halt := rfl
@[simp] theorem pass_slots (n : Nat) (d : Device) : (pass n d).slots = d.slots := rfl
@[simp] theorem waitUp_slots (n : Nat) (d : Device) : (waitUp n d).slots = d.slots := rfl
@[simp] theorem waitLoc_slots (n : Nat) (d : Device) : (waitLoc n d).slots = d.slots := rfl
@[simp] theorem pass_quads (n : Nat) (d : Device) : (pass n d).quads = d.quads := rfl
@[simp] theorem waitUp_quads (n : Nat) (d : Device) : (waitUp n d).quads = d.quads := rfl
@[simp] theorem waitLoc_quads (n : Nat) (d : Device) : (waitLoc n d).quads = d.quads := rfl
@[simp] theorem pass_chans (n : Nat) (d : Device) : (pass n d).chans = d.chans := rfl
@[simp] theorem waitUp_chans (n : Nat) (d : Device) : (waitUp n d).chans = d.chans := rfl
@[simp] theorem waitLoc_chans (n : Nat) (d : Device) : (waitLoc n d).chans = d.chans := rfl
@[simp] theorem pass_profs (n : Nat) (d : Device) : (pass n d).profs = d.profs := rfl
@[simp] theorem waitUp_profs (n : Nat) (d : Device) : (waitUp n d).profs = d.profs := rfl
@[simp] theorem waitLoc_profs (n : Nat) (d : Device) : (waitLoc n d).profs = d.profs := rfl
@[simp] theorem pass_paths (n : Nat) (d : Device) : (pass n d).paths = d.paths := rfl
@[simp] theorem waitUp_paths (n : Nat) (d : Device) : (waitUp n d).paths = d.paths := rfl
@[simp] theorem waitLoc_paths (n : Nat) (d : Device) : (waitLoc n d).paths = d.paths := rfl
@[simp] theorem pass_srcs (n : Nat) (d : Device) : (pass n d).srcs = d.srcs := rfl
@[simp] theorem waitUp_srcs (n : Nat) (d : Device) : (waitUp n d).srcs = d.srcs := rfl
@[simp] theorem waitLoc_srcs (n : Nat) (d : Device) : (waitLoc n d).srcs = d.srcs := rfl
@[simp] theorem pass_bus (n : Nat) (d : Device) : (pass n d).bus = d.bus := rfl
@[simp] theorem waitUp_bus (n : Nat) (d : Device) : (waitUp n d).bus = d.bus := rfl
@[simp] theorem waitLoc_bus (n : Nat) (d : Device) : (waitLoc n d).bus = d.bus := rfl
@[simp] theorem pass_stg (n : Nat) (d : Device) : (pass n d).stg = d.stg := rfl
@[simp] theorem waitUp_stg (n : Nat) (d : Device) : (waitUp n d).stg = d.stg := rfl
@[simp] theorem waitLoc_stg (n : Nat) (d : Device) : (waitLoc n d).stg = d.stg := rfl
@[simp] theorem pass_mods (n : Nat) (d : Device) : (pass n d).mods = d.mods := rfl
@[simp] theorem waitUp_mods (n : Nat) (d : Device) : (waitUp n d).mods = d.mods := rfl
@[simp] theorem waitLoc_mods (n : Nat) (d : Device) : (waitLoc n d).mods = d.mods := rfl
@[simp] theorem pass_seqs (n : Nat) (d : Device) : (pass n d).seqs = d.seqs := rfl
@[simp] theorem waitUp_seqs (n : Nat) (d : Device) : (waitUp n d).seqs = d.seqs := rfl
@[simp] theorem waitLoc_seqs (n : Nat) (d : Device) : (waitLoc n d).seqs = d.seqs := rfl
@[simp] theorem pass_rings (n : Nat) (d : Device) : (pass n d).rings = d.rings := rfl
@[simp] theorem waitUp_rings (n : Nat) (d : Device) : (waitUp n d).rings = d.rings := rfl
@[simp] theorem waitLoc_rings (n : Nat) (d : Device) : (waitLoc n d).rings = d.rings := rfl
@[simp] theorem pass_writers (n : Nat) (d : Device) : (pass n d).writers = d.writers := rfl
@[simp] theorem waitUp_writers (n : Nat) (d : Device) : (waitUp n d).writers = d.writers := rfl
@[simp] theorem waitLoc_writers (n : Nat) (d : Device) : (waitLoc n d).writers = d.writers := rfl
@[simp] theorem pass_nobind (n : Nat) (d : Device) : (pass n d).nobind = d.nobind := rfl
@[simp] theorem waitUp_nobind (n : Nat) (d : Device) : (waitUp n d).nobind = d.nobind := rfl
@[simp] theorem waitLoc_nobind (n : Nat) (d : Device) : (waitLoc n d).nobind = d.nobind := rfl
@[simp] theorem pass_cal (n : Nat) (d : Device) : (pass n d).cal = d.cal := rfl
@[simp] theorem waitUp_cal (n : Nat) (d : Device) : (waitUp n d).cal = d.cal := rfl
@[simp] theorem waitLoc_cal (n : Nat) (d : Device) : (waitLoc n d).cal = d.cal := rfl
@[simp] theorem pass_therm (n : Nat) (d : Device) : (pass n d).therm = d.therm := rfl
@[simp] theorem waitUp_therm (n : Nat) (d : Device) : (waitUp n d).therm = d.therm := rfl
@[simp] theorem waitLoc_therm (n : Nat) (d : Device) : (waitLoc n d).therm = d.therm := rfl
@[simp] theorem pass_hk (n : Nat) (d : Device) : (pass n d).hk = d.hk := rfl
@[simp] theorem waitUp_hk (n : Nat) (d : Device) : (waitUp n d).hk = d.hk := rfl
@[simp] theorem waitLoc_hk (n : Nat) (d : Device) : (waitLoc n d).hk = d.hk := rfl
@[simp] theorem pass_faults (n : Nat) (d : Device) : (pass n d).faults = d.faults := rfl
@[simp] theorem waitUp_faults (n : Nat) (d : Device) : (waitUp n d).faults = d.faults := rfl
@[simp] theorem waitLoc_faults (n : Nat) (d : Device) : (waitLoc n d).faults = d.faults := rfl
@[simp] theorem pass_col (n : Nat) (d : Device) : (pass n d).col = d.col := rfl
@[simp] theorem waitUp_col (n : Nat) (d : Device) : (waitUp n d).col = d.col := rfl
@[simp] theorem waitLoc_col (n : Nat) (d : Device) : (waitLoc n d).col = d.col := rfl
@[simp] theorem pass_memory (n : Nat) (d : Device) : (pass n d).memory = d.memory := rfl
@[simp] theorem waitUp_memory (n : Nat) (d : Device) : (waitUp n d).memory = d.memory := rfl
@[simp] theorem waitLoc_memory (n : Nat) (d : Device) : (waitLoc n d).memory = d.memory := rfl
@[simp] theorem pass_reload (n : Nat) (d : Device) : (pass n d).reload = d.reload := rfl
@[simp] theorem waitUp_reload (n : Nat) (d : Device) : (waitUp n d).reload = d.reload := rfl
@[simp] theorem waitLoc_reload (n : Nat) (d : Device) : (waitLoc n d).reload = d.reload := rfl
@[simp] theorem pass_sup (n : Nat) (d : Device) : (pass n d).sup = d.sup := rfl
@[simp] theorem waitUp_sup (n : Nat) (d : Device) : (waitUp n d).sup = d.sup := rfl
@[simp] theorem waitLoc_sup (n : Nat) (d : Device) : (waitLoc n d).sup = d.sup := rfl
@[simp] theorem pass_pins (n : Nat) (d : Device) : (pass n d).pins = d.pins := rfl
@[simp] theorem waitUp_pins (n : Nat) (d : Device) : (waitUp n d).pins = d.pins := rfl
@[simp] theorem waitLoc_pins (n : Nat) (d : Device) : (waitLoc n d).pins = d.pins := rfl
@[simp] theorem pass_free (n : Nat) (d : Device) : (pass n d).free = d.free := rfl
@[simp] theorem waitUp_free (n : Nat) (d : Device) : (waitUp n d).free = d.free := rfl
@[simp] theorem waitLoc_free (n : Nat) (d : Device) : (waitLoc n d).free = d.free := rfl
@[simp] theorem arbRequest_start (i : Fin 99) (k : Nat) (d : Device) : (arbRequest i k d).start = d.start := rfl
@[simp] theorem arbWithdraw_start (i : Fin 99) (k : Nat) (d : Device) : (arbWithdraw i k d).start = d.start := rfl
@[simp] theorem arbRelease_start (i : Fin 99) (k : Nat) (d : Device) : (arbRelease i k d).start = d.start := rfl
@[simp] theorem arbRequest_loader (i : Fin 99) (k : Nat) (d : Device) : (arbRequest i k d).loader = d.loader := rfl
@[simp] theorem arbWithdraw_loader (i : Fin 99) (k : Nat) (d : Device) : (arbWithdraw i k d).loader = d.loader := rfl
@[simp] theorem arbRelease_loader (i : Fin 99) (k : Nat) (d : Device) : (arbRelease i k d).loader = d.loader := rfl
@[simp] theorem arbRequest_check (i : Fin 99) (k : Nat) (d : Device) : (arbRequest i k d).check = d.check := rfl
@[simp] theorem arbWithdraw_check (i : Fin 99) (k : Nat) (d : Device) : (arbWithdraw i k d).check = d.check := rfl
@[simp] theorem arbRelease_check (i : Fin 99) (k : Nat) (d : Device) : (arbRelease i k d).check = d.check := rfl
@[simp] theorem arbRequest_button (i : Fin 99) (k : Nat) (d : Device) : (arbRequest i k d).button = d.button := rfl
@[simp] theorem arbWithdraw_button (i : Fin 99) (k : Nat) (d : Device) : (arbWithdraw i k d).button = d.button := rfl
@[simp] theorem arbRelease_button (i : Fin 99) (k : Nat) (d : Device) : (arbRelease i k d).button = d.button := rfl
@[simp] theorem arbRequest_mode (i : Fin 99) (k : Nat) (d : Device) : (arbRequest i k d).mode = d.mode := rfl
@[simp] theorem arbWithdraw_mode (i : Fin 99) (k : Nat) (d : Device) : (arbWithdraw i k d).mode = d.mode := rfl
@[simp] theorem arbRelease_mode (i : Fin 99) (k : Nat) (d : Device) : (arbRelease i k d).mode = d.mode := rfl
@[simp] theorem arbRequest_bootp (i : Fin 99) (k : Nat) (d : Device) : (arbRequest i k d).bootp = d.bootp := rfl
@[simp] theorem arbWithdraw_bootp (i : Fin 99) (k : Nat) (d : Device) : (arbWithdraw i k d).bootp = d.bootp := rfl
@[simp] theorem arbRelease_bootp (i : Fin 99) (k : Nat) (d : Device) : (arbRelease i k d).bootp = d.bootp := rfl
@[simp] theorem arbRequest_clk (i : Fin 99) (k : Nat) (d : Device) : (arbRequest i k d).clk = d.clk := rfl
@[simp] theorem arbWithdraw_clk (i : Fin 99) (k : Nat) (d : Device) : (arbWithdraw i k d).clk = d.clk := rfl
@[simp] theorem arbRelease_clk (i : Fin 99) (k : Nat) (d : Device) : (arbRelease i k d).clk = d.clk := rfl
@[simp] theorem arbRequest_isl (i : Fin 99) (k : Nat) (d : Device) : (arbRequest i k d).isl = d.isl := rfl
@[simp] theorem arbWithdraw_isl (i : Fin 99) (k : Nat) (d : Device) : (arbWithdraw i k d).isl = d.isl := rfl
@[simp] theorem arbRelease_isl (i : Fin 99) (k : Nat) (d : Device) : (arbRelease i k d).isl = d.isl := rfl
@[simp] theorem arbRequest_cvn (i : Fin 99) (k : Nat) (d : Device) : (arbRequest i k d).cvn = d.cvn := rfl
@[simp] theorem arbWithdraw_cvn (i : Fin 99) (k : Nat) (d : Device) : (arbWithdraw i k d).cvn = d.cvn := rfl
@[simp] theorem arbRelease_cvn (i : Fin 99) (k : Nat) (d : Device) : (arbRelease i k d).cvn = d.cvn := rfl
@[simp] theorem arbRequest_halt (i : Fin 99) (k : Nat) (d : Device) : (arbRequest i k d).halt = d.halt := rfl
@[simp] theorem arbWithdraw_halt (i : Fin 99) (k : Nat) (d : Device) : (arbWithdraw i k d).halt = d.halt := rfl
@[simp] theorem arbRelease_halt (i : Fin 99) (k : Nat) (d : Device) : (arbRelease i k d).halt = d.halt := rfl
@[simp] theorem arbRequest_slots (i : Fin 99) (k : Nat) (d : Device) : (arbRequest i k d).slots = d.slots := rfl
@[simp] theorem arbWithdraw_slots (i : Fin 99) (k : Nat) (d : Device) : (arbWithdraw i k d).slots = d.slots := rfl
@[simp] theorem arbRelease_slots (i : Fin 99) (k : Nat) (d : Device) : (arbRelease i k d).slots = d.slots := rfl
@[simp] theorem arbRequest_quads (i : Fin 99) (k : Nat) (d : Device) : (arbRequest i k d).quads = d.quads := rfl
@[simp] theorem arbWithdraw_quads (i : Fin 99) (k : Nat) (d : Device) : (arbWithdraw i k d).quads = d.quads := rfl
@[simp] theorem arbRelease_quads (i : Fin 99) (k : Nat) (d : Device) : (arbRelease i k d).quads = d.quads := rfl
@[simp] theorem arbRequest_chans (i : Fin 99) (k : Nat) (d : Device) : (arbRequest i k d).chans = d.chans := rfl
@[simp] theorem arbWithdraw_chans (i : Fin 99) (k : Nat) (d : Device) : (arbWithdraw i k d).chans = d.chans := rfl
@[simp] theorem arbRelease_chans (i : Fin 99) (k : Nat) (d : Device) : (arbRelease i k d).chans = d.chans := rfl
@[simp] theorem arbRequest_profs (i : Fin 99) (k : Nat) (d : Device) : (arbRequest i k d).profs = d.profs := rfl
@[simp] theorem arbWithdraw_profs (i : Fin 99) (k : Nat) (d : Device) : (arbWithdraw i k d).profs = d.profs := rfl
@[simp] theorem arbRelease_profs (i : Fin 99) (k : Nat) (d : Device) : (arbRelease i k d).profs = d.profs := rfl
@[simp] theorem arbRequest_paths (i : Fin 99) (k : Nat) (d : Device) : (arbRequest i k d).paths = d.paths := rfl
@[simp] theorem arbWithdraw_paths (i : Fin 99) (k : Nat) (d : Device) : (arbWithdraw i k d).paths = d.paths := rfl
@[simp] theorem arbRelease_paths (i : Fin 99) (k : Nat) (d : Device) : (arbRelease i k d).paths = d.paths := rfl
@[simp] theorem arbRequest_srcs (i : Fin 99) (k : Nat) (d : Device) : (arbRequest i k d).srcs = d.srcs := rfl
@[simp] theorem arbWithdraw_srcs (i : Fin 99) (k : Nat) (d : Device) : (arbWithdraw i k d).srcs = d.srcs := rfl
@[simp] theorem arbRelease_srcs (i : Fin 99) (k : Nat) (d : Device) : (arbRelease i k d).srcs = d.srcs := rfl
@[simp] theorem arbRequest_bus (i : Fin 99) (k : Nat) (d : Device) : (arbRequest i k d).bus = d.bus := rfl
@[simp] theorem arbWithdraw_bus (i : Fin 99) (k : Nat) (d : Device) : (arbWithdraw i k d).bus = d.bus := rfl
@[simp] theorem arbRelease_bus (i : Fin 99) (k : Nat) (d : Device) : (arbRelease i k d).bus = d.bus := rfl
@[simp] theorem arbRequest_stg (i : Fin 99) (k : Nat) (d : Device) : (arbRequest i k d).stg = d.stg := rfl
@[simp] theorem arbWithdraw_stg (i : Fin 99) (k : Nat) (d : Device) : (arbWithdraw i k d).stg = d.stg := rfl
@[simp] theorem arbRelease_stg (i : Fin 99) (k : Nat) (d : Device) : (arbRelease i k d).stg = d.stg := rfl
@[simp] theorem arbRequest_mods (i : Fin 99) (k : Nat) (d : Device) : (arbRequest i k d).mods = d.mods := rfl
@[simp] theorem arbWithdraw_mods (i : Fin 99) (k : Nat) (d : Device) : (arbWithdraw i k d).mods = d.mods := rfl
@[simp] theorem arbRelease_mods (i : Fin 99) (k : Nat) (d : Device) : (arbRelease i k d).mods = d.mods := rfl
@[simp] theorem arbRequest_seqs (i : Fin 99) (k : Nat) (d : Device) : (arbRequest i k d).seqs = d.seqs := rfl
@[simp] theorem arbWithdraw_seqs (i : Fin 99) (k : Nat) (d : Device) : (arbWithdraw i k d).seqs = d.seqs := rfl
@[simp] theorem arbRelease_seqs (i : Fin 99) (k : Nat) (d : Device) : (arbRelease i k d).seqs = d.seqs := rfl
@[simp] theorem arbRequest_rings (i : Fin 99) (k : Nat) (d : Device) : (arbRequest i k d).rings = d.rings := rfl
@[simp] theorem arbWithdraw_rings (i : Fin 99) (k : Nat) (d : Device) : (arbWithdraw i k d).rings = d.rings := rfl
@[simp] theorem arbRelease_rings (i : Fin 99) (k : Nat) (d : Device) : (arbRelease i k d).rings = d.rings := rfl
@[simp] theorem arbRequest_writers (i : Fin 99) (k : Nat) (d : Device) : (arbRequest i k d).writers = d.writers := rfl
@[simp] theorem arbWithdraw_writers (i : Fin 99) (k : Nat) (d : Device) : (arbWithdraw i k d).writers = d.writers := rfl
@[simp] theorem arbRelease_writers (i : Fin 99) (k : Nat) (d : Device) : (arbRelease i k d).writers = d.writers := rfl
@[simp] theorem arbRequest_nobind (i : Fin 99) (k : Nat) (d : Device) : (arbRequest i k d).nobind = d.nobind := rfl
@[simp] theorem arbWithdraw_nobind (i : Fin 99) (k : Nat) (d : Device) : (arbWithdraw i k d).nobind = d.nobind := rfl
@[simp] theorem arbRelease_nobind (i : Fin 99) (k : Nat) (d : Device) : (arbRelease i k d).nobind = d.nobind := rfl
@[simp] theorem arbRequest_cal (i : Fin 99) (k : Nat) (d : Device) : (arbRequest i k d).cal = d.cal := rfl
@[simp] theorem arbWithdraw_cal (i : Fin 99) (k : Nat) (d : Device) : (arbWithdraw i k d).cal = d.cal := rfl
@[simp] theorem arbRelease_cal (i : Fin 99) (k : Nat) (d : Device) : (arbRelease i k d).cal = d.cal := rfl
@[simp] theorem arbRequest_therm (i : Fin 99) (k : Nat) (d : Device) : (arbRequest i k d).therm = d.therm := rfl
@[simp] theorem arbWithdraw_therm (i : Fin 99) (k : Nat) (d : Device) : (arbWithdraw i k d).therm = d.therm := rfl
@[simp] theorem arbRelease_therm (i : Fin 99) (k : Nat) (d : Device) : (arbRelease i k d).therm = d.therm := rfl
@[simp] theorem arbRequest_hk (i : Fin 99) (k : Nat) (d : Device) : (arbRequest i k d).hk = d.hk := rfl
@[simp] theorem arbWithdraw_hk (i : Fin 99) (k : Nat) (d : Device) : (arbWithdraw i k d).hk = d.hk := rfl
@[simp] theorem arbRelease_hk (i : Fin 99) (k : Nat) (d : Device) : (arbRelease i k d).hk = d.hk := rfl
@[simp] theorem arbRequest_faults (i : Fin 99) (k : Nat) (d : Device) : (arbRequest i k d).faults = d.faults := rfl
@[simp] theorem arbWithdraw_faults (i : Fin 99) (k : Nat) (d : Device) : (arbWithdraw i k d).faults = d.faults := rfl
@[simp] theorem arbRelease_faults (i : Fin 99) (k : Nat) (d : Device) : (arbRelease i k d).faults = d.faults := rfl
@[simp] theorem arbRequest_col (i : Fin 99) (k : Nat) (d : Device) : (arbRequest i k d).col = d.col := rfl
@[simp] theorem arbWithdraw_col (i : Fin 99) (k : Nat) (d : Device) : (arbWithdraw i k d).col = d.col := rfl
@[simp] theorem arbRelease_col (i : Fin 99) (k : Nat) (d : Device) : (arbRelease i k d).col = d.col := rfl
@[simp] theorem arbRequest_memory (i : Fin 99) (k : Nat) (d : Device) : (arbRequest i k d).memory = d.memory := rfl
@[simp] theorem arbWithdraw_memory (i : Fin 99) (k : Nat) (d : Device) : (arbWithdraw i k d).memory = d.memory := rfl
@[simp] theorem arbRelease_memory (i : Fin 99) (k : Nat) (d : Device) : (arbRelease i k d).memory = d.memory := rfl
@[simp] theorem arbRequest_reload (i : Fin 99) (k : Nat) (d : Device) : (arbRequest i k d).reload = d.reload := rfl
@[simp] theorem arbWithdraw_reload (i : Fin 99) (k : Nat) (d : Device) : (arbWithdraw i k d).reload = d.reload := rfl
@[simp] theorem arbRelease_reload (i : Fin 99) (k : Nat) (d : Device) : (arbRelease i k d).reload = d.reload := rfl
@[simp] theorem arbRequest_sup (i : Fin 99) (k : Nat) (d : Device) : (arbRequest i k d).sup = d.sup := rfl
@[simp] theorem arbWithdraw_sup (i : Fin 99) (k : Nat) (d : Device) : (arbWithdraw i k d).sup = d.sup := rfl
@[simp] theorem arbRelease_sup (i : Fin 99) (k : Nat) (d : Device) : (arbRelease i k d).sup = d.sup := rfl
@[simp] theorem arbRequest_pins (i : Fin 99) (k : Nat) (d : Device) : (arbRequest i k d).pins = d.pins := rfl
@[simp] theorem arbWithdraw_pins (i : Fin 99) (k : Nat) (d : Device) : (arbWithdraw i k d).pins = d.pins := rfl
@[simp] theorem arbRelease_pins (i : Fin 99) (k : Nat) (d : Device) : (arbRelease i k d).pins = d.pins := rfl
@[simp] theorem arbRequest_free (i : Fin 99) (k : Nat) (d : Device) : (arbRequest i k d).free = d.free := rfl
@[simp] theorem arbWithdraw_free (i : Fin 99) (k : Nat) (d : Device) : (arbWithdraw i k d).free = d.free := rfl
@[simp] theorem arbRelease_free (i : Fin 99) (k : Nat) (d : Device) : (arbRelease i k d).free = d.free := rfl

/-! ### Instances -/

@[simp] theorem upd_same {α : Type} {n : Nat} (v : Vector α n) (i : Fin n) (f : α → α) : (upd v i f)[i] = f v[i] := by simp [upd]

theorem upd_other {α : Type} {n : Nat} (v : Vector α n) (i j : Fin n) (f : α → α) (h : j ≠ i) : (upd v i f)[j] = v[j] := by
  have : i.1 ≠ j.1 := fun e => h (Fin.ext e.symm)
  simp [upd, this]

@[simp] theorem mapAll_get {α : Type} {n : Nat} (v : Vector α n) (f : Fin n → α → α) (i : Fin n) : (mapAll v f)[i] = f i v[i] := by simp [mapAll]

/-! ### Time -/

@[simp] theorem pass_up (n : Nat) (d : Device) : (pass n d).clk.up = d.clk.up + n := rfl
@[simp] theorem pass_loc (n : Nat) (d : Device) : (pass n d).clk.loc = d.clk.loc + n := rfl

@[simp] theorem waitUp_up (t : Nat) (d : Device) : (waitUp t d).clk.up = max d.clk.up t := by simp only [waitUp, pass_up]; omega

@[simp] theorem waitLoc_loc (t : Nat) (d : Device) : (waitLoc t d).clk.loc = max d.clk.loc t := by simp only [waitLoc, pass_loc]; omega

/-! ### Meanings -/

/-- A meaning changes the device, drives its pins, and keeps the queue. -/
theorem done_eq (f : Device → Device) (s : State) : done f s = .next { s with dev := drive (f s.dev) } := rfl

end Sys2Proof.Machine
end

