-- ==== Sys2Proof/Laws/Ops.lean ====
section
/-! SUPPORT. Sys2Proof/Laws/Ops.lean: what the shared operations do, said once. -/

namespace Sys2Proof.Machine

/-! ### The output stage -/

/-- R46: outside RUN the output stage holds every power output off. -/
theorem drive_allOff (d : Device) (h : d.start.st ≠ .run) : (drive d).pins.allOff := by
  have hn : d.powerOn = false := by simp [Device.powerOn, h]
  refine ⟨fun n => ?_, fun c => ?_, fun k => ?_⟩ <;> simp [drive, hn]

/-- R14: the output stage never drives both outputs of a slot. -/
theorem drive_noShoot (d : Device) : (drive d).pins.noShoot := by
  rintro n ⟨ha, hb⟩
  simp only [drive, Vector.getElem_map, Fin.getElem_fin, Bool.and_eq_true, Bool.not_eq_true'] at ha hb
  simp [ha.1.2] at hb

theorem drive_legal (d : Device) : (drive d).pinsLegal := by
  refine ⟨drive_noShoot d, fun h => drive_allOff d h, ?_, fun h => ?_, fun h => ?_⟩
  · cases hr : d.powerOn <;> cases hf : d.col.flt <;> cases hd : d.devFault <;> simp [drive, hr, hf, hd]
  · have h' : d.start.st ≠ .run ∨ d.devFault = true := h
    rcases h' with hr | hd
    · simp [drive, Device.powerOn, hr]
    · simp [drive, hd]
  · have ha : (d.powerOn && d.col.alive && !d.devFault) = true := h
    simp only [Bool.and_eq_true, Device.powerOn, decide_eq_true_eq, Bool.not_eq_true'] at ha
    exact ⟨ha.1.1, ha.2⟩

/-- R433: FLT high and ALIVE low outside RUN. -/
theorem drive_notRun (d : Device) (h : d.start.st ≠ .run) :
    (drive d).pins.fltP = true ∧ (drive d).pins.fltN = false ∧ (drive d).pins.alive = false := by
  simp [drive, Device.powerOn, h]

/-! ### Records of the event log -/

theorem putRaise_length (n id : Nat) (r : List Byte) (q : List (List Byte)) : (putRaise n id r q).length = q.length + 1 := by
  simp only [putRaise, List.length_append, List.length_cons, List.length_take, List.length_drop]
  omega

/-- A queue with room takes one record more. -/
theorem logPush_length (k sv id w0 w1 w2 : Nat) (d : Device) (h : d.col.logQ.length < 32) :
    (logPush k sv id w0 w1 w2 d).col.logQ.length = d.col.logQ.length + 1 := by
  by_cases hk : k = 1 <;> simp [logPush, logQueue, h, hk, putRaise_length]

/-- Every record that is no raise joins the queue at its end. -/
theorem logPush_room (k sv id w0 w1 w2 : Nat) (d : Device) (hk : k ≠ 1) (h : d.col.logQ.length < 32) :
    (logPush k sv id w0 w1 w2 d).col.logQ = d.col.logQ ++ [logBytes k sv id w0 w1 w2 d] := by
  simp [logPush, logQueue, h, hk]

theorem logEvent_room (id w0 w1 w2 : Nat) (d : Device) (h : d.col.logQ.length < 32) :
    (logEvent id w0 w1 w2 d).col.logQ = d.col.logQ ++ [logBytes 8 0 id w0 w1 w2 d] := logPush_room _ _ _ _ _ _ d (by decide) h

/-! ### Messages between islands -/

/-- A quadrant hears at once of what housekeeping sends while its channel is free (R20, R26). -/
theorem toQuad_free (q : Quad) (m : Msg) (f : Device → Device) (d : Device) (h : toWaits d q = false) : toQuad q m f d = f d := by
  simp [toQuad, h]

/-- Otherwise the message joins the channel. -/
theorem toQuad_waits (q : Quad) (m : Msg) (f : Device → Device) (d : Device) (h : toWaits d q = true) :
    toQuad q m f d = send (.toQd q) m d := by
  simp [toQuad, h]

/-- The same for what a quadrant sends to housekeeping. -/
theorem toHouse_free (q : Quad) (m : Msg) (f : Device → Device) (d : Device) (h : hkWaits d q = false) : toHouse q m f d = f d := by
  simp [toHouse, h]

theorem toHouse_waits (q : Quad) (m : Msg) (f : Device → Device) (d : Device) (h : hkWaits d q = true) :
    toHouse q m f d = send (.toHk q) m d := by
  simp [toHouse, h]

/-- An event of a quadrant whose channel is free is logged at once. -/
theorem quadEvent_free (q : Quad) (code w0 w1 w2 : Nat) (d : Device) (h : hkWaits d q = false) :
    quadEvent q code w0 w1 w2 d = logEvent code w0 w1 w2 d := toHouse_free q _ _ d h

/-! ### Repetition -/

/-- What every operation of a repetition keeps, the repetition keeps. -/
theorem forEach_induct {α : Type} (P : Device → Prop) (l : List α) (f : α → Device → Device) (hf : ∀ a d, P d → P (f a d)) (d : Device)
    (h : P d) : P (forEach l f d) := by
  unfold forEach
  induction l generalizing d with
  | nil => exact h
  | cons a l ih => exact ih _ (hf a d h)

end Sys2Proof.Machine
end

