-- ==== Sys2Proof/Tests/Slice0.lean ====
section
/-! SUPPORT. Sys2Proof/Tests/Slice0.lean: tests. First the manual's own examples and check values, then an ill-formed command for each check of
WellFormed, which the check refuses, then one theorem `witness_<Name>` for each statement with hypotheses: for each of its clauses, a state and operands that meet them
together. States are made from the state after reset by a list of updates. -/

namespace Sys2Proof.Tests

open Sys2Proof Sys2Proof.Machine

set_option Elab.async false
set_option linter.unusedVariables false
set_option maxRecDepth 8000

/-! ### The manual's examples -/

def ascii9 : List Byte := [0x31, 0x32, 0x33, 0x34, 0x35, 0x36, 0x37, 0x38, 0x39]

/-- R491: check value of the PEC. -/
theorem test_pec_check_value : crc8 ascii9 = 0xF4 := by decide +kernel

/-- R132: check value of the frame CRC. -/
theorem test_frame_crc_check_value : crc16 ascii9 = 0x29B1 := by decide +kernel

/-- R82: check value of the image CRC. -/
theorem test_image_crc_check_value : crc32 ascii9 = 0xCBF43926 := by decide +kernel

/-- R2, "reading multi-byte values": a caravan time of 1,000 s. -/
theorem test_time_bytes : leBytes 8 10000000000 = [0x00, 0xE4, 0x0B, 0x54, 0x02, 0x00, 0x00, 0x00] := by decide +kernel

/-- R254: the example's three samples give 1,000.060 V by the formula. -/
theorem test_relaxed_voltage :
    estimate (1 / 10) (100318 / 100) (100162 / 100) (100084 / 100) = (100006 / 100, 0) := by
  norm_num [estimate, qdiv]

/-- R254: r = 0.5 in the example; `VR_RATIO` has units of 1/256. -/
theorem test_decay_ratio : decayRatio (100318 / 100) (100162 / 100) (100084 / 100) = 128 := by decide +kernel

/-- R255: the replacement value of a small denominator. -/
theorem test_relaxed_voltage_floor : estimate 1 3 2 (3 / 2) = (3 / 2, 1) := by norm_num [estimate]

/-- "Ageing on the memory write port", decision 8: no request is urgent and the event log wins by its rank. -/
theorem test_ageing_8 : (arbDecide 8 1 wport { pending := [(2, 0), (9, 7), (5, 5)] }).granted = [2] ∧
    (arbDecide 8 1 wport { pending := [(2, 0), (9, 7), (5, 5)] }).pending = [(9, 8), (5, 6)] := by decide +kernel

/-- Decision 9: the thermal state has reached the limit and wins. -/
theorem test_ageing_9 : (arbDecide 8 1 wport { pending := [(2, 0), (9, 8), (5, 6)] }).granted = [9] := by decide +kernel

/-- "Calibrating and logging a string voltage": a raw 5,366,000 is corrected to 5,367,658 codes. -/
theorem test_correction :
    (correct { State.reset.dev with memory := { State.reset.dev.memory with
      conf := msetw (msetw (msetw [] (calb 23) 0x40000) (calb 23 + 4) 1074278695) (calb 23 + 8) 1 } } 23 5366000).1 = 5367658 := by
  decide +kernel

/-! ### Operands that no working sender puts on the pins -/

theorem test_illFormed_frame : wf (.haltFrameReceive ⟨[0x02], 0⟩) = false := by decide
theorem test_illFormed_block : wf (.write ⟨0, List.replicate 256 0, none⟩) = false := by decide +kernel
theorem test_illFormed_call : wf (.peek ⟨0, List.replicate 256 0, true, none⟩) = false := by decide +kernel
theorem test_illFormed_boot : wf (.bootTransactionDone (.data (List.replicate 4097 0))) = false := by decide +kernel

/-! ### Witnesses -/

def vset {α : Type} {n : Nat} (v : Vector α n) (i : Fin n) (x : α) : Vector α n := v.set i.1 x i.2

/-- The state after reset, updated, with no command waiting. -/
def wit (l : List (Device → Device)) : State := ⟨l.foldl (fun d f => f d) State.reset.dev, []⟩

/-- A time of day. -/
def T0 : Nat := 4000000123

/-- A block write with its right PEC, as a target at b's address takes it. -/
def sb (b : Device) (code : Byte) (data : List Byte) : BlockWrite :=
  ⟨BitVec.ofNat 8 data.length, data, some (byteOf (crc8 ([addrByte b false, code, BitVec.ofNat 8 data.length] ++ data)))⟩

/-- Words of a configuration whose channel 0 passes the checks. -/
def goodWords : List (Nat × Nat) :=
  [(chb 0 + 4, 58400), (chb 0 + 8, 62000), (chb 0 + 0x40, 2000), (chb 0 + 0x50, 640), (phb 0, 1), (phb 0 + 12, 512 * 16), (phb 0 + 16, 13107),
   (ptb 0 + 8, 160), (srb 0 + 20, 160), (cvb 0, 1), (cvb 0 + 4, 400), (cvb 0 + 0x10, 100), (cvb 0 + 0x14, 100000)] ++
  [(pfb 0 + 4, 20000), (pfb 0 + 8, 30000), (pfb 0 + 0xC, 31000), (pfb 0 + 0x10, 32000 + 65536 * 31000), (pfb 0 + 0x14, 34000), (pfb 0 + 0x18, 16 + 65536 * 320), (pfb 0 + 0x1C, 32)] ++
  [(mdb 0, 1), (mdb 1, 2), (mdb 2, 3), (mdb 3, 4), (mdb 4, 5), (mdb 5, 6), (0x14100, 0x1001), (0x13100, 0x1005)] ++
  ([0, 136, 168].flatMap fun m => [(tmb m + 4, 0x07D00640), (tmb m + 8, 512), (tmb m + 0x10, 0x10000), (tmb m + 0x14, 10000)]) ++
  [(tyb 0, 1 + 16 + 65536 * 400), (tyb 0 + 0x10, 400), (tyb 0 + 0x14, 1000000), (tyb 0 + 0x50, 160), (tyb 0 + 0x54, 1000)]
def goodBase : Memory := goodWords.foldl (fun m p => msetw m p.1 p.2) []

/-- No region armed, no slot or modulator out of its place, a sound base in force. -/
def clean (d : Device) : Device :=
  { d with
    chans := d.chans.map fun (c : ChanSt) => { c with armed := false }
    quads := d.quads.map fun (q : QuadSt) => { q with armed := false }
    loader := { d.loader with base := goodBase, ovls := [], dirBad := none }
    memory := { d.memory with conf := goodBase, swaps := [] }
    mode := { d.mode with active := 0, taken := 0 } }

theorem witness_StepTakesFront : ∃ (c : Instr) (rest : List Instr) (s : State), s.pending = c :: rest :=
  ⟨.busError, [], ⟨State.reset.dev, [.busError]⟩, rfl⟩

theorem witness_EmptyQueueTick :
    (∃ s : State, s.pending = []) ∧
    ∃ s : State, s.pending = [] ∧ (∀ x : Fin 24, s.dev.isl.fifo[x] = []) ∧ (∀ i : Island, s.dev.isl.launches[i] = []) ∧ s.dev.bus.st = .beforeRun :=
  ⟨⟨State.reset, rfl⟩, State.reset, rfl, by decide +kernel, by decide +kernel, rfl⟩

theorem witness_StepKeepsPinsLegal : ∃ s t : State, s.dev.pinsLegal ∧ step s = .next t :=
  ⟨⟨drive State.reset.dev, [.busError]⟩, _, drive_legal _, rfl⟩

theorem witness_StepKeepsMemory : ∃ s t : State, s.dev.memOk ∧ step s = .next t :=
  ⟨⟨State.reset.dev, [.busError]⟩, _, by unfold Device.memOk; decide +kernel, rfl⟩

theorem witness_CommandFrames : ∃ (c : Instr) (s t : State), exec c s = .next t := ⟨.busError, State.reset, _, rfl⟩

theorem witness_ConfigurationWriters : ∃ (c : Instr) (s t : State), exec c s = .next t ∧ t.dev.memory.conf ≠ s.dev.memory.conf :=
  ⟨.resetNLow 200, wit [fun d => { d with memory := { d.memory with conf := [⟨5, 1⟩] } }], _, rfl, by decide +kernel⟩

theorem witness_SlotFrames : ∃ (n k : Slot) (pos : BitVec 20) (s t : State), k ≠ n ∧ exec (.upperCrossing n pos) s = .next t :=
  ⟨5, 6, 3, State.reset, _, by decide, rfl⟩

theorem witness_ChannelFrames : ∃ (c k : Chan) (s t : State), k ≠ c ∧ exec (.cutEndTimer c) s = .next t :=
  ⟨5, 6, State.reset, _, by decide, rfl⟩

theorem witness_NamedWordFrames :
    (∃ (c : Chan) (mask value : BitVec 16) (s t : State), exec (.writeNarrowI c mask value none) s = .next t) ∧
    (∃ s t : State, exec (.fiPecArm true none) s = .next t) ∧
    (∃ s t : State, exec (.fiRailArm 0x305 1 5 none) s = .next t) ∧ ∃ s t : State, exec (.alertRead true) s = .next t :=
  ⟨⟨5, 1, 1, State.reset, _, rfl⟩, ⟨State.reset, _, rfl⟩, ⟨State.reset, _, rfl⟩, State.reset, _, rfl⟩

theorem witness_ResetAndLoad :
    (∃ (ns : ℕ) (s : State), 200 ≤ ns ∧ s.dev.start.st ≠ .reset) ∧
    (∃ (ns : ℕ) (s : State), ns < 50) ∧
    (∃ (st : Straps) (te : Bool) (se : Bool) (s : State), s.dev.start.st = .reset) ∧
    (∃ (s : State), calm .svcHoldExpiry s.dev = true ∧ s.dev.start.st = .svcHold) ∧
    (∃ (v : Bool) (k : BitVec 5) (s : State), s.dev.start.st = .init ∧ s.dev.start.testEn = false ∧ s.dev.start.scanEn = false ∧ bitOf k.toNat 4 =
      true) ∧
    (∃ (s : State), calm .bootSettleExpiry s.dev = true ∧ s.dev.start.st = .load ∧ s.dev.loader.rd = none) ∧
    ∃ (s : State), calm .noImageRetry s.dev = true ∧ s.dev.start.st = .noImage :=
  ⟨
    ⟨250, wit [fun d => { d with start := { d.start with st := .run, straps := { d.start.straps with cvnId := 5 } } }], by decide +kernel⟩,
    ⟨5, ⟨State.reset.dev, []⟩, by decide +kernel⟩,
    ⟨⟨5, 0 % 2 = 0, false⟩, true, true, wit [fun d => { d with start := { d.start with st := .reset } }], by decide +kernel⟩,
    ⟨wit [fun d => { d with start := { d.start with st := .svcHold } }], by decide +kernel⟩,
    ⟨true, 16, wit [fun d => { d with start := { d.start with st := .init, testEn := false, scanEn := false } }], by decide +kernel⟩,
    ⟨wit [fun d => { d with start := { d.start with st := .load } }, fun d => { d with loader := { d.loader with rd := none } }],
      by decide +kernel⟩,
    ⟨wit [fun d => { d with start := { d.start with st := .noImage } }], by decide +kernel⟩⟩

theorem witness_BuildAndPins :
    (∃ (s : State), s.dev.start.st = .build ∧ s.dev.start.modeUnstable = false ∧ s.dev.start.checking = false) ∧
    (∃ (s : State) (g : Region) (rest : List Region), s.dev.check.arming = g :: rest) ∧
    ∃ (s : State) (g : Region) (rest : List Region), s.dev.check.arming = g :: rest ∧ (armCheck s.dev g).reason ≠ 0 :=
  ⟨
    ⟨wit [fun d => { d with isl := { d.isl with stalled := if 0 % 2 = 0 then Vector.replicate 24 false else Vector.replicate 24 true } }, fun d =>
      { d with start := { d.start with st := .build, modeUnstable := false, checking := false } }, fun d =>
      { d with arbs := vset d.arbs (wport) { d.arbs[(wport : Fin 99)] with granted := [10] } }], by decide +kernel⟩,
    ⟨wit [fun d => { d with check := { d.check with arming := (.channel 3) :: [] } }], .channel 3, [], by decide +kernel⟩,
    ⟨wit [fun d => { d with check := { d.check with arming := (.channel 3) :: [] } }], .channel 3, [], by decide +kernel⟩⟩

def wBuildCommands1 : State := wit [fun d => clean d, fun d => { d with start := { d.start with st := .build, checking := true } }, fun d =>
  { d with mode := { d.mode with deb := some d.mode.taken } }, fun d => { d with loader := { d.loader with runEnable := false } }]

theorem witness_StartCheckEnds :
    ∃ (s : State) (r : CheckRes), s.dev.start.st = .build ∧ s.dev.start.checking = true ∧ r = checkAll (structOf s.dev) s.dev.loader.base
      s.dev.loader.ovls s.dev.mode.taken.toNat s.dev (chEnable s.dev) (qdEnable s.dev) ∧ (r.reason ≠ 0 ∨ s.dev.loader.runEnable = false ∨
      s.dev.start.latchAtStart = true) ∧ s.dev.mode.deb = some s.dev.mode.taken :=
    ⟨wBuildCommands1, checkAll (structOf wBuildCommands1.dev) wBuildCommands1.dev.loader.base wBuildCommands1.dev.loader.ovls
      wBuildCommands1.dev.mode.taken.toNat wBuildCommands1.dev (chEnable wBuildCommands1.dev) (qdEnable wBuildCommands1.dev), by decide +kernel⟩

theorem witness_StartCheckAccepts :
    ∃ (s : State), s.dev.start.st = .build ∧ s.dev.start.checking = true ∧ s.dev.loader.runEnable = true ∧ s.dev.start.latchAtStart = false ∧
      (checkAll (structOf s.dev) s.dev.loader.base s.dev.loader.ovls s.dev.mode.taken.toNat s.dev (chEnable s.dev) (qdEnable s.dev)).reason = 0 :=
    ⟨wit [fun d => clean d, fun d => { d with start := { d.start with st := .build, checking := true, latchAtStart := false } }, fun d =>
      { d with loader := { d.loader with runEnable := true } }], by decide +kernel⟩

theorem witness_ArmCheckInConfigured :
    ∃ (s : State) (c : Chan) (rest : List Region), s.dev.check.arming = .channel c :: rest ∧ (armCheck s.dev (.channel c)).reason = 0 ∧
      s.dev.start.latchAtStart = false ∧ s.dev.start.st = .configured :=
    ⟨wit [fun d => clean d, fun d => { d with check := { d.check with arming := .channel 0 :: [] } }, fun d =>
      { d with start := { d.start with latchAtStart := false, st := .configured } }], 0, [], by decide +kernel⟩

theorem witness_ArmCheckOfChannel :
    ∃ (s : State) (c : Chan) (rest : List Region), s.dev.check.arming = .channel c :: rest ∧ (armCheck s.dev (.channel c)).reason = 0 ∧
      s.dev.start.latchAtStart = false ∧ s.dev.start.st = .run ∧ (s.dev.chans[c]).armed = false :=
    ⟨wit [fun d => clean d, fun d => { d with check := { d.check with arming := .channel 0 :: [] } }, fun d =>
      { d with start := { d.start with latchAtStart := false, st := .run } }, fun d => d.updChan 0 fun e => { e with armed := false }], 0, [],
      by decide +kernel⟩

theorem witness_ArmCheckOfQuadrant :
    ∃ (s : State) (q : Quad) (rest : List Region), s.dev.check.arming = .quadrant q :: rest ∧ (armCheck s.dev (.quadrant q)).reason = 0 ∧
      s.dev.start.latchAtStart = false ∧ s.dev.start.st = .run ∧ (s.dev.quads[q]).armed = false :=
    ⟨wit [fun d => clean d, fun d => { d with check := { d.check with arming := .quadrant 0 :: [] } }, fun d =>
      { d with start := { d.start with latchAtStart := false, st := .run } }, fun d => d.updQuad 0 fun e => { e with armed := false }], 0, [],
      by decide +kernel⟩

theorem witness_PinCommands :
    (∃ (v : BitVec 4) (s : State), calm (.modeSample v) s.dev = true ∧ s.dev.start.st ≠ .reset ∧ s.dev.start.st ≠ .svcHold ∧ s.dev.mode.deb = some
      v) ∧
    (∃ (v : BitVec 4) (s : State), calm (.modeSample v) s.dev = true ∧ s.dev.start.st = .build ∧ s.dev.start.modeUnstable = true ∧ s.dev.mode.last =
      v ∧ 19 ≤ s.dev.mode.run ∧ s.dev.mode.deb ≠ some v) ∧
    (∃ (s : State) (u : ℕ), calm .modeUnstableTimeout s.dev = true ∧ s.dev.start.st = .build ∧ s.dev.start.modeUnstable = true ∧
      s.dev.start.unstableAt = some u ∧ s.dev.col.logQ.length < 32) ∧
    ∃ (p : Straps) (s : State), s.dev.start.st ≠ .reset ∧ s.dev.start.st ≠ .svcHold ∧ p ≠ s.dev.start.straps ∧ s.dev.col.logQ.length < 32 :=
  ⟨
    ⟨5, wit [fun d => { d with mode := { d.mode with deb := some 5 } }], by decide +kernel⟩,
    ⟨5, wit [fun d => { d with start := { d.start with st := .build, modeUnstable := true } }, fun d =>
      { d with mode := { d.mode with last := 5 } }, fun d => { d with mode := { d.mode with run := 25, deb := none } }], by decide +kernel⟩,
    ⟨wit [fun d => { d with start := { d.start with st := .build, modeUnstable := true, unstableAt := some 1000 } }], 1000, by decide +kernel⟩,
    ⟨⟨5, 0 % 2 = 0, false⟩, ⟨State.reset.dev, []⟩, by decide +kernel⟩⟩

def wServiceButton5 : State := wit [fun d =>
  { d with start := { d.start with st := if 0 % 2 = 0 then .configured else .load }, button := { d.button with pressAt := some (d.clk.up - 1000 * 0) } }]

theorem witness_JoinRunAndButton :
    (∃ (s : State), calm .joinTimeout s.dev = true ∧ s.dev.start.st = .join ∧ s.dev.start.resolvedAt = none) ∧
    (∃ (s : State) (u : ℕ), calm .runLaunch s.dev = true ∧ s.dev.start.st = .join ∧ s.dev.start.latchAtStart = false ∧ s.dev.start.resolvedAt = some
      u) ∧
    (∃ (u : ℕ) (t0 : ℕ) (s : State), s.dev.start.st = .join ∧ s.dev.start.latchAtStart = false ∧ s.dev.start.resolvedAt = some u ∧ t0 = msBoundary
      (u + us) ∧ (∀ x : Fin 24, s.dev.isl.fifo[x] = []) ∧ (∀ q : Quad, s.dev.isl.launches[quadIsland q] = []) ∧ s.dev.isl.launches[(4 : Island)] =
      [⟨.run, t0⟩] ∧ bitOf s.dev.isl.clkRun.toNat 4 = true) ∧
    (∃ (s : State), s.dev.button.high = true ∧ s.dev.button.armed = true) ∧
    (∃ (s : State), s.dev.button.high = false) ∧
    (∃ (s : State) (u : ℕ), calm .svcPress8s s.dev = true ∧ s.dev.button.pressAt = some u ∧ s.dev.start.st = .run ∧ svcAllowed s.dev = false) ∧
    (∃ (s : State) (u : ℕ), calm .svcPress8s s.dev = true ∧ s.dev.button.pressAt = some u ∧ s.dev.start.st = .run ∧ svcAllowed s.dev = true) ∧
    (∃ (s : State) (u : ℕ), calm .svcPress8s s.dev = true ∧ s.dev.button.pressAt = some u ∧ s.dev.start.st ≠ .run ∧ s.dev.start.st ≠ .reset ∧
      s.dev.start.st ≠ .svcHold) ∧
    ∃ (s : State) (u : ℕ), calm .svcRampDone s.dev = true ∧ s.dev.button.rampAt = some u ∧ s.dev.start.st = .run :=
  ⟨
    ⟨wit [fun d => { d with start := { d.start with st := .join, resolvedAt := none } }], by decide +kernel⟩,
    ⟨wit [fun d => { d with start := { d.start with st := .join, latchAtStart := false, resolvedAt := some 1000 } }], 1000, by decide +kernel⟩,
    ⟨1000, msBoundary (1000 + us), wit [fun d => { d with start := { d.start with st := .join, latchAtStart := false, resolvedAt := some 1000 } },
      fun d => { d with isl := { d.isl with launches := vset d.isl.launches ((4 : Island)) ([⟨.run, (msBoundary (1000 + us))⟩]) } }, fun d =>
      { d with isl := { d.isl with clkRun := 0x1F, fifo := Vector.replicate 24 [], launches := (Vector.replicate 5 []).set 4 [⟨.run, (msBoundary (1000 + us))⟩] }, clk := { d.clk with qtime := Vector.replicate 4 d.clk.loc } }],
      by decide +kernel⟩,
    ⟨wit [fun d => { d with button := { d.button with high := true, armed := true } }], by decide +kernel⟩,
    ⟨wit [fun d => { d with button := { d.button with high := false } }], by decide +kernel⟩,
    ⟨wit [fun d => { d with button := { d.button with pressAt := some 1000 } }, fun d => { d with start := { d.start with st := .run } }], 1000,
      by decide +kernel⟩,
    ⟨wit [fun d => { d with button := { d.button with pressAt := some 1000 } }, fun d => { d with start := { d.start with st := .run } }, fun d =>
      { d with loader := { d.loader with svcReset0 := true } }], 1000, by decide +kernel⟩,
    ⟨wServiceButton5, wServiceButton5.dev.clk.up - 1000 * 0, by decide +kernel⟩,
    ⟨wit [fun d => { d with button := { d.button with rampAt := some 1000 } }, fun d => { d with start := { d.start with st := .run } }], 1000,
      by decide +kernel⟩⟩

theorem witness_BootTransactions :
    (∃ (o : ℕ) (img : Bool) (off : ℕ) (dat : List Byte) (s : State), o < 3 ∧ s.dev.bootp.cur = some (o, .pageWrite img off dat) ∧
      s.dev.bootp.started = true) ∧
    (∃ (o : Fin 3) (img : Bool) (off : ℕ) (n : ℕ) (s : State), s.dev.bootp.cur = some (o.1, .read img off n) ∧ s.dev.bootp.started = true ∧
      s.dev.bootp.tries[o] < 3) ∧
    (∃ (o : Fin 3) (img : Bool) (off : ℕ) (dat : List Byte) (at0 : ℕ) (s : State), calm .ackPollTimer s.dev = true ∧ s.dev.bootp.pollAt = some at0 ∧
      s.dev.bootp.page = some (o.1, .pageWrite img off dat)) ∧
    ∃ (o : Fin 3) (tx : BootTx) (at0 : ℕ) (s : State), calm .pageWriteTimeout s.dev = true ∧ s.dev.bootp.pageEnd = some at0 ∧ s.dev.bootp.page =
      some (o.1, tx) ∧ s.dev.bootp.tries[o] < 3 :=
  ⟨
    ⟨1, true, 5, [7], wit [fun d => { d with bootp := { d.bootp with cur := some (1, .pageWrite true 5 [7]), started := true } }],
      by decide +kernel⟩,
    ⟨1, true, 5, 5, wit [fun d => { d with bootp := { d.bootp with cur := some ((1 : Fin 3).1, .read true 5 5), started := true } }],
      by decide +kernel⟩,
    ⟨1, true, 5, (List.range 8).map fun i => BitVec.ofNat 8 (i*7+0), 1000, wit [fun d =>
      { d with bootp := { d.bootp with pollAt := some 1000, page := some ((1 : Fin 3).1, .pageWrite true 5 ((List.range 8).map fun i => BitVec.ofNat 8 (i*7+0))) } }],
      by decide +kernel⟩,
    ⟨1, .poll false 64, 1000, wit [fun d =>
      { d with bootp := { d.bootp with pageEnd := some 1000, page := some ((1 : Fin 3).1, (.poll false 64)) } }], by decide +kernel⟩⟩

theorem witness_TimeFrames :
    (∃ (s : State), calm .timeFrameBoundary s.dev = true ∧ s.dev.start.st ≠ .reset ∧ s.dev.start.st ≠ .init ∧ s.dev.cvn.source = false) ∧
    (∃ (s : State), calm .timeFrameBoundary s.dev = true ∧ s.dev.start.st ≠ .reset ∧ s.dev.start.st ≠ .init ∧ s.dev.cvn.source = true) ∧
    (∃ (tf : List Byte) (more : List (List Byte)), (frameChips tf).length ≤ 242) ∧
    (∃ (s : State), calm .timeFrameBoundary s.dev = true ∧ s.dev.start.st = .run ∧ s.dev.cvn.source = false ∧ s.dev.devFault = false ∧
      s.dev.col.resumeAt = none ∧ s.dev.col.aliveRun = true) ∧
    (∃ (s : State) (r : Roll) (rest : List Roll), calm .insertionSlot s.dev = true ∧ s.dev.cvn.rollQ = r :: rest ∧ r.kind ≠ 8) ∧
    (∃ (s : State) (r : Roll) (rest : List Roll), calm .insertionSlot s.dev = true ∧ s.dev.cvn.rollQ = r :: rest ∧ r.kind = 8) ∧
    (∃ (f : FrameRx) (s : State), frameOk f = true ∧ s.dev.start.st ≠ .reset ∧ s.dev.start.st ≠ .init ∧ framePayload 1 10 0 f.bytes = none) ∧
    (∃ (f : FrameRx) (p : List Byte) (tl : List Byte) (s : State), frameOk f = true ∧ s.dev.start.st ≠ .reset ∧ s.dev.start.st ≠ .init ∧
      framePayload 1 10 0 f.bytes = some (p, tl) ∧ s.dev.cvn.source = false ∧ s.dev.cvn.timeState = .hold ∧ takesTime s.dev = true) ∧
    (∃ (f : FrameRx) (p : List Byte) (tl : List Byte) (s : State), frameOk f = true ∧ s.dev.start.st ≠ .reset ∧ s.dev.start.st ≠ .init ∧
      framePayload 1 10 0 f.bytes = some (p, tl) ∧ s.dev.cvn.source = true ∧ fld p 9 1 % 16 = s.dev.start.straps.cvnId.toNat) ∧
    (∃ (q : Quad) (n : ℕ) (s : State), bitOf s.dev.isl.clkRun.toNat q.1 = true ∧ s.dev.clk.qload[q] = some n) ∧
    (∃ (q : Quad) (s : State), bitOf s.dev.isl.clkRun.toNat q.1 = true ∧ s.dev.clk.qload[q] = none ∧ (s.dev.clk.loc + 1 < s.dev.clk.qtime[q] ∨
      s.dev.clk.qtime[q] + 1 < s.dev.clk.loc)) ∧
    ∃ (q : Quad) (s : State), bitOf s.dev.isl.clkRun.toNat q.1 = false :=
  ⟨
    ⟨wit [fun d => { d with start := { d.start with st := .run } }, fun d => { d with cvn := { d.cvn with source := false } }], by decide +kernel⟩,
    ⟨wit [fun d => { d with start := { d.start with st := .run } }, fun d => { d with cvn := { d.cvn with source := true } }], by decide +kernel⟩,
    ⟨(List.range 8).map fun i => BitVec.ofNat 8 (i*7+0), [], by decide +kernel⟩,
    ⟨wit [fun d => { d with start := { d.start with st := .run } }, fun d => { d with cvn := { d.cvn with source := false } }, fun d =>
      { d with col := { d.col with resumeAt := none, aliveRun := true } }], by decide +kernel⟩,
    ⟨wit [fun d => { d with cvn := { d.cvn with rollQ := (⟨1, 3, 0, 77, 88⟩ : Roll) :: [] } }], ⟨1, 3, 0, 77, 88⟩, [], by decide +kernel⟩,
    ⟨wit [fun d => { d with cvn := { d.cvn with rollQ := (⟨8, 3, 0, 77, 88⟩ : Roll) :: [] } }], ⟨8, 3, 0, 77, 88⟩, [], by decide +kernel⟩,
    ⟨⟨[1,2,3], T0⟩, wit [fun d => { d with start := { d.start with st := .run, straps := { d.start.straps with cvnId := 5 } } }],
      by decide +kernel⟩,
    ⟨⟨frameBytes 1 (leBytes 8 40000000 ++ [0, 3]), 123⟩, leBytes 8 40000000 ++ [0, 3], [], wit [fun d =>
      { d with start := { d.start with st := .run, straps := { d.start.straps with cvnId := 5 } } }, fun d =>
      { d with cvn := { d.cvn with source := false, timeState := .hold } }], by decide +kernel⟩,
    ⟨⟨frameBytes 1 (leBytes 8 40000000 ++ [0, 5]), 25599999⟩, leBytes 8 40000000 ++ [0, 5], [], wit [fun d =>
      { d with start := { d.start with st := .run, straps := { d.start.straps with cvnId := 5 } } }, fun d =>
      { d with cvn := { d.cvn with source := true } }], by decide +kernel⟩,
    ⟨0, 5, wit [fun d => { d with clk := { d.clk with qload := vset d.clk.qload (0) (some 5) } }, fun d =>
      { d with isl := { d.isl with clkRun := 0x1F } }], by decide +kernel⟩,
    ⟨0, wit [fun d => { d with isl := { d.isl with clkRun := 0x1F } }, fun d => { d with clk := { d.clk with qload := vset d.clk.qload (0) none } },
      fun d => { d with clk := { d.clk with qtime := vset d.clk.qtime 0 (d.clk.loc + 5) } }], by decide +kernel⟩,
    ⟨0, wit [fun d => { d with isl := { d.isl with clkRun := BitVec.ofNat 5 (0 % 2 * 16) } }], by decide +kernel⟩⟩

theorem witness_References :
    (∃ (s : State), s.dev.cvn.source = true) ∧
    (∃ (s : State), s.dev.cvn.source = true) ∧
    (∃ (s : State), takesTime s.dev = true ∧ s.dev.cvn.timeState ≠ .hold) ∧
    ∃ (s : State), takesTime s.dev = true ∧ s.dev.cvn.timeState = .hold :=
  ⟨
    ⟨wit [fun d => { d with cvn := { d.cvn with source := true } }], by decide +kernel⟩,
    ⟨wit [fun d => { d with cvn := { d.cvn with source := true } }], by decide +kernel⟩,
    ⟨wit [fun d => { d with start := { d.start with st := .run, straps := { d.start.straps with cvnId := 5 } } }, fun d =>
      { d with cvn := { d.cvn with timeState := .track } }], by decide +kernel⟩,
    ⟨wit [fun d => { d with cvn := { d.cvn with timeState := .hold } }], by decide +kernel⟩⟩

theorem witness_Membership :
    (∃ (f : FrameRx) (p : List Byte) (tl : List Byte) (s : State), frameOk f = true ∧ s.dev.start.st = .join ∧ framePayload 4 10 0 f.bytes = some
      (p, tl) ∧ fld p 0 1 = 4 ∧ s.dev.cvn.source = false ∧ fld p 1 1 % 16 = s.dev.start.straps.cvnId.toNat ∧ s.dev.cvn.joinTried.isSome = true ∧
      s.dev.cvn.member = false ∧ s.dev.start.resolvedAt = none ∧ s.dev.cvn.role ≠ .alone) ∧
    (∃ (f : FrameRx) (p : List Byte) (tl : List Byte) (s : State), frameOk f = true ∧ s.dev.start.st ≠ .reset ∧ s.dev.start.st ≠ .init ∧
      framePayload 4 10 0 f.bytes = some (p, tl) ∧ fld p 0 1 = 1 ∧ s.dev.cvn.source = true ∧ bitOf s.dev.cvn.members.toNat (fld p 1 1 % 16) = false)
      ∧
    (∃ (u : ℕ) (s : State), calm .joinRetryTimer s.dev = true ∧ s.dev.cvn.joinTried = some u ∧ s.dev.start.st = .run ∧ s.dev.cvn.member = false ∧
      s.dev.cvn.source = false) ∧
    (∃ (s : State), calm .presentTimer s.dev = true ∧ s.dev.cvn.member = true ∧ s.dev.cvn.source = false ∧ s.dev.start.st = .run) ∧
    ∃ (id : Fin 16) (s : State), calm (.memberDropTimeout id) s.dev = true ∧ s.dev.cvn.source = true ∧ id.1 ≠ s.dev.start.straps.cvnId.toNat ∧ bitOf
      s.dev.cvn.members.toNat id.1 = true :=
  ⟨
    ⟨⟨frameBytes 4 ([4, 5] ++ leBytes 4 77 ++ leBytes 4 1), 5⟩, [4, 5] ++ leBytes 4 77 ++ leBytes 4 1, [], wit [fun d =>
      { d with start := { d.start with st := .run, straps := { d.start.straps with cvnId := 5 } } }, fun d =>
      { d with start := { d.start with st := .join, resolvedAt := none } }, fun d =>
      { d with cvn := { d.cvn with source := false, member := false } }, fun d =>
      { d with cvn := { d.cvn with joinTried := some 5, role := .follower } }], by decide +kernel⟩,
    ⟨⟨frameBytes 4 ([1, 9] ++ leBytes 4 77 ++ leBytes 4 1), 5⟩, [1, 9] ++ leBytes 4 77 ++ leBytes 4 1, [], wit [fun d =>
      { d with start := { d.start with st := .run, straps := { d.start.straps with cvnId := 5 } } }, fun d =>
      { d with cvn := { d.cvn with source := true } }, fun d => { d with cvn := { d.cvn with members := 0x21 } }], by decide +kernel⟩,
    ⟨1000, wit [fun d => { d with cvn := { d.cvn with joinTried := some 1000, member := false, source := false } }, fun d =>
      { d with start := { d.start with st := .run } }], by decide +kernel⟩,
    ⟨wit [fun d => { d with cvn := { d.cvn with member := true, source := false } }, fun d => { d with start := { d.start with st := .run } }],
      by decide +kernel⟩,
    ⟨9, wit [fun d => { d with start := { d.start with st := .run, straps := { d.start.straps with cvnId := 5 } } }, fun d =>
      { d with cvn := { d.cvn with source := true } }, fun d => { d with cvn := { d.cvn with members := 0xFFFF } }], by decide +kernel⟩⟩

theorem witness_LeaderChanges :
    (∃ (u : ℕ) (s : State), calm .leaderLostTimeout s.dev = true ∧ s.dev.cvn.timeSeen = some u ∧ s.dev.cvn.source = false ∧ s.dev.cvn.leaderLost =
      false) ∧
    (∃ (u : ℕ) (s : State), calm .deputyTakeover s.dev = true ∧ s.dev.cvn.timeSeen = some u ∧ s.dev.cvn.role = .deputy ∧ s.dev.cvn.member = true ∧
      s.dev.start.st = .run) ∧
    (∃ (h : Word) (s : State), calm .handbackSwitch s.dev = true ∧ s.dev.cvn.handback = some h ∧ s.dev.halt.ran = true ∧ s.dev.halt.last = h ∧
      s.dev.cvn.role = .acting) ∧
    (∃ (h : Word) (s : State), calm .handbackSwitch s.dev = true ∧ s.dev.cvn.handback = some h ∧ s.dev.halt.ran = true ∧ s.dev.halt.last = h ∧
      s.dev.cvn.role = .returning) ∧
    (∃ (u : ℕ) (s : State), calm .rivalLeader s.dev = true ∧ s.dev.cvn.rivalSince = some u ∧ s.dev.cvn.source = true ∧ s.dev.cvn.rivalActing =
      decide (s.dev.cvn.role = .acting)) ∧
    ∃ (u : ℕ) (s : State), calm .rivalLeader s.dev = true ∧ s.dev.cvn.rivalSince = some u ∧ s.dev.cvn.source = true ∧ s.dev.cvn.rivalActing ≠ decide
      (s.dev.cvn.role = .acting) :=
  ⟨
    ⟨1000, wit [fun d => { d with cvn := { d.cvn with timeSeen := some 1000, source := false, leaderLost := false } }], by decide +kernel⟩,
    ⟨1000, wit [fun d => { d with cvn := { d.cvn with timeSeen := some 1000, role := .deputy, member := true } }, fun d =>
      { d with start := { d.start with st := .run } }], by decide +kernel⟩,
    ⟨5, wit [fun d => { d with cvn := { d.cvn with handback := some 5, role := .acting } }, fun d =>
      { d with halt := { d.halt with ran := true, last := 5 } }], by decide +kernel⟩,
    ⟨5, wit [fun d => { d with cvn := { d.cvn with handback := some 5, role := .returning } }, fun d =>
      { d with halt := { d.halt with ran := true, last := 5 } }], by decide +kernel⟩,
    ⟨1000, wit [fun d => { d with cvn := { d.cvn with rivalSince := some 1000, source := true, rivalActing := decide (d.cvn.role = .acting) } }],
      by decide +kernel⟩,
    ⟨1000, wit [fun d => { d with cvn := { d.cvn with rivalSince := some 1000, source := true } }, fun d =>
      { d with cvn := { d.cvn with rivalActing := !decide (d.cvn.role = .acting) } }], by decide +kernel⟩⟩

theorem witness_OverlayChange :
    (∃ (v : BitVec 4) (s : State), s.dev.mode.deb = some v ∧ leads s.dev = true ∧ v ≠ s.dev.mode.active ∧ s.dev.mode.phase = 0 ∧
      s.dev.mode.cancelLeft = 0 ∧ s.dev.mode.blocked = false) ∧
    (∃ (v : BitVec 4) (s : State), s.dev.mode.leaderCheck = some v ∧ (checkOverlay s.dev v.toNat).reason = 0) ∧
    (∃ (v : BitVec 4) (s : State), s.dev.mode.leaderCheck = some v ∧ (checkOverlay s.dev v.toNat).reason ≠ 0) ∧
    (∃ (v : BitVec 4) (s : State), s.dev.mode.memberCheck = some v) ∧
    (∃ (u : ℕ) (s : State), calm .proposeTimeout s.dev = true ∧ s.dev.mode.phase = 1 ∧ s.dev.mode.proposedAt = some u) ∧
    (∃ (u : ℕ) (s : State), calm .modeDisagreeTimer s.dev = true ∧ s.dev.mode.disagreeSince = some u ∧ pinsDiffer s.dev = true ∧
      s.dev.mode.disagreeDone = false) ∧
    (∃ (f : FrameRx) (p : List Byte) (tl : List Byte) (s : State), frameOk f = true ∧ framePayload 3 6 8 f.bytes = some (p, tl) ∧ fld p 0 1 = 2 ∧
      s.dev.start.st = .run ∧ s.dev.cvn.role ≠ .alone ∧ s.dev.cvn.member = true ∧ s.dev.cvn.source = false) ∧
    ∃ (f : FrameRx) (p : List Byte) (tl : List Byte) (v : BitVec 4) (ok : Bool) (s : State), frameOk f = true ∧ framePayload 3 6 8 f.bytes = some
      (p, tl) ∧ fld p 0 1 = 1 ∧ s.dev.start.st = .run ∧ s.dev.cvn.role ≠ .alone ∧ s.dev.cvn.member = true ∧ s.dev.cvn.source = false ∧
      s.dev.mode.answer = some (v, ok) ∧ v = BitVec.ofNat 4 (fld p 1 1) ∧ s.dev.start.accRails = 0 :=
  ⟨
    ⟨1 + BitVec.ofNat 4 0, wit [fun d => { d with start := { d.start with st := .run } }, fun d =>
      { d with cvn := { d.cvn with source := true, member := true } }, fun d =>
      { d with mode := { d.mode with deb := some (1 + BitVec.ofNat 4 0), phase := 0, cancelLeft := 0, blocked := false } }, fun d =>
      { d with start := { d.start with st := .run }, cvn := { d.cvn with source := true, member := true, role := .leader }, mode := { d.mode with deb := some (1 + BitVec.ofNat 4 0), active := 0, phase := 0, cancelLeft := 0, blocked := false } }],
      by decide +kernel⟩,
    ⟨0, wit [fun d =>
      { d with loader := { d.loader with base := goodBase, ovls := [], dirBad := none }, chans := d.chans.map fun (e : ChanSt) => { e with armed := false }, quads := d.quads.map fun (e : QuadSt) => { e with armed := false } },
      fun d => { d with mode := { d.mode with leaderCheck := some 0 } }], by decide +kernel⟩,
    ⟨5, wit [fun d => { d with mode := { d.mode with leaderCheck := some 5 } }], by decide +kernel⟩,
    ⟨5, wit [fun d => { d with mode := { d.mode with memberCheck := some 5 } }], by decide +kernel⟩,
    ⟨1000, wit [fun d => { d with mode := { d.mode with phase := 1, proposedAt := some 1000 } }], by decide +kernel⟩,
    ⟨1000, wit [fun d => { d with start := { d.start with st := .run, straps := { d.start.straps with cvnId := 5 } } }, fun d =>
      { d with mode := { d.mode with disagreeSince := some 1000, disagreeDone := false } }, fun d =>
      { d with cvn := { d.cvn with member := true, source := false }, mode := { d.mode with deb := some 3, active := 2 } }], by decide +kernel⟩,
    ⟨⟨frameBytes 3 ([2, 3] ++ leBytes 4 99) ++ leBytes 8 0x1234, 5⟩, [2, 3] ++ leBytes 4 99, leBytes 8 0x1234, wit [fun d =>
      { d with start := { d.start with st := .run, straps := { d.start.straps with cvnId := 5 } } }, fun d =>
      { d with start := { d.start with st := .run } }, fun d => { d with cvn := { d.cvn with member := true, source := false } }, fun d =>
      { d with cvn := { d.cvn with role := .follower } }], by decide +kernel⟩,
    ⟨⟨frameBytes 3 ([1, 3] ++ leBytes 4 99) ++ leBytes 8 0x1234, 5⟩, [1, 3] ++ leBytes 4 99, leBytes 8 0x1234, 3, true, wit [fun d =>
      { d with start := { d.start with st := .run, straps := { d.start.straps with cvnId := 5 } } }, fun d =>
      { d with start := { d.start with st := .run, accRails := 0 } }, fun d => { d with cvn := { d.cvn with member := true, source := false } }, fun
      d => { d with mode := { d.mode with answer := some (3, true) } }, fun d => { d with cvn := { d.cvn with role := .follower } }],
      by decide +kernel⟩⟩

theorem witness_HaltSequence :
    (∃ (f : FrameRx) (p : List Byte) (tl : List Byte) (s : State), frameOk f = true ∧ framePayload 2 16 0 f.bytes = some (p, tl) ∧ followsHalts
      s.dev = true ∧ haltFieldsOk (fld p 12 2) (fld p 14 2) = true ∧ s.dev.cvn.timeState = .track ∧ s.dev.halt.next = none ∧ s.dev.halt.ran = false)
      ∧
    (∃ (f : FrameRx) (p : List Byte) (tl : List Byte) (s : State), frameOk f = true ∧ framePayload 2 16 0 f.bytes = some (p, tl) ∧ followsHalts
      s.dev = true ∧ haltFieldsOk (fld p 12 2) (fld p 14 2) = false) ∧
    (∃ (s : State), calm .haltPredict s.dev = true ∧ followsHalts s.dev = true ∧ s.dev.halt.next = none ∧ s.dev.halt.cur = none ∧
      s.dev.halt.accepted = true) ∧
    (∃ (s : State), calm .haltPredict s.dev = true ∧ followsHalts s.dev = true ∧ s.dev.halt.next = none ∧ s.dev.halt.cur = none ∧
      s.dev.halt.accepted = false) ∧
    (∃ (h : HaltSched) (s : State), calm .haltRampFix s.dev = true ∧ s.dev.halt.next = some h ∧ s.dev.start.st = .run ∧ s.dev.halt.cur = none ∧
      s.dev.cvn.source = true) ∧
    (∃ (h : HaltSched) (s : State), calm .haltRampDown s.dev = true ∧ s.dev.halt.cur = some h ∧ s.dev.start.st = .run ∧ s.dev.halt.trFixed = true ∧
      s.dev.halt.phase = .idle) ∧
    (∃ (h : HaltSched) (s : State), calm .quietWindowStart s.dev = true ∧ s.dev.halt.cur = some h ∧ s.dev.start.st = .run ∧ s.dev.halt.phase =
      .rampDown) ∧
    (∃ (h : HaltSched) (s : State), calm .haltConversionStart s.dev = true ∧ s.dev.halt.cur = some h ∧ s.dev.halt.phase = .quiet ∧
      s.dev.halt.converted = false) ∧
    (∃ (h : HaltSched) (s : State), calm .quietWindowEnd s.dev = true ∧ s.dev.halt.cur = some h ∧ s.dev.halt.phase = .quiet ∧ s.dev.cvn.timeState ≠
      .stepWait) ∧
    (∃ (h : HaltSched) (t0 : ℕ) (s : State), s.dev.halt.cur = some h ∧ s.dev.start.st = .run ∧ s.dev.halt.phase = .rampDown ∧ (∀ x : Fin 24,
      s.dev.isl.fifo[x] = []) ∧ (∀ i : Island, s.dev.isl.launches[i] = [⟨.quietStart, t0⟩]) ∧ s.dev.isl.clkRun = 0b11111 ∧ (∀ q : Quad,
      s.dev.clk.qtime[q] = s.dev.clk.loc)) ∧
    (∃ (h : HaltSched) (t0 : ℕ) (s : State), s.dev.halt.cur = some h ∧ s.dev.start.st = .run ∧ s.dev.halt.phase = .quiet ∧ (∀ x : Fin 24,
      s.dev.isl.fifo[x] = []) ∧ (∀ i : Island, s.dev.isl.launches[i] = [⟨.convStart, t0⟩]) ∧ s.dev.isl.clkRun = 0b11111 ∧ (∀ q : Quad,
      s.dev.clk.qtime[q] = s.dev.clk.loc)) ∧
    ∃ (h : HaltSched) (t0 : ℕ) (s : State), s.dev.halt.cur = some h ∧ s.dev.start.st = .run ∧ s.dev.halt.phase = .quiet ∧ s.dev.cvn.timeState ≠
      .stepWait ∧ (∀ x : Fin 24, s.dev.isl.fifo[x] = []) ∧ (∀ i : Island, s.dev.isl.launches[i] = [⟨.quietEnd, t0⟩]) ∧ s.dev.isl.clkRun = 0b11111 ∧
      (∀ q : Quad, s.dev.clk.qtime[q] = s.dev.clk.loc) :=
  ⟨
    ⟨⟨frameBytes 2 (leBytes 4 500 ++ leBytes 8 6300000 ++ leBytes 2 120 ++ leBytes 2 400), 5⟩, leBytes 4 500 ++ leBytes 8 6300000 ++ leBytes 2 120
      ++ leBytes 2 400, [], wit [fun d => { d with start := { d.start with st := .run, straps := { d.start.straps with cvnId := 5 } } }, fun d =>
      { d with cvn := { d.cvn with member := true, source := false, role := .follower, timeState := .track } }, fun d =>
      { d with cvn := { d.cvn with timeState := .track } }, fun d => { d with halt := { d.halt with next := none, ran := false } }],
      by decide +kernel⟩,
    ⟨⟨frameBytes 2 (leBytes 4 500 ++ leBytes 8 6300000 ++ leBytes 2 0 ++ leBytes 2 400), 5⟩, leBytes 4 500 ++ leBytes 8 6300000 ++ leBytes 2 0 ++
      leBytes 2 400, [], wit [fun d => { d with start := { d.start with st := .run, straps := { d.start.straps with cvnId := 5 } } }, fun d =>
      { d with cvn := { d.cvn with member := true, source := false, role := .follower, timeState := .track } }], by decide +kernel⟩,
    ⟨wit [fun d => { d with start := { d.start with st := .run, straps := { d.start.straps with cvnId := 5 } } }, fun d =>
      { d with cvn := { d.cvn with member := true, source := false, role := .follower, timeState := .track } }, fun d =>
      { d with halt := { d.halt with next := none, cur := none, accepted := true } }], by decide +kernel⟩,
    ⟨wit [fun d => { d with start := { d.start with st := .run } }, fun d =>
      { d with halt := { d.halt with next := none, cur := none, accepted := false } }, fun d =>
      { d with cvn := { d.cvn with source := false, role := .follower, timeState := .track, member := true } }], by decide +kernel⟩,
    ⟨⟨77, T0 + 1000000, 12, 4000000, true⟩, wit [fun d =>
      { d with halt := { d.halt with next := some (⟨77, T0 + 1000000, 12, 4000000, true⟩ : HaltSched), cur := none } }, fun d =>
      { d with start := { d.start with st := .run } }, fun d => { d with cvn := { d.cvn with source := true } }], by decide +kernel⟩,
    ⟨⟨77, T0 + 1000000, 12, 4000000, true⟩, wit [fun d =>
      { d with halt := { d.halt with cur := some (⟨77, T0 + 1000000, 12, 4000000, true⟩ : HaltSched), trFixed := true, phase := .idle } }, fun d =>
      { d with start := { d.start with st := .run } }], by decide +kernel⟩,
    ⟨⟨77, T0 + 1000000, 12, 4000000, true⟩, wit [fun d =>
      { d with halt := { d.halt with cur := some (⟨77, T0 + 1000000, 12, 4000000, true⟩ : HaltSched), phase := .rampDown } }, fun d =>
      { d with start := { d.start with st := .run } }], by decide +kernel⟩,
    ⟨⟨77, T0 + 1000000, 12, 4000000, true⟩, wit [fun d =>
      { d with halt := { d.halt with cur := some (⟨77, T0 + 1000000, 12, 4000000, true⟩ : HaltSched), phase := .quiet, converted := false } }],
      by decide +kernel⟩,
    ⟨⟨77, T0 + 1000000, 12, 4000000, true⟩, wit [fun d =>
      { d with halt := { d.halt with cur := some (⟨77, T0 + 1000000, 12, 4000000, true⟩ : HaltSched), phase := .quiet } }], by decide +kernel⟩,
    ⟨⟨77, T0 + 1000000, 12, 4000000, true⟩, T0 + 500 * 0, wit [fun d =>
      { d with halt := { d.halt with cur := some (⟨77, T0 + 1000000, 12, 4000000, true⟩ : HaltSched), phase := .rampDown } }, fun d =>
      { d with start := { d.start with st := .run } }, fun d => { d with isl := { d.isl with clkRun := 0b11111 } }, fun d =>
      { d with isl := { d.isl with clkRun := 0x1F, fifo := Vector.replicate 24 [], launches := Vector.replicate 5 [⟨.quietStart, (T0 + 500 * 0)⟩] }, clk := { d.clk with qtime := Vector.replicate 4 d.clk.loc } }],
      by decide +kernel⟩,
    ⟨⟨77, T0 + 1000000, 12, 4000000, true⟩, T0 + 500 * 0, wit [fun d =>
      { d with halt := { d.halt with cur := some (⟨77, T0 + 1000000, 12, 4000000, true⟩ : HaltSched), phase := .quiet } }, fun d =>
      { d with start := { d.start with st := .run } }, fun d => { d with isl := { d.isl with clkRun := 0b11111 } }, fun d =>
      { d with isl := { d.isl with clkRun := 0x1F, fifo := Vector.replicate 24 [], launches := Vector.replicate 5 [⟨.convStart, (T0 + 500 * 0)⟩] }, clk := { d.clk with qtime := Vector.replicate 4 d.clk.loc } }],
      by decide +kernel⟩,
    ⟨⟨77, T0 + 1000000, 12, 4000000, true⟩, T0 + 500 * 0, wit [fun d =>
      { d with halt := { d.halt with cur := some (⟨77, T0 + 1000000, 12, 4000000, true⟩ : HaltSched), phase := .quiet } }, fun d =>
      { d with start := { d.start with st := .run } }, fun d => { d with isl := { d.isl with clkRun := 0b11111 } }, fun d =>
      { d with isl := { d.isl with clkRun := 0x1F, fifo := Vector.replicate 24 [], launches := Vector.replicate 5 [⟨.quietEnd, (T0 + 500 * 0)⟩] }, clk := { d.clk with qtime := Vector.replicate 4 d.clk.loc } }],
      by decide +kernel⟩⟩

theorem witness_Crossings :
    (∃ (a : LaunchAct) (time : ℕ) (s : State), s.dev.start.st ≠ .reset ∧ s.dev.start.st ≠ .init ∧ s.dev.clk.loc ≤ time ∧ (s.dev.isl.launches[(4 :
      Island)]).length < 32) ∧
    (∃ (q : Quad) (a : LaunchAct) (time : ℕ) (s : State), s.dev.start.st ≠ .reset ∧ s.dev.start.st ≠ .init ∧ s.dev.isl.stalled[xIndex (.toQd q)] =
      false ∧ s.dev.isl.fifo[xIndex (.toQd q)] = [] ∧ s.dev.clk.qtime[q] ≤ time ∧ (s.dev.isl.launches[quadIsland q]).length < 32) ∧
    (∃ (q : Quad) (a : LaunchAct) (time : ℕ) (s : State), s.dev.start.st ≠ .reset ∧ s.dev.start.st ≠ .init ∧ s.dev.isl.stalled[xIndex (.toQd q)] =
      true) ∧
    (∃ (q : Quad) (a : LaunchAct) (time : ℕ) (s : State), s.dev.start.st ≠ .reset ∧ s.dev.start.st ≠ .init ∧ s.dev.isl.stalled[xIndex (.toQd q)] =
      false ∧ s.dev.isl.fifo[xIndex (.toQd q)] = [] ∧ time < s.dev.clk.qtime[q] ∧ (s.dev.isl.launches[quadIsland q]).length < 32) ∧
    (∃ (a : LaunchAct) (time : ℕ) (s : State), s.dev.start.st ≠ .reset ∧ s.dev.start.st ≠ .init ∧ time < s.dev.clk.loc ∧ (s.dev.isl.launches[(4 :
      Island)]).length < 32 ∧ s.dev.col.logQ.length < 32) ∧
    (∃ (t0 : ℕ) (s : State), s.pending = [] ∧ s.dev.start.st = .run ∧ (∀ x : Fin 24, s.dev.isl.fifo[x] = []) ∧ (∀ q : Quad,
      s.dev.isl.launches[quadIsland q] = []) ∧ s.dev.isl.launches[(4 : Island)] = [⟨.convStart, t0⟩] ∧ bitOf s.dev.isl.clkRun.toNat 4 = true ∧ t0 ≤
      s.dev.clk.loc + 40 ∧ s.dev.bus.st = .beforeRun) ∧
    (∃ (t0 : ℕ) (s : State), s.dev.start.st = .run ∧ (∀ x : Fin 24, s.dev.isl.fifo[x] = []) ∧ (∀ q : Quad, s.dev.isl.launches[quadIsland q] = []) ∧
      s.dev.isl.launches[(4 : Island)] = [⟨.convStart, t0⟩] ∧ bitOf s.dev.isl.clkRun.toNat 4 = true ∧ t0 < nextOf ms s.dev.clk.taken[6]
      s.dev.clk.loc ∧ s.dev.cvn.source = false) ∧
    (∃ (t0 : ℕ) (s : State), s.dev.start.st = .run ∧ (∀ x : Fin 24, s.dev.isl.fifo[x] = []) ∧ (∀ q : Quad, s.dev.isl.launches[quadIsland q] = []) ∧
      s.dev.isl.launches[(4 : Island)] = [⟨.convStart, t0⟩] ∧ bitOf s.dev.isl.clkRun.toNat 4 = true) ∧
    (∃ (q : Quad) (t0 : ℕ) (s : State), s.dev.start.st = .run ∧ (∀ x : Fin 24, s.dev.isl.fifo[x] = []) ∧ (∀ i : Island, i ≠ quadIsland q →
      s.dev.isl.launches[i] = []) ∧ s.dev.isl.launches[quadIsland q] = [⟨.carrierReset (.quadrant q), t0⟩] ∧ bitOf s.dev.isl.clkRun.toNat q.1 = true
      ∧ (s.dev.quads[q]).armed = true) ∧
    (∃ (q : Quad) (l : Launch) (rest : List Msg) (s : State), s.dev.isl.fifo[xIndex (.toQd q)] = .launch l :: rest ∧ s.dev.clk.qtime[q] ≤ l.time ∧
      (s.dev.isl.launches[quadIsland q]).length < 32) ∧
    (∃ (q : Quad) (c : Chan) (i : BitVec 16) (v : BitVec 16) (rest : List Msg) (s : State), s.dev.isl.fifo[xIndex (.toQd q)] = .narrow c i v ::
      rest) ∧
    (∃ (q : Quad) (g : Qty) (rest : List Msg) (s : State), s.dev.isl.fifo[xIndex (.toQd q)] = .gain g :: rest) ∧
    (∃ (q : Quad) (c : Chan) (b : Qty) (rest : List Msg) (s : State), s.dev.isl.fifo[xIndex (.toQd q)] = .budget c b :: rest) ∧
    (∃ (q : Quad) (n : ℕ) (rest : List Msg) (s : State), s.dev.isl.fifo[xIndex (.toQd q)] = .timeLoad n :: rest) ∧
    ∃ (x : Crossing) (s : State), s.dev.isl.fifo[xIndex x] = [] :=
  ⟨
    ⟨.quietStart, T0 + 77777 + 500, wit [fun d => { d with start := { d.start with st := .run, straps := { d.start.straps with cvnId := 5 } } }],
      by decide +kernel⟩,
    ⟨0, .quietStart, 1000, wit [fun d => { d with start := { d.start with st := .run } }, fun d =>
      { d with isl := { d.isl with stalled := vset d.isl.stalled (xIndex (.toQd 0)) false } }, fun d =>
      { d with isl := { d.isl with fifo := vset d.isl.fifo (xIndex (.toQd 0)) ([]) } }], by decide +kernel⟩,
    ⟨0, .quietStart, 5, wit [fun d => { d with start := { d.start with st := .run } }, fun d =>
      { d with isl := { d.isl with stalled := vset d.isl.stalled (xIndex (.toQd 0)) true } }], by decide +kernel⟩,
    ⟨0, .quietStart, T0 - 100, wit [fun d => { d with start := { d.start with st := .run, straps := { d.start.straps with cvnId := 5 } } }, fun d =>
      { d with isl := { d.isl with stalled := vset d.isl.stalled (xIndex (.toQd 0)) false } }, fun d =>
      { d with isl := { d.isl with fifo := vset d.isl.fifo (xIndex (.toQd 0)) ([]) } }, fun d =>
      { d with isl := { d.isl with clkRun := 0x1F }, clk := { d.clk with qtime := Vector.replicate 4 T0 } }], by decide +kernel⟩,
    ⟨.quietStart, 5, wit [fun d => { d with start := { d.start with st := .run } }, fun d => { d with clk := { d.clk with loc := 100 } }],
      by decide +kernel⟩,
    ⟨12, wit [fun d => { d with start := { d.start with st := .run } }, fun d => { d with isl := { d.isl with clkRun := 0x1F } }, fun d =>
      { d with start := { d.start with st := .run } }, fun d =>
      { d with isl := { d.isl with launches := vset d.isl.launches ((4 : Island)) ([⟨.convStart, 12⟩]) } }, fun d =>
      { d with bus := { d.bus with st := .beforeRun } }, fun d => { d with bus := { d.bus with st := .beforeRun } }], by decide +kernel⟩,
    ⟨T0 + 500 * 0, wit [fun d => { d with start := { d.start with st := .run } }, fun d => { d with isl := { d.isl with clkRun := 0x1F } }, fun d =>
      { d with start := { d.start with st := .run } }, fun d =>
      { d with isl := { d.isl with launches := vset d.isl.launches ((4 : Island)) ([⟨.convStart, (T0 + 500 * 0)⟩]) } }, fun d =>
      { d with cvn := { d.cvn with source := false } }, fun d =>
      { d with clk := { d.clk with loc := T0 }, isl := { d.isl with clkRun := 0x1F, fifo := Vector.replicate 24 [], launches := (Vector.replicate 5 []).set 4 [⟨.convStart, T0 + 500 * 0⟩] } }],
      by decide +kernel⟩,
    ⟨T0 + 500 * 0, wit [fun d => { d with start := { d.start with st := .run } }, fun d => { d with isl := { d.isl with clkRun := 0x1F } }, fun d =>
      { d with start := { d.start with st := .run } }, fun d =>
      { d with isl := { d.isl with launches := vset d.isl.launches ((4 : Island)) ([⟨.convStart, (T0 + 500 * 0)⟩]) } }, fun d =>
      { d with clk := { d.clk with loc := T0 }, isl := { d.isl with clkRun := 0x1F, fifo := Vector.replicate 24 [], launches := (Vector.replicate 5 []).set 4 [⟨.convStart, T0 + 500 * 0⟩] } }],
      by decide +kernel⟩,
    ⟨Fin.ofNat _ 0, T0 + 500 * 0, wit [fun d => { d with start := { d.start with st := .run } }, fun d =>
      { d with isl := { d.isl with clkRun := 0x1F } }, fun d => { d with start := { d.start with st := .run } }, fun d =>
      { d with isl := { d.isl with launches := vset d.isl.launches (quadIsland (Fin.ofNat _ 0 : Quad)) ([⟨.carrierReset (.quadrant (Fin.ofNat _ 0 : Quad)), (T0 + 500 * 0)⟩]) } },
      fun d => d.updQuad (Fin.ofNat _ 0 : Quad) fun e => { e with armed := true }, fun d =>
      { d with isl := { d.isl with clkRun := 0x1F, fifo := Vector.replicate 24 [], launches := (Vector.replicate 5 []).set (quadIsland (Fin.ofNat _ 0 : Quad)).1 [⟨.carrierReset (.quadrant (Fin.ofNat _ 0 : Quad)), T0 + 500 * 0⟩] (quadIsland (Fin.ofNat _ 0 : Quad)).2 }, clk := { d.clk with qtime := Vector.replicate 4 d.clk.loc } },
      fun d =>
      { d with start := { d.start with st := .run }, quads := vset d.quads (Fin.ofNat _ 0 : Quad) { d.quads[(Fin.ofNat _ 0 : Quad)] with armed := true } }],
      by decide +kernel⟩,
    ⟨0, ⟨.quietStart, T0⟩, [], wit [fun d =>
      { d with isl := { d.isl with fifo := vset d.isl.fifo (xIndex (.toQd 0)) (.launch (⟨.quietStart, T0⟩ : Launch) :: []) } }], by decide +kernel⟩,
    ⟨0, 3, 5, 5, [], wit [fun d => { d with isl := { d.isl with fifo := vset d.isl.fifo (xIndex (.toQd 0)) (.narrow 3 5 5 :: []) } }],
      by decide +kernel⟩,
    ⟨0, 3, [], wit [fun d => { d with isl := { d.isl with fifo := vset d.isl.fifo (xIndex (.toQd 0)) (.gain 3 :: []) } }], by decide +kernel⟩,
    ⟨0, 3, 3, [], wit [fun d => { d with isl := { d.isl with fifo := vset d.isl.fifo (xIndex (.toQd 0)) (.budget 3 3 :: []) } }],
      by decide +kernel⟩,
    ⟨0, 5, [], wit [fun d => { d with isl := { d.isl with fifo := vset d.isl.fifo (xIndex (.toQd 0)) (.timeLoad 5 :: []) } }], by decide +kernel⟩,
    ⟨.toQd 1, wit [fun d => { d with isl := { d.isl with fifo := vset d.isl.fifo (xIndex (.toQd 1)) ([]) } }], by decide +kernel⟩⟩

theorem witness_CarrierValleys :
    (∃ (n : Slot) (cmp : Cmp) (moved : Bool) (s : State), calm (.carrierValley (.phase n) cmp moved) s.dev = true ∧ (s.dev.slots[n]).running = true
      ∧ memberOf s.dev n = none) ∧
    (∃ (c : Chan) (cmp : Cmp) (moved : Bool) (s : State), calm (.carrierValley (.master c) cmp moved) s.dev = true ∧ (s.dev.chans[c]).running = true
      ∧ (s.dev.chans[c]).resetAt = none) ∧
    (∃ (q : Quad) (cmp : Cmp) (moved : Bool) (s : State), calm (.carrierValley (.quad q) cmp moved) s.dev = true ∧ (s.dev.quads[q]).running = true)
      ∧
    (∃ (n : Slot) (c : Chan) (cmp : Cmp) (moved : Bool) (s : State), calm (.carrierValley (.phase n) cmp moved) s.dev = true ∧
      (s.dev.slots[n]).running = true ∧ memberOf s.dev n = some c ∧ (s.dev.slots[n]).inCycle = false ∧ (s.dev.slots[n]).evRun = 0 ∧
      (s.dev.chans[c]).gate = true ∧ slotBarred s.dev n = false ∧ s.dev.start.st = .run ∧ (s.dev.slots[n]).kth = (s.dev.therm[Fin.ofNat 172
      n.1]).kthQ ∧ zcLevel s.dev c < effPk s.dev c n ∧ (s.dev.slots[n]).yOn = false ∧ (s.dev.slots[n]).yOffAt = 0 ∨ (s.dev.slots[n]).yOffAt + dtX
      s.dev n ≤ 16 * (s.dev.slots[n]).due + (s.dev.slots[n]).ofsNext) ∧
    (∃ (n : Slot) (c : Chan) (cmp : Cmp) (moved : Bool) (s : State), calm (.carrierValley (.phase n) cmp moved) s.dev = true ∧
      (s.dev.slots[n]).running = true ∧ memberOf s.dev n = some c ∧ (s.dev.slots[n]).inCycle = false ∧ (s.dev.slots[n]).evRun = 0 ∧
      (s.dev.chans[c]).gate = true ∧ slotBarred s.dev n = false ∧ (s.dev.slots[n]).kth = (s.dev.therm[Fin.ofNat 172 n.1]).kthQ ∧ zcLevel s.dev c <
      effPk s.dev c n ∧ (s.dev.slots[n]).yOn = false ∧ (s.dev.slots[n]).yOffAt ≠ 0 ∧ 16 * (s.dev.slots[n]).due + (s.dev.slots[n]).ofsNext <
      (s.dev.slots[n]).yOffAt + dtX s.dev n) ∧
    ∃ (n : Slot) (s : State), calm (.deadTimeEnd n) s.dev = true ∧ (s.dev.slots[n]).xWait = true ∧ (s.dev.slots[n]).yOn = false ∧ s.dev.start.st =
      .run :=
  ⟨
    ⟨5, .above, true, wit [fun d => d.updSlot 5 fun e => { e with running := true }], by decide +kernel⟩,
    ⟨3, .above, true, wit [fun d => d.updChan 3 fun e => { e with running := true, resetAt := none }], by decide +kernel⟩,
    ⟨0, .above, true, wit [fun d => d.updQuad 0 fun e => { e with running := true }], by decide +kernel⟩,
    ⟨1, 0, .above, true, wit [fun d => { d with memory := { d.memory with conf := msetw goodBase (phb 1) 1 } }, fun d =>
      { d with slots := d.slots.map fun (e : SlotSt) => { e with forCh := none, repl := none, shedFrom := none, dflt := false, holders := [] } },
      fun d => d.updSlot 1 fun e =>
      { e with running := true, inCycle := false, evRun := 0, kth := (d.therm[Fin.ofNat 172 (1 : Slot).1]).kthQ, yOn := false, yOffAt := 0 }, fun d
      => d.updChan 0 fun e => { e with gate := true }, fun d => { d with start := { d.start with st := .run } }, fun d =>
      { d with chans := vset d.chans 0 { d.chans[(0 : Chan)] with st := .regulate, armed := true, ibase := 5, h := 1, hp := 1, iadd := 1 } }, fun d
      =>
      { d with slots := vset d.slots 1 { d.slots[1] with yOn := false, ofsNext := 0 % 30, yOffAt := if 0 % 2 = 0 then 0 else 16 * (d.slots[1]).due - 90000 } }],
      by decide +kernel⟩,
    ⟨1, 0, .above, true, wit [fun d => { d with memory := { d.memory with conf := msetw goodBase (phb 1) 1 } }, fun d =>
      { d with slots := d.slots.map fun (e : SlotSt) => { e with forCh := none, repl := none, shedFrom := none, dflt := false, holders := [] } },
      fun d => { d with memory := { d.memory with conf := msetw (msetw goodBase (phb 1) 1) (phb 1 + 20) 0xFFFFFFFF } }, fun d => d.updSlot 1 fun e
      => { e with running := true, inCycle := false, evRun := 0, kth := (d.therm[Fin.ofNat 172 (1 : Slot).1]).kthQ, yOn := false }, fun d =>
      d.updChan 0 fun e => { e with gate := true }, fun d => d.updChan 0 fun x =>
      { x with st := .regulate, armed := true, ibase := 5, h := 1, hp := 1, iadd := 1, foldCap := 40 }, fun d => d.updSlot 1 fun x =>
      { x with ofsNext := 3, yOffAt := 50 }], by and_intros <;> decide +kernel⟩,
    ⟨1, wit [fun d =>
      { d with slots := d.slots.map fun (e : SlotSt) => { e with forCh := none, repl := none, shedFrom := none, dflt := false, holders := [] } },
      fun d => d.updSlot 1 fun e => { e with xWait := true, yOn := false }, fun d => { d with start := { d.start with st := .run } }],
      by decide +kernel⟩⟩

theorem witness_OnTimeEnds :
    (∃ (n : Slot) (pos : BitVec 20) (s : State), calm (.upperCrossing n pos) s.dev = true ∧ (s.dev.slots[n]).xOn = true ∧ (s.dev.slots[n]).blanked =
      true) ∧
    (∃ (n : Slot) (pos : BitVec 20) (s : State), calm (.upperCrossing n pos) s.dev = true ∧ (s.dev.slots[n]).xOn = false ∨ (s.dev.slots[n]).blanked
      = false) ∧
    (∃ (n : Slot) (cmp : Cmp) (s : State), calm (.tonMaxReached n cmp) s.dev = true ∧ (s.dev.slots[n]).xOn = true) ∧
    (∃ (n : Slot) (cmp : Cmp) (s : State), calm (.onTimeLimit n cmp) s.dev = true ∧ (s.dev.slots[n]).xOn = true) ∧
    (∃ (n : Slot) (c : Chan) (cmp : Cmp) (s : State), calm (.blankingEnd n cmp) s.dev = true ∧ chanOf s.dev n = some c ∧ (s.dev.slots[n]).xOn = true
      ∧ (s.dev.slots[n]).blanked = false ∧ curCmp s.dev n cmp = .above) ∧
    (∃ (n : Slot) (c : Chan) (cmp : Cmp) (s : State), calm (.blankingEnd n cmp) s.dev = true ∧ chanOf s.dev n = some c ∧ (s.dev.slots[n]).xOn = true
      ∧ (s.dev.slots[n]).blanked = false ∧ curCmp s.dev n cmp ≠ .above ∧ (s.dev.chans[c]).chlim = false) ∧
    ∃ (c : Chan) (cmp : Cmp) (s : State), cmp ≠ .above :=
  ⟨
    ⟨5, 5, wit [fun d => d.updSlot 5 fun e => { e with xOn := true, blanked := true }], by decide +kernel⟩,
    ⟨5, 5, wit [fun d => d.updSlot 5 fun e => { e with xOn := false }], by decide +kernel⟩,
    ⟨5, .above, wit [fun d => d.updSlot 5 fun e => { e with xOn := true }], by decide +kernel⟩,
    ⟨5, .above, wit [fun d => d.updSlot 5 fun e => { e with xOn := true }], by decide +kernel⟩,
    ⟨1, 0, .above, wit [fun d => { d with memory := { d.memory with conf := msetw goodBase (phb 1) 1 } }, fun d =>
      { d with slots := d.slots.map fun (e : SlotSt) => { e with forCh := none, repl := none, shedFrom := none, dflt := false, holders := [] } },
      fun d => d.updSlot 1 fun e => { e with xOn := true, blanked := false }], by decide +kernel⟩,
    ⟨1, 0, .between, wit [fun d => { d with memory := { d.memory with conf := msetw goodBase (phb 1) 1 } }, fun d =>
      { d with slots := d.slots.map fun (e : SlotSt) => { e with forCh := none, repl := none, shedFrom := none, dflt := false, holders := [] } },
      fun d => d.updSlot 1 fun e => { e with xOn := true, blanked := false }, fun d => d.updChan 0 fun e => { e with chlim := false }],
      by decide +kernel⟩,
    ⟨3, .below, ⟨State.reset.dev, []⟩, by decide +kernel⟩⟩

theorem witness_ComplementaryOutput :
    (∃ (n : Slot) (s : State), calm (.deadTimeEnd n) s.dev = true ∧ (s.dev.slots[n]).xWait = false ∧ (s.dev.slots[n]).xWas = true ∧
      (s.dev.slots[n]).xOn = false ∧ (s.dev.slots[n]).yOn = false ∧ (s.dev.slots[n]).yDone = false ∧ (s.dev.slots[n]).shedFrom = none ∧ slotBarred
      s.dev n = false ∧ s.dev.start.st = .run ∧ max ((s.dev.slots[n]).xOffAt + dtY s.dev n) (16 * s.dev.clk.up) < yOffEdge s.dev n) ∧
    (∃ (n : Slot) (s : State), calm (.yOffCount n) s.dev = true ∧ (s.dev.slots[n]).running = true ∧ (s.dev.slots[n]).yOn = true) ∧
    (∃ (n : Slot) (pos : BitVec 20) (s : State), calm (.lowerCrossing n pos) s.dev = true ∧ (s.dev.slots[n]).xWas = true ∧ (s.dev.slots[n]).xOn =
      false ∧ (s.dev.slots[n]).lowSeen = false) ∧
    (∃ (n : Slot) (c : Chan) (pos : BitVec 20) (s : State), calm (.lowerCrossing n pos) s.dev = true ∧ chanOf s.dev n = some c ∧
      (s.dev.slots[n]).yOn = true ∧ (s.dev.slots[n]).yBlanked = true ∧ (deEn s.dev c = true ∨ (s.dev.chans[c]).gate = false)) ∧
    ∃ (n : Slot) (c : Chan) (s : State), calm (.slopeCompStep n) s.dev = true ∧ chanOf s.dev n = some c ∧ (s.dev.slots[n]).xOn = true ∧ csPol s.dev
      n = false :=
  ⟨
    ⟨5, wit [fun d => d.updSlot 5 fun e => { e with xWait := false, xWas := true, xOn := false, yOn := false, yDone := false, shedFrom := none },
      fun d => { d with start := { d.start with st := .run } }, fun d => d.updSlot 5 fun x => { x with due := 400 }], by decide +kernel⟩,
    ⟨5, wit [fun d => d.updSlot 5 fun e => { e with running := true, yOn := true }], by decide +kernel⟩,
    ⟨5, 5, wit [fun d => d.updSlot 5 fun e => { e with xWas := true, xOn := false, lowSeen := false }], by decide +kernel⟩,
    ⟨1, 0, 5, wit [fun d => { d with memory := { d.memory with conf := msetw goodBase (phb 1) 1 } }, fun d =>
      { d with slots := d.slots.map fun (e : SlotSt) => { e with forCh := none, repl := none, shedFrom := none, dflt := false, holders := [] } },
      fun d => d.updSlot 1 fun e => { e with yOn := true, yBlanked := true }, fun d =>
      { d with chans := vset d.chans 0 { d.chans[(0 : Chan)] with gate := false } }], by decide +kernel⟩,
    ⟨1, 0, wit [fun d => { d with memory := { d.memory with conf := msetw goodBase (phb 1) 1 } }, fun d =>
      { d with slots := d.slots.map fun (e : SlotSt) => { e with forCh := none, repl := none, shedFrom := none, dflt := false, holders := [] } },
      fun d => d.updSlot 1 fun e => { e with xOn := true }], by decide +kernel⟩⟩

theorem witness_SlotEvents :
    (∃ (c : Chan) (s : State), calm (.carrierPeak c) s.dev = true ∧ (s.dev.chans[c]).running = true) ∧
    (∃ (n : Slot) (ns : ℕ) (s : State), ns < 10) ∧
    (∃ (n : Slot) (ns : ℕ) (s : State), colRuns s.dev = true ∧ inverted s.dev (0x090 + n.1) = false ∧ 10 ≤ ns) ∧
    (∃ (n : Slot) (s : State), inverted s.dev (0x090 + n.1) = false) ∧
    ∃ (s : State), calm (.carrierReset .device) s.dev = true ∧ s.dev.start.st = .run :=
  ⟨
    ⟨3, wit [fun d => d.updChan 3 fun e => { e with running := true }, fun d =>
      { d with slots := mapAll d.slots fun n (x : SlotSt) => if n.1 % 2 = 0 % 2 then { x with capPrev := some (max d.clk.up ((d.chans[3]).due - (d.chans[3]).m), (x.shadow, (false, (true, 5)))) } else x }],
      by decide +kernel⟩,
    ⟨5, 7, ⟨State.reset.dev, []⟩, by decide +kernel⟩,
    ⟨5, 12, wit [fun d => { d with start := { d.start with st := .run } }], by decide +kernel⟩,
    ⟨5, ⟨State.reset.dev, []⟩, by decide +kernel⟩,
    ⟨wit [fun d => { d with start := { d.start with st := .run } }], by decide +kernel⟩⟩

def wPhaseTimeouts0 : State := wit [fun d => { d with start := { d.start with st := .run } }, fun d => d.updProf 3 fun e =>
  { e with phase := .recover, timedOut := false }, fun d => { d with chans := vset d.chans 3 { d.chans[3] with st := .regulate } }]
def wPhaseTimeouts1 : State := wit [fun d => d.updProf 3 fun e => { e with phase := .finish }, fun d =>
  { d with chans := vset d.chans 3 { d.chans[3] with st := .regulate } }]

theorem witness_ChannelTimers :
    (∃ (c : Chan) (b : Qty) (rest : List Msg) (s : State), s.dev.isl.fifo[xIndex (.toQd (Chan.quad c))] = .budget c b :: rest) ∧
    (∃ (c : Chan) (g : Qty) (b : Qty) (rest : List Msg) (s : State), s.dev.isl.fifo[xIndex (.toQd (Chan.quad c))] = .gain g :: .budget c b :: rest)
      ∧
    (∃ (c : Chan) (s : State), (∀ m ∈ s.dev.isl.fifo[xIndex (.toQd (Chan.quad c))], isBudget c m = false)) ∧
    (∃ (c : Chan) (s : State), calm (.softStartTimeout c) s.dev = true ∧ colRuns s.dev = true ∧ (s.dev.chans[c]).st = .start ∧ (s.dev.chans[c]).gate
      = true ∧ (s.dev.chans[c]).ssRaised = false ∧ (s.dev.chans[c]).ssOver = false ∧ s.dev.halt.phase = .idle) ∧
    (∃ (c : Chan) (s : State), calm (.softStartTimeout c) s.dev = true ∧ (s.dev.chans[c]).st = .start ∧ (s.dev.chans[c]).gate = true ∧
      (s.dev.chans[c]).ssRaised = false ∧ (s.dev.chans[c]).ssOver = true ∧ s.dev.halt.phase = .idle) ∧
    (∃ (s : State), calm .rampFactorUpdate s.dev = true ∧ s.dev.halt.phase = .idle) ∧
    (∃ (s : State), calm .rampFactorUpdate s.dev = true ∧ s.dev.halt.phase = .quiet) ∧
    (∃ (c : Chan) (u : ℕ) (s : State), calm (.cutEndTimer c) s.dev = true ∧ (s.dev.chans[c]).cutOpen = true ∧ (s.dev.chans[c]).cutZeroAt = some u) ∧
    (∃ (c : Chan) (s : State), (s.dev.chans[c]).restart = true ∧ (s.dev.chans[c]).st = .off ∧ (s.dev.chans[c]).hostStopQ = false ∧ s.dev.start.st =
      .run ∧ (armCheck s.dev (.channel c)).reason = 0) ∧
    (∃ (c : Chan) (s : State), (s.dev.chans[c]).restart = true ∧ (s.dev.chans[c]).st = .off ∧ (s.dev.chans[c]).hostStopQ = false ∧ s.dev.start.st =
      .run ∧ (armCheck s.dev (.channel c)).reason ≠ 0) ∧
    (∃ (c : Chan) (u : ℕ) (s : State), calm (.recTimeout c) s.dev = true ∧ colRuns s.dev = true ∧ (s.dev.profs[c]).phase = .recover ∧ phaseTime
      s.dev c = some u ∧ (s.dev.profs[c]).timedOut = false) ∧
    (∃ (c : Chan) (u : ℕ) (s : State), calm (.finTimeout c) s.dev = true ∧ (s.dev.profs[c]).phase = .finish ∧ phaseTime s.dev c = some u) ∧
    ∃ (c : Chan) (u : ℕ) (s : State), calm (.keepTimerExpiry c) s.dev = true ∧ (s.dev.profs[c]).phase = .keep ∧ (s.dev.profs[c]).keepAt = some u :=
  ⟨
    ⟨3, 3, [], wit [fun d => { d with isl := { d.isl with fifo := vset d.isl.fifo (xIndex (.toQd (Chan.quad 3))) (.budget 3 3 :: []) } }],
      by decide +kernel⟩,
    ⟨3, 3, 3, [], wit [fun d =>
      { d with isl := { d.isl with fifo := vset d.isl.fifo (xIndex (.toQd (Chan.quad 3))) (.gain 3 :: .budget 3 3 :: []) } }], by decide +kernel⟩,
    ⟨3, ⟨State.reset.dev, []⟩, by decide +kernel⟩,
    ⟨3, wit [fun d => { d with start := { d.start with st := .run } }, fun d => d.updChan 3 fun e =>
      { e with st := .start, gate := true, ssRaised := false, ssOver := false }, fun d => { d with halt := { d.halt with phase := .idle } }],
      by decide +kernel⟩,
    ⟨3, wit [fun d => d.updChan 3 fun e => { e with st := .start, gate := true, ssRaised := false, ssOver := true }, fun d =>
      { d with halt := { d.halt with phase := .idle } }], by decide +kernel⟩,
    ⟨wit [fun d => { d with halt := { d.halt with phase := .idle } }], by decide +kernel⟩,
    ⟨wit [fun d => { d with halt := { d.halt with phase := .quiet } }], by decide +kernel⟩,
    ⟨3, 1000, wit [fun d => d.updChan 3 fun e => { e with cutOpen := true, cutZeroAt := some 1000 }], by decide +kernel⟩,
    ⟨0, wit [fun d =>
      { d with loader := { d.loader with base := goodBase, ovls := [], dirBad := none }, chans := d.chans.map fun (e : ChanSt) => { e with armed := false }, quads := d.quads.map fun (e : QuadSt) => { e with armed := false } },
      fun d =>
      { d with slots := d.slots.map fun (e : SlotSt) => { e with forCh := none, repl := none, shedFrom := none, dflt := false, holders := [] }, mods := d.mods.map fun (e : ModSt) => { e with acting := none, bad := false }, mode := { d.mode with active := 0 } },
      fun d => d.updChan 0 fun e => { e with restart := true, st := .off, hostStopQ := false }, fun d =>
      { d with start := { d.start with st := .run } }], by decide +kernel⟩,
    ⟨3, wit [fun d => d.updChan 3 fun e => { e with restart := true, st := .off, hostStopQ := false }, fun d =>
      { d with start := { d.start with st := .run } }], by decide +kernel⟩,
    ⟨3, (phaseTime wPhaseTimeouts0.dev 3).getD 0, wPhaseTimeouts0, by decide +kernel⟩,
    ⟨3, (phaseTime wPhaseTimeouts1.dev 3).getD 0, wPhaseTimeouts1, by decide +kernel⟩,
    ⟨3, 1000, wit [fun d => d.updProf 3 fun e => { e with phase := .keep, keepAt := some 1000 }], by decide +kernel⟩⟩

def wRestSequence0 : State := wit [fun d => d.updChan 3 fun e => { e with st := .regulate, hpDownAt := none }, fun d => d.updProf 3 fun e =>
  { e with inRest := false, waitSlot := false }, fun d =>
  { d with stg := { d.stg with cfg := 0x00200FA0 }, profs := vset d.profs 3 { d.profs[3] with slot := some 3, phase := .bulk }, memory := { d.memory with conf := msetw d.memory.conf 0xB000 0xFFFFFFFF } }]
def wRestSequence1 : State := wit [fun d => d.updChan 3 fun e => { e with st := .regulate }, fun d => d.updProf 3 fun e =>
  { e with waitSlot := false }, fun d =>
  { d with stg := { d.stg with cfg := 0x00200FA0 }, profs := vset d.profs 3 { d.profs[3] with slot := some 3, phase := .bulk }, memory := { d.memory with conf := msetw d.memory.conf 0xB000 0xFFFFFFFF } }]
def wRestSequence2 : State := wit [fun d => { d with clk := { d.clk with loc := T0 } }, fun d => d.updChan 3 fun e =>
  { e with st := .regulate, armed := true }, fun d => d.updChan 3 fun e => { e with st := .regulate }, fun d => d.updProf 3 fun e =>
  { e with waitSlot := false }, fun d =>
  { d with stg := { d.stg with cfg := 0x00200FA0 }, profs := vset d.profs 3 { d.profs[3] with slot := some 3, phase := .bulk, restFrom := d.clk.loc - 800000000 }, memory := { d.memory with conf := msetw d.memory.conf 0xB000 0xFFFFFFFF } }]
def wRestSequence3 : State := wit [fun d => { d with chans := vset d.chans 3 { d.chans[3] with st := .stop } }, fun d =>
  { d with stg := { d.stg with cfg := 0x00200FA0 }, profs := vset d.profs 3 { d.profs[3] with slot := some 3, phase := .bulk }, memory := { d.memory with conf := msetw d.memory.conf 0xB000 0xFFFFFFFF } }]

theorem witness_Rests :
    (∃ (c : Chan) (u : ℕ) (s : State), calm (.pulseRampDown c) s.dev = true ∧ nextRest s.dev c = some u ∧ (s.dev.chans[c]).st = .regulate ∧
      (s.dev.profs[c]).inRest = false ∧ (s.dev.profs[c]).waitSlot = false ∧ (s.dev.chans[c]).hpDownAt = none ∧ isPulsed s.dev c = true) ∧
    (∃ (c : Chan) (u : ℕ) (s : State), calm (.restStart c) s.dev = true ∧ nextRest s.dev c = some u ∧ (s.dev.profs[c]).slot.isSome = true ∧
      s.dev.clk.loc ≤ u ∧ (s.dev.chans[c]).st = .regulate ∧ (s.dev.profs[c]).waitSlot = false ∧ isPulsed s.dev c = true) ∧
    (∃ (c : Chan) (u : ℕ) (s : State), calm (.restStart c) s.dev = true ∧ nextRest s.dev c = some u ∧ (s.dev.profs[c]).slot.isSome = true ∧ u <
      s.dev.clk.loc ∧ (s.dev.chans[c]).st = .regulate ∧ (s.dev.profs[c]).waitSlot = false ∧ isPulsed s.dev c = true) ∧
    (∃ (c : Chan) (u : ℕ) (s : State), calm (.restStart c) s.dev = true ∧ nextRest s.dev c = some u ∧ (s.dev.profs[c]).slot.isSome = true ∧
      s.dev.clk.loc ≤ u ∧ (s.dev.chans[c]).st ≠ .regulate) ∧
    (∃ (c : Chan) (s : State), calm (.restSampleEnd c) s.dev = true ∧ (s.dev.profs[c]).inRest = true ∧ (s.dev.profs[c]).evald = false ∧
      (s.dev.profs[c]).samples.length < 3) ∧
    (∃ (c : Chan) (v1 : Qty) (v2 : Qty) (v3 : Qty) (s : State), calm (.restEvaluation c) s.dev = true ∧ (s.dev.profs[c]).samples = [some v1, some
      v2, some v3] ∧ (s.dev.profs[c]).evald = false ∧ (s.dev.profs[c]).iMax ≤ iRestMax s.dev c) ∧
    (∃ (c : Chan) (v1 : Qty) (v2 : Qty) (v3 : Qty) (s : State), calm (.restEvaluation c) s.dev = true ∧ (s.dev.profs[c]).samples = [some v1, some
      v2, some v3] ∧ (s.dev.profs[c]).evald = false ∧ iRestMax s.dev c < (s.dev.profs[c]).iMax) ∧
    (∃ (c : Chan) (x : Option Qty) (y : Option Qty) (z : Option Qty) (s : State), calm (.restEvaluation c) s.dev = true ∧ (s.dev.profs[c]).samples =
      [x, y, z] ∧ (x = none ∨ y = none ∨ z = none) ∧ (s.dev.profs[c]).evald = false) ∧
    (∃ (c : Chan) (s : State), calm (.restEnd c) s.dev = true ∧ (s.dev.profs[c]).inRest = true) ∧
    (∃ (c : Chan) (u : ℕ) (s : State), calm (.restEnd c) s.dev = true ∧ (s.dev.profs[c]).inRest = false ∧ (s.dev.profs[c]).waitSlot = true ∧
      (s.dev.profs[c]).joinEnd = some u) ∧
    (∃ (flr : Qty) (v1 : Qty) (v2 : Qty) (v3 : Qty), (v1 < v2 ∨ v2 < v3)) ∧
    (∃ (flr : Qty) (v1 : Qty) (v2 : Qty) (v3 : Qty), v2 ≤ v1 ∧ v3 ≤ v2 ∧ v1 + v3 - 2 * v2 < flr) ∧
    (∃ (flr : Qty) (v1 : Qty) (v2 : Qty) (v3 : Qty), v2 ≤ v1 ∧ v3 ≤ v2 ∧ flr ≤ v1 + v3 - 2 * v2 ∧ 0 < flr ∧ v3 - (v1 - v3) ≤ v3 - (v2 - v3) ^ 2 /
      (v1 + v3 - 2 * v2)) ∧
    (∃ (flr : Qty) (v1 : Qty) (v2 : Qty) (v3 : Qty), v2 ≤ v1 ∧ v3 ≤ v2 ∧ flr ≤ v1 + v3 - 2 * v2 ∧ 0 < flr ∧ v3 - (v2 - v3) ^ 2 / (v1 + v3 - 2 * v2)
      < v3 - (v1 - v3)) ∧
    ∃ (flr : Qty) (v1 : Qty) (v2 : Qty) (v3 : Qty), 0 < flr :=
  ⟨
    ⟨3, (nextRest wRestSequence0.dev 3).getD 0, wRestSequence0, by decide +kernel⟩,
    ⟨3, (nextRest wRestSequence1.dev 3).getD 0, wRestSequence1, by decide +kernel⟩,
    ⟨3, (nextRest wRestSequence2.dev 3).getD 0, wRestSequence2, by decide +kernel⟩,
    ⟨3, (nextRest wRestSequence3.dev 3).getD 0, wRestSequence3, by decide +kernel⟩,
    ⟨3, wit [fun d => d.updProf 3 fun e => { e with inRest := true, evald := false }], by decide +kernel⟩,
    ⟨3, 3, 3, 3, wit [fun d => d.updProf 3 fun e => { e with samples := [some 3, some 3, some 3], evald := false }], by decide +kernel⟩,
    ⟨3, 8, 4, 2, wit [fun d => d.updProf 3 fun e => { e with samples := [some 8, some 4, some 2], evald := false }, fun d =>
      { d with memory := { d.memory with conf := [] }, profs := vset d.profs 3 { d.profs[3] with iMax := 4000 } }], by decide +kernel⟩,
    ⟨3, none, some 3, some 2, wit [fun d => d.updProf 3 fun e => { e with samples := [none, some 3, some 2] }], by decide +kernel⟩,
    ⟨3, wit [fun d => d.updProf 3 fun e => { e with inRest := true }], by decide +kernel⟩,
    ⟨3, 1000, wit [fun d => d.updProf 3 fun e => { e with inRest := false, waitSlot := true, joinEnd := some 1000 }], by decide +kernel⟩,
    ⟨3, 3, 4, 3, by decide +kernel⟩,
    ⟨1, 3, 2, 1, by decide +kernel⟩,
    ⟨1, 8, 4, 2, by decide +kernel⟩,
    ⟨1/100, 10, 6, 21/10, by decide +kernel⟩,
    ⟨3, 3, 3, 3, by decide +kernel⟩⟩

theorem witness_RestStagger :
    (∃ (s : State), calm .staggerDeal s.dev = true ∧ s.dev.start.st = .run ∧ s.dev.stg.dealFor = none ∧ stgTp (stgCfg s.dev) ≠ 0) ∧
    (∃ (f : ℕ) (s : State), calm .staggerFrameStart s.dev = true ∧ s.dev.stg.dealFor = some f) ∧
    (∃ (s : State), calm .staggerGainUpdate s.dev = true ∧ s.dev.halt.phase = .idle) ∧
    ∃ (s : State), calm .staggerGainUpdate s.dev = true ∧ s.dev.halt.phase ≠ .idle :=
  ⟨
    ⟨wit [fun d => { d with start := { d.start with st := .run } }, fun d => { d with stg := { d.stg with dealFor := none } }, fun d =>
      { d with memory := { d.memory with conf := d.memory.conf |> (fun mm => msetw mm (0xB1C0) (0x00200FA0)) } }], by decide +kernel⟩,
    ⟨5, wit [fun d => { d with stg := { d.stg with dealFor := some 5 } }], by decide +kernel⟩,
    ⟨wit [fun d => { d with halt := { d.halt with phase := .idle } }], by decide +kernel⟩,
    ⟨wit [fun d => { d with halt := { d.halt with phase := .quiet } }], by decide +kernel⟩⟩

theorem witness_Insertion :
    (∃ (c : Chan) (u : ℕ) (s : State), calm (.retryTimerExpiry c) s.dev = true ∧ (s.dev.paths[c]).st = .absent ∧ (s.dev.paths[c]).retryAt = some u)
      ∧
    (∃ (c : Chan) (u : ℕ) (s : State), calm (.presenceConfirmed c) s.dev = true ∧ (s.dev.paths[c]).st = .wait ∧ (s.dev.paths[c]).presentAt = some u
      ∧ roleLost s.dev (vstrOf s.dev c) = false ∧ (s.dev.paths[c]).hmem < 1 / 2 ∧ (s.dev.paths[c]).latched = false ∧ (s.dev.quads[Chan.quad
      c]).stale = false) ∧
    (∃ (c : Chan) (u : ℕ) (s : State), calm (.presenceConfirmed c) s.dev = true ∧ (s.dev.paths[c]).st = .wait ∧ (s.dev.paths[c]).presentAt = some u
      ∧ (s.dev.paths[c]).latched = true) ∧
    (∃ (c : Chan) (u : ℕ) (s : State), (s.dev.paths[c]).st = .gtest ∧ (s.dev.paths[c]).checkAt = some u ∧ u ≤ s.dev.clk.up ∧ s.dev.bus.st = .sourced
      ∧ anyAdmitted s.dev = true) ∧
    (∃ (c : Chan) (u : ℕ) (s : State), calm (.stringLowTimeout c) s.dev = true ∧ colRuns s.dev = true ∧ (s.dev.paths[c]).st = .block ∧
      (s.dev.paths[c]).lowAt = some u) ∧
    ∃ (c : Chan) (u : ℕ) (s : State), calm (.stringLowTimeout c) s.dev = true ∧ (s.dev.paths[c]).st = .wait ∧ (s.dev.paths[c]).lowAt = some u ∧
      (s.dev.paths[c]).wasPresent = false :=
  ⟨
    ⟨3, 1000, wit [fun d => d.updPath 3 fun e => { e with st := .absent, retryAt := some 1000 }], by decide +kernel⟩,
    ⟨0, 1000, wit [fun d => d.updPath 0 fun e => { e with st := .wait, presentAt := some 1000, latched := false }, fun d => d.updQuad (Chan.quad 0)
      fun e => { e with stale := false }, fun d =>
      { d with mods := d.mods.map fun (e : ModSt) => { e with acting := none, bad := false, failed := false, streamOk := true, ovr := false }, memory := { d.memory with conf := goodBase } },
      fun d => { d with paths := vset d.paths 0 { d.paths[(0 : Chan)] with hmem := 1/4 } }], by decide +kernel⟩,
    ⟨3, 1000, wit [fun d => d.updPath 3 fun e => { e with st := .wait, presentAt := some 1000, latched := true }], by decide +kernel⟩,
    ⟨3, 0, wit [fun d => d.updPath 3 fun e => { e with st := .gtest, checkAt := some 0 }, fun d => { d with bus := { d.bus with st := .sourced } },
      fun d => d.updSrc 0 fun x => { x with st := .admitted }], by decide +kernel⟩,
    ⟨3, 1000, wit [fun d => { d with start := { d.start with st := .run } }, fun d => d.updPath 3 fun e =>
      { e with st := .block, lowAt := some 1000 }], by decide +kernel⟩,
    ⟨3, 1000, wit [fun d => d.updPath 3 fun e => { e with st := .wait, lowAt := some 1000, wasPresent := false }], by decide +kernel⟩⟩

theorem witness_PathSwitches :
    (∃ (c : Chan) (s : State), colRuns s.dev = true ∧ (s.dev.paths[c]).instCode = true ∧ (s.dev.paths[c]).st.tripRow = true) ∧
    (∃ (c : Chan) (s : State), (s.dev.paths[c]).instCode = false) ∧
    (∃ (c : Chan) (s : State), (s.dev.paths[c]).instCode = true ∧ (s.dev.paths[c]).st.tripRow = false ∧ s.dev.bus.st = .onStrings ∧ anyAdmitted
      s.dev = false) ∧
    (∃ (c : Chan) (u : ℕ) (s : State), calm (.stuckOnTimeout c) s.dev = true ∧ colRuns s.dev = true ∧ firstOf (s.dev.paths[c]).stuckSince
      (s.dev.paths[c]).stuckSinceB = some u) ∧
    (∃ (c : Chan) (u : ℕ) (s : State), calm (.pathGateCheckTimeout c) s.dev = true ∧ colRuns s.dev = true ∧ (s.dev.paths[c]).checkAt = some u ∧
      ((s.dev.paths[c]).st = .gtest ∨ (s.dev.paths[c]).st = .ramp ∨ (s.dev.paths[c]).st = .diode ∨ (s.dev.paths[c]).st = .full) ∧
      (s.dev.paths[c]).passed = false ∧ (s.dev.paths[c]).fbHigh = false ∧ (s.dev.paths[c]).falling = false) ∧
    (∃ (c : Chan) (u : ℕ) (s : State), calm (.pathGateCheckTimeout c) s.dev = true ∧ (s.dev.paths[c]).checkAt = some u ∧ (s.dev.paths[c]).st = .ramp
      ∧ (s.dev.paths[c]).passed = false ∧ (s.dev.paths[c]).fbHigh = false ∧ (s.dev.paths[c]).falling = true ∧ (s.dev.paths[c]).toFull = false ∧ 0 ≤
      (s.dev.paths[c]).g ∧ (s.dev.paths[c]).g < pgTest s.dev c) ∧
    (∃ (c : Chan) (m : Pm) (s : State), (s.dev.chans[c]).st = .regulate ∧ (s.dev.chans[c]).gate = true ∧ rampH s.dev c = 1 ∧ halvedIn s.dev c =
      false ∧ istrOf s.dev c = some m ∧ fsA s.dev m ≠ 0 ∧ (irevCode s.dev c : Int) + 16 ≤ cmpCode (fsA s.dev m) (s.dev.chans[c]).i ∧
      (s.dev.paths[c]).collapseAt = none) ∧
    (∃ (c : Chan) (s : State), (s.dev.chans[c]).st ≠ .regulate) ∧
    (∃ (c : Chan) (u : ℕ) (s : State), calm (.collapseHoldEnd c) s.dev = true ∧ (s.dev.paths[c]).collapseAt = some u ∧ (s.dev.paths[c]).holdOver =
      false) ∧
    (∃ (c : Chan) (s : State), calm (.gateRampComplete (.path c)) s.dev = true ∧ (s.dev.paths[c]).toFull = true ∧ (s.dev.paths[c]).st = .ramp) ∧
    (∃ (c : Chan) (s : State), calm (.gateRampComplete (.path c)) s.dev = true ∧ (s.dev.paths[c]).toFull = false ∧ (s.dev.paths[c]).st = .gtest ∧
      (s.dev.paths[c]).checkAt = none ∧ (s.dev.paths[c]).fbHigh = false) ∧
    (∃ (c : Chan) (s : State), calm (.gateRampComplete (.path c)) s.dev = true ∧ (s.dev.paths[c]).toFull = false ∧ (s.dev.paths[c]).st = .ramp ∧
      (s.dev.paths[c]).falling = true) ∧
    ∃ (k : Src) (s : State), calm (.gateRampComplete (.source k)) s.dev = true :=
  ⟨
    ⟨3, wit [fun d => { d with start := { d.start with st := .run } }, fun d => d.updPath 3 fun e => { e with instCode := true }, fun d => d.updPath
      3 fun x => { x with st := .full }], by decide +kernel⟩,
    ⟨3, wit [fun d => d.updPath 3 fun e => { e with instCode := false }], by decide +kernel⟩,
    ⟨0, wit [fun d => d.updPath 0 fun e => { e with instCode := true }, fun d => { d with bus := { d.bus with st := .onStrings } }, fun d =>
      { d with paths := vset d.paths 0 { d.paths[0] with instCode := true, st := if 0 % 3 = 0 then .wait else if 0 % 3 = 1 then .absent else .stuck }, bus := { d.bus with st := .onStrings }, srcs := d.srcs.map fun (e : SrcSt) => { e with st := .ramp } }],
      by decide +kernel⟩,
    ⟨3, 1000, wit [fun d => { d with start := { d.start with st := .run } }, fun d =>
      { d with paths := vset d.paths 3 { d.paths[3] with stuckSince := if 0 % 2 = 0 then some 1000 else some (1000 + 5), stuckSinceB := if 0 % 2 = 0 then none else some 1000 } }],
      by decide +kernel⟩,
    ⟨3, 1000, wit [fun d => { d with start := { d.start with st := .run } }, fun d => d.updPath 3 fun e =>
      { e with checkAt := some 1000, st := .gtest, passed := false, fbHigh := false, falling := false }], by decide +kernel⟩,
    ⟨3, 1000, wit [fun d => d.updPath 3 fun e =>
      { e with checkAt := some 1000, st := .ramp, passed := false, fbHigh := false, falling := true, toFull := false }, fun d =>
      { d with memory := { d.memory with conf := msetw [] (ptb 3 + 12) 0xFFFFFFFF }, paths := vset d.paths 3 { d.paths[3] with g := 0 } }],
      by decide +kernel⟩,
    ⟨0, 1, wit [fun d => d.updChan 0 fun e => { e with st := .regulate, gate := true }, fun d => d.updPath 0 fun e => { e with collapseAt := none },
      fun d =>
      { d with mods := d.mods.map fun (e : ModSt) => { e with acting := none, bad := false, failed := false, streamOk := true, ovr := false }, memory := { d.memory with conf := goodBase } },
      fun d => { d with memory := { d.memory with conf := msetw goodBase (mdb 1 + 4) 400 } }, fun d =>
      { d with chans := vset d.chans 0 { d.chans[(0 : Chan)] with h := 1, hp := 1, i := (0 : Qty) } }], by decide +kernel⟩,
    ⟨3, ⟨State.reset.dev, []⟩, by decide +kernel⟩,
    ⟨3, 1000, wit [fun d => d.updPath 3 fun e => { e with collapseAt := some 1000, holdOver := false }], by decide +kernel⟩,
    ⟨3, wit [fun d => d.updPath 3 fun e => { e with toFull := true, st := .ramp }], by decide +kernel⟩,
    ⟨3, wit [fun d => d.updPath 3 fun e => { e with toFull := false, st := .gtest, checkAt := none, fbHigh := false }], by decide +kernel⟩,
    ⟨3, wit [fun d => d.updPath 3 fun e => { e with toFull := false, st := .ramp, falling := true }], by decide +kernel⟩,
    ⟨1, ⟨State.reset.dev, []⟩, by decide +kernel⟩⟩

def wSysVoltage1 : State := wit [fun d =>
  { d with quads := d.quads.map fun (e : QuadSt) => { e with armed := true, hkAt := some 1000000, hkVal := 20, sysAt := some 1000000, sysVal := 20 } }]
def wBusStates0 : State := wit [fun d => { d with bus := { d.bus with st := .sourced } }, fun d =>
  { d with quads := d.quads.map fun (e : QuadSt) => { e with armed := true, hkAt := some 1000000, hkVal := 20, sysAt := some 1000000, sysVal := 20 } },
  fun d => { d with memory := { d.memory with conf := msetw [] 0xA0C0 0x00100280 }, bus := { d.bus with belowRun := 1 } }]

theorem witness_BusVoltageAndState :
    (∃ (s : State), calm .vsysEvaluation s.dev = true ∧ (∀ q : Quad, (s.dev.quads[q]).sysAt = none) ∧ (∀ q : Quad, (s.dev.quads[q]).hkAt = none)) ∧
    (∃ (qs : List Quad) (s : State), calm .vsysEvaluation s.dev = true ∧ qs = allQuads.filter (fun q => (s.dev.quads[q]).armed &&
      (s.dev.quads[q]).hkAt.any fun u => decide (nextOf stepSub s.dev.clk.taken[2] s.dev.clk.up ≤ u + ms)) ∧ qs ≠ []) ∧
    (∃ (q : Quad) (u : ℕ) (s : State), calm (.sysFreshnessExpiry q) s.dev = true ∧ (s.dev.quads[q]).sysAt = some u ∧ (s.dev.quads[q]).armed = true ∧
      (∀ k : Quad, k ≠ q → (s.dev.quads[k]).hkAt = none) ∧ ((s.dev.quads[q]).hkAt = none ∨ (s.dev.quads[q]).hkAt = some u)) ∧
    (∃ (qs : List Quad) (s : State), calm .vsysEvaluation s.dev = true ∧ qs = allQuads.filter (fun q => (s.dev.quads[q]).armed &&
      (s.dev.quads[q]).hkAt.any fun u => decide (nextOf stepSub s.dev.clk.taken[2] s.dev.clk.up ≤ u + ms)) ∧ qs ≠ [] ∧ meanQ (qs.map fun q =>
      (s.dev.quads[q]).hkVal) < vSysLoss s.dev ∧ s.dev.bus.st = .sourced ∧ 1 ≤ s.dev.bus.belowRun) ∧
    (∃ (s : State), calm .handoverTimeout s.dev = true ∧ s.dev.bus.st = .handover ∧ anyAdmitted s.dev = false) ∧
    (∃ (s : State), calm .returnTimeout s.dev = true ∧ s.dev.bus.st = .ret ∧ anyAdmitted s.dev = true) ∧
    (∃ (q : Quad) (b : BusState) (rest : List Msg) (s : State), s.dev.isl.fifo[xIndex (.toQd q)] = .bus b :: rest) ∧
    (∃ (q : Quad) (s : State), (∀ m ∈ s.dev.isl.fifo[xIndex (.toQd q)], isBus m = false)) ∧
    (∃ (c : Chan) (rest : List Msg) (s : State), s.dev.isl.fifo[xIndex (.toQd (Chan.quad c))] = .bus .onStrings :: rest ∧ s.dev.start.st ≠ .svcHold
      ∧ (s.dev.paths[c]).st = .diode ∧ (s.dev.quads[Chan.quad c]).stale = false) ∧
    (∃ (c : Chan) (b : BusState) (rest : List Msg) (s : State), s.dev.isl.fifo[xIndex (.toQd (Chan.quad c))] = .bus b :: rest ∧ (s.dev.paths[c]).st
      = .diode ∧ (s.dev.quads[Chan.quad c]).stale = true) ∧
    (∃ (c : Chan) (rest : List Msg) (s : State), s.dev.isl.fifo[xIndex (.toQd (Chan.quad c))] = .bus .sourced :: rest ∧ (s.dev.quads[Chan.quad
      c]).bus = .ret ∧ s.dev.start.st ≠ .svcHold ∧ (s.dev.paths[c]).st = .full) ∧
    ∃ (f : Fsrc) (c : Chan) (s : State), s.dev.start.st = .run ∧ (s.dev.faults[f]).active = false ∧ scopeOf f.1 = some (.path c) ∧ effSev s.dev f.1
      = .channel ∧ s.dev.bus.st = .ret ∧ anyAdmitted s.dev = true ∧ (s.dev.paths[c]).st = .full ∧ (∀ k : Chan, k ≠ c → (s.dev.paths[k]).st ≠ .full)
      :=
  ⟨
    ⟨wit [fun d => { d with quads := d.quads.map fun (e : QuadSt) => { e with sysAt := none, hkAt := none } }], by decide +kernel⟩,
    ⟨allQuads.filter (fun q => (wSysVoltage1.dev.quads[q]).armed && (wSysVoltage1.dev.quads[q]).hkAt.any fun u => decide (nextOf stepSub
      wSysVoltage1.dev.clk.taken[2] wSysVoltage1.dev.clk.up ≤ u + ms)), wSysVoltage1, by decide +kernel⟩,
    ⟨Fin.ofNat _ 0, T0 - 1000 * 0, wit [fun d => d.updQuad (Fin.ofNat _ 0 : Quad) fun e =>
      { e with sysAt := some (T0 - 1000 * 0), armed := true, hkAt := none }, fun d =>
      { d with quads := d.quads.map fun (e : QuadSt) => { e with hkAt := none } }, fun d =>
      { d with quads := vset d.quads (Fin.ofNat _ 0 : Quad) { d.quads[(Fin.ofNat _ 0 : Quad)] with sysAt := some (T0 - 1000 * 0), armed := true, hkAt := if 0 % 2 = 0 then some (T0 - 1000 * 0) else none } }],
      by decide +kernel⟩,
    ⟨allQuads.filter (fun q => (wBusStates0.dev.quads[q]).armed && (wBusStates0.dev.quads[q]).hkAt.any fun u => decide (nextOf stepSub
      wBusStates0.dev.clk.taken[2] wBusStates0.dev.clk.up ≤ u + ms)), wBusStates0, by decide +kernel⟩,
    ⟨wit [fun d => { d with bus := { d.bus with st := .handover } }], by decide +kernel⟩,
    ⟨wit [fun d => { d with bus := { d.bus with st := .ret } }, fun d => d.updSrc 0 fun x => { x with st := .admitted }], by decide +kernel⟩,
    ⟨0, .handover, [], wit [fun d => { d with isl := { d.isl with fifo := vset d.isl.fifo (xIndex (.toQd 0)) (.bus (.handover) :: []) } }],
      by decide +kernel⟩,
    ⟨0, ⟨State.reset.dev, []⟩, by decide +kernel⟩,
    ⟨3, [], wit [fun d => { d with isl := { d.isl with fifo := vset d.isl.fifo (xIndex (.toQd (Chan.quad 3))) (.bus .onStrings :: []) } }, fun d =>
      d.updPath 3 fun e => { e with st := .diode }, fun d => d.updQuad (Chan.quad 3) fun e => { e with stale := false }], by decide +kernel⟩,
    ⟨3, .handover, [], wit [fun d =>
      { d with isl := { d.isl with fifo := vset d.isl.fifo (xIndex (.toQd (Chan.quad 3))) (.bus (.handover) :: []) } }, fun d => d.updPath 3 fun e
      => { e with st := .diode }, fun d => d.updQuad (Chan.quad 3) fun e => { e with stale := true }], by decide +kernel⟩,
    ⟨3, [], wit [fun d => { d with isl := { d.isl with fifo := vset d.isl.fifo (xIndex (.toQd (Chan.quad 3))) (.bus .sourced :: []) } }, fun d =>
      d.updQuad (Chan.quad 3) fun e => { e with bus := .ret }, fun d => d.updPath 3 fun e => { e with st := .full }], by decide +kernel⟩,
    ⟨Fin.ofNat _ 0x420, 0, wit [fun d =>
      { d with mods := d.mods.map fun (e : ModSt) => { e with acting := none, bad := false, failed := false, streamOk := true, ovr := false }, memory := { d.memory with conf := goodBase }, isl := { d.isl with clkRun := 0x1F }, srcs := d.srcs.map fun (e : SrcSt) => { e with st := .admitted } },
      fun d => { d with paths := d.paths.map fun (e : PathSt) => { e with st := .wait } }, fun d => { d with start := { d.start with st := .run } },
      fun d => d.updFault (Fin.ofNat _ 0x420 : Fsrc) fun e => { e with active := false }, fun d => { d with bus := { d.bus with st := .ret } }, fun
      d => d.updPath 0 fun e => { e with st := .full }], by decide +kernel⟩⟩

theorem witness_Sources :
    (∃ (k : Src) (u : ℕ) (s : State), calm (.qualTimerExpiry k) s.dev = true ∧ s.dev.start.st ≠ .svcHold ∧ (s.dev.srcs[k]).st = .qual ∧
      (s.dev.srcs[k]).qualAt = some u ∧ s.dev.bus.st ≠ .handover ∧ (s.dev.quads[k]).stale = false ∧ roleLost s.dev (vsrcOf s.dev k) = false ∧
      ((s.dev.srcs[k]).isOver = false ∨ s.dev.bus.halveRaised = false)) ∧
    (∃ (k : Src) (u : ℕ) (s : State), calm (.qualTimerExpiry k) s.dev = true ∧ s.dev.start.st ≠ .svcHold ∧ (s.dev.srcs[k]).st = .qual ∧
      (s.dev.srcs[k]).qualAt = some u ∧ ((s.dev.quads[k]).stale = true ∨ roleLost s.dev (vsrcOf s.dev k) = true ∨ s.dev.bus.st = .handover)) ∧
    (∃ (k : Src) (u : ℕ) (s : State), calm (.qualTimerExpiry k) s.dev = true ∧ s.dev.start.st ≠ .svcHold ∧ (s.dev.srcs[k]).st = .requal ∧
      (s.dev.srcs[k]).qualAt = some u ∧ s.dev.bus.st ≠ .handover ∧ roleLost s.dev (vsrcOf s.dev k) = false) ∧
    (∃ (m : Pm) (k : Src) (u : ℕ) (raw : BitVec 24) (ovr : Bool) (s : State), calm (.streamResult m raw ovr) s.dev = true ∧ streamRole s.dev m =
      true ∧ clkRuns s.dev (Pm.quad m) = true ∧ s.dev.start.st = .run ∧ (s.dev.mods[m]).failed = false ∧ s.dev.hk.changing = false ∧
      (s.dev.mods[m]).streamAt + streamSettle ≤ s.dev.clk.up ∧ roleEff s.dev m = 3 ∧ k = Pm.quad m ∧ (s.dev.mods[m]).same < 255 ∧ (s.dev.srcs[k]).st
      = .requal ∧ (s.dev.srcs[k]).qualAt = some u ∧ s.dev.bus.st ≠ .handover ∧ roleLost s.dev (vsrcOf s.dev k) = false ∧ ((s.dev.srcs[k]).isOver =
      false ∨ s.dev.bus.halveRaised = false) ∧ vQlo s.dev k ≤ codeV s.dev m (correct s.dev m raw.toInt).1) ∧
    (∃ (k : Src) (u : ℕ) (s : State), calm (.sourceGateCheckTimeout k) s.dev = true ∧ colRuns s.dev = true ∧ (s.dev.srcs[k]).checkAt = some u ∧
      (s.dev.srcs[k]).st.live = true ∧ (s.dev.srcs[k]).passed = false) ∧
    ∃ (k : Src) (u : ℕ) (s : State), calm (.sourceStuckTimeout k) s.dev = true ∧ colRuns s.dev = true ∧ (s.dev.srcs[k]).stuckSince = some u ∧
      (s.dev.srcs[k]).stuckUp = false :=
  ⟨
    ⟨0, 1000, wit [fun d =>
      { d with mods := d.mods.map fun (e : ModSt) => { e with acting := none, bad := false, failed := false, streamOk := true, ovr := false }, memory := { d.memory with conf := goodBase }, isl := { d.isl with clkRun := 0x1F }, srcs := d.srcs.map fun (e : SrcSt) => { e with st := .admitted } },
      fun d => { d with start := { d.start with st := .run, straps := { d.start.straps with cvnId := 5 } } }, fun d => d.updSrc 0 fun e =>
      { e with st := .qual, qualAt := some 1000, isOver := false }, fun d => d.updQuad 0 fun e => { e with stale := false }, fun d =>
      { d with srcs := vset d.srcs 0 { d.srcs[(0 : Src)] with isOver := decide (0 % 2 = 0) }, bus := { d.bus with halveRaised := false } }],
      by decide +kernel⟩,
    ⟨1, 1000, wit [fun d => d.updSrc 1 fun e => { e with st := .qual, qualAt := some 1000 }, fun d => d.updQuad 1 fun e =>
      { e with stale := true }], by decide +kernel⟩,
    ⟨0, 1000, wit [fun d =>
      { d with mods := d.mods.map fun (e : ModSt) => { e with acting := none, bad := false, failed := false, streamOk := true, ovr := false }, memory := { d.memory with conf := goodBase }, isl := { d.isl with clkRun := 0x1F }, srcs := d.srcs.map fun (e : SrcSt) => { e with st := .admitted } },
      fun d => { d with start := { d.start with st := .run, straps := { d.start.straps with cvnId := 5 } } }, fun d => d.updSrc 0 fun e =>
      { e with st := .requal, qualAt := some 1000 }, fun d =>
      { d with srcs := vset d.srcs 0 { d.srcs[(0 : Src)] with isOver := decide (0 % 2 = 0) }, bus := { d.bus with halveRaised := false } }],
      by decide +kernel⟩,
    ⟨6, 0, 1000, 5, true, wit [fun d => { d with start := { d.start with st := .run }, isl := { d.isl with clkRun := 0x1F } }, fun d =>
      { d with clk := { d.clk with up := T0, loc := T0 } }, fun d => { d with memory := { d.memory with conf := msetw [] (mdb 6) 3 } }, fun d =>
      d.updSrc 0 fun e => { e with st := .requal, qualAt := some 1000, isOver := false }], by decide +kernel⟩,
    ⟨1, 1000, wit [fun d => { d with start := { d.start with st := .run } }, fun d => d.updSrc 1 fun e =>
      { e with checkAt := some 1000, passed := false }, fun d => d.updSrc 1 fun x => { x with st := .ramp }], by decide +kernel⟩,
    ⟨1, 1000, wit [fun d => { d with start := { d.start with st := .run } }, fun d => d.updSrc 1 fun e =>
      { e with stuckSince := some 1000, stuckUp := false }], by decide +kernel⟩⟩

theorem witness_InputCurrent :
    (∃ (s : State), calm .budgetUpdate s.dev = true ∧ s.dev.bus.st ≠ .beforeRun ∧ anyAdmitted s.dev = false) ∧
    (∃ (s : State), calm .budgetUpdate s.dev = true ∧ s.dev.bus.st ≠ .beforeRun ∧ anyAdmitted s.dev = true) ∧
    (∃ (d : Device), anyAdmitted d = true) ∧
    (∃ (k : Src) (s : State), (s.dev.srcs[k]).st.live = true ∧ (s.dev.srcs[k]).halveHit = false) ∧
    (∃ (k : Quad) (q : Quad) (rest : List Msg) (s : State), s.dev.isl.fifo[xIndex (.between k q)] = .halve :: rest ∧ s.dev.bus.halving = true) ∧
    (∃ (k : Src) (s : State), s.dev.bus.halving = true ∧ s.dev.bus.aboveEndAt = none ∧ (∀ j : Src, j ≠ k → (s.dev.srcs[j]).isOver = false)) ∧
    (∃ (u : ℕ) (s : State), calm .halvingRelease s.dev = true ∧ s.dev.bus.halving = true ∧ s.dev.bus.aboveEndAt = some u) ∧
    ∃ (s : State), calm .halvingSustained s.dev = true ∧ colRuns s.dev = true ∧ s.dev.bus.halving = true ∧ s.dev.bus.halveRaised = false :=
  ⟨
    ⟨wit [fun d => { d with bus := { d.bus with st := .sourced } }], by decide +kernel⟩,
    ⟨wit [fun d => { d with bus := { d.bus with st := .sourced } }, fun d => d.updSrc 0 fun x => { x with st := .admitted }], by decide +kernel⟩,
    ⟨State.reset.dev.updSrc 0 fun x => { x with st := .admitted }, by decide +kernel⟩,
    ⟨1, wit [fun d => d.updSrc 1 fun e => { e with halveHit := false }, fun d => d.updSrc 1 fun x => { x with st := .ramp }], by decide +kernel⟩,
    ⟨0, 0, [], wit [fun d => { d with isl := { d.isl with fifo := vset d.isl.fifo (xIndex (.between 0 0)) (.halve :: []) } }, fun d =>
      { d with bus := { d.bus with halving := true } }], by decide +kernel⟩,
    ⟨Fin.ofNat _ 0, wit [fun d => { d with bus := { d.bus with halving := true, aboveEndAt := none } }, fun d =>
      { d with srcs := d.srcs.map fun (e : SrcSt) => { e with isOver := false } }], by decide +kernel⟩,
    ⟨1000, wit [fun d => { d with bus := { d.bus with halving := true, aboveEndAt := some 1000 } }], by decide +kernel⟩,
    ⟨wit [fun d => { d with start := { d.start with st := .run } }, fun d =>
      { d with bus := { d.bus with halving := true, halveRaised := false } }], by decide +kernel⟩⟩

def wResultWords3 : State := ⟨State.reset.dev, []⟩

theorem witness_Results :
    (∃ (d : Device) (m : Pm) (raw : ℤ), calibrated d m = false ∧ -8388608 ≤ raw ∧ raw ≤ 8388607) ∧
    (∃ (d : Device) (m : Pm) (raw : ℤ), calibrated d m = true) ∧
    (∃ (d : Device) (m : Pm) (input : ℕ) (code : ℤ) (ovr : Bool) (halt : Bool) (tap : Bool) (w : ℕ), -8388608 ≤ code ∧ code ≤ 8388607 ∧ w =
      (resultWord d m input code ovr halt tap).toNat) ∧
    (∃ (m : Pm) (raw : BitVec 24) (ovr : Bool) (s : State), calm (.streamResult m raw ovr) s.dev = true ∧ clkRuns s.dev (Pm.quad m) = false) ∧
    (∃ (m : Pm) (raw : BitVec 24) (ovr : Bool) (s : State), calm (.streamResult m raw ovr) s.dev = true ∧ streamRole s.dev m = true ∧ clkRuns s.dev
      (Pm.quad m) = true ∧ s.dev.start.st = .run ∧ (s.dev.mods[m]).failed = false ∧ s.dev.hk.changing = true) ∧
    (∃ (m : Pm) (raw : BitVec 24) (ovr : Bool) (s : State), calm (.streamResult m raw ovr) s.dev = true ∧ streamRole s.dev m = true ∧ clkRuns s.dev
      (Pm.quad m) = true ∧ s.dev.start.st = .run ∧ (s.dev.mods[m]).failed = false ∧ s.dev.hk.changing = false ∧ (s.dev.mods[m]).streamAt +
      streamSettle ≤ s.dev.clk.up) ∧
    (∃ (m : Pm) (c : Chan) (raw : BitVec 24) (ovr : Bool) (s : State), calm (.streamResult m raw ovr) s.dev = true ∧ streamRole s.dev m = true ∧
      clkRuns s.dev (Pm.quad m) = true ∧ s.dev.start.st = .run ∧ (s.dev.mods[m]).failed = false ∧ s.dev.hk.changing = false ∧
      (s.dev.mods[m]).streamAt + streamSettle ≤ s.dev.clk.up ∧ roleEff s.dev m = 2 ∧ c = roleChan s.dev m ∧ (s.dev.mods[m]).same < 255 ∧
      (s.dev.chans[c]).vSeen = true ∧ (effSev s.dev (0x360 + c.1)).holds = false ∧ (s.dev.paths[c]).st ≠ .tripped ∧ s.dev.bus.st = .sourced ∧
      anyAdmitted s.dev = true ∧ (s.dev.chans[c]).st = .held ∧ (s.dev.chans[c]).holders = [] ∧ (s.dev.paths[c]).st ≠ .absent) ∧
    (∃ (m : Pm) (c : Chan) (raw : BitVec 24) (ovr : Bool) (s : State), calm (.streamResult m raw ovr) s.dev = true ∧ streamRole s.dev m = true ∧
      clkRuns s.dev (Pm.quad m) = true ∧ s.dev.start.st = .run ∧ (s.dev.mods[m]).failed = false ∧ s.dev.hk.changing = false ∧
      (s.dev.mods[m]).streamAt + streamSettle ≤ s.dev.clk.up ∧ roleEff s.dev m = 2 ∧ c = roleChan s.dev m ∧ (s.dev.mods[m]).same < 255 ∧
      (s.dev.chans[c]).vSeen = true ∧ (effSev s.dev (0x360 + c.1)).holds = false ∧ (s.dev.paths[c]).st ≠ .tripped ∧ s.dev.bus.st = .sourced ∧
      anyAdmitted s.dev = true ∧ (s.dev.chans[c]).st = .absent ∧ (s.dev.paths[c]).st.present = true) ∧
    (∃ (m : Pm) (c : Chan) (raw : BitVec 24) (ovr : Bool) (s : State), calm (.streamResult m raw ovr) s.dev = true ∧ streamRole s.dev m = true ∧
      clkRuns s.dev (Pm.quad m) = true ∧ s.dev.start.st = .run ∧ (s.dev.mods[m]).failed = false ∧ s.dev.hk.changing = false ∧
      (s.dev.mods[m]).streamAt + streamSettle ≤ s.dev.clk.up ∧ roleEff s.dev m = 2 ∧ c = roleChan s.dev m ∧ (s.dev.mods[m]).same < 255 ∧
      (s.dev.chans[c]).vSeen = true ∧ (effSev s.dev (0x360 + c.1)).holds = false ∧ (s.dev.paths[c]).st ≠ .tripped ∧ s.dev.bus.st = .sourced ∧
      anyAdmitted s.dev = true ∧ ((s.dev.chans[c]).st = .start ∨ (s.dev.chans[c]).st = .regulate) ∧ (s.dev.chans[c]).hostStopQ = false ∧
      (s.dev.chans[c]).reloadReq = true) ∧
    (∃ (m : Pm) (raw : BitVec 24) (ovr : Bool) (s : State), calm (.streamResult m raw ovr) s.dev = true ∧ streamRole s.dev m = true ∧ clkRuns s.dev
      (Pm.quad m) = true ∧ s.dev.start.st = .run ∧ (s.dev.mods[m]).failed = true ∧ s.dev.hk.changing = false ∧ (s.dev.mods[m]).streamAt +
      streamSettle ≤ s.dev.clk.up ∧ (s.dev.mods[m]).degraded = true ∧ roleEff s.dev m = 2 ∧ (s.dev.chans[roleChan s.dev m]).gate = true) ∧
    (∃ (m : Pm) (s : State), colRuns s.dev = true ∧ (s.dev.mods[m]).failed = false) ∧
    ∃ (m : Pm) (s : State), (s.dev.mods[m]).failed = true :=
  ⟨
    ⟨State.reset.dev, 7, -77, by decide +kernel⟩,
    ⟨{ State.reset.dev with memory := { State.reset.dev.memory with conf := msetw [] (calb 7 + 8) 1 } }, 7, -77, by decide +kernel⟩,
    ⟨State.reset.dev, 7, 0 % 4, (0 : Int) * 70000 - 100000, true, true, true, (resultWord (State.reset.dev) 7 (0 % 4) ((0 : Int) * 70000 - 100000)
      true true true).toNat, by decide +kernel⟩,
    ⟨7, 5, true, wit [fun d => { d with isl := { d.isl with clkRun := BitVec.ofNat 5 0 } }], by decide +kernel⟩,
    ⟨1, 5, true, wit [fun d => { d with start := { d.start with st := .run }, isl := { d.isl with clkRun := 0x1F } }, fun d =>
      { d with memory := { d.memory with conf := d.memory.conf |> (fun mm => msetw mm (mdb 1) (1 + 0 % 2)) } }, fun d =>
      { d with start := { d.start with st := .run } }, fun d => d.updMod 1 fun e => { e with failed := false }, fun d =>
      { d with hk := { d.hk with changing := true } }], by decide +kernel⟩,
    ⟨1, 5, true, wit [fun d => { d with start := { d.start with st := .run } }, fun d =>
      { d with isl := { d.isl with clkRun := 0x1F }, clk := { d.clk with up := 4000000000 } }, fun d =>
      { d with memory := { d.memory with conf := msetw [] (mdb 1) 1 } }, fun d => { d with start := { d.start with st := .run } }, fun d => d.updMod
      1 fun e => { e with failed := false }, fun d => { d with hk := { d.hk with changing := false } }, fun d => d.updMod 1 fun x =>
      { x with streamAt := 0 }], by decide +kernel⟩,
    ⟨1, 0, 5, true, wit [fun d =>
      { d with mods := d.mods.map fun (e : ModSt) => { e with acting := none, bad := false, failed := false, streamOk := true, ovr := false }, memory := { d.memory with conf := goodBase }, isl := { d.isl with clkRun := 0x1F }, srcs := d.srcs.map fun (e : SrcSt) => { e with st := .admitted } },
      fun d => { d with clk := { d.clk with up := T0, loc := T0 } }, fun d => { d with start := { d.start with st := .run } }, fun d => d.updMod 1
      fun e => { e with failed := false }, fun d => { d with hk := { d.hk with changing := false } }, fun d => d.updChan 0 fun e =>
      { e with vSeen := true, st := .held, holders := [] }, fun d => { d with bus := { d.bus with st := .sourced } }, fun d => d.updPath 0 fun e =>
      { e with st := .full }], by decide +kernel⟩,
    ⟨1, 0, 5, true, wit [fun d =>
      { d with mods := d.mods.map fun (e : ModSt) => { e with acting := none, bad := false, failed := false, streamOk := true, ovr := false }, memory := { d.memory with conf := goodBase }, isl := { d.isl with clkRun := 0x1F }, srcs := d.srcs.map fun (e : SrcSt) => { e with st := .admitted } },
      fun d => { d with clk := { d.clk with up := T0, loc := T0 } }, fun d => { d with start := { d.start with st := .run } }, fun d => d.updMod 1
      fun e => { e with failed := false }, fun d => { d with hk := { d.hk with changing := false } }, fun d => d.updChan 0 fun e =>
      { e with vSeen := true, st := .absent }, fun d => { d with bus := { d.bus with st := .sourced } }, fun d => d.updPath 0 fun e =>
      { e with st := .full }], by decide +kernel⟩,
    ⟨1, 0, 5, true, wit [fun d =>
      { d with mods := d.mods.map fun (e : ModSt) => { e with acting := none, bad := false, failed := false, streamOk := true, ovr := false }, memory := { d.memory with conf := goodBase }, isl := { d.isl with clkRun := 0x1F }, srcs := d.srcs.map fun (e : SrcSt) => { e with st := .admitted } },
      fun d => { d with clk := { d.clk with up := T0, loc := T0 } }, fun d => { d with start := { d.start with st := .run } }, fun d => d.updMod 1
      fun e => { e with failed := false }, fun d => { d with hk := { d.hk with changing := false } }, fun d => d.updChan 0 fun e =>
      { e with vSeen := true, st := .start, hostStopQ := false, reloadReq := true }, fun d => { d with bus := { d.bus with st := .sourced } }, fun d
      => d.updPath 0 fun e => { e with st := .full }], by decide +kernel⟩,
    ⟨7, 5, true, wit [fun d => { d with start := { d.start with st := .run }, isl := { d.isl with clkRun := 0x1F } }, fun d =>
      { d with clk := { d.clk with up := T0, loc := T0 } }, fun d => { d with memory := { d.memory with conf := msetw [] (mdb 7) (2 + 3 * 16) } },
      fun d => { d with start := { d.start with st := .run } }, fun d => d.updMod 7 fun e => { e with failed := true, degraded := true }, fun d =>
      { d with hk := { d.hk with changing := false } }, fun d => d.updChan (roleChan d 7) fun e => { e with gate := true }], by decide +kernel⟩,
    ⟨7, wit [fun d => { d with start := { d.start with st := .run } }, fun d => d.updMod 7 fun e => { e with failed := false }], by decide +kernel⟩,
    ⟨7, wit [fun d => d.updMod 7 fun e => { e with failed := true }], by decide +kernel⟩⟩

def wConversions2 : State := wit [fun d => { d with isl := { d.isl with stalled := Vector.replicate 24 false } }, fun d =>
  { d with isl := { d.isl with fifo := Vector.replicate 24 [] } }, fun d => d.updMod 20 fun e =>
  { e with conv := some (⟨7, 4, 5, false, 2⟩ : Conv), injHost := some (⟨3, 4, 5⟩ : Inj) }, fun d =>
  { d with hk := { d.hk with changing := false } }, fun d =>
  { d with memory := { d.memory with conf := msetw d.memory.conf (mdb 20) 0 }, mods := vset d.mods 20 { d.mods[(20 : Pm)] with acting := none }, hk := { d.hk with changing := false } },
  fun d =>
  { d with mods := vset d.mods 20 { d.mods[(20 : Pm)] with conv := some (⟨7, 4, 5, false, 2⟩ : Conv), injHost := some (⟨3, 4, 5⟩ : Inj) } }]

theorem witness_ConversionsAndCalibration :
    (∃ (s : State), s.dev.cal.n < 64) ∧
    (∃ (s : State), 64 ≤ s.dev.cal.n ∧ s.dev.cal.step = 2) ∧
    (∃ (m : Pm) (z : ℤ) (s : State), 64 ≤ s.dev.cal.n ∧ s.dev.cal.step = 4 ∧ s.dev.cal.held = some (m, z) ∧ s.dev.cal.sum * 4 = z) ∧
    (∃ (m : Pm) (z : ℤ) (g : ℤ) (s : State), s.dev.memory.conf.wf = true ∧ 64 ≤ s.dev.cal.n ∧ s.dev.cal.step = 4 ∧ s.dev.cal.held = some (m, z) ∧
      s.dev.cal.sum * 4 ≠ z ∧ g = qRound ((s.dev.cal.applied : Qty) / ((s.dev.cal.sum * 4 - z : Int) : Qty) * 2 ^ 30) ∧ coefOk z g = true) ∧
    (∃ (m : Pm) (raw : BitVec 24) (ovr : Bool) (s : State), calm (.conversionDone m raw ovr) s.dev = true ∧ (s.dev.mods[m]).conv = none) ∧
    (∃ (m : Pm) (v : Conv) (raw : BitVec 24) (ovr : Bool) (s : State), calm (.conversionDone m raw ovr) s.dev = true ∧ (s.dev.mods[m]).conv = some v
      ∧ (s.dev.hk.changing = true ∨ (v.req = 1 ∧ v.halt = true))) ∧
    (∃ (m : Pm) (v : Conv) (j : Inj) (raw : BitVec 24) (ovr : Bool) (u : ℕ) (s : State), calm (.conversionDone m raw ovr) s.dev = true ∧
      (s.dev.mods[m]).conv = some v ∧ v.req = 7 ∧ isTap s.dev m v = false ∧ s.dev.hk.changing = false ∧ (s.dev.mods[m]).injHost = some j ∧ u =
      convDue s.dev m v ∧ hkWaits s.dev (Pm.quad m) = false) ∧
    (∃ (m : Pm) (v : Conv) (j : Inj) (raw : BitVec 24) (ovr : Bool) (s : State), calm (.conversionDone m raw ovr) s.dev = true ∧
      (s.dev.mods[m]).conv = some v ∧ v.req = 7 ∧ isTap s.dev m v = true ∧ s.dev.hk.changing = false ∧ (s.dev.mods[m]).injHost = some j ∧ 2 ^ min 11
      v.osr ≤ (s.dev.mods[m]).tapN ∧ hkWaits s.dev (Pm.quad m) = false) ∧
    (∃ (m : Pm) (v : Conv) (raw : BitVec 24) (ovr : Bool) (s : State), calm (.conversionDone m raw ovr) s.dev = true ∧ (s.dev.mods[m]).conv = some v
      ∧ v.req = 1 ∧ v.halt = false ∧ s.dev.hk.changing = false ∧ roundMod s.dev (Pm.quad m) = some m ∧ s.dev.hk.stray[Pm.quad m] = false ∧ hkWaits
      s.dev (Pm.quad m) = false) ∧
    (∃ (m : Pm) (v : Conv) (raw : BitVec 24) (ovr : Bool) (s : State), calm (.conversionDone m raw ovr) s.dev = true ∧ (s.dev.mods[m]).conv = some v
      ∧ v.req = 9 ∧ s.dev.hk.changing = false ∧ hkWaits s.dev (Pm.quad m) = false) ∧
    (∃ (m : Pm) (v : Conv) (raw : BitVec 24) (ovr : Bool) (s : State), calm (.conversionDone m raw ovr) s.dev = true ∧ (s.dev.mods[m]).conv = some v
      ∧ (v.req = 1 → v.halt = false) ∧ isTap s.dev m v = false ∧ s.dev.hk.changing = false ∧ hkWaits s.dev (Pm.quad m) = true) ∧
    (∃ (q : Quad) (m : Pm) (v : Conv) (j : Inj) (raw : ℤ) (code : ℤ) (w : Word) (x : Option ℤ) (rest : List Msg) (s : State), s.dev.isl.fifo[xIndex
      (.toHk q)] = .result m v raw code w x :: rest ∧ v.req = 7 ∧ (s.dev.mods[m]).conv = none ∧ 7 ∈ (s.dev.arbs[mport m]).granted ∧
      (s.dev.mods[m]).injHost = some j) ∧
    ∃ (m : Pm) (v : Conv) (raw : BitVec 24) (ovr : Bool) (s : State), calm (.conversionDone m raw ovr) s.dev = true ∧ (s.dev.mods[m]).conv = some v
      ∧ isTap s.dev m v = true ∧ (s.dev.mods[m]).tapN < 2 ^ min 11 v.osr :=
  ⟨
    ⟨⟨State.reset.dev, []⟩, by decide +kernel⟩,
    ⟨wit [fun d => { d with cal := { d.cal with step := 2 } }, fun d => { d with cal := { d.cal with n := 64, sum := 1234 } }], by decide +kernel⟩,
    ⟨7, 4000, wit [fun d => { d with cal := { d.cal with step := 4, held := some (7, 4000) } }, fun d =>
      { d with cal := { d.cal with n := 64, sum := 1000 } }], by decide +kernel⟩,
    ⟨7, 0, 1073741824, wit [fun d =>
      { d with isl := { d.isl with stalled := if 0 % 2 = 0 then Vector.replicate 24 false else Vector.replicate 24 true } }, fun d =>
      { d with cal := { d.cal with step := 4, held := some (7, 0) } }, fun d =>
      { d with cal := { d.cal with n := 64, mod := 7, sum := 33554432, applied := 134217728 } }], by and_intros <;> decide +kernel⟩,
    ⟨7, 5, true, wit [fun d => d.updMod 7 fun e => { e with conv := none }], by decide +kernel⟩,
    ⟨7, ⟨3, 4, 5, false, 2⟩, 5, true, wit [fun d => d.updMod 7 fun e => { e with conv := some (⟨3, 4, 5, false, 2⟩ : Conv) }, fun d =>
      { d with hk := { d.hk with changing := true } }], by decide +kernel⟩,
    ⟨20, ⟨7, 4, 5, false, 2⟩, ⟨3, 4, 5⟩, 5, true, convDue wConversions2.dev 20 (⟨7, 4, 5, false, 2⟩ : Conv), wConversions2, by decide +kernel⟩,
    ⟨7, ⟨7, 2, 5, false, 2⟩, ⟨3, 4, 5⟩, 5, true, wit [fun d => { d with isl := { d.isl with stalled := Vector.replicate 24 false } }, fun d =>
      { d with isl := { d.isl with fifo := Vector.replicate 24 [] } }, fun d => d.updMod 7 fun e =>
      { e with conv := some (⟨7, 2, 5, false, 2⟩ : Conv), injHost := some (⟨3, 4, 5⟩ : Inj) }, fun d =>
      { d with hk := { d.hk with changing := false } }, fun d =>
      { d with memory := { d.memory with conf := msetw d.memory.conf (mdb 7) 2 }, mods := vset d.mods 7 { d.mods[(7 : Pm)] with acting := none, bad := false, conv := some (⟨7, 2, 5, false, 2⟩ : Conv), injHost := some (⟨3, 4, 5⟩ : Inj), tapN := 4 + 0 }, hk := { d.hk with changing := false } }],
      by decide +kernel⟩,
    ⟨19, ⟨1, 4, 5, false, 2⟩, 5, true, wit [fun d => { d with isl := { d.isl with stalled := Vector.replicate 24 false } }, fun d =>
      { d with isl := { d.isl with fifo := Vector.replicate 24 [] } }, fun d => d.updMod 19 fun e =>
      { e with conv := some (⟨1, 4, 5, false, 2⟩ : Conv) }, fun d => { d with hk := { d.hk with changing := false } }, fun d =>
      { d with hk := { d.hk with stray := vset d.hk.stray (Pm.quad 19) false } }, fun d =>
      { d with mods := (vset (d.mods.map fun (e : ModSt) => { e with acting := none, bad := false, failed := false }) 19 { d.mods[(19 : Pm)] with conv := some (⟨1, 4, 5, false, 2⟩ : Conv), failed := false, bad := false, acting := none }), memory := { d.memory with conf := msetw [] (mdb 19) 6 } , hk := { d.hk with changing := false, stray := Vector.replicate 4 false } }],
      by decide +kernel⟩,
    ⟨20, ⟨9, 4, 5, false, 2⟩, 5, true, wit [fun d => { d with isl := { d.isl with stalled := Vector.replicate 24 false } }, fun d =>
      { d with isl := { d.isl with fifo := Vector.replicate 24 [] } }, fun d => d.updMod 20 fun e =>
      { e with conv := some (⟨9, 4, 5, false, 2⟩ : Conv) }, fun d => { d with hk := { d.hk with changing := false } }, fun d =>
      { d with memory := { d.memory with conf := msetw d.memory.conf (mdb 20) 0 }, mods := vset d.mods 20 { d.mods[(20 : Pm)] with acting := none } }],
      by decide +kernel⟩,
    ⟨20, ⟨7, 4, 5, false, 2⟩, 5, true, wit [fun d => { d with isl := { d.isl with stalled := Vector.replicate 24 true } }, fun d => d.updMod 20 fun
      e => { e with conv := some (⟨7, 4, 5, false, 2⟩ : Conv) }, fun d => { d with hk := { d.hk with changing := false } }, fun d =>
      { d with memory := { d.memory with conf := msetw d.memory.conf (mdb 20) 0 }, mods := vset d.mods 20 { d.mods[(20 : Pm)] with acting := none }, hk := { d.hk with changing := false } },
      fun d => { d with mods := vset d.mods 20 { d.mods[(20 : Pm)] with conv := some (⟨7, 4, 5, false, 2⟩ : Conv) } }], by decide +kernel⟩,
    ⟨Pm.quad 20, 20, ⟨7, 4, 5, false, 2⟩, ⟨5, 4, 0⟩, 3, 3, 7, none, [], wit [fun d =>
      { d with isl := { d.isl with fifo := vset d.isl.fifo (xIndex (.toHk (Pm.quad 20))) [.result 20 ⟨7, 4, 5, false, 2⟩ 3 3 7 none] } }, fun d =>
      d.updMod 20 fun e => { e with conv := none, injHost := some ⟨5, 4, 0⟩ }, fun d => d.updArb (mport 20) fun e => { e with granted := [7] }],
      by decide +kernel⟩,
    ⟨7, ⟨3, 4, 5, false, 2⟩, 5, true, wit [fun d => d.updMod 7 fun e => { e with conv := some (⟨3, 4, 5, false, 2⟩ : Conv) }, fun d =>
      { d with memory := { d.memory with conf := d.memory.conf |> (fun mm => msetw mm (mdb 7) (2 + 3 * 16)) } }, fun d =>
      { d with mods := vset d.mods 7 { d.mods[(7 : Pm)] with acting := none, bad := false, tapN := 3 } }], by decide +kernel⟩⟩

theorem witness_SequencerTables :
    (∃ (t0 : Table) (s : State), calm (.sequencerDelayExpiry t0) s.dev = true ∧ (s.dev.seqs[t0]).running = false) ∧
    (∃ (t0 : Table) (w : ℕ) (m : Pm) (s : State), calm (.sequencerDelayExpiry t0) s.dev = true ∧ (s.dev.seqs[t0]).running = true ∧
      (s.dev.seqs[t0]).waiting = false ∧ (s.dev.seqs[t0]).waitHalt = false ∧ w = sqWord0 s.dev t0 (s.dev.seqs[t0]).entry ∧ sqEnabled w = true ∧ sqHl
      w = false ∧ m.1 = sqMod w ∧ (s.dev.quads[Pm.quad m]).armed = true ∧ tooLong s.dev m (sqOsr w) = false ∧ (s.dev.mods[m]).injHost = none ∧
      (s.dev.mods[m]).injNewt = none) ∧
    (∃ (t0 : Table) (w : ℕ) (m : Pm) (s : State), calm (.sequencerDelayExpiry t0) s.dev = true ∧ (s.dev.seqs[t0]).running = true ∧
      (s.dev.seqs[t0]).waiting = false ∧ (s.dev.seqs[t0]).waitHalt = false ∧ w = sqWord0 s.dev t0 (s.dev.seqs[t0]).entry ∧ sqEnabled w = true ∧ sqHl
      w = false ∧ m.1 = sqMod w ∧ ((s.dev.quads[Pm.quad m]).armed = false ∨ tooLong s.dev m (sqOsr w) = true)) ∧
    ∃ (t0 : Table) (w : ℕ) (m : Pm) (s : State), calm (.sequencerDelayExpiry t0) s.dev = true ∧ (s.dev.seqs[t0]).running = true ∧
      (s.dev.seqs[t0]).waiting = false ∧ (s.dev.seqs[t0]).waitHalt = false ∧ w = sqWord0 s.dev t0 (s.dev.seqs[t0]).entry ∧ sqEnabled w = true ∧ sqHl
      w = true ∧ m.1 = sqMod w :=
  ⟨
    ⟨2, wit [fun d => d.updSeq 2 fun e => { e with running := false }], by decide +kernel⟩,
    ⟨0, 7 + 4096 * 3 + 256 * 9, 7, wit [fun d => d.updSeq 0 fun e => { e with running := true, waiting := false, waitHalt := false }, fun d =>
      d.updQuad (Pm.quad 7) fun e => { e with armed := true }, fun d => d.updMod 7 fun e => { e with injHost := none, injNewt := none }, fun d =>
      { d with memory := { d.memory with conf := d.memory.conf |> (fun mm => msetw mm (sqb 0 + 0x100 + 8 * (d.seqs[(0 : Table)]).entry.1) (7 + 4096 * 3 + 256 * 9)) |> (fun mm => msetw mm (mdb 7) (2)) } },
      fun d => { d with mods := vset d.mods 7 { d.mods[(7 : Pm)] with injHost := none, injNewt := none, acting := none, bad := false } }, fun d =>
      { d with quads := vset d.quads 0 { d.quads[(0 : Quad)] with armed := true } }], by decide +kernel⟩,
    ⟨0, 7 + 4096 * 3 + 256 * 9, 7, wit [fun d => d.updSeq 0 fun e => { e with running := true, waiting := false, waitHalt := false }, fun d =>
      d.updQuad (Pm.quad 7) fun e => { e with armed := false }, fun d =>
      { d with memory := { d.memory with conf := d.memory.conf |> (fun mm => msetw mm (sqb 0 + 0x100 + 8 * (d.seqs[(0 : Table)]).entry.1) (7 + 4096 * 3 + 256 * 9)) |> (fun mm => msetw mm (mdb 7) (2)) } },
      fun d => { d with quads := vset d.quads 0 { d.quads[(0 : Quad)] with armed := false } }], by decide +kernel⟩,
    ⟨0, 7 + 4096 * 3 + 256 * 9 + 128, 7, wit [fun d => d.updSeq 0 fun e => { e with running := true, waiting := false, waitHalt := false }, fun d =>
      { d with memory := { d.memory with conf := d.memory.conf |> (fun mm => msetw mm (sqb 0 + 0x100 + 8 * (d.seqs[(0 : Table)]).entry.1) (7 + 4096 * 3 + 256 * 9 + 128)) |> (fun mm => msetw mm (mdb 7) (2)) } },
      fun d => { d with quads := vset d.quads 0 { d.quads[(0 : Quad)] with armed := false } }], by decide +kernel⟩⟩

def wThresholdReadback2 : State := wit [fun d => d.updMod 19 fun e => { e with failed := false }, fun d =>
  { d with hk := { d.hk with changing := false } }, fun d => d.updQuad 0 fun e => { e with rbBusy := true }, fun d =>
  { d with halt := { d.halt with phase := .quiet } }, fun d =>
  { d with mods := (vset (d.mods.map fun (e : ModSt) => { e with acting := none, bad := false, failed := false }) 19 { d.mods[(19 : Pm)] with conv := some ⟨1, 3, 3, true, 0⟩, failed := false, bad := false, acting := none }), memory := { d.memory with conf := msetw [] (mdb 19) 6 }, quads := vset d.quads 0 { d.quads[(0 : Quad)] with rbGen := 7, rbBusy := true }, halt := { d.halt with phase := .quiet }, hk := { d.hk with changing := false } }]

theorem witness_HaltMeasurements :
    (∃ (raws : Vector (BitVec 24) 88) (s : State), calm (.snapshotDone raws) s.dev = true ∧ s.dev.halt.phase ≠ .quiet) ∧
    (∃ (raws : Vector (BitVec 24) 88) (h : HaltSched) (s : State), calm (.snapshotDone raws) s.dev = true ∧ s.dev.halt.cur = some h ∧
      s.dev.halt.phase = .quiet ∧ s.dev.halt.converted = true ∧ s.dev.halt.snapped = false ∧ s.dev.hk.changing = false ∧ s.dev.hk.changedAt = none)
      ∧
    (∃ (raws : Vector (BitVec 24) 88) (h : HaltSched) (s : State), calm (.snapshotDone raws) s.dev = true ∧ s.dev.halt.cur = some h ∧
      s.dev.halt.phase = .quiet ∧ s.dev.halt.converted = true ∧ s.dev.halt.snapped = false ∧ s.dev.hk.changing = true) ∧
    (∃ (q : Quad) (raw : BitVec 24) (idle : Cmp) (high : Cmp) (s : State), calm (.readbackTestDone q raw idle high) s.dev = true ∧ hkswOf s.dev q =
      none) ∧
    (∃ (q : Quad) (m : Pm) (raw : BitVec 24) (idle : Cmp) (high : Cmp) (s : State), calm (.readbackTestDone q raw idle high) s.dev = true ∧ hkswOf
      s.dev q = some m ∧ readbackOpen s.dev m = false) ∧
    ∃ (q : Quad) (m : Pm) (raw : BitVec 24) (idle : Cmp) (high : Cmp) (n : Slot) (x : Qty) (s : State), calm (.readbackTestDone q raw idle high)
      s.dev = true ∧ hkswOf s.dev q = some m ∧ (s.dev.mods[m]).failed = false ∧ readbackOpen s.dev m = true ∧ s.dev.hk.changing = false ∧
      (s.dev.quads[q]).rbBusy = true ∧ s.dev.halt.phase = .quiet ∧ (s.dev.quads[q]).rbGen / 2 < 34 ∧ n.1 = 34 * q.1 + (s.dev.quads[q]).rbGen / 2 ∧ x
      = (3 / 2 + ((correct s.dev m raw.toInt).1 : Qty) * (5 / 2) / 8388608 - (if (s.dev.quads[q]).rbOdd then 768 else 256) * 3 / 1024) * 1024 / 3 :=
  ⟨
    ⟨(Vector.ofFn fun (i : Fin 88) => BitVec.ofNat 24 (i.1 * 7919 + 0)), wit [fun d =>
      { d with start := { d.start with st := .run }, isl := { d.isl with clkRun := 0x1F } }], by decide +kernel⟩,
    ⟨(Vector.ofFn fun (i : Fin 88) => BitVec.ofNat 24 (i.1 * 7919 + 0)), ⟨77, T0 + 1000000, 12, 4000000, true⟩, wit [fun d =>
      { d with start := { d.start with st := .run }, isl := { d.isl with clkRun := 0x1F } }, fun d =>
      { d with halt := { d.halt with cur := some (⟨77, T0 + 1000000, 12, 4000000, true⟩ : HaltSched), phase := .quiet, converted := true, snapped := false } },
      fun d => { d with hk := { d.hk with changing := false, changedAt := none } }], by decide +kernel⟩,
    ⟨(Vector.ofFn fun (i : Fin 88) => BitVec.ofNat 24 (i.1 * 7919 + 0)), ⟨77, T0 + 1000000, 12, 4000000, true⟩, wit [fun d =>
      { d with halt := { d.halt with cur := some (⟨77, T0 + 1000000, 12, 4000000, true⟩ : HaltSched), phase := .quiet, converted := true, snapped := false } },
      fun d => { d with hk := { d.hk with changing := true } }], by decide +kernel⟩,
    ⟨0, 5, .above, .above, ⟨State.reset.dev, []⟩, by decide +kernel⟩,
    ⟨0, 19, 5, .above, .above, wit [fun d =>
      { d with mods := (vset (d.mods.map fun (e : ModSt) => { e with acting := none, bad := false, failed := false }) 19 { d.mods[(19 : Pm)] with conv := some ⟨3, 3, 3, true, 0⟩, failed := false, bad := false, acting := none }), memory := { d.memory with conf := msetw [] (mdb 19) 6 } }],
      by decide +kernel⟩,
    ⟨0, 19, (5 : BitVec 24), .above, .above, 3, (3 / 2 + ((correct wThresholdReadback2.dev 19 ((5 : BitVec 24)).toInt).1 : Qty) * (5 / 2) / 8388608
      - (if (wThresholdReadback2.dev.quads[0]).rbOdd then 768 else 256) * 3 / 1024) * 1024 / 3, wThresholdReadback2, by decide +kernel⟩⟩

def wThermalModels1 : State := wit [fun d => { d with start := { d.start with st := .run } }, fun d =>
  { d with start := { d.start with st := .run } }, fun d => { d with quads := d.quads.map fun (e : QuadSt) => { e with armed := true } }]

theorem witness_ThermalModels :
    (∃ (s : State), modelsRun s.dev = false) ∧
    (∃ (m : Model) (p : Qty) (s : State), modelsRun s.dev = true ∧ s.dev.col.fiMode ≠ 3 ∧ modelInUse s.dev m = true ∧ clFed s.dev (tmCl s.dev m) =
      false ∧ p = ((forEach allQuads drainHk s.dev).therm[m]).frameE * 1000) ∧
    (∃ (q : Quad) (s : State), modelsRun s.dev = true) ∧
    (∃ (q : Quad) (v : List (Qty × Qty)) (rest : List Msg) (s : State), s.dev.isl.fifo[xIndex (.toQd q)] = .tj v :: rest) ∧
    (∃ (q : Quad) (s : State), s.dev.isl.fifo[xIndex (.toQd q)].any isTj = false) ∧
    (∃ (tj : Qty) (tdr : Qty) (ttrip : Qty) (mn : Qty), tj ≤ tdr) ∧
    (∃ (tj : Qty) (tdr : Qty) (ttrip : Qty) (mn : Qty), tdr < ttrip ∧ ttrip ≤ tj) ∧
    ∃ (tj : Qty) (tdr : Qty) (ttrip : Qty) (mn : Qty), tdr < tj ∧ tj < ttrip ∧ mn ≤ 1 :=
  ⟨
    ⟨wit [fun d => { d with start := { d.start with st := .build } }], by decide +kernel⟩,
    ⟨168, ((forEach allQuads drainHk wThermalModels1.dev).therm[168]).frameE * 1000, wThermalModels1, by decide +kernel⟩,
    ⟨0, wit [fun d => { d with start := { d.start with st := .run } }, fun d => { d with start := { d.start with st := .run } }],
      by decide +kernel⟩,
    ⟨0, [(50, 1), (60, 1/2)], [], wit [fun d =>
      { d with isl := { d.isl with fifo := vset d.isl.fifo (xIndex (.toQd 0)) (.tj [(50, 1), (60, 1/2)] :: []) } }], by decide +kernel⟩,
    ⟨0, ⟨State.reset.dev, []⟩, by decide +kernel⟩,
    ⟨3, 3, 3, 3, by decide +kernel⟩,
    ⟨151, 100, 150, 3, by decide +kernel⟩,
    ⟨120, 100, 150, 1/2, by decide +kernel⟩⟩

theorem witness_HousekeepingRound :
    (∃ (s : State), calm .hkRoundStart s.dev = true ∧ modelsRun s.dev = false) ∧
    (∃ (s : State), calm .hkRoundStart s.dev = true ∧ modelsRun s.dev = true) ∧
    (∃ (q : Quad) (s : State), s.dev.hk.pos[q] < 15) ∧
    (∃ (c : Chan) (r : ℤ) (s : State), (∀ q : Quad, s.dev.hk.pos[q] = 15) ∧ (∀ q : Quad, (s.dev.hk.raws[q]).length = 15) ∧ roundRaw s.dev (Chan.quad
      c) (6 + c.1 % 8) = some r) ∧
    ∃ (j : Fin 8) (r : ℤ) (s : State), s.dev.col.fiMode ≠ 3 ∧ colRuns s.dev = true ∧ (∀ q : Quad, s.dev.hk.pos[q] = 15) ∧ (∀ q : Quad,
      (s.dev.hk.raws[q]).length = 15) ∧ roundRaw s.dev (Fin.ofNat 4 (j.1 / 2)) (4 + j.1 % 2) = some r :=
  ⟨
    ⟨wit [fun d => { d with start := { d.start with st := .build } }], by decide +kernel⟩,
    ⟨wit [fun d => { d with start := { d.start with st := .run } }], by decide +kernel⟩,
    ⟨0, wit [fun d => { d with hk := { d.hk with pos := Vector.replicate 4 3 } }], by decide +kernel⟩,
    ⟨(0 : Chan), 240000, wit [fun d => { d with hk := { d.hk with raws := Vector.replicate 4 (List.replicate 15 (some 240000)) } }],
      by decide +kernel⟩,
    ⟨1, 250000, wit [fun d =>
      { d with hk := { d.hk with pos := Vector.replicate 4 15, raws := Vector.replicate 4 ((List.range 15).map fun (i : Nat) => some ((i : Int) * 50000)), railBadRun := Vector.replicate 8 1 } },
      fun d => { d with start := { d.start with st := .run } }], by decide +kernel⟩⟩

theorem witness_ReferencesAndClocks :
    (∃ (s : State), colRuns s.dev = true ∧ s.dev.col.fiMode ≠ 3 ∧ s.dev.hk.refbBad = false ∧ s.dev.hk.refOnB = false) ∧
    (∃ (s : State), colRuns s.dev = true ∧ s.dev.col.fiMode ≠ 3 ∧ s.dev.hk.refaBad = true) ∧
    (∃ (b : Bool) (s : State), s.dev.col.fiMode ≠ 3 ∧ (s.dev.faults[Fin.ofNat 2048 (if b then 0x599 else 0x598)]).rpath = false) ∧
    (∃ (u : ℕ) (s : State), calm .referenceChangeLaunch s.dev = true ∧ s.dev.hk.changeAt = some u) ∧
    (∃ (s : State), calm .referenceChangeLaunch s.dev = true ∧ s.dev.hk.changeAt = none) ∧
    (∃ (i : Island) (s : State), colRuns s.dev = true ∧ s.dev.col.fiMode ≠ 3 ∧ bitOf s.dev.hk.oscLost.toNat (2 * i.1) = false ∧ bitOf
      s.dev.hk.oscLost.toNat (2 * i.1 + 1) = false) ∧
    (∃ (i : Island) (s : State), colRuns s.dev = true ∧ s.dev.col.fiMode ≠ 3 ∧ bitOf s.dev.hk.oscLost.toNat (2 * i.1) = true ∧ bitOf
      s.dev.hk.oscLost.toNat (2 * i.1 + 1) = false) ∧
    ∃ (i : Island) (o : Fin 2) (s : State), bitOf s.dev.hk.oscLost.toNat (2 * i.1 + o.1) = true :=
  ⟨
    ⟨wit [fun d => { d with start := { d.start with st := .run } }, fun d => { d with hk := { d.hk with refbBad := false, refOnB := false } }],
      by decide +kernel⟩,
    ⟨wit [fun d => { d with start := { d.start with st := .run } }, fun d => { d with hk := { d.hk with refaBad := true } }], by decide +kernel⟩,
    ⟨true, wit [fun d => d.updFault (Fin.ofNat 2048 (if true then 0x599 else 0x598)) fun e => { e with rpath := false }], by decide +kernel⟩,
    ⟨1000, wit [fun d => { d with hk := { d.hk with changeAt := some 1000 } }], by decide +kernel⟩,
    ⟨wit [fun d => { d with hk := { d.hk with changeAt := none } }], by decide +kernel⟩,
    ⟨2, wit [fun d => { d with start := { d.start with st := .run } }], by decide +kernel⟩,
    ⟨1, wit [fun d => { d with start := { d.start with st := .run } }, fun d => { d with hk := { d.hk with oscLost := 4 } }], by decide +kernel⟩,
    ⟨1, 1, wit [fun d => { d with hk := { d.hk with oscLost := 12 } }], by decide +kernel⟩⟩

theorem witness_FaultSources :
    (∃ (f : Fsrc) (s : State), ((s.dev.faults[f]).active = true ∨ scopeOf f.1 = none ∨ colRuns s.dev = false)) ∧
    (∃ (f : Fsrc) (sc : Scope) (s : State), colRuns s.dev = true ∧ (s.dev.faults[f]).active = false ∧ scopeOf f.1 = some sc ∧ busSettled (faultRaise
      f s.dev) = true) ∧
    (∃ (f : Fsrc) (sc : Scope) (s : State), (s.dev.faults[f]).active = false ∧ scopeOf f.1 = some sc ∧ effSev s.dev f.1 = .log ∧ busSettled
      (faultRaise f s.dev) = true) ∧
    (∃ (f : Fsrc) (c : Chan) (s : State), s.dev.start.st = .run ∧ (s.dev.faults[f]).active = false ∧ scopeOf f.1 = some (.channel c) ∧ effSev s.dev
      f.1 = .channel ∧ (s.dev.chans[c]).armed = true ∧ (s.dev.chans[c]).st ≠ .held ∧ (s.dev.chans[c]).st ≠ .unarmed ∧ busSettled (faultRaise f
      s.dev) = true) ∧
    (∃ (f : Fsrc) (c : Chan) (s : State), s.dev.start.st = .run ∧ (s.dev.faults[f]).active = false ∧ scopeOf f.1 = some (.path c) ∧ effSev s.dev f.1
      = .channel ∧ (s.dev.paths[c]).st = .full) ∧
    (∃ (f : Fsrc) (s : State), s.dev.start.st = .run ∧ (s.dev.faults[f]).active = false ∧ scopeOf f.1 = some .device ∧ effSev s.dev f.1 = .device) ∧
    (∃ (f : Fsrc) (lv : Bool) (sc : Scope) (s : State), colRuns s.dev = true ∧ scopeOf f.1 = some sc ∧ (s.dev.faults[f]).rpath = false ∧
      s.dev.col.logQ.length < 31 ∧ busSettled (rpathFault f lv s.dev) = true) ∧
    (∃ (f : Fsrc) (lv : Bool) (s : State), ((s.dev.faults[f]).rpath = true ∨ colRuns s.dev = false)) ∧
    (∃ (f : Fsrc) (lv : Bool) (sc : Scope) (s : State), s.dev.start.st = .run ∧ scopeOf f.1 = some sc ∧ (s.dev.faults[f]).rpath = false ∧ baseSev
      s.dev f.1 = .device) ∧
    (∃ (f : Fsrc) (s : State), (s.dev.faults[f]).rpath = true ∧ s.dev.col.logQ.length < 32) ∧
    ∃ (f : Fsrc) (s : State), (s.dev.faults[f]).rpath = false :=
  ⟨
    ⟨0x305, wit [fun d => d.updFault 0x305 fun e => { e with active := true }], by decide +kernel⟩,
    ⟨0x100, (scopeOf 0x100).getD .device, wit [fun d => { d with start := { d.start with st := .run } }, fun d => d.updFault 0x100 fun e =>
      { e with active := false }], by decide +kernel⟩,
    ⟨0x100, (scopeOf 0x100).getD .device, wit [fun d => d.updFault 0x100 fun e => { e with active := false }, fun d =>
      { d with memory := { d.memory with conf := d.memory.conf |> (fun mm => msetw mm (fltb 0x100) (1)) } }], by decide +kernel⟩,
    ⟨0x305, 5, wit [fun d => { d with start := { d.start with st := .run } }, fun d => d.updFault 0x305 fun e => { e with active := false }, fun d
      => d.updChan 5 fun e => { e with armed := true }, fun d =>
      { d with memory := { d.memory with conf := d.memory.conf |> (fun mm => msetw mm (fltb 0x305) (2)) } }, fun d =>
      { d with chans := vset d.chans 5 { d.chans[5] with st := .regulate } }], by decide +kernel⟩,
    ⟨0x425, 5, wit [fun d => { d with start := { d.start with st := .run } }, fun d => d.updFault 0x425 fun e => { e with active := false }, fun d
      => d.updPath 5 fun e => { e with st := .full }, fun d =>
      { d with memory := { d.memory with conf := d.memory.conf |> (fun mm => msetw mm (fltb 0x425) (2)) } }], by decide +kernel⟩,
    ⟨0x5E6, wit [fun d => { d with start := { d.start with st := .run } }, fun d => d.updFault 0x5E6 fun e => { e with active := false }, fun d =>
      { d with memory := { d.memory with conf := d.memory.conf |> (fun mm => msetw mm (fltb 0x5E6) (4)) } }, fun d =>
      { d with faults := vset d.faults 0x5E6 { d.faults[0x5E6] with rpath := false } }], by decide +kernel⟩,
    ⟨0x100, true, (scopeOf 0x100).getD .device, wit [fun d => { d with start := { d.start with st := .run } }, fun d => d.updFault 0x100 fun e =>
      { e with rpath := false }, fun d => { d with col := { d.col with logQ := [] } }], by decide +kernel⟩,
    ⟨[0x100, 0x320, 0x3C5, 0x443, 0x596, 0x5E6, 0x4A1, 0x602].getD (0 % 8) 0, true, wit [fun d => d.updFault ([0x100, 0x320, 0x3C5, 0x443, 0x596,
      0x5E6, 0x4A1, 0x602].getD (0 % 8) 0) fun e => { e with rpath := true }], by decide +kernel⟩,
    ⟨0x5E6, true, (scopeOf 0x5E6).getD .device, wit [fun d => { d with start := { d.start with st := .run } }, fun d => d.updFault 0x5E6 fun e =>
      { e with rpath := false }, fun d => { d with memory := { d.memory with conf := d.memory.conf |> (fun mm => msetw mm (fltb 0x5E6) (4)) } }],
      by decide +kernel⟩,
    ⟨0x305, wit [fun d => d.updFault 0x305 fun e => { e with rpath := true }], by decide +kernel⟩,
    ⟨0x305, wit [fun d => d.updFault 0x305 fun e => { e with rpath := false }], by decide +kernel⟩⟩

def wRecovery1 : State := wit [fun d => d.updFault 0x305 fun e => { e with hold := true, latched := false, promoted := false, active := false }, fun
  d =>
  { d with faults := vset d.faults 0x305 { d.faults[0x305] with winAt := some d.clk.loc, win := 200, quietAt := some (d.clk.loc - 100000000) } },
  fun d =>
  { d with memory := { d.memory with conf := d.memory.conf |> (fun mm => msetw mm (0x400) (0x003C0001)) |> (fun mm => msetw mm (0x404) (3)) |> (fun mm => msetw mm (fltb 0x305) (0)) } }]

theorem witness_Recovery :
    (∃ (f : Fsrc) (u : ℕ) (s : State), calm (.recoveryGrant f) s.dev = true ∧ (s.dev.faults[f]).quietAt = some u ∧ (s.dev.faults[f]).hold = true ∧
      (s.dev.faults[f]).latched = false ∧ (s.dev.faults[f]).promoted = false ∧ (s.dev.faults[f]).active = false ∧ effSev s.dev f.1 ≠ .breaker ∧
      (s.dev.faults[f]).winAt = none) ∧
    (∃ (f : Fsrc) (u : ℕ) (w : ℕ) (s : State), calm (.recoveryGrant f) s.dev = true ∧ (s.dev.faults[f]).quietAt = some u ∧ (s.dev.faults[f]).hold =
      true ∧ (s.dev.faults[f]).latched = false ∧ (s.dev.faults[f]).promoted = false ∧ (s.dev.faults[f]).active = false ∧ effSev s.dev f.1 ≠ .breaker
      ∧ (s.dev.faults[f]).winAt = some w ∧ max s.dev.clk.loc (u + frQuiet s.dev (fsProf s.dev f)) < w + frWin s.dev (fsProf s.dev f) ∧ frMax s.dev
      (fsProf s.dev f) ≤ (s.dev.faults[f]).win.toNat) ∧
    (∃ (f : Fsrc) (s : State), calm (.recoveryGrant f) s.dev = true ∧ ((s.dev.faults[f]).quietAt = none ∨ (s.dev.faults[f]).hold = false ∨
      (s.dev.faults[f]).latched = true ∨ (s.dev.faults[f]).promoted = true ∨ (s.dev.faults[f]).active = true ∨ effSev s.dev f.1 = .breaker)) ∧
    ∃ (f : Fsrc) (w : ℕ) (s : State), calm (.promotionWindowEnd f) s.dev = true ∧ (s.dev.faults[f]).winAt = some w :=
  ⟨
    ⟨0x305, 1000, wit [fun d => d.updFault 0x305 fun e =>
      { e with quietAt := some 1000, hold := true, latched := false, promoted := false, active := false, winAt := none }], by decide +kernel⟩,
    ⟨0x305, wRecovery1.dev.clk.loc - 100000000, wRecovery1.dev.clk.loc, wRecovery1, by decide +kernel⟩,
    ⟨0x305, wit [fun d => d.updFault 0x305 fun e => { e with quietAt := none }], by decide +kernel⟩,
    ⟨0x305, 5, wit [fun d => d.updFault 0x305 fun e => { e with winAt := some 5 }], by decide +kernel⟩⟩

def wLogAndCaptures3 : State := wit [fun d =>
  { d with col := { d.col with caps := [(⟨0, 5, 1, 3, 4, 99, 50, 7, []⟩ : Cap), { (⟨0, 5, 1, 3, 4, 99, 50, 7, []⟩ : Cap) with buf := 3 }] }, memory := { d.memory with mem := msetw [] 0x80 7 } }]

theorem witness_LogAndCaptures :
    (∃ (bs : List Byte) (rest : List (List Byte)) (s : State), 2 ∈ (s.dev.arbs[wport]).granted ∧ s.dev.col.logQ = bs :: rest ∧ bs.length = 32 ∧
      s.dev.memory.mem.wf = true ∧ s.dev.col.fiRsN = 0) ∧
    (∃ (s : State), 2 ∉ (s.dev.arbs[wport]).granted) ∧
    (∃ (s : State), calm .logSecondEnd s.dev = true) ∧
    (∃ (b : Fin 16) (c : Cap) (s : State), calm (.captureBufferComplete b) s.dev = true ∧ s.dev.col.caps.find? (fun c => decide (c.buf = b.1)) =
      some c ∧ s.dev.memory.mem.wf = true) ∧
    (∃ (f : Fsrc) (sc : Scope) (s : State), colRuns s.dev = true ∧ (s.dev.faults[f]).active = false ∧ scopeOf f.1 = some sc ∧ wantsCap s.dev f.1
      (effSev s.dev f.1) = true ∧ s.dev.col.capBusy = 0 ∧ s.dev.col.capFull = 0 ∧ busSettled (faultRaise f s.dev) = true) ∧
    (∃ (f : Fsrc) (sc : Scope) (s : State), colRuns s.dev = true ∧ (s.dev.faults[f]).active = false ∧ scopeOf f.1 = some sc ∧ wantsCap s.dev f.1
      (effSev s.dev f.1) = true ∧ s.dev.col.capBusy ||| s.dev.col.capFull = 0xFFFF ∧ busSettled (faultRaise f s.dev) = true) ∧
    (∃ (s : State), calm .fiDurationExpiry s.dev = true ∧ s.dev.col.fiMode ≠ 0) ∧
    (∃ (s : State), calm .fiDurationExpiry s.dev = true ∧ s.dev.col.fiMode = 0) ∧
    ∃ (w : Table) (s : State), 4 + w.1 ∉ (s.dev.arbs[wport]).granted :=
  ⟨
    ⟨List.replicate 32 0x5A, [], wit [fun d => { d with col := { d.col with logQ := (List.replicate 32 0x5A) :: [], fiRsN := 0 } }, fun d =>
      { d with memory := { d.memory with mem := msetw [] 0x80 7 } }, fun d =>
      { d with arbs := vset d.arbs (wport) { d.arbs[(wport : Fin 99)] with granted := [2] } }], by decide +kernel⟩,
    ⟨⟨State.reset.dev, []⟩, by decide +kernel⟩,
    ⟨⟨State.reset.dev, []⟩, by decide +kernel⟩,
    ⟨Fin.ofNat _ (⟨0, 5, 1, 3, 4, 99, 50, 7, []⟩ : Cap).buf, ⟨0, 5, 1, 3, 4, 99, 50, 7, []⟩, wLogAndCaptures3, by decide +kernel⟩,
    ⟨0x100, (scopeOf 0x100).getD .device, wit [fun d => { d with start := { d.start with st := .run } }, fun d => d.updFault 0x100 fun e =>
      { e with active := false }, fun d => { d with col := { d.col with capBusy := 0, capFull := 0 } }, fun d =>
      { d with memory := { d.memory with conf := d.memory.conf |> (fun mm => msetw mm (fltb 0x100) (16)) } }, fun d =>
      { d with col := { d.col with capBusy := 0, capFull := 0 } }], by decide +kernel⟩,
    ⟨0x100, (scopeOf 0x100).getD .device, wit [fun d => { d with start := { d.start with st := .run } }, fun d => d.updFault 0x100 fun e =>
      { e with active := false }, fun d => { d with memory := { d.memory with conf := d.memory.conf |> (fun mm => msetw mm (fltb 0x100) (16)) } },
      fun d => { d with col := { d.col with capBusy := 0xFF0F, capFull := 0x00F0 } }], by decide +kernel⟩,
    ⟨wit [fun d => { d with col := { d.col with fiMode := 3, fiFsrc := 0x305, fiMs := 20, fiAt := d.clk.up } }], by decide +kernel⟩,
    ⟨wit [fun d => { d with col := { d.col with fiMode := 0 } }], by decide +kernel⟩,
    ⟨2, ⟨State.reset.dev, []⟩, by decide +kernel⟩⟩

theorem witness_RecordRings :
    (∃ (w : Table) (r : Ring) (bs : List Byte) (rest : List (Ring × List Byte)) (s : State), 4 + w.1 ∈ (s.dev.arbs[wport]).granted ∧
      s.dev.writers[w] = (r, bs) :: rest ∧ fill16 (s.dev.rings[r]).wr (s.dev.rings[r]).rd < 256 ∧ s.dev.memory.mem.wf = true) ∧
    (∃ (w : Table) (r : Ring) (bs : List Byte) (rest : List (Ring × List Byte)) (s : State), 4 + w.1 ∈ (s.dev.arbs[wport]).granted ∧
      s.dev.writers[w] = (r, bs) :: rest ∧ 256 ≤ fill16 (s.dev.rings[r]).wr (s.dev.rings[r]).rd ∧ rgDrop s.dev r = true) ∧
    ∃ (w : Table) (r : Ring) (bs : List Byte) (rest : List (Ring × List Byte)) (s : State), 4 + w.1 ∈ (s.dev.arbs[wport]).granted ∧ s.dev.writers[w]
      = (r, bs) :: rest ∧ 256 ≤ fill16 (s.dev.rings[r]).wr (s.dev.rings[r]).rd ∧ rgDrop s.dev r = false ∧ s.dev.memory.mem.wf = true :=
  ⟨
    ⟨2, 7, List.replicate 32 0x5A, [], wit [fun d => { d with writers := vset d.writers 2 [(7, List.replicate 32 0x5A)] }, fun d => d.updArb wport
      fun x => { x with granted := [6] }, fun d => d.updRing 7 fun x => { x with wr := 0x1234, rd := 0x1200 }], by decide +kernel⟩,
    ⟨2, 7, List.replicate 32 0x5A, [], wit [fun d => { d with writers := vset d.writers 2 [(7, List.replicate 32 0x5A)] }, fun d => d.updArb wport
      fun x => { x with granted := [6] }, fun d => d.updRing 7 fun x => { x with wr := 0x1234, rd := 0x1134 }, fun d =>
      { d with memory := { d.memory with conf := msetw [] (rgb 7) 512 } }], by decide +kernel⟩,
    ⟨2, 7, List.replicate 32 0x5A, [], wit [fun d => { d with writers := vset d.writers 2 [(7, List.replicate 32 0x5A)] }, fun d => d.updArb wport
      fun x => { x with granted := [6] }, fun d => d.updRing 7 fun x => { x with wr := 0x1234, rd := 0x1134 }], by decide +kernel⟩⟩

theorem witness_Scrubber :
    (∃ (n : Fin 36) (s : State), calm (.scrubStep n) s.dev = true ∧ (s.dev.start.st = .reset ∨ s.dev.start.st = .init)) ∧
    (∃ (s : State), calm (.scrubStep 0) s.dev = true ∧ s.dev.start.st = .run ∧ cwErrs s.dev s.dev.memory.scrubAt.1 = (0, 0)) ∧
    (∃ (s : State), calm (.scrubStep 1) s.dev = true ∧ s.dev.start.st = .run ∧ cwErrs s.dev s.dev.memory.scrubAt.1 = (0, 0) ∧ s.dev.memory.scrubAt.1
      ∉ s.dev.memory.fixing) ∧
    (∃ (n : Fin 36) (s : State), calm (.scrubStep n) s.dev = true ∧ s.dev.start.st = .run ∧ 2 ≤ n.1 ∧ cwErrs s.dev s.dev.memory.scrubAt.1 = (0, 0) ∧
      s.dev.memory.scrubAt.1 ∉ s.dev.memory.raised) ∧
    (∃ (b : ℕ) (r : ℕ) (sp : ℕ) (rest : List (ℕ × ℕ × ℕ)) (s : State), s.dev.memory.copying = (b, r, sp) :: rest ∧ 8 ≤ s.dev.memory.copied ∧ (∀ x ∈
      s.dev.memory.remap, x.1 ≠ b) ∧ s.dev.col.logQ.length < 32) ∧
    (∃ (s : State), s.dev.memory.copied < 8) ∧
    ∃ (b : Fin 8) (r : Fin 576) (x : (ℕ × ℕ) × ℕ × ℕ) (s : State), calm (.correctionWindowExpiry b r) s.dev = true ∧ s.dev.memory.rowCorr.find? (fun
      y => y.1 = (b.1, r.1)) = some x :=
  ⟨
    ⟨1, wit [fun d => { d with start := { d.start with st := .reset } }], by decide +kernel⟩,
    ⟨wit [fun d => { d with start := { d.start with st := .run } }], by decide +kernel⟩,
    ⟨wit [fun d => { d with start := { d.start with st := .run } }], by decide +kernel⟩,
    ⟨12, wit [fun d => { d with start := { d.start with st := .run } }], by decide +kernel⟩,
    ⟨2, 9, 500, [], wit [fun d => { d with memory := { d.memory with copying := (2, 9, 500) :: [] } }, fun d =>
      { d with memory := { d.memory with copied := 8, remap := [] }, col := { d.col with logQ := [] } }], by decide +kernel⟩,
    ⟨⟨State.reset.dev, []⟩, by decide +kernel⟩,
    ⟨2, 9, ((2, 9), (1, 5000)), wit [fun d => { d with memory := { d.memory with rowCorr := [((2, 9), (1, 5000)), ((3, 9), (1, 5000))] } }],
      by decide +kernel⟩⟩

theorem witness_Substitutions :
    (∃ (s : State), calm .newtRequest s.dev = true ∧ s.dev.halt.next = none) ∧
    (∃ (h : HaltSched) (s : State), calm .newtRequest s.dev = true ∧ s.dev.halt.next = some h ∧ s.dev.start.st = .run) ∧
    (∃ (s : State), s.dev.memory.swaps.find? (fun w => w.ovl.isNone) = none) ∧
    (∃ (w : Swap) (s : State), s.dev.memory.swaps.find? (fun w => w.ovl.isNone) = some w ∧ w.modulator = false ∧ (swapCheck (comingDev s.dev)
      (comingOvl s.dev) w).reason = 0) ∧
    ∃ (w : Swap) (s : State), s.dev.memory.swaps.find? (fun w => w.ovl.isNone) = some w ∧ w.modulator = false ∧ (swapCheck (comingDev s.dev)
      (comingOvl s.dev) w).reason ≠ 0 :=
  ⟨
    ⟨wit [fun d => { d with halt := { d.halt with next := none } }], by decide +kernel⟩,
    ⟨⟨77, T0 + 1000000, 12, 4000000, true⟩, wit [fun d =>
      { d with halt := { d.halt with next := some (⟨77, T0 + 1000000, 12, 4000000, true⟩ : HaltSched) } }, fun d =>
      { d with start := { d.start with st := .run } }], by decide +kernel⟩,
    ⟨⟨State.reset.dev, []⟩, by decide +kernel⟩,
    ⟨⟨false, 3, 33, 2, none⟩, wit [fun d => { d with memory := { d.memory with swaps := [⟨false, 3, 33, 2, none⟩] } }, fun d =>
      { d with chans := d.chans.map fun (e : ChanSt) => { e with armed := false }, quads := d.quads.map fun (e : QuadSt) => { e with armed := false } },
      fun d => { d with loader := { d.loader with base := goodBase, ovls := [], dirBad := none }, mode := { d.mode with active := 0 } }],
      by decide +kernel⟩,
    ⟨⟨false, 3, 33, 2, none⟩, wit [fun d => { d with memory := { d.memory with swaps := [⟨false, 3, 33, 2, none⟩] } }, fun d =>
      { d with loader := { d.loader with dirBad := some 3 } }], by decide +kernel⟩⟩

def wRegionReload0 : State := wit [fun d => { d with reload := { d.reload with st := 2 } }, fun d =>
  { d with loader := { d.loader with base := [] } }]
def wRegionReload1 : State := wit [fun d =>
  { d with isl := { d.isl with stalled := if 0 % 2 = 0 then Vector.replicate 24 false else Vector.replicate 24 true } }, fun d =>
  { d with reload := { d.reload with st := 2 } }, fun d =>
  { d with chans := d.chans.map fun (e : ChanSt) => { e with armed := false }, quads := d.quads.map fun (e : QuadSt) => { e with armed := false }, loader := { d.loader with base := goodBase }, reload := { d.reload with newBase := goodBase, obj := 0, st := 2, quad := false, imgRes := 1, differ := none, dirBad := none } , mods := d.mods.map fun (e : ModSt) => { e with acting := none, bad := false }, slots := d.slots.map fun (e : SlotSt) => { e with forCh := none, repl := none, shedFrom := none, dflt := false, holders := [] } }]

theorem witness_RegionReload :
    (∃ (l : List (ℕ × ℕ)) (r : CheckRes) (s : State), s.dev.reload.st = 2 ∧ l = reloadRanges s.dev s.dev.reload.newBase (reloadRegion s.dev) ∧ r =
      reloadCheck s.dev (reloadStruct s.dev) (mergeBase s.dev.loader.base s.dev.reload.newBase l) (mergeOvls s.dev.loader.ovls s.dev.reload.newOvls
      l) (reloadSlots s.dev s.dev.reload.newBase (reloadRegion s.dev)) ∧ r.reason ≠ 0) ∧
    (∃ (l : List (ℕ × ℕ)) (r : CheckRes) (s : State), s.dev.reload.st = 2 ∧ l = reloadRanges s.dev s.dev.reload.newBase (reloadRegion s.dev) ∧ r =
      reloadCheck s.dev (reloadStruct s.dev) (mergeBase s.dev.loader.base s.dev.reload.newBase l) (mergeOvls s.dev.loader.ovls s.dev.reload.newOvls
      l) (reloadSlots s.dev s.dev.reload.newBase (reloadRegion s.dev)) ∧ r.reason = 0) ∧
    (∃ (s : State), s.dev.reload.st ≠ 2) ∧
    (∃ (s : State), s.dev.reload.st = 3 ∧ (regionChans (reloadRegion s.dev)).all (reloadQuiet s.dev) = true) ∧
    (∃ (s : State), (regionChans (reloadRegion s.dev)).all (reloadQuiet s.dev) = false) ∧
    (∃ (s : State), calm .reloadStopTimeout s.dev = true ∧ s.dev.reload.st = 3) ∧
    (∃ (s : State), s.dev.reload.st = 4 ∧ s.dev.reload.written = false ∧ s.dev.memOk) ∧
    (∃ (s : State), calm .reloadRearmLaunch s.dev = true ∧ s.dev.reload.st = 4 ∧ s.dev.reload.written = true ∧ s.dev.reload.recheck = false ∧ (∀ x :
      Fin 24, s.dev.isl.fifo[x] = []) ∧ (∀ i : Island, s.dev.isl.launches[i] = []) ∧ (∀ q : Quad, s.dev.isl.ahead[q] = false)) ∧
    (∃ (s : State), s.dev.start.st = .run ∧ s.dev.halt.cur = none ∧ s.dev.reload.st = 4 ∧ s.dev.reload.written = true ∧ s.dev.reload.recheck = false
      ∧ (∀ x : Fin 24, s.dev.isl.fifo[x] = []) ∧ (∀ q : Quad, s.dev.isl.launches[quadIsland q] = []) ∧ (∀ q : Quad, s.dev.isl.ahead[q] = false) ∧
      s.dev.isl.launches[(4 : Island)] = [⟨.config, s.dev.reload.rearmAt⟩] ∧ bitOf s.dev.isl.clkRun.toNat 4 = true) ∧
    ∃ (s : State), calm .reloadRearmLaunch s.dev = true ∧ s.dev.reload.written = false :=
  ⟨
    ⟨reloadRanges wRegionReload0.dev wRegionReload0.dev.reload.newBase (reloadRegion wRegionReload0.dev), reloadCheck wRegionReload0.dev
      (reloadStruct wRegionReload0.dev) (mergeBase wRegionReload0.dev.loader.base wRegionReload0.dev.reload.newBase (reloadRanges wRegionReload0.dev
      wRegionReload0.dev.reload.newBase (reloadRegion wRegionReload0.dev))) (mergeOvls wRegionReload0.dev.loader.ovls
      wRegionReload0.dev.reload.newOvls (reloadRanges wRegionReload0.dev wRegionReload0.dev.reload.newBase (reloadRegion wRegionReload0.dev)))
      (reloadSlots wRegionReload0.dev wRegionReload0.dev.reload.newBase (reloadRegion wRegionReload0.dev)), wRegionReload0, by decide +kernel⟩,
    ⟨reloadRanges wRegionReload1.dev wRegionReload1.dev.reload.newBase (reloadRegion wRegionReload1.dev), reloadCheck wRegionReload1.dev
      (reloadStruct wRegionReload1.dev) (mergeBase wRegionReload1.dev.loader.base wRegionReload1.dev.reload.newBase (reloadRanges wRegionReload1.dev
      wRegionReload1.dev.reload.newBase (reloadRegion wRegionReload1.dev))) (mergeOvls wRegionReload1.dev.loader.ovls
      wRegionReload1.dev.reload.newOvls (reloadRanges wRegionReload1.dev wRegionReload1.dev.reload.newBase (reloadRegion wRegionReload1.dev)))
      (reloadSlots wRegionReload1.dev wRegionReload1.dev.reload.newBase (reloadRegion wRegionReload1.dev)), wRegionReload1, by decide +kernel⟩,
    ⟨⟨State.reset.dev, []⟩, by decide +kernel⟩,
    ⟨wit [fun d => { d with reload := { d.reload with st := 3 } }], by decide +kernel⟩,
    ⟨wit [fun d => d.updChan 0 fun x => { x with st := .regulate, armed := true, gate := true }], by decide +kernel⟩,
    ⟨wit [fun d => { d with isl := { d.isl with stalled := if 0 % 2 = 0 then Vector.replicate 24 false else Vector.replicate 24 true } }, fun d =>
      { d with reload := { d.reload with st := 3 } }], by decide +kernel⟩,
    ⟨wit [fun d => { d with reload := { d.reload with st := 4, written := false } }, fun d =>
      { d with arbs := vset d.arbs (wport) { d.arbs[(wport : Fin 99)] with pending := [(10, 3), (2, 2)] }, reload := { d.reload with newBase := goodBase } }],
      by and_intros <;> decide +kernel⟩,
    ⟨wit [fun d => { d with reload := { d.reload with st := 4, written := true, recheck := false } }, fun d =>
      { d with isl := { d.isl with clkRun := 0x1F, fifo := Vector.replicate 24 [], launches := Vector.replicate 5 [] }, clk := { d.clk with qtime := Vector.replicate 4 d.clk.loc } },
      fun d => { d with isl := { d.isl with ahead := Vector.replicate 4 false } }], by decide +kernel⟩,
    ⟨wit [fun d => { d with start := { d.start with st := .run } }, fun d => { d with halt := { d.halt with cur := none } }, fun d =>
      { d with reload := { d.reload with st := 4, written := true, recheck := false } }, fun d =>
      { d with isl := { d.isl with launches := vset d.isl.launches ((4 : Island)) ([⟨.config, d.reload.rearmAt⟩]) } }, fun d =>
      { d with isl := { d.isl with clkRun := 0x1F, fifo := Vector.replicate 24 [], launches := (Vector.replicate 5 []).set 4 [⟨.config, d.reload.rearmAt⟩] }, clk := { d.clk with qtime := Vector.replicate 4 d.clk.loc } },
      fun d => { d with isl := { d.isl with ahead := Vector.replicate 4 false } }], by decide +kernel⟩,
    ⟨wit [fun d => { d with reload := { d.reload with written := false } }], by decide +kernel⟩⟩

theorem witness_ArbiterChoice :
    (∃ (limit : ℕ) (units : ℕ) (i : ℕ) (a : Arbiter), (units ≤ a.granted.length ∨ a.pending = [])) ∧
    (∃ (limit : ℕ) (units : ℕ) (i : ℕ) (a : Arbiter), a.granted.length < units ∧ a.pending ≠ []) ∧
    (∃ (limit : ℕ) (units : ℕ) (i : ℕ) (a : Arbiter), a.granted.length < units ∧ a.pending ≠ [] ∧ (∀ x ∈ a.pending, x.2 ≤ 63)) ∧
    ∃ (i : Fin 99) (idx : ℕ) (d : Device), (∀ x ∈ (d.arbs[i]).pending, x.2 ≤ 63) :=
  ⟨
    ⟨5, 1, 5, { pending := [(2, 3)], granted := [4] }, by decide +kernel⟩,
    ⟨5, 5, 5, { pending := [(2, 3), (1, 9)], granted := if 0 % 2 = 0 then [] else [4] }, by decide +kernel⟩,
    ⟨5, 5, 5, { pending := [(2, 3), (1, 9)], granted := if 0 % 2 = 0 then [] else [4] }, by decide +kernel⟩,
    ⟨1, 5, State.reset.dev, by decide +kernel⟩⟩

def wArbiterGrants7 : State := wit [fun d =>
  { d with start := { d.start with st := .build }, loader := { d.loader with base := goodBase, ovls := [] }, memory := { d.memory with mirrorAt := 0x5000 / 32 + 0 } },
  fun d => { d with start := { d.start with st := .build } }, fun d => d.updArb wport fun e => { e with pending := [(10, 3)], granted := [] }, fun d
  => { d with arbs := vset d.arbs wport { pending := [(10, 3)], granted := [] } }]
def wArbiterGrants10 : State := wit [fun d => d.updArb (slotArb 0) fun x => { x with pending := [(2, 4)], granted := [] }, fun d =>
  { d with start := { d.start with st := .run }, clk := { d.clk with loc := 1000000 } }, fun d => d.updQuad 0 fun x => { x with armed := true }, fun
  d => d.updSlot 5 fun x => { x with shedFrom := some 2, shedAt := 100 }, fun d =>
  { d with halt := { d.halt with next := some ⟨77, 60000, 12, 400, false⟩ } }, fun d =>
  { d with memory := { d.memory with conf := msetw (msetw (msetw (msetw [] (phb 5) 4) 0x2004 0x40000000) (tmb 30 + 4) 0x07D00640) 0x11000 0 } }]

theorem witness_ArbiterGrants :
    (∃ (i : Fin 99) (s : State), (s.dev.start.st = .reset ∨ (96 ≤ i.1 ∧ (s.dev.arbs[i]).pending = []))) ∧
    (∃ (m : Pm) (w : ℕ) (a : ℕ) (s : State), s.dev.start.st = .run ∧ (s.dev.arbs[mport m]).pending = [(w, a)] ∧ (s.dev.arbs[mport m]).granted = [] ∧
      (s.dev.mods[m]).hlQueue = [] ∧ mayNot s.dev m w = false) ∧
    (∃ (m : Pm) (w : ℕ) (a : ℕ) (s : State), s.dev.start.st = .run ∧ (s.dev.arbs[mport m]).pending = [(w, a)] ∧ (s.dev.mods[m]).hlQueue = [] ∧
      mayNot s.dev m w = true) ∧
    (∃ (w : ℕ) (a : ℕ) (s : State), s.dev.start.st = .run ∧ (s.dev.arbs[wport]).pending = [(w, a)] ∧ (s.dev.arbs[wport]).granted = [] ∧ w ≠ 0 ∧ w ≠
      1 ∧ w ≠ 3 ∧ w ≠ 9 ∧ w ≠ 10) ∧
    (∃ (k : ℕ) (rest : List ℕ) (a : ℕ) (s : State), s.dev.start.st = .run ∧ (s.dev.arbs[wport]).pending = [(0, a)] ∧ (s.dev.arbs[wport]).granted =
      [] ∧ s.dev.memory.fixing = k :: rest ∧ cwWrong s.dev k = 1) ∧
    (∃ (w : ℕ × List Byte) (rest : List (ℕ × List Byte)) (a : ℕ) (s : State), s.dev.start.st = .run ∧ (s.dev.arbs[wport]).pending = [(3, a)] ∧
      (s.dev.arbs[wport]).granted = [] ∧ s.dev.col.capQ = w :: rest ∧ w.2.length = 32 ∧ s.dev.memory.mem.wf = true) ∧
    (∃ (m : ℕ) (rest : List ℕ) (a : ℕ) (s : State), s.dev.start.st = .run ∧ (s.dev.arbs[wport]).pending = [(9, a)] ∧ (s.dev.arbs[wport]).granted =
      [] ∧ s.dev.memory.modelQ = m :: rest ∧ s.dev.memory.mem.wf = true) ∧
    (∃ (k : ℕ) (rest : List ℕ) (a : ℕ) (s : State), s.dev.start.st = .build ∧ (s.dev.arbs[wport]).pending = [(10, a)] ∧ (s.dev.arbs[wport]).granted
      = [] ∧ (mirrorLeft s.dev).2 = k :: rest ∧ s.dev.memory.mem.wf = true) ∧
    (∃ (w : ℕ) (a : ℕ) (s : State), s.dev.start.st = .run ∧ (s.dev.arbs[sport]).pending = [(w, a)] ∧ (s.dev.arbs[sport]).granted = []) ∧
    (∃ (w : ℕ) (a : ℕ) (s : State), s.dev.start.st = .run ∧ (s.dev.arbs[bport]).pending = [(w, a)] ∧ (s.dev.arbs[bport]).granted = []) ∧
    (∃ (q : Quad) (c : Chan) (h : HaltSched) (a : ℕ) (sp : Slot) (l : List Slot) (f : Slot) (l' : List Slot) (s : State), s.dev.start.st = .run ∧
      s.dev.halt.next = some h ∧ newtOpen s.dev = true ∧ Chan.quad c = q ∧ (s.dev.arbs[slotArb q]).pending = [(c.1 % 8, a)] ∧ (s.dev.arbs[slotArb
      q]).granted = [] ∧ usableSlots s.dev q = sp :: l ∧ replaceable s.dev c (h.start * tick) = f :: l') ∧
    (∃ (q : Quad) (p : Pm) (a : ℕ) (sp : Pm) (s : State), s.dev.start.st = .run ∧ newtOpen s.dev = true ∧ Pm.quad p = q ∧ Pm.pos p < 20 ∧
      (s.dev.arbs[modArb q]).pending = [(Pm.pos p, a)] ∧ (s.dev.arbs[modArb q]).granted = [] ∧ usableMods s.dev q = [sp]) ∧
    ∃ (q : Quad) (s : State), newtOpen s.dev = false ∧ (s.dev.arbs[slotArb q]).granted = [] :=
  ⟨
    ⟨1, wit [fun d => { d with start := { d.start with st := .reset } }], by decide +kernel⟩,
    ⟨7, 2, 5, wit [fun d => { d with start := { d.start with st := .run } }, fun d => { d with isl := { d.isl with clkRun := 0x1F } }, fun d =>
      { d with start := { d.start with st := .run } }, fun d => d.updArb (mport 7) fun e => { e with pending := [(2, 5)], granted := [] }, fun d =>
      d.updMod 7 fun e => { e with hlQueue := [] }], by decide +kernel⟩,
    ⟨7, 5, 5, wit [fun d => { d with start := { d.start with st := .run } }, fun d => d.updArb (mport 7) fun e => { e with pending := [(5, 5)] },
      fun d => d.updMod 7 fun e => { e with hlQueue := [] }], by decide +kernel⟩,
    ⟨5, 5, wit [fun d => { d with start := { d.start with st := .run } }, fun d => d.updArb wport fun e =>
      { e with pending := [(5, 5)], granted := [] }], by decide +kernel⟩,
    ⟨(5 : ℕ), [9], 3, wit [fun d => { d with start := { d.start with st := .run } }, fun d => d.updArb wport fun x =>
      { x with pending := [(0, 3)], granted := [] }, fun d => { d with memory := { d.memory with fixing := [5, 9], errs := [(5, (0, 1))] } }], by
      and_intros <;> decide +kernel⟩,
    ⟨(0xA0020, List.replicate 32 5), [], 5, wit [fun d => { d with start := { d.start with st := .run } }, fun d => d.updArb wport fun e =>
      { e with pending := [(3, 5)], granted := [] }, fun d => { d with col := { d.col with capQ := ((0xA0020, List.replicate 32 5)) :: [] } }],
      by decide +kernel⟩,
    ⟨5, [], 5, wit [fun d => { d with start := { d.start with st := .run } }, fun d => d.updArb wport fun e =>
      { e with pending := [(9, 5)], granted := [] }, fun d => { d with memory := { d.memory with modelQ := 5 :: [] } }], by decide +kernel⟩,
    ⟨(mirrorLeft wArbiterGrants7.dev).2.headD 0, (mirrorLeft wArbiterGrants7.dev).2.tail, 3, wArbiterGrants7, by decide +kernel⟩,
    ⟨5, 5, wit [fun d => { d with start := { d.start with st := .run } }, fun d => d.updArb sport fun e =>
      { e with pending := [(5, 5)], granted := [] }], by decide +kernel⟩,
    ⟨5, 5, wit [fun d => { d with start := { d.start with st := .run } }, fun d => d.updArb bport fun e =>
      { e with pending := [(5, 5)], granted := [] }], by decide +kernel⟩,
    ⟨0, 2, ⟨77, 60000, 12, 400, false⟩, 4, ((usableSlots wArbiterGrants10.dev 0).headD 0), (usableSlots wArbiterGrants10.dev 0).tail, (replaceable
      wArbiterGrants10.dev 2 ((⟨77, 60000, 12, 400, false⟩ : HaltSched).start * tick)).headD 0, (replaceable wArbiterGrants10.dev 2 ((⟨77, 60000,
      12, 400, false⟩ : HaltSched).start * tick)).tail, wArbiterGrants10, by and_intros <;> decide +kernel⟩,
    ⟨0, 3, 4, 20, wit [fun d => { d with start := { d.start with st := .run } }, fun d => d.updArb (modArb 0) fun e =>
      { e with pending := [(Pm.pos 3, 4)], granted := [] }, fun d =>
      { d with start := { d.start with st := .run }, halt := { d.halt with next := some ⟨77, (d.clk.loc + 1000000) / tick, 12, 400, false⟩ }, memory := { d.memory with swaps := [] }, mods := vset (vset d.mods 20 {}) 21 { d.mods[(21 : Pm)] with failed := true } },
      fun d => { d with arbs := vset d.arbs (modArb 0) { pending := [(3, 4)], granted := [] } }], by decide +kernel⟩,
    ⟨0, wit [fun d => d.updArb (slotArb 0) fun e => { e with granted := [] }], by decide +kernel⟩⟩

theorem witness_ReadsAndBus :
    (∃ (s : State), targetUp s.dev = true ∧ s.dev.col.fiPec = false) ∧
    (∃ (s : State), targetUp s.dev = true ∧ s.dev.col.fiPec = false ∧ unlocked s.dev = true ∧ s.dev.bootp.nvmOp ≠ 2 ∧ s.dev.bootp.nvmReady = true) ∧
    (∃ (s : State), targetUp s.dev = true ∧ s.dev.col.fiPec = false ∧ unlocked s.dev = false) ∧
    (∃ (ackLast : Bool) (s : State), targetUp s.dev = false) ∧
    (∃ (s : State), targetUp s.dev = true) ∧
    (∃ (s : State), targetUp s.dev = true ∧ s.dev.col.fiPec = true) ∧
    (∃ (code : Byte) (s : State), targetUp s.dev = true) ∧
    (∃ (s : State), targetUp s.dev = true) ∧
    (∃ (s : State), targetUp s.dev = true) ∧
    (∃ (code : Byte) (s : State), targetUp s.dev = false) ∧
    (∃ (s : State), targetUp s.dev = true ∧ s.dev.sup.alertDrive = true ∧ s.dev.col.fiPec = false) ∧
    (∃ (ackLast : Bool) (s : State), targetUp s.dev = true ∧ s.dev.sup.alertDrive = true) ∧
    (∃ (wins : Bool) (ackLast : Bool) (s : State), s.dev.sup.alertDrive = false) ∧
    (∃ (u : ℕ) (s : State), calm .unlockExpiry s.dev = true ∧ s.dev.sup.unlockEnd = some u) ∧
    (∃ (s : State), calm .unlockExpiry s.dev = true ∧ s.dev.sup.unlockEnd = none) ∧
    ∃ (u : ℕ) (s : State), calm .lockoutEnd s.dev = true ∧ s.dev.sup.lockoutEnd = some u :=
  ⟨
    ⟨wit [fun d => { d with start := { d.start with st := .run } }, fun d => { d with col := { d.col with fiPec := false } }], by decide +kernel⟩,
    ⟨wit [fun d => { d with start := { d.start with st := .run } }, fun d => { d with sup := { d.sup with unlockEnd := some 1000000 } }, fun d =>
      { d with col := { d.col with fiPec := false } }, fun d => { d with bootp := { d.bootp with nvmReady := true } }], by decide +kernel⟩,
    ⟨wit [fun d => { d with start := { d.start with st := .run } }, fun d => { d with col := { d.col with fiPec := false } }, fun d =>
      { d with start := { d.start with st := .run }, sup := { d.sup with unlockEnd := none } }], by decide +kernel⟩,
    ⟨true, wit [fun d => { d with start := { d.start with st := .init } }], by decide +kernel⟩,
    ⟨wit [fun d => { d with start := { d.start with st := .run } }], by decide +kernel⟩,
    ⟨wit [fun d => { d with start := { d.start with st := .run } }, fun d => { d with col := { d.col with fiPec := true } }], by decide +kernel⟩,
    ⟨5, wit [fun d => { d with start := { d.start with st := .run } }], by decide +kernel⟩,
    ⟨wit [fun d => { d with start := { d.start with st := .run } }], by decide +kernel⟩,
    ⟨wit [fun d => { d with start := { d.start with st := .run } }], by decide +kernel⟩,
    ⟨5, wit [fun d => { d with start := { d.start with st := .reset } }], by decide +kernel⟩,
    ⟨wit [fun d => { d with start := { d.start with st := .run } }, fun d => { d with sup := { d.sup with alertDrive := true } }, fun d =>
      { d with col := { d.col with fiPec := false } }], by decide +kernel⟩,
    ⟨true, wit [fun d => { d with start := { d.start with st := .run } }, fun d => { d with sup := { d.sup with alertDrive := true } }],
      by decide +kernel⟩,
    ⟨true, true, wit [fun d => { d with sup := { d.sup with alertDrive := false } }], by decide +kernel⟩,
    ⟨1000, wit [fun d => { d with sup := { d.sup with unlockEnd := some 1000 } }], by decide +kernel⟩,
    ⟨wit [fun d => { d with sup := { d.sup with unlockEnd := none } }], by decide +kernel⟩,
    ⟨1000, wit [fun d => { d with sup := { d.sup with lockoutEnd := some 1000 } }], by decide +kernel⟩⟩

theorem witness_CallReads :
    (∃ (a : ℕ) (w : WordAt) (s : State), targetUp s.dev = true ∧ s.dev.col.fiPec = false ∧ a < 2 ^ 24 ∧ locate a = some w ∧ w.readable s.dev = true)
      ∧
    (∃ (a : ℕ) (s : State), targetUp s.dev = true ∧ s.dev.col.fiPec = false ∧ a < 2 ^ 24 ∧ locate a = none) ∧
    (∃ (a : ℕ) (w : WordAt) (s : State), targetUp s.dev = true ∧ s.dev.col.fiPec = false ∧ a < 2 ^ 24 ∧ locate a = some w ∧ w.readable s.dev =
      false) ∧
    (∃ (a : ℕ) (w : WordAt) (k : ℕ) (s : State), targetUp s.dev = true ∧ s.dev.col.fiPec = false ∧ a < 2 ^ 24 ∧ locate a = some w ∧ w.readable s.dev
      = true ∧ (∀ b, w ≠ .mem b)) ∧
    (∃ (p : ProcessCall) (s : State), targetUp s.dev = true ∧ p.data.length ≠ p.count.toNat) ∧
    (∃ (s : State), targetUp s.dev = true ∧ s.dev.col.fiPec = false) ∧
    (∃ (c : Chan) (out : Bool) (s : State), targetUp s.dev = true ∧ quadAnswers s.dev (Chan.quad c) = true) ∧
    (∃ (c : Chan) (out : Bool) (s : State), quadAnswers s.dev (Chan.quad c) = false) ∧
    (∃ (p : ProcessCall) (s : State), targetUp s.dev = true ∧ s.dev.col.fiPec = false ∧ p.ackLast = true ∧ p.cut = none ∧ p.count = 4 ∧
      p.data.length = 4 ∧ fld p.data 0 1 ≤ 31 ∧ 1 ≤ fld p.data 3 1 ∧ fld p.data 3 1 ≤ 7) ∧
    (∃ (p : ProcessCall) (s : State), targetUp s.dev = true ∧ s.dev.col.fiPec = false ∧ p.ackLast = true ∧ p.cut = none ∧ p.count = 3 ∧
      p.data.length = 3 ∧ 1 ≤ fld p.data 2 1 ∧ fld p.data 2 1 ≤ 7) ∧
    (∃ (p : ProcessCall) (s : State), targetUp s.dev = true ∧ s.dev.col.fiPec = false ∧ p.ackLast = true ∧ p.cut = none ∧ p.count = 4 ∧
      p.data.length = 4 ∧ (31 < fld p.data 0 1 ∨ fld p.data 3 1 = 0 ∨ 7 < fld p.data 3 1)) ∧
    (∃ (d : Device) (base : ℕ) (size : ℕ) (i : ℕ) (wr : Halfword) (rd : Halfword), (i + 65536 - rd.toNat) % 65536 < fill16 wr rd ∧ cwBad d ((base +
      32 * (i % size)) / 32) = false) ∧
    (∃ (d : Device) (base : ℕ) (size : ℕ) (i : ℕ) (wr : Halfword) (rd : Halfword), fill16 wr rd ≤ (i + 65536 - rd.toNat) % 65536) ∧
    ∃ (d : Device) (base : ℕ) (size : ℕ) (i : ℕ) (wr : Halfword) (rd : Halfword), (i + 65536 - rd.toNat) % 65536 < fill16 wr rd ∧ cwBad d ((base +
      32 * (i % size)) / 32) = true :=
  ⟨
    ⟨[0x100000, 0x1004, 0x110004, 0x120084, 0x130050, 0x131010, 0x140008, 0x160808].getD (0 % 8) 0, (locate ([0x100000, 0x1004, 0x110004, 0x120084,
      0x130050, 0x131010, 0x140008, 0x160808].getD (0 % 8) 0)).getD (.dev 0), wit [fun d => { d with start := { d.start with st := .run } }, fun d
      => { d with col := { d.col with fiPec := false } }, fun d => { d with isl := { d.isl with clkRun := 0x1F } }], by decide +kernel⟩,
    ⟨0x1FFFFC, wit [fun d => { d with start := { d.start with st := .run } }, fun d => { d with col := { d.col with fiPec := false } }],
      by decide +kernel⟩,
    ⟨0x110004, (locate 0x110004).getD (.dev 0), wit [fun d => { d with start := { d.start with st := .run } }, fun d =>
      { d with col := { d.col with fiPec := false } }, fun d => { d with isl := { d.isl with clkRun := 0 } }], by decide +kernel⟩,
    ⟨0x100000, (.dev 0), 5, wit [fun d => { d with start := { d.start with st := .run } }, fun d => { d with col := { d.col with fiPec := false } },
      fun d => { d with isl := { d.isl with clkRun := 0x1F } }], (by and_intros <;> first | decide +kernel | (intro a h; cases h))⟩,
    ⟨⟨5, [1, 2], true, none⟩, wit [fun d => { d with start := { d.start with st := .run } }], by decide +kernel⟩,
    ⟨wit [fun d => { d with start := { d.start with st := .run } }, fun d => { d with col := { d.col with fiPec := false } }], by decide +kernel⟩,
    ⟨3, true, wit [fun d => { d with start := { d.start with st := .run } }, fun d => { d with isl := { d.isl with clkRun := 0x1F } }],
      by decide +kernel⟩,
    ⟨3, true, ⟨State.reset.dev, []⟩, by decide +kernel⟩,
    ⟨⟨4, [7, 0x20, 0, 3], true, none⟩, wit [fun d => { d with start := { d.start with st := .run } }, fun d =>
      { d with col := { d.col with fiPec := false } }], by decide +kernel⟩,
    ⟨⟨3, [7, 0x20, 3], true, none⟩, wit [fun d => { d with start := { d.start with st := .run } }, fun d =>
      { d with col := { d.col with fiPec := false } }], by decide +kernel⟩,
    ⟨⟨4, [7, 0x20, 0, 9], true, none⟩, wit [fun d => { d with start := { d.start with st := .run } }, fun d =>
      { d with col := { d.col with fiPec := false } }], by decide +kernel⟩,
    ⟨State.reset.dev, 0x40000, 256, 0x1210, 0x1220, 0x1200, by decide +kernel⟩,
    ⟨State.reset.dev, 5, 5, 5, 5, 5, by decide +kernel⟩,
    ⟨{ State.reset.dev with memory := { State.reset.dev.memory with errs := [(0x40000 / 32 + 0x10, (1, 1))] } }, 0x40000, 256, 0x1210, 0x1220,
      0x1200, by decide +kernel⟩⟩

theorem witness_BlockWrites :
    (∃ (i : Instr) (code : Byte) (lo : ℕ) (hi : ℕ) (svc : Bool) (w : BlockWrite) (s : State), blockOf i = some (code, lo, hi, svc, w) ∧ targetUp
      s.dev = false) ∧
    (∃ (i : Instr) (code : Byte) (lo : ℕ) (hi : ℕ) (svc : Bool) (w : BlockWrite) (s : State), blockOf i = some (code, lo, hi, svc, w) ∧ targetUp
      s.dev = true ∧ (w.data ++ w.pec.toList).length < w.count.toNat) ∧
    (∃ (i : Instr) (code : Byte) (lo : ℕ) (hi : ℕ) (svc : Bool) (w : BlockWrite) (s : State), blockOf i = some (code, lo, hi, svc, w) ∧ targetUp
      s.dev = true ∧ w.count.toNat + 1 < (w.data ++ w.pec.toList).length) ∧
    (∃ (i : Instr) (code : Byte) (lo : ℕ) (hi : ℕ) (svc : Bool) (w : BlockWrite) (s : State), blockOf i = some (code, lo, hi, svc, w) ∧ targetUp
      s.dev = true ∧ w.data.length = w.count.toNat ∧ w.pec = none) ∧
    (∃ (i : Instr) (code : Byte) (lo : ℕ) (hi : ℕ) (svc : Bool) (w : BlockWrite) (b : Byte) (s : State), blockOf i = some (code, lo, hi, svc, w) ∧
      targetUp s.dev = true ∧ w.data.length = w.count.toNat ∧ w.pec = some b ∧ soundBlock code w s.dev = false) ∧
    (∃ (i : Instr) (code : Byte) (lo : ℕ) (hi : ℕ) (svc : Bool) (w : BlockWrite) (s : State), blockOf i = some (code, lo, hi, svc, w) ∧ targetUp
      s.dev = true ∧ soundBlock code w s.dev = true ∧ (w.data.length < lo ∨ hi < w.data.length)) ∧
    ∃ (i : Instr) (code : Byte) (lo : ℕ) (hi : ℕ) (w : BlockWrite) (s : State), blockOf i = some (code, lo, hi, true, w) ∧ targetUp s.dev = true ∧
      soundBlock code w s.dev = true ∧ lo ≤ w.data.length ∧ w.data.length ≤ hi ∧ unlocked s.dev = false :=
  ⟨
    ⟨([.ringAck (⟨3, [1, 2, 3], some 4⟩ : BlockWrite), .logAck (⟨3, [1, 2, 3], some 4⟩ : BlockWrite), .clear (⟨3, [1, 2, 3], some 4⟩ : BlockWrite),
      .serviceUnlock (⟨3, [1, 2, 3], some 4⟩ : BlockWrite), .serviceLock (⟨3, [1, 2, 3], some 4⟩ : BlockWrite), .write (⟨3, [1, 2, 3], some 4⟩ :
      BlockWrite), .armRegion (⟨3, [1, 2, 3], some 4⟩ : BlockWrite), .reloadRegion (⟨3, [1, 2, 3], some 4⟩ : BlockWrite), .inject (⟨3, [1, 2, 3],
      some 4⟩ : BlockWrite), .calZero (⟨3, [1, 2, 3], some 4⟩ : BlockWrite), .calFull (⟨3, [1, 2, 3], some 4⟩ : BlockWrite), .calCommit (⟨3, [1, 2,
      3], some 4⟩ : BlockWrite), .nvmWrite (⟨3, [1, 2, 3], some 4⟩ : BlockWrite), .nvmFetch (⟨3, [1, 2, 3], some 4⟩ : BlockWrite)] : List
      Instr).getD (0 * 3 % 14) (.clear (⟨3, [1, 2, 3], some 4⟩ : BlockWrite)), ((blockOf (([.ringAck (⟨3, [1, 2, 3], some 4⟩ : BlockWrite), .logAck
      (⟨3, [1, 2, 3], some 4⟩ : BlockWrite), .clear (⟨3, [1, 2, 3], some 4⟩ : BlockWrite), .serviceUnlock (⟨3, [1, 2, 3], some 4⟩ : BlockWrite),
      .serviceLock (⟨3, [1, 2, 3], some 4⟩ : BlockWrite), .write (⟨3, [1, 2, 3], some 4⟩ : BlockWrite), .armRegion (⟨3, [1, 2, 3], some 4⟩ :
      BlockWrite), .reloadRegion (⟨3, [1, 2, 3], some 4⟩ : BlockWrite), .inject (⟨3, [1, 2, 3], some 4⟩ : BlockWrite), .calZero (⟨3, [1, 2, 3], some
      4⟩ : BlockWrite), .calFull (⟨3, [1, 2, 3], some 4⟩ : BlockWrite), .calCommit (⟨3, [1, 2, 3], some 4⟩ : BlockWrite), .nvmWrite (⟨3, [1, 2, 3],
      some 4⟩ : BlockWrite), .nvmFetch (⟨3, [1, 2, 3], some 4⟩ : BlockWrite)] : List Instr).getD (0 * 3 % 14) (.clear (⟨3, [1, 2, 3], some 4⟩ :
      BlockWrite)))).getD (0, 0, 0, false, (⟨3, [1, 2, 3], some 4⟩ : BlockWrite))).1, ((blockOf (([.ringAck (⟨3, [1, 2, 3], some 4⟩ : BlockWrite),
      .logAck (⟨3, [1, 2, 3], some 4⟩ : BlockWrite), .clear (⟨3, [1, 2, 3], some 4⟩ : BlockWrite), .serviceUnlock (⟨3, [1, 2, 3], some 4⟩ :
      BlockWrite), .serviceLock (⟨3, [1, 2, 3], some 4⟩ : BlockWrite), .write (⟨3, [1, 2, 3], some 4⟩ : BlockWrite), .armRegion (⟨3, [1, 2, 3], some
      4⟩ : BlockWrite), .reloadRegion (⟨3, [1, 2, 3], some 4⟩ : BlockWrite), .inject (⟨3, [1, 2, 3], some 4⟩ : BlockWrite), .calZero (⟨3, [1, 2, 3],
      some 4⟩ : BlockWrite), .calFull (⟨3, [1, 2, 3], some 4⟩ : BlockWrite), .calCommit (⟨3, [1, 2, 3], some 4⟩ : BlockWrite), .nvmWrite (⟨3, [1, 2,
      3], some 4⟩ : BlockWrite), .nvmFetch (⟨3, [1, 2, 3], some 4⟩ : BlockWrite)] : List Instr).getD (0 * 3 % 14) (.clear (⟨3, [1, 2, 3], some 4⟩ :
      BlockWrite)))).getD (0, 0, 0, false, (⟨3, [1, 2, 3], some 4⟩ : BlockWrite))).2.1, ((blockOf (([.ringAck (⟨3, [1, 2, 3], some 4⟩ : BlockWrite),
      .logAck (⟨3, [1, 2, 3], some 4⟩ : BlockWrite), .clear (⟨3, [1, 2, 3], some 4⟩ : BlockWrite), .serviceUnlock (⟨3, [1, 2, 3], some 4⟩ :
      BlockWrite), .serviceLock (⟨3, [1, 2, 3], some 4⟩ : BlockWrite), .write (⟨3, [1, 2, 3], some 4⟩ : BlockWrite), .armRegion (⟨3, [1, 2, 3], some
      4⟩ : BlockWrite), .reloadRegion (⟨3, [1, 2, 3], some 4⟩ : BlockWrite), .inject (⟨3, [1, 2, 3], some 4⟩ : BlockWrite), .calZero (⟨3, [1, 2, 3],
      some 4⟩ : BlockWrite), .calFull (⟨3, [1, 2, 3], some 4⟩ : BlockWrite), .calCommit (⟨3, [1, 2, 3], some 4⟩ : BlockWrite), .nvmWrite (⟨3, [1, 2,
      3], some 4⟩ : BlockWrite), .nvmFetch (⟨3, [1, 2, 3], some 4⟩ : BlockWrite)] : List Instr).getD (0 * 3 % 14) (.clear (⟨3, [1, 2, 3], some 4⟩ :
      BlockWrite)))).getD (0, 0, 0, false, (⟨3, [1, 2, 3], some 4⟩ : BlockWrite))).2.2.1, ((blockOf (([.ringAck (⟨3, [1, 2, 3], some 4⟩ :
      BlockWrite), .logAck (⟨3, [1, 2, 3], some 4⟩ : BlockWrite), .clear (⟨3, [1, 2, 3], some 4⟩ : BlockWrite), .serviceUnlock (⟨3, [1, 2, 3], some
      4⟩ : BlockWrite), .serviceLock (⟨3, [1, 2, 3], some 4⟩ : BlockWrite), .write (⟨3, [1, 2, 3], some 4⟩ : BlockWrite), .armRegion (⟨3, [1, 2, 3],
      some 4⟩ : BlockWrite), .reloadRegion (⟨3, [1, 2, 3], some 4⟩ : BlockWrite), .inject (⟨3, [1, 2, 3], some 4⟩ : BlockWrite), .calZero (⟨3, [1,
      2, 3], some 4⟩ : BlockWrite), .calFull (⟨3, [1, 2, 3], some 4⟩ : BlockWrite), .calCommit (⟨3, [1, 2, 3], some 4⟩ : BlockWrite), .nvmWrite (⟨3,
      [1, 2, 3], some 4⟩ : BlockWrite), .nvmFetch (⟨3, [1, 2, 3], some 4⟩ : BlockWrite)] : List Instr).getD (0 * 3 % 14) (.clear (⟨3, [1, 2, 3],
      some 4⟩ : BlockWrite)))).getD (0, 0, 0, false, (⟨3, [1, 2, 3], some 4⟩ : BlockWrite))).2.2.2.1, ⟨3, [1, 2, 3], some 4⟩, wit [fun d =>
      { d with start := { d.start with st := .init } }], by decide +kernel⟩,
    ⟨([.ringAck (⟨5, [1, 2], some 7⟩ : BlockWrite), .logAck (⟨5, [1, 2], some 7⟩ : BlockWrite), .clear (⟨5, [1, 2], some 7⟩ : BlockWrite),
      .serviceUnlock (⟨5, [1, 2], some 7⟩ : BlockWrite), .serviceLock (⟨5, [1, 2], some 7⟩ : BlockWrite), .write (⟨5, [1, 2], some 7⟩ : BlockWrite),
      .armRegion (⟨5, [1, 2], some 7⟩ : BlockWrite), .reloadRegion (⟨5, [1, 2], some 7⟩ : BlockWrite), .inject (⟨5, [1, 2], some 7⟩ : BlockWrite),
      .calZero (⟨5, [1, 2], some 7⟩ : BlockWrite), .calFull (⟨5, [1, 2], some 7⟩ : BlockWrite), .calCommit (⟨5, [1, 2], some 7⟩ : BlockWrite),
      .nvmWrite (⟨5, [1, 2], some 7⟩ : BlockWrite), .nvmFetch (⟨5, [1, 2], some 7⟩ : BlockWrite)] : List Instr).getD (0 * 3 % 14) (.clear (⟨5, [1,
      2], some 7⟩ : BlockWrite)), ((blockOf (([.ringAck (⟨5, [1, 2], some 7⟩ : BlockWrite), .logAck (⟨5, [1, 2], some 7⟩ : BlockWrite), .clear (⟨5,
      [1, 2], some 7⟩ : BlockWrite), .serviceUnlock (⟨5, [1, 2], some 7⟩ : BlockWrite), .serviceLock (⟨5, [1, 2], some 7⟩ : BlockWrite), .write (⟨5,
      [1, 2], some 7⟩ : BlockWrite), .armRegion (⟨5, [1, 2], some 7⟩ : BlockWrite), .reloadRegion (⟨5, [1, 2], some 7⟩ : BlockWrite), .inject (⟨5,
      [1, 2], some 7⟩ : BlockWrite), .calZero (⟨5, [1, 2], some 7⟩ : BlockWrite), .calFull (⟨5, [1, 2], some 7⟩ : BlockWrite), .calCommit (⟨5, [1,
      2], some 7⟩ : BlockWrite), .nvmWrite (⟨5, [1, 2], some 7⟩ : BlockWrite), .nvmFetch (⟨5, [1, 2], some 7⟩ : BlockWrite)] : List Instr).getD (0 *
      3 % 14) (.clear (⟨5, [1, 2], some 7⟩ : BlockWrite)))).getD (0, 0, 0, false, (⟨5, [1, 2], some 7⟩ : BlockWrite))).1, ((blockOf (([.ringAck (⟨5,
      [1, 2], some 7⟩ : BlockWrite), .logAck (⟨5, [1, 2], some 7⟩ : BlockWrite), .clear (⟨5, [1, 2], some 7⟩ : BlockWrite), .serviceUnlock (⟨5, [1,
      2], some 7⟩ : BlockWrite), .serviceLock (⟨5, [1, 2], some 7⟩ : BlockWrite), .write (⟨5, [1, 2], some 7⟩ : BlockWrite), .armRegion (⟨5, [1, 2],
      some 7⟩ : BlockWrite), .reloadRegion (⟨5, [1, 2], some 7⟩ : BlockWrite), .inject (⟨5, [1, 2], some 7⟩ : BlockWrite), .calZero (⟨5, [1, 2],
      some 7⟩ : BlockWrite), .calFull (⟨5, [1, 2], some 7⟩ : BlockWrite), .calCommit (⟨5, [1, 2], some 7⟩ : BlockWrite), .nvmWrite (⟨5, [1, 2], some
      7⟩ : BlockWrite), .nvmFetch (⟨5, [1, 2], some 7⟩ : BlockWrite)] : List Instr).getD (0 * 3 % 14) (.clear (⟨5, [1, 2], some 7⟩ :
      BlockWrite)))).getD (0, 0, 0, false, (⟨5, [1, 2], some 7⟩ : BlockWrite))).2.1, ((blockOf (([.ringAck (⟨5, [1, 2], some 7⟩ : BlockWrite),
      .logAck (⟨5, [1, 2], some 7⟩ : BlockWrite), .clear (⟨5, [1, 2], some 7⟩ : BlockWrite), .serviceUnlock (⟨5, [1, 2], some 7⟩ : BlockWrite),
      .serviceLock (⟨5, [1, 2], some 7⟩ : BlockWrite), .write (⟨5, [1, 2], some 7⟩ : BlockWrite), .armRegion (⟨5, [1, 2], some 7⟩ : BlockWrite),
      .reloadRegion (⟨5, [1, 2], some 7⟩ : BlockWrite), .inject (⟨5, [1, 2], some 7⟩ : BlockWrite), .calZero (⟨5, [1, 2], some 7⟩ : BlockWrite),
      .calFull (⟨5, [1, 2], some 7⟩ : BlockWrite), .calCommit (⟨5, [1, 2], some 7⟩ : BlockWrite), .nvmWrite (⟨5, [1, 2], some 7⟩ : BlockWrite),
      .nvmFetch (⟨5, [1, 2], some 7⟩ : BlockWrite)] : List Instr).getD (0 * 3 % 14) (.clear (⟨5, [1, 2], some 7⟩ : BlockWrite)))).getD (0, 0, 0,
      false, (⟨5, [1, 2], some 7⟩ : BlockWrite))).2.2.1, ((blockOf (([.ringAck (⟨5, [1, 2], some 7⟩ : BlockWrite), .logAck (⟨5, [1, 2], some 7⟩ :
      BlockWrite), .clear (⟨5, [1, 2], some 7⟩ : BlockWrite), .serviceUnlock (⟨5, [1, 2], some 7⟩ : BlockWrite), .serviceLock (⟨5, [1, 2], some 7⟩ :
      BlockWrite), .write (⟨5, [1, 2], some 7⟩ : BlockWrite), .armRegion (⟨5, [1, 2], some 7⟩ : BlockWrite), .reloadRegion (⟨5, [1, 2], some 7⟩ :
      BlockWrite), .inject (⟨5, [1, 2], some 7⟩ : BlockWrite), .calZero (⟨5, [1, 2], some 7⟩ : BlockWrite), .calFull (⟨5, [1, 2], some 7⟩ :
      BlockWrite), .calCommit (⟨5, [1, 2], some 7⟩ : BlockWrite), .nvmWrite (⟨5, [1, 2], some 7⟩ : BlockWrite), .nvmFetch (⟨5, [1, 2], some 7⟩ :
      BlockWrite)] : List Instr).getD (0 * 3 % 14) (.clear (⟨5, [1, 2], some 7⟩ : BlockWrite)))).getD (0, 0, 0, false, (⟨5, [1, 2], some 7⟩ :
      BlockWrite))).2.2.2.1, ⟨5, [1, 2], some 7⟩, wit [fun d => { d with start := { d.start with st := .run } }], by decide +kernel⟩,
    ⟨([.ringAck (⟨1, [1, 2, 4], none⟩ : BlockWrite), .logAck (⟨1, [1, 2, 4], none⟩ : BlockWrite), .clear (⟨1, [1, 2, 4], none⟩ : BlockWrite),
      .serviceUnlock (⟨1, [1, 2, 4], none⟩ : BlockWrite), .serviceLock (⟨1, [1, 2, 4], none⟩ : BlockWrite), .write (⟨1, [1, 2, 4], none⟩ :
      BlockWrite), .armRegion (⟨1, [1, 2, 4], none⟩ : BlockWrite), .reloadRegion (⟨1, [1, 2, 4], none⟩ : BlockWrite), .inject (⟨1, [1, 2, 4], none⟩
      : BlockWrite), .calZero (⟨1, [1, 2, 4], none⟩ : BlockWrite), .calFull (⟨1, [1, 2, 4], none⟩ : BlockWrite), .calCommit (⟨1, [1, 2, 4], none⟩ :
      BlockWrite), .nvmWrite (⟨1, [1, 2, 4], none⟩ : BlockWrite), .nvmFetch (⟨1, [1, 2, 4], none⟩ : BlockWrite)] : List Instr).getD (0 * 3 % 14)
      (.clear (⟨1, [1, 2, 4], none⟩ : BlockWrite)), ((blockOf (([.ringAck (⟨1, [1, 2, 4], none⟩ : BlockWrite), .logAck (⟨1, [1, 2, 4], none⟩ :
      BlockWrite), .clear (⟨1, [1, 2, 4], none⟩ : BlockWrite), .serviceUnlock (⟨1, [1, 2, 4], none⟩ : BlockWrite), .serviceLock (⟨1, [1, 2, 4],
      none⟩ : BlockWrite), .write (⟨1, [1, 2, 4], none⟩ : BlockWrite), .armRegion (⟨1, [1, 2, 4], none⟩ : BlockWrite), .reloadRegion (⟨1, [1, 2, 4],
      none⟩ : BlockWrite), .inject (⟨1, [1, 2, 4], none⟩ : BlockWrite), .calZero (⟨1, [1, 2, 4], none⟩ : BlockWrite), .calFull (⟨1, [1, 2, 4], none⟩
      : BlockWrite), .calCommit (⟨1, [1, 2, 4], none⟩ : BlockWrite), .nvmWrite (⟨1, [1, 2, 4], none⟩ : BlockWrite), .nvmFetch (⟨1, [1, 2, 4], none⟩
      : BlockWrite)] : List Instr).getD (0 * 3 % 14) (.clear (⟨1, [1, 2, 4], none⟩ : BlockWrite)))).getD (0, 0, 0, false, (⟨1, [1, 2, 4], none⟩ :
      BlockWrite))).1, ((blockOf (([.ringAck (⟨1, [1, 2, 4], none⟩ : BlockWrite), .logAck (⟨1, [1, 2, 4], none⟩ : BlockWrite), .clear (⟨1, [1, 2,
      4], none⟩ : BlockWrite), .serviceUnlock (⟨1, [1, 2, 4], none⟩ : BlockWrite), .serviceLock (⟨1, [1, 2, 4], none⟩ : BlockWrite), .write (⟨1, [1,
      2, 4], none⟩ : BlockWrite), .armRegion (⟨1, [1, 2, 4], none⟩ : BlockWrite), .reloadRegion (⟨1, [1, 2, 4], none⟩ : BlockWrite), .inject (⟨1,
      [1, 2, 4], none⟩ : BlockWrite), .calZero (⟨1, [1, 2, 4], none⟩ : BlockWrite), .calFull (⟨1, [1, 2, 4], none⟩ : BlockWrite), .calCommit (⟨1,
      [1, 2, 4], none⟩ : BlockWrite), .nvmWrite (⟨1, [1, 2, 4], none⟩ : BlockWrite), .nvmFetch (⟨1, [1, 2, 4], none⟩ : BlockWrite)] : List
      Instr).getD (0 * 3 % 14) (.clear (⟨1, [1, 2, 4], none⟩ : BlockWrite)))).getD (0, 0, 0, false, (⟨1, [1, 2, 4], none⟩ : BlockWrite))).2.1,
      ((blockOf (([.ringAck (⟨1, [1, 2, 4], none⟩ : BlockWrite), .logAck (⟨1, [1, 2, 4], none⟩ : BlockWrite), .clear (⟨1, [1, 2, 4], none⟩ :
      BlockWrite), .serviceUnlock (⟨1, [1, 2, 4], none⟩ : BlockWrite), .serviceLock (⟨1, [1, 2, 4], none⟩ : BlockWrite), .write (⟨1, [1, 2, 4],
      none⟩ : BlockWrite), .armRegion (⟨1, [1, 2, 4], none⟩ : BlockWrite), .reloadRegion (⟨1, [1, 2, 4], none⟩ : BlockWrite), .inject (⟨1, [1, 2,
      4], none⟩ : BlockWrite), .calZero (⟨1, [1, 2, 4], none⟩ : BlockWrite), .calFull (⟨1, [1, 2, 4], none⟩ : BlockWrite), .calCommit (⟨1, [1, 2,
      4], none⟩ : BlockWrite), .nvmWrite (⟨1, [1, 2, 4], none⟩ : BlockWrite), .nvmFetch (⟨1, [1, 2, 4], none⟩ : BlockWrite)] : List Instr).getD (0 *
      3 % 14) (.clear (⟨1, [1, 2, 4], none⟩ : BlockWrite)))).getD (0, 0, 0, false, (⟨1, [1, 2, 4], none⟩ : BlockWrite))).2.2.1, ((blockOf
      (([.ringAck (⟨1, [1, 2, 4], none⟩ : BlockWrite), .logAck (⟨1, [1, 2, 4], none⟩ : BlockWrite), .clear (⟨1, [1, 2, 4], none⟩ : BlockWrite),
      .serviceUnlock (⟨1, [1, 2, 4], none⟩ : BlockWrite), .serviceLock (⟨1, [1, 2, 4], none⟩ : BlockWrite), .write (⟨1, [1, 2, 4], none⟩ :
      BlockWrite), .armRegion (⟨1, [1, 2, 4], none⟩ : BlockWrite), .reloadRegion (⟨1, [1, 2, 4], none⟩ : BlockWrite), .inject (⟨1, [1, 2, 4], none⟩
      : BlockWrite), .calZero (⟨1, [1, 2, 4], none⟩ : BlockWrite), .calFull (⟨1, [1, 2, 4], none⟩ : BlockWrite), .calCommit (⟨1, [1, 2, 4], none⟩ :
      BlockWrite), .nvmWrite (⟨1, [1, 2, 4], none⟩ : BlockWrite), .nvmFetch (⟨1, [1, 2, 4], none⟩ : BlockWrite)] : List Instr).getD (0 * 3 % 14)
      (.clear (⟨1, [1, 2, 4], none⟩ : BlockWrite)))).getD (0, 0, 0, false, (⟨1, [1, 2, 4], none⟩ : BlockWrite))).2.2.2.1, ⟨1, [1, 2, 4], none⟩, wit
      [fun d => { d with start := { d.start with st := .run } }], by decide +kernel⟩,
    ⟨([.ringAck (⟨3, [1, 2, 3], none⟩ : BlockWrite), .logAck (⟨3, [1, 2, 3], none⟩ : BlockWrite), .clear (⟨3, [1, 2, 3], none⟩ : BlockWrite),
      .serviceUnlock (⟨3, [1, 2, 3], none⟩ : BlockWrite), .serviceLock (⟨3, [1, 2, 3], none⟩ : BlockWrite), .write (⟨3, [1, 2, 3], none⟩ :
      BlockWrite), .armRegion (⟨3, [1, 2, 3], none⟩ : BlockWrite), .reloadRegion (⟨3, [1, 2, 3], none⟩ : BlockWrite), .inject (⟨3, [1, 2, 3], none⟩
      : BlockWrite), .calZero (⟨3, [1, 2, 3], none⟩ : BlockWrite), .calFull (⟨3, [1, 2, 3], none⟩ : BlockWrite), .calCommit (⟨3, [1, 2, 3], none⟩ :
      BlockWrite), .nvmWrite (⟨3, [1, 2, 3], none⟩ : BlockWrite), .nvmFetch (⟨3, [1, 2, 3], none⟩ : BlockWrite)] : List Instr).getD (0 * 3 % 14)
      (.clear (⟨3, [1, 2, 3], none⟩ : BlockWrite)), ((blockOf (([.ringAck (⟨3, [1, 2, 3], none⟩ : BlockWrite), .logAck (⟨3, [1, 2, 3], none⟩ :
      BlockWrite), .clear (⟨3, [1, 2, 3], none⟩ : BlockWrite), .serviceUnlock (⟨3, [1, 2, 3], none⟩ : BlockWrite), .serviceLock (⟨3, [1, 2, 3],
      none⟩ : BlockWrite), .write (⟨3, [1, 2, 3], none⟩ : BlockWrite), .armRegion (⟨3, [1, 2, 3], none⟩ : BlockWrite), .reloadRegion (⟨3, [1, 2, 3],
      none⟩ : BlockWrite), .inject (⟨3, [1, 2, 3], none⟩ : BlockWrite), .calZero (⟨3, [1, 2, 3], none⟩ : BlockWrite), .calFull (⟨3, [1, 2, 3], none⟩
      : BlockWrite), .calCommit (⟨3, [1, 2, 3], none⟩ : BlockWrite), .nvmWrite (⟨3, [1, 2, 3], none⟩ : BlockWrite), .nvmFetch (⟨3, [1, 2, 3], none⟩
      : BlockWrite)] : List Instr).getD (0 * 3 % 14) (.clear (⟨3, [1, 2, 3], none⟩ : BlockWrite)))).getD (0, 0, 0, false, (⟨3, [1, 2, 3], none⟩ :
      BlockWrite))).1, ((blockOf (([.ringAck (⟨3, [1, 2, 3], none⟩ : BlockWrite), .logAck (⟨3, [1, 2, 3], none⟩ : BlockWrite), .clear (⟨3, [1, 2,
      3], none⟩ : BlockWrite), .serviceUnlock (⟨3, [1, 2, 3], none⟩ : BlockWrite), .serviceLock (⟨3, [1, 2, 3], none⟩ : BlockWrite), .write (⟨3, [1,
      2, 3], none⟩ : BlockWrite), .armRegion (⟨3, [1, 2, 3], none⟩ : BlockWrite), .reloadRegion (⟨3, [1, 2, 3], none⟩ : BlockWrite), .inject (⟨3,
      [1, 2, 3], none⟩ : BlockWrite), .calZero (⟨3, [1, 2, 3], none⟩ : BlockWrite), .calFull (⟨3, [1, 2, 3], none⟩ : BlockWrite), .calCommit (⟨3,
      [1, 2, 3], none⟩ : BlockWrite), .nvmWrite (⟨3, [1, 2, 3], none⟩ : BlockWrite), .nvmFetch (⟨3, [1, 2, 3], none⟩ : BlockWrite)] : List
      Instr).getD (0 * 3 % 14) (.clear (⟨3, [1, 2, 3], none⟩ : BlockWrite)))).getD (0, 0, 0, false, (⟨3, [1, 2, 3], none⟩ : BlockWrite))).2.1,
      ((blockOf (([.ringAck (⟨3, [1, 2, 3], none⟩ : BlockWrite), .logAck (⟨3, [1, 2, 3], none⟩ : BlockWrite), .clear (⟨3, [1, 2, 3], none⟩ :
      BlockWrite), .serviceUnlock (⟨3, [1, 2, 3], none⟩ : BlockWrite), .serviceLock (⟨3, [1, 2, 3], none⟩ : BlockWrite), .write (⟨3, [1, 2, 3],
      none⟩ : BlockWrite), .armRegion (⟨3, [1, 2, 3], none⟩ : BlockWrite), .reloadRegion (⟨3, [1, 2, 3], none⟩ : BlockWrite), .inject (⟨3, [1, 2,
      3], none⟩ : BlockWrite), .calZero (⟨3, [1, 2, 3], none⟩ : BlockWrite), .calFull (⟨3, [1, 2, 3], none⟩ : BlockWrite), .calCommit (⟨3, [1, 2,
      3], none⟩ : BlockWrite), .nvmWrite (⟨3, [1, 2, 3], none⟩ : BlockWrite), .nvmFetch (⟨3, [1, 2, 3], none⟩ : BlockWrite)] : List Instr).getD (0 *
      3 % 14) (.clear (⟨3, [1, 2, 3], none⟩ : BlockWrite)))).getD (0, 0, 0, false, (⟨3, [1, 2, 3], none⟩ : BlockWrite))).2.2.1, ((blockOf
      (([.ringAck (⟨3, [1, 2, 3], none⟩ : BlockWrite), .logAck (⟨3, [1, 2, 3], none⟩ : BlockWrite), .clear (⟨3, [1, 2, 3], none⟩ : BlockWrite),
      .serviceUnlock (⟨3, [1, 2, 3], none⟩ : BlockWrite), .serviceLock (⟨3, [1, 2, 3], none⟩ : BlockWrite), .write (⟨3, [1, 2, 3], none⟩ :
      BlockWrite), .armRegion (⟨3, [1, 2, 3], none⟩ : BlockWrite), .reloadRegion (⟨3, [1, 2, 3], none⟩ : BlockWrite), .inject (⟨3, [1, 2, 3], none⟩
      : BlockWrite), .calZero (⟨3, [1, 2, 3], none⟩ : BlockWrite), .calFull (⟨3, [1, 2, 3], none⟩ : BlockWrite), .calCommit (⟨3, [1, 2, 3], none⟩ :
      BlockWrite), .nvmWrite (⟨3, [1, 2, 3], none⟩ : BlockWrite), .nvmFetch (⟨3, [1, 2, 3], none⟩ : BlockWrite)] : List Instr).getD (0 * 3 % 14)
      (.clear (⟨3, [1, 2, 3], none⟩ : BlockWrite)))).getD (0, 0, 0, false, (⟨3, [1, 2, 3], none⟩ : BlockWrite))).2.2.2.1, ⟨3, [1, 2, 3], none⟩, wit
      [fun d => { d with start := { d.start with st := .run } }], by decide +kernel⟩,
    ⟨([.ringAck (⟨3, [1, 2, 3], some 4⟩ : BlockWrite), .logAck (⟨3, [1, 2, 3], some 4⟩ : BlockWrite), .clear (⟨3, [1, 2, 3], some 4⟩ : BlockWrite),
      .serviceUnlock (⟨3, [1, 2, 3], some 4⟩ : BlockWrite), .serviceLock (⟨3, [1, 2, 3], some 4⟩ : BlockWrite), .write (⟨3, [1, 2, 3], some 4⟩ :
      BlockWrite), .armRegion (⟨3, [1, 2, 3], some 4⟩ : BlockWrite), .reloadRegion (⟨3, [1, 2, 3], some 4⟩ : BlockWrite), .inject (⟨3, [1, 2, 3],
      some 4⟩ : BlockWrite), .calZero (⟨3, [1, 2, 3], some 4⟩ : BlockWrite), .calFull (⟨3, [1, 2, 3], some 4⟩ : BlockWrite), .calCommit (⟨3, [1, 2,
      3], some 4⟩ : BlockWrite), .nvmWrite (⟨3, [1, 2, 3], some 4⟩ : BlockWrite), .nvmFetch (⟨3, [1, 2, 3], some 4⟩ : BlockWrite)] : List
      Instr).getD (0 * 3 % 14) (.clear (⟨3, [1, 2, 3], some 4⟩ : BlockWrite)), ((blockOf (([.ringAck (⟨3, [1, 2, 3], some 4⟩ : BlockWrite), .logAck
      (⟨3, [1, 2, 3], some 4⟩ : BlockWrite), .clear (⟨3, [1, 2, 3], some 4⟩ : BlockWrite), .serviceUnlock (⟨3, [1, 2, 3], some 4⟩ : BlockWrite),
      .serviceLock (⟨3, [1, 2, 3], some 4⟩ : BlockWrite), .write (⟨3, [1, 2, 3], some 4⟩ : BlockWrite), .armRegion (⟨3, [1, 2, 3], some 4⟩ :
      BlockWrite), .reloadRegion (⟨3, [1, 2, 3], some 4⟩ : BlockWrite), .inject (⟨3, [1, 2, 3], some 4⟩ : BlockWrite), .calZero (⟨3, [1, 2, 3], some
      4⟩ : BlockWrite), .calFull (⟨3, [1, 2, 3], some 4⟩ : BlockWrite), .calCommit (⟨3, [1, 2, 3], some 4⟩ : BlockWrite), .nvmWrite (⟨3, [1, 2, 3],
      some 4⟩ : BlockWrite), .nvmFetch (⟨3, [1, 2, 3], some 4⟩ : BlockWrite)] : List Instr).getD (0 * 3 % 14) (.clear (⟨3, [1, 2, 3], some 4⟩ :
      BlockWrite)))).getD (0, 0, 0, false, (⟨3, [1, 2, 3], some 4⟩ : BlockWrite))).1, ((blockOf (([.ringAck (⟨3, [1, 2, 3], some 4⟩ : BlockWrite),
      .logAck (⟨3, [1, 2, 3], some 4⟩ : BlockWrite), .clear (⟨3, [1, 2, 3], some 4⟩ : BlockWrite), .serviceUnlock (⟨3, [1, 2, 3], some 4⟩ :
      BlockWrite), .serviceLock (⟨3, [1, 2, 3], some 4⟩ : BlockWrite), .write (⟨3, [1, 2, 3], some 4⟩ : BlockWrite), .armRegion (⟨3, [1, 2, 3], some
      4⟩ : BlockWrite), .reloadRegion (⟨3, [1, 2, 3], some 4⟩ : BlockWrite), .inject (⟨3, [1, 2, 3], some 4⟩ : BlockWrite), .calZero (⟨3, [1, 2, 3],
      some 4⟩ : BlockWrite), .calFull (⟨3, [1, 2, 3], some 4⟩ : BlockWrite), .calCommit (⟨3, [1, 2, 3], some 4⟩ : BlockWrite), .nvmWrite (⟨3, [1, 2,
      3], some 4⟩ : BlockWrite), .nvmFetch (⟨3, [1, 2, 3], some 4⟩ : BlockWrite)] : List Instr).getD (0 * 3 % 14) (.clear (⟨3, [1, 2, 3], some 4⟩ :
      BlockWrite)))).getD (0, 0, 0, false, (⟨3, [1, 2, 3], some 4⟩ : BlockWrite))).2.1, ((blockOf (([.ringAck (⟨3, [1, 2, 3], some 4⟩ : BlockWrite),
      .logAck (⟨3, [1, 2, 3], some 4⟩ : BlockWrite), .clear (⟨3, [1, 2, 3], some 4⟩ : BlockWrite), .serviceUnlock (⟨3, [1, 2, 3], some 4⟩ :
      BlockWrite), .serviceLock (⟨3, [1, 2, 3], some 4⟩ : BlockWrite), .write (⟨3, [1, 2, 3], some 4⟩ : BlockWrite), .armRegion (⟨3, [1, 2, 3], some
      4⟩ : BlockWrite), .reloadRegion (⟨3, [1, 2, 3], some 4⟩ : BlockWrite), .inject (⟨3, [1, 2, 3], some 4⟩ : BlockWrite), .calZero (⟨3, [1, 2, 3],
      some 4⟩ : BlockWrite), .calFull (⟨3, [1, 2, 3], some 4⟩ : BlockWrite), .calCommit (⟨3, [1, 2, 3], some 4⟩ : BlockWrite), .nvmWrite (⟨3, [1, 2,
      3], some 4⟩ : BlockWrite), .nvmFetch (⟨3, [1, 2, 3], some 4⟩ : BlockWrite)] : List Instr).getD (0 * 3 % 14) (.clear (⟨3, [1, 2, 3], some 4⟩ :
      BlockWrite)))).getD (0, 0, 0, false, (⟨3, [1, 2, 3], some 4⟩ : BlockWrite))).2.2.1, ((blockOf (([.ringAck (⟨3, [1, 2, 3], some 4⟩ :
      BlockWrite), .logAck (⟨3, [1, 2, 3], some 4⟩ : BlockWrite), .clear (⟨3, [1, 2, 3], some 4⟩ : BlockWrite), .serviceUnlock (⟨3, [1, 2, 3], some
      4⟩ : BlockWrite), .serviceLock (⟨3, [1, 2, 3], some 4⟩ : BlockWrite), .write (⟨3, [1, 2, 3], some 4⟩ : BlockWrite), .armRegion (⟨3, [1, 2, 3],
      some 4⟩ : BlockWrite), .reloadRegion (⟨3, [1, 2, 3], some 4⟩ : BlockWrite), .inject (⟨3, [1, 2, 3], some 4⟩ : BlockWrite), .calZero (⟨3, [1,
      2, 3], some 4⟩ : BlockWrite), .calFull (⟨3, [1, 2, 3], some 4⟩ : BlockWrite), .calCommit (⟨3, [1, 2, 3], some 4⟩ : BlockWrite), .nvmWrite (⟨3,
      [1, 2, 3], some 4⟩ : BlockWrite), .nvmFetch (⟨3, [1, 2, 3], some 4⟩ : BlockWrite)] : List Instr).getD (0 * 3 % 14) (.clear (⟨3, [1, 2, 3],
      some 4⟩ : BlockWrite)))).getD (0, 0, 0, false, (⟨3, [1, 2, 3], some 4⟩ : BlockWrite))).2.2.2.1, ⟨3, [1, 2, 3], some 4⟩, 4, wit [fun d =>
      { d with start := { d.start with st := .run } }], by decide +kernel⟩,
    ⟨.ringAck (sb State.reset.dev 0x05 []), 5, 3, 3, false, sb State.reset.dev 0x05 [], wit [fun d =>
      { d with start := { d.start with st := .run } }], by decide +kernel⟩,
    ⟨([.serviceLock (sb State.reset.dev (BitVec.ofNat 8 (([0x05, 0x06, 0x07, 0x10, 0x11, 0x12, 0x13, 0x14, 0x15, 0x16, 0x17, 0x18, 0x19, 0x1A] :
      List Nat).getD (4 + 0 % 10) 0)) (List.replicate (([3, 2, 7, 2, 1, 11, 2, 3, 4, 1, 5, 1, 5, 5] : List Nat).getD (4 + 0 % 10) 0) 1)), .write (sb
      State.reset.dev (BitVec.ofNat 8 (([0x05, 0x06, 0x07, 0x10, 0x11, 0x12, 0x13, 0x14, 0x15, 0x16, 0x17, 0x18, 0x19, 0x1A] : List Nat).getD (4 + 0
      % 10) 0)) (List.replicate (([3, 2, 7, 2, 1, 11, 2, 3, 4, 1, 5, 1, 5, 5] : List Nat).getD (4 + 0 % 10) 0) 1)), .armRegion (sb State.reset.dev
      (BitVec.ofNat 8 (([0x05, 0x06, 0x07, 0x10, 0x11, 0x12, 0x13, 0x14, 0x15, 0x16, 0x17, 0x18, 0x19, 0x1A] : List Nat).getD (4 + 0 % 10) 0))
      (List.replicate (([3, 2, 7, 2, 1, 11, 2, 3, 4, 1, 5, 1, 5, 5] : List Nat).getD (4 + 0 % 10) 0) 1)), .reloadRegion (sb State.reset.dev
      (BitVec.ofNat 8 (([0x05, 0x06, 0x07, 0x10, 0x11, 0x12, 0x13, 0x14, 0x15, 0x16, 0x17, 0x18, 0x19, 0x1A] : List Nat).getD (4 + 0 % 10) 0))
      (List.replicate (([3, 2, 7, 2, 1, 11, 2, 3, 4, 1, 5, 1, 5, 5] : List Nat).getD (4 + 0 % 10) 0) 1)), .inject (sb State.reset.dev (BitVec.ofNat
      8 (([0x05, 0x06, 0x07, 0x10, 0x11, 0x12, 0x13, 0x14, 0x15, 0x16, 0x17, 0x18, 0x19, 0x1A] : List Nat).getD (4 + 0 % 10) 0)) (List.replicate
      (([3, 2, 7, 2, 1, 11, 2, 3, 4, 1, 5, 1, 5, 5] : List Nat).getD (4 + 0 % 10) 0) 1)), .calZero (sb State.reset.dev (BitVec.ofNat 8 (([0x05,
      0x06, 0x07, 0x10, 0x11, 0x12, 0x13, 0x14, 0x15, 0x16, 0x17, 0x18, 0x19, 0x1A] : List Nat).getD (4 + 0 % 10) 0)) (List.replicate (([3, 2, 7, 2,
      1, 11, 2, 3, 4, 1, 5, 1, 5, 5] : List Nat).getD (4 + 0 % 10) 0) 1)), .calFull (sb State.reset.dev (BitVec.ofNat 8 (([0x05, 0x06, 0x07, 0x10,
      0x11, 0x12, 0x13, 0x14, 0x15, 0x16, 0x17, 0x18, 0x19, 0x1A] : List Nat).getD (4 + 0 % 10) 0)) (List.replicate (([3, 2, 7, 2, 1, 11, 2, 3, 4,
      1, 5, 1, 5, 5] : List Nat).getD (4 + 0 % 10) 0) 1)), .calCommit (sb State.reset.dev (BitVec.ofNat 8 (([0x05, 0x06, 0x07, 0x10, 0x11, 0x12,
      0x13, 0x14, 0x15, 0x16, 0x17, 0x18, 0x19, 0x1A] : List Nat).getD (4 + 0 % 10) 0)) (List.replicate (([3, 2, 7, 2, 1, 11, 2, 3, 4, 1, 5, 1, 5,
      5] : List Nat).getD (4 + 0 % 10) 0) 1)), .nvmWrite (sb State.reset.dev (BitVec.ofNat 8 (([0x05, 0x06, 0x07, 0x10, 0x11, 0x12, 0x13, 0x14,
      0x15, 0x16, 0x17, 0x18, 0x19, 0x1A] : List Nat).getD (4 + 0 % 10) 0)) (List.replicate (([3, 2, 7, 2, 1, 11, 2, 3, 4, 1, 5, 1, 5, 5] : List
      Nat).getD (4 + 0 % 10) 0) 1)), .nvmFetch (sb State.reset.dev (BitVec.ofNat 8 (([0x05, 0x06, 0x07, 0x10, 0x11, 0x12, 0x13, 0x14, 0x15, 0x16,
      0x17, 0x18, 0x19, 0x1A] : List Nat).getD (4 + 0 % 10) 0)) (List.replicate (([3, 2, 7, 2, 1, 11, 2, 3, 4, 1, 5, 1, 5, 5] : List Nat).getD (4 +
      0 % 10) 0) 1))] : List Instr).getD (0 % 10) (.clear (sb State.reset.dev (BitVec.ofNat 8 (([0x05, 0x06, 0x07, 0x10, 0x11, 0x12, 0x13, 0x14,
      0x15, 0x16, 0x17, 0x18, 0x19, 0x1A] : List Nat).getD (4 + 0 % 10) 0)) (List.replicate (([3, 2, 7, 2, 1, 11, 2, 3, 4, 1, 5, 1, 5, 5] : List
      Nat).getD (4 + 0 % 10) 0) 1))), ((blockOf (([.serviceLock (sb State.reset.dev (BitVec.ofNat 8 (([0x05, 0x06, 0x07, 0x10, 0x11, 0x12, 0x13,
      0x14, 0x15, 0x16, 0x17, 0x18, 0x19, 0x1A] : List Nat).getD (4 + 0 % 10) 0)) (List.replicate (([3, 2, 7, 2, 1, 11, 2, 3, 4, 1, 5, 1, 5, 5] :
      List Nat).getD (4 + 0 % 10) 0) 1)), .write (sb State.reset.dev (BitVec.ofNat 8 (([0x05, 0x06, 0x07, 0x10, 0x11, 0x12, 0x13, 0x14, 0x15, 0x16,
      0x17, 0x18, 0x19, 0x1A] : List Nat).getD (4 + 0 % 10) 0)) (List.replicate (([3, 2, 7, 2, 1, 11, 2, 3, 4, 1, 5, 1, 5, 5] : List Nat).getD (4 +
      0 % 10) 0) 1)), .armRegion (sb State.reset.dev (BitVec.ofNat 8 (([0x05, 0x06, 0x07, 0x10, 0x11, 0x12, 0x13, 0x14, 0x15, 0x16, 0x17, 0x18,
      0x19, 0x1A] : List Nat).getD (4 + 0 % 10) 0)) (List.replicate (([3, 2, 7, 2, 1, 11, 2, 3, 4, 1, 5, 1, 5, 5] : List Nat).getD (4 + 0 % 10) 0)
      1)), .reloadRegion (sb State.reset.dev (BitVec.ofNat 8 (([0x05, 0x06, 0x07, 0x10, 0x11, 0x12, 0x13, 0x14, 0x15, 0x16, 0x17, 0x18, 0x19, 0x1A]
      : List Nat).getD (4 + 0 % 10) 0)) (List.replicate (([3, 2, 7, 2, 1, 11, 2, 3, 4, 1, 5, 1, 5, 5] : List Nat).getD (4 + 0 % 10) 0) 1)), .inject
      (sb State.reset.dev (BitVec.ofNat 8 (([0x05, 0x06, 0x07, 0x10, 0x11, 0x12, 0x13, 0x14, 0x15, 0x16, 0x17, 0x18, 0x19, 0x1A] : List Nat).getD (4
      + 0 % 10) 0)) (List.replicate (([3, 2, 7, 2, 1, 11, 2, 3, 4, 1, 5, 1, 5, 5] : List Nat).getD (4 + 0 % 10) 0) 1)), .calZero (sb State.reset.dev
      (BitVec.ofNat 8 (([0x05, 0x06, 0x07, 0x10, 0x11, 0x12, 0x13, 0x14, 0x15, 0x16, 0x17, 0x18, 0x19, 0x1A] : List Nat).getD (4 + 0 % 10) 0))
      (List.replicate (([3, 2, 7, 2, 1, 11, 2, 3, 4, 1, 5, 1, 5, 5] : List Nat).getD (4 + 0 % 10) 0) 1)), .calFull (sb State.reset.dev (BitVec.ofNat
      8 (([0x05, 0x06, 0x07, 0x10, 0x11, 0x12, 0x13, 0x14, 0x15, 0x16, 0x17, 0x18, 0x19, 0x1A] : List Nat).getD (4 + 0 % 10) 0)) (List.replicate
      (([3, 2, 7, 2, 1, 11, 2, 3, 4, 1, 5, 1, 5, 5] : List Nat).getD (4 + 0 % 10) 0) 1)), .calCommit (sb State.reset.dev (BitVec.ofNat 8 (([0x05,
      0x06, 0x07, 0x10, 0x11, 0x12, 0x13, 0x14, 0x15, 0x16, 0x17, 0x18, 0x19, 0x1A] : List Nat).getD (4 + 0 % 10) 0)) (List.replicate (([3, 2, 7, 2,
      1, 11, 2, 3, 4, 1, 5, 1, 5, 5] : List Nat).getD (4 + 0 % 10) 0) 1)), .nvmWrite (sb State.reset.dev (BitVec.ofNat 8 (([0x05, 0x06, 0x07, 0x10,
      0x11, 0x12, 0x13, 0x14, 0x15, 0x16, 0x17, 0x18, 0x19, 0x1A] : List Nat).getD (4 + 0 % 10) 0)) (List.replicate (([3, 2, 7, 2, 1, 11, 2, 3, 4,
      1, 5, 1, 5, 5] : List Nat).getD (4 + 0 % 10) 0) 1)), .nvmFetch (sb State.reset.dev (BitVec.ofNat 8 (([0x05, 0x06, 0x07, 0x10, 0x11, 0x12,
      0x13, 0x14, 0x15, 0x16, 0x17, 0x18, 0x19, 0x1A] : List Nat).getD (4 + 0 % 10) 0)) (List.replicate (([3, 2, 7, 2, 1, 11, 2, 3, 4, 1, 5, 1, 5,
      5] : List Nat).getD (4 + 0 % 10) 0) 1))] : List Instr).getD (0 % 10) (.clear (sb State.reset.dev (BitVec.ofNat 8 (([0x05, 0x06, 0x07, 0x10,
      0x11, 0x12, 0x13, 0x14, 0x15, 0x16, 0x17, 0x18, 0x19, 0x1A] : List Nat).getD (4 + 0 % 10) 0)) (List.replicate (([3, 2, 7, 2, 1, 11, 2, 3, 4,
      1, 5, 1, 5, 5] : List Nat).getD (4 + 0 % 10) 0) 1))))).getD (0, 0, 0, false, (sb State.reset.dev (BitVec.ofNat 8 (([0x05, 0x06, 0x07, 0x10,
      0x11, 0x12, 0x13, 0x14, 0x15, 0x16, 0x17, 0x18, 0x19, 0x1A] : List Nat).getD (4 + 0 % 10) 0)) (List.replicate (([3, 2, 7, 2, 1, 11, 2, 3, 4,
      1, 5, 1, 5, 5] : List Nat).getD (4 + 0 % 10) 0) 1)))).1, ((blockOf (([.serviceLock (sb State.reset.dev (BitVec.ofNat 8 (([0x05, 0x06, 0x07,
      0x10, 0x11, 0x12, 0x13, 0x14, 0x15, 0x16, 0x17, 0x18, 0x19, 0x1A] : List Nat).getD (4 + 0 % 10) 0)) (List.replicate (([3, 2, 7, 2, 1, 11, 2,
      3, 4, 1, 5, 1, 5, 5] : List Nat).getD (4 + 0 % 10) 0) 1)), .write (sb State.reset.dev (BitVec.ofNat 8 (([0x05, 0x06, 0x07, 0x10, 0x11, 0x12,
      0x13, 0x14, 0x15, 0x16, 0x17, 0x18, 0x19, 0x1A] : List Nat).getD (4 + 0 % 10) 0)) (List.replicate (([3, 2, 7, 2, 1, 11, 2, 3, 4, 1, 5, 1, 5,
      5] : List Nat).getD (4 + 0 % 10) 0) 1)), .armRegion (sb State.reset.dev (BitVec.ofNat 8 (([0x05, 0x06, 0x07, 0x10, 0x11, 0x12, 0x13, 0x14,
      0x15, 0x16, 0x17, 0x18, 0x19, 0x1A] : List Nat).getD (4 + 0 % 10) 0)) (List.replicate (([3, 2, 7, 2, 1, 11, 2, 3, 4, 1, 5, 1, 5, 5] : List
      Nat).getD (4 + 0 % 10) 0) 1)), .reloadRegion (sb State.reset.dev (BitVec.ofNat 8 (([0x05, 0x06, 0x07, 0x10, 0x11, 0x12, 0x13, 0x14, 0x15,
      0x16, 0x17, 0x18, 0x19, 0x1A] : List Nat).getD (4 + 0 % 10) 0)) (List.replicate (([3, 2, 7, 2, 1, 11, 2, 3, 4, 1, 5, 1, 5, 5] : List Nat).getD
      (4 + 0 % 10) 0) 1)), .inject (sb State.reset.dev (BitVec.ofNat 8 (([0x05, 0x06, 0x07, 0x10, 0x11, 0x12, 0x13, 0x14, 0x15, 0x16, 0x17, 0x18,
      0x19, 0x1A] : List Nat).getD (4 + 0 % 10) 0)) (List.replicate (([3, 2, 7, 2, 1, 11, 2, 3, 4, 1, 5, 1, 5, 5] : List Nat).getD (4 + 0 % 10) 0)
      1)), .calZero (sb State.reset.dev (BitVec.ofNat 8 (([0x05, 0x06, 0x07, 0x10, 0x11, 0x12, 0x13, 0x14, 0x15, 0x16, 0x17, 0x18, 0x19, 0x1A] :
      List Nat).getD (4 + 0 % 10) 0)) (List.replicate (([3, 2, 7, 2, 1, 11, 2, 3, 4, 1, 5, 1, 5, 5] : List Nat).getD (4 + 0 % 10) 0) 1)), .calFull
      (sb State.reset.dev (BitVec.ofNat 8 (([0x05, 0x06, 0x07, 0x10, 0x11, 0x12, 0x13, 0x14, 0x15, 0x16, 0x17, 0x18, 0x19, 0x1A] : List Nat).getD (4
      + 0 % 10) 0)) (List.replicate (([3, 2, 7, 2, 1, 11, 2, 3, 4, 1, 5, 1, 5, 5] : List Nat).getD (4 + 0 % 10) 0) 1)), .calCommit (sb
      State.reset.dev (BitVec.ofNat 8 (([0x05, 0x06, 0x07, 0x10, 0x11, 0x12, 0x13, 0x14, 0x15, 0x16, 0x17, 0x18, 0x19, 0x1A] : List Nat).getD (4 + 0
      % 10) 0)) (List.replicate (([3, 2, 7, 2, 1, 11, 2, 3, 4, 1, 5, 1, 5, 5] : List Nat).getD (4 + 0 % 10) 0) 1)), .nvmWrite (sb State.reset.dev
      (BitVec.ofNat 8 (([0x05, 0x06, 0x07, 0x10, 0x11, 0x12, 0x13, 0x14, 0x15, 0x16, 0x17, 0x18, 0x19, 0x1A] : List Nat).getD (4 + 0 % 10) 0))
      (List.replicate (([3, 2, 7, 2, 1, 11, 2, 3, 4, 1, 5, 1, 5, 5] : List Nat).getD (4 + 0 % 10) 0) 1)), .nvmFetch (sb State.reset.dev
      (BitVec.ofNat 8 (([0x05, 0x06, 0x07, 0x10, 0x11, 0x12, 0x13, 0x14, 0x15, 0x16, 0x17, 0x18, 0x19, 0x1A] : List Nat).getD (4 + 0 % 10) 0))
      (List.replicate (([3, 2, 7, 2, 1, 11, 2, 3, 4, 1, 5, 1, 5, 5] : List Nat).getD (4 + 0 % 10) 0) 1))] : List Instr).getD (0 % 10) (.clear (sb
      State.reset.dev (BitVec.ofNat 8 (([0x05, 0x06, 0x07, 0x10, 0x11, 0x12, 0x13, 0x14, 0x15, 0x16, 0x17, 0x18, 0x19, 0x1A] : List Nat).getD (4 + 0
      % 10) 0)) (List.replicate (([3, 2, 7, 2, 1, 11, 2, 3, 4, 1, 5, 1, 5, 5] : List Nat).getD (4 + 0 % 10) 0) 1))))).getD (0, 0, 0, false, (sb
      State.reset.dev (BitVec.ofNat 8 (([0x05, 0x06, 0x07, 0x10, 0x11, 0x12, 0x13, 0x14, 0x15, 0x16, 0x17, 0x18, 0x19, 0x1A] : List Nat).getD (4 + 0
      % 10) 0)) (List.replicate (([3, 2, 7, 2, 1, 11, 2, 3, 4, 1, 5, 1, 5, 5] : List Nat).getD (4 + 0 % 10) 0) 1)))).2.1, ((blockOf (([.serviceLock
      (sb State.reset.dev (BitVec.ofNat 8 (([0x05, 0x06, 0x07, 0x10, 0x11, 0x12, 0x13, 0x14, 0x15, 0x16, 0x17, 0x18, 0x19, 0x1A] : List Nat).getD (4
      + 0 % 10) 0)) (List.replicate (([3, 2, 7, 2, 1, 11, 2, 3, 4, 1, 5, 1, 5, 5] : List Nat).getD (4 + 0 % 10) 0) 1)), .write (sb State.reset.dev
      (BitVec.ofNat 8 (([0x05, 0x06, 0x07, 0x10, 0x11, 0x12, 0x13, 0x14, 0x15, 0x16, 0x17, 0x18, 0x19, 0x1A] : List Nat).getD (4 + 0 % 10) 0))
      (List.replicate (([3, 2, 7, 2, 1, 11, 2, 3, 4, 1, 5, 1, 5, 5] : List Nat).getD (4 + 0 % 10) 0) 1)), .armRegion (sb State.reset.dev
      (BitVec.ofNat 8 (([0x05, 0x06, 0x07, 0x10, 0x11, 0x12, 0x13, 0x14, 0x15, 0x16, 0x17, 0x18, 0x19, 0x1A] : List Nat).getD (4 + 0 % 10) 0))
      (List.replicate (([3, 2, 7, 2, 1, 11, 2, 3, 4, 1, 5, 1, 5, 5] : List Nat).getD (4 + 0 % 10) 0) 1)), .reloadRegion (sb State.reset.dev
      (BitVec.ofNat 8 (([0x05, 0x06, 0x07, 0x10, 0x11, 0x12, 0x13, 0x14, 0x15, 0x16, 0x17, 0x18, 0x19, 0x1A] : List Nat).getD (4 + 0 % 10) 0))
      (List.replicate (([3, 2, 7, 2, 1, 11, 2, 3, 4, 1, 5, 1, 5, 5] : List Nat).getD (4 + 0 % 10) 0) 1)), .inject (sb State.reset.dev (BitVec.ofNat
      8 (([0x05, 0x06, 0x07, 0x10, 0x11, 0x12, 0x13, 0x14, 0x15, 0x16, 0x17, 0x18, 0x19, 0x1A] : List Nat).getD (4 + 0 % 10) 0)) (List.replicate
      (([3, 2, 7, 2, 1, 11, 2, 3, 4, 1, 5, 1, 5, 5] : List Nat).getD (4 + 0 % 10) 0) 1)), .calZero (sb State.reset.dev (BitVec.ofNat 8 (([0x05,
      0x06, 0x07, 0x10, 0x11, 0x12, 0x13, 0x14, 0x15, 0x16, 0x17, 0x18, 0x19, 0x1A] : List Nat).getD (4 + 0 % 10) 0)) (List.replicate (([3, 2, 7, 2,
      1, 11, 2, 3, 4, 1, 5, 1, 5, 5] : List Nat).getD (4 + 0 % 10) 0) 1)), .calFull (sb State.reset.dev (BitVec.ofNat 8 (([0x05, 0x06, 0x07, 0x10,
      0x11, 0x12, 0x13, 0x14, 0x15, 0x16, 0x17, 0x18, 0x19, 0x1A] : List Nat).getD (4 + 0 % 10) 0)) (List.replicate (([3, 2, 7, 2, 1, 11, 2, 3, 4,
      1, 5, 1, 5, 5] : List Nat).getD (4 + 0 % 10) 0) 1)), .calCommit (sb State.reset.dev (BitVec.ofNat 8 (([0x05, 0x06, 0x07, 0x10, 0x11, 0x12,
      0x13, 0x14, 0x15, 0x16, 0x17, 0x18, 0x19, 0x1A] : List Nat).getD (4 + 0 % 10) 0)) (List.replicate (([3, 2, 7, 2, 1, 11, 2, 3, 4, 1, 5, 1, 5,
      5] : List Nat).getD (4 + 0 % 10) 0) 1)), .nvmWrite (sb State.reset.dev (BitVec.ofNat 8 (([0x05, 0x06, 0x07, 0x10, 0x11, 0x12, 0x13, 0x14,
      0x15, 0x16, 0x17, 0x18, 0x19, 0x1A] : List Nat).getD (4 + 0 % 10) 0)) (List.replicate (([3, 2, 7, 2, 1, 11, 2, 3, 4, 1, 5, 1, 5, 5] : List
      Nat).getD (4 + 0 % 10) 0) 1)), .nvmFetch (sb State.reset.dev (BitVec.ofNat 8 (([0x05, 0x06, 0x07, 0x10, 0x11, 0x12, 0x13, 0x14, 0x15, 0x16,
      0x17, 0x18, 0x19, 0x1A] : List Nat).getD (4 + 0 % 10) 0)) (List.replicate (([3, 2, 7, 2, 1, 11, 2, 3, 4, 1, 5, 1, 5, 5] : List Nat).getD (4 +
      0 % 10) 0) 1))] : List Instr).getD (0 % 10) (.clear (sb State.reset.dev (BitVec.ofNat 8 (([0x05, 0x06, 0x07, 0x10, 0x11, 0x12, 0x13, 0x14,
      0x15, 0x16, 0x17, 0x18, 0x19, 0x1A] : List Nat).getD (4 + 0 % 10) 0)) (List.replicate (([3, 2, 7, 2, 1, 11, 2, 3, 4, 1, 5, 1, 5, 5] : List
      Nat).getD (4 + 0 % 10) 0) 1))))).getD (0, 0, 0, false, (sb State.reset.dev (BitVec.ofNat 8 (([0x05, 0x06, 0x07, 0x10, 0x11, 0x12, 0x13, 0x14,
      0x15, 0x16, 0x17, 0x18, 0x19, 0x1A] : List Nat).getD (4 + 0 % 10) 0)) (List.replicate (([3, 2, 7, 2, 1, 11, 2, 3, 4, 1, 5, 1, 5, 5] : List
      Nat).getD (4 + 0 % 10) 0) 1)))).2.2.1, sb State.reset.dev (BitVec.ofNat 8 (([0x05, 0x06, 0x07, 0x10, 0x11, 0x12, 0x13, 0x14, 0x15, 0x16, 0x17,
      0x18, 0x19, 0x1A] : List Nat).getD (4 + 0 % 10) 0)) (List.replicate (([3, 2, 7, 2, 1, 11, 2, 3, 4, 1, 5, 1, 5, 5] : List Nat).getD (4 + 0 %
      10) 0) 1), wit [fun d => { d with start := { d.start with st := .run } }, fun d => { d with sup := { d.sup with unlockEnd := none } }],
      by decide +kernel⟩⟩

theorem witness_Acknowledges :
    (∃ (w : BlockWrite) (r : Ring) (s : State), targetUp s.dev = true ∧ soundBlock 0x05 w s.dev = true ∧ w.data.length = 3 ∧ fld w.data 0 1 = r.1 ∧
      (fld w.data 1 2 + 65536 - (s.dev.rings[r]).rd.toNat) % 65536 ≤ fill16 (s.dev.rings[r]).wr (s.dev.rings[r]).rd) ∧
    (∃ (w : BlockWrite) (r : Ring) (s : State), targetUp s.dev = true ∧ soundBlock 0x05 w s.dev = true ∧ w.data.length = 3 ∧ fld w.data 0 1 = r.1 ∧
      fill16 (s.dev.rings[r]).wr (s.dev.rings[r]).rd < (fld w.data 1 2 + 65536 - (s.dev.rings[r]).rd.toNat) % 65536) ∧
    (∃ (w : BlockWrite) (s : State), targetUp s.dev = true ∧ soundBlock 0x06 w s.dev = true ∧ w.data.length = 2 ∧ (fld w.data 0 2 + 65536 -
      s.dev.col.logRd.toNat) % 65536 ≤ fill16 s.dev.col.logWr s.dev.col.logRd) ∧
    ∃ (w : BlockWrite) (s : State), targetUp s.dev = true ∧ soundBlock 0x06 w s.dev = true ∧ w.data.length = 2 ∧ fill16 s.dev.col.logWr
      s.dev.col.logRd < (fld w.data 0 2 + 65536 - s.dev.col.logRd.toNat) % 65536 :=
  ⟨
    ⟨sb State.reset.dev 0x05 ([7, 0x10, 0x12]), 7, wit [fun d =>
      { d with sup := { d.sup with unlockEnd := some (d.clk.up + 1000000) }, start := { d.start with st := .run } }, fun d =>
      { d with rings := vset d.rings 7 { d.rings[(7 : Ring)] with wr := 0x1220, rd := 0x1200 } }], by decide +kernel⟩,
    ⟨sb State.reset.dev 0x05 ([7, 0x30, 0x12]), 7, wit [fun d =>
      { d with sup := { d.sup with unlockEnd := some (d.clk.up + 1000000) }, start := { d.start with st := .run } }, fun d =>
      { d with rings := vset d.rings 7 { d.rings[(7 : Ring)] with wr := 0x1220, rd := 0x1200 } }], by decide +kernel⟩,
    ⟨sb State.reset.dev 0x06 ([0x10, 0x12]), wit [fun d =>
      { d with sup := { d.sup with unlockEnd := some (d.clk.up + 1000000) }, start := { d.start with st := .run } }, fun d =>
      { d with col := { d.col with logWr := 0x1220, logRd := 0x1200 } }], by decide +kernel⟩,
    ⟨sb State.reset.dev 0x06 ([0x30, 0x12]), wit [fun d =>
      { d with sup := { d.sup with unlockEnd := some (d.clk.up + 1000000) }, start := { d.start with st := .run } }, fun d =>
      { d with col := { d.col with logWr := 0x1220, logRd := 0x1200 } }], by decide +kernel⟩⟩

theorem witness_ServiceUnlock :
    (∃ (w : BlockWrite) (s : State), targetUp s.dev = true ∧ soundBlock 0x10 w s.dev = true ∧ w.data.length = 2 ∧ (s.dev.start.st = .configured ∨
      s.dev.start.st = .join ∨ s.dev.start.st = .run) ∧ s.dev.loader.svcCmdEnable = true ∧ s.dev.loader.serviceCode ≠ 0 ∧ lockedOut s.dev = false ∧
      fld w.data 0 2 = s.dev.loader.serviceCode.toNat) ∧
    (∃ (w : BlockWrite) (s : State), targetUp s.dev = true ∧ soundBlock 0x10 w s.dev = true ∧ w.data.length = 2 ∧ (s.dev.start.st = .configured ∨
      s.dev.start.st = .join ∨ s.dev.start.st = .run) ∧ s.dev.loader.svcCmdEnable = true ∧ s.dev.loader.serviceCode ≠ 0 ∧ lockedOut s.dev = false ∧
      fld w.data 0 2 ≠ s.dev.loader.serviceCode.toNat) ∧
    (∃ (w : BlockWrite) (s : State), targetUp s.dev = true ∧ soundBlock 0x10 w s.dev = true ∧ w.data.length = 2 ∧ (s.dev.start.st = .configured ∨
      s.dev.start.st = .join ∨ s.dev.start.st = .run) ∧ s.dev.loader.svcCmdEnable = true ∧ s.dev.loader.serviceCode ≠ 0 ∧ lockedOut s.dev = true) ∧
    (∃ (w : BlockWrite) (s : State), targetUp s.dev = true ∧ soundBlock 0x10 w s.dev = true ∧ w.data.length = 2 ∧ (s.dev.start.st = .configured ∨
      s.dev.start.st = .join ∨ s.dev.start.st = .run) ∧ (s.dev.loader.svcCmdEnable = false ∨ s.dev.loader.serviceCode = 0)) ∧
    (∃ (w : BlockWrite) (s : State), targetUp s.dev = true ∧ soundBlock 0x10 w s.dev = true ∧ w.data.length = 2 ∧ s.dev.start.st ≠ .run ∧
      s.dev.start.st ≠ .join ∧ s.dev.start.st ≠ .configured) ∧
    (∃ (w : BlockWrite) (s : State), targetUp s.dev = true ∧ soundBlock 0x11 w s.dev = true ∧ w.data = [0] ∧ unlocked s.dev = true) ∧
    ∃ (u : ℕ) (s : State), calm .lockoutEnd s.dev = true ∧ s.dev.sup.lockoutEnd = some u :=
  ⟨
    ⟨sb State.reset.dev 0x10 ([0x34, 0x12]), wit [fun d =>
      { d with sup := { d.sup with unlockEnd := some (d.clk.up + 1000000) }, start := { d.start with st := .run } }, fun d =>
      { d with start := { d.start with st := .configured } }, fun d => { d with loader := { d.loader with svcCmdEnable := true } }, fun d =>
      { d with loader := { d.loader with svcCmdEnable := true, serviceCode := 0x1234 }, sup := { d.sup with lockoutEnd := none } }],
      by decide +kernel⟩,
    ⟨sb State.reset.dev 0x10 ([0x35, 0x12]), wit [fun d =>
      { d with sup := { d.sup with unlockEnd := some (d.clk.up + 1000000) }, start := { d.start with st := .run } }, fun d =>
      { d with start := { d.start with st := .configured } }, fun d => { d with loader := { d.loader with svcCmdEnable := true } }, fun d =>
      { d with loader := { d.loader with svcCmdEnable := true, serviceCode := 0x1234 }, sup := { d.sup with lockoutEnd := none } }],
      by decide +kernel⟩,
    ⟨sb State.reset.dev 0x10 ([0x35, 0x12]), wit [fun d =>
      { d with sup := { d.sup with unlockEnd := some (d.clk.up + 1000000) }, start := { d.start with st := .run } }, fun d =>
      { d with start := { d.start with st := .configured } }, fun d => { d with loader := { d.loader with svcCmdEnable := true } }, fun d =>
      { d with loader := { d.loader with svcCmdEnable := true, serviceCode := 0x1234 }, sup := { d.sup with lockoutEnd := none } }, fun d =>
      { d with sup := { d.sup with lockoutEnd := some (d.clk.up + 5) } }], by decide +kernel⟩,
    ⟨sb State.reset.dev 0x10 ([0x35, 0x12]), wit [fun d =>
      { d with sup := { d.sup with unlockEnd := some (d.clk.up + 1000000) }, start := { d.start with st := .run } }, fun d =>
      { d with start := { d.start with st := .configured } }, fun d => { d with loader := { d.loader with svcCmdEnable := false } }],
      by decide +kernel⟩,
    ⟨sb State.reset.dev 0x10 ([0x35, 0x12]), wit [fun d =>
      { d with sup := { d.sup with unlockEnd := some (d.clk.up + 1000000) }, start := { d.start with st := .run } }, fun d =>
      { d with start := { d.start with st := .noImage } }], by decide +kernel⟩,
    ⟨sb State.reset.dev 0x11 ([0]), wit [fun d =>
      { d with sup := { d.sup with unlockEnd := some (d.clk.up + 1000000) }, start := { d.start with st := .run } }], by decide +kernel⟩,
    ⟨1000, wit [fun d => { d with sup := { d.sup with lockoutEnd := some 1000 } }], by decide +kernel⟩⟩

theorem witness_Polls :
    (∃ (s : State), calm .pollRoundStart s.dev = true ∧ s.dev.cvn.source = true ∧ s.dev.start.st = .run) ∧
    (∃ (s : State), calm .pollRoundStart s.dev = true ∧ (s.dev.cvn.source = false ∨ s.dev.start.st ≠ .run)) ∧
    (∃ (id : Fin 16) (bs : Vector Byte 12) (s : State), s.dev.sup.poll = some (1 + id.1) ∧ s.dev.sup.polling = true) ∧
    (∃ (id : Fin 16) (s : State), s.dev.sup.poll = some (1 + id.1) ∧ s.dev.sup.polling = true) ∧
    (∃ (o : PollOutcome) (s : State), (s.dev.sup.poll = none ∨ s.dev.sup.polling = false)) ∧
    (∃ (s : State), s.dev.cvn.source = true ∧ s.dev.start.st = .run ∧ s.dev.pins.alertLow = false) ∧
    (∃ (w : ℕ) (seen : Option Byte) (s : State), s.dev.sup.poll = some w ∧ s.dev.sup.polling = true ∧ s.dev.sup.lostRun < 7) ∧
    (∃ (id : Fin 16) (seen : Option Byte) (s : State), s.dev.sup.poll = some (1 + id.1) ∧ s.dev.sup.polling = true ∧ s.dev.sup.lostRun = 7) ∧
    (∃ (w : ℕ) (u : ℕ) (s : State), calm .arbitrationBackoffEnd s.dev = true ∧ s.dev.sup.poll = some w ∧ s.dev.sup.backoff = true ∧ s.dev.sup.freeAt
      = some u) ∧
    (∃ (s : State), calm .arbitrationBackoffEnd s.dev = true ∧ s.dev.sup.freeAt = none) ∧
    (∃ (id : Fin 16) (s : State), s.dev.sup.poll = some (1 + id.1)) ∧
    (∃ (s : State), (controls s.dev = true ∨ s.dev.sup.poll.isSome = true)) ∧
    (∃ (low : Bool) (s : State), controls s.dev = false ∧ s.dev.sup.poll = none) ∧
    (∃ (s : State), s.dev.start.st ≠ .reset ∧ s.dev.start.st ≠ .init) ∧
    (∃ (s : State), s.dev.start.st ≠ .reset ∧ s.dev.start.st ≠ .init) ∧
    (∃ (w : ℕ) (s : State), s.dev.sup.poll = some w ∧ s.dev.sup.backoff = false) ∧
    (∃ (w : ℕ) (s : State), s.dev.sup.poll = some w ∧ s.dev.sup.backoff = true) ∧
    ∃ (x : ℕ × BootTx) (s : State), s.dev.bootp.cur = some x :=
  ⟨
    ⟨wit [fun d => { d with cvn := { d.cvn with source := true } }, fun d => { d with start := { d.start with st := .run } }], by decide +kernel⟩,
    ⟨wit [fun d => { d with cvn := { d.cvn with source := false } }], by decide +kernel⟩,
    ⟨1, (Vector.ofFn fun (i : Fin 12) => BitVec.ofNat 8 (i.1 * 37 + 0)), wit [fun d =>
      { d with sup := { d.sup with poll := some (1 + (1 : Fin 16).1), polling := true } }], by decide +kernel⟩,
    ⟨1, wit [fun d => { d with sup := { d.sup with poll := some (1 + (1 : Fin 16).1), polling := true } }], by decide +kernel⟩,
    ⟨.noAck, wit [fun d => { d with sup := { d.sup with poll := none } }], by decide +kernel⟩,
    ⟨wit [fun d => { d with cvn := { d.cvn with source := true } }, fun d => { d with start := { d.start with st := .run } }, fun d =>
      { d with pins := { d.pins with alertLow := false } }], by decide +kernel⟩,
    ⟨5, none, wit [fun d => { d with sup := { d.sup with poll := some 5, polling := true } }], by decide +kernel⟩,
    ⟨1, none, wit [fun d => { d with sup := { d.sup with poll := some (1 + (1 : Fin 16).1), polling := true, lostRun := 7 } }], by decide +kernel⟩,
    ⟨5, 1000, wit [fun d => { d with sup := { d.sup with poll := some 5, backoff := true, freeAt := some 1000 } }], by decide +kernel⟩,
    ⟨wit [fun d => { d with sup := { d.sup with freeAt := none } }], by decide +kernel⟩,
    ⟨1, wit [fun d => { d with sup := { d.sup with poll := some (1 + (1 : Fin 16).1) } }], by decide +kernel⟩,
    ⟨wit [fun d => { d with sup := { d.sup with poll := some 3 } }, fun d =>
      { d with start := { d.start with st := .run }, sup := { d.sup with poll := some 3 } }], by decide +kernel⟩,
    ⟨true, wit [fun d => { d with sup := { d.sup with poll := none } }], by decide +kernel⟩,
    ⟨wit [fun d => { d with start := { d.start with st := .run } }], by decide +kernel⟩,
    ⟨wit [fun d => { d with start := { d.start with st := .run } }], by decide +kernel⟩,
    ⟨5, wit [fun d => { d with sup := { d.sup with poll := some 5, backoff := false } }], by decide +kernel⟩,
    ⟨5, wit [fun d => { d with sup := { d.sup with poll := some 5, backoff := true } }], by decide +kernel⟩,
    ⟨(3, .poll false 64), wit [fun d => { d with bootp := { d.bootp with cur := some ((3, .poll false 64)) } }], by decide +kernel⟩⟩

theorem witness_HostWrites :
    (∃ (c : Chan) (mask : BitVec 16) (value : BitVec 16) (pec : Option Byte) (s : State), targetUp s.dev = true ∧ unlocked s.dev = true ∧ soundBlock
      0x12 (writeOf (0x110018 + 128 * c.1) mask.toNat value.toNat pec) s.dev = true ∧ mask ≠ 0 ∧ ((s.dev.chans[c]).narrowI &&& ~~~mask ||| value &&&
      mask).toNat < (s.dev.chans[c]).narrowI.toNat) ∧
    (∃ (c : Chan) (mask : BitVec 16) (value : BitVec 16) (pec : Option Byte) (s : State), targetUp s.dev = true ∧ unlocked s.dev = true ∧ soundBlock
      0x12 (writeOf (0x110018 + 128 * c.1) mask.toNat value.toNat pec) s.dev = true ∧ mask ≠ 0 ∧ (s.dev.chans[c]).narrowI.toNat ≤
      ((s.dev.chans[c]).narrowI &&& ~~~mask ||| value &&& mask).toNat) ∧
    (∃ (c : Chan) (mask : BitVec 16) (value : BitVec 16) (pec : Option Byte) (s : State), targetUp s.dev = true ∧ unlocked s.dev = true ∧ soundBlock
      0x12 (writeOf (0x110018 + 128 * c.1) (65536 * mask.toNat) (65536 * value.toNat) pec) s.dev = true ∧ mask ≠ 0 ∧ ((s.dev.chans[c]).narrowV &&&
      ~~~mask ||| value &&& mask).toNat < (s.dev.chans[c]).narrowV.toNat) ∧
    (∃ (c : Chan) (mask : BitVec 16) (value : BitVec 16) (pec : Option Byte) (s : State), targetUp s.dev = true ∧ unlocked s.dev = true ∧ soundBlock
      0x12 (writeOf (0x110018 + 128 * c.1) (65536 * mask.toNat) (65536 * value.toNat) pec) s.dev = true ∧ mask ≠ 0 ∧ (s.dev.chans[c]).narrowV.toNat
      ≤ ((s.dev.chans[c]).narrowV &&& ~~~mask ||| value &&& mask).toNat) ∧
    (∃ (c : Chan) (v : Bool) (pec : Option Byte) (s : State), targetUp s.dev = true ∧ unlocked s.dev = true ∧ soundBlock 0x12 (writeOf (0x11001C +
      128 * c.1) 1 (b2n v) pec) s.dev = true) ∧
    (∃ (c : Chan) (v : Bool) (pec : Option Byte) (s : State), targetUp s.dev = true ∧ unlocked s.dev = true ∧ soundBlock 0x12 (writeOf (0x11001C +
      128 * c.1) 1 (b2n v) pec) s.dev = true) ∧
    (∃ (a : ℕ) (k : ℕ) (v : ℕ) (pec : Option Byte) (s : State), targetUp s.dev = true ∧ unlocked s.dev = true ∧ soundBlock 0x12 (writeOf a k v pec)
      s.dev = true ∧ a < 0x100000 ∧ a % 4 = 0) ∧
    (∃ (a : ℕ) (k : ℕ) (v : ℕ) (pec : Option Byte) (s : State), targetUp s.dev = true ∧ unlocked s.dev = true ∧ soundBlock 0x12 (writeOf a k v pec)
      s.dev = true ∧ a < 2 ^ 24 ∧ locate a = none) ∧
    (∃ (w : BlockWrite) (s : State), targetUp s.dev = true ∧ soundBlock 0x05 w s.dev = true ∧ w.data.length = 3 ∧ 31 < fld w.data 0 1) ∧
    (∃ (w : BlockWrite) (x : WordAt) (s : State), targetUp s.dev = true ∧ soundBlock 0x07 w s.dev = true ∧ w.data.length = 7 ∧ locate (fld w.data 0
      3) = some x ∧ (∀ a, x ≠ .mem a) ∧ fld w.data 3 4 &&& w1cMask x = fld w.data 3 4) ∧
    (∃ (w : BlockWrite) (x : WordAt) (s : State), targetUp s.dev = true ∧ soundBlock 0x07 w s.dev = true ∧ w.data.length = 7 ∧ locate (fld w.data 0
      3) = some x ∧ (∀ a, x ≠ .mem a) ∧ fld w.data 3 4 &&& w1cMask x ≠ fld w.data 3 4) ∧
    (∃ (w : BlockWrite) (a : ℕ) (s : State), targetUp s.dev = true ∧ soundBlock 0x07 w s.dev = true ∧ w.data.length = 7 ∧ locate (fld w.data 0 3) =
      some (.mem a)) ∧
    ∃ (w : BlockWrite) (s : State), targetUp s.dev = true ∧ soundBlock 0x07 w s.dev = true ∧ w.data.length = 7 ∧ locate (fld w.data 0 3) = none :=
  ⟨
    ⟨3, 0xFF00, 0x0800, (sb State.reset.dev 0x12 (writeOf (0x110018 + 128 * (3 : Chan).1) ((0xFF00 : BitVec 16).toNat) ((0x0800 : BitVec 16).toNat)
      none).data).pec, wit [fun d => { d with sup := { d.sup with unlockEnd := some (d.clk.up + 1000000) }, start := { d.start with st := .run } },
      fun d => { d with chans := vset d.chans 3 { d.chans[3] with narrowI := 0x1000, narrowV := 0x1000 } }], by decide +kernel⟩,
    ⟨3, 0xFF00, 0x1800, (sb State.reset.dev 0x12 (writeOf (0x110018 + 128 * (3 : Chan).1) ((0xFF00 : BitVec 16).toNat) ((0x1800 : BitVec 16).toNat)
      none).data).pec, wit [fun d => { d with sup := { d.sup with unlockEnd := some (d.clk.up + 1000000) }, start := { d.start with st := .run } },
      fun d => { d with chans := vset d.chans 3 { d.chans[3] with narrowI := 0x1000, narrowV := 0x1000 } }], by decide +kernel⟩,
    ⟨3, 0xFF00, 0x0800, (sb State.reset.dev 0x12 (writeOf (0x110018 + 128 * (3 : Chan).1) (65536 * (0xFF00 : BitVec 16).toNat) (65536 * (0x0800 :
      BitVec 16).toNat) none).data).pec, wit [fun d =>
      { d with sup := { d.sup with unlockEnd := some (d.clk.up + 1000000) }, start := { d.start with st := .run } }, fun d =>
      { d with chans := vset d.chans 3 { d.chans[3] with narrowI := 0x1000, narrowV := 0x1000 } }], by decide +kernel⟩,
    ⟨3, 0xFF00, 0x1800, (sb State.reset.dev 0x12 (writeOf (0x110018 + 128 * (3 : Chan).1) (65536 * (0xFF00 : BitVec 16).toNat) (65536 * (0x1800 :
      BitVec 16).toNat) none).data).pec, wit [fun d =>
      { d with sup := { d.sup with unlockEnd := some (d.clk.up + 1000000) }, start := { d.start with st := .run } }, fun d =>
      { d with chans := vset d.chans 3 { d.chans[3] with narrowI := 0x1000, narrowV := 0x1000 } }], by decide +kernel⟩,
    ⟨3, true, (sb State.reset.dev 0x12 (writeOf (0x11001C + 128 * (3 : Chan).1) (1) (b2n true) none).data).pec, wit [fun d =>
      { d with sup := { d.sup with unlockEnd := some (d.clk.up + 1000000) }, start := { d.start with st := .run } }], by decide +kernel⟩,
    ⟨3, true, (sb State.reset.dev 0x12 (writeOf (0x11001C + 128 * (3 : Chan).1) (1) (b2n true) none).data).pec, wit [fun d =>
      { d with sup := { d.sup with unlockEnd := some (d.clk.up + 1000000) }, start := { d.start with st := .run } }], by decide +kernel⟩,
    ⟨0x5000, 5, 5, (sb State.reset.dev 0x12 (writeOf (0x5000) (5) (5) none).data).pec, wit [fun d =>
      { d with sup := { d.sup with unlockEnd := some (d.clk.up + 1000000) }, start := { d.start with st := .run } }], by decide +kernel⟩,
    ⟨0x1FFFFC, 5, 5, (sb State.reset.dev 0x12 (writeOf (0x1FFFFC) (5) (5) none).data).pec, wit [fun d =>
      { d with sup := { d.sup with unlockEnd := some (d.clk.up + 1000000) }, start := { d.start with st := .run } }], by decide +kernel⟩,
    ⟨sb State.reset.dev 0x05 ([77, 0x30, 0x12]), wit [fun d =>
      { d with sup := { d.sup with unlockEnd := some (d.clk.up + 1000000) }, start := { d.start with st := .run } }], by decide +kernel⟩,
    ⟨sb State.reset.dev 0x07 (leBytes 3 0x100000 ++ leBytes 4 512), .dev 0, wit [fun d =>
      { d with sup := { d.sup with unlockEnd := some (d.clk.up + 1000000) }, start := { d.start with st := .run } }],
      (by and_intros <;> first | decide +kernel | (intro a h; cases h))⟩,
    ⟨sb State.reset.dev 0x07 (leBytes 3 0x100000 ++ leBytes 4 513), .dev 0, wit [fun d =>
      { d with sup := { d.sup with unlockEnd := some (d.clk.up + 1000000) }, start := { d.start with st := .run } }],
      (by and_intros <;> first | decide +kernel | (intro a h; cases h))⟩,
    ⟨sb State.reset.dev 0x07 (leBytes 3 0x1234 ++ leBytes 4 513), 0x1234, wit [fun d =>
      { d with sup := { d.sup with unlockEnd := some (d.clk.up + 1000000) }, start := { d.start with st := .run } }], by decide +kernel⟩,
    ⟨sb State.reset.dev 0x07 (leBytes 3 0x1FFFFC ++ leBytes 4 513), wit [fun d =>
      { d with sup := { d.sup with unlockEnd := some (d.clk.up + 1000000) }, start := { d.start with st := .run } }], by decide +kernel⟩⟩

theorem witness_FaultInjection :
    (∃ (n : BitVec 2) (reg : BitVec 3) (pec : Option Byte) (s : State), targetUp s.dev = true ∧ unlocked s.dev = true ∧ soundBlock 0x12 (writeOf
      0x100220 0x1F (n.toNat + 4 * reg.toNat) pec) s.dev = true ∧ reg.toNat < 5 ∧ (reg = 4 → n ≠ 0 → s.dev.start.st ≠ .run)) ∧
    (∃ (n : BitVec 2) (reg : BitVec 3) (pec : Option Byte) (s : State), targetUp s.dev = true ∧ unlocked s.dev = true ∧ soundBlock 0x12 (writeOf
      0x100220 0x1F (n.toNat + 4 * reg.toNat) pec) s.dev = true ∧ 5 ≤ reg.toNat) ∧
    (∃ (n : BitVec 2) (pec : Option Byte) (s : State), targetUp s.dev = true ∧ unlocked s.dev = true ∧ soundBlock 0x12 (writeOf 0x100220 0x1F
      (n.toNat + 16) pec) s.dev = true ∧ n ≠ 0 ∧ s.dev.start.st = .run) ∧
    (∃ (on : Bool) (pec : Option Byte) (s : State), targetUp s.dev = true ∧ unlocked s.dev = true ∧ soundBlock 0x12 (writeOf 0x100220 0x20 (32 * b2n
      on) pec) s.dev = true) ∧
    (∃ (v : BitVec 2) (pec : Option Byte) (s : State), targetUp s.dev = true ∧ unlocked s.dev = true ∧ soundBlock 0x12 (writeOf 0x100220 0xC0 (64 *
      v.toNat) pec) s.dev = true) ∧
    (∃ (f : BitVec 12) (m : BitVec 2) (x : BitVec 16) (pec : Option Byte) (s : State), targetUp s.dev = true ∧ unlocked s.dev = true ∧ soundBlock
      0x12 (writeOf 0x100224 0xFFFF3FFF (f.toNat + 4096 * m.toNat + 65536 * x.toNat) pec) s.dev = true ∧ scopeOf f.toNat = none) ∧
    (∃ (f : BitVec 12) (m : BitVec 2) (x : BitVec 16) (sc : Scope) (pec : Option Byte) (s : State), targetUp s.dev = true ∧ unlocked s.dev = true ∧
      soundBlock 0x12 (writeOf 0x100224 0xFFFF3FFF (f.toNat + 4096 * m.toNat + 65536 * x.toNat) pec) s.dev = true ∧ scopeOf f.toNat = some sc ∧
      s.dev.col.fiMode = 0 ∧ (m = 1 ∨ m = 2) ∧ x ≠ 0) ∧
    ∃ (f : BitVec 12) (x : BitVec 16) (sc : Scope) (pec : Option Byte) (s : State), targetUp s.dev = true ∧ unlocked s.dev = true ∧ soundBlock 0x12
      (writeOf 0x100224 0xFFFF3FFF (f.toNat + 4096 * 3 + 65536 * x.toNat) pec) s.dev = true ∧ scopeOf f.toNat = some sc ∧ s.dev.col.fiMode = 0 ∧ x ≠
      0 :=
  ⟨
    ⟨1, 3, (sb State.reset.dev 0x12 (writeOf (0x100220) (0x1F) ((1 : BitVec 2).toNat + 4 * (3 : BitVec 3).toNat) none).data).pec, wit [fun d =>
      { d with sup := { d.sup with unlockEnd := some (d.clk.up + 1000000) }, start := { d.start with st := .run } }], by decide +kernel⟩,
    ⟨1, 6, (sb State.reset.dev 0x12 (writeOf (0x100220) (0x1F) ((1 : BitVec 2).toNat + 4 * (6 : BitVec 3).toNat) none).data).pec, wit [fun d =>
      { d with sup := { d.sup with unlockEnd := some (d.clk.up + 1000000) }, start := { d.start with st := .run } }], by decide +kernel⟩,
    ⟨2, (sb State.reset.dev 0x12 (writeOf (0x100220) (0x1F) ((2 : BitVec 2).toNat + 16) none).data).pec, wit [fun d =>
      { d with sup := { d.sup with unlockEnd := some (d.clk.up + 1000000) }, start := { d.start with st := .run } }, fun d =>
      { d with start := { d.start with st := .run } }], by decide +kernel⟩,
    ⟨true, (sb State.reset.dev 0x12 (writeOf (0x100220) (0x20) (32 * b2n true) none).data).pec, wit [fun d =>
      { d with sup := { d.sup with unlockEnd := some (d.clk.up + 1000000) }, start := { d.start with st := .run } }], by decide +kernel⟩,
    ⟨1, (sb State.reset.dev 0x12 (writeOf (0x100220) (0xC0) (64 * (1 : BitVec 2).toNat) none).data).pec, wit [fun d =>
      { d with sup := { d.sup with unlockEnd := some (d.clk.up + 1000000) }, start := { d.start with st := .run } }], by decide +kernel⟩,
    ⟨0x2FF, 1, 5, (sb State.reset.dev 0x12 (writeOf (0x100224) (0xFFFF3FFF) ((0x2FF : BitVec 12).toNat + 4096 * (1 : BitVec 2).toNat + 65536 * (5 :
      BitVec 16).toNat) none).data).pec, wit [fun d =>
      { d with sup := { d.sup with unlockEnd := some (d.clk.up + 1000000) }, start := { d.start with st := .run } }], by decide +kernel⟩,
    ⟨(BitVec.ofNat 12 (([0x100, 0x320, 0x3C5, 0x443, 0x596, 0x5E6, 0x4A1, 0x602].getD (0 % 8) 0) : Fsrc).1), 1 + BitVec.ofNat 2 (0 % 2), 5, (scopeOf
      ((BitVec.ofNat 12 (([0x100, 0x320, 0x3C5, 0x443, 0x596, 0x5E6, 0x4A1, 0x602].getD (0 % 8) 0) : Fsrc).1)).toNat).getD .device, (sb
      State.reset.dev 0x12 (writeOf (0x100224) (0xFFFF3FFF) (((BitVec.ofNat 12 (([0x100, 0x320, 0x3C5, 0x443, 0x596, 0x5E6, 0x4A1, 0x602].getD (0 %
      8) 0) : Fsrc).1)).toNat + 4096 * (1 + BitVec.ofNat 2 (0 % 2) : BitVec 2).toNat + 65536 * (5 : BitVec 16).toNat) none).data).pec, wit [fun d =>
      { d with sup := { d.sup with unlockEnd := some (d.clk.up + 1000000) }, start := { d.start with st := .run } }, fun d =>
      { d with col := { d.col with fiMode := 0 } }], by decide +kernel⟩,
    ⟨(BitVec.ofNat 12 (([0x100, 0x320, 0x3C5, 0x443, 0x596, 0x5E6, 0x4A1, 0x602].getD (0 % 8) 0) : Fsrc).1), 5, (scopeOf ((BitVec.ofNat 12 (([0x100,
      0x320, 0x3C5, 0x443, 0x596, 0x5E6, 0x4A1, 0x602].getD (0 % 8) 0) : Fsrc).1)).toNat).getD .device, (sb State.reset.dev 0x12 (writeOf (0x100224)
      (0xFFFF3FFF) (((BitVec.ofNat 12 (([0x100, 0x320, 0x3C5, 0x443, 0x596, 0x5E6, 0x4A1, 0x602].getD (0 % 8) 0) : Fsrc).1)).toNat + 4096 * 3 +
      65536 * (5 : BitVec 16).toNat) none).data).pec, wit [fun d =>
      { d with sup := { d.sup with unlockEnd := some (d.clk.up + 1000000) }, start := { d.start with st := .run } }, fun d =>
      { d with col := { d.col with fiMode := 0 } }], by decide +kernel⟩⟩

theorem witness_RegionCalibrationAndPassThrough :
    (∃ (w : BlockWrite) (c : Chan) (s : State), targetUp s.dev = true ∧ unlocked s.dev = true ∧ soundBlock 0x13 w s.dev = true ∧ w.data = [0, byteOf
      c.1] ∧ s.dev.start.st = .run) ∧
    (∃ (w : BlockWrite) (q : Quad) (s : State), targetUp s.dev = true ∧ unlocked s.dev = true ∧ soundBlock 0x13 w s.dev = true ∧ w.data = [1, byteOf
      q.1] ∧ s.dev.start.st = .run) ∧
    (∃ (w : BlockWrite) (c : Chan) (s : State), targetUp s.dev = true ∧ unlocked s.dev = true ∧ soundBlock 0x13 w s.dev = true ∧ w.data = [0, byteOf
      c.1] ∧ s.dev.start.st = .configured ∧ s.dev.start.latchAtStart = false) ∧
    (∃ (w : BlockWrite) (q : Quad) (s : State), targetUp s.dev = true ∧ unlocked s.dev = true ∧ soundBlock 0x13 w s.dev = true ∧ w.data = [1, byteOf
      q.1] ∧ s.dev.start.st = .configured ∧ s.dev.start.latchAtStart = false) ∧
    (∃ (w : BlockWrite) (c : Chan) (s : State), targetUp s.dev = true ∧ unlocked s.dev = true ∧ soundBlock 0x13 w s.dev = true ∧ w.data = [0, byteOf
      c.1] ∧ s.dev.start.st ≠ .run ∧ (s.dev.start.st ≠ .configured ∨ s.dev.start.latchAtStart = true)) ∧
    (∃ (w : BlockWrite) (img : Bool) (c : Chan) (s : State), targetUp s.dev = true ∧ unlocked s.dev = true ∧ soundBlock 0x14 w s.dev = true ∧ w.data
      = [byteOf (b2n img), 0, byteOf c.1] ∧ s.dev.start.st = .run ∧ reloadBusy s.dev = false ∧ s.dev.cal.busy = false) ∧
    (∃ (w : BlockWrite) (img : Bool) (q : Quad) (s : State), targetUp s.dev = true ∧ unlocked s.dev = true ∧ soundBlock 0x14 w s.dev = true ∧ w.data
      = [byteOf (b2n img), 1, byteOf q.1] ∧ s.dev.start.st = .run ∧ reloadBusy s.dev = false ∧ s.dev.cal.busy = false) ∧
    (∃ (w : BlockWrite) (img : Bool) (c : Chan) (s : State), targetUp s.dev = true ∧ unlocked s.dev = true ∧ soundBlock 0x14 w s.dev = true ∧ w.data
      = [byteOf (b2n img), 0, byteOf c.1] ∧ s.dev.start.st = .run ∧ (reloadBusy s.dev = true ∨ s.dev.cal.busy = true)) ∧
    (∃ (w : BlockWrite) (m : Pm) (o : ℕ) (x : ℕ) (r : ℕ) (s : State), targetUp s.dev = true ∧ unlocked s.dev = true ∧ soundBlock 0x15 w s.dev = true
      ∧ w.data = [byteOf m.1, byteOf o, byteOf x, byteOf r] ∧ o ≤ 15 ∧ x ≤ 0x3F ∧ (r ≤ 31 ∨ r = 255) ∧ tooLong s.dev m o = false ∧
      (s.dev.quads[Pm.quad m]).armed = true ∧ (s.dev.mods[m]).injHost = none ∧ calRuns s.dev = false) ∧
    (∃ (w : BlockWrite) (m : Pm) (s : State), targetUp s.dev = true ∧ unlocked s.dev = true ∧ soundBlock 0x16 w s.dev = true ∧ w.data = [byteOf m.1]
      ∧ calForbidden s.dev m = false ∧ calRuns s.dev = false ∧ (s.dev.mods[m]).injHost = none ∧ (s.dev.mods[m]).injNewt = none) ∧
    (∃ (w : BlockWrite) (m : Pm) (s : State), targetUp s.dev = true ∧ unlocked s.dev = true ∧ soundBlock 0x16 w s.dev = true ∧ w.data = [byteOf m.1]
      ∧ calForbidden s.dev m = true) ∧
    (∃ (w : BlockWrite) (m : Pm) (a : ℕ) (s : State), targetUp s.dev = true ∧ unlocked s.dev = true ∧ soundBlock 0x17 w s.dev = true ∧ w.data =
      byteOf m.1 :: leBytes 4 a ∧ 2 ^ 30 ≤ |signedOf (a % 2 ^ 32) 32| ∧ calForbidden s.dev m = false ∧ calRuns s.dev = false ∧ zeroHeld s.dev m =
      true ∧ (s.dev.mods[m]).injHost = none ∧ (s.dev.mods[m]).injNewt = none) ∧
    (∃ (w : BlockWrite) (m : Pm) (a : ℕ) (s : State), targetUp s.dev = true ∧ unlocked s.dev = true ∧ soundBlock 0x17 w s.dev = true ∧ w.data =
      byteOf m.1 :: leBytes 4 a ∧ 2 ^ 30 ≤ |signedOf (a % 2 ^ 32) 32| ∧ calForbidden s.dev m = false ∧ calRuns s.dev = false ∧ zeroHeld s.dev m =
      false) ∧
    (∃ (w : BlockWrite) (s : State), targetUp s.dev = true ∧ unlocked s.dev = true ∧ soundBlock 0x18 w s.dev = true ∧ w.data = [0] ∧ s.dev.cal.busy
      = false ∧ s.dev.reload.st ≠ 1 ∧ s.dev.bootp.nvmOp = 0 ∧ s.dev.memory.conf.wf = true) ∧
    (∃ (w : BlockWrite) (img : Bool) (off : ℕ) (bs : List Byte) (s : State), targetUp s.dev = true ∧ unlocked s.dev = true ∧ soundBlock 0x19 w s.dev
      = true ∧ w.data = byteOf (b2n img) :: leBytes 3 off ++ bs ∧ 1 ≤ bs.length ∧ bs.length ≤ 64 ∧ off + bs.length ≤ 262144 ∧ off / 64 = (off +
      bs.length - 1) / 64 ∧ (img = true ∨ s.dev.start.st ≠ .run) ∧ nvmBusy s.dev img = false) ∧
    (∃ (w : BlockWrite) (img : Bool) (off : ℕ) (bs : List Byte) (s : State), targetUp s.dev = true ∧ unlocked s.dev = true ∧ soundBlock 0x19 w s.dev
      = true ∧ w.data = byteOf (b2n img) :: leBytes 3 off ++ bs ∧ 1 ≤ bs.length ∧ bs.length ≤ 64 ∧ off < 2 ^ 24 ∧ (262144 < off + bs.length ∨ off /
      64 ≠ (off + bs.length - 1) / 64)) ∧
    (∃ (w : BlockWrite) (off : ℕ) (bs : List Byte) (s : State), targetUp s.dev = true ∧ unlocked s.dev = true ∧ soundBlock 0x19 w s.dev = true ∧
      w.data = 0 :: leBytes 3 off ++ bs ∧ 1 ≤ bs.length ∧ bs.length ≤ 64 ∧ off + bs.length ≤ 262144 ∧ off / 64 = (off + bs.length - 1) / 64 ∧
      s.dev.start.st = .run) ∧
    (∃ (w : BlockWrite) (img : Bool) (off : ℕ) (n : ℕ) (s : State), targetUp s.dev = true ∧ unlocked s.dev = true ∧ soundBlock 0x1A w s.dev = true ∧
      w.data = byteOf (b2n img) :: leBytes 3 off ++ [byteOf n] ∧ 1 ≤ n ∧ n ≤ 64 ∧ off + n ≤ 262144 ∧ nvmBusy s.dev img = false) ∧
    ∃ (w : BlockWrite) (img : Bool) (off : ℕ) (n : ℕ) (s : State), targetUp s.dev = true ∧ unlocked s.dev = true ∧ soundBlock 0x1A w s.dev = true ∧
      w.data = byteOf (b2n img) :: leBytes 3 off ++ [byteOf n] ∧ 1 ≤ n ∧ n ≤ 64 ∧ off + n ≤ 262144 ∧ nvmBusy s.dev img = true :=
  ⟨
    ⟨sb State.reset.dev 0x13 ([0, byteOf (3 : Chan).1]), 3, wit [fun d =>
      { d with sup := { d.sup with unlockEnd := some (d.clk.up + 1000000) }, start := { d.start with st := .run } }, fun d =>
      { d with start := { d.start with st := .run } }], by decide +kernel⟩,
    ⟨sb State.reset.dev 0x13 ([1, byteOf (0 : Quad).1]), 0, wit [fun d =>
      { d with sup := { d.sup with unlockEnd := some (d.clk.up + 1000000) }, start := { d.start with st := .run } }, fun d =>
      { d with start := { d.start with st := .run } }], by decide +kernel⟩,
    ⟨sb State.reset.dev 0x13 [0, byteOf 3], 3, wit [fun d =>
      { d with start := { d.start with st := .configured }, isl := { d.isl with clkRun := 0x1F }, sup := { d.sup with unlockEnd := some 1000000 } },
      fun d => { d with start := { d.start with st := .configured, latchAtStart := false } }], by decide +kernel⟩,
    ⟨sb State.reset.dev 0x13 [1, byteOf 0], 0, wit [fun d =>
      { d with start := { d.start with st := .configured }, isl := { d.isl with clkRun := 0x1F }, sup := { d.sup with unlockEnd := some 1000000 } },
      fun d => { d with start := { d.start with st := .configured, latchAtStart := false } }], by decide +kernel⟩,
    ⟨sb State.reset.dev 0x13 ([0, byteOf (3 : Chan).1]), 3, wit [fun d =>
      { d with sup := { d.sup with unlockEnd := some (d.clk.up + 1000000) }, start := { d.start with st := .run } }, fun d =>
      { d with start := { d.start with st := .join } }], by decide +kernel⟩,
    ⟨sb State.reset.dev 0x14 ([byteOf (b2n true), 0, byteOf (3 : Chan).1]), true, 3, wit [fun d =>
      { d with sup := { d.sup with unlockEnd := some (d.clk.up + 1000000) }, start := { d.start with st := .run } }, fun d =>
      { d with start := { d.start with st := .run } }, fun d => { d with cal := { d.cal with busy := false } }, fun d =>
      { d with reload := { d.reload with st := 0 } }], by decide +kernel⟩,
    ⟨sb State.reset.dev 0x14 [1, 1, 0], true, 0, wit [fun d =>
      { d with start := { d.start with st := .run }, isl := { d.isl with clkRun := 0x1F }, sup := { d.sup with unlockEnd := some 1000000 } }, fun d
      => { d with start := { d.start with st := .run } }, fun d => { d with cal := { d.cal with busy := false } }], by decide +kernel⟩,
    ⟨sb State.reset.dev 0x14 ([byteOf (b2n true), 0, byteOf (3 : Chan).1]), true, 3, wit [fun d =>
      { d with sup := { d.sup with unlockEnd := some (d.clk.up + 1000000) }, start := { d.start with st := .run } }, fun d =>
      { d with start := { d.start with st := .run } }, fun d => { d with reload := { d.reload with st := 1 } }], by decide +kernel⟩,
    ⟨sb State.reset.dev 0x15 ([byteOf (7 : Pm).1, byteOf 3, byteOf 9, byteOf 5]), 7, 3, 9, 5, wit [fun d =>
      { d with sup := { d.sup with unlockEnd := some (d.clk.up + 1000000) }, start := { d.start with st := .run } }, fun d => d.updQuad (Pm.quad 7)
      fun e => { e with armed := true }, fun d => d.updMod 7 fun e => { e with injHost := none }, fun d =>
      { d with mods := vset d.mods 7 { d.mods[7] with injHost := none }, quads := vset d.quads (Pm.quad 7) { d.quads[Pm.quad 7] with armed := true } },
      fun d => { d with memory := { d.memory with conf := msetw [] (mdb 7) 1 } }], by decide +kernel⟩,
    ⟨sb State.reset.dev 0x16 ([byteOf (7 : Pm).1]), 7, wit [fun d =>
      { d with sup := { d.sup with unlockEnd := some (d.clk.up + 1000000) }, start := { d.start with st := .run } }, fun d => d.updMod 7 fun e =>
      { e with injHost := none, injNewt := none }, fun d =>
      { d with mods := vset d.mods 7 { d.mods[7] with injHost := none, injNewt := none }, quads := vset d.quads (Pm.quad 7) { d.quads[Pm.quad 7] with armed := false } },
      fun d => { d with memory := { d.memory with conf := msetw [] (mdb 7) 5 } }], by decide +kernel⟩,
    ⟨sb State.reset.dev 0x16 ([byteOf (20 : Pm).1]), 20, wit [fun d =>
      { d with sup := { d.sup with unlockEnd := some (d.clk.up + 1000000) }, start := { d.start with st := .run } }], by decide +kernel⟩,
    ⟨sb State.reset.dev 0x17 (byteOf (7 : Pm).1 :: leBytes 4 0x50000000), 7, 0x50000000, wit [fun d =>
      { d with sup := { d.sup with unlockEnd := some (d.clk.up + 1000000) }, start := { d.start with st := .run } }, fun d => d.updMod 7 fun e =>
      { e with injHost := none, injNewt := none }, fun d =>
      { d with mods := vset d.mods 7 { d.mods[7] with injHost := none, injNewt := none }, quads := vset d.quads (Pm.quad 7) { d.quads[Pm.quad 7] with armed := false } },
      fun d => { d with memory := { d.memory with conf := msetw [] (mdb 7) 5 } }, fun d => { d with cal := { d.cal with held := some (7, 5) } }],
      by decide +kernel⟩,
    ⟨sb State.reset.dev 0x17 (byteOf (7 : Pm).1 :: leBytes 4 0x50000000), 7, 0x50000000, wit [fun d =>
      { d with sup := { d.sup with unlockEnd := some (d.clk.up + 1000000) }, start := { d.start with st := .run } }, fun d =>
      { d with mods := vset d.mods 7 { d.mods[7] with injHost := none, injNewt := none }, quads := vset d.quads (Pm.quad 7) { d.quads[Pm.quad 7] with armed := false } },
      fun d => { d with memory := { d.memory with conf := msetw [] (mdb 7) 5 } }], by decide +kernel⟩,
    ⟨sb State.reset.dev 0x18 ([0]), wit [fun d =>
      { d with sup := { d.sup with unlockEnd := some (d.clk.up + 1000000) }, start := { d.start with st := .run } }, fun d =>
      { d with cal := { d.cal with busy := false } }, fun d => { d with bootp := { d.bootp with nvmOp := 0 } }, fun d =>
      { d with memory := { d.memory with mem := msetw [] 0x80 7, conf := msetw [] 0x80 7 } }], by decide +kernel⟩,
    ⟨sb State.reset.dev 0x19 (byteOf (b2n true) :: leBytes 3 0x1234 ++ (List.replicate 5 0x77)), true, 0x1234, List.replicate 5 0x77, wit [fun d =>
      { d with sup := { d.sup with unlockEnd := some (d.clk.up + 1000000) }, start := { d.start with st := .run } }, fun d =>
      { d with bootp := { d.bootp with nvmOp := 0 }, cal := { d.cal with busy := false }, reload := { d.reload with st := 0 } }],
      by decide +kernel⟩,
    ⟨sb State.reset.dev 0x19 (byteOf (b2n true) :: leBytes 3 0x123E ++ (List.replicate 5 0x77)), true, 0x123E, List.replicate 5 0x77, wit [fun d =>
      { d with sup := { d.sup with unlockEnd := some (d.clk.up + 1000000) }, start := { d.start with st := .run } }], by decide +kernel⟩,
    ⟨sb State.reset.dev 0x19 (0 :: leBytes 3 0x1234 ++ (List.replicate 5 0x77)), 0x1234, List.replicate 5 0x77, wit [fun d =>
      { d with sup := { d.sup with unlockEnd := some (d.clk.up + 1000000) }, start := { d.start with st := .run } }, fun d =>
      { d with start := { d.start with st := .run } }], by decide +kernel⟩,
    ⟨sb State.reset.dev 0x1A (byteOf (b2n true) :: leBytes 3 0x1234 ++ [byteOf 9]), true, 0x1234, 9, wit [fun d =>
      { d with sup := { d.sup with unlockEnd := some (d.clk.up + 1000000) }, start := { d.start with st := .run } }, fun d =>
      { d with bootp := { d.bootp with nvmOp := 0 }, cal := { d.cal with busy := false }, reload := { d.reload with st := 0 } }],
      by decide +kernel⟩,
    ⟨sb State.reset.dev 0x1A (byteOf (b2n true) :: leBytes 3 0x1234 ++ [byteOf 9]), true, 0x1234, 9, wit [fun d =>
      { d with sup := { d.sup with unlockEnd := some (d.clk.up + 1000000) }, start := { d.start with st := .run } }, fun d =>
      { d with bootp := { d.bootp with nvmOp := 1 } }], by decide +kernel⟩⟩

end Sys2Proof.Tests
end

/-! What a write of a record does to the writer's queue, to its ring and to the protected memory (R370). -/

namespace Sys2Proof.Machine

/-! ### The memory under `Keeps` -/

theorem Keeps.bytes_eq {S : List Part} {d e : Device} (k : Keeps S d e) (h : S.contains .mem = false) : e.memory.mem = d.memory.mem := by
  have hr : e.memory.rest = d.memory.rest := k.parts .mem h
  have hm : e.memory.rest.mem = d.memory.rest.mem := by rw [hr]
  exact hm

theorem Keeps.memory_eq {S : List Part} {d e : Device} (k : Keeps S d e) (hm : S.contains .mem = false) (hc : S.contains .conf = false)
    (hs : S.contains .swaps = false) : e.memory = d.memory := by
  have hr : e.memory.rest = d.memory.rest := k.parts .mem hm
  have hc : e.memory.conf = d.memory.conf := k.parts .conf hc
  have hs : e.memory.swaps = d.memory.swaps := k.parts .swaps hs
  calc e.memory = { e.memory.rest with conf := e.memory.conf, swaps := e.memory.swaps } := rfl
    _ = { d.memory.rest with conf := d.memory.conf, swaps := d.memory.swaps } := by rw [hr, hc, hs]
    _ = d.memory := rfl

/-! ### A write to the protected memory -/

@[simp] theorem memWrite_rings (a : Nat) (bs : List Byte) (d : Device) : (memWrite a bs d).rings = d.rings :=
  (memWrite_keeps a bs d).parts .rings rfl

@[simp] theorem fiEvent_mem (d : Device) : (fiEvent d).memory.mem = d.memory.mem := (fiEvent_keeps d).bytes_eq rfl

/-- Whether or not an armed injection hits its first codeword (R441), a write stores its bytes and no others. -/
@[simp] theorem memWrite_mem (a : Nat) (bs : List Byte) (d : Device) : (memWrite a bs d).memory.mem = msets d.memory.mem a bs := by
  simp only [memWrite]
  split <;> simp

/-! ### A record meets its ring -/

/-- The ring holds its 256 records (R369). -/
def RingSt.full (s : RingSt) : Bool := decide (256 ≤ fill16 s.wr s.rd)

/-- The ring after it stored a record: a full one gives up its oldest record and counts it (R370). -/
def RingSt.store (s : RingSt) : RingSt :=
  { s with rd := if s.full then s.rd + 1 else s.rd, ovf := if s.full then satInc s.ovf else s.ovf, wr := s.wr + 1 }

theorem RingSt.store_of_room {s : RingSt} (h : s.full = false) : s.store = { s with wr := s.wr + 1 } := by simp [store, h]

theorem RingSt.store_of_full {s : RingSt} (h : s.full = true) : s.store = { s with rd := s.rd + 1, ovf := satInc s.ovf, wr := s.wr + 1 } := by
  simp [store, h]

/-- Address of the slot that the ring's next record goes to. -/
def slotAt (d : Device) (r : Ring) : Nat := ringBase r + 32 * ((d.rings[r]).wr.toNat % 256)

/-- Drop newest: a full ring counts the record and is otherwise as before. -/
theorem ringWrite_drop {r : Ring} {d : Device} (bs : List Byte) (hf : (d.rings[r]).full = true) (hd : rgDrop d r = true) :
    ringWrite r bs d = d.updRing r fun s => { s with ovf := satInc s.ovf } := if_pos ⟨hf, hd⟩

/-- A record that is not dropped: its ring stores it and its bytes go to the slot; only the alert of the fill (R515) may follow. -/
theorem ringWrite_store {r : Ring} {d : Device} (bs : List Byte) (h : ¬ ((d.rings[r]).full = true ∧ rgDrop d r = true)) :
    Keeps [.alert] (memWrite (slotAt d r) bs (d.updRing r RingSt.store)) (ringWrite r bs d) := by
  have hs : d.updRing r (fun s => { s with
      rd := if (d.rings[r]).full then s.rd + 1 else s.rd, ovf := if (d.rings[r]).full then satInc s.ovf else s.ovf, wr := s.wr + 1 }) =
      d.updRing r RingSt.store := rfl
  unfold RingSt.full at h hs
  unfold ringWrite
  simp only [if_neg h, hs]
  refine Keeps.ite ((alertSet_keeps ..).after (updSup_keeps _ fun u => ?_) rfl) (Keeps.refl _ _)
  exact ⟨fun _ => rfl, fun h => by cases h⟩

/-! ### The writer that holds the port -/

/-- The writer of table w has ended its grant and taken its oldest record from its queue. -/
def popRecord (w : Table) (rest : List (Ring × List Byte)) (d : Device) : Device :=
  arbRelease wport (4 + w.1) { d with writers := upd d.writers w fun _ => rest }

@[simp] theorem popRecord_writers (w : Table) (rest : List (Ring × List Byte)) (d : Device) :
    (popRecord w rest d).writers = upd d.writers w fun _ => rest := rfl

section
variable {w : Table} {r : Ring} {bs : List Byte} {rest : List (Ring × List Byte)} {d : Device}
variable (hg : 4 + w.1 ∈ (d.arbs[wport]).granted) (hq : d.writers[w] = (r, bs) :: rest)
include hg hq

/-- With a grant and a waiting record, the record meets its ring; only the writer's next request may follow. -/
theorem ringRecordWrite_ringWrite : Keeps [.arbs] (ringWrite r bs (popRecord w rest d)) (ringRecordWrite w d) := by
  simp only [ringRecordWrite, if_pos hg, hq]
  exact Keeps.ite (Keeps.refl _ _) (arbRequest_keeps ..)

theorem ringRecordWrite_writers : (ringRecordWrite w d).writers[w] = rest := by
  have h : (ringRecordWrite w d).writers = (popRecord w rest d).writers :=
    ((ringRecordWrite_ringWrite hg hq).after (ringWrite_keeps ..) rfl).parts .writers rfl
  rw [h, popRecord_writers, upd_same]

/-- Dropped: the ring counts the record, and no byte of the memory is written. -/
theorem ringRecordWrite_drop (hf : (d.rings[r]).full = true) (hd : rgDrop d r = true) :
    (ringRecordWrite w d).rings = (upd d.rings r fun s => { s with ovf := satInc s.ovf }) ∧ (ringRecordWrite w d).memory = d.memory := by
  have k := ringRecordWrite_ringWrite hg hq
  rw [ringWrite_drop (d := popRecord w rest d) bs hf hd] at k
  exact ⟨k.parts .rings rfl, k.memory_eq rfl rfl rfl⟩

/-- Not dropped: the ring stores the record, and its bytes go to the slot. -/
theorem ringRecordWrite_store (h : ¬ ((d.rings[r]).full = true ∧ rgDrop d r = true)) :
    (ringRecordWrite w d).rings = upd d.rings r RingSt.store ∧ (ringRecordWrite w d).memory.mem = msets d.memory.mem (slotAt d r) bs := by
  have hs := ringWrite_store (d := popRecord w rest d) bs h
  have k := (ringRecordWrite_ringWrite hg hq).after (S := [.arbs, .alert]) (hs.mono rfl) rfl
  have hr : (ringRecordWrite w d).rings = _ := k.parts .rings rfl
  exact ⟨hr.trans (memWrite_rings ..), (k.bytes_eq rfl).trans (memWrite_mem ..)⟩

end

/-! ### The command -/

section
variable {w : Table} {r : Ring} {bs : List Byte} {rest : List (Ring × List Byte)} {s : State}
variable (hg : 4 + w.1 ∈ (s.dev.arbs[wport]).granted) (hq : s.dev.writers[w] = (r, bs) :: rest)
include hg hq

/-- The next state of a record that is not dropped: its ring has stored it, and the memory differs in its bytes only. -/
theorem exec_ringRecordWrite_store (h : ¬ ((s.dev.rings[r]).full = true ∧ rgDrop s.dev r = true)) (hwf : s.dev.memory.mem.wf = true) :
    ∃ t, exec (.ringRecordWrite w) s = .next t ∧ t.dev.writers[w] = rest ∧ t.dev.rings = upd s.dev.rings r RingSt.store ∧
      (∀ k < bs.length, mget t.dev.memory.mem (slotAt s.dev r + k) = bs.getD k 0) ∧
      ∀ a, (a < slotAt s.dev r ∨ slotAt s.dev r + bs.length ≤ a) → mget t.dev.memory.mem a = mget s.dev.memory.mem a := by
  obtain ⟨hr, hm⟩ := ringRecordWrite_store hg hq h
  refine ⟨_, rfl, ringRecordWrite_writers hg hq, hr, fun k hk => ?_, fun a ha => ?_⟩
  · rw [drive_memory, hm, mget_msets_inside _ _ _ _ hk hwf, List.getD_eq_getElem _ _ hk]
  · rw [drive_memory, hm, mget_msets_outside _ _ _ _ ha hwf]

end

/-- Settles O46, by whether the ring is full and what its mode then says. -/
theorem recordRings : Obligations.RecordRings := by
  unfold Obligations.RecordRings
  refine ⟨fun w r bs rest s hg hq hroom hwf => ?_, fun w r bs rest s hg hq hfull hdrop => ?_, fun w r bs rest s hg hq hfull hover hwf => ?_⟩
  · have hf : (s.dev.rings[r]).full = false := decide_eq_false (by omega)
    obtain ⟨t, ht, hw, hr, hin, hout⟩ := exec_ringRecordWrite_store hg hq (fun h => by rw [hf] at h; cases h.1) hwf
    have hs : t.dev.rings[r] = { s.dev.rings[r] with wr := (s.dev.rings[r]).wr + 1 } := by rw [hr, upd_same, RingSt.store_of_room hf]
    refine ⟨t, ht, hw, ?_, ?_, ?_, hin, hout, fun j hj => by rw [hr, upd_other _ _ _ _ hj]⟩
    all_goals rw [hs]
  · obtain ⟨hr, hm⟩ := ringRecordWrite_drop hg hq (decide_eq_true hfull) hdrop
    refine ⟨_, rfl, ringRecordWrite_writers hg hq, ?_, ?_, ?_, hm, fun j hj => ?_⟩
    all_goals simp only [drive_rings, hr, upd_same]
    exact upd_other _ _ _ _ hj
  · have hf : (s.dev.rings[r]).full = true := decide_eq_true hfull
    obtain ⟨t, ht, hw, hr, hin, hout⟩ := exec_ringRecordWrite_store hg hq (fun h => by rw [hover] at h; cases h.2) hwf
    have hs : t.dev.rings[r] = { s.dev.rings[r] with
        rd := (s.dev.rings[r]).rd + 1, ovf := satInc (s.dev.rings[r]).ovf, wr := (s.dev.rings[r]).wr + 1 } := by
      rw [hr, upd_same, RingSt.store_of_full hf]
    refine ⟨t, ht, hw, ?_, ?_, ?_, hin, hout, fun j hj => by rw [hr, upd_other _ _ _ _ hj]⟩
    all_goals rw [hs]

end Sys2Proof.Machine

/-! Every step ends in the output stage, after operations under which no slot comes to have both outputs on (R14, R433). -/

namespace Sys2Proof.Machine

/-! ### Keeping, whatever may change -/

theorem sub_everyPart (S : List Part) : sub S everyPart = true :=
  List.all_eq_true.2 fun p _ => by cases p <;> rfl

theorem Keeps.every {S : List Part} {d e : Device} (h : Keeps S d e) : Keeps everyPart d e := h.mono (sub_everyPart S)

section
variable {S : List Part} {f : Device → Device} (h : ∀ d, Keeps S d (f d))
include h

theorem timed_everyPart (d : Device) : Keeps everyPart d (timed 0 f d) := timed_keeps rfl (fun e => (h e).every) 0 d

theorem launchRow_everyPart (a : LaunchAct) (d : Device) : Keeps everyPart d (launchRow a f d) := launchRow_keeps rfl (fun e => (h e).every) a d

theorem busEval_after (d : Device) : Keeps everyPart d (busEval (f d)) := (h d).every.trans (busEval_keeps _).every

end

/-! ### Outcomes -/

/-- The outcome is a next state: its device comes from the output stage, over a device that keeps the memories' form and the slots' outputs apart;
its queue is that of s. -/
def Driven (s : State) (o : Host.Outcome State Fault Refusal) : Prop :=
  ∃ e, Keeps everyPart s.dev e ∧ o = .next { s with dev := drive e }

section
variable {S : List Part} {f : Device → Device} {s : State} (h : ∀ d, Keeps S d (f d))
include h

theorem Driven.of_keeps : Driven s (done f s) := ⟨f s.dev, (h s.dev).every, done_eq f s⟩

theorem Driven.of_timed : Driven s (done (timed 0 f) s) := .of_keeps (timed_everyPart h)

theorem Driven.of_launchRow {a : LaunchAct} : Driven s (done (launchRow a f) s) := .of_keeps (launchRow_everyPart h a)

end

section
variable {s t : State} {o : Host.Outcome State Fault Refusal} (h : Driven s o) (ht : o = .next t)
include h ht

/-- R14, R39, R46, R432, R433: whatever the operation did, the output stage gives legal pins. -/
theorem Driven.pinsLegal : t.dev.pinsLegal := by
  obtain ⟨e, -, rfl⟩ := h
  cases ht
  exact drive_legal e

/-- R14: the engine's own outputs; the output stage leaves the slots as they are. -/
theorem Driven.slotsApart (hs : s.dev.slotsApart) : t.dev.slotsApart := by
  obtain ⟨e, k, rfl⟩ := h
  cases ht
  exact k.drive.apart hs

end

/-! ### The step -/

/-- Here the operation's due instant is read before the launches that come first. -/
theorem execSoftStartTimeout_driven (c : Chan) (s : State) : Driven s (execSoftStartTimeout c s) :=
  .of_keeps fun d => timed_everyPart (softStartTimeout_keeps c (ssDue c d)) d

/-- Here the operation is guarded in place. -/
theorem execQLoReadLatch_driven (c : Chan) (out : Bool) (s : State) : Driven s (execQLoReadLatch c out s) :=
  .of_keeps fun d => Keeps.ite (latchQ_keeps c out d) (Keeps.refl _ d)

/-- The arms of `exec` in their order: each is `done` of an operation, and the operation keeps. -/
theorem exec_driven (s : State) : ∀ c : Instr, Driven s (exec c s)
  | .resetNLow _ => .of_keeps (resetN_keeps _)
  | .railFalling _ _ => .of_keeps (railFalling_keeps _ _)
  | .resetRelease _ _ _ => .of_keeps (resetRelease_keeps _ _ _)
  | .initComplete _ _ => .of_keeps (initComplete_keeps _ _)
  | .bootSettleExpiry => .of_timed bootSettle_keeps
  | .bootTransactionDone _ => .of_keeps (bootDone_keeps _)
  | .noImageRetry => .of_timed noImageRetry_keeps
  | .mirrorBuilt => .of_keeps buildMirror_keeps
  | .startCheckDone => .of_keeps startCheckDone_keeps
  | .modeSample _ => .of_timed (modeSample_keeps _)
  | .modeUnstableTimeout => .of_timed modeUnstable_keeps
  | .strapChanged _ => .of_keeps (strapChanged_keeps _)
  | .joinTimeout => .of_timed joinTimeout_keeps
  | .runLaunch => .of_launchRow runLaunch_keeps
  | .svcDebounce _ => .of_keeps (svcDebounce_keeps _)
  | .svcPress8s => .of_timed svcPress_keeps
  | .svcRampDone => .of_timed svcRampDone_keeps
  | .svcHoldExpiry => .of_timed svcHoldExpiry_keeps
  | .timeFrameBoundary => .of_timed frameBoundary_keeps
  | .insertionSlot => .of_timed insertionSlot_keeps
  | .timeFrameReceive _ => .of_keeps (timeFrameReceive_keeps _)
  | .frameStrobe => .of_keeps frameStrobe_keeps
  | .haltFrameReceive _ => .of_keeps (haltFrameReceive_keeps _)
  | .modeFrameReceive _ => .of_keeps (modeFrameReceive_keeps _)
  | .rollFrameReceive _ => .of_keeps (rollFrameReceive_keeps _)
  | .joinRetryTimer => .of_timed joinRetry_keeps
  | .presentTimer => .of_timed presentTimer_keeps
  | .memberDropTimeout _ => .of_timed (memberDrop_keeps _)
  | .overlayPropose => .of_keeps overlayPropose_keeps
  | .leaderOverlayCheckDone => .of_keeps leaderCheckDone_keeps
  | .memberOverlayCheckDone => .of_keeps memberCheckDone_keeps
  | .proposeTimeout => .of_timed proposeTimeout_keeps
  | .modeDisagreeTimer => .of_timed disagreeTimer_keeps
  | .launchRequest _ _ _ => .of_keeps (launchRequest_keeps _ _ _)
  | .crossingMessage _ => .of_keeps (crossingMessage_keeps _)
  | .crossingStall _ => .of_keeps (crossingStall_keeps _)
  | .xrefLost => .of_keeps xrefLost_keeps
  | .xrefRestored => .of_keeps xrefRestored_keeps
  | .clockInvalid => .of_keeps clockInvalid_keeps
  | .clockValid => .of_keeps clockValid_keeps
  | .leaderLostTimeout => .of_timed leaderLostTimeout_keeps
  | .deputyTakeover => .of_timed deputyTakeover_keeps
  | .handbackSwitch => .of_timed handbackSwitch_keeps
  | .rivalLeader => .of_timed rivalLeader_keeps
  | .haltPredict => .of_timed haltPredict_keeps
  | .haltRampFix => .of_timed haltRampFix_keeps
  | .haltRampDown => .of_timed haltRampDown_keeps
  | .quietWindowStart => .of_launchRow quietStart_keeps
  | .haltConversionStart => .of_launchRow conversionStart_keeps
  | .quietWindowEnd => .of_launchRow quietEnd_keeps
  | .carrierReset _ => .of_launchRow (carrierResetLaunch_keeps _)
  | .carrierValley _ _ _ => .of_timed (carrierValley_keeps _ _ _)
  | .carrierPeak _ => .of_timed (carrierPeak_keeps _)
  | .blankingEnd _ _ => .of_timed (blankingEnd_keeps _ _)
  | .upperCrossing _ _ => .of_timed fun d => (waitPos_keeps _ _ d).every.trans (upperCrossing_keeps _ _ _).every
  | .tonMaxReached _ _ => .of_timed (tonMaxReached_keeps _ _)
  | .onTimeLimit _ _ => .of_timed (onTimeLimit_keeps _ _)
  | .deadTimeEnd _ => .of_timed (deadTimeEnd_keeps _)
  | .lowerCrossing _ _ => .of_timed fun d => (waitPos_keeps _ _ d).every.trans (lowerCross_keeps _ _ _).every
  | .yOffCount _ => .of_timed (yOffCount_keeps _)
  | .slopeCompStep _ => .of_timed (slopeStep_keeps _)
  | .channelLimitAbove _ _ => .of_keeps (channelLimit_keeps _ _)
  | .dfltHigh _ _ => .of_keeps (dfltHigh_keeps _ _)
  | .readbackTestDone _ _ _ _ => .of_timed (readbackDone_keeps _ _ _ _)
  | .streamResult _ _ _ => .of_timed (streamResult_keeps _ _ _)
  | .modulatorStreamFault _ => .of_keeps (streamFault_keeps _)
  | .inputBudgetArrival _ => .of_keeps (budgetArrival_keeps _)
  | .softStartTimeout _ => execSoftStartTimeout_driven _ s
  | .rampFactorUpdate => .of_timed rampFactorUpdate_keeps
  | .rearmCheckDone _ => .of_keeps (rearmCheckDone_keeps _)
  | .cutEndTimer _ => .of_timed (cutEnd_keeps _)
  | .pulseRampDown _ => .of_timed (pulseRampDown_keeps _)
  | .restStart _ => .of_launchRow (restStart_keeps _)
  | .restSampleEnd _ => .of_timed (restSampleEnd_keeps _)
  | .restEvaluation _ => .of_timed (restEvaluation_keeps _)
  | .restEnd _ => .of_timed (restEnd_keeps _)
  | .recTimeout _ => .of_timed (recTimeout_keeps _)
  | .finTimeout _ => .of_timed (finTimeout_keeps _)
  | .keepTimerExpiry _ => .of_timed (keepTimer_keeps _)
  | .snapshotDone _ => .of_timed (snapshotDone_keeps _)
  | .staggerDeal => .of_timed staggerDeal_keeps
  | .staggerFrameStart => .of_timed staggerFrame_keeps
  | .staggerGainUpdate => .of_timed staggerGain_keeps
  | .budgetUpdate => .of_timed budgetUpdate_keeps
  | .vsysEvaluation => .of_timed vsysEvaluation_keeps
  | .sysFreshnessExpiry _ => .of_timed (sysExpiry_keeps _)
  | .handoverTimeout => .of_timed handoverTimeout_keeps
  | .returnTimeout => .of_timed returnTimeout_keeps
  | .busStateArrival _ => .of_keeps (busArrival_keeps _)
  | .qualTimerExpiry _ => .of_timed (qualTimer_keeps _)
  | .sourceComparatorAbove _ => .of_keeps (srcAbove_keeps _)
  | .halvingRelease => .of_timed halvingRelease_keeps
  | .halvingSustained => .of_timed halvingSustained_keeps
  | .sourceComparatorBelow _ => .of_keeps (srcBelow_keeps _)
  | .sourceGateCheckTimeout _ => .of_timed (srcCheckTimeout_keeps _)
  | .sourceStuckTimeout _ => .of_timed (srcStuck_keeps _)
  | .gateFeedbackLevel _ _ => .of_keeps (gateFeedback_keeps _ _)
  | .pathGateCheckTimeout _ => .of_timed (busEval_after (pathCheckTimeout_keeps _))
  | .gateRampComplete _ => .of_timed (gateRampDone_keeps _)
  | .presenceConfirmed _ => .of_timed (presenceConfirmed_keeps _)
  | .stringLowTimeout _ => .of_timed (busEval_after (stringLow_keeps _))
  | .retryTimerExpiry _ => .of_timed (retryTimer_keeps _)
  | .instantTrip _ => .of_keeps (busEval_after (instantTrip_keeps _))
  | .collapseDetected _ => .of_keeps (collapseDetected_keeps _)
  | .collapseHoldEnd _ => .of_timed (collapseEnd_keeps _)
  | .stuckOnTimeout _ => .of_timed (busEval_after (stuckOn_keeps _))
  | .arbiterDecision _ => .of_keeps (arbiterDecision_keeps _)
  | .conversionDone _ _ _ => .of_timed (conversionDone_keeps _ _ _)
  | .sequencerDelayExpiry _ => .of_timed (seqDelay_keeps _)
  | .ringRecordWrite _ => .of_keeps (ringRecordWrite_keeps _)
  | .calStepDone => .of_keeps calStepDone_keeps
  | .referenceImplausible _ => .of_keeps (refImplausible_keeps _)
  | .referenceChangeLaunch => .of_timed refChange_keeps
  | .thermalUpdate => .of_keeps (busEval_after thermalUpdate_keeps)
  | .tjArrival _ => .of_keeps (tjArrival_keeps _)
  | .hkRoundStart => .of_timed hkRoundStart_keeps
  | .hkRoundComplete => .of_keeps hkRoundComplete_keeps
  | .oscillatorLost _ _ => .of_keeps (oscLost_keeps _ _)
  | .faultRaise _ => .of_keeps (busEval_after (faultRaise_keeps _))
  | .rpathFault _ _ => .of_keeps (busEval_after (rpathFault_keeps _ _))
  | .rpathRestored _ => .of_keeps (rpathRestored_keeps _)
  | .recoveryGrant _ => .of_timed (recoveryGrant_keeps _)
  | .promotionWindowEnd _ => .of_timed (promotionWindowEnd_keeps _)
  | .logRecordWrite => .of_keeps logRecordWrite_keeps
  | .logSecondEnd => .of_timed logSecondEnd_keeps
  | .captureBufferComplete _ => .of_timed (finishCapture_keeps _)
  | .fiDurationExpiry => .of_timed (busEval_after fiExpiry_keeps)
  | .newtRequest => .of_timed newtRequest_keeps
  | .swapCheckDone => .of_keeps swapCheckDone_keeps
  | .scrubStep _ => .of_timed (scrubStep_keeps _)
  | .rowRemapDone => .of_keeps rowRemapDone_keeps
  | .correctionWindowExpiry _ _ => .of_timed (correctionExpiry_keeps _ _)
  | .reloadCheckDone => .of_keeps reloadCheckDone_keeps
  | .reloadStopDone => .of_keeps reloadStopDone_keeps
  | .reloadStopTimeout => .of_timed reloadStopTimeout_keeps
  | .reloadWriteDone => .of_keeps finishReload_keeps
  | .reloadRearmLaunch => .of_keeps rearmRow_keeps
  | .armCheckDone => .of_keeps armCheckDone_keeps
  | .ackPollTimer => .of_timed ackPoll_keeps
  | .pageWriteTimeout => .of_timed pageTimeout_keeps
  | .ident _ => .of_keeps (blockRead_keeps _ _ _)
  | .peek _ => .of_keeps (peek_keeps _)
  | .qLoReadLatch _ _ => execQLoReadLatch_driven _ _ s
  | .alertRead _ => .of_keeps (peek_keeps _)
  | .ringRead _ => .of_keeps (ringRead_keeps _)
  | .logRead _ => .of_keeps (logRead_keeps _)
  | .ringAck _ => .of_keeps (ringAck_keeps _)
  | .logAck _ => .of_keeps (logAck_keeps _)
  | .clear _ => .of_keeps (clear_keeps _)
  | .summary _ => .of_keeps (blockRead_keeps _ _ _)
  | .caravanSummary _ => .of_keeps (blockRead_keeps _ _ _)
  | .result _ => .of_keeps (blockRead_keeps _ _ _)
  | .serviceUnlock _ => .of_keeps (serviceUnlock_keeps _)
  | .serviceLock _ => .of_keeps (serviceLock_keeps _)
  | .write _ => .of_keeps (write_keeps _)
  | .writeNarrowI _ _ _ _ => .of_keeps (write_keeps _)
  | .writeNarrowV _ _ _ _ => .of_keeps (write_keeps _)
  | .writeHostStop _ _ _ => .of_keeps (write_keeps _)
  | .fiRsArm _ _ _ => .of_keeps (write_keeps _)
  | .fiPecArm _ _ => .of_keeps (write_keeps _)
  | .fiCrcArm _ _ => .of_keeps (write_keeps _)
  | .fiRailArm _ _ _ _ => .of_keeps (write_keeps _)
  | .armRegion _ => .of_keeps (armRegion_keeps _)
  | .reloadRegion _ => .of_keeps (reloadCmd_keeps _)
  | .inject _ => .of_keeps (inject_keeps _)
  | .calZero _ => .of_keeps (calZero_keeps _)
  | .calFull _ => .of_keeps (calFull_keeps _)
  | .calCommit _ => .of_keeps (calCommitCmd_keeps _)
  | .nvmWrite _ => .of_keeps (nvmWrite_keeps _)
  | .nvmFetch _ => .of_keeps (nvmFetch_keeps _)
  | .nvmData _ => .of_keeps (nvmDataRead_keeps _)
  | .unknownCommand _ => .of_keeps unknownCommand_keeps
  | .busError => .of_keeps busError_keeps
  | .clockLowTimeout => .of_keeps clockLow_keeps
  | .unlockExpiry => .of_timed unlockExpiry_keeps
  | .lockoutEnd => .of_timed lockoutEnds_keeps
  | .alertResponseRead _ _ => .of_keeps (alertResponse_keeps _ _)
  | .pollRoundStart => .of_timed pollRound_keeps
  | .pollDone _ => .of_keeps (pollDone_keeps _)
  | .alertLineTimeout => .of_keeps alertLine_keeps
  | .arbitrationLost _ => .of_keeps (arbitrationLost_keeps _)
  | .arbitrationBackoffEnd => .of_timed backoffEnd_keeps
  | .controllerBusStuck _ _ => .of_keeps (busStuck_keeps _ _)
  | .driverFaultCleared _ => .of_keeps (dfltCleared_keeps _)
  | .referencePlausible _ => .of_keeps (refPlausible_keeps _)
  | .busFree _ => .of_keeps (busFree_keeps _)
  | .sourceComparatorBetween _ => .of_keeps (srcBetween_keeps _)

theorem step_driven (s : State) : Driven { s with pending := s.pending.tail } (step s) := by
  obtain ⟨d, _ | ⟨c, rest⟩⟩ := s
  case nil => exact .of_keeps tickPass_keeps
  case cons => exact exec_driven ⟨d, rest⟩ c

/-- Settles O6: the pins by the output stage that ends every step, the slots by what every operation before it keeps. -/
theorem stepKeepsPinsLegal : Obligations.StepKeepsPinsLegal := by
  unfold Obligations.StepKeepsPinsLegal
  exact ⟨fun s _ _ ht => (step_driven s).pinsLegal ht, fun s _ hs ht => (step_driven s).slotsApart ht hs⟩

end Sys2Proof.Machine

/-! What a block write that reaches its STOP whole does: the acknowledges of the rings and of the log (R372, R504), the service unlock and its
lockout (R506 to R508). -/

namespace Sys2Proof.Machine

/-! ### A committed block write -/

/-- A block write that reaches its STOP whole, of a length the command has and under the unlock where it asks for one, is judged and acted on, and
its result recorded (R491 to R493, R498, R501). -/
theorem blockWrite_committed {code : Byte} {lo hi res detail : Nat} {svc : Bool} {w : BlockWrite} {judge : List Byte → Device → Nat × Nat}
    {act : Nat → List Byte → Device → Device} {d : Device} (hup : targetUp d = true) (hw : soundBlock code w d = true)
    (hlen : lo ≤ w.data.length ∧ w.data.length ≤ hi) (hsvc : svc = true → unlocked d = true) (hj : judge w.data (ack d) = (res, detail)) :
    blockWrite code lo hi svc w judge act d = record code res detail (act res w.data (ack d)) := by
  simp only [soundBlock, Bool.and_eq_true, decide_eq_true_eq] at hw
  obtain ⟨hcount, hpec⟩ := hw
  have hl : ¬ (w.data.length < lo ∨ hi < w.data.length) := by omega
  have hu : ¬ (svc = true ∧ unlocked (ack d) = false) := fun h => Bool.false_ne_true (h.2.symm.trans (hsvc h.1))
  have ha : addrByte (ack d) false = addrByte d false := rfl
  simp [blockWrite, hup, hpec, ← hcount, ha, hl, hu, hj]

/-- The result takes its place in `RESULT`, and a refusal is counted (R500, R501). -/
@[simp] theorem record_sup (code : Byte) (res detail : Nat) (d : Device) :
    (record code res detail d).sup = { d.sup with
      resCmd := code, resCode := byteOf res, resSeq := d.sup.resSeq + 1, resDetail := BitVec.ofNat 32 detail,
      cmdRefused := if res = 0 then d.sup.cmdRefused else satInc d.sup.cmdRefused } := by
  unfold record
  split <;> rfl

@[simp] theorem record_rings (code : Byte) (res detail : Nat) (d : Device) : (record code res detail d).rings = d.rings :=
  (record_keeps code res detail d).parts .rings rfl

@[simp] theorem record_clk (code : Byte) (res detail : Nat) (d : Device) : (record code res detail d).clk = d.clk :=
  (record_keeps code res detail d).parts .clk rfl

@[simp] theorem record_col (code : Byte) (res detail : Nat) (d : Device) : (record code res detail d).col = d.col := by
  unfold record
  split <;> rfl

@[simp] theorem ack_rings (d : Device) : (ack d).rings = d.rings := rfl
@[simp] theorem ack_col (d : Device) : (ack d).col = d.col := rfl
@[simp] theorem ack_clk (d : Device) : (ack d).clk = d.clk := rfl

/-- An action of a command leaves the parts of the answer that its result builds on as they are. -/
def KeepsAnswer (d e : Device) : Prop :=
  e.sup.resSeq = d.sup.resSeq ∧ e.sup.acked = d.sup.acked ∧ e.sup.out = d.sup.out ∧ e.sup.cmdRefused = d.sup.cmdRefused

theorem KeepsAnswer.of_sup_eq {d e : Device} (h : e.sup = d.sup) : KeepsAnswer d e := by simp [KeepsAnswer, h]

theorem byteOf_eq_zero {n : Nat} (h : n < 256) : byteOf n = 0 ↔ n = 0 := by
  rw [byteOf, ← BitVec.toNat_inj, BitVec.toNat_ofNat, Nat.mod_eq_of_lt h]
  rfl

/-- The acknowledgement, an action that leaves the answer alone, the result and the output stage together give what `recorded` says. -/
theorem recorded_drive_record {code : Byte} {res detail : Nat} {d e : Device} (h : KeepsAnswer (ack d) e) (hres : res < 256) :
    recorded code (byteOf res) d (drive (record code res detail e)) := by
  obtain ⟨hseq, hacked, hout, hrefused⟩ := h
  rw [recorded, drive_sup, record_sup]
  refine ⟨rfl, rfl, congrArg (· + 1) hseq, hacked, hout, ?_⟩
  simp only [hrefused, byteOf_eq_zero hres]
  rfl

/-! ### Acknowledges (R372, R504) -/

/-- R372: an index at most the fill past the read index is taken, any other refused with 0x0D and the read index as detail. -/
def ackResult (wr rd : Halfword) (a : Nat) : Nat × Nat := if (a + 65536 - rd.toNat) % 65536 ≤ fill16 wr rd then (0, 0) else (0x0D, rd.toNat)

theorem ackResult_taken {wr rd : Halfword} {a : Nat} (h : (a + 65536 - rd.toNat) % 65536 ≤ fill16 wr rd) : ackResult wr rd a = (0, 0) := if_pos h

theorem ackResult_refused {wr rd : Halfword} {a : Nat} (h : fill16 wr rd < (a + 65536 - rd.toNat) % 65536) :
    ackResult wr rd a = (0x0D, rd.toNat) := if_neg (Nat.not_le.2 h)

/-- The judgement that both acknowledges make is `ackResult`. -/
theorem ackOk_ite (wr rd : Halfword) (a : Nat) : (if ackOk wr rd a then (0, 0) else (0x0D, rd.toNat)) = ackResult wr rd a := by
  simp only [ackOk, ackResult, decide_eq_true_eq]

/-- A RING_ACK that names one of the 32 rings. -/
theorem ringAck_eq {w : BlockWrite} {r : Ring} {d : Device} {res detail : Nat} (hup : targetUp d = true) (hw : soundBlock 0x05 w d = true)
    (hlen : w.data.length = 3) (hr : fld w.data 0 1 = r.1) (h : ackResult (d.rings[r]).wr (d.rings[r]).rd (fld w.data 1 2) = (res, detail)) :
    ringAck w d = record 0x05 res detail
      (if res = 0 then (ack d).updRing r fun x => { x with rd := BitVec.ofNat 16 (fld w.data 1 2) } else ack d) := by
  have hn : Fin.ofNat 32 (fld w.data 0 1) = r := by rw [hr, Fin.ofNat_val_eq_self]
  have h31 : ¬ 31 < fld w.data 0 1 := by omega
  refine (blockWrite_committed hup hw (by omega) (fun hsvc => by cases hsvc) ?_).trans (by rw [ifOk, hn])
  simp only [if_neg h31, hn]
  exact (ackOk_ite ..).trans h

theorem logAck_eq {w : BlockWrite} {d : Device} {res detail : Nat} (hup : targetUp d = true) (hw : soundBlock 0x06 w d = true)
    (hlen : w.data.length = 2) (h : ackResult d.col.logWr d.col.logRd (fld w.data 0 2) = (res, detail)) :
    logAck w d = record 0x06 res detail
      (if res = 0 then (ack d).updCol fun c => { c with logRd := BitVec.ofNat 16 (fld w.data 0 2) } else ack d) :=
  blockWrite_committed hup hw (by omega) nofun ((ackOk_ite ..).trans h)

/-- Settles O55: each command is judged by `ackResult`; an index that is taken moves the read index of its ring or of the log, a refused one nothing. -/
theorem acknowledges : Obligations.Acknowledges := by
  unfold Obligations.Acknowledges
  refine ⟨fun w r s hup hw hlen hr h => ⟨_, rfl, ?_⟩, fun w r s hup hw hlen hr h => ⟨_, rfl, ?_⟩, fun w s hup hw hlen h => ⟨_, rfl, ?_⟩,
    fun w s hup hw hlen h => ⟨_, rfl, ?_⟩⟩
  · rw [ringAck_eq hup hw hlen hr (ackResult_taken h), if_pos rfl]
    refine ⟨recorded_drive_record (.of_sup_eq rfl) (by decide), ?_, ?_, fun j hj => ?_⟩
    all_goals simp only [drive_rings, record_rings, updRing_rings, upd_same]
    · rfl
    · exact upd_other _ _ _ _ hj
  · rw [ringAck_eq hup hw hlen hr (ackResult_refused h), if_neg (by decide)]
    exact ⟨recorded_drive_record (.of_sup_eq rfl) (by decide), by simp, by simp⟩
  · rw [logAck_eq hup hw hlen (ackResult_taken h), if_pos rfl]
    exact ⟨recorded_drive_record (.of_sup_eq rfl) (by decide), by simp, by simp⟩
  · rw [logAck_eq hup hw hlen (ackResult_refused h), if_neg (by decide)]
    exact ⟨recorded_drive_record (.of_sup_eq rfl) (by decide), by simp⟩

/-! ### The service unlock (R506 to R508) -/

theorem unlockJudge_ack (bs : List Byte) (d : Device) : unlockJudge bs (ack d) = unlockJudge bs d := rfl

section
variable {bs : List Byte} {d : Device}

theorem unlockJudge_state (h : ¬ (d.start.st = .configured ∨ d.start.st = .join ∨ d.start.st = .run)) : unlockJudge bs d = (0x07, 0) := if_pos h

variable (hst : d.start.st = .configured ∨ d.start.st = .join ∨ d.start.st = .run)
include hst

theorem unlockJudge_unusable (h : d.loader.svcCmdEnable = false ∨ d.loader.serviceCode = 0) : unlockJudge bs d = (0x09, 0) := by
  rw [unlockJudge, if_neg (not_not_intro hst), if_pos h]

variable (hen : d.loader.svcCmdEnable = true) (hcode : d.loader.serviceCode ≠ 0)
include hen hcode

/-- With a usable code the lockout and the code decide. -/
theorem unlockJudge_usable :
    unlockJudge bs d = if lockedOut d then (0x0B, 0) else if fld bs 0 2 ≠ d.loader.serviceCode.toNat then (0x0A, 0) else (0, 0) := by
  have hu : ¬ (d.loader.svcCmdEnable = false ∨ d.loader.serviceCode = 0) := fun h => h.elim (by simp [hen]) hcode
  rw [unlockJudge, if_neg (not_not_intro hst), if_neg hu]

theorem unlockJudge_lockedOut (h : lockedOut d = true) : unlockJudge bs d = (0x0B, 0) := by
  rw [unlockJudge_usable hst hen hcode, if_pos h]

theorem unlockJudge_right (hl : lockedOut d = false) (h : fld bs 0 2 = d.loader.serviceCode.toNat) : unlockJudge bs d = (0, 0) := by
  rw [unlockJudge_usable hst hen hcode, if_neg (ne_true_of_eq_false hl), if_neg (not_not_intro h)]

theorem unlockJudge_wrong (hl : lockedOut d = false) (h : fld bs 0 2 ≠ d.loader.serviceCode.toNat) : unlockJudge bs d = (0x0A, 0) := by
  rw [unlockJudge_usable hst hen hcode, if_neg (ne_true_of_eq_false hl), if_pos h]

end

theorem unlockAct_keepsAnswer (r : Nat) (d : Device) : KeepsAnswer d (unlockAct r d) := by
  unfold unlockAct
  split
  · exact ⟨rfl, rfl, rfl, rfl⟩
  · split
    · exact ⟨rfl, rfl, rfl, rfl⟩
    · exact .of_sup_eq rfl

theorem unlockAct_right (d : Device) :
    unlockAct 0 d = d.updSup fun s => { s with unlockEnd := some (d.clk.up + 60 * sec), badCodes := 0, lockoutEnd := none } := rfl

theorem unlockAct_wrong (d : Device) :
    unlockAct 0x0A d = d.updSup fun s => { s with
      badCodes := BitVec.ofNat 2 (min 2 (badCodes d + 1)), lockoutEnd := if 2 ≤ badCodes d then some (d.clk.up + 60 * sec) else none } := rfl

/-- A refusal for another reason than a wrong code neither unlocks nor counts. -/
theorem unlockAct_other {r : Nat} (d : Device) (h0 : r ≠ 0) (ha : r ≠ 0x0A) : unlockAct r d = d := by rw [unlockAct, if_neg h0, if_neg ha]

/-- R507: the third wrong code in a row starts the lockout, with `BAD_CODES` at 2. -/
theorem unlockAct_third {d : Device} (h : badCodes d = 2) :
    (unlockAct 0x0A d).sup.lockoutEnd = some (d.clk.up + 60 * sec) ∧ (unlockAct 0x0A d).sup.badCodes = 2 := by
  simp [unlockAct_wrong, h]

theorem unlockAct_earlier {d : Device} (h : badCodes d < 2) :
    (unlockAct 0x0A d).sup.lockoutEnd = none ∧ (unlockAct 0x0A d).sup.badCodes.toNat = badCodes d + 1 := by
  have hn : ¬ 2 ≤ badCodes d := by omega
  have hm : min 2 (badCodes d + 1) = badCodes d + 1 := by omega
  rw [unlockAct_wrong, updSup_sup]
  exact ⟨if_neg hn, by rw [hm, BitVec.toNat_ofNat, Nat.mod_eq_of_lt (by omega)]⟩

/-- A committed SERVICE_UNLOCK records its result, and the unlock and the lockout are as `unlockAct` leaves them. -/
theorem serviceUnlock_eq {w : BlockWrite} {d : Device} {res : Nat} (hup : targetUp d = true) (hw : soundBlock 0x10 w d = true)
    (hlen : w.data.length = 2) (hj : unlockJudge w.data d = (res, 0)) : serviceUnlock w d = record 0x10 res 0 (unlockAct res (ack d)) :=
  blockWrite_committed hup hw (by omega) nofun ((unlockJudge_ack ..).trans hj)

theorem unlocked_of_later {d : Device} {t : Nat} (h : d.sup.unlockEnd = some t) (ht : d.clk.up < t) : unlocked d = true := by
  simp [unlocked, h, Device.up, ht]

theorem unlocked_of_none {d : Device} (h : d.sup.unlockEnd = none) : unlocked d = false := by rw [unlocked, h]

theorem lockedOut_of_none {d : Device} (h : d.sup.lockoutEnd = none) : lockedOut d = false := by rw [lockedOut, h]

theorem serviceLock_eq {w : BlockWrite} {d : Device} (hup : targetUp d = true) (hw : soundBlock 0x11 w d = true) (hdata : w.data = [0])
    (hu : unlocked d = true) : serviceLock w d = record 0x11 0 0 ((ack d).updSup fun s => { s with unlockEnd := none }) :=
  blockWrite_committed hup hw (by simp [hdata]) (fun _ => hu) (by rw [hdata]; rfl)

theorem lockoutEnds_eq {d : Device} {u : Nat} (h : d.sup.lockoutEnd = some u) :
    lockoutEnds d = (waitUp u d).updSup fun s => { s with lockoutEnd := none, badCodes := 0 } := by rw [lockoutEnds, h]

/-- Settles O56, by the judgement of each case and what the action does on it. -/
theorem serviceUnlock_spec : Obligations.ServiceUnlock := by
  unfold Obligations.ServiceUnlock
  refine ⟨fun w s hup hw hlen hst hen hcode hl hf => ⟨_, rfl, ?_⟩, fun w s hup hw hlen hst hen hcode hl hf => ⟨_, rfl, ?_⟩,
    fun w s hup hw hlen hst hen hcode hl => ⟨_, rfl, ?_⟩, fun w s hup hw hlen hst hu => ⟨_, rfl, ?_⟩,
    fun w s hup hw hlen hrun hjoin hconf => ⟨_, rfl, ?_⟩, fun w s hup hw hdata hu => ⟨_, rfl, ?_⟩, fun u s hc hu => ?_⟩
  · rw [serviceUnlock_eq hup hw hlen (unlockJudge_right hst hen hcode hl hf), unlockAct_right]
    exact ⟨recorded_drive_record ⟨rfl, rfl, rfl, rfl⟩ (by decide), rfl, rfl, rfl,
      unlocked_of_later (t := s.dev.clk.up + 60 * sec) rfl (by simp [sec])⟩
  · rw [serviceUnlock_eq hup hw hlen (unlockJudge_wrong hst hen hcode hl hf)]
    exact ⟨recorded_drive_record (unlockAct_keepsAnswer ..) (by decide), rfl, unlockAct_third, unlockAct_earlier⟩
  · rw [serviceUnlock_eq hup hw hlen (unlockJudge_lockedOut hst hen hcode hl), unlockAct_other _ (by decide) (by decide)]
    exact ⟨recorded_drive_record (.of_sup_eq rfl) (by decide), rfl, rfl⟩
  · rw [serviceUnlock_eq hup hw hlen (unlockJudge_unusable hst hu), unlockAct_other _ (by decide) (by decide)]
    exact ⟨recorded_drive_record (.of_sup_eq rfl) (by decide), rfl⟩
  · rw [serviceUnlock_eq hup hw hlen (unlockJudge_state (by simp [hrun, hjoin, hconf])), unlockAct_other _ (by decide) (by decide)]
    exact ⟨recorded_drive_record (.of_sup_eq rfl) (by decide), rfl⟩
  · rw [serviceLock_eq hup hw hdata hu]
    exact ⟨recorded_drive_record ⟨rfl, rfl, rfl, rfl⟩ (by decide), rfl, unlocked_of_none rfl⟩
  · refine ⟨_, execLockoutEnd_calm s hc, ?_⟩
    rw [lockoutEnds_eq hu]
    exact ⟨rfl, rfl, lockedOut_of_none rfl⟩

end Sys2Proof.Machine

/-! What a command may change: the canonical form of the memories (R527), the frame of every command, and who writes the configuration in force. -/

namespace Sys2Proof.Machine

/-! ### Every step, every command -/

section
variable {s t : State} {o : Host.Outcome State Fault Refusal} (h : Driven s o)
include h

theorem Driven.memOk (ht : o = .next t) (hs : s.dev.memOk) : t.dev.memOk := by
  obtain ⟨e, k, rfl⟩ := h
  cases ht
  exact k.drive.mem hs

theorem Driven.completes : ∃ t, o = .next t ∧ t.pending = s.pending ∧ t.dev.pinsLegal := by
  obtain ⟨e, -, rfl⟩ := h
  exact ⟨_, rfl, rfl, drive_legal e⟩

end

/-- Settles O7: every operation before the output stage keeps the canonical form of the four memories, and the output stage writes none. -/
theorem stepKeepsMemory : Obligations.StepKeepsMemory := by
  unfold Obligations.StepKeepsMemory
  exact fun s _ hs ht => (step_driven s).memOk ht hs

/-- Settles O5: the outcome of every command is a driven next state. -/
theorem everyCommandCompletes : Obligations.EveryCommandCompletes := by
  unfold Obligations.EveryCommandCompletes
  exact fun c s => (exec_driven s c).completes

/-! ### Frames -/

theorem Keeps.append {S : List Part} {d e : Device} (h : Keeps S d e) (T : List Part) : Keeps (S ++ T) d e :=
  h.mono (List.all_eq_true.2 fun p hp => by simp [hp])

theorem Keeps.append_launchParts {T S : List Part} {d e : Device} (h : Keeps T d e) (hT : sub T launchParts = true) :
    Keeps (S ++ launchParts) d e :=
  (h.mono hT).mono (List.all_eq_true.2 fun p hp => by simp [hp])

theorem sub_launchNextParts : sub launchNextParts launchParts = true := by decide

theorem sub_launchesArriveParts : sub launchesArriveParts launchParts = true := by decide

/-- The launches up to an instant change at most what a launch may change. -/
theorem launchesUntil_launchParts (n : Nat) (a : LaunchAct) (t : Nat) (d : Device) : Keeps launchParts d (launchesUntil n a t d) := by
  induction n generalizing d with
  | zero => exact .refl _ _
  | succ n ih => exact .ite (((launchNext_keeps d).mono sub_launchNextParts).trans (ih _)) (.refl _ _)

section
variable {S : List Part} {f : Device → Device} (h : ∀ d, Keeps S d (f d))
include h

theorem withLaunches_launchParts (n k : Nat) (d : Device) : Keeps (S ++ launchParts) d (withLaunches n k f d) := by
  induction n generalizing d with
  | zero => exact (h d).append _
  | succ n ih =>
    refine .ite ((h d).append _) (.trans (.ite ?_ ?_) (ih _))
    · exact (launchesArrive_keeps d).append_launchParts sub_launchesArriveParts
    · exact (launchNext_keeps d).append_launchParts sub_launchNextParts

theorem launchRow_launchParts (a : LaunchAct) (d : Device) : Keeps (S ++ launchParts) d (launchRow a f d) := by
  refine .ite ?_ (withLaunches_launchParts h _ _ d)
  have hx : Keeps (S ++ launchParts) d (launchesArrive d) := (launchesArrive_keeps d).append_launchParts sub_launchesArriveParts
  dsimp only
  split
  · exact hx.trans ((launchesUntil_launchParts ..).append_launchParts (by decide))
  · exact hx

end

/-- What the moves of the bus state may change (`busEval`). -/
def busEvalParts : List Part :=
  [.devState, .latch, .arbs, .isl, .slots, .quads, .chans, .profs, .paths, .srcs, .bus, .faults, .col, .log, .caps, .alert]

/-- The outcome is a next state whose device is driven, and from s to it at most the kinds of state S change. -/
def Frame (S : List Part) (s : State) (o : Host.Outcome State Fault Refusal) : Prop :=
  ∃ e, Keeps S s.dev e ∧ o = .next { s with dev := drive e }

theorem Frame.of_keeps {S T : List Part} {f : Device → Device} {s : State} (h : Keeps S s.dev (f s.dev)) (hs : sub S T = true) : Frame T s (done f s) :=
  ⟨f s.dev, h.mono hs, rfl⟩

section
variable {S : List Part} {s t : State} {o : Host.Outcome State Fault Refusal} (h : Frame S s o) (ht : o = .next t)
include h ht

theorem Frame.onlyParts : onlyParts S s.dev t.dev ∧ t.dev.pins = (drive t.dev).pins := by
  obtain ⟨e, k, rfl⟩ := h
  cases ht
  exact ⟨k.drive.parts, rfl⟩

end

/-- What the outcome of a command may change: what `mayWrite` lists where no launch comes first, else what a launch may change as well. -/
structure Framed (c : Instr) (s : State) (o : Host.Outcome State Fault Refusal) : Prop where
  calm : calm c s.dev = true → Frame (mayWrite c) s o
  any : Frame (mayWrite c ++ launchParts) s o

section
variable {S : List Part} {c : Instr} {f : Device → Device} {s : State} (h : ∀ d, Keeps S d (f d))
include h

theorem Framed.of_keeps (hs : sub S (mayWrite c) = true := by rfl) : Framed c s (done f s) :=
  ⟨fun _ => .of_keeps (h _) hs, ⟨_, ((h _).mono hs).append _, rfl⟩⟩

theorem Framed.of_timed (hs : sub S (mayWrite c) = true := by rfl) (hc : Machine.calm c s.dev = undisturbed 0 f s.dev := by rfl) :
    Framed c s (done (timed 0 f) s) :=
  ⟨fun hd => .of_keeps (by rw [timed_calm (hc ▸ hd)]; exact h _) hs,
    ⟨_, withLaunches_launchParts (fun d => (h d).mono hs) _ _ _, rfl⟩⟩

theorem Framed.of_launchRow {a : LaunchAct} (hs : sub S (mayWrite c) = true := by rfl)
    (hc : Machine.calm c s.dev = (!launchIssued a s.dev && undisturbed a.order f s.dev) := by rfl) : Framed c s (done (launchRow a f) s) :=
  ⟨fun hd => .of_keeps (by rw [launchRow_calm (hc ▸ hd)]; exact h _) hs,
    ⟨_, launchRow_launchParts (fun d => (h d).mono hs) _ _, rfl⟩⟩

/-- An operation with the moves of the bus state that it makes due. -/
theorem busEval_behind (d : Device) : Keeps (S ++ busEvalParts) d (busEval (f d)) :=
  ((h d).append _).trans ((busEval_keeps _).mono (T := busEvalParts) (List.all_eq_true.2 fun p hp => by simp [hp]))

end

/-- Here the operation's due instant is read before the launches that come first. -/
theorem execSoftStartTimeout_framed (c : Chan) (s : State) : Framed (.softStartTimeout c) s (execSoftStartTimeout c s) := by
  have h : execSoftStartTimeout c s = done (timed 0 (softStartTimeout c (ssDue c s.dev))) s := done_congr rfl
  rw [h]
  exact .of_timed (softStartTimeout_keeps c (ssDue c s.dev))

/-- Here the operation is guarded in place. -/
theorem execQLoReadLatch_framed (c : Chan) (out : Bool) (s : State) : Framed (.qLoReadLatch c out) s (execQLoReadLatch c out s) :=
  .of_keeps fun d => Keeps.ite (latchQ_keeps c out d) (Keeps.refl _ d)

theorem execReloadRearmLaunch_framed (s : State) : Framed .reloadRearmLaunch s (execReloadRearmLaunch s) := by
  refine ⟨fun hd => ?_, ⟨rearmRow s.dev, ?_, rfl⟩⟩
  · rw [execReloadRearmLaunch_calm s hd]
    exact .of_keeps (reloadRearm_keeps _) (by decide)
  · refine .ite ?_ ((withLaunches_launchParts reloadRearm_keeps _ _ _).mono (by decide))
    exact ((launchesArrive_keeps _).append_launchParts sub_launchesArriveParts).trans ((launchesUntil_launchParts ..).append_launchParts (by decide))

/-- Every kind of state but the free values. -/
theorem Keeps.except_free {d e : Device} (h : Keeps everyPart d e) (hf : e.free = d.free) : Keeps (everyPart.erase .free) d e := by
  refine ⟨fun p hp => ?_, h.mem, h.apart⟩
  cases p
  case free => exact hf
  all_goals cases hp

/-- No free value is drawn by a reset. -/
theorem enterReset_free (d : Device) : (enterReset d).free = d.free := by
  unfold enterReset
  split <;> rfl

theorem railFalling_free (r : Fin 4) (low : Bool) (d : Device) : (railFalling r low d).free = d.free := enterReset_free d

theorem svcHoldExpiry_free (d : Device) : (svcHoldExpiry d).free = d.free := by
  unfold svcHoldExpiry
  split
  · rw [updStart_free, enterReset_free, waitUp_free]
  · rfl

theorem exec_framed (s : State) : ∀ c : Instr, Framed c s (exec c s)
  | .resetNLow _ => .of_keeps (resetN_keeps _)
  | .railFalling _ _ => .of_keeps fun d => (railFalling_keeps _ _ d).except_free (railFalling_free ..)
  | .resetRelease _ _ _ => .of_keeps (resetRelease_keeps _ _ _)
  | .initComplete _ _ => .of_keeps (initComplete_keeps _ _)
  | .bootSettleExpiry => .of_timed bootSettle_keeps
  | .bootTransactionDone _ => .of_keeps (bootDone_keeps _)
  | .noImageRetry => .of_timed noImageRetry_keeps
  | .mirrorBuilt => .of_keeps buildMirror_keeps
  | .startCheckDone => .of_keeps startCheckDone_keeps
  | .modeSample _ => .of_timed (modeSample_keeps _)
  | .modeUnstableTimeout => .of_timed modeUnstable_keeps
  | .strapChanged _ => .of_keeps (strapChanged_keeps _)
  | .joinTimeout => .of_timed joinTimeout_keeps
  | .runLaunch => .of_launchRow runLaunch_keeps
  | .svcDebounce _ => .of_keeps (svcDebounce_keeps _)
  | .svcPress8s => .of_timed svcPress_keeps
  | .svcRampDone => .of_timed svcRampDone_keeps
  | .svcHoldExpiry => .of_timed fun d => (svcHoldExpiry_keeps d).except_free (svcHoldExpiry_free d)
  | .timeFrameBoundary => .of_timed frameBoundary_keeps
  | .insertionSlot => .of_timed insertionSlot_keeps
  | .timeFrameReceive _ => .of_keeps (timeFrameReceive_keeps _)
  | .frameStrobe => .of_keeps frameStrobe_keeps
  | .haltFrameReceive _ => .of_keeps (haltFrameReceive_keeps _)
  | .modeFrameReceive _ => .of_keeps (modeFrameReceive_keeps _)
  | .rollFrameReceive _ => .of_keeps (rollFrameReceive_keeps _)
  | .joinRetryTimer => .of_timed joinRetry_keeps
  | .presentTimer => .of_timed presentTimer_keeps
  | .memberDropTimeout _ => .of_timed (memberDrop_keeps _)
  | .overlayPropose => .of_keeps overlayPropose_keeps
  | .leaderOverlayCheckDone => .of_keeps leaderCheckDone_keeps
  | .memberOverlayCheckDone => .of_keeps memberCheckDone_keeps
  | .proposeTimeout => .of_timed proposeTimeout_keeps
  | .modeDisagreeTimer => .of_timed disagreeTimer_keeps
  | .launchRequest _ _ _ => .of_keeps (launchRequest_keeps _ _ _)
  | .crossingMessage _ => .of_keeps (crossingMessage_keeps _)
  | .crossingStall _ => .of_keeps (crossingStall_keeps _)
  | .xrefLost => .of_keeps xrefLost_keeps
  | .xrefRestored => .of_keeps xrefRestored_keeps
  | .clockInvalid => .of_keeps clockInvalid_keeps
  | .clockValid => .of_keeps clockValid_keeps
  | .leaderLostTimeout => .of_timed leaderLostTimeout_keeps
  | .deputyTakeover => .of_timed deputyTakeover_keeps
  | .handbackSwitch => .of_timed handbackSwitch_keeps
  | .rivalLeader => .of_timed rivalLeader_keeps
  | .haltPredict => .of_timed haltPredict_keeps
  | .haltRampFix => .of_timed haltRampFix_keeps
  | .haltRampDown => .of_timed haltRampDown_keeps
  | .quietWindowStart => .of_launchRow quietStart_keeps
  | .haltConversionStart => .of_launchRow conversionStart_keeps
  | .quietWindowEnd => .of_launchRow quietEnd_keeps
  | .carrierReset _ => .of_launchRow (carrierResetLaunch_keeps _)
  | .carrierValley _ _ _ => .of_timed (carrierValley_keeps _ _ _)
  | .carrierPeak _ => .of_timed (carrierPeak_keeps _)
  | .blankingEnd _ _ => .of_timed (blankingEnd_keeps _ _)
  | .upperCrossing _ _ => .of_timed fun d => (upperCrossing_keeps _ _ _).after ((waitPos_keeps _ _ d).mono (S := [.clk, .slots]) rfl) rfl
  | .tonMaxReached _ _ => .of_timed (tonMaxReached_keeps _ _)
  | .onTimeLimit _ _ => .of_timed (onTimeLimit_keeps _ _)
  | .deadTimeEnd _ => .of_timed (deadTimeEnd_keeps _)
  | .lowerCrossing _ _ => .of_timed fun d => (lowerCross_keeps _ _ _).after ((waitPos_keeps _ _ d).mono (S := [.clk, .slots]) rfl) rfl
  | .yOffCount _ => .of_timed (yOffCount_keeps _)
  | .slopeCompStep _ => .of_timed (slopeStep_keeps _)
  | .channelLimitAbove _ _ => .of_keeps (channelLimit_keeps _ _)
  | .dfltHigh _ _ => .of_keeps (dfltHigh_keeps _ _)
  | .readbackTestDone _ _ _ _ => .of_timed (readbackDone_keeps _ _ _ _)
  | .streamResult _ _ _ => .of_timed (streamResult_keeps _ _ _)
  | .modulatorStreamFault _ => .of_keeps (streamFault_keeps _)
  | .inputBudgetArrival _ => .of_keeps (budgetArrival_keeps _)
  | .softStartTimeout _ => execSoftStartTimeout_framed _ s
  | .rampFactorUpdate => .of_timed rampFactorUpdate_keeps
  | .rearmCheckDone _ => .of_keeps (rearmCheckDone_keeps _)
  | .cutEndTimer _ => .of_timed (cutEnd_keeps _)
  | .pulseRampDown _ => .of_timed (pulseRampDown_keeps _)
  | .restStart _ => .of_launchRow (restStart_keeps _)
  | .restSampleEnd _ => .of_timed (restSampleEnd_keeps _)
  | .restEvaluation _ => .of_timed (restEvaluation_keeps _)
  | .restEnd _ => .of_timed (restEnd_keeps _)
  | .recTimeout _ => .of_timed (recTimeout_keeps _)
  | .finTimeout _ => .of_timed (finTimeout_keeps _)
  | .keepTimerExpiry _ => .of_timed (keepTimer_keeps _)
  | .snapshotDone _ => .of_timed (snapshotDone_keeps _)
  | .staggerDeal => .of_timed staggerDeal_keeps
  | .staggerFrameStart => .of_timed staggerFrame_keeps
  | .staggerGainUpdate => .of_timed staggerGain_keeps
  | .budgetUpdate => .of_timed budgetUpdate_keeps
  | .vsysEvaluation => .of_timed vsysEvaluation_keeps
  | .sysFreshnessExpiry _ => .of_timed (sysExpiry_keeps _)
  | .handoverTimeout => .of_timed handoverTimeout_keeps
  | .returnTimeout => .of_timed returnTimeout_keeps
  | .busStateArrival _ => .of_keeps (busArrival_keeps _)
  | .qualTimerExpiry _ => .of_timed (qualTimer_keeps _)
  | .sourceComparatorAbove _ => .of_keeps (srcAbove_keeps _)
  | .halvingRelease => .of_timed halvingRelease_keeps
  | .halvingSustained => .of_timed halvingSustained_keeps
  | .sourceComparatorBelow _ => .of_keeps (srcBelow_keeps _)
  | .sourceGateCheckTimeout _ => .of_timed (srcCheckTimeout_keeps _)
  | .sourceStuckTimeout _ => .of_timed (srcStuck_keeps _)
  | .gateFeedbackLevel _ _ => .of_keeps (gateFeedback_keeps _ _)
  | .pathGateCheckTimeout _ => .of_timed (busEval_behind (pathCheckTimeout_keeps _))
  | .gateRampComplete _ => .of_timed (gateRampDone_keeps _)
  | .presenceConfirmed _ => .of_timed (presenceConfirmed_keeps _)
  | .stringLowTimeout _ => .of_timed (busEval_behind (stringLow_keeps _))
  | .retryTimerExpiry _ => .of_timed (retryTimer_keeps _)
  | .instantTrip _ => .of_keeps (busEval_behind (instantTrip_keeps _))
  | .collapseDetected _ => .of_keeps (collapseDetected_keeps _)
  | .collapseHoldEnd _ => .of_timed (collapseEnd_keeps _)
  | .stuckOnTimeout _ => .of_timed (busEval_behind (stuckOn_keeps _))
  | .arbiterDecision _ => .of_keeps (arbiterDecision_keeps _)
  | .conversionDone _ _ _ => .of_timed (conversionDone_keeps _ _ _)
  | .sequencerDelayExpiry _ => .of_timed (seqDelay_keeps _)
  | .ringRecordWrite _ => .of_keeps (ringRecordWrite_keeps _)
  | .calStepDone => .of_keeps calStepDone_keeps
  | .referenceImplausible _ => .of_keeps (refImplausible_keeps _)
  | .referenceChangeLaunch => .of_timed refChange_keeps
  | .thermalUpdate => .of_keeps (busEval_behind thermalUpdate_keeps)
  | .tjArrival _ => .of_keeps (tjArrival_keeps _)
  | .hkRoundStart => .of_timed hkRoundStart_keeps
  | .hkRoundComplete => .of_keeps hkRoundComplete_keeps
  | .oscillatorLost _ _ => .of_keeps (oscLost_keeps _ _)
  | .faultRaise _ => .of_keeps (busEval_behind (faultRaise_keeps _))
  | .rpathFault _ _ => .of_keeps (busEval_behind (rpathFault_keeps _ _))
  | .rpathRestored _ => .of_keeps (rpathRestored_keeps _)
  | .recoveryGrant _ => .of_timed (recoveryGrant_keeps _)
  | .promotionWindowEnd _ => .of_timed (promotionWindowEnd_keeps _)
  | .logRecordWrite => .of_keeps logRecordWrite_keeps
  | .logSecondEnd => .of_timed logSecondEnd_keeps
  | .captureBufferComplete _ => .of_timed (finishCapture_keeps _)
  | .fiDurationExpiry => .of_timed (busEval_behind fiExpiry_keeps)
  | .newtRequest => .of_timed newtRequest_keeps
  | .swapCheckDone => .of_keeps swapCheckDone_keeps
  | .scrubStep _ => .of_timed (scrubStep_keeps _)
  | .rowRemapDone => .of_keeps rowRemapDone_keeps
  | .correctionWindowExpiry _ _ => .of_timed (correctionExpiry_keeps _ _)
  | .reloadCheckDone => .of_keeps reloadCheckDone_keeps
  | .reloadStopDone => .of_keeps reloadStopDone_keeps
  | .reloadStopTimeout => .of_timed reloadStopTimeout_keeps
  | .reloadWriteDone => .of_keeps finishReload_keeps
  | .reloadRearmLaunch => execReloadRearmLaunch_framed s
  | .armCheckDone => .of_keeps armCheckDone_keeps
  | .ackPollTimer => .of_timed ackPoll_keeps
  | .pageWriteTimeout => .of_timed pageTimeout_keeps
  | .ident _ => .of_keeps (blockRead_keeps _ _ _)
  | .peek _ => .of_keeps (peek_keeps _)
  | .qLoReadLatch _ _ => execQLoReadLatch_framed _ _ s
  | .alertRead _ => .of_keeps (peek_keeps _)
  | .ringRead _ => .of_keeps (ringRead_keeps _)
  | .logRead _ => .of_keeps (logRead_keeps _)
  | .ringAck _ => .of_keeps (ringAck_keeps _)
  | .logAck _ => .of_keeps (logAck_keeps _)
  | .clear _ => .of_keeps (clear_keeps _)
  | .summary _ => .of_keeps (blockRead_keeps _ _ _)
  | .caravanSummary _ => .of_keeps (blockRead_keeps _ _ _)
  | .result _ => .of_keeps (blockRead_keeps _ _ _)
  | .serviceUnlock _ => .of_keeps (serviceUnlock_keeps _)
  | .serviceLock _ => .of_keeps (serviceLock_keeps _)
  | .write _ => .of_keeps (write_keeps _)
  | .writeNarrowI _ _ _ _ => .of_keeps (write_keeps _)
  | .writeNarrowV _ _ _ _ => .of_keeps (write_keeps _)
  | .writeHostStop _ _ _ => .of_keeps (write_keeps _)
  | .fiRsArm _ _ _ => .of_keeps (write_keeps _)
  | .fiPecArm _ _ => .of_keeps (write_keeps _)
  | .fiCrcArm _ _ => .of_keeps (write_keeps _)
  | .fiRailArm _ _ _ _ => .of_keeps (write_keeps _)
  | .armRegion _ => .of_keeps (armRegion_keeps _)
  | .reloadRegion _ => .of_keeps (reloadCmd_keeps _)
  | .inject _ => .of_keeps (inject_keeps _)
  | .calZero _ => .of_keeps (calZero_keeps _)
  | .calFull _ => .of_keeps (calFull_keeps _)
  | .calCommit _ => .of_keeps (calCommitCmd_keeps _)
  | .nvmWrite _ => .of_keeps (nvmWrite_keeps _)
  | .nvmFetch _ => .of_keeps (nvmFetch_keeps _)
  | .nvmData _ => .of_keeps (nvmDataRead_keeps _)
  | .unknownCommand _ => .of_keeps unknownCommand_keeps
  | .busError => .of_keeps busError_keeps
  | .clockLowTimeout => .of_keeps clockLow_keeps
  | .unlockExpiry => .of_timed unlockExpiry_keeps
  | .lockoutEnd => .of_timed lockoutEnds_keeps
  | .alertResponseRead _ _ => .of_keeps (alertResponse_keeps _ _)
  | .pollRoundStart => .of_timed pollRound_keeps
  | .pollDone _ => .of_keeps (pollDone_keeps _)
  | .alertLineTimeout => .of_keeps alertLine_keeps
  | .arbitrationLost _ => .of_keeps (arbitrationLost_keeps _)
  | .arbitrationBackoffEnd => .of_timed backoffEnd_keeps
  | .controllerBusStuck _ _ => .of_keeps (busStuck_keeps _ _)
  | .driverFaultCleared _ => .of_keeps (dfltCleared_keeps _)
  | .referencePlausible _ => .of_keeps (refPlausible_keeps _)
  | .busFree _ => .of_keeps (busFree_keeps _)
  | .sourceComparatorBetween _ => .of_keeps (srcBetween_keeps _)

/-- Settles O8, by the table of what each command's operation keeps. -/
theorem commandFrames : Obligations.CommandFrames := by
  unfold Obligations.CommandFrames
  exact ⟨fun c s _ hc ht => ((exec_framed s c).calm hc).onlyParts ht, fun c s _ ht => (exec_framed s c).any.onlyParts ht⟩

/-! ### The configuration in force -/

/-- Only a message that carries words changes the configuration of its quadrant. -/
theorem deliverQuad_conf {q : Quad} {m : Msg} (d : Device) (h : ∀ o, m ≠ .words o) : (deliverQuad q m d).memory.conf = d.memory.conf := by
  cases m
  case words o => exact absurd rfl (h o)
  case hostStop c v => exact (hostStopArrives_keeps c v d).parts .conf rfl
  case launch l => exact (launchAt_keeps _ l d).parts .conf rfl
  case bus b => exact (busArrives_keeps q b d).parts .conf rfl
  case tj v => exact (tjArrives_keeps q v d).parts .conf rfl
  case halve => exact (halveArrives_keeps q d).parts .conf rfl
  case region k => exact (regionTakes_keeps k d).parts .conf rfl
  all_goals rfl

theorem takeQuad_conf {q : Quad} {l : List Msg} (d : Device) (h : ∀ o, .words o ∉ l) : (takeQuad q l d).memory.conf = d.memory.conf := by
  unfold takeQuad forEach
  induction l generalizing d with
  | nil => rfl
  | cons m l ih => exact (ih _ fun o ho => h o (.tail _ ho)).trans (deliverQuad_conf d fun o e => h o (e ▸ .head _))

theorem drainQuad_conf {x : Crossing} {q : Quad} {d : Device} (h : ∀ o, .words o ∉ fifoOf d x) : (drainQuad x q d).memory.conf = d.memory.conf := by
  unfold drainQuad
  split
  · rfl
  · exact takeQuad_conf _ h

theorem splitMsg_mem {p : Msg → Bool} {l now rest : List Msg} {m : Msg} (h : splitMsg p l = some (now, rest)) (hm : m ∈ now) : m ∈ l := by
  induction l generalizing now rest with
  | nil => cases h
  | cons x l ih =>
    rw [splitMsg] at h
    split at h
    · cases h
      simp_all
    · obtain ⟨r, hr, he⟩ := Option.map_eq_some_iff.1 h
      cases he
      rcases List.mem_cons.1 hm with rfl | hm
      · exact .head _
      · exact .tail _ (ih hr hm)

theorem arrive_conf {q : Quad} {p : Msg → Bool} {d : Device} (h : ∀ o, .words o ∉ fifoOf d (.toQd q)) :
    (arrive q p d).memory.conf = d.memory.conf := by
  unfold arrive
  split
  next now rest hs => exact takeQuad_conf _ fun o ho => h o (splitMsg_mem hs ho)
  · rfl

theorem crossingMessage_conf {x : Crossing} {d : Device} (h : ∀ o, .words o ∉ fifoOf d x) : (crossingMessage x d).memory.conf = d.memory.conf := by
  unfold crossingMessage
  split
  next m rest hm =>
    have hw : ∀ o, m ≠ .words o := fun o e => h o (by rw [hm, e]; exact .head _)
    cases x with
    | toQd q => exact deliverQuad_conf _ hw
    | toHk q => exact (deliverHk_keeps q m _).parts .conf rfl
    | between a b => exact deliverQuad_conf _ hw
  · rfl

theorem launchRequest_conf {i : Island} {a : LaunchAct} {u : Nat} {d : Device} (h : ∀ x o, .words o ∉ fifoOf d x) :
    (launchRequest i a u d).memory.conf = d.memory.conf := by
  unfold launchRequest
  split
  · rfl
  · split
    · dsimp only
      split
      · rfl
      · exact ((launchAt_keeps ..).parts .conf rfl).trans (drainQuad_conf (h _))
    · exact (launchAt_keeps ..).parts .conf rfl

/-- Settles O9: a command that `mayWrite` does not let write the configuration leaves it; of the others, those that deliver messages change it only by
a message with words. -/
theorem configurationWriters : Obligations.ConfigurationWriters := by
  unfold Obligations.ConfigurationWriters
  intro c s t ht hne
  by_cases hc : calm c s.dev = true
  swap
  · simp [hc]
  have hp : (mayWrite c).contains .conf = true := by
    by_contra h
    exact hne ((((exec_framed s c).calm hc).onlyParts ht).1 .conf (by simpa using h))
  have hw {f : Device → Device} (he : exec c s = done f s) (hf : (∀ x o, .words o ∉ fifoOf s.dev x) → (f s.dev).memory.conf = s.dev.memory.conf) :
      ∃ (x : Fin 24) (m : Option Pm), Msg.words m ∈ s.dev.isl.fifo[x] := by
    by_contra hn
    push Not at hn
    rw [he] at ht
    cases ht
    exact hne (hf fun x o => hn (xIndex x) o)
  cases c
  case launchRequest i a u => simpa using Or.inr (hw rfl launchRequest_conf)
  case crossingMessage x => simpa using Or.inr (hw rfl fun h => crossingMessage_conf (h x))
  case inputBudgetArrival c => simpa using Or.inr (hw rfl fun h => arrive_conf (q := Chan.quad c) (h _))
  case busStateArrival q => simpa using Or.inr (hw rfl fun h => arrive_conf (q := q) (h _))
  case tjArrival q => simpa using Or.inr (hw rfl fun h => arrive_conf (q := q) (h _))
  case resetNLow | railFalling | svcHoldExpiry | mirrorBuilt | quietWindowStart | calStepDone | arbiterDecision | calCommit | reloadRearmLaunch => simp
  all_goals cases hp

end Sys2Proof.Machine

/-! The phase engine: what the operations of a slot do to it, and that they leave the other slots. -/

namespace Sys2Proof.Machine

/-! ### Kinds of state that hold whole records -/

theorem onlyParts.start_eq {S : List Part} {d e : Device} (h : onlyParts S d e) (h1 : S.contains .start = false) (h2 : S.contains .devState = false)
    (h3 : S.contains .latch = false) : e.start = d.start := by
  have hr : e.start.rest = d.start.rest := h .start h1
  have hs : e.start.st = d.start.st := h .devState h2
  have hl : (e.start.latchAtStart, e.start.modeUnstable) = (d.start.latchAtStart, d.start.modeUnstable) := h .latch h3
  simp only [Prod.mk.injEq] at hl
  calc e.start = { e.start.rest with st := e.start.st, latchAtStart := e.start.latchAtStart, modeUnstable := e.start.modeUnstable } := rfl
    _ = { d.start.rest with st := d.start.st, latchAtStart := d.start.latchAtStart, modeUnstable := d.start.modeUnstable } := by rw [hr, hs, hl.1, hl.2]
    _ = d.start := rfl

theorem Keeps.start_eq {S : List Part} {d e : Device} (k : Keeps S d e) (h1 : S.contains .start = false) (h2 : S.contains .devState = false)
    (h3 : S.contains .latch = false) : e.start = d.start := k.parts.start_eq h1 h2 h3

/-! ### Output pins -/

theorem drive_pwma (d : Device) (n : Slot) : (drive d).pins.pwma[n] = (d.powerOn && (d.slots[n]).pinA && !(d.slots[n]).pinB) := by simp [drive]

theorem drive_pwmb (d : Device) (n : Slot) : (drive d).pins.pwmb[n] = (d.powerOn && (d.slots[n]).pinB && !(d.slots[n]).pinA) := by simp [drive]

/-! ### Other slots -/

/-- Every slot but n is as before. -/
structure OtherSlots (n : Slot) (d e : Device) : Prop where
  same : ∀ k : Slot, k ≠ n → e.slots[k] = d.slots[k]

theorem OtherSlots.of_eq {n : Slot} {d e : Device} (h : e.slots = d.slots) : OtherSlots n d e := ⟨fun _ _ => by rw [h]⟩

theorem OtherSlots.trans {n : Slot} {d e f : Device} (h : OtherSlots n d e) (k : OtherSlots n e f) : OtherSlots n d f :=
  ⟨fun j hj => (k.same j hj).trans (h.same j hj)⟩

theorem OtherSlots.ite {n : Slot} {d e f : Device} {c : Prop} [Decidable c] (h : OtherSlots n d e) (k : OtherSlots n d f) :
    OtherSlots n d (if c then e else f) := by split <;> assumption

theorem updSlot_others (n : Slot) (f : SlotSt → SlotSt) (d : Device) : OtherSlots n d (d.updSlot n f) := ⟨fun _ hk => upd_other _ _ _ _ hk⟩

theorem OtherSlots.updSlot {n : Slot} {d e : Device} (h : OtherSlots n d e) (f : SlotSt → SlotSt) : OtherSlots n d (e.updSlot n f) :=
  h.trans (updSlot_others n f e)

theorem waitUp_others (n : Slot) (u : Nat) (d : Device) : OtherSlots n d (waitUp u d) := .of_eq rfl

theorem xOff_others (n : Slot) (cend : BitVec 2) (pos : Nat) (d : Device) : OtherSlots n d (xOff n cend pos d) :=
  .ite ((updSlot_others ..).updSlot _) (updSlot_others ..)

theorem yOff_others (n : Slot) (edge : Nat) (d : Device) : OtherSlots n d (yOff n edge d) :=
  .ite ((updSlot_others ..).updSlot _) (updSlot_others ..)

theorem yOffDue_others (n : Slot) (d : Device) : OtherSlots n d (yOffDue n d) :=
  (waitUp_others ..).trans (yOff_others ..)

theorem xRise_others (n : Slot) (edge : Nat) (d : Device) : OtherSlots n d (xRise n edge d) := (updSlot_others ..).updSlot _

theorem waitPos_slots (n : Slot) (pos : Nat) (d : Device) : (waitPos n pos d).slots = d.slots := by
  unfold waitPos
  split <;> rfl

theorem upperCrossing_others (n : Slot) (pos : Nat) (d : Device) : OtherSlots n d (upperCrossing n pos d) :=
  .ite ((updSlot_others ..).trans (xOff_others ..)) (updSlot_others ..)

theorem lowerCross_others (n : Slot) (pos : Nat) (d : Device) : OtherSlots n d (lowerCross n pos d) := by
  unfold lowerCross
  dsimp only
  split
  · exact .ite ((updSlot_others ..).trans (yOff_others ..)) (updSlot_others ..)
  · exact updSlot_others ..

theorem terminate_others (c : Chan) (n : Slot) (d : Device) : OtherSlots n d (terminate c n d) :=
  .ite ((xOff_others n 2 (posFine d n) d).trans (.of_eq rfl)) (.of_eq rfl)

theorem blankingEnd_others (n : Slot) (cmp : Cmp) (d : Device) : OtherSlots n d (blankingEnd n cmp d) := by
  have hw (t : Nat) (f : SlotSt → SlotSt) : OtherSlots n d ((waitUp t d).updSlot n f) := .updSlot (waitUp_others ..) f
  unfold blankingEnd
  split
  · exact .of_eq rfl
  · refine .ite (.ite ?_ (.ite ?_ ?_)) (.ite (.ite ?_ ?_) (.of_eq rfl))
    · exact (hw ..).trans (xOff_others ..)
    · exact (hw ..).trans (terminate_others ..)
    · exact hw ..
    · exact (hw ..).trans (lowerCross_others ..)
    · exact hw ..

theorem saturated_others (n : Slot) (cmp : Cmp) (d : Device) : OtherSlots n d (saturated n cmp d) := (xOff_others n 1 (posFine d n) d).updSlot _

theorem tonMaxReached_others (n : Slot) (cmp : Cmp) (d : Device) : OtherSlots n d (tonMaxReached n cmp d) :=
  .ite ((waitUp_others ..).trans (saturated_others ..)) (.of_eq rfl)

theorem onTimeLimit_others (n : Slot) (cmp : Cmp) (d : Device) : OtherSlots n d (onTimeLimit n cmp d) :=
  .ite ((waitUp_others ..).trans (saturated_others ..)) (.of_eq rfl)

theorem xLate_others (n : Slot) (d : Device) : OtherSlots n d (xLate n d) := by
  have h : OtherSlots n d (if (d.slots[n]).yOn then yOffDue n d else d) := .ite (yOffDue_others n d) (.of_eq rfl)
  exact (h.trans (waitUp_others ..)).trans (xRise_others ..)

theorem deadTimeEnd_others (n : Slot) (d : Device) : OtherSlots n d (deadTimeEnd n d) := by
  refine .ite (xLate_others n d) (.ite (.ite ?_ ?_) (.of_eq rfl))
  · exact .updSlot (.updSlot (waitUp_others ..) _) _
  · exact .updSlot (waitUp_others ..) _

theorem yOffCount_others (n : Slot) (d : Device) : OtherSlots n d (yOffCount n d) := .ite (yOffDue_others n d) (.of_eq rfl)

theorem slopeStep_others (n : Slot) (d : Device) : OtherSlots n d (slopeStep n d) := by
  unfold slopeStep
  split
  · exact .of_eq rfl
  · exact .ite (.updSlot (waitUp_others ..) _) (.of_eq rfl)

/-- A command whose frame leaves the device state drives the other slots' pins as before. -/
theorem done_otherSlots {f : Device → Device} {n : Slot} {s t : State} {S : List Part} (ht : done f s = .next t) (ho : OtherSlots n s.dev (f s.dev))
    (hk : Keeps S s.dev (f s.dev)) (h1 : S.contains .start = false := by rfl) (h2 : S.contains .devState = false := by rfl)
    (h3 : S.contains .latch = false := by rfl) {k : Slot} (hn : k ≠ n) :
    t.dev.slots[k] = s.dev.slots[k] ∧ t.dev.pins.pwma[k] = (drive s.dev).pins.pwma[k] ∧ t.dev.pins.pwmb[k] = (drive s.dev).pins.pwmb[k] := by
  cases ht
  refine ⟨ho.same k hn, ?_, ?_⟩
  · simp only [drive_pwma, Device.powerOn, ho.same k hn, hk.start_eq h1 h2 h3]
  · simp only [drive_pwmb, Device.powerOn, ho.same k hn, hk.start_eq h1 h2 h3]

/-- Settles O10: each of the eight commands works on its own slot alone. -/
theorem slotFrames : Obligations.SlotFrames := by
  unfold Obligations.SlotFrames
  rintro n k cmp pos i s t hn hc ht (rfl | rfl | rfl | rfl | rfl | rfl | rfl | rfl)
  · exact done_otherSlots ((execUpperCrossing_calm n pos s hc).symm.trans ht) (.trans (.of_eq (waitPos_slots ..)) (upperCrossing_others ..))
      ((upperCrossing_keeps ..).after (S := [.clk, .slots]) ((waitPos_keeps ..).mono rfl) rfl) (hn := hn)
  · exact done_otherSlots ((execBlankingEnd_calm n cmp s hc).symm.trans ht) (blankingEnd_others ..) (blankingEnd_keeps ..) (hn := hn)
  · exact done_otherSlots ((execTonMaxReached_calm n cmp s hc).symm.trans ht) (tonMaxReached_others ..) (tonMaxReached_keeps ..) (hn := hn)
  · exact done_otherSlots ((execOnTimeLimit_calm n cmp s hc).symm.trans ht) (onTimeLimit_others ..) (onTimeLimit_keeps ..) (hn := hn)
  · exact done_otherSlots ((execDeadTimeEnd_calm n s hc).symm.trans ht) (deadTimeEnd_others ..) (deadTimeEnd_keeps ..) (hn := hn)
  · exact done_otherSlots ((execLowerCrossing_calm n pos s hc).symm.trans ht) (.trans (.of_eq (waitPos_slots ..)) (lowerCross_others ..))
      ((lowerCross_keeps ..).after (S := [.clk, .slots]) ((waitPos_keeps ..).mono rfl) rfl) (hn := hn)
  · exact done_otherSlots ((execYOffCount_calm n s hc).symm.trans ht) (yOffCount_others ..) (yOffCount_keeps ..) (hn := hn)
  · exact done_otherSlots ((execSlopeCompStep_calm n s hc).symm.trans ht) (slopeStep_others ..) (slopeStep_keeps ..) (hn := hn)

end Sys2Proof.Machine

/-! The supervisory target: what it does with any block write before it looks at its command (R490 to R493, R498 to R501), and its reads and bus
conditions (R489 to R491, R496, R497, R515 to R517). -/

namespace Sys2Proof.Machine

/-! ### Little-endian bytes -/

@[simp] theorem leBytes_length (n x : Nat) : (leBytes n x).length = n := by
  induction n generalizing x with
  | zero => rfl
  | succ n ih => simp [leBytes, ih]

theorem leNat_leBytes (n x : Nat) : leNat (leBytes n x) = x % 256 ^ n := by
  induction n generalizing x with
  | zero => simp [leBytes, leNat, Nat.mod_one]
  | succ n ih =>
    have h : x % 256 ^ (n + 1) = x % 256 + 256 * (x / 256 % 256 ^ n) := by rw [pow_succ', Nat.mod_mul]
    rw [leBytes, leNat, ih, BitVec.toNat_ofNat, h]

/-- A field at the front of the bytes. -/
theorem fld_front {bs : List Byte} {n : Nat} (r : List Byte) (h : bs.length = n) : fld (bs ++ r) 0 n = leNat bs := by
  subst h
  simp [fld]

/-- A field behind the bytes in front. -/
theorem fld_behind {bs : List Byte} {k : Nat} (r : List Byte) (off n : Nat) (h : bs.length = k) : fld (bs ++ r) (k + off) n = fld r off n := by
  subst h
  simp [fld]

/-! ### The answer is a word of the supervisory port -/

theorem record_eq_sup (code : Byte) (res detail : Nat) (d : Device) : record code res detail d = { d with sup := (record code res detail d).sup } := by
  unfold record
  split <;> rfl

@[simp] theorem record_start (code : Byte) (res detail : Nat) (d : Device) : (record code res detail d).start = d.start := by rw [record_eq_sup]
@[simp] theorem record_chans (code : Byte) (res detail : Nat) (d : Device) : (record code res detail d).chans = d.chans := by rw [record_eq_sup]
@[simp] theorem record_quads (code : Byte) (res detail : Nat) (d : Device) : (record code res detail d).quads = d.quads := by rw [record_eq_sup]
@[simp] theorem record_mods (code : Byte) (res detail : Nat) (d : Device) : (record code res detail d).mods = d.mods := by rw [record_eq_sup]
@[simp] theorem record_bootp (code : Byte) (res detail : Nat) (d : Device) : (record code res detail d).bootp = d.bootp := by rw [record_eq_sup]
@[simp] theorem record_cal (code : Byte) (res detail : Nat) (d : Device) : (record code res detail d).cal = d.cal := by rw [record_eq_sup]
@[simp] theorem record_reload (code : Byte) (res detail : Nat) (d : Device) : (record code res detail d).reload = d.reload := by rw [record_eq_sup]
@[simp] theorem record_check (code : Byte) (res detail : Nat) (d : Device) : (record code res detail d).check = d.check := by rw [record_eq_sup]
@[simp] theorem record_memory (code : Byte) (res detail : Nat) (d : Device) : (record code res detail d).memory = d.memory := by rw [record_eq_sup]
@[simp] theorem record_faults (code : Byte) (res detail : Nat) (d : Device) : (record code res detail d).faults = d.faults := by rw [record_eq_sup]
@[simp] theorem record_isl (code : Byte) (res detail : Nat) (d : Device) : (record code res detail d).isl = d.isl := by rw [record_eq_sup]
@[simp] theorem record_arbs (code : Byte) (res detail : Nat) (d : Device) : (record code res detail d).arbs = d.arbs := by rw [record_eq_sup]
@[simp] theorem record_slots (code : Byte) (res detail : Nat) (d : Device) : (record code res detail d).slots = d.slots := by rw [record_eq_sup]
@[simp] theorem record_paths (code : Byte) (res detail : Nat) (d : Device) : (record code res detail d).paths = d.paths := by rw [record_eq_sup]
@[simp] theorem record_profs (code : Byte) (res detail : Nat) (d : Device) : (record code res detail d).profs = d.profs := by rw [record_eq_sup]
@[simp] theorem record_loader (code : Byte) (res detail : Nat) (d : Device) : (record code res detail d).loader = d.loader := by rw [record_eq_sup]
@[simp] theorem record_hk (code : Byte) (res detail : Nat) (d : Device) : (record code res detail d).hk = d.hk := by rw [record_eq_sup]
@[simp] theorem record_seqs (code : Byte) (res detail : Nat) (d : Device) : (record code res detail d).seqs = d.seqs := by rw [record_eq_sup]
@[simp] theorem ack_start (d : Device) : (ack d).start = d.start := rfl
@[simp] theorem ack_chans (d : Device) : (ack d).chans = d.chans := rfl
@[simp] theorem ack_quads (d : Device) : (ack d).quads = d.quads := rfl
@[simp] theorem ack_mods (d : Device) : (ack d).mods = d.mods := rfl
@[simp] theorem ack_bootp (d : Device) : (ack d).bootp = d.bootp := rfl
@[simp] theorem ack_cal (d : Device) : (ack d).cal = d.cal := rfl
@[simp] theorem ack_reload (d : Device) : (ack d).reload = d.reload := rfl
@[simp] theorem ack_check (d : Device) : (ack d).check = d.check := rfl
@[simp] theorem ack_memory (d : Device) : (ack d).memory = d.memory := rfl
@[simp] theorem ack_faults (d : Device) : (ack d).faults = d.faults := rfl
@[simp] theorem ack_isl (d : Device) : (ack d).isl = d.isl := rfl
@[simp] theorem ack_arbs (d : Device) : (ack d).arbs = d.arbs := rfl
@[simp] theorem ack_slots (d : Device) : (ack d).slots = d.slots := rfl
@[simp] theorem ack_paths (d : Device) : (ack d).paths = d.paths := rfl
@[simp] theorem ack_profs (d : Device) : (ack d).profs = d.profs := rfl
@[simp] theorem ack_loader (d : Device) : (ack d).loader = d.loader := rfl
@[simp] theorem ack_hk (d : Device) : (ack d).hk = d.hk := rfl
@[simp] theorem ack_seqs (d : Device) : (ack d).seqs = d.seqs := rfl

/-! ### Block writes -/

/-- A result code with which no command acts. -/
def ActsNot (act : Nat → List Byte → Device → Device) (r : Nat) : Prop := ∀ bs d, act r bs d = d

/-- The block writes are those of R499: each has a judgement of its own and an action that neither a wrong length nor a missing unlock calls for. -/
theorem exec_blockWrite {i : Instr} {code : Byte} {lo hi : Nat} {svc : Bool} {w : BlockWrite} (h : blockOf i = some (code, lo, hi, svc, w)) :
    ∃ judge act, ActsNot act 1 ∧ ActsNot act 3 ∧ ∀ s, exec i s = done (blockWrite code lo hi svc w judge act) s := by
  cases i <;> cases h <;> exact ⟨_, _, fun _ _ => rfl, fun _ _ => rfl, fun _ => rfl⟩

section
variable {code : Byte} {lo hi : Nat} {svc : Bool} {w : BlockWrite} {judge : List Byte → Device → Nat × Nat}
variable {act : Nat → List Byte → Device → Device} {d : Device}

theorem blockWrite_silent (hup : targetUp d = false) : blockWrite code lo hi svc w judge act d = noAck d := if_pos hup

section
variable (hup : targetUp d = true)
include hup

theorem blockWrite_short (h : (w.data ++ w.pec.toList).length < w.count.toNat) : blockWrite code lo hi svc w judge act d = ack d := by
  rw [blockWrite, if_neg (by simp [hup])]
  exact if_pos h

theorem blockWrite_long (h : w.count.toNat + 1 < (w.data ++ w.pec.toList).length) :
    blockWrite code lo hi svc w judge act d = countRefused (noAck (ack d)) := by
  rw [blockWrite, if_neg (by simp [hup])]
  exact (if_neg (by omega)).trans (if_pos h)

variable (hlen : w.data.length = w.count.toNat)
include hlen

theorem blockWrite_noPec (h : w.pec = none) : blockWrite code lo hi svc w judge act d = record code 0x0C 0 (ack d) := by
  simp [blockWrite, hup, h, hlen]

theorem blockWrite_wrongPec {b : Byte} (hb : w.pec = some b) (h : soundBlock code w d = false) :
    blockWrite code lo hi svc w judge act d = (ack d).updSup fun s => { s with pecErr := satInc s.pecErr } := by
  have hne : b ≠ byteOf (crc8 ([addrByte (ack d) false, code, w.count] ++ w.data)) := fun e => by
    have hs : soundBlock code w d = true := by simp [soundBlock, hlen, hb, e]; rfl
    rw [h] at hs
    cases hs
  simp [blockWrite, hup, hb, ← hlen] at hne ⊢
  simp [hne]

end

section
variable (hup : targetUp d = true) (hw : soundBlock code w d = true)
include hup hw

/-- What a sound block write comes to, once the target has acknowledged it. -/
theorem blockWrite_sound : blockWrite code lo hi svc w judge act d =
    let r := if w.data.length < lo ∨ hi < w.data.length then (1, 0) else if svc ∧ unlocked d = false then (3, 0) else judge w.data (ack d)
    record code r.1 r.2 (act r.1 w.data (ack d)) := by
  simp only [soundBlock, Bool.and_eq_true, decide_eq_true_eq] at hw
  obtain ⟨hlen, hpec⟩ := hw
  have ha : addrByte (ack d) false = addrByte d false := rfl
  have hu : unlocked (ack d) = unlocked d := rfl
  simp [blockWrite, hup, hpec, ← hlen, ha, hu]

theorem blockWrite_wrongLength (h : w.data.length < lo ∨ hi < w.data.length) :
    blockWrite code lo hi svc w judge act d = record code 1 0 (act 1 w.data (ack d)) := by
  rw [blockWrite_sound hup hw, if_pos h]

theorem blockWrite_locked (hl : lo ≤ w.data.length) (hh : w.data.length ≤ hi) (hu : unlocked d = false) :
    blockWrite code lo hi true w judge act d = record code 3 0 (act 3 w.data (ack d)) := by
  rw [blockWrite_sound hup hw, if_neg (by omega), if_pos ⟨rfl, hu⟩]

end

end

/-- Settles O54: the target's own refusals, in the order in which it finds them. -/
theorem blockWrites : Obligations.BlockWrites := by
  unfold Obligations.BlockWrites
  refine ⟨fun i code lo hi svc w s h hup => ?_, fun i code lo hi svc w s h hup hl => ?_, fun i code lo hi svc w s h hup hl => ?_,
    fun i code lo hi svc w s h hup hl hp => ?_, fun i code lo hi svc w b s h hup hl hp hs => ?_, fun i code lo hi svc w s h hup hs hl => ?_,
    fun i code lo hi w s h hup hs hlo hhi hu => ?_⟩
  all_goals
    obtain ⟨judge, act, h1, h3, he⟩ := exec_blockWrite h
    refine ⟨_, he s, ?_⟩
  · rw [blockWrite_silent hup]
    exact congrArg drive rfl
  · rw [blockWrite_short hup hl]
    exact congrArg drive rfl
  · rw [blockWrite_long hup hl]
    exact congrArg drive rfl
  · rw [blockWrite_noPec hup hl hp]
    exact ⟨recorded_drive_record (.of_sup_eq rfl) (by decide), by simp, by simp, by simp, by simp, by simp, by simp⟩
  · rw [blockWrite_wrongPec hup hl hp hs]
    exact congrArg drive rfl
  · rw [blockWrite_wrongLength hup hs hl, h1]
    exact ⟨recorded_drive_record (.of_sup_eq rfl) (by decide), by simp, by simp, by simp, by simp, by simp⟩
  · rw [blockWrite_locked hup hs hlo hhi hu, h3]
    exact ⟨recorded_drive_record (.of_sup_eq rfl) (by decide), by simp, by simp, by simp, by simp, by simp, by simp, by simp, by simp⟩

/-! ### Block reads -/

section
variable {code : Byte} {bytes : Device → List Byte} {d : Device}

/-- A read that the host acknowledges to its end carries the PEC (R491). -/
theorem blockRead_whole (hup : targetUp d = true) (hf : d.col.fiPec = false) : blockRead code bytes true d =
    d.updSup fun s => { s with out := readBytes (blockBytes code d) (bytes d), acked := true, freeAt := none, serving := false } := by
  simp [blockRead, hup, respond, hf, readBytes, blockBytes]

theorem blockRead_ended (hup : targetUp d = true) : blockRead code bytes false d =
    d.updSup fun s => { s with out := byteOf (bytes d).length :: bytes d, acked := true, freeAt := none, serving := false } := by
  simp [blockRead, hup, respond]

theorem blockRead_silent {ackLast : Bool} (hup : targetUp d = false) : blockRead code bytes ackLast d = noAck d := by simp [blockRead, hup]

/-- An armed injection inverts the PEC once (R441). -/
theorem blockRead_injected (hup : targetUp d = true) (hf : d.col.fiPec = true) :
    (blockRead code bytes true d).col.fiPec = false ∧
      (blockRead code bytes true d).sup.out = byteOf (bytes d).length :: bytes d ++ [~~~byteOf (crc8 (blockBytes code d ++ byteOf (bytes d).length :: bytes d))] := by
  have k (e : Device) := fiEvent_keeps e
  have hfi (e : Device) : (fiEvent e).col.fiPec = e.col.fiPec := by
    have h : ((fiEvent e).col.fiRsN, (fiEvent e).col.fiRsReg, (fiEvent e).col.fiPec, (fiEvent e).col.fiCrc, (fiEvent e).col.fiFsrc,
        (fiEvent e).col.fiMode, (fiEvent e).col.fiMs, (fiEvent e).col.fiAt) = _ := (k e).parts .fi rfl
    exact congrArg (·.2.2.1) h
  have ho (e : Device) : (fiEvent e).sup.rest.out = e.sup.rest.out := congrArg SupSt.out ((k e).parts .sup rfl)
  simp only [blockRead, hup, respond, hf, if_true]
  exact ⟨(hfi _).trans rfl, (ho _).trans (by simp [SupSt.rest, blockBytes])⟩

end

theorem caravanBytes_length (d : Device) : (caravanBytes d).length = if d.cvn.source then 228 else 4 := by
  have he (id : Nat) : (entryBytes d id).length = 14 := by simp [entryBytes]
  have hs : ((List.range 16).flatMap (entryBytes d)).length = 224 := by simp [List.length_flatMap, he]
  unfold caravanBytes
  split
  · simp [hs]
  · simp

end Sys2Proof.Machine

namespace Sys2Proof.Machine

/-! ### The bus and the alert line -/

theorem unlockExpiry_of_end {d : Device} {u : Nat} (h : d.sup.unlockEnd = some u) :
    unlockExpiry d = (waitUp u d).updSup fun s => { s with unlockEnd := none } := by rw [unlockExpiry, h]

theorem unlockExpiry_of_none {d : Device} (h : d.sup.unlockEnd = none) : unlockExpiry d = d := by rw [unlockExpiry, h]

theorem readBytes_getLast? (pre bytes : List Byte) :
    (readBytes pre bytes).getLast? = some (byteOf (crc8 (pre ++ byteOf bytes.length :: bytes))) := by
  rw [readBytes, List.getLast?_concat]

theorem readBytes_dropLast (pre bytes : List Byte) : (readBytes pre bytes).dropLast = byteOf bytes.length :: bytes := by
  rw [readBytes, List.dropLast_concat]

theorem nvmDataRead_ready {d : Device} (hup : targetUp d = true) (hf : d.col.fiPec = false) (hu : unlocked d = true) (hop : d.bootp.nvmOp ≠ 2)
    (hr : d.bootp.nvmReady = true) : nvmDataRead true d =
      d.updSup fun s => { s with out := readBytes (blockBytes 0x1B d) (0 :: d.bootp.nvmBuf), acked := true, freeAt := none, serving := false } := by
  have hc : nvmDataCode d = 0 := by
    simp only [nvmDataCode, hu, hr, if_neg hop]
    rfl
  simp only [nvmDataRead, hc, blockRead_whole hup hf]
  simp [byteOf]

/-- NVM_DATA asks for the unlock (R498). -/
theorem nvmDataRead_locked {d : Device} (hup : targetUp d = true) (hf : d.col.fiPec = false) (hu : unlocked d = false) : nvmDataRead true d =
    countRefused (d.updSup fun s => { s with out := readBytes (blockBytes 0x1B d) [0x03], acked := true, freeAt := none, serving := false }) := by
  have hc : nvmDataCode d = 3 := by simp [nvmDataCode, hu]
  simp only [nvmDataRead, hc, blockRead_whole hup hf]
  simp [hup, byteOf]

/-- The winner of an Alert Response releases the line (R516). -/
theorem alertResponse_wins {d : Device} (hup : targetUp d = true) (ha : d.sup.alertDrive = true) (hf : d.col.fiPec = false) :
    alertResponse true true d = d.updSup fun s => { s with
      out := [addrByte d false, byteOf (crc8 [0x19, addrByte d false])], acked := true, alertDrive := false, freeAt := none, serving := false } := by
  simp [alertResponse, hup, ha, hf]

theorem alertResponse_loses {d : Device} (hup : targetUp d = true) (ha : d.sup.alertDrive = true) (ackLast : Bool) :
    alertResponse false ackLast d = ack d := by simp [alertResponse, hup, ha]

theorem alertResponse_idle {d : Device} (ha : d.sup.alertDrive = false) (wins ackLast : Bool) : alertResponse wins ackLast d = noAck d := by
  simp [alertResponse, ha]

theorem unknownCommand_up {d : Device} (h : targetUp d = true) : unknownCommand d = countRefused (noAck d) := if_pos h

theorem unknownCommand_silent {d : Device} (h : targetUp d = false) : unknownCommand d = noAck d := if_neg (by simp [h])

theorem busError_up {d : Device} (h : targetUp d = true) : busError d = (noAck d).updSup fun s => { s with busErr := satInc s.busErr } := if_pos h

theorem clockLow_up {d : Device} (h : targetUp d = true) : clockLow d = (noAck d).updSup fun s => { s with timeouts := satInc s.timeouts } := if_pos h

/-- Settles O52: each read by whether the target answers and how far the host reads, each condition by the counter it steps. -/
theorem readsAndBus : Obligations.ReadsAndBus := by
  unfold Obligations.ReadsAndBus
  refine ⟨fun s hup hf => ⟨⟨_, rfl, ?_⟩, ⟨_, rfl, ?_⟩, ⟨_, rfl, ?_⟩, _, rfl, ?_⟩, fun s hup hf hu hop hr => ⟨_, rfl, ?_⟩,
    fun s hup hf hu => ⟨_, rfl, ?_⟩, fun a s hup => ⟨_, rfl, ?_⟩, fun s hup => ⟨_, rfl, ?_⟩, fun s hup hf => ⟨_, rfl, ?_⟩,
    fun d => ⟨?_, ?_, ?_, caravanBytes_length d⟩, fun code s hup => ⟨_, rfl, ?_⟩, fun s hup => ⟨_, rfl, ?_⟩, fun s hup => ⟨_, rfl, ?_⟩,
    fun code s hup => ⟨_, rfl, ?_⟩, fun s hup ha hf => ⟨_, rfl, ?_⟩, fun a s hup ha => ⟨_, rfl, ?_⟩, fun w a s ha => ⟨_, rfl, ?_⟩,
    fun u s hc hu => ⟨_, execUnlockExpiry_calm s hc, ?_⟩, fun s hc hu => ⟨_, execUnlockExpiry_calm s hc, ?_⟩,
    fun u s hc hu => ⟨_, execLockoutEnd_calm s hc, ?_⟩⟩
  · exact congrArg drive (blockRead_whole hup hf)
  · exact congrArg drive (blockRead_whole hup hf)
  · exact congrArg drive (blockRead_whole hup hf)
  · exact congrArg drive (blockRead_whole hup hf)
  · rw [nvmDataRead_ready hup hf hu hop hr]
    exact ⟨rfl, rfl⟩
  · rw [nvmDataRead_locked hup hf hu]
    exact ⟨rfl, rfl⟩
  · exact congrArg drive (blockRead_silent hup)
  · exact congrArg drive (blockRead_ended hup)
  · obtain ⟨h, ho⟩ := blockRead_injected (code := 0x08) (bytes := summaryBytes) hup hf
    simp only [drive_col, drive_sup, h, ho, readBytes_getLast?, readBytes_dropLast, List.getLast?_concat, List.dropLast_concat, true_and, and_true]
    rfl
  · simp [identBytes]
  · simp [summaryBytes]
  · simp [resultBytes]
  · rw [unknownCommand_up hup]
    exact ⟨rfl, rfl, rfl, rfl⟩
  · rw [busError_up hup]
    exact ⟨rfl, rfl, rfl⟩
  · rw [clockLow_up hup]
    exact ⟨rfl, rfl, rfl⟩
  · exact congrArg drive (unknownCommand_silent hup)
  · rw [alertResponse_wins hup ha hf]
    exact ⟨rfl, rfl, rfl, rfl⟩
  · rw [alertResponse_loses hup ha]
    exact ⟨ha, rfl, rfl⟩
  · rw [alertResponse_idle ha]
    exact ⟨rfl, rfl, ha⟩
  · rw [unlockExpiry_of_end hu]
    exact ⟨waitUp_up _ _, rfl, unlocked_of_none rfl⟩
  · rw [unlockExpiry_of_none hu]
  · rw [lockoutEnds_eq hu]
    exact waitUp_up _ _

end Sys2Proof.Machine

/-! The writes and reads of one named word (R222, R233, R441, R442, R515): what they may change. -/

namespace Sys2Proof.Machine

/-! ### WRITE of a word -/

/-- A block write changes the supervisory port alone, or its command is judged and acts before the answer (R490 to R493). -/
theorem blockWrite_cases (code : Byte) (lo hi : Nat) (svc : Bool) (w : BlockWrite) (judge : List Byte → Device → Nat × Nat)
    (act : Nat → List Byte → Device → Device) (d : Device) : Keeps [.sup] d (blockWrite code lo hi svc w judge act d) ∨
    ∃ r detail, blockWrite code lo hi svc w judge act d =
      record code r detail (act r ((w.data ++ w.pec.toList).take w.count.toNat) (ack d)) := by
  unfold blockWrite
  dsimp only
  split
  · exact .inl (noAck_keeps d)
  split
  · exact .inl (ack_keeps d)
  split
  · exact .inl ((countRefused_keeps ..).after ((noAck_keeps ..).after (ack_keeps d) rfl) rfl)
  split
  · exact .inl ((record_keeps ..).after (ack_keeps d) rfl)
  split
  · exact .inl ((ack_keeps d).trans (updSup_keeps (ack d) fun _ => ⟨nofun, fun _ => rfl⟩))
  · exact .inr ⟨_, _, rfl⟩

section
variable {a k v : Nat} (ha : a < 2 ^ 24) (hk : k < 2 ^ 32) (hv : v < 2 ^ 32) (pec : Option Byte)

theorem writeOf_length : (writeOf a k v pec).data.length = 11 := by simp [writeOf]

include ha in
theorem writeOf_addr : fld (writeOf a k v pec).data 0 3 = a := by
  rw [writeOf, List.append_assoc, fld_front _ (leBytes_length ..), leNat_leBytes]
  exact Nat.mod_eq_of_lt ha

include hk in
theorem writeOf_mask : fld (writeOf a k v pec).data 3 4 = k := by
  rw [writeOf, List.append_assoc, fld_behind _ 0 4 (leBytes_length ..), fld_front _ (leBytes_length ..), leNat_leBytes]
  exact Nat.mod_eq_of_lt hk

include hv in
theorem writeOf_value : fld (writeOf a k v pec).data 7 4 = v := by
  rw [writeOf, fld_behind (k := 7) _ 0 4 (by simp), ← List.append_nil (leBytes 4 v), fld_front _ (leBytes_length ..), leNat_leBytes]
  exact Nat.mod_eq_of_lt hv

include ha hk hv in
/-- The write of a word answers alone, or writes the word and answers. -/
theorem write_writeOf_cases (d : Device) : Keeps [.sup] d (write (writeOf a k v pec) d) ∨
    ∃ res detail, write (writeOf a k v pec) d = record 0x12 res detail (writeWord a k v (ack d)) := by
  have ht : ((writeOf a k v pec).data ++ (writeOf a k v pec).pec.toList).take (writeOf a k v pec).count.toNat = (writeOf a k v pec).data :=
    List.take_left' (writeOf_length pec)
  unfold write
  rcases blockWrite_cases 0x12 11 11 true (writeOf a k v pec) _ _ d with h | ⟨r, detail, h⟩
  · exact .inl h
  · rw [h, ht, ifOk, writeOf_addr ha, writeOf_mask hk, writeOf_value hv]
    split
    · exact .inr ⟨r, detail, rfl⟩
    · exact .inl ((record_keeps ..).after (ack_keeps d) rfl)

include ha hk hv in
/-- What a write of a word may change, apart from the supervisory port: what writing the word may change. -/
theorem write_writeOf_keeps {S : List Part} (hS : sub [.sup] S = true) {d : Device} (h : Keeps S (ack d) (writeWord a k v (ack d))) :
    Keeps S d (write (writeOf a k v pec) d) := by
  rcases write_writeOf_cases ha hk hv pec d with hc | ⟨res, detail, hc⟩
  · exact hc.mono hS
  · rw [hc]
    exact (record_keeps ..).after (((ack_keeps d).mono hS).trans h) hS

end

/-! ### The named words -/

theorem locate_narrow (c : Chan) : locate (0x110018 + 128 * c.1) = some (.chan c 0x18) := by revert c; decide
theorem locate_hostStop (c : Chan) : locate (0x11001C + 128 * c.1) = some (.chan c 0x1C) := by revert c; decide
theorem locate_fiMem : locate 0x100220 = some (.dev 0x220) := by decide
theorem locate_fiRail : locate 0x100224 = some (.dev 0x224) := by decide
theorem locate_alert : locate 0x100300 = some (.dev 0x300) := by decide

/-- The words of the host narrowings hold no W1C bit. -/
theorem writeWord_narrow (c : Chan) (k v : Nat) (d : Device) : writeWord (0x110018 + 128 * c.1) k v d =
    if k &&& 0xFFFFFFFF = 0 then d else narrowWrite c (maskMix k (wordAt d (.chan c 0x18)).toNat v) d := by
  rw [writeWord, locate_narrow]
  rfl

theorem writeWord_hostStop (c : Chan) (k v : Nat) (d : Device) : writeWord (0x11001C + 128 * c.1) k v d =
    if k &&& 1 = 0 then d else hostStopWrite c (bitOf (maskMix k (wordAt d (.chan c 0x1C)).toNat v) 0) d := by
  rw [writeWord, locate_hostStop]
  rfl

theorem writeWord_fiMem (k v : Nat) (d : Device) : writeWord 0x100220 k v d =
    if k &&& 0xFF = 0 then d else fiMemWrite k (maskMix k (wordAt d (.dev 0x220)).toNat v) d := by
  rw [writeWord, locate_fiMem]
  rfl

theorem writeWord_fiRail (k v : Nat) (d : Device) : writeWord 0x100224 k v d =
    if k &&& 0xFFFF3FFF = 0 then d else busEval (fiRailWrite (maskMix k (wordAt d (.dev 0x224)).toNat v) d) := by
  rw [writeWord, locate_fiRail]
  rfl

theorem narrow_addr_lt (c : Chan) : 0x110018 + 128 * c.1 < 2 ^ 24 := by have := c.2; omega
theorem hostStop_addr_lt (c : Chan) : 0x11001C + 128 * c.1 < 2 ^ 24 := by have := c.2; omega

theorem write_narrow_keeps (c : Chan) {k v : Nat} (hk : k < 2 ^ 32) (hv : v < 2 ^ 32) (pec : Option Byte) (d : Device) :
    Keeps [.isl, .chans, .sup] d (write (writeOf (0x110018 + 128 * c.1) k v pec) d) := by
  refine write_writeOf_keeps (narrow_addr_lt c) hk hv pec rfl ?_
  rw [writeWord_narrow]
  exact .ite (.refl _ _) ((narrowWrite_keeps ..).mono rfl)

theorem write_hostStop_keeps (c : Chan) (stop : Bool) (pec : Option Byte) (d : Device) :
    Keeps [.isl, .chans, .sup] d (write (writeOf (0x11001C + 128 * c.1) 1 (b2n stop) pec) d) := by
  refine write_writeOf_keeps (hostStop_addr_lt c) (by decide) (by cases stop <;> decide) pec rfl ?_
  rw [writeWord_hostStop]
  exact .ite (.refl _ _) ((hostStopWrite_keeps ..).mono rfl)

theorem write_fiMem_keeps {k v : Nat} (hk : k < 2 ^ 32) (hv : v < 2 ^ 32) (pec : Option Byte) (d : Device) :
    Keeps [.arbs, .log, .fi, .sup] d (write (writeOf 0x100220 k v pec) d) := by
  refine write_writeOf_keeps (by decide) hk hv pec rfl ?_
  rw [writeWord_fiMem]
  exact .ite (.refl _ _) ((fiMemWrite_keeps ..).mono rfl)

theorem write_fiRail_keeps {k v : Nat} (hk : k < 2 ^ 32) (hv : v < 2 ^ 32) (pec : Option Byte) (d : Device) :
    Keeps (raises ++ [.isl, .quads, .bus, .fi, .sup]) d (write (writeOf 0x100224 k v pec) d) := by
  refine write_writeOf_keeps (by decide) hk hv pec rfl ?_
  rw [writeWord_fiRail]
  exact .ite (.refl _ _) ((busEval_keeps ..).after ((fiRailWrite_keeps ..).mono rfl) rfl)

/-! ### The read of `ALERT` -/

theorem peekWords_peekOne {a : Nat} (ha : a < 2 ^ 24) (ackLast : Bool) : peekWords (peekOne a ackLast).data = [locate a] := by
  have h1 : fld (peekOne a ackLast).data 3 1 = 1 := by
    rw [peekOne, fld_behind _ 0 1 (leBytes_length ..)]
    decide
  have h0 : fld (peekOne a ackLast).data 0 3 = a := by
    rw [peekOne, fld_front _ (leBytes_length ..), leNat_leBytes]
    exact Nat.mod_eq_of_lt ha
  simp [peekWords, h1, h0]

theorem Keeps.processCall_args {S : List Part} {code : Byte} {n : Nat} {p : ProcessCall} {judge : List Byte → Device → Nat}
    {reply : List Byte → Device → List Byte} {eff : List Byte → Device → Device} {d : Device} (he : ∀ e, Keeps S e (eff p.data e))
    (hs : sub [.arbs, .log, .fi, .sup] S = true) (hs' : sub [.sup] S = true) :
    Keeps S d (Sys2Proof.Machine.processCall code n p judge reply eff d) := by
  have hr (pre bytes : List Byte) : Keeps S d (broken p.cut (respond pre bytes p.ackLast d)) := (broken_keeps ..).after ((respond_keeps ..).mono hs) hs'
  unfold Sys2Proof.Machine.processCall
  refine .ite ((noAck_keeps d).mono hs') (.ite ((countRefused_keeps ..).after ((noAck_keeps d).mono hs') hs') (.ite ?_ ?_))
  · exact (hr ..).trans (he _)
  · exact (countRefused_keeps ..).after (hr ..) hs'

theorem peek_alert_keeps (ackLast : Bool) (d : Device) : Keeps [.arbs, .log, .fi, .sup, .alert] d (peek (peekOne 0x100300 ackLast) d) := by
  refine Keeps.processCall_args (fun e => ?_) rfl rfl
  have hw : sentWords (peekOne 0x100300 ackLast) = [locate 0x100300] := peekWords_peekOne (by decide) ackLast
  rw [hw, locate_alert]
  change Keeps _ e (e.updSup fun s => { s with alert := 0, alertDrive := false })
  exact updSup_keeps e fun _ => ⟨nofun, nofun⟩

/-- Settles O12: the frame of the named word, and what an answer leaves alone. -/
theorem namedWordFrames : Obligations.NamedWordFrames := by
  unfold Obligations.NamedWordFrames
  refine ⟨fun c mask value stop pec s t h => ?_, fun n reg on v pec s t h => ?_, fun f m x pec s t h => ?_, fun ackLast s t h => ?_⟩
  · rcases h with h | h | h <;> cases h
    · exact (write_narrow_keeps c (by omega) (by omega) pec s.dev).drive.parts
    · exact (write_narrow_keeps c (by omega) (by omega) pec s.dev).drive.parts
    · exact (write_hostStop_keeps c stop pec s.dev).drive.parts
  · rcases h with h | h | h <;> cases h
    · exact (write_fiMem_keeps (by decide) (by omega) pec s.dev).drive.parts
    · exact (write_fiMem_keeps (by decide) (by cases on <;> decide) pec s.dev).drive.parts
    · exact (write_fiMem_keeps (by decide) (by omega) pec s.dev).drive.parts
  · cases h
    exact (write_fiRail_keeps (by decide) (by omega) pec s.dev).drive.parts
  · cases h
    exact (peek_alert_keeps ackLast s.dev).drive.parts

end Sys2Proof.Machine

/-! The channels: commands of one channel that leave the others alone. -/

namespace Sys2Proof.Machine

/-- Every channel but c, its profile and its path are as before. -/
structure OtherChans (c : Chan) (d e : Device) : Prop where
  chan : ∀ k : Chan, k ≠ c → e.chans[k] = d.chans[k]
  prof : ∀ k : Chan, k ≠ c → e.profs[k] = d.profs[k]
  path : ∀ k : Chan, k ≠ c → e.paths[k] = d.paths[k]

namespace OtherChans
variable {c : Chan} {d e f : Device}

theorem trans (h : OtherChans c d e) (k : OtherChans c e f) : OtherChans c d f :=
  ⟨fun j hj => (k.chan j hj).trans (h.chan j hj), fun j hj => (k.prof j hj).trans (h.prof j hj), fun j hj => (k.path j hj).trans (h.path j hj)⟩

theorem refl (c : Chan) (d : Device) : OtherChans c d d := ⟨fun _ _ => rfl, fun _ _ => rfl, fun _ _ => rfl⟩

theorem ite {p : Prop} [Decidable p] (h : OtherChans c d e) (k : OtherChans c d f) : OtherChans c d (if p then e else f) := by split <;> assumption

theorem of_keeps {S : List Part} (k : Keeps S d e) (h1 : S.contains .chans = false := by rfl) (h2 : S.contains .profs = false := by rfl)
    (h3 : S.contains .paths = false := by rfl) : OtherChans c d e :=
  have hc : e.chans = d.chans := k.parts .chans h1
  have hf : e.profs = d.profs := k.parts .profs h2
  have hp : e.paths = d.paths := k.parts .paths h3
  ⟨fun _ _ => by rw [hc], fun _ _ => by rw [hf], fun _ _ => by rw [hp]⟩

theorem updChan (h : OtherChans c d e) (u : ChanSt → ChanSt) : OtherChans c d (e.updChan c u) :=
  h.trans ⟨fun _ hk => upd_other _ _ _ _ hk, fun _ _ => rfl, fun _ _ => rfl⟩

theorem updProf (h : OtherChans c d e) (u : ProfSt → ProfSt) : OtherChans c d (e.updProf c u) :=
  h.trans ⟨fun _ _ => rfl, fun _ hk => upd_other _ _ _ _ hk, fun _ _ => rfl⟩

theorem updPath (h : OtherChans c d e) (u : PathSt → PathSt) : OtherChans c d (e.updPath c u) :=
  h.trans ⟨fun _ _ => rfl, fun _ _ => rfl, fun _ hk => upd_other _ _ _ _ hk⟩

end OtherChans

section
variable (c : Chan) (d : Device)

theorem waitUp_otherChans (u : Nat) : OtherChans c d (waitUp u d) := .of_keeps (waitUp_keeps u d)

theorem waitLoc_otherChans (u : Nat) : OtherChans c d (waitLoc u d) := .of_keeps (waitLoc_keeps u d)

theorem regate_otherChans : OtherChans c d (regate c d) := by
  have h : OtherChans c d (((d.updChan c fun s => { s with gate := gateWanted d c, chBelow := false }).updPath c fun p =>
      { p with instCode := !gateWanted d c }).updProf c fun p => { p with carried := true, zeroAt := if gateWanted d c then none else some d.up }) :=
    (((OtherChans.refl c d).updChan _).updPath _).updProf _
  exact .ite (.refl c d) (.ite h (h.trans (.of_keeps (S := [.slots]) (Keeps.forEach slotGateOff_keeps (.refl ..)))))

theorem cutEnd_otherChans : OtherChans c d (cutEnd c d) := by
  unfold cutEnd
  dsimp only
  split
  · exact ((waitUp_otherChans c d _).updChan _).trans (.of_keeps (quadEvent_keeps ..))
  · exact .refl c d

theorem pulseRampDown_otherChans : OtherChans c d (pulseRampDown c d) := by
  unfold pulseRampDown
  split
  · exact .ite ((waitLoc_otherChans c d _).updChan _) (.refl c d)
  · exact .refl c d

theorem restNow_otherChans : OtherChans c d (restNow c d) := by
  unfold restNow
  refine .ite (.refl c d) (.ite ?_ (.ite ?_ ?_))
  · exact ((OtherChans.refl c d).updProf _).updProf _
  · exact ((((OtherChans.refl c d).updProf _).updProf _).updChan _).trans (regate_otherChans ..)
  · exact (OtherChans.refl c d).updProf _

theorem restStart_otherChans : OtherChans c d (restStart c d) := by
  unfold restStart
  split
  · refine OtherChans.trans (.ite ?_ (waitLoc_otherChans ..)) (restNow_otherChans ..)
    exact .of_keeps ((launchLate_keeps ..).after (S := [.arbs, .clk, .isl, .halt, .log]) ((pass_keeps ..).mono rfl) rfl)
  · exact .refl c d

theorem restSampleEnd_otherChans : OtherChans c d (restSampleEnd c d) :=
  .ite ((waitUp_otherChans c d _).updProf _) (.refl c d)

theorem restEnd_otherChans : OtherChans c d (restEnd c d) := by
  unfold restEnd
  dsimp only
  split
  · exact ((((waitUp_otherChans c d _).updProf _).updProf _).updChan _).trans (regate_otherChans ..)
  · exact .refl c d

theorem keepTimer_otherChans : OtherChans c d (keepTimer c d) := by
  unfold keepTimer
  split
  · exact (waitUp_otherChans c d _).updProf _
  · exact .refl c d

theorem retryTimer_otherChans : OtherChans c d (retryTimer c d) := by
  unfold retryTimer
  split
  · exact (waitUp_otherChans c d _).updPath _
  · exact .refl c d

theorem tryInsert_otherChans : OtherChans c d (tryInsert c d) := by
  unfold tryInsert
  dsimp only
  split
  · exact .ite (.ite (((OtherChans.refl c d).updPath _).updPath _) ((OtherChans.refl c d).updPath _)) (.refl c d)
  · exact .refl c d

theorem presenceConfirmed_otherChans : OtherChans c d (presenceConfirmed c d) := by
  unfold presenceConfirmed
  split
  · exact (waitUp_otherChans c d _).trans (tryInsert_otherChans ..)
  · exact .refl c d

theorem narrowWrite_otherChans (x : Nat) : OtherChans c d (narrowWrite c x d) :=
  ((OtherChans.refl c d).updChan _).trans (.of_keeps (send_keeps ..))

theorem hostStopWrite_otherChans (v : Bool) : OtherChans c d (hostStopWrite c v d) :=
  ((OtherChans.refl c d).updChan _).trans (.of_keeps (send_keeps ..))

/-- A write of a word whose writing leaves the other channels leaves them. -/
theorem write_writeOf_otherChans {a k v : Nat} (ha : a < 2 ^ 24) (hk : k < 2 ^ 32) (hv : v < 2 ^ 32) (pec : Option Byte)
    (h : OtherChans c (ack d) (writeWord a k v (ack d))) : OtherChans c d (write (writeOf a k v pec) d) := by
  rcases write_writeOf_cases ha hk hv pec d with hc | ⟨res, detail, hc⟩
  · exact .of_keeps hc
  · rw [hc]
    exact (OtherChans.of_keeps (ack_keeps d)).trans (h.trans (.of_keeps (record_keeps ..)))

theorem write_narrow_otherChans {k v : Nat} (hk : k < 2 ^ 32) (hv : v < 2 ^ 32) (pec : Option Byte) :
    OtherChans c d (write (writeOf (0x110018 + 128 * c.1) k v pec) d) := by
  refine write_writeOf_otherChans c d (narrow_addr_lt c) hk hv pec ?_
  rw [writeWord_narrow]
  exact .ite (.refl _ _) (narrowWrite_otherChans ..)

theorem write_hostStop_otherChans (stop : Bool) (pec : Option Byte) :
    OtherChans c d (write (writeOf (0x11001C + 128 * c.1) 1 (b2n stop) pec) d) := by
  refine write_writeOf_otherChans c d (hostStop_addr_lt c) (by decide) (by cases stop <;> decide) pec ?_
  rw [writeWord_hostStop]
  exact .ite (.refl _ _) (hostStopWrite_otherChans ..)

end

theorem done_otherChans {f : Device → Device} {c : Chan} {s t : State} (ht : done f s = .next t) (ho : OtherChans c s.dev (f s.dev)) {k : Chan}
    (hk : k ≠ c) : t.dev.chans[k] = s.dev.chans[k] ∧ t.dev.profs[k] = s.dev.profs[k] ∧ t.dev.paths[k] = s.dev.paths[k] := by
  cases ht
  exact ⟨ho.chan k hk, ho.prof k hk, ho.path k hk⟩

/-- Settles O11: each of the eleven commands works on its own channel. -/
theorem channelFrames : Obligations.ChannelFrames := by
  unfold Obligations.ChannelFrames
  rintro c k mask value stop pec i s t hn hc ht (rfl | rfl | rfl | rfl | rfl | rfl | rfl | rfl | rfl | rfl | rfl)
  · exact done_otherChans ((execCutEndTimer_calm c s hc).symm.trans ht) (cutEnd_otherChans c s.dev) hn
  · exact done_otherChans ((execPulseRampDown_calm c s hc).symm.trans ht) (pulseRampDown_otherChans c s.dev) hn
  · exact done_otherChans ((execRestStart_calm c s hc).symm.trans ht) (restStart_otherChans c s.dev) hn
  · exact done_otherChans ((execRestSampleEnd_calm c s hc).symm.trans ht) (restSampleEnd_otherChans c s.dev) hn
  · exact done_otherChans ((execRestEnd_calm c s hc).symm.trans ht) (restEnd_otherChans c s.dev) hn
  · exact done_otherChans ((execKeepTimerExpiry_calm c s hc).symm.trans ht) (keepTimer_otherChans c s.dev) hn
  · exact done_otherChans ((execRetryTimerExpiry_calm c s hc).symm.trans ht) (retryTimer_otherChans c s.dev) hn
  · exact done_otherChans ((execPresenceConfirmed_calm c s hc).symm.trans ht) (presenceConfirmed_otherChans c s.dev) hn
  · exact done_otherChans ht (write_narrow_otherChans c s.dev (by omega) (by omega) pec) hn
  · exact done_otherChans ht (write_narrow_otherChans c s.dev (by omega) (by omega) pec) hn
  · exact done_otherChans ht (write_hostStop_otherChans c s.dev stop pec) hn

end Sys2Proof.Machine

/-! Process calls (R490, R500): PEEK, RING_READ and LOG_READ, and what a read clears (R271, R494, R502, R503). -/

namespace Sys2Proof.Machine

/-! ### Reads decode codewords: what that leaves -/

theorem ite_bytes {p : Prop} [Decidable p] {d e f : Device} (h : e.memory.mem = d.memory.mem) (k : f.memory.mem = d.memory.mem) :
    (if p then e else f).memory.mem = d.memory.mem := by split <;> assumption

theorem cwDecode_bytes (scrub : Bool) (k : Nat) (d : Device) : (cwDecode scrub k d).memory.mem = d.memory.mem := by
  have hu (d : Device) : (ueFound scrub k d).memory.mem = d.memory.mem := by
    unfold ueFound
    dsimp only
    split
    · rfl
    · exact (ueRaise_keeps ..).bytes_eq rfl
  have hm (r : Nat × Nat) (d : Device) : (remapRow r d).memory.mem = d.memory.mem := by
    unfold remapRow
    dsimp only
    have ha (f : MemSt → MemSt) (hf : (f d.memory).mem = d.memory.mem) : (arbRequest wport 1 (d.updMem f)).memory.mem = d.memory.mem :=
      ((arbRequest_keeps ..).bytes_eq rfl).trans hf
    split
    · rfl
    · split
      · exact ((raise_keeps ..).bytes_eq rfl).trans (ha _ rfl)
      · exact ha _ rfl
  have hr (d : Device) : (rowCorrected k d).memory.mem = d.memory.mem := ite_bytes ((hm ..).trans rfl) rfl
  unfold cwDecode
  split
  · exact hu d
  split
  · exact (hr _).trans (((arbRequest_keeps ..).bytes_eq rfl).trans rfl)
  · rfl

theorem cwRead_bytes (k : Nat) (d : Device) : (cwRead k d).memory.mem = d.memory.mem := cwDecode_bytes false k d

/-- The write and the read index of the event log are as before. -/
structure KeepsLogIndices (d e : Device) : Prop where
  wr : e.col.logWr = d.col.logWr
  rd : e.col.logRd = d.col.logRd

namespace KeepsLogIndices
variable {d e f : Device}

theorem refl (d : Device) : KeepsLogIndices d d := ⟨rfl, rfl⟩

theorem trans (h : KeepsLogIndices d e) (k : KeepsLogIndices e f) : KeepsLogIndices d f := ⟨k.wr.trans h.wr, k.rd.trans h.rd⟩

theorem ite {p : Prop} [Decidable p] (h : KeepsLogIndices d e) (k : KeepsLogIndices d f) : KeepsLogIndices d (if p then e else f) := by
  split <;> assumption

theorem of_keeps {S : List Part} (k : Keeps S d e) (h : S.contains .log = false := by rfl) : KeepsLogIndices d e := by
  have hl : (e.col.logWr, e.col.logRd, e.col.logOvw, e.col.logLost, e.col.logSeq, e.col.logQ, e.col.logCyc) =
      (d.col.logWr, d.col.logRd, d.col.logOvw, d.col.logLost, d.col.logSeq, d.col.logQ, d.col.logCyc) := k.parts .log h
  simp only [Prod.mk.injEq] at hl
  exact ⟨hl.1, hl.2.1⟩

theorem step {S : List Part} (h : KeepsLogIndices d e) (k : Keeps S e f) (hl : S.contains .log = false := by rfl) : KeepsLogIndices d f :=
  h.trans (.of_keeps k hl)

theorem updMem (d : Device) (u : MemSt → MemSt) : KeepsLogIndices d (d.updMem u) := ⟨rfl, rfl⟩

end KeepsLogIndices

/-- A record that joins the queue moves no index. -/
theorem logPush_indices (kind sev id w0 w1 w2 : Nat) (d : Device) : KeepsLogIndices d (logPush kind sev id w0 w1 w2 d) :=
  .ite (KeepsLogIndices.step (e := d.updCol _) ⟨rfl, rfl⟩ (arbRequest_keeps ..)) ⟨rfl, rfl⟩

theorem secTurn_indices (i : Fsrc) (d : Device) : KeepsLogIndices d (secTurn i d) :=
  .ite (.refl d) (.ite ((KeepsLogIndices.of_keeps (updFault_keeps ..)).trans (logPush_indices ..)) (.of_keeps (updFault_keeps ..)))

theorem raiseX_indices (f : Nat) (level : Bool) (x : Nat) (d : Device) : KeepsLogIndices d (raiseX f level x d) := by
  unfold raiseX
  split
  · exact .refl d
  · refine .ite (.of_keeps (updFault_keeps ..)) (.ite (.of_keeps (updFault_keeps ..)) (.step ?_ (reactNow_keeps ..)))
    have hlog {e : Device} (h : KeepsLogIndices d e) {p : Prop} [Decidable p] (kind sev id w0 w1 w2 : Nat) :
        KeepsLogIndices d (if p then logPush kind sev id w0 w1 w2 e else e) := .ite (h.trans (logPush_indices ..)) h
    have halert {e : Device} (h : KeepsLogIndices d e) {p : Prop} [Decidable p] (u : SupSt → SupSt) :
        KeepsLogIndices d (if p then alertSet 0 (e.updSup u) else e) := .ite (.step (e := e.updSup u) ⟨h.wr, h.rd⟩ (alertSet_keeps ..)) h
    have hcap {e : Device} (h : KeepsLogIndices d e) {p : Prop} [Decidable p] (sc : Scope) :
        KeepsLogIndices d (if p then captureTake f sc e else e) := .ite (h.step (captureTake_keeps ..)) h
    exact hcap (halert (hlog ((secTurn_indices _ d).step (updFault_keeps ..)) ..) _) _

theorem raise_indices (f : Nat) (d : Device) : KeepsLogIndices d (raise f d) := raiseX_indices f false 0 d

theorem ueState_indices (k : Nat) (d : Device) : KeepsLogIndices d (ueState k d) := by
  refine .ite ?_ (.ite ((KeepsLogIndices.of_keeps (hkLost_keeps ..)).step (hkLost_keeps ..)) (.of_keeps (trackLoss_keeps ..)))
  unfold modelReinit
  exact (KeepsLogIndices.of_keeps (updTherm_keeps ..)).trans (raiseX_indices ..)

theorem cwRead_indices (k : Nat) (d : Device) : KeepsLogIndices d (cwRead k d) := by
  have hu (d : Device) : KeepsLogIndices d (ueRaise k d) :=
    ((((KeepsLogIndices.of_keeps (setInj_keeps ..)).step (setInj_keeps ..)).trans (raise_indices ..)).trans (ueState_indices ..)).step
      (setInj_keeps ..) |>.step (setInj_keeps ..)
  have ha (i : Nat) (d : Device) (u : MemSt → MemSt) : KeepsLogIndices d (arbRequest wport i (d.updMem u)) :=
    (KeepsLogIndices.updMem d u).step (arbRequest_keeps ..)
  have hm (r : Nat × Nat) (d : Device) : KeepsLogIndices d (remapRow r d) :=
    .ite (.refl d) (.ite ((ha 1 d _).trans (raise_indices ..)) (ha 1 d _))
  have hr (d : Device) : KeepsLogIndices d (rowCorrected k d) := .ite ((KeepsLogIndices.updMem d _).trans (hm ..)) (.updMem d _)
  exact .ite (.ite (.updMem d _) ((KeepsLogIndices.updMem d _).trans (hu _))) (.ite ((ha 0 d _).trans (hr _)) (.refl d))

section
variable {α : Type}

theorem KeepsLogIndices.forEach {f : α → Device → Device} (hf : ∀ a d, KeepsLogIndices d (f a d)) (l : List α) (d : Device) :
    KeepsLogIndices d (Sys2Proof.Machine.forEach l f d) :=
  forEach_induct (KeepsLogIndices d) l f (fun a _ he => he.trans (hf a _)) d (.refl d)

end

theorem recReads_indices (base size start n : Nat) (d : Device) : KeepsLogIndices d (recReads base size start n d) :=
  .forEach (fun _ _ => cwRead_indices ..) ..

theorem recReads_bytes (base size start n : Nat) (d : Device) : (recReads base size start n d).memory.mem = d.memory.mem :=
  forEach_induct (fun e => e.memory.mem = d.memory.mem) _ _ (fun _ _ he => (cwRead_bytes ..).trans he) d rfl

/-! ### What a read clears -/

theorem Keeps.out_eq {S : List Part} {d e : Device} (k : Keeps S d e) (h : S.contains .sup = false) : e.sup.out = d.sup.out := by
  have hr : e.sup.rest = d.sup.rest := k.parts .sup h
  have ho := congrArg SupSt.out hr
  exact ho

/-- An operation that leaves the bytes sent and the bytes of memory, and whose effect outside the supervisory port does not depend on the port. -/
structure OffPort (f : Device → Device) : Prop where
  of_sup : ∀ d u, f { d with sup := u } = { f d with sup := (f { d with sup := u }).sup }
  out : ∀ d, (f d).sup.out = d.sup.out
  bytes : ∀ d, (f d).memory.mem = d.memory.mem

theorem OffPort.fields {f : Device → Device} (h : OffPort f) (d : Device) (u : SupSt → SupSt) : (f (d.updSup u)).loader = (f d).loader ∧
    (f (d.updSup u)).profs = (f d).profs ∧ (f (d.updSup u)).rings = (f d).rings ∧ (f (d.updSup u)).slots = (f d).slots := by
  have hs := h.of_sup d (u d.sup)
  have hl := congrArg Device.loader hs
  have hp := congrArg Device.profs hs
  have hr := congrArg Device.rings hs
  have ht := congrArg Device.slots hs
  exact ⟨hl, hp, hr, ht⟩

theorem OffPort.ite {f g : Device → Device} {p : Prop} [Decidable p] (h : OffPort f) (k : OffPort g) : OffPort fun d => if p then f d else g d := by
  split <;> assumption

theorem devReadEffect_offPort (o : Nat) : OffPort (devReadEffect o) := by
  unfold devReadEffect
  repeat' refine OffPort.ite ?_ ?_
  all_goals exact ⟨fun _ _ => rfl, fun _ => rfl, fun _ => rfl⟩

theorem chanReadEffect_offPort (c : Chan) (o : Nat) : OffPort (chanReadEffect c o) := by
  unfold chanReadEffect
  repeat' refine OffPort.ite ?_ ?_
  all_goals exact ⟨fun _ _ => rfl, fun _ => rfl, fun _ => rfl⟩

/-- What a read of a word outside the memory clears. -/
theorem readEffect_offPort {w : WordAt} (hw : ∀ b, w ≠ .mem b) : OffPort (readEffect w) := by
  cases w with
  | mem a => exact absurd rfl (hw a)
  | dev o => exact devReadEffect_offPort o
  | chan c o => exact chanReadEffect_offPort c o
  | isl i o =>
    by_cases h : i.1 < 4 ∧ o = 0x020
    · have he : readEffect (.isl i o) = fun d => d.updSrc ⟨i.1, h.1⟩ fun s => { s with revCnt := 0 } := funext fun d => dif_pos h
      rw [he]
      exact ⟨fun _ _ => rfl, fun _ => rfl, fun _ => rfl⟩
    · have he : readEffect (.isl i o) = id := funext fun d => dif_neg h
      rw [he]
      exact ⟨fun _ _ => rfl, fun _ => rfl, fun _ => rfl⟩
  | slot n o | ring n o | model m o | fsrc f o => exact .ite ⟨fun _ _ => rfl, fun _ => rfl, fun _ => rfl⟩ ⟨fun _ _ => rfl, fun _ => rfl, fun _ => rfl⟩
  | pm m o | arb i => exact ⟨fun _ _ => rfl, fun _ => rfl, fun _ => rfl⟩

theorem readEffect_out (w : WordAt) (d : Device) : (readEffect w d).sup.out = d.sup.out := by
  by_cases hw : ∀ b, w ≠ .mem b
  · exact (readEffect_offPort hw).out d
  · push Not at hw
    obtain ⟨b, rfl⟩ := hw
    exact (cwRead_keeps ..).out_eq rfl

theorem readEffect_bytes (w : WordAt) (d : Device) : (readEffect w d).memory.mem = d.memory.mem := by
  by_cases hw : ∀ b, w ≠ .mem b
  · exact (readEffect_offPort hw).bytes d
  · push Not at hw
    obtain ⟨b, rfl⟩ := hw
    exact cwRead_bytes ..

/-! ### Process calls -/

/-- The device has sent the bytes of a call's read part, as far as the host took them. -/
def callSent (code : Byte) (p : ProcessCall) (bytes : List Byte) (d : Device) : Device :=
  broken p.cut (d.updSup fun s => { s with out := readBytes (callBytes code p d) bytes, acked := true, freeAt := none, serving := false })

theorem callSent_of_whole {code : Byte} {p : ProcessCall} (h : p.cut = none) (bytes : List Byte) (d : Device) : callSent code p bytes d =
    d.updSup fun s => { s with out := readBytes (callBytes code p d) bytes, acked := true, freeAt := none, serving := false } := by
  rw [callSent, h, broken]

theorem callSent_of_cut {code : Byte} {p : ProcessCall} {k : Nat} (h : p.cut = some k) (bytes : List Byte) (d : Device) : callSent code p bytes d =
    d.updSup fun s => { s with out := (readBytes (callBytes code p d) bytes).take k, acked := true, freeAt := none, serving := false } := by
  rw [callSent, h, broken]
  rfl

section
variable {code : Byte} {n : Nat} {p : ProcessCall} {judge : List Byte → Device → Nat} {reply : List Byte → Device → List Byte}
variable {eff : List Byte → Device → Device} {d : Device} (hup : targetUp d = true)
include hup

theorem processCall_wrongCount (h : p.data.length ≠ p.count.toNat) : processCall code n p judge reply eff d = countRefused (noAck d) := by
  rw [processCall, if_neg (by simp [hup]), if_pos h]

variable (hf : d.col.fiPec = false) (ha : p.ackLast = true) (hc : p.data.length = p.count.toNat) (hn : p.data.length = n)
include hf ha hc hn

theorem processCall_accepted (hj : judge p.data d = 0) :
    processCall code n p judge reply eff d = eff p.data (callSent code p (0 :: reply p.data d) d) := by
  simp only [processCall, hup, hc.symm, hn, hj, respond, ha, hf, callSent, readBytes, callBytes]
  simp

theorem processCall_refused {r : Nat} (hr : r ≠ 0) (hj : judge p.data d = r) :
    processCall code n p judge reply eff d = countRefused (callSent code p [byteOf r] d) := by
  simp only [processCall, hup, hc.symm, hn, hj, respond, ha, hf, callSent, readBytes, callBytes]
  simp [hr]

end

/-! ### PEEK of one word -/

theorem peekOne_length (a : Nat) (b : Bool) : (peekOne a b).data.length = 4 := by simp [peekOne]

theorem peekOne_count {a : Nat} (b : Bool) : fld (peekOne a b).data 3 1 = 1 := by
  rw [peekOne, fld_behind _ 0 1 (leBytes_length ..)]
  decide

/-- What a PEEK of one word gives, by the word. -/
theorem peekJudge_peekOne {a : Nat} (ha : a < 2 ^ 24) (b : Bool) (d : Device) : peekJudge (peekOne a b).data d =
    match locate a with
    | none => 0x0E
    | some w => if w.readable d then 0 else 0x07 := by
  rw [peekJudge, peekOne_count, peekWords_peekOne ha]
  cases locate a with
  | none => rfl
  | some w => cases h : w.readable d <;> simp [h]

theorem peekRun_one (w : WordAt) (d : Device) : peekRun [some w] d = (leBytes 4 (wordAt d w).toNat, readEffect w d) := by simp [peekRun]

section
variable {a : Nat} {d : Device} (hup : targetUp d = true) (hf : d.col.fiPec = false) (ha : a < 2 ^ 24)
include hup hf ha

/-- The read of one word, as far as the host took it. -/
theorem peek_readable {w : WordAt} (hw : locate a = some w) (hr : w.readable d = true) {p : ProcessCall} (hd : p.data = (peekOne a true).data)
    (hc : p.count = 4) (hl : p.ackLast = true) :
    peek p d = (peekRun (sentWords p) (callSent 0x02 p (0 :: leBytes 4 (wordAt d w).toNat) d)).2 := by
  have hj : peekJudge p.data d = 0 := by rw [hd, peekJudge_peekOne ha, hw]; exact if_pos hr
  have hn : p.data.length = 4 := hd ▸ peekOne_length ..
  refine (processCall_accepted hup hf hl (by rw [hc]; exact hn) hn hj).trans ?_
  have hb : (peekRun (peekWords p.data) d).1 = leBytes 4 (wordAt d w).toNat := by rw [hd, peekWords_peekOne ha, hw, peekRun_one]
  rw [hb]

theorem peek_one {w : WordAt} (hw : locate a = some w) (hr : w.readable d = true) : peek (peekOne a true) d =
    readEffect w (d.updSup fun s => { s with
      out := readBytes (callBytes 0x02 (peekOne a true) d) (0 :: leBytes 4 (wordAt d w).toNat), acked := true, freeAt := none, serving := false }) := by
  have hs : sentWords (peekOne a true) = [some w] := (peekWords_peekOne ha true).trans (by rw [hw])
  rw [peek_readable hup hf ha hw hr rfl rfl rfl, hs, peekRun_one, callSent_of_whole rfl]

/-- The word of a read that is cut has its effect once its last byte is sent (R494). -/
theorem peek_cut {w : WordAt} (hw : locate a = some w) (hr : w.readable d = true) (k : Nat) : peek { peekOne a true with cut := some k } d =
    let e := d.updSup fun s => { s with
      out := (readBytes (callBytes 0x02 (peekOne a true) d) (0 :: leBytes 4 (wordAt d w).toNat)).take k, acked := true, freeAt := none, serving := false }
    if 6 ≤ k then readEffect w e else e := by
  have hs : sentWords { peekOne a true with cut := some k } = if 6 ≤ k then [some w] else [] := by
    have h : sentWords { peekOne a true with cut := some k } = [some w].take ((k - 2) / 4) := by
      rw [← hw, ← peekWords_peekOne ha true]
      rfl
    rw [h]
    split
    · exact List.take_of_length_le (by simp; omega)
    · rw [show (k - 2) / 4 = 0 by omega, List.take_zero]
  have h := peek_readable hup hf ha hw hr (p := { peekOne a true with cut := some k }) rfl rfl rfl
  rw [h, hs, callSent_of_cut rfl]
  split
  · rw [peekRun_one]
    rfl
  · rfl

omit ha in
theorem peek_refused {r : Nat} (hr : r ≠ 0) (hj : peekJudge (peekOne a true).data d = r) :
    peek (peekOne a true) d = countRefused (d.updSup fun s =>
      { s with out := readBytes (callBytes 0x02 (peekOne a true) d) [byteOf r], acked := true, freeAt := none, serving := false }) := by
  refine (processCall_refused hup hf rfl (peekOne_length ..) (peekOne_length ..) hr hj).trans ?_
  rw [callSent_of_whole rfl]

end

/-! ### RING_READ and LOG_READ -/

section
variable {p : ProcessCall} {d : Device} (hup : targetUp d = true) (hf : d.col.fiPec = false) (ha : p.ackLast = true) (hcut : p.cut = none)
include hup hf ha hcut

theorem ringRead_accepted (hc : p.count = 4) (hn : p.data.length = 4) (hr : fld p.data 0 1 ≤ 31) (h1 : 1 ≤ fld p.data 3 1) (h7 : fld p.data 3 1 ≤ 7) :
    ringRead p d = recReads (ringBase (Fin.ofNat 32 (fld p.data 0 1))) 256 (fld p.data 1 2) (fld p.data 3 1) (d.updSup fun s => { s with
      out := readBytes (callBytes 0x03 p d) (0 :: recEntries d (ringBase (Fin.ofNat 32 (fld p.data 0 1))) 256 (fld p.data 1 2) (fld p.data 3 1)
        (d.rings[(Fin.ofNat 32 (fld p.data 0 1) : Ring)]).wr (d.rings[(Fin.ofNat 32 (fld p.data 0 1) : Ring)]).rd),
      acked := true, freeAt := none, serving := false }) := by
  refine (processCall_accepted hup hf ha (by rw [hc]; exact hn) hn (if_neg ?_)).trans ?_
  · simp only [countOk, h1, h7]
    simp [hr]
  · rw [callSent_of_whole hcut]

theorem ringRead_refused (hc : p.count = 4) (hn : p.data.length = 4) (h : 31 < fld p.data 0 1 ∨ fld p.data 3 1 = 0 ∨ 7 < fld p.data 3 1) :
    ringRead p d = countRefused (d.updSup fun s => { s with
      out := readBytes (callBytes 0x03 p d) [0x08], acked := true, freeAt := none, serving := false }) := by
  refine (processCall_refused hup hf ha (by rw [hc]; exact hn) hn (r := 8) (by decide) (if_pos ?_)).trans ?_
  · simp only [countOk, Bool.and_eq_false_iff, decide_eq_false_iff_not]
    omega
  · rw [callSent_of_whole hcut]
    rfl

theorem logRead_accepted (hc : p.count = 3) (hn : p.data.length = 3) (h1 : 1 ≤ fld p.data 2 1) (h7 : fld p.data 2 1 ≤ 7) :
    logRead p d = recReads 0x80000 4096 (fld p.data 0 2) (fld p.data 2 1) (d.updSup fun s => { s with
      out := readBytes (callBytes 0x04 p d) (0 :: recEntries d 0x80000 4096 (fld p.data 0 2) (fld p.data 2 1) d.col.logWr d.col.logRd),
      acked := true, freeAt := none, serving := false }) := by
  refine (processCall_accepted hup hf ha (by rw [hc]; exact hn) hn (if_pos ?_)).trans ?_
  · simp [countOk, h1, h7]
  · rw [callSent_of_whole hcut]

end

/-! ### One entry of a ring -/

section
variable {d : Device} {base size i : Nat} {wr rd : Halfword}

theorem recEntry_gone (h : fill16 wr rd ≤ (i + 65536 - rd.toNat) % 65536) :
    recEntry d base size i wr rd = 1 :: leBytes 2 rd.toNat ++ List.replicate 30 0 := by
  rw [recEntry, if_pos h]
  rfl

theorem recEntry_bad (h : (i + 65536 - rd.toNat) % 65536 < fill16 wr rd) (hb : cwBad d ((base + 32 * (i % size)) / 32) = true) :
    recEntry d base size i wr rd = 2 :: List.replicate 32 0 := by
  rw [recEntry, if_neg (by omega), if_pos hb]
  rfl

theorem recEntry_held (h : (i + 65536 - rd.toNat) % 65536 < fill16 wr rd) (hb : cwBad d ((base + 32 * (i % size)) / 32) = false) :
    recEntry d base size i wr rd = 0 :: mgets d.memory.mem (base + 32 * (i % size)) 32 := by
  rw [recEntry, if_neg (by omega), if_neg (by simp [hb])]
  rfl

end

/-- Settles O53: what a call sends, and what its effect leaves and clears. -/
theorem callReads : Obligations.CallReads := by
  unfold Obligations.CallReads
  refine ⟨fun a w s hup hf ha hw hr => ⟨_, rfl, ?_⟩, fun s => ⟨rfl, fun r => ?_, fun c => ?_, fun f => ?_⟩,
    fun a s hup hf ha hw => ⟨_, rfl, ?_⟩, fun a w s hup hf ha hw hr => ⟨_, rfl, ?_⟩, fun a w k s hup hf ha hw hr hm => ⟨_, rfl, ?_⟩,
    fun p s hup h => ⟨_, rfl, ?_⟩, fun s hup hf => ⟨_, rfl, ?_⟩, fun c out s hup hq => ⟨_, rfl, ?_⟩, fun c out s hq => ⟨_, rfl, ?_⟩,
    fun p s hup hf ha hcut hc hn hr h1 h7 => ⟨_, rfl, ?_⟩, fun p s hup hf ha hcut hc hn h1 h7 => ⟨_, rfl, ?_⟩,
    fun p s hup hf ha hcut hc hn h => ⟨_, rfl, ?_⟩, fun d base size i wr rd h hb => recEntry_held h hb, fun d base size i wr rd h => recEntry_gone h,
    fun d base size i wr rd h hb => recEntry_bad h hb⟩
  · rw [peek_one hup hf ha hw hr]
    exact ⟨readEffect_out .., readEffect_bytes .., fun hm => (readEffect_offPort hm).fields ..⟩
  · exact congrArg RingSt.lost (upd_same ..)
  · exact congrArg ProfSt.qInHi (upd_same ..)
  · exact congrArg FaultSt.count (upd_same ..)
  · rw [peek_refused hup hf (r := 0x0E) (by decide) (by rw [peekJudge_peekOne ha, hw])]
    exact ⟨rfl, rfl⟩
  · rw [peek_refused hup hf (r := 0x07) (by decide) (by rw [peekJudge_peekOne ha, hw]; simp [hr])]
    exact ⟨rfl, rfl, rfl⟩
  · rw [peek_cut hup hf ha hw hr]
    obtain ⟨-, hp, hrg, hsl⟩ := (readEffect_offPort hm).fields s.dev fun u => { u with
      out := (readBytes (callBytes 0x02 (peekOne a true) s.dev) (0 :: leBytes 4 (wordAt s.dev w).toNat)).take k, acked := true, freeAt := none, serving := false }
    by_cases h6 : 6 ≤ k
    · simp only [if_pos h6]
      exact ⟨readEffect_out .., hp, hrg, hsl⟩
    · simp only [if_neg h6]
      exact ⟨rfl, rfl, rfl, rfl⟩
  · exact congrArg drive (processCall_wrongCount hup h)
  · exact ((peek_one hup hf (by decide) locate_alert rfl).symm ▸ readEffect_out ..)
  · simp only [hup, hq, and_self, if_true, latchQ]
    cases out <;> simp [-Fin.getElem_fin]
  · exact congrArg drive (if_neg (by simp [hq]))
  · rw [ringRead_accepted hup hf ha hcut hc hn hr h1 h7]
    exact ⟨(recReads_keeps ..).out_eq rfl, (recReads_keeps ..).parts .rings rfl, recReads_bytes ..⟩
  · rw [logRead_accepted hup hf ha hcut hc hn h1 h7]
    exact ⟨(recReads_keeps ..).out_eq rfl, (recReads_indices ..).rd, (recReads_indices ..).wr, recReads_bytes ..⟩
  · rw [ringRead_refused hup hf ha hcut hc hn h]
    exact ⟨rfl, rfl, rfl⟩

end Sys2Proof.Machine

/-! The writes of the host: WRITE and its named words (R222, R233, R509), CLEAR (R505, R526, R539). -/

namespace Sys2Proof.Machine

/-! ### Fields of a masked word -/

theorem bitsOf_testBit (x lo w i : Nat) : (bitsOf x lo w).testBit i = (decide (i < w) && x.testBit (lo + i)) := by
  rw [bitsOf, Nat.testBit_mod_two_pow, Nat.testBit_shiftRight]

theorem bitsOf_lt (x lo w : Nat) : bitsOf x lo w < 2 ^ w := Nat.mod_lt _ (by positivity)

/-- A bit of a masked word is the new one where the mask is set. -/
theorem maskMix_testBit (k x y i : Nat) (hi : i < 32) : (maskMix k x y).testBit i = if k.testBit i then y.testBit i else x.testBit i := by
  simp only [maskMix, BitVec.testBit_toNat, BitVec.getLsbD_or, BitVec.getLsbD_and, BitVec.getLsbD_not, BitVec.getLsbD_ofNat, hi, decide_true,
    Bool.true_and]
  cases k.testBit i <;> simp

theorem bitOf_maskMix (k x y i : Nat) (hi : i < 32) : bitOf (maskMix k x y) i = if bitOf k i then bitOf y i else bitOf x i := maskMix_testBit k x y i hi

/-- A field that the mask covers takes its new value. -/
theorem bitsOf_maskMix_taken {k lo w : Nat} (x y : Nat) (h : lo + w ≤ 32) (hk : bitsOf k lo w = 2 ^ w - 1) :
    bitsOf (maskMix k x y) lo w = bitsOf y lo w := by
  refine Nat.eq_of_testBit_eq fun i => ?_
  by_cases hi : i < w
  · have hb : k.testBit (lo + i) = true := by
      have h1 := bitsOf_testBit k lo w i
      rw [hk, Nat.testBit_two_pow_sub_one] at h1
      simpa [hi] using h1.symm
    simp only [bitsOf_testBit, maskMix_testBit k x y (lo + i) (by omega), hb, if_true]
  · simp [bitsOf_testBit, hi]

/-- A field that the mask leaves out stays. -/
theorem bitsOf_maskMix_kept {k lo w : Nat} (x y : Nat) (h : lo + w ≤ 32) (hk : bitsOf k lo w = 0) : bitsOf (maskMix k x y) lo w = bitsOf x lo w := by
  refine Nat.eq_of_testBit_eq fun i => ?_
  by_cases hi : i < w
  · have hb : k.testBit (lo + i) = false := by
      have h1 := bitsOf_testBit k lo w i
      rw [hk, Nat.zero_testBit] at h1
      simpa [hi] using h1.symm
    simp only [bitsOf_testBit, maskMix_testBit k x y (lo + i) (by omega), hb]
    rfl
  · simp [bitsOf_testBit, hi]

/-- A field of the width of a word that the mask covers in part. -/
theorem bitsOf_maskMix {k x y lo w : Nat} (a b m : BitVec w) (h : lo + w ≤ 32) (hk : bitsOf k lo w = m.toNat) (hx : bitsOf x lo w = a.toNat)
    (hy : bitsOf y lo w = b.toNat) : bitsOf (maskMix k x y) lo w = (a &&& ~~~m ||| b &&& m).toNat := by
  refine Nat.eq_of_testBit_eq fun i => ?_
  by_cases hi : i < w
  · have hk := (bitsOf_testBit k lo w i).symm.trans (congrArg (Nat.testBit · i) hk)
    have hx := (bitsOf_testBit x lo w i).symm.trans (congrArg (Nat.testBit · i) hx)
    have hy := (bitsOf_testBit y lo w i).symm.trans (congrArg (Nat.testBit · i) hy)
    simp only [hi, decide_true, Bool.true_and, BitVec.testBit_toNat] at hk hx hy
    simp only [bitsOf_testBit, maskMix_testBit k x y (lo + i) (by omega), hk, hx, hy, hi, BitVec.testBit_toNat, BitVec.getLsbD_or, BitVec.getLsbD_and,
      BitVec.getLsbD_not, decide_true, Bool.true_and]
    cases m.getLsbD i <;> simp
  · simp [bitsOf_testBit, hi, BitVec.testBit_toNat, BitVec.getLsbD_of_ge _ _ (Nat.le_of_not_lt hi)]

theorem bitsOf_low (a b : Nat) (h : a < 65536) : bitsOf (a + 65536 * b) 0 16 = a := by
  rw [bitsOf, Nat.shiftRight_zero]
  omega

theorem bitsOf_high (a b : Nat) (ha : a < 65536) (hb : b < 65536) : bitsOf (a + 65536 * b) 16 16 = b := by
  rw [bitsOf, Nat.shiftRight_eq_div_pow]
  omega

/-! ### WRITE -/

/-- A sound write of eleven bytes is judged by its word and records what R500 says. -/
theorem write_sound {w : BlockWrite} {d : Device} (hup : targetUp d = true) (hu : unlocked d = true) (hw : soundBlock 0x12 w d = true)
    (hlen : w.data.length = 11) {r : Nat} (hr : writeJudge (fld w.data 0 3) (fld w.data 3 4) (fld w.data 7 4) (ack d) = r) :
    write w d = record 0x12 r (if r = 0x04 ∨ r = 0x05 ∨ r = 0x0E then fld w.data 0 3 else 0)
      (if r = 0 then writeWord (fld w.data 0 3) (fld w.data 3 4) (fld w.data 7 4) (ack d) else ack d) := by
  subst hr
  exact blockWrite_committed hup hw (by omega) (fun _ => hu) rfl

section
variable {a k v : Nat} {pec : Option Byte} {d : Device} (hup : targetUp d = true) (hu : unlocked d = true)
variable (hw : soundBlock 0x12 (writeOf a k v pec) d = true) (ha : a < 2 ^ 24) (hk : k < 2 ^ 32) (hv : v < 2 ^ 32)
include hup hu hw ha hk hv

theorem write_taken (hj : writeJudge a k v (ack d) = 0) : write (writeOf a k v pec) d = record 0x12 0 0 (writeWord a k v (ack d)) := by
  have h := write_sound (r := 0) hup hu hw (writeOf_length pec) (by rw [writeOf_addr ha, writeOf_mask hk, writeOf_value hv]; exact hj)
  rw [h, writeOf_addr ha, writeOf_mask hk, writeOf_value hv]
  rfl

theorem write_refused {r : Nat} (h0 : r ≠ 0) (hj : writeJudge a k v (ack d) = r) :
    write (writeOf a k v pec) d = record 0x12 r (if r = 0x04 ∨ r = 0x05 ∨ r = 0x0E then a else 0) (ack d) := by
  have h := write_sound (r := r) hup hu hw (writeOf_length pec) (by rw [writeOf_addr ha, writeOf_mask hk, writeOf_value hv]; exact hj)
  rw [h, writeOf_addr ha, if_neg h0]

end

theorem KeepsAnswer.of_keeps {S : List Part} {d e : Device} (k : Keeps S d e) (h : S.contains .sup = false := by rfl) : KeepsAnswer d e := by
  have hr : e.sup.rest = d.sup.rest := k.parts .sup h
  have h1 := congrArg SupSt.resSeq hr
  have h2 := congrArg SupSt.acked hr
  have h3 := congrArg SupSt.out hr
  have h4 := congrArg SupSt.cmdRefused hr
  exact ⟨h1, h2, h3, h4⟩

/-! ### Judgements of the named words -/

theorem and_ones {k w : Nat} (h : k < 2 ^ w) : k &&& (2 ^ w - 1) = k := by rw [Nat.and_two_pow_sub_one_eq_mod, Nat.mod_eq_of_lt h]

theorem within_narrow (c : Chan) {k : Nat} (hk : k < 2 ^ 32) : within k (rwMask (.chan c 0x18) ||| w1cMask (.chan c 0x18)) = true := by
  have hm : rwMask (.chan c 0x18) ||| w1cMask (.chan c 0x18) = 2 ^ 32 - 1 := by simp [rwMask, w1cMask]
  rw [within, decide_eq_true_eq, hm, and_ones hk]

theorem writeJudge_narrow (c : Chan) {k : Nat} (hk : k < 2 ^ 32) (v : Nat) (d : Device) : writeJudge (0x110018 + 128 * c.1) k v d =
    if narrowBad (wordAt d (.chan c 0x18)).toNat (maskMix k (wordAt d (.chan c 0x18)).toNat v) k then 5 else 0 := by
  simp only [writeJudge, locate_narrow, within_narrow c hk]
  simp [rwMask]

theorem writeJudge_hostStop (c : Chan) (v : Nat) (d : Device) : writeJudge (0x11001C + 128 * c.1) 1 v d = 0 := by
  simp only [writeJudge, locate_hostStop]
  simp [rwMask, w1cMask, within]

theorem writeJudge_mem {a : Nat} (h : locate a = some (.mem a)) (k v : Nat) (d : Device) : writeJudge a k v d = 4 := by rw [writeJudge, h]

theorem writeJudge_unassigned {a : Nat} (h : locate a = none) (k v : Nat) (d : Device) : writeJudge a k v d = 0x0E := by rw [writeJudge, h]

/-! ### Host narrowings (R222) -/

theorem toNat_ne_zero {w : Nat} {x : BitVec w} (h : x ≠ 0) : x.toNat ≠ 0 := fun e => h (BitVec.eq_of_toNat_eq e)

theorem narrowWord_toNat (c : Chan) (d : Device) : (wordAt d (.chan c 0x18)).toNat = (d.chans[c]).narrowI.toNat + 65536 * (d.chans[c]).narrowV.toNat := by
  have h : chanWord d c 0x18 = pack [((d.chans[c]).narrowI.toNat, 0, 16), ((d.chans[c]).narrowV.toNat, 16, 16)] := rfl
  have hi := (d.chans[c]).narrowI.isLt
  have hv := (d.chans[c]).narrowV.isLt
  rw [wordAt, BitVec.toNat_ofNat, h]
  simp only [pack, List.map_cons, List.map_nil, List.sum_cons, List.sum_nil]
  omega

section
variable (c : Chan) (mask value : BitVec 16) (d : Device)

/-- The word of the narrowings after a write of the current's field. -/
theorem narrowI_mix : bitsOf (maskMix mask.toNat (wordAt d (.chan c 0x18)).toNat value.toNat) 0 16 =
      ((d.chans[c]).narrowI &&& ~~~mask ||| value &&& mask).toNat ∧
    bitsOf (maskMix mask.toNat (wordAt d (.chan c 0x18)).toNat value.toNat) 16 16 = (d.chans[c]).narrowV.toNat := by
  have hm := bitsOf_low mask.toNat 0 (by omega)
  have hm' := bitsOf_high mask.toNat 0 (by omega) (by omega)
  have hv := bitsOf_low value.toNat 0 (by omega)
  rw [Nat.mul_zero, Nat.add_zero] at hm hm' hv
  rw [narrowWord_toNat]
  refine ⟨bitsOf_maskMix _ _ _ (by omega) hm (bitsOf_low _ _ (by omega)) hv, ?_⟩
  rw [bitsOf_maskMix_kept _ _ (by omega) hm', bitsOf_high _ _ (by omega) (by omega)]

/-- The word of the narrowings after a write of the voltage's field. -/
theorem narrowV_mix : bitsOf (maskMix (65536 * mask.toNat) (wordAt d (.chan c 0x18)).toNat (65536 * value.toNat)) 16 16 =
      ((d.chans[c]).narrowV &&& ~~~mask ||| value &&& mask).toNat ∧
    bitsOf (maskMix (65536 * mask.toNat) (wordAt d (.chan c 0x18)).toNat (65536 * value.toNat)) 0 16 = (d.chans[c]).narrowI.toNat := by
  have hm := bitsOf_high 0 mask.toNat (by omega) (by omega)
  have hm' := bitsOf_low 0 mask.toNat (by omega)
  have hv := bitsOf_high 0 value.toNat (by omega) (by omega)
  rw [Nat.zero_add] at hm hm' hv
  rw [narrowWord_toNat]
  refine ⟨bitsOf_maskMix _ _ _ (by omega) hm (bitsOf_high _ _ (by omega) (by omega)) hv, ?_⟩
  rw [bitsOf_maskMix_kept _ _ (by omega) hm', bitsOf_low _ _ (by omega)]

variable {mask}

theorem narrowI_judge (hm : mask ≠ 0) (r : Nat) (h : r = if (d.chans[c]).narrowI.toNat ≤ ((d.chans[c]).narrowI &&& ~~~mask ||| value &&& mask).toNat
    then 5 else 0) : writeJudge (0x110018 + 128 * c.1) mask.toNat value.toNat d = r := by
  obtain ⟨hi, -⟩ := narrowI_mix c mask value d
  have h1 := bitsOf_low mask.toNat 0 (by omega)
  have h2 := bitsOf_high mask.toNat 0 (by omega) (by omega)
  rw [Nat.mul_zero, Nat.add_zero] at h1 h2
  have ho : bitsOf (wordAt d (.chan c 0x18)).toNat 0 16 = (d.chans[c]).narrowI.toNat := by rw [narrowWord_toNat, bitsOf_low _ _ (by omega)]
  have hm0 := toNat_ne_zero hm
  rw [writeJudge_narrow c (by omega), h, narrowBad, hi, h1, h2, ho]
  simp [hm0]

theorem narrowV_judge (hm : mask ≠ 0) (r : Nat) (h : r = if (d.chans[c]).narrowV.toNat ≤ ((d.chans[c]).narrowV &&& ~~~mask ||| value &&& mask).toNat
    then 5 else 0) : writeJudge (0x110018 + 128 * c.1) (65536 * mask.toNat) (65536 * value.toNat) d = r := by
  obtain ⟨hi, -⟩ := narrowV_mix c mask value d
  have h1 := bitsOf_low 0 mask.toNat (by omega)
  have h2 := bitsOf_high 0 mask.toNat (by omega) (by omega)
  rw [Nat.zero_add] at h1 h2
  have ho : bitsOf (wordAt d (.chan c 0x18)).toNat 16 16 = (d.chans[c]).narrowV.toNat := by rw [narrowWord_toNat, bitsOf_high _ _ (by omega) (by omega)]
  have hm0 := toNat_ne_zero hm
  rw [writeJudge_narrow c (by omega), h, narrowBad, hi, h1, h2, ho]
  simp [hm0]

end

/-- A channel's narrowings after their write, and the message that tells them to its quadrant. -/
theorem narrowWrite_fields (c : Chan) (x : Nat) (d : Device) : ((narrowWrite c x d).chans[c]).narrowI = BitVec.ofNat 16 (bitsOf x 0 16) ∧
    ((narrowWrite c x d).chans[c]).narrowV = BitVec.ofNat 16 (bitsOf x 16 16) ∧
    (narrowWrite c x d).isl.fifo[xIndex (.toQd (Chan.quad c))] =
      d.isl.fifo[xIndex (.toQd (Chan.quad c))] ++ [.narrow c (BitVec.ofNat 16 (bitsOf x 0 16)) (BitVec.ofNat 16 (bitsOf x 16 16))] := by
  simp [-Fin.getElem_fin, narrowWrite, send]

theorem hostStopWrite_fields (c : Chan) (v : Bool) (d : Device) : ((hostStopWrite c v d).chans[c]).hostStop = v ∧
    ((hostStopWrite c v d).chans[c]).hostStopQ = (d.chans[c]).hostStopQ ∧
    (hostStopWrite c v d).isl.fifo[xIndex (.toQd (Chan.quad c))] = d.isl.fifo[xIndex (.toQd (Chan.quad c))] ++ [.hostStop c v] := by
  simp [-Fin.getElem_fin, hostStopWrite, send]

theorem writeWord_narrow_of_mask (c : Chan) {k : Nat} (hk : k < 2 ^ 32) (h0 : k ≠ 0) (v : Nat) (d : Device) : writeWord (0x110018 + 128 * c.1) k v d =
    narrowWrite c (maskMix k (wordAt d (.chan c 0x18)).toNat v) d := by
  have h : k &&& 0xFFFFFFFF = k := and_ones hk
  rw [writeWord_narrow, h, if_neg h0]

/-- HOST_STOP takes either value (R233). -/
theorem hostStop_taken {c : Chan} {v : Bool} {pec : Option Byte} {d : Device} (hup : targetUp d = true) (hu : unlocked d = true)
    (hw : soundBlock 0x12 (writeOf (0x11001C + 128 * c.1) 1 (b2n v) pec) d = true) :
    write (writeOf (0x11001C + 128 * c.1) 1 (b2n v) pec) d = record 0x12 0 0 (hostStopWrite c v (ack d)) := by
  have hb : bitOf (maskMix 1 (wordAt (ack d) (.chan c 0x1C)).toNat (b2n v)) 0 = v := by
    rw [bitOf_maskMix _ _ _ _ (by decide), if_pos (by decide)]
    cases v <;> decide
  rw [write_taken hup hu hw (hostStop_addr_lt c) (by decide) (by cases v <;> decide) (writeJudge_hostStop ..), writeWord_hostStop, hb]
  rfl

theorem locate_mem {a : Nat} (h : a < 0x100000) (h4 : a % 4 = 0) : locate a = some (.mem a) := by rw [locate, if_neg (by simp [h4]), if_pos h]

/-! ### CLEAR -/

/-- A sound CLEAR of seven bytes is judged by its word. -/
theorem clear_sound {w : BlockWrite} {d : Device} (hup : targetUp d = true) (hw : soundBlock 0x07 w d = true) (hlen : w.data.length = 7) {r : Nat}
    (hr : clearJudge (fld w.data 0 3) (fld w.data 3 4) = r) : clear w d = record 0x07 r (if r = 0 then 0 else fld w.data 0 3)
      (if r = 0 then clearWord (fld w.data 0 3) (fld w.data 3 4) (ack d) else ack d) := by
  subst hr
  exact blockWrite_committed hup hw (by omega) nofun rfl

theorem clearJudge_word {a k : Nat} {x : WordAt} (h : locate a = some x) (hx : ∀ b, x ≠ .mem b) :
    clearJudge a k = if k &&& w1cMask x = k then 0 else 4 := by
  rw [clearJudge, h]
  cases x with
  | mem b => exact absurd rfl (hx b)
  | _ => simp only [within, decide_eq_true_eq]

theorem devClear_offPort (o k : Nat) : OffPort (devClear o k) := by
  unfold devClear
  dsimp only
  repeat' refine OffPort.ite ?_ ?_
  all_goals exact ⟨fun _ _ => rfl, fun _ => rfl, fun _ => rfl⟩

theorem clearBits_offPort (x : WordAt) (k : Nat) : OffPort (clearBits x k) := by
  cases x with
  | dev o => exact devClear_offPort o k
  | isl i o =>
    refine .ite ⟨fun _ _ => rfl, fun _ => rfl, fun _ => rfl⟩ ?_
    by_cases h : i.1 < 4 ∧ o = 0x020
    · simp only [dif_pos h]
      exact ⟨fun _ _ => rfl, fun _ => rfl, fun _ => rfl⟩
    · simp only [dif_neg h]
      exact ⟨fun _ _ => rfl, fun _ => rfl, fun _ => rfl⟩
  | chan c o =>
    exact .ite ⟨fun _ _ => rfl, fun _ => rfl, fun _ => rfl⟩ (.ite ⟨fun _ _ => rfl, fun _ => rfl, fun _ => rfl⟩ ⟨fun _ _ => rfl, fun _ => rfl, fun _ => rfl⟩)
  | slot n o | pm m o | model m o => exact .ite ⟨fun _ _ => rfl, fun _ => rfl, fun _ => rfl⟩ ⟨fun _ _ => rfl, fun _ => rfl, fun _ => rfl⟩
  | mem a | ring n o | arb i | fsrc f o => exact ⟨fun _ _ => rfl, fun _ => rfl, fun _ => rfl⟩

/-- What a CLEAR clears, the target having acknowledged it. -/
theorem clearBits_ack (x : WordAt) (k : Nat) (d : Device) : (clearBits x k (ack d)).start = (clearBits x k d).start ∧
    (clearBits x k (ack d)).slots = (clearBits x k d).slots ∧ (clearBits x k (ack d)).paths = (clearBits x k d).paths ∧
    (clearBits x k (ack d)).col = (clearBits x k d).col ∧ (clearBits x k (ack d)).mods = (clearBits x k d).mods := by
  have hs := (clearBits_offPort x k).of_sup d (ack d).sup
  have h1 := congrArg Device.start hs
  have h2 := congrArg Device.slots hs
  have h3 := congrArg Device.paths hs
  have h4 := congrArg Device.col hs
  have h5 := congrArg Device.mods hs
  exact ⟨h1, h2, h3, h4, h5⟩

/-- Settles O58: each write by its judgement and what the word's writing does. -/
theorem hostWrites : Obligations.HostWrites := by
  unfold Obligations.HostWrites
  refine ⟨fun c mask value pec s hup hu hw hm hlt => ⟨_, rfl, ?_⟩, fun c mask value pec s hup hu hw hm hle => ⟨_, rfl, ?_⟩,
    fun c mask value pec s hup hu hw hm hlt => ⟨_, rfl, ?_⟩, fun c mask value pec s hup hu hw hm hle => ⟨_, rfl, ?_⟩,
    fun c v pec s hup hu hw => ⟨_, rfl, ?_⟩, fun c v pec s hup hu hw => ⟨_, rfl, ?_⟩,
    fun a k v pec s hup hu hw ha h4 => ⟨_, rfl, ?_⟩, fun a k v pec s hup hu hw ha hl => ⟨_, rfl, ?_⟩,
    fun c mask value v pec s => ⟨rfl, rfl, rfl⟩, fun w s hup hw hlen h31 => ⟨_, rfl, ?_⟩,
    fun w x s hup hw hlen hl hx hk => ⟨_, rfl, ?_⟩, fun w x s hup hw hlen hl hx hk => ⟨_, rfl, ?_⟩,
    fun w a s hup hw hlen hl => ⟨_, rfl, ?_⟩, fun w s hup hw hlen hl => ⟨_, rfl, ?_⟩, fun k d => ⟨rfl, fun n => ?_⟩⟩
  · have hj := narrowI_judge c value (ack s.dev) hm 0 (if_neg (Nat.not_le.2 hlt)).symm
    obtain ⟨hI, hV⟩ := narrowI_mix c mask value (ack s.dev)
    rw [write_taken hup hu hw (narrow_addr_lt c) (by omega) (by omega) hj, writeWord_narrow_of_mask c (by omega) (toNat_ne_zero hm)]
    obtain ⟨h1, h2, h3⟩ := narrowWrite_fields c (maskMix mask.toNat (wordAt (ack s.dev) (.chan c 0x18)).toNat value.toNat) (ack s.dev)
    rw [hI, BitVec.ofNat_toNat, BitVec.setWidth_eq] at h1 h3
    rw [hV, BitVec.ofNat_toNat, BitVec.setWidth_eq] at h2 h3
    refine ⟨recorded_drive_record (.of_keeps (narrowWrite_keeps ..)) (by decide), ?_⟩
    simp only [drive_chans, drive_isl, record_chans, record_isl, h1, h2]
    exact ⟨rfl, rfl, h3⟩
  · have hj := narrowI_judge c value (ack s.dev) hm 5 (if_pos hle).symm
    rw [write_refused hup hu hw (narrow_addr_lt c) (by omega) (by omega) (by decide) hj]
    exact ⟨recorded_drive_record (.of_sup_eq rfl) (by decide), by simp, by simp, by simp⟩
  · have hj := narrowV_judge c value (ack s.dev) hm 0 (if_neg (Nat.not_le.2 hlt)).symm
    obtain ⟨hV, hI⟩ := narrowV_mix c mask value (ack s.dev)
    rw [write_taken hup hu hw (narrow_addr_lt c) (by omega) (by omega) hj,
      writeWord_narrow_of_mask c (by omega) (Nat.mul_ne_zero (by decide) (toNat_ne_zero hm))]
    obtain ⟨h1, h2, h3⟩ := narrowWrite_fields c (maskMix (65536 * mask.toNat) (wordAt (ack s.dev) (.chan c 0x18)).toNat (65536 * value.toNat)) (ack s.dev)
    rw [hI, BitVec.ofNat_toNat, BitVec.setWidth_eq] at h1 h3
    rw [hV, BitVec.ofNat_toNat, BitVec.setWidth_eq] at h2 h3
    refine ⟨recorded_drive_record (.of_keeps (narrowWrite_keeps ..)) (by decide), ?_⟩
    simp only [drive_chans, drive_isl, record_chans, record_isl, h1, h2]
    exact ⟨rfl, rfl, h3⟩
  · have hj := narrowV_judge c value (ack s.dev) hm 5 (if_pos hle).symm
    rw [write_refused hup hu hw (narrow_addr_lt c) (by omega) (by omega) (by decide) hj]
    exact ⟨recorded_drive_record (.of_sup_eq rfl) (by decide), by simp, by simp⟩
  · rw [hostStop_taken hup hu hw]
    obtain ⟨h1, h2, h3⟩ := hostStopWrite_fields c v (ack s.dev)
    refine ⟨recorded_drive_record (.of_keeps (hostStopWrite_keeps ..)) (by decide), ?_⟩
    simp only [drive_chans, drive_isl, record_chans, record_isl]
    exact ⟨h1, h2, h3⟩
  · rw [hostStop_taken hup hu hw]
    obtain ⟨h1, -, -⟩ := hostStopWrite_fields c v (ack s.dev)
    refine ⟨recorded_drive_record (.of_keeps (hostStopWrite_keeps ..)) (by decide), ?_⟩
    simp only [drive_chans, record_chans]
    exact h1
  · have hfa : fld (writeOf a k v pec).data 0 3 = a := writeOf_addr (by omega) pec
    rw [write_sound (r := 0x04) hup hu hw (writeOf_length pec) (by rw [hfa]; exact writeJudge_mem (locate_mem ha h4) ..), hfa]
    exact ⟨recorded_drive_record (.of_sup_eq rfl) (by decide), by simp, by simp⟩
  · have hfa : fld (writeOf a k v pec).data 0 3 = a := writeOf_addr ha pec
    rw [write_sound (r := 0x0E) hup hu hw (writeOf_length pec) (by rw [hfa]; exact writeJudge_unassigned hl ..), hfa]
    exact ⟨recorded_drive_record (.of_sup_eq rfl) (by decide), by simp, by simp, by simp⟩
  · have h : ringAck w s.dev = record 0x05 0x08 0 (ack s.dev) := blockWrite_committed hup hw (by omega) nofun (if_pos h31)
    rw [h]
    exact ⟨recorded_drive_record (.of_sup_eq rfl) (by decide), by simp⟩
  · have h0 := clear_sound hup hw hlen (clearJudge_word hl hx |>.trans (if_pos hk))
    rw [h0, clearWord, hl]
    obtain ⟨h1, h2, h3, h4, h5⟩ := clearBits_ack x (fld w.data 3 4) s.dev
    exact ⟨recorded_drive_record (.of_keeps (clearBits_keeps ..)) (by decide), by simpa using h1, by simpa using h2, by simpa using h3,
      by simpa using h4, by simpa using h5⟩
  · have h0 := clear_sound hup hw hlen (clearJudge_word hl hx |>.trans (if_neg hk))
    rw [h0]
    exact ⟨recorded_drive_record (.of_sup_eq rfl) (by decide), by simp, by simp, by simp, by simp, by simp⟩
  · have h0 := clear_sound (r := 4) hup hw hlen (by rw [clearJudge, hl])
    rw [h0]
    exact ⟨recorded_drive_record (.of_sup_eq rfl) (by decide), by simp⟩
  · have h0 := clear_sound (r := 0x0E) hup hw hlen (by rw [clearJudge, hl])
    rw [h0]
    exact recorded_drive_record (.of_sup_eq rfl) (by decide)
  · exact congrArg SlotSt.thrErr (upd_same ..)

end Sys2Proof.Machine

/-! The fault collector: what a raise changes (R413 to R423), case by case, and what the moves of the bus state leave (R302). -/

namespace Sys2Proof.Machine

/-! ### One element of a vector -/

theorem upd_upd {α : Type} {n : Nat} (v : Vector α n) (i : Fin n) (f g : α → α) : upd (upd v i f) i g = upd v i fun x => g (f x) := by
  simp [upd]

theorem upd_id {α : Type} {n : Nat} (v : Vector α n) (i : Fin n) (f : α → α) (h : f v[i] = v[i]) : upd v i f = v := by
  simp only [upd, h]
  exact Vector.set_getElem_self ..

theorem upd_congr {α : Type} {n : Nat} (v : Vector α n) (i : Fin n) (f g : α → α) (h : f v[i] = g v[i]) : upd v i f = upd v i g := by simp only [upd, h]

/-! ### The stages of a raise -/

/-- The count of a source's raises in the present second (R437). -/
def turnFault (now : Nat) (y : FaultSt) : FaultSt := if y.secOf = now then y else { y with secN := 0, secMore := 0, secOf := now }

theorem secTurn_faults (i : Fsrc) (d : Device) : (secTurn i d).faults = upd d.faults i (turnFault (d.loc / sec)) := by
  unfold secTurn
  dsimp only
  split
  · next h => exact (upd_id d.faults i (turnFault (d.loc / sec)) (if_pos h)).symm
  · next h =>
    have he : upd d.faults i (fun y => { y with secN := 0, secMore := 0, secOf := d.loc / sec }) = upd d.faults i (turnFault (d.loc / sec)) :=
      upd_congr _ _ _ _ (if_neg h).symm
    split
    · exact ((logPush_keeps ..).parts .faults rfl).trans he
    · exact he

theorem secTurn_col {i : Fsrc} {d : Device} (h : (d.faults[i]).secOf = d.loc / sec ∨ (d.faults[i]).secMore = 0) : (secTurn i d).col = d.col := by
  unfold secTurn
  dsimp only
  split
  · rfl
  · next hne =>
    rw [if_neg (by rw [h.resolve_left hne]; decide)]
    rfl

/-- The severity in force depends on the configuration and on the source's reporting path (R415, R417). -/
theorem effSev_congr {d e : Device} {f : Nat} (hm : e.memory = d.memory)
    (hr : (e.faults[(Fin.ofNat 2048 f : Fsrc)]).rpath = (d.faults[(Fin.ofNat 2048 f : Fsrc)]).rpath) : effSev e f = effSev d f := by
  have hb : baseSev e f = baseSev d f := by simp only [baseSev, fsSev, Device.cf, hm]
  simp only [effSev, hb, hr]

theorem secTurn_memory (i : Fsrc) (d : Device) : (secTurn i d).memory = d.memory := (secTurn_keeps i d).memory_eq rfl rfl rfl

theorem turnFault_rpath (now : Nat) (y : FaultSt) : (turnFault now y).rpath = y.rpath := by
  unfold turnFault
  split <;> rfl

theorem secTurn_effSev (f : Nat) (d : Device) : effSev (secTurn (Fin.ofNat 2048 f) d) f = effSev d f := by
  refine effSev_congr (secTurn_memory ..) ?_
  rw [secTurn_faults, upd_same, turnFault_rpath]

/-- The words of a source after a raise of a severity, recorded or not (R416, R425, R437). -/
def raisedFault (s : Severity) (level : Bool) (wrote : Prop) [Decidable wrote] (now : Nat) (y : FaultSt) : FaultSt :=
  { y with
    active := y.active || level
    level := y.level || level
    count := satInc y.count
    hold := y.hold || (s.holds && decide (s ≠ .none))
    latched := y.latched || decide (s = .latch)
    injHold := if y.hold then y.injHold else y.inj
    heldAt := if y.hold then y.heldAt else now
    quietAt := if y.active || level then none else some now
    secN := if wrote then y.secN + 1 else y.secN
    secMore := if wrote then y.secMore else y.secMore + 1 }

/-- A raise at this instant is among the first eight of its second. -/
abbrev recordsRaise (f : Nat) (d : Device) : Prop := (turnFault (d.loc / sec) (d.faults[(Fin.ofNat 2048 f : Fsrc)])).secN < 8

/-- The raise is counted. -/
def countRaise (f : Nat) (level : Bool) (d : Device) : Device :=
  (secTurn (Fin.ofNat 2048 f) d).updFault (Fin.ofNat 2048 f) (raisedFault (effSev d f) level (recordsRaise f d) d.loc)

/-- A raise is recorded, at most eight times in a second (R437). -/
def logRaise (f : Nat) (sc : Scope) (x : Nat) (d : Device) (e : Device) : Device :=
  let r := raiseData (secTurn (Fin.ofNat 2048 f) d) sc f x
  if recordsRaise f d then logPush 1 (sevByte e f (effSev d f)) f r.1 r.2.1 r.2.2 e else e

/-- Alert and capture of a raise of a severity (R416, R439). -/
def tellRaise (f : Nat) (sc : Scope) (s : Severity) (d : Device) : Device :=
  let d := if fsAlert d (Fin.ofNat 2048 f) then alertSet 0 (d.updSup fun u => { u with alertFsrc := BitVec.ofNat 12 f }) else d
  if wantsCap d f s then captureTake f sc d else d

/-- The raise as it stands before the reaction: counted, recorded, told. -/
def recordRaise (f : Nat) (sc : Scope) (level : Bool) (x : Nat) (d : Device) : Device :=
  tellRaise f sc (effSev d f) (logRaise f sc x d (countRaise f level d))

theorem countRaise_faults (f : Nat) (level : Bool) (d : Device) : (countRaise f level d).faults =
    upd d.faults (Fin.ofNat 2048 f) fun y => raisedFault (effSev d f) level (recordsRaise f d) d.loc (turnFault (d.loc / sec) y) := by
  have h : (countRaise f level d).faults =
    upd (secTurn (Fin.ofNat 2048 f) d).faults (Fin.ofNat 2048 f) (raisedFault (effSev d f) level (recordsRaise f d) d.loc) := rfl
  rw [h, secTurn_faults, upd_upd]

theorem countRaise_keeps (f : Nat) (level : Bool) (d : Device) : Keeps [.arbs, .faults, .log] d (countRaise f level d) :=
  (secTurn_keeps ..).trans ((updFault_keeps ..).mono rfl)

theorem alertFsrc_keeps (f : Nat) (d : Device) : Keeps [.alert] d (alertSet 0 (d.updSup fun u => { u with alertFsrc := BitVec.ofNat 12 f })) :=
  (alertSet_keeps ..).after (updSup_keeps (S := [.alert]) d fun _ => ⟨fun _ => rfl, nofun⟩) rfl

theorem tellRaise_keeps (f : Nat) (sc : Scope) (s : Severity) (d : Device) : Keeps [.arbs, .caps, .alert] d (tellRaise f sc s d) := by
  have ha : Keeps [.arbs, .caps, .alert] d (if fsAlert d (Fin.ofNat 2048 f) then
      alertSet 0 (d.updSup fun u => { u with alertFsrc := BitVec.ofNat 12 f }) else d) := .ite ((alertFsrc_keeps f d).mono rfl) (.refl ..)
  exact .ite ((captureTake_keeps ..).after ha rfl) ha

theorem logRaise_keeps (f : Nat) (sc : Scope) (x : Nat) (d e : Device) : Keeps [.arbs, .log] e (logRaise f sc x d e) :=
  .ite (logPush_keeps ..) (.refl ..)

theorem recordRaise_keeps (f : Nat) (sc : Scope) (level : Bool) (x : Nat) (d : Device) :
    Keeps [.arbs, .faults, .log, .caps, .alert] d (recordRaise f sc level x d) :=
  (tellRaise_keeps ..).after ((logRaise_keeps ..).after ((countRaise_keeps ..).mono rfl) rfl) rfl

theorem recordRaise_faults (f : Nat) (sc : Scope) (level : Bool) (x : Nat) (d : Device) :
    (recordRaise f sc level x d).faults =
      upd d.faults (Fin.ofNat 2048 f) fun y => raisedFault (effSev d f) level (recordsRaise f d) d.loc (turnFault (d.loc / sec) y) :=
  ((tellRaise_keeps ..).parts .faults rfl).trans (((logRaise_keeps ..).parts .faults rfl).trans (countRaise_faults ..))

theorem Keeps.logQ_eq {S : List Part} {d e : Device} (k : Keeps S d e) (h : S.contains .log = false) : e.col.logQ = d.col.logQ := by
  have hl : (e.col.logWr, e.col.logRd, e.col.logOvw, e.col.logLost, e.col.logSeq, e.col.logQ, e.col.logCyc) =
      (d.col.logWr, d.col.logRd, d.col.logOvw, d.col.logLost, d.col.logSeq, d.col.logQ, d.col.logCyc) := k.parts .log h
  simp only [Prod.mk.injEq] at hl
  obtain ⟨-, -, -, -, -, hq, -⟩ := hl
  exact hq

section
variable {f : Nat} (sc : Scope) (level : Bool) (x : Nat) {d : Device}
variable (h : (d.faults[(Fin.ofNat 2048 f : Fsrc)]).secOf = d.loc / sec ∨ (d.faults[(Fin.ofNat 2048 f : Fsrc)]).secMore = 0)
include h

/-- The queue of the log after a raise whose second owes no record. -/
theorem recordRaise_logQ (hn : recordsRaise f d) (hroom : d.col.logQ.length < 32) :
    (recordRaise f sc level x d).col.logQ.length = d.col.logQ.length + 1 := by
  have hc : (countRaise f level d).col = d.col := secTurn_col h
  rw [recordRaise, (tellRaise_keeps ..).logQ_eq rfl, logRaise, if_pos hn, logPush_length _ _ _ _ _ _ _ (by rw [hc]; exact hroom), hc]

theorem recordRaise_logQ_full (hn : ¬ recordsRaise f d) :
    (recordRaise f sc level x d).col.logQ = d.col.logQ := by
  have hc : (countRaise f level d).col = d.col := secTurn_col h
  rw [recordRaise, (tellRaise_keeps ..).logQ_eq rfl, logRaise, if_neg hn, hc]

end

/-! ### The cases of a raise -/

section
variable {f : Nat} {level : Bool} {x : Nat} {d : Device}

theorem raiseX_reserved (h : scopeOf f = none) : raiseX f level x d = d := by rw [raiseX, h]

/-- A source that is treated as active already, or one that the collector does not judge yet, only keeps its level (R415, R430). -/
theorem raiseX_again {sc : Scope} (hs : scopeOf f = some sc) (h : colRuns d = false ∨ (d.faults[(Fin.ofNat 2048 f : Fsrc)]).active = true) :
    raiseX f level x d = d.updFault (Fin.ofNat 2048 f) fun y => { y with level := y.level || level } := by
  rw [raiseX, hs]
  by_cases hc : colRuns d = false
  · simp only [hc, if_true]
  · simp only [hc, h.resolve_left hc, if_true]
    rfl

theorem raiseX_new {sc : Scope} (hs : scopeOf f = some sc) (hc : colRuns d = true) (ha : (d.faults[(Fin.ofNat 2048 f : Fsrc)]).active = false) :
    raiseX f level x d = reactNow f sc (effSev d f) (recordRaise f sc level x d) := by
  have hl : (secTurn (Fin.ofNat 2048 f) d).loc = d.loc := congrArg Clocks.loc ((secTurn_keeps (Fin.ofNat 2048 f) d).parts .clk rfl)
  have hn : turnFault (d.loc / sec) (d.faults[(Fin.ofNat 2048 f : Fsrc)]) = (secTurn (Fin.ofNat 2048 f) d).faults[(Fin.ofNat 2048 f : Fsrc)] := by
    rw [secTurn_faults, upd_same]
  have he := secTurn_effSev f d
  rw [raiseX, hs]
  dsimp only
  rw [if_neg (by simp [hc]), if_neg (Bool.eq_false_iff.1 ha)]
  unfold recordRaise tellRaise logRaise countRaise recordsRaise
  rw [hn, ← he, ← hl]
  generalize secTurn (Fin.ofNat 2048 f) d = e
  rfl

end

end Sys2Proof.Machine

namespace Sys2Proof.Machine

/-! ### The reaction -/

theorem reactNow_running {f : Nat} {sc : Scope} {s : Severity} {d : Device} (h : d.start.st = .run ∨ d.start.launched = true) :
    reactNow f sc s d = react f sc (actSev sc s) d := if_pos h

theorem actSev_log (sc : Scope) : actSev sc .log = .log := by cases sc <;> rfl

theorem react_log (f : Nat) (sc : Scope) (d : Device) : react f sc .log d = d := by simp [react, reach, forEach, Severity.holds]

/-- A source of severity LOG stops nothing (R418). -/
theorem reactNow_log (f : Nat) (sc : Scope) (d : Device) : reactNow f sc .log d = d := by
  simp [reactNow, actSev_log, react_log, Severity.holds]

/-- The reaction notes of its source at most that it waits for the RUN launch. -/
theorem reactNow_faults (f : Nat) (sc : Scope) (s : Severity) (d : Device) : (reactNow f sc s d).faults = d.faults ∨
    (reactNow f sc s d).faults = upd d.faults (Fin.ofNat 2048 f) fun y => { y with pre := true } := by
  have hr (e : Device) : (react f sc (actSev sc s) e).faults = e.faults := (react_keeps ..).parts .faults rfl
  unfold reactNow
  dsimp only
  split
  · exact .inl (hr d)
  split
  · exact .inl ((hr _).trans ((latchAtStart_keeps d).parts .faults rfl))
  split
  · exact .inr rfl
  · exact .inl rfl

theorem reactNow_fault (f : Nat) (sc : Scope) (s : Severity) (d : Device) : ∃ b, (reactNow f sc s d).faults[(Fin.ofNat 2048 f : Fsrc)] =
    { d.faults[(Fin.ofNat 2048 f : Fsrc)] with pre := b } := by
  rcases reactNow_faults f sc s d with h | h
  · exact ⟨_, by rw [h]⟩
  · exact ⟨true, by rw [h, upd_same]⟩

theorem reactNow_fault_other {f : Nat} (sc : Scope) (s : Severity) (d : Device) {g : Fsrc} (hg : g ≠ Fin.ofNat 2048 f) :
    (reactNow f sc s d).faults[g] = d.faults[g] := by
  rcases reactNow_faults f sc s d with h | h
  · rw [h]
  · rw [h, upd_other _ _ _ _ hg]

/-! ### The words of the sources after a raise -/

/-- The words of a source that is raised anew. -/
theorem raiseX_fault {f : Nat} {level : Bool} {x : Nat} {d : Device} {sc : Scope} (hs : scopeOf f = some sc) (hc : colRuns d = true)
    (ha : (d.faults[(Fin.ofNat 2048 f : Fsrc)]).active = false) : ∃ b, (raiseX f level x d).faults[(Fin.ofNat 2048 f : Fsrc)] =
    { raisedFault (effSev d f) level (recordsRaise f d) d.loc (turnFault (d.loc / sec) d.faults[(Fin.ofNat 2048 f : Fsrc)]) with pre := b } := by
  rw [raiseX_new hs hc ha]
  obtain ⟨b, hb⟩ := reactNow_fault f sc (effSev d f) (recordRaise f sc level x d)
  exact ⟨b, by rw [hb, recordRaise_faults, upd_same]⟩

/-- A raise changes no other source's words. -/
theorem raiseX_fault_other {f : Nat} (level : Bool) (x : Nat) (d : Device) {g : Fsrc} (hg : g ≠ Fin.ofNat 2048 f) :
    (raiseX f level x d).faults[g] = d.faults[g] := by
  cases hs : scopeOf f with
  | none => rw [raiseX_reserved hs]
  | some sc =>
    by_cases h : colRuns d = false ∨ (d.faults[(Fin.ofNat 2048 f : Fsrc)]).active = true
    · rw [raiseX_again hs h]
      exact upd_other _ _ _ _ hg
    · simp only [not_or, Bool.not_eq_false, Bool.not_eq_true] at h
      obtain ⟨hc, ha⟩ := h
      rw [raiseX_new hs hc ha, reactNow_fault_other _ _ _ hg, recordRaise_faults, upd_other _ _ _ _ hg]

@[simp] theorem turnFault_active (now : Nat) (y : FaultSt) : (turnFault now y).active = y.active := by unfold turnFault; split <;> rfl
@[simp] theorem turnFault_count (now : Nat) (y : FaultSt) : (turnFault now y).count = y.count := by unfold turnFault; split <;> rfl
@[simp] theorem turnFault_hold (now : Nat) (y : FaultSt) : (turnFault now y).hold = y.hold := by unfold turnFault; split <;> rfl
@[simp] theorem turnFault_level (now : Nat) (y : FaultSt) : (turnFault now y).level = y.level := by unfold turnFault; split <;> rfl
@[simp] theorem turnFault_latched (now : Nat) (y : FaultSt) : (turnFault now y).latched = y.latched := by unfold turnFault; split <;> rfl
@[simp] theorem turnFault_inj (now : Nat) (y : FaultSt) : (turnFault now y).inj = y.inj := by unfold turnFault; split <;> rfl

theorem holds_and_ne_none (s : Severity) : (s.holds && decide (s ≠ .none)) = s.holds := by cases s <;> rfl

/-! ### Channels under a hold -/

/-- A channel that a source holds, with its gate closed. -/
structure HeldBy (f : Nat) (c : Chan) (d : Device) : Prop where
  st : (d.chans[c]).st = .held
  gate : (d.chans[c]).gate = false
  holder : f ∈ (d.chans[c]).holders

/-- The gate of a channel that does not switch stays closed. -/
theorem regate_idle {c : Chan} {d : Device} (hst : (d.chans[c]).st.switching = false) (hg : (d.chans[c]).gate = false) : regate c d = d := by
  have hw : gateWanted d c = false := by simp only [gateWanted, hst, Bool.false_and]
  rw [regate]
  exact if_pos (hw.trans hg.symm)

/-- Closing the gate of a channel that does not switch. -/
theorem regate_closes {c : Chan} {d : Device} (hst : (d.chans[c]).st.switching = false) : ((regate c d).chans[c]).gate = false ∧
    ((regate c d).chans[c]).st = (d.chans[c]).st ∧ ((regate c d).chans[c]).holders = (d.chans[c]).holders := by
  have hw : gateWanted d c = false := by simp only [gateWanted, hst, Bool.false_and]
  by_cases hg : (d.chans[c]).gate = false
  · rw [regate_idle hst hg]
    exact ⟨hg, rfl, rfl⟩
  · have hgo (e : Device) : (forEach (members e c) slotGateOff e).chans = e.chans := (Keeps.forEach slotGateOff_keeps (.refl [.slots] e)).parts .chans rfl
    rw [regate, hw]
    dsimp only
    rw [if_neg (fun h => hg h.symm), if_neg (by decide), hgo]
    simp [-Fin.getElem_fin]

theorem enterCh_otherChans (c : Chan) (st : ChState) (d : Device) : OtherChans c d (enterCh c st d) := by
  have h1 : OtherChans c d (if (d.chans[c]).st = .regulate ∧ st ≠ .regulate then (abandonRest c d).updChan c fun s =>
      { s with hp := if (d.profs[c]).waitSlot then 0 else 1, hpDownAt := none, hpUpAt := none } else d) :=
    .ite (((OtherChans.refl c d).updProf _).updChan _) (.refl c d)
  exact ((h1.updProf _).updChan _).trans (regate_otherChans ..)

theorem holdChan_otherChans (f : Nat) (c : Chan) (d : Device) : OtherChans c d (holdChan f c d) := by
  have h1 := (OtherChans.refl c d).updChan fun s => { s with holders := if f ∈ s.holders then s.holders else s.holders ++ [f] }
  exact .ite (.ite h1 (((h1.updChan _).trans (enterCh_otherChans ..)).updProf _)) (.refl c d)

theorem HeldBy.of_chan {f : Nat} {c : Chan} {d e : Device} (h : HeldBy f c d) (he : e.chans[c] = d.chans[c]) : HeldBy f c e :=
  ⟨he ▸ h.st, he ▸ h.gate, he ▸ h.holder⟩

theorem HeldBy.of_keeps {S : List Part} {f : Nat} {c : Chan} {d e : Device} (h : HeldBy f c d) (k : Keeps S d e) (hs : S.contains .chans = false := by rfl) :
    HeldBy f c e := h.of_chan (congrArg (·[c]) (k.parts .chans hs))

/-- A hold more leaves a held channel held. -/
theorem HeldBy.holdChan {f : Nat} {c : Chan} {d : Device} (h : HeldBy f c d) (g : Nat) (k : Chan) : HeldBy f c (Machine.holdChan g k d) := by
  by_cases hk : c = k
  · subst hk
    unfold Machine.holdChan
    split
    · have hst : (((d.updChan c fun s => { s with holders := if g ∈ s.holders then s.holders else s.holders ++ [g] }).chans[c]).st) = .held := by
        simpa [-Fin.getElem_fin] using h.st
      dsimp only
      rw [if_pos (.inl hst)]
      refine ⟨hst, by simpa [-Fin.getElem_fin] using h.gate, ?_⟩
      have := h.holder
      simp only [updChan_chans, upd_same]
      split
      · exact this
      · exact List.mem_append_left _ this
    · exact h
  · exact h.of_chan ((holdChan_otherChans g k d).chan c hk)

theorem HeldBy.regate {f : Nat} {c : Chan} {d : Device} (h : HeldBy f c d) (k : Chan) : HeldBy f c (Machine.regate k d) := by
  by_cases hk : c = k
  · subst hk
    rw [regate_idle (by rw [h.st]; rfl) h.gate]
    exact h
  · exact h.of_chan ((regate_otherChans k d).chan c hk)

end Sys2Proof.Machine

namespace Sys2Proof.Machine

theorem switching_held : ChState.switching .held = false := rfl

/-- A fault reaction takes an armed channel (R232). -/
theorem holdChan_holds (f : Nat) {c : Chan} {d : Device} (ha : (d.chans[c]).armed = true) (hh : (d.chans[c]).st ≠ .held)
    (hu : (d.chans[c]).st ≠ .unarmed) : HeldBy f c (holdChan f c d) := by
  obtain ⟨e, he⟩ : ∃ e, e = (d.updChan c fun s => { s with holders := if f ∈ s.holders then s.holders else s.holders ++ [f] }) := ⟨_, rfl⟩
  have hst : (e.chans[c]).st = (d.chans[c]).st := by rw [he]; simp [-Fin.getElem_fin]
  have hf : f ∈ (e.chans[c]).holders := by
    rw [he]
    simp only [updChan_chans, upd_same]
    split
    · assumption
    · exact List.mem_append_right _ (List.mem_singleton.2 rfl)
  have hd : holdChan f c d = pauseProf c (enterCh c .held (e.updChan c fun s => { s with stopCause := 3 })) := by
    rw [holdChan, if_pos ha, ← he]
    exact if_neg (by rw [hst]; exact fun h => h.elim hh hu)
  rw [hd]
  refine HeldBy.of_keeps (S := [.profs]) ?_ (pauseProf_keeps ..)
  have hen : ∀ e' : Device, f ∈ (e'.chans[c]).holders → HeldBy f c (enterCh c .held e') := by
    intro e' hf'
    obtain ⟨g, hg⟩ : ∃ g : Device, enterCh c .held e' = regate c (g.updChan c fun s => { s with st := .held }) ∧ f ∈ (g.chans[c]).holders := by
      refine ⟨_, rfl, ?_⟩
      simp only [updProf_chans]
      split
      · simpa [-Fin.getElem_fin, abandonRest] using hf'
      · exact hf'
    obtain ⟨hg, hm⟩ := hg
    rw [hg]
    have hst : ((g.updChan c fun s => { s with st := .held }).chans[c]).st = .held := by simp [-Fin.getElem_fin]
    obtain ⟨h1, h2, h3⟩ := regate_closes (c := c) (d := g.updChan c fun s => { s with st := .held }) (by rw [hst]; rfl)
    refine ⟨h2.trans hst, h1, ?_⟩
    rw [h3]
    simpa [-Fin.getElem_fin] using hm
  exact hen _ (by simpa [-Fin.getElem_fin] using hf)

/-- A reaction over a list of channels takes each armed one. -/
theorem forEach_holdChan_holds (f : Nat) {c : Chan} (l : List Chan) {d : Device} (hc : c ∈ l) (ha : (d.chans[c]).armed = true)
    (hh : (d.chans[c]).st ≠ .held) (hu : (d.chans[c]).st ≠ .unarmed) : HeldBy f c (forEach l (holdChan f) d) := by
  induction l generalizing d with
  | nil => cases hc
  | cons k l ih =>
    by_cases hk : c = k
    · subst hk
      exact forEach_induct (HeldBy f c) l _ (fun k e h => h.holdChan f k) _ (holdChan_holds f ha hh hu)
    · have he := (holdChan_otherChans f k d).chan c hk
      exact ih ((List.mem_cons.1 hc).resolve_left hk) (he ▸ ha) (he ▸ hh) (he ▸ hu)

/-! ### Paths -/

/-- No path changes but for the code of its comparator. -/
structure KeepsPaths (d e : Device) : Prop where
  same : ∀ c : Chan, ∃ b, e.paths[c] = { d.paths[c] with instCode := b }

namespace KeepsPaths
variable {d e g : Device}

theorem of_eq (h : e.paths = d.paths) : KeepsPaths d e := ⟨fun c => ⟨(d.paths[c]).instCode, by rw [h]⟩⟩

theorem of_keeps {S : List Part} (k : Keeps S d e) (h : S.contains .paths = false := by rfl) : KeepsPaths d e := .of_eq (k.parts .paths h)

theorem trans (h : KeepsPaths d e) (k : KeepsPaths e g) : KeepsPaths d g := ⟨fun c => by
  obtain ⟨b, hb⟩ := h.same c
  obtain ⟨b', hb'⟩ := k.same c
  exact ⟨b', by rw [hb', hb]⟩⟩

theorem step {S : List Part} (h : KeepsPaths d e) (k : Keeps S e g) (hs : S.contains .paths = false := by rfl) : KeepsPaths d g :=
  h.trans (.of_keeps k hs)

/-- From a device with the same paths on. -/
theorem from_eq (h : KeepsPaths e g) (he : e.paths = d.paths) : KeepsPaths d g := (KeepsPaths.of_eq he).trans h

theorem ite {p : Prop} [Decidable p] (h : KeepsPaths d e) (k : KeepsPaths d g) : KeepsPaths d (if p then e else g) := by split <;> assumption

theorem forEach {α : Type} {f : α → Device → Device} (hf : ∀ a d, KeepsPaths d (f a d)) (l : List α) (d : Device) :
    KeepsPaths d (Machine.forEach l f d) := forEach_induct (KeepsPaths d) l f (fun a _ he => he.trans (hf a _)) d (.of_eq rfl)

end KeepsPaths

theorem regate_paths (c : Chan) (d : Device) : KeepsPaths d (regate c d) := by
  have h : KeepsPaths d (((d.updChan c fun s => { s with gate := gateWanted d c, chBelow := false }).updPath c fun p =>
      { p with instCode := !gateWanted d c }).updProf c fun p => { p with carried := true, zeroAt := if gateWanted d c then none else some d.up }) := by
    refine ⟨fun k => ?_⟩
    by_cases hk : k = c
    · subst hk
      exact ⟨!gateWanted d k, upd_same ..⟩
    · exact ⟨(d.paths[k]).instCode, upd_other _ _ _ _ hk⟩
  exact .ite (.of_eq rfl) (.ite h (h.trans (.of_keeps (S := [.slots]) (Keeps.forEach slotGateOff_keeps (.refl ..)))))

theorem enterCh_paths (c : Chan) (st : ChState) (d : Device) : KeepsPaths d (enterCh c st d) := by
  unfold enterCh
  dsimp only
  exact (regate_paths c _).from_eq (by split <;> rfl)

theorem holdChan_paths (f : Nat) (c : Chan) (d : Device) : KeepsPaths d (holdChan f c d) := by
  have h1 := KeepsPaths.of_keeps (updChan_keeps c (fun s => { s with holders := if f ∈ s.holders then s.holders else s.holders ++ [f] }) d)
  refine .ite (.ite h1 ?_) (.of_eq rfl)
  exact ((h1.step (updChan_keeps ..)).trans (enterCh_paths ..)).step (pauseProf_keeps ..)

theorem halveQuad_paths (q : Quad) (d : Device) : KeepsPaths d (halveQuad q d) := by
  unfold halveQuad
  dsimp only
  exact (KeepsPaths.forEach (fun c e => regate_paths c e) (quadChans q) _).from_eq rfl

/-- A reaction in a scope that is no path opens none. -/
theorem react_paths (f : Nat) {sc : Scope} (hs : ∀ c, sc ≠ .path c) (s : Severity) (d : Device) : KeepsPaths d (react f sc s d) := by
  have h1 : KeepsPaths d (forEach (reach d sc s) (holdChan f) d) := .forEach (fun c e => holdChan_paths f c e) ..
  unfold react
  refine .ite (.step (.ite ?_ h1) (updCol_keeps (S := [.col]) _ fun _ => ⟨nofun, fun _ => rfl, fun _ => rfl, fun _ => rfl⟩)) (.ite ?_ h1)
  all_goals
    cases sc with
    | path c => exact absurd rfl (hs c)
    | source k => exact h1.trans (.of_keeps (srcOpen_keeps ..))
    | slot n => exact h1.trans (.of_eq rfl)
    | _ => exact h1

theorem raiseX_cases (f : Nat) (level : Bool) (x : Nat) (d : Device) : Keeps [.faults] d (raiseX f level x d) ∨
    ∃ sc, scopeOf f = some sc ∧ colRuns d = true ∧ (d.faults[(Fin.ofNat 2048 f : Fsrc)]).active = false ∧
      raiseX f level x d = reactNow f sc (effSev d f) (recordRaise f sc level x d) := by
  cases hs : scopeOf f with
  | none => exact .inl (by rw [raiseX_reserved hs]; exact .refl ..)
  | some sc =>
    by_cases h : colRuns d = false ∨ (d.faults[(Fin.ofNat 2048 f : Fsrc)]).active = true
    · exact .inl (by rw [raiseX_again hs h]; exact updFault_keeps ..)
    · simp only [not_or, Bool.not_eq_false, Bool.not_eq_true] at h
      exact .inr ⟨sc, rfl, h.1, h.2, raiseX_new hs h.1 h.2⟩

theorem reactNow_paths (f : Nat) {sc : Scope} (hs : ∀ c, sc ≠ .path c) (s : Severity) (d : Device) : KeepsPaths d (reactNow f sc s d) :=
  .ite (react_paths f hs ..) (.ite ((KeepsPaths.of_keeps (latchAtStart_keeps d)).trans (react_paths f hs ..)) (.ite (.of_eq rfl) (.of_eq rfl)))

theorem raiseX_paths {f : Nat} (hs : ∀ c, scopeOf f ≠ some (.path c)) (level : Bool) (x : Nat) (d : Device) : KeepsPaths d (raiseX f level x d) := by
  rcases raiseX_cases f level x d with k | ⟨sc, hsc, -, -, he⟩
  · exact .of_keeps k
  · rw [he]
    exact (KeepsPaths.of_keeps (recordRaise_keeps ..)).trans (reactNow_paths f (fun c h => hs c (h ▸ hsc)) ..)

/-! ### What the moves of the bus state leave -/

/-- Sources of the collector that the moves of the bus state raise (R296, R303). -/
def busRaises (g : Nat) : Prop := g = 0x4B4 ∨ ∃ k : Src, g = 0x4A8 + k.1

/-- A predicate that every operation of the bus moves keeps. -/
structure BusClosed (P : Device → Prop) : Prop where
  keeps : ∀ d e, Keeps [.isl, .srcs, .bus] d e → P d → P e
  raise : ∀ g d, busRaises g → P d → P (Machine.raise g d)
  halve : ∀ q d, P d → P (halveQuad q d)

namespace BusClosed
variable {P : Device → Prop} (h : BusClosed P) {d : Device}
include h

theorem setBus (st : BusState) (hp : P d) : P (setBus st d) := h.keeps _ _ ((setBus_keeps ..).mono rfl) hp

theorem halveCall (k : Src) (hp : P d) : P (halveCall k d) := by
  unfold Machine.halveCall
  have h1 : P (halveQuad k (d.updSrc k fun s => { s with halveHit := true })) := h.halve _ _ (h.keeps _ _ ((updSrc_keeps ..).mono rfl) hp)
  have h2 := forEach_induct P (allQuads.filter fun q => decide (q ≠ k)) (fun q d => send (.between k q) .halve d)
    (fun q e he => h.keeps _ _ ((send_keeps ..).mono rfl) he) _ h1
  dsimp only
  split
  · exact hp
  split
  · exact h.raise _ _ (.inr ⟨k, rfl⟩) h2
  · exact h2

theorem halveEval (hp : P d) : P (halveEval d) := by
  unfold Machine.halveEval
  dsimp only
  split
  · exact forEach_induct P _ _ (fun k e he => h.halveCall k he) _ (h.keeps _ _ ((updBus_keeps ..).mono rfl) hp)
  · exact h.keeps _ _ ((updBus_keeps ..).mono rfl) hp

theorem srcToRamp (k : Src) (hp : P d) : P (srcToRamp k d) := by
  unfold Machine.srcToRamp
  split
  · exact h.keeps _ _ ((updSrc_keeps ..).mono rfl) hp
  · exact h.halveEval (h.keeps _ _ ((updSrc_keeps ..).mono rfl) hp)

theorem srcHoDone (k : Src) (hp : P d) : P (srcHoDone k d) := by
  unfold Machine.srcHoDone
  split
  · exact h.srcToRamp k hp
  · exact h.keeps _ _ ((updSrc_keeps ..).mono rfl) hp
  · exact hp

theorem handover (hp : P d) : P (handover d) := by
  have hb (e : Device) (b : BusSt) : Keeps [.isl, .srcs, .bus] e { e with bus := b } := (set_bus_keeps e b).mono rfl
  have h1 := h.keeps _ _ ((updBus_keeps (fun b => { b with b := 0, p := 0, belowRun := 0, hoCnt := satInc b.hoCnt }) _).mono rfl) (h.setBus .handover hp)
  have h2 := h.keeps _ _ ((sendBudgets_keeps (fun _ => 0) _).mono rfl) h1
  exact h.raise _ _ (.inl rfl) (h.keeps _ _ ((set_srcs_keeps _ _).mono rfl) h2)

theorem busMove (hp : P d) : P (busMove d) := by
  unfold Machine.busMove
  split
  · split
    · exact hp
    · exact h.handover hp
  · split
    · exact forEach_induct P _ _ (fun k e he => h.srcHoDone k he) _ (h.setBus _ hp)
    · exact hp
  · split
    · exact h.setBus _ hp
    · exact hp
  · split
    · exact h.handover hp
    · split
      · exact hp
      · exact h.setBus _ hp
  · exact hp

theorem busEval (hp : P d) : P (busEval d) := h.busMove (h.busMove (h.busMove (h.busMove hp)))

end BusClosed

theorem busEval_settled {d : Device} (h : busSettled d = true) : busEval d = d := by
  have hm : busMove d = d := by
    unfold busSettled at h
    unfold busMove
    split <;> rename_i hst <;> simp only [hst] at h
    · rw [if_pos h]
    · simp only [Bool.not_eq_true', Bool.and_eq_false_iff, Bool.not_eq_false'] at h
      rw [if_neg fun hf => by simp [hf.1, hf.2] at h]
    · rw [if_neg]
      simpa using h
    · simp only [Bool.and_eq_true] at h
      rw [if_neg (by simp [h.1]), if_pos h.2]
    · rfl
  simp only [busEval, hm]

/-- The bus moves raise sources of sources, quadrants and the device. -/
theorem busRaises_scope {g : Nat} (h : busRaises g) : scopeOf g = some .device ∨ ∃ q, scopeOf g = some (.quadrant q) := by
  rcases h with rfl | ⟨k, rfl⟩
  · exact .inl (by decide)
  · right
    revert k
    decide

theorem busEval_paths (d : Device) : KeepsPaths d (busEval d) := by
  have h : BusClosed (KeepsPaths d) := by
    refine ⟨fun a b k hp => hp.trans (.of_keeps k), fun g a hg hp => hp.trans (raiseX_paths (fun c hc => ?_) ..), fun q a hp => hp.trans (halveQuad_paths ..)⟩
    rcases busRaises_scope hg with hs | ⟨q, hs⟩ <;> rw [hs] at hc <;> cases hc
  exact h.busEval (.of_eq rfl)

end Sys2Proof.Machine

namespace Sys2Proof.Machine

/-! ### A reaction's words of the collector -/

/-- The collector's words after a DEVICE or LATCH reaction (R419, R433). -/
def alarmed (f : Nat) (s : Severity) (c : Collector) : Collector :=
  { c with
    firstDev := if c.firstDev = 0xFFF#12 then BitVec.ofNat 12 f else c.firstDev
    devHolders := if s = .latch then unheld f c.devHolders else if f ∈ c.devHolders then c.devHolders else c.devHolders ++ [f]
    latchHolders := if s = .latch ∧ f ∉ c.latchHolders then c.latchHolders ++ [f] else c.latchHolders
    flt := true
    alive := false
    aliveRun := false
    resumeAt := none }

/-- What a reaction opens besides the channels that it holds. -/
def openScope (f : Nat) (sc : Scope) (s : Severity) (d : Device) : Device :=
  if s.holds then
    match sc with
    | .path c => if s = .breaker then pathTrip c false false d else pathOpen f c d
    | .source k => srcOpen f k d
    | .slot n => d.updSlot n fun x => { x with holders := if f ∈ x.holders then x.holders else x.holders ++ [f] }
    | _ => d
  else d

theorem react_eq (f : Nat) (sc : Scope) (s : Severity) (d : Device) : react f sc s d =
    let e := openScope f sc s (forEach (reach d sc s) (holdChan f) d)
    if s = .device ∨ s = .latch then e.updCol (alarmed f s) else e := rfl

theorem openScope_keeps (f : Nat) (sc : Scope) (s : Severity) (d : Device) : Keeps [.slots, .paths, .srcs] d (openScope f sc s d) := by
  refine .ite ?_ (.refl ..)
  cases sc with
  | path c => exact .ite ((pathTrip_keeps ..).mono rfl) ((pathOpen_keeps ..).mono rfl)
  | source k => exact (srcOpen_keeps ..).mono rfl
  | slot n => exact Keeps.mono (T := [.slots]) (updSlot_keeps n d fun _ h => h) rfl
  | _ => exact .refl ..

theorem forEach_holdChan_keeps (f : Nat) (l : List Chan) (d : Device) : Keeps [.slots, .chans, .profs, .paths] d (forEach l (holdChan f) d) :=
  Keeps.forEach (holdChan_keeps f) (.refl ..)

/-- A fault register outside the words that a reaction changes. -/
theorem Keeps.col_eq {S : List Part} {d e : Device} (k : Keeps S d e) (h1 : S.contains .col = false) (h2 : S.contains .log = false)
    (h3 : S.contains .caps = false) (h4 : S.contains .fi = false) : e.col = d.col := by
  have hr : e.col.rest = d.col.rest := k.parts .col h1
  have hl : (e.col.logWr, e.col.logRd, e.col.logOvw, e.col.logLost, e.col.logSeq, e.col.logQ, e.col.logCyc) =
    (d.col.logWr, d.col.logRd, d.col.logOvw, d.col.logLost, d.col.logSeq, d.col.logQ, d.col.logCyc) := k.parts .log h2
  have hc : (e.col.capBusy, e.col.capFull, e.col.capMissed, e.col.caps, e.col.capQ) =
    (d.col.capBusy, d.col.capFull, d.col.capMissed, d.col.caps, d.col.capQ) := k.parts .caps h3
  have hf : (e.col.fiRsN, e.col.fiRsReg, e.col.fiPec, e.col.fiCrc, e.col.fiFsrc, e.col.fiMode, e.col.fiMs, e.col.fiAt) =
    (d.col.fiRsN, d.col.fiRsReg, d.col.fiPec, d.col.fiCrc, d.col.fiFsrc, d.col.fiMode, d.col.fiMs, d.col.fiAt) := k.parts .fi h4
  generalize e.col = x at *
  generalize d.col = y at *
  cases x
  cases y
  simp only [Collector.rest, Collector.mk.injEq, Prod.mk.injEq] at hr hl hc hf ⊢
  simp [hr, hl, hc, hf]

theorem react_col (f : Nat) (sc : Scope) (s : Severity) (d : Device) :
    (react f sc s d).col = if s = .device ∨ s = .latch then alarmed f s d.col else d.col := by
  have he : (openScope f sc s (forEach (reach d sc s) (holdChan f) d)).col = d.col :=
    ((openScope_keeps ..).col_eq rfl rfl rfl rfl).trans ((forEach_holdChan_keeps ..).col_eq rfl rfl rfl rfl)
  rw [react_eq]
  dsimp only
  split
  · exact congrArg (alarmed f s) he
  · exact he

/-- The reaction of an effective severity leaves the collector's words, or alarms. -/
theorem reactNow_col (f : Nat) (sc : Scope) (s : Severity) (d : Device) : (reactNow f sc s d).col = d.col ∨
    (actSev sc s = .device ∨ actSev sc s = .latch) ∧ (reactNow f sc s d).col = alarmed f (actSev sc s) d.col := by
  have hr (e : Device) (he : e.col = d.col) : (react f sc (actSev sc s) e).col = d.col ∨
      (actSev sc s = .device ∨ actSev sc s = .latch) ∧ (react f sc (actSev sc s) e).col = alarmed f (actSev sc s) d.col := by
    rw [react_col, he]
    split
    · next h => exact .inr ⟨h, rfl⟩
    · exact .inl rfl
  unfold reactNow
  dsimp only
  split
  · exact hr d rfl
  split
  · exact hr _ rfl
  split
  · exact .inl rfl
  · exact .inl rfl

theorem raiseX_rpath (f : Nat) (level : Bool) (x : Nat) (d : Device) (g : Fsrc) : ((raiseX f level x d).faults[g]).rpath = (d.faults[g]).rpath := by
  by_cases hg : g = Fin.ofNat 2048 f
  · subst hg
    rcases hs : scopeOf f with _ | sc
    · rw [raiseX_reserved hs]
    · by_cases h : colRuns d = false ∨ (d.faults[(Fin.ofNat 2048 f : Fsrc)]).active = true
      · rw [raiseX_again hs h]
        simp [-Fin.getElem_fin]
      · simp only [not_or, Bool.not_eq_false, Bool.not_eq_true] at h
        obtain ⟨b, hb⟩ := raiseX_fault (level := level) (x := x) hs h.1 h.2
        rw [hb]
        exact turnFault_rpath ..
  · rw [raiseX_fault_other _ _ _ hg]

theorem raiseX_memory (f : Nat) (level : Bool) (x : Nat) (d : Device) : (raiseX f level x d).memory = d.memory :=
  (raiseX_keeps f level x d).memory_eq rfl rfl rfl

/-- A raise changes no severity. -/
theorem raiseX_effSev (f : Nat) (level : Bool) (x : Nat) (d : Device) (g : Nat) : effSev (raiseX f level x d) g = effSev d g :=
  effSev_congr (raiseX_memory ..) (raiseX_rpath ..)

/-- A raise that a collector's word survives: the reaction either leaves the word or alarms. -/
theorem raiseX_col_rest (f : Nat) (level : Bool) (x : Nat) (d : Device) : (raiseX f level x d).col.rest = d.col.rest ∨
    ∃ sc, scopeOf f = some sc ∧ (actSev sc (effSev d f) = .device ∨ actSev sc (effSev d f) = .latch) ∧
      (raiseX f level x d).col.rest = (alarmed f (actSev sc (effSev d f)) d.col.rest).rest := by
  rcases raiseX_cases f level x d with k | ⟨sc, hsc, -, -, he⟩
  · exact .inl (k.parts .col rfl)
  · have hr : (recordRaise f sc level x d).col.rest = d.col.rest := (recordRaise_keeps f sc level x d).parts .col rfl
    rw [he]
    rcases reactNow_col f sc (effSev d f) (recordRaise f sc level x d) with h | ⟨ha, h⟩
    · exact .inl (by rw [h, hr])
    · refine .inr ⟨sc, hsc, ha, ?_⟩
      rw [h, ← hr]
      rfl

/-- A source holds the device (R433). -/
structure DeviceHeldBy (f : Nat) (d : Device) : Prop where
  holder : f ∈ d.col.rest.devHolders
  flt : d.col.rest.flt = true
  alive : d.col.rest.alive = false
  scope : scopeOf f = some .device
  sev : effSev d f = .device

/-- A source latches the device. -/
structure LatchedBy (f : Fsrc) (d : Device) : Prop where
  holder : f.1 ∈ d.col.rest.latchHolders
  alive : d.col.rest.alive = false
  latched : (d.faults[f]).latched = true

theorem effSev_keeps {S : List Part} {d e : Device} (k : Keeps S d e) (f : Nat) (h1 : S.contains .faults = false := by rfl)
    (h2 : S.contains .mem = false := by rfl) (h3 : S.contains .conf = false := by rfl) (h4 : S.contains .swaps = false := by rfl) :
    effSev e f = effSev d f := by
  have hf : e.faults = d.faults := k.parts .faults h1
  exact effSev_congr (k.memory_eq h2 h3 h4) (by rw [hf])

theorem DeviceHeldBy.of_rest {f : Nat} {d e : Device} (h : DeviceHeldBy f d) (hr : e.col.rest = d.col.rest) (hs : effSev e f = effSev d f) :
    DeviceHeldBy f e := ⟨hr ▸ h.holder, hr ▸ h.flt, hr ▸ h.alive, h.scope, hs.trans h.sev⟩

theorem mem_unheld {f g : Nat} {l : List Nat} (h : f ∈ l) (hg : f ≠ g) : f ∈ unheld g l := List.mem_filter.2 ⟨h, decide_eq_true hg⟩

theorem DeviceHeldBy.raise {f : Nat} {d : Device} (h : DeviceHeldBy f d) (g : Nat) : DeviceHeldBy f (Machine.raise g d) := by
  have hs : effSev (Machine.raise g d) f = effSev d f := raiseX_effSev ..
  rcases raiseX_col_rest g false 0 d with hr | ⟨sc, hsc, ha, hr⟩
  · exact h.of_rest hr hs
  · refine ⟨?_, ?_, ?_, h.scope, hs.trans h.sev⟩
    · rw [Machine.raise, hr]
      show f ∈ if actSev sc (effSev d g) = .latch then unheld g d.col.rest.devHolders else
        if g ∈ d.col.rest.devHolders then d.col.rest.devHolders else d.col.rest.devHolders ++ [g]
      have hm := h.holder
      split
      · next hl =>
        refine mem_unheld hm fun e => ?_
        subst e
        rw [h.scope] at hsc
        cases hsc
        rw [h.sev] at hl
        cases hl
      split
      · exact hm
      · exact List.mem_append_left _ hm
    · rw [Machine.raise, hr]; rfl
    · rw [Machine.raise, hr]; rfl

theorem deviceHeldBy_closed (f : Nat) : BusClosed (DeviceHeldBy f) :=
  ⟨fun _ _ k h => h.of_rest (k.parts .col rfl) (effSev_keeps k f), fun g _ _ h => h.raise g,
    fun _ _ h => h.of_rest ((halveQuad_keeps ..).parts .col rfl) (effSev_keeps (halveQuad_keeps ..) f)⟩

theorem raiseX_latched (f : Nat) (level : Bool) (x : Nat) (d : Device) (g : Fsrc) (h : (d.faults[g]).latched = true) :
    ((raiseX f level x d).faults[g]).latched = true := by
  by_cases hg : g = Fin.ofNat 2048 f
  · subst hg
    rcases hs : scopeOf f with _ | sc
    · rw [raiseX_reserved hs, h]
    · by_cases hn : colRuns d = false ∨ (d.faults[(Fin.ofNat 2048 f : Fsrc)]).active = true
      · rw [raiseX_again hs hn]
        simpa [-Fin.getElem_fin] using h
      · simp only [not_or, Bool.not_eq_false, Bool.not_eq_true] at hn
        obtain ⟨b, hb⟩ := raiseX_fault (level := level) (x := x) hs hn.1 hn.2
        rw [hb]
        simp only [raisedFault, turnFault_latched, h, Bool.true_or]
  · rw [raiseX_fault_other _ _ _ hg, h]

theorem LatchedBy.of_rest {f : Fsrc} {d e : Device} (h : LatchedBy f d) (hr : e.col.rest = d.col.rest) (hl : (e.faults[f]).latched = true) :
    LatchedBy f e := ⟨hr ▸ h.holder, hr ▸ h.alive, hl⟩

theorem latchedBy_closed (f : Fsrc) : BusClosed (LatchedBy f) := by
  have hk {S : List Part} {d e : Device} (k : Keeps S d e) (h : LatchedBy f d) (h1 : S.contains .col = false) (h2 : S.contains .faults = false) :
      LatchedBy f e := by
    have hf : e.faults = d.faults := k.parts .faults h2
    exact h.of_rest (k.parts .col h1) (by rw [hf]; exact h.latched)
  refine ⟨fun _ _ k h => hk k h rfl rfl, fun g d _ h => ?_, fun _ _ h => hk (halveQuad_keeps ..) h rfl rfl⟩
  have hl := raiseX_latched g false 0 d f h.latched
  rcases raiseX_col_rest g false 0 d with hr | ⟨sc, -, -, hr⟩
  · exact h.of_rest hr hl
  · refine ⟨?_, ?_, hl⟩
    · rw [raise, hr]
      show f.1 ∈ if actSev sc (effSev d g) = .latch ∧ g ∉ d.col.rest.latchHolders then d.col.rest.latchHolders ++ [g] else d.col.rest.latchHolders
      have hm := h.holder
      split
      · exact List.mem_append_left _ hm
      · exact hm
    · rw [raise, hr]; rfl

/-! ### Held channels through raises and bus moves -/

theorem HeldBy.react {f : Nat} {c : Chan} {d : Device} (h : HeldBy f c d) (g : Nat) (sc : Scope) (s : Severity) : HeldBy f c (Machine.react g sc s d) := by
  have h1 := forEach_induct (HeldBy f c) (reach d sc s) (Machine.holdChan g) (fun k e he => he.holdChan g k) d h
  have h2 : HeldBy f c (openScope g sc s (forEach (reach d sc s) (Machine.holdChan g) d)) := h1.of_keeps (openScope_keeps ..)
  rw [react_eq]
  dsimp only
  split
  · exact h2.of_chan rfl
  · exact h2

theorem HeldBy.raiseX {f : Nat} {c : Chan} {d : Device} (h : HeldBy f c d) (g : Nat) (level : Bool) (x : Nat) : HeldBy f c (Machine.raiseX g level x d) := by
  rcases raiseX_cases g level x d with k | ⟨sc, -, -, -, he⟩
  · exact h.of_keeps k
  · rw [he]
    have hr : HeldBy f c (recordRaise g sc level x d) := h.of_keeps (recordRaise_keeps ..)
    unfold reactNow
    dsimp only
    split
    · exact hr.react ..
    split
    · exact HeldBy.react (hr.of_keeps (latchAtStart_keeps _)) ..
    split
    · exact hr.of_chan rfl
    · exact hr

theorem HeldBy.halveQuad {f : Nat} {c : Chan} {d : Device} (h : HeldBy f c d) (q : Quad) : HeldBy f c (Machine.halveQuad q d) := by
  refine forEach_induct (HeldBy f c) _ _ (fun k e he => he.regate k) _ ?_
  have hc : ((mapAll d.chans fun c s => if Chan.quad c = q then { s with halve := true } else s)[c]).st = .held ∧
      ((mapAll d.chans fun c s => if Chan.quad c = q then { s with halve := true } else s)[c]).gate = false ∧
      f ∈ ((mapAll d.chans fun c s => if Chan.quad c = q then { s with halve := true } else s)[c]).holders := by
    rw [mapAll_get]
    split
    · exact ⟨h.st, h.gate, h.holder⟩
    · exact ⟨h.st, h.gate, h.holder⟩
  exact ⟨hc.1, hc.2.1, hc.2.2⟩

theorem heldBy_closed (f : Nat) (c : Chan) : BusClosed (HeldBy f c) :=
  ⟨fun _ _ k h => h.of_keeps k, fun g _ _ h => h.raiseX g false 0, fun q _ h => h.halveQuad q⟩

end Sys2Proof.Machine

namespace Sys2Proof.Machine

/-! ### FAULT_RAISE -/

theorem raiseX_fsrc_fault {f : Fsrc} {level : Bool} {x : Nat} {d : Device} {sc : Scope} (hs : scopeOf f.1 = some sc) (hc : colRuns d = true)
    (ha : (d.faults[f]).active = false) : ∃ b, (raiseX f.1 level x d).faults[f] =
    { raisedFault (effSev d f.1) level (recordsRaise f.1 d) d.loc (turnFault (d.loc / sec) d.faults[f]) with pre := b } := by
  have h := raiseX_fault (f := f.1) (level := level) (x := x) hs hc (by simpa only [Fin.ofNat_val_eq_self] using ha)
  simpa only [Fin.ofNat_val_eq_self] using h

theorem raiseX_fsrc_new {f : Fsrc} {level : Bool} {x : Nat} {d : Device} {sc : Scope} (hs : scopeOf f.1 = some sc) (hc : colRuns d = true)
    (ha : (d.faults[f]).active = false) : raiseX f.1 level x d = reactNow f.1 sc (effSev d f.1) (recordRaise f.1 sc level x d) :=
  raiseX_new hs hc (by simpa only [Fin.ofNat_val_eq_self] using ha)

theorem raiseX_fsrc_other {f g : Fsrc} (level : Bool) (x : Nat) (d : Device) (hg : g ≠ f) : (raiseX f.1 level x d).faults[g] = d.faults[g] :=
  raiseX_fault_other level x d (by simpa only [Fin.ofNat_val_eq_self] using hg)

theorem reactNow_fsrc_fault (f : Fsrc) (sc : Scope) (s : Severity) (d : Device) : ∃ b, (reactNow f.1 sc s d).faults[f] = { d.faults[f] with pre := b } := by
  have h := reactNow_fault f.1 sc s d
  simpa only [Fin.ofNat_val_eq_self] using h

theorem actSev_latch (sc : Scope) : actSev sc .latch = .latch := by cases sc <;> rfl

theorem faultRaise_new {f : Fsrc} {d : Device} (hc : colRuns d = true) (ha : (d.faults[f]).active = false) :
    faultRaise f d = raiseX f.1 false (hkReading d f.1) d := if_neg fun h => h.elim (fun h => nomatch h.symm.trans ha) (fun h => nomatch h.symm.trans hc)

theorem faultRaise_idle {f : Fsrc} {d : Device} (h : (d.faults[f]).active = true ∨ scopeOf f.1 = none ∨ colRuns d = false) : faultRaise f d = d := by
  by_cases hn : (d.faults[f]).active = true ∨ colRuns d = false
  · exact if_pos hn
  · rw [faultRaise, if_neg hn, raiseX_reserved]
    tauto

theorem colRuns_of_run {d : Device} (h : d.start.st = .run) : colRuns d = true := by simp [colRuns, h]

theorem recordsRaise_fsrc {f : Fsrc} {d : Device} : recordsRaise f.1 d ↔ (turnFault (d.loc / sec) d.faults[f]).secN < 8 := by
  simp only [recordsRaise, Fin.ofNat_val_eq_self]

theorem turnFault_same {now : Nat} {y : FaultSt} (h : y.secOf = now) : turnFault now y = y := if_pos h

/-- The queue of the log after a raise. -/
theorem raiseX_logQ {f : Fsrc} {sc : Scope} (hs : scopeOf f.1 = some sc) (level : Bool) (x : Nat) {d : Device} (hc : colRuns d = true)
    (ha : (d.faults[f]).active = false) : (raiseX f.1 level x d).col.logQ = (recordRaise f.1 sc level x d).col.logQ := by
  rw [raiseX_fsrc_new hs hc ha]
  exact (reactNow_keeps ..).logQ_eq rfl

/-! ### RPATH_FAULT and RPATH_RESTORED -/

/-- The reporting path is marked as failed, with its record (R415). -/
def markPath (f : Fsrc) (lv : Bool) (d : Device) : Device :=
  let d := d.updFault f fun y => { y with rpath := true, injPath := y.inj }
  logPush 4 (sevByte d f.1 (effSev d f.1)) f.1 (3 * b2n lv) 0 0 d

theorem markPath_keeps (f : Fsrc) (lv : Bool) (d : Device) : Keeps [.arbs, .faults, .log] d (markPath f lv d) :=
  (logPush_keeps ..).after ((updFault_keeps ..).mono rfl) rfl

theorem markPath_faults (f : Fsrc) (lv : Bool) (d : Device) :
    (markPath f lv d).faults = upd d.faults f fun y => { y with rpath := true, injPath := y.inj } := (logPush_keeps ..).parts .faults rfl

theorem markPath_fault (f : Fsrc) (lv : Bool) (d : Device) :
    (markPath f lv d).faults[f] = { d.faults[f] with rpath := true, injPath := (d.faults[f]).inj } := by rw [markPath_faults, upd_same]

theorem markPath_effSev (f : Fsrc) (lv : Bool) (d : Device) :
    effSev (markPath f lv d) f.1 = effSev (d.updFault f fun y => { y with rpath := true, injPath := y.inj }) f.1 := by
  refine effSev_congr ((logPush_keeps ..).memory_eq rfl rfl rfl) ?_
  simp only [Fin.ofNat_val_eq_self, markPath_faults]
  rfl

/-- A source with a failed path and the base severity DEVICE acts as LATCH (R415). -/
theorem markPath_effSev_device {f : Fsrc} {lv : Bool} {d : Device} {sc : Scope} (hs : scopeOf f.1 = some sc) (hb : baseSev d f.1 = .device) :
    effSev (markPath f lv d) f.1 = .latch := by
  have hm : baseSev (markPath f lv d) f.1 = baseSev d f.1 := by
    simp only [baseSev, fsSev, Device.cf, (markPath_keeps f lv d).memory_eq rfl rfl rfl]
  have hr : ((markPath f lv d).faults[(Fin.ofNat 2048 f.1 : Fsrc)]).rpath = true := by simp only [Fin.ofNat_val_eq_self, markPath_fault]
  simp only [effSev, hs, hm, hb, hr, and_self, if_true]

section
variable {f : Fsrc} {lv : Bool} {d : Device}

theorem rpathFault_idle (h : (d.faults[f]).rpath = true ∨ colRuns d = false) : rpathFault f lv d = d := by
  unfold rpathFault
  split
  · rfl
  · exact if_pos h

variable {sc : Scope} (hs : scopeOf f.1 = some sc) (hc : colRuns d = true) (hp : (d.faults[f]).rpath = false)
include hs hc hp

/-- A source that is active already keeps its count and has its reaction taken afresh. -/
theorem rpathFault_active (ha : (d.faults[f]).active = true) : rpathFault f lv d =
    reactNow f.1 sc (effSev (markPath f lv d) f.1) ((markPath f lv d).updFault f fun y => { y with
      hold := y.hold || (effSev (markPath f lv d) f.1).holds, injHold := if y.hold then y.injHold else y.inj
      heldAt := if y.hold then y.heldAt else (markPath f lv d).loc
      latched := y.latched || decide (actSev sc (effSev (markPath f lv d) f.1) = .latch) }) := by
  rw [rpathFault, hs]
  simp only [hp, hc, ha, markPath_effSev]
  rfl

theorem rpathFault_raises (ha : (d.faults[f]).active = false) : rpathFault f lv d =
    (raiseX f.1 true (hkReading (markPath f lv d) f.1) (markPath f lv d)).updFault f fun y => { y with level := (d.faults[f]).level } := by
  rw [rpathFault, hs]
  simp only [hp, hc, ha]
  rfl

end

theorem markPath_colRuns {f : Fsrc} {lv : Bool} {d : Device} (h : colRuns d = true) : colRuns (markPath f lv d) = true := by
  have hs : (markPath f lv d).start = d.start := (markPath_keeps f lv d).start_eq rfl rfl rfl
  rw [colRuns, hs]
  exact h

/-! ### What a raise does, clause by clause -/

section
variable {f : Fsrc} {sc : Scope} {d : Device} (hc : colRuns d = true) (ha : (d.faults[f]).active = false) (hs : scopeOf f.1 = some sc)
include hc ha hs

/-- The words of a source after its raise: one more count, its hold, its quiet time from now on. -/
theorem faultRaise_words : ((faultRaise f d).faults[f]).count = satInc (d.faults[f]).count ∧
    ((faultRaise f d).faults[f]).hold = ((d.faults[f]).hold || (effSev d f.1).holds) ∧ ((faultRaise f d).faults[f]).active = false ∧
    ((faultRaise f d).faults[f]).quietAt = some d.clk.loc := by
  obtain ⟨b, hf⟩ := raiseX_fsrc_fault (level := false) (x := hkReading d f.1) hs hc ha
  rw [faultRaise_new hc ha, hf]
  refine ⟨?_, ?_, ?_, ?_⟩
  · simp only [raisedFault, turnFault_count]
  · simp only [raisedFault, turnFault_hold, holds_and_ne_none]
  · simp only [raisedFault, turnFault_active, ha, Bool.or_self]
  · simp only [raisedFault, turnFault_active, ha, Bool.or_self, Bool.false_eq_true, if_false]
    rfl

/-- The record of a raise, one of at most eight of its second (R437). -/
theorem faultRaise_recorded (hq : (d.faults[f]).secOf = d.loc / sec ∨ (d.faults[f]).secMore = 0)
    (hn : (turnFault (d.loc / sec) d.faults[f]).secN < 8) (hroom : d.col.logQ.length < 32) :
    (faultRaise f d).col.logQ.length = d.col.logQ.length + 1 ∧
    ((faultRaise f d).faults[f]).secN = (turnFault (d.loc / sec) d.faults[f]).secN + 1 ∧
    ((faultRaise f d).faults[f]).secOf = (turnFault (d.loc / sec) d.faults[f]).secOf := by
  obtain ⟨b, hf⟩ := raiseX_fsrc_fault (level := false) (x := hkReading d f.1) hs hc ha
  have hr : recordsRaise f.1 d := recordsRaise_fsrc.2 hn
  rw [faultRaise_new hc ha]
  refine ⟨?_, ?_, ?_⟩
  · rw [raiseX_logQ hs _ _ hc ha]
    exact recordRaise_logQ sc false _ (by simpa only [Fin.ofNat_val_eq_self] using hq) hr hroom
  · rw [hf]
    exact if_pos hr
  · rw [hf]
    rfl

/-- A raise beyond the eighth of its second is only counted (R437). -/
theorem faultRaise_suppressed (hq : (d.faults[f]).secOf = d.loc / sec) (hn : 8 ≤ (d.faults[f]).secN) :
    (faultRaise f d).col.logQ = d.col.logQ ∧ ((faultRaise f d).faults[f]).secMore = (d.faults[f]).secMore + 1 := by
  obtain ⟨b, hf⟩ := raiseX_fsrc_fault (level := false) (x := hkReading d f.1) hs hc ha
  have hr : ¬ recordsRaise f.1 d := by rw [recordsRaise_fsrc, turnFault_same hq]; omega
  rw [faultRaise_new hc ha]
  refine ⟨?_, ?_⟩
  · rw [raiseX_logQ hs _ _ hc ha]
    exact recordRaise_logQ_full sc false _ (.inl (by simpa only [Fin.ofNat_val_eq_self] using hq)) hr
  · rw [hf, turnFault_same hq]
    exact if_neg hr

/-- A raise of severity LOG is counted and recorded, and stops nothing (R418). -/
theorem faultRaise_log (he : effSev d f.1 = .log) : faultRaise f d = recordRaise f.1 sc false (hkReading d f.1) d := by
  rw [faultRaise_new hc ha, raiseX_fsrc_new hs hc ha, he, reactNow_log]

end

section
variable {f : Fsrc} {sc : Scope} {d : Device} (hr : d.start.st = .run) (ha : (d.faults[f]).active = false) (hs : scopeOf f.1 = some sc)
include hr ha hs

/-- From the RUN launch on a raise reacts at once (R430). -/
theorem faultRaise_reacts : faultRaise f d = react f.1 sc (actSev sc (effSev d f.1)) (recordRaise f.1 sc false (hkReading d f.1) d) := by
  have hst : (recordRaise f.1 sc false (hkReading d f.1) d).start = d.start := (recordRaise_keeps ..).start_eq rfl rfl rfl
  rw [faultRaise_new (colRuns_of_run hr) ha, raiseX_fsrc_new hs (colRuns_of_run hr) ha, reactNow_running (.inl (by rw [hst, hr]))]

end

/-- A CHANNEL reaction of a channel's source holds that channel and nothing else. -/
theorem react_channel (f : Nat) (c : Chan) (d : Device) : react f (.channel c) .channel d = holdChan f c d := rfl

/-- A CHANNEL reaction of a path's source holds its channel and opens its path. -/
theorem react_path (f : Nat) (c : Chan) (d : Device) : react f (.path c) .channel d = pathOpen f c (holdChan f c d) := rfl

/-- A path that stands FULL is opened and held (R420). -/
theorem pathOpen_full (f : Nat) {c : Chan} {d : Device} (h : (d.paths[c]).st = .full) : ((pathOpen f c d).paths[c]).st = .norise ∧
    ((pathOpen f c d).paths[c]).g = 0 ∧ ((pathOpen f c d).paths[c]).toFull = false ∧ f ∈ ((pathOpen f c d).paths[c]).holders := by
  have he : pathOpen f c d = pathHold f c (pathZero c .norise d) := if_neg (by simp only [h]; decide)
  rw [he]
  simp only [pathHold, pathZero, updPath_paths, upd_same]
  refine ⟨trivial, trivial, trivial, ?_⟩
  split
  · assumption
  · exact List.mem_append_right _ (List.mem_singleton_self f)

/-- A path at 0 V that tests no gate is not driven. -/
theorem pgate_zero {c : Chan} {d : Device} (hg : (d.paths[c]).g = 0) (ht : (d.paths[c]).toFull = false) (hst : (d.paths[c]).st ≠ .gtest) :
    (drive d).pins.pgate[c] = false := by
  have h : (drive d).pins.pgate[c] = (d.powerOn && (decide (0 < (d.paths[c]).g) || (d.paths[c]).toFull || decide ((d.paths[c]).st = .gtest))) :=
    Vector.getElem_map ..
  rw [h, hg, ht, decide_eq_false hst]
  cases d.powerOn <;> rfl

theorem mem_alarmed (f : Nat) (c : Collector) : f ∈ (alarmed f .device c).devHolders := by
  show f ∈ if f ∈ c.devHolders then c.devHolders else c.devHolders ++ [f]
  split
  · assumption
  · exact List.mem_append_right _ (List.mem_singleton_self f)

theorem mem_allChans (c : Chan) : c ∈ allChans := List.mem_finRange c

/-- A DEVICE reaction holds every armed channel. -/
theorem heldBy_react_device {f : Nat} {c : Chan} {d : Device} (ha : (d.chans[c]).armed = true) (hh : (d.chans[c]).st ≠ .held)
    (hu : (d.chans[c]).st ≠ .unarmed) : HeldBy f c (react f .device .device d) := by
  have h : HeldBy f c (openScope f .device .device (forEach allChans (holdChan f) d)) :=
    (forEach_holdChan_holds f allChans (mem_allChans c) ha hh hu).of_keeps (openScope_keeps ..)
  have he : react f .device .device d = (openScope f .device .device (forEach allChans (holdChan f) d)).updCol (alarmed f .device) := react_eq ..
  rw [he]
  exact h.of_keeps (S := [.col]) (updCol_keeps _ fun _ => ⟨nofun, fun _ => rfl, fun _ => rfl, fun _ => rfl⟩)

/-- A LATCH reaction in RUN latches its source (R433). -/
theorem latchedBy_reactNow {f : Fsrc} {sc : Scope} {d : Device} (hr : d.start.st = .run) (hl : (d.faults[f]).latched = true) :
    LatchedBy f (reactNow f.1 sc .latch d) := by
  have hc : (reactNow f.1 sc .latch d).col = alarmed f.1 .latch d.col := by
    rw [reactNow_running (.inl hr), actSev_latch]
    exact react_col ..
  refine ⟨?_, by rw [hc]; rfl, ?_⟩
  · rw [hc]
    show f.1 ∈ if Severity.latch = .latch ∧ f.1 ∉ d.col.latchHolders then d.col.latchHolders ++ [f.1] else d.col.latchHolders
    by_cases h : f.1 ∈ d.col.latchHolders
    · rwa [if_neg fun hn => hn.2 h]
    · rw [if_pos ⟨rfl, h⟩]
      exact List.mem_append_right _ (List.mem_singleton_self _)
  · obtain ⟨b, hb⟩ := reactNow_fsrc_fault f sc .latch d
    rw [hb]
    exact hl

/-- The level of a source is no part of its latch. -/
theorem LatchedBy.updLevel {f : Fsrc} {d : Device} (h : LatchedBy f d) (lv : Bool) : LatchedBy f (d.updFault f fun y => { y with level := lv }) :=
  h.of_rest rfl (by rw [updFault_faults, upd_same]; exact h.latched)

/-- A reporting path that fails latches a source of the base severity DEVICE in RUN (R415). -/
theorem rpathFault_latches {f : Fsrc} (lv : Bool) {sc : Scope} {d : Device} (hr : d.start.st = .run) (hs : scopeOf f.1 = some sc)
    (hp : (d.faults[f]).rpath = false) (hb : baseSev d f.1 = .device) : LatchedBy f (rpathFault f lv d) := by
  have hc := colRuns_of_run hr
  have hst : (markPath f lv d).start = d.start := (markPath_keeps f lv d).start_eq rfl rfl rfl
  have hsev := markPath_effSev_device (lv := lv) hs hb
  cases ha : (d.faults[f]).active
  · rw [rpathFault_raises hs hc hp ha]
    have ha' : ((markPath f lv d).faults[f]).active = false := by rw [markPath_fault]; exact ha
    refine LatchedBy.updLevel ?_ _
    rw [raiseX_fsrc_new hs (markPath_colRuns hc) ha', hsev]
    have k := recordRaise_keeps f.1 sc true (hkReading (markPath f lv d) f.1) (markPath f lv d)
    refine latchedBy_reactNow (by rw [k.start_eq rfl rfl rfl, hst, hr]) ?_
    simp only [recordRaise_faults, Fin.ofNat_val_eq_self, upd_same, hsev, raisedFault, decide_true, Bool.or_true]
  · rw [rpathFault_active hs hc hp ha, hsev]
    refine latchedBy_reactNow (by simpa only [updFault_start, hst] using hr) ?_
    rw [updFault_faults, upd_same, actSev_latch, decide_eq_true rfl, Bool.or_true]

section
variable {f : Fsrc} (lv : Bool) {sc : Scope} {d : Device} (hc : colRuns d = true) (hs : scopeOf f.1 = some sc) (hp : (d.faults[f]).rpath = false)
  (hq : d.col.logQ.length < 31)
include hc hs hp hq

/-- The record of the failed path of a source that is active already. -/
theorem rpathFault_again (ha : (d.faults[f]).active = true) : ((rpathFault f lv d).faults[f]).rpath = true ∧
    ((rpathFault f lv d).faults[f]).active = true ∧ ((rpathFault f lv d).faults[f]).count = (d.faults[f]).count ∧
    (rpathFault f lv d).col.logQ.length = d.col.logQ.length + 1 := by
  rw [rpathFault_active hs hc hp ha]
  obtain ⟨b, hb⟩ := reactNow_fsrc_fault f sc (effSev (markPath f lv d) f.1) ((markPath f lv d).updFault f fun y => { y with
      hold := y.hold || (effSev (markPath f lv d) f.1).holds, injHold := if y.hold then y.injHold else y.inj
      heldAt := if y.hold then y.heldAt else (markPath f lv d).loc
      latched := y.latched || decide (actSev sc (effSev (markPath f lv d) f.1) = .latch) })
  rw [hb, (reactNow_keeps ..).logQ_eq rfl, updFault_faults, upd_same, markPath_fault]
  exact ⟨rfl, ha, rfl, logPush_length _ _ _ _ _ _ _ (Nat.lt_succ_of_lt hq)⟩

/-- A path that fails raises a source that is not active, beside its own record. -/
theorem rpathFault_first (ha : (d.faults[f]).active = false) : ((rpathFault f lv d).faults[f]).rpath = true ∧
    ((rpathFault f lv d).faults[f]).active = true ∧ ((rpathFault f lv d).faults[f]).count = satInc (d.faults[f]).count ∧
    ((d.faults[f]).secOf = d.clk.loc / sec → (d.faults[f]).secN < 8 → (rpathFault f lv d).col.logQ.length = d.col.logQ.length + 2) := by
  have ha' : ((markPath f lv d).faults[f]).active = false := by rw [markPath_fault]; exact ha
  have hc' := markPath_colRuns (lv := lv) (f := f) hc
  have hl : (markPath f lv d).loc = d.loc := congrArg Clocks.loc ((markPath_keeps f lv d).parts .clk rfl)
  have hn : (markPath f lv d).col.logQ.length = d.col.logQ.length + 1 := logPush_length _ _ _ _ _ _ _ (Nat.lt_succ_of_lt hq)
  obtain ⟨b, hf⟩ := raiseX_fsrc_fault (level := true) (x := hkReading (markPath f lv d) f.1) hs hc' ha'
  rw [rpathFault_raises hs hc hp ha, updFault_faults, upd_same, hf]
  refine ⟨?_, ?_, ?_, fun h1 h2 => ?_⟩
  · simp only [raisedFault, turnFault_rpath, markPath_fault]
  · simp only [raisedFault, Bool.or_true]
  · simp only [raisedFault, turnFault_count, markPath_fault]
  · have hq1 : ((markPath f lv d).faults[f]).secOf = (markPath f lv d).loc / sec := by rw [markPath_fault, hl]; exact h1
    have hr : recordsRaise f.1 (markPath f lv d) := by
      rw [recordsRaise_fsrc, turnFault_same hq1, markPath_fault]
      exact h2
    rw [updFault_col, raiseX_logQ hs _ _ hc' ha', recordRaise_logQ sc true _ (.inl (by simpa only [Fin.ofNat_val_eq_self] using hq1)) hr (by omega), hn]

end

theorem faultRaise_next (f : Fsrc) (s : State) : ∃ t, exec (.faultRaise f) s = .next t ∧ t.dev = drive (busEval (faultRaise f s.dev)) := ⟨_, rfl, rfl⟩

theorem rpathFault_next (f : Fsrc) (lv : Bool) (s : State) : ∃ t, exec (.rpathFault f lv) s = .next t ∧ t.dev = drive (busEval (rpathFault f lv s.dev)) :=
  ⟨_, rfl, rfl⟩

/-- A source holds the device: `FLT` is asserted and `ALIVE` low (R433). -/
theorem DeviceHeldBy.pins {f : Nat} {d : Device} (h : DeviceHeldBy f d) :
    (drive d).pins.fltP = true ∧ (drive d).pins.fltN = false ∧ (drive d).pins.alive = false := by
  have hf : d.col.flt = true := h.flt
  have ha : d.col.alive = false := h.alive
  simp [drive, hf, ha]

/-- Settles O43: a raise by its count, its record and its reaction, each kept through the bus moves that follow. -/
theorem faultSources : Obligations.FaultSources := by
  unfold Obligations.FaultSources
  refine ⟨fun f s h => ?_, fun f sc s hc ha hs hb => ?_, fun f sc s ha hs he hb => ?_,
    fun f c s hr ha hs he harm hh hu hb => ?_, fun f c s hr ha hs he hst => ?_, fun f s hr ha hs he => ?_,
    fun f lv sc s hc hs hp hq hb => ?_, fun f lv s h => ?_, fun f lv sc s hr hs hp hb => ?_,
    fun f s hp hq => ⟨_, rfl, ?_⟩, fun f s hp => ⟨_, rfl, ?_⟩⟩
  · obtain ⟨t, ht, hd⟩ := faultRaise_next f s
    exact ⟨t, ht, by rw [hd, faultRaise_idle h]⟩
  · obtain ⟨t, ht, hd⟩ := faultRaise_next f s
    rw [busEval_settled hb] at hd
    refine ⟨t, ht, ?_⟩
    rw [hd, drive_faults, drive_col]
    obtain ⟨hcount, hhold, hact, hquiet⟩ := faultRaise_words hc ha hs
    refine ⟨hcount, hhold, hact, hquiet, fun g hg => ?_, fun h1 h2 h3 => ?_, fun h1 h2 => faultRaise_suppressed hc ha hs h1 h2, fun h1 h2 h3 => ?_⟩
    · rw [faultRaise_new hc ha]
      exact raiseX_fsrc_other _ _ _ hg
    · have ht : turnFault (s.dev.loc / sec) s.dev.faults[f] = s.dev.faults[f] := turnFault_same h1
      obtain ⟨hl, hn, -⟩ := faultRaise_recorded hc ha hs (.inl h1) (by rwa [ht]) h3
      rw [ht] at hn
      exact ⟨hl, hn⟩
    · have ht : turnFault (s.dev.loc / sec) s.dev.faults[f] = { s.dev.faults[f] with secN := 0, secMore := 0, secOf := s.dev.loc / sec } := if_neg h1
      obtain ⟨hl, hn, ho⟩ := faultRaise_recorded hc ha hs (.inr h2) (by rw [ht]; exact Nat.zero_lt_succ _) h3
      rw [ht] at hn ho
      exact ⟨hl, hn, ho⟩
  · obtain ⟨t, ht, hd⟩ := faultRaise_next f s
    rw [busEval_settled hb] at hd
    refine ⟨t, ht, ?_⟩
    rw [hd, drive_chans, drive_slots, drive_paths, drive_srcs, drive_profs, drive_start]
    by_cases hc : colRuns s.dev = true
    · rw [faultRaise_log hc ha hs he]
      have k := recordRaise_keeps f.1 sc false (hkReading s.dev f.1) s.dev
      exact ⟨k.parts .chans rfl, k.parts .slots rfl, k.parts .paths rfl, k.parts .srcs rfl, k.parts .profs rfl, k.start_eq rfl rfl rfl⟩
    · rw [faultRaise_idle (.inr (.inr (Bool.eq_false_iff.2 hc)))]
      exact ⟨rfl, rfl, rfl, rfl, rfl, rfl⟩
  · obtain ⟨t, ht, hd⟩ := faultRaise_next f s
    rw [busEval_settled hb] at hd
    refine ⟨t, ht, ?_⟩
    rw [hd, drive_chans, drive_srcs]
    have k := recordRaise_keeps f.1 (.channel c) false (hkReading s.dev f.1) s.dev
    have hk : (recordRaise f.1 (.channel c) false (hkReading s.dev f.1) s.dev).chans = s.dev.chans := k.parts .chans rfl
    have hm : faultRaise f s.dev = holdChan f.1 c (recordRaise f.1 (.channel c) false (hkReading s.dev f.1) s.dev) := by
      rw [faultRaise_reacts hr ha hs, he]
      rfl
    rw [hm]
    have hheld := holdChan_holds f.1 (c := c) (d := recordRaise f.1 (.channel c) false (hkReading s.dev f.1) s.dev) (by rwa [hk]) (by rwa [hk]) (by rwa [hk])
    refine ⟨hheld.st, hheld.gate, hheld.holder, fun k hkc => ?_, ?_⟩
    · rw [(holdChan_otherChans f.1 c _).chan k hkc, hk]
    · exact ((holdChan_keeps f.1 c _).parts .srcs rfl).trans (k.parts .srcs rfl)
  · obtain ⟨t, ht, hd⟩ := faultRaise_next f s
    refine ⟨t, ht, ?_⟩
    have hm : faultRaise f s.dev = pathOpen f.1 c (holdChan f.1 c (recordRaise f.1 (.path c) false (hkReading s.dev f.1) s.dev)) := by
      rw [faultRaise_reacts hr ha hs, he]
      rfl
    obtain ⟨b, hb⟩ := ((KeepsPaths.of_keeps (recordRaise_keeps f.1 (.path c) false (hkReading s.dev f.1) s.dev)).trans (holdChan_paths f.1 c _)).same c
    obtain ⟨h1, h2, h3, h4⟩ := pathOpen_full f.1 (c := c) (d := holdChan f.1 c (recordRaise f.1 (.path c) false (hkReading s.dev f.1) s.dev)) (by rw [hb, hst])
    rw [← hm] at h1 h2 h3 h4
    obtain ⟨b', hb'⟩ := (busEval_paths (faultRaise f s.dev)).same c
    rw [hd, drive_paths]
    refine ⟨by rw [hb']; exact h1, by rw [hb']; exact h2, by rw [hb']; exact h4, pgate_zero (by rw [hb']; exact h2) (by rw [hb']; exact h3) ?_⟩
    rw [hb', h1]
    decide
  · obtain ⟨t, ht, hd⟩ := faultRaise_next f s
    refine ⟨t, ht, ?_⟩
    have hm : faultRaise f s.dev = react f.1 .device .device (recordRaise f.1 .device false (hkReading s.dev f.1) s.dev) := by
      rw [faultRaise_reacts hr ha hs, he]
      rfl
    have he' : effSev (faultRaise f s.dev) f.1 = .device := by
      rw [faultRaise_new (colRuns_of_run hr) ha, raiseX_effSev, he]
    have hc : (faultRaise f s.dev).col = alarmed f.1 .device (recordRaise f.1 .device false (hkReading s.dev f.1) s.dev).col := by
      rw [hm]
      exact react_col ..
    have h0 : DeviceHeldBy f.1 (faultRaise f s.dev) := ⟨by rw [hc]; exact mem_alarmed .., by rw [hc]; rfl, by rw [hc]; rfl, hs, he'⟩
    have h1 := (deviceHeldBy_closed f.1).busEval h0
    rw [hd]
    obtain ⟨hflt, hfltn, halive⟩ := h1.pins
    refine ⟨h1.holder, hflt, hfltn, halive, fun c h1 h2 h3 => ?_⟩
    have hk : (recordRaise f.1 .device false (hkReading s.dev f.1) s.dev).chans = s.dev.chans := (recordRaise_keeps ..).parts .chans rfl
    have hh := (heldBy_closed f.1 c).busEval (d := faultRaise f s.dev) (by rw [hm]; exact heldBy_react_device (by rwa [hk]) (by rwa [hk]) (by rwa [hk]))
    exact ⟨hh.st, hh.gate, hh.holder⟩
  · obtain ⟨t, ht, hd⟩ := rpathFault_next f lv s
    rw [busEval_settled hb] at hd
    refine ⟨t, ht, ?_⟩
    rw [hd, drive_faults, drive_col]
    cases ha : (s.dev.faults[f]).active
    · obtain ⟨h1, h2, h3, h4⟩ := rpathFault_first lv hc hs hp hq ha
      exact ⟨h1, h2, nofun, fun _ => ⟨h3, h4⟩⟩
    · obtain ⟨h1, h2, h3, h4⟩ := rpathFault_again lv hc hs hp hq ha
      exact ⟨h1, h2, fun _ => ⟨h3, h4⟩, nofun⟩
  · obtain ⟨t, ht, hd⟩ := rpathFault_next f lv s
    exact ⟨t, ht, by rw [hd, rpathFault_idle h]⟩
  · obtain ⟨t, ht, hd⟩ := rpathFault_next f lv s
    obtain ⟨hh, ha, hl⟩ := (latchedBy_closed f).busEval (rpathFault_latches lv hr hs hp hb)
    have ha' : (busEval (rpathFault f lv s.dev)).col.alive = false := ha
    refine ⟨t, ht, ?_⟩
    rw [hd]
    exact ⟨hh, hl, by simp [drive, ha']⟩
  · rw [drive_faults, drive_col, drive_chans, rpathRestored, if_pos hp]
    dsimp only
    refine ⟨?_, ?_, logPush_length _ _ _ _ _ _ _ hq, (logPush_keeps ..).parts .chans rfl⟩
    · rw [(logPush_keeps ..).parts .faults rfl, updFault_faults, upd_same]
    · rw [(logPush_keeps ..).parts .faults rfl, updFault_faults, upd_same]
  · exact congrArg drive (if_neg (by rw [hp]; decide))

end Sys2Proof.Machine

/-! PROOFS. Recovery and promotion (O44). -/

namespace Sys2Proof.Machine

/-! ### One update per index -/

/-- A loop that touches one entry of a vector for each index of a list without repetition. -/
theorem forEach_vector {α : Type} {n : Nat} (proj : Device → Vector α n) (f : Fin n → Device → Device) (g : Fin n → α → α)
    (hf : ∀ i d, proj (f i d) = upd (proj d) i (g i)) (l : List (Fin n)) (hl : l.Nodup) (d : Device) (k : Fin n) :
    (proj (forEach l f d))[k] = if k ∈ l then g k (proj d)[k] else (proj d)[k] := by
  induction l generalizing d with
  | nil => rfl
  | cons i l ih =>
    obtain ⟨hi, hl⟩ := List.nodup_cons.1 hl
    have h : (proj (forEach (i :: l) f d))[k] = if k ∈ l then g k (proj (f i d))[k] else (proj (f i d))[k] := ih hl (f i d)
    rw [h, hf]
    by_cases hk : k = i
    · subst hk
      rw [if_neg hi, if_pos List.mem_cons_self, upd_same]
    · rw [upd_other _ _ _ _ hk]
      simp only [List.mem_cons, hk, false_or]

theorem forEach_all {α : Type} {n : Nat} (proj : Device → Vector α n) (f : Fin n → Device → Device) (g : Fin n → α → α)
    (hf : ∀ i d, proj (f i d) = upd (proj d) i (g i)) (d : Device) (k : Fin n) :
    (proj (forEach (List.finRange n) f d))[k] = g k (proj d)[k] := by
  rw [forEach_vector proj f g hf _ (List.nodup_finRange n), if_pos (List.mem_finRange k)]

/-! ### The end of a hold -/

/-- A hold that ends on every channel. -/
def releaseChans (f : Nat) (d : Device) : Device :=
  forEach allChans (releaseChan f) (d.updFault (Fin.ofNat 2048 f) fun y => { y with hold := false, pre := false })

theorem releaseChans_keeps (f : Nat) (d : Device) : Keeps [.slots, .paths, .srcs, .col] (releaseChans f d) (releaseHold f d) := by
  have k : Keeps [.slots, .paths, .srcs, .col] (releaseChans f d) (forEach allSlots (fun n d => d.updSlot n fun s => { s with holders := unheld f s.holders })
      (forEach allSrcs (releaseSrc f) (forEach allChans (releasePath f) (releaseChans f d)))) := by
    refine Keeps.forEach (fun n d => Keeps.mono (T := [.slots]) (updSlot_keeps n d fun _ h => h) rfl) ?_
    refine Keeps.forEach (fun k d => (releaseSrc_keeps f k d).mono rfl) ?_
    exact Keeps.forEach (fun k d => (releasePath_keeps f k d).mono rfl) (.refl ..)
  unfold releaseHold
  refine Keeps.ite ?_ k
  with_reducible refine (updCol_keeps (S := [.col]) _ ?_).after ?_ rfl
  · exact fun _ => ⟨nofun, fun _ => rfl, fun _ => rfl, fun _ => rfl⟩
  · exact k

/-- The end of a hold takes its source off every channel, and changes nothing else of one. -/
theorem releaseHold_chan (f : Nat) (d : Device) (c : Chan) :
    (releaseHold f d).chans[c] = { d.chans[c] with holders := unheld f (d.chans[c]).holders } := by
  rw [(releaseChans_keeps f d).parts .chans rfl]
  exact forEach_all Device.chans (releaseChan f) (fun _ x => { x with holders := unheld f x.holders }) (fun _ _ => rfl) _ c

/-- The words of its source after the end of a hold. -/
theorem releaseHold_faults (f : Nat) (d : Device) :
    (releaseHold f d).faults = upd d.faults (Fin.ofNat 2048 f) fun y => { y with hold := false, pre := false } := by
  rw [(releaseChans_keeps f d).parts .faults rfl]
  exact (Keeps.forEach (releaseChan_keeps f) (.refl [.chans] _)).parts .faults rfl

/-! ### RECOVERY_GRANT -/

/-- A source that a grant recovers: held, quiet, and not latched, promoted, active or of the breaker class (R425). -/
structure Recovers (f : Fsrc) (d : Device) : Prop where
  hold : (d.faults[f]).hold = true
  latched : (d.faults[f]).latched = false
  promoted : (d.faults[f]).promoted = false
  active : (d.faults[f]).active = false
  breaker : effSev d f.1 ≠ .breaker

/-- The instant of a source's grant (R425). -/
def grantAt (f : Fsrc) (u : Nat) (d : Device) : Nat := u + frQuiet d (profOf d f)

/-- A grant that is recorded, before the hold ends. -/
def granted (f : Fsrc) (n : Nat) (d : Device) : Device :=
  grantRecord f.1 (d.updFault f fun y =>
    { y with winAt := if n = 0 then some d.loc else y.winAt, win := BitVec.ofNat 8 (n + 1), quietAt := none })

theorem recoveryGrant_idle {f : Fsrc} {d : Device} (h : (d.faults[f]).quietAt = none ∨ ¬ Recovers f d) : recoveryGrant f d = d := by
  unfold recoveryGrant
  dsimp only
  split
  · rfl
  · next hq =>
    refine if_neg fun hr => ?_
    obtain ⟨h1, h2, h3, h4, h5⟩ := hr
    exact h.elim (fun hn => nomatch hq.symm.trans hn) fun hn => hn ⟨h1, h2, h3, h4, h5⟩

/-- A source that has recovered too often is promoted and latched, with its record (R427). -/
def promoteFault (f : Fsrc) (n heldAt : Nat) (d : Device) : Device :=
  let d := d.updFault f fun y => { y with promoted := true, latched := true }
  logPush 3 (sevHold d f.1 (effSev d f.1)) f.1 ((d.faults[f]).recov.toNat + 65536 * n) (min ((d.loc - heldAt) / ms) (2 ^ 32 - 1)) 0 d

theorem recoveryGrant_recovers {f : Fsrc} {u : Nat} {d e : Device} (hq : (d.faults[f]).quietAt = some u) (hr : Recovers f d)
    (he : waitLoc (grantAt f u d) d = e) : recoveryGrant f d =
      if frMax d (fsProf d f) ≤ winNow e f then promoteFault f (winNow e f) (d.faults[f]).heldAt e else releaseHold f.1 (granted f (winNow e f) e) := by
  have hmem : e.memory = d.memory := by
    rw [← he]
    exact (waitLoc_keeps ..).memory_eq rfl rfl rfl
  have hm : frMax d (fsProf d f) = frMax e (profOf e f) := by simp only [frMax, profOf, fsProf, Device.cf, hmem]
  rw [recoveryGrant, hq, hm]
  subst he
  exact if_pos ⟨hr.hold, hr.latched, hr.promoted, hr.active, hr.breaker⟩

theorem promoteFault_keeps (f : Fsrc) (n t : Nat) (d : Device) : Keeps [.arbs, .faults, .log] d (promoteFault f n t d) :=
  (logPush_keeps ..).after ((updFault_keeps ..).mono rfl) rfl

theorem promoteFault_faults (f : Fsrc) (n t : Nat) (d : Device) :
    (promoteFault f n t d).faults = upd d.faults f fun y => { y with promoted := true, latched := true } := (logPush_keeps ..).parts .faults rfl

theorem winNow_closed {f : Fsrc} {t : Nat} {d : Device} (h : (d.faults[f]).winAt = none) : winNow (waitLoc t d) f = 0 := by
  have he : ((waitLoc t d).faults[f]).winAt = none := by rw [(waitLoc_keeps ..).parts .faults rfl, h]
  rw [winNow, he]

theorem winNow_open {f : Fsrc} {t w : Nat} {d : Device} (h : (d.faults[f]).winAt = some w) (ht : max d.clk.loc t < w + frWin d (fsProf d f)) :
    winNow (waitLoc t d) f = (d.faults[f]).win.toNat := by
  have he : ((waitLoc t d).faults[f]).winAt = some w := by rw [(waitLoc_keeps ..).parts .faults rfl, h]
  rw [winNow, he]
  refine if_neg (Nat.not_le.2 ?_)
  have hl : (waitLoc t d).loc = max d.clk.loc t := waitLoc_loc t d
  rw [hl]
  exact ht

theorem frMax_pos (d : Device) (k : Nat) : 0 < frMax d k := by
  unfold frMax orDefault
  split <;> omega

/-- The words of a source at its grant. -/
theorem granted_fault (f : Fsrc) (n : Nat) (d : Device) : (releaseHold f.1 (granted f n d)).faults[f] = { d.faults[f] with
    winAt := if n = 0 then some d.loc else (d.faults[f]).winAt, win := BitVec.ofNat 8 (n + 1), quietAt := none
    recov := satInc (d.faults[f]).recov, hold := false, pre := false } := by
  have hg (e : Device) : (grantRecord f.1 e).faults = upd e.faults (Fin.ofNat 2048 f.1) fun y => { y with recov := satInc y.recov } :=
    (logPush_keeps ..).parts .faults rfl
  simp only [releaseHold_faults, granted, hg, Fin.ofNat_val_eq_self, updFault_faults, upd_same]

/-- Settles O44: a grant ends the hold everywhere unless the open window is full. -/
theorem recovery : Obligations.Recovery := by
  unfold Obligations.Recovery
  refine ⟨fun f u s hc hq h1 h2 h3 h4 h5 hw => ⟨_, execRecoveryGrant_calm f s hc, ?_⟩,
    fun f u w s hc hq h1 h2 h3 h4 h5 hw ht hn => ⟨_, execRecoveryGrant_calm f s hc, ?_⟩,
    fun f s hc h => ⟨_, execRecoveryGrant_calm f s hc, ?_⟩, fun f w s hc hw => ⟨_, execPromotionWindowEnd_calm f s hc, ?_⟩⟩
  · have hz := winNow_closed (t := grantAt f u s.dev) hw
    obtain ⟨e, he⟩ : ∃ e, waitLoc (grantAt f u s.dev) s.dev = e := ⟨_, rfl⟩
    have hl : e.clk.loc = max s.dev.clk.loc (grantAt f u s.dev) := by rw [← he, waitLoc_loc]
    have hf : e.faults = s.dev.faults := by
      rw [← he]
      exact (waitLoc_keeps ..).parts .faults rfl
    have hc : e.chans = s.dev.chans := by
      rw [← he]
      exact (waitLoc_keeps ..).parts .chans rfl
    have hch : (granted f 0 e).chans = s.dev.chans := ((grantRecord_keeps ..).parts .chans rfl).trans hc
    have hk : (releaseHold f.1 (granted f 0 e)).clk = e.clk := ((releaseHold_keeps ..).parts .clk rfl).trans ((grantRecord_keeps ..).parts .clk rfl)
    have hg := recoveryGrant_recovers hq ⟨h1, h2, h3, h4, h5⟩ he
    rw [← he, hz, if_neg (Nat.not_le.2 (frMax_pos ..)), he] at hg
    rw [drive_clk, drive_faults, drive_chans, hg, granted_fault, hk, hf]
    refine ⟨hl, rfl, rfl, rfl, rfl, fun c => ?_, fun c h => ?_⟩
    · rw [releaseHold_chan]
      simp [unheld]
    · rw [releaseHold_chan, hch, h]
      simp [unheld]
  · have hz : winNow (waitLoc (grantAt f u s.dev) s.dev) f = (s.dev.faults[f]).win.toNat := winNow_open hw ht
    have he := recoveryGrant_recovers hq ⟨h1, h2, h3, h4, h5⟩ rfl
    rw [hz, if_pos hn] at he
    rw [drive_faults, drive_chans, he, promoteFault_faults, upd_same, (waitLoc_keeps ..).parts .faults rfl, (promoteFault_keeps ..).parts .chans rfl]
    exact ⟨rfl, rfl, h1, rfl, (waitLoc_keeps ..).parts .chans rfl⟩
  · refine congrArg drive (recoveryGrant_idle ?_)
    rcases h with h | h | h | h | h | h
    · exact .inl h
    all_goals
      refine .inr fun hr => ?_
      obtain ⟨h1, h2, h3, h4, h5⟩ := hr
      simp_all
  · have he : promotionWindowEnd f s.dev = (waitLoc (w + frWin s.dev (fsProf s.dev f)) s.dev).updFault f fun y => { y with win := 0, winAt := none } := by
      rw [promotionWindowEnd, hw]
      rfl
    rw [drive_clk, drive_faults, he, updFault_faults, upd_same, (waitLoc_keeps ..).parts .faults rfl]
    exact ⟨waitLoc_loc .., rfl, rfl, rfl, rfl⟩

end Sys2Proof.Machine

/-! PROOFS. The event log and the capture buffers (O45): a codeword of another buffer is written when the memory write port is served. -/

namespace Sys2Proof.Machine

/-- The port has nothing to serve. -/
theorem portServe_idle (n own : Nat) {d : Device} (hg : (d.arbs[wport]).granted = []) (hp : (d.arbs[wport]).pending = []) : portServe n own d = d := by
  cases n with
  | zero => rfl
  | succ n =>
    rw [portServe]
    simp only [hg, hp]
    rfl

/-- An urgent or aged request is served first (R27). -/
theorem portServe_decides (n own : Nat) {d : Device} (hg : (d.arbs[wport]).granted = [])
    (hp : (d.arbs[wport]).pending.any (fun r => decide (r.1 ≠ own ∨ 0 < r.2)) = true) : portServe (n + 1) own d = portServe n own (portDecide d) := by
  rw [portServe]
  simp only [hg, hp]
  rfl

/-- Two captures: buffer 0 is complete, and a codeword of buffer 1 waits for the memory write port, passed over once. -/
def agedCapture : Device :=
  { State.reset.dev with
    col := { State.reset.dev.col with caps := [⟨0, 0, 0, 0, 0, 0, 0, 0, []⟩], capQ := [(0xA4000, [])] }
    arbs := upd State.reset.dev.arbs wport fun a => { a with pending := [(3, 1)] } }

theorem agedCapture_served : (portDecide agedCapture).col.capQ = [] ∧ ((portDecide agedCapture).arbs[wport]).granted = [] ∧
    ((portDecide agedCapture).arbs[wport]).pending = [] := by
  refine ⟨?_, ?_, ?_⟩ <;> decide

/-- The codewords that wait, after an operation that changes no capture buffer. -/
theorem Keeps.capQ_eq {S : List Part} {d e : Device} (k : Keeps S d e) (h : S.contains .caps = false) : e.col.capQ = d.col.capQ := by
  have hc : (e.col.capBusy, e.col.capFull, e.col.capMissed, e.col.caps, e.col.capQ) =
    (d.col.capBusy, d.col.capFull, d.col.capMissed, d.col.caps, d.col.capQ) := k.parts .caps h
  simp only [Prod.mk.injEq] at hc
  obtain ⟨-, -, -, -, hq⟩ := hc
  exact hq

/-- A buffer that completes puts no codeword into the queue. -/
theorem captureComplete_capQ_nil (b : Fin 16) {d : Device} (h : d.col.capQ = []) : (captureComplete b d).col.capQ = [] := by
  have hw (l : List (Nat × List Byte)) (e : Device) : (forEach l (fun w : Nat × List Byte => memWrite w.1 w.2) e).col.capQ = e.col.capQ :=
    (Keeps.forEach (fun (w : Nat × List Byte) d => memWrite_keeps w.1 w.2 d) (.refl ..)).capQ_eq rfl
  have hl (t : Nat) : (waitLoc t d).col.capQ = [] := ((waitLoc_keeps t d).capQ_eq rfl).trans h
  unfold captureComplete
  split
  · exact h
  · dsimp only
    simp only [updCol_col, hw, hl, List.filter_nil, if_true]
    exact ((arbWithdraw_keeps ..).capQ_eq rfl).trans (by simp only [updCol_col, hw, hl, List.filter_nil])

/-- Refutes O45: a codeword of buffer 1 that an arbitration has passed over is written while buffer 0 completes, so it waits no more. -/
theorem not_logAndCaptures : ¬ Obligations.LogAndCaptures := by
  unfold Obligations.LogAndCaptures
  intro h
  obtain ⟨-, -, -, h, -⟩ := h
  have hc : calm (.captureBufferComplete 0) agedCapture = true := by decide
  obtain ⟨t, ht, -, -, -, -, hq, -⟩ := h 0 ⟨0, 0, 0, 0, 0, 0, 0, 0, []⟩ ⟨agedCapture, []⟩ hc rfl rfl
  obtain ⟨h1, h2, h3⟩ := agedCapture_served
  have hd : portServe (32767 + 1) 3 agedCapture = portServe 32767 3 (portDecide agedCapture) := portServe_decides 32767 3 (by decide) (by decide)
  have hs : portServe portAll 3 agedCapture = portDecide agedCapture := hd.trans (portServe_idle _ _ h2 h3)
  have hn : t.dev.col.capQ = [] := by
    have he : exec (.captureBufferComplete 0) ⟨agedCapture, []⟩ = done (finishCapture 0) ⟨agedCapture, []⟩ := execCaptureBufferComplete_calm 0 _ hc
    rw [he, done] at ht
    rw [← Host.Outcome.next.inj ht, drive_col, finishCapture, if_pos (by decide), hs]
    exact captureComplete_capQ_nil 0 h1
  have hw : t.dev.col.capQ = [(0xA4000, [])] := (hq (by decide) (by decide)).trans (by decide)
  rw [hn] at hw
  cases hw

end Sys2Proof.Machine

/-! PROOFS. The queue, the empty tick, and the device right after a power-on reset (O1 to O4). -/

namespace Sys2Proof.Machine

/-- Settles O1: a step looks at the queue alone. -/
theorem stepTakesFront : Obligations.StepTakesFront := by
  unfold Obligations.StepTakesFront
  intro c rest s h
  rw [step, h]

/-! ### The empty tick -/

/-- A channel that holds nothing brings nothing. -/
theorem setFifo_empty {x : Crossing} {d : Device} (h : fifoOf d x = []) (hs : d.isl.stalled[xIndex x] = false) : setFifo x [] d = d := by
  have hf : upd d.isl.fifo (xIndex x) (fun _ => []) = d.isl.fifo := upd_id _ _ _ h.symm
  have hn : upd d.isl.stalled (xIndex x) (fun _ => false) = d.isl.stalled := upd_id _ _ _ hs.symm
  simp only [setFifo, Device.updIsl, hf, hn]

theorem drainQuad_empty {x : Crossing} {q : Quad} {d : Device} (h : fifoOf d x = []) : drainQuad x q d = d := by
  cases hs : d.isl.stalled[xIndex x]
  · rw [drainQuad, h, setFifo_empty h hs]
    exact ite_self d
  · exact if_pos hs

theorem drain_empty {x : Crossing} {d : Device} (h : fifoOf d x = []) : drain x d = d := by
  cases x with
  | toQd q => exact drainQuad_empty h
  | between a b => exact drainQuad_empty h
  | toHk q =>
    cases hs : d.isl.stalled[xIndex (.toHk q)]
    · rw [drain, drainHk, h, setFifo_empty h hs]
      exact ite_self d
    · exact if_pos hs

theorem forEach_id {α : Type} (l : List α) (f : α → Device → Device) (d : Device) (h : ∀ a, f a d = d) : forEach l f d = d :=
  forEach_induct (· = d) l f (fun a _ he => by rw [he, h]) d rfl

/-- Where the crossings hold nothing and no island a launch, a timed command is its meaning alone. -/
theorem undisturbed_quiet (k : Nat) (f : Device → Device) {d : Device} (hx : ∀ x : Fin 24, d.isl.fifo[x] = []) (hl : ∀ i : Island, d.isl.launches[i] = []) :
    undisturbed k f d = true := by
  have hu (q : Quad) : launchUnderWay d q = false := by rw [launchUnderWay, fifoOf, hx, List.any_nil, Bool.and_false]
  have hw (i : Island) : launchWait d i = none := by rw [launchWait, hl]
  simp [undisturbed, hu, nextLaunch, hw]

theorem busMove_beforeRun {d : Device} (h : d.bus.st = .beforeRun) : busMove d = d := by rw [busMove, h]

theorem busEval_beforeRun {d : Device} (h : d.bus.st = .beforeRun) : busEval d = d := by
  rw [busEval, busMove_beforeRun h, busMove_beforeRun h, busMove_beforeRun h, busMove_beforeRun h]

/-- The tick of a quiet device. -/
theorem tickPass_quiet {d : Device} (hx : ∀ x : Fin 24, d.isl.fifo[x] = []) (hl : ∀ i : Island, d.isl.launches[i] = []) (hb : d.bus.st = .beforeRun) :
    tickPass d = waitUp (d.up + tick) d := by
  have hd : forEach allCrossings drain d = d := forEach_id _ _ _ fun x => drain_empty (hx _)
  rw [tickPass, hd, timed_calm (undisturbed_quiet _ _ hx hl)]
  exact busEval_beforeRun (by rw [waitUp_bus]; exact hb)

theorem step_empty {s : State} (h : s.pending = []) : step s = .next { s with dev := drive (tickPass s.dev) } := by
  have he : step s = idle s := by rw [step, h]
  exact he.trans (done_eq tickPass s)

/-- Settles O2: the tick is a driven step, and that of a quiet device lets time pass and nothing else. -/
theorem emptyQueueTick : Obligations.EmptyQueueTick := by
  unfold Obligations.EmptyQueueTick
  refine ⟨fun s hp => ⟨{ s with dev := drive (tickPass s.dev) }, step_empty hp, hp, drive_legal _⟩, fun s hp hx hl hb => ?_⟩
  refine ⟨{ s with dev := drive (tickPass s.dev) }, step_empty hp, hp, ?_⟩
  have k := waitUp_keeps (s.dev.up + tick) s.dev
  have hw : waitUp (s.dev.up + tick) s.dev = pass 40 s.dev := congrArg (pass · s.dev) (Nat.add_sub_cancel_left ..)
  have ht := tickPass_quiet hx hl hb
  rw [hw] at k ht
  rw [ht]
  refine ⟨rfl, rfl, fun q => ?_, k.drive.parts⟩
  show (qpass s.dev 40)[q] = _
  simp only [qpass, Fin.getElem_fin, Vector.getElem_ofFn]
  split <;> rfl

/-! ### The power-on reset -/

/-- At reset every entry of a vector has the values of its declaration. -/
theorem reset_chans (c : Chan) : State.reset.dev.chans[c] = {} := Vector.getElem_replicate ..
theorem reset_paths (c : Chan) : State.reset.dev.paths[c] = {} := Vector.getElem_replicate ..
theorem reset_slots (n : Slot) : State.reset.dev.slots[n] = {} := Vector.getElem_replicate ..
theorem reset_faults (f : Fsrc) : State.reset.dev.faults[f] = {} := Vector.getElem_replicate ..
theorem reset_rings (r : Ring) : State.reset.dev.rings[r] = {} := Vector.getElem_replicate ..

theorem reset_allOff : State.reset.dev.pins.allOff :=
  ⟨fun _ => ⟨Vector.getElem_replicate .., Vector.getElem_replicate ..⟩, fun _ => Vector.getElem_replicate .., fun _ => Vector.getElem_replicate ..⟩

/-- Settles O3: every field of the reset state as its declaration gives it. -/
theorem afterReset : Obligations.AfterReset := by
  unfold Obligations.AfterReset
  refine ⟨rfl, rfl, rfl, rfl, reset_allOff, rfl, rfl, rfl, rfl, rfl, rfl, rfl, rfl, rfl, fun c => ?_, fun n => ?_, fun f => ?_, fun r => ?_⟩
  · rw [reset_chans, reset_paths]
    exact ⟨rfl, rfl, rfl, rfl, rfl⟩
  · rw [reset_slots]
    exact ⟨rfl, rfl, rfl⟩
  · rw [reset_faults]
    exact ⟨rfl, rfl, rfl⟩
  · rw [reset_rings]
    exact ⟨rfl, rfl⟩

/-- Settles O4: no power output is on and FLT is asserted, no slot has an output on, and the memories list nothing. -/
theorem invariantsAtReset : Obligations.InvariantsAtReset := by
  unfold Obligations.InvariantsAtReset
  refine ⟨⟨fun n hn => ?_, fun _ => reset_allOff, rfl, fun _ => rfl, nofun⟩, fun n => ?_, rfl, rfl, rfl, rfl⟩
  · obtain ⟨ha, -⟩ := reset_allOff.1 n
    rw [ha] at hn
    cases hn.1
  · rw [reset_slots]
    rfl

end Sys2Proof.Machine

/-! PROOFS. The fault injections of the host (O59): the words FI_MEM and FI_RAIL (R441, R442). -/

namespace Sys2Proof.Machine

/-! ### FI_MEM -/

/-- The word FI_MEM of its four fields. -/
def fiMemOf (n : BitVec 2) (reg : BitVec 3) (pec : Bool) (crc : BitVec 2) : Nat := n.toNat + 4 * reg.toNat + 32 * b2n pec + 64 * crc.toNat

theorem fiMemOf_fields (n : BitVec 2) (reg : BitVec 3) (pec : Bool) (crc : BitVec 2) : bitsOf (fiMemOf n reg pec crc) 0 2 = n.toNat ∧
    bitsOf (fiMemOf n reg pec crc) 2 3 = reg.toNat ∧ bitOf (fiMemOf n reg pec crc) 5 = pec ∧ bitsOf (fiMemOf n reg pec crc) 6 2 = crc.toNat := by
  revert n reg pec crc
  decide

theorem fiMemWord_toNat (d : Device) : (wordAt d (.dev 0x220)).toNat = fiMemOf d.col.fiRsN d.col.fiRsReg d.col.fiPec d.col.fiCrc := by
  have h : (wordAt d (.dev 0x220)).toNat = fiMemWord d % 2 ^ 32 := BitVec.toNat_ofNat ..
  have hp : b2n d.col.fiPec ≤ 1 := by cases d.col.fiPec <;> decide
  rw [h, fiMemWord, fiMemOf]
  omega

/-- FI_MEM after a write of a mask. -/
def fiMemMix (k v : Nat) (d : Device) : Nat := maskMix k (wordAt d (.dev 0x220)).toNat v

/-- The fields of FI_MEM that a mask touches take their new value, the others stay. -/
theorem fiMemMix_count {k : Nat} (hk : bitsOf k 0 5 = 31) (v : Nat) (d : Device) :
    bitsOf (fiMemMix k v d) 0 2 = bitsOf v 0 2 ∧ bitsOf (fiMemMix k v d) 2 3 = bitsOf v 2 3 := by
  have h1 : bitsOf k 0 2 = 2 ^ 2 - 1 := by simp only [bitsOf, Nat.shiftRight_eq_div_pow] at *; omega
  have h2 : bitsOf k 2 3 = 2 ^ 3 - 1 := by simp only [bitsOf, Nat.shiftRight_eq_div_pow] at *; omega
  exact ⟨bitsOf_maskMix_taken _ _ (by decide) h1, bitsOf_maskMix_taken _ _ (by decide) h2⟩

theorem fiMemMix_count_kept {k : Nat} (hk : bitsOf k 0 5 = 0) (v : Nat) (d : Device) :
    bitsOf (fiMemMix k v d) 0 2 = d.col.fiRsN.toNat ∧ bitsOf (fiMemMix k v d) 2 3 = d.col.fiRsReg.toNat := by
  have h1 : bitsOf k 0 2 = 0 := by simp only [bitsOf, Nat.shiftRight_eq_div_pow] at *; omega
  have h2 : bitsOf k 2 3 = 0 := by simp only [bitsOf, Nat.shiftRight_eq_div_pow] at *; omega
  obtain ⟨hn, hr, -, -⟩ := fiMemOf_fields d.col.fiRsN d.col.fiRsReg d.col.fiPec d.col.fiCrc
  rw [fiMemMix, bitsOf_maskMix_kept _ _ (by decide) h1, bitsOf_maskMix_kept _ _ (by decide) h2, fiMemWord_toNat]
  exact ⟨hn, hr⟩

theorem fiMemMix_pec (k v : Nat) (d : Device) : bitOf (fiMemMix k v d) 5 = if bitOf k 5 then bitOf v 5 else d.col.fiPec := by
  obtain ⟨-, -, hp, -⟩ := fiMemOf_fields d.col.fiRsN d.col.fiRsReg d.col.fiPec d.col.fiCrc
  rw [fiMemMix, bitOf_maskMix _ _ _ _ (by decide), fiMemWord_toNat, hp]

theorem fiMemMix_crc {k : Nat} (hk : bitsOf k 6 2 = 3) (v : Nat) (d : Device) : bitsOf (fiMemMix k v d) 6 2 = bitsOf v 6 2 :=
  bitsOf_maskMix_taken _ _ (by decide) hk

theorem fiMemMix_crc_kept {k : Nat} (hk : bitsOf k 6 2 = 0) (v : Nat) (d : Device) : bitsOf (fiMemMix k v d) 6 2 = d.col.fiCrc.toNat := by
  obtain ⟨-, -, -, hc⟩ := fiMemOf_fields d.col.fiRsN d.col.fiRsReg d.col.fiPec d.col.fiCrc
  rw [fiMemMix, bitsOf_maskMix_kept _ _ (by decide) hk, fiMemWord_toNat, hc]

theorem writeJudge_fiMem {k : Nat} (hk : k &&& 0xFF = k) (v : Nat) (d : Device) : writeJudge 0x100220 k v d =
    if fiMemBad k (fiMemMix k v d) then 2 else if fiMemMirror d k (fiMemMix k v d) then 7 else 0 := by
  have hw : within k (rwMask (.dev 0x220) ||| w1cMask (.dev 0x220)) = true := decide_eq_true hk
  simp only [writeJudge, locate_fiMem, hw]
  simp [rwMask, fiMemMix]
  rfl

/-- The injections after a write of FI_MEM: the fields of the word, and the event of an arming. -/
theorem fiMemWrite_fields (k x : Nat) (d : Device) : (fiMemWrite k x d).col.fiRsN = BitVec.ofNat 2 (bitsOf x 0 2) ∧
    (fiMemWrite k x d).col.fiRsReg = BitVec.ofNat 3 (bitsOf x 2 3) ∧ (fiMemWrite k x d).col.fiPec = bitOf x 5 ∧
    (fiMemWrite k x d).col.fiCrc = BitVec.ofNat 2 (bitsOf x 6 2) := by
  obtain ⟨e, he⟩ : ∃ e, e = d.updCol fun c => { c with
    fiRsN := BitVec.ofNat 2 (bitsOf x 0 2), fiRsReg := BitVec.ofNat 3 (bitsOf x 2 3), fiPec := bitOf x 5, fiCrc := BitVec.ofNat 2 (bitsOf x 6 2) } := ⟨_, rfl⟩
  have k : Keeps [.arbs, .log] e (fiMemWrite k x d) := he ▸ .ite (fiEvent_keeps _) (.refl ..)
  have hf : ((fiMemWrite _ x d).col.fiRsN, _, _, _, _, _, _, _) = (e.col.fiRsN, e.col.fiRsReg, e.col.fiPec, e.col.fiCrc, e.col.fiFsrc, e.col.fiMode,
    e.col.fiMs, e.col.fiAt) := k.parts .fi rfl
  simp only [Prod.mk.injEq] at hf
  obtain ⟨h1, h2, h3, h4, -⟩ := hf
  rw [h1, h2, h3, h4, he]
  exact ⟨rfl, rfl, rfl, rfl⟩

theorem fiMemWrite_logQ {k x : Nat} {d : Device} (ha : fiMemArms k x = true) (hq : d.col.logQ.length < 32) :
    (fiMemWrite k x d).col.logQ.length = d.col.logQ.length + 1 := by
  rw [fiMemWrite, if_pos ha]
  exact logPush_length _ _ _ _ _ _ _ hq

section
variable {k v : Nat} {pec : Option Byte} {d : Device} (hup : targetUp d = true) (hu : unlocked d = true)
variable (hw : soundBlock 0x12 (writeOf 0x100220 k v pec) d = true) (hk : k &&& 0xFF = k) (h0 : k ≠ 0) (hv : v < 256)
include hup hu hw hk hv

theorem fiMem_taken (hb : fiMemBad k (fiMemMix k v d) = false) (hm : fiMemMirror d k (fiMemMix k v d) = false) (h0 : k ≠ 0) :
    write (writeOf 0x100220 k v pec) d = record 0x12 0 0 (fiMemWrite k (fiMemMix k v d) (ack d)) := by
  have hk' : k < 2 ^ 32 := lt_of_le_of_lt (hk ▸ Nat.and_le_right) (by decide)
  have hj : writeJudge 0x100220 k v (ack d) = 0 := by
    rw [writeJudge_fiMem hk]
    change (if fiMemBad k (fiMemMix k v d) then 2 else if fiMemMirror d k (fiMemMix k v d) then 7 else 0) = 0
    rw [hb, hm]
    rfl
  rw [write_taken hup hu hw (by decide) hk' (by omega) hj, writeWord_fiMem, hk, if_neg h0]
  rfl

theorem fiMem_refused {r : Nat} (hr : r = if fiMemBad k (fiMemMix k v d) then 2 else if fiMemMirror d k (fiMemMix k v d) then 7 else 0) (h0 : r ≠ 0) :
    ∃ n, write (writeOf 0x100220 k v pec) d = record 0x12 r n (ack d) := by
  have hk' : k < 2 ^ 32 := lt_of_le_of_lt (hk ▸ Nat.and_le_right) (by decide)
  have hj : writeJudge 0x100220 k v (ack d) = r := by
    rw [writeJudge_fiMem hk, hr]
    rfl
  exact ⟨_, write_refused hup hu hw (by decide) hk' (by omega) h0 hj⟩

end

/-! ### FI_RAIL -/

/-- The rails of a source, and whether it is active, are as they were. -/
structure SameRails (g : Fsrc) (d e : Device) : Prop where
  rpath : (e.faults[g]).rpath = (d.faults[g]).rpath
  inj : (e.faults[g]).inj = (d.faults[g]).inj
  active : (e.faults[g]).active = (d.faults[g]).active

theorem SameRails.trans {g : Fsrc} {d e f : Device} (h : SameRails g d e) (k : SameRails g e f) : SameRails g d f :=
  ⟨k.rpath.trans h.rpath, k.inj.trans h.inj, k.active.trans h.active⟩

theorem SameRails.of_eq {g : Fsrc} {d e : Device} (h : e.faults = d.faults) : SameRails g d e := by
  constructor <;> rw [h]

/-- A raise by an event changes no rail and makes nothing active. -/
theorem raiseX_rails (f : Nat) (x : Nat) (d : Device) (g : Fsrc) : SameRails g d (raiseX f false x d) := by
  by_cases hg : g = Fin.ofNat 2048 f
  · subst hg
    rcases hs : scopeOf f with _ | sc
    · rw [raiseX_reserved hs]
      exact .of_eq rfl
    · by_cases h : colRuns d = false ∨ (d.faults[(Fin.ofNat 2048 f : Fsrc)]).active = true
      · rw [raiseX_again hs h]
        constructor <;> simp [-Fin.getElem_fin]
      · simp only [not_or, Bool.not_eq_false, Bool.not_eq_true] at h
        obtain ⟨b, hb⟩ := raiseX_fault (level := false) (x := x) hs h.1 h.2
        constructor
        · rw [hb]; exact turnFault_rpath ..
        · rw [hb]; exact turnFault_inj ..
        · rw [hb]; simp only [raisedFault, turnFault_active, Bool.or_false]
  · have h := raiseX_fault_other false x d hg
    constructor <;> rw [h]

theorem sameRails_closed (g : Fsrc) (d : Device) : BusClosed (SameRails g d) :=
  ⟨fun _ _ k h => h.trans (.of_eq (k.parts .faults rfl)), fun f _ _ h => h.trans (raiseX_rails f 0 _ g),
    fun _ _ h => h.trans (.of_eq ((halveQuad_keeps ..).parts .faults rfl))⟩

/-- The moves of the bus state leave every source's rails. -/
theorem busEval_rails (d : Device) (g : Fsrc) : SameRails g d (busEval d) := (sameRails_closed g d).busEval ⟨rfl, rfl, rfl⟩

/-- A source with a scope has its own entry. -/
theorem fin_of_scope {f : Nat} {sc : Scope} (h : scopeOf f = some sc) : (fin f).1 = f := by
  have hf : f < 2048 := by
    by_contra hn
    have : scopeOf f = none := by
      unfold scopeOf
      repeat' rw [if_neg (by omega)]
    rw [this] at h
    cases h
  exact Nat.mod_eq_of_lt hf

theorem rpathFault_rails {f : Fsrc} (lv : Bool) {sc : Scope} {d : Device} (hc : colRuns d = true) (hs : scopeOf f.1 = some sc) :
    ((rpathFault f lv d).faults[f]).rpath = true ∧ ((rpathFault f lv d).faults[f]).inj = (d.faults[f]).inj := by
  cases hp : (d.faults[f]).rpath
  · cases ha : (d.faults[f]).active
    · have ha' : ((markPath f lv d).faults[f]).active = false := by rw [markPath_fault]; exact ha
      obtain ⟨b, hf⟩ := raiseX_fsrc_fault (level := true) (x := hkReading (markPath f lv d) f.1) hs (markPath_colRuns hc) ha'
      rw [rpathFault_raises hs hc hp ha, updFault_faults, upd_same, hf]
      simp only [raisedFault, turnFault_rpath, turnFault_inj, markPath_fault, and_self]
    · rw [rpathFault_active hs hc hp ha]
      obtain ⟨b, hb⟩ := reactNow_fsrc_fault f sc (effSev (markPath f lv d) f.1) ((markPath f lv d).updFault f fun y => { y with
          hold := y.hold || (effSev (markPath f lv d) f.1).holds, injHold := if y.hold then y.injHold else y.inj
          heldAt := if y.hold then y.heldAt else (markPath f lv d).loc
          latched := y.latched || decide (actSev sc (effSev (markPath f lv d) f.1) = .latch) })
      rw [hb, updFault_faults, upd_same, markPath_fault]
      exact ⟨rfl, rfl⟩
  · rw [rpathFault_idle (.inl hp)]
    exact ⟨hp, rfl⟩

/-- The word FI_RAIL of its three fields. -/
def fiRailOf (f m x : Nat) : Nat := f + 4096 * m + 65536 * x

theorem fiRailOf_fields {f m x : Nat} (hf : f < 4096) (hm : m < 4) (hx : x < 65536) : bitsOf (fiRailOf f m x) 0 12 = f ∧
    bitsOf (fiRailOf f m x) 12 2 = m ∧ bitsOf (fiRailOf f m x) 16 16 = x := by
  simp only [fiRailOf, bitsOf, Nat.shiftRight_eq_div_pow]
  omega

/-- A write of the whole word FI_RAIL. -/
def fiRailMix (v : Nat) (d : Device) : Nat := maskMix 0xFFFF3FFF (wordAt d (.dev 0x224)).toNat v

theorem fiRailMix_fields (v : Nat) (d : Device) : bitsOf (fiRailMix v d) 0 12 = bitsOf v 0 12 ∧ bitsOf (fiRailMix v d) 12 2 = bitsOf v 12 2 ∧
    bitsOf (fiRailMix v d) 16 16 = bitsOf v 16 16 :=
  ⟨bitsOf_maskMix_taken _ _ (by decide) (by decide), bitsOf_maskMix_taken _ _ (by decide) (by decide),
    bitsOf_maskMix_taken _ _ (by decide) (by decide)⟩

theorem writeJudge_fiRail (v : Nat) (d : Device) : writeJudge 0x100224 0xFFFF3FFF v d = if scopeOf (bitsOf v 0 12) = none then 8 else 0 := by
  obtain ⟨hf, -, -⟩ := fiRailMix_fields v d
  rw [fiRailMix] at hf
  have hw : within 0xFFFF3FFF (rwMask (.dev 0x224) ||| w1cMask (.dev 0x224)) = true := by decide
  simp only [writeJudge, locate_fiRail, hw, hf]
  simp [rwMask, bitsOf]
  rfl

/-- The injection that a write of FI_RAIL starts on an idle word: its words, and what its rails make of the source. -/
def fiRailStart (f m t : Nat) (d : Device) : Device :=
  fiEvent ((d.updCol fun c => { c with fiFsrc := BitVec.ofNat 12 f, fiMode := BitVec.ofNat 2 m, fiMs := BitVec.ofNat 16 t, fiAt := d.up }).updFault (fin f)
    fun y => { y with inj := true })

theorem fiRailWrite_starts {x f m t : Nat} {d : Device} (hf : bitsOf x 0 12 = f) (hm : bitsOf x 12 2 = m) (ht : bitsOf x 16 16 = t)
    (hi : d.col.fiMode = 0) (hm0 : m ≠ 0) (ht0 : t ≠ 0) : fiRailWrite x d = fiRailAct f m (fiRailStart f m t d) := by
  have hs : ¬ (d.col.fiMode.toNat = m ∧ d.col.fiFsrc.toNat = f) := by
    rw [hi]
    exact fun h => hm0 h.1.symm
  unfold fiRailWrite
  have hn : ¬ d.col.fiMode ≠ 0 := not_not.2 hi
  simp only [hf, hm, ht, decide_eq_false hs, hn, false_and, if_false, if_neg hm0, if_neg ht0, Bool.false_eq_true]
  rfl

theorem fiRailStart_faults (f m t : Nat) (d : Device) : (fiRailStart f m t d).faults = upd d.faults (fin f) fun y => { y with inj := true } :=
  (fiEvent_keeps ..).parts .faults rfl

theorem fiRailStart_colRuns {f m t : Nat} {d : Device} (h : colRuns d = true) : colRuns (fiRailStart f m t d) = true := by
  have hs : (fiRailStart f m t d).start = d.start := (fiEvent_keeps ..).start_eq rfl rfl rfl
  rw [colRuns, hs]
  exact h

/-- The injection words of the fault register. -/
def fiWords (c : Collector) : BitVec 12 × BitVec 2 × BitVec 16 × Nat := (c.fiFsrc, c.fiMode, c.fiMs, c.fiAt)

theorem Keeps.fiWords_eq {S : List Part} {d e : Device} (k : Keeps S d e) (h : S.contains .fi = false := by rfl) : fiWords e.col = fiWords d.col := by
  have hf : (e.col.fiRsN, e.col.fiRsReg, e.col.fiPec, e.col.fiCrc, e.col.fiFsrc, e.col.fiMode, e.col.fiMs, e.col.fiAt) =
    (d.col.fiRsN, d.col.fiRsReg, d.col.fiPec, d.col.fiCrc, d.col.fiFsrc, d.col.fiMode, d.col.fiMs, d.col.fiAt) := k.parts .fi h
  simp only [Prod.mk.injEq] at hf
  obtain ⟨-, -, -, -, h1, h2, h3, h4⟩ := hf
  rw [fiWords, h1, h2, h3, h4]
  rfl

theorem fiRailAct_words (f m t : Nat) (d : Device) : fiWords (busEval (fiRailAct f m (fiRailStart f m t d))).col =
    (BitVec.ofNat 12 f, BitVec.ofNat 2 m, BitVec.ofNat 16 t, d.up) :=
  (busEval_keeps _).fiWords_eq.trans ((fiRailAct_keeps ..).fiWords_eq.trans (fiEvent_keeps _).fiWords_eq)

section
variable {f : BitVec 12} {m : BitVec 2} {x : BitVec 16} {pec : Option Byte} {d : Device} (hup : targetUp d = true) (hu : unlocked d = true)
variable (hw : soundBlock 0x12 (writeOf 0x100224 0xFFFF3FFF (fiRailOf f.toNat m.toNat x.toNat) pec) d = true)
include hup hu hw

theorem fiRail_refused (hs : scopeOf f.toNat = none) :
    write (writeOf 0x100224 0xFFFF3FFF (fiRailOf f.toNat m.toNat x.toNat) pec) d = record 0x12 8 0 (ack d) := by
  obtain ⟨hf, -, -⟩ := fiRailOf_fields f.isLt m.isLt x.isLt
  have hv : fiRailOf f.toNat m.toNat x.toNat < 2 ^ 32 := by simp only [fiRailOf]; omega
  have hj : writeJudge 0x100224 0xFFFF3FFF (fiRailOf f.toNat m.toNat x.toNat) (ack d) = 8 := by rw [writeJudge_fiRail, hf, if_pos hs]
  exact write_refused hup hu hw (by decide) (by decide) hv (by decide) hj

theorem fiRail_taken {sc : Scope} (hs : scopeOf f.toNat = some sc) (hi : d.col.fiMode = 0) (hm : m ≠ 0) (hx : x ≠ 0) :
    write (writeOf 0x100224 0xFFFF3FFF (fiRailOf f.toNat m.toNat x.toNat) pec) d =
      record 0x12 0 0 (busEval (fiRailAct f.toNat m.toNat (fiRailStart f.toNat m.toNat x.toNat (ack d)))) := by
  obtain ⟨hf, hm', hx'⟩ := fiRailOf_fields f.isLt m.isLt x.isLt
  have hv : fiRailOf f.toNat m.toNat x.toNat < 2 ^ 32 := by simp only [fiRailOf]; omega
  have hj : writeJudge 0x100224 0xFFFF3FFF (fiRailOf f.toNat m.toNat x.toNat) (ack d) = 0 := by
    rw [writeJudge_fiRail, hf, if_neg (by rw [hs]; exact nofun)]
  obtain ⟨h1, h2, h3⟩ := fiRailMix_fields (fiRailOf f.toNat m.toNat x.toNat) (ack d)
  rw [write_taken hup hu hw (by decide) (by decide) hv hj, writeWord_fiRail, if_neg (by decide)]
  exact congrArg (fun e => record 0x12 0 0 (busEval e))
    (fiRailWrite_starts (h1.trans hf) (h2.trans hm') (h3.trans hx') hi (toNat_ne_zero hm) (toNat_ne_zero hx))

end

theorem colRuns_of_target {d : Device} (h : targetUp d = true) : colRuns d = true := by
  simp only [targetUp, Bool.and_eq_true] at h
  obtain ⟨h, -⟩ := h
  exact Bool.and_eq_true_iff.2 h

/-- Equal rails fail the reporting path of the source (R441). -/
theorem fiRail_equal {f : BitVec 12} {m : BitVec 2} {x : BitVec 16} {sc : Scope} {d : Device} (hc : colRuns d = true) (hs : scopeOf f.toNat = some sc)
    (hm : m = 1 ∨ m = 2) : ((busEval (fiRailAct f.toNat m.toNat (fiRailStart f.toNat m.toNat x.toNat d))).faults[fin f.toNat]).inj = true ∧
      ((busEval (fiRailAct f.toNat m.toNat (fiRailStart f.toNat m.toNat x.toNat d))).faults[fin f.toNat]).rpath = true := by
  obtain ⟨hr, hi, -⟩ := busEval_rails (fiRailAct f.toNat m.toNat (fiRailStart f.toNat m.toNat x.toNat d)) (fin f.toNat)
  have hc' := fiRailStart_colRuns (f := f.toNat) (m := m.toNat) (t := x.toNat) hc
  have hs' : scopeOf (fin f.toNat).1 = some sc := by rw [fin_of_scope hs, hs]
  have ha : ∃ lv, fiRailAct f.toNat m.toNat (fiRailStart f.toNat m.toNat x.toNat d) = rpathFault (fin f.toNat) lv (fiRailStart f.toNat m.toNat x.toNat d) := by
    rcases hm with rfl | rfl
    · exact ⟨_, rfl⟩
    · exact ⟨_, rfl⟩
  obtain ⟨lv, ha⟩ := ha
  obtain ⟨h1, h2⟩ := rpathFault_rails (f := fin f.toNat) lv hc' hs'
  rw [hr, hi, ha, h1, h2, fiRailStart_faults, upd_same]
  exact ⟨rfl, rfl⟩

/-- Both rails inverted: an idle source reads active, an active one idle unless its reporting path has failed (R441). -/
theorem fiRail_inverted {f : BitVec 12} {x : BitVec 16} {sc : Scope} {d : Device} (hc : colRuns d = true) (hs : scopeOf f.toNat = some sc) :
    ((busEval (fiRailAct f.toNat 3 (fiRailStart f.toNat 3 x.toNat d))).faults[fin f.toNat]).inj = true ∧
      ((busEval (fiRailAct f.toNat 3 (fiRailStart f.toNat 3 x.toNat d))).faults[fin f.toNat]).active =
        (!(d.faults[fin f.toNat]).active || (d.faults[fin f.toNat]).rpath) := by
  obtain ⟨-, hi, ha⟩ := busEval_rails (fiRailAct f.toNat 3 (fiRailStart f.toNat 3 x.toNat d)) (fin f.toNat)
  have hc' := fiRailStart_colRuns (f := f.toNat) (m := 3) (t := x.toNat) hc
  obtain ⟨e, he⟩ : ∃ e, fiRailStart f.toNat 3 x.toNat d = e := ⟨_, rfl⟩
  have hf : e.faults[fin f.toNat] = { d.faults[fin f.toNat] with inj := true } := by rw [← he, fiRailStart_faults, upd_same]
  rw [hi, ha]
  rw [he] at hc' ⊢
  cases hact : (d.faults[fin f.toNat]).active
  · have he' : (e.faults[fin f.toNat]).active = false := by rw [hf]; exact hact
    have hr : fiRailAct f.toNat 3 e = (raiseX f.toNat true (hkReading e f.toNat) e).updFault (fin f.toNat) fun y => { y with level := false } := by
      have : ¬ (e.faults[fin f.toNat]).active = true := by rw [he']; decide
      exact if_neg this
    obtain ⟨b, hb⟩ := raiseX_fault (level := true) (x := hkReading e f.toNat) hs hc' he'
    rw [hr, updFault_faults, upd_same]
    have hb' : (raiseX f.toNat true (hkReading e f.toNat) e).faults[fin f.toNat] = _ := hb
    rw [hb']
    refine ⟨?_, ?_⟩
    · have : (e.faults[fin f.toNat]).inj = true := by rw [hf]
      exact (turnFault_inj ..).trans this
    · simp only [raisedFault, Bool.or_true]
      rfl
  · have hr : fiRailAct f.toNat 3 e = readsIdle f.toNat e := by
      have : (e.faults[fin f.toNat]).active = true := by rw [hf]; exact hact
      exact if_pos this
    have hw : (readsIdle f.toNat e).faults[fin f.toNat] = { e.faults[fin f.toNat] with
        active := (e.faults[fin f.toNat]).rpath, quietAt := if (e.faults[fin f.toNat]).rpath then none else some e.loc } := upd_same ..
    rw [hr, hw, hf]
    exact ⟨rfl, rfl⟩

theorem reg_value (n : BitVec 2) (reg : BitVec 3) : bitsOf (n.toNat + 4 * reg.toNat) 0 2 = n.toNat ∧ bitsOf (n.toNat + 4 * reg.toNat) 2 3 = reg.toNat ∧
    n.toNat + 4 * reg.toNat < 256 := by
  simp only [bitsOf, Nat.shiftRight_eq_div_pow]
  omega

/-- A bad encoding in what FI_MEM's register-shift fields take. -/
theorem fiMemBad_count (n : BitVec 2) (reg : BitVec 3) (d : Device) :
    fiMemBad 0x1F (fiMemMix 0x1F (n.toNat + 4 * reg.toNat) d) = decide (5 ≤ reg.toNat) := by
  obtain ⟨-, hr⟩ := fiMemMix_count (k := 0x1F) (by decide) (n.toNat + 4 * reg.toNat) d
  rw [fiMemBad, hr, (reg_value n reg).2.1]
  simp [bitsOf]

theorem fiMemMirror_count (n : BitVec 2) (reg : BitVec 3) (d : Device) : fiMemMirror d 0x1F (fiMemMix 0x1F (n.toNat + 4 * reg.toNat) d) =
    (decide (reg.toNat = 4) && decide (n.toNat ≠ 0) && decide (d.start.st = .run)) := by
  obtain ⟨hn, hr⟩ := fiMemMix_count (k := 0x1F) (by decide) (n.toNat + 4 * reg.toNat) d
  rw [fiMemMirror, hr, hn, (reg_value n reg).1, (reg_value n reg).2.1]
  simp [bitsOf]

theorem crc_value (v : BitVec 2) : 64 * v.toNat < 256 ∧ bitsOf (64 * v.toNat) 6 2 = v.toNat := by
  simp only [bitsOf, Nat.shiftRight_eq_div_pow]
  omega

theorem ofNat_toNat_eq {w n : Nat} {x : BitVec w} (h : n = x.toNat) : BitVec.ofNat w n = x := by rw [h, BitVec.ofNat_toNat, BitVec.setWidth_eq]

/-- Settles O59: FI_MEM takes the fields that its mask touches, FI_RAIL its whole word. -/
theorem faultInjection : Obligations.FaultInjection := by
  unfold Obligations.FaultInjection
  refine ⟨fun n reg pec s hup hu hw hreg hrun => ⟨_, rfl, ?_⟩, fun n reg pec s hup hu hw hreg => ⟨_, rfl, ?_⟩,
    fun n pec s hup hu hw hn hrun => ⟨_, rfl, ?_⟩, fun on pec s hup hu hw => ⟨_, rfl, ?_⟩, fun v pec s hup hu hw => ⟨fun hv => ⟨_, rfl, ?_⟩, fun hv => ⟨_, rfl, ?_⟩⟩,
    fun f m x pec s hup hu hw hs => ⟨_, rfl, ?_⟩, fun f m x sc pec s hup hu hw hs hi hm hx => ⟨_, rfl, ?_⟩,
    fun f x sc pec s hup hu hw hs hi hx => ⟨_, rfl, ?_⟩, fun _ _ _ _ => rfl, fun _ _ _ => rfl, fun _ _ _ => rfl, fun _ _ _ _ _ => rfl⟩
  · have hb := (fiMemBad_count n reg s.dev).trans (decide_eq_false (Nat.not_le.2 hreg))
    have hm : fiMemMirror s.dev 0x1F (fiMemMix 0x1F (n.toNat + 4 * reg.toNat) s.dev) = false := by
      rw [fiMemMirror_count]
      simp only [Bool.and_eq_false_iff, decide_eq_false_iff_not]
      by_contra hc
      push Not at hc
      exact hrun (BitVec.eq_of_toNat_eq hc.1.1) (fun h => hc.1.2 (by rw [h]; rfl)) hc.2
    obtain ⟨hn1, hr1⟩ := fiMemMix_count (k := 0x1F) (by decide) (n.toNat + 4 * reg.toNat) s.dev
    obtain ⟨hn2, hr2, hlt⟩ := reg_value n reg
    obtain ⟨h1, h2, h3, h4⟩ := fiMemWrite_fields 0x1F (fiMemMix 0x1F (n.toNat + 4 * reg.toNat) s.dev) (ack s.dev)
    rw [fiMem_taken hup hu hw (by decide) hlt hb hm (by decide)]
    refine ⟨recorded_drive_record (.of_keeps (fiMemWrite_keeps ..)) (by decide), ?_⟩
    rw [drive_col, record_col, h1, h2, h3, h4, fiMemMix_pec, fiMemMix_crc_kept (by decide)]
    refine ⟨ofNat_toNat_eq (hn1.trans hn2), ofNat_toNat_eq (hr1.trans hr2), rfl, ofNat_toNat_eq rfl, fun hn hq => ?_⟩
    refine fiMemWrite_logQ ?_ hq
    have hk : decide (bitsOf 0x1F 0 5 ≠ 0) = true := by decide
    rw [fiMemArms, hn1.trans hn2, decide_eq_true (toNat_ne_zero hn), hk]
    rfl
  · have hb := (fiMemBad_count n reg s.dev).trans (decide_eq_true hreg)
    obtain ⟨-, -, hlt⟩ := reg_value n reg
    obtain ⟨k, he⟩ := fiMem_refused hup hu hw (by decide) hlt (r := 2) (by rw [if_pos hb]) (by decide)
    rw [he]
    exact ⟨recorded_drive_record (.of_keeps (.refl [] _)) (by decide), by rw [drive_col, record_col]; rfl⟩
  · obtain ⟨-, -, hlt⟩ := reg_value n 4
    have hb : fiMemBad 0x1F (fiMemMix 0x1F (n.toNat + 16) s.dev) = false := (fiMemBad_count n 4 s.dev).trans (by decide)
    have hm : fiMemMirror s.dev 0x1F (fiMemMix 0x1F (n.toNat + 16) s.dev) = true := by
      refine (fiMemMirror_count n 4 s.dev).trans ?_
      rw [decide_eq_true (toNat_ne_zero hn), decide_eq_true hrun]
      rfl
    obtain ⟨k, he⟩ := fiMem_refused hup hu hw (by decide) hlt (r := 7) (by rw [hb, hm]; rfl) (by decide)
    have he' : write (writeOf 0x100220 0x1F (n.toNat + 4 * (4 : BitVec 3).toNat) pec) s.dev = _ := he
    rw [he']
    exact ⟨recorded_drive_record (.of_keeps (.refl [] _)) (by decide), by rw [drive_col, record_col]; rfl⟩
  · have hlt : 32 * b2n on < 256 := by cases on <;> decide
    have hb : fiMemBad 0x20 (fiMemMix 0x20 (32 * b2n on) s.dev) = false := by simp [fiMemBad, bitsOf]
    have hm : fiMemMirror s.dev 0x20 (fiMemMix 0x20 (32 * b2n on) s.dev) = false := by simp [fiMemMirror, bitsOf]
    have hp : bitOf (32 * b2n on) 5 = on := by cases on <;> decide
    obtain ⟨hn, hr⟩ := fiMemMix_count_kept (k := 0x20) (by decide) (32 * b2n on) s.dev
    obtain ⟨h1, h2, h3, h4⟩ := fiMemWrite_fields 0x20 (fiMemMix 0x20 (32 * b2n on) s.dev) (ack s.dev)
    rw [fiMem_taken hup hu hw (by decide) hlt hb hm (by decide)]
    refine ⟨recorded_drive_record (.of_keeps (fiMemWrite_keeps ..)) (by decide), ?_⟩
    rw [drive_col, record_col, h1, h2, h3, h4, fiMemMix_pec, fiMemMix_crc_kept (by decide), if_pos (by decide)]
    exact ⟨hp, ofNat_toNat_eq hn, ofNat_toNat_eq hr, ofNat_toNat_eq rfl⟩
  · obtain ⟨hlt, hc⟩ := crc_value v
    have hx := (fiMemMix_crc (k := 0xC0) (by decide) (64 * v.toNat) s.dev).trans hc
    have hb : fiMemBad 0xC0 (fiMemMix 0xC0 (64 * v.toNat) s.dev) = false := by
      have h3 : ¬ v.toNat = 3 := fun h => hv (BitVec.eq_of_toNat_eq h)
      rw [fiMemBad, hx, decide_eq_false h3]
      simp [bitsOf]
    have hm : fiMemMirror s.dev 0xC0 (fiMemMix 0xC0 (64 * v.toNat) s.dev) = false := by simp [fiMemMirror, bitsOf]
    obtain ⟨-, -, h3, h4⟩ := fiMemWrite_fields 0xC0 (fiMemMix 0xC0 (64 * v.toNat) s.dev) (ack s.dev)
    rw [fiMem_taken hup hu hw (by decide) hlt hb hm (by decide)]
    refine ⟨recorded_drive_record (.of_keeps (fiMemWrite_keeps ..)) (by decide), ?_⟩
    rw [drive_col, record_col, h3, h4, fiMemMix_pec, if_neg (by decide)]
    exact ⟨ofNat_toNat_eq hx, rfl⟩
  · subst hv
    have hx : bitsOf (fiMemMix 0xC0 (64 * (3 : BitVec 2).toNat) s.dev) 6 2 = 3 := (fiMemMix_crc (k := 0xC0) (by decide) _ s.dev).trans (by decide)
    have hb : fiMemBad 0xC0 (fiMemMix 0xC0 (64 * (3 : BitVec 2).toNat) s.dev) = true := by
      rw [fiMemBad, hx]
      simp [bitsOf]
    obtain ⟨k, he⟩ := fiMem_refused hup hu hw (by decide) (by decide) (r := 2) (by rw [if_pos hb]) (by decide)
    rw [he]
    exact ⟨recorded_drive_record (.of_keeps (.refl [] _)) (by decide), by rw [drive_col, record_col]; rfl⟩
  · have he := fiRail_refused hup hu hw hs
    rw [fiRailOf] at he
    rw [he]
    refine ⟨recorded_drive_record (.of_keeps (.refl [] _)) (by decide), ?_, ?_⟩
    · rw [drive_col, record_col]; rfl
    · rw [drive_faults, record_faults]; rfl
  · have hm0 : m ≠ 0 := by rcases hm with rfl | rfl <;> decide
    have he := fiRail_taken hup hu hw hs hi hm0 hx
    rw [fiRailOf] at he
    rw [he, drive_col, drive_faults, record_col, record_faults]
    have hf := fiRailAct_words f.toNat m.toNat x.toNat (ack s.dev)
    simp only [fiWords, Prod.mk.injEq] at hf
    obtain ⟨h1, h2, h3, h4⟩ := hf
    obtain ⟨h5, h6⟩ := fiRail_equal (x := x) (d := ack s.dev) (colRuns_of_target hup) hs hm
    exact ⟨h2.trans (ofNat_toNat_eq rfl), h1.trans (ofNat_toNat_eq rfl), h3.trans (ofNat_toNat_eq rfl), h4, h5, h6⟩
  · have he := fiRail_taken (m := 3) hup hu hw hs hi (by decide) hx
    have he' : write (writeOf 0x100224 0xFFFF3FFF (f.toNat + 4096 * 3 + 65536 * x.toNat) pec) s.dev = _ := he
    rw [drive_col, drive_faults]
    change (write (writeOf 0x100224 0xFFFF3FFF (f.toNat + 4096 * 3 + 65536 * x.toNat) pec) s.dev).col.fiMode = 3 ∧
      ((write (writeOf 0x100224 0xFFFF3FFF (f.toNat + 4096 * 3 + 65536 * x.toNat) pec) s.dev).faults[fin f.toNat]).inj = true ∧
      ((write (writeOf 0x100224 0xFFFF3FFF (f.toNat + 4096 * 3 + 65536 * x.toNat) pec) s.dev).faults[fin f.toNat]).active = _
    rw [he', record_col, record_faults]
    have hf := fiRailAct_words f.toNat 3 x.toNat (ack s.dev)
    simp only [fiWords, Prod.mk.injEq] at hf
    obtain ⟨-, h2, -, -⟩ := hf
    obtain ⟨h5, h6⟩ := fiRail_inverted (x := x) (d := ack s.dev) (colRuns_of_target hup) hs
    exact ⟨h2, h5, h6⟩

end Sys2Proof.Machine

/-! PROOFS. The service commands (O60): CAL_COMMIT counts on from the word as a read returns it, and upset data is an open value (R529). -/

namespace Sys2Proof.Machine

/-- The bytes of a memory where it has been written whole. -/
theorem mgets_msets (m : Memory) (a : Nat) (bs : List Byte) {n : Nat} (hn : n ≤ bs.length) (h : m.wf = true) : mgets (msets m a bs) a n = bs.take n := by
  refine List.ext_getElem (by simp [mgets, hn]) fun i h1 h2 => ?_
  have hi : i < bs.length := by simp at h2; omega
  simp only [mgets, List.getElem_map, List.getElem_range, List.getElem_take]
  exact mget_msets_inside m a bs i hi h

/-- Upset data stands in the codeword of `CAL_SEQ`, found before. -/
structure UpsetSeq (d : Device) : Prop where
  errs : d.memory.errs = [(5208, (0, 2))]
  raised : d.memory.raised = [5208]

/-- A read of any codeword leaves it so: this one is known, and no other has an error. -/
theorem UpsetSeq.cwRead {d : Device} (h : UpsetSeq d) (k : Nat) : UpsetSeq (cwRead k d) := by
  obtain ⟨he, hr⟩ := h
  by_cases hk : k = 5208
  · subst hk
    have hb : cwBad d 5208 = true := by simp [cwBad, cwWrong, cwErrs, he]
    have hm : 5208 ∈ d.memory.raised := by rw [hr]; decide
    rw [Machine.cwRead, cwDecode, if_pos hb, ueFound]
    simp only [hm, decide_true, true_or, if_true]
    exact ⟨he, hr⟩
  · have hw : cwWrong d k = 0 := by
      have hn : ¬ 5208 = k := fun e => hk e.symm
      simp [cwWrong, cwErrs, he, hn]
    have hb : ¬ cwBad d k = true := by simp [cwBad, hw]
    rw [Machine.cwRead, cwDecode, if_neg hb, if_neg (by rw [hw]; exact fun hc => nomatch hc.1)]
    exact ⟨he, hr⟩

theorem UpsetSeq.memWordAt {d : Device} (h : UpsetSeq d) : memWordAt d 0x28B00 = Config.upsetWord 0x28B00 := by
  have he : cwErrs d (0x28B00 / 32) = (0, 2) := by simp [cwErrs, h.errs]
  refine if_pos ⟨?_, ?_⟩
  · rw [cwBad, cwWrong, he]; rfl
  · rw [he]; decide

/-- CAL_COMMIT takes the sequence number that it reads one further, into the coefficients in force. -/
theorem calCommit_seq {d : Device} (h : UpsetSeq d) (hwf : d.memory.conf.wf = true) :
    mword (calCommit d).memory.conf 0x28B00 = ((Config.upsetWord 0x28B00).toNat + 1) % 2 ^ 32 := by
  obtain ⟨e, he⟩ : ∃ e, cwReads 0x28B00 4 d = e := ⟨_, rfl⟩
  have hu : UpsetSeq e := he ▸ forEach_induct UpsetSeq _ _ (fun k _ hd => hd.cwRead k) d h
  have hc : e.memory.conf = d.memory.conf := he ▸ (cwReads_keeps ..).parts .conf rfl
  obtain ⟨bs, hb⟩ : ∃ bs, leBytes 4 ((memWordAt e 0x28B00).toNat + 1) ++ leBytes 8 e.ticks = bs := ⟨_, rfl⟩
  have hconf : (calCommit d).memory.conf = msets d.memory.conf 0x28B00 bs := by
    have hw : (memWrite 0x28B00 bs e).memory.conf = d.memory.conf := ((memWrite_keeps ..).parts .conf rfl).trans hc
    rw [calCommit, he, hb]
    refine ((commitStart_keeps ..).parts .conf rfl).trans ?_
    exact congrArg (msets · 0x28B00 bs) hw
  have ht : bs.take 4 = leBytes 4 ((memWordAt e 0x28B00).toNat + 1) := by
    rw [← hb, List.take_left' (leBytes_length ..)]
  rw [hconf, mword, mgets_msets _ _ _ (by rw [← hb]; simp) hwf, ht, leNat_leBytes, hu.memWordAt]
  rfl

/-- A device with an unlock, and a memory whose `CAL_SEQ` holds upset data. -/
def upsetSeq (m : Memory) : State :=
  { State.reset with dev := { State.reset.dev with
      start := { State.reset.dev.start with st := .configured }
      sup := { State.reset.dev.sup with unlockEnd := some 1 }
      memory := { State.reset.dev.memory with mem := m, errs := [(5208, (0, 2))], raised := [5208] } } }

/-- CAL_COMMIT of it. -/
def commitWrite (s : State) : BlockWrite := ⟨1, [0], some (byteOf (crc8 ([addrByte s.dev false, 0x18, 1] ++ [0])))⟩

/-- Refutes O60: the sequence number in force after CAL_COMMIT follows the upset word, not the byte that stands in memory. -/
theorem not_regionCalibrationAndPassThrough : ¬ Obligations.RegionCalibrationAndPassThrough := by
  unfold Obligations.RegionCalibrationAndPassThrough
  intro h
  obtain ⟨-, -, -, -, -, -, -, -, -, -, -, -, -, h, -⟩ := h
  have hs (m : Memory) : ((Config.upsetWord 0x28B00).toNat + 1) % 2 ^ 32 = (mword m 0x28B00 + 1) % 2 ^ 32 := by
    have hw : soundBlock 0x18 (commitWrite (upsetSeq m)) (upsetSeq m).dev = true := by simp [soundBlock, commitWrite]
    have hr : (upsetSeq m).dev.reload.st ≠ 1 := fun hc => nomatch hc
    obtain ⟨t, ht, -, -, -, -, hq, -⟩ := h (commitWrite (upsetSeq m)) (upsetSeq m) rfl rfl hw rfl rfl hr rfl rfl
    have hu : UpsetSeq (ack (upsetSeq m).dev) := ⟨rfl, rfl⟩
    have hc : exec (.calCommit (commitWrite (upsetSeq m))) (upsetSeq m) = done (calCommitCmd (commitWrite (upsetSeq m))) (upsetSeq m) := rfl
    have hb : calCommitCmd (commitWrite (upsetSeq m)) (upsetSeq m).dev = record 0x18 0 0 (calCommit (ack (upsetSeq m).dev)) :=
      blockWrite_committed rfl hw ⟨Nat.le_refl 1, Nat.le_refl 1⟩ (fun _ => rfl) rfl
    rw [hc, done] at ht
    rw [← Host.Outcome.next.inj ht, drive_memory, hb, record_memory, calCommit_seq hu rfl] at hq
    exact hq
  have h0 := hs []
  have h1 := hs [(0x28B00, 1)]
  rw [h0] at h1
  exact absurd h1 (by decide)

end Sys2Proof.Machine

/-! ## Which request an arbiter grants (01, The common arbiter) -/

namespace Sys2Proof.Machine

section Best

variable {α : Type} {R : α → α → Prop} {pick : α → α → α}

/-- Choosing the better of two, repeated over a list, ends at a member of the list that is at least as good as every other. -/
theorem foldl_best (hrefl : ∀ a, R a a) (htrans : ∀ a b c, R a b → R b c → R a c)
    (hpick : ∀ a b, (pick a b = a ∧ R a b) ∨ (pick a b = b ∧ R b a)) (l : List α) :
    ∀ u, l.foldl pick u ∈ u :: l ∧ ∀ x ∈ u :: l, R (l.foldl pick u) x := by
  induction l with
  | nil => exact fun u => ⟨List.mem_cons_self, fun x hx => by rw [List.mem_singleton.mp hx]; exact hrefl u⟩
  | cons b bs ih =>
    intro u
    obtain ⟨hmem, hbest⟩ := ih (pick u b)
    have hfirst : R (bs.foldl pick (pick u b)) (pick u b) := hbest _ List.mem_cons_self
    have hrest : ∀ x ∈ bs, R (bs.foldl pick (pick u b)) x := fun x hx => hbest x (List.mem_cons_of_mem _ hx)
    simp only [List.foldl_cons, List.mem_cons] at hmem ⊢
    rcases hpick u b with ⟨hp, hr⟩ | ⟨hp, hr⟩
    · rw [hp] at hmem hfirst hrest ⊢
      refine ⟨by tauto, ?_⟩
      rintro x (rfl | rfl | hx)
      · exact hfirst
      · exact htrans _ _ _ hfirst hr
      · exact hrest x hx
    · rw [hp] at hmem hfirst hrest ⊢
      refine ⟨by tauto, ?_⟩
      rintro x (rfl | rfl | hx)
      · exact htrans _ _ _ hfirst hr
      · exact hfirst
      · exact hrest x hx

end Best

/-- Not older than: the order in which an urgent request is chosen (R27). -/
def Oldest (r x : Nat × Nat) : Prop := x.2 < r.2 ∨ (x.2 = r.2 ∧ r.1 ≤ x.1)

/-- The order in which a request that is not urgent is chosen (R27). -/
def FirstRank (i : Nat) (r x : Nat × Nat) : Prop :=
  arbRank i r.1 < arbRank i x.1 ∨ (arbRank i r.1 = arbRank i x.1 ∧ r.1 ≤ x.1)

theorem olderOf_best (u : Nat × Nat) (us : List (Nat × Nat)) :
    us.foldl olderOf u ∈ u :: us ∧ ∀ x ∈ u :: us, Oldest (us.foldl olderOf u) x := by
  refine foldl_best (fun a => .inr ⟨rfl, Nat.le_refl _⟩) (fun a b c h h' => ?_) (fun a b => ?_) us u
  · unfold Oldest at *; omega
  · unfold olderOf Oldest
    split
    · exact .inr ⟨rfl, by omega⟩
    · exact .inl ⟨rfl, by omega⟩

theorem rankedOf_best (i : Nat) (u : Nat × Nat) (us : List (Nat × Nat)) :
    us.foldl (rankedOf i) u ∈ u :: us ∧ ∀ x ∈ u :: us, FirstRank i (us.foldl (rankedOf i) u) x := by
  refine foldl_best (fun a => .inr ⟨rfl, Nat.le_refl _⟩) (fun a b c h h' => ?_) (fun a b => ?_) us u
  · unfold FirstRank at *; omega
  · unfold rankedOf FirstRank
    split
    · exact .inr ⟨rfl, by omega⟩
    · exact .inl ⟨rfl, by omega⟩

theorem arbWinner_nil (i limit : Nat) : arbWinner i limit [] = none := rfl

/-- Where a request has reached the age limit, the oldest of those that have wins, and it is older than every other. -/
theorem arbWinner_urgent {i limit : Nat} {p : List (Nat × Nat)} (h : ∃ x ∈ p, limit ≤ x.2) :
    ∃ r ∈ p, arbWinner i limit p = some (r.1, true) ∧ limit ≤ r.2 ∧ ∀ x ∈ p, Oldest r x := by
  obtain ⟨y, hy, hold⟩ := h
  have hy' : y ∈ p.filter fun r => decide (limit ≤ r.2) := by simp [hy, hold]
  cases he : p.filter fun r => decide (limit ≤ r.2) with
  | nil => rw [he] at hy'; cases hy'
  | cons u us =>
    obtain ⟨hmem, hbest⟩ := olderOf_best u us
    rw [← he] at hmem hbest
    have hr := List.mem_filter.mp hmem
    have hlim : limit ≤ (us.foldl olderOf u).2 := by simpa using hr.2
    refine ⟨us.foldl olderOf u, hr.1, by simp [arbWinner, he], hlim, fun x hx => ?_⟩
    rcases Nat.lt_or_ge x.2 limit with hlt | hge
    · exact .inl (by omega)
    · exact hbest x (by simp [hx, hge])

/-- Where none has, the request of the first rank wins, of equal ones that of the lowest index. -/
theorem arbWinner_ranked {i limit : Nat} {p : List (Nat × Nat)} (hp : p ≠ []) (h : ∀ x ∈ p, x.2 < limit) :
    ∃ r ∈ p, arbWinner i limit p = some (r.1, false) ∧ ∀ x ∈ p, FirstRank i r x := by
  have he : p.filter (fun r => decide (limit ≤ r.2)) = [] := by
    simpa [List.filter_eq_nil_iff] using h
  cases p with
  | nil => exact absurd rfl hp
  | cons r rs =>
    obtain ⟨hmem, hbest⟩ := rankedOf_best i r rs
    exact ⟨_, hmem, by simp only [arbWinner, he], hbest⟩

theorem arbWinner_some {i limit : Nat} {p : List (Nat × Nat)} (hp : p ≠ []) :
    ∃ r ∈ p, ∃ u, arbWinner i limit p = some (r.1, u) := by
  by_cases h : ∃ x ∈ p, limit ≤ x.2
  · obtain ⟨r, hr, hw, -⟩ := arbWinner_urgent (i := i) h
    exact ⟨r, hr, true, hw⟩
  · obtain ⟨r, hr, hw, -⟩ := arbWinner_ranked (i := i) hp (by simpa using h)
    exact ⟨r, hr, false, hw⟩

theorem arbDecide_none {limit units i : Nat} {a : Arbiter} (h : units ≤ a.granted.length ∨ a.pending = []) :
    arbDecide limit units i a = a := by
  unfold arbDecide
  split
  · obtain h | h := h
    · omega
    · rw [h, arbWinner_nil]
  · rfl

/-- What stays pending when w is granted, one older (R29). -/
def leftPending (a : Arbiter) (w : Nat) : List (Nat × Nat) :=
  (a.pending.filter fun x => x.1 ≠ w).map fun x => (x.1, min (x.2 + 1) 63)

/-- A decision with a winner. -/
theorem arbDecide_some {limit units i w : Nat} {u : Bool} {a : Arbiter} (hu : a.granted.length < units)
    (hw : arbWinner i limit a.pending = some (w, u)) :
    arbDecide limit units i a =
      { pending := leftPending a w
        granted := a.granted ++ [w]
        urgent := if u then satInc a.urgent else a.urgent
        maxAge := BitVec.ofNat 6 ((leftPending a w).foldl (fun x r => max x r.2) (ageHeld a)) } := by
  rw [arbDecide, if_pos hu, hw]
  rfl

/-- The greatest of n and the ages of a list. -/
theorem foldl_max_age (l : List (Nat × Nat)) : ∀ n,
    n ≤ l.foldl (fun x r => max x r.2) n ∧ (∀ x ∈ l, x.2 ≤ l.foldl (fun x r => max x r.2) n) ∧
      (l.foldl (fun x r => max x r.2) n = n ∨ ∃ x ∈ l, x.2 = l.foldl (fun x r => max x r.2) n) := by
  induction l with
  | nil => exact fun n => ⟨Nat.le_refl _, fun _ hx => (List.not_mem_nil hx).elim, .inl rfl⟩
  | cons b bs ih =>
    intro n
    obtain ⟨hle, hall, hone⟩ := ih (max n b.2)
    simp only [List.foldl_cons, List.mem_cons, forall_eq_or_imp, exists_eq_or_imp]
    refine ⟨by omega, ⟨by omega, hall⟩, ?_⟩
    rcases hone with h | h
    · rcases Nat.le_total n b.2 with hnb | hnb
      · exact .inr (.inl (by rw [h]; omega))
      · exact .inl (by rw [h]; omega)
    · exact .inr (.inr h)

/-- Ages of at most 63 fit the status word (R33). -/
theorem foldl_max_age_lt {l : List (Nat × Nat)} {n : Nat} (hn : n ≤ 63) (hl : ∀ x ∈ l, x.2 ≤ 63) :
    l.foldl (fun x r => max x r.2) n ≤ 63 := by
  obtain ⟨-, -, h | ⟨x, hx, h⟩⟩ := foldl_max_age l n
  · omega
  · have := hl x hx; omega

theorem ageHeld_le {a : Arbiter} (h : ∀ x ∈ a.pending, x.2 ≤ 63) : ageHeld a ≤ 63 :=
  foldl_max_age_lt (by have := a.maxAge.isLt; omega) h

theorem leftPending_le {a : Arbiter} {w : Nat} : ∀ x ∈ leftPending a w, x.2 ≤ 63 := by
  intro x hx
  obtain ⟨y, -, rfl⟩ := List.mem_map.mp hx
  exact Nat.min_le_right _ _

theorem arbDecide_maxAge {limit units i : Nat} {a : Arbiter} (hu : a.granted.length < units) (hp : a.pending ≠ [])
    (hage : ∀ x ∈ a.pending, x.2 ≤ 63) :
    a.maxAge.toNat ≤ (arbDecide limit units i a).maxAge.toNat ∧ (∀ x ∈ a.pending, x.2 ≤ (arbDecide limit units i a).maxAge.toNat) ∧
      (∀ x ∈ (arbDecide limit units i a).pending, x.2 ≤ (arbDecide limit units i a).maxAge.toNat) ∧
      ((arbDecide limit units i a).maxAge = a.maxAge ∨ (∃ x ∈ a.pending, x.2 = (arbDecide limit units i a).maxAge.toNat) ∨
        ∃ x ∈ (arbDecide limit units i a).pending, x.2 = (arbDecide limit units i a).maxAge.toNat) := by
  obtain ⟨r, -, u, hw⟩ := arbWinner_some (i := i) (limit := limit) hp
  rw [arbDecide_some hu hw]
  obtain ⟨hle, hall, hone⟩ := foldl_max_age a.pending a.maxAge.toNat
  obtain ⟨hle', hall', hone'⟩ := foldl_max_age (leftPending a r.1) (ageHeld a)
  have hlt := foldl_max_age_lt (ageHeld_le hage) (leftPending_le (a := a) (w := r.1))
  change a.maxAge.toNat ≤ ageHeld a at hle
  change ∀ x ∈ a.pending, x.2 ≤ ageHeld a at hall
  change ageHeld a = _ ∨ ∃ x ∈ a.pending, x.2 = ageHeld a at hone
  have hval : (BitVec.ofNat 6 ((leftPending a r.1).foldl (fun x r => max x r.2) (ageHeld a))).toNat =
      (leftPending a r.1).foldl (fun x r => max x r.2) (ageHeld a) := by
    rw [BitVec.toNat_ofNat]; omega
  simp only [hval]
  refine ⟨by omega, fun x hx => Nat.le_trans (hall x hx) hle', hall', ?_⟩
  rcases hone' with h' | h'
  · rw [h']
    rcases hone with h | h
    · exact .inl (by rw [h, BitVec.ofNat_toNat, BitVec.setWidth_eq])
    · exact .inr (.inl h)
  · exact .inr (.inr h')

/-- A withdrawal leaves the age that the status word shows (R33). -/
theorem ageHeld_withdrawn {a : Arbiter} (h : ∀ x ∈ a.pending, x.2 ≤ 63) (idx : Nat) :
    ageHeld { a with maxAge := BitVec.ofNat 6 (ageHeld a), pending := a.pending.filter (·.1 ≠ idx) } = ageHeld a := by
  have hheld : (BitVec.ofNat 6 (ageHeld a)).toNat = ageHeld a := by
    have := ageHeld_le h
    rw [BitVec.toNat_ofNat]; omega
  have hall := (foldl_max_age a.pending a.maxAge.toNat).2.1
  change (a.pending.filter (·.1 ≠ idx)).foldl (fun x r => max x r.2) (BitVec.ofNat 6 (ageHeld a)).toNat = ageHeld a
  rw [hheld]
  obtain ⟨hle, -, heq | ⟨x, hx, heq⟩⟩ := foldl_max_age (a.pending.filter (·.1 ≠ idx)) (ageHeld a)
  · exact heq
  · have hx' : x.2 ≤ ageHeld a := hall x (List.mem_filter.mp hx).1
    omega

theorem arbWithdraw_arb (i : Fin 99) (idx : Nat) (d : Device) : (arbWithdraw i idx d).arbs[i] =
    { d.arbs[i] with maxAge := BitVec.ofNat 6 (ageHeld d.arbs[i]), pending := (d.arbs[i]).pending.filter (·.1 ≠ idx) } := by
  rw [arbWithdraw, updArb_arbs, upd_same]

theorem arbRequest_arb (i : Fin 99) (idx : Nat) (d : Device) : (arbRequest i idx d).arbs[i] =
    if (d.arbs[i]).pending.any (·.1 = idx) then d.arbs[i] else { d.arbs[i] with pending := (d.arbs[i]).pending ++ [(idx, 0)] } := by
  rw [arbRequest, updArb_arbs, upd_same]

theorem arbWithdraw_ageLimit (i : Fin 99) (idx : Nat) (d : Device) (k : Nat) : ageLimit (arbWithdraw i idx d) k = ageLimit d k := rfl

theorem arbWord_withdraw {i : Fin 99} {idx : Nat} {d : Device} (h : ∀ x ∈ (d.arbs[i]).pending, x.2 ≤ 63) :
    arbWord (arbWithdraw i idx d) i = arbWord d i := by
  simp only [arbWord, arbWithdraw_arb, arbWithdraw_ageLimit, ageHeld_withdrawn h]

/-- Settles O50: the winner is the best by age where one is urgent and by rank where none is, and the status word keeps the greatest age. -/
theorem arbiterChoice : Obligations.ArbiterChoice := by
  unfold Obligations.ArbiterChoice
  refine ⟨fun limit units i a h => arbDecide_none h, fun limit units i a hu hp => ?_,
    fun limit units i a hu hp hage => arbDecide_maxAge hu hp hage, fun i idx d h => ⟨arbWord_withdraw h, fun x hx => ?_⟩,
    fun i idx d => ?_⟩
  · by_cases h : ∃ x ∈ a.pending, limit ≤ x.2
    · obtain ⟨r, hr, hw, hlim, hbest⟩ := arbWinner_urgent (i := i) h
      refine ⟨r, hr, ?_⟩
      rw [arbDecide_some hu hw]
      refine ⟨rfl, rfl, fun _ => ⟨hlim, hbest, rfl⟩, fun hno => ?_⟩
      have := hno r hr
      omega
    · have hno : ∀ x ∈ a.pending, x.2 < limit := by simpa using h
      obtain ⟨r, hr, hw, hbest⟩ := arbWinner_ranked (i := i) hp hno
      refine ⟨r, hr, ?_⟩
      rw [arbDecide_some hu hw]
      exact ⟨rfl, rfl, fun hyes => absurd hyes h, fun _ => ⟨hbest, rfl⟩⟩
  · rw [arbWithdraw_arb] at hx
    simpa using (List.mem_filter.mp hx).2
  · rw [arbRequest_arb]
    split <;> rfl

end Sys2Proof.Machine

/-! ## The polls of the time source and the controllers of both ports (13, The leader as controller, Bus features) -/

namespace Sys2Proof.Machine

/-! ### Requests of an arbiter -/

theorem arbRequest_pending (i : Fin 99) (idx : Nat) (d : Device) : ((arbRequest i idx d).arbs[i]).pending.any (·.1 = idx) = true := by
  rw [arbRequest_arb]
  split
  · assumption
  · simp

theorem arbRequest_pending_mono (i : Fin 99) (idx k : Nat) (d : Device) (h : (d.arbs[i]).pending.any (·.1 = k) = true) :
    ((arbRequest i idx d).arbs[i]).pending.any (·.1 = k) = true := by
  rw [arbRequest_arb]
  split
  · exact h
  · simp only [List.any_append, h, Bool.true_or]


/-! ### A round of polls -/

/-- The time source requests a member, not itself (R518). -/
def pollAsk (me id : Nat) (d : Device) : Device := if bitOf d.cvn.members.toNat id ∧ id ≠ me then arbRequest sport (1 + id) d else d

theorem pollAsk_cases (me id : Nat) (d : Device) : pollAsk me id d = d ∨ pollAsk me id d = arbRequest sport (1 + id) d := by
  unfold pollAsk
  split
  · exact .inr rfl
  · exact .inl rfl

/-- What a list of such requests leaves, and what it asks for. -/
theorem forEach_pollAsk (me : Nat) (l : List Nat) : ∀ d : Device,
    (forEach l (pollAsk me) d).sup = d.sup ∧ (forEach l (pollAsk me) d).clk = d.clk ∧
      (∀ k, (d.arbs[sport]).pending.any (·.1 = k) = true → ((forEach l (pollAsk me) d).arbs[sport]).pending.any (·.1 = k) = true) ∧
      ∀ id ∈ l, bitOf d.cvn.members.toNat id = true → id ≠ me →
        ((forEach l (pollAsk me) d).arbs[sport]).pending.any (·.1 = 1 + id) = true := by
  induction l with
  | nil => exact fun d => ⟨rfl, rfl, fun _ h => h, fun _ h => (List.not_mem_nil h).elim⟩
  | cons a l ih =>
    intro d
    obtain ⟨hsup, hclk, hmono, hask⟩ := ih (pollAsk me a d)
    have hone : (pollAsk me a d).sup = d.sup ∧ (pollAsk me a d).clk = d.clk ∧ (pollAsk me a d).cvn = d.cvn ∧
        ∀ k, (d.arbs[sport]).pending.any (·.1 = k) = true → ((pollAsk me a d).arbs[sport]).pending.any (·.1 = k) = true := by
      rcases pollAsk_cases me a d with h | h
      · rw [h]; exact ⟨rfl, rfl, rfl, fun _ h => h⟩
      · rw [h]; exact ⟨rfl, rfl, rfl, fun k hk => arbRequest_pending_mono _ _ _ _ hk⟩
    obtain ⟨hsup', hclk', hcvn', hmono'⟩ := hone
    refine ⟨hsup.trans hsup', hclk.trans hclk', fun k hk => hmono k (hmono' k hk), fun id hid hbit hne => ?_⟩
    rcases List.mem_cons.mp hid with rfl | hid
    · refine hmono _ ?_
      rw [pollAsk, if_pos ⟨hbit, hne⟩]
      exact arbRequest_pending ..
    · exact hask id hid (by rw [hcvn']; exact hbit) hne

@[simp] theorem setEntry_sup (id : Nat) (f : PollEntry → PollEntry) (d : Device) :
    (setEntry id f d).sup = { d.sup with entries := upd d.sup.entries (Fin.ofNat 16 id) f } := rfl

theorem ownId_lt (d : Device) : ownId d < 16 := d.start.straps.cvnId.isLt

/-- The next multiple of a period lies at most one period ahead. -/
theorem nextOf_bounds {p : Nat} (hp : 0 < p) (taken : Option Nat) (t : Nat) :
    t ≤ nextOf p taken t ∧ nextOf p taken t % p = 0 ∧ nextOf p taken t ≤ t + p := by
  unfold nextOf
  have hdiv := Nat.div_add_mod t p
  have hlt := Nat.mod_lt t hp
  have hmul : (t / p + 1) * p = p * (t / p) + p := by ring
  split
  next h => exact ⟨Nat.le_refl _, h.1, by omega⟩
  next => exact ⟨by omega, Nat.mul_mod_left _ _, by omega⟩

theorem sec_pos : 0 < sec := by decide

theorem pollRound_source {d : Device} (hs : d.cvn.source = true) (hr : d.start.st = .run) :
    (pollRound d).clk.loc = periodAt sec d.sup.roundAt d ∧ (pollRound d).sup.roundAt = some (pollRound d).clk.loc ∧
      (pollRound d).sup.pollRounds = d.sup.pollRounds + 1 ∧ ((pollRound d).sup.entries[Fin.ofNat 16 (ownId d)]).status = 4 ∧
      ∀ id : Fin 16, id.1 ≠ ownId d → (pollRound d).sup.entries[id] = d.sup.entries[id] ∧
        (bitOf d.cvn.members.toNat id.1 = true → ((pollRound d).arbs[sport]).pending.any (·.1 = 1 + id.1) = true) := by
  have hle := (nextOf_bounds sec_pos d.sup.roundAt d.clk.loc).1
  have hloc : max d.clk.loc (periodAt sec d.sup.roundAt d) = periodAt sec d.sup.roundAt d := Nat.max_eq_right hle
  generalize hw : waitLoc (periodAt sec d.sup.roundAt d) d = w
  have hwl : w.clk.loc = periodAt sec d.sup.roundAt d := by rw [← hw, waitLoc_loc]; exact hloc
  have hwsup : w.sup = d.sup := by rw [← hw, waitLoc_sup]
  have hwcvn : w.cvn = d.cvn := by rw [← hw, waitLoc_cvn]
  have hwstart : w.start = d.start := by rw [← hw, waitLoc_start]
  have hc : controls (w.updSup fun s => { s with roundAt := some w.loc }) = true := by
    change (w.cvn.source && decide (w.start.st = .run)) = true
    rw [hwcvn, hwstart, hs, hr]
    decide
  let e : Device := (w.updSup fun s => { s with roundAt := some w.loc }).updSup fun s => { s with pollRounds := s.pollRounds + 1 }
  have hown : ownId w = ownId d := by unfold ownId; rw [hwstart]
  have hround : pollRound d = forEach (List.range 16) (pollAsk (ownId w)) (setEntry (ownId w) (fun _ => ⟨4, some e.up, summaryBytes e⟩) e) := by
    unfold pollRound
    rw [hw]
    exact if_pos hc
  obtain ⟨hsup, hclk, -, hask⟩ := forEach_pollAsk (ownId w) (List.range 16) (setEntry (ownId w) (fun _ => ⟨4, some e.up, summaryBytes e⟩) e)
  rw [← hround] at hsup hclk hask
  rw [hown] at hsup hask
  refine ⟨by rw [hclk]; exact hwl, by rw [hsup, hclk]; rfl, by rw [hsup, ← hwsup]; rfl, ?_, fun id hid => ⟨?_, fun hbit => ?_⟩⟩
  · rw [hsup, setEntry_sup, upd_same]
  · have hne : id ≠ Fin.ofNat 16 (ownId d) := fun h => hid (by rw [h]; exact Nat.mod_eq_of_lt (ownId_lt d))
    rw [hsup, setEntry_sup, upd_other _ _ _ _ hne]
    rw [← hwsup]
    rfl
  · refine hask id.1 (List.mem_range.mpr id.2) ?_ hid
    change bitOf w.cvn.members.toNat id.1 = true
    rw [hwcvn]
    exact hbit

theorem pollRound_elsewhere {d : Device} (h : d.cvn.source = false ∨ d.start.st ≠ .run) :
    (pollRound d).clk.loc = periodAt sec d.sup.roundAt d ∧ (pollRound d).sup = { d.sup with roundAt := some (pollRound d).clk.loc } ∧
      (pollRound d).arbs = d.arbs := by
  have hle := (nextOf_bounds sec_pos d.sup.roundAt d.clk.loc).1
  generalize hw : waitLoc (periodAt sec d.sup.roundAt d) d = w
  have hwl : w.clk.loc = periodAt sec d.sup.roundAt d := by rw [← hw, waitLoc_loc]; exact Nat.max_eq_right hle
  have hc : ¬ controls (w.updSup fun s => { s with roundAt := some w.loc }) = true := by
    change ¬ (w.cvn.source && decide (w.start.st = .run)) = true
    rw [← hw, waitLoc_cvn, waitLoc_start]
    rcases h with h | h <;> simp [h]
  have hround : pollRound d = w.updSup fun s => { s with roundAt := some w.loc } := by
    unfold pollRound
    rw [hw]
    exact if_neg hc
  rw [hround]
  refine ⟨hwl, ?_, by rw [← waitLoc_arbs (periodAt sec d.sup.roundAt d) d, hw]; rfl⟩
  have hwsup : w.sup = d.sup := by rw [← hw, waitLoc_sup]
  change { w.sup with roundAt := some w.loc } = { d.sup with roundAt := some w.clk.loc }
  rw [hwsup]
  rfl

/-! ### The end of a poll -/

/-- The words of the port when a transaction is over. -/
def supOver (s : SupSt) : SupSt := { s with poll := none, polling := false, backoff := false, lostRun := 0 }

theorem pollOver_sup {d : Device} {w : Nat} (h : d.sup.poll = some w) : (pollOver d).sup = supOver d.sup := by
  simp only [pollOver, h]
  rfl

theorem pollDone_polled {d : Device} {w : Nat} (o : PollOutcome) (h : d.sup.poll = some w) (hp : d.sup.polling = true) :
    pollDone o d = match o with
      | .fresh bs => pollFresh w bs.toList (pollOver d)
      | .noAck => pollFailed w 1 (pollOver d)
      | .pecWrong => pollFailed w 2 (pollOver d)
      | .answered a => if w = 0 then alertAnswered a (pollOver d) else pollOver d := by
  rw [pollDone, h]
  exact if_pos hp

theorem pollDone_idle {d : Device} (o : PollOutcome) (h : d.sup.poll = none ∨ d.sup.polling = false) : pollDone o d = d := by
  unfold pollDone
  split
  · rfl
  next w hw =>
    obtain h | h := h
    · rw [hw] at h; cases h
    · exact if_neg (by rw [h]; exact Bool.false_ne_true)

theorem pollFailed_sup (id : Fin 16) (st : Byte) (d : Device) : (pollFailed (1 + id.1) st d).sup =
    { d.sup with pollFail := satInc d.sup.pollFail, entries := upd d.sup.entries id fun e => { e with status := st } } := by
  rw [pollFailed, if_pos (Nat.le_add_right 1 id.1), setEntry_sup, Nat.add_sub_cancel_left]
  simp only [Fin.ofNat_val_eq_self]
  rfl

theorem pollFresh_sup (id : Fin 16) (bs : List Byte) (d : Device) :
    (pollFresh (1 + id.1) bs d).sup.poll = d.sup.poll ∧ (pollFresh (1 + id.1) bs d).sup.polling = d.sup.polling ∧
      (pollFresh (1 + id.1) bs d).sup.entries = upd d.sup.entries id (fun _ => ⟨0, some d.up, bs⟩) ∧
      (pollFresh (1 + id.1) bs d).sup.alert =
        (if alertBit bs && !alertBit (d.sup.entries[id]).bytes then d.sup.alert ||| 4 else d.sup.alert) := by
  have hid : Fin.ofNat 16 (1 + id.1 - 1) = id := by rw [Nat.add_sub_cancel_left]; exact Fin.ofNat_val_eq_self id
  unfold pollFresh
  simp only [if_pos (Nat.le_add_right 1 id.1), hid]
  by_cases h : alertBit bs = true ∧ alertBit (d.sup.entries[id]).bytes = false
  · have hb : (alertBit bs && !alertBit (d.sup.entries[id]).bytes) = true := by
      simp only [Bool.and_eq_true, Bool.not_eq_true']
      exact h
    simp only [if_pos h, hb, if_true]
    exact ⟨rfl, rfl, congrArg (fun k => upd d.sup.entries k fun _ => (⟨0, some d.up, bs⟩ : PollEntry)) hid, rfl⟩
  · have hb : (alertBit bs && !alertBit (d.sup.entries[id]).bytes) = false := by
      simpa using h
    simp only [if_neg h, hb]
    exact ⟨rfl, rfl, congrArg (fun k => upd d.sup.entries k fun _ => (⟨0, some d.up, bs⟩ : PollEntry)) hid, rfl⟩

/-! ### Arbitration and stuck busses -/

/-- The port after a lost arbitration (R521 to R523). -/
def supLost (mine : Bool) (s : SupSt) : SupSt := { s with
  arbLost := satInc s.arbLost, lostRun := s.lostRun + 1, polling := false, backoff := true, freeAt := none, serving := mine,
  acked := if mine then true else s.acked }

/-- The address that was read is that of this device, and it answers it (R523). -/
def lostToMe (addrSeen : Option Byte) (d : Device) : Bool :=
  match addrSeen with | some a => decide (a.toNat / 2 = 0x40 + ownId d) && targetUp d | none => false

theorem lostToMe_iff (seen : Option Byte) (d : Device) :
    lostToMe seen d = true ↔ targetUp d = true ∧ ∃ a, seen = some a ∧ a.toNat / 2 = 0x40 + ownId d := by
  cases seen with
  | none => simp [lostToMe]
  | some a =>
    simp only [lostToMe, Bool.and_eq_true, decide_eq_true_eq, Option.some.injEq, exists_eq_left']
    exact and_comm

theorem arbitrationLost_eq {d : Device} {w : Nat} (seen : Option Byte) (h : d.sup.poll = some w) (hp : d.sup.polling = true) :
    arbitrationLost seen d = if 8 ≤ d.sup.lostRun + 1 then pollFailed w 5 (pollOver (d.updSup (supLost (lostToMe seen d))))
      else d.updSup (supLost (lostToMe seen d)) := by
  unfold arbitrationLost
  simp only [h, if_pos hp]
  rfl

theorem if_cases {α : Type} {p : α → Prop} {c : Prop} [Decidable c] {x y : α} (hx : p x) (hy : p y) : p (if c then x else y) := by
  split
  · exact hx
  · exact hy

/-- The transaction in progress on the boot port. -/
def KeepsCur (d e : Device) : Prop := e.bootp.cur = d.bootp.cur

theorem KeepsCur.after {d e f : Device} (k : KeepsCur e f) (h : KeepsCur d e) : KeepsCur d f := Eq.trans k h

theorem KeepsCur.of_keeps {S : List Part} {d e : Device} (k : Keeps S d e) (h : S.contains .bootp = false := by rfl) : KeepsCur d e :=
  congrArg BootPort.cur (k.parts .bootp h)

theorem bootNew_cur (o : Fin 3) (tx : BootTx) (d : Device) : KeepsCur d (bootNew o tx d) := rfl

theorem enterBuild_cur (n : Nat) (d : Device) : KeepsCur d (enterBuild n d) := .of_keeps (enterBuild_keeps n d)

theorem imgEnd_cur (code : Nat) (r : ImgRead) (d : Device) : KeepsCur d (imgEnd code r d) := by
  unfold imgEnd
  split
  · rfl
  · split
    · split
      · refine (enterBuild_cur ..).after ((KeepsCur.of_keeps (logEvent_keeps ..)).after rfl)
      · exact (KeepsCur.of_keeps (logEvent_keeps ..)).after rfl
    · split
      · exact (enterBuild_cur ..).after rfl
      · rfl

theorem commitImage_cur (img : Bool) (v : BitVec 2) (d : Device) : KeepsCur d (commitImage img v d) := by
  cases img <;> rfl

theorem ownerFail_cur (o : Fin 3) (tx : BootTx) (nack : Bool) (d : Device) : KeepsCur d (ownerFail o tx nack d) := by
  unfold ownerFail
  generalize (match tx with | .read _ off _ => off | .pageWrite _ off _ => off | .poll _ off => off) = off
  refine if_cases (p := KeepsCur d) ?_ (if_cases (p := KeepsCur d) ?_ rfl)
  · cases d.loader.rd with
    | none => rfl
    | some r => exact imgEnd_cur ..
  · cases d.bootp.commit with
    | none => rfl
    | some c => exact commitImage_cur ..

theorem bootFailed_cur (o : Fin 3) (tx : BootTx) (nack : Bool) (d : Device) : KeepsCur d (bootFailed o tx nack d) :=
  if_cases (p := KeepsCur d) rfl (ownerFail_cur ..)

theorem bootStuck_cur (d : Device) : (bootStuck d).bootp.cur = none := by
  unfold bootStuck
  split
  · exact bootFailed_cur ..
  next h => exact h

theorem bootStuck_timeouts (d : Device) : (bootStuck d).sup.timeouts = d.sup.timeouts :=
  (congrArg SupSt.timeouts ((bootStuck_keeps d).parts .sup rfl) : (bootStuck d).sup.rest.timeouts = d.sup.rest.timeouts)

theorem busStuck_controller {p : Port} (low : Bool) {d : Device} (h : isController p d = true) :
    busStuck p low d =
      if low then (if p = .boot then bootStuck (stuckCount d) else pollStuck (stuckCount d))
      else (if p = .boot then busRecovery d else d.updSup fun s => { s with recovered := s.recovered + 1 }) := by
  unfold busStuck
  rw [if_neg (fun hf => Bool.noConfusion (h.symm.trans hf))]
  cases p <;> cases low <;> rfl

theorem pollStuck_sup {d : Device} {id : Fin 16} (h : d.sup.poll = some (1 + id.1)) : (pollStuck d).sup =
    { supOver d.sup with pollFail := satInc d.sup.pollFail, entries := upd d.sup.entries id fun e => { e with status := 1 } } := by
  simp only [pollStuck, h]
  rw [pollFailed_sup, pollOver_sup h]
  rfl

theorem backoffEnd_free {d : Device} (h : d.sup.freeAt = none) : backoffEnd d = d := by
  simp only [backoffEnd, h]

theorem backoffEnd_due {d : Device} {w u : Nat} (hp : d.sup.poll = some w) (hb : d.sup.backoff = true) (hf : d.sup.freeAt = some u) :
    backoffEnd d = (waitUp (u + ownId d * (50 * us)) d).updSup fun s => { s with backoff := false, polling := true, freeAt := none } := by
  simp only [backoffEnd, hf]
  exact if_pos ⟨hb, by rw [hp]; rfl⟩

theorem isController_boot {d : Device} (h1 : d.start.st ≠ .reset) (h2 : d.start.st ≠ .init) : isController .boot d = true :=
  decide_eq_true ⟨h1, h2⟩

/-- A command of the device answers the state that its operation gives, with the pins driven. -/
theorem done_next (f : Device → Device) (s : State) : ∃ t, done f s = .next t ∧ t.dev = drive (f s.dev) := ⟨_, rfl, rfl⟩

/-- The port after a command that lets no time pass. -/
theorem done_sup (f : Device → Device) (s : State) : ∃ t, done f s = .next t ∧ t.dev = drive (f s.dev) ∧ t.dev.sup = (f s.dev).sup :=
  ⟨_, rfl, rfl, rfl⟩

/-- Settles O57: a round requests every member, each outcome writes its own entry, and a lost arbitration or a stuck bus moves the words of its port. -/
theorem polls : Obligations.Polls := by
  unfold Obligations.Polls
  refine ⟨fun s hc hs hr => ⟨_, execPollRoundStart_calm s hc, pollRound_source hs hr⟩,
    fun s hc h => ⟨_, execPollRoundStart_calm s hc, pollRound_elsewhere h⟩,
    fun taken d => nextOf_bounds sec_pos taken d.clk.loc, fun id bs s h hp => ?_, fun id s h hp => ⟨?_, ?_⟩, fun o s h => ?_, fun s hs hr ha => ?_,
    fun w seen s h hp hl => ?_, fun id seen s h hp hl => ?_, fun w u s hc h hb hf => ?_, fun s hc hf => ?_, fun id s h => ?_, fun s h => ?_,
    fun low s hc hp => ?_, fun s h1 h2 => ?_, fun s h1 h2 => ?_, fun w s h hb => ?_, fun w s h hb => ?_, fun x s h => ?_⟩
  · obtain ⟨hpoll, hpolling, hent, halert⟩ := pollFresh_sup id bs.toList (pollOver s.dev)
    rw [pollOver_sup h] at hpoll hpolling hent halert
    obtain ⟨t, ht, -, hsup⟩ := done_sup (pollDone (.fresh bs)) s
    rw [pollDone_polled _ h hp] at hsup
    refine ⟨t, ht, ?_⟩
    rw [hsup]
    refine ⟨hpoll, hpolling, ?_, halert⟩
    rw [hent, upd_same, Device.up, (pollOver_keeps s.dev).parts .clk rfl]
  · obtain ⟨t, ht, -, hsup⟩ := done_sup (pollDone .noAck) s
    rw [pollDone_polled _ h hp] at hsup
    refine ⟨t, ht, ?_⟩
    rw [hsup, pollFailed_sup, pollOver_sup h, upd_same]
    exact ⟨rfl, rfl, rfl, rfl⟩
  · obtain ⟨t, ht, -, hsup⟩ := done_sup (pollDone .pecWrong) s
    rw [pollDone_polled _ h hp] at hsup
    refine ⟨t, ht, ?_⟩
    rw [hsup, pollFailed_sup, pollOver_sup h, upd_same]
    exact ⟨rfl, rfl, rfl⟩
  · exact ⟨_, rfl, congrArg drive (pollDone_idle o h)⟩
  · have hc : controls s.dev = true ∧ s.dev.pins.alertLow = false := ⟨by rw [controls, hs, hr]; rfl, ha⟩
    obtain ⟨t, ht, hd, hsup⟩ := done_sup alertLine s
    rw [alertLine, if_pos hc] at hd hsup
    refine ⟨t, ht, ?_, hsup⟩
    rw [hd, drive_arbs]
    exact arbRequest_pending ..
  · obtain ⟨t, ht, -, hsup⟩ := done_sup (arbitrationLost seen) s
    rw [arbitrationLost_eq seen h hp, if_neg (by omega)] at hsup
    refine ⟨t, ht, ?_⟩
    rw [hsup]
    exact ⟨rfl, rfl, rfl, rfl, h, rfl, lostToMe_iff ..⟩
  · obtain ⟨t, ht, -, hsup⟩ := done_sup (arbitrationLost seen) s
    rw [arbitrationLost_eq seen h hp, if_pos (by omega), pollFailed_sup, pollOver_sup (d := s.dev.updSup (supLost (lostToMe seen s.dev))) h] at hsup
    refine ⟨t, ht, ?_⟩
    rw [hsup, upd_same]
    exact ⟨rfl, rfl, rfl, rfl⟩
  · obtain ⟨t, ht, hd⟩ := done_next backoffEnd s
    rw [backoffEnd_due h hb hf] at hd
    refine ⟨t, (execArbitrationBackoffEnd_calm s hc).trans ht, ?_⟩
    rw [hd, drive_clk, drive_sup]
    exact ⟨waitUp_up .., rfl, rfl, h⟩
  · exact ⟨_, execArbitrationBackoffEnd_calm s hc, congrArg drive (backoffEnd_free hf)⟩
  · obtain ⟨t, ht, -, hsup⟩ := done_sup (busStuck .supervisory true) s
    have hc : isController .supervisory s.dev = true := by simp only [isController, h, Option.isSome_some, Bool.or_true]
    rw [busStuck_controller true hc, if_pos rfl, if_neg (fun h => nomatch h), pollStuck_sup (d := stuckCount s.dev) h] at hsup
    refine ⟨t, ht, ?_⟩
    rw [hsup, upd_same]
    exact ⟨rfl, rfl, rfl⟩
  · have hc : isController .supervisory s.dev = true := by
      simp only [isController, Bool.or_eq_true]
      exact h
    exact ⟨_, rfl, congrArg drive (busStuck_controller false hc)⟩
  · have hn : isController .supervisory s.dev = false := by simp only [isController, hc, hp, Option.isSome_none, Bool.or_false]
    exact ⟨_, rfl, congrArg drive (if_pos hn)⟩
  · exact ⟨_, rfl, congrArg drive (busStuck_controller false (isController_boot h1 h2))⟩
  · obtain ⟨t, ht, hd, hsup⟩ := done_sup (busStuck .boot true) s
    rw [busStuck_controller true (isController_boot h1 h2), if_pos rfl, if_pos rfl] at hd hsup
    refine ⟨t, ht, ?_, ?_⟩
    · rw [hsup, bootStuck_timeouts]
      rfl
    · rw [hd, drive_bootp]
      exact bootStuck_cur _
  · obtain ⟨t, ht, -, hsup⟩ := done_sup (busFree .supervisory) s
    refine ⟨t, ht, ?_⟩
    rw [hsup]
    simp only [busFree, updSup_sup, h, hb, Option.isSome_some, Bool.not_false, Bool.and_true, Bool.or_true, and_self]
  · obtain ⟨t, ht, -, hsup⟩ := done_sup (busFree .supervisory) s
    refine ⟨t, ht, ?_⟩
    rw [hsup]
    simp only [busFree, updSup_sup, h, hb, Option.isSome_some, Bool.not_true, Bool.and_false, Bool.or_false, and_self, if_true, Device.up]
  · obtain ⟨t, ht, hd⟩ := done_next (busFree .boot) s
    refine ⟨t, ht, ?_⟩
    rw [hd, drive_bootp]
    simp only [busFree, bootBusFree, h]
    exact ⟨rfl, h⟩

end Sys2Proof.Machine

/-! ## What a raise and a decoded codeword do to the arbiters -/

namespace Sys2Proof.Machine

/-- Of the arbiters only the memory write port is asked, by requesters of l: its grants stand, and so does what already waits there. -/
structure AsksPort (l : List Nat) (d e : Device) : Prop where
  others : ∀ i, i ≠ wport → e.arbs[i] = d.arbs[i]
  granted : (e.arbs[wport]).granted = (d.arbs[wport]).granted
  waits : ∀ k, (d.arbs[wport]).pending.any (·.1 = k) = true → (e.arbs[wport]).pending.any (·.1 = k) = true
  asks : ∀ k, k ∉ l → (e.arbs[wport]).pending.any (·.1 = k) = (d.arbs[wport]).pending.any (·.1 = k)

namespace AsksPort

variable {l m : List Nat} {d e f : Device}

theorem of_eq (h : e.arbs = d.arbs) : AsksPort l d e := by
  constructor <;> simp only [h, implies_true, imp_self]

theorem refl (l : List Nat) (d : Device) : AsksPort l d d := of_eq rfl

theorem of_keeps {S : List Part} (k : Keeps S d e) (h : S.contains .arbs = false := by rfl) : AsksPort l d e :=
  of_eq (k.parts .arbs h)

theorem after (k : AsksPort l e f) (h : AsksPort l d e) : AsksPort l d f :=
  ⟨fun i hi => (k.others i hi).trans (h.others i hi), k.granted.trans h.granted, fun j hj => k.waits j (h.waits j hj),
    fun j hj => (k.asks j hj).trans (h.asks j hj)⟩

theorem mono (h : AsksPort l d e) (hlm : ∀ k ∈ l, k ∈ m) : AsksPort m d e :=
  ⟨h.others, h.granted, h.waits, fun k hk => h.asks k fun hl => hk (hlm k hl)⟩

theorem request {k : Nat} (hk : k ∈ l) (d : Device) : AsksPort l d (arbRequest wport k d) := by
  refine ⟨fun i hi => ?_, ?_, fun j hj => arbRequest_pending_mono _ _ _ _ hj, fun j hj => ?_⟩
  · rw [arbRequest, updArb_arbs, upd_other _ _ _ _ hi]
  · rw [arbRequest_arb]
    split <;> rfl
  · have hne : k ≠ j := fun h => hj (h ▸ hk)
    rw [arbRequest_arb]
    split
    · rfl
    · simp [hne]

theorem forEach {α : Type} {g : α → Device → Device} (hg : ∀ a d, AsksPort l d (g a d)) (xs : List α) :
    ∀ d, AsksPort l d (Machine.forEach xs g d) := by
  induction xs with
  | nil => exact refl l
  | cons a xs ih => exact fun d => (ih (g a d)).after (hg a d)

end AsksPort

section
variable (d : Device)

theorem logQueue_asks (kind id : Nat) (r : List Byte) : AsksPort [2] d (logQueue kind id r d) :=
  if_cases (p := AsksPort [2] d) ((AsksPort.request (by decide) _).after (.of_eq rfl)) (.of_eq rfl)

theorem logPush_asks (kind sev id w0 w1 w2 : Nat) : AsksPort [2] d (logPush kind sev id w0 w1 w2 d) := logQueue_asks ..

theorem logEvent_asks (code w0 w1 w2 : Nat) : AsksPort [2] d (logEvent code w0 w1 w2 d) := logPush_asks ..

theorem fiEvent_asks : AsksPort [2] d (fiEvent d) := logEvent_asks ..

theorem secTurn_asks (i : Fsrc) : AsksPort [2] d (secTurn i d) :=
  if_cases (p := AsksPort [2] d) (.refl ..)
    (if_cases (p := AsksPort [2] d) ((logPush_asks ..).after (.of_keeps (S := [.faults]) (updFault_keeps ..)))
      (.of_keeps (S := [.faults]) (updFault_keeps ..)))

theorem capQueue_asks (k : Nat) (c : Cap) : AsksPort [3] d (capQueue k c d) :=
  if_cases (p := AsksPort [3] d) (.refl ..) ((AsksPort.request (by decide) _).after (.of_eq rfl))

theorem captureTake_asks (f : Nat) (sc : Scope) : AsksPort [3] d (captureTake f sc d) := by
  unfold captureTake
  dsimp only
  split
  · exact .of_eq rfl
  · exact (capQueue_asks ..).after (.of_eq rfl)

theorem tellRaise_asks (f : Nat) (sc : Scope) (s : Severity) : AsksPort [3] d (tellRaise f sc s d) := by
  have ha : AsksPort [3] d (if fsAlert d (Fin.ofNat 2048 f) then
      alertSet 0 (d.updSup fun u => { u with alertFsrc := BitVec.ofNat 12 f }) else d) :=
    if_cases (p := AsksPort [3] d) (.of_keeps (alertFsrc_keeps f d)) (.refl ..)
  exact if_cases (p := AsksPort [3] d) ((captureTake_asks ..).after ha) ha

theorem recordRaise_asks (f : Nat) (sc : Scope) (level : Bool) (x : Nat) : AsksPort [2, 3] d (recordRaise f sc level x d) := by
  have hc : AsksPort [2, 3] d (countRaise f level d) :=
    (AsksPort.of_keeps (S := [.faults]) (updFault_keeps ..)).after ((secTurn_asks ..).mono (by decide))
  have hl : AsksPort [2, 3] d (logRaise f sc x d (countRaise f level d)) :=
    if_cases (p := AsksPort [2, 3] d) (((logPush_asks ..).mono (by decide)).after hc) hc
  exact ((tellRaise_asks ..).mono (by decide)).after hl

theorem raiseX_asks (f : Nat) (level : Bool) (x : Nat) : AsksPort [2, 3] d (raiseX f level x d) := by
  rcases raiseX_cases f level x d with k | ⟨sc, -, -, -, h⟩
  · exact .of_keeps k
  · rw [h]
    exact (AsksPort.of_keeps (reactNow_keeps ..)).after (recordRaise_asks ..)

theorem raise_asks (f : Nat) : AsksPort [2, 3] d (raise f d) := raiseX_asks ..

theorem modelReinit_asks (m : Model) : AsksPort [2, 3] d (modelReinit m d) := by
  unfold modelReinit
  exact (raiseX_asks ..).after (.of_eq rfl)

theorem ueState_asks (k : Nat) : AsksPort [2, 3] d (ueState k d) := by
  refine if_cases (p := AsksPort [2, 3] d) (modelReinit_asks ..) (if_cases (p := AsksPort [2, 3] d) (.of_eq rfl) ?_)
  exact if_cases (p := AsksPort [2, 3] d) (.of_eq rfl) (.refl ..)

theorem setInj_asks (f : Nat) (v : Bool) : AsksPort [2, 3] d (setInj f v d) := .of_eq rfl

theorem ueRaise_asks (k : Nat) : AsksPort [2, 3] d (ueRaise k d) := by
  unfold ueRaise
  exact (setInj_asks ..).after ((setInj_asks ..).after ((ueState_asks ..).after ((raise_asks ..).after ((setInj_asks ..).after (setInj_asks ..)))))

theorem ueFound_asks (scrub : Bool) (k : Nat) : AsksPort [2, 3] d (ueFound scrub k d) :=
  if_cases (p := AsksPort [2, 3] d) (.of_eq rfl) ((ueRaise_asks ..).after (.of_eq rfl))

/-- What decoding a codeword may ask of the port: a write-back, a row copy, a record, a capture. -/
theorem remapRow_asks (r : Nat × Nat) : AsksPort [0, 1, 2, 3] d (remapRow r d) := by
  have h1 (e : Device) (h : e.arbs = d.arbs) : AsksPort [0, 1, 2, 3] d (arbRequest wport 1 e) :=
    (AsksPort.request (by decide) _).after (.of_eq h)
  exact if_cases (p := AsksPort [0, 1, 2, 3] d) (.refl ..)
    (if_cases (p := AsksPort [0, 1, 2, 3] d) (((raise_asks ..).mono (by decide)).after (h1 _ rfl)) (h1 _ rfl))

theorem rowCorrected_asks (k : Nat) : AsksPort [0, 1, 2, 3] d (rowCorrected k d) :=
  if_cases (p := AsksPort [0, 1, 2, 3] d) ((remapRow_asks ..).after (.of_eq rfl)) (.of_eq rfl)

theorem cwDecode_asks (scrub : Bool) (k : Nat) : AsksPort [0, 1, 2, 3] d (cwDecode scrub k d) :=
  if_cases (p := AsksPort [0, 1, 2, 3] d) ((ueFound_asks ..).mono (by decide))
    (if_cases (p := AsksPort [0, 1, 2, 3] d) ((rowCorrected_asks ..).after ((AsksPort.request (by decide) _).after (.of_eq rfl))) (.refl ..))

theorem cwReads_asks (a n : Nat) : AsksPort [0, 1, 2, 3] d (cwReads a n d) := .forEach (fun k d => cwDecode_asks d false k) _ d

theorem memWrite_asks (a : Nat) (bs : List Byte) : AsksPort [2] d (memWrite a bs d) :=
  if_cases (p := AsksPort [2] d) ((fiEvent_asks ..).after (.of_eq rfl)) (.of_eq rfl)

theorem slotsOut_asks (start : Nat) (c : Chan) : AsksPort [2, 3] d (slotsOut start c d) :=
  if_cases (p := AsksPort [2, 3] d) ((raise_asks ..).after (.of_eq rfl)) (.refl ..)

theorem modsOut_asks (m : Pm) : AsksPort [2, 3] d (modsOut m d) :=
  if_cases (p := AsksPort [2, 3] d) ((raise_asks ..).after (.of_eq rfl)) (.refl ..)

end

end Sys2Proof.Machine

/-! ## What a decision of an arbiter starts (01, The common arbiter) -/

namespace Sys2Proof.Machine

/-- The device at a decision of an arbiter: a modulator's halt-locked entries that no longer fit are dropped (R343). -/
def decisionDev (i : Fin 99) (d : Device) : Device := if h : 8 ≤ i.1 ∧ i.1 < 96 then hlDrop 5 ⟨i.1 - 8, by omega⟩ d else d

theorem arbDecide_single {limit units i w a : Nat} {x : Arbiter} (hu : 0 < units) (hp : x.pending = [(w, a)]) (hg : x.granted = []) :
    (arbDecide limit units i x).granted = [w] ∧ (arbDecide limit units i x).pending = [] := by
  obtain ⟨r, hr, u, hw⟩ := arbWinner_some (i := i) (limit := limit) (p := x.pending) (by rw [hp]; exact List.cons_ne_nil _ _)
  rw [hp, List.mem_singleton] at hr
  subst hr
  rw [arbDecide_some (by rw [hg]; exact hu) hw]
  simp [leftPending, hp, hg]

/-- The only request, which may be granted, is granted, and the grant takes effect. -/
theorem arbiterDecision_single {i : Fin 99} {w a : Nat} {d : Device} (hr : d.start.st ≠ .reset) (hd : decisionDev i d = d)
    (hh : arbHeld i d = []) (hu : 0 < arbUnits i d) (hp : (d.arbs[i]).pending = [(w, a)]) (hg : (d.arbs[i]).granted = []) :
    ∃ b : Arbiter, b.granted = [w] ∧ b.pending = [] ∧ arbiterDecision i d = grantEffect i w (d.updArb i fun _ => b) := by
  have hall : (d.arbs[i]).pending.filter (fun r => !(arbHeld i d).contains r) = [(w, a)] := by rw [hh, hp]; rfl
  obtain ⟨hbg, hbp⟩ := arbDecide_single (limit := ageLimit d i.1) (i := i.1) hu
    (x := { d.arbs[i] with pending := (d.arbs[i]).pending.filter fun r => !(arbHeld i d).contains r }) hall hg
  unfold arbiterDecision
  rw [if_neg hr]
  unfold decisionDev at hd
  simp only [hd]
  generalize arbDecide _ _ _ _ = b at hbg hbp ⊢
  refine ⟨{ b with pending := b.pending ++ arbHeld i d }, hbg, by rw [hbp, hh]; rfl, ?_⟩
  rw [hbg, hg]
  rfl

/-- Nothing that waits may be granted: the device is as it was. -/
theorem arbiterDecision_none {i : Fin 99} {d : Device} (hd : decisionDev i d = d)
    (h : arbUnits i d ≤ (d.arbs[i]).granted.length ∧ arbHeld i d = [] ∨
      (d.arbs[i]).pending.filter (fun r => !(arbHeld i d).contains r) = [] ∧ arbHeld i d = (d.arbs[i]).pending) :
    arbiterDecision i d = d := by
  unfold arbiterDecision
  refine if_cases (p := (· = d)) rfl ?_
  unfold decisionDev at hd
  simp only [hd]
  have hsame (x : Arbiter) (hx : x = d.arbs[i]) : d.updArb i (fun _ => x) = d := by
    rw [hx, Device.updArb, upd_id _ _ _ rfl]
  rcases h with ⟨hu, hh⟩ | ⟨hf, hh⟩
  · have hfil : (d.arbs[i]).pending.filter (fun r => !([] : List (Nat × Nat)).contains r) = (d.arbs[i]).pending := by
      simp
    rw [arbDecide_none (.inl (by exact hu)), hh]
    simp only [hfil, List.append_nil, List.drop_length]
    exact hsame _ rfl
  · rw [arbDecide_none (.inr hf)]
    simp only [hf, List.nil_append, List.drop_length]
    exact hsame _ (by rw [hh])

theorem arbHeld_other {i : Fin 99} (h : ¬ (8 ≤ i.1 ∧ i.1 < 96)) (d : Device) : arbHeld i d = [] := dif_neg h

theorem decisionDev_other {i : Fin 99} (h : ¬ (8 ≤ i.1 ∧ i.1 < 96)) (d : Device) : decisionDev i d = d := dif_neg h

theorem mport_bounds (m : Pm) : 8 ≤ (mport m).1 ∧ (mport m).1 < 96 := ⟨Nat.le_add_right .., by have := m.2; change 8 + m.1 < 96; omega⟩

theorem mport_mod (m : Pm) : (⟨(mport m).1 - 8, by have := m.2; change 8 + m.1 - 8 < 88; omega⟩ : Pm) = m :=
  Fin.ext (Nat.add_sub_cancel_left 8 m.1)

theorem hlDrop_none (n : Nat) {m : Pm} {d : Device} (h : (d.mods[m]).hlQueue = []) : hlDrop n m d = d := by
  cases n with
  | zero => rfl
  | succ n =>
    have hh : hlHead d m = none := by
      unfold hlHead
      split
      · rw [h]; rfl
      · rfl
    simp only [hlDrop, hh]

theorem decisionDev_mport {m : Pm} {d : Device} (h : (d.mods[m]).hlQueue = []) : decisionDev (mport m) d = d := by
  rw [decisionDev, dif_pos (mport_bounds m), mport_mod]
  exact hlDrop_none 5 h

theorem arbHeld_mport (m : Pm) (d : Device) : arbHeld (mport m) d = (d.arbs[mport m]).pending.filter fun r => mayNot d m r.1 := by
  rw [arbHeld, dif_pos (mport_bounds m), mport_mod]

theorem arbUnits_one {i : Fin 99} (h : 8 ≤ i.1) (d : Device) : arbUnits i d = 1 := by
  rw [arbUnits, dif_neg (by omega), dif_neg (by omega)]

theorem grantEffect_mport (m : Pm) (w : Nat) (d : Device) : grantEffect (mport m) w d = convStart m w d := by
  have := mport_bounds m
  rw [grantEffect, dif_neg (by omega), dif_neg (by omega), dif_pos (mport_bounds m).2, mport_mod]

theorem grantEffect_slotArb (q : Quad) (w : Nat) (d : Device) : grantEffect (slotArb q) w d = grantSlot q w (arbRelease (slotArb q) w d) :=
  dif_pos q.2

theorem grantEffect_modArb (q : Quad) (w : Nat) (d : Device) : grantEffect (modArb q) w d = grantMod q w (arbRelease (modArb q) w d) := by
  have h : (modArb q).1 = 4 + q.1 := rfl
  have hq : (⟨(modArb q).1 - 4, by have := q.2; omega⟩ : Quad) = q := Fin.ext (Nat.add_sub_cancel_left 4 q.1)
  rw [grantEffect, dif_neg (by omega), dif_pos (by have := q.2; omega), hq]

theorem arbUnits_slotArb {q : Quad} {d : Device} : arbUnits (slotArb q) d = if newtOpen d then (usableSlots d q).length else 0 := dif_pos q.2

theorem arbUnits_modArb {q : Quad} {d : Device} : arbUnits (modArb q) d = if newtOpen d then (usableMods d q).length else 0 := by
  have h : (modArb q).1 = 4 + q.1 := rfl
  have hq : (⟨(modArb q).1 - 4, by have := q.2; omega⟩ : Quad) = q := Fin.ext (Nat.add_sub_cancel_left 4 q.1)
  rw [arbUnits, dif_neg (by omega), dif_pos (by have := q.2; omega), hq]

/-! ### The memory write port -/

theorem wport_single {w a : Nat} {d : Device} (hr : d.start.st ≠ .reset) (hp : (d.arbs[wport]).pending = [(w, a)]) (hg : (d.arbs[wport]).granted = []) :
    ∃ b : Arbiter, b.granted = [w] ∧ b.pending = [] ∧ arbiterDecision wport d = portGrant w (d.updArb wport fun _ => b) :=
  arbiterDecision_single hr (decisionDev_other (by decide) d) (arbHeld_other (by decide) d) (by rw [arbUnits_one (by decide)]; exact Nat.one_pos) hp hg

/-- The port when a grant of one codeword has ended: free, with nothing that waits. -/
theorem freed_port {i : Fin 99} {w : Nat} {b : Arbiter} (hg : b.granted = [w]) (hp : b.pending = []) (d : Device) :
    ((arbRelease i w (d.updArb i fun _ => b)).arbs[i]).granted = [] ∧ ((arbRelease i w (d.updArb i fun _ => b)).arbs[i]).pending = [] := by
  rw [arbRelease, updArb_arbs, updArb_arbs, upd_same, upd_same]
  simp [hg, hp]

theorem cwWrong_drive (d : Device) (k : Nat) : cwWrong (drive d) k = cwWrong d k := rfl

theorem cwErrs_filtered (k : Nat) (l : List (Nat × (Nat × Nat))) : (l.filter fun x => decide (x.1 ≠ k)).find? (·.1 = k) = none := by
  simp [List.find?_eq_none]

theorem writeBack_one {d : Device} {k : Nat} {rest : List Nat} (hf : d.memory.fixing = k :: rest) (hw : cwWrong d k = 1) :
    (writeBack d).memory.fixing = rest ∧ cwWrong (writeBack d) k = 0 ∧ (writeBack d).memory.mem = d.memory.mem := by
  have hbad : cwBad d k = false := by simp [cwBad, hw]
  have hmem : (writeBack d).memory = { d.memory with fixing := rest, errs := d.memory.errs.filter fun x => decide (x.1 ≠ k) } := by
    simp only [writeBack, hf]
    split <;> simp [hbad]
  refine ⟨by rw [hmem], ?_, by rw [hmem]⟩
  simp only [cwWrong, cwErrs, hmem, cwErrs_filtered]

/-- One codeword of a queue of requester n has been stored at address w of the memory: the port is free, and asked again while the queue holds more. -/
structure Stored (n w : Nat) (bs : List Byte) (more : Prop) (d e : Device) : Prop where
  granted : (e.arbs[wport]).granted = []
  again : (e.arbs[wport]).pending.any (·.1 = n) = true ↔ more
  inside : ∀ k < bs.length, mget e.memory.mem (w + k) = bs.getD k 0
  outside : ∀ x, (x < w ∨ w + bs.length ≤ x) → mget e.memory.mem x = mget d.memory.mem x

theorem memWrite_stored {α : Type} {w n : Nat} {bs : List Byte} (rest : List α) [Decidable (rest = [])] {d e : Device} (hn : n ≠ 2)
    (hwf : d.memory.mem.wf = true) (hg : (d.arbs[wport]).granted = []) (hp : (d.arbs[wport]).pending = [])
    (he : e.memory.mem = msets d.memory.mem w bs) (ha : AsksPort [2] d e) :
    Stored n w bs (rest ≠ []) d (if rest = [] then e else arbRequest wport n e) := by
  have hg : (e.arbs[wport]).granted = [] := ha.granted.trans hg
  have hp : (e.arbs[wport]).pending.any (·.1 = n) = false := by
    rw [ha.asks n (by simpa using hn), hp]
    rfl
  have hin : ∀ k < bs.length, mget e.memory.mem (w + k) = bs.getD k 0 := fun k hk => by
    rw [he, mget_msets_inside _ _ _ _ hk hwf, List.getD_eq_getElem _ _ hk]
  have hout : ∀ x, (x < w ∨ w + bs.length ≤ x) → mget e.memory.mem x = mget d.memory.mem x := fun x hx => by
    rw [he, mget_msets_outside _ _ _ _ hx hwf]
  split
  next h => exact ⟨hg, by rw [hp, h]; exact ⟨fun hf => Bool.noConfusion hf, fun hf => absurd rfl hf⟩, hin, hout⟩
  next h => exact ⟨(AsksPort.request (List.mem_singleton.mpr rfl) _).granted.trans hg, by simp only [arbRequest_pending, h, ne_eq, not_false_eq_true], hin, hout⟩

/-- What waits to be stored beside the bytes themselves stays through a write. -/
theorem memWrite_waits (a : Nat) (bs : List Byte) (d : Device) :
    (memWrite a bs d).memory.modelQ = d.memory.modelQ ∧ (memWrite a bs d).memory.mirrorAt = d.memory.mirrorAt := by
  unfold memWrite
  refine if_cases (p := fun x : Device => x.memory.modelQ = d.memory.modelQ ∧ x.memory.mirrorAt = d.memory.mirrorAt) ?_ ⟨rfl, rfl⟩
  rw [(fiEvent_keeps _).memory_eq rfl rfl rfl]
  exact ⟨rfl, rfl⟩

theorem memWrite_modelQ (a : Nat) (bs : List Byte) (d : Device) : (memWrite a bs d).memory.modelQ = d.memory.modelQ := (memWrite_waits a bs d).1

theorem memWrite_mirrorAt (a : Nat) (bs : List Byte) (d : Device) : (memWrite a bs d).memory.mirrorAt = d.memory.mirrorAt := (memWrite_waits a bs d).2

theorem captureWrite_stored {d : Device} {w : Nat × List Byte} {rest : List (Nat × List Byte)} (hq : d.col.capQ = w :: rest)
    (hwf : d.memory.mem.wf = true) (hg : (d.arbs[wport]).granted = []) (hp : (d.arbs[wport]).pending = []) :
    (captureWrite d).col.capQ = rest ∧ Stored 3 w.1 w.2 (rest ≠ []) d (captureWrite d) := by
  let e := d.updCol fun c => { c with capQ := rest }
  have hc : captureWrite d = if rest = [] then memWrite w.1 w.2 e else arbRequest wport 3 (memWrite w.1 w.2 e) := by
    simp only [captureWrite, hq]
    rfl
  have hcq : (memWrite w.1 w.2 e).col.capQ = rest := (memWrite_keeps ..).capQ_eq rfl
  rw [hc]
  refine ⟨if_cases (p := fun x : Device => x.col.capQ = rest) hcq hcq, ?_⟩
  exact memWrite_stored rest (by decide) hwf hg hp (memWrite_mem ..) ((memWrite_asks ..).after (.of_eq rfl))

theorem modelStore_stored {d : Device} {m : Nat} {rest : List Nat} (hq : d.memory.modelQ = m :: rest)
    (hwf : d.memory.mem.wf = true) (hg : (d.arbs[wport]).granted = []) (hp : (d.arbs[wport]).pending = []) :
    (modelStore d).memory.modelQ = rest ∧ Stored 9 (0xE0000 + 32 * m) (modelBytes d.therm[Fin.ofNat 172 m]) (rest ≠ []) d (modelStore d) := by
  let e := d.updMem fun x => { x with modelQ := rest }
  let bs := modelBytes d.therm[Fin.ofNat 172 m]
  have hc : modelStore d = if rest = [] then memWrite (0xE0000 + 32 * m) bs e else arbRequest wport 9 (memWrite (0xE0000 + 32 * m) bs e) := by
    simp only [modelStore, hq]
    rfl
  have hcq : (memWrite (0xE0000 + 32 * m) bs e).memory.modelQ = rest := memWrite_modelQ ..
  rw [hc]
  refine ⟨if_cases (p := fun x : Device => x.memory.modelQ = rest) hcq hcq, ?_⟩
  exact memWrite_stored rest (by decide) hwf hg hp (memWrite_mem ..) ((memWrite_asks ..).after (.of_eq rfl))

theorem mirrorWrite_stored {d : Device} {k : Nat} {rest : List Nat} (hq : (mirrorLeft d).2 = k :: rest)
    (hwf : d.memory.mem.wf = true) (hg : (d.arbs[wport]).granted = []) (hp : (d.arbs[wport]).pending = []) :
    (mirrorWrite d).memory.mirrorAt = d.memory.mirrorAt + 1 ∧ (mirrorWrite d).memory.conf = d.memory.conf ∧
      Stored 10 (32 * k) (mdump (mirrorLeft d).1 (32 * k) 32) (rest ≠ []) d (mirrorWrite d) := by
  let bs := mdump (mirrorLeft d).1 (32 * k) 32
  let e := (memWrite (32 * k) bs d).updMem fun x => { x with mirrorAt := x.mirrorAt + 1 }
  have hc : mirrorWrite d = if rest = [] then e else arbRequest wport 10 e := by
    simp only [mirrorWrite, hq]
    rfl
  have hat : e.memory.mirrorAt = d.memory.mirrorAt + 1 := congrArg (· + 1) (memWrite_mirrorAt ..)
  have hconf : e.memory.conf = d.memory.conf := (memWrite_keeps (32 * k) bs d).parts .conf rfl
  rw [hc]
  refine ⟨if_cases (p := fun x : Device => x.memory.mirrorAt = _) hat hat, if_cases (p := fun x : Device => x.memory.conf = _) hconf hconf, ?_⟩
  exact memWrite_stored rest (by decide) hwf hg hp (memWrite_mem ..) (AsksPort.after (d := d) (e := memWrite (32 * k) bs d) (.of_eq rfl) (memWrite_asks ..))

theorem modelBytes_length (x : ThermSt) : (modelBytes x).length = 32 := by
  simp [modelBytes]

/-! ### Grants of spares -/

theorem slotArb_ne_wport (q : Quad) : slotArb q ≠ wport := fun h => by have := q.2; have := congrArg Fin.val h; change q.1 = 96 at this; omega

theorem modArb_ne_wport (q : Quad) : modArb q ≠ wport := fun h => by have := q.2; have := congrArg Fin.val h; change 4 + q.1 = 96 at this; omega

theorem calWrite_asks (m : Pm) (bs : List Byte) (d : Device) : AsksPort [0, 1, 2, 3] d (calWrite m bs d) := by
  have hw : AsksPort [0, 1, 2, 3] d (memWrite (calb m) bs (calPending d)) := ((memWrite_asks ..).mono (by decide)).after (.of_eq rfl)
  have hq : AsksPort [0, 1, 2, 3] (memWrite (calb m) bs (calPending d)) (toQuad (Pm.quad m) (.words (some m))
      (fun d => d.updMem fun x => { x with conf := msets x.conf (calb m) bs }) (memWrite (calb m) bs (calPending d))) :=
    if_cases (p := AsksPort [0, 1, 2, 3] _) (.of_eq rfl) (.of_eq rfl)
  have hl : (calWrite m bs d).arbs = _ := updLoader_arbs ..
  exact (AsksPort.of_eq hl).after (hq.after hw)

theorem transfer_asks (s p : Pm) (d : Device) : AsksPort [0, 1, 2, 3] d (transfer s p d) := by
  unfold transfer
  dsimp only
  split
  · exact .of_eq rfl
  · exact (calWrite_asks ..).after (.of_eq rfl)


theorem quad_low (c : Chan) (h : 8 * (Chan.quad c).1 + c.1 % 8 % 8 < 32) : (⟨8 * (Chan.quad c).1 + c.1 % 8 % 8, h⟩ : Chan) = c := by
  refine Fin.ext ?_
  change 8 * (c.1 / 8) + c.1 % 8 % 8 = c.1
  omega

theorem grantSlot_booked {q : Quad} {c : Chan} {h : HaltSched} {sp f : Slot} {l l' : List Slot} {d : Device} (hq : Chan.quad c = q)
    (hn : d.halt.next = some h) (hs : usableSlots d q = sp :: l) (hf : replaceable d c (h.start * tick) = f :: l')
    (hp : (d.arbs[slotArb q]).pending = []) :
    grantSlot q (c.1 % 8) d =
      (d.updMem fun m => { m with swaps := m.swaps ++ [⟨false, f.1, sp.1, c.1, none⟩] }).updChan c fun s => { s with noSpare := false } := by
  subst hq
  have hh : d.halt.next.toList ++ d.halt.cur.toList = h :: d.halt.cur.toList := by rw [hn]; rfl
  unfold grantSlot
  simp only [show 8 * (Chan.quad c).1 + c.1 % 8 % 8 = c.1 from congrArg Fin.val (quad_low c (by omega)), hh, hs, hf]
  rw [List.filter_eq_nil_iff.mpr fun j _ => ?_]
  · rfl
  · change ¬ decide (((d.arbs[slotArb (Chan.quad c)]).pending.map (·.1)).contains (j.1 % 8) = true) = true
    rw [hp]
    exact Bool.false_ne_true

/-- Which spares act and which modulators are out, in every modulator. -/
structure KeepsActing (d e : Device) : Prop where
  same : ∀ m : Pm, (e.mods[m]).acting = (d.mods[m]).acting ∧ (e.mods[m]).bad = (d.mods[m]).bad

namespace KeepsActing
variable {d e f : Device}

theorem after (k : KeepsActing e f) (h : KeepsActing d e) : KeepsActing d f := ⟨fun m => ⟨(k.same m).1.trans (h.same m).1, (k.same m).2.trans (h.same m).2⟩⟩

theorem of_eq (h : e.mods = d.mods) : KeepsActing d e := ⟨fun m => by rw [h]; exact ⟨rfl, rfl⟩⟩

theorem of_keeps {S : List Part} (k : Keeps S d e) (h : S.contains .mods = false := by rfl) : KeepsActing d e := of_eq (k.parts .mods h)

theorem updMod (m : Pm) {f : ModSt → ModSt} (d : Device) (hf : ∀ x, (f x).acting = x.acting ∧ (f x).bad = x.bad) : KeepsActing d (d.updMod m f) := by
  refine ⟨fun k => ?_⟩
  rw [updMod_mods]
  by_cases h : k = m
  · subst h; rw [upd_same]; exact hf _
  · rw [upd_other _ _ _ _ h]; exact ⟨rfl, rfl⟩

theorem forEach {α : Type} {g : α → Device → Device} (hg : ∀ a d, KeepsActing d (g a d)) (xs : List α) : ∀ d, KeepsActing d (Machine.forEach xs g d) := by
  induction xs with
  | nil => exact fun d => of_eq rfl
  | cons a xs ih => exact fun d => (ih (g a d)).after (hg a d)

end KeepsActing

theorem trackLoss_acting (k : Nat) (d : Device) : KeepsActing d (trackLoss k d) :=
  if_cases (p := KeepsActing d) (.updMod _ _ fun _ => ⟨rfl, rfl⟩) (.of_eq rfl)

theorem modelReinit_acting (m : Model) (d : Device) : KeepsActing d (modelReinit m d) := by
  unfold modelReinit
  exact (KeepsActing.of_keeps (raiseX_keeps ..)).after (.of_eq rfl)

theorem ueState_acting (k : Nat) (d : Device) : KeepsActing d (ueState k d) :=
  if_cases (p := KeepsActing d) (modelReinit_acting ..) (if_cases (p := KeepsActing d) (.of_eq rfl) (trackLoss_acting ..))

theorem setInj_acting (f : Nat) (v : Bool) (d : Device) : KeepsActing d (setInj f v d) := .of_eq rfl

theorem ueRaise_acting (k : Nat) (d : Device) : KeepsActing d (ueRaise k d) := by
  unfold ueRaise
  exact (setInj_acting ..).after ((setInj_acting ..).after ((ueState_acting ..).after ((KeepsActing.of_keeps (raise_keeps ..)).after
    ((setInj_acting ..).after (setInj_acting ..)))))

theorem cwDecode_acting (scrub : Bool) (k : Nat) (d : Device) : KeepsActing d (cwDecode scrub k d) := by
  refine if_cases (p := KeepsActing d) ?_ (if_cases (p := KeepsActing d) ?_ (.of_eq rfl))
  · exact if_cases (p := KeepsActing d) (.of_eq rfl) ((ueRaise_acting ..).after (.of_eq rfl))
  · exact (KeepsActing.of_keeps (rowCorrected_keeps ..)).after (.of_eq rfl)

theorem cwReads_acting (a n : Nat) (d : Device) : KeepsActing d (cwReads a n d) := .forEach (fun k d => cwDecode_acting false k d) _ d

theorem modsOut_acting (m : Pm) (d : Device) : KeepsActing d (modsOut m d) :=
  if_cases (p := KeepsActing d) ((KeepsActing.of_keeps (raise_keeps ..)).after (.updMod _ _ fun _ => ⟨rfl, rfl⟩)) (.of_eq rfl)

theorem pm_of_pos (p : Pm) : (Fin.ofNat 88 (22 * (Pm.quad p).1 + Pm.pos p) : Pm) = p := by
  refine Fin.ext ?_
  change (22 * (p.1 / 22) + p.1 % 22) % 88 = p.1
  omega

/-- The samples of the only usable spare are read, and it is booked for the position with its coefficients. -/
theorem grantMod_booked {q : Quad} {p sp : Pm} {d : Device} (hq : Pm.quad p = q) (hu : usableMods d q = [sp]) (hp : (d.arbs[modArb q]).pending = []) :
    ∃ e, KeepsActing d e ∧ AsksPort [0, 1, 2, 3] d e ∧ e.memory.swaps = d.memory.swaps ++ [⟨true, p.1, sp.1, 0, none⟩] ∧
      grantMod q (Pm.pos p) d = transfer sp p e := by
  subst hq
  let r := cwReads (trackAddr (spareNo sp) (Pm.pos p) 0) 64 d
  let e := (r.updMem fun m => { m with swaps := m.swaps ++ [⟨true, p.1, sp.1, 0, none⟩] }).updMod p fun x => { x with noSpare := false }
  have hr : AsksPort [0, 1, 2, 3] d r := cwReads_asks ..
  have hsw : r.memory.swaps = d.memory.swaps := (cwReads_keeps ..).parts .swaps rfl
  refine ⟨e, ?_, AsksPort.after (e := r) (.of_eq rfl) hr, congrArg (· ++ _) hsw, ?_⟩
  · exact (KeepsActing.updMod p (f := fun x => { x with noSpare := false }) _ fun _ => ⟨rfl, rfl⟩).after (KeepsActing.after (e := r) (.of_eq rfl) (cwReads_acting ..))
  · have hfind (f : Pm → Bool) : ([sp].find? f).or ([sp] : List Pm).head? = some sp := by
      rw [List.find?_cons]
      cases f sp <;> rfl
    have hfil (x : Device) (hx : AsksPort [0, 1, 2, 3] d x) : (quadMods (Pm.quad p)).filter
        (fun m => decide (((x.arbs[modArb (Pm.quad p)]).pending.map (·.1)).contains (Pm.pos m) = true)) = [] := by
      rw [hx.others _ (modArb_ne_wport _), hp]
      exact List.filter_eq_nil_iff.mpr fun _ _ => Bool.false_ne_true
    unfold grantMod
    simp only [hu, pm_of_pos, hfind]
    change forEach ((quadMods (Pm.quad p)).filter fun m => decide ((((transfer sp p e).arbs[modArb (Pm.quad p)]).pending.map (·.1)).contains
      (Pm.pos m) = true)) modsOut (transfer sp p e) = transfer sp p e
    rw [hfil (transfer sp p e) ((transfer_asks ..).after (AsksPort.after (e := r) (.of_eq rfl) hr))]
    rfl

/-! ### The obligation -/

theorem portGrant_other {w : Nat} (h0 : w ≠ 0) (h1 : w ≠ 1) (h3 : w ≠ 3) (h9 : w ≠ 9) (h10 : w ≠ 10) (d : Device) : portGrant w d = d := by
  unfold portGrant
  split
  · exact absurd rfl h0
  · exact absurd rfl h1
  · exact absurd rfl h3
  · exact absurd rfl h9
  · exact absurd rfl h10
  · rfl

theorem run_ne_reset {d : Device} (h : d.start.st = .run) : d.start.st ≠ .reset := fun hr => nomatch h.symm.trans hr

/-- A grant of the supervisory port or of the boot port to the only requester. -/
theorem port_single {i : Fin 99} {w a : Nat} {d : Device} (hi : 97 ≤ i.1) (hr : d.start.st = .run) (hp : (d.arbs[i]).pending = [(w, a)])
    (hg : (d.arbs[i]).granted = []) :
    ∃ b : Arbiter, b.granted = [w] ∧ arbiterDecision i d = if i.1 = 97 then
        (d.updArb i fun _ => b).updBoot fun x => { x with
          cur := (if w = 0 then x.want0 else if w = 1 then x.want1 else x.want2).map fun y => (w, y), started := false }
      else (d.updArb i fun _ => b).updSup fun u => { u with poll := some w, polling := false, backoff := false, lostRun := 0 } := by
  obtain ⟨b, hbg, -, he⟩ := arbiterDecision_single (run_ne_reset hr) (decisionDev_other (by omega) d) (arbHeld_other (by omega) d)
    (by rw [arbUnits_one (by omega)]; exact Nat.one_pos) hp hg
  refine ⟨b, hbg, ?_⟩
  rw [he, grantEffect, dif_neg (by omega), dif_neg (by omega), dif_neg (by omega), if_neg (by omega)]

/-- The write port is free, and nothing waits for it. -/
structure FreePort (e : Device) : Prop where
  granted : (e.arbs[wport]).granted = []
  pending : (e.arbs[wport]).pending = []

theorem wport_freed {w a : Nat} {d : Device} (hr : d.start.st ≠ .reset) (hp : (d.arbs[wport]).pending = [(w, a)]) (hg : (d.arbs[wport]).granted = []) :
    ∃ e x, FreePort (arbRelease wport w e) ∧ e = { d with arbs := x } ∧ arbiterDecision wport d = portGrant w e := by
  obtain ⟨b, hbg, hbp, he⟩ := wport_single hr hp hg
  obtain ⟨hg', hp'⟩ := freed_port hbg hbp d
  exact ⟨_, _, ⟨hg', hp'⟩, rfl, he⟩

/-- Settles O51: the only request that waits is granted, and each resource's grant starts what its own lemma says. -/
theorem arbiterGrants : Obligations.ArbiterGrants := by
  unfold Obligations.ArbiterGrants
  refine ⟨fun i s h => ?_, fun m w a s hr hp hg hl hm => ?_, fun m w a s hr hp hl hm => ?_, fun w a s hr hp hg h0 h1 h3 h9 h10 => ?_,
    fun k rest a s hr hp hg hf hw => ?_, fun w rest a s hr hp hg hq hlen hwf => ?_, fun m rest a s hr hp hg hq hwf => ?_,
    fun k rest a s hb hp hg hq hwf => ?_, fun w a s hr hp hg => ?_, fun w a s hr hp hg => ?_, fun q c h a sp l f l' s hr hn ho hq hp hg hu hf => ?_,
    fun q p a sp s hr ho hq hpos hp hg hu => ?_, fun q s ho hg => ?_⟩
  · refine ⟨_, rfl, congrArg drive ?_⟩
    rcases h with h | ⟨hi, hp⟩
    · exact if_pos h
    · refine arbiterDecision_none (decisionDev_other (by omega) _) (.inr ?_)
      rw [arbHeld_other (by omega), hp]
      exact ⟨rfl, rfl⟩
  · have hh : arbHeld (mport m) s.dev = [] := by rw [arbHeld_mport, hp]; simp [hm]
    obtain ⟨b, hbg, hbp, he⟩ := arbiterDecision_single (run_ne_reset hr) (decisionDev_mport hl) hh
      (by rw [arbUnits_one (mport_bounds m).1]; exact Nat.one_pos) hp hg
    rw [grantEffect_mport] at he
    obtain ⟨t, ht, hd⟩ := done_next (arbiterDecision (mport m)) s
    refine ⟨t, ht, ?_⟩
    rw [hd, he, drive_mods, drive_arbs]
    simp only [convStart, updMod_mods, updMod_arbs, updArb_arbs, upd_same]
    exact ⟨rfl, rfl, hbg, hbp⟩
  · have hh : arbHeld (mport m) s.dev = (s.dev.arbs[mport m]).pending := by rw [arbHeld_mport, hp]; simp [hm]
    refine ⟨_, rfl, congrArg drive (arbiterDecision_none (decisionDev_mport hl) (.inr ⟨?_, hh⟩))⟩
    rw [hh, hp]
    simp
  · obtain ⟨b, hbg, hbp, he⟩ := wport_single (run_ne_reset hr) hp hg
    rw [portGrant_other h0 h1 h3 h9 h10] at he
    obtain ⟨t, ht, hd⟩ := done_next (arbiterDecision wport) s
    refine ⟨t, ht, ?_⟩
    rw [hd, he, drive_arbs, drive_memory, updArb_arbs, upd_same]
    exact ⟨hbg, hbp, rfl⟩
  · obtain ⟨e, x, -, rfl, he⟩ := wport_freed (run_ne_reset hr) hp hg
    obtain ⟨t, ht, hd⟩ := done_next (arbiterDecision wport) s
    obtain ⟨h1, h2, h3⟩ := writeBack_one (d := arbRelease wport 0 { s.dev with arbs := x }) hf hw
    refine ⟨t, ht, ?_⟩
    rw [hd, he, drive_memory, cwWrong_drive]
    exact ⟨h1, h2, h3⟩
  · obtain ⟨e, x, hfree, rfl, he⟩ := wport_freed (run_ne_reset hr) hp hg
    obtain ⟨t, ht, hd⟩ := done_next (arbiterDecision wport) s
    obtain ⟨h1, h2⟩ := captureWrite_stored (d := arbRelease wport 3 { s.dev with arbs := x }) hq hwf hfree.granted hfree.pending
    refine ⟨t, ht, ?_⟩
    rw [hd, he, drive_memory, drive_col, drive_arbs]
    refine ⟨h1, h2.granted, Bool.eq_iff_iff.mpr (h2.again.trans decide_eq_true_iff.symm), fun y => ?_⟩
    split
    next hy =>
      have := h2.inside (y - w.1) (by omega)
      rwa [Nat.add_sub_cancel' hy.1] at this
    next hy => exact h2.outside y (by omega)
  · obtain ⟨e, x, hfree, rfl, he⟩ := wport_freed (run_ne_reset hr) hp hg
    obtain ⟨t, ht, hd⟩ := done_next (arbiterDecision wport) s
    obtain ⟨h1, h2⟩ := modelStore_stored (d := arbRelease wport 9 { s.dev with arbs := x }) hq hwf hfree.granted hfree.pending
    have hin := h2.inside
    have hout := h2.outside
    rw [modelBytes_length] at hin hout
    refine ⟨t, ht, ?_⟩
    rw [hd, he, drive_memory, drive_arbs]
    exact ⟨h1, h2.granted, hin, hout⟩
  · obtain ⟨e, x, hfree, rfl, he⟩ := wport_freed (fun h => nomatch hb.symm.trans h) hp hg
    obtain ⟨t, ht, hd⟩ := done_next (arbiterDecision wport) s
    obtain ⟨h1, h1', h2⟩ := mirrorWrite_stored (d := arbRelease wport 10 { s.dev with arbs := x }) hq hwf hfree.granted hfree.pending
    have hin := h2.inside
    have hout := h2.outside
    rw [mdump_length] at hin hout
    refine ⟨t, ht, ?_⟩
    rw [hd, he, drive_memory, drive_arbs]
    exact ⟨h1, h2.granted, h1', hin, hout⟩
  · obtain ⟨b, hbg, he⟩ := port_single (i := sport) (by decide) hr hp hg
    rw [if_neg (by decide)] at he
    obtain ⟨t, ht, hd⟩ := done_next (arbiterDecision sport) s
    refine ⟨t, ht, ?_⟩
    rw [hd, he, drive_sup, drive_arbs, updSup_arbs, updArb_arbs, upd_same]
    exact ⟨rfl, rfl, hbg⟩
  · obtain ⟨b, hbg, he⟩ := port_single (i := bport) (by decide) hr hp hg
    rw [if_pos (by decide)] at he
    obtain ⟨t, ht, hd⟩ := done_next (arbiterDecision bport) s
    refine ⟨t, ht, ?_⟩
    rw [hd, he, drive_bootp, drive_arbs, updBoot_arbs, updArb_arbs, upd_same]
    exact ⟨rfl, hbg, rfl⟩
  · have hq4 : ¬ (8 ≤ (slotArb q).1 ∧ (slotArb q).1 < 96) := by have := q.2; change ¬ (8 ≤ q.1 ∧ q.1 < 96); omega
    obtain ⟨b, hbg, hbp, he⟩ := arbiterDecision_single (run_ne_reset hr) (decisionDev_other hq4 _) (arbHeld_other hq4 _)
      (by rw [arbUnits_slotArb, if_pos ho, hu]; exact Nat.succ_pos _) hp hg
    obtain ⟨hg', hp'⟩ := freed_port (i := slotArb q) hbg hbp s.dev
    rw [grantEffect_slotArb, grantSlot_booked (d := arbRelease (slotArb q) (c.1 % 8) (s.dev.updArb (slotArb q) fun _ => b)) (h := h) (sp := sp) (f := f) (l := l) (l' := l') hq hn hu hf hp'] at he
    obtain ⟨t, ht, hd⟩ := done_next (arbiterDecision (slotArb q)) s
    refine ⟨t, ht, ?_⟩
    rw [hd, he, drive_memory, drive_arbs, drive_slots]
    exact ⟨rfl, hg', hp', rfl⟩
  · have hq4 : ¬ (8 ≤ (modArb q).1 ∧ (modArb q).1 < 96) := by have := q.2; change ¬ (8 ≤ 4 + q.1 ∧ 4 + q.1 < 96); omega
    obtain ⟨b, hbg, hbp, he⟩ := arbiterDecision_single (run_ne_reset hr) (decisionDev_other hq4 _) (arbHeld_other hq4 _)
      (by rw [arbUnits_modArb, if_pos ho, hu]; exact Nat.one_pos) hp hg
    obtain ⟨hg', hp'⟩ := freed_port (i := modArb q) hbg hbp s.dev
    obtain ⟨e, hk, ha, hsw, hb⟩ := grantMod_booked (d := arbRelease (modArb q) (Pm.pos p) (s.dev.updArb (modArb q) fun _ => b)) hq hu hp'
    rw [grantEffect_modArb, hb] at he
    obtain ⟨t, ht, hd⟩ := done_next (arbiterDecision (modArb q)) s
    refine ⟨t, ht, ?_⟩
    rw [hd, he, drive_memory, drive_arbs, drive_mods]
    have hk' : KeepsActing e (transfer sp p e) := .of_keeps (transfer_keeps ..)
    refine ⟨?_, ?_, fun m => ((hk'.after hk).same m)⟩
    · rw [show (transfer sp p e).memory.swaps = e.memory.swaps from (transfer_keeps ..).parts .swaps rfl, hsw]
      rfl
    · rw [((transfer_asks ..).after ha).others _ (modArb_ne_wport q)]
      exact hg'
  · have hq4 : ¬ (8 ≤ (slotArb q).1 ∧ (slotArb q).1 < 96) := by have := q.2; change ¬ (8 ≤ q.1 ∧ q.1 < 96); omega
    refine ⟨_, rfl, congrArg drive (arbiterDecision_none (decisionDev_other hq4 _) (.inl ⟨?_, arbHeld_other hq4 _⟩))⟩
    rw [arbUnits_slotArb, ho]
    exact Nat.zero_le _

end Sys2Proof.Machine

/-! ## The scrubber and the remapping of rows (12, Memory protection, Row remapping) -/

namespace Sys2Proof.Machine

/-! ### What a raise counts -/

/-- A raise of a source counts unless it is active already (R415). -/
theorem raiseX_count {f : Nat} {sc : Scope} (level : Bool) (x : Nat) {d : Device} (hs : scopeOf f = some sc) (hc : colRuns d = true) :
    ((raiseX f level x d).faults[Fin.ofNat 2048 f]).count = raisedCount d f := by
  cases ha : (d.faults[Fin.ofNat 2048 f]).active with
  | true =>
    simp only [raiseX_again hs (.inr ha), updFault_faults, upd_same, raisedCount, ha, if_true]
  | false =>
    obtain ⟨b, hb⟩ := raiseX_fault (level := level) (x := x) hs hc ha
    have h : (raisedFault (effSev d f) level (recordsRaise f d) d.loc (turnFault (d.loc / sec) d.faults[(Fin.ofNat 2048 f : Fsrc)])).count =
        satInc (d.faults[(Fin.ofNat 2048 f : Fsrc)]).count := congrArg satInc (turnFault_count ..)
    rw [hb, h]
    simp only [raisedCount, ha, Bool.false_eq_true, if_false]

theorem raise_count {f : Nat} {sc : Scope} {d : Device} (hs : scopeOf f = some sc) (hc : colRuns d = true) :
    ((raise f d).faults[Fin.ofNat 2048 f]).count = raisedCount d f := raiseX_count false 0 hs hc

/-! ### A lost codeword -/

theorem ueSource_cases (k : Nat) : ueSource k = 0x620 ∨ ueSource k = 0x621 ∨ ueSource k = 0x622 ∨ ueSource k = 0x623 ∨ ueSource k = 0x624 := by
  unfold ueSource
  dsimp only
  split_ifs <;> simp

theorem ueSource_scope (k : Nat) : scopeOf (ueSource k) = some .device := by
  rcases ueSource_cases k with h | h | h | h | h <;> rw [h] <;> rfl

theorem ueSource_ne_reinit (k : Nat) : (Fin.ofNat 2048 (ueSource k) : Fsrc) ≠ Fin.ofNat 2048 0x594 := by
  rcases ueSource_cases k with h | h | h | h | h <;> rw [h] <;> decide

/-- The number of a source's raises. -/
def KeepsCount (g : Fsrc) (d e : Device) : Prop := (e.faults[g]).count = (d.faults[g]).count

theorem KeepsCount.after {g : Fsrc} {d e f : Device} (k : KeepsCount g e f) (h : KeepsCount g d e) : KeepsCount g d f := Eq.trans k h

theorem setInj_count (g : Fsrc) (f : Nat) (v : Bool) (d : Device) : KeepsCount g d (setInj f v d) := by
  unfold KeepsCount setInj
  rw [updFault_faults]
  by_cases h : g = Fin.ofNat 2048 f
  · rw [h, upd_same]
  · rw [upd_other _ _ _ _ h]

theorem setInj_active (g : Fsrc) (f : Nat) (v : Bool) (d : Device) : ((setInj f v d).faults[g]).active = (d.faults[g]).active := by
  unfold setInj
  rw [updFault_faults]
  by_cases h : g = Fin.ofNat 2048 f
  · rw [h, upd_same]
  · rw [upd_other _ _ _ _ h]

theorem setInj_raisedCount (f g : Nat) (v : Bool) (d : Device) : raisedCount (setInj f v d) g = raisedCount d g := by
  have hc : ((setInj f v d).faults[Fin.ofNat 2048 g]).count = (d.faults[Fin.ofNat 2048 g]).count := setInj_count ..
  simp only [raisedCount, setInj_active, hc]

/-- Of the sources, what a lost codeword does besides its raise touches only that of a model's restart. -/
theorem ueState_count {g : Fsrc} (hg : g ≠ Fin.ofNat 2048 0x594) (k : Nat) (d : Device) : KeepsCount g d (ueState k d) := by
  refine if_cases (p := KeepsCount g d) ?_ (if_cases (p := KeepsCount g d) rfl (if_cases (p := KeepsCount g d) rfl rfl))
  unfold modelReinit
  exact congrArg FaultSt.count (raiseX_fault_other _ _ _ hg)

theorem ueRaise_count {k : Nat} {d : Device} (hc : colRuns d = true) :
    ((ueRaise k d).faults[Fin.ofNat 2048 (ueSource k)]).count = raisedCount d (ueSource k) := by
  have hraise (e : Device) (he : colRuns e = true) (hr : raisedCount e (ueSource k) = raisedCount d (ueSource k)) :
      ((ueState k (raise (ueSource k) e)).faults[Fin.ofNat 2048 (ueSource k)]).count = raisedCount d (ueSource k) :=
    (ueState_count (ueSource_ne_reinit k) k _).trans ((raise_count (ueSource_scope k) he).trans hr)
  unfold ueRaise
  refine (setInj_count ..).trans ((setInj_count ..).trans (hraise _ hc ?_))
  rw [setInj_raisedCount, setInj_raisedCount]

/-! ### A decoded codeword -/

theorem cwDecode_clean {scrub : Bool} {k : Nat} {d : Device} (h : cwErrs d k = (0, 0)) : cwDecode scrub k d = d := by
  have hw : cwWrong d k = 0 := by rw [cwWrong, h]; rfl
  rw [cwDecode, if_neg (by simp [cwBad, hw]), if_neg (by omega)]

/-- The device with a correction counted and its write-back requested (R466). -/
def corrected (k : Nat) (d : Device) : Device := arbRequest wport 0 (d.updMem fun m => { m with ceCnt := satInc m.ceCnt, fixing := m.fixing ++ [k] })

theorem cwDecode_one {scrub : Bool} {k : Nat} {d : Device} (h : cwWrong d k = 1) (hk : k ∉ d.memory.fixing) :
    cwDecode scrub k d = rowCorrected k (corrected k d) := by
  rw [cwDecode, if_neg (by simp [cwBad, h]), if_pos ⟨h, hk⟩]
  rfl

/-- The device with a lost codeword counted and its address kept (R468). -/
def lost (k : Nat) (known : List Nat) (d : Device) : Device := d.updMem fun m => { m with
  ueCnt := satInc m.ueCnt, ueAddr := BitVec.ofNat 20 (32 * k), ueValid := true, raised := known }

/-- The scrubber raises a lost codeword that it does not remember. -/
theorem cwDecode_lost {k : Nat} {d : Device} (h : 2 ≤ cwWrong d k) (hk : k ∉ d.memory.raised) :
    ∃ known, cwDecode true k d = ueRaise k (lost k known d) := by
  rw [cwDecode, if_pos (by simp [cwBad, h]), ueFound]
  simp only [hk, decide_false, Bool.false_eq_true, false_or, Bool.true_eq_false, and_false, if_false]
  exact ⟨_, rfl⟩

/-- The bytes of the memory, the counts of wrong codewords, where the scrubber stands and what is to be written back. -/
def scrubWords (m : MemSt) : Memory × Halfword × Halfword × Fin 32768 × List Nat := (m.mem, m.ceCnt, m.ueCnt, m.scrubAt, m.fixing)

theorem scrubWords_inj {m n : MemSt} (h : scrubWords m = scrubWords n) :
    m.mem = n.mem ∧ m.ceCnt = n.ceCnt ∧ m.ueCnt = n.ueCnt ∧ m.scrubAt = n.scrubAt ∧ m.fixing = n.fixing := by
  simpa only [scrubWords, Prod.mk.injEq] using h

theorem rowCorrected_words (k : Nat) (d : Device) : scrubWords (rowCorrected k d).memory = scrubWords d.memory := by
  have hr (f : Nat) (e : Device) : scrubWords (raise f e).memory = scrubWords e.memory := congrArg scrubWords ((raise_keeps f e).memory_eq rfl rfl rfl)
  have hrow (r : Nat × Nat) (e : Device) : scrubWords (remapRow r e).memory = scrubWords e.memory :=
    if_cases (p := fun x : Device => scrubWords x.memory = scrubWords e.memory) rfl
      (if_cases (p := fun x : Device => scrubWords x.memory = scrubWords e.memory) ((hr ..).trans rfl) rfl)
  exact if_cases (p := fun x : Device => scrubWords x.memory = scrubWords d.memory) ((hrow ..).trans rfl) rfl

/-! ### A step of the scrubber -/

/-- The codeword at which the scrubber stands takes upset symbols, and the scrubber moves on. -/
def scrubbed (n : Fin 36) (d : Device) : Device :=
  let k := d.memory.scrubAt.1
  let e := cwErrs d k
  (if n = 0 then d else d.updMem fun m => { m with errs := (k, (e.1, e.2 + n.1)) :: m.errs.filter fun x => decide (x.1 ≠ k) }).updMem fun m =>
    { m with scrubAt := m.scrubAt + 1, scrubPass := if k = 32767 then m.scrubPass + 1 else m.scrubPass }

/-- What a step of the scrubber reads: time has come, and the rest is as it was. -/
theorem scrubStep_decodes {d : Device} (n : Fin 36) (h : d.start.st = .run) :
    ∃ w : Device, w.clk.up = nextOf scrubTime d.clk.taken[5] d.clk.up ∧ w.memory = d.memory ∧ w.start = d.start ∧ w.faults = d.faults ∧
      scrubStep n d = cwDecode true d.memory.scrubAt.1 (scrubbed n w) := by
  have k := nextMultiple_keeps 5 scrubTime d
  have hm : (nextMultiple 5 scrubTime d).memory = d.memory := k.memory_eq rfl rfl rfl
  refine ⟨nextMultiple 5 scrubTime d, ?_, hm, k.start_eq rfl rfl rfl, k.parts .faults rfl, ?_⟩
  · change (waitUp _ d).clk.up = _
    rw [waitUp_up]
    exact Nat.max_eq_right (nextOf_bounds (by decide) _ _).1
  · rw [← hm]
    unfold scrubStep
    rw [if_neg (by rw [h]; decide)]
    rfl

theorem scrubbed_clean (w : Device) : scrubbed 0 w = w.updMem fun m =>
    { m with scrubAt := m.scrubAt + 1, scrubPass := if w.memory.scrubAt.1 = 32767 then m.scrubPass + 1 else m.scrubPass } := rfl

theorem cwErrs_congr {d e : Device} (h : e.memory.errs = d.memory.errs) (k : Nat) : cwErrs e k = cwErrs d k := by
  simp only [cwErrs, h]

theorem scrubbed_upset {n : Fin 36} {w : Device} (hn : n ≠ 0) (h : cwErrs w w.memory.scrubAt.1 = (0, 0)) :
    cwWrong (scrubbed n w) w.memory.scrubAt.1 = n.1 := by
  have he : (scrubbed n w).memory.errs = (w.memory.scrubAt.1, ((cwErrs w w.memory.scrubAt.1).1, (cwErrs w w.memory.scrubAt.1).2 + n.1)) ::
      w.memory.errs.filter fun x => decide (x.1 ≠ w.memory.scrubAt.1) := by
    unfold scrubbed
    simp only [if_neg hn]
    rfl
  rw [h] at he
  simp only [cwWrong, cwErrs, he, List.find?_cons, decide_true]
  omega

theorem scrubbed_memory (n : Fin 36) (w : Device) : ∃ l p, (scrubbed n w).memory = { w.memory with errs := l, scrubPass := p, scrubAt := w.memory.scrubAt + 1 } := by
  unfold scrubbed
  dsimp only
  split
  · exact ⟨_, _, rfl⟩
  · exact ⟨_, _, rfl⟩

theorem scrubbed_start (n : Fin 36) (w : Device) : (scrubbed n w).start = w.start ∧ (scrubbed n w).faults = w.faults := by
  unfold scrubbed
  dsimp only
  split
  · exact ⟨rfl, rfl⟩
  · exact ⟨rfl, rfl⟩

/-! ### A copied row -/

/-- The memory with the copied row's address redirected, and the next copy to begin (R469). -/
def Remapped (b r sp : Nat) (rest : List (Nat × Nat × Nat)) (d : Device) (m : MemSt) : Prop :=
  m.remap = (b, logicalRow d b r, sp) :: d.memory.remap.filter (fun x => !(decide (x.1 = b) && decide (x.2.1 = logicalRow d b r))) ∧
    m.copying = rest ∧ m.copied = 0 ∧ m.mem = d.memory.mem

theorem rowRemapDone_copied {d : Device} {b r sp : Nat} {rest : List (Nat × Nat × Nat)} (hc : d.memory.copying = (b, r, sp) :: rest)
    (h8 : 8 ≤ d.memory.copied) :
    ∃ e, Remapped b r sp rest d e.memory ∧ e.col = d.col ∧ rowRemapDone d = logEvent 0x0706 b r sp e := by
  unfold rowRemapDone
  simp only [hc, if_pos h8]
  refine ⟨_, ?_, ?_, rfl⟩
  · split <;> exact ⟨rfl, rfl, rfl, rfl⟩
  · split <;> rfl

theorem rowRemapDone_wait {d : Device} (h : d.memory.copied < 8) : rowRemapDone d = d := by
  unfold rowRemapDone
  split
  · exact if_neg (by omega)
  · rfl

theorem logicalRow_unmapped {d : Device} {b : Nat} (h : ∀ x ∈ d.memory.remap, x.1 ≠ b) (r : Nat) : logicalRow d b r = r := by
  have hn : d.memory.remap.find? (fun x => decide (x.1 = b) && decide (x.2.2 = r)) = none := by
    rw [List.find?_eq_none]
    intro x hx
    simp [h x hx]
  rw [logicalRow, hn]

theorem rowOf_remapped {d e : Device} {b r sp k : Nat} {rest : List (Nat × Nat × Nat)} (hm : Remapped b r sp rest d e.memory)
    (h : logicalRow d b r = r) (hk : k / 4096 = b) (hk' : k % 4096 / 8 = r) : rowOf e k = (b, sp) := by
  obtain ⟨hm, -, -, -⟩ := hm
  simp only [rowOf, hm, h, List.find?_cons, hk, hk', decide_true, Bool.and_self]

theorem rowOf_congr {d e : Device} (h : e.memory.remap = d.memory.remap) (k : Nat) : rowOf e k = rowOf d k := by
  simp only [rowOf, h]

theorem correctionExpiry_due {b : Fin 8} {r : Fin 576} {x : (Nat × Nat) × (Nat × Nat)} {d : Device}
    (h : d.memory.rowCorr.find? (fun y => y.1 = (b.1, r.1)) = some x) :
    ∃ w : Device, w.clk.up = max d.clk.up (x.2.2 + day) ∧ w.memory = d.memory ∧
      correctionExpiry b r d = w.updMem fun m => { m with rowCorr := m.rowCorr.filter fun x => decide (x.1 ≠ (b.1, r.1)) } := by
  refine ⟨waitUp (x.2.2 + day) d, waitUp_up .., waitUp_memory .., ?_⟩
  simp only [correctionExpiry, h]

/-- Settles O47: a step decodes the codeword at which the scrubber stands, and a copied row is redirected. -/
theorem scrubber : Obligations.Scrubber := by
  unfold Obligations.Scrubber
  refine ⟨fun n s hc h => ?_, fun s hc hr he => ?_, fun s hc hr he hk => ?_, fun n s hc hr hn he hk => ?_, fun b r sp rest s hc h8 hb hq => ?_,
    fun s h => ⟨_, rfl, congrArg drive (rowRemapDone_wait h)⟩, fun b r x s hc hf => ?_⟩
  · exact ⟨_, execScrubStep_calm n s hc, congrArg drive (if_pos h)⟩
  · obtain ⟨t, ht, hd⟩ := done_next (scrubStep 0) s
    obtain ⟨w, hup, hmem, -, hf, hs⟩ := scrubStep_decodes 0 hr
    rw [cwDecode_clean (d := scrubbed 0 w) ((cwErrs_congr (d := w) rfl _).trans ((cwErrs_congr (d := s.dev) (e := w) (congrArg MemSt.errs hmem) _).trans he)), scrubbed_clean] at hs
    refine ⟨t, (execScrubStep_calm 0 s hc).trans ht, ?_⟩
    rw [hd, hs, drive_clk, drive_memory, drive_faults, ← hmem]
    exact ⟨hup, rfl, rfl, rfl, rfl, hf⟩
  · obtain ⟨t, ht, hd⟩ := done_next (scrubStep 1) s
    obtain ⟨w, -, hmem, -, -, hs⟩ := scrubStep_decodes 1 hr
    rw [← hmem] at he hk hs ⊢
    have hwr := scrubbed_upset (n := 1) (by decide) ((cwErrs_congr (d := s.dev) (congrArg MemSt.errs hmem) _).trans he)
    obtain ⟨l, p, hsm⟩ := scrubbed_memory 1 w
    rw [cwDecode_one hwr (by rw [hsm]; exact hk)] at hs
    have hw := rowCorrected_words w.memory.scrubAt.1 (corrected w.memory.scrubAt.1 (scrubbed 1 w))
    have hcm : (corrected w.memory.scrubAt.1 (scrubbed 1 w)).memory = { w.memory with
        errs := l, scrubPass := p, scrubAt := w.memory.scrubAt + 1, ceCnt := satInc w.memory.ceCnt, fixing := w.memory.fixing ++ [w.memory.scrubAt.1] } := by
      rw [corrected, arbRequest_memory, updMem_memory, hsm]
    rw [hcm] at hw
    obtain ⟨h1, h2, h3, h4, h5⟩ := scrubWords_inj hw
    refine ⟨t, (execScrubStep_calm 1 s hc).trans ht, ?_⟩
    rw [hd, hs, drive_memory, drive_arbs]
    refine ⟨h4, h1, h2, h3, by rw [h5]; exact List.mem_append_right _ List.mem_cons_self, ?_⟩
    exact (rowCorrected_asks ..).waits 0 (arbRequest_pending ..)
  · obtain ⟨t, ht, hd⟩ := done_next (scrubStep n) s
    obtain ⟨w, -, hmem, hst, hfl, hs⟩ := scrubStep_decodes n hr
    have hn0 : n ≠ 0 := fun h => by rw [h] at hn; exact absurd hn (by decide)
    have hwr : cwWrong (scrubbed n w) s.dev.memory.scrubAt.1 = n.1 := by
      rw [← hmem] at he ⊢
      exact scrubbed_upset hn0 ((cwErrs_congr (congrArg MemSt.errs hmem) _).trans he)
    obtain ⟨l, p, hsm⟩ := scrubbed_memory n w
    rw [hmem] at hsm
    obtain ⟨hss, hsf⟩ := scrubbed_start n w
    obtain ⟨known, hlost⟩ := cwDecode_lost (d := scrubbed n w) (by rw [hwr]; exact hn) (by rw [hsm]; exact hk)
    rw [hlost] at hs
    have hcol : colRuns (lost s.dev.memory.scrubAt.1 known (scrubbed n w)) = true := colRuns_of_run (by rw [lost, updMem_start, hss, hst, hr])
    have hmk : (ueRaise s.dev.memory.scrubAt.1 (lost s.dev.memory.scrubAt.1 known (scrubbed n w))).memory =
        (lost s.dev.memory.scrubAt.1 known (scrubbed n w)).memory := (ueRaise_keeps ..).memory_eq rfl rfl rfl
    have hrc : raisedCount (lost s.dev.memory.scrubAt.1 known (scrubbed n w)) (ueSource s.dev.memory.scrubAt.1) = raisedCount s.dev (ueSource s.dev.memory.scrubAt.1) := by
      rw [raisedCount, lost, updMem_faults, hsf, hfl]
      rfl
    refine ⟨t, (execScrubStep_calm n s hc).trans ht, ?_⟩
    rw [hd, hs, drive_memory, drive_faults, hmk, lost, updMem_memory, hsm]
    exact ⟨rfl, rfl, rfl, rfl, rfl, (ueRaise_count hcol).trans hrc⟩
  · obtain ⟨t, ht, hd⟩ := done_next rowRemapDone s
    obtain ⟨e, hm, hcol, hs⟩ := rowRemapDone_copied hc h8
    have hlm : (logEvent 0x0706 b r sp e).memory = e.memory := (logEvent_keeps ..).memory_eq rfl rfl rfl
    refine ⟨t, ht, ?_⟩
    rw [hd, hs, drive_memory, drive_col, hlm]
    refine ⟨hm.2.1, hm.2.2.1, fun k hk hk' => ?_, hm.2.2.2, ?_⟩
    · exact (rowOf_congr (congrArg MemSt.remap hlm) k).trans (rowOf_remapped hm (logicalRow_unmapped hb r) hk hk')
    · rw [← hcol] at hq ⊢
      exact logPush_length _ _ _ _ _ _ _ hq
  · obtain ⟨t, ht, hd⟩ := done_next (correctionExpiry b r) s
    obtain ⟨w, hup, hmem, hs⟩ := correctionExpiry_due hf
    refine ⟨t, (execCorrectionWindowExpiry_calm b r s hc).trans ht, ?_⟩
    rw [hd, hs, drive_clk, drive_memory, updMem_clk, updMem_memory, ← hmem]
    refine ⟨hup, ?_, rfl⟩
    rw [List.find?_eq_none]
    intro y hy
    simpa using (List.mem_filter.mp hy).2

end Sys2Proof.Machine

/-! ## References, membership, leader and overlay changes (04, Reference and holdover, Joining and leaving, Losing the leader; 03, Switching) -/

namespace Sys2Proof.Machine

/-- The clocks of a device after an operation that keeps them. -/
theorem drive_clk_of_keeps {S : List Part} {d e : Device} (k : Keeps S d e) (h : S.contains .clk = false := by rfl) : (drive e).clk = d.clk := by
  rw [drive_clk]
  exact k.parts .clk h

theorem Keeps.cvn_eq {S : List Part} {d e : Device} (k : Keeps S d e) (h : S.contains .cvn = false := by rfl) : e.cvn = d.cvn := k.parts .cvn h

theorem Keeps.mode_eq {S : List Part} {d e : Device} (k : Keeps S d e) (h : S.contains .mode = false := by rfl) : e.mode = d.mode := k.parts .mode h

theorem Keeps.clk_eq {S : List Part} {d e : Device} (k : Keeps S d e) (h : S.contains .clk = false := by rfl) : e.clk = d.clk := k.parts .clk h

theorem usesXref_source {d : Device} (h : d.cvn.source = true) : usesXref d = true := by simp [usesXref, h]

theorem clockInvalid_taking {d : Device} (ht : takesTime d = true) (hh : d.cvn.timeState ≠ .hold) :
    (clockInvalid d).cvn = { d.cvn with timeState := .hold, holdover := true, refSrc := 2, badRun := 0, goodRun := 0 } ∧ (clockInvalid d).clk = d.clk := by
  have h : ¬ (takesTime d = false ∨ d.cvn.timeState = .hold) := by simp [ht, hh]
  rw [clockInvalid, if_neg h]
  refine ⟨?_, ?_⟩
  · rw [(aloneMode_keeps _).cvn_eq, (raise_keeps ..).cvn_eq]
    rfl
  · rw [(aloneMode_keeps _).clk_eq, (raise_keeps ..).clk_eq]
    rfl

/-- Settles O18: each reference event writes the words of its own reference, and no clock. -/
theorem references : Obligations.References := by
  unfold Obligations.References
  refine ⟨fun s h => ?_, fun s h => ?_, fun s ht hh => ?_, fun s ht hh => ?_⟩
  · obtain ⟨t, hn, hd⟩ := done_next xrefLost s
    refine ⟨t, hn, ?_⟩
    rw [hd, drive_cvn, drive_clk, xrefLost, updCvn_cvn, if_pos (usesXref_source h)]
    exact ⟨rfl, rfl, rfl, rfl⟩
  · obtain ⟨t, hn, hd⟩ := done_next xrefRestored s
    refine ⟨t, hn, ?_⟩
    rw [hd, drive_cvn, drive_clk, xrefRestored, updCvn_cvn, if_pos (usesXref_source h)]
    exact ⟨rfl, rfl, rfl, rfl⟩
  · obtain ⟨t, hn, hd⟩ := done_next clockInvalid s
    obtain ⟨hc, hk⟩ := clockInvalid_taking ht hh
    refine ⟨t, hn, ?_⟩
    rw [hd, drive_cvn, drive_clk, hc, hk]
    exact ⟨rfl, rfl, rfl, rfl⟩
  · obtain ⟨t, hn, hd⟩ := done_next clockValid s
    refine ⟨t, hn, ?_⟩
    rw [hd, drive_cvn, drive_clk, clockValid, if_pos ⟨ht, hh⟩]
    exact ⟨rfl, rfl, rfl, rfl⟩

/-! ### Frames on the ring -/

/-- What a repeater sends on stands in the words of its output alone. -/
theorem forward_cvn (f : FrameRx) (bs : List Byte) (d : Device) :
    ∃ m c o, (forward f bs d).cvn = { d.cvn with sent := m, chips := c, outAt := o } := by
  unfold forward
  split
  · exact ⟨_, _, _, rfl⟩
  · exact ⟨_, _, _, rfl⟩

theorem forward_sent {f : FrameRx} {bs : List Byte} {d : Device} (hs : d.cvn.source = false) (hr : d.start.accRails = 0) :
    (forward f bs d).cvn.sent = [bs] ∧ (forward f bs d).cvn.outAt = some (f.arrival + hop) := by
  rw [forward, if_neg (by simp [hs, hr])]
  exact ⟨rfl, rfl⟩

theorem forward_off {f : FrameRx} {bs : List Byte} {d : Device} (h : d.cvn.source = true ∨ d.start.accRails ≠ 0) : forward f bs d = d := if_pos h

/-- A repeated frame: what a ROLL frame finds. -/
def rollPassed (f : FrameRx) (d : Device) : Device := if ownSlotTaken f d then d else forward f f.bytes d

theorem rollPassed_keeps (f : FrameRx) (d : Device) : Keeps [.cvn] d (rollPassed f d) := .ite (.refl ..) (forward_keeps ..)

theorem rollPassed_cvn (f : FrameRx) (d : Device) : ∃ m c o, (rollPassed f d).cvn = { d.cvn with sent := m, chips := c, outAt := o } :=
  if_cases (p := fun x : Device => ∃ m c o, x.cvn = { d.cvn with sent := m, chips := c, outAt := o }) ⟨_, _, _, rfl⟩ (forward_cvn ..)

theorem rollFrameReceive_eq {f : FrameRx} {p tl : List Byte} {d : Device} (hr : d.start.st ≠ .reset) (hi : d.start.st ≠ .init)
    (hp : framePayload 4 10 0 f.bytes = some (p, tl)) (hk : ¬ (fld p 0 1 = 0 ∨ 8 < fld p 0 1)) :
    rollFrameReceive f d = if d.cvn.source then rollSource (fld p 0 1) (fld p 1 1 % 16) (fld p 1 1 / 16 % 4) (BitVec.ofNat 32 (fld p 2 4)) (rollPassed f d)
      else rollDevice (fld p 0 1) (fld p 1 1 % 16) (BitVec.ofNat 32 (fld p 2 4)) (BitVec.ofNat 32 (fld p 6 4)) (rollPassed f d) := by
  have hst : (rollPassed f d).start = d.start := (rollPassed_keeps f d).start_eq rfl rfl rfl
  have hso : (rollPassed f d).cvn.source = d.cvn.source := by
    obtain ⟨m, c, o, h⟩ := rollPassed_cvn f d
    rw [h]
  unfold rollFrameReceive
  change (if (rollPassed f d).start.st = .reset ∨ (rollPassed f d).start.st = .init then rollPassed f d else _) = _
  rw [if_neg (by rw [hst]; simp [hr, hi]), hp]
  simp only [if_neg hk]
  change (if (rollPassed f d).cvn.source = true then _ else _) = _
  rw [hso]
  rfl

/-! ### Joining -/

theorem resolve_start (r : BitVec 3) (d : Device) : (resolve r d).start = { d.start with joinResult := r, resolvedAt := some d.loc } :=
  (launchAll_keeps ..).start_eq rfl rfl rfl

theorem resolve_cvn (r : BitVec 3) (d : Device) : (resolve r d).cvn = d.cvn := (resolve_keeps ..).cvn_eq

theorem rollDevice_accept {id : Nat} {arg : Word} {d : Device} (hid : id = ownId d) (hj : joining d = true) :
    rollDevice 4 id Config.uid arg d = accepted d := by
  rw [rollDevice, if_neg (by decide), if_pos hid]
  simp only [if_pos hj, if_true]

theorem accepted_joining {d : Device} (ha : d.cvn.role ≠ .alone) (hst : d.start.st = .join) (hr : d.start.resolvedAt = none) :
    (accepted d).start = { d.start with joinResult := 2, resolvedAt := some d.loc } ∧ (accepted d).cvn.member = true ∧ (accepted d).cvn.refused = false := by
  let x := d.updCvn fun c => { c with member := true, refused := false, joinTried := none, awaiting := false }
  let w := x.updHalt fun h => if isAlone x then h else { h with ran := false, accepted := false }
  have hal : ¬ isAlone w = true := fun h => ha (of_decide_eq_true h)
  have he : accepted d = resolve 2 w := (if_neg hal).trans (if_pos ⟨hst, hr⟩)
  rw [he, resolve_start, resolve_cvn]
  exact ⟨rfl, rfl, rfl⟩

/-- A device that runs alone has that role, drives no time, and is refused or not as it was. -/
theorem runAlone_cvn (d : Device) : (runAlone d).cvn.role = .alone ∧ (runAlone d).cvn.source = false ∧ (runAlone d).cvn.refused = d.cvn.refused ∧
    (runAlone d).cvn.rivalLeader = d.cvn.rivalLeader := by
  let P (e : Device) : Prop := e.cvn.role = .alone ∧ e.cvn.source = false ∧ e.cvn.refused = d.cvn.refused ∧ e.cvn.rivalLeader = d.cvn.rivalLeader
  have hk {S : List Part} {e f : Device} (k : Keeps S e f) (h : P e) (hs : S.contains .cvn = false) : P f := by
    simp only [P, k.cvn_eq hs]
    exact h
  unfold runAlone
  refine hk (aloneMode_keeps _) (if_cases (p := P) (hk ((aloneHalt_keeps _).after (dropHalt_keeps _) rfl) ?_ rfl) ?_) rfl
  · exact if_cases (p := P) ⟨rfl, rfl, rfl, rfl⟩ ⟨rfl, rfl, rfl, rfl⟩
  · exact if_cases (p := P) ⟨rfl, rfl, rfl, rfl⟩ ⟨rfl, rfl, rfl, rfl⟩

theorem rollDevice_refused {id : Nat} {uid arg : Word} {d : Device} (hid : id = ownId d) (hu : uid ≠ Config.uid) (hr : d.cvn.refused = false) :
    rollDevice 4 id uid arg d = refusedRoll Config.uid d := by
  rw [rollDevice, if_neg (by decide), if_pos hid]
  simp only [if_neg hu, hr, or_true, if_true]

theorem refusedRoll_joining {uid : Word} {d : Device} (ha : d.cvn.role ≠ .alone) (hst : d.start.st = .join) (hr : d.start.resolvedAt = none) :
    (refusedRoll uid d).cvn.refused = true ∧ (refusedRoll uid d).start.joinResult = 3 ∧ (refusedRoll uid d).cvn.role = .alone ∧
      (refusedRoll uid d).start.resolvedAt = some d.clk.loc := by
  let w := d.updCvn fun c => { c with refused := true, joinTried := some d.loc, awaiting := false }
  let e := logEvent 0x0303 (ownId w) uid.toNat 0 (runAlone w)
  have hal : ¬ isAlone w = true := by simp only [isAlone, decide_eq_true_eq]; exact ha
  have hk : Keeps [.mode, .arbs, .cvn, .halt, .mods, .seqs, .log] w e := (logEvent_keeps ..).after ((runAlone_keeps w).mono rfl) rfl
  have hst' : e.start = w.start := hk.start_eq rfl rfl rfl
  obtain ⟨h1, -, h2, -⟩ := runAlone_cvn w
  have hcvn : e.cvn = (runAlone w).cvn := (logEvent_keeps ..).cvn_eq
  have he : refusedRoll uid d = resolve 3 e := by
    unfold refusedRoll
    change (if (logEvent 0x0303 (ownId w) uid.toNat 0 (if isAlone w then w else runAlone w)).start.st = .join ∧ _ then _ else _) = _
    rw [if_neg hal]
    exact if_pos (show e.start.st = .join ∧ e.start.resolvedAt = none from by rw [hst']; exact ⟨hst, hr⟩)
  rw [he, resolve_cvn, resolve_start, hcvn, h1, h2]
  refine ⟨rfl, rfl, rfl, ?_⟩
  exact congrArg (fun c : Clocks => some c.loc) hk.clk_eq

/-! ### The time source and its members -/

theorem addMember_members {id role : Nat} {uid : Word} {d : Device} (h : id < 16) :
    (addMember id role uid d).cvn.members = d.cvn.members ||| BitVec.ofNat 16 (2 ^ id) ∧ (addMember id role uid d).cvn.answers = d.cvn.answers := by
  have hn : (d.when (!bitOf d.cvn.members.toNat id) (newEntry id)).cvn = d.cvn := by
    unfold Device.when
    exact if_cases (p := fun x : Device => x.cvn = d.cvn) rfl rfl
  unfold addMember
  rw [updCvn_cvn, hn]
  exact ⟨congrArg (fun n => d.cvn.members ||| BitVec.ofNat 16 (2 ^ n)) (Nat.mod_eq_of_lt h), rfl⟩

theorem onJoin_new {id role : Nat} {uid : Word} {d : Device} (hid : id < 16) (h : bitOf d.cvn.members.toNat id = false) :
    (onJoin id role uid d).cvn.members = d.cvn.members ||| BitVec.ofNat 16 (2 ^ id) ∧
      (onJoin id role uid d).cvn.answers = d.cvn.answers ++ [(⟨4, id, role, uid, 0⟩, 3)] := by
  obtain ⟨h1, h2⟩ := addMember_members (role := role) (uid := uid) (d := d) hid
  rw [onJoin, if_neg (by simp [h]), updCvn_cvn]
  exact ⟨h1, congrArg (· ++ _) h2⟩

theorem rollPush_cvn (k arg : Nat) (d : Device) : (rollPush k arg d).cvn.rollQ =
    d.cvn.rollQ ++ [⟨k, ownId d, strapRole d.start.straps, Config.uid, BitVec.ofNat 32 arg⟩] ∧ (rollPush k arg d).cvn.joinTried = d.cvn.joinTried := ⟨rfl, rfl⟩

theorem joinRetry_due {u : Nat} {d : Device} (hu : d.cvn.joinTried = some u) (hr : d.start.st = .run) (hm : d.cvn.member = false) (hs : d.cvn.source = false) :
    (joinRetry d).clk.loc = max d.clk.loc (u + (if d.cvn.refused then 10 else 1) * sec) ∧ (joinRetry d).cvn.joinTried = some (joinRetry d).clk.loc ∧
      (joinRetry d).cvn.rollQ = d.cvn.rollQ ++ [⟨1, ownId d, strapRole d.start.straps, Config.uid, 0⟩] := by
  obtain ⟨w, hw⟩ : ∃ w, waitLoc (u + (if d.cvn.refused then 10 else 1) * sec) d = w := ⟨_, rfl⟩
  have hc : w.cvn = d.cvn := by rw [← hw, waitLoc_cvn]
  have hst : w.start = d.start := by rw [← hw, waitLoc_start]
  have he : joinRetry d = rollPush 1 0 (w.updCvn fun c => { c with joinTried := some w.loc }) := by
    unfold joinRetry
    simp only [hu]
    rw [if_pos ⟨hr, hm, hs⟩, hw]
  rw [he]
  refine ⟨?_, rfl, ?_⟩
  · change w.clk.loc = _
    rw [← hw, waitLoc_loc]
  · rw [(rollPush_cvn ..).1]
    simp only [updCvn_cvn, updCvn_start, ownId, hst, hc]
    rfl

theorem nextLocal_loc {j : Fin 8} {p : Nat} (hp : 0 < p) (d : Device) : (nextLocal j p d).clk.loc = nextOf p d.clk.taken[j] d.clk.loc := by
  change (waitLoc _ d).clk.loc = _
  rw [waitLoc_loc]
  exact Nat.max_eq_right (nextOf_bounds hp _ _).1

theorem presentTimer_due {d : Device} (hm : d.cvn.member = true) (hs : d.cvn.source = false) (hr : d.start.st = .run) :
    (presentTimer d).clk.loc = nextOf (100 * ms) d.clk.taken[7] d.clk.loc ∧
      (presentTimer d).cvn.rollQ = d.cvn.rollQ ++ [⟨2, ownId d, strapRole d.start.straps, Config.uid, 0⟩] := by
  have k := nextLocal_keeps 7 (100 * ms) d
  have hl := nextLocal_loc (j := 7) (p := 100 * ms) (by decide) d
  obtain ⟨w, hw⟩ : ∃ w, nextLocal 7 (100 * ms) d = w := ⟨_, rfl⟩
  rw [hw] at k hl
  have he : presentTimer d = rollPush 2 0 w := by rw [presentTimer, if_pos ⟨hm, hs, hr⟩, hw]
  rw [he]
  refine ⟨hl, ?_⟩
  rw [(rollPush_cvn ..).1, k.cvn_eq, ownId, k.start_eq rfl rfl rfl]
  rfl

theorem memberDrop_due {id : Fin 16} {d : Device} (hs : d.cvn.source = true) (hn : id.1 ≠ ownId d) (hb : bitOf d.cvn.members.toNat id.1 = true) :
    (memberDrop id d).clk.loc = max d.clk.loc (d.cvn.presentAt[id] + sec) ∧
      (memberDrop id d).cvn.members = d.cvn.members &&& ~~~BitVec.ofNat 16 (2 ^ id.1) ∧
      (memberDrop id d).cvn.dropped = d.cvn.dropped ||| BitVec.ofNat 16 (2 ^ id.1) := by
  obtain ⟨w, hw⟩ : ∃ w, waitLoc (d.cvn.presentAt[id] + sec) d = w := ⟨_, rfl⟩
  have hc : w.cvn = d.cvn := by rw [← hw, waitLoc_cvn]
  have he : memberDrop id d = dropMember id.1 1 w := by rw [memberDrop, if_pos ⟨hs, hn, hb⟩, hw]
  rw [he, dropMember, if_pos (by rw [hc]; exact hb), updCvn_cvn, updCvn_clk, hc]
  refine ⟨?_, rfl, rfl⟩
  rw [← hw, waitLoc_loc]

/-- Settles O19: a roll frame acts by its kind, on the member or on the time source, and the timers of membership queue their frames. -/
theorem membership : Obligations.Membership := by
  unfold Obligations.Membership
  refine ⟨fun f p tl s ho hst hp hk hs hid hj hm hr ha => ?_, fun f p tl s ho hr hi hp hk hs hb => ?_, fun u s hc hu hr hm hs => ?_,
    fun s hc hm hs hr => ?_, fun id s hc hs hn hb => ?_⟩
  · obtain ⟨t, hn, hd⟩ := done_next (rollFrameReceive f) s
    rw [rollFrameReceive_eq (by rw [hst]; decide) (by rw [hst]; decide) hp (by rw [hk]; decide), if_neg (by rw [hs]; exact Bool.false_ne_true), hk] at hd
    have hke := rollPassed_keeps f s.dev
    obtain ⟨m, c, o, hcv⟩ := rollPassed_cvn f s.dev
    have hst' := hke.start_eq rfl rfl rfl
    have hclk := hke.clk_eq rfl
    generalize rollPassed f s.dev = e at hd hcv hst' hclk
    have hid' : fld p 1 1 % 16 = ownId e := by rw [ownId, hst']; exact hid
    have har : e.cvn.role ≠ .alone := by rw [hcv]; exact ha
    have hes : e.start.st = .join := by rw [hst']; exact hst
    have her : e.start.resolvedAt = none := by rw [hst']; exact hr
    refine ⟨t, hn, fun hu => ?_, fun hu hf => ?_⟩
    · rw [hu, rollDevice_accept hid' (by rw [joining, hcv]; simp [hj, hm])] at hd
      obtain ⟨h1, h2, h3⟩ := accepted_joining har hes her
      rw [hd, drive_start, drive_cvn, h1, h2, h3]
      exact ⟨hes, rfl, rfl, rfl, congrArg (fun c : Clocks => some c.loc) hclk⟩
    · rw [rollDevice_refused hid' hu (by rw [hcv]; exact hf)] at hd
      obtain ⟨h1, h2, h3, h4⟩ := refusedRoll_joining (uid := Config.uid) har hes her
      rw [hd, drive_start, drive_cvn]
      exact ⟨h1, h2, h3, h4.trans (congrArg (fun c : Clocks => some c.loc) hclk)⟩
  · obtain ⟨t, hn, hd⟩ := done_next (rollFrameReceive f) s
    rw [rollFrameReceive_eq hr hi hp (by rw [hk]; decide), if_pos hs, hk] at hd
    obtain ⟨m, c, o, hcv⟩ := rollPassed_cvn f s.dev
    obtain ⟨h1, h2⟩ := onJoin_new (id := fld p 1 1 % 16) (role := fld p 1 1 / 16 % 4) (uid := BitVec.ofNat 32 (fld p 2 4)) (d := rollPassed f s.dev)
      (Nat.mod_lt _ (by decide)) (by rw [hcv]; exact hb)
    refine ⟨t, hn, ?_⟩
    rw [hd, drive_cvn]
    change (onJoin _ _ _ _).cvn.members = _ ∧ (onJoin _ _ _ _).cvn.answers = _
    rw [h1, h2, hcv]
    exact ⟨rfl, rfl⟩
  · obtain ⟨t, hn, hd⟩ := done_next joinRetry s
    refine ⟨t, (execJoinRetryTimer_calm s hc).trans hn, ?_⟩
    rw [hd, drive_clk, drive_cvn]
    exact joinRetry_due hu hr hm hs
  · obtain ⟨t, hn, hd⟩ := done_next presentTimer s
    refine ⟨t, (execPresentTimer_calm s hc).trans hn, ?_⟩
    rw [hd, drive_clk, drive_cvn]
    exact presentTimer_due hm hs hr
  · obtain ⟨t, ht, hd⟩ := done_next (memberDrop id) s
    refine ⟨t, (execMemberDropTimeout_calm id s hc).trans ht, ?_⟩
    rw [hd, drive_clk, drive_cvn]
    exact memberDrop_due hs hn hb

end Sys2Proof.Machine

/-! ## Overlay changes (03, Switching a caravan at an effective halt) and loss of the leader (04, Losing the leader) -/

namespace Sys2Proof.Machine

/-! ### Overlay changes -/

/-- The overlay change in progress, without what a check leaves: the words that only the proposals and answers write. -/
theorem overlayChecked_accepted {r : CheckRes} (h : r.reason = 0) (d : Device) : (overlayChecked r d).mode = d.mode := by
  have hr : Keeps [.check] d (refusedInRun 3 r (setDetail 3 r d)) := by
    rw [refusedInRun, if_neg (by simp [h])]
    exact setDetail_keeps ..
  rw [overlayChecked]
  simp only [h, if_true]
  exact hr.mode_eq

theorem overlayChecked_refused {r : CheckRes} (h : r.reason ≠ 0) (d : Device) : (overlayChecked r d).mode =
    { d.mode with reason := BitVec.ofNat 8 r.reason, refusals := satInc8 d.mode.refusals } := by
  have hr : (refusedInRun 3 r (setDetail 3 r d)).mode = d.mode := ((refusedInRun_keeps ..).after ((setDetail_keeps ..).mono rfl) rfl :
    Keeps [.check, .arbs, .log, .alert] d (refusedInRun 3 r (setDetail 3 r d))).mode_eq
  rw [overlayChecked]
  simp only [if_neg h, modeRefuse, updMode_mode, hr]

theorem leaderCheckDone_accepted {v : BitVec 4} {d : Device} (hv : d.mode.leaderCheck = some v) (h : (checkOverlay d v.toNat).reason = 0) :
    (leaderCheckDone d).mode = { d.mode with
      leaderCheck := none, phase := 1, pending := v, proposedAt := none
      acc := (leaderCheckDone d).mode.acc, ref := 0 } := by
  unfold leaderCheckDone
  simp only [hv, h, ne_eq, not_true_eq_false, if_false, updMode_mode, overlayChecked_accepted h]

theorem leaderCheckDone_refused {v : BitVec 4} {d : Device} (hv : d.mode.leaderCheck = some v) (h : (checkOverlay d v.toNat).reason ≠ 0) :
    (leaderCheckDone d).mode = { d.mode with
      leaderCheck := none, blocked := true, reason := BitVec.ofNat 8 (checkOverlay d v.toNat).reason, refusals := satInc8 d.mode.refusals } := by
  unfold leaderCheckDone
  simp only [hv, if_pos h, updMode_mode, overlayChecked_refused h]

theorem memberCheckDone_mode {v : BitVec 4} {d : Device} (hv : d.mode.memberCheck = some v) :
    (memberCheckDone d).mode.memberCheck = none ∧ (memberCheckDone d).mode.active = d.mode.active ∧
      (memberCheckDone d).mode.answer = some (v, decide ((checkOverlay d v.toNat).reason = 0)) := by
  unfold memberCheckDone
  simp only [hv]
  by_cases h : (checkOverlay d v.toNat).reason = 0
  · rw [overlayChecked_accepted h]
    exact ⟨rfl, rfl, rfl⟩
  · rw [overlayChecked_refused h]
    exact ⟨rfl, rfl, rfl⟩

theorem proposeTimeout_due {u : Nat} {d : Device} (hp : d.mode.phase = 1) (hu : d.mode.proposedAt = some u) :
    proposeTimeout d = modeCancel (waitLoc (u + 100 * ms) d) := by
  simp only [proposeTimeout, hp, hu]
  rfl

theorem disagreeTimer_due {u : Nat} {d : Device} (hu : d.mode.disagreeSince = some u) (hp : pinsDiffer d = true) (hd : d.mode.disagreeDone = false) :
    ∃ w : Device, w.clk.up = max d.clk.up (u + sec) ∧ w.mode = d.mode ∧ ∃ n, disagreeTimer d =
      logEvent 0x0203 1 n 0 (w.updMode fun m => { m with disagree := true, disagreeDone := true }) := by
  refine ⟨waitUp (u + sec) d, waitUp_up .., waitUp_mode .., (caravanOvl d).toNat, ?_⟩
  simp only [disagreeTimer, hu, hd, hp, and_self, if_true]

/-- A MODE frame acts on a member that has not left its caravan (R137). -/
theorem modeFrameReceive_member {f : FrameRx} {p tl : List Byte} {d : Device} (hp : framePayload 3 6 8 f.bytes = some (p, tl))
    (hk : ¬ 3 < fld p 0 1) (hr : d.start.st = .run) (ha : d.cvn.role ≠ .alone) (hm : d.cvn.member = true) (hs : d.cvn.source = false) :
    modeFrameReceive f d = modeMember (fld p 0 1) (BitVec.ofNat 4 (fld p 1 1)) (BitVec.ofNat 32 (fld p 2 4)) f tl (forward f f.bytes d) := by
  have hst : (forward f f.bytes d).start = d.start := (forward_keeps ..).start_eq rfl rfl rfl
  obtain ⟨m, c, o, hc⟩ := forward_cvn f f.bytes d
  have h1 : ¬ ((forward f f.bytes d).start.st = .reset ∨ (forward f f.bytes d).start.st = .init) := by rw [hst, hr]; decide
  have h2 : ¬ ((forward f f.bytes d).start.st ≠ .run ∨ isAlone (forward f f.bytes d) = true ∨ (forward f f.bytes d).cvn.member = false) := by
    rw [hst, isAlone, hc]
    simp [hr, ha, hm]
  have h3 : ¬ (forward f f.bytes d).cvn.source = true := by rw [hc]; simp [hs]
  unfold modeFrameReceive
  simp only [if_neg h1, hp, if_neg hk, if_neg h2, if_neg h3]

/-- Settles O21: each step of a change writes its own words of the change in progress, and none the active overlay. -/
theorem overlayChange : Obligations.OverlayChange := by
  unfold Obligations.OverlayChange
  refine ⟨fun v s hv hl hn hp hc hb => ?_, fun v s hv h => ?_, fun v s hv h => ?_, fun v s hv => ?_, fun u s hc hp hu => ?_,
    fun u s hc hu hp hd => ?_, fun f p tl s hf hp hk hr ha hm hs => ?_, fun f p tl v ok s hf hp hk hr ha hm hs hw hv hacc => ?_⟩
  · refine ⟨_, rfl, ?_⟩
    have h : overlayPropose s.dev = s.dev.updMode fun m => { m with leaderCheck := some v } := by
      simp only [overlayPropose, hv]
      exact if_pos ⟨hl, hn, hp, hc, hb⟩
    exact congrArg drive h
  · obtain ⟨t, ht, hd⟩ := done_next leaderCheckDone s
    refine ⟨t, ht, ?_⟩
    rw [hd, drive_mode, leaderCheckDone_accepted hv h]
    exact ⟨rfl, rfl, rfl, rfl⟩
  · obtain ⟨t, ht, hd⟩ := done_next leaderCheckDone s
    refine ⟨t, ht, ?_⟩
    rw [hd, drive_mode, leaderCheckDone_refused hv h]
    exact ⟨rfl, rfl, rfl, rfl, rfl⟩
  · obtain ⟨t, ht, hd⟩ := done_next memberCheckDone s
    refine ⟨t, ht, ?_⟩
    rw [hd, drive_mode]
    exact memberCheckDone_mode hv
  · obtain ⟨t, ht, hd⟩ := done_next proposeTimeout s
    refine ⟨t, (execProposeTimeout_calm s hc).trans ht, ?_⟩
    rw [hd, drive_mode, drive_clk, proposeTimeout_due hp hu, modeCancel, updMode_mode, updMode_clk, waitLoc_loc, waitLoc_mode]
    exact ⟨rfl, rfl, rfl, rfl, rfl⟩
  · obtain ⟨t, ht, hd'⟩ := done_next disagreeTimer s
    obtain ⟨w, hup, hmode, n, he⟩ := disagreeTimer_due hu hp hd
    refine ⟨t, (execModeDisagreeTimer_calm s hc).trans ht, ?_⟩
    rw [hd', drive_mode, drive_clk, he, (logEvent_keeps ..).mode_eq, (logEvent_keeps ..).clk_eq, updMode_mode, updMode_clk, hmode]
    exact ⟨rfl, hup, rfl⟩
  · obtain ⟨t, ht, hd⟩ := done_next (modeFrameReceive f) s
    refine ⟨t, ht, ?_⟩
    rw [hd, drive_mode, modeFrameReceive_member hp (by rw [hk]; decide) hr ha hm hs, hk]
    have hmo : (forward f f.bytes s.dev).mode.active = s.dev.mode.active := congrArg ModeSt.active (forward_keeps f f.bytes s.dev).mode_eq
    exact ⟨rfl, rfl, hmo⟩
  · obtain ⟨t, ht, hd⟩ := done_next (modeFrameReceive f) s
    rw [modeFrameReceive_member hp (by rw [hk]; decide) hr ha hm hs, hk] at hd
    have hmo : (forward f f.bytes s.dev).mode = s.dev.mode := (forward_keeps ..).mode_eq
    have hst : (forward f f.bytes s.dev).start = s.dev.start := (forward_keeps ..).start_eq rfl rfl rfl
    obtain ⟨m, c, o, hcv⟩ := forward_cvn f f.bytes s.dev
    generalize forward f f.bytes s.dev = e at hd hmo hst hcv
    refine ⟨t, ht, ?_⟩
    rw [hd, drive_cvn]
    have hon : modeMember 1 (BitVec.ofNat 4 (fld p 1 1)) (BitVec.ofNat 32 (fld p 2 4)) f tl e =
        forward f (f.bytes.take 10 ++ markTail (ownId e) ok tl) (e.updMode fun m =>
          { m with phase := if m.phase = 2 then 2 else 1, pending := if m.phase = 2 then m.pending else BitVec.ofNat 4 (fld p 1 1) }) := by
      change onPropose _ _ _ _ = _
      unfold onPropose
      simp only [updMode_mode, hmo, hw, if_pos hv]
      rfl
    rw [hon, ownId, hst]
    exact (forward_sent (by rw [updMode_cvn, hcv]; exact hs) (by rw [updMode_start, hst]; exact hacc)).1

end Sys2Proof.Machine

/-! ## Loss of the leader, take-over, hand-back and a rival (04, Losing the leader, Hand-back, When two devices claim time) -/

namespace Sys2Proof.Machine

theorem leaderLostTimeout_due {u : Nat} {d : Device} (hu : d.cvn.timeSeen = some u) (hs : d.cvn.source = false) (hl : d.cvn.leaderLost = false) :
    (leaderLostTimeout d).cvn.leaderLost = true ∧ (leaderLostTimeout d).clk.loc = max d.clk.loc (u + 10 * ms) := by
  obtain ⟨w, hw⟩ : ∃ w, waitLoc (u + 10 * ms) d = w := ⟨_, rfl⟩
  have he : leaderLostTimeout d = raiseLevel 0x5E6 0 (lapse (w.updCvn fun c => { c with leaderLost := true })) := by
    simp only [leaderLostTimeout, hu, hs, hl, hw, Bool.false_eq_true, or_self, if_false]
  rw [he, (raiseLevel_keeps ..).cvn_eq, (raiseLevel_keeps ..).clk_eq]
  refine ⟨rfl, ?_⟩
  change w.clk.loc = _
  rw [← hw, waitLoc_loc]

/-! ### A device becomes the time source -/

/-- The roles of a device on the ring: what it is, and whether it drives time. -/
theorem becomeSource_cvn (r : CvnRole) (d : Device) : (becomeSource r d).cvn.role = r ∧ (becomeSource r d).cvn.source = true ∧
    (becomeSource r d).cvn.handback = none := ⟨rfl, rfl, rfl⟩

theorem continueHalts_next (d : Device) : (continueHalts d).halt.next.isSome = true := by
  unfold continueHalts
  by_cases h : d.halt.next.isSome = true
  · rw [if_pos h]
    exact h
  · rw [if_neg h]
    dsimp only [announce]
    rw [show (hlRebook _ _ _).halt = _ from (hlRebook_keeps ..).parts .halt rfl]
    rfl

theorem deputyTakeover_due {u : Nat} {d : Device} (hu : d.cvn.timeSeen = some u) (hr : d.cvn.role = .deputy) (hm : d.cvn.member = true)
    (hst : d.start.st = .run) :
    (deputyTakeover d).cvn.role = .acting ∧ (deputyTakeover d).cvn.source = true ∧ (deputyTakeover d).cvn.timeState = .track ∧
      (deputyTakeover d).clk.loc = max d.clk.loc ((u + 10 * ms + ms - 1) / ms * ms) ∧ (deputyTakeover d).halt.next.isSome = true := by
  obtain ⟨w, hw⟩ : ∃ w, waitLoc ((u + 10 * ms + ms - 1) / ms * ms) d = w := ⟨_, rfl⟩
  have he : deputyTakeover d = continueHalts ((lapse (sourceRef (becomeSource .acting w))).updMode fun m => { m with blocked := false }) := by
    simp only [deputyTakeover, hu]
    rw [if_pos ⟨hr, hm, hst⟩, hw]
  rw [he, (continueHalts_keeps _).cvn_eq, (continueHalts_keeps _).clk_eq]
  refine ⟨rfl, rfl, rfl, ?_, continueHalts_next _⟩
  change (faultEnds 0x5E6 w).clk.loc = _
  rw [(faultEnds_keeps ..).clk_eq, ← hw, waitLoc_loc]

theorem handbackSwitch_acting {h : Word} {d : Device} (hh : d.cvn.handback = some h) (hr : d.halt.ran = true) (hl : d.halt.last = h)
    (ha : d.cvn.role = .acting) :
    (handbackSwitch d).cvn.role = .deputy ∧ (handbackSwitch d).cvn.source = false ∧ (handbackSwitch d).cvn.handback = none ∧
      (handbackSwitch d).clk.loc = max d.clk.loc (d.halt.lastStart * tick + 100 * us) := by
  obtain ⟨w, hw⟩ : ∃ w, waitLoc (d.halt.lastStart * tick + 100 * us) d = w := ⟨_, rfl⟩
  have hc : w.cvn = d.cvn := by rw [← hw, waitLoc_cvn]
  have hloc : w.clk.loc = max d.clk.loc (d.halt.lastStart * tick + 100 * us) := by rw [← hw, waitLoc_loc]
  unfold handbackSwitch
  simp only [hh]
  rw [if_pos ⟨hr, hl, .inl ha⟩, hw, if_pos (by rw [hc]; exact ha)]
  exact ⟨rfl, rfl, rfl, hloc⟩

theorem handbackSwitch_returning {h : Word} {d : Device} (hh : d.cvn.handback = some h) (hr : d.halt.ran = true) (hl : d.halt.last = h)
    (ha : d.cvn.role = .returning) :
    (handbackSwitch d).cvn.role = .leader ∧ (handbackSwitch d).cvn.source = true ∧ (handbackSwitch d).cvn.handback = none ∧
      (handbackSwitch d).clk.loc = max d.clk.loc (d.halt.lastStart * tick + 100 * us) := by
  obtain ⟨w, hw⟩ : ∃ w, waitLoc (d.halt.lastStart * tick + 100 * us) d = w := ⟨_, rfl⟩
  have hc : w.cvn = d.cvn := by rw [← hw, waitLoc_cvn]
  have hloc : w.clk.loc = max d.clk.loc (d.halt.lastStart * tick + 100 * us) := by rw [← hw, waitLoc_loc]
  unfold handbackSwitch
  simp only [hh]
  rw [if_pos ⟨hr, hl, .inr ha⟩, hw, if_neg (by rw [hc, ha]; decide), (continueHalts_keeps _).cvn_eq, (continueHalts_keeps _).clk_eq]
  refine ⟨rfl, rfl, rfl, ?_⟩
  change (faultEnds 0x5E6 w).clk.loc = _
  rw [(faultEnds_keeps ..).clk_eq, hloc]

/-! ### A rival -/

/-- A step of time leaves who drives time, and the report of a rival. -/
def KeepsSource (d e : Device) : Prop := e.cvn.source = d.cvn.source ∧ e.cvn.rivalLeader = d.cvn.rivalLeader

theorem KeepsSource.after {d e f : Device} (k : KeepsSource e f) (h : KeepsSource d e) : KeepsSource d f := ⟨k.1.trans h.1, k.2.trans h.2⟩

theorem KeepsSource.of_keeps {S : List Part} {d e : Device} (k : Keeps S d e) (h : S.contains .cvn = false := by rfl) : KeepsSource d e := by
  unfold KeepsSource
  rw [k.cvn_eq h]
  exact ⟨rfl, rfl⟩

theorem joinCaravan_source (d : Device) : KeepsSource d (joinCaravan d) := if_cases (p := KeepsSource d) ⟨rfl, rfl⟩ ⟨rfl, rfl⟩

theorem timeStep_source (d : Device) : KeepsSource d (timeStep d) := by
  unfold timeStep
  refine (joinCaravan_source _).after ((KeepsSource.of_keeps (S := [.arbs, .isl, .launches, .halt, .log])
    (.forEach (fun _ _ => lateLaunches_keeps ..) (.refl ..))).after ?_)
  refine if_cases (p := KeepsSource d) ((KeepsSource.of_keeps (logEvent_keeps ..)).after ?_) ?_
  · exact KeepsSource.after (e := leaveAlone d) ⟨rfl, rfl⟩ (.of_keeps (leaveAlone_keeps d))
  · exact KeepsSource.after (e := leaveAlone d) ⟨rfl, rfl⟩ (.of_keeps (leaveAlone_keeps d))

theorem toStepWait_source (d : Device) : KeepsSource d (toStepWait d) :=
  if_cases (p := KeepsSource d) ⟨rfl, rfl⟩ ((timeStep_source _).after ⟨rfl, rfl⟩)

/-- The rival has been reported, 10 ms after its first frame. -/
theorem rivalLeader_reported {u : Nat} {d : Device} (hu : d.cvn.rivalSince = some u) (hs : d.cvn.source = true) :
    ∃ e : Device, e.cvn = { d.cvn with rivalLeader := true, rivalSince := none } ∧ ownId e = ownId d ∧
      rivalLeader d = if e.cvn.rivalActing = decide (e.cvn.role = .acting) ∧ e.cvn.rivalId < ownId e then
        (if e.cvn.role = .acting then
          toStepWait ((e.updCvn fun c => { c with role := .deputy, source := false, members := 0, handback := none, onOwn := false, refSrc := 0, answers := [] }).updHalt
            fun x => { x with next := none, accepted := true })
        else runAlone e)
      else e := by
  obtain ⟨w, hw⟩ : ∃ w, waitLoc (u + 10 * ms) d = w := ⟨_, rfl⟩
  have hc : w.cvn = d.cvn := by rw [← hw, waitLoc_cvn]
  have hst : w.start.straps = d.start.straps := by rw [← hw, waitLoc_start]
  have k := raise_keeps 0x5E7 (w.updCvn fun c => { c with rivalLeader := true, rivalSince := none })
  refine ⟨raise 0x5E7 (w.updCvn fun c => { c with rivalLeader := true, rivalSince := none }), ?_, ?_, ?_⟩
  · rw [k.cvn_eq, updCvn_cvn, hc]
  · have hr : (raise 0x5E7 (w.updCvn fun c => { c with rivalLeader := true, rivalSince := none })).start.rest.straps = w.start.rest.straps :=
      congrArg (fun r : Start => r.straps) (k.parts .start rfl)
    exact congrArg (fun x : Straps => x.cvnId.toNat) ((hr : _ = w.start.straps).trans hst)
  · unfold rivalLeader
    simp only [hu]
    rw [if_pos hs, hw]

/-- Settles O20: the leader's loss is seen after 10 ms, and a hand-over moves the role with the source. -/
theorem leaderChanges : Obligations.LeaderChanges := by
  unfold Obligations.LeaderChanges
  refine ⟨fun u s hc hu hs hl => ?_, fun u s hc hu hr hm hst => ?_, fun h s hc hh hr hl ha => ?_, fun h s hc hh hr hl ha => ?_,
    fun u s hc hu hs ha => ?_, fun u s hc hu hs ha => ?_⟩
  · obtain ⟨t, ht, hd⟩ := done_next leaderLostTimeout s
    refine ⟨t, (execLeaderLostTimeout_calm s hc).trans ht, ?_⟩
    rw [hd, drive_cvn, drive_clk]
    exact leaderLostTimeout_due hu hs hl
  · obtain ⟨t, ht, hd⟩ := done_next deputyTakeover s
    refine ⟨t, (execDeputyTakeover_calm s hc).trans ht, ?_⟩
    rw [hd, drive_cvn, drive_clk, drive_halt]
    exact deputyTakeover_due hu hr hm hst
  · obtain ⟨t, ht, hd⟩ := done_next handbackSwitch s
    refine ⟨t, (execHandbackSwitch_calm s hc).trans ht, ?_⟩
    rw [hd, drive_cvn, drive_clk]
    exact handbackSwitch_acting hh hr hl ha
  · obtain ⟨t, ht, hd⟩ := done_next handbackSwitch s
    refine ⟨t, (execHandbackSwitch_calm s hc).trans ht, ?_⟩
    rw [hd, drive_cvn, drive_clk]
    exact handbackSwitch_returning hh hr hl ha
  · obtain ⟨t, ht, hd⟩ := done_next rivalLeader s
    obtain ⟨e, hcv, hid, he⟩ := rivalLeader_reported hu hs
    refine ⟨t, (execRivalLeader_calm s hc).trans ht, ?_⟩
    rw [hd, drive_cvn, he]
    have hact : e.cvn.rivalActing = decide (e.cvn.role = .acting) := by rw [hcv]; exact ha
    by_cases hlt : e.cvn.rivalId < ownId e
    · rw [if_pos ⟨hact, hlt⟩]
      have hlt' : s.dev.cvn.rivalId < s.dev.start.straps.cvnId.toNat := by rw [hcv, hid] at hlt; exact hlt
      have hgone : ∀ x : Device, x.cvn.rivalLeader = e.cvn.rivalLeader → x.cvn.source = false → x.cvn.rivalLeader = true ∧
          (s.dev.start.straps.cvnId.toNat ≤ s.dev.cvn.rivalId → x.cvn.source = true) ∧
          (s.dev.cvn.rivalId < s.dev.start.straps.cvnId.toNat → x.cvn.source = false) := fun x h1 h2 =>
        ⟨by rw [h1, hcv], fun h => absurd hlt' (by omega), fun _ => h2⟩
      split
      · obtain ⟨h1, h2⟩ := toStepWait_source ((e.updCvn fun c => { c with role := .deputy, source := false, members := 0, handback := none, onOwn := false, refSrc := 0, answers := [] }).updHalt
            fun x => { x with next := none, accepted := true })
        exact hgone _ h2 h1
      · obtain ⟨-, h1, -, h2⟩ := runAlone_cvn e
        exact hgone _ h2 h1
    · rw [if_neg (fun h => hlt h.2)]
      have hge : ¬ s.dev.cvn.rivalId < s.dev.start.straps.cvnId.toNat := by rw [hcv, hid] at hlt; exact hlt
      rw [hcv]
      exact ⟨rfl, fun _ => hs, fun h => absurd h hge⟩
  · obtain ⟨t, ht, hd⟩ := done_next rivalLeader s
    obtain ⟨e, hcv, hid, he⟩ := rivalLeader_reported hu hs
    refine ⟨t, (execRivalLeader_calm s hc).trans ht, ?_⟩
    rw [hd, drive_cvn, he, if_neg (fun h => ha (by have := h.1; rw [hcv] at this; exact this)), hcv]
    exact ⟨rfl, hs, rfl⟩

end Sys2Proof.Machine

/-! ## The time frame, what a receiver takes, and the frame strobe (04, Caravan time, The 1 ms time frame) -/

namespace Sys2Proof.Machine

/-! ### Chips of the marker line -/

def byteBits (b : Byte) : List Bool := (List.range 8).map b.getLsbD

theorem flatMap_byteChips (f : List Byte) : f.flatMap byteChips = (f.flatMap byteBits).flatMap bitChips := by
  have h (b : Byte) : byteChips b = (byteBits b).flatMap bitChips := by
    rw [byteBits, List.flatMap_map]
    rfl
  rw [List.flatMap_assoc]
  exact congrArg f.flatMap (funext h)

theorem chipBits_bits (l : List Bool) : chipBits (l.flatMap bitChips) = some l := by
  induction l with
  | nil => rfl
  | cons b l ih =>
    change (if b = !b then none else (chipBits (l.flatMap bitChips)).map (b :: ·)) = _
    rw [if_neg (by cases b <;> decide), ih]
    rfl

theorem byteBits_length (b : Byte) : (byteBits b).length = 8 := by simp [byteBits]

/-- The value of a byte's bits is the byte. -/
theorem byteBits_value (b : Byte) : BitVec.ofNat 8 ((byteBits b).zipIdx.foldl (fun x p => x + b2n p.1 * 2 ^ p.2) 0) = b := by
  revert b
  decide

theorem bitBytes_bits (f : List Byte) : bitBytes f.length (f.flatMap byteBits) = f := by
  induction f with
  | nil => rfl
  | cons b f ih =>
    have ht : ((b :: f).flatMap byteBits).take 8 = byteBits b := List.take_left' (byteBits_length b)
    have hd : ((b :: f).flatMap byteBits).drop 8 = f.flatMap byteBits := List.drop_left' (byteBits_length b)
    change BitVec.ofNat 8 _ :: bitBytes f.length _ = _
    rw [ht, hd, ih, byteBits_value]

theorem byteChips_length (b : Byte) : (byteChips b).length = 16 := by simp [byteChips, bitChips]

theorem flatMap_byteChips_length (f : List Byte) : (f.flatMap byteChips).length = 16 * f.length := by
  simp [List.length_flatMap, byteChips_length, Nat.mul_comm]

/-- A receiver reads a frame back from its chips (R131). -/
theorem chipFrame_frameChips (f : List Byte) : chipFrame f.length (frameChips f) = some f := by
  have htake : ((frameChips f).drop 4).take (16 * f.length) = f.flatMap byteChips := List.take_left' (flatMap_byteChips_length f)
  rw [chipFrame, if_pos (show (frameChips f).take 4 = [true, true, false, false] from rfl), htake, flatMap_byteChips, chipBits_bits]
  exact congrArg some (bitBytes_bits f)

theorem frameRunChips_window {tf : List Byte} (more : List (List Byte)) (h : (frameChips tf).length ≤ 242) :
    (frameRunChips tf more).take 242 = frameChips tf ++ List.replicate (242 - (frameChips tf).length) false ∧
      (frameRunChips tf more).drop 242 = more.flatMap fun f => frameChips f ++ List.replicate 10 false := by
  have hl : (frameChips tf ++ List.replicate (242 - (frameChips tf).length) false).length = 242 := by
    simp only [List.length_append, List.length_replicate]
    omega
  exact ⟨List.take_left' hl, List.drop_left' hl⟩

theorem windowFit_mem (fs : List (List Byte)) : ∀ n, ∀ f ∈ windowFit n fs, f ∈ fs := by
  induction fs with
  | nil => exact fun _ _ h => h
  | cons a fs ih =>
    intro n f hf
    simp only [windowFit] at hf
    split at hf
    · rcases List.mem_cons.mp hf with rfl | h
      · exact List.mem_cons_self
      · exact List.mem_cons_of_mem _ (ih _ f h)
    · exact (List.not_mem_nil hf).elim

/-- The frames that fit end, with their idle time, 4,512 chips after the start of the time frame (R134). -/
theorem windowFit_ends (fs : List (List Byte)) : ∀ n, windowFit n fs ≠ [] →
    n + ((windowFit n fs).flatMap fun f => frameChips f ++ List.replicate 10 false).length ≤ 4512 := by
  induction fs with
  | nil => exact fun _ h => absurd rfl h
  | cons a fs ih =>
    intro n hn
    simp only [windowFit] at hn ⊢
    split at hn
    next he =>
      rw [if_pos he, List.flatMap_cons, List.length_append, List.length_append, List.length_replicate]
      by_cases h : windowFit (n + (frameChips a).length + 10) fs = []
      · rw [h, List.flatMap_nil, List.length_nil]
        omega
      · have := ih _ h
        omega
    next => exact absurd rfl hn

/-! ### The time-frame boundary -/

/-- Local time at the boundary, with the trims that come into force there (R387, R403). -/
def frameOpened (d : Device) : Device :=
  (nextLocal 6 ms d).updHk fun h => { h with
    trimA := h.trimANext, trimB := h.trimBNext
    oscTrim := Vector.ofFn fun o => h.oscTrim[o] + max (-1) (min 1 (h.oscTrimNext[o] - h.oscTrim[o])) }

/-- The coolant and the losses of a new time frame (R382). -/
def frameWords (d : Device) : Device := (d.when d.loader.built coolantFrame).when (modelsRun d) energyFrame

/-- A time frame that the device has entered: its part of every device, time source or not. -/
def frameEntered (d : Device) : Device := aliveFrame (frameWords (frameOpened d))

theorem frameBoundary_eq {d : Device} (hr : d.start.st ≠ .reset) (hi : d.start.st ≠ .init) :
    frameBoundary d = if (frameEntered d).cvn.source then
      sourceSends (judgeVotes (frameEntered d).ticks (ringOpenCheck (frameEntered d))) else frameEntered d := by
  rw [frameBoundary, if_neg (by simp [hr, hi])]
  rfl

theorem frameOpened_loc (d : Device) : (frameOpened d).clk.loc = nextOf ms d.clk.taken[6] d.clk.loc := nextLocal_loc (by decide) d

theorem frameOpened_keeps (d : Device) : Keeps [.clk, .hk] d (frameOpened d) := (updHk_keeps ..).after ((nextLocal_keeps ..).mono rfl) rfl

theorem frameWords_keeps (d : Device) : Keeps [.mods, .hk, .isl, .therm] d (frameWords d) :=
  .when (fun e => (energyFrame_keeps e).mono rfl) (.when (fun e => (coolantFrame_keeps e).mono rfl) (.refl ..))

theorem frameEntered_keeps (d : Device) : Keeps [.clk, .hk, .mods, .isl, .therm, .col] d (frameEntered d) :=
  (aliveFrame_keeps _).after ((frameWords_keeps _).after ((frameOpened_keeps d).mono rfl) rfl) rfl

theorem frameEntered_cvn (d : Device) : (frameEntered d).cvn = d.cvn := (frameEntered_keeps d).cvn_eq

theorem frameEntered_loc (d : Device) : (frameEntered d).clk.loc = nextOf ms d.clk.taken[6] d.clk.loc := by
  rw [frameEntered, (aliveFrame_keeps _).clk_eq, (frameWords_keeps _).clk_eq, frameOpened_loc]

theorem frameBoundary_follower {d : Device} (hr : d.start.st ≠ .reset) (hi : d.start.st ≠ .init) (hs : d.cvn.source = false) :
    frameBoundary d = frameEntered d := by
  rw [frameBoundary_eq hr hi, frameEntered_cvn, if_neg (by simp [hs])]

/-- The delay of an acting deputy follows from its role, its place and the configuration in force (R124). -/
theorem edgeDelay_congr {d e : Device} (hr : e.cvn.role = d.cvn.role) (hp : e.cvn.ringPos = d.cvn.ringPos) (hm : e.memory = d.memory) :
    edgeDelay e = edgeDelay d := by
  simp only [edgeDelay, posDelay, cableDly, Device.cf, hr, hp, hm]

/-- A check of the ring writes its own words (R139). -/
theorem ringOpenCheck_cvn (d : Device) : ∃ o r m k b, (ringOpenCheck d).cvn = { d.cvn with openRun := o, retRun := r, misRun := m, okRun := k, ringOpen := b } := by
  unfold ringOpenCheck
  split
  · dsimp only
    split
    · rw [(raiseLevel_keeps ..).cvn_eq]
      exact ⟨_, _, _, _, _, rfl⟩
    · exact ⟨_, _, _, _, _, rfl⟩
  · exact ⟨_, _, _, _, _, rfl⟩

theorem Keeps.straps_eq {S : List Part} {d e : Device} (k : Keeps S d e) (h : S.contains .start = false := by rfl) : e.start.straps = d.start.straps := by
  have hr : e.start.rest = d.start.rest := k.parts .start h
  exact (congrArg Start.straps hr : e.start.rest.straps = d.start.rest.straps)

/-- The time source has judged the ring and the votes, and is about to send. -/
def frameJudged (d : Device) : Device := judgeVotes (frameEntered d).ticks (ringOpenCheck (frameEntered d))

theorem frameJudged_keeps (d : Device) : Keeps (raises ++ [.mode, .clk, .isl, .cvn, .mods, .therm, .hk]) d (frameJudged d) :=
  (judgeVotes_keeps ..).after ((ringOpenCheck_keeps _).after ((frameEntered_keeps d).mono rfl) rfl) rfl

theorem frameJudged_cvn (d : Device) : ∃ o r m k b, (frameJudged d).cvn = { d.cvn with openRun := o, retRun := r, misRun := m, okRun := k, ringOpen := b } := by
  rw [frameJudged, (judgeVotes_keeps ..).cvn_eq, ← frameEntered_cvn d]
  exact ringOpenCheck_cvn _

theorem frameJudged_loc (d : Device) : (frameJudged d).clk.loc = nextOf ms d.clk.taken[6] d.clk.loc := by
  rw [frameJudged, (judgeVotes_keeps ..).clk_eq, (ringOpenCheck_keeps _).clk_eq, frameEntered_loc]

theorem frameBoundary_source {d : Device} (hr : d.start.st ≠ .reset) (hi : d.start.st ≠ .init) (hs : d.cvn.source = true) :
    frameBoundary d = sourceSends (frameJudged d) := by
  rw [frameBoundary_eq hr hi, frameEntered_cvn, if_pos hs]
  rfl

theorem sourceSends_sent (d : Device) : (sourceSends d).cvn.outAt = some (16 * d.clk.loc + edgeDelay d) ∧
    ∃ more, (sourceSends d).cvn.sent = timeFrame d :: more ∧ (sourceSends d).cvn.chips = frameRunChips (timeFrame d) more := by
  obtain ⟨e, more, he, ho, hm, hc⟩ : ∃ (e : Device) (more : List (List Byte)), sourceSends d = (if leads e then modeSent e else e) ∧
    e.cvn.outAt = some (16 * d.clk.loc + edgeDelay d) ∧ e.cvn.sent = timeFrame d :: more ∧ e.cvn.chips = frameRunChips (timeFrame d) more :=
    ⟨_, _, rfl, rfl, rfl, rfl⟩
  have hk : (sourceSends d).cvn = e.cvn := he ▸ if_cases (p := fun x : Device => x.cvn = e.cvn) (modeSent_keeps e).cvn_eq rfl
  rw [hk]
  exact ⟨ho, more, hm, hc⟩

/-- What the time source sends at the boundary (R134). -/
theorem frameBoundary_sent {d : Device} (hr : d.start.st ≠ .reset) (hi : d.start.st ≠ .init) (hs : d.cvn.source = true) :
    (frameBoundary d).clk.loc = nextOf ms d.clk.taken[6] d.clk.loc ∧
      (frameBoundary d).cvn.outAt = some (16 * (frameBoundary d).clk.loc + edgeDelay d) ∧
      ∃ tf more, (frameBoundary d).cvn.sent = tf :: more ∧ (frameBoundary d).cvn.chips = frameRunChips tf more ∧
        tf = frameBytes 1 (leBytes 8 ((frameBoundary d).clk.loc / tick) ++
          leBytes 1 (b2n (decide (d.cvn.role = .acting)) + 2 * b2n (decide (d.cvn.refSrc = 1)) + 4 * b2n d.cvn.onOwn) ++ leBytes 1 (ownId d)) := by
  obtain ⟨o, r, m, k, b, hc⟩ := frameJudged_cvn d
  have kj := frameJudged_keeps d
  have hl : (sourceSends (frameJudged d)).clk.loc = (frameJudged d).clk.loc := congrArg Clocks.loc (sourceSends_keeps _).clk_eq
  have hd : edgeDelay (frameJudged d) = edgeDelay d := edgeDelay_congr (by rw [hc]) (by rw [hc]) (kj.memory_eq rfl rfl rfl)
  obtain ⟨ho, more, hm, hch⟩ := sourceSends_sent (frameJudged d)
  rw [frameBoundary_source hr hi hs, hl]
  refine ⟨frameJudged_loc d, by rw [ho, hd], _, more, hm, hch, ?_⟩
  rw [timeFrame, ownId, hc, kj.straps_eq]
  rfl

theorem frameEntered_alive {d : Device} (hr : d.start.st = .run) (hf : d.devFault = false) (hn : d.col.resumeAt = none) (ha : d.col.aliveRun = true) :
    (frameEntered d).col = { d.col with alive := !d.col.alive } := by
  have k : Keeps [.clk, .hk, .mods, .isl, .therm] d (frameWords (frameOpened d)) := (frameWords_keeps _).after ((frameOpened_keeps d).mono rfl) rfl
  have hc := k.col_eq rfl rfl rfl rfl
  have hst := k.start_eq rfl rfl rfl
  have hdf : (frameWords (frameOpened d)).devFault = false := by
    rw [← hf, Device.devFault, hc]
    rfl
  rw [frameEntered, aliveFrame, if_pos ⟨hst ▸ hr, hdf⟩]
  simp only [hc, hn, ha, if_true]
  simp only [updCol_col, hc, hn, ha]

/-! ### The insertion slot -/

/-- The instant of the device's next insertion slot (R134, R135). -/
def slotInstant (d : Device) : Nat :=
  let t := d.loc / ms * ms + (501 * us + 25 * us * ownId d)
  if d.loc < t then t else t + ms

theorem slotInstant_spec (d : Device) : d.clk.loc ≤ slotInstant d ∧ slotInstant d % ms = 501 * us + 25 * us * ownId d := by
  have h : ownId d < 16 := d.start.straps.cvnId.isLt
  have hp (o x : Nat) (ho : o < ms) : x ≤ (if x < x / ms * ms + o then x / ms * ms + o else x / ms * ms + o + ms) ∧
      (if x < x / ms * ms + o then x / ms * ms + o else x / ms * ms + o + ms) % ms = o := by
    have hm : 0 < ms := by decide
    have hx := Nat.mod_add_div x ms
    rw [Nat.mul_comm] at hx
    have hlt := Nat.mod_lt x hm
    have ha : (x / ms * ms + o) % ms = o := by rw [Nat.add_comm, Nat.add_mul_mod_self_right, Nat.mod_eq_of_lt ho]
    split
    · exact ⟨by omega, ha⟩
    · exact ⟨by omega, by rw [Nat.add_mod_right, ha]⟩
  exact hp _ d.clk.loc (by simp only [ms, us]; omega)

/-- The device's ROLL frame, as it leaves in its slot. -/
theorem insertionSlot_sends {r : Roll} {rest : List Roll} {d : Device} (hq : d.cvn.rollQ = r :: rest) :
    ∃ w : Device, Keeps [.clk] d w ∧ w.clk.loc = slotInstant d ∧ (insertionSlot d).clk = w.clk ∧ (insertionSlot d).start = d.start ∧
      (insertionSlot d).cvn.sent = [rollFrame (handbackArg r w)] ∧ (insertionSlot d).cvn.rollQ = rest ∧
      (insertionSlot d).cvn.outAt = some (16 * (w.clk.loc + lead) + edgeDelay d) ∧
      (insertionSlot d).cvn.handback = (if (handbackArg r w).kind = 8 then some (handbackArg r w).arg else d.cvn.handback) := by
  obtain ⟨w, hw⟩ : ∃ w, waitLoc (slotInstant d) d = w := ⟨_, rfl⟩
  have k : Keeps [.clk] d w := hw ▸ waitLoc_keeps ..
  have hl : w.clk.loc = slotInstant d := by rw [← hw, waitLoc_loc]; exact Nat.max_eq_right (slotInstant_spec d).1
  have he : insertionSlot d = (transmit (rollFrame (handbackArg r w)) (16 * (w.loc + lead) + edgeDelay w) w).updCvn fun c => { c with
      rollQ := rest, slotUsed := some (w.loc / ms)
      handback := if (handbackArg r w).kind = 8 then some (handbackArg r w).arg else c.handback } := by
    simp only [insertionSlot, hq]
    rw [← hw]
    rfl
  have hc := k.cvn_eq
  have hd : edgeDelay w = edgeDelay d := edgeDelay_congr (by rw [hc]) (by rw [hc]) (k.memory_eq rfl rfl rfl)
  rw [he]
  refine ⟨w, k, hl, rfl, k.start_eq rfl rfl rfl, rfl, rfl, ?_, ?_⟩
  · rw [hd]
    rfl
  · rw [← hc]
    rfl

theorem effHalt_congr {t : Nat} {d e : Device} (h : e.halt = d.halt) : effHalt t e = effHalt t d := by rw [effHalt, h, effHalt]

/-! ### TIME frames -/

theorem forward_start (f : FrameRx) (bs : List Byte) (d : Device) : (forward f bs d).start = d.start := (forward_keeps ..).start_eq rfl rfl rfl

theorem timeFrameReceive_bad {f : FrameRx} {d : Device} (hr : d.start.st ≠ .reset) (hi : d.start.st ≠ .init) (hp : framePayload 1 10 0 f.bytes = none) :
    timeFrameReceive f d = frameErr (forward f f.bytes d) := by
  have hs : ¬ ((forward f f.bytes d).start.st = .reset ∨ (forward f f.bytes d).start.st = .init) := by simp [forward_start, hr, hi]
  simp only [timeFrameReceive, if_neg hs, hp]

theorem timeFrameReceive_eq {f : FrameRx} {p tl : List Byte} {d : Device} (hr : d.start.st ≠ .reset) (hi : d.start.st ≠ .init)
    (hp : framePayload 1 10 0 f.bytes = some (p, tl)) :
    timeFrameReceive f d =
      let e := timeWords (fld p 0 8) (fld p 9 1 % 16) (bitOf (fld p 8 1) 0) f.arrival (forward f f.bytes d)
      if e.cvn.source then
        (if fld p 9 1 % 16 = ownId e then ownFrame f.arrival e else rivalFrame (fld p 9 1 % 16) (bitOf (fld p 8 1) 0) e)
      else followFrame (bitOf (fld p 8 1) 0) e := by
  have hs : ¬ ((forward f f.bytes d).start.st = .reset ∨ (forward f f.bytes d).start.st = .init) := by simp [forward_start, hr, hi]
  simp only [timeFrameReceive, if_neg hs, hp]

/-- The delay of a source follows from the configuration in force and the device's place on the ring (R125). -/
theorem compensation_congr {src : Nat} {a : Bool} {d e : Device} (hm : e.memory = d.memory) (hc : e.cvn.comp = d.cvn.comp)
    (hu : e.cvn.posUnknown = d.cvn.posUnknown) (hp : e.cvn.ringPos = d.cvn.ringPos) : compensation src a e = compensation src a d := by
  have hdly : cableDly e = cableDly d := funext fun p => by rw [cableDly, Device.cf, hm]; rfl
  have hlen : ringLen e = ringLen d := by rw [ringLen, Device.cf, hm]; rfl
  have hid : ringId e = ringId d := funext fun p => by rw [ringId, Device.cf, hm]; rfl
  simp only [compensation, ringDelta, posOf, delta, ringTotal, posDelay, hdly, hlen, hid, hc, hu, hp]

theorem timeFrameReceive_follower {f : FrameRx} {p tl : List Byte} {d : Device} (hr : d.start.st ≠ .reset) (hi : d.start.st ≠ .init)
    (hp : framePayload 1 10 0 f.bytes = some (p, tl)) (hs : d.cvn.source = false) :
    timeFrameReceive f d = followFrame (bitOf (fld p 8 1) 0)
      (timeWords (fld p 0 8) (fld p 9 1 % 16) (bitOf (fld p 8 1) 0) f.arrival (forward f f.bytes d)) := by
  obtain ⟨m, c, o, hfc⟩ := forward_cvn f f.bytes d
  rw [timeFrameReceive_eq hr hi hp]
  exact if_neg (by rw [timeWords, updCvn_cvn, hfc]; simp [hs])

/-- A follower in HOLD takes the words of a frame, and keeps its time state (R140, R141). -/
theorem followFrame_hold {b : Bool} {d : Device} (h : d.cvn.timeState = .hold) :
    (followFrame b d).cvn = { d.cvn with srcActing := b, timeSeen := some d.loc, leaderLost := false, actingSeen := if b then some d.loc else d.cvn.actingSeen } ∧
      (followFrame b d).clk = d.clk := by
  have k := faultEnds_keeps 0x5E6 (d.updCvn fun c => { c with
    srcActing := b, timeSeen := some d.loc, leaderLost := false, actingSeen := if b then some d.loc else c.actingSeen })
  obtain ⟨w, hw⟩ : ∃ w, faultEnds 0x5E6 (d.updCvn fun c => { c with
    srcActing := b, timeSeen := some d.loc, leaderLost := false, actingSeen := if b then some d.loc else c.actingSeen }) = w := ⟨_, rfl⟩
  rw [hw] at k
  have hc := k.cvn_eq
  have ht : timeTrack w = w := by
    rw [timeTrack, hc, updCvn_cvn, h]
  have he : followFrame b d = if takesTime w then timeTrack w else w := hw ▸ rfl
  rw [he, ht, ite_self, hc, k.clk_eq]
  exact ⟨rfl, rfl⟩

/-- The round trip that the time source measures when its frame at t comes back (R139). -/
def roundTrip (t : Nat) (d : Device) : Int := qRound (((t : Qty) - (d.cvn.outAt.getD 0 : Qty)) * 25 / 16)

/-- The ring's words after a frame that came back with round trip m. -/
def Returned (m : BitVec 24) (d : Device) : Prop := d.cvn.returned = true ∧ d.cvn.openRun = 0 ∧ d.cvn.rtMeas = m

/-- The time source measures the round trip of its own frame (R139). -/
theorem ownFrame_returned (t : Nat) (d : Device) : Returned (BitVec.ofNat 24 (satInt (roundTrip t d) 0 16777215).toNat) (ownFrame t d) := by
  obtain ⟨e, he, x, hx, ho⟩ : ∃ e : Device, (e.cvn.returned = true ∧ e.cvn.openRun = 0 ∧
      e.cvn.rtMeas = BitVec.ofNat 24 (satInt (roundTrip t d) 0 16777215).toNat) ∧ ∃ x, x = (if e.cvn.ringOpen ∧ 3 ≤ e.cvn.retRun then faultEnds 0x5E5 (e.updCvn fun c => { c with ringOpen := false }) else e) ∧
      ownFrame t d = if x.cvn.ringMismatch = false ∧ 16 ≤ x.cvn.misRun then raiseLevel 0x5E4 0 (x.updCvn fun c => { c with ringMismatch := true })
        else if x.cvn.ringMismatch ∧ 16 ≤ x.cvn.okRun then faultEnds 0x5E4 (x.updCvn fun c => { c with ringMismatch := false }) else x :=
    ⟨_, ⟨rfl, rfl, rfl⟩, _, rfl, rfl⟩
  have h0 : Returned (BitVec.ofNat 24 (satInt (roundTrip t d) 0 16777215).toNat) e := he
  have h1 : Returned (BitVec.ofNat 24 (satInt (roundTrip t d) 0 16777215).toNat) x := by
    rw [hx]
    split
    · rw [Returned, (faultEnds_keeps ..).cvn_eq]
      exact h0
    · exact h0
  rw [ho]
  split
  · rw [Returned, (raiseLevel_keeps ..).cvn_eq]
    exact h1
  · split
    · rw [Returned, (faultEnds_keeps ..).cvn_eq]
      exact h1
    · exact h1

/-! ### The frame strobe -/

/-- The clock of a quadrant, housekeeping's own time and the running clocks stay. -/
structure SameClock (q : Quad) (d e : Device) : Prop where
  time : e.clk.qtime[q] = d.clk.qtime[q]
  load : e.clk.qload[q] = d.clk.qload[q]
  reload : e.clk.qreload[q] = d.clk.qreload[q]
  loc : e.clk.loc = d.clk.loc
  runs : e.isl.clkRun = d.isl.clkRun

theorem SameClock.trans {q : Quad} {d e f : Device} (h : SameClock q d e) (k : SameClock q e f) : SameClock q d f :=
  ⟨k.time.trans h.time, k.load.trans h.load, k.reload.trans h.reload, k.loc.trans h.loc, k.runs.trans h.runs⟩

theorem SameClock.of_keeps {S : List Part} {d e : Device} (q : Quad) (k : Keeps S d e) (hc : S.contains .clk = false := by rfl)
    (hl : S.contains .launches = false := by rfl) : SameClock q d e := by
  have h := k.clk_eq hc
  have hr : (e.isl.launches, e.isl.clkRun) = (d.isl.launches, d.isl.clkRun) := k.parts .launches hl
  exact ⟨by rw [h], by rw [h], by rw [h], by rw [h], (Prod.mk.inj hr).2⟩

theorem lateLaunches_sameClock (was : Nat) (i : Island) (q : Quad) (d : Device) : SameClock q d (lateLaunches was i d) :=
  SameClock.trans (e := d.updIsl _) ⟨rfl, rfl, rfl, rfl, rfl⟩ (.of_keeps q (S := [.arbs, .isl, .halt, .log])
    (.forEach (fun _ _ => launchLate_keeps ..) (.refl ..)))

/-- A quadrant with a running clock takes its load. -/
theorem strobeQuad_loads {q : Quad} {n : Nat} {d : Device} (hr : bitOf d.isl.clkRun.toNat q.1 = true) (hq : d.clk.qload[q] = some n) :
    (strobeQuad q d).clk.qtime[q] = strobeTime n d ∧ (strobeQuad q d).clk.qload[q] = none := by
  obtain ⟨e, he, hs⟩ : ∃ e : Device, (e.clk.qtime[q] = strobeTime n d ∧ e.clk.qload[q] = none) ∧
    strobeQuad q d = lateLaunches d.clk.qtime[q] ⟨q.1, by omega⟩ e := by
    rw [strobeQuad, if_neg (by simp [hr])]
    simp only [hq]
    exact ⟨_, ⟨upd_same .., upd_same ..⟩, rfl⟩
  have k := lateLaunches_sameClock d.clk.qtime[q] ⟨q.1, by omega⟩ q e
  rw [hs, k.time, k.load]
  exact he

/-- A quadrant more than a sub-tick away is found wrong. -/
theorem strobeQuad_wrong {q : Quad} {d : Device} (hr : bitOf d.isl.clkRun.toNat q.1 = true) (hq : d.clk.qload[q] = none)
    (hw : d.clk.loc + 1 < d.clk.qtime[q] ∨ d.clk.qtime[q] + 1 < d.clk.loc) :
    (strobeQuad q d).clk.qreload[q] = true ∧ (strobeQuad q d).clk.qtime[q] = d.clk.qtime[q] := by
  obtain ⟨e, he, hs⟩ : ∃ e : Device, (e.clk.qreload[q] = true ∧ e.clk.qtime[q] = d.clk.qtime[q]) ∧ strobeQuad q d = raise (0x5E0 + q.1) e := by
    have hn : ¬ (d.clk.qtime[q] ≤ d.loc + 1 ∧ d.loc ≤ d.clk.qtime[q] + 1) := by
      change ¬ (d.clk.qtime[q] ≤ d.clk.loc + 1 ∧ d.clk.loc ≤ d.clk.qtime[q] + 1)
      omega
    rw [strobeQuad, if_neg (by simp [hr])]
    simp only [hq]
    rw [if_neg hn]
    exact ⟨{ d with clk := { d.clk with qreload := upd d.clk.qreload q fun _ => true } }, ⟨upd_same .., rfl⟩, rfl⟩
  have k : SameClock q e (raise (0x5E0 + q.1) e) := .of_keeps q (raise_keeps ..)
  rw [hs, k.reload, k.time]
  exact he

theorem strobeQuad_stopped {q : Quad} {d : Device} (hr : bitOf d.isl.clkRun.toNat q.1 = false) : strobeQuad q d = d := if_pos hr

theorem strobeQuad_other {p q : Quad} (h : p ≠ q) (d : Device) : SameClock q d (strobeQuad p d) := by
  unfold strobeQuad
  split
  · exact ⟨rfl, rfl, rfl, rfl, rfl⟩
  · split
    next n _ =>
      exact .trans (e := { d with clk := { d.clk with qtime := upd d.clk.qtime p fun _ => strobeTime n d, qload := upd d.clk.qload p fun _ => none } })
        ⟨upd_other _ _ _ _ (Ne.symm h), upd_other _ _ _ _ (Ne.symm h), rfl, rfl, rfl⟩ (lateLaunches_sameClock ..)
    next =>
      split
      · exact ⟨rfl, rfl, rfl, rfl, rfl⟩
      · exact .trans (e := { d with clk := { d.clk with qreload := upd d.clk.qreload p fun _ => true } })
          ⟨rfl, rfl, upd_other _ _ _ _ (Ne.symm h), rfl, rfl⟩ (.of_keeps q (raise_keeps ..))

theorem strobeQuad_loc (p : Quad) (d : Device) : (strobeQuad p d).clk.loc = d.clk.loc := by
  unfold strobeQuad
  split
  · rfl
  · split
    · exact (lateLaunches_sameClock _ _ p _).loc
    · split
      · rfl
      · rw [(raise_keeps ..).clk_eq]

theorem forEach_strobeQuad_other {q : Quad} (l : List Quad) : ∀ d, q ∉ l → SameClock q d (forEach l strobeQuad d) := by
  induction l with
  | nil => exact fun d _ => ⟨rfl, rfl, rfl, rfl, rfl⟩
  | cons p l ih =>
    intro d h
    obtain ⟨hp, hl⟩ := not_or.mp (fun x => h (List.mem_cons.mpr x))
    exact (strobeQuad_other (Ne.symm hp) d).trans (ih _ hl)

/-- The strobe treats each quadrant once, as it stood. -/
theorem frameStrobe_quad (q : Quad) (d : Device) : ∃ e, SameClock q d e ∧ SameClock q (strobeQuad q e) (frameStrobe d) := by
  have h (l : List Quad) (hn : l.Nodup) (hq : q ∈ l) : ∀ d, ∃ e, SameClock q d e ∧ SameClock q (strobeQuad q e) (forEach l strobeQuad d) := by
    induction l with
    | nil => exact absurd hq List.not_mem_nil
    | cons p l ih =>
      intro d
      obtain ⟨hp, hl⟩ := List.nodup_cons.mp hn
      by_cases he : p = q
      · exact ⟨d, ⟨rfl, rfl, rfl, rfl, rfl⟩, he ▸ forEach_strobeQuad_other l _ (he ▸ hp)⟩
      · obtain ⟨e, h1, h2⟩ := ih hl ((List.mem_cons.mp hq).resolve_left (Ne.symm he)) (strobeQuad p d)
        exact ⟨e, (strobeQuad_other he d).trans h1, h2⟩
  exact h allQuads (List.nodup_finRange 4) (List.mem_finRange q) d

theorem frameStrobe_loc (d : Device) : (frameStrobe d).clk.loc = d.clk.loc :=
  forEach_induct (fun e => e.clk.loc = d.clk.loc) allQuads strobeQuad (fun p e h => (strobeQuad_loc p e).trans h) d rfl

/-! ### The statement -/

/-- Settles O17: the chips of a frame read back, what the time source sends, what a receiver takes, and the strobe of each quadrant. -/
theorem timeFrames : Obligations.TimeFrames := by
  unfold Obligations.TimeFrames
  refine ⟨chipFrame_frameChips, fun s hc hr hi hs => ?_, fun s hc hr hi hs => ?_, fun tf more h => frameRunChips_window more h,
    fun n fs => ⟨windowFit_mem fs n, windowFit_ends fs n⟩, fun s hc hr hs hf hn ha => ?_, fun s r rest hc hq hk => ?_, fun s r rest hc hq hk => ?_,
    fun f s hok hr hi hp => ?_, fun f p tl s hok hr hi hp hs hh ht => ?_, fun f p tl s hok hr hi hp hs hid => ?_, fun q n s hr hq => ?_,
    fun q s hr hq hw => ?_, fun q s hr => ?_⟩
  · obtain ⟨t, hn, hd⟩ := done_next frameBoundary s
    refine ⟨t, (execTimeFrameBoundary_calm s hc).trans hn, ?_⟩
    rw [hd, drive_clk, drive_cvn, frameBoundary_follower hr hi hs]
    exact ⟨frameEntered_loc _, frameEntered_cvn _⟩
  · obtain ⟨t, hn, hd⟩ := done_next frameBoundary s
    refine ⟨t, (execTimeFrameBoundary_calm s hc).trans hn, ?_⟩
    rw [hd, drive_clk, drive_cvn]
    exact frameBoundary_sent hr hi hs
  · obtain ⟨t, hn, hd⟩ := done_next frameBoundary s
    have hst : (frameEntered s.dev).start = s.dev.start := (frameEntered_keeps s.dev).start_eq rfl rfl rfl
    have hcol := frameEntered_alive hr hf ‹_› ha
    have hdf : (frameEntered s.dev).devFault = false := by
      rw [← hf, Device.devFault, hcol]
      rfl
    refine ⟨t, (execTimeFrameBoundary_calm s hc).trans hn, ?_⟩
    rw [hd, frameBoundary_follower (by simp [hr]) (by simp [hr]) hs, drive_col, hcol]
    refine ⟨rfl, ?_⟩
    simp only [drive, Device.powerOn, hst, hr, hdf, hcol]
    simp
  · obtain ⟨t, hn, hd⟩ := done_next insertionSlot s
    obtain ⟨w, k, hl, hck, hst, hsent, hrq, hout, -⟩ := insertionSlot_sends hq
    refine ⟨t, (execInsertionSlot_calm s hc).trans hn, ?_⟩
    rw [hd, drive_clk, drive_cvn, drive_start, hsent, hrq, hout, hst, hck, handbackArg, if_neg hk]
    exact ⟨rfl, rfl, rfl, rfl, hl ▸ (slotInstant_spec s.dev).2⟩
  · obtain ⟨t, hn, hd⟩ := done_next insertionSlot s
    obtain ⟨w, k, hl, hck, hst, hsent, hrq, -, hb⟩ := insertionSlot_sends hq
    have he : effHalt (w.clk.loc / tick) w = effHalt (w.clk.loc / tick) s.dev := effHalt_congr (k.parts .halt rfl)
    refine ⟨t, (execInsertionSlot_calm s hc).trans hn, ?_⟩
    rw [hd, drive_clk, drive_cvn, hsent, hrq, hck, hb, handbackArg, if_pos hk, ← he]
    exact ⟨rfl, if_pos hk, rfl⟩
  · obtain ⟨t, hn, hd⟩ := done_next (timeFrameReceive f) s
    obtain ⟨m, c, o, hfc⟩ := forward_cvn f f.bytes s.dev
    refine ⟨t, hn, ?_⟩
    rw [hd, drive_clk, drive_cvn, timeFrameReceive_bad hr hi hp, (frameErr_keeps _).clk_eq, (forward_keeps ..).clk_eq, frameErr, updCvn_cvn, hfc]
    exact ⟨rfl, rfl, rfl⟩
  · obtain ⟨t, hn, hd⟩ := done_next (timeFrameReceive f) s
    refine ⟨t, hn, ?_⟩
    rw [hd, drive_clk, drive_cvn, timeFrameReceive_follower hr hi hp hs]
    obtain ⟨w, hw, k⟩ : ∃ w, w = forward f f.bytes s.dev ∧ Keeps [.cvn] s.dev w := ⟨_, rfl, forward_keeps ..⟩
    obtain ⟨m, c, o, hfc⟩ := forward_cvn f f.bytes s.dev
    rw [← hw] at hfc ⊢
    obtain ⟨hcv, hck⟩ := followFrame_hold (b := bitOf (fld p 8 1) 0)
      (d := timeWords (fld p 0 8) (fld p 9 1 % 16) (bitOf (fld p 8 1) 0) f.arrival w) (by rw [timeWords, updCvn_cvn, hfc]; exact hh)
    have hcomp : compensation (fld p 9 1 % 16) (bitOf (fld p 8 1) 0) w = compensation (fld p 9 1 % 16) (bitOf (fld p 8 1) 0) s.dev :=
      compensation_congr (k.memory_eq rfl rfl rfl) (by rw [hfc]) (by rw [hfc]) (by rw [hfc])
    have hloc : w.loc = s.dev.clk.loc := congrArg Clocks.loc k.clk_eq
    rw [hcv, hck, timeWords, updCvn_cvn, updCvn_clk, k.clk_eq]
    refine ⟨rfl, rfl, by rw [← hcomp], congrArg some hloc, rfl, fun hz => ?_, fun hz => ?_⟩
    · obtain ⟨h1, h2⟩ := forward_sent (bs := f.bytes) hs hz
      exact ⟨hw ▸ h1, hw ▸ h2⟩
    · rw [hw, forward_off (.inr hz)]
      exact ⟨rfl, rfl⟩
  · obtain ⟨t, hn, hd⟩ := done_next (timeFrameReceive f) s
    refine ⟨t, hn, ?_⟩
    have he : timeFrameReceive f s.dev = ownFrame f.arrival (timeWords (fld p 0 8) (fld p 9 1 % 16) (bitOf (fld p 8 1) 0) f.arrival s.dev) := by
      rw [timeFrameReceive_eq hr hi hp, forward_off (.inl hs)]
      dsimp only
      rw [if_pos (show (timeWords _ _ _ _ s.dev).cvn.source = true from hs), if_pos (show _ = ownId (timeWords _ _ _ _ s.dev) from hid)]
    rw [hd, drive_cvn, he]
    exact ownFrame_returned f.arrival (timeWords ..)
  · obtain ⟨t, hn, hd⟩ := done_next frameStrobe s
    obtain ⟨e, h1, h2⟩ := frameStrobe_quad q s.dev
    obtain ⟨ht, hl⟩ := strobeQuad_loads (h1.runs ▸ hr) (h1.load.trans hq)
    refine ⟨t, hn, ?_⟩
    rw [hd, drive_clk, h2.time, h2.load, ht, hl, strobeTime, Device.loc, h1.loc, frameStrobe_loc]
    exact ⟨rfl, rfl, rfl⟩
  · obtain ⟨t, hn, hd⟩ := done_next frameStrobe s
    obtain ⟨e, h1, h2⟩ := frameStrobe_quad q s.dev
    obtain ⟨hw, ht⟩ := strobeQuad_wrong (h1.runs ▸ hr) (h1.load.trans hq) (by rw [h1.loc, h1.time]; exact hw)
    refine ⟨t, hn, ?_⟩
    rw [hd, drive_clk, h2.reload, h2.time, hw, ht, h1.time]
    exact ⟨rfl, rfl⟩
  · obtain ⟨t, hn, hd⟩ := done_next frameStrobe s
    obtain ⟨e, h1, h2⟩ := frameStrobe_quad q s.dev
    have hs := strobeQuad_stopped (h1.runs ▸ hr)
    rw [hs] at h2
    refine ⟨t, hn, ?_⟩
    rw [hd, drive_clk, h2.time, h2.load, h1.time, h1.load]
    exact ⟨rfl, rfl⟩

end Sys2Proof.Machine

/-! ## The start check and arming (02, The start check and arming) -/

namespace Sys2Proof.Machine

/-- A composition for one channel, 0, with one slot, which the content rules accept. -/
def soloConf : Memory :=
  [(0x3014, 0x10), (0x4040, 0x90), (0x4041, 0x01), (0x4051, 0x02), (0x8008, 0x10), (0xA000, 0x01), (0xA004, 0x02), (0xA010, 0x01), (0xA014, 0xE8),
    (0xB004, 0x01), (0xB008, 0x01), (0xB00C, 0x01), (0xB010, 0x02), (0xB012, 0x01), (0xB015, 0x90), (0xB018, 0x01), (0xB01A, 0x01), (0xB01C, 0x01),
    (0xC000, 0x01), (0xC012, 0x01), (0x11000, 0x01), (0x11040, 0x02), (0x11080, 0x03), (0x110C0, 0x04), (0x11100, 0x05), (0x11140, 0x06),
    (0x13101, 0x10), (0x14101, 0x10), (0x18100, 0x11), (0x18102, 0x01), (0x18114, 0x01), (0x1A006, 0x10), (0x1A010, 0x01), (0x1A014, 0x64),
    (0x1C206, 0x10), (0x1C210, 0x01), (0x1C214, 0x64), (0x1CA06, 0x10), (0x1CA10, 0x01), (0x1CA14, 0x64)]

/-- A device at the end of its start check, whose image enables channel 0 and no quadrant. -/
def soloDev : Device :=
  let d := State.reset.dev
  { d with
    start := { d.start with st := .build, checking := true }
    loader := { d.loader with runEnable := true, base := soloConf }
    memory := { d.memory with conf := [(0x008, 0x01)] } }

/-- A channel in use has its quadrant in use for the check (R67, R86): it accepts channel 0 without quadrant 0. -/
theorem soloDev_accepted : (checkAll (structOf soloDev) soloDev.loader.base soloDev.loader.ovls soloDev.mode.taken.toNat soloDev (chEnable soloDev)
    (qdEnable soloDev)).reason = 0 := by
  decide +kernel

/-- The accepted channel is armed, and its quadrant with it. -/
theorem soloDev_arms : ((startCheckDone soloDev).quads[(0 : Quad)]).armed = true := by
  decide +kernel

/-- Refutes O14: a start check that accepts a channel whose quadrant is not enabled arms the quadrant with the channel (R66). -/
theorem not_buildAndPins : ¬ Obligations.BuildAndPins := by
  unfold Obligations.BuildAndPins
  rintro ⟨-, -, h, -⟩
  obtain ⟨t, ht, -, -, -, -, -, -, -, hq, -⟩ := h ⟨soloDev, []⟩ rfl rfl rfl rfl soloDev_accepted
  have hn : (t.dev.quads[(0 : Quad)]).armed = false := hq 0 (.inl (by decide))
  rw [← Host.Outcome.next.inj ht, drive_quads] at hn
  exact Bool.noConfusion (soloDev_arms.symm.trans hn)

end Sys2Proof.Machine

/-! ## The boot port (13, The boot port) -/

namespace Sys2Proof.Machine

theorem bootDone_ended {w : Nat} {tx : BootTx} {r : BootOutcome} {d : Device} (h : d.bootp.cur = some (w, tx)) (hs : d.bootp.started = true)
    (hf : outcomeFits tx r = true) :
    bootDone r d = bootOutcome (Fin.ofNat 3 w) tx r (arbRelease bport w (d.updBoot fun b => { b with cur := none, started := false })) := by
  rw [bootDone, h]
  exact if_pos ⟨hs, hf⟩

/-- A failed try is counted and repeated while fewer than three were made (R52, R487). -/
theorem bootFailed_retries {o : Fin 3} {tx : BootTx} {n : Bool} {d : Device} (h : d.bootp.tries[o] < 3) :
    (bootFailed o tx n d).bootp.cur = d.bootp.cur ∧ (bootFailed o tx n d).loader.retries = satInc d.loader.retries ∧
      (bootFailed o tx n d).bootp.tries[o] = d.bootp.tries[o] + 1 ∧ (bootFailed o tx n d).bootp.recovered = d.bootp.recovered + 1 ∧
      (bootFailed o tx n d).bootp.page = d.bootp.page ∧ (bootFailed o tx n d).bootp.pageEnd = d.bootp.pageEnd ∧
      (bootFailed o tx n d).clk = d.clk ∧ ((bootFailed o tx n d).arbs[bport]).pending.any (fun r => r.1 = o.1) = true := by
  rw [bootFailed, if_pos h]
  exact ⟨rfl, rfl, upd_same .., rfl, rfl, rfl, rfl, arbRequest_pending ..⟩

theorem pageTimeout_due {o : Fin 3} {tx : BootTx} {u : Nat} {d : Device} (hu : d.bootp.pageEnd = some u) (hp : d.bootp.page = some (o.1, tx)) :
    ∃ e : Device, pageTimeout d = bootFailed o tx false e ∧ e.bootp.page = none ∧ e.bootp.pageEnd = none ∧ e.bootp.tries = d.bootp.tries ∧
      e.loader = d.loader ∧ e.clk.up = max d.clk.up u := by
  have hw : Fin.ofNat 3 o.1 = o := Fin.ofNat_val_eq_self o
  have he := pageTimeout.eq_def d
  rw [hu, hp] at he
  dsimp only at he
  rw [hw] at he
  exact ⟨_, he, rfl, rfl, rfl, rfl, waitUp_up ..⟩

/-- Settles O16: each end of a transaction on the boot port, by its kind. -/
theorem bootTransactions : Obligations.BootTransactions := by
  unfold Obligations.BootTransactions
  refine ⟨fun o img off dat s ho hc hs => ?_, fun o img off n s hc hs ht => ?_, fun o img off dat at0 s hc hu hp => ?_, fun o tx at0 s hc hu hp ht => ?_⟩
  · obtain ⟨t, hn, hd⟩ := done_next (bootDone .done) s
    refine ⟨t, hn, ?_⟩
    have hw : (Fin.ofNat 3 o).1 = o := Nat.mod_eq_of_lt ho
    rw [hd, drive_bootp, drive_arbs, bootDone_ended hc hs rfl]
    refine ⟨rfl, congrArg (fun x => some (x, _)) hw, rfl, rfl, ?_⟩
    exact congrArg Arbiter.granted (upd_same ..)
  · obtain ⟨t, hn, hd⟩ := done_next (bootDone .addrNack) s
    refine ⟨t, hn, ?_⟩
    have hw : Fin.ofNat 3 o.1 = o := Fin.ofNat_val_eq_self o
    rw [hd, drive_bootp, drive_arbs, drive_loader, bootDone_ended hc hs rfl, hw]
    obtain ⟨h1, h2, h3, h4, -, -, -, h8⟩ := bootFailed_retries (o := o) (tx := .read img off n) (n := true)
      (d := arbRelease bport o.1 (s.dev.updBoot fun b => { b with cur := none, started := false })) ht
    exact ⟨h1, h2, h3, h4, h8⟩
  · obtain ⟨t, hn, hd⟩ := done_next ackPoll s
    refine ⟨t, (execAckPollTimer_calm s hc).trans hn, ?_⟩
    have he : ackPoll s.dev = bootAsk (Fin.ofNat 3 o.1) (.poll img off) ((waitUp at0 s.dev).updBoot fun b => { b with pollAt := none }) := by
      simp only [ackPoll, hu, hp]
    rw [hd, drive_bootp, drive_clk, drive_arbs, he, Fin.ofNat_val_eq_self]
    refine ⟨rfl, waitUp_up .., arbRequest_pending ..⟩
  · obtain ⟨t, hn, hd⟩ := done_next pageTimeout s
    obtain ⟨e, he, h1, h2, h3, h4, h5⟩ := pageTimeout_due hu hp
    refine ⟨t, (execPageWriteTimeout_calm s hc).trans hn, ?_⟩
    obtain ⟨-, r2, r3, -, r5, r6, r7, -⟩ := bootFailed_retries (o := o) (tx := tx) (n := false) (d := e) (by rw [h3]; exact ht)
    rw [hd, drive_bootp, drive_clk, drive_loader, he, r2, r3, r5, r6, r7, h1, h2, h4, h5]
    exact ⟨rfl, rfl, congrArg (fun x : Vector Nat 3 => x[o] + 1) h3, rfl, rfl⟩

end Sys2Proof.Machine

/-! ## Resets, INIT and the first image read (02, Device states, The reset pin, Reading the image) -/

namespace Sys2Proof.Machine

/-! ### The device state under a raise -/

/-- Outside BUILD and JOIN the device state stays (R70 acts in those two). -/
structure SameState (d e : Device) : Prop where
  stays : d.start.st ≠ .build → d.start.st ≠ .join → e.start.st = d.start.st

namespace SameState
variable {d e f : Device}

theorem of_eq (h : e.start.st = d.start.st) : SameState d e := ⟨fun _ _ => h⟩

theorem of_keeps {S : List Part} (k : Keeps S d e) (h : S.contains .devState = false := by rfl) : SameState d e := of_eq (k.parts .devState h)

theorem after (k : SameState e f) (h : SameState d e) : SameState d f :=
  ⟨fun h1 h2 => by
    have he := h.stays h1 h2
    exact (k.stays (he ▸ h1) (he ▸ h2)).trans he⟩

theorem forEach {α : Type} {g : α → Device → Device} (hg : ∀ a d, SameState d (g a d)) (l : List α) (d : Device) :
    SameState d (Machine.forEach l g d) :=
  forEach_induct (SameState d) l g (fun a e h => (hg a e).after h) d (of_eq rfl)

theorem run (k : SameState d e) (h : d.start.st = .run) : e.start.st = .run := (k.stays (by simp [h]) (by simp [h])).trans h

end SameState

theorem latchAtStart_sameState (d : Device) : SameState d (latchAtStart d) := by
  refine ⟨fun h1 h2 => ?_⟩
  simp only [latchAtStart, updStart_start]

theorem reactNow_sameState (f : Nat) (sc : Scope) (s : Severity) (d : Device) : SameState d (reactNow f sc s d) :=
  if_cases (p := SameState d) (.of_keeps (react_keeps ..))
    (if_cases (p := SameState d) ((SameState.of_keeps (react_keeps ..)).after (latchAtStart_sameState d)) (if_cases (p := SameState d) (.of_eq rfl) (.of_eq rfl)))

theorem recordRaise_sameState (f : Nat) (sc : Scope) (level : Bool) (x : Nat) (d : Device) : SameState d (recordRaise f sc level x d) :=
  .of_keeps (recordRaise_keeps ..)

theorem raiseX_sameState (f : Nat) (level : Bool) (x : Nat) (d : Device) : SameState d (raiseX f level x d) := by
  rcases raiseX_cases f level x d with k | ⟨sc, -, -, -, he⟩
  · exact .of_keeps k
  · rw [he]
    exact (reactNow_sameState ..).after (recordRaise_sameState ..)

theorem raise_sameState (f : Nat) (d : Device) : SameState d (raise f d) := raiseX_sameState ..

theorem raiseLevel_sameState (f x : Nat) (d : Device) : SameState d (raiseLevel f x d) := by
  unfold raiseLevel
  dsimp only
  split
  · exact if_cases (p := SameState d) (.of_eq rfl) (.of_eq rfl)
  · exact if_cases (p := SameState d) (.of_eq rfl) (raiseX_sameState ..)

theorem faultEnds_sameState (f : Nat) (d : Device) : SameState d (faultEnds f d) :=
  if_cases (p := SameState d) (if_cases (p := SameState d) (SameState.after (e := raiseX f true (hkReading d f) d) (.of_eq rfl) (raiseX_sameState ..)) (.of_eq rfl)) (.of_eq rfl)

theorem colStart_sameState (d : Device) : SameState d (colStart d) := .forEach (fun _ _ => raiseX_sameState ..) _ d

/-! ### Resets -/

/-- A reset keeps the latched straps, and powers everything off. -/
theorem enterReset_start (d : Device) : (enterReset d).start.st = .reset ∧ (enterReset d).start.straps = d.start.straps := by
  unfold enterReset
  split
  · exact ⟨‹_›, rfl⟩
  · exact ⟨rfl, rfl⟩

theorem drive_reset {d : Device} (h : d.start.st = .reset) : (drive d).pins.allOff ∧ (drive d).pins.fltP = true ∧ (drive d).pins.fltN = false ∧
    (drive d).pins.alive = false :=
  have hn : d.start.st ≠ .run := by simp [h]
  ⟨drive_allOff d hn, drive_notRun d hn⟩

theorem resetN_long {ns : Nat} (h : 200 ≤ ns) (d : Device) : resetN ns d = (enterReset d).updStart fun s => { s with accPin := true } := by
  rw [resetN]
  dsimp only
  rw [if_neg (by omega), if_neg (by omega)]

theorem getLsbD_or_two_pow (x : BitVec 4) (r : Fin 4) : (x ||| BitVec.ofNat 4 (2 ^ r.1)).getLsbD r.1 = true := by
  revert x r
  decide

theorem resetRelease_start (st : Straps) (te se : Bool) {d : Device} (h : d.start.st = .reset) :
    (resetRelease st te se d).start.st = .init ∧ (resetRelease st te se d).start.straps = st ∧ (resetRelease st te se d).start.testEn = te ∧
      (resetRelease st te se d).start.scanEn = se ∧ (resetRelease st te se d).start.por = d.start.accCoreLow ∧
      (resetRelease st te se d).start.brownout = (!d.start.accCoreLow && decide (d.start.accRails ≠ 0)) ∧
      (resetRelease st te se d).start.pin = d.start.accPin ∧ (resetRelease st te se d).start.svc = d.start.accSvc ∧
      (resetRelease st te se d).start.railLow = d.start.accRails ∧
      (resetRelease st te se d).start.warmResets = (if d.start.accCoreLow then 0 else satInc d.start.warmResets) := by
  rw [resetRelease, if_pos h]
  dsimp only
  split
  · exact ⟨rfl, rfl, rfl, rfl, rfl, rfl, rfl, rfl, rfl, rfl⟩
  · exact ⟨rfl, rfl, rfl, rfl, rfl, rfl, rfl, rfl, rfl, rfl⟩

/-! ### INIT -/

/-- The quadrants found without a clock, and the instants from which INIT counts (R39, R71). -/
def initNoted (k : BitVec 5) (d : Device) : Device :=
  let d := d.updStart fun s => { s with qdInitFail := ~~~(k.truncate 4) }
  let d := { d with mods := d.mods.map fun (m : ModSt) => { m with streamAt := d.up } }
  d.updCvn fun c => { c with timeSeen := some d.loc }

/-- INIT is complete: the device is in LOAD, before the conditions that have lasted are raised (R39, R430). -/
theorem initComplete_loads {v : Bool} {k : BitVec 5} {d : Device} (hi : d.start.st = .init) (ht : d.start.testEn = false) (hs : d.start.scanEn = false)
    (hk : bitOf k.toNat 4 = true) :
    ∃ (e : Device) (l : List Quad), e.start.qdInitFail = ~~~(k.truncate 4) ∧ e.loader = d.loader ∧
      initComplete v k d = colStart (forEach l (fun q d => raise (0x5D0 + q.1) d) (enterLoad e)) := by
  rw [initComplete, if_pos ⟨hi, ht, hs⟩, if_neg (by simp [hk])]
  obtain ⟨x, hx⟩ : ∃ x, initMemory (logCheck (refSelect v
    ({ d with clk := { d.clk with qtime := d.clk.qtime.map fun _ => d.clk.loc } }.updIsl fun x => { x with clkRun := k }))) = x := ⟨_, rfl⟩
  have hl : x.loader = d.loader := by
    rw [← hx, (initMemory_keeps _).parts .loader rfl, (logCheck_keeps _).parts .loader rfl, (refSelect_keeps ..).parts .loader rfl]
    rfl
  refine ⟨initNoted k x, allQuads.filter fun q => !bitOf k.toNat q.1, rfl, hl, ?_⟩
  rw [← hx]
  rfl

/-! ### The first read -/

theorem imgStart_asks (img reload : Bool) (d : Device) : (imgStart img reload d).bootp.want0 = some (.read img 0 64) ∧
    (imgStart img reload d).start = d.start ∧ (imgStart img reload d).clk = d.clk ∧ (imgStart img reload d).bootp.recovered = d.bootp.recovered ∧
    (imgStart img reload d).loader.loadAttempts = d.loader.loadAttempts := ⟨rfl, rfl, rfl, rfl, rfl⟩

theorem enterLoad_words (d : Device) : (enterLoad d).start.st = .load ∧ (enterLoad d).loader.loadAttempts = satInc d.loader.loadAttempts ∧
    (enterLoad d).loader.aResult = 0 ∧ (enterLoad d).loader.bResult = 0 ∧ (enterLoad d).bootp.recovered = d.bootp.recovered + 1 ∧
    (enterLoad d).clk = d.clk ∧ (enterLoad d).start.qdInitFail = d.start.qdInitFail := ⟨rfl, rfl, rfl, rfl, rfl, rfl, rfl⟩

theorem bootSettle_asks {d : Device} (hs : d.start.st = .load) (hr : d.loader.rd = none) : (bootSettle d).clk.up = max d.clk.up (64 * ms) ∧
    (bootSettle d).bootp.want0 = some (.read false 0 64) ∧ (bootSettle d).start = d.start := by
  obtain ⟨w, hw⟩ : ∃ w, waitUp (64 * ms) d = w := ⟨_, rfl⟩
  obtain ⟨h1, h2, h3, -⟩ := imgStart_asks false false w
  rw [bootSettle, if_pos ⟨hs, by simp [hr]⟩, hw, h1, h2, h3, ← hw]
  exact ⟨waitUp_up .., rfl, waitUp_start ..⟩

theorem noImageRetry_asks {d : Device} (hs : d.start.st = .noImage) : (noImageRetry d).start.st = .load ∧
    (noImageRetry d).clk.up = max d.clk.up (d.start.entered + 10 * sec) ∧
    (noImageRetry d).loader.loadAttempts = satInc d.loader.loadAttempts ∧ (noImageRetry d).bootp.want0 = some (.read false 0 64) ∧
    (noImageRetry d).bootp.recovered = d.bootp.recovered + 1 := by
  obtain ⟨w, hw⟩ : ∃ w, waitUp (d.start.entered + 10 * sec) d = w := ⟨_, rfl⟩
  obtain ⟨h1, h2, h3, h4, h5⟩ := imgStart_asks false false (enterLoad w)
  obtain ⟨w1, w2, -, -, w5, w6, -⟩ := enterLoad_words w
  rw [noImageRetry, if_pos hs, hw, h1, h2, h3, h4, h5, w1, w2, w5, w6, ← hw, waitUp_loader, waitUp_bootp]
  exact ⟨rfl, waitUp_up .., rfl, rfl, rfl⟩

/-- Settles O13: resets and their causes, and the way from INIT to the first read of an image. -/
theorem resetAndLoad : Obligations.ResetAndLoad := by
  unfold Obligations.ResetAndLoad
  refine ⟨fun ns s hn hs => ?_, fun ns s hn => ?_, fun r low s => ?_, fun st te se s hs => ?_, fun s hc hs => ?_, fun v k s hi ht hs hk => ?_,
    fun s hc hs hr => ?_, fun s hc hs => ?_⟩
  · obtain ⟨t, ht, hd⟩ := done_next (resetN ns) s
    obtain ⟨h1, h2⟩ := enterReset_start s.dev
    refine ⟨t, ht, ?_⟩
    rw [hd, drive_start, resetN_long hn]
    exact ⟨h1, rfl, h2, drive_reset h1⟩
  · obtain ⟨t, ht, hd⟩ := done_next (resetN ns) s
    refine ⟨t, ht, ?_⟩
    rw [hd]
    exact congrArg drive (if_pos hn)
  · obtain ⟨t, ht, hd⟩ := done_next (railFalling r low) s
    obtain ⟨h1, -⟩ := enterReset_start s.dev
    obtain ⟨p1, p2, p3, -⟩ := drive_reset (d := railFalling r low s.dev) h1
    refine ⟨t, ht, ?_⟩
    rw [hd, drive_start]
    exact ⟨h1, getLsbD_or_two_pow _ r, p1, p2, p3⟩
  · obtain ⟨t, ht, hd⟩ := done_next (resetRelease st te se) s
    refine ⟨t, ht, ?_⟩
    rw [hd, drive_start]
    exact resetRelease_start st te se hs
  · obtain ⟨t, ht, hd⟩ := done_next svcHoldExpiry s
    refine ⟨t, (execSvcHoldExpiry_calm s hc).trans ht, ?_⟩
    rw [hd, drive_start, svcHoldExpiry, if_pos hs]
    exact ⟨(enterReset_start _).1, rfl⟩
  · obtain ⟨t, hn, hd⟩ := done_next (initComplete v k) s
    obtain ⟨e, l, hq, hl, he⟩ := initComplete_loads (v := v) hi ht hs hk
    obtain ⟨w1, w2, w3, w4, -, -, w7⟩ := enterLoad_words e
    have hst : SameState (enterLoad e) (initComplete v k s.dev) :=
      he ▸ (colStart_sameState _).after (SameState.forEach (fun q d => raise_sameState (0x5D0 + q.1) d) l _)
    have kr : Keeps (raises) (enterLoad e) (initComplete v k s.dev) :=
      he ▸ (colStart_keeps _).after (.forEach (fun _ _ => raise_keeps ..) (.refl ..)) rfl
    have hrest : (initComplete v k s.dev).start.rest = (enterLoad e).start.rest := kr.parts .start rfl
    have hload : (initComplete v k s.dev).loader = (enterLoad e).loader := kr.parts .loader rfl
    refine ⟨t, hn, ?_⟩
    rw [hd, drive_start, drive_loader, hload, w2, w3, w4, hl]
    exact ⟨(hst.stays (by simp [w1]) (by simp [w1])).trans w1, (congrArg Start.qdInitFail hrest).trans (w7.trans hq), rfl, rfl, rfl⟩
  · obtain ⟨t, ht, hd⟩ := done_next bootSettle s
    refine ⟨t, (execBootSettleExpiry_calm s hc).trans ht, ?_⟩
    rw [hd, drive_clk, drive_bootp, drive_start]
    exact bootSettle_asks hs hr
  · obtain ⟨t, ht, hd⟩ := done_next noImageRetry s
    refine ⟨t, (execNoImageRetry_calm s hc).trans ht, ?_⟩
    rw [hd, drive_clk, drive_bootp, drive_start, drive_loader]
    exact noImageRetry_asks hs

end Sys2Proof.Machine

/-! ## The end of JOIN, the RUN launch and the service button (02, Joining the caravan at start, Entering RUN, The service button) -/

namespace Sys2Proof.Machine

/-! ### The RUN launch in housekeeping -/

theorem coolantStep_sameState (j : Fin 4) (d : Device) : SameState d (coolantStep j d) := by
  unfold coolantStep
  dsimp only
  split
  · split
    · split
      · exact (faultEnds_sameState ..).after (.of_eq rfl)
      · exact .of_eq rfl
    · exact (raiseLevel_sameState ..).after (.of_eq rfl)
  · exact .of_eq rfl

theorem coolantJudge_sameState (d : Device) : SameState d (coolantJudge d) :=
  if_cases (p := SameState d) ((SameState.forEach coolantStep_sameState _ _).after (.of_eq rfl)) (.of_eq rfl)

theorem setBus_bus (st : BusState) (d : Device) : (setBus st d).bus.st = st := by
  have k : Keeps [.isl] (d.updBus fun b => { b with st := st, entered := d.up }) (setBus st d) := .forEach (fun _ _ => send_keeps ..) (.refl ..)
  have hb : (setBus st d).bus = (d.updBus fun b => { b with st := st, entered := d.up }).bus := k.parts .bus rfl
  rw [hb]
  rfl

theorem runArm_bus (d : Device) : (runArm d).bus.st = .onStrings := by
  have k : Keeps [.therm] (setBus .onStrings (seqStart 4 d)) (runArm d) := .forEach (fun _ _ => modelStart_keeps ..) (.refl ..)
  have hb : (runArm d).bus = (setBus .onStrings (seqStart 4 d)).bus := k.parts .bus rfl
  rw [hb, setBus_bus]

theorem Keeps.launches_eq {S : List Part} {d e : Device} (k : Keeps S d e) (h : S.contains .launches = false := by rfl) :
    e.isl.launches = d.isl.launches ∧ e.isl.clkRun = d.isl.clkRun := by
  have hr : (e.isl.launches, e.isl.clkRun) = (d.isl.launches, d.isl.clkRun) := k.parts .launches h
  exact Prod.mk.inj hr

theorem Keeps.resolvedAt_eq {S : List Part} {d e : Device} (k : Keeps S d e) (h : S.contains .start = false := by rfl) :
    e.start.resolvedAt = d.start.resolvedAt := by
  have hr : e.start.rest = d.start.rest := k.parts .start h
  exact (congrArg Start.resolvedAt hr : e.start.rest.resolvedAt = d.start.rest.resolvedAt)

/-- Housekeeping enters RUN with the strings on the bus (R73, R299). -/
theorem runHk_runs (d : Device) : (runHk d).start.st = .run ∧ (runHk d).start.resolvedAt = none ∧ (runHk d).bus.st = .onStrings ∧
    (runHk d).clk = d.clk ∧ (runHk d).isl.launches = d.isl.launches ∧ (runHk d).isl.clkRun = d.isl.clkRun := by
  obtain ⟨a, ha⟩ : ∃ a, (d.updStart fun s => { s with st := .run, resolvedAt := none, entered := d.up, launched := true }) = a := ⟨_, rfl⟩
  obtain ⟨b, hb⟩ : ∃ b, coolantJudge (coolantFrame a) = b := ⟨_, rfl⟩
  have he : runHk d = aloneMode (runPins (preReactions (runHalts (runArm b)))) := by
    unfold runHk
    dsimp only
    rw [ha, hb]
  have kab : Keeps (raises ++ [.mods, .hk]) a b := hb ▸ (coolantJudge_keeps _).after ((coolantFrame_keeps a).mono rfl) rfl
  have sab : b.start.st = .run := hb ▸ ((coolantJudge_sameState _).after (.of_keeps (coolantFrame_keeps a))).run (by rw [← ha]; rfl)
  have kbc : Keeps [.arbs, .isl, .bus, .mods, .seqs, .rings, .writers, .therm] b (runArm b) := runArm_keeps b
  have kce : Keeps [.mode, .halt, .seqs, .slots, .chans, .profs, .paths, .srcs, .faults, .col] (runArm b) (runHk d) :=
    he ▸ (aloneMode_keeps _).after ((runPins_keeps _).after ((preReactions_keeps _).after ((runHalts_keeps _).mono rfl) rfl) rfl) rfl
  have kae : Keeps (raises ++ [.mods, .hk, .isl, .bus, .seqs, .rings, .writers, .therm, .mode, .halt]) a (runHk d) :=
    kce.after (kbc.after (kab.mono rfl) rfl) rfl
  have hbus : (runHk d).bus = (runArm b).bus := kce.parts .bus rfl
  have hst : (runHk d).start.st = (runArm b).start.st := kce.parts .devState rfl
  obtain ⟨hl, hr⟩ := kae.launches_eq
  refine ⟨hst.trans ((kbc.parts .devState rfl).trans sab), kae.resolvedAt_eq.trans ?_, by rw [hbus, runArm_bus], ?_, hl.trans ?_, hr.trans ?_⟩
  · rw [← ha]
    rfl
  · rw [kae.clk_eq, ← ha]
    rfl
  · rw [← ha]
    rfl
  · rw [← ha]
    rfl

/-! ### Messages to every quadrant -/

theorem send_fifo_same (x : Crossing) (m : Msg) (d : Device) : (send x m d).isl.fifo[xIndex x] = d.isl.fifo[xIndex x] ++ [m] := upd_same ..

theorem send_fifo_other {x y : Crossing} (h : xIndex y ≠ xIndex x) (m : Msg) (d : Device) : (send x m d).isl.fifo[xIndex y] = d.isl.fifo[xIndex y] :=
  upd_other _ _ _ _ h

theorem xIndex_toQd_ne {p q : Quad} (h : p ≠ q) : xIndex (.toQd p) ≠ xIndex (.toQd q) := fun he => h (Fin.ext (Fin.mk.inj he))

theorem Keeps.fifo_eq {S : List Part} {d e : Device} (k : Keeps S d e) (h : S.contains .isl = false := by rfl) : e.isl.fifo = d.isl.fifo := by
  have hr : e.isl.rest = d.isl.rest := k.parts .isl h
  exact (congrArg Islands.fifo hr : e.isl.rest.fifo = d.isl.rest.fifo)

/-- A message sent to each quadrant of a list is the newest of its channel. -/
theorem forEach_send_fifo (m : Quad → Msg) (q : Quad) (l : List Quad) (hn : l.Nodup) : ∀ d : Device,
    (forEach l (fun q d => send (.toQd q) (m q) d) d).isl.fifo[xIndex (.toQd q)] = d.isl.fifo[xIndex (.toQd q)] ++ if q ∈ l then [m q] else [] := by
  induction l with
  | nil => exact fun d => (List.append_nil _).symm
  | cons p l ih =>
    intro d
    obtain ⟨hp, hl⟩ := List.nodup_cons.mp hn
    refine (ih hl (send (.toQd p) (m p) d)).trans ?_
    by_cases he : p = q
    · subst he
      rw [send_fifo_same, if_neg hp, if_pos List.mem_cons_self, List.append_nil]
    · rw [send_fifo_other (xIndex_toQd_ne (Ne.symm he))]
      simp [List.mem_cons, Ne.symm he]

/-- A launch in every island goes to each quadrant as the newest message of its channel (R20, R21). -/
theorem launchAll_run_fifo (t : Nat) (q : Quad) (d : Device) :
    (launchAll .run t d).isl.fifo[xIndex (.toQd q)] = d.isl.fifo[xIndex (.toQd q)] ++ [.launch ⟨.run, t⟩] := by
  have h := forEach_send_fifo (fun _ => .launch ⟨.run, t⟩) q allQuads (List.nodup_finRange 4) d
  rw [if_pos (show q ∈ allQuads from List.mem_finRange q)] at h
  exact h

/-! ### JOIN_TIMEOUT -/

theorem runAlone_start (d : Device) : (runAlone d).start = d.start := (runAlone_keeps d).start_eq rfl rfl rfl

theorem joinTimeout_due {d : Device} (hs : d.start.st = .join) (hr : d.start.resolvedAt = none) :
    (joinTimeout d).start.joinResult = 4 ∧ (joinTimeout d).start.resolvedAt = some (joinTimeout d).clk.loc ∧ (joinTimeout d).cvn.role = .alone ∧
      (joinTimeout d).start.st = .join ∧ ∀ q : Quad, (joinTimeout d).isl.fifo[xIndex (.toQd q)] = d.isl.fifo[xIndex (.toQd q)] ++
        [.launch ⟨.run, msBoundary ((joinTimeout d).clk.loc + us)⟩] := by
  obtain ⟨w, hw⟩ : ∃ w, waitUp (d.start.entered + 500 * ms) d = w := ⟨_, rfl⟩
  have hws : w.start = d.start := by rw [← hw, waitUp_start]
  have hwi : w.isl = d.isl := by rw [← hw, waitUp_isl]
  obtain ⟨x, hx⟩ : ∃ x, runAlone (w.updCvn fun c => { c with joinTried := some w.loc }) = x := ⟨_, rfl⟩
  have kx : Keeps [.mode, .arbs, .cvn, .halt, .mods, .seqs] w x := hx ▸ (runAlone_keeps _).after ((updCvn_keeps ..).mono rfl) rfl
  have he : joinTimeout d = resolve 4 x := by
    rw [joinTimeout, if_pos ⟨hs, hr⟩, hw]
    exact congrArg (resolve 4) hx
  have hc : (resolve 4 x).clk = x.clk := (resolve_keeps ..).clk_eq
  have hl : x.clk.loc = (resolve 4 x).clk.loc := by rw [hc]
  have hst : x.start = d.start := (kx.start_eq rfl rfl rfl).trans hws
  rw [he, resolve_start, resolve_cvn, ← hx, (runAlone_cvn _).1, hx]
  refine ⟨rfl, congrArg some hl, rfl, hst ▸ hs, fun q => ?_⟩
  rw [← hwi, ← kx.fifo_eq, ← hl]
  exact launchAll_run_fifo ..

/-! ### RUN_LAUNCH -/

theorem runAt_resolved {u : Nat} {d : Device} (hs : d.start.st = .join) (hl : d.start.latchAtStart = false) (hu : d.start.resolvedAt = some u) :
    runAt d = some (msBoundary (u + us)) := by
  rw [runAt, if_pos ⟨hs, hl⟩, hu]
  rfl

/-- A slot that is shed, before its raise (R205, R235). -/
def shedNoted (test : Nat) (c : Chan) (n : Slot) (d : Device) : Device :=
  let tad := (d.slots[n]).tadpole
  let d := (slotOff n d).updSlot n fun s => { s with
    shedFrom := some c, shedAt := d.loc, evRun := 0, tadpole := false, bad := s.bad || tad
    repl := if tad then none else s.repl
    forCh := if tad then none else s.forCh }
  let d := d.updChan c fun s => { s with shedCnt := satInc s.shedCnt }
  if tad then quadEvent (Slot.quad n) 0x0703 (n.1 + 256 * c.1 + 65536 * test) 0 0 d else d

theorem SameState.touch {d e f : Device} (h : SameState d e) (he : f.start = e.start) : SameState d f := (SameState.of_eq (by rw [he])).after h

theorem shedNoted_sameState (test : Nat) (c : Chan) (n : Slot) (d : Device) : SameState d (shedNoted test c n d) := by
  have h : SameState d (slotOff n d) := .of_keeps (slotOff_keeps n d)
  unfold shedNoted
  exact if_cases (p := SameState d) ((SameState.of_keeps (quadEvent_keeps ..)).after (h.touch rfl)) (h.touch rfl)

theorem shed_eq (test : Nat) (c : Chan) (n : Slot) (d : Device) : shed test c n d =
    let x := raise n.1 (shedNoted test c n d)
    if members x c = [] then
      let y := x.updChan c fun s => { s with noMember := true }
      raise (0x3A0 + c.1) (if (y.chans[c]).st.switching ∨ (y.chans[c]).st = .off then enterCh c .off y else y)
    else x := rfl

theorem shed_sameState (test : Nat) (c : Chan) (n : Slot) (d : Device) : SameState d (shed test c n d) := by
  have hx : SameState d (raise n.1 (shedNoted test c n d)) := (raise_sameState ..).after (shedNoted_sameState ..)
  rw [shed_eq]
  refine if_cases (p := SameState d) ((raise_sameState ..).after ?_) hx
  exact if_cases (p := SameState d) ((SameState.of_keeps (enterCh_keeps ..)).after (hx.touch rfl)) (hx.touch rfl)

theorem chanStart_sameState (c : Chan) (d : Device) : SameState d (chanStart c d) := by
  unfold chanStart
  dsimp only
  split
  · refine (SameState.forEach (fun f e => SameState.of_keeps (holdChan_keeps f c e)) _ _).after
      ((SameState.forEach (fun n e => shed_sameState 4 c n e) _ _).after ?_)
    have k : Keeps [.slots, .chans, .profs, .paths] d (pathArm c (enterCh c .off d)) := (pathArm_keeps ..).after (enterCh_keeps ..) rfl
    exact if_cases (p := SameState d) ((SameState.of_keeps (pauseProf_keeps ..)).after (.of_keeps k)) (.of_keeps k)
  · exact .of_eq rfl

/-- A quadrant's part of the carrier reset of the whole device. -/
theorem carrierResetIn_sameState (q : Quad) (d : Device) : SameState d (carrierResetIn q .device d) :=
  if_cases (p := SameState d) ((SameState.forEach chanStart_sameState _ _).after (.of_keeps ((quadStart_keeps ..).after
    ((resetCarriers_keeps ..).mono (S := [.arbs, .srcs, .mods, .seqs, .rings, .writers, .slots, .quads, .chans]) rfl) rfl))) (.of_eq rfl)

/-- RUN_LAUNCH with no launch held: housekeeping is in RUN at the boundary, and the carrier resets follow (R73, R181). -/
theorem runLaunch_runs {u : Nat} {d : Device} (hs : d.start.st = .join) (hl : d.start.latchAtStart = false) (hu : d.start.resolvedAt = some u) :
    (runLaunch d).start.st = .run ∧ (runLaunch d).start.resolvedAt = none ∧ (runLaunch d).clk.loc = max d.clk.loc (msBoundary (u + us)) ∧
      (runLaunch d).bus.st = .onStrings := by
  obtain ⟨w, hw⟩ : ∃ w, waitLoc (msBoundary (u + us)) d = w := ⟨_, rfl⟩
  have he : runLaunch d = forEach (allQuads.filter fun q => !d.isl.started[q]) (fun q => carrierResetIn q .device)
      (runHk (forEach (allQuads.filter fun q => !d.isl.started[q]) runArmQuad w)) := by
    rw [runLaunch, runAt_resolved hs hl hu]
    dsimp only
    rw [hw]
  obtain ⟨x, hx⟩ : ∃ x, forEach (allQuads.filter fun q => !d.isl.started[q]) runArmQuad w = x := ⟨_, rfl⟩
  obtain ⟨h1, h2, h3, h4, -, -⟩ := runHk_runs x
  have kx : Keeps [.isl, .quads, .paths, .srcs] w x := hx ▸ .forEach (fun q _ => runArmQuad_keeps q _) (.refl ..)
  rw [hx] at he
  have ky : Keeps [.devState, .latch, .arbs, .isl, .slots, .quads, .chans, .profs, .paths, .srcs, .mods, .seqs, .rings, .writers, .faults, .col, .log,
      .caps, .alert] (runHk x) (runLaunch d) := he ▸ .forEach (fun q _ => carrierResetIn_keeps q _ _) (.refl ..)
  have sy : SameState (runHk x) (runLaunch d) := he ▸ .forEach (fun q e => carrierResetIn_sameState q e) _ _
  have hbus : (runLaunch d).bus = (runHk x).bus := ky.parts .bus rfl
  rw [ky.clk_eq, ky.resolvedAt_eq, hbus, h4, kx.clk_eq, ← hw, waitLoc_loc]
  exact ⟨sy.run h1, h2, rfl, h3⟩

/-! ### RUN_LAUNCH of a launch that housekeeping holds -/

theorem launchesArrive_none {d : Device} (h : ∀ x : Fin 24, d.isl.fifo[x] = []) : launchesArrive d = d := by
  have hf : allQuads.filter (launchUnderWay d) = [] := List.filter_eq_nil_iff.mpr fun q _ => by simp [launchUnderWay, fifoOf, h]
  rw [launchesArrive, hf]
  rfl

theorem launchWait_none {d : Device} {i : Island} (h : d.isl.launches[i] = []) : launchWait d i = none := by rw [launchWait, h]

theorem launchWait_some {d : Device} {i : Island} {l : Launch} {ls : List Launch} (h : d.isl.launches[i] = l :: ls)
    (hr : bitOf d.isl.clkRun.toNat i.1 = true) : launchWait d i = some (l.time - islTime d i, l.act.order, i) := by
  rw [launchWait, h]
  exact if_pos hr

/-- Housekeeping's launch comes next where no quadrant holds one. -/
theorem nextLaunch_hk {d : Device} (hq : ∀ q : Quad, d.isl.launches[quadIsland q] = []) : nextLaunch d = launchWait d 4 := by
  have h0 : launchWait d 0 = none := launchWait_none (hq 0)
  have h1 : launchWait d 1 = none := launchWait_none (hq 1)
  have h2 : launchWait d 2 = none := launchWait_none (hq 2)
  have h3 : launchWait d 3 = none := launchWait_none (hq 3)
  rw [nextLaunch]
  cases h4 : launchWait d 4 with
  | none => simp only [List.filterMap_cons, List.filterMap_nil, h0, h1, h2, h3, h4]
  | some a => simp only [List.filterMap_cons, List.filterMap_nil, h0, h1, h2, h3, h4, List.foldl_nil]

/-- The RUN launch that housekeeping alone holds is performed at its boundary (R21, R73). -/
theorem runLaunch_held {u t0 : Nat} {d : Device} (hs : d.start.st = .join) (hl : d.start.latchAtStart = false) (hu : d.start.resolvedAt = some u)
    (ht : t0 = msBoundary (u + us)) (hq : ∀ q : Quad, d.isl.launches[quadIsland q] = []) (h4 : d.isl.launches[(4 : Island)] = [⟨.run, t0⟩])
    (hr : bitOf d.isl.clkRun.toNat 4 = true) :
    ∃ x : Device, launchNext d = runHk x ∧ x.clk.loc = max d.clk.loc t0 ∧ (∀ q : Quad, x.isl.launches[quadIsland q] = []) ∧
      x.isl.launches[(4 : Island)] = [] := by
  have hn : nextLaunch d = some (t0 - d.clk.loc, LaunchAct.run.order, 4) := (nextLaunch_hk hq).trans (launchWait_some h4 hr)
  obtain ⟨w, hw⟩ : ∃ w, pass (t0 - d.clk.loc) d = w := ⟨_, rfl⟩
  have hwl : w.clk.loc = max d.clk.loc t0 := by
    rw [← hw]
    change d.clk.loc + (t0 - d.clk.loc) = _
    omega
  have hws : w.start = d.start := by rw [← hw, pass_start]
  have hwi : w.isl = d.isl := by rw [← hw, pass_isl]
  have hdue : runDue (w.updIsl fun x => { x with launches := upd x.launches 4 fun _ => [] }) w.clk.loc = true := by
    have ha : runAt (w.updIsl fun x => { x with launches := upd x.launches 4 fun _ => [] }) = some t0 :=
      ht ▸ runAt_resolved (by rw [updIsl_start, hws]; exact hs) (by rw [updIsl_start, hws]; exact hl) (by rw [updIsl_start, hws]; exact hu)
    rw [runDue, ha, hwl]
    exact decide_eq_true (Nat.le_max_right ..)
  refine ⟨w.updIsl fun x => { x with launches := upd x.launches 4 fun _ => [] }, ?_, hwl, fun q => ?_, ?_⟩
  · rw [launchNext, hn]
    dsimp only
    rw [hw, launchFire, hwi, h4]
    dsimp only
    rw [if_pos (show t0 ≤ islTime w 4 from (hwl.symm ▸ Nat.le_max_right .. : t0 ≤ w.clk.loc)), launchIn, if_neg (by simp), dif_neg (by decide)]
    exact if_pos hdue
  · change (upd w.isl.launches 4 fun _ => [])[quadIsland q] = []
    rw [upd_other _ _ _ _ (fun he => absurd (congrArg Fin.val he) (Nat.ne_of_lt q.2)), hwi, hq q]
  · exact upd_same ..

theorem launchRow_run_held {t0 : Nat} {d y : Device} (hx : ∀ x : Fin 24, d.isl.fifo[x] = []) (h4 : d.isl.launches[(4 : Island)] = [⟨.run, t0⟩])
    (hr : bitOf d.isl.clkRun.toNat 4 = true) (hn : launchNext d = y) (hyq : ∀ q : Quad, y.isl.launches[quadIsland q] = [])
    (hy4 : y.isl.launches[(4 : Island)] = []) : launchRow .run runLaunch d = y := by
  have ht : launchTimes .run d 4 = [t0] := by rw [launchTimes, h4]; rfl
  have hissued : launchIssued .run d = true := by
    rw [launchIssued, Bool.or_eq_true]
    exact .inl (List.any_eq_true.mpr ⟨4, List.mem_finRange 4, by rw [ht]; rfl⟩)
  have hholds : holdsLaunch .run t0 d 4 = true := by
    rw [holdsLaunch, Bool.and_eq_true]
    exact ⟨hr, by rw [h4]; simp⟩
  have hyn : nextLaunch y = none := (nextLaunch_hk hyq).trans (launchWait_none hy4)
  have hyh : holdsLaunch .run t0 y 4 = false := by
    rw [holdsLaunch, hy4]
    simp
  have hlead : leadIsland .run = 4 := rfl
  rw [launchRow, if_pos hissued, launchesArrive_none hx, hlead]
  dsimp only
  rw [ht]
  change launchesUntil (254 + 1 + 1) .run t0 d = y
  rw [launchesUntil, hlead, hholds, Bool.true_or, if_pos rfl, hn, launchesUntil, hyn, hlead, hyh]
  exact if_neg (by simp)

/-! ### The service button -/

/-- SVC_HOLD is entered: the outputs off, no unlock, and no use of the boot port (R46, R76, R508). -/
theorem enterSvcHold_words (d : Device) : (enterSvcHold d).start.st = .svcHold ∧ (enterSvcHold d).sup.unlockEnd = none ∧
    (enterSvcHold d).loader.rd = none ∧ (enterSvcHold d).bootp.cur = none ∧ (enterSvcHold d).button.armed = d.button.armed ∧
    (enterSvcHold d).button.rampAt = none := by
  obtain ⟨x, hx⟩ : ∃ x, powerLow (forEach allChans regate (d.updStart fun s => { s with
    st := .svcHold, entered := d.up, modeUnstable := false, checking := false, resolvedAt := none })) = x := ⟨_, rfl⟩
  have k : Keeps [.slots, .chans, .profs, .paths, .srcs] (d.updStart fun s => { s with
      st := .svcHold, entered := d.up, modeUnstable := false, checking := false, resolvedAt := none }) x :=
    hx ▸ (powerLow_keeps _).after ((Keeps.forEach regate_keeps (.refl ..)).mono rfl) rfl
  have hst : x.start.st = .svcHold := k.parts .devState rfl
  have hb : x.button = d.button := k.parts .button rfl
  obtain ⟨y, he, h1, h2, h3, h4, h5, h6⟩ : ∃ y : Device, enterSvcHold d = (if y.cvn.member && !y.cvn.source then rollPush 3 0 y else y) ∧ y.start = x.start ∧
      y.sup.unlockEnd = none ∧ y.loader.rd = none ∧ y.bootp.cur = none ∧ y.button.armed = x.button.armed ∧ y.button.rampAt = none := by
    unfold enterSvcHold
    dsimp only
    rw [hx]
    exact ⟨_, rfl, rfl, rfl, rfl, rfl, rfl, rfl⟩
  have hw : y.start.st = .svcHold ∧ y.sup.unlockEnd = none ∧ y.loader.rd = none ∧ y.bootp.cur = none ∧ y.button.armed = d.button.armed ∧
      y.button.rampAt = none := ⟨by rw [h1, hst], h2, h3, h4, by rw [h5, hb], h6⟩
  rw [he]
  split
  · exact hw
  · exact hw

theorem drive_svcHold {d : Device} (h : d.start.st = .svcHold) : (drive d).pins.allOff ∧ (drive d).pins.boot = false := by
  refine ⟨drive_allOff d (by simp [h]), ?_⟩
  change bootPin d = false
  rw [bootPin, h]

/-- A press of 8 s as it is judged: time has passed, and it is counted no longer (R75). -/
def pressJudged (u : Nat) (d : Device) : Device :=
  let w := waitUp (u + 8 * sec) d
  { w with button := { w.button with pressAt := none } }

theorem pressJudged_words (u : Nat) (d : Device) : (pressJudged u d).start = d.start ∧ (pressJudged u d).button = { d.button with pressAt := none } ∧
    (pressJudged u d).clk.up = max d.clk.up (u + 8 * sec) ∧ svcAllowed (pressJudged u d) = svcAllowed d := by
  obtain ⟨w, hw⟩ : ∃ w, waitUp (u + 8 * sec) d = w := ⟨_, rfl⟩
  have hst : w.start = d.start := by rw [← hw, waitUp_start]
  have hb : w.button = d.button := by rw [← hw, waitUp_button]
  have hm : w.mode = d.mode := by rw [← hw, waitUp_mode]
  have hl : w.loader = d.loader := by rw [← hw, waitUp_loader]
  have hup : w.clk.up = max d.clk.up (u + 8 * sec) := by rw [← hw, waitUp_up]
  rw [pressJudged, hw]
  refine ⟨hst, by rw [hb], hup, ?_⟩
  simp only [svcAllowed, hm, hl]

/-- What a judged press does, by the device state and the image (R75). -/
theorem svcPress_eq {u : Nat} {d : Device} (hu : d.button.pressAt = some u) (hr : d.start.st ≠ .reset) (hh : d.start.st ≠ .svcHold) :
    svcPress d = let x := pressJudged u d
      if x.start.st = .run ∧ svcAllowed x = false then
        logEvent 0x0105 x.mode.active.toNat 0 0 { x with button := { x.button with ignored := satInc x.button.ignored } }
      else
        let y := logEvent 0x0106 x.mode.active.toNat 0 0 x
        if y.start.st = .run then { y with button := { y.button with rampAt := some y.up } } else enterSvcHold y := by
  rw [svcPress, hu]
  exact if_neg (by simp [hr, hh])

theorem svcPress_ignored {u : Nat} {d : Device} (hu : d.button.pressAt = some u) (hr : d.start.st = .run) (ha : svcAllowed d = false) :
    (svcPress d).button.ignored = satInc d.button.ignored ∧ (svcPress d).button.rampAt = d.button.rampAt ∧ (svcPress d).start.st = .run ∧
      (svcPress d).clk.up = max d.clk.up (u + 8 * sec) := by
  obtain ⟨h1, h2, h3, h4⟩ := pressJudged_words u d
  obtain ⟨x, hx⟩ : ∃ x, pressJudged u d = x := ⟨_, rfl⟩
  have he := svcPress_eq hu (by simp [hr]) (by simp [hr])
  rw [hx] at he h1 h2 h3 h4
  dsimp only at he
  rw [if_pos ⟨h1 ▸ hr, h4.trans ha⟩] at he
  have k := logEvent_keeps 0x0105 x.mode.active.toNat 0 0 { x with button := { x.button with ignored := satInc x.button.ignored } }
  have hb : (svcPress d).button = { x.button with ignored := satInc x.button.ignored } := by
    rw [he]
    exact k.parts .button rfl
  have hs : (svcPress d).start = x.start := by
    rw [he]
    exact k.start_eq rfl rfl rfl
  have hc : (svcPress d).clk = x.clk := by
    rw [he]
    exact k.clk_eq
  rw [hb, hs, hc, h1, h2, h3]
  exact ⟨rfl, rfl, hr, rfl⟩

theorem svcPress_ramps {u : Nat} {d : Device} (hu : d.button.pressAt = some u) (hr : d.start.st = .run) (ha : svcAllowed d = true) :
    (svcPress d).button.rampAt = some (max d.clk.up (u + 8 * sec)) ∧ (svcPress d).button.armed = d.button.armed ∧ (svcPress d).start.st = .run := by
  obtain ⟨h1, h2, h3, h4⟩ := pressJudged_words u d
  obtain ⟨x, hx⟩ : ∃ x, pressJudged u d = x := ⟨_, rfl⟩
  have he := svcPress_eq hu (by simp [hr]) (by simp [hr])
  rw [hx] at he h1 h2 h3 h4
  have k := logEvent_keeps 0x0106 x.mode.active.toNat 0 0 x
  have hb : (logEvent 0x0106 x.mode.active.toNat 0 0 x).button = x.button := k.parts .button rfl
  have hs : (logEvent 0x0106 x.mode.active.toNat 0 0 x).start = x.start := k.start_eq rfl rfl rfl
  have hc : (logEvent 0x0106 x.mode.active.toNat 0 0 x).up = max d.clk.up (u + 8 * sec) := (congrArg Clocks.up k.clk_eq).trans h3
  dsimp only at he
  rw [if_neg (by simp [h4, ha]), if_pos (by rw [hs, h1, hr])] at he
  rw [he, ← hc]
  exact ⟨rfl, by rw [hb, h2], by rw [hs, h1, hr]⟩

theorem svcPress_holds {u : Nat} {d : Device} (hu : d.button.pressAt = some u) (hn : d.start.st ≠ .run) (hr : d.start.st ≠ .reset)
    (hh : d.start.st ≠ .svcHold) : ∃ e : Device, e.button.armed = d.button.armed ∧ svcPress d = enterSvcHold e := by
  obtain ⟨h1, h2, -, -⟩ := pressJudged_words u d
  obtain ⟨x, hx⟩ : ∃ x, pressJudged u d = x := ⟨_, rfl⟩
  have he := svcPress_eq hu hr hh
  rw [hx] at he h1 h2
  have k := logEvent_keeps 0x0106 x.mode.active.toNat 0 0 x
  have hb : (logEvent 0x0106 x.mode.active.toNat 0 0 x).button = x.button := k.parts .button rfl
  have hs : (logEvent 0x0106 x.mode.active.toNat 0 0 x).start = x.start := k.start_eq rfl rfl rfl
  dsimp only at he
  rw [if_neg (by simp [h1, hn]), if_neg (by rw [hs, h1]; exact hn)] at he
  exact ⟨_, by rw [hb, h2], he⟩

/-- 250 us after an honoured press the device enters SVC_HOLD (R75). -/
theorem svcRampDone_holds {u : Nat} {d : Device} (hu : d.button.rampAt = some u) (hr : d.start.st = .run) :
    ∃ e, svcRampDone d = enterSvcHold e := by
  rw [svcRampDone, hu]
  exact ⟨_, if_pos hr⟩

/-- Settles O15: the role resolved to running alone, RUN entered at its boundary, and the presses of the service button. -/
theorem joinRunAndButton : Obligations.JoinRunAndButton := by
  unfold Obligations.JoinRunAndButton
  refine ⟨fun s hc hs hr => ?_, fun s u hc hs hl hu => ?_, fun u t0 s hs hl hu ht hx hq h4 hr => ?_, fun s => ⟨_, rfl, rfl⟩, fun s hh ha => ?_,
    fun s hh => ?_, fun s u hc hu hr ha => ?_, fun s u hc hu hr ha => ?_, fun s u hc hu hn hr hh => ?_, fun s u hc hu hr => ?_⟩
  · obtain ⟨t, hn, hd⟩ := done_next joinTimeout s
    refine ⟨t, (execJoinTimeout_calm s hc).trans hn, ?_⟩
    rw [hd]
    exact joinTimeout_due hs hr
  · obtain ⟨t, hn, hd⟩ := done_next runLaunch s
    refine ⟨t, (execRunLaunch_calm s hc).trans hn, ?_⟩
    rw [hd]
    exact runLaunch_runs hs hl hu
  · obtain ⟨t, hn, hd⟩ := done_next (launchRow .run runLaunch) s
    obtain ⟨x, he, hxl, hxq, hx4⟩ := runLaunch_held hs hl hu ht hq h4 hr
    obtain ⟨h1, h2, h3, hck, hls, -⟩ := runHk_runs x
    have hrow : launchRow .run runLaunch s.dev = runHk x :=
      launchRow_run_held hx h4 hr he (fun q => by rw [hls]; exact hxq q) (by rw [hls]; exact hx4)
    refine ⟨t, hn, ?_⟩
    rw [hd, hrow, drive_start, drive_isl, drive_clk, drive_bus, hls, hck]
    exact ⟨h1, h2, hx4, hxl, h3⟩
  · obtain ⟨t, hn, hd⟩ := done_next (svcDebounce false) s
    refine ⟨t, hn, hd.trans ?_⟩
    simp only [svcDebounce, hh, ha, if_true, Bool.false_eq_true, if_false]
    rfl
  · obtain ⟨t, hn, hd⟩ := done_next (svcDebounce false) s
    refine ⟨t, hn, hd.trans (congrArg drive ?_)⟩
    have hb : { s.dev.button with high := false, pressAt := s.dev.button.pressAt } = s.dev.button := by rw [← hh]
    simp only [svcDebounce, hh, Bool.false_eq_true, if_false, hb]
  · obtain ⟨t, hn, hd⟩ := done_next svcPress s
    refine ⟨t, (execSvcPress8s_calm s hc).trans hn, ?_⟩
    rw [hd]
    exact svcPress_ignored hu hr ha
  · obtain ⟨t, hn, hd⟩ := done_next svcPress s
    refine ⟨t, (execSvcPress8s_calm s hc).trans hn, ?_⟩
    rw [hd]
    exact svcPress_ramps hu hr ha
  · obtain ⟨t, ht, hd⟩ := done_next svcPress s
    obtain ⟨e, ha, he⟩ := svcPress_holds hu hn hr hh
    obtain ⟨h1, h2, h3, h4, h5, -⟩ := enterSvcHold_words e
    obtain ⟨p1, p2⟩ := drive_svcHold h1
    refine ⟨t, (execSvcPress8s_calm s hc).trans ht, ?_⟩
    rw [hd, he, drive_start, drive_sup, drive_loader, drive_bootp, drive_button, h1, h2, h3, h4, h5, ha]
    exact ⟨rfl, rfl, p1, rfl, rfl, p2, rfl⟩
  · obtain ⟨t, ht, hd⟩ := done_next svcRampDone s
    obtain ⟨e, he⟩ := svcRampDone_holds hu hr
    obtain ⟨h1, h2, -, -, -, h6⟩ := enterSvcHold_words e
    refine ⟨t, (execSvcRampDone_calm s hc).trans ht, ?_⟩
    rw [hd, he, drive_start, drive_sup, drive_button, h1, h2, h6]
    exact ⟨rfl, (drive_svcHold h1).1, rfl, rfl⟩

end Sys2Proof.Machine

/-! ## Launches and crossings (01, Order of events across islands, Crossings between islands) -/

namespace Sys2Proof.Machine

/-- Housekeeping in RUN at a millisecond boundary that no time frame has taken, with a launch held whose time has passed. -/
def overdueDev : Device :=
  let d := State.reset.dev
  { d with
    start := { d.start with st := .run }
    clk := { d.clk with loc := ms }
    isl := { d.isl with launches := upd d.isl.launches 4 fun _ => [⟨.convStart, 0⟩], clkRun := 0b10000 } }

/-- The boundary is now, so that no time passes to it: the command counts as the first thing of its instant. -/
theorem overdueDev_calm : calm .timeFrameBoundary overdueDev = true := by
  rfl

/-- Refutes O23: at a boundary that is due at once, a launch whose time has passed is still held after the time frame. -/
theorem not_crossings : ¬ Obligations.Crossings := by
  unfold Obligations.Crossings
  rintro ⟨-, -, -, -, -, -, h, -⟩
  obtain ⟨t, ht, -, hl, -⟩ := h 0 ⟨overdueDev, []⟩ rfl (by decide) (by decide) rfl rfl (by decide) rfl
  have he := ht.symm.trans (execTimeFrameBoundary_calm ⟨overdueDev, []⟩ overdueDev_calm)
  have hk : (frameBoundary overdueDev).isl.launches = overdueDev.isl.launches := (frameBoundary_keeps _).launches_eq.1
  rw [Host.Outcome.next.inj he] at hl
  change (frameBoundary overdueDev).isl.launches[(4 : Island)] = [] at hl
  rw [hk] at hl
  exact absurd hl (by decide)

end Sys2Proof.Machine

/-! ## Clauses on the power path that a state refutes (08) -/

namespace Sys2Proof.Machine

/-! ### A bus move in the same instant stops a channel (R302, R417) -/

/-- The bus is SOURCED with no source admitted, so that a hand-over is due at once; its source is set to stop the device, where channel 0 switches. -/
def handoverStops : Device :=
  let d := State.reset.dev
  { d with
    start := { d.start with st := .run }
    bus := { d.bus with st := .sourced }
    chans := upd d.chans 0 fun s => { s with st := .regulate, armed := true, gate := true }
    paths := upd d.paths 0 fun p => { p with instCode := false }
    memory := { d.memory with conf := [(0x16000 + 4 * 0x4B4, 2)] } }

set_option maxRecDepth 20000 in
/-- The hand-over holds channel 0, whose gate closes and brings its instant-trip code into force. -/
theorem handoverStops_instCode : ((busEval handoverStops).paths[(0 : Chan)]).instCode = true := by
  rfl

/-- Refutes O32: a trip event without its comparator lets a hand-over come that closes a channel's gate, which the path's record shows. -/
theorem not_pathSwitches : ¬ Obligations.PathSwitches := by
  unfold Obligations.PathSwitches
  rintro ⟨-, h, -⟩
  obtain ⟨t, -, hd, hp⟩ := h 0 ⟨handoverStops, []⟩ (by decide)
  have hc := handoverStops_instCode
  rw [hd, drive_paths] at hp
  rw [hp] at hc
  exact absurd hc (by decide)

/-! ### A source that the end of a hand-over lets go on (R288, R296, R304) -/

/-- HANDOVER, a source in HOLD whose comparator reads ABOVE and whose voltage has its modulator, and a gate that is open. -/
def holdOver : Device :=
  let d := State.reset.dev
  { d with
    bus := { d.bus with st := .handover }
    srcs := upd d.srcs 0 fun s => { s with st := .hold, isOver := true }
    chans := upd d.chans 0 fun s => { s with gate := true }
    paths := upd d.paths 0 fun p => { p with instCode := false }
    memory := { d.memory with conf := [(0x11000, 3)] } }

theorem holdOver_calm : calm .handoverTimeout holdOver = true := by
  rfl

set_option maxRecDepth 20000 in
/-- The source goes to RAMP and calls for halving, which takes the gate of channel 0 to its wanted level. -/
theorem holdOver_instCode : ((handoverTimeout holdOver).paths[(0 : Chan)]).instCode = true := by
  rfl

/-- Refutes O33: the end of HANDOVER lets a source in HOLD call for halving, and a gate that this closes shows in its path's record. -/
theorem not_busVoltageAndState : ¬ Obligations.BusVoltageAndState := by
  unfold Obligations.BusVoltageAndState
  rintro ⟨-, -, -, -, h, -⟩
  obtain ⟨t, ht, -, -, -, hp⟩ := h ⟨holdOver, []⟩ holdOver_calm rfl (by decide)
  have he := ht.symm.trans (execHandoverTimeout_calm ⟨holdOver, []⟩ holdOver_calm)
  rw [Host.Outcome.next.inj he, drive_paths] at hp
  have hc := holdOver_instCode
  rw [hp] at hc
  exact absurd hc (by decide)

/-! ### A hand-over that is over as the source qualifies (R288, R302) -/

/-- HANDOVER with a switch FULL, and a source in QUAL whose voltage has its modulator. -/
def qualInHandover : Device :=
  let d := State.reset.dev
  { d with
    bus := { d.bus with st := .handover }
    srcs := upd d.srcs 0 fun s => { s with st := .qual, qualAt := some 0 }
    paths := upd d.paths 0 fun p => { p with st := .full }
    memory := { d.memory with conf := [(0x11000, 3)] } }

theorem qualInHandover_calm : calm (.qualTimerExpiry 0) qualInHandover = true := by
  rfl

/-- The source waits in HOLD; the bus then moves to ON_STRINGS at once, and the source goes on to RAMP. -/
theorem qualInHandover_ramp : ((qualTimer 0 qualInHandover).srcs[(0 : Src)]).st = .ramp := by
  rfl

/-- Refutes O34: with a switch FULL the hand-over ends at the same instant, and the source that qualified during it does not stay in HOLD. -/
theorem not_sources : ¬ Obligations.Sources := by
  unfold Obligations.Sources
  rintro ⟨-, h, -⟩
  obtain ⟨t, ht, hh⟩ := h 0 0 ⟨qualInHandover, []⟩ qualInHandover_calm (by decide) rfl rfl (.inr (.inr rfl))
  have he := ht.symm.trans (execQualTimerExpiry_calm 0 ⟨qualInHandover, []⟩ qualInHandover_calm)
  rw [Host.Outcome.next.inj he] at hh
  exact absurd (qualInHandover_ramp.symm.trans hh) (by decide)

end Sys2Proof.Machine

/-! ## Clauses on the measurement that a state refutes (09) -/

namespace Sys2Proof.Machine

/-! ### A cover that goes stale while a conversion runs (R284, R334, R459) -/

/-- A degraded SYS modulator: its quadrant has a fresh SYS value now, and not 1 ms later. -/
def coverGoesStale : Device :=
  let d := State.reset.dev
  { d with
    quads := upd d.quads 0 fun s => { s with sysAt := some 0 }
    mods := upd d.mods 0 fun s => { s with degraded := true }
    memory := { d.memory with conf := [(0x11000, 5)] } }

/-- A conversion of an injection, which takes longer than 1 ms. -/
def longInjection : Conv := ⟨7, 11, 0, true, 0⟩

/-- It runs on the degraded modulator. -/
def staleInjection : Device :=
  { coverGoesStale with
    mods := upd coverGoesStale.mods 0 fun s => { s with conv := some longInjection, injHost := some ⟨0, 11, 255⟩ } }

/-- The conversion is no mean of stream results. -/
theorem staleInjection_tap : isTap staleInjection 0 longInjection = false := by
  rfl

theorem staleInjection_calm : calm (.conversionDone 0 0 false) staleInjection = true := by
  rfl

/-- The result's word no longer says that the role has a cover. -/
theorem staleInjection_word : decide (((conversionDone 0 0 false staleInjection).mods[(0 : Pm)]).inj ≠
    resultWord staleInjection 0 0 (correct staleInjection 0 0).1 false
      (inQuiet (waitUp (convDue staleInjection 0 longInjection) staleInjection) 0 7) false) = true := by
  rfl

/-- Refutes O37: the word of a result is made at its instant, at which the cover that the role had before the conversion may have gone stale. -/
theorem not_conversionsAndCalibration : ¬ Obligations.ConversionsAndCalibration := by
  unfold Obligations.ConversionsAndCalibration
  rintro ⟨-, -, -, -, -, -, h, -⟩
  obtain ⟨t, ht, -, -, -, -, hw, -⟩ :=
    h 0 longInjection ⟨0, 11, 255⟩ 0 false (convDue staleInjection 0 longInjection) ⟨staleInjection, []⟩ staleInjection_calm (by decide) rfl
      staleInjection_tap rfl (by decide) rfl (by decide)
  have he := ht.symm.trans (execConversionDone_calm 0 0 false ⟨staleInjection, []⟩ staleInjection_calm)
  rw [Host.Outcome.next.inj he, drive_mods] at hw
  rw [show ((0 : BitVec 24).toInt) = 0 by decide] at hw
  exact of_decide_eq_true staleInjection_word hw

/-! ### A table that stands while a halt is skipped (R343) -/

/-- A table that does not run, and whose entry is to move on from a halt that does not come. -/
def standingTable : Device :=
  let d := State.reset.dev
  { d with seqs := upd d.seqs 0 fun s => { s with waitHalt := true, skipTo := some 0 } }

theorem standingTable_calm : calm (.sequencerDelayExpiry 0) standingTable = true := by
  rfl

/-- It moves to its next entry. -/
theorem standingTable_moves : ((seqDelay 0 standingTable).seqs[(0 : Table)]).waitHalt = false := by
  rfl

/-- Refutes O38: a table that does not run still moves on from an entry that waited for a skipped halt. -/
theorem not_sequencerTables : ¬ Obligations.SequencerTables := by
  unfold Obligations.SequencerTables
  rintro ⟨h, -⟩
  obtain ⟨t, ht, hd⟩ := h 0 ⟨standingTable, []⟩ standingTable_calm rfl
  have he := ht.symm.trans (execSequencerDelayExpiry_calm 0 ⟨standingTable, []⟩ standingTable_calm)
  rw [Host.Outcome.next.inj he] at hd
  have hs := congrArg Device.seqs hd
  rw [drive_seqs, drive_seqs] at hs
  have hw := standingTable_moves
  rw [hs] at hw
  exact absurd hw (by decide)

/-! ### A cover that goes stale before the snapshot ends (R338, R459) -/

/-- A quiet window whose snapshot ends 6 ms from now, with quadrant 0 clocked and its degraded modulator covered now. -/
def staleSnapshot : Device :=
  { coverGoesStale with
    isl := { coverGoesStale.isl with clkRun := 1 }
    halt := { coverGoesStale.halt with cur := some ⟨0, 25000, 400, 2000, false⟩, phase := .quiet, converted := true } }

theorem staleSnapshot_calm : calm (.snapshotDone (Vector.replicate 88 0)) staleSnapshot = true := by
  rfl

set_option maxRecDepth 20000 in
/-- The snapshot's word no longer says that the role has a cover. -/
theorem staleSnapshot_word : decide (((snapshotDone (Vector.replicate 88 0) staleSnapshot).mods[(0 : Pm)]).snap ≠
    resultWord staleSnapshot 0 (snapInput staleSnapshot 0) (correct staleSnapshot 0 0).1 (correct staleSnapshot 0 0).2 true false) = true := by
  rfl

/-- Refutes O39: the words of a snapshot are made as it ends, when a cover that stood before may have gone stale. -/
theorem not_haltMeasurements : ¬ Obligations.HaltMeasurements := by
  unfold Obligations.HaltMeasurements
  rintro ⟨-, h, -⟩
  obtain ⟨t, ht, -, -, -, hm⟩ :=
    h (Vector.replicate 88 0) _ ⟨staleSnapshot, []⟩ staleSnapshot_calm rfl rfl rfl rfl rfl rfl
  have he := ht.symm.trans (execSnapshotDone_calm (Vector.replicate 88 0) ⟨staleSnapshot, []⟩ staleSnapshot_calm)
  rw [Host.Outcome.next.inj he] at hm
  have hq := (hm 0).2 (by decide)
  rw [drive_mods] at hq
  exact of_decide_eq_true staleSnapshot_word hq

end Sys2Proof.Machine

/-! ## The collector under a raise (11) -/

namespace Sys2Proof.Machine

/-! ### A collector that runs goes on to run -/

theorem Keeps.colRuns_eq {S : List Part} {d e : Device} (k : Keeps S d e) (h : S.contains .devState = false := by rfl) : colRuns e = colRuns d := by
  have hs : e.start.st = d.start.st := k.parts .devState h
  rw [colRuns, hs, colRuns]

theorem latchAtStart_colRuns {d : Device} (h : colRuns d = true) : colRuns (latchAtStart d) = true := by
  have hs : (latchAtStart d).start.st = match d.start.st with
      | .build => if d.start.modeUnstable then .configured else .build | .join => .configured | x => x := rfl
  rw [colRuns] at h ⊢
  rw [hs]
  split
  · split <;> rfl
  · rfl
  · exact h

theorem reactNow_colRuns (f : Nat) (sc : Scope) (s : Severity) {d : Device} (h : colRuns d = true) : colRuns (reactNow f sc s d) = true := by
  have hr (e : Device) : colRuns (react f sc (actSev sc s) e) = colRuns e := (react_keeps ..).colRuns_eq
  exact if_cases (p := fun x => colRuns x = true) ((hr d).trans h)
    (if_cases (p := fun x => colRuns x = true) ((hr _).trans (latchAtStart_colRuns h)) (if_cases (p := fun x => colRuns x = true) h h))

theorem raiseX_colRuns (f : Nat) (level : Bool) (x : Nat) {d : Device} (h : colRuns d = true) : colRuns (raiseX f level x d) = true := by
  rcases raiseX_cases f level x d with k | ⟨sc, -, -, -, he⟩
  · exact k.colRuns_eq.trans h
  · rw [he]
    exact reactNow_colRuns _ _ _ ((recordRaise_keeps f sc level x d).colRuns_eq.trans h)

theorem raiseLevel_colRuns (f x : Nat) {d : Device} (h : colRuns d = true) : colRuns (raiseLevel f x d) = true := by
  unfold raiseLevel
  dsimp only
  split
  · exact if_cases (p := fun x => colRuns x = true) h h
  · exact if_cases (p := fun x => colRuns x = true) h (raiseX_colRuns _ _ _ h)

theorem faultEnds_colRuns (f : Nat) {d : Device} (h : colRuns d = true) : colRuns (faultEnds f d) = true := by
  have hr : colRuns (readsActive f d) = true := raiseX_colRuns f true (hkReading d f) h
  exact if_cases (p := fun x => colRuns x = true) (if_cases (p := fun x => colRuns x = true) hr h) h

/-! ### Sources whose condition lasts, while no injection inverts a reading -/

theorem Keeps.fiMode_eq {S : List Part} {d e : Device} (k : Keeps S d e) (h : S.contains .fi = false := by rfl) : e.col.fiMode = d.col.fiMode :=
  congrArg (fun w : BitVec 12 × BitVec 2 × BitVec 16 × Nat => w.2.1) (k.fiWords_eq h)

theorem not_inverted {d : Device} (h : d.col.fiMode ≠ 3) (f : Nat) : inverted d f = false := by
  rw [inverted, decide_eq_false h, Bool.and_false]

/-- A condition that lasts makes its source active. -/
theorem raiseLevel_active {f : Nat} {sc : Scope} (x : Nat) {d : Device} (hs : scopeOf f = some sc) (hc : colRuns d = true) (hi : d.col.fiMode ≠ 3) :
    ((raiseLevel f x d).faults[Fin.ofNat 2048 f]).active = true := by
  have he : raiseLevel f x d = if (d.faults[Fin.ofNat 2048 f]).active then d.updFault (Fin.ofNat 2048 f) fun y => { y with level := true } else
      raiseX f true x d := if_neg (by rw [not_inverted hi]; exact Bool.false_ne_true)
  cases ha : (d.faults[Fin.ofNat 2048 f]).active with
  | true =>
    rw [he, if_pos ha, updFault_faults, upd_same]
    exact ha
  | false =>
    rw [he, if_neg (by rw [ha]; exact Bool.false_ne_true)]
    obtain ⟨b, hf⟩ := raiseX_fault (level := true) (x := x) hs hc ha
    rw [hf]
    simp only [raisedFault, Bool.or_true]

theorem raiseLevel_other {f : Nat} (x : Nat) (d : Device) {g : Fsrc} (hg : g ≠ Fin.ofNat 2048 f) : (raiseLevel f x d).faults[g] = d.faults[g] := by
  unfold raiseLevel
  dsimp only
  split
  · exact if_cases (p := fun y : Device => y.faults[g] = d.faults[g]) rfl ((upd_other _ _ _ _ hg).trans (upd_other _ _ _ _ hg))
  · exact if_cases (p := fun y : Device => y.faults[g] = d.faults[g]) (upd_other _ _ _ _ hg) (raiseX_fault_other true x d hg)

/-- A condition that ends leaves its source inactive where its reporting path is whole. -/
theorem faultEnds_inactive {f : Nat} {d : Device} (hi : d.col.fiMode ≠ 3) (hp : (d.faults[Fin.ofNat 2048 f]).rpath = false) :
    ((faultEnds f d).faults[Fin.ofNat 2048 f]).active = false := by
  rw [faultEnds, not_inverted hi, if_neg Bool.false_ne_true, updFault_faults, upd_same]
  generalize d.faults[Fin.ofNat 2048 f] = y at hp ⊢
  cases ha : y.active <;> simp [hp]

theorem faultEnds_other {f : Nat} {d : Device} (hi : d.col.fiMode ≠ 3) {g : Fsrc} (hg : g ≠ Fin.ofNat 2048 f) :
    (faultEnds f d).faults[g] = d.faults[g] := by
  rw [faultEnds, not_inverted hi, if_neg Bool.false_ne_true, updFault_faults, upd_other _ _ _ _ hg]

/-! ### One bit of a word -/

/-- A word with one bit set. -/
theorem bitOf_or_bit {w : Nat} (x : BitVec w) {i j : Nat} (hj : j < w) :
    bitOf (x ||| BitVec.ofNat w (2 ^ i)).toNat j = (bitOf x.toNat j || decide (i = j)) := by
  simp only [bitOf, BitVec.toNat_or, BitVec.toNat_ofNat, Nat.testBit_or, Nat.testBit_mod_two_pow, Nat.testBit_two_pow, hj, decide_true, Bool.true_and]

/-! ### A step that each object of a list takes once -/

/-- What a step establishes of its object and no other step undoes holds of every object of the list. -/
theorem forEach_each {α : Type} {P : α → Device → Prop} {f : α → Device → Device} (hdo : ∀ a d, P a (f a d)) (hkeep : ∀ a b d, P a d → P a (f b d))
    {l : List α} {a : α} (ha : a ∈ l) : ∀ d, P a (forEach l f d) := by
  induction l with
  | nil => cases ha
  | cons b l ih =>
    intro d
    rcases List.mem_cons.1 ha with rfl | h
    · exact forEach_induct (P a) l f (fun b e he => hkeep a b e he) _ (hdo a d)
    · exact ih h (f b d)

end Sys2Proof.Machine

/-! ## References and oscillators (10, Reference comparison; 12, Oscillators) -/

namespace Sys2Proof.Machine

/-! ### Implausible references (R405) -/

/-- The first reference is found implausible while the second may serve: the change begins. -/
theorem refImplausible_first {d : Device} (hc : colRuns d = true) (hi : d.col.fiMode ≠ 3) (hb : d.hk.refbBad = false) (hon : d.hk.refOnB = false) :
    (refImplausible false d).hk = { d.hk with refaBad := true, changing := true, changeAt := some d.clk.loc } ∧
      ((refImplausible false d).faults[Fin.ofNat 2048 0x598]).active = true := by
  obtain ⟨e, he⟩ : ∃ e, raiseLevel 0x598 0 (d.updHk fun h => { h with refaBad := true }) = e := ⟨_, rfl⟩
  have k : Keeps raises (d.updHk fun h => { h with refaBad := true }) e := he ▸ raiseLevel_keeps ..
  have hh : e.hk = { d.hk with refaBad := true } := k.parts .hk rfl
  have ha : (e.faults[Fin.ofNat 2048 0x598]).active = true := he ▸ raiseLevel_active 0 (sc := .device) (by decide) hc hi
  have hl : e.clk.loc = d.clk.loc := congrArg Clocks.loc k.clk_eq
  have hr : refImplausible false d = e.updHk fun h => { h with changing := true, changeAt := some e.loc } := by
    simp only [refImplausible, Bool.false_eq_true, if_false, he, hh, hb, and_false, hon, and_self, if_true]
  rw [hr]
  refine ⟨?_, ha⟩
  rw [updHk_hk, hh]
  simp only [Device.loc, hl]

/-- The second reference is found implausible as the first one is already: no change begins, and both sources are raised. -/
theorem refImplausible_both {d : Device} (hc : colRuns d = true) (hi : d.col.fiMode ≠ 3) (ha : d.hk.refaBad = true) :
    (refImplausible true d).hk = { d.hk with refbBad := true } ∧ ((refImplausible true d).faults[Fin.ofNat 2048 0x599]).active = true ∧
      ((refImplausible true d).faults[Fin.ofNat 2048 0x59A]).active = true := by
  obtain ⟨e, he⟩ : ∃ e, raiseLevel 0x599 0 (d.updHk fun h => { h with refbBad := true }) = e := ⟨_, rfl⟩
  have k : Keeps raises (d.updHk fun h => { h with refbBad := true }) e := he ▸ raiseLevel_keeps ..
  have hh : e.hk = { d.hk with refbBad := true } := k.parts .hk rfl
  have hb : (e.faults[Fin.ofNat 2048 0x599]).active = true := he ▸ raiseLevel_active 0 (sc := .device) (by decide) hc hi
  have hce : colRuns e = true := he ▸ raiseLevel_colRuns _ _ (d := d.updHk _) hc
  have hie : e.col.fiMode ≠ 3 := by rw [k.fiMode_eq]; exact hi
  have hr : refImplausible true d = raiseLevel 0x59A 0 e := by
    simp only [refImplausible, Bool.true_eq_false, if_true, he, hh, ha, and_self, false_and, if_false]
  rw [hr]
  refine ⟨((raiseLevel_keeps ..).parts .hk rfl).trans hh, ?_, raiseLevel_active 0 (sc := .device) (by decide) hce hie⟩
  rw [raiseLevel_other 0 e (by decide)]
  exact hb

/-- A reference is plausible again: its own flag and source clear. -/
theorem refPlausible_words (b : Bool) {d : Device} (hi : d.col.fiMode ≠ 3) (hp : (d.faults[Fin.ofNat 2048 (if b then 0x599 else 0x598)]).rpath = false) :
    (refPlausible b d).hk = (if b then { d.hk with refbBad := false } else { d.hk with refaBad := false }) ∧
      ((refPlausible b d).faults[Fin.ofNat 2048 (if b then 0x599 else 0x598)]).active = false := by
  obtain ⟨e, he⟩ : ∃ e, d.updHk (fun h => if b then { h with refbBad := false } else { h with refaBad := false }) = e := ⟨_, rfl⟩
  have hf : e.faults = d.faults := he ▸ rfl
  have hie : e.col.fiMode ≠ 3 := he ▸ hi
  obtain ⟨g, hg⟩ : ∃ g, faultEnds (if b then 0x599 else 0x598) e = g := ⟨_, rfl⟩
  have k : Keeps raises e g := hg ▸ faultEnds_keeps ..
  have hr : refPlausible b d = faultEnds 0x59A g := by rw [refPlausible, he, hg]
  rw [hr]
  constructor
  · exact ((faultEnds_keeps ..).parts .hk rfl).trans ((k.parts .hk rfl).trans (he ▸ rfl))
  · rw [faultEnds_other (by rw [k.fiMode_eq]; exact hie) (by cases b <;> decide), ← hg]
    exact faultEnds_inactive hie (by rw [hf]; exact hp)

/-! ### The change to the second reference (R406) -/

/-- A modulator's conversion is gone, and its stream starts afresh at an instant. -/
structure Restarted (u : Nat) (m : Pm) (d : Device) : Prop where
  conv : (d.mods[m]).conv = none
  streamOk : (d.mods[m]).streamOk = false
  streamAt : (d.mods[m]).streamAt = u

/-- The streams start afresh at an instant. -/
structure Streams (u : Nat) (d : Device) : Prop where
  ok : ∀ m : Pm, (d.mods[m]).streamOk = false
  start : ∀ m : Pm, (d.mods[m]).streamAt = u

/-- A discarded conversion changes nothing of another modulator, and of its own no more than what it was asked for. -/
theorem discardConv_mods (m : Pm) (d : Device) : ∃ g : ModSt → ModSt, (discardConv m d).mods = upd d.mods m g ∧
    ∀ s, s = d.mods[m] → (g s).conv = none ∧ (g s).streamOk = s.streamOk ∧ (g s).streamAt = s.streamAt := by
  unfold discardConv
  dsimp only
  split
  case h_1 h => exact ⟨id, (upd_id _ _ _ rfl).symm, fun s hs => ⟨by rw [hs]; exact h, rfl, rfl⟩⟩
  case h_2 v h =>
    have hend (e : Device) : (injEnd m e).mods = e.mods := (injEnd_keeps m e).parts .mods rfl
    split
    · exact ⟨fun s => { s with conv := none, injHost := none, injRun := false }, (hend _).trans
        (upd_upd d.mods m (fun s => { s with conv := none }) (fun s => { s with injHost := none, injRun := false })), fun _ _ => ⟨rfl, rfl, rfl⟩⟩
    · exact ⟨fun s => { s with conv := none, injNewt := none }, (hend _).trans
        (upd_upd d.mods m (fun s => { s with conv := none }) (fun s => { s with injNewt := none })), fun _ _ => ⟨rfl, rfl, rfl⟩⟩
    · exact ⟨fun s => { s with conv := none }, rfl, fun _ _ => ⟨rfl, rfl, rfl⟩⟩
    · exact ⟨fun s => { s with conv := none }, rfl, fun _ _ => ⟨rfl, rfl, rfl⟩⟩

theorem discardConv_other {m k : Pm} (h : k ≠ m) (d : Device) : (discardConv m d).mods[k] = d.mods[k] := by
  obtain ⟨g, hg, -⟩ := discardConv_mods m d
  rw [hg, upd_other _ _ _ _ h]

theorem discardConv_streams {u : Nat} (m : Pm) {d : Device} (h : Streams u d) : Streams u (discardConv m d) := by
  obtain ⟨g, hg, hs⟩ := discardConv_mods m d
  obtain ⟨-, h2, h3⟩ := hs _ rfl
  constructor <;> intro k <;> by_cases hk : k = m
  · subst hk
    rw [hg, upd_same, h2, h.ok]
  · rw [discardConv_other hk, h.ok]
  · subst hk
    rw [hg, upd_same, h3, h.start]
  · rw [discardConv_other hk, h.start]

theorem discardConv_conv (m : Pm) (d : Device) : ((discardConv m d).mods[m]).conv = none := by
  obtain ⟨g, hg, hs⟩ := discardConv_mods m d
  rw [hg, upd_same]
  exact (hs _ rfl).1

theorem discardConv_conv_kept (m k : Pm) (d : Device) (h : (d.mods[m]).conv = none) : ((discardConv k d).mods[m]).conv = none := by
  by_cases hk : m = k
  · rw [hk]
    exact discardConv_conv k d
  · rw [discardConv_other hk, h]

/-- The change at its instant, before the conversions in progress are discarded. -/
def refTaken (d : Device) : Device :=
  let x := d.hk.trimB + qRound (d.hk.heldOffset * 4000000)
  let d := d.updHk fun h => { h with
    changing := false, changeAt := none, changedAt := some d.up, refOnB := true, stray := Vector.replicate 4 false
    trimB := satInt x (-2000) 2000, trimBNext := satInt x (-2000) 2000
    trimLimit := h.trimLimit || decide (satInt x (-2000) 2000 ≠ x) }
  { d with mods := d.mods.map fun (s : ModSt) => { s with streamAt := d.up, streamOk := false } }

theorem refTaken_trimB (d : Device) : (refTaken d).hk.trimB = satInt (d.hk.trimB + qRound (d.hk.heldOffset * 4000000)) (-2000) 2000 := rfl

theorem refTaken_words (d : Device) : (refTaken d).hk.refOnB = true ∧ (refTaken d).hk.changing = false ∧ (refTaken d).hk.changeAt = none ∧
    (refTaken d).hk.changedAt = some d.clk.up ∧ (refTaken d).clk = d.clk := ⟨rfl, rfl, rfl, rfl, rfl⟩

theorem refTaken_streams (d : Device) : Streams d.clk.up (refTaken d) :=
  ⟨fun _ => congrArg ModSt.streamOk (Vector.getElem_map ..), fun _ => congrArg ModSt.streamAt (Vector.getElem_map ..)⟩

theorem refChange_eq {u : Nat} {d w : Device} (h : d.hk.changeAt = some u) (hw : waitLoc ((u + us + ms - 1) / ms * ms) d = w) :
    refChange d = logEvent 0x0601 (encSigned (qRound ((refTaken w).hk.heldOffset * 100000000)) 32) 0 0 (forEach allMods discardConv (refTaken w)) := by
  rw [refChange, h]
  dsimp only
  rw [hw]
  rfl

/-- The change to the second reference takes effect: what housekeeping then shows, and every modulator afresh. -/
theorem refChange_due {u : Nat} {d : Device} (h : d.hk.changeAt = some u) :
    (refChange d).clk.loc = max d.clk.loc ((u + us + ms - 1) / ms * ms) ∧ (refChange d).hk.refOnB = true ∧ (refChange d).hk.changing = false ∧
      (refChange d).hk.changeAt = none ∧ (refChange d).hk.changedAt = some (refChange d).clk.up ∧
      (refChange d).hk.trimB = satInt (d.hk.trimB + qRound (d.hk.heldOffset * 4000000)) (-2000) 2000 ∧
      ∀ m : Pm, Restarted (refChange d).clk.up m (refChange d) := by
  obtain ⟨w, hw⟩ : ∃ w, waitLoc ((u + us + ms - 1) / ms * ms) d = w := ⟨_, rfl⟩
  have hl : w.clk.loc = max d.clk.loc ((u + us + ms - 1) / ms * ms) := by rw [← hw, waitLoc_loc]
  have hwh : w.hk = d.hk := by rw [← hw, waitLoc_hk]
  have he := refChange_eq h hw
  have hes := refTaken_streams w
  have htrim := refTaken_trimB w
  have hwords := refTaken_words w
  generalize refTaken w = e at he hes htrim hwords
  obtain ⟨h1, h2, h3, h4, hec⟩ := hwords
  have k : Keeps [.arbs, .mods, .seqs, .cal, .alert, .log] e (refChange d) := by
    rw [he]
    exact (logEvent_keeps ..).after (Keeps.forEach (fun m x => (discardConv_keeps m x).mono rfl) (.refl ..)) rfl
  have hk : (refChange d).hk = e.hk := k.parts .hk rfl
  have hc : (refChange d).clk = w.clk := k.clk_eq.trans hec
  have hm : (refChange d).mods = (forEach allMods discardConv e).mods := by
    rw [he]
    exact (logEvent_keeps ..).parts .mods rfl
  have hs : Streams w.clk.up (forEach allMods discardConv e) := forEach_induct _ allMods discardConv (fun m _ => discardConv_streams m) e hes
  rw [hwh] at htrim
  rw [hk, hc]
  refine ⟨hl, h1, h2, h3, h4, htrim, fun m => ⟨?_, ?_, ?_⟩⟩
  · rw [hm]
    exact forEach_each (P := fun m x => (x.mods[m]).conv = none) discardConv_conv discardConv_conv_kept (List.mem_finRange m) e
  · rw [hm, hs.ok]
  · rw [hm, hs.start]

theorem refChange_none {d : Device} (h : d.hk.changeAt = none) : refChange d = d := by rw [refChange, h]

/-! ### Lost oscillators (R464) -/

theorem oscLost_again {i : Island} {o : Fin 2} {d : Device} (h : bitOf d.hk.oscLost.toNat (2 * i.1 + o.1) = true) : oscLost i o d = d := if_pos h

theorem oscScope (i : Island) (o : Fin 2) : ∃ sc, scopeOf (0x5C0 + (2 * i.1 + o.1)) = some sc := by
  rw [← Option.isSome_iff_exists]
  revert i o
  decide

theorem oscBothScope (i : Island) : scopeOf (0x5D0 + i.1) = some .device := by
  revert i
  decide

theorem oscBoth_ne (i : Island) (o : Fin 2) : (Fin.ofNat 2048 (0x5D0 + i.1) : Fsrc) ≠ Fin.ofNat 2048 (0x5C0 + (2 * i.1 + o.1)) := by
  revert i o
  decide

/-- The first oscillator of an island is lost, and the other one serves. -/
theorem oscLost_first {i : Island} {d : Device} (hc : colRuns d = true) (hi : d.col.fiMode ≠ 3) (h0 : bitOf d.hk.oscLost.toNat (2 * i.1) = false)
    (h1 : bitOf d.hk.oscLost.toNat (2 * i.1 + 1) = false) :
    bitOf (oscLost i 0 d).hk.oscLost.toNat (2 * i.1) = true ∧ bitOf (oscLost i 0 d).hk.oscOn1.toNat i.1 = true ∧
      ((oscLost i 0 d).faults[Fin.ofNat 2048 (0x5C0 + 2 * i.1)]).active = true ∧
      (oscLost i 0 d).faults[Fin.ofNat 2048 (0x5D0 + i.1)] = d.faults[Fin.ofNat 2048 (0x5D0 + i.1)] := by
  have hb0 : bitOf (d.hk.oscLost ||| BitVec.ofNat 10 (2 ^ (2 * i.1))).toNat (2 * i.1) = true := by
    rw [bitOf_or_bit _ (by omega), decide_eq_true rfl, Bool.or_true]
  have hb1 : bitOf (d.hk.oscLost ||| BitVec.ofNat 10 (2 ^ (2 * i.1))).toNat (2 * i.1 + 1) = false := by
    rw [bitOf_or_bit _ (by omega), h1, decide_eq_false (by omega), Bool.or_false]
  obtain ⟨e, he, hk, hlost, hon⟩ : ∃ e, oscLost i 0 d = raiseLevel (0x5C0 + 2 * i.1) 0 e ∧ Keeps [.arbs, .hk, .log] d e ∧
      bitOf e.hk.oscLost.toNat (2 * i.1) = true ∧ bitOf e.hk.oscOn1.toNat i.1 = true := by
    have hon : bitOf (d.hk.oscOn1 ||| BitVec.ofNat 5 (2 ^ i.1)).toNat i.1 = true := by
      rw [bitOf_or_bit _ i.2, decide_eq_true rfl, Bool.or_true]
    obtain ⟨x, hx⟩ : ∃ x : Device, x = (d.updHk fun h => { h with oscLost := h.oscLost ||| BitVec.ofNat 10 (2 ^ (2 * i.1)) }).updHk fun h =>
      { h with oscOn1 := h.oscOn1 ||| BitVec.ofNat 5 (2 ^ i.1) } := ⟨_, rfl⟩
    refine ⟨if !bitOf d.hk.oscOn1.toNat i.1 then logEvent 0x0707 i.1 1 0 x else x, ?_, ?_, ?_, ?_⟩
    · have hd : oscLost i 0 d = if bitOf d.hk.oscLost.toNat (2 * i.1) = true then d else _ := rfl
      rw [hd, h0, if_neg Bool.false_ne_true]
      simp only [updHk_hk, Nat.add_zero, hb0, hb1, Bool.not_false, Bool.and_true, Bool.true_and, if_true, Bool.and_false, Bool.false_eq_true, if_false,
        Fin.val_zero, ← hx]
    · have hxk : Keeps [.arbs, .hk, .log] d x := by
        rw [hx]
        exact ((updHk_keeps ..).trans (updHk_keeps ..)).mono rfl
      exact Keeps.ite ((logEvent_keeps ..).after hxk rfl) hxk
    · have hh : (if !bitOf d.hk.oscOn1.toNat i.1 then logEvent 0x0707 i.1 1 0 x else x).hk = x.hk :=
        if_cases (p := fun y : Device => y.hk = x.hk) ((logEvent_keeps ..).parts .hk rfl) rfl
      rw [hh, hx]
      exact hb0
    · have hh : (if !bitOf d.hk.oscOn1.toNat i.1 then logEvent 0x0707 i.1 1 0 x else x).hk = x.hk :=
        if_cases (p := fun y : Device => y.hk = x.hk) ((logEvent_keeps ..).parts .hk rfl) rfl
      rw [hh, hx]
      exact hon
  have kr : Keeps raises e (oscLost i 0 d) := he ▸ raiseLevel_keeps ..
  have hh : (oscLost i 0 d).hk = e.hk := kr.parts .hk rfl
  have hf : e.faults = d.faults := hk.parts .faults rfl
  obtain ⟨sc, hs⟩ := oscScope i 0
  refine ⟨by rw [hh]; exact hlost, by rw [hh]; exact hon, ?_, ?_⟩
  · rw [he]
    exact raiseLevel_active 0 hs (by rw [hk.colRuns_eq]; exact hc) (by rw [hk.fiMode_eq]; exact hi)
  · rw [he, ← hf]
    exact raiseLevel_other 0 e (oscBoth_ne i 0)

/-- The second oscillator of an island is lost: the island has none. -/
theorem oscLost_second {i : Island} {d : Device} (hc : colRuns d = true) (hi : d.col.fiMode ≠ 3) (h0 : bitOf d.hk.oscLost.toNat (2 * i.1) = true)
    (h1 : bitOf d.hk.oscLost.toNat (2 * i.1 + 1) = false) :
    bitOf (oscLost i 1 d).hk.oscLost.toNat (2 * i.1 + 1) = true ∧ ((oscLost i 1 d).faults[Fin.ofNat 2048 (0x5D0 + i.1)]).active = true := by
  have hb0 : bitOf (d.hk.oscLost ||| BitVec.ofNat 10 (2 ^ (2 * i.1 + 1))).toNat (2 * i.1) = true := by
    rw [bitOf_or_bit _ (by omega), h0, Bool.true_or]
  have hb1 : bitOf (d.hk.oscLost ||| BitVec.ofNat 10 (2 ^ (2 * i.1 + 1))).toNat (2 * i.1 + 1) = true := by
    rw [bitOf_or_bit _ (by omega), decide_eq_true rfl, Bool.or_true]
  obtain ⟨e, he⟩ : ∃ e, raiseLevel (0x5C0 + (2 * i.1 + 1)) 0 (d.updHk fun h => { h with oscLost := h.oscLost ||| BitVec.ofNat 10 (2 ^ (2 * i.1 + 1)) }) = e := ⟨_, rfl⟩
  have k : Keeps raises (d.updHk fun h => { h with oscLost := h.oscLost ||| BitVec.ofNat 10 (2 ^ (2 * i.1 + 1)) }) e := he ▸ raiseLevel_keeps ..
  have hd : oscLost i 1 d = raiseLevel (0x5D0 + i.1) 0 e := by
    have hd : oscLost i 1 d = if bitOf d.hk.oscLost.toNat (2 * i.1 + 1) = true then d else _ := rfl
    rw [hd, h1, if_neg Bool.false_ne_true]
    simp only [updHk_hk, Nat.add_zero, hb0, hb1, Bool.not_true, Bool.and_false, Bool.and_true, if_true, Bool.false_eq_true, if_false, Bool.false_and,
      Fin.val_one, he]
  rw [hd]
  constructor
  · rw [(raiseLevel_keeps ..).parts .hk rfl, k.parts .hk rfl]
    exact hb1
  · exact raiseLevel_active 0 (oscBothScope i) (he ▸ raiseLevel_colRuns _ _ (d := d.updHk _) hc) (by rw [k.fiMode_eq]; exact hi)

/-- Settles O42: each clause by the lemma on its reference or its oscillator. -/
theorem referencesAndClocks : Obligations.ReferencesAndClocks := by
  unfold Obligations.ReferencesAndClocks
  refine ⟨fun s hc hi hb hon => ?_, fun s hc hi ha => ?_, fun b s hi hp => ?_, fun u s hc h => ?_, fun s hc h => ?_, fun i s hc hi h0 h1 => ?_,
    fun i s hc hi h0 h1 => ?_, fun i o s h => ?_⟩
  · obtain ⟨t, ht, hd⟩ := done_next (refImplausible false) s
    obtain ⟨hk, hf⟩ := refImplausible_first hc hi hb hon
    refine ⟨t, ht, ?_⟩
    rw [hd, drive_hk, hk, drive_faults]
    exact ⟨rfl, rfl, rfl, hf⟩
  · obtain ⟨t, ht, hd⟩ := done_next (refImplausible true) s
    obtain ⟨hk, hf⟩ := refImplausible_both hc hi ha
    refine ⟨t, ht, ?_⟩
    rw [hd, drive_hk, hk, drive_faults]
    exact ⟨rfl, rfl, hf⟩
  · obtain ⟨t, ht, hd⟩ := done_next (refPlausible b) s
    obtain ⟨hk, hf⟩ := refPlausible_words b hi hp
    refine ⟨t, ht, ?_⟩
    rw [hd, drive_hk, hk, drive_faults]
    cases b
    · exact ⟨hf, rfl, rfl, rfl⟩
    · exact ⟨hf, rfl, rfl, rfl⟩
  · obtain ⟨t, ht, hd⟩ := done_next refChange s
    obtain ⟨h1, h2, h3, h4, h5, h6, h7⟩ := refChange_due h
    refine ⟨t, (execReferenceChangeLaunch_calm s hc).trans ht, ?_⟩
    rw [hd, drive_hk, drive_clk, drive_mods]
    exact ⟨h1, h2, h3, h4, h5, h6, fun m => ⟨(h7 m).conv, (h7 m).streamOk, (h7 m).streamAt⟩⟩
  · obtain ⟨t, ht, hd⟩ := done_next refChange s
    exact ⟨t, (execReferenceChangeLaunch_calm s hc).trans ht, by rw [hd, refChange_none h]⟩
  · obtain ⟨t, ht, hd⟩ := done_next (oscLost i 0) s
    obtain ⟨h2, h3, h4, h5⟩ := oscLost_first hc hi h0 h1
    refine ⟨t, ht, ?_⟩
    rw [hd, drive_hk, drive_faults]
    exact ⟨h2, h3, h4, congrArg FaultSt.active h5⟩
  · obtain ⟨t, ht, hd⟩ := done_next (oscLost i 1) s
    refine ⟨t, ht, ?_⟩
    rw [hd, drive_hk, drive_faults]
    exact oscLost_second hc hi h0 h1
  · obtain ⟨t, ht, hd⟩ := done_next (oscLost i o) s
    exact ⟨t, ht, by rw [hd, oscLost_again h]⟩

end Sys2Proof.Machine

/-! ## The housekeeping round (10) -/

namespace Sys2Proof.Machine

/-! ### Steps over a list under what they all keep -/

/-- What a step establishes of its object under a standing condition, and no other step undoes, holds of every object of the list. -/
theorem forEach_within {α : Type} {I : Device → Prop} {P : α → Device → Prop} {f : α → Device → Device} (hI : ∀ a d, I d → I (f a d))
    (hdo : ∀ a d, I d → P a (f a d)) (hkeep : ∀ a b d, I d → P a d → P a (f b d)) {l : List α} {a : α} (ha : a ∈ l) :
    ∀ d, I d → P a (forEach l f d) := by
  induction l with
  | nil => cases ha
  | cons b l ih =>
    intro d hd
    rcases List.mem_cons.1 ha with rfl | h
    · exact (forEach_induct (fun e => I e ∧ P a e) l f (fun b e he => ⟨hI b e he.1, hkeep a b e he.1 he.2⟩) _ ⟨hI a d hd, hdo a d hd⟩).2
    · exact ih h (f b d) (hI b d hd)

/-! ### The start of a round (R398) -/

theorem quadMods_quad {q : Quad} {m : Pm} (h : m ∈ quadMods q) : Pm.quad m = q := of_decide_eq_true (List.mem_filter.1 h).2

theorem modOf_quad {d : Device} {q : Quad} {role : Nat} {obj : Option Nat} {m : Pm} (h : modOf d q role obj = some m) : Pm.quad m = q := by
  unfold modOf at h
  dsimp only at h
  split at h
  · next k hk =>
    rw [← Option.some.inj h]
    exact quadMods_quad (List.mem_filter.1 (List.mem_of_find?_eq_some hk)).1
  · exact quadMods_quad (List.mem_filter.1 (List.mem_of_head? h)).1

/-- The round's modulator of a quadrant is one of its own. -/
theorem roundMod_quad {d : Device} {q : Quad} {m : Pm} (h : roundMod d q = some m) : Pm.quad m = q := by
  unfold roundMod at h
  split at h
  · split at h
    · next k hk =>
      split at h
      · cases h
      · rw [← Option.some.inj h]
        exact modOf_quad hk
    · cases h
  · rw [← Option.some.inj h]
    have hp : ∀ p : Quad, Pm.quad (Fin.ofNat 88 (22 * p.1 + 19)) = p := by decide
    exact hp q

/-- A quadrant's part of the round has been started afresh. -/
structure RoundFresh (q : Quad) (d : Device) : Prop where
  raws : d.hk.raws[q] = []
  part : ∀ m : Pm, roundMod d q = some m → clkRuns d q = true → d.hk.pos[q] = 0 ∧ d.hk.stray[q] = roundRuns d m ∧
    ((d.mods[m]).conv.map (·.req) ≠ some 1 → (d.arbs[mport m]).pending.any (fun r => r.1 = 1) = true)

/-- What selects a quadrant's modulator of the round, and whether the round's conversion runs on one. -/
theorem Keeps.roundMod_eq {S : List Part} {d e : Device} (k : Keeps S d e) (hm : S.contains .mods = false := by rfl) (hq : S.contains .quads = false := by rfl)
    (hr : S.contains .mem = false := by rfl) (hc : S.contains .conf = false := by rfl) (hs : S.contains .swaps = false := by rfl) :
    (∀ q, roundMod e q = roundMod d q) ∧ ∀ m, roundRuns e m = roundRuns d m := by
  have hm : e.mods = d.mods := k.parts .mods hm
  have hq : e.quads = d.quads := k.parts .quads hq
  have hc : e.memory = d.memory := k.memory_eq hr hc hs
  refine ⟨fun q => ?_, fun m => by rw [roundRuns, roundRuns, hm]⟩
  simp only [roundMod, hkswOf, modOf, roleEff, idleSpare, pmRole, roleHome, Device.cf, hm, hq, hc]
  rfl

theorem Keeps.clkRuns_eq {S : List Part} {d e : Device} (k : Keeps S d e) (hi : S.contains .launches = false := by rfl) (q : Quad) : clkRuns e q = clkRuns d q := by
  rw [clkRuns, (k.launches_eq hi).2, clkRuns]

/-- The words of the round after a quadrant's start: only its own entries move. -/
theorem roundStart_hk (b : Quad) (d : Device) : ∃ p s, (roundStart b d).hk = { d.hk with raws := d.hk.raws.set b [], pos := d.hk.pos.set b p, stray := d.hk.stray.set b s } ∧
    ∀ m, roundMod d b = some m → clkRuns d b = true → p = 0 ∧ s = roundRuns d m := by
  have hs : d.hk.stray.set b d.hk.stray[b] = d.hk.stray := Vector.set_getElem_self _
  obtain ⟨e, he⟩ : ∃ e, e = d.updHk fun h => { h with raws := h.raws.set b [], pos := h.pos.set b 15 } := ⟨_, rfl⟩
  have hr : roundStart b d = match roundMod e b with
      | some m => if clkRuns e b then
          let x := (arbWithdraw (mport m) 1 e).updHk fun h => { h with pos := h.pos.set b 0, stray := h.stray.set b (roundRuns e m) }
          if (x.mods[m]).conv.map (·.req) = some 1 then x else arbRequest (mport m) 1 x else e
      | none => e := he ▸ rfl
  have hm : roundMod e b = roundMod d b := he ▸ rfl
  have hc : clkRuns e b = clkRuns d b := he ▸ rfl
  have hidle : e.hk = { d.hk with raws := d.hk.raws.set b [], pos := d.hk.pos.set b 15, stray := d.hk.stray.set b d.hk.stray[b] } := by rw [hs, he]; rfl
  rw [hr, hm]
  cases hrm : roundMod d b with
  | none => exact ⟨15, d.hk.stray[b], hidle, nofun⟩
  | some m =>
    dsimp only
    rw [hc]
    cases hcl : clkRuns d b with
    | false => exact ⟨15, d.hk.stray[b], hidle, nofun⟩
    | true =>
      refine ⟨0, roundRuns d m, ?_, fun k hk _ => ⟨rfl, by rw [Option.some.inj hk]⟩⟩
      rw [if_pos rfl]
      refine if_cases (p := fun x : Device => x.hk = _) ?_ ?_ <;>
      · rw [he]
        exact congrArg (fun v => { d.hk with raws := d.hk.raws.set b [], pos := v, stray := d.hk.stray.set b (roundRuns d m) }) (Vector.set_set ..)

/-- The round's modulator of the quadrant that starts is requested. -/
theorem roundStart_pending {b : Quad} {d : Device} {m : Pm} (hm : roundMod d b = some m) (hc : clkRuns d b = true) (hv : (d.mods[m]).conv.map (·.req) ≠ some 1) :
    ((roundStart b d).arbs[mport m]).pending.any (fun r => r.1 = 1) = true := by
  obtain ⟨e, he⟩ : ∃ e, e = d.updHk fun h => { h with raws := h.raws.set b [], pos := h.pos.set b 15 } := ⟨_, rfl⟩
  obtain ⟨x, hx⟩ : ∃ x, x = (arbWithdraw (mport m) 1 e).updHk fun h => { h with pos := h.pos.set b 0, stray := h.stray.set b (roundRuns e m) } := ⟨_, rfl⟩
  have hr : roundStart b d = match roundMod e b with
      | some m => if clkRuns e b then
          let x := (arbWithdraw (mport m) 1 e).updHk fun h => { h with pos := h.pos.set b 0, stray := h.stray.set b (roundRuns e m) }
          if (x.mods[m]).conv.map (·.req) = some 1 then x else arbRequest (mport m) 1 x else e
      | none => e := he ▸ rfl
  have hme : roundMod e b = some m := (he ▸ rfl : roundMod e b = roundMod d b).trans hm
  have hce : clkRuns e b = true := (he ▸ rfl : clkRuns e b = clkRuns d b).trans hc
  have hxm : x.mods = d.mods := by rw [hx, he]; rfl
  have hr : roundStart b d = arbRequest (mport m) 1 x := by
    rw [hr, hme]
    dsimp only
    rw [if_pos hce, ← hx, hxm, if_neg hv]
  rw [hr]
  exact arbRequest_pending ..

/-- A quadrant's start leaves the arbiters of the modulators of the other quadrants. -/
theorem roundStart_otherArb {b : Quad} {d : Device} {m : Pm} (h : Pm.quad m ≠ b) : (roundStart b d).arbs[mport m] = d.arbs[mport m] := by
  have key : ∀ k : Pm, Pm.quad k = b → ∀ f (x : Device), (x.updArb (mport k) f).arbs[mport m] = x.arbs[mport m] := fun k hk f x =>
    upd_other _ _ _ _ fun e => h (by rw [← hk]; congr 1; exact Fin.ext (by simpa [mport] using congrArg Fin.val e))
  unfold roundStart
  dsimp only
  split
  · next k hk =>
    have hk := key k (roundMod_quad hk)
    refine if_cases (p := fun x : Device => x.arbs[mport m] = d.arbs[mport m]) ?_ rfl
    refine if_cases (p := fun x : Device => x.arbs[mport m] = d.arbs[mport m]) ?_ ?_
    · exact hk _ _
    · exact (hk _ _).trans (hk _ _)
  · rfl

theorem roundStart_own (q : Quad) (d : Device) : RoundFresh q (roundStart q d) := by
  have k := roundStart_keeps q d
  obtain ⟨p, st, hh, hp⟩ := roundStart_hk q d
  obtain ⟨hmod, hruns⟩ := k.roundMod_eq
  refine ⟨by rw [hh]; exact Vector.getElem_set_self _, fun m hm hc => ?_⟩
  rw [hmod] at hm
  rw [k.clkRuns_eq] at hc
  obtain ⟨hp, hs⟩ := hp m hm hc
  have hm' : (roundStart q d).mods = d.mods := k.parts .mods rfl
  refine ⟨?_, ?_, fun hv => roundStart_pending hm hc (hm' ▸ hv)⟩
  · rw [hh, ← hp]
    exact Vector.getElem_set_self _
  · rw [hh, hruns, ← hs]
    exact Vector.getElem_set_self _

theorem RoundFresh.roundStart {q : Quad} {d : Device} (b : Quad) (h : RoundFresh q d) : RoundFresh q (roundStart b d) := by
  by_cases hb : b = q
  · exact hb ▸ roundStart_own b d
  have hb' : b.1 ≠ q.1 := fun e => hb (Fin.ext e)
  have k := roundStart_keeps b d
  obtain ⟨p, st, hh, -⟩ := roundStart_hk b d
  obtain ⟨hmod, hruns⟩ := k.roundMod_eq
  have hset : ∀ {α : Type} (v : Vector α 4) (x : α), (v.set b x)[q] = v[q] := fun v x => Vector.getElem_set_ne _ _ hb'
  refine ⟨by rw [hh]; exact (hset _ _).trans h.raws, fun m hm hc => ?_⟩
  rw [hmod] at hm
  rw [k.clkRuns_eq] at hc
  obtain ⟨h1, h2, h3⟩ := h.part m hm hc
  have hm' : (Machine.roundStart b d).mods = d.mods := k.parts .mods rfl
  refine ⟨by rw [hh]; exact (hset _ _).trans h1, by rw [hh, hruns]; exact (hset _ _).trans h2, fun hv => ?_⟩
  rw [roundStart_otherArb fun e => hb (e.symm.trans (roundMod_quad hm))]
  exact h3 (hm' ▸ hv)

/-- The words of the whole round that a quadrant's start leaves. -/
theorem roundStart_words (b : Quad) (d : Device) : (roundStart b d).hk.roundAt = d.hk.roundAt ∧ (roundStart b d).hk.late = d.hk.late ∧
    (roundStart b d).clk = d.clk := by
  obtain ⟨p, st, hh, -⟩ := roundStart_hk b d
  exact ⟨by rw [hh], by rw [hh], (roundStart_keeps b d).clk_eq⟩

theorem roundStarts_words (d : Device) : (forEach allQuads roundStart d).hk.roundAt = d.hk.roundAt ∧ (forEach allQuads roundStart d).hk.late = d.hk.late ∧
    (forEach allQuads roundStart d).clk = d.clk :=
  forEach_induct (fun e => e.hk.roundAt = d.hk.roundAt ∧ e.hk.late = d.hk.late ∧ e.clk = d.clk) allQuads roundStart
    (fun b e ⟨h1, h2, h3⟩ => have ⟨k1, k2, k3⟩ := roundStart_words b e; ⟨k1.trans h1, k2.trans h2, k3.trans h3⟩) d ⟨rfl, rfl, rfl⟩

/-- The start of a round at the next second: its instant, the late round, and every quadrant's part. -/
theorem hkRoundStart_runs {d : Device} (h : modelsRun d = true) :
    (hkRoundStart d).clk.loc = periodAt sec d.hk.roundAt d ∧ (hkRoundStart d).hk.roundAt = some (hkRoundStart d).clk.loc ∧
    (hkRoundStart d).hk.late = (if allQuads.any fun q => decide (d.hk.pos[q] < 15) then satInc8 d.hk.late else d.hk.late) ∧
    ∀ q : Quad, RoundFresh q (hkRoundStart d) := by
  have hle : d.clk.loc ≤ periodAt sec d.hk.roundAt d := (nextOf_bounds (by decide) d.hk.roundAt d.clk.loc).1
  obtain ⟨w, hw⟩ : ∃ w, w = waitLoc (periodAt sec d.hk.roundAt d) d := ⟨_, rfl⟩
  have hl : w.clk.loc = periodAt sec d.hk.roundAt d := by rw [hw, waitLoc_loc]; exact Nat.max_eq_right hle
  have hh : w.hk = d.hk := by rw [hw, waitLoc_hk]
  obtain ⟨x, hx⟩ : ∃ x : Device, x = w.updHk fun h => { h with roundAt := some w.clk.loc } := ⟨_, rfl⟩
  obtain ⟨y, hy⟩ : ∃ y : Device, y = if allQuads.any fun q => decide (x.hk.pos[q] < 15) then x.updHk fun h => { h with late := satInc8 h.late } else x := ⟨_, rfl⟩
  have hd : hkRoundStart d = forEach allQuads roundStart y := by
    rw [hy, hx, hw, hkRoundStart, if_pos h]
    rfl
  have hyc : y.clk = w.clk := by rw [hy, hx]; exact if_cases (p := fun z : Device => z.clk = w.clk) rfl rfl
  have hya : y.hk.roundAt = some w.clk.loc := by rw [hy, hx]; exact if_cases (p := fun z : Device => z.hk.roundAt = some w.clk.loc) rfl rfl
  have hyl : y.hk.late = if allQuads.any fun q => decide (d.hk.pos[q] < 15) then satInc8 d.hk.late else d.hk.late := by
    have hxh : x.hk = { d.hk with roundAt := some w.clk.loc } := by rw [hx, ← hh]; rfl
    rw [hy, hxh]
    split
    · rw [updHk_hk, hxh]
    · rw [hxh]
  obtain ⟨ha, hlate, hclk⟩ := roundStarts_words y
  rw [hd]
  refine ⟨by rw [hclk, hyc, hl], by rw [ha, hclk, hyc, hya], hlate.trans hyl, fun q => ?_⟩
  exact forEach_each roundStart_own (fun _ b _ h => h.roundStart b) (List.mem_finRange q) y

/-! ### The words that the judgements of a complete round read (R399 to R409) -/

/-- Corrected readings, held references, and the mode of the injection are as before, and a collector that ran runs. -/
structure SameRound (d e : Device) : Prop where
  raws : e.hk.raws = d.hk.raws
  fbG : e.hk.fbG = d.hk.fbG
  mode : e.col.fiMode = d.col.fiMode
  runs : colRuns d = true → colRuns e = true
  memory : e.memory = d.memory

/-- With them the runs of bad rails. -/
structure SameReadings (d e : Device) : Prop extends SameRound d e where
  bad : e.hk.railBadRun = d.hk.railBadRun

theorem SameRound.refl (d : Device) : SameRound d d := ⟨rfl, rfl, rfl, id, rfl⟩

theorem SameRound.trans {d e x : Device} (h : SameRound d e) (k : SameRound e x) : SameRound d x :=
  ⟨k.raws.trans h.raws, k.fbG.trans h.fbG, k.mode.trans h.mode, k.runs ∘ h.runs, k.memory.trans h.memory⟩

theorem SameReadings.refl (d : Device) : SameReadings d d := ⟨.refl d, rfl⟩

theorem SameReadings.trans {d e x : Device} (h : SameReadings d e) (k : SameReadings e x) : SameReadings d x :=
  ⟨h.toSameRound.trans k.toSameRound, k.bad.trans h.bad⟩

theorem SameRound.roundRaw {d e : Device} (h : SameRound d e) (q : Quad) (p : Nat) : roundRaw e q p = roundRaw d q p := by
  rw [Machine.roundRaw, h.raws, Machine.roundRaw]

theorem SameRound.cf {d e : Device} (h : SameRound d e) (a lo w : Nat) : e.cf a lo w = d.cf a lo w := by
  rw [Device.cf, h.memory, Device.cf]

theorem raiseLevel_hk (f x : Nat) (d : Device) : (raiseLevel f x d).hk = d.hk := (raiseLevel_keeps f x d).parts .hk rfl

theorem faultEnds_hk (f : Nat) (d : Device) : (faultEnds f d).hk = d.hk := (faultEnds_keeps f d).parts .hk rfl

theorem raiseLevel_readings (f x : Nat) (d : Device) : SameReadings d (raiseLevel f x d) :=
  have k := raiseLevel_keeps f x d
  have hh : (raiseLevel f x d).hk = d.hk := k.parts .hk rfl
  ⟨⟨by rw [hh], by rw [hh], k.fiMode_eq, raiseLevel_colRuns f x, k.memory_eq rfl rfl rfl⟩, by rw [hh]⟩

theorem faultEnds_readings (f : Nat) (d : Device) : SameReadings d (faultEnds f d) :=
  have k := faultEnds_keeps f d
  have hh : (faultEnds f d).hk = d.hk := k.parts .hk rfl
  ⟨⟨by rw [hh], by rw [hh], k.fiMode_eq, faultEnds_colRuns f, k.memory_eq rfl rfl rfl⟩, by rw [hh]⟩

theorem SameReadings.updHk {d e : Device} (h : SameReadings d e) (f : HkSt → HkSt) (hr : ∀ x, (f x).raws = x.raws := by intro; rfl)
    (hg : ∀ x, (f x).fbG = x.fbG := by intro; rfl) (hb : ∀ x, (f x).railBadRun = x.railBadRun := by intro; rfl) : SameReadings d (e.updHk f) :=
  ⟨⟨(hr _).trans h.raws, (hg _).trans h.fbG, h.mode, h.runs, h.memory⟩, (hb _).trans h.bad⟩

theorem breakSensor_readings (t : Qty) (n : Nat) (d : Device) : SameReadings d (breakSensor t n d) :=
  ((SameReadings.refl d).updHk _).trans (raiseLevel_readings ..)

theorem judgeSensors_readings (d : Device) : SameReadings d (judgeSensors d) := by
  unfold judgeSensors
  dsimp only
  have h0 : SameReadings d { d with hk := { d.hk with dieT := Vector.ofFn fun (s : Fin 8) => (sensorRead d s.1).getD d.hk.dieT[s] } } := ⟨⟨rfl, rfl, rfl, id, rfl⟩, rfl⟩
  refine forEach_induct (SameReadings d) _ _ (fun s e h => h.trans (breakSensor_readings ..)) _ (forEach_induct (SameReadings d) _ _ (fun s e h => ?_) _ h0)
  split
  · exact if_cases (p := fun x : Device => SameReadings d x) (h.trans (breakSensor_readings ..)) h
  · exact h

theorem judgeTemps_readings (d : Device) : SameReadings d (judgeTemps d) := by
  unfold judgeTemps
  dsimp only
  have h := SameReadings.refl d
  refine if_cases (p := SameReadings d) (.trans ?_ (raiseLevel_readings ..)) (.trans ?_ (faultEnds_readings ..))
  all_goals
    refine .updHk (if_cases (p := SameReadings d) ?_ ?_) _ (fun _ => rfl) (fun _ => rfl) (fun _ => rfl)
    · exact (h.updHk _).trans (raiseLevel_readings ..)
    · exact (h.updHk _).trans (faultEnds_readings ..)

theorem compensate_readings (d : Device) : SameReadings d (compensate d) := ⟨⟨rfl, rfl, rfl, id, rfl⟩, rfl⟩

theorem judgeRefs_readings (d : Device) : SameReadings d (judgeRefs d) := by
  unfold judgeRefs
  dsimp only
  have h := (SameReadings.refl d).updHk fun h => { h with qdelta := Vector.ofFn fun q => deltaOf d q }
  refine if_cases (p := SameReadings d) h (if_cases (p := SameReadings d) (.trans ?_ (raiseLevel_readings ..)) (.trans ?_ (faultEnds_readings ..)))
  all_goals
    have hr := h.updHk fun y => { y with
      delta := satInt (qRound (medianQ (allQuads.filterMap fun q => (Vector.ofFn fun q => deltaOf d q)[q]) * 100000000)) (-8388608) 8388607
      disRun := if decide (20 / 1000000 < |medianQ (allQuads.filterMap fun q => (Vector.ofFn fun q => deltaOf d q)[q])|) then y.disRun + 1 else 0
      agreeRun := if decide (20 / 1000000 < |medianQ (allQuads.filterMap fun q => (Vector.ofFn fun q => deltaOf d q)[q])|) then 0 else y.agreeRun + 1
      heldOffset := if y.refaBad || y.refbBad || y.refOnB then y.heldOffset else -medianQ (allQuads.filterMap fun q => (Vector.ofFn fun q => deltaOf d q)[q]) }
    refine if_cases (p := SameReadings d) (hr.updHk _) (if_cases (p := SameReadings d) (hr.updHk _) hr)

/-- The judgements before those of the rails. -/
theorem judged_readings (d : Device) : SameReadings d (judgeRefs (compensate (judgeTemps (judgeSensors d)))) :=
  (((judgeSensors_readings d).trans (judgeTemps_readings _)).trans (compensate_readings _)).trans (judgeRefs_readings _)

/-! ### Rails (R408) -/

/-- A rail without a reading is not judged. -/
theorem judgeRail_none {i : Nat} {d : Device} (h : roundRaw d (Fin.ofNat 4 (i / 2)) (4 + i % 2) = none) : judgeRail i d = d := by
  unfold judgeRail
  split
  · rw [h]
  · rfl

/-- The judgement of a rail: its voltage and its run, and at the second bad reading its flag and its source. -/
theorem judgeRail_some {j : Fin 8} {r : Int} {d : Device} (h : roundRaw d (Fin.ofNat 4 (j.1 / 2)) (4 + j.1 % 2) = some r) :
    ∃ (n : Nat) (e : Device), e = d.updHk (fun h => { h with railV := h.railV.set j.1 (Config.railVolt j.1 r), railBadRun := h.railBadRun.set j.1 n }) ∧
      n = (if decide (Config.railVolt j.1 r < (railWindow j.1).1 ∨ (railWindow j.1).2 < Config.railVolt j.1 r) then d.hk.railBadRun[j.1] + 1 else 0) ∧
      ∃ x, judgeRail j.1 d = if 2 ≤ n then raiseLevel (0x5A8 + j.1) x (e.updHk fun h => { h with railErr := h.railErr ||| BitVec.ofNat 8 (2 ^ j.1) })
        else if decide (Config.railVolt j.1 r < (railWindow j.1).1 ∨ (railWindow j.1).2 < Config.railVolt j.1 r) then e else faultEnds (0x5A8 + j.1) e := by
  refine ⟨_, _, rfl, rfl, encSigned (qRound (Config.railVolt j.1 r * 1000)) 32, ?_⟩
  unfold judgeRail
  rw [dif_pos j.2, h]

theorem judgeRail_round (i : Nat) (d : Device) : SameRound d (judgeRail i d) := by
  unfold judgeRail
  split
  · split
    · exact .refl d
    · refine if_cases (p := SameRound d) (.trans ?_ (raiseLevel_readings ..).toSameRound)
        (if_cases (p := SameRound d) ?_ (.trans ?_ (faultEnds_readings ..).toSameRound)) <;> exact ⟨rfl, rfl, rfl, id, rfl⟩
  · exact .refl d

/-- What the judgement of a rail leaves of another one, and the trims. -/
theorem judgeRail_hk (i : Nat) (d : Device) : ∃ v n b, (judgeRail i d).hk = { d.hk with railV := v, railBadRun := n, railErr := d.hk.railErr ||| b } ∧
    ∀ (j : Nat) (_ : j < 8), j ≠ i → v[j] = d.hk.railV[j] ∧ n[j] = d.hk.railBadRun[j] := by
  by_cases hi : i < 8
  · cases hr : roundRaw d (Fin.ofNat 4 (i / 2)) (4 + i % 2) with
    | none =>
      rw [judgeRail_none hr]
      exact ⟨_, _, 0#8, by rw [BitVec.or_zero], fun j hj _ => ⟨rfl, rfl⟩⟩
    | some r =>
      obtain ⟨n, e, he, -, x, hd⟩ := judgeRail_some (j := ⟨i, hi⟩) hr
      have hother : ∀ (j : Nat) (_ : j < 8), j ≠ i → (d.hk.railV.set i (Config.railVolt i r))[j] = d.hk.railV[j] ∧ (d.hk.railBadRun.set i n)[j] = d.hk.railBadRun[j] :=
        fun j hj h => ⟨Vector.getElem_set_ne _ _ h.symm, Vector.getElem_set_ne _ _ h.symm⟩
      have hh : e.hk = { d.hk with railV := d.hk.railV.set i (Config.railVolt i r), railBadRun := d.hk.railBadRun.set i n } := by rw [he]; rfl
      have hz : e.hk = { d.hk with railV := d.hk.railV.set i (Config.railVolt i r), railBadRun := d.hk.railBadRun.set i n, railErr := d.hk.railErr ||| 0#8 } := by
        rw [hh, BitVec.or_zero]
      refine ⟨_, _, if 2 ≤ n then BitVec.ofNat 8 (2 ^ i) else 0#8, ?_, hother⟩
      rw [show judgeRail i d = _ from hd]
      split
      · rw [(raiseLevel_keeps ..).parts .hk rfl, updHk_hk, hh]
      · refine if_cases (p := fun y : Device => y.hk = _) hz ?_
        rw [(faultEnds_keeps ..).parts .hk rfl]
        exact hz
  · have hd : judgeRail i d = d := by rw [judgeRail, dif_neg hi]
    rw [hd]
    exact ⟨_, _, 0#8, by rw [BitVec.or_zero], fun j hj _ => ⟨rfl, rfl⟩⟩

/-- The voltage lies outside the rail's window. -/
abbrev railOut (j : Fin 8) (r : Int) : Prop := Config.railVolt j.1 r < (railWindow j.1).1 ∨ (railWindow j.1).2 < Config.railVolt j.1 r

/-- A rail with a reading, which under a condition lies outside its window and did already at the last reading. -/
structure RailReady (j : Fin 8) (r : Int) (B : Prop) (d : Device) : Prop where
  runs : colRuns d = true
  mode : d.col.fiMode ≠ 3
  raw : roundRaw d (Fin.ofNat 4 (j.1 / 2)) (4 + j.1 % 2) = some r
  out : B → railOut j r
  bad : B → 1 ≤ d.hk.railBadRun[j.1]

/-- A rail has been judged: its voltage, and its flag and source where the condition holds. -/
structure RailJudged (j : Fin 8) (r : Int) (B : Prop) (d : Device) : Prop where
  volt : d.hk.railV[j.1] = Config.railVolt j.1 r
  error : B → bitOf d.hk.railErr.toNat j.1 = true ∧ (d.faults[Fin.ofNat 2048 (0x5A8 + j.1)]).active = true

theorem RailReady.of_same {j : Fin 8} {r : Int} {B : Prop} {d e : Device} (h : RailReady j r B d) (k : SameRound d e)
    (hb : B → 1 ≤ e.hk.railBadRun[j.1]) : RailReady j r B e :=
  ⟨k.runs h.runs, k.mode ▸ h.mode, by rw [k.roundRaw]; exact h.raw, h.out, hb⟩

theorem railScope (j : Fin 8) : ∃ sc, scopeOf (0x5A8 + j.1) = some sc := by
  have h : ∀ j : Fin 8, (scopeOf (0x5A8 + j.1)).isSome = true := by decide
  exact Option.isSome_iff_exists.1 (h j)

/-- The second bad reading of a rail. -/
theorem judgeRail_out {j : Fin 8} {r : Int} {B : Prop} {d : Device} (h : RailReady j r B d) (ho : B) :
    ∃ (e : Device) (x : Nat), judgeRail j.1 d = raiseLevel (0x5A8 + j.1) x e ∧ colRuns e = true ∧ e.col.fiMode ≠ 3 ∧
      1 ≤ e.hk.railBadRun[j.1] ∧ bitOf e.hk.railErr.toNat j.1 = true := by
  obtain ⟨n, e, he, hn, x, hd⟩ := judgeRail_some h.raw
  have hn : n = d.hk.railBadRun[j.1] + 1 := hn.trans (if_pos (decide_eq_true (h.out ho)))
  have hb := h.bad ho
  rw [if_pos (by omega)] at hd
  refine ⟨_, x, hd, he ▸ h.runs, he ▸ h.mode, ?_, ?_⟩
  · rw [he]
    show 1 ≤ (d.hk.railBadRun.set j.1 n)[j.1]
    rw [Vector.getElem_set_self]
    omega
  · rw [updHk_hk, bitOf_or_bit _ j.2, decide_eq_true rfl, Bool.or_true]

theorem judgeRail_judged {j : Fin 8} {r : Int} {B : Prop} {d : Device} (h : RailReady j r B d) : RailJudged j r B (judgeRail j.1 d) := by
  constructor
  · obtain ⟨n, e, he, -, x, hd⟩ := judgeRail_some h.raw
    have hv : e.hk.railV[j.1] = Config.railVolt j.1 r := by rw [he]; exact Vector.getElem_set_self _
    have hk : (Machine.judgeRail j.1 d).hk.railV = e.hk.railV := by
      rw [hd]
      exact if_cases (p := fun y : Device => y.hk.railV = e.hk.railV) (by rw [raiseLevel_hk, updHk_hk])
        (if_cases (p := fun y : Device => y.hk.railV = e.hk.railV) rfl (by rw [faultEnds_hk]))
    rw [hk]
    exact hv
  · intro ho
    obtain ⟨e, x, hd, hc, hi, -, hb⟩ := judgeRail_out h ho
    obtain ⟨sc, hs⟩ := railScope j
    rw [hd]
    exact ⟨by rw [(raiseLevel_keeps ..).parts .hk rfl]; exact hb, raiseLevel_active x hs hc hi⟩

theorem RailReady.judgeRail {j : Fin 8} {r : Int} {B : Prop} {d : Device} (i : Nat) (h : RailReady j r B d) : RailReady j r B (judgeRail i d) := by
  refine h.of_same (judgeRail_round i d) fun ho => ?_
  by_cases hj : j.1 = i
  · obtain ⟨e, x, hd, -, -, hb, -⟩ := judgeRail_out h ho
    rw [← hj, hd, (raiseLevel_keeps ..).parts .hk rfl]
    exact hb
  · obtain ⟨v, n, b, hh, hk⟩ := judgeRail_hk i d
    rw [hh]
    exact ((hk j.1 j.2 hj).2).symm ▸ h.bad ho

/-- The judgement of another rail leaves this one's fault source. -/
theorem judgeRail_otherFault {i : Nat} {j : Fin 8} {d : Device} (hi : d.col.fiMode ≠ 3) (h : j.1 ≠ i) :
    (judgeRail i d).faults[Fin.ofNat 2048 (0x5A8 + j.1)] = d.faults[Fin.ofNat 2048 (0x5A8 + j.1)] := by
  by_cases hi8 : i < 8
  · cases hr : roundRaw d (Fin.ofNat 4 (i / 2)) (4 + i % 2) with
    | none => rw [judgeRail_none hr]
    | some r =>
      obtain ⟨n, e, he, -, x, hd⟩ := judgeRail_some (j := ⟨i, hi8⟩) hr
      have hg : (Fin.ofNat 2048 (0x5A8 + j.1) : Fsrc) ≠ Fin.ofNat 2048 (0x5A8 + i) := fun e => h (by
        have e := congrArg Fin.val e
        simp only [Fin.ofNat] at e
        omega)
      rw [show judgeRail i d = _ from hd]
      split
      · rw [raiseLevel_other x _ hg, he]
        rfl
      · refine if_cases (p := fun y : Device => y.faults[_] = _) (by rw [he]; rfl) ?_
        rw [faultEnds_other (he ▸ hi) hg, he]
        rfl
  · rw [judgeRail, dif_neg hi8]

theorem RailJudged.judgeRail {j : Fin 8} {r : Int} {B : Prop} {d : Device} (i : Nat) (hr : RailReady j r B d) (h : RailJudged j r B d) : RailJudged j r B (judgeRail i d) := by
  by_cases hj : j.1 = i
  · exact hj ▸ judgeRail_judged hr
  obtain ⟨v, n, b, hh, hk⟩ := judgeRail_hk i d
  refine ⟨by rw [hh]; exact ((hk j.1 j.2 hj).1).trans h.volt, fun ho => ?_⟩
  obtain ⟨hb, ha⟩ := h.error ho
  constructor
  · rw [hh]
    show (d.hk.railErr ||| b).toNat.testBit j.1 = true
    rw [BitVec.toNat_or, Nat.testBit_or, show d.hk.railErr.toNat.testBit j.1 = true from hb, Bool.true_or]
  · rw [judgeRail_otherFault hr.mode hj]
    exact ha

theorem judgeRails_judged {j : Fin 8} {r : Int} {B : Prop} {d : Device} (h : RailReady j r B d) : RailJudged j r B (forEach (List.range 8) judgeRail d) :=
  forEach_within (I := RailReady j r B) (P := fun i x => i = j.1 → RailJudged j r B x) (fun i _ h => h.judgeRail i)
    (fun _ _ h hi => hi ▸ judgeRail_judged h) (fun _ i _ hr h hi => (h hi).judgeRail i hr) (List.mem_range.2 j.2) d h rfl

theorem judgeRails_round (d : Device) : SameRound d (forEach (List.range 8) judgeRail d) :=
  forEach_induct (SameRound d) _ _ (fun i e h => h.trans (judgeRail_round i e)) d (.refl d)

/-! ### Gate feedback (R409) -/

/-- The words of a switch's feedback after its judgement. -/
structure FbJudged (c : Chan) (r : Int) (s d : Device) : Prop where
  volt : d.hk.fbV[c.1] = levelOf r
  high : (d.paths[c]).fbHi = (decide (s.hk.fbG[c.1] = 0) && decide (gateV (s.cf (ptb c + 12) 0 10) < levelOf r))
  sag : (d.paths[c]).fbSag = (decide (s.hk.fbG[c.1] = pgFull s c) && decide (0 < s.hk.fbG[c.1]) && decide (levelOf r < gateV (s.cf (ptb c + 12) 0 10)))

/-- The words that the judgement of a switch's feedback writes. -/
def fbJudged (c : Chan) (r : Int) (d : Device) : Device :=
  (d.updHk fun h => { h with fbV := h.fbV.set c.1 (levelOf r) (by omega) }).updPath c fun p => { p with
    fbSag := decide (d.hk.fbG[c.1] = pgFull d c) && decide (0 < d.hk.fbG[c.1]) && decide (levelOf r < gateV (d.cf (ptb c + 12) 0 10))
    fbHi := decide (d.hk.fbG[c.1] = 0) && decide (gateV (d.cf (ptb c + 12) 0 10) < levelOf r) }

theorem judgePathFb_some {c : Chan} {r : Int} {d : Device} (h : roundRaw d (Chan.quad c) (6 + c.1 % 8) = some r) :
    Keeps [.arbs, .log] (fbJudged c r d) (judgePathFb c d) := by
  unfold judgePathFb
  rw [h]
  exact fbEvent_keeps ..

theorem judgePathFb_none {c : Chan} {d : Device} (h : roundRaw d (Chan.quad c) (6 + c.1 % 8) = none) : judgePathFb c d = d := by
  unfold judgePathFb
  rw [h]

theorem judgePathFb_round (c : Chan) (d : Device) : SameRound d (judgePathFb c d) := by
  cases h : roundRaw d (Chan.quad c) (6 + c.1 % 8) with
  | none => rw [judgePathFb_none h]; exact .refl d
  | some r =>
    have k := judgePathFb_some h
    have hh : (judgePathFb c d).hk = _ := k.parts .hk rfl
    exact ⟨by rw [hh]; rfl, by rw [hh]; rfl, k.fiMode_eq, fun hc => (k.colRuns_eq).trans hc, k.memory_eq rfl rfl rfl⟩

theorem SameRound.pgFull {s d : Device} (h : SameRound s d) (c : Chan) : pgFull d c = pgFull s c := by
  rw [Machine.pgFull, h.cf, Machine.pgFull]

theorem judgePathFb_judged {c : Chan} {r : Int} {s d : Device} (hr : roundRaw s (Chan.quad c) (6 + c.1 % 8) = some r) (h : SameRound s d) :
    FbJudged c r s (judgePathFb c d) := by
  have k := judgePathFb_some (c := c) (r := r) (d := d) (by rw [h.roundRaw]; exact hr)
  have hh : (judgePathFb c d).hk = _ := k.parts .hk rfl
  have hp : (judgePathFb c d).paths = _ := k.parts .paths rfl
  refine ⟨by rw [hh]; exact Vector.getElem_set_self _, ?_, ?_⟩
  · rw [hp, fbJudged, updPath_paths, upd_same, h.fbG, h.cf]
  · rw [hp, fbJudged, updPath_paths, upd_same, h.fbG, h.cf, h.pgFull]

theorem FbJudged.judgePathFb {c : Chan} {r : Int} {s d : Device} (b : Chan) (hr : roundRaw s (Chan.quad c) (6 + c.1 % 8) = some r) (hs : SameRound s d)
    (h : FbJudged c r s d) : FbJudged c r s (judgePathFb b d) := by
  by_cases hb : c = b
  · exact hb ▸ judgePathFb_judged hr hs
  cases hx : roundRaw d (Chan.quad b) (6 + b.1 % 8) with
  | none => rw [judgePathFb_none hx]; exact h
  | some x =>
    have k := judgePathFb_some hx
    have hh : (Machine.judgePathFb b d).hk = _ := k.parts .hk rfl
    have hp : (Machine.judgePathFb b d).paths[c] = d.paths[c] := by
      rw [show (Machine.judgePathFb b d).paths = _ from k.parts .paths rfl, fbJudged, updPath_paths, upd_other _ _ _ _ hb]
      rfl
    refine ⟨?_, by rw [hp]; exact h.high, by rw [hp]; exact h.sag⟩
    rw [hh]
    exact (Vector.getElem_set_ne (by omega) (by omega) fun e => hb (Fin.ext e.symm)).trans h.volt

/-- A source's feedback leaves the words of the paths, the rails and the trims. -/
theorem judgeSrcFb_hk (k : Src) (d : Device) : ∃ v, (judgeSrcFb k d).hk = { d.hk with fbV := v } ∧ ∀ c : Chan, v[c.1] = d.hk.fbV[c.1] := by
  unfold judgeSrcFb
  split
  · exact ⟨_, rfl, fun _ => rfl⟩
  · next r hr =>
    dsimp only
    exact ⟨_, (fbEvent_keeps ..).parts .hk rfl, fun c => Vector.getElem_set_ne _ _ (by omega)⟩

/-! ### Trims (R402, R403) -/

/-- The reference trims lie within their range. -/
def TrimsBounded (d : Device) : Prop :=
  (-2000 ≤ d.hk.trimANext ∧ d.hk.trimANext ≤ 2000) ∧ -2000 ≤ d.hk.trimBNext ∧ d.hk.trimBNext ≤ 2000

theorem satInt_range {lo hi : Int} (h : lo ≤ hi) (x : Int) : lo ≤ satInt x lo hi ∧ satInt x lo hi ≤ hi := by
  unfold satInt
  omega

theorem compensate_trims (d : Device) : TrimsBounded (compensate d) :=
  ⟨satInt_range (by decide) _, satInt_range (by decide) _⟩

theorem TrimsBounded.of_eq {d e : Device} (h : TrimsBounded d) (ha : e.hk.trimANext = d.hk.trimANext) (hb : e.hk.trimBNext = d.hk.trimBNext) : TrimsBounded e := by
  rw [TrimsBounded, ha, hb]
  exact h

theorem TrimsBounded.of_keeps {S : List Part} {d e : Device} (h : TrimsBounded d) (k : Keeps S d e) (hs : S.contains .hk = false := by rfl) : TrimsBounded e :=
  have hh : e.hk = d.hk := k.parts .hk hs
  h.of_eq (by rw [hh]) (by rw [hh])

theorem TrimsBounded.judgeRefs {d : Device} (h : TrimsBounded d) : TrimsBounded (judgeRefs d) := by
  unfold Machine.judgeRefs
  dsimp only
  refine if_cases (p := TrimsBounded) h (if_cases (p := TrimsBounded) (.of_keeps ?_ (raiseLevel_keeps ..)) (.of_keeps ?_ (faultEnds_keeps ..))) <;>
  exact if_cases (p := TrimsBounded) h (if_cases (p := TrimsBounded) h h)

theorem TrimsBounded.judgeRail {d : Device} (i : Nat) (h : TrimsBounded d) : TrimsBounded (judgeRail i d) := by
  obtain ⟨v, n, b, hh, -⟩ := judgeRail_hk i d
  exact h.of_eq (by rw [hh]) (by rw [hh])

theorem TrimsBounded.judgePathFb {d : Device} (c : Chan) (h : TrimsBounded d) : TrimsBounded (judgePathFb c d) := by
  cases hr : roundRaw d (Chan.quad c) (6 + c.1 % 8) with
  | none => rw [judgePathFb_none hr]; exact h
  | some r => exact TrimsBounded.of_keeps (d := fbJudged c r d) h (judgePathFb_some hr)

theorem TrimsBounded.judgeSrcFb {d : Device} (k : Src) (h : TrimsBounded d) : TrimsBounded (judgeSrcFb k d) := by
  obtain ⟨v, hh, -⟩ := judgeSrcFb_hk k d
  exact h.of_eq (by rw [hh]) (by rw [hh])

/-! ### The complete round -/

/-- A judgement of the feedback moves no word of a rail. -/
theorem RailJudged.judgePathFb {j : Fin 8} {r : Int} {B : Prop} {d : Device} (c : Chan) (h : RailJudged j r B d) : RailJudged j r B (judgePathFb c d) := by
  cases hr : roundRaw d (Chan.quad c) (6 + c.1 % 8) with
  | none => rw [judgePathFb_none hr]; exact h
  | some x =>
    have k := judgePathFb_some hr
    have hh : (Machine.judgePathFb c d).hk = (fbJudged c x d).hk := k.parts .hk rfl
    have hf : (Machine.judgePathFb c d).faults = (fbJudged c x d).faults := k.parts .faults rfl
    exact ⟨by rw [hh]; exact h.volt, by rw [hh, hf]; exact h.error⟩

theorem RailJudged.judgeSrcFb {j : Fin 8} {r : Int} {B : Prop} {d : Device} (k : Src) (h : RailJudged j r B d) : RailJudged j r B (judgeSrcFb k d) := by
  obtain ⟨v, hh, -⟩ := judgeSrcFb_hk k d
  have hf : (Machine.judgeSrcFb k d).faults = d.faults := (judgeSrcFb_keeps k d).parts .faults rfl
  exact ⟨by rw [hh]; exact h.volt, by rw [hh, hf]; exact h.error⟩

theorem FbJudged.judgeSrcFb {c : Chan} {r : Int} {s d : Device} (k : Src) (h : FbJudged c r s d) : FbJudged c r s (judgeSrcFb k d) := by
  obtain ⟨v, hh, hv⟩ := judgeSrcFb_hk k d
  have hp : (Machine.judgeSrcFb k d).paths = d.paths := (judgeSrcFb_keeps k d).parts .paths rfl
  exact ⟨by rw [hh]; exact (hv c).trans h.volt, by rw [hp]; exact h.high, by rw [hp]; exact h.sag⟩

/-- The judgements of a complete round up to the rails. -/
def railsJudged (d : Device) : Device := forEach (List.range 8) judgeRail (judgeRefs (compensate (judgeTemps (judgeSensors d))))

theorem railsJudged_round (d : Device) : SameRound d (railsJudged d) := (judged_readings d).toSameRound.trans (judgeRails_round _)

theorem hkRoundComplete_full {d : Device} (hp : ∀ q : Quad, d.hk.pos[q] = 15) (hl : ∀ q : Quad, (d.hk.raws[q]).length = 15) :
    hkRoundComplete d = (forEach allSrcs judgeSrcFb (forEach allChans judgePathFb (railsJudged d))).updHk fun h => { h with raws := Vector.replicate 4 [] } := by
  have h : (allQuads.all fun q => decide (15 ≤ d.hk.pos[q])) = true ∧ (allQuads.any fun q => decide ((d.hk.raws[q]).length = 15)) = true :=
    ⟨List.all_eq_true.2 fun q _ => decide_eq_true (Nat.le_of_eq (hp q).symm), List.any_eq_true.2 ⟨0, List.mem_finRange 0, decide_eq_true (hl 0)⟩⟩
  rw [hkRoundComplete, if_pos h]
  rfl

theorem hkRoundComplete_part {d : Device} {q : Quad} (h : d.hk.pos[q] < 15) : hkRoundComplete d = d :=
  if_neg fun ⟨ha, _⟩ => absurd (of_decide_eq_true (List.all_eq_true.1 ha q (List.mem_finRange q))) (Nat.not_le_of_lt h)

theorem hkRoundComplete_path {c : Chan} {r : Int} {d : Device} (hp : ∀ q : Quad, d.hk.pos[q] = 15) (hl : ∀ q : Quad, (d.hk.raws[q]).length = 15)
    (hr : roundRaw d (Chan.quad c) (6 + c.1 % 8) = some r) : FbJudged c r d (hkRoundComplete d) := by
  have hc : FbJudged c r d (forEach allChans judgePathFb (railsJudged d)) := forEach_within (I := SameRound d) (P := fun c' x => c' = c → FbJudged c r d x) (f := judgePathFb)
    (fun b e h => h.trans (judgePathFb_round b e)) (fun b _ h hb => by rw [hb]; exact judgePathFb_judged hr h) (fun _ b _ hs h hc => (h hc).judgePathFb b hr hs)
    (List.mem_finRange c) (railsJudged d) (railsJudged_round d) rfl
  have hs := forEach_induct (FbJudged c r d) allSrcs judgeSrcFb (fun k _ h => h.judgeSrcFb k) _ hc
  rw [hkRoundComplete_full hp hl]
  generalize forEach allSrcs judgeSrcFb _ = x at hs ⊢
  exact ⟨hs.volt, hs.high, hs.sag⟩

theorem hkRoundComplete_rail {j : Fin 8} {r : Int} {B : Prop} {d : Device} (hi : d.col.fiMode ≠ 3) (hc : colRuns d = true) (hp : ∀ q : Quad, d.hk.pos[q] = 15)
    (hl : ∀ q : Quad, (d.hk.raws[q]).length = 15) (hr : roundRaw d (Fin.ofNat 4 (j.1 / 2)) (4 + j.1 % 2) = some r) (ho : B → railOut j r) (hb : B → 1 ≤ d.hk.railBadRun[j.1]) :
    RailJudged j r B (hkRoundComplete d) := by
  have hs := judged_readings d
  have hready : RailReady j r B d := ⟨hc, hi, hr, ho, hb⟩
  have h := judgeRails_judged (hready.of_same hs.toSameRound (by rw [hs.bad]; exact hb))
  have h := forEach_induct (RailJudged j r B) allSrcs judgeSrcFb (fun k _ h => h.judgeSrcFb k) _
    (forEach_induct (RailJudged j r B) allChans judgePathFb (fun c _ h => h.judgePathFb c) _ h)
  rw [hkRoundComplete_full hp hl]
  rw [railsJudged]
  generalize forEach allSrcs judgeSrcFb _ = x at h ⊢
  exact ⟨h.volt, h.error⟩

theorem hkRoundComplete_trims {d : Device} (hp : ∀ q : Quad, d.hk.pos[q] = 15) (hl : ∀ q : Quad, (d.hk.raws[q]).length = 15) :
    TrimsBounded (hkRoundComplete d) := by
  have h : TrimsBounded (railsJudged d) := forEach_induct TrimsBounded _ _ (fun i _ h => h.judgeRail i) _ (compensate_trims _).judgeRefs
  have h := forEach_induct TrimsBounded allSrcs judgeSrcFb (fun k _ h => h.judgeSrcFb k) _
    (forEach_induct TrimsBounded allChans judgePathFb (fun c _ h => h.judgePathFb c) _ h)
  rw [hkRoundComplete_full hp hl]
  generalize forEach allSrcs judgeSrcFb _ = x at h ⊢
  exact h

theorem hkRoundComplete_raws {d : Device} (hp : ∀ q : Quad, d.hk.pos[q] = 15) (hl : ∀ q : Quad, (d.hk.raws[q]).length = 15) (q : Quad) :
    (hkRoundComplete d).hk.raws[q] = [] := by
  rw [hkRoundComplete_full hp hl, updHk_hk]
  exact Vector.getElem_replicate _

/-- Settles O41: the start of a round quadrant by quadrant, its completion through what each judgement leaves the next ones. -/
theorem housekeepingRound : Obligations.HousekeepingRound := by
  unfold Obligations.HousekeepingRound
  refine ⟨fun s hc h => ?_, fun s hc h => ?_, fun q s h => ?_, fun c r s hp hl hr => ?_, fun j r s hi hc hp hl hr => ?_⟩
  · obtain ⟨t, ht, hd⟩ := done_next hkRoundStart s
    exact ⟨t, (execHkRoundStart_calm s hc).trans ht, by rw [hd, hkRoundStart, h]; rfl⟩
  · obtain ⟨t, ht, hd⟩ := done_next hkRoundStart s
    obtain ⟨h1, h2, h3, h4⟩ := hkRoundStart_runs h
    have k := hkRoundStart_keeps s.dev
    obtain ⟨hmod, hruns⟩ := k.roundMod_eq
    have hm : (hkRoundStart s.dev).mods = s.dev.mods := k.parts .mods rfl
    refine ⟨t, (execHkRoundStart_calm s hc).trans ht, ?_⟩
    rw [hd, drive_clk, drive_hk, drive_arbs]
    refine ⟨h1, h2, h3, fun q => ⟨(h4 q).raws, fun m hr hq => ?_⟩⟩
    obtain ⟨p1, p2, p3⟩ := (h4 q).part m ((hmod q).trans hr) ((k.clkRuns_eq rfl q).trans hq)
    exact ⟨p1, p2.trans (hruns m), fun hv => p3 (hm ▸ hv)⟩
  · obtain ⟨t, ht, hd⟩ := done_next hkRoundComplete s
    exact ⟨t, ht, by rw [hd, hkRoundComplete_part h]⟩
  · obtain ⟨t, ht, hd⟩ := done_next hkRoundComplete s
    have h := hkRoundComplete_path hp hl hr
    refine ⟨t, ht, ?_⟩
    rw [hd, drive_hk, drive_paths]
    exact ⟨h.volt, h.high, h.sag⟩
  · obtain ⟨t, ht, hd⟩ := done_next hkRoundComplete s
    obtain ⟨⟨h1, h2⟩, h3, h4⟩ := hkRoundComplete_trims hp hl
    refine ⟨t, ht, ?_⟩
    rw [hd, drive_hk, drive_faults]
    have h := hkRoundComplete_rail (B := railOut j r ∧ 1 ≤ s.dev.hk.railBadRun[j.1]) hi hc hp hl hr (·.1) (·.2)
    exact ⟨hkRoundComplete_raws hp hl, h.volt, fun ho hb => h.error ⟨ho, hb⟩, h1, h2, h3, h4⟩

end Sys2Proof.Machine

/-! ## The stagger of the rests (07) -/

namespace Sys2Proof.Machine

/-! ### A deal and its frame (R273, R274) -/

theorem pulsedSet_waitLoc (n : Nat) (d : Device) : pulsedSet (waitLoc n d) = pulsedSet d := rfl

/-- The words of a deal for a frame start, made at w of what d holds. -/
def dealtFor (f : Nat) (d w : Device) : Device :=
  w.updStg fun s => { s with
    dealFor := some f, newCfg := BitVec.ofNat 32 (stgCfg d)
    newDeal := if decide (pulsedSet w ≠ w.stg.dealtSet) || decide (stgCfg d ≠ w.stg.cfg.toNat) then some (dealSlots w (stgK (stgCfg d)) (pulsedSet w)) else none
    dealtSet := pulsedSet w }

theorem dealtFor_words (f n : Nat) (d : Device) :
    (dealtFor f d (waitLoc n d)).stg.dealtSet = pulsedSet d ∧ (dealtFor f d (waitLoc n d)).stg.newCfg = BitVec.ofNat 32 (stgCfg d) ∧
    (dealtFor f d (waitLoc n d)).stg.dealFor = some f ∧ (dealtFor f d (waitLoc n d)).profs = d.profs := ⟨pulsedSet_waitLoc n d, rfl, rfl, waitLoc_profs n d⟩

/-- A deal is made for the first frame start at least 3 ms away. -/
theorem staggerDeal_due {d : Device} (hr : d.start.st = .run) (hn : d.stg.dealFor = none) (ht : stgTp (stgCfg d) ≠ 0) :
    ∃ n, staggerDeal d = dealtFor ((d.clk.loc + 3 * ms + stgTp (stgCfg d) - 1) / stgTp (stgCfg d) * stgTp (stgCfg d)) d (waitLoc n d) :=
  ⟨_, if_pos ⟨hr, hn, ht⟩⟩

theorem takeSlot_words (d : Device) (deal : List (Chan × Fin 32)) (f : Nat) (c : Chan) (p : ProfSt) :
    (takeSlot d deal f c p).slot = slotIn deal c ∧ (takeSlot d deal f c p).phase = p.phase := by
  unfold takeSlot
  split <;> next h => exact ⟨h.symm, rfl⟩

/-- At the frame start of a deal its slots are in force, and no charge phase moves. -/
theorem staggerFrame_due {f : Nat} {d : Device} (h : d.stg.dealFor = some f) :
    (staggerFrame d).clk.loc = max d.clk.loc f ∧ (staggerFrame d).stg.dealt = d.stg.newDeal.getD d.stg.dealt ∧ (staggerFrame d).stg.cfg = d.stg.newCfg ∧
    ∀ c : Chan, ((staggerFrame d).profs[c]).slot = slotIn (d.stg.newDeal.getD d.stg.dealt) c ∧ ((staggerFrame d).profs[c]).phase = (d.profs[c]).phase := by
  unfold staggerFrame
  rw [h]
  dsimp only
  have hl := waitLoc_loc f d
  have hs : (waitLoc f d).stg = d.stg := waitLoc_stg f d
  have hp : (waitLoc f d).profs = d.profs := waitLoc_profs f d
  generalize waitLoc f d = w at hl hs hp
  rw [← hs, ← hp]
  refine ⟨hl, rfl, rfl, fun c => ?_⟩
  rw [mapAll_get]
  obtain ⟨h1, h2⟩ := takeSlot_words (w.updStg fun s => { s with dealt := w.stg.newDeal.getD w.stg.dealt, newDeal := none, dealFor := none, cfg := s.newCfg })
    (w.stg.newDeal.getD w.stg.dealt) f c
    (if decide (w.stg.newCfg = w.stg.cfg) then w.profs[c] else { w.profs[c] with slot := none, joinEnd := none })
  exact ⟨h1, h2.trans (if_cases (p := fun p : ProfSt => p.phase = (w.profs[c]).phase) rfl rfl)⟩

/-! ### The gain (R275, R276) -/

theorem nextMultiple_up (j : Fin 8) (p : Nat) (hp : 0 < p) (d : Device) : (nextMultiple j p d).clk.up = nextOf p d.clk.taken[j] d.clk.up := by
  have hle := (nextOf_bounds hp d.clk.taken[j] d.clk.up).1
  have h : (waitUp (nextOf p d.clk.taken[j] d.clk.up) d).clk.up = max d.clk.up _ := waitUp_up ..
  exact h.trans (Nat.max_eq_right hle)

/-- Outside a halt the gain is newest on the way to every quadrant. -/
theorem staggerGain_idle {d : Device} (h : d.halt.phase = .idle) :
    (staggerGain d).clk.up = nextOf (10 * us) d.clk.taken[3] d.clk.up ∧
    ∀ q : Quad, (staggerGain d).isl.fifo[xIndex (.toQd q)] = d.isl.fifo[xIndex (.toQd q)] ++ [.gain (staggerGain d).stg.gain] := by
  have hu := nextMultiple_up 3 (10 * us) (by decide) d
  have k := nextMultiple_keeps 3 (10 * us) d
  have hh : (nextMultiple 3 (10 * us) d).halt = d.halt := k.parts .halt rfl
  have hf : (nextMultiple 3 (10 * us) d).isl.fifo = d.isl.fifo := k.fifo_eq
  unfold staggerGain
  generalize nextMultiple 3 (10 * us) d = w at hu hh hf
  dsimp only
  rw [hh, if_pos h]
  obtain ⟨x, hx⟩ : ∃ x, x = w.updStg fun s => { s with gain := stgGain w } := ⟨_, rfl⟩
  rw [← hx]
  have hxf : x.isl.fifo = d.isl.fifo := by rw [hx]; exact hf
  have hxg : x.stg.gain = stgGain w := by rw [hx]; rfl
  have hxu : x.clk = w.clk := by rw [hx]; rfl
  obtain ⟨hc, hs⟩ : (forEach allQuads (fun q d => send (.toQd q) (.gain (stgGain w)) d) x).clk = x.clk ∧
      (forEach allQuads (fun q d => send (.toQd q) (.gain (stgGain w)) d) x).stg = x.stg :=
    forEach_induct (fun e => e.clk = x.clk ∧ e.stg = x.stg) allQuads _ (fun q e h => h) x ⟨rfl, rfl⟩
  rw [hs, hxg]
  refine ⟨by rw [hc, hxu]; exact hu, fun q => ?_⟩
  have hq : q ∈ allQuads := List.mem_finRange q
  rw [forEach_send_fifo (fun _ => .gain (stgGain w)) q allQuads (List.nodup_finRange 4), if_pos hq, hxf]

/-- During a halt the gain is held. -/
theorem staggerGain_halt {d : Device} (h : d.halt.phase ≠ .idle) : (staggerGain d).stg = d.stg ∧ (staggerGain d).isl = d.isl := by
  have hd : staggerGain d = nextMultiple 3 (10 * us) d := if_neg h
  rw [hd]
  exact ⟨rfl, rfl⟩

/-- Settles O30: a deal, its frame and the gain by the lemma on each. -/
theorem restStagger : Obligations.RestStagger := by
  unfold Obligations.RestStagger
  refine ⟨fun s hc hr hn ht => ?_, fun f s hc h => ?_, fun s hc h => ?_, fun s hc h => ?_⟩
  · obtain ⟨t, hx, hd⟩ := done_next staggerDeal s
    refine ⟨t, (execStaggerDeal_calm s hc).trans hx, ?_⟩
    obtain ⟨n, hn⟩ := staggerDeal_due hr hn ht
    rw [hd, drive_stg, drive_profs, hn]
    exact dealtFor_words _ n s.dev
  · obtain ⟨t, hx, hd⟩ := done_next staggerFrame s
    refine ⟨t, (execStaggerFrameStart_calm s hc).trans hx, ?_⟩
    rw [hd, drive_clk, drive_stg, drive_profs]
    exact staggerFrame_due h
  · obtain ⟨t, hx, hd⟩ := done_next staggerGain s
    refine ⟨t, (execStaggerGainUpdate_calm s hc).trans hx, ?_⟩
    rw [hd, drive_clk, drive_isl, drive_stg]
    exact staggerGain_idle h
  · obtain ⟨t, hx, hd⟩ := done_next staggerGain s
    refine ⟨t, (execStaggerGainUpdate_calm s hc).trans hx, ?_⟩
    rw [hd, drive_stg, drive_isl]
    exact staggerGain_halt h

end Sys2Proof.Machine

/-! ## The outputs of a slot and the ends of its on-times (05) -/

namespace Sys2Proof.Machine

/-! ### What assigns slots to channels -/

/-- The configuration, and what makes a slot a member of a channel, are as before. -/
structure SameRoles (d e : Device) : Prop where
  memory : e.memory = d.memory
  forCh : ∀ k : Slot, (e.slots[k]).forCh = (d.slots[k]).forCh
  repl : ∀ k : Slot, (e.slots[k]).repl = (d.slots[k]).repl
  shed : ∀ k : Slot, (e.slots[k]).shedFrom = (d.slots[k]).shedFrom
  armed : ∀ c : Chan, (e.chans[c]).armed = (d.chans[c]).armed

theorem SameRoles.of_eq {d e : Device} (hm : e.memory = d.memory) (hs : e.slots = d.slots) (hc : e.chans = d.chans) : SameRoles d e :=
  ⟨hm, fun _ => by rw [hs], fun _ => by rw [hs], fun _ => by rw [hs], fun _ => by rw [hc]⟩

theorem SameRoles.refl (d : Device) : SameRoles d d := .of_eq rfl rfl rfl

theorem SameRoles.trans {d e f : Device} (h : SameRoles d e) (k : SameRoles e f) : SameRoles d f :=
  ⟨k.memory.trans h.memory, fun n => (k.forCh n).trans (h.forCh n), fun n => (k.repl n).trans (h.repl n), fun n => (k.shed n).trans (h.shed n),
    fun c => (k.armed c).trans (h.armed c)⟩

/-- A field of a slot that an update leaves is as before in every slot. -/
theorem upd_field {α β : Type} {m : Nat} (v : Vector α m) (n : Fin m) (f : α → α) (g : α → β) (h : ∀ x, g (f x) = g x) (k : Fin m) :
    g (upd v n f)[k] = g v[k] := by
  by_cases hk : k = n
  · rw [hk, upd_same, h]
  · rw [upd_other _ _ _ _ hk]

theorem SameRoles.updSlot {d e : Device} (h : SameRoles d e) (n : Slot) (f : SlotSt → SlotSt) (hf : ∀ s, (f s).forCh = s.forCh := by intro; rfl)
    (hr : ∀ s, (f s).repl = s.repl := by intro; rfl) (hs : ∀ s, (f s).shedFrom = s.shedFrom := by intro; rfl) : SameRoles d (e.updSlot n f) :=
  h.trans ⟨rfl, upd_field _ n f SlotSt.forCh hf, upd_field _ n f SlotSt.repl hr, upd_field _ n f SlotSt.shedFrom hs, fun _ => rfl⟩

theorem SameRoles.updChan {d e : Device} (h : SameRoles d e) (c : Chan) (f : ChanSt → ChanSt) (hf : ∀ s, (f s).armed = s.armed := by intro; rfl) :
    SameRoles d (e.updChan c f) :=
  h.trans ⟨rfl, fun _ => rfl, fun _ => rfl, fun _ => rfl, upd_field _ c f ChanSt.armed hf⟩

theorem SameRoles.waitUp {d e : Device} (h : SameRoles d e) (t : Nat) : SameRoles d (waitUp t e) := h.trans (.of_eq rfl rfl rfl)

theorem SameRoles.cf {d e : Device} (h : SameRoles d e) (a lo w : Nat) : e.cf a lo w = d.cf a lo w := by
  rw [Device.cf, h.memory, Device.cf]

theorem SameRoles.chanOf {d e : Device} (h : SameRoles d e) (n : Slot) : chanOf e n = chanOf d n := by
  have ha : assignedTo e n = assignedTo d n := by unfold assignedTo phChan; rw [h.memory]
  have hr : isReplaced e n = isReplaced d n := by simp only [isReplaced, h.repl]
  simp only [Machine.chanOf, h.forCh, ha, hr]

theorem SameRoles.isMember {d e : Device} (h : SameRoles d e) (c : Chan) (n : Slot) : isMember e c n = isMember d c n := by
  rw [Machine.isMember, h.chanOf, h.shed, h.armed, Machine.isMember]

theorem SameRoles.members {d e : Device} (h : SameRoles d e) (c : Chan) : members e c = members d c := by
  rw [Machine.members, funext (h.isMember c), Machine.members]

theorem SameRoles.memberOf {d e : Device} (h : SameRoles d e) (n : Slot) : memberOf e n = memberOf d n := by
  simp only [Machine.memberOf, h.chanOf, h.isMember]

theorem SameRoles.csPol {d e : Device} (h : SameRoles d e) (n : Slot) : csPol e n = csPol d n := by
  rw [Machine.csPol, h.cf, Machine.csPol]

theorem SameRoles.curCmp {d e : Device} (h : SameRoles d e) (n : Slot) (c : Cmp) : curCmp e n c = curCmp d n c := by
  simp only [Machine.curCmp, h.csPol]

theorem SameRoles.slotBoost {d e : Device} (h : SameRoles d e) (n : Slot) : slotBoost e n = slotBoost d n := by
  simp only [Machine.slotBoost, h.chanOf, isBoost, h.cf]

theorem SameRoles.dtX {d e : Device} (h : SameRoles d e) (n : Slot) : dtX e n = dtX d n := by
  simp only [Machine.dtX, h.slotBoost, dtA, dtB, h.cf]

theorem SameRoles.dtY {d e : Device} (h : SameRoles d e) (n : Slot) : dtY e n = dtY d n := by
  simp only [Machine.dtY, h.slotBoost, dtA, dtB, h.cf]

theorem SameRoles.codeOf {d e : Device} (h : SameRoles d e) (n : Slot) (i : Qty) : codeOf e n i = codeOf d n i := by
  simp only [Machine.codeOf, codeRaw, h.csPol, csZero, csGain, h.cf]

theorem SameRoles.zcLevel {d e : Device} (h : SameRoles d e) (c : Chan) : zcLevel e c = zcLevel d c := by
  rw [Machine.zcLevel, h.cf, Machine.zcLevel]

theorem SameRoles.lowCode {d e : Device} (h : SameRoles d e) (c : Chan) (n : Slot) : lowCode e c n = lowCode d c n := by
  rw [Machine.lowCode, h.codeOf, h.zcLevel, Machine.lowCode]

theorem SameRoles.upperBound {d e : Device} (h : SameRoles d e) (c : Chan) (n : Slot) (u : Qty) : upperBound e c n u = upperBound d c n u := by
  simp only [Machine.upperBound, h.lowCode, h.csPol]

/-! ### Outputs -/

/-- Neither output of the slot is driven. -/
structure SlotLow (n : Slot) (d : Device) : Prop where
  a : (d.slots[n]).pinA = false
  b : (d.slots[n]).pinB = false

theorem SlotLow.pins {n : Slot} {d : Device} (h : SlotLow n d) : (drive d).pins.pwma[n] = false ∧ (drive d).pins.pwmb[n] = false := by
  rw [drive_pwma, drive_pwmb, h.a, h.b]
  simp

theorem setX_slot (n : Slot) (v : Bool) (d : Device) : (setX n v d).slots[n] = { d.slots[n] with pinA := !slotBoost d n && v, pinB := slotBoost d n && v } :=
  upd_same ..

theorem setY_slot (n : Slot) (v : Bool) (d : Device) : (setY n v d).slots[n] = { d.slots[n] with pinA := slotBoost d n && v, pinB := !slotBoost d n && v } :=
  upd_same ..

theorem setX_roles (n : Slot) (v : Bool) (d : Device) : SameRoles d (setX n v d) := (SameRoles.refl d).updSlot n _

theorem setY_roles (n : Slot) (v : Bool) (d : Device) : SameRoles d (setY n v d) := (SameRoles.refl d).updSlot n _

/-- In RUN the pins of a slot of which one output is driven. -/
theorem drivenPins {n : Slot} {d : Device} {a : Bool} (hr : d.start.st = .run) (ha : (d.slots[n]).pinA = a) (hb : (d.slots[n]).pinB = !a) :
    (drive d).pins.pwma[n] = a ∧ (drive d).pins.pwmb[n] = !a := by
  rw [drive_pwma, drive_pwmb, ha, hb, Device.powerOn, hr]
  cases a <;> exact ⟨rfl, rfl⟩

/-! ### Edges -/

/-- The end of an on-time in progress: its instant, its capture, and both outputs low. -/
theorem xOff_on {n : Slot} {ce : BitVec 2} {pos : Nat} {d : Device} (h : (d.slots[n]).xOn = true) : (xOff n ce pos d).slots[n] =
    { d.slots[n] with
      xOn := false, xOffAt := edgeAt d.slots[n] pos, pinA := false, pinB := false
      cur := { (d.slots[n]).cur with toff := BitVec.ofNat 20 pos, cend := ce, ucode := BitVec.ofNat 10 (qFloor (d.slots[n]).upper).toNat } } := by
  rw [xOff, if_pos h, setX_slot, updSlot_slots, upd_same]
  simp only [Bool.and_false]

theorem xOff_idle {n : Slot} {ce : BitVec 2} {pos : Nat} {d : Device} (h : (d.slots[n]).xOn = false) :
    (xOff n ce pos d).slots[n] = { d.slots[n] with xWait := false } := by
  rw [xOff, if_neg (by rw [h]; decide), updSlot_slots, upd_same]

theorem xOff_roles (n : Slot) (ce : BitVec 2) (pos : Nat) (d : Device) : SameRoles d (xOff n ce pos d) := by
  refine if_cases (p := SameRoles d) ?_ ((SameRoles.refl d).updSlot n _)
  exact ((SameRoles.refl d).updSlot n _).trans (setX_roles ..)

theorem xOff_xOn (n : Slot) (ce : BitVec 2) (pos : Nat) (d : Device) : ((xOff n ce pos d).slots[n]).xOn = false := by
  cases h : (d.slots[n]).xOn with
  | true => rw [xOff_on h]
  | false => rw [xOff_idle h]; exact h

theorem xOff_clk (n : Slot) (ce : BitVec 2) (pos : Nat) (d : Device) : (xOff n ce pos d).clk = d.clk :=
  if_cases (p := fun x : Device => x.clk = d.clk) rfl rfl

theorem xOff_low {n : Slot} {ce : BitVec 2} {pos : Nat} {d : Device} (h : (d.slots[n]).xOn = true) : SlotLow n (xOff n ce pos d) := by
  constructor <;> rw [xOff_on h]

theorem yOff_on {n : Slot} {edge : Nat} {d : Device} (h : (d.slots[n]).yOn = true) : (yOff n edge d).slots[n] =
    { d.slots[n] with yOn := false, yDone := (d.slots[n]).yLate.isNone, yOffAt := edge, yLate := none, pinA := false, pinB := false } := by
  rw [yOff, if_pos h, setY_slot, updSlot_slots, upd_same]
  simp only [Bool.and_false]

theorem yOff_roles (n : Slot) (edge : Nat) (d : Device) : SameRoles d (yOff n edge d) := by
  refine if_cases (p := SameRoles d) ?_ ((SameRoles.refl d).updSlot n _)
  exact ((SameRoles.refl d).updSlot n _).trans (setY_roles ..)

theorem yOff_clk (n : Slot) (edge : Nat) (d : Device) : (yOff n edge d).clk = d.clk :=
  if_cases (p := fun x : Device => x.clk = d.clk) rfl rfl

/-! ### Upper crossing and limits (R168, R174 to R176) -/

theorem waitPos_roles (n : Slot) (pos : Nat) (d : Device) : SameRoles d (waitPos n pos d) :=
  if_cases (p := SameRoles d) ((SameRoles.refl d).waitUp _) (.refl d)

/-- An upper crossing after blanking. -/
theorem upperCrossing_ends {n : Slot} {pos : Nat} {d : Device} (hx : (d.slots[n]).xOn = true) (hb : (d.slots[n]).blanked = true) :
    (upperCrossing n pos d).slots[n] = { d.slots[n] with
      cmp := if csPol d n then .below else .above, cmpMoved := true
      xOn := false, xOffAt := edgeAt d.slots[n] pos, pinA := false, pinB := false
      cur := { (d.slots[n]).cur with toff := BitVec.ofNat 20 pos, cend := 0, ucode := BitVec.ofNat 10 (qFloor (d.slots[n]).upper).toNat } } := by
  have hs : (d.updSlot n fun s => { s with cmp := if csPol d n then .below else .above, cmpMoved := true }).slots[n] =
    { d.slots[n] with cmp := if csPol d n then .below else .above, cmpMoved := true } := upd_same ..
  unfold upperCrossing
  dsimp only
  rw [if_pos (by rw [hs]; exact ⟨hx, hb⟩), xOff_on (by rw [hs]; exact hx), hs]
  rfl

/-- An upper crossing before blanking or outside an on-time. -/
theorem upperCrossing_ignored {n : Slot} {pos : Nat} {d : Device} (h : (d.slots[n]).xOn = false ∨ (d.slots[n]).blanked = false) :
    (upperCrossing n pos d).slots[n] = { d.slots[n] with cmp := if csPol d n then .below else .above, cmpMoved := true } := by
  have hs : (d.updSlot n fun s => { s with cmp := if csPol d n then .below else .above, cmpMoved := true }).slots[n] =
    { d.slots[n] with cmp := if csPol d n then .below else .above, cmpMoved := true } := upd_same ..
  unfold upperCrossing
  dsimp only
  rw [if_neg, hs]
  rw [hs]
  rintro ⟨hx, hb⟩
  rcases h with h | h
  · exact Bool.false_ne_true (h.symm.trans hx)
  · exact Bool.false_ne_true (h.symm.trans hb)

/-- A saturated on-time ends with its open evidence. -/
theorem saturated_on {n : Slot} {cmp : Cmp} {d : Device} (h : (d.slots[n]).xOn = true) :
    ((saturated n cmp d).slots[n]).xOn = false ∧ ((saturated n cmp d).slots[n]).cur.cend = 1 ∧
    ((saturated n cmp d).slots[n]).cur.copen = decide (curCmp d n cmp = .below) ∧ SlotLow n (saturated n cmp d) ∧ (saturated n cmp d).clk = d.clk := by
  have hs : (saturated n cmp d).slots[n] =
      { (xOff n 1 (posFine d n) d).slots[n] with cmp := cmp, cur := { ((xOff n 1 (posFine d n) d).slots[n]).cur with copen := decide (curCmp d n cmp = .below) } } :=
    upd_same ..
  rw [xOff_on h] at hs
  exact ⟨by rw [hs], by rw [hs], by rw [hs], ⟨by rw [hs], by rw [hs]⟩, xOff_clk ..⟩

theorem tonMaxReached_on {n : Slot} {cmp : Cmp} {d : Device} (h : (d.slots[n]).xOn = true) :
    (tonMaxReached n cmp d).clk.up = max d.clk.up ((d.slots[n]).due + (d.slots[n]).tonMax - 2 * (d.slots[n]).m) ∧
    ((tonMaxReached n cmp d).slots[n]).xOn = false ∧ ((tonMaxReached n cmp d).slots[n]).cur.cend = 1 ∧
    ((tonMaxReached n cmp d).slots[n]).cur.copen = decide (curCmp d n cmp = .below) ∧ SlotLow n (tonMaxReached n cmp d) := by
  have hd : tonMaxReached n cmp d = saturated n cmp (waitUp ((d.slots[n]).due + (d.slots[n]).tonMax - 2 * (d.slots[n]).m) d) := if_pos h
  obtain ⟨h1, h2, h3, h4, h5⟩ := saturated_on (cmp := cmp) (d := waitUp ((d.slots[n]).due + (d.slots[n]).tonMax - 2 * (d.slots[n]).m) d) h
  rw [hd]
  exact ⟨by rw [h5, waitUp_up], h1, h2, by rw [h3, ((SameRoles.refl d).waitUp _).curCmp], h4⟩

theorem onTimeLimit_on {n : Slot} {cmp : Cmp} {d : Device} (h : (d.slots[n]).xOn = true) :
    (onTimeLimit n cmp d).clk.up = max d.clk.up ((d.slots[n]).due - ((dtX d n + dtY d n + 15) / 16 + 8)) ∧
    ((onTimeLimit n cmp d).slots[n]).xOn = false ∧ ((onTimeLimit n cmp d).slots[n]).cur.cend = 1 ∧ SlotLow n (onTimeLimit n cmp d) := by
  have hd : onTimeLimit n cmp d = saturated n cmp (waitUp ((d.slots[n]).due - ((dtX d n + dtY d n + 15) / 16 + 8)) d) := if_pos h
  obtain ⟨h1, h2, -, h4, h5⟩ := saturated_on (cmp := cmp) (d := waitUp ((d.slots[n]).due - ((dtX d n + dtY d n + 15) / 16 + 8)) d) h
  rw [hd]
  exact ⟨by rw [h5, waitUp_up], h1, h2, h4⟩

/-! ### The end of blanking (R174) -/

/-- The slot past its blanking, at its instant. -/
def pastBlanking (n : Slot) (c : Chan) (cmp : Cmp) (d : Device) : Device :=
  (waitUp ((d.slots[n]).xAt / 16 + blank d c) d).updSlot n fun s => { s with blanked := true, cmp := cmp }

theorem pastBlanking_slot (n : Slot) (c : Chan) (cmp : Cmp) (d : Device) : (pastBlanking n c cmp d).slots[n] = { d.slots[n] with blanked := true, cmp := cmp } :=
  upd_same ..

theorem pastBlanking_roles (n : Slot) (c : Chan) (cmp : Cmp) (d : Device) : SameRoles d (pastBlanking n c cmp d) :=
  ((SameRoles.refl d).waitUp _).updSlot n _

theorem pastBlanking_up (n : Slot) (c : Chan) (cmp : Cmp) (d : Device) : (pastBlanking n c cmp d).clk.up = max d.clk.up ((d.slots[n]).xAt / 16 + blank d c) :=
  waitUp_up ..

theorem blankingEnd_on {n : Slot} {c : Chan} {cmp : Cmp} {d : Device} (hc : chanOf d n = some c) (hx : (d.slots[n]).xOn = true) (hb : (d.slots[n]).blanked = false) :
    blankingEnd n cmp d =
      if curCmp d n cmp = .above then xOff n 0 (posFine (pastBlanking n c cmp d) n) (pastBlanking n c cmp d)
      else if (d.chans[c]).chlim then terminate c n (pastBlanking n c cmp d) else pastBlanking n c cmp d := by
  have hcur := (pastBlanking_roles n c cmp d).curCmp n cmp
  unfold blankingEnd
  rw [hc]
  dsimp only
  rw [if_pos ⟨hx, hb⟩, ← hcur]
  rfl

/-! ### The channel limit (R177, R224) -/

theorem terminate_xOn (c : Chan) (n : Slot) (d : Device) : ((terminate c n d).slots[n]).xOn = false := by
  cases h : (d.slots[n]).xOn with
  | true =>
    have hd : terminate c n d = (xOff n 2 (posFine d n) d).updChan c _ := if_pos h
    rw [hd, updChan_slots]
    exact xOff_xOn ..
  | false =>
    have hd : terminate c n d = d := if_neg (by rw [h]; decide)
    rw [hd]
    exact h

theorem terminate_limit (c : Chan) (n : Slot) (d : Device) :
    ((terminate c n d).chans[c]).chlim = (d.chans[c]).chlim ∧ ((terminate c n d).chans[c]).chBelow = (d.chans[c]).chBelow := by
  have hx : (xOff n 2 (posFine d n) d).chans = d.chans := if_cases (p := fun x : Device => x.chans = d.chans) rfl rfl
  refine if_cases (p := fun x : Device => (x.chans[c]).chlim = (d.chans[c]).chlim ∧ (x.chans[c]).chBelow = (d.chans[c]).chBelow) ?_ ⟨rfl, rfl⟩
  rw [updChan_chans, upd_same, hx]
  exact ⟨rfl, rfl⟩

theorem channelLimit_above (c : Chan) (d : Device) :
    ((channelLimit c .above d).chans[c]).chlim = true ∧ ((channelLimit c .above d).chans[c]).chBelow = false ∧
    ∀ n ∈ members d c, ((channelLimit c .above d).slots[n]).xOn = false := by
  obtain ⟨e, he⟩ : ∃ e, e = d.updChan c fun s => { s with chlim := true, chBelow := false } := ⟨_, rfl⟩
  have hm : members e c = members d c := he ▸ ((SameRoles.refl d).updChan c _).members c
  have hd : channelLimit c .above d = forEach (members d c) (terminate c) e := by rw [← hm, he]; rfl
  have h0 : (e.chans[c]).chlim = true ∧ (e.chans[c]).chBelow = false := by rw [he, updChan_chans, upd_same]; exact ⟨rfl, rfl⟩
  obtain ⟨h1, h2⟩ := forEach_induct (fun x => (x.chans[c]).chlim = true ∧ (x.chans[c]).chBelow = false) (members d c) (terminate c)
    (fun n x ⟨h1, h2⟩ => have ⟨k1, k2⟩ := terminate_limit c n x; ⟨k1.trans h1, k2.trans h2⟩) e h0
  rw [hd]
  refine ⟨h1, h2, fun n hn => forEach_each (P := fun n x => (x.slots[n]).xOn = false) (terminate_xOn c) (fun n k x h => ?_) hn e⟩
  by_cases hk : n = k
  · exact hk ▸ terminate_xOn c n x
  · rw [(terminate_others c k x).same n hk]
    exact h

/-- Settles O25: each end of an on-time by what it makes of its slot. -/
theorem onTimeEnds : Obligations.OnTimeEnds := by
  unfold Obligations.OnTimeEnds
  refine ⟨fun n pos s hc hx hb => ?_, fun n pos s hc h => ?_, fun n cmp s hc hx => ?_, fun n cmp s hc hx => ?_, fun n c cmp s hk hc hx hb ha => ?_,
    fun n c cmp s hk hc hx hb ha hl => ?_, fun c s => ?_, fun c cmp s h => ?_⟩
  · obtain ⟨t, ht, hd⟩ := done_next (fun d => upperCrossing n pos.toNat (waitPos n pos.toNat d)) s
    have hw := waitPos_slots n pos.toNat s.dev
    have he := upperCrossing_ends (n := n) (pos := pos.toNat) (d := waitPos n pos.toNat s.dev) (by rw [hw]; exact hx) (by rw [hw]; exact hb)
    have ho := upperCrossing_others n pos.toNat (waitPos n pos.toNat s.dev)
    rw [hw] at he
    have hlow : SlotLow n (upperCrossing n pos.toNat (waitPos n pos.toNat s.dev)) := ⟨by rw [he], by rw [he]⟩
    refine ⟨t, (execUpperCrossing_calm n pos s hc).trans ht, ?_⟩
    rw [hd, drive_slots, he]
    exact ⟨rfl, BitVec.ofNat_toNat .., rfl, rfl, rfl, hlow.pins.1, hlow.pins.2, fun k hk => (ho.same k hk).trans (by rw [hw])⟩
  · obtain ⟨t, ht, hd⟩ := done_next (fun d => upperCrossing n pos.toNat (waitPos n pos.toNat d)) s
    have hw := waitPos_slots n pos.toNat s.dev
    have he := upperCrossing_ignored (n := n) (pos := pos.toNat) (d := waitPos n pos.toNat s.dev) (by rw [hw]; exact h)
    rw [hw] at he
    refine ⟨t, (execUpperCrossing_calm n pos s hc).trans ht, ?_⟩
    rw [hd, drive_slots, he]
    exact ⟨rfl, rfl, rfl, rfl⟩
  · obtain ⟨t, ht, hd⟩ := done_next (tonMaxReached n cmp) s
    obtain ⟨h1, h2, h3, h4, h5⟩ := tonMaxReached_on (cmp := cmp) hx
    refine ⟨t, (execTonMaxReached_calm n cmp s hc).trans ht, ?_⟩
    rw [hd, drive_slots, drive_clk]
    exact ⟨h1, h2, h3, h4, h5.pins⟩
  · obtain ⟨t, ht, hd⟩ := done_next (onTimeLimit n cmp) s
    obtain ⟨h1, h2, h3, h5⟩ := onTimeLimit_on (cmp := cmp) hx
    refine ⟨t, (execOnTimeLimit_calm n cmp s hc).trans ht, ?_⟩
    rw [hd, drive_slots, drive_clk]
    exact ⟨h1, h2, h3, h5.pins⟩
  · obtain ⟨t, ht, hd⟩ := done_next (blankingEnd n cmp) s
    have hp := pastBlanking_slot n c cmp s.dev
    have hpx : ((pastBlanking n c cmp s.dev).slots[n]).xOn = true := by rw [hp]; exact hx
    refine ⟨t, (execBlankingEnd_calm n cmp s hk).trans ht, ?_⟩
    rw [hd, drive_slots, drive_clk, blankingEnd_on hc hx hb, if_pos ha, xOff_clk, pastBlanking_up]
    exact ⟨rfl, xOff_xOn .., by rw [xOff_on hpx], (xOff_low hpx).pins⟩
  · obtain ⟨t, ht, hd⟩ := done_next (blankingEnd n cmp) s
    refine ⟨t, (execBlankingEnd_calm n cmp s hk).trans ht, ?_⟩
    rw [hd, drive_slots, blankingEnd_on hc hx hb, if_neg ha, hl, if_neg Bool.false_ne_true, pastBlanking_slot]
    exact ⟨hx, rfl, rfl, rfl⟩
  · obtain ⟨t, ht, hd⟩ := done_next (channelLimit c .above) s
    refine ⟨t, ht, ?_⟩
    rw [hd, drive_chans, drive_slots]
    exact channelLimit_above c s.dev
  · obtain ⟨t, ht, hd⟩ := done_next (channelLimit c cmp) s
    have he : channelLimit c cmp s.dev = s.dev.updChan c fun x => { x with chlim := decide (cmp = .above), chBelow := decide (cmp = .below) } := if_neg h
    refine ⟨t, ht, ?_⟩
    rw [hd, drive_chans, drive_slots, he, updChan_chans, upd_same]
    exact ⟨decide_eq_false h, rfl, rfl, fun k hk => upd_other _ _ _ _ hk⟩

end Sys2Proof.Machine

/-! ## The complementary output, the lower crossing and the slope compensation (05) -/

namespace Sys2Proof.Machine

/-! ### The complementary output (R174) -/

/-- An edge that time is let pass for stands at its own instant, or now where that has passed. -/
theorem edge_after (e u : Nat) : max e (16 * max u (e / 16)) = max e (16 * u) := by omega

/-- The device at the complementary edge: that output is on from an edge. -/
def yRisen (n : Slot) (e : Nat) (w : Device) : Device := setY n true (w.updSlot n fun s => { s with yOn := true, yAt := e, yBlanked := false })

theorem yRisen_slot (n : Slot) (e : Nat) (w : Device) : (yRisen n e w).slots[n] =
    { w.slots[n] with yOn := true, yAt := e, yBlanked := false, pinA := slotBoost w n, pinB := !slotBoost w n } := by
  rw [yRisen, setY_slot, updSlot_slots, upd_same, ((SameRoles.refl w).updSlot n _).slotBoost]
  simp only [Bool.and_true]

/-- The dead time ends before the complementary output's end: that output rises. -/
theorem deadTimeEnd_rises {n : Slot} {d : Device} (hw : (d.slots[n]).xWait = false) (hwas : (d.slots[n]).xWas = true) (hx : (d.slots[n]).xOn = false)
    (hy : (d.slots[n]).yOn = false) (hd : (d.slots[n]).yDone = false) (hs : (d.slots[n]).shedFrom = none) (hb : slotBarred d n = false)
    (he : max ((d.slots[n]).xOffAt + dtY d n) (16 * d.clk.up) < yOffEdge d n) :
    deadTimeEnd n d = yRisen n (max ((d.slots[n]).xOffAt + dtY d n) (16 * d.clk.up)) (waitUp (((d.slots[n]).xOffAt + dtY d n) / 16) d) := by
  unfold deadTimeEnd
  dsimp only
  rw [if_neg (by rw [hw]; decide), if_pos ⟨hwas, hx, hy, hd, hs, hb⟩, show ∀ x : Device, x.up = x.clk.up from fun _ => rfl, waitUp_up, edge_after]
  exact if_pos he

/-- The complementary output goes off at its end. -/
theorem yOffCount_on {n : Slot} {d : Device} (hr : (d.slots[n]).running = true) (hy : (d.slots[n]).yOn = true) :
    (yOffCount n d).clk.up = max d.clk.up (yOffEdge d n / 16) ∧ (yOffCount n d).slots[n] =
      { d.slots[n] with yOn := false, yDone := (d.slots[n]).yLate.isNone, yOffAt := max (yOffEdge d n) (16 * d.clk.up), yLate := none, pinA := false, pinB := false } := by
  have hd : yOffCount n d = yOffDue n d := if_pos hr
  have he : yOffDue n d = yOff n (max (yOffEdge d n) (16 * (waitUp (yOffEdge d n / 16) d).clk.up)) (waitUp (yOffEdge d n / 16) d) := rfl
  rw [hd, he, waitUp_up, edge_after]
  exact ⟨by rw [yOff_clk, waitUp_up], yOff_on hy⟩

/-! ### The lower crossing (R173, R178, R196) -/

/-- A lower crossing as captured. -/
def lowMarked (n : Slot) (pos : Nat) (d : Device) : Device := d.updSlot n fun s => { s with
  cmp := if csPol d n then .above else .below
  cmpMoved := true
  lowSeen := s.lowSeen || (s.xWas && !s.xOn)
  cur := if s.xWas && !s.xOn && !s.lowSeen then { s.cur with tlow := BitVec.ofNat 20 pos } else s.cur }

theorem lowMarked_slot (n : Slot) (pos : Nat) (d : Device) : (lowMarked n pos d).slots[n] = { d.slots[n] with
    cmp := if csPol d n then .above else .below
    cmpMoved := true
    lowSeen := (d.slots[n]).lowSeen || ((d.slots[n]).xWas && !(d.slots[n]).xOn)
    cur := if (d.slots[n]).xWas && !(d.slots[n]).xOn && !(d.slots[n]).lowSeen then { (d.slots[n]).cur with tlow := BitVec.ofNat 20 pos } else (d.slots[n]).cur } := upd_same ..

/-- A lower crossing is captured, and may then end the complementary output. -/
theorem lowerCross_eq (n : Slot) (pos : Nat) (d : Device) : lowerCross n pos d = match chanOf (lowMarked n pos d) n with
    | some c => if ((lowMarked n pos d).slots[n]).yOn ∧ ((lowMarked n pos d).slots[n]).yBlanked ∧ (deEn (lowMarked n pos d) c ∨ ((lowMarked n pos d).chans[c]).gate = false) then
        yOff n (edgeAt (lowMarked n pos d).slots[n] pos) (lowMarked n pos d) else lowMarked n pos d
    | none => lowMarked n pos d := rfl

theorem lowerCross_cases (n : Slot) (pos : Nat) (d : Device) :
    lowerCross n pos d = lowMarked n pos d ∨ lowerCross n pos d = yOff n (edgeAt (lowMarked n pos d).slots[n] pos) (lowMarked n pos d) := by
  rw [lowerCross_eq]
  split
  · exact (ite_eq_or_eq ..).symm
  · exact .inl rfl

theorem yOff_capture (n : Slot) (edge : Nat) (d : Device) : ((yOff n edge d).slots[n]).lowSeen = (d.slots[n]).lowSeen ∧
    ((yOff n edge d).slots[n]).cur = (d.slots[n]).cur := by
  cases h : (d.slots[n]).yOn with
  | true => rw [yOff_on h]; exact ⟨rfl, rfl⟩
  | false =>
    have hd : yOff n edge d = d.updSlot n fun s => { s with yDone := true } := if_neg (by rw [h]; decide)
    rw [hd, updSlot_slots, upd_same]
    exact ⟨rfl, rfl⟩

/-- The first lower crossing after the on-time is captured. -/
theorem lowerCross_first {n : Slot} {pos : Nat} {d : Device} (hw : (d.slots[n]).xWas = true) (hx : (d.slots[n]).xOn = false) (hl : (d.slots[n]).lowSeen = false) :
    ((lowerCross n pos d).slots[n]).lowSeen = true ∧ ((lowerCross n pos d).slots[n]).cur.tlow = BitVec.ofNat 20 pos := by
  have hs := lowMarked_slot n pos d
  rw [hw, hx, hl] at hs
  have hm : ((lowMarked n pos d).slots[n]).lowSeen = true ∧ ((lowMarked n pos d).slots[n]).cur.tlow = BitVec.ofNat 20 pos := by rw [hs]; exact ⟨rfl, rfl⟩
  rcases lowerCross_cases n pos d with h | h
  · rw [h]
    exact hm
  · obtain ⟨h1, h2⟩ := yOff_capture n (edgeAt (lowMarked n pos d).slots[n] pos) (lowMarked n pos d)
    rw [h, h1, h2]
    exact hm

/-- Under diode emulation or a closed gate a lower crossing ends the complementary output. -/
theorem lowerCross_ends {n : Slot} {c : Chan} {pos : Nat} {d : Device} (hc : chanOf d n = some c) (hy : (d.slots[n]).yOn = true) (hb : (d.slots[n]).yBlanked = true)
    (hg : deEn d c = true ∨ (d.chans[c]).gate = false) : lowerCross n pos d = yOff n (edgeAt d.slots[n] pos) (lowMarked n pos d) := by
  have hr : SameRoles d (lowMarked n pos d) := (SameRoles.refl d).updSlot n _
  have hs := lowMarked_slot n pos d
  have hc' : chanOf (lowMarked n pos d) n = some c := (hr.chanOf n).trans hc
  have he : edgeAt (lowMarked n pos d).slots[n] pos = edgeAt d.slots[n] pos := by rw [hs]; rfl
  rw [lowerCross_eq, hc']
  dsimp only
  rw [if_pos ⟨by rw [hs]; exact hy, by rw [hs]; exact hb, hg⟩, he]

/-! ### The slope compensation (R187) -/

theorem slopeStep_on {n : Slot} {c : Chan} {d : Device} (hc : chanOf d n = some c) (hx : (d.slots[n]).xOn = true) (hp : csPol d n = false) :
    (slopeStep n d).clk.up = max d.clk.up ((d.slots[n]).xAt / 16 + 4 * ((d.slots[n]).slopeN + 1)) ∧
    (slopeStep n d).slots[n] = { d.slots[n] with
      slopeN := (d.slots[n]).slopeN + 1, upper := max ((lowCode d c n : Qty) + 1) ((d.slots[n]).upper - slopeCode d c n) } := by
  have hr : SameRoles d (waitUp ((d.slots[n]).xAt / 16 + 4 * ((d.slots[n]).slopeN + 1)) d) := (SameRoles.refl d).waitUp _
  have hu (u : Qty) : upperBound d c n u = max ((lowCode d c n : Qty) + 1) u := if_neg (by rw [hp]; decide)
  unfold slopeStep
  rw [hc]
  dsimp only
  rw [if_pos hx, hr.csPol, hp, if_neg Bool.false_ne_true, hr.upperBound, hu, updSlot_clk, waitUp_up, updSlot_slots, upd_same]
  exact ⟨rfl, rfl⟩

/-- Settles O26: the complementary output by its two edges, the lower crossing by its capture and its end, the slope by one step. -/
theorem complementaryOutput : Obligations.ComplementaryOutput := by
  unfold Obligations.ComplementaryOutput
  refine ⟨fun n s hc hw hwas hx hy hdn hs hb hr he => ?_, fun n s hc hr hy => ?_, fun n pos s hc hw hx hl => ?_, fun n c pos s hk hc hy hb hg => ?_,
    fun n c s hk hc hx hp => ?_⟩
  · obtain ⟨t, ht, hd⟩ := done_next (deadTimeEnd n) s
    have hs' := yRisen_slot n (max ((s.dev.slots[n]).xOffAt + dtY s.dev n) (16 * s.dev.clk.up)) (waitUp (((s.dev.slots[n]).xOffAt + dtY s.dev n) / 16) s.dev)
    rw [((SameRoles.refl s.dev).waitUp _).slotBoost] at hs'
    refine ⟨t, (execDeadTimeEnd_calm n s hc).trans ht, ?_⟩
    rw [hd, drive_slots, drive_clk, deadTimeEnd_rises hw hwas hx hy hdn hs hb he]
    have hp := drivenPins (n := n) (a := slotBoost s.dev n)
      (d := yRisen n (max ((s.dev.slots[n]).xOffAt + dtY s.dev n) (16 * s.dev.clk.up)) (waitUp (((s.dev.slots[n]).xOffAt + dtY s.dev n) / 16) s.dev))
      hr (by rw [hs']) (by rw [hs'])
    exact ⟨waitUp_up .., by rw [hs'], by rw [hs'], hp⟩
  · obtain ⟨t, ht, hd⟩ := done_next (yOffCount n) s
    obtain ⟨h1, h2⟩ := yOffCount_on hr hy
    refine ⟨t, (execYOffCount_calm n s hc).trans ht, ?_⟩
    rw [hd, drive_slots, drive_clk]
    exact ⟨h1, by rw [h2], by rw [h2], by rw [h2], (SlotLow.mk (by rw [h2]) (by rw [h2])).pins⟩
  · obtain ⟨t, ht, hd⟩ := done_next (fun d => lowerCross n pos.toNat (waitPos n pos.toNat d)) s
    have he := waitPos_slots n pos.toNat s.dev
    obtain ⟨h1, h2⟩ := lowerCross_first (n := n) (pos := pos.toNat) (d := waitPos n pos.toNat s.dev) (by rw [he]; exact hw) (by rw [he]; exact hx) (by rw [he]; exact hl)
    refine ⟨t, (execLowerCrossing_calm n pos s hc).trans ht, ?_⟩
    rw [hd, drive_slots]
    exact ⟨h1, h2.trans (BitVec.ofNat_toNat ..), fun k hk => ((lowerCross_others n pos.toNat _).same k hk).trans (by rw [he])⟩
  · obtain ⟨t, ht, hd⟩ := done_next (fun d => lowerCross n pos.toNat (waitPos n pos.toNat d)) s
    have he := waitPos_slots n pos.toNat s.dev
    have hr := waitPos_roles n pos.toNat s.dev
    have hch : (waitPos n pos.toNat s.dev).chans = s.dev.chans := if_cases (p := fun x : Device => x.chans = s.dev.chans) rfl rfl
    have hde : deEn (waitPos n pos.toNat s.dev) c = deEn s.dev c := by simp only [deEn, hr.cf]
    have hl := lowerCross_ends (n := n) (c := c) (pos := pos.toNat) (d := waitPos n pos.toNat s.dev) ((hr.chanOf n).trans hc) (by rw [he]; exact hy)
      (by rw [he]; exact hb) (by rw [hde, hch]; exact hg)
    have hm := lowMarked_slot n pos.toNat (waitPos n pos.toNat s.dev)
    have hy' : ((lowMarked n pos.toNat (waitPos n pos.toNat s.dev)).slots[n]).yOn = true := by rw [hm, he]; exact hy
    have hs := yOff_on (edge := edgeAt (waitPos n pos.toNat s.dev).slots[n] pos.toNat) hy'
    rw [← hl] at hs
    refine ⟨t, (execLowerCrossing_calm n pos s hk).trans ht, ?_⟩
    rw [hd, drive_slots]
    exact ⟨by rw [hs], by rw [hs, he], (SlotLow.mk (by rw [hs]) (by rw [hs])).pins⟩
  · obtain ⟨t, ht, hd⟩ := done_next (slopeStep n) s
    obtain ⟨h1, h2⟩ := slopeStep_on hc hx hp
    refine ⟨t, (execSlopeCompStep_calm n s hk).trans ht, ?_⟩
    rw [hd, drive_slots, drive_clk, h2]
    exact ⟨rfl, h1, rfl⟩

end Sys2Proof.Machine

/-! ## Valleys (05) -/

namespace Sys2Proof.Machine

/-! ### The slot as a valley finds it (R165, R174) -/

/-- A slot without what the ends of its two on-times write. -/
def sansOutputs (s : SlotSt) : SlotSt :=
  { s with xOn := false, xOffAt := 0, cur := {}, xWait := false, pinA := false, pinB := false, yOn := false, yDone := false, yOffAt := 0, yLate := none }

theorem xOff_sans (n : Slot) (ce : BitVec 2) (pos : Nat) (d : Device) : sansOutputs (xOff n ce pos d).slots[n] = sansOutputs d.slots[n] := by
  cases h : (d.slots[n]).xOn with
  | true => rw [xOff_on h]; rfl
  | false => rw [xOff_idle h]; rfl

theorem xOff_y (n : Slot) (ce : BitVec 2) (pos : Nat) (d : Device) : ((xOff n ce pos d).slots[n]).yOn = (d.slots[n]).yOn ∧
    ((xOff n ce pos d).slots[n]).yLate = (d.slots[n]).yLate ∧ ((xOff n ce pos d).slots[n]).yOffAt = (d.slots[n]).yOffAt := by
  cases h : (d.slots[n]).xOn with
  | true => rw [xOff_on h]; exact ⟨rfl, rfl, rfl⟩
  | false => rw [xOff_idle h]; exact ⟨rfl, rfl, rfl⟩

/-- The words of the carrier and of its captures. -/
structure SameCarrier (s t : SlotSt) : Prop where
  due : s.due = t.due
  m : s.m = t.m
  mShadow : s.mShadow = t.mShadow
  ofs : s.ofs = t.ofs
  ofsNext : s.ofsNext = t.ofsNext
  inCycle : s.inCycle = t.inCycle
  new : s.new = t.new
  overcap : s.overcap = t.overcap
  evRun : s.evRun = t.evRun
  tadpole : s.tadpole = t.tadpole
  dflt : s.dflt = t.dflt
  holders : s.holders = t.holders

theorem carrier_of_sans {s t : SlotSt} (h : sansOutputs s = sansOutputs t) : SameCarrier s t := by
  have key {β : Type} (g : SlotSt → β) : g (sansOutputs s) = g (sansOutputs t) := congrArg g h
  exact ⟨key SlotSt.due, key SlotSt.m, key SlotSt.mShadow, key SlotSt.ofs, key SlotSt.ofsNext, key SlotSt.inCycle, key SlotSt.new, key SlotSt.overcap,
    key SlotSt.evRun, key SlotSt.tadpole, key SlotSt.dflt, key SlotSt.holders⟩

/-- A complementary output whose end lies before the valley ends there. -/
def yBefore (n : Slot) (d : Device) : Device := if (d.slots[n]).yOn ∧ yOffEdge d n < 16 * (d.slots[n]).due then yOffDue n d else d

/-- The valley: what ends before it has ended, time has come, and an on-time that still runs ends at it. -/
def valleyReached (n : Slot) (d : Device) : Device :=
  let e := waitUp ((yBefore n d).slots[n]).due (yBefore n d)
  xOff n 1 (posFine e n) e

theorem yOffEdge_congr {n : Slot} {d e : Device} (hr : SameRoles d e) (hl : (e.slots[n]).yLate = (d.slots[n]).yLate) (hd : (e.slots[n]).due = (d.slots[n]).due)
    (ho : (e.slots[n]).ofs = (d.slots[n]).ofs) : yOffEdge e n = yOffEdge d n := by
  simp only [yOffEdge, hl, hd, ho, hr.dtX]

theorem yBefore_off {n : Slot} {d : Device} (h : (d.slots[n]).yOn = true ∧ yOffEdge d n < 16 * (d.slots[n]).due) : yBefore n d = yOffDue n d := if_pos h

theorem yBefore_keep {n : Slot} {d : Device} (h : (d.slots[n]).yOn = false ∨ 16 * (d.slots[n]).due ≤ yOffEdge d n) : yBefore n d = d :=
  if_neg fun ⟨h1, h2⟩ => h.elim (fun h => Bool.false_ne_true (h.symm.trans h1)) fun h => absurd h2 (Nat.not_lt.2 h)

theorem yOffDue_eq (n : Slot) (d : Device) :
    yOffDue n d = yOff n (max (yOffEdge d n) (16 * (waitUp (yOffEdge d n / 16) d).clk.up)) (waitUp (yOffEdge d n / 16) d) := rfl

theorem yBefore_sans (n : Slot) (d : Device) : sansOutputs (yBefore n d).slots[n] = sansOutputs d.slots[n] := by
  unfold yBefore
  split
  · next h =>
    rw [yOffDue_eq, yOff_on (by rw [waitUp_slots]; exact h.1)]
    rfl
  · rfl

theorem yBefore_roles (n : Slot) (d : Device) : SameRoles d (yBefore n d) :=
  if_cases (p := SameRoles d) (((SameRoles.refl d).waitUp _).trans (yOff_roles ..)) (.refl d)

theorem yBefore_up (n : Slot) (d : Device) : max (yBefore n d).clk.up (d.slots[n]).due = max d.clk.up (d.slots[n]).due := by
  unfold yBefore
  split
  · next h =>
    obtain ⟨-, h⟩ := h
    rw [yOffDue_eq, yOff_clk, waitUp_up]
    omega
  · rfl

theorem yBefore_others (n : Slot) (d : Device) : OtherSlots n d (yBefore n d) := .ite (yOffDue_others n d) (.of_eq rfl)

theorem yBefore_keeps (n : Slot) (d : Device) : Keeps [.clk, .slots] d (yBefore n d) := by
  unfold yBefore
  split
  · exact yOffDue_keeps n d
  · exact .refl _ d

/-- What the valley finds: time has come, the active output is off, the carrier's words stand. -/
structure AtValley (n : Slot) (d e : Device) : Prop where
  roles : SameRoles d e
  others : OtherSlots n d e
  keeps : Keeps [.clk, .slots] d e
  up : e.clk.up = max d.clk.up (d.slots[n]).due
  xOn : (e.slots[n]).xOn = false
  carrier : SameCarrier e.slots[n] d.slots[n]
  gone : (d.slots[n]).yOn = false ∨ yOffEdge d n < 16 * (d.slots[n]).due → (e.slots[n]).yOn = false
  stays : (d.slots[n]).yOn = true → 16 * (d.slots[n]).due ≤ yOffEdge d n → (e.slots[n]).yOn = true ∧ yOffEdge e n = yOffEdge d n
  yOffAt : (d.slots[n]).yOn = false → (e.slots[n]).yOffAt = (d.slots[n]).yOffAt

theorem valleyReached_at (n : Slot) (d : Device) : AtValley n d (valleyReached n d) := by
  obtain ⟨w, hw⟩ : ∃ w, w = waitUp ((yBefore n d).slots[n]).due (yBefore n d) := ⟨_, rfl⟩
  have he : valleyReached n d = xOff n 1 (posFine w n) w := by rw [hw]; rfl
  have hws : w.slots = (yBefore n d).slots := by rw [hw]; rfl
  have hwr : SameRoles d w := by rw [hw]; exact (yBefore_roles n d).waitUp _
  have hwo : OtherSlots n d w := by rw [hw]; exact (yBefore_others n d).trans (waitUp_others ..)
  have hwk : Keeps [.clk, .slots] d w := by rw [hw]; exact (yBefore_keeps n d).trans ((waitUp_keeps ..).mono rfl)
  have hwu : w.clk.up = max (yBefore n d).clk.up ((yBefore n d).slots[n]).due := by rw [hw, waitUp_up]
  obtain ⟨hy, hl, ho⟩ := xOff_y n 1 (posFine w n) w
  have hsans : sansOutputs (xOff n 1 (posFine w n) w).slots[n] = sansOutputs d.slots[n] := by rw [xOff_sans, hws, yBefore_sans]
  have hroles := hwr.trans (xOff_roles n 1 (posFine w n) w)
  rw [he]
  refine ⟨hroles, hwo.trans (xOff_others ..), hwk.trans ((xOff_keeps ..).mono rfl), ?_, xOff_xOn .., carrier_of_sans hsans, fun h => ?_, fun h1 h2 => ?_, fun h => ?_⟩
  · have hd : ((yBefore n d).slots[n]).due = (d.slots[n]).due := (carrier_of_sans (yBefore_sans n d)).due
    rw [xOff_clk, hwu, hd, yBefore_up]
  · rw [hy, hws]
    by_cases hon : (d.slots[n]).yOn = true ∧ yOffEdge d n < 16 * (d.slots[n]).due
    · rw [yBefore_off hon, yOffDue_eq, yOff_on (by rw [waitUp_slots]; exact hon.1)]
    · have hn : (d.slots[n]).yOn = false := h.elim id fun h => Bool.eq_false_iff.2 fun ht => hon ⟨ht, h⟩
      rw [yBefore_keep (.inl hn), hn]
  · have hk := yBefore_keep (.inr h2)
    refine ⟨by rw [hy, hws, hk, h1], yOffEdge_congr hroles ?_ (carrier_of_sans hsans).due (carrier_of_sans hsans).ofs⟩
    rw [hl, hws, hk]
  · rw [ho, hws, yBefore_keep (.inl h)]

/-! ### The next cycle (R165, R196, R197) -/

/-- The capture event of a cycle that ends. -/
def valleyCaptured (n : Slot) (cmp : Cmp) (moved : Bool) (e : Device) : Device :=
  if (e.slots[n]).inCycle then captureEvent n (evidence e n cmp moved) e else e

/-- The slot takes its next cycle. -/
def valleyTurned (n : Slot) (cmp : Cmp) (moved : Bool) (e : Device) : Device :=
  (valleyCaptured n cmp moved e).updSlot n fun s => { s with
    cmp := cmp, cmpMoved := false, xWas := false, evalOk := false, inCycle := false, yDone := false
    yLate := if (e.slots[n]).yOn then some (yOffEdge e n) else none
    blanked := false, yBlanked := s.yOn && s.yBlanked, lowSeen := false, cur := {}, ofs := s.ofsNext, m := s.mShadow, due := s.due + 2 * s.mShadow
    kth := ((valleyCaptured n cmp moved e).therm[Fin.ofNat 172 n.1]).kthQ }

/-- The energy of the cycle that ends goes to its model. -/
def valleySwitched (n : Slot) (cmp : Cmp) (moved : Bool) (e : Device) : Device :=
  match cycleChan (valleyTurned n cmp moved e) n with
  | some c => if (e.slots[n]).inCycle ∧ (evidence e n cmp moved).cend ≠ 3 then
      switching c n (codeCur (valleyTurned n cmp moved e) n (evidence e n cmp moved).ucode.toNat) (valleyTurned n cmp moved e) else valleyTurned n cmp moved e
  | none => valleyTurned n cmp moved e

theorem phaseValley_eq {n : Slot} {cmp : Cmp} {moved : Bool} {d : Device} (h : (d.slots[n]).running = true) : phaseValley n cmp moved d =
    match memberOf (valleySwitched n cmp moved (valleyReached n d)) n with
    | none => valleySwitched n cmp moved (valleyReached n d)
    | some c =>
      let s := (valleyReached n d).slots[n]
      let x := valleySwitched n cmp moved (valleyReached n d)
      let x := if s.inCycle ∧ s.xWas ∧ s.evalOk ∧ (x.chans[c]).headroom = false then
          x.updSlot n fun s => { s with evRun := if (evidence (valleyReached n d) n cmp moved).copen || (evidence (valleyReached n d) n cmp moved).cflat then s.evRun + 1 else 0 }
        else x
      if 2 ≤ (x.slots[n]).evRun then shed 4 c n x
      else if (x.chans[c]).gate ∧ slotBarred x n = false then beginCycle c n x
      else x := if_pos h

theorem valleyCaptured_slot (n : Slot) (cmp : Cmp) (moved : Bool) (e : Device) : ∃ p o k v w, (valleyCaptured n cmp moved e).slots[n] =
      { e.slots[n] with capPrev := p, overcap := o, overcapCnt := k, shadow := v, new := w } ∧
    ((e.slots[n]).inCycle = true → w = true ∧ o = ((e.slots[n]).overcap || (e.slots[n]).new)) := by
  unfold valleyCaptured
  split
  · exact ⟨_, _, _, _, _, upd_same .., fun _ => ⟨rfl, rfl⟩⟩
  · next h => exact ⟨_, _, _, _, _, rfl, fun hi => absurd hi h⟩

theorem valleyTurned_roles (n : Slot) (cmp : Cmp) (moved : Bool) (e : Device) : SameRoles e (valleyTurned n cmp moved e) := by
  have h : SameRoles e (valleyCaptured n cmp moved e) := if_cases (p := SameRoles e) ((SameRoles.refl e).updSlot n _) (.refl e)
  exact h.updSlot n _

theorem valleyTurned_others (n : Slot) (cmp : Cmp) (moved : Bool) (e : Device) : OtherSlots n e (valleyTurned n cmp moved e) := by
  have h : OtherSlots n e (valleyCaptured n cmp moved e) := .ite (updSlot_others ..) (.of_eq rfl)
  exact h.updSlot _

theorem valleyTurned_clk (n : Slot) (cmp : Cmp) (moved : Bool) (e : Device) : (valleyTurned n cmp moved e).clk = e.clk :=
  (if_cases (p := fun x : Device => x.clk = e.clk) rfl rfl : (valleyCaptured n cmp moved e).clk = e.clk)

theorem valleySwitched_keeps (n : Slot) (cmp : Cmp) (moved : Bool) (e : Device) : Keeps [.therm] (valleyTurned n cmp moved e) (valleySwitched n cmp moved e) := by
  unfold valleySwitched
  split
  · split
    · exact switching_keeps ..
    · exact .refl ..
  · exact .refl ..

theorem valleySwitched_roles (n : Slot) (cmp : Cmp) (moved : Bool) (e : Device) : SameRoles e (valleySwitched n cmp moved e) := by
  have k := valleySwitched_keeps n cmp moved e
  exact (valleyTurned_roles n cmp moved e).trans (.of_eq (k.memory_eq rfl rfl rfl) (k.parts .slots rfl) (k.parts .chans rfl))

/-- The words of a slot that serves no channel, after its valley. -/
theorem phaseValley_alone {n : Slot} {cmp : Cmp} {moved : Bool} {d : Device} (hr : (d.slots[n]).running = true) (hm : memberOf d n = none) :
    phaseValley n cmp moved d = valleySwitched n cmp moved (valleyReached n d) := by
  have h : memberOf (valleySwitched n cmp moved (valleyReached n d)) n = none :=
    (((valleyReached_at n d).roles.trans (valleySwitched_roles ..)).memberOf n).trans hm
  rw [phaseValley_eq hr, h]

/-- What a valley makes of a slot that serves no channel. -/
theorem valleyTurned_slot (n : Slot) (cmp : Cmp) (moved : Bool) (e : Device) : ∃ x : SlotSt, (valleyTurned n cmp moved e).slots[n] = x ∧
    x.m = (e.slots[n]).mShadow ∧ x.due = (e.slots[n]).due + 2 * (e.slots[n]).mShadow ∧ x.xOn = (e.slots[n]).xOn ∧ x.inCycle = false ∧
    x.yOn = (e.slots[n]).yOn ∧ x.yLate = (if (e.slots[n]).yOn then some (yOffEdge e n) else none) ∧ x.yOffAt = (e.slots[n]).yOffAt ∧
    x.ofs = (e.slots[n]).ofsNext ∧ x.evRun = (e.slots[n]).evRun ∧ x.tadpole = (e.slots[n]).tadpole ∧ x.dflt = (e.slots[n]).dflt ∧ x.holders = (e.slots[n]).holders ∧ x.kth = (e.therm[Fin.ofNat 172 n.1]).kthQ ∧
    ((e.slots[n]).inCycle = true → x.new = true ∧ x.overcap = ((e.slots[n]).overcap || (e.slots[n]).new)) := by
  obtain ⟨p, o, k, v, w, hs, hc⟩ := valleyCaptured_slot n cmp moved e
  have ht : (valleyCaptured n cmp moved e).therm = e.therm := if_cases (p := fun x : Device => x.therm = e.therm) rfl rfl
  refine ⟨_, rfl, ?_⟩
  rw [valleyTurned, updSlot_slots, upd_same, hs, ht]
  exact ⟨rfl, rfl, rfl, rfl, rfl, rfl, rfl, rfl, rfl, rfl, rfl, rfl, rfl, hc⟩

/-! ### The cycle that begins (R170, R174, R178) -/

/-- Judgement of the cap, and the limit of the on-time, of a cycle that begins. -/
def cycleJudged (c : Chan) (n : Slot) (x : Device) : Device :=
  let d := x.updSlot n fun s => { s with
    capped := decide (loopPk x c > phaseCap x c n), heldTo := decide (loopPk x c > slotCap x c n), capHit := s.capHit || decide (loopPk x c > slotCap x c n)
    inCycle := true, tonMax := dmax x c * 2 * s.m / 1024 }
  if decide (loopPk x c > phaseCap x c n) then d.updChan c fun s => { s with cappedHit := true } else d

/-- The thresholds of a cycle whose command lies above its lower level. -/
def cycleArmed (c : Chan) (n : Slot) (x : Device) : Device :=
  (cycleJudged c n x).updSlot n fun s => { s with
    evalOk := decide (16 ≤ beyond (cycleJudged c n x) n (codeOf (cycleJudged c n x) n (effPk x c n)) (lowCode (cycleJudged c n x) c n))
    upper := upperBound (cycleJudged c n x) c n (codeOf (cycleJudged c n x) n (effPk x c n) : Qty)
    blanked := false, slopeN := 0 }

theorem cycleArmed_roles (c : Chan) (n : Slot) (x : Device) : SameRoles x (cycleArmed c n x) := by
  have h : SameRoles x (cycleJudged c n x) :=
    if_cases (p := SameRoles x) (((SameRoles.refl x).updSlot n _).updChan c _) ((SameRoles.refl x).updSlot n _)
  exact h.updSlot n _

/-- The words of the slot on which the start of its on-time rests. -/
theorem cycleArmed_slot (c : Chan) (n : Slot) (x : Device) :
    ((cycleArmed c n x).slots[n]).upper = upperBound x c n (codeOf x n (effPk x c n) : Qty) ∧ ((cycleArmed c n x).slots[n]).due = (x.slots[n]).due ∧
    ((cycleArmed c n x).slots[n]).m = (x.slots[n]).m ∧ ((cycleArmed c n x).slots[n]).ofs = (x.slots[n]).ofs ∧
    ((cycleArmed c n x).slots[n]).yOn = (x.slots[n]).yOn ∧ ((cycleArmed c n x).slots[n]).yOffAt = (x.slots[n]).yOffAt ∧
    ((cycleArmed c n x).slots[n]).xOn = (x.slots[n]).xOn ∧ (cycleArmed c n x).start = x.start := by
  have hr : SameRoles x (cycleJudged c n x) :=
    if_cases (p := SameRoles x) (((SameRoles.refl x).updSlot n _).updChan c _) ((SameRoles.refl x).updSlot n _)
  have hs : (cycleJudged c n x).slots = _ := if_cases (p := fun y : Device => y.slots = upd x.slots n fun s => { s with
    capped := decide (loopPk x c > phaseCap x c n), heldTo := decide (loopPk x c > slotCap x c n), capHit := s.capHit || decide (loopPk x c > slotCap x c n)
    inCycle := true, tonMax := dmax x c * 2 * s.m / 1024 }) rfl rfl
  have ht : (cycleJudged c n x).start = x.start := if_cases (p := fun y : Device => y.start = x.start) rfl rfl
  rw [cycleArmed, updSlot_slots, upd_same, hs, upd_same, hr.upperBound, hr.codeOf]
  exact ⟨rfl, rfl, rfl, rfl, rfl, rfl, rfl, ht⟩

/-- A cycle with the complementary output off: its on-time begins at its edge, or waits for the dead time of the last complementary edge. -/
theorem beginCycle_above {c : Chan} {n : Slot} {x : Device} (hz : zcLevel x c < effPk x c n) (hy : (x.slots[n]).yOn = false) : beginCycle c n x =
    if (x.slots[n]).yOffAt + dtX x n ≤ edgeAt x.slots[n] (x.slots[n]).ofs ∨ (x.slots[n]).yOffAt = 0 then
      xRise n (edgeAt x.slots[n] (x.slots[n]).ofs) (cycleArmed c n x)
    else (cycleArmed c n x).updSlot n fun s => { s with
      xWait := true, xAt := max (edgeAt x.slots[n] (x.slots[n]).ofs) ((x.slots[n]).yOffAt + dtX x n) } := by
  have hr := cycleArmed_roles c n x
  obtain ⟨-, h2, h3, h4, h5, h6, -, -⟩ := cycleArmed_slot c n x
  have hj : SameRoles x (cycleJudged c n x) :=
    if_cases (p := SameRoles x) (((SameRoles.refl x).updSlot n _).updChan c _) ((SameRoles.refl x).updSlot n _)
  have hd : beginCycle c n x = if effPk x c n > zcLevel (cycleJudged c n x) c then
      let s := (cycleArmed c n x).slots[n]
      let edge := edgeAt s s.ofs
      let free := (if s.yOn then yOffEdge (cycleArmed c n x) n else s.yOffAt) + dtX (cycleArmed c n x) n
      if s.yOn = false ∧ (free ≤ edge ∨ s.yOffAt = 0) then xRise n edge (cycleArmed c n x)
      else (cycleArmed c n x).updSlot n fun s => { s with xWait := true, xAt := max edge free }
    else (cycleJudged c n x).updSlot n fun s => { s with skipCnt := satInc s.skipCnt } := rfl
  have he : edgeAt (cycleArmed c n x).slots[n] ((cycleArmed c n x).slots[n]).ofs = edgeAt x.slots[n] (x.slots[n]).ofs := by
    rw [edgeAt, h2, h3, h4, edgeAt]
  rw [hd, hj.zcLevel, if_pos hz]
  dsimp only
  rw [he, h5, hy, h6, hr.dtX, if_neg Bool.false_ne_true]
  simp only [true_and]

theorem xRise_slot (n : Slot) (edge : Nat) (d : Device) : (xRise n edge d).slots[n] = { d.slots[n] with
    xOn := true, xWas := true, xWait := false, xAt := edge, pinA := !slotBoost d n, pinB := slotBoost d n } := by
  rw [xRise, setX_slot, updSlot_slots, upd_same, ((SameRoles.refl d).updSlot n _).slotBoost]
  simp only [Bool.and_true]

theorem xRise_pins {n : Slot} {edge : Nat} {d : Device} (hr : d.start.st = .run) :
    (drive (xRise n edge d)).pins.pwma[n] = !slotBoost d n ∧ (drive (xRise n edge d)).pins.pwmb[n] = slotBoost d n := by
  have hs := xRise_slot n edge d
  obtain ⟨h1, h2⟩ := drivenPins (n := n) (d := xRise n edge d) (a := !slotBoost d n) hr (by rw [hs]) (by rw [hs, Bool.not_not])
  exact ⟨h1, h2.trans (Bool.not_not _)⟩

/-- What effPk reads. -/
theorem effPk_congr {d e : Device} {c : Chan} {n : Slot} (hm : e.memory = d.memory) (hc : e.chans = d.chans) (hq : e.quads = d.quads)
    (ht : (e.slots[n]).tadpole = (d.slots[n]).tadpole) (hk : (e.slots[n]).kth = (d.slots[n]).kth) : effPk e c n = effPk d c n := by
  simp only [effPk, loopPk, slotCap, phaseCap, foldCapIn, halvedIn, rampH, phCap, Device.cf, hm, hc, hq, ht, hk]
  rfl

/-- A member whose cycle was not open comes to the next one as its carrier leaves it. -/
structure MemberTurned (c : Chan) (n : Slot) (d x : Device) : Prop where
  roles : SameRoles d x
  start : x.start = d.start
  pk : effPk x c n = effPk d c n
  edge : edgeAt x.slots[n] (x.slots[n]).ofs = 16 * (d.slots[n]).due + (d.slots[n]).ofsNext
  yOn : (x.slots[n]).yOn = false
  xOn : (x.slots[n]).xOn = false
  yOffAt : (x.slots[n]).yOffAt = (d.slots[n]).yOffAt

/-- The valley of a member of a channel with an open gate, whose cycle was not open. -/
theorem phaseValley_member {c : Chan} {n : Slot} {cmp : Cmp} {moved : Bool} {d : Device} (hr : (d.slots[n]).running = true) (hm : memberOf d n = some c)
    (hi : (d.slots[n]).inCycle = false) (hev : (d.slots[n]).evRun = 0) (hg : (d.chans[c]).gate = true) (hb : slotBarred d n = false)
    (hk : (d.slots[n]).kth = (d.therm[Fin.ofNat 172 n.1]).kthQ) (hy : (d.slots[n]).yOn = false) :
    ∃ x, phaseValley n cmp moved d = beginCycle c n x ∧ MemberTurned c n d x := by
  have ha := valleyReached_at n d
  obtain ⟨x, hx, hxm, hdue, hon, -, hyon, -, hyoff, hofs, hevr, htad, hdf, hho, hkth, -⟩ := valleyTurned_slot n cmp moved (valleyReached n d)
  have hin : ((valleyReached n d).slots[n]).inCycle = false := ha.carrier.inCycle.trans hi
  have hsw : valleySwitched n cmp moved (valleyReached n d) = valleyTurned n cmp moved (valleyReached n d) := by
    unfold valleySwitched
    split
    · exact if_neg fun h => Bool.false_ne_true (hin.symm.trans h.1)
    · rfl
  obtain ⟨v, hv⟩ : ∃ v, v = valleyTurned n cmp moved (valleyReached n d) := ⟨_, rfl⟩
  rw [← hv] at hx hsw
  subst hx
  have hroles : SameRoles d v := hv ▸ ha.roles.trans (valleyTurned_roles n cmp moved _)
  have hcap : valleyCaptured n cmp moved (valleyReached n d) = valleyReached n d := if_neg (by rw [hin]; decide)
  have hchans : v.chans = d.chans := by rw [hv, valleyTurned, hcap]; exact ha.keeps.parts .chans rfl
  have hquads : v.quads = d.quads := by rw [hv, valleyTurned, hcap]; exact ha.keeps.parts .quads rfl
  have hstart : v.start = d.start := by rw [hv, valleyTurned, hcap]; exact ha.keeps.start_eq rfl rfl rfl
  have htherm : (valleyReached n d).therm = d.therm := ha.keeps.parts .therm rfl
  have hev0 : (v.slots[n]).evRun = 0 := hevr.trans (ha.carrier.evRun.trans hev)
  have hbar : slotBarred v n = false := by
    rw [slotBarred, hdf, hho, ha.carrier.dflt, ha.carrier.holders]
    exact hb
  have hrun : (if ((valleyReached n d).slots[n]).inCycle ∧ ((valleyReached n d).slots[n]).xWas ∧ ((valleyReached n d).slots[n]).evalOk ∧ (v.chans[c]).headroom = false then
      v.updSlot n fun s => { s with evRun := if (evidence (valleyReached n d) n cmp moved).copen || (evidence (valleyReached n d) n cmp moved).cflat then s.evRun + 1 else 0 }
    else v) = v := if_neg fun ⟨h, _⟩ => Bool.false_ne_true (hin.symm.trans h)
  refine ⟨v, ?_, hroles, hstart, effPk_congr hroles.memory hchans hquads (htad.trans ha.carrier.tadpole) ?_, ?_, ?_, ?_, ?_⟩
  · rw [phaseValley_eq hr, hsw, hroles.memberOf, hm]
    dsimp only
    rw [hrun, hev0, if_neg (by decide), hchans, if_pos ⟨hg, hbar⟩]
  · rw [hkth, htherm, hk]
  · rw [edgeAt, hofs, hdue, hxm, ha.carrier.due, ha.carrier.ofsNext, ha.carrier.mShadow]
    omega
  · exact hyon.trans (ha.gone (.inl hy))
  · exact hon.trans ha.xOn
  · exact hyoff.trans (ha.yOffAt hy)

/-! ### An on-time that waited (R170) -/

/-- The wait for the dead time ends: the active output rises. -/
theorem xLate_rises {n : Slot} {d : Device} (hw : (d.slots[n]).xWait = true) (hy : (d.slots[n]).yOn = false) : deadTimeEnd n d =
    xRise n (max (max (d.slots[n]).xAt ((d.slots[n]).yOffAt + dtX d n)) (16 * d.clk.up)) (waitUp (max (d.slots[n]).xAt ((d.slots[n]).yOffAt + dtX d n) / 16) d) := by
  have h1 : deadTimeEnd n d = xLate n d := if_pos hw
  have h2 : (if (d.slots[n]).yOn then yOffDue n d else d) = d := if_neg (by rw [hy]; decide)
  rw [h1, xLate, h2]
  rw [show ∀ x : Device, x.up = x.clk.up from fun _ => rfl, waitUp_up, edge_after]

/-! ### Masters and quadrant timers (R165, R179, R180) -/

theorem masterValley_running {c : Chan} {d : Device} (hr : (d.chans[c]).running = true) (ha : (d.chans[c]).resetAt = none) :
    (masterValley c d).clk.up = max d.clk.up (d.chans[c]).due ∧ ((masterValley c d).chans[c]).m = (d.chans[c]).mShadow ∧
    ((masterValley c d).chans[c]).due = (d.chans[c]).due + 2 * (d.chans[c]).mShadow ∧ ((masterValley c d).chans[c]).running = true ∧
    ((masterValley c d).chans[c]).waiting = false ∧ ∀ k : Chan, k ≠ c → (masterValley c d).chans[k] = d.chans[k] := by
  obtain ⟨x, hx⟩ : ∃ x : Device, x = (waitUp (d.chans[c]).due d).updChan c fun s => { s with
      running := true, waiting := false, m := s.mShadow, due := (d.chans[c]).due + 2 * s.mShadow, chlimHit := false
      resetAt := match s.resetAt with | some r => if r ≤ (d.chans[c]).due then none else some r | none => none } := ⟨_, rfl⟩
  obtain ⟨y, hy⟩ : ∃ y, y = forEach (members x c) (fun n d => d.updSlot n fun s => { s with cycCnt := s.cycCnt + 1 }) x := ⟨_, rfl⟩
  have hd : masterValley c d = resetMembers c (d.chans[c]).due (y.chans[c]).m y := by
    rw [hy, hx]
    unfold masterValley
    dsimp only
    rw [if_pos (.inl hr), ha] <;> rfl
  have hyk : y.clk = x.clk ∧ y.chans = x.chans := by
    rw [hy]
    refine forEach_induct (fun e => e.clk = x.clk ∧ e.chans = x.chans) _ _ ?_ x ⟨rfl, rfl⟩
    exact fun _ _ h => h
  have k := resetMembers_keeps c (d.chans[c]).due (y.chans[c]).m y
  have hcl : (masterValley c d).clk = x.clk := by rw [hd, k.clk_eq, hyk.1]
  have hch : (masterValley c d).chans = x.chans := by rw [hd]; exact (k.parts .chans rfl : _ = _).trans hyk.2
  have hu : x.clk.up = max d.clk.up (d.chans[c]).due := by rw [hx]; exact waitUp_up ..
  rw [hcl, hch, hu, hx, updChan_chans, upd_same]
  exact ⟨rfl, rfl, rfl, rfl, rfl, fun k hk => upd_other _ _ _ _ hk⟩

theorem quadValley_running {q : Quad} {d : Device} (hr : (d.quads[q]).running = true) :
    (quadValley q d).clk.up = max d.clk.up (d.quads[q]).due ∧ ((quadValley q d).quads[q]).due = (d.quads[q]).due + 2 * qtReload d q ∧
    ((quadValley q d).quads[q]).running = true ∧ (quadValley q d).slots = d.slots := by
  obtain ⟨x, hx⟩ : ∃ x : Device, x = (waitUp (d.quads[q]).due d).updQuad q fun s => { s with due := (d.quads[q]).due + 2 * qtReload d q } := ⟨_, rfl⟩
  have hd : quadValley q d = forEach ((quadChans q).filter fun c => cmSync x c && (x.chans[c]).running)
      (fun c e => e.updChan c fun s => { s with resetAt := some ((d.quads[q]).due + cmStart e c / 16 % (2 * qtReload d q)) }) x := by
    rw [hx]
    exact if_pos hr
  obtain ⟨h1, h2, h3⟩ : (quadValley q d).clk = x.clk ∧ (quadValley q d).quads = x.quads ∧ (quadValley q d).slots = x.slots := by
    rw [hd]
    refine forEach_induct (fun e => e.clk = x.clk ∧ e.quads = x.quads ∧ e.slots = x.slots) _ _ ?_ x ⟨rfl, rfl, rfl⟩
    exact fun _ _ h => h
  have hu : x.clk.up = max d.clk.up (d.quads[q]).due := by rw [hx]; exact waitUp_up ..
  rw [h1, h2, h3, hu, hx, updQuad_quads, upd_same]
  exact ⟨rfl, rfl, hr, rfl⟩

/-! ### The obligation -/

/-- The clause on a slot that serves no channel. -/
theorem phaseValley_idle {n : Slot} {cmp : Cmp} {moved : Bool} {d : Device} (hr : (d.slots[n]).running = true) (hm : memberOf d n = none) :
    (phaseValley n cmp moved d).clk.up = max d.clk.up (d.slots[n]).due ∧ OtherSlots n d (phaseValley n cmp moved d) ∧
    ∃ x : SlotSt, (phaseValley n cmp moved d).slots[n] = x ∧ x.m = (d.slots[n]).mShadow ∧ x.due = (d.slots[n]).due + 2 * (d.slots[n]).mShadow ∧
      x.xOn = false ∧ x.inCycle = false ∧ ((d.slots[n]).yOn = false ∨ yOffEdge d n < 16 * (d.slots[n]).due → x.yOn = false) ∧
      ((d.slots[n]).yOn = true → 16 * (d.slots[n]).due ≤ yOffEdge d n → x.yOn = true ∧ x.yLate = some (yOffEdge d n)) ∧
      ((d.slots[n]).inCycle = true → x.new = true ∧ x.overcap = ((d.slots[n]).overcap || (d.slots[n]).new)) := by
  have ha := valleyReached_at n d
  obtain ⟨x, hx, hxm, hdue, hon, hic, hyon, hylate, -, -, -, -, -, -, -, hnew⟩ := valleyTurned_slot n cmp moved (valleyReached n d)
  have k := valleySwitched_keeps n cmp moved (valleyReached n d)
  have hs : (valleySwitched n cmp moved (valleyReached n d)).slots = (valleyTurned n cmp moved (valleyReached n d)).slots := k.parts .slots rfl
  have hc : (valleySwitched n cmp moved (valleyReached n d)).clk = (valleyTurned n cmp moved (valleyReached n d)).clk := k.clk_eq
  rw [phaseValley_alone hr hm]
  refine ⟨by rw [hc, valleyTurned_clk, ha.up], (ha.others.trans (valleyTurned_others n cmp moved _)).trans (.of_eq hs), x, by rw [hs, hx], ?_, ?_, ?_, hic, ?_, ?_, ?_⟩
  · rw [hxm, ha.carrier.mShadow]
  · rw [hdue, ha.carrier.due, ha.carrier.mShadow]
  · rw [hon, ha.xOn]
  · exact fun h => hyon.trans (ha.gone h)
  · intro h1 h2
    obtain ⟨h3, h4⟩ := ha.stays h1 h2
    exact ⟨hyon.trans h3, by rw [hylate, if_pos h3, h4]⟩
  · intro hi
    rw [← ha.carrier.overcap, ← ha.carrier.new]
    exact hnew (ha.carrier.inCycle.trans hi)

/-- Settles O24: the valley of a lone slot, of a master and of a quadrant timer; of a member whose on-time begins or waits; and the end of that wait. -/
theorem carrierValleys : Obligations.CarrierValleys := by
  unfold Obligations.CarrierValleys
  refine ⟨fun n cmp moved s hc hr hm => ?_, fun c cmp moved s hc hr ha => ?_, fun q cmp moved s hc hr => ?_,
    fun n c cmp moved s hc hr hm hi hev hg hb hst hk hz hy hf => ?_, fun n c cmp moved s hc hr hm hi hev hg hb hk hz hy h0 hf => ?_, fun n s hc hw hy hst => ?_⟩
  · obtain ⟨t, ht, hd⟩ := done_next (carrierValley (.phase n) cmp moved) s
    obtain ⟨hu, ho, x, hx, h1, h2, h3, h4, h5, h6, h7⟩ := phaseValley_idle (cmp := cmp) (moved := moved) hr hm
    refine ⟨t, (execCarrierValley_calm _ cmp moved s hc).trans ht, ?_⟩
    rw [hd, drive_clk, drive_slots, show carrierValley (.phase n) cmp moved s.dev = phaseValley n cmp moved s.dev from rfl, hx]
    exact ⟨hu, h1, h2, h3, h4, h5, h6, h7, ho.same⟩
  · obtain ⟨t, ht, hd⟩ := done_next (carrierValley (.master c) cmp moved) s
    refine ⟨t, (execCarrierValley_calm _ cmp moved s hc).trans ht, ?_⟩
    rw [hd, drive_clk, drive_chans]
    exact masterValley_running hr ha
  · obtain ⟨t, ht, hd⟩ := done_next (carrierValley (.quad q) cmp moved) s
    refine ⟨t, (execCarrierValley_calm _ cmp moved s hc).trans ht, ?_⟩
    rw [hd, drive_clk, drive_quads, drive_slots]
    exact quadValley_running hr
  · obtain ⟨t, ht, hd⟩ := done_next (carrierValley (.phase n) cmp moved) s
    obtain ⟨x, hx, h⟩ := phaseValley_member (cmp := cmp) (moved := moved) hr hm hi hev hg hb hk hy
    have hroles := cycleArmed_roles c n x
    obtain ⟨hup, -, -, -, -, -, -, hstart⟩ := cycleArmed_slot c n x
    have hbegin := beginCycle_above (c := c) (by rw [h.roles.zcLevel, h.pk]; exact hz) h.yOn
    rw [if_pos (by rw [h.yOffAt, h.roles.dtX, h.edge]; exact hf.symm), h.edge, ← hx] at hbegin
    have hs := xRise_slot n (16 * (s.dev.slots[n]).due + (s.dev.slots[n]).ofsNext) (cycleArmed c n x)
    have hp := xRise_pins (n := n) (edge := 16 * (s.dev.slots[n]).due + (s.dev.slots[n]).ofsNext) (d := cycleArmed c n x) (by rw [hstart, h.start]; exact hst)
    rw [hroles.slotBoost, h.roles.slotBoost] at hp
    refine ⟨t, (execCarrierValley_calm _ cmp moved s hc).trans ht, ?_⟩
    rw [hd, drive_slots, show carrierValley (.phase n) cmp moved s.dev = phaseValley n cmp moved s.dev from rfl, hbegin, hs]
    refine ⟨rfl, rfl, ?_, hp⟩
    rw [← h.roles.upperBound, ← h.roles.codeOf, ← h.pk]
    exact hup
  · obtain ⟨t, ht, hd⟩ := done_next (carrierValley (.phase n) cmp moved) s
    obtain ⟨x, hx, h⟩ := phaseValley_member (cmp := cmp) (moved := moved) hr hm hi hev hg hb hk hy
    obtain ⟨-, -, -, -, -, -, hon, -⟩ := cycleArmed_slot c n x
    have hbegin := beginCycle_above (c := c) (by rw [h.roles.zcLevel, h.pk]; exact hz) h.yOn
    rw [h.yOffAt, h.roles.dtX, h.edge, if_neg (by omega), ← hx] at hbegin
    refine ⟨t, (execCarrierValley_calm _ cmp moved s hc).trans ht, ?_⟩
    rw [hd, drive_slots, show carrierValley (.phase n) cmp moved s.dev = phaseValley n cmp moved s.dev from rfl, hbegin, updSlot_slots, upd_same]
    exact ⟨hon.trans h.xOn, rfl, Nat.max_eq_right (by omega)⟩
  · obtain ⟨t, ht, hd⟩ := done_next (deadTimeEnd n) s
    have hs := xRise_slot n (max (max (s.dev.slots[n]).xAt ((s.dev.slots[n]).yOffAt + dtX s.dev n)) (16 * s.dev.clk.up))
      (waitUp (max (s.dev.slots[n]).xAt ((s.dev.slots[n]).yOffAt + dtX s.dev n) / 16) s.dev)
    have hp := xRise_pins (n := n) (edge := max (max (s.dev.slots[n]).xAt ((s.dev.slots[n]).yOffAt + dtX s.dev n)) (16 * s.dev.clk.up))
      (d := waitUp (max (s.dev.slots[n]).xAt ((s.dev.slots[n]).yOffAt + dtX s.dev n) / 16) s.dev) hst
    rw [((SameRoles.refl s.dev).waitUp _).slotBoost] at hp
    refine ⟨t, (execDeadTimeEnd_calm n s hc).trans ht, ?_⟩
    rw [hd, drive_slots, drive_clk, xLate_rises hw hy, hs]
    exact ⟨rfl, rfl, Nat.le_trans (Nat.le_max_right ..) (Nat.le_max_left ..), waitUp_up .., hp⟩

end Sys2Proof.Machine

/-! ## The timers of a channel and of its charge phases (06, 07) -/

namespace Sys2Proof.Machine

/-! ### The clock after a wait and a write (stated for any instant) -/

theorem waitUp_updChan_up (n : Nat) (c : Chan) (f : ChanSt → ChanSt) (d : Device) : ((waitUp n d).updChan c f).clk.up = max d.clk.up n := by
  rw [updChan_clk, waitUp_up]

theorem waitUp_updProf_up (n : Nat) (c : Chan) (f : ProfSt → ProfSt) (d : Device) : ((waitUp n d).updProf c f).clk.up = max d.clk.up n := by
  rw [updProf_clk, waitUp_up]

theorem pass_updProf_up (n : Nat) (c : Chan) (f : ProfSt → ProfSt) (d : Device) : ((pass n d).updProf c f).clk.up = d.clk.up + n := by
  rw [updProf_clk, pass_up]

theorem raise_count_passed {x : Nat} {sc : Scope} {d : Device} {c : Chan} (n : Nat) (f : ProfSt → ProfSt) (hs : scopeOf x = some sc) (hc : colRuns d = true) :
    ((raise x ((pass n d).updProf c f)).faults[Fin.ofNat 2048 x]).count = raisedCount d x := raise_count hs hc

/-! ### What a channel's moves leave of its profile -/

/-- A profile without what the gate, the request and the wait for a slot write. -/
def sansGate (p : ProfSt) : ProfSt := { p with carried := false, zeroAt := none, waitSlot := false, slot := none, joinEnd := none, req1 := 0 }

/-- No profile changes but for those words. -/
structure KeepsProfs (d e : Device) : Prop where
  same : ∀ k : Chan, sansGate e.profs[k] = sansGate d.profs[k]

theorem KeepsProfs.of_eq {d e : Device} (h : e.profs = d.profs) : KeepsProfs d e := ⟨fun _ => by rw [h]⟩

theorem KeepsProfs.trans {d e g : Device} (h : KeepsProfs d e) (k : KeepsProfs e g) : KeepsProfs d g := ⟨fun c => (k.same c).trans (h.same c)⟩

theorem KeepsProfs.field {β : Type} {d e : Device} (h : KeepsProfs d e) (c : Chan) (g : ProfSt → β) (hg : ∀ p, g (sansGate p) = g p := by intro; rfl) :
    g e.profs[c] = g d.profs[c] := by
  rw [← hg, h.same c, hg]

theorem regate_profs (c : Chan) (d : Device) : KeepsProfs d (regate c d) := by
  have h : KeepsProfs d (((d.updChan c fun s => { s with gate := gateWanted d c, chBelow := false }).updPath c fun p =>
      { p with instCode := !gateWanted d c }).updProf c fun p => { p with carried := true, zeroAt := if gateWanted d c then none else some d.up }) :=
    ⟨upd_field d.profs c (fun p => { p with carried := true, zeroAt := if gateWanted d c then none else some d.up }) sansGate fun _ => rfl⟩
  have ho (l : List Slot) (e : Device) : (forEach l slotGateOff e).profs = e.profs := (Keeps.forEach slotGateOff_keeps (.refl [.slots] e)).parts .profs rfl
  exact if_cases (p := KeepsProfs d) (.of_eq rfl) (if_cases (p := KeepsProfs d) h (h.trans (.of_eq (ho ..))))

theorem applyReq_profs (c : Chan) (d : Device) : KeepsProfs d (applyReq c d) :=
  ⟨upd_field d.profs c (fun p => { p with req1 := reqAt1 d c }) sansGate fun _ => rfl⟩

theorem joinPulsed_profs (c : Chan) (d : Device) : KeepsProfs d (joinPulsed c d) := by
  have h : KeepsProfs d ((d.updProf c fun p => { p with waitSlot := true, slot := none, joinEnd := none }).updChan c fun s =>
      { s with hp := 0, hpDownAt := none, hpUpAt := none }) :=
    ⟨upd_field d.profs c (fun p => { p with waitSlot := true, slot := none, joinEnd := none }) sansGate fun _ => rfl⟩
  exact h.trans (regate_profs ..)

theorem leavePulsed_profs (c : Chan) (d : Device) : KeepsProfs d (leavePulsed c d) := by
  have h : KeepsProfs d ((d.updProf c fun p => { p with waitSlot := false, joinEnd := none }).updChan c fun s =>
      { s with hp := 1, hpDownAt := none, hpUpAt := none }) :=
    ⟨upd_field d.profs c (fun p => { p with waitSlot := false, joinEnd := none }) sansGate fun _ => rfl⟩
  exact if_cases (p := KeepsProfs d) (h.trans (regate_profs ..)) (.of_eq rfl)

/-- A move of the charge phase as its row of R257 writes it, before the request and the pulses follow. -/
def phaseMoved (c : Chan) (ph : Phase) (cause : Nat) (v : Qty) (d : Device) : Device :=
  (setPhase c ph cause (toMv v) d).updProf c fun p => { p with
    doneRun := if ph = .finish then 0 else p.doneRun, keepAt := if ph = .keep then some d.up else none, keepDue := false }

/-- The request follows the phase, but not within a rest. -/
def requestFollows (c : Chan) (d : Device) : Device := if (d.profs[c]).inRest then d else applyReq c d

/-- The pulses follow the phase. -/
def pulsesFollow (c : Chan) (was : Bool) (d : Device) : Device := if isPulsed d c then (if was then d else joinPulsed c d) else leavePulsed c d

theorem movePhase_eq (c : Chan) (ph : Phase) (cause : Nat) (v : Qty) (d : Device) :
    movePhase c ph cause v d = pulsesFollow c (isPulsed d c) (requestFollows c (phaseMoved c ph cause v d)) := rfl

theorem requestFollows_profs (c : Chan) (d : Device) : KeepsProfs d (requestFollows c d) :=
  if_cases (p := KeepsProfs d) (.of_eq rfl) (applyReq_profs c d)

theorem pulsesFollow_profs (c : Chan) (was : Bool) (d : Device) : KeepsProfs d (pulsesFollow c was d) :=
  if_cases (p := KeepsProfs d) (if_cases (p := KeepsProfs d) (.of_eq rfl) (joinPulsed_profs c d)) (leavePulsed_profs c d)

/-- The profile of the channel that moves, and what the move leaves of it. -/
theorem phaseMoved_prof (c : Chan) (ph : Phase) (cause : Nat) (v : Qty) (d : Device) : ∃ (a b r : Nat) (m : Bool) (k : Byte) (z : Option Nat),
    (phaseMoved c ph cause v d).profs[c] =
      { d.profs[c] with phase := ph, phaseAt := a, phaseRun := r, phaseTick := b, timedOut := m, doneRun := k, keepAt := z, keepDue := false } := by
  unfold phaseMoved
  by_cases h : (d.profs[c]).phase = ph
  · have hs : setPhase c ph cause (toMv v) d = d := if_pos h
    rw [hs, updProf_profs, upd_same]
    exact ⟨_, _, _, _, _, _, by rw [← h]⟩
  · have hs : ∃ bs, setPhase c ph cause (toMv v) d =
        chanRecord c bs (d.updProf c fun p => { p with phase := ph, phaseAt := d.up, phaseRun := 0, phaseTick := d.up, timedOut := false }) := ⟨_, if_neg h⟩
    obtain ⟨bs, hs⟩ := hs
    rw [hs, updProf_profs, (chanRecord_keeps ..).parts .profs rfl, upd_same, updProf_profs, upd_same]
    exact ⟨_, _, _, _, _, _, rfl⟩

/-- After a move the phase is the one moved to; what the move does not write is as before. -/
theorem movePhase_prof {β : Type} (c : Chan) (ph : Phase) (cause : Nat) (v : Qty) (d : Device) (g : ProfSt → β) (hg : ∀ p, g (sansGate p) = g p := by intro; rfl)
    (hm : ∀ (p : ProfSt) a b r m k z, g { p with phase := ph, phaseAt := a, phaseRun := r, phaseTick := b, timedOut := m, doneRun := k, keepAt := z, keepDue := false } =
      g { p with phase := ph } := by intros; rfl) :
    g (movePhase c ph cause v d).profs[c] = g { d.profs[c] with phase := ph } := by
  obtain ⟨a, b, r, m, k, z, hp⟩ := phaseMoved_prof c ph cause v d
  rw [movePhase_eq, (pulsesFollow_profs ..).field c g hg, (requestFollows_profs ..).field c g hg, hp, hm]

theorem pulsesFollow_otherChans (c : Chan) (was : Bool) (d : Device) : OtherChans c d (pulsesFollow c was d) := by
  have h (f : ProfSt → ProfSt) (g : ChanSt → ChanSt) : OtherChans c d (regate c ((d.updProf c f).updChan c g)) :=
    (((OtherChans.refl c d).updProf f).updChan g).trans (regate_otherChans ..)
  exact .ite (.ite (.refl c d) (h ..)) (.ite (h ..) (.refl c d))

theorem movePhase_otherChans (c : Chan) (ph : Phase) (cause : Nat) (v : Qty) (d : Device) : OtherChans c d (movePhase c ph cause v d) := by
  have h1 : OtherChans c d (setPhase c ph cause (toMv v) d) := .ite (.refl c d) (((OtherChans.refl c d).updProf _).trans (.of_keeps (chanRecord_keeps ..)))
  have h2 : OtherChans c d (phaseMoved c ph cause v d) := h1.updProf _
  have h3 (x : Device) : OtherChans c x (requestFollows c x) := .ite (.refl c x) ((OtherChans.refl c x).updProf _)
  rw [movePhase_eq]
  exact (h2.trans (h3 _)).trans (pulsesFollow_otherChans ..)

/-! ### The budget's arrival (R20, R221) -/

theorem splitMsg_none {p : Msg → Bool} {l : List Msg} (h : ∀ m ∈ l, p m = false) : splitMsg p l = none := by
  induction l with
  | nil => rfl
  | cons m ms ih =>
    rw [splitMsg, h m (List.mem_cons_self ..), if_neg Bool.false_ne_true, ih fun x hx => h x (List.mem_cons_of_mem _ hx)]
    rfl

theorem setFifo_fifo (x : Crossing) (l : List Msg) (d : Device) : (setFifo x l d).isl.fifo[xIndex x] = l := upd_same ..

theorem budgetArrival_first {c : Chan} {b : Qty} {rest : List Msg} {d : Device} (h : d.isl.fifo[xIndex (.toQd (Chan.quad c))] = .budget c b :: rest) :
    budgetArrival c d = (setFifo (.toQd (Chan.quad c)) rest d).updChan c fun s => { s with bud := b } := by
  have hs : splitMsg (isBudget c) (fifoOf d (.toQd (Chan.quad c))) = some ([.budget c b], rest) := by
    rw [fifoOf, h, splitMsg, isBudget, decide_eq_true rfl, if_pos rfl]
  rw [budgetArrival, arrive, hs]
  rfl

theorem budgetArrival_second {c : Chan} {g b : Qty} {rest : List Msg} {d : Device}
    (h : d.isl.fifo[xIndex (.toQd (Chan.quad c))] = .gain g :: .budget c b :: rest) :
    budgetArrival c d = ((setFifo (.toQd (Chan.quad c)) rest d).updQuad (Chan.quad c) fun s => { s with gain := g }).updChan c fun s => { s with bud := b } := by
  have hs : splitMsg (isBudget c) (fifoOf d (.toQd (Chan.quad c))) = some ([.gain g, .budget c b], rest) := by
    have hg : isBudget c (.gain g) = false := rfl
    have hb : isBudget c (.budget c b) = true := decide_eq_true rfl
    rw [fifoOf, h, splitMsg, hg, if_neg Bool.false_ne_true, splitMsg, hb, if_pos rfl]
    rfl
  rw [budgetArrival, arrive, hs]
  rfl

theorem budgetArrival_none {c : Chan} {d : Device} (h : ∀ m ∈ d.isl.fifo[xIndex (.toQd (Chan.quad c))], isBudget c m = false) : budgetArrival c d = d := by
  have hs : splitMsg (isBudget c) (fifoOf d (.toQd (Chan.quad c))) = none := splitMsg_none h
  rw [budgetArrival, arrive, hs]

/-! ### Soft start (R228) -/

theorem softStart_runs {c : Chan} {d : Device} (hs : (d.chans[c]).st = .start) (hg : (d.chans[c]).gate = true) (hr : (d.chans[c]).ssRaised = false)
    (hh : d.halt.phase = .idle) : ssRuns d c = true := by
  rw [ssRuns, hs, hg, hr, haltFreeze, hh]
  rfl

/-- The soft-start judgement at its instant. -/
def softStartJudged (c : Chan) (t : Nat) (d : Device) : Device :=
  (waitUp t d).updChan c fun s => { s with ssRaised := true, ssTime := max s.ssTime (ssTmo (waitUp t d) c) }

theorem softStartTimeout_eq {c : Chan} {t : Nat} {d : Device} (h : ssRuns d c = true) :
    softStartTimeout c t d = if (d.chans[c]).ssOver then softStartJudged c t d else raise (0x300 + c.1) (softStartJudged c t d) := if_pos h

theorem softStartScope (c : Chan) : ∃ sc, scopeOf (0x300 + c.1) = some sc := by
  have h : ∀ c : Chan, (scopeOf (0x300 + c.1)).isSome = true := by decide
  exact Option.isSome_iff_exists.1 (h c)

theorem softStartJudged_count {x : Nat} {sc : Scope} {d : Device} (c : Chan) (t : Nat) (hs : scopeOf x = some sc) (hc : colRuns d = true) :
    ((raise x (softStartJudged c t d)).faults[Fin.ofNat 2048 x]).count = raisedCount d x := raise_count hs hc

theorem softStartJudged_up (c : Chan) (d : Device) : (softStartJudged c (ssDue c d) d).clk.up = d.clk.up + (ssTmo d c - (d.chans[c]).ssTime) := by
  have hu : d.up = d.clk.up := rfl
  rw [softStartJudged, waitUp_updChan_up, ssDue, hu, Nat.max_eq_right (Nat.le_add_right ..)]

/-! ### Ramp factors (R76, R156, R229) -/

theorem rampUpdate_h {c : Chan} {v : Qty} {x : Device} (hv : min (haltFactor x) (svcFactor x) = v) (hu : (x.chans[c]).hUpAt = none) :
    ((rampUpdate c x).chans[c]).h = v ∧ ((rampUpdate c x).chans[c]).hUpAt = none := by
  unfold rampUpdate
  dsimp only
  rw [updChan_chans, upd_same, hu]
  exact ⟨hv, rfl⟩

theorem rampUpdate_other {c k : Chan} (h : k ≠ c) (x : Device) : (rampUpdate c x).chans[k] = x.chans[k] := upd_other _ _ _ _ h

/-- The common factor of the halt and of the service ramp where both stand still. -/
theorem rampUpdates_h {v : Qty} {w : Device} (hv : ∀ x : Device, x.halt = w.halt → x.button = w.button → min (haltFactor x) (svcFactor x) = v) {c : Chan}
    (hc : (w.chans[c]).hUpAt = none) : ((forEach allChans rampUpdate w).chans[c]).h = v :=
  forEach_within (I := fun x => (x.halt = w.halt ∧ x.button = w.button) ∧ (x.chans[c]).hUpAt = none) (P := fun k x => k = c → (x.chans[c]).h = v)
    (fun k x ⟨hx, hn⟩ => ⟨hx, by
      by_cases hk : c = k
      · exact hk ▸ (rampUpdate_h (hv x hx.1 hx.2) hn).2
      · rw [rampUpdate_other hk]; exact hn⟩)
    (fun k x ⟨hx, hn⟩ hk => by rw [hk]; exact (rampUpdate_h (hv x hx.1 hx.2) hn).1)
    (fun _ k x ⟨hx, hn⟩ h hkc => by
      by_cases hk : c = k
      · exact hk ▸ (rampUpdate_h (hv x hx.1 hx.2) hn).1
      · rw [rampUpdate_other hk]; exact h hkc)
    (List.mem_finRange c) w ⟨⟨rfl, rfl⟩, hc⟩ rfl

theorem rampUpdates_words (w : Device) : (forEach allChans rampUpdate w).halt = w.halt ∧ (forEach allChans rampUpdate w).clk = w.clk := by
  refine forEach_induct (fun x => x.halt = w.halt ∧ x.clk = w.clk) _ _ ?_ w ⟨rfl, rfl⟩
  exact fun _ _ h => h

theorem rampFactorUpdate_eq {d : Device} (h : d.halt.phase ≠ .rampUp) : rampFactorUpdate d = forEach allChans rampUpdate (nextMultiple 0 (10 * us) d) := by
  have hh : (forEach allChans rampUpdate (nextMultiple 0 (10 * us) d)).halt.phase = d.halt.phase := by
    rw [(rampUpdates_words _).1]
    exact congrArg Halts.phase ((nextMultiple_keeps ..).parts .halt rfl)
  exact if_neg fun hr => h (hh.symm.trans hr.1)

/-! ### Cuts (R238) -/

theorem cutEnd_due {c : Chan} {u : Nat} {d : Device} (ho : (d.chans[c]).cutOpen = true) (hz : (d.chans[c]).cutZeroAt = some u) :
    ∃ a b, cutEnd c d = quadEvent (Chan.quad c) 0x0402 a b 0 ((waitUp (u + sec) d).updChan c fun s => { s with cutOpen := false, cutZeroAt := none, cutMax := 0 }) := by
  unfold cutEnd
  dsimp only
  rw [ho, hz]
  exact ⟨_, _, rfl⟩

/-- An event of a quadrant: a record where nothing waits, else the newest message on its way. -/
theorem quadEvent_waits {q : Quad} {code w0 w1 w2 : Nat} {d : Device} (h : hkWaits d q = true) :
    quadEvent q code w0 w1 w2 d = send (.toHk q) (.event code (logBytes 0x8 0 code w0 w1 w2 d)) d := toHouse_waits q _ _ d h

/-! ### The re-arm check (R232, R233) -/

theorem launchAll_channel_fifo (c : Chan) (t : Nat) (d : Device) : (launchAll (.carrierReset (.channel c)) t d).isl.fifo[xIndex (.toQd (Chan.quad c))] =
    d.isl.fifo[xIndex (.toQd (Chan.quad c))] ++ [.launch ⟨.carrierReset (.channel c), t⟩] := by
  have h : launchAll (.carrierReset (.channel c)) t d = send (.toQd (Chan.quad c)) (.launch ⟨.carrierReset (.channel c), t⟩) d := dif_pos (Chan.quad c).2
  rw [h, send_fifo_same]

/-- The check's result, reported. -/
def rearmReported (c : Chan) (d : Device) : Device :=
  refusedInRun 1 (armCheck d (.channel c)) (setDetail 1 (armCheck d (.channel c)) (setStartCheck 1 (armCheck d (.channel c)) d))

theorem rearmReported_keeps (c : Chan) (d : Device) : Keeps [.arbs, .log, .alert, .check] d (rearmReported c d) :=
  (((setStartCheck_keeps ..).mono rfl).trans ((setDetail_keeps ..).mono rfl)).trans ((refusedInRun_keeps ..).mono rfl)

theorem rearmCheckDone_eq {c : Chan} {d : Device} (hr : (d.chans[c]).restart = true) (hs : (d.chans[c]).st = .off) (hh : (d.chans[c]).hostStopQ = false)
    (hst : d.start.st = .run) : rearmCheckDone c d =
      if (armCheck d (.channel c)).reason = 0 then
        launchSoon (.carrierReset (.channel c)) ((rearmReported c d).updChan c fun s => { s with restart := false, enablePending := false, rearmRefused := false })
      else (rearmReported c d).updChan c fun s => { s with
        restart := false, enablePending := false, rearmRefused := true, reason := BitVec.ofNat 8 (armCheck d (.channel c)).reason } :=
  if_pos ⟨hr, hs, hh, hst⟩

/-! ### The limits of a charge phase in time (R257) -/

theorem recTimeoutScope (c : Chan) : ∃ sc, scopeOf (0x320 + c.1) = some sc := by
  have h : ∀ c : Chan, (scopeOf (0x320 + c.1)).isSome = true := by decide
  exact Option.isSome_iff_exists.1 (h c)

theorem recTimeout_due {c : Chan} {u : Nat} {d : Device} (hp : (d.profs[c]).phase = .recover) (ht : phaseTime d c = some u) (ho : (d.profs[c]).timedOut = false) :
    recTimeout c d = raise (0x320 + c.1) ((pass (tRecMax d c - u) d).updProf c fun p => { p with timedOut := true }) := by
  unfold recTimeout
  rw [hp, ht]
  exact if_neg (by rw [ho]; decide)

theorem finTimeout_due {c : Chan} {u : Nat} {d : Device} (hp : (d.profs[c]).phase = .finish) (ht : phaseTime d c = some u) :
    finTimeout c d = quadEvent (Chan.quad c) 0x0403 c.1 0 0 (movePhase c .keep 4 0 ((pass (tFinMax d c - u) d).updProf c fun p => { p with finTimeout := true })) := by
  unfold finTimeout
  rw [hp, ht]

theorem keepTimer_due {c : Chan} {u : Nat} {d : Device} (hp : (d.profs[c]).phase = .keep) (ht : (d.profs[c]).keepAt = some u) :
    keepTimer c d = (waitUp (u + tKeep d c) d).updProf c fun p => { p with keepDue := true, assessTry := 0 } := by
  unfold keepTimer
  rw [hp, ht]

/-- Settles O28: what arrives by its message, the timers each at its instant, the re-arm check by its two results. -/
theorem channelTimers : Obligations.ChannelTimers := by
  unfold Obligations.ChannelTimers
  refine ⟨fun c b rest s h => ?_, fun c g b rest s h => ?_, fun c s h => ?_, fun c s hk hc hs hg hr ho hh => ?_, fun c s hk hs hg hr ho hh => ?_,
    fun s hk hh => ?_, fun s hk hh => ?_, fun c u s hk ho hz => ?_, fun c s hr hs hh hst ha => ?_, fun c s hr hs hh hst ha => ?_,
    fun c u s hk hc hp hu ho => ?_, fun c u s hk hp hu => ?_, fun c u s hk hp hu => ?_⟩
  · obtain ⟨t, ht, hd⟩ := done_next (budgetArrival c) s
    refine ⟨t, ht, ?_⟩
    rw [hd, drive_chans, drive_isl, budgetArrival_first h, updChan_chans, upd_same]
    exact ⟨rfl, rfl, setFifo_fifo .., fun k hk => upd_other _ _ _ _ hk⟩
  · obtain ⟨t, ht, hd⟩ := done_next (budgetArrival c) s
    refine ⟨t, ht, ?_⟩
    rw [hd, drive_chans, drive_isl, drive_quads, budgetArrival_second h, updChan_chans, upd_same, updChan_quads, updQuad_quads, upd_same]
    exact ⟨rfl, rfl, setFifo_fifo ..⟩
  · obtain ⟨t, ht, hd⟩ := done_next (budgetArrival c) s
    exact ⟨t, ht, by rw [hd, budgetArrival_none h]⟩
  · obtain ⟨t, ht, hd⟩ := done_next (softStartTimeout c (ssDue c s.dev)) s
    obtain ⟨sc, hsc⟩ := softStartScope c
    have he := softStartTimeout_eq (t := ssDue c s.dev) (softStart_runs hs hg hr hh)
    rw [ho, if_neg Bool.false_ne_true] at he
    refine ⟨t, (execSoftStartTimeout_calm c s hk).trans ht, ?_⟩
    rw [hd, drive_clk, drive_faults, he, (raise_keeps ..).clk_eq]
    exact ⟨softStartJudged_up c s.dev, softStartJudged_count c _ hsc hc⟩
  · obtain ⟨t, ht, hd⟩ := done_next (softStartTimeout c (ssDue c s.dev)) s
    have he := softStartTimeout_eq (t := ssDue c s.dev) (softStart_runs hs hg hr hh)
    rw [ho, if_pos rfl] at he
    refine ⟨t, (execSoftStartTimeout_calm c s hk).trans ht, ?_⟩
    rw [hd, drive_clk, drive_faults, drive_chans, he, softStartJudged_up]
    rw [softStartJudged, updChan_chans, upd_same, updChan_faults, waitUp_faults]
    exact ⟨rfl, rfl, rfl⟩
  · obtain ⟨t, ht, hd⟩ := done_next rampFactorUpdate s
    have he := rampFactorUpdate_eq (d := s.dev) (by rw [hh]; decide)
    have kn := nextMultiple_keeps 0 (10 * us) s.dev
    have hup := nextMultiple_up 0 (10 * us) (by decide) s.dev
    have hhalt : (nextMultiple 0 (10 * us) s.dev).halt = s.dev.halt := kn.parts .halt rfl
    have hbut : (nextMultiple 0 (10 * us) s.dev).button = s.dev.button := kn.parts .button rfl
    have hch : (nextMultiple 0 (10 * us) s.dev).chans = s.dev.chans := kn.parts .chans rfl
    generalize nextMultiple 0 (10 * us) s.dev = w at he hup hhalt hbut hch
    obtain ⟨h1, h2⟩ := rampUpdates_words w
    refine ⟨t, (execRampFactorUpdate_calm s hk).trans ht, ?_⟩
    rw [hd, drive_clk, drive_halt, drive_chans, he, h1, h2]
    refine ⟨hup, hhalt, fun hb c hc => rampUpdates_h (fun x hx hbx => ?_) (by rw [hch]; exact hc)⟩
    rw [haltFactor, svcFactor, hx, hbx, hhalt, hbut, hh, hb]
    exact min_self _
  · obtain ⟨t, ht, hd⟩ := done_next rampFactorUpdate s
    have he := rampFactorUpdate_eq (d := s.dev) (by rw [hh]; decide)
    have kn := nextMultiple_keeps 0 (10 * us) s.dev
    have hhalt : (nextMultiple 0 (10 * us) s.dev).halt = s.dev.halt := kn.parts .halt rfl
    have hbut : (nextMultiple 0 (10 * us) s.dev).button = s.dev.button := kn.parts .button rfl
    have hch : (nextMultiple 0 (10 * us) s.dev).chans = s.dev.chans := kn.parts .chans rfl
    generalize nextMultiple 0 (10 * us) s.dev = w at he hhalt hbut hch
    refine ⟨t, (execRampFactorUpdate_calm s hk).trans ht, ?_⟩
    rw [hd, drive_chans, he]
    refine fun c hc hb => rampUpdates_h (fun x hx hbx => ?_) (by rw [hch]; exact hc)
    rw [haltFactor, svcFactor, hx, hbx, hhalt, hbut, hh, hb]
    exact min_eq_left zero_le_one
  · obtain ⟨t, ht, hd⟩ := done_next (cutEnd c) s
    obtain ⟨a, b, he⟩ := cutEnd_due ho hz
    obtain ⟨x, hx⟩ : ∃ x : Device, x = (waitUp (u + sec) s.dev).updChan c fun s => { s with cutOpen := false, cutZeroAt := none, cutMax := 0 } := ⟨_, rfl⟩
    have hup : x.clk.up = max s.dev.clk.up (u + sec) := by rw [hx, waitUp_updChan_up]
    have hch : x.chans[c] = { s.dev.chans[c] with cutOpen := false, cutZeroAt := none, cutMax := 0 } := by rw [hx, updChan_chans, upd_same, waitUp_chans]
    have hil : x.isl = s.dev.isl := by rw [hx, updChan_isl, waitUp_isl]
    have hcol : x.col = s.dev.col := by rw [hx, updChan_col, waitUp_col]
    have hw : hkWaits x (Chan.quad c) = hkWaits s.dev (Chan.quad c) := by rw [hkWaits, fifoOf, hil, hkWaits, fifoOf]
    rw [← hx] at he
    have k : Keeps [.arbs, .isl, .log] x (cutEnd c s.dev) := he ▸ quadEvent_keeps ..
    have hkc : (cutEnd c s.dev).chans = x.chans := k.parts .chans rfl
    refine ⟨t, (execCutEndTimer_calm c s hk).trans ht, ?_⟩
    rw [hd, drive_clk, drive_chans, drive_col, drive_isl, k.clk_eq, hup, hkc, hch]
    refine ⟨rfl, rfl, rfl, fun hf hroom => ?_, fun hf => ?_⟩
    · rw [he, quadEvent_free _ _ _ _ _ _ (hw.trans hf)]
      rw [← hcol] at hroom ⊢
      exact logPush_length _ _ _ _ _ _ _ hroom
    · rw [he, quadEvent_waits (hw.trans hf), send_fifo_same, hil]
      exact ⟨hcol, _, rfl⟩
  · obtain ⟨t, ht, hd⟩ := done_next (rearmCheckDone c) s
    have he := rearmCheckDone_eq hr hs hh hst
    rw [if_pos ha] at he
    have kr := rearmReported_keeps c s.dev
    have hch : (rearmReported c s.dev).chans = s.dev.chans := kr.parts .chans rfl
    have hsl : (rearmReported c s.dev).slots = s.dev.slots := kr.parts .slots rfl
    have hcl : (rearmReported c s.dev).clk = s.dev.clk := kr.clk_eq
    have hfi : (rearmReported c s.dev).isl.fifo = s.dev.isl.fifo := kr.fifo_eq
    obtain ⟨x, hx⟩ : ∃ x : Device, x = (rearmReported c s.dev).updChan c fun s => { s with restart := false, enablePending := false, rearmRefused := false } := ⟨_, rfl⟩
    have hxc : x.chans[c] = { s.dev.chans[c] with restart := false, enablePending := false, rearmRefused := false } := by
      rw [hx, updChan_chans, upd_same, hch]
    have hxs : x.slots = s.dev.slots := by rw [hx, updChan_slots, hsl]
    have hxf : x.isl.fifo = s.dev.isl.fifo := by rw [hx]; exact hfi
    have hxl : x.clk = s.dev.clk := by rw [hx]; exact hcl
    rw [← hx] at he
    have kl := launchSoon_keeps (.carrierReset (.channel c)) x
    have hlc : (launchSoon (.carrierReset (.channel c)) x).chans = x.chans := kl.parts .chans rfl
    have hls : (launchSoon (.carrierReset (.channel c)) x).slots = x.slots := kl.parts .slots rfl
    refine ⟨t, ht, ?_⟩
    rw [hd, drive_chans, drive_slots, drive_isl, he, hlc, hls, hxc, hxs, launchSoon, launchAll_channel_fifo, hxf, hxl]
    exact ⟨rfl, rfl, hs, rfl, rfl⟩
  · obtain ⟨t, ht, hd⟩ := done_next (rearmCheckDone c) s
    have he := rearmCheckDone_eq hr hs hh hst
    have hch : (rearmReported c s.dev).chans = s.dev.chans := (rearmReported_keeps c s.dev).parts .chans rfl
    rw [if_neg ha] at he
    refine ⟨t, ht, ?_⟩
    rw [hd, drive_chans, he, updChan_chans, upd_same, hch]
    exact ⟨rfl, rfl, rfl, hs⟩
  · obtain ⟨t, ht, hd⟩ := done_next (recTimeout c) s
    obtain ⟨sc, hsc⟩ := recTimeoutScope c
    refine ⟨t, (execRecTimeout_calm c s hk).trans ht, ?_⟩
    rw [hd, drive_clk, drive_faults, recTimeout_due hp hu ho, (raise_keeps ..).clk_eq, pass_updProf_up]
    exact ⟨rfl, raise_count_passed _ _ hsc hc⟩
  · obtain ⟨t, ht, hd⟩ := done_next (finTimeout c) s
    obtain ⟨x, hx⟩ : ∃ x : Device, x = (pass (tFinMax s.dev c - u) s.dev).updProf c fun p => { p with finTimeout := true } := ⟨_, rfl⟩
    have he := finTimeout_due hp hu
    rw [← hx] at he
    have hxp : (x.profs[c]).finTimeout = true := by rw [hx, updProf_profs, upd_same]
    have hxu : x.clk.up = s.dev.clk.up + (tFinMax s.dev c - u) := by rw [hx, pass_updProf_up]
    have hxo : OtherChans c s.dev x := by rw [hx]; exact (OtherChans.of_keeps (S := [.clk]) (pass_keeps ..)).updProf _
    have kq := quadEvent_keeps (Chan.quad c) 0x0403 c.1 0 0 (movePhase c .keep 4 0 x)
    have hqp : (finTimeout c s.dev).profs = (movePhase c .keep 4 0 x).profs := he ▸ kq.parts .profs rfl
    have hqc : (finTimeout c s.dev).clk = x.clk := by rw [he, kq.clk_eq, (movePhase_keeps ..).clk_eq]
    refine ⟨t, (execFinTimeout_calm c s hk).trans ht, ?_⟩
    rw [hd, drive_clk, drive_profs, hqp, hqc, hxu]
    exact ⟨rfl, movePhase_prof c .keep 4 0 x ProfSt.phase, (movePhase_prof c .keep 4 0 x ProfSt.finTimeout).trans hxp,
      fun k hk => ((movePhase_otherChans c .keep 4 0 x).prof k hk).trans (hxo.prof k hk)⟩
  · obtain ⟨t, ht, hd⟩ := done_next (keepTimer c) s
    refine ⟨t, (execKeepTimerExpiry_calm c s hk).trans ht, ?_⟩
    rw [hd, drive_clk, drive_profs, keepTimer_due hp hu, waitUp_updProf_up, updProf_profs, upd_same, waitUp_profs]
    exact ⟨rfl, rfl, rfl, hp⟩

end Sys2Proof.Machine

/-! ## What a raise may do to channels, slots and profiles (11: R419 to R423) -/

namespace Sys2Proof.Machine

/-- A channel without the words that a hold, a shed member and the gate write. -/
def sansHold (s : ChanSt) : ChanSt :=
  { s with st := .unarmed, gate := false, chBelow := false, stopCause := 0, holders := [], hp := 0, hpDownAt := none, hpUpAt := none, shedCnt := 0, noMember := false }

/-- A profile without the words that a hold and the gate write. -/
def sansPause (p : ProfSt) : ProfSt :=
  { p with inRest := false, samples := [], phaseRun := 0, phaseTick := 0, carried := false, zeroAt := none, paused := false }

/-- A slot without its edges, its outputs and its holders. -/
def sansEdge (s : SlotSt) : SlotSt :=
  { s with xOn := false, xOffAt := 0, cur := {}, xWait := false, yOn := false, yDone := false, yOffAt := 0, yLate := none, pinA := false, pinB := false, holders := [] }

/-- A write of a slot drives no output that was low. -/
def LeavesLow (f : SlotSt → SlotSt) : Prop := ∀ s : SlotSt, s.pinA = false → s.pinB = false → (f s).pinA = false ∧ (f s).pinB = false

/-- A predicate that every operation of a raise keeps: what these operations write of channels, profiles and slots is named by the words left out above. -/
structure RaiseClosed (P : Device → Prop) : Prop where
  keeps : ∀ d e, Keeps [.arbs, .paths, .srcs, .faults, .col, .log, .caps, .alert] d e → P d → P e
  latch : ∀ d, P d → P (latchAtStart d)
  chan : ∀ (c : Chan) (f : ChanSt → ChanSt) d, (∀ s, sansHold (f s) = sansHold s) → P d → P (d.updChan c f)
  prof : ∀ (c : Chan) (f : ProfSt → ProfSt) d, (∀ p, sansPause (f p) = sansPause p) → P d → P (d.updProf c f)
  slot : ∀ (n : Slot) (f : SlotSt → SlotSt) d, LeavesLow f → (∀ s, sansEdge (f s) = sansEdge s) → P d → P (d.updSlot n f)

namespace RaiseClosed
variable {P : Device → Prop} (h : RaiseClosed P) {d : Device}
include h

theorem xOff (n : Slot) (ce : BitVec 2) (pos : Nat) (hp : P d) : P (xOff n ce pos d) :=
  if_cases (p := P) (h.slot n _ _ (fun _ _ _ => ⟨Bool.and_false _, Bool.and_false _⟩) (fun _ => rfl) (h.slot n _ _ (fun _ ha hb => ⟨ha, hb⟩) (fun _ => rfl) hp))
    (h.slot n _ _ (fun _ ha hb => ⟨ha, hb⟩) (fun _ => rfl) hp)

theorem yOff (n : Slot) (edge : Nat) (hp : P d) : P (yOff n edge d) :=
  if_cases (p := P) (h.slot n _ _ (fun _ _ _ => ⟨Bool.and_false _, Bool.and_false _⟩) (fun _ => rfl) (h.slot n _ _ (fun _ ha hb => ⟨ha, hb⟩) (fun _ => rfl) hp))
    (h.slot n _ _ (fun _ ha hb => ⟨ha, hb⟩) (fun _ => rfl) hp)

theorem slotOff (n : Slot) (hp : P d) : P (slotOff n d) := h.slot n _ _ (fun _ _ _ => ⟨rfl, rfl⟩) (fun _ => rfl) (h.yOff n _ (h.xOff n _ _ hp))

theorem slotGateOff (n : Slot) (hp : P d) : P (slotGateOff n d) := if_cases (p := P) (h.yOff n _ (h.xOff n _ _ hp)) (h.xOff n _ _ hp)

theorem regate (c : Chan) (hp : P d) : P (regate c d) := by
  have h1 : P (((d.updChan c fun s => { s with gate := gateWanted d c, chBelow := false }).updPath c fun p =>
      { p with instCode := !gateWanted d c }).updProf c fun p => { p with carried := true, zeroAt := if gateWanted d c then none else some d.up }) :=
    h.prof c _ _ (fun _ => rfl) (h.keeps _ _ ((updPath_keeps ..).mono rfl) (h.chan c _ d (fun _ => rfl) hp))
  exact if_cases (p := P) hp (if_cases (p := P) h1 (forEach_induct P _ _ (fun n _ he => h.slotGateOff n he) _ h1))

theorem enterCh (c : Chan) (st : ChState) (hp : P d) : P (enterCh c st d) := by
  have h1 (f : ChanSt → ChanSt) (hf : ∀ s, sansHold (f s) = sansHold s) : P ((abandonRest c d).updChan c f) := h.chan c f _ hf (h.prof c _ d (fun _ => rfl) hp)
  unfold Machine.enterCh
  dsimp only
  exact h.regate c (h.chan c _ _ (fun _ => rfl) (h.prof c _ _ (fun _ => rfl) (if_cases (p := P) (h1 _ fun _ => rfl) hp)))

theorem pauseProf (c : Chan) (hp : P d) : P (pauseProf c d) :=
  h.prof c (fun p => if p.phase = .idle then p else { p with paused := true }) d (fun p => if_cases (p := fun x => sansPause x = sansPause p) rfl rfl) hp

theorem holdChan (f : Nat) (c : Chan) (hp : P d) : P (holdChan f c d) := by
  have h1 : P (d.updChan c fun s => { s with holders := if f ∈ s.holders then s.holders else s.holders ++ [f] }) := h.chan c _ d (fun _ => rfl) hp
  exact if_cases (p := P) (if_cases (p := P) h1 (h.pauseProf c (h.enterCh c .held (h.chan c _ _ (fun _ => rfl) h1)))) hp

theorem react (f : Nat) (sc : Scope) (s : Severity) (hp : P d) : P (react f sc s d) := by
  have h1 : P (forEach (reach d sc s) (Machine.holdChan f) d) := forEach_induct P _ _ (fun c _ he => h.holdChan f c he) _ hp
  have h2 (x : Device) (g : Collector → Collector) (hg : ∀ s, ColKeeps [.col] s (g s)) (hx : P x) : P (x.updCol g) := h.keeps _ _ ((updCol_keeps x hg).mono rfl) hx
  unfold Machine.react
  refine if_cases (p := P) (h2 _ _ (fun _ => ⟨nofun, fun _ => rfl, fun _ => rfl, fun _ => rfl⟩) (if_cases (p := P) ?_ h1)) (if_cases (p := P) ?_ h1)
  all_goals
    cases sc with
    | path c => exact if_cases (p := P) (h.keeps _ _ ((pathTrip_keeps ..).mono rfl) h1) (h.keeps _ _ ((pathOpen_keeps ..).mono rfl) h1)
    | source k => exact h.keeps _ _ ((srcOpen_keeps ..).mono rfl) h1
    | slot n => exact h.slot n _ _ (fun _ ha hb => ⟨ha, hb⟩) (fun _ => rfl) h1
    | _ => exact h1

theorem raiseX (f : Nat) (level : Bool) (x : Nat) (hp : P d) : P (raiseX f level x d) := by
  rcases raiseX_cases f level x d with k | ⟨sc, -, -, -, he⟩
  · exact h.keeps _ _ (k.mono rfl) hp
  · have h1 : P (recordRaise f sc level x d) := h.keeps _ _ ((recordRaise_keeps ..).mono rfl) hp
    rw [he]
    exact if_cases (p := P) (h.react _ _ _ h1)
      (if_cases (p := P) (h.react _ _ _ (h.latch _ h1)) (if_cases (p := P) (h.keeps _ _ ((updFault_keeps ..).mono rfl) h1) h1))

theorem raise (f : Nat) (hp : P d) : P (raise f d) := h.raiseX f false 0 hp

theorem updFault (g : Fsrc) (y : FaultSt → FaultSt) (hp : P d) : P (d.updFault g y) := h.keeps _ _ ((updFault_keeps ..).mono rfl) hp

theorem raiseLevel (f x : Nat) (hp : P d) : P (raiseLevel f x d) :=
  if_cases (p := P) (if_cases (p := P) hp (h.updFault _ _ (h.updFault _ _ hp))) (if_cases (p := P) (h.updFault _ _ hp) (h.raiseX f true x hp))

theorem faultEnds (f : Nat) (hp : P d) : P (faultEnds f d) :=
  if_cases (p := P) (if_cases (p := P) (h.updFault _ _ (h.raiseX f true _ hp)) hp) (h.updFault _ _ hp)

end RaiseClosed

end Sys2Proof.Machine

/-! ## The rests of a pulsed channel (07: R249 to R256) -/

namespace Sys2Proof.Machine

/-! ### What a change of the gate leaves -/

theorem regate_prof (c : Chan) (d : Device) : ∃ a z, (regate c d).profs[c] = { d.profs[c] with carried := a, zeroAt := z } := by
  have ho (l : List Slot) (e : Device) : (forEach l slotGateOff e).profs = e.profs := (Keeps.forEach slotGateOff_keeps (.refl [.slots] e)).parts .profs rfl
  have hw (b : Bool) (z : Option Nat) : (((d.updChan c fun s => { s with gate := b, chBelow := false }).updPath c fun p => { p with instCode := !b }).updProf c
      fun p => { p with carried := true, zeroAt := z }).profs[c] = { d.profs[c] with carried := true, zeroAt := z } := upd_same ..
  exact if_cases (p := fun x : Device => ∃ a z, x.profs[c] = { d.profs[c] with carried := a, zeroAt := z }) ⟨_, _, rfl⟩
    (if_cases (p := fun x : Device => ∃ a z, x.profs[c] = { d.profs[c] with carried := a, zeroAt := z }) ⟨_, _, hw ..⟩ ⟨_, _, by rw [ho]; exact hw ..⟩)

theorem regate_chan (c : Chan) (d : Device) : ∃ b, (regate c d).chans[c] = { d.chans[c] with gate := gateWanted d c, chBelow := b } := by
  have ho (l : List Slot) (e : Device) : (forEach l slotGateOff e).chans = e.chans := (Keeps.forEach slotGateOff_keeps (.refl [.slots] e)).parts .chans rfl
  have hw (z : Option Nat) : (((d.updChan c fun s => { s with gate := gateWanted d c, chBelow := false }).updPath c fun p =>
      { p with instCode := !gateWanted d c }).updProf c fun p => { p with carried := true, zeroAt := z }).chans[c] =
      { d.chans[c] with gate := gateWanted d c, chBelow := false } := upd_same ..
  by_cases h : gateWanted d c = (d.chans[c]).gate
  · have he : regate c d = d := if_pos h
    exact ⟨(d.chans[c]).chBelow, by rw [he, h]⟩
  · rw [regate]
    dsimp only
    rw [if_neg h]
    exact if_cases (p := fun x : Device => ∃ b, x.chans[c] = { d.chans[c] with gate := gateWanted d c, chBelow := b }) ⟨_, hw _⟩ ⟨_, by rw [ho]; exact hw _⟩

theorem gateWanted_inRest {c : Chan} {d : Device} (h : (d.profs[c]).inRest = true) : gateWanted d c = false := by
  simp only [gateWanted, h, Bool.not_true, Bool.and_false, Bool.false_and]

/-! ### The start of a rest (R249, R251, R274) -/

/-- A rest start that is not passed over is noted. -/
def restNoted (c : Chan) (d : Device) : Device :=
  d.updProf c fun p => { p with restLoc := if p.inRest then p.restLoc else d.loc, restFrom := d.loc + 1 }

/-- A rest begins. -/
def restBegun (c : Chan) (d : Device) : Device :=
  regate c ((d.updProf c fun p => { p with
    restAt := d.up, inRest := true, phBefore := p.phase, samples := [], winSum := 0, winN := 0, iMax := 0, evald := false }).updChan c fun s =>
    { s with hp := 0, hpDownAt := none, hpUpAt := none })

theorem restNow_eq (c : Chan) (d : Device) : restNow c d =
    if (d.profs[c]).slot.isNone ∨ ((d.profs[c]).inRest ∧ (d.chans[c]).st = .regulate) then d
    else if (d.chans[c]).st ≠ .regulate then (restNoted c d).updProf c fun p => { p with skippedRests := satInc p.skippedRests }
    else if isPulsed (restNoted c d) c ∧ ((restNoted c d).profs[c]).waitSlot = false then restBegun c (restNoted c d) else restNoted c d := rfl

theorem restNoted_prof (c : Chan) (d : Device) : (restNoted c d).profs[c] =
    { d.profs[c] with restLoc := if (d.profs[c]).inRest then (d.profs[c]).restLoc else d.loc, restFrom := d.loc + 1 } := upd_same ..

theorem restNoted_pulsed (c : Chan) (d : Device) : isPulsed (restNoted c d) c = isPulsed d c := by
  have hm : pulseEn (restNoted c d) c = pulseEn d c := rfl
  rw [isPulsed, isPulsed, restNoted_prof, hm]

theorem restNow_goesOn {c : Chan} {d : Device} (hi : (d.profs[c]).inRest = true) (hr : (d.chans[c]).st = .regulate) : restNow c d = d := by
  rw [restNow_eq, if_pos (.inr ⟨hi, hr⟩)]

theorem restNow_begins {c : Chan} {d : Device} (hs : (d.profs[c]).slot.isSome = true) (hi : (d.profs[c]).inRest = false) (hr : (d.chans[c]).st = .regulate)
    (hw : (d.profs[c]).waitSlot = false) (hp : isPulsed d c = true) : restNow c d = restBegun c (restNoted c d) := by
  have h1 : ¬((d.profs[c]).slot.isNone ∨ ((d.profs[c]).inRest ∧ (d.chans[c]).st = .regulate)) := by
    rintro (h | ⟨h, -⟩)
    · rw [Option.isNone_iff_eq_none] at h
      rw [h] at hs
      exact absurd hs (by decide)
    · rw [hi] at h
      exact Bool.false_ne_true h
  rw [restNow_eq, if_neg h1, if_neg fun h => h hr, if_pos ⟨(restNoted_pulsed c d).trans hp, by rw [restNoted_prof]; exact hw⟩]

theorem restNow_skipped {c : Chan} {d : Device} (hs : (d.profs[c]).slot.isSome = true) (hr : (d.chans[c]).st ≠ .regulate) :
    restNow c d = (restNoted c d).updProf c fun p => { p with skippedRests := satInc p.skippedRests } := by
  have h1 : ¬((d.profs[c]).slot.isNone ∨ ((d.profs[c]).inRest ∧ (d.chans[c]).st = .regulate)) := by
    rintro (h | ⟨-, h⟩)
    · rw [Option.isNone_iff_eq_none] at h
      rw [h] at hs
      exact absurd hs (by decide)
    · exact hr h
  rw [restNow_eq, if_neg h1, if_pos hr]

theorem restBegun_prof (c : Chan) (d : Device) : ∃ a z, (restBegun c d).profs[c] = { d.profs[c] with
    restAt := d.up, inRest := true, phBefore := (d.profs[c]).phase, samples := [], winSum := 0, winN := 0, iMax := 0, evald := false, carried := a, zeroAt := z } := by
  obtain ⟨a, z, h⟩ := regate_prof c ((d.updProf c fun p => { p with
    restAt := d.up, inRest := true, phBefore := p.phase, samples := [], winSum := 0, winN := 0, iMax := 0, evald := false }).updChan c fun s =>
    { s with hp := 0, hpDownAt := none, hpUpAt := none })
  rw [updChan_profs, updProf_profs, upd_same] at h
  exact ⟨a, z, h⟩

theorem restBegun_gate (c : Chan) (d : Device) : ((restBegun c d).chans[c]).gate = false := by
  unfold restBegun
  obtain ⟨b, h⟩ := regate_chan c ((d.updProf c fun p => { p with
    restAt := d.up, inRest := true, phBefore := p.phase, samples := [], winSum := 0, winN := 0, iMax := 0, evald := false }).updChan c fun s =>
    { s with hp := 0, hpDownAt := none, hpUpAt := none })
  rw [h]
  exact gateWanted_inRest (by rw [updChan_profs, updProf_profs, upd_same])

/-- After a rest start of a pulsed channel in REGULATE a rest is on: the one that goes on, or a new one. -/
theorem restNow_rests {c : Chan} {d : Device} (hs : (d.profs[c]).slot.isSome = true) (hr : (d.chans[c]).st = .regulate) (hw : (d.profs[c]).waitSlot = false)
    (hp : isPulsed d c = true) : ((restNow c d).profs[c]).inRest = true ∧
      ((d.profs[c]).inRest = false → ((restNow c d).profs[c]).samples = [] ∧ ((restNow c d).chans[c]).gate = false ∧
        ((restNow c d).profs[c]).phBefore = (d.profs[c]).phase) ∧
      ((d.profs[c]).inRest = true → (restNow c d).profs[c] = d.profs[c]) := by
  cases hi : (d.profs[c]).inRest with
  | true => rw [restNow_goesOn hi hr]; exact ⟨hi, nofun, fun _ => rfl⟩
  | false =>
    obtain ⟨a, z, h⟩ := restBegun_prof c (restNoted c d)
    rw [restNow_begins hs hi hr hw hp, h, restNoted_prof]
    exact ⟨rfl, fun _ => ⟨rfl, restBegun_gate c _, rfl⟩, nofun⟩

theorem restStart_due {c : Chan} {u : Nat} {d : Device} (hn : nextRest d c = some u) (h : d.clk.loc ≤ u) : restStart c d = restNow c (waitLoc u d) := by
  rw [restStart, hn]
  exact congrArg (restNow c) (if_neg (Nat.not_lt.2 h))

theorem restStart_late {c : Chan} {u : Nat} {d : Device} (hn : nextRest d c = some u) (h : u < d.clk.loc) :
    restStart c d = restNow c (launchLate (quadIsland (Chan.quad c)) ⟨.restStart c, u⟩ (pass 1 d)) := by
  rw [restStart, hn]
  exact congrArg (restNow c) (if_pos h)

/-- Waiting leaves what a rest start looks at. -/
theorem isPulsed_waitLoc (u : Nat) (c : Chan) (d : Device) : isPulsed (waitLoc u d) c = isPulsed d c := rfl

theorem Keeps.late_eq {S : List Part} {d e : Device} (k : Keeps S d e) (h : S.contains .isl = false) : e.isl.late = d.isl.late := by
  have hi : e.isl.rest = d.isl.rest := k.parts .isl h
  have hl : e.isl.rest.late = d.isl.rest.late := by rw [hi]
  exact hl

theorem toHouse_event_late (q : Quad) (code : Nat) (r : List Byte) (f : Device → Device) (hf : ∀ e, Keeps [.arbs, .log] e (f e)) (d : Device) :
    (toHouse q (.event code r) f d).isl.late = d.isl.late :=
  if_cases (p := fun x : Device => x.isl.late = d.isl.late) rfl ((hf d).late_eq rfl)

theorem launchLate_sets (c : Chan) (u : Nat) (d : Device) :
    (launchLate (quadIsland (Chan.quad c)) ⟨.restStart c, u⟩ d).isl.late[quadIsland (Chan.quad c)] = true := by
  have hq : (quadIsland (Chan.quad c)).1 < 4 := (Chan.quad c).2
  have h : ∃ a b g, launchLate (quadIsland (Chan.quad c)) ⟨.restStart c, u⟩ d =
      quadEvent (Chan.quad c) 0x0301 g a b (d.updIsl fun x => { x with late := upd x.late (quadIsland (Chan.quad c)) fun _ => true }) := by
    unfold launchLate
    dsimp only
    have hm : isHaltMove (.restStart c) = false := rfl
    rw [hm, if_neg Bool.false_ne_true, dif_pos hq]
    exact ⟨_, _, _, rfl⟩
  obtain ⟨a, b, g, h⟩ := h
  rw [h, quadEvent, toHouse_event_late _ _ _ _ fun e => (logEvent_keeps ..).mono rfl]
  exact upd_same ..

theorem isPulsed_congr {d e : Device} {c : Chan} (hm : e.memory = d.memory) (hp : e.profs = d.profs) : isPulsed e c = isPulsed d c := by
  have hw : pfw e c 0 0 1 = pfw d c 0 0 1 := by simp only [pfw, profSel, Device.cf, hm]
  have he : pulseEn e c = pulseEn d c := by rw [pulseEn, pulseEn, hw]
  rw [isPulsed, isPulsed, hp, he]

/-! ### The ramp-down of a pulse (R249, R251) -/

/-- The pulse ramps down from this instant of local time on. -/
def pulseDown (c : Chan) (n : Nat) (d : Device) : Device := (waitLoc n d).updChan c fun s => { s with hpDownAt := some (waitLoc n d).up, hpUpAt := none }

theorem pulseDown_does (c : Chan) (n : Nat) (d : Device) : (pulseDown c n d).clk.loc = max d.clk.loc n ∧
    ((pulseDown c n d).chans[c]).hpDownAt = some (pulseDown c n d).clk.up ∧ (pulseDown c n d).slots = d.slots := by
  rw [pulseDown, updChan_clk, updChan_chans, upd_same, waitLoc_loc]
  exact ⟨rfl, rfl, rfl⟩

theorem pulseRampDown_due {c : Chan} {u : Nat} {d : Device} (hn : nextRest d c = some u) (hp : isPulsed d c = true) (hr : (d.chans[c]).st = .regulate)
    (hi : (d.profs[c]).inRest = false) (hw : (d.profs[c]).waitSlot = false) (hh : (d.chans[c]).hpDownAt = none) :
    pulseRampDown c d = pulseDown c (u - peRamp d c) d := by
  rw [pulseRampDown, hn]
  exact if_pos ⟨hp, hr, hi, hw, hh⟩

/-! ### The samples of a rest (R253) -/

/-- The window that ends at this instant gives its sample. -/
def sampleTaken (c : Chan) (n : Nat) (d : Device) : Device :=
  (waitUp n d).updProf c fun p => { p with
    samples := p.samples ++ [if (d.profs[c]).winN < (nAvg d c + 1) / 2 then none else some (qdiv (d.profs[c]).winSum (d.profs[c]).winN)], winSum := 0, winN := 0 }

theorem nAvg_waitUp (n : Nat) (c : Chan) (d : Device) : nAvg (waitUp n d) c = nAvg d c := rfl

theorem restSampleEnd_due {c : Chan} {d : Device} (hi : (d.profs[c]).inRest = true) (he : (d.profs[c]).evald = false) (hl : (d.profs[c]).samples.length < 3) :
    restSampleEnd c d = sampleTaken c ((d.profs[c]).restAt + ((d.profs[c]).samples.length + 1) * tSamp d c) d := by
  have h : restSampleEnd c d = _ := if_pos ⟨hi, he, hl⟩
  rw [h, nAvg_waitUp]
  rfl

theorem sampleTaken_up (c : Chan) (n : Nat) (d : Device) : (sampleTaken c n d).clk.up = max d.clk.up n := waitUp_updProf_up ..

theorem sampleTaken_prof (c : Chan) (n : Nat) (d : Device) : ((sampleTaken c n d).profs[c]).samples = (d.profs[c]).samples ++
    [if (d.profs[c]).winN < (nAvg d c + 1) / 2 then none else some (qdiv (d.profs[c]).winSum (d.profs[c]).winN)] := by
  rw [sampleTaken, updProf_profs, upd_same, waitUp_profs]

/-! ### The evaluation of a rest (R254 to R257) -/

/-- The words of a rest's estimate. -/
def estWords (p : ProfSt) : BitVec 2 × BitVec 24 × Byte × Bool := (p.kind, p.vLast, p.ratio, p.evald)

/-- The rest counts as evaluated. -/
def evaluatedAt (c : Chan) (n : Nat) (d : Device) : Device := (waitUp n d).updProf c fun p => { p with evald := true }

theorem evaluatedAt_up (c : Chan) (n : Nat) (d : Device) : (evaluatedAt c n d).clk.up = max d.clk.up n := waitUp_updProf_up ..

theorem evaluatedAt_prof (c : Chan) (n : Nat) (d : Device) : (evaluatedAt c n d).profs[c] = { d.profs[c] with evald := true } := by
  rw [evaluatedAt, updProf_profs, upd_same, waitUp_profs]

theorem evaluatedAt_fields (c : Chan) (n : Nat) (d : Device) :
    iRestMax (evaluatedAt c n d) c = iRestMax d c ∧ dFloor (evaluatedAt c n d) c = dFloor d c := ⟨rfl, rfl⟩

/-- The counts and words that an accepted estimate writes. -/
def estimateTaken (c : Chan) (e : Qty × BitVec 2) (r : Byte) (d : Device) : Device :=
  d.updProf c fun p => { p with
    kind := e.2, unrelaxed := false, vLast := BitVec.ofNat 24 (toMv e.1), ratio := r
    fallback := if e.2 = 0 then p.fallback else satInc p.fallback }

theorem estimateTaken_words (c : Chan) (e : Qty × BitVec 2) (r : Byte) (n : Nat) (d : Device) :
    estWords (estimateTaken c e r (evaluatedAt c n d)).profs[c] = (e.2, BitVec.ofNat 24 (toMv e.1), r, true) := by
  rw [estimateTaken, updProf_profs, upd_same, evaluatedAt_prof]
  rfl

theorem restEvaluation_accepted {c : Chan} {v1 v2 v3 : Qty} {d : Device} (hs : (d.profs[c]).samples = [some v1, some v2, some v3]) (he : (d.profs[c]).evald = false)
    (hi : (d.profs[c]).iMax ≤ iRestMax d c) : restEvaluation c d =
      restRecord c (d.profs[c]).samples (estimate (dFloor d c) v1 v2 v3).1 0 (estimateMove c (estimate (dFloor d c) v1 v2 v3).1
        (ovpCheck c (estimate (dFloor d c) v1 v2 v3).1 (estimateTaken c (estimate (dFloor d c) v1 v2 v3) (decayRatio v1 v2 v3)
          (evaluatedAt c ((d.profs[c]).restAt + 3 * tSamp d c) d)))) := by
  obtain ⟨hm, hf⟩ := evaluatedAt_fields c ((d.profs[c]).restAt + 3 * tSamp d c) d
  have h : restEvaluation c d = _ := if_pos ⟨by rw [hs]; rfl, he⟩
  rw [h]
  unfold evaluatedAt at hm hf
  dsimp only
  rw [hm, decide_eq_false (not_lt.2 hi), hs]
  dsimp only
  rw [if_neg Bool.false_ne_true, hf]
  rfl

theorem restEvaluation_disturbed {c : Chan} {v1 v2 v3 : Qty} {d : Device} (hs : (d.profs[c]).samples = [some v1, some v2, some v3]) (he : (d.profs[c]).evald = false)
    (hi : iRestMax d c < (d.profs[c]).iMax) : restEvaluation c d = restRecord c (d.profs[c]).samples 0 1
      ((evaluatedAt c ((d.profs[c]).restAt + 3 * tSamp d c) d).updProf c fun p => { p with disturbed := satInc p.disturbed, ratio := decayRatio v1 v2 v3 }) := by
  have hm := (evaluatedAt_fields c ((d.profs[c]).restAt + 3 * tSamp d c) d).1
  have h : restEvaluation c d = _ := if_pos ⟨by rw [hs]; rfl, he⟩
  rw [h]
  unfold evaluatedAt at hm ⊢
  dsimp only
  rw [hm, decide_eq_true hi, hs]
  dsimp only
  rw [if_pos rfl]

theorem restEvaluation_incomplete {c : Chan} {x y z : Option Qty} {d : Device} (hs : (d.profs[c]).samples = [x, y, z]) (hx : x = none ∨ y = none ∨ z = none)
    (he : (d.profs[c]).evald = false) : ∃ (o : Nat) (b : Bool), restEvaluation c d = restRecord c (d.profs[c]).samples 0 o
      ((evaluatedAt c ((d.profs[c]).restAt + 3 * tSamp d c) d).updProf c fun p => { p with incomplete := satInc p.incomplete, disturbed := if b then satInc p.disturbed else p.disturbed }) := by
  have h : restEvaluation c d = _ := if_pos ⟨by rw [hs]; rfl, he⟩
  refine ⟨if decide (iRestMax (evaluatedAt c ((d.profs[c]).restAt + 3 * tSamp d c) d) c < (d.profs[c]).iMax) then 3 else 2,
    decide (iRestMax (evaluatedAt c ((d.profs[c]).restAt + 3 * tSamp d c) d) c < (d.profs[c]).iMax), ?_⟩
  rw [h]
  unfold evaluatedAt
  dsimp only
  rw [hs]
  match x, y, z, hx with
  | none, _, _, _ => rfl
  | some _, none, _, _ => rfl
  | some _, some _, none, _ => rfl

theorem restRecord_profs (c : Chan) (l : List (Option Qty)) (v : Qty) (o : Nat) (d : Device) : (restRecord c l v o d).profs = d.profs := (restRecord_keeps ..).parts .profs rfl

/-! ### What the moves after an estimate leave of its words -/

/-- No profile changes in the words of its estimate. -/
structure KeepsEst (d e : Device) : Prop where
  same : ∀ k : Chan, estWords e.profs[k] = estWords d.profs[k]

namespace KeepsEst
variable {d e g : Device}

theorem of_eq (h : e.profs = d.profs) : KeepsEst d e := ⟨fun _ => by rw [h]⟩

theorem of_keeps {S : List Part} (k : Keeps S d e) (h : S.contains .profs = false := by rfl) : KeepsEst d e := .of_eq (k.parts .profs h)

theorem trans (h : KeepsEst d e) (k : KeepsEst e g) : KeepsEst d g := ⟨fun c => (k.same c).trans (h.same c)⟩

theorem of_gate (h : KeepsProfs d e) : KeepsEst d e := ⟨fun k => h.field k estWords⟩

theorem updProf (c : Chan) (f : ProfSt → ProfSt) (hf : ∀ p, estWords (f p) = estWords p := by intro; rfl) (d : Device) : KeepsEst d (d.updProf c f) :=
  ⟨upd_field d.profs c f estWords hf⟩

theorem ite {p : Prop} [Decidable p] (h : KeepsEst d e) (k : KeepsEst d g) : KeepsEst d (if p then e else g) := if_cases h k

theorem forEach {α : Type} {f : α → Device → Device} (hf : ∀ a d, KeepsEst d (f a d)) (l : List α) (d : Device) : KeepsEst d (Machine.forEach l f d) :=
  forEach_induct (KeepsEst d) l f (fun a _ he => he.trans (hf a _)) d (.of_eq rfl)

end KeepsEst

theorem keepsEst_closed (d : Device) : RaiseClosed (KeepsEst d) :=
  ⟨fun _ _ k h => h.trans (.of_keeps k), fun _ h => h.trans (.of_eq rfl), fun _ _ _ _ h => h.trans (.of_eq rfl),
    fun c f _ hf h => h.trans (.updProf c f (fun p => show estWords (sansPause (f p)) = estWords (sansPause p) from congrArg estWords (hf p)) _), fun _ _ _ _ _ h => h.trans (.of_eq rfl)⟩

theorem raise_est (f : Nat) (d : Device) : KeepsEst d (raise f d) := (keepsEst_closed d).raise f (.of_eq rfl)

theorem movePhase_est (c : Chan) (ph : Phase) (cause : Nat) (v : Qty) (d : Device) : KeepsEst d (movePhase c ph cause v d) := ⟨fun k => by
  by_cases hk : k = c
  · exact hk ▸ movePhase_prof c ph cause v d estWords
  · rw [(movePhase_otherChans c ph cause v d).prof k hk]⟩

theorem estimateMove_est (c : Chan) (v : Qty) (d : Device) : KeepsEst d (estimateMove c v d) := by
  have h1 (a : Qty) (x : Device) : KeepsEst x (x.updProf c fun p => { p with amp := a }) := .updProf c _ (by intro; rfl) x
  have h2 (a : Byte) (x : Device) : KeepsEst x (x.updProf c fun p => { p with doneRun := a }) := .updProf c _ (by intro; rfl) x
  unfold estimateMove
  dsimp only
  split
  · exact .ite (movePhase_est ..) (.of_eq rfl)
  · exact .ite ((h1 _ d).trans (movePhase_est ..)) (.ite (movePhase_est ..) (.of_eq rfl))
  · exact (h1 _ d).trans (.ite (movePhase_est ..) (.ite (movePhase_est ..) (.ite (.of_eq rfl) (.of_gate (applyReq_profs ..)))))
  · exact (h2 _ d).trans (.ite (movePhase_est ..) (.ite (movePhase_est ..) (.of_eq rfl)))
  · exact .of_eq rfl

theorem ovpCheck_est (c : Chan) (v : Qty) (d : Device) : KeepsEst d (ovpCheck c v d) := .ite (raise_est ..) (.of_eq rfl)

/-! ### The end of a rest (R249, R274) -/

/-- A rest, or the wait for the first pulse, ends at this instant. -/
def restClosed (c : Chan) (n : Nat) (d : Device) : Device :=
  (waitUp n d).updProf c fun p => { p with inRest := false, waitSlot := false, joinEnd := none, restEndAt := (waitUp n d).loc }

def restEnded (c : Chan) (n : Nat) (d : Device) : Device := applyReq c (restClosed c n d)

theorem reqAt1_congr {d e : Device} {c : Chan} (hm : e.memory = d.memory) (hp : (e.profs[c]).phase = (d.profs[c]).phase)
    (ha : (e.profs[c]).amp = (d.profs[c]).amp) : reqAt1 e c = reqAt1 d c := by
  have hi : iScale e c = iScale d c := by rw [iScale, iScale, Device.cf, Device.cf, hm]
  have hw (o lo w : Nat) : pfw e c o lo w = pfw d c o lo w := by simp only [pfw, profSel, Device.cf, hm]
  simp only [reqAt1, hp, ha, hi, iRec, iPulse, iFin, hw]

theorem restEnded_prof (c : Chan) (n : Nat) (d : Device) : (restEnded c n d).profs[c] = { d.profs[c] with
    inRest := false, waitSlot := false, joinEnd := none, restEndAt := (waitUp n d).loc, req1 := reqAt1 d c } := by
  have h : (restClosed c n d).profs[c] = { d.profs[c] with inRest := false, waitSlot := false, joinEnd := none, restEndAt := (waitUp n d).loc } := by
    rw [restClosed, updProf_profs, upd_same, waitUp_profs]
  rw [restEnded, applyReq, updProf_profs, upd_same, reqAt1_congr (e := restClosed c n d) (d := d) rfl (by rw [h]) (by rw [h]), h]

/-- The gate opens again and the pulse rises (R249). -/
def pulseRises (c : Chan) (d : Device) : Device := regate c (d.updChan c fun s => { s with hp := 0, hpUpAt := some d.up, hpDownAt := none })

theorem pulseRises_chan (c : Chan) (d : Device) : ((pulseRises c d).chans[c]).hpUpAt = some d.clk.up ∧ ((pulseRises c d).chans[c]).hp = 0 := by
  obtain ⟨b, h⟩ := regate_chan c (d.updChan c fun s => { s with hp := 0, hpUpAt := some d.up, hpDownAt := none })
  rw [pulseRises, h, updChan_chans, upd_same]
  exact ⟨rfl, rfl⟩

theorem pulseRises_prof (c : Chan) (d : Device) : ∃ a z, (pulseRises c d).profs[c] = { d.profs[c] with carried := a, zeroAt := z } := regate_prof ..

theorem pulseRises_clk (c : Chan) (d : Device) : (pulseRises c d).clk = d.clk := (regate_keeps c (d.updChan c _)).clk_eq

theorem restEnded_clk (c : Chan) (n : Nat) (d : Device) : (restEnded c n d).clk.up = max d.clk.up n := by rw [restEnded, applyReq, updProf_clk, restClosed, waitUp_updProf_up]

theorem restEnd_eq {c : Chan} {n : Nat} {d : Device}
    (h : (if (d.profs[c]).inRest then some ((d.profs[c]).restAt + tRest d c) else if (d.profs[c]).waitSlot then (d.profs[c]).joinEnd else none) = some n) :
    restEnd c d = pulseRises c (restEnded c n d) := by
  unfold restEnd
  dsimp only
  rw [h]
  rfl

/-- What the end of a rest or of a wait comes to. -/
theorem restEnd_does {c : Chan} {n : Nat} {d : Device}
    (h : (if (d.profs[c]).inRest then some ((d.profs[c]).restAt + tRest d c) else if (d.profs[c]).waitSlot then (d.profs[c]).joinEnd else none) = some n) :
    (restEnd c d).clk.up = max d.clk.up n ∧ ((restEnd c d).profs[c]).inRest = false ∧ ((restEnd c d).profs[c]).waitSlot = false ∧
      ((restEnd c d).profs[c]).req1 = reqAt1 d c ∧ ((restEnd c d).chans[c]).hpUpAt = some (max d.clk.up n) ∧ ((restEnd c d).chans[c]).hp = 0 := by
  obtain ⟨a, z, hp⟩ := pulseRises_prof c (restEnded c n d)
  obtain ⟨hu, hh⟩ := pulseRises_chan c (restEnded c n d)
  rw [restEnd_eq h, hp, hu, hh, pulseRises_clk, restEnded_clk, restEnded_prof]
  exact ⟨rfl, rfl, rfl, rfl, rfl, rfl⟩

/-! ### The estimate (R254) -/

theorem estimate_rising (flr : Qty) {v1 v2 v3 : Qty} (h : v1 < v2 ∨ v2 < v3) : estimate flr v1 v2 v3 = (v3, 2) := if_pos h

theorem not_rising {v1 v2 v3 : Qty} (h1 : v2 ≤ v1) (h2 : v3 ≤ v2) : ¬(v1 < v2 ∨ v2 < v3) := not_or.2 ⟨not_lt.2 h1, not_lt.2 h2⟩

theorem estimate_flat {flr v1 v2 v3 : Qty} (h1 : v2 ≤ v1) (h2 : v3 ≤ v2) (h : v1 + v3 - 2 * v2 < flr) : estimate flr v1 v2 v3 = (v3, 1) := by
  rw [estimate, if_neg (not_rising h1 h2), if_pos h]

theorem estimate_falling {flr v1 v2 v3 : Qty} (h1 : v2 ≤ v1) (h2 : v3 ≤ v2) (h : flr ≤ v1 + v3 - 2 * v2) (hf : 0 < flr) : estimate flr v1 v2 v3 =
    if v3 - (v2 - v3) ^ 2 / (v1 + v3 - 2 * v2) < v3 - (v1 - v3) then (v3 - (v1 - v3), 3) else (v3 - (v2 - v3) ^ 2 / (v1 + v3 - 2 * v2), 0) := by
  have hq : qdiv ((v2 - v3) ^ 2) (v1 + v3 - 2 * v2) = (v2 - v3) ^ 2 / (v1 + v3 - 2 * v2) := if_neg (hf.trans_le h).ne'
  rw [estimate, if_neg (not_rising h1 h2), if_neg (not_lt.2 h), hq]

theorem estimate_le {flr : Qty} (hf : 0 < flr) (v1 v2 v3 : Qty) : (estimate flr v1 v2 v3).1 ≤ v3 := by
  by_cases hr : v1 < v2 ∨ v2 < v3
  · rw [estimate_rising flr hr]
  · rw [not_or, not_lt, not_lt] at hr
    obtain ⟨h1, h2⟩ := hr
    by_cases h : v1 + v3 - 2 * v2 < flr
    · rw [estimate_flat h1 h2 h]
    · rw [not_lt] at h
      rw [estimate_falling h1 h2 h hf]
      refine if_cases (p := fun x : Qty × BitVec 2 => x.1 ≤ v3) (sub_le_self _ ?_) (sub_le_self _ ?_)
      · linarith
      · exact div_nonneg (sq_nonneg _) (hf.le.trans h)

/-- Settles O29: a rest from the ramp-down of the pulse to its end, and the estimate's four kinds. -/
theorem rests : Obligations.Rests := by
  unfold Obligations.Rests
  refine ⟨fun c u s hk hn hr hi hw hh hp => ?_, fun c u s hk hn hs hu hr hw hp => ?_, fun c u s hk hn hs hu hr hw hp => ?_, fun c u s hk hn hs hu hr => ?_,
    fun c s hk hi he hl => ?_, fun c v1 v2 v3 s hk hs he hi => ?_, fun c v1 v2 v3 s hk hs he hi => ?_, fun c x y z s hk hs hx he => ?_,
    fun c s hk hi => ?_, fun c u s hk hi hw hj => ?_, fun flr v1 v2 v3 h => ⟨estimate_rising flr h, if_pos h⟩, fun flr v1 v2 v3 h1 h2 h => estimate_flat h1 h2 h,
    fun flr v1 v2 v3 h1 h2 h hf hle => ?_, fun flr v1 v2 v3 h1 h2 h hf hlt => ?_, fun flr v1 v2 v3 hf => estimate_le hf v1 v2 v3⟩
  · obtain ⟨t, ht, hd⟩ := done_next (pulseRampDown c) s
    refine ⟨t, (execPulseRampDown_calm c s hk).trans ht, ?_⟩
    rw [hd, drive_clk, drive_chans, drive_slots, pulseRampDown_due hn hp hr hi hw hh]
    exact pulseDown_does ..
  · obtain ⟨t, ht, hd⟩ := done_next (restStart c) s
    refine ⟨t, (execRestStart_calm c s hk).trans ht, ?_⟩
    rw [hd, drive_clk, drive_chans, drive_profs, restStart_due hn hu, (restNow_keeps ..).clk_eq, waitLoc_loc, Nat.max_eq_right hu]
    exact ⟨rfl, restNow_rests hs hr hw hp⟩
  · obtain ⟨t, ht, hd⟩ := done_next (restStart c) s
    refine ⟨t, (execRestStart_calm c s hk).trans ht, ?_⟩
    have kl := launchLate_keeps (quadIsland (Chan.quad c)) ⟨.restStart c, u⟩ (pass 1 s.dev)
    have hlate := launchLate_sets c u (pass 1 s.dev)
    have hcl : (launchLate (quadIsland (Chan.quad c)) ⟨.restStart c, u⟩ (pass 1 s.dev)).clk.loc = s.dev.clk.loc + 1 := by rw [kl.clk_eq, pass_loc]
    have hch : (launchLate (quadIsland (Chan.quad c)) ⟨.restStart c, u⟩ (pass 1 s.dev)).chans = s.dev.chans := kl.parts .chans rfl
    have hpr : (launchLate (quadIsland (Chan.quad c)) ⟨.restStart c, u⟩ (pass 1 s.dev)).profs = s.dev.profs := kl.parts .profs rfl
    have hme : (launchLate (quadIsland (Chan.quad c)) ⟨.restStart c, u⟩ (pass 1 s.dev)).memory = s.dev.memory := kl.memory_eq rfl rfl rfl
    rw [hd, drive_clk, drive_profs, drive_isl, restStart_late hn hu]
    generalize launchLate (quadIsland (Chan.quad c)) ⟨.restStart c, u⟩ (pass 1 s.dev) = x at hlate hcl hch hpr hme ⊢
    have hpx : isPulsed x c = true := (isPulsed_congr hme hpr).trans hp
    have kn := restNow_keeps c x
    rw [kn.clk_eq, kn.late_eq rfl]
    exact ⟨hcl, (restNow_rests (by rw [hpr]; exact hs) (by rw [hch]; exact hr) (by rw [hpr]; exact hw) hpx).1, hlate⟩
  · obtain ⟨t, ht, hd⟩ := done_next (restStart c) s
    refine ⟨t, (execRestStart_calm c s hk).trans ht, ?_⟩
    rw [hd, drive_profs, drive_slots, restStart_due hn hu, restNow_skipped (d := waitLoc u s.dev) hs hr, updProf_profs, upd_same, restNoted_prof]
    exact ⟨rfl, rfl, rfl⟩
  · obtain ⟨t, ht, hd⟩ := done_next (restSampleEnd c) s
    refine ⟨t, (execRestSampleEnd_calm c s hk).trans ht, ?_⟩
    rw [hd, drive_clk, drive_profs, restSampleEnd_due hi he hl, sampleTaken_up, sampleTaken_prof]
    exact ⟨rfl, rfl⟩
  · obtain ⟨t, ht, hd⟩ := done_next (restEvaluation c) s
    refine ⟨t, (execRestEvaluation_calm c s hk).trans ht, ?_⟩
    rw [hd, drive_clk, drive_profs, restEvaluation_accepted hs he hi, restRecord_profs, (restRecord_keeps ..).clk_eq, (estimateMove_keeps ..).clk_eq,
      (ovpCheck_keeps ..).clk_eq, estimateTaken, updProf_clk, evaluatedAt_up]
    have h := ((ovpCheck_est c (estimate (dFloor s.dev c) v1 v2 v3).1 (estimateTaken c (estimate (dFloor s.dev c) v1 v2 v3) (decayRatio v1 v2 v3)
      (evaluatedAt c ((s.dev.profs[c]).restAt + 3 * tSamp s.dev c) s.dev))).trans (estimateMove_est c (estimate (dFloor s.dev c) v1 v2 v3).1 _)).same c
    rw [estimateTaken_words, estWords, Prod.mk.injEq, Prod.mk.injEq, Prod.mk.injEq] at h
    obtain ⟨hkind, hlast, hratio, hev⟩ := h
    exact ⟨rfl, hev, hkind, hlast, hratio⟩
  · obtain ⟨t, ht, hd⟩ := done_next (restEvaluation c) s
    refine ⟨t, (execRestEvaluation_calm c s hk).trans ht, ?_⟩
    rw [hd, drive_profs, restEvaluation_disturbed hs he hi, restRecord_profs, updProf_profs, upd_same, evaluatedAt_prof]
    exact ⟨rfl, rfl, rfl, rfl, rfl⟩
  · obtain ⟨t, ht, hd⟩ := done_next (restEvaluation c) s
    obtain ⟨o, b, h⟩ := restEvaluation_incomplete hs hx he
    refine ⟨t, (execRestEvaluation_calm c s hk).trans ht, ?_⟩
    rw [hd, drive_profs, h, restRecord_profs, updProf_profs, upd_same, evaluatedAt_prof]
    exact ⟨rfl, rfl, rfl⟩
  · obtain ⟨t, ht, hd⟩ := done_next (restEnd c) s
    obtain ⟨hup, hin, -, hreq, hrise, hhp⟩ := restEnd_does (c := c) (n := (s.dev.profs[c]).restAt + tRest s.dev c) (d := s.dev) (by rw [hi, if_pos rfl])
    refine ⟨t, (execRestEnd_calm c s hk).trans ht, ?_⟩
    rw [hd, drive_clk, drive_profs, drive_chans, hup]
    exact ⟨rfl, hin, hrise, hhp, hreq⟩
  · obtain ⟨t, ht, hd⟩ := done_next (restEnd c) s
    obtain ⟨hup, -, hwait, -, hrise, hhp⟩ := restEnd_does (c := c) (n := u) (d := s.dev) (by rw [hi, if_neg Bool.false_ne_true, hw, if_pos rfl, hj])
    refine ⟨t, (execRestEnd_calm c s hk).trans ht, ?_⟩
    rw [hd, drive_clk, drive_profs, drive_chans, hup]
    exact ⟨rfl, hwait, hrise, hhp⟩
  · rw [estimate_falling h1 h2 h hf, if_neg (not_lt.2 hle)]
  · rw [estimate_falling h1 h2 h hf, if_pos hlt]

end Sys2Proof.Machine

/-! ## From absence to insertion (08: R299, R300, R311, R315) -/

namespace Sys2Proof.Machine

/-! ### A raise that finds its path absent -/

/-- A reaction that opens a path leaves an absent one. -/
theorem react_absent (f : Nat) {c : Chan} {s : Severity} {d : Device} (hs : s ≠ .breaker) (ha : (d.paths[c]).st = .absent) : KeepsPaths d (react f (.path c) s d) := by
  have h1 : KeepsPaths d (forEach (reach d (.path c) s) (holdChan f) d) := .forEach (fun c e => holdChan_paths f c e) ..
  have h2 : (forEach (reach d (.path c) s) (holdChan f) d).paths[c].st = .absent := by
    obtain ⟨b, hb⟩ := h1.same c
    rw [hb]
    exact ha
  have h3 : pathOpen f c (forEach (reach d (.path c) s) (holdChan f) d) = forEach (reach d (.path c) s) (holdChan f) d := if_pos (.inr (.inl h2))
  unfold react
  dsimp only
  rw [if_neg hs, h3]
  exact .ite (.step (.ite h1 h1) (updCol_keeps (S := [.col]) _ fun _ => ⟨nofun, fun _ => rfl, fun _ => rfl, fun _ => rfl⟩)) (.ite h1 h1)

theorem raise_absent {f : Nat} {c : Chan} {d : Device} (hf : scopeOf f = some (.path c)) (hs : effSev d f ≠ .breaker) (ha : (d.paths[c]).st = .absent) :
    KeepsPaths d (raise f d) := by
  have h : KeepsPaths d (raiseX f false 0 d) := by
    rcases raiseX_cases f false 0 d with k | ⟨sc, hsc, -, -, he⟩
    · exact .of_keeps k
    · obtain rfl : sc = .path c := Option.some_inj.1 (hsc.symm.trans hf)
      have kr := recordRaise_keeps f (.path c) false 0 d
      have hp : (recordRaise f (.path c) false 0 d).paths = d.paths := kr.parts .paths rfl
      have hl : (latchAtStart (recordRaise f (.path c) false 0 d)).paths = d.paths := ((latchAtStart_keeps _).parts .paths rfl : _ = _).trans hp
      rw [he]
      refine KeepsPaths.ite ((react_absent f hs (by rw [hp]; exact ha)).from_eq hp)
        (.ite ((react_absent f hs (by rw [hl]; exact ha)).from_eq hl) (.ite (.of_eq hp) (.of_eq hp)))
  exact h

/-- The sources of a removed string are of a path, and of no breaker's class. -/
theorem removedScope (c : Chan) : scopeOf (0x440 + c.1) = some (.path c) := by
  revert c
  decide

theorem removed_effSev (c : Chan) (d : Device) : effSev d (0x440 + c.1) ≠ .breaker := by
  have hf : ∀ c : Chan, fixedSev (0x440 + c.1) = none := by decide
  have hd : ∀ c : Chan, defaultSev (0x440 + c.1) ≠ .breaker := by decide
  have hb : baseSev d (0x440 + c.1) ≠ .breaker := by
    unfold baseSev
    rw [hf c]
    dsimp only
    split
    case h_1 => exact hd c
    all_goals nofun
  rw [effSev, removedScope]
  exact if_cases (p := (· ≠ Severity.breaker)) nofun hb

/-- The moves of the bus leave the words of every source that is none of theirs. -/
theorem busEval_fault {g : Fsrc} (hg : ∀ f, busRaises f → g ≠ Fin.ofNat 2048 f) (d : Device) : (busEval d).faults[g] = d.faults[g] := by
  have h : BusClosed fun e => e.faults[g] = d.faults[g] := by
    refine ⟨fun a b k hp => ?_, fun f a hf hp => (raiseX_fault_other false 0 a (hg f hf)).trans hp, fun q a hp => ?_⟩
    · rw [show b.faults = a.faults from k.parts .faults rfl]; exact hp
    · rw [show (halveQuad q a).faults = a.faults from (halveQuad_keeps ..).parts .faults rfl]; exact hp
  exact h.busEval rfl

theorem removed_notBus (c : Chan) : ∀ f, busRaises f → Fin.ofNat 2048 (0x440 + c.1) ≠ Fin.ofNat 2048 f := by
  have hc := c.2
  rintro f (rfl | ⟨k, rfl⟩) he
  · have := congrArg Fin.val he
    simp only [Fin.val_ofNat] at this
    omega
  · have hk := k.2
    have := congrArg Fin.val he
    simp only [Fin.val_ofNat] at this
    omega

/-! ### The declaration of absence (R299, R313) -/

/-- The path of a string declared absent. -/
def pathAbsent (c : Chan) (ovw : Bool) (d : Device) : Device :=
  (pathZero c .absent d).updPath c fun p => { p with
    retryAt := some (d.up + tRetry d c), presentAt := none, collapseAt := none, holdOver := false, ovwHit := p.ovwHit || ovw, wasPresent := false }

/-- The channel of a string declared absent. -/
def chanAbsent (c : Chan) (d : Device) : Device :=
  if (d.chans[c]).st = .held ∨ (d.chans[c]).st = .unarmed then d
  else pauseProf c (enterCh c .absent (d.updChan c fun s => { s with icmd := 0, ibase := 0, iadd := 0, iramp := 0, istop := 0, xi := 0, xv := 0, stopCause := 5 }))

theorem declareAbsent_eq (c : Chan) (d : Device) : declareAbsent c false d =
    if decide ((d.paths[c]).st = .wait) && !(d.paths[c]).wasPresent then chanAbsent c (pathAbsent c false d) else raise (0x440 + c.1) (chanAbsent c (pathAbsent c false d)) := rfl

theorem chanAbsent_keeps (c : Chan) (d : Device) : Keeps [.slots, .chans, .profs, .paths] d (chanAbsent c d) :=
  if_cases (p := Keeps [.slots, .chans, .profs, .paths] d) (.refl ..)
    (((pauseProf_keeps ..).mono rfl : Keeps [.slots, .chans, .profs, .paths] _ _).after (((enterCh_keeps ..).mono rfl : Keeps [.slots, .chans, .profs, .paths] _ _).after
      ((updChan_keeps ..).mono rfl) rfl) rfl)

theorem chanAbsent_paths (c : Chan) (d : Device) : KeepsPaths d (chanAbsent c d) :=
  .ite (.of_eq rfl) (((KeepsPaths.of_eq (updChan_paths ..)).trans (enterCh_paths ..)).step (pauseProf_keeps ..))

theorem pathAbsent_path (c : Chan) (d : Device) : ((pathAbsent c false d).paths[c]).st = .absent ∧ ((pathAbsent c false d).paths[c]).g = 0 ∧
    ((pathAbsent c false d).paths[c]).retryAt = some (d.clk.up + tRetry d c) := by
  rw [pathAbsent, updPath_paths, upd_same, pathZero, updPath_paths, upd_same]
  exact ⟨rfl, rfl, rfl⟩

theorem pathAbsent_faults (c : Chan) (d : Device) : (pathAbsent c false d).faults = d.faults := rfl

theorem absent_path (c : Chan) (d : Device) : ((chanAbsent c (pathAbsent c false d)).paths[c]).st = .absent ∧ ((chanAbsent c (pathAbsent c false d)).paths[c]).g = 0 ∧
    ((chanAbsent c (pathAbsent c false d)).paths[c]).retryAt = some (d.clk.up + tRetry d c) := by
  obtain ⟨b, hb⟩ := (chanAbsent_paths c (pathAbsent c false d)).same c
  rw [hb]
  exact pathAbsent_path c d

theorem absent_faults (c : Chan) (d : Device) : (chanAbsent c (pathAbsent c false d)).faults = d.faults := (chanAbsent_keeps ..).parts .faults rfl

theorem absent_clk (c : Chan) (d : Device) : (chanAbsent c (pathAbsent c false d)).clk = d.clk := (chanAbsent_keeps ..).clk_eq

/-- A string declared absent after one was present: the path, and the count of its source. -/
theorem declareAbsent_raises {c : Chan} {d : Device} (hc : colRuns d = true) (hq : (d.paths[c]).st ≠ .wait) :
    ((declareAbsent c false d).paths[c]).st = .absent ∧ ((declareAbsent c false d).paths[c]).g = 0 ∧
      ((declareAbsent c false d).paths[c]).retryAt = some (d.clk.up + tRetry d c) ∧ (declareAbsent c false d).clk = d.clk ∧
      ((declareAbsent c false d).faults[Fin.ofNat 2048 (0x440 + c.1)]).count = raisedCount d (0x440 + c.1) := by
  obtain ⟨hst, hg, hr⟩ := absent_path c d
  have he : declareAbsent c false d = raise (0x440 + c.1) (chanAbsent c (pathAbsent c false d)) := by
    rw [declareAbsent_eq, decide_eq_false hq]
    rfl
  obtain ⟨b, hb⟩ := (raise_absent (removedScope c) (removed_effSev c _) hst).same c
  have hcr : colRuns (chanAbsent c (pathAbsent c false d)) = true := ((chanAbsent_keeps ..).colRuns_eq rfl).trans hc
  have hn := raise_count (removedScope c) hcr
  rw [raisedCount, absent_faults] at hn
  rw [he, hb, (raise_keeps ..).clk_eq, absent_clk]
  exact ⟨hst, hg, hr, rfl, hn⟩

theorem declareAbsent_quiet {c : Chan} {d : Device} (hw : (d.paths[c]).st = .wait) (hp : (d.paths[c]).wasPresent = false) :
    ((declareAbsent c false d).paths[c]).st = .absent ∧ (declareAbsent c false d).faults = d.faults := by
  have he : declareAbsent c false d = chanAbsent c (pathAbsent c false d) := by
    rw [declareAbsent_eq, decide_eq_true hw, hp]
    rfl
  rw [he]
  exact ⟨(absent_path c d).1, absent_faults c d⟩

theorem stringLow_due {c : Chan} {u : Nat} {d : Device} (hl : (d.paths[c]).lowAt = some u) (hs : (d.paths[c]).st = .wait ∨ (d.paths[c]).st = .block) :
    stringLow c d = declareAbsent c false (waitUp (u + 50 * ms) d) := by
  rw [stringLow, hl]
  exact if_pos hs

/-! ### The retry, presence and the gate test (R299, R311, R315) -/

theorem retryTimer_due {c : Chan} {u : Nat} {d : Device} (hs : (d.paths[c]).st = .absent) (hr : (d.paths[c]).retryAt = some u) :
    retryTimer c d = (waitUp u d).updPath c fun p => { p with st := .wait, retryAt := none, presentAt := none, lowAt := none, wasPresent := false } := by
  rw [retryTimer, hs, hr]

theorem presenceConfirmed_due {c : Chan} {u : Nat} {d : Device} (hs : (d.paths[c]).st = .wait) (hp : (d.paths[c]).presentAt = some u) :
    presenceConfirmed c d = tryInsert c (waitUp (u + 50 * ms) d) := by
  rw [presenceConfirmed, hs, hp]

/-- An insertion that nothing bars begins the gate test. -/
theorem tryInsert_tests {c : Chan} {u : Nat} {d : Device} (hs : (d.paths[c]).st = .wait) (hp : (d.paths[c]).presentAt = some u) (hu : u + 50 * ms ≤ d.clk.up)
    (hr : roleLost d (vstrOf d c) = false) (hh : (d.paths[c]).hmem < 1 / 2) (hl : (d.paths[c]).latched = false) (hq : (d.quads[Chan.quad c]).stale = false) :
    ((tryInsert c d).paths[c]).st = .gtest ∧ ((tryInsert c d).paths[c]).g = 0 ∧ ((tryInsert c d).paths[c]).gAt = d.clk.up ∧ (tryInsert c d).clk = d.clk := by
  have he : tryInsert c d = (d.updPath c fun p => { p with wasPresent := true }).updPath c fun p =>
      { p with st := .gtest, g := 0, gAt := d.up, checkAt := none, passed := false, lowAt := none } := by
    unfold tryInsert
    dsimp only
    rw [hs, hp]
    exact (if_pos ⟨hu, hr⟩).trans (if_pos ⟨hh, hl, hq⟩)
  rw [he, updPath_paths, upd_same]
  exact ⟨rfl, rfl, rfl, rfl⟩

/-- A latched path stays in WAIT. -/
theorem tryInsert_latched {c : Chan} {d : Device} (hl : (d.paths[c]).latched = true) :
    ((tryInsert c d).paths[c]).st = (d.paths[c]).st ∧ ((tryInsert c d).paths[c]).g = (d.paths[c]).g := by
  have h (x : Device) (hx : x = d.updPath c fun p => { p with wasPresent := true }) : (x.paths[c]).st = (d.paths[c]).st ∧ (x.paths[c]).g = (d.paths[c]).g := by
    rw [hx, updPath_paths, upd_same]
    exact ⟨rfl, rfl⟩
  unfold tryInsert
  dsimp only
  split
  · refine if_cases (p := fun x : Device => (x.paths[c]).st = (d.paths[c]).st ∧ (x.paths[c]).g = (d.paths[c]).g) ?_ ⟨rfl, rfl⟩
    rw [if_neg fun hn => by rw [hl] at hn; exact Bool.false_ne_true hn.2.1.symm]
    exact h _ rfl
  · exact ⟨rfl, rfl⟩

theorem roleLost_waitUp (n : Nat) (c : Chan) (d : Device) : roleLost (waitUp n d) (vstrOf (waitUp n d) c) = roleLost d (vstrOf d c) := rfl

theorem tRetry_waitUp (n : Nat) (c : Chan) (d : Device) : tRetry (waitUp n d) c = tRetry d c := rfl

theorem raisedCount_waitUp (n f : Nat) (d : Device) : raisedCount (waitUp n d) f = raisedCount d f := rfl

theorem colRuns_waitUp (n : Nat) (d : Device) : colRuns (waitUp n d) = colRuns d := rfl

theorem pathFeedback_inserts {c : Chan} {u : Nat} {d : Device} (hs : (d.paths[c]).st = .gtest) (hk : (d.paths[c]).checkAt = some u) (hu : u ≤ d.clk.up) :
    ((pathFeedback c true d).paths[c]).fbHigh = true ∧ ((pathFeedback c true d).paths[c]).st = .block ∧ ((pathFeedback c true d).paths[c]).g = 0 := by
  have hl : (match (d.paths[c]).checkAt with | some t => decide (t ≤ d.up) | none => false) = true := by
    rw [hk]
    exact decide_eq_true hu
  have he : ∃ b : PathSt → Bool, pathFeedback c true d = inserted c (d.updPath c fun x => { x with fbHigh := true, passed := b x }) := ⟨_, if_pos ⟨hs, hl, rfl⟩⟩
  obtain ⟨b, he⟩ := he
  rw [he, inserted, updPath_paths, upd_same, pathZero, updPath_paths, upd_same, updPath_paths, upd_same]
  exact ⟨rfl, rfl, rfl⟩

/-- Settles O31: each move from absence to insertion, and the two ends of a string that stays low. -/
theorem insertion : Obligations.Insertion := by
  unfold Obligations.Insertion
  refine ⟨fun c u s hk hs hr => ?_, fun c u s hk hs hp hr hh hl hq => ?_, fun c u s hk hs hp hl => ?_, fun c u s hs hk hu hb ha => ?_, fun c u s hk hc hs hl => ?_,
    fun c u s hk hs hl hp => ?_⟩
  · obtain ⟨t, ht, hd⟩ := done_next (retryTimer c) s
    refine ⟨t, (execRetryTimerExpiry_calm c s hk).trans ht, ?_⟩
    rw [hd, drive_clk, drive_paths, retryTimer_due hs hr, updPath_clk, waitUp_up, updPath_paths, upd_same]
    exact ⟨rfl, rfl, rfl, rfl, fun k hk => by rw [upd_other _ _ _ _ hk, waitUp_paths]⟩
  · obtain ⟨t, ht, hd⟩ := done_next (presenceConfirmed c) s
    obtain ⟨h1, h2, h3, h4⟩ := tryInsert_tests (d := waitUp (u + 50 * ms) s.dev) (c := c) (u := u) (by rw [waitUp_paths]; exact hs) (by rw [waitUp_paths]; exact hp)
      (by rw [waitUp_up]; exact le_max_right ..) ((roleLost_waitUp ..).trans hr) (by rw [waitUp_paths]; exact hh) (by rw [waitUp_paths]; exact hl)
      (by rw [waitUp_quads]; exact hq)
    refine ⟨t, (execPresenceConfirmed_calm c s hk).trans ht, ?_⟩
    rw [hd, drive_clk, drive_paths, presenceConfirmed_due hs hp, h1, h2, h3, h4, waitUp_up]
    exact ⟨rfl, rfl, rfl, rfl⟩
  · obtain ⟨t, ht, hd⟩ := done_next (presenceConfirmed c) s
    obtain ⟨h1, h2⟩ := tryInsert_latched (d := waitUp (u + 50 * ms) s.dev) (c := c) (by rw [waitUp_paths]; exact hl)
    refine ⟨t, (execPresenceConfirmed_calm c s hk).trans ht, ?_⟩
    rw [hd, drive_paths, presenceConfirmed_due hs hp, h1, h2, waitUp_paths]
    exact ⟨hs, rfl⟩
  · obtain ⟨t, ht, hd⟩ := done_next (gateFeedback (.path c) true) s
    obtain ⟨h1, h2, h3⟩ := pathFeedback_inserts hs hk hu
    have kf := pathFeedback_keeps c true s.dev
    have hbus : (pathFeedback c true s.dev).bus = s.dev.bus := kf.parts .bus rfl
    have hsrc : (pathFeedback c true s.dev).srcs = s.dev.srcs := kf.parts .srcs rfl
    have hch : (pathFeedback c true s.dev).chans = s.dev.chans := kf.parts .chans rfl
    have hset : busSettled (pathFeedback c true s.dev) = true := by
      rw [busSettled, hbus, hb]
      rw [anyAdmitted] at ha ⊢
      rw [hsrc]
      exact ha
    refine ⟨t, ht, ?_⟩
    rw [hd, drive_paths, drive_chans, gateFeedback, busEval_settled hset]
    exact ⟨h1, h2, h3, hch⟩
  · obtain ⟨t, ht, hd⟩ := done_next (fun d => busEval (stringLow c d)) s
    obtain ⟨h1, h2, h3, h4, h5⟩ := declareAbsent_raises (d := waitUp (u + 50 * ms) s.dev) (c := c) ((colRuns_waitUp ..).trans hc) (by rw [waitUp_paths, hs]; nofun)
    rw [tRetry_waitUp] at h3
    rw [raisedCount_waitUp] at h5
    have hup : (declareAbsent c false (waitUp (u + 50 * ms) s.dev)).clk.up = max s.dev.clk.up (u + 50 * ms) := by rw [h4, waitUp_up]
    rw [← congrArg Clocks.up h4] at h3
    obtain ⟨b, hb⟩ := (busEval_paths (declareAbsent c false (waitUp (u + 50 * ms) s.dev))).same c
    refine ⟨t, (execStringLowTimeout_calm c s hk).trans ht, ?_⟩
    rw [hd, drive_clk, drive_paths, drive_faults, stringLow_due hl (.inr hs), hb, (busEval_keeps ..).clk_eq, busEval_fault (removed_notBus c)]
    exact ⟨hup, h1, h2, h3, h5⟩
  · obtain ⟨t, ht, hd⟩ := done_next (fun d => busEval (stringLow c d)) s
    obtain ⟨h1, h2⟩ := declareAbsent_quiet (d := waitUp (u + 50 * ms) s.dev) (c := c) (by rw [waitUp_paths]; exact hs) (by rw [waitUp_paths]; exact hp)
    obtain ⟨b, hb⟩ := (busEval_paths (declareAbsent c false (waitUp (u + 50 * ms) s.dev))).same c
    refine ⟨t, (execStringLowTimeout_calm c s hk).trans ht, ?_⟩
    rw [hd, drive_paths, drive_faults, stringLow_due hl (.inl hs), hb, busEval_fault (removed_notBus c), h2, waitUp_faults]
    exact ⟨h1, rfl⟩

end Sys2Proof.Machine

/-! ## The capture reader, driver faults, a carrier reset (05: R181, R197, R198, R205) -/

namespace Sys2Proof.Machine

/-! ### What shedding and the start of a channel leave of the outputs and of the masters -/

/-- A predicate that the operations of a raise and those of shedding keep. -/
structure ReactionClosed (P : Device → Prop) : Prop extends RaiseClosed P where
  crosses : ∀ d e, Keeps [.arbs, .isl, .log] d e → P d → P e
  shedSlot : ∀ (n : Slot) (f : SlotSt → SlotSt) d, (∀ s, (f s).pinA = s.pinA ∧ (f s).pinB = s.pinB) → P d → P (d.updSlot n f)

namespace ReactionClosed
variable {P : Device → Prop} (h : ReactionClosed P) {d : Device}
include h

theorem shed (test : Nat) (c : Chan) (n : Slot) (hp : P d) : P (shed test c n d) := by
  unfold Machine.shed
  dsimp only
  have h1 (f : SlotSt → SlotSt) (hf : ∀ s, (f s).pinA = s.pinA ∧ (f s).pinB = s.pinB) : P (((Machine.slotOff n d).updSlot n f).updChan c fun s =>
      { s with shedCnt := satInc s.shedCnt }) := h.chan c _ _ (fun _ => rfl) (h.shedSlot n f _ hf (h.slotOff n hp))
  have h2 (b : Prop) [Decidable b] (q : Quad) (a0 a1 : Nat) (e : Device) (he : P e) : P (if b then quadEvent q 0x0703 a0 a1 0 e else e) :=
    if_cases (p := P) (h.crosses _ _ (quadEvent_keeps ..) he) he
  have h3 (x : Device) (hx : P x) : P (if members x c = [] then Machine.raise (0x3A0 + c.1)
      (if ((x.updChan c fun s => { s with noMember := true }).chans[c]).st.switching ∨ ((x.updChan c fun s => { s with noMember := true }).chans[c]).st = .off then
        Machine.enterCh c .off (x.updChan c fun s => { s with noMember := true }) else x.updChan c fun s => { s with noMember := true }) else x) := by
    have h4 : P (x.updChan c fun s => { s with noMember := true }) := h.chan c _ _ (fun _ => rfl) hx
    exact if_cases (p := P) (h.raise _ (if_cases (p := P) (h.enterCh c .off h4) h4)) hx
  exact h3 _ (h.raise _ (h2 _ _ _ _ _ (h1 _ fun _ => ⟨rfl, rfl⟩)))

theorem chanStart (c : Chan) (hp : P d) : P (chanStart c d) := by
  unfold Machine.chanStart
  dsimp only
  refine if_cases (p := P) ?_ hp
  have h1 : P (pathArm c (Machine.enterCh c .off d)) := h.keeps _ _ ((pathArm_keeps ..).mono rfl) (h.enterCh c .off hp)
  have h2 (x : Device) (hx : P x) : P (shedHigh c x) := forEach_induct P _ _ (fun n _ he => h.shed 4 c n he) _ hx
  exact forEach_induct P _ _ (fun f _ he => h.holdChan f c he) _ (h2 _ (if_cases (p := P) (h.pauseProf c h1) h1))

end ReactionClosed

/-- The outputs of a slot that are low stay low. -/
theorem SlotLow.congr {n : Slot} {d e : Device} (h : SlotLow n d) (he : e.slots = d.slots) : SlotLow n e := ⟨by rw [he]; exact h.a, by rw [he]; exact h.b⟩

theorem SlotLow.updSlot {n k : Slot} {f : SlotSt → SlotSt} {d : Device} (h : SlotLow n d) (hf : LeavesLow f) : SlotLow n (d.updSlot k f) := by
  by_cases hk : n = k
  · subst hk
    obtain ⟨ha, hb⟩ := hf _ h.a h.b
    exact ⟨by rw [updSlot_slots, upd_same]; exact ha, by rw [updSlot_slots, upd_same]; exact hb⟩
  · exact ⟨by rw [updSlot_slots, upd_other _ _ _ _ hk]; exact h.a, by rw [updSlot_slots, upd_other _ _ _ _ hk]; exact h.b⟩

theorem slotLow_closed (n : Slot) : ReactionClosed (SlotLow n) where
  keeps _ _ k hp := hp.congr (k.parts .slots rfl)
  latch _ hp := hp.congr rfl
  chan _ _ _ _ hp := hp.congr rfl
  prof _ _ _ _ hp := hp.congr rfl
  slot _ _ _ hf _ hp := hp.updSlot hf
  crosses _ _ k hp := hp.congr (k.parts .slots rfl)
  shedSlot _ _ _ hf hp := hp.updSlot fun s ha hb => ⟨(hf s).1.trans ha, (hf s).2.trans hb⟩

/-- The master of a channel waits for its start. -/
structure MasterWaits (c : Chan) (d : Device) : Prop where
  stopped : (d.chans[c]).running = false
  waits : (d.chans[c]).waiting = true

theorem MasterWaits.congr {c : Chan} {d e : Device} (h : MasterWaits c d) (he : e.chans = d.chans) : MasterWaits c e :=
  ⟨by rw [he]; exact h.stopped, by rw [he]; exact h.waits⟩

theorem masterWaits_closed (c : Chan) : ReactionClosed (MasterWaits c) where
  keeps _ _ k hp := hp.congr (k.parts .chans rfl)
  latch _ hp := hp.congr rfl
  chan k f d hf hp := ⟨(upd_field d.chans k f ChanSt.running (fun s => show (sansHold (f s)).running = (sansHold s).running from congrArg ChanSt.running (hf s)) c).trans hp.stopped,
    (upd_field d.chans k f ChanSt.waiting (fun s => show (sansHold (f s)).waiting = (sansHold s).waiting from congrArg ChanSt.waiting (hf s)) c).trans hp.waits⟩
  prof _ _ _ _ hp := hp.congr rfl
  slot _ _ _ _ _ hp := hp.congr rfl
  crosses _ _ k hp := hp.congr (k.parts .chans rfl)
  shedSlot _ _ _ _ hp := hp.congr rfl

/-! ### The capture reader (R197 to R199) -/

/-- An operation repeated over a list without repetition comes to each of its instances once. -/
theorem forEach_once {α : Type} {R : α → Device → Device → Prop} {f : α → Device → Device} (hr : ∀ a d, R a d d) (ht : ∀ a d e g, R a d e → R a e g → R a d g)
    (hf : ∀ a b d, b ≠ a → R a d (f b d)) {a : α} {l : List α} (hn : l.Nodup) (ha : a ∈ l) : ∀ d, ∃ e, R a d e ∧ R a (f a e) (forEach l f d) := by
  induction l with
  | nil => cases ha
  | cons b l ih =>
    intro d
    obtain ⟨hb, hn⟩ := List.nodup_cons.1 hn
    have hrest (l : List α) (hl : a ∉ l) (x : Device) : R a x (forEach l f x) := by
      induction l generalizing x with
      | nil => exact hr a x
      | cons k l il =>
        rw [List.mem_cons, not_or] at hl
        exact ht a _ _ _ (hf a k x (Ne.symm hl.1)) (il hl.2 _)
    by_cases hab : a = b
    · subst hab
      exact ⟨d, hr a d, hrest l hb _⟩
    · obtain ⟨e, h1, h2⟩ := ih hn ((List.mem_cons.1 ha).resolve_left hab) (f b d)
      exact ⟨e, ht a _ _ _ (hf a b d (Ne.symm hab)) h1, h2⟩

theorem forEach_skips {α : Type} {P : Device → Prop} {f : α → Device → Device} {l : List α} (hf : ∀ a ∈ l, ∀ d, P d → P (f a d)) : ∀ d, P d → P (forEach l f d) := by
  induction l with
  | nil => exact fun _ h => h
  | cons a l ih => exact fun d h => ih (fun b hb => hf b (List.mem_cons_of_mem _ hb)) _ (hf a List.mem_cons_self d h)

theorem members_nodup (d : Device) (c : Chan) : (members d c).Nodup := ((List.nodup_finRange 136).filter _).filter _

/-- The words of a slot's capture. -/
def capWords (s : SlotSt) : Bool × Bool × CapSet × CapSet := (s.new, s.overcap, s.readable, s.shadow)

/-- The estimates of the balance from a mean. -/
def balanceAll (ms : List Slot) (mean : Qty) (d : Device) : Device :=
  forEach ms (fun n d => d.updSlot n fun s => { s with balErr := satInt (qRound (s.tonAvg - mean)) (-32767) 32767 }) d

theorem carrierPeak_due {c : Chan} {d : Device} (h : (d.chans[c]).running = true) : ∃ mean : Qty, carrierPeak c d =
    balanceAll (members (waitUp ((d.chans[c]).due - (d.chans[c]).m) d) c) mean
      (forEach (members (waitUp ((d.chans[c]).due - (d.chans[c]).m) d) c) readMember (waitUp ((d.chans[c]).due - (d.chans[c]).m) d)) := ⟨_, if_pos h⟩

theorem balanceAll_words (ms : List Slot) (mean : Qty) (n : Slot) (d : Device) : capWords (balanceAll ms mean d).slots[n] = capWords d.slots[n] :=
  forEach_induct (fun e => capWords e.slots[n] = capWords d.slots[n]) ms _
    (fun k e he => (upd_field e.slots k (fun s => { s with balErr := satInt (qRound (s.tonAvg - mean)) (-32767) 32767 }) capWords (fun _ => rfl) n).trans he) d rfl

theorem balanceAll_clk (ms : List Slot) (mean : Qty) (d : Device) : (balanceAll ms mean d).clk = d.clk := by
  refine forEach_induct (fun e => e.clk = d.clk) ms _ ?_ d rfl
  exact fun _ _ he => he

theorem readMembers_clk (ms : List Slot) (d : Device) : (forEach ms readMember d).clk = d.clk := by
  refine forEach_induct (fun e => e.clk = d.clk) ms _ ?_ d rfl
  exact fun _ _ he => he

theorem readMember_words (n : Slot) (d : Device) : capWords (readMember n d).slots[n] =
    ((beforeCapture d.up d.slots[n]).2.isSome, false, captureRead (beforeCapture d.up d.slots[n]).1,
      (beforeCapture d.up d.slots[n]).2.getD (beforeCapture d.up d.slots[n]).1.shadow) := by
  rw [readMember, updSlot_slots, upd_same]
  rfl

/-- Each member's capture is read once, from what it held at that instant. -/
theorem readMembers_words {n : Slot} {ms : List Slot} (hn : ms.Nodup) (h : n ∈ ms) (d : Device) : capWords (forEach ms readMember d).slots[n] =
    ((beforeCapture d.up d.slots[n]).2.isSome, false, captureRead (beforeCapture d.up d.slots[n]).1,
      (beforeCapture d.up d.slots[n]).2.getD (beforeCapture d.up d.slots[n]).1.shadow) := by
  obtain ⟨e, ⟨hc, hs⟩, -, hr⟩ := forEach_once (R := fun n (d e : Device) => e.clk = d.clk ∧ e.slots[n] = d.slots[n]) (f := readMember) (fun _ _ => ⟨rfl, rfl⟩)
    (fun _ _ _ _ h k => ⟨k.1.trans h.1, k.2.trans h.2⟩) (fun a b d hb => ⟨rfl, upd_other _ _ _ _ (Ne.symm hb)⟩) hn h d
  have hu : e.up = d.up := congrArg Clocks.up hc
  rw [hr, readMember_words, hs, hu]

theorem carrierPeak_other {c : Chan} {n : Slot} {d : Device} (hr : (d.chans[c]).running = true) (hn : n ∉ members (waitUp ((d.chans[c]).due - (d.chans[c]).m) d) c) :
    (carrierPeak c d).slots[n] = d.slots[n] := by
  obtain ⟨mean, he⟩ := carrierPeak_due hr
  have hne {k : Slot} (hk : k ∈ members (waitUp ((d.chans[c]).due - (d.chans[c]).m) d) c) : n ≠ k := fun h => hn (h ▸ hk)
  rw [he]
  refine forEach_skips (P := fun e => e.slots[n] = d.slots[n]) (fun k hk e h => (upd_other _ _ _ _ (hne hk)).trans h) _ ?_
  refine forEach_skips (P := fun e => e.slots[n] = d.slots[n]) (fun k hk e h => (upd_other _ _ _ _ (hne hk)).trans h) _ ?_
  rw [waitUp_slots]

theorem carrierPeak_clk {c : Chan} {d : Device} (hr : (d.chans[c]).running = true) : (carrierPeak c d).clk.up = max d.clk.up ((d.chans[c]).due - (d.chans[c]).m) := by
  obtain ⟨mean, he⟩ := carrierPeak_due hr
  rw [he, balanceAll_clk, readMembers_clk, waitUp_up]

theorem carrierPeak_words {c : Chan} {n : Slot} {d : Device} (hr : (d.chans[c]).running = true) (hn : n ∈ members (waitUp ((d.chans[c]).due - (d.chans[c]).m) d) c) :
    capWords (carrierPeak c d).slots[n] =
      ((beforeCapture (carrierPeak c d).clk.up d.slots[n]).2.isSome, false, captureRead (beforeCapture (carrierPeak c d).clk.up d.slots[n]).1,
        (beforeCapture (carrierPeak c d).clk.up d.slots[n]).2.getD (beforeCapture (carrierPeak c d).clk.up d.slots[n]).1.shadow) := by
  obtain ⟨mean, he⟩ := carrierPeak_due hr
  have hu : (waitUp ((d.chans[c]).due - (d.chans[c]).m) d).up = (carrierPeak c d).clk.up := by
    rw [he, balanceAll_clk, readMembers_clk]
    rfl
  have h1 := balanceAll_words (members (waitUp ((d.chans[c]).due - (d.chans[c]).m) d) c) mean n
    (forEach (members (waitUp ((d.chans[c]).due - (d.chans[c]).m) d) c) readMember (waitUp ((d.chans[c]).due - (d.chans[c]).m) d))
  rw [← he, readMembers_words (members_nodup ..) hn, hu, waitUp_slots] at h1
  exact h1

theorem beforeCapture_none {now : Nat} {s : SlotSt} (h : s.capPrev.map (·.1) ≠ some now) : beforeCapture now s = (s, none) := by
  unfold beforeCapture
  split
  · next hp =>
    rw [hp, Option.map_some, Ne, Option.some_inj] at h
    rw [if_neg h]
  · rfl

theorem beforeCapture_some {now : Nat} {s : SlotSt} {sh : CapSet} {nw oc : Bool} {cnt : Halfword} (h : s.capPrev = some (now, sh, nw, oc, cnt)) :
    beforeCapture now s = ({ s with shadow := sh, new := nw, overcap := oc, overcapCnt := cnt }, some s.shadow) := by
  unfold beforeCapture
  rw [h]
  exact if_pos rfl

theorem members_waitUp (u : Nat) (c : Chan) (d : Device) : members (waitUp u d) c = members d c := rfl

/-! ### Driver faults (R205) -/

theorem raiseLevel_raises {f : Nat} {sc : Scope} (x : Nat) {d : Device} (hs : scopeOf f = some sc) (hc : colRuns d = true) (hi : inverted d f = false) :
    ((raiseLevel f x d).faults[Fin.ofNat 2048 f]).active = true := by
  have he : raiseLevel f x d = if (d.faults[Fin.ofNat 2048 f]).active then d.updFault (Fin.ofNat 2048 f) fun y => { y with level := true } else
      raiseX f true x d := if_neg (by rw [hi]; exact Bool.false_ne_true)
  cases ha : (d.faults[Fin.ofNat 2048 f]).active with
  | true =>
    rw [he, if_pos ha, updFault_faults, upd_same]
    exact ha
  | false =>
    rw [he, if_neg (by rw [ha]; exact Bool.false_ne_true)]
    obtain ⟨b, hf⟩ := raiseX_fault (level := true) (x := x) hs hc ha
    rw [hf]
    simp only [raisedFault, Bool.or_true]

/-- Shedding raises two sources only. -/
theorem shed_fault {test : Nat} {c : Chan} {n : Slot} {g : Fsrc} (h1 : g ≠ Fin.ofNat 2048 n.1) (h2 : g ≠ Fin.ofNat 2048 (0x3A0 + c.1)) (d : Device) :
    (shed test c n d).faults[g] = d.faults[g] := by
  have hr {f : Nat} (hf : g ≠ Fin.ofNat 2048 f) (x : Device) : (raise f x).faults[g] = x.faults[g] := raiseX_fault_other false 0 x hf
  have he (st : ChState) (x : Device) : (enterCh c st x).faults = x.faults := (enterCh_keeps ..).parts .faults rfl
  have hq (q : Quad) (a0 a1 a2 a3 : Nat) (x : Device) : (quadEvent q a0 a1 a2 a3 x).faults = x.faults := (quadEvent_keeps ..).parts .faults rfl
  have hso : (slotOff n d).faults = d.faults := (slotOff_keeps ..).parts .faults rfl
  unfold shed
  dsimp only
  refine if_cases (p := fun x : Device => x.faults[g] = d.faults[g]) ?_ ?_
  · rw [hr h2]
    refine if_cases (p := fun x : Device => x.faults[g] = d.faults[g]) ?_ ?_
    · rw [he, updChan_faults, hr h1]
      exact if_cases (p := fun x : Device => x.faults[g] = d.faults[g]) (by rw [hq, updChan_faults, updSlot_faults, hso]) (by rw [updChan_faults, updSlot_faults, hso])
    · rw [updChan_faults, hr h1]
      exact if_cases (p := fun x : Device => x.faults[g] = d.faults[g]) (by rw [hq, updChan_faults, updSlot_faults, hso]) (by rw [updChan_faults, updSlot_faults, hso])
  · rw [hr h1]
    exact if_cases (p := fun x : Device => x.faults[g] = d.faults[g]) (by rw [hq, updChan_faults, updSlot_faults, hso]) (by rw [updChan_faults, updSlot_faults, hso])

/-- A driver fault that is long enough, as it reaches its slot. -/
def dfltSet (n : Slot) (d : Device) : Device := (slotOff n d).updSlot n fun s => { s with dflt := true, dfltSeen := true }

theorem dfltHigh_eq {n : Slot} {ns : Nat} (h : 10 ≤ ns) (d : Device) : dfltHigh n ns d = match memberOf (raiseLevel (0x090 + n.1) 0 (dfltSet n d)) n with
    | some c => shed 4 c n (raiseLevel (0x090 + n.1) 0 (dfltSet n d))
    | none => raiseLevel (0x090 + n.1) 0 (dfltSet n d) := if_neg (Nat.not_lt.2 h)

theorem dfltSet_low (n : Slot) (d : Device) : SlotLow n (dfltSet n d) := by
  constructor <;> rw [dfltSet, slotOff, updSlot_slots, upd_same, updSlot_slots, upd_same]

theorem dfltHigh_low {n : Slot} {ns : Nat} (h : 10 ≤ ns) (d : Device) : SlotLow n (dfltHigh n ns d) := by
  have h1 := (slotLow_closed n).raiseLevel (0x090 + n.1) 0 (dfltSet_low n d)
  rw [dfltHigh_eq h]
  split
  · exact (slotLow_closed n).shed 4 _ n h1
  · exact h1

theorem dfltScope (n : Slot) : scopeOf (0x090 + n.1) = some (.slot n) := by
  revert n
  decide

theorem dfltHigh_active {n : Slot} {ns : Nat} (h : 10 ≤ ns) {d : Device} (hc : colRuns d = true) (hi : inverted d (0x090 + n.1) = false) :
    ((dfltHigh n ns d).faults[Fin.ofNat 2048 (0x090 + n.1)]).active = true := by
  have hn := n.2
  have hk := slotOff_keeps n d
  have hf : (slotOff n d).faults = d.faults := hk.parts .faults rfl
  have hrun : colRuns (dfltSet n d) = colRuns (slotOff n d) := rfl
  have hinv : inverted (dfltSet n d) (0x090 + n.1) = inverted (slotOff n d) (0x090 + n.1) := rfl
  have hi' : inverted (dfltSet n d) (0x090 + n.1) = false := by
    rw [hinv, inverted, hk.fiMode_eq, hf]
    exact hi
  have h1 := raiseLevel_raises 0 (dfltScope n) (hrun.trans ((hk.colRuns_eq rfl).trans hc)) hi'
  rw [dfltHigh_eq h]
  split
  · next c _ =>
    have hcc := c.2
    rw [shed_fault (fun he => ?_) (fun he => ?_)]
    · exact h1
    · have := congrArg Fin.val he
      simp only [Fin.val_ofNat] at this
      omega
    · have := congrArg Fin.val he
      simp only [Fin.val_ofNat] at this
      omega
  · exact h1

/-! ### A carrier reset (R181) -/

theorem stopMaster_waits (c : Chan) (d : Device) : MasterWaits c (stopMaster c d) := by
  unfold stopMaster
  dsimp only
  refine forEach_induct (MasterWaits c) _ _ (fun n e he => he.congr ?_) _ ⟨by rw [updChan_chans, upd_same], by rw [updChan_chans, upd_same]⟩
  exact (slotOff_keeps ..).parts .chans rfl

theorem stopMaster_keepsWaits (c k : Chan) (d : Device) (h : MasterWaits c d) : MasterWaits c (stopMaster k d) := by
  by_cases hk : c = k
  · exact hk ▸ stopMaster_waits c d
  · unfold stopMaster
    dsimp only
    refine forEach_induct (MasterWaits c) _ _ (fun n e he => he.congr (by exact (slotOff_keeps ..).parts .chans rfl)) _ ⟨?_, ?_⟩
    · rw [updChan_chans, upd_other _ _ _ _ hk]; exact h.stopped
    · rw [updChan_chans, upd_other _ _ _ _ hk]; exact h.waits

/-- The timer of a quadrant starts its first cycle. -/
structure TimerStarted (q : Quad) (u p : Nat) (d : Device) : Prop where
  runs : (d.quads[q]).running = true
  due : (d.quads[q]).due = u + 2 * p

theorem TimerStarted.congr {q : Quad} {u p : Nat} {d e : Device} (h : TimerStarted q u p d) (he : e.quads = d.quads) : TimerStarted q u p e :=
  ⟨by rw [he]; exact h.runs, by rw [he]; exact h.due⟩

theorem qtReload_congr {d e : Device} (h : e.memory = d.memory) (q : Quad) : qtReload e q = qtReload d q := by rw [qtReload, Device.cf, h, qtReload, Device.cf]

theorem resetCarriers_timers {q : Quad} {d : Device} (ha : (d.quads[q]).armed = true) : TimerStarted q d.clk.up (qtReload d q) (resetCarriers .device d) := by
  have h1 : TimerStarted q d.clk.up (qtReload d q) (forEach (allQuads.filter fun q => (d.quads[q]).armed) resetQuadTimer d) := by
    have hset (e : Device) (h : e.clk = d.clk ∧ e.memory = d.memory) : TimerStarted q d.clk.up (qtReload d q) (resetQuadTimer q e) := by
      have hu : e.up = d.clk.up := congrArg Clocks.up h.1
      refine ⟨?_, ?_⟩ <;> rw [resetQuadTimer, updQuad_quads, upd_same]
      rw [hu, qtReload_congr h.2]
    have hq : q ∈ allQuads.filter fun q => (d.quads[q]).armed := List.mem_filter.2 ⟨List.mem_finRange q, ha⟩
    refine forEach_within (f := resetQuadTimer) (I := fun e => e.clk = d.clk ∧ e.memory = d.memory) (P := fun k e => k = q → TimerStarted q d.clk.up (qtReload d q) e)
      (fun _ _ h => h) (fun k e hi hk => by rw [hk]; exact hset e hi) (fun k j e hi h hk => ?_) hq d ⟨rfl, rfl⟩ rfl
    by_cases hj : q = j
    · exact hj ▸ hset e hi
    · exact ⟨by rw [resetQuadTimer, updQuad_quads, upd_other _ _ _ _ hj]; exact (h hk).runs,
        by rw [resetQuadTimer, updQuad_quads, upd_other _ _ _ _ hj]; exact (h hk).due⟩
  have hk : (resetCarriers .device d).quads = (forEach (allQuads.filter fun q => (d.quads[q]).armed) resetQuadTimer d).quads :=
    (Keeps.forEach (S := [.slots, .chans]) stopMaster_keeps (.refl ..)).parts .quads rfl
  exact h1.congr hk

theorem resetCarriers_waits {c : Chan} {d : Device} (ha : (d.chans[c]).armed = true) : MasterWaits c (resetCarriers .device d) := by
  have hc : c ∈ allChans.filter fun c => (d.chans[c]).armed := List.mem_filter.2 ⟨List.mem_finRange c, ha⟩
  exact forEach_each (P := MasterWaits) stopMaster_waits stopMaster_keepsWaits hc _

theorem carrierReset_timers {q : Quad} {d : Device} (ha : (d.quads[q]).armed = true) : TimerStarted q d.clk.up (qtReload d q) (carrierReset .device d) := by
  have h1 : (forEach allQuads (quadStart false) (resetCarriers .device d)).quads = (resetCarriers .device d).quads :=
    (Keeps.forEach (quadStart_keeps false) (.refl ..)).parts .quads rfl
  have h2 : (carrierReset .device d).quads = (forEach allQuads (quadStart false) (resetCarriers .device d)).quads :=
    (Keeps.forEach chanStart_keeps (.refl ..)).parts .quads rfl
  exact (resetCarriers_timers ha).congr (h2.trans h1)

theorem carrierReset_waits {c : Chan} {d : Device} (ha : (d.chans[c]).armed = true) : MasterWaits c (carrierReset .device d) := by
  have h1 : (forEach allQuads (quadStart false) (resetCarriers .device d)).chans = (resetCarriers .device d).chans :=
    (Keeps.forEach (quadStart_keeps false) (.refl ..)).parts .chans rfl
  exact forEach_induct (MasterWaits c) allChans chanStart (fun k _ he => (masterWaits_closed c).chanStart k he) _ ((resetCarriers_waits ha).congr h1)

/-- The words of a slot whose driver fault ends. -/
theorem dfltCleared_does {n : Slot} {d : Device} (hi : inverted d (0x090 + n.1) = false) : ((dfltCleared n d).slots[n]).dflt = false ∧
    ((dfltCleared n d).faults[Fin.ofNat 2048 (0x090 + n.1)]).level = false ∧ ∀ k : Slot, k ≠ n → (dfltCleared n d).slots[k] = d.slots[k] := by
  have hi' : inverted (d.updSlot n fun s => { s with dflt := false }) (0x090 + n.1) = false := hi
  rw [dfltCleared, faultEnds, hi', if_neg Bool.false_ne_true, updFault_faults, upd_same, updFault_slots, updSlot_slots, upd_same]
  exact ⟨rfl, if_cases (p := fun y : FaultSt => y.level = false) rfl rfl, fun k hk => upd_other _ _ _ _ hk⟩

/-- Settles O27: the reader of a channel's captures, a driver fault and its end, the carrier reset of the device. -/
theorem slotEvents : Obligations.SlotEvents := by
  unfold Obligations.SlotEvents
  refine ⟨fun c s hk hr => ?_, fun n ns s h => ?_, fun n ns s hc hi h => ?_, fun n s hi => ?_, fun s hk hr => ?_⟩
  · obtain ⟨t, ht, hd⟩ := done_next (carrierPeak c) s
    have hup : t.dev.clk.up = (carrierPeak c s.dev).clk.up := by rw [hd, drive_clk]
    have hw {n : Slot} (hn : n ∈ members s.dev c) := carrierPeak_words (n := n) hr (by rw [members_waitUp]; exact hn)
    refine ⟨t, (execCarrierPeak_calm c s hk).trans ht, hup.trans (carrierPeak_clk hr), fun n hn hcp => ?_, fun n hn sh nw oc cnt hcp => ?_, fun n hn => ?_⟩
    · have hwn := hw hn
      rw [hup] at hcp
      rw [beforeCapture_none hcp, capWords, Prod.mk.injEq, Prod.mk.injEq, Prod.mk.injEq] at hwn
      obtain ⟨h1, h2, h3, -⟩ := hwn
      rw [hd, drive_slots]
      exact ⟨h1, h2, h3⟩
    · have hwn := hw hn
      rw [hup] at hcp
      rw [beforeCapture_some hcp, capWords, Prod.mk.injEq, Prod.mk.injEq, Prod.mk.injEq] at hwn
      obtain ⟨h1, h2, h3, h4⟩ := hwn
      rw [hd, drive_slots]
      exact ⟨h1, h2, h4, h3⟩
    · rw [hd, drive_slots]
      exact carrierPeak_other hr (by rw [members_waitUp]; exact hn)
  · obtain ⟨t, ht, hd⟩ := done_next (dfltHigh n ns) s
    exact ⟨t, ht, by rw [hd, dfltHigh, if_pos h]⟩
  · obtain ⟨t, ht, hd⟩ := done_next (dfltHigh n ns) s
    refine ⟨t, ht, ?_⟩
    rw [hd, drive_faults]
    exact ⟨dfltHigh_active h hc hi, (dfltHigh_low h s.dev).pins⟩
  · obtain ⟨t, ht, hd⟩ := done_next (dfltCleared n) s
    refine ⟨t, ht, ?_⟩
    rw [hd, drive_slots, drive_faults]
    exact dfltCleared_does hi
  · obtain ⟨t, ht, hd⟩ := done_next (carrierResetLaunch .device) s
    have he : carrierResetLaunch .device s.dev = carrierReset .device s.dev := if_pos hr
    refine ⟨t, (execCarrierReset_calm .device s hk).trans ht, ?_⟩
    rw [hd, drive_quads, drive_chans, drive_clk, he, (carrierReset_keeps ..).clk_eq]
    exact ⟨fun q ha => ⟨(carrierReset_timers ha).runs, (carrierReset_timers ha).due⟩, fun c ha => ⟨(carrierReset_waits ha).stopped, (carrierReset_waits ha).waits⟩⟩

end Sys2Proof.Machine

/-! ## The input budget, the source comparators and fast halving (08: R291, R294 to R296) -/

namespace Sys2Proof.Machine

/-! ### The input budget (R294, R295) -/

/-- Budgets sent over a list of channels: those of a quadrant's channels are its newest messages, in their order. -/
theorem sendBudgets_list (m : Chan → Msg) (q : Quad) (l : List Chan) : ∀ d : Device,
    (forEach l (fun c d => send (.toQd (Chan.quad c)) (m c) d) d).isl.fifo[xIndex (.toQd q)] =
      d.isl.fifo[xIndex (.toQd q)] ++ (l.filter fun c => Chan.quad c = q).map m := by
  induction l with
  | nil => exact fun d => (List.append_nil _).symm
  | cons c l ih =>
    intro d
    refine (ih (send (.toQd (Chan.quad c)) (m c) d)).trans ?_
    by_cases h : Chan.quad c = q
    · have hl : (c :: l).filter (fun c => decide (Chan.quad c = q)) = c :: l.filter fun c => decide (Chan.quad c = q) := List.filter_cons_of_pos (decide_eq_true h)
      rw [hl, ← h, send_fifo_same, List.map_cons, List.append_assoc, List.singleton_append]
    · have hl : (c :: l).filter (fun c => decide (Chan.quad c = q)) = l.filter fun c => decide (Chan.quad c = q) :=
        List.filter_cons_of_neg (by rw [decide_eq_false h]; exact Bool.false_ne_true)
      rw [hl, send_fifo_other (xIndex_toQd_ne (Ne.symm h))]

theorem sendBudgets_fifo (b : Chan → Qty) (q : Quad) (d : Device) :
    (sendBudgets b d).isl.fifo[xIndex (.toQd q)] = d.isl.fifo[xIndex (.toQd q)] ++ (quadChans q).map fun c => .budget c (b c) :=
  sendBudgets_list (fun c => .budget c (b c)) q allChans d

/-- The budget at this instant, sent to every channel. -/
def budgetSent (d : Device) : Device :=
  let b := budgetB d
  let p := b * d.bus.vSys * etaChg d
  let d := d.updBus fun x => { x with b := b, p := p }
  let k := shareK d p
  let adm := anyAdmitted d
  sendBudgets (fun c => if adm && shares d c then k * shareA d c else 0) d

theorem budgetUpdate_eq {d : Device} (h : d.bus.st ≠ .beforeRun) : budgetUpdate d = budgetSent (nextMultiple 1 (10 * us) d) := if_neg h

/-- Time and the budget itself are not among what the shares are made from. -/
theorem shares_passed (d : Device) (k : Clocks) (b p : Qty) (f : BusSt → BusSt) (hf : f = fun x => { x with b := b, p := p }) :
    shareK ({ d with clk := k }.updBus f) p = shareK d p ∧ (∀ c, shareA ({ d with clk := k }.updBus f) c = shareA d c) ∧
      (∀ c, shares ({ d with clk := k }.updBus f) c = shares d c) ∧ anyAdmitted ({ d with clk := k }.updBus f) = anyAdmitted d := by
  subst hf
  exact ⟨rfl, fun _ => rfl, fun _ => rfl, rfl⟩

theorem budgetB_passed (d : Device) (k : Clocks) : budgetB { d with clk := k } = budgetB d := rfl

theorem budgetSent_bus (d : Device) (k : Clocks) : (budgetSent { d with clk := k }).bus.b = budgetB d ∧
    (budgetSent { d with clk := k }).bus.p = budgetB d * d.bus.vSys * etaChg d := by
  unfold budgetSent
  dsimp only
  have h (b : Chan → Qty) (e : Device) : (sendBudgets b e).bus = e.bus := (sendBudgets_keeps ..).parts .bus rfl
  rw [h, budgetB_passed]
  exact ⟨rfl, rfl⟩

theorem budgetSent_fifo (d : Device) (k : Clocks) (q : Quad) : (budgetSent { d with clk := k }).isl.fifo[xIndex (.toQd q)] =
    d.isl.fifo[xIndex (.toQd q)] ++ (quadChans q).map fun c => .budget c (if anyAdmitted d && shares d c then
      shareK d (budgetB d * d.bus.vSys * etaChg d) * shareA d c else 0) := by
  obtain ⟨hk, ha, hs, hd⟩ := shares_passed d k (budgetB d) (budgetB d * d.bus.vSys * etaChg d) _ rfl
  have he : budgetSent { d with clk := k } = sendBudgets (fun c => if anyAdmitted d && shares d c then
      shareK d (budgetB d * d.bus.vSys * etaChg d) * shareA d c else 0)
      ({ d with clk := k }.updBus fun x => { x with b := budgetB d, p := budgetB d * d.bus.vSys * etaChg d }) := by
    simp only [← hk, ← ha, ← hs, ← hd]
    rfl
  rw [he, sendBudgets_fifo]
  rfl

theorem budgetSent_chans (d : Device) : (budgetSent d).chans = d.chans := by
  unfold budgetSent
  exact (sendBudgets_keeps ..).parts .chans rfl

theorem budgetSent_clk (d : Device) : (budgetSent d).clk = d.clk := by
  unfold budgetSent
  exact (sendBudgets_keeps ..).clk_eq

theorem admitted_filter {d : Device} : anyAdmitted d = true ↔ (allSrcs.filter fun k => decide ((d.srcs[k]).st = .admitted)) ≠ [] := by
  rw [anyAdmitted, List.any_eq_true, Ne, List.filter_eq_nil_iff]
  push Not
  rfl

theorem budgetB_none {d : Device} (h : anyAdmitted d = false) : budgetB d = 0 := by
  have hn : (allSrcs.filter fun k => decide ((d.srcs[k]).st = .admitted)) = [] := by
    by_contra hne
    rw [admitted_filter.2 hne] at h
    exact Bool.false_ne_true h.symm
  exact if_pos hn

theorem budgetB_slope {d : Device} (h : anyAdmitted d = true) :
    budgetB d ≤ d.bus.b + minQ ((allSrcs.filter fun k => decide ((d.srcs[k]).st = .admitted)).map (gDidt d)) * 10 := by
  rw [budgetB]
  dsimp only
  rw [if_neg (admitted_filter.1 h)]
  exact min_le_right ..

/-! ### What a call for halving leaves of the others (R296) -/

theorem react_srcs (f : Nat) {sc : Scope} (hs : ∀ k, sc ≠ .source k) (s : Severity) (d : Device) : (react f sc s d).srcs = d.srcs := by
  have h1 : (forEach (reach d sc s) (holdChan f) d).srcs = d.srcs := (Keeps.forEach (holdChan_keeps f) (.refl [.slots, .chans, .profs, .paths] d)).parts .srcs rfl
  unfold react
  refine if_cases (p := fun x : Device => x.srcs = d.srcs) (if_cases (p := fun x : Device => x.srcs = d.srcs) ?_ h1) (if_cases (p := fun x : Device => x.srcs = d.srcs) ?_ h1)
  all_goals
    cases sc with
    | path c => exact if_cases (p := fun x : Device => x.srcs = d.srcs) (((pathTrip_keeps ..).parts .srcs rfl : _ = _).trans h1) (((pathOpen_keeps ..).parts .srcs rfl : _ = _).trans h1)
    | source k => exact absurd rfl (hs k)
    | _ => exact h1

theorem raise_srcs {f : Nat} (hs : ∀ k, scopeOf f ≠ some (.source k)) (d : Device) : (raise f d).srcs = d.srcs := by
  have h : (raiseX f false 0 d).srcs = d.srcs := by
    rcases raiseX_cases f false 0 d with k | ⟨sc, hsc, -, -, he⟩
    · exact k.parts .srcs rfl
    · have hns : ∀ k, sc ≠ .source k := fun k h => hs k (h ▸ hsc)
      have hr : (recordRaise f sc false 0 d).srcs = d.srcs := (recordRaise_keeps ..).parts .srcs rfl
      have hl : (latchAtStart (recordRaise f sc false 0 d)).srcs = (recordRaise f sc false 0 d).srcs := (latchAtStart_keeps ..).parts .srcs rfl
      rw [he]
      exact if_cases (p := fun x : Device => x.srcs = d.srcs) ((react_srcs f hns ..).trans hr)
        (if_cases (p := fun x : Device => x.srcs = d.srcs) ((react_srcs f hns ..).trans (hl.trans hr)) (if_cases (p := fun x : Device => x.srcs = d.srcs) hr hr))
  exact h

theorem halveScope (k : Src) : scopeOf (0x4A8 + k.1) = some (.quadrant k) := by
  revert k
  decide

theorem halveFault_ne {j k : Src} (h : k ≠ j) : Fin.ofNat 2048 (0x4A8 + k.1) ≠ Fin.ofNat 2048 (0x4A8 + j.1) := by
  intro he
  have hj := j.2
  have hk := k.2
  have hv := congrArg Fin.val he
  simp only [Fin.val_ofNat] at hv
  exact h (Fin.ext (by omega))

theorem raiseHalve_srcs (k : Src) (d : Device) : (raise (0x4A8 + k.1) d).srcs = d.srcs := raise_srcs (fun j hj => by rw [halveScope] at hj; cases hj) d

theorem between_ne {a b p q : Quad} (h : a ≠ p ∨ b ≠ q) : xIndex (.between a b) ≠ xIndex (.between p q) := by
  intro he
  have hv := congrArg Fin.val he
  simp only [xIndex] at hv
  have ha := a.2
  have hb := b.2
  have hp := p.2
  have hq := q.2
  rcases h with h | h
  · exact h (Fin.ext (by omega))
  · exact h (Fin.ext (by omega))

theorem halveQuad_quads (q : Quad) (d : Device) : (halveQuad q d).quads = upd d.quads q fun s => { s with halved := true } :=
  (Keeps.forEach regate_keeps (.refl [.slots, .chans, .profs, .paths] _)).parts .quads rfl

/-- The halving messages of a source. -/
def halveSend (k : Src) (d : Device) : Device := forEach (allQuads.filter fun q => decide (q ≠ k)) (fun q d => send (.between k q) .halve d) d

theorem halveCall_eq (k : Src) (d : Device) : halveCall k d = if (d.srcs[k]).halveHit then d else
    if (halveSend k (halveQuad k (d.updSrc k fun s => { s with halveHit := true }))).bus.halveRaised then
      raise (0x4A8 + k.1) (halveSend k (halveQuad k (d.updSrc k fun s => { s with halveHit := true }))) else
      halveSend k (halveQuad k (d.updSrc k fun s => { s with halveHit := true })) := rfl

theorem halveSend_keeps (k : Src) (d : Device) : Keeps [.isl] d (halveSend k d) := Keeps.forEach (fun q e => send_keeps (.between k q) .halve e) (.refl ..)

theorem halveSend_own {k : Src} {q : Quad} (hq : q ≠ k) (d : Device) :
    (halveSend k d).isl.fifo[xIndex (.between k q)] = d.isl.fifo[xIndex (.between k q)] ++ [.halve] := by
  have hm : q ∈ allQuads.filter fun q => decide (q ≠ k) := List.mem_filter.2 ⟨List.mem_finRange q, decide_eq_true hq⟩
  have h := forEach_once (R := fun q (d e : Device) => e.isl.fifo[xIndex (.between k q)] = d.isl.fifo[xIndex (.between k q)])
    (f := fun q d => send (.between k q) .halve d) (fun _ _ => rfl) (fun _ _ _ _ h g => g.trans h)
    (fun a b e hb => send_fifo_other (between_ne (.inr (Ne.symm hb))) ..) ((List.nodup_finRange 4).filter _) hm d
  obtain ⟨e, h1, h2⟩ := h
  rw [send_fifo_same, h1] at h2
  exact h2

theorem halveSend_other {j k : Src} (hj : k ≠ j) (q : Quad) (d : Device) : (halveSend j d).isl.fifo[xIndex (.between k q)] = d.isl.fifo[xIndex (.between k q)] :=
  forEach_induct (fun e => e.isl.fifo[xIndex (.between k q)] = d.isl.fifo[xIndex (.between k q)]) _ _
    (fun _ _ he => (send_fifo_other (between_ne (.inl hj)) ..).trans he) d rfl

/-- A source's own call for halving, before its raise. -/
def halveBegun (k : Src) (d : Device) : Device := halveSend k (halveQuad k (d.updSrc k fun s => { s with halveHit := true }))

theorem halveBegun_keeps (k : Src) (d : Device) : Keeps [.isl, .slots, .quads, .chans, .profs, .paths, .srcs] d (halveBegun k d) :=
  (((halveSend_keeps ..).mono rfl : Keeps [.isl, .slots, .quads, .chans, .profs, .paths, .srcs] _ _).after
    (((halveQuad_keeps ..).mono rfl : Keeps [.isl, .slots, .quads, .chans, .profs, .paths, .srcs] _ _).after ((updSrc_keeps ..).mono rfl) rfl) rfl)

theorem halveBegun_srcs (k : Src) (d : Device) : (halveBegun k d).srcs = upd d.srcs k fun s => { s with halveHit := true } :=
  ((halveSend_keeps k _).parts .srcs rfl : _ = _).trans ((halveQuad_keeps k _).parts .srcs rfl)

theorem halveBegun_quads (k : Src) (d : Device) : (halveBegun k d).quads = upd d.quads k fun s => { s with halved := true } :=
  ((halveSend_keeps k _).parts .quads rfl : _ = _).trans (halveQuad_quads k _)

theorem halveBegun_fifo (k : Src) (d : Device) : (halveQuad k (d.updSrc k fun s => { s with halveHit := true })).isl.fifo = d.isl.fifo := (halveQuad_keeps ..).fifo_eq

/-- What a call of another source leaves of a source. -/
structure Uncalled (k : Src) (d e : Device) : Prop where
  src : e.srcs[k] = d.srcs[k]
  quad : e.quads[k] = d.quads[k]
  fifo : ∀ q : Quad, e.isl.fifo[xIndex (.between k q)] = d.isl.fifo[xIndex (.between k q)]
  bus : e.bus = d.bus
  fault : e.faults[(Fin.ofNat 2048 (0x4A8 + k.1) : Fsrc)] = d.faults[(Fin.ofNat 2048 (0x4A8 + k.1) : Fsrc)]
  runs : colRuns d = true → colRuns e = true

theorem Uncalled.refl (k : Src) (d : Device) : Uncalled k d d := ⟨rfl, rfl, fun _ => rfl, rfl, rfl, id⟩

theorem Uncalled.trans {k : Src} {d e g : Device} (h : Uncalled k d e) (i : Uncalled k e g) : Uncalled k d g :=
  ⟨i.src.trans h.src, i.quad.trans h.quad, fun q => (i.fifo q).trans (h.fifo q), i.bus.trans h.bus, i.fault.trans h.fault, fun hc => i.runs (h.runs hc)⟩

theorem raise_uncalled {j k : Src} (hj : k ≠ j) (d : Device) : Uncalled k d (raise (0x4A8 + j.1) d) := by
  have kr := raise_keeps (0x4A8 + j.1) d
  refine ⟨by rw [raiseHalve_srcs], ?_, fun q => by rw [kr.fifo_eq], kr.parts .bus rfl, raiseX_fault_other false 0 d (halveFault_ne hj), raiseX_colRuns _ false 0⟩
  rw [show (raise (0x4A8 + j.1) d).quads = d.quads from kr.parts .quads rfl]

theorem halveBegun_uncalled {j k : Src} (hj : k ≠ j) (d : Device) : Uncalled k d (halveBegun j d) := by
  have kb := halveBegun_keeps j d
  refine ⟨by rw [halveBegun_srcs, upd_other _ _ _ _ hj], by rw [halveBegun_quads, upd_other _ _ _ _ hj], fun q => ?_, kb.parts .bus rfl, ?_, fun hc => (kb.colRuns_eq rfl).trans hc⟩
  · rw [halveBegun, halveSend_other hj, halveBegun_fifo]
  · rw [show (halveBegun j d).faults = d.faults from kb.parts .faults rfl]

theorem halveCall_uncalled {j k : Src} (hj : j ≠ k) (d : Device) : Uncalled k d (halveCall j d) := by
  rw [halveCall_eq]
  exact if_cases (p := Uncalled k d) (.refl k d) (if_cases (p := Uncalled k d) ((halveBegun_uncalled (Ne.symm hj) d).trans (raise_uncalled (Ne.symm hj) _))
    (halveBegun_uncalled (Ne.symm hj) d))

/-- A source's first call for halving. -/
theorem halveCall_first {k : Src} {d : Device} (hh : (d.srcs[k]).halveHit = false) :
    ((halveCall k d).srcs[k]) = { d.srcs[k] with halveHit := true } ∧ (halveCall k d).bus = d.bus ∧ ((halveCall k d).quads[k]).halved = true ∧
      (∀ q : Quad, q ≠ k → (halveCall k d).isl.fifo[xIndex (.between k q)] = d.isl.fifo[xIndex (.between k q)] ++ [.halve]) ∧
      (colRuns d = true → d.bus.halveRaised = true → ((halveCall k d).faults[Fin.ofNat 2048 (0x4A8 + k.1)]).count = raisedCount d (0x4A8 + k.1)) := by
  have he : halveCall k d = if (halveBegun k d).bus.halveRaised then raise (0x4A8 + k.1) (halveBegun k d) else halveBegun k d := by
    rw [halveCall_eq, hh, if_neg Bool.false_ne_true]
    rfl
  have kb := halveBegun_keeps k d
  have hbus : (halveBegun k d).bus = d.bus := kb.parts .bus rfl
  have hfl : (halveBegun k d).faults = d.faults := kb.parts .faults rfl
  have hsrc : (halveBegun k d).srcs[k] = { d.srcs[k] with halveHit := true } := by rw [halveBegun_srcs, upd_same]
  have hq : ((halveBegun k d).quads[k]).halved = true := by rw [halveBegun_quads, upd_same]
  have hfifo (q : Quad) (h : q ≠ k) : (halveBegun k d).isl.fifo[xIndex (.between k q)] = d.isl.fifo[xIndex (.between k q)] ++ [.halve] := by
    rw [halveBegun, halveSend_own h, halveBegun_fifo]
  have kr := raise_keeps (0x4A8 + k.1) (halveBegun k d)
  rw [he, hbus]
  cases hr : d.bus.halveRaised with
  | false =>
    rw [if_neg Bool.false_ne_true]
    exact ⟨hsrc, hbus, hq, hfifo, nofun⟩
  | true =>
    rw [if_pos rfl, raiseHalve_srcs, kr.fifo_eq, show (raise (0x4A8 + k.1) (halveBegun k d)).quads = (halveBegun k d).quads from kr.parts .quads rfl,
      show (raise (0x4A8 + k.1) (halveBegun k d)).bus = (halveBegun k d).bus from kr.parts .bus rfl]
    refine ⟨hsrc, hbus, hq, hfifo, fun hc _ => ?_⟩
    have hn := raise_count (halveScope k) ((kb.colRuns_eq rfl).trans hc)
    rw [raisedCount, hfl] at hn
    exact hn

/-! ### The evaluation of a call (R296) -/

/-- The words of the bus as halving is called for. -/
def halvingCalled (d : Device) : Device :=
  d.updBus fun b => if b.halving then { b with aboveEndAt := none } else { b with halving := true, halveAt := d.up, halveRaised := false, aboveEndAt := none }

theorem halveEval_called {d : Device} (h : halveWanted d = true) : halveEval d = forEach (allSrcs.filter (halveBy d)) halveCall (halvingCalled d) := if_pos h

theorem halveEval_idle {d : Device} (h : halveWanted d = false) : halveEval d =
    d.updBus fun b => if b.halving then { b with aboveEndAt := heldSince d.up (!allSrcs.any fun k => (d.srcs[k]).isOver) b.aboveEndAt } else b :=
  if_neg (by rw [h]; exact Bool.false_ne_true)

/-- A source without its call. -/
def sansHit (s : SrcSt) : SrcSt := { s with halveHit := false }

/-- No source changes but for its call. -/
theorem halveCall_srcs (j k : Src) (d : Device) : sansHit (halveCall j d).srcs[k] = sansHit d.srcs[k] := by
  by_cases hj : j = k
  · subst hj
    cases hh : (d.srcs[j]).halveHit with
    | true => rw [halveCall_eq, if_pos hh]
    | false => rw [(halveCall_first hh).1]; rfl
  · rw [(halveCall_uncalled hj d).src]

theorem halveEval_srcs (k : Src) (d : Device) : sansHit (halveEval d).srcs[k] = sansHit d.srcs[k] := by
  cases h : halveWanted d with
  | false => rw [halveEval_idle h]; rfl
  | true =>
    rw [halveEval_called h]
    exact forEach_induct (fun e : Device => sansHit e.srcs[k] = sansHit d.srcs[k]) _ halveCall (fun j e he => (halveCall_srcs j k e).trans he) (halvingCalled d) rfl

theorem halveEval_field {β : Type} (k : Src) (d : Device) (g : SrcSt → β) (hg : ∀ s, g (sansHit s) = g s := by intro; rfl) :
    g (halveEval d).srcs[k] = g d.srcs[k] := by
  rw [← hg, halveEval_srcs, hg]

/-- A source that calls for the first time. -/
theorem halveEval_first {k : Src} {d : Device} (hb : halveBy d k = true) (hh : (d.srcs[k]).halveHit = false) :
    ((halveEval d).srcs[k]).halveHit = true ∧ (halveEval d).bus.halving = true ∧ (halveEval d).bus.aboveEndAt = none ∧ ((halveEval d).quads[k]).halved = true ∧
      (∀ q : Quad, q ≠ k → (halveEval d).isl.fifo[xIndex (.between k q)] = d.isl.fifo[xIndex (.between k q)] ++ [.halve]) ∧
      (colRuns d = true → d.bus.halving = true → d.bus.halveRaised = true →
        ((halveEval d).faults[Fin.ofNat 2048 (0x4A8 + k.1)]).count = raisedCount d (0x4A8 + k.1)) := by
  have hw : halveWanted d = true := List.any_eq_true.2 ⟨k, List.mem_finRange k, hb⟩
  have hm : k ∈ allSrcs.filter (halveBy d) := List.mem_filter.2 ⟨List.mem_finRange k, hb⟩
  have hnd : (allSrcs.filter (halveBy d)).Nodup := (List.nodup_finRange 4).filter _
  obtain ⟨e, h1, h2⟩ := forEach_once (R := Uncalled) (f := halveCall) Uncalled.refl (fun _ _ _ _ => Uncalled.trans) (fun a b x hb => halveCall_uncalled hb x) hnd hm (halvingCalled d)
  have hbus : (halvingCalled d).bus.halving = true ∧ (halvingCalled d).bus.aboveEndAt = none := by
    unfold halvingCalled
    rw [updBus_bus]
    by_cases hon : d.bus.halving = true
    · rw [if_pos hon]; exact ⟨hon, rfl⟩
    · rw [if_neg hon]; exact ⟨rfl, rfl⟩
  obtain ⟨hs, hbu, hq, hf, hn⟩ := halveCall_first (k := k) (d := e) (by rw [h1.src]; exact hh)
  rw [halveEval_called hw, h2.src, hs, h2.bus, hbu, h1.bus, h2.quad, hq]
  refine ⟨rfl, hbus.1, hbus.2, rfl, fun q hqk => ?_, fun hc hon hr => ?_⟩
  · rw [h2.fifo, hf q hqk, h1.fifo]
    rfl
  · have hraised : (halvingCalled d).bus.halveRaised = true := by
      unfold halvingCalled
      rw [updBus_bus, if_pos hon]
      exact hr
    have hcount := hn (h1.runs hc) (by rw [h1.bus]; exact hraised)
    rw [h2.fault, hcount, raisedCount, h1.fault]
    rfl

/-! ### Halving arrives, is released, lasts (R296) -/

theorem regate_halve (c k : Chan) (d : Device) : ((regate c d).chans[k]).halve = (d.chans[k]).halve := by
  by_cases hk : k = c
  · subst hk
    obtain ⟨b, hb⟩ := regate_chan k d
    rw [hb]
  · rw [(regate_otherChans (c := c) (d := d)).chan k hk]

theorem halveQuad_chans {q : Quad} {c : Chan} (hc : Chan.quad c = q) (d : Device) : ((halveQuad q d).chans[c]).halve = true := by
  unfold halveQuad
  dsimp only
  refine forEach_induct (fun e => (e.chans[c]).halve = true) _ _ (fun k e he => (regate_halve k c e).trans he) _ ?_
  rw [updQuad_chans, mapAll_get, if_pos hc]

theorem halveMessage_eq {k q : Quad} {rest : List Msg} {d : Device} (h : d.isl.fifo[xIndex (.between k q)] = .halve :: rest) (hb : d.bus.halving = true) :
    crossingMessage (.between k q) d = halveQuad q (setFifo (.between k q) rest d) := by
  have hf : fifoOf d (.between k q) = .halve :: rest := h
  rw [crossingMessage, hf]
  exact if_pos hb

/-- The release at an instant. -/
def halvingEnded (n : Nat) (d : Device) : Device := halvingClear ((waitUp n d).updBus fun b => { b with halving := false, aboveEndAt := none, halveRaised := false })

theorem halvingRelease_due {u : Nat} {d : Device} (hb : d.bus.halving = true) (ha : d.bus.aboveEndAt = some u) :
    halvingRelease d = halvingEnded (u + halveHold d) d := by
  rw [halvingRelease, hb, ha]
  rfl

theorem halvingEnded_does (n : Nat) (d : Device) : (halvingEnded n d).clk.up = max d.clk.up n ∧ (halvingEnded n d).bus.halving = false ∧
    (halvingEnded n d).bus.aboveEndAt = none ∧ (∀ q : Quad, ((halvingEnded n d).quads[q]).halved = false) ∧ (∀ k : Src, ((halvingEnded n d).srcs[k]).halveHit = false) ∧
    (halvingEnded n d).chans = d.chans := by
  refine ⟨waitUp_up n d, rfl, rfl, fun q => ?_, fun k => ?_, rfl⟩
  · simp only [halvingEnded, halvingClear, Fin.getElem_fin, Vector.getElem_map]
  · simp only [halvingEnded, halvingClear, Fin.getElem_fin, Vector.getElem_map]

/-- A sustained episode is found at an instant. -/
def halvingMarked (n : Nat) (d : Device) : Device := (waitUp n d).updBus fun b => { b with halveRaised := true }

/-- Each source that called raises its own. -/
def halvingFound (n : Nat) (d : Device) : Device :=
  forEach (allSrcs.filter fun k => ((halvingMarked n d).srcs[k]).halveHit) (fun k d => raise (0x4A8 + k.1) d) (halvingMarked n d)

theorem halvingMarked_srcs (n : Nat) (d : Device) : (halvingMarked n d).srcs = d.srcs := rfl
theorem halvingMarked_faults (n : Nat) (d : Device) : (halvingMarked n d).faults = d.faults := rfl
theorem halvingMarked_runs (n : Nat) (d : Device) : colRuns (halvingMarked n d) = colRuns d := rfl

theorem halvingSustained_due {d : Device} (hb : d.bus.halving = true) (hr : d.bus.halveRaised = false) :
    halvingSustained d = halvingFound (d.bus.halveAt + 100 * ms) d := if_pos ⟨hb, hr⟩

theorem halvingFound_words (n : Nat) (d : Device) : (halvingFound n d).clk.up = max d.clk.up n ∧ (halvingFound n d).bus.halveRaised = true := by
  have h := forEach_induct (fun e => e.clk = (waitUp n d).clk ∧ e.bus.halveRaised = true) (allSrcs.filter fun k => ((halvingMarked n d).srcs[k]).halveHit)
    (fun k d => raise (0x4A8 + k.1) d)
    (fun k e he => ⟨(raise_keeps ..).clk_eq.trans he.1, by rw [show (raise (0x4A8 + k.1) e).bus = e.bus from (raise_keeps ..).parts .bus rfl]; exact he.2⟩)
    (halvingMarked n d) ⟨rfl, rfl⟩
  exact ⟨(congrArg Clocks.up h.1).trans (waitUp_up n d), h.2⟩

/-- The words of one source of the collector, and that it runs. -/
structure SameFault (k : Src) (d e : Device) : Prop where
  fault : e.faults[(Fin.ofNat 2048 (0x4A8 + k.1) : Fsrc)] = d.faults[(Fin.ofNat 2048 (0x4A8 + k.1) : Fsrc)]
  runs : colRuns d = true → colRuns e = true

theorem halvingFound_count (n : Nat) (k : Src) {d : Device} (hc : colRuns d = true) : ((halvingFound n d).faults[Fin.ofNat 2048 (0x4A8 + k.1)]).count =
    if (d.srcs[k]).halveHit then raisedCount d (0x4A8 + k.1) else (d.faults[Fin.ofNat 2048 (0x4A8 + k.1)]).count := by
  have hother (j k : Src) (h : j ≠ k) (e : Device) : SameFault k e (raise (0x4A8 + j.1) e) :=
    ⟨raiseX_fault_other false 0 e (halveFault_ne (Ne.symm h)), raiseX_colRuns _ false 0⟩
  cases hh : (d.srcs[k]).halveHit with
  | true =>
    have hm : k ∈ allSrcs.filter fun k => ((halvingMarked n d).srcs[k]).halveHit := List.mem_filter.2 ⟨List.mem_finRange k, by rw [halvingMarked_srcs]; exact hh⟩
    have hnd : (allSrcs.filter fun k => ((halvingMarked n d).srcs[k]).halveHit).Nodup := (List.nodup_finRange 4).filter _
    obtain ⟨e, h1, h2⟩ := forEach_once (R := SameFault) (f := fun k d => raise (0x4A8 + k.1) d) (fun _ _ => ⟨rfl, id⟩)
      (fun _ _ _ _ h i => ⟨i.fault.trans h.fault, fun hc => i.runs (h.runs hc)⟩) (fun a b x hb => hother b a hb x) hnd hm (halvingMarked n d)
    rw [if_pos rfl, halvingFound, h2.fault, raise_count (halveScope k) (h1.runs ((halvingMarked_runs n d).trans hc)), raisedCount, h1.fault, halvingMarked_faults]
    rfl
  | false =>
    rw [if_neg Bool.false_ne_true]
    refine congrArg FaultSt.count (forEach_skips (P := fun e => e.faults[(Fin.ofNat 2048 (0x4A8 + k.1) : Fsrc)] = d.faults[(Fin.ofNat 2048 (0x4A8 + k.1) : Fsrc)])
      (fun j hj e he => (hother j k (fun h => ?_) e).fault.trans he) (halvingMarked n d) rfl)
    have hjh := (List.mem_filter.1 hj).2
    rw [halvingMarked_srcs, h, hh] at hjh
    exact Bool.false_ne_true hjh

/-- A source whose comparator reads below its reverse limit. -/
def reversedSrc (k : Src) (d : Device) : Device :=
  d.updSrc k fun s => { s with
    isOver := false, isRev := true
    revCnt := if s.g > 0 then satInc s.revCnt else s.revCnt
    g := 0, gAt := d.up, checkAt := none, passed := false }

theorem srcBelow_eq (k : Src) (d : Device) : srcBelow k d = halveEval (reversedSrc k d) := rfl

/-- Settles O35: the budget with and without an admitted source, the three readings of a source comparator, halving from its call to its end. -/
theorem inputCurrent : Obligations.InputCurrent := by
  unfold Obligations.InputCurrent
  refine ⟨fun s hk hb ha => ?_, fun s hk hb ha => ?_, fun d h => budgetB_slope h, fun k s hl hh => ?_, fun k q rest s hf hb => ?_, fun k s => ?_, fun k s => ?_,
    fun k s hb ha ho => ?_, fun u s hk hb ha => ?_, fun s hk hc hb hr => ?_⟩
  · obtain ⟨t, ht, hd⟩ := done_next budgetUpdate s
    have hup := nextMultiple_up 1 (10 * us) (by decide) s.dev
    obtain ⟨w, hw⟩ : ∃ w, nextMultiple 1 (10 * us) s.dev = { s.dev with clk := w } := ⟨_, rfl⟩
    obtain ⟨h1, h2⟩ := budgetSent_bus s.dev w
    rw [budgetB_none ha] at h1 h2
    rw [hw] at hup
    refine ⟨t, (execBudgetUpdate_calm s hk).trans ht, ?_⟩
    rw [hd, drive_clk, drive_bus, drive_isl, budgetUpdate_eq hb, hw, budgetSent_clk, h1, h2, zero_mul, zero_mul]
    refine ⟨hup, rfl, rfl, fun q => ?_⟩
    rw [budgetSent_fifo, ha]
    rfl
  · obtain ⟨t, ht, hd⟩ := done_next budgetUpdate s
    obtain ⟨w, hw⟩ : ∃ w, nextMultiple 1 (10 * us) s.dev = { s.dev with clk := w } := ⟨_, rfl⟩
    obtain ⟨h1, h2⟩ := budgetSent_bus s.dev w
    refine ⟨t, (execBudgetUpdate_calm s hk).trans ht, ?_⟩
    rw [hd, drive_bus, drive_isl, drive_chans, budgetUpdate_eq hb, hw, h1, h2, budgetSent_chans]
    refine ⟨rfl, rfl, rfl, fun q => ?_⟩
    rw [budgetSent_fifo, ha]
    rfl
  · obtain ⟨t, ht, hd⟩ := done_next (srcAbove k) s
    have hs : (s.dev.updSrc k fun s => { s with isOver := true, isRev := false }).srcs[k] = { s.dev.srcs[k] with isOver := true, isRev := false } := by
      rw [updSrc_srcs, upd_same]
    obtain ⟨h1, h2, h3, h4, h5, h6⟩ := halveEval_first (k := k) (d := s.dev.updSrc k fun s => { s with isOver := true, isRev := false })
      (by rw [halveBy, hs]; exact hl) (by rw [hs]; exact hh)
    refine ⟨t, ht, ?_⟩
    rw [hd, drive_srcs, drive_bus, drive_quads, drive_isl, drive_faults]
    exact ⟨(halveEval_field k _ SrcSt.isOver).trans (by rw [hs]), (halveEval_field k _ SrcSt.isRev).trans (by rw [hs]), h1, h2, h3, h4, h5, h6⟩
  · obtain ⟨t, ht, hd⟩ := done_next (crossingMessage (.between k q)) s
    have hq : ((halveQuad q (setFifo (.between k q) rest s.dev)).quads[q]).halved = true := by rw [halveQuad_quads, upd_same]
    have hx : (halveQuad q (setFifo (.between k q) rest s.dev)).isl.fifo = (setFifo (.between k q) rest s.dev).isl.fifo := (halveQuad_keeps ..).fifo_eq
    refine ⟨t, ht, ?_⟩
    rw [hd, drive_quads, drive_isl, drive_chans, halveMessage_eq hf hb, hx, setFifo_fifo]
    exact ⟨hq, rfl, fun c hc => halveQuad_chans hc _⟩
  · obtain ⟨t, ht, hd⟩ := done_next (srcBelow k) s
    have hs : (reversedSrc k s.dev).srcs[k] = { s.dev.srcs[k] with
        isOver := false, isRev := true
        revCnt := if (s.dev.srcs[k]).g > 0 then satInc (s.dev.srcs[k]).revCnt else (s.dev.srcs[k]).revCnt
        g := 0, gAt := s.dev.up, checkAt := none, passed := false } := by rw [reversedSrc, updSrc_srcs, upd_same]
    refine ⟨t, ht, ?_⟩
    rw [hd, drive_srcs, srcBelow_eq]
    exact ⟨(halveEval_field k _ SrcSt.isOver).trans (by rw [hs]), (halveEval_field k _ SrcSt.isRev).trans (by rw [hs]),
      (halveEval_field k _ SrcSt.g).trans (by rw [hs]), (halveEval_field k _ SrcSt.st).trans (by rw [hs]), (halveEval_field k _ SrcSt.revCnt).trans (by rw [hs])⟩
  · obtain ⟨t, ht, hd⟩ := done_next (srcBetween k) s
    have hs : (s.dev.updSrc k fun s => { s with isOver := false, isRev := false }).srcs[k] = { s.dev.srcs[k] with isOver := false, isRev := false } := by
      rw [updSrc_srcs, upd_same]
    refine ⟨t, ht, ?_⟩
    rw [hd, drive_srcs]
    exact ⟨(halveEval_field k _ SrcSt.isOver).trans (by rw [hs]), (halveEval_field k _ SrcSt.isRev).trans (by rw [hs]),
      (halveEval_field k _ SrcSt.g).trans (by rw [hs]), (halveEval_field k _ SrcSt.st).trans (by rw [hs])⟩
  · obtain ⟨t, ht, hd⟩ := done_next (srcBetween k) s
    have hno (j : Src) : ((s.dev.updSrc k fun s => { s with isOver := false, isRev := false }).srcs[j]).isOver = false := by
      by_cases hj : j = k
      · subst hj
        rw [updSrc_srcs, upd_same]
      · rw [updSrc_srcs, upd_other _ _ _ _ hj]
        exact ho j hj
    have hany : (allSrcs.any fun j => ((s.dev.updSrc k fun s => { s with isOver := false, isRev := false }).srcs[j]).isOver) = false :=
      List.any_eq_false.2 fun j _ => by rw [hno]; exact Bool.false_ne_true
    have hw : halveWanted (s.dev.updSrc k fun s => { s with isOver := false, isRev := false }) = false :=
      List.any_eq_false.2 fun j _ => by rw [halveBy, hno, Bool.false_and]; exact Bool.false_ne_true
    refine ⟨t, ht, ?_⟩
    rw [hd, drive_bus, srcBetween, halveEval_idle hw, hany, updBus_bus, updSrc_bus, if_pos hb, ha]
    exact ⟨hb, rfl⟩
  · obtain ⟨t, ht, hd⟩ := done_next halvingRelease s
    refine ⟨t, (execHalvingRelease_calm s hk).trans ht, ?_⟩
    rw [hd, drive_clk, drive_bus, drive_quads, drive_srcs, drive_chans, halvingRelease_due hb ha]
    exact halvingEnded_does ..
  · obtain ⟨t, ht, hd⟩ := done_next halvingSustained s
    obtain ⟨h1, h2⟩ := halvingFound_words (s.dev.bus.halveAt + 100 * ms) s.dev
    refine ⟨t, (execHalvingSustained_calm s hk).trans ht, ?_⟩
    rw [hd, drive_clk, drive_bus, drive_faults, halvingSustained_due hb hr]
    exact ⟨h1, h2, fun k => halvingFound_count _ k hc⟩

end Sys2Proof.Machine

/-! ## The thermal models (10: R381, R382, R391 to R393) -/

namespace Sys2Proof.Machine

/-! ### The inputs of the models -/

/-- Two devices agree in what says which models are in use and how they move. -/
structure SameInputs (d e : Device) : Prop where
  conf : e.memory.conf = d.memory.conf
  mode : e.col.fiMode = d.col.fiMode
  quadArmed : ∀ q : Quad, (e.quads[q]).armed = (d.quads[q]).armed
  chanArmed : ∀ c : Chan, (e.chans[c]).armed = (d.chans[c]).armed
  runs : modelsRun e = modelsRun d

theorem SameInputs.refl (d : Device) : SameInputs d d := ⟨rfl, rfl, fun _ => rfl, fun _ => rfl, rfl⟩

theorem SameInputs.trans {d e g : Device} (h : SameInputs d e) (k : SameInputs e g) : SameInputs d g :=
  ⟨k.conf.trans h.conf, k.mode.trans h.mode, fun q => (k.quadArmed q).trans (h.quadArmed q), fun c => (k.chanArmed c).trans (h.chanArmed c), k.runs.trans h.runs⟩

/-- A model without the energy of the frame. -/
def sansFrame (x : ThermSt) : ThermSt := { x with frameE := 0 }

/-- Two devices agree in what the models are made from, but for the energy of the frame. -/
structure SameModels (d e : Device) : Prop extends SameInputs d e where
  model : ∀ m : Model, sansFrame e.therm[m] = sansFrame d.therm[m]

namespace SameModels
variable {d e g : Device}

theorem refl (d : Device) : SameModels d d := ⟨.refl d, fun _ => rfl⟩

theorem trans (h : SameModels d e) (k : SameModels e g) : SameModels d g :=
  ⟨h.toSameInputs.trans k.toSameInputs, fun m => (k.model m).trans (h.model m)⟩

/-- An operation on other kinds of state; that the injection's mode stays may need an argument of its own. -/
theorem of_mode {S : List Part} (k : Keeps S d e) (hm : e.col.fiMode = d.col.fiMode) (hconf : S.contains .conf = false := by rfl)
    (hq : S.contains .quads = false := by rfl) (hc : S.contains .chans = false := by rfl) (hs : S.contains .devState = false := by rfl)
    (hb : S.contains .bus = false := by rfl) (ht : S.contains .therm = false := by rfl) : SameModels d e := by
  have h1 : e.memory.conf = d.memory.conf := k.parts .conf hconf
  have h2 : e.quads = d.quads := k.parts .quads hq
  have h3 : e.chans = d.chans := k.parts .chans hc
  have h4 : e.start.st = d.start.st := k.parts .devState hs
  have h5 : e.bus = d.bus := k.parts .bus hb
  have h6 : e.therm = d.therm := k.parts .therm ht
  exact ⟨⟨h1, hm, fun _ => by rw [h2], fun _ => by rw [h3], by rw [modelsRun, h4, h5, modelsRun]⟩, fun _ => by rw [h6]⟩

theorem of_keeps {S : List Part} (k : Keeps S d e) (hf : S.contains .fi = false := by rfl) (hconf : S.contains .conf = false := by rfl)
    (hq : S.contains .quads = false := by rfl) (hc : S.contains .chans = false := by rfl) (hs : S.contains .devState = false := by rfl)
    (hb : S.contains .bus = false := by rfl) (ht : S.contains .therm = false := by rfl) : SameModels d e :=
  of_mode k (k.fiMode_eq hf) hconf hq hc hs hb ht

theorem kept (h : SameModels d e) (m : Model) : (e.therm[m]).tj = (d.therm[m]).tj ∧ (e.therm[m]).th0 = (d.therm[m]).th0 ∧ (e.therm[m]).th1 = (d.therm[m]).th1 ∧
    (e.therm[m]).th2 = (d.therm[m]).th2 ∧ (e.therm[m]).th3 = (d.therm[m]).th3 ∧ (e.therm[m]).trip = (d.therm[m]).trip :=
  have k {α : Type} (f : ThermSt → α) : f (sansFrame e.therm[m]) = f (sansFrame d.therm[m]) := congrArg f (h.model m)
  ⟨k ThermSt.tj, k ThermSt.th0, k ThermSt.th1, k ThermSt.th2, k ThermSt.th3, k ThermSt.trip⟩

theorem updChan (c : Chan) (f : ChanSt → ChanSt) (hf : ∀ s, (f s).armed = s.armed) (d : Device) : SameModels d (d.updChan c f) :=
  ⟨⟨rfl, rfl, fun _ => rfl, upd_field d.chans c f ChanSt.armed hf, rfl⟩, fun _ => rfl⟩

theorem updTherm (m : Model) (f : ThermSt → ThermSt) (hf : ∀ s, sansFrame (f s) = sansFrame s) (d : Device) : SameModels d (d.updTherm m f) :=
  ⟨⟨rfl, rfl, fun _ => rfl, fun _ => rfl, rfl⟩, upd_field d.therm m f sansFrame hf⟩

theorem forEach {α : Type} {f : α → Device → Device} (hf : ∀ a d, SameModels d (f a d)) (l : List α) (d : Device) : SameModels d (Machine.forEach l f d) :=
  forEach_induct (SameModels d) l f (fun a _ he => he.trans (hf a _)) d (.refl d)

theorem latch (d : Device) : SameModels d (latchAtStart d) := by
  refine ⟨⟨rfl, rfl, fun _ => rfl, fun _ => rfl, ?_⟩, fun _ => rfl⟩
  unfold modelsRun latchAtStart
  rw [updStart_start]
  cases d.start.st <;> cases d.start.modeUnstable <;> rfl

end SameModels

theorem sameModels_closed (d : Device) : RaiseClosed (SameModels d) where
  keeps _ _ k h := h.trans (.of_keeps k)
  latch _ h := h.trans (.latch _)
  chan c f x hf h := h.trans (.updChan c f (fun s => show (sansHold (f s)).armed = (sansHold s).armed from congrArg ChanSt.armed (hf s)) x)
  prof c f x _ h := h.trans (.of_keeps (updProf_keeps c f x))
  slot _ _ _ _ _ h := h.trans ⟨⟨rfl, rfl, fun _ => rfl, fun _ => rfl, rfl⟩, fun _ => rfl⟩

/-! ### What reaches housekeeping before an update (R382) -/

theorem memWrite_mode (a : Nat) (bs : List Byte) (d : Device) : (memWrite a bs d).col.fiMode = d.col.fiMode := by
  have h (x : Device) : (fiEvent x).col.fiMode = x.col.fiMode := (fiEvent_keeps x).fiMode_eq
  exact if_cases (p := fun x : Device => x.col.fiMode = d.col.fiMode) ((h _).trans rfl) rfl

theorem memWrite_models (a : Nat) (bs : List Byte) (d : Device) : SameModels d (memWrite a bs d) := .of_mode (memWrite_keeps ..) (memWrite_mode ..)

theorem chargeArrives_models (c : Chan) (qi qo : Nat) (fill : Option (Nat × Nat)) (d : Device) : SameModels d (chargeArrives c qi qo fill d) := by
  have hp (f : ProfSt → ProfSt) (x : Device) : SameModels x (x.updProf c f) := .of_keeps (updProf_keeps c f x)
  have hr (a b : Nat) (x : Device) : SameModels x (reconcile c a b x) := by
    unfold reconcile
    dsimp only
    refine if_cases (p := SameModels x) (hp ..) ((sameModels_closed x).raise _ ?_)
    exact (hp _ x).trans (.of_keeps (logEvent_keeps ..))
  have h1 := (hp (fun p => { p with hkIn := p.hkIn + qi, hkOut := p.hkOut + qo }) d).trans (memWrite_models (0xE2000 + 16 * c.1) (leBytes 8
    (((d.updProf c fun p => { p with hkIn := p.hkIn + qi, hkOut := p.hkOut + qo }).profs[c]).hkIn / 65536) ++ leBytes 8
    (((d.updProf c fun p => { p with hkIn := p.hkIn + qi, hkOut := p.hkOut + qo }).profs[c]).hkOut / 65536)) _)
  unfold chargeArrives
  dsimp only
  split
  · exact h1.trans (hr ..)
  · exact h1

theorem trackStore_mode (m : Pm) (i : Nat) (x y : Int) (d : Device) : (trackStore m i x y d).col.fiMode = d.col.fiMode := by
  unfold trackStore
  dsimp only
  have h (e : Device) : (memWrite (trackAddr (spareNo m) i (trackCount (d.mods[m]) i % 8)) (leBytes 4 (enc32 x) ++ leBytes 4 (enc32 y)) e).col.fiMode = e.col.fiMode :=
    memWrite_mode ..
  rw [updMod_col, h]
  exact if_cases (p := fun e : Device => e.col.fiMode = d.col.fiMode) (trackLoss_keeps ..).fiMode_eq rfl

/-- Of the results that arrive only a tracking sample is stored in memory, and no store ends an injection. -/
theorem resultArrives_mode (m : Pm) (v : Conv) (raw code : Int) (w : Word) (x : Option Int) (d : Device) :
    (resultArrives m v raw code w x d).col.fiMode = d.col.fiMode := by
  have hrel (i : Nat) (e : Device) : (arbRelease (mport m) i e).col.fiMode = e.col.fiMode := (arbRelease_keeps ..).fiMode_eq
  have hreq (i : Nat) (e : Device) : (arbRequest (mport m) i e).col.fiMode = e.col.fiMode := (arbRequest_keeps ..).fiMode_eq
  have hend (e : Device) : (injEnd m e).col.fiMode = e.col.fiMode := (injEnd_keeps ..).fiMode_eq
  have hseq (t : Table) (b : Bool) (e : Device) : (seqResult t m w b e).col.fiMode = e.col.fiMode := (seqResult_keeps ..).fiMode_eq
  unfold resultArrives
  dsimp only
  split
  · split
    · refine if_cases (p := fun e : Device => e.col.fiMode = d.col.fiMode) (if_cases (p := fun e : Device => e.col.fiMode = d.col.fiMode) ?_ ?_) ?_
      · rw [hreq, hrel, updMod_col, hseq]
      · rw [hrel, updMod_col, hseq]
      · rw [(convStart_keeps ..).fiMode_eq, hseq]
    · exact hrel ..
  · refine if_cases (p := fun e : Device => e.col.fiMode = d.col.fiMode) (hrel ..) (if_cases (p := fun e : Device => e.col.fiMode = d.col.fiMode) ?_
      (if_cases (p := fun e : Device => e.col.fiMode = d.col.fiMode) ?_ ?_))
    · rw [hreq, hrel, updHk_col]
    · rw [hreq, hrel, updHk_col, (fbMark_keeps ..).fiMode_eq]
    · rw [hrel, updHk_col, (fbMark_keeps ..).fiMode_eq]
  · rw [hend]
    refine if_cases (p := fun e : Device => e.col.fiMode = d.col.fiMode) ?_ ?_
    · rw [(recClose_keeps ..).fiMode_eq, hrel, updMod_col]
    · rw [hrel, updMod_col]
  · rw [hend, hrel, updMod_col]
    split
    · exact trackStore_mode ..
    · rfl
  · refine if_cases (p := fun e : Device => e.col.fiMode = d.col.fiMode) ?_ ?_
    · rw [hreq, hrel, updCal_col]
    · rw [hrel, updCal_col]
  · split
    · rw [hseq, hrel]
    · exact hrel ..

theorem deliverHk_models (q : Quad) (m : Msg) (d : Device) : SameModels d (deliverHk q m d) := by
  cases m with
  | losses v =>
    exact .forEach (f := fun (x : Model × Qty) e => e.updTherm x.1 fun t => { t with frameE := t.frameE + x.2 }) (fun x e => .updTherm x.1 (fun t => { t with frameE := t.frameE + x.2 }) (fun _ => rfl) e) _ d
  | charge c qi qo t => exact chargeArrives_models c qi qo t d
  | event code r => exact .of_keeps (logQueue_keeps ..)
  | record c bs => exact .of_keeps (recordArrives_keeps ..)
  | sample kind obj now x => exact .of_keeps (capSample_keeps ..)
  | sys v w t =>
    exact ⟨⟨rfl, rfl, upd_field d.quads q (fun s => { s with hkVal := v, hkAt := some t, hkWord := w }) QuadSt.armed fun _ => rfl, fun _ => rfl, rfl⟩, fun _ => rfl⟩
  | result m v raw code w x => exact if_cases (p := SameModels d) (.of_mode (resultArrives_keeps ..) (resultArrives_mode ..)) (.refl d)
  | _ => exact .refl d

theorem drainHk_models (q : Quad) (d : Device) : SameModels d (drainHk q d) :=
  if_cases (p := SameModels d) (.refl d) ((SameModels.of_keeps (setFifo_keeps (.toHk q) [] d)).trans (.forEach (fun m e => deliverHk_models q m e) _ _))

theorem toQd_ne_toHk (q p : Quad) : xIndex (.toQd q) ≠ xIndex (.toHk p) := by
  intro he
  have hv := congrArg Fin.val he
  simp only [xIndex] at hv
  have hq := q.2
  omega

theorem drainHk_fifo (p q : Quad) (d : Device) : (drainHk p d).isl.fifo[xIndex (.toQd q)] = d.isl.fifo[xIndex (.toQd q)] := by
  have h1 : (setFifo (.toHk p) [] d).isl.fifo[xIndex (.toQd q)] = d.isl.fifo[xIndex (.toQd q)] := upd_other _ _ _ _ (toQd_ne_toHk q p)
  refine if_cases (p := fun x : Device => x.isl.fifo[xIndex (.toQd q)] = d.isl.fifo[xIndex (.toQd q)]) rfl ?_
  exact forEach_induct (fun x : Device => x.isl.fifo[xIndex (.toQd q)] = d.isl.fifo[xIndex (.toQd q)]) _ _
    (fun m e he => by rw [(deliverHk_keeps p m e).fifo_eq]; exact he) _ h1

/-- The device at which the models move: what waits has arrived. -/
def lossesIn (d : Device) : Device := forEach allQuads drainHk d

theorem lossesIn_models (d : Device) : SameModels d (lossesIn d) := .forEach drainHk_models ..

theorem lossesIn_fifo (q : Quad) (d : Device) : (lossesIn d).isl.fifo[xIndex (.toQd q)] = d.isl.fifo[xIndex (.toQd q)] :=
  forEach_induct (fun x : Device => x.isl.fifo[xIndex (.toQd q)] = d.isl.fifo[xIndex (.toQd q)]) _ _ (fun p e he => (drainHk_fifo p q e).trans he) d rfl

/-! ### The coolant is judged (R388) -/

theorem coolantStep_models (j : Fin 4) (d : Device) : SameModels d (coolantStep j d) := by
  have h (f : HkSt → HkSt) : SameModels d (d.updHk f) := .of_keeps (updHk_keeps f d)
  unfold coolantStep
  dsimp only
  refine if_cases (p := SameModels d) (if_cases (p := SameModels d) (if_cases (p := SameModels d) ?_ ?_) ?_) (.refl d)
  · exact (sameModels_closed d).faultEnds _ (h _)
  · exact h _
  · exact (sameModels_closed d).raiseLevel _ _ (h _)

theorem coolantJudge_models (d : Device) : SameModels d (coolantJudge d) :=
  if_cases (p := SameModels d) (forEach_induct (SameModels d) _ _ (fun j e he => he.trans (coolantStep_models j e)) _ (.of_keeps (updHk_keeps _ d))) (.refl d)

theorem coolantJudge_therm (d : Device) : (coolantJudge d).therm = d.therm := (coolantJudge_keeps d).parts .therm rfl

/-! ### One model (R381, R391) -/

theorem SameInputs.cf {d e : Device} (h : SameInputs d e) (a lo w : Nat) : e.cf a lo w = d.cf a lo w := by rw [Device.cf, h.conf, Device.cf]

theorem modelInUse_congr {d e : Device} (h : SameInputs d e) (m : Model) : modelInUse e m = modelInUse d m := by
  have hph (n : Slot) : phChan e n = phChan d n := by simp only [phChan, h.conf]
  have has (n : Slot) : assignedTo e n = assignedTo d n := by simp only [assignedTo, hph]
  have hsp (n : Slot) : isSpareSlot e n = isSpareSlot d n := by simp only [isSpareSlot, h.conf]
  simp only [modelInUse, h.quadArmed, h.chanArmed, has, hsp]

theorem modelsRun_colRuns {d : Device} (h : modelsRun d = true) : colRuns d = true := by
  rw [modelsRun, Bool.or_eq_true, Bool.and_eq_true, decide_eq_true_eq, decide_eq_true_eq] at h
  rcases h with h | ⟨h, -⟩ <;> rw [colRuns, h] <;> rfl

/-- A stage of a model after the frame. -/
def stageMoved (d : Device) (m : Model) (k : Nat) (th : Qty) : Qty := stageStep (frRth d m k) (frTau d m k) ((d.therm[m]).frameE * 1000) th

/-- The junction temperature after the frame. -/
def movedTj (d : Device) (m : Model) : Qty :=
  coolant d (tmCl d m) + stageMoved d m 0 (d.therm[m]).th0 + stageMoved d m 1 (d.therm[m]).th1 + stageMoved d m 2 (d.therm[m]).th2 + stageMoved d m 3 (d.therm[m]).th3

/-- A model after the frame. -/
def modelMoved (d : Device) (m : Model) : ThermSt :=
  { d.therm[m] with
    th0 := stageMoved d m 0 (d.therm[m]).th0, th1 := stageMoved d m 1 (d.therm[m]).th1, th2 := stageMoved d m 2 (d.therm[m]).th2
    th3 := stageMoved d m 3 (d.therm[m]).th3, tcool := coolant d (tmCl d m), tj := movedTj d m, p := (d.therm[m]).frameE * 1000
    kth := kthOf (movedTj d m) (tDr d m) (tTrip d m) (drMin d m), frameE := 0
    derate := if decide (tDr d m < movedTj d m) then true else if decide (movedTj d m < tDr d m) then false else (d.therm[m]).derate
    trip := if decide (tTrip d m ≤ movedTj d m) then true else if decide (movedTj d m < tDr d m) then false else (d.therm[m]).trip
    peak := peakOf d.therm[m] (movedTj d m) }

/-- The sources of a model that derates, and of one that trips. -/
def deratedFault (m : Model) : Fsrc := Fin.ofNat 2048 (0x240 + m.1)
def trippedFault (m : Model) : Fsrc := Fin.ofNat 2048 (tripSource m.1)

/-- The two sources of a model follow its temperature. -/
def modelJudged (m : Model) (hot cold trip : Bool) (d : Device) : Device :=
  let d := if hot then raiseLevel (0x240 + m.1) 0 d else if cold then faultEnds (0x240 + m.1) d else d
  if trip then raiseLevel (tripSource m.1) 0 d else if cold then faultEnds (tripSource m.1) d else d

theorem modelStep_used {m : Model} {d : Device} (h : modelInUse d m = true) : modelStep m d =
    modelJudged m (decide (tDr d m < movedTj d m)) (decide (movedTj d m < tDr d m)) (decide (tTrip d m ≤ movedTj d m)) (d.updTherm m fun _ => modelMoved d m) := if_pos h

/-- A model out of use follows its coolant. -/
def modelResting (d : Device) (m : Model) (x : ThermSt) : ThermSt :=
  { x with tcool := coolant d (tmCl d m), tj := coolant d (tmCl d m), frameE := 0, energy := 0, peak := peakOf x (coolant d (tmCl d m)) }

theorem modelStep_unused {m : Model} {d : Device} (h : modelInUse d m = false) : modelStep m d = d.updTherm m (modelResting d m) :=
  if_neg (by rw [h]; exact Bool.false_ne_true)

theorem modelJudged_keeps (m : Model) (hot cold trip : Bool) (d : Device) :
    Keeps [.devState, .latch, .arbs, .slots, .chans, .profs, .paths, .srcs, .faults, .col, .log, .caps, .alert] d (modelJudged m hot cold trip d) := by
  have h (f : Nat) (a b : Bool) (x : Device) : Keeps [.devState, .latch, .arbs, .slots, .chans, .profs, .paths, .srcs, .faults, .col, .log, .caps, .alert] x
      (if a then raiseLevel f 0 x else if b then faultEnds f x else x) :=
    if_cases (p := Keeps _ x) ((raiseLevel_keeps ..).mono rfl) (if_cases (p := Keeps _ x) ((faultEnds_keeps ..).mono rfl) (.refl ..))
  exact (h ..).trans (h ..)

theorem modelJudged_inputs (m : Model) (hot cold trip : Bool) (d : Device) : SameInputs d (modelJudged m hot cold trip d) := by
  have h (f : Nat) (a b : Bool) (x : Device) (hx : SameModels d x) : SameModels d (if a then raiseLevel f 0 x else if b then faultEnds f x else x) :=
    if_cases (p := SameModels d) ((sameModels_closed d).raiseLevel f 0 hx) (if_cases (p := SameModels d) ((sameModels_closed d).faultEnds f hx) hx)
  exact (h _ _ _ _ (h _ _ _ _ (.refl d))).toSameInputs

theorem faultEnds_apart {f : Nat} (d : Device) {g : Fsrc} (hg : g ≠ Fin.ofNat 2048 f) : (faultEnds f d).faults[g] = d.faults[g] :=
  if_cases (p := fun x : Device => x.faults[g] = d.faults[g])
    (if_cases (p := fun x : Device => x.faults[g] = d.faults[g]) ((upd_other _ _ _ _ hg).trans (raiseX_fault_other true _ d hg)) rfl) (upd_other _ _ _ _ hg)

theorem judged_apart (f : Nat) (a b : Bool) (d : Device) {g : Fsrc} (hg : g ≠ Fin.ofNat 2048 f) :
    (if a then raiseLevel f 0 d else if b then faultEnds f d else d).faults[g] = d.faults[g] :=
  if_cases (p := fun x : Device => x.faults[g] = d.faults[g]) (raiseLevel_other 0 d hg) (if_cases (p := fun x : Device => x.faults[g] = d.faults[g]) (faultEnds_apart d hg) rfl)

theorem modelJudged_other (m : Model) (hot cold trip : Bool) (d : Device) {g : Fsrc} (h1 : g ≠ deratedFault m) (h2 : g ≠ trippedFault m) :
    (modelJudged m hot cold trip d).faults[g] = d.faults[g] := (judged_apart _ _ _ _ h2).trans (judged_apart _ _ _ _ h1)

theorem tripSource_cases (m : Model) : (m.1 < 136 ∧ tripSource m.1 = 0x1B0 + m.1) ∨ (136 ≤ m.1 ∧ m.1 < 168 ∧ tripSource m.1 = 0x480 + (m.1 - 136)) ∨
    (168 ≤ m.1 ∧ tripSource m.1 = 0x4B0 + (m.1 - 168)) := by
  unfold tripSource
  split_ifs <;> omega

theorem derated_ne_tripped (m b : Model) : deratedFault m ≠ trippedFault b := by
  intro he
  have hv := congrArg Fin.val he
  simp only [deratedFault, trippedFault, Fin.val_ofNat] at hv
  have hm := m.2
  have hb := b.2
  rcases tripSource_cases b with h | h | h <;> omega

theorem derated_ne {m b : Model} (h : m ≠ b) : deratedFault m ≠ deratedFault b := by
  intro he
  have hv := congrArg Fin.val he
  simp only [deratedFault, Fin.val_ofNat] at hv
  have hm := m.2
  have hb := b.2
  exact h (Fin.ext (by omega))

theorem tripped_ne {m b : Model} (h : m ≠ b) : trippedFault m ≠ trippedFault b := by
  intro he
  have hv := congrArg Fin.val he
  simp only [trippedFault, Fin.val_ofNat] at hv
  have hm := m.2
  have hb := b.2
  refine h (Fin.ext ?_)
  rcases tripSource_cases m with k | k | k <;> rcases tripSource_cases b with j | j | j <;> omega

theorem deratedScope (m : Model) : ∃ sc, scopeOf (0x240 + m.1) = some sc := by
  have hm := m.2
  unfold scopeOf
  iterate 4 rw [if_neg (by omega)]
  exact ⟨_, if_pos (by omega)⟩

theorem trippedScope (m : Model) : ∃ sc, scopeOf (tripSource m.1) = some sc := by
  have hm := m.2
  rcases tripSource_cases m with ⟨h, he⟩ | ⟨h, h', he⟩ | ⟨h, he⟩ <;> rw [he, scopeOf]
  · iterate 3 rw [if_neg (by omega)]
    exact ⟨_, if_pos (by omega)⟩
  · iterate 6 rw [if_neg (by omega)]
    exact ⟨_, if_pos (by omega)⟩
  · iterate 9 rw [if_neg (by omega)]
    exact ⟨_, if_pos (by omega)⟩

/-- A hot model derates, and one that trips trips. -/
theorem modelJudged_active {m : Model} {hot cold trip : Bool} {d : Device} (hc : colRuns d = true) (hi : d.col.fiMode ≠ 3) :
    (hot = true → ((modelJudged m hot cold trip d).faults[deratedFault m]).active = true) ∧
      (trip = true → ((modelJudged m hot cold trip d).faults[trippedFault m]).active = true) := by
  obtain ⟨s1, h1⟩ := deratedScope m
  obtain ⟨s2, h2⟩ := trippedScope m
  refine ⟨fun hh => ?_, fun hh => ?_⟩
  · refine (congrArg FaultSt.active (judged_apart (tripSource m.1) trip cold _ (derated_ne_tripped m m))).trans ?_
    rw [hh, if_pos rfl]
    exact raiseLevel_active 0 h1 hc hi
  · have hin : SameModels d (if hot then raiseLevel (0x240 + m.1) 0 d else if cold then faultEnds (0x240 + m.1) d else d) :=
      if_cases (p := SameModels d) ((sameModels_closed d).raiseLevel _ 0 (.refl d))
        (if_cases (p := SameModels d) ((sameModels_closed d).faultEnds _ (.refl d)) (.refl d))
    have hcr : colRuns (if hot then raiseLevel (0x240 + m.1) 0 d else if cold then faultEnds (0x240 + m.1) d else d) = true :=
      if_cases (p := fun x : Device => colRuns x = true) (raiseLevel_colRuns _ 0 hc) (if_cases (p := fun x : Device => colRuns x = true) (faultEnds_colRuns _ hc) hc)
    unfold modelJudged
    dsimp only
    rw [hh, if_pos rfl]
    exact raiseLevel_active 0 h2 hcr (by rw [hin.mode]; exact hi)

/-! ### Every model (R381) -/

/-- What the move of another model leaves of a model. -/
structure ModelApart (m : Model) (d e : Device) : Prop extends SameInputs d e where
  model : e.therm[m] = d.therm[m]
  derated : e.faults[deratedFault m] = d.faults[deratedFault m]
  tripped : e.faults[trippedFault m] = d.faults[trippedFault m]

theorem ModelApart.refl (m : Model) (d : Device) : ModelApart m d d := ⟨.refl d, rfl, rfl, rfl⟩

theorem ModelApart.trans (m : Model) (d e g : Device) (h : ModelApart m d e) (k : ModelApart m e g) : ModelApart m d g :=
  ⟨h.toSameInputs.trans k.toSameInputs, k.model.trans h.model, k.derated.trans h.derated, k.tripped.trans h.tripped⟩

theorem modelStep_apart (m b : Model) (d : Device) (h : b ≠ m) : ModelApart m d (modelStep b d) := by
  have hu (f : ThermSt → ThermSt) : ModelApart m d (d.updTherm b f) := ⟨⟨rfl, rfl, fun _ => rfl, fun _ => rfl, rfl⟩, upd_other _ _ _ _ (Ne.symm h), rfl, rfl⟩
  have hj (hot cold trip : Bool) (x : Device) : ModelApart m x (modelJudged b hot cold trip x) := by
    have ht : (modelJudged b hot cold trip x).therm = x.therm := (modelJudged_keeps ..).parts .therm rfl
    exact ⟨modelJudged_inputs .., by rw [ht], modelJudged_other _ _ _ _ _ (derated_ne (Ne.symm h)) (derated_ne_tripped m b),
      modelJudged_other _ _ _ _ _ (derated_ne_tripped b m).symm (tripped_ne (Ne.symm h))⟩
  cases hb : modelInUse d b with
  | true =>
    rw [modelStep_used hb]
    exact .trans m _ _ _ (hu _) (hj ..)
  | false =>
    rw [modelStep_unused hb]
    exact hu _

/-- Each model moves once, from what the device held before. -/
theorem modelSteps_once (m : Model) (d : Device) : ∃ e, ModelApart m d e ∧ ModelApart m (modelStep m e) (forEach allModels modelStep d) :=
  forEach_once (R := ModelApart) ModelApart.refl ModelApart.trans modelStep_apart (List.nodup_finRange 172) (List.mem_finRange m) d

/-- What the models are made from, seen from an earlier device. -/
theorem SameInputs.model {d e : Device} (h : SameInputs d e) (m k : Nat) : frRth e m k = frRth d m k ∧ frTau e m k = frTau d m k ∧ tDr e m = tDr d m ∧
    tTrip e m = tTrip d m ∧ drMin e m = drMin d m := by
  simp only [frRth, frTau, tDr, tTrip, drMin, h.cf, h.conf, and_self]

/-- A coolant channel that no modulator feeds has the temperature of the image. -/
theorem SameInputs.unfed {d e : Device} (h : SameInputs d e) {m : Nat} (hf : clFed d (tmCl d m) = false) : coolant e (tmCl e m) = tCool d (tmCl d m) := by
  have hcl : tmCl e m = tmCl d m := h.cf ..
  have hfed : clFed e (tmCl d m) = false := by
    rw [clFed, h.cf]
    exact hf
  rw [hcl, coolant, hfed, Bool.false_and, if_neg Bool.false_ne_true, tCool, h.cf, tCool]

/-- The device whose models have moved. -/
def modelsMoved (d : Device) : Device := forEach allModels modelStep (coolantJudge (lossesIn d))

theorem thermalUpdate_runs {d : Device} (h : modelsRun d = true) : thermalUpdate d = forEach allQuads sendTj (modelsQueue (modelsMoved d)) :=
  if_pos ((((lossesIn_models d).trans (coolantJudge_models _)).runs).trans h)

theorem thermalUpdate_waits {d : Device} (h : modelsRun d = false) : thermalUpdate d = coolantJudge (lossesIn d) :=
  if_neg (by rw [← lossesIn, ((lossesIn_models d).trans (coolantJudge_models _)).runs, h]; exact Bool.false_ne_true)

/-- The device before a model moves: what the model is made from is as before the update, and the energy is that of the frame. -/
structure BeforeMove (m : Model) (d e : Device) : Prop extends SameInputs d e where
  model : sansFrame e.therm[m] = sansFrame d.therm[m]
  energy : (e.therm[m]).frameE = ((lossesIn d).therm[m]).frameE

theorem modelsMoved_used {m : Model} {d : Device} (hr : modelsRun d = true) (hi : d.col.fiMode ≠ 3) (hu : modelInUse d m = true) :
    ∃ e, BeforeMove m d e ∧ (modelsMoved d).therm[m] = modelMoved e m ∧
      (tDr d m < movedTj e m → ((modelsMoved d).faults[deratedFault m]).active = true) ∧
      (tTrip d m ≤ movedTj e m → ((modelsMoved d).faults[trippedFault m]).active = true) := by
  obtain ⟨e, he, hs⟩ := modelSteps_once m (coolantJudge (lossesIn d))
  have hj := (lossesIn_models d).trans (coolantJudge_models _)
  have hin : SameInputs d e := hj.toSameInputs.trans he.toSameInputs
  have hstep := modelStep_used ((modelInUse_congr hin m).trans hu)
  obtain ⟨-, -, hdr, htr, -⟩ := hin.model m 0
  have hcol : colRuns (e.updTherm m fun _ => modelMoved e m) = true := modelsRun_colRuns (hin.runs.trans hr)
  have hmode : (e.updTherm m fun _ => modelMoved e m).col.fiMode ≠ 3 := by rw [updTherm_col, hin.mode]; exact hi
  have hact := modelJudged_active (m := m) (hot := decide (tDr e m < movedTj e m)) (cold := decide (movedTj e m < tDr e m))
    (trip := decide (tTrip e m ≤ movedTj e m)) hcol hmode
  rw [← hstep] at hact
  obtain ⟨hd, ht⟩ := hact
  refine ⟨e, ⟨hin, by rw [he.model]; exact hj.model m, by rw [he.model, coolantJudge_therm]⟩, ?_, fun h => ?_, fun h => ?_⟩
  · rw [modelsMoved, hs.model, hstep, show (modelJudged m _ _ _ (e.updTherm m fun _ => modelMoved e m)).therm = _ from (modelJudged_keeps ..).parts .therm rfl,
      updTherm_therm, upd_same]
  · rw [modelsMoved, hs.derated]
    exact hd (decide_eq_true (hdr.symm ▸ h))
  · rw [modelsMoved, hs.tripped]
    exact ht (decide_eq_true (htr.symm ▸ h))

/-- The stages of a model, and its temperature, as the frame leaves them. -/
theorem BeforeMove.stages {m : Model} {d e : Device} (h : BeforeMove m d e) :
    (modelMoved e m).th0 = stageStep (frRth d m 0) (frTau d m 0) (((lossesIn d).therm[m]).frameE * 1000) (d.therm[m]).th0 ∧
      (modelMoved e m).th1 = stageStep (frRth d m 1) (frTau d m 1) (((lossesIn d).therm[m]).frameE * 1000) (d.therm[m]).th1 ∧
      (modelMoved e m).th2 = stageStep (frRth d m 2) (frTau d m 2) (((lossesIn d).therm[m]).frameE * 1000) (d.therm[m]).th2 ∧
      (modelMoved e m).th3 = stageStep (frRth d m 3) (frTau d m 3) (((lossesIn d).therm[m]).frameE * 1000) (d.therm[m]).th3 := by
  have hst (k : Nat) (th : Qty) : stageMoved e m k th = stageStep (frRth d m k) (frTau d m k) (((lossesIn d).therm[m]).frameE * 1000) th := by
    obtain ⟨hr, ht, -⟩ := h.toSameInputs.model m k
    rw [stageMoved, hr, ht, h.energy]
  have k {α : Type} (f : ThermSt → α) : f (sansFrame e.therm[m]) = f (sansFrame d.therm[m]) := congrArg f h.model
  have h0 : (e.therm[m]).th0 = (d.therm[m]).th0 := k ThermSt.th0
  have h1 : (e.therm[m]).th1 = (d.therm[m]).th1 := k ThermSt.th1
  have h2 : (e.therm[m]).th2 = (d.therm[m]).th2 := k ThermSt.th2
  have h3 : (e.therm[m]).th3 = (d.therm[m]).th3 := k ThermSt.th3
  exact ⟨(hst ..).trans (by rw [h0]), (hst ..).trans (by rw [h1]), (hst ..).trans (by rw [h2]), (hst ..).trans (by rw [h3])⟩

theorem BeforeMove.tj {m : Model} {d e : Device} (h : BeforeMove m d e) (hf : clFed d (tmCl d m) = false) : (modelMoved e m).tj =
    tCool d (tmCl d m) + (modelMoved e m).th0 + (modelMoved e m).th1 + (modelMoved e m).th2 + (modelMoved e m).th3 := by
  change movedTj e m = _
  rw [movedTj, h.toSameInputs.unfed hf]
  rfl

theorem BeforeMove.kth {m : Model} {d e : Device} (h : BeforeMove m d e) :
    (modelMoved e m).kth = kthOf (modelMoved e m).tj (tDr d m) (tTrip d m) (drMin d m) := by
  obtain ⟨-, -, hdr, htr, hmin⟩ := h.toSameInputs.model m 0
  rw [← hdr, ← htr, ← hmin]
  rfl

theorem BeforeMove.limits {m : Model} {d e : Device} (h : BeforeMove m d e) : (tDr d m < movedTj e m → (modelMoved e m).derate = true) ∧
    (tTrip d m ≤ movedTj e m → (modelMoved e m).trip = true) := by
  obtain ⟨-, -, hdr, htr, -⟩ := h.toSameInputs.model m 0
  rw [← hdr, ← htr]
  exact ⟨fun hh => if_pos (decide_eq_true hh), fun hh => if_pos (decide_eq_true hh)⟩

/-! ### What is sent and what waits -/

/-- A channel to a quadrant has only gained messages. -/
def Grows (q : Quad) (d e : Device) : Prop := ∃ l, e.isl.fifo[xIndex (.toQd q)] = d.isl.fifo[xIndex (.toQd q)] ++ l

namespace Grows
variable {q : Quad} {d e g : Device}

theorem of_eq (h : e.isl.fifo = d.isl.fifo) : Grows q d e := ⟨[], by rw [h, List.append_nil]⟩

theorem refl (q : Quad) (d : Device) : Grows q d d := .of_eq rfl

theorem of_keeps {S : List Part} (k : Keeps S d e) (h : S.contains .isl = false := by rfl) : Grows q d e := .of_eq (k.fifo_eq h)

theorem trans (h : Grows q d e) (k : Grows q e g) : Grows q d g := by
  obtain ⟨l, h⟩ := h
  obtain ⟨m, k⟩ := k
  exact ⟨l ++ m, by rw [k, h, List.append_assoc]⟩

theorem send (x : Crossing) (m : Msg) (d : Device) : Grows q d (send x m d) := by
  by_cases h : xIndex (.toQd q) = xIndex x
  · exact ⟨[m], by simp only [h]; exact send_fifo_same x m d⟩
  · exact ⟨[], by rw [send_fifo_other h, List.append_nil]⟩

theorem forEach {α : Type} {f : α → Device → Device} (hf : ∀ a d, Grows q d (f a d)) (l : List α) (d : Device) : Grows q d (Machine.forEach l f d) :=
  forEach_induct (Grows q d) l f (fun a _ he => he.trans (hf a _)) d (.refl q d)

theorem setBus (st : BusState) (d : Device) : Grows q d (setBus st d) :=
  (of_eq rfl : Grows q d (d.updBus fun b => { b with st := st, entered := d.up })).trans (.forEach (f := fun q d => Machine.send (.toQd q) (.bus st) d) (fun _ _ => .send ..) _ _)

theorem handover (d : Device) : Grows q d (handover d) := by
  have hs (x : Device) : Grows q x (sendBudgets (fun _ => 0) x) :=
    .forEach (f := fun c d => Machine.send (.toQd (Chan.quad c)) (.budget c 0) d) (fun _ _ => .send ..) allChans x
  unfold Machine.handover
  refine trans ?_ (.of_keeps (raise_keeps ..))
  refine trans (trans (trans (setBus .handover d) (.of_keeps (updBus_keeps ..))) (hs _)) (.of_keeps (set_srcs_keeps ..))

theorem halveCall (k : Src) (d : Device) : Grows q d (halveCall k d) := by
  have hs : Grows q d (halveBegun k d) := (of_eq (halveBegun_fifo k d) : Grows q d _).trans
    (.forEach (f := fun q d => Machine.send (.between k q) .halve d) (fun _ _ => .send ..) _ _)
  rw [halveCall_eq]
  exact if_cases (p := Grows q d) (.refl q d) (if_cases (p := Grows q d) (hs.trans (.of_keeps (raise_keeps ..))) hs)

theorem halveEval (d : Device) : Grows q d (halveEval d) := by
  cases h : halveWanted d with
  | true =>
    rw [halveEval_called h]
    exact (of_eq rfl : Grows q d (halvingCalled d)).trans (.forEach halveCall _ _)
  | false =>
    rw [halveEval_idle h]
    exact .of_eq rfl

theorem srcToRamp (k : Src) (d : Device) : Grows q d (srcToRamp k d) :=
  if_cases (p := Grows q d) (.of_eq rfl) ((of_eq rfl : Grows q d (d.updSrc k fun s =>
    { s with st := .ramp, g := 0, gAt := d.up, checkAt := none, passed := false, qualAt := none, lowRun := 0 })).trans (.halveEval _))

theorem srcHoDone (k : Src) (d : Device) : Grows q d (srcHoDone k d) := by
  unfold Machine.srcHoDone
  split
  · exact .srcToRamp k d
  · exact .of_eq rfl
  · exact .refl q d

theorem busMove (d : Device) : Grows q d (busMove d) := by
  unfold Machine.busMove
  split
  · exact if_cases (p := Grows q d) (.refl q d) (.handover d)
  · exact if_cases (p := Grows q d) ((setBus .onStrings d).trans (.forEach srcHoDone _ _)) (.refl q d)
  · exact if_cases (p := Grows q d) (.setBus .ret d) (.refl q d)
  · exact if_cases (p := Grows q d) (.handover d) (if_cases (p := Grows q d) (.refl q d) (.setBus .sourced d))
  · exact .refl q d

theorem busEval (d : Device) : Grows q d (busEval d) := (busMove d).trans ((busMove _).trans ((busMove _).trans (busMove _)))

end Grows

/-- What the sending to another quadrant leaves. -/
theorem sendTjs_fifo (q : Quad) (d : Device) : (forEach allQuads sendTj d).isl.fifo[xIndex (.toQd q)] =
    d.isl.fifo[xIndex (.toQd q)] ++ [.tj ((quadModels q).map fun m => ((d.therm[m]).tj, (d.therm[m]).kth))] := by
  obtain ⟨e, ⟨hf, ht⟩, hs, -⟩ := forEach_once (R := fun (q : Quad) (d e : Device) => e.isl.fifo[xIndex (.toQd q)] = d.isl.fifo[xIndex (.toQd q)] ∧ e.therm = d.therm)
    (f := sendTj) (fun _ _ => ⟨rfl, rfl⟩) (fun _ _ _ _ h k => ⟨k.1.trans h.1, k.2.trans h.2⟩)
    (fun a b d h => ⟨send_fifo_other (xIndex_toQd_ne (Ne.symm h)) _ d, rfl⟩) (List.nodup_finRange 4) (List.mem_finRange q) d
  refine hs.trans ?_
  rw [sendTj, send_fifo_same, hf, ht]

/-- What waits at the memory write port still waits after the bus has moved. -/
theorem busEval_waits {k : Nat} {d : Device} (h : (d.arbs[wport]).pending.any (fun r => r.1 = k) = true) :
    ((busEval d).arbs[wport]).pending.any (fun r => r.1 = k) = true := by
  have hb : BusClosed fun e => (e.arbs[wport]).pending.any (fun r => r.1 = k) = true := by
    refine ⟨fun a b hk hp => ?_, fun f a _ hp => (raise_asks a f).waits k hp, fun q a hp => ?_⟩
    · rw [show b.arbs = a.arbs from hk.parts .arbs rfl]; exact hp
    · rw [show (halveQuad q a).arbs = a.arbs from (halveQuad_keeps ..).parts .arbs rfl]; exact hp
  exact hb.busEval h

/-- A source at or above that of a model is none of the bus. -/
theorem derated_notBus (m : Model) : ∀ f, busRaises f → deratedFault m ≠ Fin.ofNat 2048 f := by
  have hm := m.2
  rintro f (rfl | ⟨k, rfl⟩) he <;> have := congrArg Fin.val he <;> simp only [deratedFault, Fin.val_ofNat] at this <;> omega

theorem tripped_notBus (m : Model) : ∀ f, busRaises f → trippedFault m ≠ Fin.ofNat 2048 f := by
  have hm := m.2
  have ht := tripSource_cases m
  rintro f (rfl | ⟨k, rfl⟩) he <;> have := congrArg Fin.val he <;> simp only [trippedFault, Fin.val_ofNat] at this <;> omega

theorem busEval_therm (d : Device) : (busEval d).therm = d.therm := (busEval_keeps d).parts .therm rfl

theorem sendTjs_keeps (d : Device) : Keeps [.arbs, .mem, .isl] (modelsMoved d) (forEach allQuads sendTj (modelsQueue (modelsMoved d))) :=
  .forEach (fun q e => (sendTj_keeps q e).mono rfl) ((modelsQueue_keeps _).mono rfl)

/-- The end of an update whose models run. -/
theorem thermalUpdate_runs_end {d : Device} (h : modelsRun d = true) : (busEval (thermalUpdate d)).therm = (modelsMoved d).therm ∧
    (∀ m : Model, (busEval (thermalUpdate d)).faults[deratedFault m] = (modelsMoved d).faults[deratedFault m] ∧
      (busEval (thermalUpdate d)).faults[trippedFault m] = (modelsMoved d).faults[trippedFault m]) ∧
    ((busEval (thermalUpdate d)).arbs[wport]).pending.any (fun r => r.1 = 9) = true := by
  have k := sendTjs_keeps d
  have hf : (forEach allQuads sendTj (modelsQueue (modelsMoved d))).faults = (modelsMoved d).faults := k.parts .faults rfl
  refine ⟨?_, fun m => ⟨?_, ?_⟩, busEval_waits ?_⟩
  · rw [busEval_therm, thermalUpdate_runs h, show (forEach allQuads sendTj _).therm = _ from k.parts .therm rfl]
  · rw [busEval_fault (derated_notBus m), thermalUpdate_runs h, hf]
  · rw [busEval_fault (tripped_notBus m), thermalUpdate_runs h, hf]
  · have hs : Keeps [.isl] (modelsQueue (modelsMoved d)) (forEach allQuads sendTj (modelsQueue (modelsMoved d))) := .forEach (fun q e => sendTj_keeps q e) (.refl ..)
    rw [thermalUpdate_runs h, show (forEach allQuads sendTj _).arbs = _ from hs.parts .arbs rfl]
    exact arbRequest_pending wport 9 _

theorem modelSteps_fifo (l : List Model) (d : Device) : (forEach l modelStep d).isl.fifo = d.isl.fifo := by
  refine forEach_induct (fun e : Device => e.isl.fifo = d.isl.fifo) l modelStep (fun m e he => Eq.trans ?_ he) d rfl
  cases h : modelInUse e m with
  | true =>
    rw [modelStep_used h, (modelJudged_keeps ..).fifo_eq]
    rfl
  | false => rw [modelStep_unused h]; rfl

/-- What had been sent to a quadrant before an update is as before when the models have moved. -/
theorem modelsMoved_fifo (q : Quad) (d : Device) : (modelsMoved d).isl.fifo[xIndex (.toQd q)] = d.isl.fifo[xIndex (.toQd q)] := by
  rw [modelsMoved, modelSteps_fifo, (coolantJudge_keeps _).fifo_eq, lossesIn_fifo]

theorem thermalUpdate_sends {d : Device} (h : modelsRun d = true) (q : Quad) : ∃ l, (busEval (thermalUpdate d)).isl.fifo[xIndex (.toQd q)] =
    d.isl.fifo[xIndex (.toQd q)] ++ .tj ((quadModels q).map fun m => (((modelsMoved d).therm[m]).tj, ((modelsMoved d).therm[m]).kth)) :: l := by
  obtain ⟨l, hl⟩ := Grows.busEval (q := q) (thermalUpdate d)
  have hf : (modelsQueue (modelsMoved d)).isl.fifo = (modelsMoved d).isl.fifo := (modelsQueue_keeps _).fifo_eq
  have ht : (modelsQueue (modelsMoved d)).therm = (modelsMoved d).therm := (modelsQueue_keeps _).parts .therm rfl
  refine ⟨l, hl.trans ?_⟩
  rw [thermalUpdate_runs h, sendTjs_fifo, hf, ht, modelsMoved_fifo, List.append_assoc, List.singleton_append]

/-! ### A quadrant takes its temperatures (R382) -/

/-- Taking a list of temperatures: each model named once takes its own. -/
theorem tjList_therm {l : List (Model × Qty × Qty)} (hn : (l.map Prod.fst).Nodup) {m : Model} {x : Qty × Qty} (hm : (m, x) ∈ l) (d : Device) :
    ((forEach l (fun x d => d.updTherm x.1 fun t => { t with tjRx := x.2.1, kthQ := x.2.2 }) d).therm[m]).tjRx = x.1 ∧
      ((forEach l (fun x d => d.updTherm x.1 fun t => { t with tjRx := x.2.1, kthQ := x.2.2 }) d).therm[m]).kthQ = x.2 := by
  have hkeep (l : List (Model × Qty × Qty)) (hl : m ∉ l.map Prod.fst) (d : Device) :
      (forEach l (fun x d => d.updTherm x.1 fun t => { t with tjRx := x.2.1, kthQ := x.2.2 }) d).therm[m] = d.therm[m] := by
    induction l generalizing d with
    | nil => rfl
    | cons y l ih =>
      rw [List.map_cons, List.mem_cons, not_or] at hl
      exact (ih hl.2 _).trans (upd_other _ _ _ _ hl.1)
  induction l generalizing d with
  | nil => cases hm
  | cons y l ih =>
    obtain ⟨hy, hn⟩ := List.nodup_cons.1 hn
    rcases List.mem_cons.1 hm with rfl | hm
    · have he : (forEach ((m, x) :: l) (fun x d => d.updTherm x.1 fun t => { t with tjRx := x.2.1, kthQ := x.2.2 }) d).therm[m] =
          { d.therm[m] with tjRx := x.1, kthQ := x.2 } := (hkeep l hy _).trans (upd_same ..)
      rw [he]
      exact ⟨rfl, rfl⟩
    · exact ih hn hm _

theorem fst_zip_sublist {α β : Type} (l : List α) (v : List β) : ((l.zip v).map Prod.fst).Sublist l := by
  induction l generalizing v with
  | nil => exact .slnil
  | cons a l ih =>
    cases v with
    | nil => exact List.nil_sublist _
    | cons b v => exact (ih v).cons_cons a

theorem quadModels_nodup (q : Quad) : (quadModels q).Nodup := (List.nodup_finRange 172).filter _

theorem tjArrives_model {q : Quad} {v : List (Qty × Qty)} {k : Nat} {m : Model} {x : Qty × Qty} (hm : (quadModels q)[k]? = some m) (hx : v[k]? = some x) (d : Device) :
    ((tjArrives q v d).therm[m]).tjRx = x.1 ∧ ((tjArrives q v d).therm[m]).kthQ = x.2 := by
  exact tjList_therm ((quadModels_nodup q).sublist (fst_zip_sublist ..)) (List.mem_of_getElem? (i := k) (List.getElem?_zip_eq_some.2 ⟨hm, hx⟩)) d

theorem tjArrival_first {q : Quad} {v : List (Qty × Qty)} {rest : List Msg} {d : Device} (h : d.isl.fifo[xIndex (.toQd q)] = .tj v :: rest) :
    tjArrival q d = tjArrives q v (setFifo (.toQd q) rest d) := by
  have hs : splitMsg isTj (fifoOf d (.toQd q)) = some ([.tj v], rest) := by
    rw [fifoOf, h, splitMsg, isTj, if_pos rfl]
  rw [tjArrival, arrive, hs]
  rfl

theorem tjArrival_none {q : Quad} {d : Device} (h : d.isl.fifo[xIndex (.toQd q)].any isTj = false) : tjArrival q d = d := by
  have hs : splitMsg isTj (fifoOf d (.toQd q)) = none := splitMsg_none fun m hm => Bool.eq_false_iff.2 (List.any_eq_false.1 h m hm)
  rw [tjArrival, arrive, hs]

/-! ### The factor (R391) -/

theorem kthOf_between {tj tdr ttrip mn : Qty} (h1 : tdr < tj) (h2 : tj < ttrip) (h3 : mn ≤ 1) : mn ≤ kthOf tj tdr ttrip mn ∧ kthOf tj tdr ttrip mn ≤ 1 := by
  have hpos : 0 < ttrip - tdr := sub_pos.2 (h1.trans h2)
  have hk : kthOf tj tdr ttrip mn = 1 - (1 - mn) * ((tj - tdr) / (ttrip - tdr)) := by
    rw [kthOf, if_neg (not_le.2 h1), if_pos h2, qdiv, if_neg hpos.ne']
  have h0 : 0 ≤ (tj - tdr) / (ttrip - tdr) := div_nonneg (sub_nonneg.2 h1.le) hpos.le
  have hle : (tj - tdr) / (ttrip - tdr) ≤ 1 := (div_le_one hpos).2 (sub_le_sub_right h2.le _)
  have hmn : 0 ≤ 1 - mn := sub_nonneg.2 h3
  have hlow := mul_le_of_le_one_right hmn hle
  have hhigh := mul_nonneg hmn h0
  rw [hk]
  constructor <;> linarith

/-! ### The obligation -/

/-- Settles O40. -/
theorem thermalModels : Obligations.ThermalModels := by
  unfold Obligations.ThermalModels
  refine ⟨fun s h => ?_, fun m p s h hi hu hf hp => ?_, fun q s h => ?_, fun q v rest s h => ?_, fun q s h => ?_, fun tj tdr ttrip mn h => if_pos h,
    fun tj tdr ttrip mn h1 h2 => ?_, fun tj tdr ttrip mn h1 h2 h3 => kthOf_between h1 h2 h3⟩
  · obtain ⟨t, ht, hd⟩ := done_next (fun d => busEval (thermalUpdate d)) s
    refine ⟨t, ht, fun m => ?_⟩
    obtain ⟨htj, h0, -, -, -, htrip⟩ := ((lossesIn_models s.dev).trans (coolantJudge_models _)).kept m
    rw [hd, drive_therm, busEval_therm, thermalUpdate_waits h]
    exact ⟨htj, h0, htrip⟩
  · obtain ⟨t, ht, hd⟩ := done_next (fun d => busEval (thermalUpdate d)) s
    obtain ⟨htherm, hfault, hport⟩ := thermalUpdate_runs_end h
    obtain ⟨e, he, hm, hder, htrip⟩ := modelsMoved_used h hi hu
    obtain ⟨h0, h1, h2, h3⟩ := he.stages
    obtain ⟨hlim, hlimT⟩ := he.limits
    refine ⟨t, ht, ?_⟩
    rw [hd, drive_therm, drive_arbs, drive_faults, htherm, hm, hp]
    refine ⟨h0, h1, h2, h3, he.tj hf, he.kth, fun hh => ⟨hlim hh, ?_⟩, fun hh => ⟨hlimT hh, ?_⟩, hport⟩
    · exact (congrArg FaultSt.active (hfault m).1).trans (hder hh)
    · exact (congrArg FaultSt.active (hfault m).2).trans (htrip hh)
  · obtain ⟨t, ht, hd⟩ := done_next (fun d => busEval (thermalUpdate d)) s
    obtain ⟨htherm, -⟩ := thermalUpdate_runs_end h
    obtain ⟨l, hl⟩ := thermalUpdate_sends h q
    refine ⟨t, ht, l, ?_⟩
    rw [hd, drive_therm, drive_isl, htherm]
    exact hl
  · obtain ⟨t, ht, hd⟩ := done_next (tjArrival q) s
    have k := tjArrives_keeps q v (setFifo (.toQd q) rest s.dev)
    refine ⟨t, ht, ?_⟩
    rw [hd, drive_isl, drive_slots, drive_therm, tjArrival_first h, k.fifo_eq, setFifo_fifo]
    exact ⟨rfl, k.parts .slots rfl, fun k m x hm hx => tjArrives_model hm hx _⟩
  · obtain ⟨t, ht, hd⟩ := done_next (tjArrival q) s
    exact ⟨t, ht, by rw [hd, tjArrival_none h]⟩
  · rw [kthOf, if_neg (not_le.2 (h1.trans_le h2)), if_neg (not_lt.2 h2)]

end Sys2Proof.Machine

/-! ## Substitutions before a halt, and their check (12: R446, R447, R450, R451, R460) -/

namespace Sys2Proof.Machine

/-! ### What says who needs a spare -/

/-- Two devices agree in what says which channel is eligible and which modulator needs a spare. -/
structure SameSpares (d e : Device) : Prop where
  conf : e.memory.conf = d.memory.conf
  swaps : e.memory.swaps = d.memory.swaps
  reload : e.reload = d.reload
  slot : ∀ n : Slot, sansEdge e.slots[n] = sansEdge d.slots[n]
  chanArmed : ∀ c : Chan, (e.chans[c]).armed = (d.chans[c]).armed
  quadArmed : ∀ q : Quad, (e.quads[q]).armed = (d.quads[q]).armed
  acting : ∀ m : Pm, (e.mods[m]).acting = (d.mods[m]).acting
  failed : ∀ m : Pm, (e.mods[m]).failed = (d.mods[m]).failed

namespace SameSpares
variable {d e g : Device}

theorem refl (d : Device) : SameSpares d d := ⟨rfl, rfl, rfl, fun _ => rfl, fun _ => rfl, fun _ => rfl, fun _ => rfl, fun _ => rfl⟩

theorem trans (h : SameSpares d e) (k : SameSpares e g) : SameSpares d g :=
  ⟨k.conf.trans h.conf, k.swaps.trans h.swaps, k.reload.trans h.reload, fun n => (k.slot n).trans (h.slot n), fun c => (k.chanArmed c).trans (h.chanArmed c),
    fun q => (k.quadArmed q).trans (h.quadArmed q), fun m => (k.acting m).trans (h.acting m), fun m => (k.failed m).trans (h.failed m)⟩

theorem of_keeps {S : List Part} (k : Keeps S d e) (hconf : S.contains .conf = false := by rfl) (hw : S.contains .swaps = false := by rfl)
    (hr : S.contains .reload = false := by rfl) (hs : S.contains .slots = false := by rfl) (hc : S.contains .chans = false := by rfl)
    (hq : S.contains .quads = false := by rfl) (hm : S.contains .mods = false := by rfl) : SameSpares d e := by
  have h1 : e.reload = d.reload := k.parts .reload hr
  have h2 : e.slots = d.slots := k.parts .slots hs
  have h3 : e.chans = d.chans := k.parts .chans hc
  have h4 : e.quads = d.quads := k.parts .quads hq
  have h5 : e.mods = d.mods := k.parts .mods hm
  exact ⟨k.parts .conf hconf, k.parts .swaps hw, h1, fun _ => by rw [h2], fun _ => by rw [h3], fun _ => by rw [h4], fun _ => by rw [h5], fun _ => by rw [h5]⟩

theorem updChan (c : Chan) (f : ChanSt → ChanSt) (hf : ∀ s, (f s).armed = s.armed) (d : Device) : SameSpares d (d.updChan c f) :=
  ⟨rfl, rfl, rfl, fun _ => rfl, upd_field d.chans c f ChanSt.armed hf, fun _ => rfl, fun _ => rfl, fun _ => rfl⟩

theorem noSpareMod (m : Pm) (b : Bool) (d : Device) : SameSpares d (d.updMod m fun s => { s with noSpare := b }) :=
  ⟨rfl, rfl, rfl, fun _ => rfl, fun _ => rfl, fun _ => rfl, upd_field d.mods m (fun s => { s with noSpare := b }) ModSt.acting fun _ => rfl,
    upd_field d.mods m (fun s => { s with noSpare := b }) ModSt.failed fun _ => rfl⟩

end SameSpares

theorem sameSpares_closed (d : Device) : RaiseClosed (SameSpares d) where
  keeps _ _ k h := h.trans (.of_keeps k)
  latch x h := h.trans (.of_keeps (latchAtStart_keeps x))
  chan c f x hf h := h.trans (.updChan c f (fun s => show (sansHold (f s)).armed = (sansHold s).armed from congrArg ChanSt.armed (hf s)) x)
  prof c f x _ h := h.trans (.of_keeps (updProf_keeps c f x))
  slot n f x _ hf h := h.trans ⟨rfl, rfl, rfl, upd_field x.slots n f sansEdge hf, fun _ => rfl, fun _ => rfl, fun _ => rfl, fun _ => rfl⟩

theorem SameSpares.slotKept {d e : Device} (h : SameSpares d e) (n : Slot) : (e.slots[n]).repl = (d.slots[n]).repl ∧ (e.slots[n]).forCh = (d.slots[n]).forCh ∧
    (e.slots[n]).shedFrom = (d.slots[n]).shedFrom ∧ (e.slots[n]).shedAt = (d.slots[n]).shedAt ∧ (e.slots[n]).newtRefused = (d.slots[n]).newtRefused :=
  have k {α : Type} (f : SlotSt → α) : f (sansEdge e.slots[n]) = f (sansEdge d.slots[n]) := congrArg f (h.slot n)
  ⟨k SlotSt.repl, k SlotSt.forCh, k SlotSt.shedFrom, k SlotSt.shedAt, k SlotSt.newtRefused⟩

theorem SameSpares.isReplaced {d e : Device} (h : SameSpares d e) (n : Slot) : isReplaced e n = isReplaced d n := by
  simp only [Machine.isReplaced, fun n => (h.slotKept n).1]

theorem SameSpares.chanOf {d e : Device} (h : SameSpares d e) (n : Slot) : chanOf e n = chanOf d n := by
  obtain ⟨-, hf, -⟩ := h.slotKept n
  simp only [Machine.chanOf, hf, h.isReplaced, assignedTo, phChan, h.conf]

theorem SameSpares.eligible {d e : Device} (h : SameSpares d e) (start : Nat) (c : Chan) : eligible e start c = eligible d start c := by
  have hs (n : Slot) : shedFor e c n = shedFor d c n := by
    obtain ⟨-, -, hf, -⟩ := h.slotKept n
    simp only [shedFor, hf, h.chanOf, h.isReplaced]
  have hr : replaceable e c start = replaceable d c start := by
    simp only [replaceable, hs, fun n => (h.slotKept n).2.2.2.1]
  simp only [Machine.eligible, h.chanArmed, hr, inReload, h.reload, fun n => (h.slotKept n).2.2.2.2, h.chanOf, h.swaps]

theorem SameSpares.needsSpare {d e : Device} (h : SameSpares d e) (m : Pm) : needsSpare e m = needsSpare d m := by
  have hr : pmRole e m = pmRole d m := by rw [pmRole, Device.cf, h.conf]; rfl
  simp only [Machine.needsSpare, h.quadArmed, h.failed, h.acting, h.swaps, hr]

/-! ### What waits at an arbiter -/

/-- A requester waits at an arbiter. -/
def waitsAt (d : Device) (i : Fin 99) (k : Nat) : Bool := (d.arbs[i]).pending.any fun r => r.1 = k

theorem waitsAt_request {i j : Fin 99} {k l : Nat} (h : i ≠ j ∨ k ≠ l) (d : Device) : waitsAt (arbRequest j l d) i k = waitsAt d i k := by
  by_cases hi : i = j
  · subst hi
    rw [waitsAt, arbRequest_arb]
    split
    · rfl
    · have hne : l ≠ k := fun he => (h.resolve_left fun hn => hn rfl) he.symm
      simp [waitsAt, hne]
  · rw [waitsAt, arbRequest, updArb_arbs, upd_other _ _ _ _ hi, waitsAt]

theorem waitsAt_withdraw {i j : Fin 99} {k l : Nat} (h : i ≠ j ∨ k ≠ l) (d : Device) : waitsAt (arbWithdraw j l d) i k = waitsAt d i k := by
  by_cases hi : i = j
  · subst hi
    have hne : k ≠ l := h.resolve_left fun hn => hn rfl
    rw [waitsAt, arbWithdraw_arb, List.any_filter, waitsAt]
    congr 1
    funext r
    by_cases hr : r.1 = k
    · simp [hr, hne]
    · simp [hr]
  · rw [waitsAt, arbWithdraw, updArb_arbs, upd_other _ _ _ _ hi, waitsAt]

theorem waitsAt_withdrawn (i : Fin 99) (k : Nat) (d : Device) : waitsAt (arbWithdraw i k d) i k = false := by
  rw [waitsAt, arbWithdraw_arb, List.any_filter]
  simp

theorem waitsAt_raise {i : Fin 99} (h : i ≠ wport) (k f : Nat) (d : Device) : waitsAt (raise f d) i k = waitsAt d i k := by
  rw [waitsAt, (raise_asks d f).others i h, waitsAt]

theorem slotArb_ne_modArb (q p : Quad) : slotArb q ≠ modArb p := by
  intro he
  have hv := congrArg Fin.val he
  simp only [slotArb, modArb] at hv
  have hq := q.2
  omega

theorem slotArb_eq {q p : Quad} (h : slotArb q = slotArb p) : q = p := by
  have hv := congrArg Fin.val h
  simp only [slotArb] at hv
  exact Fin.ext hv

theorem modArb_eq {q p : Quad} (h : modArb q = modArb p) : q = p := by
  have hv := congrArg Fin.val h
  simp only [modArb] at hv
  exact Fin.ext (by omega)

/-- Requesters of two channels differ in their arbiter or in their number. -/
theorem slotRequest_ne {c b : Chan} (h : b ≠ c) : slotArb (Chan.quad c) ≠ slotArb (Chan.quad b) ∨ c.1 % 8 ≠ b.1 % 8 := by
  by_contra hn
  rw [not_or, not_not, not_not] at hn
  obtain ⟨ha, hm⟩ := hn
  have hq := congrArg Fin.val (slotArb_eq ha)
  simp only [Chan.quad] at hq
  exact h (Fin.ext (by omega))

theorem modRequest_ne {m b : Pm} (h : b ≠ m) : modArb (Pm.quad m) ≠ modArb (Pm.quad b) ∨ Pm.pos m ≠ Pm.pos b := by
  by_contra hn
  rw [not_or, not_not, not_not] at hn
  obtain ⟨ha, hm⟩ := hn
  have hq := congrArg Fin.val (modArb_eq ha)
  simp only [Pm.quad] at hq
  simp only [Pm.pos] at hm
  exact h (Fin.ext (by omega))

/-! ### One request (R450, R460) -/

theorem requestSlot_eligible {start : Nat} {c : Chan} {d : Device} (h : eligible d start c = true) :
    requestSlot start c d = slotsOut start c (arbRequest (slotArb (Chan.quad c)) (c.1 % 8) d) := if_pos h

theorem requestSlot_withdrawn {start : Nat} {c : Chan} {d : Device} (h : eligible d start c = false) :
    requestSlot start c d = arbWithdraw (slotArb (Chan.quad c)) (c.1 % 8) (d.updChan c fun s => { s with noSpare := false }) :=
  if_neg (by rw [h]; exact Bool.false_ne_true)

theorem requestMod_needed {m : Pm} {d : Device} (h : needsSpare d m = true) : requestMod m d = modsOut m (arbRequest (modArb (Pm.quad m)) (Pm.pos m) d) := if_pos h

theorem requestMod_withdrawn {m : Pm} {d : Device} (h : needsSpare d m = false) :
    requestMod m d = arbWithdraw (modArb (Pm.quad m)) (Pm.pos m) (d.updMod m fun s => { s with noSpare := false }) :=
  if_neg (by rw [h]; exact Bool.false_ne_true)

theorem slotsOut_same (start : Nat) (c : Chan) (d : Device) : SameSpares d (slotsOut start c d) :=
  if_cases (p := SameSpares d) ((sameSpares_closed d).raise _ (.updChan c (fun s => { s with noSpare := true }) (fun _ => rfl) d)) (.refl d)

theorem modsOut_same (m : Pm) (d : Device) : SameSpares d (modsOut m d) :=
  if_cases (p := SameSpares d) ((sameSpares_closed d).raise _ (.noSpareMod m true d)) (.refl d)

theorem slotsOut_waits {i : Fin 99} (hi : i ≠ wport) (k start : Nat) (c : Chan) (d : Device) : waitsAt (slotsOut start c d) i k = waitsAt d i k :=
  if_cases (p := fun x => waitsAt x i k = waitsAt d i k) (waitsAt_raise hi k _ _) rfl

theorem modsOut_waits {i : Fin 99} (hi : i ≠ wport) (k : Nat) (m : Pm) (d : Device) : waitsAt (modsOut m d) i k = waitsAt d i k :=
  if_cases (p := fun x => waitsAt x i k = waitsAt d i k) (waitsAt_raise hi k _ _) rfl

theorem arbRequest_same (i : Fin 99) (k : Nat) (d : Device) : SameSpares d (arbRequest i k d) := .of_keeps (arbRequest_keeps i k d)
theorem arbWithdraw_same (i : Fin 99) (k : Nat) (d : Device) : SameSpares d (arbWithdraw i k d) := .of_keeps (arbWithdraw_keeps i k d)

theorem requestSlot_same (start : Nat) (c : Chan) (d : Device) : SameSpares d (requestSlot start c d) :=
  if_cases (p := SameSpares d) ((arbRequest_same ..).trans (slotsOut_same ..))
    ((SameSpares.updChan c (fun s => { s with noSpare := false }) (fun _ => rfl) d).trans (arbWithdraw_same ..))

theorem requestMod_same (m : Pm) (d : Device) : SameSpares d (requestMod m d) :=
  if_cases (p := SameSpares d) ((arbRequest_same ..).trans (modsOut_same ..)) ((SameSpares.noSpareMod m false d).trans (arbWithdraw_same ..))

theorem requestSlot_waits {i : Fin 99} (hi : i ≠ wport) {k start : Nat} {c : Chan} (h : i ≠ slotArb (Chan.quad c) ∨ k ≠ c.1 % 8) (d : Device) :
    waitsAt (requestSlot start c d) i k = waitsAt d i k := by
  cases he : eligible d start c with
  | true => rw [requestSlot_eligible he, slotsOut_waits hi, waitsAt_request h]
  | false => rw [requestSlot_withdrawn he, waitsAt_withdraw h]; rfl

theorem requestMod_waits {i : Fin 99} (hi : i ≠ wport) {k : Nat} {m : Pm} (h : i ≠ modArb (Pm.quad m) ∨ k ≠ Pm.pos m) (d : Device) :
    waitsAt (requestMod m d) i k = waitsAt d i k := by
  cases he : needsSpare d m with
  | true => rw [requestMod_needed he, modsOut_waits hi, waitsAt_request h]
  | false => rw [requestMod_withdrawn he, waitsAt_withdraw h]; rfl

/-- After its turn a channel's request waits exactly where the channel is eligible. -/
theorem requestSlot_own (start : Nat) (c : Chan) (d : Device) : waitsAt (requestSlot start c d) (slotArb (Chan.quad c)) (c.1 % 8) = eligible d start c := by
  cases he : eligible d start c with
  | true => rw [requestSlot_eligible he, slotsOut_waits (slotArb_ne_wport _)]; exact arbRequest_pending ..
  | false => rw [requestSlot_withdrawn he, waitsAt_withdrawn]

theorem requestMod_own (m : Pm) (d : Device) : waitsAt (requestMod m d) (modArb (Pm.quad m)) (Pm.pos m) = needsSpare d m := by
  cases he : needsSpare d m with
  | true => rw [requestMod_needed he, modsOut_waits (modArb_ne_wport _)]; exact arbRequest_pending ..
  | false => rw [requestMod_withdrawn he, waitsAt_withdrawn]

/-! ### Every request -/

/-- The requesters' needs are as before, and so is what waits of one of them. -/
structure WaitKept (i : Fin 99) (k : Nat) (d e : Device) : Prop where
  spares : SameSpares d e
  waits : waitsAt e i k = waitsAt d i k

theorem WaitKept.refl (i : Fin 99) (k : Nat) (d : Device) : WaitKept i k d d := ⟨.refl d, rfl⟩

theorem WaitKept.trans {i : Fin 99} {k : Nat} {d e g : Device} (h : WaitKept i k d e) (j : WaitKept i k e g) : WaitKept i k d g :=
  ⟨h.spares.trans j.spares, j.waits.trans h.waits⟩

theorem requestSlots_own (start : Nat) (c : Chan) (d : Device) : waitsAt (forEach allChans (requestSlot start) d) (slotArb (Chan.quad c)) (c.1 % 8) = eligible d start c := by
  obtain ⟨e, he, hs⟩ := forEach_once (R := fun c : Chan => WaitKept (slotArb (Chan.quad c)) (c.1 % 8)) (f := requestSlot start) (fun _ d => .refl _ _ d)
    (fun _ _ _ _ h k => h.trans k) (fun a b d h => ⟨requestSlot_same start b d, requestSlot_waits (slotArb_ne_wport _) (slotRequest_ne h) d⟩)
    (List.nodup_finRange 32) (List.mem_finRange c) d
  exact hs.waits.trans ((requestSlot_own start c e).trans (he.spares.eligible start c))

theorem requestSlots_same (start : Nat) (d : Device) : SameSpares d (forEach allChans (requestSlot start) d) :=
  forEach_induct (SameSpares d) allChans (requestSlot start) (fun c _ he => he.trans (requestSlot_same start c _)) d (.refl d)

/-- The modulators that a spare may replace. -/
def roleMods : List Pm := allMods.filter fun m => decide (Pm.pos m < 20)

theorem roleMods_nodup : roleMods.Nodup := (List.nodup_finRange 88).filter _

theorem mem_roleMods {m : Pm} (hm : Pm.pos m < 20) : m ∈ roleMods :=
  List.mem_filter.2 ⟨List.mem_finRange m, by rw [decide_eq_true_eq]; exact hm⟩

theorem requestMods_own {m : Pm} (hm : Pm.pos m < 20) (d : Device) : waitsAt (forEach roleMods requestMod d) (modArb (Pm.quad m)) (Pm.pos m) = needsSpare d m := by
  obtain ⟨e, he, hs⟩ := forEach_once (R := fun m : Pm => WaitKept (modArb (Pm.quad m)) (Pm.pos m)) (f := requestMod) (fun _ d => .refl _ _ d)
    (fun _ _ _ _ h k => h.trans k) (fun a b d h => ⟨requestMod_same b d, requestMod_waits (modArb_ne_wport _) (modRequest_ne h) d⟩)
    roleMods_nodup (mem_roleMods hm) d
  exact hs.waits.trans ((requestMod_own m e).trans (he.spares.needsSpare m))

theorem requestMods_slotWaits (q : Quad) (k : Nat) (d : Device) : waitsAt (forEach roleMods requestMod d) (slotArb q) k = waitsAt d (slotArb q) k :=
  forEach_induct (fun e => waitsAt e (slotArb q) k = waitsAt d (slotArb q) k) roleMods requestMod
    (fun _ _ he => (requestMod_waits (slotArb_ne_wport q) (.inl (slotArb_ne_modArb q _)) _).trans he) d rfl

/-- The device after NEWT_REQUEST has come to its instant. -/
def newtRequested (start : Nat) (d : Device) : Device := forEach roleMods requestMod (forEach allChans (requestSlot start) d)

theorem newtRequest_due {h : HaltSched} {d : Device} (hn : d.halt.next = some h) (hr : d.start.st = .run) :
    newtRequest d = newtRequested (h.start * tick) (waitLoc (h.start * tick - 5 * ms) d) := by
  rw [newtRequest, hn]
  exact if_pos hr

theorem newtRequest_none {d : Device} (hn : d.halt.next = none) : newtRequest d = d := by rw [newtRequest, hn]

theorem newtRequested_clk (start : Nat) (d : Device) : (newtRequested start d).clk = d.clk := by
  refine forEach_induct (fun e : Device => e.clk = d.clk) roleMods requestMod (fun m e he => ((requestMod_keeps m e).clk_eq).trans he) _ ?_
  exact forEach_induct (fun e : Device => e.clk = d.clk) allChans (requestSlot start) (fun c e he => ((requestSlot_keeps start c e).clk_eq).trans he) d rfl

theorem newtRequested_slots (start : Nat) (c : Chan) (d : Device) : waitsAt (newtRequested start d) (slotArb (Chan.quad c)) (c.1 % 8) = eligible d start c :=
  (requestMods_slotWaits ..).trans (requestSlots_own start c d)

theorem newtRequested_mods {m : Pm} (hm : Pm.pos m < 20) (start : Nat) (d : Device) :
    waitsAt (newtRequested start d) (modArb (Pm.quad m)) (Pm.pos m) = needsSpare d m :=
  (requestMods_own hm _).trans ((requestSlots_same start d).needsSpare m)

/-! ### The check of a substitution (R447, R451) -/

theorem swapCheckDone_checks {w : Swap} {d : Device} (h : d.memory.swaps.find? (fun w => w.ovl.isNone) = some w) :
    swapCheckDone d = swapJudge (comingDev d) (comingOvl d) w d := by rw [swapCheckDone, h]

theorem swapCheckDone_none {d : Device} (h : d.memory.swaps.find? (fun w => w.ovl.isNone) = none) : swapCheckDone d = d := by rw [swapCheckDone, h]

/-- The record of a check: no slot and no substitution changes. -/
def swapReported (x : Device) (ovl : Nat) (w : Swap) (d : Device) : Device := refusedInRun 4 (swapCheck x ovl w) (setDetail 4 (swapCheck x ovl w) d)

theorem swapReported_keeps (x : Device) (ovl : Nat) (w : Swap) (d : Device) : Keeps [.check, .arbs, .log, .alert] d (swapReported x ovl w d) :=
  (((refusedInRun_keeps ..).mono rfl : Keeps [.check, .arbs, .log, .alert] _ _).after ((setDetail_keeps ..).mono rfl) rfl)

theorem swapJudge_accepted {x : Device} {ovl : Nat} {w : Swap} (d : Device) (h : (swapCheck x ovl w).reason = 0) : swapJudge x ovl w d =
    (swapReported x ovl w d).updMem fun m => { m with swaps := m.swaps.map fun y => if y = w then { y with ovl := some (confKey x ovl) } else y } := if_pos h

theorem swapJudge_refused {x : Device} {ovl : Nat} {w : Swap} (d : Device) (h : (swapCheck x ovl w).reason ≠ 0) :
    swapJudge x ovl w d = swapRefused (swapCheck x ovl w) w (swapReported x ovl w d) := if_neg h

/-- The substitution is dropped. -/
def swapDropped (w : Swap) (d : Device) : Device := d.updMem fun m => { m with swaps := m.swaps.filter fun y => decide (y ≠ w) }

theorem swapRefused_phase {r : CheckRes} {w : Swap} (d : Device) (h : w.modulator = false) : (swapRefused r w d).memory.swaps = (swapDropped w d).memory.swaps ∧
    ∀ n : Slot, (swapRefused r w d).slots[n] = if chanOf d n = some (Fin.ofNat 32 w.ch) then { d.slots[n] with newtRefused := true } else d.slots[n] := by
  have k : Keeps [.arbs, .log] (swapDropped w d) (logEvent 0x0704 (w.s + 256 * w.ch + 65536 * r.reason) 0 0 (swapDropped w d)) := logEvent_keeps ..
  have hs : (logEvent 0x0704 (w.s + 256 * w.ch + 65536 * r.reason) 0 0 (swapDropped w d)).slots = d.slots := k.parts .slots rfl
  have hc (n : Slot) : chanOf (logEvent 0x0704 (w.s + 256 * w.ch + 65536 * r.reason) 0 0 (swapDropped w d)) n = chanOf d n :=
    (SameSpares.of_keeps k).chanOf n
  have he : swapRefused r w d = (fun x : Device => { x with slots := mapAll x.slots fun n s => if chanOf x n = some (Fin.ofNat 32 w.ch) then { s with newtRefused := true } else s })
      (logEvent 0x0704 (w.s + 256 * w.ch + 65536 * r.reason) 0 0 (swapDropped w d)) := if_neg (by rw [h]; exact Bool.false_ne_true)
  rw [he]
  refine ⟨k.parts .swaps rfl, fun n => ?_⟩
  dsimp only
  rw [mapAll_get, hc, hs]

/-! ### The obligation -/

/-- Settles O48. -/
theorem substitutions : Obligations.Substitutions := by
  unfold Obligations.Substitutions
  refine ⟨fun s hk hn => ?_, fun h s hk hn hr => ?_, fun s hn => ?_, fun w s hw _ hr => ?_, fun w s hw hm hr => ?_⟩
  · obtain ⟨t, ht, hd⟩ := done_next newtRequest s
    exact ⟨t, (execNewtRequest_calm s hk).trans ht, by rw [hd, newtRequest_none hn]⟩
  · obtain ⟨t, ht, hd⟩ := done_next newtRequest s
    refine ⟨t, (execNewtRequest_calm s hk).trans ht, ?_⟩
    have hw (u : Nat) : SameSpares s.dev (waitLoc u s.dev) := .of_keeps (waitLoc_keeps u _)
    rw [hd, drive_clk, drive_arbs, newtRequest_due hn hr, newtRequested_clk, waitLoc_loc]
    generalize h.start * tick - 5 * ms = u
    generalize h.start * tick = start
    refine ⟨rfl, fun c => ?_, fun m hm => ?_⟩
    · exact (newtRequested_slots start c (waitLoc u s.dev)).trans ((hw u).eligible start c)
    · exact (newtRequested_mods hm start (waitLoc u s.dev)).trans ((hw u).needsSpare m)
  · obtain ⟨t, ht, hd⟩ := done_next swapCheckDone s
    exact ⟨t, ht, by rw [hd, swapCheckDone_none hn]⟩
  · obtain ⟨t, ht, hd⟩ := done_next swapCheckDone s
    have k := swapReported_keeps (comingDev s.dev) (comingOvl s.dev) w s.dev
    refine ⟨t, ht, ?_⟩
    rw [hd, drive_slots, drive_memory, swapCheckDone_checks hw, swapJudge_accepted _ hr]
    exact ⟨k.parts .slots rfl, congrArg (List.map _) (k.parts .swaps rfl)⟩
  · obtain ⟨t, ht, hd⟩ := done_next swapCheckDone s
    have k := swapReported_keeps (comingDev s.dev) (comingOvl s.dev) w s.dev
    have hslots : (swapReported (comingDev s.dev) (comingOvl s.dev) w s.dev).slots = s.dev.slots := k.parts .slots rfl
    obtain ⟨h1, h2⟩ := swapRefused_phase (r := swapCheck (comingDev s.dev) (comingOvl s.dev) w) (swapReported (comingDev s.dev) (comingOvl s.dev) w s.dev) hm
    refine ⟨t, ht, ?_, fun n => ?_⟩
    · rw [hd, drive_memory, swapCheckDone_checks hw, swapJudge_refused _ hr, h1]
      intro hin
      exact (of_decide_eq_true (List.mem_filter.1 hin).2) rfl
    · rw [hd, drive_slots, swapCheckDone_checks hw, swapJudge_refused _ hr, h2, (SameSpares.of_keeps k).chanOf, hslots]
      refine ⟨fun hc => ?_, ?_⟩
      · rw [if_pos hc]
      · split <;> rfl

end Sys2Proof.Machine

/-! ## A halt from its announcement to its end (04: R153 to R159) -/

namespace Sys2Proof.Machine

/-! ### Announcement and prediction (R154, R155) -/

theorem forward_halt (f : FrameRx) (bs : List Byte) (d : Device) : (forward f bs d).halt = d.halt := (forward_keeps f bs d).parts .halt rfl

/-- What a repeater sends on says nothing of whom it follows. -/
theorem forward_follows (f : FrameRx) (bs : List Byte) (d : Device) : followsHalts (forward f bs d) = followsHalts d ∧
    (forward f bs d).cvn.timeState = d.cvn.timeState ∧ (forward f bs d).cvn.newBase = d.cvn.newBase ∧ (forward f bs d).cvn.frameErrs = d.cvn.frameErrs := by
  obtain ⟨m, c, o, hc⟩ := forward_cvn f bs d
  have hs := forward_start f bs d
  refine ⟨?_, by rw [hc], by rw [hc], by rw [hc]⟩
  unfold followsHalts isAlone
  rw [hc, hs]

theorem followsHalts_run {d : Device} (h : followsHalts d = true) : d.start.st = .run := by
  simp only [followsHalts, Bool.and_eq_true, decide_eq_true_eq] at h
  exact h.1.1.1

theorem announce_halt (s : HaltSched) (d : Device) : (announce s d).halt = { d.halt with next := some s, nextAt := d.loc } :=
  (hlRebook_keeps s.no s.start _).parts .halt rfl

theorem haltTake_halt (s : HaltSched) (d : Device) : (haltTake s d).halt.accepted = true ∧ (haltTake s d).halt.next = some s := by
  rw [haltTake, updCvn_halt, updHalt_halt, announce_halt]
  exact ⟨rfl, rfl⟩

/-- A valid HALT frame at a follower, after it has been sent on. -/
theorem haltFrame_valid {f : FrameRx} {p tl : List Byte} {d : Device} (hp : framePayload 2 16 0 f.bytes = some (p, tl)) (hf : followsHalts d = true) :
    haltFrameReceive f d =
      if haltFieldsOk (fld p 12 2) (fld p 14 2) = false then frameErr (forward f f.bytes d)
      else if (forward f f.bytes d).cvn.newBase then
        if predicts (forward f f.bytes d) then forward f f.bytes d
        else haltTake ⟨BitVec.ofNat 32 (fld p 0 4), fld p 4 8, fld p 12 2, fld p 14 2, false⟩ (forward f f.bytes d)
      else if (forward f f.bytes d).halt.next.map (·.no) = some (BitVec.ofNat 32 (fld p 0 4)) ∨
          ((forward f f.bytes d).halt.ran ∧ BitVec.ofNat 32 (fld p 0 4) = (forward f f.bytes d).halt.refNo) then forward f f.bytes d
      else if (forward f f.bytes d).halt.ran = false ∨ follows32 (forward f f.bytes d).halt.refNo.toNat (BitVec.ofNat 32 (fld p 0 4)).toNat then
        if predicts (forward f f.bytes d) then forward f f.bytes d
        else haltTake ⟨BitVec.ofNat 32 (fld p 0 4), fld p 4 8, fld p 12 2, fld p 14 2, false⟩ (forward f f.bytes d)
      else frameErr (forward f f.bytes d) := by
  have hs : (forward f f.bytes d).start.st = .run := by rw [forward_start]; exact followsHalts_run hf
  have hfo := (forward_follows f f.bytes d).1.trans hf
  have hn : ¬((forward f f.bytes d).start.st = .reset ∨ (forward f f.bytes d).start.st = .init) := by rw [hs]; nofun
  rw [haltFrameReceive]
  dsimp only
  rw [if_neg hn, hp]
  dsimp only
  rw [if_neg (by rw [hfo]; nofun)]

theorem haltFrame_taken {f : FrameRx} {p tl : List Byte} {d : Device} (hp : framePayload 2 16 0 f.bytes = some (p, tl)) (hf : followsHalts d = true)
    (hok : haltFieldsOk (fld p 12 2) (fld p 14 2) = true) (ht : d.cvn.timeState = .track) (hn : d.halt.next = none) (hr : d.halt.ran = false) :
    haltFrameReceive f d = haltTake ⟨BitVec.ofNat 32 (fld p 0 4), fld p 4 8, fld p 12 2, fld p 14 2, false⟩ (forward f f.bytes d) := by
  obtain ⟨-, htime, -⟩ := forward_follows f f.bytes d
  have hpr : predicts (forward f f.bytes d) = false := by rw [predicts, htime, ht]; rfl
  have hno : ¬((none : Option HaltSched).map (·.no) = some (BitVec.ofNat 32 (fld p 0 4)) ∨ (false = true ∧ BitVec.ofNat 32 (fld p 0 4) = d.halt.refNo)) := by
    rintro (h | ⟨h, -⟩) <;> cases h
  have hfirst : (false = false ∨ follows32 d.halt.refNo.toNat (BitVec.ofNat 32 (fld p 0 4)).toNat = true) := .inl rfl
  rw [haltFrame_valid hp hf, if_neg (by rw [hok]; nofun), hpr, forward_halt, hn, hr, if_neg Bool.false_ne_true, if_neg hno, if_pos hfirst]
  exact ite_self _

theorem haltPredict_known {d : Device} (hf : followsHalts d = true) (hn : d.halt.next = none) (hc : d.halt.cur = none) (ha : d.halt.accepted = true) :
    haltPredict d = announce ⟨d.halt.refNo + 1, predictedStart d, (waitLoc (predictedStart d * tick - 4 * ms) d).halt.lastQlen,
      (waitLoc (predictedStart d * tick - 4 * ms) d).halt.lastPeriod, true⟩ (waitLoc (predictedStart d * tick - 4 * ms) d) := by
  rw [haltPredict, if_pos ⟨hf, by rw [hn]; rfl, by rw [hc]; rfl⟩]
  exact if_pos ha

theorem haltPredict_unknown {d : Device} (hf : followsHalts d = true) (hn : d.halt.next = none) (hc : d.halt.cur = none) (ha : d.halt.accepted = false) :
    haltPredict d = haltSkip (d.halt.refNo + 1) d.ticks d := by
  rw [haltPredict, if_pos ⟨hf, by rw [hn]; rfl, by rw [hc]; rfl⟩]
  exact if_neg (by rw [ha]; exact Bool.false_ne_true)

theorem haltSkip_halt (no : Word) (start : Nat) (d : Device) :
    (haltSkip no start d).halt = { d.halt with skipped := satInc d.halt.skipped, refNo := no, lastStart := start } := by
  have h1 (x : Device) : (commitLapse no x).halt = x.halt := (commitLapse_keeps ..).parts .halt rfl
  have h2 (n : Nat) (x : Device) : (hlSkip no n x).halt = x.halt := (hlSkip_keeps ..).parts .halt rfl
  have h3 (x : Device) : (hlRebook no start x).halt = x.halt := (hlRebook_keeps ..).parts .halt rfl
  rw [haltSkip, h1, h2, h3, updHalt_halt]

/-! ### The ramp (R156, R158) -/

/-- The halt after h of a time source. -/
def haltNext (h : HaltSched) (d : Device) : HaltSched := ⟨h.no + 1, h.start + h.period * 10000, (haltCfg d).2, (haltCfg d).1, false⟩

theorem haltAfter_source {h : HaltSched} {d : Device} (hs : d.cvn.source = true) : haltAfter h d = some (haltNext h d) := if_pos (.inl hs)

/-- The halt's words as the ramp is fixed. -/
def haltFixed (h : HaltSched) (d : Device) (x : Halts) : Halts :=
  { x with tr := min (rampUnits d) 200, trFixed := true, capped := decide (200 < rampUnits d), refNo := h.no, lastStart := h.start, lastQlen := h.qlen,
           lastPeriod := h.period, next := none, nextAt := d.loc }

/-- The ramp of a halt is fixed at a time source: its next halt joins the schedule. -/
def rampFixed (h : HaltSched) (d : Device) : Device :=
  let e := announce (haltNext h d) (d.updHalt (haltFixed h d))
  if 200 < rampUnits d then logEvent 0x0304 (10 * rampUnits d) 0 0 e else e

theorem rampFixed_halt (h : HaltSched) (d : Device) : (rampFixed h d).halt = { haltFixed h d d.halt with next := some (haltNext h d), nextAt := d.loc } := by
  have ha : (announce (haltNext h d) (d.updHalt (haltFixed h d))).halt = { haltFixed h d d.halt with next := some (haltNext h d), nextAt := d.loc } := announce_halt ..
  exact if_cases (p := fun x : Device => x.halt = { haltFixed h d d.halt with next := some (haltNext h d), nextAt := d.loc })
    (((logEvent_keeps ..).parts .halt rfl : _ = _).trans ha) ha

theorem rampFixed_fifo (h : HaltSched) (d : Device) : (rampFixed h d).isl.fifo = d.isl.fifo := by
  have ha : (announce (haltNext h d) (d.updHalt (haltFixed h d))).isl.fifo = d.isl.fifo := (announce_keeps ..).fifo_eq
  exact if_cases (p := fun x : Device => x.isl.fifo = d.isl.fifo) ((logEvent_keeps ..).fifo_eq.trans ha) ha

theorem haltRampFix_source {h : HaltSched} {d : Device} (hn : d.halt.next = some h) (hr : d.start.st = .run) (hc : d.halt.cur = none)
    (hs : d.cvn.source = true) : haltRampFix d = haltLaunches h ((rampFixed h (waitLoc (h.start * tick - 3 * ms) d)).updHalt fun x =>
      { x with cur := some h, snapped := false, converted := false }) := by
  rw [haltRampFix, hn]
  dsimp only
  rw [if_pos ⟨hr, by rw [hc]; rfl⟩]
  have hw : (waitLoc (h.start * tick - 3 * ms) d).cvn.source = true := by rw [waitLoc_cvn]; exact hs
  generalize waitLoc (h.start * tick - 3 * ms) d = w at hw ⊢
  rw [haltAfter_source hw, Option.isNone_some, Bool.and_false, Bool.false_and, if_neg Bool.false_ne_true]
  rfl

theorem rampUnits_min (d : Device) : 25 ≤ rampUnits d := by
  unfold rampUnits
  dsimp only
  exact if_cases (p := fun n => 25 ≤ n) (Nat.le_refl _) (Nat.le_max_left ..)

/-- A launch in every island goes to each quadrant as the newest message of its channel (R20, R21). -/
theorem launchAll_device_fifo {a : LaunchAct} (ha : launchIslands a = List.finRange 5) (t : Nat) (q : Quad) (d : Device) :
    (launchAll a t d).isl.fifo[xIndex (.toQd q)] = d.isl.fifo[xIndex (.toQd q)] ++ [.launch ⟨a, t⟩] := by
  have h := forEach_send_fifo (fun _ => .launch ⟨a, t⟩) q allQuads (List.nodup_finRange 4) d
  rw [if_pos (show q ∈ allQuads from List.mem_finRange q)] at h
  rw [launchAll, ha]
  exact h

theorem haltLaunches_fifo (h : HaltSched) (q : Quad) (d : Device) : (haltLaunches h d).isl.fifo[xIndex (.toQd q)] = d.isl.fifo[xIndex (.toQd q)] ++
    [.launch ⟨.config, h.start * tick⟩, .launch ⟨.quietStart, h.start * tick⟩, .launch ⟨.convStart, h.start * tick + settle h.qlen⟩,
      .launch ⟨.carrierReset .device, h.start * tick + h.qlen * (10 * us)⟩, .launch ⟨.quietEnd, h.start * tick + h.qlen * (10 * us)⟩] := by
  rw [haltLaunches, launchAll_device_fifo rfl, launchAll_device_fifo rfl, launchAll_device_fifo rfl, launchAll_device_fifo rfl, launchAll_device_fifo rfl]
  simp only [List.append_assoc, List.cons_append, List.nil_append]

theorem haltLaunches_halt (h : HaltSched) (d : Device) : (haltLaunches h d).halt = d.halt := (haltLaunches_keeps h d).parts .halt rfl

theorem haltRampDown_due {h : HaltSched} {d : Device} (hc : d.halt.cur = some h) (hr : d.start.st = .run) (hf : d.halt.trFixed = true) (hp : d.halt.phase = .idle) :
    haltRampDown d = probation ((waitLoc (h.start * tick - trSub d) d).updHalt fun x =>
      { x with phase := .rampDown, phaseAt := (waitLoc (h.start * tick - trSub d) d).loc }) := by
  rw [haltRampDown, hc]
  exact if_pos ⟨hr, hf, .inl hp⟩

/-! ### What a quadrant's work of a configuration launch may raise -/

/-- What a quadrant's work writes without its raises. -/
def workParts : List Part :=
  [.arbs, .isl, .slots, .quads, .chans, .profs, .paths, .srcs, .mods, .seqs, .rings, .writers, .nobind, .faults, .col, .log, .caps]

/-- A predicate that a quadrant's work of a configuration launch keeps, with the sources that it may raise. -/
structure WorkClosed (P : Device → Prop) : Prop where
  keeps : ∀ d e, Keeps workParts d e → P d → P e
  latch : ∀ d, P d → P (latchAtStart d)
  tell : ∀ f d, P d → P (alertSet 0 (d.updSup fun u => { u with alertFsrc := BitVec.ofNat 12 f }))

namespace WorkClosed
variable {P : Device → Prop} (h : WorkClosed P) {d : Device}
include h

theorem raise (f : Nat) (hp : P d) : P (raise f d) := by
  rcases raiseX_cases f false 0 d with k | ⟨sc, -, -, -, he⟩
  · exact h.keeps _ _ (k.mono rfl) hp
  · have hc : P (countRaise f false d) := h.keeps _ _ ((countRaise_keeps ..).mono rfl) hp
    have hl : P (logRaise f sc 0 d (countRaise f false d)) := h.keeps _ _ ((logRaise_keeps ..).mono rfl) hc
    have ht (s : Severity) (x : Device) (hx : P x) : P (tellRaise f sc s x) := by
      have ha : P (if fsAlert x (Fin.ofNat 2048 f) then alertSet 0 (x.updSup fun u => { u with alertFsrc := BitVec.ofNat 12 f }) else x) :=
        if_cases (p := P) (h.tell f x hx) hx
      exact if_cases (p := P) (h.keeps _ _ ((captureTake_keeps ..).mono rfl) ha) ha
    have hr (s : Severity) (x : Device) (hx : P x) : P (reactNow f sc s x) :=
      if_cases (p := P) (h.keeps _ _ ((react_keeps ..).mono rfl) hx)
        (if_cases (p := P) (h.keeps _ _ ((react_keeps ..).mono rfl) (h.latch _ hx)) (if_cases (p := P) (h.keeps _ _ ((updFault_keeps ..).mono rfl) hx) hx))
    rw [show Machine.raise f d = raiseX f false 0 d from rfl, he]
    exact hr _ _ (ht _ _ hl)

theorem shed (test : Nat) (c : Chan) (n : Slot) (hp : P d) : P (shed test c n d) := by
  have k1 : Keeps [.slots] d (slotOff n d) := slotOff_keeps n d
  have h1 (f : SlotSt → SlotSt) (hf : ∀ s, s.apart = true → (f s).apart = true) :
      P (((slotOff n d).updSlot n f).updChan c fun s => { s with shedCnt := satInc s.shedCnt }) :=
    h.keeps _ _ ((updChan_keeps ..).mono rfl) (h.keeps _ _ ((updSlot_keeps n _ hf).mono rfl) (h.keeps _ _ (k1.mono rfl) hp))
  have h2 : P (shedNoted test c n d) :=
    if_cases (p := P) (h.keeps _ _ ((quadEvent_keeps ..).mono rfl) (h1 _ fun _ hs => hs)) (h1 _ fun _ hs => hs)
  have h3 := h.raise n.1 h2
  have h4 := h.keeps _ _ ((updChan_keeps c (fun s => { s with noMember := true }) _).mono rfl) h3
  rw [shed_eq]
  exact if_cases (p := P) (h.raise _ (if_cases (p := P) (h.keeps _ _ ((enterCh_keeps ..).mono rfl) h4) h4)) h3

theorem shedHigh (c : Chan) (hp : P d) : P (shedHigh c d) := forEach_induct P _ _ (fun n _ he => h.shed 4 c n he) _ hp

theorem chanStart (c : Chan) (hp : P d) : P (chanStart c d) := by
  unfold Machine.chanStart
  dsimp only
  refine if_cases (p := P) ?_ hp
  have h1 : P (pathArm c (enterCh c .off d)) := h.keeps _ _ ((pathArm_keeps ..).mono rfl) (h.keeps _ _ ((enterCh_keeps ..).mono rfl) hp)
  exact forEach_induct P _ _ (fun f _ he => h.keeps _ _ ((holdChan_keeps f c _).mono rfl) he) _
    (h.shedHigh c (if_cases (p := P) (h.keeps _ _ ((pauseProf_keeps ..).mono rfl) h1) h1))

theorem carrierReset (r : Region) (hp : P d) : P (carrierReset r d) :=
  forEach_induct P (regionChans r) Machine.chanStart (fun c _ he => h.chanStart c he) _
    (forEach_induct P (regionQuads r) (quadStart (isQuadRegion r)) (fun q _ he => h.keeps _ _ ((quadStart_keeps _ q _).mono rfl) he) _
      (h.keeps _ _ ((resetCarriers_keeps r d).mono rfl) hp))

theorem launchSlot (w : Swap) (hp : P d) : P (launchSlot w d) := by
  have h1 : P (placeSwap w (slotStop (Fin.ofNat 136 w.f) d)) := h.keeps _ _ ((placeSwap_keeps ..).mono rfl) (h.keeps _ _ ((slotStop_keeps ..).mono rfl) hp)
  have h2 (k a b c : Nat) (q : Quad) (f g : SlotSt → SlotSt) (n : Slot) (hf : ∀ s, s.apart = true → (f s).apart = true) (hg : ∀ s, s.apart = true → (g s).apart = true) :
      P (quadEvent q k a b c (((placeSwap w (slotStop (Fin.ofNat 136 w.f) d)).updSlot n f).updSlot n g)) :=
    h.keeps _ _ ((quadEvent_keeps ..).mono rfl) (h.keeps _ _ ((updSlot_keeps n _ hg).mono rfl) (h.keeps _ _ ((updSlot_keeps n _ hf).mono rfl) h1))
  exact if_cases (p := P) (h.shed _ _ _ (h2 _ _ _ _ _ _ _ _ (fun _ hs => hs) fun _ hs => hs)) (h2 _ _ _ _ _ _ _ _ (fun _ hs => hs) fun _ hs => hs)

theorem reloadStart (r : Region) (hp : P d) : P (reloadStart r d) := by
  have hk (x : Device) : P x → P (forEach ((regionChans r).filter fun c => (x.chans[c]).armed) (fun c d => Machine.shedHigh c (restartReq c d)) (Machine.carrierReset r x)) :=
    fun hx => forEach_induct P _ _ (fun c _ he => h.shedHigh c (h.keeps _ _ ((restartReq_keeps c _).mono rfl) he)) _ (h.carrierReset r hx)
  unfold Machine.reloadStart
  dsimp only
  refine hk _ ?_
  split
  · next q =>
    have h1 : P (if (d.srcs[q]).st = .qual ∨ (d.srcs[q]).st = .hold then d.updSrc q fun s => { s with st := .below, qualAt := none, lowRun := 0 } else d) :=
      if_cases (p := P) (h.keeps _ _ ((updSrc_keeps ..).mono rfl) hp) hp
    exact if_cases (p := P) (h.keeps _ _ ((seqStart_keeps ..).mono rfl) h1) h1
  · exact hp

theorem doWork (was : Device) (w : QuadWork) (hp : P d) : P (doWork was w d) := by
  cases w with
  | promote n => exact h.keeps _ _ ((promote_keeps n d).mono rfl) hp
  | swap w => exact if_cases (p := P) (h.keeps _ _ ((launchMod_keeps w d).mono rfl) hp) (h.launchSlot w hp)
  | rearm slots r => exact h.keeps _ _ ((regionMoved_keeps was slots r d).mono rfl) hp
  | start r => exact h.reloadStart r hp

theorem isl (f : Islands → Islands) (hf : ∀ s, ((f s).launches, (f s).clkRun) = (s.launches, s.clkRun)) (hp : P d) : P (d.updIsl f) :=
  h.keeps _ _ (updIsl_keeps (S := workParts) d fun s => ⟨fun hn => absurd hn (by decide), fun _ => hf s⟩) hp

theorem quadWork (was : Device) (q : Quad) (hp : P d) : P (quadWork was q d) :=
  forEach_induct P _ _ (fun w _ he => h.doWork was w he) _ (h.isl _ (fun _ => rfl) hp)

theorem quadsWork (was : Device) (hp : P d) : P (quadsWork was d) := by
  have hq := forEach_induct P (allQuads.filter fun q => decide (q ∉ confLags d)) (Machine.quadWork was) (fun q _ he => h.quadWork was q he) d hp
  unfold Machine.quadsWork
  exact h.isl _ (fun _ => rfl) hq

end WorkClosed

theorem sameState_work (d : Device) : WorkClosed (SameState d) where
  keeps _ _ k h := (SameState.of_keeps k).after h
  latch x h := (latchAtStart_sameState x).after h
  tell f x h := (SameState.of_keeps (alertFsrc_keeps f x)).after h

theorem haltConfig_sameState (h : HaltSched) (d : Device) : SameState d (haltConfig h d) :=
  (sameState_work d).quadsWork d (.of_keeps (haltGive_keeps h d))

/-! ### The quiet window begins (R156) -/

theorem quietBegin_sameState (h : HaltSched) (d : Device) : SameState d (quietBegin h d) := by
  have hs := haltConfig_sameState h d
  unfold quietBegin
  generalize haltConfig h d = y at hs ⊢
  exact hs.touch rfl

theorem quietBegin_halt (h : HaltSched) (d : Device) : (quietBegin h d).halt.phase = .quiet ∧ (quietBegin h d).halt.last = h.no ∧ (quietBegin h d).halt.ran = true := by
  unfold quietBegin
  generalize haltConfig h d = y
  exact ⟨rfl, rfl, rfl⟩

theorem quietReady_of {h : HaltSched} {d : Device} (hc : d.halt.cur = some h) (hr : d.start.st = .run) (hp : d.halt.phase = .rampDown) : quietReady d = true := by
  rw [quietReady, hc, hr, hp]
  rfl

theorem slotOff_low (n : Slot) (d : Device) : SlotLow n (slotOff n d) := by
  have h : (slotOff n d).slots[n] = { (yOff n (16 * d.up) (xOff n 2 (posFine d n) d)).slots[n] with pinA := false, pinB := false, yDone := true } := upd_same ..
  exact ⟨by rw [h], by rw [h]⟩

/-- Outputs that are low stay low while a quadrant stops. -/
theorem quietStopQuad_keepsLow {n : Slot} (q : Quad) {d : Device} (h : SlotLow n d) : SlotLow n (quietStopQuad q d) := by
  have hcl := (slotLow_closed n).toRaiseClosed
  have h1 := forEach_induct (SlotLow n) (quadSlots q) slotOff (fun k _ he => hcl.slotOff k he) d h
  have h2 := forEach_induct (SlotLow n) (quadChans q) regate (fun c _ he => hcl.regate c he) _ h1
  have h3 := forEach_induct (SlotLow n) (quadChans q) softStopEnd
    (fun c _ he => if_cases (p := SlotLow n) (hcl.enterCh c .off (he.congr rfl)) he) _ h2
  have h4 := forEach_induct (SlotLow n) (quadChans q) chargeSnapshot (fun _ _ he => he.congr rfl) _ h3
  exact forEach_induct (SlotLow n) (quadChans q) pathMark (fun _ _ he => he.congr rfl) _ h4

theorem quadSlots_nodup (q : Quad) : (quadSlots q).Nodup := (List.nodup_finRange 136).filter _

theorem mem_quadSlots (n : Slot) : n ∈ quadSlots (Slot.quad n) := List.mem_filter.2 ⟨List.mem_finRange n, by rw [decide_eq_true_eq]⟩

/-- A quadrant that stops has every output of its slots low. -/
theorem quietStopQuad_low (n : Slot) (d : Device) : SlotLow n (quietStopQuad (Slot.quad n) d) := by
  have hcl := (slotLow_closed n).toRaiseClosed
  have h1 : SlotLow n (forEach (quadSlots (Slot.quad n)) slotOff d) := by
    obtain ⟨e, -, hs⟩ := forEach_once (R := fun n d e => SlotLow n d → SlotLow n e) (f := slotOff) (fun _ _ h => h) (fun _ _ _ _ h k hl => k (h hl))
      (fun a b d _ hl => (slotLow_closed a).toRaiseClosed.slotOff b hl) (quadSlots_nodup _) (mem_quadSlots n) d
    exact hs (slotOff_low n e)
  have h2 := forEach_induct (SlotLow n) (quadChans (Slot.quad n)) regate (fun c _ he => hcl.regate c he) _ h1
  have h3 := forEach_induct (SlotLow n) (quadChans (Slot.quad n)) softStopEnd
    (fun c _ he => if_cases (p := SlotLow n) (hcl.enterCh c .off (he.congr rfl)) he) _ h2
  have h4 := forEach_induct (SlotLow n) (quadChans (Slot.quad n)) chargeSnapshot (fun _ _ he => he.congr rfl) _ h3
  exact forEach_induct (SlotLow n) (quadChans (Slot.quad n)) pathMark (fun _ _ he => he.congr rfl) _ h4

theorem quietStops_low (n : Slot) (d : Device) : SlotLow n (forEach allQuads quietStopQuad d) := by
  obtain ⟨e, -, hs⟩ := forEach_once (R := fun (_ : Quad) d e => SlotLow n d → SlotLow n e) (f := quietStopQuad) (fun _ _ h => h) (fun _ _ _ _ h k hl => k (h hl))
    (fun _ b d _ hl => quietStopQuad_keepsLow b hl) (List.nodup_finRange 4) (List.mem_finRange (Slot.quad n)) d
  exact hs (quietStopQuad_low n e)

theorem quietStart_due {h : HaltSched} {d : Device} (hc : d.halt.cur = some h) (hr : d.start.st = .run) (hp : d.halt.phase = .rampDown) :
    quietStart d = forEach allQuads quietStopQuad (quietBegin h (waitLoc (h.start * tick) d)) := by
  rw [quietStart, hc]
  exact if_pos (quietReady_of hc hr hp)

theorem quietStops_keeps (d : Device) : Keeps [.slots, .chans, .profs, .paths] d (forEach allQuads quietStopQuad d) := .forEach (fun q e => quietStopQuad_keeps q e) (.refl ..)

theorem quietBegin_clk (h : HaltSched) (d : Device) : (quietBegin h d).clk = d.clk := (quietBegin_keeps h d).clk_eq

/-! ### Conversion start and end of the window (R156) -/

theorem conversionStart_due {h : HaltSched} {d : Device} (hc : d.halt.cur = some h) (hp : d.halt.phase = .quiet) (hv : d.halt.converted = false) :
    conversionStart d = forEach allQuads readbackRequest (convMark (waitLoc (h.start * tick + settle h.qlen) d)) := by
  rw [conversionStart, hc]
  exact if_pos ⟨hp, hv⟩

theorem readbacks_keeps (d : Device) : Keeps [.arbs, .quads] d (forEach allQuads readbackRequest d) := .forEach (fun q e => readbackRequest_keeps q e) (.refl ..)

theorem quietFinish_halt (h : HaltSched) (d : Device) :
    (quietFinish h d).halt = { d.halt with phase := .rampUp, phaseAt := d.loc, snapped := true, cur := none } := (hlSettle_keeps ..).parts .halt rfl

theorem quadReload_clk (d : Device) : (quadReload d).clk.loc = d.clk.loc ∧ (quadReload d).clk.qtime = d.clk.qtime ∧ (quadReload d).clk.up = d.clk.up := by
  have h : (forEach (allQuads.filter fun q => d.clk.qreload[q]) (fun q e => send (.toQd q) (.timeLoad (loadDelay d)) e) d).clk = d.clk :=
    forEach_induct (fun e : Device => e.clk = d.clk) _ _ (fun q e he => ((send_keeps (.toQd q) (.timeLoad (loadDelay d)) e).clk_eq).trans he) d rfl
  have hx (x : Device) (hx : x.clk = d.clk) (v : Vector Bool 4) : ({ x with clk := { x.clk with qreload := v } } : Device).clk.loc = d.clk.loc ∧
      ({ x with clk := { x.clk with qreload := v } } : Device).clk.qtime = d.clk.qtime ∧ ({ x with clk := { x.clk with qreload := v } } : Device).clk.up = d.clk.up := by
    rw [hx]
    exact ⟨rfl, rfl, rfl⟩
  exact hx _ h _

theorem quietStep_tracks {d : Device} (h : d.cvn.timeState ≠ .stepWait) : quietStep d = d := if_neg h

theorem quietStepLast_tracks {d : Device} (h : d.cvn.timeState ≠ .stepWait) : quietStepLast d = d := by
  rw [quietStepLast, quietStep_tracks h]
  exact ite_self _

theorem quietEnds_keeps (d : Device) : Keeps [.arbs, .slots, .quads, .chans, .profs, .paths, .mods, .seqs, .cal] d (forEach allQuads quietEndQuad d) :=
  .forEach (fun q e => quietEndQuad_keeps q e) (.refl ..)

/-- The end of the window in every island at once, before the quadrants' reload. -/
def quietEnded (h : HaltSched) (d : Device) : Device := forEach allQuads quietEndQuad (quietFinish h d)

theorem quietEnded_keeps (h : HaltSched) (d : Device) :
    Keeps [.arbs, .halt, .slots, .quads, .chans, .profs, .paths, .mods, .seqs, .rings, .writers, .cal] d (quietEnded h d) :=
  ((quietEnds_keeps _).mono rfl : Keeps [.arbs, .halt, .slots, .quads, .chans, .profs, .paths, .mods, .seqs, .rings, .writers, .cal] _ _).after
    ((quietFinish_keeps h d).mono rfl) rfl

theorem quietEnd_due {h : HaltSched} {d : Device} (hc : d.halt.cur = some h) (hp : d.halt.phase = .quiet) (ht : d.cvn.timeState ≠ .stepWait) :
    quietEnd d = quadReload (quietEnded h (waitLoc (h.start * tick + h.qlen * (10 * us)) d)) := by
  have hq (u : Nat) : (quadReload (quietEnded h (waitLoc u d))).cvn.timeState ≠ .stepWait := by
    have h1 : (quadReload (quietEnded h (waitLoc u d))).cvn = (quietEnded h (waitLoc u d)).cvn := (quadReload_keeps _).parts .cvn rfl
    have h2 : (quietEnded h (waitLoc u d)).cvn = (waitLoc u d).cvn := (quietEnded_keeps ..).parts .cvn rfl
    rw [h1, h2, waitLoc_cvn]
    exact ht
  rw [quietEnd, hc]
  dsimp only
  rw [if_pos hp]
  generalize h.start * tick + h.qlen * (10 * us) = u
  rw [← quietEnded, quietStep_tracks (hq u)]

theorem quietEnded_halt (h : HaltSched) (d : Device) : (quadReload (quietEnded h d)).halt.phase = .rampUp ∧ (quadReload (quietEnded h d)).halt.cur = none := by
  have h1 : (quadReload (quietEnded h d)).halt = (quietEnded h d).halt := (quadReload_keeps _).parts .halt rfl
  have h2 : (quietEnded h d).halt = (quietFinish h d).halt := (quietEnds_keeps _).parts .halt rfl
  rw [h1, h2, quietFinish_halt]
  exact ⟨rfl, rfl⟩

end Sys2Proof.Machine

/-! ## A halt whose launches every island holds (01: R21, R24; 04: R156) -/

namespace Sys2Proof.Machine

/-! ### One launch in every island -/

/-- The islands in which a launch is still to be performed hold it alone, and reach it after w sub-ticks; their clocks run. -/
structure Chorus (a : LaunchAct) (t0 w : Nat) (l : List Island) (d : Device) : Prop where
  held : ∀ i : Island, d.isl.launches[i] = if i ∈ l then [⟨a, t0⟩] else []
  runs : d.isl.clkRun = 0b11111
  wait : ∀ i : Island, t0 - islTime d i = w

/-- The order in which the islands come at one instant: housekeeping first (R24). -/
def islandOrder : List Island := [4, 0, 1, 2, 3]

theorem bitOf_allRun (i : Island) : bitOf (0b11111 : BitVec 5).toNat i.1 = true := by
  revert i
  decide

theorem Chorus.launchWait {a : LaunchAct} {t0 w : Nat} {l : List Island} {d : Device} (h : Chorus a t0 w l d) (i : Island) :
    launchWait d i = if i ∈ l then some (w, a.order, i) else none := by
  have hi := h.held i
  split
  · next hm =>
    rw [if_pos hm] at hi
    rw [launchWait_some hi (by rw [h.runs]; exact bitOf_allRun i), h.wait]
  · next hm =>
    rw [if_neg hm] at hi
    exact launchWait_none hi

/-- Of launches at one instant with one rank the first stands. -/
theorem soonerLaunch_first (w r : Nat) (i : Island) (l : List Island) : (l.map fun j => (w, r, j)).foldl soonerLaunch (w, r, i) = (w, r, i) := by
  induction l with
  | nil => rfl
  | cons j l ih =>
    have hs : soonerLaunch (w, r, i) (w, r, j) = (w, r, i) := if_neg (by simp)
    rw [List.map_cons, List.foldl_cons, hs, ih]

/-- The islands that are left when the first ones of the order have performed theirs. -/
theorem Chorus.nextLaunch {a : LaunchAct} {t0 w : Nat} {l : List Island} {d : Device} (h : Chorus a t0 w l d) (hl : l <:+ islandOrder) :
    nextLaunch d = l.head?.map fun i => (w, a.order, i) := by
  have hf : islandOrder.filterMap (Machine.launchWait d) = l.map fun i => (w, a.order, i) := by
    have hw : Machine.launchWait d = fun i => if i ∈ l then some (w, a.order, i) else none := funext h.launchWait
    obtain ⟨k, hk⟩ := hl
    have hd : (k ++ l).Nodup := hk ▸ (by decide : islandOrder.Nodup)
    have hk0 : k.filterMap (fun i => if i ∈ l then some (w, a.order, i) else none) = [] :=
      List.filterMap_eq_nil_iff.2 fun i hi => if_neg ((List.nodup_append.1 hd).2.2 i hi i · rfl)
    have hl0 : l.filterMap (fun i => if i ∈ l then some (w, a.order, i) else none) = l.map fun i => (w, a.order, i) := by
      rw [← List.filterMap_eq_map']
      exact List.filterMap_congr fun i hi => if_pos hi
    rw [hw, ← hk, List.filterMap_append, hk0, hl0, List.nil_append]
  rw [Machine.nextLaunch]
  change (match islandOrder.filterMap (Machine.launchWait d) with | [] => none | x :: l => some (l.foldl soonerLaunch x)) = _
  rw [hf]
  cases l with
  | nil => rfl
  | cons i l => exact congrArg some (soonerLaunch_first ..)

/-! ### Its turn comes -/

theorem islTime_pass {d : Device} (hr : d.isl.clkRun = 0b11111) (n : Nat) (i : Island) : islTime (pass n d) i = islTime d i + n := by
  unfold islTime
  split
  · next h =>
    have hq : (pass n d).clk.qtime[i.1] = if bitOf d.isl.clkRun.toNat i.1 then d.clk.qtime[i.1] + n else d.clk.qtime[i.1] := Vector.getElem_ofFn ..
    rw [hq, hr, if_pos (bitOf_allRun i)]
  · rfl

/-- An island takes its only launch. -/
def launchTaken (i : Island) (d : Device) : Device := d.updIsl fun x => { x with launches := upd x.launches i fun _ => [] }

/-- An action leaves the launches and the clocks of the islands. -/
structure IslandsStay (d e : Device) : Prop where
  launches : e.isl.launches = d.isl.launches
  runs : e.isl.clkRun = d.isl.clkRun
  loc : e.clk.loc = d.clk.loc
  qtime : e.clk.qtime = d.clk.qtime

theorem IslandsStay.of_keeps {S : List Part} {d e : Device} (k : Keeps S d e) (hl : S.contains .launches = false := by rfl) (hc : S.contains .clk = false := by rfl) :
    IslandsStay d e := by
  obtain ⟨h1, h2⟩ := k.launches_eq hl
  have hk : e.clk = d.clk := k.clk_eq hc
  exact ⟨h1, h2, by rw [hk], by rw [hk]⟩

theorem IslandsStay.trans {d e g : Device} (h : IslandsStay d e) (k : IslandsStay e g) : IslandsStay d g :=
  ⟨k.launches.trans h.launches, k.runs.trans h.runs, k.loc.trans h.loc, k.qtime.trans h.qtime⟩

theorem IslandsStay.islTime {d e : Device} (h : IslandsStay d e) (i : Island) : islTime e i = islTime d i := by
  unfold Machine.islTime
  rw [h.loc, h.qtime]

theorem launchTaken_islTime (i j : Island) (d : Device) : islTime (launchTaken i d) j = islTime d j := rfl

namespace Chorus
variable {a : LaunchAct} {t0 w : Nat} {i : Island} {l : List Island} {d e : Device}

theorem launchNext (h : Chorus a t0 w (i :: l) d) (hl : i :: l <:+ islandOrder) : launchNext d = launchIn i a (launchTaken i (pass w d)) := by
  have hi : (pass w d).isl.launches[i] = [⟨a, t0⟩] := (h.held i).trans (if_pos List.mem_cons_self)
  have ht : t0 ≤ islTime (pass w d) i := by
    rw [islTime_pass h.runs]
    have := h.wait i
    omega
  rw [Machine.launchNext, h.nextLaunch hl, List.head?_cons, Option.map_some]
  dsimp only
  rw [launchFire, hi]
  exact if_pos ht

/-- The island has had its turn. -/
theorem after (h : Chorus a t0 w (i :: l) d) (hl : i :: l <:+ islandOrder) (hs : IslandsStay (launchTaken i (pass w d)) e) : Chorus a t0 0 l e := by
  have hn : (i :: l).Nodup := (by decide : islandOrder.Nodup).sublist hl.sublist
  refine ⟨fun j => ?_, hs.runs.trans h.runs, fun j => ?_⟩
  · rw [hs.launches]
    change (upd d.isl.launches i fun _ => [])[j] = _
    by_cases hj : j = i
    · subst hj
      rw [upd_same, if_neg (List.nodup_cons.1 hn).1]
    · rw [upd_other _ _ _ _ hj, h.held]
      simp only [List.mem_cons, hj, false_or]
  · rw [hs.islTime, launchTaken_islTime, islTime_pass h.runs]
    have := h.wait j
    omega

theorem holds (h : Chorus a t0 w l d) (j : Island) : holdsLaunch a t0 d j = decide (j ∈ l) := by
  rw [holdsLaunch, h.runs, bitOf_allRun, Bool.true_and, h.held]
  split
  · next hm => simp [hm]
  · next hm => simp [hm]

theorem until_cons (h : Chorus a t0 w (i :: l) d) (hl : i :: l <:+ islandOrder) (ha : leadIsland a = 4) (hw : i = 4 ∨ w = 0) (n : Nat) :
    launchesUntil (n + 1) a t0 d = launchesUntil n a t0 (Machine.launchNext d) := by
  rw [launchesUntil]
  refine if_pos ?_
  rw [ha, h.nextLaunch hl, Bool.or_eq_true]
  rcases hw with rfl | rfl
  · exact .inl ((h.holds 4).trans (decide_eq_true List.mem_cons_self))
  · refine .inr ?_
    rw [Bool.and_eq_true]
    exact ⟨rfl, List.any_eq_true.2 ⟨i, List.mem_finRange i, (h.holds i).trans (decide_eq_true List.mem_cons_self)⟩⟩

theorem until_nil (h : Chorus a t0 w [] d) (ha : leadIsland a = 4) (n : Nat) : launchesUntil (n + 1) a t0 d = d := by
  rw [launchesUntil]
  refine if_neg ?_
  rw [ha, h.holds, h.nextLaunch List.nil_suffix]
  nofun

end Chorus

/-! ### Every turn -/

section
variable {a : LaunchAct} {G : List Island → Device → Prop}
  (ha : leadIsland a = 4)
  (hin : ∀ i l x, i :: l <:+ islandOrder → G (i :: l) x → IslandsStay x (launchIn i a x) ∧ G l (launchIn i a x))
  (htake : ∀ i l n x, G l x → G l (launchTaken i (pass n x)))
include ha hin htake

/-- The islands perform the action one after the other, each as its part is told by G. -/
theorem launchesUntil_chorus {t0 : Nat} (l : List Island) : ∀ (n w : Nat) (d : Device), l.length < n → l <:+ islandOrder → (l.head? = some 4 ∨ w = 0) →
    Chorus a t0 w l d → G l d → G [] (launchesUntil n a t0 d) ∧ Chorus a t0 0 [] (launchesUntil n a t0 d) ∧ (launchesUntil n a t0 d).clk.loc = d.clk.loc + w := by
  induction l with
  | nil =>
    intro n w d hn _ hw h hg
    obtain ⟨k, rfl⟩ := Nat.exists_eq_succ_of_ne_zero (Nat.ne_of_gt hn)
    obtain rfl : w = 0 := hw.resolve_left nofun
    rw [h.until_nil ha]
    exact ⟨hg, h, rfl⟩
  | cons i l ih =>
    intro n w d hn hl hw h hg
    obtain ⟨k, rfl⟩ : ∃ k, n = k + 1 := ⟨n - 1, by omega⟩
    obtain ⟨hs, hg'⟩ := hin i l _ hl (htake i _ w d hg)
    have hi : i = 4 ∨ w = 0 := hw.imp_left (Option.some_inj.1 ·)
    rw [h.until_cons hl ha hi, h.launchNext hl]
    obtain ⟨h1, h2, h3⟩ := ih k 0 _ (by rw [List.length_cons] at hn; omega) ((List.suffix_cons i l).trans hl) (.inr rfl) (h.after hl hs) hg'
    exact ⟨h1, h2, h3.trans hs.loc⟩

/-- A row whose launch every island holds for one instant, with nothing under way (R21, R24). -/
theorem launchRow_chorus {t0 : Nat} {f : Device → Device} {d : Device} (hx : ∀ x : Fin 24, d.isl.fifo[x] = []) (hh : ∀ i : Island, d.isl.launches[i] = [⟨a, t0⟩])
    (hr : d.isl.clkRun = 0b11111) (hq : ∀ q : Quad, d.clk.qtime[q] = d.clk.loc) (hg : G islandOrder d) :
    G [] (launchRow a f d) ∧ (∀ i : Island, (launchRow a f d).isl.launches[i] = []) ∧ (launchRow a f d).clk.loc = max d.clk.loc t0 := by
  have hmem (i : Island) : i ∈ islandOrder := by
    revert i
    decide
  have htime (i : Island) : islTime d i = d.clk.loc := by
    unfold islTime
    split
    · next h => exact hq ⟨i.1, h⟩
    · rfl
  have hc : Chorus a t0 (t0 - d.clk.loc) islandOrder d := ⟨fun i => by rw [if_pos (hmem i)]; exact hh i, hr, fun i => by rw [htime]⟩
  have ht (i : Island) : launchTimes a d i = [t0] := by
    rw [launchTimes, hh]
    simp
  have hissued : launchIssued a d = true := by
    rw [launchIssued, Bool.or_eq_true]
    exact .inl (List.any_eq_true.mpr ⟨4, List.mem_finRange 4, by rw [ht]; rfl⟩)
  have he : launchRow a f d = launchesUntil launchBound a t0 d := by
    rw [launchRow, if_pos hissued, launchesArrive_none hx, ha]
    dsimp only
    rw [ht]
  obtain ⟨h1, h2, h3⟩ := launchesUntil_chorus ha hin htake islandOrder launchBound _ d (by decide) (List.suffix_refl _) (.inl rfl) hc hg
  rw [he]
  exact ⟨h1, fun i => h2.held i, h3.trans (by omega)⟩

end

theorem launchIn_hk {a : LaunchAct} {d : Device} (hr : d.start.st = .run) : launchIn 4 a d = launchHk a d := by
  rw [launchIn, if_neg (fun h => h.1 hr)]
  exact dif_neg (by decide)

theorem launchIn_quad {a : LaunchAct} {d : Device} (q : Quad) (hr : d.start.st = .run) : launchIn (quadIsland q) a d = launchInQuad q a d := by
  rw [launchIn, if_neg (fun h => h.1 hr)]
  exact dif_pos q.2

/-- Housekeeping comes first; each quadrant comes after it. -/
theorem turn_cases {i : Island} {l : List Island} (h : i :: l <:+ islandOrder) : (i = 4 ∧ l = [0, 1, 2, 3]) ∨ (∃ q : Quad, i = quadIsland q ∧ 4 ∉ i :: l) := by
  rcases List.suffix_cons_iff.1 h with he | hs
  · exact .inl ⟨(List.cons.inj he).1, (List.cons.inj he).2⟩
  · have hm (j : Island) (hj : j ∈ i :: l) : j ≠ 4 := by
      have : ∀ j ∈ ([0, 1, 2, 3] : List Island), j ≠ 4 := by decide
      exact this j (hs.subset hj)
    have hi : i.1 ≠ 4 := fun he => hm i List.mem_cons_self (Fin.ext he)
    exact .inr ⟨⟨i.1, by have := i.2; omega⟩, rfl, fun h4 => hm 4 h4 rfl⟩

theorem quadIsland_mem (q : Quad) : quadIsland q ∈ ([0, 1, 2, 3] : List Island) := by
  revert q
  decide

theorem quadIsland_mem_order (q : Quad) : quadIsland q ∈ islandOrder := List.mem_cons_of_mem _ (quadIsland_mem q)

/-! ### The quiet window begins -/

/-- The islands left to begin the quiet window of a halt; the others have begun it. -/
structure QuietTurn (h : HaltSched) (l : List Island) (d : Device) : Prop where
  runs : d.start.st = .run
  begins : 4 ∈ l → d.halt.cur = some h ∧ d.halt.phase = .rampDown
  begun : 4 ∉ l → d.halt.phase = .quiet ∧ d.halt.last = h.no ∧ d.halt.ran = true
  low : ∀ n : Slot, quadIsland (Slot.quad n) ∉ l → SlotLow n d

theorem QuietTurn.take {h : HaltSched} (i : Island) (l : List Island) (n : Nat) (d : Device) (t : QuietTurn h l d) : QuietTurn h l (launchTaken i (pass n d)) :=
  ⟨t.runs, t.begins, t.begun, fun k hk => (t.low k hk).congr rfl⟩

theorem quadIsland_inj {q p : Quad} (h : quadIsland q = quadIsland p) : q = p := Fin.ext (congrArg Fin.val h :)

theorem QuietTurn.turnHk {h : HaltSched} {d : Device} (t : QuietTurn h islandOrder d) :
    IslandsStay d (launchIn 4 .quietStart d) ∧ QuietTurn h [0, 1, 2, 3] (launchIn 4 .quietStart d) := by
  obtain ⟨hc, hp⟩ := t.begins List.mem_cons_self
  have he : launchIn 4 .quietStart d = quietBegin h d := by
    rw [launchIn_hk t.runs, launchHk, hc]
    exact if_pos (quietReady_of hc t.runs hp)
  rw [he]
  exact ⟨.of_keeps (quietBegin_keeps h d), (quietBegin_sameState h d).run t.runs, fun hm => absurd hm (by decide), fun _ => quietBegin_halt h d,
    fun n hn => absurd (quadIsland_mem _) hn⟩

theorem QuietTurn.turnQuad {h : HaltSched} {q : Quad} {l : List Island} {d : Device} (hn4 : 4 ∉ quadIsland q :: l) (t : QuietTurn h (quadIsland q :: l) d) :
    IslandsStay d (launchIn (quadIsland q) .quietStart d) ∧ QuietTurn h l (launchIn (quadIsland q) .quietStart d) := by
  have ks : Keeps [.slots, .chans, .profs, .paths] d (quietStopQuad q d) := quietStopQuad_keeps q d
  have k : Keeps [.isl, .slots, .chans, .profs, .paths] d (launchInQuad q .quietStart d) := (send_keeps ..).after (ks.mono rfl) rfl
  have hst : (launchInQuad q .quietStart d).start = d.start := k.start_eq rfl rfl rfl
  have hh : (launchInQuad q .quietStart d).halt = d.halt := k.parts .halt rfl
  rw [launchIn_quad q t.runs]
  refine ⟨.of_keeps k, hst ▸ t.runs, fun hm => absurd (List.mem_cons_of_mem _ hm) hn4, fun _ => hh ▸ t.begun hn4, fun n hn => ?_⟩
  by_cases hq : Slot.quad n = q
  · subst hq
    exact (quietStopQuad_low n d).congr rfl
  · refine (quietStopQuad_keepsLow q (t.low n fun hm => ?_)).congr rfl
    exact (List.mem_cons.1 hm).elim (fun he => hq (quadIsland_inj he)) hn

theorem QuietTurn.turn {h : HaltSched} (i : Island) (l : List Island) (d : Device) (hl : i :: l <:+ islandOrder) (t : QuietTurn h (i :: l) d) :
    IslandsStay d (launchIn i .quietStart d) ∧ QuietTurn h l (launchIn i .quietStart d) := by
  rcases turn_cases hl with ⟨rfl, rfl⟩ | ⟨q, rfl, hn4⟩
  · exact t.turnHk
  · exact t.turnQuad hn4

/-! ### The conversion starts -/

/-- The islands left to start the conversion; housekeeping has noted it where it is not among them. -/
structure ConvTurn (l : List Island) (d : Device) : Prop where
  runs : d.start.st = .run
  quiet : d.halt.phase = .quiet
  noted : 4 ∉ l → d.halt.converted = true

theorem ConvTurn.take (i : Island) (l : List Island) (n : Nat) (d : Device) (t : ConvTurn l d) : ConvTurn l (launchTaken i (pass n d)) :=
  ⟨t.runs, t.quiet, t.noted⟩

theorem ConvTurn.turn (i : Island) (l : List Island) (d : Device) (hl : i :: l <:+ islandOrder) (t : ConvTurn (i :: l) d) :
    IslandsStay d (launchIn i .convStart d) ∧ ConvTurn l (launchIn i .convStart d) := by
  rcases turn_cases hl with ⟨rfl, rfl⟩ | ⟨q, rfl, hn4⟩
  · rw [launchIn_hk t.runs]
    exact ⟨⟨rfl, rfl, rfl, rfl⟩, t.runs, t.quiet, fun _ => rfl⟩
  · have ks : Keeps [.arbs, .quads] d (readbackRequest q d) := readbackRequest_keeps q d
    have k : Keeps [.isl, .arbs, .quads] d (launchInQuad q .convStart d) := (send_keeps ..).after (ks.mono rfl) rfl
    have hst : (launchInQuad q .convStart d).start = d.start := k.start_eq rfl rfl rfl
    have hh : (launchInQuad q .convStart d).halt = d.halt := k.parts .halt rfl
    rw [launchIn_quad q t.runs]
    exact ⟨.of_keeps k, hst ▸ t.runs, hh ▸ t.quiet, fun _ => hh ▸ t.noted hn4⟩

/-! ### The quiet window ends -/

/-- The islands left to end the quiet window of a halt; the others have ended it. -/
structure EndTurn (h : HaltSched) (l : List Island) (d : Device) : Prop where
  runs : d.start.st = .run
  tracks : d.cvn.timeState ≠ .stepWait
  ends : 4 ∈ l → d.halt.cur = some h ∧ d.halt.phase = .quiet
  ended : 4 ∉ l → d.halt.phase = .rampUp ∧ d.halt.cur = none

theorem EndTurn.take {h : HaltSched} (i : Island) (l : List Island) (n : Nat) (d : Device) (t : EndTurn h l d) : EndTurn h l (launchTaken i (pass n d)) :=
  ⟨t.runs, t.tracks, t.ends, t.ended⟩

theorem EndTurn.launchIn_hk {h : HaltSched} {d : Device} (t : EndTurn h islandOrder d) : launchIn 4 .quietEnd d = quadReload (quietFinish h d) := by
  obtain ⟨hc, hp⟩ := t.ends List.mem_cons_self
  have kr : Keeps [.clk, .isl] (quietFinish h d) (quadReload (quietFinish h d)) := quadReload_keeps _
  have hcvn : (quadReload (quietFinish h d)).cvn = d.cvn := (kr.parts .cvn rfl : _ = _).trans ((quietFinish_keeps h d).parts .cvn rfl)
  rw [Machine.launchIn_hk t.runs, launchHk, hc]
  exact (if_pos hp).trans (quietStepLast_tracks (by rw [hcvn]; exact t.tracks))

theorem quadReload_islandsStay (d : Device) : IslandsStay d (quadReload d) := by
  have k : Keeps [.clk, .isl] d (quadReload d) := quadReload_keeps d
  obtain ⟨hl1, hl2⟩ := k.launches_eq
  obtain ⟨hc1, hc2, -⟩ := quadReload_clk d
  exact ⟨hl1, hl2, hc1, hc2⟩

theorem EndTurn.turnHk {h : HaltSched} {d : Device} (t : EndTurn h islandOrder d) :
    IslandsStay d (launchIn 4 .quietEnd d) ∧ EndTurn h [0, 1, 2, 3] (launchIn 4 .quietEnd d) := by
  have kf : Keeps [.arbs, .halt, .mods, .seqs, .rings, .writers] d (quietFinish h d) := quietFinish_keeps h d
  have hh := quietFinish_halt h d
  have hst : (quietFinish h d).start = d.start := kf.start_eq rfl rfl rfl
  have hcv : (quietFinish h d).cvn = d.cvn := kf.parts .cvn rfl
  rw [t.launchIn_hk]
  have hs : IslandsStay d (quietFinish h d) := .of_keeps kf
  have htr := t.tracks
  have hr := t.runs
  generalize quietFinish h d = e at *
  have kr : Keeps [.clk, .isl] e (quadReload e) := quadReload_keeps e
  have hhalt : (quadReload e).halt = e.halt := kr.parts .halt rfl
  have hcvn : (quadReload e).cvn = e.cvn := kr.parts .cvn rfl
  have hstart : (quadReload e).start = e.start := kr.start_eq rfl rfl rfl
  refine ⟨hs.trans (quadReload_islandsStay e), by rw [hstart, hst]; exact hr, by rw [hcvn, hcv]; exact htr, fun hm => absurd hm (by decide), fun _ => ?_⟩
  rw [hhalt, hh]
  exact ⟨rfl, rfl⟩

theorem EndTurn.turnQuad {h : HaltSched} {q : Quad} {l : List Island} {d : Device} (hn4 : 4 ∉ quadIsland q :: l) (t : EndTurn h (quadIsland q :: l) d) :
    IslandsStay d (launchIn (quadIsland q) .quietEnd d) ∧ EndTurn h l (launchIn (quadIsland q) .quietEnd d) := by
  have ke : Keeps [.arbs, .slots, .quads, .chans, .profs, .paths, .mods, .seqs, .cal] d (quietEndQuad q d) := quietEndQuad_keeps q d
  have hcvn : (quietEndQuad q d).cvn = d.cvn := ke.parts .cvn rfl
  have he : launchInQuad q .quietEnd d = send (.toHk q) (.ack .quietEnd) (quietEndQuad q d) :=
    congrArg (send (.toHk q) (.ack .quietEnd)) (quietStepLast_tracks (by rw [hcvn]; exact t.tracks))
  have k : Keeps [.isl, .arbs, .slots, .quads, .chans, .profs, .paths, .mods, .seqs, .cal] d (launchInQuad q .quietEnd d) :=
    he ▸ (send_keeps ..).after (ke.mono rfl) rfl
  have hst : (launchInQuad q .quietEnd d).start = d.start := k.start_eq rfl rfl rfl
  have hh : (launchInQuad q .quietEnd d).halt = d.halt := k.parts .halt rfl
  have hcv : (launchInQuad q .quietEnd d).cvn = d.cvn := k.parts .cvn rfl
  rw [launchIn_quad q t.runs]
  exact ⟨.of_keeps k, hst ▸ t.runs, hcv ▸ t.tracks, fun hm => absurd (List.mem_cons_of_mem _ hm) hn4, fun _ => hh ▸ t.ended hn4⟩

theorem EndTurn.turn {h : HaltSched} (i : Island) (l : List Island) (d : Device) (hl : i :: l <:+ islandOrder) (t : EndTurn h (i :: l) d) :
    IslandsStay d (launchIn i .quietEnd d) ∧ EndTurn h l (launchIn i .quietEnd d) := by
  rcases turn_cases hl with ⟨rfl, rfl⟩ | ⟨q, rfl, hn4⟩
  · exact t.turnHk
  · exact t.turnQuad hn4

/-! ### The obligation -/

/-- Settles O22. -/
theorem haltSequence : Obligations.HaltSequence := by
  unfold Obligations.HaltSequence
  refine ⟨fun f p tl s _ hp hf hok ht hn hr => ?_, fun f p tl s _ hp hf hok => ?_, fun s hk hf hn hc ha => ?_, fun s hk hf hn hc ha => ?_,
    fun h s hk hn hr hc hs => ?_, fun h s hk hc hr hf hp => ?_, fun h s hk hc hr hp => ?_, fun h s hk hc hp hv => ?_, fun h s hk hc hp ht => ?_,
    fun h t0 s hc hr hp hx hl hrun hq => ?_, fun h t0 s hc hr hp hx hl hrun hq => ?_, fun h t0 s hc hr hp ht hx hl hrun hq => ?_⟩
  · obtain ⟨t, ht', hd⟩ := done_next (haltFrameReceive f) s
    refine ⟨t, ht', ?_⟩
    rw [hd, drive_halt, haltFrame_taken hp hf hok ht hn hr]
    exact haltTake_halt _ _
  · obtain ⟨t, ht', hd⟩ := done_next (haltFrameReceive f) s
    obtain ⟨-, -, -, herr⟩ := forward_follows f f.bytes s.dev
    refine ⟨t, ht', ?_⟩
    rw [hd, drive_cvn, drive_halt, haltFrame_valid hp hf, if_pos hok, frameErr, updCvn_cvn, updCvn_halt, forward_halt, herr]
    exact ⟨rfl, rfl⟩
  · obtain ⟨t, ht', hd⟩ := done_next haltPredict s
    refine ⟨t, (execHaltPredict_calm s hk).trans ht', ?_⟩
    have hclk (x : HaltSched) (y : Device) : (announce x y).clk = y.clk := (announce_keeps ..).clk_eq
    rw [hd, drive_clk, drive_halt, haltPredict_known hf hn hc ha, hclk, waitLoc_loc, announce_halt, waitLoc_halt]
    exact ⟨rfl, rfl⟩
  · obtain ⟨t, ht', hd⟩ := done_next haltPredict s
    refine ⟨t, (execHaltPredict_calm s hk).trans ht', ?_⟩
    have hclk (no : Word) (n : Nat) (y : Device) : (haltSkip no n y).clk = y.clk := (haltSkip_keeps ..).clk_eq
    rw [hd, drive_clk, drive_halt, haltPredict_unknown hf hn hc ha, hclk, haltSkip_halt]
    exact ⟨rfl, hn, rfl, rfl⟩
  · obtain ⟨t, ht', hd⟩ := done_next haltRampFix s
    refine ⟨t, (execHaltRampFix_calm s hk).trans ht', ?_⟩
    rw [hd, drive_halt, drive_isl, haltRampFix_source hn hr hc hs]
    generalize hw : waitLoc (h.start * tick - 3 * ms) s.dev = w
    have hwi : w.isl = s.dev.isl := by rw [← hw, waitLoc_isl]
    have hmin := rampUnits_min w
    rw [haltLaunches_halt, updHalt_halt, rampFixed_halt]
    refine ⟨rfl, rfl, (by omega : 25 ≤ min (rampUnits w) 200), (by omega : min (rampUnits w) 200 ≤ 200), rfl, rfl, rfl, fun q => ?_⟩
    rw [haltLaunches_fifo, updHalt_isl, rampFixed_fifo, hwi]
  · obtain ⟨t, ht', hd⟩ := done_next haltRampDown s
    refine ⟨t, (execHaltRampDown_calm s hk).trans ht', ?_⟩
    have hclk (y : Device) : (probation y).clk = y.clk := (probation_keeps y).clk_eq
    have hhalt (y : Device) : (probation y).halt = y.halt := (probation_keeps y).parts .halt rfl
    rw [hd, drive_clk, drive_halt, haltRampDown_due hc hr hf hp, hclk, hhalt, updHalt_clk, updHalt_halt, waitLoc_loc]
    exact ⟨rfl, waitLoc_loc .., rfl⟩
  · obtain ⟨t, ht', hd⟩ := done_next quietStart s
    refine ⟨t, (execQuietWindowStart_calm s hk).trans ht', ?_⟩
    have hhalt (y : Device) : (forEach allQuads quietStopQuad y).halt = y.halt := (quietStops_keeps y).parts .halt rfl
    obtain ⟨h1, h2, h3⟩ := quietBegin_halt h (waitLoc (h.start * tick) s.dev)
    rw [hd, quietStart_due hc hr hp, drive_clk, drive_halt, hhalt, (quietStops_keeps _).clk_eq, quietBegin_clk, waitLoc_loc]
    exact ⟨h1, h2, h3, rfl, fun n => (quietStops_low n _).pins⟩
  · obtain ⟨t, ht', hd⟩ := done_next conversionStart s
    refine ⟨t, (execHaltConversionStart_calm s hk).trans ht', ?_⟩
    have hhalt (y : Device) : (forEach allQuads readbackRequest y).halt = y.halt := (readbacks_keeps y).parts .halt rfl
    rw [hd, drive_clk, drive_halt, conversionStart_due hc hp hv, hhalt, (readbacks_keeps _).clk_eq, convMark, updHalt_halt, updHalt_clk, waitLoc_loc, waitLoc_halt]
    exact ⟨rfl, hp, rfl⟩
  · obtain ⟨t, ht', hd⟩ := done_next quietEnd s
    refine ⟨t, (execQuietWindowEnd_calm s hk).trans ht', ?_⟩
    obtain ⟨h1, h2⟩ := quietEnded_halt h (waitLoc (h.start * tick + h.qlen * (10 * us)) s.dev)
    rw [hd, drive_clk, drive_halt, quietEnd_due hc hp ht, (quadReload_clk _).1, (quietEnded_keeps ..).clk_eq, waitLoc_loc]
    exact ⟨h1, h2, rfl⟩
  · obtain ⟨t, ht', hd⟩ := done_next (launchRow .quietStart quietStart) s
    obtain ⟨h1, h2, h3⟩ := launchRow_chorus (G := QuietTurn h) (f := quietStart) rfl QuietTurn.turn QuietTurn.take hx hl hrun hq
      ⟨hr, fun _ => ⟨hc, hp⟩, fun hn => absurd (by decide) hn, fun n hn => absurd (quadIsland_mem_order _) hn⟩
    obtain ⟨hp1, hp2, hp3⟩ := h1.begun nofun
    refine ⟨t, ht', ?_⟩
    rw [hd, drive_clk, drive_halt, drive_isl]
    exact ⟨hp1, hp2, hp3, h3, h2, fun n => (h1.low n nofun).pins⟩
  · obtain ⟨t, ht', hd⟩ := done_next (launchRow .convStart conversionStart) s
    obtain ⟨h1, h2, h3⟩ := launchRow_chorus (G := ConvTurn) (f := conversionStart) rfl ConvTurn.turn ConvTurn.take hx hl hrun hq
      ⟨hr, hp, fun hn => absurd (by decide) hn⟩
    refine ⟨t, ht', ?_⟩
    rw [hd, drive_clk, drive_halt, drive_isl]
    exact ⟨h1.noted nofun, h1.quiet, h3, h2⟩
  · obtain ⟨t, ht', hd⟩ := done_next (launchRow .quietEnd quietEnd) s
    obtain ⟨h1, h2, h3⟩ := launchRow_chorus (G := EndTurn h) (f := quietEnd) rfl EndTurn.turn EndTurn.take hx hl hrun hq
      ⟨hr, ht, fun _ => ⟨hc, hp⟩, fun hn => absurd (by decide) hn⟩
    obtain ⟨hp1, hp2⟩ := h1.ended nofun
    refine ⟨t, ht', ?_⟩
    rw [hd, drive_clk, drive_halt, drive_isl]
    exact ⟨hp1, hp2, h3, h2⟩

end Sys2Proof.Machine

/-! ## A region reload from its check to its re-arm launch (03: R109 to R111; 12: R471 to R474) -/

namespace Sys2Proof.Machine

/-! ### Memory (R472) -/

theorem mget_append_absent (s l : Memory) (a : Nat) (h : ∀ p ∈ l, p.1 ≠ a) : mget (s ++ l) a = mget s a := by
  induction s with
  | nil => exact mget_absent l a h
  | cons p s ih =>
    obtain ⟨b, v⟩ := p
    change (if a = b then v else mget (s ++ l) a) = if a = b then v else mget s a
    rw [ih]

theorem mget_slice (m : Memory) {lo hi a : Nat} (h1 : lo ≤ a) (h2 : a < hi) : mget (mslice m lo hi lo) a = mget m a := by
  induction m with
  | nil => rfl
  | cons p m ih =>
    obtain ⟨b, v⟩ := p
    unfold mslice at ih ⊢
    by_cases hin : lo ≤ b ∧ b < hi
    · rw [List.filter_cons_of_pos (by simp [hin]), List.map_cons]
      change (if a = b - lo + lo then v else _) = if a = b then v else mget m a
      rw [Nat.sub_add_cancel hin.1, ih]
    · rw [List.filter_cons_of_neg (by simpa using hin), ih]
      have hne : a ≠ b := fun he => hin ⟨he ▸ h1, he ▸ h2⟩
      exact (if_neg hne).symm

/-- The bytes of a replaced segment are those of what replaces it. -/
theorem mget_replaced (m seg : Memory) {hi a : Nat} (h : a < hi) : mget (mreplace m 0 hi seg) a = mget seg a := by
  have h0 : m.filter (fun p => decide (p.1 < 0)) = [] := List.filter_eq_nil_iff.2 fun p _ => by simp
  rw [mreplace, h0, List.nil_append]
  refine mget_append_absent _ _ _ fun p hp he => ?_
  have := of_decide_eq_true (List.mem_filter.1 hp).2
  omega

/-! ### Commands to the quadrants of a region (R19, R20) -/

/-- The channels to the quadrants hold what they held. -/
structure WaitsSame (d e : Device) : Prop where
  fifo : ∀ q : Quad, e.isl.fifo[xIndex (.toQd q)] = d.isl.fifo[xIndex (.toQd q)]
  stalled : ∀ q : Quad, e.isl.stalled[xIndex (.toQd q)] = d.isl.stalled[xIndex (.toQd q)]

theorem WaitsSame.trans {d e g : Device} (h : WaitsSame d e) (k : WaitsSame e g) : WaitsSame d g :=
  ⟨fun q => (k.fifo q).trans (h.fifo q), fun q => (k.stalled q).trans (h.stalled q)⟩

theorem WaitsSame.of_keeps {S : List Part} {d e : Device} (k : Keeps S d e) (h : S.contains .isl = false := by rfl) : WaitsSame d e := by
  have hr : e.isl.rest = d.isl.rest := k.parts .isl h
  have hs : e.isl.stalled = d.isl.stalled := (congrArg Islands.stalled hr : e.isl.rest.stalled = d.isl.rest.stalled)
  exact ⟨fun q => by rw [k.fifo_eq h], fun q => by rw [hs]⟩

theorem WaitsSame.toWaits {d e : Device} (h : WaitsSame d e) (q : Quad) : toWaits e q = toWaits d q := by
  simp only [Machine.toWaits, fifoOf, h.fifo, h.stalled]

/-- A command to the quadrant of a channel: it acts at once, or waits in its crossing. -/
def chanCommand (m : Chan → Msg) (f : Chan → Device → Device) (c : Chan) (d : Device) : Device := toQuad (Chan.quad c) (m c) (f c) d

/-- A command that leaves the channels to the quadrants, and every channel but its own. -/
structure OwnCommand (f : Chan → Device → Device) : Prop where
  waits : ∀ c d, WaitsSame d (f c d)
  others : ∀ (c b : Chan) d, b ≠ c → (f b d).chans[c] = d.chans[c]

section
variable {m : Chan → Msg} {f : Chan → Device → Device}

theorem chanCommand_waits {c : Chan} {d : Device} (h : toWaits d (Chan.quad c) = true) : chanCommand m f c d = send (.toQd (Chan.quad c)) (m c) d := if_pos h

theorem chanCommand_acts {c : Chan} {d : Device} (h : toWaits d (Chan.quad c) = false) : chanCommand m f c d = f c d := if_neg (by rw [h]; exact Bool.false_ne_true)

theorem send_waits {c : Chan} (x : Msg) {d : Device} (h : toWaits d (Chan.quad c) = true) (q : Quad) : toWaits (send (.toQd (Chan.quad c)) x d) q = toWaits d q := by
  by_cases hq : q = Chan.quad c
  · subst hq
    rw [h, toWaits, fifoOf, send_fifo_same]
    simp
  · have hf : fifoOf (send (.toQd (Chan.quad c)) x d) (.toQd q) = fifoOf d (.toQd q) := send_fifo_other (xIndex_toQd_ne hq) x d
    rw [toWaits, hf]
    rfl

variable (ho : OwnCommand f)
include ho

theorem chanCommand_toWaits (c : Chan) (d : Device) (q : Quad) : toWaits (chanCommand m f c d) q = toWaits d q := by
  cases h : toWaits d (Chan.quad c) with
  | true => rw [chanCommand_waits h, send_waits _ h]
  | false => rw [chanCommand_acts h, (ho.waits c d).toWaits]

theorem chanCommand_other {b c : Chan} (h : b ≠ c) (d : Device) : (chanCommand m f b d).chans[c] = d.chans[c] := by
  cases hw : toWaits d (Chan.quad b) with
  | true => rw [chanCommand_waits hw, show (send (.toQd (Chan.quad b)) (m b) d).chans = d.chans from rfl]
  | false => rw [chanCommand_acts hw, ho.others c b d h]

theorem chanCommands_toWaits (l : List Chan) (d : Device) (q : Quad) : toWaits (forEach l (chanCommand m f) d) q = toWaits d q :=
  forEach_induct (fun e => toWaits e q = toWaits d q) l (chanCommand m f) (fun c e he => (chanCommand_toWaits ho c e q).trans he) d rfl

theorem chanCommands_outside {l : List Chan} {c : Chan} (h : c ∉ l) (d : Device) : (forEach l (chanCommand m f) d).chans[c] = d.chans[c] :=
  forEach_skips (P := fun e => e.chans[c] = d.chans[c]) (fun _ hb e he => (chanCommand_other ho (fun hbc => h (by rw [← hbc]; exact hb)) e).trans he) d rfl

/-- A channel's own command comes to it as it stood. -/
theorem chanCommands_own {l : List Chan} (hn : l.Nodup) {c : Chan} (hc : c ∈ l) (d : Device) : ∃ e, e.chans[c] = d.chans[c] ∧
    (forEach l (chanCommand m f) d).chans[c] = if toWaits d (Chan.quad c) then d.chans[c] else (f c e).chans[c] := by
  obtain ⟨e, ⟨he, hw⟩, hs, -⟩ := forEach_once (R := fun (c : Chan) (d e : Device) => e.chans[c] = d.chans[c] ∧ ∀ q, toWaits e q = toWaits d q) (f := chanCommand m f)
    (fun _ _ => ⟨rfl, fun _ => rfl⟩) (fun _ _ _ _ h k => ⟨k.1.trans h.1, fun q => (k.2 q).trans (h.2 q)⟩)
    (fun a b d h => ⟨chanCommand_other ho h d, chanCommand_toWaits ho b d⟩) hn hc d
  refine ⟨e, he, hs.trans ?_⟩
  cases h : toWaits d (Chan.quad c) with
  | true => rw [chanCommand_waits ((hw _).trans h), if_pos rfl, ← he]; rfl
  | false => rw [chanCommand_acts ((hw _).trans h), if_neg Bool.false_ne_true]

/-- The commands that wait are the newest messages of their crossing, in their order. -/
theorem chanCommands_fifo (q : Quad) (l : List Chan) : ∀ d : Device, (forEach l (chanCommand m f) d).isl.fifo[xIndex (.toQd q)] =
    d.isl.fifo[xIndex (.toQd q)] ++ if toWaits d q then (l.filter fun c => decide (Chan.quad c = q)).map m else [] := by
  induction l with
  | nil =>
    intro d
    rw [List.filter_nil, List.map_nil, ite_self, List.append_nil]
    rfl
  | cons c l ih =>
    intro d
    refine (ih (chanCommand m f c d)).trans ?_
    rw [chanCommand_toWaits ho]
    by_cases hq : Chan.quad c = q
    · rw [List.filter_cons_of_pos (p := fun c => decide (Chan.quad c = q)) (decide_eq_true hq), List.map_cons]
      subst hq
      cases h : toWaits d (Chan.quad c) with
      | true => rw [chanCommand_waits h, send_fifo_same, if_pos rfl, if_pos rfl, List.append_assoc, List.singleton_append]
      | false => rw [chanCommand_acts h, (ho.waits c d).fifo, if_neg Bool.false_ne_true, if_neg Bool.false_ne_true]
    · rw [List.filter_cons_of_neg (p := fun c => decide (Chan.quad c = q)) (by rw [decide_eq_false hq]; exact Bool.false_ne_true)]
      cases h : toWaits d (Chan.quad c) with
      | true => rw [chanCommand_waits h, send_fifo_other (xIndex_toQd_ne (Ne.symm hq))]
      | false => rw [chanCommand_acts h, (ho.waits c d).fifo]

end

/-! ### The check (R109 to R111, R472) -/

theorem reloadStop_own : OwnCommand reloadStop where
  waits c d := .of_keeps (reloadStop_keeps c d)
  others _ b d h := if_cases (p := fun x : Device => x.chans[_] = d.chans[_]) (upd_other _ _ _ _ (Ne.symm h)) rfl

theorem reloadStop_running {c : Chan} {d : Device} (h : (d.chans[c]).st = .start ∨ (d.chans[c]).st = .regulate) :
    (reloadStop c d).chans[c] = { d.chans[c] with reloadReq := true } := by
  rw [reloadStop, if_pos h, updChan_chans, upd_same]

theorem regionChans_nodup (r : Region) : (regionChans r).Nodup := by
  cases r with
  | device => exact List.nodup_finRange 32
  | channel c => exact List.nodup_singleton c
  | quadrant q => exact (List.nodup_finRange 32).filter (fun c => decide (Chan.quad c = q))

theorem reloadChans_nodup (d : Device) : (reloadChans d).Nodup := (regionChans_nodup _).filter _

theorem mem_reloadChans {c : Chan} {d : Device} (h : c ∈ regionChans (reloadRegion d)) (ha : (d.chans[c]).armed = true) : c ∈ reloadChans d :=
  List.mem_filter.2 ⟨h, ha⟩

/-- The reload as its check has merged it. -/
def reloadJudged (d : Device) : CheckRes :=
  reloadCheck d (reloadStruct d) (mergeBase d.loader.base d.reload.newBase (reloadRanges d d.reload.newBase (reloadRegion d)))
    (mergeOvls d.loader.ovls d.reload.newOvls (reloadRanges d d.reload.newBase (reloadRegion d))) (reloadSlots d d.reload.newBase (reloadRegion d))

/-- The words of an accepted reload, before its stops. -/
def reloadAccepted (d : Device) : Device :=
  (setDetail 5 (reloadJudged d) d).updReload fun x => { x with
    st := 3, newBase := mergeBase d.loader.base d.reload.newBase (reloadRanges d d.reload.newBase (reloadRegion d))
    newOvls := mergeOvls d.loader.ovls d.reload.newOvls (reloadRanges d d.reload.newBase (reloadRegion d)), checkedAt := d.up, written := false, recheck := false }

theorem reloadCheckDone_refused {d : Device} (hs : d.reload.st = 2) (hr : (reloadJudged d).reason ≠ 0) : reloadCheckDone d = reloadRefused (reloadJudged d) d := by
  rw [reloadCheckDone, if_pos hs]
  exact if_pos hr

theorem reloadCheckDone_accepted {d : Device} (hs : d.reload.st = 2) (hr : (reloadJudged d).reason = 0) :
    reloadCheckDone d = forEach (reloadChans d) (chanCommand (fun c => .region (.stop c)) reloadStop) (reloadAccepted d) := by
  rw [reloadCheckDone, if_pos hs]
  exact if_neg (fun h => h hr)

theorem reloadRefused_words (r : CheckRes) (d : Device) : (reloadRefused r d).reload.st = 6 ∧ (reloadRefused r d).reload.reason = BitVec.ofNat 8 r.reason ∧
    (reloadRefused r d).reload.newBase = [] ∧ (reloadRefused r d).sup.alertDrive = true := ⟨rfl, rfl, rfl, rfl⟩

theorem reloadAccepted_words (d : Device) : (reloadAccepted d).reload.st = 3 ∧
    (reloadAccepted d).reload.newBase = mergeBase d.loader.base d.reload.newBase (reloadRanges d d.reload.newBase (reloadRegion d)) ∧
    (reloadAccepted d).memory = d.memory ∧ (reloadAccepted d).loader = d.loader ∧ (reloadAccepted d).chans = d.chans ∧ (reloadAccepted d).isl = d.isl :=
  ⟨rfl, rfl, rfl, rfl, rfl, rfl⟩

/-- The stops of an accepted reload go to the armed channels of the region alone (R472). -/
theorem reloadStops_accepted (d : Device) :
    let e := forEach (reloadChans d) (chanCommand (fun c => .region (.stop c)) reloadStop) (reloadAccepted d)
    e.reload.st = 3 ∧ e.reload.newBase = mergeBase d.loader.base d.reload.newBase (reloadRanges d d.reload.newBase (reloadRegion d)) ∧
      e.memory.conf = d.memory.conf ∧ e.loader = d.loader ∧
      (∀ c ∈ regionChans (reloadRegion d), (d.chans[c]).armed = true → ((d.chans[c]).st = .start ∨ (d.chans[c]).st = .regulate) →
        (e.chans[c]).reloadReq = (if toWaits d (Chan.quad c) then (d.chans[c]).reloadReq else true) ∧
        (e.chans[c]).st = (d.chans[c]).st ∧ (e.chans[c]).gate = (d.chans[c]).gate) ∧
      (∀ c : Chan, c ∉ regionChans (reloadRegion d) → e.chans[c] = d.chans[c]) ∧
      ∀ q : Quad, e.isl.fifo[xIndex (.toQd q)] = d.isl.fifo[xIndex (.toQd q)] ++ (if toWaits d q then
        ((reloadChans d).filter fun c => decide (Chan.quad c = q)).map fun c => .region (.stop c) else []) := by
  obtain ⟨h1, h2, h3, h4, h5, h6⟩ := reloadAccepted_words d
  generalize reloadAccepted d = x at *
  have hw (q : Quad) : toWaits x q = toWaits d q := by simp only [toWaits, fifoOf, h6]
  have k : Keeps [.isl, .chans] x (forEach (reloadChans d) (chanCommand (fun c => .region (.stop c)) reloadStop) x) := .forEach (fun c e => stopSend_keeps c e) (.refl ..)
  have k1 : (forEach (reloadChans d) (chanCommand (fun c => .region (.stop c)) reloadStop) x).reload = x.reload := k.parts .reload rfl
  have k2 : (forEach (reloadChans d) (chanCommand (fun c => .region (.stop c)) reloadStop) x).memory.conf = x.memory.conf := k.parts .conf rfl
  have k3 : (forEach (reloadChans d) (chanCommand (fun c => .region (.stop c)) reloadStop) x).loader = x.loader := k.parts .loader rfl
  refine ⟨by rw [k1, h1], by rw [k1, h2], by rw [k2, h3], by rw [k3, h4], fun c hc ha hst => ?_, fun c hc => ?_, fun q => ?_⟩
  · obtain ⟨e, he, heq⟩ := chanCommands_own (m := fun c => .region (.stop c)) reloadStop_own (reloadChans_nodup d) (mem_reloadChans hc ha) x
    rw [h5] at he
    rw [heq, hw, h5]
    split
    · exact ⟨rfl, rfl, rfl⟩
    · rw [reloadStop_running (by rw [he]; exact hst), he]
      exact ⟨rfl, rfl, rfl⟩
  · have hn : c ∉ reloadChans d := fun hm => hc (List.mem_filter.1 hm).1
    rw [chanCommands_outside reloadStop_own hn, h5]
  · rw [chanCommands_fifo reloadStop_own, hw, h6]

/-! ### The stops (R472) -/

theorem mirrorLeft_drive (d : Device) : mirrorLeft (drive d) = mirrorLeft d := rfl

theorem reloadStopDone_quiet {d : Device} (hs : d.reload.st = 3) (hq : (regionChans (reloadRegion d)).all (reloadQuiet d) = true) :
    reloadStopDone d = mirrorStarts (d.updReload fun x => { x with st := 4 }) := if_pos ⟨hs, hq⟩

theorem reloadStopDone_waits {d : Device} (hq : (regionChans (reloadRegion d)).all (reloadQuiet d) = false) : reloadStopDone d = d :=
  if_neg fun h => by rw [h.2] at hq; cases hq

/-- The codewords of the region are all left when its writes begin. -/
theorem mirrorLeft_starts {d : Device} (hw : d.reload.written = false) (hr : d.start.st = .run) :
    (mirrorLeft (mirrorStarts (d.updReload fun x => { x with st := 4 }))).2 = reloadCws d := by
  have hs : (mirrorStarts (d.updReload fun x => { x with st := 4 })).start.st ≠ .build := by
    change d.start.st ≠ .build
    rw [hr]
    nofun
  rw [mirrorLeft, if_neg hs, if_pos ⟨rfl, hw⟩]
  rfl

theorem quadEvent_waitsSame (q : Quad) (code w0 w1 w2 : Nat) (d : Device) : WaitsSame d (quadEvent q code w0 w1 w2 d) := by
  have hs (x : Msg) : WaitsSame d (send (.toHk q) x d) := ⟨fun p => send_fifo_other (toQd_ne_toHk p q) x d, fun _ => rfl⟩
  exact if_cases (p := WaitsSame d) (hs _) (.of_keeps (logEvent_keeps ..))

theorem enterCh_own (c : Chan) (st : ChState) (d : Device) : ((enterCh c st d).chans[c]).st = st ∧ (st.switching = false → ((enterCh c st d).chans[c]).gate = false) := by
  have h (x : Device) (hx : (x.chans[c]).st = st) : ((regate c x).chans[c]).st = st ∧ (st.switching = false → ((regate c x).chans[c]).gate = false) := by
    obtain ⟨b, hb⟩ := regate_chan c x
    rw [hb]
    refine ⟨hx, fun hsw => ?_⟩
    change gateWanted x c = false
    rw [gateWanted, hx, hsw]
    rfl
  exact h _ (congrArg ChanSt.st (upd_same ..))

theorem enterCh_others {c k : Chan} (h : k ≠ c) (st : ChState) (d : Device) : (enterCh c st d).chans[k] = d.chans[k] := by
  have h1 (x : Device) (hx : x.chans[k] = d.chans[k]) : (regate c (x.updChan c fun s => { s with st := st })).chans[k] = d.chans[k] := by
    rw [(regate_otherChans c _).chan k h, updChan_chans, upd_other _ _ _ _ h]
    exact hx
  refine h1 _ ?_
  rw [updProf_chans]
  refine if_cases (p := fun x : Device => x.chans[k] = d.chans[k]) ?_ rfl
  rw [updChan_chans, upd_other _ _ _ _ h]
  rfl

theorem reloadForce_own : OwnCommand reloadForce where
  waits c d := by
    have k (x : Device) : Keeps [.slots, .chans, .profs, .paths] x (stopEnds c x) := stopEnds_keeps c x
    exact if_cases (p := WaitsSame d) ((quadEvent_waitsSame ..).trans (.of_keeps (k _))) ⟨fun _ => rfl, fun _ => rfl⟩
  others c b d h := by
    refine if_cases (p := fun x : Device => x.chans[c] = d.chans[c]) ?_ rfl
    have hq (x y z w : Nat) : (quadEvent (Chan.quad b) x y z w d).chans = d.chans := (quadEvent_keeps ..).parts .chans rfl
    rw [stopEnds, enterCh_others (Ne.symm h), updChan_chans, upd_other _ _ _ _ (Ne.symm h), hq]

theorem reloadForce_ends {c : Chan} {d : Device} (h : (d.chans[c]).st = .stop ∨ ((d.chans[c]).st.switching = true ∧ (d.chans[c]).reloadReq = true)) :
    ((reloadForce c d).chans[c]).st = .off ∧ ((reloadForce c d).chans[c]).gate = false := by
  rw [reloadForce, if_pos h, stopEnds]
  obtain ⟨h1, h2⟩ := enterCh_own c .off ((quadEvent (Chan.quad c) 0x0709 c.1 (unitsOf (d.chans[c]).icmd 16 16) 0 d).updChan c fun s =>
    { s with istop := 0, enablePending := false, reloadReq := false })
  exact ⟨h1, h2 rfl⟩

theorem reloadStopTimeout_due {d : Device} (h : d.reload.st = 3) : reloadStopTimeout d =
    forEach (reloadChans d) (chanCommand (fun c => .region (.force c)) reloadForce) (waitUp (d.reload.checkedAt + 10 * sec) d) := if_pos h

theorem forces_clk (l : List Chan) (d : Device) : (forEach l (chanCommand (fun c => .region (.force c)) reloadForce) d).clk = d.clk :=
  forEach_induct (fun e : Device => e.clk = d.clk) l _ (fun c e he => ((forceSend_keeps c e).clk_eq : (forceSend c e).clk = e.clk).trans he) d rfl

/-- What a stop that still runs after 10 s comes to. -/
theorem reloadForces_own {c : Chan} {d : Device} (hc : c ∈ reloadChans d) (n : Nat) :
    (toWaits d (Chan.quad c) = true →
      (forEach (reloadChans d) (chanCommand (fun c => .region (.force c)) reloadForce) (waitUp n d)).chans[c] = d.chans[c] ∧
      .region (.force c) ∈ (forEach (reloadChans d) (chanCommand (fun c => .region (.force c)) reloadForce) (waitUp n d)).isl.fifo[xIndex (.toQd (Chan.quad c))]) ∧
    (toWaits d (Chan.quad c) = false → ((d.chans[c]).st = .stop ∨ ((d.chans[c]).st.switching = true ∧ (d.chans[c]).reloadReq = true)) →
      ((forEach (reloadChans d) (chanCommand (fun c => .region (.force c)) reloadForce) (waitUp n d)).chans[c]).st = .off ∧
      ((forEach (reloadChans d) (chanCommand (fun c => .region (.force c)) reloadForce) (waitUp n d)).chans[c]).gate = false) := by
  have h5 : (waitUp n d).chans = d.chans := rfl
  have hw (q : Quad) : toWaits (waitUp n d) q = toWaits d q := rfl
  generalize waitUp n d = x at *
  obtain ⟨e, he, heq⟩ := chanCommands_own (m := fun c => .region (.force c)) reloadForce_own (reloadChans_nodup d) hc x
  rw [h5] at he
  rw [heq, hw, h5]
  refine ⟨fun ht => ⟨if_pos ht, ?_⟩, fun ht hst => ?_⟩
  · rw [chanCommands_fifo reloadForce_own, hw, if_pos ht]
    exact List.mem_append_right _ (List.mem_map_of_mem (List.mem_filter.2 ⟨hc, decide_eq_true rfl⟩))
  · rw [if_neg (by rw [ht]; exact Bool.false_ne_true)]
    exact reloadForce_ends (by rw [he]; exact hst)

/-! ### The writes (R472) -/

/-- What the grants of the port that come before leave of a reload. -/
structure ReloadKept (d e : Device) : Prop where
  reload : e.reload = d.reload
  loader : e.loader = d.loader
  conf : e.memory.conf = d.memory.conf
  clk : e.clk = d.clk
  mode : e.mode = d.mode

theorem ReloadKept.trans {d e g : Device} (h : ReloadKept d e) (k : ReloadKept e g) : ReloadKept d g :=
  ⟨k.reload.trans h.reload, k.loader.trans h.loader, k.conf.trans h.conf, k.clk.trans h.clk, k.mode.trans h.mode⟩

theorem ReloadKept.of_keeps {S : List Part} {d e : Device} (k : Keeps S d e) (hr : S.contains .reload = false := by rfl) (hl : S.contains .loader = false := by rfl)
    (hc : S.contains .conf = false := by rfl) (hk : S.contains .clk = false := by rfl) (hm : S.contains .mode = false := by rfl) : ReloadKept d e :=
  ⟨k.parts .reload hr, k.parts .loader hl, k.parts .conf hc, k.clk_eq hk, k.parts .mode hm⟩

theorem ReloadKept.base {d e : Device} (h : ReloadKept d e) : reloadBase e = reloadBase d := by
  have hs (img : Memory) (r : Region) : reloadSlots e img r = reloadSlots d img r := by cases r <;> simp only [reloadSlots, h.loader]
  simp only [reloadBase, reloadRanges, reloadRegion, hs, h.reload, h.loader]

/-- The region's words as `memWrite` stores them, before the mirror is taken over. -/
def reloadStored (d : Device) : Device :=
  forEach (reloadRanges d d.reload.newBase (reloadRegion d)) (fun r e => memWrite r.1
    (mdump (mirrorOf (reloadBase d) d.reload.newOvls d.mode.active.toNat) r.1 (r.2 - r.1)) e) d

theorem reloadStored_keeps (d : Device) : Keeps [.arbs, .log, .fi, .mem] d (reloadStored d) := .forEach (fun _ _ => memWrite_keeps ..) (.refl ..)

/-- The mirror holds the reloaded words and the overlay store. -/
def reloadMirrored (d : Device) : Device :=
  (reloadStored d).updMem fun x => { x with
    mem := mreplace x.mem 0 0x40000 (mslice (mirrorOf (reloadBase d) d.reload.newOvls d.mode.active.toNat) 0 0x40000 0)
    errs := x.errs.filter fun e => !(decide (storeCw ≤ e.1) && decide (e.1 < 8192))
    raised := x.raised.filter fun k => !(decide (storeCw ≤ k) && decide (k < 8192))
    fixing := x.fixing.filter fun k => !(decide (storeCw ≤ k) && decide (k < 8192)) }

theorem reloadWriteDone_due {d : Device} (hs : d.reload.st = 4) (hw : d.reload.written = false) : reloadWriteDone d =
    launchAll .config (msBoundary ((reloadMirrored d).loc + us)) (mirrorEnds ((reloadMirrored d).updReload fun x =>
      { x with written := true, rearmAt := msBoundary ((reloadMirrored d).loc + us) })) := if_pos ⟨hs, hw⟩

theorem finishReload_due {d : Device} (hs : d.reload.st = 4) (hw : d.reload.written = false) : finishReload d = reloadWriteDone (portServe portAll 10 d) := if_pos ⟨hs, hw⟩

theorem mirrorEnds_pending (d : Device) : 10 ∉ ((mirrorEnds d).arbs[wport]).pending.map (·.1) := by
  have h : ((mirrorEnds d).arbs[wport]).pending = ((arbWithdraw wport 10 (d.updMem fun x => { x with mirrorAt := 0 })).arbs[wport]).pending := by
    rw [mirrorEnds, arbRelease, updArb_arbs, upd_same]
  rw [h, arbWithdraw_arb]
  intro hm
  obtain ⟨r, hr, he⟩ := List.mem_map.1 hm
  exact of_decide_eq_true (List.mem_filter.1 hr).2 he

theorem reloadMirrored_mem (d : Device) {a : Nat} (h : a < 0x40000) :
    mget (reloadMirrored d).memory.mem a = mget (mirrorOf (reloadBase d) d.reload.newOvls d.mode.active.toNat) a :=
  (mget_replaced _ _ h).trans (mget_slice _ (Nat.zero_le a) h)

theorem reloadMirrored_kept (d : Device) : ReloadKept d (reloadMirrored d) := by
  obtain ⟨h1, h2, h3, h4, h5⟩ := ReloadKept.of_keeps (reloadStored_keeps d)
  exact ⟨h1, h2, h3, h4, h5⟩

/-- The reload after its writes; the port's grants before them leave it as it was. -/
theorem reloadWriteDone_words {d x : Device} (hs : d.reload.st = 4) (hw : d.reload.written = false) (k : ReloadKept d x) :
    (reloadWriteDone x).reload.written = true ∧ (reloadWriteDone x).reload.rearmAt = msBoundary (d.clk.loc + us) ∧
      10 ∉ (((reloadWriteDone x).arbs[wport]).pending.map (·.1)) ∧ (reloadWriteDone x).memory.conf = d.memory.conf ∧ (reloadWriteDone x).loader = d.loader ∧
      ∀ a < 0x40000, mget (reloadWriteDone x).memory.mem a = mget (mirrorOf (reloadBase d) d.reload.newOvls d.mode.active.toNat) a := by
  have hm := fun a (h : a < 0x40000) => reloadMirrored_mem x h
  have km := k.trans (reloadMirrored_kept x)
  rw [reloadWriteDone_due (by rw [k.reload]; exact hs) (by rw [k.reload]; exact hw)]
  rw [k.base, k.reload, k.mode] at hm
  generalize reloadMirrored x = y at *
  obtain ⟨z, hz⟩ : ∃ z, mirrorEnds (y.updReload fun x => { x with written := true, rearmAt := msBoundary (y.loc + us) }) = z := ⟨_, rfl⟩
  have hp : 10 ∉ ((z.arbs[wport]).pending.map (·.1)) := hz ▸ mirrorEnds_pending _
  have hzr : z.reload = { y.reload with written := true, rearmAt := msBoundary (y.clk.loc + us) } := hz ▸ rfl
  have hzm : z.memory.mem = y.memory.mem := hz ▸ rfl
  have hzc : z.memory.conf = y.memory.conf := hz ▸ rfl
  have hzl : z.loader = y.loader := hz ▸ rfl
  rw [hz]
  have kl : Keeps [.isl, .launches] z (launchAll .config (msBoundary (y.loc + us)) z) := launchAll_keeps ..
  generalize launchAll .config (msBoundary (y.loc + us)) z = l at kl ⊢
  have k1 : l.reload = z.reload := kl.parts .reload rfl
  have k2 : l.memory.conf = z.memory.conf := kl.parts .conf rfl
  have k3 : l.loader = z.loader := kl.parts .loader rfl
  have k4 : l.arbs = z.arbs := kl.parts .arbs rfl
  have k5 : l.memory.mem = z.memory.mem := kl.bytes_eq rfl
  rw [k1, k2, k3, k4, k5, hzr, hzm, hzc, hzl]
  exact ⟨rfl, by rw [km.clk], hp, km.conf, km.loader, hm⟩

/-! ### The re-arm launch (R472, R473) -/

/-- Nothing lags behind housekeeping: no launch is under way or held, and no quadrant is ahead. -/
structure NoLag (d : Device) : Prop where
  fifo : ∀ x : Fin 24, d.isl.fifo[x] = []
  launches : ∀ q : Quad, d.isl.launches[quadIsland q] = []
  ahead : ∀ q : Quad, d.isl.ahead[q] = false

theorem NoLag.confLags {d : Device} (h : NoLag d) : confLags d = [] := by
  refine List.filter_eq_nil_iff.2 fun q _ => ?_
  rw [h.ahead, h.launches, launchSent, fifoOf, h.fifo]
  simp

theorem NoLag.of_isl {d e : Device} (h : NoLag d) (hi : e.isl = d.isl) : NoLag e := ⟨by rw [hi]; exact h.fifo, by rw [hi]; exact h.launches, by rw [hi]; exact h.ahead⟩

theorem confTake_whole (new : Memory) {d : Device} (h : confLags d = []) : (confTake new d).memory.conf = new := by
  rw [confTake, h]
  rfl

/-- The base, the overlays and the count of a completed reload, and its words in force. -/
theorem reloadForceIn_words (slots : List Slot) (r : Region) {d : Device} (hn : NoLag d) (hr : d.reload.recheck = false) :
    (reloadForceIn slots r d).reload = { d.reload with count := satInc d.reload.count } ∧ (reloadForceIn slots r d).loader.base = reloadBase d ∧
      (reloadForceIn slots r d).loader.ovls = d.reload.newOvls ∧
      (reloadForceIn slots r d).memory.conf = composeMem (reloadBase d) d.reload.newOvls d.mode.active.toNat := by
  obtain ⟨y, hy⟩ : ∃ y, reloadBooked (dropSwaps slots r d) = y := ⟨_, rfl⟩
  have hl : y.loader = { d.loader with base := reloadBase d, ovls := d.reload.newOvls } := hy ▸ rfl
  have hrl : y.reload = { d.reload with count := satInc d.reload.count } := hy ▸ rfl
  have hm : y.mode = d.mode := hy ▸ rfl
  have hi : y.isl = d.isl := hy ▸ rfl
  have he : reloadForceIn slots r d =
      giveWork (regionQuad r) (.rearm slots r) (confChanged d (confTake (composeMem y.loader.base y.loader.ovls y.mode.active.toNat) y)) := by
    rw [reloadForceIn, hy, if_neg (by rw [hrl]; exact fun h => Bool.false_ne_true (hr.symm.trans h))]
  have hc := confTake_whole (composeMem y.loader.base y.loader.ovls y.mode.active.toNat) (hn.of_isl hi).confLags
  have hz : (confTake (composeMem y.loader.base y.loader.ovls y.mode.active.toNat) y).loader = y.loader := rfl
  have hzr : (confTake (composeMem y.loader.base y.loader.ovls y.mode.active.toNat) y).reload = y.reload := rfl
  rw [he]
  generalize confTake (composeMem y.loader.base y.loader.ovls y.mode.active.toNat) y = z at *
  have k : Keeps [.isl, .arbs, .slots, .chans, .profs, .paths, .rings, .writers, .nobind] z (giveWork (regionQuad r) (.rearm slots r) (confChanged d z)) :=
    (giveWork_keeps ..).after ((confChanged_keeps d z).mono rfl) rfl
  have k1 : (giveWork (regionQuad r) (.rearm slots r) (confChanged d z)).reload = z.reload := k.parts .reload rfl
  have k2 : (giveWork (regionQuad r) (.rearm slots r) (confChanged d z)).loader = z.loader := k.parts .loader rfl
  have k3 : (giveWork (regionQuad r) (.rearm slots r) (confChanged d z)).memory.conf = z.memory.conf := k.parts .conf rfl
  rw [k1, k2, k3, hz, hzr, hc, hl, hrl, hm]
  exact ⟨rfl, rfl, rfl, rfl⟩

/-- What the re-arm of a reload of d leaves. -/
structure Rearmed (d e : Device) : Prop where
  st : e.reload.st = 5
  count : e.reload.count = satInc d.reload.count
  base : e.loader.base = reloadBase d
  ovls : e.loader.ovls = d.reload.newOvls
  conf : e.memory.conf = composeMem (reloadBase d) d.reload.newOvls d.mode.active.toNat
  reason : e.reload.reason = d.reload.reason
  alert : e.sup.alertDrive = true

theorem Rearmed.kept {d x y : Device} (h : Rearmed d x) (hr : y.reload = x.reload) (hl : y.loader = x.loader) (hc : y.memory.conf = x.memory.conf)
    (ha : y.sup.alertDrive = true) : Rearmed d y :=
  ⟨by rw [hr, h.st], by rw [hr, h.count], by rw [hl, h.base], by rw [hl, h.ovls], by rw [hc, h.conf], by rw [hr, h.reason], ha⟩

/-- A candidate that no overlay has overtaken is not checked again (R474). -/
theorem rearmGive_current {d : Device} (h : d.reload.recheck = false) : ∃ (n : BitVec 16) (i w : Nat) (q : Quad), rearmGive d = alertSet 4 (logEvent 0x0708 i w n.toNat
      ((giveWork q (.start (reloadRegion d)) (reloadForceIn (reloadSlots d d.reload.newBase (reloadRegion d)) (reloadRegion d) d)).updReload fun x =>
        { x with st := 5, ms := n, newBase := [], newOvls := [] })) := by
  rw [rearmGive]
  dsimp only
  have hf : ¬d.reload.recheck = true := by
    rw [h]
    exact Bool.false_ne_true
  rw [if_neg hf, if_neg (fun hn => hn rfl), if_neg hf]
  exact ⟨_, _, _, _, rfl⟩

theorem rearmGive_rearms {d : Device} (hn : NoLag d) (h : d.reload.recheck = false) : Rearmed d (rearmGive d) := by
  obtain ⟨n, i, w, q, he⟩ := rearmGive_current h
  obtain ⟨h1, h2, h3, h4⟩ := reloadForceIn_words (reloadSlots d d.reload.newBase (reloadRegion d)) (reloadRegion d) hn h
  rw [he]
  generalize reloadForceIn (reloadSlots d d.reload.newBase (reloadRegion d)) (reloadRegion d) d = y at *
  obtain ⟨z, hz⟩ : ∃ z, (giveWork q (.start (reloadRegion d)) y).updReload (fun x => { x with st := 5, ms := n, newBase := [], newOvls := [] }) = z := ⟨_, rfl⟩
  have hzr : z.reload = { y.reload with st := 5, ms := n, newBase := [], newOvls := [] } := hz ▸ rfl
  have hzl : z.loader = y.loader := hz ▸ rfl
  have hzc : z.memory.conf = y.memory.conf := hz ▸ rfl
  rw [hz]
  have k : Keeps [.arbs, .log] z (logEvent 0x0708 i w n.toNat z) := logEvent_keeps ..
  generalize logEvent 0x0708 i w n.toNat z = l at k ⊢
  have k1 : l.reload = z.reload := k.parts .reload rfl
  have k2 : l.loader = z.loader := k.parts .loader rfl
  have k3 : l.memory.conf = z.memory.conf := k.parts .conf rfl
  have kr : (alertSet 4 l).reload = { y.reload with st := 5, ms := n, newBase := [], newOvls := [] } := k1.trans hzr
  have kl : (alertSet 4 l).loader = y.loader := k2.trans hzl
  have kc : (alertSet 4 l).memory.conf = y.memory.conf := k3.trans hzc
  have ka : (alertSet 4 l).sup.alertDrive = true := rfl
  generalize alertSet 4 l = m at kr kl kc ka ⊢
  exact ⟨by rw [kr], by rw [kr, h1], by rw [kl, h2], by rw [kl, h3], by rw [kc, h4], by rw [kr, h1], ka⟩

theorem alertDriven_work : WorkClosed fun e => e.sup.alertDrive = true where
  keeps d e k h := by
    have ha : (e.sup.alert, e.sup.alertFsrc, e.sup.alertRings, e.sup.alertDrive) = (d.sup.alert, d.sup.alertFsrc, d.sup.alertRings, d.sup.alertDrive) := k.parts .alert rfl
    exact (congrArg (fun x => x.2.2.2) ha : e.sup.alertDrive = d.sup.alertDrive).trans h
  latch d h := by
    have ha : (latchAtStart d).sup = d.sup := rfl
    rw [ha]
    exact h
  tell _ _ _ := rfl

/-- The quadrants' part leaves what the re-arm has put in force. -/
theorem Rearmed.quadsWork {d e : Device} (was : Device) (h : Rearmed d e) : Rearmed d (quadsWork was e) := by
  have k := quadsWork_keeps was e
  exact h.kept (k.parts .reload rfl) (k.parts .loader rfl) (k.parts .conf rfl) (alertDriven_work.quadsWork was h.alert)

theorem reloadBase_congr {d e : Device} (hr : e.reload = d.reload) (hl : e.loader = d.loader) : reloadBase e = reloadBase d := by
  have hs (img : Memory) (r : Region) : reloadSlots e img r = reloadSlots d img r := by cases r <;> simp only [reloadSlots, hl]
  simp only [reloadBase, reloadRanges, reloadRegion, hs, hr, hl]

/-- A device that differs from d in neither the reload, the base, nor the active overlay. -/
theorem Rearmed.of_same {d x e : Device} (h : Rearmed x e) (hr : x.reload = d.reload) (hl : x.loader = d.loader) (hm : x.mode = d.mode) : Rearmed d e :=
  ⟨h.st, by rw [h.count, hr], by rw [h.base, reloadBase_congr hr hl], by rw [h.ovls, hr], by rw [h.conf, reloadBase_congr hr hl, hr, hm], by rw [h.reason, hr], h.alert⟩

/-- A re-arm with the part of the quadrants. -/
theorem rearm_performed {d x : Device} (hn : NoLag x) (hr : x.reload = d.reload) (hl : x.loader = d.loader) (hm : x.mode = d.mode) (hc : d.reload.recheck = false) :
    Rearmed d (quadsWork x (rearmGive x)) ∧ (quadsWork x (rearmGive x)).clk = x.clk ∧ (quadsWork x (rearmGive x)).isl.launches = x.isl.launches := by
  have kg := rearmGive_keeps x
  have kq := quadsWork_keeps x (rearmGive x)
  have hl1 : (rearmGive x).isl.launches = x.isl.launches := kg.launches_eq.1
  have hl2 : (quadsWork x (rearmGive x)).isl.launches = (rearmGive x).isl.launches := kq.launches_eq.1
  have hc1 : (rearmGive x).clk = x.clk := kg.clk_eq
  have hc2 : (quadsWork x (rearmGive x)).clk = (rearmGive x).clk := kq.clk_eq
  exact ⟨((rearmGive_rearms hn (by rw [hr]; exact hc)).quadsWork x).of_same hr hl hm, hc2.trans hc1, hl2.trans hl1⟩

theorem reloadRearm_due {d : Device} (hs : d.reload.st = 4) (hw : d.reload.written = true) :
    reloadRearm d = quadsWork (waitLoc d.reload.rearmAt d) (rearmGive (waitLoc d.reload.rearmAt d)) := if_pos ⟨hs, hw⟩

theorem reloadRearm_none {d : Device} (hw : d.reload.written = false) : reloadRearm d = d := if_neg fun h => by rw [hw] at h; exact Bool.false_ne_true h.2

/-- The device as housekeeping's time reaches the re-arm launch that it holds. -/
def rearmReached (d : Device) : Device := launchTaken 4 (pass (d.reload.rearmAt - d.clk.loc) d)

theorem rearmReached_loc (d : Device) : (rearmReached d).clk.loc = max d.clk.loc d.reload.rearmAt := by
  change d.clk.loc + (d.reload.rearmAt - d.clk.loc) = _
  omega

theorem rearmReached_noLag {d : Device} (h : NoLag d) : NoLag (rearmReached d) :=
  ⟨h.fifo, fun q => (upd_other _ _ _ _ fun he => absurd (congrArg Fin.val he) (Nat.ne_of_lt q.2)).trans (h.launches q), h.ahead⟩

theorem rearmReached_taken (d : Device) : (rearmReached d).isl.launches[(4 : Island)] = [] := upd_same ..

/-- Housekeeping alone holds the re-arm launch. -/
structure HeldRearm (d : Device) : Prop where
  runs : d.start.st = .run
  noHalt : d.halt.cur = none
  st : d.reload.st = 4
  written : d.reload.written = true
  lone : NoLag d
  held : d.isl.launches[(4 : Island)] = [⟨.config, d.reload.rearmAt⟩]
  clk : bitOf d.isl.clkRun.toNat 4 = true

namespace HeldRearm
variable {d : Device} (h : HeldRearm d)
include h

theorem configLaunch_reached : configLaunch (rearmReached d) = quadsWork (rearmReached d) (rearmGive (rearmReached d)) := by
  have hr : (rearmReached d).reload = d.reload := rfl
  have hh : (rearmReached d).halt = d.halt := rfl
  have hl := rearmReached_loc d
  generalize rearmReached d = x at *
  have hb : rearmBy x x.loc = true := by
    rw [rearmBy, hr, h.st, h.written]
    exact decide_eq_true (hl.symm ▸ Nat.le_max_right .. : d.reload.rearmAt ≤ x.clk.loc)
  have hg : configGive x = rearmGive x := by
    rw [configGive, hh, h.noHalt]
    exact if_pos hb
  rw [configLaunch, hg]

theorem launchNext_eq : launchNext d = quadsWork (rearmReached d) (rearmGive (rearmReached d)) := by
  have hn : nextLaunch d = some (d.reload.rearmAt - d.clk.loc, LaunchAct.config.order, 4) := (nextLaunch_hk h.lone.launches).trans (launchWait_some h.held h.clk)
  have ht : d.reload.rearmAt ≤ islTime (pass (d.reload.rearmAt - d.clk.loc) d) 4 := by
    change d.reload.rearmAt ≤ d.clk.loc + (d.reload.rearmAt - d.clk.loc)
    omega
  have hheld : (pass (d.reload.rearmAt - d.clk.loc) d).isl.launches[(4 : Island)] = [⟨.config, d.reload.rearmAt⟩] := h.held
  have hrun : (rearmReached d).start.st = .run := h.runs
  have he : launchNext d = launchIn 4 .config (rearmReached d) := by
    rw [launchNext, hn]
    dsimp only
    rw [launchFire, hheld]
    exact if_pos ht
  rw [he, launchIn_hk hrun]
  exact h.configLaunch_reached

theorem issued : rearmIssued d = true := by
  have ht : launchTimes .config d 4 = [d.reload.rearmAt] := by rw [launchTimes, h.held]; rfl
  rw [rearmIssued, h.st, h.written, launchesArrive_none h.lone.fifo, ht]
  simp

theorem row_eq {y : Device} (hn : launchNext d = y) (hq : ∀ q : Quad, y.isl.launches[quadIsland q] = []) (h4 : y.isl.launches[(4 : Island)] = []) : rearmRow d = y := by
  have hholds : holdsLaunch .config d.reload.rearmAt d 4 = true := by
    rw [holdsLaunch, Bool.and_eq_true]
    exact ⟨h.clk, by rw [h.held]; simp⟩
  have hyn : nextLaunch y = none := (nextLaunch_hk hq).trans (launchWait_none h4)
  have hyh : holdsLaunch .config d.reload.rearmAt y 4 = false := by
    rw [holdsLaunch, h4]
    simp
  have hlead : leadIsland .config = 4 := rfl
  rw [rearmRow, if_pos h.issued, launchesArrive_none h.lone.fifo]
  change launchesUntil (254 + 1 + 1) .config d.reload.rearmAt d = y
  rw [launchesUntil, hlead, hholds, Bool.true_or, if_pos rfl, hn, launchesUntil, hyn, hlead, hyh]
  exact if_neg (by simp)

/-- The launch is performed at its instant, and nothing is left of it (R21). -/
theorem row_performs (hc : d.reload.recheck = false) : Rearmed d (rearmRow d) ∧ (rearmRow d).clk.loc = max d.clk.loc d.reload.rearmAt ∧
    (rearmRow d).isl.launches[(4 : Island)] = [] := by
  obtain ⟨h1, h2, h3⟩ := rearm_performed (d := d) (rearmReached_noLag h.lone) rfl rfl rfl hc
  have he := h.row_eq h.launchNext_eq (fun q => by rw [h3]; exact (rearmReached_noLag h.lone).launches q) (by rw [h3]; exact rearmReached_taken d)
  rw [he, h2, h3]
  exact ⟨h1, rearmReached_loc d, rearmReached_taken d⟩

end HeldRearm

/-! ### The obligation -/

/-- Settles O49. -/
theorem regionReload : Obligations.RegionReload := by
  unfold Obligations.RegionReload
  refine ⟨?_, ?_, fun s hs => ?_, fun s hs hq => ?_, fun s hq => ?_, fun s hk hs => ?_, fun s hs hw _ => ?_, fun s hk hs hw hr hx hl ha => ?_,
    fun s hrun hc hs hw hr hx hl ha h4 hck => ?_, fun s hk hw => ?_⟩
  · rintro l r s hs rfl rfl hr
    obtain ⟨t, ht, hd⟩ := done_next reloadCheckDone s
    have k := reloadRefused_keeps (reloadJudged s.dev) s.dev
    have hconf : (reloadRefused (reloadJudged s.dev) s.dev).memory.conf = s.dev.memory.conf := k.parts .conf rfl
    have hload : (reloadRefused (reloadJudged s.dev) s.dev).loader = s.dev.loader := k.parts .loader rfl
    have hchans : (reloadRefused (reloadJudged s.dev) s.dev).chans = s.dev.chans := k.parts .chans rfl
    obtain ⟨h1, h2, h3, h4⟩ := reloadRefused_words (reloadJudged s.dev) s.dev
    refine ⟨t, ht, ?_⟩
    rw [hd, drive_reload, drive_memory, drive_loader, drive_chans, drive_sup, reloadCheckDone_refused hs hr, hconf, hload, hchans]
    exact ⟨h1, h2, h3, rfl, rfl, rfl, h4⟩
  · rintro l r s hs rfl rfl hr
    obtain ⟨t, ht, hd⟩ := done_next reloadCheckDone s
    refine ⟨t, ht, ?_⟩
    rw [hd, drive_reload, drive_memory, drive_loader, drive_chans, drive_isl, reloadCheckDone_accepted hs hr]
    exact reloadStops_accepted s.dev
  · obtain ⟨t, ht, hd⟩ := done_next reloadCheckDone s
    exact ⟨t, ht, hd.trans (congrArg drive (if_neg hs))⟩
  · obtain ⟨t, ht, hd⟩ := done_next reloadStopDone s
    refine ⟨t, ht, ?_⟩
    rw [hd, mirrorLeft_drive, drive_reload, drive_arbs, drive_memory, reloadStopDone_quiet hs hq]
    exact ⟨rfl, arbRequest_pending .., mirrorLeft_starts, rfl⟩
  · obtain ⟨t, ht, hd⟩ := done_next reloadStopDone s
    exact ⟨t, ht, hd.trans (congrArg drive (reloadStopDone_waits hq))⟩
  · obtain ⟨t, ht, hd⟩ := done_next reloadStopTimeout s
    refine ⟨t, (execReloadStopTimeout_calm s hk).trans ht, ?_⟩
    rw [hd, drive_clk, drive_chans, drive_isl, reloadStopTimeout_due hs, forces_clk, waitUp_up]
    exact ⟨rfl, fun c hc ha => reloadForces_own (mem_reloadChans hc ha) _⟩
  · obtain ⟨t, ht, hd⟩ := done_next finishReload s
    refine ⟨t, ht, ?_⟩
    rw [hd, drive_reload, drive_arbs, drive_memory, drive_loader, finishReload_due hs hw]
    exact reloadWriteDone_words hs hw (.of_keeps (portServe_keeps portAll 10 s.dev))
  · obtain ⟨t, ht, hd⟩ := done_next reloadRearm s
    obtain ⟨h1, h2, -⟩ := rearm_performed (d := s.dev) (x := waitLoc s.dev.reload.rearmAt s.dev) ⟨hx, fun q => hl _, ha⟩ rfl rfl rfl hr
    refine ⟨t, (execReloadRearmLaunch_calm s hk).trans ht, ?_⟩
    rw [hd, drive_clk, drive_reload, drive_loader, drive_memory, drive_sup, reloadRearm_due hs hw, h2, waitLoc_loc]
    exact ⟨rfl, h1.st, h1.count, h1.base, h1.ovls, h1.conf, h1.reason, h1.alert⟩
  · obtain ⟨t, ht, hd⟩ := done_next rearmRow s
    obtain ⟨h1, h2, h3⟩ := HeldRearm.row_performs ⟨hrun, hc, hs, hw, ⟨hx, hl, ha⟩, h4, hck⟩ hr
    refine ⟨t, ht, ?_⟩
    rw [hd, drive_clk, drive_reload, drive_loader, drive_memory, drive_sup, drive_isl]
    exact ⟨h2, h1.st, h3, h1.count, h1.base, h1.ovls, h1.conf, h1.reason, h1.alert⟩
  · obtain ⟨t, ht, hd⟩ := done_next reloadRearm s
    exact ⟨t, (execReloadRearmLaunch_calm s hk).trans ht, hd.trans (congrArg drive (reloadRearm_none hw))⟩

end Sys2Proof.Machine

/-! ## Corrected results, result words and what a stream result leaves (09: R334, R335, R353) -/

namespace Sys2Proof.Machine

/-! ### Correction and the result word -/

theorem satInt_mem {x lo hi : Int} (h : lo ≤ hi) : lo ≤ satInt x lo hi ∧ satInt x lo hi ≤ hi := ⟨le_max_left .., max_le h (min_le_right ..)⟩

theorem satInt_inside {x lo hi : Int} (h1 : lo ≤ x) (h2 : x ≤ hi) : satInt x lo hi = x := by rw [satInt, min_eq_left h2, max_eq_right h1]

theorem correct_raw {d : Device} {m : Pm} {raw : Int} (hc : calibrated d m = false) (h1 : -8388608 ≤ raw) (h2 : raw ≤ 8388607) : correct d m raw = (raw, false) := by
  have hs : satCode raw = raw := satInt_inside h1 h2
  rw [correct, if_neg (by rw [hc]; exact Bool.false_ne_true), hs]
  simp

theorem correct_calibrated {d : Device} {m : Pm} {raw : Int} (hc : calibrated d m = true) :
    (correct d m raw).1 = satCode (qRound (((raw : Qty) - (calOfs d m : Qty) / 256) * (calGain d m : Qty) / 2 ^ 30)) := by rw [correct, if_pos hc]

theorem correct_range (d : Device) (m : Pm) (raw : Int) : -8388608 ≤ (correct d m raw).1 ∧ (correct d m raw).1 ≤ 8388607 := satInt_mem (by decide)

theorem signedOf_encSigned {x : Int} (h1 : -8388608 ≤ x) (h2 : x ≤ 8388607) : signedOf (encSigned x 24) 24 = x := by
  rw [signedOf, encSigned, Nat.testBit_eq_decide_div_mod_eq]
  simp only [decide_eq_true_eq, Nat.add_one_sub_one, Nat.reducePow, Int.reducePow]
  split <;> omega

theorem encSigned_lt (x : Int) : encSigned x 24 < 2 ^ 24 := by
  have h := Int.emod_lt_of_pos x (show (0 : Int) < 2 ^ 24 by decide)
  have h0 := Int.emod_nonneg x (show (2 ^ 24 : Int) ≠ 0 by decide)
  rw [encSigned]
  omega

/-- Eight flags, the lowest first. -/
def flagByte (b0 b1 b2 b3 b4 b5 b6 b7 : Bool) : Nat :=
  b2n b0 + 2 * b2n b1 + 4 * b2n b2 + 8 * b2n b3 + 16 * b2n b4 + 32 * b2n b5 + 64 * b2n b6 + 128 * b2n b7

theorem flagByte_bits (b0 b1 b2 b3 b4 b5 b6 b7 : Bool) : flagByte b0 b1 b2 b3 b4 b5 b6 b7 < 256 ∧ bitOf (flagByte b0 b1 b2 b3 b4 b5 b6 b7) 0 = b0 ∧
    bitOf (flagByte b0 b1 b2 b3 b4 b5 b6 b7) 1 = b1 ∧ bitOf (flagByte b0 b1 b2 b3 b4 b5 b6 b7) 2 = b2 ∧ bitOf (flagByte b0 b1 b2 b3 b4 b5 b6 b7) 3 = b3 ∧
    bitOf (flagByte b0 b1 b2 b3 b4 b5 b6 b7) 4 = b4 ∧ bitOf (flagByte b0 b1 b2 b3 b4 b5 b6 b7) 5 = b5 ∧ bitOf (flagByte b0 b1 b2 b3 b4 b5 b6 b7) 6 = b6 ∧
    bitOf (flagByte b0 b1 b2 b3 b4 b5 b6 b7) 7 = b7 := by
  revert b0 b1 b2 b3 b4 b5 b6 b7
  decide

/-- The flags of a result word (R335). -/
def resultFlags (d : Device) (m : Pm) (input : Nat) (ovr halt tap : Bool) : Nat :=
  flagByte ovr halt (!calibrated d m) (d.mods[m]).acting.isSome (halt && bitOf (haltFlagsIn d (Pm.quad m)).toNat 0) (againstB d input) tap (covered d m)

theorem resultWord_toNat (d : Device) (m : Pm) (input : Nat) (code : Int) (ovr halt tap : Bool) :
    (resultWord d m input code ovr halt tap).toNat = 2 ^ 24 * resultFlags d m input ovr halt tap + encSigned code 24 := by
  have hf : resultFlags d m input ovr halt tap < 256 := (flagByte_bits ..).1
  have hc := encSigned_lt code
  have he : encSigned code 24 + 2 ^ 24 * b2n ovr + 2 ^ 25 * b2n halt + 2 ^ 26 * b2n (!calibrated d m) + 2 ^ 27 * b2n (d.mods[m]).acting.isSome +
      2 ^ 28 * b2n (halt && bitOf (haltFlagsIn d (Pm.quad m)).toNat 0) + 2 ^ 29 * b2n (againstB d input) + 2 ^ 30 * b2n tap + 2 ^ 31 * b2n (covered d m) =
      2 ^ 24 * resultFlags d m input ovr halt tap + encSigned code 24 := by
    unfold resultFlags flagByte
    ring
  rw [resultWord, he, BitVec.toNat_ofNat, Nat.mod_eq_of_lt (by omega)]

theorem resultWord_bit {d : Device} {m : Pm} {input : Nat} {code : Int} {ovr halt tap : Bool} (k : Nat) :
    bitOf (resultWord d m input code ovr halt tap).toNat (24 + k) = bitOf (resultFlags d m input ovr halt tap) k := by
  rw [resultWord_toNat, bitOf, Nat.testBit_two_pow_mul_add _ (encSigned_lt code), if_neg (by omega), Nat.add_sub_cancel_left, bitOf]

theorem resultWord_code {d : Device} {m : Pm} {input : Nat} {code : Int} {ovr halt tap : Bool} (h1 : -8388608 ≤ code) (h2 : code ≤ 8388607) :
    signedOf (bitsOf (resultWord d m input code ovr halt tap).toNat 0 24) 24 = code := by
  have hc := encSigned_lt code
  rw [resultWord_toNat, bitsOf, Nat.shiftRight_zero, Nat.mul_add_mod, Nat.mod_eq_of_lt hc, signedOf_encSigned h1 h2]

theorem resultWord_bits (d : Device) (m : Pm) (input : Nat) (code : Int) (ovr halt tap : Bool) :
    bitOf (resultWord d m input code ovr halt tap).toNat 24 = ovr ∧ bitOf (resultWord d m input code ovr halt tap).toNat 25 = halt ∧
    bitOf (resultWord d m input code ovr halt tap).toNat 26 = !calibrated d m ∧ bitOf (resultWord d m input code ovr halt tap).toNat 27 = (d.mods[m]).acting.isSome ∧
    bitOf (resultWord d m input code ovr halt tap).toNat 28 = (halt && bitOf (haltFlagsIn d (Pm.quad m)).toNat 0) ∧
    bitOf (resultWord d m input code ovr halt tap).toNat 29 = againstB d input ∧ bitOf (resultWord d m input code ovr halt tap).toNat 30 = tap ∧
    bitOf (resultWord d m input code ovr halt tap).toNat 31 = covered d m := by
  obtain ⟨-, h0, h1, h2, h3, h4, h5, h6, h7⟩ := flagByte_bits ovr halt (!calibrated d m) (d.mods[m]).acting.isSome
    (halt && bitOf (haltFlagsIn d (Pm.quad m)).toNat 0) (againstB d input) tap (covered d m)
  exact ⟨(resultWord_bit 0).trans h0, (resultWord_bit 1).trans h1, (resultWord_bit 2).trans h2, (resultWord_bit 3).trans h3, (resultWord_bit 4).trans h4,
    (resultWord_bit 5).trans h5, (resultWord_bit 6).trans h6, (resultWord_bit 7).trans h7⟩

theorem againstB_inputs (d : Device) : againstB d 1 = false ∧ againstB d 2 = true ∧ ∀ input, input ≠ 1 → input ≠ 2 → againstB d input = d.hk.refOnB :=
  ⟨rfl, rfl, fun _ h1 h2 => (if_neg h1).trans (if_neg h2)⟩

/-! ### What a loop step writes of a channel beside its state -/

/-- A channel without the words that its loop, its fold and its samples write. -/
def sansLoop (s : ChanSt) : ChanSt :=
  { s with
    tgt := none, halve := false, nMem := 0, iramp := 0, ssTime := 0, istop := 0, iceil := 0, xv := 0, xi := 0, icmd := 0, ibase := 0, iraw := 0, iadd := 0, imeas := 0
    limitBy := 0, ipk := 0, cut := 0, cutOpen := false, cutMax := 0, cutZeroAt := none, cappedHit := false, termHit := false, foldCap := 0, fold := false
    m := 0, due := 0, mShadow := 0, hist := [], histAt := none, gate := false, chBelow := false, holders := [] }

/-- No channel changes but in these words, and one that nothing holds stays so. -/
structure LoopOnly (d e : Device) : Prop where
  words : ∀ k : Chan, sansLoop e.chans[k] = sansLoop d.chans[k]
  free : ∀ k : Chan, (d.chans[k]).holders = [] → (e.chans[k]).holders = []

namespace LoopOnly
variable {d e g : Device}

theorem of_eq (h : e.chans = d.chans) : LoopOnly d e := ⟨fun _ => by rw [h], fun _ hf => by rw [h, hf]⟩

theorem of_keeps {S : List Part} (k : Keeps S d e) (h : S.contains .chans = false := by rfl) : LoopOnly d e := .of_eq (k.parts .chans h)

theorem trans (h : LoopOnly d e) (k : LoopOnly e g) : LoopOnly d g := ⟨fun c => (k.words c).trans (h.words c), fun c hf => k.free c (h.free c hf)⟩

theorem updChan (c : Chan) (f : ChanSt → ChanSt) (hw : ∀ s, sansLoop (f s) = sansLoop s := by intro; rfl) (hf : ∀ s, s.holders = [] → (f s).holders = [] := by intro _ h; exact h)
    (d : Device) : LoopOnly d (d.updChan c f) := ⟨upd_field d.chans c f sansLoop hw, fun k hk => by
  rw [updChan_chans]
  by_cases hc : k = c
  · subst hc
    rw [upd_same]
    exact hf _ hk
  · rw [upd_other _ _ _ _ hc]
    exact hk⟩

theorem ite {p : Prop} [Decidable p] (h : LoopOnly d e) (k : LoopOnly d g) : LoopOnly d (if p then e else g) := if_cases h k

theorem forEach {α : Type} {f : α → Device → Device} (hf : ∀ a d, LoopOnly d (f a d)) (l : List α) (d : Device) : LoopOnly d (Machine.forEach l f d) :=
  forEach_induct (LoopOnly d) l f (fun a _ he => he.trans (hf a _)) d (.of_eq rfl)

theorem field {α : Type} (h : LoopOnly d e) (g : ChanSt → α) (k : Chan) (hg : ∀ s, g (sansLoop s) = g s := by intro; rfl) : g e.chans[k] = g d.chans[k] := by
  rw [← hg, h.words, hg]

end LoopOnly

theorem regate_loop (c : Chan) (d : Device) : LoopOnly d (regate c d) := by
  obtain ⟨b, hb⟩ := regate_chan c d
  refine ⟨fun k => ?_, fun k hf => ?_⟩ <;> by_cases hk : k = c
  · subst hk
    rw [hb]
    rfl
  · rw [(regate_otherChans c d).chan k hk]
  · subst hk
    rw [hb]
    exact hf
  · rw [(regate_otherChans c d).chan k hk, hf]

theorem writeReload_loop (c : Chan) (n : Nat) (d : Device) : LoopOnly d (writeReload c n d) := by
  unfold writeReload
  dsimp only
  refine LoopOnly.trans ?_ (.forEach (fun n e => ?_) _ _)
  case refine_2 => exact .of_eq rfl
  refine .updChan c _ (fun s => ?_) (fun s hs => ?_) d
  · exact if_cases (p := fun x : ChanSt => sansLoop x = sansLoop s) rfl rfl
  · exact if_cases (p := fun x : ChanSt => x.holders = []) hs hs

theorem foldUpdate_loop (was : Bool) (c : Chan) (d : Device) : LoopOnly d (foldUpdate was c d) := by
  unfold foldUpdate
  dsimp only
  have h (a : Qty) (b : Bool) : LoopOnly d (d.updChan c fun s => { s with foldCap := a, fold := b }) := .updChan c _ (by intro; rfl) (by intro _ h; exact h) d
  exact .ite (h ..) ((h ..).trans (writeReload_loop ..))

theorem chanSample_loop (c : Chan) (d : Device) : LoopOnly d (chanSample c d) := by
  unfold chanSample
  exact .trans (.updChan c _ (by intro; rfl) (by intro _ h; exact h) d) (.of_keeps (quadSample_keeps ..))

theorem rampStep_loop (c : Chan) (d : Device) : LoopOnly d (rampStep c d) := by
  unfold rampStep
  exact .ite (.updChan c _ (by intro; rfl) (by intro _ h; exact h) d) (.ite (.updChan c _ (by intro; rfl) (by intro _ h; exact h) d) (.of_eq rfl))

theorem releaseHold_loop (f : Nat) (d : Device) : LoopOnly d (releaseHold f d) := by
  have h1 (x : Device) (hx : LoopOnly d x) : LoopOnly d (forEach allChans (releaseChan f) x) :=
    hx.trans (.forEach (fun c e => .updChan c _ (by intro; rfl) (fun s hs => by simp only [unheld, hs, List.filter_nil]) e) _ _)
  have hs (x : Device) : LoopOnly x (forEach allSlots (fun n d => d.updSlot n fun s => { s with holders := unheld f s.holders }) x) := by
    refine .forEach (fun n e => ?_) allSlots x
    exact .of_eq rfl
  have hp (x : Device) : LoopOnly x (forEach allChans (releasePath f) x) := .forEach (fun c e => .of_keeps (releasePath_keeps f c e)) _ _
  have hr (x : Device) : LoopOnly x (forEach allSrcs (releaseSrc f) x) := .forEach (fun k e => .of_keeps (releaseSrc_keeps f k e)) _ _
  have h3 (x : Device) (hx : LoopOnly d x) (g : Collector → Collector) : LoopOnly d (if f ∈ x.col.devHolders then x.updCol g else x) := .ite (hx.trans (.of_eq rfl)) hx
  unfold releaseHold
  dsimp only
  refine h3 _ ((((h1 _ ?_).trans (hp _)).trans (hr _)).trans (hs _)) _
  exact .of_eq rfl

theorem untrip_loop (c : Chan) (d : Device) : LoopOnly d (untrip c d) := by
  have h (f : Nat) (x : Device) (hx : LoopOnly d x) : LoopOnly d (releaseHold f (grantRecord f x)) := hx.trans (.trans (.of_keeps (grantRecord_keeps ..)) (releaseHold_loop ..))
  have h0 (g1 g2 : PathSt → PathSt) : LoopOnly d ((d.updPath c g1).updPath c g2) := .of_eq rfl
  have h1 (g1 g2 g3 : PathSt → PathSt) : LoopOnly d (((d.updPath c g1).updPath c g2).updPath c g3) := .of_eq rfl
  unfold untrip
  dsimp only
  refine .ite (.ite (h _ _ ?_) (.ite (h _ _ ?_) ?_)) (.of_eq rfl)
  · exact h1 ..
  · exact h0 ..
  · exact h0 ..

theorem cutStep_loop (c : Chan) (o : LoopOut) (d : Device) : LoopOnly d (cutStep c o d) := by
  have hq (q : Quad) (k x y z : Nat) (e : Device) (he : LoopOnly d e) : LoopOnly d (quadEvent q k x y z e) := he.trans (.of_keeps (quadEvent_keeps ..))
  have h (x : Device) (hx : LoopOnly d x) (b : Prop) [Decidable b] (a : Nat) : LoopOnly d (if b then quadEvent (Chan.quad c) 0x0401 a (members x c).length 0 x else x) :=
    .ite (hq _ _ _ _ _ _ hx) hx
  unfold cutStep
  dsimp only
  refine h _ ?_ _ _
  exact .updChan c _ (by intro; rfl) (by intro _ h; exact h) d

/-! ### The measured values of the channels -/

/-- The measured voltage and current of every channel are as before. -/
structure SameMeas (d e : Device) : Prop where
  v : ∀ k : Chan, (e.chans[k]).v = (d.chans[k]).v
  i : ∀ k : Chan, (e.chans[k]).i = (d.chans[k]).i

namespace SameMeas
variable {d e g : Device}

theorem of_eq (h : e.chans = d.chans) : SameMeas d e := ⟨fun _ => by rw [h], fun _ => by rw [h]⟩

theorem of_keeps {S : List Part} (k : Keeps S d e) (h : S.contains .chans = false := by rfl) : SameMeas d e := .of_eq (k.parts .chans h)

theorem trans (h : SameMeas d e) (k : SameMeas e g) : SameMeas d g := ⟨fun c => (k.v c).trans (h.v c), fun c => (k.i c).trans (h.i c)⟩

theorem updChan (c : Chan) (f : ChanSt → ChanSt) (hv : ∀ s, (f s).v = s.v := by intro; rfl) (hi : ∀ s, (f s).i = s.i := by intro; rfl) (d : Device) :
    SameMeas d (d.updChan c f) := ⟨upd_field d.chans c f ChanSt.v hv, upd_field d.chans c f ChanSt.i hi⟩

theorem ite {p : Prop} [Decidable p] (h : SameMeas d e) (k : SameMeas d g) : SameMeas d (if p then e else g) := if_cases h k

theorem forEach {α : Type} {f : α → Device → Device} (hf : ∀ a d, SameMeas d (f a d)) (l : List α) (d : Device) : SameMeas d (Machine.forEach l f d) :=
  forEach_induct (SameMeas d) l f (fun a _ he => he.trans (hf a _)) d (.of_eq rfl)

end SameMeas

theorem SameMeas.of_loop {d e : Device} (h : LoopOnly d e) : SameMeas d e := ⟨fun k => h.field ChanSt.v k, fun k => h.field ChanSt.i k⟩

theorem sansHold_meas {s t : ChanSt} (h : sansHold s = sansHold t) : s.v = t.v ∧ s.i = t.i :=
  ⟨(congrArg ChanSt.v h : (sansHold s).v = (sansHold t).v), (congrArg ChanSt.i h : (sansHold s).i = (sansHold t).i)⟩

theorem sameMeas_closed (d : Device) : RaiseClosed (SameMeas d) :=
  ⟨fun _ _ k h => h.trans (.of_keeps k), fun _ h => h.trans (.of_eq rfl),
    fun c f _ hf h => h.trans (.updChan c f (fun s => (sansHold_meas (hf s)).1) (fun s => (sansHold_meas (hf s)).2) _), fun _ _ _ _ h => h.trans (.of_eq rfl),
    fun _ _ _ _ _ h => h.trans (.of_eq rfl)⟩

theorem raise_meas (f : Nat) (d : Device) : SameMeas d (raise f d) := (sameMeas_closed d).raise f (.of_eq rfl)
theorem regate_meas (c : Chan) (d : Device) : SameMeas d (regate c d) := (sameMeas_closed d).regate c (.of_eq rfl)
theorem enterCh_meas (c : Chan) (st : ChState) (d : Device) : SameMeas d (enterCh c st d) := (sameMeas_closed d).enterCh c st (.of_eq rfl)

theorem halveQuad_meas (q : Quad) (d : Device) : SameMeas d (halveQuad q d) := by
  have h (e : Device) (he : SameMeas d e) : SameMeas d (forEach (quadChans q) regate e) := he.trans (.forEach regate_meas _ _)
  refine h _ ⟨fun k => ?_, fun k => ?_⟩
  · rw [updQuad_chans, mapAll_get]
    exact if_cases (p := fun s : ChanSt => s.v = (d.chans[k]).v) rfl rfl
  · rw [updQuad_chans, mapAll_get]
    exact if_cases (p := fun s : ChanSt => s.i = (d.chans[k]).i) rfl rfl

theorem busEval_meas (d : Device) : SameMeas d (busEval d) := by
  have h : BusClosed (SameMeas d) := ⟨fun _ _ k h => h.trans (.of_keeps k), fun g _ _ h => h.trans (raise_meas g _), fun q _ h => h.trans (halveQuad_meas q _)⟩
  exact h.busEval (.of_eq rfl)

/-! ### A string voltage leaves the measured values (R190, R192, R214, R299) -/

theorem foldUpdate_meas (was : Bool) (c : Chan) (d : Device) : SameMeas d (foldUpdate was c d) := .of_loop (foldUpdate_loop ..)

theorem headroomUpdate_meas (c : Chan) (d : Device) : SameMeas d (headroomUpdate c d) := by
  unfold headroomUpdate
  exact .trans (.updChan c _ (by intro; rfl) (by intro; rfl) d) (regate_meas ..)

theorem pauseProf_meas (c : Chan) (d : Device) : SameMeas d (pauseProf c d) := (sameMeas_closed d).pauseProf c (.of_eq rfl)

theorem declareAbsent_meas (c : Chan) (ovw : Bool) (d : Device) : SameMeas d (declareAbsent c ovw d) := by
  unfold declareAbsent
  have h0 (f : PathSt → PathSt) : SameMeas d ((pathZero c .absent d).updPath c f) := .of_eq rfl
  have h1 (e : Device) (he : SameMeas d e) : SameMeas d (if (e.chans[c]).st = .held ∨ (e.chans[c]).st = .unarmed then e else pauseProf c (enterCh c .absent
      (e.updChan c fun s => { s with icmd := 0, ibase := 0, iadd := 0, iramp := 0, istop := 0, xi := 0, xv := 0, stopCause := 5 }))) :=
    .ite he (he.trans (.trans (.trans (.updChan c _ (by intro; rfl) (by intro; rfl) e) (enterCh_meas ..)) (pauseProf_meas ..)))
  have h2 (b : Prop) [Decidable b] (e : Device) (he : SameMeas d e) : SameMeas d (if b then e else raise (0x440 + c.1) e) := .ite he (he.trans (raise_meas ..))
  have h3 (e : Device) (he : SameMeas d e) : SameMeas d (if ovw then raise (0x460 + c.1) e else e) := .ite (he.trans (raise_meas ..)) he
  exact h3 _ (h2 _ _ (h1 _ (h0 _)))

theorem collapseJudge_meas (c : Chan) (d : Device) : SameMeas d (collapseJudge c d) :=
  .ite (.of_eq rfl) (.ite (declareAbsent_meas ..) (.ite (declareAbsent_meas ..) (.of_eq rfl)))

theorem pathOnVolt_meas (c : Chan) (d : Device) : SameMeas d (pathOnVolt c d) := by
  have h1 : SameMeas d (reverseAct c (belowTrack c (presence c (stuckTrack c (collapseJudge c d))))) :=
    .trans (collapseJudge_meas c d) (.of_keeps (S := [.paths]) (.trans (.trans (.trans (stuckTrack_keeps ..) (presence_keeps ..)) (belowTrack_keeps ..)) (reverseAct_keeps ..)))
  have h2 : SameMeas d (belowTrack c (stuckTrack c d)) := .of_keeps (S := [.paths]) (.trans (stuckTrack_keeps ..) (belowTrack_keeps ..))
  unfold pathOnVolt
  dsimp only
  refine .ite (.of_eq rfl) (.ite h2 (h1.trans ?_))
  split
  · exact .of_keeps (tryConduct_keeps ..)
  · exact .ite (.of_eq rfl) (.of_keeps (pathRegulate_keeps ..))
  · exact .ite (.of_keeps (startFull_keeps ..)) (.of_keeps (pathRegulate_keeps ..))
  · exact .of_eq rfl

/-- A string voltage stands when what it feeds has taken it. -/
theorem onVstr_meas (c : Chan) (v : Qty) (d : Device) : ((onVstr c v d).chans[c]).v = v := by
  unfold onVstr
  dsimp only
  generalize hx : d.updChan c (fun s => { s with v := v, vSeen := true, ssOver := s.ssOver || decide ((d.chans[c]).st = .start ∧ vTgt d c / 10 < v) }) = x
  have hv : (x.chans[c]).v = v := by rw [← hx, updChan_chans, upd_same]
  have h : SameMeas x (busEval (pathOnVolt c (restVolt c v (headroomUpdate c (foldUpdate (foldIn d c) c x))))) :=
    .trans (.trans (.trans (.trans (foldUpdate_meas ..) (headroomUpdate_meas ..)) (.of_keeps (restVolt_keeps ..))) (pathOnVolt_meas ..)) (busEval_meas _)
  rw [h.v, hv]

/-! ### A loop step in its parts (R216, R217) -/

/-- Targets, holds and ramps, before the loop is computed. -/
def loopPrepared (c : Chan) (d : Device) : Device :=
  rampStep c (untrip c (collapseOver c (d.updChan c fun s =>
    { s with tgt := some (vTgtNow d c), halve := (d.quads[Chan.quad c]).halved, nMem := (members d c).length })))

/-- What the loop computes. -/
def loopOut (c : Chan) (d : Device) : LoopOut :=
  loopCalc d c (if (d.chans[c]).st = .start then some (d.chans[c]).iramp else none) (if (d.chans[c]).st = .stop then some (d.chans[c]).istop else none)

/-- The channel takes what the loop has computed. -/
def loopTaken (c : Chan) (o : LoopOut) (b : BitVec 3) (d : Device) : Device :=
  let e := d.updChan c fun s => { s with
    iceil := o.iceil, xv := o.xv, xi := o.xi, icmd := o.icmd, ibase := o.ibase, iraw := o.iraw, iadd := o.iadd, imeas := s.i, limitBy := b }
  e.updChan c fun s => { s with ipk := loopPk e c }

/-- The gate follows, and the members' marks are handed on. -/
def loopClosed (c : Chan) (d : Device) : Device :=
  forEach (members d c) capShift (regate c (d.updChan c fun s => { s with cappedHit := false, termHit := false }))

/-- The step up to the moves of the state. -/
def loopBefore (c : Chan) (d : Device) : Device :=
  cutStep c (loopOut c (loopPrepared c d)) (loopTaken c (loopOut c (loopPrepared c d)) (limitBy (loopPrepared c d) c (loopOut c (loopPrepared c d))
    (if ((loopPrepared c d).chans[c]).st = .start then some ((loopPrepared c d).chans[c]).iramp else none)
    (if ((loopPrepared c d).chans[c]).st = .stop then some ((loopPrepared c d).chans[c]).istop else none)) (loopPrepared c d))

/-- The step with its moves. -/
def loopMoved (c : Chan) (d : Device) : Device := loopClosed c (loopMoves c (loopOut c (loopPrepared c d)) (loopBefore c d))

theorem loopStep_eq {c : Chan} {d : Device} (h : (d.chans[c]).vSeen = true) : loopStep c d =
    if ssRuns (loopMoved c d) c ∧ ssTmo (loopMoved c d) c ≤ ((loopMoved c d).chans[c]).ssTime then softStartExpire c (loopMoved c d) else loopMoved c d :=
  if_neg (by rw [h]; exact Bool.noConfusion)

theorem loopPrepared_loop (c : Chan) (d : Device) : LoopOnly d (loopPrepared c d) := by
  have h1 (a : Option Qty) (b : Bool) (n : Nat) : LoopOnly d (d.updChan c fun s => { s with tgt := a, halve := b, nMem := n }) := .updChan c _ (by intro; rfl) (by intro _ h; exact h) d
  have h2 (x : Device) (hx : LoopOnly d x) : LoopOnly d (rampStep c (untrip c (collapseOver c x))) :=
    ((hx.trans (.of_keeps (collapseOver_keeps ..))).trans (untrip_loop ..)).trans (rampStep_loop ..)
  exact h2 _ (h1 ..)

theorem loopTaken_loop (c : Chan) (o : LoopOut) (b : BitVec 3) (d : Device) : LoopOnly d (loopTaken c o b d) := by
  have h (q : Qty) (x : Device) (hx : LoopOnly d x) : LoopOnly d (x.updChan c fun s => { s with ipk := q }) := hx.trans (.updChan c _ (by intro; rfl) (by intro _ h; exact h) x)
  unfold loopTaken
  exact h _ _ (.updChan c _ (by intro; rfl) (by intro _ h; exact h) d)

theorem loopBefore_loop (c : Chan) (d : Device) : LoopOnly d (loopBefore c d) := ((loopPrepared_loop c d).trans (loopTaken_loop ..)).trans (cutStep_loop ..)

theorem loopClosed_loop (c : Chan) (d : Device) : LoopOnly d (loopClosed c d) := by
  have h1 (l : List Slot) (x : Device) : LoopOnly x (forEach l capShift x) := .forEach (fun n e => .of_keeps (capShift_keeps n e)) _ _
  have h2 : LoopOnly d (d.updChan c fun s => { s with cappedHit := false, termHit := false }) := .updChan c _ (by intro; rfl) (by intro _ h; exact h) d
  exact (h2.trans (regate_loop ..)).trans (h1 ..)

/-! ### A string current leaves the measured values (R216, R267, R299) -/

theorem restartReq_meas (c : Chan) (d : Device) : SameMeas d (restartReq c d) := by
  have h (x : Device) (hx : x.chans = d.chans) : SameMeas d (x.updChan c fun s => { s with restart := true, enablePending := if s.st = .stop then true else s.enablePending }) :=
    (SameMeas.of_eq hx).trans (.updChan c _ (by intro; rfl) (by intro; rfl) x)
  exact h _ ((toAssess_keeps ..).parts .chans rfl)

theorem enterStart_meas (c : Chan) (d : Device) : SameMeas d (enterStart c d) := by
  unfold enterStart
  exact .trans (.updChan c _ (by intro; rfl) (by intro; rfl) d) (enterCh_meas ..)

theorem enterStop_meas (c : Chan) (cause : BitVec 3) (d : Device) : SameMeas d (enterStop c cause d) := by
  have h (x : Device) (hx : SameMeas d x) : SameMeas d (enterCh c .stop (x.updChan c fun s => { s with istop := s.icmd, stopCause := cause, zeroReq := 0, reloadReq := false })) :=
    (hx.trans (.updChan c _ (by intro; rfl) (by intro; rfl) x)).trans (enterCh_meas ..)
  exact h _ (.ite (pauseProf_meas c d) (.of_eq rfl))

theorem stopEnds_meas (c : Chan) (d : Device) : SameMeas d (stopEnds c d) := by
  unfold stopEnds
  exact .trans (.updChan c _ (by intro; rfl) (by intro; rfl) d) (enterCh_meas ..)

theorem loopMoves_meas (c : Chan) (o : LoopOut) (d : Device) : SameMeas d (loopMoves c o d) := by
  have hz (n : Nat) : SameMeas d (d.updChan c fun s => { s with zeroReq := n }) := .updChan c _ (by intro; rfl) (by intro; rfl) d
  have hr : SameMeas d (restartReq c (enterCh c .off d)) := (enterCh_meas ..).trans (restartReq_meas ..)
  unfold loopMoves
  dsimp only
  split
  · exact .ite (.ite (.of_eq rfl) (.updChan c _ (by intro; rfl) (by intro; rfl) d)) (.ite (enterStart_meas ..) (.of_eq rfl))
  · refine .ite (enterStop_meas ..) (.ite (enterStop_meas ..) (.ite (enterStop_meas ..) (.ite ((hz _).trans (enterCh_meas ..)) (hz _))))
  · exact .ite (enterStop_meas ..) (.ite (enterStop_meas ..) (.ite (enterStop_meas ..) (hz _)))
  · exact .ite (stopEnds_meas ..) (.of_eq rfl)
  · exact .ite (.ite (enterCh_meas ..) hr) (.of_eq rfl)
  · exact .ite hr (.of_eq rfl)
  · exact .of_eq rfl

theorem softStartExpire_meas (c : Chan) (d : Device) : SameMeas d (softStartExpire c d) := by
  have h (x : Device) (hx : SameMeas d x) (b : Bool) : SameMeas d (if b then x else raise (0x300 + c.1) x) := .ite hx (hx.trans (raise_meas ..))
  exact h _ (.updChan c _ (by intro; rfl) (by intro; rfl) d) _

theorem loopStep_meas (c : Chan) (d : Device) : SameMeas d (loopStep c d) := by
  cases h : (d.chans[c]).vSeen with
  | false => exact .of_eq (congrArg Device.chans (if_pos h))
  | true =>
    rw [loopStep_eq h]
    have hm : SameMeas d (loopMoved c d) := ((SameMeas.of_loop (loopBefore_loop c d)).trans (loopMoves_meas ..)).trans (.of_loop (loopClosed_loop ..))
    exact .ite (hm.trans (softStartExpire_meas ..)) hm

theorem reconcile_meas (c : Chan) (qi qo : Nat) (d : Device) : SameMeas d (reconcile c qi qo d) := by
  have h (w1 w2 : Nat) (f : ProfSt → ProfSt) : SameMeas d (raise (0x360 + c.1) (logEvent Config.reconCode.toNat c.1 w1 w2 (d.updProf c f))) :=
    ((SameMeas.of_eq rfl : SameMeas d (d.updProf c f)).trans (.of_keeps (logEvent_keeps ..))).trans (raise_meas ..)
  exact .ite (.of_eq rfl) (h ..)

theorem chargeArrives_meas (c : Chan) (qi qo : Nat) (fill : Option (Nat × Nat)) (d : Device) : SameMeas d (chargeArrives c qi qo fill d) := by
  have h (a : Nat) (bs : List Byte) (f : ProfSt → ProfSt) : SameMeas d (memWrite a bs (d.updProf c f)) :=
    (SameMeas.of_eq rfl : SameMeas d (d.updProf c f)).trans (.of_keeps (memWrite_keeps ..))
  unfold chargeArrives
  cases fill with
  | none => exact h ..
  | some t => exact (h ..).trans (reconcile_meas ..)

theorem toHouse_meas {q : Quad} {m : Msg} {f : Device → Device} {d : Device} (hf : SameMeas d (f d)) : SameMeas d (toHouse q m f d) := .ite (.of_eq rfl) hf

theorem chargeAdd_meas (fill : Bool) (c : Chan) (i : Qty) (n : Nat) (d : Device) : SameMeas d (chargeAdd fill c i n d) := by
  have h (x : Device) (hx : SameMeas d x) (qi qo : Nat) (t : Option (Nat × Nat)) (m : Msg) : SameMeas d (toHouse (Chan.quad c) m (chargeArrives c qi qo t) x) :=
    hx.trans (toHouse_meas (chargeArrives_meas ..))
  unfold chargeAdd
  dsimp only
  refine h _ ?_ _ _ _ _
  exact .of_eq rfl

theorem charge_meas (c : Chan) (d : Device) : SameMeas d (charge c d) := by
  have h (x : Device) (hx : SameMeas d x) (f : ProfSt → ProfSt) (i : Qty) : SameMeas d ((chargeAdd false c i stepSub x).updProf c f) :=
    (hx.trans (chargeAdd_meas ..)).trans (.of_eq rfl)
  have hg (m : Qty) (g : Nat) (f : ProfSt → ProfSt) : SameMeas d ((chargeAdd true c m g d).updProf c f) := (chargeAdd_meas ..).trans (.of_eq rfl)
  unfold charge
  dsimp only
  exact .ite (.of_eq rfl) (h _ (.ite (.of_eq rfl) (.ite (chargeAdd_meas ..) (hg ..))) _ _)

theorem conduction_meas (c : Chan) (d : Device) : SameMeas d (conduction c d) := .of_keeps (conduction_keeps c d)

theorem pathTrip_meas (c : Chan) (a b : Bool) (d : Device) : SameMeas d (pathTrip c a b d) := .of_keeps (pathTrip_keeps c a b d)

theorem breaker_meas (c : Chan) (d : Device) : SameMeas d (breaker c d) := by
  have ht (x : Device) (hx : SameMeas d x) : SameMeas d (trip c false x) := hx.trans (.ite ((pathTrip_meas ..).trans (raise_meas ..)) (.of_eq rfl))
  have h (x : Device) (hx : SameMeas d x) (b : Prop) [Decidable b] : SameMeas d (if b then trip c false x else x) := .ite (ht x hx) hx
  unfold breaker
  dsimp only
  refine .ite (.of_eq rfl) (h _ ?_ _)
  exact .of_eq rfl

theorem pathOnCur_meas (c : Chan) (d : Device) : SameMeas d (pathOnCur c d) := by
  have h1 : SameMeas d (stuckTrack c (breaker c d)) := (breaker_meas c d).trans (.of_keeps (stuckTrack_keeps ..))
  exact .ite (.of_eq rfl) (.ite h1 (h1.trans (.of_keeps (reverseAct_keeps ..))))

/-- The current that a channel's consumers take, with what its loop makes of it. -/
def istrLooped (c : Chan) (i : Qty) (d : Device) : Device :=
  loopStep c (profStep c (restCur c i (charge c ((d.updChan c fun s => { s with i := i }).updPath c fun p => { p with blind := false }))))

/-- After the loop step the fold and the losses follow. -/
def istrFolded (c : Chan) (d : Device) : Device :=
  pathLoss c (conduction c (if (d.chans[c]).vSeen then foldUpdate (foldIn d c) c d else d))

theorem onIstr_eq (c : Chan) (i : Qty) (d : Device) : onIstr c i false d = chanSample c (busEval (pathOnCur c (istrFolded c (istrLooped c i d)))) := rfl

theorem istrFolded_loop (c : Chan) (d : Device) : LoopOnly d (istrFolded c d) :=
  (LoopOnly.ite (foldUpdate_loop ..) (.of_eq rfl)).trans (.trans (.of_keeps (conduction_keeps ..)) (.of_keeps (pathLoss_keeps ..)))

/-- A string current stands when what it feeds has taken it. -/
theorem onIstr_meas (c : Chan) (i : Qty) (d : Device) : ((onIstr c i false d).chans[c]).i = i := by
  obtain ⟨x, hx⟩ : ∃ x, (d.updChan c fun s => { s with i := i }).updPath c (fun p => { p with blind := false }) = x := ⟨_, rfl⟩
  have hi : (x.chans[c]).i = i := by rw [← hx, updPath_chans, updChan_chans, upd_same]
  have h1 : SameMeas x (istrLooped c i d) := by
    rw [istrLooped, hx]
    exact (((charge_meas c x).trans (.of_keeps (restCur_keeps ..))).trans (.of_keeps (profStep_keeps ..))).trans (loopStep_meas ..)
  rw [onIstr_eq]
  have h : SameMeas x (chanSample c (busEval (pathOnCur c (istrFolded c (istrLooped c i d))))) :=
    (((h1.trans (.of_loop (istrFolded_loop ..))).trans (pathOnCur_meas ..)).trans (busEval_meas _)).trans (.of_loop (chanSample_loop ..))
  rw [h.i, hi]

/-! ### The measured values of the sources (R290, R291) -/

/-- The measured voltage and current of every source are as before. -/
structure SameSrcs (d e : Device) : Prop where
  v : ∀ k : Src, (e.srcs[k]).v = (d.srcs[k]).v
  i : ∀ k : Src, (e.srcs[k]).i = (d.srcs[k]).i

namespace SameSrcs
variable {d e g : Device}

theorem of_eq (h : e.srcs = d.srcs) : SameSrcs d e := ⟨fun _ => by rw [h], fun _ => by rw [h]⟩

theorem of_keeps {S : List Part} (k : Keeps S d e) (h : S.contains .srcs = false := by rfl) : SameSrcs d e := .of_eq (k.parts .srcs h)

theorem trans (h : SameSrcs d e) (k : SameSrcs e g) : SameSrcs d g := ⟨fun c => (k.v c).trans (h.v c), fun c => (k.i c).trans (h.i c)⟩

theorem updSrc (c : Src) (f : SrcSt → SrcSt) (hv : ∀ s, (f s).v = s.v := by intro; rfl) (hi : ∀ s, (f s).i = s.i := by intro; rfl) (d : Device) :
    SameSrcs d (d.updSrc c f) := ⟨upd_field d.srcs c f SrcSt.v hv, upd_field d.srcs c f SrcSt.i hi⟩

theorem ite {p : Prop} [Decidable p] (h : SameSrcs d e) (k : SameSrcs d g) : SameSrcs d (if p then e else g) := if_cases h k

theorem forEach {α : Type} {f : α → Device → Device} (hf : ∀ a d, SameSrcs d (f a d)) (l : List α) (d : Device) : SameSrcs d (Machine.forEach l f d) :=
  forEach_induct (SameSrcs d) l f (fun a _ he => he.trans (hf a _)) d (.of_eq rfl)

end SameSrcs

theorem halveEval_sameSrcs (d : Device) : SameSrcs d (halveEval d) := ⟨fun k => halveEval_field k d SrcSt.v, fun k => halveEval_field k d SrcSt.i⟩

theorem srcToRamp_sameSrcs (k : Src) (d : Device) : SameSrcs d (srcToRamp k d) :=
  .ite (.updSrc k _ (by intro; rfl) (by intro; rfl) d) (.trans (.updSrc k _ (by intro; rfl) (by intro; rfl) d) (halveEval_sameSrcs _))

theorem srcHoDone_sameSrcs (k : Src) (d : Device) : SameSrcs d (srcHoDone k d) := by
  unfold srcHoDone
  split
  · exact srcToRamp_sameSrcs k d
  · exact .updSrc k _ (by intro; rfl) (by intro; rfl) d
  · exact .of_eq rfl

theorem handover_sameSrcs (d : Device) : SameSrcs d (handover d) := by
  have h (x : Device) (hx : x.srcs = d.srcs) : SameSrcs d
      (raise 0x4B4 { x with srcs := x.srcs.map fun (s : SrcSt) => if s.st = .admitted then { s with st := .requal, qualAt := none } else s }) := by
    have hr := raise_srcs (f := 0x4B4) (fun k hk => by rw [show scopeOf 0x4B4 = some .device by decide] at hk; cases hk)
      { x with srcs := x.srcs.map fun (s : SrcSt) => if s.st = .admitted then { s with st := .requal, qualAt := none } else s }
    refine ⟨fun k => ?_, fun k => ?_⟩
    · rw [hr, ← hx, Fin.getElem_fin, Vector.getElem_map]
      exact if_cases (p := fun s : SrcSt => s.v = (x.srcs[k]).v) rfl rfl
    · rw [hr, ← hx, Fin.getElem_fin, Vector.getElem_map]
      exact if_cases (p := fun s : SrcSt => s.i = (x.srcs[k]).i) rfl rfl
  have k1 (f : BusSt → BusSt) : Keeps [.isl, .bus] d (sendBudgets (fun _ => 0) ((setBus .handover d).updBus f)) :=
    (sendBudgets_keeps ..).after ((updBus_keeps ..).after (setBus_keeps ..) rfl) rfl
  exact h _ ((k1 _).parts .srcs rfl)

theorem busMove_sameSrcs (d : Device) : SameSrcs d (busMove d) := by
  have hb (st : BusState) : SameSrcs d (setBus st d) := .of_keeps (setBus_keeps ..)
  unfold busMove
  split
  · exact .ite (.of_eq rfl) (handover_sameSrcs d)
  · exact .ite ((hb _).trans (.forEach srcHoDone_sameSrcs _ _)) (.of_eq rfl)
  · exact .ite (hb _) (.of_eq rfl)
  · exact .ite (handover_sameSrcs d) (.ite (.of_eq rfl) (hb _))
  · exact .of_eq rfl

theorem busEval_sameSrcs (d : Device) : SameSrcs d (busEval d) :=
  (((busMove_sameSrcs d).trans (busMove_sameSrcs _)).trans (busMove_sameSrcs _)).trans (busMove_sameSrcs _)

theorem srcRegulate_sameSrcs (k : Src) (d : Device) : SameSrcs d (srcRegulate k d) := by
  unfold srcRegulate
  split
  · exact .of_eq rfl
  · exact .updSrc k _ (by intro; rfl) (by intro; rfl) d

theorem srcOnVolt_sameSrcs (k : Src) (d : Device) : SameSrcs d (srcOnVolt k d) := by
  have ha (x : Device) (hx : SameSrcs d x) : SameSrcs d (x.updSrc k fun s => { s with bandNew := false }) := hx.trans (.updSrc k _ (by intro; rfl) (by intro; rfl) x)
  have hz (x : Device) (hx : SameSrcs d x) (b : Prop) [Decidable b] : SameSrcs d (if b then srcZero k .below x else x) :=
    .ite (hx.trans (.updSrc k _ (by intro; rfl) (by intro; rfl) x)) hx
  have hr (x : Device) (hx : SameSrcs d x) (b : Prop) [Decidable b] : SameSrcs d (if b then srcRegulate k x else x) := .ite (hx.trans (srcRegulate_sameSrcs ..)) hx
  have he (x : Device) (hx : SameSrcs d x) : SameSrcs d (halveEval (busEval x)) := (hx.trans (busEval_sameSrcs x)).trans (halveEval_sameSrcs _)
  have h0 (f : SrcSt → Nat) : SameSrcs d (d.updSrc k fun s => { s with lowRun := f s }) := .updSrc k _ (by intro; rfl) (by intro; rfl) d
  have h1 (f : SrcSt → Nat) (g : SrcSt → SrcSt) (hv : ∀ s, (g s).v = s.v) (hi : ∀ s, (g s).i = s.i) :
      SameSrcs d ((d.updSrc k fun s => { s with lowRun := f s }).updSrc k g) := (h0 f).trans (.updSrc k g hv hi _)
  unfold srcOnVolt
  dsimp only
  refine .ite (.of_eq rfl) (he _ (hr _ (hz _ (ha _ ?_) _) _))
  split
  · refine .ite (h1 _ _ ?_ ?_) (h1 _ _ ?_ ?_) <;> exact fun _ => rfl
  · refine .ite (h0 _) (h1 _ _ ?_ ?_) <;> exact fun _ => rfl
  · refine .ite ((h0 _).trans (srcToRamp_sameSrcs ..)) (h1 _ _ ?_ ?_) <;> exact fun _ => rfl
  · refine .ite (h0 _) (.ite (h1 _ _ ?_ ?_) ?_)
    · exact fun _ => rfl
    · exact fun _ => rfl
    · split
      · refine h1 _ _ ?_ ?_ <;> exact fun _ => rfl
      · refine .ite (h1 _ _ ?_ ?_) (h0 _) <;> exact fun _ => rfl
  · exact h0 _

theorem onVsrc_meas (k : Src) (v : Qty) (d : Device) : ((onVsrc k v d).srcs[k]).v = v := by
  have hv : ((d.updSrc k fun s => { s with v := v }).srcs[k]).v = v := by rw [updSrc_srcs, upd_same]
  exact ((srcOnVolt_sameSrcs k _).v k).trans hv

theorem onIsrc_meas (k : Src) (i : Qty) (d : Device) : ((onIsrc k i d).srcs[k]).i = i := by
  obtain ⟨x, hx⟩ : ∃ x, d.updSrc k (fun s => { s with i := i }) = x := ⟨_, rfl⟩
  have hi : (x.srcs[k]).i = i := by rw [← hx, updSrc_srcs, upd_same]
  have h1 : SameSrcs x (srcOnCur k x) := .updSrc k _ (by intro; rfl) (by intro; rfl) x
  have h2 (y : Device) : SameSrcs y (srcSample k y) := by
    unfold srcSample
    exact .trans (.updSrc k _ (by intro; rfl) (by intro; rfl) y) (.of_keeps (quadSample_keeps ..))
  have h := (h1.trans (.of_keeps (srcLoss_keeps k _))).trans (h2 _)
  rw [onIsrc, hx, h.i, hi]

/-! ### The SYS results of the quadrants (R284) -/

/-- The SYS values of every quadrant, its own and those that have arrived, are as before. -/
structure SameSys (d e : Device) : Prop where
  sysVal : ∀ q : Quad, (e.quads[q]).sysVal = (d.quads[q]).sysVal
  sysAt : ∀ q : Quad, (e.quads[q]).sysAt = (d.quads[q]).sysAt
  hkVal : ∀ q : Quad, (e.quads[q]).hkVal = (d.quads[q]).hkVal
  hkAt : ∀ q : Quad, (e.quads[q]).hkAt = (d.quads[q]).hkAt

namespace SameSys
variable {d e g : Device}

theorem of_eq (h : e.quads = d.quads) : SameSys d e := ⟨fun _ => by rw [h], fun _ => by rw [h], fun _ => by rw [h], fun _ => by rw [h]⟩

theorem of_keeps {S : List Part} (k : Keeps S d e) (h : S.contains .quads = false := by rfl) : SameSys d e := .of_eq (k.parts .quads h)

theorem trans (h : SameSys d e) (k : SameSys e g) : SameSys d g :=
  ⟨fun c => (k.sysVal c).trans (h.sysVal c), fun c => (k.sysAt c).trans (h.sysAt c), fun c => (k.hkVal c).trans (h.hkVal c), fun c => (k.hkAt c).trans (h.hkAt c)⟩

end SameSys

theorem sameSys_closed (d : Device) : BusClosed (SameSys d) := by
  refine ⟨fun _ _ k h => h.trans (.of_keeps k), fun g _ _ h => h.trans (.of_keeps (raise_keeps g _)), fun q x h => h.trans ?_⟩
  have hq := halveQuad_quads q x
  refine ⟨fun k => ?_, fun k => ?_, fun k => ?_, fun k => ?_⟩ <;> rw [hq]
  · exact upd_field x.quads q _ QuadSt.sysVal (by intro; rfl) k
  · exact upd_field x.quads q _ QuadSt.sysAt (by intro; rfl) k
  · exact upd_field x.quads q _ QuadSt.hkVal (by intro; rfl) k
  · exact upd_field x.quads q _ QuadSt.hkAt (by intro; rfl) k

theorem staleUpdate_sys (d : Device) : SameSys d (staleUpdate d) := by
  have h (q : Quad) : (staleUpdate d).quads[q] =
      if (d.quads[q]).armed then { d.quads[q] with stale := (freshSys d q).isNone, sysHeld := (freshSys d q).getD (d.quads[q]).sysHeld } else d.quads[q] := mapAll_get ..
  refine ⟨fun q => ?_, fun q => ?_, fun q => ?_, fun q => ?_⟩ <;> rw [h]
  · exact if_cases (p := fun s : QuadSt => s.sysVal = (d.quads[q]).sysVal) rfl rfl
  · exact if_cases (p := fun s : QuadSt => s.sysAt = (d.quads[q]).sysAt) rfl rfl
  · exact if_cases (p := fun s : QuadSt => s.hkVal = (d.quads[q]).hkVal) rfl rfl
  · exact if_cases (p := fun s : QuadSt => s.hkAt = (d.quads[q]).hkAt) rfl rfl

theorem holdsRelease_sys (d : Device) : SameSys d (holdsRelease d) :=
  forEach_induct (SameSys d) allSrcs _ (fun k _ he => if_cases (p := SameSys d) ((sameSys_closed d).srcToRamp k he) he) d (.of_eq rfl)

/-- A SYS result stands in its quadrant, and where its channel holds nothing in housekeeping. -/
theorem onSys_sys (q : Quad) (v : Qty) (w : Word) (d : Device) : ((onSys q v w d).quads[q]).sysVal = v ∧ ((onSys q v w d).quads[q]).sysAt = some d.clk.up ∧
    (hkWaits d q = false → ((onSys q v w d).quads[q]).hkVal = v ∧ ((onSys q v w d).quads[q]).hkAt = some d.clk.up) := by
  obtain ⟨x, hx⟩ : ∃ x, d.updQuad q (fun s => { s with sysVal := v, sysAt := some d.up, sysWord := w }) = x := ⟨_, rfl⟩
  have hw : hkWaits x q = hkWaits d q := hx ▸ rfl
  have hq : x.quads[q] = { d.quads[q] with sysVal := v, sysAt := some d.up, sysWord := w } := by rw [← hx, updQuad_quads, upd_same]
  obtain ⟨y, hy⟩ : ∃ y, toHouse q (.sys v w d.up) (sysArrives q v w d.up) x = y := ⟨_, rfl⟩
  have hyq : (y.quads[q]).sysVal = v ∧ (y.quads[q]).sysAt = some d.clk.up ∧ (hkWaits d q = false → (y.quads[q]).hkVal = v ∧ (y.quads[q]).hkAt = some d.clk.up) := by
    rw [← hy, toHouse, hw]
    cases hkWaits d q with
    | true =>
      rw [if_pos rfl, show (send (.toHk q) (.sys v w d.up) x).quads = x.quads from rfl, hq]
      exact ⟨rfl, rfl, nofun⟩
    | false =>
      rw [if_neg Bool.false_ne_true, sysArrives, updQuad_quads, upd_same, hq]
      exact ⟨rfl, rfl, fun _ => ⟨rfl, rfl⟩⟩
  have h : SameSys y (halveEval (busEval (holdsRelease (staleUpdate y)))) :=
    (sameSys_closed y).halveEval ((sameSys_closed y).busEval ((staleUpdate_sys y).trans (holdsRelease_sys _)))
  have he : onSys q v w d = halveEval (busEval (holdsRelease (staleUpdate y))) := by
    rw [← hy, ← hx]
    rfl
  rw [he, h.sysVal, h.sysAt, h.hkVal, h.hkAt]
  exact hyq

end Sys2Proof.Machine

/-! ## A stream result from its modulator to its consumers (09: R327, R334; 12: R457, R459) -/

namespace Sys2Proof.Machine

/-! ### The role of a modulator -/

/-- What gives a modulator its role, and its conversions their scale. -/
structure SameRole (m : Pm) (d e : Device) : Prop where
  conf : e.memory.conf = d.memory.conf
  bad : (e.mods[m]).bad = (d.mods[m]).bad
  acting : (e.mods[m]).acting = (d.mods[m]).acting

namespace SameRole
variable {m : Pm} {d e : Device} (h : SameRole m d e)
include h

theorem cf (a lo w : Nat) : e.cf a lo w = d.cf a lo w := by rw [Device.cf, h.conf, Device.cf]

theorem roleHome : roleHome e m = roleHome d m := by rw [Machine.roleHome, h.acting, Machine.roleHome]

theorem roleEff : roleEff e m = roleEff d m := by
  simp only [Machine.roleEff, idleSpare, h.bad, h.acting, h.roleHome, pmRole, h.cf]
  rfl

theorem roleChan : roleChan e m = roleChan d m := by
  refine Fin.ext ?_
  simp only [Machine.roleChan, h.roleHome, pmObj, h.cf]

theorem codeV (r : Int) : codeV e m r = codeV d m r := by simp only [Machine.codeV, h.roleHome, pmFs, h.cf]

theorem codeA (r : Int) : codeA e m r = codeA d m r := by simp only [Machine.codeA, h.roleHome, pmFs, h.cf]

end SameRole

/-! ### A result in use -/

/-- A stream delivers a result that is used (R327, R334). -/
structure StreamUsed (m : Pm) (d : Device) : Prop where
  role : streamRole d m = true
  clk : clkRuns d (Pm.quad m) = true
  runs : d.start.st = .run
  still : d.hk.changing = false
  settled : (d.mods[m]).streamAt + streamSettle ≤ d.clk.up

/-- The result is booked before it is fed. -/
def streamTaken (m : Pm) (raw : Int) (ovr : Bool) (d : Device) : Device :=
  tapCheck m (correct d m raw).1 (streamBook m raw (correct d m raw).1 (ovr || (correct d m raw).2)
    (resultWord d m 0 (correct d m raw).1 (ovr || (correct d m raw).2) false false) d)

/-- A stream that repeats one result too often fails its modulator (R457). -/
def streamJudged (m : Pm) (d : Device) : Device := if 256 ≤ (d.mods[m]).same then streamFault m d else d

/-- A valid result of a working modulator, at its instant. -/
def streamFed (m : Pm) (raw : Int) (ovr : Bool) (d : Device) : Device :=
  streamJudged m (feed m (correct d m raw).1 (resultWord d m 0 (correct d m raw).1 (ovr || (correct d m raw).2) false false) (streamTaken m raw ovr d))

theorem streamResult_gated {m : Pm} {raw : Int} {ovr : Bool} {d : Device} (h : clkRuns d (Pm.quad m) = false) : streamResult m raw ovr d = d :=
  if_neg fun hc => by rw [h] at hc; exact Bool.false_ne_true hc.2.1

theorem streamResult_on {m : Pm} {raw : Int} {ovr : Bool} {d w : Device} (hr : streamRole d m = true) (hc : clkRuns d (Pm.quad m) = true) (hs : d.start.st = .run)
    (hw : waitUp (nextResult d m) d = w) : streamResult m raw ovr d =
      if w.up < (w.mods[m]).streamAt + streamSettle ∨ w.hk.changing then w.updMod m fun s => { s with resAt := some w.up, streamOk := false }
      else if (w.mods[m]).failed then feedCover m (w.updMod m fun s => { s with resAt := some w.up })
      else streamFed m raw ovr w := by
  rw [streamResult, if_pos ⟨hr, hc, by rw [hs]; nofun, by rw [hs]; nofun⟩, hw]
  rfl

theorem StreamUsed.waited {m : Pm} {d w : Device} (h : StreamUsed m d) (hw : waitUp (nextResult d m) d = w) : ¬(w.up < (w.mods[m]).streamAt + streamSettle ∨ w.hk.changing = true) := by
  have hm : w.mods = d.mods := by rw [← hw, waitUp_mods]
  have hh : w.hk = d.hk := by rw [← hw, waitUp_hk]
  have hu : w.clk.up = max d.clk.up (nextResult d m) := by rw [← hw, waitUp_up]
  have hs := h.settled
  rw [hm, hh, h.still]
  change ¬(w.clk.up < _ ∨ _)
  rw [hu]
  intro hc
  rcases hc with hc | hc
  · omega
  · exact Bool.false_ne_true hc

theorem streamResult_used {m : Pm} {raw : Int} {ovr : Bool} {d w : Device} (h : StreamUsed m d) (hf : (d.mods[m]).failed = false)
    (hw : waitUp (nextResult d m) d = w) : streamResult m raw ovr d = streamFed m raw ovr w := by
  have hm : w.mods = d.mods := by rw [← hw, waitUp_mods]
  rw [streamResult_on h.role h.clk h.runs hw, if_neg (h.waited hw), if_neg (by rw [hm, hf]; exact Bool.false_ne_true)]

theorem streamResult_covered {m : Pm} {raw : Int} {ovr : Bool} {d w : Device} (h : StreamUsed m d) (hf : (d.mods[m]).failed = true)
    (hw : waitUp (nextResult d m) d = w) : streamResult m raw ovr d = feedCover m (w.updMod m fun s => { s with resAt := some w.up }) := by
  have hm : w.mods = d.mods := by rw [← hw, waitUp_mods]
  rw [streamResult_on h.role h.clk h.runs hw, if_neg (h.waited hw), if_pos (by rw [hm, hf])]

/-! ### What is booked of a result (R334) -/

theorem tapBook_field {α : Type} (m : Pm) (code : Int) (ovr : Bool) (d : Device) (g : ModSt → α) (hg : ∀ s a b c, g { s with tapSum := a, tapN := b, tapOvr := c } = g s := by intro _ _ _ _; rfl) :
    g (tapBook m code ovr d).mods[m] = g d.mods[m] := by
  unfold tapBook
  rw [updMod_mods, upd_same]
  dsimp only
  exact if_cases (p := fun s : ModSt => g s = g d.mods[m]) (hg ..) rfl

theorem tapCheck_field {α : Type} (m : Pm) (code : Int) (d : Device) (g : ModSt → α) (hg : ∀ s a b, g { s with tapWrong := a, tapBad := b } = g s := by intro _ _ _; rfl) :
    g (tapCheck m code d).mods[m] = g d.mods[m] := by
  unfold tapCheck
  rw [updMod_mods, upd_same]
  exact hg ..

/-- The words of a booked result. -/
structure Booked (m : Pm) (code : Int) (w : Word) (t : Nat) (x : ModSt) : Prop where
  code : x.code = code
  word : x.word = w
  wordAt : x.wordAt = some t
  resAt : x.resAt = some t

/-- Counted runs of equal results. -/
def sameRun (raw : Int) (s : ModSt) : Nat := if s.raw = raw ∧ s.resAt.isSome then s.same + 1 else 1

theorem streamTaken_field {α : Type} (m : Pm) (raw : Int) (ovr : Bool) (d : Device) (g : ModSt → α) (hg : ∀ s a b, g { s with tapWrong := a, tapBad := b } = g s := by intro _ _ _; rfl) :
    g (streamTaken m raw ovr d).mods[m] = g (streamBook m raw (correct d m raw).1 (ovr || (correct d m raw).2)
      (resultWord d m 0 (correct d m raw).1 (ovr || (correct d m raw).2) false false) d).mods[m] := tapCheck_field m _ _ g hg

theorem streamBook_mod (m : Pm) (raw code : Int) (ovr : Bool) (w : Word) (d : Device) : (streamBook m raw code ovr w d).mods[m] =
    (fun s : ModSt => { s with
      raw := raw, code := code, word := w, wordAt := some d.up, same := sameRun raw s, ovr := s.ovr || ovr, streamOk := true, resAt := some d.up
      lastRaws := (s.lastRaws ++ [raw]).drop (s.lastRaws.length - 7)
      sumFrame := s.sumFrame + code, nFrame := s.nFrame + 1, badFrame := s.badFrame || ovr }) (tapBook m code ovr d).mods[m] := by
  rw [streamBook, updMod_mods, upd_same]
  rfl

theorem streamTaken_booked (m : Pm) (raw : Int) (ovr : Bool) (d : Device) : Booked m (correct d m raw).1
    (resultWord d m 0 (correct d m raw).1 (ovr || (correct d m raw).2) false false) d.clk.up (streamTaken m raw ovr d).mods[m] := by
  constructor
  · rw [streamTaken_field m raw ovr d ModSt.code, streamBook_mod]
  · rw [streamTaken_field m raw ovr d ModSt.word, streamBook_mod]
  · rw [streamTaken_field m raw ovr d ModSt.wordAt, streamBook_mod]
    rfl
  · rw [streamTaken_field m raw ovr d ModSt.resAt, streamBook_mod]
    rfl

theorem streamTaken_same (m : Pm) (raw : Int) (ovr : Bool) (d : Device) : ((streamTaken m raw ovr d).mods[m]).same ≤ (d.mods[m]).same + 1 := by
  have h1 : ((tapBook m (correct d m raw).1 (ovr || (correct d m raw).2) d).mods[m]).same = (d.mods[m]).same := tapBook_field m _ _ d ModSt.same
  rw [streamTaken_field m raw ovr d ModSt.same, streamBook_mod]
  dsimp only
  rw [sameRun, h1]
  split <;> omega

theorem streamTaken_keeps (m : Pm) (raw : Int) (ovr : Bool) (d : Device) : Keeps [.mods] d (streamTaken m raw ovr d) :=
  (streamBook_keeps ..).trans (tapCheck_keeps ..)

theorem streamTaken_role (m : Pm) (raw : Int) (ovr : Bool) (d : Device) : SameRole m d (streamTaken m raw ovr d) := by
  refine ⟨(streamTaken_keeps ..).parts .conf rfl, ?_, ?_⟩
  · rw [streamTaken_field m raw ovr d ModSt.bad, streamBook_mod]
    exact tapBook_field m _ _ d ModSt.bad
  · rw [streamTaken_field m raw ovr d ModSt.acting, streamBook_mod]
    exact tapBook_field m _ _ d ModSt.acting

/-! ### A failed modulator (R457) -/

theorem streamScope (m : Pm) : ∃ q, scopeOf (0x520 + m.1) = some (.quadrant q) := by
  revert m
  decide

theorem pmFail_mods {α : Type} (m : Pm) (f : Nat) (d : Device) (g : ModSt → α) (hg : ∀ s a b, g { s with failed := a, degraded := b } = g s := by intro _ _ _; rfl) :
    g (pmFail m f d).mods[m] = g d.mods[m] := by
  refine if_cases (p := fun x : Device => g x.mods[m] = g d.mods[m]) rfl ?_
  have h (b : Bool) : (raise (f + m.1) (d.updMod m fun s => { s with failed := true, degraded := b })).mods[m] = { d.mods[m] with failed := true, degraded := b } := by
    rw [show (raise (f + m.1) (d.updMod m fun s => { s with failed := true, degraded := b })).mods = _ from (raise_keeps ..).parts .mods rfl, updMod_mods, upd_same]
  rw [h]
  exact hg ..

theorem pmFail_meas (m : Pm) (f : Nat) (d : Device) : SameMeas d (pmFail m f d) := by
  have h (b : Bool) : SameMeas d (d.updMod m fun s => { s with failed := true, degraded := b }) := .of_eq rfl
  exact .ite (.of_eq rfl) ((h _).trans (raise_meas ..))

theorem pmFail_srcs (m : Pm) (d : Device) : (pmFail m 0x520 d).srcs = d.srcs := by
  obtain ⟨q, hq⟩ := streamScope m
  have h (b : Bool) : (raise (0x520 + m.1) (d.updMod m fun s => { s with failed := true, degraded := b })).srcs = d.srcs := by
    rw [raise_srcs fun j hj => by rw [hq] at hj; cases hj]
    rfl
  exact if_cases (p := fun x : Device => x.srcs = d.srcs) rfl (h _)

/-- A fault of the stream leaves the measured values and the words of the result. -/
structure Faulted (m : Pm) (d e : Device) : Prop where
  meas : SameMeas d e
  srcs : e.srcs = d.srcs
  quads : e.quads = d.quads
  clk : e.clk = d.clk
  word : (e.mods[m]).word = (d.mods[m]).word
  code : (e.mods[m]).code = (d.mods[m]).code
  wordAt : (e.mods[m]).wordAt = (d.mods[m]).wordAt
  resAt : (e.mods[m]).resAt = (d.mods[m]).resAt

theorem Faulted.refl (m : Pm) (d : Device) : Faulted m d d := ⟨.of_eq rfl, rfl, rfl, rfl, rfl, rfl, rfl, rfl⟩

theorem streamFault_faulted (m : Pm) (d : Device) : Faulted m d (streamFault m d) := by
  have k := streamFault_keeps m d
  have hf {α : Type} (g : ModSt → α) (hg : ∀ s a b, g { s with failed := a, degraded := b } = g s) (hg' : ∀ s, g { s with streamOk := false } = g s) :
      g (streamFault m d).mods[m] = g d.mods[m] := by
    rw [streamFault, pmFail_mods m 0x520 _ g hg, updMod_mods, upd_same, hg']
  have h1 : SameMeas d (d.updMod m fun s => { s with streamOk := false }) := .of_eq rfl
  exact ⟨h1.trans (pmFail_meas ..), pmFail_srcs m _, k.parts .quads rfl, k.clk_eq,
    hf ModSt.word (fun _ _ _ => rfl) fun _ => rfl, hf ModSt.code (fun _ _ _ => rfl) fun _ => rfl, hf ModSt.wordAt (fun _ _ _ => rfl) fun _ => rfl,
    hf ModSt.resAt (fun _ _ _ => rfl) fun _ => rfl⟩

theorem streamJudged_faulted (m : Pm) (d : Device) : Faulted m d (streamJudged m d) := if_cases (p := Faulted m d) (streamFault_faulted m d) (.refl m d)

theorem streamFault_first {m : Pm} {d : Device} (hc : colRuns d = true) (hf : (d.mods[m]).failed = false) : ((streamFault m d).mods[m]).failed = true ∧
    ((streamFault m d).faults[Fin.ofNat 2048 (0x520 + m.1)]).count = raisedCount d (0x520 + m.1) := by
  obtain ⟨q, hq⟩ := streamScope m
  obtain ⟨x, hx⟩ : ∃ x, d.updMod m (fun s => { s with streamOk := false }) = x := ⟨_, rfl⟩
  have hxm : x.mods[m] = { d.mods[m] with streamOk := false } := by rw [← hx, updMod_mods, upd_same]
  have hxf : x.faults = d.faults := hx ▸ rfl
  have hxc : colRuns x = colRuns d := hx ▸ rfl
  obtain ⟨y, hy⟩ : ∃ y, x.updMod m (fun s => { s with failed := true, degraded := decide (roleEff x m ≠ 0) }) = y := ⟨_, rfl⟩
  have hym : (y.mods[m]).failed = true := by rw [← hy, updMod_mods, upd_same]
  have hyf : y.faults = x.faults := hy ▸ rfl
  have hyc : colRuns y = colRuns x := hy ▸ rfl
  have he : streamFault m d = raise (0x520 + m.1) y := by
    rw [streamFault, pmFail, hx, hy, if_neg (by rw [hxm]; exact fun h => Bool.false_ne_true (hf.symm.trans h))]
  have hn := raise_count hq (hyc.trans (hxc.trans hc))
  rw [he, hn, show (raise (0x520 + m.1) y).mods = y.mods from (raise_keeps ..).parts .mods rfl, raisedCount, hyf, hxf]
  exact ⟨hym, rfl⟩

theorem streamFault_again {m : Pm} {d : Device} (hf : (d.mods[m]).failed = true) : streamFault m d = d.updMod m fun s => { s with streamOk := false } := by
  have h : ((d.updMod m fun s => { s with streamOk := false }).mods[m]).failed = true := by
    rw [updMod_mods, upd_same]
    exact hf
  exact if_pos h

end Sys2Proof.Machine

/-! ## A string current from its result to the state of its channel (06: R232; 08: R307; 12: R472) -/

namespace Sys2Proof.Machine

/-! ### A charge that raises nothing that holds (R267, R270) -/

theorem effSev_conf {d e : Device} (f : Nat) (hm : e.memory.conf = d.memory.conf) (hf : e.faults = d.faults) : effSev e f = effSev d f := by
  have hb : baseSev e f = baseSev d f := by simp only [baseSev, fsSev, Device.cf, hm]
  simp only [effSev, hb, hf]

/-- What a raise that holds nothing writes. -/
def quietRaise : List Part := [.arbs, .faults, .col, .log, .caps, .alert]

theorem react_quiet {f : Nat} {sc : Scope} {s : Severity} (hs : s.holds = false) (d : Device) : react f sc (actSev sc s) d = d := by
  have h (a : Severity) (ha : a = .none ∨ a = .log) : react f sc a d = d := by
    rcases ha with rfl | rfl <;> rfl
  refine h _ ?_
  cases s with
  | none => cases sc <;> exact .inl rfl
  | log => cases sc <;> exact .inr rfl
  | _ => exact absurd hs (by decide)

theorem raise_quiet {f : Nat} {d : Device} (hs : (effSev d f).holds = false) (hr : d.start.st = .run) : Keeps quietRaise d (raise f d) := by
  rcases raiseX_cases f false 0 d with k | ⟨sc, -, -, -, he⟩
  · exact k.mono rfl
  · have k := recordRaise_keeps f sc false 0 d
    have hst : (recordRaise f sc false 0 d).start = d.start := k.start_eq rfl rfl rfl
    rw [show raise f d = raiseX f false 0 d from rfl, he, reactNow, if_pos (.inl (by rw [hst]; exact hr)), react_quiet hs]
    exact k.mono rfl

/-- What a charge writes that raises nothing that holds. -/
def chargeParts : List Part := [.arbs, .isl, .profs, .faults, .col, .log, .caps, .fi, .mem, .alert]

theorem reconcile_quiet {c : Chan} {d : Device} (qi qo : Nat) (hs : (effSev d (0x360 + c.1)).holds = false) (hr : d.start.st = .run) :
    Keeps chargeParts d (reconcile c qi qo d) := by
  have h (w1 w2 : Nat) (x : Device) (k : Keeps [.profs] d x) : Keeps chargeParts d (raise (0x360 + c.1) (logEvent Config.reconCode.toNat c.1 w1 w2 x)) := by
    have kl : Keeps [.arbs, .profs, .log] d (logEvent Config.reconCode.toNat c.1 w1 w2 x) := (logEvent_keeps ..).after (k.mono rfl) rfl
    have he := effSev_conf (0x360 + c.1) (kl.parts .conf rfl) (kl.parts .faults rfl)
    have hst : (logEvent Config.reconCode.toNat c.1 w1 w2 x).start = d.start := kl.start_eq rfl rfl rfl
    exact ((raise_quiet (by rw [he]; exact hs) (by rw [hst]; exact hr)).mono rfl : Keeps chargeParts _ _).after (kl.mono rfl) rfl
  exact Keeps.ite ((updProf_keeps ..).mono rfl) (h _ _ _ (updProf_keeps ..))

theorem chargeArrives_quiet {c : Chan} {d : Device} (qi qo : Nat) (t : Option (Nat × Nat)) (hs : t.isSome = true → (effSev d (0x360 + c.1)).holds = false)
    (hr : d.start.st = .run) : Keeps chargeParts d (chargeArrives c qi qo t d) := by
  have h (a : Nat) (bs : List Byte) (f : ProfSt → ProfSt) : Keeps [.arbs, .profs, .log, .fi, .mem] d (memWrite a bs (d.updProf c f)) :=
    (memWrite_keeps ..).after ((updProf_keeps ..).mono rfl) rfl
  unfold chargeArrives
  cases t with
  | none => exact (h ..).mono rfl
  | some t =>
    have hk := h (0xE2000 + 16 * c.1)
      (leBytes 8 (((d.updProf c fun p => { p with hkIn := p.hkIn + qi, hkOut := p.hkOut + qo }).profs[c]).hkIn / 65536) ++
        leBytes 8 (((d.updProf c fun p => { p with hkIn := p.hkIn + qi, hkOut := p.hkOut + qo }).profs[c]).hkOut / 65536))
      fun p => { p with hkIn := p.hkIn + qi, hkOut := p.hkOut + qo }
    have he := effSev_conf (0x360 + c.1) (hk.parts .conf rfl) (hk.parts .faults rfl)
    exact (reconcile_quiet _ _ (by rw [he]; exact hs rfl) (by rw [hk.start_eq rfl rfl rfl]; exact hr)).after (hk.mono rfl) rfl

theorem chargeAdd_quiet {c : Chan} {d : Device} (fill : Bool) (i : Qty) (n : Nat) (hs : fill = true → (effSev d (0x360 + c.1)).holds = false) (hr : d.start.st = .run) :
    Keeps chargeParts d (chargeAdd fill c i n d) := by
  have h (x : Device) (k : Keeps [.profs] d x) (qi qo : Nat) (t : Option (Nat × Nat)) (ht : t.isSome = fill) (m : Msg) :
      Keeps chargeParts d (toHouse (Chan.quad c) m (chargeArrives c qi qo t) x) := by
    have he := effSev_conf (0x360 + c.1) (k.parts .conf rfl) (k.parts .faults rfl)
    refine Keeps.ite ((send_keeps ..).after (k.mono rfl) rfl)
      ((chargeArrives_quiet qi qo t (fun hi => by rw [he]; exact hs (ht ▸ hi)) (by rw [k.start_eq rfl rfl rfl]; exact hr)).after (k.mono rfl) rfl)
  unfold chargeAdd
  dsimp only
  refine h _ (updProf_keeps ..) _ _ _ ?_ _
  cases fill <;> rfl

theorem charge_quiet {c : Chan} {d : Device} (hs : (effSev d (0x360 + c.1)).holds = false) (hr : d.start.st = .run) : Keeps chargeParts d (charge c d) := by
  have hf (i : Qty) (n : Nat) : Keeps chargeParts d (chargeAdd true c i n d) := chargeAdd_quiet true i n (fun _ => hs) hr
  have h (x : Device) (k : Keeps chargeParts d x) (i : Qty) (n : Nat) (f : ProfSt → ProfSt) : Keeps chargeParts d ((chargeAdd false c i n x).updProf c f) :=
    ((updProf_keeps ..).mono rfl : Keeps chargeParts _ _).after ((chargeAdd_quiet false i n nofun (by rw [k.start_eq rfl rfl rfl]; exact hr)).after k rfl) rfl
  unfold charge
  dsimp only
  refine Keeps.ite (.refl ..) (h _ (Keeps.ite (.refl ..) (Keeps.ite (hf ..) ?_)) _ _ _)
  exact ((updProf_keeps ..).mono rfl : Keeps chargeParts _ _).after (hf ..) rfl

/-! ### The path and the sources up to the moves (R308) -/

/-- The path of a channel is in its state, or waits where it stood without a rise. -/
def PathStill (c : Chan) (d e : Device) : Prop := (e.paths[c]).st = (d.paths[c]).st ∨ ((d.paths[c]).st = .norise ∧ (e.paths[c]).st = .wait)

theorem PathStill.of_eq {c : Chan} {d e : Device} (h : (e.paths[c]).st = (d.paths[c]).st) : PathStill c d e := .inl h

theorem PathStill.trans {c : Chan} {d e g : Device} (h : PathStill c d e) (k : PathStill c e g) : PathStill c d g := by
  rcases h with h | ⟨h1, h2⟩ <;> rcases k with k | ⟨k1, k2⟩
  · exact .inl (k.trans h)
  · exact .inr ⟨h ▸ k1, k2⟩
  · exact .inr ⟨h1, k.trans h2⟩
  · rw [h2] at k1
    cases k1

theorem PathStill.updPath {c : Chan} (k : Chan) (f : PathSt → PathSt) (hf : ∀ p, (f p).st = p.st := by intro; rfl) (d : Device) : PathStill c d (d.updPath k f) :=
  .inl (upd_field d.paths k f PathSt.st hf c)

/-- Admitted sources stay admitted, and the bus is as before. -/
structure AdmittedKept (d e : Device) : Prop where
  admitted : ∀ k : Src, (d.srcs[k]).st = .admitted → (e.srcs[k]).st = .admitted
  bus : e.bus = d.bus

theorem AdmittedKept.of_eq {d e : Device} (hs : e.srcs = d.srcs) (hb : e.bus = d.bus) : AdmittedKept d e := ⟨fun _ h => by rw [hs, h], hb⟩

theorem AdmittedKept.of_keeps {S : List Part} {d e : Device} (k : Keeps S d e) (hs : S.contains .srcs = false := by rfl) (hb : S.contains .bus = false := by rfl) :
    AdmittedKept d e := .of_eq (k.parts .srcs hs) (k.parts .bus hb)

theorem AdmittedKept.trans {d e g : Device} (h : AdmittedKept d e) (k : AdmittedKept e g) : AdmittedKept d g :=
  ⟨fun n hn => k.admitted n (h.admitted n hn), k.bus.trans h.bus⟩

theorem AdmittedKept.any {d e : Device} (h : AdmittedKept d e) (ha : anyAdmitted d = true) : anyAdmitted e = true := by
  obtain ⟨k, hk, hs⟩ := List.any_eq_true.1 ha
  exact List.any_eq_true.2 ⟨k, hk, decide_eq_true (h.admitted k (of_decide_eq_true hs))⟩

theorem releasePath_still (f : Nat) (c k : Chan) (d : Device) : PathStill c d (releasePath f k d) := by
  have h1 : PathStill c d (d.updPath k fun p => { p with holders := unheld f p.holders }) := .updPath k _ (by intro; rfl) d
  refine if_cases (p := PathStill c d) ?_ (.of_eq rfl)
  by_cases hc : c = k
  · subst hc
    by_cases hw : ((d.updPath c fun p => { p with holders := unheld f p.holders }).paths[c]).holders = [] ∧
        ((d.updPath c fun p => { p with holders := unheld f p.holders }).paths[c]).st = .norise
    · refine h1.trans (.inr ⟨hw.2, ?_⟩)
      rw [if_pos hw, updPath_paths, upd_same]
    · rw [if_neg hw]
      exact h1
  · have h2 (x : Device) (hx : PathStill c d x) (b : Prop) [Decidable b] (g : PathSt → PathSt) : PathStill c d (if b then x.updPath k g else x) :=
      if_cases (p := PathStill c d) (hx.trans (.inl (by rw [updPath_paths, upd_other _ _ _ _ hc]))) hx
    exact h2 _ h1 _ _

theorem releaseSrc_admitted (f : Nat) (k : Src) (d : Device) : AdmittedKept d (releaseSrc f k d) := by
  have h0 (g : SrcSt → SrcSt) (hg : ∀ s, s.st = .admitted → (g s).st = .admitted) (x : Device) : AdmittedKept x (x.updSrc k g) := by
    refine ⟨fun j hj => ?_, rfl⟩
    by_cases hk : j = k
    · subst hk
      rw [updSrc_srcs, upd_same]
      exact hg _ hj
    · rw [updSrc_srcs, upd_other _ _ _ _ hk, hj]
  have h1 : AdmittedKept d (d.updSrc k fun s => { s with holders := unheld f s.holders }) := by
    refine h0 _ ?_ d
    exact fun _ h => h
  refine if_cases (p := AdmittedKept d) ?_ (.of_eq rfl rfl)
  by_cases hw : ((d.updSrc k fun s => { s with holders := unheld f s.holders }).srcs[k]).holders = [] ∧
      ((d.updSrc k fun s => { s with holders := unheld f s.holders }).srcs[k]).st = .norise
  · refine h1.trans ?_
    rw [if_pos hw]
    refine ⟨fun j hj => ?_, rfl⟩
    by_cases hk : j = k
    · subst hk
      rw [hw.2] at hj
      cases hj
    · rw [updSrc_srcs, upd_other _ _ _ _ hk, hj]
  · rw [if_neg hw]
    exact h1

/-- A path and the sources as a release leaves them. -/
def Released (c : Chan) (d e : Device) : Prop := PathStill c d e ∧ AdmittedKept d e

theorem Released.trans {c : Chan} {d e g : Device} (h : Released c d e) (k : Released c e g) : Released c d g := ⟨h.1.trans k.1, h.2.trans k.2⟩

theorem Released.of_keeps {S : List Part} {c : Chan} {d e : Device} (k : Keeps S d e) (hp : S.contains .paths = false := by rfl) (hs : S.contains .srcs = false := by rfl)
    (hb : S.contains .bus = false := by rfl) : Released c d e :=
  ⟨.of_eq (by rw [show e.paths = d.paths from k.parts .paths hp]), .of_keeps k hs hb⟩

theorem Released.forEach {α : Type} {c : Chan} {f : α → Device → Device} (hf : ∀ a d, Released c d (f a d)) (l : List α) (d : Device) : Released c d (Machine.forEach l f d) :=
  forEach_induct (Released c d) l f (fun a _ he => he.trans (hf a _)) d ⟨.of_eq rfl, .of_eq rfl rfl⟩

theorem releaseHold_released (f : Nat) (c : Chan) (d : Device) : Released c d (releaseHold f d) := by
  have h1 (x : Device) : Released c x (forEach allChans (releaseChan f) x) := .forEach (fun k e => .of_keeps (releaseChan_keeps f k e)) _ _
  have h2 (x : Device) : Released c x (forEach allChans (releasePath f) x) :=
    .forEach (fun k e => ⟨releasePath_still f c k e, .of_keeps (releasePath_keeps f k e)⟩) _ _
  have h3 (x : Device) : Released c x (forEach allSrcs (releaseSrc f) x) := .forEach (fun k e => ⟨.of_eq (by rw [show (releaseSrc f k e).paths = e.paths from
    (releaseSrc_keeps f k e).parts .paths rfl]), releaseSrc_admitted f k e⟩) _ _
  have h4 (x : Device) : Released c x (forEach allSlots (fun n d => d.updSlot n fun s => { s with holders := unheld f s.holders }) x) := by
    refine .forEach (fun n e => ?_) allSlots x
    exact ⟨.of_eq rfl, .of_eq rfl rfl⟩
  have h5 (x : Device) (hx : Released c d x) (g : Collector → Collector) : Released c d (if f ∈ x.col.devHolders then x.updCol g else x) :=
    if_cases (p := Released c d) (hx.trans ⟨.of_eq rfl, .of_eq rfl rfl⟩) hx
  unfold releaseHold
  dsimp only
  refine h5 _ (((Released.trans ?_ (h1 _)).trans (h2 _) |>.trans (h3 _)).trans (h4 _)) _
  exact ⟨.of_eq rfl, .of_eq rfl rfl⟩

theorem untrip_released {c : Chan} {d : Device} (hp : (d.paths[c]).st ≠ .tripped) : Released c d (untrip c d) := by
  have h (f : Nat) (x : Device) (hx : Released c d x) : Released c d (releaseHold f (grantRecord f x)) :=
    hx.trans ((Released.of_keeps (grantRecord_keeps f x)).trans (releaseHold_released ..))
  have h0 : Released c d ((d.updPath c fun p => { p with toggled := false }).updPath c fun p => { p with latched := false }) :=
    ⟨(PathStill.updPath c _ (by intro; rfl) d).trans (.updPath c _ (by intro; rfl) _), .of_eq rfl rfl⟩
  have hs : (((d.updPath c fun p => { p with toggled := false }).updPath c fun p => { p with latched := false }).paths[c]).st = (d.paths[c]).st := by
    rw [updPath_paths, upd_same, updPath_paths, upd_same]
  unfold untrip
  dsimp only
  refine if_cases (p := Released c d) ?_ ⟨.of_eq rfl, .of_eq rfl rfl⟩
  rw [if_neg (by rw [hs]; exact hp)]
  exact if_cases (p := Released c d) (h _ _ h0) h0

theorem loopBefore_released {c : Chan} {d : Device} (hp : (d.paths[c]).st ≠ .tripped) : Released c d (loopBefore c d) := by
  have h1 (x : Device) (hx : x.paths = d.paths) (hs : x.srcs = d.srcs) (hb : x.bus = d.bus) : Released c d (rampStep c (untrip c (collapseOver c x))) := by
    have hc : Released c d (collapseOver c x) := by
      refine ⟨(PathStill.of_eq (by rw [hx])).trans (PathStill.updPath c (fun p => { p with collapseAt := if p.holdOver then none else p.collapseAt, holdOver := false })
        (by intro; rfl) x), .of_eq hs hb⟩
    have ht : ((collapseOver c x).paths[c]).st ≠ .tripped := by
      rcases hc.1 with h | ⟨-, h⟩ <;> rw [h]
      · exact hp
      · nofun
    exact (hc.trans (untrip_released ht)).trans (.of_keeps (rampStep_keeps ..))
  have h2 : Released c d (loopPrepared c d) := h1 _ rfl rfl rfl
  have h3 (o : LoopOut) (b : BitVec 3) (x : Device) : Released c x (loopTaken c o b x) := ⟨.of_eq rfl, .of_eq rfl rfl⟩
  exact (h2.trans (h3 ..)).trans (.of_keeps (cutStep_keeps ..))

/-! ### A trip (R307) -/

/-- The path of a channel is TRIPPED. -/
def Tripped (c : Chan) (d : Device) : Prop := (d.paths[c]).st = .tripped

theorem Tripped.congr {c : Chan} {d e : Device} (h : Tripped c d) (k : KeepsPaths d e) : Tripped c e := by
  obtain ⟨b, hb⟩ := k.same c
  rw [Tripped, hb]
  exact h

theorem pathOpen_tripped {c : Chan} {d : Device} (f : Nat) (k : Chan) (h : Tripped c d) : Tripped c (pathOpen f k d) := by
  by_cases hk : c = k
  · subst hk
    rw [pathOpen, if_pos (.inr (.inr (.inr h)))]
    exact h
  · refine if_cases (p := Tripped c) h ?_
    rw [Tripped, pathHold, updPath_paths, upd_other _ _ _ _ hk, pathZero, updPath_paths, upd_other _ _ _ _ hk]
    exact h

theorem pathTrip_tripped {c : Chan} {d : Device} (k : Chan) (a b : Bool) (h : Tripped c d) : Tripped c (pathTrip k a b d) := by
  by_cases hk : c = k
  · subst hk
    have hr : ¬((d.paths[c]).st.tripRow = true) := by
      rw [h]
      decide
    have hw : ¬((d.paths[c]).st = .wait ∨ (d.paths[c]).st = .norise) := by
      rw [h]
      nofun
    rw [pathTrip, if_neg hr, if_neg hw]
    exact h
  · refine if_cases (p := Tripped c) ?_ (if_cases (p := Tripped c) ?_ h)
    · rw [Tripped, updPath_paths, upd_other _ _ _ _ hk, pathZero, updPath_paths, upd_other _ _ _ _ hk]
      exact h
    · rw [Tripped, updPath_paths, upd_other _ _ _ _ hk]
      exact h

theorem react_tripped {c : Chan} {d : Device} (f : Nat) (sc : Scope) (s : Severity) (h : Tripped c d) : Tripped c (react f sc s d) := by
  have h1 : Tripped c (forEach (reach d sc s) (holdChan f) d) := h.congr (.forEach (fun c e => holdChan_paths f c e) ..)
  unfold react
  refine if_cases (p := Tripped c) (if_cases (p := Tripped c) ?_ h1) (if_cases (p := Tripped c) ?_ h1)
  all_goals
    cases sc with
    | path k => exact if_cases (p := Tripped c) (pathTrip_tripped k _ _ h1) (pathOpen_tripped f k h1)
    | source k => exact h1.congr (.of_keeps (srcOpen_keeps ..))
    | slot n => exact h1
    | _ => exact h1

theorem raise_tripped {c : Chan} {d : Device} (f : Nat) (h : Tripped c d) : Tripped c (raise f d) := by
  rcases raiseX_cases f false 0 d with k | ⟨sc, -, -, -, he⟩
  · exact h.congr (.of_keeps k)
  · have h1 : Tripped c (recordRaise f sc false 0 d) := h.congr (.of_keeps (recordRaise_keeps ..))
    rw [show raise f d = raiseX f false 0 d from rfl, he]
    exact if_cases (p := Tripped c) (react_tripped _ _ _ h1)
      (if_cases (p := Tripped c) (react_tripped _ _ _ (h1.congr (.of_keeps (latchAtStart_keeps _)))) (if_cases (p := Tripped c) h1 h1))

theorem trip_cases (c : Chan) (inst : Bool) (d : Device) : Tripped c (trip c inst d) ∨ trip c inst d = d := by
  cases h : (d.paths[c]).st.tripRow with
  | true =>
    refine .inl ?_
    rw [trip, if_pos h]
    refine raise_tripped _ ?_
    rw [pathTrip, if_pos h, Tripped, updPath_paths, upd_same, pathZero, updPath_paths, upd_same]
  | false => exact .inr (if_neg (by rw [h]; exact Bool.false_ne_true))

theorem breaker_cases (c : Chan) (d : Device) : Tripped c (breaker c d) ∨ Keeps [.paths] d (breaker c d) := by
  have h (x : Device) (k : Keeps [.paths] d x) (b : Prop) [Decidable b] : Tripped c (if b then trip c false x else x) ∨ Keeps [.paths] d (if b then trip c false x else x) := by
    refine if_cases (p := fun y => Tripped c y ∨ Keeps [.paths] d y) ?_ (.inr k)
    rcases trip_cases c false x with ht | ht
    · exact .inl ht
    · rw [ht]
      exact .inr k
  unfold breaker
  dsimp only
  refine if_cases (p := fun y => Tripped c y ∨ Keeps [.paths] d y) (.inr (.refl ..)) ?_
  exact h _ (updPath_keeps ..) _

theorem stuckTrack_st (c : Chan) (d : Device) : ((stuckTrack c d).paths[c]).st = (d.paths[c]).st := by
  rw [stuckTrack, updPath_paths, upd_same]

theorem reverseAct_tripped {c : Chan} {d : Device} (h : Tripped c d) : Tripped c (reverseAct c d) := by
  have hn : ¬(reverse d c = true ∧ ((d.paths[c]).st = .ramp ∨ (d.paths[c]).st = .diode ∨ (d.paths[c]).st = .full)) := by
    rw [h]
    nofun
  rw [reverseAct, if_neg hn]
  exact h

/-- A string current trips its breaker, or leaves all but the path. -/
theorem pathOnCur_cases (c : Chan) (d : Device) : Tripped c (pathOnCur c d) ∨ Keeps [.paths] d (pathOnCur c d) := by
  rcases breaker_cases c d with h | k
  · by_cases hu : (d.paths[c]).st = .unarmed
    · exact .inr (by rw [pathOnCur, if_pos hu]; exact .refl ..)
    · have hs : Tripped c (stuckTrack c (breaker c d)) := (stuckTrack_st c _).trans h
      rw [pathOnCur, if_neg hu]
      exact .inl (if_cases (p := Tripped c) hs (reverseAct_tripped hs))
  · have ks : Keeps [.paths] d (stuckTrack c (breaker c d)) := k.trans (stuckTrack_keeps ..)
    exact .inr (Keeps.ite (.refl ..) (Keeps.ite ks (ks.trans (reverseAct_keeps ..))))

/-! ### The moves of the state (R232, R472) -/

/-- A channel as its loop step comes to its moves. -/
structure BeforeMoves (c : Chan) (d b : Device) : Prop where
  st : (b.chans[c]).st = (d.chans[c]).st
  host : (b.chans[c]).hostStopQ = (d.chans[c]).hostStopQ
  reload : (b.chans[c]).reloadReq = (d.chans[c]).reloadReq
  free : (d.chans[c]).holders = [] → (b.chans[c]).holders = []
  path : PathStill c d b

theorem restartReq_own (c : Chan) (d : Device) : ((restartReq c d).chans[c]).st = (d.chans[c]).st ∧ ((restartReq c d).chans[c]).restart = true := by
  have h (x : Device) (hx : x.chans = d.chans) : ((x.updChan c fun s => { s with restart := true, enablePending := if s.st = .stop then true else s.enablePending }).chans[c]) =
      { d.chans[c] with restart := true, enablePending := if (d.chans[c]).st = .stop then true else (d.chans[c]).enablePending } := by
    rw [updChan_chans, upd_same, hx]
  have he := h (toAssess c (d.updProf c fun p => { p with paused := p.paused && keptPaused d c })) ((toAssess_keeps ..).parts .chans rfl)
  rw [restartReq, he]
  exact ⟨rfl, rfl⟩

/-- A channel that goes to OFF for its restart. -/
theorem restarts_off (c : Chan) (d : Device) : ((restartReq c (enterCh c .off d)).chans[c]).st = .off ∧ ((restartReq c (enterCh c .off d)).chans[c]).restart = true := by
  obtain ⟨h1, h2⟩ := restartReq_own c (enterCh c .off d)
  exact ⟨h1.trans (enterCh_own c .off d).1, h2⟩

theorem loopMoves_freed {c : Chan} {o : LoopOut} {d : Device} (hs : (d.chans[c]).st = .held) (hf : (d.chans[c]).holders = []) (hp : (d.paths[c]).st ≠ .absent) :
    loopMoves c o d = restartReq c (enterCh c .off d) := by
  rw [loopMoves]
  dsimp only
  rw [hs]
  dsimp only
  rw [if_pos hf, if_neg hp]

theorem loopMoves_present {c : Chan} {o : LoopOut} {d : Device} (hs : (d.chans[c]).st = .absent) (hp : (d.paths[c]).st.present = true) :
    loopMoves c o d = restartReq c (enterCh c .off d) := by
  rw [loopMoves]
  dsimp only
  rw [hs]
  exact if_pos hp

theorem loopMoves_reload {c : Chan} {o : LoopOut} {d : Device} (hs : (d.chans[c]).st = .start ∨ (d.chans[c]).st = .regulate) (hh : (d.chans[c]).hostStopQ = false)
    (hr : (d.chans[c]).reloadReq = true) : loopMoves c o d = enterStop c 4 d := by
  rw [loopMoves]
  dsimp only
  rcases hs with hs | hs <;>
  · rw [hs]
    dsimp only
    rw [if_neg (by rw [hh]; exact Bool.false_ne_true), if_pos hr]

theorem enterCh_cause (c : Chan) (st : ChState) (d : Device) : ((enterCh c st d).chans[c]).stopCause = (d.chans[c]).stopCause := by
  have h (x : Device) (hx : (x.chans[c]).stopCause = (d.chans[c]).stopCause) : ((regate c (x.updChan c fun s => { s with st := st })).chans[c]).stopCause = (d.chans[c]).stopCause := by
    obtain ⟨b, hb⟩ := regate_chan c (x.updChan c fun s => { s with st := st })
    rw [hb, updChan_chans, upd_same]
    exact hx
  unfold enterCh
  dsimp only
  refine h _ ?_
  rw [updProf_chans]
  refine if_cases (p := fun x : Device => (x.chans[c]).stopCause = (d.chans[c]).stopCause) ?_ rfl
  rw [updChan_chans, upd_same]
  rfl

theorem enterStop_reload (c : Chan) (d : Device) : ((enterStop c 4 d).chans[c]).st = .stop ∧ ((enterStop c 4 d).chans[c]).stopCause = 4 := by
  have he : enterStop c 4 d = enterCh c .stop (d.updChan c fun s => { s with istop := s.icmd, stopCause := 4, zeroReq := 0, reloadReq := false }) := rfl
  rw [he, enterCh_cause, updChan_chans, upd_same]
  exact ⟨(enterCh_own ..).1, rfl⟩

theorem loopClosed_keeps (c : Chan) (d : Device) : Keeps [.slots, .chans, .profs, .paths] d (loopClosed c d) := by
  have k : Keeps [.slots, .chans, .profs, .paths] d (regate c (d.updChan c fun s => { s with cappedHit := false, termHit := false })) :=
    (regate_keeps ..).after ((updChan_keeps ..).mono rfl) rfl
  exact Keeps.forEach (fun n e => (capShift_keeps n e).mono rfl) k

/-- Up to its loop step a string current leaves the path, the sources and the bus, and the words that the moves look at. -/
theorem istrBefore {c : Chan} {i : Qty} {d p : Device} (hs : (effSev d (0x360 + c.1)).holds = false) (hr : d.start.st = .run)
    (hp : profStep c (restCur c i (charge c ((d.updChan c fun s => { s with i := i }).updPath c fun p => { p with blind := false }))) = p) :
    p.chans[c] = { d.chans[c] with i := i } ∧ (p.paths[c]).st = (d.paths[c]).st ∧ p.srcs = d.srcs ∧ p.bus = d.bus ∧ p.start.st = .run := by
  obtain ⟨x, hx⟩ : ∃ x, (d.updChan c fun s => { s with i := i }).updPath c (fun p => { p with blind := false }) = x := ⟨_, rfl⟩
  have hc : x.chans[c] = { d.chans[c] with i := i } := by rw [← hx, updPath_chans, updChan_chans, upd_same]
  have hpa : (x.paths[c]).st = (d.paths[c]).st := by rw [← hx, updPath_paths, upd_same]; rfl
  have he : effSev x (0x360 + c.1) = effSev d (0x360 + c.1) := effSev_conf _ (hx ▸ rfl) (hx ▸ rfl)
  have hst : x.start = d.start := hx ▸ rfl
  have hsr : x.srcs = d.srcs := hx ▸ rfl
  have hb : x.bus = d.bus := hx ▸ rfl
  rw [hx] at hp
  have k : Keeps chargeParts x p := hp ▸ ((profStep_keeps ..).after ((restCur_keeps ..).after
    ((charge_quiet (by rw [he]; exact hs) (by rw [hst]; exact hr)).mono rfl : Keeps chargeParts _ _) rfl) rfl)
  have k1 : p.chans = x.chans := k.parts .chans rfl
  have k2 : p.paths = x.paths := k.parts .paths rfl
  have k3 : p.srcs = x.srcs := k.parts .srcs rfl
  have k4 : p.bus = x.bus := k.parts .bus rfl
  have k5 : p.start = x.start := k.start_eq rfl rfl rfl
  exact ⟨by rw [k1, hc], by rw [k2, hpa], by rw [k3, hsr], by rw [k4, hb], by rw [k5, hst, hr]⟩

/-- Where nothing trips, a channel stands as the moves of its loop step have left it. -/
theorem onIstr_moved {c : Chan} {i : Qty} {d : Device} {g : ChanSt → Prop} (hg : ∀ s t, sansLoop s = sansLoop t → g s → g t) (hn : ∀ s, g s → s.st ≠ .start)
    (hv : (d.chans[c]).vSeen = true) (hs : (effSev d (0x360 + c.1)).holds = false) (hr : d.start.st = .run) (hp : (d.paths[c]).st ≠ .tripped)
    (hb : d.bus.st = .sourced) (ha : anyAdmitted d = true) (hm : ∀ o b, BeforeMoves c d b → g (loopMoves c o b).chans[c]) :
    Tripped c (onIstr c i false d) ∨ g (onIstr c i false d).chans[c] := by
  obtain ⟨p, hpe⟩ : ∃ p, profStep c (restCur c i (charge c ((d.updChan c fun s => { s with i := i }).updPath c fun p => { p with blind := false }))) = p := ⟨_, rfl⟩
  obtain ⟨p1, p2, p3, p4, -⟩ := istrBefore hs hr hpe
  have hlp : istrLooped c i d = loopStep c p := by rw [istrLooped, hpe]
  have hl := loopBefore_loop c p
  obtain ⟨hpb, hab⟩ := loopBefore_released (c := c) (d := p) (by rw [p2]; exact hp)
  have hbm : BeforeMoves c d (loopBefore c p) :=
    ⟨(hl.field ChanSt.st c).trans (by rw [p1]), (hl.field ChanSt.hostStopQ c).trans (by rw [p1]), (hl.field ChanSt.reloadReq c).trans (by rw [p1]),
      fun hf => hl.free c (by rw [p1]; exact hf), (PathStill.of_eq p2).trans hpb⟩
  have hgm : g (loopMoved c p).chans[c] := hg _ _ ((loopClosed_loop c _).words c).symm (hm _ _ hbm)
  have hstep : istrLooped c i d = loopMoved c p := by
    rw [hlp, loopStep_eq (by rw [p1]; exact hv), if_neg]
    intro h
    have h1 : ssRuns (loopMoved c p) c = true := h.1
    unfold ssRuns at h1
    dsimp only at h1
    rw [decide_eq_false (hn _ hgm)] at h1
    exact Bool.false_ne_true h1
  have hfold := istrFolded_loop c (istrLooped c i d)
  have hgf : g (istrFolded c (istrLooped c i d)).chans[c] := hg _ _ (hfold.words c).symm (by rw [hstep]; exact hgm)
  have kfold : Keeps [.slots, .chans, .therm] (istrLooped c i d) (istrFolded c (istrLooped c i d)) :=
    (pathLoss_keeps ..).after ((conduction_keeps ..).after (Keeps.ite ((foldUpdate_keeps ..).mono rfl) (.refl ..)) rfl) rfl
  have hmoved : AdmittedKept (loopBefore c p) (loopMoved c p) := (AdmittedKept.of_keeps (loopMoves_keeps ..)).trans (.of_keeps (loopClosed_keeps ..))
  have hadm : AdmittedKept d (istrFolded c (istrLooped c i d)) := by
    rw [hstep] at kfold ⊢
    exact (((AdmittedKept.of_eq p3 p4).trans hab).trans hmoved).trans (.of_keeps kfold)
  rw [onIstr_eq]
  generalize istrFolded c (istrLooped c i d) = q at *
  rcases pathOnCur_cases c q with ht | k
  · exact .inl ((ht.congr (busEval_paths _)).congr (.of_keeps (chanSample_keeps ..)))
  · have hk : AdmittedKept d (pathOnCur c q) := hadm.trans (.of_keeps k)
    have hset : busSettled (pathOnCur c q) = true := by
      rw [busSettled, hk.bus, hb]
      exact hk.any ha
    refine .inr ?_
    rw [busEval_settled hset]
    have hch : (pathOnCur c q).chans = q.chans := k.parts .chans rfl
    exact hg _ _ ((chanSample_loop c _).words c).symm (by rw [hch]; exact hgf)

end Sys2Proof.Machine

/-! ## Results and stream results (06: R232; 09: R327, R334, R335, R353; 12: R457, R459, R472) -/

namespace Sys2Proof.Machine

/-! ### What each role is fed (R327) -/

section
variable {m : Pm} {code : Int} {w : Word} {d : Device}

theorem feed_vstr (h : roleEff d m = 1) : feed m code w d = onVstr (roleChan d m) (codeV d m code) (d.updChan (roleChan d m) fun s => { s with vOwn := some (codeV d m code) }) := by
  simp only [feed, h]

theorem feed_istr (h : roleEff d m = 2) : feed m code w d = onIstr (roleChan d m) (codeA d m code) false d := by simp only [feed, h]

theorem feed_vsrc (h : roleEff d m = 3) : feed m code w d = onVsrc (Pm.quad m) (codeV d m code) d := by simp only [feed, h]

theorem feed_isrc (h : roleEff d m = 4) : feed m code w d = onIsrc (Pm.quad m) (codeA d m code) d := by simp only [feed, h]

theorem feed_sys (h : roleEff d m = 5) : feed m code w d = onSys (Pm.quad m) (codeV d m code) w d := by simp only [feed, h]

theorem feedCover_istr {i : Qty} (h : roleEff d m = 2) (hc : coverI d (roleChan d m) = some i) : feedCover m d = onIstr (roleChan d m) i false (coverBook m i (codeA d m 8388608) d) := by
  simp only [feedCover, h, hc]

theorem covered_istr {i : Qty} (h : roleEff d m = 2) (hd : (d.mods[m]).degraded = true) (hc : coverI d (roleChan d m) = some i) : covered d m = true := by
  simp only [covered, h, hc, hd, Option.isSome_some, Bool.and_self]

end

/-! ### A result that is used -/

section
variable (m : Pm) (raw : Int) (ovr : Bool) (d : Device)

/-- The result word of a stream result. -/
def streamWord : Word := resultWord d m 0 (correct d m raw).1 (ovr || (correct d m raw).2) false false

/-- The consumers of the result have it. -/
def streamPassed : Device := feed m (correct d m raw).1 (streamWord m raw ovr d) (streamTaken m raw ovr d)

theorem streamPassed_keeps : (streamPassed m raw ovr d).clk = d.clk ∧ (streamPassed m raw ovr d).mods = (streamTaken m raw ovr d).mods := by
  have k := feed_keeps m (correct d m raw).1 (streamWord m raw ovr d) (streamTaken m raw ovr d)
  exact ⟨(k.clk_eq : (streamPassed m raw ovr d).clk = _).trans (streamTaken_keeps m raw ovr d).clk_eq, k.parts .mods rfl⟩

theorem streamFed_faulted : Faulted m (streamPassed m raw ovr d) (streamFed m raw ovr d) := streamJudged_faulted ..

theorem streamFed_clk : (streamFed m raw ovr d).clk = d.clk := (streamFed_faulted m raw ovr d).clk.trans (streamPassed_keeps m raw ovr d).1

theorem streamFed_booked : Booked m (correct d m raw).1 (streamWord m raw ovr d) d.clk.up (streamFed m raw ovr d).mods[m] := by
  have hf := streamFed_faulted m raw ovr d
  have hb := streamTaken_booked m raw ovr d
  rw [← (streamPassed_keeps m raw ovr d).2] at hb
  exact ⟨hf.code.trans hb.code, hf.word.trans hb.word, hf.wordAt.trans hb.wordAt, hf.resAt.trans hb.resAt⟩

variable {m d}

theorem streamFed_vstr (h : roleEff d m = 1) : ((streamFed m raw ovr d).chans[roleChan d m]).v = codeV d m (correct d m raw).1 := by
  have hr := streamTaken_role m raw ovr d
  rw [(streamFed_faulted m raw ovr d).meas.v, streamPassed, feed_vstr (hr.roleEff.trans h), hr.roleChan, onVstr_meas, hr.codeV]

theorem streamPassed_istr (h : roleEff d m = 2) : streamPassed m raw ovr d = onIstr (roleChan d m) (codeA d m (correct d m raw).1) false (streamTaken m raw ovr d) := by
  have hr := streamTaken_role m raw ovr d
  rw [streamPassed, feed_istr (hr.roleEff.trans h), hr.roleChan, hr.codeA]

theorem streamFed_istr (h : roleEff d m = 2) : ((streamFed m raw ovr d).chans[roleChan d m]).i = codeA d m (correct d m raw).1 := by
  rw [(streamFed_faulted m raw ovr d).meas.i, streamPassed_istr raw ovr h, onIstr_meas]

theorem streamFed_vsrc (h : roleEff d m = 3) : ((streamFed m raw ovr d).srcs[Pm.quad m]).v = codeV d m (correct d m raw).1 := by
  have hr := streamTaken_role m raw ovr d
  rw [(streamFed_faulted m raw ovr d).srcs, streamPassed, feed_vsrc (hr.roleEff.trans h), onVsrc_meas, hr.codeV]

theorem streamFed_isrc (h : roleEff d m = 4) : ((streamFed m raw ovr d).srcs[Pm.quad m]).i = codeA d m (correct d m raw).1 := by
  have hr := streamTaken_role m raw ovr d
  rw [(streamFed_faulted m raw ovr d).srcs, streamPassed, feed_isrc (hr.roleEff.trans h), onIsrc_meas, hr.codeA]

theorem streamFed_sys (h : roleEff d m = 5) : ((streamFed m raw ovr d).quads[Pm.quad m]).sysVal = codeV d m (correct d m raw).1 ∧
    ((streamFed m raw ovr d).quads[Pm.quad m]).sysAt = some d.clk.up ∧ (hkWaits d (Pm.quad m) = false →
      ((streamFed m raw ovr d).quads[Pm.quad m]).hkVal = codeV d m (correct d m raw).1 ∧ ((streamFed m raw ovr d).quads[Pm.quad m]).hkAt = some d.clk.up) := by
  have hr := streamTaken_role m raw ovr d
  have k := streamTaken_keeps m raw ovr d
  have hclk : (streamTaken m raw ovr d).clk = d.clk := k.clk_eq
  have hrest : (streamTaken m raw ovr d).isl.rest = d.isl.rest := k.parts .isl rfl
  have hst : (streamTaken m raw ovr d).isl.stalled = d.isl.stalled := (congrArg Islands.stalled hrest :)
  have hw : hkWaits (streamTaken m raw ovr d) (Pm.quad m) = hkWaits d (Pm.quad m) := by rw [hkWaits, fifoOf, hst, k.fifo_eq, hkWaits, fifoOf]
  have hs := onSys_sys (Pm.quad m) (codeV d m (correct d m raw).1) (streamWord m raw ovr d) (streamTaken m raw ovr d)
  rw [hclk, hw] at hs
  have he : streamPassed m raw ovr d = onSys (Pm.quad m) (codeV d m (correct d m raw).1) (streamWord m raw ovr d) (streamTaken m raw ovr d) := by
    rw [streamPassed, feed_sys (hr.roleEff.trans h), hr.codeV]
  rw [(streamFed_faulted m raw ovr d).quads, he]
  exact hs

/-- A result that has not been repeated too often faults nothing. -/
theorem streamFed_fresh (h : (d.mods[m]).same < 255) : streamFed m raw ovr d = streamPassed m raw ovr d := by
  have hs := streamTaken_same m raw ovr d
  have hm := (streamPassed_keeps m raw ovr d).2
  refine if_neg fun h2 => ?_
  have h3 : 256 ≤ ((streamPassed m raw ovr d).mods[m]).same := h2
  rw [hm] at h3
  omega

end

/-! ### From the instant of the command -/

theorem waitUp_role (m : Pm) (n : Nat) (d : Device) : SameRole m d (waitUp n d) := ⟨rfl, rfl, rfl⟩

theorem correct_conf {d e : Device} (h : e.memory.conf = d.memory.conf) (m : Pm) (raw : Int) : correct e m raw = correct d m raw := by
  simp only [correct, calibrated, calKind, calOfs, calGain, Device.cf, h]
  rfl

/-- A string current whose result is used: its channel trips, or stands as its moves have left it. -/
theorem streamResult_moved {m : Pm} {raw : Int} {ovr : Bool} {d : Device} (hu : StreamUsed m d) (hf : (d.mods[m]).failed = false) (h2 : roleEff d m = 2)
    (hsame : (d.mods[m]).same < 255) {g : ChanSt → Prop} (hg : ∀ s t, sansLoop s = sansLoop t → g s → g t) (hn : ∀ s, g s → s.st ≠ .start)
    (hv : (d.chans[roleChan d m]).vSeen = true) (hs : (effSev d (0x360 + (roleChan d m).1)).holds = false) (hp : (d.paths[roleChan d m]).st ≠ .tripped)
    (hb : d.bus.st = .sourced) (ha : anyAdmitted d = true) (hm : ∀ o b, BeforeMoves (roleChan d m) d b → g (loopMoves (roleChan d m) o b).chans[roleChan d m]) :
    Tripped (roleChan d m) (streamResult m raw ovr d) ∨ g (streamResult m raw ovr d).chans[roleChan d m] := by
  obtain ⟨w, hw⟩ : ∃ w, waitUp (nextResult d m) d = w := ⟨_, rfl⟩
  have hr : SameRole m d w := hw ▸ waitUp_role ..
  have hwm : w.mods = d.mods := by rw [← hw, waitUp_mods]
  have hwp : w.paths = d.paths := by rw [← hw, waitUp_paths]
  have hwc : w.chans = d.chans := by rw [← hw, waitUp_chans]
  have hwb : w.bus = d.bus := by rw [← hw, waitUp_bus]
  have hws : w.srcs = d.srcs := by rw [← hw, waitUp_srcs]
  have hwf : w.faults = d.faults := by rw [← hw, waitUp_faults]
  have hwst : w.start = d.start := by rw [← hw, waitUp_start]
  have k := streamTaken_keeps m raw ovr w
  have xp : (streamTaken m raw ovr w).paths = d.paths := (k.parts .paths rfl : _ = _).trans hwp
  have xc : (streamTaken m raw ovr w).chans = d.chans := (k.parts .chans rfl : _ = _).trans hwc
  have xb : (streamTaken m raw ovr w).bus = d.bus := (k.parts .bus rfl : _ = _).trans hwb
  have xs : (streamTaken m raw ovr w).srcs = d.srcs := (k.parts .srcs rfl : _ = _).trans hws
  have xf : (streamTaken m raw ovr w).faults = d.faults := (k.parts .faults rfl : _ = _).trans hwf
  have xst : (streamTaken m raw ovr w).start = d.start := (k.start_eq rfl rfl rfl : _ = _).trans hwst
  have xm : (streamTaken m raw ovr w).memory.conf = d.memory.conf := (k.parts .conf rfl : _ = _).trans hr.conf
  rw [streamResult_used hu hf hw, streamFed_fresh raw ovr (by rw [hwm]; exact hsame), streamPassed_istr raw ovr (by rw [hr.roleEff, h2]), hr.roleChan]
  generalize streamTaken m raw ovr w = x at *
  refine onIstr_moved hg hn (by rw [xc]; exact hv) (by rw [effSev_conf _ xm xf]; exact hs) (by rw [xst]; exact hu.runs) (by rw [xp]; exact hp) (by rw [xb]; exact hb)
    (by rw [anyAdmitted, xs]; exact ha) fun o b hbm => hm o b ⟨?_, ?_, ?_, ?_, ?_⟩
  · rw [hbm.st, xc]
  · rw [hbm.host, xc]
  · rw [hbm.reload, xc]
  · exact fun hf => hbm.free (by rw [xc]; exact hf)
  · exact (PathStill.of_eq (by rw [xp])).trans hbm.path

/-- A stopped restart: OFF, with a request. -/
def Restarting (s : ChanSt) : Prop := s.st = .off ∧ s.restart = true

/-- Stopped by a region reload. -/
def StopsForReload (s : ChanSt) : Prop := s.st = .stop ∧ s.stopCause = 4

theorem restarting_loop (s t : ChanSt) (h : sansLoop s = sansLoop t) (hs : Restarting s) : Restarting t := by
  have h1 : s.st = t.st := (congrArg ChanSt.st h : (sansLoop s).st = (sansLoop t).st)
  have h2 : s.restart = t.restart := (congrArg ChanSt.restart h : (sansLoop s).restart = (sansLoop t).restart)
  exact ⟨h1 ▸ hs.1, h2 ▸ hs.2⟩

theorem stopsForReload_loop (s t : ChanSt) (h : sansLoop s = sansLoop t) (hs : StopsForReload s) : StopsForReload t := by
  have h1 : s.st = t.st := (congrArg ChanSt.st h : (sansLoop s).st = (sansLoop t).st)
  have h2 : s.stopCause = t.stopCause := (congrArg ChanSt.stopCause h : (sansLoop s).stopCause = (sansLoop t).stopCause)
  exact ⟨h1 ▸ hs.1, h2 ▸ hs.2⟩

/-- A used result stands with its modulator and with the consumer of its role. -/
theorem streamResult_words {m : Pm} {raw : Int} {ovr : Bool} {d e : Device} (hu : StreamUsed m d) (hf : (d.mods[m]).failed = false) (he : streamResult m raw ovr d = e) :
    Booked m (correct d m raw).1 (streamWord m raw ovr (waitUp (nextResult d m) d)) e.clk.up e.mods[m] ∧
    (roleEff d m = 1 → (e.chans[roleChan d m]).v = codeV d m (correct d m raw).1) ∧ (roleEff d m = 2 → (e.chans[roleChan d m]).i = codeA d m (correct d m raw).1) ∧
    (roleEff d m = 3 → (e.srcs[Pm.quad m]).v = codeV d m (correct d m raw).1) ∧ (roleEff d m = 4 → (e.srcs[Pm.quad m]).i = codeA d m (correct d m raw).1) ∧
    (roleEff d m = 5 → (e.quads[Pm.quad m]).sysVal = codeV d m (correct d m raw).1 ∧ (e.quads[Pm.quad m]).sysAt = some e.clk.up ∧
      (hkWaits d (Pm.quad m) = false → (e.quads[Pm.quad m]).hkVal = codeV d m (correct d m raw).1 ∧ (e.quads[Pm.quad m]).hkAt = some e.clk.up)) := by
  obtain ⟨w, hw⟩ : ∃ w, waitUp (nextResult d m) d = w := ⟨_, rfl⟩
  have hro : SameRole m d w := hw ▸ waitUp_role ..
  have hwt : hkWaits w (Pm.quad m) = hkWaits d (Pm.quad m) := by rw [← hw]; rfl
  have hco : correct w m raw = correct d m raw := correct_conf hro.conf m raw
  have hb := streamFed_booked m raw ovr w
  have h1 := streamFed_vstr (m := m) raw ovr (d := w)
  have h2 := streamFed_istr (m := m) raw ovr (d := w)
  have h3 := streamFed_vsrc (m := m) raw ovr (d := w)
  have h4 := streamFed_isrc (m := m) raw ovr (d := w)
  have h5 := streamFed_sys (m := m) raw ovr (d := w)
  rw [← he, hw, streamResult_used hu hf hw, streamFed_clk]
  simp only [hro.roleEff, hro.roleChan, hro.codeV, hro.codeA, hco, hwt] at hb h1 h2 h3 h4 h5
  exact ⟨hb, h1, h2, h3, h4, h5⟩

/-- The cover of a failed string-current modulator is the command of its open gate (R459). -/
theorem streamResult_commanded {m : Pm} {raw : Int} {ovr : Bool} {d : Device} (hu : StreamUsed m d) (hf : (d.mods[m]).failed = true) (hd : (d.mods[m]).degraded = true)
    (h2 : roleEff d m = 2) (hg : (d.chans[roleChan d m]).gate = true) :
    ((streamResult m raw ovr d).chans[roleChan d m]).i = (d.chans[roleChan d m]).icmd ∧ bitOf ((streamResult m raw ovr d).mods[m]).word.toNat 31 = true := by
  obtain ⟨w, hw⟩ : ∃ w, waitUp (nextResult d m) d = w := ⟨_, rfl⟩
  obtain ⟨x, hx⟩ : ∃ x, w.updMod m (fun s => { s with resAt := some w.up }) = x := ⟨_, rfl⟩
  have hwm : w.mods = d.mods := by rw [← hw, waitUp_mods]
  have hxm : x.mods[m] = { d.mods[m] with resAt := some w.up } := by rw [← hx, updMod_mods, upd_same, hwm]
  have hxc : x.chans = d.chans := by rw [← hx, updMod_chans, ← hw, waitUp_chans]
  have hr : SameRole m d x := ⟨by rw [← hx, ← hw]; rfl, by rw [hxm], by rw [hxm]⟩
  have hcov : coverI x (roleChan d m) = some (d.chans[roleChan d m]).icmd := by
    rw [coverI, hxc]
    exact if_pos hg
  have hcx : coverI x (roleChan x m) = some (d.chans[roleChan d m]).icmd := by rw [hr.roleChan, hcov]
  have he : feedCover m x = onIstr (roleChan d m) (d.chans[roleChan d m]).icmd false (coverBook m (d.chans[roleChan d m]).icmd (codeA x m 8388608) x) := by
    rw [feedCover_istr (hr.roleEff.trans h2) hcx, hr.roleChan]
  have hc : covered x m = true := covered_istr (hr.roleEff.trans h2) (by rw [hxm]; exact hd) hcx
  have hword : ((onIstr (roleChan d m) (d.chans[roleChan d m]).icmd false (coverBook m (d.chans[roleChan d m]).icmd (codeA x m 8388608) x)).mods[m]).word =
      resultWord x m 0 (satCode (qRound (qdiv ((d.chans[roleChan d m]).icmd * 8388608) (codeA x m 8388608)))) false false false := by
    rw [show (onIstr (roleChan d m) (d.chans[roleChan d m]).icmd false (coverBook m (d.chans[roleChan d m]).icmd (codeA x m 8388608) x)).mods =
      (coverBook m (d.chans[roleChan d m]).icmd (codeA x m 8388608) x).mods from (onIstr_keeps ..).parts .mods rfl, coverBook]
    rw [updMod_mods, upd_same]
  rw [streamResult_covered hu hf hw, hx, he, onIstr_meas, hword]
  exact ⟨rfl, (resultWord_bits ..).2.2.2.2.2.2.2.trans hc⟩

/-! ### The obligation -/

/-- Settles O36. -/
theorem results : Obligations.Results := by
  unfold Obligations.Results
  refine ⟨fun d m raw hc h1 h2 => correct_raw hc h1 h2, fun d m raw hc => correct_calibrated hc, correct_range, ?_, againstB_inputs, fun m raw ovr s hk hc => ?_,
    fun m raw ovr s hk hr hc hs hf hh => ?_, fun m raw ovr s hk hr hc hs hf hh hst => ?_, fun m c raw ovr s hk hr hc hs hf hh hst h2 hce hsame hv hsev hp hb ha hch hho hpa => ?_,
    fun m c raw ovr s hk hr hc hs hf hh hst h2 hce hsame hv hsev hp hb ha hch hpa => ?_,
    fun m c raw ovr s hk hr hc hs hf hh hst h2 hce hsame hv hsev hp hb ha hch hho hre => ?_, fun m raw ovr s hk hr hc hs hf hh hst hd h2 hg => ?_,
    fun m s hc hf => ?_, fun m s hf => ?_⟩
  · rintro d m input code ovr halt tap w h1 h2 rfl
    exact ⟨resultWord_code h1 h2, resultWord_bits ..⟩
  · obtain ⟨t, ht, hd⟩ := done_next (streamResult m raw.toInt ovr) s
    exact ⟨t, (execStreamResult_calm m raw ovr s hk).trans ht, hd.trans (congrArg drive (streamResult_gated hc))⟩
  · obtain ⟨t, ht, hd⟩ := done_next (streamResult m raw.toInt ovr) s
    refine ⟨t, (execStreamResult_calm m raw ovr s hk).trans ht, ?_⟩
    obtain ⟨w, hw⟩ : ∃ w, waitUp (nextResult s.dev m) s.dev = w := ⟨_, rfl⟩
    have hwu : w.clk.up = max s.dev.clk.up (nextResult s.dev m) := by rw [← hw, waitUp_up]
    have hwm : w.mods = s.dev.mods := by rw [← hw, waitUp_mods]
    have hwh : w.hk = s.dev.hk := by rw [← hw, waitUp_hk]
    have hwc : w.chans = s.dev.chans := by rw [← hw, waitUp_chans]
    have hwp : w.paths = s.dev.paths := by rw [← hw, waitUp_paths]
    rw [hd, drive_clk, drive_mods, drive_chans, drive_paths, streamResult_on hr hc hs hw, if_pos (.inr (by rw [hwh]; exact hh)), updMod_clk, updMod_mods, updMod_chans,
      updMod_paths, upd_same, hwu, hwm, hwc, hwp]
    exact ⟨rfl, congrArg some hwu, rfl, rfl, rfl, rfl⟩
  · obtain ⟨t, ht, hd⟩ := done_next (streamResult m raw.toInt ovr) s
    obtain ⟨e, he⟩ : ∃ e, streamResult m raw.toInt ovr s.dev = e := ⟨_, rfl⟩
    obtain ⟨⟨b1, b2, b3, b4⟩, h1, h2, h3, h4, h5⟩ := streamResult_words ⟨hr, hc, hs, hh, hst⟩ hf he
    have hco : correct (waitUp (nextResult s.dev m) s.dev) m raw.toInt = correct s.dev m raw.toInt := correct_conf (waitUp_role m _ s.dev).conf m _
    rw [streamWord, hco] at b2
    refine ⟨t, (execStreamResult_calm m raw ovr s hk).trans ht, ?_⟩
    rw [hd, he, drive_clk, drive_mods, drive_chans, drive_srcs, drive_quads]
    exact ⟨b4, b1, b2, b3, h1, h2, h3, h4, h5⟩
  · obtain ⟨t, ht, hd⟩ := done_next (streamResult m raw.toInt ovr) s
    subst hce
    refine ⟨t, (execStreamResult_calm m raw ovr s hk).trans ht, ?_⟩
    rw [hd, drive_paths, drive_chans]
    refine streamResult_moved ⟨hr, hc, hs, hh, hst⟩ hf h2 hsame (g := Restarting) restarting_loop (fun x h => by rw [h.1]; nofun) hv hsev hp hb ha fun o b hbm => ?_
    rw [loopMoves_freed (hbm.st.trans hch) (hbm.free hho) ?_]
    · exact restarts_off ..
    · rcases hbm.path with h | ⟨-, h⟩ <;> rw [h]
      · exact hpa
      · nofun
  · obtain ⟨t, ht, hd⟩ := done_next (streamResult m raw.toInt ovr) s
    subst hce
    refine ⟨t, (execStreamResult_calm m raw ovr s hk).trans ht, ?_⟩
    rw [hd, drive_paths, drive_chans]
    refine streamResult_moved ⟨hr, hc, hs, hh, hst⟩ hf h2 hsame (g := Restarting) restarting_loop (fun x h => by rw [h.1]; nofun) hv hsev hp hb ha fun o b hbm => ?_
    rw [loopMoves_present (hbm.st.trans hch) ?_]
    · exact restarts_off ..
    · rcases hbm.path with h | ⟨h, -⟩
      · rw [h]
        exact hpa
      · rw [h] at hpa
        cases hpa
  · obtain ⟨t, ht, hd⟩ := done_next (streamResult m raw.toInt ovr) s
    subst hce
    refine ⟨t, (execStreamResult_calm m raw ovr s hk).trans ht, ?_⟩
    rw [hd, drive_paths, drive_chans]
    refine streamResult_moved ⟨hr, hc, hs, hh, hst⟩ hf h2 hsame (g := StopsForReload) stopsForReload_loop (fun x h => by rw [h.1]; nofun) hv hsev hp hb ha fun o b hbm => ?_
    rw [loopMoves_reload (by rw [hbm.st]; exact hch) (hbm.host.trans hho) (hbm.reload.trans hre)]
    exact enterStop_reload ..
  · obtain ⟨t, ht, hd'⟩ := done_next (streamResult m raw.toInt ovr) s
    refine ⟨t, (execStreamResult_calm m raw ovr s hk).trans ht, ?_⟩
    rw [hd', drive_chans, drive_mods]
    exact streamResult_commanded ⟨hr, hc, hs, hh, hst⟩ hf hd h2 hg
  · obtain ⟨t, ht, hd⟩ := done_next (streamFault m) s
    refine ⟨t, ht, ?_⟩
    rw [hd, drive_mods, drive_faults]
    exact streamFault_first hc hf
  · obtain ⟨t, ht, hd⟩ := done_next (streamFault m) s
    refine ⟨t, ht, ?_⟩
    have hk : Keeps [.mods] s.dev (s.dev.updMod m fun x => { x with streamOk := false }) := updMod_keeps ..
    rw [hd, streamFault_again hf]
    refine ⟨?_, rfl, fun k hkm => ?_, hk.drive.parts⟩
    · rw [drive_mods, updMod_mods, upd_same]
    · rw [drive_mods, updMod_mods, upd_other _ _ _ _ hkm]

end Sys2Proof.Machine
